-- ==== Sys2Proof/Word.lean ====
section
/-! DEFINITION. The word types of the SK4 and the sparse map every storage of the model is held in. -/

namespace Sys2Proof

/-- A byte of warm memory, of the cold store or of a control structure (R7). -/
abbrev Byte := BitVec 8

/-- A 32-bit control word, order, vector lane or accumulator word. -/
abbrev Word32 := BitVec 32

/-- A 64-bit cluster register or handle (R14, R16). -/
abbrev Word := BitVec 64

/-- A storage held as data: the entries that differ from what an unlisted index reads as, indices rising. -/
abbrev Sp (α : Type) := List (Nat × α)

namespace Sp

/-- The entry at index `k`, or `d` where none is listed. -/
def get {α : Type} (d : α) : Sp α → Nat → α
  | [], _ => d
  | (i, v) :: rest, k => if k < i then d else if k = i then v else get d rest k

/-- Drop the listed entries at or below `k`. -/
def dropUpTo {α : Type} (k : Nat) : Sp α → Sp α
  | [] => []
  | (i, v) :: rest => if i ≤ k then dropUpTo k rest else (i, v) :: rest

/-- Write `v` at `k`; writing the unlisted value `d` removes the entry. -/
def set {α : Type} [DecidableEq α] (d : α) : Sp α → Nat → α → Sp α
  | [], k, v => if v = d then [] else [(k, v)]
  | (i, w) :: rest, k, v =>
    if k < i then (if v = d then (i, w) :: rest else (k, v) :: (i, w) :: rest)
    else if k = i then (if v = d then dropUpTo k rest else (k, v) :: dropUpTo k rest)
    else (i, w) :: set d rest k v

/-- Write `v` at `k` and list it whatever it is (for records, whose comparison is long). -/
def put {α : Type} : Sp α → Nat → α → Sp α
  | [], k, v => [(k, v)]
  | (i, w) :: rest, k, v =>
    if k < i then (k, v) :: (i, w) :: rest
    else if k = i then (k, v) :: dropUpTo k rest
    else (i, w) :: put rest k v

/-- Canonical form: indices strictly rising, no entry equal to the unlisted value. -/
def wf {α : Type} [DecidableEq α] (d : α) : Sp α → Bool
  | [] => true
  | [(_, v)] => !decide (v = d)
  | (i, v) :: (j, w) :: rest => !decide (v = d) && decide (i < j) && wf d ((j, w) :: rest)

end Sp

end Sys2Proof
end

