-- ==== Sys2Proof/Config.lean ====
section
/-! DEFINITION. What an SK4 fixes, and the free values: figures and choices the spec leaves open, as constants without
a body, applied to a counter of the state that every use advances. -/

namespace Sys2Proof.Config

/-- A free value: a time, an index or an order the spec leaves open. Every use reads it at a fresh count. DESIGN CHOICE
(log 1). -/
opaque free : Nat → Nat

/-- A free choice between two behaviours the spec allows. DESIGN CHOICE (log 1). -/
opaque choice : Nat → Bool

/-- Whether a core's load queue reaches its head before its store queue in a warm cycle: R138 and R360 leave the order open.
DESIGN CHOICE (log 8). -/
opaque loadFirst : Nat → Nat → Bool

/-- Warm cycles that entry `seq` of a queue of a core stays at the head beyond the first in which it may be performed, modulo 32: R138
and R360 leave them open, within the bound DB of R379. DESIGN CHOICE (log 8). -/
opaque lag (core queue seq : Nat) : Nat

/-- Cold cycles in a warm cycle (R3). -/
def coldPerWarm : Nat := 16

/-- Packages of a pod (R5). -/
def packages : Nat := 576

/-- Depth of a dependence-token FIFO and of a link-port FIFO (R17). -/
def tokenDepth : Nat := 8
def portDepth : Nat := 4

/-- Entries of the load, store and engine command queues (R19). -/
def loadDepth : Nat := 32
def storeDepth : Nat := 32
def engineDepth : Nat := 128

/-- Crossings and copy entries a core may have outstanding (R162). -/
def outstanding : Nat := 512

/-- Warm cycles after issue before which no queue entry is performed and no compared word ends (R405). -/
def shadowWait : Nat := 7

/-- Cold cycles from performance at the queue head to the engine (R142, R187). -/
def engineReach : Nat := 32

/-- Bytes of the egress buffer (R172). -/
def egressBytes : Nat := 131072

/-- Warm cycles of a heat window (R426). -/
def windowWarm : Nat := 1024

/-- Heat budget of a window at reset (R31). -/
def heatBudget : Nat := 48000000

end Sys2Proof.Config
end

