-- ==== Sys2Proof/Syntax.lean ====
section
/-! DEFINITION. The instructions: one constructor for every row of the spec's opcode table. Control words, matrix,
vector and temporal orders carry the fields of their encodings; copy commands carry their entry; the steps that no
word encodes carry what the outside world supplies, where it supplies anything. -/

namespace Sys2Proof

/-- The four clusters of a control core (R16), in the lane order of a bundle (R73). -/
inductive Lane where
  | L | E | S | K
  deriving DecidableEq, Repr

/-- The three cold engines, in the coding of the engine control words (R140). -/
inductive EngineId where
  | matrix | vector | temporal
  deriving DecidableEq, Repr

/-- The queues of a core, as the queue masks name them (R83). -/
inductive QueueId where
  | load | store | engine | string
  deriving DecidableEq, Repr

/-- The fields of a copy string entry besides its command code (R98). -/
structure CopyEntry where
  flags  : BitVec 8
  len    : BitVec 32
  src    : Word
  dst    : Word
  aux    : Word
  seed   : BitVec 32
  expect : BitVec 32
  arg    : Word
  deriving DecidableEq, Repr

/-- A memory or link error as an error bank records it (R413). -/
structure MemError where
  source        : BitVec 4
  uncorrectable : Bool
  addr          : Word
  phys          : BitVec 8
  owner         : BitVec 12
  syndrome      : Word
  deriving DecidableEq, Repr

/-- What the firmware writes at step 6 of bring-up (R460): key slots, region entries by partition, launch arm entries with the partition
and queue they belong to, and the classifier's entries, a port's after the other's (R464). -/
structure BootTables where
  keys     : List (BitVec 8 × BitVec 512) := []
  regions  : List (Nat × BitVec 12 × BitVec 512) := []
  arms     : List (BitVec 8 × Nat × Nat × BitVec 256) := []
  classify : List (BitVec 7 × BitVec 96) := []
  deriving DecidableEq, Repr

/-- What module reset meets: the flash, with the firmware and its CRC-32 and both copies of the configuration record, what the firmware
goes on to do, and the cold plate (R460 to R462). -/
structure BootInputs where
  firmware    : List (BitVec 8)
  firmwareCrc : BitVec 32
  config0     : BitVec 512
  config1     : BitVec 512
  memprot     : Word
  memoryOk    : Bool
  stageMilliK : Nat
  liftMilliW  : Nat
  portsUp     : BitVec 72
  tables      : BootTables
  hostEntry   : Word
  deriving DecidableEq, Repr

/-- What the loader fills into eight bytes of a region (R108): the token id of unit 0 of a region, or the handle of a label. -/
inductive Fill where
  | tokid (region : BitVec 12)
  | label (region : BitVec 12) (off : Nat)
  deriving DecidableEq, Repr

/-- A region a kernel image declares (R108), with its place and bytes (R435), and what the loader fills in, by offset. -/
structure ImageRegion where
  index  : BitVec 12
  units  : Nat
  rw     : Bool
  pinned : Bool
  mirror : Bool
  home   : Option (BitVec 10)
  base   : BitVec 40
  mbase  : BitVec 40
  token  : BitVec 34
  bytes  : List Byte
  fills  : List (Nat × Fill) := []
  deriving DecidableEq, Repr

/-- A kernel image as the loader sees it: its regions, its entry and what its directives declare (R108, R365). -/
structure KernelImage where
  entry     : Word
  codeIndex : BitVec 12
  regions   : List ImageRegion
  minCores  : Nat
  multCores : Nat
  matSteps  : Nat
  vecOrders : Nat
  tmpOrders : Nat
  preempt   : List (Word × Nat)
  /-- order-table images in the code region, as offset and length in bytes (R110) -/
  tables    : List (Nat × Nat) := []
  /-- the package that loads the kernel, home of a region without a placement (R435) -/
  loader    : BitVec 10 := 0
  deriving DecidableEq, Repr

/-- The instruction set: one constructor for each row of the opcode table, in its order, but for the steps the
outside world causes and those without operands, which stand last. `s` is the SYNC bit, `dep` the dependence bits
PL PR QL QR from the highest down (R85), `w` the STALL count of an order (R90); the other fields are named as the
table names them. -/
inductive Instr where
  /-- Sets gD to gA + gB modulo 2^64. (R117) -/
  | add (s : BitVec 1) (d a b : BitVec 5)
  /-- Sets gD to gA − gB modulo 2^64. (R117) -/
  | sub (s : BitVec 1) (d a b : BitVec 5)
  /-- Sets gD to the bitwise and of gA and gB. (R117) -/
  | and (s : BitVec 1) (d a b : BitVec 5)
  /-- Sets gD to the bitwise or of gA and gB. (R117) -/
  | or (s : BitVec 1) (d a b : BitVec 5)
  /-- Sets gD to the bitwise exclusive or of gA and gB. (R117) -/
  | xor (s : BitVec 1) (d a b : BitVec 5)
  /-- Sets gD to gA and not gB. (R117) -/
  | andn (s : BitVec 1) (d a b : BitVec 5)
  /-- Sets gD to gA or not gB. (R117) -/
  | orn (s : BitVec 1) (d a b : BitVec 5)
  /-- Shifts gA left by gB[5:0] into gD. (R117) -/
  | sll (s : BitVec 1) (d a b : BitVec 5)
  /-- Shifts gA right logically by gB[5:0] into gD. (R117) -/
  | srl (s : BitVec 1) (d a b : BitVec 5)
  /-- Shifts gA right arithmetically by gB[5:0] into gD. (R117) -/
  | sra (s : BitVec 1) (d a b : BitVec 5)
  /-- Sets gD to bits [63:0] of gA × gB. (R117) -/
  | mul (s : BitVec 1) (d a b : BitVec 5)
  /-- Sets gD to bits [127:64] of the signed product. (R117) -/
  | mulh (s : BitVec 1) (d a b : BitVec 5)
  /-- Sets gD to bits [127:64] of the unsigned product. (R117) -/
  | mulhu (s : BitVec 1) (d a b : BitVec 5)
  /-- Signed division toward zero, never trapping. (R118) -/
  | div (s : BitVec 1) (d a b : BitVec 5)
  /-- Unsigned division, never trapping. (R118) -/
  | divu (s : BitVec 1) (d a b : BitVec 5)
  /-- Signed remainder with the sign of gA. (R118) -/
  | rem (s : BitVec 1) (d a b : BitVec 5)
  /-- Unsigned remainder. (R118) -/
  | remu (s : BitVec 1) (d a b : BitVec 5)
  /-- Signed minimum of gA and gB. (R117) -/
  | min (s : BitVec 1) (d a b : BitVec 5)
  /-- Signed maximum of gA and gB. (R117) -/
  | max (s : BitVec 1) (d a b : BitVec 5)
  /-- Unsigned minimum of gA and gB. (R117) -/
  | minu (s : BitVec 1) (d a b : BitVec 5)
  /-- Unsigned maximum of gA and gB. (R117) -/
  | maxu (s : BitVec 1) (d a b : BitVec 5)
  /-- Sets gD to 1 if gA < gB signed. (R117) -/
  | slt (s : BitVec 1) (d a b : BitVec 5)
  /-- Sets gD to 1 if gA < gB unsigned. (R117) -/
  | sltu (s : BitVec 1) (d a b : BitVec 5)
  /-- Counts leading zeros of gA. (R117) -/
  | clz (s : BitVec 1) (d a : BitVec 5)
  /-- Counts trailing zeros of gA, 64 for zero. (R117) -/
  | ctz (s : BitVec 1) (d a : BitVec 5)
  /-- Counts set bits of gA. (R117) -/
  | popc (s : BitVec 1) (d a : BitVec 5)
  /-- Sign-extended 32-bit sum. (R117) -/
  | addw (s : BitVec 1) (d a b : BitVec 5)
  /-- Sign-extended 32-bit difference. (R117) -/
  | subw (s : BitVec 1) (d a b : BitVec 5)
  /-- Sign-extended 32-bit left shift. (R117) -/
  | sllw (s : BitVec 1) (d a b : BitVec 5)
  /-- Sign-extended 32-bit logical right shift. (R117) -/
  | srlw (s : BitVec 1) (d a b : BitVec 5)
  /-- Sign-extended 32-bit arithmetic right shift. (R117) -/
  | sraw (s : BitVec 1) (d a b : BitVec 5)
  /-- Sign-extended 32-bit product. (R117) -/
  | mulw (s : BitVec 1) (d a b : BitVec 5)
  /-- Sets gD to gA + sext(IMM15). (R119) -/
  | addi (s : BitVec 1) (d a : BitVec 5) (i : BitVec 15)
  /-- Bitwise and with a sign-extended immediate. (R119) -/
  | andi (s : BitVec 1) (d a : BitVec 5) (i : BitVec 15)
  /-- Bitwise or with a sign-extended immediate. (R119) -/
  | ori (s : BitVec 1) (d a : BitVec 5) (i : BitVec 15)
  /-- Bitwise exclusive or with a sign-extended immediate. (R119) -/
  | xori (s : BitVec 1) (d a : BitVec 5) (i : BitVec 15)
  /-- Shifts gA left by an immediate count. (R119) -/
  | slli (s : BitVec 1) (d a : BitVec 5) (h : BitVec 6)
  /-- Shifts gA right logically by an immediate count. (R119) -/
  | srli (s : BitVec 1) (d a : BitVec 5) (h : BitVec 6)
  /-- Shifts gA right arithmetically by an immediate count. (R119) -/
  | srai (s : BitVec 1) (d a : BitVec 5) (h : BitVec 6)
  /-- Sets gD to 1 if gA < imm signed. (R119) -/
  | slti (s : BitVec 1) (d a : BitVec 5) (i : BitVec 15)
  /-- Sets gD to 1 if gA < imm unsigned. (R119) -/
  | sltiu (s : BitVec 1) (d a : BitVec 5) (i : BitVec 15)
  /-- Writes sext(IMM20) × 4096 into gD. (R79) -/
  | lui (s : BitVec 1) (d : BitVec 5) (i : BitVec 20)
  /-- Writes PC + sext(IMM20) × 16 into gD. (R79) -/
  | addpc (s : BitVec 1) (d : BitVec 5) (i : BitVec 20)
  /-- Sets a predicate from a comparison of two registers. (R121) -/
  | pcmp (s : BitVec 1) (p : BitVec 2) (a b : BitVec 5) (c : BitVec 3)
  /-- Sets a predicate from a comparison of a register with an immediate. (R121) -/
  | pcmpi (s : BitVec 1) (c : BitVec 3) (p : BitVec 2) (a : BitVec 5) (i : BitVec 15)
  /-- Predicate and. (R122) -/
  | pand (s : BitVec 1) (d a b : BitVec 2)
  /-- Predicate or. (R122) -/
  | por (s : BitVec 1) (d a b : BitVec 2)
  /-- Predicate exclusive or. (R122) -/
  | pxor (s : BitVec 1) (d a b : BitVec 2)
  /-- Predicate not. (R122) -/
  | pnot (s : BitVec 1) (d a : BitVec 2)
  /-- Predicate move. (R122) -/
  | pmov (s : BitVec 1) (d a : BitVec 2)
  /-- Selects gA or gB into gD by a predicate. (R123) -/
  | sel (s : BitVec 1) (d a b : BitVec 5) (p : BitVec 2)
  /-- Branches when p[P] xor N is 1. (R125) -/
  | br (s : BitVec 1) (p : BitVec 2) (n : BitVec 1) (o : BitVec 22)
  /-- Jumps PC-relative and writes the link. (R125) -/
  | jal (s : BitVec 1) (d : BitVec 5) (i : BitVec 20)
  /-- Jumps to gA + imm and writes the link. (R125) -/
  | jalr (s : BitVec 1) (d a : BitVec 5) (i : BitVec 15)
  /-- Starts a counted hardware loop or skips its body on count 0. (R127) -/
  | loop (s p : BitVec 1) (a : BitVec 5) (l : BitVec 15)
  /-- Conditionally pops the innermost loop, transfers and posts a kill marker. (R130) -/
  | lexit (s : BitVec 1) (p : BitVec 2) (n : BitVec 1) (o : BitVec 22)
  /-- Waits until all four clusters stand at the same join, then continues joined. (R133) -/
  | join (n : BitVec 8)
  /-- Pushes gA into the link-port FIFO toward the left neighbour. (R134) -/
  | sendl (s : BitVec 1) (a : BitVec 5)
  /-- Pushes gA into the link-port FIFO toward the right neighbour. (R134) -/
  | sendr (s : BitVec 1) (a : BitVec 5)
  /-- Pops the FIFO arriving from the left into gD. (R134) -/
  | recvl (s : BitVec 1) (d : BitVec 5)
  /-- Pops the FIFO arriving from the right into gD. (R134) -/
  | recvr (s : BitVec 1) (d : BitVec 5)
  /-- Does nothing; with S = 0 splits the cluster off. (R135) -/
  | nop (s : BitVec 1)
  /-- Raises BRK without being performed. (R135) -/
  | brk (s : BitVec 1)
  /-- Sets a coordinate register from gA[31:0]. (R124) -/
  | cset (s : BitVec 1) (c : BitVec 3) (a : BitVec 5)
  /-- Reads a coordinate register sign-extended into gD. (R124) -/
  | cget (s : BitVec 1) (d : BitVec 5) (c : BitVec 3)
  /-- Adds gB[31:0] to a coordinate register modulo 2^32. (R124) -/
  | cadd (s : BitVec 1) (d a : BitVec 3) (b : BitVec 5)
  /-- Adds an immediate to a coordinate register modulo 2^32. (R124) -/
  | caddi (s : BitVec 1) (d a : BitVec 3) (i : BitVec 15)
  /-- Checks and enters a load into the load queue. (R136) -/
  | ld (s : BitVec 1) (d a : BitVec 5) (z : BitVec 3) (i : BitVec 12)
  /-- Checks and enters a store into the store queue. (R136) -/
  | st (s : BitVec 1) (d a : BitVec 5) (z : BitVec 3) (i : BitVec 12)
  /-- Places a marker in both load and store queues. (R138) -/
  | qmark (s : BitVec 1) (dep : BitVec 4)
  /-- Writes dirty L1 lines of a range home. (R139) -/
  | cwb (s : BitVec 1) (dep : BitVec 4) (a b : BitVec 5)
  /-- Drops L1 lines of a range, discarding dirty data. (R139) -/
  | cinv (s : BitVec 1) (dep : BitVec 4) (a b : BitVec 5)
  /-- Writes dirty lines of a range home and drops them. (R139) -/
  | cwbinv (s : BitVec 1) (dep : BitVec 4) (a b : BitVec 5)
  /-- Checks and queues a tensor crossing from warm memory into the cold store with a due stamp. (R165) -/
  | xin (s : BitVec 1) (dep : BitVec 4) (d a b : BitVec 5) (n : BitVec 4) (m : BitVec 2)
  /-- Checks and queues a crossing fanned out to the quad's multicast receivers. (R176) -/
  | xinm (s : BitVec 1) (dep : BitVec 4) (d a b : BitVec 5) (n : BitVec 4) (m : BitVec 2)
  /-- Checks and queues a crossing of cold bytes out to warm memory at a capture stamp. (R171) -/
  | xout (s : BitVec 1) (dep : BitVec 4) (d a b : BitVec 5) (n : BitVec 4) (m : BitVec 1)
  /-- Queues a write of gA into a cold parameter register at the engine's step boundary. (R187) -/
  | xput (s : BitVec 1) (dep : BitVec 4) (a : BitVec 5) (k : BitVec 6)
  /-- Samples a cold flag word or check-record word into gD. (R188) -/
  | xget (s : BitVec 1) (dep : BitVec 4) (d : BitVec 5) (k : BitVec 6)
  /-- Waits for earlier operations on an access path and returns their status. (R184) -/
  | xwait (s : BitVec 1) (dep : BitVec 4) (d : BitVec 5) (p : BitVec 6)
  /-- Cancels a crossing or copy entry and returns its status. (R186) -/
  | xcancel (s : BitVec 1) (dep : BitVec 4) (d a : BitVec 5)
  /-- Loads and checks a shape record into a shape register. (R190) -/
  | shpld (s : BitVec 1) (dep : BitVec 4) (a : BitVec 5) (n : BitVec 4)
  /-- Stores a shape register's record to warm memory. (R190) -/
  | shpst (s : BitVec 1) (dep : BitVec 4) (a : BitVec 5) (n : BitVec 4)
  /-- Fetches a boundary table into the boundary cache. (R190) -/
  | btld (s : BitVec 1) (dep n : BitVec 4)
  /-- Reads one word of a shape register into gD. (R190) -/
  | shpget (s : BitVec 1) (dep : BitVec 4) (d : BitVec 5) (n w : BitVec 4)
  /-- Writes one word of a shape register and rechecks the record. (R190) -/
  | shpset (s : BitVec 1) (dep : BitVec 4) (a : BitVec 5) (n w : BitVec 4)
  /-- Queues a table start stamped at issue plus gA. (R142) -/
  | tstart (s : BitVec 1) (dep : BitVec 4) (a : BitVec 5) (e : BitVec 2)
  /-- Arms an event term to start the engine's table when it fires. (R143) -/
  | tstartEv (s : BitVec 1) (dep t : BitVec 4) (e : BitVec 2)
  /-- Ends the engine's running table and disarms its term. (R144) -/
  | tstop (s : BitVec 1) (dep : BitVec 4) (e : BitVec 2)
  /-- Sets the engine's table base once idle. (R145) -/
  | tbase (s : BitVec 1) (dep : BitVec 4) (a : BitVec 5) (e : BitVec 2)
  /-- Waits until the entry reaches the head and the engine is idle. (R146) -/
  | tsync (s : BitVec 1) (dep : BitVec 4) (e : BitVec 2)
  /-- Validates and installs an order image into an engine's order store. (R147) -/
  | tload (s : BitVec 1) (dep : BitVec 4) (a b : BitVec 5) (e : BitVec 2)
  /-- Writes an event term descriptor. (R149) -/
  | evcfg (s : BitVec 1) (dep : BitVec 4) (a : BitVec 5) (n : BitVec 4)
  /-- Adds 1 to an event counter. (R150) -/
  | evsig (s : BitVec 1) (dep n : BitVec 4)
  /-- Waits until an event counter reaches gA[15:0] and subtracts it. (R150) -/
  | evwait (s : BitVec 1) (dep : BitVec 4) (a : BitVec 5) (n : BitVec 4)
  /-- Makes string entries available up to gA, restarting a halted string. (R312) -/
  | cptail (s : BitVec 1) (dep : BitVec 4) (a : BitVec 5)
  /-- Reads the string's halt status and sequence number. (R313) -/
  | cpseq (s : BitVec 1) (dep : BitVec 4) (d : BitVec 5)
  /-- Lends a span's token to a peer after write-back. (R276) -/
  | ownLend (s : BitVec 1) (dep : BitVec 4) (d a b : BitVec 5)
  /-- Gives a span's token to a peer after write-back. (R276) -/
  | ownGive (s : BitVec 1) (dep : BitVec 4) (d a b : BitVec 5)
  /-- Returns a lent span to its lender. (R276) -/
  | ownRet (s : BitVec 1) (dep : BitVec 4) (d a : BitVec 5)
  /-- Divides a span into two spans. (R278) -/
  | ownSplit (s : BitVec 1) (dep : BitVec 4) (d a b : BitVec 5)
  /-- Joins two adjacent spans into one. (R278) -/
  | ownMerge (s : BitVec 1) (dep : BitVec 4) (d a b : BitVec 5)
  /-- Grants a read share of a span to a peer. (R277) -/
  | ownShare (s : BitVec 1) (dep : BitVec 4) (d a b : BitVec 5)
  /-- Releases the caller's share of a span. (R277) -/
  | ownUnshare (s : BitVec 1) (dep : BitVec 4) (d a : BitVec 5)
  /-- Waits until the caller holds the span EXCL or a share, then returns the query word. (R279) -/
  | ownWait (s : BitVec 1) (dep : BitVec 4) (d a : BitVec 5)
  /-- Returns the query word of a span. (R279) -/
  | ownQuery (s : BitVec 1) (dep : BitVec 4) (d a : BitVec 5)
  /-- Applies the queue mask and arrives at a barrier instance with a vote. (R283) -/
  | bar (s : BitVec 1) (dep : BitVec 4) (d a : BitVec 5) (m : BitVec 4) (o : BitVec 2) (k : BitVec 3)
  /-- Waits until earlier entries of the named queues are performed. (R286) -/
  | fence (s : BitVec 1) (dep m : BitVec 4)
  /-- Atomic int32 add to an accumulator word. (R288) -/
  | aadd (s : BitVec 1) (dep : BitVec 4) (d a b : BitVec 5)
  /-- Atomic fp32 add to an accumulator word. (R288) -/
  | aaddf (s : BitVec 1) (dep : BitVec 4) (d a b : BitVec 5)
  /-- Atomic exchange of an accumulator word. (R288) -/
  | axchg (s : BitVec 1) (dep : BitVec 4) (d a b : BitVec 5)
  /-- Atomic compensated two-sum into two accumulator tiles. (R288) -/
  | a2sum (s : BitVec 1) (dep : BitVec 4) (d a b : BitVec 5)
  /-- Reads a system register into gD. (R151) -/
  | srd (s : BitVec 1) (d : BitVec 5) (x : BitVec 12)
  /-- Writes gA into a system register that has no behaviour of its own. (R151) -/
  | swr (s : BitVec 1) (a : BitVec 5) (x : BitVec 12)
  /-- Performs its bundle and then traps ECALL. (R153) -/
  | ecall (s : BitVec 1) (dep : BitVec 4)
  /-- Returns from a handler, resuming at the TPCs or at RSTLBL. (R396) -/
  | tret (s : BitVec 1) (dep : BitVec 4)
  /-- Acknowledges trap entry. (R391) -/
  | tack (s : BitVec 1) (dep : BitVec 4)
  /-- Drains queues and engines, writes back L1, settles spans and ends the task on the core. (R155) -/
  | halt (s : BitVec 1) (dep : BitVec 4)
  /-- Waits for an event, token, request or 4096 warm cycles. (R156) -/
  | wfi (s : BitVec 1) (dep : BitVec 4)
  /-- Removes the oldest overflow event entry into gD. (R56) -/
  | oeqpop (s : BitVec 1) (dep : BitVec 4) (d : BitVec 5)
  /-- Stops the core for a pending rotation, else has no effect. (R157) -/
  | rotpt (s : BitVec 1) (dep : BitVec 4)
  /-- Invalidates every instruction cache of the die. (R152) -/
  | iinv (s : BitVec 1) (dep : BitVec 4)
  /-- A tested entry at a queue head passes the heat test and is admitted, or is held. (R427) -/
  | crossingAdmit (q : QueueId)
  /-- Every byte of a crossing is in place; e3 or e4 pulses and any stall on it ends. (R173) -/
  | crossingComplete (seq : BitVec 32)
  /-- At its stamp an xout captures its footprint into the egress buffer. (R171) -/
  | xoutCapture (seq : BitVec 32)
  /-- A wait at issue reaches STALLIM and traps. (R113) -/
  | depto (c : Lane)
  /-- A preemptible iteration or a drain exceeds its bound and traps. (R132) -/
  | plen (c : Lane)
  /-- At stamp T the engine begins its table, or STARTF is taken. (R142) -/
  | tableStart (e : EngineId)
  /-- An armed term's condition holds; it fires, consumes and starts its table 32 cycles later. (R149) -/
  | termFire (n : BitVec 4)
  /-- An engine has ended its table and written every result; e0, e1 or e2 pulses. (R141) -/
  | engineIdle (e : EngineId)
  /-- Matrix filler in slot X or Y. (R202) -/
  | mnop (w : BitVec 4)
  /-- Multiplies operand tiles into an accumulator tile. (R204) -/
  | mma (w : BitVec 4) (f : BitVec 3) (x g k o : BitVec 1) (a b : BitVec 4) (c : BitVec 6)
  /-- Copies a cold-store tile into an operand register. (R207) -/
  | mldm (w : BitVec 4) (d p : BitVec 3) (k : BitVec 12)
  /-- Applies one block's scales to a partial into a destination tile. (R209) -/
  | mscale (w : BitVec 4) (a p : BitVec 6) (s : BitVec 3) (b : BitVec 8)
  /-- Stores a tile's data into the cold store. (R210) -/
  | mstore (w : BitVec 4) (a : BitVec 6) (p : BitVec 3) (k : BitVec 12) (g h : BitVec 1)
  /-- Zeros an accumulator tile. (R211) -/
  | mzero (w : BitVec 4) (a : BitVec 6)
  /-- Sends a tile to be added into the ring neighbour's tile. (R215) -/
  | mdrain (w : BitVec 4) (a d : BitVec 6) (c : BitVec 1)
  /-- Checks a tile's checksums and writes the check record. (R216) -/
  | mchk (w : BitVec 4) (a : BitVec 6)
  /-- Repairs one element from its residues, or records FIXFAIL. (R218) -/
  | mfix (w : BitVec 4) (a : BitVec 6) (i j : BitVec 4)
  /-- Copies one accumulator tile into another. (R212) -/
  | mcopy (w : BitVec 4) (a s : BitVec 6)
  /-- Loads or adds fp32 rows from the cold store into a tile. (R213) -/
  | mlda (w : BitVec 4) (a : BitVec 6) (p : BitVec 3) (k : BitVec 12) (e : BitVec 1)
  /-- Forms a compensated sum into two tiles. (R214) -/
  | ma2s (w : BitVec 4) (h l s : BitVec 6)
  /-- Marks the start of a replay window. (R219) -/
  | mtile (w : BitVec 4)
  /-- Makes the following steps a counted body. (R220) -/
  | mloop (w : BitVec 4) (p : BitVec 1) (c : BitVec 12) (l : BitVec 10)
  /-- Writes a cold flag word and pulses e7. (R222) -/
  | mflag (w f : BitVec 4) (v : BitVec 16)
  /-- Issues n filler steps. (R223) -/
  | mwaits (w : BitVec 4) (n : BitVec 16)
  /-- Loads and selects a mask triple. (R196) -/
  | mmask (w : BitVec 4) (q : BitVec 3)
  /-- Loads codebook shape-table entries. (R224) -/
  | mcbt (w : BitVec 4) (p : BitVec 3) (f c : BitVec 8)
  /-- Vector filler. (R90) -/
  | vnop (w : BitVec 4)
  /-- Lane-wise fp32 add. (R248) -/
  | vadd (w : BitVec 4) (d a b : BitVec 5) (m : BitVec 3)
  /-- Lane-wise fp32 subtract. (R248) -/
  | vsub (w : BitVec 4) (d a b : BitVec 5) (m : BitVec 3)
  /-- Lane-wise fp32 multiply. (R248) -/
  | vmul (w : BitVec 4) (d a b : BitVec 5) (m : BitVec 3)
  /-- Lane-wise fused multiply-add. (R248) -/
  | vfma (w : BitVec 4) (d a b : BitVec 5) (m : BitVec 3)
  /-- Lane-wise 2019 minimum. (R248) -/
  | vmin (w : BitVec 4) (d a b : BitVec 5)
  /-- Lane-wise 2019 maximum. (R248) -/
  | vmax (w : BitVec 4) (d a b : BitVec 5)
  /-- Lane-wise absolute value. (R248) -/
  | vabs (w : BitVec 4) (d a : BitVec 5)
  /-- Lane-wise negation. (R248) -/
  | vneg (w : BitVec 4) (d a : BitVec 5)
  /-- Compares lanes and pushes the result mask. (R239) -/
  | vcmp (w : BitVec 4) (a b : BitVec 5) (i : BitVec 1) (c : BitVec 3)
  /-- Converts lanes between formats. (R249) -/
  | vcvt (w : BitVec 4) (d a : BitVec 5) (g : BitVec 4) (x : BitVec 1) (m : BitVec 3) (h : BitVec 4)
  /-- Lane-wise 2^x. (R250) -/
  | vexp2 (w : BitVec 4) (d a : BitVec 5)
  /-- Lane-wise 2^(a − b) of an exact difference. (R250) -/
  | vexpd (w : BitVec 4) (d a b : BitVec 5)
  /-- Lane-wise log2. (R250) -/
  | vlog2 (w : BitVec 4) (d a : BitVec 5)
  /-- Lane-wise reciprocal. (R250) -/
  | vrcp (w : BitVec 4) (d a : BitVec 5)
  /-- Lane-wise reciprocal square root. (R250) -/
  | vrsq (w : BitVec 4) (d a : BitVec 5)
  /-- Lane-wise integer add. (R251) -/
  | viadd (w : BitVec 4) (d a b : BitVec 5)
  /-- Lane-wise integer subtract. (R251) -/
  | visub (w : BitVec 4) (d a b : BitVec 5)
  /-- Lane-wise integer multiply. (R251) -/
  | vimul (w : BitVec 4) (d a b : BitVec 5)
  /-- Lane-wise bitwise and. (R251) -/
  | vand (w : BitVec 4) (d a b : BitVec 5)
  /-- Lane-wise bitwise or. (R251) -/
  | vor (w : BitVec 4) (d a b : BitVec 5)
  /-- Lane-wise bitwise exclusive or. (R251) -/
  | vxor (w : BitVec 4) (d a b : BitVec 5)
  /-- Lane-wise left shift. (R251) -/
  | vshl (w : BitVec 4) (d a b : BitVec 5)
  /-- Lane-wise logical right shift. (R251) -/
  | vshr (w : BitVec 4) (d a b : BitVec 5)
  /-- Lane-wise arithmetic right shift. (R251) -/
  | vsar (w : BitVec 4) (d a b : BitVec 5)
  /-- Selects va or vb per lane by vd bit 0. (R252) -/
  | vsel (w : BitVec 4) (d a b : BitVec 5)
  /-- Copies lanes. (R252) -/
  | vmov (w : BitVec 4) (d a : BitVec 5)
  /-- Broadcasts one lane. (R252) -/
  | vbcast (w : BitVec 4) (d a : BitVec 5) (n : BitVec 6)
  /-- Permutes lanes by index. (R252) -/
  | vperm (w : BitVec 4) (d a b : BitVec 5)
  /-- Reduces lanes by the fixed tree, optionally per segment. (R253) -/
  | vred (w : BitVec 4) (d a : BitVec 5) (i g : BitVec 1) (o : BitVec 2)
  /-- Prefix-scans lanes by the fixed tree, optionally per segment. (R253) -/
  | vscan (w : BitVec 4) (d a : BitVec 5) (i g : BitVec 1) (o : BitVec 2)
  /-- Reads granule sideband tags into lanes. (R242) -/
  | vsegid (w : BitVec 4) (d a : BitVec 5)
  /-- Loads a 256-byte cold row into a vector register. (R254) -/
  | vld (w : BitVec 4) (d : BitVec 5) (n : BitVec 4) (k : BitVec 7)
  /-- Stores a vector register to a 256-byte cold row. (R254) -/
  | vst (w n : BitVec 4) (b : BitVec 5) (k : BitVec 7)
  /-- Reads a quarter of an accumulator tile into lanes. (R255) -/
  | vldacc (w : BitVec 4) (d : BitVec 5) (q : BitVec 3) (c : BitVec 6)
  /-- Writes or adds lanes into a quarter of an accumulator tile. (R255) -/
  | vstacc (w : BitVec 4) (q : BitVec 3) (b : BitVec 5) (c : BitVec 6) (e : BitVec 1)
  /-- Broadcasts a parameter register value into lanes. (R252) -/
  | vparam (w : BitVec 4) (d : BitVec 5) (k : BitVec 7)
  /-- Pushes a mask from lane bit 0. (R238) -/
  | mpush (w : BitVec 4) (a : BitVec 5)
  /-- Inverts the top mask within its parent. (R238) -/
  | minv (w : BitVec 4)
  /-- Pops the top mask into vd. (R238) -/
  | mpop (w : BitVec 4) (d : BitVec 5)
  /-- Skips the next n orders when no lane is active. (R240) -/
  | mskz (w : BitVec 4) (n : BitVec 7)
  /-- Makes the following orders a counted body. (R256) -/
  | vloop (w : BitVec 4) (p : BitVec 1) (c : BitVec 12) (l : BitVec 9)
  /-- Writes a cold flag word and pulses e7. (R257) -/
  | vflag (w n : BitVec 4) (v : BitVec 16)
  /-- Issues n filler orders. (R257) -/
  | vwaits (w : BitVec 4) (n : BitVec 16)
  /-- Temporal filler. (R306) -/
  | tnop (w : BitVec 4)
  /-- Loads crosspoint rows from the cold store. (R299) -/
  | tdload (w : BitVec 4) (f c : BitVec 6) (s : BitVec 2)
  /-- Sets one column's mode. (R300) -/
  | tmode (w : BitVec 4) (c : BitVec 6) (m : BitVec 1)
  /-- Sets every column's mode. (R300) -/
  | tmodeAll (w : BitVec 4) (m : BitVec 1)
  /-- Sets column modes from ts0 and ts1. (R300) -/
  | tmodeTs (w : BitVec 4)
  /-- Sets TWIN. (R301) -/
  | twset (w : BitVec 4) (n : BitVec 8)
  /-- Sets the input latches and starts an evaluation. (R302) -/
  | tlaunch (w : BitVec 4) (a : BitVec 5)
  /-- Captures OUT into a vector register. (R303) -/
  | tcapture (w : BitVec 4) (d : BitVec 5)
  /-- Sets every latch to never. (R304) -/
  | treset (w : BitVec 4)
  /-- Runs n feedback evaluation passes. (R305) -/
  | trelax (w : BitVec 4) (n : BitVec 8)
  /-- Writes a cold flag word and pulses e7. (R306) -/
  | tflag (w f : BitVec 4) (v : BitVec 16)
  /-- Copy entry: copies LEN bytes from FROM to TO. (R318) -/
  | copy (e : CopyEntry)
  /-- Copy entry: shaped copy through a dim table. (R319) -/
  | copys (e : CopyEntry)
  /-- Copy entry: fills TO with a 64-bit pattern. (R318) -/
  | fill (e : CopyEntry)
  /-- Copy entry: copies staged bytes to every listed destination. (R444) -/
  | bcast (e : CopyEntry)
  /-- Copy entry: computes Fletcher-32 over a range. (R322) -/
  | cksum (e : CopyEntry)
  /-- Copy entry: writes 8 bytes of AUX to TO. (R318) -/
  | signal (e : CopyEntry)
  /-- Copy entry: waits for another core's SEQ to reach a value. (R318) -/
  | waitseq (e : CopyEntry)
  /-- Copy entry: returns an ENGINE-held span to its core. (R321) -/
  | tokret (e : CopyEntry)
  /-- Copy entry: redirects HEAD to AUX. (R314) -/
  | link (e : CopyEntry)
  /-- Copy entry: waits until earlier mirrored writes are mirror-complete. (R318) -/
  | mirwait (e : CopyEntry)
  /-- Every 4 ms a rotation is requested for each die's ring. (R455) -/
  | rotation (pkg : BitVec 10) (die : BitVec 2)
  /-- Once every ring core has saved, contexts are rebound one quad onward. (R456) -/
  | rotationRebind (pkg : BitVec 10) (die : BitVec 2)
  /-- A launch record is taken, checked, granted and bound, or rejected. (R365) -/
  | admission (part queue : Nat)
  /-- A waiting launch is tested again when a context slot becomes EMPTY. (R366) -/
  | admissionRetest (part : Nat)
  /-- A BOUND record becomes RUNNING once START and its slot allow. (R369) -/
  | taskStart (slot : BitVec 1)
  /-- A node without a stamp runs or is killed once its predecessors have ended. (R375) -/
  | graphNodeRelease (part launch : Nat)
  /-- A replay record samples origins and parameter pairs and binds every node. (R374) -/
  | graphReplay (part queue : Nat)
  /-- When every record of a launch is ENDED, the completion record is written. (R362) -/
  | launchCompletion (part launch : Nat)
  /-- An arriving message is stored in a payload slot and its template launched, or dropped. (R373) -/
  | messageMatch (pkg : BitVec 10) (tag : BitVec 16) (payload : List (BitVec 8))
  /-- A message queue descriptor is taken and its payload sent. (R446) -/
  | messageSend (pkg : BitVec 10)
  /-- Every 10 ms the margin controller moves VS by the corrected-error rate. (R452) -/
  | marginStep (pkg : BitVec 10) (die : BitVec 2)
  /-- Each minute without a margin error doubles CESET. (R453) -/
  | cesetRestore (pkg : BitVec 10) (die : BitVec 2)
  /-- A droop stretch lasting 2 µs raises the quad set point. (R450) -/
  | droopRaise (pkg : BitVec 10) (die : BitVec 2) (quad : BitVec 4)
  /-- Contexts not drained 1 ms after over-temperature are ended. (R457) -/
  | drainDeadline (pkg : BitVec 10)
  /-- The cold stage is not ready within 600 s and boot fails COLD. (R462) -/
  | coldHandshakeTimeout (pkg : BitVec 10)
  /-- A write to TSTAT changes only EMULATE. (R397) -/
  | tstatWrite (v : BitVec 64)
  /-- A privileged write of 1 to bit 31 clears LOST. (R31) -/
  | oeqstatWrite (v : BitVec 64)
  /-- Sets the budget, clamped to the ceiling, from the next window. (R430) -/
  | heatbudWrite (manager : Bool) (v : BitVec 64)
  /-- Arms an error injection, or is ignored if malformed. (R420) -/
  | injWrite (v : BitVec 64)
  /-- A fault takes the cut, writes the record and enters the handler. (R390) -/
  | trapEntry (cause : BitVec 16) (addr : BitVec 64)
  /-- A pre-emption or rotation request is posted and the task drains toward a stop point. (R399) -/
  | preemptionRequest (rotation : Bool)
  /-- A received Ethernet frame is tagged and offered to the launch arm table. (R464) -/
  | frameClassify (pkg : BitVec 10) (port : BitVec 1) (ethertype : BitVec 16) (payload : List (BitVec 8))
  /-- An arm table entry is written, refused if its tag duplicates. (R373) -/
  | launchArmWrite (pkg : BitVec 10) (entry : BitVec 8) (part queue : Nat) (v : BitVec 256)
  /-- A region table entry is rewritten and shot down, or refused if pinned. (R333) -/
  | regionEntryWrite (part : Nat) (entry : BitVec 12) (v : BitVec 512)
  /-- A key slot is loaded, or refused while a region names it. (R341) -/
  | keySlotLoad (pkg : BitVec 10) (slot : BitVec 8) (key : BitVec 512)
  /-- Sets memory protection modes before bring-up. (R337) -/
  | memprotWrite (pkg : BitVec 10) (v : BitVec 64)
  /-- A WSEL write with CLR empties the selected error bank. (R412) -/
  | errorBankClear (pkg : BitVec 10) (v : BitVec 64)
  /-- Firmware sets the margin set point. (R454) -/
  | cesetWrite (pkg : BitVec 10) (die : BitVec 2) (v : BitVec 16)
  /-- The scrubber reads and corrects lines at its rates. (R339) -/
  | scrub (pkg : BitVec 10) (die : BitVec 2) (found : MemError)
  /-- A margin error raises VS, backs off and re-performs the access. (R453) -/
  | marginError (pkg : BitVec 10) (die : BitVec 2) (core : BitVec 6) (rereadOk : Bool) (found : MemError)
  /-- A quad's rail droops and its periods stretch. (R450) -/
  | droop (pkg : BitVec 10) (die : BitVec 2) (quad : BitVec 4)
  /-- A quad's clock moves between PLL and reference with stretched periods. (R450) -/
  | clockHop (pkg : BitVec 10) (die : BitVec 2) (quad : BitVec 4)
  /-- The stage temperature report sets ceilings, pre-empts or resumes binding. (R457) -/
  | stageTemperature (pkg : BitVec 10) (t4 t50 lift : Nat)
  /-- A bad flit is replayed and logged. (R440) -/
  | flitCrcFail (pkg : BitVec 10) (die : BitVec 2) (port : BitVec 7)
  /-- A link port leaves its plane and striping moves. (R440) -/
  | portFail (pkg : BitVec 10) (die : BitVec 2) (port : BitVec 7)
  /-- A package is declared failed; its regions fail over or are invalidated. (R442) -/
  | packageFailure (pkg : BitVec 10)
  /-- A core is declared failed and its spans are recovered. (R280) -/
  | coreFailure (pkg : BitVec 10) (core : BitVec 8)
  /-- Reset runs the bring-up steps and releases the host cores. (R460) -/
  | moduleReset (pkg : BitVec 10) (boot : BootInputs)
  /-- The management cores disagree and the module resets. (R459) -/
  | lockstepMismatch (pkg : BitVec 10) (boot : BootInputs)
  /-- The supervisor ends a launch through the management cores, and it completes with STATUS KILLED. (R370) -/
  | launchKill (part launch : Nat)
  /-- The management cores hand a PARKED span on, or clear its TAINT, at a supervisor's request. (R280) -/
  | parkedSpanHandover (part : Nat) (token : BitVec 34) (peer : Option (BitVec 64)) (clearTaint : Bool)
  /-- The loader checks a kernel image, creates and homes its regions from the placement list, and makes their spans PARKED. (R435) -/
  | kernelLoad (part : Nat) (image : KernelImage)
  /-- On a debug partition the management cores write a brk word, or the original word, into a running launch's code region. (R402) -/
  | codePatch (part : Nat) (h : BitVec 64) (word : BitVec 32)
  /-- A host core writes warm memory uncached, for example a launch record, TAIL or a parameter pair's SEL. (R459) -/
  | hostStore (part : Nat) (h : BitVec 64) (bytes : List (BitVec 8))
  /-- A PCIe or Ethernet device reads or writes a host region's line at its home. (R463) -/
  | deviceDma (part : Nat) (h : BitVec 64) (write : Option (List (BitVec 8)))
  /-- The power manager sets a quad rail VQ from the quad's load and the package budget, within the gap limit. (R448) -/
  | quadRailSet (pkg : BitVec 10) (die : BitVec 2) (quad : BitVec 4) (mv : Nat)
  /-- The quad rail returns to within 10 mV of its set point and its droop stretch ends. (R450) -/
  | droopRecovery (pkg : BitVec 10) (die : BitVec 2) (quad : BitVec 4)
  /-- A memory bank fails under SYMBOL and its online rebuild begins, slowing accesses to the stripe. (R337) -/
  | bankFailure (pkg : BitVec 10) (stripe : Nat)
  /-- The online rebuild of a failed bank ends and the stripe's accesses return to full speed. (R337) -/
  | bankRebuildComplete (pkg : BitVec 10) (stripe : Nat)
  /-- A load at the load-queue head reads its L1 line, filling it on a miss. (R137) -/
  | loadPerform
  /-- Load data returns and is written into gD, or MEMERR is met. (R137) -/
  | loadDataReturn
  /-- A store at the store-queue head writes its L1 line. (R137) -/
  | storePerform
  /-- A token send reaches the home and receiver, which drops lines and pulses e6, and the status is written. (R274) -/
  | tokenSendComplete
  /-- The last participant arrives, the vote combines and every participant departs. (R283) -/
  | barrierComplete
  /-- An atom is applied at the target's accumulator write port or discarded. (R289) -/
  | atomApply
  /-- The old value returns and gD is written. (R289) -/
  | atomComplete
  /-- An engine command queue entry is compared, heat-tested and performed at the head. (R140) -/
  | engineCommandPerform
  /-- A crossing or table start is not ready at its stamp; the die's SCNT freezes and pipelines run filler. (R172) -/
  | unitStall
  /-- A unit stall reaches STALLIM; the late crossings are cancelled and their cores trap. (R172) -/
  | smiss
  /-- At s + 40 the drain is added into the receiver's tile or discarded. (R215) -/
  | drainArrive
  /-- An evaluation's outputs land in OUT. (R297) -/
  | temporalEvalLand
  /-- An entry's writes are visible; SEQ advances and e5 pulses, or the string halts. (R317) -/
  | entryComplete
  /-- The remote controller acknowledges a mirror write. (R417) -/
  | mirrorAck
  /-- No mirror acknowledgement in 3,000 warm cycles; the wait completes with ERR. (R418) -/
  | mirrorTimeout
  /-- A new window begins; HEATACC resets, budgets apply and held entries are admitted. (R426) -/
  | heatWindow
  /-- The stop point is reached and the drain performs queues, strings, engines and write-back. (R400) -/
  | stopPoint
  /-- The warm context is saved into its slot and cold state discarded. (R401) -/
  | contextSave
  /-- A saved context resumes at RSTLBL on its bound physical core. (R401) -/
  | contextRestore
  /-- A wfi ends without a trap once 4096 warm cycles have passed. (R156) -/
  | wfiTimeout
  /-- The die walker returns a region table walk, releasing the waiting word or logging a CRC or malformed entry. (R332) -/
  | tlbWalkReturn
  deriving DecidableEq, Repr

end Sys2Proof
end

