-- ==== Sys2Proof/WellFormed.lean ====
section
/-! DEFINITION. Which instructions are well formed: the operand values R81 to R99, R124, R203, R208, R247 and R296
assign. A word, order or entry whose field holds an unassigned value stands for no instruction (R88, R97, R101). -/

namespace Sys2Proof

/-- The command codes of copy string entries (R99). -/
inductive Command where
  | copy | copys | fill | bcast | cksum | signal | waitseq | tokret | link | mirwait
  deriving DecidableEq, Repr

/-- Rounding-mode codes (R48): 0b101 to 0b111 are reserved. -/
def rmOk (m : BitVec 3) : Bool := decide (m.toNat ≤ 4)

/-- Operands and flags of `mma` (R92, R203): XA only with e4m3, e5m2 and cb2, CHK not with int8 or int4, SEG not with
cb2, operand codes 0 to 13. -/
def mmaOk (f : BitVec 3) (x g k : BitVec 1) (a b : BitVec 4) : Bool :=
  (decide (f = 2) || decide (f = 3) || decide (f = 7) || decide (x = 0)) &&
  !(decide (k = 1) && (decide (f = 5) || decide (f = 6))) && !(decide (g = 1) && decide (f = 7)) &&
  decide (a.toNat ≤ 13) && decide (b.toNat ≤ 13)

/-- Formats of `vcvt` (R247): no reserved code, no cb2, SAT only with an fp16 or bf16 target. -/
def cvtOk (g : BitVec 4) (x : BitVec 1) (h : BitVec 4) : Bool :=
  decide (g.toNat ≤ 10) && decide (g ≠ 8) && decide (h.toNat ≤ 10) && decide (h ≠ 8) &&
  (decide (x = 0) || decide (g = 1) || decide (g = 2))

/-- Fields of a copy entry that its command does not use are zero, and the limits of R99 hold. -/
def entryOk (c : Command) (e : CopyEntry) : Bool :=
  let sums := match c with
    | .copy | .copys | .bcast | .cksum => true
    | _ => false
  let chain := e.flags.getLsbD 0
  let check := e.flags.getLsbD 1
  let len := match c with
    | .copy | .fill | .bcast | .cksum => true
    | _ => decide (e.len = 0)
  let src := match c with
    | .copy | .copys | .bcast | .cksum => true
    | _ => decide (e.src = 0)
  let dst := match c with
    | .copy | .copys | .fill | .signal => true
    | _ => decide (e.dst = 0)
  let aux := match c with
    | .copys | .fill | .bcast | .signal | .waitseq | .tokret | .link => true
    | _ => decide (e.aux = 0)
  let arg := match c with
    | .copys => decide (1 ≤ e.arg.toNat) && decide (e.arg.toNat ≤ 14)
    | .bcast | .waitseq => true
    | _ => decide (e.arg = 0)
  decide (e.flags.extractLsb' 4 4 = 0) &&
  (sums || decide (e.flags.extractLsb' 0 3 = 0)) &&
  (decide (e.seed = 0) || (sums && !chain)) &&
  (decide (e.expect = 0) || (sums && check)) &&
  len && src && dst && aux && arg

/-- The instruction's operand fields hold assigned values. -/
def Instr.wf : Instr → Bool
  | .add _ _ _ _ => true
  | .sub _ _ _ _ => true
  | .and _ _ _ _ => true
  | .or _ _ _ _ => true
  | .xor _ _ _ _ => true
  | .andn _ _ _ _ => true
  | .orn _ _ _ _ => true
  | .sll _ _ _ _ => true
  | .srl _ _ _ _ => true
  | .sra _ _ _ _ => true
  | .mul _ _ _ _ => true
  | .mulh _ _ _ _ => true
  | .mulhu _ _ _ _ => true
  | .div _ _ _ _ => true
  | .divu _ _ _ _ => true
  | .rem _ _ _ _ => true
  | .remu _ _ _ _ => true
  | .min _ _ _ _ => true
  | .max _ _ _ _ => true
  | .minu _ _ _ _ => true
  | .maxu _ _ _ _ => true
  | .slt _ _ _ _ => true
  | .sltu _ _ _ _ => true
  | .clz _ _ _ => true
  | .ctz _ _ _ => true
  | .popc _ _ _ => true
  | .addw _ _ _ _ => true
  | .subw _ _ _ _ => true
  | .sllw _ _ _ _ => true
  | .srlw _ _ _ _ => true
  | .sraw _ _ _ _ => true
  | .mulw _ _ _ _ => true
  | .addi _ _ _ _ => true
  | .andi _ _ _ _ => true
  | .ori _ _ _ _ => true
  | .xori _ _ _ _ => true
  | .slli _ _ _ _ => true
  | .srli _ _ _ _ => true
  | .srai _ _ _ _ => true
  | .slti _ _ _ _ => true
  | .sltiu _ _ _ _ => true
  | .lui _ _ _ => true
  | .addpc _ _ _ => true
  | .pcmp _ _ _ _ c => decide (c.toNat ≤ 5)
  | .pcmpi _ c _ _ _ => decide (c.toNat ≤ 5)
  | .pand _ _ _ _ => true
  | .por _ _ _ _ => true
  | .pxor _ _ _ _ => true
  | .pnot _ _ _ => true
  | .pmov _ _ _ => true
  | .sel _ _ _ _ _ => true
  | .br _ _ _ _ => true
  | .jal _ _ _ => true
  | .jalr _ _ _ _ => true
  | .loop _ _ _ l => decide (l ≠ 0)
  | .lexit _ _ _ _ => true
  | .join _ => true
  | .sendl _ _ => true
  | .sendr _ _ => true
  | .recvl _ _ => true
  | .recvr _ _ => true
  | .nop _ => true
  | .brk _ => true
  | .cset _ c _ => decide (c ≠ 7)
  | .cget _ _ c => decide (c ≠ 7)
  | .cadd _ d a _ => decide (d ≠ 7) && decide (a ≠ 7)
  | .caddi _ d a _ => decide (d ≠ 7) && decide (a ≠ 7)
  | .ld _ _ _ z _ => decide (z ≠ 7)
  | .st _ _ _ z _ => decide (z ≠ 7)
  | .loadPerform => true
  | .loadDataReturn => true
  | .storePerform => true
  | .qmark _ _ => true
  | .cwb _ _ _ _ => true
  | .cinv _ _ _ _ => true
  | .cwbinv _ _ _ _ => true
  | .xin _ _ _ _ _ _ m => decide (m ≠ 3)
  | .xinm _ _ _ _ _ _ m => decide (m ≠ 3)
  | .xout _ _ _ _ _ _ _ => true
  | .xput _ _ _ k => decide (k.toNat ≤ 0x24)
  | .xget _ _ _ k => decide (k.toNat ≤ 0x17)
  | .xwait _ _ _ p => decide (p.toNat ≤ 4)
  | .xcancel _ _ _ _ => true
  | .shpld _ _ _ _ => true
  | .shpst _ _ _ _ => true
  | .btld _ _ _ => true
  | .shpget _ _ _ _ _ => true
  | .shpset _ _ _ _ _ => true
  | .tstart _ _ _ e => decide (e ≠ 3)
  | .tstartEv _ _ _ e => decide (e ≠ 3)
  | .tstop _ _ e => decide (e ≠ 3)
  | .tbase _ _ _ e => decide (e ≠ 3)
  | .tsync _ _ e => decide (e ≠ 3)
  | .tload _ _ _ _ e => decide (e ≠ 3)
  | .evcfg _ _ _ _ => true
  | .evsig _ _ _ => true
  | .evwait _ _ _ _ => true
  | .cptail _ _ _ => true
  | .cpseq _ _ _ => true
  | .ownLend _ _ _ _ _ => true
  | .ownGive _ _ _ _ _ => true
  | .ownRet _ _ _ _ => true
  | .ownSplit _ _ _ _ _ => true
  | .ownMerge _ _ _ _ _ => true
  | .ownShare _ _ _ _ _ => true
  | .ownUnshare _ _ _ _ => true
  | .ownWait _ _ _ _ => true
  | .ownQuery _ _ _ _ => true
  | .tokenSendComplete => true
  | .bar _ _ _ _ _ o k => decide (k.toNat ≤ 4) && decide (o ≠ 3)
  | .barrierComplete => true
  | .fence _ _ m => decide (m ≠ 0)
  | .aadd _ _ _ _ _ => true
  | .aaddf _ _ _ _ _ => true
  | .axchg _ _ _ _ _ => true
  | .a2sum _ _ _ _ _ => true
  | .atomApply => true
  | .atomComplete => true
  | .srd _ _ _ => true
  | .swr _ _ _ => true
  | .ecall _ _ => true
  | .tret _ _ => true
  | .tack _ _ => true
  | .halt _ _ => true
  | .wfi _ _ => true
  | .oeqpop _ _ _ => true
  | .rotpt _ _ => true
  | .iinv _ _ => true
  | .tstatWrite _ => true
  | .oeqstatWrite _ => true
  | .heatbudWrite _ _ => true
  | .injWrite _ => true
  | .engineCommandPerform => true
  | .crossingAdmit _ => true
  | .crossingComplete _ => true
  | .xoutCapture _ => true
  | .unitStall => true
  | .smiss => true
  | .depto _ => true
  | .plen _ => true
  | .tableStart _ => true
  | .termFire _ => true
  | .engineIdle _ => true
  | .mnop _ => true
  | .mma _ f x g k _ a b _ => mmaOk f x g k a b
  | .mldm _ _ p _ => decide (p.toNat ≤ 5)
  | .mscale _ a p s _ => decide (s.toNat ≤ 5) && decide (a ≠ p)
  | .mstore _ _ p _ _ _ => decide (p.toNat ≤ 5)
  | .mzero _ _ => true
  | .mdrain _ _ _ _ => true
  | .drainArrive => true
  | .mchk _ _ => true
  | .mfix _ _ _ _ => true
  | .mcopy _ _ _ => true
  | .mlda _ _ p _ _ => decide (p.toNat ≤ 5)
  | .ma2s _ h l s => decide (h ≠ l) && decide (s ≠ h) && decide (s ≠ l)
  | .mtile _ => true
  | .mloop _ _ c l => decide (c ≠ 0) && decide (l ≠ 0)
  | .mflag _ _ _ => true
  | .mwaits _ n => decide (n ≠ 0)
  | .mmask _ _ => true
  | .mcbt _ p f c => decide (p.toNat ≤ 5) && decide (f.toNat + c.toNat ≤ 255)
  | .vnop _ => true
  | .vadd _ _ _ _ m => rmOk m
  | .vsub _ _ _ _ m => rmOk m
  | .vmul _ _ _ _ m => rmOk m
  | .vfma _ _ _ _ m => rmOk m
  | .vmin _ _ _ _ => true
  | .vmax _ _ _ _ => true
  | .vabs _ _ _ => true
  | .vneg _ _ _ => true
  | .vcmp _ _ _ i c => decide (c ≠ 7) && !(decide (i = 1) && decide (c = 6))
  | .vcvt _ _ _ g x m h => cvtOk g x h && rmOk m
  | .vexp2 _ _ _ => true
  | .vexpd _ _ _ _ => true
  | .vlog2 _ _ _ => true
  | .vrcp _ _ _ => true
  | .vrsq _ _ _ => true
  | .viadd _ _ _ _ => true
  | .visub _ _ _ _ => true
  | .vimul _ _ _ _ => true
  | .vand _ _ _ _ => true
  | .vor _ _ _ _ => true
  | .vxor _ _ _ _ => true
  | .vshl _ _ _ _ => true
  | .vshr _ _ _ _ => true
  | .vsar _ _ _ _ => true
  | .vsel _ _ _ _ => true
  | .vmov _ _ _ => true
  | .vbcast _ _ _ _ => true
  | .vperm _ _ _ _ => true
  | .vred _ _ _ _ _ o => decide (o ≠ 3)
  | .vscan _ _ _ _ _ o => decide (o ≠ 3)
  | .vsegid _ _ _ => true
  | .vld _ _ _ _ => true
  | .vst _ _ _ _ => true
  | .vldacc _ _ q _ => decide (q.toNat ≤ 4)
  | .vstacc _ q _ _ _ => decide (q.toNat ≤ 4)
  | .vparam _ _ k => decide (k.toNat ≤ 0x33)
  | .mpush _ _ => true
  | .minv _ => true
  | .mpop _ _ => true
  | .mskz _ n => decide (n ≠ 0)
  | .vloop _ _ c l => decide (c ≠ 0) && decide (l ≠ 0)
  | .vflag _ _ _ => true
  | .vwaits _ n => decide (n ≠ 0)
  | .tnop _ => true
  | .tdload _ f c _ => decide (f.toNat + c.toNat ≤ 63)
  | .tmode _ _ _ => true
  | .tmodeAll _ _ => true
  | .tmodeTs _ => true
  | .twset _ n => decide (n ≠ 0) && decide (n ≠ 255)
  | .tlaunch _ _ => true
  | .temporalEvalLand => true
  | .tcapture _ _ => true
  | .treset _ => true
  | .trelax _ n => decide (n ≠ 0)
  | .tflag _ _ _ => true
  | .copy e => entryOk .copy e
  | .copys e => entryOk .copys e
  | .fill e => entryOk .fill e
  | .bcast e => entryOk .bcast e
  | .cksum e => entryOk .cksum e
  | .signal e => entryOk .signal e
  | .waitseq e => entryOk .waitseq e
  | .tokret e => entryOk .tokret e
  | .link e => entryOk .link e
  | .mirwait e => entryOk .mirwait e
  | .entryComplete => true
  | .mirrorAck => true
  | .mirrorTimeout => true
  | .heatWindow => true
  | .trapEntry _ _ => true
  | .preemptionRequest _ => true
  | .stopPoint => true
  | .contextSave => true
  | .contextRestore => true
  | .rotation _ _ => true
  | .rotationRebind _ _ => true
  | .admission _ _ => true
  | .admissionRetest _ => true
  | .taskStart _ => true
  | .graphNodeRelease _ _ => true
  | .graphReplay _ _ => true
  | .launchCompletion _ _ => true
  | .messageMatch _ _ _ => true
  | .frameClassify _ _ _ _ => true
  | .messageSend _ => true
  | .launchArmWrite _ _ _ _ _ => true
  | .regionEntryWrite _ _ _ => true
  | .keySlotLoad _ _ _ => true
  | .memprotWrite _ _ => true
  | .errorBankClear _ _ => true
  | .cesetWrite _ _ _ => true
  | .scrub _ _ _ => true
  | .marginStep _ _ => true
  | .marginError _ _ _ _ _ => true
  | .cesetRestore _ _ => true
  | .droop _ _ _ => true
  | .droopRaise _ _ _ => true
  | .clockHop _ _ _ => true
  | .stageTemperature _ _ _ _ => true
  | .drainDeadline _ => true
  | .flitCrcFail _ _ _ => true
  | .portFail _ _ _ => true
  | .packageFailure _ => true
  | .coreFailure _ _ => true
  | .moduleReset _ _ => true
  | .coldHandshakeTimeout _ => true
  | .lockstepMismatch _ _ => true
  | .wfiTimeout => true
  | .tlbWalkReturn => true
  | .launchKill _ _ => true
  | .parkedSpanHandover _ _ _ _ => true
  | .kernelLoad _ _ => true
  | .codePatch _ _ _ => true
  | .hostStore _ _ _ => true
  | .deviceDma _ _ _ => true
  | .quadRailSet _ _ _ _ => true
  | .droopRecovery _ _ _ => true
  | .bankFailure _ _ => true
  | .bankRebuildComplete _ _ => true

end Sys2Proof
end

