-- ==== Sys2Proof/Decode.lean ====
section
/-! DEFINITION. The decoder: control words (R78 to R88), slot X and slot Y orders (R91 to R93), vector orders (R94,
R95), temporal orders (R96) and copy string entries (R98, R99), total on any bits, each refusal by name; then the
encoder, from the same tables. -/

namespace Sys2Proof

/-- Why bits are no instruction. For a control word every reason is ILLWORD (R88), for an order ORDER (R97), for a copy
entry the halt statuses BADCRC and ILLCMD (R101). -/
inductive Reject where
  /-- MAJ 0x00, the all-zero word included -/
  | illegalMajor
  /-- a reserved MAJ -/
  | reservedMajor
  /-- an FN no row assigns -/
  | unassignedFunction
  /-- a code or value no rule assigns to its field -/
  | unassignedCode
  /-- a set bit in a must-be-zero field -/
  | mustBeZero
  /-- `join` with S = 0 -/
  | joinUnsynced
  /-- a reserved OP of an order, or an order of the other slot -/
  | reservedOp
  /-- a copy entry that is not 64 bytes -/
  | entrySize
  /-- a copy entry whose CRC does not match -/
  | badCrc
  /-- an unassigned command code -/
  | unassignedCommand
  deriving DecidableEq, Repr

/-- Accept `i` if its must-be-zero bits are clear. -/
def clear (zeros : Bool) (i : Instr) : Except Reject Instr :=
  if zeros then .ok i else .error .mustBeZero

/-! ## Control words -/

/-- `alu` (R81). -/
def decodeAlu (s : BitVec 1) (d a b : BitVec 5) (fn : BitVec 10) : Except Reject Instr :=
  match fn with
  | 0x000#10 => .ok (.add s d a b)
  | 0x001#10 => .ok (.sub s d a b)
  | 0x002#10 => .ok (.and s d a b)
  | 0x003#10 => .ok (.or s d a b)
  | 0x004#10 => .ok (.xor s d a b)
  | 0x005#10 => .ok (.andn s d a b)
  | 0x006#10 => .ok (.orn s d a b)
  | 0x007#10 => .ok (.sll s d a b)
  | 0x008#10 => .ok (.srl s d a b)
  | 0x009#10 => .ok (.sra s d a b)
  | 0x00A#10 => .ok (.mul s d a b)
  | 0x00B#10 => .ok (.mulh s d a b)
  | 0x00C#10 => .ok (.mulhu s d a b)
  | 0x00D#10 => .ok (.div s d a b)
  | 0x00E#10 => .ok (.divu s d a b)
  | 0x00F#10 => .ok (.rem s d a b)
  | 0x010#10 => .ok (.remu s d a b)
  | 0x011#10 => .ok (.min s d a b)
  | 0x012#10 => .ok (.max s d a b)
  | 0x013#10 => .ok (.minu s d a b)
  | 0x014#10 => .ok (.maxu s d a b)
  | 0x015#10 => .ok (.slt s d a b)
  | 0x016#10 => .ok (.sltu s d a b)
  | 0x017#10 => clear (decide (b = 0)) (.clz s d a)
  | 0x018#10 => clear (decide (b = 0)) (.ctz s d a)
  | 0x019#10 => clear (decide (b = 0)) (.popc s d a)
  | _ => .error .unassignedFunction

/-- `aluw` (R81). -/
def decodeAluw (s : BitVec 1) (d a b : BitVec 5) (fn : BitVec 10) : Except Reject Instr :=
  match fn with
  | 0x000#10 => .ok (.addw s d a b)
  | 0x001#10 => .ok (.subw s d a b)
  | 0x002#10 => .ok (.sllw s d a b)
  | 0x003#10 => .ok (.srlw s d a b)
  | 0x004#10 => .ok (.sraw s d a b)
  | 0x005#10 => .ok (.mulw s d a b)
  | _ => .error .unassignedFunction

/-- `shi` (R82, R119): kind in IMM15[14:13], count in IMM15[5:0]. -/
def decodeShi (s : BitVec 1) (d a : BitVec 5) (i : BitVec 15) : Except Reject Instr :=
  let h := i.extractLsb' 0 6
  let zeros := decide (i.extractLsb' 6 7 = 0)
  match i.extractLsb' 13 2 with
  | 0#2 => clear zeros (.slli s d a h)
  | 1#2 => clear zeros (.srli s d a h)
  | 2#2 => clear zeros (.srai s d a h)
  | _ => .error .unassignedCode

/-- `plog` (R82, R122): the predicates in D[21:20], A[16:15] and B[11:10]. -/
def decodePlog (s : BitVec 1) (d a b : BitVec 5) (fn : BitVec 10) : Except Reject Instr :=
  let pd := d.extractLsb' 0 2
  let pa := a.extractLsb' 0 2
  let pb := b.extractLsb' 0 2
  let zeros := decide (d.extractLsb' 2 3 = 0) && decide (a.extractLsb' 2 3 = 0) && decide (b.extractLsb' 2 3 = 0)
  match fn with
  | 0#10 => clear zeros (.pand s pd pa pb)
  | 1#10 => clear zeros (.por s pd pa pb)
  | 2#10 => clear zeros (.pxor s pd pa pb)
  | 3#10 => clear (zeros && decide (pb = 0)) (.pnot s pd pa)
  | 4#10 => clear (zeros && decide (pb = 0)) (.pmov s pd pa)
  | _ => .error .unassignedFunction

/-- `link` (R134). -/
def decodeLink (s : BitVec 1) (d a b : BitVec 5) (fn : BitVec 10) : Except Reject Instr :=
  match fn with
  | 0#10 => clear (decide (d = 0) && decide (b = 0)) (.sendl s a)
  | 1#10 => clear (decide (d = 0) && decide (b = 0)) (.sendr s a)
  | 2#10 => clear (decide (a = 0) && decide (b = 0)) (.recvl s d)
  | 3#10 => clear (decide (a = 0) && decide (b = 0)) (.recvr s d)
  | _ => .error .unassignedFunction

/-- `coord` (R124). -/
def decodeCoord (s : BitVec 1) (d a b : BitVec 5) (fn : BitVec 10) : Except Reject Instr :=
  let cd := d.extractLsb' 0 3
  let ca := a.extractLsb' 0 3
  let dz := decide (d.extractLsb' 3 2 = 0)
  let az := decide (a.extractLsb' 3 2 = 0)
  match fn with
  | 0#10 => clear (dz && decide (b = 0)) (.cset s cd a)
  | 1#10 => clear (az && decide (b = 0)) (.cget s d ca)
  | 2#10 => clear (dz && az) (.cadd s cd ca b)
  | _ => .error .unassignedFunction

/-- Shape words (R189). -/
def decodeShp (s : BitVec 1) (dep : BitVec 4) (d a b : BitVec 5) (fn : BitVec 6) : Except Reject Instr :=
  let n := b.extractLsb' 0 4
  let w := fn.extractLsb' 0 4
  let bz := decide (b.extractLsb' 4 1 = 0)
  match fn.extractLsb' 4 2 with
  | 0#2 =>
    match w with
    | 0#4 => clear (bz && decide (d = 0)) (.shpld s dep a n)
    | 1#4 => clear (bz && decide (d = 0)) (.shpst s dep a n)
    | 2#4 => clear (bz && decide (d = 0) && decide (a = 0)) (.btld s dep n)
    | _ => .error .unassignedFunction
  | 2#2 => clear (bz && decide (a = 0)) (.shpget s dep d n w)
  | 3#2 => clear (bz && decide (d = 0)) (.shpset s dep a n w)
  | _ => .error .unassignedFunction

/-- `tstart` (R140): FN[2] selects the event form. -/
def decodeTstart (s : BitVec 1) (dep : BitVec 4) (d a b : BitVec 5) (fn : BitVec 6) : Except Reject Instr :=
  let e := fn.extractLsb' 0 2
  let zeros := decide (fn.extractLsb' 3 3 = 0) && decide (d = 0)
  match fn.extractLsb' 2 1 with
  | 0#1 => clear (zeros && decide (b = 0)) (.tstart s dep a e)
  | _ => clear (zeros && decide (a = 0) && decide (b.extractLsb' 4 1 = 0)) (.tstartEv s dep (b.extractLsb' 0 4) e)

/-- Event words (R149, R150). -/
def decodeEvent (s : BitVec 1) (dep : BitVec 4) (d a b : BitVec 5) (fn : BitVec 6) : Except Reject Instr :=
  let n := b.extractLsb' 0 4
  let zeros := decide (b.extractLsb' 4 1 = 0) && decide (d = 0)
  match fn with
  | 0#6 => clear zeros (.evcfg s dep a n)
  | 1#6 => clear (zeros && decide (a = 0)) (.evsig s dep n)
  | 2#6 => clear zeros (.evwait s dep a n)
  | _ => .error .unassignedFunction

/-- `own` words (R83). -/
def decodeOwn (s : BitVec 1) (dep : BitVec 4) (d a b : BitVec 5) (fn : BitVec 6) : Except Reject Instr :=
  match fn with
  | 0#6 => .ok (.ownLend s dep d a b)
  | 1#6 => .ok (.ownGive s dep d a b)
  | 2#6 => clear (decide (b = 0)) (.ownRet s dep d a)
  | 3#6 => .ok (.ownSplit s dep d a b)
  | 4#6 => .ok (.ownMerge s dep d a b)
  | 5#6 => .ok (.ownShare s dep d a b)
  | 6#6 => clear (decide (b = 0)) (.ownUnshare s dep d a)
  | 7#6 => clear (decide (b = 0)) (.ownWait s dep d a)
  | 8#6 => clear (decide (b = 0)) (.ownQuery s dep d a)
  | _ => .error .unassignedFunction

/-- `sys` words (R152). -/
def decodeSys (s : BitVec 1) (dep : BitVec 4) (d a b : BitVec 5) (fn : BitVec 6) : Except Reject Instr :=
  let ab := decide (a = 0) && decide (b = 0)
  let dab := decide (d = 0) && ab
  match fn with
  | 0#6 => clear dab (.ecall s dep)
  | 1#6 => clear dab (.tret s dep)
  | 2#6 => clear dab (.tack s dep)
  | 3#6 => clear dab (.halt s dep)
  | 4#6 => clear dab (.wfi s dep)
  | 5#6 => clear ab (.oeqpop s dep d)
  | 6#6 => clear dab (.rotpt s dep)
  | 7#6 => clear dab (.iinv s dep)
  | _ => .error .unassignedFunction

/-- The KR and KI words, MAJ 0x01 to 0x1A (R80, R82). -/
def decodeScalar (s : BitVec 1) (maj : BitVec 6) (f : BitVec 25) : Except Reject Instr :=
  let d := f.extractLsb' 20 5
  let a := f.extractLsb' 15 5
  let b := f.extractLsb' 10 5
  let fn := f.extractLsb' 0 10
  let i15 := f.extractLsb' 0 15
  let i20 := f.extractLsb' 0 20
  match maj with
  | 0x01#6 => decodeAlu s d a b fn
  | 0x02#6 => decodeAluw s d a b fn
  | 0x03#6 => .ok (.addi s d a i15)
  | 0x04#6 => .ok (.andi s d a i15)
  | 0x05#6 => .ok (.ori s d a i15)
  | 0x06#6 => .ok (.xori s d a i15)
  | 0x07#6 => decodeShi s d a i15
  | 0x08#6 => .ok (.slti s d a i15)
  | 0x09#6 => .ok (.sltiu s d a i15)
  | 0x0A#6 => .ok (.lui s d i20)
  | 0x0B#6 => .ok (.addpc s d i20)
  | 0x0C#6 => clear (decide (d.extractLsb' 2 3 = 0) && decide (fn.extractLsb' 3 7 = 0))
      (.pcmp s (d.extractLsb' 0 2) a b (fn.extractLsb' 0 3))
  | 0x0D#6 => .ok (.pcmpi s (d.extractLsb' 2 3) (d.extractLsb' 0 2) a i15)
  | 0x0E#6 => decodePlog s d a b fn
  | 0x0F#6 => clear (decide (fn.extractLsb' 2 8 = 0)) (.sel s d a b (fn.extractLsb' 0 2))
  | 0x10#6 => .ok (.br s (f.extractLsb' 23 2) (f.extractLsb' 22 1) (f.extractLsb' 0 22))
  | 0x11#6 => .ok (.jal s d i20)
  | 0x12#6 => .ok (.jalr s d a i15)
  | 0x13#6 => clear (decide (d.extractLsb' 0 4 = 0)) (.loop s (d.extractLsb' 4 1) a i15)
  | 0x14#6 => .ok (.lexit s (f.extractLsb' 23 2) (f.extractLsb' 22 1) (f.extractLsb' 0 22))
  | 0x15#6 =>
    if s = 0 then .error .joinUnsynced
    else clear (decide (f.extractLsb' 8 17 = 0)) (.join (f.extractLsb' 0 8))
  | 0x16#6 => decodeLink s d a b fn
  | 0x17#6 => clear (decide (f = 0)) (.nop s)
  | 0x18#6 => clear (decide (f = 0)) (.brk s)
  | 0x19#6 => decodeCoord s d a b fn
  | 0x1A#6 => clear (decide (d.extractLsb' 3 2 = 0) && decide (a.extractLsb' 3 2 = 0))
      (.caddi s (d.extractLsb' 0 3) (a.extractLsb' 0 3) i15)
  | _ => .error .reservedMajor

/-- The port words, MAJ 0x20 to 0x3E (R80, R83). -/
def decodePort (s : BitVec 1) (maj : BitVec 6) (f : BitVec 25) : Except Reject Instr :=
  let dep := f.extractLsb' 21 4
  let d := f.extractLsb' 16 5
  let a := f.extractLsb' 11 5
  let b := f.extractLsb' 6 5
  let fn := f.extractLsb' 0 6
  let n := fn.extractLsb' 2 4
  let e := fn.extractLsb' 0 2
  let kd := f.extractLsb' 20 5
  let ka := f.extractLsb' 15 5
  let fz := decide (fn = 0)
  let dz := decide (d = 0)
  let az := decide (a = 0)
  let bz := decide (b = 0)
  let nz := decide (n = 0)
  match maj with
  | 0x20#6 => .ok (.ld s kd ka (f.extractLsb' 12 3) (f.extractLsb' 0 12))
  | 0x21#6 => .ok (.st s kd ka (f.extractLsb' 12 3) (f.extractLsb' 0 12))
  | 0x22#6 => clear (dz && az && bz && fz) (.qmark s dep)
  | 0x23#6 =>
    match fn with
    | 0#6 => clear dz (.cwb s dep a b)
    | 1#6 => clear dz (.cinv s dep a b)
    | 2#6 => clear dz (.cwbinv s dep a b)
    | _ => .error .unassignedFunction
  | 0x28#6 => .ok (.xin s dep d a b n e)
  | 0x29#6 => .ok (.xinm s dep d a b n e)
  | 0x2A#6 =>
    if e.extractLsb' 1 1 = 0 then .ok (.xout s dep d a b n (e.extractLsb' 0 1)) else .error .unassignedCode
  | 0x2B#6 => clear (dz && bz) (.xput s dep a fn)
  | 0x2C#6 => clear (az && bz) (.xget s dep d fn)
  | 0x2D#6 => clear (az && bz) (.xwait s dep d fn)
  | 0x2E#6 => if fz then clear bz (.xcancel s dep d a) else .error .unassignedFunction
  | 0x2F#6 => decodeShp s dep d a b fn
  | 0x30#6 => decodeTstart s dep d a b fn
  | 0x31#6 => clear (dz && az && bz && nz) (.tstop s dep e)
  | 0x32#6 => clear (dz && bz && nz) (.tbase s dep a e)
  | 0x33#6 => clear (dz && az && bz && nz) (.tsync s dep e)
  | 0x34#6 => clear (dz && nz) (.tload s dep a b e)
  | 0x35#6 => decodeEvent s dep d a b fn
  | 0x36#6 =>
    match fn with
    | 0#6 => clear (dz && bz) (.cptail s dep a)
    | 1#6 => clear (az && bz) (.cpseq s dep d)
    | _ => .error .unassignedFunction
  | 0x38#6 => decodeOwn s dep d a b fn
  | 0x39#6 => clear (decide (fn.extractLsb' 5 1 = 0) && decide (b.extractLsb' 4 1 = 0))
      (.bar s dep d a (b.extractLsb' 0 4) (fn.extractLsb' 3 2) (fn.extractLsb' 0 3))
  | 0x3A#6 => clear (dz && az && bz && decide (fn.extractLsb' 4 2 = 0)) (.fence s dep (fn.extractLsb' 0 4))
  | 0x3B#6 =>
    match fn with
    | 0#6 => .ok (.aadd s dep d a b)
    | 1#6 => .ok (.aaddf s dep d a b)
    | 2#6 => .ok (.axchg s dep d a b)
    | 3#6 => .ok (.a2sum s dep d a b)
    | _ => .error .unassignedFunction
  | 0x3C#6 => clear (decide (ka = 0) && decide (f.extractLsb' 12 3 = 0)) (.srd s kd (f.extractLsb' 0 12))
  | 0x3D#6 => clear (decide (kd = 0) && decide (f.extractLsb' 12 3 = 0)) (.swr s ka (f.extractLsb' 0 12))
  | 0x3E#6 => decodeSys s dep d a b fn
  | _ => .error .reservedMajor

/-- Refuse an instruction that is not well formed. -/
def assigned (r : Except Reject Instr) : Except Reject Instr :=
  match r with
  | .ok i => if i.wf then .ok i else .error .unassignedCode
  | .error e => .error e

/-- The control word `w` (R78 to R88): every pattern is an instruction or is refused by name. -/
def decodeControl (w : Word32) : Except Reject Instr :=
  let s := w.extractLsb' 31 1
  let maj := w.extractLsb' 25 6
  let f := w.extractLsb' 0 25
  if maj = 0 then .error .illegalMajor
  else if maj.extractLsb' 5 1 = 0 then assigned (decodeScalar s maj f)
  else assigned (decodePort s maj f)

/-! ## Orders -/

/-- A slot X order (R92). -/
def decodeX (x : Word32) : Except Reject Instr :=
  let w := x.extractLsb' 28 4
  match x.extractLsb' 23 5 with
  | 0x00#5 => clear (decide (x.extractLsb' 0 23 = 0)) (.mnop w)
  | 0x01#5 => assigned (clear (decide (x.extractLsb' 0 2 = 0))
      (.mma w (x.extractLsb' 20 3) (x.extractLsb' 19 1) (x.extractLsb' 18 1) (x.extractLsb' 17 1)
        (x.extractLsb' 16 1) (x.extractLsb' 12 4) (x.extractLsb' 8 4) (x.extractLsb' 2 6)))
  | 0x02#5 => assigned (clear (decide (x.extractLsb' 0 5 = 0))
      (.mldm w (x.extractLsb' 20 3) (x.extractLsb' 17 3) (x.extractLsb' 5 12)))
  | _ => .error .reservedOp

/-- A slot Y order (R93). -/
def decodeY (y : Word32) : Except Reject Instr :=
  let w := y.extractLsb' 28 4
  let acc := y.extractLsb' 17 6
  let t2 := y.extractLsb' 11 6
  match y.extractLsb' 23 5 with
  | 0x00#5 => clear (decide (y.extractLsb' 0 23 = 0)) (.mnop w)
  | 0x01#5 => assigned (.ok (.mscale w acc t2 (y.extractLsb' 8 3) (y.extractLsb' 0 8)))
  | 0x02#5 => assigned (.ok (.mstore w acc (y.extractLsb' 14 3) (y.extractLsb' 2 12) (y.extractLsb' 1 1) (y.extractLsb' 0 1)))
  | 0x03#5 => clear (decide (y.extractLsb' 0 17 = 0)) (.mzero w acc)
  | 0x04#5 => clear (decide (y.extractLsb' 0 10 = 0)) (.mdrain w acc t2 (y.extractLsb' 10 1))
  | 0x05#5 => clear (decide (y.extractLsb' 0 17 = 0)) (.mchk w acc)
  | 0x06#5 => clear (decide (y.extractLsb' 0 9 = 0)) (.mfix w acc (y.extractLsb' 13 4) (y.extractLsb' 9 4))
  | 0x07#5 => clear (decide (y.extractLsb' 0 11 = 0)) (.mcopy w acc t2)
  | 0x08#5 => assigned (clear (decide (y.extractLsb' 0 1 = 0))
      (.mlda w acc (y.extractLsb' 14 3) (y.extractLsb' 2 12) (y.extractLsb' 1 1)))
  | 0x09#5 => assigned (clear (decide (y.extractLsb' 0 5 = 0)) (.ma2s w acc t2 (y.extractLsb' 5 6)))
  | 0x0A#5 => clear (decide (y.extractLsb' 0 23 = 0)) (.mtile w)
  | 0x0B#5 => assigned (.ok (.mloop w (y.extractLsb' 22 1) (y.extractLsb' 10 12) (y.extractLsb' 0 10)))
  | 0x0C#5 => clear (decide (y.extractLsb' 16 3 = 0)) (.mflag w (y.extractLsb' 19 4) (y.extractLsb' 0 16))
  | 0x0D#5 => assigned (clear (decide (y.extractLsb' 16 7 = 0)) (.mwaits w (y.extractLsb' 0 16)))
  | 0x0E#5 => clear (decide (y.extractLsb' 0 20 = 0)) (.mmask w (y.extractLsb' 20 3))
  | 0x0F#5 => assigned (clear (decide (y.extractLsb' 0 4 = 0))
      (.mcbt w (y.extractLsb' 20 3) (y.extractLsb' 12 8) (y.extractLsb' 4 8)))
  | _ => .error .reservedOp

/-- The lane orders with vd, va and vb and no MOD (R95). -/
def decodeLanes (w : BitVec 4) (op : BitVec 6) (d a b : BitVec 5) (m : BitVec 7) : Except Reject Instr :=
  let mz := decide (m = 0)
  let m1z := mz && decide (b = 0)
  match op with
  | 0x05#6 => clear mz (.vmin w d a b)
  | 0x06#6 => clear mz (.vmax w d a b)
  | 0x07#6 => clear m1z (.vabs w d a)
  | 0x08#6 => clear m1z (.vneg w d a)
  | 0x0B#6 => clear m1z (.vexp2 w d a)
  | 0x0C#6 => clear mz (.vexpd w d a b)
  | 0x0D#6 => clear m1z (.vlog2 w d a)
  | 0x0E#6 => clear m1z (.vrcp w d a)
  | 0x0F#6 => clear m1z (.vrsq w d a)
  | 0x10#6 => clear mz (.viadd w d a b)
  | 0x11#6 => clear mz (.visub w d a b)
  | 0x12#6 => clear mz (.vimul w d a b)
  | 0x13#6 => clear mz (.vand w d a b)
  | 0x14#6 => clear mz (.vor w d a b)
  | 0x15#6 => clear mz (.vxor w d a b)
  | 0x16#6 => clear mz (.vshl w d a b)
  | 0x17#6 => clear mz (.vshr w d a b)
  | 0x18#6 => clear mz (.vsar w d a b)
  | 0x19#6 => clear mz (.vsel w d a b)
  | 0x1A#6 => clear m1z (.vmov w d a)
  | 0x1C#6 => clear mz (.vperm w d a b)
  | 0x1F#6 => clear m1z (.vsegid w d a)
  | _ => .error .reservedOp

/-- A vector order (R94, R95). DEDUCED (log 38). -/
def decodeV (x : Word32) : Except Reject Instr :=
  let w := x.extractLsb' 28 4
  let op := x.extractLsb' 22 6
  let d := x.extractLsb' 17 5
  let a := x.extractLsb' 12 5
  let b := x.extractLsb' 7 5
  let m := x.extractLsb' 0 7
  let rm := m.extractLsb' 4 3
  let rmz := decide (m.extractLsb' 0 4 = 0)
  let dz := decide (d = 0)
  let az := decide (a = 0)
  let bz := decide (b = 0)
  let mz := decide (m = 0)
  match op with
  | 0x00#6 => clear (decide (x.extractLsb' 0 22 = 0)) (.vnop w)
  | 0x01#6 => assigned (clear rmz (.vadd w d a b rm))
  | 0x02#6 => assigned (clear rmz (.vsub w d a b rm))
  | 0x03#6 => assigned (clear rmz (.vmul w d a b rm))
  | 0x04#6 => assigned (clear rmz (.vfma w d a b rm))
  | 0x09#6 => assigned (clear (dz && decide (m.extractLsb' 4 3 = 0)) (.vcmp w a b (m.extractLsb' 3 1) (m.extractLsb' 0 3)))
  | 0x0A#6 => assigned (.ok (.vcvt w d a (b.extractLsb' 1 4) (b.extractLsb' 0 1) rm (m.extractLsb' 0 4)))
  | 0x1B#6 => clear (bz && decide (m.extractLsb' 6 1 = 0)) (.vbcast w d a (m.extractLsb' 0 6))
  | 0x1D#6 => assigned (clear (bz && decide (m.extractLsb' 4 3 = 0))
      (.vred w d a (m.extractLsb' 3 1) (m.extractLsb' 2 1) (m.extractLsb' 0 2)))
  | 0x1E#6 => assigned (clear (bz && decide (m.extractLsb' 4 3 = 0))
      (.vscan w d a (m.extractLsb' 3 1) (m.extractLsb' 2 1) (m.extractLsb' 0 2)))
  | 0x20#6 => clear (bz && decide (a.extractLsb' 4 1 = 0)) (.vld w d (a.extractLsb' 0 4) m)
  | 0x21#6 => clear (dz && decide (a.extractLsb' 4 1 = 0)) (.vst w (a.extractLsb' 0 4) b m)
  | 0x22#6 => assigned (clear (bz && decide (a.extractLsb' 3 2 = 0) && decide (m.extractLsb' 0 1 = 0))
      (.vldacc w d (a.extractLsb' 0 3) (m.extractLsb' 1 6)))
  | 0x23#6 => assigned (clear (dz && decide (a.extractLsb' 3 2 = 0))
      (.vstacc w (a.extractLsb' 0 3) b (m.extractLsb' 1 6) (m.extractLsb' 0 1)))
  | 0x24#6 => assigned (clear (az && bz) (.vparam w d m))
  | 0x28#6 => clear (dz && bz && mz) (.mpush w a)
  | 0x29#6 => clear (dz && az && bz && mz) (.minv w)
  | 0x2A#6 => clear (az && bz && mz) (.mpop w d)
  | 0x2B#6 => assigned (clear (dz && az && bz) (.mskz w m))
  | 0x30#6 => assigned (.ok (.vloop w (x.extractLsb' 21 1) (x.extractLsb' 9 12) (x.extractLsb' 0 9)))
  | 0x31#6 => clear (decide (x.extractLsb' 16 2 = 0)) (.vflag w (x.extractLsb' 18 4) (x.extractLsb' 0 16))
  | 0x32#6 => assigned (clear (decide (x.extractLsb' 16 6 = 0)) (.vwaits w (x.extractLsb' 0 16)))
  | _ => decodeLanes w op d a b m

/-- A temporal order (R96). -/
def decodeT (x : Word32) : Except Reject Instr :=
  let w := x.extractLsb' 28 4
  let z16 := decide (x.extractLsb' 0 16 = 0)
  let z19 := decide (x.extractLsb' 0 19 = 0)
  match x.extractLsb' 24 4 with
  | 0x0#4 => clear (decide (x.extractLsb' 0 24 = 0)) (.tnop w)
  | 0x1#4 => assigned (clear (decide (x.extractLsb' 0 10 = 0))
      (.tdload w (x.extractLsb' 18 6) (x.extractLsb' 12 6) (x.extractLsb' 10 2)))
  | 0x2#4 =>
    let lowz := decide (x.extractLsb' 0 15 = 0)
    let colz := decide (x.extractLsb' 16 6 = 0)
    match x.extractLsb' 22 2 with
    | 0#2 => clear lowz (.tmode w (x.extractLsb' 16 6) (x.extractLsb' 15 1))
    | 1#2 => clear (lowz && colz) (.tmodeAll w (x.extractLsb' 15 1))
    | 2#2 => clear (lowz && colz && decide (x.extractLsb' 15 1 = 0)) (.tmodeTs w)
    | _ => .error .unassignedCode
  | 0x3#4 => assigned (clear z16 (.twset w (x.extractLsb' 16 8)))
  | 0x4#4 => clear z19 (.tlaunch w (x.extractLsb' 19 5))
  | 0x5#4 => clear z19 (.tcapture w (x.extractLsb' 19 5))
  | 0x6#4 => clear (decide (x.extractLsb' 0 24 = 0)) (.treset w)
  | 0x7#4 => assigned (clear z16 (.trelax w (x.extractLsb' 16 8)))
  | 0x8#4 => clear (decide (x.extractLsb' 16 4 = 0)) (.tflag w (x.extractLsb' 20 4) (x.extractLsb' 0 16))
  | _ => .error .reservedOp

/-! ## Bytes and checksums -/

/-- The little-endian value of a list of bytes (R7). -/
def leNat : List Byte → Nat
  | [] => 0
  | b :: rest => b.toNat + 256 * leNat rest

/-- The `n` little-endian bytes of `v` (R7). -/
def leBytes : Nat → Nat → List Byte
  | 0, _ => []
  | n + 1, v => BitVec.ofNat 8 v :: leBytes n (v / 256)

/-- One bit of the reflected IEEE 802.3 polynomial (R65). -/
def crcBit (c : Word32) : Word32 :=
  if c.getLsbD 0 then (c >>> 1) ^^^ 0xEDB88320 else c >>> 1

/-- One byte into a CRC-32 in progress. -/
def crcByte (c : Word32) (b : Byte) : Word32 :=
  crcBit (crcBit (crcBit (crcBit (crcBit (crcBit (crcBit (crcBit (c ^^^ b.zeroExtend 32))))))))

/-- CRC-32 of a byte range (R65): initial value and final exclusive-or all ones. -/
def crc32 (bytes : List Byte) : Word32 :=
  (bytes.foldl crcByte 0xFFFFFFFF) ^^^ 0xFFFFFFFF

/-! ## Copy entries -/

/-- The command of a code (R99). -/
def Command.ofCode (c : BitVec 8) : Option Command :=
  match c with
  | 0x01#8 => some .copy
  | 0x02#8 => some .copys
  | 0x03#8 => some .fill
  | 0x04#8 => some .bcast
  | 0x05#8 => some .cksum
  | 0x06#8 => some .signal
  | 0x07#8 => some .waitseq
  | 0x08#8 => some .tokret
  | 0x09#8 => some .link
  | 0x0A#8 => some .mirwait
  | _ => none

/-- The code of a command (R99). -/
def Command.code : Command → BitVec 8
  | .copy => 0x01
  | .copys => 0x02
  | .fill => 0x03
  | .bcast => 0x04
  | .cksum => 0x05
  | .signal => 0x06
  | .waitseq => 0x07
  | .tokret => 0x08
  | .link => 0x09
  | .mirwait => 0x0A

/-- The instruction of a command and its entry. -/
def Command.instr (c : Command) (e : CopyEntry) : Instr :=
  match c with
  | .copy => .copy e
  | .copys => .copys e
  | .fill => .fill e
  | .bcast => .bcast e
  | .cksum => .cksum e
  | .signal => .signal e
  | .waitseq => .waitseq e
  | .tokret => .tokret e
  | .link => .link e
  | .mirwait => .mirwait e

/-- The bits [8*o + 8*n − 1 : 8*o] of an entry read as one number: `n` bytes at offset `o`. -/
def entryField (v : Nat) (o n : Nat) : Nat := v / 256 ^ o % 256 ^ n

/-- A copy string entry from its 64 bytes (R98, R99, R101): CRC first, then the command, then its fields. -/
def decodeEntry (bytes : List Byte) : Except Reject Instr :=
  if bytes.length ≠ 64 then .error .entrySize
  else if crc32 (bytes.take 60) ≠ BitVec.ofNat 32 (leNat (bytes.drop 60)) then .error .badCrc
  else
    let v := leNat bytes
    let e : CopyEntry :=
      { flags := BitVec.ofNat 8 (entryField v 1 1), len := BitVec.ofNat 32 (entryField v 4 4),
        src := BitVec.ofNat 64 (entryField v 8 8), dst := BitVec.ofNat 64 (entryField v 16 8),
        aux := BitVec.ofNat 64 (entryField v 24 8), seed := BitVec.ofNat 32 (entryField v 32 4),
        expect := BitVec.ofNat 32 (entryField v 36 4), arg := BitVec.ofNat 64 (entryField v 40 8) }
    match Command.ofCode (BitVec.ofNat 8 (entryField v 0 1)) with
    | none => .error .unassignedCommand
    | some c =>
      if entryField v 2 2 ≠ 0 ∨ entryField v 48 12 ≠ 0 then .error .mustBeZero
      else assigned (.ok (c.instr e))

/-! ## The clusters a word may use -/

/-- The clusters that may issue a control word (R80, R83, R84); `none` for words any cluster may issue. -/
def Instr.lanes : Instr → Option (List Lane)
  | .add _ _ _ _ => none
  | .sub _ _ _ _ => none
  | .and _ _ _ _ => none
  | .or _ _ _ _ => none
  | .xor _ _ _ _ => none
  | .andn _ _ _ _ => none
  | .orn _ _ _ _ => none
  | .sll _ _ _ _ => none
  | .srl _ _ _ _ => none
  | .sra _ _ _ _ => none
  | .mul _ _ _ _ => none
  | .mulh _ _ _ _ => none
  | .mulhu _ _ _ _ => none
  | .div _ _ _ _ => none
  | .divu _ _ _ _ => none
  | .rem _ _ _ _ => none
  | .remu _ _ _ _ => none
  | .min _ _ _ _ => none
  | .max _ _ _ _ => none
  | .minu _ _ _ _ => none
  | .maxu _ _ _ _ => none
  | .slt _ _ _ _ => none
  | .sltu _ _ _ _ => none
  | .clz _ _ _ => none
  | .ctz _ _ _ => none
  | .popc _ _ _ => none
  | .addw _ _ _ _ => none
  | .subw _ _ _ _ => none
  | .sllw _ _ _ _ => none
  | .srlw _ _ _ _ => none
  | .sraw _ _ _ _ => none
  | .mulw _ _ _ _ => none
  | .addi _ _ _ _ => none
  | .andi _ _ _ _ => none
  | .ori _ _ _ _ => none
  | .xori _ _ _ _ => none
  | .slli _ _ _ _ => none
  | .srli _ _ _ _ => none
  | .srai _ _ _ _ => none
  | .slti _ _ _ _ => none
  | .sltiu _ _ _ _ => none
  | .lui _ _ _ => none
  | .addpc _ _ _ => none
  | .pcmp _ _ _ _ _ => none
  | .pcmpi _ _ _ _ _ => none
  | .pand _ _ _ _ => none
  | .por _ _ _ _ => none
  | .pxor _ _ _ _ => none
  | .pnot _ _ _ => none
  | .pmov _ _ _ => none
  | .sel _ _ _ _ _ => none
  | .br _ _ _ _ => none
  | .jal _ _ _ => none
  | .jalr _ _ _ _ => none
  | .loop _ _ _ _ => none
  | .lexit _ _ _ _ => none
  | .join _ => none
  | .sendl _ _ => none
  | .sendr _ _ => none
  | .recvl _ _ => none
  | .recvr _ _ => none
  | .nop _ => none
  | .brk _ => none
  | .cset _ _ _ => none
  | .cget _ _ _ => none
  | .cadd _ _ _ _ => none
  | .caddi _ _ _ _ => none
  | .ld _ _ _ _ _ => some [.L]
  | .st _ _ _ _ _ => some [.S]
  | .loadPerform => none
  | .loadDataReturn => none
  | .storePerform => none
  | .qmark _ _ => some [.K]
  | .cwb _ _ _ _ => some [.K]
  | .cinv _ _ _ _ => some [.K]
  | .cwbinv _ _ _ _ => some [.K]
  | .xin _ _ _ _ _ _ _ => some [.L]
  | .xinm _ _ _ _ _ _ _ => some [.L]
  | .xout _ _ _ _ _ _ _ => some [.S]
  | .xput _ _ _ _ => some [.E]
  | .xget _ _ _ _ => some [.S]
  | .xwait _ _ _ _ => some [.L, .S]
  | .xcancel _ _ _ _ => some [.L, .S]
  | .shpld _ _ _ _ => some [.L]
  | .shpst _ _ _ _ => some [.S]
  | .btld _ _ _ => some [.L]
  | .shpget _ _ _ _ _ => some [.K]
  | .shpset _ _ _ _ _ => some [.K]
  | .tstart _ _ _ _ => some [.E]
  | .tstartEv _ _ _ _ => some [.E]
  | .tstop _ _ _ => some [.E]
  | .tbase _ _ _ _ => some [.E]
  | .tsync _ _ _ => some [.E]
  | .tload _ _ _ _ _ => some [.E]
  | .evcfg _ _ _ _ => some [.K]
  | .evsig _ _ _ => some [.E, .K]
  | .evwait _ _ _ _ => some [.K]
  | .cptail _ _ _ => some [.S]
  | .cpseq _ _ _ => some [.S]
  | .ownLend _ _ _ _ _ => some [.K]
  | .ownGive _ _ _ _ _ => some [.K]
  | .ownRet _ _ _ _ => some [.K]
  | .ownSplit _ _ _ _ _ => some [.K]
  | .ownMerge _ _ _ _ _ => some [.K]
  | .ownShare _ _ _ _ _ => some [.K]
  | .ownUnshare _ _ _ _ => some [.K]
  | .ownWait _ _ _ _ => some [.K]
  | .ownQuery _ _ _ _ => some [.K]
  | .tokenSendComplete => none
  | .bar _ _ _ _ _ _ _ => some [.K]
  | .barrierComplete => none
  | .fence _ _ _ => some [.K]
  | .aadd _ _ _ _ _ => some [.K]
  | .aaddf _ _ _ _ _ => some [.K]
  | .axchg _ _ _ _ _ => some [.K]
  | .a2sum _ _ _ _ _ => some [.K]
  | .atomApply => none
  | .atomComplete => none
  | .srd _ _ _ => some [.K]
  | .swr _ _ _ => some [.K]
  | .ecall _ _ => some [.K]
  | .tret _ _ => some [.K]
  | .tack _ _ => some [.K]
  | .halt _ _ => some [.K]
  | .wfi _ _ => some [.K]
  | .oeqpop _ _ _ => some [.K]
  | .rotpt _ _ => some [.K]
  | .iinv _ _ => some [.K]
  | .tstatWrite _ => none
  | .oeqstatWrite _ => none
  | .heatbudWrite _ _ => none
  | .injWrite _ => none
  | .engineCommandPerform => none
  | .crossingAdmit _ => none
  | .crossingComplete _ => none
  | .xoutCapture _ => none
  | .unitStall => none
  | .smiss => none
  | .depto _ => none
  | .plen _ => none
  | .tableStart _ => none
  | .termFire _ => none
  | .engineIdle _ => none
  | .mnop _ => none
  | .mma _ _ _ _ _ _ _ _ _ => none
  | .mldm _ _ _ _ => none
  | .mscale _ _ _ _ _ => none
  | .mstore _ _ _ _ _ _ => none
  | .mzero _ _ => none
  | .mdrain _ _ _ _ => none
  | .drainArrive => none
  | .mchk _ _ => none
  | .mfix _ _ _ _ => none
  | .mcopy _ _ _ => none
  | .mlda _ _ _ _ _ => none
  | .ma2s _ _ _ _ => none
  | .mtile _ => none
  | .mloop _ _ _ _ => none
  | .mflag _ _ _ => none
  | .mwaits _ _ => none
  | .mmask _ _ => none
  | .mcbt _ _ _ _ => none
  | .vnop _ => none
  | .vadd _ _ _ _ _ => none
  | .vsub _ _ _ _ _ => none
  | .vmul _ _ _ _ _ => none
  | .vfma _ _ _ _ _ => none
  | .vmin _ _ _ _ => none
  | .vmax _ _ _ _ => none
  | .vabs _ _ _ => none
  | .vneg _ _ _ => none
  | .vcmp _ _ _ _ _ => none
  | .vcvt _ _ _ _ _ _ _ => none
  | .vexp2 _ _ _ => none
  | .vexpd _ _ _ _ => none
  | .vlog2 _ _ _ => none
  | .vrcp _ _ _ => none
  | .vrsq _ _ _ => none
  | .viadd _ _ _ _ => none
  | .visub _ _ _ _ => none
  | .vimul _ _ _ _ => none
  | .vand _ _ _ _ => none
  | .vor _ _ _ _ => none
  | .vxor _ _ _ _ => none
  | .vshl _ _ _ _ => none
  | .vshr _ _ _ _ => none
  | .vsar _ _ _ _ => none
  | .vsel _ _ _ _ => none
  | .vmov _ _ _ => none
  | .vbcast _ _ _ _ => none
  | .vperm _ _ _ _ => none
  | .vred _ _ _ _ _ _ => none
  | .vscan _ _ _ _ _ _ => none
  | .vsegid _ _ _ => none
  | .vld _ _ _ _ => none
  | .vst _ _ _ _ => none
  | .vldacc _ _ _ _ => none
  | .vstacc _ _ _ _ _ => none
  | .vparam _ _ _ => none
  | .mpush _ _ => none
  | .minv _ => none
  | .mpop _ _ => none
  | .mskz _ _ => none
  | .vloop _ _ _ _ => none
  | .vflag _ _ _ => none
  | .vwaits _ _ => none
  | .tnop _ => none
  | .tdload _ _ _ _ => none
  | .tmode _ _ _ => none
  | .tmodeAll _ _ => none
  | .tmodeTs _ => none
  | .twset _ _ => none
  | .tlaunch _ _ => none
  | .temporalEvalLand => none
  | .tcapture _ _ => none
  | .treset _ => none
  | .trelax _ _ => none
  | .tflag _ _ _ => none
  | .copy _ => none
  | .copys _ => none
  | .fill _ => none
  | .bcast _ => none
  | .cksum _ => none
  | .signal _ => none
  | .waitseq _ => none
  | .tokret _ => none
  | .link _ => none
  | .mirwait _ => none
  | .entryComplete => none
  | .mirrorAck => none
  | .mirrorTimeout => none
  | .heatWindow => none
  | .trapEntry _ _ => none
  | .preemptionRequest _ => none
  | .stopPoint => none
  | .contextSave => none
  | .contextRestore => none
  | .rotation _ _ => none
  | .rotationRebind _ _ => none
  | .admission _ _ => none
  | .admissionRetest _ => none
  | .taskStart _ => none
  | .graphNodeRelease _ _ => none
  | .graphReplay _ _ => none
  | .launchCompletion _ _ => none
  | .messageMatch _ _ _ => none
  | .frameClassify _ _ _ _ => none
  | .messageSend _ => none
  | .launchArmWrite _ _ _ _ _ => none
  | .regionEntryWrite _ _ _ => none
  | .keySlotLoad _ _ _ => none
  | .memprotWrite _ _ => none
  | .errorBankClear _ _ => none
  | .cesetWrite _ _ _ => none
  | .scrub _ _ _ => none
  | .marginStep _ _ => none
  | .marginError _ _ _ _ _ => none
  | .cesetRestore _ _ => none
  | .droop _ _ _ => none
  | .droopRaise _ _ _ => none
  | .clockHop _ _ _ => none
  | .stageTemperature _ _ _ _ => none
  | .drainDeadline _ => none
  | .flitCrcFail _ _ _ => none
  | .portFail _ _ _ => none
  | .packageFailure _ => none
  | .coreFailure _ _ => none
  | .moduleReset _ _ => none
  | .coldHandshakeTimeout _ => none
  | .lockstepMismatch _ _ => none
  | .wfiTimeout => none
  | .tlbWalkReturn => none
  | .launchKill _ _ => none
  | .parkedSpanHandover _ _ _ _ => none
  | .kernelLoad _ _ => none
  | .codePatch _ _ _ => none
  | .hostStore _ _ _ => none
  | .deviceDma _ _ _ => none
  | .quadRailSet _ _ _ _ => none
  | .droopRecovery _ _ _ => none
  | .bankFailure _ _ => none
  | .bankRebuildComplete _ _ => none

/-! ## The encoder -/

/-- Format KR (R78). -/
def fmtKR (s : BitVec 1) (maj : BitVec 6) (d a b : BitVec 5) (fn : BitVec 10) : Word32 := s ++ maj ++ d ++ a ++ b ++ fn

/-- Format KI (R78). -/
def fmtKI (s : BitVec 1) (maj : BitVec 6) (d a : BitVec 5) (i : BitVec 15) : Word32 := s ++ maj ++ d ++ a ++ i

/-- Format KM (R78). -/
def fmtKM (s : BitVec 1) (maj : BitVec 6) (d a : BitVec 5) (z : BitVec 3) (i : BitVec 12) : Word32 :=
  s ++ maj ++ d ++ a ++ z ++ i

/-- Format KU (R78). -/
def fmtKU (s : BitVec 1) (maj : BitVec 6) (d : BitVec 5) (i : BitVec 20) : Word32 := s ++ maj ++ d ++ i

/-- Format KB (R78). -/
def fmtKB (s : BitVec 1) (maj : BitVec 6) (p : BitVec 2) (n : BitVec 1) (o : BitVec 22) : Word32 := s ++ maj ++ p ++ n ++ o

/-- Format KP (R78). -/
def fmtKP (s : BitVec 1) (maj : BitVec 6) (dep : BitVec 4) (d a b : BitVec 5) (fn : BitVec 6) : Word32 :=
  s ++ maj ++ dep ++ d ++ a ++ b ++ fn

/-- A matrix order of either slot (R92, R93). -/
def fmtM (w : BitVec 4) (op : BitVec 5) (f : BitVec 23) : Word32 := w ++ op ++ f

/-- A vector order (R94). -/
def fmtV (w : BitVec 4) (op : BitVec 6) (d a b : BitVec 5) (m : BitVec 7) : Word32 := w ++ op ++ d ++ a ++ b ++ m

/-- A temporal order (R96). -/
def fmtT (w op : BitVec 4) (f : BitVec 24) : Word32 := w ++ op ++ f

/-- The 64 bytes of a copy entry (R98) with its CRC. -/
def encodeEntry (c : Command) (e : CopyEntry) : List Byte :=
  let body := c.code :: e.flags :: leBytes 2 0 ++ leBytes 4 e.len.toNat ++ leBytes 8 e.src.toNat ++
    leBytes 8 e.dst.toNat ++ leBytes 8 e.aux.toNat ++ leBytes 4 e.seed.toNat ++ leBytes 4 e.expect.toNat ++
    leBytes 8 e.arg.toNat ++ leBytes 12 0
  body ++ leBytes 4 (crc32 body).toNat

/-- The 32-bit word of a control word or order; `none` for copy entries and for the steps that no word encodes. -/
def encode : Instr → Option Word32
  | .add s d a b => some (fmtKR s 0x01 d a b 0x0#10)
  | .sub s d a b => some (fmtKR s 0x01 d a b 0x1#10)
  | .and s d a b => some (fmtKR s 0x01 d a b 0x2#10)
  | .or s d a b => some (fmtKR s 0x01 d a b 0x3#10)
  | .xor s d a b => some (fmtKR s 0x01 d a b 0x4#10)
  | .andn s d a b => some (fmtKR s 0x01 d a b 0x5#10)
  | .orn s d a b => some (fmtKR s 0x01 d a b 0x6#10)
  | .sll s d a b => some (fmtKR s 0x01 d a b 0x7#10)
  | .srl s d a b => some (fmtKR s 0x01 d a b 0x8#10)
  | .sra s d a b => some (fmtKR s 0x01 d a b 0x9#10)
  | .mul s d a b => some (fmtKR s 0x01 d a b 0xa#10)
  | .mulh s d a b => some (fmtKR s 0x01 d a b 0xb#10)
  | .mulhu s d a b => some (fmtKR s 0x01 d a b 0xc#10)
  | .div s d a b => some (fmtKR s 0x01 d a b 0xd#10)
  | .divu s d a b => some (fmtKR s 0x01 d a b 0xe#10)
  | .rem s d a b => some (fmtKR s 0x01 d a b 0xf#10)
  | .remu s d a b => some (fmtKR s 0x01 d a b 0x10#10)
  | .min s d a b => some (fmtKR s 0x01 d a b 0x11#10)
  | .max s d a b => some (fmtKR s 0x01 d a b 0x12#10)
  | .minu s d a b => some (fmtKR s 0x01 d a b 0x13#10)
  | .maxu s d a b => some (fmtKR s 0x01 d a b 0x14#10)
  | .slt s d a b => some (fmtKR s 0x01 d a b 0x15#10)
  | .sltu s d a b => some (fmtKR s 0x01 d a b 0x16#10)
  | .clz s d a => some (fmtKR s 0x01 d a 0x0#5 0x17#10)
  | .ctz s d a => some (fmtKR s 0x01 d a 0x0#5 0x18#10)
  | .popc s d a => some (fmtKR s 0x01 d a 0x0#5 0x19#10)
  | .addw s d a b => some (fmtKR s 0x02 d a b 0x0#10)
  | .subw s d a b => some (fmtKR s 0x02 d a b 0x1#10)
  | .sllw s d a b => some (fmtKR s 0x02 d a b 0x2#10)
  | .srlw s d a b => some (fmtKR s 0x02 d a b 0x3#10)
  | .sraw s d a b => some (fmtKR s 0x02 d a b 0x4#10)
  | .mulw s d a b => some (fmtKR s 0x02 d a b 0x5#10)
  | .addi s d a i => some (fmtKI s 0x03 d a i)
  | .andi s d a i => some (fmtKI s 0x04 d a i)
  | .ori s d a i => some (fmtKI s 0x05 d a i)
  | .xori s d a i => some (fmtKI s 0x06 d a i)
  | .slli s d a h => some (fmtKI s 0x07 d a (0x0#9 ++ h))
  | .srli s d a h => some (fmtKI s 0x07 d a (0x80#9 ++ h))
  | .srai s d a h => some (fmtKI s 0x07 d a (0x100#9 ++ h))
  | .slti s d a i => some (fmtKI s 0x08 d a i)
  | .sltiu s d a i => some (fmtKI s 0x09 d a i)
  | .lui s d i => some (fmtKU s 0x0a d i)
  | .addpc s d i => some (fmtKU s 0x0b d i)
  | .pcmp s p a b c => some (fmtKR s 0x0c (0x0#3 ++ p) a b (0x0#7 ++ c))
  | .pcmpi s c p a i => some (fmtKI s 0x0d (c ++ p) a i)
  | .pand s d a b => some (fmtKR s 0x0e (0x0#3 ++ d) (0x0#3 ++ a) (0x0#3 ++ b) 0x0#10)
  | .por s d a b => some (fmtKR s 0x0e (0x0#3 ++ d) (0x0#3 ++ a) (0x0#3 ++ b) 0x1#10)
  | .pxor s d a b => some (fmtKR s 0x0e (0x0#3 ++ d) (0x0#3 ++ a) (0x0#3 ++ b) 0x2#10)
  | .pnot s d a => some (fmtKR s 0x0e (0x0#3 ++ d) (0x0#3 ++ a) 0x0#5 0x3#10)
  | .pmov s d a => some (fmtKR s 0x0e (0x0#3 ++ d) (0x0#3 ++ a) 0x0#5 0x4#10)
  | .sel s d a b p => some (fmtKR s 0x0f d a b (0x0#8 ++ p))
  | .br s p n o => some (fmtKB s 0x10 p n o)
  | .jal s d i => some (fmtKU s 0x11 d i)
  | .jalr s d a i => some (fmtKI s 0x12 d a i)
  | .loop s p a l => some (fmtKI s 0x13 (p ++ 0x0#4) a l)
  | .lexit s p n o => some (fmtKB s 0x14 p n o)
  | .join n => some (fmtKU 1#1 0x15 0x0#5 (0x0#12 ++ n))
  | .sendl s a => some (fmtKR s 0x16 0x0#5 a 0x0#5 0x0#10)
  | .sendr s a => some (fmtKR s 0x16 0x0#5 a 0x0#5 0x1#10)
  | .recvl s d => some (fmtKR s 0x16 d 0x0#5 0x0#5 0x2#10)
  | .recvr s d => some (fmtKR s 0x16 d 0x0#5 0x0#5 0x3#10)
  | .nop s => some (fmtKR s 0x17 0#5 0#5 0#5 0#10)
  | .brk s => some (fmtKR s 0x18 0#5 0#5 0#5 0#10)
  | .cset s c a => some (fmtKR s 0x19 (0x0#2 ++ c) a 0x0#5 0x0#10)
  | .cget s d c => some (fmtKR s 0x19 d (0x0#2 ++ c) 0x0#5 0x1#10)
  | .cadd s d a b => some (fmtKR s 0x19 (0x0#2 ++ d) (0x0#2 ++ a) b 0x2#10)
  | .caddi s d a i => some (fmtKI s 0x1a (0x0#2 ++ d) (0x0#2 ++ a) i)
  | .ld s d a z i => some (fmtKM s 0x20 d a z i)
  | .st s d a z i => some (fmtKM s 0x21 d a z i)
  | .loadPerform => none
  | .loadDataReturn => none
  | .storePerform => none
  | .qmark s dep => some (fmtKP s 0x22 dep 0x0#5 0x0#5 0x0#5 0x0#6)
  | .cwb s dep a b => some (fmtKP s 0x23 dep 0x0#5 a b 0x0#6)
  | .cinv s dep a b => some (fmtKP s 0x23 dep 0x0#5 a b 0x1#6)
  | .cwbinv s dep a b => some (fmtKP s 0x23 dep 0x0#5 a b 0x2#6)
  | .xin s dep d a b n m => some (fmtKP s 0x28 dep d a b (n ++ m))
  | .xinm s dep d a b n m => some (fmtKP s 0x29 dep d a b (n ++ m))
  | .xout s dep d a b n m => some (fmtKP s 0x2a dep d a b (n ++ 0x0#1 ++ m))
  | .xput s dep a k => some (fmtKP s 0x2b dep 0x0#5 a 0x0#5 k)
  | .xget s dep d k => some (fmtKP s 0x2c dep d 0x0#5 0x0#5 k)
  | .xwait s dep d p => some (fmtKP s 0x2d dep d 0x0#5 0x0#5 p)
  | .xcancel s dep d a => some (fmtKP s 0x2e dep d a 0x0#5 0x0#6)
  | .shpld s dep a n => some (fmtKP s 0x2f dep 0x0#5 a (0x0#1 ++ n) 0x0#6)
  | .shpst s dep a n => some (fmtKP s 0x2f dep 0x0#5 a (0x0#1 ++ n) 0x1#6)
  | .btld s dep n => some (fmtKP s 0x2f dep 0x0#5 0x0#5 (0x0#1 ++ n) 0x2#6)
  | .shpget s dep d n w => some (fmtKP s 0x2f dep d 0x0#5 (0x0#1 ++ n) (0x2#2 ++ w))
  | .shpset s dep a n w => some (fmtKP s 0x2f dep 0x0#5 a (0x0#1 ++ n) (0x3#2 ++ w))
  | .tstart s dep a e => some (fmtKP s 0x30 dep 0x0#5 a 0x0#5 (0x0#4 ++ e))
  | .tstartEv s dep t e => some (fmtKP s 0x30 dep 0x0#5 0x0#5 (0x0#1 ++ t) (0x1#4 ++ e))
  | .tstop s dep e => some (fmtKP s 0x31 dep 0x0#5 0x0#5 0x0#5 (0x0#4 ++ e))
  | .tbase s dep a e => some (fmtKP s 0x32 dep 0x0#5 a 0x0#5 (0x0#4 ++ e))
  | .tsync s dep e => some (fmtKP s 0x33 dep 0x0#5 0x0#5 0x0#5 (0x0#4 ++ e))
  | .tload s dep a b e => some (fmtKP s 0x34 dep 0x0#5 a b (0x0#4 ++ e))
  | .evcfg s dep a n => some (fmtKP s 0x35 dep 0x0#5 a (0x0#1 ++ n) 0x0#6)
  | .evsig s dep n => some (fmtKP s 0x35 dep 0x0#5 0x0#5 (0x0#1 ++ n) 0x1#6)
  | .evwait s dep a n => some (fmtKP s 0x35 dep 0x0#5 a (0x0#1 ++ n) 0x2#6)
  | .cptail s dep a => some (fmtKP s 0x36 dep 0x0#5 a 0x0#5 0x0#6)
  | .cpseq s dep d => some (fmtKP s 0x36 dep d 0x0#5 0x0#5 0x1#6)
  | .ownLend s dep d a b => some (fmtKP s 0x38 dep d a b 0x0#6)
  | .ownGive s dep d a b => some (fmtKP s 0x38 dep d a b 0x1#6)
  | .ownRet s dep d a => some (fmtKP s 0x38 dep d a 0x0#5 0x2#6)
  | .ownSplit s dep d a b => some (fmtKP s 0x38 dep d a b 0x3#6)
  | .ownMerge s dep d a b => some (fmtKP s 0x38 dep d a b 0x4#6)
  | .ownShare s dep d a b => some (fmtKP s 0x38 dep d a b 0x5#6)
  | .ownUnshare s dep d a => some (fmtKP s 0x38 dep d a 0x0#5 0x6#6)
  | .ownWait s dep d a => some (fmtKP s 0x38 dep d a 0x0#5 0x7#6)
  | .ownQuery s dep d a => some (fmtKP s 0x38 dep d a 0x0#5 0x8#6)
  | .tokenSendComplete => none
  | .bar s dep d a m o k => some (fmtKP s 0x39 dep d a (0x0#1 ++ m) (0x0#1 ++ o ++ k))
  | .barrierComplete => none
  | .fence s dep m => some (fmtKP s 0x3a dep 0x0#5 0x0#5 0x0#5 (0x0#2 ++ m))
  | .aadd s dep d a b => some (fmtKP s 0x3b dep d a b 0x0#6)
  | .aaddf s dep d a b => some (fmtKP s 0x3b dep d a b 0x1#6)
  | .axchg s dep d a b => some (fmtKP s 0x3b dep d a b 0x2#6)
  | .a2sum s dep d a b => some (fmtKP s 0x3b dep d a b 0x3#6)
  | .atomApply => none
  | .atomComplete => none
  | .srd s d x => some (fmtKI s 0x3c d 0x0#5 (0x0#3 ++ x))
  | .swr s a x => some (fmtKI s 0x3d 0x0#5 a (0x0#3 ++ x))
  | .ecall s dep => some (fmtKP s 0x3e dep 0x0#5 0x0#5 0x0#5 0x0#6)
  | .tret s dep => some (fmtKP s 0x3e dep 0x0#5 0x0#5 0x0#5 0x1#6)
  | .tack s dep => some (fmtKP s 0x3e dep 0x0#5 0x0#5 0x0#5 0x2#6)
  | .halt s dep => some (fmtKP s 0x3e dep 0x0#5 0x0#5 0x0#5 0x3#6)
  | .wfi s dep => some (fmtKP s 0x3e dep 0x0#5 0x0#5 0x0#5 0x4#6)
  | .oeqpop s dep d => some (fmtKP s 0x3e dep d 0x0#5 0x0#5 0x5#6)
  | .rotpt s dep => some (fmtKP s 0x3e dep 0x0#5 0x0#5 0x0#5 0x6#6)
  | .iinv s dep => some (fmtKP s 0x3e dep 0x0#5 0x0#5 0x0#5 0x7#6)
  | .tstatWrite _ => none
  | .oeqstatWrite _ => none
  | .heatbudWrite _ _ => none
  | .injWrite _ => none
  | .engineCommandPerform => none
  | .crossingAdmit _ => none
  | .crossingComplete _ => none
  | .xoutCapture _ => none
  | .unitStall => none
  | .smiss => none
  | .depto _ => none
  | .plen _ => none
  | .tableStart _ => none
  | .termFire _ => none
  | .engineIdle _ => none
  | .mnop w => some (fmtM w 0x00 0x0#23)
  | .mma w f x g k o a b c => some (fmtM w 0x01 (f ++ x ++ g ++ k ++ o ++ a ++ b ++ c ++ 0x0#2))
  | .mldm w d p k => some (fmtM w 0x02 (d ++ p ++ k ++ 0x0#5))
  | .mscale w a p s b => some (fmtM w 0x01 (a ++ p ++ s ++ b))
  | .mstore w a p k g h => some (fmtM w 0x02 (a ++ p ++ k ++ g ++ h))
  | .mzero w a => some (fmtM w 0x03 (a ++ 0x0#17))
  | .mdrain w a d c => some (fmtM w 0x04 (a ++ d ++ c ++ 0x0#10))
  | .drainArrive => none
  | .mchk w a => some (fmtM w 0x05 (a ++ 0x0#17))
  | .mfix w a i j => some (fmtM w 0x06 (a ++ i ++ j ++ 0x0#9))
  | .mcopy w a s => some (fmtM w 0x07 (a ++ s ++ 0x0#11))
  | .mlda w a p k e => some (fmtM w 0x08 (a ++ p ++ k ++ e ++ 0x0#1))
  | .ma2s w h l s => some (fmtM w 0x09 (h ++ l ++ s ++ 0x0#5))
  | .mtile w => some (fmtM w 0x0a 0x0#23)
  | .mloop w p c l => some (fmtM w 0x0b (p ++ c ++ l))
  | .mflag w f v => some (fmtM w 0x0c (f ++ 0x0#3 ++ v))
  | .mwaits w n => some (fmtM w 0x0d (0x0#7 ++ n))
  | .mmask w q => some (fmtM w 0x0e (q ++ 0x0#20))
  | .mcbt w p f c => some (fmtM w 0x0f (p ++ f ++ c ++ 0x0#4))
  | .vnop w => some (fmtV w 0x00 0x0#5 0x0#5 0x0#5 0x0#7)
  | .vadd w d a b m => some (fmtV w 0x01 d a b (m ++ 0x0#4))
  | .vsub w d a b m => some (fmtV w 0x02 d a b (m ++ 0x0#4))
  | .vmul w d a b m => some (fmtV w 0x03 d a b (m ++ 0x0#4))
  | .vfma w d a b m => some (fmtV w 0x04 d a b (m ++ 0x0#4))
  | .vmin w d a b => some (fmtV w 0x05 d a b 0x0#7)
  | .vmax w d a b => some (fmtV w 0x06 d a b 0x0#7)
  | .vabs w d a => some (fmtV w 0x07 d a 0x0#5 0x0#7)
  | .vneg w d a => some (fmtV w 0x08 d a 0x0#5 0x0#7)
  | .vcmp w a b i c => some (fmtV w 0x09 0x0#5 a b (0x0#3 ++ i ++ c))
  | .vcvt w d a g x m h => some (fmtV w 0x0a d a (g ++ x) (m ++ h))
  | .vexp2 w d a => some (fmtV w 0x0b d a 0x0#5 0x0#7)
  | .vexpd w d a b => some (fmtV w 0x0c d a b 0x0#7)
  | .vlog2 w d a => some (fmtV w 0x0d d a 0x0#5 0x0#7)
  | .vrcp w d a => some (fmtV w 0x0e d a 0x0#5 0x0#7)
  | .vrsq w d a => some (fmtV w 0x0f d a 0x0#5 0x0#7)
  | .viadd w d a b => some (fmtV w 0x10 d a b 0x0#7)
  | .visub w d a b => some (fmtV w 0x11 d a b 0x0#7)
  | .vimul w d a b => some (fmtV w 0x12 d a b 0x0#7)
  | .vand w d a b => some (fmtV w 0x13 d a b 0x0#7)
  | .vor w d a b => some (fmtV w 0x14 d a b 0x0#7)
  | .vxor w d a b => some (fmtV w 0x15 d a b 0x0#7)
  | .vshl w d a b => some (fmtV w 0x16 d a b 0x0#7)
  | .vshr w d a b => some (fmtV w 0x17 d a b 0x0#7)
  | .vsar w d a b => some (fmtV w 0x18 d a b 0x0#7)
  | .vsel w d a b => some (fmtV w 0x19 d a b 0x0#7)
  | .vmov w d a => some (fmtV w 0x1a d a 0x0#5 0x0#7)
  | .vbcast w d a n => some (fmtV w 0x1b d a 0x0#5 (0x0#1 ++ n))
  | .vperm w d a b => some (fmtV w 0x1c d a b 0x0#7)
  | .vred w d a i g o => some (fmtV w 0x1d d a 0x0#5 (0x0#3 ++ i ++ g ++ o))
  | .vscan w d a i g o => some (fmtV w 0x1e d a 0x0#5 (0x0#3 ++ i ++ g ++ o))
  | .vsegid w d a => some (fmtV w 0x1f d a 0x0#5 0x0#7)
  | .vld w d n k => some (fmtV w 0x20 d (0x0#1 ++ n) 0x0#5 k)
  | .vst w n b k => some (fmtV w 0x21 0x0#5 (0x0#1 ++ n) b k)
  | .vldacc w d q c => some (fmtV w 0x22 d (0x0#2 ++ q) 0x0#5 (c ++ 0x0#1))
  | .vstacc w q b c e => some (fmtV w 0x23 0x0#5 (0x0#2 ++ q) b (c ++ e))
  | .vparam w d k => some (fmtV w 0x24 d 0x0#5 0x0#5 k)
  | .mpush w a => some (fmtV w 0x28 0x0#5 a 0x0#5 0x0#7)
  | .minv w => some (fmtV w 0x29 0x0#5 0x0#5 0x0#5 0x0#7)
  | .mpop w d => some (fmtV w 0x2a d 0x0#5 0x0#5 0x0#7)
  | .mskz w n => some (fmtV w 0x2b 0x0#5 0x0#5 0x0#5 n)
  | .vloop w p c l => some (w ++ 0x30#6 ++ p ++ c ++ l)
  | .vflag w n v => some (w ++ 0x31#6 ++ n ++ 0#2 ++ v)
  | .vwaits w n => some (w ++ 0x32#6 ++ 0#6 ++ n)
  | .tnop w => some (fmtT w 0x00 0x0#24)
  | .tdload w f c s => some (fmtT w 0x01 (f ++ c ++ s ++ 0x0#10))
  | .tmode w c m => some (fmtT w 0x02 (0x0#2 ++ c ++ m ++ 0x0#15))
  | .tmodeAll w m => some (fmtT w 0x02 (0x40#8 ++ m ++ 0x0#15))
  | .tmodeTs w => some (fmtT w 0x02 0x800000#24)
  | .twset w n => some (fmtT w 0x03 (n ++ 0x0#16))
  | .tlaunch w a => some (fmtT w 0x04 (a ++ 0x0#19))
  | .temporalEvalLand => none
  | .tcapture w d => some (fmtT w 0x05 (d ++ 0x0#19))
  | .treset w => some (fmtT w 0x06 0x0#24)
  | .trelax w n => some (fmtT w 0x07 (n ++ 0x0#16))
  | .tflag w f v => some (fmtT w 0x08 (f ++ 0x0#4 ++ v))
  | .copy _ => none
  | .copys _ => none
  | .fill _ => none
  | .bcast _ => none
  | .cksum _ => none
  | .signal _ => none
  | .waitseq _ => none
  | .tokret _ => none
  | .link _ => none
  | .mirwait _ => none
  | .entryComplete => none
  | .mirrorAck => none
  | .mirrorTimeout => none
  | .heatWindow => none
  | .trapEntry _ _ => none
  | .preemptionRequest _ => none
  | .stopPoint => none
  | .contextSave => none
  | .contextRestore => none
  | .rotation _ _ => none
  | .rotationRebind _ _ => none
  | .admission _ _ => none
  | .admissionRetest _ => none
  | .taskStart _ => none
  | .graphNodeRelease _ _ => none
  | .graphReplay _ _ => none
  | .launchCompletion _ _ => none
  | .messageMatch _ _ _ => none
  | .frameClassify _ _ _ _ => none
  | .messageSend _ => none
  | .launchArmWrite _ _ _ _ _ => none
  | .regionEntryWrite _ _ _ => none
  | .keySlotLoad _ _ _ => none
  | .memprotWrite _ _ => none
  | .errorBankClear _ _ => none
  | .cesetWrite _ _ _ => none
  | .scrub _ _ _ => none
  | .marginStep _ _ => none
  | .marginError _ _ _ _ _ => none
  | .cesetRestore _ _ => none
  | .droop _ _ _ => none
  | .droopRaise _ _ _ => none
  | .clockHop _ _ _ => none
  | .stageTemperature _ _ _ _ => none
  | .drainDeadline _ => none
  | .flitCrcFail _ _ _ => none
  | .portFail _ _ _ => none
  | .packageFailure _ => none
  | .coreFailure _ _ => none
  | .moduleReset _ _ => none
  | .coldHandshakeTimeout _ => none
  | .lockstepMismatch _ _ => none
  | .wfiTimeout => none
  | .tlbWalkReturn => none
  | .launchKill _ _ => none
  | .parkedSpanHandover _ _ _ _ => none
  | .kernelLoad _ _ => none
  | .codePatch _ _ _ => none
  | .hostStore _ _ _ => none
  | .deviceDma _ _ _ => none
  | .quadRailSet _ _ _ _ => none
  | .droopRecovery _ _ _ => none
  | .bankFailure _ _ => none
  | .bankRebuildComplete _ _ => none

/-- The slot, engine or core an encoded word belongs to. -/
inductive Kind where
  | control | slotX | slotY | vector | temporal | entry | event
  deriving DecidableEq, Repr

/-- Where an instruction stands: in a bundle, in a slot of a matrix step, in the vector or temporal order store, in a
copy string, or nowhere. `mnop` is counted as slot X; it stands in slot Y as well. -/
def Instr.kind : Instr → Kind
  | .add _ _ _ _ => .control
  | .sub _ _ _ _ => .control
  | .and _ _ _ _ => .control
  | .or _ _ _ _ => .control
  | .xor _ _ _ _ => .control
  | .andn _ _ _ _ => .control
  | .orn _ _ _ _ => .control
  | .sll _ _ _ _ => .control
  | .srl _ _ _ _ => .control
  | .sra _ _ _ _ => .control
  | .mul _ _ _ _ => .control
  | .mulh _ _ _ _ => .control
  | .mulhu _ _ _ _ => .control
  | .div _ _ _ _ => .control
  | .divu _ _ _ _ => .control
  | .rem _ _ _ _ => .control
  | .remu _ _ _ _ => .control
  | .min _ _ _ _ => .control
  | .max _ _ _ _ => .control
  | .minu _ _ _ _ => .control
  | .maxu _ _ _ _ => .control
  | .slt _ _ _ _ => .control
  | .sltu _ _ _ _ => .control
  | .clz _ _ _ => .control
  | .ctz _ _ _ => .control
  | .popc _ _ _ => .control
  | .addw _ _ _ _ => .control
  | .subw _ _ _ _ => .control
  | .sllw _ _ _ _ => .control
  | .srlw _ _ _ _ => .control
  | .sraw _ _ _ _ => .control
  | .mulw _ _ _ _ => .control
  | .addi _ _ _ _ => .control
  | .andi _ _ _ _ => .control
  | .ori _ _ _ _ => .control
  | .xori _ _ _ _ => .control
  | .slli _ _ _ _ => .control
  | .srli _ _ _ _ => .control
  | .srai _ _ _ _ => .control
  | .slti _ _ _ _ => .control
  | .sltiu _ _ _ _ => .control
  | .lui _ _ _ => .control
  | .addpc _ _ _ => .control
  | .pcmp _ _ _ _ _ => .control
  | .pcmpi _ _ _ _ _ => .control
  | .pand _ _ _ _ => .control
  | .por _ _ _ _ => .control
  | .pxor _ _ _ _ => .control
  | .pnot _ _ _ => .control
  | .pmov _ _ _ => .control
  | .sel _ _ _ _ _ => .control
  | .br _ _ _ _ => .control
  | .jal _ _ _ => .control
  | .jalr _ _ _ _ => .control
  | .loop _ _ _ _ => .control
  | .lexit _ _ _ _ => .control
  | .join _ => .control
  | .sendl _ _ => .control
  | .sendr _ _ => .control
  | .recvl _ _ => .control
  | .recvr _ _ => .control
  | .nop _ => .control
  | .brk _ => .control
  | .cset _ _ _ => .control
  | .cget _ _ _ => .control
  | .cadd _ _ _ _ => .control
  | .caddi _ _ _ _ => .control
  | .ld _ _ _ _ _ => .control
  | .st _ _ _ _ _ => .control
  | .loadPerform => .event
  | .loadDataReturn => .event
  | .storePerform => .event
  | .qmark _ _ => .control
  | .cwb _ _ _ _ => .control
  | .cinv _ _ _ _ => .control
  | .cwbinv _ _ _ _ => .control
  | .xin _ _ _ _ _ _ _ => .control
  | .xinm _ _ _ _ _ _ _ => .control
  | .xout _ _ _ _ _ _ _ => .control
  | .xput _ _ _ _ => .control
  | .xget _ _ _ _ => .control
  | .xwait _ _ _ _ => .control
  | .xcancel _ _ _ _ => .control
  | .shpld _ _ _ _ => .control
  | .shpst _ _ _ _ => .control
  | .btld _ _ _ => .control
  | .shpget _ _ _ _ _ => .control
  | .shpset _ _ _ _ _ => .control
  | .tstart _ _ _ _ => .control
  | .tstartEv _ _ _ _ => .control
  | .tstop _ _ _ => .control
  | .tbase _ _ _ _ => .control
  | .tsync _ _ _ => .control
  | .tload _ _ _ _ _ => .control
  | .evcfg _ _ _ _ => .control
  | .evsig _ _ _ => .control
  | .evwait _ _ _ _ => .control
  | .cptail _ _ _ => .control
  | .cpseq _ _ _ => .control
  | .ownLend _ _ _ _ _ => .control
  | .ownGive _ _ _ _ _ => .control
  | .ownRet _ _ _ _ => .control
  | .ownSplit _ _ _ _ _ => .control
  | .ownMerge _ _ _ _ _ => .control
  | .ownShare _ _ _ _ _ => .control
  | .ownUnshare _ _ _ _ => .control
  | .ownWait _ _ _ _ => .control
  | .ownQuery _ _ _ _ => .control
  | .tokenSendComplete => .event
  | .bar _ _ _ _ _ _ _ => .control
  | .barrierComplete => .event
  | .fence _ _ _ => .control
  | .aadd _ _ _ _ _ => .control
  | .aaddf _ _ _ _ _ => .control
  | .axchg _ _ _ _ _ => .control
  | .a2sum _ _ _ _ _ => .control
  | .atomApply => .event
  | .atomComplete => .event
  | .srd _ _ _ => .control
  | .swr _ _ _ => .control
  | .ecall _ _ => .control
  | .tret _ _ => .control
  | .tack _ _ => .control
  | .halt _ _ => .control
  | .wfi _ _ => .control
  | .oeqpop _ _ _ => .control
  | .rotpt _ _ => .control
  | .iinv _ _ => .control
  | .tstatWrite _ => .event
  | .oeqstatWrite _ => .event
  | .heatbudWrite _ _ => .event
  | .injWrite _ => .event
  | .engineCommandPerform => .event
  | .crossingAdmit _ => .event
  | .crossingComplete _ => .event
  | .xoutCapture _ => .event
  | .unitStall => .event
  | .smiss => .event
  | .depto _ => .event
  | .plen _ => .event
  | .tableStart _ => .event
  | .termFire _ => .event
  | .engineIdle _ => .event
  | .mnop _ => .slotX
  | .mma _ _ _ _ _ _ _ _ _ => .slotX
  | .mldm _ _ _ _ => .slotX
  | .mscale _ _ _ _ _ => .slotY
  | .mstore _ _ _ _ _ _ => .slotY
  | .mzero _ _ => .slotY
  | .mdrain _ _ _ _ => .slotY
  | .drainArrive => .event
  | .mchk _ _ => .slotY
  | .mfix _ _ _ _ => .slotY
  | .mcopy _ _ _ => .slotY
  | .mlda _ _ _ _ _ => .slotY
  | .ma2s _ _ _ _ => .slotY
  | .mtile _ => .slotY
  | .mloop _ _ _ _ => .slotY
  | .mflag _ _ _ => .slotY
  | .mwaits _ _ => .slotY
  | .mmask _ _ => .slotY
  | .mcbt _ _ _ _ => .slotY
  | .vnop _ => .vector
  | .vadd _ _ _ _ _ => .vector
  | .vsub _ _ _ _ _ => .vector
  | .vmul _ _ _ _ _ => .vector
  | .vfma _ _ _ _ _ => .vector
  | .vmin _ _ _ _ => .vector
  | .vmax _ _ _ _ => .vector
  | .vabs _ _ _ => .vector
  | .vneg _ _ _ => .vector
  | .vcmp _ _ _ _ _ => .vector
  | .vcvt _ _ _ _ _ _ _ => .vector
  | .vexp2 _ _ _ => .vector
  | .vexpd _ _ _ _ => .vector
  | .vlog2 _ _ _ => .vector
  | .vrcp _ _ _ => .vector
  | .vrsq _ _ _ => .vector
  | .viadd _ _ _ _ => .vector
  | .visub _ _ _ _ => .vector
  | .vimul _ _ _ _ => .vector
  | .vand _ _ _ _ => .vector
  | .vor _ _ _ _ => .vector
  | .vxor _ _ _ _ => .vector
  | .vshl _ _ _ _ => .vector
  | .vshr _ _ _ _ => .vector
  | .vsar _ _ _ _ => .vector
  | .vsel _ _ _ _ => .vector
  | .vmov _ _ _ => .vector
  | .vbcast _ _ _ _ => .vector
  | .vperm _ _ _ _ => .vector
  | .vred _ _ _ _ _ _ => .vector
  | .vscan _ _ _ _ _ _ => .vector
  | .vsegid _ _ _ => .vector
  | .vld _ _ _ _ => .vector
  | .vst _ _ _ _ => .vector
  | .vldacc _ _ _ _ => .vector
  | .vstacc _ _ _ _ _ => .vector
  | .vparam _ _ _ => .vector
  | .mpush _ _ => .vector
  | .minv _ => .vector
  | .mpop _ _ => .vector
  | .mskz _ _ => .vector
  | .vloop _ _ _ _ => .vector
  | .vflag _ _ _ => .vector
  | .vwaits _ _ => .vector
  | .tnop _ => .temporal
  | .tdload _ _ _ _ => .temporal
  | .tmode _ _ _ => .temporal
  | .tmodeAll _ _ => .temporal
  | .tmodeTs _ => .temporal
  | .twset _ _ => .temporal
  | .tlaunch _ _ => .temporal
  | .temporalEvalLand => .event
  | .tcapture _ _ => .temporal
  | .treset _ => .temporal
  | .trelax _ _ => .temporal
  | .tflag _ _ _ => .temporal
  | .copy _ => .entry
  | .copys _ => .entry
  | .fill _ => .entry
  | .bcast _ => .entry
  | .cksum _ => .entry
  | .signal _ => .entry
  | .waitseq _ => .entry
  | .tokret _ => .entry
  | .link _ => .entry
  | .mirwait _ => .entry
  | .entryComplete => .event
  | .mirrorAck => .event
  | .mirrorTimeout => .event
  | .heatWindow => .event
  | .trapEntry _ _ => .event
  | .preemptionRequest _ => .event
  | .stopPoint => .event
  | .contextSave => .event
  | .contextRestore => .event
  | .rotation _ _ => .event
  | .rotationRebind _ _ => .event
  | .admission _ _ => .event
  | .admissionRetest _ => .event
  | .taskStart _ => .event
  | .graphNodeRelease _ _ => .event
  | .graphReplay _ _ => .event
  | .launchCompletion _ _ => .event
  | .messageMatch _ _ _ => .event
  | .frameClassify _ _ _ _ => .event
  | .messageSend _ => .event
  | .launchArmWrite _ _ _ _ _ => .event
  | .regionEntryWrite _ _ _ => .event
  | .keySlotLoad _ _ _ => .event
  | .memprotWrite _ _ => .event
  | .errorBankClear _ _ => .event
  | .cesetWrite _ _ _ => .event
  | .scrub _ _ _ => .event
  | .marginStep _ _ => .event
  | .marginError _ _ _ _ _ => .event
  | .cesetRestore _ _ => .event
  | .droop _ _ _ => .event
  | .droopRaise _ _ _ => .event
  | .clockHop _ _ _ => .event
  | .stageTemperature _ _ _ _ => .event
  | .drainDeadline _ => .event
  | .flitCrcFail _ _ _ => .event
  | .portFail _ _ _ => .event
  | .packageFailure _ => .event
  | .coreFailure _ _ => .event
  | .moduleReset _ _ => .event
  | .coldHandshakeTimeout _ => .event
  | .lockstepMismatch _ _ => .event
  | .wfiTimeout => .event
  | .tlbWalkReturn => .event
  | .launchKill _ _ => .event
  | .parkedSpanHandover _ _ _ _ => .event
  | .kernelLoad _ _ => .event
  | .codePatch _ _ _ => .event
  | .hostStore _ _ _ => .event
  | .deviceDma _ _ _ => .event
  | .quadRailSet _ _ _ _ => .event
  | .droopRecovery _ _ _ => .event
  | .bankFailure _ _ => .event
  | .bankRebuildComplete _ _ => .event

/-- What the word `w` stands for in a place of this kind. -/
def decodeAs (k : Kind) (w : Word32) : Except Reject Instr :=
  match k with
  | .control => decodeControl w
  | .slotX => decodeX w
  | .slotY => decodeY w
  | .vector => decodeV w
  | .temporal => decodeT w
  | .entry => .error .entrySize
  | .event => .error .illegalMajor

/-- The first place of a list in which the word is an instruction. -/
def firstKind (v : Word32) : List Kind → Option Instr
  | [] => none
  | k :: rest =>
    match decodeAs k v with
    | .ok i => some i
    | .error _ => firstKind v rest

/-- The instruction of a table word whose place is not told. One 32-bit pattern can be a control word, a slot X, slot Y,
vector or temporal order, by where it stands; the order in which the places are tried is this model's choice, and the log
names it: a word whose bits [31:28] are 0, as an order with no STALL has them, is tried as a vector order first. Longer
words are copy entries. DESIGN CHOICE (log 7). -/
def decodeTableWord (nbits w : Nat) : Option Instr :=
  let v : Word32 := BitVec.ofNat 32 w
  if nbits = 0 then none
  else if 32 < nbits then
    match decodeEntry (leBytes 64 w) with
    | .ok i => some i
    | .error _ => none
  else if v.extractLsb' 28 4 = 0 then firstKind v [.vector, .control, .slotX, .slotY, .temporal]
  else firstKind v [.control, .slotX, .slotY, .vector, .temporal]

end Sys2Proof
end

