-- ==== Sys2Proof/Machine/State.lean ====
section
/-! DEFINITION. The state of a pod of SK4 modules as plain data, the reasons a step can stop, and the state after
module reset. INVENTORY.md lists every field with the rule that names it and its reset value. -/

namespace Sys2Proof.Machine

/-! ## Clusters -/

/-- A cluster register as the interlock of R112 names it. -/
inductive RegRef where
  | g (n : Nat) | p (n : Nat) | c (n : Nat)
  deriving DecidableEq, Repr

/-- An entry of the hardware loop nest LOOPST (R16, R127), innermost first in the cluster's list.
`initial`, `inst`, `began`, `kill` and `last` carry what R128, R131 and R132 attach to an entry; `group` says that it is a
group loop (R129). -/
structure LoopEntry where
  remaining : Word
  initial   : Word
  start     : Word
  stop      : Word
  id        : Word
  inst      : Nat
  pre       : Bool
  began     : Nat
  /-- iteration index of a kill marker in force -/
  kill      : Option Nat
  /-- the entry ends at its next end bundle -/
  last      : Bool := false
  group     : Bool := false
  deriving DecidableEq, Repr

/-- A ring FIFO (R17): values with the warm cycle of their push, and the pops of the current warm cycle (R86). -/
structure Fifo where
  items   : List (Nat × Word) := []
  popWarm : Nat := 0
  pops    : Nat := 0
  deriving DecidableEq, Repr

/-- What a cluster that stands at a waiting word has begun (R112, R283). -/
inductive Wait where
  | none
  /-- the word awaits the operations issued up to this warm cycle (xwait, fence, bar before arrival) -/
  | since (warm : Nat)
  /-- a fence begun in this warm cycle, with its queue mask (R286) -/
  | fencing (warm mask : Nat)
  /-- the word awaits its own queue entry of this number (tsync, shpld) -/
  | entry (seq : Nat)
  /-- the word's queue entry has been performed -/
  | performed
  /-- the record a shpld's queue entry has read, which the word is to install -/
  | loaded (r : BitVec 1024)
  /-- the word's queue entry met this trap cause (shpld: SHAPE or MEMERR) -/
  | failed (cause : Nat) (addr : Word)
  /-- bar after arrival -/
  | arrived
  /-- bar at departure, with the value for gD -/
  | departed (v : Word)
  /-- bar whose participants disagree on the vote (R284) -/
  | voteFault
  /-- wfi not yet woken, and wfi woken, with the warm cycle it began in (R156) -/
  | asleep (warm : Nat)
  | awake (warm : Nat)
  deriving DecidableEq, Repr

/-- One cluster (R16). -/
structure Cluster where
  pc      : Word := 0
  g       : Sp Word := []
  p       : Sp Bool := []
  c       : Sp Word32 := []
  split   : Bool := false
  atJoin  : Bool := false
  joinId  : BitVec 8 := 0
  loops   : List LoopEntry := []
  /-- registers an earlier word will still write, with the warm cycle they are ready, if known (R112, R114) -/
  busy    : List (RegRef × Option Nat) := []
  /-- warm cycle since which the cluster has waited at issue (R113) -/
  since   : Option Nat := none
  wait    : Wait := .none
  /-- the cluster's word of the current bundle has been performed (R74) -/
  done    : Bool := false
  /-- target of the transfer that word took, and its SYNC bit (R75, R76) -/
  xfer    : Option Word := none
  sync    : Bool := true
  /-- first warm cycle in which the cluster may issue again (R115) -/
  readyAt : Nat := 0
  /-- stands at a word a pending pre-emption does not let it issue, or has halted (R155, R399) -/
  stopped : Bool := false
  deriving DecidableEq, Repr

/-! ## Queues -/

/-- A queue entry's operation with the register values read at issue. -/
inductive QOp where
  | load (h : Word) (sz : BitVec 3) (lane : Lane) (d : Nat)
  | store (h : Word) (bytes : Nat) (v : Word)
  | marker (id : Nat)
  | cmaint (fn : Nat) (base len : Word) (id : Nat)
  | crossing (seq : Nat)
  | xget (code : Nat) (lane : Lane) (d : Nat)
  | cptail (h : Word)
  | atom (id d : Nat)
  | shpld (n : Nat) (h : Word)
  | shpst (h : Word) (record : BitVec 1024)
  | xput (code : Nat) (v : Word)
  | tstart (e : EngineId) (stamp : Nat)
  | tstartEv (e : EngineId) (term : Nat)
  | tstop (e : EngineId)
  | tbase (e : EngineId) (base : Nat)
  | tsync (e : EngineId)
  | tload (e : EngineId) (img : Word) (first count : Nat) (hi : Bool)
  deriving DecidableEq, Repr

/-- An entry of the load, store or engine command queue (R19, R131, R138). -/
structure QEntry where
  seq    : Nat
  lane   : Lane
  warm   : Nat
  word   : Word
  tags   : List (Nat × Nat)
  killed : Bool
  /-- heat window in which the entry failed its test (R427) -/
  held   : Option Nat
  /-- 0 placed by the task, 1 by its handler, 2 by the nested handler (R385, R392) -/
  level  : Nat
  op     : QOp
  /-- the joined group issued it (R184) -/
  joined : Bool := true
  deriving DecidableEq, Repr

/-- A line of the L1 data cache (R328): physical line number, bytes, byte mask, time of last use. -/
structure Line where
  addr : Nat
  data : BitVec 512
  mask : BitVec 64
  used : Nat
  deriving DecidableEq, Repr

/-- A load whose line has been read and whose value has not yet been written to gD (R137). -/
structure Returning where
  lane  : Lane
  d     : Nat
  value : Word
  due   : Nat
  word  : Word
  level : Nat
  seq   : Nat
  deriving DecidableEq, Repr

/-! ## Crossings, strings, tokens, barriers, atoms -/

/-- How a footprint row crosses (R229): bytes move, with this tag and invalid bit, or the row is ragged-invalid. -/
structure RowPlan where
  admitted : Bool
  invalid  : Bool
  tag      : BitVec 8
  deriving DecidableEq, Repr

/-- An outstanding crossing (R162 to R181). -/
structure Crossing where
  seq      : Nat
  level    : Nat
  kind     : BitVec 2
  warm     : Nat
  stamp    : Nat
  shape    : BitVec 1024
  coord    : List Int
  cold     : Word
  mode     : BitVec 2
  rows     : List RowPlan
  recv     : BitVec 4
  staged   : List (List Byte)
  charge   : Nat
  admitted : Bool := false
  due      : Option Nat := none
  /-- captured bytes by twice their memory key, plus 1 where only the low nibble is carried (R166, R171) -/
  captured : Option (List (Nat × Byte)) := none
  linkEnd  : Nat := 0
  /-- clock at which a free part of an xin's granules is in place ahead of its due stamp (R170) -/
  early    : Option Nat := none
  /-- the joined group issued it (R184) -/
  joined   : Bool := true
  /-- the uncorrectable line its word met in its table, codebook image or a block at issue (R338) -/
  lost     : Option Nat := none
  /-- what an xin puts in place, as read when the first part of it was (R170), by row -/
  fetched  : Option (List (Nat × List (Nat × Byte × Bool))) := none
  /-- receivers by core in quad that stood ready when a part of an xin's granules reached them (R177) -/
  reached  : BitVec 4 := 0
  /-- what a later write keeps from this crossing: core × 2^19 + cold byte for an xin (R200), a memory key for an xout (R175) -/
  stays    : List Nat := []
  deriving DecidableEq, Repr

/-- Status gathered on an access path since the last xwait on it (R184). -/
structure PathStat where
  err : Bool := false
  can : Bool := false
  rx  : BitVec 4 := 0
  deriving DecidableEq, Repr

/-- A copy entry the engine has taken and not yet counted (R314, R316). -/
structure Taken where
  no     : Nat
  h      : Word
  cmd    : Instr
  warm   : Nat
  due    : Nat
  /-- dim table of a copys: COUNT, FSTR, TSTR (R319) -/
  dims   : List (Nat × Int × Int) := []
  /-- receiver handles of a bcast (R318) -/
  dests  : List Word := []
  done   : Bool := false
  /-- retired as a no-op by a kill marker, and the loop tags of its `cptail` (R131) -/
  killed : Bool := false
  tags   : List (Nat × Nat) := []
  /-- it has begun writing: the bytes it writes by key, and its staged source (R316, R318), and the doublewords already in place -/
  begun  : Option (List (Nat × Byte) × List Byte) := none
  put    : List Nat := []
  /-- take number of the last halt before it was taken (R100) -/
  base   : Nat := 0
  /-- staged byte and bit an injection inverts (R421) -/
  flip   : Option (Nat × Nat) := none
  stat   : BitVec 7 := 0
  res    : Option (BitVec 32) := none
  deriving DecidableEq, Repr

/-- A wait on the string (R184): the word's cluster, the warm cycle it began in, TAIL of the entries it awaits, and the take
number of that entry once it has been taken. -/
structure Watch where
  lane  : Lane
  since : Nat
  tail  : Word
  no    : Option Nat
  deriving DecidableEq, Repr

/-- What one performed `cptail` made available (R131, R312): its handle, the loop tags of its entries, and whether a kill marker
retires those not yet taken. -/
structure Put where
  tail   : Word
  tags   : List (Nat × Nat)
  killed : Bool
  deriving DecidableEq, Repr

/-- The copy string of a core (R311). -/
structure Str where
  head   : Word := 0
  hset   : Bool := false
  tail   : Word := 0
  avail  : Bool := false
  seq    : Word := 0
  carry  : BitVec 32 := 0
  halt   : Bool := false
  stat   : BitVec 7 := 0
  taken  : List Taken := []
  /-- entries taken so far, for the order of takes -/
  takes  : Nat := 0
  /-- take number of the last halt, and the take number of the entry CARRY comes from (R100, R322) -/
  haltNo : Nat := 0
  carryNo : Nat := 0
  /-- result and take number of the checksum-computing entry counted last (R100) -/
  sum    : BitVec 32 := 0
  sumNo  : Nat := 0
  /-- the handles still to be taken, by the `cptail` that made them available -/
  puts   : List Put := []
  /-- regions already translated for the entry about to be taken (R332) -/
  seen   : List Nat := []
  /-- handles taken since the last halt, or still running from before it, latest first, with their take numbers -/
  past   : List (Word × Nat) := []
  /-- held cancels: the entry named, and TAIL at the xcancel (R323) -/
  cancel : List (Word × Word) := []
  /-- words that wait for entries (R184) -/
  watch  : List Watch := []
  deriving DecidableEq, Repr

/-- An `own` word in flight (R274): what it does to which span, for whom. -/
structure Send where
  fn    : Nat
  head  : Nat
  base  : Word
  units : Nat
  arg   : Word
  d     : Nat
  warm  : Nat
  level : Nat
  /-- TAIL at issue, until the string has taken that entry: entries up to it are earlier than the send -/
  tail  : Option Word := none
  due   : Option Nat := none
  /-- take number of the last string entry that is earlier than the send -/
  upTo  : Nat := 0
  deriving DecidableEq, Repr

/-- An atom in flight (R287 to R290). -/
structure Atom where
  id      : Nat
  fn      : Nat
  addr    : Word
  op      : Word32
  d       : Nat
  warm    : Nat
  level   : Nat
  seq     : Nat
  applyAt : Option Nat := none
  old     : Option Word32 := none
  backAt  : Nat := 0
  /-- the joined group issued it (R184) -/
  joined  : Bool := true
  deriving DecidableEq, Repr

/-- A drain on its way to the ring neighbour (R215). -/
structure Drain where
  at_   : Nat
  warm  : Nat
  dst   : Nat
  words : Sp Word32
  chkv  : Bool
  clamp : Option Word32
  step  : Nat
  iter  : Nat
  rpl   : Bool
  deriving DecidableEq, Repr

/-- The barrier a core waits at (R283). -/
structure BarWait where
  scope : Nat
  inst  : Nat
  vote  : Nat
  value : Word
  mask  : BitVec 4
  deriving DecidableEq, Repr

/-! ## The cold side -/

/-- A loop of an engine's nest (R220, R256): first and last body step, iteration, count. -/
structure ELoop where
  first : Nat
  last  : Nat
  iter  : Nat
  count : Nat
  pre   : Bool
  began : Nat
  deriving DecidableEq, Repr

/-- The replay marker of the matrix engine (R219): step, loop nest, mask selection, SCNT. -/
structure Mark where
  step  : Nat
  loops : List ELoop
  msel  : Nat
  scnt  : Nat
  deriving DecidableEq, Repr

/-- One cold engine's sequencer (R25, R141 to R147). -/
structure Engine where
  base   : Nat := 0
  first  : Nat := 0
  step   : Nat := 0
  run    : Bool := false
  fill   : Nat := 0
  skip   : Nat := 0
  loops  : List ELoop := []
  /-- each start performed whose table has not begun: its stamp, the clock at which it reaches the engine, its word -/
  start  : List (Nat × Nat × Word) := []
  /-- armed event term, its descriptor (R143, R149) and the word that armed it -/
  armed  : Option (Nat × Word × Word) := none
  armAt  : Nat := 0
  /-- a table has ended whose idle pulse is due (R148) -/
  pulse  : Bool := false
  stop   : Bool := false
  flt    : Bool := false
  mark   : Option Mark := none
  /-- one more than the clock of the last cold cycle in which it issued an order or a filler; at a cut, whether it had already
  done so in the cut's cycle (R387) -/
  last   : Nat := 0
  acted  : Bool := false
  /-- its table started while the matrix engine was idle and has not issued its first step (R407) -/
  opens  : Bool := false
  /-- tables begun so far -/
  tables : Nat := 0
  deriving DecidableEq, Repr

/-- Row and column tags and the CHKV and INT bits of an accumulator tile (R195). -/
structure Tile where
  rt   : BitVec 128 := 0
  ct   : BitVec 128 := 0
  chkv : Bool := true
  int  : Bool := false
  deriving DecidableEq, Repr

/-- A mask triple (R196). -/
structure MaskTriple where
  row : BitVec 16 := 0xFFFF
  col : BitVec 16 := 0xFFFF
  dep : BitVec 64 := 0xFFFFFFFFFFFFFFFF
  deriving DecidableEq, Repr

/-- Cold state an order reads or writes, as the scoreboards name it (R199, R244, R307). -/
inductive Res where
  | mreg (n : Nat) | acc (t : Nat) | gran (g : Nat) | chk | cbt | sel | mq (n : Nat) | flag (n : Nat)
  | vreg (n : Nat) | neighbour (t : Nat) | dly | tmode | twin
  deriving DecidableEq, Repr

/-- The effect of an order's write when it lands (R198, R243, R298). -/
inductive LandOp where
  | mreg (n : Nat) (rows : List (BitVec 256)) (side : List (BitVec 9))
  | acc (t : Nat) (words : List (Nat × Word32)) (info : Tile) (flip : Bool)
  /-- words of a tile and, for an `mlda`, the row tags it writes: CT, CHKV and INT become 0 (R213, R218) -/
  | accPart (t : Nat) (words : List (Nat × Word32)) (rt : Option (List (Nat × Byte)))
  /-- bytes by physical place; granules that receive one: INV becomes 0 and TAG the one given, if any -/
  | cold (bytes : List (Nat × Byte)) (side : List (Nat × Option (BitVec 8)))
  /-- words of the check record, and bits set in word 0 -/
  | chk (words : List (Nat × Word32)) (set : Word32)
  | cbt (first : Nat) (words : List Word32)
  | sel (n : Nat) (load : Option MaskTriple)
  | flag (n : Nat) (v : Word32)
  | vreg (d : Nat) (lanes : List (Nat × Word32))
  | vstacc (t : Nat) (add : Bool) (words : List (Nat × Word32))
  /-- the mask stack and its depth (R238) -/
  | mask (stk : Sp (BitVec 64)) (depth : Nat)
  | param (code : Nat) (v : Word)
  | dly (rows : List (Nat × List Byte))
  | tmode (m : BitVec 64)
  | twin (w : Nat)
  | latches
  deriving DecidableEq, Repr

/-- A write issued and not yet landed. -/
structure Landing where
  at_    : Nat
  issued : Nat
  eng    : EngineId
  chain  : Nat
  writes : List Res
  op     : LandOp
  /-- the overflow event entered as the order writes its result (R56) -/
  event  : Option Word := none
  deriving DecidableEq, Repr

/-- An evaluation of the temporal array in progress (R297, R305): the outputs of each pass and when they land. -/
structure Eval where
  busyTo : Nat
  outs   : List (Nat × List Byte)
  deriving DecidableEq, Repr

/-- The cold state of a core (R25). -/
structure Cold where
  store  : Sp Byte := []
  side   : Sp (BitVec 9) := []
  /-- by granule, the context of another core that last wrote it, as `owners` names it: 0 the core's own task (R337) -/
  writers : Sp Nat := []
  m      : Sp (BitVec 256) := []
  mside  : Sp (BitVec 9) := []
  mq     : Sp MaskTriple := []
  msel   : Nat := 0
  acc    : Sp Word32 := []
  tile   : Sp Tile := []
  v      : Sp Word32 := []
  mstk   : Sp (BitVec 64) := []
  mdepth : Nat := 0
  lfsr   : Sp Word32 := []
  cbt    : Sp Word32 := []
  ms     : Sp Word := []
  vs     : Sp Word32 := []
  ts     : Sp Word32 := []
  dly    : Sp Byte := []
  tmode  : BitVec 64 := 0
  twin   : Nat := 254
  tin    : Sp Byte := []
  tout   : Sp Byte := []
  eval   : Option Eval := none
  omat   : Sp Word := []
  ovec   : Sp Word32 := []
  otmp   : Sp Word32 := []
  endMat : Sp Bool := []
  endVec : Sp Bool := []
  endTmp : Sp Bool := []
  mat    : Engine := {}
  vec    : Engine := {}
  tmp    : Engine := {}
  ev     : Sp (BitVec 16) := []
  term   : Sp Word := []
  chk    : Sp Word32 := []
  flag   : Sp Word32 := []
  pend   : List Landing := []
  deriving DecidableEq, Repr

/-! ## The slot table, replay and the core -/

/-- STATE of a bind record (R368). -/
inductive SlotState where
  | empty | bound | running | saved | ended
  deriving DecidableEq, Repr

/-- A mirror write unacknowledged (R417): when its operation was issued, when it was written, and the partner package; whether the
joined group issued the operation (R184), and the string entry that made the write (R318). -/
structure MirrorWait where
  issued : Nat
  warm   : Nat
  pkg    : Nat
  joined : Bool := true
  entry  : Option Nat := none
  deriving DecidableEq, Repr

/-- What stays with a context through a save and a restore besides the layout of R401: registers that layout does not
list, the status `xwait` and `xcancel` still owe (R184, R186, R323), and the queue counts of R388. DESIGN CHOICE (log 18). -/
structure Kept where
  tvec    : Word := 0
  chksb   : Word := 0
  stallim : Word := 200000
  paths   : Sp PathStat := []
  xcan    : List Nat := []
  xkinds  : Sp (BitVec 2) := []
  takes   : Nat := 0
  past    : List (Word × Nat) := []
  haltNo  : Nat := 0
  carryNo : Nat := 0
  sum     : BitVec 32 := 0
  sumNo   : Nat := 0
  puts    : List Put := []
  barGot  : Option (Nat × Nat × Word) := none
  lq      : Nat := 0
  sq      : Nat := 0
  eq      : Nat := 0
  /-- a budget written in the heat window of the save, and that window's number (R430) -/
  heatSet : Nat := 48000000
  heatNext : Option (Nat × Nat) := none
  /-- mirror writes not yet acknowledged (R417, R418) -/
  mirror  : List MirrorWait := []
  deriving DecidableEq, Repr

/-- A bind record (R368) with the 16 KiB of shadow storage of its context slot (R336, R389, R401). -/
structure Slot where
  state   : SlotState := .empty
  part    : Nat := 0
  launch  : Nat := 0
  lid     : BitVec 32 := 0
  prio    : BitVec 4 := 0
  coreId  : BitVec 8 := 0
  quadId  : BitVec 8 := 0
  dieId   : BitVec 8 := 0
  atiles  : BitVec 8 := 0
  ncores  : BitVec 16 := 0
  cquota  : BitVec 32 := 0
  osquota : Word := 0
  code    : Word := 0
  arg     : Word := 0
  taskId  : BitVec 32 := 0
  gcount  : BitVec 32 := 0
  rsttab  : Word := 0
  start   : BitVec 32 := 0
  graph   : BitVec 32 := 0
  node    : BitVec 32 := 0
  payload : Word := 0
  /-- the CRC found in a record whose CRC does not hold (R369, R411) -/
  badCrc  : Option (BitVec 32) := none
  /-- the second record of a launch with SLOTS 2 (R368) -/
  copy    : Bool := false
  /-- SCNT of the die from which START counts (R363, R375) -/
  origin  : Nat := 0
  /-- clock from which its first fetch may take place (R369) -/
  ready   : Nat := 0
  kept    : Kept := {}
  area    : List Host.Cell := []
  deriving DecidableEq, Repr

/-- An entry a replay window retains (R407): the value a load or `xget` returned, or the stamp of a crossing or `tstart`. -/
structure Retained where
  queue : QueueId
  seq   : Nat
  value : Option Word
  deriving DecidableEq, Repr

/-- An open replay window: the checkpoint (R407), what it retains, and where the engines stood (R409). -/
structure Window where
  clusters : List Cluster
  tok      : Sp Fifo
  port     : Sp Fifo
  lqAt     : Nat
  sqAt     : Nat
  eqAt     : Nat
  xseqAt   : Nat
  retained : List Retained := []
  /-- results of words that enter no queue, in order: lane, gD, the value once written -/
  results  : List (Lane × Nat × Option Word) := []
  opener   : EngineId
  mark     : Mark
  clock    : Nat
  /-- the engines as they stood at the opening: matrix, vector, temporal -/
  engs     : List Engine
  /-- an `mtile` opened it; after a replay, that `mtile` has yet to issue again -/
  tile     : Bool := false
  again    : Bool := false
  /-- engine and starting SCNT of each armed term that has fired since the opening -/
  fires    : List (Nat × Nat) := []
  /-- it has been replayed: its orders' events carry RPL (R55, R56) -/
  replayed : Bool := false
  tiles    : List Nat := []
  drains   : Nat := 0
  pulses   : List Nat := []
  /-- the engine command queue at the opening (R407), and by lane the words compared at issue that were performed since -/
  eqHeld   : List QEntry := []
  words    : Sp Nat := []
  /-- the shift H of its last replay (R409) -/
  shifted  : Nat := 0
  /-- closed while a replay of it still runs, which goes on with what it retains -/
  shut     : Bool := false
  deriving DecidableEq, Repr

/-- A replay run under way (R409): the last performed entry of each queue, the shift H, the entry it started at, and by lane the compared
words it has to pass. -/
structure Replay where
  lqTo    : Nat
  sqTo    : Nat
  eqTo    : Nat
  shift   : Nat
  stopAt  : Option (QueueId × Nat)
  words   : Sp Nat
  deriving DecidableEq, Repr

/-- What was done before a replay and is not repeated (R409): results of words that enter no queue, drains, pulses, and the starts that
terms fired, by engine. -/
structure Owed where
  results : List (Lane × Nat × Option Word) := []
  drains  : Nat := 0
  pulses  : List Nat := []
  fires   : List (Nat × Nat) := []
  deriving DecidableEq, Repr

/-- A control core with its warm state, its system registers and its cold side. -/
structure Core where
  slot0   : Slot := {}
  slot1   : Slot := {}
  run     : Option (BitVec 1) := none
  /-- clocks at which the cold store is clear for the next task, and at which the last swap is through (R335, R369, R379) -/
  clearAt : Nat := 0
  swapAt  : Nat := 0
  /-- trap record slots 0 and 1 (R336, R388) -/
  recs    : List Host.Cell := []
  /-- partition and launch it is reserved to (R366) -/
  reserved : Option (Nat × Nat) := none
  failed  : Bool := false
  l       : Cluster := {}
  e       : Cluster := {}
  s       : Cluster := {}
  k       : Cluster := {}
  tok     : Sp Fifo := []
  port    : Sp Fifo := []
  loopNo  : Nat := 0
  l1d     : List Line := []
  l1i     : List (Nat × BitVec 512) := []
  lq      : List QEntry := []
  sq      : List QEntry := []
  eq      : List QEntry := []
  lqIssued : Nat := 0
  sqIssued : Nat := 0
  eqIssued : Nat := 0
  lqDone  : Nat := 0
  sqDone  : Nat := 0
  eqDone  : Nat := 0
  lqWarm  : Option Nat := none
  sqWarm  : Option Nat := none
  eqWarm  : Option Nat := none
  markNo  : Nat := 0
  back    : List Returning := []
  tlb     : List Nat := []
  str     : Str := {}
  shp     : Sp (BitVec 1024) := []
  shpBusy : List (Nat × Nat) := []
  xings   : List Crossing := []
  xseq    : Nat := 0
  xcan    : List Nat := []
  xkinds  : Sp (BitVec 2) := []
  paths   : Sp PathStat := []
  oeq     : List Word := []
  oeqLost : Bool := false
  oeqFreed : Nat × Nat := (0, 0)
  /-- one more than the clock of the last vector entry, and the vector entries of that cold cycle (R56) -/
  oeqNow  : Nat × Nat := (0, 0)
  bcache  : List (Word × BitVec 16 × List Nat) := []
  shares  : List Nat := []
  sends   : List Send := []
  atoms   : List Atom := []
  atomNo  : Nat := 0
  drains  : List Drain := []
  barCount : Sp Nat := []
  bar     : Option BarWait := none
  /-- scope, instance and gD of a barrier that has completed and that the core has yet to depart from (R283) -/
  barGot  : Option (Nat × Nat × Word) := none
  mirror  : List MirrorWait := []
  heatAcc : Nat := 0
  /-- charges posted in this warm cycle, and those of entries admitted in it (R427) -/
  heatNow : Nat := 0
  heatAdm : Nat := 0
  heatBud : Nat := 48000000
  /-- the budget last written that has come into force, before the package budget cuts it (R430, R431) -/
  heatSet : Nat := 48000000
  heatNext : Option Nat := none
  heatCeil : Nat := 48000000
  stallCnt : Word := 0
  mcmask  : Word := 0
  chksb   : Word := 0
  stallim : Word := 200000
  rstlbl  : Word := 0
  rstidx  : Word := 0
  tvec    : Word := 0
  tscratch : Word := 0
  inj     : Word := 0
  wselCold : Word := 0
  /-- `swr` writes that take effect from the next warm cycle (R151): index, value, warm cycle of issue -/
  sysNext : List (Nat × Word × Nat) := []
  inHandler : Bool := false
  tacked  : Bool := false
  nested  : Bool := false
  accLost : Bool := false
  emulate : Bool := false
  substAt : Option Word := none
  cutAt   : Nat := 0
  /-- SCNT at the cut of the handler (R392), and whether the nested handler has entered an engine command -/
  cutNest : Nat := 0
  accHere : Bool := false
  /-- the clusters as they stood at the cut, by lane, the nested cut's at 4 to 7: what the save areas of R389 do not hold -/
  saved : Sp Cluster := []
  halting : Bool := false
  /-- levels of interrupted code whose `halt` had begun its drain (R155) -/
  haltAt : List Nat := []
  /-- levels of code whose `tret` has been performed and has not yet taken effect (R154) -/
  returning : List Nat := []
  /-- traps fixed but taken at the start of a warm cycle (ecall, R153): level, TCAUSE, the word's handle -/
  trapNext : List (Nat × Nat × Word) := []
  preempt : Option Nat := none
  /-- the request came while a handler or a replay ran, and waits for its end (R395, R410) -/
  late    : Bool := false
  rotReq  : Bool := false
  drained : Bool := false
  win     : Option Window := none
  replay  : Option Replay := none
  owed    : Owed := {}
  /-- cold granules, accumulator words (tile × 512 + word), order-store entries (engine × 4096 + index) and L1 data lines
  with an uncorrectable error (R336, R338) -/
  badGran : List Nat := []
  badAcc  : List Nat := []
  badOrd  : List Nat := []
  badL1   : List Nat := []
  /-- the clusters at the starts of the last six warm cycles, latest first: the shadow core's are the oldest (R404) -/
  trail   : List (List Cluster) := []
  cold    : Cold := {}
  deriving DecidableEq, Repr

/-! ## Dies, packages, partitions -/

/-- An error bank (R413, R414). -/
structure ErrBank where
  record  : Option MemError := none
  margin  : Bool := false
  ovf     : Bool := false
  stamp   : BitVec 32 := 0
  ueCount : Nat := 0
  ceCount : Nat := 0
  deriving DecidableEq, Repr

/-- A die pair (R5): its schedule counter, walker, bank and rails (R448 to R456). Voltages in millivolts. -/
structure Die where
  base    : Nat := 0
  frozen  : Nat := 0
  stallAt : Option Nat := none
  stalled : Bool := false
  /-- region walks outstanding: who asked (a core, or a quad's copy engine), the region, the clock of the answer -/
  walks   : List (Nat × Nat × Nat) := []
  /-- by quad: the translation cache of its copy engine (R332), and the core whose string it looks at next (R314) -/
  ctlb    : Sp (List Nat) := []
  turns   : Sp Nat := []
  bank    : ErrBank := {}
  vs      : Nat := 780
  ceset   : Nat := 64
  cecur   : Nat := 64
  /-- CESET has been written since the last 10 ms step -/
  cenew   : Bool := false
  /-- clock at which the back-off hold ends (R453) -/
  hold    : Nat := 0
  merr    : Nat := 0
  /-- corrected errors in warm SRAM since the last 10 ms step (R452) -/
  sram    : Nat := 0
  raiseAt : Option Nat := none
  /-- clock of the last margin error, or doubling of CECUR since -/
  calm    : Nat := 0
  vq      : Sp Nat := []
  str     : Sp Nat := []
  hops    : Sp Nat := []
  /-- clock at which a quad's droop stretch began, and whether its set point has been raised for it -/
  droop   : Sp (Option (Nat × Bool)) := []
  hopTo   : Sp Nat := []
  /-- partitions whose ring on the die is draining for a rotation (R456) -/
  rotating : List Nat := []
  deriving DecidableEq, Repr

/-- Where bring-up stands (R460). -/
structure Boot where
  step     : Nat := 0
  code     : Nat := 0
  released : Bool := false
  /-- start of step 4, and the ports that come up at step 5 -/
  since    : Nat := 0
  ports    : BitVec 72 := 0
  /-- what step 6 writes, and the host entry handle of step 7 -/
  tables   : BootTables := {}
  entry    : Word := 0
  deriving DecidableEq, Repr

/-- What the management cores of a package have been interrupted for: an error logged in bank `b`, 0 to 3 the dies' and 4 the I/O die's
(R414); a double fault of a core (R393); a mirror write of a core unacknowledged in time (R418). -/
inductive Notice where
  | bank (b : BitVec 3) (source : BitVec 4)
  | doubleFault (core : BitVec 8)
  | mirror (core : BitVec 8)
  deriving DecidableEq, Repr

/-- A package and its I/O die. -/
structure Pkg where
  boot     : Boot := {}
  /-- both copies of the configuration record in flash, and the package number of the one in use (R461) -/
  flash    : BitVec 512 × BitVec 512 := (0, 0)
  number   : BitVec 16 := 0
  grade    : BitVec 8 := 0
  enable   : BitVec 256 := 0
  links    : BitVec 72 := 0
  portsDown : BitVec 72 := 0
  failed   : Bool := false
  memprot  : BitVec 6 := 0
  memUp    : BitVec 3 := 0
  keys     : Sp (Option (BitVec 512)) := []
  /-- WSEL of the windows only the management cores hold (R34): error banks, slot table, token table, region table -/
  wselBank : Word := 0
  wselSlot : Word := 0
  wselToken : Word := 0
  wselRegion : Word := 0
  arms     : Sp (BitVec 256) := []
  armQueue : Sp (Nat × Nat) := []
  bank     : ErrBank := {}
  /-- interrupts to the management cores, oldest first -/
  notices  : List Notice := []
  rebuild  : List Nat := []
  classify : Sp (BitVec 96) := []
  hostRx   : List (List Byte) := []
  msgq     : Option (Nat × Word) := none
  /-- messages taken and not yet matched at their destination: clock of arrival, DPKG, TAG, payload -/
  outbox   : List (Nat × BitVec 10 × BitVec 16 × List Byte) := []
  t4       : Nat := 0
  t50      : Nat := 0
  lift     : Nat := 0
  posted   : Nat := 0
  excess   : Nat := 0
  ceilZero : Bool := false
  hot      : Bool := false
  hotAt    : Nat := 0
  deriving DecidableEq, Repr

/-- The meaning of a span's MODE (R269). -/
inductive TokMode where
  | excl | sharedIssue | engine | parked
  deriving DecidableEq, Repr

/-- A token table entry (R269). `hgroup` and `lgroup` name the launch whose logical cores HCORE and LCORE are. -/
structure Token where
  head   : Nat := 0
  units  : Nat := 0
  isHead : Bool := false
  taint  : Bool := false
  mode   : TokMode := .parked
  region : Nat := 0
  hpkg   : Nat := 0
  hcore  : Nat := 0
  hgroup : Nat := 0
  lpkg   : Nat := 0
  lcore  : Nat := 0
  lgroup : Nat := 0
  lvalid : Bool := false
  shares : Nat := 0
  gen    : BitVec 16 := 0
  deriving DecidableEq, Repr

/-- How a launch stands. -/
inductive LaunchState where
  /-- waits for cores; bound; a replay record whose nodes have not all ended -/
  | waiting | bound | replaying
  deriving DecidableEq, Repr

/-- A launch taken by the management cores (R363 to R376). `status` is a STATUS of R362. -/
structure Launch where
  id      : Nat
  queue   : Nat
  pkg     : Nat
  record  : BitVec 1024
  /-- value for `g1`, and for `g4` -/
  args    : Word
  payload : Word
  /-- launch arm entry that submitted it (R373) -/
  arm     : Option (Nat × Nat) := none
  state   : LaunchState := .waiting
  /-- spans of its grant list, read at admission, with their tasks (R364) -/
  grants  : List (Nat × Nat) := []
  /-- a bind record of it was dropped for its CRC (R369) -/
  lost    : Bool := false
  /-- cores granted -/
  ngrant  : Nat := 0
  status  : BitVec 8 := 0
  cause   : BitVec 16 := 0
  /-- replay number of a graph node, the launch of its replay record, and O_d of each die (R374, R375) -/
  replay  : Nat := 0
  top     : Option Nat := none
  origin  : List Nat := []
  /-- a graph node whose predecessors have not been checked yet (R375) -/
  held    : Bool := false
  deriving DecidableEq, Repr

/-- A node of a task graph (R374, R375): its record, NSEQ, and each replay it has ended with its STATUS. -/
structure GraphNode where
  pkg    : Nat
  graph  : BitVec 32
  node   : BitVec 32
  record : BitVec 1024
  nseq   : Nat := 0
  ends   : List (Nat × BitVec 8) := []
  deriving DecidableEq, Repr

/-- A registered launch queue (R361). -/
structure LaunchQueue where
  h       : Word
  pkg     : Nat
  stopped : Bool
  deriving DecidableEq, Repr

/-- A partition: its region and token tables, queues, launches, graphs and kernels. -/
structure Part where
  regions  : Sp (BitVec 512) := []
  tokens   : Sp Token := []
  debug    : Bool := false
  prioCeil : Nat := 15
  queues   : Sp LaunchQueue := []
  launches : List Launch := []
  launchNo : Nat := 0
  nodes    : List GraphNode := []
  /-- replays started, by package and graph -/
  replays  : List (Nat × BitVec 32 × Nat) := []
  kernels  : List KernelImage := []
  /-- physical cores of the partition, by package; a package not listed gives every core -/
  cores    : Sp (BitVec 256) := []
  /-- entries written whose shootdown has not completed (R333) -/
  shoots   : List (Nat × BitVec 512) := []
  deriving DecidableEq, Repr

/-! ## The whole -/

/-- What an action of the agenda does on its core. -/
inductive What where
  /-- the joined group of the core, or the split cluster named, issues (R74, R75) -/
  | issue (c : Lane) (group : Bool)
  /-- results that are due land (R198) -/
  | land
  /-- the engine's next step, or its filler (R90, R141) -/
  | order (e : EngineId)
  /-- the copy engine takes the string's next entry (R314) -/
  | take
  /-- writes come to their homes ahead of the last moment the rules give (R360) -/
  | ahead
  /-- a step of the opcode table that no word encodes -/
  | event (i : Instr)
  deriving DecidableEq, Repr

/-- One action waiting at the present instant: the core it runs on and what it does. -/
structure Action where
  core : Nat
  what : What
  deriving DecidableEq, Repr

/-- The state of the pod. Cores are keyed by package * 256 + PHYS_ID, dies by package * 4 + die. -/
structure State where
  clock  : Nat
  cur    : Nat
  lane   : Lane
  agenda : List Action
  /-- steps the outside world will cause, one a warm cycle: the core key they name, and the step -/
  inputs : List (Nat × Instr)
  drawn  : Nat
  mem    : List Host.Cell
  /-- lines with an uncorrectable error in HBM4E, and in a die cache (R338) -/
  bad    : List Nat
  badDc  : List Nat
  /-- by line, the context that last wrote it: 1 + 2 × core + context slot, 0 the management cores and the loader (R337) -/
  owners : Sp Nat
  cores  : Sp Core
  dies   : Sp Die
  pkgs   : Sp Pkg
  parts  : Sp Part
  deriving DecidableEq, Repr

/-- The state right after module reset of every package (R39): nothing is bound, no table holds an entry, no time has
passed. DESIGN CHOICE: the values no rule gives are named in logs 1 to 5. -/
def State.reset : State where
  clock := 0
  cur := 0
  lane := .L
  agenda := []
  inputs := []
  drawn := 0
  mem := []
  bad := []
  badDc := []
  owners := []
  cores := []
  dies := []
  pkgs := []
  parts := []

/-- The fields of a valid region table entry (R330). -/
structure Region where
  base   : Nat
  size   : Nat
  pkg    : Nat
  rw     : Bool
  pinned : Bool
  mirror : Bool
  keyen  : Bool
  key    : Nat
  token  : Nat
  mbase  : Nat
  deriving DecidableEq, Repr

/-- Where a byte a handle names lies: at the home, under this memory key, or in the core's trap area (R331, R389). -/
inductive Place where
  | home (region key : Nat)
  | area (off : Nat)
  deriving DecidableEq, Repr

/-- A check at issue (R136): passed, waiting for a region walk (R332), or a trap by its code and TADDR. -/
inductive Check (α : Type) where
  | pass (a : α)
  | walk (region : Nat)
  | trap (code : Nat) (addr : Word)

/-- What becomes of a word whose registers, tokens and room are there (R112): it is performed; performed with a taken
transfer; it starts a wait; it cannot issue yet; it raises a trap (R158). -/
inductive Perform where
  | done (s : State)
  | jump (s : State) (target : Word)
  | start (s : State) (w : Wait)
  | hold (s : State)
  | trap (code : Nat) (addr : Word)

/-- Why a step stops with a fault: the spec names no behaviour that stops the machine, so there is no constructor, and no step
ends so. -/
inductive Fault where
  deriving DecidableEq, Repr

/-- Why a step has no meaning. -/
inductive Refusal where
  /-- Raised by an arm of the dispatch whose instruction has no meaning yet. Safe: nothing is claimed of it. -/
  | notModelled (mnemonic : String)
  deriving DecidableEq, Repr

end Sys2Proof.Machine
end

