-- ==== Sys2Proof/Machine/Ops.lean ====
section
/-! DEFINITION. The named operations over the state: records by key, registers, fields, warm memory and its homes,
translation and rights, the L1 data cache, FIFOs, counters, queues, cluster control, taking a trap and returning from
one, and the frame every control word shares. -/

namespace Sys2Proof.Machine

abbrev Out := Host.Outcome State Fault Refusal

/-! ## Records by key -/

/-- Core `k` at module reset (R39): MCMASK names the core itself (R31). -/
def Core.atReset (k : Nat) : Core := { mcmask := BitVec.ofNat 64 (2 ^ (k % 4)) }

/-- The record of core `k`. DEDUCED (log 5). -/
def State.coreAt (s : State) (k : Nat) : Core := Sp.get (Core.atReset k) s.cores k

/-- Change the record of core `k`. -/
def State.modCoreAt (s : State) (k : Nat) (f : Core → Core) : State :=
  { s with cores := Sp.put s.cores k (f (s.coreAt k)) }

/-- The core whose action runs. -/
def State.core (s : State) : Core := s.coreAt s.cur

/-- Change the core whose action runs. -/
def State.modCore (s : State) (f : Core → Core) : State := s.modCoreAt s.cur f

/-- The package of a core key, and the key of its die. -/
def pkgOf (core : Nat) : Nat := core / 256
def dieOf (core : Nat) : Nat := core / 64

/-- DEDUCED (log 5). -/
def State.dieAt (s : State) (d : Nat) : Die := Sp.get {} s.dies d
def State.modDieAt (s : State) (d : Nat) (f : Die → Die) : State := { s with dies := Sp.put s.dies d (f (s.dieAt d)) }
/-- DEDUCED (log 5). -/
def State.pkgAt (s : State) (p : Nat) : Pkg := Sp.get {} s.pkgs p
def State.modPkgAt (s : State) (p : Nat) (f : Pkg → Pkg) : State := { s with pkgs := Sp.put s.pkgs p (f (s.pkgAt p)) }
def State.partAt (s : State) (p : Nat) : Part := Sp.get {} s.parts p
def State.modPartAt (s : State) (p : Nat) (f : Part → Part) : State := { s with parts := Sp.put s.parts p (f (s.partAt p)) }

/-- A cluster of a core. -/
def Core.cluster (c : Core) (l : Lane) : Cluster :=
  match l with
  | .L => c.l
  | .E => c.e
  | .S => c.s
  | .K => c.k

/-- Replace a cluster of a core. -/
def Core.setCluster (c : Core) (l : Lane) (x : Cluster) : Core :=
  match l with
  | .L => { c with l := x }
  | .E => { c with e := x }
  | .S => { c with s := x }
  | .K => { c with k := x }

/-- The cluster whose word runs. -/
def State.cl (s : State) : Cluster := s.core.cluster s.lane

/-- Change the cluster whose word runs. -/
def State.modCl (s : State) (f : Cluster → Cluster) : State :=
  s.modCore fun c => c.setCluster s.lane (f (c.cluster s.lane))

/-- The four lanes in the order of a bundle (R73). -/
def lanes : List Lane := [.L, .E, .S, .K]

def laneIdx : Lane → Nat
  | .L => 0
  | .E => 1
  | .S => 2
  | .K => 3

/-- Change every cluster of a core. -/
def Core.modClusters (c : Core) (f : Lane → Cluster → Cluster) : Core :=
  { c with l := f .L c.l, e := f .E c.e, s := f .S c.s, k := f .K c.k }

/-- The running bind record of a core, and its change. -/
def Core.slot (c : Core) : Slot :=
  match c.run with
  | some 1 => c.slot1
  | _ => c.slot0

def Core.slotAt (c : Core) (i : BitVec 1) : Slot := if i = 0 then c.slot0 else c.slot1

def Core.modSlotAt (c : Core) (i : BitVec 1) (f : Slot → Slot) : Core :=
  if i = 0 then { c with slot0 := f c.slot0 } else { c with slot1 := f c.slot1 }

def Core.modSlot (c : Core) (f : Slot → Slot) : Core :=
  match c.run with
  | some 1 => { c with slot1 := f c.slot1 }
  | _ => { c with slot0 := f c.slot0 }

/-- The partition of the running task. -/
def State.partNo (s : State) : Nat := s.core.slot.part
def State.part (s : State) : Part := s.partAt s.partNo

/-! ## Time (R3, R13, R33) -/

/-- The warm cycle in progress. -/
def State.warm (s : State) : Nat := s.clock / Config.coldPerWarm

/-- SCNT of a die: cold cycles since its reset, less those it was frozen. DEDUCED (log 16). -/
def State.scntOf (s : State) (die : Nat) : Nat := s.clock - (s.dieAt die).base - (s.dieAt die).frozen
def State.scnt (s : State) : Nat := s.scntOf (dieOf s.cur)

/-- WCYC of the current die. DEDUCED (log 16). -/
def State.wcyc (s : State) : Nat := (s.clock - (s.dieAt (dieOf s.cur)).base) / Config.coldPerWarm

/-- HEATWIN of core `k` (R31), and of the current core. DEDUCED (log 16). -/
def State.windowOf (s : State) (k : Nat) : Nat := (s.clock - (s.dieAt (dieOf k)).base) / Config.coldPerWarm / Config.windowWarm
def State.window (s : State) : Nat := s.windowOf s.cur

/-- Use one free value, reduced to at most `bound`. DESIGN CHOICE (log 1). -/
def State.draw (s : State) (bound : Nat) : Nat × State :=
  (Config.free s.drawn % (bound + 1), { s with drawn := s.drawn + 1 })

/-- Use one free choice. -/
def State.choose (s : State) : Bool × State := (Config.choice s.drawn, { s with drawn := s.drawn + 1 })

/-! ## Fields -/

/-- Bits [lo + n − 1 : lo] as a number. -/
def bits {w : Nat} (v : BitVec w) (lo n : Nat) : Nat := v.toNat / 2 ^ lo % 2 ^ n

/-- A 64-bit word of a number, and the sign extension of a field to it. -/
def word (n : Nat) : Word := BitVec.ofNat 64 n
def sext {w : Nat} (v : BitVec w) : Word := v.signExtend 64

/-- Round up to a multiple of `m`. -/
def roundUp (n m : Nat) : Nat := (n + m - 1) / m * m

/-! ## Registers (R16, R120) -/

def Cluster.rg (c : Cluster) (n : Nat) : Word := if n = 0 then 0 else Sp.get 0 c.g n
def Cluster.wg (c : Cluster) (n : Nat) (v : Word) : Cluster := if n = 0 then c else { c with g := Sp.set 0 c.g n v }
def Cluster.rp (c : Cluster) (n : Nat) : Bool := if n = 0 then true else Sp.get false c.p n
def Cluster.wp (c : Cluster) (n : Nat) (v : Bool) : Cluster := if n = 0 then c else { c with p := Sp.set false c.p n v }
def Cluster.rc (c : Cluster) (n : Nat) : Word32 := Sp.get 0 c.c n
def Cluster.wc (c : Cluster) (n : Nat) (v : Word32) : Cluster := { c with c := Sp.set 0 c.c n v }

/-- g, p and c registers of the cluster whose word runs, by field. -/
def State.g (s : State) (n : BitVec 5) : Word := s.cl.rg n.toNat
def State.p (s : State) (n : BitVec 2) : Bool := s.cl.rp n.toNat
def State.c (s : State) (n : BitVec 3) : Word32 := s.cl.rc n.toNat

/-- Whether an earlier word of the cluster still has to write the register (R112), given the warm cycle. -/
def Cluster.isBusy (c : Cluster) (warm : Nat) (r : RegRef) : Bool :=
  c.busy.any fun x => decide (x.1 = r) && (match x.2 with | none => true | some t => decide (warm < t))

/-- Make a register busy until the warm cycle `t` (R114), or until an event writes it; g0 and p0 are never busy. -/
def Cluster.setBusy (c : Cluster) (r : RegRef) (t : Option Nat) : Cluster :=
  if r = .g 0 ∨ r = .p 0 then c else { c with busy := (r, t) :: c.busy.filter fun x => !decide (x.1 = r) }

/-- Write a register with a latency counted from this warm cycle (R114). -/
def State.writeG (s : State) (d : BitVec 5) (v : Word) (latency : Nat) : State :=
  s.modCl fun c => (c.wg d.toNat v).setBusy (.g d.toNat) (some (s.warm + latency))
def State.writeP (s : State) (d : BitVec 2) (v : Bool) : State :=
  s.modCl fun c => (c.wp d.toNat v).setBusy (.p d.toNat) (some (s.warm + 1))
def State.writeC (s : State) (d : BitVec 3) (v : Word32) : State :=
  s.modCl fun c => (c.wc d.toNat v).setBusy (.c d.toNat) (some (s.warm + 1))

/-- Leave register gD to be written by a later event. -/
def State.awaitG (s : State) (d : BitVec 5) : State := s.modCl fun c => c.setBusy (.g d.toNat) none

/-! ## Warm memory (R325, R330)

A byte's key is its package times 2^40 plus its physical address. -/

/-- What a byte that nothing has written reads as. No rule gives the contents at power-on. DESIGN CHOICE (log 2). -/
abbrev Memory.unwritten : Byte := 0

def memKey (pkg phys : Nat) : Nat := pkg * 2 ^ 40 + phys
def keyPkg (key : Nat) : Nat := key / 2 ^ 40

/-- DESIGN CHOICE (log 2). DEDUCED (log 48). -/
def State.byte (s : State) (key : Nat) : Byte := Sp.get Memory.unwritten s.mem key
def State.setByte (s : State) (key : Nat) (b : Byte) : State := { s with mem := Sp.set Memory.unwritten s.mem key b }

/-- The `n` bytes from `key` on. -/
def State.bytes (s : State) (key : Nat) : Nat → List Byte
  | 0 => []
  | n + 1 => s.byte key :: s.bytes (key + 1) n

/-- Write bytes from `key` on. -/
def State.setBytes (s : State) (key : Nat) : List Byte → State
  | [] => s
  | b :: rest => (s.setByte key b).setBytes (key + 1) rest

/-- Memory is in canonical form: addresses rising, no entry equal to what an unlisted byte reads as. -/
abbrev Memory.wf (m : List Host.Cell) : Prop := Sp.wf Memory.unwritten m = true

/-! ## The region table (R330, R331) -/

/-- The fields of a region table entry if it is valid. -/
def decodeRegion (v : BitVec 512) : Option Region :=
  let flags := bits v 144 16
  let base := bits v 0 64
  let size := bits v 64 64
  let pkg := bits v 128 16
  let mirror := decide (flags / 8 % 2 = 1)
  let mbase := bits v 256 64
  let crcOk := decide (crc32 (leBytes 60 v.toNat) = BitVec.ofNat 32 (bits v 480 32))
  let ok := decide (flags % 2 = 1) && crcOk && decide (flags < 32) && decide (bits v 168 24 = 0) &&
    decide (bits v 226 30 = 0) && decide (bits v 320 160 = 0) && decide (base % 65536 = 0) && decide (base < 2 ^ 40) &&
    decide (size ≠ 0) && decide (size % 65536 = 0) && decide (base + size ≤ 2 ^ 40) && decide (pkg < Config.packages) &&
    (mirror || decide (mbase = 0))
  if ok then
    some { base := base, size := size, pkg := pkg, rw := decide (flags / 2 % 2 = 1), pinned := decide (flags / 4 % 2 = 1),
           mirror := mirror, keyen := decide (flags / 16 % 2 = 1), key := bits v 160 8,
           token := bits v 192 34, mbase := mbase }
  else none

/-- The 64 bytes of a region table entry with its CRC. -/
def encodeRegion (r : Region) : BitVec 512 :=
  let flags := 1 + (if r.rw then 2 else 0) + (if r.pinned then 4 else 0) + (if r.mirror then 8 else 0) + (if r.keyen then 16 else 0)
  let v := r.base + r.size * 2 ^ 64 + r.pkg * 2 ^ 128 + flags * 2 ^ 144 + r.key * 2 ^ 160 + r.token * 2 ^ 192 + r.mbase * 2 ^ 256
  BitVec.ofNat 512 (v + (crc32 (leBytes 60 v)).toNat * 2 ^ 480)

/-- Region `i` of partition `p`, if its entry is valid. -/
def State.regionOf (s : State) (p i : Nat) : Option Region := decodeRegion (Sp.get 0 (s.partAt p).regions i)

/-- REGION and OFFSET of a handle (R14). -/
def regionIdx (h : Word) : Nat := bits h 52 12
def offsetOf (h : Word) : Nat := bits h 0 52

/-- The handle of a byte of region `i`. -/
def handleOf (i off : Nat) : Word := word (i * 2 ^ 52 + off)

/-- The region and key of `n` bytes at handle `h` of partition `p`, if all lie in one valid region (R331). -/
def State.locate (s : State) (p : Nat) (h : Word) (n : Nat) : Option (Region × Nat) :=
  match s.regionOf p (regionIdx h) with
  | some r => if offsetOf h + n ≤ r.size then some (r, memKey r.pkg (r.base + offsetOf h)) else none
  | none => none

/-- The entry's fields whatever its VALID bit says: where an access accepted before the region was invalidated goes (R333,
R442). -/
def validated (v : BitVec 512) : BitVec 512 :=
  let body := v.toNat % 2 ^ 480
  let body := if body / 2 ^ 144 % 2 = 1 then body else body + 2 ^ 144
  BitVec.ofNat 512 (body + (crc32 (leBytes 60 body)).toNat * 2 ^ 480)

/-- An accepted handle at the time of its access: the region as it stands, or, where its package has failed, as it stood. DEDUCED (log 23). -/
def State.locateQ (s : State) (p : Nat) (h : Word) (n : Nat) : Option (Region × Nat) :=
  match s.locate p h n with
  | some x => some x
  | none =>
    match decodeRegion (validated (Sp.get 0 (s.partAt p).regions (regionIdx h))) with
    | some r => if offsetOf h + n ≤ r.size then some (r, memKey r.pkg (r.base + offsetOf h)) else none
    | none => none

/-- The first byte of [h, h + n) out of range (R139, R163). -/
def State.firstOut (s : State) (p : Nat) (h : Word) : Word :=
  match s.regionOf p (regionIdx h) with
  | some r => if offsetOf h < r.size then handleOf (regionIdx h) r.size else h
  | none => h

/-- The mirror key of a home key of partition `p`: the byte's place in the copy of a MIRROR region (R330, R417). -/
def mirrorIn (key : Nat) : Sp (BitVec 512) → Option Nat
  | [] => none
  | (_, v) :: rest =>
    match decodeRegion v with
    | some r =>
      let lo := memKey r.pkg r.base
      if r.mirror ∧ lo ≤ key ∧ key < lo + r.size then some (memKey (r.pkg ^^^ 1) (r.mbase + (key - lo))) else mirrorIn key rest
    | none => mirrorIn key rest

/-- The context whose action runs, as `owners` names it (R337): 0 where no task runs. -/
def State.writer (s : State) : Nat :=
  match s.core.run with
  | some i => 1 + 2 * s.cur + i.toNat
  | none => 0

/-- The line of a byte was last written by context `w` (R337). -/
def State.ownLine (s : State) (key w : Nat) : State := { s with owners := Sp.set 0 s.owners (key / 64) w }

/-- A write of context `w` at a home; a failed package takes none (R442). -/
def State.liveByte (s : State) (w key : Nat) (b : Byte) : State :=
  if (s.pkgAt (keyPkg key)).failed then s else (s.setByte key b).ownLine key w

/-- Write a byte at its home, and at its mirror in a MIRROR region of partition `p` (R417). -/
def State.partByte (s : State) (p w key : Nat) (b : Byte) : State :=
  let s1 := s.liveByte w key b
  match mirrorIn key (s.partAt p).regions with
  | some m => s1.liveByte w m b
  | none => s1

def State.homeByte (s : State) (key : Nat) (b : Byte) : State := s.partByte s.partNo s.writer key b

/-- Write bytes from `key` on at their homes and mirrors, for an agent outside the cores: owner tag 0 (R338). -/
def State.partBytes (s : State) (p key : Nat) : List Byte → State
  | [] => s
  | b :: rest => (s.partByte p 0 key b).partBytes p (key + 1) rest

/-- A write to a MIRROR region awaits its acknowledgement on path 3; `issued` is when its operation was issued (R417). DEDUCED (log 32). -/
def State.awaitMirror (s : State) (key issued : Nat) (joined : Bool := true) : State :=
  match mirrorIn key s.part.regions with
  | some m => s.modCore fun c => { c with mirror := c.mirror ++ [{ issued := issued, warm := s.warm, pkg := keyPkg m, joined := joined }] }
  | none => s

/-- Write bytes at their home and their mirror. -/
def State.homeBytes (s : State) (key : Nat) : List Byte → State
  | [] => s
  | b :: rest => (s.homeByte key b).homeBytes (key + 1) rest

def State.homeWrite (s : State) (key issued : Nat) (bs : List Byte) : State :=
  (s.homeBytes key bs).awaitMirror key issued

/-- Whether a line of these bytes holds an uncorrectable error (R338), or its home has failed (R442). -/
def State.badAt (s : State) (key n : Nat) : Bool :=
  (s.pkgAt (keyPkg key)).failed || (s.bad ++ s.badDc).any fun b => decide (key / 64 ≤ b) && decide (b ≤ (key + n - 1) / 64)

/-! ## The trap area (R389) -/

def trapAreaSize : Nat := 16384

/-- A byte of the trap area: the core's two record slots stand first, then the running context's slot (R336, R389). DESIGN
CHOICE (log 2). DEDUCED (log 10). -/
def Core.areaByte (c : Core) (off : Nat) : Byte := Sp.get 0 (if off < 0x200 then c.recs else c.slot.area) off

def Core.areaNat (c : Core) (off n : Nat) : Nat := leNat ((List.range n).map fun i => c.areaByte (off + i))

def Core.setAreaByte (c : Core) (off : Nat) (b : Byte) : Core :=
  if off < 0x200 then { c with recs := Sp.set 0 c.recs off b } else c.modSlot fun sl => { sl with area := Sp.set 0 sl.area off b }

def Core.setArea (c : Core) (off : Nat) : List Byte → Core
  | [] => c
  | b :: rest => (c.setAreaByte off b).setArea (off + 1) rest

/-- Keys of trap-area bytes, above every memory key: the context slot they lie in, and the offset. -/
def areaBase : Nat := 2 ^ 60
def areaKey (core : Nat) (slot : BitVec 1) (off : Nat) : Nat := areaBase + (2 * core + slot.toNat) * trapAreaSize + off

/-- A byte of memory or of a trap area by its key. -/
def State.anyByte (s : State) (key : Nat) : Byte :=
  if key < areaBase then s.byte key
  else
    let k := (key - areaBase) / trapAreaSize
    let off := (key - areaBase) % trapAreaSize
    let c := s.coreAt (k / 2)
    Sp.get 0 (if off < 0x200 then c.recs else (c.slotAt (BitVec.ofNat 1 (k % 2))).area) off

/-- Write a byte by its key: at its home, or in a trap area. -/
def State.anyWrite (s : State) (key : Nat) (b : Byte) : State :=
  if key < areaBase then s.homeByte key b
  else
    let k := (key - areaBase) / trapAreaSize
    let off := (key - areaBase) % trapAreaSize
    s.modCoreAt (k / 2) fun c =>
      if off < 0x200 then { c with recs := Sp.set 0 c.recs off b }
      else c.modSlotAt (BitVec.ofNat 1 (k % 2)) fun sl => { sl with area := Sp.set 0 sl.area off b }

/-- Where `n` bytes at `h` lie for the current core (R331, R389): in a handler REGION 0xFFF names the trap area. DEDUCED (log 10). -/
def State.place (s : State) (h : Word) (n : Nat) : Option Place :=
  if regionIdx h = 0xFFF then
    if s.core.inHandler ∧ offsetOf h + n ≤ trapAreaSize then some (.area (offsetOf h)) else none
  else (s.locate s.partNo h n).map fun x => .home (regionIdx h) x.2

/-! ## Logical cores and token rights (R268 to R270) -/

/-- Whether a slot carries a task that a core address of `from` may name: same launch, or same graph node. -/
def sameNode (me other : Slot) : Bool :=
  decide (me.part = other.part) &&
    (decide (me.launch = other.launch) || (decide (me.graph ≠ 0) && decide (me.graph = other.graph) && decide (me.node = other.node)))

/-- A slot holds a task that has been bound and has not ended. -/
def Slot.live (sl : Slot) : Bool :=
  match sl.state with
  | .bound | .running | .saved => !sl.copy
  | .empty | .ended => false

/-- The slot of core record `c` that carries logical core `id` for the task in `me`. -/
def Core.carries (c : Core) (me : Slot) (id : Nat) (anyState : Bool) : Option (BitVec 1) :=
  let ok := fun (sl : Slot) => decide (sl.state ≠ .empty) && !sl.copy && (anyState || sl.live) && decide (sl.coreId.toNat = id) && sameNode me sl
  if ok c.slot0 then some 0 else if ok c.slot1 then some 1 else none

/-- The physical core, and its slot, that logical core `id` on package `pkg` is bound to, for the task in `me` (R268). -/
def findCore (me : Slot) (pkg id : Nat) : Sp Core → Option (Nat × BitVec 1)
  | [] => none
  | (k, c) :: rest =>
    if pkgOf k = pkg then
      match c.carries me id false with
      | some i => some (k, i)
      | none => findCore me pkg id rest
    else findCore me pkg id rest

/-- The core a core address names (R268); bits [21:0] belong to the address of an atom (R290). -/
def State.peer (s : State) (a : Word) : Option (Nat × BitVec 1) :=
  if bits a 40 24 ≠ 0 then none else findCore s.core.slot (bits a 30 10) (bits a 22 8) s.cores

def Part.token (p : Part) (id : Nat) : Token := Sp.get {} p.tokens id

/-- The head entry of the span that holds unit `id`. -/
def Part.headOf (p : Part) (id : Nat) : Nat × Token := let h := (p.token id).head; (h, p.token h)

/-- The current core is the span's holder. -/
def State.holds (s : State) (t : Token) : Bool :=
  let sl := s.core.slot
  decide (t.hpkg = pkgOf s.cur) && decide (t.hcore = sl.coreId.toNat) && decide (t.hgroup = sl.launch)

def State.exclusive (s : State) (t : Token) : Bool := s.holds t && decide (t.mode = .excl)

/-- The token unit of a handle in region `r`. -/
def unitOf (r : Region) (h : Word) : Nat := r.token + offsetOf h / 65536

/-- A `cptail` of warm cycle `w` or earlier has yet to be performed (R312). DEDUCED (log 40). -/
def Core.cptailPending (c : Core) (w : Nat) : Bool :=
  c.sq.any fun e => !e.killed && decide (e.warm ≤ w) && (match e.op with | .cptail _ => true | _ => false)

/-- What a send in flight leaves of the rights over a span (R274): for words every send, for the string's entries only those
later than the entries still to be taken. -/
def State.sendLeaves (s : State) (words : Bool) (head : Nat) : Option Nat :=
  (s.core.sends.find? fun x => decide (x.head = head) && (words || (x.tail.isNone && !s.core.cptailPending x.warm))).map (·.fn)

def State.readRight (s : State) (words : Bool) (r : Region) (h : Word) : Bool :=
  let (head, t) := s.part.headOf (unitOf r h)
  !r.rw || s.core.shares.contains head ||
    (s.holds t && (decide (t.mode = .excl) || decide (t.mode = .sharedIssue)) &&
      (match s.sendLeaves words head with | none => true | some f => decide (f = 5)))

def State.writeRight (s : State) (words : Bool) (r : Region) (h : Word) : Bool :=
  let (head, t) := s.part.headOf (unitOf r h)
  r.rw && s.exclusive t && (s.sendLeaves words head).isNone

/-- The current core may read, or write, the byte at `h` of region `r` (R136, R270). -/
def State.mayRead (s : State) (r : Region) (h : Word) : Bool := s.readRight true r h
def State.mayWrite (s : State) (r : Region) (h : Word) : Bool := s.writeRight true r h

/-- One handle in each 64 KiB unit that `n` bytes at `h` touch, the first being `h` (R267). -/
def unitHandles (h : Word) (n : Nat) : List Word :=
  let first := offsetOf h / 65536
  h :: (List.range ((offsetOf h + n - 1) / 65536 - first)).map fun i => handleOf (regionIdx h) ((first + 1 + i) * 65536)

/-- The current core may read, or write, all `n` bytes at `h` of region `r`: each span they touch gives the right. -/
def State.mayUse (s : State) (write : Bool) (r : Region) (h : Word) (n : Nat) : Bool :=
  (unitHandles h n).all fun u => if write then s.mayWrite r u else s.mayRead r u

/-- The region of a handle has to be walked before the word can go on (R332); the trap area needs no walk (R389). -/
def State.needsWalk (s : State) (i : Nat) : Bool := !decide (i = 0xFFF) && !s.core.tlb.contains i

/-- The checks of R136 for `n` bytes at `h`: alignment to `al`, range with the TLB walk, ownership. -/
def State.access (s : State) (h : Word) (n al : Nat) (write : Bool) : Check Place :=
  if h.toNat % al ≠ 0 then .trap 0x07 h
  else if regionIdx h = 0xFFF then
    match s.place h n with
    | some p => .pass p
    | none => .trap 0x08 h
  else if !s.core.tlb.contains (regionIdx h) then .walk (regionIdx h)
  else
    match s.locate s.partNo h n with
    | none => .trap 0x08 h
    | some (r, key) =>
      if s.mayUse write r h n then .pass (.home (regionIdx h) key) else .trap 0x09 h

/-- Ask the die walker for region `i` on behalf of `who` (R332): at most eight walks, a further miss waits for a free one. -/
def State.walkFor (s : State) (who i : Nat) : State :=
  let d := dieOf s.cur
  let ws := (s.dieAt d).walks
  if ws.length < 8 ∧ !ws.any (fun w => decide (w.1 = who ∧ w.2.1 = i)) then
    let (t, s1) := s.draw 4095
    s1.modDieAt d fun x => { x with walks := x.walks ++ [(who, i, s.clock + 1 + t)] }
  else s

/-- A walk for the current core's region TLB. -/
def State.walk (s : State) (i : Nat) : State := s.walkFor s.cur i

/-- The copy engine of a core's quad, as the walker knows it; core keys stand below. -/
def engineKey (core : Nat) : Nat := 256 * Config.packages + core / 4

/-! ## Error banks (R413, R414) -/

/-- A count that saturates at 0xFFFF. -/
def sat16 (n : Nat) : Nat := min n 0xFFFF

/-- Log one error in a bank (R414). -/
def ErrBank.log (b : ErrBank) (e : MemError) (margin : Bool) (stamp : BitVec 32) : ErrBank :=
  let fresh : ErrBank := { b with record := some e, margin := margin, stamp := stamp }
  match e.uncorrectable, b.record with
  | false, none => { fresh with ceCount := sat16 (b.ceCount + 1) }
  | false, some _ => { b with ceCount := sat16 (b.ceCount + 1) }
  | true, none => { fresh with ueCount := sat16 (b.ueCount + 1) }
  | true, some r =>
    if r.uncorrectable then { b with ueCount := sat16 (b.ueCount + 1), ovf := true }
    else { fresh with ueCount := sat16 (b.ueCount + 1) }

/-- The management cores of package `p` are interrupted. -/
def State.notify (s : State) (p : Nat) (n : Notice) : State := s.modPkgAt p fun x => { x with notices := x.notices ++ [n] }

/-- The management cores of package `p` are interrupted for what the bank `b` of it logs: every uncorrectable error, a shadow mismatch
that ends in SHADOW among them, and every margin error; no other corrected one (R414). -/
def State.tell (s : State) (p b : Nat) (e : MemError) (margin : Bool) : State :=
  if e.uncorrectable ∨ margin then s.notify p (.bank (BitVec.ofNat 3 b) e.source) else s

/-- The error is of warm SRAM: the die cache, an L1 cache, or shadow storage (R413, R448). -/
def inSram (e : MemError) : Bool := decide (e.source = 1) || decide (e.source = 3) || decide (e.source = 4) || decide (e.source = 7)

/-- Log an error in the bank of die `d`, stamped with WCYC[31:0]; the margin controller counts a corrected one of warm SRAM (R452). -/
def State.logDie (s : State) (d : Nat) (e : MemError) (margin : Bool) : State :=
  let w := (s.clock - (s.dieAt d).base) / Config.coldPerWarm
  (s.modDieAt d fun x =>
    { x with bank := x.bank.log e margin (BitVec.ofNat 32 w), sram := if inSram e ∧ !e.uncorrectable then x.sram + 1 else x.sram }).tell (d / 4) (d % 4) e margin

/-- Log an error in the bank of a package's I/O die, stamped with WCYC[31:0], which counts from the module's reset. DEDUCED (log 16). -/
def State.logIo (s : State) (p : Nat) (e : MemError) : State :=
  let w := (s.clock - (s.dieAt (4 * p)).base) / Config.coldPerWarm
  (s.modPkgAt p fun x => { x with bank := x.bank.log e false (BitVec.ofNat 32 w) }).tell p 4 e false

/-! ## The L1 data cache (R328) -/

def byteOfLine (l : Line) (i : Nat) : Byte := l.data.extractLsb' (8 * i) 8

/-- Write the masked bytes of a line to its home (R328). -/
def State.lineHome (s : State) (l : Line) : State :=
  (List.range 64).foldl (fun s i => if l.mask.getLsbD i then s.homeByte (l.addr * 64 + i) (byteOfLine l i) else s) s

/-- The 12-bit owner tag of a context within its package (R337). DESIGN CHOICE (log 24). -/
def ownerTag (w : Nat) : BitVec 12 := if w = 0 then 0 else BitVec.ofNat 12 (1 + (w - 1) % 512)

/-- HBM4E, the die caches or the cold stores of a package run in OWNER mode (R337), by MEMPROT field. DEDUCED (log 48). -/
def Pkg.ownerMode (p : Pkg) (field : Nat) : Bool := decide (bits p.memprot (2 * field) 2 = 1)

/-- The stack a physical address of a package lies in, and the die that owns the stack of a line (R325). -/
def stackOf (phys : Nat) : Nat := Nat.xor (phys / 256) (phys / 2 ^ 20) % 16
def homeDie (line : Nat) : Nat := keyPkg (64 * line) * 4 + stackOf (64 * line % 2 ^ 40) / 4

/-- A dirty line goes home for an operation issued at `issued`, and its mirror write is awaited once. One whose home has
failed is lost and logged (R442). -/
def State.writeBack (s : State) (issued : Nat) (l : Line) : State :=
  if l.mask = 0 then s
  else if (s.pkgAt (keyPkg (l.addr * 64))).failed then
    s.logDie (dieOf s.cur)
      { source := 10, uncorrectable := true, addr := word (l.addr * 64 % 2 ^ 40), phys := BitVec.ofNat 8 s.cur, owner := 0, syndrome := 0 } false
  else (s.lineHome l).awaitMirror (l.addr * 64) issued

/-- The least recently used line of a set. -/
def oldest : List Line → Option Line
  | [] => none
  | l :: rest =>
    match oldest rest with
    | none => some l
    | some m => if l.used ≤ m.used then some l else some m

/-- The line of byte `key` in the cache, filled on a miss; a full set evicts its least recently used line. DESIGN CHOICE (log 8). -/
def State.fillLine (s : State) (key : Nat) : Line × State :=
  let a := key / 64
  match s.core.l1d.find? (fun l => decide (l.addr = a)) with
  | some l => (l, s)
  | none =>
    let set := s.core.l1d.filter fun l => decide (l.addr % 128 = a % 128)
    let s1 :=
      if set.length < 8 then s
      else match oldest set with
        | some v => (s.writeBack s.warm v).modCore fun c => { c with l1d := c.l1d.filter fun l => !decide (l.addr = v.addr) }
        | none => s
    let l : Line := { addr := a, data := BitVec.ofNat 512 (leNat (s1.bytes (a * 64) 64)), mask := 0, used := s.clock }
    (l, s1.modCore fun c => { c with l1d := l :: c.l1d, badL1 := c.badL1.filter fun x => !decide (x = a) })

/-- Put a line back with its time of use. -/
def State.putLine (s : State) (l : Line) : State :=
  s.modCore fun c => { c with l1d := c.l1d.map fun x => if x.addr = l.addr then { l with used := s.clock } else x }

/-- Read `n` bytes (within a line) through the L1 data cache. -/
def State.l1Read (s : State) (key n : Nat) : Nat × State :=
  let (l, s1) := s.fillLine key
  (l.data.toNat / 2 ^ (8 * (key % 64)) % 2 ^ (8 * n), s1.putLine l)

/-- Bytes `i` to `i + n − 1` of a line replaced by `v`. -/
def Line.store (l : Line) (i n v : Nat) : Line :=
  let m := (2 ^ (8 * n) - 1) * 2 ^ (8 * i)
  { l with
    data := BitVec.ofNat 512 (l.data.toNat - (l.data.toNat &&& m) + v % 2 ^ (8 * n) * 2 ^ (8 * i)),
    mask := l.mask ||| BitVec.ofNat 64 ((2 ^ n - 1) * 2 ^ i) }

/-- Write `n` bytes (within a line) through the L1 data cache. -/
def State.l1Write (s : State) (key n v : Nat) : State :=
  let (l, s1) := s.fillLine key
  s1.putLine (l.store (key % 64) n v)

/-- Write the dirty lines home that `sel` names; they stay, clean. -/
def State.cleanLines (s : State) (issued : Nat) (sel : Line → Bool) : State :=
  let s1 := (s.core.l1d.filter sel).foldl (fun s l => s.writeBack issued l) s
  s1.modCore fun c => { c with l1d := c.l1d.map fun l => if sel l then { l with mask := 0 } else l }

/-- Drop the lines `sel` names. -/
def State.dropLines (s : State) (sel : Line → Bool) : State :=
  s.modCore fun c => { c with l1d := c.l1d.filter fun l => !sel l }

/-- Lines that overlap [key, key + n). -/
def overlaps (key n : Nat) (l : Line) : Bool := decide (l.addr * 64 < key + n) && decide (key < l.addr * 64 + 64)

/-! ## FIFOs between clusters (R17, R85, R86, R134)

FIFO 2k is link k rightward and 2k + 1 leftward, links L–E, E–S, S–K, K–L (R388). -/

def rightOut (l : Lane) : Nat := 2 * laneIdx l
def leftOut (l : Lane) : Nat := 2 * ((laneIdx l + 3) % 4) + 1
def leftIn (l : Lane) : Nat := 2 * ((laneIdx l + 3) % 4)
def rightIn (l : Lane) : Nat := 2 * laneIdx l + 1

/-- Whether an entry pushed in an earlier warm cycle stands at the head. DESIGN CHOICE (log 52). -/
def Fifo.ready (f : Fifo) (warm : Nat) : Bool :=
  match f.items with
  | (t, _) :: _ => decide (t < warm)
  | [] => false

/-- Whether a push finds room: pops of this warm cycle free room from the next on. DESIGN CHOICE (log 52). -/
def Fifo.room (f : Fifo) (warm depth : Nat) : Bool :=
  decide (f.items.length + (if f.popWarm = warm then f.pops else 0) < depth)

def Fifo.push (f : Fifo) (warm : Nat) (v : Word) : Fifo := { f with items := f.items ++ [(warm, v)] }

def Fifo.pop (f : Fifo) (warm : Nat) : Fifo :=
  { items := f.items.drop 1, popWarm := warm, pops := (if f.popWarm = warm then f.pops else 0) + 1 }

def Fifo.head (f : Fifo) : Word :=
  match f.items with
  | (_, v) :: _ => v
  | [] => 0

def Core.tokAt (c : Core) (i : Nat) : Fifo := Sp.get {} c.tok i
def Core.portAt (c : Core) (i : Nat) : Fifo := Sp.get {} c.port i

/-- The dependence bits of a KP word, PL PR QL QR from the high bit down (R85): every pop has a token and every push
room. -/
def State.depsReady (s : State) (dep : BitVec 4) : Bool :=
  let c := s.core
  let l := s.lane
  (!dep.getLsbD 3 || (c.tokAt (leftIn l)).ready s.warm) && (!dep.getLsbD 2 || (c.tokAt (rightIn l)).ready s.warm) &&
  (!dep.getLsbD 1 || (c.tokAt (leftOut l)).room s.warm Config.tokenDepth) &&
  (!dep.getLsbD 0 || (c.tokAt (rightOut l)).room s.warm Config.tokenDepth)

def Core.modTok (c : Core) (i : Nat) (f : Fifo → Fifo) : Core := { c with tok := Sp.put c.tok i (f (c.tokAt i)) }
def Core.modPort (c : Core) (i : Nat) (f : Fifo → Fifo) : Core := { c with port := Sp.put c.port i (f (c.portAt i)) }

/-- The pops and pushes of a KP word, together with its issue (R85). DESIGN CHOICE (log 52). -/
def State.takeDeps (s : State) (dep : BitVec 4) : State :=
  let l := s.lane
  let w := s.warm
  s.modCore fun c =>
    let c := if dep.getLsbD 3 then c.modTok (leftIn l) (·.pop w) else c
    let c := if dep.getLsbD 2 then c.modTok (rightIn l) (·.pop w) else c
    let c := if dep.getLsbD 1 then c.modTok (leftOut l) (·.push w 0) else c
    if dep.getLsbD 0 then c.modTok (rightOut l) (·.push w 0) else c

/-! ## Event counters (R148, R291) -/

/-- A cluster asleep in a `wfi` wakes (R156). -/
def Cluster.wake (x : Cluster) : Cluster :=
  match x.wait with
  | .asleep w => { x with wait := .awake w }
  | _ => x

def Core.wake (c : Core) : Core := c.modClusters fun _ x => x.wake

/-- Add 1 to a counter of a core, saturating; one that increments ends a `wfi` (R156). -/
def State.pulse (s : State) (core n : Nat) : State :=
  s.modCoreAt core fun c =>
    let v := Sp.get 0 c.cold.ev n
    if v = 0xFFFF then c else { c with cold := { c.cold with ev := Sp.set 0 c.cold.ev n (v + 1) } }.wake

/-- A token arrives at a core: e6 is pulsed (R291), and a `wfi` ends whether or not the counter still increments (R156). -/
def State.tokenArrives (s : State) (core : Nat) : State := (s.pulse core 6).modCoreAt core Core.wake

/-! ## Queues (R112, R131, R138) -/

/-- The level of the code that runs: task, handler, nested handler. -/
def Core.level (c : Core) : Nat := if c.nested then 2 else if c.inHandler then 1 else 0

/-- Engines of the core are held: the core stands at a cut whose tables the code that runs has not abandoned (R385, R394). DEDUCED (log 41). -/
def Core.held (c : Core) : Bool := c.inHandler && !(if c.nested then c.accHere else c.accLost) && !c.halting

/-- The loop tags of an entry the cluster places (R131). -/
def Cluster.tags (c : Cluster) : List (Nat × Nat) := c.loops.map fun e => (e.inst, e.initial.toNat - e.remaining.toNat)

/-- Whether a kill marker in force already retires an entry the cluster places (R131). -/
def Cluster.killed (c : Cluster) : Bool :=
  c.loops.any fun e =>
    match e.kill with
    | some i => decide (i < e.initial.toNat - e.remaining.toNat)
    | none => false

def Core.queue (c : Core) (q : QueueId) : List QEntry :=
  match q with
  | .load => c.lq
  | .store => c.sq
  | .engine => c.eq
  | .string => []

def Core.setQueue (c : Core) (q : QueueId) (es : List QEntry) : Core :=
  match q with
  | .load => { c with lq := es }
  | .store => { c with sq := es }
  | .engine => { c with eq := es }
  | .string => c

def queueDepth (q : QueueId) : Nat :=
  match q with
  | .load => Config.loadDepth
  | .store => Config.storeDepth
  | .engine => Config.engineDepth
  | .string => 0

/-- The queue has room for one entry. -/
def State.room (s : State) (q : QueueId) : Bool := decide ((s.core.queue q).length < queueDepth q)

/-- The number of entries issued to a queue since task start. -/
def Core.issued (c : Core) (q : QueueId) : Nat :=
  match q with
  | .load => c.lqIssued
  | .store => c.sqIssued
  | .engine => c.eqIssued
  | .string => 0

/-- The handle of the word that a cluster issues: bundle handle + 4 × lane (R89). -/
def State.wordHandle (s : State) : Word := s.cl.pc + word (4 * laneIdx s.lane)

/-- The window closes (R407). A replay of it that runs goes on with what the window retains. -/
def Core.closeWindow (c : Core) : Core :=
  { c with win := if c.replay.isSome then c.win.map fun w => { w with shut := true } else none }

/-- The open window retains an entry; one that would be the 65th of its queue closes it (R407). DEDUCED (log 50). -/
def Core.retain (c : Core) (q : QueueId) (seq : Nat) (value : Option Word) : Core :=
  match c.win with
  | none => c
  | some w =>
    if w.retained.any fun r => decide (r.queue = q ∧ r.seq = seq) then c
    else if 64 ≤ (w.retained.filter fun r => decide (r.queue = q)).length then c.closeWindow
    else { c with win := some { w with retained := w.retained ++ [{ queue := q, seq := seq, value := value }] } }

/-- The value of a retained entry is known. -/
def Core.retainValue (c : Core) (q : QueueId) (seq : Nat) (v : Word) : Core :=
  { c with win := c.win.map fun w =>
      { w with retained := w.retained.map fun r => if r.queue = q ∧ r.seq = seq then { r with value := some v } else r } }

/-- The stamp of a crossing or `tstart` issued now: in a replay run that reissues a retained entry, its recorded stamp
plus H (R409). -/
def Core.stampOf (c : Core) (q : QueueId) (stamp : Nat) : Nat :=
  match c.replay, c.win with
  | some r, some w =>
    match w.retained.find? fun x => decide (x.queue = q ∧ x.seq = c.issued q + 1) with
    | some ⟨_, _, some v⟩ => v.toNat + r.shift
    | _ => stamp
  | _, _ => stamp

/-- The stamp an entry's operation carries. -/
def QOp.stamp : QOp → Option Word
  | .tstart _ t => some (word t)
  | _ => none

/-- Place an entry at the tail of a queue. -/
def State.enqueue (s : State) (q : QueueId) (op : QOp) : State :=
  let cl := s.cl
  let e : QEntry := { seq := s.core.issued q + 1, lane := s.lane, warm := s.warm, word := s.wordHandle, tags := cl.tags,
                      killed := cl.killed, held := none, level := s.core.level, op := op, joined := !cl.split }
  s.modCore fun c =>
    let c := (c.setQueue q (c.queue q ++ [e])).retain q e.seq op.stamp
    match q with
    | .load => { c with lqIssued := c.lqIssued + 1 }
    | .store => { c with sqIssued := c.sqIssued + 1 }
    | .engine => { c with eqIssued := c.eqIssued + 1 }
    | .string => c

/-- The entry at a queue's head for the code that runs: entries of an interrupted level stand still (R385), until a `halt`
of the handler performs them (R395). -/
def Core.headOf (c : Core) (q : QueueId) : Option QEntry :=
  (c.queue q).find? fun e => decide (e.level = c.level) || c.halting

/-- The last entry of a queue below which every entry has left it. -/
def Core.performedTo (c : Core) (q : QueueId) : Nat :=
  match c.queue q with
  | e :: _ => e.seq - 1
  | [] => c.issued q

/-- The counts of performed entries (R388): every entry numbered at or below one has been performed or discarded. DESIGN CHOICE (log 31). -/
def Core.recount (c : Core) : Core :=
  { c with lqDone := c.performedTo .load, sqDone := c.performedTo .store, eqDone := c.performedTo .engine }

/-- Remove the entry numbered `seq` from a queue as performed in this warm cycle. -/
def State.retire (s : State) (q : QueueId) (seq : Nat) : State :=
  let w := s.warm
  s.modCore fun c =>
    let c := (c.setQueue q ((c.queue q).filter fun e => !decide (e.seq = seq))).recount
    match q with
    | .load => { c with lqWarm := some w }
    | .store => { c with sqWarm := some w }
    | .engine => { c with eqWarm := some w }
    | .string => c

/-- Entries of a queue issued before warm cycle `w`, or before the entry numbered so, are all performed. -/
def Core.doneBefore (c : Core) (q : QueueId) (w : Nat) : Bool :=
  !(c.queue q).any fun e => decide (e.warm ≤ w) && decide (e.level = c.level)

/-! ## Engine idleness (R141) -/

def Cold.engine (c : Cold) (e : EngineId) : Engine :=
  match e with
  | .matrix => c.mat
  | .vector => c.vec
  | .temporal => c.tmp

def Core.engine (c : Core) (e : EngineId) : Engine := c.cold.engine e

def Core.modCold (c : Core) (f : Cold → Cold) : Core := { c with cold := f c.cold }

def Cold.modEngine (c : Cold) (e : EngineId) (f : Engine → Engine) : Cold :=
  match e with
  | .matrix => { c with mat := f c.mat }
  | .vector => { c with vec := f c.vec }
  | .temporal => { c with tmp := f c.tmp }

def Core.modEngine (c : Core) (e : EngineId) (f : Engine → Engine) : Core := c.modCold fun x => x.modEngine e f

/-- A parameter write is on its way (R187): no result of a table. -/
def LandOp.isParam : LandOp → Bool
  | .param _ _ => true
  | _ => false

/-- An engine is idle: no table, no armed term, no start under way, every result written (drains included, R215). -/
def Core.idle (c : Core) (e : EngineId) : Bool :=
  let x := c.engine e
  !x.run && x.armed.isNone && x.start.isEmpty && !c.cold.pend.any (fun l => decide (l.eng = e) && !l.op.isParam) &&
  (match e with
   | .matrix => c.drains.isEmpty
   | .vector => true
   | .temporal => c.cold.eval.isNone)

def engines : List EngineId := [.matrix, .vector, .temporal]
def Core.allIdle (c : Core) : Bool := engines.all c.idle

/-- The engine coded in FN[1:0] (R140). -/
def engineOf (e : BitVec 2) : EngineId :=
  match e with
  | 0#2 => .matrix
  | 1#2 => .vector
  | _ => .temporal

def engineIdx : EngineId → Nat
  | .matrix => 0
  | .vector => 1
  | .temporal => 2

/-! ## Heat charges (R423 to R430) -/

/-- Post a charge to a core's meter and to its package. -/
def State.chargeAt (s : State) (core n : Nat) : State :=
  (s.modCoreAt core fun c => { c with heatNow := c.heatNow + n }).modPkgAt (pkgOf core) fun p => { p with posted := p.posted + n }

def State.charge (s : State) (n : Nat) : State := s.chargeAt s.cur n

/-- The heat test of an entry with this charge at the head of a queue (R427): admitted and charged, or held. -/
def State.heatTest (s : State) (q : QueueId) (e : QEntry) (charge : Nat) : Bool × State :=
  let c := s.core
  let free : Bool := match e.held with
    | some w => decide (w < s.window)
    | none => false
  if free ∨ c.heatAcc + c.heatAdm + charge ≤ c.heatBud then
    (true, (s.charge charge).modCore fun c => { c with heatAdm := c.heatAdm + charge })
  else
    (false, s.modCore fun c => c.setQueue q ((c.queue q).map fun x =>
      if x.seq = e.seq then { x with held := some (x.held.getD s.window) } else x))

/-- TCAUSE of a class, unit and code (R383). -/
def causeOf (cls unit code : Nat) : Nat := cls * 2 ^ 14 + unit * 2 ^ 12 + code

/-! ## Ending a task (R369, R370) -/

/-- Drop cold state and everything of the task on a core (R26); the bind record is ENDED. -/
def Core.clearTask (c : Core) : Core :=
  { slot0 := c.slot0, slot1 := c.slot1, run := none, clearAt := c.clearAt, swapAt := c.swapAt, recs := c.recs, reserved := c.reserved, failed := c.failed,
    mcmask := c.mcmask, heatAcc := c.heatAcc, heatNow := c.heatNow, heatAdm := c.heatAdm, heatBud := c.heatBud, heatCeil := c.heatCeil }

/-- The core that runs the task of logical core `id` on package `pkg` in launch `group`: one whose task is not running has no event
counters (R26, R291). -/
def coreOfLaunch (part group pkg id : Nat) : Sp Core → Option Nat
  | [] => none
  | (k, c) :: rest =>
    let ok := fun (sl : Slot) => sl.live && decide (sl.part = part) && decide (sl.launch = group) && decide (sl.coreId.toNat = id)
    if pkgOf k = pkg ∧ c.run.isSome ∧ ok c.slot then some k else coreOfLaunch part group pkg id rest

/-- Drop, on one core, the lines of a span given by its memory keys. -/
def State.dropSpan (s : State) (core lo n : Nat) : State :=
  s.modCoreAt core fun c => { c with l1d := c.l1d.filter fun l => !overlaps lo n l }

/-- Memory keys of the span headed by token `head`: its region holds the unit. -/
def spanKeys (head units : Nat) : Sp (BitVec 512) → Option (Nat × Nat)
  | [] => none
  | (_, v) :: rest =>
    match decodeRegion v with
    | some r =>
      if r.token ≤ head ∧ head < r.token + (r.size + 65535) / 65536 then
        some (memKey r.pkg (r.base + (head - r.token) * 65536), units * 65536)
      else spanKeys head units rest
    | none => spanKeys head units rest

def Part.spanKeys (p : Part) (head : Nat) : Option (Nat × Nat) := Machine.spanKeys head (p.token head).units p.regions

/-- Change the head entry of a span. -/
def State.modToken (s : State) (part head : Nat) (f : Token → Token) : State :=
  s.modPartAt part fun p => { p with tokens := Sp.put p.tokens head (f (p.token head)) }

/-- A share is released at the home (R277): the last one gives EXCL back. -/
def Token.unshare (t : Token) : Token :=
  { t with shares := t.shares - 1, mode := if t.shares ≤ 1 ∧ t.mode = .sharedIssue then .excl else t.mode }

/-- What becomes of one span when core `me` of a launch fails (R280, taint) or halts (R281). -/
def settleToken (pkg id group : Nat) (failed : Bool) (t : Token) : Token :=
  let holder := decide (t.hpkg = pkg) && decide (t.hcore = id) && decide (t.hgroup = group) && !decide (t.mode = .parked)
  let lender := t.lvalid && decide (t.lpkg = pkg) && decide (t.lcore = id) && decide (t.lgroup = group)
  if holder then
    if t.lvalid then
      { t with hpkg := t.lpkg, hcore := t.lcore, hgroup := t.lgroup, lvalid := false, mode := .excl, gen := t.gen + 1,
               taint := t.taint || failed }
    else { t with mode := .parked, gen := t.gen + 1, taint := t.taint || failed }
  else if lender then { t with lvalid := false }
  else t

/-- Lenders whose lent spans come back when the holder `id` fails or halts. -/
def returning (pkg id group : Nat) : Sp Token → List (Nat × Nat × Nat)
  | [] => []
  | (_, t) :: rest =>
    if t.isHead ∧ t.hpkg = pkg ∧ t.hcore = id ∧ t.hgroup = group ∧ t.lvalid ∧ t.mode ≠ .parked then
      (t.lgroup, t.lpkg, t.lcore) :: returning pkg id group rest
    else returning pkg id group rest

/-- The share set of the task in slot `i`: its core's while it runs, the saved context's while it is SAVED (R401). -/
def Core.sharesOf (c : Core) (i : BitVec 1) : List Nat :=
  let sl := c.slotAt i
  if c.run = some i then c.shares
  else if sl.state = .saved then
    ((List.range 64).map fun j => leNat ((List.range 8).map fun b => Sp.get 0 sl.area (0x1A00 + 8 * j + b))).filter fun h => decide (h ≠ 0)
  else []

/-- Settle the spans of the task in slot `i` of core `k` (R280, R281): shares released, lent spans returned, held spans
parked, spans lent out left with their holders. -/
def State.settleSpans (s : State) (k : Nat) (i : BitVec 1) (failed : Bool) : State :=
  let sl := (s.coreAt k).slotAt i
  let id := sl.coreId.toNat
  let back := returning (pkgOf k) id sl.launch (s.partAt sl.part).tokens
  let s1 := ((s.coreAt k).sharesOf i).foldl (fun s h => s.modToken sl.part h Token.unshare) s
  let s2 := s1.modPartAt sl.part fun p =>
    { p with tokens := p.tokens.map fun x => if x.2.isHead then (x.1, settleToken (pkgOf k) id sl.launch failed x.2) else x }
  back.foldl (fun s x =>
    match coreOfLaunch sl.part x.1 x.2.1 x.2.2 s.cores with
    | some kk => s.tokenArrives kk
    | none => s) (s2.modCoreAt k fun c => if c.run = some i then { c with shares := [] } else c)

/-- Record how a task of a launch ended (R370): the first fault keeps its cause, KILLED stays. -/
def Launch.note (l : Launch) (status : BitVec 8) (cause : BitVec 16) : Launch :=
  if l.status = 0 ∧ status ≠ 0 then { l with status := status, cause := cause } else l

/-- The bind record in slot `i` of core `k` changes STATE (R369, R411): one whose CRC fails is treated as EMPTY and logged with the CRC
found, and the launch has lost it; else `go` makes the change. DEDUCED (log 30). -/
def State.checked (s : State) (k : Nat) (i : BitVec 1) (go : State → State) : State :=
  let sl := (s.coreAt k).slotAt i
  match sl.badCrc with
  | none => go s
  | some crc =>
    let e : MemError := { source := 8, uncorrectable := true, addr := word (k % 64 * 2 + i.toNat), phys := BitVec.ofNat 8 k, owner := 0,
                          syndrome := word crc.toNat }
    let s1 := (s.logDie (dieOf k) e false).modPartAt sl.part fun p =>
      { p with launches := p.launches.map fun l => if l.id = sl.launch then { l with lost := true } else l }
    s1.modCoreAt k fun c => (if c.run = some i then c.clearTask else c).modSlotAt i fun _ => {}

/-- End the task in slot `i` of core `k`: its record is ENDED and the launch notes STATUS and CAUSE (R369, R370). The clearing of the
cold store for the next task takes up to 256 cold cycles (R369). -/
def State.endTask (s : State) (k : Nat) (i : BitVec 1) (status : BitVec 8) (cause : BitVec 16) : State :=
  let sl := (s.coreAt k).slotAt i
  let (t, s0) := s.draw 255
  let s1 := s0.modPartAt sl.part fun p =>
    { p with launches := p.launches.map fun l => if l.id = sl.launch then l.note status cause else l }
  s1.checked k i fun s1 => s1.modCoreAt k fun c =>
    let c := if c.run = some i then { c.clearTask with clearAt := s.clock + 1 + t } else c
    c.modSlotAt i fun x => { x with state := .ended }

/-- Act as core `k`. -/
def State.onCore (s : State) (k : Nat) (f : State → State) : State := { f { s with cur := k } with cur := s.cur }

/-- End a task whose dirty lines the core writes home (R19), its spans settled as at a halt (R281). DEDUCED (log 30). -/
def State.endWritten (s : State) (k : Nat) (i : BitVec 1) (status : BitVec 8) (cause : BitVec 16) : State :=
  let s1 := if (s.coreAt k).run = some i then s.onCore k fun t => t.cleanLines t.warm fun _ => true else s
  (s1.settleSpans k i false).endTask k i status cause

/-! ## Errors in warm memory (R338) -/

/-- An error a reader meets in a line is logged in the bank of the die that owns its stack (R325, R412). DEDUCED (log 48). -/
def State.logLine (s : State) (line : Nat) : State :=
  let p := s.pkgAt (keyPkg (64 * line))
  let (syn, s1) := s.draw (2 ^ 64 - 1)
  s1.logDie (homeDie line)
    { source := if p.failed then 10 else if s.badDc.contains line then 1 else 0, uncorrectable := true, addr := word (64 * line % 2 ^ 40),
      phys := BitVec.ofNat 8 s.cur, owner := ownerTag (Sp.get 0 s.owners line), syndrome := if p.failed then 0 else word syn } false

/-- The context that last wrote cold granule `g` of the current core, as `owners` names it (R337). -/
def State.granOwner (s : State) (g : Nat) : Nat :=
  let w := Sp.get 0 s.core.cold.writers g
  if w = 0 then s.writer else w

/-- An error met in storage of the current core: source 2, 3, 5 or 6 of R413, logged in the bank of its die (R412), with the owner tag of
a cold granule. DEDUCED (log 48). -/
def State.logOwn (s : State) (source : Nat) (addr : Nat) : State :=
  let (syn, s1) := s.draw (2 ^ 64 - 1)
  s1.logDie (dieOf s.cur)
    { source := BitVec.ofNat 4 source, uncorrectable := true, addr := word addr, phys := BitVec.ofNat 8 s.cur,
      owner := if source = 2 then ownerTag (s.granOwner (addr / 32)) else 0, syndrome := word syn } false

/-- End the context an owner tag of the state names, if it still stands (R338): tag 0 names none. DESIGN CHOICE (log 24). -/
def State.endOwner (s : State) (w : Nat) : State :=
  let k := (w - 1) / 2
  let i := BitVec.ofNat 1 ((w - 1) % 2)
  if w = 0 ∨ !((s.coreAt k).slotAt i).live then s else s.endWritten k i 2 (BitVec.ofNat 16 (causeOf 1 0 0x1B))

/-- A reader meets an uncorrectable error in a line: it is logged, and under OWNER the context that last wrote the line ends (R338). -/
def State.meetBad (s : State) (line : Nat) : State :=
  let s1 := s.logLine line
  if (s.pkgAt (keyPkg (64 * line))).ownerMode (if s.badDc.contains line then 1 else 0) then s1.endOwner (Sp.get 0 s.owners line) else s1

/-- A reader meets an uncorrectable error, and goes on with `report` unless it was itself the context that ends (R338). -/
def State.metBad (s : State) (line : Nat) (report : State → State) : State :=
  let t := s.meetBad line
  if t.core.run.isNone ∧ s.core.run.isSome then t else report t

/-- The first line of the `n` bytes at home `key` that a reader meets an uncorrectable error in. -/
def State.badLine (s : State) (key n : Nat) : Option Nat :=
  ((List.range ((key % 64 + n + 63) / 64)).map (key / 64 + ·)).find? fun a => s.badAt (64 * a) 1

/-- Line `a` stands in the current core's L1 data cache. -/
def State.cached (s : State) (a : Nat) : Bool := s.core.l1d.any fun l => decide (l.addr = a)

/-- An access of the current core to line `a` through L1 meets an uncorrectable error (R336, R338): in the cached line, or in the home
line that has to be read. -/
def State.lineBad (s : State) (a : Nat) : Bool :=
  if s.cached a then s.core.badL1.contains a else s.badAt (64 * a) 1

/-- The current core meets the error `lineBad` tells of: it is logged, in its own die for a line of its L1 and in the home's die otherwise
(R412), and `report` says what comes of it. -/
def State.metLine (s : State) (a : Nat) (report : State → State) : State :=
  if s.cached a then report (s.logOwn 3 (64 * a % 2 ^ 40)) else s.metBad a report

/-- The first of the lines that hold `n` bytes at `key` whose access meets an uncorrectable error. -/
def State.badFill (s : State) (key n : Nat) : Option Nat :=
  ((List.range ((key % 64 + n + 63) / 64)).map (key / 64 + ·)).find? s.lineBad

/-! ## Taking a trap (R385 to R393) -/

/-- The word has issued and waits for its queue entry, or for the entry's outcome to reach it (R112): a `tsync`, or a `shpld` whose record
has not been refused. -/
def Wait.issued : Wait → Bool
  | .entry _ | .performed | .loaded _ => true
  | .none | .since _ | .fencing _ _ | .failed _ _ | .arrived | .departed _ | .voteFault | .asleep _ | .awake _ => false

/-- The PC of the first word a cluster has not issued (R385). -/
def Cluster.nextPc (c : Cluster) : Word :=
  if c.done then c.xfer.getD (c.pc + 16) else if c.wait.issued then c.pc + 16 else c.pc

/-- A cluster save area: 512 bytes of R389 that carry state. -/
def Cluster.save (c : Cluster) (left right : Fifo) : List Byte :=
  let regs := (List.range 32).flatMap fun n => leBytes 8 (c.rg n).toNat
  let ps := (if c.rp 0 then 1 else 0) + (if c.rp 1 then 2 else 0) + (if c.rp 2 then 4 else 0) + (if c.rp 3 then 8 else 0)
  let st := leBytes 8 (ps + (if c.split then 256 else 0) + c.joinId.toNat * 65536)
  let cs := ((List.range 7).flatMap fun n => leBytes 4 (c.rc n).toNat) ++ leBytes 4 0
  let lp := (List.range 4).flatMap fun i =>
    match c.loops[i]? with
    | some e => leBytes 8 e.remaining.toNat ++ leBytes 8 e.start.toNat ++ leBytes 8 e.stop.toNat ++ leBytes 8 e.id.toNat
    | none => leBytes 32 0
  let fs := fun (f : Fifo) => (List.range 4).flatMap fun i => leBytes 8 ((f.items[i]?.map fun x => x.2.toNat).getD 0)
  regs ++ st ++ cs ++ lp ++ fs left ++ fs right ++ leBytes 24 0

/-- An engine status word (R388). -/
def Engine.statusWord (x : Engine) (busy : Bool) : Nat :=
  let term := match x.armed with | some (n, _, _) => n * 2 ^ 40 + 2 ^ 39 | none => 0
  x.loops.length * 2 ^ 44 + term + (if busy then 2 ^ 38 else 0) + (if x.flt then 2 ^ 37 else 0) +
    (if x.run then 2 ^ 36 else 0) + x.base % 4096 * 2 ^ 12 + x.step % 4096

/-- The four ITER values of an engine, innermost first (R388). -/
def Engine.iters (x : Engine) : List Byte := (List.range 4).flatMap fun i => leBytes 2 ((x.loops[i]?.map (·.iter)).getD 0)

/-- The string as `cpseq` reads it (R313). -/
def Str.seqWord (t : Str) : Word := word ((if t.halt then 2 ^ 63 else 0) + t.stat.toNat * 2 ^ 56 + t.seq.toNat % 2 ^ 56)

/-- OEQSTAT (R31). -/
def Core.oeqstat (c : Core) : Word := word ((if c.oeqLost then 2 ^ 31 else 0) + c.oeq.length)

/-- Crossings and copy entries outstanding (R162). -/
def Core.outstanding (c : Core) : Nat := c.xings.length + (c.str.taken.filter fun t => !t.done).length

/-- The composite record (R388). -/
def State.record (s : State) (cause : Nat) (addr : Word) (fw : Nat) : List Byte :=
  let c := s.core
  let cs := lanes.map c.cluster
  let mark := match c.cold.mat.mark with | some m => m.step % 4096 * 2 ^ 36 + m.scnt % 2 ^ 32 | none => 0
  leBytes 8 cause ++ leBytes 8 addr.toNat ++ cs.flatMap (fun x => leBytes 8 x.nextPc.toNat) ++ leBytes 8 s.scnt ++
  cs.flatMap (fun x => leBytes 1 ((if x.split then 1 else 0) + (if x.atJoin then 2 else 0))) ++
  cs.flatMap (fun x => leBytes 1 x.joinId.toNat) ++
  leBytes 8 (c.lqIssued % 2 ^ 32 * 2 ^ 32 + c.lqDone % 2 ^ 32) ++ leBytes 8 (c.sqIssued % 2 ^ 32 * 2 ^ 32 + c.sqDone % 2 ^ 32) ++
  leBytes 8 (c.eqIssued % 2 ^ 32 * 2 ^ 32 + c.eqDone % 2 ^ 32) ++ leBytes 8 c.str.seqWord.toNat ++ leBytes 8 c.str.head.toNat ++
  (List.range 8).flatMap (fun i => leBytes 1 ((c.tokAt i).items.length + 16 * (c.portAt i).items.length)) ++
  leBytes 8 (c.cold.mat.statusWord false) ++ leBytes 8 (c.cold.vec.statusWord false) ++
  leBytes 8 (c.cold.tmp.statusWord c.cold.eval.isSome) ++ c.cold.mat.iters ++ c.cold.vec.iters ++ c.cold.tmp.iters ++
  leBytes 8 mark ++ leBytes 8 (c.oeqstat.toNat % 2 ^ 32 * 2 ^ 32 + c.cold.mdepth) ++
  leBytes 8 (c.outstanding % 2 ^ 32 * 2 ^ 32 + c.xseq % 2 ^ 32) ++ leBytes 8 (c.rstidx.toNat % 2 ^ 32 * 2 ^ 32) ++
  leBytes 64 fw

/-- TREC (R390): outside a handler it reads 0. DESIGN CHOICE (log 13). -/
def Core.trec (c : Core) : Word :=
  if !c.inHandler then 0 else if c.nested then 0xFFF0000000000100 else 0xFFF0000000000000

/-- Keep what the save area of a cluster does not hold. -/
def Core.keepSaved (c : Core) (k : Nat) (x : Cluster) : Core := { c with saved := Sp.put c.saved k x }

/-- The save areas of the four clusters, written at `base`. -/
def Core.saveClusters (c : Core) (base : Nat) : Core :=
  lanes.foldl (fun x l =>
    x.setArea (base + 1024 * laneIdx l) ((c.cluster l).save (c.portAt (leftIn l)) (c.portAt (rightIn l)))) c

/-- A cluster as a handler finds it (R390 step 4). -/
def handlerCluster (c : Core) (warm delay : Nat) (l : Lane) : Cluster :=
  let x : Cluster := { pc := c.tvec, readyAt := warm + 1 + delay }
  (x.wg 1 c.trec).wg 30 (word (0xFFF0000000000000 + 0x2400 + 0x700 * (laneIdx l + 1)))

/-- A result that arrives while a window is open: it completes the checkpoint's register that awaits it, and the
recorded result of a word issued since (R407). -/
def fillResult (l : Lane) (d : Nat) (v : Word) : List (Lane × Nat × Option Word) → List (Lane × Nat × Option Word)
  | [] => []
  | (l', d', none) :: rest => if l' = l ∧ d' = d then (l', d', some v) :: rest else (l', d', none) :: fillResult l d v rest
  | x :: rest => x :: fillResult l d v rest

def Core.fillWindow (c : Core) (l : Lane) (d : Nat) (v : Word) : Core :=
  { c with win := c.win.map fun w =>
      { w with
        clusters := (List.range w.clusters.length).map fun i =>
          let x := w.clusters.getD i {}
          if i = laneIdx l ∧ x.busy.contains (.g d, none) then
            { x.wg d v with busy := x.busy.filter fun b => !decide (b.1 = .g d) }
          else x,
        results := fillResult l d v w.results } }

/-- An event writes gD of a cluster of a core, for a word issued at `level`: available after `latency` warm cycles, or,
when the level stands interrupted, in its save area (R389). -/
def Core.fillG (c : Core) (level : Nat) (l : Lane) (d : Nat) (v : Word) (ready : Nat) : Core :=
  if level = c.level then
    (c.setCluster l (((c.cluster l).wg d v).setBusy (.g d) (some ready))).fillWindow l d v
  else if d = 0 ∨ c.level < level then c
  else
    let k := laneIdx l + 4 * level
    let x := Sp.get {} c.saved k
    (c.setArea ((if level = 0 then 0x400 else 0x1400) + 1024 * laneIdx l + 8 * d) (leBytes 8 v.toNat)).keepSaved k
      (x.setBusy (.g d) (some ready))

/-- Load data that has been read for the code that is stopped reaches its register before the state is saved. -/
def Core.settleLoads (c : Core) (warm : Nat) : Core :=
  let good := c.back.filter fun r => decide (r.level = c.level)
  good.foldl (fun x r => x.setCluster r.lane (((x.cluster r.lane).wg r.d r.value).setBusy (.g r.d) (some warm)))
    { c with back := c.back.filter fun r => !decide (r.level = c.level) }

/-- Each engine notes whether it had acted in this cold cycle (R387), or a return makes that cycle out to be the present one. -/
def Cold.noteCut (m : Cold) (clock : Nat) : Cold :=
  let f := fun (x : Engine) => { x with acted := decide (x.last = clock + 1) }
  { m with mat := f m.mat, vec := f m.vec, tmp := f m.tmp }

def Cold.noteReturn (m : Cold) (clock : Nat) : Cold :=
  let f := fun (x : Engine) => { x with last := if x.acted then clock + 1 else x.last, acted := false }
  { m with mat := f m.mat, vec := f m.vec, tmp := f m.tmp }

/-- Trap entry (R390, R392): the cut, the record, the save areas, the handler's clusters, TVEC. `slot` is the record
slot: 0 for a task, 1 for a nested fault. DEDUCED (log 42). -/
def State.enterHandler (s : State) (cause : Nat) (addr : Word) (fw : Nat) : State :=
  let nested := s.core.inHandler
  let (delay, s0) := (s.modCore fun c => c.settleLoads s.warm).draw 127
  let rec_ := s0.record cause addr fw
  s0.modCore fun c =>
    let c1 := c.setArea (if nested then 0x100 else 0) rec_
    let c2 := c1.saveClusters (if nested then 0x1400 else 0x400)
    let c3 := { c2 with
      saved := lanes.foldl (fun m l => Sp.put m (laneIdx l + if nested then 4 else 0) (c.cluster l)) c2.saved,
      tok := [], port := [], inHandler := true, nested := nested, tacked := nested, cutAt := if nested then c2.cutAt else s.scnt,
      cutNest := if nested then s.scnt else c2.cutNest, accHere := false,
      cold := if c.held then c.cold else c.cold.noteCut s.clock,
      win := none, replay := none, bar := none, halting := false, haltAt := if c2.halting then c2.level :: c2.haltAt else c2.haltAt }
    c3.modClusters fun l _ => handlerCluster c3 s.warm delay l

/-- A fault of the current core (R385, R391 to R393): the handler is entered, or a double fault ends the task. DEDUCED (log 42). -/
def State.takeTrap (s : State) (cause : Nat) (addr : Word) (fw : Nat) : State :=
  let c := s.core
  if c.inHandler ∧ (!c.tacked ∨ c.nested) then
    let s1 := (s.modCore fun c =>
      c.setArea 0x100 (s.record (cause / 256 * 256 + 0x1D) addr (cause % 256))).notify (pkgOf s.cur) (.doubleFault (BitVec.ofNat 8 s.cur))
    match c.run with
    | some i => (s1.settleSpans s.cur i true).endTask s.cur i 2 (BitVec.ofNat 16 (cause / 256 * 256 + 0x1D))
    | none => s1
  else s.enterHandler cause addr fw

/-- The word stored at a handle, as fetch reads it. -/
def State.wordAt (s : State) (h : Word) : Word32 :=
  match s.place h 4 with
  | some (.home _ key) => BitVec.ofNat 32 (leNat (s.bytes key 4))
  | some (.area off) => BitVec.ofNat 32 (s.core.areaNat off 4)
  | none => 0

/-- The queue entry a waiting word has placed goes with it. -/
def Core.dropWaited (c : Core) (w : Wait) (l : Lane) : Core :=
  match w with
  | .entry n =>
    let mine := fun (e : QEntry) => decide (e.seq = n) && decide (e.lane = l) &&
      (match e.op with | .tsync _ | .shpld _ _ => true | _ => false)
    let shp := c.lq.filterMap fun e => if mine e then (match e.op with | .shpld k _ => some k | _ => none) else none
    { c with lq := c.lq.filter fun e => !mine e, eq := c.eq.filter fun e => !mine e,
             shpBusy := c.shpBusy.filter fun x => !shp.contains x.1 }
  | _ => c

/-- The word of cluster `l` traps: neither it nor a word of its joined bundle has issued (R89, R385). -/
def Core.unissue (c : Core) (l : Lane) : Core :=
  let x := c.cluster l
  lanes.foldl (fun c k =>
    let y := c.cluster k
    if k = l ∨ (!x.split ∧ !y.split ∧ y.pc = x.pc ∧ !y.done) then (c.dropWaited y.wait k).setCluster k { y with wait := .none } else c) c

/-- The cluster whose word runs raises a trap of class word, or of the class R384 gives. -/
def State.raise (s0 : State) (code : Nat) (addr : Word) : State :=
  let s := s0.modCore fun c => c.unissue s0.lane
  -- STARTF is of class queue, unit 2, and SHADOW at issue of class queue, unit 1 (R384, R406)
  let cause := match code with
    | 0x15 => causeOf 1 2 code
    | 0x1C => causeOf 1 1 code
    | _ => causeOf 0 (laneIdx s.lane) code
  s.takeTrap cause addr (s.wordAt s.wordHandle).toNat

/-- A word-class trap of the cluster whose word runs; a MEMERR is logged (R338). -/
def State.wordTrap (s : State) (code : Nat) (addr : Word) : State :=
  if code = 0x1B then s.metLine addr.toNat fun t => t.raise code addr else s.raise code addr

/-! ## Returning from a trap (R396) -/

/-- An engine is stopped where it stands and holds nothing. -/
def Engine.abandon (x : Engine) : Engine :=
  { x with run := false, fill := 0, skip := 0, loops := [], start := [], armed := none, pulse := false, stop := false, flt := false,
           acted := false, opens := false }

/-- A cluster's `g`, `p` and `c` registers read back from a save area at `b` (R389). -/
def readRegs (rd : Nat → Nat → Nat) (b : Nat) (x : Cluster) : Cluster :=
  let x := (List.range 32).foldl (fun x n => x.wg n (word (rd (b + 8 * n) 8))) x
  let ps := rd (b + 0x100) 1
  let x := [1, 2, 3].foldl (fun x n => x.wp n (decide (ps / 2 ^ n % 2 = 1))) x
  (List.range 7).foldl (fun x n => x.wc n (BitVec.ofNat 32 (rd (b + 0x108 + 4 * n) 4))) x

/-- A cluster read back from its save area, with its PC and mode from the record slot at `rec_`. The limit of a `loop.p` iteration
(R132) counts anew from the return. A joined cluster whose word of the bundle was performed, and whose TPC the handler has left as it
was, goes on as having performed it; so does a cluster whose word has issued and waits for its queue entry. DESIGN CHOICE (log 41). -/
def Core.loadCluster (c : Core) (base rec_ : Nat) (old : Cluster) (warm : Nat) (l : Lane) : Cluster :=
  let b := base + 1024 * laneIdx l
  let tpc := word (c.areaNat (rec_ + 0x10 + 8 * laneIdx l) 8)
  let x := readRegs c.areaNat b { pc := tpc, readyAt := warm }
  let loops := (List.range 4).filterMap fun i =>
    let o := b + 0x128 + 32 * i
    let rem := word (c.areaNat o 8)
    if rem = 0 then none
    else
      let e : LoopEntry := old.loops[i]?.getD
        { remaining := rem, initial := rem, start := 0, stop := 0, id := 0, inst := 0, pre := false, began := warm, kill := none }
      some { e with remaining := rem, start := word (c.areaNat (o + 8) 8), stop := word (c.areaNat (o + 16) 8),
                      id := word (c.areaNat (o + 24) 8), began := warm }
  let y := { x with split := decide (c.areaNat (rec_ + 0x38 + laneIdx l) 1 % 2 = 1), loops := loops, busy := old.busy }
  if old.done ∧ !y.split ∧ tpc = old.nextPc then { y with pc := old.pc, done := true, xfer := old.xfer, sync := old.sync }
  else if old.wait.issued ∧ y.split = old.split ∧ tpc = old.nextPc then { y with pc := old.pc, wait := old.wait, since := some warm }
  else y

/-- The link-port FIFO `i` refilled from the save areas, as many values as the record counts (R388, R389). -/
def Core.loadPort (c : Core) (base rec_ i : Nat) : Fifo :=
  let n := c.areaNat (rec_ + 0x68 + i) 1 / 16
  -- a rightward FIFO arrives from the left at the cluster after its link, a leftward one from the right at the cluster before
  let off := if i % 2 = 0 then base + 1024 * ((i / 2 + 1) % 4) + 0x1A8 else base + 1024 * (i / 2) + 0x1C8
  { items := (List.range n).map fun k => (0, word (c.areaNat (off + 8 * k) 8)) }

def Core.loadTok (c : Core) (rec_ i : Nat) : Fifo :=
  { items := List.replicate (c.areaNat (rec_ + 0x68 + i) 1 % 16) (0, 0) }

/-- Clusters and FIFOs as the record slot and save area hold them. -/
def Core.restore (c : Core) (base rec_ warm : Nat) (nestedAt : Nat) : Core :=
  let c1 := { c with
    tok := (List.range 8).foldl (fun m i => Sp.put m i (c.loadTok rec_ i)) [],
    port := (List.range 8).foldl (fun m i => Sp.put m i (c.loadPort base rec_ i)) [] }
  c1.modClusters fun l _ => c.loadCluster base rec_ (Sp.get {} c.saved (laneIdx l + nestedAt)) warm l

/-- Shift every stamp still pending of the code at `level`, and its tables' starts if the engines hold them, by H cold cycles
(R387). A held table's next step comes H cycles late of itself, by `Cold.noteReturn`. DEDUCED (log 41). -/
def Core.shift (c : Core) (level h : Nat) (tables : Bool) : Core :=
  let up := fun (e : QEntry) =>
    if e.level = level then
      match e.op with
      | .tstart n t => { e with op := .tstart n (t + h) }
      | _ => e
    else e
  let st := fun (x : Engine) => { x with start := x.start.map fun (y : Nat × Nat × Word) => (y.1 + h, y.2.1, y.2.2) }
  { c with eq := c.eq.map up, owed := if level = 0 then { c.owed with fires := c.owed.fires.map fun f => (f.1, f.2 + h) } else c.owed, xings := c.xings.map fun x => if x.level = level then { x with stamp := x.stamp + h } else x,
           cold := if tables then { c.cold with mat := st c.cold.mat, vec := st c.cold.vec, tmp := st c.cold.tmp } else c.cold }

/-- An entry of a handler that returns to `level`: it is performed with those of the code it returns to, and its register is
gone. -/
def QEntry.leave (level : Nat) (e : QEntry) : Option QEntry :=
  if e.level ≤ level then some e
  else match e.op with
    | .load _ _ _ _ | .xget _ _ _ => none
    | .atom id _ => some { e with level := level, op := .atom id 0 }
    | _ => some { e with level := level }

/-- What a handler leaves behind when it returns to the code at `level`. DEDUCED (log 41). -/
def Core.leave (c : Core) (level : Nat) : Core :=
  { c with
    lq := c.lq.filterMap (QEntry.leave level), sq := c.sq.filterMap (QEntry.leave level), eq := c.eq.filterMap (QEntry.leave level),
    back := c.back.filter fun r => decide (r.level ≤ level),
    xings := c.xings.map fun (x : Crossing) => { x with level := min x.level level },
    atoms := c.atoms.map fun (x : Atom) => if x.level ≤ level then x else { x with level := level, d := 0 },
    sends := c.sends.map fun (x : Send) => if x.level ≤ level then x else { x with level := level, d := 0 } }

/-- The restart table of the running task names the bundle (R398). -/
def State.restartOk (s : State) : Bool :=
  let sl := s.core.slot
  let t := sl.rsttab
  match s.locate sl.part t 8 with
  | some (r, key) =>
    let n := leNat (s.bytes key 8)
    -- entries past the end of the region name nothing
    (List.range (min n (r.size / 8))).any fun i =>
      match s.locate sl.part (t + word (8 + 8 * i)) 8 with
      | some (_, k) => decide (leNat (s.bytes k 8) = s.core.rstlbl.toNat)
      | none => false
  | none => false

/-- All four clusters JOINED at RSTLBL (R154, R401). -/
def Core.toRestart (c : Core) (warm : Nat) (keep : Bool) : Core :=
  c.modClusters fun _ x =>
    if keep then { pc := c.rstlbl, g := x.g, p := x.p, c := x.c, readyAt := warm }
    else { pc := c.rstlbl, readyAt := warm }

/-- A resumption at RSTLBL whose label the restart table does not name ends the task (R398). -/
def State.restartOrEnd (s : State) : State :=
  if s.restartOk then s
  else match s.core.run with
    | some i => s.endWritten s.cur i 2 0x001E
    | none => s

/-- Return from a handler (R154, R392, R396, R403). -/
def State.trapReturn (s : State) : State :=
  let c := s.core
  if c.nested then
    s.modCore fun c =>
      let c1 := ((c.restore 0x1400 0x100 s.warm 4).shift 1 (s.scnt - c.cutNest) (c.accLost && !c.accHere)).leave 1
      { c1 with
        cold := if c.accLost ∧ !c.accHere then c1.cold.noteReturn s.clock else c1.cold,
        nested := false, tacked := true, accHere := false, halting := c.haltAt.contains 1, haltAt := c.haltAt.erase 1 }
  else if c.accLost then
    (s.modCore fun c =>
      let c1 := ((c.restore 0x400 0 s.warm 0).leave 0).toRestart s.warm true
      let c1 := engines.foldl (fun c e => c.modEngine e Engine.abandon) c1
      { c1 with
        inHandler := false, tacked := false, late := false, accLost := false, emulate := false, substAt := none, tok := [], port := [],
        lq := [], eq := [],
        xings := (c.leave 0).xings.filter fun x => x.admitted || decide (x.kind = 2),
        shpBusy := [], haltAt := [], trapNext := [], halting := false }).restartOrEnd
  else
    s.modCore fun c =>
      let c1 := ((c.restore 0x400 0 s.warm 0).shift 0 (s.scnt - c.cutAt) true).leave 0
      { c1 with
        cold := c1.cold.noteReturn s.clock,
        inHandler := false, tacked := false, late := false, halting := c.haltAt.contains 0, haltAt := [],
        substAt := if c.emulate then some (word (c.areaNat 8 8)) else none }

/-! ## The frame of a control word (R74, R75, R112, R113) -/

/-- The word of this cluster cannot issue in this warm cycle. -/
def State.waitAtIssue (s : State) : State :=
  s.modCl fun c => { c with since := some (c.since.getD s.warm) }

/-- A loop entry's iteration index (R128). -/
def LoopEntry.index (e : LoopEntry) : Nat := e.initial.toNat - e.remaining.toNat

/-- The loop entries of a cluster at its end bundle (R128, R131, R399), innermost first: where the cluster goes and whether a
group loop sends it there (R129), the entries left, and the ids whose preemptible loop was left for a stop request. -/
def endLoops (here : Word) (warm : Nat) (stop : Bool) : List LoopEntry → Option (Word × Bool) × List LoopEntry × List Word
  | [] => (none, [], [])
  | e :: rest =>
    if e.stop ≠ here then
      let (t, r, ids) := endLoops here warm stop rest
      (t, e :: r, ids)
    else if 1 < e.remaining.toNat ∧ !e.last ∧ !(e.pre && stop) then
      (some (e.start, e.group), { e with remaining := e.remaining - 1, began := warm } :: rest, [])
    else
      let (t, r, ids) := endLoops here warm stop rest
      (t, r, if e.pre ∧ stop ∧ 1 < e.remaining.toNat then e.id :: ids else ids)

/-- Every cluster that holds an entry with one of these ids ends that loop at its next end bundle (R399). -/
def Core.endIds (c : Core) (ids : List Word) : Core :=
  c.modClusters fun _ x => { x with loops := x.loops.map fun e => if ids.contains e.id then { e with last := true } else e }

/-- A request for a stop point is in force: one that comes while a handler runs waits until its `tret`, and one
that comes during a replay until the replay ends (R395, R399, R410). -/
def Core.stopping (c : Core) : Bool := c.preempt.isSome && !c.inHandler && c.replay.isNone

/-- A request is pending for the engines' loops (R221, R256): one that waits for a `tret` or the end of a replay is not. -/
def Core.exiting (c : Core) : Bool := c.preempt.isSome && !c.late

/-- Move a cluster that runs on its own past its word: its transfer, its loop back, or the next bundle (R75, R115). -/
def State.advance (s : State) (target : Option Word) : State :=
  let c := s.core
  match target with
  | some t => s.modCl fun x => { x with pc := t, readyAt := s.warm + 2, since := none, wait := .none }
  | none =>
    let (t, ls, ids) := endLoops s.cl.pc s.warm c.stopping s.cl.loops
    (s.modCl fun x => { x with pc := (t.map (·.1)).getD (x.pc + 16), loops := ls, readyAt := s.warm + 1, since := none, wait := .none }).modCore
      fun c => if ids.isEmpty then c else c.endIds ids

/-- A word has been performed (R74, R75): a cluster on its own goes on; a cluster of the joined group keeps what its
word decided until the bundle is through. -/
def State.finish (s : State) (sy : BitVec 1) (target : Option Word) : State :=
  if s.cl.split then s.advance target
  else s.modCl fun x => { x with done := true, xfer := target, sync := decide (sy = 1), since := none, wait := .none }

/-- A word has begun a wait it issues by (R112). -/
def State.beginWait (s : State) (w : Wait) : State :=
  s.modCl fun x => { x with wait := w, since := some (x.since.getD s.warm) }

/-- The registers a word reads and writes are there (R112). -/
def State.regsReady (s : State) (rd wr : List RegRef) : Bool := !(rd ++ wr).any (s.cl.isBusy s.warm)

/-- A word that only starts its wait has issued nothing: its tokens stand (R85, R283, R286). One that waits for a queue entry of
its own has issued with that entry (R112). -/
def State.untaken (s t : State) (w : Wait) : State :=
  match w with
  | .entry _ => t
  | _ => t.modCore fun c => { c with tok := s.core.tok }

/-- A control word: registers, tokens and room first, then what the word does (R112). -/
def control (sy : BitVec 1) (dep : BitVec 4) (rd wr : List RegRef) (s : State) (perform : State → Perform) : Out :=
  if s.regsReady rd wr ∧ s.depsReady dep then
    match perform (s.takeDeps dep) with
    | .done t => .next (t.finish sy none)
    | .jump t a => .next (t.finish sy (some a))
    | .start t w => .next ((s.untaken t w).beginWait w)
    | .hold t => .next { s with cores := s.cores, dies := t.dies, drawn := t.drawn }.waitAtIssue
    | .trap code addr => .next (s.wordTrap code addr)
  else .next s.waitAtIssue

/-- A word whose wait has been started goes on with it. The tokens `dep` names are taken as it issues (R85). -/
def waiting (sy : BitVec 1) (dep : BitVec 4) (s : State) (go : State → Perform) : Out :=
  match go (s.takeDeps dep) with
  | .done t => .next (t.finish sy none)
  | .jump t a => .next (t.finish sy (some a))
  | .start t w => .next ((s.untaken t w).modCl fun x => { x with wait := w })
  | .hold t => .next (s.untaken t .none)
  | .trap code addr => .next (s.wordTrap code addr)

end Sys2Proof.Machine
end

