-- ==== Sys2Proof/Machine/Shadow.lean ====
section
/-! DEFINITION. Error banks (R413, R414), error injection (R420, R421), the comparison of the shadow core and its
mismatches (R405, R406), and replay windows (R407 to R410). -/

namespace Sys2Proof.Machine

/-! ## Error banks -/

/-- The four words of a bank's record (R413). -/
def ErrBank.words (b : ErrBank) : List Word :=
  match b.record with
  | none => [0, 0, 0, 0]
  | some e =>
    [word (2 ^ 63 + (if e.uncorrectable then 2 ^ 62 else 0) + (if b.ovf then 2 ^ 61 else 0) + (if b.margin then 2 ^ 60 else 0) +
        e.source.toNat * 2 ^ 56 + b.ueCount * 2 ^ 32 + b.ceCount * 2 ^ 16),
     e.addr,
     word (e.phys.toNat * 2 ^ 56 + e.owner.toNat * 2 ^ 44 + b.stamp.toNat),
     e.syndrome]

/-! ## Injection (R420, R421) -/

def Core.injTgt (c : Core) : Nat := bits c.inj 60 3
def Core.injLoc (c : Core) : Nat := bits c.inj 32 19
def Core.injBit (c : Core) : Nat := bits c.inj 0 5

/-- An injection of this target is pending. -/
def Core.armedInj (c : Core) (tgt : Nat) : Bool := c.inj.getLsbD 63 && decide (c.injTgt = tgt)

/-- The injection has acted: ARM clears. -/
def Core.disarm (c : Core) : Core := { c with inj := c.inj &&& 0x7FFFFFFFFFFFFFFF }

/-- A write of INJ that R420 does not ignore. -/
def injOk (v : Word) : Bool :=
  let tgt := bits v 60 3
  let loc := bits v 32 19
  decide (tgt ≤ 3) && decide (bits v 51 9 = 0) && decide (bits v 5 27 = 0) &&
  (if tgt = 0 then decide (loc / 2 ^ 9 % 16 = 0)
   else if tgt = 3 then decide (loc = 0) else true) &&
  (if tgt = 1 ∨ tgt = 2 then decide (bits v 0 5 < 8) else true)

/-- Accumulator tiles return to their task-start state (R195). -/
def Cold.resetTile (m : Cold) (t : Nat) : Cold :=
  { m with acc := m.acc.filter fun x => !decide (x.1 / 289 = t), tile := m.tile.filter fun x => !decide (x.1 = t) }

def Core.resetTile (c : Core) (t : Nat) : Core :=
  { c with badAcc := c.badAcc.filter fun a => !decide (a / 512 = t) }.modCold fun m => m.resetTile t

/-- A handler's first engine command (R394), and a nested handler's: held tables, armed terms and the unperformed commands
of the code it interrupted are gone, and the accumulator tiles are as at task start. -/
def Core.loseAcc (c : Core) : Core :=
  if c.inHandler ∧ !(if c.nested then c.accHere else c.accLost) then
    let c1 := engines.foldl (fun c e => c.modEngine e Engine.abandon)
      { c with accLost := true, accHere := c.nested, owed := {}, eq := c.eq.filter fun e => !decide (e.level < c.level) }
    (List.range c.slot.atiles.toNat).foldl Core.resetTile c1
  else c

/-- Place an entry in the engine command queue. -/
def State.command (s : State) (op : QOp) : State := (s.modCore Core.loseAcc).enqueue .engine op

/-! ## Replay (R407 to R410) -/

/-- The window is being gone through again and has yet to meet the `mtile` that opened it. -/
def Core.reopens (c : Core) : Bool :=
  match c.win with
  | some w => w.again
  | none => false

/-- Open a window at the present cold cycle: the checkpoint, and the marker of the engine that opens it (R407), by an `mtile` or by
the first step of a table. The `mtile` of a window that is gone through again does not open it again. -/
def State.openWindow (s : State) (e : EngineId) (m : Mark) (tile : Bool) : State :=
  let c := s.core
  if tile ∧ c.reopens then s.modCore fun c => { c with win := c.win.map fun w => { w with again := false } }
  else if c.replay.isSome ∨ c.inHandler then s
  else
    let w : Window :=
      { clusters := lanes.map c.cluster, tok := c.tok, port := c.port, lqAt := c.lqIssued, sqAt := c.sqIssued,
        eqAt := c.eqIssued, xseqAt := c.xseq, opener := e, mark := m, clock := s.clock, eqHeld := c.eq,
        engs := [c.cold.mat, c.cold.vec, c.cold.tmp], tile := tile }
    s.modCore fun c => { c with win := some w }

/-- The orders that issue now are those of a replayed window (R55, R56). -/
def Core.rerun (c : Core) : Bool :=
  c.replay.isSome || (match c.win with | some w => w.replayed | none => false)

/-- The open window notes the tiles written since its opening (R409). -/
def Core.noteTile (c : Core) (t : Nat) : Core :=
  { c with win := c.win.map fun w => { w with tiles := if w.tiles.contains t then w.tiles else t :: w.tiles } }

/-- The core stands at a cut or replays: drains and atoms to it are discarded, a multicast to it fails (R387, R409). -/
def Core.cutOff (c : Core) : Bool := c.held || c.replay.isSome

/-- The starts that terms of an engine fired since the opening, as a replay `h` cold cycles after the marker repeats them. -/
def Window.firesOf (w : Window) (h : Nat) (e : EngineId) : List (Nat × Nat) :=
  (w.fires.filter fun f => decide (f.1 = engineIdx e)).map fun f => (f.1, f.2 + h - w.shifted)

/-- A term of the engine was armed at the opening. -/
def Window.wasArmed (w : Window) (e : EngineId) : Bool := (w.engs.getD (engineIdx e) {}).armed.isSome

/-- An engine as a replay of window `w` finds it, `h` cold cycles on (R409). The opener resumes at the marker. An engine whose table
began before the opening goes on; a later table is gone, and one whose start, or term, was there at the opening begins again. -/
def Window.engine (w : Window) (h wait clock : Nat) (e : EngineId) (x : Engine) : Engine :=
  let x0 := w.engs.getD (engineIdx e) {}
  let starts := x0.start.map fun y => (y.1 + h, y.2.1, y.2.2)
  if e = w.opener then
    { x with base := x0.base, run := true, step := w.mark.step, loops := w.mark.loops, fill := wait, skip := 0, stop := false, pulse := x0.pulse,
             start := starts, armed := x0.armed, opens := false }
  else
    let y := if x.tables = x0.tables then x else { x.abandon with pulse := x0.pulse }
    match x0.armed, w.firesOf h e with
    | some a, f :: _ => { y with base := x0.base, start := starts ++ [(f.2, clock, a.2.2)], armed := none }
    | _, _ => { y with base := x0.base, start := starts, armed := x0.armed }

/-- The accumulator tile a write that has not landed goes to. -/
def LandOp.tile : LandOp → Option Nat
  | .acc t _ _ _ => some t
  | .accPart t _ _ => some t
  | .vstacc t _ _ => some t
  | _ => none

/-- The engine command queue as a replay of window `w` finds it (R409): of what stood there at the opening, what stands there still, and
what has bound an engine since, with stamps `h` later. -/
def Window.commands (w : Window) (h : Nat) (eq : List QEntry) : List QEntry :=
  (w.eqHeld.filter fun e => eq.any (fun x => decide (x.seq = e.seq)) ||
    (match e.op with | .tstart _ _ | .tstartEv _ _ | .tstop _ | .tbase _ _ => true | _ => false)).map fun e =>
    match e.op with
    | .tstart n t => { e with op := .tstart n (t + h) }
    | _ => e

/-- A write of the stopped core lands during a replay: one to a tile, which has returned to its task-start state, only enters its
event (R54, R385, R409). -/
def Landing.replayed (l : Landing) : Option Landing :=
  match l.op.tile with
  | none => some l
  | some _ => if l.event.isSome then some { l with writes := [], op := .cold [] [] } else none

/-- The clusters as the shadow core's copy stands six warm cycles behind (R404), or as they stand. -/
def Core.shadowClusters (c : Core) : List Cluster := (c.trail.getLast?).getD (lanes.map c.cluster)

/-- What a replay of window `w` owes: what the window did, and what an earlier replay of it still owed (R409). -/
def Window.owes (w : Window) (h : Nat) (o : Owed) : Owed :=
  { results := w.results ++ o.results, drains := w.drains + o.drains, pulses := w.pulses ++ o.pulses,
    fires := (engines.flatMap fun e => (w.firesOf h e).drop (if w.wasArmed e then 1 else 0)) ++ o.fires.map fun f => (f.1, f.2 + h - w.shifted) }

/-- The window as a replay run goes through it again. -/
def Window.rerun (w : Window) (h : Nat) : Window :=
  { w with results := [], tiles := [], drains := 0, pulses := [], words := [], replayed := true, again := w.tile, shifted := h,
           fires := engines.flatMap fun e => (w.firesOf h e).take (if w.wasArmed e then 1 else 0) }

/-- Replay of the open window (R409), started at an entry or at a word. Orders already issued land, before the tiles they write return to
their task-start state. DESIGN CHOICE (log 50). -/
def State.startReplay (s : State) (w : Window) (stopAt : Option (QueueId × Nat)) (atWord : Bool) : State :=
  let wait := Config.coldPerWarm - s.clock % Config.coldPerWarm + w.clock % Config.coldPerWarm
  let h := s.scnt + wait - w.mark.scnt
  s.modCore fun c =>
    let keep := fun (n : Nat) (es : List QEntry) => es.filter fun e => decide (e.seq ≤ n)
    let l := laneIdx s.lane
    let r : Replay := { lqTo := c.performedTo .load, sqTo := c.performedTo .store, eqTo := c.performedTo .engine, shift := h, stopAt := stopAt,
                        words := if atWord then Sp.put w.words l (Sp.get 0 w.words l + 1) else w.words }
    let lq := keep w.lqAt c.lq
    let sq := keep w.sqAt c.sq
    let eq := w.commands h c.eq
    let live := fun (x : Crossing) => x.admitted || (lq ++ sq).any fun e => decide (e.op = .crossing x.seq)
    let c1 : Core := { c with
      lq := lq, sq := sq, eq := eq, lqIssued := w.lqAt, sqIssued := w.sqAt, eqIssued := w.eqAt, xseq := w.xseqAt,
      lqDone := min c.lqDone w.lqAt, sqDone := min c.sqDone w.sqAt, eqDone := (match eq with | e :: _ => e.seq - 1 | [] => w.eqAt),
      back := c.back.filter fun b => decide (b.seq ≤ w.lqAt),
      xings := (c.xings.filter live).map fun x => { x with stamp := x.stamp + h - w.shifted },
      tok := w.tok, port := w.port, replay := some r, owed := w.owes h c.owed, trail := [], win := some (w.rerun h) }
    let c2 := c1.modClusters fun l _ =>
      { w.clusters.getD (laneIdx l) {} with readyAt := s.warm + 1, since := none, wait := .none, done := false }
    let tiles := w.tiles ++ c.cold.pend.filterMap fun l => l.op.tile
    let c3 := tiles.foldl Core.resetTile (c2.modCold fun m => { m with pend := m.pend.filterMap Landing.replayed })
    let c4 := engines.foldl (fun c e => c.modEngine e (w.engine h wait s.clock e)) c3
    c4.modCold fun m => { m with msel := w.mark.msel }

/-- The two copies of a compared item differ (R406): a replay, or SHADOW. `unit` is the queue, or 1 for a word compared at
issue; `entry` is the queue entry, if it is one. -/
def State.mismatch (s : State) (unit : Nat) (h : Word) (fw : Nat) (entry : Option (QueueId × Nat)) : State :=
  let s1 := s.modCore Core.disarm
  let e : MemError := { source := 9, uncorrectable := true, addr := h, phys := BitVec.ofNat 8 s.cur, owner := 0, syndrome := word unit }
  match s.core.win, s.core.replay with
  | some w, none => (s1.logDie (dieOf s.cur) { e with uncorrectable := false } false).startReplay w entry entry.isNone
  | _, _ => (s1.logDie (dieOf s.cur) e false).takeTrap (causeOf 1 unit 0x1C) h fw

/-- The next comparison of the core will find a mismatch. DEDUCED (log 49). -/
def Core.willMismatch (c : Core) : Bool := c.armedInj 3

/-- A word that waits at issue by definition (R112): it is performed in a later warm cycle than the one its wait starts in.
`start` is what the start of the wait does. -/
def awaited (sy : BitVec 1) (dep : BitVec 4) (rd wr : List RegRef) (s : State) (start : State → State) (perform : State → Perform) : Out :=
  match s.cl.wait with
  | .since w => if w < s.warm then control sy dep rd wr s perform else .next s
  | _ => if s.regsReady rd wr ∧ s.depsReady dep then .next ((start s).beginWait (.since s.warm)) else .next s.waitAtIssue

/-- The open window counts a word compared at issue that is performed. -/
def State.countWord (s : State) : State :=
  s.modCore fun c => { c with win := c.win.map fun w => { w with words := Sp.put w.words (laneIdx s.lane) (Sp.get 0 w.words (laneIdx s.lane) + 1) } }

/-- `f` after a word that is performed, or whose wait begins. -/
def Perform.mapDone (f : State → State) : Perform → Perform
  | .done t => .done (f t)
  | .jump t a => .jump (f t) a
  | .start t w => .start (f t) w
  | .hold t => .hold t
  | .trap code addr => .trap code addr

/-- A word compared at issue (R405): it waits for the shadow core's copy, six warm cycles behind; then it is performed, or
the copies differ. -/
def compared (sy : BitVec 1) (dep : BitVec 4) (rd wr : List RegRef) (s : State) (perform : State → Perform)
    (start : State → State := fun s => s) : Out :=
  match s.cl.wait with
  | .since w =>
    if s.warm < w + 6 then .next s
    else if s.core.willMismatch then .next (s.mismatch 1 s.wordHandle (s.wordAt s.wordHandle).toNat none)
    else control sy dep rd wr s fun s => (perform s).mapDone State.countWord
  | _ => if s.regsReady rd wr ∧ s.depsReady dep then .next ((start s).beginWait (.since s.warm)) else .next s.waitAtIssue

/-- Entry `seq` of a queue was performed before the replay run began: it is compared, not performed again (R409). -/
def Core.replays (c : Core) (q : QueueId) (seq : Nat) : Bool :=
  match c.replay with
  | some r =>
    match q with
    | .load => decide (seq ≤ r.lqTo)
    | .store => decide (seq ≤ r.sqTo)
    | _ => false
  | none => false

/-- The value a retained entry returned, if it has. -/
def Core.retainedValue (c : Core) (q : QueueId) (seq : Nat) : Option Word :=
  match c.win with
  | some w => match w.retained.find? fun r => decide (r.queue = q ∧ r.seq = seq) with
    | some ⟨_, _, v⟩ => v
    | none => none
  | none => none

def Core.retained (c : Core) (q : QueueId) (seq : Nat) : Word := (c.retainedValue q seq).getD 0

/-- The entry issued next to a queue was performed before the replay run began. -/
def Core.reissues (c : Core) (q : QueueId) : Bool := c.replays q (c.issued q + 1)

/-- The replay run has passed every entry and compared word of before it, and the one it started at: the core runs on normally (R409,
step 6). A window closed meanwhile is gone. -/
def Core.endReplay (c : Core) : Core :=
  match c.replay with
  | none => c
  | some r =>
    let past := fun (q : QueueId) (n : Nat) => decide (n ≤ c.issued q) && !(c.queue q).any fun e => decide (e.seq ≤ n)
    let words : Bool := match c.win with
      | some w => r.words.all fun x => decide (x.2 ≤ Sp.get 0 w.words x.1)
      | none => true
    if past .load r.lqTo ∧ past .store r.sqTo ∧ past .engine r.eqTo ∧ (r.stopAt.all fun x => past x.1 x.2) ∧ words then
      { c with replay := none, late := false, win := c.win.filter fun w => !w.shut }
    else c

/-- What the code that runs owes (R409): a handler owes nothing. -/
def Core.owes (c : Core) : Owed := if c.inHandler then {} else c.owed

/-- The result the run of a window gave an earlier word of this cluster, if a replay run still has one for it. -/
def State.recall (s : State) : Option (Nat × Option Word) :=
  (s.core.owes.results.find? fun x => decide (x.1 = s.lane)).map (·.2)

/-- Drop the first result of a lane. -/
def dropResult (l : Lane) : List (Lane × Nat × Option Word) → List (Lane × Nat × Option Word)
  | [] => []
  | x :: rest => if x.1 = l then rest else x :: dropResult l rest

/-- An open window records the result of a word that enters no queue (R407). -/
def State.recordResult (s : State) (d : Nat) (v : Option Word) : State :=
  s.modCore fun c => { c with win := c.win.map fun w => { w with results := w.results ++ [(s.lane, d, v)] } }

/-- Take the recorded result in place of the word's effect (R409). -/
def State.takeRecalled (s : State) (d : BitVec 5) (v : Option Word) : State :=
  let s1 := s.modCore fun c => { c with owed := { c.owed with results := dropResult s.lane c.owed.results } }
  let s2 := s1.recordResult d.toNat v
  match v with
  | some x => s2.writeG d x 1
  | none => s2.awaitG d

/-- A word whose result a replay run takes from the record of the window's first run (R409). -/
def recalled (d : BitVec 5) (s : State) (go : State → Perform) : Perform :=
  match s.recall with
  | some (_, v) => .done (s.takeRecalled d v)
  | none => go s

/-- The word is done and its result is recorded. -/
def doneWith (s : State) (d : BitVec 5) (v : Word) (latency : Nat) : Perform :=
  .done ((s.recordResult d.toNat (some v)).writeG d v latency)

/-- A pulse of the core's own orders or `evsig`: one that took place before a replay is not repeated (R409). -/
def State.ownPulse (s : State) (n : Nat) : State :=
  let s1 := s.modCore fun c => { c with win := c.win.map fun w => { w with pulses := w.pulses ++ [n] } }
  if s.core.owes.pulses.contains n then s1.modCore fun c => { c with owed := { c.owed with pulses := c.owed.pulses.erase n } }
  else s1.pulse s.cur n

/-- The start that a term of engine `e` fired before a replay, if the engine is owed one (R409). -/
def Core.owedFire (c : Core) (e : EngineId) : Option Nat := (c.owes.fires.find? fun f => decide (f.1 = engineIdx e)).map (·.2)

end Sys2Proof.Machine
end

