-- ==== Sys2Proof/Machine/Flags.lean ====
section
/-! DEFINITION. Conditions and predicates of the control words (R82, R121, R122) and the 0 or 1 results of comparisons. -/

namespace Sys2Proof.Machine

/-- The condition of `pcmp` and `pcmpi` (R82, R121): 0 eq, 1 ne, 2 lt, 3 ge, 4 ltu, 5 geu. -/
def condition (c : BitVec 3) (a b : Word) : Bool :=
  match c with
  | 0#3 => decide (a = b)
  | 1#3 => !decide (a = b)
  | 2#3 => a.slt b
  | 3#3 => !a.slt b
  | 4#3 => a.ult b
  | _ => !a.ult b

/-- A truth value as a register value. -/
def flag (b : Bool) : Word := if b then 1 else 0

/-- Whether `br` and `lexit` are taken (R82, R125): p xor N. -/
def taken (p : Bool) (n : BitVec 1) : Bool := p != decide (n = 1)

end Sys2Proof.Machine
end

