-- ==== Sys2Proof/Machine/Operands.lean ====
section
/-! DEFINITION. Operand forms: registers by field, immediates (R78, R79), access sizes (R78), and the shared frames of
words with the same operand shape. -/

namespace Sys2Proof.Machine

/-- A field that names a g, p or c register. -/
def gR (n : BitVec 5) : RegRef := .g n.toNat
def pR (n : BitVec 2) : RegRef := .p n.toNat
def cR (n : BitVec 3) : RegRef := .c n.toNat

/-- PC + sext(offset) × 16 (R79). -/
def bundleAt {w : Nat} (pc : Word) (o : BitVec w) : Word := pc + sext o * 16

/-- Bytes of an access by SZ (R78). -/
def sizeOf (z : BitVec 3) : Nat :=
  match z with
  | 0#3 | 4#3 => 1
  | 1#3 | 5#3 => 2
  | 2#3 | 6#3 => 4
  | _ => 8

/-- The loaded value by SZ (R78): 000 to 010 sign-extended, 100 to 110 zero-extended, 011 as is. -/
def extend (z : BitVec 3) (v : Nat) : Word :=
  match z with
  | 0#3 => sext (BitVec.ofNat 8 v)
  | 1#3 => sext (BitVec.ofNat 16 v)
  | 2#3 => sext (BitVec.ofNat 32 v)
  | 3#3 => word v
  | 4#3 => word (v % 2 ^ 8)
  | 5#3 => word (v % 2 ^ 16)
  | _ => word (v % 2 ^ 32)

/-- W(): bits [31:0] sign-extended (R117). -/
def lowWord (v : Word) : Word := sext (v.truncate 32)

/-- A word that computes gD from gA and gB. -/
def word3 (sy : BitVec 1) (d a b : BitVec 5) (latency : Nat) (f : Word → Word → Word) (s : State) : Out :=
  control sy 0 [gR a, gR b] [gR d] s fun s => .done (s.writeG d (f (s.g a) (s.g b)) latency)

/-- A word that computes gD from gA. -/
def word2 (sy : BitVec 1) (d a : BitVec 5) (latency : Nat) (f : Word → Word) (s : State) : Out :=
  control sy 0 [gR a] [gR d] s fun s => .done (s.writeG d (f (s.g a)) latency)

/-- A word that computes gD from no register. -/
def word1 (sy : BitVec 1) (d : BitVec 5) (f : State → Word) (s : State) : Out :=
  control sy 0 [] [gR d] s fun s => .done (s.writeG d (f s) 1)

/-- A word that computes pD from predicates. -/
def pred2 (sy : BitVec 1) (d a b : BitVec 2) (f : Bool → Bool → Bool) (s : State) : Out :=
  control sy 0 [pR a, pR b] [pR d] s fun s => .done (s.writeP d (f (s.p a) (s.p b)))

def pred1 (sy : BitVec 1) (d a : BitVec 2) (f : Bool → Bool) (s : State) : Out :=
  control sy 0 [pR a] [pR d] s fun s => .done (s.writeP d (f (s.p a)))

end Sys2Proof.Machine
end

