-- ==== Sys2Proof/Machine/Alu.lean ====
section
/-! DEFINITION. The integer words, predicates, select and coordinate registers (R117 to R124, R79). -/

namespace Sys2Proof.Machine

/-- Leading zeros of a 64-bit word. -/
def leadingZeros (a : Word) : Word := if a = 0 then 64 else word (63 - Nat.log2 a.toNat)

/-- Trailing zeros: the low bit of `a` alone is a power of two. -/
def trailingZeros (a : Word) : Word := if a = 0 then 64 else word (Nat.log2 (a &&& -a).toNat)

/-- The number of set bits. -/
def setBits (a : Word) : Word := word ((List.range 64).foldl (fun n i => if a.getLsbD i then n + 1 else n) 0)

/-- `add`: gA + gB modulo 2^64 (R117). -/
def execAdd (sy : BitVec 1) (d a b : BitVec 5) (s : State) : Out :=
  word3 sy d a b 1 (fun a b => a + b) s

/-- `sub`: gA − gB modulo 2^64 (R117). -/
def execSub (sy : BitVec 1) (d a b : BitVec 5) (s : State) : Out :=
  word3 sy d a b 1 (fun a b => a - b) s

/-- `and`: bitwise (R117). -/
def execAnd (sy : BitVec 1) (d a b : BitVec 5) (s : State) : Out :=
  word3 sy d a b 1 (fun a b => a &&& b) s

/-- `or`: bitwise (R117). -/
def execOr (sy : BitVec 1) (d a b : BitVec 5) (s : State) : Out :=
  word3 sy d a b 1 (fun a b => a ||| b) s

/-- `xor`: bitwise (R117). -/
def execXor (sy : BitVec 1) (d a b : BitVec 5) (s : State) : Out :=
  word3 sy d a b 1 (fun a b => a ^^^ b) s

/-- `andn`: gA and not gB (R117). -/
def execAndn (sy : BitVec 1) (d a b : BitVec 5) (s : State) : Out :=
  word3 sy d a b 1 (fun a b => a &&& ~~~b) s

/-- `orn`: gA or not gB (R117). -/
def execOrn (sy : BitVec 1) (d a b : BitVec 5) (s : State) : Out :=
  word3 sy d a b 1 (fun a b => a ||| ~~~b) s

/-- `sll`: gA << gB[5:0] (R117). -/
def execSll (sy : BitVec 1) (d a b : BitVec 5) (s : State) : Out :=
  word3 sy d a b 1 (fun a b => a <<< (b.toNat % 64)) s

/-- `srl`: logical gA >> gB[5:0] (R117). -/
def execSrl (sy : BitVec 1) (d a b : BitVec 5) (s : State) : Out :=
  word3 sy d a b 1 (fun a b => a >>> (b.toNat % 64)) s

/-- `sra`: arithmetic gA >> gB[5:0] (R117). -/
def execSra (sy : BitVec 1) (d a b : BitVec 5) (s : State) : Out :=
  word3 sy d a b 1 (fun a b => a.sshiftRight (b.toNat % 64)) s

/-- `mul`: bits [63:0] of the product (R117). -/
def execMul (sy : BitVec 1) (d a b : BitVec 5) (s : State) : Out :=
  word3 sy d a b 3 (fun a b => a * b) s

/-- `mulh`: bits [127:64] of the signed product (R117). -/
def execMulh (sy : BitVec 1) (d a b : BitVec 5) (s : State) : Out :=
  word3 sy d a b 3 (fun a b => BitVec.ofInt 64 (a.toInt * b.toInt / 2 ^ 64)) s

/-- `mulhu`: bits [127:64] of the unsigned product (R117). -/
def execMulhu (sy : BitVec 1) (d a b : BitVec 5) (s : State) : Out :=
  word3 sy d a b 3 (fun a b => word (a.toNat * b.toNat / 2 ^ 64)) s

/-- `div`: signed, toward zero; by 0 all ones; −2^63 by −1 wraps to −2^63 (R118). -/
def execDiv (sy : BitVec 1) (d a b : BitVec 5) (s : State) : Out :=
  word3 sy d a b 20 (fun a b => if b = 0 then BitVec.allOnes 64 else BitVec.ofInt 64 (Int.tdiv a.toInt b.toInt)) s

/-- `divu`: unsigned; by 0 all ones (R118). -/
def execDivu (sy : BitVec 1) (d a b : BitVec 5) (s : State) : Out :=
  word3 sy d a b 20 (fun a b => if b = 0 then BitVec.allOnes 64 else word (a.toNat / b.toNat)) s

/-- `rem`: with the sign of gA; by 0 gA (R118). -/
def execRem (sy : BitVec 1) (d a b : BitVec 5) (s : State) : Out :=
  word3 sy d a b 20 (fun a b => if b = 0 then a else BitVec.ofInt 64 (Int.tmod a.toInt b.toInt)) s

/-- `remu`: unsigned; by 0 gA (R118). -/
def execRemu (sy : BitVec 1) (d a b : BitVec 5) (s : State) : Out :=
  word3 sy d a b 20 (fun a b => if b = 0 then a else word (a.toNat % b.toNat)) s

/-- `min`: signed minimum (R117). -/
def execMin (sy : BitVec 1) (d a b : BitVec 5) (s : State) : Out :=
  word3 sy d a b 1 (fun a b => if a.slt b then a else b) s

/-- `max`: signed maximum (R117). -/
def execMax (sy : BitVec 1) (d a b : BitVec 5) (s : State) : Out :=
  word3 sy d a b 1 (fun a b => if a.slt b then b else a) s

/-- `minu`: unsigned minimum (R117). -/
def execMinu (sy : BitVec 1) (d a b : BitVec 5) (s : State) : Out :=
  word3 sy d a b 1 (fun a b => if a.ult b then a else b) s

/-- `maxu`: unsigned maximum (R117). -/
def execMaxu (sy : BitVec 1) (d a b : BitVec 5) (s : State) : Out :=
  word3 sy d a b 1 (fun a b => if a.ult b then b else a) s

/-- `slt`: 1 if gA < gB signed (R117). -/
def execSlt (sy : BitVec 1) (d a b : BitVec 5) (s : State) : Out :=
  word3 sy d a b 1 (fun a b => flag (a.slt b)) s

/-- `sltu`: 1 if gA < gB unsigned (R117). -/
def execSltu (sy : BitVec 1) (d a b : BitVec 5) (s : State) : Out :=
  word3 sy d a b 1 (fun a b => flag (a.ult b)) s

/-- `clz`: leading zeros, 64 for zero (R117). -/
def execClz (sy : BitVec 1) (d a : BitVec 5) (s : State) : Out :=
  word2 sy d a 1 (fun a => leadingZeros a) s

/-- `ctz`: trailing zeros, 64 for zero (R117). -/
def execCtz (sy : BitVec 1) (d a : BitVec 5) (s : State) : Out :=
  word2 sy d a 1 (fun a => trailingZeros a) s

/-- `popc`: set bits (R117). -/
def execPopc (sy : BitVec 1) (d a : BitVec 5) (s : State) : Out :=
  word2 sy d a 1 (fun a => setBits a) s

/-- `addw`: W(gA + gB) (R117). -/
def execAddw (sy : BitVec 1) (d a b : BitVec 5) (s : State) : Out :=
  word3 sy d a b 1 (fun a b => lowWord (a + b)) s

/-- `subw`: W(gA − gB) (R117). -/
def execSubw (sy : BitVec 1) (d a b : BitVec 5) (s : State) : Out :=
  word3 sy d a b 1 (fun a b => lowWord (a - b)) s

/-- `sllw`: W(gA[31:0] << gB[4:0]) (R117). -/
def execSllw (sy : BitVec 1) (d a b : BitVec 5) (s : State) : Out :=
  word3 sy d a b 1 (fun a b => sext (a.truncate 32 <<< (b.toNat % 32))) s

/-- `srlw`: W(gA[31:0] >> gB[4:0] logical) (R117). -/
def execSrlw (sy : BitVec 1) (d a b : BitVec 5) (s : State) : Out :=
  word3 sy d a b 1 (fun a b => sext (a.truncate 32 >>> (b.toNat % 32))) s

/-- `sraw`: W(gA[31:0] >> gB[4:0] arithmetic) (R117). -/
def execSraw (sy : BitVec 1) (d a b : BitVec 5) (s : State) : Out :=
  word3 sy d a b 1 (fun a b => sext ((a.truncate 32).sshiftRight (b.toNat % 32))) s

/-- `mulw`: W(gA × gB) (R117). -/
def execMulw (sy : BitVec 1) (d a b : BitVec 5) (s : State) : Out :=
  word3 sy d a b 3 (fun a b => lowWord (a * b)) s

/-- `addi`: gA + imm (R119). -/
def execAddi (sy : BitVec 1) (d a : BitVec 5) (imm : BitVec 15) (s : State) : Out :=
  word2 sy d a 1 (fun a => let i := sext imm; a + i) s

/-- `andi`: gA and imm (R119). -/
def execAndi (sy : BitVec 1) (d a : BitVec 5) (imm : BitVec 15) (s : State) : Out :=
  word2 sy d a 1 (fun a => let i := sext imm; a &&& i) s

/-- `ori`: gA or imm (R119). -/
def execOri (sy : BitVec 1) (d a : BitVec 5) (imm : BitVec 15) (s : State) : Out :=
  word2 sy d a 1 (fun a => let i := sext imm; a ||| i) s

/-- `xori`: gA xor imm (R119). -/
def execXori (sy : BitVec 1) (d a : BitVec 5) (imm : BitVec 15) (s : State) : Out :=
  word2 sy d a 1 (fun a => let i := sext imm; a ^^^ i) s

/-- `slti`: 1 if gA < imm signed (R119). -/
def execSlti (sy : BitVec 1) (d a : BitVec 5) (imm : BitVec 15) (s : State) : Out :=
  word2 sy d a 1 (fun a => let i := sext imm; flag (a.slt i)) s

/-- `sltiu`: 1 if gA < imm unsigned (R119). -/
def execSltiu (sy : BitVec 1) (d a : BitVec 5) (imm : BitVec 15) (s : State) : Out :=
  word2 sy d a 1 (fun a => let i := sext imm; flag (a.ult i)) s

/-- `slli`: gA << count (R119). -/
def execSlli (sy : BitVec 1) (d a : BitVec 5) (h : BitVec 6) (s : State) : Out :=
  word2 sy d a 1 (fun a => let n := h.toNat; a <<< n) s

/-- `srli`: logical gA >> count (R119). -/
def execSrli (sy : BitVec 1) (d a : BitVec 5) (h : BitVec 6) (s : State) : Out :=
  word2 sy d a 1 (fun a => let n := h.toNat; a >>> n) s

/-- `srai`: arithmetic gA >> count (R119). -/
def execSrai (sy : BitVec 1) (d a : BitVec 5) (h : BitVec 6) (s : State) : Out :=
  word2 sy d a 1 (fun a => let n := h.toNat; a.sshiftRight n) s

/-- `lui`: sext(IMM20) × 4096 (R79). -/
def execLui (sy : BitVec 1) (d : BitVec 5) (i : BitVec 20) (s : State) : Out := word1 sy d (fun _ => sext i * 4096) s

/-- `addpc`: PC + sext(IMM20) × 16 (R79). -/
def execAddpc (sy : BitVec 1) (d : BitVec 5) (i : BitVec 20) (s : State) : Out := word1 sy d (fun s => bundleAt s.cl.pc i) s

/-- `pcmp`: pN := the condition between gA and gB (R121). -/
def execPcmp (sy : BitVec 1) (p : BitVec 2) (a b : BitVec 5) (c : BitVec 3) (s : State) : Out :=
  control sy 0 [gR a, gR b] [pR p] s fun s => .done (s.writeP p (condition c (s.g a) (s.g b)))

/-- `pcmpi`: pN := the condition between gA and the immediate (R121). -/
def execPcmpi (sy : BitVec 1) (c : BitVec 3) (p : BitVec 2) (a : BitVec 5) (i : BitVec 15) (s : State) : Out :=
  control sy 0 [gR a] [pR p] s fun s => .done (s.writeP p (condition c (s.g a) (sext i)))

/-- `pand` (R122). -/
def execPand (sy : BitVec 1) (d a b : BitVec 2) (s : State) : Out := pred2 sy d a b (· && ·) s

/-- `por` (R122). -/
def execPor (sy : BitVec 1) (d a b : BitVec 2) (s : State) : Out := pred2 sy d a b (· || ·) s

/-- `pxor` (R122). -/
def execPxor (sy : BitVec 1) (d a b : BitVec 2) (s : State) : Out := pred2 sy d a b (· != ·) s

/-- `pnot` (R122). -/
def execPnot (sy : BitVec 1) (d a : BitVec 2) (s : State) : Out := pred1 sy d a (!·) s

/-- `pmov` (R122). -/
def execPmov (sy : BitVec 1) (d a : BitVec 2) (s : State) : Out := pred1 sy d a id s

/-- `sel`: gD := pN ? gA : gB (R123). -/
def execSel (sy : BitVec 1) (d a b : BitVec 5) (p : BitVec 2) (s : State) : Out :=
  control sy 0 [gR a, gR b, pR p] [gR d] s fun s => .done (s.writeG d (if s.p p then s.g a else s.g b) 1)

/-- `cset`: cD := gA[31:0] (R124). -/
def execCset (sy : BitVec 1) (c : BitVec 3) (a : BitVec 5) (s : State) : Out :=
  control sy 0 [gR a] [cR c] s fun s => .done (s.writeC c ((s.g a).truncate 32))

/-- `cget`: gD := sext(cA) (R124). -/
def execCget (sy : BitVec 1) (d : BitVec 5) (c : BitVec 3) (s : State) : Out :=
  control sy 0 [cR c] [gR d] s fun s => .done (s.writeG d (sext (s.c c)) 1)

/-- `cadd`: cD := cA + gB[31:0] modulo 2^32 (R124). -/
def execCadd (sy : BitVec 1) (d a : BitVec 3) (b : BitVec 5) (s : State) : Out :=
  control sy 0 [cR a, gR b] [cR d] s fun s => .done (s.writeC d (s.c a + (s.g b).truncate 32))

/-- `caddi`: cD := cA + sext(IMM15) modulo 2^32 (R124). -/
def execCaddi (sy : BitVec 1) (d a : BitVec 3) (i : BitVec 15) (s : State) : Out :=
  control sy 0 [cR a] [cR d] s fun s => .done (s.writeC d (s.c a + i.signExtend 32))

end Sys2Proof.Machine
end

