-- ==== Sys2Proof/Machine/Memory.lean ====
section
/-! DEFINITION. Scalar loads and stores, the marker, the cache words, and the entries the load and store queues perform
without a heat test (R136 to R139, R188, R190, R312). -/

namespace Sys2Proof.Machine

/-- Where an accepted handle lies when its entry is performed. -/
def State.placeQ (s : State) (h : Word) (n : Nat) : Option Place :=
  if regionIdx h = 0xFFF then (if offsetOf h + n ≤ trapAreaSize then some (.area (offsetOf h)) else none)
  else (s.locateQ s.partNo h n).map fun x => .home (regionIdx h) x.2

/-- A line an `ld` issued now would meet an uncorrectable error in (R158, R338). A home that has failed is met as the entry is performed
(R442). -/
def State.ldBad (s : State) : Place → Nat → Option Nat
  | .home _ key, n => if (s.pkgAt (keyPkg key)).failed ∨ s.cl.killed ∨ s.core.reissues .load then none else s.badFill key n
  | .area _, _ => none

/-- `ld` (R136): checked at issue, entered in the load queue; gD waits for the data. An uncorrectable error is precise at the word
(R158, R338). DESIGN CHOICE (log 44). -/
def execLd (sy : BitVec 1) (d a : BitVec 5) (z : BitVec 3) (i : BitVec 12) (s : State) : Out :=
  control sy 0 [gR a] [gR d] s fun s =>
    let h := s.g a + sext i
    if !s.room .load then .hold s
    else match s.access h (sizeOf z) (sizeOf z) false with
      | .walk r => .hold (s.walk r)
      | .trap code addr => .trap code addr
      | .pass p =>
        match s.ldBad p (sizeOf z) with
        | some line => .trap 0x1B (word line)
        | none => .done ((s.enqueue .load (.load h z s.lane d.toNat)).awaitG d)

/-- `st` (R136): checked at issue, entered in the store queue with the low bytes of gD. -/
def execSt (sy : BitVec 1) (d a : BitVec 5) (z : BitVec 3) (i : BitVec 12) (s : State) : Out :=
  control sy 0 [gR a, gR d] [] s fun s =>
    let h := s.g a + sext i
    if !s.room .store then .hold s
    else match s.access h (sizeOf z) (sizeOf z) true with
      | .walk r => .hold (s.walk r)
      | .trap code addr => .trap code addr
      | .pass _ => .done (s.enqueue .store (.store h (sizeOf z) (s.g d)))

/-- Place a marker, with its operation, in both queues (R138, R139). -/
def State.mark (s : State) (op : Nat → QOp) : State :=
  let id := s.core.markNo
  ((s.enqueue .load (op id)).enqueue .store (op id)).modCore fun c => { c with markNo := id + 1 }

/-- `qmark` (R138). -/
def execQmark (sy : BitVec 1) (dep : BitVec 4) (s : State) : Out :=
  control sy dep [] [] s fun s =>
    if s.room .load ∧ s.room .store then .done (s.mark .marker) else .hold s

/-- The cache words (R139): the range lies inside one region, no ownership check, a marker in both queues. -/
def cacheWord (sy : BitVec 1) (dep : BitVec 4) (a b : BitVec 5) (fn : Nat) (s : State) : Out :=
  control sy dep [gR a, gR b] [] s fun s =>
    let n := (s.g b).toNat
    if n ≠ 0 ∧ s.place (s.g a) n = none then .trap 0x08 (s.firstOut s.partNo (s.g a))
    else if s.room .load ∧ s.room .store then .done (s.mark (.cmaint fn (s.g a) (s.g b))) else .hold s

/-- `cwb` (R139). -/
def execCwb (sy : BitVec 1) (dep : BitVec 4) (a b : BitVec 5) (s : State) : Out := cacheWord sy dep a b 0 s

/-- `cinv` (R139). -/
def execCinv (sy : BitVec 1) (dep : BitVec 4) (a b : BitVec 5) (s : State) : Out := cacheWord sy dep a b 1 s

/-- `cwbinv` (R139). -/
def execCwbinv (sy : BitVec 1) (dep : BitVec 4) (a b : BitVec 5) (s : State) : Out := cacheWord sy dep a b 2 s

/-! ## Performing at the queue heads -/

/-- K waits at a fence on this queue, and the entry is later than the fence (R286). -/
def Core.fenced (c : Core) (q : QueueId) (warm : Nat) : Bool :=
  match c.k.wait with
  | .fencing w m =>
    decide (w < warm) && (match q with
      | .load => decide (m % 2 = 1)
      | .store => decide (m / 2 % 2 = 1)
      | .engine => decide (m / 4 % 2 = 1)
      | .string => false)
  | _ => false

/-- The queue has performed an entry in this warm cycle (R138). -/
def State.spent (s : State) (q : QueueId) : Bool :=
  decide ((match q with
    | .load => s.core.lqWarm
    | .store => s.core.sqWarm
    | .engine => s.core.eqWarm
    | .string => none) = some s.warm)

/-- The entry a queue may perform now: at the head, seven warm cycles after its issue, one a warm cycle (R138, R405). DESIGN CHOICE (log 8). -/
def State.ready (s : State) (q : QueueId) : Option QEntry :=
  if s.spent q then none
  else match s.core.headOf q with
    | some e => if e.warm + Config.shadowWait ≤ s.warm ∧ !s.core.fenced q e.warm then some e else none
    | none => none

/-- The marker number of an entry. -/
def QOp.markerId : QOp → Option Nat
  | .marker id => some id
  | .cmaint _ _ _ id => some id
  | _ => none

/-- A marker stands at the head of the other queue as well. -/
def State.meets (s : State) (q : QueueId) (id : Nat) : Option QEntry :=
  match s.core.headOf q with
  | some e => if e.op.markerId = some id then some e else none
  | none => none

/-- What a cache word does to the lines in range (R139). -/
def State.maintain (s : State) (issued fn : Nat) (base len : Word) : State :=
  match s.placeQ base len.toNat with
  | some (.home _ key) =>
    let sel := fun l => decide (len ≠ 0) && overlaps key len.toNat l
    let s1 := if fn = 1 then s else s.cleanLines issued sel
    if fn = 0 then s1 else s1.dropLines sel
  | _ => s

/-- A marker or cache word at the head of one queue: performed when it heads both (R138, R139), unless the other queue has performed
its one entry of this warm cycle, or alone where a return from a handler has discarded the other (R396). -/
def State.passMarker (s : State) (q other : QueueId) (e : QEntry) (id : Nat) : State :=
  let s1 := match e.op with
    | .cmaint fn base len _ => if e.killed ∨ s.core.replays q e.seq then s else s.maintain e.warm fn base len
    | _ => s
  match s.meets other id with
  | some f => if s.spent other then s else (s1.retire q e.seq).retire other f.seq
  | none => if (s.core.queue other).any fun f => decide (f.op.markerId = some id) then s else s1.retire q e.seq

/-- A register that a retired no-op would have written is free again. DEDUCED (log 44). -/
def State.release (s : State) (l : Lane) (d : Nat) : State :=
  s.modCore fun c => c.setCluster l { c.cluster l with busy := (c.cluster l).busy.filter fun x => !decide (x.1 = .g d) }

/-- Four bytes at a time of a shape record read through L1. -/
def State.l1Record (s : State) (key : Nat) : BitVec 1024 × State :=
  let (a, s1) := s.l1Read key 64
  let (b, s2) := s1.l1Read (key + 64) 64
  (BitVec.ofNat 1024 (a + b * 2 ^ 512), s2)

/-- A `shpld` waiting for its entry hears how it ended (R190). -/
def State.answer (s : State) (l : Lane) (seq : Nat) (w : Wait) : State :=
  s.modCore fun c => c.setCluster l (let x := c.cluster l; if x.wait = .entry seq then { x with wait := w } else x)

/-- Bytes of a shape record (R20) as a number: `n` bytes at offset `o`. -/
def shp (r : BitVec 1024) (o n : Nat) : Nat := bits r (8 * o) (8 * n)

/-- Bits of an element by FMT (R22), 0 for reserved codes; an element of cb2 is a 16-bit index. -/
def elemBits (fmt : Nat) : Nat :=
  match fmt with
  | 0 | 9 => 32
  | 1 | 2 | 8 => 16
  | 3 | 4 | 6 | 10 => 8
  | 5 | 7 => 4
  | _ => 0

def shpRank (r : BitVec 1024) : Nat := shp r 8 8 / 16 % 8
def shpFmt (r : BitVec 1024) : Nat := shp r 8 8 % 16
def shpRagax (r : BitVec 1024) : Nat := shp r 8 8 / 2 ^ 7 % 8
def shpBmode (r : BitVec 1024) : Nat := shp r 8 8 / 2 ^ 10 % 4
def shpZfill (r : BitVec 1024) : Bool := decide (shp r 8 8 / 2 ^ 12 % 2 = 1)
def shpBcount (r : BitVec 1024) : Nat := shp r 8 8 / 2 ^ 32 % 2 ^ 16
def shpVersion (r : BitVec 1024) : Nat := shp r 8 8 / 2 ^ 48
def shpDim (r : BitVec 1024) (i : Nat) : Nat := shp r (0x10 + 4 * i) 4
def shpStride (r : BitVec 1024) (i : Nat) : Int := (word (shp r (0x30 + 8 * i) 8)).toInt
def shpBox (r : BitVec 1024) (i : Nat) : Nat := shp r (0x68 + 2 * i) 2
def shpBtab (r : BitVec 1024) : Word := word (shp r 0x78 8)
def shpData (r : BitVec 1024) : Word := word (shp r 0 8)

/-- The record may be installed (R23). -/
def shpOk (r : BitVec 1024) : Bool :=
  let rank := shpRank r
  let axes := List.range 7
  decide (rank ≠ 0) && decide (elemBits (shpFmt r) ≠ 0) && decide (shpBmode r ≠ 3) &&
  (decide (shpRagax r = 7) || decide (shpRagax r < rank)) &&
  (decide (shpRagax r = 7) || decide (shpBtab r ≠ 0)) &&
  decide (shp r 8 8 / 2 ^ 13 % 2 ^ 19 = 0) && decide (shp r 0x2C 4 = 0) && decide (shp r 0x76 2 = 0) &&
  axes.all fun i =>
    if i < rank then decide (shpBox r i ≠ 0)
    else decide (shpDim r i = 0) && decide (shp r (0x30 + 8 * i) 8 = 0) && decide (shpBox r i = 0)

/-- A register that holds no validly installed record reads as zero (R23). -/
def Core.shape (c : Core) (n : Nat) : BitVec 1024 := Sp.get 0 c.shp n

/-- A shape register is pending for words that issue after the word that writes it; a reader of that word's own joined bundle sees the
old record (R191). -/
def State.shpPending (s : State) (n : BitVec 4) : Bool :=
  s.core.shpBusy.any fun x => decide (x.1 = n.toNat) && decide (x.2 < s.warm) &&
    !(!s.cl.split && !s.core.l.split && decide (s.core.l.pc = s.cl.pc) && !decide (s.lane = .L))

/-- The entry of a queue-class fault leaves its queue unperformed (R385). DEDUCED (log 31). -/
def State.dropEntry (s : State) (q : QueueId) (e : QEntry) : State :=
  let s1 := s.modCore fun c => c.setQueue q ((c.queue q).filter fun x => !decide (x.seq = e.seq))
  match e.op with
  | .load _ _ l d => s1.release l d
  | .xget _ l d => s1.release l d
  | .crossing n => s1.modCore fun c => { c with xings := c.xings.filter fun x => !decide (x.seq = n) }
  | .shpld n _ => (s1.answer e.lane e.seq .performed).modCore fun c => { c with shpBusy := c.shpBusy.filter fun x => !decide (x.1 = n) }
  | .tsync _ => s1.answer e.lane e.seq .performed
  | _ => s1

/-- A queue-class trap at an entry. -/
def State.queueTrap (s : State) (q : QueueId) (e : QEntry) (code : Nat) (addr : Word) : State :=
  let unit := match q with
    | .load => 0
    | .store => 1
    | .engine => 2
    | .string => 3
  let fw := (s.wordAt e.word).toNat
  (s.dropEntry q e).takeTrap (causeOf 1 unit code) addr fw

/-- The shadow core's copy of the entry at a queue's head differs (R405, R406). -/
def State.entryMismatch (s : State) (q : QueueId) (e : QEntry) : State :=
  let unit := match q with
    | .load => 0
    | .store => 1
    | .engine => 2
    | .string => 3
  let fw := (s.wordAt e.word).toNat
  if s.core.win.isSome ∧ s.core.replay.isNone then s.mismatch unit e.word fw (some (q, e.seq)) else (s.dropEntry q e).mismatch unit e.word fw (some (q, e.seq))

/-- A load or store to line `a`, whose fill may meet an uncorrectable error. One that a store meets is logged and raises nothing (R158);
one that arises after a load has issued is not met by it. The cached line is bad for the loads that issue later. DEDUCED (log 44). -/
def State.overFill (s : State) (a : Nat) (log : Bool) (go : State → State) : State :=
  let mark := fun (t : State) => t.modCore fun c => { c with badL1 := a :: c.badL1 }
  if s.cached a ∨ !s.lineBad a then go s
  else if log then s.metBad a fun t => mark (go t)
  else mark (go s)

/-- Performing a load-queue entry at the head. A fill that needs a home that has failed raises MEMERR there (R442). DESIGN CHOICE (log 8). DEDUCED (log 44). -/
def State.performLoad (s : State) (e : QEntry) : Out :=
  match e.op with
  | .load h z lane d =>
    if e.killed then .next ((s.retire .load e.seq).release lane d)
    else if s.core.replays .load e.seq then
      .next ((s.retire .load e.seq).modCore fun c => c.fillG e.level lane d (c.retained .load e.seq) (s.warm + 4))
    else match s.placeQ h (sizeOf z) with
      | some (.home _ key) =>
        if !s.cached (key / 64) ∧ (s.pkgAt (keyPkg key)).failed then
          .next (s.metLine (key / 64) fun t => t.queueTrap .load e 0x1B (word (key / 64)))
        else
          let v := (s.l1Read key (sizeOf z)).1
          let s1 := s.overFill (key / 64) false fun t => (t.l1Read key (sizeOf z)).2
          let (t, s2) := if s.cached (key / 64) then (0, s1) else s1.draw 4095
          let r : Returning := { lane := lane, d := d, value := extend z v, due := s.warm + 4 + t, word := e.word,
                                 level := e.level, seq := e.seq }
          .next ((s2.retire .load e.seq).modCore fun c => { c with back := c.back ++ [r] }.retainValue .load e.seq r.value)
      | some (.area off) =>
        let r : Returning := { lane := lane, d := d, value := extend z (s.core.areaNat off (sizeOf z)), due := s.warm + 4,
                               word := e.word, level := e.level, seq := e.seq }
        .next ((s.retire .load e.seq).modCore fun c => { c with back := c.back ++ [r] }.retainValue .load e.seq r.value)
      | none => .next ((s.retire .load e.seq).release lane d)
  | .marker id => .next (s.passMarker .load .store e id)
  | .cmaint _ _ _ id => .next (s.passMarker .load .store e id)
  | .crossing _ => .next (s.retire .load e.seq)
  | .shpld n h =>
    let s1 := s.retire .load e.seq
    -- a cluster that a handler has moved on waits no more: the record is installed all the same
    let waits := decide ((s.core.cluster e.lane).wait = .entry e.seq)
    let free := fun (t : State) => t.modCore fun c => { c with shpBusy := c.shpBusy.filter fun x => !decide (x.1 = n) }
    let hand := fun (t : State) (r : BitVec 1024) =>
      if waits then t.answer e.lane e.seq (if shpOk r then .loaded r else .failed 0x0C e.word)
      else if shpOk r then (free t).modCore fun c => { c with shp := Sp.set 0 c.shp n r } else free t
    let s1 := if waits then s1 else free s1
    if e.killed ∨ s.core.replays .load e.seq then .next (s1.answer e.lane e.seq .performed)
    else match s.placeQ h 128 with
      | some (.home _ key) =>
        match s.badFill key 128 with
        | some line => .next (s1.answer e.lane e.seq (.failed 0x1B (word line)))
        | none => .next (let (r, s2) := s1.l1Record key; hand s2 r)
      | some (.area off) => .next (hand s1 (BitVec.ofNat 1024 (s.core.areaNat off 128)))
      | none => .next (s1.answer e.lane e.seq .performed)
  | _ => .next s

/-- `LOAD_PERFORM` (R137): the entry at the head is compared (R405); a load reads its line, filled on a miss, and its data
is on the way; a marker passes; a `shpld` reads and checks its record (R190). A crossing that R131 killed, or that a
replay run meets again, retires; any other crossing is admitted by CROSSING_ADMIT. -/
def execLoadPerform (s : State) : Out :=
  match s.ready .load with
  | none => .next s
  | some e =>
    if (match e.op with | .crossing _ => !e.killed && !s.core.replays .load e.seq | _ => false) then .next s
    else if s.core.willMismatch then .next (s.entryMismatch .load e)
    else s.performLoad e

/-- `LOAD_DATA_RETURN` (R137): returned data is written into gD; a `halt` in a handler waits for the data of the code it interrupted
too (R395). -/
def execLoadDataReturn (s : State) : Out :=
  match s.core.back.find? fun r => decide (r.due ≤ s.warm) && (decide (r.level = s.core.level) || s.core.halting) with
  | none => .next s
  | some r => .next (s.modCore fun c => { c with back := c.back.erase r }.fillG r.level r.lane r.d r.value s.warm)

/-- The 32-bit word a code of `xget` samples: cold flag words, then the check record (R188). -/
def Core.sample (c : Core) (code : Nat) : Word32 :=
  if code < 16 then Sp.get 0 c.cold.flag code else Sp.get 0 c.cold.chk (code - 16)

/-- `cptail` of warm cycle `w` at the head (R312), with the loop tags its entries carry (R131): words that wait since then await
its entries too. DEDUCED (log 40). -/
def Str.append (t : Str) (h : Word) (w : Nat) (tags : List (Nat × Nat)) : Str :=
  let t := if t.halt then { t with halt := false, stat := 0 } else t
  let t := if t.hset then t else { t with head := h, hset := true }
  { t with tail := h, avail := true, puts := t.puts ++ [{ tail := h, tags := tags, killed := false }], watch := t.watch.map fun (x : Watch) => if w ≤ x.since then { x with tail := h, no := none } else x }

/-- Performing a store-queue entry at the head. -/
def State.performStore (s : State) (e : QEntry) : Out :=
  let s1 := s.retire .store e.seq
  match e.op with
  | .store h n v =>
    if e.killed ∨ s.core.replays .store e.seq then .next s1
    else match s.placeQ h n with
      | some (.home _ key) =>
        .next (s1.overFill (key / 64) true fun t => t.l1Write key n v.toNat)
      | some (.area off) => .next (s1.modCore fun c => c.setArea off (leBytes n v.toNat))
      | none => .next s1
  | .marker id => .next (s.passMarker .store .load e id)
  | .cmaint _ _ _ id => .next (s.passMarker .store .load e id)
  | .crossing _ => .next s1
  | .shpst h r =>
    if e.killed ∨ s.core.replays .store e.seq then .next s1
    else match s.placeQ h 128 with
      | some (.home _ key) =>
        .next ((s1.overFill (key / 64) true fun t => t.l1Write key 64 (shp r 0 64)).overFill (key / 64 + 1) true fun t =>
          t.l1Write (key + 64) 64 (shp r 64 64))
      | some (.area off) => .next (s1.modCore fun c => c.setArea off (leBytes 128 r.toNat))
      | none => .next s1
  | .xget code lane d =>
    if e.killed then .next (s1.release lane d)
    else
      let v := if s.core.replays .store e.seq then s.core.retained .store e.seq else word (s.core.sample code).toNat
      .next (s1.modCore fun c => (c.fillG e.level lane d v (s.warm + 24)).retainValue .store e.seq v)
  | .atom id d =>
    if e.killed then .next ((s1.release .K d).modCore fun c => { c with atoms := c.atoms.filter fun x => !decide (x.id = id) })
    else
      -- a replay run meets an atom again: its old value, unless it is still on its way
      match s.core.retainedValue .store e.seq with
      | some v => .next (s1.modCore fun c => c.fillG e.level .K d v (s.warm + 1))
      | none => .next s1
  | .cptail h =>
    if e.killed ∨ s.core.replays .store e.seq then .next s1 else
      .next (s1.modCore fun c =>
        { c with str := c.str.append h e.warm e.tags, sends := c.sends.map fun (x : Send) => if e.warm ≤ x.warm then { x with tail := some h } else x })
  | _ => .next s

/-- `STORE_PERFORM` (R137): the entry at the head is compared (R405); a store writes its line, filled on a miss; a marker
passes; `shpst` and `cptail` are performed (R190, R312); tested entries go through CROSSING_ADMIT (R427). -/
def execStorePerform (s : State) : Out :=
  match s.ready .store with
  | none => .next s
  | some e =>
    if (match e.op with | .crossing _ | .atom _ _ | .xget _ _ _ => !e.killed && !s.core.replays .store e.seq | _ => false) then .next s
    else if s.core.willMismatch then .next (s.entryMismatch .store e)
    else s.performStore e

end Sys2Proof.Machine
end

