-- ==== Sys2Proof/Machine/Crossing.lean ====
section
/-! DEFINITION. Tensor crossings at issue: the footprint (R164 to R169), boundary tables (R225 to R236), packed weights
(R178 to R180), the checks of R163 and the charge of R182; and the bytes a crossing moves. -/

namespace Sys2Proof.Machine

/-! ## The cold store (R168) -/

/-- Physical place of logical cold byte `a` under bank-rotation code `b`. -/
def coldPlace (b a : Nat) : Nat :=
  let g := a / 32
  (g / 128) * 4096 + ((g + b * (g / 128)) % 128) * 32 + a % 32

/-- Physical granule of logical cold byte `a` under code `b`. -/
def coldGran (b a : Nat) : Nat := coldPlace b a / 32

def Cold.read (c : Cold) (b a : Nat) : Byte := Sp.get 0 c.store (coldPlace b a)
def Cold.write (c : Cold) (b a : Nat) (v : Byte) : Cold := { c with store := Sp.set 0 c.store (coldPlace b a) v }

/-- Write bytes from logical address `a` on. -/
def Cold.writes (c : Cold) (b a : Nat) : List Byte → Cold
  | [] => c
  | v :: rest => (c.write b a v).writes b (a + 1) rest

/-- TAG and INV of the granule of byte `a`: INV in bit 8 (R15). -/
def Cold.tagAt (c : Cold) (b a : Nat) : BitVec 9 := Sp.get 0 c.side (coldGran b a)
def Cold.setTag (c : Cold) (b a : Nat) (t : BitVec 9) : Cold := { c with side := Sp.set 0 c.side (coldGran b a) t }

/-! ## Boxes (R165) -/

/-- Element sizes in bits, warm and cold: 4,608 and 4,352 in packed-weight mode. -/
def warmBits (r : BitVec 1024) (packed : Bool) : Nat := if packed then 4608 else elemBits (shpFmt r)
def coldBits (r : BitVec 1024) (packed : Bool) : Nat := if packed then 4352 else elemBits (shpFmt r)

/-- Bytes of one cold row, whole granules. -/
def rowBytes (r : BitVec 1024) (packed : Bool) : Nat := (shpBox r 0 * coldBits r packed + 255) / 256 * 32

/-- Rows of the footprint: the product of BOX1 to BOX(RANK − 1). -/
def rowCount (r : BitVec 1024) : Nat := (List.range (shpRank r - 1)).foldl (fun n i => n * shpBox r (i + 1)) 1

/-- Digit of axis `i` of row `n`, axis 1 fastest. -/
def rowDigit (r : BitVec 1024) (n i : Nat) : Nat :=
  n / ((List.range (i - 1)).foldl (fun m j => m * shpBox r (j + 1)) 1) % shpBox r i

/-- Coordinate of axis `i` of row `n`. -/
def rowCoord (r : BitVec 1024) (c : List Int) (n i : Nat) : Int := c.getD i 0 + (rowDigit r n i : Int)

/-- The in-bounds positions of axis 0: from `lo` up to `hi`. -/
def colLo (c : List Int) : Nat := (-(c.getD 0 0)).toNat
def colHi (r : BitVec 1024) (c : List Int) : Nat := min (shpBox r 0) ((shpDim r 0 : Int) - c.getD 0 0).toNat

/-- Row `n` is in bounds on every axis from 1 on. -/
def rowIn (r : BitVec 1024) (c : List Int) (n : Nat) : Bool :=
  (List.range (shpRank r - 1)).all fun i =>
    decide (0 ≤ rowCoord r c n (i + 1)) && decide (rowCoord r c n (i + 1) < (shpDim r (i + 1) : Int))

/-- Warm address of position `b0` of row `n`, as an exact number. -/
def warmAddr (r : BitVec 1024) (c : List Int) (packed : Bool) (n b0 : Nat) : Int :=
  ((shpData r).toNat : Int) + (c.getD 0 0 + (b0 : Int)) * (warmBits r packed : Int) / 8 +
    (List.range (shpRank r - 1)).foldl (fun s i => s + rowCoord r c n (i + 1) * shpStride r (i + 1)) 0

/-! ## Sequences (R225 to R231) -/

/-- Index of the sequence that holds ragged coordinate `x`. -/
def seqOf (starts : List Nat) (dim : Nat) (x : Int) : Option Nat :=
  if x < 0 ∨ (dim : Int) ≤ x then none
  else
    let e := fun i => if i + 1 < starts.length then starts.getD (i + 1) 0 else dim
    (List.range starts.length).find? fun i => decide ((starts.getD i 0 : Int) ≤ x) && decide (x < (e i : Int))

/-- How row `n` crosses (R229, R230): `starts` is the boundary table of a ragged record. Under RAGAX 0 a row whose elements lie in more
than one sequence, as one of a box out of bounds on another axis may, takes the TAG of its first element in bounds. DESIGN CHOICE (log 54). -/
def planRow (r : BitVec 1024) (c : List Int) (mode : BitVec 2) (starts : Option (List Nat)) (n : Nat) : RowPlan :=
  match starts with
  | none => { admitted := rowIn r c n && decide (colLo c < colHi r c), invalid := false, tag := 0 }
  | some st =>
    let ax := shpRagax r
    let dim := shpDim r ax
    let x := if ax = 0 then c.getD 0 0 + (colLo c : Int) else rowCoord r c n ax
    -- under RAGAX 0 the row's elements are their own coordinates: with none in bounds it lies in no sequence (R228, R230)
    let sq := if ax = 0 ∧ colHi r c ≤ colLo c then none else seqOf st dim x
    let ok := match shpBmode r with
      | 0 => true
      | 1 => sq.isSome && decide (sq = seqOf st dim (c.getD ax 0))
      | _ => sq.isSome
    let inv := decide (shpBmode r ≠ 0) && !ok
    { admitted := ok && rowIn r c n && decide (colLo c < colHi r c), invalid := inv,
      tag := if mode = 1 ∧ ok then BitVec.ofNat 8 (sq.getD 0) else 0 }

/-- A boundary table's starts, if the table is well formed for the record (R226, R227). -/
def tableStarts (r : BitVec 1024) (count version : Nat) (reserved : Nat) (starts : List Nat) : Option (List Nat) :=
  let rising := (List.range (starts.length - 1)).all fun i => decide (starts.getD i 0 ≤ starts.getD (i + 1) 0)
  if (shpBtab r).toNat % 16 = 0 ∧ 1 ≤ shpBcount r ∧ shpBcount r ≤ 256 ∧ count = shpBcount r ∧ version = shpVersion r ∧
      reserved = 0 ∧ starts.getD 0 1 = 0 ∧ rising ∧ starts.getD (count - 1) 0 ≤ shpDim r (shpRagax r) then some starts
  else none

/-- The key of byte 0 of `n` bytes at `h`, in memory or in the trap area of a handler (R331, R389). -/
def State.keyOf (s : State) (h : Word) (n : Nat) : Option Nat :=
  match s.place h n with
  | some (.home _ key) => some key
  | some (.area off) => some (areaKey s.cur (s.core.run.getD 0) off)
  | none => none

/-- `n` bytes from a key on. -/
def State.anyBytes (s : State) (key n : Nat) : List Byte := (List.range n).map fun i => s.anyByte (key + i)

/-- The boundary table of a ragged record (R234, R235): from the cache, or read whole from its home. `none` where it is
malformed; the state has it in the cache. -/
def State.boundary (s : State) (r : BitVec 1024) : Option (List Nat) × State :=
  let key := (shpBtab r, BitVec.ofNat 16 (shpVersion r))
  let rest := s.core.bcache.filter fun e => !decide ((e.1, e.2.1) = key)
  match s.core.bcache.find? fun e => decide ((e.1, e.2.1) = key) with
  | some e =>
    let st := tableStarts r e.2.2.length (shpVersion r) 0 e.2.2
    (st, s.modCore fun c => { c with bcache := e :: rest })
  | none =>
    match s.keyOf (shpBtab r) 16 with
    | none => (none, s)
    | some k =>
      let count := leNat (s.anyBytes k 4)
      let starts := (List.range (min count 256)).map fun i => leNat (s.anyBytes (k + 16 + 4 * i) 4)
      match tableStarts r count (leNat (s.anyBytes (k + 4) 2)) (leNat (s.anyBytes (k + 6) 10)) starts with
      | some st => (some st, s.modCore fun c => { c with bcache := ((key.1, key.2, st) :: rest).take 4 })
      | none => (none, s)

/-! ## Checks at issue (R163) -/

/-- Size of region `i` for the current core, if it is pinned: an entry of the table, or the trap area of a handler (R389). -/
def State.pinnedSize (s : State) (i : Nat) : Option Nat :=
  if i = 0xFFF then (if s.core.inHandler then some trapAreaSize else none)
  else match s.regionOf s.partNo i with
    | some r => if r.pinned then some r.size else none
    | none => none

/-- The `n` bytes at `h` lie in one pinned region: otherwise the first byte at fault. -/
def State.pinnedRange (s : State) (h : Word) (n : Nat) : Option Word :=
  match s.pinnedSize (regionIdx h) with
  | some size => if offsetOf h + n ≤ size then none else some (if offsetOf h < size then handleOf (regionIdx h) size else h)
  | none => some h

/-- The current core may read the `n` bytes of a table at `h`, span by span (R163, R227). -/
def State.mayReadTable (s : State) (h : Word) (n : Nat) : Bool :=
  if regionIdx h = 0xFFF then s.core.inHandler
  else match s.regionOf s.partNo (regionIdx h) with
    | some reg => s.mayUse false reg h n
    | none => false

/-- The warm runs of a crossing in box order: row, first address, bytes. -/
def warmRuns (r : BitVec 1024) (c : List Int) (packed : Bool) (rows : List RowPlan) : List (Nat × Int × Nat) :=
  let lo := colLo c
  let n := ((colHi r c - lo) * warmBits r packed + 7) / 8
  (List.range rows.length).filterMap fun i =>
    if (rows.getD i ⟨false, false, 0⟩).admitted then some (i, warmAddr r c packed i lo, n) else none

/-- The first warm byte that is not in range of one pinned region (check 3c). -/
def State.firstBad (s : State) : List (Nat × Int × Nat) → Option Word
  | [] => none
  | (_, a0, n0) :: rest =>
    let region := a0 / 2 ^ 52
    let base : Int := region * 2 ^ 52
    match (if a0 < 0 ∨ 2 ^ 64 ≤ a0 then none else s.pinnedSize region.toNat) with
    | none => some (BitVec.ofInt 64 a0)
    | some size =>
      ((0, a0, n0) :: rest).findSome? fun x =>
        let off := x.2.1 - base
        if off < 0 ∨ (size : Int) ≤ off then some (BitVec.ofInt 64 x.2.1)
        else if (size : Int) < off + (x.2.2 : Int) then some (BitVec.ofInt 64 (base + (size : Int)))
        else none

/-- Rights over the bytes of every run (check 4), read or write, on every span each touches; the trap area needs none (R389). -/
def State.runsAllowed (s : State) (write : Bool) (runs : List (Nat × Int × Nat)) : Bool :=
  runs.all fun x =>
    let h := BitVec.ofInt 64 x.2.1
    if regionIdx h = 0xFFF then s.core.inHandler
    else match s.regionOf s.partNo (regionIdx h) with
      | some r => s.mayUse write r h x.2.2
      | none => false

/-- The first row that spans a boundary under FAULT, by the warm handle of its first in-bounds position (R231). For
RAGAX 0 every element is its own coordinate (R228). -/
def firstSpan (r : BitVec 1024) (c : List Int) (starts : List Nat) (rows : List RowPlan) : Option Word :=
  let ax := shpRagax r
  let dim := shpDim r ax
  let lo := colLo c
  let hi := colHi r c
  let ins := (List.range rows.length).filter fun i => (rows.getD i ⟨false, false, 0⟩).admitted
  match ins with
  | [] => none
  | first :: _ =>
    if ax = 0 then
      let s0 := seqOf starts dim (c.getD 0 0 + (lo : Int))
      if s0 = seqOf starts dim (c.getD 0 0 + (hi : Int) - 1) then none else some (BitVec.ofInt 64 (warmAddr r c false first lo))
    else
      let s0 := seqOf starts dim (rowCoord r c first ax)
      (ins.find? fun i => !decide (seqOf starts dim (rowCoord r c i ax) = s0)).map fun i => BitVec.ofInt 64 (warmAddr r c false i lo)

/-- Check 2: what the record and the mode must satisfy (R163, R178, R181, R228). -/
def shapeSuits (r : BitVec 1024) (c : List Int) (mode : BitVec 2) (out : Bool) : Bool :=
  let packed := decide (mode = 2)
  let nib := decide (elemBits (shpFmt r) = 4)
  decide (r ≠ 0) && shpOk r &&
  (if packed then
     !out && decide (shpFmt r = 8) && decide (shpRank r = 2) && decide (shpRagax r = 7) && decide (shpBtab r ≠ 0) &&
       decide (rowCount r * shpBox r 0 ≤ 120)
   else decide (rowCount r * rowBytes r packed ≤ 65536)) &&
  (decide (shpBmode r ≠ 2) || decide (mode = 1)) &&
  (decide (shpRagax r ≠ 0) || decide (shpBmode r = 0)) &&
  (!nib || (decide (c.getD 0 0 % 2 = 0) && decide (shpBox r 0 % 2 = 0)))

/-- The codebook image at `k` satisfies R178 for table id `id`. -/
def State.imageOk (s : State) (k id : Nat) : Bool :=
  let b := s.anyBytes k 1044
  let entry := fun i => leNat ((b.drop (16 + 4 * i)).take 4)
  decide (leNat (b.take 2) = 0x5C54) && decide (leNat ((b.drop 2).take 2) = id) && decide (leNat ((b.drop 4).take 12) = 0) &&
  decide ((crc32 (b.take 0x410)).toNat = leNat (b.drop 0x410)) &&
  (List.range 256).all fun i => decide (entry i &&& 0x88888888 = 0)

/-- Half-unit values of a CB2 index under a shape entry, `none` when malformed (R63). -/
def decodeCb2 (idx : Nat) (ent : Nat) : Option (List Int) :=
  let h := idx / 2 ^ 15 % 2
  let u := fun i => ent / 16 ^ i % 16
  if (List.range 8).any fun i => decide (7 < u i) then none
  else
    let hu := fun i : Nat => if idx / 2 ^ (7 + i) % 2 = 1 then -((2 * u i + h : Nat) : Int) else ((2 * u i + h : Nat) : Int)
    let m0 : Int := ((2 * u 0 + h : Nat) : Int)
    let t := (List.range 7).foldl (fun a i => a + hu (i + 1)) 0
    let rest := (List.range 7).map fun i => hu (i + 1)
    if h = 1 then some ((if (t + m0) % 4 = 0 then m0 else -m0) :: rest)
    else if (t + m0) % 4 ≠ 0 then none
    else some (m0 :: rest)

/-- A packed weight block satisfies R67 under table id `id` and the entries of an image at `k`. -/
def State.blockOk (s : State) (b : List Byte) (id k : Nat) : Bool :=
  decide (leNat ((b.drop 0x220).take 2) = 0x5C4B) && decide (leNat ((b.drop 0x222).take 2) = id) &&
  decide (leNat ((b.drop 0x225).take 7) = 0) && decide ((crc32 (b.take 0x22C)).toNat = leNat ((b.drop 0x22C).take 4)) &&
  (List.range 256).all fun i =>
    let idx := leNat ((b.drop (2 * i)).take 2)
    (decodeCb2 idx (leNat (s.anyBytes (k + 16 + 4 * (idx % 256)) 4))).isSome

/-- The packed blocks of a crossing in box order with their handles: each admitted row's in-bounds positions. -/
def blockList (r : BitVec 1024) (c : List Int) (rows : List RowPlan) : List (Nat × Nat × Word) :=
  (List.range rows.length).flatMap fun i =>
    if (rows.getD i ⟨false, false, 0⟩).admitted then
      (List.range (colHi r c - colLo c)).map fun j => (i, colLo c + j, BitVec.ofInt 64 (warmAddr r c true i (colLo c + j)))
    else []

/-! ## The charge (R182) -/

/-- Bytes that cross the link: in-bounds positions, a nibble pair as one byte. -/
def crossBytes (r : BitVec 1024) (c : List Int) (packed : Bool) (rows : List RowPlan) : Nat :=
  (rows.filter (·.admitted)).length * (((colHi r c - colLo c) * coldBits r packed + 7) / 8)

/-- The cold bytes row `i` writes or captures: first and one past the last, relative to CADDR. -/
def rowSpan (r : BitVec 1024) (c : List Int) (packed out : Bool) (i : Nat) (p : RowPlan) : Option (Nat × Nat) :=
  let b := i * rowBytes r packed
  let w := coldBits r packed
  if p.invalid then none
  else if !out ∧ shpZfill r then some (b, b + (shpBox r 0 * w + 7) / 8)
  else if p.admitted then some (b + colLo c * w / 8, b + (colHi r c * w + 7) / 8)
  else none

/-- Distinct 64-byte-aligned cold lines met by spans of rising addresses. -/
def countLines (base : Nat) : List (Nat × Nat) → Nat → Nat
  | [], _ => 0
  | (lo, hi) :: rest, next =>
    let first := max ((base + lo) / 64) next
    let last := (base + hi + 63) / 64
    (last - first) + countLines base rest (max last next)

def coldLines (r : BitVec 1024) (c : List Int) (packed out : Bool) (caddr : Nat) (rows : List RowPlan) : Nat :=
  countLines caddr ((List.range rows.length).filterMap fun i => rowSpan r c packed out i (rows.getD i ⟨false, false, 0⟩)) 0

/-- The charge of a crossing: xin and xout, and the fan-out of xinm. -/
def crossCharge (r : BitVec 1024) (c : List Int) (packed : Bool) (kind n caddr : Nat) (rows : List RowPlan) : Nat :=
  let b := crossBytes r c packed rows
  let l := coldLines r c packed (decide (kind = 2)) caddr rows
  match kind with
  | 0 => 2 * b + l
  | 1 => 2 * b + (b * (n - 1) + 9) / 10 + n * l
  | _ => b + l

/-! ## Issue -/

/-- The cancel handle of crossing `seq` (R185). -/
def cancelHandle (seq kind : Nat) : Word := word (seq % 2 ^ 32 * 256 + kind * 2 + 1)

/-- Set bits of a receiver mask. -/
def receivers (m : BitVec 4) : Nat := (List.range 4).foldl (fun n i => if m.getLsbD i then n + 1 else n) 0

/-- Bytes of the table a crossing reads at issue: a codebook image, or a boundary table of the length BCOUNT gives, its header
alone where R227 refuses BCOUNT as too small and 256 starts where it is too large. DESIGN CHOICE (log 53). -/
def tableBytes (r : BitVec 1024) (packed : Bool) : Nat := if packed then 1044 else 16 + 4 * min (shpBcount r) 256

/-- The first uncorrectable line among those a crossing reads at issue: its table, unless the boundary cache holds it, and its
blocks (R338). It raises no trap at the word (R192): the crossing reports ERR on its path. -/
def State.badSource (s : State) (r : BitVec 1024) (packed ragged : Bool) (blocks : List Word) : Option Nat :=
  let btab := shpBtab r
  let hit := s.core.bcache.any fun e => decide (e.1 = btab) && decide (e.2.1 = BitVec.ofNat 16 (shpVersion r))
  let reads := (if packed ∨ (ragged ∧ !hit) then [(btab, tableBytes r packed)] else []) ++ blocks.map fun h => (h, 576)
  reads.findSome? fun x => match s.keyOf x.1 x.2 with
    | some key => if s.badAt key x.2 then some (key / 64) else none
    | none => none

/-- xin, xinm and xout (R163): every check in order, then the crossing is queued with its snapshot (R164). A codebook image off
its 16-byte boundary raises XLATE at BTAB; a boundary table that misses the cache enters it only with a word that passes every
check. A table, image or block with an uncorrectable line is not checked: the crossing queues, and reports ERR (R338). DESIGN CHOICE (log 53). -/
def crossWord (sy : BitVec 1) (dep : BitVec 4) (d a b : BitVec 5) (n : BitVec 4) (mode : BitVec 2) (kind : Nat) (s : State) : Out :=
  control sy dep ([gR a, gR b] ++ (List.range 7).map RegRef.c) [gR d] s fun s =>
    let ga := s.g a
    let gb := s.g b
    let out := decide (kind = 2)
    let packed := decide (mode = 2)
    let q := if out then QueueId.store else QueueId.load
    let r := s.core.shape n.toNat
    let c := (List.range (shpRank r)).map fun i => (s.cl.rc i).toInt
    let caddr := bits ga 0 19
    let tabid := bits gb 32 16
    let mc := BitVec.ofNat 4 s.core.mcmask.toNat
    if !s.room q ∨ Config.outstanding ≤ s.core.outstanding ∨ s.shpPending n then .hold s
    else if bits ga 23 41 ≠ 0 ∨ bits gb 48 16 ≠ 0 ∨ caddr % 32 ≠ 0 ∨ (!packed ∧ tabid ≠ 0) ∨ (kind = 1 ∧ mc = 0) then
      .trap 0x0B s.wordHandle
    else if !shapeSuits r c mode out then .trap 0x0C s.wordHandle
    else
      let ragged := decide (shpRagax r ≠ 7)
      let btab := shpBtab r
      if (ragged ∨ packed) ∧ s.needsWalk (regionIdx btab) then .hold (s.walk (regionIdx btab))
      else
        let tlen := tableBytes r packed
        match (if ragged ∨ packed then (if packed ∧ btab.toNat % 16 ≠ 0 then some btab else s.pinnedRange btab tlen) else none) with
        | some bad => .trap 0x08 bad
        | none =>
          let blind := s.badSource r packed ragged []
          let (starts, s1) := if ragged ∧ blind.isNone then s.boundary r else (none, s)
          if ragged ∧ blind.isNone ∧ starts.isNone then .trap 0x0C s.wordHandle
          else
            let rows := (List.range (rowCount r)).map fun i =>
              if ragged ∧ blind.isSome then ⟨false, false, 0⟩ else planRow r c mode starts i
            let runs := warmRuns r c packed rows
            let dreg := match runs with | x :: _ => some ((x.2.1 / 2 ^ 52).toNat % 4096) | [] => none
            if dreg.any s.needsWalk then .hold (s.walk (dreg.getD 0))
            else match s.firstBad runs with
            | some bad => .trap 0x08 bad
            | none =>
              if (ragged ∨ packed) ∧ !s.mayReadTable btab tlen then .trap 0x09 (handleOf (regionIdx btab) 0)
              else if !s.runsAllowed out runs then .trap 0x09 (handleOf (dreg.getD 0) 0)
              else match (if ragged ∧ blind.isNone ∧ shpBmode r = 0 then firstSpan r c (starts.getD []) rows else none) with
              | some h => .trap 0x0D h
              | none =>
                let size := rowCount r * rowBytes r packed
                if s.core.slot.cquota.toNat < caddr + size ∨ (!out ∧ s.core.inHandler) then .trap 0x0E s.wordHandle
                else
                  let img := (s.keyOf btab tlen).getD 0
                  let blocks := if packed then blockList r c rows else []
                  let read := fun (h : Word) => match s.keyOf h 576 with | some k => s.anyBytes k 576 | none => []
                  let bad := fun (h : Word) => s.badSource r false false [h]
                  if packed ∧ blind.isNone ∧ !s.imageOk img tabid then .trap 0x0F btab
                  else match (blocks.find? fun x => blind.isNone && (bad x.2.2).isNone && !s.blockOk (read x.2.2) tabid img) with
                  | some x => .trap 0x0F x.2.2
                  | none =>
                    let seq := s1.core.xseq
                    let recv := if kind = 1 then mc else BitVec.ofNat 4 (2 ^ (s.cur % 4))
                    let x : Crossing :=
                      { seq := seq, level := s.core.level, joined := !s.cl.split, kind := BitVec.ofNat 2 kind, warm := s.warm,
                        stamp := s.core.stampOf q (s.scnt + bits gb 0 32), shape := r, coord := c, cold := ga, mode := mode, rows := rows,
                        recv := recv, lost := blind <|> blocks.findSome? (fun x => bad x.2.2), staged := blocks.map fun y => (read y.2.2).take 544,
                        charge := crossCharge r c packed kind (receivers mc) caddr rows }
                    let s2 := s1.enqueue q (.crossing seq)
                    let killed := s.cl.killed || s.core.reissues q
                    let s3 := s2.modCore fun k =>
                      let k1 := k.retainValue q (s.core.issued q + 1) (word x.stamp)
                      { k1 with xseq := seq + 1, xkinds := Sp.set 0 k.xkinds seq (BitVec.ofNat 2 kind),
                                xings := if killed then k.xings else k.xings ++ [x] }
                    .done (s3.writeG d (cancelHandle seq kind) 1)

/-- `xin` (R163 to R170). -/
def execXin (sy : BitVec 1) (dep : BitVec 4) (d a b : BitVec 5) (n : BitVec 4) (m : BitVec 2) (s : State) : Out :=
  crossWord sy dep d a b n m 0 s

/-- `xinm` (R176). -/
def execXinm (sy : BitVec 1) (dep : BitVec 4) (d a b : BitVec 5) (n : BitVec 4) (m : BitVec 2) (s : State) : Out :=
  crossWord sy dep d a b n m 1 s

/-- `xout` (R171). -/
def execXout (sy : BitVec 1) (dep : BitVec 4) (d a b : BitVec 5) (n : BitVec 4) (m : BitVec 1) (s : State) : Out :=
  crossWord sy dep d a b n (m.zeroExtend 2) 2 s

/-! ## The bytes that move -/

/-- The key of warm address `a` for the task of the current core, in memory or in its trap area (R389). -/
def State.warmKey (s : State) (part : Nat) (a : Int) : Nat :=
  let h := BitVec.ofInt 64 a
  if regionIdx h = 0xFFF then areaKey s.cur (s.core.run.getD 0) (offsetOf h % trapAreaSize)
  else ((s.locateQ part h 1).map (·.2)).getD 0

/-- The cold bytes row `i` of an xin writes: first byte, bytes, and whether the last moves only its low nibble (R165, R166). -/
def State.rowData (s : State) (part : Nat) (x : Crossing) (i : Nat) : List (Nat × Byte × Bool) :=
  let packed := decide (x.mode = 2)
  let r := x.shape
  let p := x.rows.getD i ⟨false, false, 0⟩
  let base := bits x.cold 0 19 + i * rowBytes r packed
  let w := coldBits r packed
  let lo := colLo x.coord
  let hi := colHi r x.coord
  let zero := if shpZfill r then (List.range ((shpBox r 0 * w + 7) / 8)).map fun k => (base + k, (0 : Byte), false) else []
  if p.invalid then []
  else if !p.admitted then zero
  else
    let n := ((hi - lo) * w + 7) / 8
    let half := decide (w = 4 ∧ (hi - lo) % 2 = 1)
    let key := s.warmKey part (warmAddr r x.coord packed i lo)
    let before := (x.rows.take i).filter (·.admitted)
    let data := if packed then (x.staged.drop (before.length * (hi - lo))).take (hi - lo) |>.flatten else s.bytes key n
    zero ++ (List.range n).map fun k =>
      let b := data.getD k 0
      let last := half && decide (k + 1 = n)
      (base + lo * w / 8 + k, if last ∧ shpZfill r then b &&& 0x0F else b, last && !shpZfill r)

/-- Write what row `i` brings into one cold store, where `sel` takes the granule (R169, R181, R230) and no matrix write at or
after the due stamp stands (`stays`, R200). -/
def Cold.putRow (c : Cold) (x : Crossing) (i : Nat) (data : List (Nat × Byte × Bool)) (sel : Nat → Bool) (stays : List Nat) : Cold :=
  let packed := decide (x.mode = 2)
  let b := bits x.cold 19 4
  let base := bits x.cold 0 19 + i * rowBytes x.shape packed
  let p := x.rows.getD i ⟨false, false, 0⟩
  let c1 := data.foldl (fun c y =>
    if sel (y.1 / 32) ∧ !stays.contains (coldPlace b y.1) then c.write b y.1 (if y.2.2 then (c.read b y.1 &&& 0xF0) ||| (y.2.1 &&& 0x0F) else y.2.1) else c) c
  let side : BitVec 9 := if p.invalid then 0x100 else p.tag.zeroExtend 9
  if p.invalid ∨ !data.isEmpty then
    (List.range (rowBytes x.shape packed / 32)).foldl (fun c g =>
      if sel (base / 32 + g) ∧ !stays.any (fun p => decide (p / 32 = coldGran b (base + 32 * g))) then c.setTag b (base + 32 * g) side
      else c) c1
  else c1

/-- The cores of the quad a fan-out reaches, in order (R176). -/
def recvCores (cur : Nat) (m : BitVec 4) : List Nat :=
  (List.range 4).filterMap fun i => if m.getLsbD i then some (cur / 4 * 4 + i) else none

/-- A receiver fails (R177): not running a task of the issuer's launch, too small a quota, halted or in a handler. -/
def State.receiverFails (s : State) (issuer k : Nat) (x : Crossing) : Bool :=
  let me := (s.coreAt issuer).slot
  let c := s.coreAt k
  let size := rowCount x.shape * rowBytes x.shape (decide (x.mode = 2))
  if k = issuer ∧ x.kind = 0 then false
  else c.run.isNone || !decide (c.slot.part = me.part) || !decide (c.slot.launch = me.launch) || c.halting || c.inHandler || c.replay.isSome ||
    decide (c.slot.cquota.toNat < bits x.cold 0 19 + size)

/-- A receiver fails as the fan-out reaches it (R177): one it has reached before does not. -/
def State.missed (s : State) (issuer k : Nat) (x : Crossing) : Bool := !x.reached.getLsbD (k % 4) && s.receiverFails issuer k x

/-- A receiver the fan-out has reached no longer runs the issuer's launch, and has no cold store to write (R26). -/
def State.receiverGone (s : State) (issuer k : Nat) : Bool :=
  let me := (s.coreAt issuer).slot
  let c := s.coreAt k
  c.run.isNone || !decide (c.slot.part = me.part) || !decide (c.slot.launch = me.launch)

/-- What an xin puts in place, by row: as it was first read, else as it stands (R170). -/
def State.rowsOf (s : State) (issuer : Nat) (x : Crossing) : List (Nat × List (Nat × Byte × Bool)) :=
  x.fetched.getD ((List.range x.rows.length).map fun i => (i, s.rowData (s.coreAt issuer).slot.part x i))

/-- The context of core `k`, as `owners` names it (R337). -/
def State.contextOf (s : State) (k : Nat) : Nat :=
  match (s.coreAt k).run with
  | some i => 1 + 2 * k + i.toNat
  | none => 0

/-- Put an xin's bytes into a receiver, granule by granule where `sel` says; the whole of it with the armed injection's inversion. -/
def State.deliver (s : State) (issuer k : Nat) (x : Crossing) (sel : Nat → Bool) (whole : Bool := true) : State :=
  let rows := s.rowsOf issuer x
  let tag := if k = issuer then 0 else s.contextOf issuer
  s.modCoreAt k fun c =>
    let stays := x.stays.filterMap fun p => if p / 2 ^ 19 = k then some (p % 2 ^ 19) else none
    let c0 := c.modCold fun m => rows.foldl (fun m y => m.putRow x y.1 y.2 sel stays) m
    -- a granule written whole holds no error any more (R336)
    let here := fun (g : Nat) => rows.foldl (fun n y =>
      n + ((y.2.filter fun z => sel (z.1 / 32) && decide (coldGran (bits x.cold 19 4) z.1 = g)).map (·.1)).eraseDups.length) 0
    let grans := (rows.flatMap fun y => (y.2.filter fun z => sel (z.1 / 32)).map fun z => coldGran (bits x.cold 19 4) z.1).eraseDups
    let c1 := { c0 with badGran := c0.badGran.filter fun g => decide (here g < 32) }.modCold fun m =>
      if tag = 0 ∧ m.writers.isEmpty then m else { m with writers := grans.foldl (fun w g => Sp.set 0 w g tag) m.writers }
    -- an armed injection inverts one bit of byte LOC, once, as the whole is delivered (R421)
    let loc := c.injLoc
    if whole ∧ c.armedInj 1 ∧ rows.any (fun y => y.2.any fun b => decide (b.1 = loc)) then
      let b := bits x.cold 19 4
      (c1.modCold fun m => m.write b loc (m.read b loc ^^^ BitVec.ofNat 8 (2 ^ c.injBit))).disarm
    else c1

/-- The bytes an xout captures: twice the memory key, plus 1 for a low nibble alone (R165, R166, R171, R181). -/
def State.capture (s : State) (x : Crossing) : List (Nat × Byte) :=
  let r := x.shape
  let m := s.core.cold
  let b := bits x.cold 19 4
  let w := coldBits r false
  let lo := colLo x.coord
  let hi := colHi r x.coord
  let part := s.core.slot.part
  let sideForm := decide (x.mode = 1) && decide (shpFmt r = 10) && decide (shpBox r 0 = 2)
  (List.range x.rows.length).flatMap fun i =>
    let p := x.rows.getD i ⟨false, false, 0⟩
    let base := bits x.cold 0 19 + i * rowBytes r false
    let side := m.tagAt b base
    if p.invalid ∨ !p.admitted then []
    else if x.mode = 1 ∧ !sideForm ∧ side.getLsbD 8 then []
    else
      let key := s.warmKey part (warmAddr r x.coord false i lo)
      let n := ((hi - lo) * w + 7) / 8
      let half := decide (w = 4 ∧ (hi - lo) % 2 = 1)
      (List.range n).map fun k =>
        let v := if sideForm then (if lo + k = 0 then side.truncate 8 else if side.getLsbD 8 then 1 else 0)
                 else m.read b (base + lo * w / 8 + k)
        (2 * (key + k) + (if half ∧ k + 1 = n then 1 else 0), v)

/-- Write captured bytes at their homes, where `sel` takes the doubleword. -/
def State.putCaptured (s : State) (bs : List (Nat × Byte)) (sel : Nat → Bool) : State :=
  bs.foldl (fun s y =>
    let key := y.1 / 2
    if sel (key / 8) then s.anyWrite key (if y.1 % 2 = 1 then (s.anyByte key &&& 0xF0) ||| (y.2 &&& 0x0F) else y.2) else s) s

/-- The first granule with an uncorrectable error among those an xout captures (R338). -/
def State.badCapture (s : State) (x : Crossing) : Option Nat :=
  let b := bits x.cold 19 4
  (List.range x.rows.length).findSome? fun i =>
    match rowSpan x.shape x.coord false true i (x.rows.getD i ⟨false, false, 0⟩) with
    | none => none
    | some (lo, hi) =>
      let base := bits x.cold 0 19
      ((List.range ((base + hi + 31) / 32 - (base + lo) / 32)).map fun g => coldGran b (((base + lo) / 32 + g) * 32)).find? s.core.badGran.contains

/-- The crossing touches memory keys [lo, lo + n) of the current core's partition. -/
def State.crossingOn (s : State) (x : Crossing) (lo n : Nat) : Bool :=
  (warmRuns x.shape x.coord (decide (x.mode = 2)) x.rows).any fun y =>
    let key := s.warmKey s.partNo y.2.1
    decide (key < lo + n) && decide (lo < key + y.2.2)

/-- The crossing touches region `i`. -/
def Crossing.inRegion (x : Crossing) (i : Nat) : Bool :=
  (warmRuns x.shape x.coord (decide (x.mode = 2)) x.rows).any fun y => decide ((y.2.1 / 2 ^ 52).toNat % 4096 = i)

end Sys2Proof.Machine
end

