-- ==== Sys2Proof/Machine/CopyString.lean ====
section
/-! DEFINITION. Copy strings: taking an entry with its checks (R314, R318 to R321), running and completing it (R316,
R317, R322), halting, and cancelling (R323). The meaning of a copy command is the take of its entry by the copy engine;
ENTRY_COMPLETE performs it. -/

namespace Sys2Proof.Machine

/-! ## The string words (R312, R313) -/

/-- `cptail` (R312): the handle is a multiple of 64; the word enters the store queue. -/
def execCptail (sy : BitVec 1) (dep : BitVec 4) (a : BitVec 5) (s : State) : Out :=
  control sy dep [gR a] [] s fun s =>
    if (s.g a).toNat % 64 ≠ 0 then .trap 0x07 (s.g a)
    else if !s.room .store then .hold s
    else .done (s.enqueue .store (.cptail (s.g a)))

/-- `cpseq` (R313). -/
def execCpseq (sy : BitVec 1) (dep : BitVec 4) (d : BitVec 5) (s : State) : Out :=
  control sy dep [] [gR d] s fun s => recalled d s fun s => doneWith s d s.core.str.seqWord 2

/-! ## Fletcher-32 (R100) -/

def fletcherWord (x : Nat × Nat) (w : Nat) : Nat × Nat :=
  let s1 := (x.1 + w) % 65535
  (s1, (x.2 + s1) % 65535)

def fletcherSums : Nat × Nat → List Byte → Nat × Nat
  | x, [] => x
  | x, [b] => fletcherWord x b.toNat
  | x, b :: c :: rest => fletcherSums (fletcherWord x (b.toNat + 256 * c.toNat)) rest

/-- Fletcher-32 of a byte range from a seed. -/
def fletcher (seed : BitVec 32) (bs : List Byte) : BitVec 32 :=
  let x := fletcherSums (seed.toNat % 65536 % 65535, seed.toNat / 65536 % 65535) bs
  BitVec.ofNat 32 (x.2 * 65536 + x.1)

/-! ## Entries -/

/-- The entry of a copy command. -/
def entryOf : Instr → Option (Command × CopyEntry)
  | .copy e => some (.copy, e)
  | .copys e => some (.copys, e)
  | .fill e => some (.fill, e)
  | .bcast e => some (.bcast, e)
  | .cksum e => some (.cksum, e)
  | .signal e => some (.signal, e)
  | .waitseq e => some (.waitseq, e)
  | .tokret e => some (.tokret, e)
  | .link e => some (.link, e)
  | .mirwait e => some (.mirwait, e)
  | _ => none

def chainOf (e : CopyEntry) : Bool := e.flags.getLsbD 0
def checkOf (e : CopyEntry) : Bool := e.flags.getLsbD 1
def tokOf (e : CopyEntry) : Bool := e.flags.getLsbD 2
def orderedOf (e : CopyEntry) : Bool := e.flags.getLsbD 3

/-- The command computes a checksum (R100). -/
def sumsOf : Command → Bool
  | .copy | .copys | .bcast | .cksum => true
  | _ => false

/-- Offsets (source, destination) of the bytes a dim table enumerates, index 0 fastest (R319). -/
def dimOffsets : List (Nat × Int × Int) → Bool → List (Int × Int)
  | [], _ => [(0, 0)]
  | (n, f, t) :: rest, first =>
    (dimOffsets rest false).flatMap fun o =>
      (List.range n).map fun (i : Nat) => if first then (o.1 + (i : Int), o.2 + (i : Int)) else (o.1 + (i : Int) * f, o.2 + (i : Int) * t)

/-- Source and destination byte addresses of an entry, in its order, as exact handle numbers. -/
def sourceBytes (c : Command) (e : CopyEntry) (dims : List (Nat × Int × Int)) : List Int :=
  match c with
  | .copy | .bcast | .cksum => (List.range e.len.toNat).map fun (i : Nat) => (e.src.toNat : Int) + (i : Int)
  | .copys => (dimOffsets dims true).map fun o => (e.src.toNat : Int) + o.1
  | _ => []

def destBytes (c : Command) (e : CopyEntry) (dims : List (Nat × Int × Int)) (dests : List Word) : List Int :=
  match c with
  | .copy | .fill => (List.range e.len.toNat).map fun (i : Nat) => (e.dst.toNat : Int) + (i : Int)
  | .copys => (dimOffsets dims true).map fun o => (e.dst.toNat : Int) + o.2
  | .bcast => dests.flatMap fun d => (List.range e.len.toNat).map fun (i : Nat) => (d.toNat : Int) + (i : Int)
  | .signal => (List.range 8).map fun (i : Nat) => (e.dst.toNat : Int) + (i : Int)
  | _ => []

/-- The span from the lowest to the highest byte (R316), `none` when there is none. -/
def bounding : List Int → Option (Int × Int)
  | [] => none
  | a :: rest => some (rest.foldl (fun m x => (min m.1 x, max m.2 x)) (a, a))

def meet : Option (Int × Int) → Option (Int × Int) → Bool
  | some a, some b => decide (a.1 ≤ b.2) && decide (b.1 ≤ a.2)
  | _, _ => false

/-! ## Rights of the copy engine (R320) -/

/-- The core holds the span in ENGINE mode for its string. -/
def State.engineHolds (s : State) (t : Token) : Bool := s.holds t && decide (t.mode = .engine)

/-- EXCL, a share, ENGINE for this string, or a read-only region; a holder whose shares are out is none of these (R320). -/
def State.engineReads (s : State) (r : Region) (h : Word) : Bool :=
  let (head, t) := s.part.headOf (unitOf r h)
  !r.rw || s.core.shares.contains head || s.engineHolds t ||
    (s.exclusive t && (match s.sendLeaves false head with | none => true | some f => decide (f = 5)))

def State.engineWrites (s : State) (r : Region) (h : Word) : Bool :=
  s.writeRight false r h || (r.rw && s.engineHolds (s.part.headOf (unitOf r h)).2)

/-- The bytes from `lo` to `hi` lie in one pinned region, else XLATE (3); the right holds on each span, else OWNF (4). -/
def State.rangeCheck (s : State) (write : Bool) (x : Option (Int × Int)) (zeroLen : Option Word) : Nat :=
  match x with
  | none =>
    match zeroLen with
    | none => 0
    | some h => match s.locate s.partNo h 0 with | some (r, _) => if r.pinned then 0 else 3 | none => 3
  | some (lo, hi) =>
    if lo < 0 ∨ 2 ^ 64 ≤ hi then 3
    else
      let h := BitVec.ofInt 64 lo
      match s.locate s.partNo h (hi - lo + 1).toNat with
      | none => 3
      | some (r, _) =>
        if !r.pinned then 3
        else
          let first := offsetOf h / 65536
          let last := (offsetOf h + (hi - lo).toNat) / 65536
          let ok := (List.range (last - first + 1)).all fun i =>
            let u := max (offsetOf h) ((first + i) * 65536)
            let hu := handleOf (regionIdx h) u
            if write then s.engineWrites r hu else s.engineReads r hu
          if ok then 0 else 4

/-! ## Halting and dropping (R317) -/

/-- Note a status on an access path for the next xwait (R184). -/
def Core.notePath (c : Core) (p : Nat) (f : PathStat → PathStat) : Core :=
  { c with paths := Sp.put c.paths p (f (Sp.get {} c.paths p)) }

/-- Every ENGINE span of the string returns to its core (R317, R321): EXCL, and e6 for each. -/
def State.engineSpansBack (s : State) : State :=
  let sl := s.core.slot
  let mine := fun (t : Token) => t.isHead && s.engineHolds t
  let n := (s.part.tokens.filter fun x => mine x.2).length
  let s1 := s.modPartAt sl.part fun p =>
    { p with tokens := p.tokens.map fun x => if mine x.2 then (x.1, { x.2 with mode := .excl }) else x }
  (List.range n).foldl (fun s _ => s.tokenArrives s.cur) s1

/-- The bytes an entry writes, each with its destination key, from staged source bytes (R318, R319): those of one that has begun stand.
Of receivers of a `bcast` that overlap each other, the later in the list wins. DESIGN CHOICE (log 54). -/
def State.entryWrites (s : State) (t : Taken) : List (Nat × Byte) × List Byte × Nat :=
  match t.begun, entryOf t.cmd with
  | some (ws, staged), _ => (ws, staged, 0)
  | none, none => ([], [], 0)
  | none, some (c, e) =>
    let key := fun (a : Int) => s.warmKey s.partNo a
    let src := sourceBytes c e t.dims
    let dst := destBytes c e t.dims t.dests
    let staged := match c with
      | .fill => (List.range e.len.toNat).map fun k => e.aux.extractLsb' (8 * (k % 8)) 8
      | .signal => leBytes 8 e.aux.toNat
      | _ => src.map fun a => s.byte (key a)
    let staged := match t.flip with
      | some (i, b) => if i < staged.length then staged.set i (staged.getD i 0 ^^^ BitVec.ofNat 8 (2 ^ b)) else staged
      | none => staged
    let sb := bounding src
    let n := staged.length
    let writes := (List.range dst.length).map fun i =>
      let a := dst.getD i 0
      -- a destination byte inside the source range is undefined (R318)
      let v := if meet sb (some (a, a)) ∧ src.contains a then BitVec.ofNat 8 (Config.free (s.drawn + i)) else staged.getD (i % max n 1) 0
      (key a, v)
    (writes, staged, dst.length)

/-- Write an entry's bytes at their homes, where `sel` takes the doubleword; each package that mirrors some of them is
awaited as the entry's (R417, R418). DEDUCED (log 15). -/
def State.applyWrites (s : State) (t : Taken) (ws : List (Nat × Byte)) (sel : Nat → Bool) : State :=
  let s1 := ws.foldl (fun s w => if sel (w.1 / 8) then s.homeByte w.1 w.2 else s) s
  let partners := (ws.filterMap fun w => (mirrorIn w.1 s.part.regions).map keyPkg).eraseDups
  s1.modCore fun c => { c with mirror := c.mirror ++ partners.map fun p => { issued := t.warm, warm := s.warm, pkg := p, entry := some t.no } }

/-- A taken entry of the current string may start (R316): earlier entries it waits for have completed. -/
def mayStart (earlier : List Taken) (t : Taken) : Bool :=
  match entryOf t.cmd with
  | none => false
  | some (c, e) =>
    let open_ := earlier.filter fun x => !x.done
    let before := (earlier.filter fun x => match entryOf x.cmd with | some (c', _) => sumsOf c' && !x.killed | none => false).getLast?
    let chained := chainOf e && (match before with | some x => !x.done | none => false)
    let alone := orderedOf e || decide (c = .signal) || decide (c = .tokret) || decide (c = .mirwait) || decide (c = .waitseq)
    let sb := bounding (sourceBytes c e t.dims)
    let db := bounding (destBytes c e t.dims t.dests)
    let clash := open_.any fun x =>
      match entryOf x.cmd with
      | none => false
      | some (c', e') =>
        let sb' := bounding (sourceBytes c' e' x.dims)
        let db' := bounding (destBytes c' e' x.dims x.dests)
        decide (c' = .waitseq) || meet sb db' || meet db sb' || meet db db'
    t.killed || ((!alone || open_.isEmpty) && !clash && !chained)

/-- The string halts at the entry with take number `no` (R317): it and later entries are dropped; one that may have begun
leaves each doubleword of its destination old or new. -/
def State.haltString (s : State) (stat : Nat) (no : Nat) : State :=
  let keep := s.core.str.taken.filter fun t => decide (t.no < no)
  let gone := s.core.str.taken.filter fun t => !decide (t.no < no)
  let before := fun (t : Taken) => (s.core.str.taken.filter fun y => decide (y.no < t.no)).map fun (y : Taken) =>
    if y.no = no then { y with done := false } else y
  let s1 := gone.foldl (fun s t =>
    if !t.done ∧ !t.killed ∧ mayStart (before t) t then
      let (ws, _, n) := s.entryWrites t
      let from_ := s.drawn
      { s.applyWrites t ws (fun dw => !t.put.contains dw && Config.choice (from_ + dw)) with drawn := s.drawn + n + 1 }
    else s) s
  let s2 := s1.modCore fun c =>
    let str : Str :=
      { c.str with
        halt := true, stat := BitVec.ofNat 7 stat, hset := false, avail := false, carry := 0, taken := keep, cancel := [],
        takes := max c.str.takes no, haltNo := max c.str.takes no, carryNo := max c.str.takes no, puts := [], seen := [],
        past := c.str.past.filter fun p => keep.any fun t => decide (t.no = p.2) && !t.done,
        watch := c.str.watch.map fun (x : Watch) => { x with no := some 0 } }
    let c1 : Core := { c with sends := c.sends.map (fun (x : Send) => { x with tail := none }), str := str }
    c1.notePath 4 fun p => { p with can := true, err := p.err || decide (stat ≠ 6) }
  s2.engineSpansBack

/-! ## Taking an entry (R314) -/

/-- Records of a copys dim table, `none` where R319 refuses it; its reader meets an uncorrectable line before (R338). -/
def State.dimTable (s : State) (e : CopyEntry) : Option (List (Nat × Int × Int)) :=
  match s.locate s.partNo e.aux (24 * e.arg.toNat) with
  | none => none
  | some (_, k) =>
    let rec_ := fun i => s.bytes (k + 24 * i) 24
    let recs := (List.range e.arg.toNat).map fun i =>
      let b := rec_ i
      (leNat (b.take 4), leNat ((b.drop 4).take 4), (word (leNat ((b.drop 8).take 8))).toInt, (word (leNat ((b.drop 16).take 8))).toInt)
    let bad := recs.any (fun x => decide (x.2.1 ≠ 0)) ||
      (match recs with | x :: _ => decide (x.2.2.1 ≠ 0) || decide (x.2.2.2 ≠ 0) | [] => true) ||
      decide (2 ^ 32 ≤ recs.foldl (fun n x => n * x.1) 1)
    if bad then none else some (recs.map fun x => (x.1, x.2.2.1, x.2.2.2))

/-- The spans an entry with TOK lends (R321). -/
def tokHandles (c : Command) (e : CopyEntry) (dests : List Word) : List Word :=
  match c with
  | .cksum => [e.src]
  | .bcast => dests
  | _ => [e.dst]

/-- Lend the span that holds `h` to the string: `none` where the core may not (R321). -/
def State.lendEngine (s : State) (h : Word) : Option State :=
  match s.locate s.partNo h 1 with
  | none => none
  | some (r, _) =>
    let (head, t) := s.part.headOf (unitOf r h)
    if s.engineHolds t then some s
    else if s.exclusive t ∧ t.shares = 0 ∧ (s.sendLeaves false head).isNone then
      let s1 := match s.part.spanKeys head with
        | some (lo, n) => (s.cleanLines s.warm (overlaps lo n)).dropLines (overlaps lo n)
        | none => s
      some (s1.modToken s.partNo head fun t => { t with mode := .engine })
    else none

def lendAll : List Word → State → Option State
  | [], s => some s
  | h :: rest, s => match s.lendEngine h with
    | some s1 => lendAll rest s1
    | none => none

/-- The outcome of the ranges of one entry: one of them outside (check 4) before a right that is missing (check 5). -/
def worst (xs : List Nat) : Nat := if xs.contains 3 then 3 else if xs.contains 4 then 4 else 0

/-- An uncorrectable line of the table the engine reads as it takes an entry (R338). -/
def State.tableBad (s : State) (h : Word) (n : Nat) : Option Nat := s.badLine (s.warmKey s.partNo (h.toNat : Int)) n

/-- Bytes of the table of a `copys` or `bcast` entry. -/
def tableSize (c : Command) (e : CopyEntry) : Nat := if c = .copys then 24 * e.arg.toNat else 8 * e.arg.toNat

/-- The string halts with MEMERR at entry `no` for an uncorrectable line, which is logged (R315, R338). -/
def State.haltBad (s : State) (line : Option Nat) (no : Nat) : State :=
  match line with
  | some l => s.metBad l fun t => t.haltString 9 no
  | none => s.haltString 9 no

/-- Checks 4 and 5 of R314 for a command: 0, or the halt status, with the dim table and receivers it read. A table is read as
check 4 goes through it; the right to read a dim table belongs to check 5, and R320 asks none for a list of receivers. -/
def State.takeCheck (s : State) (c : Command) (e : CopyEntry) : Nat × List (Nat × Int × Int) × List Word :=
  match c with
  | .copy =>
    let a := s.rangeCheck false (bounding (sourceBytes c e [])) (some e.src)
    let b := s.rangeCheck true (bounding (destBytes c e [] [])) (some e.dst)
    (worst [a, b], [], [])
  | .copys =>
    if e.aux.toNat % 8 ≠ 0 then (2, [], [])
    else
      let tb : Option (Int × Int) := some ((e.aux.toNat : Int), (e.aux.toNat : Int) + 24 * (e.arg.toNat : Int) - 1)
      let t := s.rangeCheck false tb none
      if t = 3 then (3, [], [])
      else if (s.tableBad e.aux (tableSize c e)).isSome then (9, [], [])
      else match s.dimTable e with
        | none => (2, [], [])
        | some dims =>
          let a := s.rangeCheck false (bounding (sourceBytes c e dims)) none
          let b := s.rangeCheck true (bounding (destBytes c e dims [])) none
          (worst [t, a, b], dims, [])
  | .fill => (s.rangeCheck true (bounding (destBytes c e [] [])) (some e.dst), [], [])
  | .bcast =>
    if e.aux.toNat % 8 ≠ 0 ∨ e.arg.toNat < 1 ∨ 64 < e.arg.toNat then (2, [], [])
    else
      let tb : Option (Int × Int) := some ((e.aux.toNat : Int), (e.aux.toNat : Int) + 8 * (e.arg.toNat : Int) - 1)
      let t := s.rangeCheck false tb none
      if t = 3 then (3, [], [])
      else if (s.tableBad e.aux (tableSize c e)).isSome then (9, [], [])
      else
        let k := s.warmKey s.partNo (e.aux.toNat : Int)
        let dests := (List.range e.arg.toNat).map fun i => word (leNat (s.bytes (k + 8 * i) 8))
        let a := s.rangeCheck false (bounding (sourceBytes c e [])) (some e.src)
        let bs := dests.map fun d =>
          s.rangeCheck true (if e.len = 0 then none else some ((d.toNat : Int), (d.toNat : Int) + (e.len.toNat : Int) - 1)) (some d)
        (worst (a :: bs), [], dests)
  | .cksum => (s.rangeCheck false (bounding (sourceBytes c e [])) (some e.src), [], [])
  | .signal =>
    if e.dst.toNat % 8 ≠ 0 then (2, [], []) else (s.rangeCheck true (bounding (destBytes c e [] [])) none, [], [])
  | .link => (if e.aux.toNat % 64 ≠ 0 then 2 else 0, [], [])
  | .waitseq | .tokret | .mirwait => (0, [], [])

/-- The fence of K on the string waits only for entries already taken: no later one is taken before it issues (R286). -/
def State.fencedString (s : State) : Bool :=
  match s.core.k.wait with
  | .fencing _ m => decide (m / 8 % 2 = 1) && s.core.str.watch.any fun w => decide (w.lane = .K) && w.no.isSome && !s.core.cptailPending w.since
  | _ => false

/-- The string is taken no further while the core stands at a trap, but for the drain of a handler's `halt` (R324, R395). -/
def Core.stringStands (c : Core) : Bool := c.inHandler && !c.halting

/-- The engine takes the string's entry with this record, HEAD going on to `next` (R314). -/
def Core.take (k : Core) (x : Taken) (next : Word) : Core :=
  let t := k.str
  let last := decide (t.head = t.tail)
  { k with
    sends := k.sends.map fun (y : Send) => if y.tail = some t.head then { y with tail := none, upTo := x.no } else y,
    str := { t with
      taken := t.taken ++ [{ x with tags := match t.puts with | p :: _ => p.tags | [] => [] }], takes := x.no, past := (t.head, x.no) :: t.past.filter fun y => !decide (y.1 = t.head),
      avail := t.avail && !last, head := next, seen := [],
      puts := if last then [] else t.puts.dropWhile fun (p : Put) => decide (p.tail = t.head),
      -- a cancel lapses once the entry at its TAIL has been taken
      cancel := t.cancel.filter fun y => !decide (y.2 = t.head),
      watch := t.watch.map fun (w : Watch) => if w.no.isNone ∧ w.tail = t.head then { w with no := some x.no } else w } }

/-- The entry about to be taken was placed in an iteration a kill marker retires (R131). -/
def Str.retired (t : Str) : Bool :=
  match t.puts with
  | p :: _ => p.killed
  | [] => false

/-- The entry at HEAD, one that a kill marker retires, is taken as a no-op, which completes (R131). DESIGN CHOICE (log 40). -/
def State.takeRetired (s : State) (cmd : Instr) (next : Word) : State :=
  let t := s.core.str
  s.modCore fun k => k.take { no := t.takes + 1, h := t.head, cmd := cmd, warm := s.warm, due := s.warm, killed := true } next

/-- A load or store entry of a queue touches the span whose keys are [lo, lo + n). -/
def State.onSpan (s : State) (lo n : Nat) (h : Word) (bytes : Nat) : Bool :=
  match s.placeQ h (max bytes 1) with
  | some (.home _ key) => decide (key < lo + n) && decide (lo < key + max bytes 1)
  | _ => false

/-- Stores to one of the spans an entry lends stand in the store queue: they issued while the core held the span EXCL, and are performed
before the lend; those that issue after it fault (R136, R321). DEDUCED (log 40). -/
def State.storesStand (s : State) (hs : List Word) : Bool :=
  hs.any fun h => match s.locate s.partNo h 1 with
    | none => false
    | some (r, _) =>
      match s.part.spanKeys (s.part.headOf (unitOf r h)).1 with
      | none => false
      | some (lo, n) => s.core.sq.any fun e => !e.killed &&
        (match e.op with
         | .store a b _ => s.onSpan lo n a b
         | .shpst a _ => s.onSpan lo n a 128
         | _ => false)

/-- The engine takes the entry at HEAD, whose read, CRC and R101 checks have passed: the remaining checks, the lend, and
the string's advance (R314, R321). A held cancel halts it (R323) before a retired entry is passed and before the checks 4 and 5 are
made. DESIGN CHOICE (log 40). -/
def takeEntry (c : Command) (e : CopyEntry) (s : State) : Out :=
  let t := s.core.str
  if !t.hset ∨ !t.avail ∨ t.halt ∨ s.fencedString ∨ s.core.stringStands ∨ Config.outstanding ≤ s.core.outstanding then .next s
  else
    let no := t.takes + 1
    let next := if c = .link then e.aux else t.head + 64
    if t.cancel.any fun x => decide (x.1 = t.head) then .next (s.haltString 6 no)
    else if t.retired then
      .next (s.takeRetired (c.instr e) next)
    else
      let (st, dims, dests) := s.takeCheck c e
      if st = 9 then .next (s.haltBad (s.tableBad e.aux (tableSize c e)) no)
      else if st ≠ 0 then .next (s.haltString st no)
      else if tokOf e ∧ s.storesStand (tokHandles c e dests) then .next s
      else match (if tokOf e then lendAll (tokHandles c e dests) s else some s) with
        | none => .next (s.haltString 4 no)
        | some s1 =>
          let (delay, s2) := s1.draw (if c = .waitseq then 2998 else 4095)
          .next (s2.modCore fun k =>
            let inj := k.armedInj 2 && (decide (c = .copy) || decide (c = .copys) || decide (c = .bcast))
            let x : Taken := { no := no, h := t.head, cmd := c.instr e, warm := s.warm, due := s.warm + 1 + delay, dims := dims, dests := dests,
                               base := t.haltNo, flip := if inj then some (k.injLoc, k.injBit) else none }
            (if inj then k.disarm else k).take x next)

/-- `copy` (R318). -/
def execCopy (e : CopyEntry) (s : State) : Out := takeEntry .copy e s
/-- `copys` (R319). -/
def execCopys (e : CopyEntry) (s : State) : Out := takeEntry .copys e s
/-- `fill` (R318). -/
def execFill (e : CopyEntry) (s : State) : Out := takeEntry .fill e s
/-- `bcast` (R318, R444). -/
def execBcast (e : CopyEntry) (s : State) : Out := takeEntry .bcast e s
/-- `cksum` (R322). -/
def execCksum (e : CopyEntry) (s : State) : Out := takeEntry .cksum e s
/-- `signal` (R318). -/
def execSignal (e : CopyEntry) (s : State) : Out := takeEntry .signal e s
/-- `waitseq` (R318). -/
def execWaitseq (e : CopyEntry) (s : State) : Out := takeEntry .waitseq e s
/-- `tokret` (R321). -/
def execTokret (e : CopyEntry) (s : State) : Out := takeEntry .tokret e s
/-- `link` (R314). -/
def execLink (e : CopyEntry) (s : State) : Out := takeEntry .link e s
/-- `mirwait` (R318). -/
def execMirwait (e : CopyEntry) (s : State) : Out := takeEntry .mirwait e s

/-- Regions an entry's translations go through at the take (R314, R318): those of its ranges and of the table it reads. -/
def takeRegions (c : Command) (e : CopyEntry) (dests : List Word) : List Nat :=
  (match c with
   | .copy => [e.src, e.dst]
   | .copys => [e.aux, e.src, e.dst]
   | .fill | .signal => [e.dst]
   | .bcast => e.aux :: e.src :: dests
   | .cksum => [e.src]
   | .link | .waitseq | .tokret | .mirwait => []).map regionIdx

/-- The first of these regions that the engine's cache does not hold and that has not been translated for this entry. -/
def State.untranslated (s : State) (rs : List Nat) : Option Nat :=
  let held := Sp.get [] (s.dieAt (dieOf s.cur)).ctlb (s.cur / 4)
  rs.find? fun i => !held.contains (4096 * s.partNo + i) && !s.core.str.seen.contains i

/-- The engine has translated these regions for the entry about to be taken. -/
def State.translated (s : State) (rs : List Nat) : State :=
  s.modCore fun c => { c with str := { c.str with seen := (rs ++ c.str.seen).eraseDups } }

/-- The receiver handles of a bcast, as far as its list can be read. -/
def State.receivers (s : State) (c : Command) (e : CopyEntry) : List Word :=
  if c = .bcast ∧ e.arg.toNat ≤ 64 ∧ (s.locate s.partNo e.aux (8 * e.arg.toNat)).isSome then
    let k := s.warmKey s.partNo (e.aux.toNat : Int)
    (List.range e.arg.toNat).map fun i => word (leNat (s.bytes (k + 8 * i) 8))
  else []

/-- The regions of the ranges of the entry at home `key`. -/
def State.entryRegions (s : State) (key : Nat) : List Nat :=
  match decodeEntry (s.bytes key 64) with
  | .ok i => match entryOf i with
    | some (c, e) => takeRegions c e (s.receivers c e)
    | none => []
  | .error _ => []

/-- What the engine must translate next before it can take the string's entry (R332): HEAD, then the entry's ranges. -/
def State.nextWalk (s : State) : Option Nat × List Nat :=
  let h := regionIdx s.core.str.head
  match s.untranslated [h] with
  | some i => (some i, [])
  | none =>
    let rs : List Nat := match s.locate s.partNo s.core.str.head 64 with
      | some (_, key) => s.entryRegions key
      | none => []
    (s.untranslated rs, h :: rs.filter fun i => (s.untranslated [i]).isNone)

/-- The engine reads the 64 bytes at HEAD and makes the checks that come before the command's own (R314, checks 1 to 3):
the instruction to take, or the halt status. -/
def State.readEntry (s : State) : Except Nat Instr :=
  match s.locate s.partNo s.core.str.head 64 with
  | none => .error 3
  | some (r, key) =>
    if !r.pinned then .error 3
    else if s.badAt key 64 then .error 9
    else match decodeEntry (s.bytes key 64) with
      | .ok i => .ok i
      | .error .badCrc => .error 1
      | .error _ => .error 2

/-! ## Completing (R317, R322) -/

/-- The seed of a checksum-computing entry: SEED, or the result of the one before it in string order, 0 where none stands
between it and the last halt (R100). -/
def seedOf (t : Str) (x : Taken) (e : CopyEntry) : BitVec 32 :=
  let near := fun (n : Nat) => decide (x.base < n) && decide (n < x.no)
  if chainOf e then
    match (t.taken.filter fun y => near y.no && y.res.isSome).getLast? with
    | some y => y.res.getD 0
    | none => if near t.sumNo then t.sum else 0
  else e.seed

/-- CARRY on the completion of entry `no` with result `r`: kept where a later entry has set it, or the string has halted
since (R317, R322). -/
def Str.setCarry (t : Str) (no : Nat) (r : Option (BitVec 32)) : Str :=
  match r with
  | some v => if t.carryNo < no then { t with carry := v, carryNo := no } else t
  | none => t

/-- SEQ of the task in slot `i` of core `k`, running or not (R318, R401). -/
def State.seqOf (s : State) (k : Nat) (i : BitVec 1) : Nat :=
  let c := s.coreAt k
  let sl := c.slotAt i
  if c.run = some i then c.str.seq.toNat
  else if sl.state = .saved then leNat ((List.range 8).map fun j => Sp.get 0 sl.area (0x1C50 + j))
  else 0

/-- The mode and holder of the span `tokret` names suit it (R321). -/
def State.tokretOk (s : State) (aux : Word) : Bool :=
  let t := s.part.token aux.toNat
  t.isHead && s.engineHolds t

/-- Perform a taken entry: its state after, with the status 0, an error status, or `none` where it still waits. One that meets an
uncorrectable source line before it has begun writes nothing; where a destination's package has failed, each doubleword elsewhere that is
not yet in place is old or new by a free choice. DEDUCED (log 15). -/
def State.perform (s : State) (x : Taken) : Option (Nat × Option (BitVec 32) × State) :=
  match entryOf x.cmd with
  | none => none
  | some (c, e) =>
    let src := sourceBytes c e x.dims
    if x.killed then some (0, none, s)
    else match c with
    | .waitseq =>
      if bits e.arg 0 22 ≠ 0 then some (8, none, s)
      else match s.peer e.arg with
      | none => some (8, none, s)
      | some (k, i) => if (s.pkgAt (pkgOf k)).failed then some (8, none, s) else if e.aux.toNat % 2 ^ 56 ≤ s.seqOf k i % 2 ^ 56 then some (0, none, s) else none
    | .mirwait => if s.core.mirror.any fun m => m.entry.any (decide <| · < x.no) then none else some (0, none, s)
    | .tokret =>
      if s.tokretOk e.aux then
        some (0, none, (s.modToken s.partNo e.aux.toNat fun t => { t with mode := .excl }).tokenArrives s.cur)
      else some (7, none, s)
    | .link => some (0, none, s)
    | _ =>
      match (if x.begun.isSome then none else src.find? fun a => s.badAt (s.warmKey s.partNo a) 1) with
      | some a => some (9, none, s.meetBad (s.warmKey s.partNo a / 64))
      | none =>
        let (ws, staged, n) := s.entryWrites x
        let lost := ws.any fun w => (s.pkgAt (keyPkg w.1)).failed
        -- a destination on a failed package halts the string: what is not yet in place elsewhere is old or new (R317, R442, R444)
        let sel := fun dw => !x.put.contains dw && (!lost || Config.choice (s.drawn + n + dw))
        let s1 := { s.applyWrites x ws sel with drawn := s.drawn + n + 1 }
        if lost then some (9, none, s1)
        else if sumsOf c then
          let r := fletcher (seedOf s.core.str x e) staged
          some (if checkOf e ∧ r ≠ e.expect then 5 else 0, some r, s1)
        else some (0, none, s1)

/-- A taken entry that may start begins to write: its source is staged, and each doubleword of its destination holds its old value or
its new one until the entry completes (R317, R360). DEDUCED (log 15). -/
def State.beginEntry (s : State) : State :=
  let ts := s.core.str.taken
  let ready := fun (t : Taken) => !t.done && !t.killed && t.begun.isNone && mayStart (ts.filter fun y => decide (y.no < t.no)) t &&
    (match entryOf t.cmd with
     | some (c, e) => (match c with | .copy | .copys | .fill | .bcast | .signal => true | _ => false) &&
        !(sourceBytes c e t.dims).any fun a => s.badAt (s.warmKey s.partNo a) 1
     | none => false)
  match ts.find? ready with
  | none => s
  | some t =>
    let (ws, staged, n) := s.entryWrites t
    let from_ := s.drawn + n
    let sel := fun dw => Config.choice (from_ + dw)
    let s1 := { s.applyWrites t ws sel with drawn := from_ + 1 }
    s1.modCore fun c => { c with str := { c.str with
      taken := c.str.taken.map fun y =>
        if y.no = t.no then { y with begun := some (ws, staged), put := ((ws.map fun w => w.1 / 8).filter sel).eraseDups } else y } }

/-- The first taken entry that may start and is due. -/
def State.startable (s : State) : Option Taken :=
  let ts := s.core.str.taken
  ts.find? fun t => !t.done && decide (t.due ≤ s.warm) && mayStart (ts.filter fun y => decide (y.no < t.no)) t && (s.perform t).isSome

/-- Count the completed entries at the front of the string: SEQ and e5 (R317). -/
def State.countEntries : Nat → State → State
  | 0, s => s
  | n + 1, s =>
    match s.core.str.taken with
    | t :: rest =>
      if t.done then
        State.countEntries n ((s.modCore fun c =>
          { c with str := { c.str with
              taken := rest, seq := c.str.seq + 1, sum := t.res.getD c.str.sum, sumNo := if t.res.isSome then t.no else c.str.sumNo } }).pulse s.cur 5)
      else s
    | [] => s

/-- `ENTRY_COMPLETE` (R317): an entry's bytes are at their homes and it completes; SEQ and e5 follow in string order, or
the string halts at it. DEDUCED (log 15). -/
def execEntryComplete (s : State) : Out :=
  match s.startable with
  | none => .next s
  | some x =>
    match s.perform x with
    | none => .next s
    | some (st, res, s1) =>
      if s1.core.run.isNone ∧ s.core.run.isSome then .next s1
      else if st ≠ 0 then
        -- its own bytes stand; what follows is dropped
        let s2 := s1.modCore fun c =>
          { c with str := { c.str with taken := c.str.taken.map fun t => if t.no = x.no then { t with done := true } else t } }
        .next (s2.haltString st x.no)
      else
        let s2 := s1.modCore fun c =>
          { c with str := { c.str with
              taken := c.str.taken.map fun (t : Taken) => if t.no = x.no then { t with done := true, res := res } else t }.setCarry x.no res }
        .next (State.countEntries s2.core.str.taken.length s2)

/-- Cancel the string entry at `h` (R323): the status of `xcancel`. An entry taken before the last halt that has completed since is no
longer known: PENDING or BADH. DESIGN CHOICE (log 40). -/
def State.cancelEntry (s : State) (h : Word) : Nat × State :=
  let t := s.core.str
  let running := fun (no : Nat) => t.taken.any fun y => decide (y.no = no) && !y.done
  match t.past.find? fun x => decide (x.1 = h) && (decide (t.haltNo < x.2) || running x.2) with
  | some (_, no) => if running no then (1, s.haltString 6 no) else (0, s)
  | none =>
    if t.avail then (2, s.modCore fun c => { c with str := { c.str with cancel := c.str.cancel ++ [(h, t.tail)] } })
    else (3, s)

/-- The entries available or taken at this moment, and those of `cptail` words issued by now, are awaited by a word of the
current cluster (R184). DEDUCED (log 40). -/
def State.watchString (s : State) : State :=
  let t := s.core.str
  s.modCore fun c =>
    { c with str := { c.str with
        watch := { lane := s.lane, since := s.warm, tail := t.tail, no := if t.avail then none else some t.takes } ::
          c.str.watch.filter fun w => !decide (w.lane = s.lane) } }

/-- Those entries have completed or been dropped, or the string has halted. -/
def State.stringClear (s : State) : Bool :=
  match s.core.str.watch.find? fun w => decide (w.lane = s.lane) with
  | none => true
  | some w =>
    !s.core.cptailPending w.since &&
    match w.no with
    | some no => !(s.core.str.taken.any fun t => decide (t.no ≤ no) && !t.done)
    | none => s.core.str.halt

end Sys2Proof.Machine
end

