-- ==== Sys2Proof/Machine/Control.lean ====
section
/-! DEFINITION. Branches, hardware loops, `join`, the link ports, `nop` and `brk` (R125 to R135), and how a joined
bundle is brought to its end (R76, R128, R129). -/

namespace Sys2Proof.Machine

/-- `br`: taken when p[P] xor N is 1, to PC + sext(OFF22) × 16 (R125). -/
def execBr (sy : BitVec 1) (p : BitVec 2) (n : BitVec 1) (o : BitVec 22) (s : State) : Out :=
  control sy 0 [pR p] [] s fun s => if taken (s.p p) n then .jump s (bundleAt s.cl.pc o) else .done s

/-- `jal`: gD := PC + 16, to PC + sext(IMM20) × 16 (R125). -/
def execJal (sy : BitVec 1) (d : BitVec 5) (i : BitVec 20) (s : State) : Out :=
  control sy 0 [] [gR d] s fun s => .jump (s.writeG d (s.cl.pc + 16) 1) (bundleAt s.cl.pc i)

/-- `jalr`: to gA + sext(IMM15), which must be a multiple of 16 (R125). -/
def execJalr (sy : BitVec 1) (d a : BitVec 5) (i : BitVec 15) (s : State) : Out :=
  control sy 0 [gR a] [gR d] s fun s =>
    let t := s.g a + sext i
    if t.toNat % 16 ≠ 0 then .trap 0x07 t else .jump (s.writeG d (s.cl.pc + 16) 1) t

/-- `loop` and `loop.p` (R127): a count of 0 skips the body, a fifth entry raises LOOPN. -/
def execLoop (sy p : BitVec 1) (a : BitVec 5) (l : BitVec 15) (s : State) : Out :=
  control sy 0 [gR a] [] s fun s =>
    let n := s.g a
    let pc := s.cl.pc
    if n = 0 then .jump s (pc + word (16 * (l.toNat + 1)))
    else if 4 ≤ s.cl.loops.length then .trap 0x11 s.wordHandle
    else
      let e : LoopEntry := { remaining := n, initial := n, start := pc + 16, stop := pc + word (16 * l.toNat), id := pc,
                             inst := s.core.loopNo, pre := decide (p = 1), began := s.warm, kill := none,
                             group := decide (sy = 1) && !s.cl.split }
      let s1 := s.modCore fun c => { c with loopNo := c.loopNo + 1 }
      .done (s1.modCl fun c => { c with loops := e :: c.loops })

/-- The kill marker for (id, i) of an entry popped by cluster `me` (R131): every other cluster's entry with that id ends at its
next end bundle, and every entry of a queue or the string of their iterations above i that has not been performed retires as a no-op,
a string entry that has been taken and waits under R316 among them. -/
def Core.kill (c : Core) (me : Lane) (id : Word) (i : Nat) (popped : Nat) : Core :=
  let insts := popped :: lanes.flatMap fun l => ((c.cluster l).loops.filter fun e => decide (e.id = id)).map (·.inst)
  let hit := fun (tags : List (Nat × Nat)) => tags.any fun t => insts.contains t.1 && decide (i < t.2)
  let mark := fun (e : QEntry) => if hit e.tags then { e with killed := true } else e
  let c1 := c.modClusters fun l x =>
    { x with loops := x.loops.map fun e =>
        if e.id = id then { e with kill := some (min i (e.kill.getD i)), last := e.last || !decide (l = me) } else e }
  let lq := c1.lq.map mark
  let sq := c1.sq.map mark
  { c1 with lq := lq, sq := sq, eq := c1.eq.map mark,
            str := { c1.str with
              puts := c1.str.puts.map fun (p : Put) => { p with killed := p.killed || hit p.tags },
              taken := c1.str.taken.map fun (t : Taken) =>
                if hit t.tags ∧ !t.done ∧ t.begun.isNone ∧ !mayStart (c1.str.taken.filter fun y => decide (y.no < t.no)) t then
                  { t with killed := true }
                else t },
            xings := c1.xings.filter fun x => !((lq ++ sq).any fun e => e.killed && decide (e.op = .crossing x.seq)) }

/-- `lexit`: when taken, pops the innermost entry, transfers, and posts the kill marker (R130). -/
def execLexit (sy : BitVec 1) (p : BitVec 2) (n : BitVec 1) (o : BitVec 22) (s : State) : Out :=
  control sy 0 [pR p] [] s fun s =>
    if taken (s.p p) n then
      match s.cl.loops with
      | [] => .trap 0x11 s.wordHandle
      | e :: rest =>
        .jump ((s.modCl fun c => { c with loops := rest }).modCore fun c => c.kill s.lane e.id e.index e.inst) (bundleAt s.cl.pc o)
    else .done s

/-- Every cluster of the core stands at a `join` with this id in this bundle (R77). -/
def Core.allJoined (c : Core) (pc : Word) (n : BitVec 8) : Bool :=
  lanes.all fun l => (c.cluster l).atJoin && decide ((c.cluster l).joinId = n) && decide ((c.cluster l).pc = pc)

/-- Some cluster waits at a `join` whose id or bundle differs (R77). -/
def Core.joinClash (c : Core) (pc : Word) (n : BitVec 8) : Bool :=
  lanes.any fun l => (c.cluster l).atJoin && !(decide ((c.cluster l).joinId = n) && decide ((c.cluster l).pc = pc))

/-- `join` (R77, R133): the cluster waits; when all four stand there they go on JOINED; a differing `join` raises JOINF. In the end bundle
of a loop the clusters go on at that bundle + 16 too, and the loop entries are not evaluated. DESIGN CHOICE (log 54). -/
def execJoin (n : BitVec 8) (s : State) : Out :=
  if s.core.joinClash s.cl.pc n then .next (s.wordTrap 0x13 s.wordHandle)
  else
    let s1 := s.modCl fun c => { c with atJoin := true, joinId := n, since := some (c.since.getD s.warm), wait := .since s.warm }
    if s1.core.allJoined s.cl.pc n then
      .next (s1.modCore fun c => c.modClusters fun _ x =>
        { x with pc := x.pc + 16, split := false, atJoin := false, joinId := 0, since := none, wait := .none, done := false,
                 readyAt := s.warm + 1 })
    else .next s1

/-- Push gA into a link-port FIFO (R134). -/
def sendPort (sy : BitVec 1) (a : BitVec 5) (fifo : Nat) (s : State) : Out :=
  control sy 0 [gR a] [] s fun s =>
    if (s.core.portAt fifo).room s.warm Config.portDepth then
      .done (s.modCore fun c => c.modPort fifo (·.push s.warm (s.g a)))
    else .hold s

/-- Pop a link-port FIFO into gD (R134). -/
def recvPort (sy : BitVec 1) (d : BitVec 5) (fifo : Nat) (s : State) : Out :=
  control sy 0 [] [gR d] s fun s =>
    let f := s.core.portAt fifo
    if f.ready s.warm then .done ((s.modCore fun c => c.modPort fifo (·.pop s.warm)).writeG d f.head 1) else .hold s

/-- `sendl` (R134). -/
def execSendl (sy : BitVec 1) (a : BitVec 5) (s : State) : Out := sendPort sy a (leftOut s.lane) s

/-- `sendr` (R134). -/
def execSendr (sy : BitVec 1) (a : BitVec 5) (s : State) : Out := sendPort sy a (rightOut s.lane) s

/-- `recvl` (R134). -/
def execRecvl (sy : BitVec 1) (d : BitVec 5) (s : State) : Out := recvPort sy d (leftIn s.lane) s

/-- `recvr` (R134). -/
def execRecvr (sy : BitVec 1) (d : BitVec 5) (s : State) : Out := recvPort sy d (rightIn s.lane) s

/-- `nop` (R135). -/
def execNop (sy : BitVec 1) (s : State) : Out := control sy 0 [] [] s fun s => .done s

/-- `brk` raises BRK and is not performed (R135). -/
def execBrk (_sy : BitVec 1) (s : State) : Out := .next (s.wordTrap 0x03 s.wordHandle)

/-! ## The end of a joined bundle -/

/-- Where a cluster goes from its end bundle and whether by a group loop, its entries left, and the ids of preemptible loops
it left (R128, R129). -/
def Cluster.loopEnd (x : Cluster) (warm : Nat) (stop : Bool) : Option (Word × Bool) × List LoopEntry × List Word :=
  if x.xfer.isSome then (none, x.loops, []) else endLoops x.pc warm stop x.loops

/-- The targets of the taken transfers with S = 1 in a bundle, loop backs of group loops included (R76, R129). -/
def Core.targets (c : Core) (ls : List Lane) (warm : Nat) : List Word :=
  ls.filterMap fun l =>
    let x := c.cluster l
    if x.sync then
      x.xfer.orElse fun _ => match (x.loopEnd warm c.stopping).1 with
        | some (t, true) => some t
        | _ => none
    else none

/-- Taken S = 1 transfers of the bundle disagree (R76). -/
def Core.brconf (c : Core) (ls : List Lane) (warm : Nat) : Bool :=
  match c.targets ls warm with
  | t :: rest => rest.any fun u => !decide (u = t)
  | [] => false

/-- Every word of the joined bundle has been performed: clusters with S = 0 leave on their own, the rest go where the
taken transfer, the loop back of a group loop, or the next bundle leads (R75, R76, R128, R129). A loop of a cluster's own
sends that cluster alone back, which then runs split. DEDUCED (log 12). -/
def State.retireBundle (s : State) (ls : List Lane) : State :=
  let c := s.core
  let ends := fun (l : Lane) => (c.cluster l).loopEnd s.warm c.stopping
  let taken := (ls.filterMap fun l => if (c.cluster l).sync then (c.cluster l).xfer else none).head?
  let group := (c.targets ls s.warm).head?
  let ids := ls.flatMap fun l => (ends l).2.2
  s.modCore fun c0 =>
    let c1 := c0.modClusters fun l x =>
      if ls.contains l then
        let back := (ends l).1
        let own := x.xfer.orElse fun _ => back.map (·.1)
        let base := { x with loops := (ends l).2.1, done := false, xfer := none, wait := .none, since := none }
        if x.sync ∧ !(match back with | some (_, g) => !g | none => false) then
          { base with pc := group.getD (x.pc + 16), sync := true, readyAt := s.warm + if taken.isSome then 2 else 1 }
        else
          -- a word with S = 0, or a loop of its own: the cluster runs on its own from here
          match own with
          | some t => { base with pc := t, split := true, sync := true, readyAt := s.warm + if x.xfer.isSome then 2 else 1 }
          | none => { base with pc := group.getD (x.pc + 16), split := true, sync := true,
                                readyAt := s.warm + if taken.isSome then 2 else 1 }
      else x
    if ids.isEmpty then c1 else c1.endIds ids

end Sys2Proof.Machine
end

