-- ==== Sys2Proof/Machine/Cipher.lean ====
section
/-! DEFINITION. AES-256 and its XTS mode, under which a KEYEN region's lines stand in memory (R35, R340). -/

namespace Sys2Proof.Machine

/-! ## AES-256 (R35, R340). PRESUMED (log 45): the cipher of that name is the published standard's. -/

/-- Product in the cipher's field, by the bits of the second factor from the low end. -/
def gfMul (a b : Byte) : Byte :=
  ((List.range 8).foldl (fun (acc : Byte × Byte) i =>
    (if b.getLsbD i then acc.1 ^^^ acc.2 else acc.1, (acc.2 <<< 1) ^^^ (if acc.2.getLsbD 7 then 0x1B else 0))) ((0, a) : Byte × Byte)).1

/-- Inverse in that field, 0 for 0: the product of the squares a^2 to a^128. -/
def gfInv (a : Byte) : Byte :=
  ((List.range 7).foldl (fun (acc : Byte × Byte) _ => let q := gfMul acc.2 acc.2; (gfMul acc.1 q, q)) ((1, a) : Byte × Byte)).1

/-- The byte substitution. -/
def aesSub (a : Byte) : Byte :=
  let i := gfInv a
  i ^^^ i.rotateLeft 1 ^^^ i.rotateLeft 2 ^^^ i.rotateLeft 3 ^^^ i.rotateLeft 4 ^^^ 0x63

def xorBytes (a b : List Byte) : List Byte := List.zipWith (· ^^^ ·) a b

/-- The byte whose substitution is `a`. -/
def aesUnsub (a : Byte) : Byte := gfInv (a.rotateLeft 1 ^^^ a.rotateLeft 3 ^^^ a.rotateLeft 6 ^^^ 0x05)

/-- The words of the key schedule, latest first, from the eight of the key. -/
def aesSchedule : Nat → List (List Byte) → List (List Byte)
  | 0, ws => ws
  | n + 1, ws =>
    let i := ws.length
    let t := ws.headD []
    let t := if i % 8 = 0 then
        xorBytes ((t.rotateLeft 1).map aesSub) [(List.range (i / 8 - 1)).foldl (fun r _ => gfMul 2 r) 1, 0, 0, 0]
      else if i % 8 = 4 then t.map aesSub else t
    aesSchedule n (xorBytes (ws.getD 7 []) t :: ws)

/-- Row r of the state goes r places left: byte i is taken from byte i + 4 × (i mod 4), modulo 16. -/
def aesShift (st : List Byte) : List Byte := (List.range 16).map fun i => st.getD ((i + 4 * (i % 4)) % 16) 0

def aesMix (st : List Byte) : List Byte :=
  (List.range 16).map fun i =>
    let b := fun (k : Nat) => st.getD (i / 4 * 4 + (i + k) % 4) 0
    gfMul 2 (b 0) ^^^ gfMul 3 (b 1) ^^^ b 2 ^^^ b 3

/-- Row r of the state goes r places right. -/
def aesUnshift (st : List Byte) : List Byte := (List.range 16).map fun i => st.getD ((i + 16 - 4 * (i % 4)) % 16) 0

def aesUnmix (st : List Byte) : List Byte :=
  (List.range 16).map fun i =>
    let b := fun (k : Nat) => st.getD (i / 4 * 4 + (i + k) % 4) 0
    gfMul 14 (b 0) ^^^ gfMul 11 (b 1) ^^^ gfMul 13 (b 2) ^^^ gfMul 9 (b 3)

/-- Round key `r` of a key of 32 bytes. -/
def aesRoundKey (key : List Byte) (r : Nat) : List Byte :=
  let words := (aesSchedule 52 ((List.range 8).map fun i => (key.drop (4 * i)).take 4).reverse).reverse
  ((words.drop (4 * r)).take 4).flatten

/-- The cipher on one block of sixteen bytes, with a key of 32. PRESUMED (log 45). -/
def aesEncrypt (key block : List Byte) : List Byte :=
  let roundKey := aesRoundKey key
  let rounds := (List.range 13).foldl (fun st r => xorBytes (aesMix (aesShift (st.map aesSub))) (roundKey (r + 1))) (xorBytes block (roundKey 0))
  xorBytes (aesShift (rounds.map aesSub)) (roundKey 14)

/-- The inverse cipher on one block. PRESUMED (log 45). -/
def aesDecrypt (key block : List Byte) : List Byte :=
  let roundKey := aesRoundKey key
  let first := (aesUnshift (xorBytes block (roundKey 14))).map aesUnsub
  let rounds := (List.range 13).foldl (fun st r => (aesUnshift (aesUnmix (xorBytes st (roundKey (13 - r))))).map aesUnsub) first
  xorBytes rounds (roundKey 0)

/-! ## XTS over a line (R340). PRESUMED (log 45) -/

/-- The tweak of the next block: twice this one in the field of 2^128, lowest byte first. -/
def xtsDouble (t : List Byte) : List Byte :=
  let n := leNat t
  leBytes 16 (Nat.xor (2 * n % 2 ^ 128) (if 2 ^ 127 ≤ n then 0x87 else 0))

/-- A line of four blocks under a cipher, each block between two additions of its tweak. -/
def xtsLine (cipher : List Byte → List Byte) : Nat → List Byte → List Byte → List Byte
  | 0, _, _ => []
  | n + 1, t, line => xorBytes (cipher (xorBytes (line.take 16) t)) t ++ xtsLine cipher n (xtsDouble t) (line.drop 16)

/-- The first key of a slot enciphers the data, the second the tweak. -/
def xtsEncrypt (key : BitVec 512) (tweak : Nat) (line : List Byte) : List Byte :=
  let k := leBytes 64 key.toNat
  xtsLine (aesEncrypt (k.take 32)) 4 (aesEncrypt (k.drop 32) (leBytes 16 tweak)) line

def xtsDecrypt (key : BitVec 512) (tweak : Nat) (line : List Byte) : List Byte :=
  let k := leBytes 64 key.toNat
  xtsLine (aesDecrypt (k.take 32)) 4 (aesEncrypt (k.drop 32) (leBytes 16 tweak)) line

/-! ## Lines under a region's key

`mem` holds a line that a valid KEYEN region covers, in its primary or its mirror copy, as the plaintext its clients see, and every other
line as it stands in HBM4E: ciphertext under the primary's tweak (R340, R417). An entry that changes re-expresses the lines that no other
entry covers; lines with no listed byte stay as they are. DESIGN CHOICE (log 48). -/

/-- The key of a region's lines: none without KEYEN or with an empty slot. -/
def State.keyOfRegion (s : State) (r : Region) : Option (BitVec 512) := if r.keyen then Sp.get none (s.pkgAt r.pkg).keys r.key else none

/-- Where the copies of a region stand: its primary, and its mirror in the partner package (R330). -/
def Region.copies (r : Region) : List Nat :=
  memKey r.pkg r.base :: (if r.mirror then [memKey (r.pkg ^^^ 1) r.mbase] else [])

/-- A valid entry other than entry `i` of partition `part` holds this line under a key. -/
def State.coveredElse (s : State) (part i line : Nat) : Bool :=
  s.parts.any fun p => p.2.regions.any fun e => !(decide (p.1 = part) && decide (e.1 = i)) &&
    (match decodeRegion e.2 with
     | some r => (s.keyOfRegion r).isSome && (Region.copies r).any fun lo => decide (lo ≤ 64 * line) && decide (64 * line < lo + r.size)
     | none => false)

/-- Re-express the listed lines of both copies of a region that is entry `i` of partition `part`, each by the primary's tweak
HPKG × 2^34 + line address (R340). -/
def State.recode (s : State) (part i : Nat) (r : Region) (f : Nat → List Byte → List Byte) : State :=
  (Region.copies r).foldl (fun s lo =>
    let lines := ((s.mem.filter fun x => decide (lo ≤ x.1) && decide (x.1 < lo + r.size)).map fun x => x.1 / 64).eraseDups
    (lines.filter fun l => !s.coveredElse part i l).foldl (fun s l =>
      s.setBytes (64 * l) (f (r.pkg * 2 ^ 34 + (r.base + (64 * l - lo)) / 64) (s.bytes (64 * l) 64))) s) s

/-- The lines an entry no longer covers, as they stand in memory, and those a new one covers, as its clients see them. -/
def State.uncover (s : State) (part i : Nat) (r : Region) : State :=
  match s.keyOfRegion r with
  | some k => s.recode part i r (xtsEncrypt k)
  | none => s

def State.cover (s : State) (part i : Nat) (r : Region) : State :=
  match s.keyOfRegion r with
  | some k => s.recode part i r (xtsDecrypt k)
  | none => s

/-- Two entries put the same lines under the same key. -/
def sameLines (a b : Option Region) : Bool :=
  match a, b with
  | some a, some b => decide (a.pkg = b.pkg) && decide (a.base = b.base) && decide (a.size = b.size) && decide (a.keyen = b.keyen) &&
      decide (a.key = b.key) && decide (Region.copies a = Region.copies b)
  | _, _ => false

/-! ## Token entries (R267) -/

/-- The token entries of a new region: spans of at most 2^20 units, PARKED. -/
def newTokens (region first units : Nat) (m : Sp Token) : Sp Token :=
  (List.range units).foldl (fun m k =>
    let h := k / 2 ^ 20 * 2 ^ 20
    Sp.put m (first + k)
      (if k = h then { head := first + k, units := min (2 ^ 20) (units - h), isHead := true, region := region }
       else { head := first + h, region := region })) m

/-- Two entries name the same token units: an entry so rewritten creates no region. -/
def sameUnits (a b : Option Region) : Bool :=
  match a, b with
  | some a, some b => decide (a.rw = b.rw) && decide (a.token = b.token) && decide (a.size = b.size)
  | _, _ => false

/-- Region `i` of a partition is created: one that is RW has its spans, and an RO region has no token in use. -/
def Part.createTokens (p : Part) (i : Nat) (old : Option Region) (r : Region) : Part :=
  if sameUnits old (some r) then p
  else
    let rest := p.tokens.filter fun x => !decide (x.2.region = i)
    { p with tokens := if r.rw then newTokens i r.token (r.size / 65536) rest else rest }

/-- Write region table entry `i` of a partition; an entry that becomes a region's makes its spans (R267). -/
def State.setRegion (s : State) (part i : Nat) (v : BitVec 512) : State :=
  let old := s.regionOf part i
  let new := decodeRegion v
  let put := fun (s : State) => s.modPartAt part fun p =>
    let p1 := { p with regions := Sp.set 0 p.regions i v }
    match new with | some r => p1.createTokens i old r | none => p1
  if sameLines old new then put s
  else
    let s1 := match old with | some r => s.uncover part i r | none => s
    match new with | some r => (put s1).cover part i r | none => put s1

end Sys2Proof.Machine
end

