-- ==== Sys2Proof/Machine/Path.lean ====
section
/-! DEFINITION. The other crossing words (R184 to R188), the shape words (R189 to R191), and the completion, capture,
stall and SMISS of crossings (R170 to R177). -/

namespace Sys2Proof.Machine

/-! ## Parameters and results -/

/-- `xput` (R187): TWIN takes 1 to 254; the value enters the engine command queue. -/
def execXput (sy : BitVec 1) (dep : BitVec 4) (a : BitVec 5) (k : BitVec 6) (s : State) : Out :=
  control sy dep [gR a] [] s fun s =>
    let v := s.g a
    if k = 0x24 ∧ (bits v 0 8 = 0 ∨ bits v 0 8 = 255) then .trap 0x0B s.wordHandle
    else if !s.room .engine then .hold s
    else .done (s.command (.xput k.toNat v))

/-- `xget` (R188): enters the store queue; gD is written 24 warm cycles after it is performed. -/
def execXget (sy : BitVec 1) (dep : BitVec 4) (d : BitVec 5) (k : BitVec 6) (s : State) : Out :=
  control sy dep [] [gR d] s fun s =>
    if !s.room .store then .hold s
    else .done ((s.enqueue .store (.xget k.toNat s.lane d.toNat)).awaitG d)

/-! ## xwait and xcancel -/

/-- The first warm byte of an xout lies in a MIRROR region. -/
def State.mirrored (s : State) (x : Crossing) : Bool :=
  match warmRuns x.shape x.coord false x.rows with
  | y :: _ => (mirrorIn (s.warmKey s.core.slot.part y.2.1) s.part.regions).isSome
  | [] => false

/-- An operation is earlier than a word that issued in warm cycle `w` (R184): its word issued in an earlier one, or in the same bundle,
which the joined group issues. -/
def earlier (group : Bool) (w warm : Nat) (joined : Bool) : Bool := decide (warm < w) || (decide (warm = w) && group && joined)

/-- Every operation on access path `p` that is earlier than a word of the current cluster that issued in warm cycle `w` has completed
or been cancelled (R184). -/
def State.pathClear (s : State) (p w : Nat) : Bool :=
  let c := s.core
  let early := earlier (!s.cl.split) w
  match p with
  | 0 => !c.xings.any fun x => !decide (x.kind = 2) && early x.warm x.joined
  | 1 => !c.xings.any fun x => decide (x.kind = 2) && early x.warm x.joined
  | 2 =>
    !(c.atoms.any fun a => early a.warm a.joined) && !(c.drains.any fun d => decide (d.warm < w))
  | 3 =>
    !((c.queue .store).any fun e => early e.warm e.joined &&
      (match e.op with | .store .. | .cmaint .. | .shpst .. => true | _ => false)) &&
    !(c.xings.any fun x => decide (x.kind = 2) && early x.warm x.joined && s.mirrored x) &&
    !(c.mirror.any fun m => m.entry.isNone && early m.issued m.joined)
  | _ => s.stringClear

/-- The status word of `xwait`, and the path's record cleared. -/
def pathWord (p : PathStat) : Word :=
  word ((if p.err then 1 else 0) + (if p.can then 2 else 0) + p.rx.toNat * 16)

/-- `xwait` (R184): waits for the earlier operations on the path, then reports what became of them. -/
def execXwait (sy : BitVec 1) (dep : BitVec 4) (d : BitVec 5) (p : BitVec 6) (s : State) : Out :=
  awaited sy dep [] [gR d] s (fun s => if p = 4 then s.watchString else s) fun s => recalled d s fun s =>
    let since := match s.cl.wait with
      | .since w => w
      | _ => s.warm
    if s.pathClear p.toNat since then
      doneWith (s.modCore fun c => c.notePath p.toNat fun _ => {}) d (pathWord (Sp.get {} s.core.paths p.toNat)) 1
    else .hold s

/-- The crossing a cancel handle names (R185, R186): its number, if it was issued among the last 2^16 with that kind. -/
def Core.crossingOf (c : Core) (h : Word) : Option Nat :=
  let seq := bits h 8 32
  let age := (c.xseq + 2 ^ 32 - 1 - seq) % 2 ^ 32
  if bits h 40 24 ≠ 0 ∨ bits h 3 5 ≠ 0 ∨ 2 ^ 16 ≤ age ∨ c.xseq ≤ age then none
  else
    let n := c.xseq - 1 - age
    if n % 2 ^ 32 = seq ∧ (Sp.get 0 c.xkinds n).toNat = bits h 1 2 then some n else none

/-- Take crossing `n` out: its queue entry retires as a no-op. -/
def Core.dropCrossing (c : Core) (n : Nat) : Core :=
  let k := fun (e : QEntry) => if e.op = .crossing n then { e with killed := true } else e
  { c with xings := c.xings.filter fun x => !decide (x.seq = n), lq := c.lq.map k, sq := c.sq.map k }

/-- Cancel crossing `n` of the current core (R186): one already admitted leaves each unit of its destination old or new. -/
def State.cancelCrossing (s : State) (n : Nat) : Nat × State :=
  match s.core.xings.find? fun x => decide (x.seq = n) with
  | none => (if s.core.xcan.contains n then 1 else 0, s)
  | some x =>
    let can := fun (p : PathStat) => { p with can := true }
    -- an xout to a MIRROR region stands on path 3 as well (R184)
    let note := fun (s : State) => s.modCore fun c =>
      let c1 := (c.dropCrossing n).notePath (if x.kind = 2 then 1 else 0) can
      let c2 := if x.kind = 2 ∧ s.mirrored x then c1.notePath 3 can else c1
      { c2 with xcan := n :: c2.xcan }
    if !x.admitted then (2, note s)
    else
      let from_ := s.drawn
      let s1 :=
        if x.kind = 2 then
          let bs := x.captured.getD (s.capture x)
          { s.putCaptured bs (fun dw => Config.choice (from_ + dw)) with drawn := from_ + 2 ^ 20 }
        else
          { (recvCores s.cur x.recv).foldl (fun t k =>
              if t.missed s.cur k x ∨ t.receiverGone s.cur k then t else t.deliver s.cur k x (fun g => Config.choice (from_ + 16384 * k + g))) s with
            drawn := from_ + 2 ^ 24 }
      (1, note s1)

/-- `xcancel` (R186, R323): the acknowledgement comes in the warm cycle the word issues in, of the up to 64 R186 allows. DESIGN CHOICE
(log 54). -/
def execXcancel (sy : BitVec 1) (dep : BitVec 4) (d a : BitVec 5) (s : State) : Out :=
  control sy dep [gR a] [gR d] s fun s => recalled d s fun s =>
    let h := s.g a
    let (st, s1) :=
      if bits h 0 1 = 1 then
        match s.core.crossingOf h with
        | some n => s.cancelCrossing n
        | none => (3, s)
      else if bits h 0 6 = 0 then s.cancelEntry h
      else (3, s)
    doneWith s1 d (word st) 1

/-! ## Shape words (R189 to R191) -/

/-- The register is pending no more. -/
def Core.shpFree (c : Core) (n : Nat) : Core := { c with shpBusy := c.shpBusy.filter fun x => !decide (x.1 = n) }

/-- `shpld` (R190): checked at issue, entered in the load queue; the cluster waits until the record has been read and checked.
The register is written as the word ends, so that a reader in its bundle sees the old record (R191). -/
def execShpld (sy : BitVec 1) (dep : BitVec 4) (a : BitVec 5) (n : BitVec 4) (s : State) : Out :=
  match s.cl.wait with
  | .none =>
    control sy dep [gR a] [] s fun s =>
      let h := s.g a
      if !s.room .load ∨ s.shpPending n then .hold s
      else match s.access h 128 64 false with
        | .walk r => .hold (s.walk r)
        | .trap code addr => .trap code addr
        | .pass _ =>
          let s1 := s.enqueue .load (.shpld n.toNat h)
          .start (s1.modCore fun c => { c with shpBusy := (n.toNat, s.warm) :: c.shpBusy }) (.entry s1.core.lqIssued)
  | .performed => waiting sy 0 s fun s => .done (s.modCore fun c => c.shpFree n.toNat)
  | .loaded r => waiting sy 0 s fun s => .done (s.modCore fun c => { c.shpFree n.toNat with shp := Sp.set 0 c.shp n.toNat r })
  | .failed code addr => waiting sy 0 (s.modCore fun c => c.shpFree n.toNat) fun _ => .trap code addr
  | _ => .next s

/-- `shpst` (R190): a snapshot of the register, stored as one entry of the store queue. -/
def execShpst (sy : BitVec 1) (dep : BitVec 4) (a : BitVec 5) (n : BitVec 4) (s : State) : Out :=
  control sy dep [gR a] [] s fun s =>
    let h := s.g a
    if !s.room .store ∨ s.shpPending n then .hold s
    else match s.access h 128 64 true with
      | .walk r => .hold (s.walk r)
      | .trap code addr => .trap code addr
      | .pass _ => .done (s.enqueue .store (.shpst h (s.core.shape n.toNat)))

/-- `btld` (R190, R234): the register's boundary table into the boundary cache. An uncorrectable line of it is logged and raises nothing
here (R192): the cache takes no table. DESIGN CHOICE (log 53). -/
def execBtld (sy : BitVec 1) (dep : BitVec 4) (n : BitVec 4) (s : State) : Out :=
  control sy dep [] [] s fun s =>
    let r := s.core.shape n.toNat
    let btab := shpBtab r
    if s.shpPending n then .hold s
    else if r = 0 ∨ !shpOk r then .trap 0x0C s.wordHandle
    else if shpRagax r = 7 then .done s
    else if s.needsWalk (regionIdx btab) then .hold (s.walk (regionIdx btab))
    else match s.pinnedRange btab (tableBytes r false) with
      | some bad => .trap 0x08 bad
      | none =>
        match s.badSource r false true [] with
        | some line => .done (s.metBad line fun t => t)
        | none =>
        match s.boundary r with
        | (some _, s1) => .done s1
        | (none, _) => .trap 0x0C s.wordHandle

/-- `shpget` (R190): word w of the register, latency 2. -/
def execShpget (sy : BitVec 1) (dep : BitVec 4) (d : BitVec 5) (n w : BitVec 4) (s : State) : Out :=
  control sy dep [] [gR d] s fun s =>
    if s.shpPending n then .hold s else .done (s.writeG d (word (shp (s.core.shape n.toNat) (8 * w.toNat) 8)) 2)

/-- Word `w` of a record replaced. -/
def setWord (r : BitVec 1024) (w : Nat) (v : Word) : BitVec 1024 :=
  BitVec.ofNat 1024 (r.toNat - shp r (8 * w) 8 * 2 ^ (64 * w) + v.toNat * 2 ^ (64 * w))

/-- `shpset` (R190): writes one word, rechecks the whole record; words that issue later see it (R191). -/
def execShpset (sy : BitVec 1) (dep : BitVec 4) (a : BitVec 5) (n w : BitVec 4) (s : State) : Out :=
  control sy dep [gR a] [] s fun s =>
    if s.shpPending n then .hold s
    else
      let r := setWord (s.core.shape n.toNat) w.toNat (s.g a)
      if shpOk r then .done (s.modCore fun c => { c with shp := Sp.set 0 c.shp n.toNat r }) else .trap 0x0C s.wordHandle

/-! ## Completion and capture -/

/-- Two crossings of one direction write some bytes in common: warm bytes of two xouts, cold bytes of two xins in a receiver
that both reach. DEDUCED (log 39). -/
def Crossing.meets (x y : Crossing) : Bool :=
  if x.kind = 2 ∨ y.kind = 2 then
    decide (x.kind = y.kind) &&
    let runs := fun (z : Crossing) => warmRuns z.shape z.coord false z.rows
    (runs x).any fun a => (runs y).any fun b => decide (a.2.1 < b.2.1 + (b.2.2 : Int)) && decide (b.2.1 < a.2.1 + (a.2.2 : Int))
  else
    let lo := fun (z : Crossing) => bits z.cold 0 23
    let size := fun (z : Crossing) => rowCount z.shape * rowBytes z.shape (decide (z.mode = 2))
    decide (x.recv &&& y.recv ≠ 0) && decide (lo x < lo y + size y) && decide (lo y < lo x + size x)

/-- An earlier crossing of the core that writes some of the same bytes has yet to complete: the two apply in issue order
(R175). One of code that stands interrupted is awaited where it has been captured. DEDUCED (log 39). -/
def Core.crossingWaits (c : Core) (x : Crossing) : Bool :=
  c.xings.any fun y => decide (y.seq < x.seq) && (decide (y.level = x.level) || y.captured.isSome) && y.meets x

/-- Bytes of a completed xout that earlier xouts, not yet captured, must leave as they are (R175). -/
def Core.standOver (c : Core) (x : Crossing) (bs : List (Nat × Byte)) : Core :=
  { c with xings := c.xings.map fun y =>
      if y.kind = 2 ∧ y.seq < x.seq ∧ y.captured.isNone ∧ y.meets x then { y with stays := y.stays ++ bs.map fun b => b.1 / 2 } else y }

/-- The first uncorrectable line of a crossing's source is logged, and ends the context its tag names (R338, R412). -/
def State.meetRuns (s : State) : List (Nat × Int × Nat) → State
  | [] => s
  | y :: rest =>
    let key := s.warmKey s.partNo y.2.1
    match (List.range ((key % 64 + y.2.2 + 63) / 64)).find? fun i => s.badAt ((key / 64 + i) * 64) 64 with
    | some i => s.meetBad (key / 64 + i)
    | none => s.meetRuns rest

/-- An uncorrectable line among what an xin has yet to read (R338): its staged blocks have been read at issue (R179). -/
def State.sourceBad (s : State) (x : Crossing) : Bool :=
  x.lost.isSome || (x.fetched.isNone && !decide (x.mode = 2) &&
    (warmRuns x.shape x.coord false x.rows).any fun y => s.badAt (s.warmKey s.partNo y.2.1) y.2.2)

/-- A free part of the granules of an xin is in place ahead of its due stamp: an order that issues before it reads, for each
granule, the old contents or the new (R170). What crosses is read once, here, and the receivers that stand ready are reached (R177). -/
def State.deliverEarly (s : State) (x : Crossing) : State :=
  let from_ := s.drawn
  let note := fun (y : Crossing) (t : State) =>
    { t.modCore fun c => { c with xings := c.xings.map fun z => if z.seq = x.seq then { y with early := none } else z } with
      drawn := from_ + 2 ^ 16 }
  if s.sourceBad x then note x s
  else
    let ks := (recvCores s.cur x.recv).filter fun k => !s.receiverFails s.cur k x
    let y := { x with fetched := some (s.rowsOf s.cur x), reached := BitVec.ofNat 4 (ks.foldl (fun n k => n + 2 ^ (k % 4)) 0) }
    note y (ks.foldl (fun t k => t.deliver s.cur k y (fun g => Config.choice (from_ + 16384 * (k % 4) + g)) false) s)

/-- `CROSSING_COMPLETE` (R173): every byte of an admitted crossing is in place. An xin delivers to every receiver that does
not fail, pulsing e3 there (R176, R177); a captured xout is visible at its homes and pulses e4. Ahead of that a part of an
xin's granules may be in place (R170). -/
def execCrossingComplete (seq : BitVec 32) (s : State) : Out :=
  match s.core.xings.find? fun x => decide (x.seq % 2 ^ 32 = seq.toNat) && x.admitted with
  | none => .next s
  | some x =>
    if s.core.crossingWaits x then .next s
    else if x.early.isSome then .next (s.deliverEarly x)
    else
    let gone := fun (s : State) => s.modCore fun c => { c with xings := c.xings.filter fun y => !decide (y.seq = x.seq) }
    if x.kind = 2 then
      match x.captured with
      | none => .next s
      | some bs =>
        -- bytes bound for a failed package report ERR on the path (R442)
        let lost := bs.any fun b => (s.pkgAt (keyPkg (b.1 / 2))).failed
        let s0 := if lost then s.modCore fun c => c.notePath 1 fun p => { p with err := true } else s
        let s1 := s0.putCaptured (bs.filter fun b => !x.stays.contains (b.1 / 2)) (fun _ => true)
        let s2 := match bs with | b :: _ => s1.awaitMirror (b.1 / 2) x.warm x.joined | [] => s1
        .next ((gone (s2.modCore fun c => c.standOver x bs)).pulse s.cur 4)
    else
      -- a source line with an uncorrectable error reports ERR on the path, and nothing crosses (R338). DESIGN CHOICE (log 54)
      let bad := s.sourceBad x
      let s := if bad then (match x.lost with
        | some line => s.meetBad line
        | none => s.meetRuns (warmRuns x.shape x.coord false x.rows)) else s
      let s1 := (recvCores s.cur x.recv).foldl (fun t k =>
        if t.missed s.cur k x then t.modCore fun c => c.notePath 0 fun p => { p with rx := p.rx ||| BitVec.ofNat 4 (2 ^ (k % 4)) }
        else if t.receiverGone s.cur k then t
        else (if bad then t else t.deliver s.cur k x (fun _ => true)).pulse k 3) s
      .next (gone (if bad then s1.modCore fun c => c.notePath 0 fun p => { p with err := true } else s1))

/-- A free part of a captured xout, by doublewords, is in place ahead of its completion (R171, R360): what is there stays. -/
def State.putAhead (s : State) : State :=
  match s.core.xings.find? fun x => x.captured.isSome && x.stays.isEmpty && !s.core.crossingWaits x with
  | none => s
  | some x =>
    let from_ := s.drawn
    let sel := fun dw => Config.choice (from_ + dw)
    let bs := x.captured.getD []
    let s1 := { s.putCaptured bs sel with drawn := from_ + 1 }
    s1.modCore fun c => { c with xings := c.xings.map fun y =>
      if y.seq = x.seq then { y with stays := (bs.map fun b => b.1 / 2).filter fun k => sel (k / 8) } else y }

/-- Bytes of earlier captured xouts of the core that have not left the egress buffer (R172). -/
def Core.egressHeld (c : Core) (clock : Nat) : Nat :=
  c.xings.foldl (fun n x => match x.captured with
    | some bs => n + min bs.length (x.linkEnd - clock)
    | none => n) 0

/-- The xout may be captured as far as its own core goes: admitted, stamp reached, buffer room for the `n` bytes it carries
(R171, R172). -/
def Core.capturable (c : Core) (scnt clock n : Nat) (x : Crossing) : Bool :=
  decide (x.kind = 2) && x.admitted && x.captured.isNone && decide (x.stamp ≤ scnt) && decide (x.level = c.level) &&
    (decide (c.egressHeld clock = 0) || decide (c.egressHeld clock + n ≤ Config.egressBytes))

/-- The crossing of core `k` holds its due stamp: an xinm does as long as one of its receivers does not fail (R177). -/
def State.holdsStamp (s : State) (k : Nat) (x : Crossing) : Bool :=
  decide (x.kind ≠ 1) || (recvCores k x.recv).any fun j => !s.missed k j x

/-- Every xin or xinm of the quad that reaches core `k` and is due at `stamp` or earlier is in place (R171). -/
def State.insInPlace (s : State) (k stamp : Nat) : Bool :=
  (List.range 4).all fun i =>
    let j := k / 4 * 4 + i
    let c := s.coreAt j
    !c.xings.any fun y => decide (y.kind ≠ 2) && y.recv.getLsbD (k % 4) && decide (y.stamp ≤ stamp) && decide (y.level = c.level) &&
      !s.missed j k y

/-- The bytes an xout of core `k` would carry now: nothing of a footprint that holds an uncorrectable granule, or whose boundary table
could not be read (R338), and none that a later xout has written (R175). DESIGN CHOICE (log 54). -/
def State.carried (s : State) (k : Nat) (x : Crossing) : List (Nat × Byte) :=
  let s1 := { s with cur := k }
  if x.lost.isSome ∨ (s1.badCapture x).isSome then [] else (s1.capture x).filter fun b => !x.stays.contains (b.1 / 2)

/-- The xout of core `k` can be captured now (R171, R172). -/
def State.capturable (s : State) (k : Nat) (x : Crossing) : Bool :=
  (s.coreAt k).capturable (s.scntOf (dieOf k)) s.clock (s.carried k x).length x && s.insInPlace k x.stamp

/-- A reader meets an uncorrectable error in cold granule `g` of the current core: it is logged (R412), and where the cold stores run in
OWNER mode the context that last wrote it ends (R338). -/
def State.meetCold (s : State) (g : Nat) : State :=
  let w := s.granOwner g
  let s1 := s.logOwn 2 (32 * g)
  if (s.pkgAt (pkgOf s.cur)).ownerMode 2 then s1.endOwner w else s1

/-- An xout that cannot read its footprint, or could not read its table, reports ERR on the path (R338). -/
def State.meetCapture (s : State) (x : Crossing) : State :=
  let err := fun (t : State) => t.modCore fun c => c.notePath 1 fun p => { p with err := true }
  match x.lost, s.badCapture x with
  | some line, _ => (err s).meetBad line
  | none, some g => (err s).meetCold g
  | none, none => s

/-- `XOUT_CAPTURE` (R171): the footprint as it stands, into the egress buffer; one byte a cold cycle leaves it. -/
def execXoutCapture (seq : BitVec 32) (s : State) : Out :=
  match s.core.xings.find? fun x => decide (x.seq % 2 ^ 32 = seq.toNat) && s.capturable s.cur x with
  | none => .next s
  | some x =>
    let bs := s.carried s.cur x
    let s := s.meetCapture x
    let busy := s.core.xings.foldl (fun n y => if y.kind = 2 ∧ y.captured.isSome then max n y.linkEnd else n) s.clock
    let (t, s1) := s.draw 4095
    .next (s1.modCore fun c =>
      { c with xings := c.xings.map fun y =>
          if y.seq = x.seq then { y with captured := some bs, linkEnd := busy + bs.length, due := some (busy + bs.length + 16 * t) } else y })

/-! ## Unit stalls (R142, R172) -/

/-- A crossing of a core that is late at this SCNT: an xin not in place whose stamp holds, as `holds` says; an xout neither
captured nor, as `can` says, about to be. -/
def lateCrossing (scnt level : Nat) (can holds : Crossing → Bool) (x : Crossing) : Bool :=
  decide (x.level = level) && decide (x.stamp ≤ scnt) && (if x.kind = 2 then x.captured.isNone && !can x else holds x)

/-- A `tstart` of a core whose command has not reached its engine by its stamp. -/
def lateStart (scnt level : Nat) (clock : Nat) (c : Core) : Bool :=
  (c.eq.any fun e => match e.op with
    | .tstart _ t => !e.killed && decide (e.level = level) && decide (t ≤ scnt)
    | _ => false) ||
  -- the starts of held engines are suspended (R387)
  !c.held && engines.any fun e =>
    (c.engine e).start.any fun x => decide (x.1 ≤ scnt) && decide (clock < x.2.1)

/-- A core holds its die at this SCNT; a core stopped by a trap suspends the stamps of its task (R387). `can` says which
xout is about to be captured, `holds` which xin holds its stamp. -/
def Core.lateNow (c : Core) (scnt clock : Nat) (can holds : Crossing → Bool) : Bool :=
  c.run.isSome && (c.xings.any (lateCrossing scnt c.level can holds) || lateStart scnt c.level clock c)

/-- Some core of die `d` is late. A stall lasts through the cold cycle in which its last xout is captured. -/
def State.dieLate (s : State) (d : Nat) : Bool :=
  let on := (s.dieAt d).stalled
  s.cores.any fun x => decide (dieOf x.1 = d) &&
    x.2.lateNow (s.scntOf d) s.clock (fun y => !on && s.capturable x.1 y) (s.holdsStamp x.1)

/-- `UNIT_STALL` (R172): the die's SCNT reads the same in the next cold cycle, its engines issue fillers in this one, and
STALLCNT of every task on it rises. -/
def execUnitStall (s : State) : Out :=
  let d := dieOf s.cur
  if s.dieLate d then
    let s1 := s.modDieAt d fun x => { x with stalled := true, stallAt := some (x.stallAt.getD s.clock) }
    .next { s1 with cores := s1.cores.map fun x =>
              if dieOf x.1 = d ∧ x.2.run.isSome then (x.1, { x.2 with stallCnt := x.2.stallCnt + 1 }) else x }
  else .next (s.modDieAt d fun x => { x with stalled := false, stallAt := none })

/-- The stall of the current core's die has lasted STALLIM warm cycles (R172). -/
def State.stallOver (s : State) : Bool :=
  match (s.dieAt (dieOf s.cur)).stallAt with
  | some t => decide (t + s.core.stallim.toNat * Config.coldPerWarm ≤ s.clock)
  | none => false

/-- `SMISS` (R142, R172): the core's late crossings are cancelled, its late `tstart` is removed, and it traps. -/
def execSmiss (s : State) : Out :=
  let c := s.core
  let can := s.capturable s.cur
  let holds := s.holdsStamp s.cur
  if !s.stallOver ∨ !c.lateNow s.scnt s.clock can holds then .next s
  else
    let late := c.xings.filter (lateCrossing s.scnt c.level can holds)
    let late1 := fun (x : Nat × Nat × Word) => !c.held && decide (x.1 ≤ s.scnt) && decide (s.clock < x.2.1)
    let addr := match late with
      | x :: _ => cancelHandle x.seq x.kind.toNat
      | [] =>
        match c.eq.find? fun e => (match e.op with | .tstart _ t => decide (t ≤ s.scnt) && decide (e.level = c.level) | _ => false) with
        | some e => e.word
        | none => ((engines.flatMap fun e => ((c.engine e).start.filter late1).map fun x => x.2.2).head?).getD 0
    let s1 := late.foldl (fun t x => (t.cancelCrossing x.seq).2) s
    let s2 := s1.modCore fun c =>
      let c := { c with eq := c.eq.filter fun e => !(match e.op with | .tstart _ t => decide (t ≤ s.scnt) && decide (e.level = c.level) | _ => false) }
      engines.foldl (fun c e => c.modEngine e fun x => { x with start := x.start.filter fun y => !late1 y }) c
    .next (s2.takeTrap (causeOf 3 0 0x1A) addr 0)

end Sys2Proof.Machine
end

