-- ==== Sys2Proof/Machine/EngineCtl.lean ====
section
/-! DEFINITION. The engine control words and the engine command queue (R140 to R147), event words and terms (R148 to
R150), the start and the end of tables, and the traps DEPTO and PLEN (R113, R132). -/

namespace Sys2Proof.Machine

/-! ## Issue -/

/-- Order-store words granted to an engine (OSQUOTA of R31). -/
def Core.granted (c : Core) (e : EngineId) : Nat :=
  match e with
  | .matrix => bits c.slot.osquota 0 13
  | .vector => bits c.slot.osquota 13 13
  | .temporal => bits c.slot.osquota 26 10

/-- Words of an engine's order store (R25). -/
def storeSize (e : EngineId) : Nat :=
  match e with
  | .matrix => 4096
  | .vector => 4096
  | .temporal => 512

/-- `tstart` (R142): the stamp is SCNT at issue plus gA; 2^32 or more raises STARTF. -/
def execTstart (sy : BitVec 1) (dep : BitVec 4) (a : BitVec 5) (e : BitVec 2) (s : State) : Out :=
  control sy dep [gR a] [] s fun s =>
    if 2 ^ 32 ≤ (s.g a).toNat then .trap 0x15 s.wordHandle
    else if !s.room .engine then .hold s
    else .done (s.command (.tstart (engineOf e) (s.core.stampOf .engine (s.scnt + (s.g a).toNat))))

/-- `tstart.ev` (R143). -/
def execTstartEv (sy : BitVec 1) (dep t : BitVec 4) (e : BitVec 2) (s : State) : Out :=
  control sy dep [] [] s fun s =>
    if !s.room .engine then .hold s else .done (s.command (.tstartEv (engineOf e) t.toNat))

/-- `tstop` (R144). -/
def execTstop (sy : BitVec 1) (dep : BitVec 4) (e : BitVec 2) (s : State) : Out :=
  control sy dep [] [] s fun s =>
    if !s.room .engine then .hold s else .done (s.command (.tstop (engineOf e)))

/-- `tbase` (R145): a base outside the words granted raises ORDER at issue. -/
def execTbase (sy : BitVec 1) (dep : BitVec 4) (a : BitVec 5) (e : BitVec 2) (s : State) : Out :=
  control sy dep [gR a] [] s fun s =>
    if s.core.granted (engineOf e) ≤ (s.g a).toNat then .trap 0x16 s.wordHandle
    else if !s.room .engine then .hold s
    else .done (s.command (.tbase (engineOf e) (s.g a).toNat))

/-- `tsync` (R146): the cluster waits until its entry has been performed. -/
def execTsync (sy : BitVec 1) (dep : BitVec 4) (e : BitVec 2) (s : State) : Out :=
  match s.cl.wait with
  | .performed => waiting sy 0 s fun s => .done s
  | .entry _ => .next s
  | _ =>
    control sy dep [] [] s fun s =>
      if !s.room .engine then .hold s
      else
        let s1 := s.command (.tsync (engineOf e))
        .start s1 (.entry s1.core.eqIssued)

/-- The kernel whose code region holds the entry bundle of a task. -/
def Part.kernelOf (p : Part) (code : Word) : Option KernelImage :=
  p.kernels.find? fun k => decide (k.codeIndex.toNat = regionIdx code)

/-- A region the image of `tload` may come from (R147): a pinned RO region of the launch's own kernel, or, in a handler, any
pinned RO region of the partition. -/
def State.imageRegion (s : State) (h : Word) : Bool :=
  match s.regionOf s.partNo (regionIdx h) with
  | some r => r.pinned && !r.rw &&
    (s.core.inHandler ||
      (match s.part.kernelOf s.core.slot.code with
       | some k => decide (k.codeIndex.toNat = regionIdx h) || k.regions.any fun x => decide (x.index.toNat = regionIdx h)
       | none => false))
  | none => false

/-- Bytes of an order of an engine. -/
def orderBytes (e : EngineId) : Nat :=
  match e with
  | .matrix => 8
  | .vector | .temporal => 4

/-- `tload` (R147): the handle is checked at issue, where a count of 0 still asks for the handle itself to be in range (R14); the image
at the queue head. For an image that runs past the end of its region the rule names no outcome: XLATE at the first byte outside.
DESIGN CHOICE (log 53). -/
def execTload (sy : BitVec 1) (dep : BitVec 4) (a b : BitVec 5) (e : BitVec 2) (s : State) : Out :=
  control sy dep [gR a, gR b] [] s fun s =>
    let h := s.g a
    let n := bits (s.g b) 0 16
    if !s.core.tlb.contains (regionIdx h) then .hold (s.walk (regionIdx h))
    else if !s.imageRegion h then .trap 0x08 h
    else if s.locate s.partNo h (max 1 (n * orderBytes (engineOf e))) = none then .trap 0x08 (s.firstOut s.partNo h)
    else if !s.room .engine then .hold s
    else .done (s.command (.tload (engineOf e) h (bits (s.g b) 16 16) n (decide (bits (s.g b) 32 32 ≠ 0))))

/-- A term descriptor that `evcfg` accepts (R149). -/
def termOk (v : Word) : Bool :=
  decide (bits v 38 26 = 0) && decide (bits v 32 4 = 0) && decide (bits v 16 16 ≠ 0) && decide (bits v 0 16 ≠ 0)

/-- `evcfg` (R149). -/
def execEvcfg (sy : BitVec 1) (dep : BitVec 4) (a : BitVec 5) (n : BitVec 4) (s : State) : Out :=
  compared sy dep [gR a] [] s fun s =>
    if termOk (s.g a) then .done (s.modCore fun c => c.modCold fun m => { m with term := Sp.set 0 m.term n.toNat (s.g a) })
    else .trap 0x17 s.wordHandle

/-- `evsig` (R150). -/
def execEvsig (sy : BitVec 1) (dep n : BitVec 4) (s : State) : Out :=
  compared sy dep [] [] s fun s => .done (s.ownPulse n.toNat)

/-- Event counter `n`. -/
def Cold.counter (m : Cold) (n : Nat) : Nat := (Sp.get 0 m.ev n).toNat
def Cold.setCounter (m : Cold) (n v : Nat) : Cold := { m with ev := Sp.set 0 m.ev n (BitVec.ofNat 16 v) }

/-! ## The engine command queue -/

/-- A command that waits at the head for its engine to be idle. -/
def QOp.waitsFor : QOp → Option EngineId
  | .tbase e _ => some e
  | .tsync e => some e
  | .tload e _ _ _ _ => some e
  | .xput code _ => some (if code < 16 then .matrix else if code < 32 then .vector else .temporal)
  | _ => none

/-- The term is armed for some engine. -/
def Core.termArmed (c : Core) (n : Nat) : Bool :=
  engines.any fun e => match (c.engine e).armed with
    | some (m, _, _) => decide (m = n)
    | none => false

/-- Perform an engine command that needs no heat test. -/
def State.performCommand (s : State) (e : QEntry) : State :=
  let s1 := s.retire .engine e.seq
  if e.killed then s1.answer e.lane e.seq .performed
  else match e.op with
  | .tstart n t =>
    s1.modCore fun c => c.modEngine n fun x => { x with start := x.start ++ [(t, s.clock + Config.engineReach, e.word)] }
  | .tstartEv n t =>
    let desc := Sp.get 0 s.core.cold.term t
    if !s.core.idle n ∨ s.core.termArmed t ∨ desc = 0 then s.queueTrap .engine e 0x15 e.word
    else match s.core.owedFire n with
    | some f =>
      s1.modCore fun c =>
        { c.modEngine n fun x => { x with start := x.start ++ [(f, s.clock, e.word)] } with
          owed := { c.owed with fires := c.owed.fires.erase (engineIdx n, f) },
          win := c.win.map fun y => { y with fires := y.fires ++ [(engineIdx n, f)] } }
    | none => s1.modCore fun c => c.modEngine n fun x => { x with armed := some (t, desc, e.word), armAt := s.clock }
  | .tstop n =>
    s1.modCore fun c => c.modEngine n fun x => { x with run := false, fill := 0, skip := 0, loops := [], pulse := x.pulse || x.run, armed := none }
  | .tbase n v => s1.modCore fun c => c.modEngine n fun x => { x with base := v }
  | .tsync _ => s1.answer e.lane e.seq .performed
  | _ => s1

/-- `ENGINE_COMMAND_PERFORM` (R140, R405): the entry at the head is compared, waits for its engine where it must, and is
performed; `xput` and `tload` pass the heat test first (CROSSING_ADMIT). DEDUCED (log 37). -/
def execEngineCommandPerform (s : State) : Out :=
  match s.ready .engine with
  | none => .next s
  | some e =>
    let tested := match e.op with
      | .xput _ _ | .tload _ _ _ _ _ => !e.killed
      | _ => false
    let waits := match e.op.waitsFor with
      | some n => !e.killed && !s.core.idle n
      | none => false
    if tested then .next s
    else if s.core.willMismatch then .next (s.entryMismatch .engine e)
    else if waits then .next s
    else .next (s.performCommand e)

/-! ## Tables -/

/-- A start whose stamp SCNT has reached and whose command has reached the engine (R142). -/
def State.dueStart (s : State) (e : EngineId) : Option (Nat × Nat × Word) :=
  if s.core.held then none
  else (s.core.engine e).start.find? fun x => decide (x.1 ≤ s.scnt) && decide (x.2.1 ≤ s.clock)

/-- The engine still runs a table, holds a term, or has results of an earlier table not written (R142). -/
def Core.busyEngine (c : Core) (e : EngineId) : Bool :=
  !c.idle e && !(c.modEngine e fun x => { x with start := [] }).idle e

/-- The condition of a term descriptor holds (R149). -/
def Cold.termHolds (m : Cold) (d : Word) : Bool :=
  let sel := (List.range 16).filter fun n => d.getLsbD n
  let met := fun n => decide (bits d 16 16 ≤ m.counter n)
  if d.getLsbD 36 then sel.any met else sel.all met

/-- CONS: THRESH is taken from each selected counter, under OP 1 only from those that met it (R149). -/
def Cold.consume (m : Cold) (d : Word) : Cold :=
  if d.getLsbD 37 then
    (List.range 16).foldl (fun x n =>
      if d.getLsbD n ∧ bits d 16 16 ≤ m.counter n then x.setCounter n (m.counter n - bits d 16 16) else x) m
  else m

/-- The engine for which term `n` is armed. -/
def Core.armedFor (c : Core) (n : Nat) : Option EngineId :=
  engines.find? fun e => match (c.engine e).armed with | some (m, _, _) => decide (m = n) | none => false

/-- Term `n` is tested: where its condition holds it is disarmed and the table starts 32 cold cycles later, or 32 after the
resumption of a stopped core (R143, R149, R387). -/
def State.fireTerm (s : State) (n : Nat) : State :=
  let c := s.core
  match c.armedFor n with
  | none => s
  | some e =>
    match (c.engine e).armed with
    | none => s
    | some (_, d, w) =>
      if (c.engine e).armAt < s.clock ∧ c.cold.termHolds d then
        let t := (if c.held then (if c.accLost then c.cutNest else c.cutAt) else s.scnt) + 32
        s.modCore fun c =>
          let c1 := (c.modCold (·.consume d)).modEngine e fun x => { x with armed := none, start := x.start ++ [(t, s.clock, w)] }
          { c1 with win := c1.win.map fun y => { y with fires := y.fires ++ [(engineIdx e, t)] } }
      else s

/-- `TERM_FIRE` (R143, R149). -/
def execTermFire (n : BitVec 4) (s : State) : Out := .next (s.fireTerm n.toNat)

/-- `evwait` (R150): waits until the counter reaches gA[15:0], then subtracts it. The armed terms of the cold cycle are tested first
(R292). -/
def execEvwait (sy : BitVec 1) (dep : BitVec 4) (a : BitVec 5) (n : BitVec 4) (s : State) : Out :=
  control sy dep [gR a] [] s fun s => recalled 0 s fun s =>
    let s := (List.range 16).foldl State.fireTerm s
    let need := bits (s.g a) 0 16
    let v := s.core.cold.counter n.toNat
    if need ≤ v then doneWith (s.modCore fun c => c.modCold fun m => m.setCounter n.toNat (v - need)) 0 0 1 else .hold s

/-- `ENGINE_IDLE` (R141, R148): the table has ended and every result is written: e0, e1 or e2. -/
def execEngineIdle (e : EngineId) (s : State) : Out :=
  if (s.core.engine e).pulse ∧ !(s.core.engine e).run ∧ !s.core.busyEngine e then
    .next ((s.modCore fun c => c.modEngine e fun x => { x with pulse := false }).ownPulse (engineIdx e))
  else .next s

/-! ## DEPTO and PLEN -/

/-- The wait of a `wfi`, which ends without a trap (R113, R156), and one that has ended with what its queue entry met. -/
def Wait.sleeps : Wait → Bool
  | .asleep _ | .awake _ | .performed | .loaded _ | .failed _ _ => true
  | _ => false

/-- `DEPTO` (R87, R113): a wait at issue has lasted STALLIM warm cycles. DEDUCED (log 33). -/
def execDepto (l : Lane) (s : State) : Out :=
  let x := s.core.cluster l
  match x.since with
  | none => .next s
  | some t =>
    if !s.core.halting ∧ !x.wait.sleeps ∧ !x.stopped ∧ t + s.core.stallim.toNat ≤ s.warm then
      .next (({ s with lane := l }.modCore fun c => c.dropWaited x.wait l).wordTrap 0x14 (x.pc + word (4 * laneIdx l)))
    else .next s

/-- The declared length of the preemptible loop whose word stands in lane `l` of bundle `id` (R108, R132). -/
def State.iterLimit (s : State) (l : Lane) (id : Word) : Option Nat :=
  match s.part.kernelOf s.core.slot.code with
  | some k => (k.preempt.find? fun x => decide (x.1 = id + word (4 * laneIdx l))).map (·.2)
  | none => none

/-- An iteration of a preemptible loop of cluster `l` has run longer than declared. -/
def State.overlong (s : State) (l : Lane) : Bool :=
  (s.core.cluster l).loops.any fun e => e.pre && (match s.iterLimit l e.id with
    | some n => decide (e.began + n < s.warm)
    | none => false)

/-- Every cluster stands at a word a pending request does not let it issue, or at a `join` whose partners do (R399). -/
def Core.atStop (c : Core) : Bool :=
  lanes.any (fun l => (c.cluster l).stopped) && lanes.all fun l => (c.cluster l).stopped || (c.cluster l).atJoin

/-- The stop point was not reached within STALLIM warm cycles of the request (R400). -/
def Core.drainOver (c : Core) (warm : Nat) : Bool :=
  match c.preempt with
  | some t => c.stopping && !c.drained && !c.atStop && decide (t + c.stallim.toNat ≤ warm)
  | none => false

/-- `PLEN` (R132, R400): an overlong iteration, or a cluster that has not stopped for a pre-emption. DEDUCED (log 33). -/
def execPlen (l : Lane) (s : State) : Out :=
  let x := s.core.cluster l
  if s.core.halting then .next s
  else if s.overlong l ∨ (s.core.drainOver s.warm ∧ !x.stopped) then
    -- after the handler the drain goes on, with a new limit (R400)
    let s1 := s.modCore fun c => { c with preempt := c.preempt.map fun _ => s.warm }
    .next ({ s1 with lane := l }.wordTrap 0x12 (x.pc + word (4 * laneIdx l)))
  else .next s

end Sys2Proof.Machine
end

