-- ==== Sys2Proof/Machine/Num.lean ====
section
/-! DEFINITION. Numbers, bit by bit (R40 to R72): exact values, one rounding, conversions, the special functions. -/

namespace Sys2Proof.Machine

/-! ## Values -/

/-- An exact value: NaN, an infinity, or ±m × 2^e, zeros signed. -/
inductive Val where
  | nan
  | inf (neg : Bool)
  | num (neg : Bool) (m : Nat) (e : Int)
  deriving DecidableEq, Repr

/-- The floating-point formats of R40. -/
inductive Fp where
  | fp32 | fp16 | bf16 | e4m3 | e5m2 | e2m1
  deriving DecidableEq, Repr

/-- Fraction bits, bits below the sign, exponent of the smallest normal, code of the largest finite value. -/
def Fp.frac : Fp → Nat
  | .fp32 => 23 | .fp16 => 10 | .bf16 => 7 | .e4m3 => 3 | .e5m2 => 2 | .e2m1 => 1
def Fp.width : Fp → Nat
  | .fp32 => 31 | .fp16 => 15 | .bf16 => 15 | .e4m3 => 7 | .e5m2 => 7 | .e2m1 => 3
def Fp.emin : Fp → Int
  | .fp32 => -126 | .fp16 => -14 | .bf16 => -126 | .e4m3 => -6 | .e5m2 => -14 | .e2m1 => 0
def Fp.maxCode : Fp → Nat
  | .fp32 => 0x7F7FFFFF | .fp16 => 0x7BFF | .bf16 => 0x7F7F | .e4m3 => 0x7E | .e5m2 => 0x7B | .e2m1 => 0x7

/-- The code of infinity, for the formats that have one. -/
def Fp.infCode : Fp → Option Nat
  | .fp32 => some 0x7F800000 | .fp16 => some 0x7C00 | .bf16 => some 0x7F80 | .e5m2 => some 0x7C | .e4m3 | .e2m1 => none

/-- The canonical NaN (R45); e2m1 has none. -/
def Fp.nanCode : Fp → Nat
  | .fp32 => 0x7FC00000 | .fp16 => 0x7E00 | .bf16 => 0x7FC0 | .e4m3 => 0x7F | .e5m2 => 0x7E | .e2m1 => 0

/-- The value of a code (R40, R41). -/
def Fp.decode (f : Fp) (code : Nat) : Val :=
  let mag := code % 2 ^ f.width
  let neg := decide (code / 2 ^ f.width % 2 = 1)
  if f.maxCode < mag then (if f.infCode = some mag then .inf neg else .nan)
  else
    let ef := mag / 2 ^ f.frac
    let m := mag % 2 ^ f.frac
    if ef = 0 then .num neg m (f.emin - f.frac) else .num neg (m + 2 ^ f.frac) (f.emin - f.frac + ef - 1)

/-! ## Rounding (R48 to R50) -/

/-- m × 2^e as a multiple of 2^q, rounded by RM, with the random bits of SR: the multiple. -/
def roundAt (rm : BitVec 3) (neg : Bool) (rnd m : Nat) (e q : Int) : Nat :=
  if q ≤ e then m * 2 ^ (e - q).toNat
  else
    let sh := (q - e).toNat
    let n := m / 2 ^ sh
    let r := m % 2 ^ sh
    let up := match rm with
      | 0#3 => decide (2 ^ sh < 2 * r) || (decide (2 * r = 2 ^ sh) && decide (n % 2 = 1))
      | 1#3 => false
      | 2#3 => neg && decide (r ≠ 0)
      | 3#3 => !neg && decide (r ≠ 0)
      | _ => decide (65536 * 2 ^ sh ≤ 65536 * r + rnd * 2 ^ sh)
    if up then n + 1 else n

/-- The code of ±m × 2^e in a format as if its exponent range were unbounded above: codes beyond the largest finite one
are overflows. -/
def Fp.roundMag (f : Fp) (rm : BitVec 3) (neg : Bool) (rnd m : Nat) (e : Int) : Nat :=
  if m = 0 then 0
  else
    let low := f.emin - f.frac
    let q := max low ((m.log2 : Int) + e - f.frac)
    (q - low).toNat * 2 ^ f.frac + roundAt rm neg rnd m e q

def Fp.sign (f : Fp) (neg : Bool) : Nat := if neg then 2 ^ f.width else 0

/-- The fp32 result of an arithmetic order: rounded once, overflow to infinity, NaN canonical (R45, R53). -/
def round32 (rm : BitVec 3) (rnd : Nat) (v : Val) : Word32 :=
  let f := Fp.fp32
  match v with
  | .nan => BitVec.ofNat 32 f.nanCode
  | .inf neg => BitVec.ofNat 32 (f.sign neg + 0x7F800000)
  | .num neg m e => BitVec.ofNat 32 (f.sign neg + min (f.roundMag rm neg rnd m e) 0x7F800000)

/-- The value of an fp32 word. -/
def val32 (w : Word32) : Val := Fp.fp32.decode w.toNat

/-! ## Exact arithmetic (R46, R47) -/

def Val.isNan : Val → Bool
  | .nan => true
  | _ => false

def Val.neg : Val → Val
  | .nan => .nan
  | .inf n => .inf !n
  | .num n m e => .num (!n) m e

def Val.mul : Val → Val → Val
  | .nan, _ | _, .nan => .nan
  | .inf a, .inf b => .inf (a != b)
  | .inf a, .num b m _ | .num b m _, .inf a => if m = 0 then .nan else .inf (a != b)
  | .num a m e, .num b n f => .num (a != b) (m * n) (e + f)

/-- The signed mantissa of a finite value at exponent `q`, which lies at or below its own. -/
def Val.at : Val → Int → Int
  | .num n m e, q => (if n then -1 else 1) * ((m * 2 ^ (e - q).toNat : Nat) : Int)
  | _, _ => 0

def Val.exp : Val → Int
  | .num _ _ e => e
  | _ => 0

def Val.isZero : Val → Bool
  | .num _ 0 _ => true
  | _ => false

def Val.negZero : Val → Bool
  | .num true 0 _ => true
  | _ => false

/-- The exact sum of terms, with the sign of a zero by R47; no term gives +0. -/
def sumVals (rm : BitVec 3) (ts : List Val) : Val :=
  let pos := ts.any fun t => decide (t = .inf false)
  let neg := ts.any fun t => decide (t = .inf true)
  if ts.any Val.isNan ∨ (pos ∧ neg) then .nan
  else if pos then .inf false
  else if neg then .inf true
  else
    match ts with
    | [] => .num false 0 0
    | t :: rest =>
      let q := rest.foldl (fun q x => min q x.exp) t.exp
      let n : Int := ts.foldl (fun (a : Int) x => a + x.at q) 0
      if n = 0 then .num (ts.all Val.negZero || decide (rm = 2)) 0 0 else .num (decide (n < 0)) n.natAbs q

/-- a + b, a − b, a × b, a × b + c as fp32 words, rounded once. -/
def add32 (rm : BitVec 3) (rnd : Nat) (a b : Word32) : Word32 := round32 rm rnd (sumVals rm [val32 a, val32 b])
def sub32 (rm : BitVec 3) (rnd : Nat) (a b : Word32) : Word32 := round32 rm rnd (sumVals rm [val32 a, (val32 b).neg])
def mul32 (rm : BitVec 3) (rnd : Nat) (a b : Word32) : Word32 := round32 rm rnd ((val32 a).mul (val32 b))
def fma32 (rm : BitVec 3) (rnd : Nat) (a b c : Word32) : Word32 :=
  round32 rm rnd (sumVals rm [(val32 a).mul (val32 b), val32 c])

/-- The order of fp32 words that are not NaN, −0 below +0. -/
def key32 (w : Word32) : Int :=
  let m : Int := ((w.toNat % 2 ^ 31 : Nat) : Int)
  if w.getLsbD 31 then -m - 1 else m

def isNan32 (w : Word32) : Bool := decide (0x7F800000 < w.toNat % 2 ^ 31)
def nan32 : Word32 := 0x7FC00000
def isFinite32 (w : Word32) : Bool := decide (w.toNat % 2 ^ 31 < 0x7F800000)

/-- 2019 minimum and maximum (R46). -/
def min32 (a b : Word32) : Word32 := if isNan32 a ∨ isNan32 b then nan32 else if key32 a ≤ key32 b then a else b
def max32 (a b : Word32) : Word32 := if isNan32 a ∨ isNan32 b then nan32 else if key32 a ≤ key32 b then b else a

/-- An fp32 comparison where ±0 are equal; NaN is unordered. -/
def lt32 (a b : Word32) : Bool :=
  !isNan32 a && !isNan32 b && !(decide (a.toNat % 2 ^ 31 = 0) && decide (b.toNat % 2 ^ 31 = 0)) && decide (key32 a < key32 b)
def eq32 (a b : Word32) : Bool :=
  !isNan32 a && !isNan32 b && ((decide (a.toNat % 2 ^ 31 = 0) && decide (b.toNat % 2 ^ 31 = 0)) || decide (a = b))

/-! ## Element formats by FMT (R22, R42, R43) -/

def fpOf (fmt : Nat) : Option Fp :=
  match fmt with
  | 0 => some .fp32
  | 1 => some .fp16
  | 2 => some .bf16
  | 3 => some .e4m3
  | 4 => some .e5m2
  | 5 => some .e2m1
  | _ => none

/-- A signed integer as a value. -/
def Val.ofInt (n : Int) : Val := .num (decide (n < 0)) n.natAbs 0

/-- Two's complement of the low `w` bits. -/
def signedOf (w code : Nat) : Int := (BitVec.ofNat w code).toInt

/-- The value of an element code; `never` converts as +∞ (R52). -/
def decodeElem (fmt code : Nat) : Val :=
  match fpOf fmt with
  | some f => f.decode code
  | none =>
    match fmt with
    | 6 => .ofInt (signedOf 8 code)
    | 7 => .ofInt (signedOf 4 code)
    | 9 => .ofInt (signedOf 32 code)
    | _ => if code % 256 = 255 then .inf false else .ofInt (code % 256 : Nat)

/-- Kinds of an overflow event (R55). -/
def kindSat : Nat := 1
def kindInf : Nat := 2
def kindNanz : Nat := 4
def kindBadcb : Nat := 8

/-- Lowest and highest value of the integer formats. -/
def intRange (fmt : Nat) : Int × Int :=
  match fmt with
  | 6 => (-128, 127)
  | 7 => (-8, 7)
  | _ => (-2147483648, 2147483647)

/-- Conversion to an element format (R52): code and event kinds. -/
def encodeElem (fmt : Nat) (rm : BitVec 3) (sat : Bool) (rnd : Nat) (v : Val) : Nat × Nat :=
  match fpOf fmt with
  | some f =>
    match v with
    | .nan => if f = .e2m1 then (0, kindNanz) else (f.nanCode, 0)
    | .inf neg =>
      match f with
      | .fp32 => (f.sign neg + 0x7F800000, 0)
      | .fp16 | .bf16 => if sat then (f.sign neg + f.maxCode, kindSat) else (f.sign neg + f.infCode.getD 0, 0)
      | _ => (f.sign neg + f.maxCode, kindSat)
    | .num neg m e =>
      let c := f.roundMag rm neg rnd m e
      if c ≤ f.maxCode then (f.sign neg + c, 0)
      else match f with
        | .fp32 => (f.sign neg + 0x7F800000, kindInf)
        | .fp16 | .bf16 => if sat then (f.sign neg + f.maxCode, kindSat) else (f.sign neg + f.infCode.getD 0, kindInf)
        | _ => (f.sign neg + f.maxCode, kindSat)
  | none =>
    if fmt = 10 then
      match v with
      | .nan => (255, kindNanz)
      | .inf neg => if neg then (0, kindSat) else (255, 0)
      | .num neg m e =>
        let n := roundAt rm neg rnd m e 0
        if neg then (if n = 0 then (0, 0) else (0, kindSat)) else if 254 < n then (255, 0) else (n, 0)
    else
      let (lo, hi) := intRange fmt
      let w := elemWidth fmt
      let enc := fun (n : Int) => (BitVec.ofInt w n).toNat
      match v with
      | .nan => (0, kindNanz)
      | .inf neg => (enc (if neg then lo else hi), kindSat)
      | .num neg m e =>
        let a := roundAt rm neg rnd m e 0
        let n : Int := if neg then -(a : Int) else (a : Int)
        if n < lo then (enc lo, kindSat) else if hi < n then (enc hi, kindSat) else (enc n, 0)
where
  elemWidth (fmt : Nat) : Nat := match fmt with
    | 6 => 8
    | 7 => 4
    | _ => 32

/-! ## The LFSRs (R50, R51) -/

def lfsrStep (s : Word32) : Word32 := if s.getLsbD 0 then (s >>> 1) ^^^ 0x80200003 else s >>> 1

/-- Lane `i` of Seed(S), and the states of the 64 lanes. -/
def seedLane (s : Word32) (i : Nat) : Word32 :=
  let v := s + 0x9E3779B9 * BitVec.ofNat 32 (i + 1)
  if v = 0 then 1 else v

def seedLanes (s : Word32) : Sp Word32 := (List.range 64).map fun i => (i, seedLane s i)

/-- The LFSR of lane `i`: from reset on Seed(0) until a task or a write of `vs15` seeds it (R25, R39, R51). DESIGN CHOICE (log 5). -/
def Cold.lfsrAt (m : Cold) (i : Nat) : Word32 := Sp.get (seedLane 0 i) m.lfsr i

/-! ## Special functions (R68 to R72) -/

/-- Fixed-point precision of the special functions, and ln 2 in it. -/
def fixBits : Nat := 320
def ln2Fix : Nat := 1480553391661173448385607439722553250922680800745876974795605978609098082859138712941075737848984

/-- Terms 1, x, x²/2!, … of e^x, x in fixed point: their sum from the term given on. -/
def expSum (x : Nat) : Nat → Nat → Nat → Nat
  | 0, _, _ => 0
  | n + 1, k, t => t + expSum x n (k + 1) (t * x / 2 ^ fixBits / k)

/-- 2^f in fixed point, for f in [0, 1) in fixed point. -/
def exp2Fix (f : Nat) : Nat :=
  let x := f * ln2Fix / 2 ^ fixBits
  expSum x 100 1 (2 ^ fixBits)

/-- An exact result above the largest finite value of fp32 is an infinity (R68). -/
def Val.capped : Val → Val
  | .num false m e =>
    let q := min e 104
    if (2 ^ 24 - 1) * 2 ^ (104 - q).toNat < m * 2 ^ (e - q).toNat then .inf false else .num false m e
  | v => v

/-- 2^v (R68): integer arguments are exact, others a value that rounds as the exact one does. -/
def exp2Val (v : Val) : Val :=
  match v with
  | .nan => .nan
  | .inf neg => if neg then .num false 0 0 else .inf false
  | .num neg m e =>
    -- x in fixed point, floor and fraction; arguments beyond the range of fp32 are cut first
    if m = 0 then .num false 1 0
    else if 9 < (m.log2 : Int) + e then (if neg then .num false 0 0 else .inf false)
    else
      let q : Int := e + fixBits
      let a := if q < 0 then 0 else m * 2 ^ q.toNat
      let x : Int := if neg then -(a : Int) else (a : Int)
      let i := x / (2 ^ fixBits : Nat)
      let f := (x % (2 ^ fixBits : Nat)).toNat
      Val.capped (if f = 0 then .num false 1 i else .num false (2 * exp2Fix f + 1) (i - fixBits - 1))

/-- 1 + z²/3 + z⁴/5 + …: the sum from the term `t` = z^(2k) with divisor `d` on. -/
def atanhSum (z2 : Nat) : Nat → Nat → Nat → Nat
  | 0, _, _ => 0
  | n + 1, d, t => t / d + atanhSum z2 n (d + 2) (t * z2 / 2 ^ fixBits)

/-- log2 of m × 2^−p for m in [2^p, 2^(p+1)), in fixed point. -/
def log2Fix (m p : Nat) : Nat :=
  let z := (m - 2 ^ p) * 2 ^ fixBits / (m + 2 ^ p)
  let z2 := z * z / 2 ^ fixBits
  -- 2 z (1 + z²/3 + …) / ln 2
  2 * (z * atanhSum z2 110 1 (2 ^ fixBits)) / ln2Fix

/-- log2 (R70). -/
def log2Val (v : Val) : Val :=
  match v with
  | .nan => .nan
  | .inf neg => if neg then .nan else .inf false
  | .num neg m e =>
    if m = 0 then .inf true
    else if neg then .nan
    else
      let p := m.log2
      let k : Int := p + e
      if m = 2 ^ p then .ofInt k
      else
        let n : Int := k * (2 ^ fixBits : Nat) + (log2Fix m p : Nat)
        -- one more bit marks the value as inexact
        .num (decide (n < 0)) (2 * n.natAbs + 1) (-(fixBits : Int) - 1)

/-- 1/x (R71). -/
def rcpVal (v : Val) : Val :=
  match v with
  | .nan => .nan
  | .inf neg => .num neg 0 0
  | .num neg m e =>
    if m = 0 then .inf neg
    else
      let s := m.log2 + 80
      let n := 2 ^ s / m
      let r := 2 ^ s % m
      .num neg (2 * n + (if r = 0 then 0 else 1)) (-e - s - 1)

/-- Integer square root, bit by bit from the highest. -/
def sqrtBits (n : Nat) : Nat → Nat → Nat
  | 0, a => a
  | k + 1, a => sqrtBits n k (if (a + 2 ^ k) * (a + 2 ^ k) ≤ n then a + 2 ^ k else a)

/-- 1/√x (R71). -/
def rsqVal (v : Val) : Val :=
  match v with
  | .nan => .nan
  | .inf neg => if neg then .nan else .num false 0 0
  | .num neg m e =>
    if m = 0 then .inf neg
    else if neg then .nan
    else
      -- x = m' 2^(2h), so 1/√x = 2^−h/√m'
      let h := e / 2
      let m' := if e % 2 = 0 then m else 2 * m
      let s := m'.log2 + 60
      let n := 2 ^ (2 * s) / m'
      let y := sqrtBits n (s + 1) 0
      let exact := decide (y * y * m' = 2 ^ (2 * s))
      .num false (2 * y + (if exact then 0 else 1)) (-h - s - 1)

end Sys2Proof.Machine
end

