-- ==== Sys2Proof/Machine/Own.lean ====
section
/-! DEFINITION. Owner tokens: the `own` words (R271 to R279) and the completion of a send (R274 to R277). -/

namespace Sys2Proof.Machine

/-! ## Checks at issue (R272) -/

/-- The span an `own` word names: its region, head and head entry, or the trap of checks 1 and 2 for RO regions. -/
def State.spanOf (s : State) (h : Word) : Except (Nat × Word) (Region × Nat × Token) :=
  match s.locate s.partNo h 1 with
  | none => .error (0x08, h)
  | some (r, _) =>
    if !r.rw then .error (0x09, handleOf (regionIdx h) 0)
    else let x := s.part.headOf (unitOf r h); .ok (r, x.1, x.2)

/-- The caller holds the span EXCL, LVALID as given, and no send of it is in flight (R271). -/
def State.holdsExcl (s : State) (head : Nat) (t : Token) (lent : Bool) : Bool :=
  s.exclusive t && decide (t.lvalid = lent) && (s.sendLeaves true head).isNone

/-- A peer operand is a core address of another core (R268, R272). -/
def State.peerOk (s : State) (a : Word) : Bool :=
  decide (bits a 40 24 = 0) && decide (bits a 0 22 = 0) && decide (bits a 30 10 < Config.packages) &&
  !(decide (bits a 30 10 = pkgOf s.cur) && decide (bits a 22 8 = s.core.slot.coreId.toNat))

/-- The status word of R273. -/
def statusWord (head : Nat) (gen : BitVec 16) (status : Nat) : Word := word (head * 2 ^ 30 + gen.toNat * 2 ^ 14 + status)

/-! ## Sends (R274) -/

/-- lend (0), give (1), ret (2), share (5): checked, then in flight. -/
def sendWord (sy : BitVec 1) (dep : BitVec 4) (d a : BitVec 5) (b : Option (BitVec 5)) (fn : Nat) (s : State) : Out :=
  compared sy dep (gR a :: (b.map gR).toList) [gR d] s fun s => recalled d s fun s =>
    let h := s.g a
    let arg := (b.map s.g).getD 0
    match s.spanOf h with
    | .error (code, addr) => .trap code addr
    | .ok (_, head, t) =>
      let ok :=
        if fn = 2 then s.holdsExcl head t true
        else if fn = 5 then
          s.holds t && (decide (t.mode = .excl) || decide (t.mode = .sharedIssue)) && !t.lvalid &&
            decide (s.sendLeaves true head = none ∨ s.sendLeaves true head = some 5)
        else s.holdsExcl head t false
      if !ok then .trap 0x09 (handleOf (regionIdx h) 0)
      else if fn ≠ 2 ∧ !s.peerOk arg then .trap 0x0A h
      else if fn = 5 ∧ 255 ≤ t.shares then .trap 0x0A h
      else
        let x : Send := { fn := fn, head := head, base := handleOf (regionIdx h) 0, units := t.units, arg := arg, d := d.toNat,
                          warm := s.warm, level := s.core.level,
                          tail := if s.core.str.avail then some s.core.str.tail else none, upTo := s.core.str.takes }
        .done (((s.recordResult d.toNat none).modCore fun c => { c with sends := c.sends ++ [x] }).awaitG d)

/-- `own.lend` (R276). -/
def execOwnLend (sy : BitVec 1) (dep : BitVec 4) (d a b : BitVec 5) (s : State) : Out := sendWord sy dep d a (some b) 0 s

/-- `own.give` (R276). -/
def execOwnGive (sy : BitVec 1) (dep : BitVec 4) (d a b : BitVec 5) (s : State) : Out := sendWord sy dep d a (some b) 1 s

/-- `own.ret` (R276). -/
def execOwnRet (sy : BitVec 1) (dep : BitVec 4) (d a : BitVec 5) (s : State) : Out := sendWord sy dep d a none 2 s

/-- `own.share` (R277). -/
def execOwnShare (sy : BitVec 1) (dep : BitVec 4) (d a b : BitVec 5) (s : State) : Out := sendWord sy dep d a (some b) 5 s

/-- `n` entries from unit `u` on belong to head `head`. -/
def setHeads (ts : Sp Token) (u head : Nat) : Nat → Sp Token
  | 0 => ts
  | n + 1 => setHeads (Sp.put ts u { Sp.get {} ts u with head := head, units := 0, isHead := false }) (u + 1) head n

/-- A token operation waits until every earlier crossing of the core on its region has completed (R174): in a handler those in flight of
the code it interrupted as well, but not those whose queue entry stands still (R385). DEDUCED (log 41). -/
def State.crossingsThrough (s : State) (h : Word) : Bool :=
  !s.core.xings.any fun y => (decide (y.level = s.core.level) || y.admitted) && y.inRegion (regionIdx h)

/-- A split or merge completes at a local home within 40 warm cycles (R278). -/
def State.settleIn (s : State) (d : BitVec 5) (v : Word) : Perform :=
  let (t, s1) := s.draw 39
  doneWith s1 d v (1 + t)

/-- `own.split` (R278): units k to n − 1 become a span of their own. -/
def execOwnSplit (sy : BitVec 1) (dep : BitVec 4) (d a b : BitVec 5) (s : State) : Out :=
  compared sy dep [gR a, gR b] [gR d] s fun s => recalled d s fun s =>
    let h := s.g a
    let k := (s.g b).toNat
    match s.spanOf h with
    | .error (code, addr) => .trap code addr
    | .ok (_, head, t) =>
      if !s.holdsExcl head t false then .trap 0x09 (handleOf (regionIdx h) 0)
      else if k = 0 ∨ t.units ≤ k then .trap 0x0A h
      else if !s.crossingsThrough h then .hold s
      else
        let upper := head + k
        let low := { t with units := k, gen := t.gen + 1 }
        let high := { t with head := upper, units := t.units - k, gen := t.gen + 1 }
        let s1 := s.modPartAt s.partNo fun p =>
          { p with tokens := Sp.put (Sp.put (setHeads p.tokens upper upper (t.units - k)) upper high) head low }
        s1.settleIn d (statusWord upper (t.gen + 1) 0)

/-- `own.merge` (R278): the second span starts at the first span's end. OWNF gives the base of the region of gA, whichever of the
spans fails. DESIGN CHOICE (log 54). -/
def execOwnMerge (sy : BitVec 1) (dep : BitVec 4) (d a b : BitVec 5) (s : State) : Out :=
  compared sy dep [gR a, gR b] [gR d] s fun s => recalled d s fun s =>
    let h := s.g a
    match s.spanOf h with
    | .error (code, addr) => .trap code addr
    | .ok (_, head, t) =>
      let other := match s.spanOf (s.g b) with
        | .ok x => if s.holdsExcl x.2.1 x.2.2 false then some x.2 else none
        | .error _ => none
      match (if s.holdsExcl head t false then other else none) with
      | none => .trap 0x09 (handleOf (regionIdx h) 0)
      | some (head2, t2) =>
        if regionIdx h ≠ regionIdx (s.g b) ∨ head2 ≠ head + t.units then .trap 0x0A h
        else if !s.crossingsThrough h then .hold s
        else
          let gen := (if t.gen.toNat ≤ t2.gen.toNat then t2.gen else t.gen) + 1
          let one := { t with units := t.units + t2.units, gen := gen, taint := t.taint || t2.taint }
          let s1 := s.modPartAt s.partNo fun p => { p with tokens := Sp.put (setHeads p.tokens head2 head t2.units) head one }
          s1.settleIn d (statusWord head gen 0)

/-- `own.unshare` (R277): the share leaves the caller's set, its lines are dropped, and the home counts one less. -/
def execOwnUnshare (sy : BitVec 1) (dep : BitVec 4) (d a : BitVec 5) (s : State) : Out :=
  compared sy dep [gR a] [gR d] s fun s => recalled d s fun s =>
    let h := s.g a
    match s.spanOf h with
    | .error (code, addr) => .trap code addr
    | .ok (_, head, t) =>
      if !s.core.shares.contains head then .trap 0x09 (handleOf (regionIdx h) 0)
      else if !s.crossingsThrough h then .hold s
      else
        let s1 := match s.part.spanKeys head with
          | some (lo, n) => s.dropSpan s.cur lo n
          | none => s
        let s2 := (s1.modCore fun c => { c with shares := c.shares.erase head }).modToken s.partNo head Token.unshare
        s2.settleIn d (statusWord head t.gen 0)

/-! ## Waiting and asking (R279) -/

def modeCode : TokMode → Nat
  | .excl => 0
  | .sharedIssue => 1
  | .engine => 2
  | .parked => 3

/-- The query word of a span for the current core. -/
def State.queryWord (s : State) (head : Nat) (t : Token) : Word :=
  word (head * 2 ^ 30 + t.gen.toNat * 2 ^ 14 + t.shares % 256 * 2 ^ 6 + (if t.taint then 32 else 0) + (if t.lvalid then 16 else 0) +
    (if s.core.shares.contains head then 8 else 0) + (if s.holds t ∧ t.mode ≠ .parked then 4 else 0) + modeCode t.mode)

/-- `own.wait`: until the caller holds the span EXCL without shares, or holds a share of it. -/
def execOwnWait (sy : BitVec 1) (dep : BitVec 4) (d a : BitVec 5) (s : State) : Out :=
  compared sy dep [gR a] [gR d] s fun s => recalled d s fun s =>
    match s.spanOf (s.g a) with
    | .error (code, addr) => .trap code addr
    | .ok (_, head, t) =>
      if (s.exclusive t ∧ t.shares = 0 ∧ (s.sendLeaves true head).isNone) ∨ s.core.shares.contains head then
        doneWith s d (s.queryWord head t) 1
      else .hold s

/-- `own.query`: the query word at once, latency 2. -/
def execOwnQuery (sy : BitVec 1) (dep : BitVec 4) (d a : BitVec 5) (s : State) : Out :=
  compared sy dep [gR a] [gR d] s fun s => recalled d s fun s =>
    match s.spanOf (s.g a) with
    | .error (code, addr) => .trap code addr
    | .ok (_, head, t) => doneWith s d (s.queryWord head t) 2

/-! ## A send in flight -/

/-- Every earlier operation of the core on the span has been performed or has completed (R274). -/
def State.sendReady (s : State) (x : Send) : Bool :=
  match s.part.spanKeys x.head with
  | none => true
  | some (lo, n) =>
    let c := s.core
    let early := fun (e : QEntry) => decide (e.warm ≤ x.warm) &&
      (match e.op with
       | .load h z _ _ => s.onSpan lo n h (sizeOf z)
       | .store h b _ => s.onSpan lo n h b
       | .cmaint _ base len _ => s.onSpan lo n base len.toNat
       | .shpld _ h => s.onSpan lo n h 128
       | .shpst h _ => s.onSpan lo n h 128
       | _ => false)
    let copies := c.str.taken.any fun t => !t.done && (match entryOf t.cmd with
      | none => false
      | some (k, e) =>
        decide (t.no ≤ x.upTo) && (sourceBytes k e t.dims ++ destBytes k e t.dims t.dests).any fun a =>
          let key := s.warmKey s.partNo a
          decide (lo ≤ key) && decide (key < lo + n))
    !(c.lq.any early) && !(c.sq.any early) && !(c.xings.any fun y => decide (y.warm ≤ x.warm) && s.crossingOn y lo n) &&
    x.tail.isNone && !c.cptailPending x.warm && !copies

/-- The first phase: the caller's lines go home, and stay, clean, only for a share. -/
def State.sendHome (s : State) (x : Send) : State :=
  let s1 := match s.part.spanKeys x.head with
    | some (lo, n) =>
      let t := s.cleanLines x.warm (overlaps lo n)
      if x.fn = 5 then t else t.dropLines (overlaps lo n)
    | none => s
  -- within the package a send completes within 600 warm cycles of the write-back (R274, R379), to another within 3,000 (R438)
  let peer := if x.fn = 2 then (s.part.token x.head).lpkg else bits x.arg 30 10
  let (t, s2) := s1.draw (if peer = pkgOf s.cur then 598 else 2998)
  s2.modCore fun c => { c with sends := c.sends.map fun y => if y = x then { y with due := some (s.warm + 1 + t) } else y }

/-- The receiver drops its lines of the span and pulses e6 (R274, R291). -/
def State.receive (s : State) (k head : Nat) (share : Bool) : State :=
  let s1 := match s.part.spanKeys head with
    | some (lo, n) => s.dropSpan k lo n
    | none => s
  (if share then s1.modCoreAt k fun c => { c with shares := c.shares ++ [head] } else s1).tokenArrives k

/-- The core a send goes to, if it runs the task and has not halted (R275). -/
def State.receiver (s : State) (a : Word) : Option (Nat × Slot) :=
  match s.peer a with
  | some (k, i) =>
    let c := s.coreAt k
    if c.run = some i ∧ !c.halting then some (k, c.slotAt i) else none
  | none => none

/-- The home of the span a send concerns still stands (R442): its region is valid and its package has not failed. -/
def State.spanStands (s : State) (head : Nat) : Bool :=
  match s.part.spanKeys head with
  | some (lo, _) => !(s.pkgAt (keyPkg lo)).failed
  | none => false

/-- The second phase: the home entry changes and the receiver hears of it; the status, and the state after. A `ret` whose lender
has halted keeps the span with the caller, as NOLENDER (R276); any other send whose receiver does not run, and one whose home has failed,
ends as NOPEER with the entry as it was (R275, R442). A share that arrives at SHARES 255 is counted on to 256. DESIGN CHOICE (log 54). -/
def State.sendArrive (s : State) (x : Send) : Nat × State :=
  let p := s.partNo
  let t := s.part.token x.head
  if !s.spanStands x.head then (1, s)
  else if x.fn = 2 then
    if !t.lvalid then (4, s)
    else
      match coreOfLaunch p t.lgroup t.lpkg t.lcore s.cores with
      | none => (1, s)
      | some k =>
        if (s.coreAt k).halting then (4, s.modToken p x.head fun t => { t with lvalid := false })
        else
          (0, (s.modToken p x.head fun t =>
            { t with hpkg := t.lpkg, hcore := t.lcore, hgroup := t.lgroup, lvalid := false, mode := .excl, gen := t.gen + 1 }).receive
              k x.head false)
  else
    match s.receiver x.arg with
    | none => (1, s)
    | some (k, sl) =>
      if x.fn = 5 then
        let c := s.coreAt k
        if c.shares.contains x.head then (2, s)
        else if 64 ≤ c.shares.length then (3, s)
        else (0, (s.modToken p x.head fun t => { t with shares := t.shares + 1, mode := .sharedIssue }).receive k x.head true)
      else
        let me := s.core.slot
        let s1 := s.modToken p x.head fun t =>
          { t with hpkg := pkgOf k, hcore := sl.coreId.toNat, hgroup := sl.launch, mode := .excl, gen := t.gen + 1,
                   lvalid := decide (x.fn = 0), lpkg := pkgOf s.cur, lcore := me.coreId.toNat, lgroup := me.launch }
        (0, s1.receive k x.head false)

/-- `TOKEN_SEND_COMPLETE` (R274 to R277): a send whose earlier operations are through writes its lines home; one that has
reached the home and the receiver writes its status into gD. -/
def execTokenSendComplete (s : State) : Out :=
  match s.core.sends.find? fun x => x.due.isNone && s.sendReady x with
  | some x => .next (s.sendHome x)
  | none =>
    match s.core.sends.find? fun x => match x.due with | some t => decide (t ≤ s.warm) | none => false with
    | none => .next s
    | some x =>
      let (st, s1) := s.sendArrive x
      let gen := (s1.part.token x.head).gen
      .next (s1.modCore fun c =>
        { c with sends := c.sends.erase x }.fillG x.level .K x.d (statusWord x.head gen st) s.warm)

end Sys2Proof.Machine
end

