-- ==== Sys2Proof/Machine/Sync.lean ====
section
/-! DEFINITION. Barriers (R282 to R285), fences (R286) and atoms (R287 to R290). -/

namespace Sys2Proof.Machine

/-! ## Barriers -/

/-- The warm cycle in which the wait of the current word began. -/
def State.waitedSince (s : State) : Nat :=
  match s.cl.wait with
  | .since w => w
  | .fencing w _ => w
  | _ => s.warm

/-- Stage 1 of a barrier: what the queue mask asks of the core (R283), for operations issued up to warm cycle `w`. -/
def State.maskMet (s : State) (m : BitVec 4) (w : Nat) : Bool :=
  let c := s.core
  (!m.getLsbD 0 || c.doneBefore .load w) &&
  (!m.getLsbD 1 || (c.doneBefore .store w && s.pathClear 1 w && !(c.atoms.any fun a => decide (a.warm ≤ w)))) &&
  (!m.getLsbD 2 || (c.doneBefore .engine w && c.allIdle)) &&
  (!m.getLsbD 3 || s.stringClear)

/-- The start of a wait on the string: the entries taken or available now are the earlier ones. -/
def startMask (m : BitVec 4) (s : State) : State := if m.getLsbD 3 then s.watchString else s

/-- `bar` (R283): stage 1, arrival, completion by BARRIER_COMPLETE, departure. DEDUCED (log 43). -/
def execBar (sy : BitVec 1) (dep : BitVec 4) (d a : BitVec 5) (m : BitVec 4) (o : BitVec 2) (k : BitVec 3) (s : State) : Out :=
  match s.cl.wait with
  | .arrived => .next s
  | .voteFault => waiting sy dep s fun s => .trap 0x18 s.wordHandle
  | .departed v =>
    waiting sy dep s fun s =>
      let s1 := if m.getLsbD 0 then (s.cleanLines s.warm (fun _ => true)).dropLines (fun _ => true) else s
      let n := Sp.get 0 s.core.barCount k.toNat
      doneWith (s1.modCore fun c => { c with barGot := none, barCount := Sp.set 0 c.barCount k.toNat (n + 1) }) d v 1
  | _ =>
    compared sy dep [gR a] [gR d] s (start := startMask m) fun s => recalled d s fun s =>
      let w := s.waitedSince
      if !s.maskMet m w then .hold s
      else
        let s1 := if m.getLsbD 1 then s.cleanLines w (fun _ => true) else s
        let n := Sp.get 0 s.core.barCount k.toNat
        let b : BarWait := { scope := k.toNat, inst := n, vote := o.toNat, value := s.g a, mask := m }
        -- an instance that completed before a trap kept the core from departing is left now
        match s.core.barGot with
        | some (sc, i, v) => if sc = k.toNat ∧ i = n then .start s1 (.departed v) else .start (s1.modCore fun c => { c with bar := some b }) .arrived
        | none => .start (s1.modCore fun c => { c with bar := some b }) .arrived

/-- Slot `sl` of core `k` takes part in barriers of this scope with slot `me` of core `cur` (R282). -/
def inScope (cur : Nat) (me : Slot) (scope k : Nat) (sl : Slot) : Bool :=
  let launch := decide (sl.part = me.part) && decide (sl.launch = me.launch) && decide (pkgOf k = pkgOf cur)
  match scope with
  | 0 => decide (k = cur) && launch && decide (sl.coreId = me.coreId)
  | 1 => launch && decide (sl.dieId = me.dieId) && decide (sl.quadId = me.quadId)
  | 2 => launch && decide (sl.dieId = me.dieId)
  | 3 => launch
  | _ => sameNode me sl

/-- The participants of the current core's barriers of a scope: a launch whose bind records have been emptied takes part no more.
DESIGN CHOICE (log 43). -/
def State.participants (s : State) (scope : Nat) : List (Nat × BitVec 1) :=
  s.cores.flatMap fun x =>
    ([0, 1] : List (BitVec 1)).filterMap fun i =>
      let sl := x.2.slotAt i
      if sl.state ≠ .empty ∧ !sl.copy ∧ inScope s.cur s.core.slot scope x.1 sl then some (x.1, i) else none

/-- The barrier a participant stands at, if it is this instance; an ended participant counts as arrived (R285). -/
def State.arrivedAt (s : State) (b : BarWait) (x : Nat × BitVec 1) : Option (Option BarWait) :=
  let c := s.coreAt x.1
  if (c.slotAt x.2).state = .ended then some none
  else match c.bar with
    | some y => if c.run = some x.2 ∧ y.scope = b.scope ∧ y.inst = b.inst ∧ !c.inHandler then some (some y) else none
    | none => none

/-- The value a barrier gives every participant (R284, R285). -/
def voteOf (vote n : Nat) (vs : List Word) : Word :=
  match vote with
  | 0 => word n
  | 1 => vs.foldl (· ||| ·) 0
  | _ => vs.foldl (· &&& ·) 0xFFFFFFFFFFFFFFFF

/-- `BARRIER_COMPLETE` (R283, R284): every participant of the current core's instance has arrived. DEDUCED (log 43). -/
def execBarrierComplete (s : State) : Out :=
  match s.core.bar with
  | none => .next s
  | some b =>
    let ps := s.participants b.scope
    if ps.all fun x => (s.arrivedAt b x).isSome then
      let there := ps.filterMap fun x => (s.arrivedAt b x).join
      let v := voteOf b.vote ps.length (there.map (·.value))
      let agree := there.all fun y => decide (y.vote = b.vote)
      .next (ps.foldl (fun t x =>
        if (s.arrivedAt b x).join.isSome then
          t.modCoreAt x.1 fun c => { c with bar := none, barGot := if agree then some (b.scope, b.inst, v) else none,
                                            k := { c.k with wait := if agree then .departed v else .voteFault } }
        else t) s)
    else .next s

/-! ## Fences -/

/-- Every earlier entry of the named queues has been performed; a string entry once it has been taken (R286). -/
def State.fenceMet (s : State) (m : BitVec 4) (w : Nat) : Bool :=
  let c := s.core
  (!m.getLsbD 0 || c.doneBefore .load w) && (!m.getLsbD 1 || c.doneBefore .store w) && (!m.getLsbD 2 || c.doneBefore .engine w) &&
  (!m.getLsbD 3 || c.str.watch.any fun x => decide (x.lane = s.lane) && !c.cptailPending x.since && (c.str.halt || x.no.isSome))

/-- `fence` (R286). -/
def execFence (sy : BitVec 1) (dep m : BitVec 4) (s : State) : Out :=
  match s.cl.wait with
  | .fencing w _ => waiting sy dep s fun s => if s.fenceMet m w then .done s else .hold s
  | _ =>
    compared sy dep [] [] s (start := startMask m) fun s =>
      let w := s.waitedSince
      if s.fenceMet m w then .done s else .start s (.fencing w m.toNat)

/-! ## Atoms -/

/-- TILE and ELEM of an accumulator word address (R290). -/
def atomTile (a : Word) : Nat := bits a 16 6
def atomElem (a : Word) : Nat := bits a 0 9

/-- `aadd` (0), `aaddf` (1), `axchg` (2), `a2sum` (3): checked at issue, entered in the store queue (R287, R290). -/
def atomWord (sy : BitVec 1) (dep : BitVec 4) (d a b : BitVec 5) (fn : Nat) (s : State) : Out :=
  control sy dep [gR a, gR b] [gR d] s fun s =>
    let x := s.g a
    if bits x 40 24 ≠ 0 ∨ bits x 9 7 ≠ 0 ∨ Config.packages ≤ bits x 30 10 ∨ 289 ≤ atomElem x ∨ (fn = 3 ∧ atomTile x = 47) then
      .trap 0x0B s.wordHandle
    else if !s.room .store then .hold s
    else
      let id := s.core.atomNo
      let y : Atom := { id := id, fn := fn, addr := x, op := (s.g b).truncate 32, d := d.toNat, warm := s.warm, level := s.core.level, joined := !s.cl.split,
                        seq := s.core.sqIssued + 1 }
      let again := s.core.reissues .store || s.cl.killed
      let s1 := s.enqueue .store (.atom id d.toNat)
      .done ((s1.modCore fun c => { c with atomNo := id + 1, atoms := if again then c.atoms else c.atoms ++ [y] }).awaitG d)

/-- `aadd` (R288). -/
def execAadd (sy : BitVec 1) (dep : BitVec 4) (d a b : BitVec 5) (s : State) : Out := atomWord sy dep d a b 0 s

/-- `aaddf` (R288). -/
def execAaddf (sy : BitVec 1) (dep : BitVec 4) (d a b : BitVec 5) (s : State) : Out := atomWord sy dep d a b 1 s

/-- `axchg` (R288). -/
def execAxchg (sy : BitVec 1) (dep : BitVec 4) (d a b : BitVec 5) (s : State) : Out := atomWord sy dep d a b 2 s

/-- `a2sum` (R288). -/
def execA2sum (sy : BitVec 1) (dep : BitVec 4) (d a b : BitVec 5) (s : State) : Out := atomWord sy dep d a b 3 s

/-- An accumulator word: row × 17 + column of a tile. -/
def Cold.accAt (m : Cold) (t e : Nat) : Word32 := Sp.get 0 m.acc (289 * t + e)
def Cold.setAcc (m : Cold) (t e : Nat) (v : Word32) : Cold := { m with acc := Sp.set 0 m.acc (289 * t + e) v }
def Cold.tileAt (m : Cold) (t : Nat) : Tile := Sp.get {} m.tile t
def Cold.setTile (m : Cold) (t : Nat) (x : Tile) : Cold := { m with tile := Sp.set {} m.tile t x }

/-- The compensated sum of a2sum and ma2s on one element (R214, R288): the rounded sum and the corrected low word. -/
def twoSum (hi lo op : Word32) : Word32 × Word32 :=
  let s := add32 0 0 hi op
  let e := if isFinite32 s then sumVals 0 [val32 hi, val32 op, (val32 s).neg] else .num false 0 0
  (s, round32 0 0 (sumVals 0 [val32 lo, e]))

/-- An atom applied to its word (R288). -/
def Cold.applyAtom (m : Cold) (fn : Nat) (t e : Nat) (op : Word32) : Cold :=
  let w := m.accAt t e
  let plain := fun (m : Cold) (t : Nat) => m.setTile t { m.tileAt t with chkv := false }
  match fn with
  | 0 => plain (m.setAcc t e (w + op)) t
  | 1 => plain (m.setAcc t e (add32 0 0 w op)) t
  | 2 => plain (m.setAcc t e op) t
  | _ =>
    let x := twoSum w (m.accAt (t + 1) e) op
    plain (plain ((m.setAcc t e x.1).setAcc (t + 1) e x.2) t) (t + 1)

/-- The core an atom reaches, if the atom is applied there (R290). -/
def State.atomTarget (s : State) (x : Atom) : Option Nat :=
  match s.peer x.addr with
  | some (k, i) =>
    let c := s.coreAt k
    let last := atomTile x.addr + (if x.fn = 3 then 1 else 0)
    if c.run = some i ∧ last < (c.slotAt i).atiles.toNat ∧ !c.cutOff then some k else none
  | none => none

/-- The first atom of the current core that reaches its target now. -/
def State.dueAtom (s : State) : Option Atom :=
  s.core.atoms.find? fun a => a.old.isNone && (match a.applyAt with | some t => decide (t ≤ s.clock) | none => false)

/-- The first accumulator word an atom reads at its target that holds an uncorrectable error (R336). -/
def Core.badAtom (c : Core) (x : Atom) : Option Nat :=
  let at_ := fun (t : Nat) => t * 512 + atomElem x.addr
  (at_ (atomTile x.addr) :: (if x.fn = 3 then [at_ (atomTile x.addr + 1)] else [])).find? c.badAcc.contains

/-- `ATOM_APPLY` (R289): the atom is applied at the target's accumulator write port, or discarded; its old value is on
its way back. One that meets an uncorrectable word is discarded, and the error logged where it was met (R336, R412). DESIGN CHOICE (log 24). -/
def execAtomApply (s : State) : Out :=
  match s.dueAtom with
  | none => .next s
  | some x =>
    -- admission, application and return stay within 3,000 warm cycles (R438)
    let (t, s1) := s.draw 1498
    let back := s.warm + 1 + t
    let drop := fun (s : State) => s.modCore fun c =>
      let c1 : Core := { c with atoms := c.atoms.map fun (y : Atom) => if y.id = x.id then { y with old := some 0, backAt := back } else y }
      c1.notePath 2 fun p => { p with err := true }
    match s.atomTarget x with
    | none => .next (drop s1)
    | some k =>
      match (s.coreAt k).badAtom x with
      | some a => .next (drop (s1.onCore k fun t => t.logOwn 5 a))
      | none =>
      let old := (s.coreAt k).cold.accAt (atomTile x.addr) (atomElem x.addr)
      let s2 := s1.modCoreAt k fun c =>
        let c1 := (c.modCold fun m => m.applyAtom x.fn (atomTile x.addr) (atomElem x.addr) x.op).noteTile (atomTile x.addr)
        if x.fn = 3 then c1.noteTile (atomTile x.addr + 1) else c1
      .next (s2.modCore fun c =>
        { c with atoms := c.atoms.map fun (y : Atom) => if y.id = x.id then { y with old := some old, backAt := back } else y })

/-- `ATOM_COMPLETE` (R289): the old value is back and gD is written. -/
def execAtomComplete (s : State) : Out :=
  match s.core.atoms.find? fun a => a.old.isSome && decide (a.backAt ≤ s.warm) with
  | none => .next s
  | some x =>
    let v := word (x.old.getD 0).toNat
    .next (s.modCore fun c =>
      let c1 : Core := { c with atoms := c.atoms.filter fun (y : Atom) => !decide (y.id = x.id) }
      (c1.fillG x.level .K x.d v s.warm).retainValue .store x.seq v)

end Sys2Proof.Machine
end

