-- ==== Sys2Proof/Machine/System.lean ====
section
/-! DEFINITION. System registers (R31 to R36, R151), the system words (R152 to R157), and the steps that write a register
with behaviour of its own, end a `wfi` and return a region walk. -/

namespace Sys2Proof.Machine

/-! ## Reading a system register -/

/-- The field of the record slot TREC names (R390). -/
def Core.recField (c : Core) (off : Nat) : Word := word (c.areaNat ((if c.nested then 0x100 else 0) + off) 8)

def Core.tstat (c : Core) : Word :=
  word ((if c.accLost then 1 else 0) + (if c.nested then 2 else 0) + (if c.emulate then 4 else 0))

/-- Words of a cold-state window item (R34), in order. Of the pair of LFSRs in an item, the even lane stands in bits [31:0]: R34
says only that they are pairs. DESIGN CHOICE (log 13). -/
def Cold.windowWord (m : Cold) (unit item w : Nat) : Word :=
  let first := fun (v : Nat) => if w = 1 then word v else 0
  let bytesAt := fun (f : Nat → Byte) (n : Nat) =>
    if 1 ≤ w ∧ 8 * w ≤ n then word (leNat ((List.range 8).map fun i => f (8 * (w - 1) + i))) else 0
  match unit with
  | 0 => if w = 2 then word (if Sp.get false m.endMat item then 1 else 0) else first (Sp.get 0 m.omat item).toNat
  | 1 => if w = 2 then word (if Sp.get false m.endVec item then 1 else 0) else first (Sp.get 0 m.ovec item).toNat
  | 2 =>
    if 512 ≤ item then 0
    else if w = 2 then word (if Sp.get false m.endTmp item then 1 else 0) else first (Sp.get 0 m.otmp item).toNat
  | 3 =>
    if item < 64 then bytesAt (fun i => Sp.get 255 m.dly (64 * item + i)) 64
    else if item = 64 then first m.tmode.toNat else if item = 65 then first m.twin else 0
  | 4 => if item < 256 then first (Sp.get 0 m.cbt item).toNat else 0
  | 5 =>
    if item < 16 then first (Sp.get 0 m.ms item).toNat else if item < 32 then first (Sp.get 0 m.vs (item - 16)).toNat
    else if item < 36 then first (Sp.get 0 m.ts (item - 32)).toNat else 0
  | 6 =>
    if item < 32 then
      bytesAt (fun i => (Sp.get 0 m.m (4 * item + i / 32)).extractLsb' (8 * (i % 32)) 8) 128
    else 0
  | 7 =>
    if item < 8 then
      let x := Sp.get {} m.mq item
      if w = 2 then word x.dep.toNat else first (x.row.toNat + x.col.toNat * 65536)
    else 0
  | 8 =>
    if item < 16 then first (Sp.get 0 m.mstk item).toNat else if item = 16 then first m.mdepth
    else if 32 ≤ item ∧ item < 64 then first ((m.lfsrAt (2 * (item - 32))).toNat + (m.lfsrAt (2 * (item - 32) + 1)).toNat * 2 ^ 32)
    else 0
  | _ => 0

/-- Which indices R31 assigns. -/
def sysAssigned (x : Nat) : Bool :=
  decide (x ≤ 0x006) || (decide (0x008 ≤ x) && decide (x ≤ 0x00D)) || decide (x = 0x010) || (decide (0x012 ≤ x) && decide (x ≤ 0x015)) ||
  (decide (0x018 ≤ x) && decide (x ≤ 0x01B)) || (decide (0x020 ≤ x) && decide (x ≤ 0x029)) || decide (x = 0x030) || decide (x = 0x031) ||
  (decide (0x040 ≤ x) && decide (x ≤ 0x0BF)) || (decide (0x100 ≤ x) && decide (x ≤ 0x1BF)) || (decide (0x200 ≤ x) && decide (x ≤ 0x2FF))

/-- The current core holds the P view: it runs a handler (R32, R390). DEDUCED (log 10). -/
def State.privileged (s : State) : Bool := s.core.inHandler

/-- The caller may read the register (R31, R32). DEDUCED (log 10). DESIGN CHOICE (log 14). -/
def State.mayReadSys (s : State) (x : Nat) : Bool :=
  if x = 0x031 then s.part.debug
  else if x = 0x006 ∨ x = 0x018 ∨ x = 0x019 ∨ (0x020 ≤ x ∧ x ≤ 0x029) ∨ (0x080 ≤ x ∧ x ≤ 0x0BF) then s.privileged
  else decide (x < 0x030)

/-- The caller may write the register. -/
def State.mayWriteSys (s : State) (x : Nat) : Bool :=
  if x = 0x031 then s.part.debug
  else if x = 0x012 ∨ x = 0x01A ∨ x = 0x01B then true
  else if x = 0x010 ∨ x = 0x014 ∨ x = 0x018 ∨ x = 0x019 ∨ (0x022 ≤ x ∧ x ≤ 0x025) ∨ (0x027 ≤ x ∧ x ≤ 0x029) ∨ x = 0x080 then s.privileged
  else false

/-- The value of a system register (R31, R33, R34). -/
def State.sysRead (s : State) (x : Nat) : Word :=
  let c := s.core
  let sl := c.slot
  if 0x081 ≤ x ∧ x ≤ 0x090 then c.cold.windowWord (bits c.wselCold 12 4) (bits c.wselCold 0 12) (x - 0x080)
  else match x with
  | 0x000 => word sl.coreId.toNat
  | 0x001 => word sl.ncores.toNat
  | 0x002 => word sl.taskId.toNat
  | 0x003 => word sl.quadId.toNat
  | 0x004 => word sl.dieId.toNat
  | 0x005 => word (pkgOf s.cur)
  | 0x006 => word (s.cur % 256)
  | 0x008 => word s.scnt
  | 0x009 => word s.wcyc
  | 0x00A => c.stallCnt
  | 0x00B => word sl.cquota.toNat
  | 0x00C => word sl.atiles.toNat
  | 0x00D => sl.osquota
  | 0x010 => c.oeqstat
  | 0x012 => c.mcmask
  | 0x013 => word c.heatAcc
  | 0x014 => word c.heatBud
  | 0x015 => word s.window
  | 0x018 => c.chksb
  | 0x019 => c.stallim
  | 0x01A => c.rstlbl
  | 0x01B => c.rstidx
  | 0x020 => c.recField 0x00
  | 0x021 => c.recField 0x08
  | 0x022 => c.recField 0x10
  | 0x023 => c.recField 0x18
  | 0x024 => c.recField 0x20
  | 0x025 => c.recField 0x28
  | 0x026 => c.trec
  | 0x027 => c.tvec
  | 0x028 => c.tstat
  | 0x029 => c.tscratch
  | 0x031 => c.inj
  | 0x080 => c.wselCold
  | _ => 0

/-- `srd` (R151): performed at issue, latency 2. -/
def execSrd (sy : BitVec 1) (d : BitVec 5) (x : BitVec 12) (s : State) : Out :=
  control sy 0 [] [gR d] s fun s => recalled d s fun s =>
    if !sysAssigned x.toNat then .trap 0x05 s.wordHandle
    else if !s.mayReadSys x.toNat then .trap 0x06 s.wordHandle
    else doneWith s d (s.sysRead x.toNat) 2

/-! ## Writing a system register -/

/-- TSTAT (R397): only EMULATE changes. -/
def Core.writeTstat (c : Core) (v : Word) : Core := { c with emulate := v.getLsbD 2 }

/-- OEQSTAT (R31): a 1 in bit 31 clears LOST. -/
def Core.writeOeqstat (c : Core) (v : Word) : Core := if v.getLsbD 31 then { c with oeqLost := false } else c

/-- HEATBUD (R430): a privileged writer's value is cut to the ceiling; the power manager's is the new ceiling. -/
def Core.writeHeatbud (c : Core) (manager : Bool) (v : Word) : Core :=
  if manager then { c with heatCeil := v.toNat, heatNext := some v.toNat }
  else { c with heatNext := some (min v.toNat c.heatCeil) }

/-- INJ (R420): a malformed value is ignored. -/
def Core.writeInj (c : Core) (v : Word) : Core := if injOk v then { c with inj := v } else c

/-- A field of the record slot TREC names. -/
def Core.writeRec (c : Core) (off : Nat) (v : Word) : Core :=
  c.setArea ((if c.nested then 0x100 else 0) + off) (leBytes 8 v.toNat)

/-- What a write does to the register (R31). -/
def Core.sysWrite (c : Core) (x : Nat) (v : Word) : Core :=
  match x with
  | 0x010 => c.writeOeqstat v
  | 0x012 => { c with mcmask := v &&& 0xF }
  | 0x014 => c.writeHeatbud false v
  | 0x018 => { c with chksb := v }
  | 0x019 => { c with stallim := v }
  | 0x01A => { c with rstlbl := v }
  | 0x01B => { c with rstidx := v }
  | 0x022 => c.writeRec 0x10 v
  | 0x023 => c.writeRec 0x18 v
  | 0x024 => c.writeRec 0x20 v
  | 0x025 => c.writeRec 0x28 v
  | 0x027 => { c with tvec := v }
  | 0x028 => c.writeTstat v
  | 0x029 => { c with tscratch := v }
  | 0x031 => c.writeInj v
  | 0x080 => { c with wselCold := v }
  | _ => c

/-- `swr` (R151): takes effect for words that issue from the next warm cycle on. -/
def execSwr (sy : BitVec 1) (a : BitVec 5) (x : BitVec 12) (s : State) : Out :=
  compared sy 0 [gR a] [] s fun s =>
    if !sysAssigned x.toNat then .trap 0x05 s.wordHandle
    else if !s.mayWriteSys x.toNat then .trap 0x06 s.wordHandle
    else .done (s.modCore fun c => { c with sysNext := c.sysNext ++ [(x.toNat, s.g a, s.warm)] })

/-- The writes of earlier warm cycles take effect (R36, R151). -/
def Core.applyWrites (c : Core) (warm : Nat) : Core :=
  let due := c.sysNext.filter fun w => decide (w.2.2 < warm)
  due.foldl (fun c w => c.sysWrite w.1 w.2.1) { c with sysNext := c.sysNext.filter fun w => !decide (w.2.2 < warm) }

/-- `TSTAT_WRITE` (R397). -/
def execTstatWrite (v : BitVec 64) (s : State) : Out := .next (s.modCore fun c => c.writeTstat v)

/-- `OEQSTAT_WRITE` (R31). -/
def execOeqstatWrite (v : BitVec 64) (s : State) : Out := .next (s.modCore fun c => c.writeOeqstat v)

/-- `HEATBUD_WRITE` (R430). -/
def execHeatbudWrite (manager : Bool) (v : BitVec 64) (s : State) : Out := .next (s.modCore fun c => c.writeHeatbud manager v)

/-- `INJ_WRITE` (R420). -/
def execInjWrite (v : BitVec 64) (s : State) : Out := .next (s.modCore fun c => c.writeInj v)

/-! ## System words (R152) -/

/-- `ecall` (R153): performed with its bundle; the cut follows at the start of the next warm cycle. DEDUCED (log 51). -/
def execEcall (sy : BitVec 1) (dep : BitVec 4) (s : State) : Out :=
  compared sy dep [] [] s fun s =>
    .done (s.modCore fun c => { c with trapNext := c.trapNext ++ [(c.level, causeOf 0 (laneIdx s.lane) 0x04, s.wordHandle)] })

/-- `tret` (R154, R396): one before `tack` acknowledges first; the resumption takes effect in the next warm cycle. DEDUCED (log 51). -/
def execTret (sy : BitVec 1) (dep : BitVec 4) (s : State) : Out :=
  compared sy dep [] [] s fun s =>
    if !s.privileged then .trap 0x06 s.wordHandle
    else .done (s.modCore fun c => { c with tacked := true, returning := c.level :: c.returning })

/-- `tack` (R391). -/
def execTack (sy : BitVec 1) (dep : BitVec 4) (s : State) : Out :=
  compared sy dep [] [] s fun s =>
    if !s.privileged then .trap 0x06 s.wordHandle else .done (s.modCore fun c => { c with tacked := true })

/-- Queues, string, engines, sends, crossings and atoms of a core are through (R155, R400). -/
def Core.drained_ (c : Core) : Bool :=
  c.lq.isEmpty && c.sq.isEmpty && c.eq.isEmpty && (!c.str.avail || c.str.halt) && !(c.str.taken.any fun t => !t.done) &&
  c.allIdle && c.sends.isEmpty && c.xings.isEmpty && c.atoms.isEmpty && c.back.isEmpty

/-- The core's share of the task is complete (R155, R281): dirty lines go home, spans are settled, the record is ENDED. -/
def State.haltEnd (s : State) : State :=
  match s.core.run with
  | some i => ((s.cleanLines s.warm fun _ => true).settleSpans s.cur i false).endTask s.cur i 0 0
  | none => s

/-- `halt` (R155): performed with its bundle, it stops every cluster there, waits and joins (R133) included; the core drains and the task
ends on it. The drain is no wait at issue: R112 does not list it. DEDUCED (log 9). -/
def execHalt (sy : BitVec 1) (dep : BitVec 4) (s : State) : Out :=
  if s.core.halting then
    if s.core.drained_ then .next s.haltEnd else .next s
  else
    compared sy dep [] [] s fun s => .done (s.modCore fun c =>
      { c.closeWindow with halting := true }.modClusters fun _ x => { x with atJoin := false, since := none, wait := .none })

/-- `wfi` (R156): asleep from its issue until an event counter, a token or a request wakes it, or WFI_TIMEOUT. -/
def execWfi (sy : BitVec 1) (dep : BitVec 4) (s : State) : Out :=
  match s.cl.wait with
  | .asleep _ => .next s
  | .awake w =>
    if s.warm < w + 6 then .next s
    else if s.core.willMismatch then .next (s.mismatch 1 s.wordHandle (s.wordAt s.wordHandle).toNat none)
    else control sy dep [] [] s fun s => .done s.countWord
  | _ => if s.depsReady dep then .next (s.beginWait (.asleep s.warm)) else .next s.waitAtIssue

/-- `WFI_TIMEOUT` (R156): 4096 warm cycles have passed. -/
def execWfiTimeout (s : State) : Out :=
  .next (s.modCore fun c => c.modClusters fun _ x =>
    match x.wait with
    | .asleep w => if w + 4096 ≤ s.warm then x.wake else x
    | _ => x)

/-- `oeqpop` (R56): the oldest entry, or 0; its slot accepts entries from the end of this warm cycle. -/
def execOeqpop (sy : BitVec 1) (dep : BitVec 4) (d : BitVec 5) (s : State) : Out :=
  compared sy dep [] [gR d] s fun s => recalled d s fun s =>
    match s.core.oeq with
    | [] => doneWith s d 0 2
    | v :: rest =>
      let n := if s.core.oeqFreed.1 = s.warm then s.core.oeqFreed.2 + 1 else 1
      doneWith (s.modCore fun c => { c with oeq := rest, oeqFreed := (s.warm, n) }) d v 2

/-- Enter an overflow event (R56): 64 entries, slots freed in this warm cycle still taken; a matrix entry comes before the vector
entries of its cold cycle. -/
def Core.event (c : Core) (clock : Nat) (v : Word) : Core :=
  let freed := if c.oeqFreed.1 = clock / Config.coldPerWarm then c.oeqFreed.2 else 0
  let n := if c.oeqNow.1 = clock + 1 then min c.oeqNow.2 c.oeq.length else 0
  let k := c.oeq.length - n
  let room := decide (c.oeq.length + freed < 64)
  if 0 < bits v 62 2 then
    if room then { c with oeq := c.oeq ++ [v], oeqNow := (clock + 1, n + 1) } else { c with oeqLost := true }
  else if room then { c with oeq := c.oeq.take k ++ v :: c.oeq.drop k }
  else if n = 0 then { c with oeqLost := true }
  else { c with oeq := c.oeq.take k ++ v :: (c.oeq.drop k).dropLast, oeqNow := (clock + 1, n - 1), oeqLost := true }

/-- `rotpt` (R157): without a pending request it has no effect; with one the step does not let it issue (R399). -/
def execRotpt (sy : BitVec 1) (dep : BitVec 4) (s : State) : Out := compared sy dep [] [] s fun s => .done s

/-- `iinv` (R152): every instruction cache of the die drops its lines, all in the step that performs the word: of the up to 256
warm cycles the rule allows the model takes none. DESIGN CHOICE (log 8). -/
def execIinv (sy : BitVec 1) (dep : BitVec 4) (s : State) : Out :=
  compared sy dep [] [] s fun s =>
    if !s.privileged then .trap 0x06 s.wordHandle
    else .done { s with cores := s.cores.map fun x => if dieOf x.1 = dieOf s.cur then (x.1, { x.2 with l1i := [] }) else x }

/-! ## Region walks -/

/-- The entry is not valid for a reason that is logged (R331): it is malformed, or its CRC does not match, as in an entry
nothing has written. -/
def State.entryBad (s : State) (p i : Nat) : Bool :=
  let v := Sp.get 0 (s.partAt p).regions i
  let crcBad := decide (crc32 (leBytes 60 v.toNat) ≠ BitVec.ofNat 32 (bits v 480 32))
  (decodeRegion v).isNone && (crcBad || v.getLsbD 144)

/-- The partition and region a walk is for: a core's own partition, or the one a copy engine names with the region. -/
def State.walked (s : State) (w : Nat × Nat × Nat) : Nat × Nat :=
  if w.1 = s.cur then (s.partNo, w.2.1) else (w.2.1 / 4096, w.2.1 % 4096)

/-- A translation enters a cache of 32 entries. -/
def cacheIn (i : Nat) (xs : List Nat) : List Nat := (i :: xs.filter fun j => !decide (j = i)).take 32

/-- `TLB_WALK_RETURN` (R332): the walk's result enters the core's TLB, or the cache of its quad's copy engine; a bad entry is
logged (R331) and the access that waits finds itself out of range. A walk of an entry under a shootdown returns after it
(R333). DESIGN CHOICE (log 11). -/
def execTlbWalkReturn (s : State) : Out :=
  let d := dieOf s.cur
  match (s.dieAt d).walks.find? fun w =>
      (decide (w.1 = s.cur) || decide (w.1 = engineKey s.cur)) && decide (w.2.2 ≤ s.clock) &&
        !(s.partAt (s.walked w).1).shoots.any fun x => decide (x.1 = (s.walked w).2) with
  | none => .next s
  | some w =>
    let (p, i) := s.walked w
    let s1 := s.modDieAt d fun x => { x with walks := x.walks.erase w }
    let s2 :=
      if w.1 = s.cur then s1.modCore fun c => { c with tlb := cacheIn i c.tlb }
      else s1.modDieAt d fun x => { x with ctlb := Sp.put x.ctlb (s.cur / 4) (cacheIn w.2.1 (Sp.get [] x.ctlb (s.cur / 4))) }
    if s.entryBad p i then
      let v := Sp.get 0 (s.partAt p).regions i
      .next (s2.logDie d
        { source := 8, uncorrectable := true, addr := handleOf i 0, phys := BitVec.ofNat 8 s.cur, owner := 0,
          syndrome := word (bits v 480 32) } false)
    else .next s2

end Sys2Proof.Machine
end

