-- ==== Sys2Proof/Machine/Engine.lean ====
section
/-! DEFINITION. What the orders of the three cold engines share: the cold store as an engine sees it (R194), writes that
land (R198, R243, R298), overflow events (R55), the scoreboards (R199, R244, R307), and the cycle of an engine. -/

namespace Sys2Proof.Machine

/-! ## The cold store under CQUOTA (R194) -/

/-- A cold address. -/
def coldAddr (n : Nat) : Nat := n % 2 ^ 19

/-- Byte `a` under code `b`, 0 at or beyond CQUOTA. -/
def State.coldByte (s : State) (b a : Nat) : Byte :=
  let a := coldAddr a
  if a < s.core.slot.cquota.toNat then s.core.cold.read b a else 0

/-- `n` bytes from `a` on, little-endian. -/
def State.coldNat (s : State) (b a n : Nat) : Nat := leNat ((List.range n).map fun i => s.coldByte b (a + i))

/-- TAG and INV of the granule of byte `a`, 0 at or beyond CQUOTA. -/
def State.coldSide (s : State) (b a : Nat) : BitVec 9 :=
  let a := coldAddr a
  if a < s.core.slot.cquota.toNat then s.core.cold.tagAt b a else 0

/-- Where the bytes written from `a` on go: beyond CQUOTA nowhere. -/
def State.coldCells (s : State) (b a : Nat) (bs : List Byte) : List (Nat × Byte) :=
  (List.range bs.length).filterMap fun i =>
    let x := coldAddr (a + i)
    if x < s.core.slot.cquota.toNat then some (coldPlace b x, bs.getD i 0) else none

/-- Physical granules of a footprint given by first addresses and lengths: those at or beyond CQUOTA hold no state (R194). -/
def State.granules (s : State) (b : Nat) (fp : List (Nat × Nat)) : List Nat :=
  (fp.flatMap fun x => ((List.range ((x.1 % 32 + x.2 + 31) / 32)).map fun i => coldAddr (x.1 / 32 * 32 + 32 * i)).filterMap fun a =>
    if a < s.core.slot.cquota.toNat then some (coldGran b a) else none).eraseDups

/-- Distinct 64-byte lines of a footprint (R201, R246): masks and data do not count. -/
def lineCount (fp : List (Nat × Nat)) : Nat :=
  (fp.flatMap fun x => (List.range ((x.1 % 64 + x.2 + 63) / 64)).map fun i => (x.1 / 64 + i) % 8192).eraseDups.length

/-! ## Landings -/

/-- The latest step's ITER: iteration index of the innermost loop, 0 outside every loop (R194). -/
def Engine.iter (x : Engine) : Nat := (x.loops.head?.map (·.iter)).getD 0

def State.iter (s : State) (e : EngineId) : Nat := (s.core.engine e).iter
def State.stepNo (s : State) (e : EngineId) : Nat := (s.core.engine e).step

/-- Issue a write that lands `lat` cold cycles later. -/
def State.land (s : State) (e : EngineId) (lat chain : Nat) (writes : List Res) (op : LandOp) (event : Option Word := none) : State :=
  let l : Landing := { at_ := s.scnt + lat, issued := s.scnt, eng := e, chain := chain, writes := writes, op := op, event := event }
  s.modCore fun c => c.modCold fun m => { m with pend := m.pend ++ [l] }

/-- An overflow event (R55). -/
def eventWord (eng step iter unit row col count : Nat) (rpl : Bool) (kinds : Nat) : Word :=
  word (eng * 2 ^ 62 + step % 2 ^ 12 * 2 ^ 50 + iter % 2 ^ 14 * 2 ^ 36 + unit * 2 ^ 30 + row * 2 ^ 25 + col * 2 ^ 18 +
    min count 255 * 2 ^ 10 + (if rpl then 2 ^ 9 else 0) + kinds)

/-- The event of the order that issues now, if it has cases. -/
def State.orderEvent (s : State) (e : EngineId) (unit row col count kinds : Nat) : Option Word :=
  if kinds = 0 then none
  else some (eventWord (engineIdx e) (s.stepNo e) (s.iter e) unit row col count s.core.rerun kinds)

/-- A write to a parameter register (R29, R51, R187): codes 0 to 15 ms, 16 to 31 vs, 32 to 35 ts, 36 TWIN; vs15 seeds
the LFSRs. -/
def Cold.setParam (m : Cold) (code : Nat) (v : Word) : Cold :=
  if code < 16 then { m with ms := Sp.set 0 m.ms code v }
  else if code < 32 then
    let m := { m with vs := Sp.set 0 m.vs (code - 16) (v.truncate 32) }
    if code = 31 then { m with lfsr := seedLanes (v.truncate 32) } else m
  else if code < 36 then { m with ts := Sp.set 0 m.ts (code - 32) (v.truncate 32) }
  else { m with twin := bits v 0 8 }

/-- Lanes of a vector register and their change. -/
def Cold.lane (m : Cold) (r i : Nat) : Word32 := Sp.get 0 m.v (64 * r + i)
def Cold.setLanes (m : Cold) (d : Nat) (ls : List (Nat × Word32)) : Cold :=
  { m with v := ls.foldl (fun v x => Sp.set 0 v (64 * d + x.1) x.2) m.v }

/-- Write accumulator words. -/
def Cold.setWords (m : Cold) (t : Nat) (ws : List (Nat × Word32)) : Cold :=
  ws.foldl (fun m x => m.setAcc t x.1 x.2) m

/-- Sixteen tags as the row or column tags of a tile, and tag `i` of one. -/
def packTags (ts : List Byte) : BitVec 128 := BitVec.ofNat 128 (leNat ts)
def tagOf (t : BitVec 128) (i : Nat) : Byte := BitVec.ofNat 8 (bits t (8 * i) 8)

/-- The state change of a landing write. -/
def Cold.apply (m : Cold) (op : LandOp) : Cold :=
  match op with
  | .mreg n rows side =>
    { m with m := (List.range 16).foldl (fun x r => Sp.set 0 x (16 * n + r) (rows.getD r 0)) m.m,
             mside := (List.range 16).foldl (fun x r => Sp.set 0 x (16 * n + r) (side.getD r 0)) m.mside }
  | .acc t words info _ => (m.setWords t words).setTile t info
  | .accPart t words rt =>
    let m1 := m.setWords t words
    match rt with
    | none => m1
    | some rows =>
      m1.setTile t { rt := packTags ((List.range 16).map fun i => ((rows.find? fun x => decide (x.1 = i)).map (·.2)).getD (tagOf (m.tileAt t).rt i)),
                     ct := 0, chkv := false, int := false }
  | .cold bytes side =>
    let tag := fun (x : Sp (BitVec 9)) (g : Nat × Option (BitVec 8)) =>
      Sp.set 0 x g.1 ((g.2.getD ((Sp.get 0 x g.1).truncate 8)).zeroExtend 9)
    { m with store := bytes.foldl (fun x b => Sp.set 0 x b.1 b.2) m.store, side := side.foldl tag m.side }
  | .chk words set =>
    let c := words.foldl (fun x w => Sp.set 0 x w.1 w.2) m.chk
    { m with chk := Sp.set 0 c 0 (Sp.get 0 c 0 ||| set) }
  | .cbt first ws => { m with cbt := (List.range ws.length).foldl (fun x i => Sp.set 0 x (first + i) (ws.getD i 0)) m.cbt }
  | .sel n load =>
    match load with
    | some t => { m with mq := Sp.set {} m.mq n t, msel := n }
    | none => { m with msel := n }
  | .flag n v => { m with flag := Sp.set 0 m.flag n v }
  | .vreg d ls => m.setLanes d ls
  | .vstacc t add words =>
    let sum := fun (c v : Word32) => if (m.tileAt t).int then c + v else add32 0 0 c v
    let m1 := m.setWords t (words.map fun x => (x.1, if add then sum (m.accAt t x.1) x.2 else x.2))
    if words.isEmpty then m1 else m1.setTile t { m.tileAt t with chkv := false }
  | .mask stk depth => { m with mstk := stk, mdepth := depth }
  | .param code v => m.setParam code v
  | .dly rows =>
    { m with dly := rows.foldl (fun x r => (List.range 64).foldl (fun x j => Sp.set 255 x (64 * r.1 + j) (r.2.getD j 255)) x) m.dly }
  | .tmode v => { m with tmode := v }
  | .twin w => { m with twin := w }
  | .latches => { m with tin := [], tout := [] }

/-- An injection into the accumulator word it names, if there is one, at the landing of an `mma` or `mscale` in its tile (R421). -/
def Core.flipAcc (c : Core) (t : Nat) : Core :=
  let e := c.injLoc % 2 ^ 9
  if c.armedInj 0 ∧ c.injLoc / 2 ^ 13 = t ∧ e < 289 then
    (c.modCold fun m => m.setAcc t e (m.accAt t e ^^^ BitVec.ofNat 32 (2 ^ c.injBit))).disarm
  else c

/-- A matrix or vector write to the cold store lands: a crossing of the quad that was due by now and is late leaves it standing (R200,
R245). -/
def State.outlast (s : State) (bytes : List (Nat × Byte)) : State :=
  let t := s.scnt
  let marks := bytes.map fun b => s.cur * 2 ^ 19 + b.1
  { s with cores := s.cores.map fun x =>
      if x.1 / 4 = s.cur / 4 then
        (x.1, { x.2 with xings := x.2.xings.map fun y =>
          if y.kind ≠ 2 ∧ y.recv.getLsbD (s.cur % 4) ∧ y.stamp ≤ t then { y with stays := y.stays ++ marks } else y })
      else x }

/-- Storage that is written whole holds no error any more (R336): accumulator words, and cold granules of 32 bytes. DEDUCED (log 24). -/
def Core.mend (c : Core) (op : LandOp) : Core :=
  let words := fun (t : Nat) (ws : List (Nat × Word32)) =>
    { c with badAcc := c.badAcc.filter fun a => !(decide (a / 512 = t) && ws.any fun w => decide (w.1 = a % 512)) }
  if c.badAcc.isEmpty ∧ c.badGran.isEmpty then c
  else match op with
    | .acc t ws _ _ => words t ws
    | .accPart t ws _ => words t ws
    | .vstacc t add ws => if add then c else words t ws
    | .cold bytes _ =>
      { c with badGran := c.badGran.filter fun g => decide ((bytes.filter fun b => decide (b.1 / 32 = g)).eraseDups.length < 32) }
    | _ => c

/-- Granules the core's own orders write are its own task's (R337). -/
def Cold.own (m : Cold) (op : LandOp) : Cold :=
  match op with
  | .cold bytes _ =>
    if m.writers.isEmpty then m else { m with writers := m.writers.filter fun x => !bytes.any fun b => decide (b.1 / 32 = x.1) }
  | _ => m

/-- One write lands: its effect, its event, and what hangs on it. -/
def State.landOne (s : State) (l : Landing) : State :=
  let s := match l.op with
    | .cold bytes _ => if l.eng = EngineId.temporal then s else s.outlast bytes
    | _ => s
  let w := s.clock
  let s1 := s.modCore fun c =>
    let c := { c.mend l.op with cold := { (c.cold.apply l.op).own l.op with pend := c.cold.pend.erase l } }
    let c := match l.op with
      | .acc t _ _ flip => if flip then (c.flipAcc t).noteTile t else c.noteTile t
      | .accPart t _ _ => c.noteTile t
      | .vstacc t _ _ => c.noteTile t
      | _ => c
    match l.event with
    | some v => c.event w v
    | none => c
  match l.op with
  | .flag _ _ => s1.ownPulse 7
  | _ => s1

/-- A write is due: results at their cycle of SCNT; a parameter write from the cycle after it (R29). -/
def State.landsNow (s : State) (l : Landing) : Bool :=
  if l.op.isParam then decide (l.at_ < s.clock) else decide (l.at_ ≤ s.scnt)

/-- Every write of the current core that is due lands: matrix, vector, temporal, each in order of issue (R198, R222, R245,
R308). -/
def State.landAll (s : State) : State :=
  (engines.flatMap fun e => s.core.cold.pend.filter fun l => decide (l.eng = e) && s.landsNow l).foldl State.landOne s

/-! ## Matrix operands (R27, R193, R194) -/

/-- The fields of pair k: BASE, ROWP, BROT, TPITCH. -/
structure Pair where
  base  : Nat
  rowp  : Nat
  brot  : Nat
  pitch : Nat
  deriving DecidableEq, Repr

def Cold.pair (m : Cold) (k : Nat) : Pair :=
  let e := Sp.get 0 m.ms (2 * k)
  let o := Sp.get 0 m.ms (2 * k + 1)
  { base := bits e 0 19, rowp := bits e 19 16, brot := bits o 19 4, pitch := bits o 0 19 }

/-- Address of row `r` of tile `tile`, for an order with this ITER. -/
def Pair.row (p : Pair) (tile iter r : Nat) : Nat := coldAddr (p.base + (tile + iter) % 4096 * p.pitch + r * p.rowp)

/-- The footprint of `n` bytes at each of the first `k` rows. -/
def Pair.firstRows (p : Pair) (k tile iter n : Nat) : List (Nat × Nat) := (List.range k).map fun r => (p.row tile iter r, n)

/-- The footprint of `n` bytes at each of the 16 rows. -/
def Pair.rows (p : Pair) (tile iter n : Nat) : List (Nat × Nat) := p.firstRows 16 tile iter n

/-- Rows of the B operand of an `mma` that it reads: cb2 stands in rows 0 to 3 (R193). -/
def rowsOfB (f : BitVec 3) : Nat := if f = 7 then 4 else 16

/-- Scale vectors of an `mscale` (R209): where A's and B's stand. -/
def Pair.scales (p : Pair) (b : Nat) : List (Nat × Nat) := [(coldAddr (p.base + 8 * b), 8), (coldAddr (p.base + p.pitch + 8 * b), 8)]

/-- Mask granule `n` (R196). -/
def State.maskGranule (s : State) (n : Nat) : Nat := coldAddr (s.core.slot.cquota.toNat + 2 ^ 19 - 256 + 32 * n)

/-- The row of a vector load or store (R254): address and code. -/
def Cold.vrow (m : Cold) (n row iter : Nat) : Nat × Nat :=
  let v := Sp.get 0 m.vs n
  (coldAddr (bits v 5 14 * 32 + 256 * ((row + iter) % 2048)), bits v 19 4)

/-! ## Heat of an order (R201, R246, R298) -/

/-- Lines of `k` rows of a matrix operand by its code. -/
def State.operandLines (s : State) (code k : Nat) : Nat :=
  if code < 8 then 0 else lineCount ((s.core.cold.pair (code - 8)).firstRows k 0 (s.iter .matrix) 32)

/-- Enabled crosspoints (R298). -/
def Cold.crosspoints (m : Cold) : Nat := (m.dly.filter fun x => !decide (x.2 = 255)).length

/-- The charge of an order that issues now. The lines of a `vsegid` are told apart by logical address, whatever code its lanes name.
DESIGN CHOICE (log 36). -/
def State.orderHeat (s : State) (i : Instr) : Nat :=
  let m := s.core.cold
  let it := s.iter .matrix
  match i with
  | .mma _ f _ _ k _ a b _ =>
    (if f = 0 ∨ f = 1 then 400 else if f = 4 ∨ f = 6 then 440 else 420) + (if k = 1 then 40 else 0) +
      s.operandLines a.toNat 16 + s.operandLines b.toNat (rowsOfB f)
  | .mldm _ _ p k => lineCount ((m.pair p.toNat).rows k.toNat it 32)
  | .mscale _ _ _ k b => 24 + lineCount ((m.pair k.toNat).scales ((b.toNat + it) % 256))
  | .mstore _ _ p k _ h => 8 + lineCount ((m.pair p.toNat).rows k.toNat it (if h = 1 then 32 else 64))
  | .mlda _ _ p k _ => 8 + lineCount ((m.pair p.toNat).rows k.toNat it 64)
  | .mzero _ _ | .mcopy _ _ _ | .mfix _ _ _ _ => 8
  | .ma2s _ _ _ _ | .mchk _ _ => 24
  | .mdrain _ _ _ _ => 40
  | .mmask _ q => if q = 0 then 0 else lineCount [(s.maskGranule q.toNat, 32)]
  | .mcbt _ p _ c => let x := m.pair p.toNat; lineCount [(coldAddr (x.base + it * x.pitch), 4 * (c.toNat + 1))]
  | .mnop _ | .mtile _ | .mloop _ _ _ _ | .mflag _ _ _ | .mwaits _ _ => 0
  | .vnop _ | .mskz _ _ | .vloop _ _ _ _ | .vflag _ _ _ | .vwaits _ _ => 0
  | .vexp2 _ _ _ | .vexpd _ _ _ _ | .vlog2 _ _ _ | .vrcp _ _ _ | .vrsq _ _ _ => 40
  | .vsegid _ _ a => 24 + lineCount ((List.range 64).map fun i => (bits (m.lane a.toNat i) 5 14 * 32, 32))
  | .vld _ _ n k => 24 + lineCount [((m.vrow n.toNat k.toNat (s.iter .vector)).1, 256)]
  | .vst _ n _ k => 24 + lineCount [((m.vrow n.toNat k.toNat (s.iter .vector)).1, 256)]
  | .tdload _ _ c _ => c.toNat + 1
  | .tlaunch _ _ => 64 + m.crosspoints
  | .trelax _ n => n.toNat * (64 + m.crosspoints)
  | .tnop _ | .tmode _ _ _ | .tmodeAll _ _ | .tmodeTs _ | .twset _ _ | .tcapture _ _ | .treset _ | .tflag _ _ _ => 0
  | _ => 24

/-- An order issues: its charge, then what it does. -/
def order (i : Instr) (s : State) (f : State → State) : Out := .next (f (s.charge (s.orderHeat i)))

/-! ## The scoreboards -/

/-- Active elements under the selected triple, in row-major order (R196). -/
def Cold.triple (m : Cold) : MaskTriple := Sp.get {} m.mq m.msel
def Cold.active (m : Cold) : List (Nat × Nat) :=
  let t := m.triple
  ((List.range 16).filter fun i => t.row.getLsbD i).flatMap fun i =>
    ((List.range 16).filter fun j => t.col.getLsbD j).map fun j => (i, j)

/-- Granules an `mstore` of `n`-byte elements writes: those that receive a byte (R210). -/
def State.storeGranules (s : State) (p : Pair) (k n : Nat) : List Res :=
  (s.granules p.brot (s.core.cold.active.map fun x => (coldAddr (p.row k (s.iter .matrix) x.1 + n * x.2), n))).map .gran

/-- The 16 rows of a tile in the cold store with their TAG and INV (R193, R194). -/
def State.coldTile (s : State) (p : Pair) (tile : Nat) : List (BitVec 256) × List (BitVec 9) :=
  let at_ := fun (r : Nat) => p.row tile (s.iter .matrix) r
  ((List.range 16).map fun r => BitVec.ofNat 256 (s.coldNat p.brot (at_ r) 32),
   (List.range 16).map fun r => s.coldSide p.brot (at_ r))

/-- An `mma` operand by its code (R92). -/
def State.operand (s : State) (code : Nat) : List (BitVec 256) × List (BitVec 9) :=
  if code < 8 then
    ((List.range 16).map fun r => Sp.get 0 s.core.cold.m (16 * code + r),
     (List.range 16).map fun r => Sp.get 0 s.core.cold.mside (16 * code + r))
  else s.coldTile (s.core.cold.pair (code - 8)) 0

/-- Top and parent of the stack; all ones where there is no entry. -/
def Cold.top (m : Cold) : BitVec 64 := if m.mdepth = 0 then 0xFFFFFFFFFFFFFFFF else Sp.get 0 m.mstk (m.mdepth - 1)
def Cold.parent (m : Cold) : BitVec 64 := if m.mdepth < 2 then 0xFFFFFFFFFFFFFFFF else Sp.get 0 m.mstk (m.mdepth - 2)

/-- The tile word of lane i of quarter q. -/
def quarterWord (q i : Nat) : Option Nat :=
  if q < 4 then some (17 * (4 * q + i / 16) + i % 16)
  else if i ≤ 16 then some (272 + i)
  else if i ≤ 32 then some (17 * (i - 17) + 16)
  else none

/-- What a matrix order reads (R199). -/
def State.matrixReads (s : State) (i : Instr) : List Res :=
  let m := s.core.cold
  let it := s.iter .matrix
  let tile := fun (p : Nat) (k n : Nat) => let x := m.pair p; (s.granules x.brot (x.rows k it n)).map Res.gran
  let operand := fun (c k : Nat) =>
    if c < 8 then [Res.mreg c] else let x := m.pair (c - 8); (s.granules x.brot (x.firstRows k 0 it 32)).map Res.gran
  match i with
  | .mma _ f _ _ _ _ a b c => operand a.toNat 16 ++ operand b.toNat (rowsOfB f) ++ [.acc c.toNat] ++ (if f = 7 then [.cbt] else [])
  | .mldm _ _ p k => tile p.toNat k.toNat 32
  | .mscale _ a p k b =>
    let x := m.pair k.toNat
    [.acc a.toNat, .acc p.toNat] ++ (s.granules x.brot (x.scales ((b.toNat + it) % 256))).map Res.gran
  | .mstore _ a _ _ _ _ => [.acc a.toNat]
  | .mdrain _ a _ _ => [.acc a.toNat]
  | .mchk _ a => [.acc a.toNat]
  | .mfix _ a _ _ => [.acc a.toNat, .chk]
  | .mcopy _ a b => if a = b then [] else [.acc b.toNat]
  | .mlda _ a p k e => (if e = 1 then [.acc a.toNat] else []) ++ tile p.toNat k.toNat 64
  | .ma2s _ h l b => [.acc h.toNat, .acc l.toNat, .acc b.toNat]
  | .mmask _ q => if q = 0 then [] else (s.granules 0 [(s.maskGranule q.toNat, 32)]).map Res.gran
  | .mcbt _ p _ c => let x := m.pair p.toNat; (s.granules x.brot [(coldAddr (x.base + it * x.pitch), 4 * (c.toNat + 1))]).map Res.gran
  | _ => []

/-- What a matrix order writes. -/
def State.matrixWrites (s : State) (i : Instr) : List Res :=
  match i with
  | .mma _ _ _ _ _ _ _ _ c => [.acc c.toNat]
  | .mldm _ d _ _ => [.mreg d.toNat]
  | .mscale _ a _ _ _ => [.acc a.toNat]
  | .mstore _ _ p k _ h => s.storeGranules (s.core.cold.pair p.toNat) k.toNat (if h = 1 then 2 else 4)
  | .mzero _ a => [.acc a.toNat]
  | .mdrain _ _ d _ => [.neighbour d.toNat]
  | .mchk _ _ => [.chk]
  | .mfix _ a _ _ => [.acc a.toNat, .chk]
  | .mcopy _ a b => if a = b then [] else [.acc a.toNat]
  | .mlda _ a _ _ _ => [.acc a.toNat]
  | .ma2s _ h l _ => [.acc h.toNat, .acc l.toNat]
  | .mmask _ q => if q = 0 then [.sel] else [.sel, .mq q.toNat]
  | .mcbt _ _ _ _ => [.cbt]
  | .mflag _ f _ => [.flag f.toNat]
  | _ => []

/-- The kind of a chain an order may join (R198): 1 for `mma`, 2 for `mscale`, with its tile. -/
def chainKind (i : Instr) : Nat × Nat :=
  match i with
  | .mma _ _ _ _ _ _ _ _ c => (1, c.toNat)
  | .mscale _ a _ _ _ => (2, a.toNat)
  | _ => (0, 0)

/-- A matrix order meets a write of an earlier step that has not landed (R199). -/
def State.matrixHazard (s : State) (i : Instr) : Bool :=
  let touches := s.matrixReads i ++ s.matrixWrites i
  let (kind, t) := chainKind i
  (s.core.cold.pend.any fun l =>
    decide (l.eng = .matrix) && !l.op.isParam && l.writes.any fun r =>
      touches.contains r && !(decide (kind ≠ 0) && decide (l.chain = kind) && decide (r = .acc t))) ||
  s.core.drains.any fun d => touches.contains (.neighbour d.dst)

/-- Vector registers, tile and granules a vector order reads or writes (R244). -/
def State.vectorTouches (s : State) (i : Instr) : List Res :=
  let v := fun (n : BitVec 5) => Res.vreg n.toNat
  let seg := fun (g : BitVec 1) => if g = 1 then [Res.vreg 31] else []
  match i with
  | .vadd _ d a b _ | .vsub _ d a b _ | .vmul _ d a b _ | .vfma _ d a b _ => [v d, v a, v b]
  | .vmin _ d a b | .vmax _ d a b | .vexpd _ d a b | .viadd _ d a b | .visub _ d a b | .vimul _ d a b | .vand _ d a b
  | .vor _ d a b | .vxor _ d a b | .vshl _ d a b | .vshr _ d a b | .vsar _ d a b | .vsel _ d a b | .vperm _ d a b => [v d, v a, v b]
  | .vabs _ d a | .vneg _ d a | .vexp2 _ d a | .vlog2 _ d a | .vrcp _ d a | .vrsq _ d a | .vmov _ d a | .vsegid _ d a => [v d, v a]
  | .vcmp _ a b _ _ => [v a, v b]
  | .vcvt _ d a _ _ _ _ => [v d, v a]
  | .vbcast _ d a _ => [v d, v a]
  | .vred _ d a _ g _ | .vscan _ d a _ g _ => [v d, v a] ++ seg g
  | .vld _ d n k => let x := s.core.cold.vrow n.toNat k.toNat (s.iter .vector); v d :: (s.granules x.2 [(x.1, 256)]).map Res.gran
  | .vst _ n b k => let x := s.core.cold.vrow n.toNat k.toNat (s.iter .vector); v b :: (s.granules x.2 [(x.1, 256)]).map Res.gran
  | .vldacc _ d _ c => [v d, .acc c.toNat]
  | .vstacc _ _ b c _ => [v b, .acc c.toNat]
  | .vparam _ d _ => [v d]
  | .mpush _ a => [v a]
  | .mpop _ d => [v d]
  | .vflag _ n _ => [.flag n.toNat]
  | _ => []

def State.vectorHazard (s : State) (i : Instr) : Bool :=
  let t := s.vectorTouches i
  s.core.cold.pend.any fun l => decide (l.eng = .vector) && !l.op.isParam && l.writes.any t.contains

/-- A temporal order meets a running evaluation, or a configuration write that has not landed (R307). -/
def State.temporalHazard (s : State) (i : Instr) : Bool :=
  let busy := s.core.cold.eval.isSome
  let cfg := s.core.cold.pend.any fun l => decide (l.eng = .temporal) && !l.op.isParam &&
    l.writes.any fun r => decide (r = .dly) || decide (r = .tmode) || decide (r = .twin)
  match i with
  | .tlaunch _ _ | .trelax _ _ => busy || cfg
  | .treset _ | .tcapture _ _ => busy
  | _ => false

/-! ## The cycle of an engine -/

/-- The orders at a step: slots X and Y of the matrix engine, or the one order (R91). A step that does not decode is a
filler; `tload` installs none (R97). -/
def Cold.ordersAt (m : Cold) (e : EngineId) (step : Nat) : List Instr :=
  let one := fun (r : Except Reject Instr) => match r with
    | .ok i => [i]
    | .error _ => []
  match e with
  | .matrix =>
    let w := Sp.get 0 m.omat step
    one (decodeX (w.truncate 32)) ++ one (decodeY ((w >>> 32).truncate 32))
  | .vector => one (decodeV (Sp.get 0 m.ovec step))
  | .temporal => one (decodeT (Sp.get 0 m.otmp step))

/-- STALL of a step: the larger of its slots' (R90, R91). -/
def Cold.stallAt (m : Cold) (e : EngineId) (step : Nat) : Nat :=
  match e with
  | .matrix => let w := Sp.get 0 m.omat step; max (bits w 28 4) (bits w 60 4)
  | .vector => bits (Sp.get 0 m.ovec step) 28 4
  | .temporal => bits (Sp.get 0 m.otmp step) 28 4

def Cold.endAt (m : Cold) (e : EngineId) (step : Nat) : Bool :=
  match e with
  | .matrix => Sp.get false m.endMat step
  | .vector => Sp.get false m.endVec step
  | .temporal => Sp.get false m.endTmp step

/-- The order, or bits, at a step as a trap record holds it. -/
def Cold.orderWord (m : Cold) (e : EngineId) (step : Nat) : Nat :=
  match e with
  | .matrix => (Sp.get 0 m.omat step).toNat
  | .vector => (Sp.get 0 m.ovec step).toNat
  | .temporal => (Sp.get 0 m.otmp step).toNat

/-- Of a tile that the order reads, the words it reads (R336): an order reads those of its active positions or lanes, an `mma` with OVW
none, the other orders all 289. -/
def State.readsWord (s : State) (i : Instr) (e : Nat) : Bool :=
  let m := s.core.cold
  let r := e / 17
  let j := e % 17
  let on := decide (r < 16) && decide (j < 16) && m.triple.row.getLsbD r && m.triple.col.getLsbD j
  match i with
  | .mma _ f _ _ k o a b _ =>
    let row := m.triple.row.getLsbD r && !((s.operand a.toNat).2.getD r 0).getLsbD 8
    let col := m.triple.col.getLsbD j && (decide (f = 7) || !((s.operand b.toNat).2.getD j 0).getLsbD 8)
    decide (o = 0) && (if r < 16 ∧ j < 16 then row && col else decide (k = 1) && (decide (r = 16) || row) && (decide (j = 16) || col))
  | .mscale _ _ _ _ _ => on
  | .mstore _ _ _ _ _ _ => on
  | .mlda _ _ _ _ _ => on
  | .vldacc _ _ q _ => (List.range 64).any fun l => m.top.getLsbD l && decide (quarterWord q.toNat l = some e)
  | .vstacc _ q _ _ _ => (List.range 64).any fun l => m.top.getLsbD l && decide (quarterWord q.toNat l = some e)
  | _ => true

/-- The first cold granule or accumulator word with an uncorrectable error that an order would read (R336, R338): its source in an
error bank and its address. -/
def State.badRead (s : State) (e : EngineId) (i : Instr) : Option (Nat × Nat) :=
  let reads := match e with
    | .matrix => s.matrixReads i
    | .vector => (match i with
      | .vld _ _ _ _ | .vldacc _ _ _ _ => s.vectorTouches i
      | .vstacc _ _ _ c add => if add = 1 then [Res.acc c.toNat] else []
      | .vsegid _ _ a => (List.range 64).map fun n =>
          let x := s.core.cold.lane a.toNat n
          Res.gran (coldGran (bits x 19 4) (bits x 5 14 * 32))
      | _ => [])
    | .temporal => (match i with
      | .tdload _ _ c t =>
        let x := Sp.get 0 s.core.cold.ts t.toNat
        (s.granules (bits x 19 4) [(bits x 6 13 * 64, 64 * (c.toNat + 1))]).map Res.gran
      | _ => [])
  reads.findSome? fun r => match r with
    | .gran g => if s.core.badGran.contains g then some (2, g) else none
    | .acc t => (s.core.badAcc.find? fun a => decide (a / 512 = t) && s.readsWord i (a % 512)).map fun a => (5, a)
    | _ => none

/-- The uncorrectable error an engine meets at its step (R336, R338): in its order, or in what the orders read. -/
def State.badStep (s : State) (e : EngineId) : Option (Nat × Nat) :=
  let x := s.core.engine e
  let a := 4096 * engineIdx e + x.step
  if s.core.badOrd.contains a then some (6, a) else (s.core.cold.ordersAt e x.step).findSome? (s.badRead e)

/-- The fault an engine meets at the step it is about to issue: STALLCHK with the scoreboard on, or MEMERR, with TADDR. -/
def State.orderFault (s : State) (e : EngineId) : Option (Nat × Nat) :=
  let x := s.core.engine e
  let os := s.core.cold.ordersAt e x.step
  let hazard := fun (i : Instr) => match e with
    | .matrix => s.matrixHazard i
    | .vector => s.vectorHazard i
    | .temporal => s.temporalHazard i
  if !x.run ∨ x.fill ≠ 0 ∨ x.skip ≠ 0 then none
  else if s.core.chksb.getLsbD 0 ∧ os.any hazard then some (0x19, x.step)
  else (s.badStep e).map fun g => (0x1B, g.2)

/-- An engine that faults at its step in this cold cycle, if it has not issued in it. -/
def State.faultsNow (s : State) (e : EngineId) : Bool :=
  !s.core.held && !decide ((s.core.engine e).last = s.clock + 1) && (s.orderFault e).isSome

/-- Loops of an engine at the step just issued, innermost first (R220, R221): where it goes back to, and the nest left. A loop that the
step itself has entered stands as it is while those that end at the step are evaluated. DESIGN CHOICE (log 37). -/
def loopBack (step : Nat) (stop : Bool) : List ELoop → Option Nat × List ELoop
  | [] => (none, [])
  | l :: rest =>
    if l.last ≠ step then
      let (t, r) := loopBack step stop rest
      (t, l :: r)
    else if l.iter + 1 < l.count ∧ !(l.pre && stop) then (some l.first, { l with iter := l.iter + 1 } :: rest)
    else loopBack step stop rest

/-- The engine goes on from the step it has issued: back into a loop, to the next step, or to the table's end (R141). A skip run is of
the orders that follow in the table, so that a loop back leaves none of it (R240). -/
def Core.nextStep (c : Core) (e : EngineId) : Core :=
  let x := c.engine e
  let (back, ls) := loopBack x.step c.exiting x.loops
  match back with
  | some b => c.modEngine e fun y => { y with loops := ls, step := b, skip := 0, fill := y.fill + c.cold.stallAt e b }
  | none =>
    if c.cold.endAt e x.step then c.modEngine e fun y => { y with loops := [], run := false, fill := 0, skip := 0, pulse := true }
    else
      let n := (x.step + 1) % storeSize e
      c.modEngine e fun y => { y with loops := ls, step := n, fill := y.fill + c.cold.stallAt e n }

/-- A filler passes (R90). -/
def State.filler (s : State) (e : EngineId) : State :=
  s.modCore fun c => c.modEngine e fun x => { x with fill := x.fill - 1, last := s.clock + 1 }

/-- An engine meets an uncorrectable error: it is logged in the bank of its die, and one of the cold store ends the task that owns it
where the cold stores run in OWNER mode (R336 to R338). -/
def State.engineError (s : State) (e : EngineId) : State :=
  match s.badStep e with
  | none => s
  | some (source, a) =>
    if source = 2 then s.meetCold a else s.logOwn source a

/-- An engine-class trap (R385, R386): later engines that would fault in this cycle are flagged in the record. -/
def State.orderTrap (s0 : State) (e : EngineId) (code addr : Nat) : State :=
  let s := if code = 0x1B then s0.engineError e else s0
  if s.core.run.isNone ∧ s0.core.run.isSome then s else
  let c := s.core
  let others := (engines.drop (engineIdx e + 1)).filter fun x => (s.orderFault x).isSome
  let s1 := others.foldl (fun s x => s.modCore fun c => c.modEngine x fun y => { y with flt := true }) s
  let s2 := s1.takeTrap (causeOf 2 (engineIdx e) code) (word addr) (c.cold.orderWord e (c.engine e).step)
  others.foldl (fun s x => s.modCore fun c => c.modEngine x fun y => { y with flt := false }) s2

/-- The first step of a table issues (R219, R407): the matrix engine's marker, and the window its table opens. -/
def State.openAt (s : State) (e : EngineId) : State :=
  let x := s.core.engine e
  if !x.opens then s
  else
    let m : Mark := { step := x.step, loops := [], msel := s.core.cold.msel, scnt := s.scnt }
    let mark := if e = .matrix then some m else x.mark
    (s.modCore fun c => c.modEngine e fun y => { y with opens := false, mark := mark }).openWindow e m false

/-- An engine issues its step, at most one in a cold cycle: a skipped order is charged and passes (R240); else its orders run, slot X
before slot Y. -/
def State.issueOrder (exec : Instr → State → Out) (e : EngineId) (s : State) : Out :=
  let x := s.core.engine e
  if !x.run ∨ s.core.held ∨ x.last = s.clock + 1 then .next s
  else match s.orderFault e with
  | some (code, addr) => .next (s.orderTrap e code addr)
  | none =>
    let s := (s.openAt e).modCore fun c => c.modEngine e fun y => { y with last := s.clock + 1 }
    let os := s.core.cold.ordersAt e x.step
    if x.skip ≠ 0 then
      let s1 := os.foldl (fun s i => s.charge (s.orderHeat i)) s
      .next ((s1.modCore fun c => c.modEngine e fun y => { y with skip := y.skip - 1 }).modCore fun c => c.nextStep e)
    else
      let r := os.foldl (fun (r : Out) i => match r with
        | .next t => exec i t
        | o => o) (.next s)
      match r with
      | .next t => .next (t.modCore fun c => c.nextStep e)
      | o => o

/-- `TABLE_START` (R142): at stamp T the engine sets its step counter to the base and begins; otherwise STARTF, after the faults engines
meet in the same cycle (R386). The first step's STALL fillers come first (R90); a matrix table begins with mq0 selected and the marker
at its first step (R196, R219). A table that starts while the matrix engine is idle opens a window at that step (R407). -/
def execTableStart (e : EngineId) (s : State) : Out :=
  match s.dueStart e with
  | none => .next s
  | some x =>
    let s1 := s.modCore fun c => c.modEngine e fun y => { y with start := y.start.erase x }
    if s.core.busyEngine e then
      if engines.any s.faultsNow then .next s else .next (s1.takeTrap (causeOf 1 2 0x15) x.2.2 (s.wordAt x.2.2).toNat)
    else
      let matrix := decide (e = .matrix)
      let base := (s.core.engine e).base
      let m : Mark := { step := base, loops := [], msel := 0, scnt := s.scnt }
      let opens := matrix || s.core.idle .matrix
      .next (s1.modCore fun c =>
        let c1 := if matrix then c.modCold fun k => { k with msel := 0 } else c
        c1.modEngine e fun y =>
          { y with run := true, first := base, step := base, loops := [], fill := c.cold.stallAt e base, skip := 0,
                   mark := if matrix then some m else y.mark, opens := opens, tables := y.tables + 1 })

end Sys2Proof.Machine
end

