-- ==== Sys2Proof/Machine/Matrix.lean ====
section
/-! DEFINITION. The orders of the matrix engine (R193 to R224) and the arrival of drains (R215). -/

namespace Sys2Proof.Machine

/-! ## Slot X -/

/-- `mnop` (R202). -/
def execMnop (w : BitVec 4) (s : State) : Out := order (.mnop w) s fun s => s

/-- `mldm` (R207). -/
def execMldm (w : BitVec 4) (d p : BitVec 3) (k : BitVec 12) (s : State) : Out :=
  order (.mldm w d p k) s fun s =>
    let (rows, side) := s.coldTile (s.core.cold.pair p.toNat) k.toNat
    s.land .matrix 3 0 [.mreg d.toNat] (.mreg d.toNat rows side)

/-- Formats of A and B, as codes of R22, and the depth of an `mma` (R203); B of cb2 is decoded apart. -/
def mmaFormats (f : BitVec 3) (x : BitVec 1) : Nat × Nat × Nat :=
  let alt := decide (x = 1)
  match f with
  | 0#3 => (2, 2, 16)
  | 1#3 => (1, 1, 16)
  | 2#3 => (3, if alt then 4 else 3, 32)
  | 3#3 => (4, if alt then 3 else 4, 32)
  | 4#3 => (5, 5, 64)
  | 5#3 => (6, 6, 32)
  | 6#3 => (7, 7, 64)
  | _ => (if alt then 4 else 3, 8, 32)

/-- The elements of an operand row. -/
def elements (fmt depth : Nat) (row : BitVec 256) : List Val :=
  let w := 256 / depth
  (List.range depth).map fun k => decodeElem fmt (bits row (w * k) w)

/-- The index of K group `g` of column `j` of a cb2 tile, decoded against the codebook shape table (R63, R205). -/
def Cold.cb2 (m : Cold) (rows : List (BitVec 256)) (g j : Nat) : Option (List Int) :=
  let idx := bits (rows.getD g 0) (16 * j) 16
  decodeCb2 idx (Sp.get 0 m.cbt (idx % 256)).toNat

/-- Column `j` of a cb2 tile: 32 weights in halves; a malformed index gives zeros (R64). -/
def Cold.cb2Column (m : Cold) (rows : List (BitVec 256)) (j : Nat) : List Val :=
  (List.range 4).flatMap fun g =>
    match m.cb2 rows g j with
    | some hs => hs.map fun h => .num (decide (h < 0)) h.natAbs (-1)
    | none => List.replicate 8 (.num false 0 0)

/-- The accumulator word and tile an order accumulates onto: a chain sees the earlier orders of its kind (R198). -/
def Cold.chainWord (m : Cold) (kind t e : Nat) : Word32 :=
  m.pend.foldl (fun v l =>
    if l.chain = kind then
      match l.op with
      | .acc u ws _ _ => if u = t then ((ws.find? fun x => decide (x.1 = e)).map (·.2)).getD v else v
      | _ => v
    else v) (m.accAt t e)

def Cold.chainTile (m : Cold) (kind t : Nat) : Tile :=
  m.pend.foldl (fun v l =>
    if l.chain = kind then
      match l.op with
      | .acc u _ x _ => if u = t then x else v
      | _ => v
    else v) (m.tileAt t)

/-- One rounded sum of an accumulator element: the products, and C unless OVW; with no product C stays (R47, R57). -/
def accumulate (ovw : Bool) (c : Word32) (terms : List Val) : Word32 :=
  if terms.isEmpty then (if ovw then 0 else c) else round32 0 0 (sumVals 0 (terms ++ if ovw then [] else [val32 c]))

/-- The exact int32 sum with wrap (R58). -/
def accumulateInt (ovw : Bool) (c : Word32) (terms : List Val) : Word32 :=
  BitVec.ofInt 32 (terms.foldl (fun (a : Int) x => a + x.at 0) (if ovw then 0 else c.toInt))

/-- What an `mma` works on (R197, R203): active rows, columns and depths, its formats and elements. -/
structure MmaCase where
  rows  : List Nat
  cols  : List Nat
  ks    : List Nat
  tagA  : List (BitVec 9)
  tagB  : List (BitVec 9)
  a     : List (List Val)
  b     : List (List Val)
  bad   : List (Nat × Nat)
  deriving DecidableEq, Repr

def State.mmaCase (s : State) (f : BitVec 3) (x : BitVec 1) (oa ob : BitVec 4) : MmaCase :=
  let m := s.core.cold
  let t := m.triple
  let cb2 := decide (f = 7)
  let (fa, fb, depth) := mmaFormats f x
  let (ra, sa) := s.operand oa.toNat
  let (rb, sb) := s.operand ob.toNat
  let rows := (List.range 16).filter fun i => t.row.getLsbD i && !(sa.getD i 0).getLsbD 8
  let cols := (List.range 16).filter fun j => t.col.getLsbD j && (cb2 || !(sb.getD j 0).getLsbD 8)
  let group := fun (g : Nat) => decide (bits t.dep (8 * g) 8 ≠ 0)
  { rows := rows, cols := cols, ks := (List.range depth).filter fun k => t.dep.getLsbD k, tagA := sa,
    tagB := if cb2 then List.replicate 16 0 else sb, a := ra.map (elements fa depth),
    b := if cb2 then (List.range 16).map (m.cb2Column rb) else rb.map (elements fb depth),
    bad := if cb2 ∧ !rows.isEmpty then
        (List.range 4).flatMap fun g => if group g then (cols.filter fun j => (m.cb2 rb g j).isNone).map fun j => (g, j) else []
      else [] }

/-- Element `k` of a row of values. -/
def elemAt (rows : List (List Val)) (i k : Nat) : Val := (rows.getD i []).getD k .nan

/-- Row `i` and column `j` meet: under SEG where their tags agree (R57). -/
def MmaCase.paired (x : MmaCase) (seg : Bool) (i j : Nat) : Bool :=
  !seg || decide ((x.tagA.getD i 0).truncate 8 = (x.tagB.getD j 0).truncate 8)

/-- The products of element (i, j): none where SEG keeps row and column apart (R57). -/
def MmaCase.products (x : MmaCase) (seg : Bool) (i j : Nat) : List Val :=
  if !x.paired seg i j then []
  else x.ks.map fun k => (elemAt x.a i k).mul (elemAt x.b j k)

/-- cb[k] over the columns that meet row `i`, and ra[k] over the rows that meet column `j` (R206). -/
def MmaCase.colSum (x : MmaCase) (seg : Bool) (i k : Nat) : Val := sumVals 0 ((x.cols.filter fun j => x.paired seg i j).map fun j => elemAt x.b j k)
def MmaCase.rowSum (x : MmaCase) (seg : Bool) (j k : Nat) : Val := sumVals 0 ((x.rows.filter fun i => x.paired seg i j).map fun i => elemAt x.a i k)

/-- The checksum terms of an `mma` with CHK (R206): of row i, of column j, of the corner. Under SEG the excluded products
are left out of the sums: ra and cb run over the rows and columns that meet, and the corner adds up, tag by tag, what each tag's rows and
columns give. DEDUCED (log 38). -/
def MmaCase.rowTerms (x : MmaCase) (seg : Bool) (i : Nat) : List Val :=
  if (x.cols.filter fun j => x.paired seg i j).isEmpty then []
  else x.ks.map fun k => (elemAt x.a i k).mul (x.colSum seg i k)

def MmaCase.colTerms (x : MmaCase) (seg : Bool) (j : Nat) : List Val :=
  if (x.rows.filter fun i => x.paired seg i j).isEmpty then []
  else x.ks.map fun k => (x.rowSum seg j k).mul (elemAt x.b j k)

/-- One row of each tag that meets some column: every active row where SEG is off is the first. -/
def MmaCase.leaders (x : MmaCase) (seg : Bool) : List Nat :=
  let met := x.rows.filter fun i => x.cols.any fun j => x.paired seg i j
  met.filter fun i => (met.find? fun r => !seg || decide ((x.tagA.getD r 0).truncate 8 = (x.tagA.getD i 0).truncate 8)) = some i

def MmaCase.cornerTerms (x : MmaCase) (seg : Bool) : List Val :=
  (x.leaders seg).flatMap fun i =>
    match x.cols.find? fun j => x.paired seg i j with
    | some j => x.ks.map fun k => (x.rowSum seg j k).mul (x.colSum seg i k)
    | none => []

/-- The words an `mma` writes (R204, R206), given the words it accumulates onto. -/
def MmaCase.words (x : MmaCase) (int seg chk ovw : Bool) (base : Nat → Word32) : List (Nat × Word32) :=
  let data := x.rows.flatMap fun i => x.cols.map fun j =>
    let e := 17 * i + j
    (e, if int then accumulateInt ovw (base e) (x.products seg i j) else accumulate ovw (base e) (x.products seg i j))
  let sums :=
    if chk then
      (x.rows.map fun i => (17 * i + 16, accumulate ovw (base (17 * i + 16)) (x.rowTerms seg i))) ++
      (x.cols.map fun j => (272 + j, accumulate ovw (base (272 + j)) (x.colTerms seg j))) ++
      [(288, accumulate ovw (base 288) (x.cornerTerms seg))]
    else []
  data ++ sums

/-- `mma` (R203 to R206): lands 4 cold cycles later, onto the earlier orders of its chain. -/
def execMma (w : BitVec 4) (f : BitVec 3) (x g k o : BitVec 1) (a b : BitVec 4) (c : BitVec 6) (s : State) : Out :=
  order (.mma w f x g k o a b c) s fun s =>
    let t := c.toNat
    let m := s.core.cold
    let y := s.mmaCase f x a b
    let int := decide (f = 5 ∨ f = 6)
    let chk := decide (k = 1)
    let ovw := decide (o = 1)
    let words := y.words int (decide (g = 1)) chk ovw (m.chainWord 1 t)
    let info : Tile := { rt := packTags (y.tagA.map (·.truncate 8)), ct := packTags (y.tagB.map (·.truncate 8)), int := int, chkv := chk && (ovw || (m.chainTile 1 t).chkv) }
    let ev := match y.bad with
      | (r, j) :: _ => s.orderEvent .matrix t r j y.bad.length kindBadcb
      | [] => none
    s.land .matrix 4 1 [.acc t] (.acc t words info true) ev

/-! ## Slot Y -/

/-- A value times 2^e. -/
def Val.scale (v : Val) (e : Int) : Val :=
  match v with
  | .num n m x => .num n m (x + e)
  | y => y

/-- `mscale` (R62, R209). -/
def execMscale (w : BitVec 4) (a p : BitVec 6) (v : BitVec 3) (b : BitVec 8) (s : State) : Out :=
  order (.mscale w a p v b) s fun s =>
    let m := s.core.cold
    let t := a.toNat
    let pr := m.pair v.toNat
    let at_ := pr.scales ((b.toNat + s.iter .matrix) % 256)
    let da := s.coldNat pr.brot (at_.getD 0 (0, 0)).1 8
    let db := s.coldNat pr.brot (at_.getD 1 (0, 0)).1 8
    let ms12 := Sp.get 0 m.ms 12
    let pt := m.tileAt p.toNat
    let words := m.active.filterMap fun x =>
      let ca : Nat := da / 16 ^ x.1 % 16
      let cb : Nat := db / 16 ^ x.2 % 16
      let n := 17 * x.1 + x.2
      if ca = 15 ∨ cb = 15 then none
      else
        let e : Int := signedOf 8 (bits ms12 0 8) + (ca : Int) + signedOf 8 (bits ms12 8 8) + (cb : Int)
        let z := m.accAt p.toNat n
        let part : Val := if pt.int then .ofInt z.toInt else val32 z
        some (n, round32 0 0 (sumVals 0 [val32 (m.chainWord 2 t n), part.scale e]))
    s.land .matrix 4 2 [.acc t] (.acc t words { rt := pt.rt, ct := pt.ct, chkv := false, int := false } true)

/-- `mstore` (R210): the tile's active elements, a FILL where SEG keeps row and column apart, bf16 with HALF. The INF event counts
words whose granule lies at or beyond CQUOTA too. DESIGN CHOICE (log 38). -/
def execMstore (w : BitVec 4) (a : BitVec 6) (p : BitVec 3) (k : BitVec 12) (g h : BitVec 1) (s : State) : Out :=
  order (.mstore w a p k g h) s fun s =>
    let m := s.core.cold
    let tile := m.tileAt a.toNat
    let pr := m.pair p.toNat
    let n := if h = 1 then 2 else 4
    let cells := m.active.map fun x =>
      let v := if g = 1 ∧ tagOf tile.rt x.1 ≠ tagOf tile.ct x.2 then (Sp.get 0 m.ms 14).truncate 32 else m.accAt a.toNat (17 * x.1 + x.2)
      let (code, kind) := if h = 1 then encodeElem 2 0 false 0 (val32 v) else (v.toNat, 0)
      (x, coldAddr (pr.row k.toNat (s.iter .matrix) x.1 + n * x.2), leBytes n code, kind)
    let hits := (cells.filter fun c => decide (c.2.2.2 ≠ 0)).map fun c => c.1
    let bytes := cells.flatMap fun c => s.coldCells pr.brot c.2.1 c.2.2.1
    let side := cells.flatMap fun c =>
      (s.coldCells pr.brot c.2.1 c.2.2.1).map fun y => (y.1 / 32, some (tagOf tile.rt c.1.1))
    let ev := match hits with
      | (i, j) :: _ => s.orderEvent .matrix a.toNat i j hits.length kindInf
      | [] => none
    s.land .matrix 4 0 (s.storeGranules pr k.toNat n) (.cold bytes side) ev

/-- `mzero` (R211). -/
def execMzero (w : BitVec 4) (a : BitVec 6) (s : State) : Out :=
  order (.mzero w a) s fun s =>
    s.land .matrix 2 0 [.acc a.toNat] (.acc a.toNat ((List.range 289).map fun e => (e, 0)) {} false)

/-- `mcopy` (R212); onto itself it has no effect. -/
def execMcopy (w : BitVec 4) (a b : BitVec 6) (s : State) : Out :=
  order (.mcopy w a b) s fun s =>
    if a = b then s
    else
      let m := s.core.cold
      s.land .matrix 2 0 [.acc a.toNat] (.acc a.toNat ((List.range 289).map fun e => (e, m.accAt b.toNat e)) (m.tileAt b.toNat) false)

/-- `mlda` (R213). -/
def execMlda (w : BitVec 4) (a : BitVec 6) (p : BitVec 3) (k : BitVec 12) (e : BitVec 1) (s : State) : Out :=
  order (.mlda w a p k e) s fun s =>
    let m := s.core.cold
    let t := a.toNat
    let pr := m.pair p.toNat
    let row := fun (i : Nat) => pr.row k.toNat (s.iter .matrix) i
    let data := m.active.map fun x =>
      let n := 17 * x.1 + x.2
      let v := BitVec.ofNat 32 (s.coldNat pr.brot (row x.1 + 4 * x.2) 4)
      (n, if e = 1 then add32 0 0 (m.accAt t n) v else v)
    let sums := if e = 1 then [] else ((List.range 16).map fun i => (17 * i + 16, (0 : Word32))) ++ (List.range 17).map fun j => (272 + j, 0)
    let rt := ((List.range 16).filter fun i => m.triple.row.getLsbD i).map fun i => (i, (s.coldSide pr.brot (row i)).truncate 8)
    s.land .matrix 4 0 [.acc t] (.accPart t (data ++ sums) (some rt))

/-- `ma2s` (R214): both tiles land together. -/
def execMa2s (w : BitVec 4) (h l b : BitVec 6) (s : State) : Out :=
  order (.ma2s w h l b) s fun s =>
    let m := s.core.cold
    let pairs := (List.range 289).map fun e => (e, twoSum (m.accAt h.toNat e) (m.accAt l.toNat e) (m.accAt b.toNat e))
    let src := m.tileAt b.toNat
    let info : Tile := { rt := src.rt, ct := src.ct, chkv := false, int := false }
    (s.land .matrix 4 0 [.acc h.toNat] (.acc h.toNat (pairs.map fun x => (x.1, x.2.1)) info false)).land .matrix 4 0 [.acc l.toNat]
      (.acc l.toNat (pairs.map fun x => (x.1, x.2.2)) info false)

/-- `mtile` (R219, R407): the marker, and the opening of a window. -/
def execMtile (w : BitVec 4) (s : State) : Out :=
  order (.mtile w) s fun s =>
    let x := s.core.engine .matrix
    let m : Mark := { step := x.step, loops := x.loops, msel := s.core.cold.msel, scnt := s.scnt }
    (s.modCore fun c => c.modEngine .matrix fun y => { y with mark := some m }).openWindow .matrix m true

/-- Begin a loop of `len` body steps after the present step (R220, R256). -/
def State.startLoop (s : State) (e : EngineId) (p : BitVec 1) (count len : Nat) : State :=
  s.modCore fun c => c.modEngine e fun x =>
    { x with loops := { first := x.step + 1, last := x.step + len, iter := 0, count := count, pre := decide (p = 1), began := s.scnt } :: x.loops }

/-- `mloop` (R220, R221). -/
def execMloop (w : BitVec 4) (p : BitVec 1) (c : BitVec 12) (l : BitVec 10) (s : State) : Out :=
  order (.mloop w p c l) s fun s => s.startLoop .matrix p c.toNat l.toNat

/-- Write a cold flag word at s + 1 (R222). -/
def State.landFlag (s : State) (e : EngineId) (n v : Nat) : State :=
  s.land e 1 0 [.flag n] (.flag n (BitVec.ofNat 32 v))

/-- `mflag` (R222). -/
def execMflag (w f : BitVec 4) (v : BitVec 16) (s : State) : Out :=
  order (.mflag w f v) s fun s => s.landFlag .matrix f.toNat v.toNat

/-- `mwaits` (R223): n fillers before the next step's own STALL. -/
def execMwaits (w : BitVec 4) (n : BitVec 16) (s : State) : Out :=
  order (.mwaits w n) s fun s => s.modCore fun c => c.modEngine .matrix fun x => { x with fill := x.fill + n.toNat }

/-- `mmask` (R196): acts from the next step on. -/
def execMmask (w : BitVec 4) (q : BitVec 3) (s : State) : Out :=
  order (.mmask w q) s fun s =>
    if q = 0 then s.land .matrix 1 0 [.sel] (.sel 0 none)
    else
      let a := s.maskGranule q.toNat
      let t : MaskTriple := { row := BitVec.ofNat 16 (s.coldNat 0 a 2), col := BitVec.ofNat 16 (s.coldNat 0 (a + 2) 2),
                              dep := BitVec.ofNat 64 (s.coldNat 0 (a + 4) 8) }
      s.land .matrix 1 0 [.sel, .mq q.toNat] (.sel q.toNat (some t))

/-- `mcbt` (R224). -/
def execMcbt (w : BitVec 4) (p : BitVec 3) (f c : BitVec 8) (s : State) : Out :=
  order (.mcbt w p f c) s fun s =>
    let pr := s.core.cold.pair p.toNat
    let a := pr.base + s.iter .matrix * pr.pitch
    s.land .matrix 4 0 [.cbt]
      (.cbt f.toNat ((List.range (c.toNat + 1)).map fun n => BitVec.ofNat 32 (s.coldNat pr.brot (a + 4 * n) 4)))

/-! ## Checks and repair (R216 to R218) -/

/-- a < b for exact values; false where one is NaN. -/
def Val.less (a b : Val) : Bool :=
  match a, b with
  | .nan, _ | _, .nan => false
  | .inf n, .inf k => n && !k
  | .inf n, .num _ _ _ => n
  | .num _ _ _, .inf k => !k
  | x, y => let q := min x.exp y.exp; decide (x.at q < y.at q)

def Val.abs : Val → Val
  | .nan => .nan
  | .inf _ => .inf false
  | .num _ m e => .num false m e

/-- The words of row `i`, or column `j`, of a tile, its checksum last. -/
def Cold.rowWords (m : Cold) (t i : Nat) : List Word32 := (List.range 17).map fun j => m.accAt t (17 * i + j)
def Cold.colWords (m : Cold) (t j : Nat) : List Word32 := (List.range 17).map fun i => m.accAt t (17 * i + j)

/-- The exact residue of a line: the sum of its data less its checksum (R216). -/
def residue (ws : List Word32) : Val := sumVals 0 ((ws.take 16).map val32 ++ [(val32 (ws.getD 16 0)).neg])

/-- TOLM × the magnitude sum of a line + TOLA. -/
def tolerance (ms13 : Word) (ws : List Word32) : Val :=
  sumVals 0 [(val32 ((ms13 >>> 32).truncate 32)).mul (sumVals 0 (ws.map fun w => (val32 w).abs)), val32 (ms13.truncate 32)]

/-- A line exceeds its tolerance. -/
def flagged (ms13 : Word) (ws : List Word32) : Bool := (tolerance ms13 ws).less (residue ws).abs

def Cold.finiteTile (m : Cold) (t : Nat) : Bool := (List.range 289).all fun e => isFinite32 (m.accAt t e)

/-- Bits i of the indices in a list. -/
def flagMask (l : List Nat) : Nat := l.foldl (fun n i => n + 2 ^ i) 0

/-- The check record (R217). -/
structure CheckRec where
  cls    : Nat
  reason : Nat
  rows   : List Nat
  cols   : List Nat
  i      : Nat
  j      : Nat
  delta  : Word32
  gamma  : Word32
  deriving DecidableEq, Repr

/-- What `mchk` finds in a tile (R216). -/
def Cold.check (m : Cold) (t : Nat) : CheckRec :=
  let bad := fun (reason : Nat) => CheckRec.mk 3 reason [] [] 0 0 0 0
  let ms13 := Sp.get 0 m.ms 13
  if !(m.tileAt t).chkv then bad 2
  else if !m.finiteTile t then bad 1
  else
    let idx := List.range 16
    let ds := idx.map fun i => round32 0 0 (residue (m.rowWords t i))
    let gs := idx.map fun j => round32 0 0 (residue (m.colWords t j))
    if (ds ++ gs).any fun x => !isFinite32 x then bad 1
    else
      let rows := idx.filter fun i => flagged ms13 (m.rowWords t i)
      let cols := idx.filter fun j => flagged ms13 (m.colWords t j)
      match rows, cols with
      | [], [] => CheckRec.mk 0 0 [] [] 0 0 0 0
      | [i], [j] => CheckRec.mk 1 0 rows cols i j (ds.getD i 0) (gs.getD j 0)
      | _, _ => CheckRec.mk 2 0 rows cols 0 0 0 0

/-- `mchk` (R216, R217). -/
def execMchk (w : BitVec 4) (a : BitVec 6) (s : State) : Out :=
  order (.mchk w a) s fun s =>
    let r := s.core.cold.check a.toNat
    let n := fun (v : Nat) => BitVec.ofNat 32 v
    let words : List (Nat × Word32) :=
      [(0, n (r.cols.length * 2 ^ 19 + r.rows.length * 2 ^ 14 + a.toNat * 2 ^ 8 + r.reason * 16 + r.cls)), (1, n (r.j * 16 + r.i)),
       (2, r.delta), (3, r.gamma), (4, n (flagMask r.cols * 2 ^ 16 + flagMask r.rows)),
       (5, n (s.iter .matrix % 2 ^ 14 * 2 ^ 12 + s.stepNo .matrix % 2 ^ 12)), (6, n (s.scnt % 2 ^ 32)), (7, 0)]
    s.land .matrix 8 0 [.chk] (.chk words 0)

/-- `mfix` (R218, R422). -/
def execMfix (w : BitVec 4) (a : BitVec 6) (i j : BitVec 4) (s : State) : Out :=
  order (.mfix w a i j) s fun s =>
    let m := s.core.cold
    let t := a.toNat
    let place := (1, BitVec.ofNat 32 (j.toNat * 16 + i.toNat))
    let refuse := fun (d g : Word32) => s.land .matrix 8 0 [.acc t, .chk] (.chk [place, (2, d), (3, g)] (BitVec.ofNat 32 (2 ^ 24)))
    if !(m.tileAt t).chkv ∨ !m.finiteTile t then refuse 0 0
    else
      let row := m.rowWords t i.toNat
      let d := residue row
      let g := residue (m.colWords t j.toNat)
      let gap := (sumVals 0 [d, g.neg]).abs
      let tol := tolerance (Sp.get 0 m.ms 13) row
      if tol ≠ .nan ∧ !tol.less gap then
        let e := 17 * i.toNat + j.toNat
        let v := round32 0 0 (sumVals 0 [val32 (m.accAt t e), d.neg])
        (s.land .matrix 8 0 [.acc t] (.accPart t [(e, v)] none)).land .matrix 8 0 [.chk]
          (.chk [place, (2, round32 0 0 d), (3, round32 0 0 g)] (BitVec.ofNat 32 (2 ^ 25)))
      else refuse (round32 0 0 d) (round32 0 0 g)

/-! ## Drains (R215) -/

/-- `mdrain`: the tile is read at issue; a replay run does not repeat a drain (R409). -/
def execMdrain (w : BitVec 4) (a d : BitVec 6) (c : BitVec 1) (s : State) : Out :=
  order (.mdrain w a d c) s fun s =>
    let m := s.core.cold
    let clamp : Word32 := (Sp.get 0 m.ms 15).truncate 32 &&& 0x7FFFFFFF
    let x : Drain :=
      { at_ := s.scnt + 40, warm := s.warm, dst := d.toNat, words := (List.range 289).map fun e => (e, m.accAt a.toNat e),
        chkv := (m.tileAt a.toNat).chkv, clamp := if c = 1 then some clamp else none, step := s.stepNo .matrix, iter := s.iter .matrix,
        rpl := s.core.rerun }
    s.modCore fun k =>
      let k1 : Core := { k with win := k.win.map fun (y : Window) => { y with drains := y.drains + 1 } }
      if k.owes.drains = 0 then { k1 with drains := k1.drains ++ [x] }
      else { k1 with owed := { k1.owed with drains := k1.owed.drains - 1 } }

/-- The next core of the quad, modulo 4. -/
def ringNext (k : Nat) : Nat := k / 4 * 4 + (k + 1) % 4

/-- The receiver takes the drain (R215). -/
def State.takesDrain (s : State) (x : Drain) : Bool :=
  let c := s.coreAt (ringNext s.cur)
  let me := s.core.slot
  c.run.isSome && decide (c.slot.part = me.part) && decide (c.slot.launch = me.launch) && decide (x.dst < c.slot.atiles.toNat) && !c.cutOff

/-- One word of a drain: the sum, and whether it was clamped. -/
def drainWord (old new : Word32) (clamp : Option Word32) : Word32 × Bool :=
  let y := add32 0 0 old new
  let mag := y &&& 0x7FFFFFFF
  match clamp with
  | some k =>
    if !isNan32 k ∧ !isNan32 y ∧ k.toNat < mag.toNat then ((y &&& 0x80000000) ||| k, true) else (y, false)
  | none => (y, false)

/-- A drain added into the receiver's tile. -/
def Cold.addDrain (m : Cold) (x : Drain) : Cold × List Nat :=
  let ws := (List.range 289).map fun e => (e, drainWord (m.accAt x.dst e) (Sp.get 0 x.words e) x.clamp)
  let hits := (ws.filter fun w => w.2.2).map (·.1)
  let tile := m.tileAt x.dst
  ((m.setWords x.dst (ws.map fun w => (w.1, w.2.1))).setTile x.dst { tile with chkv := tile.chkv && x.chkv && hits.isEmpty }, hits)

/-- `DRAIN_ARRIVE` (R215): in cold cycle s + 40 the drain is added or discarded. One that meets an uncorrectable word of the receiver's
tile is discarded, and the error logged there (R336, R412). DESIGN CHOICE (log 24). -/
def execDrainArrive (s : State) : Out :=
  match s.core.drains.find? fun x => decide (x.at_ ≤ s.scnt) with
  | none => .next s
  | some x =>
    let s1 := s.modCore fun c => { c with drains := c.drains.erase x }
    let drop := fun (s : State) => s.modCore fun c => c.notePath 2 fun p => { p with err := true }
    let k := ringNext s.cur
    if !s.takesDrain x then .next (drop s1)
    else match (s.coreAt k).badAcc.find? fun a => decide (a / 512 = x.dst) with
    | some a => .next (drop (s1.onCore k fun t => t.logOwn 5 a))
    | none =>
      let (m, hits) := (s.coreAt k).cold.addDrain x
      let s2 := s1.modCoreAt k fun c => (c.modCold fun _ => m).noteTile x.dst
      match hits with
      | [] => .next s2
      | e :: _ =>
        .next (s2.modCore fun c => c.event s.clock (eventWord 0 x.step x.iter x.dst (e / 17) (e % 17) hits.length x.rpl kindSat))

end Sys2Proof.Machine
end

