-- ==== Sys2Proof/Machine/Temporal.lean ====
section
/-! DEFINITION. The orders of the temporal array and the landing of an evaluation (R294 to R310). -/

namespace Sys2Proof.Machine

/-- One evaluation (R296): ticks of the 64 columns from the input latches. -/
def Cold.evaluate (m : Cold) (ins : List Byte) : List Byte :=
  (List.range 64).map fun j =>
    let on := (List.range 64).filter fun i => !decide (Sp.get 255 m.dly (64 * i + j) = 255)
    let sum := fun (i : Nat) => (ins.getD i 255).toNat + (Sp.get 255 m.dly (64 * i + j)).toNat
    let live := on.filter fun i => !decide (ins.getD i 255 = 255)
    let t :=
      if on.isEmpty then 255
      else if m.tmode.getLsbD j then (if live.length < on.length then 255 else live.foldl (fun t i => max t (sum i)) 0)
      else if live.isEmpty then 255
      else live.foldl (fun t i => min t (sum i)) 1000
    if m.twin ≤ t then 255 else BitVec.ofNat 8 t

/-- The outputs of `n` passes, each fed back to the inputs (R305). -/
def Cold.passes (m : Cold) : Nat → List Byte → List (List Byte)
  | 0, _ => []
  | n + 1, ins => let out := m.evaluate ins; out :: m.passes n out

/-- Sixty-four latches. -/
def latchList (l : Sp Byte) : List Byte := (List.range 64).map fun i => Sp.get 255 l i
def latchSp (l : List Byte) : Sp Byte := (List.range 64).foldl (fun x i => Sp.set 255 x i (l.getD i 255)) []

/-- Start `n` passes on `ins` at this cycle (R297, R305, R307): a running evaluation is abandoned. -/
def State.startEval (s : State) (n : Nat) (ins : List Byte) : State :=
  s.modCore fun c => c.modCold fun m =>
    let span := m.twin + 12
    let outs := m.passes n ins
    { m with tin := latchSp ins,
             eval := some { busyTo := s.scnt + n * span - 1,
                            outs := (List.range n).map fun p => (s.scnt + (p + 1) * span, outs.getD p []) } }

/-- `tnop` (R306). -/
def execTnop (w : BitVec 4) (s : State) : Out := order (.tnop w) s fun s => s

/-- `tdload` (R299): bytes at or beyond CQUOTA read 255. -/
def execTdload (w : BitVec 4) (f c : BitVec 6) (t : BitVec 2) (s : State) : Out :=
  order (.tdload w f c t) s fun s =>
    let x := Sp.get 0 s.core.cold.ts t.toNat
    let a := bits x 6 13 * 64
    let byte := fun (n : Nat) =>
      let p := coldAddr (a + n)
      if p < s.core.slot.cquota.toNat then s.core.cold.read (bits x 19 4) p else 255
    let rows := (List.range (c.toNat + 1)).map fun k => (f.toNat + k, (List.range 64).map fun j => byte (64 * k + j))
    s.land .temporal (c.toNat + 4) 0 [.dly] (.dly rows)

/-- `tmode.or`, `tmode.and` (R300): one column. Configuration orders of L = 1 never overlap each other's landing. -/
def execTmode (w : BitVec 4) (c : BitVec 6) (m : BitVec 1) (s : State) : Out :=
  order (.tmode w c m) s fun s =>
    let one : BitVec 64 := BitVec.ofNat 64 (2 ^ c.toNat)
    let v := s.core.cold.tmode
    s.land .temporal 1 0 [.tmode] (.tmode (if m = 1 then v ||| one else v &&& ~~~one))

/-- `tmode.all.or`, `tmode.all.and` (R300). -/
def execTmodeAll (w : BitVec 4) (m : BitVec 1) (s : State) : Out :=
  order (.tmodeAll w m) s fun s => s.land .temporal 1 0 [.tmode] (.tmode (if m = 1 then 0xFFFFFFFFFFFFFFFF else 0))

/-- `tmode.ts` (R300): ts0 for columns 0 to 31, ts1 for 32 to 63. -/
def execTmodeTs (w : BitVec 4) (s : State) : Out :=
  order (.tmodeTs w) s fun s =>
    let ts := s.core.cold.ts
    s.land .temporal 1 0 [.tmode] (.tmode (BitVec.ofNat 64 ((Sp.get 0 ts 0).toNat + (Sp.get 0 ts 1).toNat * 2 ^ 32)))

/-- `twset` (R301). -/
def execTwset (w : BitVec 4) (n : BitVec 8) (s : State) : Out :=
  order (.twset w n) s fun s => s.land .temporal 1 0 [.twin] (.twin n.toNat)

/-- `tlaunch` (R302): every lane's low byte; the mask stack does not apply. -/
def execTlaunch (w : BitVec 4) (a : BitVec 5) (s : State) : Out :=
  order (.tlaunch w a) s fun s => s.startEval 1 ((List.range 64).map fun i => (s.core.cold.lane a.toNat i).truncate 8)

/-- `TEMPORAL_EVAL_LAND` (R297, R305): the outputs that are due land in OUT; a further pass takes them as its inputs. -/
def execTemporalEvalLand (s : State) : Out :=
  match s.core.cold.eval with
  | none => .next s
  | some x =>
    match x.outs with
    | [] => .next (s.modCore fun c => c.modCold fun m => { m with eval := none })
    | (t, out) :: rest =>
      if t ≤ s.scnt then
        .next (s.modCore fun c => c.modCold fun m =>
          { m with tout := latchSp out, tin := if rest.isEmpty then m.tin else latchSp out,
                   eval := if rest.isEmpty then none else some { x with outs := rest } })
      else .next s

/-- `tcapture` (R303): OUT as it stands, zero-extended, into all lanes. -/
def execTcapture (w : BitVec 4) (d : BitVec 5) (s : State) : Out :=
  order (.tcapture w d) s fun s =>
    s.land .temporal 1 0 [.vreg d.toNat]
      (.vreg d.toNat ((List.range 64).map fun i => (i, (Sp.get 255 s.core.cold.tout i).zeroExtend 32)))

/-- `treset` (R304, R307): a running evaluation is abandoned. -/
def execTreset (w : BitVec 4) (s : State) : Out :=
  order (.treset w) s fun s => (s.modCore fun c => c.modCold fun m => { m with eval := none }).land .temporal 1 0 [] .latches

/-- `trelax` (R305): pass 1 takes OUT as it stands. -/
def execTrelax (w : BitVec 4) (n : BitVec 8) (s : State) : Out :=
  order (.trelax w n) s fun s => s.startEval n.toNat (latchList s.core.cold.tout)

/-- `tflag` (R306). -/
def execTflag (w f : BitVec 4) (v : BitVec 16) (s : State) : Out :=
  order (.tflag w f v) s fun s => s.landFlag .temporal f.toNat v.toNat

end Sys2Proof.Machine
end

