-- ==== Sys2Proof/Machine/Vector.lean ====
section
/-! DEFINITION. The orders of the vector engine (R237 to R258). -/

namespace Sys2Proof.Machine

/-! ## The mask stack (R237, R238) -/

/-- Active lanes, rising. -/
def Cold.lanesOn (m : Cold) : List Nat := (List.range 64).filter fun i => m.top.getLsbD i

/-- Lane bits as a mask. -/
def maskOf (f : Nat → Bool) : BitVec 64 := BitVec.ofNat 64 (flagMask ((List.range 64).filter f))

/-- Push(m). -/
def Cold.pushed (m : Cold) (v : BitVec 64) : LandOp :=
  if m.mdepth < 16 then .mask (Sp.set 0 m.mstk m.mdepth (v &&& m.top)) (m.mdepth + 1)
  else .mask (Sp.set 0 m.mstk 15 (v &&& Sp.get 0 m.mstk 15)) m.mdepth

/-! ## Frames -/

/-- Write the active lanes of vd, `lat` cold cycles later (R237, R243). -/
def State.landLanes (s : State) (d : BitVec 5) (lat : Nat) (f : Nat → Word32) : State :=
  s.land .vector lat 0 [.vreg d.toNat] (.vreg d.toNat (s.core.cold.lanesOn.map fun i => (i, f i)))

/-- Lane i of a register of the current core. -/
def State.vl (s : State) (r : BitVec 5) (i : Nat) : Word32 := s.core.cold.lane r.toNat i

/-- A lane-wise order of two operands. -/
def lane2 (i : Instr) (d a b : BitVec 5) (lat : Nat) (f : Word32 → Word32 → Word32) (s : State) : Out :=
  order i s fun s => s.landLanes d lat fun n => f (s.vl a n) (s.vl b n)

/-- A lane-wise order of one operand. -/
def lane1 (i : Instr) (d a : BitVec 5) (lat : Nat) (f : Word32 → Word32) (s : State) : Out :=
  order i s fun s => s.landLanes d lat fun n => f (s.vl a n)

/-- The random bits of a lane (R49), and the step of every active lane's LFSR under SR (R50). -/
def Cold.rnd (m : Cold) (i : Nat) : Nat := (m.lfsrAt i).toNat % 2 ^ 16
def State.stepLfsr (s : State) (rm : BitVec 3) : State :=
  if rm = 4 then
    s.modCore fun c => c.modCold fun m => { m with lfsr := m.lanesOn.foldl (fun x i => Sp.set (seedLane 0 i) x i (lfsrStep (Sp.get (seedLane 0 i) x i))) m.lfsr }
  else s

/-- A lane-wise order that rounds by RM. -/
def laneRound (i : Instr) (d : BitVec 5) (rm : BitVec 3) (f : State → Nat → Nat → Word32) (s : State) : Out :=
  order i s fun s => (s.landLanes d 1 fun n => f s n (s.core.cold.rnd n)).stepLfsr rm

/-! ## Arithmetic (R248) -/

/-- `vnop` (R90). -/
def execVnop (w : BitVec 4) (s : State) : Out := order (.vnop w) s fun s => s

/-- `vadd`. -/
def execVadd (w : BitVec 4) (d a b : BitVec 5) (m : BitVec 3) (s : State) : Out :=
  laneRound (.vadd w d a b m) d m (fun s n r => add32 m r (s.vl a n) (s.vl b n)) s

/-- `vsub`. -/
def execVsub (w : BitVec 4) (d a b : BitVec 5) (m : BitVec 3) (s : State) : Out :=
  laneRound (.vsub w d a b m) d m (fun s n r => sub32 m r (s.vl a n) (s.vl b n)) s

/-- `vmul`. -/
def execVmul (w : BitVec 4) (d a b : BitVec 5) (m : BitVec 3) (s : State) : Out :=
  laneRound (.vmul w d a b m) d m (fun s n r => mul32 m r (s.vl a n) (s.vl b n)) s

/-- `vfma`: vd is also the addend. -/
def execVfma (w : BitVec 4) (d a b : BitVec 5) (m : BitVec 3) (s : State) : Out :=
  laneRound (.vfma w d a b m) d m (fun s n r => fma32 m r (s.vl a n) (s.vl b n) (s.vl d n)) s

/-- `vmin`. -/
def execVmin (w : BitVec 4) (d a b : BitVec 5) (s : State) : Out := lane2 (.vmin w d a b) d a b 1 min32 s

/-- `vmax`. -/
def execVmax (w : BitVec 4) (d a b : BitVec 5) (s : State) : Out := lane2 (.vmax w d a b) d a b 1 max32 s

/-- `vabs`: a NaN gives the canonical NaN. -/
def execVabs (w : BitVec 4) (d a : BitVec 5) (s : State) : Out :=
  lane1 (.vabs w d a) d a 1 (fun x => if isNan32 x then nan32 else x &&& 0x7FFFFFFF) s

/-- `vneg`. -/
def execVneg (w : BitVec 4) (d a : BitVec 5) (s : State) : Out :=
  lane1 (.vneg w d a) d a 1 (fun x => if isNan32 x then nan32 else x ^^^ 0x80000000) s

/-- A condition of `vcmp` (R95, R239): 0 eq, 1 ne, 2 lt, 3 le, 4 gt, 5 ge, 6 unordered. -/
def laneCond (int : Bool) (c : BitVec 3) (a b : Word32) : Bool :=
  if int then
    match c with
    | 0#3 => decide (a = b)
    | 1#3 => !decide (a = b)
    | 2#3 => a.slt b
    | 3#3 => !b.slt a
    | 4#3 => b.slt a
    | _ => !a.slt b
  else
    let un := isNan32 a || isNan32 b
    match c with
    | 0#3 => eq32 a b
    | 1#3 => !eq32 a b
    | 2#3 => lt32 a b
    | 3#3 => lt32 a b || eq32 a b
    | 4#3 => lt32 b a
    | 5#3 => lt32 b a || eq32 a b
    | _ => un

/-- `vcmp` (R239): pushes the result. -/
def execVcmp (w : BitVec 4) (a b : BitVec 5) (i : BitVec 1) (c : BitVec 3) (s : State) : Out :=
  order (.vcmp w a b i c) s fun s =>
    let m := s.core.cold
    s.land .vector 1 0 [] (m.pushed (maskOf fun n => m.top.getLsbD n && laneCond (decide (i = 1)) c (s.vl a n) (s.vl b n)))

/-- Width of an element format of R22. -/
def fmtWidth (f : Nat) : Nat :=
  match f with
  | 0 | 9 => 32
  | 1 | 2 => 16
  | 5 | 7 => 4
  | _ => 8

/-- A conversion of R249: within one format a NaN becomes canonical and other codes stay as they are. -/
def convert (to_ : Nat) (rm : BitVec 3) (sat : Bool) (rnd from_ code : Nat) : Nat × Nat :=
  let v := decodeElem from_ code
  if to_ = from_ ∧ v ≠ .nan then (code, 0) else encodeElem to_ rm sat rnd v

/-- `vcvt` (R249, R258): one event for the lanes that meet a case of R52. -/
def execVcvt (w : BitVec 4) (d a : BitVec 5) (g : BitVec 4) (x : BitVec 1) (m : BitVec 3) (h : BitVec 4) (s : State) : Out :=
  order (.vcvt w d a g x m h) s fun s =>
    let k := s.core.cold
    let conv := k.lanesOn.map fun n =>
      (n, convert g.toNat m (decide (x = 1)) (k.rnd n) h.toNat ((s.vl a n).toNat % 2 ^ fmtWidth h.toNat))
    let hits := conv.filter fun y => decide (y.2.2 ≠ 0)
    let ev := match hits with
      | (n, _) :: _ => s.orderEvent .vector d.toNat 0 n hits.length (hits.foldl (fun z y => z ||| y.2.2) 0)
      | [] => none
    (s.land .vector 1 0 [.vreg d.toNat] (.vreg d.toNat (conv.map fun y => (y.1, BitVec.ofNat 32 y.2.1))) ev).stepLfsr m

/-! ## Special functions (R68 to R72, R250) -/

/-- `vexp2`. -/
def execVexp2 (w : BitVec 4) (d a : BitVec 5) (s : State) : Out :=
  lane1 (.vexp2 w d a) d a 4 (fun x => round32 0 0 (exp2Val (val32 x))) s

/-- The exact difference of `vexpd`: −∞ − −∞ is −∞ (R69). -/
def expDiff (a b : Val) : Val := if a = .inf true ∧ b = .inf true then .inf true else sumVals 0 [a, b.neg]

/-- `vexpd`. -/
def execVexpd (w : BitVec 4) (d a b : BitVec 5) (s : State) : Out :=
  lane2 (.vexpd w d a b) d a b 4 (fun x y => round32 0 0 (exp2Val (expDiff (val32 x) (val32 y)))) s

/-- `vlog2`. -/
def execVlog2 (w : BitVec 4) (d a : BitVec 5) (s : State) : Out :=
  lane1 (.vlog2 w d a) d a 4 (fun x => round32 0 0 (log2Val (val32 x))) s

/-- `vrcp`. -/
def execVrcp (w : BitVec 4) (d a : BitVec 5) (s : State) : Out :=
  lane1 (.vrcp w d a) d a 4 (fun x => round32 0 0 (rcpVal (val32 x))) s

/-- `vrsq`. -/
def execVrsq (w : BitVec 4) (d a : BitVec 5) (s : State) : Out :=
  lane1 (.vrsq w d a) d a 4 (fun x => round32 0 0 (rsqVal (val32 x))) s

/-! ## Integers and bits (R251) -/

/-- `viadd`. -/
def execViadd (w : BitVec 4) (d a b : BitVec 5) (s : State) : Out := lane2 (.viadd w d a b) d a b 1 (· + ·) s

/-- `visub`. -/
def execVisub (w : BitVec 4) (d a b : BitVec 5) (s : State) : Out := lane2 (.visub w d a b) d a b 1 (· - ·) s

/-- `vimul`. -/
def execVimul (w : BitVec 4) (d a b : BitVec 5) (s : State) : Out := lane2 (.vimul w d a b) d a b 1 (· * ·) s

/-- `vand`. -/
def execVand (w : BitVec 4) (d a b : BitVec 5) (s : State) : Out := lane2 (.vand w d a b) d a b 1 (· &&& ·) s

/-- `vor`. -/
def execVor (w : BitVec 4) (d a b : BitVec 5) (s : State) : Out := lane2 (.vor w d a b) d a b 1 (· ||| ·) s

/-- `vxor`. -/
def execVxor (w : BitVec 4) (d a b : BitVec 5) (s : State) : Out := lane2 (.vxor w d a b) d a b 1 (· ^^^ ·) s

/-- `vshl`. -/
def execVshl (w : BitVec 4) (d a b : BitVec 5) (s : State) : Out :=
  lane2 (.vshl w d a b) d a b 1 (fun x y => x <<< (y.toNat % 32)) s

/-- `vshr`. -/
def execVshr (w : BitVec 4) (d a b : BitVec 5) (s : State) : Out :=
  lane2 (.vshr w d a b) d a b 1 (fun x y => x >>> (y.toNat % 32)) s

/-- `vsar`. -/
def execVsar (w : BitVec 4) (d a b : BitVec 5) (s : State) : Out :=
  lane2 (.vsar w d a b) d a b 1 (fun x y => x.sshiftRight (y.toNat % 32)) s

/-! ## Moves (R252) -/

/-- `vsel`: vd bit 0 selects. -/
def execVsel (w : BitVec 4) (d a b : BitVec 5) (s : State) : Out :=
  order (.vsel w d a b) s fun s => s.landLanes d 1 fun n => if (s.vl d n).getLsbD 0 then s.vl a n else s.vl b n

/-- `vmov`. -/
def execVmov (w : BitVec 4) (d a : BitVec 5) (s : State) : Out := lane1 (.vmov w d a) d a 1 (fun x => x) s

/-- `vbcast`. -/
def execVbcast (w : BitVec 4) (d a : BitVec 5) (n : BitVec 6) (s : State) : Out :=
  order (.vbcast w d a n) s fun s => s.landLanes d 1 fun _ => s.vl a n.toNat

/-- `vperm`. -/
def execVperm (w : BitVec 4) (d a b : BitVec 5) (s : State) : Out :=
  order (.vperm w d a b) s fun s => s.landLanes d 1 fun n => s.vl a ((s.vl b n).toNat % 64)

/-- The 32-bit value a `vparam` code names. -/
def Cold.param (m : Cold) (k : Nat) : Word32 :=
  if k < 32 then let v := Sp.get 0 m.ms (k / 2); if k % 2 = 0 then v.truncate 32 else (v >>> 32).truncate 32
  else if k < 48 then Sp.get 0 m.vs (k - 32) else Sp.get 0 m.ts (k - 48)

/-- `vparam`. -/
def execVparam (w : BitVec 4) (d : BitVec 5) (k : BitVec 7) (s : State) : Out :=
  order (.vparam w d k) s fun s => s.landLanes d 1 fun _ => s.core.cold.param k.toNat

/-! ## Reductions and scans (R59, R241, R253) -/

/-- One level of the fixed tree. -/
def treeLevel (f : Word32 → Word32 → Word32) : List Word32 → List Word32
  | a :: b :: rest => f a b :: treeLevel f rest
  | l => l

/-- The fixed tree over 64 lanes: six levels. -/
def tree (f : Word32 → Word32 → Word32) (l : List Word32) : Word32 :=
  ((List.range 6).foldl (fun x _ => treeLevel f x) l).headD 0

/-- Node, identity and empty value of an operation: 0 sum, 1 max, 2 min. -/
def reduction (int : Bool) (op : BitVec 2) : (Word32 → Word32 → Word32) × Word32 × Word32 :=
  if int then
    match op with
    | 0#2 => ((· + ·), 0, 0)
    | 1#2 => (fun a b => if a.slt b then b else a, 0x80000000, 0x80000000)
    | _ => (fun a b => if b.slt a then b else a, 0x7FFFFFFF, 0x7FFFFFFF)
  else
    match op with
    | 0#2 => (add32 0 0, 0x80000000, 0)
    | 1#2 => (max32, 0xFF800000, 0xFF800000)
    | _ => (min32, 0x7F800000, 0x7F800000)

/-- The value of lane `i` of a reduction or scan. -/
def State.reduceLane (s : State) (scan int seg : Bool) (op : BitVec 2) (a : BitVec 5) (i : Nat) : Word32 :=
  let m := s.core.cold
  let (f, ident, empty) := reduction int op
  let v31 := fun (j : Nat) => m.lane 31 j
  let inSeg := fun (j : Nat) =>
    !seg || (!(v31 i).getLsbD 8 && !(v31 j).getLsbD 8 && decide ((v31 j).toNat % 256 = (v31 i).toNat % 256))
  let use := fun (j : Nat) => inSeg j && m.top.getLsbD j && (!scan || decide (j ≤ i))
  if (List.range 64).any use then tree f ((List.range 64).map fun j => if use j then m.lane a.toNat j else ident) else empty

/-- All 64 lanes of vd. -/
def State.landAllLanes (s : State) (d : BitVec 5) (lat : Nat) (f : Nat → Word32) : State :=
  s.land .vector lat 0 [.vreg d.toNat] (.vreg d.toNat ((List.range 64).map fun i => (i, f i)))

/-- `vred`. -/
def execVred (w : BitVec 4) (d a : BitVec 5) (i g : BitVec 1) (o : BitVec 2) (s : State) : Out :=
  order (.vred w d a i g o) s fun s => s.landAllLanes d 3 (s.reduceLane false (decide (i = 1)) (decide (g = 1)) o a)

/-- `vscan`. -/
def execVscan (w : BitVec 4) (d a : BitVec 5) (i g : BitVec 1) (o : BitVec 2) (s : State) : Out :=
  order (.vscan w d a i g o) s fun s => s.landAllLanes d 3 (s.reduceLane true (decide (i = 1)) (decide (g = 1)) o a)

/-- `vsegid` (R242). -/
def execVsegid (w : BitVec 4) (d a : BitVec 5) (s : State) : Out :=
  order (.vsegid w d a) s fun s => s.landLanes d 2 fun n =>
    let x := s.vl a n
    (s.coldSide (bits x 19 4) (bits x 5 14 * 32)).zeroExtend 32

/-! ## The cold store and the accumulators (R254, R255) -/

/-- `vld`. -/
def execVld (w : BitVec 4) (d : BitVec 5) (n : BitVec 4) (k : BitVec 7) (s : State) : Out :=
  order (.vld w d n k) s fun s =>
    let x := s.core.cold.vrow n.toNat k.toNat (s.iter .vector)
    s.landLanes d 1 fun i => BitVec.ofNat 32 (s.coldNat x.2 (x.1 + 4 * i) 4)

/-- `vst`: INV of every granule that receives a byte becomes 0, its TAG stays. -/
def execVst (w n : BitVec 4) (b : BitVec 5) (k : BitVec 7) (s : State) : Out :=
  order (.vst w n b k) s fun s =>
    let x := s.core.cold.vrow n.toNat k.toNat (s.iter .vector)
    let bytes := s.core.cold.lanesOn.flatMap fun i => s.coldCells x.2 (x.1 + 4 * i) (leBytes 4 (s.vl b i).toNat)
    s.land .vector 1 0 ((s.granules x.2 [(x.1, 256)]).map Res.gran) (.cold bytes (bytes.map fun y => (y.1 / 32, none)))

/-- `vldacc`. -/
def execVldacc (w : BitVec 4) (d : BitVec 5) (q : BitVec 3) (c : BitVec 6) (s : State) : Out :=
  order (.vldacc w d q c) s fun s => s.landLanes d 2 fun i =>
    match quarterWord q.toNat i with
    | some e => s.core.cold.accAt c.toNat e
    | none => 0

/-- `vstacc`. -/
def execVstacc (w : BitVec 4) (q : BitVec 3) (b : BitVec 5) (c : BitVec 6) (e : BitVec 1) (s : State) : Out :=
  order (.vstacc w q b c e) s fun s =>
    let ws := s.core.cold.lanesOn.filterMap fun i => (quarterWord q.toNat i).map fun x => (x, s.vl b i)
    s.land .vector 2 0 [.acc c.toNat] (.vstacc c.toNat (decide (e = 1)) ws)

/-! ## Stack orders (R238, R240) -/

/-- `mpush`. -/
def execMpush (w : BitVec 4) (a : BitVec 5) (s : State) : Out :=
  order (.mpush w a) s fun s => s.land .vector 1 0 [] (s.core.cold.pushed (maskOf fun n => (s.vl a n).getLsbD 0))

/-- `minv`. -/
def execMinv (w : BitVec 4) (s : State) : Out :=
  order (.minv w) s fun s =>
    let m := s.core.cold
    if m.mdepth = 0 then s
    else s.land .vector 1 0 [] (.mask (Sp.set 0 m.mstk (m.mdepth - 1) (~~~m.top &&& m.parent)) m.mdepth)

/-- `mpop`: all 64 lanes of vd. -/
def execMpop (w : BitVec 4) (d : BitVec 5) (s : State) : Out :=
  order (.mpop w d) s fun s =>
    let m := s.core.cold
    let s1 := s.landAllLanes d 1 fun i => if m.top.getLsbD i then 1 else 0
    if m.mdepth = 0 then s1 else s1.land .vector 1 0 [] (.mask m.mstk (m.mdepth - 1))

/-- `mskz` (R240): the next n orders are skipped when no lane is active. -/
def execMskz (w : BitVec 4) (n : BitVec 7) (s : State) : Out :=
  order (.mskz w n) s fun s =>
    if s.core.cold.top = 0 then s.modCore fun c => c.modEngine .vector fun x => { x with skip := n.toNat } else s

/-! ## Loops, flags, waits (R256, R257) -/

/-- `vloop`. -/
def execVloop (w : BitVec 4) (p : BitVec 1) (c : BitVec 12) (l : BitVec 9) (s : State) : Out :=
  order (.vloop w p c l) s fun s => s.startLoop .vector p c.toNat l.toNat

/-- `vflag`. -/
def execVflag (w n : BitVec 4) (v : BitVec 16) (s : State) : Out :=
  order (.vflag w n v) s fun s => s.landFlag .vector n.toNat v.toNat

/-- `vwaits`. -/
def execVwaits (w : BitVec 4) (n : BitVec 16) (s : State) : Out :=
  order (.vwaits w n) s fun s => s.modCore fun c => c.modEngine .vector fun x => { x with fill := x.fill + n.toNat }

end Sys2Proof.Machine
end

