-- ==== Sys2Proof/Machine/Heat.lean ====
section
/-! DEFINITION. Tested entries (R427): what a crossing, `xput`, `xget`, atom or `tload` does once it is admitted, the
validation of an order image (R97, R147), and the start of a heat window (R426, R430, R431). -/

namespace Sys2Proof.Machine

/-! ## Order images (R97) -/

/-- Accumulator tiles an order names, which must lie below ATILES (R30, R208, R247). -/
def tilesOf (i : Instr) : List Nat :=
  match i with
  | .mma _ _ _ _ _ _ _ _ c => [c.toNat]
  | .mscale _ a p _ _ => [a.toNat, p.toNat]
  | .mstore _ a _ _ _ _ | .mzero _ a | .mdrain _ a _ _ | .mchk _ a | .mfix _ a _ _ | .mlda _ a _ _ _ => [a.toNat]
  | .mcopy _ a b => [a.toNat, b.toNat]
  | .ma2s _ h l b => [h.toNat, l.toNat, b.toNat]
  | .vldacc _ _ _ c | .vstacc _ _ _ c _ => [c.toNat]
  | _ => []

/-- The instruction a decoder gives, if it gives one. -/
def decoded (r : Except Reject Instr) : Option Instr :=
  match r with
  | .ok i => some i
  | .error _ => none

/-- The orders of one step of an image in the order of their handles (R90, R91), `none` where one is refused. -/
def imageOrders (e : EngineId) (w : Nat) : List (Option Instr) :=
  let x : Word32 := BitVec.ofNat 32 w
  match e with
  | .matrix => [decoded (decodeX x), decoded (decodeY (BitVec.ofNat 32 (w / 2 ^ 32)))]
  | .vector => [decoded (decodeV x)]
  | .temporal => [decoded (decodeT x)]

/-- Body length of a loop order, and skip count of `mskz`. -/
def loopLen (i : Instr) : Option Nat :=
  match i with
  | .mloop _ _ _ l => some l.toNat
  | .vloop _ _ _ l => some l.toNat
  | _ => none

def skipLen (i : Instr) : Option Nat :=
  match i with
  | .mskz _ n => some n.toNat
  | _ => none

/-- Loop `x` of an image of `n` orders: its body runs past the end, overlaps another without nesting, or it is the fifth
level. Loops are given as the index of the order and the length of the body, which is the steps after the order (R220): a loop order
that ends another body stands outside of it with its own. Of two bodies that overlap both offend, so that the earlier one is the
first. DESIGN CHOICE (log 37). -/
def badLoop (n : Nat) (ls : List (Nat × Nat)) (x : Nat × Nat) : Bool :=
  let inside := fun (y : Nat × Nat) => decide (y.1 < x.1) && decide (x.1 < y.1 + y.2)
  decide (n ≤ x.1 + x.2) ||
  decide (4 ≤ (ls.filter inside).length) ||
  ls.any fun y =>
    (inside y && decide (y.1 + y.2 < x.1 + x.2)) ||
    (decide (x.1 < y.1) && decide (y.1 < x.1 + x.2) && decide (x.1 + x.2 < y.1 + y.2))

/-- A skip run of `mskz` passes the end, or crosses the first or last order of a loop body (R240). -/
def badSkip (n : Nat) (ls : List (Nat × Nat)) (x : Nat × Nat) : Bool :=
  let last := x.1 + x.2
  decide (n ≤ last) || ls.any fun y =>
    decide (x.1 + 1 ≤ y.1 + y.2) && decide (y.1 + 1 ≤ last) &&
    !(decide (x.1 < y.1) && decide (y.1 + y.2 ≤ last)) && !(decide (y.1 ≤ x.1) && decide (last ≤ y.1 + y.2))

/-- The first offending order of an image (R97), as its byte offset, given the steps' bits. -/
def imageFault (e : EngineId) (atiles : Nat) (ws : List Nat) : Option Nat :=
  let n := ws.length
  let os := (List.range n).flatMap fun i => (imageOrders e (ws.getD i 0)).map fun o => (i, o)
  let at_ := fun (f : Instr → Option Nat) => os.filterMap fun x => (x.2.bind f).map fun l => (x.1, l)
  let ls := at_ loopLen
  (os.findIdx? fun x =>
    match x.2 with
    | none => true
    | some o =>
      (tilesOf o).any (fun t => decide (atiles ≤ t)) ||
      (match loopLen o with | some l => badLoop n ls (x.1, l) | none => false) ||
      (match skipLen o with | some k => badSkip n ls (x.1, k) | none => false)).map (4 * ·)

/-- Install an image: END on its last order, cleared on the others (R141). -/
def Cold.install (m : Cold) (e : EngineId) (first : Nat) (ws : List Nat) : Cold :=
  let n := ws.length
  let ends := fun (x : Sp Bool) => (List.range n).foldl (fun x i => Sp.set false x (first + i) (decide (i + 1 = n))) x
  match e with
  | .matrix =>
    { m with omat := (List.range n).foldl (fun x i => Sp.set 0 x (first + i) (BitVec.ofNat 64 (ws.getD i 0))) m.omat, endMat := ends m.endMat }
  | .vector =>
    { m with ovec := (List.range n).foldl (fun x i => Sp.set 0 x (first + i) (BitVec.ofNat 32 (ws.getD i 0))) m.ovec, endVec := ends m.endVec }
  | .temporal =>
    { m with otmp := (List.range n).foldl (fun x i => Sp.set 0 x (first + i) (BitVec.ofNat 32 (ws.getD i 0))) m.otmp, endTmp := ends m.endTmp }

/-- `tload` at the head, admitted (R147): the image is validated whole, then installed. -/
def State.performTload (s : State) (x : QEntry) (e : EngineId) (img : Word) (first count : Nat) (hi : Bool) : State :=
  let b := orderBytes e
  if count = 0 ∨ hi ∨ s.core.granted e < first + count ∨ storeSize e < first + count then s.queueTrap .engine x 0x16 x.word
  else match s.locate s.partNo img (count * b) with
  | none => s.retire .engine x.seq
  | some (_, key) =>
    let lines := ((List.range ((key % 64 + count * b + 63) / 64)).map (key / 64 + ·)).filter fun a => s.badAt (64 * a) 1
    match lines with
    | a :: _ =>
      let s1 := lines.foldl State.meetBad s
      if s1.core.run.isNone ∧ s.core.run.isSome then s1 else s1.queueTrap .engine x 0x1B (word a)
    | [] =>
      let ws := (List.range count).map fun i => leNat (s.bytes (key + b * i) b)
      match imageFault e s.core.slot.atiles.toNat ws with
      | some o => s.queueTrap .engine x 0x16 (img + word o)
      | none =>
        -- what is loaded anew holds no error (R336)
        let at_ := 4096 * engineIdx e + first
        (s.retire .engine x.seq).modCore fun c =>
          { c with badOrd := c.badOrd.filter fun a => !(decide (at_ ≤ a) && decide (a < at_ + count)) }.modCold fun m => m.install e first ws

/-! ## Admission (R427) -/

/-- The charge of an entry that is tested at the head of a queue; `none` for one that is not, killed entries and those a
replay run only compares among them. A `tload` charges 8 HU for a matrix step and 4 HU for another order (R147). DEDUCED (log 36). -/
def State.testedCharge (s : State) (q : QueueId) (e : QEntry) : Option Nat :=
  if e.killed ∨ s.core.replays q e.seq then none
  else match e.op with
  | .crossing n => some (((s.core.xings.find? fun x => decide (x.seq = n)).map (·.charge)).getD 0)
  | .xget _ _ _ => some 4
  | .atom _ _ => some 12
  | .xput code _ => some (if code < 16 then 16 else if code < 36 then 8 else 2)
  | .tload n _ _ count _ => some (count * orderBytes n)
  | _ => none

/-- An admitted crossing: an xin or xinm reads its home and crosses at two bytes a cold cycle behind the earlier ones
(R170), a free part of it in place at a free time before; an xout waits for its stamp (R171). -/
def State.admitCrossing (s : State) (q : QueueId) (e : QEntry) (n : Nat) : State :=
  let (t, s0) := s.draw 4095
  let (u, s1) := s0.draw (16 * t + 15)
  let free := s.core.xings.foldl (fun m x => if x.kind = 2 then m else max m (x.due.getD 0)) (s.clock + 16 * (t + 1))
  (s1.retire q e.seq).modCore fun c =>
    { c with xings := c.xings.map fun (x : Crossing) =>
        if x.seq = n then
          { x with admitted := true, early := if x.kind = 2 then none else some (s.clock + 1 + u),
                   due := if x.kind = 2 then none else some (free + (crossBytes x.shape x.coord (decide (x.mode = 2)) x.rows + 1) / 2) }
        else x }

/-- The accumulator words an atom changes: `a2sum` the same element of the next tile as well (R288). -/
def Atom.words (a : Atom) : List Word := if a.fn = 3 then [a.addr, a.addr + 0x10000] else [a.addr]

/-- An admitted atom: applied at its target later, behind earlier atoms to one of its words (R287, R289). -/
def State.admitAtom (s : State) (e : QEntry) (id : Nat) : State :=
  let (t, s1) := s.draw 1498
  (s1.retire .store e.seq).modCore fun c =>
    let ws := ((c.atoms.find? fun a => decide (a.id = id)).map Atom.words).getD []
    let at_ := c.atoms.foldl (fun m a => if a.words.any ws.contains then max m (a.applyAt.getD 0) else m) (s.clock + 16 * (t + 1))
    { c with atoms := c.atoms.map fun (a : Atom) => if a.id = id then { a with applyAt := some at_ } else a }

/-- An admitted `xput` (R187): the write reaches its register 32 cold cycles later. -/
def State.admitXput (s : State) (e : QEntry) (code : Nat) (v : Word) : State :=
  let eng : EngineId := if code < 16 then .matrix else if code < 32 then .vector else .temporal
  let l : Landing := { at_ := s.clock + Config.engineReach, issued := s.clock, eng := eng, chain := 0, writes := [], op := .param code v }
  (s.retire .engine e.seq).modCore fun c => c.modCold fun m => { m with pend := m.pend ++ [l] }

/-- What an admitted entry does. -/
def State.admitEntry (s : State) (q : QueueId) (e : QEntry) : Out :=
  match e.op with
  | .crossing n => .next (s.admitCrossing q e n)
  | .atom id _ => .next (s.admitAtom e id)
  | .xput code v => .next (s.admitXput e code v)
  | .tload n img first count hi => .next (s.performTload e n img first count hi)
  | .xget _ _ _ => s.performStore e
  | _ => .next s

/-- `CROSSING_ADMIT` (R427): the entry at a queue's head is compared (R405), waits for its engine where it must, passes the
heat test or is held, and is performed. -/
def execCrossingAdmit (q : QueueId) (s : State) : Out :=
  match s.ready q with
  | none => .next s
  | some e =>
    match s.testedCharge q e with
    | none => .next s
    | some charge =>
      let waits := match e.op.waitsFor with
        | some n => !s.core.idle n
        | none => false
      if s.core.willMismatch then .next (s.entryMismatch q e)
      else if waits then .next s
      else
        let (ok, s1) := s.heatTest q e charge
        if ok then s1.admitEntry q e else .next s1

/-! ## Windows -/

/-- Cores of a package the map enables, by key. -/
def Pkg.coreCount (p : Pkg) : Nat := (List.range 256).foldl (fun n i => if p.enable.getLsbD i then n + 1 else n) 0

/-- The package budget of a window for a lift in mW (R431). -/
def packageBudget (lift : Nat) : Nat := 12288000000 * lift / 24000

/-- The cores of a package start a window (R426, R430): HEATACC reads 0 and the budgets written take effect. -/
def Core.newWindow (c : Core) : Core :=
  let n := c.heatNext.getD c.heatSet
  { c with heatAcc := 0, heatBud := n, heatSet := n, heatNext := none }

/-- The budgets of the package's tasks that run, cut to equal shares of what the package has for them where their sum exceeds it (R431).
DESIGN CHOICE (log 39). -/
def State.redistribute (s : State) (p : Nat) : State :=
  let k := s.pkgAt p
  let rs := s.cores.filter fun x => decide (pkgOf x.1 = p) && x.2.run.isSome
  let sum := rs.foldl (fun n x => n + x.2.heatSet) 0
  let avail := packageBudget k.lift - k.excess - 4096 * (k.coreCount - rs.length)
  if sum ≤ avail then s
  else
    { s with cores := s.cores.map fun (x : Nat × Core) =>
        if pkgOf x.1 = p ∧ x.2.run.isSome then (x.1, { x.2 with heatBud := min x.2.heatSet (avail / rs.length) }) else x }

/-- `HEAT_WINDOW` (R426, R430, R431): a new window begins on the current core's package; what the last one posted beyond
the package budget is an excess the next ones repay, and the budgets of the tasks keep within what is left. -/
def execHeatWindow (s : State) : Out :=
  let p := pkgOf s.cur
  let s1 := { s with cores := s.cores.map fun (x : Nat × Core) => if pkgOf x.1 = p then (x.1, x.2.newWindow) else x }
  .next ((s1.modPkgAt p fun k =>
    { k with excess := (k.excess + k.posted + 4096 * k.coreCount) - packageBudget k.lift, posted := 0 }).redistribute p)

end Sys2Proof.Machine
end

