-- ==== Sys2Proof/Machine/Swap.lean ====
section
/-! DEFINITION. Trap entry as a step of its own (R385, R390), pre-emption from request to resumption (R399 to R401), the
start of a task (R37, R38, R369) and rotation (R455, R456). -/

namespace Sys2Proof.Machine

/-! ## Trap entry -/

/-- The queue TCAUSE.UNIT names (R383). -/
def queueOf (unit : Nat) : QueueId :=
  match unit with
  | 0 => .load
  | 1 => .store
  | 2 => .engine
  | _ => .string

def laneOf (unit : Nat) : Lane := lanes.getD unit .L

def engineAt (unit : Nat) : EngineId := engines.getD unit .temporal

/-- The faulting entry of a queue-class fault: the head entry whose word TADDR names, or, for a MEMERR, the head. DEDUCED (log 31). -/
def Core.faultingEntry (c : Core) (q : QueueId) (code : Nat) (addr : Word) : Option QEntry :=
  (c.headOf q).filter fun e => decide (e.word = addr) || decide (code = 0x1B) || decide (code = 0x16)

/-- `TRAP_ENTRY` (R385, R390): a fault with this TCAUSE and TADDR reaches the current core. A queue-class fault removes its
entry unperformed. DEDUCED (log 31). DEDUCED (log 49). -/
def execTrapEntry (cause : BitVec 16) (addr : BitVec 64) (s : State) : Out :=
  let unit := bits cause 12 2
  let code := bits cause 0 8
  if s.core.run.isNone then .next s
  else match bits cause 14 2 with
  | 0 =>
    let s1 := { s with lane := laneOf unit }
    .next (s1.takeTrap cause.toNat addr (s1.wordAt s1.wordHandle).toNat)
  | 1 =>
    match s.core.faultingEntry (queueOf unit) code addr with
    | some e => .next ((s.dropEntry (queueOf unit) e).takeTrap cause.toNat addr (s.wordAt e.word).toNat)
    | none => .next (s.takeTrap cause.toNat addr (s.wordAt addr).toNat)
  | 2 =>
    let e := engineAt unit
    .next (s.takeTrap cause.toNat addr (s.core.cold.orderWord e (s.core.engine e).step))
  | _ => .next (s.takeTrap cause.toNat addr 0)

/-! ## Launches -/

/-- A field of a launch record (R363). -/
def recField (r : BitVec 1024) (off bytes : Nat) : Nat := bits r (8 * off) (8 * bytes)

def Launch.bscope (l : Launch) : Nat := recField l.record 0x1F 1
def Launch.stamp (l : Launch) : Nat := recField l.record 0x44 4
def Launch.graph (l : Launch) : Nat := recField l.record 0x3C 4
def Launch.node (l : Launch) : Nat := recField l.record 0x40 4
def Launch.prio (l : Launch) : Nat := recField l.record 0x1E 1 % 16

def Part.launch (p : Part) (id : Nat) : Option Launch := p.launches.find? fun l => decide (l.id = id)

def State.modLaunch (s : State) (part id : Nat) (f : Launch → Launch) : State :=
  s.modPartAt part fun p => { p with launches := p.launches.map fun l => if l.id = id then f l else l }

/-- The launch of a slot. -/
def State.launchOf (s : State) (sl : Slot) : Option Launch := (s.partAt sl.part).launch sl.launch

/-- A launch with BSCOPE 1 or higher is a gang (R371). -/
def State.isGang (s : State) (sl : Slot) : Bool :=
  match s.launchOf sl with
  | some l => decide (1 ≤ l.bscope)
  | none => false

/-- The slots of a launch, copies (R368) apart. -/
def State.slotsOf (s : State) (part launch : Nat) : List (Nat × BitVec 1 × Slot) :=
  s.cores.flatMap fun x =>
    ([0, 1] : List (BitVec 1)).filterMap fun i =>
      let sl := x.2.slotAt i
      if sl.state ≠ .empty ∧ !sl.copy ∧ sl.part = part ∧ sl.launch = launch then some (x.1, i, sl) else none

/-! ## The request (R399) -/

/-- A pre-emption or rotation request reaches a core: it stands from now, and a `wfi` wakes (R156). -/
def Core.request (c : Core) (warm : Nat) (rotation : Bool) : Core :=
  if c.run.isNone then c
  else
    let c1 : Core := { c with preempt := some (c.preempt.getD warm), rotReq := c.rotReq || rotation,
                              late := if c.preempt.isSome then c.late else c.inHandler || c.replay.isSome }
    c1.wake

/-- Post a request to a core, and to every core of its gang (R371). -/
def State.request (s : State) (k : Nat) (rotation : Bool) : State :=
  let sl := (s.coreAt k).slot
  if (s.coreAt k).run.isNone then s
  else if s.isGang sl then
    { s with cores := s.cores.map fun (x : Nat × Core) =>
        if x.2.slot.part = sl.part ∧ x.2.slot.launch = sl.launch then (x.1, x.2.request s.warm rotation) else x }
  else s.modCoreAt k fun c => c.request s.warm rotation

/-- `PREEMPTION_REQUEST` (R399): posted for the current core. -/
def execPreemptionRequest (rotation : Bool) (s : State) : Out := .next (s.request s.cur rotation)

/-! ## The stop point (R399, R400) -/

/-- A pending request has brought the core to its stop point, where it has yet to drain. -/
def Core.stopReached (c : Core) : Bool := c.run.isSome && c.stopping && !c.drained && c.atStop

/-- `STOP_POINT` (R400, R407): the window closes; once the queues, the string and the engines are through, dirty lines go
home and both L1 caches are dropped. DEDUCED (log 17). -/
def execStopPoint (s : State) : Out :=
  if !s.core.stopReached then .next s
  else
    let s1 := s.modCore fun c => { c with win := none }
    if !s1.core.drained_ then .next s1
    else .next ((s1.cleanLines s.warm fun _ => true).modCore fun c => { c with l1d := [], l1i := [], drained := true })

/-! ## Context save (R401) -/

/-- String flags of the saved context: HALT, AVAIL, HSET. -/
def Str.flags (t : Str) : Nat := (if t.halt then 1 else 0) + (if t.avail then 2 else 0) + (if t.hset then 4 else 0)

/-- Write bytes into a context slot, and read them back. -/
def Slot.setArea (sl : Slot) (off : Nat) (bs : List Byte) : Slot :=
  { sl with area := (List.range bs.length).foldl (fun m i => Sp.set 0 m (off + i) (bs.getD i 0)) sl.area }

def Slot.areaNat (sl : Slot) (off n : Nat) : Nat := leNat ((List.range n).map fun i => Sp.get 0 sl.area (off + i))

/-- The warm context as R401 lays it out in the running slot. DESIGN CHOICE (log 18). -/
def Core.saveContext (c : Core) (window : Nat) : Core :=
  let put := fun (x : Slot) (off : Nat) (vs : List Word) => x.setArea off (vs.flatMap fun v => leBytes 8 v.toNat)
  let c1 := lanes.foldl (fun x l => x.setArea (0x400 * laneIdx l) ({ c.cluster l with loops := [] }.save {} {})) { c.slot with area := [] }
  let c2 := (List.range 16).foldl (fun x i => x.setArea (0x1000 + 128 * i) (leBytes 128 (Sp.get 0 c.shp i).toNat)) c1
  let c3 := put (put c2 0x1800 c.oeq) 0x1A00 (c.shares.map word)
  let c4 := put c3 0x1C00
    [c.oeqstat, c.mcmask, c.rstlbl, c.rstidx, c.stallCnt, c.tscratch, word c.heatBud, c.inj]
  let c5 := put c4 0x1C40
    [c.str.head, c.str.tail, c.str.seq, word (c.str.carry.toNat + c.str.stat.toNat * 2 ^ 32 + c.str.flags * 2 ^ 40)]
  let c6 := put c5 0x1C80 ((List.range 5).map (fun k => word (Sp.get 0 c.barCount k)) ++ [word c.xseq, word c.heatCeil])
  c.modSlot fun _ =>
    { c6 with kept := { tvec := c.tvec, chksb := c.chksb, stallim := c.stallim, paths := c.paths, xcan := c.xcan, xkinds := c.xkinds,
                        takes := c.str.takes, past := c.str.past, haltNo := c.str.haltNo, carryNo := c.str.carryNo, sum := c.str.sum,
                        sumNo := c.str.sumNo, puts := c.str.puts, barGot := c.barGot, lq := c.lqIssued, sq := c.sqIssued, eq := c.eqIssued,
                        heatSet := c.heatSet, heatNext := c.heatNext.map fun v => (v, window), mirror := c.mirror } }

/-- Save the drained context of core `k` into its slot; cold state is discarded (R26). A later restore is through within 2,000 warm
cycles (R379, R401). -/
def State.saveCore (s : State) (k : Nat) : State :=
  match (s.coreAt k).run with
  | some i =>
    let (t, s0) := s.draw 31999
    s0.checked k i fun s0 => s0.modCoreAt k fun c =>
      { (c.saveContext (s.windowOf k)).clearTask with swapAt := s.clock + 1 + t, clearAt := s.clock + 1 + t % 256 }.modSlotAt i fun sl => { sl with state := .saved }
  | none => s

/-- `CONTEXT_SAVE` (R380, R400, R401): the drained context goes into its slot, whole; a gang is saved together, once every member that
runs has drained, so that none is RUNNING while another is SAVED (R371). DEDUCED (log 17). -/
def execContextSave (s : State) : Out :=
  match s.core.run with
  | some _ =>
    let sl := s.core.slot
    if !s.core.drained then .next s
    else if !s.isGang sl then .next (s.saveCore s.cur)
    else
      let ks := (s.slotsOf sl.part sl.launch).filterMap fun x => if (s.coreAt x.1).run = some x.2.1 then some x.1 else none
      if ks.all fun k => (s.coreAt k).drained then .next (ks.foldl State.saveCore s) else .next s
  | none => .next s

/-! ## Context restore (R401) -/

/-- The cold state of a task at its start or resumption: reset, with seeded LFSRs (R25, R51). -/
def freshCold (coreId : Nat) : Cold := { lfsr := seedLanes (BitVec.ofNat 32 (coreId * 0x85EBCA6B)) }

/-- The context in slot `i`, resumed: every cluster JOINED at RSTLBL, warm state as saved, cold state fresh. A budget written in
the heat window of the save is in force from the next one (R430). DESIGN CHOICE (log 18). -/
def Core.loadContext (c : Core) (i : BitVec 1) (warm window : Nat) : Core :=
  let c0 := { c.clearTask with run := some i }
  let w := fun (off : Nat) => word (c0.slot.areaNat off 8)
  let n := fun (off : Nat) => c0.slot.areaNat off 8
  let st := n 0x1C58
  let k := c0.slot.kept
  let str : Str := { head := w 0x1C40, tail := w 0x1C48, seq := w 0x1C50, carry := BitVec.ofNat 32 st, stat := BitVec.ofNat 7 (st / 2 ^ 32),
                     halt := decide (st / 2 ^ 40 % 2 = 1), avail := decide (st / 2 ^ 41 % 2 = 1), hset := decide (st / 2 ^ 42 % 2 = 1),
                     takes := k.takes, past := k.past, haltNo := k.haltNo, carryNo := k.carryNo, sum := k.sum, sumNo := k.sumNo,
                     puts := k.puts }
  let c1 := { c0 with
    shp := (List.range 16).foldl (fun m j => Sp.set 0 m j (BitVec.ofNat 1024 (c0.slot.areaNat (0x1000 + 128 * j) 128))) [],
    oeq := (List.range (n 0x1C00 % 128)).map fun j => w (0x1800 + 8 * j),
    oeqLost := decide (n 0x1C00 / 2 ^ 31 % 2 = 1),
    shares := ((List.range 64).map fun j => n (0x1A00 + 8 * j)).filter fun h => decide (h ≠ 0),
    mcmask := w 0x1C08, rstlbl := w 0x1C10, rstidx := w 0x1C18, stallCnt := w 0x1C20, tscratch := w 0x1C28, inj := w 0x1C38,
    heatBud := (match k.heatNext with | some (v, w) => if w < window then v else n 0x1C30 | none => n 0x1C30), heatCeil := n 0x1CB0,
    heatSet := (match k.heatNext with | some (v, w) => if w < window then v else k.heatSet | none => k.heatSet),
    heatNext := k.heatNext.bind fun x => if x.2 < window then none else some x.1, mirror := k.mirror,
    barCount := (List.range 5).foldl (fun m j => Sp.set 0 m j (n (0x1C80 + 8 * j))) [], xseq := n 0x1CA8, str := str,
    tvec := k.tvec, chksb := k.chksb, stallim := k.stallim, paths := k.paths, xcan := k.xcan, xkinds := k.xkinds, barGot := k.barGot,
    lqIssued := k.lq, sqIssued := k.sq, eqIssued := k.eq, lqDone := k.lq, sqDone := k.sq, eqDone := k.eq,
    cold := freshCold c0.slot.coreId.toNat }
  let c2 := c1.modClusters fun l _ =>
    readRegs c0.slot.areaNat (0x400 * laneIdx l) { pc := c1.rstlbl, readyAt := warm + 1 }
  c2.modSlotAt i fun sl => { sl with state := .running }

/-- The saved slot of a core that would resume: none while a task runs or a slot of higher priority is bound (R377). -/
def Core.resumable (c : Core) : Option (BitVec 1) :=
  let saved := fun (sl : Slot) => decide (sl.state = .saved) && !sl.copy
  let first := fun (me other : Slot) =>
    saved me && !(decide (other.state = .bound) && decide (me.prio < other.prio)) && !(saved other && decide (me.prio < other.prio))
  if c.run.isSome ∨ c.failed then none
  else if first c.slot0 c.slot1 then some 0
  else if first c.slot1 c.slot0 then some 1
  else none

/-! ## The ring of a partition on a die (R455) -/

/-- The physical cores a partition has on a package, and those of them enabled. -/
def State.partCores (s : State) (part pkg : Nat) : BitVec 256 :=
  Sp.get (BitVec.allOnes 256) (s.partAt part).cores pkg &&& (s.pkgAt pkg).enable

/-- The quads of a die whose four cores are a partition's and enabled, in physical order; the dies of the pod count on. -/
def State.ring (s : State) (part d : Nat) : List Nat :=
  let m := s.partCores part (d / 4)
  (List.range 16).filter fun q => (List.range 4).all fun c => m.getLsbD (64 * (d % 4) + 4 * q + c) && !(s.coreAt (64 * d + 4 * q + c)).failed

/-- The core keys of a ring. -/
def ringCores (d : Nat) (qs : List Nat) : List Nat := qs.flatMap fun q => (List.range 4).map fun c => 64 * d + 4 * q + c

/-- No binding on a package above 4.8 K, and none in a ring that drains for a rotation (R456, R457). -/
def State.closed (s : State) (k : Nat) : Bool :=
  (s.pkgAt (pkgOf k)).hot || (s.dieAt (dieOf k)).rotating.any fun p => (ringCores (dieOf k) (s.ring p (dieOf k))).contains k

/-- The mirror writes of a context that its partners have acknowledged while it stood saved are no longer awaited (R418). -/
def State.settleMirror (s : State) (k : Nat) : State :=
  s.modCoreAt k fun c => { c with mirror := c.mirror.filter fun m => (s.pkgAt m.pkg).failed || decide (s.warm < m.warm + 2999) }

/-- Resume slot `i` of core `k`; a label its restart table does not name ends the task (R398). -/
def State.resume (s : State) (k : Nat) (i : BitVec 1) : State :=
  s.checked k i fun s => ((s.modCoreAt k fun c => c.loadContext i s.warm (s.windowOf k)).settleMirror k).onCore k State.restartOrEnd

/-- `CONTEXT_RESTORE` (R377, R401): the core's saved context resumes; a gang resumes together, once every member can
(R371). -/
def execContextRestore (s : State) : Out :=
  match s.core.resumable with
  | none => .next s
  | some i =>
    let sl := s.core.slotAt i
    if s.closed s.cur ∨ s.clock < s.core.swapAt then .next s
    else if !s.isGang sl then .next (s.resume s.cur i)
    else
      let live := (s.slotsOf sl.part sl.launch).filter fun x => x.2.2.live
      let can := fun (x : Nat × BitVec 1 × Slot) =>
        decide (x.2.2.state = .bound) || (decide ((s.coreAt x.1).resumable = some x.2.1) && !s.closed x.1 && decide ((s.coreAt x.1).swapAt ≤ s.clock))
      if live.all can then
        .next ((live.filter fun x => decide (x.2.2.state = .saved)).foldl (fun s x => s.resume x.1 x.2.1) s)
      else .next s

/-! ## Task start (R369) -/

/-- SCNT has reached START, compared modulo 2^32 from the origin it counts from. DESIGN CHOICE (log 19). -/
def startReached (sl : Slot) (scnt : Nat) : Bool :=
  decide (sl.start = 0xFFFFFFFF) || decide ((sl.start - BitVec.ofNat 32 sl.origin).toNat ≤ scnt - sl.origin)

/-- The core of a task that begins (R25, R37, R38): its first fetch comes within the bind time (R369). -/
def Core.begin (c : Core) (i : BitVec 1) (quadCore warm : Nat) (ceilZero : Bool) : Core :=
  let c0 := { c.clearTask with run := some i }
  let sl := c0.slot
  let c1 := { c0 with
    mcmask := word (2 ^ quadCore), heatBud := 48000000, heatCeil := if ceilZero then 0 else 48000000,
    heatNext := if ceilZero then some 0 else none, cold := freshCold sl.coreId.toNat }
  let start : Cluster :=
    ((((({ pc := sl.code, readyAt := max warm (sl.ready / Config.coldPerWarm) } : Cluster).wg 1 sl.arg).wg 2 (word sl.taskId.toNat)).wg 3 (word sl.gcount.toNat)).wg 4 sl.payload)
  (c1.modClusters fun _ _ => start).modSlotAt i fun x => { x with state := .running, area := [], kept := {} }

/-- A predecessor list of a launch record (R363). -/
def predsOf (r : BitVec 1024) : List Nat :=
  ((List.range 4).map fun i => recField r (0x50 + 4 * i) 4).filter fun p => decide (p ≠ 0xFFFFFFFF)

/-- The node `n` of a graph defined in a package. -/
def Part.nodeOf (p : Part) (pkg graph n : Nat) : Option GraphNode :=
  p.nodes.find? fun x => decide (x.pkg = pkg) && decide (x.graph.toNat = graph) && decide (x.node.toNat = n)

/-- How a predecessor stands in replay `r`: its STATUS once it has ended. -/
def GraphNode.endIn (n : GraphNode) (r : Nat) : Option (BitVec 8) := (n.ends.find? fun x => decide (x.1 = r)).map (·.2)

/-- What a node's predecessors allow (R375): go; KILLED; DEPF for a node with a stamp; or wait. -/
inductive Gate where
  | go | killed | depf | wait
  deriving DecidableEq, Repr

def State.gate (s : State) (part : Nat) (l : Launch) : Gate :=
  let p := s.partAt part
  let stamped := decide (l.stamp ≠ 0xFFFFFFFF)
  let preds := predsOf l.record |>.map fun n => p.nodeOf l.pkg l.graph n
  let ends := preds.map fun x => x.bind fun n => n.endIn l.replay
  let allEnded := ends.all fun x => x.isSome
  let bad := ends.any fun x => x.isSome && decide (x ≠ some 0)
  let ready := preds.all fun x => match x with | some n => decide (l.replay ≤ n.nseq) | none => false
  if !stamped ∧ !allEnded then .wait
  else if bad then .killed
  else if ready then .go
  else if stamped then .depf
  else .killed

/-- A pod-scope node is bound on each package of its node at the same replay, or has been, and has ended there (R371). -/
def State.nodeBound (s : State) (part : Nat) (l : Launch) : Bool :=
  let p := s.partAt part
  !decide (l.bscope = 4) || p.nodes.all fun n =>
    !(decide (n.graph.toNat = l.graph) && decide (n.node.toNat = l.node)) ||
    (n.endIn l.replay).isSome || p.launches.any fun x => decide (x.pkg = n.pkg) && decide (x.graph = l.graph) && decide (x.node = l.node) &&
      decide (x.replay = l.replay) && decide (x.state = .bound)

/-- End every task of a launch that has not ended, one way or the other (R370): running tasks write their dirty lines home
(R19), spans are settled (R281). DEDUCED (log 30). -/
def State.endSlot (s : State) (x : Nat × BitVec 1 × Slot) (status : BitVec 8) (cause : BitVec 16) : State :=
  if !x.2.2.live then s else s.endWritten x.1 x.2.1 status cause

def State.endLaunch (s : State) (part launch : Nat) (status : BitVec 8) (cause : BitVec 16) : State :=
  (s.slotsOf part launch).foldl (fun s x => s.endSlot x status cause) s

/-- Apply what a node's predecessors allow: it is released, or completes on every die without running (R375). -/
def State.applyGate (s : State) (part : Nat) (l : Launch) : State :=
  match s.gate part l with
  | .go => s.modLaunch part l.id fun x => { x with held := false }
  | .killed => s.endLaunch part l.id 3 0
  | .depf => s.endLaunch part l.id 2 0x001F
  | .wait => s

/-- Members of a gang that stand SAVED keep it from starting (R371). -/
def State.gangSaved (s : State) (sl : Slot) : Bool :=
  s.isGang sl && (s.slotsOf sl.part sl.launch).any fun x => decide (x.2.2.state = .saved)

/-- The core lets the task in slot `i` begin (R369, R377, R456): it runs none, its cold store is clear, and no task of the same or a
higher priority stands SAVED on it. -/
def State.admits (s : State) (i : BitVec 1) : Bool :=
  let sl := s.core.slotAt i
  let other := s.core.slotAt (1 - i)
  s.core.run.isNone && !s.core.failed && !s.closed s.cur && decide (s.core.clearAt ≤ s.clock) &&
    !(decide (other.state = .saved) && !other.copy && decide (sl.prio ≤ other.prio))

/-- `TASK_START` (R369): slot `i` of the current core becomes RUNNING once START and the core allow. A record whose CRC fails is
treated as EMPTY and logged. A graph node with a stamp is checked at its START, or at its bind where that is later, whether or not
the core could run it (R375). -/
def execTaskStart (i : BitVec 1) (s : State) : Out :=
  let sl := s.core.slotAt i
  if sl.state ≠ .bound ∨ !startReached sl s.scnt then .next s
  else
    let run := fun (s : State) =>
      if s.admits i then
        s.checked s.cur i fun s => s.modCore fun c => c.begin i (s.cur % 4) s.warm (s.pkgAt (pkgOf s.cur)).ceilZero
      else s
    match s.launchOf sl with
    | none => .next (run s)
    | some l =>
      if s.gangSaved sl ∨ !s.nodeBound sl.part l ∨ (l.held ∧ l.stamp = 0xFFFFFFFF) then .next s
      else if !l.held then .next (run s)
      else
        let s1 := s.applyGate sl.part l
        if (s1.core.slotAt i).state = .bound then .next (run s1) else .next s1

/-- `GRAPH_NODE_RELEASE` (R375): a node with no stamp runs, or completes KILLED, once every predecessor has ended. -/
def execGraphNodeRelease (part launch : Nat) (s : State) : Out :=
  match (s.partAt part).launch launch with
  | none => .next s
  | some l => if l.held ∧ l.state = .bound ∧ l.stamp = 0xFFFFFFFF then .next (s.applyGate part l) else .next s

/-! ## Rotation (R455, R456) -/

/-- The partitions with a task on a die, once each. -/
def State.partsOn (s : State) (die : Nat) : List Nat :=
  (s.cores.flatMap fun x => if dieOf x.1 = die then
    [x.2.slot0, x.2.slot1].filterMap fun sl => if sl.state ≠ .empty then some sl.part else none else []).eraseDups

/-- The partitions whose rings on die `d` rotate: those of at least two quads. Slots move with their quad, so that of rings that share
quads the first one's rotation is that of all (R455). DESIGN CHOICE (log 19). -/
def State.rotates (s : State) (d : Nat) : List Nat :=
  ((s.partsOn d).foldl (fun (r : List Nat × List Nat) p =>
    let qs := s.ring p d
    if qs.length < 2 ∨ qs.any r.2.contains then r else (r.1 ++ [p], r.2 ++ qs)) ([], [])).1

/-- `ROTATION` (R455, R456): requests go to every RUNNING core of each partition's ring on the die; a ring of fewer than two
quads does not rotate, nor any while the stage is above 4.8 K (R458). -/
def execRotation (pkg : BitVec 10) (die : BitVec 2) (s : State) : Out :=
  let d := pkg.toNat * 4 + die.toNat
  if Config.packages ≤ pkg.toNat ∨ (s.pkgAt pkg.toNat).hot then .next s
  else
    let ps := s.rotates d
    let ks := ps.flatMap fun p => ringCores d (s.ring p d)
    .next (ks.foldl (fun s k => s.request k true) (s.modDieAt d fun x => { x with rotating := (x.rotating ++ ps).eraseDups }))

/-- What moves with a quad: both context slots and the reservation of R366. -/
def Core.takeContexts (c : Core) (other : Core) : Core :=
  { c with slot0 := other.slot0, slot1 := other.slot1, reserved := other.reserved }

/-- Contexts of a ring rebound one quad onward, the last quad's to the first, each at its core-in-quad index. -/
def State.rebind (s : State) (part d : Nat) : State :=
  let r := s.ring part d
  if r.length < 2 then s
  else
    let ks := ringCores d r
    let n := ks.length
    (List.range n).foldl (fun t i =>
      t.modCoreAt (ks.getD i 0) fun c => c.takeContexts (s.coreAt (ks.getD ((i + n - 4) % n) 0))) s

/-- `ROTATION_REBIND` (R456): once no core of a ring runs a task, its contexts move; none while the stage is above 4.8 K (R457, R458). -/
def execRotationRebind (pkg : BitVec 10) (die : BitVec 2) (s : State) : Out :=
  let d := pkg.toNat * 4 + die.toNat
  if Config.packages ≤ pkg.toNat ∨ (s.pkgAt pkg.toNat).hot then .next s
  else
    let due := (s.dieAt d).rotating.filter fun p => (ringCores d (s.ring p d)).all fun k => (s.coreAt k).run.isNone
    .next (due.foldl (fun s p => (s.rebind p d).modDieAt d fun x => { x with rotating := x.rotating.erase p }) s)

end Sys2Proof.Machine
end

