-- ==== Sys2Proof/Machine/Sched.lean ====
section
/-! DEFINITION. The work of the management cores on launches (R361 to R376): queues, admission, grants, binding,
completion, graphs, and launches that a message triggers (R372, R373, R446, R464). -/

namespace Sys2Proof.Machine

/-! ## Records in memory -/

/-- `n` bytes at a handle of a partition as a number, read at their home; 0 where the handle is out of range. -/
def State.readAt (s : State) (part : Nat) (h : Word) (n : Nat) : Nat :=
  match s.locate part h n with
  | some (_, key) => leNat (s.bytes key n)
  | none => 0

/-- Write bytes at a handle of a partition at their home and mirror. -/
def State.writeAt (s : State) (part : Nat) (h : Word) (bs : List Byte) : State :=
  match s.locate part h bs.length with
  | some (_, key) => s.partBytes part key bs
  | none => s

/-- The CRC-32 of `n` bytes from offset `lo` of a record equals the one stored at `at_`. -/
def crcAt (v lo n at_ : Nat) : Bool := decide ((crc32 (leBytes n (v / 2 ^ (8 * lo)))).toNat = v / 2 ^ (8 * at_) % 2 ^ 32)

/-- A control structure whose CRC fails, logged in a package's I/O die (R411): its handle, and the CRC found. -/
def State.logStructure (s : State) (pkg : Nat) (h : Word) (crc : Nat) : State :=
  s.logIo pkg { source := 8, uncorrectable := true, addr := h, phys := 0xFF, owner := 0, syndrome := word crc }

/-! ## Completion (R362) -/

/-- The bytes of a completion record. -/
def completionBytes (lid status cause ngrant replay node : Nat) : List Byte :=
  let body := leBytes 4 lid ++ leBytes 1 status ++ leBytes 1 0 ++ leBytes 2 cause ++ leBytes 2 ngrant ++ leBytes 6 0 ++
    leBytes 8 replay ++ leBytes 4 node
  body ++ leBytes 4 (crc32 body).toNat

/-- Write a completion record into slot CDONE mod NSLOT of a queue's ring, then count it. -/
def State.complete (s : State) (part queue : Nat) (bs : List Byte) : State :=
  let h := (Sp.get { h := 0, pkg := 0, stopped := false } (s.partAt part).queues queue).h
  let m := s.readAt part (h + 0x28) 8
  let nslot := s.readAt part (h + 0x10) 4
  let cring := word (s.readAt part (h + 0x20) 8)
  if nslot = 0 then s
  else (s.writeAt part (cring + word (32 * (m % nslot))) bs).writeAt part (h + 0x28) (leBytes 8 (m + 1))

/-! ## Launch arm entries (R372) -/

def armField (v : BitVec 256) (off bytes : Nat) : Nat := bits v (8 * off) (8 * bytes)

/-- An entry with one field changed and its CRC made anew. -/
def setArm (v : BitVec 256) (off bytes x : Nat) : BitVec 256 :=
  let body := v.toNat % 2 ^ 224
  let body := body - body / 2 ^ (8 * off) % 2 ^ (8 * bytes) * 2 ^ (8 * off) + x % 2 ^ (8 * bytes) * 2 ^ (8 * off)
  BitVec.ofNat 256 (body + (crc32 (leBytes 28 body)).toNat * 2 ^ 224)

def armCrcOk (v : BitVec 256) : Bool := crcAt v.toNat 0 28 28
def armValid (v : BitVec 256) : Bool := decide (armField v 2 1 % 2 = 1)

/-- A payload slot of the entry is free again (R373). -/
def State.freePayload (s : State) (arm : Option (Nat × Nat)) : State :=
  match arm with
  | some (pkg, e) =>
    s.modPkgAt pkg fun p => let v := Sp.get 0 p.arms e; { p with arms := Sp.put p.arms e (setArm v 0x19 1 (armField v 0x19 1 - 1)) }
  | none => s

/-! ## Grants (R364, R366, R367) -/

/-- The grant list of a record: handle, core, reserved bits, for each entry; `none` where it cannot be read or N exceeds
256. -/
def State.grantList (s : State) (part : Nat) (r : BitVec 1024) : Option (List (Word × Nat × Nat)) :=
  let h := word (recField r 0x64 8)
  if h = 0 then some []
  else
    let n := s.readAt part h 8
    if h.toNat % 16 ≠ 0 ∨ 256 < n ∨ (s.locate part h (8 + 16 * n)).isNone then none
    else some ((List.range n).map fun i =>
      let a := h + word (8 + 16 * i)
      (word (s.readAt part a 8), s.readAt part (a + 8) 2, s.readAt part (a + 10) 6))

/-- The span a handle of a partition lies in, by its head, if the region is RW (R267). -/
def State.spanAt (s : State) (part : Nat) (h : Word) : Option Nat :=
  match s.locate part h 1 with
  | some (r, _) => if r.rw then some ((s.partAt part).headOf (unitOf r h)).1 else none
  | none => none

/-- The spans that launches still waiting for cores have listed: nothing else takes them between the check and the move (R364). -/
def Part.listed (p : Part) : List Nat := p.launches.flatMap fun l => if l.state = .waiting then l.grants.map (·.1) else []

/-- The grant list breaks no clause of R364: the spans to move, with their receiving tasks. A span that a waiting launch has listed is no
longer free. -/
def State.grantsOk (s : State) (part : Nat) (r : BitVec 1024) : Option (List (Nat × Nat)) :=
  match s.grantList part r with
  | none => none
  | some es =>
    let taken := (s.partAt part).listed
    let spans := es.map fun x => s.spanAt part x.1
    let ok := es.all (fun x => decide (x.2.1 < recField r 0x28 2) && decide (x.2.2 = 0)) && decide spans.Nodup &&
      spans.all fun x => match x with
        | some h => decide (((s.partAt part).token h).mode = .parked) && !taken.contains h
        | none => false
    if ok then some ((List.range es.length).map fun i => ((spans.getD i none).getD 0, ((es.map fun x => x.2.1).getD i 0))) else none

/-- A core of the partition is free for a launch that takes this many slots (R366): enabled, its slots EMPTY, reserved to no
other launch. DESIGN CHOICE (log 19). -/
def State.freeCore (s : State) (slots k : Nat) : Bool :=
  let c := s.coreAt k
  let n := (if c.slot0.state = .empty then 1 else 0) + (if c.slot1.state = .empty then 1 else 0)
  c.reserved.isNone && !c.failed && decide (slots ≤ n)

/-- Take cores away from the highest die that has a share, `n` in all (R366). -/
def trimShares (n : Nat) : List Nat → List Nat
  | [] => []
  | a :: rest =>
    -- the list is highest die first
    (a - min a n) :: trimShares (n - min a n) rest

/-- Drop whole dies, highest first, until the sum fits TMAX and the unit (R366); the list is highest die first. -/
def dropDies (tmax u : Nat) : List Nat → List Nat
  | [] => []
  | a :: rest => if tmax < a + rest.sum ∨ (a + rest.sum) % u ≠ 0 then 0 :: dropDies tmax u rest else a :: rest

/-- The grant a record gets when `free` says which cores are free (R366): the keys of the granted cores in the order of
CORE_ID, and of those reserved. -/
def State.grant (s : State) (part pkg : Nat) (r : BitVec 1024) (free : Nat → Bool) : List Nat × List Nat :=
  let m := s.partCores part pkg
  let en := fun (d : Nat) => (List.range 64).filterMap fun i => if (s.pkgAt pkg).enable.getLsbD (64 * d + i) then some (64 * d + i) else none
  let ok := fun (c : Nat) => m.getLsbD c && free (pkg * 256 + c)
  let b := recField r 0x1F 1
  let u := recField r 0x2A 2
  let tmax := recField r 0x2C 2
  let pv := fun (d : Nat) => recField r (0x30 + d) 1
  let quads := fun (d : Nat) => (List.range 16).filter fun q => (List.range 4).all fun c => ok (64 * d + 4 * q + c)
  let pool := fun (d : Nat) =>
    if b = 0 then (en d).filter ok
    else if b = 1 then (quads d).flatMap fun q => (List.range 4).map fun c => 64 * d + 4 * q + c
    else if (en d).all ok then en d else []
  let a := (List.range 4).map fun d => if b ≤ 1 then min (pv d) (pool d).length else if 0 < pv d then (pool d).length else 0
  let n := min tmax a.sum
  let n := n - n % max u 1
  let shares := if b ≤ 1 then (trimShares (a.sum - n) a.reverse).reverse else (dropDies tmax (max u 1) a.reverse).reverse
  let take := fun (d : Nat) => (pool d).take (shares.getD d 0)
  let rest := fun (d : Nat) => if b = 1 then ((pool d).drop (shares.getD d 0)).take ((4 - shares.getD d 0 % 4) % 4) else []
  let key := fun (c : Nat) => pkg * 256 + c
  (((List.range 4).flatMap take).map key, ((List.range 4).flatMap rest).map key)

/-! ## Checks (R365) -/

/-- A pinned handle of the partition. -/
def State.pinnedHandle (s : State) (part : Nat) (h : Word) : Bool :=
  match s.locate part h 1 with
  | some (r, _) => r.pinned
  | none => false

def State.roHandle (s : State) (part : Nat) (h : Word) : Bool :=
  match s.locate part h 1 with
  | some (r, _) => !r.rw
  | none => false

/-- FORMAT (R363, R365). -/
def formatOk (r : BitVec 1024) : Bool :=
  let f := recField r
  crcAt r.toNat 0 124 124 &&
  -- reserved bits: PRIO, MODE, OSQ, the two reserved fields
  decide (f 0x1E 1 < 16) && decide (f 0x2E 1 < 4) && decide (f 0x20 8 < 2 ^ 36) && decide (f 0x2F 1 = 0) && decide (f 0x6C 16 = 0) &&
  decide (f 0x1F 1 ≤ 4) && decide (1 ≤ f 0x28 2) && decide (f 0x28 2 ≤ 256) && decide (1 ≤ f 0x2A 2) && decide (f 0x2A 2 ≤ 256) &&
  decide (f 0x28 2 ≤ f 0x2C 2) && decide (f 0x2C 2 ≤ 256) && (List.range 4).all (fun d => decide (f (0x30 + d) 1 ≤ 64)) &&
  (decide (f 0x00 8 = 0) == decide (f 0x2E 1 / 2 % 2 = 1))

/-- HANDLE. -/
def State.handlesOk (s : State) (part : Nat) (r : BitVec 1024) : Bool :=
  let f := fun (off : Nat) => word (recField r off 8)
  ([0x00, 0x08, 0x10, 0x48, 0x64] : List Nat).all (fun off => decide (f off = 0) || s.pinnedHandle part (f off)) &&
  (decide (f 0 = 0) || s.roHandle part (f 0))

/-- IMAGE: the kernel asks for no more than the record grants. -/
def State.imageFits (s : State) (part : Nat) (r : BitVec 1024) : Bool :=
  match (s.partAt part).kernelOf (word (recField r 0 8)) with
  | none => true
  | some k =>
    let osq := recField r 0x20 8
    decide (k.matSteps ≤ osq % 2 ^ 13) && decide (k.vecOrders ≤ osq / 2 ^ 13 % 2 ^ 13) && decide (k.tmpOrders ≤ osq / 2 ^ 26 % 2 ^ 10) &&
    decide (k.minCores ≤ recField r 0x28 2) && decide (recField r 0x2A 2 % max k.multCores 1 = 0)

/-- GRAPH: predecessors and nodes of the graph in this package. -/
def State.graphOk (s : State) (part pkg : Nat) (r : BitVec 1024) : Bool :=
  let p := s.partAt part
  let g := recField r 0x3C 4
  (predsOf r).all (fun n => (p.nodeOf pkg g n).isSome) &&
  (!(recField r 0x2E 1 % 2 = 1) || (p.nodeOf pkg g (recField r 0x40 4)).isNone) &&
  (!(recField r 0x2E 1 / 2 % 2 = 1) || p.nodes.any fun n => decide (n.pkg = pkg) && decide (n.graph.toNat = g))

/-- The record starts a replay, or defines a node (R363). -/
def isReplay (r : BitVec 1024) : Bool := decide (recField r 0x2E 1 / 2 % 2 = 1)
def isDef (r : BitVec 1024) : Bool := decide (recField r 0x2E 1 % 2 = 1)

/-- The first failing code of R365, or 0. DESIGN CHOICE (log 14). -/
def State.rejectCode (s : State) (part pkg : Nat) (r : BitVec 1024) : Nat :=
  let f := recField r
  if !formatOk r then 1
  else if !s.handlesOk part r then 2
  else if f 0x18 4 < 4096 ∨ 524288 < f 0x18 4 ∨ f 0x18 4 % 4096 ≠ 0 then 3
  else if f 0x1C 1 = 0 ∨ 48 < f 0x1C 1 then 4
  else if 4096 < f 0x20 8 % 2 ^ 13 ∨ 4096 < f 0x20 8 / 2 ^ 13 % 2 ^ 13 ∨ 512 < f 0x20 8 / 2 ^ 26 % 2 ^ 10 then 5
  else if f 0x1D 1 = 0 ∨ 2 < f 0x1D 1 then 6
  else if !s.imageFits part r then 7
  else if (f 0x1F 1 = 4 ∧ f 0x3C 4 = 0) ∨ (f 0x38 4 ≠ 0 ∧ f 0x28 2 ≠ f 0x2C 2) then 8
  else if !s.graphOk part pkg r then 9
  else if (s.partAt part).prioCeil < f 0x1E 1 then 10
  else if (s.grant part pkg r fun _ => true).1.length < f 0x28 2 then 11
  else if (s.grantsOk part r).isNone then 12
  else 0

/-! ## Binding (R364, R367, R368, R371) -/

/-- Position of `x` among the distinct values of a list. -/
def rankOf (x : Nat) (l : List Nat) : Nat := (l.eraseDups.findIdx? fun y => decide (y = x)).getD 0

/-- The bind record of the task with this CORE_ID on the core `k` (R367, R368). -/
def State.bindRecord (s : State) (part : Nat) (l : Launch) (ks : List Nat) (id k : Nat) : Slot :=
  let f := recField l.record
  let n := ks.length
  let o := l.origin.getD (dieOf k % 4) (s.scntOf (dieOf k))
  { state := .bound, part := part, launch := l.id, lid := BitVec.ofNat 32 (f 0x60 4), prio := BitVec.ofNat 4 (f 0x1E 1),
    coreId := BitVec.ofNat 8 id, quadId := BitVec.ofNat 8 (rankOf (k / 4) (ks.map (· / 4))),
    dieId := BitVec.ofNat 8 (rankOf (dieOf k) (ks.map dieOf)), atiles := BitVec.ofNat 8 (f 0x1C 1), ncores := BitVec.ofNat 16 n,
    cquota := BitVec.ofNat 32 (f 0x18 4), osquota := word (f 0x20 8), code := word (f 0x00 8), arg := l.args,
    taskId := BitVec.ofNat 32 (f 0x34 4 + id), gcount := BitVec.ofNat 32 (if f 0x38 4 = 0 then n else f 0x38 4),
    rsttab := word (f 0x10 8), start := if l.stamp = 0xFFFFFFFF then 0xFFFFFFFF else BitVec.ofNat 32 (o + l.stamp), origin := o,
    graph := BitVec.ofNat 32 (f 0x3C 4), node := BitVec.ofNat 32 (f 0x40 4), payload := l.payload }

/-- Write a bind record into a core: into its EMPTY slot, or, with SLOTS 2, into both, the second a copy with STATE 3. DESIGN CHOICE (log 19). -/
def Core.bind (c : Core) (sl : Slot) (slots : Nat) : Core :=
  if slots = 2 then { c with slot0 := sl, slot1 := { sl with state := .saved, copy := true } }
  else if c.slot0.state = .empty then { c with slot0 := sl }
  else { c with slot1 := sl }

/-- Move a PARKED span to a task (R364, R280): its SHARES are 0 from then on, whatever shares of a failed holder still stand. DESIGN
CHOICE (log 54). -/
def grantToken (pkg id launch : Nat) (t : Token) : Token :=
  { t with mode := .excl, hpkg := pkg, hcore := id, hgroup := launch, lvalid := false, shares := 0, gen := t.gen + 1 }

/-- Bind a launch to its granted cores: the records are written, the listed spans moved, spare cores reserved, and running
tasks of lower priority are asked to make way (R377). A task's first fetch comes up to 1,024 warm cycles later (R369). -/
def State.bindLaunch (s : State) (part : Nat) (l : Launch) (ks spare : List Nat) (spans : List (Nat × Nat)) : State :=
  let slots := recField l.record 0x1D 1
  let (t, s0) := s.draw (1023 * Config.coldPerWarm)
  let s1 := (List.range ks.length).foldl (fun x i =>
    let k := ks.getD i 0
    x.modCoreAt k fun c => c.bind { s.bindRecord part l ks i k with ready := s.clock + t } slots) s0
  let s2 := spare.foldl (fun t k => t.modCoreAt k fun c => { c with reserved := some (part, l.id) }) s1
  let s3 := spans.foldl (fun t x => t.modToken part x.1 fun k => if k.mode = .parked then grantToken l.pkg x.2 l.id k else k) s2
  let s4 := s3.modLaunch part l.id fun x => { x with state := .bound, ngrant := ks.length }
  ks.foldl (fun t k =>
    let c := t.coreAt k
    if c.run.isSome ∧ ¬(c.slot.part = part ∧ c.slot.launch = l.id) ∧ c.slot.prio.toNat < l.prio then t.request k false else t) s4

/-- A launch leaves the tables with its completion record; the replay it belongs to completes with its last node (R362,
R374). -/
def State.closeLaunch (s : State) (part : Nat) (l : Launch) (status cause : Nat) : State :=
  let s1 := s.complete part l.queue
    (completionBytes (recField l.record 0x60 4) status cause l.ngrant l.replay (if l.replay = 0 then 0 else l.node))
  let s2 := s1.freePayload l.arm
  let s3 := s2.modPartAt part fun p =>
    { p with
      launches := p.launches.filter fun x => !decide (x.id = l.id),
      nodes := p.nodes.map fun n =>
        if l.replay ≠ 0 ∧ n.pkg = l.pkg ∧ n.graph.toNat = l.graph ∧ n.node.toNat = l.node then
          { n with nseq := if status = 0 then l.replay else n.nseq, ends := (l.replay, BitVec.ofNat 8 status) :: n.ends }
        else n }
  match l.top with
  | none => s3
  | some t =>
    if (s3.partAt part).launches.any fun x => decide (x.top = some t) then s3
    else match (s3.partAt part).launch t with
      | some r =>
        ((s3.complete part r.queue (completionBytes (recField r.record 0x60 4) 0 0 0 0 0)).freePayload r.arm).modPartAt part fun p =>
          { p with launches := p.launches.filter fun x => !decide (x.id = t) }
      | none => s3

/-- Try to grant cores to a waiting launch and bind it (R366). -/
def State.tryBind (s : State) (part id : Nat) : State :=
  match (s.partAt part).launch id with
  | none => s
  | some l =>
    if l.state ≠ .waiting ∨ (s.pkgAt l.pkg).hot then s
    else
      let (ks, spare) := s.grant part l.pkg l.record (s.freeCore (recField l.record 0x1D 1))
      if ks.length < recField l.record 0x28 2 then s else s.bindLaunch part l ks spare l.grants

/-- Enter a launch in the partition's tables; its id is the count of launches taken. -/
def State.enterLaunch (s : State) (part : Nat) (l : Launch) : State :=
  s.modPartAt part fun p => { p with launches := p.launches ++ [l], launchNo := p.launchNo + 1 }

/-- Waiting launches in the order of R366: PRIO descending, then the order in which they were taken. -/
def insertWaiting (l : Launch) : List Launch → List Launch
  | [] => [l]
  | x :: rest => if x.prio < l.prio ∨ (x.prio = l.prio ∧ l.id < x.id) then l :: x :: rest else x :: insertWaiting l rest

def waitingOrder (ls : List Launch) : List Launch :=
  (ls.filter fun l => decide (l.state = .waiting)).foldl (fun acc l => insertWaiting l acc) []

/-- `g1` of a node in a replay: its record's ARGS, or the buffer its parameter pair has in force (R376). -/
def State.nodeArgs (s : State) (part : Nat) (r : BitVec 1024) : Word :=
  let h := word (recField r 0x48 8)
  if h = 0 then word (recField r 0x08 8)
  else word (s.readAt part (h + (if s.readAt part h 8 % 2 = 1 then 16 else 8)) 8)

/-- A node's grant list is applied at every replay (R374); one that breaks R364 ends the node as REJECT, GRANT. -/
def State.grantNode (s : State) (part : Nat) (l : Launch) : State :=
  match s.grantsOk part l.record with
  | some spans => s.modLaunch part l.id fun x => { x with grants := spans }
  | none => s.closeLaunch part l 1 12

/-- Start replay `r` of a graph: origins and parameter pairs are sampled, and every node of the package is admitted. A message that
starts one passes its payload to the nodes (R373). DESIGN CHOICE (log 21). -/
def State.startReplayOf (s : State) (part queue pkg : Nat) (rec_ : BitVec 1024) (payload : Word) (arm : Option (Nat × Nat)) : State :=
  let g := BitVec.ofNat 32 (recField rec_ 0x3C 4)
  let p := s.partAt part
  let r := ((p.replays.find? fun x => decide (x.1 = pkg) && decide (x.2.1 = g)).map (·.2.2)).getD 0 + 1
  let top := p.launchNo
  let origin := (List.range 4).map fun d => s.scntOf (pkg * 4 + d)
  let head : Launch := { id := top, queue := queue, pkg := pkg, record := rec_, args := 0, payload := payload, arm := arm, state := .replaying }
  let s1 := (s.enterLaunch part head).modPartAt part fun p =>
    { p with replays := (pkg, g, r) :: p.replays.filter fun x => !(decide (x.1 = pkg) && decide (x.2.1 = g)) }
  let mine := p.nodes.filter fun n => decide (n.pkg = pkg) && decide (n.graph = g)
  let nodes := (List.range mine.length).filterMap fun i => mine[i]?.map fun n =>
    ({ id := top + 1 + i, queue := queue, pkg := pkg, record := n.record, args := s.nodeArgs part n.record, payload := payload,
       replay := r, top := some top, origin := origin, held := true } : Launch)
  -- every node stands in the table before the first can end, so that the replay record completes with the last
  let s2 := nodes.foldl (fun t l => t.grantNode part l) (nodes.foldl (fun t l => t.enterLaunch part l) s1)
  (waitingOrder (s2.partAt part).launches).foldl (fun t l => if l.top = some top then t.tryBind part l.id else t) s2

/-- A record submitted to admission (R365): rejected with its completion record, the start of a replay, stored as a node of its graph, or
granted and bound as soon as its cores are free. DESIGN CHOICE (log 20). -/
def State.submit (s : State) (part queue pkg : Nat) (r : BitVec 1024) (payload : Word) (arm : Option (Nat × Nat)) : State :=
  let code := s.rejectCode part pkg r
  let l : Launch := { id := (s.partAt part).launchNo, queue := queue, pkg := pkg, record := r, args := word (recField r 0x08 8),
                      payload := payload, arm := arm }
  if code ≠ 0 then
    (s.complete part queue (completionBytes (recField r 0x60 4) 1 code 0 0 0)).freePayload arm
  else if isReplay r then s.startReplayOf part queue pkg r payload arm
  else if isDef r then
    let n : GraphNode := { pkg := pkg, graph := BitVec.ofNat 32 (recField r 0x3C 4), node := BitVec.ofNat 32 (recField r 0x40 4), record := r }
    (s.modPartAt part fun p => { p with nodes := p.nodes ++ [n] }).freePayload arm
  else (s.enterLaunch part { l with grants := (s.grantsOk part r).getD [] }).tryBind part l.id

/-! ## Taking records (R361) -/

/-- The next record of a queue: its header holds, something is submitted, and no launch of the queue waits (R361, R366). -/
def State.nextRecord (s : State) (part : Nat) (q : LaunchQueue) (queue : Nat) : Option (BitVec 1024 × Nat) :=
  let head := s.readAt part (q.h + 8) 8
  let nslot := s.readAt part (q.h + 0x10) 4
  let ring := word (s.readAt part (q.h + 0x18) 8)
  if q.stopped ∨ s.readAt part q.h 8 ≤ head ∨ nslot = 0 ∨
     (s.partAt part).launches.any (fun l => decide (l.queue = queue) && decide (l.state = .waiting)) then none
  else some (BitVec.ofNat 1024 (s.readAt part (ring + word (128 * (head % nslot))) 128), head)

/-- The CRC of a queue header holds. -/
def State.headerOk (s : State) (part : Nat) (h : Word) : Bool := crcAt (s.readAt part h 64) 0x10 24 0x3C

/-- A header whose CRC fails stops its queue and is logged (R361, R411). -/
def State.stopQueue (s : State) (part queue : Nat) (q : LaunchQueue) : State :=
  (s.modPartAt part fun p => { p with queues := Sp.put p.queues queue { q with stopped := true } }).logStructure q.pkg q.h
    (s.readAt part (q.h + 0x3C) 4)

/-- The queue registered under a number, if one is. -/
def Part.queue? (p : Part) (n : Nat) : Option LaunchQueue := (p.queues.find? fun x => decide (x.1 = n)).map (·.2)

/-- Where the next record of a queue stands among those of its package (R366): by PRIO, highest first, then by TAIL. A header that
does not hold is met as soon as it is read. -/
def State.queueRank (s : State) (part : Nat) (x : Nat × LaunchQueue) : Option (Nat × Nat) :=
  if x.2.stopped then none
  else if !s.headerOk part x.2.h then some (0, 0)
  else (s.nextRecord part x.2 x.1).map fun r => (16 - recField r.1 0x1E 1 % 16, s.readAt part x.2.h 8)

/-- No other queue of the package goes ahead of this one. -/
def State.queueFirst (s : State) (part : Nat) (qs : Sp LaunchQueue) (x : Nat × LaunchQueue) : Bool :=
  match s.queueRank part x with
  | none => false
  | some r => qs.all fun y =>
    decide (y.2.pkg ≠ x.2.pkg) ||
      (match s.queueRank part y with
       | some t => decide (r.1 < t.1) || (decide (r.1 = t.1) && decide (r.2 ≤ t.2))
       | none => true)

/-- Take the record at HEAD, if no other queue of the package goes ahead (R366) and it is of the kind wanted, and go on with it. -/
def State.takeRecord (s : State) (part queue : Nat) (want : State → LaunchQueue → BitVec 1024 → Bool)
    (go : State → LaunchQueue → BitVec 1024 → State) : Out :=
  match (s.partAt part).queue? queue with
  | none => .next s
  | some q =>
    if q.stopped then .next s
    else if !s.headerOk part q.h then .next (s.stopQueue part queue q)
    else if !s.queueFirst part (s.partAt part).queues (queue, q) then .next s
    else match s.nextRecord part q queue with
      | none => .next s
      | some (r, head) =>
        if want s q r then .next (go (s.writeAt part (q.h + 8) (leBytes 8 (head + 1))) q r) else .next s

/-- A replay record that passes its checks is taken by GRAPH_REPLAY; every other record by ADMISSION. -/
def State.replayable (s : State) (part : Nat) (q : LaunchQueue) (r : BitVec 1024) : Bool :=
  isReplay r && decide (s.rejectCode part q.pkg r = 0)

/-- `ADMISSION` (R361, R365): the management cores take a queue's next launch record. -/
def execAdmission (part queue : Nat) (s : State) : Out :=
  s.takeRecord part queue (fun s q r => !s.replayable part q r) fun s q r => s.submit part queue q.pkg r 0 none

/-- `ADMISSION_RETEST` (R366): every waiting launch of the partition is tested again. -/
def execAdmissionRetest (part : Nat) (s : State) : Out :=
  .next ((waitingOrder (s.partAt part).launches).foldl (fun s l => s.tryBind part l.id) s)

/-! ## Task graphs (R374 to R376) -/

/-- `GRAPH_REPLAY` (R374 to R376): the queue's next record starts a replay of its graph. -/
def execGraphReplay (part queue : Nat) (s : State) : Out :=
  s.takeRecord part queue (fun s q r => s.replayable part q r) fun s q r => s.startReplayOf part queue q.pkg r 0 none

/-! ## The end of a launch (R369, R370) -/

/-- Set the records of a launch EMPTY, copies too, and release its reserved cores. -/
def Core.emptySlots (c : Core) (part launch : Nat) : Core :=
  let f := fun (sl : Slot) => if sl.state ≠ .empty ∧ sl.part = part ∧ sl.launch = launch then {} else sl
  { c with slot0 := f c.slot0, slot1 := f c.slot1, reserved := if c.reserved = some (part, launch) then none else c.reserved }

/-- Every record of a bound launch is ENDED. A launch that has lost a record completes only when it is killed (R369, R370). DEDUCED (log 30). -/
def State.launchOver (s : State) (part : Nat) (l : Launch) : Bool :=
  decide (l.state = .bound) && (!l.lost || decide (l.status = 3)) && (s.slotsOf part l.id).all fun x => decide (x.2.2.state = .ended)

/-- The records of a launch whose CRC fails as they become EMPTY are logged (R369, R411). -/
def State.checkEnded (s : State) (part launch : Nat) : State :=
  (s.slotsOf part launch).foldl (fun s x => s.checked x.1 x.2.1 fun s => s) s

/-- `LAUNCH_COMPLETION` (R362, R369, R370): the completion record is written and the records become EMPTY. -/
def execLaunchCompletion (part launch : Nat) (s : State) : Out :=
  match (s.partAt part).launch launch with
  | none => .next s
  | some l =>
    if !s.launchOver part l then .next s
    else
      let s1 := (s.checkEnded part launch).closeLaunch part l l.status.toNat (if l.status = 2 then l.cause.toNat else 0)
      .next { s1 with cores := s1.cores.map fun (x : Nat × Core) => (x.1, x.2.emptySlots part launch) }

/-- `LAUNCH_KILL` (R370): the supervisor ends the launch; its tasks end and it completes KILLED. DEDUCED (log 30). -/
def execLaunchKill (part launch : Nat) (s : State) : Out :=
  match (s.partAt part).launch launch with
  | none => .next s
  | some l =>
    match l.state with
    | .waiting => .next (s.closeLaunch part l 3 0)
    | .replaying => .next s
    | .bound =>
      .next ((s.modLaunch part launch fun x => { x with status := 3, cause := 0 }).endLaunch part launch 3 0)

/-! ## Messages (R372, R373, R446, R464) -/

/-- The entries of a package's arm table that carry a tag and claim to be VALID. -/
def Pkg.armsFor (p : Pkg) (tag : Nat) : List (Nat × BitVec 256) := p.arms.filter fun x => armValid x.2 && decide (armField x.2 0 2 = tag)

/-- A message reaches a package: stored and launched by the entry that matches, or dropped (R373). DESIGN CHOICE (log 21). -/
def State.matchMessage (s : State) (pkg tag : Nat) (payload : List Byte) : State :=
  let es := (s.pkgAt pkg).armsFor tag
  let s1 := (es.filter fun x => !armCrcOk x.2).foldl (fun s x => s.logStructure pkg (word x.1) (armField x.2 0x1C 4)) s
  match es.find? fun x => armCrcOk x.2 with
  | none => s1.logIo pkg { source := 10, uncorrectable := true, addr := word tag, phys := 0xFF, owner := 0, syndrome := 0 }
  | some (e, v) =>
    let put := fun (s : State) (w : BitVec 256) => s.modPkgAt pkg fun p => { p with arms := Sp.put p.arms e w }
    if armField v 0x19 1 = 16 ∨ armField v 4 4 < payload.length then put s1 (setArm v 0x1A 2 (min (armField v 0x1A 2 + 1) 0xFFFF))
    else
      let (part, queue) := Sp.get (0, 0) (s.pkgAt pkg).armQueue e
      let next := armField v 0x18 1
      let h := word (armField v 0x10 8) + word (next % 16 * armField v 4 4)
      let w := setArm (setArm v 0x18 1 ((next + 1) % 16)) 0x19 1 (armField v 0x19 1 + 1)
      let w := if armField v 2 1 / 2 % 2 = 1 then setArm w 2 1 (armField v 2 1 - 1) else w
      let s2 := put (s1.writeAt part h payload) w
      s2.submit part queue pkg (BitVec.ofNat 1024 (s2.readAt part (word (armField v 8 8)) 128)) h (some (pkg, e))

/-- `MESSAGE_MATCH` (R373). -/
def execMessageMatch (pkg : BitVec 10) (tag : BitVec 16) (payload : List (BitVec 8)) (s : State) : Out :=
  if Config.packages ≤ pkg.toNat then .next s
  else if (s.pkgAt pkg.toNat).failed then .next s
  else .next (s.matchMessage pkg.toNat tag.toNat payload)

/-- A classifier entry: bit 0 in use, [31:16] EtherType, [47:32] byte offset, [63:48] value, [79:64] mask, [95:80] tag. DESIGN CHOICE (log 22). -/
def classMatches (v : BitVec 96) (ethertype : Nat) (payload : List Byte) : Bool :=
  let off := bits v 32 16
  let field := leNat ((payload.drop off).take 2)
  v.getLsbD 0 && decide (bits v 16 16 = ethertype) && decide (off + 2 ≤ payload.length) &&
  decide (field &&& bits v 64 16 = bits v 48 16 &&& bits v 64 16)

/-- `FRAME_CLASSIFY` (R464): the lowest matching entry of the port tags the frame; one that matches none goes to the host.
Before boot step 6 has written the tables the frame is dropped. DESIGN CHOICE (log 22). -/
def execFrameClassify (pkg : BitVec 10) (port : BitVec 1) (ethertype : BitVec 16) (payload : List (BitVec 8)) (s : State) : Out :=
  let p := s.pkgAt pkg.toNat
  if Config.packages ≤ pkg.toNat then .next s
  else if !p.boot.released ∨ p.failed then .next s
  else
    let es := (List.range 64).map fun i => Sp.get 0 p.classify (64 * port.toNat + i)
    match es.find? fun v => classMatches v ethertype.toNat payload with
    | some v => .next (s.matchMessage pkg.toNat (bits v 80 16) payload)
    | none => .next (s.modPkgAt pkg.toNat fun p => { p with hostRx := p.hostRx ++ [payload] })

/-- A descriptor of the message queue that keeps its limits (R446). -/
def State.descriptorOk (s : State) (part : Nat) (v : Nat) : Bool :=
  let len := v / 2 ^ 32 % 2 ^ 32
  let src := word (v / 2 ^ 64)
  crcAt v 0 28 28 && decide (v % 2 ^ 16 < Config.packages) && decide (len ≤ 65536) && decide (v / 2 ^ 128 % 2 ^ 96 = 0) &&
  (match s.locate part src len with | some (r, _) => r.pinned | none => false)

/-- `MESSAGE_SEND` (R446, R447): the I/O die takes its message queue's next descriptor and reads the payload; it arrives
later, behind earlier messages to that package. DESIGN CHOICE (log 21). DEDUCED (log 46). -/
def execMessageSend (pkg : BitVec 10) (s : State) : Out :=
  if Config.packages ≤ pkg.toNat then .next s
  else match (s.pkgAt pkg.toNat).msgq with
  | none => .next s
  | some (part, h) =>
    if !s.headerOk part h then
      .next ((s.logStructure pkg.toNat h (s.readAt part (h + 0x3C) 4)).modPkgAt pkg.toNat fun p => { p with msgq := none })
    else
      let head := s.readAt part (h + 8) 8
      let nslot := s.readAt part (h + 0x10) 4
      if s.readAt part h 8 ≤ head ∨ nslot = 0 then .next s
      else
        let a := word (s.readAt part (h + 0x18) 8) + word (32 * (head % nslot))
        let v := s.readAt part a 32
        let s1 := s.writeAt part (h + 8) (leBytes 8 (head + 1))
        if !s.descriptorOk part v then .next (s1.logStructure pkg.toNat a (v / 2 ^ 224))
        else
          let len := v / 2 ^ 32 % 2 ^ 32
          let data := match s.locate part (word (v / 2 ^ 64)) len with | some (_, key) => s.bytes key len | none => []
          let dst := v % 2 ^ 16
          let (t, s2) := s1.draw 4095
          let after := (s.pkgAt pkg.toNat).outbox.foldl (fun m x => if x.2.1.toNat = dst then max m x.1 else m) (s.clock + 16 * (t + 1))
          .next (s2.modPkgAt pkg.toNat fun p =>
            { p with outbox := p.outbox ++ [(after, BitVec.ofNat 10 dst, BitVec.ofNat 16 (v / 2 ^ 16), data)] })

/-- `LAUNCH_ARM_WRITE` (R372, R373): the management cores of a package that is up (R460) write an entry for a queue that registered it; a
second VALID entry with the same TAG is refused. Reserved bits read as zero (R9). -/
def execLaunchArmWrite (pkg : BitVec 10) (entry : BitVec 8) (part queue : Nat) (v : BitVec 256) (s : State) : Out :=
  if Config.packages ≤ pkg.toNat then .next s
  else
    let twin := ((s.pkgAt pkg.toNat).armsFor (armField v 0 2)).any fun x => !decide (x.1 = entry.toNat)
    if (armValid v ∧ twin) ∨ !(s.pkgAt pkg.toNat).boot.released then .next s
    else .next (s.modPkgAt pkg.toNat fun p =>
      { p with arms := Sp.put p.arms entry.toNat (v &&& ~~~0xFF_FC_0000#256), armQueue := Sp.put p.armQueue entry.toNat (part, queue) })

end Sys2Proof.Machine
end

