-- ==== Sys2Proof/Machine/Manage.lean ====
section
/-! DEFINITION. What the management cores, the loader, the host cores and the devices do besides launches: region and key
tables (R333, R341), tokens (R267, R280), kernels (R435), code patches (R402), host and device accesses (R459, R463), mirror
acknowledgements (R417, R418), failures (R280, R419, R440, R442) and bring-up (R460 to R462). -/

namespace Sys2Proof.Machine

/-! ## Region entries (R333) -/

/-- Some task of the partition is bound. -/
def State.anyBound (s : State) (part : Nat) : Bool :=
  s.cores.any fun x => [x.2.slot0, x.2.slot1].any fun sl => sl.live && decide (sl.part = part)

/-- The handles an entry of a queue still has to reach. -/
def QOp.handles : QOp → List Word
  | .load h _ _ _ => [h]
  | .store h _ _ => [h]
  | .cmaint _ base _ _ => [base]
  | .cptail h => [h]
  | .shpld _ h => [h]
  | .shpst h _ => [h]
  | .tload _ img _ _ _ => [img]
  | .marker _ | .crossing _ | .xget _ _ _ | .atom _ _ | .xput _ _ | .tstart _ _ | .tstartEv _ _ | .tstop _ | .tbase _ _ | .tsync _ => []

/-- Accesses of a core that were translated through region `i` and have not been performed. -/
def Core.uses (c : Core) (i : Nat) : Bool :=
  (c.lq ++ c.sq ++ c.eq).any (fun e => e.op.handles.any fun h => decide (regionIdx h = i)) ||
  c.xings.any (fun x => decide (regionIdx (shpData x.shape) = i) || decide (regionIdx (shpBtab x.shape) = i)) ||
  c.str.taken.any fun t => !t.done && (match entryOf t.cmd with
    | some (_, e) => decide (regionIdx e.src = i) || decide (regionIdx e.dst = i) || decide (regionIdx e.aux = i) ||
        t.dests.any fun h => decide (regionIdx h = i)
    | none => false)

/-- A core that runs a task of the partition. -/
def Core.runs (c : Core) (part : Nat) : Bool := c.run.isSome && decide (c.slot.part = part)

/-- Drop region `i` from every TLB of the partition and every copy-engine cache. -/
def State.shootDown (s : State) (part i : Nat) : State :=
  { s with
    cores := s.cores.map fun (x : Nat × Core) =>
      if x.2.runs part then (x.1, { x.2 with tlb := x.2.tlb.filter fun r => !decide (r = i) }) else x,
    dies := s.dies.map fun (x : Nat × Die) =>
      (x.1, { x.2 with ctlb := x.2.ctlb.map fun (q : Nat × List Nat) => (q.1, q.2.filter fun r => !decide (r = part * 4096 + i)) }) }

/-- No access translated through region `i` of the partition is outstanding. -/
def State.shotDown (s : State) (part i : Nat) : Bool := !s.cores.any fun x => x.2.runs part && x.2.uses i

/-- Complete the shootdowns whose accesses have been performed (R333). DEDUCED (log 23). -/
def State.settleShoots (s : State) (part : Nat) : State :=
  let due := (s.partAt part).shoots.filter fun x => s.shotDown part x.1
  due.foldl (fun s x => (s.setRegion part x.1 x.2).shootDown part x.1)
    (s.modPartAt part fun p => { p with shoots := p.shoots.filter fun x => !due.contains x })

/-- The management cores of the current core's package have brought it up (R460): before that they write no table. -/
def State.managed (s : State) : Bool := (s.pkgAt (pkgOf s.cur)).boot.released

/-- The fields of a region table entry that are neither reserved nor must-be-zero: those bits read as zero (R9, R330). -/
def regionFields : BitVec 512 :=
  BitVec.ofNat 512 ((2 ^ 40 - 2 ^ 16) + (2 ^ 64 - 1) * 2 ^ 64 + (2 ^ 10 - 1) * 2 ^ 128 + (2 ^ 5 - 1) * 2 ^ 144 + (2 ^ 8 - 1) * 2 ^ 160 +
    (2 ^ 34 - 1) * 2 ^ 192 + (2 ^ 64 - 1) * 2 ^ 256 + (2 ^ 32 - 1) * 2 ^ 480)

/-- `REGION_ENTRY_WRITE` (R333): refused for a valid PINNED entry while a task of the partition is bound; otherwise the
entry is rewritten and shot down once every access translated through the old one has been performed. DEDUCED (log 23). -/
def execRegionEntryWrite (part : Nat) (entry : BitVec 12) (v : BitVec 512) (s : State) : Out :=
  let i := entry.toNat
  let v := v &&& regionFields
  if !s.managed then .next s else
  let pinned : Bool := match s.regionOf part i with
    | some r => r.pinned
    | none => false
  if pinned ∧ s.anyBound part then .next s
  else
    let s1 := s.shootDown part i
    .next ((s1.modPartAt part fun p => { p with shoots := p.shoots.filter (fun x => !decide (x.1 = i)) ++ [(i, v)] }).settleShoots part)

/-! ## Keys, protection, banks -/

/-- A valid entry of some partition names key slot `slot` of package `pkg` (R341). -/
def State.keyInUse (s : State) (pkg slot : Nat) : Bool :=
  s.parts.any fun p => p.2.regions.any fun e => match decodeRegion e.2 with
    | some r => r.keyen && decide (r.pkg = pkg) && decide (r.key = slot)
    | none => false

/-- `KEY_SLOT_LOAD` (R341), once the package is up (R460). -/
def execKeySlotLoad (pkg : BitVec 10) (slot : BitVec 8) (key : BitVec 512) (s : State) : Out :=
  if Config.packages ≤ pkg.toNat then .next s
  else if s.keyInUse pkg.toNat slot.toNat ∨ !(s.pkgAt pkg.toNat).boot.released then .next s
  else .next (s.modPkgAt pkg.toNat fun p => { p with keys := Sp.put p.keys slot.toNat (some key) })

/-- MEMPROT after a write: a reserved code voids the write, a memory that is up keeps its field (R337). -/
def Pkg.writeMemprot (p : Pkg) (v : Word) : Pkg :=
  let field := fun (i : Nat) => bits v (2 * i) 2
  if 2 ≤ field 0 ∨ 2 ≤ field 1 ∨ 2 ≤ field 2 then p
  else
    let pick := fun (i : Nat) => if p.memUp.getLsbD i then bits p.memprot (2 * i) 2 else field i
    { p with memprot := BitVec.ofNat 6 (pick 0 + 4 * pick 1 + 16 * pick 2) }

/-- `MEMPROT_WRITE` (R337). -/
def execMemprotWrite (pkg : BitVec 10) (v : BitVec 64) (s : State) : Out :=
  if Config.packages ≤ pkg.toNat then .next s
  else .next (s.modPkgAt pkg.toNat fun p => p.writeMemprot v)

/-- `ERROR_BANK_CLEAR` (R412): a write of the bank window's WSEL, whose reserved bits read as zero (R9); CLR in it empties the bank it
selects. -/
def execErrorBankClear (pkg : BitVec 10) (v : BitVec 64) (s : State) : Out :=
  let b := bits v 0 3
  let v := v &&& 0x107
  let s1 := s.modPkgAt pkg.toNat fun p => { p with wselBank := v }
  if Config.packages ≤ pkg.toNat then .next s
  else if !v.getLsbD 8 ∨ 4 < b then .next s1
  else if b = 4 then .next (s.modPkgAt pkg.toNat fun p => { p with wselBank := v, bank := {} })
  else .next (s1.modDieAt (pkg.toNat * 4 + b) fun d => { d with bank := {} })

/-! ## Errors the scrubber finds (R338, R339) -/

/-- Add to a list what it does not hold. -/
def addOnce (n : Nat) (l : List Nat) : List Nat := if l.contains n then l else n :: l

/-- What an uncorrectable error makes bad for every reader (R336, R338): a line, a cold granule, an L1 line, an accumulator word, an order.
Parity of the L1 instruction cache refetches. The address forms of sources 3, 5 and 6 are a DESIGN CHOICE (log 24). DEDUCED (log 48). -/
def State.markBad (s : State) (pkg : Nat) (e : MemError) : State :=
  let line := memKey pkg e.addr.toNat / 64
  let core := pkg * 256 + e.phys.toNat
  match e.source.toNat with
  | 0 => { s with bad := addOnce line s.bad }
  | 1 => { s with badDc := addOnce line s.badDc }
  | 2 => s.modCoreAt core fun c => { c with badGran := addOnce (bits e.addr 5 14) c.badGran }
  | 3 => s.modCoreAt core fun c => { c with badL1 := addOnce line c.badL1 }
  | 5 => s.modCoreAt core fun c => { c with badAcc := addOnce e.addr.toNat c.badAcc }
  | 6 => s.modCoreAt core fun c => { c with badOrd := addOnce e.addr.toNat c.badOrd }
  | _ => s

/-- The context that last wrote what an error names (R337): a line's, or a cold granule's. -/
def State.ownerOf (s : State) (pkg : Nat) (e : MemError) : Nat :=
  if e.source.toNat ≤ 1 then Sp.get 0 s.owners (memKey pkg e.addr.toNat / 64)
  else if e.source = 2 then { s with cur := pkg * 256 + e.phys.toNat }.granOwner (bits e.addr 5 14)
  else 0

/-- `SCRUB` (R339): what the scrubber finds is logged with the owner tag; a corrected error is gone; an uncorrectable one stays for its
readers, and under OWNER ends the context its tag names at once. DESIGN CHOICE (log 24). DEDUCED (log 49). -/
def execScrub (pkg : BitVec 10) (die : BitVec 2) (found : MemError) (s : State) : Out :=
  if Config.packages ≤ pkg.toNat then .next s
  else
    let w := s.ownerOf pkg.toNat found
    let s1 := s.logDie (pkg.toNat * 4 + die.toNat) { found with owner := ownerTag w } false
    if !found.uncorrectable then .next s1
    else
      let s2 := s1.markBad pkg.toNat found
      .next (if (s.pkgAt pkg.toNat).ownerMode found.source.toNat ∧ found.source.toNat ≤ 2 then s2.endOwner w else s2)

/-- `BANK_FAILURE` (R337): under SYMBOL the stripe is rebuilt online; its contents stand. Stripes of HBM4E, the die caches and the cold
stores are numbered 3n, 3n + 1 and 3n + 2. DESIGN CHOICE (log 24). -/
def execBankFailure (pkg : BitVec 10) (stripe : Nat) (s : State) : Out :=
  if Config.packages ≤ pkg.toNat then .next s
  else .next (s.modPkgAt pkg.toNat fun p =>
    if p.ownerMode (stripe % 3) ∨ p.rebuild.contains stripe then p else { p with rebuild := p.rebuild ++ [stripe] })

/-- `BANK_REBUILD_COMPLETE` (R337). -/
def execBankRebuildComplete (pkg : BitVec 10) (stripe : Nat) (s : State) : Out :=
  if Config.packages ≤ pkg.toNat then .next s
  else .next (s.modPkgAt pkg.toNat fun p => { p with rebuild := p.rebuild.erase stripe })

/-! ## Mirrors (R417, R418) -/

/-- `MIRROR_ACK` (R417): the oldest mirror write of the current core whose partner has not failed is acknowledged. DEDUCED (log 32). -/
def execMirrorAck (s : State) : Out :=
  match s.core.mirror.find? fun m => !(s.pkgAt m.pkg).failed with
  | some m => .next (s.modCore fun c => { c with mirror := c.mirror.erase m })
  | none => .next s

/-- `MIRROR_TIMEOUT` (R418): writes unacknowledged for 3,000 warm cycles are awaited no longer; the waits end with ERR, on
path 3 and, where a `mirwait` waits for them, on path 4, and the management cores are notified. DEDUCED (log 32). -/
def execMirrorTimeout (s : State) : Out :=
  let late := s.core.mirror.filter fun m => decide (m.warm + 3000 ≤ s.warm)
  let waits := s.core.str.taken.any fun t => !t.done && (match entryOf t.cmd with
    | some (c, _) => decide (c = .mirwait) && late.any fun m => m.entry.any fun n => decide (n < t.no)
    | none => false)
  if late.isEmpty then .next s
  else .next ((s.modCore fun c =>
    let c1 := { c with mirror := c.mirror.filter fun m => !decide (m.warm + 3000 ≤ s.warm) }
    let c2 := if late.any fun m => m.entry.isNone then c1.notePath 3 fun p => { p with err := true } else c1
    if waits then c2.notePath 4 fun p => { p with err := true } else c2).notify (pkgOf s.cur) (.mirror (BitVec.ofNat 8 s.cur)))

/-! ## Tokens, kernels, patches (R267, R280, R402, R435) -/

/-- The core of a partition that runs or holds the task a core address names (R268), for an agent outside the launch: of several launches
bound on the package, the one on the core of lowest key. The reserved bits of the address are ignored. DESIGN CHOICE (log 54). -/
def findPeer (part pkg id : Nat) : Sp Core → Option (Nat × Nat)
  | [] => none
  | (k, c) :: rest =>
    let ok := fun (sl : Slot) => sl.live && decide (sl.part = part) && decide (sl.coreId.toNat = id)
    if pkgOf k = pkg then
      if ok c.slot0 then some (k, c.slot0.launch) else if ok c.slot1 then some (k, c.slot1.launch) else findPeer part pkg id rest
    else findPeer part pkg id rest

/-- `PARKED_SPAN_HANDOVER` (R280): a span's TAINT is cleared, a PARKED span handed to a core, or both; a span that a waiting launch has
listed is not handed on (R364). No counter is pulsed (R291). -/
def execParkedSpanHandover (part : Nat) (token : BitVec 34) (peer : Option (BitVec 64)) (clearTaint : Bool) (s : State) : Out :=
  let (head, t) := (s.partAt part).headOf token.toNat
  if !t.isHead then .next s
  else
    let s1 := if clearTaint then s.modToken part head fun t => { t with taint := false } else s
    match peer with
    | none => .next s1
    | some a =>
      match findPeer part (bits a 30 10) (bits a 22 8) s.cores with
      | none => .next s1
      | some (k, launch) =>
        .next (if t.mode = .parked ∧ !(s.partAt part).listed.contains head then s1.modToken part head (grantToken (pkgOf k) (bits a 22 8) launch) else s1)

/-- The home of a region: the one the placement list gives, else the package that loads the kernel (R435). -/
def KernelImage.homeOf (k : KernelImage) (x : ImageRegion) : Nat := (x.home.getD k.loader).toNat

def KernelImage.regionOf (k : KernelImage) (x : ImageRegion) : Region :=
  { base := x.base.toNat, size := x.units * 65536, pkg := KernelImage.homeOf k x, rw := x.rw, pinned := x.pinned, mirror := x.mirror,
    keyen := false, key := 0, token := x.token.toNat, mbase := if x.mirror then x.mbase.toNat else 0 }

/-- Every preemptible loop of the code region, the order tables in it apart (R110), has its `.preempt` entry, named by the handle of
its word (R132). -/
def KernelImage.loopsDeclared (k : KernelImage) (x : ImageRegion) : Bool :=
  (List.range (x.bytes.length / 4)).all fun i =>
    k.tables.any (fun t => decide (t.1 ≤ 4 * i) && decide (4 * i < t.1 + t.2)) ||
    match decodeControl (BitVec.ofNat 32 (leNat ((x.bytes.drop (4 * i)).take 4))) with
    | .ok (.loop _ 1 _ _) => k.preempt.any fun p => decide (p.1 = handleOf k.codeIndex.toNat (4 * i))
    | _ => true

/-- The code region of an image is RO and pinned, and its preemptible loops are declared (R108, R132). -/
def KernelImage.codeOk (k : KernelImage) : Bool :=
  match k.regions.find? fun x => decide (x.index = k.codeIndex) with
  | some x => !x.rw && x.pinned && KernelImage.loopsDeclared k x
  | none => false

/-- The bytes of a region with what the loader fills in (R108): token ids of regions, and handles of labels. -/
def KernelImage.filled (k : KernelImage) (x : ImageRegion) : List Byte :=
  x.fills.foldl (fun bs f =>
    let v : Nat := match f.2 with
      | .tokid r => match k.regions.find? fun y => decide (y.index = r) with | some y => y.token.toNat | none => 0
      | .label r off => (handleOf r.toNat off).toNat
    bs.take f.1 ++ leBytes 8 v ++ bs.drop (f.1 + 8)) x.bytes

/-- An image some launch could admit, each of whose regions is a valid entry for a free index (R365, R435). -/
def State.imageLoads (s : State) (part : Nat) (k : KernelImage) : Bool :=
  KernelImage.codeOk k &&
  decide (k.matSteps ≤ 4096) && decide (k.vecOrders ≤ 4096) && decide (k.tmpOrders ≤ 512) && decide (1 ≤ k.minCores) &&
  decide (1 ≤ k.multCores) && decide ((k.minCores + k.multCores - 1) / k.multCores * k.multCores ≤ 256) &&
  k.regions.all fun x => (decodeRegion (encodeRegion (KernelImage.regionOf k x))).isSome && (s.regionOf part x.index.toNat).isNone &&
    decide (x.bytes.length ≤ x.units * 65536) && x.fills.all fun f => decide (f.1 + 8 ≤ x.bytes.length)

/-- Create one region of an image: its entry, its bytes at the home, its spans. -/
def State.createRegion (s : State) (part : Nat) (k : KernelImage) (x : ImageRegion) : State :=
  let s1 := s.setRegion part x.index.toNat (encodeRegion (KernelImage.regionOf k x))
  s1.partBytes part (memKey (KernelImage.homeOf k x) x.base.toNat) (KernelImage.filled k x)

/-- `KERNEL_LOAD` (R365, R435): refused where no launch could admit the image. -/
def execKernelLoad (part : Nat) (image : KernelImage) (s : State) : Out :=
  if !s.imageLoads part image ∨ !s.managed then .next s
  else
    let s1 := image.regions.foldl (fun s x => s.createRegion part image x) s
    .next (s1.modPartAt part fun p => { p with kernels := image :: p.kernels.filter fun k => !decide (k.codeIndex = image.codeIndex) })

/-- `CODE_PATCH` (R402): a word of an RO region of a debug partition, written at its home; caches keep their lines. -/
def execCodePatch (part : Nat) (h : BitVec 64) (w : BitVec 32) (s : State) : Out :=
  match s.locate part h 4 with
  | some (r, key) => if (s.partAt part).debug ∧ !r.rw then .next (s.partBytes part key (leBytes 4 w.toNat)) else .next s
  | none => .next s

/-- `HOST_STORE` (R361, R459): at the home when it retires. A host core that is held in reset stores nothing (R460). -/
def execHostStore (part : Nat) (h : BitVec 64) (bytes : List (BitVec 8)) (s : State) : Out :=
  .next (if s.managed then s.writeAt part h bytes else s)

/-- Every unit of [h, h + n) lies in a PARKED span of a pinned RW region: a host region (R463). An RO region has no span (R267). -/
def State.hostRange (s : State) (part : Nat) (h : Word) (n : Nat) : Option Nat :=
  match s.locate part h n with
  | some (r, key) =>
    let u := unitOf r h
    let last := unitOf r (h + word (n - 1))
    let parked := fun (i : Nat) => let t := ((s.partAt part).headOf (u + i)).2; t.isHead && decide (t.mode = .parked)
    if r.pinned ∧ r.rw ∧ (List.range (last - u + 1)).all parked then some key
    else none
  | none => none

/-- `DEVICE_DMA` (R463): a device writes, or reads, bytes of a host region at their home. -/
def execDeviceDma (part : Nat) (h : BitVec 64) (write : Option (List (BitVec 8))) (s : State) : Out :=
  match write with
  | none => .next s
  | some bs =>
    match s.hostRange part h bs.length with
    | some key => .next (s.partBytes part key bs)
    | none => .next s

/-! ## Failures (R280, R419, R440, R442) -/

/-- End the tasks of a failed core: their spans are recovered (R280). DESIGN CHOICE (log 25). -/
def State.failCore (s : State) (k : Nat) : State :=
  let end_ := fun (s : State) (i : BitVec 1) =>
    if ((s.coreAt k).slotAt i).live then (s.settleSpans k i true).endTask k i 2 0 else s
  (end_ (end_ s 0) 1).modCoreAt k fun c => { c with failed := true }

/-- `CORE_FAILURE` (R280). DESIGN CHOICE (log 25). -/
def execCoreFailure (pkg : BitVec 10) (core : BitVec 8) (s : State) : Out :=
  if Config.packages ≤ pkg.toNat then .next s else .next (s.failCore (pkg.toNat * 256 + core.toNat))

/-- A region of a failed package: its mirror takes over, or its entry is invalidated with its other fields kept (R419,
R442). -/
def failRegion (s : State) (pkg : Nat) (v : BitVec 512) : BitVec 512 :=
  match decodeRegion v with
  | some r =>
    if r.pkg ≠ pkg then v
    else if r.mirror ∧ !(s.pkgAt (pkg ^^^ 1)).failed then
      encodeRegion { r with pkg := pkg ^^^ 1, base := r.mbase, mirror := false, mbase := 0 }
    else
      let body := v.toNat % 2 ^ 480 - 2 ^ 144
      BitVec.ofNat 512 (body + (crc32 (leBytes 60 body)).toNat * 2 ^ 480)
  | none => v

/-- The tokens of a region that failed over are made anew: PARKED, TAINT 1, GEN + 1 (R419). -/
def failToken (regions : Sp (BitVec 512)) (pkg : Nat) (t : Token) : Token :=
  match decodeRegion (Sp.get 0 regions t.region) with
  | some r =>
    if r.pkg = pkg ∧ r.mirror ∧ t.isHead then { t with mode := .parked, taint := true, lvalid := false, shares := 0, gen := t.gen + 1 } else t
  | none => t

def Part.failPackage (s : State) (pkg : Nat) (p : Part) : Part :=
  { p with regions := p.regions.map fun x => (x.1, failRegion s pkg x.2),
           tokens := p.tokens.map fun x => (x.1, failToken p.regions pkg x.2) }

/-- Regions of a partition homed on a package, by index. -/
def Part.homedOn (p : Part) (pkg : Nat) : List Nat :=
  p.regions.filterMap fun x => match decodeRegion x.2 with
    | some r => if r.pkg = pkg then some x.1 else none
    | none => none

/-- Package `k` is declared failed (R442): its cores' spans are recovered, its MIRROR regions fail over, its other regions are
invalidated, even if pinned, and the translations are shot down. DESIGN CHOICE (log 25). -/
def State.failPackage (s : State) (k : Nat) : State :=
  let s1 := s.modPkgAt k fun p => { p with failed := true }
  let s2 := (s1.cores.filter fun x => decide (pkgOf x.1 = k)).foldl (fun s x => s.failCore x.1) s1
  let gone := s2.parts.flatMap fun p => (p.2.homedOn k).map fun i => (p.1, i)
  let s3 := { s2 with parts := s2.parts.map fun (p : Nat × Part) => (p.1, p.2.failPackage s2 k) }
  gone.foldl (fun s x => s.shootDown x.1 x.2) s3

/-- `PACKAGE_FAILURE` (R442): the package reports failure. -/
def execPackageFailure (pkg : BitVec 10) (s : State) : Out :=
  if Config.packages ≤ pkg.toNat then .next s else .next (s.failPackage pkg.toNat)

/-- A corrected fabric error in the bank of the die that owns the port (R440). -/
def fabricError (port : Nat) : MemError :=
  { source := 10, uncorrectable := false, addr := word port, phys := 0xFF, owner := 0, syndrome := 0 }

/-- `FLIT_CRC_FAIL` (R440): the link replays; nothing else changes. DEDUCED (log 46). -/
def execFlitCrcFail (pkg : BitVec 10) (die : BitVec 2) (port : BitVec 7) (s : State) : Out :=
  if Config.packages ≤ pkg.toNat ∨ 72 ≤ port.toNat then .next s
  else .next (s.logDie (pkg.toNat * 4 + die.toNat) (fabricError port.toNat) false)

/-- No plane reaches the package (R440): every port that is cabled has failed. -/
def Pkg.unreachable (p : Pkg) : Bool := decide (p.links ≠ 0) && decide (p.links &&& ~~~p.portsDown = 0)

/-- `PORT_FAIL` (R440): the port leaves its plane; a package that no plane reaches any more is declared failed (R442). DEDUCED (log 46). -/
def execPortFail (pkg : BitVec 10) (die : BitVec 2) (port : BitVec 7) (s : State) : Out :=
  if Config.packages ≤ pkg.toNat ∨ 72 ≤ port.toNat then .next s
  else
    let s1 := (s.modPkgAt pkg.toNat fun p => { p with portsDown := p.portsDown ||| BitVec.ofNat 72 (2 ^ port.toNat) }).logDie
      (pkg.toNat * 4 + die.toNat) (fabricError port.toNat) false
    let p := s1.pkgAt pkg.toNat
    .next (if p.unreachable ∧ !p.failed then s1.failPackage pkg.toNat else s1)

/-! ## Bring-up (R460 to R462) -/

/-- Bits set in the low `n` bits of a number. -/
def popcount : Nat → Nat → Nat
  | 0, _ => 0
  | n + 1, v => v % 2 + popcount n (v / 2)

/-- A copy of the configuration record is valid (R461). -/
def configOk (v : BitVec 512) : Bool :=
  let n := popcount 256 (bits v 64 256)
  decide (bits v 0 32 = 0x534B4346) && decide (bits v 40 8 = 0) && decide (bits v 392 88 = 0) && crcAt v.toNat 0 60 60 &&
  ((decide (bits v 32 8 = 0) && decide (n = 256)) || (decide (bits v 32 8 = 1) && decide (n = 240)))

/-- Step 5: the cabled ports that come up; it fails only if none does. -/
def Pkg.stepFive (p : Pkg) : Pkg :=
  let up := p.links &&& p.boot.ports
  { p with portsDown := p.links &&& ~~~up, boot := { p.boot with step := 5, code := if up = 0 then 5 else 0 } }

/-- Step 6: key slots, then the region and token tables, the slot tables, which stay empty, and the launch arm tables, and the classifier
(R460, R464). Of the region entries, which stand in the tables of the partitions, the package writes those homed on it. DESIGN CHOICE
(log 26). -/
def State.stepSix (s : State) (k : Nat) : State :=
  let t := (s.pkgAt k).boot.tables
  let homed := fun (v : BitVec 512) => match decodeRegion (v &&& regionFields) with
    | some r => decide (r.pkg = k)
    | none => false
  let s1 := s.modPkgAt k fun p => { p with keys := t.keys.foldl (fun m x => Sp.put m x.1.toNat (some x.2)) p.keys }
  let s2 := (t.regions.filter fun x => homed x.2.2).foldl (fun s x => s.setRegion x.1 x.2.1.toNat (x.2.2 &&& regionFields)) s1
  s2.modPkgAt k fun p =>
    { p with arms := t.arms.foldl (fun m x => Sp.put m x.1.toNat x.2.2.2) p.arms,
             armQueue := t.arms.foldl (fun m x => Sp.put m x.1.toNat (x.2.1, x.2.2.1)) p.armQueue,
             classify := t.classify.foldl (fun m x => Sp.put m x.1.toNat x.2) p.classify,
             boot := { p.boot with step := 6 } }

/-- Step 7: the host cores run from the host entry handle. -/
def Pkg.stepSeven (p : Pkg) : Pkg := { p with boot := { p.boot with step := 7, released := true } }

/-- The stage is cold enough for step 4 (R462). -/
def Pkg.coldReady (p : Pkg) : Bool := decide (p.t4 < 4400) && decide (1000 ≤ p.lift)

/-- Package `k`, if it stands in step 4 and the stage is ready, goes on through the later steps, each after the last has succeeded (R460,
R462). DEDUCED (log 27). -/
def State.stepFour (s : State) (k : Nat) : State :=
  let p := s.pkgAt k
  if p.boot.step = 4 ∧ p.boot.code = 0 ∧ p.coldReady then
    let p5 := { p with memUp := 7 }.stepFive
    let s5 := s.modPkgAt k fun _ => p5
    if p5.boot.code = 0 then (s5.stepSix k).modPkgAt k Pkg.stepSeven else s5
  else s

/-- Steps 1 to 3 of bring-up, and the start of step 4, for a package that reset at this clock. DESIGN CHOICE (log 26). -/
def bootPkg (b : BootInputs) (clock : Nat) : Pkg :=
  let stop := fun (p : Pkg) (n : Nat) => { p with boot := { p.boot with step := n, code := n } }
  let p0 : Pkg := { t4 := b.stageMilliK, lift := b.liftMilliW, flash := (b.config0, b.config1) }
  if crc32 b.firmware ≠ b.firmwareCrc then stop p0 1
  else if !configOk b.config0 ∧ !configOk b.config1 then stop p0 2
  else
    let v := if configOk b.config0 then b.config0 else b.config1
    let p1 := { p0 with grade := BitVec.ofNat 8 (bits v 32 8), number := BitVec.ofNat 16 (bits v 48 16), enable := BitVec.ofNat 256 (bits v 64 256), links := BitVec.ofNat 72 (bits v 320 72) }
    let p2 := p1.writeMemprot b.memprot
    if !b.memoryOk then stop p2 3
    else { p2 with memUp := 3, boot := { step := 4, since := clock, ports := b.portsUp, tables := b.tables, entry := b.hostEntry } }

/-- Everything of a package leaves the partitions' tables (R39). DESIGN CHOICE (log 26). -/
def Part.dropPackage (p : Part) (pkg : Nat) : Part :=
  let gone := p.homedOn pkg
  { p with
    regions := p.regions.filter fun x => !gone.contains x.1, tokens := p.tokens.filter fun x => !gone.contains x.2.region,
    queues := p.queues.filter fun x => !decide (x.2.pkg = pkg), launches := p.launches.filter fun l => !decide (l.pkg = pkg),
    nodes := p.nodes.filter fun n => !decide (n.pkg = pkg), replays := p.replays.filter fun x => !decide (x.1 = pkg) }

/-- Module reset of a package (R39, R460): its cores, dies, tables and memory are as at reset, then bring-up runs. DESIGN CHOICE (log 26). -/
def State.resetModule (s : State) (k : Nat) (b : BootInputs) : State :=
  let here := fun (d : Nat) => decide (d / 4 = k)
  State.stepFour (k := k) { s with
    cores := s.cores.filter fun x => !decide (pkgOf x.1 = k),
    dies := (List.range 4).foldl (fun m d => Sp.put m (4 * k + d) { base := s.clock }) (s.dies.filter fun x => !here x.1),
    pkgs := Sp.put s.pkgs k (bootPkg b s.clock),
    parts := s.parts.map fun (p : Nat × Part) => (p.1, p.2.dropPackage k),
    mem := s.mem.filter fun x => !decide (keyPkg x.1 = k),
    bad := s.bad.filter (fun l => !decide (keyPkg (64 * l) = k)), badDc := s.badDc.filter (fun l => !decide (keyPkg (64 * l) = k)),
    owners := s.owners.filter (fun x => !decide (keyPkg (64 * x.1) = k)),
    agenda := s.agenda.filter fun a => !decide (pkgOf a.core = k) }

/-- `MODULE_RESET` (R460). -/
def execModuleReset (pkg : BitVec 10) (boot : BootInputs) (s : State) : Out :=
  if Config.packages ≤ pkg.toNat then .next s else .next (s.resetModule pkg.toNat boot)

/-- `LOCKSTEP_MISMATCH` (R459): the module resets. -/
def execLockstepMismatch (pkg : BitVec 10) (boot : BootInputs) (s : State) : Out :=
  if Config.packages ≤ pkg.toNat then .next s else .next (s.resetModule pkg.toNat boot)

/-- `COLD_HANDSHAKE_TIMEOUT` (R462): 600 s after the start of step 4 boot fails with COLD. -/
def execColdHandshakeTimeout (pkg : BitVec 10) (s : State) : Out :=
  let p := s.pkgAt pkg.toNat
  if Config.packages ≤ pkg.toNat then .next s
  else if p.boot.step = 4 ∧ p.boot.code = 0 ∧ p.boot.since + 19200000000000 ≤ s.clock then
    .next (s.modPkgAt pkg.toNat fun p => { p with boot := { p.boot with code := 4 } })
  else .next s

end Sys2Proof.Machine
end

