-- ==== Sys2Proof/Machine/Power.lean ====
section
/-! DEFINITION. Rails and stretched periods (R448 to R451), margining of the SRAM rail (R415, R416, R452 to R454), and the
response to the stage temperature (R457, R462). Voltages are in millivolts. -/

namespace Sys2Proof.Machine

/-! ## Rails (R448, R449) -/

/-- The set point a quad rail has from reset: its nominal 500 mV, raised to the gap limit under the nominal SRAM rail. DEDUCED (log 28). -/
def railReset : Nat := 530

def Die.rail (d : Die) (q : Nat) : Nat := Sp.get railReset d.vq q

/-- A set point within the quad rail's range and the gap limit. -/
def Die.clampRail (d : Die) (mv : Nat) : Nat := max (max 400 (d.vs - 250)) (min (min 720 (d.vs + 100)) mv)

def Die.setRail (d : Die) (q mv : Nat) : Die := { d with vq := Sp.set railReset d.vq q (d.clampRail mv) }

/-- VS rises to `v`: every quad rail below v − 250 is raised first (R449). -/
def Die.raiseVs (d : Die) (v : Nat) : Die :=
  { d with vq := (List.range 16).foldl (fun m q => Sp.set railReset m q (max (Sp.get railReset m q) (v - 250))) d.vq, vs := v }

def Die.maxRail (d : Die) : Nat := (List.range 16).foldl (fun m q => max m (d.rail q)) 0

/-- `QUAD_RAIL_SET` (R448, R449): in steps of 5 mV, clamped to the limit. -/
def execQuadRailSet (pkg : BitVec 10) (die : BitVec 2) (quad : BitVec 4) (mv : Nat) (s : State) : Out :=
  if Config.packages ≤ pkg.toNat then .next s
  else .next (s.modDieAt (pkg.toNat * 4 + die.toNat) fun d => d.setRail quad.toNat (mv / 5 * 5))

/-! ## Stretched periods (R450, R451) -/

def Die.drooping (d : Die) (q : Nat) : Option (Nat × Bool) := Sp.get none d.droop q

/-- The quad's period is stretched now: a droop, a hop, or both at once. DESIGN CHOICE (log 28). -/
def Die.stretched (d : Die) (q clock : Nat) : Bool := (d.drooping q).isSome || decide (clock < Sp.get 0 d.hopTo q)

/-- `DROOP` (R450): the quad's rail falls 20 mV below its set point. -/
def execDroop (pkg : BitVec 10) (die : BitVec 2) (quad : BitVec 4) (s : State) : Out :=
  if Config.packages ≤ pkg.toNat then .next s
  else .next (s.modDieAt (pkg.toNat * 4 + die.toNat) fun d =>
    { d with droop := Sp.put d.droop quad.toNat (some ((d.drooping quad.toNat).getD (s.clock, false))) })

/-- `DROOP_RAISE` (R450): a droop stretch has lasted 2 µs; the set point rises by 10 mV within the limit, once. -/
def execDroopRaise (pkg : BitVec 10) (die : BitVec 2) (quad : BitVec 4) (s : State) : Out :=
  let k := pkg.toNat * 4 + die.toNat
  let q := quad.toNat
  if Config.packages ≤ pkg.toNat then .next s
  else match (s.dieAt k).drooping q with
  | some (t, false) =>
    if t + 64000 ≤ s.clock then
      .next (s.modDieAt k fun d => { d.setRail q (d.rail q + 10) with droop := Sp.put d.droop q (some (t, true)) })
    else .next s
  | _ => .next s

/-- `DROOP_RECOVERY` (R450): the rail is back within 10 mV of its set point. -/
def execDroopRecovery (pkg : BitVec 10) (die : BitVec 2) (quad : BitVec 4) (s : State) : Out :=
  if Config.packages ≤ pkg.toNat then .next s
  else .next (s.modDieAt (pkg.toNat * 4 + die.toNat) fun d => { d with droop := Sp.put d.droop quad.toNat none })

/-- `CLOCK_HOP` (R450): a hop of at most 40 ns begins. DESIGN CHOICE (log 28). -/
def execClockHop (pkg : BitVec 10) (die : BitVec 2) (quad : BitVec 4) (s : State) : Out :=
  if Config.packages ≤ pkg.toNat then .next s
  else
    let (t, s1) := s.draw 1279
    .next (s1.modDieAt (pkg.toNat * 4 + die.toNat) fun d => { d with hopTo := Sp.put d.hopTo quad.toNat (s.clock + 1 + t) })

/-- Hops whose end has come are counted (R454). -/
def Die.endHops (d : Die) (clock : Nat) : Die :=
  (List.range 16).foldl (fun d q =>
    let t := Sp.get 0 d.hopTo q
    if t ≠ 0 ∧ t ≤ clock then { d with hops := Sp.put d.hops q (sat16 (Sp.get 0 d.hops q + 1)), hopTo := Sp.put d.hopTo q 0 } else d) d

/-- In the second warm cycle of a stretched period, the odd one, the quad does nothing (R451). DESIGN CHOICE (log 28). -/
def Die.quiet (d : Die) (q clock : Nat) : Bool := d.stretched q clock && decide (clock / Config.coldPerWarm % 2 = 1)

/-- Stretched periods of a warm cycle are counted (R454). -/
def Die.countStretch (d : Die) (clock : Nat) : Die :=
  (List.range 16).foldl (fun d q => if d.quiet q clock then { d with str := Sp.put d.str q (sat16 (Sp.get 0 d.str q + 1)) } else d) d

/-! ## Margining (R452 to R454) -/

/-- `CESET_WRITE` (R452, R454): 1 to 65,535; in force from the next 10 ms step. -/
def execCesetWrite (pkg : BitVec 10) (die : BitVec 2) (v : BitVec 16) (s : State) : Out :=
  if Config.packages ≤ pkg.toNat then .next s
  else if v = 0 then .next s
  else .next (s.modDieAt (pkg.toNat * 4 + die.toNat) fun d => { d with ceset := v.toNat, cenew := true })

/-- One 10 ms step of a die's margin controller (R452), on the corrected errors of warm SRAM since the last one. -/
def Die.marginStep (d : Die) (clock : Nat) : Die :=
  let d1 := if d.cenew then { d with cecur := d.ceset, cenew := false } else d
  let c := d1.sram
  let d2 := { d1 with sram := 0 }
  if clock < d2.hold then d2
  else if c * 100 < d2.cecur ∧ max 620 (d2.maxRail - 100) < d2.vs then { d2 with vs := d2.vs - 5 }
  else if 2 * d2.cecur < c * 100 then d2.raiseVs (min (d2.vs + 5) 780)
  else d2

/-- `MARGIN_STEP` (R452). -/
def execMarginStep (pkg : BitVec 10) (die : BitVec 2) (s : State) : Out :=
  if Config.packages ≤ pkg.toNat then .next s
  else .next (s.modDieAt (pkg.toNat * 4 + die.toNat) fun d => d.marginStep s.clock)

/-- `CESET_RESTORE` (R453): a minute without a margin error doubles CECUR, up to CESET. -/
def execCesetRestore (pkg : BitVec 10) (die : BitVec 2) (s : State) : Out :=
  let k := pkg.toNat * 4 + die.toNat
  if Config.packages ≤ pkg.toNat then .next s
  else if (s.dieAt k).calm + 1920000000000 ≤ s.clock then
    .next (s.modDieAt k fun d => { d with cecur := min (2 * d.cecur) d.ceset, calm := s.clock })
  else .next s

/-- The controller's response to a margin error (R453): one raise and one back-off for errors within 1 µs. DEDUCED (log 29). -/
def Die.backOff (d : Die) (clock : Nat) : Die :=
  let d1 := { d with merr := min (d.merr + 1) 0xFFFFFFFF, calm := clock }
  let shared : Bool := match d.raiseAt with
    | some t => decide (clock < t + 32000)
    | none => false
  if shared then d1
  else { d1.raiseVs (min (d.vs + 25) 780) with raiseAt := some clock, hold := clock + 32000000000, cecur := max 1 (d.cecur / 2) }

/-- The entry at the head of a core's load queue, if it is a load of this line: the access that a margin error keeps from its register. -/
def State.loadOf (s : State) (line : Nat) : Option (QueueId × Nat) :=
  match s.core.headOf .load with
  | some e =>
    match e.op with
    | .load h z _ _ =>
      match s.placeQ h (sizeOf z) with
      | some (.home _ key) => if key / 64 = line then some (.load, e.seq) else none
      | _ => none
    | _ => none
  | none => none

/-- `MARGIN_ERROR` (R415, R416, R453): an uncorrectable read of warm SRAM for a core. While VS is below 0.78 V the rail rises and the
error is logged with MARGIN 1; a core whose window is open replays it, and the access, whose result has reached nothing, is performed
again there. Where that read fails too, where no window is open, and at 0.78 V, what is read stays bad, and its reader meets MEMERR by
R338, logged uncorrectable with MARGIN 0. DEDUCED (log 29). -/
def execMarginError (pkg : BitVec 10) (die : BitVec 2) (core : BitVec 6) (rereadOk : Bool) (found : MemError) (s : State) : Out :=
  let d := pkg.toNat * 4 + die.toNat
  let k := d * 64 + core.toNat
  let e : MemError := { found with phys := BitVec.ofNat 8 k }
  if Config.packages ≤ pkg.toNat then .next s
  else if 780 ≤ (s.dieAt d).vs then .next (s.markBad pkg.toNat e)
  else
    let s1 := (s.logDie d { e with uncorrectable := false, owner := 0xFFF } true).modDieAt d fun x => x.backOff s.clock
    let s2 := if rereadOk then s1 else s1.markBad pkg.toNat e
    match (s2.coreAt k).win, (s2.coreAt k).replay with
    | some w, none => .next (s2.onCore k fun t => t.startReplay w (t.loadOf (memKey pkg.toNat e.addr.toNat / 64)) false)
    | _, _ => .next (s1.markBad pkg.toNat e)

/-! ## The stage (R457, R462) -/

/-- The ceiling of a core's task, from the next window on. DEDUCED (log 27). -/
def Core.setCeiling (c : Core) (n : Nat) : Core := { c with heatCeil := n, heatNext := some n }

/-- The ceiling of a context that stands saved, from the next window on. -/
def Slot.setCeiling (sl : Slot) (n window : Nat) : Slot :=
  if sl.state = .saved ∧ !sl.copy then
    let x := sl.setArea 0x1CB0 (leBytes 8 n)
    { x with kept := { x.kept with heatNext := some (n, window) } }
  else sl

/-- Every ceiling of a package (R457): of the tasks that run and of those that stand saved. -/
def State.setCeilings (s : State) (p n : Nat) : State :=
  { s with cores := s.cores.map fun (x : Nat × Core) =>
      if pkgOf x.1 = p then
        let c := if x.2.run.isSome then x.2.setCeiling n else x.2
        (x.1, { c with slot0 := c.slot0.setCeiling n (s.windowOf x.1), slot1 := c.slot1.setCeiling n (s.windowOf x.1) })
      else x }

/-- `STAGE_TEMPERATURE` (R457, R462): the interface reports the stage and intercept temperatures and the lift. DEDUCED (log 27). -/
def execStageTemperature (pkg : BitVec 10) (t4 t50 lift : Nat) (s : State) : Out :=
  let k := pkg.toNat
  let p := s.pkgAt k
  if Config.packages ≤ k then .next s
  else
    let zero := decide (4500 < t4)
    let back := p.ceilZero && decide (t4 < 4400)
    let hot := if 4800 < t4 then true else if t4 < 4400 then false else p.hot
    let s1 := (s.modPkgAt k fun p =>
      { p with t4 := t4, t50 := t50, lift := lift, ceilZero := (p.ceilZero || zero) && !back, hot := hot,
               hotAt := if hot ∧ !p.hot then s.clock else p.hotAt }).stepFour k
    let s2 := if zero ∧ !p.ceilZero then s1.setCeilings k 0 else if back then s1.setCeilings k 48000000 else s1
    if hot ∧ !p.hot then
      .next ((s2.cores.filter fun x => decide (pkgOf x.1 = k)).foldl (fun s x => s.request x.1 false) s2)
    else .next s2

/-- `DRAIN_DEADLINE` (R457): contexts of the module that have not drained 1 ms after it went above 4.8 K are ended, and their launches
complete KILLED. -/
def execDrainDeadline (pkg : BitVec 10) (s : State) : Out :=
  let k := pkg.toNat
  let p := s.pkgAt k
  if Config.packages ≤ k then .next s
  else if !p.hot ∨ s.clock < p.hotAt + 32000000 then .next s
  else
    let late := (s.cores.filter fun x => decide (pkgOf x.1 = k) && x.2.run.isSome && !x.2.drained).map fun x => (x.2.slot.part, x.2.slot.launch)
    .next (late.eraseDups.foldl (fun s x =>
      (s.modLaunch x.1 x.2 fun l => { l with status := 3, cause := 0 }).endLaunch x.1 x.2 3 0) s)

end Sys2Proof.Machine
end

