-- ==== Sys2Proof/Machine/Dispatch.lean ====
section
/-! DEFINITION. The dispatch: one direct call of its meaning for every constructor of Instr. -/

namespace Sys2Proof.Machine

def exec (i : Instr) (s : State) : Host.Outcome State Fault Refusal :=
  match i with
  | .add sy d a b => Sys2Proof.Machine.execAdd sy d a b s
  | .sub sy d a b => Sys2Proof.Machine.execSub sy d a b s
  | .and sy d a b => Sys2Proof.Machine.execAnd sy d a b s
  | .or sy d a b => Sys2Proof.Machine.execOr sy d a b s
  | .xor sy d a b => Sys2Proof.Machine.execXor sy d a b s
  | .andn sy d a b => Sys2Proof.Machine.execAndn sy d a b s
  | .orn sy d a b => Sys2Proof.Machine.execOrn sy d a b s
  | .sll sy d a b => Sys2Proof.Machine.execSll sy d a b s
  | .srl sy d a b => Sys2Proof.Machine.execSrl sy d a b s
  | .sra sy d a b => Sys2Proof.Machine.execSra sy d a b s
  | .mul sy d a b => Sys2Proof.Machine.execMul sy d a b s
  | .mulh sy d a b => Sys2Proof.Machine.execMulh sy d a b s
  | .mulhu sy d a b => Sys2Proof.Machine.execMulhu sy d a b s
  | .div sy d a b => Sys2Proof.Machine.execDiv sy d a b s
  | .divu sy d a b => Sys2Proof.Machine.execDivu sy d a b s
  | .rem sy d a b => Sys2Proof.Machine.execRem sy d a b s
  | .remu sy d a b => Sys2Proof.Machine.execRemu sy d a b s
  | .min sy d a b => Sys2Proof.Machine.execMin sy d a b s
  | .max sy d a b => Sys2Proof.Machine.execMax sy d a b s
  | .minu sy d a b => Sys2Proof.Machine.execMinu sy d a b s
  | .maxu sy d a b => Sys2Proof.Machine.execMaxu sy d a b s
  | .slt sy d a b => Sys2Proof.Machine.execSlt sy d a b s
  | .sltu sy d a b => Sys2Proof.Machine.execSltu sy d a b s
  | .clz sy d a => Sys2Proof.Machine.execClz sy d a s
  | .ctz sy d a => Sys2Proof.Machine.execCtz sy d a s
  | .popc sy d a => Sys2Proof.Machine.execPopc sy d a s
  | .addw sy d a b => Sys2Proof.Machine.execAddw sy d a b s
  | .subw sy d a b => Sys2Proof.Machine.execSubw sy d a b s
  | .sllw sy d a b => Sys2Proof.Machine.execSllw sy d a b s
  | .srlw sy d a b => Sys2Proof.Machine.execSrlw sy d a b s
  | .sraw sy d a b => Sys2Proof.Machine.execSraw sy d a b s
  | .mulw sy d a b => Sys2Proof.Machine.execMulw sy d a b s
  | .addi sy d a im => Sys2Proof.Machine.execAddi sy d a im s
  | .andi sy d a im => Sys2Proof.Machine.execAndi sy d a im s
  | .ori sy d a im => Sys2Proof.Machine.execOri sy d a im s
  | .xori sy d a im => Sys2Proof.Machine.execXori sy d a im s
  | .slli sy d a h => Sys2Proof.Machine.execSlli sy d a h s
  | .srli sy d a h => Sys2Proof.Machine.execSrli sy d a h s
  | .srai sy d a h => Sys2Proof.Machine.execSrai sy d a h s
  | .slti sy d a im => Sys2Proof.Machine.execSlti sy d a im s
  | .sltiu sy d a im => Sys2Proof.Machine.execSltiu sy d a im s
  | .lui sy d im => Sys2Proof.Machine.execLui sy d im s
  | .addpc sy d im => Sys2Proof.Machine.execAddpc sy d im s
  | .pcmp sy p a b c => Sys2Proof.Machine.execPcmp sy p a b c s
  | .pcmpi sy c p a im => Sys2Proof.Machine.execPcmpi sy c p a im s
  | .pand sy d a b => Sys2Proof.Machine.execPand sy d a b s
  | .por sy d a b => Sys2Proof.Machine.execPor sy d a b s
  | .pxor sy d a b => Sys2Proof.Machine.execPxor sy d a b s
  | .pnot sy d a => Sys2Proof.Machine.execPnot sy d a s
  | .pmov sy d a => Sys2Proof.Machine.execPmov sy d a s
  | .sel sy d a b p => Sys2Proof.Machine.execSel sy d a b p s
  | .br sy p n o => Sys2Proof.Machine.execBr sy p n o s
  | .jal sy d im => Sys2Proof.Machine.execJal sy d im s
  | .jalr sy d a im => Sys2Proof.Machine.execJalr sy d a im s
  | .loop sy p a l => Sys2Proof.Machine.execLoop sy p a l s
  | .lexit sy p n o => Sys2Proof.Machine.execLexit sy p n o s
  | .join n => Sys2Proof.Machine.execJoin n s
  | .sendl sy a => Sys2Proof.Machine.execSendl sy a s
  | .sendr sy a => Sys2Proof.Machine.execSendr sy a s
  | .recvl sy d => Sys2Proof.Machine.execRecvl sy d s
  | .recvr sy d => Sys2Proof.Machine.execRecvr sy d s
  | .nop sy => Sys2Proof.Machine.execNop sy s
  | .brk sy => Sys2Proof.Machine.execBrk sy s
  | .cset sy c a => Sys2Proof.Machine.execCset sy c a s
  | .cget sy d c => Sys2Proof.Machine.execCget sy d c s
  | .cadd sy d a b => Sys2Proof.Machine.execCadd sy d a b s
  | .caddi sy d a im => Sys2Proof.Machine.execCaddi sy d a im s
  | .ld sy d a z im => Sys2Proof.Machine.execLd sy d a z im s
  | .st sy d a z im => Sys2Proof.Machine.execSt sy d a z im s
  | .loadPerform => Sys2Proof.Machine.execLoadPerform s
  | .loadDataReturn => Sys2Proof.Machine.execLoadDataReturn s
  | .storePerform => Sys2Proof.Machine.execStorePerform s
  | .qmark sy dep => Sys2Proof.Machine.execQmark sy dep s
  | .cwb sy dep a b => Sys2Proof.Machine.execCwb sy dep a b s
  | .cinv sy dep a b => Sys2Proof.Machine.execCinv sy dep a b s
  | .cwbinv sy dep a b => Sys2Proof.Machine.execCwbinv sy dep a b s
  | .xin sy dep d a b n m => Sys2Proof.Machine.execXin sy dep d a b n m s
  | .xinm sy dep d a b n m => Sys2Proof.Machine.execXinm sy dep d a b n m s
  | .xout sy dep d a b n m => Sys2Proof.Machine.execXout sy dep d a b n m s
  | .xput sy dep a k => Sys2Proof.Machine.execXput sy dep a k s
  | .xget sy dep d k => Sys2Proof.Machine.execXget sy dep d k s
  | .xwait sy dep d p => Sys2Proof.Machine.execXwait sy dep d p s
  | .xcancel sy dep d a => Sys2Proof.Machine.execXcancel sy dep d a s
  | .shpld sy dep a n => Sys2Proof.Machine.execShpld sy dep a n s
  | .shpst sy dep a n => Sys2Proof.Machine.execShpst sy dep a n s
  | .btld sy dep n => Sys2Proof.Machine.execBtld sy dep n s
  | .shpget sy dep d n w => Sys2Proof.Machine.execShpget sy dep d n w s
  | .shpset sy dep a n w => Sys2Proof.Machine.execShpset sy dep a n w s
  | .tstart sy dep a e => Sys2Proof.Machine.execTstart sy dep a e s
  | .tstartEv sy dep t e => Sys2Proof.Machine.execTstartEv sy dep t e s
  | .tstop sy dep e => Sys2Proof.Machine.execTstop sy dep e s
  | .tbase sy dep a e => Sys2Proof.Machine.execTbase sy dep a e s
  | .tsync sy dep e => Sys2Proof.Machine.execTsync sy dep e s
  | .tload sy dep a b e => Sys2Proof.Machine.execTload sy dep a b e s
  | .evcfg sy dep a n => Sys2Proof.Machine.execEvcfg sy dep a n s
  | .evsig sy dep n => Sys2Proof.Machine.execEvsig sy dep n s
  | .evwait sy dep a n => Sys2Proof.Machine.execEvwait sy dep a n s
  | .cptail sy dep a => Sys2Proof.Machine.execCptail sy dep a s
  | .cpseq sy dep d => Sys2Proof.Machine.execCpseq sy dep d s
  | .ownLend sy dep d a b => Sys2Proof.Machine.execOwnLend sy dep d a b s
  | .ownGive sy dep d a b => Sys2Proof.Machine.execOwnGive sy dep d a b s
  | .ownRet sy dep d a => Sys2Proof.Machine.execOwnRet sy dep d a s
  | .ownSplit sy dep d a b => Sys2Proof.Machine.execOwnSplit sy dep d a b s
  | .ownMerge sy dep d a b => Sys2Proof.Machine.execOwnMerge sy dep d a b s
  | .ownShare sy dep d a b => Sys2Proof.Machine.execOwnShare sy dep d a b s
  | .ownUnshare sy dep d a => Sys2Proof.Machine.execOwnUnshare sy dep d a s
  | .ownWait sy dep d a => Sys2Proof.Machine.execOwnWait sy dep d a s
  | .ownQuery sy dep d a => Sys2Proof.Machine.execOwnQuery sy dep d a s
  | .tokenSendComplete => Sys2Proof.Machine.execTokenSendComplete s
  | .bar sy dep d a m o k => Sys2Proof.Machine.execBar sy dep d a m o k s
  | .barrierComplete => Sys2Proof.Machine.execBarrierComplete s
  | .fence sy dep m => Sys2Proof.Machine.execFence sy dep m s
  | .aadd sy dep d a b => Sys2Proof.Machine.execAadd sy dep d a b s
  | .aaddf sy dep d a b => Sys2Proof.Machine.execAaddf sy dep d a b s
  | .axchg sy dep d a b => Sys2Proof.Machine.execAxchg sy dep d a b s
  | .a2sum sy dep d a b => Sys2Proof.Machine.execA2sum sy dep d a b s
  | .atomApply => Sys2Proof.Machine.execAtomApply s
  | .atomComplete => Sys2Proof.Machine.execAtomComplete s
  | .srd sy d x => Sys2Proof.Machine.execSrd sy d x s
  | .swr sy a x => Sys2Proof.Machine.execSwr sy a x s
  | .ecall sy dep => Sys2Proof.Machine.execEcall sy dep s
  | .tret sy dep => Sys2Proof.Machine.execTret sy dep s
  | .tack sy dep => Sys2Proof.Machine.execTack sy dep s
  | .halt sy dep => Sys2Proof.Machine.execHalt sy dep s
  | .wfi sy dep => Sys2Proof.Machine.execWfi sy dep s
  | .oeqpop sy dep d => Sys2Proof.Machine.execOeqpop sy dep d s
  | .rotpt sy dep => Sys2Proof.Machine.execRotpt sy dep s
  | .iinv sy dep => Sys2Proof.Machine.execIinv sy dep s
  | .tstatWrite v => Sys2Proof.Machine.execTstatWrite v s
  | .oeqstatWrite v => Sys2Proof.Machine.execOeqstatWrite v s
  | .heatbudWrite manager v => Sys2Proof.Machine.execHeatbudWrite manager v s
  | .injWrite v => Sys2Proof.Machine.execInjWrite v s
  | .engineCommandPerform => Sys2Proof.Machine.execEngineCommandPerform s
  | .crossingAdmit q => Sys2Proof.Machine.execCrossingAdmit q s
  | .crossingComplete seq => Sys2Proof.Machine.execCrossingComplete seq s
  | .xoutCapture seq => Sys2Proof.Machine.execXoutCapture seq s
  | .unitStall => Sys2Proof.Machine.execUnitStall s
  | .smiss => Sys2Proof.Machine.execSmiss s
  | .depto c => Sys2Proof.Machine.execDepto c s
  | .plen c => Sys2Proof.Machine.execPlen c s
  | .tableStart e => Sys2Proof.Machine.execTableStart e s
  | .termFire n => Sys2Proof.Machine.execTermFire n s
  | .engineIdle e => Sys2Proof.Machine.execEngineIdle e s
  | .mnop w => Sys2Proof.Machine.execMnop w s
  | .mma w f x g k o a b c => Sys2Proof.Machine.execMma w f x g k o a b c s
  | .mldm w d p k => Sys2Proof.Machine.execMldm w d p k s
  | .mscale w a p sy b => Sys2Proof.Machine.execMscale w a p sy b s
  | .mstore w a p k g h => Sys2Proof.Machine.execMstore w a p k g h s
  | .mzero w a => Sys2Proof.Machine.execMzero w a s
  | .mdrain w a d c => Sys2Proof.Machine.execMdrain w a d c s
  | .drainArrive => Sys2Proof.Machine.execDrainArrive s
  | .mchk w a => Sys2Proof.Machine.execMchk w a s
  | .mfix w a im j => Sys2Proof.Machine.execMfix w a im j s
  | .mcopy w a sy => Sys2Proof.Machine.execMcopy w a sy s
  | .mlda w a p k e => Sys2Proof.Machine.execMlda w a p k e s
  | .ma2s w h l sy => Sys2Proof.Machine.execMa2s w h l sy s
  | .mtile w => Sys2Proof.Machine.execMtile w s
  | .mloop w p c l => Sys2Proof.Machine.execMloop w p c l s
  | .mflag w f v => Sys2Proof.Machine.execMflag w f v s
  | .mwaits w n => Sys2Proof.Machine.execMwaits w n s
  | .mmask w q => Sys2Proof.Machine.execMmask w q s
  | .mcbt w p f c => Sys2Proof.Machine.execMcbt w p f c s
  | .vnop w => Sys2Proof.Machine.execVnop w s
  | .vadd w d a b m => Sys2Proof.Machine.execVadd w d a b m s
  | .vsub w d a b m => Sys2Proof.Machine.execVsub w d a b m s
  | .vmul w d a b m => Sys2Proof.Machine.execVmul w d a b m s
  | .vfma w d a b m => Sys2Proof.Machine.execVfma w d a b m s
  | .vmin w d a b => Sys2Proof.Machine.execVmin w d a b s
  | .vmax w d a b => Sys2Proof.Machine.execVmax w d a b s
  | .vabs w d a => Sys2Proof.Machine.execVabs w d a s
  | .vneg w d a => Sys2Proof.Machine.execVneg w d a s
  | .vcmp w a b im c => Sys2Proof.Machine.execVcmp w a b im c s
  | .vcvt w d a g x m h => Sys2Proof.Machine.execVcvt w d a g x m h s
  | .vexp2 w d a => Sys2Proof.Machine.execVexp2 w d a s
  | .vexpd w d a b => Sys2Proof.Machine.execVexpd w d a b s
  | .vlog2 w d a => Sys2Proof.Machine.execVlog2 w d a s
  | .vrcp w d a => Sys2Proof.Machine.execVrcp w d a s
  | .vrsq w d a => Sys2Proof.Machine.execVrsq w d a s
  | .viadd w d a b => Sys2Proof.Machine.execViadd w d a b s
  | .visub w d a b => Sys2Proof.Machine.execVisub w d a b s
  | .vimul w d a b => Sys2Proof.Machine.execVimul w d a b s
  | .vand w d a b => Sys2Proof.Machine.execVand w d a b s
  | .vor w d a b => Sys2Proof.Machine.execVor w d a b s
  | .vxor w d a b => Sys2Proof.Machine.execVxor w d a b s
  | .vshl w d a b => Sys2Proof.Machine.execVshl w d a b s
  | .vshr w d a b => Sys2Proof.Machine.execVshr w d a b s
  | .vsar w d a b => Sys2Proof.Machine.execVsar w d a b s
  | .vsel w d a b => Sys2Proof.Machine.execVsel w d a b s
  | .vmov w d a => Sys2Proof.Machine.execVmov w d a s
  | .vbcast w d a n => Sys2Proof.Machine.execVbcast w d a n s
  | .vperm w d a b => Sys2Proof.Machine.execVperm w d a b s
  | .vred w d a im g o => Sys2Proof.Machine.execVred w d a im g o s
  | .vscan w d a im g o => Sys2Proof.Machine.execVscan w d a im g o s
  | .vsegid w d a => Sys2Proof.Machine.execVsegid w d a s
  | .vld w d n k => Sys2Proof.Machine.execVld w d n k s
  | .vst w n b k => Sys2Proof.Machine.execVst w n b k s
  | .vldacc w d q c => Sys2Proof.Machine.execVldacc w d q c s
  | .vstacc w q b c e => Sys2Proof.Machine.execVstacc w q b c e s
  | .vparam w d k => Sys2Proof.Machine.execVparam w d k s
  | .mpush w a => Sys2Proof.Machine.execMpush w a s
  | .minv w => Sys2Proof.Machine.execMinv w s
  | .mpop w d => Sys2Proof.Machine.execMpop w d s
  | .mskz w n => Sys2Proof.Machine.execMskz w n s
  | .vloop w p c l => Sys2Proof.Machine.execVloop w p c l s
  | .vflag w n v => Sys2Proof.Machine.execVflag w n v s
  | .vwaits w n => Sys2Proof.Machine.execVwaits w n s
  | .tnop w => Sys2Proof.Machine.execTnop w s
  | .tdload w f c sy => Sys2Proof.Machine.execTdload w f c sy s
  | .tmode w c m => Sys2Proof.Machine.execTmode w c m s
  | .tmodeAll w m => Sys2Proof.Machine.execTmodeAll w m s
  | .tmodeTs w => Sys2Proof.Machine.execTmodeTs w s
  | .twset w n => Sys2Proof.Machine.execTwset w n s
  | .tlaunch w a => Sys2Proof.Machine.execTlaunch w a s
  | .temporalEvalLand => Sys2Proof.Machine.execTemporalEvalLand s
  | .tcapture w d => Sys2Proof.Machine.execTcapture w d s
  | .treset w => Sys2Proof.Machine.execTreset w s
  | .trelax w n => Sys2Proof.Machine.execTrelax w n s
  | .tflag w f v => Sys2Proof.Machine.execTflag w f v s
  | .copy e => Sys2Proof.Machine.execCopy e s
  | .copys e => Sys2Proof.Machine.execCopys e s
  | .fill e => Sys2Proof.Machine.execFill e s
  | .bcast e => Sys2Proof.Machine.execBcast e s
  | .cksum e => Sys2Proof.Machine.execCksum e s
  | .signal e => Sys2Proof.Machine.execSignal e s
  | .waitseq e => Sys2Proof.Machine.execWaitseq e s
  | .tokret e => Sys2Proof.Machine.execTokret e s
  | .link e => Sys2Proof.Machine.execLink e s
  | .mirwait e => Sys2Proof.Machine.execMirwait e s
  | .entryComplete => Sys2Proof.Machine.execEntryComplete s
  | .mirrorAck => Sys2Proof.Machine.execMirrorAck s
  | .mirrorTimeout => Sys2Proof.Machine.execMirrorTimeout s
  | .heatWindow => Sys2Proof.Machine.execHeatWindow s
  | .trapEntry cause addr => Sys2Proof.Machine.execTrapEntry cause addr s
  | .preemptionRequest rotation => Sys2Proof.Machine.execPreemptionRequest rotation s
  | .stopPoint => Sys2Proof.Machine.execStopPoint s
  | .contextSave => Sys2Proof.Machine.execContextSave s
  | .contextRestore => Sys2Proof.Machine.execContextRestore s
  | .rotation pkg die => Sys2Proof.Machine.execRotation pkg die s
  | .rotationRebind pkg die => Sys2Proof.Machine.execRotationRebind pkg die s
  | .admission part queue => Sys2Proof.Machine.execAdmission part queue s
  | .admissionRetest part => Sys2Proof.Machine.execAdmissionRetest part s
  | .taskStart slot => Sys2Proof.Machine.execTaskStart slot s
  | .graphNodeRelease part launch => Sys2Proof.Machine.execGraphNodeRelease part launch s
  | .graphReplay part queue => Sys2Proof.Machine.execGraphReplay part queue s
  | .launchCompletion part launch => Sys2Proof.Machine.execLaunchCompletion part launch s
  | .messageMatch pkg tag payload => Sys2Proof.Machine.execMessageMatch pkg tag payload s
  | .frameClassify pkg port ethertype payload => Sys2Proof.Machine.execFrameClassify pkg port ethertype payload s
  | .messageSend pkg => Sys2Proof.Machine.execMessageSend pkg s
  | .launchArmWrite pkg entry part queue v => Sys2Proof.Machine.execLaunchArmWrite pkg entry part queue v s
  | .regionEntryWrite part entry v => Sys2Proof.Machine.execRegionEntryWrite part entry v s
  | .keySlotLoad pkg slot key => Sys2Proof.Machine.execKeySlotLoad pkg slot key s
  | .memprotWrite pkg v => Sys2Proof.Machine.execMemprotWrite pkg v s
  | .errorBankClear pkg v => Sys2Proof.Machine.execErrorBankClear pkg v s
  | .cesetWrite pkg die v => Sys2Proof.Machine.execCesetWrite pkg die v s
  | .scrub pkg die found => Sys2Proof.Machine.execScrub pkg die found s
  | .marginStep pkg die => Sys2Proof.Machine.execMarginStep pkg die s
  | .marginError pkg die core rereadOk found => Sys2Proof.Machine.execMarginError pkg die core rereadOk found s
  | .cesetRestore pkg die => Sys2Proof.Machine.execCesetRestore pkg die s
  | .droop pkg die quad => Sys2Proof.Machine.execDroop pkg die quad s
  | .droopRaise pkg die quad => Sys2Proof.Machine.execDroopRaise pkg die quad s
  | .clockHop pkg die quad => Sys2Proof.Machine.execClockHop pkg die quad s
  | .stageTemperature pkg t4 t50 lift => Sys2Proof.Machine.execStageTemperature pkg t4 t50 lift s
  | .drainDeadline pkg => Sys2Proof.Machine.execDrainDeadline pkg s
  | .flitCrcFail pkg die port => Sys2Proof.Machine.execFlitCrcFail pkg die port s
  | .portFail pkg die port => Sys2Proof.Machine.execPortFail pkg die port s
  | .packageFailure pkg => Sys2Proof.Machine.execPackageFailure pkg s
  | .coreFailure pkg core => Sys2Proof.Machine.execCoreFailure pkg core s
  | .moduleReset pkg boot => Sys2Proof.Machine.execModuleReset pkg boot s
  | .coldHandshakeTimeout pkg => Sys2Proof.Machine.execColdHandshakeTimeout pkg s
  | .lockstepMismatch pkg boot => Sys2Proof.Machine.execLockstepMismatch pkg boot s
  | .wfiTimeout => Sys2Proof.Machine.execWfiTimeout s
  | .tlbWalkReturn => Sys2Proof.Machine.execTlbWalkReturn s
  | .launchKill part launch => Sys2Proof.Machine.execLaunchKill part launch s
  | .parkedSpanHandover part token peer clearTaint => Sys2Proof.Machine.execParkedSpanHandover part token peer clearTaint s
  | .kernelLoad part image => Sys2Proof.Machine.execKernelLoad part image s
  | .codePatch part h word => Sys2Proof.Machine.execCodePatch part h word s
  | .hostStore part h bytes => Sys2Proof.Machine.execHostStore part h bytes s
  | .deviceDma part h write => Sys2Proof.Machine.execDeviceDma part h write s
  | .quadRailSet pkg die quad mv => Sys2Proof.Machine.execQuadRailSet pkg die quad mv s
  | .droopRecovery pkg die quad => Sys2Proof.Machine.execDroopRecovery pkg die quad s
  | .bankFailure pkg stripe => Sys2Proof.Machine.execBankFailure pkg stripe s
  | .bankRebuildComplete pkg stripe => Sys2Proof.Machine.execBankRebuildComplete pkg stripe s

end Sys2Proof.Machine
end

