-- ==== Sys2Proof/Machine/Issue.lean ====
section
/-! DEFINITION. Fetch (R73, R126, R329), decode at issue with its substitution (R88, R403), and the issue of a split
cluster and of the joined group (R74 to R76, R89, R399). -/

namespace Sys2Proof.Machine

/-! ## Fetch -/

/-- Memory key of the bundle at `pc`, if the running code may fetch from there (R126): the code region of the task's
kernel; in a handler, every pinned RO region of the partition. DESIGN CHOICE (log 11). -/
def State.codeAt (s : State) (pc : Word) : Option Nat :=
  match s.locate s.partNo pc 16 with
  | none => none
  | some (r, key) =>
    let ok := if s.core.inHandler then r.pinned && !r.rw else decide (regionIdx pc = regionIdx s.core.slot.code)
    if ok then some (key / 16 * 16) else none

/-- What the instruction cache answers (R73, R329): a bundle; a line to be filled first; or a target outside the permitted
regions. -/
inductive Fetched where
  | bundle (b : BitVec 128)
  | miss (key : Nat)
  | outside
  deriving DecidableEq, Repr

def State.fetch (s : State) (pc : Word) : Fetched :=
  match s.codeAt pc with
  | none => .outside
  | some key =>
    match s.core.l1i.find? fun l => decide (l.1 = key / 64) with
    | some l => .bundle (l.2.extractLsb' (8 * (key % 64)) 128)
    | none => .miss key

/-- Lines of the L1 instruction cache (R19). -/
def codeLines : Nat := 1024

/-- Fill an instruction line, in place of the oldest once the cache is full; the clusters that wait for it try again later. A line
that cannot be read raises MEMERR at the word (R338), and is logged where it lies (R412). DESIGN CHOICE (log 8). -/
def State.fillCode (s : State) (key : Nat) (ls : List Lane) : State :=
  let a := key / 64
  if s.badAt (a * 64) 64 then s.metBad a fun t => t.raise 0x1B (word a)
  else
    let (t, s1) := s.draw 4095
    s1.modCore fun c =>
      let c1 : Core := { c with l1i := ((a, BitVec.ofNat 512 (leNat (s.bytes (a * 64) 64))) :: c.l1i).take codeLines }
      c1.modClusters fun l x => if ls.contains l then { x with readyAt := s.warm + 1 + t } else x

/-! ## Decode at issue -/

/-- The 32 bits a cluster decodes: its lane of the bundle, or TSCRATCH where a trap return substitutes it (R73, R403). DEDUCED (log 34). -/
def State.laneBits (s : State) (b : BitVec 128) : Word32 :=
  if s.core.substAt = some s.wordHandle then s.core.tscratch.truncate 32 else b.extractLsb' (32 * laneIdx s.lane) 32

/-- The word of the current cluster, or the trap of an undefined pattern or a cluster that may not issue it (R88, R89). -/
def State.decodeLane (s : State) (b : BitVec 128) : Except Nat Instr :=
  match decodeControl (s.laneBits b) with
  | .error _ => .error 0x01
  | .ok i =>
    match i.lanes with
    | none => .ok i
    | some ls => if ls.contains s.lane then .ok i else .error 0x02

/-- A word a pending request does not let issue (R399): `rotpt`, `loop.p`, or a `halt` once another cluster has stopped; a
`halt` reached first ends the task. DEDUCED (log 17). -/
def Core.stopWord (c : Core) (l : Lane) (i : Instr) : Bool :=
  c.stopping &&
    (match i with
     | .rotpt _ _ => true
     | .loop _ p _ _ => decide (p = 1)
     | .halt _ _ => lanes.any fun k => !decide (k = l) && (c.cluster k).stopped
     | _ => false)

/-- The code that runs on the current core is no longer what it was: a trap, the end of the task, or a replay. -/
def State.diverted (s t : State) : Bool :=
  !(decide (t.core.run = s.core.run) && decide (t.core.inHandler = s.core.inHandler) && decide (t.core.nested = s.core.nested) &&
    decide (t.core.replay.isSome = s.core.replay.isSome))

/-- A substituted word that has been performed is not substituted again (R403). DEDUCED (log 34). -/
def State.endSubst (s t : State) : State :=
  if s.core.substAt = some s.wordHandle ∧ !s.diverted t ∧ t.cl.since.isNone ∧ t.cl.wait = .none then
    t.modCore fun c => { c with substAt := none, emulate := false }
  else t

/-! ## A split cluster -/

/-- A cluster in SPLIT mode issues its next word (R75). -/
def State.issueSplit (s : State) : Out :=
  match s.fetch s.cl.pc with
  | .outside => .next (s.wordTrap 0x08 s.cl.pc)
  | .miss key => .next (s.fillCode key [s.lane])
  | .bundle b =>
    match s.decodeLane b with
    | .error code => .next (s.wordTrap code s.wordHandle)
    | .ok i =>
      if s.core.stopWord s.lane i then .next (s.modCl fun x => { x with stopped := true })
      else match exec i s with
        | .next t => .next (s.endSubst t)
        | o => o

/-! ## The joined group -/

/-- The clusters of the joined group: those in JOINED mode at the bundle of the first of them (R74). DEDUCED (log 12). -/
def Core.group (c : Core) : List Lane :=
  match lanes.find? fun l => !(c.cluster l).split with
  | some l => lanes.filter fun k => !(c.cluster k).split && decide ((c.cluster k).pc = (c.cluster l).pc)
  | none => []

/-- What a word of the joined bundle would do now. -/
inductive Verdict where
  | done | waits | holds | trap
  deriving DecidableEq, Repr

def State.verdict (s t : State) (l : Lane) : Verdict :=
  if s.diverted t then .trap
  else if (t.core.cluster l).done then .done
  else if (t.core.cluster l).wait ≠ .none then .waits
  else .holds

/-- Run these words one after the other, in lane order, up to one that traps. DEDUCED (log 9). -/
def runWords : List (Lane × Instr) → State → Out
  | [], s => .next s
  | (l, i) :: rest, s =>
    match exec i { s with lane := l } with
    | .next t => if s.diverted t then .next t else runWords rest (State.endSubst { s with lane := l } t)
    | o => o

/-- What each word would do on its own. -/
def judge (s : State) : List (Lane × Instr) → Except Out (List (Lane × Instr × Verdict))
  | [] => .ok []
  | (l, i) :: rest =>
    match exec i { s with lane := l } with
    | .next t =>
      match judge s rest with
      | .ok vs => .ok ((l, i, State.verdict { s with lane := l } t l) :: vs)
      | .error o => .error o
    | o => .error o

/-- Words that trap as soon as they are decoded (R88): `brk`, and an unassigned system register. DEDUCED (log 12). -/
def trapsOnDecode (i : Instr) : Option Nat :=
  match i with
  | .brk _ => some 0x03
  | .srd _ _ x => if sysAssigned x.toNat then none else some 0x05
  | .swr _ _ x => if sysAssigned x.toNat then none else some 0x05
  | _ => none

/-- Decode the group's words in lane order: the lowest lane that traps on decode is reported (R89). DEDUCED (log 12). -/
def State.decodeGroup (s : State) (b : BitVec 128) : List Lane → Except Out (List (Lane × Instr))
  | [] => .ok []
  | l :: rest =>
    let s1 := { s with lane := l }
    match s1.decodeLane b with
    | .error code => .error (.next (s1.wordTrap code s1.wordHandle))
    | .ok i =>
      match trapsOnDecode i with
      | some code => .error (.next (s1.wordTrap code s1.wordHandle))
      | none =>
        match s.decodeGroup b rest with
        | .ok is => .ok ((l, i) :: is)
        | .error o => .error o

/-- Two `loop` words with S = 1 in one joined bundle (R127). -/
def twoLoops (is : List (Lane × Instr)) : Bool :=
  decide (1 < (is.filter fun x => match x.2 with | .loop s _ _ _ => decide (s = 1) | _ => false).length)

/-- The word awaits operations of its own bundle as well (R184). -/
def awaitsBundle : Instr → Bool
  | .xwait _ _ _ _ => true
  | _ => false

/-- The word writes a shape register: the readers of its bundle see the old record (R191). -/
def writesShape : Instr → Bool
  | .shpld _ _ _ _ => true
  | .shpset _ _ _ _ _ => true
  | _ => false

/-- The word takes effect at the boundary of its bundle, once every other word of it has been performed (R153 to R155). -/
def endsBundle : Instr → Bool
  | .ecall _ _ => true
  | .tret _ _ => true
  | .halt _ _ => true
  | _ => false

/-- Every word of the bundle can be performed, or is an `xwait` that waits for them: they are, those that end it only when none waits,
and the group goes on (R74, R76, R153, R184). A word that the others leave no room for holds the bundle. DEDUCED (log 9). -/
def State.performGroup (s : State) (pc : Word) (ls : List Lane) (is : List (Lane × Instr)) : Out :=
  let now := is.filter fun x => !endsBundle x.2
  let first := runWords ((now.filter fun x => !writesShape x.2) ++ now.filter fun x => writesShape x.2) s
  let r : Out := match first with
    | .next t =>
      if s.diverted t ∨ now.any (fun x => !(t.core.cluster x.1).done) then .next t else runWords (is.filter fun x => endsBundle x.2) t
    | o => o
  match r with
  | .next t =>
    let late := now.filter fun x => !(t.core.cluster x.1).done
    if s.diverted t then .next t
    else if late.any fun x => !awaitsBundle x.2 then .next (late.foldl (fun s x => State.waitAtIssue { s with lane := x.1 }) s)
    else if t.core.brconf ls t.warm then .next (State.wordTrap { s with lane := ls.headD .L } 0x10 pc)
    else if late.isEmpty then .next (t.retireBundle ls)
    else .next t
  | o => o

/-- The joined group issues its bundle (R74). While a word cannot issue, none is performed and none traps; words already
waiting go on waiting; once no word is held up, the waits that words issue by begin; once none but an `xwait` waits, the lowest lane
that traps is reported, or the bundle is performed. DEDUCED (log 9). -/
def State.issueGroup (s : State) : Out :=
  let ls := s.core.group
  let pc := (s.core.cluster (ls.headD .L)).pc
  let s0 := { s with lane := ls.headD .L }
  if ls.isEmpty ∨ ls.any (fun l => decide (s.warm < (s.core.cluster l).readyAt)) then .next s
  else match s0.fetch pc with
  | .outside => .next (s0.wordTrap 0x08 pc)
  | .miss key => .next (s0.fillCode key ls)
  | .bundle b =>
    match s.decodeGroup b (ls.filter fun l => !(s.core.cluster l).done) with
    | .error o => o
    | .ok is =>
      if is.any fun x => s.core.stopWord x.1 x.2 then
        .next (s.modCore fun c => c.modClusters fun l x => if ls.contains l then { x with stopped := true } else x)
      else match judge s is with
      | .error o => o
      | .ok vs =>
        let held := vs.filter fun x => decide (x.2.2 = .holds)
        let waits := vs.filter fun x => decide (x.2.2 = .waits) && !awaitsBundle x.2.1
        let begun := waits.filter fun x => decide ((s.core.cluster x.1).wait ≠ .none)
        if !held.isEmpty then runWords ((held ++ begun).map fun x => (x.1, x.2.1)) s
        else if !waits.isEmpty then runWords (waits.map fun x => (x.1, x.2.1)) s
        else if twoLoops is then .next (s0.wordTrap 0x10 pc)
        else match vs.find? fun x => decide (x.2.2 = .trap) with
          | some (l, i, _) => exec i { s with lane := l }
          | none => s.performGroup pc ls is

/-- The current core issues words: a task runs, and no stop request has drained the core. Clusters of their own go on in the
warm cycle of an `ecall` (R153). -/
def Core.issues (c : Core) : Bool := c.run.isSome && !c.drained

/-- A cluster, or the joined group, takes its turn in a warm cycle. A core that halts waits for its drain (R155). -/
def State.issue (s : State) (l : Lane) (group : Bool) : Out :=
  let s1 := { s with lane := l }
  if !s.core.issues then .next s
  else if s.core.halting then exec (.halt 1 0) s1
  else if group then s.issueGroup
  else if !s1.cl.split ∨ s.warm < s1.cl.readyAt then .next s
  else s1.issueSplit

end Sys2Proof.Machine
end

