-- ==== Sys2Proof/Machine/Clock.lean ====
section
/-! DEFINITION. Time: what a cold cycle and a warm cycle hold in store (R3, R13), the order in which it happens, one action
of it, and how an instruction is put where the next step takes it. -/

namespace Sys2Proof.Machine

/-! ## One action -/

/-- The engine issues its next step, or a filler (R90); a stalled die issues fillers (R172). -/
def State.engineCycle (s : State) (e : EngineId) : Out :=
  let x := s.core.engine e
  if (s.dieAt (dieOf s.cur)).stalled ∨ !x.run ∨ s.core.held then .next s
  else if x.fill ≠ 0 then .next (s.filler e)
  else s.issueOrder exec e

/-- The string may be taken from now (R314, R286). -/
def State.takes (s : State) : Bool :=
  let t := s.core.str
  s.core.run.isSome && t.hset && t.avail && !t.halt && !s.fencedString && !s.core.stringStands &&
    decide (s.core.outstanding < Config.outstanding)

/-- The copy engine turns to the current core's string: it asks for a translation it still lacks (R332), takes the next entry, or halts
the string at it (R314). -/
def State.takeNext (s : State) : Out :=
  if !s.takes then .next s
  else match s.nextWalk with
    | (some i, held) => .next ((s.translated held).walkFor (engineKey s.cur) (4096 * s.partNo + i))
    | (none, _) =>
      let no := s.core.str.takes + 1
      match s.readEntry with
      | .ok i => exec i s
      | .error st =>
        let t := s.core.str
        -- an entry that a kill marker retires is not checked (R131)
        if t.retired ∧ !t.cancel.any (fun x => decide (x.1 = t.head)) then
          .next (s.takeRetired (.fill { flags := 0, len := 0, src := 0, dst := 0, aux := 0, seed := 0, expect := 0, arg := 0 }) (t.head + 64))
        else if st = 9 then .next (s.haltBad (s.tableBad s.core.str.head 64) no) else .next (s.haltString st no)

/-- The core whose string the copy engine of quad `q` serves next (R314): the first from the one whose turn it is that is not
skipped. -/
def State.turnOf (s : State) (q : Nat) : Option Nat :=
  let t := Sp.get 0 (s.dieAt (dieOf (4 * q))).turns q
  ((List.range 4).map fun i => 4 * q + (t + i) % 4).find? fun k => State.takes { s with cur := k }

/-- The copy engine of quad `q` serves one string, and the turn passes on. DEDUCED (log 40). -/
def State.serve (s : State) (q : Nat) : Out :=
  match s.turnOf q with
  | none => .next s
  | some k => State.takeNext ({ s with cur := k }.modDieAt (dieOf k) fun d => { d with turns := Sp.set 0 d.turns q ((k + 1) % 4) })

/-- Steps of an engine's schedule, which a stalled die does not take (R172). -/
def scheduled (i : Instr) : Bool :=
  match i with
  | .tableStart _ | .termFire _ | .engineIdle _ => true
  | _ => false

/-- Writes of the current core come to their homes ahead of the last moment the rules give (R328, R360): the bytes of one dirty L1 line,
which stays, clean; a part of what a taken string entry writes, and of a captured xout. DEDUCED (log 8). -/
def State.ahead (s : State) : State :=
  let (i, s1) := s.draw s.core.l1d.length
  let s2 := match s1.core.l1d[i]? with
    | some l => s1.cleanLines s1.warm fun x => decide (x.addr = l.addr)
    | none => s1
  s2.beginEntry.putAhead

/-- What an action does on its core. -/
def State.doAction (s : State) (a : Action) : Out :=
  let s1 := { s with cur := a.core }
  match a.what with
  | .issue l group => s1.issue l group
  | .land => .next s1.landAll
  | .order e => s1.engineCycle e
  | .take => s1.serve (a.core / 4)
  | .ahead => .next s1.ahead
  | .event i => if scheduled i ∧ (s.dieAt (dieOf a.core)).stalled then .next s1 else exec i s1

/-- Place of a TCAUSE in the order in which faults that meet are reported (R386): schedule, engine, queue, word; engines in the order
matrix, vector, temporal, and words in lane order. -/
def faultRank (cause : Nat) : Nat :=
  let cls := cause / 2 ^ 14 % 4
  4 * (3 - cls) + if cls = 1 then 0 else cause / 2 ^ 12 % 4

/-- Core `k` takes a trap between two states: the place of that trap. A double fault ends its task, and leaves its record in slot 1
(R393). -/
def trapTaken (k : Nat) (s t : State) : Option Nat :=
  let c := s.coreAt k
  let d := t.coreAt k
  if d.level = c.level + 1 then some (faultRank (d.areaNat (if c.inHandler then 0x100 else 0) 8))
  else if c.run.isSome ∧ d.run.isNone ∧ c.recs ≠ d.recs ∧ d.areaNat 0x100 1 = 0x1D then some (faultRank (d.areaNat 0x100 8))
  else none

/-- Where the action would take a trap of its core: the place of that trap. -/
def State.faultOf (s : State) (a : Action) : Option Nat :=
  match s.doAction a with
  | .next t => trapTaken a.core s t
  | _ => none

/-! ## A cold cycle -/

def ev (k : Nat) (i : Instr) : Action := { core := k, what := .event i }
def evs (n k : Nat) (i : Instr) : List Action := List.replicate n (ev k i)

/-- Crossings of which a part, or the last byte, is in place by now (R170, R173). -/
def Core.completions (c : Core) (k clock : Nat) : List Action :=
  let by_ := fun (t : Option Nat) => match t with | some t => decide (t ≤ clock) | none => false
  (c.xings.filter fun x => by_ x.due || by_ x.early).map fun x => ev k (.crossingComplete (BitVec.ofNat 32 x.seq))

/-- The captures of a core, which see all that lands in the cycle (R171). -/
def Core.captures (c : Core) (k : Nat) : List Action :=
  (c.xings.filter fun x => decide (x.kind = 2) && x.captured.isNone).map fun x => ev k (.xoutCapture (BitVec.ofNat 32 x.seq))

/-- The engines of a core: starts, a step and idle pulses of each (R141 to R148). -/
def engineActs (k : Nat) : List Action :=
  engines.flatMap fun e => [ev k (.tableStart e), { core := k, what := .order e }, ev k (.engineIdle e)]

/-- The armed terms of a core, in ascending index (R292). -/
def Core.termActs (c : Core) (k : Nat) : List Action :=
  ((List.range 16).filter c.termArmed).map fun n => ev k (.termFire (BitVec.ofNat 4 n))

/-- The cores that run a task. -/
def State.running (s : State) : List (Nat × Core) := s.cores.filter fun x => x.2.run.isSome

/-- The agenda of a cold cycle, but for the terms: crossings, stalls, the engines' own results, then drains, atoms and evaluations of
every core, which follow them (R215, R289, R297), captures, and the engines. DESIGN CHOICE (log 3). -/
def State.coldActs (s : State) : List Action :=
  let rs := s.running
  rs.flatMap (fun x => x.2.completions x.1 s.clock) ++
  ((rs.map fun x => dieOf x.1).eraseDups.map fun d => ev (64 * d) .unitStall) ++
  rs.map (fun x => ev x.1 .smiss) ++
  rs.map (fun x => { core := x.1, what := .land }) ++
  rs.flatMap (fun x => evs x.2.drains.length x.1 .drainArrive) ++
  rs.flatMap (fun x => evs x.2.atoms.length x.1 .atomApply) ++
  rs.flatMap (fun x => if x.2.cold.eval.isSome then [ev x.1 .temporalEvalLand] else []) ++
  rs.flatMap (fun x => x.2.captures x.1) ++
  rs.flatMap fun x => engineActs x.1

/-- The tests of the armed terms, which see every increment of the cycle (R292). -/
def State.termActs (s : State) : List Action := s.running.flatMap fun x => x.2.termActs x.1

/-- The next cold cycle begins: SCNT of a stalled die stands (R172). -/
def State.nextCycle (s : State) : State :=
  { s with
    clock := s.clock + 1,
    dies := s.dies.map fun (x : Nat × Die) => (x.1, if x.2.stalled then { x.2 with frozen := x.2.frozen + 1 } else x.2) }

/-! ## The fault that is reported (R386) -/

/-- Run the actions of a cold cycle for what they would do: whether core `k` takes a trap whose place comes before `x`, and the state
they leave. An action that would take another trap of the core goes unperformed. -/
def State.lookOn (k x : Nat) (s : State) (as : List Action) : Bool × State :=
  as.foldl (fun r a =>
    if r.1 then r
    else match r.2.doAction a with
      | .next t => match trapTaken k r.2 t with
        | some y => (decide (y < x), r.2)
        | none => (false, t)
      | _ => r) (false, s)

/-- In what is left of the warm cycle, of which `n` cold cycles may be left, core `k` would take a trap whose place comes before `x`. -/
def State.meetsLater (k x : Nat) : Nat → State → Bool
  | 0, _ => false
  | n + 1, s =>
    let t := s.nextCycle
    if t.clock % Config.coldPerWarm = 0 then false
    else
      let r := t.lookOn k x (t.coldActs ++ t.termActs)
      r.1 || State.meetsLater k x n r.2

/-- The action would take a trap that is not the one R386 reports: in the same warm cycle another action of its core would take one that
comes before it. DEDUCED (log 42). -/
def State.yields (s : State) (a : Action) : Bool :=
  match s.faultOf a with
  | none => false
  | some x =>
    let r := s.lookOn a.core x s.agenda
    decide (0 < x) && (r.1 || State.meetsLater a.core x Config.coldPerWarm r.2)

/-- One action, on its core. One whose trap is not reported goes unperformed, and raises it again when it is reissued (R386). -/
def State.act (s : State) (a : Action) : Out :=
  if s.yields a then .next { s with cur := a.core } else s.doAction a

/-! ## A warm cycle

A step marked `true` takes place or not, by a free choice: the spec bounds its time and does not fix it. -/

def must (a : Action) : Bool × Action := (false, a)
def may (a : Action) : Bool × Action := (true, a)

/-- The entry at the head of the load queue of core `k` is an L1 hit that entered behind an empty queue: its time is fixed (R114). -/
def State.hitsAlone (s : State) (k : Nat) (e : QEntry) : Bool :=
  let s1 := { s with cur := k }
  (match s1.core.lqWarm with | none => true | some w => decide (w ≤ e.warm)) &&
  (match e.op with
   | .load h z _ _ => (match s1.placeQ h (sizeOf z) with
     | some (.home _ key) => s1.cached (key / 64)
     | some (.area _) => true
     | none => true)
   | _ => false)

/-- The head of the load queue (0) or store queue (1) of core `k` is performed in this warm cycle: it may stand there for a free time,
within what DB allows the queues (R379). -/
def State.headDue (s : State) (k n : Nat) (c : Core) : Bool :=
  match c.headOf (if n = 0 then .load else .store) with
  | some e => decide (e.warm + Config.shadowWait + (if n = 0 ∧ s.hitsAlone k e then 0 else Config.lag k n e.seq % 32) ≤ s.warm)
  | none => false

/-- The queue heads: loads and stores in a free order, then the heat tests in theirs (R138, R427). DESIGN CHOICE (log 8). -/
def State.headActs (s : State) (k : Nat) (c : Core) : List Action :=
  let ld := if s.headDue k 0 c then [ev k .loadPerform] else []
  let st := if s.headDue k 1 c then [ev k .storePerform] else []
  (if Config.loadFirst k s.warm then ld ++ st else st ++ ld) ++
  [ev k (.crossingAdmit .load), ev k (.crossingAdmit .store), ev k (.crossingAdmit .engine), ev k .engineCommandPerform]

/-- The queue heads, the string and the words' own events of a running core. DEDUCED (log 35). -/
def State.coreActs (s : State) (k : Nat) (c : Core) : List (Bool × Action) :=
  let d := s.dieAt (dieOf k)
  let walks := (d.walks.filter fun w => decide (w.1 = k ∨ w.1 = engineKey k)).length
  let late := c.mirror.any fun m => decide (m.warm + 2999 ≤ s.warm) && !(s.pkgAt m.pkg).failed
  (if d.quiet (k / 4 % 16) s.clock then [] else (s.headActs k c).map must) ++
  (evs c.back.length k .loadDataReturn).map must ++ (evs walks k .tlbWalkReturn).map must ++
  (evs c.sends.length k .tokenSendComplete).map must ++ (evs c.atoms.length k .atomComplete).map must ++
  (if c.bar.isSome then [must (ev k .barrierComplete)] else []) ++
  (evs c.str.taken.length k .entryComplete).map must ++
  (if c.mirror.isEmpty then [] else [must (ev k .mirrorTimeout), (!late, ev k .mirrorAck)]) ++
  (if c.l1d.any (fun l => decide (l.mask ≠ 0)) ∨ !c.str.taken.isEmpty ∨ c.xings.any (fun x => x.captured.isSome) then
    [may { core := k, what := .ahead }] else []) ++
  [must (ev k .wfiTimeout)] ++
  (lanes.flatMap fun l => [must (ev k (.plen l)), must (ev k (.depto l))]) ++
  (if c.preempt.isSome then [must (ev k .stopPoint), must (ev k .contextSave)] else [])

/-- The copy engines: each may serve a few strings, in turn (R314). -/
def State.takeActs (s : State) : List (Bool × Action) :=
  let qs := (s.running.map fun x => x.1 / 4).eraseDups
  (qs.filter fun q => !(s.dieAt (dieOf (4 * q))).quiet (q % 16) s.clock).flatMap fun q =>
    List.replicate 4 (may { core := 4 * q, what := .take })

/-- The word that cluster `l` of core `k` issues next satisfies `p`. -/
def State.nextWord (s : State) (k : Nat) (l : Lane) (p : Instr → Bool) : Bool :=
  let t := { s with cur := k, lane := l }
  match t.fetch t.cl.pc with
  | .bundle b => match t.decodeLane b with
    | .ok i => p i
    | .error _ => false
  | _ => false

/-- The word increments an event counter as it issues, and enters no queue. -/
def pulses : Instr → Bool
  | .evsig _ _ _ => true
  | .xcancel _ _ _ _ => true
  | _ => false

def subtracts : Instr → Bool
  | .evwait _ _ _ _ => true
  | _ => false

/-- Words issue on a running core: the joined group, then the clusters on their own (R74, R75); a cluster on its own whose word
increments a counter goes first, so that the increment comes before the subtractions of K (R292). -/
def State.issueActs (s : State) (k : Nat) (c : Core) : List (Bool × Action) :=
  if (s.dieAt (dieOf k)).quiet (k / 4 % 16) s.clock then []
  else
    let own := fun (l : Lane) => must { core := k, what := .issue l false }
    let (first, others) := (lanes.filter fun l => (c.cluster l).split).partition fun l => s.nextWord k l pulses
    first.map own ++
    (if lanes.any fun l => !(c.cluster l).split then [must { core := k, what := .issue .L true }] else []) ++
    others.map own

/-- A core resumes a saved context as soon as it can, and starts a bound one in the first warm cycle that its START and the core
allow; a stamped node is checked at its START whatever the core runs (R369, R375, R377, R401). DEDUCED (log 35). -/
def State.bindActs (s : State) (k : Nat) (c : Core) : List (Bool × Action) :=
  let start := fun (i : BitVec 1) =>
    let sl := c.slotAt i
    if sl.state = .bound ∧ startReached sl (s.scntOf (dieOf k)) then [must (ev k (.taskStart i))] else []
  (if c.resumable.isSome then [must (ev k .contextRestore)] else []) ++ start 0 ++ start 1

/-- Timed steps of a die: margining, rotation, droops (R450 to R456). -/
def State.dieActs (s : State) (p d : Nat) : List (Bool × Action) :=
  let x := s.dieAt (4 * p + d)
  let w := (s.clock - x.base) / Config.coldPerWarm
  let pk := BitVec.ofNat 10 p
  let dk := BitVec.ofNat 2 d
  let k := 256 * p + 64 * d
  (if w % 20000000 = 0 ∧ w ≠ 0 then [must (ev k (.marginStep pk dk))] else []) ++
  (if x.calm + 1920000000000 ≤ s.clock then [must (ev k (.cesetRestore pk dk))] else []) ++
  (if w % 8000000 = 0 ∧ w ≠ 0 then [must (ev k (.rotation pk dk))] else []) ++
  (if !x.rotating.isEmpty then [must (ev k (.rotationRebind pk dk))] else []) ++
  (List.range 16).filterMap fun q => match x.drooping q with
    | some (t, false) => if t + 64000 ≤ s.clock then some (must (ev k (.droopRaise pk dk (BitVec.ofNat 4 q)))) else none
    | _ => none

/-- The heat windows that begin: each before anything of its first warm cycle is tested against its budget (R426, R430). -/
def State.windowActs (s : State) : List Action :=
  s.pkgs.filterMap fun x =>
    let w := (s.clock - (s.dieAt (4 * x.1)).base) / Config.coldPerWarm
    if w % Config.windowWarm = 0 ∧ w ≠ 0 then some (ev (256 * x.1) .heatWindow) else none

/-- Timed steps of a package (R446, R457, R462). -/
def State.pkgActs (s : State) (p : Nat) (x : Pkg) : List (Bool × Action) :=
  let pk := BitVec.ofNat 10 p
  let k := 256 * p
  (if x.hot ∧ x.hotAt + 32000000 ≤ s.clock then [must (ev k (.drainDeadline pk))] else []) ++
  (if x.boot.step = 4 ∧ x.boot.code = 0 then [must (ev k (.coldHandshakeTimeout pk))] else []) ++
  (x.outbox.filter fun m => decide (m.1 ≤ s.clock)).map (fun m => must (ev k (.messageMatch m.2.1 m.2.2.1 m.2.2.2))) ++
  (if x.msgq.isSome ∧ !x.failed then [may (ev k (.messageSend pk))] else []) ++
  (List.range 4).flatMap fun d => s.dieActs p d

/-- The work of the management cores for a partition (R361 to R376). DEDUCED (log 35). -/
def State.partActs (s : State) (n : Nat) (p : Part) : List (Bool × Action) :=
  ((p.launches.filter fun l => s.launchOver n l).map fun l => must (ev s.cur (.launchCompletion n l.id))) ++
  (if p.launches.any fun l => decide (l.state = .waiting) then [must (ev s.cur (.admissionRetest n))] else []) ++
  ((p.launches.filter fun l => l.held && decide (l.state = .bound)).map fun l => must (ev s.cur (.graphNodeRelease n l.id))) ++
  (p.queues.filter fun q => s.queueFirst n p.queues q).flatMap fun q =>
    [may (ev s.cur (.admission n q.1)), may (ev s.cur (.graphReplay n q.1))]

/-- Keep the steps that take place. -/
def State.pick (s : State) : List (Bool × Action) → List Action × State
  | [] => ([], s)
  | (free, a) :: rest =>
    if free then
      let (yes, s1) := s.choose
      let (as, s2) := s1.pick rest
      (if yes then a :: as else as, s2)
    else
      let (as, s1) := s.pick rest
      (a :: as, s1)

/-- What the outside world does in this warm cycle: the first input, if it is a step no word encodes. DESIGN CHOICE (log 4). -/
def State.inputActs (s : State) : List Action :=
  match s.inputs with
  | (k, i) :: _ => if i.kind = .event then [ev k i] else []
  | [] => []

/-- The agenda of a warm cycle beyond that of its first cold cycle: what the queues, the copy engines and the management cores do, then
the words, those of a core that halts first, whose spans pulse others (R281), and last those of a core whose K stands at an `evwait`
(R292). -/
def State.warmActs (s : State) : List (Bool × Action) :=
  let rs := s.running
  rs.flatMap (fun x => s.coreActs x.1 x.2) ++ s.takeActs ++
  s.pkgs.flatMap (fun x => s.pkgActs x.1 x.2) ++
  s.parts.flatMap (fun x => s.partActs x.1 x.2) ++
  s.cores.flatMap (fun x => s.bindActs x.1 x.2) ++
  let rank := fun (x : Nat × Core) => if x.2.halting then 0 else if s.nextWord x.1 .K subtracts then 2 else 1
  ([0, 1, 2] : List Nat).flatMap fun n => (rs.filter fun x => decide (rank x = n)).flatMap fun x => s.issueActs x.1 x.2

/-! ## The start of a cycle -/

/-- The meter takes up the charges of the warm cycle that ended, with the static 4 HU of a running task (R36, R424). -/
def Core.meter (c : Core) : Core :=
  { c with heatAcc := c.heatAcc + c.heatNow + (if c.run.isSome then 4 else 0), heatNow := 0, heatAdm := 0 }

/-- The shadow core's clusters follow six warm cycles behind (R404). -/
def Core.shadowed (c : Core) : Core := { c with trail := (lanes.map c.cluster :: c.trail).take 6 }

/-- An `ecall` performed in an earlier warm cycle by the code that runs takes its trap (R153). -/
def State.dueTrap (s : State) : State :=
  match s.core.trapNext.find? fun x => decide (x.1 = s.core.level) with
  | some x => (s.modCore fun c => { c with trapNext := c.trapNext.erase x }).takeTrap x.2.1 x.2.2 (s.wordAt x.2.2).toNat
  | none => s

/-- A `tret` performed in an earlier warm cycle by the code that runs takes effect (R154). -/
def State.dueReturn (s : State) : State :=
  if s.core.returning.contains s.core.level then
    (s.modCore fun c => { c with returning := c.returning.erase c.level }).trapReturn
  else s

/-- What takes effect on a core at the start of a warm cycle: register writes (R151), the meter, an `ecall` (R153), a return from a
handler (R154) with what had been left of the code it returns to, and the end of a replay run (R409). DEDUCED (log 51). -/
def State.startWarm (s : State) (k : Nat) : State :=
  let s1 := { s with cur := k }.modCore fun c => (c.applyWrites s.warm).meter.shadowed
  s1.dueTrap.dueReturn.dueTrap.dueReturn.modCore Core.endReplay

/-- Dies at the start of a warm cycle: hops end, stretched periods are counted (R451, R454). -/
def State.startDies (s : State) : State :=
  { s with dies := s.dies.map fun (x : Nat × Die) => (x.1, (x.2.endHops s.clock).countStretch s.clock) }

/-- A warm cycle begins: what takes effect at its start, and its agenda. DESIGN CHOICE (log 3). DESIGN CHOICE (log 4). -/
def State.beginWarm (s : State) : State :=
  let s1 := (s.cores.map (·.1)).foldl State.startWarm s.startDies
  let s2 := (s1.parts.map (·.1)).foldl State.settleShoots s1
  let (as, s3) := s2.pick s2.warmActs
  { s3 with
    agenda := s2.windowActs ++ s2.inputActs ++ s2.coldActs ++ as ++ s2.termActs,
    inputs := s3.inputs.drop 1,
    pkgs := s3.pkgs.map fun (x : Nat × Pkg) => (x.1, { x.2 with outbox := x.2.outbox.filter fun m => !decide (m.1 ≤ s.clock) }) }

/-- The clock advances by a cold cycle once everything of the present one is done. DESIGN CHOICE (log 3). -/
def State.tick (s : State) : State :=
  let s1 := s.nextCycle
  if s1.clock % Config.coldPerWarm = 0 then s1.beginWarm else { s1 with agenda := s1.coldActs ++ s1.termActs }

/-! ## Placing an instruction -/

/-- The region an instruction is placed in: 64 KiB at 0x10000 of package 0, read-only and pinned. -/
def placeRegion : Region :=
  { base := 65536, size := 65536, pkg := 0, rw := false, pinned := true, mirror := false, keyen := false, key := 0, token := 0, mbase := 0 }

def placeHandle : Word := handleOf 1 0
def placeKey : Nat := 65536

/-- A task runs on the current core, outside any handler, with its code in that region. -/
def State.placeTask (s : State) : State :=
  (s.modCore fun c =>
    { c with run := some 0, slot0 := { c.slot0 with state := .running, code := placeHandle },
             inHandler := false, nested := false, halting := false, drained := false, preempt := none, substAt := none }).modPartAt
    s.core.slot0.part fun p => { p with regions := Sp.set 0 p.regions 1 (encodeRegion placeRegion) }

/-- A control word in lane `l` of the bundle the split cluster `l` issues next, its line in the instruction cache. DESIGN CHOICE (log 6). -/
def State.placeControl (s : State) (l : Lane) (w : Word32) : State :=
  let s1 := s.placeTask.setBytes (placeKey + 4 * laneIdx l) (leBytes 4 w.toNat)
  let line : BitVec 512 := BitVec.ofNat 512 (leNat (s1.bytes placeKey 64))
  { s1.modCore fun c =>
      { c with l1i := [(placeKey / 64, line)] }.setCluster l
        { c.cluster l with pc := placeHandle, split := true, readyAt := 0, busy := [], since := none, wait := .none, stopped := false } with
    agenda := [{ core := s.cur, what := .issue l false }], lane := l }

/-- An order at the step its engine issues next; a matrix order beside an `mnop`. -/
def State.placeOrder (s : State) (k : Kind) (w : Word32) : State :=
  let e : EngineId := match k with
    | .vector => .vector
    | .temporal => .temporal
    | _ => .matrix
  let s1 := s.placeTask.modCore fun c =>
    (({ c with chksb := 0, badGran := [], badAcc := [], badOrd := [] } : Core).modCold fun m =>
      match k with
      | .vector => { m with ovec := Sp.set 0 m.ovec 0 w }
      | .temporal => { m with otmp := Sp.set 0 m.otmp 0 w }
      | .slotY => { m with omat := Sp.set 0 m.omat 0 (word (w.toNat * 2 ^ 32)) }
      | _ => { m with omat := Sp.set 0 m.omat 0 (word w.toNat) }).modEngine e fun x =>
        { x with run := true, step := 0, fill := 0, skip := 0, loops := [], last := 0, acted := false, opens := false }
  { s1.modDieAt (dieOf s.cur) fun d => { d with stalled := false } with agenda := [{ core := s.cur, what := .order e }] }

/-- A copy entry at HEAD of the current core's string, whose turn it is, with what it goes through translated. -/
def State.placeEntry (s : State) (w : Nat) : State :=
  let s1 := (s.placeTask.setBytes placeKey (leBytes 64 w)).modCore fun c =>
    { c with str := { c.str with head := placeHandle, hset := true, tail := placeHandle, avail := true, halt := false, cancel := [],
                                 watch := [], puts := [] } }
  let s2 := s1.modCore fun c =>
    let full := decide (Config.outstanding ≤ c.outstanding)
    { c with xings := if full then [] else c.xings,
             str := { c.str with seen := regionIdx placeHandle :: s1.entryRegions placeKey, taken := if full then [] else c.str.taken } }
  { s2.modDieAt (dieOf s.cur) fun d => { d with turns := Sp.set 0 d.turns (s.cur / 4) (s.cur % 4) } with
    agenda := [{ core := s.cur, what := .take }] }

/-- The instruction whose table word is `w`, placed where the next step runs it. DESIGN CHOICE (log 6). DESIGN CHOICE (log 7). -/
def State.placeWord (s : State) (nbits w : Nat) : State :=
  if 32 < nbits then s.placeEntry w
  else match decodeTableWord nbits w with
    | some i =>
      if i.kind = .control then s.placeControl ((i.lanes.getD [.L]).headD .L) (BitVec.ofNat 32 w)
      else s.placeOrder i.kind (BitVec.ofNat 32 w)
    | none => s.placeControl .L (BitVec.ofNat 32 w)

end Sys2Proof.Machine
end

