-- ==== Sys2Proof/Machine/Step.lean ====
section
/-! DEFINITION. One step of the machine: the next action of the present instant, or the next cold cycle. -/

namespace Sys2Proof.Machine

/-- One step: the head of the agenda is performed; with nothing left to do at the present instant, the clock advances. -/
def step (s : State) : Host.Outcome State Fault Refusal :=
  match s.agenda with
  | a :: rest => State.act { s with agenda := rest } a
  | [] => .next s.tick

/-- `s` with the instruction of table word `w` placed where the next step takes it: a control word in a bundle its cluster
issues, an order at the step its engine issues, a copy entry at HEAD of the string. DESIGN CHOICE (log 6). -/
def State.withFetchWord (s : State) (nbits w : Nat) : State := s.placeWord nbits w

end Sys2Proof.Machine
end

