-- ==== Sys2Proof/Machine/Windows.lean ====
section
/-! DEFINITION. What the management cores read: MEMPROT, the windows of R34 over error banks, slot table, shadow storage, token
table and region table, and the check values of key slots (R31, R32, R35). Control cores never hold this view, so no control
word reaches it. -/

namespace Sys2Proof.Machine

/-! ## Check values (R35) -/

/-- The check value of key slot `n` (R35): the first four bytes of the encryption of sixteen zero bytes; 0 for an empty slot. DEDUCED (log 47). -/
def Pkg.checkValue (p : Pkg) (n : Nat) : Word :=
  match Sp.get none p.keys n with
  | some key => word (leNat ((aesEncrypt (leBytes 32 key.toNat) (List.replicate 16 0)).take 4))
  | none => 0

/-! ## Entries as their windows show them -/

/-- The words of an error bank's record (R413). -/
def ErrBank.word (b : ErrBank) (w : Nat) : Word :=
  match b.record, w with
  | some r, 1 =>
    Machine.word (2 ^ 63 + (if r.uncorrectable then 2 ^ 62 else 0) + (if b.ovf then 2 ^ 61 else 0) + (if b.margin then 2 ^ 60 else 0) +
      r.source.toNat * 2 ^ 56 + b.ueCount * 2 ^ 32 + b.ceCount * 2 ^ 16)
  | some r, 2 => r.addr
  | some r, 3 => Machine.word (r.phys.toNat * 2 ^ 56 + r.owner.toNat * 2 ^ 44 + b.stamp.toNat)
  | some r, 4 => r.syndrome
  | _, _ => 0

/-- The bytes of a bind record (R368), CRC apart. -/
def Slot.recordBytes (x : Slot) : List Byte :=
  let state := match x.state with | .empty => 0 | .bound => 1 | .running => 2 | .saved => 3 | .ended => 4
  leBytes 4 x.lid.toNat ++ leBytes 1 (if x.copy ∧ state ≠ 0 then 3 else state) ++ leBytes 1 x.prio.toNat ++ leBytes 1 x.coreId.toNat ++
  leBytes 1 x.quadId.toNat ++ leBytes 1 x.dieId.toNat ++ leBytes 1 x.atiles.toNat ++ leBytes 2 x.ncores.toNat ++ leBytes 4 x.cquota.toNat ++
  leBytes 8 x.osquota.toNat ++ leBytes 8 x.code.toNat ++ leBytes 8 x.arg.toNat ++ leBytes 4 x.taskId.toNat ++ leBytes 4 x.gcount.toNat ++
  leBytes 8 x.rsttab.toNat ++ leBytes 4 x.start.toNat ++ leBytes 4 x.graph.toNat ++ leBytes 4 x.node.toNat ++ leBytes 4 0 ++
  leBytes 8 x.payload.toNat ++ leBytes 44 0

/-- The bind record as a number, with its CRC; one that fails is shown with the CRC found. -/
def Slot.recordNat (x : Slot) : Nat :=
  let bs := x.recordBytes
  leNat bs + (x.badCrc.getD (crc32 bs)).toNat * 2 ^ 992

/-- The words of a token table entry (R269). -/
def Token.word (t : Token) (w : Nat) : Word :=
  match w with
  | 1 => Machine.word (t.head * 2 ^ 30 + t.units * 2 ^ 5 + (if t.isHead then 8 else 0) + (if t.taint then 4 else 0) + modeCode t.mode)
  | 2 => Machine.word (t.hpkg * 2 ^ 54 + t.hcore * 2 ^ 46 + t.lpkg * 2 ^ 36 + t.lcore * 2 ^ 28 + (if t.lvalid then 2 ^ 27 else 0) +
      t.shares * 2 ^ 17 + t.gen.toNat)
  | 3 => Machine.word t.region
  | _ => 0

/-- Word `w`, counted from 1, of an entry held as a number. -/
def entryWord (v w : Nat) : Word := word (v / 2 ^ (64 * (w - 1)))

/-- The 128 bytes of shadow storage or of a table entry that a slot table selector names (R336, R368, R372). DEDUCED (log 47). -/
def State.slotWindow (s : State) (pkg : Nat) (sel : Word) : Nat :=
  let slot := bits sel 8 8
  let chunk := bits sel 0 7
  let core := s.coreAt (256 * pkg + 64 * bits sel 16 2 + slot / 2)
  let area := fun (m : List Host.Cell) (off : Nat) => leNat ((List.range 128).map fun i => Sp.get 0 m (off + i))
  if sel.toNat / 2 ^ 32 ≠ 0 ∨ bits sel 18 12 ≠ 0 then 0
  else match sel.getLsbD 31, sel.getLsbD 30, sel.getLsbD 7 with
    | false, true, false => if chunk = 0 then (Sp.get 0 (s.pkgAt pkg).arms slot).toNat else 0
    | false, false, false => if slot < 128 ∧ chunk = 0 then (core.slotAt (BitVec.ofNat 1 slot)).recordNat else 0
    | true, false, true => if slot < 128 ∧ chunk < 2 then area core.recs (256 * (slot % 2) + 128 * chunk) else 0
    | true, false, false => if slot < 128 then area (core.slotAt (BitVec.ofNat 1 slot)).area (128 * chunk) else 0
    | _, _, _ => 0

/-- The error bank a selector names (R412). -/
def State.bankWindow (s : State) (pkg : Nat) (sel : Word) : ErrBank :=
  match bits sel 0 3 with
  | 4 => (s.pkgAt pkg).bank
  | d => if d < 4 then (s.dieAt (4 * pkg + d)).bank else {}

/-! ## The power block of a die (R454) -/

/-- What is left of the back-off hold, in ms. -/
def Die.holdLeft (d : Die) (clock : Nat) : Nat := (d.hold - clock + 31999999) / 32000000

/-- The bytes of the block. -/
def Die.powerBlock (d : Die) (clock : Nat) : List Byte :=
  let quads := fun (f : Nat → Nat) => (List.range 16).flatMap fun q => leBytes 2 (f q)
  leBytes 2 d.vs ++ leBytes 2 d.ceset ++ leBytes 2 d.cecur ++ leBytes 2 (d.holdLeft clock) ++ leBytes 4 d.merr ++ leBytes 4 0 ++
  quads d.rail ++ quads (Sp.get 0 d.str) ++ quads (Sp.get 0 d.hops)

/-- What the management cores read of the power block of die `d` of a package: `n` bytes at an offset; nothing lies past its end. -/
def State.powerRead (s : State) (pkg d off n : Nat) : Nat := leNat ((((s.dieAt (4 * pkg + d)).powerBlock s.clock).drop off).take n)

/-- The bits of each WSEL that are not reserved (R9, R269, R336, R412). -/
def wselMask (base : Nat) : Word :=
  match base with
  | 0x040 => 0x107
  | 0x100 => 0xC003FFFF
  | 0x140 => 0x3FFFFFFFF
  | _ => 0xFFF

/-- What the management cores of a package write at an M-view index (R31, R34): MEMPROT, or the selector of a window; other indices take no
write here. DEDUCED (log 47). -/
def State.managerWrite (s : State) (pkg x : Nat) (v : Word) : State :=
  s.modPkgAt pkg fun p =>
    match x with
    | 0x030 => p.writeMemprot v
    | 0x040 => { p with wselBank := v &&& wselMask 0x040 }
    | 0x100 => { p with wselSlot := v &&& wselMask 0x100 }
    | 0x140 => { p with wselToken := v &&& wselMask 0x140 }
    | 0x180 => { p with wselRegion := v &&& wselMask 0x180 }
    | _ => p

/-- What the management cores of a package read at an M-view index, for the tables of a partition (R31, R34, R35). DEDUCED (log 47). -/
def State.managerRead (s : State) (pkg part x : Nat) : Word :=
  let p := s.pkgAt pkg
  let at_ := fun (base : Nat) (sel : Word) (f : Nat → Word) =>
    if x = base then sel &&& wselMask base else if x ≤ base + 16 then f (x - base) else 0
  if x = 0x030 then word p.memprot.toNat
  else if 0x040 ≤ x ∧ x < 0x080 then at_ 0x040 p.wselBank (s.bankWindow pkg p.wselBank).word
  else if 0x100 ≤ x ∧ x < 0x140 then at_ 0x100 p.wselSlot (entryWord (s.slotWindow pkg p.wselSlot))
  else if 0x140 ≤ x ∧ x < 0x180 then at_ 0x140 p.wselToken ((s.partAt part).token p.wselToken.toNat).word
  else if 0x180 ≤ x ∧ x < 0x1C0 then
    at_ 0x180 p.wselRegion (entryWord (if p.wselRegion.toNat < 4096 then (Sp.get 0 (s.partAt part).regions p.wselRegion.toNat).toNat else 0))
  else if 0x200 ≤ x ∧ x < 0x300 then p.checkValue (x - 0x200)
  else 0

end Sys2Proof.Machine
end

