-- ==== Sys2Proof/Safety.lean ====
section
/-! DEFINITION. The words the statements are written in: what a control word leaves alone when it is performed, where its
cluster goes, the legal modes of a core, and the invariant a step keeps. -/

namespace Sys2Proof.Machine

/-! ## Frames -/

/-- The pod but for its cores: memory, dies, packages, partitions, the clock and the agenda. -/
def State.apart (s : State) : State := { s with cores := [] }

/-- A core but for its four clusters: queues, FIFOs, shape registers, system registers, trap area, cold state. -/
def Core.apart (c : Core) : Core := { c with l := {}, e := {}, s := {}, k := {} }

/-- A cluster but for its loop nest. -/
def Cluster.apart (x : Cluster) : Cluster := { x with loops := [] }

/-- The registers of two clusters agree outside `r`, in value and in whether an earlier word still has to write them. -/
structure Cluster.SameBut (x y : Cluster) (r : List RegRef) : Prop where
  g : ∀ n, .g n ∉ r → y.rg n = x.rg n
  p : ∀ n, .p n ∉ r → y.rp n = x.rp n
  c : ∀ n, .c n ∉ r → y.rc n = x.rc n
  busy : ∀ q w, q ∉ r → y.isBusy w q = x.isBusy w q

/-- Where a cluster stands once its word has been performed (R74, R75, R115, R128): on its own it is at the target of its
transfer, or at the next bundle where no loop of its nest ends; in the joined group it keeps what its word decided. -/
structure Cluster.Goes (x y : Cluster) (warm : Nat) (sy : BitVec 1) (target : Option Word) : Prop where
  taken : ∀ a, target = some a → x.split = true → y.pc = a ∧ y.loops = x.loops ∧ y.readyAt = warm + 2
  past : target = none → x.split = true → (∀ e ∈ x.loops, e.stop ≠ x.pc) →
    y.pc = x.pc + 16 ∧ y.loops = x.loops ∧ y.readyAt = warm + 1
  joined : x.split = false → y.done = true ∧ y.xfer = target ∧ y.sync = decide (sy = 1) ∧ y.pc = x.pc ∧ y.loops = x.loops
  mode : y.split = x.split ∧ y.atJoin = x.atJoin ∧ y.joinId = x.joinId ∧ y.stopped = x.stopped
  free : y.since = none ∧ y.wait = .none

/-- From `u` to `t` the word of the current cluster has been performed: all that differs is the registers `r` of that
cluster and where it stands, and in the other clusters at most a kill on loops left for a stop request (R399). -/
structure Through (u t : State) (sy : BitVec 1) (r : List RegRef) (target : Option Word) : Prop where
  pod : t.apart = u.apart
  others : ∀ k, k ≠ u.cur → t.coreAt k = u.coreAt k
  core : t.core.apart = u.core.apart
  clusters : ∀ l, l ≠ u.lane → (t.core.cluster l).apart = (u.core.cluster l).apart
  nests : u.core.stopping = false → ∀ l, l ≠ u.lane → t.core.cluster l = u.core.cluster l
  regs : u.cl.SameBut t.cl r
  goes : u.cl.Goes t.cl u.warm sy target

/-- The outcome `o` writes gD with `v`, which a later word finds from `latency` warm cycles on (R112, R114); g0 stays 0
(R16). Nothing else changes but where the cluster stands. -/
def WritesG (u : State) (o : Out) (sy : BitVec 1) (d : BitVec 5) (v : Word) (latency : Nat) (target : Option Word) : Prop :=
  ∃ t, o = .next t ∧ Through u t sy [gR d] target ∧ t.cl.rg d.toNat = (if d = 0 then 0 else v) ∧
    ∀ w, t.cl.isBusy w (gR d) = (if d = 0 then u.cl.isBusy w (gR d) else decide (w < u.warm + latency))

/-- The outcome writes predicate pN with `v`, found from the next warm cycle on; p0 stays 1 (R16). -/
def WritesP (u : State) (o : Out) (sy : BitVec 1) (d : BitVec 2) (v : Bool) : Prop :=
  ∃ t, o = .next t ∧ Through u t sy [pR d] none ∧ t.cl.rp d.toNat = (if d = 0 then true else v) ∧
    ∀ w, t.cl.isBusy w (pR d) = (if d = 0 then u.cl.isBusy w (pR d) else decide (w < u.warm + 1))

/-- The outcome writes coordinate register cD with `v`, found from the next warm cycle on. -/
def WritesC (u : State) (o : Out) (sy : BitVec 1) (d : BitVec 3) (v : Word32) : Prop :=
  ∃ t, o = .next t ∧ Through u t sy [cR d] none ∧ t.cl.rc d.toNat = v ∧
    ∀ w, t.cl.isBusy w (cR d) = decide (w < u.warm + 1)

/-- The outcome writes no register: from `u` only the place of the cluster differs. -/
def Passes (u : State) (o : Out) (sy : BitVec 1) (target : Option Word) : Prop :=
  ∃ t, o = .next t ∧ Through u t sy [] target

/-- The outcome leaves gD to be written by a later event (R112): it is busy until then. -/
def AwaitsG (u : State) (o : Out) (sy : BitVec 1) (d : BitVec 5) : Prop :=
  ∃ t, o = .next t ∧ Through u t sy [gR d] none ∧ (∀ n, t.cl.rg n = u.cl.rg n) ∧
    ∀ w, t.cl.isBusy w (gR d) = (if d = 0 then u.cl.isBusy w (gR d) else true)

/-- From `s` to `t` an order of the current core has issued with this charge (R201, R246, R298): apart from the cold state, the
core and its package have taken the charge up and nothing else differs. -/
structure Issued (s t : State) (heat : Nat) : Prop where
  pod : { t with cores := s.cores, pkgs := s.pkgs } = s
  others : ∀ k, k ≠ s.cur → t.coreAt k = s.coreAt k
  core : { t.core with heatNow := s.core.heatNow, cold := s.core.cold } = s.core
  charge : t.core.heatNow = s.core.heatNow + heat
  posted : (t.pkgAt (s.cur / 256)).posted = (s.pkgAt (s.cur / 256)).posted + heat

/-- The outcome of an order of engine `e` is its charge and writes that land later: each `lat` cold cycles after the step, with
its effect (R198, R243, R298). No cold state changes before that. -/
def Lands (s : State) (o : Out) (heat : Nat) (e : EngineId) (ws : List (Nat × LandOp)) : Prop :=
  ∃ t new, o = .next t ∧ Issued s t heat ∧ { t.core.cold with pend := s.core.cold.pend } = s.core.cold ∧
    t.core.cold.pend = s.core.cold.pend ++ new ∧ new.map (fun l => (l.at_, l.op)) = ws.map (fun w => (s.scnt + w.1, w.2)) ∧
    ∀ l ∈ new, l.eng = e ∧ l.issued = s.scnt

/-- The outcome of a vector order that rounds by RM: its charge and writes that land later; under SR (RM 4) every active lane's LFSR
takes one step (R50) and no other cold state changes. -/
def LandsRounded (s : State) (o : Out) (heat : Nat) (rm : BitVec 3) (ws : List (Nat × LandOp)) : Prop :=
  ∃ t new, o = .next t ∧ Issued s t heat ∧
    { t.core.cold with pend := s.core.cold.pend, lfsr := s.core.cold.lfsr } = s.core.cold ∧
    (∀ i, t.core.cold.lfsrAt i =
      if rm = 4 ∧ i ∈ s.core.cold.lanesOn then lfsrStep (s.core.cold.lfsrAt i) else s.core.cold.lfsrAt i) ∧
    t.core.cold.pend = s.core.cold.pend ++ new ∧ new.map (fun l => (l.at_, l.op)) = ws.map (fun w => (s.scnt + w.1, w.2)) ∧
    ∀ l ∈ new, l.eng = .vector ∧ l.issued = s.scnt

/-- The write of the active lanes of vd with `f`, `lat` cold cycles after issue (R237, R243). -/
def State.lanes (s : State) (d : BitVec 5) (lat : Nat) (f : Nat → Word32) : List (Nat × LandOp) :=
  [(lat, .vreg d.toNat (s.core.cold.lanesOn.map fun i => (i, f i)))]

/-- The outcome of an order is its charge and a change of its own engine's sequencer. -/
def Steers (s : State) (o : Out) (heat : Nat) (e : EngineId) (f : Engine → Engine) : Prop :=
  ∃ t, o = .next t ∧ Issued s t heat ∧ t.core.engine e = f (s.core.engine e) ∧ t.core.cold.pend = s.core.cold.pend ∧
    t.core.cold.acc = s.core.cold.acc ∧ t.core.cold.store = s.core.cold.store ∧ t.core.cold.v = s.core.cold.v ∧
    ∀ k, k ≠ e → t.core.engine k = s.core.engine k

/-- The shadow core's copy of the word has been compared and agrees (R405). -/
def State.Compared (s : State) : Prop := ∃ w, s.cl.wait = .since w ∧ w + 6 ≤ s.warm ∧ s.core.willMismatch = false

/-- The word's wait began in an earlier warm cycle (R112). -/
def State.Waited (s : State) : Prop := ∃ w, s.cl.wait = .since w ∧ w < s.warm

/-- The registers a word reads and writes and its tokens are there (R85, R112). -/
def State.Issues (s : State) (dep : BitVec 4) (rd wr : List RegRef) : Prop := s.regsReady rd wr = true ∧ s.depsReady dep = true

/-- A word-class fault of the current cluster, and the return from the handler it enters, leave each cluster where the fault found it
(R89, R385, R389, R396): its registers, mode and place, its loop nest, and the values and tokens in the FIFOs. `level` is 1 for a task's
code, 2 for a handler's. -/
def State.Restored (s : State) (code : Nat) (addr : Word) (level : Nat) : Prop :=
  let c := (s.wordTrap code addr).trapReturn.core
  c.level + 1 = level ∧
  (∀ l, let x := (s.core.unissue s.lane).cluster l
    let y := c.cluster l
    (∀ n, n < 32 → y.rg n = x.rg n) ∧ (∀ n, n < 4 → y.rp n = x.rp n) ∧ (∀ n, n < 7 → y.rc n = x.rc n) ∧
    y.split = x.split ∧ ((x.done = true → x.split = false) → y.nextPc = x.nextPc) ∧
    (x.split = false → y.pc = x.pc ∧ y.done = x.done) ∧
    (x.loops.length ≤ 4 → (∀ e ∈ x.loops, e.remaining ≠ 0) → y.loops = x.loops.map fun e => { e with began := s.warm })) ∧
  ∀ i, i < 8 → (s.core.portAt i).items.length ≤ 4 → (s.core.tokAt i).items.length ≤ 8 →
    (c.portAt i).items.map (·.2) = (s.core.portAt i).items.map (·.2) ∧ (c.tokAt i).items.length = (s.core.tokAt i).items.length

/-- The right neighbour of a lane on the ring (R85). -/
def rightOf : Lane → Lane
  | .L => .E
  | .E => .S
  | .S => .K
  | .K => .L

/-! ## The invariant -/

/-- What every step keeps: memory in canonical form, so that equal memories are equal data. -/
def State.Inv (s : State) : Prop := Memory.wf s.mem

end Sys2Proof.Machine
end

