-- ==== Sys2Proof/Certificates/Slice0/Obligations.lean ====
section
/-! DEFINITION. The statements for the provers. -/

open Sys2Proof Sys2Proof.Machine

/-! ## Integer words, predicates, coordinates (R117 to R124) -/

/-- R117: the register forms `alu` and `aluw` of latency 1 complete once gA, gB and gD are there, write gD with the value of
the table, and change nothing else. -/
def Obligations.RegisterWordsWriteTheirValue : Prop :=
  ∀ (sy : BitVec 1) (d a b : BitVec 5) (s : State), s.regsReady [gR a, gR b] [gR d] = true →
    let x := s.g a
    let y := s.g b
    let sh := y.extractLsb' 0 6
    let shw := y.extractLsb' 0 5
    let x32 := x.extractLsb' 0 32
    let writes := fun i v => WritesG s (exec i s) sy d v 1 none
    writes (.add sy d a b) (x + y) ∧ writes (.sub sy d a b) (x - y) ∧ writes (.and sy d a b) (x &&& y) ∧
    writes (.or sy d a b) (x ||| y) ∧ writes (.xor sy d a b) (x ^^^ y) ∧ writes (.andn sy d a b) (x &&& ~~~y) ∧
    writes (.orn sy d a b) (x ||| ~~~y) ∧ writes (.sll sy d a b) (x <<< sh) ∧ writes (.srl sy d a b) (x >>> sh) ∧
    writes (.sra sy d a b) (x.sshiftRight' sh) ∧
    writes (.min sy d a b) (if x.toInt ≤ y.toInt then x else y) ∧ writes (.max sy d a b) (if x.toInt ≤ y.toInt then y else x) ∧
    writes (.minu sy d a b) (if x.toNat ≤ y.toNat then x else y) ∧ writes (.maxu sy d a b) (if x.toNat ≤ y.toNat then y else x) ∧
    writes (.slt sy d a b) (if x.toInt < y.toInt then 1 else 0) ∧ writes (.sltu sy d a b) (if x.toNat < y.toNat then 1 else 0) ∧
    writes (.addw sy d a b) (((x + y).extractLsb' 0 32).signExtend 64) ∧
    writes (.subw sy d a b) (((x - y).extractLsb' 0 32).signExtend 64) ∧
    writes (.sllw sy d a b) ((x32 <<< shw).signExtend 64) ∧ writes (.srlw sy d a b) ((x32 >>> shw).signExtend 64) ∧
    writes (.sraw sy d a b) ((x32.sshiftRight' shw).signExtend 64)

/-- R117, R114: the products write gD, for words that issue three warm cycles later.
R118: division never traps; by zero it gives all ones and the remainder gA; −2^63 by −1 gives −2^63 and 0; else the
quotient is rounded toward zero and the remainder has the sign of gA.
R117: `clz`, `ctz` and `popc` count the leading zeros, the trailing zeros and the set bits of gA. -/
def Obligations.ProductsQuotientsAndBitCounts : Prop :=
  (∀ (sy : BitVec 1) (d a b : BitVec 5) (s : State), s.regsReady [gR a, gR b] [gR d] = true →
     let x := s.g a
     let y := s.g b
     let writes := fun i v => WritesG s (exec i s) sy d v 3 none
     writes (.mul sy d a b) (((x.signExtend 128) * (y.signExtend 128)).extractLsb' 0 64) ∧
     writes (.mulh sy d a b) (((x.signExtend 128) * (y.signExtend 128)).extractLsb' 64 64) ∧
     writes (.mulhu sy d a b) (((x.setWidth 128) * (y.setWidth 128)).extractLsb' 64 64) ∧
     writes (.mulw sy d a b) (((x * y).extractLsb' 0 32).signExtend 64)) ∧
  (∀ (sy : BitVec 1) (d a b : BitVec 5) (s : State), s.regsReady [gR a, gR b] [gR d] = true →
     let x := s.g a
     let y := s.g b
     ∃ q r qu ru : Word,
       WritesG s (exec (.div sy d a b) s) sy d q 20 none ∧ WritesG s (exec (.rem sy d a b) s) sy d r 20 none ∧
       WritesG s (exec (.divu sy d a b) s) sy d qu 20 none ∧ WritesG s (exec (.remu sy d a b) s) sy d ru 20 none ∧
       (y = 0 → q = BitVec.allOnes 64 ∧ qu = BitVec.allOnes 64 ∧ r = x ∧ ru = x) ∧
       (x = BitVec.intMin 64 ∧ y = BitVec.allOnes 64 → q = BitVec.intMin 64 ∧ r = 0) ∧
       (y ≠ 0 → ¬ (x = BitVec.intMin 64 ∧ y = BitVec.allOnes 64) →
         x.toInt = q.toInt * y.toInt + r.toInt ∧ |r.toInt| < |y.toInt| ∧ 0 ≤ r.toInt * x.toInt) ∧
       (y ≠ 0 → x.toNat = qu.toNat * y.toNat + ru.toNat ∧ ru.toNat < y.toNat)) ∧
  (∀ (sy : BitVec 1) (d a : BitVec 5) (s : State), s.regsReady [gR a] [gR d] = true →
     let x := s.g a
     ∃ lead trail ones : Nat,
       WritesG s (exec (.clz sy d a) s) sy d (BitVec.ofNat 64 lead) 1 none ∧
       WritesG s (exec (.ctz sy d a) s) sy d (BitVec.ofNat 64 trail) 1 none ∧
       WritesG s (exec (.popc sy d a) s) sy d (BitVec.ofNat 64 ones) 1 none ∧
       lead ≤ 64 ∧ (∀ i, i < lead → x.getMsbD i = false) ∧ (lead < 64 → x.getMsbD lead = true) ∧
       trail ≤ 64 ∧ (∀ i, i < trail → x.getLsbD i = false) ∧ (trail < 64 → x.getLsbD trail = true) ∧
       ones = (Finset.univ.filter fun i : Fin 64 => x.getLsbD i = true).card)

/-- R119, R79: the immediate forms, `lui` and `addpc`. -/
def Obligations.ImmediateWordsWriteTheirValue : Prop :=
  ∀ (sy : BitVec 1) (d a : BitVec 5) (imm : BitVec 15) (sh : BitVec 6) (k : BitVec 20) (s : State),
    s.regsReady [gR a] [gR d] = true →
    let x := s.g a
    let i : Word := imm.signExtend 64
    let writes := fun j v => WritesG s (exec j s) sy d v 1 none
    writes (.addi sy d a imm) (x + i) ∧ writes (.andi sy d a imm) (x &&& i) ∧ writes (.ori sy d a imm) (x ||| i) ∧
    writes (.xori sy d a imm) (x ^^^ i) ∧ writes (.slti sy d a imm) (if x.toInt < i.toInt then 1 else 0) ∧
    writes (.sltiu sy d a imm) (if x.toNat < i.toNat then 1 else 0) ∧
    writes (.slli sy d a sh) (x <<< sh) ∧ writes (.srli sy d a sh) (x >>> sh) ∧ writes (.srai sy d a sh) (x.sshiftRight' sh) ∧
    writes (.lui sy d k) (k.signExtend 64 <<< 12) ∧ writes (.addpc sy d k) (s.cl.pc + (k.signExtend 64 <<< 4))

/-- R121, R122, R123: comparisons and predicate logic write pD, `sel` chooses by a predicate.
R124: the coordinate words work modulo 2^32 on the own cluster's registers; `cget` alone extends the sign. -/
def Obligations.PredicateAndCoordinateWords : Prop :=
  (∀ (sy : BitVec 1) (d a b : BitVec 5) (p q r : BitVec 2) (imm : BitVec 15) (s : State),
     s.regsReady [gR a, gR b, pR q, pR r] [gR d, pR p] = true →
     let x := s.g a
     let y := s.g b
     let i : Word := imm.signExtend 64
     (∀ (c : BitVec 3) (v : Bool), c.toNat < 6 →
       (v = match c.toNat with
         | 0 => decide (x = y)
         | 1 => decide (x ≠ y)
         | 2 => decide (x.toInt < y.toInt)
         | 3 => decide (y.toInt ≤ x.toInt)
         | 4 => decide (x.toNat < y.toNat)
         | _ => decide (y.toNat ≤ x.toNat)) →
       WritesP s (exec (.pcmp sy p a b c) s) sy p v) ∧
     (∀ (c : BitVec 3) (v : Bool), c.toNat < 6 →
       (v = match c.toNat with
         | 0 => decide (x = i)
         | 1 => decide (x ≠ i)
         | 2 => decide (x.toInt < i.toInt)
         | 3 => decide (i.toInt ≤ x.toInt)
         | 4 => decide (x.toNat < i.toNat)
         | _ => decide (i.toNat ≤ x.toNat)) →
       WritesP s (exec (.pcmpi sy c p a imm) s) sy p v) ∧
     WritesP s (exec (.pand sy p q r) s) sy p (s.p q && s.p r) ∧ WritesP s (exec (.por sy p q r) s) sy p (s.p q || s.p r) ∧
     WritesP s (exec (.pxor sy p q r) s) sy p (xor (s.p q) (s.p r)) ∧ WritesP s (exec (.pnot sy p q) s) sy p (!s.p q) ∧
     WritesP s (exec (.pmov sy p q) s) sy p (s.p q) ∧
     WritesG s (exec (.sel sy d a b q) s) sy d (if s.p q then x else y) 1 none) ∧
  (∀ (sy : BitVec 1) (d a b : BitVec 5) (c e : BitVec 3) (imm : BitVec 15) (s : State),
     s.regsReady [gR a, gR b, cR e] [gR d, cR c] = true →
     WritesC s (exec (.cset sy c a) s) sy c ((s.g a).extractLsb' 0 32) ∧
     WritesG s (exec (.cget sy d e) s) sy d ((s.c e).signExtend 64) 1 none ∧
     WritesC s (exec (.cadd sy c e b) s) sy c (s.c e + (s.g b).extractLsb' 0 32) ∧
     WritesC s (exec (.caddi sy c e imm) s) sy c (s.c e + imm.signExtend 32))

/-! ## Waiting, branches, loops, join, links (R74 to R77, R85, R112 to R135) -/

/-- R125, R76: `br`, `jal` and `jalr` transfer where their fields say; a `jalr` target that is no multiple of 16 raises ALIGN with
the target in TADDR.
R77, R133: the last cluster to reach a `join` of the same id in the same bundle brings all four to the next bundle in JOINED
mode; before that the word waits; a differing `join` raises JOINF. -/
def Obligations.BranchesJumpsAndJoin : Prop :=
  (∀ (sy n : BitVec 1) (p : BitVec 2) (d a : BitVec 5) (o : BitVec 22) (k : BitVec 20) (i : BitVec 15) (s : State),
     s.regsReady [pR p, gR a] [gR d] = true →
     let t := s.g a + i.signExtend 64
     Passes s (exec (.br sy p n o) s) sy (if xor (s.p p) (decide (n = 1)) then some (s.cl.pc + (o.signExtend 64 <<< 4)) else none) ∧
     WritesG s (exec (.jal sy d k) s) sy d (s.cl.pc + 16) 1 (some (s.cl.pc + (k.signExtend 64 <<< 4))) ∧
     (t.extractLsb' 0 4 = 0 → WritesG s (exec (.jalr sy d a i) s) sy d (s.cl.pc + 16) 1 (some t)) ∧
     (t.extractLsb' 0 4 ≠ 0 → exec (.jalr sy d a i) s = .next (s.wordTrap 0x07 t))) ∧
  (∀ (n : BitVec 8) (s : State),
     ((∀ l, l ≠ s.lane → (s.core.cluster l).atJoin = true ∧ (s.core.cluster l).joinId = n ∧ (s.core.cluster l).pc = s.cl.pc) →
       s.cl.atJoin = false →
       ∃ t, exec (.join n) s = .next t ∧ t.apart = s.apart ∧ (∀ k, k ≠ s.cur → t.coreAt k = s.coreAt k) ∧
         t.core.apart = s.core.apart ∧
         ∀ l, t.core.cluster l = { s.core.cluster l with
                                   pc := s.cl.pc + 16, split := false, atJoin := false, joinId := 0, since := none, wait := .none,
                                   done := false, readyAt := s.warm + 1 }) ∧
     ((∃ l, l ≠ s.lane ∧ (s.core.cluster l).atJoin = false) → s.cl.atJoin = false →
       (∀ l, (s.core.cluster l).atJoin = true → (s.core.cluster l).joinId = n ∧ (s.core.cluster l).pc = s.cl.pc) →
       ∃ t, exec (.join n) s = .next t ∧ t.apart = s.apart ∧ t.core.apart = s.core.apart ∧
         (∀ l, l ≠ s.lane → t.core.cluster l = s.core.cluster l) ∧ t.cl.atJoin = true ∧ t.cl.joinId = n ∧ t.cl.pc = s.cl.pc ∧
         t.cl.g = s.cl.g ∧ t.cl.p = s.cl.p ∧ t.cl.c = s.cl.c) ∧
     ((∃ l, (s.core.cluster l).atJoin = true ∧ ((s.core.cluster l).joinId ≠ n ∨ (s.core.cluster l).pc ≠ s.cl.pc)) →
       exec (.join n) s = .next (s.wordTrap 0x13 s.wordHandle)))

/-- R127, R130: `loop` skips its body for a count of 0, pushes an entry, or raises LOOPN on a fifth; `lexit` not taken does
nothing, taken pops the innermost entry, posts its kill marker and transfers, and raises LOOPN on an empty nest.
R131: a kill marker (id, i) kills the entries of iterations above i of the popped loop and of every living loop of that id in every
queue and the string, one taken and still waiting among them (R316), leaves the entries of iteration i and earlier alone, and ends every
living loop of that id of another cluster at its next end bundle. -/
def Obligations.LoopsPushAndExit : Prop :=
  (∀ (sy pre n : BitVec 1) (p : BitVec 2) (a : BitVec 5) (len : BitVec 15) (o : BitVec 22) (s : State),
     s.regsReady [gR a, pR p] [] = true →
     let pc := s.cl.pc
     let taken := xor (s.p p) (decide (n = 1))
     (s.g a = 0 → Passes s (exec (.loop sy pre a len) s) sy (some (pc + BitVec.ofNat 64 (16 * (len.toNat + 1))))) ∧
     (s.g a ≠ 0 → s.cl.loops.length < 4 → ∃ t e u, exec (.loop sy pre a len) s = .next t ∧ Through u t sy [] none ∧
       u = (s.modCore fun c => { c with loopNo := c.loopNo + 1 }).modCl (fun x => { x with loops := e :: x.loops }) ∧
       e.remaining = s.g a ∧ e.start = pc + 16 ∧ e.stop = pc + BitVec.ofNat 64 (16 * len.toNat) ∧ e.id = pc ∧
       e.pre = decide (pre = 1) ∧ e.index = 0 ∧ e.kill = none ∧ e.group = (decide (sy = 1) && !s.cl.split)) ∧
     (s.g a ≠ 0 → 4 ≤ s.cl.loops.length → exec (.loop sy pre a len) s = .next (s.wordTrap 0x11 s.wordHandle)) ∧
     (taken = false → Passes s (exec (.lexit sy p n o) s) sy none) ∧
     (taken = true → s.cl.loops = [] → exec (.lexit sy p n o) s = .next (s.wordTrap 0x11 s.wordHandle)) ∧
     (taken = true → ∀ e rest, s.cl.loops = e :: rest → ∃ t u, exec (.lexit sy p n o) s = .next t ∧
       u = ((s.modCl fun x => { x with loops := rest }).modCore fun c => c.kill s.lane e.id e.index e.inst) ∧
       Through u t sy [] (some (pc + (o.signExtend 64 <<< 4))))) ∧
  (∀ (c : Core) (me : Lane) (id : Word) (i popped : Nat),
     let d := c.kill me id i popped
     (∀ q e n, e ∈ c.queue q → (n = popped ∨ ∃ l, ∃ y ∈ (c.cluster l).loops, y.id = id ∧ y.inst = n) → (∃ j, (n, j) ∈ e.tags ∧ i < j) →
       { e with killed := true } ∈ d.queue q) ∧
     (∀ q e, e ∈ c.queue q → (∀ x ∈ e.tags, x.2 ≤ i) → e ∈ d.queue q) ∧
     (∀ q, (d.queue q).length = (c.queue q).length) ∧
     (∀ l, (d.cluster l).apart = (c.cluster l).apart ∧ (d.cluster l).loops.length = (c.cluster l).loops.length ∧
       ∀ e ∈ (d.cluster l).loops, e.id = id → (∃ k, e.kill = some k ∧ k ≤ i) ∧ (l ≠ me → e.last = true)) ∧
     (d.cluster me).loops.map (·.last) = (c.cluster me).loops.map (·.last) ∧
     d.str.puts.length = c.str.puts.length ∧
     (∀ x n, x ∈ c.str.puts → (n = popped ∨ ∃ l, ∃ y ∈ (c.cluster l).loops, y.id = id ∧ y.inst = n) → (∃ j, (n, j) ∈ x.tags ∧ i < j) →
       { x with killed := true } ∈ d.str.puts) ∧
     d.str.taken.length = c.str.taken.length ∧ (∀ x ∈ c.str.taken, x.done = true ∨ x.begun ≠ none → x ∈ d.str.taken) ∧
     (∀ x ∈ c.str.taken, x.done = false → x.begun = none → (∃ j, (popped, j) ∈ x.tags ∧ i < j) →
       mayStart (c.str.taken.filter fun y => decide (y.no < x.no)) x = false → { x with killed := true } ∈ d.str.taken) ∧
     (∀ x ∈ c.str.puts, (∀ y ∈ x.tags, y.2 ≤ i) → x ∈ d.str.puts) ∧
     d.cold = c.cold ∧ d.slot0 = c.slot0 ∧ d.slot1 = c.slot1)

/-- R134, R85: a send pushes gA where the neighbour's receive pops, in order; a receive writes gD with the oldest value, one sent
in an earlier warm cycle.
R85, R135: the dependence bits of a KP word pop and push tokens of its cluster's four FIFOs together with its issue and
change nothing else; `nop` only passes.
R112, R85: a word that reads a register an earlier word has yet to write waits at issue, and so does one whose dependence token is not
there or finds no room; no part of it is performed: only the warm cycle since which its cluster waits is noted.
R134, R112: a send waits for room and a receive for data; nothing of either is performed. -/
def Obligations.LinkPortsTokensAndWaits : Prop :=
  ((∀ l, rightOut l = leftIn (rightOf l) ∧ leftOut (rightOf l) = rightIn l ∧ rightOut l ≠ leftOut l) ∧
   ∀ (sy : BitVec 1) (d a : BitVec 5) (s : State), s.regsReady [gR a] [gR d] = true →
     let taken := fun (f : Fifo) => f.items.length + (if f.popWarm = s.warm then f.pops else 0)
     (taken (s.core.portAt (leftOut s.lane)) < 4 → ∃ t, exec (.sendl sy a) s = .next t ∧
       Through (s.modCore fun c => c.modPort (leftOut s.lane) fun f => { f with items := f.items ++ [(s.warm, s.g a)] }) t sy [] none) ∧
     (taken (s.core.portAt (rightOut s.lane)) < 4 → ∃ t, exec (.sendr sy a) s = .next t ∧
       Through (s.modCore fun c => c.modPort (rightOut s.lane) fun f => { f with items := f.items ++ [(s.warm, s.g a)] }) t sy [] none) ∧
     (∀ w v rest, (s.core.portAt (leftIn s.lane)).items = (w, v) :: rest → w < s.warm →
       ∃ u, WritesG u (exec (.recvl sy d) s) sy d v 1 none ∧ (u.core.portAt (leftIn s.lane)).items = rest ∧
         u.apart = s.apart ∧ { u.core with port := s.core.port } = s.core) ∧
     (∀ w v rest, (s.core.portAt (rightIn s.lane)).items = (w, v) :: rest → w < s.warm →
       ∃ u, WritesG u (exec (.recvr sy d) s) sy d v 1 none ∧ (u.core.portAt (rightIn s.lane)).items = rest ∧
         u.apart = s.apart ∧ { u.core with port := s.core.port } = s.core)) ∧
  ((∀ (sy : BitVec 1) (s : State), Passes s (exec (.nop sy) s) sy none) ∧
   ∀ (dep : BitVec 4) (s : State),
     let u := s.takeDeps dep
     u.apart = s.apart ∧ (∀ k, k ≠ s.cur → u.coreAt k = s.coreAt k) ∧ { u.core with tok := s.core.tok } = s.core ∧
     (u.core.tokAt (leftIn s.lane)).items = (s.core.tokAt (leftIn s.lane)).items.drop (if dep.getLsbD 3 then 1 else 0) ∧
     (u.core.tokAt (rightIn s.lane)).items = (s.core.tokAt (rightIn s.lane)).items.drop (if dep.getLsbD 2 then 1 else 0) ∧
     (u.core.tokAt (leftOut s.lane)).items =
       (s.core.tokAt (leftOut s.lane)).items ++ (if dep.getLsbD 1 then [(s.warm, 0)] else []) ∧
     (u.core.tokAt (rightOut s.lane)).items =
       (s.core.tokAt (rightOut s.lane)).items ++ (if dep.getLsbD 0 then [(s.warm, 0)] else []) ∧
     ∀ i, i ∉ [leftIn s.lane, rightIn s.lane, leftOut s.lane, rightOut s.lane] → u.core.tokAt i = s.core.tokAt i) ∧
  (∀ (sy : BitVec 1) (dep n : BitVec 4) (z : BitVec 3) (p : BitVec 2) (k : BitVec 6) (d a b : BitVec 5) (o : BitVec 15) (i12 : BitVec 12)
     (s : State), s.cl.isBusy s.warm (gR a) = true →
     ∀ i ∈ [Instr.add sy d a b, .sub sy d a b, .and sy d a b, .or sy d a b, .xor sy d a b, .andn sy d a b, .orn sy d a b, .sll sy d a b,
            .srl sy d a b, .sra sy d a b, .min sy d a b, .max sy d a b, .minu sy d a b, .maxu sy d a b, .slt sy d a b, .sltu sy d a b,
            .addw sy d a b, .subw sy d a b, .sllw sy d a b, .srlw sy d a b, .sraw sy d a b, .mul sy d a b, .mulh sy d a b, .mulhu sy d a b,
            .mulw sy d a b, .div sy d a b, .divu sy d a b, .rem sy d a b, .remu sy d a b, .clz sy d a, .ctz sy d a, .popc sy d a,
            .addi sy d a o, .andi sy d a o, .ori sy d a o, .xori sy d a o, .slti sy d a o, .sltiu sy d a o, .slli sy d a k, .srli sy d a k,
            .srai sy d a k, .sel sy d a b p, .pcmp sy p a b z, .pcmpi sy z p a o, .cset sy z a, .jalr sy d a o, .loop sy 0 a o,
            .loop sy 1 a o, .sendl sy a, .sendr sy a, .ld sy d a z i12, .st sy d a z i12, .cwb sy dep a b, .cinv sy dep a b,
            .cwbinv sy dep a b, .xput sy dep a k, .xcancel sy dep d a, .cptail sy dep a, .shpst sy dep a n, .shpset sy dep a n n,
            .xin sy dep d a b n 0, .xinm sy dep d a b n 0, .xout sy dep d a b n 0],
       ∃ t, exec i s = .next t ∧ t.apart = s.apart ∧ (∀ k, k ≠ s.cur → t.coreAt k = s.coreAt k) ∧ t.core.apart = s.core.apart ∧
         (∀ l, l ≠ s.lane → t.core.cluster l = s.core.cluster l) ∧
         t.cl = { s.cl with since := some (match s.cl.since with | some w => w | none => s.warm) }) ∧
  (∀ (sy : BitVec 1) (dep : BitVec 4) (d a : BitVec 5) (k : BitVec 6) (n : BitVec 4) (s : State),
     (dep.getLsbD 3 = true ∧ (s.core.tokAt (leftIn s.lane)).items = []) ∨ (dep.getLsbD 2 = true ∧ (s.core.tokAt (rightIn s.lane)).items = []) ∨
     (dep.getLsbD 1 = true ∧ 8 ≤ (s.core.tokAt (leftOut s.lane)).items.length) ∨
     (dep.getLsbD 0 = true ∧ 8 ≤ (s.core.tokAt (rightOut s.lane)).items.length) →
     ∀ i ∈ [Instr.qmark sy dep, .cwb sy dep a a, .cinv sy dep a a, .cwbinv sy dep a a, .xput sy dep a k, .xget sy dep d k,
            .xcancel sy dep d a, .cptail sy dep a, .cpseq sy dep d, .shpst sy dep a n, .shpget sy dep d n n, .btld sy dep n],
       ∃ t, exec i s = .next t ∧ t.apart = s.apart ∧ t.core.apart = s.core.apart ∧ (∀ l, l ≠ s.lane → t.core.cluster l = s.core.cluster l) ∧
         t.cl = { s.cl with since := some (match s.cl.since with | some w => w | none => s.warm) }) ∧
  (∀ (sy : BitVec 1) (d a : BitVec 5) (s : State), s.regsReady [gR a] [gR d] = true →
     let waits := fun i => ∃ t, exec i s = .next t ∧ t.apart = s.apart ∧ t.core.apart = s.core.apart ∧
       (∀ l, l ≠ s.lane → t.core.cluster l = s.core.cluster l) ∧ t.cl.apart = { s.cl.apart with since := t.cl.since } ∧
       t.cl.since ≠ none
     (4 ≤ (s.core.portAt (leftOut s.lane)).items.length → waits (.sendl sy a)) ∧
     (4 ≤ (s.core.portAt (rightOut s.lane)).items.length → waits (.sendr sy a)) ∧
     ((s.core.portAt (leftIn s.lane)).items = [] → waits (.recvl sy d)) ∧
     ((s.core.portAt (rightIn s.lane)).items = [] → waits (.recvr sy d)))

/-! ## System registers, system words, traps (R31 to R36, R151 to R157, R383 to R397) -/

/-- R31, R32, R88, R151: `srd` of an unassigned index raises SYSIDX, of a register the caller may not read PRIV; else it writes gD
with the register's value, for words that issue two warm cycles later.
R31, R33, R397: what the registers read as, and which view they need.
That TREC reads 0 outside a handler (log 13), that a handler is what holds the P view (log 10), and SCNT, WCYC and HEATWIN as counted from
the die's reset less its frozen cycles (log 16) are the model's choice or inference. -/
def Obligations.SystemRegisterReads : Prop :=
  (∀ (sy : BitVec 1) (d : BitVec 5) (x : BitVec 12) (s : State), s.regsReady [] [gR d] = true → s.core.owes = {} →
     let v := s.sysRead x.toNat
     (sysAssigned x.toNat = false → exec (.srd sy d x) s = .next (s.wordTrap 0x05 s.wordHandle)) ∧
     (sysAssigned x.toNat = true → s.mayReadSys x.toNat = false → exec (.srd sy d x) s = .next (s.wordTrap 0x06 s.wordHandle)) ∧
     (sysAssigned x.toNat = true → s.mayReadSys x.toNat = true →
       WritesG (s.recordResult d.toNat (some v)) (exec (.srd sy d x) s) sy d v 2 none)) ∧
  (∀ (s : State), let c := s.core
     s.sysRead 0x000 = c.slot.coreId.setWidth 64 ∧ s.sysRead 0x001 = c.slot.ncores.setWidth 64 ∧
     s.sysRead 0x002 = c.slot.taskId.setWidth 64 ∧ s.sysRead 0x003 = c.slot.quadId.setWidth 64 ∧
     s.sysRead 0x004 = c.slot.dieId.setWidth 64 ∧ s.sysRead 0x005 = BitVec.ofNat 64 (s.cur / 256) ∧
     s.sysRead 0x006 = BitVec.ofNat 64 (s.cur % 256) ∧
     s.sysRead 0x008 = BitVec.ofNat 64 (s.clock - (s.dieAt (s.cur / 64)).base - (s.dieAt (s.cur / 64)).frozen) ∧
     s.sysRead 0x009 = BitVec.ofNat 64 ((s.clock - (s.dieAt (s.cur / 64)).base) / 16) ∧
     s.sysRead 0x00B = c.slot.cquota.setWidth 64 ∧ s.sysRead 0x00C = c.slot.atiles.setWidth 64 ∧
     s.sysRead 0x010 = BitVec.ofNat 64 ((if c.oeqLost then 2 ^ 31 else 0) + c.oeq.length) ∧
     s.sysRead 0x013 = BitVec.ofNat 64 c.heatAcc ∧ s.sysRead 0x014 = BitVec.ofNat 64 c.heatBud ∧
     s.sysRead 0x015 = BitVec.ofNat 64 ((s.clock - (s.dieAt (s.cur / 64)).base) / 16 / 1024) ∧
     (∀ i, i < 6 → s.sysRead (0x020 + i) = BitVec.ofNat 64 (c.areaNat ((if c.nested then 0x100 else 0) + 8 * i) 8)) ∧
     s.sysRead 0x00A = c.stallCnt ∧ s.sysRead 0x00D = c.slot.osquota ∧ s.sysRead 0x012 = c.mcmask ∧
     s.sysRead 0x018 = c.chksb ∧ s.sysRead 0x019 = c.stallim ∧ s.sysRead 0x01A = c.rstlbl ∧ s.sysRead 0x01B = c.rstidx ∧
     s.sysRead 0x027 = c.tvec ∧ s.sysRead 0x029 = c.tscratch ∧ s.sysRead 0x031 = c.inj ∧ s.sysRead 0x080 = c.wselCold ∧
     (c.inHandler = false → s.sysRead 0x026 = 0) ∧ (c.inHandler = true → c.nested = false → s.sysRead 0x026 = 0xFFF0000000000000) ∧
     s.sysRead 0x028 = (if c.accLost then 1 else 0) + (if c.nested then 2 else 0) + (if c.emulate then 4 else 0) ∧
     (∀ x ∈ [0x000, 0x001, 0x002, 0x003, 0x004, 0x005, 0x008, 0x009, 0x00A, 0x00B, 0x00C, 0x00D, 0x010, 0x012, 0x013, 0x014, 0x015, 0x01A, 0x01B],
       s.mayReadSys x = true) ∧ s.mayReadSys 0x031 = s.part.debug ∧ s.mayWriteSys 0x031 = s.part.debug ∧
     (∀ x ∈ [0x006, 0x018, 0x019, 0x020, 0x026, 0x029, 0x080, 0x0BF], s.mayReadSys x = c.inHandler) ∧
     (∀ x ∈ [0x010, 0x014, 0x018, 0x019, 0x022, 0x027, 0x029, 0x080], s.mayWriteSys x = c.inHandler) ∧
     (∀ x ∈ [0x012, 0x01A, 0x01B], s.mayWriteSys x = true) ∧ (∀ x ∈ [0x000, 0x008, 0x020, 0x026, 0x100], s.mayWriteSys x = false))

/-- R151, R36: `swr` takes effect for words that issue from the next warm cycle on, in the register it names; it raises SYSIDX or
PRIV instead where the index or the view forbids it.
R31, R420, R430: the registers whose write has a behaviour of its own. -/
def Obligations.SystemRegisterWrites : Prop :=
  ((∀ (sy : BitVec 1) (a : BitVec 5) (x : BitVec 12) (s : State), s.regsReady [gR a] [] = true → s.Compared →
     (sysAssigned x.toNat = false → exec (.swr sy a x) s = .next (s.wordTrap 0x05 s.wordHandle)) ∧
     (sysAssigned x.toNat = true → s.mayWriteSys x.toNat = false → exec (.swr sy a x) s = .next (s.wordTrap 0x06 s.wordHandle)) ∧
     (sysAssigned x.toNat = true → s.mayWriteSys x.toNat = true → ∃ t, exec (.swr sy a x) s = .next t ∧
       Through (s.modCore fun c => { c with sysNext := c.sysNext ++ [(x.toNat, s.g a, s.warm)] }).countWord t sy [] none)) ∧
   ∀ (c : Core) (v : Word) (w warm : Nat), w < warm →
     let after := fun x => ({ c with sysNext := [(x, v, w)] } : Core).applyWrites warm
     let free : Core := { c with sysNext := [] }
     after 0x012 = { free with mcmask := v &&& 0xF } ∧ after 0x018 = { free with chksb := v } ∧
     after 0x019 = { free with stallim := v } ∧ after 0x01A = { free with rstlbl := v } ∧ after 0x01B = { free with rstidx := v } ∧
     after 0x027 = { free with tvec := v } ∧ after 0x029 = { free with tscratch := v } ∧ after 0x080 = { free with wselCold := v } ∧
     after 0x028 = { free with emulate := v.getLsbD 2 } ∧ after 0x010 = { free with oeqLost := c.oeqLost && !v.getLsbD 31 } ∧
     after 0x014 = { free with heatNext := some (min v.toNat c.heatCeil) } ∧ after 0x020 = free) ∧
  (∀ (v : BitVec 64) (s : State),
     let changes := fun i (f : Core → Core) => exec i s = .next (s.modCore f)
     changes (.oeqstatWrite v) (fun c => { c with oeqLost := c.oeqLost && !v.getLsbD 31 }) ∧
     changes (.heatbudWrite true v) (fun c => { c with heatCeil := v.toNat, heatNext := some v.toNat }) ∧
     changes (.heatbudWrite false v) (fun c => { c with heatNext := some (min v.toNat c.heatCeil) }) ∧
     changes (.injWrite v) (fun c => { c with inj := if injOk v then v else c.inj }) ∧
     (v.extractLsb' 5 27 ≠ 0 ∨ v.extractLsb' 51 9 ≠ 0 → injOk v = false))

/-- R397: a write to TSTAT, as it takes effect after a `swr`, changes only EMULATE: bits [1:0], ACCLOST and NESTED, ignore it. -/
def Obligations.TstatChangesOnlyEmulate : Prop :=
  ∀ (v : BitVec 64) (s : State), ∃ t, exec (.tstatWrite v) s = .next t ∧ t.apart = s.apart ∧ (∀ k, k ≠ s.cur → t.coreAt k = s.coreAt k) ∧
    { t.core with emulate := s.core.emulate } = s.core ∧ t.core.emulate = v.getLsbD 2 ∧
    (t.sysRead 0x028).extractLsb' 0 2 = (s.sysRead 0x028).extractLsb' 0 2 ∧ (t.sysRead 0x028).getLsbD 2 = v.getLsbD 2 ∧
    ∀ w warm, w < warm → ({ s.core with sysNext := [(0x028, v, w)] } : Core).applyWrites warm = { t.core with sysNext := [] }

/-- R153, R154, R157, R391, R152, R56: what the system words do once their comparison is through: `ecall` fixes its trap for the
start of the next warm cycle, `tret` the return, which tells that the record has been read as `tack` does, `tack` tells that the record has been read, `rotpt` passes, `iinv` empties the
instruction caches of the die, `oeqpop` takes the oldest overflow event, or 0.
R32, R152, R154, R391: in the user view `tret`, `tack` and `iinv` raise PRIV and are not performed.
That `iinv` empties all 64 caches in the step that performs it is the model's choice (log 8; R152 allows up to 256 warm cycles), the user
view as that of code outside a handler its inference (log 10), and so are the places where the trap of `ecall` and the return of `tret`
wait for the next warm cycle (log 51). An open replay window counts each of these words (log 50). -/
def Obligations.SystemWordsCompleteOrTrap : Prop :=
  (∀ (sy : BitVec 1) (dep : BitVec 4) (d : BitVec 5) (s : State), s.Issues dep [] [gR d] → s.Compared → s.core.owes = {} →
     let u := (s.takeDeps dep).countWord
     (∃ t, exec (.ecall sy dep) s = .next t ∧
       Through (u.modCore fun c => { c with trapNext := c.trapNext ++ [(c.level, 4096 * laneIdx s.lane + 4, s.wordHandle)] }) t sy [] none) ∧
     Passes u (exec (.rotpt sy dep) s) sy none ∧
     (s.core.oeq = [] → WritesG (u.recordResult d.toNat (some 0)) (exec (.oeqpop sy dep d) s) sy d 0 2 none) ∧
     (∀ v rest, s.core.oeq = v :: rest → ∃ n, WritesG ((u.modCore fun c => { c with oeq := rest, oeqFreed := (s.warm, n) }).recordResult
       d.toNat (some v)) (exec (.oeqpop sy dep d) s) sy d v 2 none) ∧
     (s.core.inHandler = true →
       (∃ t, exec (.tret sy dep) s = .next t ∧ Through (u.modCore fun c =>
         { c with tacked := true, returning := c.level :: c.returning }) t sy [] none) ∧
       (∃ t, exec (.tack sy dep) s = .next t ∧ Through (u.modCore fun c => { c with tacked := true }) t sy [] none) ∧
       ∃ t, exec (.iinv sy dep) s = .next t ∧ t.apart = s.apart ∧ (∀ k, k / 64 = s.cur / 64 → (t.coreAt k).l1i = []) ∧
         (∀ k, k / 64 ≠ s.cur / 64 → t.coreAt k = s.coreAt k) ∧ ∀ l, l ≠ s.lane → (t.core.cluster l).g = (s.core.cluster l).g)) ∧
  (∀ (sy : BitVec 1) (dep : BitVec 4) (s : State), s.Issues dep [] [] → s.Compared → s.core.inHandler = false →
     ∀ i ∈ [Instr.tret sy dep, .tack sy dep, .iinv sy dep], exec i s = .next (s.wordTrap 0x06 s.wordHandle))

/-- R156: `wfi` falls asleep as it issues, sleeps until woken, goes on then, and is woken after 4096 warm cycles.
R155, R369: `halt` stops the core; once its queues, string, engines, crossings, sends and atoms are through, the bind record is
ENDED, or EMPTY where its CRC does not hold, and the core runs nothing.
That the drain of `halt` is no wait at issue is the model's reading (log 9). -/
def Obligations.WfiWakesAndHaltDrains : Prop :=
  (∀ (sy : BitVec 1) (dep : BitVec 4) (s : State), s.depsReady dep = true →
     (s.cl.wait = .none → ∃ t, exec (.wfi sy dep) s = .next t ∧ t.apart = s.apart ∧ t.core.apart = s.core.apart ∧
       t.cl = { s.cl with wait := .asleep s.warm, since := t.cl.since } ∧ t.cl.since ≠ none) ∧
     (∀ w, s.cl.wait = .asleep w → exec (.wfi sy dep) s = .next s) ∧
     (∀ w, s.cl.wait = .awake w → w + 6 ≤ s.warm → s.core.willMismatch = false →
       Passes (s.takeDeps dep).countWord (exec (.wfi sy dep) s) sy none) ∧
     ∃ t, exec .wfiTimeout s = .next t ∧ t.apart = s.apart ∧ t.core.apart = s.core.apart ∧
       ∀ l, (t.core.cluster l) = { s.core.cluster l with wait := (t.core.cluster l).wait } ∧
         (∀ w, (s.core.cluster l).wait = .asleep w →
           (t.core.cluster l).wait = if w + 4096 ≤ s.warm then .awake w else .asleep w)) ∧
  (∀ (sy : BitVec 1) (dep : BitVec 4) (s : State),
     (s.core.halting = false → s.Issues dep [] [] → s.Compared → ∃ t, exec (.halt sy dep) s = .next t ∧ t.apart = s.apart ∧
       t.core.halting = true ∧ t.core.lq = s.core.lq ∧ t.core.cold = s.core.cold ∧ ∀ l n, (t.core.cluster l).rg n = (s.core.cluster l).rg n) ∧
     (s.core.halting = true → s.core.drained_ = false → exec (.halt sy dep) s = .next s) ∧
     (∀ r, s.core.halting = true → s.core.drained_ = true → s.core.run = some r → ∃ t, exec (.halt sy dep) s = .next t ∧
       t.core.run = none ∧ ((s.core.slotAt r).badCrc = none → (t.core.slotAt r).state = .ended) ∧
       ((s.core.slotAt r).badCrc ≠ none → (t.core.slotAt r).state = .empty) ∧ t.core.shares = [] ∧ t.clock = s.clock))

/-- R384, R385, R388 to R390: `brk` and a word-class fault outside a handler enter the handler: TCAUSE, TADDR and the four PCs stand in
the record, all four clusters start JOINED at TVEC with TREC in g1 and their stack in g30, every other register 0, FIFOs empty; the save areas hold
the registers, the loop nest and the incoming link FIFOs of each cluster; memory is untouched. The words of the trapping bundle have not
issued, and the PC of a cluster that waits for its queue entry lies past its word.
R383, R385, R390: a fault that reaches a core outside a handler enters the handler with its TCAUSE and TADDR in the record; only a
queue-class fault touches a queue; a core that runs nothing takes none.
That an entry fault's order is that of the agenda, that TVEC 0 is entered like any other (logs 3 and 42), and that a word waiting for its
queue entry counts as issued (log 41), is the model's reading. -/
def Obligations.TrapEntrySavesAndEnters : Prop :=
  ((∀ (sy : BitVec 1) (s : State), exec (.brk sy) s = .next (s.wordTrap 0x03 s.wordHandle)) ∧
   ∀ (code : Nat) (addr : Word) (s : State), s.core.inHandler = false → s.core.back = [] → code < 4096 → code ≠ 0x15 → code ≠ 0x1C → code ≠ 0x1B →
     let t := s.wordTrap code addr
     let c := t.core
     c.inHandler = true ∧ c.nested = false ∧ c.tacked = false ∧ c.tok = [] ∧ c.port = [] ∧ c.win = none ∧ c.replay = none ∧
     c.areaNat 0 8 = 4096 * laneIdx s.lane + code ∧ c.areaNat 8 8 = addr.toNat ∧
     (∀ l, c.areaNat (0x10 + 8 * laneIdx l) 8 = ((s.core.unissue s.lane).cluster l).nextPc.toNat) ∧
     (∀ l, (c.cluster l).pc = s.core.tvec ∧ (c.cluster l).split = false ∧ (c.cluster l).loops = [] ∧
       (∀ n, (c.cluster l).rg n = if n = 1 then 0xFFF0000000000000
         else if n = 30 then 0xFFF0000000000000 + BitVec.ofNat 64 (0x2400 + 0x700 * (laneIdx l + 1)) else 0) ∧
       (∀ n, (c.cluster l).rp n = decide (n = 0)) ∧ ∀ n, (c.cluster l).rc n = 0) ∧
     (∀ l,
       let x := s.core.cluster l
       let b := 0x400 + 1024 * laneIdx l
       (∀ n, n < 32 → c.areaNat (b + 8 * n) 8 = (x.rg n).toNat) ∧
       (∀ n, n < 4 → c.areaNat (b + 0x100) 1 / 2 ^ n % 2 = if x.rp n then 1 else 0) ∧
       (∀ n, n < 7 → c.areaNat (b + 0x108 + 4 * n) 4 = (x.rc n).toNat) ∧
       (∀ i e, i < 4 → x.loops[i]? = some e →
         c.areaNat (b + 0x128 + 32 * i) 8 = e.remaining.toNat ∧ c.areaNat (b + 0x130 + 32 * i) 8 = e.start.toNat ∧
         c.areaNat (b + 0x138 + 32 * i) 8 = e.stop.toNat ∧ c.areaNat (b + 0x140 + 32 * i) 8 = e.id.toNat) ∧
       (∀ i w v, i < 4 → (s.core.portAt (leftIn l)).items[i]? = some (w, v) → c.areaNat (b + 0x1A8 + 8 * i) 8 = v.toNat) ∧
       ∀ i w v, i < 4 → (s.core.portAt (rightIn l)).items[i]? = some (w, v) → c.areaNat (b + 0x1C8 + 8 * i) 8 = v.toNat) ∧
     t.mem = s.mem ∧ t.parts = s.parts ∧ c.sq = s.core.sq ∧
     ((∀ l, (s.core.cluster l).wait.issued = false) → c.lq = s.core.lq ∧ c.eq = s.core.eq) ∧
     { c.cold with mat := s.core.cold.mat, vec := s.core.cold.vec, tmp := s.core.cold.tmp } = s.core.cold ∧
     ∀ e, { c.engine e with acted := (s.core.engine e).acted } = s.core.engine e) ∧
  (∀ (c : Core) (me : Lane),
     let x := c.cluster me
     ∀ l, (c.unissue me).cluster l =
         (if l = me ∨ (x.split = false ∧ (c.cluster l).split = false ∧ (c.cluster l).pc = x.pc ∧ (c.cluster l).done = false) then
            { c.cluster l with wait := .none }
          else c.cluster l) ∧
       (c.cluster l).nextPc = (if (c.cluster l).done then (c.cluster l).xfer.getD ((c.cluster l).pc + 16)
         else if (c.cluster l).wait.issued then (c.cluster l).pc + 16 else (c.cluster l).pc)) ∧
  (∀ (cause : BitVec 16) (addr : BitVec 64) (s : State),
     (s.core.run = none → exec (.trapEntry cause addr) s = .next s) ∧
     (s.core.run ≠ none → s.core.inHandler = false → s.core.back = [] → ∃ t, exec (.trapEntry cause addr) s = .next t ∧
       t.core.inHandler = true ∧ t.core.nested = false ∧ t.core.areaNat 0 8 = cause.toNat ∧ t.core.areaNat 8 8 = addr.toNat ∧ t.mem = s.mem ∧
       (∀ l, (t.core.cluster l).pc = s.core.tvec) ∧
       (cause.extractLsb' 14 2 ≠ 1 → t.core.lq = s.core.lq ∧ t.core.sq = s.core.sq ∧ t.core.eq = s.core.eq)))

/-- R391, R393: a fault in a handler before `tack` is a double fault: the task ends.
R396, R389: a return from a handler that has issued no engine command brings back every cluster's registers, its mode, its loops and the
word it goes on with, and what the FIFOs held.
R392: a fault after `tack` enters the nested handler, with record slot 1, and its return goes back to the handler.
R396, R398: a return after a handler's engine command resumes all clusters JOINED at RSTLBL with their registers, queues and FIFOs empty
and the engines idle, or ends the task where the restart table does not name the label.
The CAUSE of a double fault is the model's reading (log 42). That a joined cluster comes back with its done flag and pc, going on as having
performed its word, and that one whose word waits for its queue entry goes on waiting, is the model's choice (log 41). -/
def Obligations.DoubleFaultsEndAndReturnsRestore : Prop :=
  (∀ (code : Nat) (addr : Word) (i : BitVec 1) (s : State), s.core.inHandler = true → s.core.tacked = false → s.core.run = some i → code ≠ 0x1B →
     ((s.wordTrap code addr).coreAt s.cur).run = none ∧
     ((s.core.slotAt i).badCrc = none → (((s.wordTrap code addr).coreAt s.cur).slotAt i).state = .ended)) ∧
  (∀ (code : Nat) (addr : Word) (s : State), s.core.inHandler = false → s.core.back = [] → s.core.accLost = false → code < 4096 → code ≠ 0x1B →
     let c := (s.wordTrap code addr).trapReturn.core
     c.inHandler = false ∧ c.accLost = false ∧ s.Restored code addr 1) ∧
  (∀ (code : Nat) (addr : Word) (s : State), s.core.inHandler = true → s.core.nested = false → s.core.tacked = true → s.core.back = [] →
     code < 4096 → code ≠ 0x15 → code ≠ 0x1C → code ≠ 0x1B →
     let c := (s.wordTrap code addr).core
     let r := (s.wordTrap code addr).trapReturn.core
     c.inHandler = true ∧ c.nested = true ∧ c.areaNat 0x100 8 = 4096 * laneIdx s.lane + code ∧ c.areaNat 0x108 8 = addr.toNat ∧
     (∀ l, (c.cluster l).pc = s.core.tvec ∧ (c.cluster l).rg 1 = 0xFFF0000000000100) ∧
     r.inHandler = true ∧ r.nested = false ∧ r.tacked = true ∧ s.Restored code addr 2) ∧
  (∀ (s : State), s.core.inHandler = true → s.core.nested = false → s.core.accLost = true →
     let t := s.trapReturn
     (s.restartOk = true → t.core.inHandler = false ∧ t.core.accLost = false ∧ t.core.lq = [] ∧ t.core.eq = [] ∧ t.core.tok = [] ∧
       t.core.port = [] ∧ (∀ e, (t.core.engine e).run = false ∧ (t.core.engine e).armed = none ∧ (t.core.engine e).start = []) ∧
       ∀ l, (t.core.cluster l).pc = s.core.rstlbl ∧ (t.core.cluster l).split = false ∧ (t.core.cluster l).loops = [] ∧
         (t.core.cluster l).wait = .none ∧
         ∀ n, 0 < n → n < 32 → (t.core.cluster l).rg n = BitVec.ofNat 64 (s.core.areaNat (0x400 + 1024 * laneIdx l + 8 * n) 8)) ∧
     (∀ r, s.restartOk = false → s.core.run = some r → t.core.run = none))

/-! ## Loads, stores, queues (R131, R136 to R139, R328) -/

/-- R19, R112, R131: an entry goes to the tail of its queue with the next number, its lane, its warm cycle, its word and, for every loop of
its cluster, the loop's instance and iteration; a kill marker in force for an earlier iteration retires it; nothing else of the core
changes but what an open replay window retains.
R136, R137, R120: `ld` and `st` that pass their checks enter their queue: the load's register waits for the data, the store carries
the low bytes of gD.
R138, R139: `qmark` and the cache words place one marker in the load queue and one in the store queue; a range that does not lie
inside one region raises XLATE. -/
def Obligations.LoadsStoresAndMarkersEnterTheirQueue : Prop :=
  (∀ (q : QueueId) (op : QOp) (s : State), q ≠ .string →
     let t := s.enqueue q op
     ∃ e, t.core.queue q = s.core.queue q ++ [e] ∧ e.op = op ∧ e.seq = s.core.issued q + 1 ∧ e.lane = s.lane ∧ e.warm = s.warm ∧
       e.word = s.cl.pc + BitVec.ofNat 64 (4 * laneIdx s.lane) ∧ e.held = none ∧
       e.level = s.core.level ∧ e.joined = !s.cl.split ∧
       e.tags = s.cl.loops.map (fun x => (x.inst, x.initial.toNat - x.remaining.toNat)) ∧
       (e.killed = true ↔ ∃ x ∈ s.cl.loops, ∃ i, x.kill = some i ∧ i < x.initial.toNat - x.remaining.toNat) ∧
       t.core.issued q = s.core.issued q + 1 ∧
       (∀ r, r ≠ q → t.core.queue r = s.core.queue r ∧ t.core.issued r = s.core.issued r) ∧
       (∀ l, t.core.cluster l = s.core.cluster l) ∧ t.core.cold = s.core.cold ∧ t.core.l1d = s.core.l1d ∧ t.core.back = s.core.back ∧
       t.apart = s.apart ∧ ∀ k, k ≠ s.cur → t.coreAt k = s.coreAt k) ∧
  (∀ (sy : BitVec 1) (d a : BitVec 5) (z : BitVec 3) (i : BitVec 12) (s : State) (p : Place),
     s.regsReady [gR a, gR d] [gR d] = true →
     let h := s.g a + i.signExtend 64
     let n := if z.toNat % 4 = 0 then 1 else if z.toNat % 4 = 1 then 2 else if z.toNat % 4 = 2 then 4 else 8
     (s.core.lq.length < 32 → s.access h n n false = .pass p → s.ldBad p n = none →
       AwaitsG (s.enqueue .load (.load h z s.lane d.toNat)) (exec (.ld sy d a z i) s) sy d) ∧
     (s.core.sq.length < 32 → s.access h n n true = .pass p →
       Passes (s.enqueue .store (.store h n (s.g d))) (exec (.st sy d a z i) s) sy none)) ∧
  (∀ (sy : BitVec 1) (dep : BitVec 4) (a b : BitVec 5) (s : State), s.Issues dep [gR a, gR b] [] →
     s.core.lq.length < 32 → s.core.sq.length < 32 →
     let u := s.takeDeps dep
     let marked := fun (op : Nat → QOp) => (((u.enqueue .load (op s.core.markNo)).enqueue .store (op s.core.markNo)).modCore
       fun c => { c with markNo := s.core.markNo + 1 })
     Passes (marked .marker) (exec (.qmark sy dep) s) sy none ∧
     (s.g b = 0 ∨ s.place (s.g a) (s.g b).toNat ≠ none →
       Passes (marked (.cmaint 0 (s.g a) (s.g b))) (exec (.cwb sy dep a b) s) sy none ∧
       Passes (marked (.cmaint 1 (s.g a) (s.g b))) (exec (.cinv sy dep a b) s) sy none ∧
       Passes (marked (.cmaint 2 (s.g a) (s.g b))) (exec (.cwbinv sy dep a b) s) sy none) ∧
     (s.g b ≠ 0 → s.place (s.g a) (s.g b).toNat = none → ∀ i ∈ [Instr.cwb sy dep a b, .cinv sy dep a b, .cwbinv sy dep a b],
       exec i s = .next (s.wordTrap 0x08 (s.firstOut s.partNo (s.g a)))))

/-- R136: the checks of an access at issue, in order: alignment, the region TLB, range, ownership.
R136: `ld` and `st` whose handle fails a check raise its trap with TADDR = h and are not performed; a full queue and a region TLB
miss hold the word at issue.
That an `ld` of a line with an uncorrectable error traps at issue is the model's reading (log 44). -/
def Obligations.AccessChecksInOrder : Prop :=
  (∀ (h : Word) (n al : Nat) (write : Bool) (s : State), 0 < al →
     (h.toNat % al ≠ 0 → s.access h n al write = .trap 0x07 h) ∧
     (h.toNat % al = 0 → regionIdx h ≠ 0xFFF →
       (regionIdx h ∉ s.core.tlb → s.access h n al write = .walk (regionIdx h)) ∧
       (regionIdx h ∈ s.core.tlb →
         (s.locate s.partNo h n = none → s.access h n al write = .trap 0x08 h) ∧
         (∀ r k, s.locate s.partNo h n = some (r, k) →
           (write = false → r.rw = false → s.access h n al write = .pass (.home (regionIdx h) k)) ∧
           (write = true → r.rw = false → s.access h n al write = .trap 0x09 h) ∧
           (write = false → r.rw = true → offsetOf h % 65536 + n ≤ 65536 → (s.part.headOf (unitOf r h)).1 ∈ s.core.shares →
             s.access h n al write = .pass (.home (regionIdx h) k)) ∧
           (write = true → s.exclusive (s.part.headOf (unitOf r h)).2 = false → s.access h n al write = .trap 0x09 h) ∧
           (r.rw = true → (s.part.headOf (unitOf r h)).1 ∉ s.core.shares → s.holds (s.part.headOf (unitOf r h)).2 = false →
             s.access h n al write = .trap 0x09 h) ∧
           (r.rw = true → offsetOf h % 65536 + n ≤ 65536 → s.core.sends = [] → s.holds (s.part.headOf (unitOf r h)).2 = true →
             (s.part.headOf (unitOf r h)).2.mode = .excl → s.access h n al write = .pass (.home (regionIdx h) k)))))) ∧
  (∀ (sy : BitVec 1) (d a : BitVec 5) (z : BitVec 3) (i : BitVec 12) (s : State), s.regsReady [gR a, gR d] [gR d] = true →
     let h := s.g a + i.signExtend 64
     (∀ code addr, s.core.lq.length < 32 → s.access h (Machine.sizeOf z) (Machine.sizeOf z) false = .trap code addr →
       exec (.ld sy d a z i) s = .next (s.wordTrap code addr)) ∧
     (∀ p line, s.core.lq.length < 32 → s.access h (Machine.sizeOf z) (Machine.sizeOf z) false = .pass p →
       s.ldBad p (Machine.sizeOf z) = some line → exec (.ld sy d a z i) s = .next (s.wordTrap 0x1B (BitVec.ofNat 64 line))) ∧
     (∀ code addr, s.core.sq.length < 32 → s.access h (Machine.sizeOf z) (Machine.sizeOf z) true = .trap code addr →
       exec (.st sy d a z i) s = .next (s.wordTrap code addr)) ∧
     (32 ≤ s.core.lq.length → ∃ t, exec (.ld sy d a z i) s = .next t ∧ t.core.apart = s.core.apart ∧ t.apart = s.apart ∧
       t.cl.since ≠ none ∧ t.cl.g = s.cl.g ∧ t.cl.pc = s.cl.pc) ∧
     (32 ≤ s.core.sq.length → ∃ t, exec (.st sy d a z i) s = .next t ∧ t.core.apart = s.core.apart ∧ t.apart = s.apart ∧
       t.cl.since ≠ none ∧ t.cl.g = s.cl.g ∧ t.cl.pc = s.cl.pc) ∧
     (∀ r, s.core.lq.length < 32 → s.access h (Machine.sizeOf z) (Machine.sizeOf z) false = .walk r →
       ∃ t, exec (.ld sy d a z i) s = .next t ∧ t.mem = s.mem ∧ t.core.lq = s.core.lq ∧ t.cl.since ≠ none ∧ t.cl.g = s.cl.g) ∧
     (∀ r, s.core.sq.length < 32 → s.access h (Machine.sizeOf z) (Machine.sizeOf z) true = .walk r →
       ∃ t, exec (.st sy d a z i) s = .next t ∧ t.mem = s.mem ∧ t.core.sq = s.core.sq ∧ t.cl.since ≠ none ∧ t.cl.g = s.cl.g ∧
         ((s.dieAt (s.cur / 64)).walks = [] → ∃ due, (t.dieAt (s.cur / 64)).walks = [(s.cur, r, due)] ∧ s.clock < due)))

/-- R137, R78, R114: a load at the head of the load queue reads its bytes from its L1 line, or from memory where no line is cached, and
is out of the queue; `LOAD_DATA_RETURN` writes gD.
R137, R328: a store at the head of the store queue writes its bytes into the L1 line, filled first on a miss, and nothing of
memory; the line's other bytes and the other lines stay. An access is aligned to its size (R136) and so lies in one line.
R328: a fill of a full set evicts its least recently used line: the dirty bytes of it go home, and no other byte.
That a byte not cached reads as memory stands, the moment of the read, and the eviction of the least recently used line are the model's
reading (log 8). -/
def Obligations.LoadsReadAndStoresWriteTheirLine : Prop :=
  ((∀ (e : QEntry) (h : Word) (z : BitVec 3) (l : Lane) (d r key : Nat) (s : State),
     s.ready .load = some e → e.op = .load h z l d → e.killed = false → s.core.willMismatch = false → s.core.replay = none →
     s.placeQ h (Machine.sizeOf z) = some (.home r key) → key % 64 + Machine.sizeOf z ≤ 64 → s.badFill key (Machine.sizeOf z) = none →
     ∃ t x, exec .loadPerform s = .next t ∧ t.core.back = s.core.back ++ [x] ∧ x.lane = l ∧ x.d = d ∧
       s.warm + 4 ≤ x.due ∧ t.core.lq = s.core.lq.filter (fun y => !decide (y.seq = e.seq)) ∧ t.core.sq = s.core.sq ∧
       ((∀ y ∈ s.core.l1d, y.addr ≠ key / 64) → (s.core.l1d.filter fun y => decide (y.addr % 128 = key / 64 % 128)).length < 8 →
         x.value = extend z (leNat (s.bytes key (Machine.sizeOf z))) ∧ t.mem = s.mem ∧
         ∃ y ∈ t.core.l1d, y.addr = key / 64 ∧ y.mask = 0 ∧ ∀ i, i < 64 → y.data.extractLsb' (8 * i) 8 = s.byte (64 * (key / 64) + i)) ∧
       (∀ y, s.core.l1d.find? (fun y => decide (y.addr = key / 64)) = some y →
         x.value = extend z (y.data.toNat / 2 ^ (8 * (key % 64)) % 2 ^ (8 * Machine.sizeOf z)) ∧ t.mem = s.mem ∧ x.due = s.warm + 4)) ∧
   (∀ (x : Returning) (rest : List Returning) (s : State), s.core.back = x :: rest → x.due ≤ s.warm →
     x.level = s.core.level ∨ s.core.halting = true → s.core.win = none →
     ∃ t, exec .loadDataReturn s = .next t ∧ t.core.back = rest ∧ t.mem = s.mem ∧ (x.level = s.core.level → (t.core.cluster x.lane).rg x.d = (if x.d = 0 then 0 else x.value) ∧ (∀ n, n ≠ x.d → (t.core.cluster x.lane).rg n = (s.core.cluster x.lane).rg n) ∧
       ∀ l, l ≠ x.lane → t.core.cluster l = s.core.cluster l)) ∧
   (∀ v : Nat, v < 2 ^ 8 → extend 0 v = (BitVec.ofNat 8 v).signExtend 64 ∧ extend 4 v = BitVec.ofNat 64 v) ∧
   (∀ v : Nat, v < 2 ^ 16 → extend 1 v = (BitVec.ofNat 16 v).signExtend 64 ∧ extend 5 v = BitVec.ofNat 64 v) ∧
   (∀ v : Nat, v < 2 ^ 32 → extend 2 v = (BitVec.ofNat 32 v).signExtend 64 ∧ extend 6 v = BitVec.ofNat 64 v) ∧
   (∀ v : Nat, extend 3 v = BitVec.ofNat 64 v)) ∧
  (∀ (e : QEntry) (h v : Word) (n r key : Nat) (s : State),
     s.ready .store = some e → e.op = .store h n v → e.killed = false → s.core.willMismatch = false → s.core.replay = none →
     s.placeQ h n = some (.home r key) → key % 64 + n ≤ 64 → n ≤ 8 → s.lineBad (key / 64) = false →
     let old := s.core.l1d.find? fun y => decide (y.addr = key / 64)
     (old ≠ none ∨ (s.core.l1d.filter fun y => decide (y.addr % 128 = key / 64 % 128)).length < 8) →
     ∃ t x, exec .storePerform s = .next t ∧ t.mem = s.mem ∧ t.core.sq = s.core.sq.filter (fun y => !decide (y.seq = e.seq)) ∧
       t.core.lq = s.core.lq ∧ x ∈ t.core.l1d ∧ x.addr = key / 64 ∧ (∀ y ∈ s.core.l1d, y.addr ≠ key / 64 → y ∈ t.core.l1d) ∧
       (∀ i, i < 64 → x.data.extractLsb' (8 * i) 8 =
         if key % 64 ≤ i ∧ i < key % 64 + n then v.extractLsb' (8 * (i - key % 64)) 8
         else match old with
           | some y => y.data.extractLsb' (8 * i) 8
           | none => s.byte (64 * (key / 64) + i)) ∧
       ∀ i, i < 64 → x.mask.getLsbD i = (decide (key % 64 ≤ i ∧ i < key % 64 + n) || (match old with | some y => y.mask.getLsbD i | none => false))) ∧
  (∀ (key : Nat) (v : Line) (s : State), (∀ y ∈ s.core.l1d, y.addr ≠ key / 64) →
     8 ≤ (s.core.l1d.filter fun y => decide (y.addr % 128 = key / 64 % 128)).length → v ∈ s.core.l1d → v.addr % 128 = key / 64 % 128 →
     (∀ y ∈ s.core.l1d, y.addr % 128 = key / 64 % 128 → y ≠ v → v.used < y.used) → (∀ y ∈ s.core.l1d, y ≠ v → y.addr ≠ v.addr) →
     (s.pkgAt (keyPkg (64 * v.addr))).failed = false → (∀ k, mirrorIn k s.part.regions = none) →
     let t := (s.fillLine key).2
     (∀ j, t.byte j = if j / 64 = v.addr ∧ v.mask.getLsbD (j % 64) = true then v.data.extractLsb' (8 * (j % 64)) 8 else s.byte j) ∧
     (∀ y ∈ s.core.l1d, y ≠ v → y ∈ t.core.l1d) ∧ (∀ y ∈ t.core.l1d, y.addr ≠ v.addr) ∧
     ∃ y ∈ t.core.l1d, y.addr = key / 64 ∧ y.mask = 0)

/-- R328, R7: memory reads back the byte written last; every other byte stays. -/
def Obligations.MemoryReadsBackWhatWasWritten : Prop :=
  ∀ (s : State) (key j : Nat) (b : Byte) (bs : List Byte),
    (s.setByte key b).byte j = (if j = key then b else s.byte j) ∧
    (s.setBytes key bs).byte j = (if h : key ≤ j ∧ j < key + bs.length then bs[j - key]'(by omega) else s.byte j) ∧
    (s.setBytes key bs).bytes key bs.length = bs

/-! ## Crossings, shapes, engine control (R141 to R192) -/

/-- R163, R164, R185: a crossing that passes every check writes gD with its cancel handle, enters its queue, and keeps a snapshot
of its operands: shape, coordinates, cold address, and the stamp SCNT + gB[31:0]. So a dense crossing does, one of a ragged record, whose
rows its boundary table plans (R229, R230), and one of packed weights, which stages its blocks (R179).
R163, R161: a crossing whose operand registers are malformed raises XARG, one whose shape does not suit it SHAPE; neither is
performed.
R163, R227, R231, R178: the traps after these in order: XLATE for a table or a warm byte out of range, OWNF, BOUNDX, QUOTA, PACKED; none is
performed.
A table whose lines hold no uncorrectable error is what these clauses are about; log 53 tells of the others. -/
def Obligations.DenseCrossingsIssueOrTrap : Prop :=
  (∀ (sy : BitVec 1) (dep n : BitVec 4) (d a b : BitVec 5) (s : State),
     let r := s.core.shape n.toNat
     let c : List Int := (List.range (shpRank r)).map fun i => (s.cl.rc i).toInt
     let rows := fun (mode : BitVec 2) (st : Option (List Nat)) => (List.range (rowCount r)).map fun i => planRow r c mode st i
     let caddr := ((s.g a).extractLsb' 0 19).toNat
     let btab := shpBtab r
     let table := handleOf (regionIdx btab) 0
     s.Issues dep ([gR a, gR b] ++ (List.range 7).map RegRef.c) [gR d] → s.core.lq.length < 32 → s.core.sq.length < 32 →
     s.core.outstanding < 512 → s.core.shpBusy = [] → s.core.replay = none → s.cl.loops = [] → s.core.inHandler = false →
     (s.g a).extractLsb' 23 41 = 0 → (s.g a).extractLsb' 0 5 = 0 → (s.g b).extractLsb' 48 16 = 0 → s.core.mcmask.toNat % 16 ≠ 0 →
     let tabid := ((s.g b).extractLsb' 32 16).toNat
     let issues := fun (i : Instr) (kind : BitVec 2) (q : QueueId) (plan : List RowPlan) (staged : List (List Byte)) =>
       ∃ u x e, WritesG u (exec i s) sy d (BitVec.ofNat 64 (s.core.xseq % 2 ^ 32 * 256 + kind.toNat * 2 + 1)) 1 none ∧
         u.apart = s.apart ∧ u.core.xings = s.core.xings ++ [x] ∧ x.seq = s.core.xseq ∧ u.core.xseq = s.core.xseq + 1 ∧ x.kind = kind ∧
         x.warm = s.warm ∧ x.stamp = s.scnt + ((s.g b).extractLsb' 0 32).toNat ∧ x.shape = r ∧ x.coord = c ∧ x.cold = s.g a ∧
         x.admitted = false ∧ x.due = none ∧ x.captured = none ∧ x.lost = none ∧ x.rows = plan ∧ x.staged = staged ∧
         u.core.queue q = s.core.queue q ++ [e] ∧ e.op = .crossing s.core.xseq ∧ u.core.cold = s.core.cold ∧ u.core.l1d = s.core.l1d ∧
         ∀ l, u.core.cluster l = s.core.cluster l
     let traps := fun (i : Instr) (code : Nat) (addr : Word) => exec i s = .next (s.wordTrap code addr)
     -- the three kinds with the instruction of mode `m`, its queue, and whether it leaves the cold store
     (∀ (kind m : BitVec 2) (i : Instr) (q : QueueId) (out : Bool),
       (kind = 0 ∧ i = .xin sy dep d a b n m ∧ q = .load ∧ out = false) ∨ (kind = 1 ∧ i = .xinm sy dep d a b n m ∧ q = .load ∧ out = false) ∨
         (∃ k : BitVec 1, kind = 2 ∧ m = k.zeroExtend 2 ∧ i = .xout sy dep d a b n k ∧ q = .store ∧ out = true) →
       m.toNat < 2 → tabid = 0 → shapeSuits r c m out = true →
       let whole := caddr + rowCount r * rowBytes r false
       (shpRagax r = 7 →
         let runs : List (Nat × Int × Nat) := warmRuns r c false (rows m none)
         (∀ x ∈ runs, s.needsWalk ((x.2.1 / (4503599627370496 : Int)).toNat % 4096) = false) →
         (∀ bad, s.firstBad runs = some bad → traps i 0x08 bad) ∧
         (s.firstBad runs = none →
           (∀ x rest, runs = x :: rest → s.runsAllowed out runs = false →
             traps i 0x09 (handleOf ((x.2.1 / (4503599627370496 : Int)).toNat % 4096) 0)) ∧
           (s.runsAllowed out runs = true →
             (s.core.slot.cquota.toNat < whole → traps i 0x0E s.wordHandle) ∧
             (whole ≤ s.core.slot.cquota.toNat → issues i kind q (rows m none) [])))) ∧
       (∀ st : List Nat, shpRagax r ≠ 7 → s.needsWalk (regionIdx btab) = false →
         (∀ bad, s.pinnedRange btab (tableBytes r false) = some bad → traps i 0x08 bad) ∧
         (s.pinnedRange btab (tableBytes r false) = none → s.badSource r false true [] = none →
           ((s.boundary r).1 = none → traps i 0x0C s.wordHandle) ∧
           ((s.boundary r).1 = some st →
             let runs : List (Nat × Int × Nat) := warmRuns r c false (rows m (some st))
             (∀ x ∈ runs, s.needsWalk ((x.2.1 / (4503599627370496 : Int)).toNat % 4096) = false) → s.firstBad runs = none →
             (s.mayReadTable btab (tableBytes r false) = false → traps i 0x09 table) ∧
             (s.mayReadTable btab (tableBytes r false) = true → s.runsAllowed out runs = true →
               (∀ h, shpBmode r = 0 → firstSpan r c st (rows m (some st)) = some h → traps i 0x0D h) ∧
               ((shpBmode r = 0 → firstSpan r c st (rows m (some st)) = none) →
                 (s.core.slot.cquota.toNat < whole → traps i 0x0E s.wordHandle) ∧
                 (whole ≤ s.core.slot.cquota.toNat → issues i kind q (rows m (some st)) []))))))) ∧
     (∀ (kind : BitVec 2) (i : Instr), (kind = 0 ∧ i = .xin sy dep d a b n 2) ∨ (kind = 1 ∧ i = .xinm sy dep d a b n 2) →
       shapeSuits r c 2 false = true → s.needsWalk (regionIdx btab) = false →
       let runs : List (Nat × Int × Nat) := warmRuns r c true (rows 2 none)
       let img := (s.keyOf btab 1044).getD 0
       let read := fun (h : Word) => match s.keyOf h 576 with | some k => s.anyBytes k 576 | none => []
       let blocks := blockList r c (rows 2 none)
       let whole := caddr + rowCount r * rowBytes r true
       (btab.toNat % 16 ≠ 0 → traps i 0x08 btab) ∧
       (btab.toNat % 16 = 0 → (∀ bad, s.pinnedRange btab 1044 = some bad → traps i 0x08 bad) ∧
         (s.pinnedRange btab 1044 = none → s.badSource r true false [] = none → (∀ x ∈ blocks, s.badSource r false false [x.2.2] = none) →
           (∀ x ∈ runs, s.needsWalk ((x.2.1 / (4503599627370496 : Int)).toNat % 4096) = false) → s.firstBad runs = none →
           s.mayReadTable btab 1044 = true → s.runsAllowed false runs = true → whole ≤ s.core.slot.cquota.toNat →
           (s.imageOk img tabid = false → traps i 0x0F btab) ∧
           (s.imageOk img tabid = true → (∀ x ∈ blocks, s.blockOk (read x.2.2) tabid img = true) →
             issues i kind .load (rows 2 none) (blocks.map fun y => (read y.2.2).take 544)) ∧
           (∀ x pre post, s.imageOk img tabid = true → blocks = pre ++ x :: post → (∀ y ∈ pre, s.blockOk (read y.2.2) tabid img = true) →
             s.blockOk (read x.2.2) tabid img = false → traps i 0x0F x.2.2))))) ∧
  (∀ (sy : BitVec 1) (dep n : BitVec 4) (d a b : BitVec 5) (s : State),
     s.Issues dep ([gR a, gR b] ++ (List.range 7).map RegRef.c) [gR d] → s.core.lq.length < 32 → s.core.sq.length < 32 →
     s.core.outstanding < 512 → s.core.shpBusy = [] →
     ((s.g a).extractLsb' 23 41 ≠ 0 ∨ (s.g b).extractLsb' 48 16 ≠ 0 ∨ (s.g a).extractLsb' 0 5 ≠ 0 →
       ∀ i ∈ [Instr.xin sy dep d a b n 0, .xinm sy dep d a b n 0, .xout sy dep d a b n 0], exec i s = .next (s.wordTrap 0x0B s.wordHandle)) ∧
     ((s.g a).extractLsb' 23 41 = 0 → (s.g b).extractLsb' 32 32 = 0 → (s.g a).extractLsb' 0 5 = 0 → s.core.shape n.toNat = 0 →
       ∀ i ∈ [Instr.xin sy dep d a b n 0, .xout sy dep d a b n 0], exec i s = .next (s.wordTrap 0x0C s.wordHandle)))

/-- R427, R170, R182: the crossing at the head of the load or the store queue passes the heat test or is held, as every tested entry of
every queue is; once admitted it is charged, leaves its queue, and an `xin` gets the cold cycle by which its last byte is in place.
R165, R169: the bytes of each in-bounds row go from the home to their places in the cold store, and no other byte of it changes.
R170, R173, R148: a part of an `xin`'s granules may be in place before; its completion, where this core alone receives it, delivers
its bytes, takes it off the core and pulses e3; a captured `xout` is written home and pulses e4.
R171, R172: an admitted `xout` whose stamp SCNT has reached, with the `xin`s due by then in place, captures its footprint, with the
egress buffer empty, in the cycle of its step; nothing else is changed.
R172, R142: while a core of the die is late the die stalls and STALLCNT of its tasks rises; when none is, the stall ends; a late core
whose die has stalled for STALLIM traps SMISS.
The cycles of the early part and of the last byte are free values within their bounds (log 1). -/
def Obligations.CrossingsAreAdmittedAndComplete : Prop :=
  (∀ (q : QueueId) (e : QEntry) (n charge : Nat) (x : Crossing) (s : State), q = .load ∨ q = .store → s.ready q = some e → e.op = .crossing n →
     s.testedCharge q e = some charge → s.core.willMismatch = false → e.held = none → s.core.xings = [x] → x.seq = n →
     s.core.heatAcc + s.core.heatAdm + charge ≤ s.core.heatBud → ∃ t due early, exec (.crossingAdmit q) s = .next t ∧
       t.core.heatNow = s.core.heatNow + charge ∧ t.core.heatAdm = s.core.heatAdm + charge ∧
       (t.pkgAt (s.cur / 256)).posted = (s.pkgAt (s.cur / 256)).posted + charge ∧
       t.core.queue q = (s.core.queue q).filter (fun y => !decide (y.seq = e.seq)) ∧
       t.core.xings = [{ x with admitted := true, due := if x.kind = 2 then none else some due, early := if x.kind = 2 then none else some early }] ∧
       s.clock < early ∧ early ≤ due ∧ t.mem = s.mem ∧ t.core.cold = s.core.cold) ∧
  (∀ (q : QueueId) (e : QEntry) (charge : Nat) (s : State), s.ready q = some e → s.testedCharge q e = some charge →
     s.core.willMismatch = false → e.held = none → (∀ n, e.op.waitsFor = some n → s.core.idle n = true) →
     s.core.heatBud < s.core.heatAcc + s.core.heatAdm + charge → ∃ t, exec (.crossingAdmit q) s = .next t ∧ t.apart = s.apart ∧
       t.core.xings = s.core.xings ∧ t.core.heatNow = s.core.heatNow ∧ t.core.cold = s.core.cold ∧
       t.core.queue q = (s.core.queue q).map (fun y => if y.seq = e.seq then { y with held := some (y.held.getD s.window) } else y)) ∧
  (∀ (x : Crossing) (s : State), s.core.xings = [x] → x.seq < 2 ^ 32 → x.admitted = true →
     (x.early ≠ none → exec (.crossingComplete (BitVec.ofNat 32 x.seq)) s = .next (s.deliverEarly x)) ∧
     (x.early = none → x.kind = 0 → x.recv = BitVec.ofNat 4 (2 ^ (s.cur % 4)) → x.lost = none → s.core.run ≠ none → s.bad = [] → s.badDc = [] → (∀ k, (s.pkgAt k).failed = false) →
       exec (.crossingComplete (BitVec.ofNat 32 x.seq)) s =
         .next (((s.deliver s.cur s.cur x fun _ => true).pulse s.cur 3).modCore fun c => { c with xings := [] })) ∧
     (∀ key v, x.early = none → x.kind = 2 → x.stays = [] → x.captured = some [(2 * key, v)] → key < 2 ^ 60 → (s.pkgAt (key / 2 ^ 40)).failed = false → mirrorIn key s.part.regions = none →
       exec (.crossingComplete (BitVec.ofNat 32 x.seq)) s =
         .next ((((s.setByte key v).ownLine key s.writer).modCore fun c => { c with xings := [] }).pulse s.cur 4))) ∧
  (∀ (x : Crossing) (s : State), x.fetched = none → x.stays = [] → x.mode ≠ 2 → shpZfill x.shape = false → coldBits x.shape false % 8 = 0 →
     s.core.armedInj 1 = false → (∀ p ∈ x.rows, p.invalid = false) → x.rows.length = rowCount x.shape →
     let b := ((x.cold).extractLsb' 19 4).toNat
     let lo := colLo x.coord
     let hi := colHi x.shape x.coord
     let w := coldBits x.shape false
     let first := fun i => ((x.cold).extractLsb' 0 19).toNat + i * rowBytes x.shape false + lo * w / 8
     let part := s.core.slot.part
     let t := s.deliver s.cur s.cur x fun _ => true
     (∀ i p k, x.rows[i]? = some p → p.admitted = true → k < (hi - lo) * w / 8 →
       t.core.cold.read b (first i + k) = s.byte (s.warmKey part (warmAddr x.shape x.coord false i lo) + k)) ∧
     (∀ a, (∀ i p k, x.rows[i]? = some p → p.admitted = true → k < (hi - lo) * w / 8 → a ≠ first i + k) →
       t.core.cold.read b a = s.core.cold.read b a) ∧
     t.mem = s.mem ∧ (∀ k, k ≠ s.cur → t.coreAt k = s.coreAt k) ∧ (∀ l, t.core.cluster l = s.core.cluster l)) ∧
  (∀ (x : Crossing) (s : State), s.core.xings = [x] → x.seq < 2 ^ 32 → x.kind = 2 → x.admitted = true → x.captured = none →
     x.stamp ≤ s.scnt → x.level = s.core.level → s.insInPlace s.cur x.stamp = true → x.lost = none → s.badCapture x = none → x.stays = [] →
     ∃ t due, exec (.xoutCapture (BitVec.ofNat 32 x.seq)) s = .next t ∧
       t.core.xings = [{ x with captured := some (s.capture x), linkEnd := s.clock + (s.capture x).length, due := some due }] ∧
       s.clock + (s.capture x).length ≤ due ∧ t.mem = s.mem ∧ t.core.cold = s.core.cold ∧ t.core.lq = s.core.lq) ∧
  (∀ (s : State),
     let d := s.cur / 64
     (s.dieLate d = true → ∃ t, exec .unitStall s = .next t ∧ (t.dieAt d).stalled = true ∧ t.mem = s.mem ∧ t.clock = s.clock ∧
       (∀ r, s.core.run = some r → t.core.stallCnt = s.core.stallCnt + 1) ∧
       (∀ k, k / 64 ≠ d → t.coreAt k = s.coreAt k)) ∧
     (s.dieLate d = false → exec .unitStall s = .next (s.modDieAt d fun x => { x with stalled := false, stallAt := none })) ∧
     (s.stallOver = false → exec .smiss s = .next s) ∧
     (∀ x, s.stallOver = true → s.core.run ≠ none → s.core.inHandler = false → s.core.xings = [x] → x.level = 0 → x.stamp ≤ s.scnt →
       s.core.nested = false → x.kind = 0 → x.admitted = false →
       ∃ t, exec .smiss s = .next t ∧ t.core.inHandler = true ∧ t.core.xings = [] ∧ t.core.areaNat 0 8 = 3 * 2 ^ 14 + 0x1A))

/-- R187, R188, R184, R186: `xput` enters the engine command queue, a TWIN of 0 or 255 raising XARG; `xget` the store queue with gD waiting; `xwait` gives the status of
its path and clears it once nothing earlier is outstanding; `xcancel` answers for whatever it names: 3 for no crossing and no entry,
2 for a crossing not yet admitted, which is gone then.
R190, R191, R23: the shape words. A word written by `shpset` leaves the record's other words; a record that may not be installed
raises SHAPE. -/
def Obligations.ParameterStatusAndShapeWords : Prop :=
  (∀ (sy : BitVec 1) (dep : BitVec 4) (d a : BitVec 5) (k p : BitVec 6) (s : State), s.Issues dep [gR a] [gR d] →
     s.core.owes = {} → (s.core.inHandler = true → (if s.core.nested then s.core.accHere else s.core.accLost) = true) →
     let u := s.takeDeps dep
     let low := (s.g a).extractLsb' 0 8
     (k ≠ 0x24 ∨ low ≠ 0 ∧ low ≠ 255 → s.core.eq.length < 128 → Passes (u.enqueue .engine (.xput k.toNat (s.g a))) (exec (.xput sy dep a k) s) sy none) ∧
     (k = 0x24 → low = 0 ∨ low = 255 → exec (.xput sy dep a k) s = .next (s.wordTrap 0x0B s.wordHandle)) ∧
     (s.core.sq.length < 32 → AwaitsG (u.enqueue .store (.xget k.toNat s.lane d.toNat)) (exec (.xget sy dep d k) s) sy d) ∧
     (s.Waited → s.core.xings = [] → s.core.atoms = [] → s.core.drains = [] → p = 0 ∨ p = 1 ∨ p = 2 →
       ∃ v : Word, WritesG ((u.modCore fun c => c.notePath p.toNat fun _ => {}).recordResult d.toNat (some v)) (exec (.xwait sy dep d p) s)
         sy d v 1 none ∧
         let w := Sp.get {} s.core.paths p.toNat
         v = (if w.err then 1 else 0) + (if w.can then 2 else 0) + w.rx.setWidth 64 * 16) ∧
     ((s.g a).extractLsb' 0 1 = 0 → (s.g a).extractLsb' 0 6 ≠ 0 →
       WritesG (u.recordResult d.toNat (some 3)) (exec (.xcancel sy dep d a) s) sy d 3 1 none) ∧
     (∀ x, s.core.xings = [x] → x.admitted = false → s.core.crossingOf (s.g a) = some x.seq → (s.g a).extractLsb' 0 1 = 1 →
       ∃ v, WritesG v (exec (.xcancel sy dep d a) s) sy d 2 1 none ∧ v.core.xings = [] ∧ x.seq ∈ v.core.xcan ∧ v.mem = s.mem ∧
         v.core.cold = s.core.cold) ∧
     ∃ v st, WritesG v (exec (.xcancel sy dep d a) s) sy d (BitVec.ofNat 64 st) 1 none ∧ st ≤ 3) ∧
  (∀ (sy : BitVec 1) (dep n w : BitVec 4) (d a : BitVec 5) (s : State), s.Issues dep [gR a] [gR d] → s.core.shpBusy = [] →
     let u := s.takeDeps dep
     let r := s.core.shape n.toNat
     WritesG u (exec (.shpget sy dep d n w) s) sy d (r.extractLsb' (64 * w.toNat) 64) 2 none ∧
     (∀ q : BitVec 1024, q.extractLsb' (64 * w.toNat) 64 = s.g a →
       (∀ i, i < 1024 → i < 64 * w.toNat ∨ 64 * w.toNat + 64 ≤ i → q.getLsbD i = r.getLsbD i) →
       (shpOk q = true → ∃ t, exec (.shpset sy dep a n w) s = .next t ∧
         Through (u.modCore fun c => { c with shp := Sp.set 0 c.shp n.toNat q }) t sy [] none) ∧
       (shpOk q = false → exec (.shpset sy dep a n w) s = .next (s.wordTrap 0x0C s.wordHandle))) ∧
     (∀ pl, s.core.sq.length < 32 → s.access (s.g a) 128 64 true = .pass pl →
       Passes (u.enqueue .store (.shpst (s.g a) r)) (exec (.shpst sy dep a n) s) sy none) ∧
     (shpOk r = true → shpRagax r = 7 → r ≠ 0 → Passes u (exec (.btld sy dep n) s) sy none) ∧
     (r = 0 → exec (.btld sy dep n) s = .next (s.wordTrap 0x0C s.wordHandle)) ∧
     (s.cl.wait = .performed → ∃ t, exec (.shpld sy dep a n) s = .next t ∧ Through s t sy [] none) ∧
     (∀ q, s.cl.wait = .loaded q → ∃ t, exec (.shpld sy dep a n) s = .next t ∧
       Through (s.modCore fun c => { c with shp := Sp.set 0 c.shp n.toNat q }) t sy [] none) ∧
     (∀ code addr, s.cl.wait = .failed code addr →
       exec (.shpld sy dep a n) s = .next ((s.modCore fun c => c.shpFree n.toNat).wordTrap code addr)) ∧
     (∀ pl, s.cl.wait = .none → s.core.lq.length < 32 → s.access (s.g a) 128 64 false = .pass pl →
       ∃ t e, exec (.shpld sy dep a n) s = .next t ∧ t.core.lq = s.core.lq ++ [e] ∧ e.op = .shpld n.toNat (s.g a) ∧
         t.cl.wait = .entry e.seq ∧ t.core.shpBusy = [(n.toNat, s.warm)] ∧ t.mem = s.mem ∧ t.cl.g = s.cl.g))

/-- R140 to R147: the engine control words enter the engine command queue with what they read at issue; `tstart` by 2^32 or more raises
STARTF, a `tbase` outside the words granted ORDER; `tsync` waits for its entry.
R394: the first engine command of a handler sets ACCLOST: the tables and armed terms of the three engines and the task's unperformed
engine commands are gone, and every accumulator tile below ATILES is as at task start.
R142 to R146, R405: commands at the head of the engine command queue: a `tstart` reaches its engine 32 cold cycles later; `tstop` ends
the table and disarms; `tbase` and `tsync` wait until their engine is idle; a `tstart.ev` whose engine is not idle takes STARTF.
R187, R147, R97: an `xput` whose engine is idle and whose charge the budget allows is a parameter write 32 cold cycles later; a `tload` so
admitted installs its steps with END on the last, or traps with ORDER and installs nothing where its numbers or an order of its image are
refused. -/
def Obligations.EngineWordsEnterAndPerform : Prop :=
  (∀ (sy : BitVec 1) (dep t : BitVec 4) (a b : BitVec 5) (e : BitVec 2) (s : State), s.Issues dep [gR a, gR b] [] →
     s.core.eq.length < 128 → s.core.replay = none → (s.core.inHandler = true → (if s.core.nested then s.core.accHere else s.core.accLost) = true) →
     let u := s.takeDeps dep
     let queued := fun i op => Passes (u.enqueue .engine op) (exec i s) sy none
     ((s.g a).toNat < 2 ^ 32 → queued (.tstart sy dep a e) (.tstart (engineOf e) (s.scnt + (s.g a).toNat))) ∧
     (2 ^ 32 ≤ (s.g a).toNat → exec (.tstart sy dep a e) s = .next (s.wordTrap 0x15 s.wordHandle)) ∧
     queued (.tstartEv sy dep t e) (.tstartEv (engineOf e) t.toNat) ∧ queued (.tstop sy dep e) (.tstop (engineOf e)) ∧
     ((s.g a).toNat < s.core.granted (engineOf e) → queued (.tbase sy dep a e) (.tbase (engineOf e) (s.g a).toNat)) ∧
     (s.core.granted (engineOf e) ≤ (s.g a).toNat → exec (.tbase sy dep a e) s = .next (s.wordTrap 0x16 s.wordHandle)) ∧
     (regionIdx (s.g a) ∈ s.core.tlb → s.imageRegion (s.g a) = true →
       s.locate s.partNo (s.g a) (max 1 (((s.g b).extractLsb' 0 16).toNat * orderBytes (engineOf e))) ≠ none →
       queued (.tload sy dep a b e) (.tload (engineOf e) (s.g a) ((s.g b).extractLsb' 16 16).toNat ((s.g b).extractLsb' 0 16).toNat
         (decide ((s.g b).extractLsb' 32 32 ≠ 0)))) ∧
     (regionIdx (s.g a) ∈ s.core.tlb → s.imageRegion (s.g a) = false →
       exec (.tload sy dep a b e) s = .next (s.wordTrap 0x08 (s.g a))) ∧
     (s.cl.wait = .none → ∃ v x, exec (.tsync sy dep e) s = .next v ∧ v.core.eq = s.core.eq ++ [x] ∧ x.op = .tsync (engineOf e) ∧
       v.cl.wait = .entry x.seq ∧ v.cl.g = s.cl.g ∧ v.mem = s.mem) ∧
     (s.cl.wait = .performed → ∃ v, exec (.tsync sy dep e) s = .next v ∧ Through s v sy [] none)) ∧
  (∀ (sy : BitVec 1) (dep n : BitVec 4) (a : BitVec 5) (e : BitVec 2) (s : State), s.Issues dep [gR a] [] → s.core.eq.length < 128 →
     s.core.replay = none → s.core.inHandler = true → s.core.nested = false → s.core.accLost = false →
     ∀ i ∈ [Instr.tstartEv sy dep n e, .tstop sy dep e, .xput sy dep a 0], ∃ t x, exec i s = .next t ∧ t.core.accLost = true ∧
       t.core.eq = s.core.eq.filter (fun y => decide (0 < y.level)) ++ [x] ∧ t.mem = s.mem ∧
       (∀ k, (t.core.engine k).run = false ∧ (t.core.engine k).armed = none ∧ (t.core.engine k).start = []) ∧
       ∀ k j, k < s.core.slot.atiles.toNat → j < 289 → t.core.cold.accAt k j = 0 ∧
         t.core.cold.tileAt k = { rt := 0, ct := 0, chkv := true, int := false }) ∧
  (∀ (e : QEntry) (n : EngineId) (s : State), s.ready .engine = some e → e.killed = false → s.core.willMismatch = false →
     let gone := s.core.eq.filter (fun y => !decide (y.seq = e.seq))
     (∀ stamp, e.op = .tstart n stamp → ∃ t, exec .engineCommandPerform s = .next t ∧ t.core.eq = gone ∧
       (t.core.engine n).start = (s.core.engine n).start ++ [(stamp, s.clock + 32, e.word)] ∧ (t.core.engine n).run = (s.core.engine n).run ∧
       t.mem = s.mem) ∧
     (e.op = .tstop n → ∃ t, exec .engineCommandPerform s = .next t ∧ t.core.eq = gone ∧ (t.core.engine n).run = false ∧
       (t.core.engine n).armed = none ∧ (t.core.engine n).loops = [] ∧ t.core.cold.acc = s.core.cold.acc ∧ t.core.cold.pend = s.core.cold.pend) ∧
     (∀ v, e.op = .tbase n v → (s.core.idle n = true → ∃ t, exec .engineCommandPerform s = .next t ∧ t.core.eq = gone ∧
       t.core.engine n = { s.core.engine n with base := v }) ∧ (s.core.idle n = false → exec .engineCommandPerform s = .next s)) ∧
     (e.op = .tsync n → s.core.idle n = false → exec .engineCommandPerform s = .next s) ∧
     (e.op = .tsync n → s.core.idle n = true → (s.core.cluster e.lane).wait = .entry e.seq →
       ∃ t, exec .engineCommandPerform s = .next t ∧ t.core.eq = gone ∧ (t.core.cluster e.lane).wait = .performed) ∧
     (∀ m, e.op = .tstartEv n m → s.core.owes = {} → s.core.idle n = true → s.core.termArmed m = false → Sp.get 0 s.core.cold.term m ≠ 0 →
       ∃ t, exec .engineCommandPerform s = .next t ∧ t.core.eq = gone ∧
         (t.core.engine n).armed = some (m, Sp.get 0 s.core.cold.term m, e.word)) ∧
     (∀ m, e.op = .tstartEv n m → s.core.idle n = false → s.core.inHandler = false →
       ∃ t, exec .engineCommandPerform s = .next t ∧ t.core.inHandler = true ∧ t.core.areaNat 0 8 = 2 ^ 14 + 2 * 2 ^ 12 + 0x15 ∧
         t.core.areaNat 8 8 = e.word.toNat)) ∧
  (∀ (e : QEntry) (n : EngineId) (code : Nat) (v : Word) (s : State), s.ready .engine = some e → e.killed = false → e.op = .xput code v →
     s.core.willMismatch = false → n = (if code < 16 then EngineId.matrix else if code < 32 then .vector else .temporal) →
     let charge := if code < 16 then 16 else if code < 36 then 8 else 2
     (s.core.idle n = false → exec (.crossingAdmit .engine) s = .next s) ∧
     (s.core.idle n = true → s.core.heatAcc + s.core.heatAdm + charge ≤ s.core.heatBud → ∃ t l, exec (.crossingAdmit .engine) s = .next t ∧
       t.core.eq = s.core.eq.filter (fun y => !decide (y.seq = e.seq)) ∧ t.core.cold = { s.core.cold with pend := s.core.cold.pend ++ [l] } ∧
       l.at_ = s.clock + 32 ∧ l.op = .param code v ∧ l.eng = n ∧ t.core.heatNow = s.core.heatNow + charge ∧ t.mem = s.mem)) ∧
  (∀ (e : QEntry) (n : EngineId) (img : Word) (first count : Nat) (hi : Bool) (reg : Region) (key : Nat) (s : State),
     s.ready .engine = some e → e.killed = false → e.op = .tload n img first count hi → s.core.willMismatch = false → s.core.idle n = true →
     s.core.inHandler = false →
     let b := if n = .matrix then 8 else 4
     s.core.heatAcc + s.core.heatAdm + count * b ≤ s.core.heatBud → s.locate s.partNo img (count * b) = some (reg, key) → s.bad = [] →
     s.badDc = [] → (∀ k, (s.pkgAt k).failed = false) →
     let steps := (List.range count).map fun i => leNat (s.bytes (key + b * i) b)
     let refused := count = 0 ∨ hi = true ∨ s.core.granted n < first + count ∨ (if n = .temporal then 512 else 4096) < first + count
     (refused → ∃ t, exec (.crossingAdmit .engine) s = .next t ∧ t.core.inHandler = true ∧ t.core.areaNat 0 8 = 2 ^ 14 + 2 * 2 ^ 12 + 0x16 ∧
       t.core.areaNat 8 8 = e.word.toNat ∧ t.core.cold.omat = s.core.cold.omat ∧ t.core.cold.ovec = s.core.cold.ovec ∧
       t.core.cold.otmp = s.core.cold.otmp) ∧
     (¬ refused → (∀ o, imageFault n s.core.slot.atiles.toNat steps = some o →
        ∃ t, exec (.crossingAdmit .engine) s = .next t ∧ t.core.inHandler = true ∧ t.core.areaNat 0 8 = 2 ^ 14 + 2 * 2 ^ 12 + 0x16 ∧
          t.core.areaNat 8 8 = (img + BitVec.ofNat 64 o).toNat ∧ t.core.cold.omat = s.core.cold.omat) ∧
       (imageFault n s.core.slot.atiles.toNat steps = none → ∃ t, exec (.crossingAdmit .engine) s = .next t ∧ t.mem = s.mem ∧
         t.core.eq = s.core.eq.filter (fun y => !decide (y.seq = e.seq)) ∧ t.core.heatNow = s.core.heatNow + count * b ∧
         (∀ i, i < count → match n with
           | .matrix => Sp.get 0 t.core.cold.omat (first + i) = BitVec.ofNat 64 (steps.getD i 0) ∧
               Sp.get false t.core.cold.endMat (first + i) = decide (i + 1 = count)
           | .vector => Sp.get 0 t.core.cold.ovec (first + i) = BitVec.ofNat 32 (steps.getD i 0) ∧
               Sp.get false t.core.cold.endVec (first + i) = decide (i + 1 = count)
           | .temporal => Sp.get 0 t.core.cold.otmp (first + i) = BitVec.ofNat 32 (steps.getD i 0) ∧
               Sp.get false t.core.cold.endTmp (first + i) = decide (i + 1 = count)) ∧
         ∀ j, j < first ∨ first + count ≤ j → Sp.get 0 t.core.cold.omat j = Sp.get 0 s.core.cold.omat j ∧
           Sp.get 0 t.core.cold.ovec j = Sp.get 0 s.core.cold.ovec j ∧ Sp.get 0 t.core.cold.otmp j = Sp.get 0 s.core.cold.otmp j)))

/-- R149, R150, R148, R292: `evcfg` sets a well-formed descriptor or raises TERMF, `evsig` pulses, `evwait`, behind the armed terms of its
cold cycle, subtracts what it waits for; counters saturate.
R143, R149: a term whose descriptor holds fires: it is disarmed, its thresholds are consumed where CONS asks, and its table starts 32 cold
cycles later; an engine that has become idle pulses its counter.
R141, R142, R196, R219: a table starts at its stamp: the engine runs from its base, with the first step's STALL as fillers and no loop, a
matrix table with mq0 selected; an engine that is not idle by then traps with STARTF at the word, behind the faults engines meet in
that cycle (R386). -/
def Obligations.EventsAndTerms : Prop :=
  (∀ (sy : BitVec 1) (dep n : BitVec 4) (a : BitVec 5) (s : State), s.Issues dep [gR a] [] → s.core.owes = {} →
     let u := s.takeDeps dep
     let count := (Sp.get 0 s.core.cold.ev n.toNat).toNat
     (s.Compared → termOk (s.g a) = true → ∃ t, exec (.evcfg sy dep a n) s = .next t ∧
       Through (u.modCore fun c => { c with cold := { c.cold with term := Sp.set 0 c.cold.term n.toNat (s.g a) } }).countWord t sy [] none) ∧
     (s.Compared → termOk (s.g a) = false → exec (.evcfg sy dep a n) s = .next (s.wordTrap 0x17 s.wordHandle)) ∧
     (s.Compared → ∃ t, exec (.evsig sy dep n) s = .next t ∧
       (Sp.get 0 t.core.cold.ev n.toNat).toNat = (if count = 0xFFFF then 0xFFFF else count + 1) ∧
       (∀ m, m ≠ n.toNat → Sp.get 0 t.core.cold.ev m = Sp.get 0 s.core.cold.ev m) ∧ t.mem = s.mem ∧ t.cl.g = s.cl.g) ∧
     let f := (List.range 16).foldl State.fireTerm u
     let left := (Sp.get 0 f.core.cold.ev n.toNat).toNat
     ((∀ e, (s.core.engine e).armed = none) → f = u) ∧
     (((s.g a).extractLsb' 0 16).toNat ≤ left → ∃ t, exec (.evwait sy dep a n) s = .next t ∧
       (Sp.get 0 t.core.cold.ev n.toNat).toNat = left - ((s.g a).extractLsb' 0 16).toNat ∧
       (∀ m, m ≠ n.toNat → Sp.get 0 t.core.cold.ev m = Sp.get 0 f.core.cold.ev m) ∧ t.mem = s.mem ∧ ∀ m, t.cl.rg m = s.cl.rg m) ∧
     (left < ((s.g a).extractLsb' 0 16).toNat → ∃ t, exec (.evwait sy dep a n) s = .next t ∧ t.core.cold = s.core.cold ∧
       t.core.tok = s.core.tok ∧ t.cl.since ≠ none ∧ t.cl.g = s.cl.g)) ∧
  (∀ (n : BitVec 4) (e : EngineId) (d w : Word) (s : State), s.core.armedFor n.toNat = some e →
     (s.core.engine e).armed = some (n.toNat, d, w) → (s.core.engine e).armAt < s.clock → s.core.inHandler = false →
     (s.core.cold.termHolds d = true → ∃ t, exec (.termFire n) s = .next t ∧ (t.core.engine e).armed = none ∧
       (t.core.engine e).start = (s.core.engine e).start ++ [(s.scnt + 32, s.clock, w)] ∧ t.mem = s.mem ∧
       (d.getLsbD 37 = false → t.core.cold.ev = s.core.cold.ev)) ∧
     (s.core.cold.termHolds d = false → exec (.termFire n) s = .next s)) ∧
  (∀ (e : EngineId) (s : State), (s.core.engine e).pulse = true → (s.core.engine e).run = false → s.core.busyEngine e = false →
     s.core.owes = {} → ∃ t, exec (.engineIdle e) s = .next t ∧ (t.core.engine e).pulse = false ∧
       (Sp.get 0 t.core.cold.ev (engineIdx e)).toNat =
         (if (Sp.get 0 s.core.cold.ev (engineIdx e)).toNat = 0xFFFF then 0xFFFF else (Sp.get 0 s.core.cold.ev (engineIdx e)).toNat + 1)) ∧
  (∀ (e : EngineId) (x : Nat × Nat × Word) (s : State), let y := s.core.engine e
     (s.dueStart e = none → exec (.tableStart e) s = .next s) ∧
     (s.dueStart e = some x → s.core.busyEngine e = false → ∃ t, exec (.tableStart e) s = .next t ∧ t.mem = s.mem ∧
       t.core.cold.acc = s.core.cold.acc ∧ t.core.cold.store = s.core.cold.store ∧ (e = .matrix → t.core.cold.msel = 0) ∧
       let z := t.core.engine e
       z.run = true ∧ z.step = y.base ∧ z.loops = [] ∧ z.skip = 0 ∧ z.fill = s.core.cold.stallAt e y.base ∧ z.start = y.start.erase x ∧
       z.opens = (decide (e = .matrix) || s.core.idle .matrix) ∧ z.tables = y.tables + 1) ∧
     (s.dueStart e = some x → s.core.busyEngine e = true → (∃ k, s.faultsNow k = true) → exec (.tableStart e) s = .next s) ∧
     (s.dueStart e = some x → s.core.busyEngine e = true → (∀ k, s.faultsNow k = false) → s.core.inHandler = false → s.core.back = [] → ∃ t, exec (.tableStart e) s = .next t ∧
       t.core.inHandler = true ∧ t.core.areaNat 0 8 = 2 ^ 14 + 2 * 2 ^ 12 + 0x15 ∧ t.core.areaNat 8 8 = x.2.2.toNat))

/-! ## Owner tokens, barriers, fences, atoms (R268 to R290) -/

/-- R272, R274, R276, R277: `own.lend`, `own.give` and `own.share` to a legal peer, and `own.ret` of a lent span, by the holder, put a send
in flight and leave gD to be written by its completion; a caller that does not hold the span so raises OWNF, an illegal peer
OWNARG.
R273, R277 to R279: `own.split`, `own.merge`, `own.unshare`, `own.wait` and `own.query` on a span the caller may use so change the
token table as the rules say and give gD its word. -/
def Obligations.OwnWords : Prop :=
  (∀ (sy : BitVec 1) (dep : BitVec 4) (d a b : BitVec 5) (r : Region) (head : Nat) (t : Token) (s : State),
     s.Issues dep [gR a, gR b] [gR d] → s.Compared → s.core.owes = {} → s.spanOf (s.g a) = .ok (r, head, t) →
     let u := ((s.takeDeps dep).recordResult d.toNat none).countWord
     let sends := fun (i : Instr) (fn : Nat) (arg : Word) => ∃ x, AwaitsG (u.modCore fun c => { c with sends := c.sends ++ [x] }) (exec i s) sy d ∧
       x.fn = fn ∧ x.head = head ∧ x.base = BitVec.ofNat 64 (regionIdx (s.g a) * 2 ^ 52) ∧ x.units = t.units ∧ x.arg = arg ∧ x.d = d.toNat ∧ x.warm = s.warm ∧ x.due = none
     (s.holdsExcl head t false = true → s.peerOk (s.g b) = true →
       sends (.ownLend sy dep d a b) 0 (s.g b) ∧ sends (.ownGive sy dep d a b) 1 (s.g b)) ∧
     (s.holdsExcl head t true = true → sends (.ownRet sy dep d a) 2 0) ∧
     (s.holdsExcl head t false = true → s.peerOk (s.g b) = true → t.shares < 255 → sends (.ownShare sy dep d a b) 5 (s.g b)) ∧
     (s.holds t = false → ∀ i ∈ [Instr.ownLend sy dep d a b, .ownGive sy dep d a b, .ownRet sy dep d a, .ownShare sy dep d a b],
       exec i s = .next (s.wordTrap 0x09 (BitVec.ofNat 64 (regionIdx (s.g a) * 2 ^ 52)))) ∧
     (s.holdsExcl head t false = true → s.peerOk (s.g b) = false → ∀ i ∈ [Instr.ownLend sy dep d a b, .ownGive sy dep d a b],
       exec i s = .next (s.wordTrap 0x0A (s.g a)))) ∧
  (∀ (sy : BitVec 1) (dep : BitVec 4) (d a b : BitVec 5) (r : Region) (head : Nat) (t : Token) (s : State),
     s.Issues dep [gR a, gR b] [gR d] → s.Compared → s.core.owes = {} → s.core.win = none → s.spanOf (s.g a) = .ok (r, head, t) →
     let k := (s.g b).toNat
     let gives := fun (i : Instr) (v : Word) (f : State → Prop) => ∃ u n, WritesG u (exec i s) sy d v n none ∧ f u ∧ u.mem = s.mem ∧
       u.core.cold = s.core.cold ∧ ∀ l, u.core.cluster l = s.core.cluster l
     (s.holdsExcl head t false = true → 0 < k → k < t.units → s.crossingsThrough (s.g a) = true →
       gives (.ownSplit sy dep d a b) (BitVec.ofNat 64 ((head + k) * 2 ^ 30 + (t.gen + 1).toNat * 2 ^ 14)) fun u =>
         (u.part.token head).units = k ∧ (u.part.token head).gen = t.gen + 1 ∧ (u.part.token (head + k)).units = t.units - k ∧
         (u.part.token (head + k)).head = head + k ∧ ∀ j, head + k < j → j < head + t.units → (u.part.token j).head = head + k) ∧
     (s.holdsExcl head t false = true → k = 0 ∨ t.units ≤ k → exec (.ownSplit sy dep d a b) s = .next (s.wordTrap 0x0A (s.g a))) ∧
     (∀ r2 t2, s.holdsExcl head t false = true → s.spanOf (s.g b) = .ok (r2, head + t.units, t2) →
       s.holdsExcl (head + t.units) t2 false = true → regionIdx (s.g a) = regionIdx (s.g b) → 0 < t.units → t.gen = t2.gen →
       s.crossingsThrough (s.g a) = true →
       gives (.ownMerge sy dep d a b) (BitVec.ofNat 64 (head * 2 ^ 30 + (t.gen + 1).toNat * 2 ^ 14)) fun u =>
         (u.part.token head).units = t.units + t2.units ∧ (u.part.token head).gen = t.gen + 1 ∧
         ∀ j, head + t.units ≤ j → j < head + t.units + t2.units → (u.part.token j).head = head) ∧
     (s.core.shares = [head] → s.crossingsThrough (s.g a) = true → gives (.ownUnshare sy dep d a) (BitVec.ofNat 64 (head * 2 ^ 30 + t.gen.toNat * 2 ^ 14)) fun u =>
       u.core.shares = [] ∧ (u.part.token head).shares = (s.part.token head).shares - 1) ∧
     (head ∉ s.core.shares → exec (.ownUnshare sy dep d a) s = .next (s.wordTrap 0x09 (BitVec.ofNat 64 (regionIdx (s.g a) * 2 ^ 52)))) ∧
     (gives (.ownQuery sy dep d a) (s.queryWord head t) fun u => u.part = s.part) ∧
     (s.exclusive t = true → t.shares = 0 → s.core.sends = [] → gives (.ownWait sy dep d a) (s.queryWord head t) fun u => u.part = s.part))

/-- R274 to R276: a send whose earlier operations are through goes home; once arrived, a `lend` or `give` to a running receiver makes it
the holder, a lender is kept, the generation rises, the receiver is pulsed on e6, and gD gets the status word.
R276: a `ret` makes the lender the holder; one whose lender has halted is NOLENDER and forgets it.
R277: a share adds to SHARES and to the receiver's share set, or ends as DUP or FULL with neither changed.
R275, R442: a send whose receiver does not run, or whose span's home has failed, is NOPEER and leaves the entry as it was.
The time of a send is a free value within the bounds of R379 and R438 (log 1). -/
def Obligations.SendsHandTheSpanOver : Prop :=
  ∀ (x : Send) (s : State), s.core.sends = [x] →
    (x.due = none → s.sendReady x = true → ∃ t due, exec .tokenSendComplete s = .next t ∧
      t.core.sends = [{ x with due := some due }] ∧ s.warm < due ∧ due ≤ s.warm + 2999 ∧ t.parts = s.parts ∧
      (x.fn = 2 → (s.part.token x.head).lpkg = s.cur / 256 → due ≤ s.warm + 599) ∧
      (x.fn ≠ 2 → ((x.arg.extractLsb' 30 10).toNat = s.cur / 256) → due ≤ s.warm + 599) ∧
      (s.core.l1d = [] → t.mem = s.mem) ∧
      ∀ lo n, x.fn ≠ 5 → s.part.spanKeys x.head = some (lo, n) → ∀ l ∈ t.core.l1d, overlaps lo n l = false) ∧
    (∀ due, x.due = some due → due ≤ s.warm → x.level = s.core.level → s.core.win = none →
      let h := s.part.token x.head
      let ends := fun (st : Nat) (f : State → Prop) => ∃ t, exec .tokenSendComplete s = .next t ∧ t.core.sends = [] ∧ t.mem = s.mem ∧
        (∀ j, j ≠ x.head → t.part.token j = s.part.token j) ∧ f t ∧
        (x.d ≠ 0 → (t.core.cluster .K).rg x.d = BitVec.ofNat 64 (x.head * 2 ^ 30 + (t.part.token x.head).gen.toNat * 2 ^ 14 + st))
      (s.spanStands x.head = false → ends 1 fun t => t.parts = s.parts) ∧
      (s.spanStands x.head = true →
        (x.fn = 2 → h.lvalid = false → ends 4 fun t => t.parts = s.parts) ∧
        (x.fn = 2 → h.lvalid = true → coreOfLaunch s.partNo h.lgroup h.lpkg h.lcore s.cores = none → ends 1 fun t => t.parts = s.parts) ∧
        (∀ k, x.fn = 2 → h.lvalid = true → coreOfLaunch s.partNo h.lgroup h.lpkg h.lcore s.cores = some k →
          ((s.coreAt k).halting = true → ends 4 fun t => t.part.token x.head = { h with lvalid := false }) ∧
          ((s.coreAt k).halting = false → k ≠ s.cur → ends 0 fun t =>
            t.part.token x.head = { h with hpkg := h.lpkg, hcore := h.lcore, hgroup := h.lgroup, lvalid := false, mode := .excl, gen := h.gen + 1 } ∧
            (Sp.get 0 (t.coreAt k).cold.ev 6).toNat = min 0xFFFF ((Sp.get 0 (s.coreAt k).cold.ev 6).toNat + 1))) ∧
        (x.fn ≠ 2 → s.receiver x.arg = none → ends 1 fun t => t.parts = s.parts) ∧
        (∀ k sl, x.fn = 5 → s.receiver x.arg = some (k, sl) → k ≠ s.cur →
          (x.head ∈ (s.coreAt k).shares → ends 2 fun t => t.parts = s.parts ∧ t.coreAt k = s.coreAt k) ∧
          (x.head ∉ (s.coreAt k).shares → 64 ≤ (s.coreAt k).shares.length → ends 3 fun t => t.parts = s.parts ∧ t.coreAt k = s.coreAt k) ∧
          (x.head ∉ (s.coreAt k).shares → (s.coreAt k).shares.length < 64 → ends 0 fun t =>
            t.part.token x.head = { h with shares := h.shares + 1, mode := .sharedIssue } ∧ (t.coreAt k).shares = (s.coreAt k).shares ++ [x.head] ∧
            (Sp.get 0 (t.coreAt k).cold.ev 6).toNat = min 0xFFFF ((Sp.get 0 (s.coreAt k).cold.ev 6).toNat + 1))))) ∧
    (∀ due k sl, x.due = some due → due ≤ s.warm → s.spanStands x.head = true → x.fn = 0 ∨ x.fn = 1 → s.receiver x.arg = some (k, sl) → k ≠ s.cur →
      x.level = s.core.level → s.core.win = none → ∃ t, exec .tokenSendComplete s = .next t ∧ t.core.sends = [] ∧
        let y := t.part.token x.head
        y.hpkg = k / 256 ∧ y.hcore = sl.coreId.toNat ∧ y.hgroup = sl.launch ∧ y.mode = .excl ∧ y.lvalid = decide (x.fn = 0) ∧
        y.gen = (s.part.token x.head).gen + 1 ∧ (∀ j, j ≠ x.head → t.part.token j = s.part.token j) ∧ t.mem = s.mem ∧
        (x.d ≠ 0 → (t.core.cluster .K).rg x.d = BitVec.ofNat 64 (x.head * 2 ^ 30 + y.gen.toNat * 2 ^ 14)) ∧
        (Sp.get 0 (t.coreAt k).cold.ev 6).toNat = min 0xFFFF ((Sp.get 0 (s.coreAt k).cold.ev 6).toNat + 1))

/-- R283 to R285: `bar` starts its wait, arrives once its queue mask is met, and departs with the vote, its tokens taken with its issue;
the barrier completes when every participant of its instance has arrived or ended, and gives each the number of them, or the OR or the
AND of their values; differing votes are a fault of each; one who has not arrived, or whose core runs a handler, keeps it open.
R286: `fence` ends once every earlier entry of the queues it names has been performed, for the string taken, and waits before that.
That the instance count and the tokens advance at the departure, and that a core a trap has kept from departing departs when its `bar`
issues again, is the model's inference (log 43). -/
def Obligations.BarriersAndFences : Prop :=
  (∀ (sy : BitVec 1) (dep m : BitVec 4) (d a : BitVec 5) (o : BitVec 2) (k : BitVec 3) (s : State), s.Issues dep [gR a] [gR d] →
     s.core.owes = {} → s.core.win = none →
     let bar := exec (.bar sy dep d a m o k) s
     let n := Sp.get 0 s.core.barCount k.toNat
     (s.cl.wait = .none → ∃ t, bar = .next t ∧ t.cl = { s.cl with wait := .since s.warm, since := t.cl.since } ∧ t.core.tok = s.core.tok ∧
       t.core.bar = s.core.bar ∧ t.mem = s.mem ∧ (m.getLsbD 3 = false → t.core.apart = s.core.apart)) ∧
     (∀ w, s.cl.wait = .since w → w + 6 ≤ s.warm → s.core.willMismatch = false →
       let met := (m.getLsbD 0 = true → ∀ e ∈ s.core.lq, w < e.warm) ∧
         (m.getLsbD 1 = true → (∀ e ∈ s.core.sq, w < e.warm) ∧ (∀ x ∈ s.core.xings, x.kind = 2 → w < x.warm) ∧ ∀ x ∈ s.core.atoms, w < x.warm) ∧
         (m.getLsbD 2 = true → (∀ e ∈ s.core.eq, w < e.warm) ∧ s.core.allIdle = true) ∧ (m.getLsbD 3 = true → s.stringClear = true)
       (met → s.core.barGot = none → ∃ t, bar = .next t ∧ t.cl.wait = .arrived ∧ t.core.tok = s.core.tok ∧
         t.core.bar = some { scope := k.toNat, inst := n, vote := o.toNat, value := s.g a, mask := m } ∧
         (m.getLsbD 1 = false ∨ s.core.l1d = [] → t.mem = s.mem) ∧ (m.getLsbD 1 = true → ∀ l ∈ t.core.l1d, l.mask = 0)) ∧
       (∀ v, met → s.core.barGot = some (k.toNat, n, v) → m.getLsbD 1 = false → ∃ t, bar = .next t ∧ t.cl.wait = .departed v ∧
         t.core.apart = s.core.apart ∧ t.mem = s.mem) ∧
       ((m.getLsbD 0 = true ∧ ∃ e ∈ s.core.lq, e.warm ≤ w ∧ e.level = s.core.level) ∨
          (m.getLsbD 1 = true ∧ ∃ e ∈ s.core.sq, e.warm ≤ w ∧ e.level = s.core.level) ∨
          (m.getLsbD 1 = true ∧ ∃ x ∈ s.core.atoms, x.warm ≤ w) ∨ (m.getLsbD 2 = true ∧ s.core.allIdle = false) ∨
          (m.getLsbD 3 = true ∧ s.stringClear = false) →
         ∃ t, bar = .next t ∧ t.cl.wait = .since w ∧ t.core.apart = s.core.apart ∧ t.mem = s.mem)) ∧
     (s.cl.wait = .arrived → bar = .next s) ∧
     (∀ v, s.cl.wait = .departed v → ∃ u, WritesG u bar sy d v 1 none ∧ (m.getLsbD 0 = false ∨ s.core.l1d = [] → u.mem = s.mem) ∧
       (m.getLsbD 0 = true → u.core.l1d = []) ∧ u.core.barGot = none ∧
       u.core.tok = (s.takeDeps dep).core.tok ∧ Sp.get 0 u.core.barCount k.toNat = n + 1 ∧ u.core.cold = s.core.cold ∧ ∀ l, u.core.cluster l = s.core.cluster l) ∧
     (s.cl.wait = .voteFault → bar = .next (s.wordTrap 0x18 s.wordHandle)) ∧
     (∀ b, s.core.bar = some b →
       let ps := s.participants b.scope
       let ended := fun (x : Nat × BitVec 1) => ((s.coreAt x.1).slotAt x.2).state = .ended
       let there := fun (x : Nat × BitVec 1) (y : BarWait) => (s.coreAt x.1).bar = some y ∧ (s.coreAt x.1).run = some x.2 ∧
         y.scope = b.scope ∧ y.inst = b.inst ∧ (s.coreAt x.1).inHandler = false
       let values := (ps.filter fun x => decide (((s.coreAt x.1).slotAt x.2).state ≠ .ended)).filterMap fun x => (s.coreAt x.1).bar.map (·.value)
       ((∀ x ∈ ps, ended x ∨ ∃ y, there x y ∧ y.vote = b.vote) → ∃ t, exec .barrierComplete s = .next t ∧ t.mem = s.mem ∧
         ∀ x ∈ ps, ¬ ended x →
           let v := voteOf b.vote ps.length values
           (t.coreAt x.1).k.wait = .departed v ∧ (t.coreAt x.1).bar = none ∧ (t.coreAt x.1).barGot = some (b.scope, b.inst, v)) ∧
       ((∀ x ∈ ps, ended x ∨ ∃ y, there x y) → (∃ x ∈ ps, ¬ ended x ∧ ∃ y, there x y ∧ y.vote ≠ b.vote) →
         ∃ t, exec .barrierComplete s = .next t ∧ ∀ x ∈ ps, ¬ ended x → (t.coreAt x.1).k.wait = .voteFault ∧ (t.coreAt x.1).bar = none) ∧
       ((∃ x ∈ ps, ¬ ended x ∧ ∀ y, ¬ there x y) → exec .barrierComplete s = .next s)) ∧
     (∀ (c : Nat) (vs : List Word), voteOf 0 c vs = BitVec.ofNat 64 c ∧ ∀ i, i < 64 →
       (voteOf 1 c vs).getLsbD i = vs.any (fun v => v.getLsbD i) ∧ (voteOf 2 c vs).getLsbD i = vs.all (fun v => v.getLsbD i))) ∧
  (∀ (sy : BitVec 1) (dep m : BitVec 4) (s : State), s.Issues dep [] [] →
     let taken := m.getLsbD 3 = true → ∃ x ∈ s.core.str.watch, x.lane = s.lane ∧ s.core.cptailPending x.since = false ∧
       (s.core.str.halt = true ∨ x.no ≠ none)
     (∀ w, s.cl.wait = .since w → w + 6 ≤ s.warm → s.core.willMismatch = false →
       (m.getLsbD 0 = true → ∀ e ∈ s.core.lq, w < e.warm) → (m.getLsbD 1 = true → ∀ e ∈ s.core.sq, w < e.warm) →
       (m.getLsbD 2 = true → ∀ e ∈ s.core.eq, w < e.warm) → taken → Passes (s.takeDeps dep).countWord (exec (.fence sy dep m) s) sy none) ∧
     (∀ w, s.cl.wait = .since w → w + 6 ≤ s.warm → s.core.willMismatch = false → m.getLsbD 3 = true → s.core.str.halt = false →
       (∀ x ∈ s.core.str.watch, x.lane = s.lane → x.no = none) →
       ∃ t, exec (.fence sy dep m) s = .next t ∧ t.cl.wait = .fencing w m.toNat ∧ t.core.apart = s.countWord.core.apart ∧ t.mem = s.mem) ∧
     (∀ w e, s.cl.wait = .since w → w + 6 ≤ s.warm → s.core.willMismatch = false → m.getLsbD 1 = true → e ∈ s.core.sq → e.warm ≤ w →
       e.level = s.core.level → ∃ t, exec (.fence sy dep m) s = .next t ∧ t.cl.wait = .fencing w m.toNat ∧ t.core.apart = s.countWord.core.apart ∧
         t.mem = s.mem) ∧
     (∀ w n e, s.cl.wait = .fencing w n → m.getLsbD 1 = true → e ∈ s.core.sq → e.warm ≤ w → e.level = s.core.level →
       ∃ t, exec (.fence sy dep m) s = .next t ∧ t.apart = s.apart ∧ t.core = s.core ∧ ∀ j, j ≠ s.cur → t.coreAt j = s.coreAt j) ∧
     (∀ w, s.cl.wait = .fencing w m.toNat → (m.getLsbD 0 = true → ∀ e ∈ s.core.lq, w < e.warm) →
       (m.getLsbD 1 = true → ∀ e ∈ s.core.sq, w < e.warm) → (m.getLsbD 2 = true → ∀ e ∈ s.core.eq, w < e.warm) → taken →
       Passes (s.takeDeps dep) (exec (.fence sy dep m) s) sy none))

/-- R287, R290: an atom on a legal address enters the store queue and leaves gD to its completion; an illegal one raises XARG.
R288, R289: an atom that reaches its target is applied to its accumulator word, whose tile loses CHKV; `a2sum` also puts the rounding
error of its sum, added to the word of the next tile, there; the old value comes back and is written, zero-extended, into gD.
The time of an atom is a free value (log 1). -/
def Obligations.AtomsIssueApplyAndReturn : Prop :=
  (∀ (sy : BitVec 1) (dep : BitVec 4) (d a b : BitVec 5) (s : State), s.Issues dep [gR a, gR b] [gR d] → s.core.sq.length < 32 →
     s.core.replay = none → s.cl.loops = [] →
     let x := s.g a
     let legal := x.extractLsb' 40 24 = 0 ∧ x.extractLsb' 9 7 = 0 ∧ (x.extractLsb' 30 10).toNat < 576 ∧ (x.extractLsb' 0 9).toNat < 289
     let issues := fun i fn => ∃ (y : Atom) (e : QEntry) (u : State), AwaitsG u (exec i s) sy d ∧ u.core.atoms = s.core.atoms ++ [y] ∧ y.fn = fn ∧ y.addr = x ∧
       y.op = (s.g b).extractLsb' 0 32 ∧ y.d = d.toNat ∧ y.warm = s.warm ∧ y.old = none ∧ y.applyAt = none ∧ u.core.sq = s.core.sq ++ [e] ∧
       e.op = .atom y.id d.toNat ∧ u.apart = s.apart ∧ u.core.cold = s.core.cold ∧ ∀ l, u.core.cluster l = s.core.cluster l
     (legal → issues (.aadd sy dep d a b) 0 ∧ issues (.aaddf sy dep d a b) 1 ∧ issues (.axchg sy dep d a b) 2 ∧
       ((x.extractLsb' 16 6).toNat ≠ 47 → issues (.a2sum sy dep d a b) 3)) ∧
     (legal → (x.extractLsb' 16 6).toNat = 47 → exec (.a2sum sy dep d a b) s = .next (s.wordTrap 0x0B s.wordHandle)) ∧
     (¬ legal → ∀ i ∈ [Instr.aadd sy dep d a b, .aaddf sy dep d a b, .axchg sy dep d a b, .a2sum sy dep d a b],
       exec i s = .next (s.wordTrap 0x0B s.wordHandle))) ∧
  (∀ (x : Atom) (s : State), s.core.atoms = [x] →
     let e := ((x.addr.extractLsb' 16 6).toNat, (x.addr.extractLsb' 0 9).toNat)
     let word := Sp.get 0 s.core.cold.acc (289 * e.1 + e.2)
     (∀ w, x.applyAt = some w → w ≤ s.clock → x.old = none → s.atomTarget x = some s.cur → s.core.badAcc = [] → x.fn = 3 →
       let low := Sp.get 0 s.core.cold.acc (289 * (e.1 + 1) + e.2)
       let sum := add32 0 0 word x.op
       let err := if isFinite32 sum then sumVals 0 [val32 word, val32 x.op, (val32 sum).neg] else .num false 0 0
       ∃ t back, exec .atomApply s = .next t ∧
       t.core.atoms = [{ x with old := some word, backAt := back }] ∧ s.warm < back ∧ t.mem = s.mem ∧
       Sp.get 0 t.core.cold.acc (289 * e.1 + e.2) = sum ∧
       Sp.get 0 t.core.cold.acc (289 * (e.1 + 1) + e.2) = round32 0 0 (sumVals 0 [val32 low, err]) ∧
       (∀ j, j ≠ 289 * e.1 + e.2 → j ≠ 289 * (e.1 + 1) + e.2 → Sp.get 0 t.core.cold.acc j = Sp.get 0 s.core.cold.acc j) ∧
       (t.core.cold.tileAt e.1).chkv = false ∧ (t.core.cold.tileAt (e.1 + 1)).chkv = false) ∧
     (∀ w, x.applyAt = some w → w ≤ s.clock → x.old = none → s.atomTarget x = some s.cur → s.core.badAcc = [] → x.fn < 3 → ∃ t back, exec .atomApply s = .next t ∧
       t.core.atoms = [{ x with old := some word, backAt := back }] ∧ s.warm < back ∧ t.mem = s.mem ∧
       (x.fn = 0 → Sp.get 0 t.core.cold.acc (289 * e.1 + e.2) = word + x.op) ∧
       (x.fn = 1 → Sp.get 0 t.core.cold.acc (289 * e.1 + e.2) = add32 0 0 word x.op) ∧
       (x.fn = 2 → Sp.get 0 t.core.cold.acc (289 * e.1 + e.2) = x.op) ∧
       (∀ j, j ≠ 289 * e.1 + e.2 → Sp.get 0 t.core.cold.acc j = Sp.get 0 s.core.cold.acc j) ∧ (t.core.cold.tileAt e.1).chkv = false) ∧
     (∀ w, x.applyAt = some w → w ≤ s.clock → x.old = none → s.atomTarget x = none → ∃ t back, exec .atomApply s = .next t ∧
       t.core.atoms = [{ x with old := some 0, backAt := back }] ∧ t.core.cold = s.core.cold ∧ (Sp.get {} t.core.paths 2).err = true) ∧
     (∀ v, x.old = some v → x.backAt ≤ s.warm → x.level = s.core.level → s.core.win = none → ∃ t, exec .atomComplete s = .next t ∧
       t.core.atoms = [] ∧ (t.core.cluster .K).rg x.d = (if x.d = 0 then 0 else v.setWidth 64) ∧ t.mem = s.mem ∧
       ∀ n, n ≠ x.d → (t.core.cluster .K).rg n = (s.core.cluster .K).rg n))

/-! ## Matrix orders (R193 to R224) -/

/-- R193, R194: row r of a tile of a pair stands at BASE + (TILE + ITER) × TPITCH + r × ROWP, TILE + ITER modulo 4096, in the 2^19-byte
cold address space; bytes at or beyond CQUOTA read 0.
R202, R207: `mnop` only passes; `mldm` loads the sixteen rows of a tile and their TAG and INV into a matrix register three cold
cycles later. -/
def Obligations.TileRowsAndMatrixLoads : Prop :=
  (∀ (s : State) (k tile r a b n : Nat),
     let e := Sp.get 0 s.core.cold.ms (2 * k)
     let o := Sp.get 0 s.core.cold.ms (2 * k + 1)
     (s.core.cold.pair k).row tile n r =
       ((e.extractLsb' 0 19).toNat + (tile + n) % 4096 * (o.extractLsb' 0 19).toNat + r * (e.extractLsb' 19 16).toNat) % 2 ^ 19 ∧
     (s.core.cold.pair k).brot = (o.extractLsb' 19 4).toNat ∧
     (s.core.slot.cquota.toNat ≤ a % 2 ^ 19 → s.coldByte b a = 0 ∧ s.coldSide b a = 0) ∧
     (a % 2 ^ 19 < s.core.slot.cquota.toNat → s.coldByte b a = s.core.cold.read b (a % 2 ^ 19))) ∧
  (∀ (w : BitVec 4) (d p : BitVec 3) (k : BitVec 12) (s : State),
     let pr := s.core.cold.pair p.toNat
     let at_ := fun r => pr.row k.toNat (s.iter .matrix) r
     Lands s (exec (.mnop w) s) 0 .matrix [] ∧
     Lands s (exec (.mldm w d p k) s) (lineCount ((List.range 16).map fun r => (at_ r, 32))) .matrix
       [(3, .mreg d.toNat ((List.range 16).map fun r => BitVec.ofNat 256 (leNat ((List.range 32).map fun i => s.coldByte pr.brot (at_ r + i))))
         ((List.range 16).map fun r => s.coldSide pr.brot (at_ r)))])

/-- R203, R204, R57, R58, R47: `mma` lands four cold cycles later in its tile; each active element takes one rounded sum of its products
and, unless OVW, of the word its chain has; under SEG an element whose row and column tags differ takes no product; int8 sums wrap.
An inactive element is not written.
R203, R205, R197: the products of element (i, j) are those of the elements of row i of A and of row j of B at the active depths, each in
the format the code gives; a cb2 column decodes its indexes against the codebook, a malformed one as zeros.
R206: with CHK the row, column and corner sums take the products of their factors with the exact sums of the other side.
Which products the checksums leave out under SEG is the model's reading (log 38). -/
def Obligations.MatrixMultiplyAccumulates : Prop :=
  ∀ (w : BitVec 4) (f : BitVec 3) (x g k o : BitVec 1) (a b : BitVec 4) (c : BitVec 6) (s : State),
    let y := s.mmaCase f x a b
    let old := fun i j => s.core.cold.chainWord 1 c.toNat (17 * i + j)
    ∃ ws info, Lands s (exec (.mma w f x g k o a b c) s) (s.orderHeat (.mma w f x g k o a b c)) .matrix [(4, .acc c.toNat ws info true)] ∧
      info.int = decide (f = 5 ∨ f = 6) ∧ (k = 0 → info.chkv = false) ∧
      (k = 1 → info.chkv = (decide (o = 1) || (s.core.cold.chainTile 1 c.toNat).chkv)) ∧
      (∀ i, i < 16 → tagOf info.rt i = ((s.operand a.toNat).2.getD i 0).extractLsb' 0 8 ∧
        tagOf info.ct i = if f = 7 then 0 else ((s.operand b.toNat).2.getD i 0).extractLsb' 0 8) ∧
      (k = 1 → ∀ n v, (n, v) ∈ ws → (∃ i ∈ y.rows, ∃ j ∈ y.cols, n = 17 * i + j) ∨ (∃ i ∈ y.rows, n = 17 * i + 16) ∨
        (∃ j ∈ y.cols, n = 272 + j) ∨ n = 288) ∧
      (let sum := fun (n : Nat) (ps : List Val) =>
         (n, if ps = [] then (if o = 1 then (0 : Word32) else s.core.cold.chainWord 1 c.toNat n)
             else round32 0 0 (sumVals 0 (ps ++ if o = 1 then [] else [val32 (s.core.cold.chainWord 1 c.toNat n)]))) ∈ ws
       let seg := decide (g = 1)
       k = 1 → f ≠ 5 → f ≠ 6 →
         (∀ i ∈ y.rows, sum (17 * i + 16) (if (y.cols.filter fun j => y.paired seg i j) = [] then [] else y.ks.map fun d =>
           (elemAt y.a i d).mul (sumVals 0 ((y.cols.filter fun j => y.paired seg i j).map fun j => elemAt y.b j d)))) ∧
         (∀ j ∈ y.cols, sum (272 + j) (if (y.rows.filter fun i => y.paired seg i j) = [] then [] else y.ks.map fun d =>
           (sumVals 0 ((y.rows.filter fun i => y.paired seg i j).map fun i => elemAt y.a i d)).mul (elemAt y.b j d))) ∧
         (g = 0 → sum 288 (if y.rows = [] ∨ y.cols = [] then [] else y.ks.map fun d =>
           (sumVals 0 (y.rows.map fun i => elemAt y.a i d)).mul (sumVals 0 (y.cols.map fun j => elemAt y.b j d))))) ∧
      (k = 0 → ∀ n v, (n, v) ∈ ws → ∃ i ∈ y.rows, ∃ j ∈ y.cols, n = 17 * i + j) ∧
      (∀ i ∈ y.rows, ∀ j ∈ y.cols,
        (f ≠ 5 → f ≠ 6 → y.products (decide (g = 1)) i j ≠ [] →
          (17 * i + j, round32 0 0 (sumVals 0 (y.products (decide (g = 1)) i j ++ if o = 1 then [] else [val32 (old i j)]))) ∈ ws) ∧
        (f ≠ 5 → f ≠ 6 → y.products (decide (g = 1)) i j = [] → (17 * i + j, if o = 1 then 0 else old i j) ∈ ws) ∧
        (f = 5 ∨ f = 6 → (17 * i + j, BitVec.ofInt 32 (((y.products (decide (g = 1)) i j).map fun v => v.at 0).sum +
          if o = 1 then 0 else (old i j).toInt)) ∈ ws) ∧
        (g = 1 → ((y.tagA.getD i 0).extractLsb' 0 8 ≠ (y.tagB.getD j 0).extractLsb' 0 8 → y.products true i j = []))) ∧
      (∀ i, i ∈ y.rows ↔ i < 16 ∧ s.core.cold.triple.row.getLsbD i = true ∧ ((s.operand a.toNat).2.getD i 0).getLsbD 8 = false) ∧
      (∀ j, j ∈ y.cols ↔ j < 16 ∧ s.core.cold.triple.col.getLsbD j = true ∧ (f = 7 ∨ ((s.operand b.toNat).2.getD j 0).getLsbD 8 = false)) ∧
      (let form : Nat × Nat × Nat := match f.toNat with
         | 0 => (2, 2, 16)
         | 1 => (1, 1, 16)
         | 2 => (3, if x = 1 then 4 else 3, 32)
         | 3 => (4, if x = 1 then 3 else 4, 32)
         | 4 => (5, 5, 64)
         | 5 => (6, 6, 32)
         | 6 => (7, 7, 64)
         | _ => (if x = 1 then 4 else 3, 8, 32)
       let n := 256 / form.2.2
       let deep := (List.range form.2.2).filter fun d => s.core.cold.triple.dep.getLsbD d
       let left := fun i d => decodeElem form.1 (((s.operand a.toNat).1.getD i 0).extractLsb' (n * d) n).toNat
       let right := fun j d =>
         if f = 7 then
           match decodeCb2 (((s.operand b.toNat).1.getD (d / 8) 0).extractLsb' (16 * j) 16).toNat
               (Sp.get 0 s.core.cold.cbt ((((s.operand b.toNat).1.getD (d / 8) 0).extractLsb' (16 * j) 16).toNat % 256)).toNat with
           | some hs => Val.num (decide (hs.getD (d % 8) 0 < 0)) (hs.getD (d % 8) 0).natAbs (-1)
           | none => .num false 0 0
         else decodeElem form.2.1 (((s.operand b.toNat).1.getD j 0).extractLsb' (n * d) n).toNat
       y.ks = deep ∧ (∀ i ∈ y.rows, ∀ d ∈ deep, elemAt y.a i d = left i d) ∧ (∀ j ∈ y.cols, ∀ d ∈ deep, elemAt y.b j d = right j d) ∧
       ∀ i ∈ y.rows, ∀ j ∈ y.cols, g = 0 ∨ (y.tagA.getD i 0).extractLsb' 0 8 = (y.tagB.getD j 0).extractLsb' 0 8 →
         y.products (decide (g = 1)) i j = deep.map fun d => (left i d).mul (right j d))

/-- R211, R212: `mzero` sets all 289 words of its tile to +0, the tags to 0, CHKV to 1 and INT to 0; `mcopy` copies the 289 words, the tags,
CHKV and INT of one tile into another, and does nothing from a tile onto itself; no mask applies and no other tile changes. -/
def Obligations.ZeroAndCopyReachEveryWord : Prop :=
  ∀ (w : BitVec 4) (a b : BitVec 6) (s : State),
    let sets := fun (i : Instr) (f : Nat → Word32) (info : Tile) => ∃ op, Lands s (exec i s) 8 .matrix [(2, op)] ∧
      ∀ m : Cold, { m.apply op with acc := m.acc, tile := m.tile } = m ∧ (m.apply op).tileAt a.toNat = info ∧
        (∀ e, e < 289 → (m.apply op).accAt a.toNat e = f e) ∧
        ∀ k, k ≠ a.toNat → (m.apply op).tileAt k = m.tileAt k ∧ ∀ e, e < 289 → (m.apply op).accAt k e = m.accAt k e
    sets (.mzero w a) (fun _ => 0) { rt := 0, ct := 0, chkv := true, int := false } ∧
    (a ≠ b → sets (.mcopy w a b) (s.core.cold.accAt b.toNat) (s.core.cold.tileAt b.toNat)) ∧
    Lands s (exec (.mcopy w a a) s) 8 .matrix []

/-- R213, R214: `mlda` loads or adds a tile from the cold store, the tags of active rows from their granules and those of inactive rows left
as they are, CT, CHKV and INT at 0; a load clears the checksums; `ma2s` adds a tile into a high and low pair, which take its tags.
R209, R62, R210: `mscale` adds to each active element, in one rounding, the part tile's word times two to the sum of the two biases and the
two scale codes, leaving elements with a code of 15 alone; `mstore` writes the active elements of a tile to the cold store, as words or
with HALF as bf16, under SEG a FILL where row and column tags differ, each granule with its row's tag; neither writes anything else. -/
def Obligations.TilesLoadScaleAndStore : Prop :=
  (∀ (w : BitVec 4) (a b l : BitVec 6) (p : BitVec 3) (k : BitVec 12) (s : State),
     let m := s.core.cold
     let pr := m.pair p.toNat
     let loaded := fun i j => BitVec.ofNat 32 (leNat ((List.range 4).map fun n => s.coldByte pr.brot (pr.row k.toNat (s.iter .matrix) i + 4 * j + n)))
     let active := fun i j => i < 16 ∧ j < 16 ∧ m.triple.row.getLsbD i = true ∧ m.triple.col.getLsbD j = true
     let keeps := fun (op : LandOp) => ∀ y : Cold,
       let x := (y.apply op).tileAt a.toNat
       x.chkv = false ∧ x.int = false ∧ x.ct = 0 ∧ ∀ i, i < 16 → tagOf x.rt i =
         if m.triple.row.getLsbD i then (s.coldSide pr.brot (pr.row k.toNat (s.iter .matrix) i)).extractLsb' 0 8 else tagOf (y.tileAt a.toNat).rt i
     (∃ ws rt, Lands s (exec (.mlda w a p k 0) s) (s.orderHeat (.mlda w a p k 0)) .matrix [(4, .accPart a.toNat ws (some rt))] ∧
       keeps (.accPart a.toNat ws (some rt)) ∧
       (∀ i j, active i j → (17 * i + j, loaded i j) ∈ ws) ∧ (∀ i, i < 16 → (17 * i + 16, (0 : Word32)) ∈ ws) ∧
       (∀ j, j < 17 → (272 + j, (0 : Word32)) ∈ ws) ∧
       ∀ n v, (n, v) ∈ ws → (∃ i j, active i j ∧ n = 17 * i + j ∧ v = loaded i j) ∨
         (v = 0 ∧ ((∃ i, i < 16 ∧ n = 17 * i + 16) ∨ ∃ j, j < 17 ∧ n = 272 + j))) ∧
     (∃ ws rt, Lands s (exec (.mlda w a p k 1) s) (s.orderHeat (.mlda w a p k 1)) .matrix [(4, .accPart a.toNat ws (some rt))] ∧
       keeps (.accPart a.toNat ws (some rt)) ∧
       (∀ i j, active i j → (17 * i + j, add32 0 0 (m.accAt a.toNat (17 * i + j)) (loaded i j)) ∈ ws) ∧
       ∀ n v, (n, v) ∈ ws → ∃ i j, active i j ∧ n = 17 * i + j) ∧
     ∃ info, info.chkv = false ∧ info.int = false ∧ info.rt = (m.tileAt b.toNat).rt ∧ info.ct = (m.tileAt b.toNat).ct ∧ Lands s (exec (.ma2s w a l b) s) 24 .matrix
       [(4, .acc a.toNat ((List.range 289).map fun e => (e, (twoSum (m.accAt a.toNat e) (m.accAt l.toNat e) (m.accAt b.toNat e)).1)) info false),
        (4, .acc l.toNat ((List.range 289).map fun e => (e, (twoSum (m.accAt a.toNat e) (m.accAt l.toNat e) (m.accAt b.toNat e)).2)) info false)]) ∧
  (∀ (w : BitVec 4) (a q : BitVec 6) (p : BitVec 3) (b : BitVec 8) (k : BitVec 12) (g : BitVec 1) (s : State),
     let m := s.core.cold
     let pr := m.pair p.toNat
     let code := fun (which n : Nat) => leNat ((List.range 8).map fun i =>
       s.coldByte pr.brot (((pr.scales ((b.toNat + s.iter .matrix) % 256)).getD which (0, 0)).1 + i)) / 16 ^ n % 16
     let active := fun i j => i < 16 ∧ j < 16 ∧ m.triple.row.getLsbD i = true ∧ m.triple.col.getLsbD j = true
     let ms12 := Sp.get 0 m.ms 12
     let part := fun (n : Nat) =>
       if (m.tileAt q.toNat).int then Val.ofInt (m.accAt q.toNat n).toInt else val32 (m.accAt q.toNat n)
     let scaled := fun (v : Val) (e : Int) => match v with
       | .num sign mag exp => Val.num sign mag (exp + e)
       | _ => v
     (∃ ws info, Lands s (exec (.mscale w a q p b) s) (s.orderHeat (.mscale w a q p b)) .matrix [(4, .acc a.toNat ws info true)] ∧ info.chkv = false ∧
       info.int = false ∧ info.rt = (m.tileAt q.toNat).rt ∧ info.ct = (m.tileAt q.toNat).ct ∧
       (∀ i j, active i j → code 0 i < 15 → code 1 j < 15 →
         (17 * i + j, round32 0 0 (sumVals 0 [val32 (m.chainWord 2 a.toNat (17 * i + j)),
           scaled (part (17 * i + j)) ((ms12.extractLsb' 0 8).toInt + (code 0 i : Int) + (ms12.extractLsb' 8 8).toInt + (code 1 j : Int))])) ∈ ws) ∧
       ∀ n v, (n, v) ∈ ws → ∃ i j, active i j ∧ n = 17 * i + j ∧ code 0 i ≠ 15 ∧ code 1 j ≠ 15) ∧
     ∀ h : BitVec 1, ∃ bytes side, Lands s (exec (.mstore w a p k g h) s) (s.orderHeat (.mstore w a p k g h)) .matrix [(4, .cold bytes side)] ∧
       let size := if h = 1 then 2 else 4
       let from_ := fun i j n => (pr.row k.toNat (s.iter .matrix) i + size * j + n) % 2 ^ 19
       let value := fun i j => if g = 1 ∧ tagOf (m.tileAt a.toNat).rt i ≠ tagOf (m.tileAt a.toNat).ct j then (Sp.get 0 m.ms 14).extractLsb' 0 32
         else m.accAt a.toNat (17 * i + j)
       let stored := fun i j n => if h = 1 then BitVec.ofNat 8 ((encodeElem 2 0 false 0 (val32 (value i j))).1 / 256 ^ n)
         else (value i j).extractLsb' (8 * n) 8
       (∀ i j n, active i j → n < size → from_ i j n < s.core.slot.cquota.toNat →
         (coldPlace pr.brot (from_ i j n), stored i j n) ∈ bytes ∧
         (coldPlace pr.brot (from_ i j n) / 32, some (tagOf (m.tileAt a.toNat).rt i)) ∈ side) ∧
       (∀ x ∈ bytes, ∃ i j n, active i j ∧ n < size ∧ from_ i j n < s.core.slot.cquota.toNat ∧ x = (coldPlace pr.brot (from_ i j n), stored i j n)) ∧
       ∀ x ∈ side, ∃ i j n, active i j ∧ n < size ∧ from_ i j n < s.core.slot.cquota.toNat ∧
         x = (coldPlace pr.brot (from_ i j n) / 32, some (tagOf (m.tileAt a.toNat).rt i)))

/-- R196, R219 to R224: the orders that steer the matrix engine and load its tables: `mtile` sets the replay marker, `mloop` begins a loop,
`mwaits` asks for fillers, `mflag` writes a flag word, `mmask` selects and loads a mask triple, `mcbt` loads codebook entries. -/
def Obligations.MatrixSequencing : Prop :=
  ∀ (w f : BitVec 4) (pre : BitVec 1) (c : BitVec 12) (l : BitVec 10) (v n : BitVec 16) (q p : BitVec 3) (first count : BitVec 8) (s : State),
    let m := s.core.cold
    let x := s.core.engine .matrix
    let pr := m.pair p.toNat
    let gran := (s.core.slot.cquota.toNat + 2 ^ 19 - 256 + 32 * q.toNat) % 2 ^ 19
    (∃ t, exec (.mtile w) s = .next t ∧
      (t.core.engine .matrix).mark = some { step := x.step, loops := x.loops, msel := m.msel, scnt := s.scnt } ∧ t.core.cold.acc = m.acc ∧
      t.core.cold.pend = m.pend ∧ (s.core.inHandler = false → s.core.replay = none → t.core.win.isSome = true)) ∧
    Steers s (exec (.mloop w pre c l) s) 0 .matrix (fun y => { y with
      loops := { first := x.step + 1, last := x.step + l.toNat, iter := 0, count := c.toNat, pre := decide (pre = 1), began := s.scnt } :: y.loops }) ∧
    Steers s (exec (.mwaits w n) s) 0 .matrix (fun y => { y with fill := y.fill + n.toNat }) ∧
    Lands s (exec (.mflag w f v) s) 0 .matrix [(1, .flag f.toNat (v.setWidth 32))] ∧
    (q = 0 → Lands s (exec (.mmask w q) s) 0 .matrix [(1, .sel 0 none)]) ∧
    (q ≠ 0 → ∃ t : MaskTriple, Lands s (exec (.mmask w q) s) (lineCount [(gran, 32)]) .matrix [(1, .sel q.toNat (some t))] ∧
      t.row.toNat = leNat ((List.range 2).map fun i => s.coldByte 0 (gran + i)) ∧
      t.col.toNat = leNat ((List.range 2).map fun i => s.coldByte 0 (gran + 2 + i)) ∧
      t.dep.toNat = leNat ((List.range 8).map fun i => s.coldByte 0 (gran + 4 + i))) ∧
    Lands s (exec (.mcbt w p first count) s) (s.orderHeat (.mcbt w p first count)) .matrix [(4, .cbt first.toNat
      ((List.range (count.toNat + 1)).map fun e => BitVec.ofNat 32 (leNat ((List.range 4).map fun i =>
        s.coldByte pr.brot (pr.base + s.iter .matrix * pr.pitch + 4 * e + i)))))]

/-- R216 to R218: `mchk` classes a tile: without CHKV class 3 for reason 2, with a non-finite word or residue class 3 for reason 1, else
CLEAN, SINGLE or MULTI by the lines whose residue exceeds their tolerance, with their numbers, masks, place and residues; `mfix` refuses a
tile without CHKV or with a non-finite word and sets only bit 24 of word 0.
R215: `mdrain` reads its tile as it issues, for arrival 40 cold cycles later; an arriving drain is added, word by word, into the tile of the next
core of the quad if that core runs the launch, and is discarded with ERR on path 2 otherwise; with a clamp, a sum of larger magnitude keeps
its sign and takes the clamp's magnitude, CHKV of the tile falls, and the core's queue of overflow events takes an entry. -/
def Obligations.ChecksRepairsAndDrains : Prop :=
  (∀ (w : BitVec 4) (a : BitVec 6) (i j : BitVec 4) (s : State),
     let m := s.core.cold
     (∃ ws, Lands s (exec (.mchk w a) s) 24 .matrix [(8, .chk ws 0)] ∧ ws.map (·.1) = [0, 1, 2, 3, 4, 5, 6, 7] ∧
       ((m.tileAt a.toNat).chkv = false → (0, BitVec.ofNat 32 (a.toNat * 256 + 2 * 16 + 3)) ∈ ws) ∧
       ((m.tileAt a.toNat).chkv = true → (∃ e, e < 289 ∧ isFinite32 (m.accAt a.toNat e) = false) →
         (0, BitVec.ofNat 32 (a.toNat * 256 + 16 + 3)) ∈ ws) ∧
       (let flagged := fun (l : List Word32) => (tolerance (Sp.get 0 m.ms 13) l).less (residue l).abs
        let rows := (List.range 16).filter fun i => flagged (m.rowWords a.toNat i)
        let cols := (List.range 16).filter fun j => flagged (m.colWords a.toNat j)
        let delta := fun i => round32 0 0 (residue (m.rowWords a.toNat i))
        let gamma := fun j => round32 0 0 (residue (m.colWords a.toNat j))
        let word := fun (n v : Nat) => (n, BitVec.ofNat 32 v) ∈ ws
        (m.tileAt a.toNat).chkv = true → m.finiteTile a.toNat = true →
        ((∃ i, i < 16 ∧ (isFinite32 (delta i) = false ∨ isFinite32 (gamma i) = false)) → word 0 (a.toNat * 256 + 16 + 3)) ∧
        ((∀ i, i < 16 → isFinite32 (delta i) = true ∧ isFinite32 (gamma i) = true) →
          (rows = [] → cols = [] → word 0 (a.toNat * 256) ∧ word 1 0 ∧ word 2 0 ∧ word 3 0 ∧ word 4 0) ∧
          (∀ p q, rows = [p] → cols = [q] → word 0 (2 ^ 19 + 2 ^ 14 + a.toNat * 256 + 1) ∧ word 1 (q * 16 + p) ∧ (2, delta p) ∈ ws ∧
            (3, gamma q) ∈ ws ∧ word 4 (2 ^ q * 2 ^ 16 + 2 ^ p)) ∧
          (¬ (rows = [] ∧ cols = []) → ¬ (rows.length = 1 ∧ cols.length = 1) →
            word 0 (cols.length * 2 ^ 19 + rows.length * 2 ^ 14 + a.toNat * 256 + 2) ∧ word 1 0 ∧ word 2 0 ∧ word 3 0 ∧
            word 4 ((cols.map (2 ^ ·)).sum * 2 ^ 16 + (rows.map (2 ^ ·)).sum))))) ∧
     (∀ l : List Word32, residue l = sumVals 0 ((l.take 16).map val32 ++ [(val32 (l.getD 16 0)).neg]) ∧
       tolerance (Sp.get 0 m.ms 13) l = sumVals 0 [(val32 ((Sp.get 0 m.ms 13).extractLsb' 32 32)).mul (sumVals 0 (l.map fun v => (val32 v).abs)),
         val32 ((Sp.get 0 m.ms 13).extractLsb' 0 32)]) ∧
     ((m.tileAt a.toNat).chkv = false → Lands s (exec (.mfix w a i j) s) 8 .matrix
       [(8, .chk [(1, BitVec.ofNat 32 (j.toNat * 16 + i.toNat)), (2, 0), (3, 0)] (BitVec.ofNat 32 (2 ^ 24)))]) ∧
     (let d := residue (m.rowWords a.toNat i.toNat)
      let g := residue (m.colWords a.toNat j.toNat)
      let tol := tolerance (Sp.get 0 m.ms 13) (m.rowWords a.toNat i.toNat)
      let place : Nat × Word32 := (1, BitVec.ofNat 32 (j.toNat * 16 + i.toNat))
      (m.tileAt a.toNat).chkv = true → m.finiteTile a.toNat = true → tol ≠ .nan →
       (tol.less (sumVals 0 [d, g.neg]).abs = false → Lands s (exec (.mfix w a i j) s) 8 .matrix
         [(8, .accPart a.toNat [(17 * i.toNat + j.toNat,
             round32 0 0 (sumVals 0 [val32 (m.accAt a.toNat (17 * i.toNat + j.toNat)), d.neg]))] none),
          (8, .chk [place, (2, round32 0 0 d), (3, round32 0 0 g)] (BitVec.ofNat 32 (2 ^ 25)))]) ∧
       (tol.less (sumVals 0 [d, g.neg]).abs = true → Lands s (exec (.mfix w a i j) s) 8 .matrix
         [(8, .chk [place, (2, round32 0 0 d), (3, round32 0 0 g)] (BitVec.ofNat 32 (2 ^ 24)))]))) ∧
  ((∀ (w : BitVec 4) (a d : BitVec 6) (c : BitVec 1) (s : State), s.core.owes = {} → ∃ t x, exec (.mdrain w a d c) s = .next t ∧
     t.core.drains = s.core.drains ++ [x] ∧ x.at_ = s.scnt + 40 ∧ x.dst = d.toNat ∧ x.chkv = (s.core.cold.tileAt a.toNat).chkv ∧
     (∀ e, e < 289 → Sp.get 0 x.words e = s.core.cold.accAt a.toNat e) ∧
     x.clamp = (if c = 1 then some ((Sp.get 0 s.core.cold.ms 15).extractLsb' 0 32 &&& 0x7FFFFFFF) else none) ∧ t.core.cold = s.core.cold ∧
     t.core.heatNow = s.core.heatNow + 40 ∧ t.mem = s.mem) ∧
   ∀ (x : Drain) (s : State), s.core.drains = [x] → x.at_ ≤ s.scnt →
     let k := s.cur / 4 * 4 + (s.cur + 1) % 4
     let sum := fun e => add32 0 0 ((s.coreAt k).cold.accAt x.dst e) (Sp.get 0 x.words e)
     let above := fun (c : Word32) e => isNan32 c = false ∧ isNan32 (sum e) = false ∧ c.toNat < (sum e &&& 0x7FFFFFFF).toNat
     (s.takesDrain x = true → (s.coreAt k).badAcc = [] → x.clamp = none → ∃ t, exec .drainArrive s = .next t ∧ t.core.drains = [] ∧
       (∀ e, e < 289 → (t.coreAt k).cold.accAt x.dst e = sum e) ∧ t.core.oeq = s.core.oeq ∧
       ((t.coreAt k).cold.tileAt x.dst).chkv = (((s.coreAt k).cold.tileAt x.dst).chkv && x.chkv) ∧ t.mem = s.mem) ∧
     (∀ c, s.takesDrain x = true → (s.coreAt k).badAcc = [] → x.clamp = some c → ∃ t, exec .drainArrive s = .next t ∧ t.core.drains = [] ∧
       (∀ e, e < 289 → (above c e → (t.coreAt k).cold.accAt x.dst e = (sum e &&& 0x80000000) ||| c) ∧
         (¬ above c e → (t.coreAt k).cold.accAt x.dst e = sum e)) ∧ t.mem = s.mem ∧
       ((∀ e, e < 289 → ¬ above c e) → t.core.oeq = s.core.oeq ∧
         ((t.coreAt k).cold.tileAt x.dst).chkv = (((s.coreAt k).cold.tileAt x.dst).chkv && x.chkv)) ∧
       ((∃ e, e < 289 ∧ above c e) → ((t.coreAt k).cold.tileAt x.dst).chkv = false ∧
         (s.core.oeq.length < 62 → s.core.oeqNow = (0, 0) → s.core.oeqFreed = (0, 0) → ∃ v, t.core.oeq = s.core.oeq ++ [v] ∧
           v.extractLsb' 62 2 = 0 ∧ (v.extractLsb' 50 12).toNat = x.step % 2 ^ 12 ∧ v.getLsbD 9 = x.rpl))) ∧
     (s.takesDrain x = false → ∃ t, exec .drainArrive s = .next t ∧ t.core.drains = [] ∧ t.core.cold = s.core.cold ∧
       (Sp.get {} t.core.paths 2).err = true ∧ ∀ j, j ≠ s.cur → t.coreAt j = s.coreAt j))

/-! ## Vector and temporal orders (R237 to R258, R294 to R308) -/

/-- R238, R248, R251, R252: the lane orders that round nothing write the active lanes of vd one cold cycle later; integers wrap, shift
counts are taken modulo 32, and a NaN comes out of `vmin`, `vmax`, `vabs` and `vneg` canonical. R46: of two words that are not NaN
`vmin` gives the lesser and `vmax` the greater, −0 being less than +0. -/
def Obligations.LaneOrdersWriteActiveLanes : Prop :=
  ∀ (w : BitVec 4) (d a b : BitVec 5) (n : BitVec 6) (k : BitVec 7) (s : State),
    let x := fun i => s.core.cold.lane a.toNat i
    let y := fun i => s.core.cold.lane b.toNat i
    let does := fun (o : Instr) (f : Nat → Word32) => Lands s (exec o s) 24 .vector (s.lanes d 1 f)
    let below := fun (u v : Word32) => u.msb = true ∧ v.msb = false ∨ u.msb = v.msb ∧ (if u.msb = true then v.toNat < u.toNat else u.toNat < v.toNat)
    does (.viadd w d a b) (fun i => x i + y i) ∧ does (.visub w d a b) (fun i => x i - y i) ∧
    does (.vimul w d a b) (fun i => x i * y i) ∧ does (.vand w d a b) (fun i => x i &&& y i) ∧
    does (.vor w d a b) (fun i => x i ||| y i) ∧ does (.vxor w d a b) (fun i => x i ^^^ y i) ∧
    does (.vshl w d a b) (fun i => x i <<< ((y i).toNat % 32)) ∧ does (.vshr w d a b) (fun i => x i >>> ((y i).toNat % 32)) ∧
    does (.vsar w d a b) (fun i => (x i).sshiftRight ((y i).toNat % 32)) ∧
    does (.vsel w d a b) (fun i => if (s.core.cold.lane d.toNat i).getLsbD 0 then x i else y i) ∧
    does (.vmov w d a) x ∧ does (.vbcast w d a n) (fun _ => x n.toNat) ∧ does (.vperm w d a b) (fun i => x ((y i).toNat % 64)) ∧
    does (.vparam w d k) (fun _ =>
      if k.toNat < 32 then (Sp.get 0 s.core.cold.ms (k.toNat / 2)).extractLsb' (32 * (k.toNat % 2)) 32
      else if k.toNat < 48 then Sp.get 0 s.core.cold.vs (k.toNat - 32) else Sp.get 0 s.core.cold.ts (k.toNat - 48)) ∧
    (∃ f, does (.vmin w d a b) f ∧ ∀ i, (isNan32 (x i) = true ∨ isNan32 (y i) = true → f i = nan32) ∧
      (isNan32 (x i) = false → isNan32 (y i) = false → (below (x i) (y i) → f i = x i) ∧ (¬ below (x i) (y i) → f i = y i))) ∧
    (∃ f, does (.vmax w d a b) f ∧ ∀ i, (isNan32 (x i) = true ∨ isNan32 (y i) = true → f i = nan32) ∧
      (isNan32 (x i) = false → isNan32 (y i) = false → (below (x i) (y i) → f i = y i) ∧ (¬ below (x i) (y i) → f i = x i))) ∧
    does (.vabs w d a) (fun i => if isNan32 (x i) then nan32 else (x i).setWidth 31 |>.setWidth 32) ∧
    does (.vneg w d a) (fun i => if isNan32 (x i) then nan32 else x i ^^^ 0x80000000)

/-- R46, R49, R50, R248: the rounding lane orders take one rounding of the exact result under RM, with the lane's random bits where RM is 4
(every active lane's LFSR then steps); `vcvt` encodes what it decodes, element by element, and within one format
leaves every code but a NaN as it is.
R68 to R72, R250: the special functions write the active lanes four cold cycles later, with 40 HU: a value of the model's, rounded once
to the nearest. For `vrcp` and `vrsq` that value is the exact one, or has an odd significand less than one unit beside it, of more than 80 or
60 bits; for `vexp2` and `vlog2` whole and special arguments are stated to be exact, and of any other only that the value is the
model's, computed to 320 bits. `vexpd` takes the exact difference, −∞ less −∞ as −∞. -/
def Obligations.RoundedLanesAndSpecialFunctions : Prop :=
  (∀ (w g h : BitVec 4) (d a b : BitVec 5) (m : BitVec 3) (z : BitVec 1) (s : State),
     let v := fun (r : BitVec 5) i => s.core.cold.lane r.toNat i
     let r := fun i => (s.core.cold.lfsrAt i).toNat % 2 ^ 16
     let code := fun i => (v a i).toNat % 2 ^ fmtWidth h.toNat
     let does := fun (o : Instr) (f : Nat → Word32) => LandsRounded s (exec o s) 24 m (s.lanes d 1 f)
     does (.vadd w d a b m) (fun i => add32 m (r i) (v a i) (v b i)) ∧
     does (.vsub w d a b m) (fun i => sub32 m (r i) (v a i) (v b i)) ∧
     does (.vmul w d a b m) (fun i => mul32 m (r i) (v a i) (v b i)) ∧
     does (.vfma w d a b m) (fun i => fma32 m (r i) (v a i) (v b i) (v d i)) ∧
     does (.vcvt w d a g z m h) (fun i => BitVec.ofNat 32
       (if g = h ∧ decodeElem h.toNat (code i) ≠ .nan then code i
        else (encodeElem g.toNat m (decide (z = 1)) (r i) (decodeElem h.toNat (code i))).1))) ∧
  (∀ (w : BitVec 4) (d a b : BitVec 5) (s : State),
     let x := fun i => val32 (s.core.cold.lane a.toNat i)
     let y := fun i => val32 (s.core.cold.lane b.toNat i)
     let does := fun (o : Instr) (f : Nat → Val) => Lands s (exec o s) 40 .vector (s.lanes d 4 fun i => round32 0 0 (f i))
     does (.vexp2 w d a) (fun i => exp2Val (x i)) ∧ does (.vlog2 w d a) (fun i => log2Val (x i)) ∧
     does (.vrcp w d a) (fun i => rcpVal (x i)) ∧ does (.vrsq w d a) (fun i => rsqVal (x i)) ∧
     does (.vexpd w d a b) (fun i => exp2Val (if x i = .inf true ∧ y i = .inf true then .inf true else sumVals 0 [x i, (y i).neg]))) ∧
  (∀ (g : Bool) (m : Nat) (e : Int),
     (m ≠ 0 → ∃ (k n : Nat), rcpVal (.num g m e) = .num g k (-e - n) ∧ m.log2 + 80 < n ∧ k * m < 2 ^ n + m ∧ 2 ^ n < k * m + m ∧
       (k % 2 = 0 → k * m = 2 ^ n)) ∧
     (m ≠ 0 → ∃ (k n : Nat), let h := e / 2
       let m' := if e % 2 = 0 then m else 2 * m
       rsqVal (.num false m e) = .num false k (-h - n) ∧ m'.log2 + 60 < n ∧ (k - 1) * (k - 1) * m' < 2 ^ (2 * n) ∧
       2 ^ (2 * n) < (k + 1) * (k + 1) * m' ∧ (k % 2 = 0 → k * k * m' = 2 ^ (2 * n))) ∧
     (m ≠ 0 → rsqVal (.num true m e) = .nan ∧ log2Val (.num true m e) = .nan) ∧
     rcpVal (.num g 0 e) = .inf g ∧ rsqVal (.num g 0 e) = .inf g ∧ log2Val (.num g 0 e) = .inf true ∧ exp2Val (.num g 0 e) = .num false 1 0 ∧
     rcpVal (.inf g) = .num g 0 0 ∧ rsqVal (.inf false) = .num false 0 0 ∧ rsqVal (.inf true) = .nan ∧ log2Val (.inf false) = .inf false ∧
     log2Val (.inf true) = .nan ∧ exp2Val (.inf false) = .inf false ∧ exp2Val (.inf true) = .num false 0 0 ∧
     rcpVal .nan = .nan ∧ rsqVal .nan = .nan ∧ log2Val .nan = .nan ∧ exp2Val .nan = .nan) ∧
  (∀ (n : Nat) (e : Int), log2Val (.num false (2 ^ n) e) = .ofInt (n + e)) ∧
  ∀ (g : Bool) (m j : Nat), m ≠ 0 → j ≤ 320 → m ≤ 127 ∨ g = true ∧ m ≤ 149 →
    exp2Val (.num g (m * 2 ^ j) (-j)) = .num false 1 (if g = true then -m else m)

/-- R59, R241, R242, R253: `vred` and `vscan` write all 64 lanes three cold cycles later with the fixed tree over the lanes that count, the
identity standing for the others; integer sums are sums of the lanes that count, integer maxima and minima the greatest and the least of
them; where none counts the empty value stands. `vsegid` reads
TAG and INV of the granule each active lane names. -/
def Obligations.ReductionsOverTheFixedTree : Prop :=
  ∀ (w : BitVec 4) (d a : BitVec 5) (i g : BitVec 1) (o : BitVec 2) (s : State),
    let m := s.core.cold
    let x := fun n => m.lane a.toNat n
    let seg := fun n => m.lane 31 n
    let counts := fun (scan : Bool) (n j : Nat) => m.top.getLsbD j && (!scan || decide (j ≤ n)) &&
      (decide (g = 0) || (!(seg n).getLsbD 8 && !(seg j).getLsbD 8 && decide ((seg j).setWidth 8 = (seg n).setWidth 8)))
    let node := fun (c d : Word32) => if o = 0 then add32 0 0 c d else if o = 1 then max32 c d else min32 c d
    let ident : Word32 := if o = 0 then 0x80000000 else if o = 1 then 0xFF800000 else 0x7F800000
    let value := fun (scan : Bool) (f : Nat → Word32) => ∀ n, n < 64 →
      (i = 1 → o = 0 → f n = (((List.range 64).filter (counts scan n)).map x).sum) ∧
      (i = 1 → o = 1 → (∃ j, j < 64 ∧ counts scan n j = true) →
        (∃ j, j < 64 ∧ counts scan n j = true ∧ f n = x j) ∧ ∀ j, j < 64 → counts scan n j = true → (f n).slt (x j) = false) ∧
      (i = 1 → o ≠ 0 → o ≠ 1 → (∃ j, j < 64 ∧ counts scan n j = true) →
        (∃ j, j < 64 ∧ counts scan n j = true ∧ f n = x j) ∧ ∀ j, j < 64 → counts scan n j = true → (x j).slt (f n) = false) ∧
      (i = 0 → (∃ j, j < 64 ∧ counts scan n j = true) → f n = tree node ((List.range 64).map fun j => if counts scan n j then x j else ident)) ∧
      ((∀ j, j < 64 → counts scan n j = false) → f n = if o = 0 then 0 else if i = 0 then ident else if o = 1 then 0x80000000 else 0x7FFFFFFF)
    (∃ f, Lands s (exec (.vred w d a i g o) s) 24 .vector [(3, .vreg d.toNat ((List.range 64).map fun n => (n, f n)))] ∧ value false f) ∧
    (∃ f, Lands s (exec (.vscan w d a i g o) s) 24 .vector [(3, .vreg d.toNat ((List.range 64).map fun n => (n, f n)))] ∧ value true f) ∧
    Lands s (exec (.vsegid w d a) s) (s.orderHeat (.vsegid w d a)) .vector (s.lanes d 2 fun n =>
      (s.coldSide ((x n).extractLsb' 19 4).toNat (((x n).extractLsb' 5 14).toNat * 32)).setWidth 32)

/-- R254, R255: `vld` reads and `vst` writes the active lanes' words of a 256-byte row of the cold store at BASE + 256 × ((ROW + ITER) mod
2048), a store clearing INV and keeping TAG of each granule it writes; `vldacc` and `vstacc` move a quarter of a tile. -/
def Obligations.ColdRowsAndAccumulatorQuarters : Prop :=
  ∀ (w n : BitVec 4) (d : BitVec 5) (k : BitVec 7) (q : BitVec 3) (c : BitVec 6) (e : BitVec 1) (s : State),
    let m := s.core.cold
    let v := Sp.get 0 m.vs n.toNat
    let row := ((v.extractLsb' 5 14).toNat * 32 + 256 * ((k.toNat + s.iter .vector) % 2048)) % 2 ^ 19
    let b := (v.extractLsb' 19 4).toNat
    let at_ := fun i j => (row + 4 * i + j) % 2 ^ 19
    let word := fun i => if q.toNat < 4 then 17 * (4 * q.toNat + i / 16) + i % 16 else if i ≤ 16 then 272 + i else 17 * (i - 17) + 16
    let has := fun i => decide (q.toNat < 4 ∨ i ≤ 32)
    Lands s (exec (.vld w d n k) s) (s.orderHeat (.vld w d n k)) .vector (s.lanes d 1 fun i =>
      BitVec.ofNat 32 (leNat ((List.range 4).map fun j => s.coldByte b (row + 4 * i + j)))) ∧
    (∃ bytes side, Lands s (exec (.vst w n d k) s) (s.orderHeat (.vst w n d k)) .vector [(1, .cold bytes side)] ∧
      (∀ x, x ∈ bytes ↔ ∃ i ∈ m.lanesOn, ∃ j, j < 4 ∧ at_ i j < s.core.slot.cquota.toNat ∧
        x = (coldPlace b (at_ i j), (m.lane d.toNat i).extractLsb' (8 * j) 8)) ∧
      ∀ y, y ∈ side ↔ ∃ x ∈ bytes, y = (x.1 / 32, none)) ∧
    Lands s (exec (.vldacc w d q c) s) 24 .vector (s.lanes d 2 fun i => if has i then m.accAt c.toNat (word i) else 0) ∧
    Lands s (exec (.vstacc w q d c e) s) 24 .vector [(2, .vstacc c.toNat (decide (e = 1))
      ((m.lanesOn.filter has).map fun i => (word i, m.lane d.toNat i)))]

/-- R237 to R240: the top of the mask stack says which lanes are active, all where it is empty; `vcmp` and `mpush` push a mask under the
active lanes, `minv` turns the top over within its parent, `mpop` copies the top into all lanes of vd and takes it off, `mskz` skips the next
n orders where no lane is active. -/
def Obligations.MaskStackOrders : Prop :=
  ∀ (w : BitVec 4) (d a b : BitVec 5) (i : BitVec 1) (c : BitVec 3) (n : BitVec 7) (s : State),
    let m := s.core.cold
    let pushes := fun (o : Instr) (f : Nat → Bool) => ∃ stk,
      Lands s (exec o s) 24 .vector [(1, .mask stk (if m.mdepth < 16 then m.mdepth + 1 else m.mdepth))] ∧
      (∀ j, j < 64 → (Sp.get 0 stk (min m.mdepth 15)).getLsbD j =
        (f j && (if m.mdepth < 16 then m.top else Sp.get 0 m.mstk 15).getLsbD j)) ∧
      ∀ k, k ≠ min m.mdepth 15 → Sp.get 0 stk k = Sp.get 0 m.mstk k
    let at_ := fun (r : BitVec 5) j => m.lane r.toNat j
    (∀ j, j ∈ m.lanesOn ↔ j < 64 ∧ (m.mdepth = 0 ∨ (Sp.get 0 m.mstk (m.mdepth - 1)).getLsbD j = true)) ∧
    pushes (.mpush w a) (fun j => (at_ a j).getLsbD 0) ∧
    pushes (.vcmp w a b 1 0) (fun j => m.top.getLsbD j && decide (at_ a j = at_ b j)) ∧
    pushes (.vcmp w a b 1 2) (fun j => m.top.getLsbD j && (at_ a j).slt (at_ b j)) ∧
    pushes (.vcmp w a b 0 2) (fun j => m.top.getLsbD j && lt32 (at_ a j) (at_ b j)) ∧
    pushes (.vcmp w a b 0 6) (fun j => m.top.getLsbD j && (isNan32 (at_ a j) || isNan32 (at_ b j))) ∧
    pushes (.vcmp w a b i c) (fun j => m.top.getLsbD j && laneCond (decide (i = 1)) c (at_ a j) (at_ b j)) ∧
    (m.mdepth = 0 → Lands s (exec (.minv w) s) 24 .vector [] ∧
      Lands s (exec (.mpop w d) s) 24 .vector [(1, .vreg d.toNat ((List.range 64).map fun j => (j, 1)))]) ∧
    (m.mdepth ≠ 0 →
      Lands s (exec (.minv w) s) 24 .vector [(1, .mask (Sp.set 0 m.mstk (m.mdepth - 1) (~~~m.top &&& m.parent)) m.mdepth)] ∧
      Lands s (exec (.mpop w d) s) 24 .vector
        [(1, .vreg d.toNat ((List.range 64).map fun j => (j, if m.top.getLsbD j then 1 else 0))),
         (1, .mask m.mstk (m.mdepth - 1))]) ∧
    Steers s (exec (.mskz w n) s) 0 .vector (fun y => if m.top = 0 then { y with skip := n.toNat } else y)

/-- R300, R304: `tmode` sets the mode of one column, of every column, or of all from ts0 and ts1, and `treset` sets every latch to 255, each at
s + 1; nothing else of the temporal array changes. -/
def Obligations.TmodeAndTresetAtTheNextCycle : Prop :=
  ∀ (w : BitVec 4) (n : BitVec 6) (m : BitVec 1) (s : State),
    let sets := fun (i : Instr) (f : Nat → Bool) => ∃ op, Lands s (exec i s) 0 .temporal [(1, op)] ∧
      ∀ c : Cold, { c.apply op with tmode := c.tmode } = c ∧ ∀ j, j < 64 → (c.apply op).tmode.getLsbD j = f j
    sets (.tmode w n m) (fun j => if j = n.toNat then decide (m = 1) else s.core.cold.tmode.getLsbD j) ∧
    sets (.tmodeAll w m) (fun _ => decide (m = 1)) ∧
    sets (.tmodeTs w) (fun j => (Sp.get 0 s.core.cold.ts (j / 32)).getLsbD (j % 32)) ∧
    ∃ t l, exec (.treset w) s = .next t ∧ Issued s t 0 ∧ { t.core.cold with pend := s.core.cold.pend, eval := s.core.cold.eval } = s.core.cold ∧
      t.core.cold.eval = none ∧ t.core.cold.pend = s.core.cold.pend ++ [l] ∧ l.at_ = s.scnt + 1 ∧
      ∀ c : Cold, { c.apply l.op with tin := c.tin, tout := c.tout } = c ∧
        ∀ j, Sp.get 255 (c.apply l.op).tin j = 255 ∧ Sp.get 255 (c.apply l.op).tout j = 255

/-- R299, R301, R306: rows of delays and the window of the temporal array and its sequencing, with the sequencing orders of the vector engine
(R240, R256, R257): `vnop` and `tnop` only pass, a loop of the vector engine begins at the next step, `vwaits` asks for fillers.
R296, R297, R302 to R305, R307: an evaluation takes the low bytes of a vector register (`tlaunch`) or OUT (`trelax`, n passes, each taking
the one before) and lands TWIN + 12 cold cycles a pass later; a column gives the earliest or the latest of its arrivals, 255 where it has
none within the window; `tcapture` copies OUT as it stands into all lanes. -/
def Obligations.TemporalConfigurationAndEvaluation : Prop :=
  (∀ (w f : BitVec 4) (n c : BitVec 6) (t : BitVec 2) (p : BitVec 1) (q : BitVec 8) (v : BitVec 16) (k : BitVec 12) (l : BitVec 9) (s : State),
     let x := Sp.get 0 s.core.cold.ts t.toNat
     let byte := fun i => let a := ((x.extractLsb' 6 13).toNat * 64 + i) % 2 ^ 19
       if a < s.core.slot.cquota.toNat then s.core.cold.read (x.extractLsb' 19 4).toNat a else 255
     Lands s (exec (.vnop w) s) 0 .vector [] ∧ Lands s (exec (.tnop w) s) 0 .temporal [] ∧
     Lands s (exec (.vflag w f v) s) 0 .vector [(1, .flag f.toNat (v.setWidth 32))] ∧
     Lands s (exec (.tflag w f v) s) 0 .temporal [(1, .flag f.toNat (v.setWidth 32))] ∧
     Steers s (exec (.vloop w p k l) s) 0 .vector (fun y => { y with
       loops := { first := (s.core.engine .vector).step + 1, last := (s.core.engine .vector).step + l.toNat, iter := 0, count := k.toNat,
                  pre := decide (p = 1), began := s.scnt } :: y.loops }) ∧
     Steers s (exec (.vwaits w v) s) 0 .vector (fun y => { y with fill := y.fill + v.toNat }) ∧
     Lands s (exec (.tdload w n c t) s) (c.toNat + 1) .temporal [(c.toNat + 4, .dly ((List.range (c.toNat + 1)).map fun r =>
       (n.toNat + r, (List.range 64).map fun j => byte (64 * r + j))))] ∧
     Lands s (exec (.twset w q) s) 0 .temporal [(1, .twin q.toNat)]) ∧
  ((∀ (w : BitVec 4) (a : BitVec 5) (n : BitVec 8) (s : State),
     let m := s.core.cold
     let on := 64 + m.crosspoints
     let starts := fun (o : Instr) (heat passes : Nat) (ins : List Byte) => ∃ t x, exec o s = .next t ∧ Issued s t heat ∧ t.core.cold.eval = some x ∧
       { t.core.cold with eval := m.eval, tin := m.tin } = m ∧ (∀ i, i < 64 → Sp.get 255 t.core.cold.tin i = ins.getD i 255) ∧
       x.busyTo = s.scnt + passes * (m.twin + 12) - 1 ∧ x.outs.length = passes ∧
       ∀ p, p < passes → ∃ from_, x.outs[p]? = some (s.scnt + (p + 1) * (m.twin + 12), m.evaluate from_) ∧
         (p = 0 → from_ = ins) ∧ (∀ y, 0 < p → x.outs[p - 1]? = some y → from_ = y.2)
     starts (.tlaunch w a) on 1 ((List.range 64).map fun i => (m.lane a.toNat i).setWidth 8) ∧
     starts (.trelax w n) (n.toNat * on) n.toNat ((List.range 64).map fun i => Sp.get 255 m.tout i) ∧
     Lands s (exec (.tcapture w a) s) 0 .temporal
       [(1, .vreg a.toNat ((List.range 64).map fun i => (i, (Sp.get 255 m.tout i).setWidth 32)))]) ∧
   (∀ (m : Cold) (ins : List Byte) (j : Nat), j < 64 →
     let on := fun i => i < 64 ∧ Sp.get 255 m.dly (64 * i + j) ≠ 255
     let arrives := fun i t => ins.getD i 255 ≠ 255 ∧ t = (ins.getD i 255).toNat + (Sp.get 255 m.dly (64 * i + j)).toNat
     let out := (m.evaluate ins).getD j 255
     ((∀ i, ¬ on i) → out = 255) ∧
     (m.tmode.getLsbD j = false → ∀ i t, on i → arrives i t → (∀ i' t', on i' → arrives i' t' → t ≤ t') →
       out = if m.twin ≤ t then 255 else BitVec.ofNat 8 t) ∧
     (m.tmode.getLsbD j = false → (∀ i t, on i → ¬ arrives i t) → m.twin ≤ 255 → out = 255) ∧
     (m.tmode.getLsbD j = true → (∃ i, on i ∧ ins.getD i 255 = 255) → m.twin ≤ 255 → out = 255) ∧
     (m.tmode.getLsbD j = true → ∀ i t, on i → arrives i t → (∀ i', on i' → ∃ t', arrives i' t' ∧ t' ≤ t) →
       out = if m.twin ≤ t then 255 else BitVec.ofNat 8 t)) ∧
   ∀ (x : Eval) (t : Nat) (out : List Byte) (rest : List (Nat × List Byte)) (s : State), s.core.cold.eval = some x → x.outs = (t, out) :: rest →
     ∃ u, exec .temporalEvalLand s = .next u ∧ u.mem = s.mem ∧ (∀ k, k ≠ s.cur → u.coreAt k = s.coreAt k) ∧
       (t ≤ s.scnt → (∀ j, j < 64 → Sp.get 255 u.core.cold.tout j = out.getD j 255) ∧
         u.core.cold.eval = (if rest = [] then none else some { x with outs := rest }) ∧
         (rest = [] → u.core.cold.tin = s.core.cold.tin) ∧ (rest ≠ [] → ∀ j, j < 64 → Sp.get 255 u.core.cold.tin j = out.getD j 255)) ∧
       (s.scnt < t → u = s))

/-- R198, R243, R298: a write that is due lands: it leaves the list of pending writes, and the words, rows, bytes, lanes, tags or
parameters it names hold their new values, nothing else of the cold state changing. R194: bytes written to the cold store clear INV of their granules and
leave TAG or set it; R337: the granules are then the core's own. R200, R245: a crossing of the quad that is due and late leaves the bytes of a matrix or vector
write standing, and is told so. R213, R218: an `mlda` clears CT, CHKV and INT; R255: `vstacc` adds or stores and clears
CHKV. R421: an injection that waits for a tile inverts its bit as an `mma` or `mscale` lands there. R291: a flag pulses e7. -/
def Obligations.PendingWritesLand : Prop :=
  ∀ (l : Landing) (s : State), l.event = none →
    let m := s.core.cold
    let t := s.landOne l
    let u := t.core.cold
    t.mem = s.mem ∧ (∀ k, k ≠ s.cur → { t.coreAt k with xings := (s.coreAt k).xings } = s.coreAt k) ∧
    ((∀ bytes side, l.op ≠ .cold bytes side) → ∀ k, k ≠ s.cur → t.coreAt k = s.coreAt k) ∧ u.pend = m.pend.erase l ∧
    ((∀ n v, l.op ≠ .flag n v) →
      { t.core with cold := m, xings := s.core.xings, win := s.core.win, inj := s.core.inj, badAcc := s.core.badAcc, badGran := s.core.badGran }
        = s.core) ∧
    (∀ n rows side, l.op = .mreg n rows side →
      (∀ r, r < 16 → Sp.get 0 u.m (16 * n + r) = rows.getD r 0 ∧ Sp.get 0 u.mside (16 * n + r) = side.getD r 0) ∧
      (∀ k, k / 16 ≠ n → Sp.get 0 u.m k = Sp.get 0 m.m k ∧ Sp.get 0 u.mside k = Sp.get 0 m.mside k) ∧
      { u with m := m.m, mside := m.mside, pend := m.pend } = m) ∧
    (∀ n ws info flip, l.op = .acc n ws info flip → (ws.map (·.1)).Nodup → (∀ x ∈ ws, x.1 < 289) →
      let e := s.core.injLoc % 2 ^ 9
      let hit := flip && s.core.armedInj 0 && decide (s.core.injLoc / 2 ^ 13 = n) && decide (e < 289)
      let seen := fun (k : Nat) (v : Word32) => if hit = true ∧ k = e then v ^^^ BitVec.ofNat 32 (2 ^ s.core.injBit) else v
      (∀ x ∈ ws, u.accAt n x.1 = seen x.1 x.2) ∧ u.tileAt n = info ∧
      (∀ k, k < 289 → k ∉ ws.map (·.1) → u.accAt n k = seen k (m.accAt n k)) ∧
      (∀ k i, k ≠ n → i < 289 → u.accAt k i = m.accAt k i ∧ u.tileAt k = m.tileAt k) ∧
      t.core.inj = (if hit = true then s.core.inj &&& 0x7FFFFFFFFFFFFFFF else s.core.inj) ∧
      { u with acc := m.acc, tile := m.tile, pend := m.pend } = m) ∧
    (∀ n ws rt, l.op = .accPart n ws rt → (ws.map (·.1)).Nodup → (∀ x ∈ ws, x.1 < 289) →
      (∀ x ∈ ws, u.accAt n x.1 = x.2) ∧
      (∀ k e, e < 289 → (k ≠ n ∨ e ∉ ws.map (·.1)) → u.accAt k e = m.accAt k e) ∧ (∀ k, k ≠ n → u.tileAt k = m.tileAt k) ∧
      (rt = none → u.tile = m.tile) ∧
      (∀ rows, rt = some rows → (rows.map (·.1)).Nodup → (u.tileAt n).ct = 0 ∧ (u.tileAt n).chkv = false ∧ (u.tileAt n).int = false ∧
        ∀ i, i < 16 → (∀ x ∈ rows, x.1 = i → tagOf (u.tileAt n).rt i = x.2) ∧
          (i ∉ rows.map (·.1) → tagOf (u.tileAt n).rt i = tagOf (m.tileAt n).rt i)) ∧
      { u with acc := m.acc, tile := m.tile, pend := m.pend } = m) ∧
    (∀ n add ws, l.op = .vstacc n add ws → (ws.map (·.1)).Nodup → (∀ x ∈ ws, x.1 < 289) →
      (∀ x ∈ ws, u.accAt n x.1 = if add = false then x.2 else if (m.tileAt n).int = true then m.accAt n x.1 + x.2
        else add32 0 0 (m.accAt n x.1) x.2) ∧
      (∀ k e, e < 289 → (k ≠ n ∨ e ∉ ws.map (·.1)) → u.accAt k e = m.accAt k e) ∧ (∀ k, k ≠ n → u.tileAt k = m.tileAt k) ∧
      (u.tileAt n = if ws = [] then m.tileAt n else { m.tileAt n with chkv := false }) ∧
      { u with acc := m.acc, tile := m.tile, pend := m.pend } = m) ∧
    (∀ bytes side, l.op = .cold bytes side → (bytes.map (·.1)).Nodup →
      (∀ x ∈ bytes, Sp.get 0 u.store x.1 = x.2) ∧ (∀ a, a ∉ bytes.map (·.1) → Sp.get 0 u.store a = Sp.get 0 m.store a) ∧
      (∀ y ∈ side, (∀ z ∈ side, z.1 = y.1 → z.2 = y.2) →
        Sp.get 0 u.side y.1 = (y.2.getD ((Sp.get 0 m.side y.1).setWidth 8)).setWidth 9) ∧
      (∀ g, g ∉ side.map (·.1) → Sp.get 0 u.side g = Sp.get 0 m.side g) ∧
      (∀ g, Sp.get 0 u.writers g = if ∃ x ∈ bytes, x.1 / 32 = g then 0 else Sp.get 0 m.writers g) ∧
      (∀ k, k / 4 = s.cur / 4 → (t.coreAt k).xings = (s.coreAt k).xings.map fun y =>
        if l.eng ≠ EngineId.temporal ∧ y.kind ≠ 2 ∧ y.recv.getLsbD (s.cur % 4) = true ∧ y.stamp ≤ s.scnt then
          { y with stays := y.stays ++ bytes.map (s.cur * 2 ^ 19 + ·.1) } else y) ∧
      { u with store := m.store, side := m.side, writers := m.writers, pend := m.pend } = m) ∧
    (∀ ws set, l.op = .chk ws set → (ws.map (·.1)).Nodup →
      (∀ x ∈ ws, Sp.get 0 u.chk x.1 = if x.1 = 0 then x.2 ||| set else x.2) ∧
      (∀ k, k ∉ ws.map (·.1) → Sp.get 0 u.chk k = if k = 0 then Sp.get 0 m.chk 0 ||| set else Sp.get 0 m.chk k) ∧
      { u with chk := m.chk, pend := m.pend } = m) ∧
    (∀ first ws, l.op = .cbt first ws →
      (∀ k, Sp.get 0 u.cbt k = if first ≤ k ∧ k < first + ws.length then ws.getD (k - first) 0 else Sp.get 0 m.cbt k) ∧
      { u with cbt := m.cbt, pend := m.pend } = m) ∧
    (∀ n load, l.op = .sel n load → u.msel = n ∧
      (∀ k, Sp.get {} u.mq k = if k = n then load.getD (Sp.get {} m.mq n) else Sp.get {} m.mq k) ∧
      { u with mq := m.mq, msel := m.msel, pend := m.pend } = m) ∧
    (∀ d ls, l.op = .vreg d ls → (ls.map (·.1)).Nodup → (∀ x ∈ ls, x.1 < 64) →
      (∀ x ∈ ls, u.lane d x.1 = x.2) ∧ (∀ r i, i < 64 → (r ≠ d ∨ i ∉ ls.map (·.1)) → u.lane r i = m.lane r i) ∧
      { u with v := m.v, pend := m.pend } = m) ∧
    (∀ rows, l.op = .dly rows → (rows.map (·.1)).Nodup →
      (∀ r ∈ rows, ∀ j, j < 64 → Sp.get 255 u.dly (64 * r.1 + j) = r.2.getD j 255) ∧
      (∀ k, k / 64 ∉ rows.map (·.1) → Sp.get 255 u.dly k = Sp.get 255 m.dly k) ∧ { u with dly := m.dly, pend := m.pend } = m) ∧
    (∀ stk depth, l.op = .mask stk depth → u = { m with mstk := stk, mdepth := depth, pend := m.pend.erase l }) ∧
    (∀ v, l.op = .tmode v → u = { m with tmode := v, pend := m.pend.erase l }) ∧
    (∀ n, l.op = .twin n → u = { m with twin := n, pend := m.pend.erase l }) ∧
    (∀ n v, l.op = .param n v →
      (n < 16 → (∀ k, Sp.get 0 u.ms k = if k = n then v else Sp.get 0 m.ms k) ∧ { u with ms := m.ms, pend := m.pend } = m) ∧
      (16 ≤ n → n < 32 → (∀ k, Sp.get 0 u.vs k = if k = n - 16 then v.setWidth 32 else Sp.get 0 m.vs k) ∧
        (∀ i, i < 64 → u.lfsrAt i = if n = 31 then seedLane (v.setWidth 32) i else m.lfsrAt i) ∧
        { u with vs := m.vs, lfsr := m.lfsr, pend := m.pend } = m) ∧
      (32 ≤ n → n < 36 → (∀ k, Sp.get 0 u.ts k = if k = n - 32 then v.setWidth 32 else Sp.get 0 m.ts k) ∧
        { u with ts := m.ts, pend := m.pend } = m) ∧
      (n = 36 → u = { m with twin := v.toNat % 256, pend := m.pend.erase l })) ∧
    (∀ n v, l.op = .flag n v → (∀ k, Sp.get 0 u.flag k = if k = n then v else Sp.get 0 m.flag k) ∧
      (s.core.owes = {} → ∀ k, Sp.get 0 u.ev k =
        if k = 7 ∧ Sp.get 0 m.ev 7 ≠ 0xFFFF then Sp.get 0 m.ev 7 + 1 else Sp.get 0 m.ev k) ∧
      { u with flag := m.flag, ev := m.ev, pend := m.pend } = m) ∧
    (l.op = .latches → (∀ j, Sp.get 255 u.tin j = 255 ∧ Sp.get 255 u.tout j = 255) ∧
      { u with tin := m.tin, tout := m.tout, pend := m.pend } = m)

/-! ## Copy strings and the ends of waits (R87, R100, R113, R312 to R323, R332, R417, R418) -/

/-- R312, R313: `cptail` of a multiple of 64 enters the store queue, of another handle raises ALIGN; `cpseq` reads HALTED, the status and the
count.
R314, R318 to R322: the copy engine takes the entry of `copy`, `copys`, `fill`, `bcast`, `cksum`, `signal`, `waitseq`, `tokret`, `link` and
`mirwait` at HEAD when its checks pass: it joins the taken entries and HEAD moves on by 64, or to AUX for `link`; SEQ and memory do not
change. A check that fails halts the string with its status and nothing is taken. An entry whose HANDLE is cancelled halts it with status
6. An entry with TOK also lends the span it names to the string, which the core has to hold EXCL with no share out, or halts with status 4;
while stores to the span stand in the store queue it is not taken. A misaligned AUX or DST, or a count outside 1 to 64, is status 2.
That an entry a kill marker retires is taken as a no-op, which joins the taken entries, that a held cancel comes before that and before checks 4
and 5, and that a lend waits for the stores issued before it, is the model's choice (log 40). -/
def Obligations.StringWordsAndEntriesTaken : Prop :=
  (∀ (sy : BitVec 1) (dep : BitVec 4) (d a : BitVec 5) (s : State), s.Issues dep [gR a] [gR d] → s.core.replay = none →
     let u := s.takeDeps dep
     let v : Word := (if s.core.str.halt then 0x8000000000000000 else 0) + s.core.str.stat.setWidth 64 <<< 56 +
       (s.core.str.seq.extractLsb' 0 56).setWidth 64
     ((s.g a).extractLsb' 0 6 = 0 → s.core.sq.length < 32 → Passes (u.enqueue .store (.cptail (s.g a))) (exec (.cptail sy dep a) s) sy none) ∧
     ((s.g a).extractLsb' 0 6 ≠ 0 → exec (.cptail sy dep a) s = .next (s.wordTrap 0x07 (s.g a))) ∧
     WritesG (u.recordResult d.toNat (some v)) (exec (.cpseq sy dep d) s) sy d v 2 none) ∧
  (∀ (c : Command) (e : CopyEntry) (s : State), let q := s.core.str
     (q.hset = true → q.avail = true → q.halt = false → s.fencedString = false → s.core.stringStands = false → s.core.outstanding < Config.outstanding →
       (q.cancel.all (fun x => decide (x.1 ≠ q.head)) = true → q.retired = false → (s.takeCheck c e).1 = 0 → tokOf e = false → ∃ t x, exec (c.instr e) s = .next t ∧
         t.core.str.taken = q.taken ++ [x] ∧ x.cmd = c.instr e ∧ x.h = q.head ∧ x.no = q.takes + 1 ∧ x.done = false ∧ x.killed = false ∧ s.warm < x.due ∧
         t.core.str.head = (if c = .link then e.aux else q.head + 64) ∧ t.core.str.tail = q.tail ∧
         t.core.str.avail = decide (q.head ≠ q.tail) ∧ t.core.str.seq = q.seq ∧ t.core.str.halt = false ∧
         { t with cores := s.cores, drawn := s.drawn } = s ∧ (∀ k, k ≠ s.cur → t.coreAt k = s.coreAt k) ∧
         { t.core with str := q, sends := s.core.sends, inj := s.core.inj } = s.core) ∧
       (q.cancel.all (fun x => decide (x.1 ≠ q.head)) = true → q.retired = true → ∃ t x, exec (c.instr e) s = .next t ∧
         t.core.str.taken = q.taken ++ [x] ∧ x.h = q.head ∧ x.killed = true ∧ t.core.str.seq = q.seq ∧ t.mem = s.mem) ∧
       (q.cancel.all (fun x => decide (x.1 ≠ q.head)) = true → q.retired = false → (s.takeCheck c e).1 ≠ 0 →
         ((s.takeCheck c e).1 = 9 → ∀ k, (s.pkgAt k).memprot = 0) → q.taken = [] → ∃ t, exec (c.instr e) s = .next t ∧
         t.core.str.halt = true ∧ t.core.str.stat = BitVec.ofNat 7 (s.takeCheck c e).1 ∧ t.core.str.hset = false ∧ t.core.str.taken = [] ∧
         t.core.str.seq = q.seq ∧ t.mem = s.mem) ∧
       (q.cancel.any (fun x => decide (x.1 = q.head)) = true → q.taken = [] → ∃ t, exec (c.instr e) s = .next t ∧
         t.core.str.halt = true ∧ t.core.str.stat = 6 ∧ t.core.str.taken = [] ∧ t.mem = s.mem) ∧
       (q.cancel.all (fun x => decide (x.1 ≠ q.head)) = true → q.retired = false → (s.takeCheck c e).1 = 0 → tokOf e = true → c ≠ .bcast → c ≠ .link →
         let h := if c = .cksum then e.src else e.dst
         (s.storesStand [h] = true → exec (c.instr e) s = .next s) ∧
         (s.storesStand [h] = false → ∀ r key, s.locate s.partNo h 1 = some (r, key) →
           let x := s.part.headOf (unitOf r h)
           (s.exclusive x.2 = true → x.2.shares = 0 → s.sendLeaves false x.1 = none → (∀ l ∈ s.core.l1d, l.mask = 0) →
             ∃ t y, exec (c.instr e) s = .next t ∧ t.core.str.taken = q.taken ++ [y] ∧ y.cmd = c.instr e ∧ y.h = q.head ∧ y.no = q.takes + 1 ∧
               t.core.str.seq = q.seq ∧ t.core.str.head = q.head + 64 ∧ t.mem = s.mem ∧
               t.part.token x.1 = { x.2 with mode := .engine } ∧ ∀ i, i ≠ x.1 → t.part.token i = s.part.token i) ∧
           (s.engineHolds x.2 = true → ∃ t y, exec (c.instr e) s = .next t ∧ t.core.str.taken = q.taken ++ [y] ∧ y.cmd = c.instr e ∧
             t.parts = s.parts ∧ t.mem = s.mem) ∧
           (s.engineHolds x.2 = false → s.exclusive x.2 = false ∨ x.2.shares ≠ 0 ∨ (s.sendLeaves false x.1).isSome = true → q.taken = [] →
             ∃ t, exec (c.instr e) s = .next t ∧ t.core.str.halt = true ∧ t.core.str.stat = 4 ∧ t.core.str.taken = [] ∧ t.mem = s.mem)))) ∧
     (q.hset = false ∨ q.avail = false ∨ q.halt = true → exec (c.instr e) s = .next s) ∧
     (c = .waitseq ∨ c = .tokret ∨ c = .mirwait ∨ c = .link ∧ e.aux.toNat % 64 = 0 → (s.takeCheck c e).1 = 0) ∧
     (c = .copys ∧ e.aux.toNat % 8 ≠ 0 ∨ c = .signal ∧ e.dst.toNat % 8 ≠ 0 ∨ c = .link ∧ e.aux.toNat % 64 ≠ 0 ∨
       c = .bcast ∧ (e.aux.toNat % 8 ≠ 0 ∨ e.arg = 0 ∨ 64 < e.arg.toNat) → (s.takeCheck c e).1 = 2))

/-- R317 to R319, R321, R322: a taken entry that is due completes: `copy`, `copys` and `bcast` have moved their bytes, `fill` repeated AUX,
`signal` written AUX, `cksum` carries its Fletcher-32 on and, where CHECK asks and it differs, halts the string with status 5; `waitseq`
waits for its peer's SEQ, and one that names no core halts with status 8; `tokret` gives the span back as EXCL and pulses e6, and halts with 7 for another
span; `mirwait` waits for the mirror writes of earlier entries; `link` and a retired entry only complete. SEQ rises by one and event 5
pulses. Bytes outside the destination are as before. An uncorrectable source line halts with status 9 and writes nothing; a destination on
a failed package halts with 9 and leaves each byte elsewhere old or new. An entry that has begun writes what is not yet in place.
R319: the offsets of a dim table run with the first index fastest.
R100: Fletcher-32 of no byte is the seed taken modulo 65535 in each half, an odd last byte is followed by a zero byte, and the sums go
on from one range to the next of even length.
That an entry reads and writes its bytes in the one step of its completion is the model's reading (log 15). -/
def Obligations.EntriesCompleteAtTheirHomes : Prop :=
  (∀ (e : CopyEntry) (x : Taken) (ks kd : Nat) (s : State), s.core.str.taken = [x] → x.done = false → x.due ≤ s.warm →
     x.flip = none → x.killed = false → s.core.str.halt = false → s.core.str.carryNo < x.no → (∀ k, mirrorIn k s.part.regions = none) →
     let source := regionIdx e.src ≠ 0xFFF ∧ (∃ r, s.locate s.partNo e.src e.len.toNat = some (r, ks)) ∧ ∀ i, i < e.len.toNat → s.badAt (ks + i) 1 = false
     let dest := fun n => regionIdx e.dst ≠ 0xFFF ∧ (∃ r, s.locate s.partNo e.dst n = some (r, kd)) ∧ ∀ i, i < n → (s.pkgAt (keyPkg (kd + i))).failed = false
     let counted := fun (t : State) => t.core.str.taken = [] ∧ t.core.str.seq = s.core.str.seq + 1 ∧ t.core.str.halt = false ∧
       Sp.get 0 t.core.cold.ev 5 = (let v := Sp.get 0 s.core.cold.ev 5; if v = 0xFFFF then v else v + 1)
     let before : BitVec 32 := if x.base < s.core.str.sumNo ∧ s.core.str.sumNo < x.no then s.core.str.sum else 0
     let result := fletcher (if chainOf e then before else e.seed) ((List.range e.len.toNat).map fun i => s.byte (ks + i))
     let apart := e.src.toNat + e.len.toNat ≤ e.dst.toNat ∨ e.dst.toNat + e.len.toNat ≤ e.src.toNat
     (∀ ws staged, x.begun = some (ws, staged) → x.cmd = .copy e ∨ x.cmd = .fill e ∨ x.cmd = .signal e → checkOf e = false → (ws.map (·.1)).Nodup →
       (∀ w ∈ ws, (s.pkgAt (keyPkg w.1)).failed = false) → ∃ t, exec .entryComplete s = .next t ∧ counted t ∧
       (∀ w ∈ ws, w.1 / 8 ∉ x.put → t.byte w.1 = w.2) ∧ ∀ a, a ∉ ws.map (·.1) ∨ a / 8 ∈ x.put → t.byte a = s.byte a) ∧
     (x.begun = none → x.put = [] →
     (x.cmd = .copy e → (∀ k, (s.pkgAt k).memprot = 0) → regionIdx e.src ≠ 0xFFF → (∃ r, s.locate s.partNo e.src e.len.toNat = some (r, ks)) →
       (∃ i, i < e.len.toNat ∧ s.badAt (ks + i) 1 = true) →
       ∃ t, exec .entryComplete s = .next t ∧ t.core.str.halt = true ∧ t.core.str.stat = 9 ∧ t.core.str.seq = s.core.str.seq ∧ t.mem = s.mem) ∧
     (x.cmd = .copy e → source → apart → regionIdx e.dst ≠ 0xFFF → (∃ r, s.locate s.partNo e.dst e.len.toNat = some (r, kd)) →
       (∃ i, i < e.len.toNat ∧ (s.pkgAt (keyPkg (kd + i))).failed = true) →
       ∃ t, exec .entryComplete s = .next t ∧ t.core.str.halt = true ∧ t.core.str.stat = 9 ∧ t.core.str.seq = s.core.str.seq ∧
         (∀ i, i < e.len.toNat → t.byte (kd + i) = s.byte (kd + i) ∨ t.byte (kd + i) = s.byte (ks + i)) ∧
         ∀ a, a < kd ∨ kd + e.len.toNat ≤ a → t.byte a = s.byte a) ∧
     (∀ (c : Command), let src := sourceBytes c e x.dims
       let dst := destBytes c e x.dims x.dests
       let key := s.warmKey s.partNo
       c = .copys ∨ c = .bcast → x.cmd = c.instr e → (∀ a ∈ src, s.badAt (key a) 1 = false) → (∀ a ∈ dst, a ∉ src ∧ (s.pkgAt (keyPkg (key a))).failed = false) →
       (∀ a ∈ dst, key a < areaBase) → (∀ a ∈ src, key a < areaBase) → (dst.map key).Nodup →
       checkOf e = false ∨ fletcher (if chainOf e then before else e.seed) (src.map fun a => s.byte (key a)) = e.expect →
       ∃ t, exec .entryComplete s = .next t ∧ counted t ∧
         (c = .copys → ∀ i, i < dst.length → t.byte (key (dst.getD i 0)) = s.byte (key (src.getD i 0))) ∧
         (c = .bcast → ∀ d ∈ x.dests, ∀ i : Nat, i < e.len.toNat → t.byte (key ((d.toNat : Int) + i)) = s.byte (key ((e.src.toNat : Int) + i))) ∧
         ∀ a, a ∉ dst.map key → t.byte a = s.byte a) ∧
     (x.cmd = .copy e → source → dest e.len.toNat → checkOf e = false ∨ result = e.expect → apart →
       ∃ t, exec .entryComplete s = .next t ∧ counted t ∧ t.core.str.carry = result ∧ (∀ i, i < e.len.toNat → t.byte (kd + i) = s.byte (ks + i)) ∧
         ∀ a, a < kd ∨ kd + e.len.toNat ≤ a → t.byte a = s.byte a) ∧
     (x.cmd = .fill e → dest e.len.toNat → ∃ t, exec .entryComplete s = .next t ∧ counted t ∧
       (∀ i, i < e.len.toNat → t.byte (kd + i) = e.aux.extractLsb' (8 * (i % 8)) 8) ∧ ∀ a, a < kd ∨ kd + e.len.toNat ≤ a → t.byte a = s.byte a) ∧
     (x.cmd = .signal e → dest 8 → ∃ t, exec .entryComplete s = .next t ∧ counted t ∧ (∀ i, i < 8 → t.byte (kd + i) = e.aux.extractLsb' (8 * i) 8) ∧
       ∀ a, a < kd ∨ kd + 8 ≤ a → t.byte a = s.byte a) ∧
     (x.cmd = .cksum e → source → checkOf e = false ∨ result = e.expect → ∃ t, exec .entryComplete s = .next t ∧ counted t ∧
       t.core.str.carry = result ∧ t.mem = s.mem) ∧
     (x.cmd = .cksum e → source → checkOf e = true → result ≠ e.expect → ∃ t, exec .entryComplete s = .next t ∧ t.core.str.halt = true ∧
       t.core.str.stat = 5 ∧ t.core.str.seq = s.core.str.seq ∧ t.mem = s.mem))) ∧
  (∀ (e : CopyEntry) (x : Taken) (s : State), s.core.str.taken = [x] → x.done = false → x.due ≤ s.warm → s.core.str.halt = false →
     let counts := ∃ t, exec .entryComplete s = .next t ∧ t.core.str.taken = [] ∧ t.core.str.seq = s.core.str.seq + 1 ∧ t.core.str.halt = false ∧
       t.mem = s.mem ∧ Sp.get 0 t.core.cold.ev 5 = (let v := Sp.get 0 s.core.cold.ev 5; if v = 0xFFFF then v else v + 1)
     let halts := fun (n : BitVec 7) => ∃ t, exec .entryComplete s = .next t ∧ t.core.str.halt = true ∧ t.core.str.stat = n ∧
       t.core.str.seq = s.core.str.seq ∧ t.mem = s.mem
     (entryOf x.cmd ≠ none → x.killed = true → counts) ∧
     (x.killed = false →
      (x.cmd = .link e → counts) ∧
      (x.cmd = .mirwait e → ((∀ m ∈ s.core.mirror, ∀ n, m.entry = some n → x.no ≤ n) → counts) ∧
        ((∃ m ∈ s.core.mirror, ∃ n, m.entry = some n ∧ n < x.no) → exec .entryComplete s = .next s)) ∧
      (x.cmd = .waitseq e → ((e.arg.extractLsb' 0 22 ≠ 0 ∨ s.peer e.arg = none) → halts 8) ∧
        ∀ k i, e.arg.extractLsb' 0 22 = 0 → s.peer e.arg = some (k, i) → (s.pkgAt (k / 256)).failed = false →
          (e.aux.toNat % 2 ^ 56 ≤ s.seqOf k i % 2 ^ 56 → counts) ∧ (s.seqOf k i % 2 ^ 56 < e.aux.toNat % 2 ^ 56 → exec .entryComplete s = .next s)) ∧
      (x.cmd = .tokret e → let tk := s.part.token e.aux.toNat
        (tk.isHead = false ∨ s.engineHolds tk = false → halts 7) ∧
        (tk.isHead = true → s.engineHolds tk = true → counts ∧ ∃ t, exec .entryComplete s = .next t ∧
          t.part.token e.aux.toNat = { tk with mode := .excl } ∧ (∀ i, i ≠ e.aux.toNat → t.part.token i = s.part.token i) ∧
          Sp.get 0 t.core.cold.ev 6 = (let v := Sp.get 0 s.core.cold.ev 6; if v = 0xFFFF then v else v + 1))))) ∧
  (∀ (n m : Nat) (f t : Int) (i j : Nat), i < n → j < m →
     (dimOffsets [(n, 0, 0), (m, f, t)] true).length = n * m ∧
     (dimOffsets [(n, 0, 0), (m, f, t)] true).getD (j * n + i) (0, 0) = (i + j * f, i + j * t)) ∧
  (∀ (seed : BitVec 32) (a b : List Byte) (x : Byte),
     (a.length % 2 = 0 → fletcher seed (a ++ b) = fletcher (fletcher seed a) b) ∧
     (a.length % 2 = 0 → fletcher seed (a ++ [x]) = fletcher seed (a ++ [x, 0])) ∧
     fletcher seed [] = BitVec.ofNat 32 (seed.toNat / 65536 % 65535 * 65536 + seed.toNat % 65536 % 65535))

/-- R113, R132, R155, R332, R400, R417, R418, R87: what ends a wait. A mirror write is acknowledged, or after 3,000 warm cycles no longer awaited:
with ERR on path 3 where it is no string entry's, with ERR on path 4 where a `mirwait` waits for it, and the management cores notified;
a walk's region enters the core's TLB, or the copy engine's cache; a word that has waited STALLIM warm cycles traps with DEPTO, an
overlong iteration of a preemptible loop, and a cluster that has not stopped STALLIM warm cycles after a request, with PLEN; a core
that halts takes neither.
That a 33rd region replaces the oldest is the model's choice (log 11); which path reports ERR is its reading (log 32). -/
def Obligations.WaitsEnd : Prop :=
  ∀ (s : State) (l : Lane),
    (∀ m rest, s.core.mirror = m :: rest → (s.pkgAt m.pkg).failed = false →
      exec .mirrorAck s = .next (s.modCore fun c => { c with mirror := rest })) ∧
    ((∀ m ∈ s.core.mirror, m.warm + 3000 > s.warm) → exec .mirrorTimeout s = .next s) ∧
    (s.core.mirror ≠ [] → (∀ m ∈ s.core.mirror, m.warm + 3000 ≤ s.warm) → ∃ t, exec .mirrorTimeout s = .next t ∧ t.core.mirror = [] ∧ t.mem = s.mem ∧
      ((∃ m ∈ s.core.mirror, m.entry = none) → (Sp.get {} t.core.paths 3).err = true) ∧
      ((∃ x ∈ s.core.str.taken, x.done = false ∧ (∃ e, x.cmd = .mirwait e) ∧ ∃ m ∈ s.core.mirror, ∃ n, m.entry = some n ∧ n < x.no) →
        (Sp.get {} t.core.paths 4).err = true) ∧
      (t.pkgAt (s.cur / 256)).notices = (s.pkgAt (s.cur / 256)).notices ++ [.mirror (BitVec.ofNat 8 s.cur)]) ∧
    (∀ n t, (s.dieAt (s.cur / 64)).walks = [(s.cur, n, t)] → t ≤ s.clock → s.part.shoots = [] → ∃ u, exec .tlbWalkReturn s = .next u ∧
      (u.dieAt (s.cur / 64)).walks = [] ∧ u.core.tlb = (n :: s.core.tlb.filter fun i => !decide (i = n)).take 32 ∧ u.mem = s.mem ∧
      ∀ k, k ≠ s.cur → u.coreAt k = s.coreAt k) ∧
    (∀ p i t, i < 4096 → engineKey s.cur ≠ s.cur → (s.dieAt (s.cur / 64)).walks = [(engineKey s.cur, 4096 * p + i, t)] → t ≤ s.clock →
      (s.partAt p).shoots = [] → ∃ u, exec .tlbWalkReturn s = .next u ∧ (u.dieAt (s.cur / 64)).walks = [] ∧
        (4096 * p + i) ∈ Sp.get [] (u.dieAt (s.cur / 64)).ctlb (s.cur / 4) ∧ u.mem = s.mem ∧ ∀ k, u.coreAt k = s.coreAt k) ∧
    (let x := s.core.cluster l
     (s.core.halting = true → exec (.depto l) s = .next s ∧ exec (.plen l) s = .next s) ∧
     (s.core.halting = false → (∀ t, x.since = some t → x.wait.sleeps = false → x.stopped = false →
       (t + s.core.stallim.toNat ≤ s.warm → exec (.depto l) s =
         .next (({ s with lane := l }.modCore fun c => c.dropWaited x.wait l).wordTrap 0x14 (x.pc + BitVec.ofNat 64 (4 * laneIdx l)))) ∧
       (s.warm < t + s.core.stallim.toNat → exec (.depto l) s = .next s)) ∧
     (∀ e k n, x.loops = [e] → e.pre = true → s.part.kernelOf s.core.slot.code = some k →
       (k.preempt.find? fun y => decide (y.1 = e.id + BitVec.ofNat 64 (4 * laneIdx l))) = some (e.id + BitVec.ofNat 64 (4 * laneIdx l), n) →
       e.began + n < s.warm → exec (.plen l) s = .next ({ s.modCore (fun c => { c with preempt := c.preempt.map fun _ => s.warm }) with lane := l }.wordTrap 0x12 (x.pc + BitVec.ofNat 64 (4 * laneIdx l)))) ∧
     (∀ r, s.core.preempt = some r → s.core.stopping = true → s.core.drained = false → s.core.atStop = false → x.stopped = false →
       r + s.core.stallim.toNat ≤ s.warm → exec (.plen l) s =
         .next ({ s.modCore (fun c => { c with preempt := some s.warm }) with lane := l }.wordTrap 0x12 (x.pc + BitVec.ofNat 64 (4 * laneIdx l)))) ∧
     (x.loops = [] → s.core.preempt = none → exec (.plen l) s = .next s)))

/-! ## Tasks, launches, messages (R361 to R381, R399 to R401, R426, R446, R455, R456, R464) -/

/-- R399, R400, R401: a request for pre-emption stands from the cycle it is posted in and wakes a `wfi`; at the stop point of a drained core
both L1 caches are dropped; the context is then saved into its slot whole and the core is free, a gang's together (R371). Resumed, every register, predicate and
coordinate register of every cluster, the shape registers and the system registers of the task stand as they were, all clusters JOINED
at RSTLBL with empty loop nests; a label the restart table does not name ends the task. R33, R430: a budget written in the heat window of the
save is in force from the next one. R418: mirror writes not yet acknowledged are awaited on.
What comes back beside R401's layout, and that the save and the restore are single steps, is the model's choice (logs 17 and 18). -/
def Obligations.ContextsComeBackAsSaved : Prop :=
  (∀ (r : Bool) (s : State), s.core.run ≠ none → s.isGang s.core.slot = false → ∃ t, exec (.preemptionRequest r) s = .next t ∧
    t.core.preempt = some (s.core.preempt.getD s.warm) ∧ t.core.rotReq = (s.core.rotReq || r) ∧ t.apart = s.apart ∧
    (∀ k, k ≠ s.cur → t.coreAt k = s.coreAt k) ∧
    (s.core.preempt = none → t.core.late = (s.core.inHandler || s.core.replay.isSome)) ∧
    ∀ l, (∀ w, (s.core.cluster l).wait = .asleep w → t.core.cluster l = { s.core.cluster l with wait := .awake w }) ∧
      ((∀ w, (s.core.cluster l).wait ≠ .asleep w) → t.core.cluster l = s.core.cluster l)) ∧
  (∀ (s : State), (s.core.stopReached = false → exec .stopPoint s = .next s) ∧
    (s.core.stopReached = true → (s.modCore fun c => { c with win := none }).core.drained_ = true → ∃ t, exec .stopPoint s = .next t ∧
      t.core.drained = true ∧ t.core.l1d = [] ∧ t.core.l1i = [] ∧ t.core.win = none ∧ ((∀ l ∈ s.core.l1d, l.mask = 0) → t.mem = s.mem))) ∧
  (∀ (s : State), s.core.run ≠ none → s.isGang s.core.slot = true →
    (∃ x ∈ s.slotsOf s.core.slot.part s.core.slot.launch, (s.coreAt x.1).run = some x.2.1 ∧ (s.coreAt x.1).drained = false) →
    exec .contextSave s = .next s) ∧
  (∀ (i : BitVec 1) (s : State), s.core.run = some i → s.core.drained = true → s.isGang s.core.slot = false → (s.core.slotAt i).badCrc = none →
    ∃ t, exec .contextSave s = .next t ∧ t.core.run = none ∧
    (t.core.slotAt i).state = .saved ∧ t.core.slotAt (i + 1) = s.core.slotAt (i + 1) ∧ t.mem = s.mem ∧ t.core.cold = {} ∧
    (∀ k, k ≠ s.cur → t.coreAt k = s.coreAt k) ∧
    ∀ w n, let c := t.core.loadContext i w n
      c.mirror = s.core.mirror ∧ (s.core.heatBud < 2 ^ 64 →
        (s.core.heatNext = none → c.heatBud = s.core.heatBud ∧ c.heatNext = none) ∧
        ∀ v, s.core.heatNext = some v → (n = s.windowOf s.cur → c.heatBud = s.core.heatBud ∧ c.heatNext = some v) ∧
          (s.windowOf s.cur < n → c.heatBud = v ∧ c.heatNext = none)) ∧
      c.run = some i ∧ (c.slotAt i).state = .running ∧ c.mcmask = s.core.mcmask ∧ c.rstlbl = s.core.rstlbl ∧ c.rstidx = s.core.rstidx ∧
      c.stallCnt = s.core.stallCnt ∧ c.tscratch = s.core.tscratch ∧ c.inj = s.core.inj ∧ c.tvec = s.core.tvec ∧ c.chksb = s.core.chksb ∧
      c.stallim = s.core.stallim ∧ c.str.head = s.core.str.head ∧ c.str.tail = s.core.str.tail ∧ c.str.seq = s.core.str.seq ∧
      c.cold = freshCold s.core.slot.coreId.toNat ∧ (s.core.oeq.length ≤ 64 → c.oeq = s.core.oeq) ∧
      (∀ j, j < 16 → Sp.get 0 c.shp j = Sp.get 0 s.core.shp j) ∧
      ∀ l, (c.cluster l).pc = s.core.rstlbl ∧ (c.cluster l).split = false ∧ (c.cluster l).loops = [] ∧
        (∀ n, n < 32 → (c.cluster l).rg n = (s.core.cluster l).rg n) ∧ (∀ n, n < 4 → (c.cluster l).rp n = (s.core.cluster l).rp n) ∧
        ∀ n, n < 7 → (c.cluster l).rc n = (s.core.cluster l).rc n) ∧
  ∀ (i : BitVec 1) (s : State), s.core.resumable = some i → s.closed s.cur = false → s.core.swapAt ≤ s.clock →
    s.isGang (s.core.slotAt i) = false → (s.core.slotAt i).badCrc = none →
    let u := (s.modCore fun c => c.loadContext i s.warm (s.windowOf s.cur)).settleMirror s.cur
    (u.restartOk = true → exec .contextRestore s = .next u) ∧
    (u.restartOk = false → ∃ t, exec .contextRestore s = .next t ∧ t.core.run = none ∧ (t.core.slotAt i).state = .ended)

/-- R455 to R458, R426, R430, R431: a rotation asks every running core of each ring of two or more quads to stop, and, once none of a ring runs,
moves the contexts of each of its quads to the next, the last quad's to the first, keeping their place in the quad; above 4.8 K none
begins and none moves. A heat window begins with HEATACC 0 and the budgets that were written, on every core of the package; where
those of its running tasks with 4,096 HU for every other core exceed the package budget less the excess, they are cut so that
they do not.
That of rings that share quads the first alone rotates is the model's choice (log 19), and so is the equal division of the budget (log 39). -/
def Obligations.RotationsAndHeatWindows : Prop :=
  (∀ (pkg : BitVec 10) (die : BitVec 2) (p : Nat) (s : State), pkg.toNat < Config.packages →
    let d := pkg.toNat * 4 + die.toNat
    let ks := ringCores d (s.ring p d)
    ((s.pkgAt pkg.toNat).hot = true → exec (.rotation pkg die) s = .next s ∧ exec (.rotationRebind pkg die) s = .next s) ∧
    ((s.dieAt d).rotating = [] → exec (.rotationRebind pkg die) s = .next s) ∧
    (∀ q, (s.pkgAt pkg.toNat).hot = false → (s.dieAt d).rotating = [] → s.partsOn d = [p, q] → p ≠ q → 2 ≤ (s.ring p d).length → 2 ≤ (s.ring q d).length →
      ∃ t, exec (.rotation pkg die) s = .next t ∧ t.mem = s.mem ∧
        ((∃ x ∈ s.ring p d, x ∈ s.ring q d) → (t.dieAt d).rotating = [p]) ∧ ((∀ x ∈ s.ring p d, x ∉ s.ring q d) → (t.dieAt d).rotating = [p, q])) ∧
    (s.partsOn d = [p] → 2 ≤ (s.ring p d).length →
      ((s.pkgAt pkg.toNat).hot = false → ∃ t, exec (.rotation pkg die) s = .next t ∧ p ∈ (t.dieAt d).rotating ∧ t.mem = s.mem ∧
        ∀ k ∈ ks, (s.coreAt k).run ≠ none → (t.coreAt k).preempt ≠ none ∧ (t.coreAt k).rotReq = true) ∧
      ((s.dieAt d).rotating = [p] → (∃ k ∈ ks, (s.coreAt k).run ≠ none) → exec (.rotationRebind pkg die) s = .next s) ∧
      ((s.pkgAt pkg.toNat).hot = false → (s.dieAt d).rotating = [p] → (∀ k ∈ ks, (s.coreAt k).run = none) →
        ∃ t, exec (.rotationRebind pkg die) s = .next t ∧ (t.dieAt d).rotating = [] ∧ t.mem = s.mem ∧ (∀ k, k ∉ ks → t.coreAt k = s.coreAt k) ∧
        ∀ i, i < ks.length → (t.coreAt (ks.getD i 0)).slot0 = (s.coreAt (ks.getD ((i + ks.length - 4) % ks.length) 0)).slot0 ∧
          (t.coreAt (ks.getD i 0)).slot1 = (s.coreAt (ks.getD ((i + ks.length - 4) % ks.length) 0)).slot1)) ∧
    (s.partsOn d = [] → (s.dieAt d).rotating = [] → ∃ t, exec (.rotation pkg die) s = .next t ∧ (t.dieAt d).rotating = [] ∧ t.cores = s.cores ∧ t.mem = s.mem)) ∧
  ∀ (s : State), let p := s.cur / 256
    let budget := 12288000000 * (s.pkgAt p).lift / 24000
    let excess := (s.pkgAt p).excess + (s.pkgAt p).posted + 4096 * (s.pkgAt p).coreCount - budget
    let running := fun (t : State) => t.cores.filter fun x => decide (x.1 / 256 = p) && x.2.run.isSome
    let asked := fun k => (s.coreAt k).heatNext.getD (s.coreAt k).heatSet
    let room := budget - excess - 4096 * ((s.pkgAt p).coreCount - (running s).length)
    ∃ t, exec .heatWindow s = .next t ∧ t.mem = s.mem ∧ (t.pkgAt p).posted = 0 ∧ (t.pkgAt p).excess = excess ∧
      ((running t).map (·.2.heatBud)).sum ≤ room ∧
      ∀ k, (k / 256 = p → { t.coreAt k with heatBud := (s.coreAt k).heatBud } =
          { s.coreAt k with heatAcc := 0, heatSet := asked k, heatNext := none } ∧ (t.coreAt k).heatBud ≤ asked k ∧
          ((s.coreAt k).run = none ∨ ((running s).map fun x => x.2.heatNext.getD x.2.heatSet).sum ≤ room → (t.coreAt k).heatBud = asked k)) ∧
        (k / 256 ≠ p → t.coreAt k = s.coreAt k)

/-- R361, R363 to R367, R369, R371: a queue whose header's CRC fails is stopped; else ADMISSION takes the record at HEAD, HEAD + 1, unless a
record of a higher PRIO heads another queue of the package, and submits it: a
record that fails a check is completed with the first failing code, a definition becomes a node of its graph, any other becomes a launch
that is bound as soon as its cores are free, each record's first fetch up to 1,024 warm cycles later. A waiting launch is tested again, and
the spans of its grant list, read at admission, move to its tasks. GRAPH_REPLAY takes replay records, and the completion record is 32
bytes with its CRC-32 last. R365: the codes 1 to 12 in their order. R366: the shares of the dies, trimmed from the highest die down, their lowest
free cores or quads, and the rest of a last quad reserved. R367: CORE_ID counts the granted cores, QUAD_ID and DIE_ID their distinct quads
and dies.
What graph records are checked for is the model's choice (log 20). -/
def Obligations.LaunchRecordsAreAdmitted : Prop :=
  (∀ (part queue : Nat) (q : LaunchQueue) (s : State), (s.partAt part).queue? queue = some q →
    (q.stopped = true → exec (.admission part queue) s = .next s ∧ exec (.graphReplay part queue) s = .next s) ∧
    (q.stopped = false → s.headerOk part q.h = false → ∃ t, exec (.admission part queue) s = .next t ∧ exec (.graphReplay part queue) s = .next t ∧
      (t.partAt part).queue? queue = some { q with stopped := true } ∧ t.mem = s.mem) ∧
    (q.stopped = false → s.headerOk part q.h = true → s.nextRecord part q queue = none →
      exec (.admission part queue) s = .next s ∧ exec (.graphReplay part queue) s = .next s) ∧
    ∀ r head, q.stopped = false → s.headerOk part q.h = true → s.nextRecord part q queue = some (r, head) →
      let u := s.writeAt part (q.h + 8) (leBytes 8 (head + 1))
      ((∃ y ∈ (s.partAt part).queues, y.2.pkg = q.pkg ∧ y.2.stopped = false ∧ s.headerOk part y.2.h = true ∧
        ∃ r' h', s.nextRecord part y.2 y.1 = some (r', h') ∧ recField r 0x1E 1 % 16 < recField r' 0x1E 1 % 16) →
        exec (.admission part queue) s = .next s ∧ exec (.graphReplay part queue) s = .next s) ∧
      (s.queueFirst part (s.partAt part).queues (queue, q) = true →
      (s.replayable part q r = false → exec (.admission part queue) s = .next (u.submit part queue q.pkg r 0 none) ∧
        exec (.graphReplay part queue) s = .next s) ∧
      (s.replayable part q r = true → exec (.graphReplay part queue) s = .next (u.startReplayOf part queue q.pkg r 0 none) ∧
        exec (.admission part queue) s = .next s))) ∧
  (∀ (part queue pkg : Nat) (r : BitVec 1024) (s : State), let code := s.rejectCode part pkg r
    (code ≠ 0 → s.submit part queue pkg r 0 none = s.complete part queue (completionBytes (recField r 0x60 4) 1 code 0 0 0)) ∧
    (code = 0 → isReplay r = false → isDef r = true → (∃ n, ((s.submit part queue pkg r 0 none).partAt part).nodes = (s.partAt part).nodes ++ [n] ∧ n.record = r) ∧
      ((s.submit part queue pkg r 0 none).partAt part).launches = (s.partAt part).launches) ∧
    (code = 0 → isReplay r = true → s.submit part queue pkg r 0 none = s.startReplayOf part queue pkg r 0 none) ∧
    (code = 0 → isDef r = false → isReplay r = false → (s.pkgAt pkg).hot = true → (∀ l ∈ (s.partAt part).launches, l.id ≠ (s.partAt part).launchNo) →
      ∃ l, ((s.submit part queue pkg r 0 none).partAt part).launches = (s.partAt part).launches ++ [l] ∧ l.record = r ∧ l.state = .waiting ∧
        s.grantsOk part r = some l.grants ∧ (s.submit part queue pkg r 0 none).cores = s.cores) ∧
    (formatOk r = false → code = 1) ∧ (formatOk r = true → s.handlesOk part r = false → code = 2) ∧
    (formatOk r = true → s.handlesOk part r = true →
      ((recField r 0x18 4 < 4096 ∨ 524288 < recField r 0x18 4 ∨ recField r 0x18 4 % 4096 ≠ 0) → code = 3) ∧
      (4096 ≤ recField r 0x18 4 ∧ recField r 0x18 4 ≤ 524288 ∧ recField r 0x18 4 % 4096 = 0 →
        (recField r 0x1C 1 = 0 ∨ 48 < recField r 0x1C 1) → code = 4) ∧
      (4096 ≤ recField r 0x18 4 ∧ recField r 0x18 4 ≤ 524288 ∧ recField r 0x18 4 % 4096 = 0 → 1 ≤ recField r 0x1C 1 ∧ recField r 0x1C 1 ≤ 48 →
        let f := recField r
        let osq := f 0x20 8
        let image := ∃ k, (s.partAt part).kernelOf (BitVec.ofNat 64 (f 0 8)) = some k ∧ (osq % 2 ^ 13 < k.matSteps ∨
          osq / 2 ^ 13 % 2 ^ 13 < k.vecOrders ∨ osq / 2 ^ 26 % 2 ^ 10 < k.tmpOrders ∨ f 0x28 2 < k.minCores ∨ f 0x2A 2 % max k.multCores 1 ≠ 0)
        let node := (s.partAt part).nodeOf pkg (f 0x3C 4)
        let graph := (∃ n ∈ predsOf r, node n = none) ∨ isDef r = true ∧ node (f 0x40 4) ≠ none ∨
          isReplay r = true ∧ ∀ n ∈ (s.partAt part).nodes, n.pkg = pkg → n.graph.toNat ≠ f 0x3C 4
        let scope := f 0x1F 1 = 4 ∧ f 0x3C 4 = 0 ∨ f 0x38 4 ≠ 0 ∧ f 0x28 2 ≠ f 0x2C 2
        let quota := 4096 < osq % 2 ^ 13 ∨ 4096 < osq / 2 ^ 13 % 2 ^ 13 ∨ 512 < osq / 2 ^ 26 % 2 ^ 10
        let shadow := f 0x1D 1 = 0 ∨ 2 < f 0x1D 1
        let prio := (s.partAt part).prioCeil < f 0x1E 1
        let cores := (s.grant part pkg r fun _ => true).1.length < f 0x28 2
        (quota → code = 5) ∧ (¬quota → shadow → code = 6) ∧ (¬quota → ¬shadow → image → code = 7) ∧
        (¬quota → ¬shadow → ¬image → scope → code = 8) ∧ (¬quota → ¬shadow → ¬image → ¬scope → graph → code = 9) ∧
        (¬quota → ¬shadow → ¬image → ¬scope → ¬graph → prio → code = 10) ∧ (¬quota → ¬shadow → ¬image → ¬scope → ¬graph → ¬prio → cores → code = 11) ∧
        (¬quota → ¬shadow → ¬image → ¬scope → ¬graph → ¬prio → ¬cores → code = if s.grantsOk part r = none then 12 else 0))) ∧
    (∀ gs, s.grantsOk part r = some gs → (gs.map (·.1)).Nodup ∧
      ∀ x ∈ gs, x.2 < recField r 0x28 2 ∧ ((s.partAt part).token x.1).mode = .parked ∧ x.1 ∉ (s.partAt part).listed) ∧
    (recField r 0x64 8 = 0 → s.grantsOk part r = some [])) ∧
  (∀ (part pkg : Nat) (r : BitVec 1024) (free : Nat → Bool) (s : State),
    let b := recField r 0x1F 1
    let u := max (recField r 0x2A 2) 1
    let tmax := recField r 0x2C 2
    let pv := fun (d : Nat) => recField r (0x30 + d) 1
    let ok := fun (c : Nat) => (s.partCores part pkg).getLsbD c && free (pkg * 256 + c)
    let quad := fun (d q : Nat) => (List.range 4).map fun c => 64 * d + 4 * q + c
    let die := fun (d : Nat) => (List.range 64).map (64 * d + ·) |>.filter fun c => (s.pkgAt pkg).enable.getLsbD c
    let g := s.grant part pkg r free
    let dies := List.range 4
    (b ≤ 1 → ∃ (share : Nat → Nat) (e : Nat),
      let pool := fun d => if b = 0 then (die d).filter ok else ((List.range 16).filter fun q => (quad d q).all ok).flatMap (quad d)
      let a := fun d => min (pv d) (pool d).length
      let n := min tmax (dies.map a).sum
      (dies.map share).sum = n - n % u ∧ (∀ d, d < 4 → share d ≤ a d ∧ (d < e → share d = a d) ∧ (e < d → share d = 0)) ∧
      g.1 = (dies.flatMap fun d => (pool d).take (share d)).map (pkg * 256 + ·) ∧
      g.2 = if b = 1 then (dies.flatMap fun d => ((pool d).drop (share d)).take ((4 - share d % 4) % 4)).map (pkg * 256 + ·) else []) ∧
    (2 ≤ b → ∃ e, e ≤ 4 ∧
      let all := fun d => if 0 < pv d ∧ (die d).all ok = true then die d else []
      let upTo := fun n => ((List.range n).flatMap all).length
      upTo e ≤ tmax ∧ upTo e % u = 0 ∧ (∀ n, e < n → n ≤ 4 → tmax < upTo n ∨ upTo n % u ≠ 0) ∧
      g.1 = ((List.range e).flatMap all).map (pkg * 256 + ·) ∧ g.2 = [])) ∧
  (∀ (part : Nat) (l : Launch) (ks : List Nat) (i k : Nat) (s : State), ks.length ≤ 256 → ks[i]? = some k →
    let x := s.bindRecord part l ks i k
    x.coreId.toNat = i ∧ x.ncores.toNat = ks.length ∧ x.taskId = BitVec.ofNat 32 (recField l.record 0x34 4 + i) ∧
    (ks.map (· / 4)).eraseDups[x.quadId.toNat]? = some (k / 4) ∧ (ks.map (· / 64)).eraseDups[x.dieId.toNat]? = some (k / 64)) ∧
  (∀ (part : Nat) (l : Launch) (s : State), (s.partAt part).launches.filter (fun x => decide (x.state = .waiting)) = [l] →
    (s.partAt part).launch l.id = some l →
    let ks := (s.grant part l.pkg l.record (s.freeCore (recField l.record 0x1D 1))).1
    ((s.pkgAt l.pkg).hot = true → exec (.admissionRetest part) s = .next s) ∧
    (ks.length < recField l.record 0x28 2 → exec (.admissionRetest part) s = .next s) ∧
    ((s.pkgAt l.pkg).hot = false → recField l.record 0x28 2 ≤ ks.length → recField l.record 0x1D 1 ≠ 2 →
      ks.Nodup → (∀ k ∈ ks, (s.coreAt k).slot0.state = .empty ∧ (s.coreAt k).run = none) → ∃ t, exec (.admissionRetest part) s = .next t ∧
      t.mem = s.mem ∧ (∀ x ∈ (t.partAt part).launches, x.id = l.id → x.state = .bound) ∧
      (∃ d, d ≤ 16368 ∧ ∀ i, i < ks.length → (t.coreAt (ks.getD i 0)).slot0 = { s.bindRecord part l ks i (ks.getD i 0) with ready := s.clock + d }) ∧
      ((l.grants.map (·.1)).Nodup → ∀ x ∈ l.grants, let y := (s.partAt part).token x.1
        (t.partAt part).token x.1 = if y.mode = .parked then grantToken l.pkg x.2 l.id y else y))) ∧
  (∀ (part : Nat) (s : State), (s.partAt part).launches = [] → exec (.admissionRetest part) s = .next s) ∧
  ∀ (lid status cause ngrant replay node : Nat), let bs := completionBytes lid status cause ngrant replay node
    bs.length = 32 ∧ crcAt (leNat bs) 0 28 28 = true

/-- R37, R38, R369, R401, R411, R431: a bound task whose START has come becomes RUNNING on a core that admits it: all four clusters stand JOINED at
CODE with ARGS in g1, TASK_ID in g2, GCOUNT in g3, the message payload in g4 and every other register 0, the cold state is at reset and the
budget is 48,000,000 HU. A record whose CRC fails then becomes EMPTY, is logged with the CRC found, and its launch has lost it. A core that
runs a task, is not clear, or holds a SAVED task of no lower priority admits none. A node with a stamp whose predecessors have not ended well at
its START ends there.
R362, R369, R370, R375: a launch whose records are all ENDED, none lost unless it was killed, leaves the tables and its slots become EMPTY; a killed launch's task ends; a held
node is released once its predecessors have ended well, and waits before.
The origin of START for a node is that of its replay (log 19), and what a lost record means the model's reading (log 30). -/
def Obligations.TasksStartAndLaunchesComplete : Prop :=
  (∀ (i : BitVec 1) (s : State), let sl := s.core.slotAt i
     let free := s.launchOf sl = none ∨ ∃ l, s.launchOf sl = some l ∧ s.gangSaved sl = false ∧ s.nodeBound sl.part l = true ∧ l.held = false
     (sl.state ≠ .bound ∨ startReached sl s.scnt = false → exec (.taskStart i) s = .next s) ∧
     (s.core.run ≠ none ∨ s.core.failed = true ∨ s.closed s.cur = true ∨ s.clock < s.core.clearAt ∨
       ((s.core.slotAt (i + 1)).state = .saved ∧ (s.core.slotAt (i + 1)).copy = false ∧ sl.prio ≤ (s.core.slotAt (i + 1)).prio) →
       s.admits i = false) ∧
     (s.admits i = false → free → exec (.taskStart i) s = .next s) ∧
     (∀ l, s.launchOf sl = some l → s.gangSaved sl = true ∨ s.nodeBound sl.part l = false ∨ (l.held = true ∧ l.stamp = 0xFFFFFFFF) →
       exec (.taskStart i) s = .next s) ∧
     (∀ l, sl.state = .bound → sl.copy = false → startReached sl s.scnt = true → s.launchOf sl = some l → s.gangSaved sl = false →
       s.nodeBound sl.part l = true → l.held = true → l.stamp ≠ 0xFFFFFFFF →
       (s.gate sl.part l = .killed → exec (.taskStart i) s = .next (s.endLaunch sl.part l.id 3 0)) ∧
       (s.gate sl.part l = .depf → exec (.taskStart i) s = .next (s.endLaunch sl.part l.id 2 0x001F)) ∧
       (s.gate sl.part l = .go → s.admits i = false →
         exec (.taskStart i) s = .next (s.modLaunch sl.part l.id fun x => { x with held := false }))) ∧
     (∀ crc, sl.state = .bound → startReached sl s.scnt = true → s.admits i = true → free → sl.badCrc = some crc →
       ∃ t e, exec (.taskStart i) s = .next t ∧ t.core.slotAt i = {} ∧ t.mem = s.mem ∧ t.core.slotAt (i + 1) = s.core.slotAt (i + 1) ∧
         (t.partAt sl.part).launches = (s.partAt sl.part).launches.map (fun l => if l.id = sl.launch then { l with lost := true } else l) ∧
         e.source = 8 ∧ e.uncorrectable = true ∧ e.syndrome = crc.setWidth 64 ∧ (t.dieAt (s.cur / 64)).bank = ((s.logDie (s.cur / 64) e false).dieAt (s.cur / 64)).bank) ∧
     (sl.state = .bound → startReached sl s.scnt = true → s.admits i = true → free → sl.badCrc = none → (s.pkgAt (s.cur / 256)).ceilZero = false →
       ∃ t, exec (.taskStart i) s = .next t ∧ t.core.run = some i ∧ (t.core.slotAt i).state = .running ∧
         t.core.slotAt (i + 1) = s.core.slotAt (i + 1) ∧ t.mem = s.mem ∧ (∀ k, k ≠ s.cur → t.coreAt k = s.coreAt k) ∧
         t.core.cold = freshCold sl.coreId.toNat ∧ t.core.heatBud = 48000000 ∧ t.core.mcmask = BitVec.ofNat 64 (2 ^ (s.cur % 4)) ∧
         t.core.lq = [] ∧ t.core.sq = [] ∧ t.core.eq = [] ∧ t.core.str = {} ∧ t.core.inHandler = false ∧
         ∀ l, (t.core.cluster l).pc = sl.code ∧ (t.core.cluster l).readyAt = max s.warm (sl.ready / 16) ∧ (t.core.cluster l).split = false ∧ (t.core.cluster l).loops = [] ∧
           (∀ n, (t.core.cluster l).rg n = if n = 1 then sl.arg else if n = 2 then sl.taskId.setWidth 64 else
             if n = 3 then sl.gcount.setWidth 64 else if n = 4 then sl.payload else 0) ∧
           ∀ n, (t.core.cluster l).rc n = 0)) ∧
  (∀ (part launch : Nat) (l : Launch) (s : State), (s.partAt part).launch launch = some l →
     (l.state ≠ .bound ∨ (l.lost = true ∧ l.status ≠ 3) → s.launchOver part l = false) ∧
     (s.launchOver part l = true → ∃ t, exec (.launchCompletion part launch) s = .next t ∧
       (∀ x ∈ (t.partAt part).launches, x.id ≠ launch) ∧
       ∀ k, ∀ sl ∈ [(t.coreAt k).slot0, (t.coreAt k).slot1], sl.state = .empty ∨ sl.part ≠ part ∨ sl.launch ≠ launch) ∧
     (s.launchOver part l = false → exec (.launchCompletion part launch) s = .next s) ∧
     (l.state = .waiting → exec (.launchKill part launch) s = .next (s.closeLaunch part l 3 0)) ∧
     (l.state = .replaying → exec (.launchKill part launch) s = .next s) ∧
     (∀ k i sl, l.state = .bound → s.slotsOf part launch = [(k, i, sl)] → sl.live = true → ∃ t, exec (.launchKill part launch) s = .next t ∧
       (((s.coreAt k).slotAt i).badCrc = none → ((t.coreAt k).slotAt i).state = .ended) ∧
       (((s.coreAt k).slotAt i).badCrc ≠ none → (t.coreAt k).slotAt i = {}) ∧ (t.coreAt k).run ≠ some i) ∧
     (l.held = true → l.state = .bound → l.stamp = 0xFFFFFFFF →
       (s.gate part l = .go → exec (.graphNodeRelease part launch) s = .next (s.modLaunch part l.id fun x => { x with held := false })) ∧
       (s.gate part l = .killed → exec (.graphNodeRelease part launch) s = .next (s.endLaunch part l.id 3 0)) ∧
       (s.gate part l = .wait → exec (.graphNodeRelease part launch) s = .next s)) ∧
     (l.held = false → exec (.graphNodeRelease part launch) s = .next s))

/-- R9, R372, R373, R411, R446, R464: a message matches the arm entry with its TAG, but for one whose CRC fails, which is logged: unmatched it is logged, with every slot used or too long it counts as
missed, else its payload is stored in the next slot and the entry's record submitted with its handle in g4. The classifier tags a frame by its
lowest matching entry and gives the rest to the host. The I/O die takes descriptors in order. A second VALID entry with a TAG is
refused, and reserved bits of an entry read as 0.
That an unmatched message is logged with SOURCE 10, that it arrives at a free time, and the layout of a classifier entry are the model's choices (logs 21 and 22). -/
def Obligations.MessagesMatchAndLaunch : Prop :=
  ∀ (pkg : BitVec 10) (s : State), pkg.toNat < Config.packages → let p := s.pkgAt pkg.toNat
    (∀ (tag : BitVec 16) (payload : List (BitVec 8)), let es := p.armsFor tag.toNat
      (p.failed = true → exec (.messageMatch pkg tag payload) s = .next s) ∧
      (p.failed = false → es = [] → exec (.messageMatch pkg tag payload) s = .next (s.logIo pkg.toNat
        { source := 10, uncorrectable := true, addr := tag.setWidth 64, phys := 0xFF, owner := 0, syndrome := 0 })) ∧
      (∀ e v, p.failed = false → es = [(e, v)] → armCrcOk v = false → exec (.messageMatch pkg tag payload) s =
        .next ((s.logStructure pkg.toNat (BitVec.ofNat 64 e) (armField v 0x1C 4)).logIo pkg.toNat
          { source := 10, uncorrectable := true, addr := tag.setWidth 64, phys := 0xFF, owner := 0, syndrome := 0 })) ∧
      ∀ e v, p.failed = false → es = [(e, v)] → armCrcOk v = true →
        (armField v 0x19 1 = 16 ∨ armField v 4 4 < payload.length → ∃ t, exec (.messageMatch pkg tag payload) s = .next t ∧ t.mem = s.mem ∧
          t.parts = s.parts ∧ Sp.get 0 (t.pkgAt pkg.toNat).arms e = setArm v 0x1A 2 (min (armField v 0x1A 2 + 1) 0xFFFF)) ∧
        (armField v 0x19 1 ≠ 16 → payload.length ≤ armField v 4 4 →
          let q := Sp.get (0, 0) p.armQueue e
          let h := BitVec.ofNat 64 (armField v 0x10 8) + BitVec.ofNat 64 (armField v 0x18 1 % 16 * armField v 4 4)
          ∃ u : State, exec (.messageMatch pkg tag payload) s =
              .next (u.submit q.1 q.2 pkg.toNat (BitVec.ofNat 1024 (u.readAt q.1 (BitVec.ofNat 64 (armField v 8 8)) 128)) h (some (pkg.toNat, e))) ∧
            u.mem = (s.writeAt q.1 h payload).mem ∧ u.parts = (s.writeAt q.1 h payload).parts)) ∧
    (∀ (port : BitVec 1) (ethertype : BitVec 16) (payload : List (BitVec 8)),
      let es := ((List.range 64).map fun i => Sp.get 0 p.classify (64 * port.toNat + i)).find? fun v => classMatches v ethertype.toNat payload
      (p.boot.released = false ∨ p.failed = true → exec (.frameClassify pkg port ethertype payload) s = .next s) ∧
      (p.boot.released = true → p.failed = false → es = none → exec (.frameClassify pkg port ethertype payload) s =
        .next (s.modPkgAt pkg.toNat fun p => { p with hostRx := p.hostRx ++ [payload] })) ∧
      (∀ v, p.boot.released = true → p.failed = false → es = some v →
        exec (.frameClassify pkg port ethertype payload) s = exec (.messageMatch pkg (v.extractLsb' 80 16) payload) s)) ∧
    (p.msgq = none → exec (.messageSend pkg) s = .next s) ∧
    (∀ part h, p.msgq = some (part, h) →
      (s.headerOk part h = false → ∃ t, exec (.messageSend pkg) s = .next t ∧ (t.pkgAt pkg.toNat).msgq = none ∧ t.mem = s.mem) ∧
      (s.headerOk part h = true → s.readAt part h 8 ≤ s.readAt part (h + 8) 8 → exec (.messageSend pkg) s = .next s) ∧
      (s.headerOk part h = true → s.readAt part (h + 8) 8 < s.readAt part h 8 → s.readAt part (h + 0x10) 4 ≠ 0 →
        let head := s.readAt part (h + 8) 8
        let v := s.readAt part (BitVec.ofNat 64 (s.readAt part (h + 0x18) 8) + BitVec.ofNat 64 (32 * (head % s.readAt part (h + 0x10) 4))) 32
        let u := s.writeAt part (h + 8) (leBytes 8 (head + 1))
        s.descriptorOk part v = true → ∃ t at_ data, exec (.messageSend pkg) s = .next t ∧ t.mem = u.mem ∧ s.clock < at_ ∧
          (t.pkgAt pkg.toNat).outbox = p.outbox ++ [(at_, BitVec.ofNat 10 (v % 2 ^ 16), BitVec.ofNat 16 (v / 2 ^ 16), data)])) ∧
    ∀ (entry : BitVec 8) (part queue : Nat) (v : BitVec 256),
      let twin := (p.armsFor (armField v 0 2)).any fun x => !decide (x.1 = entry.toNat)
      (armValid v = true → twin = true → exec (.launchArmWrite pkg entry part queue v) s = .next s) ∧
      (p.boot.released = false → exec (.launchArmWrite pkg entry part queue v) s = .next s) ∧
      (p.boot.released = true → armValid v = false ∨ twin = false → ∃ t, exec (.launchArmWrite pkg entry part queue v) s = .next t ∧ t.mem = s.mem ∧ t.cores = s.cores ∧
        Sp.get 0 (t.pkgAt pkg.toNat).arms entry.toNat = v &&& ~~~0xFFFC0000#256 ∧ Sp.get (0, 0) (t.pkgAt pkg.toNat).armQueue entry.toNat = (part, queue) ∧
        ∀ e, e ≠ entry.toNat → Sp.get 0 (t.pkgAt pkg.toNat).arms e = Sp.get 0 p.arms e)

/-! ## Tables, errors, bring-up, rails (R267, R280, R333 to R341, R402, R412 to R419, R435 to R463) -/

/-- R9, R108, R333, R337, R340, R341, R402, R412, R435, R459, R463: a region entry is rewritten, its reserved bits 0, once no access through the old
one is outstanding, and then no TLB of the partition holds it, and memory reads under the new entry's key; a PINNED entry of a partition with a bound task stays. A key slot that an entry names stays. MEMPROT
changes only for memories that are not up, and not at all for a reserved code. CLR empties the bank it selects. An image no launch
could admit, or whose code region is not RO and pinned, is refused. A region that an entry or an image creates has PARKED spans of at most 2^20
units where it is RW, and none where it is RO (R267). A debug partition's code may be patched, at its home; host stores and DMA to host
regions, which are RW, pinned and PARKED, land at their home. Before the management cores run nothing of this is done (R460).
That the change of a region entry stands as pending until its shootdown completes is the model's reading (log 23). -/
def Obligations.TablesKeysAndOutsideAccesses : Prop :=
  (∀ (part : Nat) (e : BitVec 12) (w : BitVec 512) (s : State), let v := w &&& regionFields
    (s.managed = false → exec (.regionEntryWrite part e w) s = .next s) ∧
    (∀ r, s.regionOf part e.toNat = some r → r.pinned = true → s.anyBound part = true → exec (.regionEntryWrite part e w) s = .next s) ∧
    (s.managed = true → (∀ r, s.regionOf part e.toNat = some r → r.pinned = false) ∨ s.anyBound part = false → (s.partAt part).shoots = [] →
      ∃ t, exec (.regionEntryWrite part e w) s = .next t ∧
        (∀ k, (s.coreAt k).runs part = true → e.toNat ∉ (t.coreAt k).tlb) ∧
        (∀ i, i ≠ e.toNat → Sp.get 0 (t.partAt part).regions i = Sp.get 0 (s.partAt part).regions i) ∧
        (s.shotDown part e.toNat = true → Sp.get 0 (t.partAt part).regions e.toNat = v ∧ (t.partAt part).shoots = [] ∧
          t.mem = (s.setRegion part e.toNat v).mem ∧ ∀ r, decodeRegion v = some r → s.regionOf part e.toNat = none →
            (r.rw = true → ∀ k, k < r.size / 65536 → let h := k / 2 ^ 20 * 2 ^ 20
              let x := (t.partAt part).token (r.token + k)
              x.head = r.token + h ∧ x.mode = .parked ∧ x.region = e.toNat ∧ x.isHead = decide (k = h) ∧
                (k = h → x.units = min (2 ^ 20) (r.size / 65536 - h))) ∧
            (r.rw = false → ∀ x ∈ (t.partAt part).tokens, x.2.region ≠ e.toNat)) ∧
        (s.shotDown part e.toNat = false → (t.partAt part).regions = (s.partAt part).regions ∧ (t.partAt part).shoots = [(e.toNat, v)] ∧ t.mem = s.mem))) ∧
  (∀ (pkg : BitVec 10) (slot : BitVec 8) (key : BitVec 512) (v : BitVec 64) (s : State), pkg.toNat < Config.packages →
    let p := s.pkgAt pkg.toNat
    (s.keyInUse pkg.toNat slot.toNat = true → exec (.keySlotLoad pkg slot key) s = .next s) ∧
    (p.boot.released = false → exec (.keySlotLoad pkg slot key) s = .next s) ∧
    (s.keyInUse pkg.toNat slot.toNat = false → p.boot.released = true → exec (.keySlotLoad pkg slot key) s =
      .next (s.modPkgAt pkg.toNat fun p => { p with keys := Sp.put p.keys slot.toNat (some key) })) ∧
    (∃ m, exec (.memprotWrite pkg v) s = .next (s.modPkgAt pkg.toNat fun p => { p with memprot := m }) ∧
      ((∃ i, i < 3 ∧ v.getLsbD (2 * i + 1) = true) → m = p.memprot) ∧
      ((∀ i, i < 3 → v.getLsbD (2 * i + 1) = false) → ∀ i, i < 3 →
        (p.memUp.getLsbD i = true → m.extractLsb' (2 * i) 2 = p.memprot.extractLsb' (2 * i) 2) ∧
        (p.memUp.getLsbD i = false → m.extractLsb' (2 * i) 2 = v.extractLsb' (2 * i) 2))) ∧
    (v.getLsbD 8 = false ∨ 4 < (v.extractLsb' 0 3).toNat → exec (.errorBankClear pkg v) s =
      .next (s.modPkgAt pkg.toNat fun p => { p with wselBank := v &&& 0x107 })) ∧
    (v.getLsbD 8 = true → (v.extractLsb' 0 3).toNat = 4 → exec (.errorBankClear pkg v) s =
      .next (s.modPkgAt pkg.toNat fun p => { p with wselBank := v &&& 0x107, bank := {} })) ∧
    (v.getLsbD 8 = true → (v.extractLsb' 0 3).toNat < 4 → exec (.errorBankClear pkg v) s =
      .next ((s.modPkgAt pkg.toNat fun p => { p with wselBank := v &&& 0x107 }).modDieAt (pkg.toNat * 4 + (v.extractLsb' 0 3).toNat) fun d =>
        { d with bank := {} }))) ∧
  ∀ (part : Nat) (image : KernelImage) (h : BitVec 64) (w : BitVec 32) (bs : List (BitVec 8)) (s : State),
    (s.imageLoads part image = false ∨ s.managed = false → exec (.kernelLoad part image) s = .next s) ∧
    (s.imageLoads part image = true → ∃ x ∈ image.regions, x.index = image.codeIndex ∧ x.rw = false ∧ x.pinned = true) ∧
    (s.imageLoads part image = true → s.managed = true → ∃ t, exec (.kernelLoad part image) s = .next t ∧ t.cores = s.cores ∧
      (t.partAt part).kernels = image :: (s.partAt part).kernels.filter (fun k => !decide (k.codeIndex = image.codeIndex)) ∧
      ((image.regions.map (·.index)).Nodup → ∀ x ∈ image.regions,
        Sp.get 0 (t.partAt part).regions x.index.toNat = encodeRegion (KernelImage.regionOf image x) ∧
          (KernelImage.regionOf image x).pkg = (x.home.getD image.loader).toNat)) ∧
    (∀ r key, s.locate part h 4 = some (r, key) → exec (.codePatch part h w) s =
      .next (if (s.partAt part).debug = true ∧ r.rw = false then s.partBytes part key (leBytes 4 w.toNat) else s)) ∧
    (s.locate part h 4 = none → exec (.codePatch part h w) s = .next s) ∧
    (∀ r key, s.managed = true → s.locate part h bs.length = some (r, key) → exec (.hostStore part h bs) s = .next (s.partBytes part key bs)) ∧
    (s.locate part h bs.length = none ∨ s.managed = false → exec (.hostStore part h bs) s = .next s) ∧
    exec (.deviceDma part h none) s = .next s ∧
    (∀ key, s.hostRange part h bs.length = some key → exec (.deviceDma part h (some bs)) s = .next (s.partBytes part key bs) ∧
      ∃ r, s.locate part h bs.length = some (r, key) ∧ r.pinned = true ∧ r.rw = true ∧ ∀ i, i < bs.length →
        (((s.partAt part).headOf (r.token + (h.toNat % 2 ^ 52 + i) / 65536)).2).mode = .parked) ∧
    (s.hostRange part h bs.length = none → exec (.deviceDma part h (some bs)) s = .next s)

/-- R337 to R339, R267, R280, R291, R412, R414, R440: what the scrubber finds is logged with its owner tag and an uncorrectable line is bad for its
readers from then on; under OWNER it ends the context that last wrote the line. A bank that fails under SYMBOL is rebuilt; a link error is logged as
corrected and a port that fails is down, the package failed with its last cabled one; a PARKED span is handed to a core, unless a waiting
launch lists it (R364), or a span cleared of TAINT, and no counter is pulsed. The first error of its kind fills a bank's record and later ones only count.
R280, R419, R442: a core that fails ends its tasks; a package that fails ends those of its cores, and each of its regions fails over to its
mirror or is invalidated with its other fields kept. Memory is not touched.
The pod has 576 packages (R1): an act that names another changes nothing.
The numbering of stripes, and that tasks of a failed unit end as FAULT with CAUSE 0, are the model's choices (logs 24 and 25). -/
def Obligations.ErrorsAreLoggedAndFailuresContained : Prop :=
  ((∀ (pkg : BitVec 10) (die : BitVec 2) (port : BitVec 7) (found : MemError) (stripe : Nat) (s : State), pkg.toNat < Config.packages →
     let d := pkg.toNat * 4 + die.toNat
     let p := s.pkgAt pkg.toNat
     let w := s.ownerOf pkg.toNat found
     let logged := s.logDie d { found with owner := ownerTag w } false
     (found.uncorrectable = false → exec (.scrub pkg die found) s = .next logged) ∧
     (found.uncorrectable = true → found.source = 0 ∨ found.source = 1 → p.ownerMode found.source.toNat = false →
       ∃ t, exec (.scrub pkg die found) s = .next t ∧ t.mem = s.mem ∧ t.cores = s.cores ∧
         (t.dieAt d).bank = (logged.dieAt d).bank ∧ t.badAt (memKey pkg.toNat found.addr.toNat) 1 = true) ∧
     (found.source = 0 ∨ found.source = 1 → w = Sp.get 0 s.owners (memKey pkg.toNat found.addr.toNat / 64)) ∧
     (found.uncorrectable = true → found.source = 0 ∨ found.source = 1 → p.ownerMode found.source.toNat = true →
       let k := (w - 1) / 2
       let i := BitVec.ofNat 1 ((w - 1) % 2)
       ∃ t, exec (.scrub pkg die found) s = .next t ∧ (w = 0 → t.cores = s.cores) ∧
         (w ≠ 0 → ((s.coreAt k).slotAt i).live = true → ((s.coreAt k).slotAt i).badCrc = none → ((t.coreAt k).slotAt i).state = .ended)) ∧
     (found.uncorrectable = true → found.source = 2 → let c := pkg.toNat * 256 + found.phys.toNat
       let k := (w - 1) / 2
       let i := BitVec.ofNat 1 ((w - 1) % 2)
       ∃ t, exec (.scrub pkg die found) s = .next t ∧
         (p.ownerMode 2 = false → t.mem = s.mem ∧ (t.dieAt d).bank = (logged.dieAt d).bank ∧ (found.addr.extractLsb' 5 14).toNat ∈ (t.coreAt c).badGran) ∧
         (p.ownerMode 2 = true → w ≠ 0 → ((s.coreAt k).slotAt i).live = true → ((s.coreAt k).slotAt i).badCrc = none →
           ((t.coreAt k).slotAt i).state = .ended)) ∧
     (p.ownerMode (stripe % 3) = true → ∃ t, exec (.bankFailure pkg stripe) s = .next t ∧ (t.pkgAt pkg.toNat).rebuild = p.rebuild) ∧
     (p.ownerMode (stripe % 3) = false → stripe ∉ p.rebuild → exec (.bankFailure pkg stripe) s =
       .next (s.modPkgAt pkg.toNat fun p => { p with rebuild := p.rebuild ++ [stripe] })) ∧
     exec (.bankRebuildComplete pkg stripe) s = .next (s.modPkgAt pkg.toNat fun p => { p with rebuild := p.rebuild.erase stripe }) ∧
     (port.toNat < 72 → exec (.flitCrcFail pkg die port) s = .next (s.logDie d (fabricError port.toNat) false) ∧
       ∃ t, exec (.portFail pkg die port) s = .next t ∧ t.mem = s.mem ∧ (t.pkgAt pkg.toNat).portsDown.getLsbD port.toNat = true ∧
         (p.links = 0 ∨ (∃ j, j ≠ port.toNat ∧ p.links.getLsbD j = true ∧ p.portsDown.getLsbD j = false) → t.cores = s.cores ∧
           (t.pkgAt pkg.toNat).failed = p.failed) ∧
         (p.links ≠ 0 → (∀ j, j ≠ port.toNat → p.links.getLsbD j = true → p.portsDown.getLsbD j = true) → (t.pkgAt pkg.toNat).failed = true) ∧
         ∀ j, j ≠ port.toNat → (t.pkgAt pkg.toNat).portsDown.getLsbD j = p.portsDown.getLsbD j)) ∧
   (∀ (part : Nat) (token : BitVec 34) (peer : Option (BitVec 64)) (clear : Bool) (s : State),
     let x := (s.partAt part).headOf token.toNat
     let u := if clear = true then s.modToken part x.1 fun t => { t with taint := false } else s
     (x.2.isHead = false → exec (.parkedSpanHandover part token peer clear) s = .next s) ∧
     (x.2.isHead = true → peer = none ∨ x.2.mode ≠ .parked → exec (.parkedSpanHandover part token peer clear) s = .next u) ∧
     (∀ a, x.2.isHead = true → peer = some a → findPeer part (a.extractLsb' 30 10).toNat (a.extractLsb' 22 8).toNat s.cores = none →
       exec (.parkedSpanHandover part token peer clear) s = .next u) ∧
     (∀ a, x.2.isHead = true → peer = some a → x.1 ∈ (s.partAt part).listed → exec (.parkedSpanHandover part token peer clear) s = .next u) ∧
     (∀ a k launch, x.2.isHead = true → x.2.mode = .parked → x.1 ∉ (s.partAt part).listed → peer = some a →
       findPeer part (a.extractLsb' 30 10).toNat (a.extractLsb' 22 8).toNat s.cores = some (k, launch) →
       exec (.parkedSpanHandover part token peer clear) s =
         .next (u.modToken part x.1 (grantToken (k / 256) (a.extractLsb' 22 8).toNat launch)))) ∧
   ∀ (b : ErrBank) (e : MemError) (m : Bool) (w : BitVec 32),
     (b.log e m w).ceCount = (if e.uncorrectable then b.ceCount else min (b.ceCount + 1) 0xFFFF) ∧
     (b.log e m w).ueCount = (if e.uncorrectable then min (b.ueCount + 1) 0xFFFF else b.ueCount) ∧
     (b.record = none → (b.log e m w).record = some e) ∧
     (∀ r, b.record = some r → r.uncorrectable = true ∨ e.uncorrectable = false → (b.log e m w).record = some r) ∧
     (∀ r, b.record = some r → r.uncorrectable = false → e.uncorrectable = true → (b.log e m w).record = some e)) ∧
  ((∀ (pkg : BitVec 10) (core : BitVec 8) (s : State), pkg.toNat < Config.packages → ∃ t, exec (.coreFailure pkg core) s = .next t ∧
     let k := pkg.toNat * 256 + core.toNat
     (t.coreAt k).failed = true ∧ (t.coreAt k).slot0.live = false ∧ (t.coreAt k).slot1.live = false ∧ t.mem = s.mem) ∧
   ∀ (pkg : BitVec 10) (part : Nat) (s : State), pkg.toNat < Config.packages → ∃ t, exec (.packageFailure pkg) s = .next t ∧
     (t.pkgAt pkg.toNat).failed = true ∧ t.mem = s.mem ∧
     ∀ i r, s.regionOf part i = some r → r.pkg = pkg.toNat →
       (r.mirror = false → Sp.get 0 (t.partAt part).regions i = (let v := Sp.get 0 (s.partAt part).regions i
         let body := v.toNat % 2 ^ 480 - 2 ^ 144
         BitVec.ofNat 512 (body + (crc32 (leBytes 60 body)).toNat * 2 ^ 480))) ∧
       (r.mirror = true → pkg.toNat ^^^ 1 ≠ pkg.toNat → (s.pkgAt (pkg.toNat ^^^ 1)).failed = false → Sp.get 0 (t.partAt part).regions i =
         encodeRegion { r with pkg := pkg.toNat ^^^ 1, base := r.mbase, mirror := false, mbase := 0 })) ∧
  (∀ (pkg : BitVec 10) (die : BitVec 2) (quad : BitVec 4) (core : BitVec 8) (port : BitVec 7) (v : BitVec 64) (n : Nat) (s : State),
     576 ≤ pkg.toNat → ∀ i ∈ [Instr.droop pkg die quad, .droopRaise pkg die quad, .droopRecovery pkg die quad, .clockHop pkg die quad,
       .marginStep pkg die, .cesetRestore pkg die, .coreFailure pkg core, .packageFailure pkg, .flitCrcFail pkg die port, .portFail pkg die port,
       .memprotWrite pkg v, .errorBankClear pkg v, .rotation pkg die, .rotationRebind pkg die, .coldHandshakeTimeout pkg, .drainDeadline pkg,
       .messageSend pkg, .bankFailure pkg n, .bankRebuildComplete pkg n, .stageTemperature pkg n n n, .quadRailSet pkg die quad n],
       exec i s = .next s)

/-- R457, R460 to R462: a module reset, also one for a lockstep mismatch, puts the cores, dies and memory of the package as at reset and brings
it up as far as its inputs allow: a firmware whose CRC-32 does not hold fails with 1, no valid configuration record with 2, memory with 3; step 4
waits for the stage, and boot fails with COLD 600 s after it began; no cabled port up fails with 5; step 6 writes the tables,
and the host cores run from the host entry handle. The stage's temperature sets the ceiling of every context, saved ones too, and, above
4.8 K, asks every core to stop; a context that has not drained 1 ms later is ended.
What module reset drops of the partitions' tables, the inputs of bring-up and the ceiling's return are the model's choices (logs 26 and 27). -/
def Obligations.BringUpAndStage : Prop :=
  ∀ (pkg : BitVec 10) (b : BootInputs) (t4 t50 lift : Nat) (s : State), pkg.toNat < Config.packages →
    let k := pkg.toNat
    let p := s.pkgAt k
    let q := bootPkg b s.clock
    let config := configOk b.config0 = true ∨ configOk b.config1 = true
    let cold := b.stageMilliK < 4400 ∧ 1000 ≤ b.liftMilliW
    (∃ t, exec (.moduleReset pkg b) s = .next t ∧ exec (.lockstepMismatch pkg b) s = .next t ∧ t.clock = s.clock ∧
      (∀ c, c / 256 = k → t.coreAt c = Core.atReset c) ∧ t.cores = s.cores.filter (fun c => !decide (c.1 / 256 = k)) ∧
      (∀ d, d < 4 → t.dieAt (4 * k + d) = { base := s.clock }) ∧
      (b.tables.regions = [] ∨ q.boot.step ≠ 4 ∨ ¬cold →
        (∀ a, a / 2 ^ 40 = k → t.byte a = 0) ∧ (s.Inv → ∀ a, a / 2 ^ 40 ≠ k → t.byte a = s.byte a)) ∧
      (q.boot.step ≠ 4 ∨ ¬cold → t.pkgAt k = q) ∧
      (q.boot.step = 4 → cold → q.links &&& b.portsUp = 0 →
        (t.pkgAt k).boot.code = 5 ∧ (t.pkgAt k).boot.step = 5 ∧ (t.pkgAt k).boot.released = false) ∧
      (q.boot.step = 4 → cold → q.links &&& b.portsUp ≠ 0 → let u := t.pkgAt k
        u.boot.step = 7 ∧ u.boot.code = 0 ∧ u.boot.released = true ∧ u.boot.entry = b.hostEntry ∧ u.memUp = 7 ∧
        u.portsDown = q.links &&& ~~~(q.links &&& b.portsUp) ∧
        ((b.tables.keys.map (·.1)).Nodup → ∀ x ∈ b.tables.keys, Sp.get none u.keys x.1.toNat = some x.2) ∧
        ((b.tables.arms.map (·.1)).Nodup → ∀ x ∈ b.tables.arms, Sp.get 0 u.arms x.1.toNat = x.2.2.2 ∧
          Sp.get (0, 0) u.armQueue x.1.toNat = (x.2.1, x.2.2.1)) ∧
        ((b.tables.classify.map (·.1)).Nodup → ∀ x ∈ b.tables.classify, Sp.get 0 u.classify x.1.toNat = x.2) ∧
        ((b.tables.regions.map fun x => (x.1, x.2.1)).Nodup → ∀ x ∈ b.tables.regions, ∀ r,
          decodeRegion (x.2.2 &&& regionFields) = some r → r.pkg = k →
          Sp.get 0 (t.partAt x.1).regions x.2.1.toNat = x.2.2 &&& regionFields))) ∧
    q.t4 = b.stageMilliK ∧ q.lift = b.liftMilliW ∧ q.flash = (b.config0, b.config1) ∧
    (crc32 b.firmware ≠ b.firmwareCrc → q.boot.code = 1) ∧
    (crc32 b.firmware = b.firmwareCrc → ¬config → q.boot.code = 2) ∧
    (crc32 b.firmware = b.firmwareCrc → config → let v := if configOk b.config0 = true then b.config0 else b.config1
      q.number = v.extractLsb' 48 16 ∧ q.enable = v.extractLsb' 64 256 ∧ q.links = v.extractLsb' 320 72 ∧
      (b.memoryOk = false → q.boot.code = 3) ∧ (b.memoryOk = true → q.boot.step = 4 ∧ q.boot.code = 0 ∧ q.memUp = 3)) ∧
    (p.boot.step = 4 → p.boot.code = 0 → p.boot.since + 19200000000000 ≤ s.clock →
      exec (.coldHandshakeTimeout pkg) s = .next (s.modPkgAt k fun p => { p with boot := { p.boot with code := 4 } })) ∧
    (s.clock < p.boot.since + 19200000000000 → exec (.coldHandshakeTimeout pkg) s = .next s) ∧
    (∃ t, exec (.stageTemperature pkg t4 t50 lift) s = .next t ∧ (t.pkgAt k).t4 = t4 ∧ (t.pkgAt k).lift = lift ∧
      (p.boot.step ≠ 4 ∨ p.boot.code ≠ 0 ∨ 4400 ≤ t4 ∨ lift < 1000 → t.mem = s.mem ∧ (t.pkgAt k).boot = p.boot) ∧
      (p.boot.step = 4 → p.boot.code = 0 → t4 < 4400 → 1000 ≤ lift →
        (t.pkgAt k).boot.released = decide (p.links &&& p.boot.ports ≠ 0) ∨ p.boot.released = true) ∧
      (t.pkgAt k).hot = (if 4800 < t4 then true else if t4 < 4400 then false else p.hot) ∧
      (t.pkgAt k).ceilZero = (if 4500 < t4 then true else if t4 < 4400 then false else p.ceilZero) ∧
      ∀ c, c / 256 = k →
        (4500 < t4 → p.ceilZero = false → ∀ i, ((s.coreAt c).slotAt i).state = .saved → ((s.coreAt c).slotAt i).copy = false →
          ((t.coreAt c).slotAt i).kept.heatNext = some (0, s.windowOf c) ∧ ((t.coreAt c).slotAt i).areaNat 0x1CB0 8 = 0) ∧
        (t4 < 4400 → p.ceilZero = true → ∀ i, ((s.coreAt c).slotAt i).state = .saved → ((s.coreAt c).slotAt i).copy = false →
          ((t.coreAt c).slotAt i).areaNat 0x1CB0 8 = 48000000) ∧
        ((s.coreAt c).run ≠ none →
          (4500 < t4 → p.ceilZero = false → (t.coreAt c).heatCeil = 0 ∧ (t.coreAt c).heatNext = some 0) ∧
          (t4 < 4400 → p.ceilZero = true → (t.coreAt c).heatCeil = 48000000) ∧
          (4800 < t4 → p.hot = false → (t.coreAt c).preempt ≠ none))) ∧
    (p.hot = false ∨ s.clock < p.hotAt + 32000000 → exec (.drainDeadline pkg) s = .next s) ∧
    (∀ c core i, p.hot = true → p.hotAt + 32000000 ≤ s.clock → s.cores = [(c, core)] → c / 256 = k → core.run = some i →
      (core.drained = true → exec (.drainDeadline pkg) s = .next s) ∧
      (core.drained = false → core.slot.live = true → core.slot.badCrc = none →
        ∃ t, exec (.drainDeadline pkg) s = .next t ∧ (t.coreAt c).run = none ∧ ((t.coreAt c).slotAt i).state = .ended))

/-- R415, R416, R448 to R454: a rail is set in steps of 5 mV within 400 to 720 mV, VS − 250 and VS + 100; a droop stretches the period until the rail
recovers, and after 2 µs raises the set point once by 10 mV; a hop ends within 1,280 cold cycles; CESET of 1 to 65,535 comes into force at
the next step of the margin controller, which moves VS by 5 mV down or up as the corrected errors of warm SRAM since the last step ask, and not
at all during the hold; a margin error raises VS by up to 25 mV, the rails below first, once for the errors of 1 µs, halves CECUR, holds for 1 s
and replays the open window; without one, and at 0.78 V, what was read stays bad for its readers.
The length of a hop is a free value, and the reading of a margin error that can be repeated or not the model's (logs 28 and 29). -/
def Obligations.RailsStretchesAndMargins : Prop :=
  ∀ (pkg : BitVec 10) (die : BitVec 2) (quad : BitVec 4) (mv : Nat) (v : BitVec 16) (s : State), pkg.toNat < Config.packages →
    let k := pkg.toNat * 4 + die.toNat
    let d := s.dieAt k
    let q := quad.toNat
    (∃ t, exec (.quadRailSet pkg die quad mv) s = .next t ∧ { t with dies := s.dies } = s ∧
      (t.dieAt k).rail q = max (max 400 (d.vs - 250)) (min (min 720 (d.vs + 100)) (mv / 5 * 5)) ∧
      ∀ j, j ≠ q → (t.dieAt k).rail j = d.rail j) ∧
    (∃ t, exec (.droop pkg die quad) s = .next t ∧ { t with dies := s.dies } = s ∧ (t.dieAt k).stretched q s.clock = true ∧
      (d.drooping q = none → (t.dieAt k).drooping q = some (s.clock, false))) ∧
    (∀ at_, d.drooping q = some (at_, false) →
      (s.clock < at_ + 64000 → exec (.droopRaise pkg die quad) s = .next s) ∧
      (at_ + 64000 ≤ s.clock → ∃ t, exec (.droopRaise pkg die quad) s = .next t ∧ (t.dieAt k).rail q = d.clampRail (d.rail q + 10) ∧
        (t.dieAt k).drooping q = some (at_, true))) ∧
    (∀ at_, d.drooping q = some (at_, true) → exec (.droopRaise pkg die quad) s = .next s) ∧
    (∃ t, exec (.droopRecovery pkg die quad) s = .next t ∧ (t.dieAt k).drooping q = none ∧ (t.dieAt k).vq = d.vq) ∧
    (∃ t, exec (.clockHop pkg die quad) s = .next t ∧ (t.dieAt k).stretched q s.clock = true ∧
      (d.drooping q = none → (t.dieAt k).stretched q (s.clock + 1280) = false)) ∧
    (v = 0 → exec (.cesetWrite pkg die v) s = .next s) ∧
    (v ≠ 0 → exec (.cesetWrite pkg die v) s = .next (s.modDieAt k fun d => { d with ceset := v.toNat, cenew := true })) ∧
    exec (.marginStep pkg die) s = .next (s.modDieAt k fun d => d.marginStep s.clock) ∧
    (let e := d.marginStep s.clock
     let c := if d.cenew = true then d.ceset else d.cecur
     let floor := max 620 (d.maxRail - 100)
     e.cecur = c ∧ e.sram = 0 ∧ e.hold = d.hold ∧
     (d.hold ≤ s.clock → d.sram * 100 < c → floor < d.vs → e.vs = d.vs - 5 ∧ e.vq = d.vq) ∧
     (d.hold ≤ s.clock → 2 * c < d.sram * 100 → e.vs = min (d.vs + 5) 780 ∧ ∀ j, j < 16 → e.rail j = max (d.rail j) (e.vs - 250)) ∧
     (s.clock < d.hold ∨ (c ≤ d.sram * 100 ∨ d.vs ≤ floor) ∧ d.sram * 100 ≤ 2 * c → e.vs = d.vs ∧ e.vq = d.vq)) ∧
    (s.clock < d.calm + 1920000000000 → exec (.cesetRestore pkg die) s = .next s) ∧
    (d.calm + 1920000000000 ≤ s.clock → exec (.cesetRestore pkg die) s =
      .next (s.modDieAt k fun d => { d with cecur := min (2 * d.cecur) d.ceset, calm := s.clock })) ∧
    ∀ (core : BitVec 6) (readable : Bool) (found : MemError), let n := k * 64 + core.toNat
      let c := s.coreAt n
      let e : MemError := { found with phys := BitVec.ofNat 8 n }
      (780 ≤ d.vs → exec (.marginError pkg die core readable found) s = .next (s.markBad pkg.toNat e)) ∧
      (d.vs < 780 → ∃ t, exec (.marginError pkg die core readable found) s = .next t ∧ t.mem = s.mem ∧
        (t.dieAt k).merr = min (d.merr + 1) 0xFFFFFFFF ∧
        (t.dieAt k).bank = ((s.logDie k { e with uncorrectable := false, owner := 0xFFF } true).dieAt k).bank ∧
        ((∃ a, d.raiseAt = some a ∧ s.clock < a + 32000) → (t.dieAt k).vs = d.vs ∧ (t.dieAt k).cecur = d.cecur ∧ (t.dieAt k).hold = d.hold) ∧
        ((∀ a, d.raiseAt = some a → a + 32000 ≤ s.clock) → (t.dieAt k).vs = min (d.vs + 25) 780 ∧ (t.dieAt k).cecur = max 1 (d.cecur / 2) ∧
          (t.dieAt k).hold = s.clock + 32000000000 ∧ ∀ j, j < 16 → (t.dieAt k).rail j = max (d.rail j) ((t.dieAt k).vs - 250)) ∧
        (c.win ≠ none → c.replay = none → (t.coreAt n).replay ≠ none ∧ (readable = true → t.bad = s.bad)) ∧
        (c.win = none ∨ c.replay ≠ none → t.cores = (s.markBad pkg.toNat e).cores ∧ t.bad = (s.markBad pkg.toNat e).bad))

/-! ## Encoding, the step, reset (R39, R73 to R101) -/

/-- R78 to R101: decode of encode is the instruction, for every well-formed instruction of the table: a control word in its bundle, an order in
its slot, a copy command as its 64-byte entry. -/
def Obligations.DecodeOfEncodeIsTheInstruction : Prop :=
  (∀ (i : Instr) (w : Word32), i.wf = true → encode i = some w → decodeAs i.kind w = .ok i) ∧
  (∀ (i : Instr), i.kind ≠ .event → i.kind ≠ .entry → ∃ w, encode i = some w) ∧
  ∀ (c : Command) (e : CopyEntry), (c.instr e).wf = true → decodeEntry (encodeEntry c e) = .ok (c.instr e)

/-- R79 to R97: words written out from the encoding tables decode to the instructions they stand for; the words of the spec's example bundle
among them. -/
def Obligations.WordsOfTheSpecDecode : Prop :=
  decodeControl 0xD027424C = .ok (.xin 1 1 7 8 9 3 0) ∧ decodeControl 0xE1205000 = .ok (.tstart 1 9 10 0) ∧
  decodeControl 0xAE000000 = .ok (.nop 1) ∧ decodeControl 0x86517FFD = .ok (.addi 1 5 2 0x7FFD) ∧
  decodeControl 0xC040A010 = .ok (.ld 1 4 1 2 16) ∧ decodeControl 0x9A530000 = .ok (.pcmpi 1 1 1 6 0) ∧
  decodeControl 0xA6030005 = .ok (.loop 1 0 6 5) ∧ decodeControl 0xB4000010 = .ok (.caddi 1 0 0 16) ∧
  decodeControl 0xF4000003 = .ok (.fence 1 0 3) ∧ decodeControl 0xF6063A01 = .ok (.aaddf 1 0 6 7 8) ∧
  decodeControl 0xEC080001 = .ok (.cpseq 1 0 8) ∧ decodeX 0x00820114 = .ok (.mma 0 0 0 0 1 0 0 1 5) ∧ decodeX 0x01120060 = .ok (.mldm 0 1 1 3) ∧
  decodeY 0x2104801C = .ok (.mstore 2 2 2 7 0 0) ∧ decodeV 0x11061110 = .ok (.vfma 1 3 1 2 1) ∧ decodeV 0x0240110A = .ok (.vcmp 0 1 2 1 2) ∧
  decodeT 0x07030000 = .ok (.trelax 0 3)

/-- R80, R88, R89: a word whose MAJ is 0x00, 0x1B to 0x1F, 0x24 to 0x27, 0x37 or 0x3F is an undefined pattern; a cluster that issues one traps
with ILLWORD at it, and with ILLCLU at a word bound to another cluster. -/
def Obligations.UndefinedPatternsTrap : Prop :=
  (∀ w : Word32, (w.extractLsb' 25 6).toNat ∈ [0x00, 0x1B, 0x1C, 0x1D, 0x1E, 0x1F, 0x24, 0x25, 0x26, 0x27, 0x37, 0x3F] →
    ∃ e, decodeControl w = .error e) ∧
  (∀ (b : BitVec 128) (s : State), s.fetch s.cl.pc = .bundle b →
    ((∃ e, decodeControl (s.laneBits b) = .error e) → s.issueSplit = .next (s.wordTrap 0x01 s.wordHandle)) ∧
    (∀ i ls, decodeControl (s.laneBits b) = .ok i → i.lanes = some ls → ls.contains s.lane = false →
      s.issueSplit = .next (s.wordTrap 0x02 s.wordHandle))) ∧
  ∀ (s : State), s.fetch s.cl.pc = .outside → s.issueSplit = .next (s.wordTrap 0x08 s.cl.pc)

/-- R73, R74, R75, R90, R91, R141, R314, R386: a step runs the instruction it decodes. A split cluster whose line is cached runs the word of its
lane; a joined group whose words can all be performed performs them; a line that is missing is filled from memory first; an engine runs the
orders of its step, slot X before slot Y, and goes on to the next step; the copy engine runs the entry at HEAD of the string whose turn it
is; an event of the agenda is run as it stands. An action that would take a trap which another action of its core comes before goes
unperformed. With nothing left at this instant the clock advances one cold cycle.
R3, R13: with nothing left to do at an instant, the clock advances one cold cycle; sixteen make a warm one.
The order of actions within a cycle is the model's choice (log 3). -/
def Obligations.StepsRunTheDecodedInstruction : Prop :=
  (∀ (a : Action) (rest : List Action) (s : State), s.agenda = a :: rest →
     let u := { s with agenda := rest, cur := a.core }
     (State.yields { s with agenda := rest } a = true → step s = .next u) ∧
     (State.yields { s with agenda := rest } a = false →
     (∀ l b i, a.what = .issue l false → let v := { u with lane := l }
       u.core.issues = true → u.core.halting = false → v.cl.split = true → v.cl.readyAt ≤ u.warm →
       (∀ key, v.fetch v.cl.pc = .miss key → step s = .next (v.fillCode key [l])) ∧
       (v.fetch v.cl.pc = .bundle b → decodeControl (v.laneBits b) = .ok i → (∀ ls, i.lanes = some ls → ls.contains l = true) →
         v.core.stopWord l i = false → u.core.substAt = none → step s = exec i v)) ∧
     (∀ l pc b is vs, a.what = .issue l true → u.core.issues = true → u.core.halting = false → u.core.group ≠ [] →
       (∀ k ∈ u.core.group, (u.core.cluster k).readyAt ≤ u.warm ∧ (u.core.cluster k).done = false) → pc = (u.core.cluster (u.core.group.headD .L)).pc →
       State.fetch { u with lane := u.core.group.headD .L } pc = .bundle b → u.decodeGroup b u.core.group = .ok is →
       (∀ x ∈ is, u.core.stopWord x.1 x.2 = false) → twoLoops is = false → judge u is = .ok vs →
       (∀ x ∈ vs, x.2.2 = .done) → step s = u.performGroup pc u.core.group is) ∧
     (∀ e i, a.what = .order e → (u.dieAt (a.core / 64)).stalled = false → (u.core.engine e).run = true → u.core.held = false →
       (u.core.engine e).fill = 0 → (u.core.engine e).skip = 0 → (u.core.engine e).last ≠ u.clock + 1 → u.orderFault e = none →
       let v := (u.openAt e).modCore fun c => c.modEngine e fun y => { y with last := u.clock + 1 }
       (v.core.cold.ordersAt e (u.core.engine e).step = [i] → ∀ t, exec i v = .next t → step s = .next (t.modCore fun c => c.nextStep e)) ∧
       (∀ j, v.core.cold.ordersAt e (u.core.engine e).step = [i, j] → ∀ t t', exec i v = .next t → exec j t = .next t' →
         step s = .next (t'.modCore fun c => c.nextStep e))) ∧
     (∀ k i, a.what = .take → u.turnOf (a.core / 4) = some k →
       let v := { u with cur := k }.modDieAt (k / 64) fun d => { d with turns := Sp.set 0 d.turns (a.core / 4) ((k + 1) % 4) }
       v.takes = true → v.nextWalk.1 = none → v.readEntry = .ok i → step s = exec i v) ∧
     (a.what = .take → u.turnOf (a.core / 4) = none → step s = .next u) ∧
     (∀ i, a.what = .event i → scheduled i = false ∨ (u.dieAt (a.core / 64)).stalled = false → step s = exec i u) ∧
     (∀ e, a.what = .order e → (u.core.engine e).run = true → u.core.held = false → (u.dieAt (a.core / 64)).stalled = false →
       (u.core.engine e).fill ≠ 0 → ∃ t, step s = .next t ∧ (t.core.engine e).fill = (u.core.engine e).fill - 1 ∧ t.mem = s.mem))) ∧
  (∀ (s : State), s.agenda = [] → ∃ t, step s = .next t ∧
     ((s.clock + 1) % 16 ≠ 0 → t.clock = s.clock + 1 ∧ t.mem = s.mem ∧ t.cores = s.cores) ∧
     ((s.clock + 1) % 16 = 0 → s.cores = [] → s.parts = [] → t.clock = s.clock + 1 ∧ t.mem = s.mem ∧ t.cores = []))

/-- R25, R31, R39, R195, R295, R413, R449, R452: what module reset leaves, where the spec gives it: no task, no queue entry, no table entry; clusters
JOINED at zero; TVEC 0, STALLIM 200,000; the cold store zero, tiles with CHKV 1, delays and latches 255, TWIN 254; MCMASK the core itself; CESET 64 and VS 780 mV; and
SCNT zero; the quad rails within the gap limit (R449). That an unwritten byte of warm memory reads 0, and that the LFSRs are seeded by 0, are the
model's choices (logs 2 and 5). -/
def Obligations.ResetLeavesTheSpecsValues : Prop :=
  let r := State.reset
  r.clock = 0 ∧ r.agenda = [] ∧ r.parts = [] ∧ (∀ a, r.byte a = 0) ∧
  (∀ p, (r.pkgAt p).memprot = 0 ∧ (r.pkgAt p).keys = [] ∧ (r.pkgAt p).arms = [] ∧ (r.pkgAt p).boot.released = false) ∧
  (∀ d, (r.dieAt d).vs = 780 ∧ (∀ q, 530 ≤ (r.dieAt d).rail q ∧ (r.dieAt d).rail q ≤ 720) ∧ (r.dieAt d).ceset = 64 ∧ (r.dieAt d).merr = 0 ∧ (r.dieAt d).bank = {} ∧ r.scntOf d = 0) ∧
  ∀ k, let c := r.coreAt k
    c.run = none ∧ c.slot0.state = .empty ∧ c.slot1.state = .empty ∧ c.lq = [] ∧ c.sq = [] ∧ c.eq = [] ∧ c.tok = [] ∧ c.port = [] ∧
    c.l1d = [] ∧ c.l1i = [] ∧ c.tlb = [] ∧ c.oeq = [] ∧ c.shares = [] ∧ c.tvec = 0 ∧ c.stallim = 200000 ∧ c.chksb = 0 ∧ c.rstlbl = 0 ∧
    c.tscratch = 0 ∧ c.inj = 0 ∧ c.mcmask = BitVec.ofNat 64 (2 ^ (k % 4)) ∧ (∀ i, c.cold.lfsrAt i = seedLane 0 i) ∧ c.inHandler = false ∧ c.heatAcc = 0 ∧ c.str.hset = false ∧ c.str.seq = 0 ∧ c.str.halt = false ∧
    (∀ l, (c.cluster l).pc = 0 ∧ (c.cluster l).split = false ∧ (c.cluster l).loops = [] ∧
      ∀ n, (c.cluster l).rg n = 0 ∧ (c.cluster l).rc n = 0 ∧ (c.cluster l).rp n = decide (n = 0)) ∧
    (∀ b a, c.cold.read b a = 0 ∧ c.cold.tagAt b a = 0) ∧ (∀ t e, c.cold.accAt t e = 0 ∧ (c.cold.tileAt t).chkv = true) ∧
    (∀ d i, c.cold.lane d i = 0) ∧ (∀ i, Sp.get 255 c.cold.dly i = 255 ∧ Sp.get 255 c.cold.tin i = 255 ∧ Sp.get 255 c.cold.tout i = 255) ∧
    c.cold.twin = 254 ∧ c.cold.tmode = 0 ∧ c.cold.mdepth = 0 ∧ ∀ n, Sp.get 0 c.cold.ev n = 0 ∧ Sp.get 0 c.cold.flag n = 0 ∧ Sp.get 0 c.cold.chk n = 0

/-- Memory at reset is in canonical form. -/
def Obligations.ResetMemoryIsCanonical : Prop :=
  State.reset.Inv

/-- A step keeps memory in canonical form: addresses rise and no listed byte is zero, so that equal memories are equal data. -/
def Obligations.StepsKeepMemoryCanonical : Prop :=
  ∀ s t : State, s.Inv → step s = .next t → t.Inv
end

