-- ==== Sys2Proof/Laws/Bytes.lean ====
section
/-! SUPPORT. Little-endian bytes: a number and its bytes, and the fields of a record as bytes (R7, R98). -/

namespace Sys2Proof.Laws

@[simp] theorem leBytes_length (n v : Nat) : (leBytes n v).length = n := by
  induction n generalizing v with
  | zero => rfl
  | succ n ih => simp only [leBytes, List.length_cons, ih]

theorem leNat_append (a b : List Byte) : leNat (a ++ b) = leNat a + 256 ^ a.length * leNat b := by
  induction a with
  | nil => simp [leNat]
  | cons x rest ih => simp only [List.cons_append, leNat, ih, List.length_cons, pow_succ]; ring

theorem leNat_lt (a : List Byte) : leNat a < 256 ^ a.length := by
  induction a with
  | nil => simp [leNat]
  | cons x rest ih =>
    simp only [leNat, List.length_cons, pow_succ]
    have := x.isLt
    omega

/-- The bytes of a number give it back modulo their range. -/
theorem leNat_leBytes (n v : Nat) : leNat (leBytes n v) = v % 256 ^ n := by
  induction n generalizing v with
  | zero => simp [leBytes, leNat, Nat.mod_one]
  | succ n ih =>
    simp only [leBytes, leNat, ih, BitVec.toNat_ofNat]
    exact (Nat.pow_succ' ▸ Nat.mod_mul : v % 256 ^ (n + 1) = v % 256 + 256 * (v / 256 % 256 ^ n)).symm

/-- A field of a record is the bytes that stand there. -/
theorem field_append (pre mid post : List Byte) :
    entryField (leNat (pre ++ mid ++ post)) pre.length mid.length = leNat mid := by
  have h1 := leNat_lt pre
  have h2 := leNat_lt mid
  have hp : 0 < 256 ^ pre.length := Nat.pos_of_ne_zero (by positivity)
  simp only [entryField, leNat_append, List.length_append]
  have e : leNat pre + 256 ^ pre.length * leNat mid + 256 ^ (pre.length + mid.length) * leNat post
      = leNat pre + 256 ^ pre.length * (leNat mid + 256 ^ mid.length * leNat post) := by rw [pow_add]; ring
  rw [e, Nat.add_mul_div_left _ _ hp, Nat.div_eq_of_lt h1, Nat.zero_add, Nat.add_mul_mod_self_left, Nat.mod_eq_of_lt h2]

end Sys2Proof.Laws
end

