-- ==== Sys2Proof/Laws/Dispatch.lean ====
section
/-! SUPPORT. The arm of each instruction, so that no proof unfolds the dispatch. -/

namespace Sys2Proof.Laws

open Sys2Proof.Machine

theorem exec_add {sy d a b} (s : State) : exec (.add sy d a b) s = execAdd sy d a b s := rfl
theorem exec_sub {sy d a b} (s : State) : exec (.sub sy d a b) s = execSub sy d a b s := rfl
theorem exec_and {sy d a b} (s : State) : exec (.and sy d a b) s = execAnd sy d a b s := rfl
theorem exec_or {sy d a b} (s : State) : exec (.or sy d a b) s = execOr sy d a b s := rfl
theorem exec_xor {sy d a b} (s : State) : exec (.xor sy d a b) s = execXor sy d a b s := rfl
theorem exec_andn {sy d a b} (s : State) : exec (.andn sy d a b) s = execAndn sy d a b s := rfl
theorem exec_orn {sy d a b} (s : State) : exec (.orn sy d a b) s = execOrn sy d a b s := rfl
theorem exec_sll {sy d a b} (s : State) : exec (.sll sy d a b) s = execSll sy d a b s := rfl
theorem exec_srl {sy d a b} (s : State) : exec (.srl sy d a b) s = execSrl sy d a b s := rfl
theorem exec_sra {sy d a b} (s : State) : exec (.sra sy d a b) s = execSra sy d a b s := rfl
theorem exec_mul {sy d a b} (s : State) : exec (.mul sy d a b) s = execMul sy d a b s := rfl
theorem exec_mulh {sy d a b} (s : State) : exec (.mulh sy d a b) s = execMulh sy d a b s := rfl
theorem exec_mulhu {sy d a b} (s : State) : exec (.mulhu sy d a b) s = execMulhu sy d a b s := rfl
theorem exec_div {sy d a b} (s : State) : exec (.div sy d a b) s = execDiv sy d a b s := rfl
theorem exec_divu {sy d a b} (s : State) : exec (.divu sy d a b) s = execDivu sy d a b s := rfl
theorem exec_rem {sy d a b} (s : State) : exec (.rem sy d a b) s = execRem sy d a b s := rfl
theorem exec_remu {sy d a b} (s : State) : exec (.remu sy d a b) s = execRemu sy d a b s := rfl
theorem exec_min {sy d a b} (s : State) : exec (.min sy d a b) s = execMin sy d a b s := rfl
theorem exec_max {sy d a b} (s : State) : exec (.max sy d a b) s = execMax sy d a b s := rfl
theorem exec_minu {sy d a b} (s : State) : exec (.minu sy d a b) s = execMinu sy d a b s := rfl
theorem exec_maxu {sy d a b} (s : State) : exec (.maxu sy d a b) s = execMaxu sy d a b s := rfl
theorem exec_slt {sy d a b} (s : State) : exec (.slt sy d a b) s = execSlt sy d a b s := rfl
theorem exec_sltu {sy d a b} (s : State) : exec (.sltu sy d a b) s = execSltu sy d a b s := rfl
theorem exec_clz {sy d a} (s : State) : exec (.clz sy d a) s = execClz sy d a s := rfl
theorem exec_ctz {sy d a} (s : State) : exec (.ctz sy d a) s = execCtz sy d a s := rfl
theorem exec_popc {sy d a} (s : State) : exec (.popc sy d a) s = execPopc sy d a s := rfl
theorem exec_addw {sy d a b} (s : State) : exec (.addw sy d a b) s = execAddw sy d a b s := rfl
theorem exec_subw {sy d a b} (s : State) : exec (.subw sy d a b) s = execSubw sy d a b s := rfl
theorem exec_sllw {sy d a b} (s : State) : exec (.sllw sy d a b) s = execSllw sy d a b s := rfl
theorem exec_srlw {sy d a b} (s : State) : exec (.srlw sy d a b) s = execSrlw sy d a b s := rfl
theorem exec_sraw {sy d a b} (s : State) : exec (.sraw sy d a b) s = execSraw sy d a b s := rfl
theorem exec_mulw {sy d a b} (s : State) : exec (.mulw sy d a b) s = execMulw sy d a b s := rfl
theorem exec_addi {sy d a im} (s : State) : exec (.addi sy d a im) s = execAddi sy d a im s := rfl
theorem exec_andi {sy d a im} (s : State) : exec (.andi sy d a im) s = execAndi sy d a im s := rfl
theorem exec_ori {sy d a im} (s : State) : exec (.ori sy d a im) s = execOri sy d a im s := rfl
theorem exec_xori {sy d a im} (s : State) : exec (.xori sy d a im) s = execXori sy d a im s := rfl
theorem exec_slli {sy d a h} (s : State) : exec (.slli sy d a h) s = execSlli sy d a h s := rfl
theorem exec_srli {sy d a h} (s : State) : exec (.srli sy d a h) s = execSrli sy d a h s := rfl
theorem exec_srai {sy d a h} (s : State) : exec (.srai sy d a h) s = execSrai sy d a h s := rfl
theorem exec_slti {sy d a im} (s : State) : exec (.slti sy d a im) s = execSlti sy d a im s := rfl
theorem exec_sltiu {sy d a im} (s : State) : exec (.sltiu sy d a im) s = execSltiu sy d a im s := rfl
theorem exec_lui {sy d im} (s : State) : exec (.lui sy d im) s = execLui sy d im s := rfl
theorem exec_addpc {sy d im} (s : State) : exec (.addpc sy d im) s = execAddpc sy d im s := rfl
theorem exec_pcmp {sy p a b c} (s : State) : exec (.pcmp sy p a b c) s = execPcmp sy p a b c s := rfl
theorem exec_pcmpi {sy c p a im} (s : State) : exec (.pcmpi sy c p a im) s = execPcmpi sy c p a im s := rfl
theorem exec_pand {sy d a b} (s : State) : exec (.pand sy d a b) s = execPand sy d a b s := rfl
theorem exec_por {sy d a b} (s : State) : exec (.por sy d a b) s = execPor sy d a b s := rfl
theorem exec_pxor {sy d a b} (s : State) : exec (.pxor sy d a b) s = execPxor sy d a b s := rfl
theorem exec_pnot {sy d a} (s : State) : exec (.pnot sy d a) s = execPnot sy d a s := rfl
theorem exec_pmov {sy d a} (s : State) : exec (.pmov sy d a) s = execPmov sy d a s := rfl
theorem exec_sel {sy d a b p} (s : State) : exec (.sel sy d a b p) s = execSel sy d a b p s := rfl
theorem exec_br {sy p n o} (s : State) : exec (.br sy p n o) s = execBr sy p n o s := rfl
theorem exec_jal {sy d im} (s : State) : exec (.jal sy d im) s = execJal sy d im s := rfl
theorem exec_jalr {sy d a im} (s : State) : exec (.jalr sy d a im) s = execJalr sy d a im s := rfl
theorem exec_loop {sy p a l} (s : State) : exec (.loop sy p a l) s = execLoop sy p a l s := rfl
theorem exec_lexit {sy p n o} (s : State) : exec (.lexit sy p n o) s = execLexit sy p n o s := rfl
theorem exec_join {n} (s : State) : exec (.join n) s = execJoin n s := rfl
theorem exec_sendl {sy a} (s : State) : exec (.sendl sy a) s = execSendl sy a s := rfl
theorem exec_sendr {sy a} (s : State) : exec (.sendr sy a) s = execSendr sy a s := rfl
theorem exec_recvl {sy d} (s : State) : exec (.recvl sy d) s = execRecvl sy d s := rfl
theorem exec_recvr {sy d} (s : State) : exec (.recvr sy d) s = execRecvr sy d s := rfl
theorem exec_nop {sy} (s : State) : exec (.nop sy) s = execNop sy s := rfl
theorem exec_brk {sy} (s : State) : exec (.brk sy) s = execBrk sy s := rfl
theorem exec_cset {sy c a} (s : State) : exec (.cset sy c a) s = execCset sy c a s := rfl
theorem exec_cget {sy d c} (s : State) : exec (.cget sy d c) s = execCget sy d c s := rfl
theorem exec_cadd {sy d a b} (s : State) : exec (.cadd sy d a b) s = execCadd sy d a b s := rfl
theorem exec_caddi {sy d a im} (s : State) : exec (.caddi sy d a im) s = execCaddi sy d a im s := rfl
theorem exec_ld {sy d a z im} (s : State) : exec (.ld sy d a z im) s = execLd sy d a z im s := rfl
theorem exec_st {sy d a z im} (s : State) : exec (.st sy d a z im) s = execSt sy d a z im s := rfl
theorem exec_loadPerform (s : State) : exec (.loadPerform) s = execLoadPerform s := rfl
theorem exec_loadDataReturn (s : State) : exec (.loadDataReturn) s = execLoadDataReturn s := rfl
theorem exec_storePerform (s : State) : exec (.storePerform) s = execStorePerform s := rfl
theorem exec_qmark {sy dep} (s : State) : exec (.qmark sy dep) s = execQmark sy dep s := rfl
theorem exec_cwb {sy dep a b} (s : State) : exec (.cwb sy dep a b) s = execCwb sy dep a b s := rfl
theorem exec_cinv {sy dep a b} (s : State) : exec (.cinv sy dep a b) s = execCinv sy dep a b s := rfl
theorem exec_cwbinv {sy dep a b} (s : State) : exec (.cwbinv sy dep a b) s = execCwbinv sy dep a b s := rfl
theorem exec_xin {sy dep d a b n m} (s : State) : exec (.xin sy dep d a b n m) s = execXin sy dep d a b n m s := rfl
theorem exec_xinm {sy dep d a b n m} (s : State) : exec (.xinm sy dep d a b n m) s = execXinm sy dep d a b n m s := rfl
theorem exec_xout {sy dep d a b n m} (s : State) : exec (.xout sy dep d a b n m) s = execXout sy dep d a b n m s := rfl
theorem exec_xput {sy dep a k} (s : State) : exec (.xput sy dep a k) s = execXput sy dep a k s := rfl
theorem exec_xget {sy dep d k} (s : State) : exec (.xget sy dep d k) s = execXget sy dep d k s := rfl
theorem exec_xwait {sy dep d p} (s : State) : exec (.xwait sy dep d p) s = execXwait sy dep d p s := rfl
theorem exec_xcancel {sy dep d a} (s : State) : exec (.xcancel sy dep d a) s = execXcancel sy dep d a s := rfl
theorem exec_shpld {sy dep a n} (s : State) : exec (.shpld sy dep a n) s = execShpld sy dep a n s := rfl
theorem exec_shpst {sy dep a n} (s : State) : exec (.shpst sy dep a n) s = execShpst sy dep a n s := rfl
theorem exec_btld {sy dep n} (s : State) : exec (.btld sy dep n) s = execBtld sy dep n s := rfl
theorem exec_shpget {sy dep d n w} (s : State) : exec (.shpget sy dep d n w) s = execShpget sy dep d n w s := rfl
theorem exec_shpset {sy dep a n w} (s : State) : exec (.shpset sy dep a n w) s = execShpset sy dep a n w s := rfl
theorem exec_tstart {sy dep a e} (s : State) : exec (.tstart sy dep a e) s = execTstart sy dep a e s := rfl
theorem exec_tstartEv {sy dep t e} (s : State) : exec (.tstartEv sy dep t e) s = execTstartEv sy dep t e s := rfl
theorem exec_tstop {sy dep e} (s : State) : exec (.tstop sy dep e) s = execTstop sy dep e s := rfl
theorem exec_tbase {sy dep a e} (s : State) : exec (.tbase sy dep a e) s = execTbase sy dep a e s := rfl
theorem exec_tsync {sy dep e} (s : State) : exec (.tsync sy dep e) s = execTsync sy dep e s := rfl
theorem exec_tload {sy dep a b e} (s : State) : exec (.tload sy dep a b e) s = execTload sy dep a b e s := rfl
theorem exec_evcfg {sy dep a n} (s : State) : exec (.evcfg sy dep a n) s = execEvcfg sy dep a n s := rfl
theorem exec_evsig {sy dep n} (s : State) : exec (.evsig sy dep n) s = execEvsig sy dep n s := rfl
theorem exec_evwait {sy dep a n} (s : State) : exec (.evwait sy dep a n) s = execEvwait sy dep a n s := rfl
theorem exec_cptail {sy dep a} (s : State) : exec (.cptail sy dep a) s = execCptail sy dep a s := rfl
theorem exec_cpseq {sy dep d} (s : State) : exec (.cpseq sy dep d) s = execCpseq sy dep d s := rfl
theorem exec_ownLend {sy dep d a b} (s : State) : exec (.ownLend sy dep d a b) s = execOwnLend sy dep d a b s := rfl
theorem exec_ownGive {sy dep d a b} (s : State) : exec (.ownGive sy dep d a b) s = execOwnGive sy dep d a b s := rfl
theorem exec_ownRet {sy dep d a} (s : State) : exec (.ownRet sy dep d a) s = execOwnRet sy dep d a s := rfl
theorem exec_ownSplit {sy dep d a b} (s : State) : exec (.ownSplit sy dep d a b) s = execOwnSplit sy dep d a b s := rfl
theorem exec_ownMerge {sy dep d a b} (s : State) : exec (.ownMerge sy dep d a b) s = execOwnMerge sy dep d a b s := rfl
theorem exec_ownShare {sy dep d a b} (s : State) : exec (.ownShare sy dep d a b) s = execOwnShare sy dep d a b s := rfl
theorem exec_ownUnshare {sy dep d a} (s : State) : exec (.ownUnshare sy dep d a) s = execOwnUnshare sy dep d a s := rfl
theorem exec_ownWait {sy dep d a} (s : State) : exec (.ownWait sy dep d a) s = execOwnWait sy dep d a s := rfl
theorem exec_ownQuery {sy dep d a} (s : State) : exec (.ownQuery sy dep d a) s = execOwnQuery sy dep d a s := rfl
theorem exec_tokenSendComplete (s : State) : exec (.tokenSendComplete) s = execTokenSendComplete s := rfl
theorem exec_bar {sy dep d a m o k} (s : State) : exec (.bar sy dep d a m o k) s = execBar sy dep d a m o k s := rfl
theorem exec_barrierComplete (s : State) : exec (.barrierComplete) s = execBarrierComplete s := rfl
theorem exec_fence {sy dep m} (s : State) : exec (.fence sy dep m) s = execFence sy dep m s := rfl
theorem exec_aadd {sy dep d a b} (s : State) : exec (.aadd sy dep d a b) s = execAadd sy dep d a b s := rfl
theorem exec_aaddf {sy dep d a b} (s : State) : exec (.aaddf sy dep d a b) s = execAaddf sy dep d a b s := rfl
theorem exec_axchg {sy dep d a b} (s : State) : exec (.axchg sy dep d a b) s = execAxchg sy dep d a b s := rfl
theorem exec_a2sum {sy dep d a b} (s : State) : exec (.a2sum sy dep d a b) s = execA2sum sy dep d a b s := rfl
theorem exec_atomApply (s : State) : exec (.atomApply) s = execAtomApply s := rfl
theorem exec_atomComplete (s : State) : exec (.atomComplete) s = execAtomComplete s := rfl
theorem exec_srd {sy d x} (s : State) : exec (.srd sy d x) s = execSrd sy d x s := rfl
theorem exec_swr {sy a x} (s : State) : exec (.swr sy a x) s = execSwr sy a x s := rfl
theorem exec_ecall {sy dep} (s : State) : exec (.ecall sy dep) s = execEcall sy dep s := rfl
theorem exec_tret {sy dep} (s : State) : exec (.tret sy dep) s = execTret sy dep s := rfl
theorem exec_tack {sy dep} (s : State) : exec (.tack sy dep) s = execTack sy dep s := rfl
theorem exec_halt {sy dep} (s : State) : exec (.halt sy dep) s = execHalt sy dep s := rfl
theorem exec_wfi {sy dep} (s : State) : exec (.wfi sy dep) s = execWfi sy dep s := rfl
theorem exec_oeqpop {sy dep d} (s : State) : exec (.oeqpop sy dep d) s = execOeqpop sy dep d s := rfl
theorem exec_rotpt {sy dep} (s : State) : exec (.rotpt sy dep) s = execRotpt sy dep s := rfl
theorem exec_iinv {sy dep} (s : State) : exec (.iinv sy dep) s = execIinv sy dep s := rfl
theorem exec_tstatWrite {v} (s : State) : exec (.tstatWrite v) s = execTstatWrite v s := rfl
theorem exec_oeqstatWrite {v} (s : State) : exec (.oeqstatWrite v) s = execOeqstatWrite v s := rfl
theorem exec_heatbudWrite {manager v} (s : State) : exec (.heatbudWrite manager v) s = execHeatbudWrite manager v s := rfl
theorem exec_injWrite {v} (s : State) : exec (.injWrite v) s = execInjWrite v s := rfl
theorem exec_engineCommandPerform (s : State) : exec (.engineCommandPerform) s = execEngineCommandPerform s := rfl
theorem exec_crossingAdmit {q} (s : State) : exec (.crossingAdmit q) s = execCrossingAdmit q s := rfl
theorem exec_crossingComplete {seq} (s : State) : exec (.crossingComplete seq) s = execCrossingComplete seq s := rfl
theorem exec_xoutCapture {seq} (s : State) : exec (.xoutCapture seq) s = execXoutCapture seq s := rfl
theorem exec_unitStall (s : State) : exec (.unitStall) s = execUnitStall s := rfl
theorem exec_smiss (s : State) : exec (.smiss) s = execSmiss s := rfl
theorem exec_depto {c} (s : State) : exec (.depto c) s = execDepto c s := rfl
theorem exec_plen {c} (s : State) : exec (.plen c) s = execPlen c s := rfl
theorem exec_tableStart {e} (s : State) : exec (.tableStart e) s = execTableStart e s := rfl
theorem exec_termFire {n} (s : State) : exec (.termFire n) s = execTermFire n s := rfl
theorem exec_engineIdle {e} (s : State) : exec (.engineIdle e) s = execEngineIdle e s := rfl
theorem exec_mnop {w} (s : State) : exec (.mnop w) s = execMnop w s := rfl
theorem exec_mma {w f x g k o a b c} (s : State) : exec (.mma w f x g k o a b c) s = execMma w f x g k o a b c s := rfl
theorem exec_mldm {w d p k} (s : State) : exec (.mldm w d p k) s = execMldm w d p k s := rfl
theorem exec_mscale {w a p sy b} (s : State) : exec (.mscale w a p sy b) s = execMscale w a p sy b s := rfl
theorem exec_mstore {w a p k g h} (s : State) : exec (.mstore w a p k g h) s = execMstore w a p k g h s := rfl
theorem exec_mzero {w a} (s : State) : exec (.mzero w a) s = execMzero w a s := rfl
theorem exec_mdrain {w a d c} (s : State) : exec (.mdrain w a d c) s = execMdrain w a d c s := rfl
theorem exec_drainArrive (s : State) : exec (.drainArrive) s = execDrainArrive s := rfl
theorem exec_mchk {w a} (s : State) : exec (.mchk w a) s = execMchk w a s := rfl
theorem exec_mfix {w a im j} (s : State) : exec (.mfix w a im j) s = execMfix w a im j s := rfl
theorem exec_mcopy {w a sy} (s : State) : exec (.mcopy w a sy) s = execMcopy w a sy s := rfl
theorem exec_mlda {w a p k e} (s : State) : exec (.mlda w a p k e) s = execMlda w a p k e s := rfl
theorem exec_ma2s {w h l sy} (s : State) : exec (.ma2s w h l sy) s = execMa2s w h l sy s := rfl
theorem exec_mtile {w} (s : State) : exec (.mtile w) s = execMtile w s := rfl
theorem exec_mloop {w p c l} (s : State) : exec (.mloop w p c l) s = execMloop w p c l s := rfl
theorem exec_mflag {w f v} (s : State) : exec (.mflag w f v) s = execMflag w f v s := rfl
theorem exec_mwaits {w n} (s : State) : exec (.mwaits w n) s = execMwaits w n s := rfl
theorem exec_mmask {w q} (s : State) : exec (.mmask w q) s = execMmask w q s := rfl
theorem exec_mcbt {w p f c} (s : State) : exec (.mcbt w p f c) s = execMcbt w p f c s := rfl
theorem exec_vnop {w} (s : State) : exec (.vnop w) s = execVnop w s := rfl
theorem exec_vadd {w d a b m} (s : State) : exec (.vadd w d a b m) s = execVadd w d a b m s := rfl
theorem exec_vsub {w d a b m} (s : State) : exec (.vsub w d a b m) s = execVsub w d a b m s := rfl
theorem exec_vmul {w d a b m} (s : State) : exec (.vmul w d a b m) s = execVmul w d a b m s := rfl
theorem exec_vfma {w d a b m} (s : State) : exec (.vfma w d a b m) s = execVfma w d a b m s := rfl
theorem exec_vmin {w d a b} (s : State) : exec (.vmin w d a b) s = execVmin w d a b s := rfl
theorem exec_vmax {w d a b} (s : State) : exec (.vmax w d a b) s = execVmax w d a b s := rfl
theorem exec_vabs {w d a} (s : State) : exec (.vabs w d a) s = execVabs w d a s := rfl
theorem exec_vneg {w d a} (s : State) : exec (.vneg w d a) s = execVneg w d a s := rfl
theorem exec_vcmp {w a b im c} (s : State) : exec (.vcmp w a b im c) s = execVcmp w a b im c s := rfl
theorem exec_vcvt {w d a g x m h} (s : State) : exec (.vcvt w d a g x m h) s = execVcvt w d a g x m h s := rfl
theorem exec_vexp2 {w d a} (s : State) : exec (.vexp2 w d a) s = execVexp2 w d a s := rfl
theorem exec_vexpd {w d a b} (s : State) : exec (.vexpd w d a b) s = execVexpd w d a b s := rfl
theorem exec_vlog2 {w d a} (s : State) : exec (.vlog2 w d a) s = execVlog2 w d a s := rfl
theorem exec_vrcp {w d a} (s : State) : exec (.vrcp w d a) s = execVrcp w d a s := rfl
theorem exec_vrsq {w d a} (s : State) : exec (.vrsq w d a) s = execVrsq w d a s := rfl
theorem exec_viadd {w d a b} (s : State) : exec (.viadd w d a b) s = execViadd w d a b s := rfl
theorem exec_visub {w d a b} (s : State) : exec (.visub w d a b) s = execVisub w d a b s := rfl
theorem exec_vimul {w d a b} (s : State) : exec (.vimul w d a b) s = execVimul w d a b s := rfl
theorem exec_vand {w d a b} (s : State) : exec (.vand w d a b) s = execVand w d a b s := rfl
theorem exec_vor {w d a b} (s : State) : exec (.vor w d a b) s = execVor w d a b s := rfl
theorem exec_vxor {w d a b} (s : State) : exec (.vxor w d a b) s = execVxor w d a b s := rfl
theorem exec_vshl {w d a b} (s : State) : exec (.vshl w d a b) s = execVshl w d a b s := rfl
theorem exec_vshr {w d a b} (s : State) : exec (.vshr w d a b) s = execVshr w d a b s := rfl
theorem exec_vsar {w d a b} (s : State) : exec (.vsar w d a b) s = execVsar w d a b s := rfl
theorem exec_vsel {w d a b} (s : State) : exec (.vsel w d a b) s = execVsel w d a b s := rfl
theorem exec_vmov {w d a} (s : State) : exec (.vmov w d a) s = execVmov w d a s := rfl
theorem exec_vbcast {w d a n} (s : State) : exec (.vbcast w d a n) s = execVbcast w d a n s := rfl
theorem exec_vperm {w d a b} (s : State) : exec (.vperm w d a b) s = execVperm w d a b s := rfl
theorem exec_vred {w d a im g o} (s : State) : exec (.vred w d a im g o) s = execVred w d a im g o s := rfl
theorem exec_vscan {w d a im g o} (s : State) : exec (.vscan w d a im g o) s = execVscan w d a im g o s := rfl
theorem exec_vsegid {w d a} (s : State) : exec (.vsegid w d a) s = execVsegid w d a s := rfl
theorem exec_vld {w d n k} (s : State) : exec (.vld w d n k) s = execVld w d n k s := rfl
theorem exec_vst {w n b k} (s : State) : exec (.vst w n b k) s = execVst w n b k s := rfl
theorem exec_vldacc {w d q c} (s : State) : exec (.vldacc w d q c) s = execVldacc w d q c s := rfl
theorem exec_vstacc {w q b c e} (s : State) : exec (.vstacc w q b c e) s = execVstacc w q b c e s := rfl
theorem exec_vparam {w d k} (s : State) : exec (.vparam w d k) s = execVparam w d k s := rfl
theorem exec_mpush {w a} (s : State) : exec (.mpush w a) s = execMpush w a s := rfl
theorem exec_minv {w} (s : State) : exec (.minv w) s = execMinv w s := rfl
theorem exec_mpop {w d} (s : State) : exec (.mpop w d) s = execMpop w d s := rfl
theorem exec_mskz {w n} (s : State) : exec (.mskz w n) s = execMskz w n s := rfl
theorem exec_vloop {w p c l} (s : State) : exec (.vloop w p c l) s = execVloop w p c l s := rfl
theorem exec_vflag {w n v} (s : State) : exec (.vflag w n v) s = execVflag w n v s := rfl
theorem exec_vwaits {w n} (s : State) : exec (.vwaits w n) s = execVwaits w n s := rfl
theorem exec_tnop {w} (s : State) : exec (.tnop w) s = execTnop w s := rfl
theorem exec_tdload {w f c sy} (s : State) : exec (.tdload w f c sy) s = execTdload w f c sy s := rfl
theorem exec_tmode {w c m} (s : State) : exec (.tmode w c m) s = execTmode w c m s := rfl
theorem exec_tmodeAll {w m} (s : State) : exec (.tmodeAll w m) s = execTmodeAll w m s := rfl
theorem exec_tmodeTs {w} (s : State) : exec (.tmodeTs w) s = execTmodeTs w s := rfl
theorem exec_twset {w n} (s : State) : exec (.twset w n) s = execTwset w n s := rfl
theorem exec_tlaunch {w a} (s : State) : exec (.tlaunch w a) s = execTlaunch w a s := rfl
theorem exec_temporalEvalLand (s : State) : exec (.temporalEvalLand) s = execTemporalEvalLand s := rfl
theorem exec_tcapture {w d} (s : State) : exec (.tcapture w d) s = execTcapture w d s := rfl
theorem exec_treset {w} (s : State) : exec (.treset w) s = execTreset w s := rfl
theorem exec_trelax {w n} (s : State) : exec (.trelax w n) s = execTrelax w n s := rfl
theorem exec_tflag {w f v} (s : State) : exec (.tflag w f v) s = execTflag w f v s := rfl
theorem exec_copy {e} (s : State) : exec (.copy e) s = execCopy e s := rfl
theorem exec_copys {e} (s : State) : exec (.copys e) s = execCopys e s := rfl
theorem exec_fill {e} (s : State) : exec (.fill e) s = execFill e s := rfl
theorem exec_bcast {e} (s : State) : exec (.bcast e) s = execBcast e s := rfl
theorem exec_cksum {e} (s : State) : exec (.cksum e) s = execCksum e s := rfl
theorem exec_signal {e} (s : State) : exec (.signal e) s = execSignal e s := rfl
theorem exec_waitseq {e} (s : State) : exec (.waitseq e) s = execWaitseq e s := rfl
theorem exec_tokret {e} (s : State) : exec (.tokret e) s = execTokret e s := rfl
theorem exec_link {e} (s : State) : exec (.link e) s = execLink e s := rfl
theorem exec_mirwait {e} (s : State) : exec (.mirwait e) s = execMirwait e s := rfl
theorem exec_entryComplete (s : State) : exec (.entryComplete) s = execEntryComplete s := rfl
theorem exec_mirrorAck (s : State) : exec (.mirrorAck) s = execMirrorAck s := rfl
theorem exec_mirrorTimeout (s : State) : exec (.mirrorTimeout) s = execMirrorTimeout s := rfl
theorem exec_heatWindow (s : State) : exec (.heatWindow) s = execHeatWindow s := rfl
theorem exec_trapEntry {cause addr} (s : State) : exec (.trapEntry cause addr) s = execTrapEntry cause addr s := rfl
theorem exec_preemptionRequest {rotation} (s : State) : exec (.preemptionRequest rotation) s = execPreemptionRequest rotation s := rfl
theorem exec_stopPoint (s : State) : exec (.stopPoint) s = execStopPoint s := rfl
theorem exec_contextSave (s : State) : exec (.contextSave) s = execContextSave s := rfl
theorem exec_contextRestore (s : State) : exec (.contextRestore) s = execContextRestore s := rfl
theorem exec_rotation {pkg die} (s : State) : exec (.rotation pkg die) s = execRotation pkg die s := rfl
theorem exec_rotationRebind {pkg die} (s : State) : exec (.rotationRebind pkg die) s = execRotationRebind pkg die s := rfl
theorem exec_admission {part queue} (s : State) : exec (.admission part queue) s = execAdmission part queue s := rfl
theorem exec_admissionRetest {part} (s : State) : exec (.admissionRetest part) s = execAdmissionRetest part s := rfl
theorem exec_taskStart {slot} (s : State) : exec (.taskStart slot) s = execTaskStart slot s := rfl
theorem exec_graphNodeRelease {part launch} (s : State) : exec (.graphNodeRelease part launch) s = execGraphNodeRelease part launch s := rfl
theorem exec_graphReplay {part queue} (s : State) : exec (.graphReplay part queue) s = execGraphReplay part queue s := rfl
theorem exec_launchCompletion {part launch} (s : State) : exec (.launchCompletion part launch) s = execLaunchCompletion part launch s := rfl
theorem exec_messageMatch {pkg tag payload} (s : State) : exec (.messageMatch pkg tag payload) s = execMessageMatch pkg tag payload s := rfl
theorem exec_frameClassify {pkg port ethertype payload} (s : State) : exec (.frameClassify pkg port ethertype payload) s = execFrameClassify pkg port ethertype payload s := rfl
theorem exec_messageSend {pkg} (s : State) : exec (.messageSend pkg) s = execMessageSend pkg s := rfl
theorem exec_launchArmWrite {pkg entry part queue v} (s : State) : exec (.launchArmWrite pkg entry part queue v) s = execLaunchArmWrite pkg entry part queue v s := rfl
theorem exec_regionEntryWrite {part entry v} (s : State) : exec (.regionEntryWrite part entry v) s = execRegionEntryWrite part entry v s := rfl
theorem exec_keySlotLoad {pkg slot key} (s : State) : exec (.keySlotLoad pkg slot key) s = execKeySlotLoad pkg slot key s := rfl
theorem exec_memprotWrite {pkg v} (s : State) : exec (.memprotWrite pkg v) s = execMemprotWrite pkg v s := rfl
theorem exec_errorBankClear {pkg v} (s : State) : exec (.errorBankClear pkg v) s = execErrorBankClear pkg v s := rfl
theorem exec_cesetWrite {pkg die v} (s : State) : exec (.cesetWrite pkg die v) s = execCesetWrite pkg die v s := rfl
theorem exec_scrub {pkg die found} (s : State) : exec (.scrub pkg die found) s = execScrub pkg die found s := rfl
theorem exec_marginStep {pkg die} (s : State) : exec (.marginStep pkg die) s = execMarginStep pkg die s := rfl
theorem exec_marginError {pkg die core rereadOk found} (s : State) : exec (.marginError pkg die core rereadOk found) s = execMarginError pkg die core rereadOk found s := rfl
theorem exec_cesetRestore {pkg die} (s : State) : exec (.cesetRestore pkg die) s = execCesetRestore pkg die s := rfl
theorem exec_droop {pkg die quad} (s : State) : exec (.droop pkg die quad) s = execDroop pkg die quad s := rfl
theorem exec_droopRaise {pkg die quad} (s : State) : exec (.droopRaise pkg die quad) s = execDroopRaise pkg die quad s := rfl
theorem exec_clockHop {pkg die quad} (s : State) : exec (.clockHop pkg die quad) s = execClockHop pkg die quad s := rfl
theorem exec_stageTemperature {pkg t4 t50 lift} (s : State) : exec (.stageTemperature pkg t4 t50 lift) s = execStageTemperature pkg t4 t50 lift s := rfl
theorem exec_drainDeadline {pkg} (s : State) : exec (.drainDeadline pkg) s = execDrainDeadline pkg s := rfl
theorem exec_flitCrcFail {pkg die port} (s : State) : exec (.flitCrcFail pkg die port) s = execFlitCrcFail pkg die port s := rfl
theorem exec_portFail {pkg die port} (s : State) : exec (.portFail pkg die port) s = execPortFail pkg die port s := rfl
theorem exec_packageFailure {pkg} (s : State) : exec (.packageFailure pkg) s = execPackageFailure pkg s := rfl
theorem exec_coreFailure {pkg core} (s : State) : exec (.coreFailure pkg core) s = execCoreFailure pkg core s := rfl
theorem exec_moduleReset {pkg boot} (s : State) : exec (.moduleReset pkg boot) s = execModuleReset pkg boot s := rfl
theorem exec_coldHandshakeTimeout {pkg} (s : State) : exec (.coldHandshakeTimeout pkg) s = execColdHandshakeTimeout pkg s := rfl
theorem exec_lockstepMismatch {pkg boot} (s : State) : exec (.lockstepMismatch pkg boot) s = execLockstepMismatch pkg boot s := rfl
theorem exec_wfiTimeout (s : State) : exec (.wfiTimeout) s = execWfiTimeout s := rfl
theorem exec_tlbWalkReturn (s : State) : exec (.tlbWalkReturn) s = execTlbWalkReturn s := rfl
theorem exec_launchKill {part launch} (s : State) : exec (.launchKill part launch) s = execLaunchKill part launch s := rfl
theorem exec_parkedSpanHandover {part token peer clearTaint} (s : State) : exec (.parkedSpanHandover part token peer clearTaint) s = execParkedSpanHandover part token peer clearTaint s := rfl
theorem exec_kernelLoad {part image} (s : State) : exec (.kernelLoad part image) s = execKernelLoad part image s := rfl
theorem exec_codePatch {part h word} (s : State) : exec (.codePatch part h word) s = execCodePatch part h word s := rfl
theorem exec_hostStore {part h bytes} (s : State) : exec (.hostStore part h bytes) s = execHostStore part h bytes s := rfl
theorem exec_deviceDma {part h write} (s : State) : exec (.deviceDma part h write) s = execDeviceDma part h write s := rfl
theorem exec_quadRailSet {pkg die quad mv} (s : State) : exec (.quadRailSet pkg die quad mv) s = execQuadRailSet pkg die quad mv s := rfl
theorem exec_droopRecovery {pkg die quad} (s : State) : exec (.droopRecovery pkg die quad) s = execDroopRecovery pkg die quad s := rfl
theorem exec_bankFailure {pkg stripe} (s : State) : exec (.bankFailure pkg stripe) s = execBankFailure pkg stripe s := rfl
theorem exec_bankRebuildComplete {pkg stripe} (s : State) : exec (.bankRebuildComplete pkg stripe) s = execBankRebuildComplete pkg stripe s := rfl

end Sys2Proof.Laws
end

