-- ==== Sys2Proof/Laws/Fields.lean ====
section
/-! SUPPORT. Fields of appended bit vectors: where an encoder's word is read by the decoder. -/

namespace Sys2Proof.Laws

/-- A field of a field is a field of the word. -/
theorem extract_extract {w : Nat} (x : BitVec w) (s l s' l' : Nat) (h : s' + l' ≤ l) :
    (x.extractLsb' s l).extractLsb' s' l' = x.extractLsb' (s + s') l' := by
  apply BitVec.eq_of_getLsbD_eq
  intro i hi
  have h1 : decide (i < l') = true := by simpa using hi
  have h2 : decide (s' + i < l) = true := by simp only [decide_eq_true_eq]; omega
  simp only [BitVec.getLsbD_extractLsb', h1, h2, Bool.true_and, Nat.add_assoc]

/-- A change of the width's spelling leaves every field. -/
theorem extract_cast {v w : Nat} (h : v = w) (x : BitVec v) (s l : Nat) :
    (x.cast h).extractLsb' s l = x.extractLsb' s l := by
  subst h; rfl

/-- `assigned` lets a well-formed instruction through. -/
theorem assigned_ok {i : Instr} (h : i.wf = true) : assigned (.ok i) = .ok i := by
  simp only [assigned, h, if_true]

/-- MAJ of each format of a control word (R78). -/
theorem fmtKR_maj (s : BitVec 1) (m : BitVec 6) (d a b : BitVec 5) (fn : BitVec 10) :
    (fmtKR s m d a b fn).extractLsb' 25 6 = m := by
  show @BitVec.extractLsb' (1+6+5+5+5+10) 25 6 (s ++ m ++ d ++ a ++ b ++ fn) = m
  simp (disch := decide) only [BitVec.extractLsb'_append_eq_of_le, BitVec.extractLsb'_append_eq_of_add_le]
  exact BitVec.extractLsb'_eq_self

theorem fmtKI_maj (s : BitVec 1) (m : BitVec 6) (d a : BitVec 5) (i : BitVec 15) : (fmtKI s m d a i).extractLsb' 25 6 = m := by
  show @BitVec.extractLsb' (1+6+5+5+15) 25 6 (s ++ m ++ d ++ a ++ i) = m
  simp (disch := decide) only [BitVec.extractLsb'_append_eq_of_le, BitVec.extractLsb'_append_eq_of_add_le]
  exact BitVec.extractLsb'_eq_self

theorem fmtKM_maj (s : BitVec 1) (m : BitVec 6) (d a : BitVec 5) (z : BitVec 3) (i : BitVec 12) :
    (fmtKM s m d a z i).extractLsb' 25 6 = m := by
  show @BitVec.extractLsb' (1+6+5+5+3+12) 25 6 (s ++ m ++ d ++ a ++ z ++ i) = m
  simp (disch := decide) only [BitVec.extractLsb'_append_eq_of_le, BitVec.extractLsb'_append_eq_of_add_le]
  exact BitVec.extractLsb'_eq_self

theorem fmtKU_maj (s : BitVec 1) (m : BitVec 6) (d : BitVec 5) (i : BitVec 20) : (fmtKU s m d i).extractLsb' 25 6 = m := by
  show @BitVec.extractLsb' (1+6+5+20) 25 6 (s ++ m ++ d ++ i) = m
  simp (disch := decide) only [BitVec.extractLsb'_append_eq_of_le, BitVec.extractLsb'_append_eq_of_add_le]
  exact BitVec.extractLsb'_eq_self

theorem fmtKB_maj (s : BitVec 1) (m : BitVec 6) (p : BitVec 2) (n : BitVec 1) (o : BitVec 22) :
    (fmtKB s m p n o).extractLsb' 25 6 = m := by
  show @BitVec.extractLsb' (1+6+2+1+22) 25 6 (s ++ m ++ p ++ n ++ o) = m
  simp (disch := decide) only [BitVec.extractLsb'_append_eq_of_le, BitVec.extractLsb'_append_eq_of_add_le]
  exact BitVec.extractLsb'_eq_self

theorem fmtKP_maj (s : BitVec 1) (m : BitVec 6) (dep : BitVec 4) (d a b : BitVec 5) (fn : BitVec 6) :
    (fmtKP s m dep d a b fn).extractLsb' 25 6 = m := by
  show @BitVec.extractLsb' (1+6+4+5+5+5+6) 25 6 (s ++ m ++ dep ++ d ++ a ++ b ++ fn) = m
  simp (disch := decide) only [BitVec.extractLsb'_append_eq_of_le, BitVec.extractLsb'_append_eq_of_add_le]
  exact BitVec.extractLsb'_eq_self

/-- A control word with MAJ 0x01 to 0x1F is what `decodeScalar` reads. -/
theorem scalar_ok {w : Word32} (m : BitVec 6) {i : Instr} (hm : w.extractLsb' 25 6 = m) (h0 : m ≠ 0) (h1 : m.extractLsb' 5 1 = 0)
    (h : decodeScalar (w.extractLsb' 31 1) m (w.extractLsb' 0 25) = .ok i) (hw : i.wf = true) : decodeControl w = .ok i := by
  subst hm
  simp only [decodeControl, if_neg h0, if_pos h1, h, assigned_ok hw]

/-- A control word with MAJ 0x20 to 0x3F is what `decodePort` reads. -/
theorem port_ok {w : Word32} (m : BitVec 6) {i : Instr} (hm : w.extractLsb' 25 6 = m) (h0 : m ≠ 0) (h1 : m.extractLsb' 5 1 ≠ 0)
    (h : decodePort (w.extractLsb' 31 1) m (w.extractLsb' 0 25) = .ok i) (hw : i.wf = true) : decodeControl w = .ok i := by
  subst hm
  simp only [decodeControl, if_neg h0, if_neg h1, h, assigned_ok hw]

/-- A field within the low part, or within the high part, of an appended vector. -/
theorem low_part {v w : Nat} (x : BitVec v) (y : BitVec w) (s l : Nat) (h : s + l ≤ w) :
    @BitVec.extractLsb' (v + w) s l (x ++ y) = y.extractLsb' s l := BitVec.extractLsb'_append_eq_of_add_le h

theorem high_part {v w : Nat} (x : BitVec v) (y : BitVec w) (s l : Nat) (h : w ≤ s) :
    @BitVec.extractLsb' (v + w) s l (x ++ y) = x.extractLsb' (s - w) l := BitVec.extractLsb'_append_eq_of_le h

/-- The sub-decoders on fields padded to their width. -/
theorem decodeShi_pad (s : BitVec 1) (d a : BitVec 5) (k : BitVec 9) (h : BitVec 6) (hz : k.extractLsb' 0 7 = 0) :
    decodeShi s d a (k ++ h) =
      match k.extractLsb' 7 2 with
      | 0#2 => .ok (.slli s d a h)
      | 1#2 => .ok (.srli s d a h)
      | 2#2 => .ok (.srai s d a h)
      | _ => .error .unassignedCode := by
  have e1 : @BitVec.extractLsb' 15 0 6 (k ++ h) = h := (low_part k h 0 6 (by decide)).trans BitVec.extractLsb'_eq_self
  have e2 : @BitVec.extractLsb' 15 6 7 (k ++ h) = 0 := (high_part k h 6 7 (by decide)).trans hz
  have e3 : @BitVec.extractLsb' 15 13 2 (k ++ h) = k.extractLsb' 7 2 := high_part k h 13 2 (by decide)
  simp only [decodeShi, e1, e2, e3, clear, decide_true, if_true]
  all_goals rfl

theorem pad3 (x : BitVec 2) : @BitVec.extractLsb' 5 0 2 (0#3 ++ x) = x ∧ @BitVec.extractLsb' 5 2 3 (0#3 ++ x) = 0 := by
  revert x; decide

theorem pad2 (x : BitVec 3) : @BitVec.extractLsb' 5 0 3 (0#2 ++ x) = x ∧ @BitVec.extractLsb' 5 3 2 (0#2 ++ x) = 0 := by
  revert x; decide

theorem pad1 (x : BitVec 4) : @BitVec.extractLsb' 5 0 4 (0#1 ++ x) = x ∧ @BitVec.extractLsb' 5 4 1 (0#1 ++ x) = 0 := by
  revert x; decide

theorem padFn (k : BitVec 2) (x : BitVec 4) : @BitVec.extractLsb' 6 0 4 (k ++ x) = x ∧ @BitVec.extractLsb' 6 4 2 (k ++ x) = k := by
  revert k x; decide

theorem padEngine (k : BitVec 4) (x : BitVec 2) :
    @BitVec.extractLsb' 6 0 2 (k ++ x) = x ∧ @BitVec.extractLsb' 6 2 1 (k ++ x) = k.extractLsb' 0 1 ∧
      @BitVec.extractLsb' 6 3 3 (k ++ x) = k.extractLsb' 1 3 := by
  revert k x; decide

end Sys2Proof.Laws
end

