-- ==== Sys2Proof/Laws/Sparse.lean ====
section
/-! SUPPORT. The sparse map: reading after writing, and the canonical form every write keeps. -/

namespace Sys2Proof.Laws

variable {α : Type}

theorem get_dropUpTo (d : α) (m : Sp α) (k j : Nat) (h : k < j) : Sp.get d (Sp.dropUpTo k m) j = Sp.get d m j := by
  induction m with
  | nil => rfl
  | cons x rest ih =>
    obtain ⟨i, v⟩ := x
    simp only [Sp.dropUpTo]
    split
    · rw [ih]; simp only [Sp.get]; rw [if_neg (by omega), if_neg (by omega)]
    · rfl

theorem get_dropUpTo_below (d : α) (m : Sp α) (k j : Nat) (h : j ≤ k) : Sp.get d (Sp.dropUpTo k m) j = d := by
  induction m with
  | nil => rfl
  | cons x rest ih =>
    obtain ⟨i, v⟩ := x
    simp only [Sp.dropUpTo]
    split
    · exact ih
    · simp only [Sp.get]; rw [if_pos (by omega)]

/-- Reading after `put`. -/
theorem get_put (d : α) (m : Sp α) (k j : Nat) (v : α) : Sp.get d (Sp.put m k v) j = if j = k then v else Sp.get d m j := by
  induction m with
  | nil => simp only [Sp.put, Sp.get]; split_ifs <;> first | rfl | omega
  | cons x rest ih =>
    obtain ⟨i, w⟩ := x
    simp only [Sp.put]
    split_ifs with h1 h2
    all_goals simp only [Sp.get, ih]
    all_goals split_ifs
    all_goals first | rfl | omega | exact get_dropUpTo _ _ _ _ (by omega)

@[simp] theorem get_put_self (d : α) (m : Sp α) (k : Nat) (v : α) : Sp.get d (Sp.put m k v) k = v := by
  rw [get_put, if_pos rfl]

theorem get_put_other (d : α) (m : Sp α) {k j : Nat} (v : α) (h : j ≠ k) : Sp.get d (Sp.put m k v) j = Sp.get d m j := by
  rw [get_put, if_neg h]

variable [DecidableEq α]

/-- Reading after `set`. -/
theorem get_set (d : α) (m : Sp α) (k j : Nat) (v : α) : Sp.get d (Sp.set d m k v) j = if j = k then v else Sp.get d m j := by
  induction m with
  | nil =>
    simp only [Sp.set]
    split_ifs with h1 h2
    all_goals simp only [Sp.get, h1]
    all_goals split_ifs
    all_goals first | rfl | omega
  | cons x rest ih =>
    obtain ⟨i, w⟩ := x
    simp only [Sp.set]
    by_cases h1 : k < i
    · rw [if_pos h1]
      by_cases h2 : v = d
      · rw [if_pos h2]
        by_cases h3 : j = k
        · rw [if_pos h3, h2]; simp only [Sp.get]; rw [if_pos (by omega)]
        · rw [if_neg h3]
      · rw [if_neg h2]; simp only [Sp.get]
        split_ifs
        all_goals first | rfl | omega
    · rw [if_neg h1]
      by_cases h2 : k = i
      · rw [if_pos h2]
        by_cases h3 : v = d
        · rw [if_pos h3]
          by_cases h4 : j ≤ k
          · rw [get_dropUpTo_below _ _ _ _ h4]
            simp only [Sp.get]
            split_ifs
            all_goals first | rfl | omega | exact h3.symm
          · rw [get_dropUpTo _ _ _ _ (by omega)]
            simp only [Sp.get]
            split_ifs
            all_goals first | rfl | omega
        · rw [if_neg h3]; simp only [Sp.get]
          split_ifs
          all_goals first | rfl | omega | exact get_dropUpTo _ _ _ _ (by omega)
      · rw [if_neg h2]; simp only [Sp.get, ih]
        split_ifs
        all_goals first | rfl | omega

@[simp] theorem get_set_self (d : α) (m : Sp α) (k : Nat) (v : α) : Sp.get d (Sp.set d m k v) k = v := by
  rw [get_set, if_pos rfl]

theorem get_set_other (d : α) (m : Sp α) {k j : Nat} (v : α) (h : j ≠ k) : Sp.get d (Sp.set d m k v) j = Sp.get d m j := by
  rw [get_set, if_neg h]

/-! ## The canonical form -/

/-- Every index of a list lies above `k`. -/
def Above (k : Nat) : Sp α → Prop
  | [] => True
  | (i, _) :: _ => k < i

theorem wf_cons (d : α) (i : Nat) (v : α) (rest : Sp α) :
    Sp.wf d ((i, v) :: rest) = true ↔ v ≠ d ∧ Above i rest ∧ Sp.wf d rest = true := by
  cases rest with
  | nil => simp [Sp.wf, Above]
  | cons y ys => obtain ⟨j, w⟩ := y; simp [Sp.wf, Above, and_assoc]

theorem dropUpTo_above (k : Nat) (m : Sp α) (h : Above k m) : Sp.dropUpTo k m = m := by
  cases m with
  | nil => rfl
  | cons x rest => obtain ⟨i, v⟩ := x; simp only [Sp.dropUpTo]; rw [if_neg (by simp only [Above] at h; omega)]

theorem above_mono {k i : Nat} (h : k < i) (m : Sp α) (hm : Above i m) : Above k m := by
  cases m with
  | nil => trivial
  | cons x rest => obtain ⟨j, v⟩ := x; simp only [Above] at *; omega

theorem above_set (d : α) (m : Sp α) (i k : Nat) (v : α) (h : i < k) (hw : Sp.wf d m = true) (hm : Above i m) : Above i (Sp.set d m k v) := by
  cases m with
  | nil => simp only [Sp.set]; split <;> simp [Above, h]
  | cons x rest =>
    obtain ⟨j, w⟩ := x
    obtain ⟨-, ha, -⟩ := (wf_cons d j w rest).1 hw
    simp only [Above] at hm
    simp only [Sp.set]
    split
    · split <;> simp [Above, h, hm]
    · split
      · next h1 h2 =>
        subst h2
        rw [dropUpTo_above _ _ ha]
        split
        · exact above_mono h _ ha
        · simpa [Above] using h
      · simpa [Above] using hm

/-- A write keeps the canonical form. -/
theorem wf_set (d : α) (m : Sp α) (k : Nat) (v : α) (h : Sp.wf d m = true) : Sp.wf d (Sp.set d m k v) = true := by
  induction m with
  | nil =>
    simp only [Sp.set]
    split
    · rfl
    · next hv => simp [Sp.wf, hv]
  | cons x rest ih =>
    obtain ⟨i, w⟩ := x
    obtain ⟨hw, ha, hr⟩ := (wf_cons d i w rest).1 h
    simp only [Sp.set]
    split
    · next hk =>
      split
      · exact h
      · next hv => exact (wf_cons ..).2 ⟨hv, hk, h⟩
    · split
      · next h1 h2 =>
        subst h2
        rw [dropUpTo_above _ _ ha]
        split
        · exact hr
        · next hv => exact (wf_cons ..).2 ⟨hv, ha, hr⟩
      · next h1 h2 => exact (wf_cons ..).2 ⟨hw, above_set d rest i k v (by omega) hr ha, ih hr⟩

theorem above_of_sub (d : α) (m : Sp α) (p : Nat × α → Bool) (i : Nat) (hw : Sp.wf d m = true) (h : Above i m) : Above i (m.filter p) := by
  induction m with
  | nil => trivial
  | cons x rest ih =>
    obtain ⟨j, w⟩ := x
    obtain ⟨-, ha, hr⟩ := (wf_cons d j w rest).1 hw
    simp only [Above] at h
    rw [List.filter_cons]
    split
    · simpa [Above] using h
    · exact ih hr (above_mono h _ ha)

/-- Dropping entries keeps the canonical form. -/
theorem wf_filter (d : α) (m : Sp α) (p : Nat × α → Bool) (h : Sp.wf d m = true) : Sp.wf d (m.filter p) = true := by
  induction m with
  | nil => rfl
  | cons x rest ih =>
    obtain ⟨i, w⟩ := x
    obtain ⟨hw, ha, hr⟩ := (wf_cons d i w rest).1 h
    rw [List.filter_cons]
    split
    · exact (wf_cons ..).2 ⟨hw, above_of_sub d rest p i hr ha, ih hr⟩
    · exact ih hr

end Sys2Proof.Laws
end

