-- ==== Sys2Proof/Laws/State.lean ====
section
/-! SUPPORT. One lemma for each field under each update of the state's records, and how reading goes with writing. -/

namespace Sys2Proof.Laws

open Sys2Proof.Machine

/-! ## Updates of the pod -/

@[simp] theorem modCoreAt_clock (s : State) (k : Nat) (f : Core → Core) : (s.modCoreAt k f).clock = s.clock := rfl
@[simp] theorem modCoreAt_cur (s : State) (k : Nat) (f : Core → Core) : (s.modCoreAt k f).cur = s.cur := rfl
@[simp] theorem modCoreAt_lane (s : State) (k : Nat) (f : Core → Core) : (s.modCoreAt k f).lane = s.lane := rfl
@[simp] theorem modCoreAt_agenda (s : State) (k : Nat) (f : Core → Core) : (s.modCoreAt k f).agenda = s.agenda := rfl
@[simp] theorem modCoreAt_inputs (s : State) (k : Nat) (f : Core → Core) : (s.modCoreAt k f).inputs = s.inputs := rfl
@[simp] theorem modCoreAt_drawn (s : State) (k : Nat) (f : Core → Core) : (s.modCoreAt k f).drawn = s.drawn := rfl
@[simp] theorem modCoreAt_mem (s : State) (k : Nat) (f : Core → Core) : (s.modCoreAt k f).mem = s.mem := rfl
@[simp] theorem modCoreAt_bad (s : State) (k : Nat) (f : Core → Core) : (s.modCoreAt k f).bad = s.bad := rfl
@[simp] theorem modCoreAt_badDc (s : State) (k : Nat) (f : Core → Core) : (s.modCoreAt k f).badDc = s.badDc := rfl
@[simp] theorem modCoreAt_owners (s : State) (k : Nat) (f : Core → Core) : (s.modCoreAt k f).owners = s.owners := rfl
@[simp] theorem modCoreAt_dies (s : State) (k : Nat) (f : Core → Core) : (s.modCoreAt k f).dies = s.dies := rfl
@[simp] theorem modCoreAt_pkgs (s : State) (k : Nat) (f : Core → Core) : (s.modCoreAt k f).pkgs = s.pkgs := rfl
@[simp] theorem modCoreAt_parts (s : State) (k : Nat) (f : Core → Core) : (s.modCoreAt k f).parts = s.parts := rfl
@[simp] theorem modCore_clock (s : State) (f : Core → Core) : (s.modCore f).clock = s.clock := rfl
@[simp] theorem modCore_cur (s : State) (f : Core → Core) : (s.modCore f).cur = s.cur := rfl
@[simp] theorem modCore_lane (s : State) (f : Core → Core) : (s.modCore f).lane = s.lane := rfl
@[simp] theorem modCore_agenda (s : State) (f : Core → Core) : (s.modCore f).agenda = s.agenda := rfl
@[simp] theorem modCore_inputs (s : State) (f : Core → Core) : (s.modCore f).inputs = s.inputs := rfl
@[simp] theorem modCore_drawn (s : State) (f : Core → Core) : (s.modCore f).drawn = s.drawn := rfl
@[simp] theorem modCore_mem (s : State) (f : Core → Core) : (s.modCore f).mem = s.mem := rfl
@[simp] theorem modCore_bad (s : State) (f : Core → Core) : (s.modCore f).bad = s.bad := rfl
@[simp] theorem modCore_badDc (s : State) (f : Core → Core) : (s.modCore f).badDc = s.badDc := rfl
@[simp] theorem modCore_owners (s : State) (f : Core → Core) : (s.modCore f).owners = s.owners := rfl
@[simp] theorem modCore_dies (s : State) (f : Core → Core) : (s.modCore f).dies = s.dies := rfl
@[simp] theorem modCore_pkgs (s : State) (f : Core → Core) : (s.modCore f).pkgs = s.pkgs := rfl
@[simp] theorem modCore_parts (s : State) (f : Core → Core) : (s.modCore f).parts = s.parts := rfl
@[simp] theorem modCl_clock (s : State) (f : Cluster → Cluster) : (s.modCl f).clock = s.clock := rfl
@[simp] theorem modCl_cur (s : State) (f : Cluster → Cluster) : (s.modCl f).cur = s.cur := rfl
@[simp] theorem modCl_lane (s : State) (f : Cluster → Cluster) : (s.modCl f).lane = s.lane := rfl
@[simp] theorem modCl_agenda (s : State) (f : Cluster → Cluster) : (s.modCl f).agenda = s.agenda := rfl
@[simp] theorem modCl_inputs (s : State) (f : Cluster → Cluster) : (s.modCl f).inputs = s.inputs := rfl
@[simp] theorem modCl_drawn (s : State) (f : Cluster → Cluster) : (s.modCl f).drawn = s.drawn := rfl
@[simp] theorem modCl_mem (s : State) (f : Cluster → Cluster) : (s.modCl f).mem = s.mem := rfl
@[simp] theorem modCl_bad (s : State) (f : Cluster → Cluster) : (s.modCl f).bad = s.bad := rfl
@[simp] theorem modCl_badDc (s : State) (f : Cluster → Cluster) : (s.modCl f).badDc = s.badDc := rfl
@[simp] theorem modCl_owners (s : State) (f : Cluster → Cluster) : (s.modCl f).owners = s.owners := rfl
@[simp] theorem modCl_dies (s : State) (f : Cluster → Cluster) : (s.modCl f).dies = s.dies := rfl
@[simp] theorem modCl_pkgs (s : State) (f : Cluster → Cluster) : (s.modCl f).pkgs = s.pkgs := rfl
@[simp] theorem modCl_parts (s : State) (f : Cluster → Cluster) : (s.modCl f).parts = s.parts := rfl
@[simp] theorem modDieAt_clock (s : State) (d : Nat) (f : Die → Die) : (s.modDieAt d f).clock = s.clock := rfl
@[simp] theorem modDieAt_cur (s : State) (d : Nat) (f : Die → Die) : (s.modDieAt d f).cur = s.cur := rfl
@[simp] theorem modDieAt_lane (s : State) (d : Nat) (f : Die → Die) : (s.modDieAt d f).lane = s.lane := rfl
@[simp] theorem modDieAt_agenda (s : State) (d : Nat) (f : Die → Die) : (s.modDieAt d f).agenda = s.agenda := rfl
@[simp] theorem modDieAt_inputs (s : State) (d : Nat) (f : Die → Die) : (s.modDieAt d f).inputs = s.inputs := rfl
@[simp] theorem modDieAt_drawn (s : State) (d : Nat) (f : Die → Die) : (s.modDieAt d f).drawn = s.drawn := rfl
@[simp] theorem modDieAt_mem (s : State) (d : Nat) (f : Die → Die) : (s.modDieAt d f).mem = s.mem := rfl
@[simp] theorem modDieAt_bad (s : State) (d : Nat) (f : Die → Die) : (s.modDieAt d f).bad = s.bad := rfl
@[simp] theorem modDieAt_badDc (s : State) (d : Nat) (f : Die → Die) : (s.modDieAt d f).badDc = s.badDc := rfl
@[simp] theorem modDieAt_owners (s : State) (d : Nat) (f : Die → Die) : (s.modDieAt d f).owners = s.owners := rfl
@[simp] theorem modDieAt_cores (s : State) (d : Nat) (f : Die → Die) : (s.modDieAt d f).cores = s.cores := rfl
@[simp] theorem modDieAt_pkgs (s : State) (d : Nat) (f : Die → Die) : (s.modDieAt d f).pkgs = s.pkgs := rfl
@[simp] theorem modDieAt_parts (s : State) (d : Nat) (f : Die → Die) : (s.modDieAt d f).parts = s.parts := rfl
@[simp] theorem modPkgAt_clock (s : State) (p : Nat) (f : Pkg → Pkg) : (s.modPkgAt p f).clock = s.clock := rfl
@[simp] theorem modPkgAt_cur (s : State) (p : Nat) (f : Pkg → Pkg) : (s.modPkgAt p f).cur = s.cur := rfl
@[simp] theorem modPkgAt_lane (s : State) (p : Nat) (f : Pkg → Pkg) : (s.modPkgAt p f).lane = s.lane := rfl
@[simp] theorem modPkgAt_agenda (s : State) (p : Nat) (f : Pkg → Pkg) : (s.modPkgAt p f).agenda = s.agenda := rfl
@[simp] theorem modPkgAt_inputs (s : State) (p : Nat) (f : Pkg → Pkg) : (s.modPkgAt p f).inputs = s.inputs := rfl
@[simp] theorem modPkgAt_drawn (s : State) (p : Nat) (f : Pkg → Pkg) : (s.modPkgAt p f).drawn = s.drawn := rfl
@[simp] theorem modPkgAt_mem (s : State) (p : Nat) (f : Pkg → Pkg) : (s.modPkgAt p f).mem = s.mem := rfl
@[simp] theorem modPkgAt_bad (s : State) (p : Nat) (f : Pkg → Pkg) : (s.modPkgAt p f).bad = s.bad := rfl
@[simp] theorem modPkgAt_badDc (s : State) (p : Nat) (f : Pkg → Pkg) : (s.modPkgAt p f).badDc = s.badDc := rfl
@[simp] theorem modPkgAt_owners (s : State) (p : Nat) (f : Pkg → Pkg) : (s.modPkgAt p f).owners = s.owners := rfl
@[simp] theorem modPkgAt_cores (s : State) (p : Nat) (f : Pkg → Pkg) : (s.modPkgAt p f).cores = s.cores := rfl
@[simp] theorem modPkgAt_dies (s : State) (p : Nat) (f : Pkg → Pkg) : (s.modPkgAt p f).dies = s.dies := rfl
@[simp] theorem modPkgAt_parts (s : State) (p : Nat) (f : Pkg → Pkg) : (s.modPkgAt p f).parts = s.parts := rfl
@[simp] theorem modPartAt_clock (s : State) (p : Nat) (f : Part → Part) : (s.modPartAt p f).clock = s.clock := rfl
@[simp] theorem modPartAt_cur (s : State) (p : Nat) (f : Part → Part) : (s.modPartAt p f).cur = s.cur := rfl
@[simp] theorem modPartAt_lane (s : State) (p : Nat) (f : Part → Part) : (s.modPartAt p f).lane = s.lane := rfl
@[simp] theorem modPartAt_agenda (s : State) (p : Nat) (f : Part → Part) : (s.modPartAt p f).agenda = s.agenda := rfl
@[simp] theorem modPartAt_inputs (s : State) (p : Nat) (f : Part → Part) : (s.modPartAt p f).inputs = s.inputs := rfl
@[simp] theorem modPartAt_drawn (s : State) (p : Nat) (f : Part → Part) : (s.modPartAt p f).drawn = s.drawn := rfl
@[simp] theorem modPartAt_mem (s : State) (p : Nat) (f : Part → Part) : (s.modPartAt p f).mem = s.mem := rfl
@[simp] theorem modPartAt_bad (s : State) (p : Nat) (f : Part → Part) : (s.modPartAt p f).bad = s.bad := rfl
@[simp] theorem modPartAt_badDc (s : State) (p : Nat) (f : Part → Part) : (s.modPartAt p f).badDc = s.badDc := rfl
@[simp] theorem modPartAt_owners (s : State) (p : Nat) (f : Part → Part) : (s.modPartAt p f).owners = s.owners := rfl
@[simp] theorem modPartAt_cores (s : State) (p : Nat) (f : Part → Part) : (s.modPartAt p f).cores = s.cores := rfl
@[simp] theorem modPartAt_dies (s : State) (p : Nat) (f : Part → Part) : (s.modPartAt p f).dies = s.dies := rfl
@[simp] theorem modPartAt_pkgs (s : State) (p : Nat) (f : Part → Part) : (s.modPartAt p f).pkgs = s.pkgs := rfl
@[simp] theorem setByte_clock (s : State) (k : Nat) (b : Byte) : (s.setByte k b).clock = s.clock := rfl
@[simp] theorem setByte_cur (s : State) (k : Nat) (b : Byte) : (s.setByte k b).cur = s.cur := rfl
@[simp] theorem setByte_lane (s : State) (k : Nat) (b : Byte) : (s.setByte k b).lane = s.lane := rfl
@[simp] theorem setByte_agenda (s : State) (k : Nat) (b : Byte) : (s.setByte k b).agenda = s.agenda := rfl
@[simp] theorem setByte_inputs (s : State) (k : Nat) (b : Byte) : (s.setByte k b).inputs = s.inputs := rfl
@[simp] theorem setByte_drawn (s : State) (k : Nat) (b : Byte) : (s.setByte k b).drawn = s.drawn := rfl
@[simp] theorem setByte_bad (s : State) (k : Nat) (b : Byte) : (s.setByte k b).bad = s.bad := rfl
@[simp] theorem setByte_badDc (s : State) (k : Nat) (b : Byte) : (s.setByte k b).badDc = s.badDc := rfl
@[simp] theorem setByte_owners (s : State) (k : Nat) (b : Byte) : (s.setByte k b).owners = s.owners := rfl
@[simp] theorem setByte_cores (s : State) (k : Nat) (b : Byte) : (s.setByte k b).cores = s.cores := rfl
@[simp] theorem setByte_dies (s : State) (k : Nat) (b : Byte) : (s.setByte k b).dies = s.dies := rfl
@[simp] theorem setByte_pkgs (s : State) (k : Nat) (b : Byte) : (s.setByte k b).pkgs = s.pkgs := rfl
@[simp] theorem setByte_parts (s : State) (k : Nat) (b : Byte) : (s.setByte k b).parts = s.parts := rfl
@[simp] theorem draw_clock (s : State) (n : Nat) : (s.draw n).2.clock = s.clock := rfl
@[simp] theorem choose_clock (s : State) : s.choose.2.clock = s.clock := rfl
@[simp] theorem draw_cur (s : State) (n : Nat) : (s.draw n).2.cur = s.cur := rfl
@[simp] theorem choose_cur (s : State) : s.choose.2.cur = s.cur := rfl
@[simp] theorem draw_lane (s : State) (n : Nat) : (s.draw n).2.lane = s.lane := rfl
@[simp] theorem choose_lane (s : State) : s.choose.2.lane = s.lane := rfl
@[simp] theorem draw_agenda (s : State) (n : Nat) : (s.draw n).2.agenda = s.agenda := rfl
@[simp] theorem choose_agenda (s : State) : s.choose.2.agenda = s.agenda := rfl
@[simp] theorem draw_inputs (s : State) (n : Nat) : (s.draw n).2.inputs = s.inputs := rfl
@[simp] theorem choose_inputs (s : State) : s.choose.2.inputs = s.inputs := rfl
@[simp] theorem draw_mem (s : State) (n : Nat) : (s.draw n).2.mem = s.mem := rfl
@[simp] theorem choose_mem (s : State) : s.choose.2.mem = s.mem := rfl
@[simp] theorem draw_bad (s : State) (n : Nat) : (s.draw n).2.bad = s.bad := rfl
@[simp] theorem choose_bad (s : State) : s.choose.2.bad = s.bad := rfl
@[simp] theorem draw_badDc (s : State) (n : Nat) : (s.draw n).2.badDc = s.badDc := rfl
@[simp] theorem choose_badDc (s : State) : s.choose.2.badDc = s.badDc := rfl
@[simp] theorem draw_owners (s : State) (n : Nat) : (s.draw n).2.owners = s.owners := rfl
@[simp] theorem choose_owners (s : State) : s.choose.2.owners = s.owners := rfl
@[simp] theorem draw_cores (s : State) (n : Nat) : (s.draw n).2.cores = s.cores := rfl
@[simp] theorem choose_cores (s : State) : s.choose.2.cores = s.cores := rfl
@[simp] theorem draw_dies (s : State) (n : Nat) : (s.draw n).2.dies = s.dies := rfl
@[simp] theorem choose_dies (s : State) : s.choose.2.dies = s.dies := rfl
@[simp] theorem draw_pkgs (s : State) (n : Nat) : (s.draw n).2.pkgs = s.pkgs := rfl
@[simp] theorem choose_pkgs (s : State) : s.choose.2.pkgs = s.pkgs := rfl
@[simp] theorem draw_parts (s : State) (n : Nat) : (s.draw n).2.parts = s.parts := rfl
@[simp] theorem choose_parts (s : State) : s.choose.2.parts = s.parts := rfl

/-- The record of a core after a change of one. -/
theorem coreAt_modCoreAt (s : State) (k j : Nat) (f : Core → Core) :
    (s.modCoreAt k f).coreAt j = if j = k then f (s.coreAt k) else s.coreAt j := get_put ..

@[simp] theorem coreAt_modCoreAt_self (s : State) (k : Nat) (f : Core → Core) : (s.modCoreAt k f).coreAt k = f (s.coreAt k) :=
  get_put_self ..

theorem coreAt_modCoreAt_other (s : State) {k j : Nat} (f : Core → Core) (h : j ≠ k) : (s.modCoreAt k f).coreAt j = s.coreAt j :=
  get_put_other _ _ _ h

@[simp] theorem core_modCore (s : State) (f : Core → Core) : (s.modCore f).core = f s.core := get_put_self ..

theorem coreAt_modCore_other (s : State) {j : Nat} (f : Core → Core) (h : j ≠ s.cur) : (s.modCore f).coreAt j = s.coreAt j :=
  get_put_other _ _ _ h

theorem coreAt_modCl_other (s : State) {j : Nat} (f : Cluster → Cluster) (h : j ≠ s.cur) : (s.modCl f).coreAt j = s.coreAt j :=
  get_put_other _ _ _ h

theorem dieAt_modDieAt (s : State) (k j : Nat) (f : Die → Die) :
    (s.modDieAt k f).dieAt j = if j = k then f (s.dieAt k) else s.dieAt j := get_put ..

@[simp] theorem dieAt_modDieAt_self (s : State) (k : Nat) (f : Die → Die) : (s.modDieAt k f).dieAt k = f (s.dieAt k) := get_put_self ..

theorem pkgAt_modPkgAt (s : State) (k j : Nat) (f : Pkg → Pkg) :
    (s.modPkgAt k f).pkgAt j = if j = k then f (s.pkgAt k) else s.pkgAt j := get_put ..

@[simp] theorem pkgAt_modPkgAt_self (s : State) (k : Nat) (f : Pkg → Pkg) : (s.modPkgAt k f).pkgAt k = f (s.pkgAt k) := get_put_self ..

theorem partAt_modPartAt (s : State) (k j : Nat) (f : Part → Part) :
    (s.modPartAt k f).partAt j = if j = k then f (s.partAt k) else s.partAt j := get_put ..

@[simp] theorem partAt_modPartAt_self (s : State) (k : Nat) (f : Part → Part) : (s.modPartAt k f).partAt k = f (s.partAt k) := get_put_self ..

/-- A byte after a write. -/
theorem byte_setByte (s : State) (k j : Nat) (b : Byte) : (s.setByte k b).byte j = if j = k then b else s.byte j := get_set ..

@[simp] theorem dieAt_modCoreAt (s : State) (k : Nat) (f : Core → Core) (j : Nat) : (s.modCoreAt k f).dieAt j = s.dieAt j := rfl
@[simp] theorem pkgAt_modCoreAt (s : State) (k : Nat) (f : Core → Core) (j : Nat) : (s.modCoreAt k f).pkgAt j = s.pkgAt j := rfl
@[simp] theorem partAt_modCoreAt (s : State) (k : Nat) (f : Core → Core) (j : Nat) : (s.modCoreAt k f).partAt j = s.partAt j := rfl
@[simp] theorem byte_modCoreAt (s : State) (k : Nat) (f : Core → Core) (j : Nat) : (s.modCoreAt k f).byte j = s.byte j := rfl
@[simp] theorem warm_modCoreAt (s : State) (k : Nat) (f : Core → Core) : (s.modCoreAt k f).warm = s.warm := rfl
@[simp] theorem scnt_modCoreAt (s : State) (k : Nat) (f : Core → Core) : (s.modCoreAt k f).scnt = s.scnt := rfl
@[simp] theorem dieAt_modCore (s : State) (f : Core → Core) (j : Nat) : (s.modCore f).dieAt j = s.dieAt j := rfl
@[simp] theorem pkgAt_modCore (s : State) (f : Core → Core) (j : Nat) : (s.modCore f).pkgAt j = s.pkgAt j := rfl
@[simp] theorem partAt_modCore (s : State) (f : Core → Core) (j : Nat) : (s.modCore f).partAt j = s.partAt j := rfl
@[simp] theorem byte_modCore (s : State) (f : Core → Core) (j : Nat) : (s.modCore f).byte j = s.byte j := rfl
@[simp] theorem warm_modCore (s : State) (f : Core → Core) : (s.modCore f).warm = s.warm := rfl
@[simp] theorem scnt_modCore (s : State) (f : Core → Core) : (s.modCore f).scnt = s.scnt := rfl
@[simp] theorem dieAt_modCl (s : State) (f : Cluster → Cluster) (j : Nat) : (s.modCl f).dieAt j = s.dieAt j := rfl
@[simp] theorem pkgAt_modCl (s : State) (f : Cluster → Cluster) (j : Nat) : (s.modCl f).pkgAt j = s.pkgAt j := rfl
@[simp] theorem partAt_modCl (s : State) (f : Cluster → Cluster) (j : Nat) : (s.modCl f).partAt j = s.partAt j := rfl
@[simp] theorem byte_modCl (s : State) (f : Cluster → Cluster) (j : Nat) : (s.modCl f).byte j = s.byte j := rfl
@[simp] theorem warm_modCl (s : State) (f : Cluster → Cluster) : (s.modCl f).warm = s.warm := rfl
@[simp] theorem scnt_modCl (s : State) (f : Cluster → Cluster) : (s.modCl f).scnt = s.scnt := rfl
@[simp] theorem coreAt_modDieAt (s : State) (k : Nat) (f : Die → Die) (j : Nat) : (s.modDieAt k f).coreAt j = s.coreAt j := rfl
@[simp] theorem pkgAt_modDieAt (s : State) (k : Nat) (f : Die → Die) (j : Nat) : (s.modDieAt k f).pkgAt j = s.pkgAt j := rfl
@[simp] theorem partAt_modDieAt (s : State) (k : Nat) (f : Die → Die) (j : Nat) : (s.modDieAt k f).partAt j = s.partAt j := rfl
@[simp] theorem byte_modDieAt (s : State) (k : Nat) (f : Die → Die) (j : Nat) : (s.modDieAt k f).byte j = s.byte j := rfl
@[simp] theorem core_modDieAt (s : State) (k : Nat) (f : Die → Die) : (s.modDieAt k f).core = s.core := rfl
@[simp] theorem warm_modDieAt (s : State) (k : Nat) (f : Die → Die) : (s.modDieAt k f).warm = s.warm := rfl
@[simp] theorem coreAt_modPkgAt (s : State) (k : Nat) (f : Pkg → Pkg) (j : Nat) : (s.modPkgAt k f).coreAt j = s.coreAt j := rfl
@[simp] theorem dieAt_modPkgAt (s : State) (k : Nat) (f : Pkg → Pkg) (j : Nat) : (s.modPkgAt k f).dieAt j = s.dieAt j := rfl
@[simp] theorem partAt_modPkgAt (s : State) (k : Nat) (f : Pkg → Pkg) (j : Nat) : (s.modPkgAt k f).partAt j = s.partAt j := rfl
@[simp] theorem byte_modPkgAt (s : State) (k : Nat) (f : Pkg → Pkg) (j : Nat) : (s.modPkgAt k f).byte j = s.byte j := rfl
@[simp] theorem core_modPkgAt (s : State) (k : Nat) (f : Pkg → Pkg) : (s.modPkgAt k f).core = s.core := rfl
@[simp] theorem warm_modPkgAt (s : State) (k : Nat) (f : Pkg → Pkg) : (s.modPkgAt k f).warm = s.warm := rfl
@[simp] theorem scnt_modPkgAt (s : State) (k : Nat) (f : Pkg → Pkg) : (s.modPkgAt k f).scnt = s.scnt := rfl
@[simp] theorem coreAt_modPartAt (s : State) (k : Nat) (f : Part → Part) (j : Nat) : (s.modPartAt k f).coreAt j = s.coreAt j := rfl
@[simp] theorem dieAt_modPartAt (s : State) (k : Nat) (f : Part → Part) (j : Nat) : (s.modPartAt k f).dieAt j = s.dieAt j := rfl
@[simp] theorem pkgAt_modPartAt (s : State) (k : Nat) (f : Part → Part) (j : Nat) : (s.modPartAt k f).pkgAt j = s.pkgAt j := rfl
@[simp] theorem byte_modPartAt (s : State) (k : Nat) (f : Part → Part) (j : Nat) : (s.modPartAt k f).byte j = s.byte j := rfl
@[simp] theorem core_modPartAt (s : State) (k : Nat) (f : Part → Part) : (s.modPartAt k f).core = s.core := rfl
@[simp] theorem warm_modPartAt (s : State) (k : Nat) (f : Part → Part) : (s.modPartAt k f).warm = s.warm := rfl
@[simp] theorem scnt_modPartAt (s : State) (k : Nat) (f : Part → Part) : (s.modPartAt k f).scnt = s.scnt := rfl
@[simp] theorem coreAt_setByte (s : State) (k : Nat) (b : Byte) (j : Nat) : (s.setByte k b).coreAt j = s.coreAt j := rfl
@[simp] theorem dieAt_setByte (s : State) (k : Nat) (b : Byte) (j : Nat) : (s.setByte k b).dieAt j = s.dieAt j := rfl
@[simp] theorem pkgAt_setByte (s : State) (k : Nat) (b : Byte) (j : Nat) : (s.setByte k b).pkgAt j = s.pkgAt j := rfl
@[simp] theorem partAt_setByte (s : State) (k : Nat) (b : Byte) (j : Nat) : (s.setByte k b).partAt j = s.partAt j := rfl
@[simp] theorem core_setByte (s : State) (k : Nat) (b : Byte) : (s.setByte k b).core = s.core := rfl
@[simp] theorem warm_setByte (s : State) (k : Nat) (b : Byte) : (s.setByte k b).warm = s.warm := rfl
@[simp] theorem scnt_setByte (s : State) (k : Nat) (b : Byte) : (s.setByte k b).scnt = s.scnt := rfl
@[simp] theorem coreAt_draw (s : State) (n : Nat) (j : Nat) : ((s.draw n).2).coreAt j = s.coreAt j := rfl
@[simp] theorem dieAt_draw (s : State) (n : Nat) (j : Nat) : ((s.draw n).2).dieAt j = s.dieAt j := rfl
@[simp] theorem pkgAt_draw (s : State) (n : Nat) (j : Nat) : ((s.draw n).2).pkgAt j = s.pkgAt j := rfl
@[simp] theorem partAt_draw (s : State) (n : Nat) (j : Nat) : ((s.draw n).2).partAt j = s.partAt j := rfl
@[simp] theorem byte_draw (s : State) (n : Nat) (j : Nat) : ((s.draw n).2).byte j = s.byte j := rfl
@[simp] theorem core_draw (s : State) (n : Nat) : ((s.draw n).2).core = s.core := rfl
@[simp] theorem warm_draw (s : State) (n : Nat) : ((s.draw n).2).warm = s.warm := rfl
@[simp] theorem scnt_draw (s : State) (n : Nat) : ((s.draw n).2).scnt = s.scnt := rfl
@[simp] theorem coreAt_choose (s : State)  (j : Nat) : (s.choose.2).coreAt j = s.coreAt j := rfl
@[simp] theorem dieAt_choose (s : State)  (j : Nat) : (s.choose.2).dieAt j = s.dieAt j := rfl
@[simp] theorem pkgAt_choose (s : State)  (j : Nat) : (s.choose.2).pkgAt j = s.pkgAt j := rfl
@[simp] theorem partAt_choose (s : State)  (j : Nat) : (s.choose.2).partAt j = s.partAt j := rfl
@[simp] theorem byte_choose (s : State)  (j : Nat) : (s.choose.2).byte j = s.byte j := rfl
@[simp] theorem core_choose (s : State)  : (s.choose.2).core = s.core := rfl
@[simp] theorem warm_choose (s : State)  : (s.choose.2).warm = s.warm := rfl
@[simp] theorem scnt_choose (s : State)  : (s.choose.2).scnt = s.scnt := rfl

/-! ## Updates of a core -/

@[simp] theorem setCluster_slot0 (c : Core) (l : Lane) (x : Cluster) : (c.setCluster l x).slot0 = c.slot0 := by cases l <;> rfl
@[simp] theorem setCluster_slot1 (c : Core) (l : Lane) (x : Cluster) : (c.setCluster l x).slot1 = c.slot1 := by cases l <;> rfl
@[simp] theorem setCluster_run (c : Core) (l : Lane) (x : Cluster) : (c.setCluster l x).run = c.run := by cases l <;> rfl
@[simp] theorem setCluster_clearAt (c : Core) (l : Lane) (x : Cluster) : (c.setCluster l x).clearAt = c.clearAt := by cases l <;> rfl
@[simp] theorem setCluster_swapAt (c : Core) (l : Lane) (x : Cluster) : (c.setCluster l x).swapAt = c.swapAt := by cases l <;> rfl
@[simp] theorem setCluster_recs (c : Core) (l : Lane) (x : Cluster) : (c.setCluster l x).recs = c.recs := by cases l <;> rfl
@[simp] theorem setCluster_reserved (c : Core) (l : Lane) (x : Cluster) : (c.setCluster l x).reserved = c.reserved := by cases l <;> rfl
@[simp] theorem setCluster_failed (c : Core) (l : Lane) (x : Cluster) : (c.setCluster l x).failed = c.failed := by cases l <;> rfl
@[simp] theorem setCluster_tok (c : Core) (l : Lane) (x : Cluster) : (c.setCluster l x).tok = c.tok := by cases l <;> rfl
@[simp] theorem setCluster_port (c : Core) (l : Lane) (x : Cluster) : (c.setCluster l x).port = c.port := by cases l <;> rfl
@[simp] theorem setCluster_loopNo (c : Core) (l : Lane) (x : Cluster) : (c.setCluster l x).loopNo = c.loopNo := by cases l <;> rfl
@[simp] theorem setCluster_l1d (c : Core) (l : Lane) (x : Cluster) : (c.setCluster l x).l1d = c.l1d := by cases l <;> rfl
@[simp] theorem setCluster_l1i (c : Core) (l : Lane) (x : Cluster) : (c.setCluster l x).l1i = c.l1i := by cases l <;> rfl
@[simp] theorem setCluster_lq (c : Core) (l : Lane) (x : Cluster) : (c.setCluster l x).lq = c.lq := by cases l <;> rfl
@[simp] theorem setCluster_sq (c : Core) (l : Lane) (x : Cluster) : (c.setCluster l x).sq = c.sq := by cases l <;> rfl
@[simp] theorem setCluster_eq (c : Core) (l : Lane) (x : Cluster) : (c.setCluster l x).eq = c.eq := by cases l <;> rfl
@[simp] theorem setCluster_lqIssued (c : Core) (l : Lane) (x : Cluster) : (c.setCluster l x).lqIssued = c.lqIssued := by cases l <;> rfl
@[simp] theorem setCluster_sqIssued (c : Core) (l : Lane) (x : Cluster) : (c.setCluster l x).sqIssued = c.sqIssued := by cases l <;> rfl
@[simp] theorem setCluster_eqIssued (c : Core) (l : Lane) (x : Cluster) : (c.setCluster l x).eqIssued = c.eqIssued := by cases l <;> rfl
@[simp] theorem setCluster_lqDone (c : Core) (l : Lane) (x : Cluster) : (c.setCluster l x).lqDone = c.lqDone := by cases l <;> rfl
@[simp] theorem setCluster_sqDone (c : Core) (l : Lane) (x : Cluster) : (c.setCluster l x).sqDone = c.sqDone := by cases l <;> rfl
@[simp] theorem setCluster_eqDone (c : Core) (l : Lane) (x : Cluster) : (c.setCluster l x).eqDone = c.eqDone := by cases l <;> rfl
@[simp] theorem setCluster_lqWarm (c : Core) (l : Lane) (x : Cluster) : (c.setCluster l x).lqWarm = c.lqWarm := by cases l <;> rfl
@[simp] theorem setCluster_sqWarm (c : Core) (l : Lane) (x : Cluster) : (c.setCluster l x).sqWarm = c.sqWarm := by cases l <;> rfl
@[simp] theorem setCluster_eqWarm (c : Core) (l : Lane) (x : Cluster) : (c.setCluster l x).eqWarm = c.eqWarm := by cases l <;> rfl
@[simp] theorem setCluster_markNo (c : Core) (l : Lane) (x : Cluster) : (c.setCluster l x).markNo = c.markNo := by cases l <;> rfl
@[simp] theorem setCluster_back (c : Core) (l : Lane) (x : Cluster) : (c.setCluster l x).back = c.back := by cases l <;> rfl
@[simp] theorem setCluster_tlb (c : Core) (l : Lane) (x : Cluster) : (c.setCluster l x).tlb = c.tlb := by cases l <;> rfl
@[simp] theorem setCluster_str (c : Core) (l : Lane) (x : Cluster) : (c.setCluster l x).str = c.str := by cases l <;> rfl
@[simp] theorem setCluster_shp (c : Core) (l : Lane) (x : Cluster) : (c.setCluster l x).shp = c.shp := by cases l <;> rfl
@[simp] theorem setCluster_shpBusy (c : Core) (l : Lane) (x : Cluster) : (c.setCluster l x).shpBusy = c.shpBusy := by cases l <;> rfl
@[simp] theorem setCluster_xings (c : Core) (l : Lane) (x : Cluster) : (c.setCluster l x).xings = c.xings := by cases l <;> rfl
@[simp] theorem setCluster_xseq (c : Core) (l : Lane) (x : Cluster) : (c.setCluster l x).xseq = c.xseq := by cases l <;> rfl
@[simp] theorem setCluster_xcan (c : Core) (l : Lane) (x : Cluster) : (c.setCluster l x).xcan = c.xcan := by cases l <;> rfl
@[simp] theorem setCluster_xkinds (c : Core) (l : Lane) (x : Cluster) : (c.setCluster l x).xkinds = c.xkinds := by cases l <;> rfl
@[simp] theorem setCluster_paths (c : Core) (l : Lane) (x : Cluster) : (c.setCluster l x).paths = c.paths := by cases l <;> rfl
@[simp] theorem setCluster_oeq (c : Core) (l : Lane) (x : Cluster) : (c.setCluster l x).oeq = c.oeq := by cases l <;> rfl
@[simp] theorem setCluster_oeqLost (c : Core) (l : Lane) (x : Cluster) : (c.setCluster l x).oeqLost = c.oeqLost := by cases l <;> rfl
@[simp] theorem setCluster_oeqFreed (c : Core) (l : Lane) (x : Cluster) : (c.setCluster l x).oeqFreed = c.oeqFreed := by cases l <;> rfl
@[simp] theorem setCluster_oeqNow (c : Core) (l : Lane) (x : Cluster) : (c.setCluster l x).oeqNow = c.oeqNow := by cases l <;> rfl
@[simp] theorem setCluster_bcache (c : Core) (l : Lane) (x : Cluster) : (c.setCluster l x).bcache = c.bcache := by cases l <;> rfl
@[simp] theorem setCluster_shares (c : Core) (l : Lane) (x : Cluster) : (c.setCluster l x).shares = c.shares := by cases l <;> rfl
@[simp] theorem setCluster_sends (c : Core) (l : Lane) (x : Cluster) : (c.setCluster l x).sends = c.sends := by cases l <;> rfl
@[simp] theorem setCluster_atoms (c : Core) (l : Lane) (x : Cluster) : (c.setCluster l x).atoms = c.atoms := by cases l <;> rfl
@[simp] theorem setCluster_atomNo (c : Core) (l : Lane) (x : Cluster) : (c.setCluster l x).atomNo = c.atomNo := by cases l <;> rfl
@[simp] theorem setCluster_drains (c : Core) (l : Lane) (x : Cluster) : (c.setCluster l x).drains = c.drains := by cases l <;> rfl
@[simp] theorem setCluster_barCount (c : Core) (l : Lane) (x : Cluster) : (c.setCluster l x).barCount = c.barCount := by cases l <;> rfl
@[simp] theorem setCluster_bar (c : Core) (l : Lane) (x : Cluster) : (c.setCluster l x).bar = c.bar := by cases l <;> rfl
@[simp] theorem setCluster_barGot (c : Core) (l : Lane) (x : Cluster) : (c.setCluster l x).barGot = c.barGot := by cases l <;> rfl
@[simp] theorem setCluster_mirror (c : Core) (l : Lane) (x : Cluster) : (c.setCluster l x).mirror = c.mirror := by cases l <;> rfl
@[simp] theorem setCluster_heatAcc (c : Core) (l : Lane) (x : Cluster) : (c.setCluster l x).heatAcc = c.heatAcc := by cases l <;> rfl
@[simp] theorem setCluster_heatNow (c : Core) (l : Lane) (x : Cluster) : (c.setCluster l x).heatNow = c.heatNow := by cases l <;> rfl
@[simp] theorem setCluster_heatAdm (c : Core) (l : Lane) (x : Cluster) : (c.setCluster l x).heatAdm = c.heatAdm := by cases l <;> rfl
@[simp] theorem setCluster_heatBud (c : Core) (l : Lane) (x : Cluster) : (c.setCluster l x).heatBud = c.heatBud := by cases l <;> rfl
@[simp] theorem setCluster_heatSet (c : Core) (l : Lane) (x : Cluster) : (c.setCluster l x).heatSet = c.heatSet := by cases l <;> rfl
@[simp] theorem setCluster_heatNext (c : Core) (l : Lane) (x : Cluster) : (c.setCluster l x).heatNext = c.heatNext := by cases l <;> rfl
@[simp] theorem setCluster_heatCeil (c : Core) (l : Lane) (x : Cluster) : (c.setCluster l x).heatCeil = c.heatCeil := by cases l <;> rfl
@[simp] theorem setCluster_stallCnt (c : Core) (l : Lane) (x : Cluster) : (c.setCluster l x).stallCnt = c.stallCnt := by cases l <;> rfl
@[simp] theorem setCluster_mcmask (c : Core) (l : Lane) (x : Cluster) : (c.setCluster l x).mcmask = c.mcmask := by cases l <;> rfl
@[simp] theorem setCluster_chksb (c : Core) (l : Lane) (x : Cluster) : (c.setCluster l x).chksb = c.chksb := by cases l <;> rfl
@[simp] theorem setCluster_stallim (c : Core) (l : Lane) (x : Cluster) : (c.setCluster l x).stallim = c.stallim := by cases l <;> rfl
@[simp] theorem setCluster_rstlbl (c : Core) (l : Lane) (x : Cluster) : (c.setCluster l x).rstlbl = c.rstlbl := by cases l <;> rfl
@[simp] theorem setCluster_rstidx (c : Core) (l : Lane) (x : Cluster) : (c.setCluster l x).rstidx = c.rstidx := by cases l <;> rfl
@[simp] theorem setCluster_tvec (c : Core) (l : Lane) (x : Cluster) : (c.setCluster l x).tvec = c.tvec := by cases l <;> rfl
@[simp] theorem setCluster_tscratch (c : Core) (l : Lane) (x : Cluster) : (c.setCluster l x).tscratch = c.tscratch := by cases l <;> rfl
@[simp] theorem setCluster_inj (c : Core) (l : Lane) (x : Cluster) : (c.setCluster l x).inj = c.inj := by cases l <;> rfl
@[simp] theorem setCluster_wselCold (c : Core) (l : Lane) (x : Cluster) : (c.setCluster l x).wselCold = c.wselCold := by cases l <;> rfl
@[simp] theorem setCluster_sysNext (c : Core) (l : Lane) (x : Cluster) : (c.setCluster l x).sysNext = c.sysNext := by cases l <;> rfl
@[simp] theorem setCluster_inHandler (c : Core) (l : Lane) (x : Cluster) : (c.setCluster l x).inHandler = c.inHandler := by cases l <;> rfl
@[simp] theorem setCluster_tacked (c : Core) (l : Lane) (x : Cluster) : (c.setCluster l x).tacked = c.tacked := by cases l <;> rfl
@[simp] theorem setCluster_nested (c : Core) (l : Lane) (x : Cluster) : (c.setCluster l x).nested = c.nested := by cases l <;> rfl
@[simp] theorem setCluster_accLost (c : Core) (l : Lane) (x : Cluster) : (c.setCluster l x).accLost = c.accLost := by cases l <;> rfl
@[simp] theorem setCluster_emulate (c : Core) (l : Lane) (x : Cluster) : (c.setCluster l x).emulate = c.emulate := by cases l <;> rfl
@[simp] theorem setCluster_substAt (c : Core) (l : Lane) (x : Cluster) : (c.setCluster l x).substAt = c.substAt := by cases l <;> rfl
@[simp] theorem setCluster_cutAt (c : Core) (l : Lane) (x : Cluster) : (c.setCluster l x).cutAt = c.cutAt := by cases l <;> rfl
@[simp] theorem setCluster_cutNest (c : Core) (l : Lane) (x : Cluster) : (c.setCluster l x).cutNest = c.cutNest := by cases l <;> rfl
@[simp] theorem setCluster_accHere (c : Core) (l : Lane) (x : Cluster) : (c.setCluster l x).accHere = c.accHere := by cases l <;> rfl
@[simp] theorem setCluster_saved (c : Core) (l : Lane) (x : Cluster) : (c.setCluster l x).saved = c.saved := by cases l <;> rfl
@[simp] theorem setCluster_halting (c : Core) (l : Lane) (x : Cluster) : (c.setCluster l x).halting = c.halting := by cases l <;> rfl
@[simp] theorem setCluster_haltAt (c : Core) (l : Lane) (x : Cluster) : (c.setCluster l x).haltAt = c.haltAt := by cases l <;> rfl
@[simp] theorem setCluster_returning (c : Core) (l : Lane) (x : Cluster) : (c.setCluster l x).returning = c.returning := by cases l <;> rfl
@[simp] theorem setCluster_trapNext (c : Core) (l : Lane) (x : Cluster) : (c.setCluster l x).trapNext = c.trapNext := by cases l <;> rfl
@[simp] theorem setCluster_preempt (c : Core) (l : Lane) (x : Cluster) : (c.setCluster l x).preempt = c.preempt := by cases l <;> rfl
@[simp] theorem setCluster_late (c : Core) (l : Lane) (x : Cluster) : (c.setCluster l x).late = c.late := by cases l <;> rfl
@[simp] theorem setCluster_rotReq (c : Core) (l : Lane) (x : Cluster) : (c.setCluster l x).rotReq = c.rotReq := by cases l <;> rfl
@[simp] theorem setCluster_drained (c : Core) (l : Lane) (x : Cluster) : (c.setCluster l x).drained = c.drained := by cases l <;> rfl
@[simp] theorem setCluster_win (c : Core) (l : Lane) (x : Cluster) : (c.setCluster l x).win = c.win := by cases l <;> rfl
@[simp] theorem setCluster_replay (c : Core) (l : Lane) (x : Cluster) : (c.setCluster l x).replay = c.replay := by cases l <;> rfl
@[simp] theorem setCluster_owed (c : Core) (l : Lane) (x : Cluster) : (c.setCluster l x).owed = c.owed := by cases l <;> rfl
@[simp] theorem setCluster_badGran (c : Core) (l : Lane) (x : Cluster) : (c.setCluster l x).badGran = c.badGran := by cases l <;> rfl
@[simp] theorem setCluster_badAcc (c : Core) (l : Lane) (x : Cluster) : (c.setCluster l x).badAcc = c.badAcc := by cases l <;> rfl
@[simp] theorem setCluster_badOrd (c : Core) (l : Lane) (x : Cluster) : (c.setCluster l x).badOrd = c.badOrd := by cases l <;> rfl
@[simp] theorem setCluster_badL1 (c : Core) (l : Lane) (x : Cluster) : (c.setCluster l x).badL1 = c.badL1 := by cases l <;> rfl
@[simp] theorem setCluster_trail (c : Core) (l : Lane) (x : Cluster) : (c.setCluster l x).trail = c.trail := by cases l <;> rfl
@[simp] theorem setCluster_cold (c : Core) (l : Lane) (x : Cluster) : (c.setCluster l x).cold = c.cold := by cases l <;> rfl
@[simp] theorem modClusters_slot0 (c : Core) (f : Lane → Cluster → Cluster) : (c.modClusters f).slot0 = c.slot0 := rfl
@[simp] theorem modClusters_slot1 (c : Core) (f : Lane → Cluster → Cluster) : (c.modClusters f).slot1 = c.slot1 := rfl
@[simp] theorem modClusters_run (c : Core) (f : Lane → Cluster → Cluster) : (c.modClusters f).run = c.run := rfl
@[simp] theorem modClusters_clearAt (c : Core) (f : Lane → Cluster → Cluster) : (c.modClusters f).clearAt = c.clearAt := rfl
@[simp] theorem modClusters_swapAt (c : Core) (f : Lane → Cluster → Cluster) : (c.modClusters f).swapAt = c.swapAt := rfl
@[simp] theorem modClusters_recs (c : Core) (f : Lane → Cluster → Cluster) : (c.modClusters f).recs = c.recs := rfl
@[simp] theorem modClusters_reserved (c : Core) (f : Lane → Cluster → Cluster) : (c.modClusters f).reserved = c.reserved := rfl
@[simp] theorem modClusters_failed (c : Core) (f : Lane → Cluster → Cluster) : (c.modClusters f).failed = c.failed := rfl
@[simp] theorem modClusters_tok (c : Core) (f : Lane → Cluster → Cluster) : (c.modClusters f).tok = c.tok := rfl
@[simp] theorem modClusters_port (c : Core) (f : Lane → Cluster → Cluster) : (c.modClusters f).port = c.port := rfl
@[simp] theorem modClusters_loopNo (c : Core) (f : Lane → Cluster → Cluster) : (c.modClusters f).loopNo = c.loopNo := rfl
@[simp] theorem modClusters_l1d (c : Core) (f : Lane → Cluster → Cluster) : (c.modClusters f).l1d = c.l1d := rfl
@[simp] theorem modClusters_l1i (c : Core) (f : Lane → Cluster → Cluster) : (c.modClusters f).l1i = c.l1i := rfl
@[simp] theorem modClusters_lq (c : Core) (f : Lane → Cluster → Cluster) : (c.modClusters f).lq = c.lq := rfl
@[simp] theorem modClusters_sq (c : Core) (f : Lane → Cluster → Cluster) : (c.modClusters f).sq = c.sq := rfl
@[simp] theorem modClusters_eq (c : Core) (f : Lane → Cluster → Cluster) : (c.modClusters f).eq = c.eq := rfl
@[simp] theorem modClusters_lqIssued (c : Core) (f : Lane → Cluster → Cluster) : (c.modClusters f).lqIssued = c.lqIssued := rfl
@[simp] theorem modClusters_sqIssued (c : Core) (f : Lane → Cluster → Cluster) : (c.modClusters f).sqIssued = c.sqIssued := rfl
@[simp] theorem modClusters_eqIssued (c : Core) (f : Lane → Cluster → Cluster) : (c.modClusters f).eqIssued = c.eqIssued := rfl
@[simp] theorem modClusters_lqDone (c : Core) (f : Lane → Cluster → Cluster) : (c.modClusters f).lqDone = c.lqDone := rfl
@[simp] theorem modClusters_sqDone (c : Core) (f : Lane → Cluster → Cluster) : (c.modClusters f).sqDone = c.sqDone := rfl
@[simp] theorem modClusters_eqDone (c : Core) (f : Lane → Cluster → Cluster) : (c.modClusters f).eqDone = c.eqDone := rfl
@[simp] theorem modClusters_lqWarm (c : Core) (f : Lane → Cluster → Cluster) : (c.modClusters f).lqWarm = c.lqWarm := rfl
@[simp] theorem modClusters_sqWarm (c : Core) (f : Lane → Cluster → Cluster) : (c.modClusters f).sqWarm = c.sqWarm := rfl
@[simp] theorem modClusters_eqWarm (c : Core) (f : Lane → Cluster → Cluster) : (c.modClusters f).eqWarm = c.eqWarm := rfl
@[simp] theorem modClusters_markNo (c : Core) (f : Lane → Cluster → Cluster) : (c.modClusters f).markNo = c.markNo := rfl
@[simp] theorem modClusters_back (c : Core) (f : Lane → Cluster → Cluster) : (c.modClusters f).back = c.back := rfl
@[simp] theorem modClusters_tlb (c : Core) (f : Lane → Cluster → Cluster) : (c.modClusters f).tlb = c.tlb := rfl
@[simp] theorem modClusters_str (c : Core) (f : Lane → Cluster → Cluster) : (c.modClusters f).str = c.str := rfl
@[simp] theorem modClusters_shp (c : Core) (f : Lane → Cluster → Cluster) : (c.modClusters f).shp = c.shp := rfl
@[simp] theorem modClusters_shpBusy (c : Core) (f : Lane → Cluster → Cluster) : (c.modClusters f).shpBusy = c.shpBusy := rfl
@[simp] theorem modClusters_xings (c : Core) (f : Lane → Cluster → Cluster) : (c.modClusters f).xings = c.xings := rfl
@[simp] theorem modClusters_xseq (c : Core) (f : Lane → Cluster → Cluster) : (c.modClusters f).xseq = c.xseq := rfl
@[simp] theorem modClusters_xcan (c : Core) (f : Lane → Cluster → Cluster) : (c.modClusters f).xcan = c.xcan := rfl
@[simp] theorem modClusters_xkinds (c : Core) (f : Lane → Cluster → Cluster) : (c.modClusters f).xkinds = c.xkinds := rfl
@[simp] theorem modClusters_paths (c : Core) (f : Lane → Cluster → Cluster) : (c.modClusters f).paths = c.paths := rfl
@[simp] theorem modClusters_oeq (c : Core) (f : Lane → Cluster → Cluster) : (c.modClusters f).oeq = c.oeq := rfl
@[simp] theorem modClusters_oeqLost (c : Core) (f : Lane → Cluster → Cluster) : (c.modClusters f).oeqLost = c.oeqLost := rfl
@[simp] theorem modClusters_oeqFreed (c : Core) (f : Lane → Cluster → Cluster) : (c.modClusters f).oeqFreed = c.oeqFreed := rfl
@[simp] theorem modClusters_oeqNow (c : Core) (f : Lane → Cluster → Cluster) : (c.modClusters f).oeqNow = c.oeqNow := rfl
@[simp] theorem modClusters_bcache (c : Core) (f : Lane → Cluster → Cluster) : (c.modClusters f).bcache = c.bcache := rfl
@[simp] theorem modClusters_shares (c : Core) (f : Lane → Cluster → Cluster) : (c.modClusters f).shares = c.shares := rfl
@[simp] theorem modClusters_sends (c : Core) (f : Lane → Cluster → Cluster) : (c.modClusters f).sends = c.sends := rfl
@[simp] theorem modClusters_atoms (c : Core) (f : Lane → Cluster → Cluster) : (c.modClusters f).atoms = c.atoms := rfl
@[simp] theorem modClusters_atomNo (c : Core) (f : Lane → Cluster → Cluster) : (c.modClusters f).atomNo = c.atomNo := rfl
@[simp] theorem modClusters_drains (c : Core) (f : Lane → Cluster → Cluster) : (c.modClusters f).drains = c.drains := rfl
@[simp] theorem modClusters_barCount (c : Core) (f : Lane → Cluster → Cluster) : (c.modClusters f).barCount = c.barCount := rfl
@[simp] theorem modClusters_bar (c : Core) (f : Lane → Cluster → Cluster) : (c.modClusters f).bar = c.bar := rfl
@[simp] theorem modClusters_barGot (c : Core) (f : Lane → Cluster → Cluster) : (c.modClusters f).barGot = c.barGot := rfl
@[simp] theorem modClusters_mirror (c : Core) (f : Lane → Cluster → Cluster) : (c.modClusters f).mirror = c.mirror := rfl
@[simp] theorem modClusters_heatAcc (c : Core) (f : Lane → Cluster → Cluster) : (c.modClusters f).heatAcc = c.heatAcc := rfl
@[simp] theorem modClusters_heatNow (c : Core) (f : Lane → Cluster → Cluster) : (c.modClusters f).heatNow = c.heatNow := rfl
@[simp] theorem modClusters_heatAdm (c : Core) (f : Lane → Cluster → Cluster) : (c.modClusters f).heatAdm = c.heatAdm := rfl
@[simp] theorem modClusters_heatBud (c : Core) (f : Lane → Cluster → Cluster) : (c.modClusters f).heatBud = c.heatBud := rfl
@[simp] theorem modClusters_heatSet (c : Core) (f : Lane → Cluster → Cluster) : (c.modClusters f).heatSet = c.heatSet := rfl
@[simp] theorem modClusters_heatNext (c : Core) (f : Lane → Cluster → Cluster) : (c.modClusters f).heatNext = c.heatNext := rfl
@[simp] theorem modClusters_heatCeil (c : Core) (f : Lane → Cluster → Cluster) : (c.modClusters f).heatCeil = c.heatCeil := rfl
@[simp] theorem modClusters_stallCnt (c : Core) (f : Lane → Cluster → Cluster) : (c.modClusters f).stallCnt = c.stallCnt := rfl
@[simp] theorem modClusters_mcmask (c : Core) (f : Lane → Cluster → Cluster) : (c.modClusters f).mcmask = c.mcmask := rfl
@[simp] theorem modClusters_chksb (c : Core) (f : Lane → Cluster → Cluster) : (c.modClusters f).chksb = c.chksb := rfl
@[simp] theorem modClusters_stallim (c : Core) (f : Lane → Cluster → Cluster) : (c.modClusters f).stallim = c.stallim := rfl
@[simp] theorem modClusters_rstlbl (c : Core) (f : Lane → Cluster → Cluster) : (c.modClusters f).rstlbl = c.rstlbl := rfl
@[simp] theorem modClusters_rstidx (c : Core) (f : Lane → Cluster → Cluster) : (c.modClusters f).rstidx = c.rstidx := rfl
@[simp] theorem modClusters_tvec (c : Core) (f : Lane → Cluster → Cluster) : (c.modClusters f).tvec = c.tvec := rfl
@[simp] theorem modClusters_tscratch (c : Core) (f : Lane → Cluster → Cluster) : (c.modClusters f).tscratch = c.tscratch := rfl
@[simp] theorem modClusters_inj (c : Core) (f : Lane → Cluster → Cluster) : (c.modClusters f).inj = c.inj := rfl
@[simp] theorem modClusters_wselCold (c : Core) (f : Lane → Cluster → Cluster) : (c.modClusters f).wselCold = c.wselCold := rfl
@[simp] theorem modClusters_sysNext (c : Core) (f : Lane → Cluster → Cluster) : (c.modClusters f).sysNext = c.sysNext := rfl
@[simp] theorem modClusters_inHandler (c : Core) (f : Lane → Cluster → Cluster) : (c.modClusters f).inHandler = c.inHandler := rfl
@[simp] theorem modClusters_tacked (c : Core) (f : Lane → Cluster → Cluster) : (c.modClusters f).tacked = c.tacked := rfl
@[simp] theorem modClusters_nested (c : Core) (f : Lane → Cluster → Cluster) : (c.modClusters f).nested = c.nested := rfl
@[simp] theorem modClusters_accLost (c : Core) (f : Lane → Cluster → Cluster) : (c.modClusters f).accLost = c.accLost := rfl
@[simp] theorem modClusters_emulate (c : Core) (f : Lane → Cluster → Cluster) : (c.modClusters f).emulate = c.emulate := rfl
@[simp] theorem modClusters_substAt (c : Core) (f : Lane → Cluster → Cluster) : (c.modClusters f).substAt = c.substAt := rfl
@[simp] theorem modClusters_cutAt (c : Core) (f : Lane → Cluster → Cluster) : (c.modClusters f).cutAt = c.cutAt := rfl
@[simp] theorem modClusters_cutNest (c : Core) (f : Lane → Cluster → Cluster) : (c.modClusters f).cutNest = c.cutNest := rfl
@[simp] theorem modClusters_accHere (c : Core) (f : Lane → Cluster → Cluster) : (c.modClusters f).accHere = c.accHere := rfl
@[simp] theorem modClusters_saved (c : Core) (f : Lane → Cluster → Cluster) : (c.modClusters f).saved = c.saved := rfl
@[simp] theorem modClusters_halting (c : Core) (f : Lane → Cluster → Cluster) : (c.modClusters f).halting = c.halting := rfl
@[simp] theorem modClusters_haltAt (c : Core) (f : Lane → Cluster → Cluster) : (c.modClusters f).haltAt = c.haltAt := rfl
@[simp] theorem modClusters_returning (c : Core) (f : Lane → Cluster → Cluster) : (c.modClusters f).returning = c.returning := rfl
@[simp] theorem modClusters_trapNext (c : Core) (f : Lane → Cluster → Cluster) : (c.modClusters f).trapNext = c.trapNext := rfl
@[simp] theorem modClusters_preempt (c : Core) (f : Lane → Cluster → Cluster) : (c.modClusters f).preempt = c.preempt := rfl
@[simp] theorem modClusters_late (c : Core) (f : Lane → Cluster → Cluster) : (c.modClusters f).late = c.late := rfl
@[simp] theorem modClusters_rotReq (c : Core) (f : Lane → Cluster → Cluster) : (c.modClusters f).rotReq = c.rotReq := rfl
@[simp] theorem modClusters_drained (c : Core) (f : Lane → Cluster → Cluster) : (c.modClusters f).drained = c.drained := rfl
@[simp] theorem modClusters_win (c : Core) (f : Lane → Cluster → Cluster) : (c.modClusters f).win = c.win := rfl
@[simp] theorem modClusters_replay (c : Core) (f : Lane → Cluster → Cluster) : (c.modClusters f).replay = c.replay := rfl
@[simp] theorem modClusters_owed (c : Core) (f : Lane → Cluster → Cluster) : (c.modClusters f).owed = c.owed := rfl
@[simp] theorem modClusters_badGran (c : Core) (f : Lane → Cluster → Cluster) : (c.modClusters f).badGran = c.badGran := rfl
@[simp] theorem modClusters_badAcc (c : Core) (f : Lane → Cluster → Cluster) : (c.modClusters f).badAcc = c.badAcc := rfl
@[simp] theorem modClusters_badOrd (c : Core) (f : Lane → Cluster → Cluster) : (c.modClusters f).badOrd = c.badOrd := rfl
@[simp] theorem modClusters_badL1 (c : Core) (f : Lane → Cluster → Cluster) : (c.modClusters f).badL1 = c.badL1 := rfl
@[simp] theorem modClusters_trail (c : Core) (f : Lane → Cluster → Cluster) : (c.modClusters f).trail = c.trail := rfl
@[simp] theorem modClusters_cold (c : Core) (f : Lane → Cluster → Cluster) : (c.modClusters f).cold = c.cold := rfl
@[simp] theorem modTok_slot0 (c : Core) (i : Nat) (f : Fifo → Fifo) : (c.modTok i f).slot0 = c.slot0 := rfl
@[simp] theorem modTok_slot1 (c : Core) (i : Nat) (f : Fifo → Fifo) : (c.modTok i f).slot1 = c.slot1 := rfl
@[simp] theorem modTok_run (c : Core) (i : Nat) (f : Fifo → Fifo) : (c.modTok i f).run = c.run := rfl
@[simp] theorem modTok_clearAt (c : Core) (i : Nat) (f : Fifo → Fifo) : (c.modTok i f).clearAt = c.clearAt := rfl
@[simp] theorem modTok_swapAt (c : Core) (i : Nat) (f : Fifo → Fifo) : (c.modTok i f).swapAt = c.swapAt := rfl
@[simp] theorem modTok_recs (c : Core) (i : Nat) (f : Fifo → Fifo) : (c.modTok i f).recs = c.recs := rfl
@[simp] theorem modTok_reserved (c : Core) (i : Nat) (f : Fifo → Fifo) : (c.modTok i f).reserved = c.reserved := rfl
@[simp] theorem modTok_failed (c : Core) (i : Nat) (f : Fifo → Fifo) : (c.modTok i f).failed = c.failed := rfl
@[simp] theorem modTok_l (c : Core) (i : Nat) (f : Fifo → Fifo) : (c.modTok i f).l = c.l := rfl
@[simp] theorem modTok_e (c : Core) (i : Nat) (f : Fifo → Fifo) : (c.modTok i f).e = c.e := rfl
@[simp] theorem modTok_s (c : Core) (i : Nat) (f : Fifo → Fifo) : (c.modTok i f).s = c.s := rfl
@[simp] theorem modTok_k (c : Core) (i : Nat) (f : Fifo → Fifo) : (c.modTok i f).k = c.k := rfl
@[simp] theorem modTok_port (c : Core) (i : Nat) (f : Fifo → Fifo) : (c.modTok i f).port = c.port := rfl
@[simp] theorem modTok_loopNo (c : Core) (i : Nat) (f : Fifo → Fifo) : (c.modTok i f).loopNo = c.loopNo := rfl
@[simp] theorem modTok_l1d (c : Core) (i : Nat) (f : Fifo → Fifo) : (c.modTok i f).l1d = c.l1d := rfl
@[simp] theorem modTok_l1i (c : Core) (i : Nat) (f : Fifo → Fifo) : (c.modTok i f).l1i = c.l1i := rfl
@[simp] theorem modTok_lq (c : Core) (i : Nat) (f : Fifo → Fifo) : (c.modTok i f).lq = c.lq := rfl
@[simp] theorem modTok_sq (c : Core) (i : Nat) (f : Fifo → Fifo) : (c.modTok i f).sq = c.sq := rfl
@[simp] theorem modTok_eq (c : Core) (i : Nat) (f : Fifo → Fifo) : (c.modTok i f).eq = c.eq := rfl
@[simp] theorem modTok_lqIssued (c : Core) (i : Nat) (f : Fifo → Fifo) : (c.modTok i f).lqIssued = c.lqIssued := rfl
@[simp] theorem modTok_sqIssued (c : Core) (i : Nat) (f : Fifo → Fifo) : (c.modTok i f).sqIssued = c.sqIssued := rfl
@[simp] theorem modTok_eqIssued (c : Core) (i : Nat) (f : Fifo → Fifo) : (c.modTok i f).eqIssued = c.eqIssued := rfl
@[simp] theorem modTok_lqDone (c : Core) (i : Nat) (f : Fifo → Fifo) : (c.modTok i f).lqDone = c.lqDone := rfl
@[simp] theorem modTok_sqDone (c : Core) (i : Nat) (f : Fifo → Fifo) : (c.modTok i f).sqDone = c.sqDone := rfl
@[simp] theorem modTok_eqDone (c : Core) (i : Nat) (f : Fifo → Fifo) : (c.modTok i f).eqDone = c.eqDone := rfl
@[simp] theorem modTok_lqWarm (c : Core) (i : Nat) (f : Fifo → Fifo) : (c.modTok i f).lqWarm = c.lqWarm := rfl
@[simp] theorem modTok_sqWarm (c : Core) (i : Nat) (f : Fifo → Fifo) : (c.modTok i f).sqWarm = c.sqWarm := rfl
@[simp] theorem modTok_eqWarm (c : Core) (i : Nat) (f : Fifo → Fifo) : (c.modTok i f).eqWarm = c.eqWarm := rfl
@[simp] theorem modTok_markNo (c : Core) (i : Nat) (f : Fifo → Fifo) : (c.modTok i f).markNo = c.markNo := rfl
@[simp] theorem modTok_back (c : Core) (i : Nat) (f : Fifo → Fifo) : (c.modTok i f).back = c.back := rfl
@[simp] theorem modTok_tlb (c : Core) (i : Nat) (f : Fifo → Fifo) : (c.modTok i f).tlb = c.tlb := rfl
@[simp] theorem modTok_str (c : Core) (i : Nat) (f : Fifo → Fifo) : (c.modTok i f).str = c.str := rfl
@[simp] theorem modTok_shp (c : Core) (i : Nat) (f : Fifo → Fifo) : (c.modTok i f).shp = c.shp := rfl
@[simp] theorem modTok_shpBusy (c : Core) (i : Nat) (f : Fifo → Fifo) : (c.modTok i f).shpBusy = c.shpBusy := rfl
@[simp] theorem modTok_xings (c : Core) (i : Nat) (f : Fifo → Fifo) : (c.modTok i f).xings = c.xings := rfl
@[simp] theorem modTok_xseq (c : Core) (i : Nat) (f : Fifo → Fifo) : (c.modTok i f).xseq = c.xseq := rfl
@[simp] theorem modTok_xcan (c : Core) (i : Nat) (f : Fifo → Fifo) : (c.modTok i f).xcan = c.xcan := rfl
@[simp] theorem modTok_xkinds (c : Core) (i : Nat) (f : Fifo → Fifo) : (c.modTok i f).xkinds = c.xkinds := rfl
@[simp] theorem modTok_paths (c : Core) (i : Nat) (f : Fifo → Fifo) : (c.modTok i f).paths = c.paths := rfl
@[simp] theorem modTok_oeq (c : Core) (i : Nat) (f : Fifo → Fifo) : (c.modTok i f).oeq = c.oeq := rfl
@[simp] theorem modTok_oeqLost (c : Core) (i : Nat) (f : Fifo → Fifo) : (c.modTok i f).oeqLost = c.oeqLost := rfl
@[simp] theorem modTok_oeqFreed (c : Core) (i : Nat) (f : Fifo → Fifo) : (c.modTok i f).oeqFreed = c.oeqFreed := rfl
@[simp] theorem modTok_oeqNow (c : Core) (i : Nat) (f : Fifo → Fifo) : (c.modTok i f).oeqNow = c.oeqNow := rfl
@[simp] theorem modTok_bcache (c : Core) (i : Nat) (f : Fifo → Fifo) : (c.modTok i f).bcache = c.bcache := rfl
@[simp] theorem modTok_shares (c : Core) (i : Nat) (f : Fifo → Fifo) : (c.modTok i f).shares = c.shares := rfl
@[simp] theorem modTok_sends (c : Core) (i : Nat) (f : Fifo → Fifo) : (c.modTok i f).sends = c.sends := rfl
@[simp] theorem modTok_atoms (c : Core) (i : Nat) (f : Fifo → Fifo) : (c.modTok i f).atoms = c.atoms := rfl
@[simp] theorem modTok_atomNo (c : Core) (i : Nat) (f : Fifo → Fifo) : (c.modTok i f).atomNo = c.atomNo := rfl
@[simp] theorem modTok_drains (c : Core) (i : Nat) (f : Fifo → Fifo) : (c.modTok i f).drains = c.drains := rfl
@[simp] theorem modTok_barCount (c : Core) (i : Nat) (f : Fifo → Fifo) : (c.modTok i f).barCount = c.barCount := rfl
@[simp] theorem modTok_bar (c : Core) (i : Nat) (f : Fifo → Fifo) : (c.modTok i f).bar = c.bar := rfl
@[simp] theorem modTok_barGot (c : Core) (i : Nat) (f : Fifo → Fifo) : (c.modTok i f).barGot = c.barGot := rfl
@[simp] theorem modTok_mirror (c : Core) (i : Nat) (f : Fifo → Fifo) : (c.modTok i f).mirror = c.mirror := rfl
@[simp] theorem modTok_heatAcc (c : Core) (i : Nat) (f : Fifo → Fifo) : (c.modTok i f).heatAcc = c.heatAcc := rfl
@[simp] theorem modTok_heatNow (c : Core) (i : Nat) (f : Fifo → Fifo) : (c.modTok i f).heatNow = c.heatNow := rfl
@[simp] theorem modTok_heatAdm (c : Core) (i : Nat) (f : Fifo → Fifo) : (c.modTok i f).heatAdm = c.heatAdm := rfl
@[simp] theorem modTok_heatBud (c : Core) (i : Nat) (f : Fifo → Fifo) : (c.modTok i f).heatBud = c.heatBud := rfl
@[simp] theorem modTok_heatSet (c : Core) (i : Nat) (f : Fifo → Fifo) : (c.modTok i f).heatSet = c.heatSet := rfl
@[simp] theorem modTok_heatNext (c : Core) (i : Nat) (f : Fifo → Fifo) : (c.modTok i f).heatNext = c.heatNext := rfl
@[simp] theorem modTok_heatCeil (c : Core) (i : Nat) (f : Fifo → Fifo) : (c.modTok i f).heatCeil = c.heatCeil := rfl
@[simp] theorem modTok_stallCnt (c : Core) (i : Nat) (f : Fifo → Fifo) : (c.modTok i f).stallCnt = c.stallCnt := rfl
@[simp] theorem modTok_mcmask (c : Core) (i : Nat) (f : Fifo → Fifo) : (c.modTok i f).mcmask = c.mcmask := rfl
@[simp] theorem modTok_chksb (c : Core) (i : Nat) (f : Fifo → Fifo) : (c.modTok i f).chksb = c.chksb := rfl
@[simp] theorem modTok_stallim (c : Core) (i : Nat) (f : Fifo → Fifo) : (c.modTok i f).stallim = c.stallim := rfl
@[simp] theorem modTok_rstlbl (c : Core) (i : Nat) (f : Fifo → Fifo) : (c.modTok i f).rstlbl = c.rstlbl := rfl
@[simp] theorem modTok_rstidx (c : Core) (i : Nat) (f : Fifo → Fifo) : (c.modTok i f).rstidx = c.rstidx := rfl
@[simp] theorem modTok_tvec (c : Core) (i : Nat) (f : Fifo → Fifo) : (c.modTok i f).tvec = c.tvec := rfl
@[simp] theorem modTok_tscratch (c : Core) (i : Nat) (f : Fifo → Fifo) : (c.modTok i f).tscratch = c.tscratch := rfl
@[simp] theorem modTok_inj (c : Core) (i : Nat) (f : Fifo → Fifo) : (c.modTok i f).inj = c.inj := rfl
@[simp] theorem modTok_wselCold (c : Core) (i : Nat) (f : Fifo → Fifo) : (c.modTok i f).wselCold = c.wselCold := rfl
@[simp] theorem modTok_sysNext (c : Core) (i : Nat) (f : Fifo → Fifo) : (c.modTok i f).sysNext = c.sysNext := rfl
@[simp] theorem modTok_inHandler (c : Core) (i : Nat) (f : Fifo → Fifo) : (c.modTok i f).inHandler = c.inHandler := rfl
@[simp] theorem modTok_tacked (c : Core) (i : Nat) (f : Fifo → Fifo) : (c.modTok i f).tacked = c.tacked := rfl
@[simp] theorem modTok_nested (c : Core) (i : Nat) (f : Fifo → Fifo) : (c.modTok i f).nested = c.nested := rfl
@[simp] theorem modTok_accLost (c : Core) (i : Nat) (f : Fifo → Fifo) : (c.modTok i f).accLost = c.accLost := rfl
@[simp] theorem modTok_emulate (c : Core) (i : Nat) (f : Fifo → Fifo) : (c.modTok i f).emulate = c.emulate := rfl
@[simp] theorem modTok_substAt (c : Core) (i : Nat) (f : Fifo → Fifo) : (c.modTok i f).substAt = c.substAt := rfl
@[simp] theorem modTok_cutAt (c : Core) (i : Nat) (f : Fifo → Fifo) : (c.modTok i f).cutAt = c.cutAt := rfl
@[simp] theorem modTok_cutNest (c : Core) (i : Nat) (f : Fifo → Fifo) : (c.modTok i f).cutNest = c.cutNest := rfl
@[simp] theorem modTok_accHere (c : Core) (i : Nat) (f : Fifo → Fifo) : (c.modTok i f).accHere = c.accHere := rfl
@[simp] theorem modTok_saved (c : Core) (i : Nat) (f : Fifo → Fifo) : (c.modTok i f).saved = c.saved := rfl
@[simp] theorem modTok_halting (c : Core) (i : Nat) (f : Fifo → Fifo) : (c.modTok i f).halting = c.halting := rfl
@[simp] theorem modTok_haltAt (c : Core) (i : Nat) (f : Fifo → Fifo) : (c.modTok i f).haltAt = c.haltAt := rfl
@[simp] theorem modTok_returning (c : Core) (i : Nat) (f : Fifo → Fifo) : (c.modTok i f).returning = c.returning := rfl
@[simp] theorem modTok_trapNext (c : Core) (i : Nat) (f : Fifo → Fifo) : (c.modTok i f).trapNext = c.trapNext := rfl
@[simp] theorem modTok_preempt (c : Core) (i : Nat) (f : Fifo → Fifo) : (c.modTok i f).preempt = c.preempt := rfl
@[simp] theorem modTok_late (c : Core) (i : Nat) (f : Fifo → Fifo) : (c.modTok i f).late = c.late := rfl
@[simp] theorem modTok_rotReq (c : Core) (i : Nat) (f : Fifo → Fifo) : (c.modTok i f).rotReq = c.rotReq := rfl
@[simp] theorem modTok_drained (c : Core) (i : Nat) (f : Fifo → Fifo) : (c.modTok i f).drained = c.drained := rfl
@[simp] theorem modTok_win (c : Core) (i : Nat) (f : Fifo → Fifo) : (c.modTok i f).win = c.win := rfl
@[simp] theorem modTok_replay (c : Core) (i : Nat) (f : Fifo → Fifo) : (c.modTok i f).replay = c.replay := rfl
@[simp] theorem modTok_owed (c : Core) (i : Nat) (f : Fifo → Fifo) : (c.modTok i f).owed = c.owed := rfl
@[simp] theorem modTok_badGran (c : Core) (i : Nat) (f : Fifo → Fifo) : (c.modTok i f).badGran = c.badGran := rfl
@[simp] theorem modTok_badAcc (c : Core) (i : Nat) (f : Fifo → Fifo) : (c.modTok i f).badAcc = c.badAcc := rfl
@[simp] theorem modTok_badOrd (c : Core) (i : Nat) (f : Fifo → Fifo) : (c.modTok i f).badOrd = c.badOrd := rfl
@[simp] theorem modTok_badL1 (c : Core) (i : Nat) (f : Fifo → Fifo) : (c.modTok i f).badL1 = c.badL1 := rfl
@[simp] theorem modTok_trail (c : Core) (i : Nat) (f : Fifo → Fifo) : (c.modTok i f).trail = c.trail := rfl
@[simp] theorem modTok_cold (c : Core) (i : Nat) (f : Fifo → Fifo) : (c.modTok i f).cold = c.cold := rfl
@[simp] theorem modPort_slot0 (c : Core) (i : Nat) (f : Fifo → Fifo) : (c.modPort i f).slot0 = c.slot0 := rfl
@[simp] theorem modPort_slot1 (c : Core) (i : Nat) (f : Fifo → Fifo) : (c.modPort i f).slot1 = c.slot1 := rfl
@[simp] theorem modPort_run (c : Core) (i : Nat) (f : Fifo → Fifo) : (c.modPort i f).run = c.run := rfl
@[simp] theorem modPort_clearAt (c : Core) (i : Nat) (f : Fifo → Fifo) : (c.modPort i f).clearAt = c.clearAt := rfl
@[simp] theorem modPort_swapAt (c : Core) (i : Nat) (f : Fifo → Fifo) : (c.modPort i f).swapAt = c.swapAt := rfl
@[simp] theorem modPort_recs (c : Core) (i : Nat) (f : Fifo → Fifo) : (c.modPort i f).recs = c.recs := rfl
@[simp] theorem modPort_reserved (c : Core) (i : Nat) (f : Fifo → Fifo) : (c.modPort i f).reserved = c.reserved := rfl
@[simp] theorem modPort_failed (c : Core) (i : Nat) (f : Fifo → Fifo) : (c.modPort i f).failed = c.failed := rfl
@[simp] theorem modPort_l (c : Core) (i : Nat) (f : Fifo → Fifo) : (c.modPort i f).l = c.l := rfl
@[simp] theorem modPort_e (c : Core) (i : Nat) (f : Fifo → Fifo) : (c.modPort i f).e = c.e := rfl
@[simp] theorem modPort_s (c : Core) (i : Nat) (f : Fifo → Fifo) : (c.modPort i f).s = c.s := rfl
@[simp] theorem modPort_k (c : Core) (i : Nat) (f : Fifo → Fifo) : (c.modPort i f).k = c.k := rfl
@[simp] theorem modPort_tok (c : Core) (i : Nat) (f : Fifo → Fifo) : (c.modPort i f).tok = c.tok := rfl
@[simp] theorem modPort_loopNo (c : Core) (i : Nat) (f : Fifo → Fifo) : (c.modPort i f).loopNo = c.loopNo := rfl
@[simp] theorem modPort_l1d (c : Core) (i : Nat) (f : Fifo → Fifo) : (c.modPort i f).l1d = c.l1d := rfl
@[simp] theorem modPort_l1i (c : Core) (i : Nat) (f : Fifo → Fifo) : (c.modPort i f).l1i = c.l1i := rfl
@[simp] theorem modPort_lq (c : Core) (i : Nat) (f : Fifo → Fifo) : (c.modPort i f).lq = c.lq := rfl
@[simp] theorem modPort_sq (c : Core) (i : Nat) (f : Fifo → Fifo) : (c.modPort i f).sq = c.sq := rfl
@[simp] theorem modPort_eq (c : Core) (i : Nat) (f : Fifo → Fifo) : (c.modPort i f).eq = c.eq := rfl
@[simp] theorem modPort_lqIssued (c : Core) (i : Nat) (f : Fifo → Fifo) : (c.modPort i f).lqIssued = c.lqIssued := rfl
@[simp] theorem modPort_sqIssued (c : Core) (i : Nat) (f : Fifo → Fifo) : (c.modPort i f).sqIssued = c.sqIssued := rfl
@[simp] theorem modPort_eqIssued (c : Core) (i : Nat) (f : Fifo → Fifo) : (c.modPort i f).eqIssued = c.eqIssued := rfl
@[simp] theorem modPort_lqDone (c : Core) (i : Nat) (f : Fifo → Fifo) : (c.modPort i f).lqDone = c.lqDone := rfl
@[simp] theorem modPort_sqDone (c : Core) (i : Nat) (f : Fifo → Fifo) : (c.modPort i f).sqDone = c.sqDone := rfl
@[simp] theorem modPort_eqDone (c : Core) (i : Nat) (f : Fifo → Fifo) : (c.modPort i f).eqDone = c.eqDone := rfl
@[simp] theorem modPort_lqWarm (c : Core) (i : Nat) (f : Fifo → Fifo) : (c.modPort i f).lqWarm = c.lqWarm := rfl
@[simp] theorem modPort_sqWarm (c : Core) (i : Nat) (f : Fifo → Fifo) : (c.modPort i f).sqWarm = c.sqWarm := rfl
@[simp] theorem modPort_eqWarm (c : Core) (i : Nat) (f : Fifo → Fifo) : (c.modPort i f).eqWarm = c.eqWarm := rfl
@[simp] theorem modPort_markNo (c : Core) (i : Nat) (f : Fifo → Fifo) : (c.modPort i f).markNo = c.markNo := rfl
@[simp] theorem modPort_back (c : Core) (i : Nat) (f : Fifo → Fifo) : (c.modPort i f).back = c.back := rfl
@[simp] theorem modPort_tlb (c : Core) (i : Nat) (f : Fifo → Fifo) : (c.modPort i f).tlb = c.tlb := rfl
@[simp] theorem modPort_str (c : Core) (i : Nat) (f : Fifo → Fifo) : (c.modPort i f).str = c.str := rfl
@[simp] theorem modPort_shp (c : Core) (i : Nat) (f : Fifo → Fifo) : (c.modPort i f).shp = c.shp := rfl
@[simp] theorem modPort_shpBusy (c : Core) (i : Nat) (f : Fifo → Fifo) : (c.modPort i f).shpBusy = c.shpBusy := rfl
@[simp] theorem modPort_xings (c : Core) (i : Nat) (f : Fifo → Fifo) : (c.modPort i f).xings = c.xings := rfl
@[simp] theorem modPort_xseq (c : Core) (i : Nat) (f : Fifo → Fifo) : (c.modPort i f).xseq = c.xseq := rfl
@[simp] theorem modPort_xcan (c : Core) (i : Nat) (f : Fifo → Fifo) : (c.modPort i f).xcan = c.xcan := rfl
@[simp] theorem modPort_xkinds (c : Core) (i : Nat) (f : Fifo → Fifo) : (c.modPort i f).xkinds = c.xkinds := rfl
@[simp] theorem modPort_paths (c : Core) (i : Nat) (f : Fifo → Fifo) : (c.modPort i f).paths = c.paths := rfl
@[simp] theorem modPort_oeq (c : Core) (i : Nat) (f : Fifo → Fifo) : (c.modPort i f).oeq = c.oeq := rfl
@[simp] theorem modPort_oeqLost (c : Core) (i : Nat) (f : Fifo → Fifo) : (c.modPort i f).oeqLost = c.oeqLost := rfl
@[simp] theorem modPort_oeqFreed (c : Core) (i : Nat) (f : Fifo → Fifo) : (c.modPort i f).oeqFreed = c.oeqFreed := rfl
@[simp] theorem modPort_oeqNow (c : Core) (i : Nat) (f : Fifo → Fifo) : (c.modPort i f).oeqNow = c.oeqNow := rfl
@[simp] theorem modPort_bcache (c : Core) (i : Nat) (f : Fifo → Fifo) : (c.modPort i f).bcache = c.bcache := rfl
@[simp] theorem modPort_shares (c : Core) (i : Nat) (f : Fifo → Fifo) : (c.modPort i f).shares = c.shares := rfl
@[simp] theorem modPort_sends (c : Core) (i : Nat) (f : Fifo → Fifo) : (c.modPort i f).sends = c.sends := rfl
@[simp] theorem modPort_atoms (c : Core) (i : Nat) (f : Fifo → Fifo) : (c.modPort i f).atoms = c.atoms := rfl
@[simp] theorem modPort_atomNo (c : Core) (i : Nat) (f : Fifo → Fifo) : (c.modPort i f).atomNo = c.atomNo := rfl
@[simp] theorem modPort_drains (c : Core) (i : Nat) (f : Fifo → Fifo) : (c.modPort i f).drains = c.drains := rfl
@[simp] theorem modPort_barCount (c : Core) (i : Nat) (f : Fifo → Fifo) : (c.modPort i f).barCount = c.barCount := rfl
@[simp] theorem modPort_bar (c : Core) (i : Nat) (f : Fifo → Fifo) : (c.modPort i f).bar = c.bar := rfl
@[simp] theorem modPort_barGot (c : Core) (i : Nat) (f : Fifo → Fifo) : (c.modPort i f).barGot = c.barGot := rfl
@[simp] theorem modPort_mirror (c : Core) (i : Nat) (f : Fifo → Fifo) : (c.modPort i f).mirror = c.mirror := rfl
@[simp] theorem modPort_heatAcc (c : Core) (i : Nat) (f : Fifo → Fifo) : (c.modPort i f).heatAcc = c.heatAcc := rfl
@[simp] theorem modPort_heatNow (c : Core) (i : Nat) (f : Fifo → Fifo) : (c.modPort i f).heatNow = c.heatNow := rfl
@[simp] theorem modPort_heatAdm (c : Core) (i : Nat) (f : Fifo → Fifo) : (c.modPort i f).heatAdm = c.heatAdm := rfl
@[simp] theorem modPort_heatBud (c : Core) (i : Nat) (f : Fifo → Fifo) : (c.modPort i f).heatBud = c.heatBud := rfl
@[simp] theorem modPort_heatSet (c : Core) (i : Nat) (f : Fifo → Fifo) : (c.modPort i f).heatSet = c.heatSet := rfl
@[simp] theorem modPort_heatNext (c : Core) (i : Nat) (f : Fifo → Fifo) : (c.modPort i f).heatNext = c.heatNext := rfl
@[simp] theorem modPort_heatCeil (c : Core) (i : Nat) (f : Fifo → Fifo) : (c.modPort i f).heatCeil = c.heatCeil := rfl
@[simp] theorem modPort_stallCnt (c : Core) (i : Nat) (f : Fifo → Fifo) : (c.modPort i f).stallCnt = c.stallCnt := rfl
@[simp] theorem modPort_mcmask (c : Core) (i : Nat) (f : Fifo → Fifo) : (c.modPort i f).mcmask = c.mcmask := rfl
@[simp] theorem modPort_chksb (c : Core) (i : Nat) (f : Fifo → Fifo) : (c.modPort i f).chksb = c.chksb := rfl
@[simp] theorem modPort_stallim (c : Core) (i : Nat) (f : Fifo → Fifo) : (c.modPort i f).stallim = c.stallim := rfl
@[simp] theorem modPort_rstlbl (c : Core) (i : Nat) (f : Fifo → Fifo) : (c.modPort i f).rstlbl = c.rstlbl := rfl
@[simp] theorem modPort_rstidx (c : Core) (i : Nat) (f : Fifo → Fifo) : (c.modPort i f).rstidx = c.rstidx := rfl
@[simp] theorem modPort_tvec (c : Core) (i : Nat) (f : Fifo → Fifo) : (c.modPort i f).tvec = c.tvec := rfl
@[simp] theorem modPort_tscratch (c : Core) (i : Nat) (f : Fifo → Fifo) : (c.modPort i f).tscratch = c.tscratch := rfl
@[simp] theorem modPort_inj (c : Core) (i : Nat) (f : Fifo → Fifo) : (c.modPort i f).inj = c.inj := rfl
@[simp] theorem modPort_wselCold (c : Core) (i : Nat) (f : Fifo → Fifo) : (c.modPort i f).wselCold = c.wselCold := rfl
@[simp] theorem modPort_sysNext (c : Core) (i : Nat) (f : Fifo → Fifo) : (c.modPort i f).sysNext = c.sysNext := rfl
@[simp] theorem modPort_inHandler (c : Core) (i : Nat) (f : Fifo → Fifo) : (c.modPort i f).inHandler = c.inHandler := rfl
@[simp] theorem modPort_tacked (c : Core) (i : Nat) (f : Fifo → Fifo) : (c.modPort i f).tacked = c.tacked := rfl
@[simp] theorem modPort_nested (c : Core) (i : Nat) (f : Fifo → Fifo) : (c.modPort i f).nested = c.nested := rfl
@[simp] theorem modPort_accLost (c : Core) (i : Nat) (f : Fifo → Fifo) : (c.modPort i f).accLost = c.accLost := rfl
@[simp] theorem modPort_emulate (c : Core) (i : Nat) (f : Fifo → Fifo) : (c.modPort i f).emulate = c.emulate := rfl
@[simp] theorem modPort_substAt (c : Core) (i : Nat) (f : Fifo → Fifo) : (c.modPort i f).substAt = c.substAt := rfl
@[simp] theorem modPort_cutAt (c : Core) (i : Nat) (f : Fifo → Fifo) : (c.modPort i f).cutAt = c.cutAt := rfl
@[simp] theorem modPort_cutNest (c : Core) (i : Nat) (f : Fifo → Fifo) : (c.modPort i f).cutNest = c.cutNest := rfl
@[simp] theorem modPort_accHere (c : Core) (i : Nat) (f : Fifo → Fifo) : (c.modPort i f).accHere = c.accHere := rfl
@[simp] theorem modPort_saved (c : Core) (i : Nat) (f : Fifo → Fifo) : (c.modPort i f).saved = c.saved := rfl
@[simp] theorem modPort_halting (c : Core) (i : Nat) (f : Fifo → Fifo) : (c.modPort i f).halting = c.halting := rfl
@[simp] theorem modPort_haltAt (c : Core) (i : Nat) (f : Fifo → Fifo) : (c.modPort i f).haltAt = c.haltAt := rfl
@[simp] theorem modPort_returning (c : Core) (i : Nat) (f : Fifo → Fifo) : (c.modPort i f).returning = c.returning := rfl
@[simp] theorem modPort_trapNext (c : Core) (i : Nat) (f : Fifo → Fifo) : (c.modPort i f).trapNext = c.trapNext := rfl
@[simp] theorem modPort_preempt (c : Core) (i : Nat) (f : Fifo → Fifo) : (c.modPort i f).preempt = c.preempt := rfl
@[simp] theorem modPort_late (c : Core) (i : Nat) (f : Fifo → Fifo) : (c.modPort i f).late = c.late := rfl
@[simp] theorem modPort_rotReq (c : Core) (i : Nat) (f : Fifo → Fifo) : (c.modPort i f).rotReq = c.rotReq := rfl
@[simp] theorem modPort_drained (c : Core) (i : Nat) (f : Fifo → Fifo) : (c.modPort i f).drained = c.drained := rfl
@[simp] theorem modPort_win (c : Core) (i : Nat) (f : Fifo → Fifo) : (c.modPort i f).win = c.win := rfl
@[simp] theorem modPort_replay (c : Core) (i : Nat) (f : Fifo → Fifo) : (c.modPort i f).replay = c.replay := rfl
@[simp] theorem modPort_owed (c : Core) (i : Nat) (f : Fifo → Fifo) : (c.modPort i f).owed = c.owed := rfl
@[simp] theorem modPort_badGran (c : Core) (i : Nat) (f : Fifo → Fifo) : (c.modPort i f).badGran = c.badGran := rfl
@[simp] theorem modPort_badAcc (c : Core) (i : Nat) (f : Fifo → Fifo) : (c.modPort i f).badAcc = c.badAcc := rfl
@[simp] theorem modPort_badOrd (c : Core) (i : Nat) (f : Fifo → Fifo) : (c.modPort i f).badOrd = c.badOrd := rfl
@[simp] theorem modPort_badL1 (c : Core) (i : Nat) (f : Fifo → Fifo) : (c.modPort i f).badL1 = c.badL1 := rfl
@[simp] theorem modPort_trail (c : Core) (i : Nat) (f : Fifo → Fifo) : (c.modPort i f).trail = c.trail := rfl
@[simp] theorem modPort_cold (c : Core) (i : Nat) (f : Fifo → Fifo) : (c.modPort i f).cold = c.cold := rfl
@[simp] theorem modCold_slot0 (c : Core) (f : Cold → Cold) : (c.modCold f).slot0 = c.slot0 := rfl
@[simp] theorem modCold_slot1 (c : Core) (f : Cold → Cold) : (c.modCold f).slot1 = c.slot1 := rfl
@[simp] theorem modCold_run (c : Core) (f : Cold → Cold) : (c.modCold f).run = c.run := rfl
@[simp] theorem modCold_clearAt (c : Core) (f : Cold → Cold) : (c.modCold f).clearAt = c.clearAt := rfl
@[simp] theorem modCold_swapAt (c : Core) (f : Cold → Cold) : (c.modCold f).swapAt = c.swapAt := rfl
@[simp] theorem modCold_recs (c : Core) (f : Cold → Cold) : (c.modCold f).recs = c.recs := rfl
@[simp] theorem modCold_reserved (c : Core) (f : Cold → Cold) : (c.modCold f).reserved = c.reserved := rfl
@[simp] theorem modCold_failed (c : Core) (f : Cold → Cold) : (c.modCold f).failed = c.failed := rfl
@[simp] theorem modCold_l (c : Core) (f : Cold → Cold) : (c.modCold f).l = c.l := rfl
@[simp] theorem modCold_e (c : Core) (f : Cold → Cold) : (c.modCold f).e = c.e := rfl
@[simp] theorem modCold_s (c : Core) (f : Cold → Cold) : (c.modCold f).s = c.s := rfl
@[simp] theorem modCold_k (c : Core) (f : Cold → Cold) : (c.modCold f).k = c.k := rfl
@[simp] theorem modCold_tok (c : Core) (f : Cold → Cold) : (c.modCold f).tok = c.tok := rfl
@[simp] theorem modCold_port (c : Core) (f : Cold → Cold) : (c.modCold f).port = c.port := rfl
@[simp] theorem modCold_loopNo (c : Core) (f : Cold → Cold) : (c.modCold f).loopNo = c.loopNo := rfl
@[simp] theorem modCold_l1d (c : Core) (f : Cold → Cold) : (c.modCold f).l1d = c.l1d := rfl
@[simp] theorem modCold_l1i (c : Core) (f : Cold → Cold) : (c.modCold f).l1i = c.l1i := rfl
@[simp] theorem modCold_lq (c : Core) (f : Cold → Cold) : (c.modCold f).lq = c.lq := rfl
@[simp] theorem modCold_sq (c : Core) (f : Cold → Cold) : (c.modCold f).sq = c.sq := rfl
@[simp] theorem modCold_eq (c : Core) (f : Cold → Cold) : (c.modCold f).eq = c.eq := rfl
@[simp] theorem modCold_lqIssued (c : Core) (f : Cold → Cold) : (c.modCold f).lqIssued = c.lqIssued := rfl
@[simp] theorem modCold_sqIssued (c : Core) (f : Cold → Cold) : (c.modCold f).sqIssued = c.sqIssued := rfl
@[simp] theorem modCold_eqIssued (c : Core) (f : Cold → Cold) : (c.modCold f).eqIssued = c.eqIssued := rfl
@[simp] theorem modCold_lqDone (c : Core) (f : Cold → Cold) : (c.modCold f).lqDone = c.lqDone := rfl
@[simp] theorem modCold_sqDone (c : Core) (f : Cold → Cold) : (c.modCold f).sqDone = c.sqDone := rfl
@[simp] theorem modCold_eqDone (c : Core) (f : Cold → Cold) : (c.modCold f).eqDone = c.eqDone := rfl
@[simp] theorem modCold_lqWarm (c : Core) (f : Cold → Cold) : (c.modCold f).lqWarm = c.lqWarm := rfl
@[simp] theorem modCold_sqWarm (c : Core) (f : Cold → Cold) : (c.modCold f).sqWarm = c.sqWarm := rfl
@[simp] theorem modCold_eqWarm (c : Core) (f : Cold → Cold) : (c.modCold f).eqWarm = c.eqWarm := rfl
@[simp] theorem modCold_markNo (c : Core) (f : Cold → Cold) : (c.modCold f).markNo = c.markNo := rfl
@[simp] theorem modCold_back (c : Core) (f : Cold → Cold) : (c.modCold f).back = c.back := rfl
@[simp] theorem modCold_tlb (c : Core) (f : Cold → Cold) : (c.modCold f).tlb = c.tlb := rfl
@[simp] theorem modCold_str (c : Core) (f : Cold → Cold) : (c.modCold f).str = c.str := rfl
@[simp] theorem modCold_shp (c : Core) (f : Cold → Cold) : (c.modCold f).shp = c.shp := rfl
@[simp] theorem modCold_shpBusy (c : Core) (f : Cold → Cold) : (c.modCold f).shpBusy = c.shpBusy := rfl
@[simp] theorem modCold_xings (c : Core) (f : Cold → Cold) : (c.modCold f).xings = c.xings := rfl
@[simp] theorem modCold_xseq (c : Core) (f : Cold → Cold) : (c.modCold f).xseq = c.xseq := rfl
@[simp] theorem modCold_xcan (c : Core) (f : Cold → Cold) : (c.modCold f).xcan = c.xcan := rfl
@[simp] theorem modCold_xkinds (c : Core) (f : Cold → Cold) : (c.modCold f).xkinds = c.xkinds := rfl
@[simp] theorem modCold_paths (c : Core) (f : Cold → Cold) : (c.modCold f).paths = c.paths := rfl
@[simp] theorem modCold_oeq (c : Core) (f : Cold → Cold) : (c.modCold f).oeq = c.oeq := rfl
@[simp] theorem modCold_oeqLost (c : Core) (f : Cold → Cold) : (c.modCold f).oeqLost = c.oeqLost := rfl
@[simp] theorem modCold_oeqFreed (c : Core) (f : Cold → Cold) : (c.modCold f).oeqFreed = c.oeqFreed := rfl
@[simp] theorem modCold_oeqNow (c : Core) (f : Cold → Cold) : (c.modCold f).oeqNow = c.oeqNow := rfl
@[simp] theorem modCold_bcache (c : Core) (f : Cold → Cold) : (c.modCold f).bcache = c.bcache := rfl
@[simp] theorem modCold_shares (c : Core) (f : Cold → Cold) : (c.modCold f).shares = c.shares := rfl
@[simp] theorem modCold_sends (c : Core) (f : Cold → Cold) : (c.modCold f).sends = c.sends := rfl
@[simp] theorem modCold_atoms (c : Core) (f : Cold → Cold) : (c.modCold f).atoms = c.atoms := rfl
@[simp] theorem modCold_atomNo (c : Core) (f : Cold → Cold) : (c.modCold f).atomNo = c.atomNo := rfl
@[simp] theorem modCold_drains (c : Core) (f : Cold → Cold) : (c.modCold f).drains = c.drains := rfl
@[simp] theorem modCold_barCount (c : Core) (f : Cold → Cold) : (c.modCold f).barCount = c.barCount := rfl
@[simp] theorem modCold_bar (c : Core) (f : Cold → Cold) : (c.modCold f).bar = c.bar := rfl
@[simp] theorem modCold_barGot (c : Core) (f : Cold → Cold) : (c.modCold f).barGot = c.barGot := rfl
@[simp] theorem modCold_mirror (c : Core) (f : Cold → Cold) : (c.modCold f).mirror = c.mirror := rfl
@[simp] theorem modCold_heatAcc (c : Core) (f : Cold → Cold) : (c.modCold f).heatAcc = c.heatAcc := rfl
@[simp] theorem modCold_heatNow (c : Core) (f : Cold → Cold) : (c.modCold f).heatNow = c.heatNow := rfl
@[simp] theorem modCold_heatAdm (c : Core) (f : Cold → Cold) : (c.modCold f).heatAdm = c.heatAdm := rfl
@[simp] theorem modCold_heatBud (c : Core) (f : Cold → Cold) : (c.modCold f).heatBud = c.heatBud := rfl
@[simp] theorem modCold_heatSet (c : Core) (f : Cold → Cold) : (c.modCold f).heatSet = c.heatSet := rfl
@[simp] theorem modCold_heatNext (c : Core) (f : Cold → Cold) : (c.modCold f).heatNext = c.heatNext := rfl
@[simp] theorem modCold_heatCeil (c : Core) (f : Cold → Cold) : (c.modCold f).heatCeil = c.heatCeil := rfl
@[simp] theorem modCold_stallCnt (c : Core) (f : Cold → Cold) : (c.modCold f).stallCnt = c.stallCnt := rfl
@[simp] theorem modCold_mcmask (c : Core) (f : Cold → Cold) : (c.modCold f).mcmask = c.mcmask := rfl
@[simp] theorem modCold_chksb (c : Core) (f : Cold → Cold) : (c.modCold f).chksb = c.chksb := rfl
@[simp] theorem modCold_stallim (c : Core) (f : Cold → Cold) : (c.modCold f).stallim = c.stallim := rfl
@[simp] theorem modCold_rstlbl (c : Core) (f : Cold → Cold) : (c.modCold f).rstlbl = c.rstlbl := rfl
@[simp] theorem modCold_rstidx (c : Core) (f : Cold → Cold) : (c.modCold f).rstidx = c.rstidx := rfl
@[simp] theorem modCold_tvec (c : Core) (f : Cold → Cold) : (c.modCold f).tvec = c.tvec := rfl
@[simp] theorem modCold_tscratch (c : Core) (f : Cold → Cold) : (c.modCold f).tscratch = c.tscratch := rfl
@[simp] theorem modCold_inj (c : Core) (f : Cold → Cold) : (c.modCold f).inj = c.inj := rfl
@[simp] theorem modCold_wselCold (c : Core) (f : Cold → Cold) : (c.modCold f).wselCold = c.wselCold := rfl
@[simp] theorem modCold_sysNext (c : Core) (f : Cold → Cold) : (c.modCold f).sysNext = c.sysNext := rfl
@[simp] theorem modCold_inHandler (c : Core) (f : Cold → Cold) : (c.modCold f).inHandler = c.inHandler := rfl
@[simp] theorem modCold_tacked (c : Core) (f : Cold → Cold) : (c.modCold f).tacked = c.tacked := rfl
@[simp] theorem modCold_nested (c : Core) (f : Cold → Cold) : (c.modCold f).nested = c.nested := rfl
@[simp] theorem modCold_accLost (c : Core) (f : Cold → Cold) : (c.modCold f).accLost = c.accLost := rfl
@[simp] theorem modCold_emulate (c : Core) (f : Cold → Cold) : (c.modCold f).emulate = c.emulate := rfl
@[simp] theorem modCold_substAt (c : Core) (f : Cold → Cold) : (c.modCold f).substAt = c.substAt := rfl
@[simp] theorem modCold_cutAt (c : Core) (f : Cold → Cold) : (c.modCold f).cutAt = c.cutAt := rfl
@[simp] theorem modCold_cutNest (c : Core) (f : Cold → Cold) : (c.modCold f).cutNest = c.cutNest := rfl
@[simp] theorem modCold_accHere (c : Core) (f : Cold → Cold) : (c.modCold f).accHere = c.accHere := rfl
@[simp] theorem modCold_saved (c : Core) (f : Cold → Cold) : (c.modCold f).saved = c.saved := rfl
@[simp] theorem modCold_halting (c : Core) (f : Cold → Cold) : (c.modCold f).halting = c.halting := rfl
@[simp] theorem modCold_haltAt (c : Core) (f : Cold → Cold) : (c.modCold f).haltAt = c.haltAt := rfl
@[simp] theorem modCold_returning (c : Core) (f : Cold → Cold) : (c.modCold f).returning = c.returning := rfl
@[simp] theorem modCold_trapNext (c : Core) (f : Cold → Cold) : (c.modCold f).trapNext = c.trapNext := rfl
@[simp] theorem modCold_preempt (c : Core) (f : Cold → Cold) : (c.modCold f).preempt = c.preempt := rfl
@[simp] theorem modCold_late (c : Core) (f : Cold → Cold) : (c.modCold f).late = c.late := rfl
@[simp] theorem modCold_rotReq (c : Core) (f : Cold → Cold) : (c.modCold f).rotReq = c.rotReq := rfl
@[simp] theorem modCold_drained (c : Core) (f : Cold → Cold) : (c.modCold f).drained = c.drained := rfl
@[simp] theorem modCold_win (c : Core) (f : Cold → Cold) : (c.modCold f).win = c.win := rfl
@[simp] theorem modCold_replay (c : Core) (f : Cold → Cold) : (c.modCold f).replay = c.replay := rfl
@[simp] theorem modCold_owed (c : Core) (f : Cold → Cold) : (c.modCold f).owed = c.owed := rfl
@[simp] theorem modCold_badGran (c : Core) (f : Cold → Cold) : (c.modCold f).badGran = c.badGran := rfl
@[simp] theorem modCold_badAcc (c : Core) (f : Cold → Cold) : (c.modCold f).badAcc = c.badAcc := rfl
@[simp] theorem modCold_badOrd (c : Core) (f : Cold → Cold) : (c.modCold f).badOrd = c.badOrd := rfl
@[simp] theorem modCold_badL1 (c : Core) (f : Cold → Cold) : (c.modCold f).badL1 = c.badL1 := rfl
@[simp] theorem modCold_trail (c : Core) (f : Cold → Cold) : (c.modCold f).trail = c.trail := rfl
@[simp] theorem modEngine_slot0 (c : Core) (n : EngineId) (f : Engine → Engine) : (c.modEngine n f).slot0 = c.slot0 := rfl
@[simp] theorem modEngine_slot1 (c : Core) (n : EngineId) (f : Engine → Engine) : (c.modEngine n f).slot1 = c.slot1 := rfl
@[simp] theorem modEngine_run (c : Core) (n : EngineId) (f : Engine → Engine) : (c.modEngine n f).run = c.run := rfl
@[simp] theorem modEngine_clearAt (c : Core) (n : EngineId) (f : Engine → Engine) : (c.modEngine n f).clearAt = c.clearAt := rfl
@[simp] theorem modEngine_swapAt (c : Core) (n : EngineId) (f : Engine → Engine) : (c.modEngine n f).swapAt = c.swapAt := rfl
@[simp] theorem modEngine_recs (c : Core) (n : EngineId) (f : Engine → Engine) : (c.modEngine n f).recs = c.recs := rfl
@[simp] theorem modEngine_reserved (c : Core) (n : EngineId) (f : Engine → Engine) : (c.modEngine n f).reserved = c.reserved := rfl
@[simp] theorem modEngine_failed (c : Core) (n : EngineId) (f : Engine → Engine) : (c.modEngine n f).failed = c.failed := rfl
@[simp] theorem modEngine_l (c : Core) (n : EngineId) (f : Engine → Engine) : (c.modEngine n f).l = c.l := rfl
@[simp] theorem modEngine_e (c : Core) (n : EngineId) (f : Engine → Engine) : (c.modEngine n f).e = c.e := rfl
@[simp] theorem modEngine_s (c : Core) (n : EngineId) (f : Engine → Engine) : (c.modEngine n f).s = c.s := rfl
@[simp] theorem modEngine_k (c : Core) (n : EngineId) (f : Engine → Engine) : (c.modEngine n f).k = c.k := rfl
@[simp] theorem modEngine_tok (c : Core) (n : EngineId) (f : Engine → Engine) : (c.modEngine n f).tok = c.tok := rfl
@[simp] theorem modEngine_port (c : Core) (n : EngineId) (f : Engine → Engine) : (c.modEngine n f).port = c.port := rfl
@[simp] theorem modEngine_loopNo (c : Core) (n : EngineId) (f : Engine → Engine) : (c.modEngine n f).loopNo = c.loopNo := rfl
@[simp] theorem modEngine_l1d (c : Core) (n : EngineId) (f : Engine → Engine) : (c.modEngine n f).l1d = c.l1d := rfl
@[simp] theorem modEngine_l1i (c : Core) (n : EngineId) (f : Engine → Engine) : (c.modEngine n f).l1i = c.l1i := rfl
@[simp] theorem modEngine_lq (c : Core) (n : EngineId) (f : Engine → Engine) : (c.modEngine n f).lq = c.lq := rfl
@[simp] theorem modEngine_sq (c : Core) (n : EngineId) (f : Engine → Engine) : (c.modEngine n f).sq = c.sq := rfl
@[simp] theorem modEngine_eq (c : Core) (n : EngineId) (f : Engine → Engine) : (c.modEngine n f).eq = c.eq := rfl
@[simp] theorem modEngine_lqIssued (c : Core) (n : EngineId) (f : Engine → Engine) : (c.modEngine n f).lqIssued = c.lqIssued := rfl
@[simp] theorem modEngine_sqIssued (c : Core) (n : EngineId) (f : Engine → Engine) : (c.modEngine n f).sqIssued = c.sqIssued := rfl
@[simp] theorem modEngine_eqIssued (c : Core) (n : EngineId) (f : Engine → Engine) : (c.modEngine n f).eqIssued = c.eqIssued := rfl
@[simp] theorem modEngine_lqDone (c : Core) (n : EngineId) (f : Engine → Engine) : (c.modEngine n f).lqDone = c.lqDone := rfl
@[simp] theorem modEngine_sqDone (c : Core) (n : EngineId) (f : Engine → Engine) : (c.modEngine n f).sqDone = c.sqDone := rfl
@[simp] theorem modEngine_eqDone (c : Core) (n : EngineId) (f : Engine → Engine) : (c.modEngine n f).eqDone = c.eqDone := rfl
@[simp] theorem modEngine_lqWarm (c : Core) (n : EngineId) (f : Engine → Engine) : (c.modEngine n f).lqWarm = c.lqWarm := rfl
@[simp] theorem modEngine_sqWarm (c : Core) (n : EngineId) (f : Engine → Engine) : (c.modEngine n f).sqWarm = c.sqWarm := rfl
@[simp] theorem modEngine_eqWarm (c : Core) (n : EngineId) (f : Engine → Engine) : (c.modEngine n f).eqWarm = c.eqWarm := rfl
@[simp] theorem modEngine_markNo (c : Core) (n : EngineId) (f : Engine → Engine) : (c.modEngine n f).markNo = c.markNo := rfl
@[simp] theorem modEngine_back (c : Core) (n : EngineId) (f : Engine → Engine) : (c.modEngine n f).back = c.back := rfl
@[simp] theorem modEngine_tlb (c : Core) (n : EngineId) (f : Engine → Engine) : (c.modEngine n f).tlb = c.tlb := rfl
@[simp] theorem modEngine_str (c : Core) (n : EngineId) (f : Engine → Engine) : (c.modEngine n f).str = c.str := rfl
@[simp] theorem modEngine_shp (c : Core) (n : EngineId) (f : Engine → Engine) : (c.modEngine n f).shp = c.shp := rfl
@[simp] theorem modEngine_shpBusy (c : Core) (n : EngineId) (f : Engine → Engine) : (c.modEngine n f).shpBusy = c.shpBusy := rfl
@[simp] theorem modEngine_xings (c : Core) (n : EngineId) (f : Engine → Engine) : (c.modEngine n f).xings = c.xings := rfl
@[simp] theorem modEngine_xseq (c : Core) (n : EngineId) (f : Engine → Engine) : (c.modEngine n f).xseq = c.xseq := rfl
@[simp] theorem modEngine_xcan (c : Core) (n : EngineId) (f : Engine → Engine) : (c.modEngine n f).xcan = c.xcan := rfl
@[simp] theorem modEngine_xkinds (c : Core) (n : EngineId) (f : Engine → Engine) : (c.modEngine n f).xkinds = c.xkinds := rfl
@[simp] theorem modEngine_paths (c : Core) (n : EngineId) (f : Engine → Engine) : (c.modEngine n f).paths = c.paths := rfl
@[simp] theorem modEngine_oeq (c : Core) (n : EngineId) (f : Engine → Engine) : (c.modEngine n f).oeq = c.oeq := rfl
@[simp] theorem modEngine_oeqLost (c : Core) (n : EngineId) (f : Engine → Engine) : (c.modEngine n f).oeqLost = c.oeqLost := rfl
@[simp] theorem modEngine_oeqFreed (c : Core) (n : EngineId) (f : Engine → Engine) : (c.modEngine n f).oeqFreed = c.oeqFreed := rfl
@[simp] theorem modEngine_oeqNow (c : Core) (n : EngineId) (f : Engine → Engine) : (c.modEngine n f).oeqNow = c.oeqNow := rfl
@[simp] theorem modEngine_bcache (c : Core) (n : EngineId) (f : Engine → Engine) : (c.modEngine n f).bcache = c.bcache := rfl
@[simp] theorem modEngine_shares (c : Core) (n : EngineId) (f : Engine → Engine) : (c.modEngine n f).shares = c.shares := rfl
@[simp] theorem modEngine_sends (c : Core) (n : EngineId) (f : Engine → Engine) : (c.modEngine n f).sends = c.sends := rfl
@[simp] theorem modEngine_atoms (c : Core) (n : EngineId) (f : Engine → Engine) : (c.modEngine n f).atoms = c.atoms := rfl
@[simp] theorem modEngine_atomNo (c : Core) (n : EngineId) (f : Engine → Engine) : (c.modEngine n f).atomNo = c.atomNo := rfl
@[simp] theorem modEngine_drains (c : Core) (n : EngineId) (f : Engine → Engine) : (c.modEngine n f).drains = c.drains := rfl
@[simp] theorem modEngine_barCount (c : Core) (n : EngineId) (f : Engine → Engine) : (c.modEngine n f).barCount = c.barCount := rfl
@[simp] theorem modEngine_bar (c : Core) (n : EngineId) (f : Engine → Engine) : (c.modEngine n f).bar = c.bar := rfl
@[simp] theorem modEngine_barGot (c : Core) (n : EngineId) (f : Engine → Engine) : (c.modEngine n f).barGot = c.barGot := rfl
@[simp] theorem modEngine_mirror (c : Core) (n : EngineId) (f : Engine → Engine) : (c.modEngine n f).mirror = c.mirror := rfl
@[simp] theorem modEngine_heatAcc (c : Core) (n : EngineId) (f : Engine → Engine) : (c.modEngine n f).heatAcc = c.heatAcc := rfl
@[simp] theorem modEngine_heatNow (c : Core) (n : EngineId) (f : Engine → Engine) : (c.modEngine n f).heatNow = c.heatNow := rfl
@[simp] theorem modEngine_heatAdm (c : Core) (n : EngineId) (f : Engine → Engine) : (c.modEngine n f).heatAdm = c.heatAdm := rfl
@[simp] theorem modEngine_heatBud (c : Core) (n : EngineId) (f : Engine → Engine) : (c.modEngine n f).heatBud = c.heatBud := rfl
@[simp] theorem modEngine_heatSet (c : Core) (n : EngineId) (f : Engine → Engine) : (c.modEngine n f).heatSet = c.heatSet := rfl
@[simp] theorem modEngine_heatNext (c : Core) (n : EngineId) (f : Engine → Engine) : (c.modEngine n f).heatNext = c.heatNext := rfl
@[simp] theorem modEngine_heatCeil (c : Core) (n : EngineId) (f : Engine → Engine) : (c.modEngine n f).heatCeil = c.heatCeil := rfl
@[simp] theorem modEngine_stallCnt (c : Core) (n : EngineId) (f : Engine → Engine) : (c.modEngine n f).stallCnt = c.stallCnt := rfl
@[simp] theorem modEngine_mcmask (c : Core) (n : EngineId) (f : Engine → Engine) : (c.modEngine n f).mcmask = c.mcmask := rfl
@[simp] theorem modEngine_chksb (c : Core) (n : EngineId) (f : Engine → Engine) : (c.modEngine n f).chksb = c.chksb := rfl
@[simp] theorem modEngine_stallim (c : Core) (n : EngineId) (f : Engine → Engine) : (c.modEngine n f).stallim = c.stallim := rfl
@[simp] theorem modEngine_rstlbl (c : Core) (n : EngineId) (f : Engine → Engine) : (c.modEngine n f).rstlbl = c.rstlbl := rfl
@[simp] theorem modEngine_rstidx (c : Core) (n : EngineId) (f : Engine → Engine) : (c.modEngine n f).rstidx = c.rstidx := rfl
@[simp] theorem modEngine_tvec (c : Core) (n : EngineId) (f : Engine → Engine) : (c.modEngine n f).tvec = c.tvec := rfl
@[simp] theorem modEngine_tscratch (c : Core) (n : EngineId) (f : Engine → Engine) : (c.modEngine n f).tscratch = c.tscratch := rfl
@[simp] theorem modEngine_inj (c : Core) (n : EngineId) (f : Engine → Engine) : (c.modEngine n f).inj = c.inj := rfl
@[simp] theorem modEngine_wselCold (c : Core) (n : EngineId) (f : Engine → Engine) : (c.modEngine n f).wselCold = c.wselCold := rfl
@[simp] theorem modEngine_sysNext (c : Core) (n : EngineId) (f : Engine → Engine) : (c.modEngine n f).sysNext = c.sysNext := rfl
@[simp] theorem modEngine_inHandler (c : Core) (n : EngineId) (f : Engine → Engine) : (c.modEngine n f).inHandler = c.inHandler := rfl
@[simp] theorem modEngine_tacked (c : Core) (n : EngineId) (f : Engine → Engine) : (c.modEngine n f).tacked = c.tacked := rfl
@[simp] theorem modEngine_nested (c : Core) (n : EngineId) (f : Engine → Engine) : (c.modEngine n f).nested = c.nested := rfl
@[simp] theorem modEngine_accLost (c : Core) (n : EngineId) (f : Engine → Engine) : (c.modEngine n f).accLost = c.accLost := rfl
@[simp] theorem modEngine_emulate (c : Core) (n : EngineId) (f : Engine → Engine) : (c.modEngine n f).emulate = c.emulate := rfl
@[simp] theorem modEngine_substAt (c : Core) (n : EngineId) (f : Engine → Engine) : (c.modEngine n f).substAt = c.substAt := rfl
@[simp] theorem modEngine_cutAt (c : Core) (n : EngineId) (f : Engine → Engine) : (c.modEngine n f).cutAt = c.cutAt := rfl
@[simp] theorem modEngine_cutNest (c : Core) (n : EngineId) (f : Engine → Engine) : (c.modEngine n f).cutNest = c.cutNest := rfl
@[simp] theorem modEngine_accHere (c : Core) (n : EngineId) (f : Engine → Engine) : (c.modEngine n f).accHere = c.accHere := rfl
@[simp] theorem modEngine_saved (c : Core) (n : EngineId) (f : Engine → Engine) : (c.modEngine n f).saved = c.saved := rfl
@[simp] theorem modEngine_halting (c : Core) (n : EngineId) (f : Engine → Engine) : (c.modEngine n f).halting = c.halting := rfl
@[simp] theorem modEngine_haltAt (c : Core) (n : EngineId) (f : Engine → Engine) : (c.modEngine n f).haltAt = c.haltAt := rfl
@[simp] theorem modEngine_returning (c : Core) (n : EngineId) (f : Engine → Engine) : (c.modEngine n f).returning = c.returning := rfl
@[simp] theorem modEngine_trapNext (c : Core) (n : EngineId) (f : Engine → Engine) : (c.modEngine n f).trapNext = c.trapNext := rfl
@[simp] theorem modEngine_preempt (c : Core) (n : EngineId) (f : Engine → Engine) : (c.modEngine n f).preempt = c.preempt := rfl
@[simp] theorem modEngine_late (c : Core) (n : EngineId) (f : Engine → Engine) : (c.modEngine n f).late = c.late := rfl
@[simp] theorem modEngine_rotReq (c : Core) (n : EngineId) (f : Engine → Engine) : (c.modEngine n f).rotReq = c.rotReq := rfl
@[simp] theorem modEngine_drained (c : Core) (n : EngineId) (f : Engine → Engine) : (c.modEngine n f).drained = c.drained := rfl
@[simp] theorem modEngine_win (c : Core) (n : EngineId) (f : Engine → Engine) : (c.modEngine n f).win = c.win := rfl
@[simp] theorem modEngine_replay (c : Core) (n : EngineId) (f : Engine → Engine) : (c.modEngine n f).replay = c.replay := rfl
@[simp] theorem modEngine_owed (c : Core) (n : EngineId) (f : Engine → Engine) : (c.modEngine n f).owed = c.owed := rfl
@[simp] theorem modEngine_badGran (c : Core) (n : EngineId) (f : Engine → Engine) : (c.modEngine n f).badGran = c.badGran := rfl
@[simp] theorem modEngine_badAcc (c : Core) (n : EngineId) (f : Engine → Engine) : (c.modEngine n f).badAcc = c.badAcc := rfl
@[simp] theorem modEngine_badOrd (c : Core) (n : EngineId) (f : Engine → Engine) : (c.modEngine n f).badOrd = c.badOrd := rfl
@[simp] theorem modEngine_badL1 (c : Core) (n : EngineId) (f : Engine → Engine) : (c.modEngine n f).badL1 = c.badL1 := rfl
@[simp] theorem modEngine_trail (c : Core) (n : EngineId) (f : Engine → Engine) : (c.modEngine n f).trail = c.trail := rfl
@[simp] theorem modSlotAt_run (c : Core) (i : BitVec 1) (f : Slot → Slot) : (c.modSlotAt i f).run = c.run := by unfold Core.modSlotAt; split <;> rfl
@[simp] theorem modSlotAt_clearAt (c : Core) (i : BitVec 1) (f : Slot → Slot) : (c.modSlotAt i f).clearAt = c.clearAt := by unfold Core.modSlotAt; split <;> rfl
@[simp] theorem modSlotAt_swapAt (c : Core) (i : BitVec 1) (f : Slot → Slot) : (c.modSlotAt i f).swapAt = c.swapAt := by unfold Core.modSlotAt; split <;> rfl
@[simp] theorem modSlotAt_recs (c : Core) (i : BitVec 1) (f : Slot → Slot) : (c.modSlotAt i f).recs = c.recs := by unfold Core.modSlotAt; split <;> rfl
@[simp] theorem modSlotAt_reserved (c : Core) (i : BitVec 1) (f : Slot → Slot) : (c.modSlotAt i f).reserved = c.reserved := by unfold Core.modSlotAt; split <;> rfl
@[simp] theorem modSlotAt_failed (c : Core) (i : BitVec 1) (f : Slot → Slot) : (c.modSlotAt i f).failed = c.failed := by unfold Core.modSlotAt; split <;> rfl
@[simp] theorem modSlotAt_l (c : Core) (i : BitVec 1) (f : Slot → Slot) : (c.modSlotAt i f).l = c.l := by unfold Core.modSlotAt; split <;> rfl
@[simp] theorem modSlotAt_e (c : Core) (i : BitVec 1) (f : Slot → Slot) : (c.modSlotAt i f).e = c.e := by unfold Core.modSlotAt; split <;> rfl
@[simp] theorem modSlotAt_s (c : Core) (i : BitVec 1) (f : Slot → Slot) : (c.modSlotAt i f).s = c.s := by unfold Core.modSlotAt; split <;> rfl
@[simp] theorem modSlotAt_k (c : Core) (i : BitVec 1) (f : Slot → Slot) : (c.modSlotAt i f).k = c.k := by unfold Core.modSlotAt; split <;> rfl
@[simp] theorem modSlotAt_tok (c : Core) (i : BitVec 1) (f : Slot → Slot) : (c.modSlotAt i f).tok = c.tok := by unfold Core.modSlotAt; split <;> rfl
@[simp] theorem modSlotAt_port (c : Core) (i : BitVec 1) (f : Slot → Slot) : (c.modSlotAt i f).port = c.port := by unfold Core.modSlotAt; split <;> rfl
@[simp] theorem modSlotAt_loopNo (c : Core) (i : BitVec 1) (f : Slot → Slot) : (c.modSlotAt i f).loopNo = c.loopNo := by unfold Core.modSlotAt; split <;> rfl
@[simp] theorem modSlotAt_l1d (c : Core) (i : BitVec 1) (f : Slot → Slot) : (c.modSlotAt i f).l1d = c.l1d := by unfold Core.modSlotAt; split <;> rfl
@[simp] theorem modSlotAt_l1i (c : Core) (i : BitVec 1) (f : Slot → Slot) : (c.modSlotAt i f).l1i = c.l1i := by unfold Core.modSlotAt; split <;> rfl
@[simp] theorem modSlotAt_lq (c : Core) (i : BitVec 1) (f : Slot → Slot) : (c.modSlotAt i f).lq = c.lq := by unfold Core.modSlotAt; split <;> rfl
@[simp] theorem modSlotAt_sq (c : Core) (i : BitVec 1) (f : Slot → Slot) : (c.modSlotAt i f).sq = c.sq := by unfold Core.modSlotAt; split <;> rfl
@[simp] theorem modSlotAt_eq (c : Core) (i : BitVec 1) (f : Slot → Slot) : (c.modSlotAt i f).eq = c.eq := by unfold Core.modSlotAt; split <;> rfl
@[simp] theorem modSlotAt_lqIssued (c : Core) (i : BitVec 1) (f : Slot → Slot) : (c.modSlotAt i f).lqIssued = c.lqIssued := by unfold Core.modSlotAt; split <;> rfl
@[simp] theorem modSlotAt_sqIssued (c : Core) (i : BitVec 1) (f : Slot → Slot) : (c.modSlotAt i f).sqIssued = c.sqIssued := by unfold Core.modSlotAt; split <;> rfl
@[simp] theorem modSlotAt_eqIssued (c : Core) (i : BitVec 1) (f : Slot → Slot) : (c.modSlotAt i f).eqIssued = c.eqIssued := by unfold Core.modSlotAt; split <;> rfl
@[simp] theorem modSlotAt_lqDone (c : Core) (i : BitVec 1) (f : Slot → Slot) : (c.modSlotAt i f).lqDone = c.lqDone := by unfold Core.modSlotAt; split <;> rfl
@[simp] theorem modSlotAt_sqDone (c : Core) (i : BitVec 1) (f : Slot → Slot) : (c.modSlotAt i f).sqDone = c.sqDone := by unfold Core.modSlotAt; split <;> rfl
@[simp] theorem modSlotAt_eqDone (c : Core) (i : BitVec 1) (f : Slot → Slot) : (c.modSlotAt i f).eqDone = c.eqDone := by unfold Core.modSlotAt; split <;> rfl
@[simp] theorem modSlotAt_lqWarm (c : Core) (i : BitVec 1) (f : Slot → Slot) : (c.modSlotAt i f).lqWarm = c.lqWarm := by unfold Core.modSlotAt; split <;> rfl
@[simp] theorem modSlotAt_sqWarm (c : Core) (i : BitVec 1) (f : Slot → Slot) : (c.modSlotAt i f).sqWarm = c.sqWarm := by unfold Core.modSlotAt; split <;> rfl
@[simp] theorem modSlotAt_eqWarm (c : Core) (i : BitVec 1) (f : Slot → Slot) : (c.modSlotAt i f).eqWarm = c.eqWarm := by unfold Core.modSlotAt; split <;> rfl
@[simp] theorem modSlotAt_markNo (c : Core) (i : BitVec 1) (f : Slot → Slot) : (c.modSlotAt i f).markNo = c.markNo := by unfold Core.modSlotAt; split <;> rfl
@[simp] theorem modSlotAt_back (c : Core) (i : BitVec 1) (f : Slot → Slot) : (c.modSlotAt i f).back = c.back := by unfold Core.modSlotAt; split <;> rfl
@[simp] theorem modSlotAt_tlb (c : Core) (i : BitVec 1) (f : Slot → Slot) : (c.modSlotAt i f).tlb = c.tlb := by unfold Core.modSlotAt; split <;> rfl
@[simp] theorem modSlotAt_str (c : Core) (i : BitVec 1) (f : Slot → Slot) : (c.modSlotAt i f).str = c.str := by unfold Core.modSlotAt; split <;> rfl
@[simp] theorem modSlotAt_shp (c : Core) (i : BitVec 1) (f : Slot → Slot) : (c.modSlotAt i f).shp = c.shp := by unfold Core.modSlotAt; split <;> rfl
@[simp] theorem modSlotAt_shpBusy (c : Core) (i : BitVec 1) (f : Slot → Slot) : (c.modSlotAt i f).shpBusy = c.shpBusy := by unfold Core.modSlotAt; split <;> rfl
@[simp] theorem modSlotAt_xings (c : Core) (i : BitVec 1) (f : Slot → Slot) : (c.modSlotAt i f).xings = c.xings := by unfold Core.modSlotAt; split <;> rfl
@[simp] theorem modSlotAt_xseq (c : Core) (i : BitVec 1) (f : Slot → Slot) : (c.modSlotAt i f).xseq = c.xseq := by unfold Core.modSlotAt; split <;> rfl
@[simp] theorem modSlotAt_xcan (c : Core) (i : BitVec 1) (f : Slot → Slot) : (c.modSlotAt i f).xcan = c.xcan := by unfold Core.modSlotAt; split <;> rfl
@[simp] theorem modSlotAt_xkinds (c : Core) (i : BitVec 1) (f : Slot → Slot) : (c.modSlotAt i f).xkinds = c.xkinds := by unfold Core.modSlotAt; split <;> rfl
@[simp] theorem modSlotAt_paths (c : Core) (i : BitVec 1) (f : Slot → Slot) : (c.modSlotAt i f).paths = c.paths := by unfold Core.modSlotAt; split <;> rfl
@[simp] theorem modSlotAt_oeq (c : Core) (i : BitVec 1) (f : Slot → Slot) : (c.modSlotAt i f).oeq = c.oeq := by unfold Core.modSlotAt; split <;> rfl
@[simp] theorem modSlotAt_oeqLost (c : Core) (i : BitVec 1) (f : Slot → Slot) : (c.modSlotAt i f).oeqLost = c.oeqLost := by unfold Core.modSlotAt; split <;> rfl
@[simp] theorem modSlotAt_oeqFreed (c : Core) (i : BitVec 1) (f : Slot → Slot) : (c.modSlotAt i f).oeqFreed = c.oeqFreed := by unfold Core.modSlotAt; split <;> rfl
@[simp] theorem modSlotAt_oeqNow (c : Core) (i : BitVec 1) (f : Slot → Slot) : (c.modSlotAt i f).oeqNow = c.oeqNow := by unfold Core.modSlotAt; split <;> rfl
@[simp] theorem modSlotAt_bcache (c : Core) (i : BitVec 1) (f : Slot → Slot) : (c.modSlotAt i f).bcache = c.bcache := by unfold Core.modSlotAt; split <;> rfl
@[simp] theorem modSlotAt_shares (c : Core) (i : BitVec 1) (f : Slot → Slot) : (c.modSlotAt i f).shares = c.shares := by unfold Core.modSlotAt; split <;> rfl
@[simp] theorem modSlotAt_sends (c : Core) (i : BitVec 1) (f : Slot → Slot) : (c.modSlotAt i f).sends = c.sends := by unfold Core.modSlotAt; split <;> rfl
@[simp] theorem modSlotAt_atoms (c : Core) (i : BitVec 1) (f : Slot → Slot) : (c.modSlotAt i f).atoms = c.atoms := by unfold Core.modSlotAt; split <;> rfl
@[simp] theorem modSlotAt_atomNo (c : Core) (i : BitVec 1) (f : Slot → Slot) : (c.modSlotAt i f).atomNo = c.atomNo := by unfold Core.modSlotAt; split <;> rfl
@[simp] theorem modSlotAt_drains (c : Core) (i : BitVec 1) (f : Slot → Slot) : (c.modSlotAt i f).drains = c.drains := by unfold Core.modSlotAt; split <;> rfl
@[simp] theorem modSlotAt_barCount (c : Core) (i : BitVec 1) (f : Slot → Slot) : (c.modSlotAt i f).barCount = c.barCount := by unfold Core.modSlotAt; split <;> rfl
@[simp] theorem modSlotAt_bar (c : Core) (i : BitVec 1) (f : Slot → Slot) : (c.modSlotAt i f).bar = c.bar := by unfold Core.modSlotAt; split <;> rfl
@[simp] theorem modSlotAt_barGot (c : Core) (i : BitVec 1) (f : Slot → Slot) : (c.modSlotAt i f).barGot = c.barGot := by unfold Core.modSlotAt; split <;> rfl
@[simp] theorem modSlotAt_mirror (c : Core) (i : BitVec 1) (f : Slot → Slot) : (c.modSlotAt i f).mirror = c.mirror := by unfold Core.modSlotAt; split <;> rfl
@[simp] theorem modSlotAt_heatAcc (c : Core) (i : BitVec 1) (f : Slot → Slot) : (c.modSlotAt i f).heatAcc = c.heatAcc := by unfold Core.modSlotAt; split <;> rfl
@[simp] theorem modSlotAt_heatNow (c : Core) (i : BitVec 1) (f : Slot → Slot) : (c.modSlotAt i f).heatNow = c.heatNow := by unfold Core.modSlotAt; split <;> rfl
@[simp] theorem modSlotAt_heatAdm (c : Core) (i : BitVec 1) (f : Slot → Slot) : (c.modSlotAt i f).heatAdm = c.heatAdm := by unfold Core.modSlotAt; split <;> rfl
@[simp] theorem modSlotAt_heatBud (c : Core) (i : BitVec 1) (f : Slot → Slot) : (c.modSlotAt i f).heatBud = c.heatBud := by unfold Core.modSlotAt; split <;> rfl
@[simp] theorem modSlotAt_heatSet (c : Core) (i : BitVec 1) (f : Slot → Slot) : (c.modSlotAt i f).heatSet = c.heatSet := by unfold Core.modSlotAt; split <;> rfl
@[simp] theorem modSlotAt_heatNext (c : Core) (i : BitVec 1) (f : Slot → Slot) : (c.modSlotAt i f).heatNext = c.heatNext := by unfold Core.modSlotAt; split <;> rfl
@[simp] theorem modSlotAt_heatCeil (c : Core) (i : BitVec 1) (f : Slot → Slot) : (c.modSlotAt i f).heatCeil = c.heatCeil := by unfold Core.modSlotAt; split <;> rfl
@[simp] theorem modSlotAt_stallCnt (c : Core) (i : BitVec 1) (f : Slot → Slot) : (c.modSlotAt i f).stallCnt = c.stallCnt := by unfold Core.modSlotAt; split <;> rfl
@[simp] theorem modSlotAt_mcmask (c : Core) (i : BitVec 1) (f : Slot → Slot) : (c.modSlotAt i f).mcmask = c.mcmask := by unfold Core.modSlotAt; split <;> rfl
@[simp] theorem modSlotAt_chksb (c : Core) (i : BitVec 1) (f : Slot → Slot) : (c.modSlotAt i f).chksb = c.chksb := by unfold Core.modSlotAt; split <;> rfl
@[simp] theorem modSlotAt_stallim (c : Core) (i : BitVec 1) (f : Slot → Slot) : (c.modSlotAt i f).stallim = c.stallim := by unfold Core.modSlotAt; split <;> rfl
@[simp] theorem modSlotAt_rstlbl (c : Core) (i : BitVec 1) (f : Slot → Slot) : (c.modSlotAt i f).rstlbl = c.rstlbl := by unfold Core.modSlotAt; split <;> rfl
@[simp] theorem modSlotAt_rstidx (c : Core) (i : BitVec 1) (f : Slot → Slot) : (c.modSlotAt i f).rstidx = c.rstidx := by unfold Core.modSlotAt; split <;> rfl
@[simp] theorem modSlotAt_tvec (c : Core) (i : BitVec 1) (f : Slot → Slot) : (c.modSlotAt i f).tvec = c.tvec := by unfold Core.modSlotAt; split <;> rfl
@[simp] theorem modSlotAt_tscratch (c : Core) (i : BitVec 1) (f : Slot → Slot) : (c.modSlotAt i f).tscratch = c.tscratch := by unfold Core.modSlotAt; split <;> rfl
@[simp] theorem modSlotAt_inj (c : Core) (i : BitVec 1) (f : Slot → Slot) : (c.modSlotAt i f).inj = c.inj := by unfold Core.modSlotAt; split <;> rfl
@[simp] theorem modSlotAt_wselCold (c : Core) (i : BitVec 1) (f : Slot → Slot) : (c.modSlotAt i f).wselCold = c.wselCold := by unfold Core.modSlotAt; split <;> rfl
@[simp] theorem modSlotAt_sysNext (c : Core) (i : BitVec 1) (f : Slot → Slot) : (c.modSlotAt i f).sysNext = c.sysNext := by unfold Core.modSlotAt; split <;> rfl
@[simp] theorem modSlotAt_inHandler (c : Core) (i : BitVec 1) (f : Slot → Slot) : (c.modSlotAt i f).inHandler = c.inHandler := by unfold Core.modSlotAt; split <;> rfl
@[simp] theorem modSlotAt_tacked (c : Core) (i : BitVec 1) (f : Slot → Slot) : (c.modSlotAt i f).tacked = c.tacked := by unfold Core.modSlotAt; split <;> rfl
@[simp] theorem modSlotAt_nested (c : Core) (i : BitVec 1) (f : Slot → Slot) : (c.modSlotAt i f).nested = c.nested := by unfold Core.modSlotAt; split <;> rfl
@[simp] theorem modSlotAt_accLost (c : Core) (i : BitVec 1) (f : Slot → Slot) : (c.modSlotAt i f).accLost = c.accLost := by unfold Core.modSlotAt; split <;> rfl
@[simp] theorem modSlotAt_emulate (c : Core) (i : BitVec 1) (f : Slot → Slot) : (c.modSlotAt i f).emulate = c.emulate := by unfold Core.modSlotAt; split <;> rfl
@[simp] theorem modSlotAt_substAt (c : Core) (i : BitVec 1) (f : Slot → Slot) : (c.modSlotAt i f).substAt = c.substAt := by unfold Core.modSlotAt; split <;> rfl
@[simp] theorem modSlotAt_cutAt (c : Core) (i : BitVec 1) (f : Slot → Slot) : (c.modSlotAt i f).cutAt = c.cutAt := by unfold Core.modSlotAt; split <;> rfl
@[simp] theorem modSlotAt_cutNest (c : Core) (i : BitVec 1) (f : Slot → Slot) : (c.modSlotAt i f).cutNest = c.cutNest := by unfold Core.modSlotAt; split <;> rfl
@[simp] theorem modSlotAt_accHere (c : Core) (i : BitVec 1) (f : Slot → Slot) : (c.modSlotAt i f).accHere = c.accHere := by unfold Core.modSlotAt; split <;> rfl
@[simp] theorem modSlotAt_saved (c : Core) (i : BitVec 1) (f : Slot → Slot) : (c.modSlotAt i f).saved = c.saved := by unfold Core.modSlotAt; split <;> rfl
@[simp] theorem modSlotAt_halting (c : Core) (i : BitVec 1) (f : Slot → Slot) : (c.modSlotAt i f).halting = c.halting := by unfold Core.modSlotAt; split <;> rfl
@[simp] theorem modSlotAt_haltAt (c : Core) (i : BitVec 1) (f : Slot → Slot) : (c.modSlotAt i f).haltAt = c.haltAt := by unfold Core.modSlotAt; split <;> rfl
@[simp] theorem modSlotAt_returning (c : Core) (i : BitVec 1) (f : Slot → Slot) : (c.modSlotAt i f).returning = c.returning := by unfold Core.modSlotAt; split <;> rfl
@[simp] theorem modSlotAt_trapNext (c : Core) (i : BitVec 1) (f : Slot → Slot) : (c.modSlotAt i f).trapNext = c.trapNext := by unfold Core.modSlotAt; split <;> rfl
@[simp] theorem modSlotAt_preempt (c : Core) (i : BitVec 1) (f : Slot → Slot) : (c.modSlotAt i f).preempt = c.preempt := by unfold Core.modSlotAt; split <;> rfl
@[simp] theorem modSlotAt_late (c : Core) (i : BitVec 1) (f : Slot → Slot) : (c.modSlotAt i f).late = c.late := by unfold Core.modSlotAt; split <;> rfl
@[simp] theorem modSlotAt_rotReq (c : Core) (i : BitVec 1) (f : Slot → Slot) : (c.modSlotAt i f).rotReq = c.rotReq := by unfold Core.modSlotAt; split <;> rfl
@[simp] theorem modSlotAt_drained (c : Core) (i : BitVec 1) (f : Slot → Slot) : (c.modSlotAt i f).drained = c.drained := by unfold Core.modSlotAt; split <;> rfl
@[simp] theorem modSlotAt_win (c : Core) (i : BitVec 1) (f : Slot → Slot) : (c.modSlotAt i f).win = c.win := by unfold Core.modSlotAt; split <;> rfl
@[simp] theorem modSlotAt_replay (c : Core) (i : BitVec 1) (f : Slot → Slot) : (c.modSlotAt i f).replay = c.replay := by unfold Core.modSlotAt; split <;> rfl
@[simp] theorem modSlotAt_owed (c : Core) (i : BitVec 1) (f : Slot → Slot) : (c.modSlotAt i f).owed = c.owed := by unfold Core.modSlotAt; split <;> rfl
@[simp] theorem modSlotAt_badGran (c : Core) (i : BitVec 1) (f : Slot → Slot) : (c.modSlotAt i f).badGran = c.badGran := by unfold Core.modSlotAt; split <;> rfl
@[simp] theorem modSlotAt_badAcc (c : Core) (i : BitVec 1) (f : Slot → Slot) : (c.modSlotAt i f).badAcc = c.badAcc := by unfold Core.modSlotAt; split <;> rfl
@[simp] theorem modSlotAt_badOrd (c : Core) (i : BitVec 1) (f : Slot → Slot) : (c.modSlotAt i f).badOrd = c.badOrd := by unfold Core.modSlotAt; split <;> rfl
@[simp] theorem modSlotAt_badL1 (c : Core) (i : BitVec 1) (f : Slot → Slot) : (c.modSlotAt i f).badL1 = c.badL1 := by unfold Core.modSlotAt; split <;> rfl
@[simp] theorem modSlotAt_trail (c : Core) (i : BitVec 1) (f : Slot → Slot) : (c.modSlotAt i f).trail = c.trail := by unfold Core.modSlotAt; split <;> rfl
@[simp] theorem modSlotAt_cold (c : Core) (i : BitVec 1) (f : Slot → Slot) : (c.modSlotAt i f).cold = c.cold := by unfold Core.modSlotAt; split <;> rfl
@[simp] theorem modSlot_run (c : Core) (f : Slot → Slot) : (c.modSlot f).run = c.run := by unfold Core.modSlot; split <;> rfl
@[simp] theorem modSlot_clearAt (c : Core) (f : Slot → Slot) : (c.modSlot f).clearAt = c.clearAt := by unfold Core.modSlot; split <;> rfl
@[simp] theorem modSlot_swapAt (c : Core) (f : Slot → Slot) : (c.modSlot f).swapAt = c.swapAt := by unfold Core.modSlot; split <;> rfl
@[simp] theorem modSlot_recs (c : Core) (f : Slot → Slot) : (c.modSlot f).recs = c.recs := by unfold Core.modSlot; split <;> rfl
@[simp] theorem modSlot_reserved (c : Core) (f : Slot → Slot) : (c.modSlot f).reserved = c.reserved := by unfold Core.modSlot; split <;> rfl
@[simp] theorem modSlot_failed (c : Core) (f : Slot → Slot) : (c.modSlot f).failed = c.failed := by unfold Core.modSlot; split <;> rfl
@[simp] theorem modSlot_l (c : Core) (f : Slot → Slot) : (c.modSlot f).l = c.l := by unfold Core.modSlot; split <;> rfl
@[simp] theorem modSlot_e (c : Core) (f : Slot → Slot) : (c.modSlot f).e = c.e := by unfold Core.modSlot; split <;> rfl
@[simp] theorem modSlot_s (c : Core) (f : Slot → Slot) : (c.modSlot f).s = c.s := by unfold Core.modSlot; split <;> rfl
@[simp] theorem modSlot_k (c : Core) (f : Slot → Slot) : (c.modSlot f).k = c.k := by unfold Core.modSlot; split <;> rfl
@[simp] theorem modSlot_tok (c : Core) (f : Slot → Slot) : (c.modSlot f).tok = c.tok := by unfold Core.modSlot; split <;> rfl
@[simp] theorem modSlot_port (c : Core) (f : Slot → Slot) : (c.modSlot f).port = c.port := by unfold Core.modSlot; split <;> rfl
@[simp] theorem modSlot_loopNo (c : Core) (f : Slot → Slot) : (c.modSlot f).loopNo = c.loopNo := by unfold Core.modSlot; split <;> rfl
@[simp] theorem modSlot_l1d (c : Core) (f : Slot → Slot) : (c.modSlot f).l1d = c.l1d := by unfold Core.modSlot; split <;> rfl
@[simp] theorem modSlot_l1i (c : Core) (f : Slot → Slot) : (c.modSlot f).l1i = c.l1i := by unfold Core.modSlot; split <;> rfl
@[simp] theorem modSlot_lq (c : Core) (f : Slot → Slot) : (c.modSlot f).lq = c.lq := by unfold Core.modSlot; split <;> rfl
@[simp] theorem modSlot_sq (c : Core) (f : Slot → Slot) : (c.modSlot f).sq = c.sq := by unfold Core.modSlot; split <;> rfl
@[simp] theorem modSlot_eq (c : Core) (f : Slot → Slot) : (c.modSlot f).eq = c.eq := by unfold Core.modSlot; split <;> rfl
@[simp] theorem modSlot_lqIssued (c : Core) (f : Slot → Slot) : (c.modSlot f).lqIssued = c.lqIssued := by unfold Core.modSlot; split <;> rfl
@[simp] theorem modSlot_sqIssued (c : Core) (f : Slot → Slot) : (c.modSlot f).sqIssued = c.sqIssued := by unfold Core.modSlot; split <;> rfl
@[simp] theorem modSlot_eqIssued (c : Core) (f : Slot → Slot) : (c.modSlot f).eqIssued = c.eqIssued := by unfold Core.modSlot; split <;> rfl
@[simp] theorem modSlot_lqDone (c : Core) (f : Slot → Slot) : (c.modSlot f).lqDone = c.lqDone := by unfold Core.modSlot; split <;> rfl
@[simp] theorem modSlot_sqDone (c : Core) (f : Slot → Slot) : (c.modSlot f).sqDone = c.sqDone := by unfold Core.modSlot; split <;> rfl
@[simp] theorem modSlot_eqDone (c : Core) (f : Slot → Slot) : (c.modSlot f).eqDone = c.eqDone := by unfold Core.modSlot; split <;> rfl
@[simp] theorem modSlot_lqWarm (c : Core) (f : Slot → Slot) : (c.modSlot f).lqWarm = c.lqWarm := by unfold Core.modSlot; split <;> rfl
@[simp] theorem modSlot_sqWarm (c : Core) (f : Slot → Slot) : (c.modSlot f).sqWarm = c.sqWarm := by unfold Core.modSlot; split <;> rfl
@[simp] theorem modSlot_eqWarm (c : Core) (f : Slot → Slot) : (c.modSlot f).eqWarm = c.eqWarm := by unfold Core.modSlot; split <;> rfl
@[simp] theorem modSlot_markNo (c : Core) (f : Slot → Slot) : (c.modSlot f).markNo = c.markNo := by unfold Core.modSlot; split <;> rfl
@[simp] theorem modSlot_back (c : Core) (f : Slot → Slot) : (c.modSlot f).back = c.back := by unfold Core.modSlot; split <;> rfl
@[simp] theorem modSlot_tlb (c : Core) (f : Slot → Slot) : (c.modSlot f).tlb = c.tlb := by unfold Core.modSlot; split <;> rfl
@[simp] theorem modSlot_str (c : Core) (f : Slot → Slot) : (c.modSlot f).str = c.str := by unfold Core.modSlot; split <;> rfl
@[simp] theorem modSlot_shp (c : Core) (f : Slot → Slot) : (c.modSlot f).shp = c.shp := by unfold Core.modSlot; split <;> rfl
@[simp] theorem modSlot_shpBusy (c : Core) (f : Slot → Slot) : (c.modSlot f).shpBusy = c.shpBusy := by unfold Core.modSlot; split <;> rfl
@[simp] theorem modSlot_xings (c : Core) (f : Slot → Slot) : (c.modSlot f).xings = c.xings := by unfold Core.modSlot; split <;> rfl
@[simp] theorem modSlot_xseq (c : Core) (f : Slot → Slot) : (c.modSlot f).xseq = c.xseq := by unfold Core.modSlot; split <;> rfl
@[simp] theorem modSlot_xcan (c : Core) (f : Slot → Slot) : (c.modSlot f).xcan = c.xcan := by unfold Core.modSlot; split <;> rfl
@[simp] theorem modSlot_xkinds (c : Core) (f : Slot → Slot) : (c.modSlot f).xkinds = c.xkinds := by unfold Core.modSlot; split <;> rfl
@[simp] theorem modSlot_paths (c : Core) (f : Slot → Slot) : (c.modSlot f).paths = c.paths := by unfold Core.modSlot; split <;> rfl
@[simp] theorem modSlot_oeq (c : Core) (f : Slot → Slot) : (c.modSlot f).oeq = c.oeq := by unfold Core.modSlot; split <;> rfl
@[simp] theorem modSlot_oeqLost (c : Core) (f : Slot → Slot) : (c.modSlot f).oeqLost = c.oeqLost := by unfold Core.modSlot; split <;> rfl
@[simp] theorem modSlot_oeqFreed (c : Core) (f : Slot → Slot) : (c.modSlot f).oeqFreed = c.oeqFreed := by unfold Core.modSlot; split <;> rfl
@[simp] theorem modSlot_oeqNow (c : Core) (f : Slot → Slot) : (c.modSlot f).oeqNow = c.oeqNow := by unfold Core.modSlot; split <;> rfl
@[simp] theorem modSlot_bcache (c : Core) (f : Slot → Slot) : (c.modSlot f).bcache = c.bcache := by unfold Core.modSlot; split <;> rfl
@[simp] theorem modSlot_shares (c : Core) (f : Slot → Slot) : (c.modSlot f).shares = c.shares := by unfold Core.modSlot; split <;> rfl
@[simp] theorem modSlot_sends (c : Core) (f : Slot → Slot) : (c.modSlot f).sends = c.sends := by unfold Core.modSlot; split <;> rfl
@[simp] theorem modSlot_atoms (c : Core) (f : Slot → Slot) : (c.modSlot f).atoms = c.atoms := by unfold Core.modSlot; split <;> rfl
@[simp] theorem modSlot_atomNo (c : Core) (f : Slot → Slot) : (c.modSlot f).atomNo = c.atomNo := by unfold Core.modSlot; split <;> rfl
@[simp] theorem modSlot_drains (c : Core) (f : Slot → Slot) : (c.modSlot f).drains = c.drains := by unfold Core.modSlot; split <;> rfl
@[simp] theorem modSlot_barCount (c : Core) (f : Slot → Slot) : (c.modSlot f).barCount = c.barCount := by unfold Core.modSlot; split <;> rfl
@[simp] theorem modSlot_bar (c : Core) (f : Slot → Slot) : (c.modSlot f).bar = c.bar := by unfold Core.modSlot; split <;> rfl
@[simp] theorem modSlot_barGot (c : Core) (f : Slot → Slot) : (c.modSlot f).barGot = c.barGot := by unfold Core.modSlot; split <;> rfl
@[simp] theorem modSlot_mirror (c : Core) (f : Slot → Slot) : (c.modSlot f).mirror = c.mirror := by unfold Core.modSlot; split <;> rfl
@[simp] theorem modSlot_heatAcc (c : Core) (f : Slot → Slot) : (c.modSlot f).heatAcc = c.heatAcc := by unfold Core.modSlot; split <;> rfl
@[simp] theorem modSlot_heatNow (c : Core) (f : Slot → Slot) : (c.modSlot f).heatNow = c.heatNow := by unfold Core.modSlot; split <;> rfl
@[simp] theorem modSlot_heatAdm (c : Core) (f : Slot → Slot) : (c.modSlot f).heatAdm = c.heatAdm := by unfold Core.modSlot; split <;> rfl
@[simp] theorem modSlot_heatBud (c : Core) (f : Slot → Slot) : (c.modSlot f).heatBud = c.heatBud := by unfold Core.modSlot; split <;> rfl
@[simp] theorem modSlot_heatSet (c : Core) (f : Slot → Slot) : (c.modSlot f).heatSet = c.heatSet := by unfold Core.modSlot; split <;> rfl
@[simp] theorem modSlot_heatNext (c : Core) (f : Slot → Slot) : (c.modSlot f).heatNext = c.heatNext := by unfold Core.modSlot; split <;> rfl
@[simp] theorem modSlot_heatCeil (c : Core) (f : Slot → Slot) : (c.modSlot f).heatCeil = c.heatCeil := by unfold Core.modSlot; split <;> rfl
@[simp] theorem modSlot_stallCnt (c : Core) (f : Slot → Slot) : (c.modSlot f).stallCnt = c.stallCnt := by unfold Core.modSlot; split <;> rfl
@[simp] theorem modSlot_mcmask (c : Core) (f : Slot → Slot) : (c.modSlot f).mcmask = c.mcmask := by unfold Core.modSlot; split <;> rfl
@[simp] theorem modSlot_chksb (c : Core) (f : Slot → Slot) : (c.modSlot f).chksb = c.chksb := by unfold Core.modSlot; split <;> rfl
@[simp] theorem modSlot_stallim (c : Core) (f : Slot → Slot) : (c.modSlot f).stallim = c.stallim := by unfold Core.modSlot; split <;> rfl
@[simp] theorem modSlot_rstlbl (c : Core) (f : Slot → Slot) : (c.modSlot f).rstlbl = c.rstlbl := by unfold Core.modSlot; split <;> rfl
@[simp] theorem modSlot_rstidx (c : Core) (f : Slot → Slot) : (c.modSlot f).rstidx = c.rstidx := by unfold Core.modSlot; split <;> rfl
@[simp] theorem modSlot_tvec (c : Core) (f : Slot → Slot) : (c.modSlot f).tvec = c.tvec := by unfold Core.modSlot; split <;> rfl
@[simp] theorem modSlot_tscratch (c : Core) (f : Slot → Slot) : (c.modSlot f).tscratch = c.tscratch := by unfold Core.modSlot; split <;> rfl
@[simp] theorem modSlot_inj (c : Core) (f : Slot → Slot) : (c.modSlot f).inj = c.inj := by unfold Core.modSlot; split <;> rfl
@[simp] theorem modSlot_wselCold (c : Core) (f : Slot → Slot) : (c.modSlot f).wselCold = c.wselCold := by unfold Core.modSlot; split <;> rfl
@[simp] theorem modSlot_sysNext (c : Core) (f : Slot → Slot) : (c.modSlot f).sysNext = c.sysNext := by unfold Core.modSlot; split <;> rfl
@[simp] theorem modSlot_inHandler (c : Core) (f : Slot → Slot) : (c.modSlot f).inHandler = c.inHandler := by unfold Core.modSlot; split <;> rfl
@[simp] theorem modSlot_tacked (c : Core) (f : Slot → Slot) : (c.modSlot f).tacked = c.tacked := by unfold Core.modSlot; split <;> rfl
@[simp] theorem modSlot_nested (c : Core) (f : Slot → Slot) : (c.modSlot f).nested = c.nested := by unfold Core.modSlot; split <;> rfl
@[simp] theorem modSlot_accLost (c : Core) (f : Slot → Slot) : (c.modSlot f).accLost = c.accLost := by unfold Core.modSlot; split <;> rfl
@[simp] theorem modSlot_emulate (c : Core) (f : Slot → Slot) : (c.modSlot f).emulate = c.emulate := by unfold Core.modSlot; split <;> rfl
@[simp] theorem modSlot_substAt (c : Core) (f : Slot → Slot) : (c.modSlot f).substAt = c.substAt := by unfold Core.modSlot; split <;> rfl
@[simp] theorem modSlot_cutAt (c : Core) (f : Slot → Slot) : (c.modSlot f).cutAt = c.cutAt := by unfold Core.modSlot; split <;> rfl
@[simp] theorem modSlot_cutNest (c : Core) (f : Slot → Slot) : (c.modSlot f).cutNest = c.cutNest := by unfold Core.modSlot; split <;> rfl
@[simp] theorem modSlot_accHere (c : Core) (f : Slot → Slot) : (c.modSlot f).accHere = c.accHere := by unfold Core.modSlot; split <;> rfl
@[simp] theorem modSlot_saved (c : Core) (f : Slot → Slot) : (c.modSlot f).saved = c.saved := by unfold Core.modSlot; split <;> rfl
@[simp] theorem modSlot_halting (c : Core) (f : Slot → Slot) : (c.modSlot f).halting = c.halting := by unfold Core.modSlot; split <;> rfl
@[simp] theorem modSlot_haltAt (c : Core) (f : Slot → Slot) : (c.modSlot f).haltAt = c.haltAt := by unfold Core.modSlot; split <;> rfl
@[simp] theorem modSlot_returning (c : Core) (f : Slot → Slot) : (c.modSlot f).returning = c.returning := by unfold Core.modSlot; split <;> rfl
@[simp] theorem modSlot_trapNext (c : Core) (f : Slot → Slot) : (c.modSlot f).trapNext = c.trapNext := by unfold Core.modSlot; split <;> rfl
@[simp] theorem modSlot_preempt (c : Core) (f : Slot → Slot) : (c.modSlot f).preempt = c.preempt := by unfold Core.modSlot; split <;> rfl
@[simp] theorem modSlot_late (c : Core) (f : Slot → Slot) : (c.modSlot f).late = c.late := by unfold Core.modSlot; split <;> rfl
@[simp] theorem modSlot_rotReq (c : Core) (f : Slot → Slot) : (c.modSlot f).rotReq = c.rotReq := by unfold Core.modSlot; split <;> rfl
@[simp] theorem modSlot_drained (c : Core) (f : Slot → Slot) : (c.modSlot f).drained = c.drained := by unfold Core.modSlot; split <;> rfl
@[simp] theorem modSlot_win (c : Core) (f : Slot → Slot) : (c.modSlot f).win = c.win := by unfold Core.modSlot; split <;> rfl
@[simp] theorem modSlot_replay (c : Core) (f : Slot → Slot) : (c.modSlot f).replay = c.replay := by unfold Core.modSlot; split <;> rfl
@[simp] theorem modSlot_owed (c : Core) (f : Slot → Slot) : (c.modSlot f).owed = c.owed := by unfold Core.modSlot; split <;> rfl
@[simp] theorem modSlot_badGran (c : Core) (f : Slot → Slot) : (c.modSlot f).badGran = c.badGran := by unfold Core.modSlot; split <;> rfl
@[simp] theorem modSlot_badAcc (c : Core) (f : Slot → Slot) : (c.modSlot f).badAcc = c.badAcc := by unfold Core.modSlot; split <;> rfl
@[simp] theorem modSlot_badOrd (c : Core) (f : Slot → Slot) : (c.modSlot f).badOrd = c.badOrd := by unfold Core.modSlot; split <;> rfl
@[simp] theorem modSlot_badL1 (c : Core) (f : Slot → Slot) : (c.modSlot f).badL1 = c.badL1 := by unfold Core.modSlot; split <;> rfl
@[simp] theorem modSlot_trail (c : Core) (f : Slot → Slot) : (c.modSlot f).trail = c.trail := by unfold Core.modSlot; split <;> rfl
@[simp] theorem modSlot_cold (c : Core) (f : Slot → Slot) : (c.modSlot f).cold = c.cold := by unfold Core.modSlot; split <;> rfl
@[simp] theorem setQueue_slot0 (c : Core) (q : QueueId) (es : List QEntry) : (c.setQueue q es).slot0 = c.slot0 := by cases q <;> rfl
@[simp] theorem setQueue_slot1 (c : Core) (q : QueueId) (es : List QEntry) : (c.setQueue q es).slot1 = c.slot1 := by cases q <;> rfl
@[simp] theorem setQueue_run (c : Core) (q : QueueId) (es : List QEntry) : (c.setQueue q es).run = c.run := by cases q <;> rfl
@[simp] theorem setQueue_clearAt (c : Core) (q : QueueId) (es : List QEntry) : (c.setQueue q es).clearAt = c.clearAt := by cases q <;> rfl
@[simp] theorem setQueue_swapAt (c : Core) (q : QueueId) (es : List QEntry) : (c.setQueue q es).swapAt = c.swapAt := by cases q <;> rfl
@[simp] theorem setQueue_recs (c : Core) (q : QueueId) (es : List QEntry) : (c.setQueue q es).recs = c.recs := by cases q <;> rfl
@[simp] theorem setQueue_reserved (c : Core) (q : QueueId) (es : List QEntry) : (c.setQueue q es).reserved = c.reserved := by cases q <;> rfl
@[simp] theorem setQueue_failed (c : Core) (q : QueueId) (es : List QEntry) : (c.setQueue q es).failed = c.failed := by cases q <;> rfl
@[simp] theorem setQueue_l (c : Core) (q : QueueId) (es : List QEntry) : (c.setQueue q es).l = c.l := by cases q <;> rfl
@[simp] theorem setQueue_e (c : Core) (q : QueueId) (es : List QEntry) : (c.setQueue q es).e = c.e := by cases q <;> rfl
@[simp] theorem setQueue_s (c : Core) (q : QueueId) (es : List QEntry) : (c.setQueue q es).s = c.s := by cases q <;> rfl
@[simp] theorem setQueue_k (c : Core) (q : QueueId) (es : List QEntry) : (c.setQueue q es).k = c.k := by cases q <;> rfl
@[simp] theorem setQueue_tok (c : Core) (q : QueueId) (es : List QEntry) : (c.setQueue q es).tok = c.tok := by cases q <;> rfl
@[simp] theorem setQueue_port (c : Core) (q : QueueId) (es : List QEntry) : (c.setQueue q es).port = c.port := by cases q <;> rfl
@[simp] theorem setQueue_loopNo (c : Core) (q : QueueId) (es : List QEntry) : (c.setQueue q es).loopNo = c.loopNo := by cases q <;> rfl
@[simp] theorem setQueue_l1d (c : Core) (q : QueueId) (es : List QEntry) : (c.setQueue q es).l1d = c.l1d := by cases q <;> rfl
@[simp] theorem setQueue_l1i (c : Core) (q : QueueId) (es : List QEntry) : (c.setQueue q es).l1i = c.l1i := by cases q <;> rfl
@[simp] theorem setQueue_lqIssued (c : Core) (q : QueueId) (es : List QEntry) : (c.setQueue q es).lqIssued = c.lqIssued := by cases q <;> rfl
@[simp] theorem setQueue_sqIssued (c : Core) (q : QueueId) (es : List QEntry) : (c.setQueue q es).sqIssued = c.sqIssued := by cases q <;> rfl
@[simp] theorem setQueue_eqIssued (c : Core) (q : QueueId) (es : List QEntry) : (c.setQueue q es).eqIssued = c.eqIssued := by cases q <;> rfl
@[simp] theorem setQueue_lqDone (c : Core) (q : QueueId) (es : List QEntry) : (c.setQueue q es).lqDone = c.lqDone := by cases q <;> rfl
@[simp] theorem setQueue_sqDone (c : Core) (q : QueueId) (es : List QEntry) : (c.setQueue q es).sqDone = c.sqDone := by cases q <;> rfl
@[simp] theorem setQueue_eqDone (c : Core) (q : QueueId) (es : List QEntry) : (c.setQueue q es).eqDone = c.eqDone := by cases q <;> rfl
@[simp] theorem setQueue_lqWarm (c : Core) (q : QueueId) (es : List QEntry) : (c.setQueue q es).lqWarm = c.lqWarm := by cases q <;> rfl
@[simp] theorem setQueue_sqWarm (c : Core) (q : QueueId) (es : List QEntry) : (c.setQueue q es).sqWarm = c.sqWarm := by cases q <;> rfl
@[simp] theorem setQueue_eqWarm (c : Core) (q : QueueId) (es : List QEntry) : (c.setQueue q es).eqWarm = c.eqWarm := by cases q <;> rfl
@[simp] theorem setQueue_markNo (c : Core) (q : QueueId) (es : List QEntry) : (c.setQueue q es).markNo = c.markNo := by cases q <;> rfl
@[simp] theorem setQueue_back (c : Core) (q : QueueId) (es : List QEntry) : (c.setQueue q es).back = c.back := by cases q <;> rfl
@[simp] theorem setQueue_tlb (c : Core) (q : QueueId) (es : List QEntry) : (c.setQueue q es).tlb = c.tlb := by cases q <;> rfl
@[simp] theorem setQueue_str (c : Core) (q : QueueId) (es : List QEntry) : (c.setQueue q es).str = c.str := by cases q <;> rfl
@[simp] theorem setQueue_shp (c : Core) (q : QueueId) (es : List QEntry) : (c.setQueue q es).shp = c.shp := by cases q <;> rfl
@[simp] theorem setQueue_shpBusy (c : Core) (q : QueueId) (es : List QEntry) : (c.setQueue q es).shpBusy = c.shpBusy := by cases q <;> rfl
@[simp] theorem setQueue_xings (c : Core) (q : QueueId) (es : List QEntry) : (c.setQueue q es).xings = c.xings := by cases q <;> rfl
@[simp] theorem setQueue_xseq (c : Core) (q : QueueId) (es : List QEntry) : (c.setQueue q es).xseq = c.xseq := by cases q <;> rfl
@[simp] theorem setQueue_xcan (c : Core) (q : QueueId) (es : List QEntry) : (c.setQueue q es).xcan = c.xcan := by cases q <;> rfl
@[simp] theorem setQueue_xkinds (c : Core) (q : QueueId) (es : List QEntry) : (c.setQueue q es).xkinds = c.xkinds := by cases q <;> rfl
@[simp] theorem setQueue_paths (c : Core) (q : QueueId) (es : List QEntry) : (c.setQueue q es).paths = c.paths := by cases q <;> rfl
@[simp] theorem setQueue_oeq (c : Core) (q : QueueId) (es : List QEntry) : (c.setQueue q es).oeq = c.oeq := by cases q <;> rfl
@[simp] theorem setQueue_oeqLost (c : Core) (q : QueueId) (es : List QEntry) : (c.setQueue q es).oeqLost = c.oeqLost := by cases q <;> rfl
@[simp] theorem setQueue_oeqFreed (c : Core) (q : QueueId) (es : List QEntry) : (c.setQueue q es).oeqFreed = c.oeqFreed := by cases q <;> rfl
@[simp] theorem setQueue_oeqNow (c : Core) (q : QueueId) (es : List QEntry) : (c.setQueue q es).oeqNow = c.oeqNow := by cases q <;> rfl
@[simp] theorem setQueue_bcache (c : Core) (q : QueueId) (es : List QEntry) : (c.setQueue q es).bcache = c.bcache := by cases q <;> rfl
@[simp] theorem setQueue_shares (c : Core) (q : QueueId) (es : List QEntry) : (c.setQueue q es).shares = c.shares := by cases q <;> rfl
@[simp] theorem setQueue_sends (c : Core) (q : QueueId) (es : List QEntry) : (c.setQueue q es).sends = c.sends := by cases q <;> rfl
@[simp] theorem setQueue_atoms (c : Core) (q : QueueId) (es : List QEntry) : (c.setQueue q es).atoms = c.atoms := by cases q <;> rfl
@[simp] theorem setQueue_atomNo (c : Core) (q : QueueId) (es : List QEntry) : (c.setQueue q es).atomNo = c.atomNo := by cases q <;> rfl
@[simp] theorem setQueue_drains (c : Core) (q : QueueId) (es : List QEntry) : (c.setQueue q es).drains = c.drains := by cases q <;> rfl
@[simp] theorem setQueue_barCount (c : Core) (q : QueueId) (es : List QEntry) : (c.setQueue q es).barCount = c.barCount := by cases q <;> rfl
@[simp] theorem setQueue_bar (c : Core) (q : QueueId) (es : List QEntry) : (c.setQueue q es).bar = c.bar := by cases q <;> rfl
@[simp] theorem setQueue_barGot (c : Core) (q : QueueId) (es : List QEntry) : (c.setQueue q es).barGot = c.barGot := by cases q <;> rfl
@[simp] theorem setQueue_mirror (c : Core) (q : QueueId) (es : List QEntry) : (c.setQueue q es).mirror = c.mirror := by cases q <;> rfl
@[simp] theorem setQueue_heatAcc (c : Core) (q : QueueId) (es : List QEntry) : (c.setQueue q es).heatAcc = c.heatAcc := by cases q <;> rfl
@[simp] theorem setQueue_heatNow (c : Core) (q : QueueId) (es : List QEntry) : (c.setQueue q es).heatNow = c.heatNow := by cases q <;> rfl
@[simp] theorem setQueue_heatAdm (c : Core) (q : QueueId) (es : List QEntry) : (c.setQueue q es).heatAdm = c.heatAdm := by cases q <;> rfl
@[simp] theorem setQueue_heatBud (c : Core) (q : QueueId) (es : List QEntry) : (c.setQueue q es).heatBud = c.heatBud := by cases q <;> rfl
@[simp] theorem setQueue_heatSet (c : Core) (q : QueueId) (es : List QEntry) : (c.setQueue q es).heatSet = c.heatSet := by cases q <;> rfl
@[simp] theorem setQueue_heatNext (c : Core) (q : QueueId) (es : List QEntry) : (c.setQueue q es).heatNext = c.heatNext := by cases q <;> rfl
@[simp] theorem setQueue_heatCeil (c : Core) (q : QueueId) (es : List QEntry) : (c.setQueue q es).heatCeil = c.heatCeil := by cases q <;> rfl
@[simp] theorem setQueue_stallCnt (c : Core) (q : QueueId) (es : List QEntry) : (c.setQueue q es).stallCnt = c.stallCnt := by cases q <;> rfl
@[simp] theorem setQueue_mcmask (c : Core) (q : QueueId) (es : List QEntry) : (c.setQueue q es).mcmask = c.mcmask := by cases q <;> rfl
@[simp] theorem setQueue_chksb (c : Core) (q : QueueId) (es : List QEntry) : (c.setQueue q es).chksb = c.chksb := by cases q <;> rfl
@[simp] theorem setQueue_stallim (c : Core) (q : QueueId) (es : List QEntry) : (c.setQueue q es).stallim = c.stallim := by cases q <;> rfl
@[simp] theorem setQueue_rstlbl (c : Core) (q : QueueId) (es : List QEntry) : (c.setQueue q es).rstlbl = c.rstlbl := by cases q <;> rfl
@[simp] theorem setQueue_rstidx (c : Core) (q : QueueId) (es : List QEntry) : (c.setQueue q es).rstidx = c.rstidx := by cases q <;> rfl
@[simp] theorem setQueue_tvec (c : Core) (q : QueueId) (es : List QEntry) : (c.setQueue q es).tvec = c.tvec := by cases q <;> rfl
@[simp] theorem setQueue_tscratch (c : Core) (q : QueueId) (es : List QEntry) : (c.setQueue q es).tscratch = c.tscratch := by cases q <;> rfl
@[simp] theorem setQueue_inj (c : Core) (q : QueueId) (es : List QEntry) : (c.setQueue q es).inj = c.inj := by cases q <;> rfl
@[simp] theorem setQueue_wselCold (c : Core) (q : QueueId) (es : List QEntry) : (c.setQueue q es).wselCold = c.wselCold := by cases q <;> rfl
@[simp] theorem setQueue_sysNext (c : Core) (q : QueueId) (es : List QEntry) : (c.setQueue q es).sysNext = c.sysNext := by cases q <;> rfl
@[simp] theorem setQueue_inHandler (c : Core) (q : QueueId) (es : List QEntry) : (c.setQueue q es).inHandler = c.inHandler := by cases q <;> rfl
@[simp] theorem setQueue_tacked (c : Core) (q : QueueId) (es : List QEntry) : (c.setQueue q es).tacked = c.tacked := by cases q <;> rfl
@[simp] theorem setQueue_nested (c : Core) (q : QueueId) (es : List QEntry) : (c.setQueue q es).nested = c.nested := by cases q <;> rfl
@[simp] theorem setQueue_accLost (c : Core) (q : QueueId) (es : List QEntry) : (c.setQueue q es).accLost = c.accLost := by cases q <;> rfl
@[simp] theorem setQueue_emulate (c : Core) (q : QueueId) (es : List QEntry) : (c.setQueue q es).emulate = c.emulate := by cases q <;> rfl
@[simp] theorem setQueue_substAt (c : Core) (q : QueueId) (es : List QEntry) : (c.setQueue q es).substAt = c.substAt := by cases q <;> rfl
@[simp] theorem setQueue_cutAt (c : Core) (q : QueueId) (es : List QEntry) : (c.setQueue q es).cutAt = c.cutAt := by cases q <;> rfl
@[simp] theorem setQueue_cutNest (c : Core) (q : QueueId) (es : List QEntry) : (c.setQueue q es).cutNest = c.cutNest := by cases q <;> rfl
@[simp] theorem setQueue_accHere (c : Core) (q : QueueId) (es : List QEntry) : (c.setQueue q es).accHere = c.accHere := by cases q <;> rfl
@[simp] theorem setQueue_saved (c : Core) (q : QueueId) (es : List QEntry) : (c.setQueue q es).saved = c.saved := by cases q <;> rfl
@[simp] theorem setQueue_halting (c : Core) (q : QueueId) (es : List QEntry) : (c.setQueue q es).halting = c.halting := by cases q <;> rfl
@[simp] theorem setQueue_haltAt (c : Core) (q : QueueId) (es : List QEntry) : (c.setQueue q es).haltAt = c.haltAt := by cases q <;> rfl
@[simp] theorem setQueue_returning (c : Core) (q : QueueId) (es : List QEntry) : (c.setQueue q es).returning = c.returning := by cases q <;> rfl
@[simp] theorem setQueue_trapNext (c : Core) (q : QueueId) (es : List QEntry) : (c.setQueue q es).trapNext = c.trapNext := by cases q <;> rfl
@[simp] theorem setQueue_preempt (c : Core) (q : QueueId) (es : List QEntry) : (c.setQueue q es).preempt = c.preempt := by cases q <;> rfl
@[simp] theorem setQueue_late (c : Core) (q : QueueId) (es : List QEntry) : (c.setQueue q es).late = c.late := by cases q <;> rfl
@[simp] theorem setQueue_rotReq (c : Core) (q : QueueId) (es : List QEntry) : (c.setQueue q es).rotReq = c.rotReq := by cases q <;> rfl
@[simp] theorem setQueue_drained (c : Core) (q : QueueId) (es : List QEntry) : (c.setQueue q es).drained = c.drained := by cases q <;> rfl
@[simp] theorem setQueue_win (c : Core) (q : QueueId) (es : List QEntry) : (c.setQueue q es).win = c.win := by cases q <;> rfl
@[simp] theorem setQueue_replay (c : Core) (q : QueueId) (es : List QEntry) : (c.setQueue q es).replay = c.replay := by cases q <;> rfl
@[simp] theorem setQueue_owed (c : Core) (q : QueueId) (es : List QEntry) : (c.setQueue q es).owed = c.owed := by cases q <;> rfl
@[simp] theorem setQueue_badGran (c : Core) (q : QueueId) (es : List QEntry) : (c.setQueue q es).badGran = c.badGran := by cases q <;> rfl
@[simp] theorem setQueue_badAcc (c : Core) (q : QueueId) (es : List QEntry) : (c.setQueue q es).badAcc = c.badAcc := by cases q <;> rfl
@[simp] theorem setQueue_badOrd (c : Core) (q : QueueId) (es : List QEntry) : (c.setQueue q es).badOrd = c.badOrd := by cases q <;> rfl
@[simp] theorem setQueue_badL1 (c : Core) (q : QueueId) (es : List QEntry) : (c.setQueue q es).badL1 = c.badL1 := by cases q <;> rfl
@[simp] theorem setQueue_trail (c : Core) (q : QueueId) (es : List QEntry) : (c.setQueue q es).trail = c.trail := by cases q <;> rfl
@[simp] theorem setQueue_cold (c : Core) (q : QueueId) (es : List QEntry) : (c.setQueue q es).cold = c.cold := by cases q <;> rfl

@[simp] theorem cluster_setCluster_self (c : Core) (l : Lane) (x : Cluster) : (c.setCluster l x).cluster l = x := by cases l <;> rfl

theorem cluster_setCluster_other (c : Core) {l j : Lane} (x : Cluster) (h : j ≠ l) : (c.setCluster l x).cluster j = c.cluster j := by
  cases l <;> cases j <;> first | rfl | exact absurd rfl h

@[simp] theorem cluster_modClusters (c : Core) (f : Lane → Cluster → Cluster) (l : Lane) : (c.modClusters f).cluster l = f l (c.cluster l) := by
  cases l <;> rfl

@[simp] theorem cold_modCold (c : Core) (f : Cold → Cold) : (c.modCold f).cold = f c.cold := rfl

@[simp] theorem cl_modCl (s : State) (f : Cluster → Cluster) : (s.modCl f).cl = f s.cl := by
  simp only [State.cl, State.modCl, modCore_lane, core_modCore, cluster_setCluster_self]

theorem cluster_modCl_other (s : State) (f : Cluster → Cluster) {l : Lane} (h : l ≠ s.lane) : (s.modCl f).core.cluster l = s.core.cluster l := by
  simp only [State.modCl, core_modCore, cluster_setCluster_other _ _ h]

@[simp] theorem tokAt_modTok_self (c : Core) (i : Nat) (f : Fifo → Fifo) : (c.modTok i f).tokAt i = f (c.tokAt i) := get_put_self ..
@[simp] theorem portAt_modPort_self (c : Core) (i : Nat) (f : Fifo → Fifo) : (c.modPort i f).portAt i = f (c.portAt i) := get_put_self ..

@[simp] theorem core_modCl_slot0 (s : State) (f : Cluster → Cluster) : (s.modCl f).core.slot0 = s.core.slot0 := by
  simp only [State.modCl, core_modCore, setCluster_slot0]
@[simp] theorem core_modCl_slot1 (s : State) (f : Cluster → Cluster) : (s.modCl f).core.slot1 = s.core.slot1 := by
  simp only [State.modCl, core_modCore, setCluster_slot1]
@[simp] theorem core_modCl_run (s : State) (f : Cluster → Cluster) : (s.modCl f).core.run = s.core.run := by
  simp only [State.modCl, core_modCore, setCluster_run]
@[simp] theorem core_modCl_clearAt (s : State) (f : Cluster → Cluster) : (s.modCl f).core.clearAt = s.core.clearAt := by
  simp only [State.modCl, core_modCore, setCluster_clearAt]
@[simp] theorem core_modCl_swapAt (s : State) (f : Cluster → Cluster) : (s.modCl f).core.swapAt = s.core.swapAt := by
  simp only [State.modCl, core_modCore, setCluster_swapAt]
@[simp] theorem core_modCl_recs (s : State) (f : Cluster → Cluster) : (s.modCl f).core.recs = s.core.recs := by
  simp only [State.modCl, core_modCore, setCluster_recs]
@[simp] theorem core_modCl_reserved (s : State) (f : Cluster → Cluster) : (s.modCl f).core.reserved = s.core.reserved := by
  simp only [State.modCl, core_modCore, setCluster_reserved]
@[simp] theorem core_modCl_failed (s : State) (f : Cluster → Cluster) : (s.modCl f).core.failed = s.core.failed := by
  simp only [State.modCl, core_modCore, setCluster_failed]
@[simp] theorem core_modCl_tok (s : State) (f : Cluster → Cluster) : (s.modCl f).core.tok = s.core.tok := by
  simp only [State.modCl, core_modCore, setCluster_tok]
@[simp] theorem core_modCl_port (s : State) (f : Cluster → Cluster) : (s.modCl f).core.port = s.core.port := by
  simp only [State.modCl, core_modCore, setCluster_port]
@[simp] theorem core_modCl_loopNo (s : State) (f : Cluster → Cluster) : (s.modCl f).core.loopNo = s.core.loopNo := by
  simp only [State.modCl, core_modCore, setCluster_loopNo]
@[simp] theorem core_modCl_l1d (s : State) (f : Cluster → Cluster) : (s.modCl f).core.l1d = s.core.l1d := by
  simp only [State.modCl, core_modCore, setCluster_l1d]
@[simp] theorem core_modCl_l1i (s : State) (f : Cluster → Cluster) : (s.modCl f).core.l1i = s.core.l1i := by
  simp only [State.modCl, core_modCore, setCluster_l1i]
@[simp] theorem core_modCl_lq (s : State) (f : Cluster → Cluster) : (s.modCl f).core.lq = s.core.lq := by
  simp only [State.modCl, core_modCore, setCluster_lq]
@[simp] theorem core_modCl_sq (s : State) (f : Cluster → Cluster) : (s.modCl f).core.sq = s.core.sq := by
  simp only [State.modCl, core_modCore, setCluster_sq]
@[simp] theorem core_modCl_eq (s : State) (f : Cluster → Cluster) : (s.modCl f).core.eq = s.core.eq := by
  simp only [State.modCl, core_modCore, setCluster_eq]
@[simp] theorem core_modCl_lqIssued (s : State) (f : Cluster → Cluster) : (s.modCl f).core.lqIssued = s.core.lqIssued := by
  simp only [State.modCl, core_modCore, setCluster_lqIssued]
@[simp] theorem core_modCl_sqIssued (s : State) (f : Cluster → Cluster) : (s.modCl f).core.sqIssued = s.core.sqIssued := by
  simp only [State.modCl, core_modCore, setCluster_sqIssued]
@[simp] theorem core_modCl_eqIssued (s : State) (f : Cluster → Cluster) : (s.modCl f).core.eqIssued = s.core.eqIssued := by
  simp only [State.modCl, core_modCore, setCluster_eqIssued]
@[simp] theorem core_modCl_lqDone (s : State) (f : Cluster → Cluster) : (s.modCl f).core.lqDone = s.core.lqDone := by
  simp only [State.modCl, core_modCore, setCluster_lqDone]
@[simp] theorem core_modCl_sqDone (s : State) (f : Cluster → Cluster) : (s.modCl f).core.sqDone = s.core.sqDone := by
  simp only [State.modCl, core_modCore, setCluster_sqDone]
@[simp] theorem core_modCl_eqDone (s : State) (f : Cluster → Cluster) : (s.modCl f).core.eqDone = s.core.eqDone := by
  simp only [State.modCl, core_modCore, setCluster_eqDone]
@[simp] theorem core_modCl_lqWarm (s : State) (f : Cluster → Cluster) : (s.modCl f).core.lqWarm = s.core.lqWarm := by
  simp only [State.modCl, core_modCore, setCluster_lqWarm]
@[simp] theorem core_modCl_sqWarm (s : State) (f : Cluster → Cluster) : (s.modCl f).core.sqWarm = s.core.sqWarm := by
  simp only [State.modCl, core_modCore, setCluster_sqWarm]
@[simp] theorem core_modCl_eqWarm (s : State) (f : Cluster → Cluster) : (s.modCl f).core.eqWarm = s.core.eqWarm := by
  simp only [State.modCl, core_modCore, setCluster_eqWarm]
@[simp] theorem core_modCl_markNo (s : State) (f : Cluster → Cluster) : (s.modCl f).core.markNo = s.core.markNo := by
  simp only [State.modCl, core_modCore, setCluster_markNo]
@[simp] theorem core_modCl_back (s : State) (f : Cluster → Cluster) : (s.modCl f).core.back = s.core.back := by
  simp only [State.modCl, core_modCore, setCluster_back]
@[simp] theorem core_modCl_tlb (s : State) (f : Cluster → Cluster) : (s.modCl f).core.tlb = s.core.tlb := by
  simp only [State.modCl, core_modCore, setCluster_tlb]
@[simp] theorem core_modCl_str (s : State) (f : Cluster → Cluster) : (s.modCl f).core.str = s.core.str := by
  simp only [State.modCl, core_modCore, setCluster_str]
@[simp] theorem core_modCl_shp (s : State) (f : Cluster → Cluster) : (s.modCl f).core.shp = s.core.shp := by
  simp only [State.modCl, core_modCore, setCluster_shp]
@[simp] theorem core_modCl_shpBusy (s : State) (f : Cluster → Cluster) : (s.modCl f).core.shpBusy = s.core.shpBusy := by
  simp only [State.modCl, core_modCore, setCluster_shpBusy]
@[simp] theorem core_modCl_xings (s : State) (f : Cluster → Cluster) : (s.modCl f).core.xings = s.core.xings := by
  simp only [State.modCl, core_modCore, setCluster_xings]
@[simp] theorem core_modCl_xseq (s : State) (f : Cluster → Cluster) : (s.modCl f).core.xseq = s.core.xseq := by
  simp only [State.modCl, core_modCore, setCluster_xseq]
@[simp] theorem core_modCl_xcan (s : State) (f : Cluster → Cluster) : (s.modCl f).core.xcan = s.core.xcan := by
  simp only [State.modCl, core_modCore, setCluster_xcan]
@[simp] theorem core_modCl_xkinds (s : State) (f : Cluster → Cluster) : (s.modCl f).core.xkinds = s.core.xkinds := by
  simp only [State.modCl, core_modCore, setCluster_xkinds]
@[simp] theorem core_modCl_paths (s : State) (f : Cluster → Cluster) : (s.modCl f).core.paths = s.core.paths := by
  simp only [State.modCl, core_modCore, setCluster_paths]
@[simp] theorem core_modCl_oeq (s : State) (f : Cluster → Cluster) : (s.modCl f).core.oeq = s.core.oeq := by
  simp only [State.modCl, core_modCore, setCluster_oeq]
@[simp] theorem core_modCl_oeqLost (s : State) (f : Cluster → Cluster) : (s.modCl f).core.oeqLost = s.core.oeqLost := by
  simp only [State.modCl, core_modCore, setCluster_oeqLost]
@[simp] theorem core_modCl_oeqFreed (s : State) (f : Cluster → Cluster) : (s.modCl f).core.oeqFreed = s.core.oeqFreed := by
  simp only [State.modCl, core_modCore, setCluster_oeqFreed]
@[simp] theorem core_modCl_oeqNow (s : State) (f : Cluster → Cluster) : (s.modCl f).core.oeqNow = s.core.oeqNow := by
  simp only [State.modCl, core_modCore, setCluster_oeqNow]
@[simp] theorem core_modCl_bcache (s : State) (f : Cluster → Cluster) : (s.modCl f).core.bcache = s.core.bcache := by
  simp only [State.modCl, core_modCore, setCluster_bcache]
@[simp] theorem core_modCl_shares (s : State) (f : Cluster → Cluster) : (s.modCl f).core.shares = s.core.shares := by
  simp only [State.modCl, core_modCore, setCluster_shares]
@[simp] theorem core_modCl_sends (s : State) (f : Cluster → Cluster) : (s.modCl f).core.sends = s.core.sends := by
  simp only [State.modCl, core_modCore, setCluster_sends]
@[simp] theorem core_modCl_atoms (s : State) (f : Cluster → Cluster) : (s.modCl f).core.atoms = s.core.atoms := by
  simp only [State.modCl, core_modCore, setCluster_atoms]
@[simp] theorem core_modCl_atomNo (s : State) (f : Cluster → Cluster) : (s.modCl f).core.atomNo = s.core.atomNo := by
  simp only [State.modCl, core_modCore, setCluster_atomNo]
@[simp] theorem core_modCl_drains (s : State) (f : Cluster → Cluster) : (s.modCl f).core.drains = s.core.drains := by
  simp only [State.modCl, core_modCore, setCluster_drains]
@[simp] theorem core_modCl_barCount (s : State) (f : Cluster → Cluster) : (s.modCl f).core.barCount = s.core.barCount := by
  simp only [State.modCl, core_modCore, setCluster_barCount]
@[simp] theorem core_modCl_bar (s : State) (f : Cluster → Cluster) : (s.modCl f).core.bar = s.core.bar := by
  simp only [State.modCl, core_modCore, setCluster_bar]
@[simp] theorem core_modCl_barGot (s : State) (f : Cluster → Cluster) : (s.modCl f).core.barGot = s.core.barGot := by
  simp only [State.modCl, core_modCore, setCluster_barGot]
@[simp] theorem core_modCl_mirror (s : State) (f : Cluster → Cluster) : (s.modCl f).core.mirror = s.core.mirror := by
  simp only [State.modCl, core_modCore, setCluster_mirror]
@[simp] theorem core_modCl_heatAcc (s : State) (f : Cluster → Cluster) : (s.modCl f).core.heatAcc = s.core.heatAcc := by
  simp only [State.modCl, core_modCore, setCluster_heatAcc]
@[simp] theorem core_modCl_heatNow (s : State) (f : Cluster → Cluster) : (s.modCl f).core.heatNow = s.core.heatNow := by
  simp only [State.modCl, core_modCore, setCluster_heatNow]
@[simp] theorem core_modCl_heatAdm (s : State) (f : Cluster → Cluster) : (s.modCl f).core.heatAdm = s.core.heatAdm := by
  simp only [State.modCl, core_modCore, setCluster_heatAdm]
@[simp] theorem core_modCl_heatBud (s : State) (f : Cluster → Cluster) : (s.modCl f).core.heatBud = s.core.heatBud := by
  simp only [State.modCl, core_modCore, setCluster_heatBud]
@[simp] theorem core_modCl_heatSet (s : State) (f : Cluster → Cluster) : (s.modCl f).core.heatSet = s.core.heatSet := by
  simp only [State.modCl, core_modCore, setCluster_heatSet]
@[simp] theorem core_modCl_heatNext (s : State) (f : Cluster → Cluster) : (s.modCl f).core.heatNext = s.core.heatNext := by
  simp only [State.modCl, core_modCore, setCluster_heatNext]
@[simp] theorem core_modCl_heatCeil (s : State) (f : Cluster → Cluster) : (s.modCl f).core.heatCeil = s.core.heatCeil := by
  simp only [State.modCl, core_modCore, setCluster_heatCeil]
@[simp] theorem core_modCl_stallCnt (s : State) (f : Cluster → Cluster) : (s.modCl f).core.stallCnt = s.core.stallCnt := by
  simp only [State.modCl, core_modCore, setCluster_stallCnt]
@[simp] theorem core_modCl_mcmask (s : State) (f : Cluster → Cluster) : (s.modCl f).core.mcmask = s.core.mcmask := by
  simp only [State.modCl, core_modCore, setCluster_mcmask]
@[simp] theorem core_modCl_chksb (s : State) (f : Cluster → Cluster) : (s.modCl f).core.chksb = s.core.chksb := by
  simp only [State.modCl, core_modCore, setCluster_chksb]
@[simp] theorem core_modCl_stallim (s : State) (f : Cluster → Cluster) : (s.modCl f).core.stallim = s.core.stallim := by
  simp only [State.modCl, core_modCore, setCluster_stallim]
@[simp] theorem core_modCl_rstlbl (s : State) (f : Cluster → Cluster) : (s.modCl f).core.rstlbl = s.core.rstlbl := by
  simp only [State.modCl, core_modCore, setCluster_rstlbl]
@[simp] theorem core_modCl_rstidx (s : State) (f : Cluster → Cluster) : (s.modCl f).core.rstidx = s.core.rstidx := by
  simp only [State.modCl, core_modCore, setCluster_rstidx]
@[simp] theorem core_modCl_tvec (s : State) (f : Cluster → Cluster) : (s.modCl f).core.tvec = s.core.tvec := by
  simp only [State.modCl, core_modCore, setCluster_tvec]
@[simp] theorem core_modCl_tscratch (s : State) (f : Cluster → Cluster) : (s.modCl f).core.tscratch = s.core.tscratch := by
  simp only [State.modCl, core_modCore, setCluster_tscratch]
@[simp] theorem core_modCl_inj (s : State) (f : Cluster → Cluster) : (s.modCl f).core.inj = s.core.inj := by
  simp only [State.modCl, core_modCore, setCluster_inj]
@[simp] theorem core_modCl_wselCold (s : State) (f : Cluster → Cluster) : (s.modCl f).core.wselCold = s.core.wselCold := by
  simp only [State.modCl, core_modCore, setCluster_wselCold]
@[simp] theorem core_modCl_sysNext (s : State) (f : Cluster → Cluster) : (s.modCl f).core.sysNext = s.core.sysNext := by
  simp only [State.modCl, core_modCore, setCluster_sysNext]
@[simp] theorem core_modCl_inHandler (s : State) (f : Cluster → Cluster) : (s.modCl f).core.inHandler = s.core.inHandler := by
  simp only [State.modCl, core_modCore, setCluster_inHandler]
@[simp] theorem core_modCl_tacked (s : State) (f : Cluster → Cluster) : (s.modCl f).core.tacked = s.core.tacked := by
  simp only [State.modCl, core_modCore, setCluster_tacked]
@[simp] theorem core_modCl_nested (s : State) (f : Cluster → Cluster) : (s.modCl f).core.nested = s.core.nested := by
  simp only [State.modCl, core_modCore, setCluster_nested]
@[simp] theorem core_modCl_accLost (s : State) (f : Cluster → Cluster) : (s.modCl f).core.accLost = s.core.accLost := by
  simp only [State.modCl, core_modCore, setCluster_accLost]
@[simp] theorem core_modCl_emulate (s : State) (f : Cluster → Cluster) : (s.modCl f).core.emulate = s.core.emulate := by
  simp only [State.modCl, core_modCore, setCluster_emulate]
@[simp] theorem core_modCl_substAt (s : State) (f : Cluster → Cluster) : (s.modCl f).core.substAt = s.core.substAt := by
  simp only [State.modCl, core_modCore, setCluster_substAt]
@[simp] theorem core_modCl_cutAt (s : State) (f : Cluster → Cluster) : (s.modCl f).core.cutAt = s.core.cutAt := by
  simp only [State.modCl, core_modCore, setCluster_cutAt]
@[simp] theorem core_modCl_cutNest (s : State) (f : Cluster → Cluster) : (s.modCl f).core.cutNest = s.core.cutNest := by
  simp only [State.modCl, core_modCore, setCluster_cutNest]
@[simp] theorem core_modCl_accHere (s : State) (f : Cluster → Cluster) : (s.modCl f).core.accHere = s.core.accHere := by
  simp only [State.modCl, core_modCore, setCluster_accHere]
@[simp] theorem core_modCl_saved (s : State) (f : Cluster → Cluster) : (s.modCl f).core.saved = s.core.saved := by
  simp only [State.modCl, core_modCore, setCluster_saved]
@[simp] theorem core_modCl_halting (s : State) (f : Cluster → Cluster) : (s.modCl f).core.halting = s.core.halting := by
  simp only [State.modCl, core_modCore, setCluster_halting]
@[simp] theorem core_modCl_haltAt (s : State) (f : Cluster → Cluster) : (s.modCl f).core.haltAt = s.core.haltAt := by
  simp only [State.modCl, core_modCore, setCluster_haltAt]
@[simp] theorem core_modCl_returning (s : State) (f : Cluster → Cluster) : (s.modCl f).core.returning = s.core.returning := by
  simp only [State.modCl, core_modCore, setCluster_returning]
@[simp] theorem core_modCl_trapNext (s : State) (f : Cluster → Cluster) : (s.modCl f).core.trapNext = s.core.trapNext := by
  simp only [State.modCl, core_modCore, setCluster_trapNext]
@[simp] theorem core_modCl_preempt (s : State) (f : Cluster → Cluster) : (s.modCl f).core.preempt = s.core.preempt := by
  simp only [State.modCl, core_modCore, setCluster_preempt]
@[simp] theorem core_modCl_late (s : State) (f : Cluster → Cluster) : (s.modCl f).core.late = s.core.late := by
  simp only [State.modCl, core_modCore, setCluster_late]
@[simp] theorem core_modCl_rotReq (s : State) (f : Cluster → Cluster) : (s.modCl f).core.rotReq = s.core.rotReq := by
  simp only [State.modCl, core_modCore, setCluster_rotReq]
@[simp] theorem core_modCl_drained (s : State) (f : Cluster → Cluster) : (s.modCl f).core.drained = s.core.drained := by
  simp only [State.modCl, core_modCore, setCluster_drained]
@[simp] theorem core_modCl_win (s : State) (f : Cluster → Cluster) : (s.modCl f).core.win = s.core.win := by
  simp only [State.modCl, core_modCore, setCluster_win]
@[simp] theorem core_modCl_replay (s : State) (f : Cluster → Cluster) : (s.modCl f).core.replay = s.core.replay := by
  simp only [State.modCl, core_modCore, setCluster_replay]
@[simp] theorem core_modCl_owed (s : State) (f : Cluster → Cluster) : (s.modCl f).core.owed = s.core.owed := by
  simp only [State.modCl, core_modCore, setCluster_owed]
@[simp] theorem core_modCl_badGran (s : State) (f : Cluster → Cluster) : (s.modCl f).core.badGran = s.core.badGran := by
  simp only [State.modCl, core_modCore, setCluster_badGran]
@[simp] theorem core_modCl_badAcc (s : State) (f : Cluster → Cluster) : (s.modCl f).core.badAcc = s.core.badAcc := by
  simp only [State.modCl, core_modCore, setCluster_badAcc]
@[simp] theorem core_modCl_badOrd (s : State) (f : Cluster → Cluster) : (s.modCl f).core.badOrd = s.core.badOrd := by
  simp only [State.modCl, core_modCore, setCluster_badOrd]
@[simp] theorem core_modCl_badL1 (s : State) (f : Cluster → Cluster) : (s.modCl f).core.badL1 = s.core.badL1 := by
  simp only [State.modCl, core_modCore, setCluster_badL1]
@[simp] theorem core_modCl_trail (s : State) (f : Cluster → Cluster) : (s.modCl f).core.trail = s.core.trail := by
  simp only [State.modCl, core_modCore, setCluster_trail]
@[simp] theorem core_modCl_cold (s : State) (f : Cluster → Cluster) : (s.modCl f).core.cold = s.core.cold := by
  simp only [State.modCl, core_modCore, setCluster_cold]
@[simp] theorem tokAt_setCluster (c : Core) (l : Lane) (x : Cluster) (i : Nat) : (c.setCluster l x).tokAt i = c.tokAt i := by simp only [Core.tokAt, setCluster_tok]
@[simp] theorem tokAt_modClusters (c : Core) (f : Lane → Cluster → Cluster) (i : Nat) : (c.modClusters f).tokAt i = c.tokAt i := by simp only [Core.tokAt, modClusters_tok]
@[simp] theorem tokAt_modCold (c : Core) (f : Cold → Cold) (i : Nat) : (c.modCold f).tokAt i = c.tokAt i := by simp only [Core.tokAt, modCold_tok]
@[simp] theorem portAt_setCluster (c : Core) (l : Lane) (x : Cluster) (i : Nat) : (c.setCluster l x).portAt i = c.portAt i := by simp only [Core.portAt, setCluster_port]
@[simp] theorem portAt_modClusters (c : Core) (f : Lane → Cluster → Cluster) (i : Nat) : (c.modClusters f).portAt i = c.portAt i := by simp only [Core.portAt, modClusters_port]
@[simp] theorem portAt_modCold (c : Core) (f : Cold → Cold) (i : Nat) : (c.modCold f).portAt i = c.portAt i := by simp only [Core.portAt, modCold_port]
@[simp] theorem cluster_modTok (c : Core) (i : Nat) (f : Fifo → Fifo) (l : Lane) : (c.modTok i f).cluster l = c.cluster l := by cases l <;> rfl
@[simp] theorem cluster_modPort (c : Core) (i : Nat) (f : Fifo → Fifo) (l : Lane) : (c.modPort i f).cluster l = c.cluster l := by cases l <;> rfl
@[simp] theorem cluster_modCold (c : Core) (f : Cold → Cold) (l : Lane) : (c.modCold f).cluster l = c.cluster l := by cases l <;> rfl

/-! ## Updates of a cluster -/

@[simp] theorem wg_pc (x : Cluster) (n : Nat) (v : Word) : (x.wg n v).pc = x.pc := by unfold Cluster.wg; split <;> rfl
@[simp] theorem wg_p (x : Cluster) (n : Nat) (v : Word) : (x.wg n v).p = x.p := by unfold Cluster.wg; split <;> rfl
@[simp] theorem wg_c (x : Cluster) (n : Nat) (v : Word) : (x.wg n v).c = x.c := by unfold Cluster.wg; split <;> rfl
@[simp] theorem wg_split (x : Cluster) (n : Nat) (v : Word) : (x.wg n v).split = x.split := by unfold Cluster.wg; split <;> rfl
@[simp] theorem wg_atJoin (x : Cluster) (n : Nat) (v : Word) : (x.wg n v).atJoin = x.atJoin := by unfold Cluster.wg; split <;> rfl
@[simp] theorem wg_joinId (x : Cluster) (n : Nat) (v : Word) : (x.wg n v).joinId = x.joinId := by unfold Cluster.wg; split <;> rfl
@[simp] theorem wg_loops (x : Cluster) (n : Nat) (v : Word) : (x.wg n v).loops = x.loops := by unfold Cluster.wg; split <;> rfl
@[simp] theorem wg_busy (x : Cluster) (n : Nat) (v : Word) : (x.wg n v).busy = x.busy := by unfold Cluster.wg; split <;> rfl
@[simp] theorem wg_since (x : Cluster) (n : Nat) (v : Word) : (x.wg n v).since = x.since := by unfold Cluster.wg; split <;> rfl
@[simp] theorem wg_wait (x : Cluster) (n : Nat) (v : Word) : (x.wg n v).wait = x.wait := by unfold Cluster.wg; split <;> rfl
@[simp] theorem wg_done (x : Cluster) (n : Nat) (v : Word) : (x.wg n v).done = x.done := by unfold Cluster.wg; split <;> rfl
@[simp] theorem wg_xfer (x : Cluster) (n : Nat) (v : Word) : (x.wg n v).xfer = x.xfer := by unfold Cluster.wg; split <;> rfl
@[simp] theorem wg_sync (x : Cluster) (n : Nat) (v : Word) : (x.wg n v).sync = x.sync := by unfold Cluster.wg; split <;> rfl
@[simp] theorem wg_readyAt (x : Cluster) (n : Nat) (v : Word) : (x.wg n v).readyAt = x.readyAt := by unfold Cluster.wg; split <;> rfl
@[simp] theorem wg_stopped (x : Cluster) (n : Nat) (v : Word) : (x.wg n v).stopped = x.stopped := by unfold Cluster.wg; split <;> rfl
@[simp] theorem wp_pc (x : Cluster) (n : Nat) (v : Bool) : (x.wp n v).pc = x.pc := by unfold Cluster.wp; split <;> rfl
@[simp] theorem wp_g (x : Cluster) (n : Nat) (v : Bool) : (x.wp n v).g = x.g := by unfold Cluster.wp; split <;> rfl
@[simp] theorem wp_c (x : Cluster) (n : Nat) (v : Bool) : (x.wp n v).c = x.c := by unfold Cluster.wp; split <;> rfl
@[simp] theorem wp_split (x : Cluster) (n : Nat) (v : Bool) : (x.wp n v).split = x.split := by unfold Cluster.wp; split <;> rfl
@[simp] theorem wp_atJoin (x : Cluster) (n : Nat) (v : Bool) : (x.wp n v).atJoin = x.atJoin := by unfold Cluster.wp; split <;> rfl
@[simp] theorem wp_joinId (x : Cluster) (n : Nat) (v : Bool) : (x.wp n v).joinId = x.joinId := by unfold Cluster.wp; split <;> rfl
@[simp] theorem wp_loops (x : Cluster) (n : Nat) (v : Bool) : (x.wp n v).loops = x.loops := by unfold Cluster.wp; split <;> rfl
@[simp] theorem wp_busy (x : Cluster) (n : Nat) (v : Bool) : (x.wp n v).busy = x.busy := by unfold Cluster.wp; split <;> rfl
@[simp] theorem wp_since (x : Cluster) (n : Nat) (v : Bool) : (x.wp n v).since = x.since := by unfold Cluster.wp; split <;> rfl
@[simp] theorem wp_wait (x : Cluster) (n : Nat) (v : Bool) : (x.wp n v).wait = x.wait := by unfold Cluster.wp; split <;> rfl
@[simp] theorem wp_done (x : Cluster) (n : Nat) (v : Bool) : (x.wp n v).done = x.done := by unfold Cluster.wp; split <;> rfl
@[simp] theorem wp_xfer (x : Cluster) (n : Nat) (v : Bool) : (x.wp n v).xfer = x.xfer := by unfold Cluster.wp; split <;> rfl
@[simp] theorem wp_sync (x : Cluster) (n : Nat) (v : Bool) : (x.wp n v).sync = x.sync := by unfold Cluster.wp; split <;> rfl
@[simp] theorem wp_readyAt (x : Cluster) (n : Nat) (v : Bool) : (x.wp n v).readyAt = x.readyAt := by unfold Cluster.wp; split <;> rfl
@[simp] theorem wp_stopped (x : Cluster) (n : Nat) (v : Bool) : (x.wp n v).stopped = x.stopped := by unfold Cluster.wp; split <;> rfl
@[simp] theorem wc_pc (x : Cluster) (n : Nat) (v : Word32) : (x.wc n v).pc = x.pc := rfl
@[simp] theorem wc_g (x : Cluster) (n : Nat) (v : Word32) : (x.wc n v).g = x.g := rfl
@[simp] theorem wc_p (x : Cluster) (n : Nat) (v : Word32) : (x.wc n v).p = x.p := rfl
@[simp] theorem wc_split (x : Cluster) (n : Nat) (v : Word32) : (x.wc n v).split = x.split := rfl
@[simp] theorem wc_atJoin (x : Cluster) (n : Nat) (v : Word32) : (x.wc n v).atJoin = x.atJoin := rfl
@[simp] theorem wc_joinId (x : Cluster) (n : Nat) (v : Word32) : (x.wc n v).joinId = x.joinId := rfl
@[simp] theorem wc_loops (x : Cluster) (n : Nat) (v : Word32) : (x.wc n v).loops = x.loops := rfl
@[simp] theorem wc_busy (x : Cluster) (n : Nat) (v : Word32) : (x.wc n v).busy = x.busy := rfl
@[simp] theorem wc_since (x : Cluster) (n : Nat) (v : Word32) : (x.wc n v).since = x.since := rfl
@[simp] theorem wc_wait (x : Cluster) (n : Nat) (v : Word32) : (x.wc n v).wait = x.wait := rfl
@[simp] theorem wc_done (x : Cluster) (n : Nat) (v : Word32) : (x.wc n v).done = x.done := rfl
@[simp] theorem wc_xfer (x : Cluster) (n : Nat) (v : Word32) : (x.wc n v).xfer = x.xfer := rfl
@[simp] theorem wc_sync (x : Cluster) (n : Nat) (v : Word32) : (x.wc n v).sync = x.sync := rfl
@[simp] theorem wc_readyAt (x : Cluster) (n : Nat) (v : Word32) : (x.wc n v).readyAt = x.readyAt := rfl
@[simp] theorem wc_stopped (x : Cluster) (n : Nat) (v : Word32) : (x.wc n v).stopped = x.stopped := rfl
@[simp] theorem setBusy_pc (x : Cluster) (r : RegRef) (t : Option Nat) : (x.setBusy r t).pc = x.pc := by unfold Cluster.setBusy; split <;> rfl
@[simp] theorem setBusy_g (x : Cluster) (r : RegRef) (t : Option Nat) : (x.setBusy r t).g = x.g := by unfold Cluster.setBusy; split <;> rfl
@[simp] theorem setBusy_p (x : Cluster) (r : RegRef) (t : Option Nat) : (x.setBusy r t).p = x.p := by unfold Cluster.setBusy; split <;> rfl
@[simp] theorem setBusy_c (x : Cluster) (r : RegRef) (t : Option Nat) : (x.setBusy r t).c = x.c := by unfold Cluster.setBusy; split <;> rfl
@[simp] theorem setBusy_split (x : Cluster) (r : RegRef) (t : Option Nat) : (x.setBusy r t).split = x.split := by unfold Cluster.setBusy; split <;> rfl
@[simp] theorem setBusy_atJoin (x : Cluster) (r : RegRef) (t : Option Nat) : (x.setBusy r t).atJoin = x.atJoin := by unfold Cluster.setBusy; split <;> rfl
@[simp] theorem setBusy_joinId (x : Cluster) (r : RegRef) (t : Option Nat) : (x.setBusy r t).joinId = x.joinId := by unfold Cluster.setBusy; split <;> rfl
@[simp] theorem setBusy_loops (x : Cluster) (r : RegRef) (t : Option Nat) : (x.setBusy r t).loops = x.loops := by unfold Cluster.setBusy; split <;> rfl
@[simp] theorem setBusy_since (x : Cluster) (r : RegRef) (t : Option Nat) : (x.setBusy r t).since = x.since := by unfold Cluster.setBusy; split <;> rfl
@[simp] theorem setBusy_wait (x : Cluster) (r : RegRef) (t : Option Nat) : (x.setBusy r t).wait = x.wait := by unfold Cluster.setBusy; split <;> rfl
@[simp] theorem setBusy_done (x : Cluster) (r : RegRef) (t : Option Nat) : (x.setBusy r t).done = x.done := by unfold Cluster.setBusy; split <;> rfl
@[simp] theorem setBusy_xfer (x : Cluster) (r : RegRef) (t : Option Nat) : (x.setBusy r t).xfer = x.xfer := by unfold Cluster.setBusy; split <;> rfl
@[simp] theorem setBusy_sync (x : Cluster) (r : RegRef) (t : Option Nat) : (x.setBusy r t).sync = x.sync := by unfold Cluster.setBusy; split <;> rfl
@[simp] theorem setBusy_readyAt (x : Cluster) (r : RegRef) (t : Option Nat) : (x.setBusy r t).readyAt = x.readyAt := by unfold Cluster.setBusy; split <;> rfl
@[simp] theorem setBusy_stopped (x : Cluster) (r : RegRef) (t : Option Nat) : (x.setBusy r t).stopped = x.stopped := by unfold Cluster.setBusy; split <;> rfl

/-- A register after a write; g0 and p0 keep their values (R16). -/
theorem rg_wg (x : Cluster) (n j : Nat) (v : Word) : (x.wg n v).rg j = if j = n ∧ n ≠ 0 then v else x.rg j := by
  unfold Cluster.wg Cluster.rg
  by_cases hn : n = 0
  · simp [hn]
  · by_cases hj : j = 0
    · subst hj; simp [hn, Ne.symm hn]
    · simp only [hn, hj, if_false, get_set, ne_eq, not_false_eq_true, and_true]

@[simp] theorem rg_zero (x : Cluster) : x.rg 0 = 0 := rfl
@[simp] theorem rp_zero (x : Cluster) : x.rp 0 = true := rfl

@[simp] theorem rg_wg_self (x : Cluster) (n : Nat) (v : Word) : (x.wg n v).rg n = if n = 0 then 0 else v := by
  rw [rg_wg]; by_cases h : n = 0 <;> simp [h]

theorem rp_wp (x : Cluster) (n j : Nat) (v : Bool) : (x.wp n v).rp j = if j = n ∧ n ≠ 0 then v else x.rp j := by
  unfold Cluster.wp Cluster.rp
  by_cases hn : n = 0
  · simp [hn]
  · by_cases hj : j = 0
    · subst hj; simp [hn, Ne.symm hn]
    · simp only [hn, hj, if_false, get_set, ne_eq, not_false_eq_true, and_true]

@[simp] theorem rp_wp_self (x : Cluster) (n : Nat) (v : Bool) : (x.wp n v).rp n = if n = 0 then true else v := by
  rw [rp_wp]; by_cases h : n = 0 <;> simp [h]

theorem rc_wc (x : Cluster) (n j : Nat) (v : Word32) : (x.wc n v).rc j = if j = n then v else x.rc j := get_set ..
@[simp] theorem rc_wc_self (x : Cluster) (n : Nat) (v : Word32) : (x.wc n v).rc n = v := get_set_self ..

@[simp] theorem rp_wg (x : Cluster) (n j : Nat) (v : Word) : (x.wg n v).rp j = x.rp j := by simp only [Cluster.rp, wg_p]
@[simp] theorem rc_wg (x : Cluster) (n j : Nat) (v : Word) : (x.wg n v).rc j = x.rc j := by simp only [Cluster.rc, wg_c]
@[simp] theorem rg_wp (x : Cluster) (n j : Nat) (v : Bool) : (x.wp n v).rg j = x.rg j := by simp only [Cluster.rg, wp_g]
@[simp] theorem rc_wp (x : Cluster) (n j : Nat) (v : Bool) : (x.wp n v).rc j = x.rc j := by simp only [Cluster.rc, wp_c]
@[simp] theorem rg_wc (x : Cluster) (n j : Nat) (v : Word32) : (x.wc n v).rg j = x.rg j := rfl
@[simp] theorem rp_wc (x : Cluster) (n j : Nat) (v : Word32) : (x.wc n v).rp j = x.rp j := rfl
@[simp] theorem rg_setBusy (x : Cluster) (r : RegRef) (t : Option Nat) (j : Nat) : (x.setBusy r t).rg j = x.rg j := by simp only [Cluster.rg, setBusy_g]
@[simp] theorem rp_setBusy (x : Cluster) (r : RegRef) (t : Option Nat) (j : Nat) : (x.setBusy r t).rp j = x.rp j := by simp only [Cluster.rp, setBusy_p]
@[simp] theorem rc_setBusy (x : Cluster) (r : RegRef) (t : Option Nat) (j : Nat) : (x.setBusy r t).rc j = x.rc j := by simp only [Cluster.rc, setBusy_c]

/-- How long a register just made busy stays so. -/
theorem isBusy_setBusy (x : Cluster) (r : RegRef) (t w : Nat) (h : r ≠ .g 0 ∧ r ≠ .p 0) : (x.setBusy r (some t)).isBusy w r = decide (w < t) := by
  unfold Cluster.setBusy
  rw [if_neg (by tauto)]
  simp only [Cluster.isBusy, List.any_cons, decide_true, Bool.true_and]
  refine (congrArg _ ?_).trans (Bool.or_false _)
  rw [List.any_eq_false]
  intro y hy
  have := (List.mem_filter.1 hy).2
  simp only [Bool.not_eq_true', decide_eq_false_iff_not] at this
  simp [this]


end Sys2Proof.Laws
end

