-- ==== Sys2Proof/Laws/Memory.lean ====
section
/-! SUPPORT. Every memory operation keeps memory in its canonical form, and memory reads back what was written. -/

namespace Sys2Proof.Laws

open Sys2Proof.Machine

/-- A change that leaves memory alone keeps the form. -/
theorem inv_of_mem {s t : State} (h : t.mem = s.mem) (hs : s.Inv) : t.Inv := by
  unfold State.Inv at *; rw [h]; exact hs

theorem inv_modCoreAt {s : State} (k : Nat) (f : Core → Core) (hs : s.Inv) : (s.modCoreAt k f).Inv := hs
theorem inv_modCore {s : State} (f : Core → Core) (hs : s.Inv) : (s.modCore f).Inv := hs
theorem inv_modDieAt {s : State} (k : Nat) (f : Die → Die) (hs : s.Inv) : (s.modDieAt k f).Inv := hs
theorem inv_modPkgAt {s : State} (k : Nat) (f : Pkg → Pkg) (hs : s.Inv) : (s.modPkgAt k f).Inv := hs
theorem inv_modPartAt {s : State} (k : Nat) (f : Part → Part) (hs : s.Inv) : (s.modPartAt k f).Inv := hs
theorem inv_notify {s : State} (p : Nat) (n : Notice) (hs : s.Inv) : (s.notify p n).Inv := hs

theorem inv_tell {s : State} (p b : Nat) (e : MemError) (m : Bool) (hs : s.Inv) : (s.tell p b e m).Inv := by
  unfold State.tell; split
  · exact inv_notify _ _ hs
  · exact hs

theorem inv_logDie {s : State} (d : Nat) (e : MemError) (m : Bool) (hs : s.Inv) : (s.logDie d e m).Inv := inv_tell _ _ _ _ (inv_modDieAt _ _ hs)

theorem inv_setByte {s : State} (k : Nat) (b : Byte) (hs : s.Inv) : (s.setByte k b).Inv := wf_set 0 s.mem k b hs

theorem inv_setBytes {s : State} (k : Nat) (bs : List Byte) (hs : s.Inv) : (s.setBytes k bs).Inv := by
  induction bs generalizing s k with
  | nil => exact hs
  | cons b rest ih => exact ih _ (inv_setByte k b hs)

theorem inv_liveByte {s : State} (w k : Nat) (b : Byte) (hs : s.Inv) : (s.liveByte w k b).Inv := by
  unfold State.liveByte; split
  · exact hs
  · exact inv_setByte k b hs

theorem inv_partByte {s : State} (p w k : Nat) (b : Byte) (hs : s.Inv) : (s.partByte p w k b).Inv := by
  unfold State.partByte; dsimp only; split
  · exact inv_liveByte _ _ _ (inv_liveByte _ _ _ hs)
  · exact inv_liveByte _ _ _ hs

theorem inv_homeByte {s : State} (k : Nat) (b : Byte) (hs : s.Inv) : (s.homeByte k b).Inv := inv_partByte _ _ _ _ hs

theorem inv_partBytes {s : State} (p k : Nat) (bs : List Byte) (hs : s.Inv) : (s.partBytes p k bs).Inv := by
  induction bs generalizing s k with
  | nil => exact hs
  | cons b rest ih => exact ih _ (inv_partByte p 0 k b hs)

theorem inv_homeBytes {s : State} (k : Nat) (bs : List Byte) (hs : s.Inv) : (s.homeBytes k bs).Inv := by
  induction bs generalizing s k with
  | nil => exact hs
  | cons b rest ih => exact ih _ (inv_homeByte k b hs)

theorem inv_awaitMirror {s : State} (k w : Nat) (j : Bool) (hs : s.Inv) : (s.awaitMirror k w j).Inv := by
  unfold State.awaitMirror; split
  · exact inv_modCore _ hs
  · exact hs

theorem inv_homeWrite {s : State} (k w : Nat) (bs : List Byte) (hs : s.Inv) : (s.homeWrite k w bs).Inv :=
  inv_awaitMirror _ _ _ (inv_homeBytes _ _ hs)

/-- A fold of steps each of which keeps the form keeps it. -/
theorem inv_foldl {α : Type} {f : State → α → State} (h : ∀ s a, s.Inv → (f s a).Inv) (l : List α) {s : State} (hs : s.Inv) :
    (l.foldl f s).Inv := by
  induction l generalizing s with
  | nil => exact hs
  | cons a rest ih => exact ih (h s a hs)

theorem inv_lineHome {s : State} (l : Line) (hs : s.Inv) : (s.lineHome l).Inv :=
  inv_foldl (fun s i hs => by split; exacts [inv_homeByte _ _ hs, hs]) _ hs

theorem inv_writeBack {s : State} (w : Nat) (l : Line) (hs : s.Inv) : (s.writeBack w l).Inv := by
  unfold State.writeBack
  split
  · exact hs
  · split
    · exact inv_logDie _ _ _ hs
    · exact inv_awaitMirror _ _ _ (inv_lineHome l hs)

theorem inv_fillLine {s : State} (k : Nat) (hs : s.Inv) : (s.fillLine k).2.Inv := by
  unfold State.fillLine; dsimp only
  split
  · exact hs
  · refine inv_modCore _ ?_
    split
    · exact hs
    · split
      · exact inv_modCore _ (inv_writeBack _ _ hs)
      · exact hs

theorem inv_putLine {s : State} (l : Line) (hs : s.Inv) : (s.putLine l).Inv := inv_modCore _ hs
theorem inv_l1Read {s : State} (k n : Nat) (hs : s.Inv) : (s.l1Read k n).2.Inv := inv_putLine _ (inv_fillLine k hs)
theorem inv_l1Write {s : State} (k n v : Nat) (hs : s.Inv) : (s.l1Write k n v).Inv := inv_putLine _ (inv_fillLine k hs)

theorem inv_cleanLines {s : State} (w : Nat) (sel : Line → Bool) (hs : s.Inv) : (s.cleanLines w sel).Inv :=
  inv_modCore _ (inv_foldl (fun _ l hs => inv_writeBack w l hs) _ hs)

theorem inv_dropLines {s : State} (sel : Line → Bool) (hs : s.Inv) : (s.dropLines sel).Inv := inv_modCore _ hs

theorem inv_writeAt {s : State} (p : Nat) (h : Word) (bs : List Byte) (hs : s.Inv) : (s.writeAt p h bs).Inv := by
  unfold State.writeAt; split
  · exact inv_partBytes _ _ _ hs
  · exact hs

theorem inv_applyWrites {s : State} (t : Taken) (ws : List (Nat × Byte)) (sel : Nat → Bool) (hs : s.Inv) : (s.applyWrites t ws sel).Inv := by
  have h1 := inv_foldl (f := fun (s : State) (w : Nat × Byte) => if sel (w.1 / 8) then s.homeByte w.1 w.2 else s)
    (fun s w hs => by split; exacts [inv_homeByte _ _ hs, hs]) ws hs
  exact inv_modCore _ h1

theorem inv_maintain {s : State} (w fn : Nat) (base len : Word) (hs : s.Inv) : (s.maintain w fn base len).Inv := by
  unfold State.maintain
  split
  · dsimp only
    split <;> split <;> first | exact hs | exact inv_cleanLines _ _ hs | exact inv_dropLines _ hs | exact inv_dropLines _ (inv_cleanLines _ _ hs)
  · exact hs

/-- A write by key lands at a home, or in a trap area, which is no part of memory. -/
theorem inv_anyWrite {s : State} (k : Nat) (b : Byte) (hs : s.Inv) : (s.anyWrite k b).Inv := by
  unfold State.anyWrite; split
  · exact inv_homeByte _ _ hs
  · exact inv_modCoreAt _ _ hs

theorem inv_putCaptured {s : State} (bs : List (Nat × Byte)) (sel : Nat → Bool) (hs : s.Inv) : (s.putCaptured bs sel).Inv :=
  inv_foldl (fun s y hs => by dsimp only; split; exacts [inv_anyWrite _ _ hs, hs]) _ hs

/-- Lines expressed under another key. -/
theorem inv_recode {s : State} (p i : Nat) (r : Region) (f : Nat → List Byte → List Byte) (hs : s.Inv) : (s.recode p i r f).Inv :=
  inv_foldl (fun _ _ hs => inv_foldl (fun _ _ hs => inv_setBytes _ _ hs) _ hs) _ hs

theorem inv_uncover {s : State} (p i : Nat) (r : Region) (hs : s.Inv) : (s.uncover p i r).Inv := by
  unfold State.uncover; split
  · exact inv_recode _ _ _ _ hs
  · exact hs

theorem inv_cover {s : State} (p i : Nat) (r : Region) (hs : s.Inv) : (s.cover p i r).Inv := by
  unfold State.cover; split
  · exact inv_recode _ _ _ _ hs
  · exact hs

theorem inv_setRegion {s : State} (p i : Nat) (v : BitVec 512) (hs : s.Inv) : (s.setRegion p i v).Inv := by
  have h1 : (match s.regionOf p i with | some r => s.uncover p i r | none => s).Inv := by
    split
    · exact inv_uncover _ _ _ hs
    · exact hs
  unfold State.setRegion; dsimp only
  split
  · exact inv_modPartAt _ _ hs
  · split
    · exact inv_cover _ _ _ (inv_modPartAt _ _ h1)
    · exact inv_modPartAt _ _ h1

theorem inv_createRegion {s : State} (p : Nat) (k : KernelImage) (x : ImageRegion) (hs : s.Inv) : (s.createRegion p k x).Inv :=
  inv_partBytes _ _ _ (inv_setRegion _ _ _ hs)

theorem inv_stepSix {s : State} (k : Nat) (hs : s.Inv) : (s.stepSix k).Inv :=
  inv_modPkgAt _ _ (inv_foldl (fun _ _ hs => inv_setRegion _ _ _ hs) _ (inv_modPkgAt _ _ hs))

/-- The boot steps write memory only as they write region entries. -/
theorem inv_stepFour {s : State} (k : Nat) (hs : s.Inv) : (s.stepFour k).Inv := by
  unfold State.stepFour; dsimp only; split
  · split
    · exact inv_modPkgAt _ _ (inv_stepSix _ (inv_modPkgAt _ _ hs))
    · exact inv_modPkgAt _ _ hs
  · exact hs

theorem inv_resetModule {s : State} (k : Nat) (b : BootInputs) (hs : s.Inv) : (s.resetModule k b).Inv :=
  inv_stepFour k (s := { s with mem := _, cores := _, dies := _, pkgs := _, parts := _, bad := _, badDc := _, owners := _, agenda := _ })
    (wf_filter 0 s.mem _ hs)

/-- Writing bytes from a key on leaves every byte below it. -/
theorem byte_setBytes_below (s : State) (k j : Nat) (bs : List Byte) (h : j < k) : (s.setBytes k bs).byte j = s.byte j := by
  induction bs generalizing s k with
  | nil => rfl
  | cons b rest ih =>
    show (((s.setByte k b).setBytes (k + 1) rest).byte j) = _
    rw [ih _ _ (by omega), byte_setByte, if_neg (by omega)]

end Sys2Proof.Laws
end

