-- ==== Sys2Proof/Laws/Orders.lean ====
section
/-! SUPPORT. What the shared operations of the cold engines' orders do: a charge, a write that lands later, a change of the sequencer. -/

namespace Sys2Proof.Laws

open Sys2Proof.Machine

@[simp] theorem charge_scnt (s : State) (n : Nat) : (s.charge n).scnt = s.scnt := rfl
@[simp] theorem charge_cur (s : State) (n : Nat) : (s.charge n).cur = s.cur := rfl
@[simp] theorem charge_mem (s : State) (n : Nat) : (s.charge n).mem = s.mem := rfl

/-- A charge goes to the core's meter and nothing else of the core changes. -/
theorem charge_core (s : State) (n : Nat) : (s.charge n).core = { s.core with heatNow := s.core.heatNow + n } := get_put_self ..

@[simp] theorem charge_cold (s : State) (n : Nat) : (s.charge n).core.cold = s.core.cold := by rw [charge_core]
@[simp] theorem charge_slot (s : State) (n : Nat) : (s.charge n).core.slot = s.core.slot := by rw [charge_core]; rfl
@[simp] theorem charge_engine (s : State) (n : Nat) (e : EngineId) : (s.charge n).core.engine e = s.core.engine e := by rw [charge_core]; rfl
@[simp] theorem charge_replay (s : State) (n : Nat) : (s.charge n).core.replay = s.core.replay := by rw [charge_core]
@[simp] theorem charge_iter (s : State) (n : Nat) (e : EngineId) : (s.charge n).iter e = s.iter e := by
  show ((s.charge n).core.engine e).iter = _; rw [charge_engine]; rfl
@[simp] theorem charge_coldByte (s : State) (n b a : Nat) : (s.charge n).coldByte b a = s.coldByte b a := by
  unfold State.coldByte; rw [charge_slot, charge_cold]
@[simp] theorem charge_coldSide (s : State) (n b a : Nat) : (s.charge n).coldSide b a = s.coldSide b a := by
  unfold State.coldSide; rw [charge_slot, charge_cold]
@[simp] theorem charge_coldNat (s : State) (n b a k : Nat) : (s.charge n).coldNat b a k = s.coldNat b a k := by
  unfold State.coldNat; simp
@[simp] theorem charge_coldCells (s : State) (n b a : Nat) (bs : List Byte) : (s.charge n).coldCells b a bs = s.coldCells b a bs := by
  unfold State.coldCells; rw [charge_slot]
@[simp] theorem charge_vl (s : State) (n : Nat) (r : BitVec 5) (i : Nat) : (s.charge n).vl r i = s.vl r i := by
  unfold State.vl; rw [charge_cold]

theorem charge_coreAt (s : State) (n k : Nat) (h : k ≠ s.cur) : (s.charge n).coreAt k = s.coreAt k := get_put_other _ _ _ h
theorem charge_posted (s : State) (n : Nat) : ((s.charge n).pkgAt (s.cur / 256)).posted = (s.pkgAt (s.cur / 256)).posted + n :=
  congrArg Pkg.posted (get_put_self ..)

/-- A charge and a change of the current core's cold state is what an order that issues does. -/
theorem issued_modCore (s : State) (n : Nat) (f : Core → Core) (h : ∀ c : Core, { f c with cold := c.cold } = c) :
    Issued s ((s.charge n).modCore f) n where
  pod := rfl
  others k hk := (coreAt_modCore_other (s.charge n) f hk).trans (charge_coreAt s n k hk)
  core := by
    rw [core_modCore, charge_core]
    have := h { s.core with heatNow := s.core.heatNow + n }
    generalize f { s.core with heatNow := s.core.heatNow + n } = y at this
    cases y; simp only [Core.mk.injEq] at this ⊢
    generalize s.core = z at this ⊢
    cases z; simp_all
  charge := by
    rw [core_modCore, charge_core]
    have := h { s.core with heatNow := s.core.heatNow + n }
    generalize f { s.core with heatNow := s.core.heatNow + n } = y at this
    exact (congrArg Core.heatNow this : _)
  posted := charge_posted s n

theorem issued_charge (s : State) (n : Nat) : Issued s (s.charge n) n where
  pod := rfl
  others := charge_coreAt s n
  core := by rw [charge_core]
  charge := by rw [charge_core]
  posted := charge_posted s n

theorem land_eq (s : State) (e : EngineId) (lat chain : Nat) (ws : List Res) (op : LandOp) (ev : Option Word) :
    s.land e lat chain ws op ev = s.modCore fun c => { c with cold := { c.cold with pend := c.cold.pend ++
      [{ at_ := s.scnt + lat, issued := s.scnt, eng := e, chain := chain, writes := ws, op := op, event := ev }] } } := rfl

/-- An order that issues one write. -/
theorem lands_land (i : Instr) (s : State) (e : EngineId) (lat chain : Nat) (ws : List Res) (op : LandOp) (ev : Option Word) :
    Lands s (.next ((s.charge (s.orderHeat i)).land e lat chain ws op ev)) (s.orderHeat i) e [(lat, op)] :=
  ⟨_, [{ at_ := s.scnt + lat, issued := s.scnt, eng := e, chain := chain, writes := ws, op := op, event := ev }], rfl,
    issued_modCore s _ _ (fun _ => rfl), by rw [land_eq, core_modCore, charge_core],
    by rw [land_eq, core_modCore, charge_core]; rfl, rfl, by simp⟩

/-- An order that only passes. -/
theorem lands_charge (i : Instr) (s : State) (e : EngineId) : Lands s (.next (s.charge (s.orderHeat i))) (s.orderHeat i) e [] :=
  ⟨_, [], rfl, issued_charge s _, by rw [charge_core], by rw [charge_core]; simp, rfl, by simp⟩

end Sys2Proof.Laws
end

