-- ==== Sys2Proof/Laws/PerInstr.lean ====
section
/-! SUPPORT. Statements about every instruction, one lemma for each constructor: decoding what the encoder gives for a
well-formed instruction gives that instruction back. -/

namespace Sys2Proof.Laws

/-- Decode of encode, in the place where the instruction stands: as a word, and as a copy string entry. -/
def RoundTrip.Statement (i : Instr) : Prop :=
  i.wf = true →
    (∀ w, encode i = some w → decodeAs i.kind w = .ok i) ∧
    (∀ c e, c.instr e = i → decodeEntry (encodeEntry c e) = .ok i)

theorem leNat_word {w : Nat} (n : Nat) (x : BitVec w) (h : 2 ^ w = 256 ^ n) : leNat (leBytes n x.toNat) = x.toNat := by
  rw [leNat_leBytes, ← h, Nat.mod_eq_of_lt x.isLt]

/-- Decoding sixty bytes of fields and their CRC. -/
theorem decode_record (body : List Byte) (h : body.length = 60) :
    decodeEntry (body ++ leBytes 4 (crc32 body).toNat) =
      (let v := leNat (body ++ leBytes 4 (crc32 body).toNat)
       let e : CopyEntry :=
         { flags := BitVec.ofNat 8 (entryField v 1 1), len := BitVec.ofNat 32 (entryField v 4 4),
           src := BitVec.ofNat 64 (entryField v 8 8), dst := BitVec.ofNat 64 (entryField v 16 8),
           aux := BitVec.ofNat 64 (entryField v 24 8), seed := BitVec.ofNat 32 (entryField v 32 4),
           expect := BitVec.ofNat 32 (entryField v 36 4), arg := BitVec.ofNat 64 (entryField v 40 8) }
       match Command.ofCode (BitVec.ofNat 8 (entryField v 0 1)) with
       | none => .error .unassignedCommand
       | some c => if entryField v 2 2 ≠ 0 ∨ entryField v 48 12 ≠ 0 then .error .mustBeZero else assigned (.ok (c.instr e))) := by
  have h1 : (body ++ leBytes 4 (crc32 body).toNat).length = 64 := by rw [List.length_append, h, leBytes_length]
  have h2 : (body ++ leBytes 4 (crc32 body).toNat).take 60 = body := List.take_left' h
  have h3 : (body ++ leBytes 4 (crc32 body).toNat).drop 60 = leBytes 4 (crc32 body).toNat := List.drop_left' h
  have h4 : crc32 body = BitVec.ofNat 32 (leNat (leBytes 4 (crc32 body).toNat)) := by
    rw [leNat_word 4 (crc32 body) (by norm_num), BitVec.ofNat_toNat, BitVec.setWidth_eq]
  unfold decodeEntry
  rw [if_neg (by simp only [h1, ne_eq, not_true_eq_false, not_false_eq_true]), h2, h3, if_neg (by simp only [← h4, ne_eq, not_true_eq_false, not_false_eq_true])]
  all_goals rfl

/-- A field of an entry by the bytes before, in and after it. -/
theorem field_of {bytes pre mid post : List Byte} {o n v : Nat} (h : bytes = pre ++ mid ++ post) (ho : pre.length = o)
    (hn : mid.length = n) (hv : leNat mid = v) : entryField (leNat bytes) o n = v := by
  subst h ho hn hv
  exact field_append pre mid post

theorem ofCode_code (c : Command) : Command.ofCode c.code = some c := by cases c <;> rfl

/-- The 64 bytes of an entry decode to it. -/
theorem decode_encodeEntry (c : Command) (e : CopyEntry) (h : (c.instr e).wf = true) :
    decodeEntry (encodeEntry c e) = .ok (c.instr e) := by
  obtain ⟨flags, len, src, dst, aux, seed, expect, arg⟩ := e
  let z := leBytes 2 0
  let body := [c.code] ++ [flags] ++ z ++ leBytes 4 len.toNat ++ leBytes 8 src.toNat ++ leBytes 8 dst.toNat ++
    leBytes 8 aux.toNat ++ leBytes 4 seed.toNat ++ leBytes 4 expect.toNat ++ leBytes 8 arg.toNat ++ leBytes 12 0
  refine (decode_record body (by simp [body, z])).trans ?_
  dsimp only
  generalize leBytes 4 (crc32 body).toNat = crc
  have f0 : entryField (leNat (body ++ crc)) 0 1 = c.code.toNat :=
    field_of (pre := []) (mid := [c.code])
      (post := [flags] ++ z ++ leBytes 4 len.toNat ++ leBytes 8 src.toNat ++ leBytes 8 dst.toNat ++ leBytes 8 aux.toNat ++ leBytes 4 seed.toNat ++ leBytes 4 expect.toNat ++ leBytes 8 arg.toNat ++ leBytes 12 0 ++ crc)
      (by simp only [body, List.append_assoc, List.nil_append]) (by simp [z]) (by simp [z]) (by simp [leNat])
  have f1 : entryField (leNat (body ++ crc)) 1 1 = flags.toNat :=
    field_of (pre := [c.code]) (mid := [flags])
      (post := z ++ leBytes 4 len.toNat ++ leBytes 8 src.toNat ++ leBytes 8 dst.toNat ++ leBytes 8 aux.toNat ++ leBytes 4 seed.toNat ++ leBytes 4 expect.toNat ++ leBytes 8 arg.toNat ++ leBytes 12 0 ++ crc)
      (by simp only [body, List.append_assoc, List.nil_append]) (by simp [z]) (by simp [z]) (by simp [leNat])
  have f2 : entryField (leNat (body ++ crc)) 2 2 = 0 :=
    field_of (pre := [c.code] ++ [flags]) (mid := z)
      (post := leBytes 4 len.toNat ++ leBytes 8 src.toNat ++ leBytes 8 dst.toNat ++ leBytes 8 aux.toNat ++ leBytes 4 seed.toNat ++ leBytes 4 expect.toNat ++ leBytes 8 arg.toNat ++ leBytes 12 0 ++ crc)
      (by simp only [body, List.append_assoc, List.nil_append]) (by simp [z]) (by simp [z]) (by simp [z, leNat_leBytes])
  have f4 : entryField (leNat (body ++ crc)) 4 4 = len.toNat :=
    field_of (pre := [c.code] ++ [flags] ++ z) (mid := leBytes 4 len.toNat)
      (post := leBytes 8 src.toNat ++ leBytes 8 dst.toNat ++ leBytes 8 aux.toNat ++ leBytes 4 seed.toNat ++ leBytes 4 expect.toNat ++ leBytes 8 arg.toNat ++ leBytes 12 0 ++ crc)
      (by simp only [body, List.append_assoc, List.nil_append]) (by simp [z]) (by simp [z]) (leNat_word 4 len (by norm_num))
  have f8 : entryField (leNat (body ++ crc)) 8 8 = src.toNat :=
    field_of (pre := [c.code] ++ [flags] ++ z ++ leBytes 4 len.toNat) (mid := leBytes 8 src.toNat)
      (post := leBytes 8 dst.toNat ++ leBytes 8 aux.toNat ++ leBytes 4 seed.toNat ++ leBytes 4 expect.toNat ++ leBytes 8 arg.toNat ++ leBytes 12 0 ++ crc)
      (by simp only [body, List.append_assoc, List.nil_append]) (by simp [z]) (by simp [z]) (leNat_word 8 src (by norm_num))
  have f16 : entryField (leNat (body ++ crc)) 16 8 = dst.toNat :=
    field_of (pre := [c.code] ++ [flags] ++ z ++ leBytes 4 len.toNat ++ leBytes 8 src.toNat) (mid := leBytes 8 dst.toNat)
      (post := leBytes 8 aux.toNat ++ leBytes 4 seed.toNat ++ leBytes 4 expect.toNat ++ leBytes 8 arg.toNat ++ leBytes 12 0 ++ crc)
      (by simp only [body, List.append_assoc, List.nil_append]) (by simp [z]) (by simp [z]) (leNat_word 8 dst (by norm_num))
  have f24 : entryField (leNat (body ++ crc)) 24 8 = aux.toNat :=
    field_of (pre := [c.code] ++ [flags] ++ z ++ leBytes 4 len.toNat ++ leBytes 8 src.toNat ++ leBytes 8 dst.toNat) (mid := leBytes 8 aux.toNat)
      (post := leBytes 4 seed.toNat ++ leBytes 4 expect.toNat ++ leBytes 8 arg.toNat ++ leBytes 12 0 ++ crc)
      (by simp only [body, List.append_assoc, List.nil_append]) (by simp [z]) (by simp [z]) (leNat_word 8 aux (by norm_num))
  have f32 : entryField (leNat (body ++ crc)) 32 4 = seed.toNat :=
    field_of (pre := [c.code] ++ [flags] ++ z ++ leBytes 4 len.toNat ++ leBytes 8 src.toNat ++ leBytes 8 dst.toNat ++ leBytes 8 aux.toNat) (mid := leBytes 4 seed.toNat)
      (post := leBytes 4 expect.toNat ++ leBytes 8 arg.toNat ++ leBytes 12 0 ++ crc)
      (by simp only [body, List.append_assoc, List.nil_append]) (by simp [z]) (by simp [z]) (leNat_word 4 seed (by norm_num))
  have f36 : entryField (leNat (body ++ crc)) 36 4 = expect.toNat :=
    field_of (pre := [c.code] ++ [flags] ++ z ++ leBytes 4 len.toNat ++ leBytes 8 src.toNat ++ leBytes 8 dst.toNat ++ leBytes 8 aux.toNat ++ leBytes 4 seed.toNat) (mid := leBytes 4 expect.toNat)
      (post := leBytes 8 arg.toNat ++ leBytes 12 0 ++ crc)
      (by simp only [body, List.append_assoc, List.nil_append]) (by simp [z]) (by simp [z]) (leNat_word 4 expect (by norm_num))
  have f40 : entryField (leNat (body ++ crc)) 40 8 = arg.toNat :=
    field_of (pre := [c.code] ++ [flags] ++ z ++ leBytes 4 len.toNat ++ leBytes 8 src.toNat ++ leBytes 8 dst.toNat ++ leBytes 8 aux.toNat ++ leBytes 4 seed.toNat ++ leBytes 4 expect.toNat) (mid := leBytes 8 arg.toNat)
      (post := leBytes 12 0 ++ crc)
      (by simp only [body, List.append_assoc, List.nil_append]) (by simp [z]) (by simp [z]) (leNat_word 8 arg (by norm_num))
  have f48 : entryField (leNat (body ++ crc)) 48 12 = 0 :=
    field_of (pre := [c.code] ++ [flags] ++ z ++ leBytes 4 len.toNat ++ leBytes 8 src.toNat ++ leBytes 8 dst.toNat ++ leBytes 8 aux.toNat ++ leBytes 4 seed.toNat ++ leBytes 4 expect.toNat ++ leBytes 8 arg.toNat) (mid := leBytes 12 0)
      (post := crc)
      (by simp only [body, List.append_assoc, List.nil_append]) (by simp [z]) (by simp [z]) (by simp [leNat_leBytes])
  simp only [f0, f1, f2, f4, f8, f16, f24, f32, f36, f40, f48, BitVec.ofNat_toNat, BitVec.setWidth_eq, ofCode_code, ne_eq, not_true_eq_false,
    or_self, if_false]
  exact assigned_ok h

theorem entry_of {i : Instr} (c : Command) (e : CopyEntry) (h : c.instr e = i) (hw : i.wf = true) :
    decodeEntry (encodeEntry c e) = .ok i := by
  subst h
  exact decode_encodeEntry c e hw

theorem RoundTrip.add (s : BitVec 1) (d : BitVec 5) (a : BitVec 5) (b : BitVec 5) : RoundTrip.Statement (Instr.add s d a b) := by
  refine fun hw => ⟨fun x h => ?_, fun c x h => by cases c <;> simp [Command.instr] at h⟩
  cases h
  refine scalar_ok 0x01#6 (fmtKR_maj ..) (by decide) (by decide) ?_ hw
  rw [show fmtKR s 0x01 d a b 0x0#10 = @BitVec.cast (1 + 6 + 5 + 5 + 5 + 10) 32 rfl (s ++ 0x01#6 ++ d ++ a ++ b ++ 0x0#10) from rfl]
  dsimp only [decodeScalar]
  simp (disch := decide) only [extract_cast, extract_extract, BitVec.extractLsb'_append_eq_of_le, BitVec.extractLsb'_append_eq_of_add_le]
  simp only [Nat.reduceSub, Nat.reduceAdd, BitVec.extractLsb'_eq_self]
  all_goals rfl
theorem RoundTrip.sub (s : BitVec 1) (d : BitVec 5) (a : BitVec 5) (b : BitVec 5) : RoundTrip.Statement (Instr.sub s d a b) := by
  refine fun hw => ⟨fun x h => ?_, fun c x h => by cases c <;> simp [Command.instr] at h⟩
  cases h
  refine scalar_ok 0x01#6 (fmtKR_maj ..) (by decide) (by decide) ?_ hw
  rw [show fmtKR s 0x01 d a b 0x1#10 = @BitVec.cast (1 + 6 + 5 + 5 + 5 + 10) 32 rfl (s ++ 0x01#6 ++ d ++ a ++ b ++ 0x1#10) from rfl]
  dsimp only [decodeScalar]
  simp (disch := decide) only [extract_cast, extract_extract, BitVec.extractLsb'_append_eq_of_le, BitVec.extractLsb'_append_eq_of_add_le]
  simp only [Nat.reduceSub, Nat.reduceAdd, BitVec.extractLsb'_eq_self]
  all_goals rfl
theorem RoundTrip.and (s : BitVec 1) (d : BitVec 5) (a : BitVec 5) (b : BitVec 5) : RoundTrip.Statement (Instr.and s d a b) := by
  refine fun hw => ⟨fun x h => ?_, fun c x h => by cases c <;> simp [Command.instr] at h⟩
  cases h
  refine scalar_ok 0x01#6 (fmtKR_maj ..) (by decide) (by decide) ?_ hw
  rw [show fmtKR s 0x01 d a b 0x2#10 = @BitVec.cast (1 + 6 + 5 + 5 + 5 + 10) 32 rfl (s ++ 0x01#6 ++ d ++ a ++ b ++ 0x2#10) from rfl]
  dsimp only [decodeScalar]
  simp (disch := decide) only [extract_cast, extract_extract, BitVec.extractLsb'_append_eq_of_le, BitVec.extractLsb'_append_eq_of_add_le]
  simp only [Nat.reduceSub, Nat.reduceAdd, BitVec.extractLsb'_eq_self]
  all_goals rfl
theorem RoundTrip.or (s : BitVec 1) (d : BitVec 5) (a : BitVec 5) (b : BitVec 5) : RoundTrip.Statement (Instr.or s d a b) := by
  refine fun hw => ⟨fun x h => ?_, fun c x h => by cases c <;> simp [Command.instr] at h⟩
  cases h
  refine scalar_ok 0x01#6 (fmtKR_maj ..) (by decide) (by decide) ?_ hw
  rw [show fmtKR s 0x01 d a b 0x3#10 = @BitVec.cast (1 + 6 + 5 + 5 + 5 + 10) 32 rfl (s ++ 0x01#6 ++ d ++ a ++ b ++ 0x3#10) from rfl]
  dsimp only [decodeScalar]
  simp (disch := decide) only [extract_cast, extract_extract, BitVec.extractLsb'_append_eq_of_le, BitVec.extractLsb'_append_eq_of_add_le]
  simp only [Nat.reduceSub, Nat.reduceAdd, BitVec.extractLsb'_eq_self]
  all_goals rfl
theorem RoundTrip.xor (s : BitVec 1) (d : BitVec 5) (a : BitVec 5) (b : BitVec 5) : RoundTrip.Statement (Instr.xor s d a b) := by
  refine fun hw => ⟨fun x h => ?_, fun c x h => by cases c <;> simp [Command.instr] at h⟩
  cases h
  refine scalar_ok 0x01#6 (fmtKR_maj ..) (by decide) (by decide) ?_ hw
  rw [show fmtKR s 0x01 d a b 0x4#10 = @BitVec.cast (1 + 6 + 5 + 5 + 5 + 10) 32 rfl (s ++ 0x01#6 ++ d ++ a ++ b ++ 0x4#10) from rfl]
  dsimp only [decodeScalar]
  simp (disch := decide) only [extract_cast, extract_extract, BitVec.extractLsb'_append_eq_of_le, BitVec.extractLsb'_append_eq_of_add_le]
  simp only [Nat.reduceSub, Nat.reduceAdd, BitVec.extractLsb'_eq_self]
  all_goals rfl
theorem RoundTrip.andn (s : BitVec 1) (d : BitVec 5) (a : BitVec 5) (b : BitVec 5) : RoundTrip.Statement (Instr.andn s d a b) := by
  refine fun hw => ⟨fun x h => ?_, fun c x h => by cases c <;> simp [Command.instr] at h⟩
  cases h
  refine scalar_ok 0x01#6 (fmtKR_maj ..) (by decide) (by decide) ?_ hw
  rw [show fmtKR s 0x01 d a b 0x5#10 = @BitVec.cast (1 + 6 + 5 + 5 + 5 + 10) 32 rfl (s ++ 0x01#6 ++ d ++ a ++ b ++ 0x5#10) from rfl]
  dsimp only [decodeScalar]
  simp (disch := decide) only [extract_cast, extract_extract, BitVec.extractLsb'_append_eq_of_le, BitVec.extractLsb'_append_eq_of_add_le]
  simp only [Nat.reduceSub, Nat.reduceAdd, BitVec.extractLsb'_eq_self]
  all_goals rfl
theorem RoundTrip.orn (s : BitVec 1) (d : BitVec 5) (a : BitVec 5) (b : BitVec 5) : RoundTrip.Statement (Instr.orn s d a b) := by
  refine fun hw => ⟨fun x h => ?_, fun c x h => by cases c <;> simp [Command.instr] at h⟩
  cases h
  refine scalar_ok 0x01#6 (fmtKR_maj ..) (by decide) (by decide) ?_ hw
  rw [show fmtKR s 0x01 d a b 0x6#10 = @BitVec.cast (1 + 6 + 5 + 5 + 5 + 10) 32 rfl (s ++ 0x01#6 ++ d ++ a ++ b ++ 0x6#10) from rfl]
  dsimp only [decodeScalar]
  simp (disch := decide) only [extract_cast, extract_extract, BitVec.extractLsb'_append_eq_of_le, BitVec.extractLsb'_append_eq_of_add_le]
  simp only [Nat.reduceSub, Nat.reduceAdd, BitVec.extractLsb'_eq_self]
  all_goals rfl
theorem RoundTrip.sll (s : BitVec 1) (d : BitVec 5) (a : BitVec 5) (b : BitVec 5) : RoundTrip.Statement (Instr.sll s d a b) := by
  refine fun hw => ⟨fun x h => ?_, fun c x h => by cases c <;> simp [Command.instr] at h⟩
  cases h
  refine scalar_ok 0x01#6 (fmtKR_maj ..) (by decide) (by decide) ?_ hw
  rw [show fmtKR s 0x01 d a b 0x7#10 = @BitVec.cast (1 + 6 + 5 + 5 + 5 + 10) 32 rfl (s ++ 0x01#6 ++ d ++ a ++ b ++ 0x7#10) from rfl]
  dsimp only [decodeScalar]
  simp (disch := decide) only [extract_cast, extract_extract, BitVec.extractLsb'_append_eq_of_le, BitVec.extractLsb'_append_eq_of_add_le]
  simp only [Nat.reduceSub, Nat.reduceAdd, BitVec.extractLsb'_eq_self]
  all_goals rfl
theorem RoundTrip.srl (s : BitVec 1) (d : BitVec 5) (a : BitVec 5) (b : BitVec 5) : RoundTrip.Statement (Instr.srl s d a b) := by
  refine fun hw => ⟨fun x h => ?_, fun c x h => by cases c <;> simp [Command.instr] at h⟩
  cases h
  refine scalar_ok 0x01#6 (fmtKR_maj ..) (by decide) (by decide) ?_ hw
  rw [show fmtKR s 0x01 d a b 0x8#10 = @BitVec.cast (1 + 6 + 5 + 5 + 5 + 10) 32 rfl (s ++ 0x01#6 ++ d ++ a ++ b ++ 0x8#10) from rfl]
  dsimp only [decodeScalar]
  simp (disch := decide) only [extract_cast, extract_extract, BitVec.extractLsb'_append_eq_of_le, BitVec.extractLsb'_append_eq_of_add_le]
  simp only [Nat.reduceSub, Nat.reduceAdd, BitVec.extractLsb'_eq_self]
  all_goals rfl
theorem RoundTrip.sra (s : BitVec 1) (d : BitVec 5) (a : BitVec 5) (b : BitVec 5) : RoundTrip.Statement (Instr.sra s d a b) := by
  refine fun hw => ⟨fun x h => ?_, fun c x h => by cases c <;> simp [Command.instr] at h⟩
  cases h
  refine scalar_ok 0x01#6 (fmtKR_maj ..) (by decide) (by decide) ?_ hw
  rw [show fmtKR s 0x01 d a b 0x9#10 = @BitVec.cast (1 + 6 + 5 + 5 + 5 + 10) 32 rfl (s ++ 0x01#6 ++ d ++ a ++ b ++ 0x9#10) from rfl]
  dsimp only [decodeScalar]
  simp (disch := decide) only [extract_cast, extract_extract, BitVec.extractLsb'_append_eq_of_le, BitVec.extractLsb'_append_eq_of_add_le]
  simp only [Nat.reduceSub, Nat.reduceAdd, BitVec.extractLsb'_eq_self]
  all_goals rfl
theorem RoundTrip.mul (s : BitVec 1) (d : BitVec 5) (a : BitVec 5) (b : BitVec 5) : RoundTrip.Statement (Instr.mul s d a b) := by
  refine fun hw => ⟨fun x h => ?_, fun c x h => by cases c <;> simp [Command.instr] at h⟩
  cases h
  refine scalar_ok 0x01#6 (fmtKR_maj ..) (by decide) (by decide) ?_ hw
  rw [show fmtKR s 0x01 d a b 0xa#10 = @BitVec.cast (1 + 6 + 5 + 5 + 5 + 10) 32 rfl (s ++ 0x01#6 ++ d ++ a ++ b ++ 0xa#10) from rfl]
  dsimp only [decodeScalar]
  simp (disch := decide) only [extract_cast, extract_extract, BitVec.extractLsb'_append_eq_of_le, BitVec.extractLsb'_append_eq_of_add_le]
  simp only [Nat.reduceSub, Nat.reduceAdd, BitVec.extractLsb'_eq_self]
  all_goals rfl
theorem RoundTrip.mulh (s : BitVec 1) (d : BitVec 5) (a : BitVec 5) (b : BitVec 5) : RoundTrip.Statement (Instr.mulh s d a b) := by
  refine fun hw => ⟨fun x h => ?_, fun c x h => by cases c <;> simp [Command.instr] at h⟩
  cases h
  refine scalar_ok 0x01#6 (fmtKR_maj ..) (by decide) (by decide) ?_ hw
  rw [show fmtKR s 0x01 d a b 0xb#10 = @BitVec.cast (1 + 6 + 5 + 5 + 5 + 10) 32 rfl (s ++ 0x01#6 ++ d ++ a ++ b ++ 0xb#10) from rfl]
  dsimp only [decodeScalar]
  simp (disch := decide) only [extract_cast, extract_extract, BitVec.extractLsb'_append_eq_of_le, BitVec.extractLsb'_append_eq_of_add_le]
  simp only [Nat.reduceSub, Nat.reduceAdd, BitVec.extractLsb'_eq_self]
  all_goals rfl
theorem RoundTrip.mulhu (s : BitVec 1) (d : BitVec 5) (a : BitVec 5) (b : BitVec 5) : RoundTrip.Statement (Instr.mulhu s d a b) := by
  refine fun hw => ⟨fun x h => ?_, fun c x h => by cases c <;> simp [Command.instr] at h⟩
  cases h
  refine scalar_ok 0x01#6 (fmtKR_maj ..) (by decide) (by decide) ?_ hw
  rw [show fmtKR s 0x01 d a b 0xc#10 = @BitVec.cast (1 + 6 + 5 + 5 + 5 + 10) 32 rfl (s ++ 0x01#6 ++ d ++ a ++ b ++ 0xc#10) from rfl]
  dsimp only [decodeScalar]
  simp (disch := decide) only [extract_cast, extract_extract, BitVec.extractLsb'_append_eq_of_le, BitVec.extractLsb'_append_eq_of_add_le]
  simp only [Nat.reduceSub, Nat.reduceAdd, BitVec.extractLsb'_eq_self]
  all_goals rfl
theorem RoundTrip.div (s : BitVec 1) (d : BitVec 5) (a : BitVec 5) (b : BitVec 5) : RoundTrip.Statement (Instr.div s d a b) := by
  refine fun hw => ⟨fun x h => ?_, fun c x h => by cases c <;> simp [Command.instr] at h⟩
  cases h
  refine scalar_ok 0x01#6 (fmtKR_maj ..) (by decide) (by decide) ?_ hw
  rw [show fmtKR s 0x01 d a b 0xd#10 = @BitVec.cast (1 + 6 + 5 + 5 + 5 + 10) 32 rfl (s ++ 0x01#6 ++ d ++ a ++ b ++ 0xd#10) from rfl]
  dsimp only [decodeScalar]
  simp (disch := decide) only [extract_cast, extract_extract, BitVec.extractLsb'_append_eq_of_le, BitVec.extractLsb'_append_eq_of_add_le]
  simp only [Nat.reduceSub, Nat.reduceAdd, BitVec.extractLsb'_eq_self]
  all_goals rfl
theorem RoundTrip.divu (s : BitVec 1) (d : BitVec 5) (a : BitVec 5) (b : BitVec 5) : RoundTrip.Statement (Instr.divu s d a b) := by
  refine fun hw => ⟨fun x h => ?_, fun c x h => by cases c <;> simp [Command.instr] at h⟩
  cases h
  refine scalar_ok 0x01#6 (fmtKR_maj ..) (by decide) (by decide) ?_ hw
  rw [show fmtKR s 0x01 d a b 0xe#10 = @BitVec.cast (1 + 6 + 5 + 5 + 5 + 10) 32 rfl (s ++ 0x01#6 ++ d ++ a ++ b ++ 0xe#10) from rfl]
  dsimp only [decodeScalar]
  simp (disch := decide) only [extract_cast, extract_extract, BitVec.extractLsb'_append_eq_of_le, BitVec.extractLsb'_append_eq_of_add_le]
  simp only [Nat.reduceSub, Nat.reduceAdd, BitVec.extractLsb'_eq_self]
  all_goals rfl
theorem RoundTrip.rem (s : BitVec 1) (d : BitVec 5) (a : BitVec 5) (b : BitVec 5) : RoundTrip.Statement (Instr.rem s d a b) := by
  refine fun hw => ⟨fun x h => ?_, fun c x h => by cases c <;> simp [Command.instr] at h⟩
  cases h
  refine scalar_ok 0x01#6 (fmtKR_maj ..) (by decide) (by decide) ?_ hw
  rw [show fmtKR s 0x01 d a b 0xf#10 = @BitVec.cast (1 + 6 + 5 + 5 + 5 + 10) 32 rfl (s ++ 0x01#6 ++ d ++ a ++ b ++ 0xf#10) from rfl]
  dsimp only [decodeScalar]
  simp (disch := decide) only [extract_cast, extract_extract, BitVec.extractLsb'_append_eq_of_le, BitVec.extractLsb'_append_eq_of_add_le]
  simp only [Nat.reduceSub, Nat.reduceAdd, BitVec.extractLsb'_eq_self]
  all_goals rfl
theorem RoundTrip.remu (s : BitVec 1) (d : BitVec 5) (a : BitVec 5) (b : BitVec 5) : RoundTrip.Statement (Instr.remu s d a b) := by
  refine fun hw => ⟨fun x h => ?_, fun c x h => by cases c <;> simp [Command.instr] at h⟩
  cases h
  refine scalar_ok 0x01#6 (fmtKR_maj ..) (by decide) (by decide) ?_ hw
  rw [show fmtKR s 0x01 d a b 0x10#10 = @BitVec.cast (1 + 6 + 5 + 5 + 5 + 10) 32 rfl (s ++ 0x01#6 ++ d ++ a ++ b ++ 0x10#10) from rfl]
  dsimp only [decodeScalar]
  simp (disch := decide) only [extract_cast, extract_extract, BitVec.extractLsb'_append_eq_of_le, BitVec.extractLsb'_append_eq_of_add_le]
  simp only [Nat.reduceSub, Nat.reduceAdd, BitVec.extractLsb'_eq_self]
  all_goals rfl
theorem RoundTrip.min (s : BitVec 1) (d : BitVec 5) (a : BitVec 5) (b : BitVec 5) : RoundTrip.Statement (Instr.min s d a b) := by
  refine fun hw => ⟨fun x h => ?_, fun c x h => by cases c <;> simp [Command.instr] at h⟩
  cases h
  refine scalar_ok 0x01#6 (fmtKR_maj ..) (by decide) (by decide) ?_ hw
  rw [show fmtKR s 0x01 d a b 0x11#10 = @BitVec.cast (1 + 6 + 5 + 5 + 5 + 10) 32 rfl (s ++ 0x01#6 ++ d ++ a ++ b ++ 0x11#10) from rfl]
  dsimp only [decodeScalar]
  simp (disch := decide) only [extract_cast, extract_extract, BitVec.extractLsb'_append_eq_of_le, BitVec.extractLsb'_append_eq_of_add_le]
  simp only [Nat.reduceSub, Nat.reduceAdd, BitVec.extractLsb'_eq_self]
  all_goals rfl
theorem RoundTrip.max (s : BitVec 1) (d : BitVec 5) (a : BitVec 5) (b : BitVec 5) : RoundTrip.Statement (Instr.max s d a b) := by
  refine fun hw => ⟨fun x h => ?_, fun c x h => by cases c <;> simp [Command.instr] at h⟩
  cases h
  refine scalar_ok 0x01#6 (fmtKR_maj ..) (by decide) (by decide) ?_ hw
  rw [show fmtKR s 0x01 d a b 0x12#10 = @BitVec.cast (1 + 6 + 5 + 5 + 5 + 10) 32 rfl (s ++ 0x01#6 ++ d ++ a ++ b ++ 0x12#10) from rfl]
  dsimp only [decodeScalar]
  simp (disch := decide) only [extract_cast, extract_extract, BitVec.extractLsb'_append_eq_of_le, BitVec.extractLsb'_append_eq_of_add_le]
  simp only [Nat.reduceSub, Nat.reduceAdd, BitVec.extractLsb'_eq_self]
  all_goals rfl
theorem RoundTrip.minu (s : BitVec 1) (d : BitVec 5) (a : BitVec 5) (b : BitVec 5) : RoundTrip.Statement (Instr.minu s d a b) := by
  refine fun hw => ⟨fun x h => ?_, fun c x h => by cases c <;> simp [Command.instr] at h⟩
  cases h
  refine scalar_ok 0x01#6 (fmtKR_maj ..) (by decide) (by decide) ?_ hw
  rw [show fmtKR s 0x01 d a b 0x13#10 = @BitVec.cast (1 + 6 + 5 + 5 + 5 + 10) 32 rfl (s ++ 0x01#6 ++ d ++ a ++ b ++ 0x13#10) from rfl]
  dsimp only [decodeScalar]
  simp (disch := decide) only [extract_cast, extract_extract, BitVec.extractLsb'_append_eq_of_le, BitVec.extractLsb'_append_eq_of_add_le]
  simp only [Nat.reduceSub, Nat.reduceAdd, BitVec.extractLsb'_eq_self]
  all_goals rfl
theorem RoundTrip.maxu (s : BitVec 1) (d : BitVec 5) (a : BitVec 5) (b : BitVec 5) : RoundTrip.Statement (Instr.maxu s d a b) := by
  refine fun hw => ⟨fun x h => ?_, fun c x h => by cases c <;> simp [Command.instr] at h⟩
  cases h
  refine scalar_ok 0x01#6 (fmtKR_maj ..) (by decide) (by decide) ?_ hw
  rw [show fmtKR s 0x01 d a b 0x14#10 = @BitVec.cast (1 + 6 + 5 + 5 + 5 + 10) 32 rfl (s ++ 0x01#6 ++ d ++ a ++ b ++ 0x14#10) from rfl]
  dsimp only [decodeScalar]
  simp (disch := decide) only [extract_cast, extract_extract, BitVec.extractLsb'_append_eq_of_le, BitVec.extractLsb'_append_eq_of_add_le]
  simp only [Nat.reduceSub, Nat.reduceAdd, BitVec.extractLsb'_eq_self]
  all_goals rfl
theorem RoundTrip.slt (s : BitVec 1) (d : BitVec 5) (a : BitVec 5) (b : BitVec 5) : RoundTrip.Statement (Instr.slt s d a b) := by
  refine fun hw => ⟨fun x h => ?_, fun c x h => by cases c <;> simp [Command.instr] at h⟩
  cases h
  refine scalar_ok 0x01#6 (fmtKR_maj ..) (by decide) (by decide) ?_ hw
  rw [show fmtKR s 0x01 d a b 0x15#10 = @BitVec.cast (1 + 6 + 5 + 5 + 5 + 10) 32 rfl (s ++ 0x01#6 ++ d ++ a ++ b ++ 0x15#10) from rfl]
  dsimp only [decodeScalar]
  simp (disch := decide) only [extract_cast, extract_extract, BitVec.extractLsb'_append_eq_of_le, BitVec.extractLsb'_append_eq_of_add_le]
  simp only [Nat.reduceSub, Nat.reduceAdd, BitVec.extractLsb'_eq_self]
  all_goals rfl
theorem RoundTrip.sltu (s : BitVec 1) (d : BitVec 5) (a : BitVec 5) (b : BitVec 5) : RoundTrip.Statement (Instr.sltu s d a b) := by
  refine fun hw => ⟨fun x h => ?_, fun c x h => by cases c <;> simp [Command.instr] at h⟩
  cases h
  refine scalar_ok 0x01#6 (fmtKR_maj ..) (by decide) (by decide) ?_ hw
  rw [show fmtKR s 0x01 d a b 0x16#10 = @BitVec.cast (1 + 6 + 5 + 5 + 5 + 10) 32 rfl (s ++ 0x01#6 ++ d ++ a ++ b ++ 0x16#10) from rfl]
  dsimp only [decodeScalar]
  simp (disch := decide) only [extract_cast, extract_extract, BitVec.extractLsb'_append_eq_of_le, BitVec.extractLsb'_append_eq_of_add_le]
  simp only [Nat.reduceSub, Nat.reduceAdd, BitVec.extractLsb'_eq_self]
  all_goals rfl
theorem RoundTrip.clz (s : BitVec 1) (d : BitVec 5) (a : BitVec 5) : RoundTrip.Statement (Instr.clz s d a) := by
  refine fun hw => ⟨fun x h => ?_, fun c x h => by cases c <;> simp [Command.instr] at h⟩
  cases h
  refine scalar_ok 0x01#6 (fmtKR_maj ..) (by decide) (by decide) ?_ hw
  rw [show fmtKR s 0x01 d a 0x0#5 0x17#10 = @BitVec.cast (1 + 6 + 5 + 5 + 5 + 10) 32 rfl (s ++ 0x01#6 ++ d ++ a ++ 0x0#5 ++ 0x17#10) from rfl]
  dsimp only [decodeScalar]
  simp (disch := decide) only [extract_cast, extract_extract, BitVec.extractLsb'_append_eq_of_le, BitVec.extractLsb'_append_eq_of_add_le]
  simp only [Nat.reduceSub, Nat.reduceAdd, BitVec.extractLsb'_eq_self]
  all_goals rfl
theorem RoundTrip.ctz (s : BitVec 1) (d : BitVec 5) (a : BitVec 5) : RoundTrip.Statement (Instr.ctz s d a) := by
  refine fun hw => ⟨fun x h => ?_, fun c x h => by cases c <;> simp [Command.instr] at h⟩
  cases h
  refine scalar_ok 0x01#6 (fmtKR_maj ..) (by decide) (by decide) ?_ hw
  rw [show fmtKR s 0x01 d a 0x0#5 0x18#10 = @BitVec.cast (1 + 6 + 5 + 5 + 5 + 10) 32 rfl (s ++ 0x01#6 ++ d ++ a ++ 0x0#5 ++ 0x18#10) from rfl]
  dsimp only [decodeScalar]
  simp (disch := decide) only [extract_cast, extract_extract, BitVec.extractLsb'_append_eq_of_le, BitVec.extractLsb'_append_eq_of_add_le]
  simp only [Nat.reduceSub, Nat.reduceAdd, BitVec.extractLsb'_eq_self]
  all_goals rfl
theorem RoundTrip.popc (s : BitVec 1) (d : BitVec 5) (a : BitVec 5) : RoundTrip.Statement (Instr.popc s d a) := by
  refine fun hw => ⟨fun x h => ?_, fun c x h => by cases c <;> simp [Command.instr] at h⟩
  cases h
  refine scalar_ok 0x01#6 (fmtKR_maj ..) (by decide) (by decide) ?_ hw
  rw [show fmtKR s 0x01 d a 0x0#5 0x19#10 = @BitVec.cast (1 + 6 + 5 + 5 + 5 + 10) 32 rfl (s ++ 0x01#6 ++ d ++ a ++ 0x0#5 ++ 0x19#10) from rfl]
  dsimp only [decodeScalar]
  simp (disch := decide) only [extract_cast, extract_extract, BitVec.extractLsb'_append_eq_of_le, BitVec.extractLsb'_append_eq_of_add_le]
  simp only [Nat.reduceSub, Nat.reduceAdd, BitVec.extractLsb'_eq_self]
  all_goals rfl
theorem RoundTrip.addw (s : BitVec 1) (d : BitVec 5) (a : BitVec 5) (b : BitVec 5) : RoundTrip.Statement (Instr.addw s d a b) := by
  refine fun hw => ⟨fun x h => ?_, fun c x h => by cases c <;> simp [Command.instr] at h⟩
  cases h
  refine scalar_ok 0x02#6 (fmtKR_maj ..) (by decide) (by decide) ?_ hw
  rw [show fmtKR s 0x02 d a b 0x0#10 = @BitVec.cast (1 + 6 + 5 + 5 + 5 + 10) 32 rfl (s ++ 0x02#6 ++ d ++ a ++ b ++ 0x0#10) from rfl]
  dsimp only [decodeScalar]
  simp (disch := decide) only [extract_cast, extract_extract, BitVec.extractLsb'_append_eq_of_le, BitVec.extractLsb'_append_eq_of_add_le]
  simp only [Nat.reduceSub, Nat.reduceAdd, BitVec.extractLsb'_eq_self]
  all_goals rfl
theorem RoundTrip.subw (s : BitVec 1) (d : BitVec 5) (a : BitVec 5) (b : BitVec 5) : RoundTrip.Statement (Instr.subw s d a b) := by
  refine fun hw => ⟨fun x h => ?_, fun c x h => by cases c <;> simp [Command.instr] at h⟩
  cases h
  refine scalar_ok 0x02#6 (fmtKR_maj ..) (by decide) (by decide) ?_ hw
  rw [show fmtKR s 0x02 d a b 0x1#10 = @BitVec.cast (1 + 6 + 5 + 5 + 5 + 10) 32 rfl (s ++ 0x02#6 ++ d ++ a ++ b ++ 0x1#10) from rfl]
  dsimp only [decodeScalar]
  simp (disch := decide) only [extract_cast, extract_extract, BitVec.extractLsb'_append_eq_of_le, BitVec.extractLsb'_append_eq_of_add_le]
  simp only [Nat.reduceSub, Nat.reduceAdd, BitVec.extractLsb'_eq_self]
  all_goals rfl
theorem RoundTrip.sllw (s : BitVec 1) (d : BitVec 5) (a : BitVec 5) (b : BitVec 5) : RoundTrip.Statement (Instr.sllw s d a b) := by
  refine fun hw => ⟨fun x h => ?_, fun c x h => by cases c <;> simp [Command.instr] at h⟩
  cases h
  refine scalar_ok 0x02#6 (fmtKR_maj ..) (by decide) (by decide) ?_ hw
  rw [show fmtKR s 0x02 d a b 0x2#10 = @BitVec.cast (1 + 6 + 5 + 5 + 5 + 10) 32 rfl (s ++ 0x02#6 ++ d ++ a ++ b ++ 0x2#10) from rfl]
  dsimp only [decodeScalar]
  simp (disch := decide) only [extract_cast, extract_extract, BitVec.extractLsb'_append_eq_of_le, BitVec.extractLsb'_append_eq_of_add_le]
  simp only [Nat.reduceSub, Nat.reduceAdd, BitVec.extractLsb'_eq_self]
  all_goals rfl
theorem RoundTrip.srlw (s : BitVec 1) (d : BitVec 5) (a : BitVec 5) (b : BitVec 5) : RoundTrip.Statement (Instr.srlw s d a b) := by
  refine fun hw => ⟨fun x h => ?_, fun c x h => by cases c <;> simp [Command.instr] at h⟩
  cases h
  refine scalar_ok 0x02#6 (fmtKR_maj ..) (by decide) (by decide) ?_ hw
  rw [show fmtKR s 0x02 d a b 0x3#10 = @BitVec.cast (1 + 6 + 5 + 5 + 5 + 10) 32 rfl (s ++ 0x02#6 ++ d ++ a ++ b ++ 0x3#10) from rfl]
  dsimp only [decodeScalar]
  simp (disch := decide) only [extract_cast, extract_extract, BitVec.extractLsb'_append_eq_of_le, BitVec.extractLsb'_append_eq_of_add_le]
  simp only [Nat.reduceSub, Nat.reduceAdd, BitVec.extractLsb'_eq_self]
  all_goals rfl
theorem RoundTrip.sraw (s : BitVec 1) (d : BitVec 5) (a : BitVec 5) (b : BitVec 5) : RoundTrip.Statement (Instr.sraw s d a b) := by
  refine fun hw => ⟨fun x h => ?_, fun c x h => by cases c <;> simp [Command.instr] at h⟩
  cases h
  refine scalar_ok 0x02#6 (fmtKR_maj ..) (by decide) (by decide) ?_ hw
  rw [show fmtKR s 0x02 d a b 0x4#10 = @BitVec.cast (1 + 6 + 5 + 5 + 5 + 10) 32 rfl (s ++ 0x02#6 ++ d ++ a ++ b ++ 0x4#10) from rfl]
  dsimp only [decodeScalar]
  simp (disch := decide) only [extract_cast, extract_extract, BitVec.extractLsb'_append_eq_of_le, BitVec.extractLsb'_append_eq_of_add_le]
  simp only [Nat.reduceSub, Nat.reduceAdd, BitVec.extractLsb'_eq_self]
  all_goals rfl
theorem RoundTrip.mulw (s : BitVec 1) (d : BitVec 5) (a : BitVec 5) (b : BitVec 5) : RoundTrip.Statement (Instr.mulw s d a b) := by
  refine fun hw => ⟨fun x h => ?_, fun c x h => by cases c <;> simp [Command.instr] at h⟩
  cases h
  refine scalar_ok 0x02#6 (fmtKR_maj ..) (by decide) (by decide) ?_ hw
  rw [show fmtKR s 0x02 d a b 0x5#10 = @BitVec.cast (1 + 6 + 5 + 5 + 5 + 10) 32 rfl (s ++ 0x02#6 ++ d ++ a ++ b ++ 0x5#10) from rfl]
  dsimp only [decodeScalar]
  simp (disch := decide) only [extract_cast, extract_extract, BitVec.extractLsb'_append_eq_of_le, BitVec.extractLsb'_append_eq_of_add_le]
  simp only [Nat.reduceSub, Nat.reduceAdd, BitVec.extractLsb'_eq_self]
  all_goals rfl
theorem RoundTrip.addi (s : BitVec 1) (d : BitVec 5) (a : BitVec 5) (i : BitVec 15) : RoundTrip.Statement (Instr.addi s d a i) := by
  refine fun hw => ⟨fun x h => ?_, fun c x h => by cases c <;> simp [Command.instr] at h⟩
  cases h
  refine scalar_ok 0x03#6 (fmtKI_maj ..) (by decide) (by decide) ?_ hw
  rw [show fmtKI s 0x03 d a i = @BitVec.cast (1 + 6 + 5 + 5 + 15) 32 rfl (s ++ 0x03#6 ++ d ++ a ++ i) from rfl]
  dsimp only [decodeScalar]
  simp (disch := decide) only [extract_cast, extract_extract, BitVec.extractLsb'_append_eq_of_le, BitVec.extractLsb'_append_eq_of_add_le]
  simp only [Nat.reduceSub, Nat.reduceAdd, BitVec.extractLsb'_eq_self]
  all_goals rfl
theorem RoundTrip.andi (s : BitVec 1) (d : BitVec 5) (a : BitVec 5) (i : BitVec 15) : RoundTrip.Statement (Instr.andi s d a i) := by
  refine fun hw => ⟨fun x h => ?_, fun c x h => by cases c <;> simp [Command.instr] at h⟩
  cases h
  refine scalar_ok 0x04#6 (fmtKI_maj ..) (by decide) (by decide) ?_ hw
  rw [show fmtKI s 0x04 d a i = @BitVec.cast (1 + 6 + 5 + 5 + 15) 32 rfl (s ++ 0x04#6 ++ d ++ a ++ i) from rfl]
  dsimp only [decodeScalar]
  simp (disch := decide) only [extract_cast, extract_extract, BitVec.extractLsb'_append_eq_of_le, BitVec.extractLsb'_append_eq_of_add_le]
  simp only [Nat.reduceSub, Nat.reduceAdd, BitVec.extractLsb'_eq_self]
  all_goals rfl
theorem RoundTrip.ori (s : BitVec 1) (d : BitVec 5) (a : BitVec 5) (i : BitVec 15) : RoundTrip.Statement (Instr.ori s d a i) := by
  refine fun hw => ⟨fun x h => ?_, fun c x h => by cases c <;> simp [Command.instr] at h⟩
  cases h
  refine scalar_ok 0x05#6 (fmtKI_maj ..) (by decide) (by decide) ?_ hw
  rw [show fmtKI s 0x05 d a i = @BitVec.cast (1 + 6 + 5 + 5 + 15) 32 rfl (s ++ 0x05#6 ++ d ++ a ++ i) from rfl]
  dsimp only [decodeScalar]
  simp (disch := decide) only [extract_cast, extract_extract, BitVec.extractLsb'_append_eq_of_le, BitVec.extractLsb'_append_eq_of_add_le]
  simp only [Nat.reduceSub, Nat.reduceAdd, BitVec.extractLsb'_eq_self]
  all_goals rfl
theorem RoundTrip.xori (s : BitVec 1) (d : BitVec 5) (a : BitVec 5) (i : BitVec 15) : RoundTrip.Statement (Instr.xori s d a i) := by
  refine fun hw => ⟨fun x h => ?_, fun c x h => by cases c <;> simp [Command.instr] at h⟩
  cases h
  refine scalar_ok 0x06#6 (fmtKI_maj ..) (by decide) (by decide) ?_ hw
  rw [show fmtKI s 0x06 d a i = @BitVec.cast (1 + 6 + 5 + 5 + 15) 32 rfl (s ++ 0x06#6 ++ d ++ a ++ i) from rfl]
  dsimp only [decodeScalar]
  simp (disch := decide) only [extract_cast, extract_extract, BitVec.extractLsb'_append_eq_of_le, BitVec.extractLsb'_append_eq_of_add_le]
  simp only [Nat.reduceSub, Nat.reduceAdd, BitVec.extractLsb'_eq_self]
  all_goals rfl
theorem RoundTrip.slli (s : BitVec 1) (d : BitVec 5) (a : BitVec 5) (h : BitVec 6) : RoundTrip.Statement (Instr.slli s d a h) := by
  refine fun hw => ⟨fun x h => ?_, fun c x h => by cases c <;> simp [Command.instr] at h⟩
  cases h
  refine scalar_ok 0x07#6 (fmtKI_maj ..) (by decide) (by decide) ?_ hw
  rw [show fmtKI s 0x07 d a (0x0#9 ++ h) = @BitVec.cast (1 + 6 + 5 + 5 + (9 + 6)) 32 rfl (s ++ 0x07#6 ++ d ++ a ++ (0x0#9 ++ h)) from rfl]
  dsimp only [decodeScalar]
  simp (disch := decide) only [extract_cast, extract_extract, BitVec.extractLsb'_append_eq_of_le, BitVec.extractLsb'_append_eq_of_add_le]
  simp only [Nat.reduceSub, Nat.reduceAdd, BitVec.extractLsb'_eq_self]
  exact decodeShi_pad s d a 0x0#9 h rfl
theorem RoundTrip.srli (s : BitVec 1) (d : BitVec 5) (a : BitVec 5) (h : BitVec 6) : RoundTrip.Statement (Instr.srli s d a h) := by
  refine fun hw => ⟨fun x h => ?_, fun c x h => by cases c <;> simp [Command.instr] at h⟩
  cases h
  refine scalar_ok 0x07#6 (fmtKI_maj ..) (by decide) (by decide) ?_ hw
  rw [show fmtKI s 0x07 d a (0x80#9 ++ h) = @BitVec.cast (1 + 6 + 5 + 5 + (9 + 6)) 32 rfl (s ++ 0x07#6 ++ d ++ a ++ (0x80#9 ++ h)) from rfl]
  dsimp only [decodeScalar]
  simp (disch := decide) only [extract_cast, extract_extract, BitVec.extractLsb'_append_eq_of_le, BitVec.extractLsb'_append_eq_of_add_le]
  simp only [Nat.reduceSub, Nat.reduceAdd, BitVec.extractLsb'_eq_self]
  exact decodeShi_pad s d a 0x80#9 h rfl
theorem RoundTrip.srai (s : BitVec 1) (d : BitVec 5) (a : BitVec 5) (h : BitVec 6) : RoundTrip.Statement (Instr.srai s d a h) := by
  refine fun hw => ⟨fun x h => ?_, fun c x h => by cases c <;> simp [Command.instr] at h⟩
  cases h
  refine scalar_ok 0x07#6 (fmtKI_maj ..) (by decide) (by decide) ?_ hw
  rw [show fmtKI s 0x07 d a (0x100#9 ++ h) = @BitVec.cast (1 + 6 + 5 + 5 + (9 + 6)) 32 rfl (s ++ 0x07#6 ++ d ++ a ++ (0x100#9 ++ h)) from rfl]
  dsimp only [decodeScalar]
  simp (disch := decide) only [extract_cast, extract_extract, BitVec.extractLsb'_append_eq_of_le, BitVec.extractLsb'_append_eq_of_add_le]
  simp only [Nat.reduceSub, Nat.reduceAdd, BitVec.extractLsb'_eq_self]
  exact decodeShi_pad s d a 0x100#9 h rfl
theorem RoundTrip.slti (s : BitVec 1) (d : BitVec 5) (a : BitVec 5) (i : BitVec 15) : RoundTrip.Statement (Instr.slti s d a i) := by
  refine fun hw => ⟨fun x h => ?_, fun c x h => by cases c <;> simp [Command.instr] at h⟩
  cases h
  refine scalar_ok 0x08#6 (fmtKI_maj ..) (by decide) (by decide) ?_ hw
  rw [show fmtKI s 0x08 d a i = @BitVec.cast (1 + 6 + 5 + 5 + 15) 32 rfl (s ++ 0x08#6 ++ d ++ a ++ i) from rfl]
  dsimp only [decodeScalar]
  simp (disch := decide) only [extract_cast, extract_extract, BitVec.extractLsb'_append_eq_of_le, BitVec.extractLsb'_append_eq_of_add_le]
  simp only [Nat.reduceSub, Nat.reduceAdd, BitVec.extractLsb'_eq_self]
  all_goals rfl
theorem RoundTrip.sltiu (s : BitVec 1) (d : BitVec 5) (a : BitVec 5) (i : BitVec 15) : RoundTrip.Statement (Instr.sltiu s d a i) := by
  refine fun hw => ⟨fun x h => ?_, fun c x h => by cases c <;> simp [Command.instr] at h⟩
  cases h
  refine scalar_ok 0x09#6 (fmtKI_maj ..) (by decide) (by decide) ?_ hw
  rw [show fmtKI s 0x09 d a i = @BitVec.cast (1 + 6 + 5 + 5 + 15) 32 rfl (s ++ 0x09#6 ++ d ++ a ++ i) from rfl]
  dsimp only [decodeScalar]
  simp (disch := decide) only [extract_cast, extract_extract, BitVec.extractLsb'_append_eq_of_le, BitVec.extractLsb'_append_eq_of_add_le]
  simp only [Nat.reduceSub, Nat.reduceAdd, BitVec.extractLsb'_eq_self]
  all_goals rfl
theorem RoundTrip.lui (s : BitVec 1) (d : BitVec 5) (i : BitVec 20) : RoundTrip.Statement (Instr.lui s d i) := by
  refine fun hw => ⟨fun x h => ?_, fun c x h => by cases c <;> simp [Command.instr] at h⟩
  cases h
  refine scalar_ok 0x0a#6 (fmtKU_maj ..) (by decide) (by decide) ?_ hw
  rw [show fmtKU s 0x0a d i = @BitVec.cast (1 + 6 + 5 + 20) 32 rfl (s ++ 0x0a#6 ++ d ++ i) from rfl]
  dsimp only [decodeScalar]
  simp (disch := decide) only [extract_cast, extract_extract, BitVec.extractLsb'_append_eq_of_le, BitVec.extractLsb'_append_eq_of_add_le]
  simp only [Nat.reduceSub, Nat.reduceAdd, BitVec.extractLsb'_eq_self]
  all_goals rfl
theorem RoundTrip.addpc (s : BitVec 1) (d : BitVec 5) (i : BitVec 20) : RoundTrip.Statement (Instr.addpc s d i) := by
  refine fun hw => ⟨fun x h => ?_, fun c x h => by cases c <;> simp [Command.instr] at h⟩
  cases h
  refine scalar_ok 0x0b#6 (fmtKU_maj ..) (by decide) (by decide) ?_ hw
  rw [show fmtKU s 0x0b d i = @BitVec.cast (1 + 6 + 5 + 20) 32 rfl (s ++ 0x0b#6 ++ d ++ i) from rfl]
  dsimp only [decodeScalar]
  simp (disch := decide) only [extract_cast, extract_extract, BitVec.extractLsb'_append_eq_of_le, BitVec.extractLsb'_append_eq_of_add_le]
  simp only [Nat.reduceSub, Nat.reduceAdd, BitVec.extractLsb'_eq_self]
  all_goals rfl
theorem RoundTrip.pcmp (s : BitVec 1) (p : BitVec 2) (a : BitVec 5) (b : BitVec 5) (c : BitVec 3) : RoundTrip.Statement (Instr.pcmp s p a b c) := by
  refine fun hw => ⟨fun x h => ?_, fun c x h => by cases c <;> simp [Command.instr] at h⟩
  cases h
  refine scalar_ok 0x0c#6 (fmtKR_maj ..) (by decide) (by decide) ?_ hw
  rw [show fmtKR s 0x0c (0x0#3 ++ p) a b (0x0#7 ++ c) = @BitVec.cast (1 + 6 + (3 + 2) + 5 + 5 + (7 + 3)) 32 rfl (s ++ 0x0c#6 ++ (0x0#3 ++ p) ++ a ++ b ++ (0x0#7 ++ c)) from rfl]
  dsimp only [decodeScalar]
  simp (disch := decide) only [extract_cast, extract_extract, BitVec.extractLsb'_append_eq_of_le, BitVec.extractLsb'_append_eq_of_add_le]
  simp only [Nat.reduceSub, Nat.reduceAdd, BitVec.extractLsb'_eq_self]
  all_goals rfl
theorem RoundTrip.pcmpi (s : BitVec 1) (c : BitVec 3) (p : BitVec 2) (a : BitVec 5) (i : BitVec 15) : RoundTrip.Statement (Instr.pcmpi s c p a i) := by
  refine fun hw => ⟨fun x h => ?_, fun c x h => by cases c <;> simp [Command.instr] at h⟩
  cases h
  refine scalar_ok 0x0d#6 (fmtKI_maj ..) (by decide) (by decide) ?_ hw
  rw [show fmtKI s 0x0d (c ++ p) a i = @BitVec.cast (1 + 6 + (3 + 2) + 5 + 15) 32 rfl (s ++ 0x0d#6 ++ (c ++ p) ++ a ++ i) from rfl]
  dsimp only [decodeScalar]
  simp (disch := decide) only [extract_cast, extract_extract, BitVec.extractLsb'_append_eq_of_le, BitVec.extractLsb'_append_eq_of_add_le]
  simp only [Nat.reduceSub, Nat.reduceAdd, BitVec.extractLsb'_eq_self]
  all_goals rfl
theorem RoundTrip.pand (s : BitVec 1) (d : BitVec 2) (a : BitVec 2) (b : BitVec 2) : RoundTrip.Statement (Instr.pand s d a b) := by
  refine fun hw => ⟨fun x h => ?_, fun c x h => by cases c <;> simp [Command.instr] at h⟩
  cases h
  refine scalar_ok 0x0e#6 (fmtKR_maj ..) (by decide) (by decide) ?_ hw
  rw [show fmtKR s 0x0e (0x0#3 ++ d) (0x0#3 ++ a) (0x0#3 ++ b) 0x0#10 = @BitVec.cast (1 + 6 + (3 + 2) + (3 + 2) + (3 + 2) + 10) 32 rfl (s ++ 0x0e#6 ++ (0x0#3 ++ d) ++ (0x0#3 ++ a) ++ (0x0#3 ++ b) ++ 0x0#10) from rfl]
  dsimp only [decodeScalar]
  simp (disch := decide) only [extract_cast, extract_extract, BitVec.extractLsb'_append_eq_of_le, BitVec.extractLsb'_append_eq_of_add_le]
  simp only [Nat.reduceSub, Nat.reduceAdd, BitVec.extractLsb'_eq_self]
  simp only [decodePlog, pad3]; rfl
theorem RoundTrip.por (s : BitVec 1) (d : BitVec 2) (a : BitVec 2) (b : BitVec 2) : RoundTrip.Statement (Instr.por s d a b) := by
  refine fun hw => ⟨fun x h => ?_, fun c x h => by cases c <;> simp [Command.instr] at h⟩
  cases h
  refine scalar_ok 0x0e#6 (fmtKR_maj ..) (by decide) (by decide) ?_ hw
  rw [show fmtKR s 0x0e (0x0#3 ++ d) (0x0#3 ++ a) (0x0#3 ++ b) 0x1#10 = @BitVec.cast (1 + 6 + (3 + 2) + (3 + 2) + (3 + 2) + 10) 32 rfl (s ++ 0x0e#6 ++ (0x0#3 ++ d) ++ (0x0#3 ++ a) ++ (0x0#3 ++ b) ++ 0x1#10) from rfl]
  dsimp only [decodeScalar]
  simp (disch := decide) only [extract_cast, extract_extract, BitVec.extractLsb'_append_eq_of_le, BitVec.extractLsb'_append_eq_of_add_le]
  simp only [Nat.reduceSub, Nat.reduceAdd, BitVec.extractLsb'_eq_self]
  simp only [decodePlog, pad3]; rfl
theorem RoundTrip.pxor (s : BitVec 1) (d : BitVec 2) (a : BitVec 2) (b : BitVec 2) : RoundTrip.Statement (Instr.pxor s d a b) := by
  refine fun hw => ⟨fun x h => ?_, fun c x h => by cases c <;> simp [Command.instr] at h⟩
  cases h
  refine scalar_ok 0x0e#6 (fmtKR_maj ..) (by decide) (by decide) ?_ hw
  rw [show fmtKR s 0x0e (0x0#3 ++ d) (0x0#3 ++ a) (0x0#3 ++ b) 0x2#10 = @BitVec.cast (1 + 6 + (3 + 2) + (3 + 2) + (3 + 2) + 10) 32 rfl (s ++ 0x0e#6 ++ (0x0#3 ++ d) ++ (0x0#3 ++ a) ++ (0x0#3 ++ b) ++ 0x2#10) from rfl]
  dsimp only [decodeScalar]
  simp (disch := decide) only [extract_cast, extract_extract, BitVec.extractLsb'_append_eq_of_le, BitVec.extractLsb'_append_eq_of_add_le]
  simp only [Nat.reduceSub, Nat.reduceAdd, BitVec.extractLsb'_eq_self]
  simp only [decodePlog, pad3]; rfl
theorem RoundTrip.pnot (s : BitVec 1) (d : BitVec 2) (a : BitVec 2) : RoundTrip.Statement (Instr.pnot s d a) := by
  refine fun hw => ⟨fun x h => ?_, fun c x h => by cases c <;> simp [Command.instr] at h⟩
  cases h
  refine scalar_ok 0x0e#6 (fmtKR_maj ..) (by decide) (by decide) ?_ hw
  rw [show fmtKR s 0x0e (0x0#3 ++ d) (0x0#3 ++ a) 0x0#5 0x3#10 = @BitVec.cast (1 + 6 + (3 + 2) + (3 + 2) + 5 + 10) 32 rfl (s ++ 0x0e#6 ++ (0x0#3 ++ d) ++ (0x0#3 ++ a) ++ 0x0#5 ++ 0x3#10) from rfl]
  dsimp only [decodeScalar]
  simp (disch := decide) only [extract_cast, extract_extract, BitVec.extractLsb'_append_eq_of_le, BitVec.extractLsb'_append_eq_of_add_le]
  simp only [Nat.reduceSub, Nat.reduceAdd, BitVec.extractLsb'_eq_self]
  simp only [decodePlog, pad3]; rfl
theorem RoundTrip.pmov (s : BitVec 1) (d : BitVec 2) (a : BitVec 2) : RoundTrip.Statement (Instr.pmov s d a) := by
  refine fun hw => ⟨fun x h => ?_, fun c x h => by cases c <;> simp [Command.instr] at h⟩
  cases h
  refine scalar_ok 0x0e#6 (fmtKR_maj ..) (by decide) (by decide) ?_ hw
  rw [show fmtKR s 0x0e (0x0#3 ++ d) (0x0#3 ++ a) 0x0#5 0x4#10 = @BitVec.cast (1 + 6 + (3 + 2) + (3 + 2) + 5 + 10) 32 rfl (s ++ 0x0e#6 ++ (0x0#3 ++ d) ++ (0x0#3 ++ a) ++ 0x0#5 ++ 0x4#10) from rfl]
  dsimp only [decodeScalar]
  simp (disch := decide) only [extract_cast, extract_extract, BitVec.extractLsb'_append_eq_of_le, BitVec.extractLsb'_append_eq_of_add_le]
  simp only [Nat.reduceSub, Nat.reduceAdd, BitVec.extractLsb'_eq_self]
  simp only [decodePlog, pad3]; rfl
theorem RoundTrip.sel (s : BitVec 1) (d : BitVec 5) (a : BitVec 5) (b : BitVec 5) (p : BitVec 2) : RoundTrip.Statement (Instr.sel s d a b p) := by
  refine fun hw => ⟨fun x h => ?_, fun c x h => by cases c <;> simp [Command.instr] at h⟩
  cases h
  refine scalar_ok 0x0f#6 (fmtKR_maj ..) (by decide) (by decide) ?_ hw
  rw [show fmtKR s 0x0f d a b (0x0#8 ++ p) = @BitVec.cast (1 + 6 + 5 + 5 + 5 + (8 + 2)) 32 rfl (s ++ 0x0f#6 ++ d ++ a ++ b ++ (0x0#8 ++ p)) from rfl]
  dsimp only [decodeScalar]
  simp (disch := decide) only [extract_cast, extract_extract, BitVec.extractLsb'_append_eq_of_le, BitVec.extractLsb'_append_eq_of_add_le]
  simp only [Nat.reduceSub, Nat.reduceAdd, BitVec.extractLsb'_eq_self]
  all_goals rfl
theorem RoundTrip.br (s : BitVec 1) (p : BitVec 2) (n : BitVec 1) (o : BitVec 22) : RoundTrip.Statement (Instr.br s p n o) := by
  refine fun hw => ⟨fun x h => ?_, fun c x h => by cases c <;> simp [Command.instr] at h⟩
  cases h
  refine scalar_ok 0x10#6 (fmtKB_maj ..) (by decide) (by decide) ?_ hw
  rw [show fmtKB s 0x10 p n o = @BitVec.cast (1 + 6 + 2 + 1 + 22) 32 rfl (s ++ 0x10#6 ++ p ++ n ++ o) from rfl]
  dsimp only [decodeScalar]
  simp (disch := decide) only [extract_cast, extract_extract, BitVec.extractLsb'_append_eq_of_le, BitVec.extractLsb'_append_eq_of_add_le]
  simp only [Nat.reduceSub, Nat.reduceAdd, BitVec.extractLsb'_eq_self]
  all_goals rfl
theorem RoundTrip.jal (s : BitVec 1) (d : BitVec 5) (i : BitVec 20) : RoundTrip.Statement (Instr.jal s d i) := by
  refine fun hw => ⟨fun x h => ?_, fun c x h => by cases c <;> simp [Command.instr] at h⟩
  cases h
  refine scalar_ok 0x11#6 (fmtKU_maj ..) (by decide) (by decide) ?_ hw
  rw [show fmtKU s 0x11 d i = @BitVec.cast (1 + 6 + 5 + 20) 32 rfl (s ++ 0x11#6 ++ d ++ i) from rfl]
  dsimp only [decodeScalar]
  simp (disch := decide) only [extract_cast, extract_extract, BitVec.extractLsb'_append_eq_of_le, BitVec.extractLsb'_append_eq_of_add_le]
  simp only [Nat.reduceSub, Nat.reduceAdd, BitVec.extractLsb'_eq_self]
  all_goals rfl
theorem RoundTrip.jalr (s : BitVec 1) (d : BitVec 5) (a : BitVec 5) (i : BitVec 15) : RoundTrip.Statement (Instr.jalr s d a i) := by
  refine fun hw => ⟨fun x h => ?_, fun c x h => by cases c <;> simp [Command.instr] at h⟩
  cases h
  refine scalar_ok 0x12#6 (fmtKI_maj ..) (by decide) (by decide) ?_ hw
  rw [show fmtKI s 0x12 d a i = @BitVec.cast (1 + 6 + 5 + 5 + 15) 32 rfl (s ++ 0x12#6 ++ d ++ a ++ i) from rfl]
  dsimp only [decodeScalar]
  simp (disch := decide) only [extract_cast, extract_extract, BitVec.extractLsb'_append_eq_of_le, BitVec.extractLsb'_append_eq_of_add_le]
  simp only [Nat.reduceSub, Nat.reduceAdd, BitVec.extractLsb'_eq_self]
  all_goals rfl
theorem RoundTrip.loop (s : BitVec 1) (p : BitVec 1) (a : BitVec 5) (l : BitVec 15) : RoundTrip.Statement (Instr.loop s p a l) := by
  refine fun hw => ⟨fun x h => ?_, fun c x h => by cases c <;> simp [Command.instr] at h⟩
  cases h
  refine scalar_ok 0x13#6 (fmtKI_maj ..) (by decide) (by decide) ?_ hw
  rw [show fmtKI s 0x13 (p ++ 0x0#4) a l = @BitVec.cast (1 + 6 + (1 + 4) + 5 + 15) 32 rfl (s ++ 0x13#6 ++ (p ++ 0x0#4) ++ a ++ l) from rfl]
  dsimp only [decodeScalar]
  simp (disch := decide) only [extract_cast, extract_extract, BitVec.extractLsb'_append_eq_of_le, BitVec.extractLsb'_append_eq_of_add_le]
  simp only [Nat.reduceSub, Nat.reduceAdd, BitVec.extractLsb'_eq_self]
  all_goals rfl
theorem RoundTrip.lexit (s : BitVec 1) (p : BitVec 2) (n : BitVec 1) (o : BitVec 22) : RoundTrip.Statement (Instr.lexit s p n o) := by
  refine fun hw => ⟨fun x h => ?_, fun c x h => by cases c <;> simp [Command.instr] at h⟩
  cases h
  refine scalar_ok 0x14#6 (fmtKB_maj ..) (by decide) (by decide) ?_ hw
  rw [show fmtKB s 0x14 p n o = @BitVec.cast (1 + 6 + 2 + 1 + 22) 32 rfl (s ++ 0x14#6 ++ p ++ n ++ o) from rfl]
  dsimp only [decodeScalar]
  simp (disch := decide) only [extract_cast, extract_extract, BitVec.extractLsb'_append_eq_of_le, BitVec.extractLsb'_append_eq_of_add_le]
  simp only [Nat.reduceSub, Nat.reduceAdd, BitVec.extractLsb'_eq_self]
  all_goals rfl
theorem RoundTrip.join (n : BitVec 8) : RoundTrip.Statement (Instr.join n) := by
  refine fun hw => ⟨fun x h => ?_, fun c x h => by cases c <;> simp [Command.instr] at h⟩
  cases h
  clear hw; revert n; decide +kernel
theorem RoundTrip.sendl (s : BitVec 1) (a : BitVec 5) : RoundTrip.Statement (Instr.sendl s a) := by
  refine fun hw => ⟨fun x h => ?_, fun c x h => by cases c <;> simp [Command.instr] at h⟩
  cases h
  refine scalar_ok 0x16#6 (fmtKR_maj ..) (by decide) (by decide) ?_ hw
  rw [show fmtKR s 0x16 0x0#5 a 0x0#5 0x0#10 = @BitVec.cast (1 + 6 + 5 + 5 + 5 + 10) 32 rfl (s ++ 0x16#6 ++ 0x0#5 ++ a ++ 0x0#5 ++ 0x0#10) from rfl]
  dsimp only [decodeScalar]
  simp (disch := decide) only [extract_cast, extract_extract, BitVec.extractLsb'_append_eq_of_le, BitVec.extractLsb'_append_eq_of_add_le]
  simp only [Nat.reduceSub, Nat.reduceAdd, BitVec.extractLsb'_eq_self]
  all_goals rfl
theorem RoundTrip.sendr (s : BitVec 1) (a : BitVec 5) : RoundTrip.Statement (Instr.sendr s a) := by
  refine fun hw => ⟨fun x h => ?_, fun c x h => by cases c <;> simp [Command.instr] at h⟩
  cases h
  refine scalar_ok 0x16#6 (fmtKR_maj ..) (by decide) (by decide) ?_ hw
  rw [show fmtKR s 0x16 0x0#5 a 0x0#5 0x1#10 = @BitVec.cast (1 + 6 + 5 + 5 + 5 + 10) 32 rfl (s ++ 0x16#6 ++ 0x0#5 ++ a ++ 0x0#5 ++ 0x1#10) from rfl]
  dsimp only [decodeScalar]
  simp (disch := decide) only [extract_cast, extract_extract, BitVec.extractLsb'_append_eq_of_le, BitVec.extractLsb'_append_eq_of_add_le]
  simp only [Nat.reduceSub, Nat.reduceAdd, BitVec.extractLsb'_eq_self]
  all_goals rfl
theorem RoundTrip.recvl (s : BitVec 1) (d : BitVec 5) : RoundTrip.Statement (Instr.recvl s d) := by
  refine fun hw => ⟨fun x h => ?_, fun c x h => by cases c <;> simp [Command.instr] at h⟩
  cases h
  refine scalar_ok 0x16#6 (fmtKR_maj ..) (by decide) (by decide) ?_ hw
  rw [show fmtKR s 0x16 d 0x0#5 0x0#5 0x2#10 = @BitVec.cast (1 + 6 + 5 + 5 + 5 + 10) 32 rfl (s ++ 0x16#6 ++ d ++ 0x0#5 ++ 0x0#5 ++ 0x2#10) from rfl]
  dsimp only [decodeScalar]
  simp (disch := decide) only [extract_cast, extract_extract, BitVec.extractLsb'_append_eq_of_le, BitVec.extractLsb'_append_eq_of_add_le]
  simp only [Nat.reduceSub, Nat.reduceAdd, BitVec.extractLsb'_eq_self]
  all_goals rfl
theorem RoundTrip.recvr (s : BitVec 1) (d : BitVec 5) : RoundTrip.Statement (Instr.recvr s d) := by
  refine fun hw => ⟨fun x h => ?_, fun c x h => by cases c <;> simp [Command.instr] at h⟩
  cases h
  refine scalar_ok 0x16#6 (fmtKR_maj ..) (by decide) (by decide) ?_ hw
  rw [show fmtKR s 0x16 d 0x0#5 0x0#5 0x3#10 = @BitVec.cast (1 + 6 + 5 + 5 + 5 + 10) 32 rfl (s ++ 0x16#6 ++ d ++ 0x0#5 ++ 0x0#5 ++ 0x3#10) from rfl]
  dsimp only [decodeScalar]
  simp (disch := decide) only [extract_cast, extract_extract, BitVec.extractLsb'_append_eq_of_le, BitVec.extractLsb'_append_eq_of_add_le]
  simp only [Nat.reduceSub, Nat.reduceAdd, BitVec.extractLsb'_eq_self]
  all_goals rfl
theorem RoundTrip.nop (s : BitVec 1) : RoundTrip.Statement (Instr.nop s) := by
  refine fun hw => ⟨fun x h => ?_, fun c x h => by cases c <;> simp [Command.instr] at h⟩
  cases h
  clear hw; revert s; decide
theorem RoundTrip.brk (s : BitVec 1) : RoundTrip.Statement (Instr.brk s) := by
  refine fun hw => ⟨fun x h => ?_, fun c x h => by cases c <;> simp [Command.instr] at h⟩
  cases h
  clear hw; revert s; decide
theorem RoundTrip.cset (s : BitVec 1) (c : BitVec 3) (a : BitVec 5) : RoundTrip.Statement (Instr.cset s c a) := by
  refine fun hw => ⟨fun x h => ?_, fun c x h => by cases c <;> simp [Command.instr] at h⟩
  cases h
  refine scalar_ok 0x19#6 (fmtKR_maj ..) (by decide) (by decide) ?_ hw
  rw [show fmtKR s 0x19 (0x0#2 ++ c) a 0x0#5 0x0#10 = @BitVec.cast (1 + 6 + (2 + 3) + 5 + 5 + 10) 32 rfl (s ++ 0x19#6 ++ (0x0#2 ++ c) ++ a ++ 0x0#5 ++ 0x0#10) from rfl]
  dsimp only [decodeScalar]
  simp (disch := decide) only [extract_cast, extract_extract, BitVec.extractLsb'_append_eq_of_le, BitVec.extractLsb'_append_eq_of_add_le]
  simp only [Nat.reduceSub, Nat.reduceAdd, BitVec.extractLsb'_eq_self]
  simp only [decodeCoord, pad2]; rfl
theorem RoundTrip.cget (s : BitVec 1) (d : BitVec 5) (c : BitVec 3) : RoundTrip.Statement (Instr.cget s d c) := by
  refine fun hw => ⟨fun x h => ?_, fun c x h => by cases c <;> simp [Command.instr] at h⟩
  cases h
  refine scalar_ok 0x19#6 (fmtKR_maj ..) (by decide) (by decide) ?_ hw
  rw [show fmtKR s 0x19 d (0x0#2 ++ c) 0x0#5 0x1#10 = @BitVec.cast (1 + 6 + 5 + (2 + 3) + 5 + 10) 32 rfl (s ++ 0x19#6 ++ d ++ (0x0#2 ++ c) ++ 0x0#5 ++ 0x1#10) from rfl]
  dsimp only [decodeScalar]
  simp (disch := decide) only [extract_cast, extract_extract, BitVec.extractLsb'_append_eq_of_le, BitVec.extractLsb'_append_eq_of_add_le]
  simp only [Nat.reduceSub, Nat.reduceAdd, BitVec.extractLsb'_eq_self]
  simp only [decodeCoord, pad2]; rfl
theorem RoundTrip.cadd (s : BitVec 1) (d : BitVec 3) (a : BitVec 3) (b : BitVec 5) : RoundTrip.Statement (Instr.cadd s d a b) := by
  refine fun hw => ⟨fun x h => ?_, fun c x h => by cases c <;> simp [Command.instr] at h⟩
  cases h
  refine scalar_ok 0x19#6 (fmtKR_maj ..) (by decide) (by decide) ?_ hw
  rw [show fmtKR s 0x19 (0x0#2 ++ d) (0x0#2 ++ a) b 0x2#10 = @BitVec.cast (1 + 6 + (2 + 3) + (2 + 3) + 5 + 10) 32 rfl (s ++ 0x19#6 ++ (0x0#2 ++ d) ++ (0x0#2 ++ a) ++ b ++ 0x2#10) from rfl]
  dsimp only [decodeScalar]
  simp (disch := decide) only [extract_cast, extract_extract, BitVec.extractLsb'_append_eq_of_le, BitVec.extractLsb'_append_eq_of_add_le]
  simp only [Nat.reduceSub, Nat.reduceAdd, BitVec.extractLsb'_eq_self]
  simp only [decodeCoord, pad2]; rfl
theorem RoundTrip.caddi (s : BitVec 1) (d : BitVec 3) (a : BitVec 3) (i : BitVec 15) : RoundTrip.Statement (Instr.caddi s d a i) := by
  refine fun hw => ⟨fun x h => ?_, fun c x h => by cases c <;> simp [Command.instr] at h⟩
  cases h
  refine scalar_ok 0x1a#6 (fmtKI_maj ..) (by decide) (by decide) ?_ hw
  rw [show fmtKI s 0x1a (0x0#2 ++ d) (0x0#2 ++ a) i = @BitVec.cast (1 + 6 + (2 + 3) + (2 + 3) + 15) 32 rfl (s ++ 0x1a#6 ++ (0x0#2 ++ d) ++ (0x0#2 ++ a) ++ i) from rfl]
  dsimp only [decodeScalar]
  simp (disch := decide) only [extract_cast, extract_extract, BitVec.extractLsb'_append_eq_of_le, BitVec.extractLsb'_append_eq_of_add_le]
  simp only [Nat.reduceSub, Nat.reduceAdd, BitVec.extractLsb'_eq_self]
  all_goals rfl
theorem RoundTrip.ld (s : BitVec 1) (d : BitVec 5) (a : BitVec 5) (z : BitVec 3) (i : BitVec 12) : RoundTrip.Statement (Instr.ld s d a z i) := by
  refine fun hw => ⟨fun x h => ?_, fun c x h => by cases c <;> simp [Command.instr] at h⟩
  cases h
  refine port_ok 0x20#6 (fmtKM_maj ..) (by decide) (by decide) ?_ hw
  rw [show fmtKM s 0x20 d a z i = @BitVec.cast (1 + 6 + 5 + 5 + 3 + 12) 32 rfl (s ++ 0x20#6 ++ d ++ a ++ z ++ i) from rfl]
  dsimp only [decodePort]
  simp (disch := decide) only [extract_cast, extract_extract, BitVec.extractLsb'_append_eq_of_le, BitVec.extractLsb'_append_eq_of_add_le]
  simp only [Nat.reduceSub, Nat.reduceAdd, BitVec.extractLsb'_eq_self]
  all_goals rfl
theorem RoundTrip.st (s : BitVec 1) (d : BitVec 5) (a : BitVec 5) (z : BitVec 3) (i : BitVec 12) : RoundTrip.Statement (Instr.st s d a z i) := by
  refine fun hw => ⟨fun x h => ?_, fun c x h => by cases c <;> simp [Command.instr] at h⟩
  cases h
  refine port_ok 0x21#6 (fmtKM_maj ..) (by decide) (by decide) ?_ hw
  rw [show fmtKM s 0x21 d a z i = @BitVec.cast (1 + 6 + 5 + 5 + 3 + 12) 32 rfl (s ++ 0x21#6 ++ d ++ a ++ z ++ i) from rfl]
  dsimp only [decodePort]
  simp (disch := decide) only [extract_cast, extract_extract, BitVec.extractLsb'_append_eq_of_le, BitVec.extractLsb'_append_eq_of_add_le]
  simp only [Nat.reduceSub, Nat.reduceAdd, BitVec.extractLsb'_eq_self]
  all_goals rfl
theorem RoundTrip.qmark (s : BitVec 1) (dep : BitVec 4) : RoundTrip.Statement (Instr.qmark s dep) := by
  refine fun hw => ⟨fun x h => ?_, fun c x h => by cases c <;> simp [Command.instr] at h⟩
  cases h
  refine port_ok 0x22#6 (fmtKP_maj ..) (by decide) (by decide) ?_ hw
  rw [show fmtKP s 0x22 dep 0x0#5 0x0#5 0x0#5 0x0#6 = @BitVec.cast (1 + 6 + 4 + 5 + 5 + 5 + 6) 32 rfl (s ++ 0x22#6 ++ dep ++ 0x0#5 ++ 0x0#5 ++ 0x0#5 ++ 0x0#6) from rfl]
  dsimp only [decodePort]
  simp (disch := decide) only [extract_cast, extract_extract, BitVec.extractLsb'_append_eq_of_le, BitVec.extractLsb'_append_eq_of_add_le]
  simp only [Nat.reduceSub, Nat.reduceAdd, BitVec.extractLsb'_eq_self]
  all_goals rfl
theorem RoundTrip.cwb (s : BitVec 1) (dep : BitVec 4) (a : BitVec 5) (b : BitVec 5) : RoundTrip.Statement (Instr.cwb s dep a b) := by
  refine fun hw => ⟨fun x h => ?_, fun c x h => by cases c <;> simp [Command.instr] at h⟩
  cases h
  refine port_ok 0x23#6 (fmtKP_maj ..) (by decide) (by decide) ?_ hw
  rw [show fmtKP s 0x23 dep 0x0#5 a b 0x0#6 = @BitVec.cast (1 + 6 + 4 + 5 + 5 + 5 + 6) 32 rfl (s ++ 0x23#6 ++ dep ++ 0x0#5 ++ a ++ b ++ 0x0#6) from rfl]
  dsimp only [decodePort]
  simp (disch := decide) only [extract_cast, extract_extract, BitVec.extractLsb'_append_eq_of_le, BitVec.extractLsb'_append_eq_of_add_le]
  simp only [Nat.reduceSub, Nat.reduceAdd, BitVec.extractLsb'_eq_self]
  all_goals rfl
theorem RoundTrip.cinv (s : BitVec 1) (dep : BitVec 4) (a : BitVec 5) (b : BitVec 5) : RoundTrip.Statement (Instr.cinv s dep a b) := by
  refine fun hw => ⟨fun x h => ?_, fun c x h => by cases c <;> simp [Command.instr] at h⟩
  cases h
  refine port_ok 0x23#6 (fmtKP_maj ..) (by decide) (by decide) ?_ hw
  rw [show fmtKP s 0x23 dep 0x0#5 a b 0x1#6 = @BitVec.cast (1 + 6 + 4 + 5 + 5 + 5 + 6) 32 rfl (s ++ 0x23#6 ++ dep ++ 0x0#5 ++ a ++ b ++ 0x1#6) from rfl]
  dsimp only [decodePort]
  simp (disch := decide) only [extract_cast, extract_extract, BitVec.extractLsb'_append_eq_of_le, BitVec.extractLsb'_append_eq_of_add_le]
  simp only [Nat.reduceSub, Nat.reduceAdd, BitVec.extractLsb'_eq_self]
  all_goals rfl
theorem RoundTrip.cwbinv (s : BitVec 1) (dep : BitVec 4) (a : BitVec 5) (b : BitVec 5) : RoundTrip.Statement (Instr.cwbinv s dep a b) := by
  refine fun hw => ⟨fun x h => ?_, fun c x h => by cases c <;> simp [Command.instr] at h⟩
  cases h
  refine port_ok 0x23#6 (fmtKP_maj ..) (by decide) (by decide) ?_ hw
  rw [show fmtKP s 0x23 dep 0x0#5 a b 0x2#6 = @BitVec.cast (1 + 6 + 4 + 5 + 5 + 5 + 6) 32 rfl (s ++ 0x23#6 ++ dep ++ 0x0#5 ++ a ++ b ++ 0x2#6) from rfl]
  dsimp only [decodePort]
  simp (disch := decide) only [extract_cast, extract_extract, BitVec.extractLsb'_append_eq_of_le, BitVec.extractLsb'_append_eq_of_add_le]
  simp only [Nat.reduceSub, Nat.reduceAdd, BitVec.extractLsb'_eq_self]
  all_goals rfl
theorem RoundTrip.xin (s : BitVec 1) (dep : BitVec 4) (d : BitVec 5) (a : BitVec 5) (b : BitVec 5) (n : BitVec 4) (m : BitVec 2) : RoundTrip.Statement (Instr.xin s dep d a b n m) := by
  refine fun hw => ⟨fun x h => ?_, fun c x h => by cases c <;> simp [Command.instr] at h⟩
  cases h
  refine port_ok 0x28#6 (fmtKP_maj ..) (by decide) (by decide) ?_ hw
  rw [show fmtKP s 0x28 dep d a b (n ++ m) = @BitVec.cast (1 + 6 + 4 + 5 + 5 + 5 + (4 + 2)) 32 rfl (s ++ 0x28#6 ++ dep ++ d ++ a ++ b ++ (n ++ m)) from rfl]
  dsimp only [decodePort]
  simp (disch := decide) only [extract_cast, extract_extract, BitVec.extractLsb'_append_eq_of_le, BitVec.extractLsb'_append_eq_of_add_le]
  simp only [Nat.reduceSub, Nat.reduceAdd, BitVec.extractLsb'_eq_self]
  all_goals rfl
theorem RoundTrip.xinm (s : BitVec 1) (dep : BitVec 4) (d : BitVec 5) (a : BitVec 5) (b : BitVec 5) (n : BitVec 4) (m : BitVec 2) : RoundTrip.Statement (Instr.xinm s dep d a b n m) := by
  refine fun hw => ⟨fun x h => ?_, fun c x h => by cases c <;> simp [Command.instr] at h⟩
  cases h
  refine port_ok 0x29#6 (fmtKP_maj ..) (by decide) (by decide) ?_ hw
  rw [show fmtKP s 0x29 dep d a b (n ++ m) = @BitVec.cast (1 + 6 + 4 + 5 + 5 + 5 + (4 + 2)) 32 rfl (s ++ 0x29#6 ++ dep ++ d ++ a ++ b ++ (n ++ m)) from rfl]
  dsimp only [decodePort]
  simp (disch := decide) only [extract_cast, extract_extract, BitVec.extractLsb'_append_eq_of_le, BitVec.extractLsb'_append_eq_of_add_le]
  simp only [Nat.reduceSub, Nat.reduceAdd, BitVec.extractLsb'_eq_self]
  all_goals rfl
theorem RoundTrip.xout (s : BitVec 1) (dep : BitVec 4) (d : BitVec 5) (a : BitVec 5) (b : BitVec 5) (n : BitVec 4) (m : BitVec 1) : RoundTrip.Statement (Instr.xout s dep d a b n m) := by
  refine fun hw => ⟨fun x h => ?_, fun c x h => by cases c <;> simp [Command.instr] at h⟩
  cases h
  refine port_ok 0x2a#6 (fmtKP_maj ..) (by decide) (by decide) ?_ hw
  rw [show fmtKP s 0x2a dep d a b (n ++ 0x0#1 ++ m) = @BitVec.cast (1 + 6 + 4 + 5 + 5 + 5 + (4 + 1 + 1)) 32 rfl (s ++ 0x2a#6 ++ dep ++ d ++ a ++ b ++ (n ++ 0x0#1 ++ m)) from rfl]
  dsimp only [decodePort]
  simp (disch := decide) only [extract_cast, extract_extract, BitVec.extractLsb'_append_eq_of_le, BitVec.extractLsb'_append_eq_of_add_le]
  simp only [Nat.reduceSub, Nat.reduceAdd, BitVec.extractLsb'_eq_self]
  all_goals rfl
theorem RoundTrip.xput (s : BitVec 1) (dep : BitVec 4) (a : BitVec 5) (k : BitVec 6) : RoundTrip.Statement (Instr.xput s dep a k) := by
  refine fun hw => ⟨fun x h => ?_, fun c x h => by cases c <;> simp [Command.instr] at h⟩
  cases h
  refine port_ok 0x2b#6 (fmtKP_maj ..) (by decide) (by decide) ?_ hw
  rw [show fmtKP s 0x2b dep 0x0#5 a 0x0#5 k = @BitVec.cast (1 + 6 + 4 + 5 + 5 + 5 + 6) 32 rfl (s ++ 0x2b#6 ++ dep ++ 0x0#5 ++ a ++ 0x0#5 ++ k) from rfl]
  dsimp only [decodePort]
  simp (disch := decide) only [extract_cast, extract_extract, BitVec.extractLsb'_append_eq_of_le, BitVec.extractLsb'_append_eq_of_add_le]
  simp only [Nat.reduceSub, Nat.reduceAdd, BitVec.extractLsb'_eq_self]
  all_goals rfl
theorem RoundTrip.xget (s : BitVec 1) (dep : BitVec 4) (d : BitVec 5) (k : BitVec 6) : RoundTrip.Statement (Instr.xget s dep d k) := by
  refine fun hw => ⟨fun x h => ?_, fun c x h => by cases c <;> simp [Command.instr] at h⟩
  cases h
  refine port_ok 0x2c#6 (fmtKP_maj ..) (by decide) (by decide) ?_ hw
  rw [show fmtKP s 0x2c dep d 0x0#5 0x0#5 k = @BitVec.cast (1 + 6 + 4 + 5 + 5 + 5 + 6) 32 rfl (s ++ 0x2c#6 ++ dep ++ d ++ 0x0#5 ++ 0x0#5 ++ k) from rfl]
  dsimp only [decodePort]
  simp (disch := decide) only [extract_cast, extract_extract, BitVec.extractLsb'_append_eq_of_le, BitVec.extractLsb'_append_eq_of_add_le]
  simp only [Nat.reduceSub, Nat.reduceAdd, BitVec.extractLsb'_eq_self]
  all_goals rfl
theorem RoundTrip.xwait (s : BitVec 1) (dep : BitVec 4) (d : BitVec 5) (p : BitVec 6) : RoundTrip.Statement (Instr.xwait s dep d p) := by
  refine fun hw => ⟨fun x h => ?_, fun c x h => by cases c <;> simp [Command.instr] at h⟩
  cases h
  refine port_ok 0x2d#6 (fmtKP_maj ..) (by decide) (by decide) ?_ hw
  rw [show fmtKP s 0x2d dep d 0x0#5 0x0#5 p = @BitVec.cast (1 + 6 + 4 + 5 + 5 + 5 + 6) 32 rfl (s ++ 0x2d#6 ++ dep ++ d ++ 0x0#5 ++ 0x0#5 ++ p) from rfl]
  dsimp only [decodePort]
  simp (disch := decide) only [extract_cast, extract_extract, BitVec.extractLsb'_append_eq_of_le, BitVec.extractLsb'_append_eq_of_add_le]
  simp only [Nat.reduceSub, Nat.reduceAdd, BitVec.extractLsb'_eq_self]
  all_goals rfl
theorem RoundTrip.xcancel (s : BitVec 1) (dep : BitVec 4) (d : BitVec 5) (a : BitVec 5) : RoundTrip.Statement (Instr.xcancel s dep d a) := by
  refine fun hw => ⟨fun x h => ?_, fun c x h => by cases c <;> simp [Command.instr] at h⟩
  cases h
  refine port_ok 0x2e#6 (fmtKP_maj ..) (by decide) (by decide) ?_ hw
  rw [show fmtKP s 0x2e dep d a 0x0#5 0x0#6 = @BitVec.cast (1 + 6 + 4 + 5 + 5 + 5 + 6) 32 rfl (s ++ 0x2e#6 ++ dep ++ d ++ a ++ 0x0#5 ++ 0x0#6) from rfl]
  dsimp only [decodePort]
  simp (disch := decide) only [extract_cast, extract_extract, BitVec.extractLsb'_append_eq_of_le, BitVec.extractLsb'_append_eq_of_add_le]
  simp only [Nat.reduceSub, Nat.reduceAdd, BitVec.extractLsb'_eq_self]
  all_goals rfl
theorem RoundTrip.shpld (s : BitVec 1) (dep : BitVec 4) (a : BitVec 5) (n : BitVec 4) : RoundTrip.Statement (Instr.shpld s dep a n) := by
  refine fun hw => ⟨fun x h => ?_, fun c x h => by cases c <;> simp [Command.instr] at h⟩
  cases h
  refine port_ok 0x2f#6 (fmtKP_maj ..) (by decide) (by decide) ?_ hw
  rw [show fmtKP s 0x2f dep 0x0#5 a (0x0#1 ++ n) 0x0#6 = @BitVec.cast (1 + 6 + 4 + 5 + 5 + (1 + 4) + 6) 32 rfl (s ++ 0x2f#6 ++ dep ++ 0x0#5 ++ a ++ (0x0#1 ++ n) ++ 0x0#6) from rfl]
  dsimp only [decodePort]
  simp (disch := decide) only [extract_cast, extract_extract, BitVec.extractLsb'_append_eq_of_le, BitVec.extractLsb'_append_eq_of_add_le]
  simp only [Nat.reduceSub, Nat.reduceAdd, BitVec.extractLsb'_eq_self]
  simp only [decodeShp, pad1]; rfl
theorem RoundTrip.shpst (s : BitVec 1) (dep : BitVec 4) (a : BitVec 5) (n : BitVec 4) : RoundTrip.Statement (Instr.shpst s dep a n) := by
  refine fun hw => ⟨fun x h => ?_, fun c x h => by cases c <;> simp [Command.instr] at h⟩
  cases h
  refine port_ok 0x2f#6 (fmtKP_maj ..) (by decide) (by decide) ?_ hw
  rw [show fmtKP s 0x2f dep 0x0#5 a (0x0#1 ++ n) 0x1#6 = @BitVec.cast (1 + 6 + 4 + 5 + 5 + (1 + 4) + 6) 32 rfl (s ++ 0x2f#6 ++ dep ++ 0x0#5 ++ a ++ (0x0#1 ++ n) ++ 0x1#6) from rfl]
  dsimp only [decodePort]
  simp (disch := decide) only [extract_cast, extract_extract, BitVec.extractLsb'_append_eq_of_le, BitVec.extractLsb'_append_eq_of_add_le]
  simp only [Nat.reduceSub, Nat.reduceAdd, BitVec.extractLsb'_eq_self]
  simp only [decodeShp, pad1]; rfl
theorem RoundTrip.btld (s : BitVec 1) (dep : BitVec 4) (n : BitVec 4) : RoundTrip.Statement (Instr.btld s dep n) := by
  refine fun hw => ⟨fun x h => ?_, fun c x h => by cases c <;> simp [Command.instr] at h⟩
  cases h
  refine port_ok 0x2f#6 (fmtKP_maj ..) (by decide) (by decide) ?_ hw
  rw [show fmtKP s 0x2f dep 0x0#5 0x0#5 (0x0#1 ++ n) 0x2#6 = @BitVec.cast (1 + 6 + 4 + 5 + 5 + (1 + 4) + 6) 32 rfl (s ++ 0x2f#6 ++ dep ++ 0x0#5 ++ 0x0#5 ++ (0x0#1 ++ n) ++ 0x2#6) from rfl]
  dsimp only [decodePort]
  simp (disch := decide) only [extract_cast, extract_extract, BitVec.extractLsb'_append_eq_of_le, BitVec.extractLsb'_append_eq_of_add_le]
  simp only [Nat.reduceSub, Nat.reduceAdd, BitVec.extractLsb'_eq_self]
  simp only [decodeShp, pad1]; rfl
theorem RoundTrip.shpget (s : BitVec 1) (dep : BitVec 4) (d : BitVec 5) (n : BitVec 4) (w : BitVec 4) : RoundTrip.Statement (Instr.shpget s dep d n w) := by
  refine fun hw => ⟨fun x h => ?_, fun c x h => by cases c <;> simp [Command.instr] at h⟩
  cases h
  refine port_ok 0x2f#6 (fmtKP_maj ..) (by decide) (by decide) ?_ hw
  rw [show fmtKP s 0x2f dep d 0x0#5 (0x0#1 ++ n) (0x2#2 ++ w) = @BitVec.cast (1 + 6 + 4 + 5 + 5 + (1 + 4) + (2 + 4)) 32 rfl (s ++ 0x2f#6 ++ dep ++ d ++ 0x0#5 ++ (0x0#1 ++ n) ++ (0x2#2 ++ w)) from rfl]
  dsimp only [decodePort]
  simp (disch := decide) only [extract_cast, extract_extract, BitVec.extractLsb'_append_eq_of_le, BitVec.extractLsb'_append_eq_of_add_le]
  simp only [Nat.reduceSub, Nat.reduceAdd, BitVec.extractLsb'_eq_self]
  simp only [decodeShp, pad1, padFn]; rfl
theorem RoundTrip.shpset (s : BitVec 1) (dep : BitVec 4) (a : BitVec 5) (n : BitVec 4) (w : BitVec 4) : RoundTrip.Statement (Instr.shpset s dep a n w) := by
  refine fun hw => ⟨fun x h => ?_, fun c x h => by cases c <;> simp [Command.instr] at h⟩
  cases h
  refine port_ok 0x2f#6 (fmtKP_maj ..) (by decide) (by decide) ?_ hw
  rw [show fmtKP s 0x2f dep 0x0#5 a (0x0#1 ++ n) (0x3#2 ++ w) = @BitVec.cast (1 + 6 + 4 + 5 + 5 + (1 + 4) + (2 + 4)) 32 rfl (s ++ 0x2f#6 ++ dep ++ 0x0#5 ++ a ++ (0x0#1 ++ n) ++ (0x3#2 ++ w)) from rfl]
  dsimp only [decodePort]
  simp (disch := decide) only [extract_cast, extract_extract, BitVec.extractLsb'_append_eq_of_le, BitVec.extractLsb'_append_eq_of_add_le]
  simp only [Nat.reduceSub, Nat.reduceAdd, BitVec.extractLsb'_eq_self]
  simp only [decodeShp, pad1, padFn]; rfl
theorem RoundTrip.tstart (s : BitVec 1) (dep : BitVec 4) (a : BitVec 5) (e : BitVec 2) : RoundTrip.Statement (Instr.tstart s dep a e) := by
  refine fun hw => ⟨fun x h => ?_, fun c x h => by cases c <;> simp [Command.instr] at h⟩
  cases h
  refine port_ok 0x30#6 (fmtKP_maj ..) (by decide) (by decide) ?_ hw
  rw [show fmtKP s 0x30 dep 0x0#5 a 0x0#5 (0x0#4 ++ e) = @BitVec.cast (1 + 6 + 4 + 5 + 5 + 5 + (4 + 2)) 32 rfl (s ++ 0x30#6 ++ dep ++ 0x0#5 ++ a ++ 0x0#5 ++ (0x0#4 ++ e)) from rfl]
  dsimp only [decodePort]
  simp (disch := decide) only [extract_cast, extract_extract, BitVec.extractLsb'_append_eq_of_le, BitVec.extractLsb'_append_eq_of_add_le]
  simp only [Nat.reduceSub, Nat.reduceAdd, BitVec.extractLsb'_eq_self]
  simp only [decodeTstart, pad1, padEngine]; rfl
theorem RoundTrip.tstartEv (s : BitVec 1) (dep : BitVec 4) (t : BitVec 4) (e : BitVec 2) : RoundTrip.Statement (Instr.tstartEv s dep t e) := by
  refine fun hw => ⟨fun x h => ?_, fun c x h => by cases c <;> simp [Command.instr] at h⟩
  cases h
  refine port_ok 0x30#6 (fmtKP_maj ..) (by decide) (by decide) ?_ hw
  rw [show fmtKP s 0x30 dep 0x0#5 0x0#5 (0x0#1 ++ t) (0x1#4 ++ e) = @BitVec.cast (1 + 6 + 4 + 5 + 5 + (1 + 4) + (4 + 2)) 32 rfl (s ++ 0x30#6 ++ dep ++ 0x0#5 ++ 0x0#5 ++ (0x0#1 ++ t) ++ (0x1#4 ++ e)) from rfl]
  dsimp only [decodePort]
  simp (disch := decide) only [extract_cast, extract_extract, BitVec.extractLsb'_append_eq_of_le, BitVec.extractLsb'_append_eq_of_add_le]
  simp only [Nat.reduceSub, Nat.reduceAdd, BitVec.extractLsb'_eq_self]
  simp only [decodeTstart, pad1, padEngine]; rfl
theorem RoundTrip.tstop (s : BitVec 1) (dep : BitVec 4) (e : BitVec 2) : RoundTrip.Statement (Instr.tstop s dep e) := by
  refine fun hw => ⟨fun x h => ?_, fun c x h => by cases c <;> simp [Command.instr] at h⟩
  cases h
  refine port_ok 0x31#6 (fmtKP_maj ..) (by decide) (by decide) ?_ hw
  rw [show fmtKP s 0x31 dep 0x0#5 0x0#5 0x0#5 (0x0#4 ++ e) = @BitVec.cast (1 + 6 + 4 + 5 + 5 + 5 + (4 + 2)) 32 rfl (s ++ 0x31#6 ++ dep ++ 0x0#5 ++ 0x0#5 ++ 0x0#5 ++ (0x0#4 ++ e)) from rfl]
  dsimp only [decodePort]
  simp (disch := decide) only [extract_cast, extract_extract, BitVec.extractLsb'_append_eq_of_le, BitVec.extractLsb'_append_eq_of_add_le]
  simp only [Nat.reduceSub, Nat.reduceAdd, BitVec.extractLsb'_eq_self]
  all_goals rfl
theorem RoundTrip.tbase (s : BitVec 1) (dep : BitVec 4) (a : BitVec 5) (e : BitVec 2) : RoundTrip.Statement (Instr.tbase s dep a e) := by
  refine fun hw => ⟨fun x h => ?_, fun c x h => by cases c <;> simp [Command.instr] at h⟩
  cases h
  refine port_ok 0x32#6 (fmtKP_maj ..) (by decide) (by decide) ?_ hw
  rw [show fmtKP s 0x32 dep 0x0#5 a 0x0#5 (0x0#4 ++ e) = @BitVec.cast (1 + 6 + 4 + 5 + 5 + 5 + (4 + 2)) 32 rfl (s ++ 0x32#6 ++ dep ++ 0x0#5 ++ a ++ 0x0#5 ++ (0x0#4 ++ e)) from rfl]
  dsimp only [decodePort]
  simp (disch := decide) only [extract_cast, extract_extract, BitVec.extractLsb'_append_eq_of_le, BitVec.extractLsb'_append_eq_of_add_le]
  simp only [Nat.reduceSub, Nat.reduceAdd, BitVec.extractLsb'_eq_self]
  all_goals rfl
theorem RoundTrip.tsync (s : BitVec 1) (dep : BitVec 4) (e : BitVec 2) : RoundTrip.Statement (Instr.tsync s dep e) := by
  refine fun hw => ⟨fun x h => ?_, fun c x h => by cases c <;> simp [Command.instr] at h⟩
  cases h
  refine port_ok 0x33#6 (fmtKP_maj ..) (by decide) (by decide) ?_ hw
  rw [show fmtKP s 0x33 dep 0x0#5 0x0#5 0x0#5 (0x0#4 ++ e) = @BitVec.cast (1 + 6 + 4 + 5 + 5 + 5 + (4 + 2)) 32 rfl (s ++ 0x33#6 ++ dep ++ 0x0#5 ++ 0x0#5 ++ 0x0#5 ++ (0x0#4 ++ e)) from rfl]
  dsimp only [decodePort]
  simp (disch := decide) only [extract_cast, extract_extract, BitVec.extractLsb'_append_eq_of_le, BitVec.extractLsb'_append_eq_of_add_le]
  simp only [Nat.reduceSub, Nat.reduceAdd, BitVec.extractLsb'_eq_self]
  all_goals rfl
theorem RoundTrip.tload (s : BitVec 1) (dep : BitVec 4) (a : BitVec 5) (b : BitVec 5) (e : BitVec 2) : RoundTrip.Statement (Instr.tload s dep a b e) := by
  refine fun hw => ⟨fun x h => ?_, fun c x h => by cases c <;> simp [Command.instr] at h⟩
  cases h
  refine port_ok 0x34#6 (fmtKP_maj ..) (by decide) (by decide) ?_ hw
  rw [show fmtKP s 0x34 dep 0x0#5 a b (0x0#4 ++ e) = @BitVec.cast (1 + 6 + 4 + 5 + 5 + 5 + (4 + 2)) 32 rfl (s ++ 0x34#6 ++ dep ++ 0x0#5 ++ a ++ b ++ (0x0#4 ++ e)) from rfl]
  dsimp only [decodePort]
  simp (disch := decide) only [extract_cast, extract_extract, BitVec.extractLsb'_append_eq_of_le, BitVec.extractLsb'_append_eq_of_add_le]
  simp only [Nat.reduceSub, Nat.reduceAdd, BitVec.extractLsb'_eq_self]
  all_goals rfl
theorem RoundTrip.evcfg (s : BitVec 1) (dep : BitVec 4) (a : BitVec 5) (n : BitVec 4) : RoundTrip.Statement (Instr.evcfg s dep a n) := by
  refine fun hw => ⟨fun x h => ?_, fun c x h => by cases c <;> simp [Command.instr] at h⟩
  cases h
  refine port_ok 0x35#6 (fmtKP_maj ..) (by decide) (by decide) ?_ hw
  rw [show fmtKP s 0x35 dep 0x0#5 a (0x0#1 ++ n) 0x0#6 = @BitVec.cast (1 + 6 + 4 + 5 + 5 + (1 + 4) + 6) 32 rfl (s ++ 0x35#6 ++ dep ++ 0x0#5 ++ a ++ (0x0#1 ++ n) ++ 0x0#6) from rfl]
  dsimp only [decodePort]
  simp (disch := decide) only [extract_cast, extract_extract, BitVec.extractLsb'_append_eq_of_le, BitVec.extractLsb'_append_eq_of_add_le]
  simp only [Nat.reduceSub, Nat.reduceAdd, BitVec.extractLsb'_eq_self]
  simp only [decodeEvent, pad1]; rfl
theorem RoundTrip.evsig (s : BitVec 1) (dep : BitVec 4) (n : BitVec 4) : RoundTrip.Statement (Instr.evsig s dep n) := by
  refine fun hw => ⟨fun x h => ?_, fun c x h => by cases c <;> simp [Command.instr] at h⟩
  cases h
  refine port_ok 0x35#6 (fmtKP_maj ..) (by decide) (by decide) ?_ hw
  rw [show fmtKP s 0x35 dep 0x0#5 0x0#5 (0x0#1 ++ n) 0x1#6 = @BitVec.cast (1 + 6 + 4 + 5 + 5 + (1 + 4) + 6) 32 rfl (s ++ 0x35#6 ++ dep ++ 0x0#5 ++ 0x0#5 ++ (0x0#1 ++ n) ++ 0x1#6) from rfl]
  dsimp only [decodePort]
  simp (disch := decide) only [extract_cast, extract_extract, BitVec.extractLsb'_append_eq_of_le, BitVec.extractLsb'_append_eq_of_add_le]
  simp only [Nat.reduceSub, Nat.reduceAdd, BitVec.extractLsb'_eq_self]
  simp only [decodeEvent, pad1]; rfl
theorem RoundTrip.evwait (s : BitVec 1) (dep : BitVec 4) (a : BitVec 5) (n : BitVec 4) : RoundTrip.Statement (Instr.evwait s dep a n) := by
  refine fun hw => ⟨fun x h => ?_, fun c x h => by cases c <;> simp [Command.instr] at h⟩
  cases h
  refine port_ok 0x35#6 (fmtKP_maj ..) (by decide) (by decide) ?_ hw
  rw [show fmtKP s 0x35 dep 0x0#5 a (0x0#1 ++ n) 0x2#6 = @BitVec.cast (1 + 6 + 4 + 5 + 5 + (1 + 4) + 6) 32 rfl (s ++ 0x35#6 ++ dep ++ 0x0#5 ++ a ++ (0x0#1 ++ n) ++ 0x2#6) from rfl]
  dsimp only [decodePort]
  simp (disch := decide) only [extract_cast, extract_extract, BitVec.extractLsb'_append_eq_of_le, BitVec.extractLsb'_append_eq_of_add_le]
  simp only [Nat.reduceSub, Nat.reduceAdd, BitVec.extractLsb'_eq_self]
  simp only [decodeEvent, pad1]; rfl
theorem RoundTrip.cptail (s : BitVec 1) (dep : BitVec 4) (a : BitVec 5) : RoundTrip.Statement (Instr.cptail s dep a) := by
  refine fun hw => ⟨fun x h => ?_, fun c x h => by cases c <;> simp [Command.instr] at h⟩
  cases h
  refine port_ok 0x36#6 (fmtKP_maj ..) (by decide) (by decide) ?_ hw
  rw [show fmtKP s 0x36 dep 0x0#5 a 0x0#5 0x0#6 = @BitVec.cast (1 + 6 + 4 + 5 + 5 + 5 + 6) 32 rfl (s ++ 0x36#6 ++ dep ++ 0x0#5 ++ a ++ 0x0#5 ++ 0x0#6) from rfl]
  dsimp only [decodePort]
  simp (disch := decide) only [extract_cast, extract_extract, BitVec.extractLsb'_append_eq_of_le, BitVec.extractLsb'_append_eq_of_add_le]
  simp only [Nat.reduceSub, Nat.reduceAdd, BitVec.extractLsb'_eq_self]
  all_goals rfl
theorem RoundTrip.cpseq (s : BitVec 1) (dep : BitVec 4) (d : BitVec 5) : RoundTrip.Statement (Instr.cpseq s dep d) := by
  refine fun hw => ⟨fun x h => ?_, fun c x h => by cases c <;> simp [Command.instr] at h⟩
  cases h
  refine port_ok 0x36#6 (fmtKP_maj ..) (by decide) (by decide) ?_ hw
  rw [show fmtKP s 0x36 dep d 0x0#5 0x0#5 0x1#6 = @BitVec.cast (1 + 6 + 4 + 5 + 5 + 5 + 6) 32 rfl (s ++ 0x36#6 ++ dep ++ d ++ 0x0#5 ++ 0x0#5 ++ 0x1#6) from rfl]
  dsimp only [decodePort]
  simp (disch := decide) only [extract_cast, extract_extract, BitVec.extractLsb'_append_eq_of_le, BitVec.extractLsb'_append_eq_of_add_le]
  simp only [Nat.reduceSub, Nat.reduceAdd, BitVec.extractLsb'_eq_self]
  all_goals rfl
theorem RoundTrip.ownLend (s : BitVec 1) (dep : BitVec 4) (d : BitVec 5) (a : BitVec 5) (b : BitVec 5) : RoundTrip.Statement (Instr.ownLend s dep d a b) := by
  refine fun hw => ⟨fun x h => ?_, fun c x h => by cases c <;> simp [Command.instr] at h⟩
  cases h
  refine port_ok 0x38#6 (fmtKP_maj ..) (by decide) (by decide) ?_ hw
  rw [show fmtKP s 0x38 dep d a b 0x0#6 = @BitVec.cast (1 + 6 + 4 + 5 + 5 + 5 + 6) 32 rfl (s ++ 0x38#6 ++ dep ++ d ++ a ++ b ++ 0x0#6) from rfl]
  dsimp only [decodePort]
  simp (disch := decide) only [extract_cast, extract_extract, BitVec.extractLsb'_append_eq_of_le, BitVec.extractLsb'_append_eq_of_add_le]
  simp only [Nat.reduceSub, Nat.reduceAdd, BitVec.extractLsb'_eq_self]
  all_goals rfl
theorem RoundTrip.ownGive (s : BitVec 1) (dep : BitVec 4) (d : BitVec 5) (a : BitVec 5) (b : BitVec 5) : RoundTrip.Statement (Instr.ownGive s dep d a b) := by
  refine fun hw => ⟨fun x h => ?_, fun c x h => by cases c <;> simp [Command.instr] at h⟩
  cases h
  refine port_ok 0x38#6 (fmtKP_maj ..) (by decide) (by decide) ?_ hw
  rw [show fmtKP s 0x38 dep d a b 0x1#6 = @BitVec.cast (1 + 6 + 4 + 5 + 5 + 5 + 6) 32 rfl (s ++ 0x38#6 ++ dep ++ d ++ a ++ b ++ 0x1#6) from rfl]
  dsimp only [decodePort]
  simp (disch := decide) only [extract_cast, extract_extract, BitVec.extractLsb'_append_eq_of_le, BitVec.extractLsb'_append_eq_of_add_le]
  simp only [Nat.reduceSub, Nat.reduceAdd, BitVec.extractLsb'_eq_self]
  all_goals rfl
theorem RoundTrip.ownRet (s : BitVec 1) (dep : BitVec 4) (d : BitVec 5) (a : BitVec 5) : RoundTrip.Statement (Instr.ownRet s dep d a) := by
  refine fun hw => ⟨fun x h => ?_, fun c x h => by cases c <;> simp [Command.instr] at h⟩
  cases h
  refine port_ok 0x38#6 (fmtKP_maj ..) (by decide) (by decide) ?_ hw
  rw [show fmtKP s 0x38 dep d a 0x0#5 0x2#6 = @BitVec.cast (1 + 6 + 4 + 5 + 5 + 5 + 6) 32 rfl (s ++ 0x38#6 ++ dep ++ d ++ a ++ 0x0#5 ++ 0x2#6) from rfl]
  dsimp only [decodePort]
  simp (disch := decide) only [extract_cast, extract_extract, BitVec.extractLsb'_append_eq_of_le, BitVec.extractLsb'_append_eq_of_add_le]
  simp only [Nat.reduceSub, Nat.reduceAdd, BitVec.extractLsb'_eq_self]
  all_goals rfl
theorem RoundTrip.ownSplit (s : BitVec 1) (dep : BitVec 4) (d : BitVec 5) (a : BitVec 5) (b : BitVec 5) : RoundTrip.Statement (Instr.ownSplit s dep d a b) := by
  refine fun hw => ⟨fun x h => ?_, fun c x h => by cases c <;> simp [Command.instr] at h⟩
  cases h
  refine port_ok 0x38#6 (fmtKP_maj ..) (by decide) (by decide) ?_ hw
  rw [show fmtKP s 0x38 dep d a b 0x3#6 = @BitVec.cast (1 + 6 + 4 + 5 + 5 + 5 + 6) 32 rfl (s ++ 0x38#6 ++ dep ++ d ++ a ++ b ++ 0x3#6) from rfl]
  dsimp only [decodePort]
  simp (disch := decide) only [extract_cast, extract_extract, BitVec.extractLsb'_append_eq_of_le, BitVec.extractLsb'_append_eq_of_add_le]
  simp only [Nat.reduceSub, Nat.reduceAdd, BitVec.extractLsb'_eq_self]
  all_goals rfl
theorem RoundTrip.ownMerge (s : BitVec 1) (dep : BitVec 4) (d : BitVec 5) (a : BitVec 5) (b : BitVec 5) : RoundTrip.Statement (Instr.ownMerge s dep d a b) := by
  refine fun hw => ⟨fun x h => ?_, fun c x h => by cases c <;> simp [Command.instr] at h⟩
  cases h
  refine port_ok 0x38#6 (fmtKP_maj ..) (by decide) (by decide) ?_ hw
  rw [show fmtKP s 0x38 dep d a b 0x4#6 = @BitVec.cast (1 + 6 + 4 + 5 + 5 + 5 + 6) 32 rfl (s ++ 0x38#6 ++ dep ++ d ++ a ++ b ++ 0x4#6) from rfl]
  dsimp only [decodePort]
  simp (disch := decide) only [extract_cast, extract_extract, BitVec.extractLsb'_append_eq_of_le, BitVec.extractLsb'_append_eq_of_add_le]
  simp only [Nat.reduceSub, Nat.reduceAdd, BitVec.extractLsb'_eq_self]
  all_goals rfl
theorem RoundTrip.ownShare (s : BitVec 1) (dep : BitVec 4) (d : BitVec 5) (a : BitVec 5) (b : BitVec 5) : RoundTrip.Statement (Instr.ownShare s dep d a b) := by
  refine fun hw => ⟨fun x h => ?_, fun c x h => by cases c <;> simp [Command.instr] at h⟩
  cases h
  refine port_ok 0x38#6 (fmtKP_maj ..) (by decide) (by decide) ?_ hw
  rw [show fmtKP s 0x38 dep d a b 0x5#6 = @BitVec.cast (1 + 6 + 4 + 5 + 5 + 5 + 6) 32 rfl (s ++ 0x38#6 ++ dep ++ d ++ a ++ b ++ 0x5#6) from rfl]
  dsimp only [decodePort]
  simp (disch := decide) only [extract_cast, extract_extract, BitVec.extractLsb'_append_eq_of_le, BitVec.extractLsb'_append_eq_of_add_le]
  simp only [Nat.reduceSub, Nat.reduceAdd, BitVec.extractLsb'_eq_self]
  all_goals rfl
theorem RoundTrip.ownUnshare (s : BitVec 1) (dep : BitVec 4) (d : BitVec 5) (a : BitVec 5) : RoundTrip.Statement (Instr.ownUnshare s dep d a) := by
  refine fun hw => ⟨fun x h => ?_, fun c x h => by cases c <;> simp [Command.instr] at h⟩
  cases h
  refine port_ok 0x38#6 (fmtKP_maj ..) (by decide) (by decide) ?_ hw
  rw [show fmtKP s 0x38 dep d a 0x0#5 0x6#6 = @BitVec.cast (1 + 6 + 4 + 5 + 5 + 5 + 6) 32 rfl (s ++ 0x38#6 ++ dep ++ d ++ a ++ 0x0#5 ++ 0x6#6) from rfl]
  dsimp only [decodePort]
  simp (disch := decide) only [extract_cast, extract_extract, BitVec.extractLsb'_append_eq_of_le, BitVec.extractLsb'_append_eq_of_add_le]
  simp only [Nat.reduceSub, Nat.reduceAdd, BitVec.extractLsb'_eq_self]
  all_goals rfl
theorem RoundTrip.ownWait (s : BitVec 1) (dep : BitVec 4) (d : BitVec 5) (a : BitVec 5) : RoundTrip.Statement (Instr.ownWait s dep d a) := by
  refine fun hw => ⟨fun x h => ?_, fun c x h => by cases c <;> simp [Command.instr] at h⟩
  cases h
  refine port_ok 0x38#6 (fmtKP_maj ..) (by decide) (by decide) ?_ hw
  rw [show fmtKP s 0x38 dep d a 0x0#5 0x7#6 = @BitVec.cast (1 + 6 + 4 + 5 + 5 + 5 + 6) 32 rfl (s ++ 0x38#6 ++ dep ++ d ++ a ++ 0x0#5 ++ 0x7#6) from rfl]
  dsimp only [decodePort]
  simp (disch := decide) only [extract_cast, extract_extract, BitVec.extractLsb'_append_eq_of_le, BitVec.extractLsb'_append_eq_of_add_le]
  simp only [Nat.reduceSub, Nat.reduceAdd, BitVec.extractLsb'_eq_self]
  all_goals rfl
theorem RoundTrip.ownQuery (s : BitVec 1) (dep : BitVec 4) (d : BitVec 5) (a : BitVec 5) : RoundTrip.Statement (Instr.ownQuery s dep d a) := by
  refine fun hw => ⟨fun x h => ?_, fun c x h => by cases c <;> simp [Command.instr] at h⟩
  cases h
  refine port_ok 0x38#6 (fmtKP_maj ..) (by decide) (by decide) ?_ hw
  rw [show fmtKP s 0x38 dep d a 0x0#5 0x8#6 = @BitVec.cast (1 + 6 + 4 + 5 + 5 + 5 + 6) 32 rfl (s ++ 0x38#6 ++ dep ++ d ++ a ++ 0x0#5 ++ 0x8#6) from rfl]
  dsimp only [decodePort]
  simp (disch := decide) only [extract_cast, extract_extract, BitVec.extractLsb'_append_eq_of_le, BitVec.extractLsb'_append_eq_of_add_le]
  simp only [Nat.reduceSub, Nat.reduceAdd, BitVec.extractLsb'_eq_self]
  all_goals rfl
theorem RoundTrip.bar (s : BitVec 1) (dep : BitVec 4) (d : BitVec 5) (a : BitVec 5) (m : BitVec 4) (o : BitVec 2) (k : BitVec 3) : RoundTrip.Statement (Instr.bar s dep d a m o k) := by
  refine fun hw => ⟨fun x h => ?_, fun c x h => by cases c <;> simp [Command.instr] at h⟩
  cases h
  refine port_ok 0x39#6 (fmtKP_maj ..) (by decide) (by decide) ?_ hw
  rw [show fmtKP s 0x39 dep d a (0x0#1 ++ m) (0x0#1 ++ o ++ k) = @BitVec.cast (1 + 6 + 4 + 5 + 5 + (1 + 4) + (1 + 2 + 3)) 32 rfl (s ++ 0x39#6 ++ dep ++ d ++ a ++ (0x0#1 ++ m) ++ (0x0#1 ++ o ++ k)) from rfl]
  dsimp only [decodePort]
  simp (disch := decide) only [extract_cast, extract_extract, BitVec.extractLsb'_append_eq_of_le, BitVec.extractLsb'_append_eq_of_add_le]
  simp only [Nat.reduceSub, Nat.reduceAdd, BitVec.extractLsb'_eq_self]
  all_goals rfl
theorem RoundTrip.fence (s : BitVec 1) (dep : BitVec 4) (m : BitVec 4) : RoundTrip.Statement (Instr.fence s dep m) := by
  refine fun hw => ⟨fun x h => ?_, fun c x h => by cases c <;> simp [Command.instr] at h⟩
  cases h
  refine port_ok 0x3a#6 (fmtKP_maj ..) (by decide) (by decide) ?_ hw
  rw [show fmtKP s 0x3a dep 0x0#5 0x0#5 0x0#5 (0x0#2 ++ m) = @BitVec.cast (1 + 6 + 4 + 5 + 5 + 5 + (2 + 4)) 32 rfl (s ++ 0x3a#6 ++ dep ++ 0x0#5 ++ 0x0#5 ++ 0x0#5 ++ (0x0#2 ++ m)) from rfl]
  dsimp only [decodePort]
  simp (disch := decide) only [extract_cast, extract_extract, BitVec.extractLsb'_append_eq_of_le, BitVec.extractLsb'_append_eq_of_add_le]
  simp only [Nat.reduceSub, Nat.reduceAdd, BitVec.extractLsb'_eq_self]
  all_goals rfl
theorem RoundTrip.aadd (s : BitVec 1) (dep : BitVec 4) (d : BitVec 5) (a : BitVec 5) (b : BitVec 5) : RoundTrip.Statement (Instr.aadd s dep d a b) := by
  refine fun hw => ⟨fun x h => ?_, fun c x h => by cases c <;> simp [Command.instr] at h⟩
  cases h
  refine port_ok 0x3b#6 (fmtKP_maj ..) (by decide) (by decide) ?_ hw
  rw [show fmtKP s 0x3b dep d a b 0x0#6 = @BitVec.cast (1 + 6 + 4 + 5 + 5 + 5 + 6) 32 rfl (s ++ 0x3b#6 ++ dep ++ d ++ a ++ b ++ 0x0#6) from rfl]
  dsimp only [decodePort]
  simp (disch := decide) only [extract_cast, extract_extract, BitVec.extractLsb'_append_eq_of_le, BitVec.extractLsb'_append_eq_of_add_le]
  simp only [Nat.reduceSub, Nat.reduceAdd, BitVec.extractLsb'_eq_self]
  all_goals rfl
theorem RoundTrip.aaddf (s : BitVec 1) (dep : BitVec 4) (d : BitVec 5) (a : BitVec 5) (b : BitVec 5) : RoundTrip.Statement (Instr.aaddf s dep d a b) := by
  refine fun hw => ⟨fun x h => ?_, fun c x h => by cases c <;> simp [Command.instr] at h⟩
  cases h
  refine port_ok 0x3b#6 (fmtKP_maj ..) (by decide) (by decide) ?_ hw
  rw [show fmtKP s 0x3b dep d a b 0x1#6 = @BitVec.cast (1 + 6 + 4 + 5 + 5 + 5 + 6) 32 rfl (s ++ 0x3b#6 ++ dep ++ d ++ a ++ b ++ 0x1#6) from rfl]
  dsimp only [decodePort]
  simp (disch := decide) only [extract_cast, extract_extract, BitVec.extractLsb'_append_eq_of_le, BitVec.extractLsb'_append_eq_of_add_le]
  simp only [Nat.reduceSub, Nat.reduceAdd, BitVec.extractLsb'_eq_self]
  all_goals rfl
theorem RoundTrip.axchg (s : BitVec 1) (dep : BitVec 4) (d : BitVec 5) (a : BitVec 5) (b : BitVec 5) : RoundTrip.Statement (Instr.axchg s dep d a b) := by
  refine fun hw => ⟨fun x h => ?_, fun c x h => by cases c <;> simp [Command.instr] at h⟩
  cases h
  refine port_ok 0x3b#6 (fmtKP_maj ..) (by decide) (by decide) ?_ hw
  rw [show fmtKP s 0x3b dep d a b 0x2#6 = @BitVec.cast (1 + 6 + 4 + 5 + 5 + 5 + 6) 32 rfl (s ++ 0x3b#6 ++ dep ++ d ++ a ++ b ++ 0x2#6) from rfl]
  dsimp only [decodePort]
  simp (disch := decide) only [extract_cast, extract_extract, BitVec.extractLsb'_append_eq_of_le, BitVec.extractLsb'_append_eq_of_add_le]
  simp only [Nat.reduceSub, Nat.reduceAdd, BitVec.extractLsb'_eq_self]
  all_goals rfl
theorem RoundTrip.a2sum (s : BitVec 1) (dep : BitVec 4) (d : BitVec 5) (a : BitVec 5) (b : BitVec 5) : RoundTrip.Statement (Instr.a2sum s dep d a b) := by
  refine fun hw => ⟨fun x h => ?_, fun c x h => by cases c <;> simp [Command.instr] at h⟩
  cases h
  refine port_ok 0x3b#6 (fmtKP_maj ..) (by decide) (by decide) ?_ hw
  rw [show fmtKP s 0x3b dep d a b 0x3#6 = @BitVec.cast (1 + 6 + 4 + 5 + 5 + 5 + 6) 32 rfl (s ++ 0x3b#6 ++ dep ++ d ++ a ++ b ++ 0x3#6) from rfl]
  dsimp only [decodePort]
  simp (disch := decide) only [extract_cast, extract_extract, BitVec.extractLsb'_append_eq_of_le, BitVec.extractLsb'_append_eq_of_add_le]
  simp only [Nat.reduceSub, Nat.reduceAdd, BitVec.extractLsb'_eq_self]
  all_goals rfl
theorem RoundTrip.srd (s : BitVec 1) (d : BitVec 5) (x : BitVec 12) : RoundTrip.Statement (Instr.srd s d x) := by
  refine fun hw => ⟨fun x h => ?_, fun c x h => by cases c <;> simp [Command.instr] at h⟩
  cases h
  refine port_ok 0x3c#6 (fmtKI_maj ..) (by decide) (by decide) ?_ hw
  rw [show fmtKI s 0x3c d 0x0#5 (0x0#3 ++ x) = @BitVec.cast (1 + 6 + 5 + 5 + (3 + 12)) 32 rfl (s ++ 0x3c#6 ++ d ++ 0x0#5 ++ (0x0#3 ++ x)) from rfl]
  dsimp only [decodePort]
  simp (disch := decide) only [extract_cast, extract_extract, BitVec.extractLsb'_append_eq_of_le, BitVec.extractLsb'_append_eq_of_add_le]
  simp only [Nat.reduceSub, Nat.reduceAdd, BitVec.extractLsb'_eq_self]
  all_goals rfl
theorem RoundTrip.swr (s : BitVec 1) (a : BitVec 5) (x : BitVec 12) : RoundTrip.Statement (Instr.swr s a x) := by
  refine fun hw => ⟨fun x h => ?_, fun c x h => by cases c <;> simp [Command.instr] at h⟩
  cases h
  refine port_ok 0x3d#6 (fmtKI_maj ..) (by decide) (by decide) ?_ hw
  rw [show fmtKI s 0x3d 0x0#5 a (0x0#3 ++ x) = @BitVec.cast (1 + 6 + 5 + 5 + (3 + 12)) 32 rfl (s ++ 0x3d#6 ++ 0x0#5 ++ a ++ (0x0#3 ++ x)) from rfl]
  dsimp only [decodePort]
  simp (disch := decide) only [extract_cast, extract_extract, BitVec.extractLsb'_append_eq_of_le, BitVec.extractLsb'_append_eq_of_add_le]
  simp only [Nat.reduceSub, Nat.reduceAdd, BitVec.extractLsb'_eq_self]
  all_goals rfl
theorem RoundTrip.ecall (s : BitVec 1) (dep : BitVec 4) : RoundTrip.Statement (Instr.ecall s dep) := by
  refine fun hw => ⟨fun x h => ?_, fun c x h => by cases c <;> simp [Command.instr] at h⟩
  cases h
  refine port_ok 0x3e#6 (fmtKP_maj ..) (by decide) (by decide) ?_ hw
  rw [show fmtKP s 0x3e dep 0x0#5 0x0#5 0x0#5 0x0#6 = @BitVec.cast (1 + 6 + 4 + 5 + 5 + 5 + 6) 32 rfl (s ++ 0x3e#6 ++ dep ++ 0x0#5 ++ 0x0#5 ++ 0x0#5 ++ 0x0#6) from rfl]
  dsimp only [decodePort]
  simp (disch := decide) only [extract_cast, extract_extract, BitVec.extractLsb'_append_eq_of_le, BitVec.extractLsb'_append_eq_of_add_le]
  simp only [Nat.reduceSub, Nat.reduceAdd, BitVec.extractLsb'_eq_self]
  all_goals rfl
theorem RoundTrip.tret (s : BitVec 1) (dep : BitVec 4) : RoundTrip.Statement (Instr.tret s dep) := by
  refine fun hw => ⟨fun x h => ?_, fun c x h => by cases c <;> simp [Command.instr] at h⟩
  cases h
  refine port_ok 0x3e#6 (fmtKP_maj ..) (by decide) (by decide) ?_ hw
  rw [show fmtKP s 0x3e dep 0x0#5 0x0#5 0x0#5 0x1#6 = @BitVec.cast (1 + 6 + 4 + 5 + 5 + 5 + 6) 32 rfl (s ++ 0x3e#6 ++ dep ++ 0x0#5 ++ 0x0#5 ++ 0x0#5 ++ 0x1#6) from rfl]
  dsimp only [decodePort]
  simp (disch := decide) only [extract_cast, extract_extract, BitVec.extractLsb'_append_eq_of_le, BitVec.extractLsb'_append_eq_of_add_le]
  simp only [Nat.reduceSub, Nat.reduceAdd, BitVec.extractLsb'_eq_self]
  all_goals rfl
theorem RoundTrip.tack (s : BitVec 1) (dep : BitVec 4) : RoundTrip.Statement (Instr.tack s dep) := by
  refine fun hw => ⟨fun x h => ?_, fun c x h => by cases c <;> simp [Command.instr] at h⟩
  cases h
  refine port_ok 0x3e#6 (fmtKP_maj ..) (by decide) (by decide) ?_ hw
  rw [show fmtKP s 0x3e dep 0x0#5 0x0#5 0x0#5 0x2#6 = @BitVec.cast (1 + 6 + 4 + 5 + 5 + 5 + 6) 32 rfl (s ++ 0x3e#6 ++ dep ++ 0x0#5 ++ 0x0#5 ++ 0x0#5 ++ 0x2#6) from rfl]
  dsimp only [decodePort]
  simp (disch := decide) only [extract_cast, extract_extract, BitVec.extractLsb'_append_eq_of_le, BitVec.extractLsb'_append_eq_of_add_le]
  simp only [Nat.reduceSub, Nat.reduceAdd, BitVec.extractLsb'_eq_self]
  all_goals rfl
theorem RoundTrip.halt (s : BitVec 1) (dep : BitVec 4) : RoundTrip.Statement (Instr.halt s dep) := by
  refine fun hw => ⟨fun x h => ?_, fun c x h => by cases c <;> simp [Command.instr] at h⟩
  cases h
  refine port_ok 0x3e#6 (fmtKP_maj ..) (by decide) (by decide) ?_ hw
  rw [show fmtKP s 0x3e dep 0x0#5 0x0#5 0x0#5 0x3#6 = @BitVec.cast (1 + 6 + 4 + 5 + 5 + 5 + 6) 32 rfl (s ++ 0x3e#6 ++ dep ++ 0x0#5 ++ 0x0#5 ++ 0x0#5 ++ 0x3#6) from rfl]
  dsimp only [decodePort]
  simp (disch := decide) only [extract_cast, extract_extract, BitVec.extractLsb'_append_eq_of_le, BitVec.extractLsb'_append_eq_of_add_le]
  simp only [Nat.reduceSub, Nat.reduceAdd, BitVec.extractLsb'_eq_self]
  all_goals rfl
theorem RoundTrip.wfi (s : BitVec 1) (dep : BitVec 4) : RoundTrip.Statement (Instr.wfi s dep) := by
  refine fun hw => ⟨fun x h => ?_, fun c x h => by cases c <;> simp [Command.instr] at h⟩
  cases h
  refine port_ok 0x3e#6 (fmtKP_maj ..) (by decide) (by decide) ?_ hw
  rw [show fmtKP s 0x3e dep 0x0#5 0x0#5 0x0#5 0x4#6 = @BitVec.cast (1 + 6 + 4 + 5 + 5 + 5 + 6) 32 rfl (s ++ 0x3e#6 ++ dep ++ 0x0#5 ++ 0x0#5 ++ 0x0#5 ++ 0x4#6) from rfl]
  dsimp only [decodePort]
  simp (disch := decide) only [extract_cast, extract_extract, BitVec.extractLsb'_append_eq_of_le, BitVec.extractLsb'_append_eq_of_add_le]
  simp only [Nat.reduceSub, Nat.reduceAdd, BitVec.extractLsb'_eq_self]
  all_goals rfl
theorem RoundTrip.oeqpop (s : BitVec 1) (dep : BitVec 4) (d : BitVec 5) : RoundTrip.Statement (Instr.oeqpop s dep d) := by
  refine fun hw => ⟨fun x h => ?_, fun c x h => by cases c <;> simp [Command.instr] at h⟩
  cases h
  refine port_ok 0x3e#6 (fmtKP_maj ..) (by decide) (by decide) ?_ hw
  rw [show fmtKP s 0x3e dep d 0x0#5 0x0#5 0x5#6 = @BitVec.cast (1 + 6 + 4 + 5 + 5 + 5 + 6) 32 rfl (s ++ 0x3e#6 ++ dep ++ d ++ 0x0#5 ++ 0x0#5 ++ 0x5#6) from rfl]
  dsimp only [decodePort]
  simp (disch := decide) only [extract_cast, extract_extract, BitVec.extractLsb'_append_eq_of_le, BitVec.extractLsb'_append_eq_of_add_le]
  simp only [Nat.reduceSub, Nat.reduceAdd, BitVec.extractLsb'_eq_self]
  all_goals rfl
theorem RoundTrip.rotpt (s : BitVec 1) (dep : BitVec 4) : RoundTrip.Statement (Instr.rotpt s dep) := by
  refine fun hw => ⟨fun x h => ?_, fun c x h => by cases c <;> simp [Command.instr] at h⟩
  cases h
  refine port_ok 0x3e#6 (fmtKP_maj ..) (by decide) (by decide) ?_ hw
  rw [show fmtKP s 0x3e dep 0x0#5 0x0#5 0x0#5 0x6#6 = @BitVec.cast (1 + 6 + 4 + 5 + 5 + 5 + 6) 32 rfl (s ++ 0x3e#6 ++ dep ++ 0x0#5 ++ 0x0#5 ++ 0x0#5 ++ 0x6#6) from rfl]
  dsimp only [decodePort]
  simp (disch := decide) only [extract_cast, extract_extract, BitVec.extractLsb'_append_eq_of_le, BitVec.extractLsb'_append_eq_of_add_le]
  simp only [Nat.reduceSub, Nat.reduceAdd, BitVec.extractLsb'_eq_self]
  all_goals rfl
theorem RoundTrip.iinv (s : BitVec 1) (dep : BitVec 4) : RoundTrip.Statement (Instr.iinv s dep) := by
  refine fun hw => ⟨fun x h => ?_, fun c x h => by cases c <;> simp [Command.instr] at h⟩
  cases h
  refine port_ok 0x3e#6 (fmtKP_maj ..) (by decide) (by decide) ?_ hw
  rw [show fmtKP s 0x3e dep 0x0#5 0x0#5 0x0#5 0x7#6 = @BitVec.cast (1 + 6 + 4 + 5 + 5 + 5 + 6) 32 rfl (s ++ 0x3e#6 ++ dep ++ 0x0#5 ++ 0x0#5 ++ 0x0#5 ++ 0x7#6) from rfl]
  dsimp only [decodePort]
  simp (disch := decide) only [extract_cast, extract_extract, BitVec.extractLsb'_append_eq_of_le, BitVec.extractLsb'_append_eq_of_add_le]
  simp only [Nat.reduceSub, Nat.reduceAdd, BitVec.extractLsb'_eq_self]
  all_goals rfl
theorem RoundTrip.crossingAdmit (q : QueueId) : RoundTrip.Statement (Instr.crossingAdmit q) := by
  exact fun _ => ⟨fun _ h => by simp [encode] at h, fun c x h => by cases c <;> simp [Command.instr] at h⟩
theorem RoundTrip.crossingComplete (seq : BitVec 32) : RoundTrip.Statement (Instr.crossingComplete seq) := by
  exact fun _ => ⟨fun _ h => by simp [encode] at h, fun c x h => by cases c <;> simp [Command.instr] at h⟩
theorem RoundTrip.xoutCapture (seq : BitVec 32) : RoundTrip.Statement (Instr.xoutCapture seq) := by
  exact fun _ => ⟨fun _ h => by simp [encode] at h, fun c x h => by cases c <;> simp [Command.instr] at h⟩
theorem RoundTrip.depto (c : Lane) : RoundTrip.Statement (Instr.depto c) := by
  exact fun _ => ⟨fun _ h => by simp [encode] at h, fun c x h => by cases c <;> simp [Command.instr] at h⟩
theorem RoundTrip.plen (c : Lane) : RoundTrip.Statement (Instr.plen c) := by
  exact fun _ => ⟨fun _ h => by simp [encode] at h, fun c x h => by cases c <;> simp [Command.instr] at h⟩
theorem RoundTrip.tableStart (e : EngineId) : RoundTrip.Statement (Instr.tableStart e) := by
  exact fun _ => ⟨fun _ h => by simp [encode] at h, fun c x h => by cases c <;> simp [Command.instr] at h⟩
theorem RoundTrip.termFire (n : BitVec 4) : RoundTrip.Statement (Instr.termFire n) := by
  exact fun _ => ⟨fun _ h => by simp [encode] at h, fun c x h => by cases c <;> simp [Command.instr] at h⟩
theorem RoundTrip.engineIdle (e : EngineId) : RoundTrip.Statement (Instr.engineIdle e) := by
  exact fun _ => ⟨fun _ h => by simp [encode] at h, fun c x h => by cases c <;> simp [Command.instr] at h⟩
theorem RoundTrip.mnop (w : BitVec 4) : RoundTrip.Statement (Instr.mnop w) := by
  refine fun hw => ⟨fun x h => ?_, fun c x h => by cases c <;> simp [Command.instr] at h⟩
  cases h
  clear hw; revert w; decide
theorem RoundTrip.mma (w : BitVec 4) (f : BitVec 3) (x : BitVec 1) (g : BitVec 1) (k : BitVec 1) (o : BitVec 1) (a : BitVec 4) (b : BitVec 4) (c : BitVec 6) : RoundTrip.Statement (Instr.mma w f x g k o a b c) := by
  refine fun hw => ⟨fun x h => ?_, fun c x h => by cases c <;> simp [Command.instr] at h⟩
  cases h
  show decodeX (fmtM w 0x01 (f ++ x ++ g ++ k ++ o ++ a ++ b ++ c ++ 0x0#2)) = _
  rw [show fmtM w 0x01 (f ++ x ++ g ++ k ++ o ++ a ++ b ++ c ++ 0x0#2) = @BitVec.cast (4 + 5 + (3 + 1 + 1 + 1 + 1 + 4 + 4 + 6 + 2)) 32 rfl (w ++ 0x01#5 ++ (f ++ x ++ g ++ k ++ o ++ a ++ b ++ c ++ 0x0#2)) from rfl]
  unfold decodeX
  rw [show BitVec.extractLsb' 23 5 (@BitVec.cast (4 + 5 + (3 + 1 + 1 + 1 + 1 + 4 + 4 + 6 + 2)) 32 rfl (w ++ 0x01#5 ++ (f ++ x ++ g ++ k ++ o ++ a ++ b ++ c ++ 0x0#2))) = 0x01#5 from by
    simp (disch := decide) only [extract_cast, BitVec.extractLsb'_append_eq_of_le, BitVec.extractLsb'_append_eq_of_add_le]
    exact BitVec.extractLsb'_eq_self]
  dsimp only
  simp (disch := decide) only [extract_cast, extract_extract, BitVec.extractLsb'_append_eq_of_le, BitVec.extractLsb'_append_eq_of_add_le]
  simp only [Nat.reduceSub, Nat.reduceAdd, BitVec.extractLsb'_eq_self]
  exact assigned_ok hw
theorem RoundTrip.mldm (w : BitVec 4) (d : BitVec 3) (p : BitVec 3) (k : BitVec 12) : RoundTrip.Statement (Instr.mldm w d p k) := by
  refine fun hw => ⟨fun x h => ?_, fun c x h => by cases c <;> simp [Command.instr] at h⟩
  cases h
  show decodeX (fmtM w 0x02 (d ++ p ++ k ++ 0x0#5)) = _
  rw [show fmtM w 0x02 (d ++ p ++ k ++ 0x0#5) = @BitVec.cast (4 + 5 + (3 + 3 + 12 + 5)) 32 rfl (w ++ 0x02#5 ++ (d ++ p ++ k ++ 0x0#5)) from rfl]
  unfold decodeX
  rw [show BitVec.extractLsb' 23 5 (@BitVec.cast (4 + 5 + (3 + 3 + 12 + 5)) 32 rfl (w ++ 0x02#5 ++ (d ++ p ++ k ++ 0x0#5))) = 0x02#5 from by
    simp (disch := decide) only [extract_cast, BitVec.extractLsb'_append_eq_of_le, BitVec.extractLsb'_append_eq_of_add_le]
    exact BitVec.extractLsb'_eq_self]
  dsimp only
  simp (disch := decide) only [extract_cast, extract_extract, BitVec.extractLsb'_append_eq_of_le, BitVec.extractLsb'_append_eq_of_add_le]
  simp only [Nat.reduceSub, Nat.reduceAdd, BitVec.extractLsb'_eq_self]
  exact assigned_ok hw
theorem RoundTrip.mscale (w : BitVec 4) (a : BitVec 6) (p : BitVec 6) (s : BitVec 3) (b : BitVec 8) : RoundTrip.Statement (Instr.mscale w a p s b) := by
  refine fun hw => ⟨fun x h => ?_, fun c x h => by cases c <;> simp [Command.instr] at h⟩
  cases h
  show decodeY (fmtM w 0x01 (a ++ p ++ s ++ b)) = _
  rw [show fmtM w 0x01 (a ++ p ++ s ++ b) = @BitVec.cast (4 + 5 + (6 + 6 + 3 + 8)) 32 rfl (w ++ 0x01#5 ++ (a ++ p ++ s ++ b)) from rfl]
  unfold decodeY
  rw [show BitVec.extractLsb' 23 5 (@BitVec.cast (4 + 5 + (6 + 6 + 3 + 8)) 32 rfl (w ++ 0x01#5 ++ (a ++ p ++ s ++ b))) = 0x01#5 from by
    simp (disch := decide) only [extract_cast, BitVec.extractLsb'_append_eq_of_le, BitVec.extractLsb'_append_eq_of_add_le]
    exact BitVec.extractLsb'_eq_self]
  dsimp only
  simp (disch := decide) only [extract_cast, extract_extract, BitVec.extractLsb'_append_eq_of_le, BitVec.extractLsb'_append_eq_of_add_le]
  simp only [Nat.reduceSub, Nat.reduceAdd, BitVec.extractLsb'_eq_self]
  exact assigned_ok hw
theorem RoundTrip.mstore (w : BitVec 4) (a : BitVec 6) (p : BitVec 3) (k : BitVec 12) (g : BitVec 1) (h : BitVec 1) : RoundTrip.Statement (Instr.mstore w a p k g h) := by
  refine fun hw => ⟨fun x h => ?_, fun c x h => by cases c <;> simp [Command.instr] at h⟩
  cases h
  show decodeY (fmtM w 0x02 (a ++ p ++ k ++ g ++ h)) = _
  rw [show fmtM w 0x02 (a ++ p ++ k ++ g ++ h) = @BitVec.cast (4 + 5 + (6 + 3 + 12 + 1 + 1)) 32 rfl (w ++ 0x02#5 ++ (a ++ p ++ k ++ g ++ h)) from rfl]
  unfold decodeY
  rw [show BitVec.extractLsb' 23 5 (@BitVec.cast (4 + 5 + (6 + 3 + 12 + 1 + 1)) 32 rfl (w ++ 0x02#5 ++ (a ++ p ++ k ++ g ++ h))) = 0x02#5 from by
    simp (disch := decide) only [extract_cast, BitVec.extractLsb'_append_eq_of_le, BitVec.extractLsb'_append_eq_of_add_le]
    exact BitVec.extractLsb'_eq_self]
  dsimp only
  simp (disch := decide) only [extract_cast, extract_extract, BitVec.extractLsb'_append_eq_of_le, BitVec.extractLsb'_append_eq_of_add_le]
  simp only [Nat.reduceSub, Nat.reduceAdd, BitVec.extractLsb'_eq_self]
  exact assigned_ok hw
theorem RoundTrip.mzero (w : BitVec 4) (a : BitVec 6) : RoundTrip.Statement (Instr.mzero w a) := by
  refine fun hw => ⟨fun x h => ?_, fun c x h => by cases c <;> simp [Command.instr] at h⟩
  cases h
  show decodeY (fmtM w 0x03 (a ++ 0x0#17)) = _
  rw [show fmtM w 0x03 (a ++ 0x0#17) = @BitVec.cast (4 + 5 + (6 + 17)) 32 rfl (w ++ 0x03#5 ++ (a ++ 0x0#17)) from rfl]
  unfold decodeY
  rw [show BitVec.extractLsb' 23 5 (@BitVec.cast (4 + 5 + (6 + 17)) 32 rfl (w ++ 0x03#5 ++ (a ++ 0x0#17))) = 0x03#5 from by
    simp (disch := decide) only [extract_cast, BitVec.extractLsb'_append_eq_of_le, BitVec.extractLsb'_append_eq_of_add_le]
    exact BitVec.extractLsb'_eq_self]
  dsimp only
  simp (disch := decide) only [extract_cast, extract_extract, BitVec.extractLsb'_append_eq_of_le, BitVec.extractLsb'_append_eq_of_add_le]
  simp only [Nat.reduceSub, Nat.reduceAdd, BitVec.extractLsb'_eq_self]
  all_goals rfl
theorem RoundTrip.mdrain (w : BitVec 4) (a : BitVec 6) (d : BitVec 6) (c : BitVec 1) : RoundTrip.Statement (Instr.mdrain w a d c) := by
  refine fun hw => ⟨fun x h => ?_, fun c x h => by cases c <;> simp [Command.instr] at h⟩
  cases h
  show decodeY (fmtM w 0x04 (a ++ d ++ c ++ 0x0#10)) = _
  rw [show fmtM w 0x04 (a ++ d ++ c ++ 0x0#10) = @BitVec.cast (4 + 5 + (6 + 6 + 1 + 10)) 32 rfl (w ++ 0x04#5 ++ (a ++ d ++ c ++ 0x0#10)) from rfl]
  unfold decodeY
  rw [show BitVec.extractLsb' 23 5 (@BitVec.cast (4 + 5 + (6 + 6 + 1 + 10)) 32 rfl (w ++ 0x04#5 ++ (a ++ d ++ c ++ 0x0#10))) = 0x04#5 from by
    simp (disch := decide) only [extract_cast, BitVec.extractLsb'_append_eq_of_le, BitVec.extractLsb'_append_eq_of_add_le]
    exact BitVec.extractLsb'_eq_self]
  dsimp only
  simp (disch := decide) only [extract_cast, extract_extract, BitVec.extractLsb'_append_eq_of_le, BitVec.extractLsb'_append_eq_of_add_le]
  simp only [Nat.reduceSub, Nat.reduceAdd, BitVec.extractLsb'_eq_self]
  all_goals rfl
theorem RoundTrip.mchk (w : BitVec 4) (a : BitVec 6) : RoundTrip.Statement (Instr.mchk w a) := by
  refine fun hw => ⟨fun x h => ?_, fun c x h => by cases c <;> simp [Command.instr] at h⟩
  cases h
  show decodeY (fmtM w 0x05 (a ++ 0x0#17)) = _
  rw [show fmtM w 0x05 (a ++ 0x0#17) = @BitVec.cast (4 + 5 + (6 + 17)) 32 rfl (w ++ 0x05#5 ++ (a ++ 0x0#17)) from rfl]
  unfold decodeY
  rw [show BitVec.extractLsb' 23 5 (@BitVec.cast (4 + 5 + (6 + 17)) 32 rfl (w ++ 0x05#5 ++ (a ++ 0x0#17))) = 0x05#5 from by
    simp (disch := decide) only [extract_cast, BitVec.extractLsb'_append_eq_of_le, BitVec.extractLsb'_append_eq_of_add_le]
    exact BitVec.extractLsb'_eq_self]
  dsimp only
  simp (disch := decide) only [extract_cast, extract_extract, BitVec.extractLsb'_append_eq_of_le, BitVec.extractLsb'_append_eq_of_add_le]
  simp only [Nat.reduceSub, Nat.reduceAdd, BitVec.extractLsb'_eq_self]
  all_goals rfl
theorem RoundTrip.mfix (w : BitVec 4) (a : BitVec 6) (i : BitVec 4) (j : BitVec 4) : RoundTrip.Statement (Instr.mfix w a i j) := by
  refine fun hw => ⟨fun x h => ?_, fun c x h => by cases c <;> simp [Command.instr] at h⟩
  cases h
  show decodeY (fmtM w 0x06 (a ++ i ++ j ++ 0x0#9)) = _
  rw [show fmtM w 0x06 (a ++ i ++ j ++ 0x0#9) = @BitVec.cast (4 + 5 + (6 + 4 + 4 + 9)) 32 rfl (w ++ 0x06#5 ++ (a ++ i ++ j ++ 0x0#9)) from rfl]
  unfold decodeY
  rw [show BitVec.extractLsb' 23 5 (@BitVec.cast (4 + 5 + (6 + 4 + 4 + 9)) 32 rfl (w ++ 0x06#5 ++ (a ++ i ++ j ++ 0x0#9))) = 0x06#5 from by
    simp (disch := decide) only [extract_cast, BitVec.extractLsb'_append_eq_of_le, BitVec.extractLsb'_append_eq_of_add_le]
    exact BitVec.extractLsb'_eq_self]
  dsimp only
  simp (disch := decide) only [extract_cast, extract_extract, BitVec.extractLsb'_append_eq_of_le, BitVec.extractLsb'_append_eq_of_add_le]
  simp only [Nat.reduceSub, Nat.reduceAdd, BitVec.extractLsb'_eq_self]
  all_goals rfl
theorem RoundTrip.mcopy (w : BitVec 4) (a : BitVec 6) (s : BitVec 6) : RoundTrip.Statement (Instr.mcopy w a s) := by
  refine fun hw => ⟨fun x h => ?_, fun c x h => by cases c <;> simp [Command.instr] at h⟩
  cases h
  show decodeY (fmtM w 0x07 (a ++ s ++ 0x0#11)) = _
  rw [show fmtM w 0x07 (a ++ s ++ 0x0#11) = @BitVec.cast (4 + 5 + (6 + 6 + 11)) 32 rfl (w ++ 0x07#5 ++ (a ++ s ++ 0x0#11)) from rfl]
  unfold decodeY
  rw [show BitVec.extractLsb' 23 5 (@BitVec.cast (4 + 5 + (6 + 6 + 11)) 32 rfl (w ++ 0x07#5 ++ (a ++ s ++ 0x0#11))) = 0x07#5 from by
    simp (disch := decide) only [extract_cast, BitVec.extractLsb'_append_eq_of_le, BitVec.extractLsb'_append_eq_of_add_le]
    exact BitVec.extractLsb'_eq_self]
  dsimp only
  simp (disch := decide) only [extract_cast, extract_extract, BitVec.extractLsb'_append_eq_of_le, BitVec.extractLsb'_append_eq_of_add_le]
  simp only [Nat.reduceSub, Nat.reduceAdd, BitVec.extractLsb'_eq_self]
  all_goals rfl
theorem RoundTrip.mlda (w : BitVec 4) (a : BitVec 6) (p : BitVec 3) (k : BitVec 12) (e : BitVec 1) : RoundTrip.Statement (Instr.mlda w a p k e) := by
  refine fun hw => ⟨fun x h => ?_, fun c x h => by cases c <;> simp [Command.instr] at h⟩
  cases h
  show decodeY (fmtM w 0x08 (a ++ p ++ k ++ e ++ 0x0#1)) = _
  rw [show fmtM w 0x08 (a ++ p ++ k ++ e ++ 0x0#1) = @BitVec.cast (4 + 5 + (6 + 3 + 12 + 1 + 1)) 32 rfl (w ++ 0x08#5 ++ (a ++ p ++ k ++ e ++ 0x0#1)) from rfl]
  unfold decodeY
  rw [show BitVec.extractLsb' 23 5 (@BitVec.cast (4 + 5 + (6 + 3 + 12 + 1 + 1)) 32 rfl (w ++ 0x08#5 ++ (a ++ p ++ k ++ e ++ 0x0#1))) = 0x08#5 from by
    simp (disch := decide) only [extract_cast, BitVec.extractLsb'_append_eq_of_le, BitVec.extractLsb'_append_eq_of_add_le]
    exact BitVec.extractLsb'_eq_self]
  dsimp only
  simp (disch := decide) only [extract_cast, extract_extract, BitVec.extractLsb'_append_eq_of_le, BitVec.extractLsb'_append_eq_of_add_le]
  simp only [Nat.reduceSub, Nat.reduceAdd, BitVec.extractLsb'_eq_self]
  exact assigned_ok hw
theorem RoundTrip.ma2s (w : BitVec 4) (h : BitVec 6) (l : BitVec 6) (s : BitVec 6) : RoundTrip.Statement (Instr.ma2s w h l s) := by
  refine fun hw => ⟨fun x h => ?_, fun c x h => by cases c <;> simp [Command.instr] at h⟩
  cases h
  show decodeY (fmtM w 0x09 (h ++ l ++ s ++ 0x0#5)) = _
  rw [show fmtM w 0x09 (h ++ l ++ s ++ 0x0#5) = @BitVec.cast (4 + 5 + (6 + 6 + 6 + 5)) 32 rfl (w ++ 0x09#5 ++ (h ++ l ++ s ++ 0x0#5)) from rfl]
  unfold decodeY
  rw [show BitVec.extractLsb' 23 5 (@BitVec.cast (4 + 5 + (6 + 6 + 6 + 5)) 32 rfl (w ++ 0x09#5 ++ (h ++ l ++ s ++ 0x0#5))) = 0x09#5 from by
    simp (disch := decide) only [extract_cast, BitVec.extractLsb'_append_eq_of_le, BitVec.extractLsb'_append_eq_of_add_le]
    exact BitVec.extractLsb'_eq_self]
  dsimp only
  simp (disch := decide) only [extract_cast, extract_extract, BitVec.extractLsb'_append_eq_of_le, BitVec.extractLsb'_append_eq_of_add_le]
  simp only [Nat.reduceSub, Nat.reduceAdd, BitVec.extractLsb'_eq_self]
  exact assigned_ok hw
theorem RoundTrip.mtile (w : BitVec 4) : RoundTrip.Statement (Instr.mtile w) := by
  refine fun hw => ⟨fun x h => ?_, fun c x h => by cases c <;> simp [Command.instr] at h⟩
  cases h
  clear hw; revert w; decide
theorem RoundTrip.mloop (w : BitVec 4) (p : BitVec 1) (c : BitVec 12) (l : BitVec 10) : RoundTrip.Statement (Instr.mloop w p c l) := by
  refine fun hw => ⟨fun x h => ?_, fun c x h => by cases c <;> simp [Command.instr] at h⟩
  cases h
  show decodeY (fmtM w 0x0b (p ++ c ++ l)) = _
  rw [show fmtM w 0x0b (p ++ c ++ l) = @BitVec.cast (4 + 5 + (1 + 12 + 10)) 32 rfl (w ++ 0x0b#5 ++ (p ++ c ++ l)) from rfl]
  unfold decodeY
  rw [show BitVec.extractLsb' 23 5 (@BitVec.cast (4 + 5 + (1 + 12 + 10)) 32 rfl (w ++ 0x0b#5 ++ (p ++ c ++ l))) = 0x0b#5 from by
    simp (disch := decide) only [extract_cast, BitVec.extractLsb'_append_eq_of_le, BitVec.extractLsb'_append_eq_of_add_le]
    exact BitVec.extractLsb'_eq_self]
  dsimp only
  simp (disch := decide) only [extract_cast, extract_extract, BitVec.extractLsb'_append_eq_of_le, BitVec.extractLsb'_append_eq_of_add_le]
  simp only [Nat.reduceSub, Nat.reduceAdd, BitVec.extractLsb'_eq_self]
  exact assigned_ok hw
theorem RoundTrip.mflag (w : BitVec 4) (f : BitVec 4) (v : BitVec 16) : RoundTrip.Statement (Instr.mflag w f v) := by
  refine fun hw => ⟨fun x h => ?_, fun c x h => by cases c <;> simp [Command.instr] at h⟩
  cases h
  show decodeY (fmtM w 0x0c (f ++ 0x0#3 ++ v)) = _
  rw [show fmtM w 0x0c (f ++ 0x0#3 ++ v) = @BitVec.cast (4 + 5 + (4 + 3 + 16)) 32 rfl (w ++ 0x0c#5 ++ (f ++ 0x0#3 ++ v)) from rfl]
  unfold decodeY
  rw [show BitVec.extractLsb' 23 5 (@BitVec.cast (4 + 5 + (4 + 3 + 16)) 32 rfl (w ++ 0x0c#5 ++ (f ++ 0x0#3 ++ v))) = 0x0c#5 from by
    simp (disch := decide) only [extract_cast, BitVec.extractLsb'_append_eq_of_le, BitVec.extractLsb'_append_eq_of_add_le]
    exact BitVec.extractLsb'_eq_self]
  dsimp only
  simp (disch := decide) only [extract_cast, extract_extract, BitVec.extractLsb'_append_eq_of_le, BitVec.extractLsb'_append_eq_of_add_le]
  simp only [Nat.reduceSub, Nat.reduceAdd, BitVec.extractLsb'_eq_self]
  all_goals rfl
theorem RoundTrip.mwaits (w : BitVec 4) (n : BitVec 16) : RoundTrip.Statement (Instr.mwaits w n) := by
  refine fun hw => ⟨fun x h => ?_, fun c x h => by cases c <;> simp [Command.instr] at h⟩
  cases h
  show decodeY (fmtM w 0x0d (0x0#7 ++ n)) = _
  rw [show fmtM w 0x0d (0x0#7 ++ n) = @BitVec.cast (4 + 5 + (7 + 16)) 32 rfl (w ++ 0x0d#5 ++ (0x0#7 ++ n)) from rfl]
  unfold decodeY
  rw [show BitVec.extractLsb' 23 5 (@BitVec.cast (4 + 5 + (7 + 16)) 32 rfl (w ++ 0x0d#5 ++ (0x0#7 ++ n))) = 0x0d#5 from by
    simp (disch := decide) only [extract_cast, BitVec.extractLsb'_append_eq_of_le, BitVec.extractLsb'_append_eq_of_add_le]
    exact BitVec.extractLsb'_eq_self]
  dsimp only
  simp (disch := decide) only [extract_cast, extract_extract, BitVec.extractLsb'_append_eq_of_le, BitVec.extractLsb'_append_eq_of_add_le]
  simp only [Nat.reduceSub, Nat.reduceAdd, BitVec.extractLsb'_eq_self]
  exact assigned_ok hw
theorem RoundTrip.mmask (w : BitVec 4) (q : BitVec 3) : RoundTrip.Statement (Instr.mmask w q) := by
  refine fun hw => ⟨fun x h => ?_, fun c x h => by cases c <;> simp [Command.instr] at h⟩
  cases h
  show decodeY (fmtM w 0x0e (q ++ 0x0#20)) = _
  rw [show fmtM w 0x0e (q ++ 0x0#20) = @BitVec.cast (4 + 5 + (3 + 20)) 32 rfl (w ++ 0x0e#5 ++ (q ++ 0x0#20)) from rfl]
  unfold decodeY
  rw [show BitVec.extractLsb' 23 5 (@BitVec.cast (4 + 5 + (3 + 20)) 32 rfl (w ++ 0x0e#5 ++ (q ++ 0x0#20))) = 0x0e#5 from by
    simp (disch := decide) only [extract_cast, BitVec.extractLsb'_append_eq_of_le, BitVec.extractLsb'_append_eq_of_add_le]
    exact BitVec.extractLsb'_eq_self]
  dsimp only
  simp (disch := decide) only [extract_cast, extract_extract, BitVec.extractLsb'_append_eq_of_le, BitVec.extractLsb'_append_eq_of_add_le]
  simp only [Nat.reduceSub, Nat.reduceAdd, BitVec.extractLsb'_eq_self]
  all_goals rfl
theorem RoundTrip.mcbt (w : BitVec 4) (p : BitVec 3) (f : BitVec 8) (c : BitVec 8) : RoundTrip.Statement (Instr.mcbt w p f c) := by
  refine fun hw => ⟨fun x h => ?_, fun c x h => by cases c <;> simp [Command.instr] at h⟩
  cases h
  show decodeY (fmtM w 0x0f (p ++ f ++ c ++ 0x0#4)) = _
  rw [show fmtM w 0x0f (p ++ f ++ c ++ 0x0#4) = @BitVec.cast (4 + 5 + (3 + 8 + 8 + 4)) 32 rfl (w ++ 0x0f#5 ++ (p ++ f ++ c ++ 0x0#4)) from rfl]
  unfold decodeY
  rw [show BitVec.extractLsb' 23 5 (@BitVec.cast (4 + 5 + (3 + 8 + 8 + 4)) 32 rfl (w ++ 0x0f#5 ++ (p ++ f ++ c ++ 0x0#4))) = 0x0f#5 from by
    simp (disch := decide) only [extract_cast, BitVec.extractLsb'_append_eq_of_le, BitVec.extractLsb'_append_eq_of_add_le]
    exact BitVec.extractLsb'_eq_self]
  dsimp only
  simp (disch := decide) only [extract_cast, extract_extract, BitVec.extractLsb'_append_eq_of_le, BitVec.extractLsb'_append_eq_of_add_le]
  simp only [Nat.reduceSub, Nat.reduceAdd, BitVec.extractLsb'_eq_self]
  exact assigned_ok hw
theorem RoundTrip.vnop (w : BitVec 4) : RoundTrip.Statement (Instr.vnop w) := by
  refine fun hw => ⟨fun x h => ?_, fun c x h => by cases c <;> simp [Command.instr] at h⟩
  cases h
  clear hw; revert w; decide
theorem RoundTrip.vadd (w : BitVec 4) (d : BitVec 5) (a : BitVec 5) (b : BitVec 5) (m : BitVec 3) : RoundTrip.Statement (Instr.vadd w d a b m) := by
  refine fun hw => ⟨fun x h => ?_, fun c x h => by cases c <;> simp [Command.instr] at h⟩
  cases h
  show decodeV (fmtV w 0x01 d a b (m ++ 0x0#4)) = _
  rw [show fmtV w 0x01 d a b (m ++ 0x0#4) = @BitVec.cast (4 + 6 + 5 + 5 + 5 + (3 + 4)) 32 rfl (w ++ 0x01#6 ++ d ++ a ++ b ++ (m ++ 0x0#4)) from rfl]
  unfold decodeV
  rw [show BitVec.extractLsb' 22 6 (@BitVec.cast (4 + 6 + 5 + 5 + 5 + (3 + 4)) 32 rfl (w ++ 0x01#6 ++ d ++ a ++ b ++ (m ++ 0x0#4))) = 0x01#6 from by
    simp (disch := decide) only [extract_cast, BitVec.extractLsb'_append_eq_of_le, BitVec.extractLsb'_append_eq_of_add_le]
    exact BitVec.extractLsb'_eq_self]
  dsimp only
  simp (disch := decide) only [extract_cast, extract_extract, BitVec.extractLsb'_append_eq_of_le, BitVec.extractLsb'_append_eq_of_add_le]
  simp only [Nat.reduceSub, Nat.reduceAdd, BitVec.extractLsb'_eq_self]
  exact assigned_ok hw
theorem RoundTrip.vsub (w : BitVec 4) (d : BitVec 5) (a : BitVec 5) (b : BitVec 5) (m : BitVec 3) : RoundTrip.Statement (Instr.vsub w d a b m) := by
  refine fun hw => ⟨fun x h => ?_, fun c x h => by cases c <;> simp [Command.instr] at h⟩
  cases h
  show decodeV (fmtV w 0x02 d a b (m ++ 0x0#4)) = _
  rw [show fmtV w 0x02 d a b (m ++ 0x0#4) = @BitVec.cast (4 + 6 + 5 + 5 + 5 + (3 + 4)) 32 rfl (w ++ 0x02#6 ++ d ++ a ++ b ++ (m ++ 0x0#4)) from rfl]
  unfold decodeV
  rw [show BitVec.extractLsb' 22 6 (@BitVec.cast (4 + 6 + 5 + 5 + 5 + (3 + 4)) 32 rfl (w ++ 0x02#6 ++ d ++ a ++ b ++ (m ++ 0x0#4))) = 0x02#6 from by
    simp (disch := decide) only [extract_cast, BitVec.extractLsb'_append_eq_of_le, BitVec.extractLsb'_append_eq_of_add_le]
    exact BitVec.extractLsb'_eq_self]
  dsimp only
  simp (disch := decide) only [extract_cast, extract_extract, BitVec.extractLsb'_append_eq_of_le, BitVec.extractLsb'_append_eq_of_add_le]
  simp only [Nat.reduceSub, Nat.reduceAdd, BitVec.extractLsb'_eq_self]
  exact assigned_ok hw
theorem RoundTrip.vmul (w : BitVec 4) (d : BitVec 5) (a : BitVec 5) (b : BitVec 5) (m : BitVec 3) : RoundTrip.Statement (Instr.vmul w d a b m) := by
  refine fun hw => ⟨fun x h => ?_, fun c x h => by cases c <;> simp [Command.instr] at h⟩
  cases h
  show decodeV (fmtV w 0x03 d a b (m ++ 0x0#4)) = _
  rw [show fmtV w 0x03 d a b (m ++ 0x0#4) = @BitVec.cast (4 + 6 + 5 + 5 + 5 + (3 + 4)) 32 rfl (w ++ 0x03#6 ++ d ++ a ++ b ++ (m ++ 0x0#4)) from rfl]
  unfold decodeV
  rw [show BitVec.extractLsb' 22 6 (@BitVec.cast (4 + 6 + 5 + 5 + 5 + (3 + 4)) 32 rfl (w ++ 0x03#6 ++ d ++ a ++ b ++ (m ++ 0x0#4))) = 0x03#6 from by
    simp (disch := decide) only [extract_cast, BitVec.extractLsb'_append_eq_of_le, BitVec.extractLsb'_append_eq_of_add_le]
    exact BitVec.extractLsb'_eq_self]
  dsimp only
  simp (disch := decide) only [extract_cast, extract_extract, BitVec.extractLsb'_append_eq_of_le, BitVec.extractLsb'_append_eq_of_add_le]
  simp only [Nat.reduceSub, Nat.reduceAdd, BitVec.extractLsb'_eq_self]
  exact assigned_ok hw
theorem RoundTrip.vfma (w : BitVec 4) (d : BitVec 5) (a : BitVec 5) (b : BitVec 5) (m : BitVec 3) : RoundTrip.Statement (Instr.vfma w d a b m) := by
  refine fun hw => ⟨fun x h => ?_, fun c x h => by cases c <;> simp [Command.instr] at h⟩
  cases h
  show decodeV (fmtV w 0x04 d a b (m ++ 0x0#4)) = _
  rw [show fmtV w 0x04 d a b (m ++ 0x0#4) = @BitVec.cast (4 + 6 + 5 + 5 + 5 + (3 + 4)) 32 rfl (w ++ 0x04#6 ++ d ++ a ++ b ++ (m ++ 0x0#4)) from rfl]
  unfold decodeV
  rw [show BitVec.extractLsb' 22 6 (@BitVec.cast (4 + 6 + 5 + 5 + 5 + (3 + 4)) 32 rfl (w ++ 0x04#6 ++ d ++ a ++ b ++ (m ++ 0x0#4))) = 0x04#6 from by
    simp (disch := decide) only [extract_cast, BitVec.extractLsb'_append_eq_of_le, BitVec.extractLsb'_append_eq_of_add_le]
    exact BitVec.extractLsb'_eq_self]
  dsimp only
  simp (disch := decide) only [extract_cast, extract_extract, BitVec.extractLsb'_append_eq_of_le, BitVec.extractLsb'_append_eq_of_add_le]
  simp only [Nat.reduceSub, Nat.reduceAdd, BitVec.extractLsb'_eq_self]
  exact assigned_ok hw
theorem RoundTrip.vmin (w : BitVec 4) (d : BitVec 5) (a : BitVec 5) (b : BitVec 5) : RoundTrip.Statement (Instr.vmin w d a b) := by
  refine fun hw => ⟨fun x h => ?_, fun c x h => by cases c <;> simp [Command.instr] at h⟩
  cases h
  show decodeV (fmtV w 0x05 d a b 0x0#7) = _
  rw [show fmtV w 0x05 d a b 0x0#7 = @BitVec.cast (4 + 6 + 5 + 5 + 5 + 7) 32 rfl (w ++ 0x05#6 ++ d ++ a ++ b ++ 0x0#7) from rfl]
  unfold decodeV
  rw [show BitVec.extractLsb' 22 6 (@BitVec.cast (4 + 6 + 5 + 5 + 5 + 7) 32 rfl (w ++ 0x05#6 ++ d ++ a ++ b ++ 0x0#7)) = 0x05#6 from by
    simp (disch := decide) only [extract_cast, BitVec.extractLsb'_append_eq_of_le, BitVec.extractLsb'_append_eq_of_add_le]
    exact BitVec.extractLsb'_eq_self]
  dsimp only
  simp (disch := decide) only [extract_cast, extract_extract, BitVec.extractLsb'_append_eq_of_le, BitVec.extractLsb'_append_eq_of_add_le]
  simp only [Nat.reduceSub, Nat.reduceAdd, BitVec.extractLsb'_eq_self]
  all_goals rfl
theorem RoundTrip.vmax (w : BitVec 4) (d : BitVec 5) (a : BitVec 5) (b : BitVec 5) : RoundTrip.Statement (Instr.vmax w d a b) := by
  refine fun hw => ⟨fun x h => ?_, fun c x h => by cases c <;> simp [Command.instr] at h⟩
  cases h
  show decodeV (fmtV w 0x06 d a b 0x0#7) = _
  rw [show fmtV w 0x06 d a b 0x0#7 = @BitVec.cast (4 + 6 + 5 + 5 + 5 + 7) 32 rfl (w ++ 0x06#6 ++ d ++ a ++ b ++ 0x0#7) from rfl]
  unfold decodeV
  rw [show BitVec.extractLsb' 22 6 (@BitVec.cast (4 + 6 + 5 + 5 + 5 + 7) 32 rfl (w ++ 0x06#6 ++ d ++ a ++ b ++ 0x0#7)) = 0x06#6 from by
    simp (disch := decide) only [extract_cast, BitVec.extractLsb'_append_eq_of_le, BitVec.extractLsb'_append_eq_of_add_le]
    exact BitVec.extractLsb'_eq_self]
  dsimp only
  simp (disch := decide) only [extract_cast, extract_extract, BitVec.extractLsb'_append_eq_of_le, BitVec.extractLsb'_append_eq_of_add_le]
  simp only [Nat.reduceSub, Nat.reduceAdd, BitVec.extractLsb'_eq_self]
  all_goals rfl
theorem RoundTrip.vabs (w : BitVec 4) (d : BitVec 5) (a : BitVec 5) : RoundTrip.Statement (Instr.vabs w d a) := by
  refine fun hw => ⟨fun x h => ?_, fun c x h => by cases c <;> simp [Command.instr] at h⟩
  cases h
  show decodeV (fmtV w 0x07 d a 0x0#5 0x0#7) = _
  rw [show fmtV w 0x07 d a 0x0#5 0x0#7 = @BitVec.cast (4 + 6 + 5 + 5 + 5 + 7) 32 rfl (w ++ 0x07#6 ++ d ++ a ++ 0x0#5 ++ 0x0#7) from rfl]
  unfold decodeV
  rw [show BitVec.extractLsb' 22 6 (@BitVec.cast (4 + 6 + 5 + 5 + 5 + 7) 32 rfl (w ++ 0x07#6 ++ d ++ a ++ 0x0#5 ++ 0x0#7)) = 0x07#6 from by
    simp (disch := decide) only [extract_cast, BitVec.extractLsb'_append_eq_of_le, BitVec.extractLsb'_append_eq_of_add_le]
    exact BitVec.extractLsb'_eq_self]
  dsimp only
  simp (disch := decide) only [extract_cast, extract_extract, BitVec.extractLsb'_append_eq_of_le, BitVec.extractLsb'_append_eq_of_add_le]
  simp only [Nat.reduceSub, Nat.reduceAdd, BitVec.extractLsb'_eq_self]
  all_goals rfl
theorem RoundTrip.vneg (w : BitVec 4) (d : BitVec 5) (a : BitVec 5) : RoundTrip.Statement (Instr.vneg w d a) := by
  refine fun hw => ⟨fun x h => ?_, fun c x h => by cases c <;> simp [Command.instr] at h⟩
  cases h
  show decodeV (fmtV w 0x08 d a 0x0#5 0x0#7) = _
  rw [show fmtV w 0x08 d a 0x0#5 0x0#7 = @BitVec.cast (4 + 6 + 5 + 5 + 5 + 7) 32 rfl (w ++ 0x08#6 ++ d ++ a ++ 0x0#5 ++ 0x0#7) from rfl]
  unfold decodeV
  rw [show BitVec.extractLsb' 22 6 (@BitVec.cast (4 + 6 + 5 + 5 + 5 + 7) 32 rfl (w ++ 0x08#6 ++ d ++ a ++ 0x0#5 ++ 0x0#7)) = 0x08#6 from by
    simp (disch := decide) only [extract_cast, BitVec.extractLsb'_append_eq_of_le, BitVec.extractLsb'_append_eq_of_add_le]
    exact BitVec.extractLsb'_eq_self]
  dsimp only
  simp (disch := decide) only [extract_cast, extract_extract, BitVec.extractLsb'_append_eq_of_le, BitVec.extractLsb'_append_eq_of_add_le]
  simp only [Nat.reduceSub, Nat.reduceAdd, BitVec.extractLsb'_eq_self]
  all_goals rfl
theorem RoundTrip.vcmp (w : BitVec 4) (a : BitVec 5) (b : BitVec 5) (i : BitVec 1) (c : BitVec 3) : RoundTrip.Statement (Instr.vcmp w a b i c) := by
  refine fun hw => ⟨fun x h => ?_, fun c x h => by cases c <;> simp [Command.instr] at h⟩
  cases h
  show decodeV (fmtV w 0x09 0x0#5 a b (0x0#3 ++ i ++ c)) = _
  rw [show fmtV w 0x09 0x0#5 a b (0x0#3 ++ i ++ c) = @BitVec.cast (4 + 6 + 5 + 5 + 5 + (3 + 1 + 3)) 32 rfl (w ++ 0x09#6 ++ 0x0#5 ++ a ++ b ++ (0x0#3 ++ i ++ c)) from rfl]
  unfold decodeV
  rw [show BitVec.extractLsb' 22 6 (@BitVec.cast (4 + 6 + 5 + 5 + 5 + (3 + 1 + 3)) 32 rfl (w ++ 0x09#6 ++ 0x0#5 ++ a ++ b ++ (0x0#3 ++ i ++ c))) = 0x09#6 from by
    simp (disch := decide) only [extract_cast, BitVec.extractLsb'_append_eq_of_le, BitVec.extractLsb'_append_eq_of_add_le]
    exact BitVec.extractLsb'_eq_self]
  dsimp only
  simp (disch := decide) only [extract_cast, extract_extract, BitVec.extractLsb'_append_eq_of_le, BitVec.extractLsb'_append_eq_of_add_le]
  simp only [Nat.reduceSub, Nat.reduceAdd, BitVec.extractLsb'_eq_self]
  exact assigned_ok hw
theorem RoundTrip.vcvt (w : BitVec 4) (d : BitVec 5) (a : BitVec 5) (g : BitVec 4) (x : BitVec 1) (m : BitVec 3) (h : BitVec 4) : RoundTrip.Statement (Instr.vcvt w d a g x m h) := by
  refine fun hw => ⟨fun x h => ?_, fun c x h => by cases c <;> simp [Command.instr] at h⟩
  cases h
  show decodeV (fmtV w 0x0a d a (g ++ x) (m ++ h)) = _
  rw [show fmtV w 0x0a d a (g ++ x) (m ++ h) = @BitVec.cast (4 + 6 + 5 + 5 + (4 + 1) + (3 + 4)) 32 rfl (w ++ 0x0a#6 ++ d ++ a ++ (g ++ x) ++ (m ++ h)) from rfl]
  unfold decodeV
  rw [show BitVec.extractLsb' 22 6 (@BitVec.cast (4 + 6 + 5 + 5 + (4 + 1) + (3 + 4)) 32 rfl (w ++ 0x0a#6 ++ d ++ a ++ (g ++ x) ++ (m ++ h))) = 0x0a#6 from by
    simp (disch := decide) only [extract_cast, BitVec.extractLsb'_append_eq_of_le, BitVec.extractLsb'_append_eq_of_add_le]
    exact BitVec.extractLsb'_eq_self]
  dsimp only
  simp (disch := decide) only [extract_cast, extract_extract, BitVec.extractLsb'_append_eq_of_le, BitVec.extractLsb'_append_eq_of_add_le]
  simp only [Nat.reduceSub, Nat.reduceAdd, BitVec.extractLsb'_eq_self]
  exact assigned_ok hw
theorem RoundTrip.vexp2 (w : BitVec 4) (d : BitVec 5) (a : BitVec 5) : RoundTrip.Statement (Instr.vexp2 w d a) := by
  refine fun hw => ⟨fun x h => ?_, fun c x h => by cases c <;> simp [Command.instr] at h⟩
  cases h
  show decodeV (fmtV w 0x0b d a 0x0#5 0x0#7) = _
  rw [show fmtV w 0x0b d a 0x0#5 0x0#7 = @BitVec.cast (4 + 6 + 5 + 5 + 5 + 7) 32 rfl (w ++ 0x0b#6 ++ d ++ a ++ 0x0#5 ++ 0x0#7) from rfl]
  unfold decodeV
  rw [show BitVec.extractLsb' 22 6 (@BitVec.cast (4 + 6 + 5 + 5 + 5 + 7) 32 rfl (w ++ 0x0b#6 ++ d ++ a ++ 0x0#5 ++ 0x0#7)) = 0x0b#6 from by
    simp (disch := decide) only [extract_cast, BitVec.extractLsb'_append_eq_of_le, BitVec.extractLsb'_append_eq_of_add_le]
    exact BitVec.extractLsb'_eq_self]
  dsimp only
  simp (disch := decide) only [extract_cast, extract_extract, BitVec.extractLsb'_append_eq_of_le, BitVec.extractLsb'_append_eq_of_add_le]
  simp only [Nat.reduceSub, Nat.reduceAdd, BitVec.extractLsb'_eq_self]
  all_goals rfl
theorem RoundTrip.vexpd (w : BitVec 4) (d : BitVec 5) (a : BitVec 5) (b : BitVec 5) : RoundTrip.Statement (Instr.vexpd w d a b) := by
  refine fun hw => ⟨fun x h => ?_, fun c x h => by cases c <;> simp [Command.instr] at h⟩
  cases h
  show decodeV (fmtV w 0x0c d a b 0x0#7) = _
  rw [show fmtV w 0x0c d a b 0x0#7 = @BitVec.cast (4 + 6 + 5 + 5 + 5 + 7) 32 rfl (w ++ 0x0c#6 ++ d ++ a ++ b ++ 0x0#7) from rfl]
  unfold decodeV
  rw [show BitVec.extractLsb' 22 6 (@BitVec.cast (4 + 6 + 5 + 5 + 5 + 7) 32 rfl (w ++ 0x0c#6 ++ d ++ a ++ b ++ 0x0#7)) = 0x0c#6 from by
    simp (disch := decide) only [extract_cast, BitVec.extractLsb'_append_eq_of_le, BitVec.extractLsb'_append_eq_of_add_le]
    exact BitVec.extractLsb'_eq_self]
  dsimp only
  simp (disch := decide) only [extract_cast, extract_extract, BitVec.extractLsb'_append_eq_of_le, BitVec.extractLsb'_append_eq_of_add_le]
  simp only [Nat.reduceSub, Nat.reduceAdd, BitVec.extractLsb'_eq_self]
  all_goals rfl
theorem RoundTrip.vlog2 (w : BitVec 4) (d : BitVec 5) (a : BitVec 5) : RoundTrip.Statement (Instr.vlog2 w d a) := by
  refine fun hw => ⟨fun x h => ?_, fun c x h => by cases c <;> simp [Command.instr] at h⟩
  cases h
  show decodeV (fmtV w 0x0d d a 0x0#5 0x0#7) = _
  rw [show fmtV w 0x0d d a 0x0#5 0x0#7 = @BitVec.cast (4 + 6 + 5 + 5 + 5 + 7) 32 rfl (w ++ 0x0d#6 ++ d ++ a ++ 0x0#5 ++ 0x0#7) from rfl]
  unfold decodeV
  rw [show BitVec.extractLsb' 22 6 (@BitVec.cast (4 + 6 + 5 + 5 + 5 + 7) 32 rfl (w ++ 0x0d#6 ++ d ++ a ++ 0x0#5 ++ 0x0#7)) = 0x0d#6 from by
    simp (disch := decide) only [extract_cast, BitVec.extractLsb'_append_eq_of_le, BitVec.extractLsb'_append_eq_of_add_le]
    exact BitVec.extractLsb'_eq_self]
  dsimp only
  simp (disch := decide) only [extract_cast, extract_extract, BitVec.extractLsb'_append_eq_of_le, BitVec.extractLsb'_append_eq_of_add_le]
  simp only [Nat.reduceSub, Nat.reduceAdd, BitVec.extractLsb'_eq_self]
  all_goals rfl
theorem RoundTrip.vrcp (w : BitVec 4) (d : BitVec 5) (a : BitVec 5) : RoundTrip.Statement (Instr.vrcp w d a) := by
  refine fun hw => ⟨fun x h => ?_, fun c x h => by cases c <;> simp [Command.instr] at h⟩
  cases h
  show decodeV (fmtV w 0x0e d a 0x0#5 0x0#7) = _
  rw [show fmtV w 0x0e d a 0x0#5 0x0#7 = @BitVec.cast (4 + 6 + 5 + 5 + 5 + 7) 32 rfl (w ++ 0x0e#6 ++ d ++ a ++ 0x0#5 ++ 0x0#7) from rfl]
  unfold decodeV
  rw [show BitVec.extractLsb' 22 6 (@BitVec.cast (4 + 6 + 5 + 5 + 5 + 7) 32 rfl (w ++ 0x0e#6 ++ d ++ a ++ 0x0#5 ++ 0x0#7)) = 0x0e#6 from by
    simp (disch := decide) only [extract_cast, BitVec.extractLsb'_append_eq_of_le, BitVec.extractLsb'_append_eq_of_add_le]
    exact BitVec.extractLsb'_eq_self]
  dsimp only
  simp (disch := decide) only [extract_cast, extract_extract, BitVec.extractLsb'_append_eq_of_le, BitVec.extractLsb'_append_eq_of_add_le]
  simp only [Nat.reduceSub, Nat.reduceAdd, BitVec.extractLsb'_eq_self]
  all_goals rfl
theorem RoundTrip.vrsq (w : BitVec 4) (d : BitVec 5) (a : BitVec 5) : RoundTrip.Statement (Instr.vrsq w d a) := by
  refine fun hw => ⟨fun x h => ?_, fun c x h => by cases c <;> simp [Command.instr] at h⟩
  cases h
  show decodeV (fmtV w 0x0f d a 0x0#5 0x0#7) = _
  rw [show fmtV w 0x0f d a 0x0#5 0x0#7 = @BitVec.cast (4 + 6 + 5 + 5 + 5 + 7) 32 rfl (w ++ 0x0f#6 ++ d ++ a ++ 0x0#5 ++ 0x0#7) from rfl]
  unfold decodeV
  rw [show BitVec.extractLsb' 22 6 (@BitVec.cast (4 + 6 + 5 + 5 + 5 + 7) 32 rfl (w ++ 0x0f#6 ++ d ++ a ++ 0x0#5 ++ 0x0#7)) = 0x0f#6 from by
    simp (disch := decide) only [extract_cast, BitVec.extractLsb'_append_eq_of_le, BitVec.extractLsb'_append_eq_of_add_le]
    exact BitVec.extractLsb'_eq_self]
  dsimp only
  simp (disch := decide) only [extract_cast, extract_extract, BitVec.extractLsb'_append_eq_of_le, BitVec.extractLsb'_append_eq_of_add_le]
  simp only [Nat.reduceSub, Nat.reduceAdd, BitVec.extractLsb'_eq_self]
  all_goals rfl
theorem RoundTrip.viadd (w : BitVec 4) (d : BitVec 5) (a : BitVec 5) (b : BitVec 5) : RoundTrip.Statement (Instr.viadd w d a b) := by
  refine fun hw => ⟨fun x h => ?_, fun c x h => by cases c <;> simp [Command.instr] at h⟩
  cases h
  show decodeV (fmtV w 0x10 d a b 0x0#7) = _
  rw [show fmtV w 0x10 d a b 0x0#7 = @BitVec.cast (4 + 6 + 5 + 5 + 5 + 7) 32 rfl (w ++ 0x10#6 ++ d ++ a ++ b ++ 0x0#7) from rfl]
  unfold decodeV
  rw [show BitVec.extractLsb' 22 6 (@BitVec.cast (4 + 6 + 5 + 5 + 5 + 7) 32 rfl (w ++ 0x10#6 ++ d ++ a ++ b ++ 0x0#7)) = 0x10#6 from by
    simp (disch := decide) only [extract_cast, BitVec.extractLsb'_append_eq_of_le, BitVec.extractLsb'_append_eq_of_add_le]
    exact BitVec.extractLsb'_eq_self]
  dsimp only
  simp (disch := decide) only [extract_cast, extract_extract, BitVec.extractLsb'_append_eq_of_le, BitVec.extractLsb'_append_eq_of_add_le]
  simp only [Nat.reduceSub, Nat.reduceAdd, BitVec.extractLsb'_eq_self]
  all_goals rfl
theorem RoundTrip.visub (w : BitVec 4) (d : BitVec 5) (a : BitVec 5) (b : BitVec 5) : RoundTrip.Statement (Instr.visub w d a b) := by
  refine fun hw => ⟨fun x h => ?_, fun c x h => by cases c <;> simp [Command.instr] at h⟩
  cases h
  show decodeV (fmtV w 0x11 d a b 0x0#7) = _
  rw [show fmtV w 0x11 d a b 0x0#7 = @BitVec.cast (4 + 6 + 5 + 5 + 5 + 7) 32 rfl (w ++ 0x11#6 ++ d ++ a ++ b ++ 0x0#7) from rfl]
  unfold decodeV
  rw [show BitVec.extractLsb' 22 6 (@BitVec.cast (4 + 6 + 5 + 5 + 5 + 7) 32 rfl (w ++ 0x11#6 ++ d ++ a ++ b ++ 0x0#7)) = 0x11#6 from by
    simp (disch := decide) only [extract_cast, BitVec.extractLsb'_append_eq_of_le, BitVec.extractLsb'_append_eq_of_add_le]
    exact BitVec.extractLsb'_eq_self]
  dsimp only
  simp (disch := decide) only [extract_cast, extract_extract, BitVec.extractLsb'_append_eq_of_le, BitVec.extractLsb'_append_eq_of_add_le]
  simp only [Nat.reduceSub, Nat.reduceAdd, BitVec.extractLsb'_eq_self]
  all_goals rfl
theorem RoundTrip.vimul (w : BitVec 4) (d : BitVec 5) (a : BitVec 5) (b : BitVec 5) : RoundTrip.Statement (Instr.vimul w d a b) := by
  refine fun hw => ⟨fun x h => ?_, fun c x h => by cases c <;> simp [Command.instr] at h⟩
  cases h
  show decodeV (fmtV w 0x12 d a b 0x0#7) = _
  rw [show fmtV w 0x12 d a b 0x0#7 = @BitVec.cast (4 + 6 + 5 + 5 + 5 + 7) 32 rfl (w ++ 0x12#6 ++ d ++ a ++ b ++ 0x0#7) from rfl]
  unfold decodeV
  rw [show BitVec.extractLsb' 22 6 (@BitVec.cast (4 + 6 + 5 + 5 + 5 + 7) 32 rfl (w ++ 0x12#6 ++ d ++ a ++ b ++ 0x0#7)) = 0x12#6 from by
    simp (disch := decide) only [extract_cast, BitVec.extractLsb'_append_eq_of_le, BitVec.extractLsb'_append_eq_of_add_le]
    exact BitVec.extractLsb'_eq_self]
  dsimp only
  simp (disch := decide) only [extract_cast, extract_extract, BitVec.extractLsb'_append_eq_of_le, BitVec.extractLsb'_append_eq_of_add_le]
  simp only [Nat.reduceSub, Nat.reduceAdd, BitVec.extractLsb'_eq_self]
  all_goals rfl
theorem RoundTrip.vand (w : BitVec 4) (d : BitVec 5) (a : BitVec 5) (b : BitVec 5) : RoundTrip.Statement (Instr.vand w d a b) := by
  refine fun hw => ⟨fun x h => ?_, fun c x h => by cases c <;> simp [Command.instr] at h⟩
  cases h
  show decodeV (fmtV w 0x13 d a b 0x0#7) = _
  rw [show fmtV w 0x13 d a b 0x0#7 = @BitVec.cast (4 + 6 + 5 + 5 + 5 + 7) 32 rfl (w ++ 0x13#6 ++ d ++ a ++ b ++ 0x0#7) from rfl]
  unfold decodeV
  rw [show BitVec.extractLsb' 22 6 (@BitVec.cast (4 + 6 + 5 + 5 + 5 + 7) 32 rfl (w ++ 0x13#6 ++ d ++ a ++ b ++ 0x0#7)) = 0x13#6 from by
    simp (disch := decide) only [extract_cast, BitVec.extractLsb'_append_eq_of_le, BitVec.extractLsb'_append_eq_of_add_le]
    exact BitVec.extractLsb'_eq_self]
  dsimp only
  simp (disch := decide) only [extract_cast, extract_extract, BitVec.extractLsb'_append_eq_of_le, BitVec.extractLsb'_append_eq_of_add_le]
  simp only [Nat.reduceSub, Nat.reduceAdd, BitVec.extractLsb'_eq_self]
  all_goals rfl
theorem RoundTrip.vor (w : BitVec 4) (d : BitVec 5) (a : BitVec 5) (b : BitVec 5) : RoundTrip.Statement (Instr.vor w d a b) := by
  refine fun hw => ⟨fun x h => ?_, fun c x h => by cases c <;> simp [Command.instr] at h⟩
  cases h
  show decodeV (fmtV w 0x14 d a b 0x0#7) = _
  rw [show fmtV w 0x14 d a b 0x0#7 = @BitVec.cast (4 + 6 + 5 + 5 + 5 + 7) 32 rfl (w ++ 0x14#6 ++ d ++ a ++ b ++ 0x0#7) from rfl]
  unfold decodeV
  rw [show BitVec.extractLsb' 22 6 (@BitVec.cast (4 + 6 + 5 + 5 + 5 + 7) 32 rfl (w ++ 0x14#6 ++ d ++ a ++ b ++ 0x0#7)) = 0x14#6 from by
    simp (disch := decide) only [extract_cast, BitVec.extractLsb'_append_eq_of_le, BitVec.extractLsb'_append_eq_of_add_le]
    exact BitVec.extractLsb'_eq_self]
  dsimp only
  simp (disch := decide) only [extract_cast, extract_extract, BitVec.extractLsb'_append_eq_of_le, BitVec.extractLsb'_append_eq_of_add_le]
  simp only [Nat.reduceSub, Nat.reduceAdd, BitVec.extractLsb'_eq_self]
  all_goals rfl
theorem RoundTrip.vxor (w : BitVec 4) (d : BitVec 5) (a : BitVec 5) (b : BitVec 5) : RoundTrip.Statement (Instr.vxor w d a b) := by
  refine fun hw => ⟨fun x h => ?_, fun c x h => by cases c <;> simp [Command.instr] at h⟩
  cases h
  show decodeV (fmtV w 0x15 d a b 0x0#7) = _
  rw [show fmtV w 0x15 d a b 0x0#7 = @BitVec.cast (4 + 6 + 5 + 5 + 5 + 7) 32 rfl (w ++ 0x15#6 ++ d ++ a ++ b ++ 0x0#7) from rfl]
  unfold decodeV
  rw [show BitVec.extractLsb' 22 6 (@BitVec.cast (4 + 6 + 5 + 5 + 5 + 7) 32 rfl (w ++ 0x15#6 ++ d ++ a ++ b ++ 0x0#7)) = 0x15#6 from by
    simp (disch := decide) only [extract_cast, BitVec.extractLsb'_append_eq_of_le, BitVec.extractLsb'_append_eq_of_add_le]
    exact BitVec.extractLsb'_eq_self]
  dsimp only
  simp (disch := decide) only [extract_cast, extract_extract, BitVec.extractLsb'_append_eq_of_le, BitVec.extractLsb'_append_eq_of_add_le]
  simp only [Nat.reduceSub, Nat.reduceAdd, BitVec.extractLsb'_eq_self]
  all_goals rfl
theorem RoundTrip.vshl (w : BitVec 4) (d : BitVec 5) (a : BitVec 5) (b : BitVec 5) : RoundTrip.Statement (Instr.vshl w d a b) := by
  refine fun hw => ⟨fun x h => ?_, fun c x h => by cases c <;> simp [Command.instr] at h⟩
  cases h
  show decodeV (fmtV w 0x16 d a b 0x0#7) = _
  rw [show fmtV w 0x16 d a b 0x0#7 = @BitVec.cast (4 + 6 + 5 + 5 + 5 + 7) 32 rfl (w ++ 0x16#6 ++ d ++ a ++ b ++ 0x0#7) from rfl]
  unfold decodeV
  rw [show BitVec.extractLsb' 22 6 (@BitVec.cast (4 + 6 + 5 + 5 + 5 + 7) 32 rfl (w ++ 0x16#6 ++ d ++ a ++ b ++ 0x0#7)) = 0x16#6 from by
    simp (disch := decide) only [extract_cast, BitVec.extractLsb'_append_eq_of_le, BitVec.extractLsb'_append_eq_of_add_le]
    exact BitVec.extractLsb'_eq_self]
  dsimp only
  simp (disch := decide) only [extract_cast, extract_extract, BitVec.extractLsb'_append_eq_of_le, BitVec.extractLsb'_append_eq_of_add_le]
  simp only [Nat.reduceSub, Nat.reduceAdd, BitVec.extractLsb'_eq_self]
  all_goals rfl
theorem RoundTrip.vshr (w : BitVec 4) (d : BitVec 5) (a : BitVec 5) (b : BitVec 5) : RoundTrip.Statement (Instr.vshr w d a b) := by
  refine fun hw => ⟨fun x h => ?_, fun c x h => by cases c <;> simp [Command.instr] at h⟩
  cases h
  show decodeV (fmtV w 0x17 d a b 0x0#7) = _
  rw [show fmtV w 0x17 d a b 0x0#7 = @BitVec.cast (4 + 6 + 5 + 5 + 5 + 7) 32 rfl (w ++ 0x17#6 ++ d ++ a ++ b ++ 0x0#7) from rfl]
  unfold decodeV
  rw [show BitVec.extractLsb' 22 6 (@BitVec.cast (4 + 6 + 5 + 5 + 5 + 7) 32 rfl (w ++ 0x17#6 ++ d ++ a ++ b ++ 0x0#7)) = 0x17#6 from by
    simp (disch := decide) only [extract_cast, BitVec.extractLsb'_append_eq_of_le, BitVec.extractLsb'_append_eq_of_add_le]
    exact BitVec.extractLsb'_eq_self]
  dsimp only
  simp (disch := decide) only [extract_cast, extract_extract, BitVec.extractLsb'_append_eq_of_le, BitVec.extractLsb'_append_eq_of_add_le]
  simp only [Nat.reduceSub, Nat.reduceAdd, BitVec.extractLsb'_eq_self]
  all_goals rfl
theorem RoundTrip.vsar (w : BitVec 4) (d : BitVec 5) (a : BitVec 5) (b : BitVec 5) : RoundTrip.Statement (Instr.vsar w d a b) := by
  refine fun hw => ⟨fun x h => ?_, fun c x h => by cases c <;> simp [Command.instr] at h⟩
  cases h
  show decodeV (fmtV w 0x18 d a b 0x0#7) = _
  rw [show fmtV w 0x18 d a b 0x0#7 = @BitVec.cast (4 + 6 + 5 + 5 + 5 + 7) 32 rfl (w ++ 0x18#6 ++ d ++ a ++ b ++ 0x0#7) from rfl]
  unfold decodeV
  rw [show BitVec.extractLsb' 22 6 (@BitVec.cast (4 + 6 + 5 + 5 + 5 + 7) 32 rfl (w ++ 0x18#6 ++ d ++ a ++ b ++ 0x0#7)) = 0x18#6 from by
    simp (disch := decide) only [extract_cast, BitVec.extractLsb'_append_eq_of_le, BitVec.extractLsb'_append_eq_of_add_le]
    exact BitVec.extractLsb'_eq_self]
  dsimp only
  simp (disch := decide) only [extract_cast, extract_extract, BitVec.extractLsb'_append_eq_of_le, BitVec.extractLsb'_append_eq_of_add_le]
  simp only [Nat.reduceSub, Nat.reduceAdd, BitVec.extractLsb'_eq_self]
  all_goals rfl
theorem RoundTrip.vsel (w : BitVec 4) (d : BitVec 5) (a : BitVec 5) (b : BitVec 5) : RoundTrip.Statement (Instr.vsel w d a b) := by
  refine fun hw => ⟨fun x h => ?_, fun c x h => by cases c <;> simp [Command.instr] at h⟩
  cases h
  show decodeV (fmtV w 0x19 d a b 0x0#7) = _
  rw [show fmtV w 0x19 d a b 0x0#7 = @BitVec.cast (4 + 6 + 5 + 5 + 5 + 7) 32 rfl (w ++ 0x19#6 ++ d ++ a ++ b ++ 0x0#7) from rfl]
  unfold decodeV
  rw [show BitVec.extractLsb' 22 6 (@BitVec.cast (4 + 6 + 5 + 5 + 5 + 7) 32 rfl (w ++ 0x19#6 ++ d ++ a ++ b ++ 0x0#7)) = 0x19#6 from by
    simp (disch := decide) only [extract_cast, BitVec.extractLsb'_append_eq_of_le, BitVec.extractLsb'_append_eq_of_add_le]
    exact BitVec.extractLsb'_eq_self]
  dsimp only
  simp (disch := decide) only [extract_cast, extract_extract, BitVec.extractLsb'_append_eq_of_le, BitVec.extractLsb'_append_eq_of_add_le]
  simp only [Nat.reduceSub, Nat.reduceAdd, BitVec.extractLsb'_eq_self]
  all_goals rfl
theorem RoundTrip.vmov (w : BitVec 4) (d : BitVec 5) (a : BitVec 5) : RoundTrip.Statement (Instr.vmov w d a) := by
  refine fun hw => ⟨fun x h => ?_, fun c x h => by cases c <;> simp [Command.instr] at h⟩
  cases h
  show decodeV (fmtV w 0x1a d a 0x0#5 0x0#7) = _
  rw [show fmtV w 0x1a d a 0x0#5 0x0#7 = @BitVec.cast (4 + 6 + 5 + 5 + 5 + 7) 32 rfl (w ++ 0x1a#6 ++ d ++ a ++ 0x0#5 ++ 0x0#7) from rfl]
  unfold decodeV
  rw [show BitVec.extractLsb' 22 6 (@BitVec.cast (4 + 6 + 5 + 5 + 5 + 7) 32 rfl (w ++ 0x1a#6 ++ d ++ a ++ 0x0#5 ++ 0x0#7)) = 0x1a#6 from by
    simp (disch := decide) only [extract_cast, BitVec.extractLsb'_append_eq_of_le, BitVec.extractLsb'_append_eq_of_add_le]
    exact BitVec.extractLsb'_eq_self]
  dsimp only
  simp (disch := decide) only [extract_cast, extract_extract, BitVec.extractLsb'_append_eq_of_le, BitVec.extractLsb'_append_eq_of_add_le]
  simp only [Nat.reduceSub, Nat.reduceAdd, BitVec.extractLsb'_eq_self]
  all_goals rfl
theorem RoundTrip.vbcast (w : BitVec 4) (d : BitVec 5) (a : BitVec 5) (n : BitVec 6) : RoundTrip.Statement (Instr.vbcast w d a n) := by
  refine fun hw => ⟨fun x h => ?_, fun c x h => by cases c <;> simp [Command.instr] at h⟩
  cases h
  show decodeV (fmtV w 0x1b d a 0x0#5 (0x0#1 ++ n)) = _
  rw [show fmtV w 0x1b d a 0x0#5 (0x0#1 ++ n) = @BitVec.cast (4 + 6 + 5 + 5 + 5 + (1 + 6)) 32 rfl (w ++ 0x1b#6 ++ d ++ a ++ 0x0#5 ++ (0x0#1 ++ n)) from rfl]
  unfold decodeV
  rw [show BitVec.extractLsb' 22 6 (@BitVec.cast (4 + 6 + 5 + 5 + 5 + (1 + 6)) 32 rfl (w ++ 0x1b#6 ++ d ++ a ++ 0x0#5 ++ (0x0#1 ++ n))) = 0x1b#6 from by
    simp (disch := decide) only [extract_cast, BitVec.extractLsb'_append_eq_of_le, BitVec.extractLsb'_append_eq_of_add_le]
    exact BitVec.extractLsb'_eq_self]
  dsimp only
  simp (disch := decide) only [extract_cast, extract_extract, BitVec.extractLsb'_append_eq_of_le, BitVec.extractLsb'_append_eq_of_add_le]
  simp only [Nat.reduceSub, Nat.reduceAdd, BitVec.extractLsb'_eq_self]
  all_goals rfl
theorem RoundTrip.vperm (w : BitVec 4) (d : BitVec 5) (a : BitVec 5) (b : BitVec 5) : RoundTrip.Statement (Instr.vperm w d a b) := by
  refine fun hw => ⟨fun x h => ?_, fun c x h => by cases c <;> simp [Command.instr] at h⟩
  cases h
  show decodeV (fmtV w 0x1c d a b 0x0#7) = _
  rw [show fmtV w 0x1c d a b 0x0#7 = @BitVec.cast (4 + 6 + 5 + 5 + 5 + 7) 32 rfl (w ++ 0x1c#6 ++ d ++ a ++ b ++ 0x0#7) from rfl]
  unfold decodeV
  rw [show BitVec.extractLsb' 22 6 (@BitVec.cast (4 + 6 + 5 + 5 + 5 + 7) 32 rfl (w ++ 0x1c#6 ++ d ++ a ++ b ++ 0x0#7)) = 0x1c#6 from by
    simp (disch := decide) only [extract_cast, BitVec.extractLsb'_append_eq_of_le, BitVec.extractLsb'_append_eq_of_add_le]
    exact BitVec.extractLsb'_eq_self]
  dsimp only
  simp (disch := decide) only [extract_cast, extract_extract, BitVec.extractLsb'_append_eq_of_le, BitVec.extractLsb'_append_eq_of_add_le]
  simp only [Nat.reduceSub, Nat.reduceAdd, BitVec.extractLsb'_eq_self]
  all_goals rfl
theorem RoundTrip.vred (w : BitVec 4) (d : BitVec 5) (a : BitVec 5) (i : BitVec 1) (g : BitVec 1) (o : BitVec 2) : RoundTrip.Statement (Instr.vred w d a i g o) := by
  refine fun hw => ⟨fun x h => ?_, fun c x h => by cases c <;> simp [Command.instr] at h⟩
  cases h
  show decodeV (fmtV w 0x1d d a 0x0#5 (0x0#3 ++ i ++ g ++ o)) = _
  rw [show fmtV w 0x1d d a 0x0#5 (0x0#3 ++ i ++ g ++ o) = @BitVec.cast (4 + 6 + 5 + 5 + 5 + (3 + 1 + 1 + 2)) 32 rfl (w ++ 0x1d#6 ++ d ++ a ++ 0x0#5 ++ (0x0#3 ++ i ++ g ++ o)) from rfl]
  unfold decodeV
  rw [show BitVec.extractLsb' 22 6 (@BitVec.cast (4 + 6 + 5 + 5 + 5 + (3 + 1 + 1 + 2)) 32 rfl (w ++ 0x1d#6 ++ d ++ a ++ 0x0#5 ++ (0x0#3 ++ i ++ g ++ o))) = 0x1d#6 from by
    simp (disch := decide) only [extract_cast, BitVec.extractLsb'_append_eq_of_le, BitVec.extractLsb'_append_eq_of_add_le]
    exact BitVec.extractLsb'_eq_self]
  dsimp only
  simp (disch := decide) only [extract_cast, extract_extract, BitVec.extractLsb'_append_eq_of_le, BitVec.extractLsb'_append_eq_of_add_le]
  simp only [Nat.reduceSub, Nat.reduceAdd, BitVec.extractLsb'_eq_self]
  exact assigned_ok hw
theorem RoundTrip.vscan (w : BitVec 4) (d : BitVec 5) (a : BitVec 5) (i : BitVec 1) (g : BitVec 1) (o : BitVec 2) : RoundTrip.Statement (Instr.vscan w d a i g o) := by
  refine fun hw => ⟨fun x h => ?_, fun c x h => by cases c <;> simp [Command.instr] at h⟩
  cases h
  show decodeV (fmtV w 0x1e d a 0x0#5 (0x0#3 ++ i ++ g ++ o)) = _
  rw [show fmtV w 0x1e d a 0x0#5 (0x0#3 ++ i ++ g ++ o) = @BitVec.cast (4 + 6 + 5 + 5 + 5 + (3 + 1 + 1 + 2)) 32 rfl (w ++ 0x1e#6 ++ d ++ a ++ 0x0#5 ++ (0x0#3 ++ i ++ g ++ o)) from rfl]
  unfold decodeV
  rw [show BitVec.extractLsb' 22 6 (@BitVec.cast (4 + 6 + 5 + 5 + 5 + (3 + 1 + 1 + 2)) 32 rfl (w ++ 0x1e#6 ++ d ++ a ++ 0x0#5 ++ (0x0#3 ++ i ++ g ++ o))) = 0x1e#6 from by
    simp (disch := decide) only [extract_cast, BitVec.extractLsb'_append_eq_of_le, BitVec.extractLsb'_append_eq_of_add_le]
    exact BitVec.extractLsb'_eq_self]
  dsimp only
  simp (disch := decide) only [extract_cast, extract_extract, BitVec.extractLsb'_append_eq_of_le, BitVec.extractLsb'_append_eq_of_add_le]
  simp only [Nat.reduceSub, Nat.reduceAdd, BitVec.extractLsb'_eq_self]
  exact assigned_ok hw
theorem RoundTrip.vsegid (w : BitVec 4) (d : BitVec 5) (a : BitVec 5) : RoundTrip.Statement (Instr.vsegid w d a) := by
  refine fun hw => ⟨fun x h => ?_, fun c x h => by cases c <;> simp [Command.instr] at h⟩
  cases h
  show decodeV (fmtV w 0x1f d a 0x0#5 0x0#7) = _
  rw [show fmtV w 0x1f d a 0x0#5 0x0#7 = @BitVec.cast (4 + 6 + 5 + 5 + 5 + 7) 32 rfl (w ++ 0x1f#6 ++ d ++ a ++ 0x0#5 ++ 0x0#7) from rfl]
  unfold decodeV
  rw [show BitVec.extractLsb' 22 6 (@BitVec.cast (4 + 6 + 5 + 5 + 5 + 7) 32 rfl (w ++ 0x1f#6 ++ d ++ a ++ 0x0#5 ++ 0x0#7)) = 0x1f#6 from by
    simp (disch := decide) only [extract_cast, BitVec.extractLsb'_append_eq_of_le, BitVec.extractLsb'_append_eq_of_add_le]
    exact BitVec.extractLsb'_eq_self]
  dsimp only
  simp (disch := decide) only [extract_cast, extract_extract, BitVec.extractLsb'_append_eq_of_le, BitVec.extractLsb'_append_eq_of_add_le]
  simp only [Nat.reduceSub, Nat.reduceAdd, BitVec.extractLsb'_eq_self]
  all_goals rfl
theorem RoundTrip.vld (w : BitVec 4) (d : BitVec 5) (n : BitVec 4) (k : BitVec 7) : RoundTrip.Statement (Instr.vld w d n k) := by
  refine fun hw => ⟨fun x h => ?_, fun c x h => by cases c <;> simp [Command.instr] at h⟩
  cases h
  show decodeV (fmtV w 0x20 d (0x0#1 ++ n) 0x0#5 k) = _
  rw [show fmtV w 0x20 d (0x0#1 ++ n) 0x0#5 k = @BitVec.cast (4 + 6 + 5 + (1 + 4) + 5 + 7) 32 rfl (w ++ 0x20#6 ++ d ++ (0x0#1 ++ n) ++ 0x0#5 ++ k) from rfl]
  unfold decodeV
  rw [show BitVec.extractLsb' 22 6 (@BitVec.cast (4 + 6 + 5 + (1 + 4) + 5 + 7) 32 rfl (w ++ 0x20#6 ++ d ++ (0x0#1 ++ n) ++ 0x0#5 ++ k)) = 0x20#6 from by
    simp (disch := decide) only [extract_cast, BitVec.extractLsb'_append_eq_of_le, BitVec.extractLsb'_append_eq_of_add_le]
    exact BitVec.extractLsb'_eq_self]
  dsimp only
  simp (disch := decide) only [extract_cast, extract_extract, BitVec.extractLsb'_append_eq_of_le, BitVec.extractLsb'_append_eq_of_add_le]
  simp only [Nat.reduceSub, Nat.reduceAdd, BitVec.extractLsb'_eq_self]
  all_goals rfl
theorem RoundTrip.vst (w : BitVec 4) (n : BitVec 4) (b : BitVec 5) (k : BitVec 7) : RoundTrip.Statement (Instr.vst w n b k) := by
  refine fun hw => ⟨fun x h => ?_, fun c x h => by cases c <;> simp [Command.instr] at h⟩
  cases h
  show decodeV (fmtV w 0x21 0x0#5 (0x0#1 ++ n) b k) = _
  rw [show fmtV w 0x21 0x0#5 (0x0#1 ++ n) b k = @BitVec.cast (4 + 6 + 5 + (1 + 4) + 5 + 7) 32 rfl (w ++ 0x21#6 ++ 0x0#5 ++ (0x0#1 ++ n) ++ b ++ k) from rfl]
  unfold decodeV
  rw [show BitVec.extractLsb' 22 6 (@BitVec.cast (4 + 6 + 5 + (1 + 4) + 5 + 7) 32 rfl (w ++ 0x21#6 ++ 0x0#5 ++ (0x0#1 ++ n) ++ b ++ k)) = 0x21#6 from by
    simp (disch := decide) only [extract_cast, BitVec.extractLsb'_append_eq_of_le, BitVec.extractLsb'_append_eq_of_add_le]
    exact BitVec.extractLsb'_eq_self]
  dsimp only
  simp (disch := decide) only [extract_cast, extract_extract, BitVec.extractLsb'_append_eq_of_le, BitVec.extractLsb'_append_eq_of_add_le]
  simp only [Nat.reduceSub, Nat.reduceAdd, BitVec.extractLsb'_eq_self]
  all_goals rfl
theorem RoundTrip.vldacc (w : BitVec 4) (d : BitVec 5) (q : BitVec 3) (c : BitVec 6) : RoundTrip.Statement (Instr.vldacc w d q c) := by
  refine fun hw => ⟨fun x h => ?_, fun c x h => by cases c <;> simp [Command.instr] at h⟩
  cases h
  show decodeV (fmtV w 0x22 d (0x0#2 ++ q) 0x0#5 (c ++ 0x0#1)) = _
  rw [show fmtV w 0x22 d (0x0#2 ++ q) 0x0#5 (c ++ 0x0#1) = @BitVec.cast (4 + 6 + 5 + (2 + 3) + 5 + (6 + 1)) 32 rfl (w ++ 0x22#6 ++ d ++ (0x0#2 ++ q) ++ 0x0#5 ++ (c ++ 0x0#1)) from rfl]
  unfold decodeV
  rw [show BitVec.extractLsb' 22 6 (@BitVec.cast (4 + 6 + 5 + (2 + 3) + 5 + (6 + 1)) 32 rfl (w ++ 0x22#6 ++ d ++ (0x0#2 ++ q) ++ 0x0#5 ++ (c ++ 0x0#1))) = 0x22#6 from by
    simp (disch := decide) only [extract_cast, BitVec.extractLsb'_append_eq_of_le, BitVec.extractLsb'_append_eq_of_add_le]
    exact BitVec.extractLsb'_eq_self]
  dsimp only
  simp (disch := decide) only [extract_cast, extract_extract, BitVec.extractLsb'_append_eq_of_le, BitVec.extractLsb'_append_eq_of_add_le]
  simp only [Nat.reduceSub, Nat.reduceAdd, BitVec.extractLsb'_eq_self]
  exact assigned_ok hw
theorem RoundTrip.vstacc (w : BitVec 4) (q : BitVec 3) (b : BitVec 5) (c : BitVec 6) (e : BitVec 1) : RoundTrip.Statement (Instr.vstacc w q b c e) := by
  refine fun hw => ⟨fun x h => ?_, fun c x h => by cases c <;> simp [Command.instr] at h⟩
  cases h
  show decodeV (fmtV w 0x23 0x0#5 (0x0#2 ++ q) b (c ++ e)) = _
  rw [show fmtV w 0x23 0x0#5 (0x0#2 ++ q) b (c ++ e) = @BitVec.cast (4 + 6 + 5 + (2 + 3) + 5 + (6 + 1)) 32 rfl (w ++ 0x23#6 ++ 0x0#5 ++ (0x0#2 ++ q) ++ b ++ (c ++ e)) from rfl]
  unfold decodeV
  rw [show BitVec.extractLsb' 22 6 (@BitVec.cast (4 + 6 + 5 + (2 + 3) + 5 + (6 + 1)) 32 rfl (w ++ 0x23#6 ++ 0x0#5 ++ (0x0#2 ++ q) ++ b ++ (c ++ e))) = 0x23#6 from by
    simp (disch := decide) only [extract_cast, BitVec.extractLsb'_append_eq_of_le, BitVec.extractLsb'_append_eq_of_add_le]
    exact BitVec.extractLsb'_eq_self]
  dsimp only
  simp (disch := decide) only [extract_cast, extract_extract, BitVec.extractLsb'_append_eq_of_le, BitVec.extractLsb'_append_eq_of_add_le]
  simp only [Nat.reduceSub, Nat.reduceAdd, BitVec.extractLsb'_eq_self]
  exact assigned_ok hw
theorem RoundTrip.vparam (w : BitVec 4) (d : BitVec 5) (k : BitVec 7) : RoundTrip.Statement (Instr.vparam w d k) := by
  refine fun hw => ⟨fun x h => ?_, fun c x h => by cases c <;> simp [Command.instr] at h⟩
  cases h
  show decodeV (fmtV w 0x24 d 0x0#5 0x0#5 k) = _
  rw [show fmtV w 0x24 d 0x0#5 0x0#5 k = @BitVec.cast (4 + 6 + 5 + 5 + 5 + 7) 32 rfl (w ++ 0x24#6 ++ d ++ 0x0#5 ++ 0x0#5 ++ k) from rfl]
  unfold decodeV
  rw [show BitVec.extractLsb' 22 6 (@BitVec.cast (4 + 6 + 5 + 5 + 5 + 7) 32 rfl (w ++ 0x24#6 ++ d ++ 0x0#5 ++ 0x0#5 ++ k)) = 0x24#6 from by
    simp (disch := decide) only [extract_cast, BitVec.extractLsb'_append_eq_of_le, BitVec.extractLsb'_append_eq_of_add_le]
    exact BitVec.extractLsb'_eq_self]
  dsimp only
  simp (disch := decide) only [extract_cast, extract_extract, BitVec.extractLsb'_append_eq_of_le, BitVec.extractLsb'_append_eq_of_add_le]
  simp only [Nat.reduceSub, Nat.reduceAdd, BitVec.extractLsb'_eq_self]
  exact assigned_ok hw
theorem RoundTrip.mpush (w : BitVec 4) (a : BitVec 5) : RoundTrip.Statement (Instr.mpush w a) := by
  refine fun hw => ⟨fun x h => ?_, fun c x h => by cases c <;> simp [Command.instr] at h⟩
  cases h
  show decodeV (fmtV w 0x28 0x0#5 a 0x0#5 0x0#7) = _
  rw [show fmtV w 0x28 0x0#5 a 0x0#5 0x0#7 = @BitVec.cast (4 + 6 + 5 + 5 + 5 + 7) 32 rfl (w ++ 0x28#6 ++ 0x0#5 ++ a ++ 0x0#5 ++ 0x0#7) from rfl]
  unfold decodeV
  rw [show BitVec.extractLsb' 22 6 (@BitVec.cast (4 + 6 + 5 + 5 + 5 + 7) 32 rfl (w ++ 0x28#6 ++ 0x0#5 ++ a ++ 0x0#5 ++ 0x0#7)) = 0x28#6 from by
    simp (disch := decide) only [extract_cast, BitVec.extractLsb'_append_eq_of_le, BitVec.extractLsb'_append_eq_of_add_le]
    exact BitVec.extractLsb'_eq_self]
  dsimp only
  simp (disch := decide) only [extract_cast, extract_extract, BitVec.extractLsb'_append_eq_of_le, BitVec.extractLsb'_append_eq_of_add_le]
  simp only [Nat.reduceSub, Nat.reduceAdd, BitVec.extractLsb'_eq_self]
  all_goals rfl
theorem RoundTrip.minv (w : BitVec 4) : RoundTrip.Statement (Instr.minv w) := by
  refine fun hw => ⟨fun x h => ?_, fun c x h => by cases c <;> simp [Command.instr] at h⟩
  cases h
  clear hw; revert w; decide
theorem RoundTrip.mpop (w : BitVec 4) (d : BitVec 5) : RoundTrip.Statement (Instr.mpop w d) := by
  refine fun hw => ⟨fun x h => ?_, fun c x h => by cases c <;> simp [Command.instr] at h⟩
  cases h
  show decodeV (fmtV w 0x2a d 0x0#5 0x0#5 0x0#7) = _
  rw [show fmtV w 0x2a d 0x0#5 0x0#5 0x0#7 = @BitVec.cast (4 + 6 + 5 + 5 + 5 + 7) 32 rfl (w ++ 0x2a#6 ++ d ++ 0x0#5 ++ 0x0#5 ++ 0x0#7) from rfl]
  unfold decodeV
  rw [show BitVec.extractLsb' 22 6 (@BitVec.cast (4 + 6 + 5 + 5 + 5 + 7) 32 rfl (w ++ 0x2a#6 ++ d ++ 0x0#5 ++ 0x0#5 ++ 0x0#7)) = 0x2a#6 from by
    simp (disch := decide) only [extract_cast, BitVec.extractLsb'_append_eq_of_le, BitVec.extractLsb'_append_eq_of_add_le]
    exact BitVec.extractLsb'_eq_self]
  dsimp only
  simp (disch := decide) only [extract_cast, extract_extract, BitVec.extractLsb'_append_eq_of_le, BitVec.extractLsb'_append_eq_of_add_le]
  simp only [Nat.reduceSub, Nat.reduceAdd, BitVec.extractLsb'_eq_self]
  all_goals rfl
theorem RoundTrip.mskz (w : BitVec 4) (n : BitVec 7) : RoundTrip.Statement (Instr.mskz w n) := by
  refine fun hw => ⟨fun x h => ?_, fun c x h => by cases c <;> simp [Command.instr] at h⟩
  cases h
  show decodeV (fmtV w 0x2b 0x0#5 0x0#5 0x0#5 n) = _
  rw [show fmtV w 0x2b 0x0#5 0x0#5 0x0#5 n = @BitVec.cast (4 + 6 + 5 + 5 + 5 + 7) 32 rfl (w ++ 0x2b#6 ++ 0x0#5 ++ 0x0#5 ++ 0x0#5 ++ n) from rfl]
  unfold decodeV
  rw [show BitVec.extractLsb' 22 6 (@BitVec.cast (4 + 6 + 5 + 5 + 5 + 7) 32 rfl (w ++ 0x2b#6 ++ 0x0#5 ++ 0x0#5 ++ 0x0#5 ++ n)) = 0x2b#6 from by
    simp (disch := decide) only [extract_cast, BitVec.extractLsb'_append_eq_of_le, BitVec.extractLsb'_append_eq_of_add_le]
    exact BitVec.extractLsb'_eq_self]
  dsimp only
  simp (disch := decide) only [extract_cast, extract_extract, BitVec.extractLsb'_append_eq_of_le, BitVec.extractLsb'_append_eq_of_add_le]
  simp only [Nat.reduceSub, Nat.reduceAdd, BitVec.extractLsb'_eq_self]
  exact assigned_ok hw
theorem RoundTrip.vloop (w : BitVec 4) (p : BitVec 1) (c : BitVec 12) (l : BitVec 9) : RoundTrip.Statement (Instr.vloop w p c l) := by
  refine fun hw => ⟨fun x h => ?_, fun c x h => by cases c <;> simp [Command.instr] at h⟩
  cases h
  show decodeV (w ++ 0x30#6 ++ p ++ c ++ l) = _
  rw [show w ++ 0x30#6 ++ p ++ c ++ l = @BitVec.cast (4 + 6 + 1 + 12 + 9) 32 rfl (w ++ 0x30#6 ++ p ++ c ++ l) from rfl]
  unfold decodeV
  rw [show BitVec.extractLsb' 22 6 (@BitVec.cast (4 + 6 + 1 + 12 + 9) 32 rfl (w ++ 0x30#6 ++ p ++ c ++ l)) = 0x30#6 from by
    simp (disch := decide) only [extract_cast, BitVec.extractLsb'_append_eq_of_le, BitVec.extractLsb'_append_eq_of_add_le]
    exact BitVec.extractLsb'_eq_self]
  dsimp only
  simp (disch := decide) only [extract_cast, extract_extract, BitVec.extractLsb'_append_eq_of_le, BitVec.extractLsb'_append_eq_of_add_le]
  simp only [Nat.reduceSub, Nat.reduceAdd, BitVec.extractLsb'_eq_self]
  exact assigned_ok hw
theorem RoundTrip.vflag (w : BitVec 4) (n : BitVec 4) (v : BitVec 16) : RoundTrip.Statement (Instr.vflag w n v) := by
  refine fun hw => ⟨fun x h => ?_, fun c x h => by cases c <;> simp [Command.instr] at h⟩
  cases h
  show decodeV (w ++ 0x31#6 ++ n ++ 0#2 ++ v) = _
  rw [show w ++ 0x31#6 ++ n ++ 0#2 ++ v = @BitVec.cast (4 + 6 + 4 + 2 + 16) 32 rfl (w ++ 0x31#6 ++ n ++ 0#2 ++ v) from rfl]
  unfold decodeV
  rw [show BitVec.extractLsb' 22 6 (@BitVec.cast (4 + 6 + 4 + 2 + 16) 32 rfl (w ++ 0x31#6 ++ n ++ 0#2 ++ v)) = 0x31#6 from by
    simp (disch := decide) only [extract_cast, BitVec.extractLsb'_append_eq_of_le, BitVec.extractLsb'_append_eq_of_add_le]
    exact BitVec.extractLsb'_eq_self]
  dsimp only
  simp (disch := decide) only [extract_cast, extract_extract, BitVec.extractLsb'_append_eq_of_le, BitVec.extractLsb'_append_eq_of_add_le]
  simp only [Nat.reduceSub, Nat.reduceAdd, BitVec.extractLsb'_eq_self]
  all_goals rfl
theorem RoundTrip.vwaits (w : BitVec 4) (n : BitVec 16) : RoundTrip.Statement (Instr.vwaits w n) := by
  refine fun hw => ⟨fun x h => ?_, fun c x h => by cases c <;> simp [Command.instr] at h⟩
  cases h
  show decodeV (w ++ 0x32#6 ++ 0#6 ++ n) = _
  rw [show w ++ 0x32#6 ++ 0#6 ++ n = @BitVec.cast (4 + 6 + 6 + 16) 32 rfl (w ++ 0x32#6 ++ 0#6 ++ n) from rfl]
  unfold decodeV
  rw [show BitVec.extractLsb' 22 6 (@BitVec.cast (4 + 6 + 6 + 16) 32 rfl (w ++ 0x32#6 ++ 0#6 ++ n)) = 0x32#6 from by
    simp (disch := decide) only [extract_cast, BitVec.extractLsb'_append_eq_of_le, BitVec.extractLsb'_append_eq_of_add_le]
    exact BitVec.extractLsb'_eq_self]
  dsimp only
  simp (disch := decide) only [extract_cast, extract_extract, BitVec.extractLsb'_append_eq_of_le, BitVec.extractLsb'_append_eq_of_add_le]
  simp only [Nat.reduceSub, Nat.reduceAdd, BitVec.extractLsb'_eq_self]
  exact assigned_ok hw
theorem RoundTrip.tnop (w : BitVec 4) : RoundTrip.Statement (Instr.tnop w) := by
  refine fun hw => ⟨fun x h => ?_, fun c x h => by cases c <;> simp [Command.instr] at h⟩
  cases h
  clear hw; revert w; decide
theorem RoundTrip.tdload (w : BitVec 4) (f : BitVec 6) (c : BitVec 6) (s : BitVec 2) : RoundTrip.Statement (Instr.tdload w f c s) := by
  refine fun hw => ⟨fun x h => ?_, fun c x h => by cases c <;> simp [Command.instr] at h⟩
  cases h
  show decodeT (fmtT w 0x01 (f ++ c ++ s ++ 0x0#10)) = _
  rw [show fmtT w 0x01 (f ++ c ++ s ++ 0x0#10) = @BitVec.cast (4 + 4 + (6 + 6 + 2 + 10)) 32 rfl (w ++ 0x01#4 ++ (f ++ c ++ s ++ 0x0#10)) from rfl]
  unfold decodeT
  rw [show BitVec.extractLsb' 24 4 (@BitVec.cast (4 + 4 + (6 + 6 + 2 + 10)) 32 rfl (w ++ 0x01#4 ++ (f ++ c ++ s ++ 0x0#10))) = 0x01#4 from by
    simp (disch := decide) only [extract_cast, BitVec.extractLsb'_append_eq_of_le, BitVec.extractLsb'_append_eq_of_add_le]
    exact BitVec.extractLsb'_eq_self]
  dsimp only
  simp (disch := decide) only [extract_cast, extract_extract, BitVec.extractLsb'_append_eq_of_le, BitVec.extractLsb'_append_eq_of_add_le]
  simp only [Nat.reduceSub, Nat.reduceAdd, BitVec.extractLsb'_eq_self]
  exact assigned_ok hw
theorem RoundTrip.tmode (w : BitVec 4) (c : BitVec 6) (m : BitVec 1) : RoundTrip.Statement (Instr.tmode w c m) := by
  refine fun hw => ⟨fun x h => ?_, fun c x h => by cases c <;> simp [Command.instr] at h⟩
  cases h
  show decodeT (fmtT w 0x02 (0x0#2 ++ c ++ m ++ 0x0#15)) = _
  rw [show fmtT w 0x02 (0x0#2 ++ c ++ m ++ 0x0#15) = @BitVec.cast (4 + 4 + (2 + 6 + 1 + 15)) 32 rfl (w ++ 0x02#4 ++ (0x0#2 ++ c ++ m ++ 0x0#15)) from rfl]
  unfold decodeT
  rw [show BitVec.extractLsb' 24 4 (@BitVec.cast (4 + 4 + (2 + 6 + 1 + 15)) 32 rfl (w ++ 0x02#4 ++ (0x0#2 ++ c ++ m ++ 0x0#15))) = 0x02#4 from by
    simp (disch := decide) only [extract_cast, BitVec.extractLsb'_append_eq_of_le, BitVec.extractLsb'_append_eq_of_add_le]
    exact BitVec.extractLsb'_eq_self]
  dsimp only
  simp (disch := decide) only [extract_cast, extract_extract, BitVec.extractLsb'_append_eq_of_le, BitVec.extractLsb'_append_eq_of_add_le]
  simp only [Nat.reduceSub, Nat.reduceAdd, BitVec.extractLsb'_eq_self]
  all_goals rfl
theorem RoundTrip.tmodeAll (w : BitVec 4) (m : BitVec 1) : RoundTrip.Statement (Instr.tmodeAll w m) := by
  refine fun hw => ⟨fun x h => ?_, fun c x h => by cases c <;> simp [Command.instr] at h⟩
  cases h
  show decodeT (fmtT w 0x02 (0x40#8 ++ m ++ 0x0#15)) = _
  rw [show fmtT w 0x02 (0x40#8 ++ m ++ 0x0#15) = @BitVec.cast (4 + 4 + (8 + 1 + 15)) 32 rfl (w ++ 0x02#4 ++ (0x40#8 ++ m ++ 0x0#15)) from rfl]
  unfold decodeT
  rw [show BitVec.extractLsb' 24 4 (@BitVec.cast (4 + 4 + (8 + 1 + 15)) 32 rfl (w ++ 0x02#4 ++ (0x40#8 ++ m ++ 0x0#15))) = 0x02#4 from by
    simp (disch := decide) only [extract_cast, BitVec.extractLsb'_append_eq_of_le, BitVec.extractLsb'_append_eq_of_add_le]
    exact BitVec.extractLsb'_eq_self]
  dsimp only
  simp (disch := decide) only [extract_cast, extract_extract, BitVec.extractLsb'_append_eq_of_le, BitVec.extractLsb'_append_eq_of_add_le]
  simp only [Nat.reduceSub, Nat.reduceAdd, BitVec.extractLsb'_eq_self]
  all_goals rfl
theorem RoundTrip.tmodeTs (w : BitVec 4) : RoundTrip.Statement (Instr.tmodeTs w) := by
  refine fun hw => ⟨fun x h => ?_, fun c x h => by cases c <;> simp [Command.instr] at h⟩
  cases h
  clear hw; revert w; decide
theorem RoundTrip.twset (w : BitVec 4) (n : BitVec 8) : RoundTrip.Statement (Instr.twset w n) := by
  refine fun hw => ⟨fun x h => ?_, fun c x h => by cases c <;> simp [Command.instr] at h⟩
  cases h
  show decodeT (fmtT w 0x03 (n ++ 0x0#16)) = _
  rw [show fmtT w 0x03 (n ++ 0x0#16) = @BitVec.cast (4 + 4 + (8 + 16)) 32 rfl (w ++ 0x03#4 ++ (n ++ 0x0#16)) from rfl]
  unfold decodeT
  rw [show BitVec.extractLsb' 24 4 (@BitVec.cast (4 + 4 + (8 + 16)) 32 rfl (w ++ 0x03#4 ++ (n ++ 0x0#16))) = 0x03#4 from by
    simp (disch := decide) only [extract_cast, BitVec.extractLsb'_append_eq_of_le, BitVec.extractLsb'_append_eq_of_add_le]
    exact BitVec.extractLsb'_eq_self]
  dsimp only
  simp (disch := decide) only [extract_cast, extract_extract, BitVec.extractLsb'_append_eq_of_le, BitVec.extractLsb'_append_eq_of_add_le]
  simp only [Nat.reduceSub, Nat.reduceAdd, BitVec.extractLsb'_eq_self]
  exact assigned_ok hw
theorem RoundTrip.tlaunch (w : BitVec 4) (a : BitVec 5) : RoundTrip.Statement (Instr.tlaunch w a) := by
  refine fun hw => ⟨fun x h => ?_, fun c x h => by cases c <;> simp [Command.instr] at h⟩
  cases h
  show decodeT (fmtT w 0x04 (a ++ 0x0#19)) = _
  rw [show fmtT w 0x04 (a ++ 0x0#19) = @BitVec.cast (4 + 4 + (5 + 19)) 32 rfl (w ++ 0x04#4 ++ (a ++ 0x0#19)) from rfl]
  unfold decodeT
  rw [show BitVec.extractLsb' 24 4 (@BitVec.cast (4 + 4 + (5 + 19)) 32 rfl (w ++ 0x04#4 ++ (a ++ 0x0#19))) = 0x04#4 from by
    simp (disch := decide) only [extract_cast, BitVec.extractLsb'_append_eq_of_le, BitVec.extractLsb'_append_eq_of_add_le]
    exact BitVec.extractLsb'_eq_self]
  dsimp only
  simp (disch := decide) only [extract_cast, extract_extract, BitVec.extractLsb'_append_eq_of_le, BitVec.extractLsb'_append_eq_of_add_le]
  simp only [Nat.reduceSub, Nat.reduceAdd, BitVec.extractLsb'_eq_self]
  all_goals rfl
theorem RoundTrip.tcapture (w : BitVec 4) (d : BitVec 5) : RoundTrip.Statement (Instr.tcapture w d) := by
  refine fun hw => ⟨fun x h => ?_, fun c x h => by cases c <;> simp [Command.instr] at h⟩
  cases h
  show decodeT (fmtT w 0x05 (d ++ 0x0#19)) = _
  rw [show fmtT w 0x05 (d ++ 0x0#19) = @BitVec.cast (4 + 4 + (5 + 19)) 32 rfl (w ++ 0x05#4 ++ (d ++ 0x0#19)) from rfl]
  unfold decodeT
  rw [show BitVec.extractLsb' 24 4 (@BitVec.cast (4 + 4 + (5 + 19)) 32 rfl (w ++ 0x05#4 ++ (d ++ 0x0#19))) = 0x05#4 from by
    simp (disch := decide) only [extract_cast, BitVec.extractLsb'_append_eq_of_le, BitVec.extractLsb'_append_eq_of_add_le]
    exact BitVec.extractLsb'_eq_self]
  dsimp only
  simp (disch := decide) only [extract_cast, extract_extract, BitVec.extractLsb'_append_eq_of_le, BitVec.extractLsb'_append_eq_of_add_le]
  simp only [Nat.reduceSub, Nat.reduceAdd, BitVec.extractLsb'_eq_self]
  all_goals rfl
theorem RoundTrip.treset (w : BitVec 4) : RoundTrip.Statement (Instr.treset w) := by
  refine fun hw => ⟨fun x h => ?_, fun c x h => by cases c <;> simp [Command.instr] at h⟩
  cases h
  clear hw; revert w; decide
theorem RoundTrip.trelax (w : BitVec 4) (n : BitVec 8) : RoundTrip.Statement (Instr.trelax w n) := by
  refine fun hw => ⟨fun x h => ?_, fun c x h => by cases c <;> simp [Command.instr] at h⟩
  cases h
  show decodeT (fmtT w 0x07 (n ++ 0x0#16)) = _
  rw [show fmtT w 0x07 (n ++ 0x0#16) = @BitVec.cast (4 + 4 + (8 + 16)) 32 rfl (w ++ 0x07#4 ++ (n ++ 0x0#16)) from rfl]
  unfold decodeT
  rw [show BitVec.extractLsb' 24 4 (@BitVec.cast (4 + 4 + (8 + 16)) 32 rfl (w ++ 0x07#4 ++ (n ++ 0x0#16))) = 0x07#4 from by
    simp (disch := decide) only [extract_cast, BitVec.extractLsb'_append_eq_of_le, BitVec.extractLsb'_append_eq_of_add_le]
    exact BitVec.extractLsb'_eq_self]
  dsimp only
  simp (disch := decide) only [extract_cast, extract_extract, BitVec.extractLsb'_append_eq_of_le, BitVec.extractLsb'_append_eq_of_add_le]
  simp only [Nat.reduceSub, Nat.reduceAdd, BitVec.extractLsb'_eq_self]
  exact assigned_ok hw
theorem RoundTrip.tflag (w : BitVec 4) (f : BitVec 4) (v : BitVec 16) : RoundTrip.Statement (Instr.tflag w f v) := by
  refine fun hw => ⟨fun x h => ?_, fun c x h => by cases c <;> simp [Command.instr] at h⟩
  cases h
  show decodeT (fmtT w 0x08 (f ++ 0x0#4 ++ v)) = _
  rw [show fmtT w 0x08 (f ++ 0x0#4 ++ v) = @BitVec.cast (4 + 4 + (4 + 4 + 16)) 32 rfl (w ++ 0x08#4 ++ (f ++ 0x0#4 ++ v)) from rfl]
  unfold decodeT
  rw [show BitVec.extractLsb' 24 4 (@BitVec.cast (4 + 4 + (4 + 4 + 16)) 32 rfl (w ++ 0x08#4 ++ (f ++ 0x0#4 ++ v))) = 0x08#4 from by
    simp (disch := decide) only [extract_cast, BitVec.extractLsb'_append_eq_of_le, BitVec.extractLsb'_append_eq_of_add_le]
    exact BitVec.extractLsb'_eq_self]
  dsimp only
  simp (disch := decide) only [extract_cast, extract_extract, BitVec.extractLsb'_append_eq_of_le, BitVec.extractLsb'_append_eq_of_add_le]
  simp only [Nat.reduceSub, Nat.reduceAdd, BitVec.extractLsb'_eq_self]
  all_goals rfl
theorem RoundTrip.copy (e : CopyEntry) : RoundTrip.Statement (Instr.copy e) := by
  exact fun hw => ⟨fun _ h => by simp [encode] at h, fun c x h => entry_of c x h hw⟩
theorem RoundTrip.copys (e : CopyEntry) : RoundTrip.Statement (Instr.copys e) := by
  exact fun hw => ⟨fun _ h => by simp [encode] at h, fun c x h => entry_of c x h hw⟩
theorem RoundTrip.fill (e : CopyEntry) : RoundTrip.Statement (Instr.fill e) := by
  exact fun hw => ⟨fun _ h => by simp [encode] at h, fun c x h => entry_of c x h hw⟩
theorem RoundTrip.bcast (e : CopyEntry) : RoundTrip.Statement (Instr.bcast e) := by
  exact fun hw => ⟨fun _ h => by simp [encode] at h, fun c x h => entry_of c x h hw⟩
theorem RoundTrip.cksum (e : CopyEntry) : RoundTrip.Statement (Instr.cksum e) := by
  exact fun hw => ⟨fun _ h => by simp [encode] at h, fun c x h => entry_of c x h hw⟩
theorem RoundTrip.signal (e : CopyEntry) : RoundTrip.Statement (Instr.signal e) := by
  exact fun hw => ⟨fun _ h => by simp [encode] at h, fun c x h => entry_of c x h hw⟩
theorem RoundTrip.waitseq (e : CopyEntry) : RoundTrip.Statement (Instr.waitseq e) := by
  exact fun hw => ⟨fun _ h => by simp [encode] at h, fun c x h => entry_of c x h hw⟩
theorem RoundTrip.tokret (e : CopyEntry) : RoundTrip.Statement (Instr.tokret e) := by
  exact fun hw => ⟨fun _ h => by simp [encode] at h, fun c x h => entry_of c x h hw⟩
theorem RoundTrip.link (e : CopyEntry) : RoundTrip.Statement (Instr.link e) := by
  exact fun hw => ⟨fun _ h => by simp [encode] at h, fun c x h => entry_of c x h hw⟩
theorem RoundTrip.mirwait (e : CopyEntry) : RoundTrip.Statement (Instr.mirwait e) := by
  exact fun hw => ⟨fun _ h => by simp [encode] at h, fun c x h => entry_of c x h hw⟩
theorem RoundTrip.rotation (pkg : BitVec 10) (die : BitVec 2) : RoundTrip.Statement (Instr.rotation pkg die) := by
  exact fun _ => ⟨fun _ h => by simp [encode] at h, fun c x h => by cases c <;> simp [Command.instr] at h⟩
theorem RoundTrip.rotationRebind (pkg : BitVec 10) (die : BitVec 2) : RoundTrip.Statement (Instr.rotationRebind pkg die) := by
  exact fun _ => ⟨fun _ h => by simp [encode] at h, fun c x h => by cases c <;> simp [Command.instr] at h⟩
theorem RoundTrip.admission (part : Nat) (queue : Nat) : RoundTrip.Statement (Instr.admission part queue) := by
  exact fun _ => ⟨fun _ h => by simp [encode] at h, fun c x h => by cases c <;> simp [Command.instr] at h⟩
theorem RoundTrip.admissionRetest (part : Nat) : RoundTrip.Statement (Instr.admissionRetest part) := by
  exact fun _ => ⟨fun _ h => by simp [encode] at h, fun c x h => by cases c <;> simp [Command.instr] at h⟩
theorem RoundTrip.taskStart (slot : BitVec 1) : RoundTrip.Statement (Instr.taskStart slot) := by
  exact fun _ => ⟨fun _ h => by simp [encode] at h, fun c x h => by cases c <;> simp [Command.instr] at h⟩
theorem RoundTrip.graphNodeRelease (part : Nat) (launch : Nat) : RoundTrip.Statement (Instr.graphNodeRelease part launch) := by
  exact fun _ => ⟨fun _ h => by simp [encode] at h, fun c x h => by cases c <;> simp [Command.instr] at h⟩
theorem RoundTrip.graphReplay (part : Nat) (queue : Nat) : RoundTrip.Statement (Instr.graphReplay part queue) := by
  exact fun _ => ⟨fun _ h => by simp [encode] at h, fun c x h => by cases c <;> simp [Command.instr] at h⟩
theorem RoundTrip.launchCompletion (part : Nat) (launch : Nat) : RoundTrip.Statement (Instr.launchCompletion part launch) := by
  exact fun _ => ⟨fun _ h => by simp [encode] at h, fun c x h => by cases c <;> simp [Command.instr] at h⟩
theorem RoundTrip.messageMatch (pkg : BitVec 10) (tag : BitVec 16) (payload : List (BitVec 8)) : RoundTrip.Statement (Instr.messageMatch pkg tag payload) := by
  exact fun _ => ⟨fun _ h => by simp [encode] at h, fun c x h => by cases c <;> simp [Command.instr] at h⟩
theorem RoundTrip.messageSend (pkg : BitVec 10) : RoundTrip.Statement (Instr.messageSend pkg) := by
  exact fun _ => ⟨fun _ h => by simp [encode] at h, fun c x h => by cases c <;> simp [Command.instr] at h⟩
theorem RoundTrip.marginStep (pkg : BitVec 10) (die : BitVec 2) : RoundTrip.Statement (Instr.marginStep pkg die) := by
  exact fun _ => ⟨fun _ h => by simp [encode] at h, fun c x h => by cases c <;> simp [Command.instr] at h⟩
theorem RoundTrip.cesetRestore (pkg : BitVec 10) (die : BitVec 2) : RoundTrip.Statement (Instr.cesetRestore pkg die) := by
  exact fun _ => ⟨fun _ h => by simp [encode] at h, fun c x h => by cases c <;> simp [Command.instr] at h⟩
theorem RoundTrip.droopRaise (pkg : BitVec 10) (die : BitVec 2) (quad : BitVec 4) : RoundTrip.Statement (Instr.droopRaise pkg die quad) := by
  exact fun _ => ⟨fun _ h => by simp [encode] at h, fun c x h => by cases c <;> simp [Command.instr] at h⟩
theorem RoundTrip.drainDeadline (pkg : BitVec 10) : RoundTrip.Statement (Instr.drainDeadline pkg) := by
  exact fun _ => ⟨fun _ h => by simp [encode] at h, fun c x h => by cases c <;> simp [Command.instr] at h⟩
theorem RoundTrip.coldHandshakeTimeout (pkg : BitVec 10) : RoundTrip.Statement (Instr.coldHandshakeTimeout pkg) := by
  exact fun _ => ⟨fun _ h => by simp [encode] at h, fun c x h => by cases c <;> simp [Command.instr] at h⟩
theorem RoundTrip.tstatWrite (v : BitVec 64) : RoundTrip.Statement (Instr.tstatWrite v) := by
  exact fun _ => ⟨fun _ h => by simp [encode] at h, fun c x h => by cases c <;> simp [Command.instr] at h⟩
theorem RoundTrip.oeqstatWrite (v : BitVec 64) : RoundTrip.Statement (Instr.oeqstatWrite v) := by
  exact fun _ => ⟨fun _ h => by simp [encode] at h, fun c x h => by cases c <;> simp [Command.instr] at h⟩
theorem RoundTrip.heatbudWrite (manager : Bool) (v : BitVec 64) : RoundTrip.Statement (Instr.heatbudWrite manager v) := by
  exact fun _ => ⟨fun _ h => by simp [encode] at h, fun c x h => by cases c <;> simp [Command.instr] at h⟩
theorem RoundTrip.injWrite (v : BitVec 64) : RoundTrip.Statement (Instr.injWrite v) := by
  exact fun _ => ⟨fun _ h => by simp [encode] at h, fun c x h => by cases c <;> simp [Command.instr] at h⟩
theorem RoundTrip.trapEntry (cause : BitVec 16) (addr : BitVec 64) : RoundTrip.Statement (Instr.trapEntry cause addr) := by
  exact fun _ => ⟨fun _ h => by simp [encode] at h, fun c x h => by cases c <;> simp [Command.instr] at h⟩
theorem RoundTrip.preemptionRequest (rotation : Bool) : RoundTrip.Statement (Instr.preemptionRequest rotation) := by
  exact fun _ => ⟨fun _ h => by simp [encode] at h, fun c x h => by cases c <;> simp [Command.instr] at h⟩
theorem RoundTrip.frameClassify (pkg : BitVec 10) (port : BitVec 1) (ethertype : BitVec 16) (payload : List (BitVec 8)) : RoundTrip.Statement (Instr.frameClassify pkg port ethertype payload) := by
  exact fun _ => ⟨fun _ h => by simp [encode] at h, fun c x h => by cases c <;> simp [Command.instr] at h⟩
theorem RoundTrip.launchArmWrite (pkg : BitVec 10) (entry : BitVec 8) (part : Nat) (queue : Nat) (v : BitVec 256) : RoundTrip.Statement (Instr.launchArmWrite pkg entry part queue v) := by
  exact fun _ => ⟨fun _ h => by simp [encode] at h, fun c x h => by cases c <;> simp [Command.instr] at h⟩
theorem RoundTrip.regionEntryWrite (part : Nat) (entry : BitVec 12) (v : BitVec 512) : RoundTrip.Statement (Instr.regionEntryWrite part entry v) := by
  exact fun _ => ⟨fun _ h => by simp [encode] at h, fun c x h => by cases c <;> simp [Command.instr] at h⟩
theorem RoundTrip.keySlotLoad (pkg : BitVec 10) (slot : BitVec 8) (key : BitVec 512) : RoundTrip.Statement (Instr.keySlotLoad pkg slot key) := by
  exact fun _ => ⟨fun _ h => by simp [encode] at h, fun c x h => by cases c <;> simp [Command.instr] at h⟩
theorem RoundTrip.memprotWrite (pkg : BitVec 10) (v : BitVec 64) : RoundTrip.Statement (Instr.memprotWrite pkg v) := by
  exact fun _ => ⟨fun _ h => by simp [encode] at h, fun c x h => by cases c <;> simp [Command.instr] at h⟩
theorem RoundTrip.errorBankClear (pkg : BitVec 10) (v : BitVec 64) : RoundTrip.Statement (Instr.errorBankClear pkg v) := by
  exact fun _ => ⟨fun _ h => by simp [encode] at h, fun c x h => by cases c <;> simp [Command.instr] at h⟩
theorem RoundTrip.cesetWrite (pkg : BitVec 10) (die : BitVec 2) (v : BitVec 16) : RoundTrip.Statement (Instr.cesetWrite pkg die v) := by
  exact fun _ => ⟨fun _ h => by simp [encode] at h, fun c x h => by cases c <;> simp [Command.instr] at h⟩
theorem RoundTrip.scrub (pkg : BitVec 10) (die : BitVec 2) (found : MemError) : RoundTrip.Statement (Instr.scrub pkg die found) := by
  exact fun _ => ⟨fun _ h => by simp [encode] at h, fun c x h => by cases c <;> simp [Command.instr] at h⟩
theorem RoundTrip.marginError (pkg : BitVec 10) (die : BitVec 2) (core : BitVec 6) (rereadOk : Bool) (found : MemError) : RoundTrip.Statement (Instr.marginError pkg die core rereadOk found) := by
  exact fun _ => ⟨fun _ h => by simp [encode] at h, fun c x h => by cases c <;> simp [Command.instr] at h⟩
theorem RoundTrip.droop (pkg : BitVec 10) (die : BitVec 2) (quad : BitVec 4) : RoundTrip.Statement (Instr.droop pkg die quad) := by
  exact fun _ => ⟨fun _ h => by simp [encode] at h, fun c x h => by cases c <;> simp [Command.instr] at h⟩
theorem RoundTrip.clockHop (pkg : BitVec 10) (die : BitVec 2) (quad : BitVec 4) : RoundTrip.Statement (Instr.clockHop pkg die quad) := by
  exact fun _ => ⟨fun _ h => by simp [encode] at h, fun c x h => by cases c <;> simp [Command.instr] at h⟩
theorem RoundTrip.stageTemperature (pkg : BitVec 10) (t4 : Nat) (t50 : Nat) (lift : Nat) : RoundTrip.Statement (Instr.stageTemperature pkg t4 t50 lift) := by
  exact fun _ => ⟨fun _ h => by simp [encode] at h, fun c x h => by cases c <;> simp [Command.instr] at h⟩
theorem RoundTrip.flitCrcFail (pkg : BitVec 10) (die : BitVec 2) (port : BitVec 7) : RoundTrip.Statement (Instr.flitCrcFail pkg die port) := by
  exact fun _ => ⟨fun _ h => by simp [encode] at h, fun c x h => by cases c <;> simp [Command.instr] at h⟩
theorem RoundTrip.portFail (pkg : BitVec 10) (die : BitVec 2) (port : BitVec 7) : RoundTrip.Statement (Instr.portFail pkg die port) := by
  exact fun _ => ⟨fun _ h => by simp [encode] at h, fun c x h => by cases c <;> simp [Command.instr] at h⟩
theorem RoundTrip.packageFailure (pkg : BitVec 10) : RoundTrip.Statement (Instr.packageFailure pkg) := by
  exact fun _ => ⟨fun _ h => by simp [encode] at h, fun c x h => by cases c <;> simp [Command.instr] at h⟩
theorem RoundTrip.coreFailure (pkg : BitVec 10) (core : BitVec 8) : RoundTrip.Statement (Instr.coreFailure pkg core) := by
  exact fun _ => ⟨fun _ h => by simp [encode] at h, fun c x h => by cases c <;> simp [Command.instr] at h⟩
theorem RoundTrip.moduleReset (pkg : BitVec 10) (boot : BootInputs) : RoundTrip.Statement (Instr.moduleReset pkg boot) := by
  exact fun _ => ⟨fun _ h => by simp [encode] at h, fun c x h => by cases c <;> simp [Command.instr] at h⟩
theorem RoundTrip.lockstepMismatch (pkg : BitVec 10) (boot : BootInputs) : RoundTrip.Statement (Instr.lockstepMismatch pkg boot) := by
  exact fun _ => ⟨fun _ h => by simp [encode] at h, fun c x h => by cases c <;> simp [Command.instr] at h⟩
theorem RoundTrip.launchKill (part : Nat) (launch : Nat) : RoundTrip.Statement (Instr.launchKill part launch) := by
  exact fun _ => ⟨fun _ h => by simp [encode] at h, fun c x h => by cases c <;> simp [Command.instr] at h⟩
theorem RoundTrip.parkedSpanHandover (part : Nat) (token : BitVec 34) (peer : Option (BitVec 64)) (clearTaint : Bool) : RoundTrip.Statement (Instr.parkedSpanHandover part token peer clearTaint) := by
  exact fun _ => ⟨fun _ h => by simp [encode] at h, fun c x h => by cases c <;> simp [Command.instr] at h⟩
theorem RoundTrip.kernelLoad (part : Nat) (image : KernelImage) : RoundTrip.Statement (Instr.kernelLoad part image) := by
  exact fun _ => ⟨fun _ h => by simp [encode] at h, fun c x h => by cases c <;> simp [Command.instr] at h⟩
theorem RoundTrip.codePatch (part : Nat) (h : BitVec 64) (word : BitVec 32) : RoundTrip.Statement (Instr.codePatch part h word) := by
  exact fun _ => ⟨fun _ h => by simp [encode] at h, fun c x h => by cases c <;> simp [Command.instr] at h⟩
theorem RoundTrip.hostStore (part : Nat) (h : BitVec 64) (bytes : List (BitVec 8)) : RoundTrip.Statement (Instr.hostStore part h bytes) := by
  exact fun _ => ⟨fun _ h => by simp [encode] at h, fun c x h => by cases c <;> simp [Command.instr] at h⟩
theorem RoundTrip.deviceDma (part : Nat) (h : BitVec 64) (write : Option (List (BitVec 8))) : RoundTrip.Statement (Instr.deviceDma part h write) := by
  exact fun _ => ⟨fun _ h => by simp [encode] at h, fun c x h => by cases c <;> simp [Command.instr] at h⟩
theorem RoundTrip.quadRailSet (pkg : BitVec 10) (die : BitVec 2) (quad : BitVec 4) (mv : Nat) : RoundTrip.Statement (Instr.quadRailSet pkg die quad mv) := by
  exact fun _ => ⟨fun _ h => by simp [encode] at h, fun c x h => by cases c <;> simp [Command.instr] at h⟩
theorem RoundTrip.droopRecovery (pkg : BitVec 10) (die : BitVec 2) (quad : BitVec 4) : RoundTrip.Statement (Instr.droopRecovery pkg die quad) := by
  exact fun _ => ⟨fun _ h => by simp [encode] at h, fun c x h => by cases c <;> simp [Command.instr] at h⟩
theorem RoundTrip.bankFailure (pkg : BitVec 10) (stripe : Nat) : RoundTrip.Statement (Instr.bankFailure pkg stripe) := by
  exact fun _ => ⟨fun _ h => by simp [encode] at h, fun c x h => by cases c <;> simp [Command.instr] at h⟩
theorem RoundTrip.bankRebuildComplete (pkg : BitVec 10) (stripe : Nat) : RoundTrip.Statement (Instr.bankRebuildComplete pkg stripe) := by
  exact fun _ => ⟨fun _ h => by simp [encode] at h, fun c x h => by cases c <;> simp [Command.instr] at h⟩
theorem RoundTrip.loadPerform : RoundTrip.Statement Instr.loadPerform := by
  exact fun _ => ⟨fun _ h => by simp [encode] at h, fun c x h => by cases c <;> simp [Command.instr] at h⟩
theorem RoundTrip.loadDataReturn : RoundTrip.Statement Instr.loadDataReturn := by
  exact fun _ => ⟨fun _ h => by simp [encode] at h, fun c x h => by cases c <;> simp [Command.instr] at h⟩
theorem RoundTrip.storePerform : RoundTrip.Statement Instr.storePerform := by
  exact fun _ => ⟨fun _ h => by simp [encode] at h, fun c x h => by cases c <;> simp [Command.instr] at h⟩
theorem RoundTrip.tokenSendComplete : RoundTrip.Statement Instr.tokenSendComplete := by
  exact fun _ => ⟨fun _ h => by simp [encode] at h, fun c x h => by cases c <;> simp [Command.instr] at h⟩
theorem RoundTrip.barrierComplete : RoundTrip.Statement Instr.barrierComplete := by
  exact fun _ => ⟨fun _ h => by simp [encode] at h, fun c x h => by cases c <;> simp [Command.instr] at h⟩
theorem RoundTrip.atomApply : RoundTrip.Statement Instr.atomApply := by
  exact fun _ => ⟨fun _ h => by simp [encode] at h, fun c x h => by cases c <;> simp [Command.instr] at h⟩
theorem RoundTrip.atomComplete : RoundTrip.Statement Instr.atomComplete := by
  exact fun _ => ⟨fun _ h => by simp [encode] at h, fun c x h => by cases c <;> simp [Command.instr] at h⟩
theorem RoundTrip.engineCommandPerform : RoundTrip.Statement Instr.engineCommandPerform := by
  exact fun _ => ⟨fun _ h => by simp [encode] at h, fun c x h => by cases c <;> simp [Command.instr] at h⟩
theorem RoundTrip.unitStall : RoundTrip.Statement Instr.unitStall := by
  exact fun _ => ⟨fun _ h => by simp [encode] at h, fun c x h => by cases c <;> simp [Command.instr] at h⟩
theorem RoundTrip.smiss : RoundTrip.Statement Instr.smiss := by
  exact fun _ => ⟨fun _ h => by simp [encode] at h, fun c x h => by cases c <;> simp [Command.instr] at h⟩
theorem RoundTrip.drainArrive : RoundTrip.Statement Instr.drainArrive := by
  exact fun _ => ⟨fun _ h => by simp [encode] at h, fun c x h => by cases c <;> simp [Command.instr] at h⟩
theorem RoundTrip.temporalEvalLand : RoundTrip.Statement Instr.temporalEvalLand := by
  exact fun _ => ⟨fun _ h => by simp [encode] at h, fun c x h => by cases c <;> simp [Command.instr] at h⟩
theorem RoundTrip.entryComplete : RoundTrip.Statement Instr.entryComplete := by
  exact fun _ => ⟨fun _ h => by simp [encode] at h, fun c x h => by cases c <;> simp [Command.instr] at h⟩
theorem RoundTrip.mirrorAck : RoundTrip.Statement Instr.mirrorAck := by
  exact fun _ => ⟨fun _ h => by simp [encode] at h, fun c x h => by cases c <;> simp [Command.instr] at h⟩
theorem RoundTrip.mirrorTimeout : RoundTrip.Statement Instr.mirrorTimeout := by
  exact fun _ => ⟨fun _ h => by simp [encode] at h, fun c x h => by cases c <;> simp [Command.instr] at h⟩
theorem RoundTrip.heatWindow : RoundTrip.Statement Instr.heatWindow := by
  exact fun _ => ⟨fun _ h => by simp [encode] at h, fun c x h => by cases c <;> simp [Command.instr] at h⟩
theorem RoundTrip.stopPoint : RoundTrip.Statement Instr.stopPoint := by
  exact fun _ => ⟨fun _ h => by simp [encode] at h, fun c x h => by cases c <;> simp [Command.instr] at h⟩
theorem RoundTrip.contextSave : RoundTrip.Statement Instr.contextSave := by
  exact fun _ => ⟨fun _ h => by simp [encode] at h, fun c x h => by cases c <;> simp [Command.instr] at h⟩
theorem RoundTrip.contextRestore : RoundTrip.Statement Instr.contextRestore := by
  exact fun _ => ⟨fun _ h => by simp [encode] at h, fun c x h => by cases c <;> simp [Command.instr] at h⟩
theorem RoundTrip.wfiTimeout : RoundTrip.Statement Instr.wfiTimeout := by
  exact fun _ => ⟨fun _ h => by simp [encode] at h, fun c x h => by cases c <;> simp [Command.instr] at h⟩
theorem RoundTrip.tlbWalkReturn : RoundTrip.Statement Instr.tlbWalkReturn := by
  exact fun _ => ⟨fun _ h => by simp [encode] at h, fun c x h => by cases c <;> simp [Command.instr] at h⟩

end Sys2Proof.Laws
end

