-- ==== Sys2Proof/Laws/Words.lean ====
section
/-! SUPPORT. What the frame every control word shares can do: a word performed goes through its cluster alone (R74, R75,
R112). -/

namespace Sys2Proof.Laws

open Sys2Proof.Machine

/-- With no loop ending here the nest stays and the cluster goes to the next bundle. -/
theorem endLoops_past (here : Word) (w : Nat) (stop : Bool) : ∀ ls : List LoopEntry, (∀ e ∈ ls, e.stop ≠ here) →
    endLoops here w stop ls = (none, ls, [])
  | [], _ => rfl
  | e :: rest, h => by
    simp only [endLoops, endLoops_past here w stop rest fun x hx => h x (List.mem_cons_of_mem _ hx),
      if_pos (h e List.mem_cons_self)]

/-- Without a stop request no loop is left early. -/
theorem endLoops_ids (here : Word) (w : Nat) : ∀ ls : List LoopEntry, (endLoops here w false ls).2.2 = []
  | [] => rfl
  | e :: rest => by
    have := endLoops_ids here w rest
    simp only [endLoops]
    split
    · exact this
    · split
      · rfl
      · simpa using this

@[simp] theorem apart_modCore (s : State) (f : Core → Core) : (s.modCore f).apart = s.apart := rfl
@[simp] theorem apart_modCl (s : State) (f : Cluster → Cluster) : (s.modCl f).apart = s.apart := rfl

@[simp] theorem core_apart_setCluster (c : Core) (l : Lane) (x : Cluster) : (c.setCluster l x).apart = c.apart := by cases l <;> rfl
@[simp] theorem core_apart_modClusters (c : Core) (f : Lane → Cluster → Cluster) : (c.modClusters f).apart = c.apart := rfl
@[simp] theorem core_apart_modCl (s : State) (f : Cluster → Cluster) : (s.modCl f).core.apart = s.core.apart := by
  simp only [State.modCl, core_modCore, core_apart_setCluster]

theorem coreAt_modCore_of_ne (s : State) (f : Core → Core) {k : Nat} (h : k ≠ s.cur) : (s.modCore f).coreAt k = s.coreAt k :=
  coreAt_modCore_other s f h

theorem cur_of_apart {u v : State} (h : v.apart = u.apart) : v.cur = u.cur := (congrArg State.cur h : v.apart.cur = u.apart.cur)
theorem lane_of_apart {u v : State} (h : v.apart = u.apart) : v.lane = u.lane := (congrArg State.lane h : v.apart.lane = u.apart.lane)
theorem clock_of_apart {u v : State} (h : v.apart = u.apart) : v.clock = u.clock := (congrArg State.clock h : v.apart.clock = u.apart.clock)
theorem warm_of_apart {u v : State} (h : v.apart = u.apart) : v.warm = u.warm := by
  unfold State.warm; rw [clock_of_apart h]
theorem stopping_of_apart {c d : Core} (h : d.apart = c.apart) : d.stopping = c.stopping := by
  have h1 : d.preempt = c.preempt := (congrArg Core.preempt h : d.apart.preempt = c.apart.preempt)
  have h2 : d.inHandler = c.inHandler := (congrArg Core.inHandler h : d.apart.inHandler = c.apart.inHandler)
  have h3 : d.replay = c.replay := (congrArg Core.replay h : d.apart.replay = c.apart.replay)
  simp only [Core.stopping, h1, h2, h3]

/-- `v` differs from `u` in the registers `r` of the current cluster only. -/
structure Writes (u v : State) (r : List RegRef) : Prop where
  pod : v.apart = u.apart
  others : ∀ k, k ≠ u.cur → v.coreAt k = u.coreAt k
  core : v.core.apart = u.core.apart
  clusters : ∀ l, l ≠ u.lane → v.core.cluster l = u.core.cluster l
  regs : u.cl.SameBut v.cl r
  keep : v.cl.pc = u.cl.pc ∧ v.cl.split = u.cl.split ∧ v.cl.atJoin = u.cl.atJoin ∧ v.cl.joinId = u.cl.joinId ∧
    v.cl.stopped = u.cl.stopped ∧ v.cl.loops = u.cl.loops

theorem SameBut.refl (x : Cluster) (r : List RegRef) : x.SameBut x r := ⟨fun _ _ => rfl, fun _ _ => rfl, fun _ _ => rfl, fun _ _ _ => rfl⟩

theorem Writes.refl (u : State) : Writes u u [] :=
  ⟨rfl, fun _ _ => rfl, rfl, fun _ _ => rfl, SameBut.refl _ _, rfl, rfl, rfl, rfl, rfl, rfl⟩

/-- A change of the current cluster that keeps where it stands. -/
theorem Writes.ofModCl (u : State) (f : Cluster → Cluster) (r : List RegRef) (hs : u.cl.SameBut (f u.cl) r)
    (hk : (f u.cl).pc = u.cl.pc ∧ (f u.cl).split = u.cl.split ∧ (f u.cl).atJoin = u.cl.atJoin ∧ (f u.cl).joinId = u.cl.joinId ∧
      (f u.cl).stopped = u.cl.stopped ∧ (f u.cl).loops = u.cl.loops) : Writes u (u.modCl f) r where
  pod := rfl
  others k h := coreAt_modCl_other u f h
  core := core_apart_modCl u f
  clusters l h := cluster_modCl_other u f h
  regs := by rw [cl_modCl]; exact hs
  keep := by rw [cl_modCl]; exact hk

theorem isBusy_setBusy_other (x : Cluster) (r q : RegRef) (t : Option Nat) (w : Nat) (h : q ≠ r) :
    (x.setBusy r t).isBusy w q = x.isBusy w q := by
  unfold Cluster.setBusy
  split
  · rfl
  · simp only [Cluster.isBusy, List.any_cons, decide_eq_false (Ne.symm h), Bool.false_and, Bool.false_or, List.any_filter]
    refine congrArg (List.any x.busy) (funext fun y => ?_)
    by_cases hy : y.1 = q
    · subst hy; simp [h]
    · simp [hy]

theorem isBusy_setBusy_none (x : Cluster) (r : RegRef) (w : Nat) (h : r ≠ .g 0 ∧ r ≠ .p 0) : (x.setBusy r none).isBusy w r = true := by
  unfold Cluster.setBusy
  rw [if_neg (by tauto)]
  simp [Cluster.isBusy]

theorem toNat_eq_zero {w : Nat} {d : BitVec w} : d.toNat = 0 ↔ d = 0 := by
  rw [← BitVec.toNat_inj]; simp

theorem writes_writeG (u : State) (d : BitVec 5) (v : Word) (n : Nat) : Writes u (u.writeG d v n) [gR d] := by
  refine Writes.ofModCl u _ _ ⟨?_, ?_, ?_, ?_⟩ ?_
  · intro n hn
    have : n ≠ d.toNat := fun h => hn (by simp [gR, h])
    simp [rg_wg, this]
  · intro n _; simp
  · intro n _; simp
  · intro q w hq
    rw [isBusy_setBusy_other _ _ _ _ _ (by simpa [gR] using hq)]
    simp only [Cluster.isBusy, wg_busy]
  · simp

theorem writes_awaitG (u : State) (d : BitVec 5) : Writes u (u.awaitG d) [gR d] := by
  refine Writes.ofModCl u _ _ ⟨?_, ?_, ?_, ?_⟩ ?_
  · intro n _; simp
  · intro n _; simp
  · intro n _; simp
  · intro q w hq
    rw [isBusy_setBusy_other _ _ _ _ _ (by simpa [gR] using hq)]
  · simp

theorem writes_writeP (u : State) (d : BitVec 2) (v : Bool) : Writes u (u.writeP d v) [pR d] := by
  refine Writes.ofModCl u _ _ ⟨?_, ?_, ?_, ?_⟩ ?_
  · intro n _; simp
  · intro n hn
    have : n ≠ d.toNat := fun h => hn (by simp [pR, h])
    simp [rp_wp, this]
  · intro n _; simp
  · intro q w hq
    rw [isBusy_setBusy_other _ _ _ _ _ (by simpa [pR] using hq)]
    simp only [Cluster.isBusy, wp_busy]
  · simp

theorem writes_writeC (u : State) (d : BitVec 3) (v : Word32) : Writes u (u.writeC d v) [cR d] := by
  refine Writes.ofModCl u _ _ ⟨?_, ?_, ?_, ?_⟩ ?_
  · intro n _; simp
  · intro n _; simp
  · intro n hn
    have : n ≠ d.toNat := fun h => hn (by simp [cR, h])
    simp [rc_wc, this]
  · intro q w hq
    rw [isBusy_setBusy_other _ _ _ _ _ (by simpa [cR] using hq)]
    simp only [Cluster.isBusy, wc_busy]
  · simp

/-- The registers of the current cluster of `t` are those of `v`, and the rest of the pod is untouched. -/
theorem Through.ofWrites {u v t : State} {sy : BitVec 1} {r : List RegRef} {a : Option Word} (w : Writes u v r)
    (h : Through v t sy [] a) : Through u t sy r a where
  pod := h.pod.trans w.pod
  others k hk := (h.others k (by rwa [cur_of_apart w.pod])).trans (w.others k hk)
  core := h.core.trans w.core
  clusters l hl := (h.clusters l (by rwa [lane_of_apart w.pod])).trans (congrArg _ (w.clusters l hl))
  nests hs l hl := (h.nests (by rw [stopping_of_apart w.core]; exact hs) l (by rwa [lane_of_apart w.pod])).trans (w.clusters l hl)
  regs := ⟨fun n hn => (h.regs.g n (by simp)).trans (w.regs.g n hn), fun n hn => (h.regs.p n (by simp)).trans (w.regs.p n hn),
    fun n hn => (h.regs.c n (by simp)).trans (w.regs.c n hn), fun q x hq => (h.regs.busy q x (by simp)).trans (w.regs.busy q x hq)⟩
  goes := by
    obtain ⟨kp, ks, ka, kj, kt, kl⟩ := w.keep
    obtain ⟨g1, g2, g3, g4, g5⟩ := h.goes
    rw [warm_of_apart w.pod] at g1 g2
    rw [ks] at g1 g2 g3 g4
    rw [kp] at g2 g3
    rw [kl] at g1 g2 g3
    rw [ka, kj, kt] at g4
    exact ⟨g1, g2, g3, g4, g5⟩

/-- A word performed goes through its cluster alone. -/
theorem through_finish (u : State) (sy : BitVec 1) (a : Option Word) : Through u (u.finish sy a) sy [] a := by
  unfold State.finish
  cases hs : u.cl.split with
  | false =>
    simp only [Bool.false_eq_true, if_false]
    refine ⟨rfl, fun k h => coreAt_modCl_other u _ h, by simp, fun l h => ?_, fun _ l h => ?_, ?_, ?_⟩
    · rw [cluster_modCl_other u _ h]
    · rw [cluster_modCl_other u _ h]
    · rw [cl_modCl]; exact ⟨fun _ _ => rfl, fun _ _ => rfl, fun _ _ => rfl, fun _ _ _ => rfl⟩
    · rw [cl_modCl]; exact ⟨fun _ _ h => by simp [hs] at h, fun _ h => by simp [hs] at h, fun _ => ⟨rfl, rfl, rfl, rfl, rfl⟩,
        ⟨rfl, rfl, rfl, rfl⟩, rfl, rfl⟩
  | true =>
    simp only [if_true]
    unfold State.advance
    cases a with
    | some a =>
      refine ⟨rfl, fun k h => coreAt_modCl_other u _ h, by simp, fun l h => ?_, fun _ l h => ?_, ?_, ?_⟩
      · simp only [cluster_modCl_other u _ h]
      · simp only [cluster_modCl_other u _ h]
      · simp only [cl_modCl]; exact ⟨fun _ _ => rfl, fun _ _ => rfl, fun _ _ => rfl, fun _ _ _ => rfl⟩
      · simp only [cl_modCl]
        exact ⟨fun b hb _ => by cases hb; exact ⟨rfl, rfl, rfl⟩, fun h => (by cases h), fun h => by simp [hs] at h,
          ⟨rfl, rfl, rfl, rfl⟩, rfl, rfl⟩
    | none =>
      generalize hE : endLoops u.cl.pc u.warm u.core.stopping u.cl.loops = E
      obtain ⟨t, ls, ids⟩ := E
      simp only [hE]
      have key : ∀ l, l ≠ u.lane → ∀ (f : Cluster → Cluster) (c : Core), c = (u.modCl f).core →
          ((if ids.isEmpty then c else c.endIds ids).cluster l).apart = (u.core.cluster l).apart := by
        intro l hl f c hc
        subst hc
        split
        · rw [cluster_modCl_other u f hl]
        · simp only [Core.endIds, cluster_modClusters, Cluster.apart, cluster_modCl_other u f hl]
      have keyc : ∀ (c : Core), (if ids.isEmpty then c else c.endIds ids).apart = c.apart := by
        intro c; split
        · rfl
        · rfl
      have own : ∀ (x : Cluster) (c : Core), c.cluster u.lane = x →
          ((if ids.isEmpty then c else c.endIds ids).cluster u.lane) = { x with
            loops := if ids.isEmpty then x.loops
                     else x.loops.map (fun e => if ids.contains e.id then { e with last := true } else e) } := by
        intro x c hc
        by_cases hi : ids.isEmpty
        · simp only [hi, if_true, hc]
        · simp only [hi, if_false, Bool.false_eq_true, Core.endIds, cluster_modClusters, hc]
      have ocl := own _ _ (cl_modCl u fun x => { x with pc := (t.map (·.1)).getD (x.pc + 16), loops := ls, readyAt := u.warm + 1, since := none, wait := .none })
      refine ⟨rfl, fun k h => ?_, ?_, fun l h => ?_, fun hst l h => ?_, ?_, ?_⟩
      · rw [coreAt_modCore_other _ _ (by exact h), coreAt_modCl_other u _ h]
      · rw [core_modCore, keyc, core_apart_modCl]
      · rw [core_modCore]; exact key l h _ _ rfl
      · have : ids = [] := by
          have := endLoops_ids u.cl.pc u.warm u.cl.loops
          rw [hst] at hE
          rw [hE] at this; exact this
        subst this
        rw [core_modCore]
        simp only [List.isEmpty_nil, if_true]
        rw [cluster_modCl_other u _ h]
      · simp only [State.cl, core_modCore, modCore_lane, modCl_lane] at ocl ⊢
        rw [ocl]
        exact ⟨fun _ _ => rfl, fun _ _ => rfl, fun _ _ => rfl, fun _ _ _ => rfl⟩
      · have e2 : ∀ x, State.cl (State.modCore (u.modCl fun x => { x with pc := (t.map (·.1)).getD (x.pc + 16), loops := ls, readyAt := u.warm + 1, since := none, wait := .none }) x) =
            (x (u.modCl fun x => { x with pc := (t.map (·.1)).getD (x.pc + 16), loops := ls, readyAt := u.warm + 1, since := none, wait := .none }).core).cluster u.lane := by
          intro x; simp only [State.cl, core_modCore, modCore_lane, modCl_lane]
        rw [e2]
        simp only [State.cl, modCl_lane] at ocl
        rw [ocl]
        refine ⟨fun _ h => (by cases h), fun _ _ hp => ?_, fun h => (by simp [hs] at h), ⟨rfl, rfl, rfl, rfl⟩, rfl, rfl⟩
        rw [endLoops_past _ _ _ _ hp] at hE
        obtain ⟨rfl, rfl, rfl⟩ := Prod.mk.inj hE |>.imp_right Prod.mk.inj
        exact ⟨rfl, by simp, rfl⟩

/-! ## Words that issue -/

theorem depsReady_zero (s : State) : s.depsReady 0 = true := rfl

theorem regsReady_mono {s : State} {rd wr rd' wr' : List RegRef} (h : s.regsReady rd wr = true)
    (hs : ∀ q ∈ rd' ++ wr', q ∈ rd ++ wr) : s.regsReady rd' wr' = true := by
  simp only [State.regsReady, Bool.not_eq_true', List.any_eq_false] at h ⊢
  exact fun q hq => h q (hs q hq)

theorem core_apart_takeDeps (s : State) (dep : BitVec 4) : (s.takeDeps dep).apart = s.apart := rfl
@[simp] theorem warm_takeDeps (s : State) (dep : BitVec 4) : (s.takeDeps dep).warm = s.warm := rfl
@[simp] theorem lane_takeDeps (s : State) (dep : BitVec 4) : (s.takeDeps dep).lane = s.lane := rfl
@[simp] theorem cur_takeDeps (s : State) (dep : BitVec 4) : (s.takeDeps dep).cur = s.cur := rfl

theorem cluster_takeDeps (s : State) (dep : BitVec 4) (l : Lane) : (s.takeDeps dep).core.cluster l = s.core.cluster l := by
  simp only [State.takeDeps, core_modCore]
  cases dep.getLsbD 3 <;> cases dep.getLsbD 2 <;> cases dep.getLsbD 1 <;> cases dep.getLsbD 0 <;> simp

@[simp] theorem cl_takeDeps (s : State) (dep : BitVec 4) : (s.takeDeps dep).cl = s.cl := by
  simp only [State.cl, cluster_takeDeps, lane_takeDeps]

@[simp] theorem g_takeDeps (s : State) (dep : BitVec 4) (n : BitVec 5) : (s.takeDeps dep).g n = s.g n := by simp only [State.g, cl_takeDeps]
@[simp] theorem p_takeDeps (s : State) (dep : BitVec 4) (n : BitVec 2) : (s.takeDeps dep).p n = s.p n := by simp only [State.p, cl_takeDeps]
@[simp] theorem c_takeDeps (s : State) (dep : BitVec 4) (n : BitVec 3) : (s.takeDeps dep).c n = s.c n := by simp only [State.c, cl_takeDeps]

theorem takeDeps_zero (s : State) : s.takeDeps 0 = s.modCore fun c => c := rfl

theorem writes_takeDeps_zero (s : State) : Writes s (s.takeDeps 0) [] where
  pod := rfl
  others k h := coreAt_modCore_of_ne s _ h
  core := by rw [takeDeps_zero, core_modCore]
  clusters l _ := by rw [takeDeps_zero, core_modCore]
  regs := by rw [takeDeps_zero]; simp only [State.cl, core_modCore, modCore_lane]; exact SameBut.refl _ _
  keep := by rw [takeDeps_zero]; simp only [State.cl, core_modCore, modCore_lane]; simp

theorem Writes.trans {u v w : State} {r q : List RegRef} (h : Writes u v r) (k : Writes v w q) : Writes u w (r ++ q) where
  pod := k.pod.trans h.pod
  others i hi := (k.others i (by rwa [cur_of_apart h.pod])).trans (h.others i hi)
  core := k.core.trans h.core
  clusters l hl := (k.clusters l (by rwa [lane_of_apart h.pod])).trans (h.clusters l hl)
  regs := ⟨fun n hn => (k.regs.g n (by simp_all)).trans (h.regs.g n (by simp_all)),
    fun n hn => (k.regs.p n (by simp_all)).trans (h.regs.p n (by simp_all)),
    fun n hn => (k.regs.c n (by simp_all)).trans (h.regs.c n (by simp_all)),
    fun n x hn => (k.regs.busy n x (by simp_all)).trans (h.regs.busy n x (by simp_all))⟩
  keep := by
    obtain ⟨a1, a2, a3, a4, a5, a6⟩ := h.keep
    obtain ⟨b1, b2, b3, b4, b5, b6⟩ := k.keep
    exact ⟨b1.trans a1, b2.trans a2, b3.trans a3, b4.trans a4, b5.trans a5, b6.trans a6⟩

/-! ## States that agree

`takeDeps 0` writes the core's record back unchanged: the state agrees with the one before, record by record. -/

/-- `u` and `v` agree in everything but, at most, whether a core in its initial state is listed. -/
structure Same (u v : State) : Prop where
  pod : v.apart = u.apart
  at_ : ∀ k, v.coreAt k = u.coreAt k

theorem coreAt_modCore (s : State) (f : Core → Core) (k : Nat) :
    (s.modCore f).coreAt k = if k = s.cur then f s.core else s.coreAt k := coreAt_modCoreAt s s.cur k f

theorem Same.refl (u : State) : Same u u := ⟨rfl, fun _ => rfl⟩

theorem Same.core {u v : State} (h : Same u v) : v.core = u.core := by
  simp only [State.core, cur_of_apart h.pod]; exact h.at_ _

theorem Same.cl {u v : State} (h : Same u v) : v.cl = u.cl := by
  simp only [State.cl, h.core, lane_of_apart h.pod]

theorem same_takeDeps_zero (s : State) : Same s (s.takeDeps 0) :=
  ⟨rfl, fun k => by rw [takeDeps_zero, coreAt_modCore]; split <;> simp_all [State.core]⟩

theorem Same.modCore {u v : State} (h : Same u v) (f : Core → Core) : Same (u.modCore f) (v.modCore f) :=
  ⟨h.pod, fun k => by rw [coreAt_modCore, coreAt_modCore, cur_of_apart h.pod, h.core, h.at_]⟩

theorem Same.modCl {u v : State} (h : Same u v) (f : Cluster → Cluster) : Same (u.modCl f) (v.modCl f) := by
  simp only [State.modCl, lane_of_apart h.pod]; exact h.modCore _

theorem Same.writes {u v : State} (h : Same u v) : Writes u v [] where
  pod := h.pod
  others k _ := h.at_ k
  core := by rw [h.core]
  clusters l _ := by rw [h.core]
  regs := by rw [h.cl]; exact SameBut.refl _ _
  keep := by rw [h.cl]; simp

/-- A control word whose registers and tokens are there does what it does. -/
theorem control_ready {sy : BitVec 1} {dep : BitVec 4} {rd wr : List RegRef} {s : State} {f : State → Perform}
    (hr : s.regsReady rd wr = true) (hd : s.depsReady dep = true) :
    Machine.control sy dep rd wr s f =
      match f (s.takeDeps dep) with
      | .done t => .next (t.finish sy none)
      | .jump t a => .next (t.finish sy (some a))
      | .start t w => .next ((s.untaken t w).beginWait w)
      | .hold t => .next { s with cores := s.cores, dies := t.dies, drawn := t.drawn }.waitAtIssue
      | .trap code addr => .next (s.wordTrap code addr) := by
  unfold Machine.control
  rw [if_pos ⟨hr, hd⟩]
  all_goals cases f (s.takeDeps dep) <;> rfl

/-- Values and latency of a register just written, through the end of its word. -/
theorem rg_through {u t : State} {sy : BitVec 1} {a : Option Word} (h : Through u t sy [] a) (n : Nat) : t.cl.rg n = u.cl.rg n :=
  h.regs.g n (by simp)
theorem rp_through {u t : State} {sy : BitVec 1} {a : Option Word} (h : Through u t sy [] a) (n : Nat) : t.cl.rp n = u.cl.rp n :=
  h.regs.p n (by simp)
theorem rc_through {u t : State} {sy : BitVec 1} {a : Option Word} (h : Through u t sy [] a) (n : Nat) : t.cl.rc n = u.cl.rc n :=
  h.regs.c n (by simp)
theorem busy_through {u t : State} {sy : BitVec 1} {a : Option Word} (h : Through u t sy [] a) (w : Nat) (q : RegRef) :
    t.cl.isBusy w q = u.cl.isBusy w q := h.regs.busy q w (by simp)

/-- From `u`, through `v`, gD written. -/
theorem writesG_of {u v : State} {sy : BitVec 1} {d : BitVec 5} {x : Word} {n : Nat} {a : Option Word} (h : Writes u v []) :
    WritesG u (.next ((v.writeG d x n).finish sy a)) sy d x n a := by
  refine ⟨_, rfl, Through.ofWrites (by simpa using h.trans (writes_writeG v d x n)) (through_finish _ _ _), ?_, fun w => ?_⟩
  · rw [rg_through (through_finish _ _ _)]
    simp only [State.writeG, cl_modCl, rg_setBusy, rg_wg_self, toNat_eq_zero]
  · rw [busy_through (through_finish _ _ _)]
    simp only [State.writeG, cl_modCl]
    by_cases h0 : d = 0
    · subst h0
      rw [if_pos rfl]
      exact h.regs.busy (.g 0) w (by simp)
    · rw [if_neg h0, gR, isBusy_setBusy _ (.g d.toNat) _ _ (by simpa [toNat_eq_zero] using h0), warm_of_apart h.pod]

theorem awaitsG_of {u v : State} {sy : BitVec 1} {d : BitVec 5} (h : Writes u v []) :
    AwaitsG u (.next ((v.awaitG d).finish sy none)) sy d := by
  refine ⟨_, rfl, Through.ofWrites (by simpa using h.trans (writes_awaitG v d)) (through_finish _ _ _), fun n => ?_, fun w => ?_⟩
  · rw [rg_through (through_finish _ _ _)]
    simp only [State.awaitG, cl_modCl, rg_setBusy]
    exact h.regs.g n (by simp)
  · rw [busy_through (through_finish _ _ _)]
    simp only [State.awaitG, cl_modCl]
    by_cases h0 : d = 0
    · subst h0
      rw [if_pos rfl]
      exact h.regs.busy (.g 0) w (by simp)
    · rw [if_neg h0, gR, isBusy_setBusy_none _ (.g d.toNat) _ (by simpa [toNat_eq_zero] using h0)]

theorem writesP_of {u v : State} {sy : BitVec 1} {d : BitVec 2} {x : Bool} (h : Writes u v []) :
    WritesP u (.next ((v.writeP d x).finish sy none)) sy d x := by
  refine ⟨_, rfl, Through.ofWrites (by simpa using h.trans (writes_writeP v d x)) (through_finish _ _ _), ?_, fun w => ?_⟩
  · rw [rp_through (through_finish _ _ _)]
    simp only [State.writeP, cl_modCl, rp_setBusy, rp_wp_self, toNat_eq_zero]
  · rw [busy_through (through_finish _ _ _)]
    simp only [State.writeP, cl_modCl]
    by_cases h0 : d = 0
    · subst h0
      rw [if_pos rfl]
      exact h.regs.busy (.p 0) w (by simp)
    · rw [if_neg h0, pR, isBusy_setBusy _ (.p d.toNat) _ _ (by simpa [toNat_eq_zero] using h0), warm_of_apart h.pod]

theorem writesC_of {u v : State} {sy : BitVec 1} {d : BitVec 3} {x : Word32} (h : Writes u v []) :
    WritesC u (.next ((v.writeC d x).finish sy none)) sy d x := by
  refine ⟨_, rfl, Through.ofWrites (by simpa using h.trans (writes_writeC v d x)) (through_finish _ _ _), ?_, fun w => ?_⟩
  · rw [rc_through (through_finish _ _ _)]
    simp only [State.writeC, cl_modCl, rc_setBusy, rc_wc_self]
  · rw [busy_through (through_finish _ _ _)]
    simp only [State.writeC, cl_modCl]
    rw [cR, isBusy_setBusy _ (.c d.toNat) _ _ (by simp), warm_of_apart h.pod]

theorem passes_of {u v : State} {sy : BitVec 1} {a : Option Word} (h : Writes u v []) : Passes u (.next (v.finish sy a)) sy a :=
  ⟨_, rfl, Through.ofWrites h (through_finish _ _ _)⟩

/-- The shared forms of the integer words. -/
theorem word3_writes {sy : BitVec 1} {d a b : BitVec 5} {n : Nat} {f : Word → Word → Word} {s : State} {v : Word}
    (hr : s.regsReady [gR a, gR b] [gR d] = true) (hv : f (s.g a) (s.g b) = v) : WritesG s (word3 sy d a b n f s) sy d v n none := by
  subst hv
  rw [word3, control_ready hr (depsReady_zero s)]
  simp only [g_takeDeps]
  exact writesG_of (writes_takeDeps_zero s)

theorem word2_writes {sy : BitVec 1} {d a : BitVec 5} {n : Nat} {f : Word → Word} {s : State} {v : Word}
    (hr : s.regsReady [gR a] [gR d] = true) (hv : f (s.g a) = v) : WritesG s (word2 sy d a n f s) sy d v n none := by
  subst hv
  rw [word2, control_ready hr (depsReady_zero s)]
  simp only [g_takeDeps]
  exact writesG_of (writes_takeDeps_zero s)

theorem word1_writes {sy : BitVec 1} {d : BitVec 5} {f : State → Word} {s : State} {v : Word}
    (hr : s.regsReady [] [gR d] = true) (hv : f (s.takeDeps 0) = v) : WritesG s (word1 sy d f s) sy d v 1 none := by
  subst hv
  rw [word1, control_ready hr (depsReady_zero s)]
  exact writesG_of (writes_takeDeps_zero s)

theorem pred2_writes {sy : BitVec 1} {d a b : BitVec 2} {f : Bool → Bool → Bool} {s : State} {v : Bool}
    (hr : s.regsReady [pR a, pR b] [pR d] = true) (hv : f (s.p a) (s.p b) = v) : WritesP s (pred2 sy d a b f s) sy d v := by
  subst hv
  rw [pred2, control_ready hr (depsReady_zero s)]
  simp only [p_takeDeps]
  exact writesP_of (writes_takeDeps_zero s)

theorem pred1_writes {sy : BitVec 1} {d a : BitVec 2} {f : Bool → Bool} {s : State} {v : Bool}
    (hr : s.regsReady [pR a] [pR d] = true) (hv : f (s.p a) = v) : WritesP s (pred1 sy d a f s) sy d v := by
  subst hv
  rw [pred1, control_ready hr (depsReady_zero s)]
  simp only [p_takeDeps]
  exact writesP_of (writes_takeDeps_zero s)

end Sys2Proof.Laws
end

