-- ==== Sys2Proof/Tests/Slice0.lean ====
section
/-! SUPPORT. Tests of the model's own, and a witness for the hypotheses of every statement. Expected values come from the spec's
tables and examples or are worked out by hand from them. -/

set_option Elab.async false
set_option maxRecDepth 100000

namespace Sys2Proof.Tests

open Sys2Proof Sys2Proof.Machine

/-! ## A small pod: one core with a running task, a read-only region 1 and a region 2 the core may write -/

def rwRegion : Region :=
  { base := 131072, size := 65536, pkg := 0, rw := true, pinned := true, mirror := false, keyen := false, key := 0, token := 5, mbase := 0 }

def heldToken : Token := { head := 5, units := 1, isHead := true, mode := .excl, region := 2, hgroup := 1 }

def podPart : Part := { regions := [(1, encodeRegion placeRegion), (2, encodeRegion rwRegion)], tokens := [(5, heldToken)] }

def podSlot : Slot :=
  { state := .running, launch := 1, cquota := 8192, atiles := 48, osquota := 0x801001000, code := handleOf 1 0, ncores := 1 }

def podCore : Core := { run := some 0, slot0 := podSlot, tlb := [1, 2] }

def podBase : State := { State.reset with clock := 160, parts := [(0, podPart)] }

/-- The pod with its core changed. -/
def pod (f : Core → Core) : State := podBase.modCore fun _ => f podCore

/-- The pod with its cluster L changed. -/
def podCl (f : Cluster → Cluster) : State := pod fun c => { c with l := f c.l }

def ready : State := pod id

theorem issues_of {s : State} {dep : BitVec 4} {rd wr : List RegRef} (h : s.regsReady rd wr = true ∧ s.depsReady dep = true) :
    s.Issues dep rd wr := h
theorem compared_of {s : State} (w : Nat) (h : s.cl.wait = .since w ∧ w + 6 ≤ s.warm ∧ s.core.willMismatch = false) : s.Compared := ⟨w, h⟩

/-! ## Witnesses: scalar words -/

theorem test_witness_register_words : ready.regsReady [gR 31, gR 0] [gR 31] = true := by decide +kernel
theorem test_witness_division_by_zero : ready.regsReady [gR 1, gR 2] [gR 3] = true ∧ ready.g 2 = 0 := by decide +kernel
theorem test_witness_division_overflow :
    let s := podCl fun x => (x.wg 1 (BitVec.intMin 64)).wg 2 (BitVec.allOnes 64)
    s.regsReady [gR 1, gR 2] [gR 3] = true ∧ s.g 1 = BitVec.intMin 64 ∧ s.g 2 = BitVec.allOnes 64 := by decide +kernel
theorem test_witness_division :
    let s := podCl fun x => (x.wg 1 7).wg 2 2
    s.regsReady [gR 1, gR 2] [gR 3] = true ∧ s.g 2 ≠ 0 ∧ ¬ (s.g 1 = BitVec.intMin 64 ∧ s.g 2 = BitVec.allOnes 64) := by decide +kernel
theorem test_witness_immediates : ready.regsReady [gR 31] [gR 31] = true := by decide +kernel
theorem test_witness_predicates : ready.regsReady [gR 1, gR 2, pR 3, pR 0] [gR 3, pR 3] = true ∧ (5#3).toNat < 6 := by decide +kernel
theorem test_witness_coordinates : ready.regsReady [gR 1, gR 2, cR 6] [gR 3, cR 6] = true := by decide +kernel
theorem test_witness_jalr : ready.regsReady [pR 3, gR 1] [gR 31] = true ∧ (ready.g 1 + (16#15).signExtend 64).extractLsb' 0 4 = 0 := by
  decide +kernel
theorem test_witness_jalr_misaligned : (ready.g 1 + (1#15).signExtend 64).extractLsb' 0 4 ≠ 0 := by decide +kernel

def atJoins (n : BitVec 8) (own : Bool) : State :=
  pod fun c => c.modClusters fun l x => { x with atJoin := own || decide (l ≠ .L), joinId := n }

theorem test_witness_join_meets :
    (∀ l, l ≠ (atJoins 5 false).lane → ((atJoins 5 false).core.cluster l).atJoin = true ∧ ((atJoins 5 false).core.cluster l).joinId = 5 ∧
      ((atJoins 5 false).core.cluster l).pc = (atJoins 5 false).cl.pc) ∧ (atJoins 5 false).cl.atJoin = false :=
  ⟨by intro l h; cases l <;> revert h <;> decide +kernel, by decide +kernel⟩
theorem test_witness_join_waits :
    (∃ l, l ≠ ready.lane ∧ (ready.core.cluster l).atJoin = false) ∧ ready.cl.atJoin = false ∧
    (∀ l, (ready.core.cluster l).atJoin = true → (ready.core.cluster l).joinId = 5 ∧ (ready.core.cluster l).pc = ready.cl.pc) :=
  ⟨⟨.E, by decide +kernel, by decide +kernel⟩, by decide +kernel, by intro l; cases l <;> decide +kernel⟩
theorem test_witness_join_clash :
    ∃ l, ((atJoins 5 false).core.cluster l).atJoin = true ∧
      (((atJoins 5 false).core.cluster l).joinId ≠ 6 ∨ ((atJoins 5 false).core.cluster l).pc ≠ (atJoins 5 false).cl.pc) :=
  ⟨.E, by decide +kernel, by decide +kernel⟩

def oneLoop : LoopEntry :=
  { remaining := 2, initial := 3, start := 16, stop := 32, id := 0, inst := 1, pre := false, began := 0, kill := none }

theorem test_witness_loop_skips : ready.regsReady [gR 1, pR 1] [] = true ∧ ready.g 1 = 0 := by decide +kernel
theorem test_witness_loop_pushes :
    let s := podCl fun x => { x.wg 1 3 with loops := [oneLoop, oneLoop, oneLoop] }
    s.regsReady [gR 1, pR 1] [] = true ∧ s.g 1 ≠ 0 ∧ s.cl.loops.length < 4 := by decide +kernel
theorem test_witness_loop_full :
    let s := podCl fun x => { x.wg 1 3 with loops := [oneLoop, oneLoop, oneLoop, oneLoop] }
    s.regsReady [gR 1, pR 1] [] = true ∧ s.g 1 ≠ 0 ∧ 4 ≤ s.cl.loops.length := by decide +kernel
theorem test_witness_lexit_stays : ready.regsReady [gR 1, pR 1] [] = true ∧ xor (ready.p 1) (decide (0#1 = 1)) = false := by decide +kernel
theorem test_witness_lexit_empty :
    ready.regsReady [gR 1, pR 0] [] = true ∧ xor (ready.p 0) (decide (0#1 = 1)) = true ∧ ready.cl.loops = [] := by decide +kernel
theorem test_witness_lexit_pops :
    let s := podCl fun x => { x with loops := [oneLoop] }
    s.regsReady [gR 1, pR 0] [] = true ∧ xor (s.p 0) (decide (0#1 = 1)) = true ∧ s.cl.loops = oneLoop :: [] := by decide +kernel

def someEntry (op : QOp) : QEntry := { seq := 1, lane := .L, warm := 3, word := handleOf 1 0, tags := [], killed := false, held := none, level := 0, op := op }

theorem test_witness_kill_marker :
    let e := { someEntry (.marker 1) with tags := [(1, 2)] }
    let x : Put := { tail := 64, tags := [(1, 2)], killed := false }
    let c : Core := { podCore with lq := [e], e := { loops := [oneLoop] }, str := { puts := [x] } }
    (e ∈ c.queue .load ∧ x ∈ c.str.puts ∧ (∀ y ∈ e.tags, y.2 ≤ 2) ∧ (∀ y ∈ x.tags, y.2 ≤ 2) ∧
      ∃ y ∈ ((c.kill .L 0 1 1).cluster .E).loops, y.id = 0) ∧ (∃ j, (1, j) ∈ e.tags ∧ 1 < j) ∧ ∃ j, (1, j) ∈ x.tags ∧ 1 < j := by
  refine ⟨by decide +kernel, ⟨2, by decide +kernel, by decide⟩, 2, by decide +kernel, by decide⟩

theorem test_witness_sends :
    ready.regsReady [gR 1] [gR 2] = true ∧ (ready.core.portAt (leftOut ready.lane)).items = [] ∧
    (ready.core.portAt (leftOut ready.lane)).pops = 0 ∧ (ready.core.portAt (rightOut ready.lane)).items = [] ∧
    (ready.core.portAt (rightOut ready.lane)).pops = 0 := by decide +kernel

def ports (n : Nat) : State :=
  pod fun c => { c with port := (List.range 8).map fun i => (i, { items := List.replicate n (9, 7) }) }

theorem test_witness_receives :
    ((ports 1).core.portAt (leftIn (ports 1).lane)).items = (9, 7) :: [] ∧ ((ports 1).core.portAt (rightIn (ports 1).lane)).items = (9, 7) :: [] ∧
    9 < (ports 1).warm ∧ (ports 1).regsReady [gR 1] [gR 2] = true := by decide +kernel
theorem test_witness_ports_full :
    4 ≤ ((ports 4).core.portAt (leftOut (ports 4).lane)).items.length ∧ 4 ≤ ((ports 4).core.portAt (rightOut (ports 4).lane)).items.length ∧
    (ready.core.portAt (leftIn ready.lane)).items = [] ∧ (ready.core.portAt (rightIn ready.lane)).items = [] ∧
    (ports 4).regsReady [gR 1] [gR 2] = true := by decide +kernel
theorem test_witness_busy_register :
    let s := podCl fun x => x.setBusy (.g 1) none
    s.cl.isBusy s.warm (gR 1) = true := by decide +kernel

/-! ## Witnesses: system words and traps -/

def inHandler : State := pod fun c => { c with inHandler := true, tacked := true }
def waited (n : Nat) : Cluster → Cluster := fun x => { x with wait := .since n }

theorem test_witness_srd :
    ready.regsReady [] [gR 1] = true ∧ ready.core.owes = {} ∧ sysAssigned 0x007 = false ∧ sysAssigned 0x2FF = true ∧
    ready.mayReadSys 0x2FF = false ∧ ready.mayReadSys 0x000 = true ∧ inHandler.mayReadSys 0x006 = true := by decide +kernel
theorem test_witness_compared : (podCl (waited 4)).Compared := compared_of 4 (by decide +kernel)
theorem test_witness_swr :
    (podCl (waited 4)).regsReady [gR 1] [] = true ∧ sysAssigned 0x007 = false ∧ sysAssigned 0x000 = true ∧
    (podCl (waited 4)).mayWriteSys 0x000 = false ∧ (podCl (waited 4)).mayWriteSys 0x012 = true := by decide +kernel
theorem test_witness_injection_malformed : (0x20 : BitVec 64).extractLsb' 5 27 ≠ 0 := by decide +kernel
theorem test_witness_system_words :
    (podCl (waited 4)).Issues 0 [] [gR 1] ∧ (podCl (waited 4)).core.owes = {} ∧ (podCl (waited 4)).core.oeq = [] ∧
    (podCl (waited 4)).core.inHandler = false := by
  refine ⟨issues_of (by decide +kernel), by decide +kernel⟩
theorem test_witness_system_words_in_a_handler :
    let s := pod fun c => { c with inHandler := true, l := waited 4 c.l, oeq := [9] }
    s.Issues 0 [] [gR 1] ∧ s.Compared ∧ s.core.owes = {} ∧ s.core.inHandler = true ∧ s.core.oeq = 9 :: [] := by
  exact ⟨issues_of (by decide +kernel), compared_of 4 (by decide +kernel), by decide +kernel⟩
theorem test_witness_wfi :
    let s := podCl fun x => { x with wait := .awake 4 }
    ready.depsReady 0 = true ∧ ready.cl.wait = .none ∧ s.depsReady 0 = true ∧ s.cl.wait = .awake 4 ∧ 4 + 6 ≤ s.warm ∧
    s.core.willMismatch = false := by decide +kernel
theorem test_witness_wfi_asleep :
    let s := podCl fun x => { x with wait := .asleep 4 }
    s.depsReady 0 = true ∧ s.cl.wait = .asleep 4 ∧ (s.core.cluster .L).wait = .asleep 4 := by decide +kernel
theorem test_witness_halt :
    (podCl (waited 4)).core.halting = false ∧ (podCl (waited 4)).Issues 0 [] [] := ⟨by decide +kernel, issues_of (by decide +kernel)⟩
theorem test_witness_halt_drains :
    let s := pod fun c => { c with halting := true }
    let b := pod fun c => { c with halting := true, lq := [someEntry (.marker 1)] }
    let x := pod fun c => { c with halting := true, slot0 := { podSlot with badCrc := some 1 } }
    s.core.halting = true ∧ s.core.drained_ = true ∧ s.core.run = some 0 ∧ (s.core.slotAt 0).badCrc = none ∧ b.core.halting = true ∧
    b.core.drained_ = false ∧ x.core.halting = true ∧ x.core.drained_ = true ∧ x.core.run = some 0 ∧ (x.core.slotAt 0).badCrc ≠ none := by
  decide +kernel
theorem test_witness_traps :
    ready.core.inHandler = false ∧ ready.core.back = [] ∧ 0xFFF < 4096 ∧ 0xFFF ≠ 0x15 ∧ 0xFFF ≠ 0x1C ∧ 0xFFF ≠ 0x1B ∧ ready.core.run ≠ none ∧
    State.reset.core.run = none ∧ ready.core.accLost = false ∧ (0x8001 : BitVec 16).extractLsb' 14 2 ≠ 1 := by decide +kernel
theorem test_witness_double_fault :
    let s := pod fun c => { c with inHandler := true }
    s.core.inHandler = true ∧ s.core.tacked = false ∧ s.core.run = some 0 ∧ (s.core.slotAt 0).badCrc = none := by decide +kernel

/-! ## Witnesses: loads, stores, queues -/

/-- Region 2 from its first byte, and its last word. -/
def h2 : Word := handleOf 2 0
def h2End : Word := handleOf 2 65528

def ptr (h : Word) : State := podCl fun x => x.wg 1 h

theorem test_witness_enqueue : QueueId.load ≠ .string ∧ ready.cl.loops = [] := by decide +kernel
theorem test_witness_load :
    (ptr h2End).regsReady [gR 1, gR 2] [gR 2] = true ∧ (ptr h2End).core.lq.length < 32 ∧ (ptr h2End).ldBad (.home 2 196600) 8 = none ∧
    (match (ptr h2End).access ((ptr h2End).g 1 + (0#12).signExtend 64) 8 8 false with | .pass p => decide (p = .home 2 196600) | _ => false) = true := by
  decide +kernel
theorem test_witness_store :
    (ptr h2End).core.sq.length < 32 ∧
    (match (ptr h2End).access ((ptr h2End).g 1 + (0#12).signExtend 64) 8 8 true with | .pass p => decide (p = .home 2 196600) | _ => false) = true := by
  decide +kernel
theorem test_witness_markers :
    let s := podCl fun x => (x.wg 1 h2).wg 2 65536
    let b := podCl fun x => (x.wg 1 h2).wg 2 65537
    s.Issues 0 [gR 1, gR 2] [] ∧ s.core.lq.length < 32 ∧ s.core.sq.length < 32 ∧ s.place (s.g 1) (s.g 2).toNat ≠ none ∧
    b.Issues 0 [gR 1, gR 2] [] ∧ b.core.lq.length < 32 ∧ b.core.sq.length < 32 ∧ b.g 2 ≠ 0 ∧ b.place (b.g 1) (b.g 2).toNat = none := by
  exact ⟨issues_of (by decide +kernel), by decide +kernel, by decide +kernel, by decide +kernel, issues_of (by decide +kernel), by decide +kernel⟩
/-- The pod with the last line of region 2 bad. -/
def badLine (s : State) : State := { s with bad := [3071] }
theorem test_witness_load_of_a_bad_line :
    let s := badLine (ptr h2End)
    s.regsReady [gR 1, gR 2] [gR 2] = true ∧ s.core.lq.length < 32 ∧ s.ldBad (.home 2 196600) 8 = some 3071 ∧
    (match s.access (s.g 1 + (0#12).signExtend 64) 8 8 false with | .pass p => decide (p = .home 2 196600) | _ => false) = true := by decide +kernel
theorem test_witness_access_checks :
    (handleOf 2 7).toNat % 8 ≠ 0 ∧ (handleOf 3 0).toNat % 8 = 0 ∧ regionIdx (handleOf 3 0) ≠ 0xFFF ∧ regionIdx (handleOf 3 0) ∉ ready.core.tlb ∧
    regionIdx h2 ∈ ready.core.tlb ∧ ready.locate ready.partNo (handleOf 2 65536) 8 = none := by decide +kernel
theorem test_witness_access_rights :
    ready.locate ready.partNo h2 8 = some (rwRegion, 131072) ∧ rwRegion.rw = true ∧ offsetOf h2 % 65536 + 8 ≤ 65536 ∧ ready.core.sends = [] ∧
    ready.holds (ready.part.headOf (unitOf rwRegion h2)).2 = true ∧ (ready.part.headOf (unitOf rwRegion h2)).2.mode = .excl ∧
    ready.locate ready.partNo (handleOf 1 0) 8 = some (placeRegion, 65536) ∧ placeRegion.rw = false := by decide +kernel
theorem test_witness_access_denied :
    let s := pod fun c => { c with slot0 := { podSlot with coreId := 1 } }
    regionIdx h2 ∈ s.core.tlb ∧ s.locate s.partNo h2 8 = some (rwRegion, 131072) ∧ (s.part.headOf (unitOf rwRegion h2)).1 ∉ s.core.shares ∧ s.holds (s.part.headOf (unitOf rwRegion h2)).2 = false := by decide +kernel
theorem test_witness_access_traps :
    (ptr (handleOf 2 65536)).regsReady [gR 1, gR 2] [gR 2] = true ∧ (ptr (handleOf 2 65536)).core.lq.length < 32 ∧
    (ptr (handleOf 1 0)).regsReady [gR 1, gR 2] [gR 2] = true ∧ (ptr (handleOf 1 0)).core.sq.length < 32 ∧
    (ptr (handleOf 3 0)).regsReady [gR 1, gR 2] [gR 2] = true ∧ (ptr (handleOf 3 0)).core.lq.length < 32 ∧
    (match (ptr (handleOf 2 65536)).access ((ptr (handleOf 2 65536)).g 1) 8 8 false with | .trap c a => decide (c = 8 ∧ a = handleOf 2 65536) | _ => false) = true ∧
    (match (ptr (handleOf 1 0)).access ((ptr (handleOf 1 0)).g 1) 8 8 true with | .trap c a => decide (c = 9 ∧ a = handleOf 1 0) | _ => false) = true ∧
    (match (ptr (handleOf 3 0)).access ((ptr (handleOf 3 0)).g 1) 8 8 false with | .walk r => decide (r = 3) | _ => false) = true := by decide +kernel
theorem test_witness_queues_full :
    let s := pod fun c => { c with lq := List.replicate 32 (someEntry (.marker 1)), sq := List.replicate 32 (someEntry (.marker 1)) }
    s.regsReady [gR 1, gR 2] [gR 2] = true ∧ 32 ≤ s.core.lq.length ∧ 32 ≤ s.core.sq.length := by decide +kernel

def loadEntry : QEntry := someEntry (.load h2End 7 .L 3)
def storeEntry : QEntry := someEntry (.store h2End 8 0x1122334455667788)
def hitLine : Line := { addr := 3071, data := 0, mask := 0, used := 0 }

theorem test_witness_load_performs :
    let s := pod fun c => { c with lq := [loadEntry] }
    s.ready .load = some loadEntry ∧ loadEntry.op = .load h2End 7 .L 3 ∧ loadEntry.killed = false ∧ s.core.willMismatch = false ∧
    s.core.replay = none ∧ s.placeQ h2End (Machine.sizeOf 7) = some (.home 2 196600) ∧ 196600 % 64 + Machine.sizeOf 7 ≤ 64 ∧
    s.badFill 196600 (Machine.sizeOf 7) = none ∧ s.core.l1d = [] := by decide +kernel
theorem test_witness_load_hits :
    let s := pod fun c => { c with lq := [loadEntry], l1d := [hitLine] }
    s.ready .load = some loadEntry ∧ s.core.willMismatch = false ∧ s.core.replay = none ∧ s.placeQ h2End (Machine.sizeOf 7) = some (.home 2 196600) ∧
    s.badFill 196600 (Machine.sizeOf 7) = none ∧ s.core.l1d = [hitLine] ∧ hitLine.addr = 196600 / 64 := by decide +kernel
theorem test_witness_load_returns :
    let x : Returning := { lane := .K, d := 31, value := 7, due := 10, word := 0, level := 0, seq := 1 }
    let s := pod fun c => { c with back := [x] }
    let h := pod fun c => { c with back := [x], inHandler := true, halting := true }
    s.core.back = x :: [] ∧ x.due ≤ s.warm ∧ x.level = s.core.level ∧ s.core.win = none ∧ h.core.back = x :: [] ∧ x.due ≤ h.warm ∧
    x.level ≠ h.core.level ∧ h.core.halting = true ∧ h.core.win = none := by decide +kernel
theorem test_witness_store_performs :
    let s := pod fun c => { c with sq := [storeEntry] }
    s.ready .store = some storeEntry ∧ storeEntry.op = .store h2End 8 0x1122334455667788 ∧ storeEntry.killed = false ∧
    s.core.willMismatch = false ∧ s.core.replay = none ∧ s.placeQ h2End 8 = some (.home 2 196600) ∧ 196600 % 64 + 8 ≤ 64 ∧ s.core.l1d = [] ∧
    s.lineBad 3071 = false := by decide +kernel
/-- Eight lines of one set, the first of them dirty and the least recently used. -/
def fullSet : List Line := (List.range 8).map fun i => { addr := 2048 + 128 * i, data := 9, mask := if i = 0 then 1 else 0, used := i }
theorem test_witness_evictions :
    let s := pod fun c => { c with l1d := fullSet }
    let v : Line := { addr := 2048, data := 9, mask := 1, used := 0 }
    let key := 64 * (2048 + 128 * 8)
    s.core.l1d = fullSet ∧ (∀ y ∈ fullSet, y.addr ≠ key / 64) ∧ 8 ≤ (fullSet.filter fun y => decide (y.addr % 128 = key / 64 % 128)).length ∧ v ∈ fullSet ∧
    v.addr % 128 = key / 64 % 128 ∧ (∀ y ∈ fullSet, y.addr % 128 = key / 64 % 128 → y ≠ v → v.used < y.used) ∧
    (∀ y ∈ fullSet, y ≠ v → y.addr ≠ v.addr) ∧ (s.pkgAt (keyPkg (64 * v.addr))).failed = false := by decide +kernel

/-! ## Witnesses: crossings, shapes, engine words -/

/-- A dense vector of 32 fp32 values in region 2, box 8. -/
def vecShape : BitVec 1024 :=
  BitVec.ofNat 1024 (h2.toNat + (16 + 7 * 128) * 2 ^ 64 + 32 * 2 ^ 128 + 4 * 2 ^ 384 + 8 * 2 ^ 832)

def shaped : State := pod fun c => { c with shp := [(3, vecShape)], mcmask := 1 }

theorem test_witness_dense_crossings :
    let s := shaped
    let r := s.core.shape (3#4).toNat
    let c : List Int := (List.range (shpRank r)).map fun i => (s.cl.rc i).toInt
    let rows := fun (mode : BitVec 2) => (List.range (rowCount r)).map fun i => planRow r c mode none i
    let runs : BitVec 2 → List (Nat × Int × Nat) := fun mode => warmRuns r c false (rows mode)
    s.Issues 0 ([gR 1, gR 2] ++ (List.range 7).map RegRef.c) [gR 3] ∧ s.core.lq.length < 32 ∧ s.core.sq.length < 32 ∧ s.core.outstanding < 512 ∧
    s.core.shpBusy = [] ∧ s.core.replay = none ∧ s.cl.loops = [] ∧ s.core.inHandler = false ∧ (s.g 1).extractLsb' 23 41 = 0 ∧
    (s.g 1).extractLsb' 0 5 = 0 ∧ (s.g 2).extractLsb' 32 32 = 0 ∧ shpRagax r = 7 ∧
    s.core.slot.cquota.toNat ≥ ((s.g 1).extractLsb' 0 19).toNat + rowCount r * rowBytes r false ∧
    (∀ x ∈ runs 0, (x.2.1 / (4503599627370496 : Int)).toNat % 4096 ∈ s.core.tlb) ∧ s.firstBad (runs 0) = none ∧
    shapeSuits r c 0 false = true ∧ s.runsAllowed false (runs 0) = true ∧ s.core.mcmask.toNat % 16 ≠ 0 ∧ shapeSuits r c 0 true = true ∧
    s.runsAllowed true (runs 0) = true := by
  refine ⟨⟨by decide +kernel, by decide +kernel⟩, ?_⟩
  decide +kernel
theorem test_witness_malformed_crossings :
    let s := podCl fun x => x.wg 1 31
    s.Issues 0 ([gR 1, gR 2] ++ (List.range 7).map RegRef.c) [gR 3] ∧ ready.Issues 0 ([gR 1, gR 2] ++ (List.range 7).map RegRef.c) [gR 3] ∧
    (∀ u ∈ [s, ready], u.core.lq.length < 32 ∧ u.core.sq.length < 32 ∧ u.core.outstanding < 512 ∧ u.core.shpBusy = []) ∧ (s.g 1).extractLsb' 0 5 ≠ 0 ∧
    (ready.g 1).extractLsb' 23 41 = 0 ∧ (ready.g 2).extractLsb' 32 32 = 0 ∧ (ready.g 1).extractLsb' 0 5 = 0 ∧ ready.core.shape (3#4).toNat = 0 := by
  refine ⟨⟨by decide +kernel, by decide +kernel⟩, ⟨by decide +kernel, by decide +kernel⟩, ?_⟩
  decide +kernel

def xinOf (kind : BitVec 2) : Crossing :=
  { seq := 0, level := 0, kind := kind, warm := 3, stamp := 0, shape := vecShape, coord := [0], cold := 0, mode := 0,
    rows := (List.range (rowCount vecShape)).map fun i => planRow vecShape [0] 0 none i, recv := 1, staged := [], charge := 65 }

def crossEntry : QEntry := someEntry (.crossing 0)
def crossing (x : Crossing) : State := pod fun c => { c with lq := [crossEntry], xings := [x] }

theorem test_witness_crossing_admitted :
    let s := crossing (xinOf 0)
    s.ready .load = some crossEntry ∧ crossEntry.op = .crossing 0 ∧ s.testedCharge .load crossEntry = some 65 ∧ s.core.willMismatch = false ∧
    crossEntry.held = none ∧ s.core.xings = [xinOf 0] ∧ (xinOf 0).seq = 0 ∧ (xinOf 0).kind = 0 ∧
    s.core.heatAcc + s.core.heatAdm + 65 ≤ s.core.heatBud := by decide +kernel
theorem test_witness_crossing_held :
    let s := pod fun c => { c with lq := [crossEntry], xings := [xinOf 0], heatBud := 64 }
    s.ready .load = some crossEntry ∧ s.testedCharge .load crossEntry = some 65 ∧ s.core.willMismatch = false ∧ s.core.xings = [xinOf 0] ∧ s.core.heatBud < s.core.heatAcc + s.core.heatAdm + 65 := by
  decide +kernel
theorem test_witness_crossing_completes :
    let x := { xinOf 0 with admitted := true }
    let s := pod fun c => { c with xings := [x] }
    let y := { x with early := some 150 }
    (s.core.xings = [x] ∧ x.seq < 2 ^ 32 ∧ x.admitted = true ∧ x.early = none ∧ x.kind = 0 ∧ x.recv = BitVec.ofNat 4 (2 ^ (s.cur % 4)) ∧
      s.bad = [] ∧ s.badDc = [] ∧ (pod fun c => { c with xings := [y] }).core.xings = [y] ∧ y.admitted = true ∧ y.early ≠ none) ∧
    ∀ k, (s.pkgAt k).failed = false := by
  exact ⟨by decide +kernel, fun _ => rfl⟩
theorem test_witness_xout_completes :
    let x := { xinOf 2 with admitted := true, captured := some [(2 * 131072, 7)] }
    let s := pod fun c => { c with xings := [x] }
    s.core.xings = [x] ∧ x.seq < 2 ^ 32 ∧ x.admitted = true ∧ x.early = none ∧ x.kind = 2 ∧ x.captured = some [(2 * 131072, 7)] ∧
    (s.pkgAt (131072 / 2 ^ 40)).failed = false ∧ mirrorIn 131072 s.part.regions = none := by decide +kernel
theorem test_witness_xout_captures :
    let x := { xinOf 2 with admitted := true }
    let s := pod fun c => { c with xings := [x] }
    s.core.xings = [x] ∧ x.seq < 2 ^ 32 ∧ x.kind = 2 ∧ x.admitted = true ∧ x.captured = none ∧ x.stamp ≤ s.scnt ∧ x.level = s.core.level ∧
    s.insInPlace s.cur x.stamp = true ∧ x.lost = none ∧ s.badCapture x = none ∧ x.stays = [] := by decide +kernel
theorem test_witness_late_die :
    (crossing (xinOf 0)).dieLate 0 = true ∧ ready.dieLate 0 = false ∧ ready.core.run = some 0 ∧ ready.stallOver = false := by decide +kernel
theorem test_witness_stall_over :
    let s := { crossing (xinOf 0) with dies := [(0, { stalled := true, stallAt := some 0 })], clock := 3200160 }
    s.stallOver = true ∧ s.core.run ≠ none ∧ s.core.inHandler = false ∧ s.core.xings = [xinOf 0] ∧ (xinOf 0).level = 0 ∧
    (xinOf 0).stamp ≤ s.scnt ∧ s.core.nested = false ∧ (xinOf 0).kind = 0 ∧ (xinOf 0).admitted = false := by decide +kernel

theorem test_witness_xput_xget :
    ready.Issues 0 [gR 1] [gR 2] ∧ ready.core.owes = {} ∧ ready.core.inHandler = false ∧ (0x23 : BitVec 6) ≠ 0x24 ∧
    ready.core.eq.length < 128 ∧ (ready.g 1).extractLsb' 0 8 = 0 ∧ ready.core.sq.length < 32 := by
  refine ⟨⟨by decide +kernel, by decide +kernel⟩, ?_⟩
  decide +kernel
theorem test_witness_xwait :
    let s := podCl (waited 9)
    s.Waited ∧ s.Issues 0 [gR 1] [gR 2] ∧ s.core.owes = {} ∧ s.core.inHandler = false ∧ s.core.xings = [] ∧ s.core.atoms = [] ∧
    s.core.drains = [] :=
  ⟨⟨9, by decide +kernel⟩, issues_of (by decide +kernel), by decide +kernel⟩
theorem test_witness_xcancel :
    let s := podCl fun x => x.wg 1 2
    s.Issues 0 [gR 1] [gR 3] ∧ s.core.owes = {} ∧ s.core.inHandler = false ∧ (s.g 1).extractLsb' 0 1 = 0 ∧ (s.g 1).extractLsb' 0 6 ≠ 0 := by
  refine ⟨⟨by decide +kernel, by decide +kernel⟩, ?_⟩
  decide +kernel
theorem test_witness_xcancel_of_a_crossing :
    let x := xinOf 0
    let s := pod fun c => { c with l := c.l.wg 1 1, xings := [x], xseq := 1 }
    s.Issues 0 [gR 1] [gR 3] ∧ s.core.owes = {} ∧ s.core.inHandler = false ∧ s.core.xings = [x] ∧ x.admitted = false ∧
    s.core.crossingOf (s.g 1) = some x.seq ∧ (s.g 1).extractLsb' 0 1 = 1 :=
  ⟨issues_of (by decide +kernel), by decide +kernel⟩
theorem test_witness_xput_twin :
    let s := podCl fun x => x.wg 1 255
    s.Issues 0 [gR 1] [gR 2] ∧ s.core.owes = {} ∧ s.core.inHandler = false ∧ (s.g 1).extractLsb' 0 8 = 255 := by
  refine ⟨⟨by decide +kernel, by decide +kernel⟩, ?_⟩
  decide +kernel

def shapedPtr : State := shaped.modCl fun x => x.wg 1 h2

theorem test_witness_shape_words :
    let s := shapedPtr
    let q := s.core.shape (3#4).toNat
    s.Issues 0 [gR 1] [gR 2] ∧ s.core.shpBusy = [] ∧ q.extractLsb' (64 * (0#4).toNat) 64 = s.g 1 ∧
    (∀ i, i < 1024 → i < 64 * (0#4).toNat ∨ 64 * (0#4).toNat + 64 ≤ i → q.getLsbD i = (s.core.shape (3#4).toNat).getLsbD i) ∧ shpOk q = true := by
  refine ⟨⟨by decide +kernel, by decide +kernel⟩, by decide +kernel, by decide +kernel, fun _ _ _ => rfl, by decide +kernel⟩
theorem test_witness_shape_refused :
    ready.Issues 0 [gR 1] [gR 2] ∧ ready.core.shpBusy = [] ∧ shpOk (0 : BitVec 1024) = false ∧ ready.core.shape 3 = 0 ∧ ready.g 1 = 0 := by
  refine ⟨⟨by decide +kernel, by decide +kernel⟩, ?_⟩
  decide +kernel
theorem test_witness_shape_stored :
    shapedPtr.core.sq.length < 32 ∧ shapedPtr.core.lq.length < 32 ∧ shapedPtr.cl.wait = .none ∧
    (match shapedPtr.access (shapedPtr.g 1) 128 64 true with | .pass p => decide (p = .home 2 131072) | _ => false) = true ∧
    (match shapedPtr.access (shapedPtr.g 1) 128 64 false with | .pass p => decide (p = .home 2 131072) | _ => false) = true ∧
    shpRagax (shapedPtr.core.shape (3#4).toNat) = 7 ∧ shapedPtr.core.shape (3#4).toNat ≠ 0 := by decide +kernel
theorem test_witness_shpld_answers :
    let s := podCl fun x => { x with wait := .performed }
    let t := podCl fun x => { x with wait := .failed 12 8 }
    let q := podCl fun x => { x with wait := .loaded vecShape }
    s.Issues 0 [gR 1] [gR 2] ∧ t.Issues 0 [gR 1] [gR 2] ∧ s.core.shpBusy = [] ∧ t.core.shpBusy = [] ∧ s.cl.wait = .performed ∧
    t.cl.wait = .failed 12 8 ∧ q.regsReady [gR 1] [gR 2] = true ∧ q.depsReady 0 = true ∧ q.core.shpBusy = [] ∧ q.cl.wait = .loaded vecShape := by
  refine ⟨⟨by decide +kernel, by decide +kernel⟩, ⟨by decide +kernel, by decide +kernel⟩, ?_⟩
  decide +kernel

theorem test_witness_engine_words :
    let s := podCl fun x => (x.wg 1 (2 ^ 32 - 1)).wg 2 (2 ^ 32)
    s.Issues 0 [gR 1, gR 2] [] ∧ s.core.eq.length < 128 ∧ s.core.replay = none ∧ s.core.inHandler = false ∧ (s.g 1).toNat < 2 ^ 32 ∧
    2 ^ 32 ≤ (s.g 2).toNat ∧ s.cl.wait = .none := by
  refine ⟨⟨by decide +kernel, by decide +kernel⟩, ?_⟩
  decide +kernel
theorem test_witness_tbase :
    let s := podCl fun x => (x.wg 1 4095).wg 2 4096
    s.Issues 0 [gR 1, gR 2] [] ∧ s.Issues 0 [gR 2, gR 1] [] ∧ s.core.eq.length < 128 ∧ s.core.replay = none ∧ s.core.inHandler = false ∧
    (s.g 1).toNat < s.core.granted (engineOf 0) ∧ s.core.granted (engineOf 0) ≤ (s.g 2).toNat := by
  refine ⟨⟨by decide +kernel, by decide +kernel⟩, ⟨by decide +kernel, by decide +kernel⟩, ?_⟩
  decide +kernel
theorem test_witness_tsync :
    let s := podCl fun x => { x with wait := .performed }
    s.Issues 0 [gR 1, gR 2] [] ∧ s.core.eq.length < 128 ∧ s.core.replay = none ∧ s.core.inHandler = false ∧ s.cl.wait = .performed := by
  refine ⟨⟨by decide +kernel, by decide +kernel⟩, ?_⟩
  decide +kernel
theorem test_witness_commands_of_a_handler :
    let s := inHandler
    let t := pod fun c => { c with inHandler := true, accLost := true }
    s.Issues 0 [gR 1] [] ∧ s.core.eq.length < 128 ∧ s.core.replay = none ∧ s.core.inHandler = true ∧ s.core.nested = false ∧
    s.core.accLost = false ∧ 47 < s.core.slot.atiles.toNat ∧ t.core.inHandler = true ∧
    (if t.core.nested then t.core.accHere else t.core.accLost) = true := by
  refine ⟨⟨by decide +kernel, by decide +kernel⟩, ?_⟩
  decide +kernel
/-- A kernel whose code is region 1. -/
def aKernel : KernelImage :=
  { codeIndex := 1, entry := 0, regions := [], matSteps := 0, vecOrders := 0, tmpOrders := 0, minCores := 1, multCores := 1, preempt := [(7, 3)] }

theorem test_witness_tload :
    let s := ({ podBase with parts := [(0, { podPart with kernels := [aKernel] })] } : State).modCore fun _ =>
      { podCore with l := ((({} : Cluster).wg 1 (handleOf 1 0)).wg 2 1) }
    let t := podCl fun x => x.wg 1 h2
    s.core.inHandler = false ∧ s.Issues 0 [gR 1, gR 2] [] ∧ t.Issues 0 [gR 1, gR 2] [] ∧ s.core.eq.length < 128 ∧ s.core.replay = none ∧
    t.core.eq.length < 128 ∧ t.core.replay = none ∧ t.core.inHandler = false ∧ regionIdx (t.g 1) ∈ t.core.tlb ∧ t.imageRegion (t.g 1) = false ∧
    regionIdx (s.g 1) ∈ s.core.tlb ∧ s.imageRegion (s.g 1) = true ∧
    s.locate s.partNo (s.g 1) (max 1 (((s.g 2).extractLsb' 0 16).toNat * orderBytes (engineOf 0))) ≠ none := by
  refine ⟨by decide +kernel, ⟨by decide +kernel, by decide +kernel⟩, ⟨by decide +kernel, by decide +kernel⟩, ?_⟩
  decide +kernel

def command (op : QOp) (f : Core → Core) : State := pod fun c => f { c with eq := [someEntry op] }

theorem test_witness_engine_commands :
    (command (.tstart .matrix 5) id).ready .engine = some (someEntry (.tstart .matrix 5)) ∧
    (someEntry (.tstart .matrix 5)).killed = false ∧ (command (.tstart .matrix 5) id).core.willMismatch = false ∧
    (∀ op ∈ [QOp.tstop .vector, .tbase .matrix 5, .tsync .matrix, .tstartEv .matrix 2], (someEntry op).killed = false ∧
      (command op id).core.willMismatch = false ∧ (command op id).ready .engine = some (someEntry op)) ∧
    (command (.tbase .matrix 5) id).core.idle .matrix = true := by
  decide +kernel
theorem test_witness_engine_waits :
    let s := command (.tsync .matrix) fun c => c.modEngine .matrix fun x => { x with run := true }
    let t := command (.tsync .matrix) fun c => { c with l := { c.l with wait := .entry 1 } }
    s.ready .engine = some (someEntry (.tsync .matrix)) ∧ s.core.willMismatch = false ∧ s.core.idle .matrix = false ∧
    t.ready .engine = some (someEntry (.tsync .matrix)) ∧ t.core.willMismatch = false ∧ t.core.idle .matrix = true ∧
    (t.core.cluster .L).wait = .entry 1 := by decide +kernel
theorem test_witness_tstart_ev :
    let s := command (.tstartEv .matrix 2) fun c => c.modCold fun m => { m with term := [(2, 1)] }
    let b := command (.tstartEv .matrix 2) fun c => c.modEngine .matrix fun x => { x with run := true }
    s.ready .engine = some (someEntry (.tstartEv .matrix 2)) ∧ s.core.willMismatch = false ∧ b.core.willMismatch = false ∧ s.core.idle .matrix = true ∧ s.core.termArmed 2 = false ∧
    Sp.get 0 s.core.cold.term 2 ≠ 0 ∧ b.ready .engine = some (someEntry (.tstartEv .matrix 2)) ∧ b.core.idle .matrix = false ∧
    b.core.inHandler = false := by decide +kernel

/-- A descriptor with one threshold of 1 on event counter 0 (R149). -/
def oneTerm : Word := 0x10001

theorem test_witness_event_words :
    let s := podCl fun x => { x with wait := .since 4 }
    let t := podCl fun x => { x.wg 1 oneTerm with wait := .since 4 }
    let f := (List.range 16).foldl State.fireTerm (s.takeDeps 0)
    s.Issues 0 [gR 1] [] ∧ s.Compared ∧ t.Issues 0 [gR 1] [] ∧ t.Compared ∧ s.core.owes = {} ∧ termOk (s.g 1) = false ∧
    ((s.g 1).extractLsb' 0 16).toNat ≤ (Sp.get 0 f.core.cold.ev 3).toNat ∧ t.core.owes = {} ∧ termOk (t.g 1) = true ∧
    ∀ e ∈ [EngineId.matrix, .vector, .temporal], (s.core.engine e).armed = none :=
  ⟨issues_of (by decide +kernel), compared_of 4 (by decide +kernel), issues_of (by decide +kernel), compared_of 4 (by decide +kernel), by decide +kernel⟩
theorem test_witness_evwait_waits :
    let s := podCl fun x => x.wg 1 1
    let f := (List.range 16).foldl State.fireTerm (s.takeDeps 0)
    s.Issues 0 [gR 1] [] ∧ s.core.owes = {} ∧ (Sp.get 0 f.core.cold.ev 3).toNat < ((s.g 1).extractLsb' 0 16).toNat := by
  refine ⟨⟨by decide +kernel, by decide +kernel⟩, ?_⟩
  decide +kernel

def termed (n : Nat) : State :=
  pod fun c => c.modCold fun m => { m with ev := [(0, BitVec.ofNat 16 n)], mat := { armed := some (3, oneTerm, handleOf 1 0), armAt := 0 } }

theorem test_witness_term_fires :
    (termed 1).core.armedFor (3#4).toNat = some .matrix ∧ (termed 0).core.armedFor (3#4).toNat = some .matrix ∧
    ((termed 1).core.engine .matrix).armed = some ((3#4).toNat, oneTerm, handleOf 1 0) ∧ ((termed 1).core.engine .matrix).armAt < (termed 1).clock ∧
    (termed 1).core.inHandler = false ∧ (termed 1).core.cold.termHolds oneTerm = true ∧ oneTerm.getLsbD 37 = false ∧
    ((termed 0).core.engine .matrix).armed = some ((3#4).toNat, oneTerm, handleOf 1 0) ∧ ((termed 0).core.engine .matrix).armAt < (termed 0).clock ∧
    (termed 0).core.inHandler = false ∧ (termed 0).core.cold.termHolds oneTerm = false := by decide +kernel
theorem test_witness_engine_pulses :
    let s := (termed 1).modCore fun c => c.modEngine .vector fun x => { x with pulse := true }
    (s.core.engine .matrix).armed = some ((3#4).toNat, oneTerm, handleOf 1 0) ∧ (s.core.engine .matrix).armAt < s.clock ∧ s.core.inHandler = false ∧
    (s.core.engine .vector).pulse = true ∧ (s.core.engine .vector).run = false ∧ s.core.busyEngine .vector = false ∧ s.core.owes = {} := by
  decide +kernel
theorem test_witness_table_starts :
    let x : Nat × Nat × Word := (160, 160, handleOf 1 0)
    let s := pod fun c => c.modEngine .matrix fun y => { y with start := [x] }
    let b := pod fun c => c.modEngine .matrix fun y => { y with start := [x], run := true }
    ready.dueStart .matrix = none ∧ s.dueStart .matrix = some x ∧ s.core.busyEngine .matrix = false ∧ b.dueStart .matrix = some x ∧
    b.core.busyEngine .matrix = true ∧ b.core.inHandler = false ∧ b.core.back = [] ∧
    ∀ k ∈ [EngineId.matrix, .vector, .temporal], b.faultsNow k = false := by decide +kernel
theorem test_witness_table_start_behind_a_fault :
    let x : Nat × Nat × Word := (160, 160, handleOf 1 0)
    let s := pod fun c => { (c.modEngine .matrix fun y => { y with start := [x], run := true }).modEngine .vector fun y => { y with run := true } with
      badOrd := [4096] }
    s.dueStart .matrix = some x ∧ s.core.busyEngine .matrix = true ∧ s.faultsNow .vector = true := by decide +kernel

/-! ## Witnesses: tokens, barriers, atoms -/

/-- The pod with these tokens, its cluster K in front of a word that has waited since cycle 4. -/
def tokens (ts : Sp Token) (f : Cluster → Cluster) (g : Core → Core) : State :=
  ({ podBase with parts := [(0, { podPart with tokens := ts })], lane := .K } : State).modCore fun _ => g { podCore with k := f (waited 4 {}) }

def peerAddr : Word := word (1 * 2 ^ 22)

def spanToken (units : Nat) (lent : Bool) : Token := { heldToken with units := units, lvalid := lent }

theorem test_witness_lend :
    let s := tokens [(5, spanToken 1 false)] (fun x => (x.wg 1 h2).wg 2 peerAddr) id
    s.Issues 0 [gR 1, gR 2] [gR 3] ∧ s.Compared ∧ s.core.owes = {} ∧
    (match s.spanOf (s.g 1) with | .ok x => decide (x = (rwRegion, 5, spanToken 1 false)) | _ => false) = true ∧
    s.holdsExcl 5 (spanToken 1 false) false = true ∧ s.peerOk (s.g 2) = true ∧ (spanToken 1 false).shares < 255 ∧ s.core.win = none := by
  exact ⟨issues_of (by decide +kernel), compared_of 4 (by decide +kernel), by decide +kernel⟩
/-- What the own words on h2 ask of a state: their registers, the comparison, no replay, no window, and the span of h2. -/
def ownReady (s : State) (r : Region) (head : Nat) (t : Token) : Bool :=
  s.regsReady [gR 1, gR 2] [gR 3] && s.depsReady 0 && decide (s.cl.wait = .since 4) && decide (4 + 6 ≤ s.warm) && !s.core.willMismatch &&
  decide (s.core.owes = {}) && decide (s.core.win = none) && s.crossingsThrough (s.g 1) && (match s.spanOf (s.g 1) with | .ok x => decide (x = (r, head, t)) | _ => false)

theorem test_witness_return :
    let s := tokens [(5, spanToken 1 true)] (fun x => x.wg 1 h2) id
    ownReady s rwRegion 5 (spanToken 1 true) = true ∧ s.holdsExcl 5 (spanToken 1 true) true = true := by decide +kernel
theorem test_witness_own_refused :
    let s := tokens [(5, { spanToken 1 false with hcore := 9 })] (fun x => x.wg 1 h2) id
    let t := tokens [(5, spanToken 1 false)] (fun x => x.wg 1 h2) id
    ownReady s rwRegion 5 { spanToken 1 false with hcore := 9 } = true ∧ s.holds { spanToken 1 false with hcore := 9 } = false ∧
    ownReady t rwRegion 5 (spanToken 1 false) = true ∧ t.holdsExcl 5 (spanToken 1 false) false = true ∧ t.peerOk (t.g 2) = false := by decide +kernel
theorem test_witness_split :
    let s := tokens [(5, spanToken 2 false)] (fun x => (x.wg 1 h2).wg 2 1) id
    let t := tokens [(5, spanToken 1 false)] (fun x => (x.wg 1 h2).wg 2 1) id
    ownReady s rwRegion 5 (spanToken 2 false) = true ∧ s.holdsExcl 5 (spanToken 2 false) false = true ∧ 0 < (s.g 2).toNat ∧
    (s.g 2).toNat < (spanToken 2 false).units ∧ ownReady t rwRegion 5 (spanToken 1 false) = true ∧ t.holdsExcl 5 (spanToken 1 false) false = true ∧
    (spanToken 1 false).units ≤ (t.g 2).toNat := by decide +kernel

def wideRegion : Region := { rwRegion with size := 131072 }
def secondToken : Token := { spanToken 1 false with head := 6 }

theorem test_witness_merge :
    let q : Part := { podPart with regions := [(2, encodeRegion wideRegion)], tokens := [(5, spanToken 1 false), (6, secondToken)] }
    let s : State := ({ podBase with parts := [(0, q)], lane := .K } : State).modCore fun _ =>
      { podCore with k := (waited 4 (({} : Cluster).wg 1 h2)).wg 2 (handleOf 2 65536) }
    ownReady s wideRegion 5 (spanToken 1 false) = true ∧
    (match s.spanOf (s.g 2) with | .ok x => decide (x = (wideRegion, 6, secondToken)) | _ => false) = true ∧
    s.holdsExcl 5 (spanToken 1 false) false = true ∧ s.holdsExcl (5 + (spanToken 1 false).units) secondToken false = true ∧
    regionIdx (s.g 1) = regionIdx (s.g 2) ∧ 0 < (spanToken 1 false).units ∧ (spanToken 1 false).gen = secondToken.gen := by decide +kernel
theorem test_witness_shares :
    let s := tokens [(5, spanToken 1 false)] (fun x => x.wg 1 h2) fun c => { c with shares := [5] }
    let t := tokens [(5, spanToken 1 false)] (fun x => x.wg 1 h2) id
    ownReady s rwRegion 5 (spanToken 1 false) = true ∧ s.core.shares = [5] ∧ ownReady t rwRegion 5 (spanToken 1 false) = true ∧ 5 ∉ t.core.shares ∧
    t.exclusive (spanToken 1 false) = true ∧ (spanToken 1 false).shares = 0 ∧ t.core.sends = [] := by decide +kernel

def aSend : Send := { fn := 0, head := 9, base := h2, units := 1, arg := word (2 ^ 22), d := 3, warm := 4, level := 0 }
def otherCore : Core := { run := some 0, slot0 := { podSlot with coreId := 1 } }

theorem test_witness_send_goes_home :
    let s := pod fun c => { c with sends := [aSend] }
    s.core.sends = [aSend] ∧ aSend.due = none ∧ s.sendReady aSend = true ∧ s.part.spanKeys aSend.head = none := by decide +kernel
theorem test_witness_send_arrives :
    let x : Send := { aSend with due := some 10 }
    let s := (pod fun c => { c with sends := [x] }).modCoreAt 1 fun _ => otherCore
    s.core.sends = [x] ∧ x.due = some 10 ∧ 10 ≤ s.warm ∧ x.fn = 0 ∧ s.receiver x.arg = some (1, otherCore.slot0) ∧ (1 : Nat) ≠ s.cur ∧
    s.part.spanKeys x.head = none ∧ x.level = s.core.level ∧ s.core.win = none ∧ x.d ≠ 0 := by decide +kernel

/-- What `bar` asks of a state: its registers, no replay and no window. -/
def barReady (s : State) : Bool :=
  s.regsReady [gR 1] [gR 2] && s.depsReady 0 && decide (s.core.owes = {}) && decide (s.core.win = none)

theorem test_witness_bar :
    let s := podCl (waited 4)
    let t := pod fun c => { c with l := waited 4 c.l, barGot := some (0, 0, 9) }
    s.Compared ∧ t.Compared ∧ barReady ready = true ∧ ready.cl.wait = .none ∧ barReady s = true ∧ s.core.barGot = none ∧ barReady t = true ∧
    t.core.barGot = some ((0 : BitVec 3).toNat, Sp.get 0 t.core.barCount 0, 9) ∧ (0 : BitVec 4).getLsbD 0 = false :=
  ⟨compared_of 4 (by decide +kernel), compared_of 4 (by decide +kernel), by decide +kernel⟩
theorem test_witness_bar_waits :
    ∀ w ∈ [Wait.arrived, .departed 7, .voteFault], barReady (podCl fun x => { x with wait := w }) = true ∧ (podCl fun x => { x with wait := w }).cl.wait = w := by
  decide +kernel
theorem test_witness_barrier_completes :
    let b : BarWait := { scope := 0, inst := 0, vote := 1, value := 7, mask := 0 }
    let s := pod fun c => { c with bar := some b }
    barReady s = true ∧ s.core.bar = some b ∧ s.core.run = some 0 ∧ s.participants b.scope = [(s.cur, 0)] ∧ (s.core.slotAt 0).state = .running ∧
    s.core.inHandler = false := by decide +kernel
theorem test_witness_fence :
    let s := podCl (waited 4)
    let t := podCl fun x => { x with wait := .fencing 4 7 }
    s.Issues 0 [] [] ∧ t.Issues 0 [] [] ∧ t.cl.wait = .fencing 4 (7 : BitVec 4).toNat ∧ t.core.lq = [] ∧ t.core.sq = [] ∧ t.core.eq = [] ∧
    (7 : BitVec 4).getLsbD 3 = false ∧ s.cl.wait = .since 4 ∧ 4 + 6 ≤ s.warm ∧ s.core.willMismatch = false ∧
    (∀ e ∈ s.core.lq, 4 < e.warm) ∧ (∀ e ∈ s.core.sq, 4 < e.warm) ∧ ∀ e ∈ s.core.eq, 4 < e.warm := by
  exact ⟨issues_of (by decide +kernel), issues_of (by decide +kernel), by decide +kernel⟩
theorem test_witness_fence_waits :
    let e := storeEntry
    let s := pod fun c => { c with sq := [e], l := waited 4 c.l }
    let t := pod fun c => { c with sq := [e], l := { c.l with wait := .fencing 4 2 } }
    s.regsReady [] [] = true ∧ s.depsReady 0 = true ∧ t.regsReady [] [] = true ∧ t.depsReady 0 = true ∧ (2 : BitVec 4).getLsbD 3 = false ∧
    4 + 6 ≤ s.warm ∧ s.core.willMismatch = false ∧ e.level = t.core.level ∧ s.cl.wait = .since 4 ∧ (2 : BitVec 4).getLsbD 1 = true ∧ e ∈ s.core.sq ∧ e.warm ≤ 4 ∧ e.level = s.core.level ∧ t.cl.wait = .fencing 4 2 ∧
    e ∈ t.core.sq := by decide +kernel

theorem test_witness_atoms :
    let s := podCl fun x => x.wg 1 (word (46 * 2 ^ 16 + 288))
    let t := podCl fun x => x.wg 1 (word (47 * 2 ^ 16 + 289))
    (∀ u ∈ [s, t], u.regsReady [gR 1, gR 2] [gR 3] = true ∧ u.depsReady 0 = true ∧ u.core.sq.length < 32 ∧ u.core.replay = none ∧ u.cl.loops = []) ∧
    ((s.g 1).extractLsb' 40 24 = 0 ∧ (s.g 1).extractLsb' 9 7 = 0 ∧ ((s.g 1).extractLsb' 30 10).toNat < 576 ∧ ((s.g 1).extractLsb' 0 9).toNat < 289) ∧
    ((s.g 1).extractLsb' 16 6).toNat ≠ 47 ∧
    ¬ ((t.g 1).extractLsb' 40 24 = 0 ∧ (t.g 1).extractLsb' 9 7 = 0 ∧ ((t.g 1).extractLsb' 30 10).toNat < 576 ∧ ((t.g 1).extractLsb' 0 9).toNat < 289) := by
  decide +kernel

def anAtom : Atom := { id := 0, fn := 2, addr := word (47 * 2 ^ 16 + 288), op := 7, d := 3, warm := 4, level := 0, seq := 1 }

theorem test_witness_atom_applies :
    let x : Atom := { anAtom with applyAt := some 160 }
    let f : Atom := { x with addr := word (2 ^ 22) }
    let s := pod fun c => { c with atoms := [x] }
    let t := pod fun c => { c with atoms := [f] }
    s.core.atoms = [x] ∧ x.applyAt = some 160 ∧ 160 ≤ s.clock ∧ x.old = none ∧ s.atomTarget x = some s.cur ∧ x.fn < 3 ∧ t.core.atoms = [f] ∧
    f.applyAt = some 160 ∧ 160 ≤ t.clock ∧ f.old = none ∧ t.atomTarget f = none := by
  decide +kernel
theorem test_witness_atom_returns :
    let x : Atom := { anAtom with old := some 9, backAt := 10 }
    let s := pod fun c => { c with atoms := [x] }
    s.core.atoms = [x] ∧ x.old = some 9 ∧ x.backAt ≤ s.warm ∧ x.level = s.core.level ∧ s.core.win = none := by decide +kernel

/-! ## Witnesses: orders -/

def coldPod (f : Cold → Cold) : State := pod fun c => c.modCold f

theorem test_witness_cold_rows : podSlot.cquota.toNat ≤ 8192 % 2 ^ 19 ∧ 8191 % 2 ^ 19 < ready.core.slot.cquota.toNat := by decide +kernel
theorem test_witness_mma :
    let y := ready.mmaCase 0 0 0 0
    0 ∈ y.rows ∧ 15 ∈ y.cols ∧ y.products false 0 15 ≠ [] ∧ (0 : BitVec 3) ≠ 5 ∧ (0 : BitVec 3) ≠ 6 := by decide +kernel
theorem test_witness_mma_segments :
    let s := coldPod fun m => { m with mside := [(0, 1)] }
    let y := s.mmaCase 0 0 0 1
    0 ∈ y.rows ∧ 15 ∈ y.cols ∧ y.products true 0 15 = [] ∧
    (y.tagA.getD 0 0).extractLsb' 0 8 ≠ (y.tagB.getD 15 0).extractLsb' 0 8 := by decide +kernel
theorem test_witness_copy_of_another : (47 : BitVec 6) ≠ 0 := by decide
theorem test_witness_tile_elements :
    ready.core.cold.triple.row.getLsbD 15 = true ∧ ready.core.cold.triple.col.getLsbD 15 = true ∧
    ((ready.core.cold.pair 0).row 0 (ready.iter .matrix) 15 + 4 * 15 + 3) % 2 ^ 19 < ready.core.slot.cquota.toNat := by decide +kernel
theorem test_witness_matrix_sequencing : ready.core.inHandler = false ∧ ready.core.replay = none ∧ (7 : BitVec 3) ≠ 0 := by decide +kernel
theorem test_witness_checks :
    let a := coldPod fun m => { m with tile := [(3, { chkv := false })] }
    let b := coldPod fun m => { m with acc := [(289 * 3 + 288, 0x7F800000)] }
    (a.core.cold.tileAt (3#6).toNat).chkv = false ∧ (b.core.cold.tileAt (3#6).toNat).chkv = true ∧ 288 < 289 ∧
    isFinite32 (b.core.cold.accAt (3#6).toNat 288) = false := by decide +kernel
theorem test_witness_repairs :
    let m := (coldPod fun m => { m with acc := [(289 * 3, 0x3F800000)] }).core.cold
    let n := (coldPod fun m => { m with acc := [(289 * 3 + 16, 0x3F800000)] }).core.cold
    let d := fun (m : Cold) => sumVals 0 [residue (m.rowWords 3 0), (residue (m.colWords 3 0)).neg]
    (m.tileAt 3).chkv = true ∧ m.finiteTile 3 = true ∧ tolerance (Sp.get 0 m.ms 13) (m.rowWords 3 0) ≠ .nan ∧
    (tolerance (Sp.get 0 m.ms 13) (m.rowWords 3 0)).less (d m).abs = false ∧ n.finiteTile 3 = true ∧
    tolerance (Sp.get 0 n.ms 13) (n.rowWords 3 0) ≠ .nan ∧ (tolerance (Sp.get 0 n.ms 13) (n.rowWords 3 0)).less (d n).abs = true := by
  decide +kernel
def aDrain : Drain := { at_ := 160, warm := 4, dst := 0, words := [], chkv := true, clamp := none, step := 0, iter := 0, rpl := false }
theorem test_witness_drains :
    let s : State := (pod fun c => { c with drains := [aDrain] }).modCoreAt 1 fun _ => otherCore
    let t : State := pod fun c => { c with drains := [aDrain] }
    ready.core.owes = {} ∧ s.core.drains = [aDrain] ∧ aDrain.at_ ≤ s.scnt ∧ s.takesDrain aDrain = true ∧ aDrain.clamp = none ∧
    t.core.drains = [aDrain] ∧ t.takesDrain aDrain = false := by decide +kernel
theorem test_witness_nan_lanes : isNan32 0x7FC00001 = true ∧ isNan32 0x7F800000 = false := by decide +kernel
theorem test_witness_reductions :
    let m := (coldPod fun m => { m with mdepth := 1, mstk := [(0, 0)] }).core.cold
    ready.core.cold.top.getLsbD 63 = true ∧ ∀ j, j < 64 → m.top.getLsbD j = false := by decide +kernel
theorem test_witness_mask_stack : ready.core.cold.mdepth = 0 ∧ (coldPod fun m => { m with mdepth := 16 }).core.cold.mdepth ≠ 0 := by decide +kernel

/-- Column 0 of the temporal array takes rows 0 and 1, with delays 1 and 2. -/
def twoRows (late : Bool) : Cold := { dly := [(0, 1), (64, 2)], tmode := if late then 1 else 0 }

theorem test_witness_evaluation :
    let on := fun i => i < 64 ∧ Sp.get 255 (twoRows false).dly (64 * i + 0) ≠ 255
    let arrives := fun i t => [(5 : Byte), 6].getD i 255 ≠ 255 ∧
      t = ([(5 : Byte), 6].getD i 255).toNat + (Sp.get 255 (twoRows false).dly (64 * i + 0)).toNat
    on 0 ∧ arrives 0 6 ∧ on 1 ∧ arrives 1 8 ∧ (twoRows false).tmode.getLsbD 0 = false ∧ (twoRows true).tmode.getLsbD 0 = true ∧
    (twoRows false).twin ≤ 255 ∧ ¬ on 2 ∧ [(5 : Byte)].getD 1 255 = 255 := by decide +kernel
theorem test_witness_evaluation_rows (late : Bool) (i : Nat) (h : i < 64 ∧ Sp.get 255 (twoRows late).dly (64 * i + 0) ≠ 255) : i = 0 ∨ i = 1 := by
  rcases i with _ | _ | i
  · exact .inl rfl
  · exact .inr rfl
  · refine absurd ?_ h.2
    show Sp.get 255 [(0, 1), (64, 2)] _ = _
    simp only [Sp.get]
    rw [if_neg (by omega), if_neg (by omega)]
    split_ifs <;> first | rfl | omega
theorem test_witness_evaluation_lands :
    let x : Eval := { busyTo := 170, outs := [(160, [7]), (180, [8])] }
    let s := coldPod fun m => { m with eval := some x }
    s.core.cold.eval = some x ∧ x.outs = (160, [7]) :: [(180, [8])] ∧ 160 ≤ s.scnt ∧ s.scnt < 180 := by decide +kernel
theorem test_witness_landings :
    let l : Landing := { at_ := 160, issued := 156, eng := .vector, chain := 0, writes := [], op := .vreg 3 [(0, 7), (63, 8)] }
    let k : Landing := { l with op := .cold [(0, 7), (524287, 8)] [] }
    let a : Landing := { l with op := .acc 47 [(0, 7), (288, 8)] {} false }
    let p : Landing := { l with op := .accPart 47 [(0, 7), (288, 8)] none }
    p.event = none ∧ l.event = none ∧ ([(0, (7 : Word32)), (63, 8)].map (·.1)).Nodup ∧ (∀ x ∈ [(0, (7 : Word32)), (63, 8)], x.1 < 64) ∧ k.event = none ∧
    ([(0, (7 : Byte)), (524287, 8)].map (·.1)).Nodup ∧ a.event = none ∧ ([(0, (7 : Word32)), (288, 8)].map (·.1)).Nodup ∧
    (∀ x ∈ [(0, (7 : Word32)), (288, 8)], x.1 < 289) := by decide +kernel

/-! ## Witnesses: strings and waits -/

theorem test_witness_cptail :
    let s := podCl fun x => x.wg 1 (handleOf 2 64)
    let t := podCl fun x => x.wg 1 (handleOf 2 63)
    s.Issues 0 [gR 1] [gR 2] ∧ s.core.replay = none ∧ (s.g 1).extractLsb' 0 6 = 0 ∧ s.core.sq.length < 32 ∧ (t.g 1).extractLsb' 0 6 ≠ 0 := by
  refine ⟨⟨by decide +kernel, by decide +kernel⟩, ?_⟩
  decide +kernel

def entry (dst src aux : Word) (len : Nat) : CopyEntry :=
  { flags := 0, arg := 1, len := BitVec.ofNat 32 len, dst := dst, src := src, aux := aux, seed := 0, expect := 0 }

def stringAt (f : Str → Str) : State := pod fun c => { c with str := f { head := h2, hset := true, tail := h2, avail := true } }

def copyEntry : CopyEntry := entry h2 (handleOf 1 0) 0 16

theorem test_witness_takes :
    let s := stringAt id
    let q := s.core.str
    q.hset = true ∧ q.avail = true ∧ q.halt = false ∧ s.fencedString = false ∧ s.core.stringStands = false ∧ s.core.outstanding < Config.outstanding ∧ q.retired = false ∧
    q.cancel.all (fun x => decide (x.1 ≠ q.head)) = true ∧ q.taken = [] ∧ (s.takeCheck .copy copyEntry).1 = 0 ∧ tokOf copyEntry = false ∧
    (s.takeCheck .copy (entry (handleOf 9 0) h2 0 16)).1 ≠ 0 ∧ (s.takeCheck .copy (entry (handleOf 9 0) h2 0 16)).1 ≠ 9 := by decide +kernel
theorem test_witness_takes_retired :
    let s := stringAt fun q => { q with puts := [{ tail := h2, tags := [], killed := true }] }
    let b := badLine (stringAt id)
    let e := { entry h2 (handleOf 1 0) (handleOf 2 65472) 0 with arg := 1 }
    s.core.str.retired = true ∧ s.core.str.cancel = [] ∧ s.fencedString = false ∧ s.core.stringStands = false ∧
    (s.core.str.hset && s.core.str.avail && !s.core.str.halt) = true ∧ s.core.outstanding < Config.outstanding ∧
    (b.takeCheck .copys e).1 = 9 ∧ b.core.str.retired = false ∧ b.core.str.taken = [] ∧ (b.pkgAt 0).memprot = 0 := by decide +kernel
theorem test_witness_takes_cancelled :
    let s := stringAt fun q => { q with cancel := [(h2, h2)] }
    s.core.str.cancel.any (fun x => decide (x.1 = s.core.str.head)) = true ∧ s.core.str.taken = [] ∧ s.fencedString = false ∧
    (s.core.str.hset && s.core.str.avail && !s.core.str.halt && !s.core.stringStands) = true ∧ s.core.outstanding < Config.outstanding := by decide +kernel
theorem test_witness_string_idle : ready.core.str.hset = false ∧ (entry h2 0 3 8).aux.toNat % 8 ≠ 0 ∧ (entry h2 0 64 8).aux.toNat % 64 = 0 := by
  decide +kernel

/-- A string whose one taken entry is due. -/
def dueEntry (i : Instr) : State :=
  stringAt fun q => { q with avail := false, taken := [{ no := 1, h := h2, cmd := i, warm := 2, due := 5 }], takes := 1 }

theorem mirrorIn_off {k i : Nat} {v : BitVec 512} {r : Region} {rest : Sp (BitVec 512)} (hv : decodeRegion v = some r) (hr : r.mirror = false) :
    mirrorIn k ((i, v) :: rest) = mirrorIn k rest := by
  unfold mirrorIn
  rw [hv]
  simp only []
  rw [if_neg]
  · cases rest <;> rfl
  · rw [hr]; exact fun h => Bool.noConfusion h.1

theorem test_witness_entry_due :
    let s := dueEntry (.copy copyEntry)
    let x : Taken := { no := 1, h := h2, cmd := .copy copyEntry, warm := 2, due := 5 }
    (s.core.str.taken = [x] ∧ x.done = false ∧ x.due ≤ s.warm ∧ x.flip = none ∧ x.killed = false ∧ s.core.str.halt = false ∧
      s.core.str.carryNo < x.no) ∧ ∀ k, mirrorIn k s.part.regions = none :=
  ⟨by decide +kernel, by
    have h : (dueEntry (.copy copyEntry)).part.regions = [(1, encodeRegion placeRegion), (2, encodeRegion rwRegion)] := by decide +kernel
    have hv : decodeRegion (encodeRegion placeRegion) = some placeRegion := by decide +kernel
    have hw : decodeRegion (encodeRegion rwRegion) = some rwRegion := by decide +kernel
    intro k
    show mirrorIn k (dueEntry (.copy copyEntry)).part.regions = none
    rw [h, mirrorIn_off hv rfl, mirrorIn_off hw rfl]
    rfl⟩
theorem test_witness_entries_due :
    ∀ i ∈ [Instr.fill copyEntry, .signal copyEntry, .cksum copyEntry, .cksum { copyEntry with flags := 2, expect := 1 }],
      let s := dueEntry i
      s.core.str.taken = [{ no := 1, h := h2, cmd := i, warm := 2, due := 5 }] ∧ 5 ≤ s.warm ∧ s.core.str.halt = false ∧
      s.part.regions = (dueEntry (.copy copyEntry)).part.regions := by decide +kernel
theorem test_witness_entry_homes :
    let s := dueEntry (.copy copyEntry)
    let e : CopyEntry := { copyEntry with flags := 2, expect := 1 }
    s.locate s.partNo copyEntry.src 16 = some (placeRegion, 65536) ∧ s.locate s.partNo copyEntry.dst 16 = some (rwRegion, 131072) ∧
    regionIdx copyEntry.src ≠ 0xFFF ∧ regionIdx copyEntry.dst ≠ 0xFFF ∧ (∀ i, i < 16 → s.badAt (65536 + i) 1 = false) ∧
    (∀ i, i < 16 → (s.pkgAt (keyPkg (131072 + i))).failed = false) ∧
    checkOf copyEntry = false ∧ chainOf copyEntry = false ∧ copyEntry.src.toNat + copyEntry.len.toNat ≤ copyEntry.dst.toNat ∧ checkOf e = true ∧
    fletcher e.seed ((List.range e.len.toNat).map fun i => s.byte (65536 + i)) ≠ e.expect := by decide +kernel

def walking : State := (pod id).modDieAt 0 fun d => { d with walks := [(0, 3, 150)] }
def engineWalking : State := (pod id).modDieAt 0 fun d => { d with walks := [(engineKey 0, 4096 * 0 + 3, 150)] }

theorem test_witness_mirrors :
    let a := pod fun c => { c with mirror := [{ issued := 1, warm := 5, pkg := 1 }] }
    let b := { a with clock := 48080 }
    a.core.mirror = { issued := 1, warm := 5, pkg := 1 } :: [] ∧ (a.pkgAt 1).failed = false ∧ (∀ m ∈ a.core.mirror, m.warm + 3000 > a.warm) ∧
    b.core.mirror ≠ [] ∧ (∀ m ∈ b.core.mirror, m.warm + 3000 ≤ b.warm) := by decide +kernel
theorem test_witness_walk :
    (walking.dieAt (walking.cur / 64)).walks = [(walking.cur, 3, 150)] ∧ 150 ≤ walking.clock ∧ walking.part.shoots = [] ∧
    engineKey engineWalking.cur ≠ engineWalking.cur ∧
    (engineWalking.dieAt (engineWalking.cur / 64)).walks = [(engineKey engineWalking.cur, 4096 * 0 + 3, 150)] ∧ (3 : Nat) < 4096 ∧
    150 ≤ engineWalking.clock ∧ (engineWalking.partAt 0).shoots = [] := by decide +kernel
theorem test_witness_depto :
    let s := { podCl (fun x => { x with since := some 4, wait := .since 4 }) with clock := 3200064 }
    (s.core.cluster .L).since = some 4 ∧ (s.core.cluster .L).wait.sleeps = false ∧ (s.core.cluster .L).stopped = false ∧
    4 + s.core.stallim.toNat ≤ s.warm ∧ ({ s with clock := 160 } : State).warm < 4 + s.core.stallim.toNat := by decide +kernel

theorem test_witness_plen :
    let e : LoopEntry := { oneLoop with pre := true, id := 7 }
    let s := ({ podBase with parts := [(0, { podPart with kernels := [aKernel] })] } : State).modCore fun _ => { podCore with l := { loops := [e] } }
    (s.core.cluster .L).loops = [e] ∧ e.pre = true ∧ s.part.kernelOf s.core.slot.code = some aKernel ∧
    (aKernel.preempt.find? fun y => decide (y.1 = e.id)) = some (e.id, 3) ∧ e.began + 3 < s.warm ∧ (ready.core.cluster .L).loops = [] ∧
    ready.core.preempt = none := by decide +kernel

/-! ## Witnesses: contexts, rotation, launches, messages -/

def asked : State := pod fun c => { c.modClusters (fun _ x => { x with stopped := true }) with preempt := some 5 }

theorem test_witness_requests :
    ((podCl fun x => { x with wait := .asleep 4 }).core.cluster .L).wait = .asleep 4 ∧
    ready.core.run ≠ none ∧ ready.isGang ready.core.slot = false ∧ ready.core.stopReached = false ∧ asked.core.stopReached = true ∧
    (asked.modCore fun c => { c with win := none }).core.drained_ = true ∧ (∀ l ∈ asked.core.l1d, l.mask = 0) := by decide +kernel
theorem test_witness_context_save :
    let s := pod fun c => { c with drained := true }
    s.core.run = some 0 ∧ s.core.drained = true ∧ s.isGang s.core.slot = false ∧ (s.core.slotAt 0).badCrc = none ∧ s.core.oeq.length ≤ 64 := by
  decide +kernel

def savedCore : Core := { podCore with run := none, slot0 := { podSlot with state := .saved } }

theorem test_witness_context_restore :
    let s := pod fun _ => savedCore
    let r := { podBase with mem := [(131072, 1)], parts := [(0, podPart)] }
    let t := r.modCore fun _ => { savedCore with slot0 := { savedCore.slot0 with rsttab := h2 } }
    s.core.swapAt ≤ s.clock ∧ (s.core.slotAt 0).badCrc = none ∧ t.core.swapAt ≤ t.clock ∧ (t.core.slotAt 0).badCrc = none ∧
    s.core.resumable = some 0 ∧ s.closed s.cur = false ∧ s.isGang (s.core.slotAt 0) = false ∧
    ((s.modCore fun c => c.loadContext 0 s.warm (s.windowOf s.cur)).settleMirror s.cur).restartOk = false ∧ t.core.resumable = some 0 ∧ t.closed t.cur = false ∧
    t.isGang (t.core.slotAt 0) = false ∧ ((t.modCore fun c => c.loadContext 0 t.warm (t.windowOf t.cur)).settleMirror t.cur).restartOk = true := by decide +kernel

/-- Quads 0 and 1 of die 0 belong to the partition; core 0 carries a task. -/
def turning (f : Die → Die) (g : Pkg → Pkg) : State :=
  ((({ podBase with parts := [(0, { podPart with cores := [(0, 255)] })] } : State).modCore fun _ => podCore).modDieAt 0 f).modPkgAt 0
    fun p => g { p with enable := BitVec.allOnes 256 }

theorem test_witness_rotation :
    let s := turning id id
    s.partsOn 0 = [0] ∧ 2 ≤ (s.ring 0 0).length ∧ (s.pkgAt 0).hot = false ∧ (s.dieAt 0).rotating = [] ∧
    ((turning id fun p => { p with hot := true }).pkgAt 0).hot = true ∧ (turning id fun p => { p with hot := true }).partsOn 0 = [0] ∧
    2 ≤ ((turning id fun p => { p with hot := true }).ring 0 0).length ∧
    (∃ k ∈ ringCores 0 ((turning (fun d => { d with rotating := [0] }) id).ring 0 0),
      ((turning (fun d => { d with rotating := [0] }) id).coreAt k).run ≠ none) ∧
    (∃ k ∈ ringCores 0 (s.ring 0 0), (s.coreAt k).run ≠ none) ∧ ((turning (fun d => { d with rotating := [0] }) id).dieAt 0).rotating = [0] ∧
    State.reset.partsOn 0 = [] := by decide +kernel
theorem test_witness_rotation_moves :
    let s := (turning (fun d => { d with rotating := [0] }) id).modCore fun _ => savedCore
    s.partsOn 0 = [0] ∧ 2 ≤ (s.ring 0 0).length ∧ (s.dieAt 0).rotating = [0] ∧ (s.pkgAt 0).hot = false ∧
    ∀ k ∈ ringCores 0 (s.ring 0 0), (s.coreAt k).run = none := by
  decide +kernel
/-- Two partitions with a task on die 0, the second on the cores of this mask. -/
def turningTwo (m : BitVec 256) : State :=
  ({ turning id id with parts := [(0, { podPart with cores := [(0, 255)] }), (1, { podPart with cores := [(0, m)] })] } : State).modCoreAt 8
    fun _ => { slot0 := { podSlot with part := 1, state := .saved } }
theorem test_witness_rotation_of_two :
    let s := turningTwo 255
    s.partsOn 0 = [0, 1] ∧ s.ring 0 0 = [0, 1] ∧ s.ring 1 0 = [0, 1] ∧ (s.pkgAt 0).hot = false ∧ (s.dieAt 0).rotating = [] := by decide +kernel
theorem test_witness_rotation_of_two_apart :
    let s := turningTwo 0xFF00
    s.partsOn 0 = [0, 1] ∧ s.ring 0 0 = [0, 1] ∧ s.ring 1 0 = [2, 3] := by decide +kernel

/-- A structure from its fields (offset, value), with its CRC-32 behind its first `n` bytes. -/
def sealed (n : Nat) (fields : List (Nat × Nat)) : Nat :=
  let body := (fields.map fun x => x.2 * 2 ^ (8 * x.1)).sum
  body + (crc32 (leBytes n body)).toNat * 2 ^ (8 * n)

/-- No predecessors (R363). -/
def noPreds : List (Nat × Nat) := [(0x50, 0xFFFFFFFF), (0x54, 0xFFFFFFFF), (0x58, 0xFFFFFFFF), (0x5C, 0xFFFFFFFF)]

/-- A launch record (R363): entry `handleOf 1 0`, CQUOTA 4096, 8 tiles, SLOTS 1, TMIN, UNIT and TMAX 1, one core on die 0. -/
def recordWith (more : List (Nat × Nat)) : BitVec 1024 :=
  BitVec.ofNat 1024 (sealed 124 ([(0, (handleOf 1 0).toNat), (0x18, 4096), (0x1C, 8), (0x1D, 1), (0x28, 1), (0x2A, 1), (0x2C, 1), (0x30, 1)] ++ noPreds ++ more))

def plainRecord : BitVec 1024 := recordWith []

/-- Bytes of memory from an address on, in canonical form. -/
def cellsAt (a : Nat) (bs : List Byte) : List Host.Cell := ((List.range bs.length).map fun i => (a + i, bs.getD i 0)).filter fun x => !decide (x.2 = 0)

/-- A launch queue header at h2 (R361): PROD, HEAD, NSLOT 4, the rings at 256 and 1024 of region 2. -/
def header (prod head : Nat) : List Byte :=
  leBytes 8 prod ++ leBytes 8 head ++ leBytes 44 (sealed 24 [(0, 4), (8, (h2 + 256).toNat), (16, (h2 + 1024).toNat)] % 2 ^ 192) ++
    leBytes 4 (crc32 (leBytes 24 (sealed 24 [(0, 4), (8, (h2 + 256).toNat), (16, (h2 + 1024).toNat)]))).toNat

def aQueue : LaunchQueue := { h := h2, pkg := 0, stopped := false }

def launching (mem : List Host.Cell) (f : Part → Part) (g : Pkg → Pkg) : State :=
  ({ podBase with mem := mem, parts := [(0, f { podPart with queues := [(0, aQueue)], cores := [(0, 15)] })] } : State).modPkgAt 0
    fun p => g { p with enable := BitVec.allOnes 256 }

def queued (prod head : Nat) (r : BitVec 1024) : State :=
  launching (cellsAt 131072 (header prod head) ++ cellsAt 131328 (leBytes 128 r.toNat)) id id

theorem test_witness_queues :
    let s := launching [] (fun p => { p with queues := [(0, { aQueue with stopped := true })] }) id
    let t := launching [] id id
    let u := queued 0 0 0
    (s.partAt 0).queue? 0 = some { aQueue with stopped := true } ∧ (t.partAt 0).queue? 0 = some aQueue ∧ t.headerOk 0 h2 = false ∧
    (u.partAt 0).queue? 0 = some aQueue ∧ u.headerOk 0 h2 = true ∧ u.nextRecord 0 aQueue 0 = none := by decide +kernel
theorem test_witness_records :
    let s := queued 1 0 plainRecord
    let r := BitVec.ofNat 1024 (sealed 124 ([(0x18, 4096), (0x1C, 8), (0x1D, 1), (0x28, 1), (0x2A, 1), (0x2C, 1), (0x2E, 2), (0x30, 1), (0x3C, 5)] ++ noPreds))
    let n : GraphNode := { pkg := 0, graph := 5, node := 1, record := 0 }
    let t := launching (cellsAt 131072 (header 1 0) ++ cellsAt 131328 (leBytes 128 r.toNat)) (fun p => { p with nodes := [n] }) id
    (s.partAt 0).queue? 0 = some aQueue ∧ (t.partAt 0).queue? 0 = some aQueue ∧ aQueue.stopped = false ∧
    s.headerOk 0 h2 = true ∧ s.nextRecord 0 aQueue 0 = some (plainRecord, 0) ∧ s.replayable 0 aQueue plainRecord = false ∧
    t.headerOk 0 h2 = true ∧ t.nextRecord 0 aQueue 0 = some (r, 0) ∧ t.replayable 0 aQueue r = true ∧ t.rejectCode 0 0 r = 0 ∧
    isReplay r = true ∧ isReplay plainRecord = false := by decide +kernel
theorem test_witness_checks_of_records :
    let s := launching [] id id
    let t := launching [] id fun p => { p with hot := true }
    s.rejectCode 0 0 0 = 1 ∧ formatOk 0 = false ∧ formatOk plainRecord = true ∧ s.handlesOk 0 plainRecord = true ∧
    s.handlesOk 0 (recordWith [(8, (handleOf 9 0).toNat)]) = false ∧ formatOk (recordWith [(8, (handleOf 9 0).toNat)]) = true ∧
    recField (recordWith [(0x18, 1)]) 0x18 4 % 4096 ≠ 0 ∧ formatOk (recordWith [(0x18, 1)]) = true ∧ s.handlesOk 0 (recordWith [(0x18, 1)]) = true ∧
    48 < recField (recordWith [(0x1C, 64)]) 0x1C 1 ∧ formatOk (recordWith [(0x1C, 64)]) = true ∧
    s.rejectCode 0 0 (recordWith [(0x2E, 1), (0x3C, 5), (0x40, 6)]) = 0 ∧ isDef (recordWith [(0x2E, 1), (0x3C, 5), (0x40, 6)]) = true ∧
    isReplay (recordWith [(0x2E, 1), (0x3C, 5), (0x40, 6)]) = false ∧
    t.rejectCode 0 0 plainRecord = 0 ∧ isDef plainRecord = false ∧ (t.pkgAt 0).hot = true ∧ (t.partAt 0).launches = [] := by decide +kernel

def aLaunch : Launch := { id := 1, queue := 0, pkg := 0, record := plainRecord, args := 7, payload := 0, grants := [(5, 0)] }

theorem test_witness_retest :
    let s := launching [] (fun p => { p with launches := [aLaunch] }) id
    let t := launching [] (fun p => { p with launches := [aLaunch], cores := [(0, 0)] }) id
    let h := launching [] (fun p => { p with launches := [aLaunch] }) fun p => { p with hot := true }
    let ks := (s.grant 0 0 plainRecord (s.freeCore 1)).1
    (t.partAt 0).launches.filter (fun x => decide (x.state = .waiting)) = [aLaunch] ∧ (t.partAt 0).launch 1 = some aLaunch ∧
    (h.partAt 0).launches.filter (fun x => decide (x.state = .waiting)) = [aLaunch] ∧ (h.partAt 0).launch 1 = some aLaunch ∧ (h.pkgAt 0).hot = true ∧
    (s.partAt 0).launches.filter (fun x => decide (x.state = .waiting)) = [aLaunch] ∧ (s.partAt 0).launch 1 = some aLaunch ∧
    (s.pkgAt 0).hot = false ∧ recField plainRecord 0x28 2 ≤ ks.length ∧ (aLaunch.grants.map (·.1)).Nodup ∧ recField plainRecord 0x1D 1 ≠ 2 ∧
    ks.Nodup ∧ (∀ k ∈ ks, (s.coreAt k).slot0.state = .empty ∧ (s.coreAt k).run = none) ∧
    (t.grant 0 0 plainRecord (t.freeCore 1)).1.length < recField plainRecord 0x28 2 ∧ (State.reset.partAt 0).launches = [] := by decide +kernel

def boundCore : Core := { slot0 := { podSlot with state := .bound, start := 0xFFFFFFFF, arg := 7 } }

/-- The pod with one launch, and its core. -/
def withLaunch (l : Launch) (c : Core) : State := ({ podBase with parts := [(0, { podPart with launches := [l] })] } : State).modCore fun _ => c

theorem test_witness_starts :
    let s := pod fun _ => boundCore
    let t := withLaunch { aLaunch with state := .bound } boundCore
    let b := pod fun _ => { boundCore with slot0 := { boundCore.slot0 with badCrc := some 7 } }
    let f := pod fun _ => { boundCore with failed := true }
    (∀ x ∈ [s, b, f], (x.core.slotAt 0).state = .bound ∧ startReached (x.core.slotAt 0) x.scnt = true ∧ x.launchOf (x.core.slotAt 0) = none) ∧
    s.admits 0 = true ∧ (s.core.slotAt 0).badCrc = none ∧ (s.pkgAt (s.cur / 256)).ceilZero = false ∧
    t.launchOf (t.core.slotAt 0) = some { aLaunch with state := .bound } ∧ t.gangSaved (t.core.slotAt 0) = false ∧ aLaunch.held = false ∧
    t.nodeBound 0 { aLaunch with state := .bound } = true ∧ (t.core.slotAt 0).state = .bound ∧ (t.core.slotAt 0).badCrc = none ∧
    startReached (t.core.slotAt 0) t.scnt = true ∧ t.admits 0 = true ∧ (t.pkgAt (t.cur / 256)).ceilZero = false ∧
    b.admits 0 = true ∧ (b.core.slotAt 0).badCrc = some 7 ∧ f.core.failed = true ∧ f.admits 0 = false ∧ (ready.core.slotAt 0).state ≠ .bound := by
  decide +kernel
theorem test_witness_completion :
    let s := withLaunch { aLaunch with state := .bound } { slot0 := { podSlot with state := .ended } }
    let t := withLaunch { aLaunch with state := .bound } boundCore
    (s.partAt 0).launch 1 = some { aLaunch with state := .bound } ∧ s.launchOver 0 { aLaunch with state := .bound } = true ∧
    (t.partAt 0).launch 1 = some { aLaunch with state := .bound } ∧ t.launchOver 0 { aLaunch with state := .bound } = false ∧
    (∀ x ∈ [LaunchState.waiting, .replaying], ((withLaunch { aLaunch with state := x } boundCore).partAt 0).launch 1 = some { aLaunch with state := x }) ∧ t.slotsOf 0 1 = [(0, 0, boundCore.slot0)] ∧ boundCore.slot0.live = true ∧
    boundCore.slot0.badCrc = none ∧ ({ aLaunch with state := .bound, lost := true } : Launch).status ≠ 3 := by
  decide +kernel
/-- Node 6 of graph 5, without a stamp, with one predecessor or none. -/
def nodeLaunch (pred : Nat) : Launch :=
  let r := BitVec.ofNat 1024 (sealed 124 [(0x3C, 5), (0x40, 6), (0x44, 0xFFFFFFFF), (0x50, pred), (0x54, 0xFFFFFFFF), (0x58, 0xFFFFFFFF), (0x5C, 0xFFFFFFFF)])
  { aLaunch with record := r, state := .bound, held := true, replay := 1 }

/-- The node with the stamp 5. -/
def stampedLaunch (pred : Nat) : Launch :=
  { nodeLaunch pred with record := (nodeLaunch pred).record &&& ~~~(BitVec.ofNat 1024 (0xFFFFFFFA * 2 ^ (8 * 0x44))) }

/-- The pod with that launch, node 3 of the graph having ended its replay 1 with STATUS 1. -/
def withNode (l : Launch) : State :=
  ({ podBase with parts := [(0, { podPart with launches := [l], nodes := [{ pkg := 0, graph := 5, node := 3, record := 0, ends := [(1, 1)] }] })] } : State).modCore
    fun _ => boundCore

theorem test_witness_nodes :
    (∀ p ∈ [0xFFFFFFFF, 3, 4], ((withNode (nodeLaunch p)).partAt 0).launch 1 = some (nodeLaunch p) ∧ (nodeLaunch p).held = true ∧
      (nodeLaunch p).state = .bound ∧ (nodeLaunch p).stamp = 0xFFFFFFFF) ∧
    (withNode (nodeLaunch 0xFFFFFFFF)).gate 0 (nodeLaunch 0xFFFFFFFF) = .go ∧ (withNode (nodeLaunch 3)).gate 0 (nodeLaunch 3) = .killed ∧
    (withNode (nodeLaunch 4)).gate 0 (nodeLaunch 4) = .wait ∧ aLaunch.held = false := by
  decide +kernel
theorem test_witness_stamped_nodes :
    let s := fun p => withNode (stampedLaunch p)
    (∀ p ∈ [0xFFFFFFFF, 3, 4], ((s p).core.slotAt 0).state = .bound ∧ ((s p).core.slotAt 0).copy = false ∧
      startReached ((s p).core.slotAt 0) (s p).scnt = true ∧ (s p).launchOf ((s p).core.slotAt 0) = some (stampedLaunch p) ∧
      (s p).gangSaved ((s p).core.slotAt 0) = false ∧ (s p).nodeBound 0 (stampedLaunch p) = true ∧ (stampedLaunch p).held = true ∧
      (stampedLaunch p).stamp = 5) ∧
    (s 0xFFFFFFFF).gate 0 (stampedLaunch 0xFFFFFFFF) = .go ∧ (s 3).gate 0 (stampedLaunch 3) = .killed ∧ (s 4).gate 0 (stampedLaunch 4) = .depf ∧
    ((s 0xFFFFFFFF).modCore fun c => { c with failed := true }).admits 0 = false ∧
    (withNode (nodeLaunch 3)).launchOf ((withNode (nodeLaunch 3)).core.slotAt 0) = some (nodeLaunch 3) := by
  decide +kernel

/-! ## Witnesses: messages, tables, errors, bring-up, rails -/

/-- An arm entry for TAG 9 (R372): VALID, MAXLEN 16, its record at h2, its payload slots at 4096 of region 2. -/
def armWith (used : Nat) : BitVec 256 :=
  BitVec.ofNat 256 (sealed 28 [(0, 9), (2, 1), (4, 16), (8, h2.toNat), (0x10, (handleOf 2 4096).toNat), (0x19, used)])

def listening (v : BitVec 256) : State := podBase.modPkgAt 0 fun p => { p with arms := [(3, v)], armQueue := [(3, (0, 0))] }

theorem test_witness_messages :
    let s := listening (armWith 0)
    let f := podBase.modPkgAt 0 fun p => { p with failed := true }
    (s.pkgAt 0).armsFor 9 = [(3, armWith 0)] ∧ (s.pkgAt 0).failed = false ∧ armCrcOk (armWith 0) = true ∧ (s.pkgAt 0).armsFor 8 = [] ∧
    armField (armWith 0) 0x19 1 ≠ 16 ∧ 16 ≤ armField (armWith 0) 4 4 ∧ armField (armWith 0) 4 4 < 17 ∧ armField (armWith 16) 0x19 1 = 16 ∧
    ((listening (armWith 16)).pkgAt 0).armsFor 9 = [(3, armWith 16)] ∧
    armCrcOk (armWith 16) = true ∧ (f.pkgAt 0).failed = true ∧ armValid (armWith 0) = true ∧ armValid 0 = false ∧
    ((s.pkgAt 0).armsFor 9).any (fun x => !decide (x.1 = 4)) = true ∧
    ((listening (armWith 0 ^^^ BitVec.twoPow 256 250)).pkgAt 0).armsFor 9 = [(3, armWith 0 ^^^ BitVec.twoPow 256 250)] ∧
    armCrcOk (armWith 0 ^^^ BitVec.twoPow 256 250) = false := by decide +kernel

/-- A classifier entry: frames of type 0x88B5 whose first two bytes are zero, tagged 9. -/
def classEntry : BitVec 96 := BitVec.ofNat 96 (1 + 0x88B5 * 2 ^ 16 + 0xFFFF * 2 ^ 64 + 9 * 2 ^ 80)

theorem test_witness_frames :
    let s := podBase.modPkgAt 0 fun p => { p with boot := { p.boot with released := true }, classify := [(0, classEntry)] }
    let es := fun (payload : List Byte) =>
      ((List.range 64).map fun i => Sp.get 0 (s.pkgAt 0).classify (64 * 0 + i)).find? fun v => classMatches v 0x88B5 payload
    (s.pkgAt 0).boot.released = true ∧ (s.pkgAt 0).failed = false ∧ es [0, 0] = some classEntry ∧ es [1, 0] = none ∧
    (podBase.pkgAt 0).boot.released = false := by decide +kernel

/-- A message queue at h2: PROD, HEAD, NSLOT 4, and its ring at 256 of region 2, with a descriptor of 8 bytes for package 1. -/
def sending (prod head : Nat) : State :=
  let descriptor := leBytes 32 (sealed 28 [(0, 1), (2, 9), (4, 8), (8, h2.toNat)])
  ({ podBase with mem := cellsAt 131072 (header prod head) ++ cellsAt 131328 descriptor } : State).modPkgAt 0
    fun p => { p with msgq := some (0, h2) }

theorem test_witness_message_queues :
    let s := sending 1 0
    let ring := BitVec.ofNat 64 (s.readAt 0 (h2 + 0x18) 8)
    (podBase.pkgAt 0).msgq = none ∧ (s.pkgAt 0).msgq = some (0, h2) ∧ s.headerOk 0 h2 = true ∧
    s.readAt 0 (h2 + 8) 8 < s.readAt 0 h2 8 ∧ s.readAt 0 (h2 + 0x10) 4 ≠ 0 ∧
    s.descriptorOk 0 (s.readAt 0 (ring + BitVec.ofNat 64 (32 * (s.readAt 0 (h2 + 8) 8 % s.readAt 0 (h2 + 0x10) 4))) 32) = true ∧
    (sending 1 1).readAt 0 h2 8 ≤ (sending 1 1).readAt 0 (h2 + 8) 8 ∧ (sending 1 1).headerOk 0 h2 = true ∧
    (((listening 0).modPkgAt 0 fun p => { p with msgq := some (0, h2) }).pkgAt 0).msgq = some (0, h2) ∧
    ((listening 0).modPkgAt 0 fun p => { p with msgq := some (0, h2) }).headerOk 0 h2 = false := by decide +kernel

/-- The pod with region 2 unpinned. -/
def loose (f : Core → Core) : State :=
  ({ podBase with parts := [(0, { podPart with regions := [(1, encodeRegion placeRegion), (2, encodeRegion { rwRegion with pinned := false })] })] } : State).modCore
    fun _ => f podCore

theorem test_witness_region_writes :
    let s := loose fun c => { c with lq := [someEntry (.load h2 3 .L 4)] }
    ready.regionOf 0 1 = some placeRegion ∧ placeRegion.pinned = true ∧ ready.anyBound 0 = true ∧ podBase.anyBound 0 = false ∧
    (podBase.partAt 0).shoots = [] ∧ podBase.shotDown 0 2 = true ∧ s.regionOf 0 2 = some { rwRegion with pinned := false } ∧ s.shotDown 0 2 = false ∧
    (loose id).shotDown 0 2 = true ∧ ((loose id).partAt 0).shoots = [] ∧ (s.partAt 0).shoots = [] ∧ (s.coreAt 0).runs 0 = true := by decide +kernel
theorem test_witness_keys :
    let s : State := { podBase with parts := [(0, { regions := [(1, encodeRegion { placeRegion with keyen := true, key := 3 })] })] }
    s.keyInUse 0 3 = true ∧ podBase.keyInUse 0 3 = false ∧ (2 : Word).getLsbD 1 = true ∧ (∀ i, i < 3 → (1 : Word).getLsbD (2 * i + 1) = false) ∧
    (podBase.pkgAt 0).memUp.getLsbD 0 = false ∧ ((podBase.modPkgAt 0 fun p => { p with memUp := 7 }).pkgAt 0).memUp.getLsbD 2 = true ∧
    (0x104 : Word).getLsbD 8 = true ∧ ((0x104 : Word).extractLsb' 0 3).toNat = 4 ∧ ((0x103 : Word).extractLsb' 0 3).toNat < 4 ∧
    (0x004 : Word).getLsbD 8 = false := by decide +kernel

def anImage (steps : Nat) : KernelImage :=
  { aKernel with matSteps := steps, codeIndex := 5, regions := [{ index := 5, units := 1, rw := false, pinned := true, mirror := false, home := none, base := 262144, mbase := 0, token := 9, bytes := [1] }] }

theorem test_witness_images :
    podBase.imageLoads 0 (anImage 4096) = true ∧ ((anImage 0).regions.map (·.index)).Nodup ∧ podBase.imageLoads 0 (anImage 4097) = false := by
  decide +kernel
theorem test_witness_outside_accesses :
    let s : State := { podBase with parts := [(0, { podPart with debug := true, tokens := [(5, { heldToken with mode := .parked })] })] }
    s.locate 0 (handleOf 1 65532) 4 = some (placeRegion, 131068) ∧ (s.partAt 0).debug = true ∧ placeRegion.rw = false ∧ s.locate 0 (handleOf 9 0) 4 = none ∧
    s.hostRange 0 h2 1 = some 131072 ∧ podBase.hostRange 0 h2 1 = none ∧ podBase.locate 0 h2 1 = some (rwRegion, 131072) := by decide +kernel

def anError (source : BitVec 4) (u : Bool) : MemError := { source := source, uncorrectable := u, addr := 64, phys := 0xFF, owner := 0, syndrome := 0 }

theorem test_witness_errors :
    (anError 0 true).uncorrectable = true ∧ ((anError 0 true).source = 0 ∨ (anError 0 true).source = 1) ∧
    (podBase.pkgAt 0).ownerMode (anError 0 true).source.toNat = false ∧ (anError 0 false).uncorrectable = false ∧ 3 ∉ (podBase.pkgAt 0).rebuild ∧
    (podBase.pkgAt 0).ownerMode (3 % 3) = false ∧
    (71#7).toNat < 72 ∧ (575#10).toNat < Config.packages ∧ 576 ≤ (576#10).toNat := by decide +kernel
/-- The pod with HBM4E in OWNER mode, the line of the error last written by the task. -/
def owning (w : Nat) : State := { ready.modPkgAt 0 fun p => { p with memprot := 1 } with owners := [(1, w)] }
theorem test_witness_owner_mode :
    ((owning 1).pkgAt 0).ownerMode (anError 0 true).source.toNat = true ∧ ((owning 1).pkgAt 0).ownerMode (3 % 3) = true ∧
    (owning 0).ownerOf 0 (anError 0 true) = 0 ∧ (owning 1).ownerOf 0 (anError 0 true) = 1 ∧
    (((owning 1).coreAt ((1 - 1) / 2)).slotAt (BitVec.ofNat 1 ((1 - 1) % 2))).live = true ∧
    (((owning 1).coreAt ((1 - 1) / 2)).slotAt (BitVec.ofNat 1 ((1 - 1) % 2))).badCrc = none := by decide +kernel
theorem test_witness_parked_spans :
    let s : State := { ready with parts := [(0, { podPart with tokens := [(5, { heldToken with mode := .parked, taint := true })] })] }
    let x := (s.partAt 0).headOf (5#34).toNat
    findPeer 0 3 0 s.cores = none ∧ ((ready.partAt 0).headOf 9).2.isHead = false ∧ x.2.isHead = true ∧ x.2.mode = .parked ∧ findPeer 0 ((0 : Word).extractLsb' 30 10).toNat ((0 : Word).extractLsb' 22 8).toNat s.cores = some (0, 1) ∧
    ((ready.partAt 0).headOf 5).2.mode ≠ .parked := by decide +kernel
theorem test_witness_banks :
    let b : ErrBank := {}
    b.record = none ∧ ({ b with record := some (anError 0 false) } : ErrBank).record = some (anError 0 false) ∧
    (anError 0 false).uncorrectable = false ∧ (anError 1 true).uncorrectable = true := by decide +kernel
theorem test_witness_failures :
    let r : Region := { rwRegion with mirror := true, pkg := 2, mbase := 65536 }
    let s : State := { podBase with parts := [(0, { regions := [(2, encodeRegion r)] })] }
    podBase.regionOf 0 2 = some rwRegion ∧ rwRegion.pkg = (0#10).toNat ∧ rwRegion.mirror = false ∧ s.regionOf 0 2 = some r ∧
    r.pkg = (2#10).toNat ∧ (2#10).toNat ^^^ 1 ≠ (2#10).toNat ∧ (s.pkgAt ((2#10).toNat ^^^ 1)).failed = false := by decide +kernel

def someInputs (ok : Bool) : BootInputs :=
  { firmware := [1], firmwareCrc := if ok then crc32 [1] else 0, config0 := 0, config1 := BitVec.ofNat 512 (sealed 60 [(0, 0x534B4346), (6, 7), (8, 2 ^ 256 - 1), (40, 5)]),
    memprot := 0, memoryOk := true, stageMilliK := 4200, liftMilliW := 1000, portsUp := 4, tables := {}, hostEntry := h2 }

theorem test_witness_bring_up :
    let s := (podBase.modPkgAt 0 fun p => { p with boot := { p.boot with step := 4, since := 100 } })
    let t := { s with clock := 19200000000100 }
    let i := someInputs true
    let q := bootPkg i 160
    crc32 (someInputs false).firmware ≠ (someInputs false).firmwareCrc ∧ crc32 i.firmware = i.firmwareCrc ∧ configOk i.config0 = false ∧
    configOk i.config1 = true ∧ i.memoryOk = true ∧ q.boot.step = 4 ∧ i.stageMilliK < 4400 ∧ 1000 ≤ i.liftMilliW ∧ q.links &&& i.portsUp ≠ 0 ∧
    q.links &&& 2 = 0 ∧ (bootPkg { i with memoryOk := false } 160).boot.step ≠ 4 ∧ i.tables.regions = [] ∧ i.tables.keys = [] ∧ (t.pkgAt 0).boot.step = 4 ∧ (t.pkgAt 0).boot.code = 0 ∧
    (t.pkgAt 0).boot.since + 19200000000000 ≤ t.clock ∧ s.clock < (s.pkgAt 0).boot.since + 19200000000000 := by decide +kernel
theorem test_witness_stage :
    let cold := ready.modPkgAt 0 fun p => { p with ceilZero := true }
    let s := { ready.modPkgAt 0 fun p => { p with hot := true, hotAt := 5 } with clock := 32000005 }
    (ready.coreAt 0).run ≠ none ∧ (ready.pkgAt 0).ceilZero = false ∧ (ready.pkgAt 0).hot = false ∧ (cold.pkgAt 0).ceilZero = true ∧
    (s.pkgAt 0).hot = true ∧ (s.pkgAt 0).hotAt + 32000000 ≤ s.clock ∧ s.cores = [(0, podCore)] ∧ podCore.run = some 0 ∧ podCore.slot.live = true ∧ podCore.slot.badCrc = none := by
  decide +kernel
theorem test_witness_rails :
    let d : Die := { droop := [(3, some (96, false)), (4, some (96, true))], cenew := true, hold := 0 }
    let s := podBase.modDieAt 0 fun _ => d
    let t := { s with clock := 64096 }
    ((s.dieAt 0).drooping 3 = some (96, false) ∧ s.clock < 96 + 64000) ∧ (s.dieAt 0).drooping 4 = some (96, true) ∧ 96 + 64000 ≤ t.clock ∧
    (s.dieAt 0).drooping 5 = none ∧ (5 : BitVec 16) ≠ 0 ∧ (s.dieAt 0).cenew = true := by decide +kernel
theorem test_witness_margins :
    let d : Die := {}
    let q : Die := { sram := 2 }
    d.hold = 0 ∧ d.cenew = false ∧ d.sram * 100 < d.cecur ∧ max 620 (d.maxRail - 100) < d.vs ∧
    2 * q.cecur < q.sram * 100 ∧ ({ d with sram := 1 } : Die).sram * 100 ≤ 2 * d.cecur ∧ d.cecur ≤ ({ d with sram := 1 } : Die).sram * 100 ∧ q.hold = 0 ∧ 0 < ({ d with hold := 1000 } : Die).hold ∧
    podBase.clock < d.calm + 1920000000000 ∧ d.calm + 1920000000000 ≤ 1920000000000 := by decide +kernel
def aWindow : Window :=
  { clusters := [{}, {}, {}, {}], tok := [], port := [], lqAt := 0, sqAt := 0, eqAt := 0, xseqAt := 0, opener := .matrix,
    mark := { step := 0, loops := [], msel := 0, scnt := 0 }, clock := 160, engs := [] }
theorem test_witness_margin_errors :
    let s := (pod fun c => { c with win := some aWindow }).modDieAt 0 fun d => { d with vs := 700 }
    (s.dieAt 0).vs < 780 ∧ (s.coreAt 0).win = some aWindow ∧ (s.coreAt 0).replay = none ∧ (s.dieAt 0).raiseAt = none ∧
    780 ≤ (podBase.dieAt 0).vs ∧ (podBase.coreAt 0).run = none := by decide +kernel

/-! ## Witnesses: further clauses -/

theorem test_witness_kill_taken :
    let x : Taken := { no := 2, h := h2, cmd := .copy copyEntry, warm := 2, due := 5, tags := [(1, 2)] }
    let w : Taken := { no := 1, h := h2, cmd := .waitseq copyEntry, warm := 2, due := 5 }
    let c : Core := { podCore with str := { taken := [w, x] } }
    x ∈ c.str.taken ∧ x.done = false ∧ x.begun = none ∧ (1, 2) ∈ x.tags ∧ 1 < 2 ∧
    mayStart (c.str.taken.filter fun y => decide (y.no < x.no)) x = false ∧ ({ x with done := true } : Taken).done = true := by decide +kernel
theorem test_witness_sends_beside_a_pop :
    let s := pod fun c => { c with port := (List.range 8).map fun i => (i, { items := [(9, 7), (9, 8)], popWarm := 10, pops := 1 }) }
    s.regsReady [gR 1] [gR 2] = true ∧ (let f := s.core.portAt (leftOut s.lane)
      f.popWarm = s.warm ∧ f.items.length + f.pops < 4) := by decide +kernel
theorem test_witness_dependences_wait :
    let full := pod fun c => { c with tok := (List.range 8).map fun i => (i, { items := List.replicate 8 (9, 0) }) }
    (8 : BitVec 4).getLsbD 3 = true ∧ (ready.core.tokAt (leftIn ready.lane)).items = [] ∧ (4 : BitVec 4).getLsbD 2 = true ∧
    (ready.core.tokAt (rightIn ready.lane)).items = [] ∧ (2 : BitVec 4).getLsbD 1 = true ∧ 8 ≤ (full.core.tokAt (leftOut full.lane)).items.length ∧
    (1 : BitVec 4).getLsbD 0 = true ∧ 8 ≤ (full.core.tokAt (rightOut full.lane)).items.length := by decide +kernel
theorem test_witness_nested_fault :
    let s := pod fun c => { c with inHandler := true, tacked := true }
    s.core.inHandler = true ∧ s.core.nested = false ∧ s.core.tacked = true ∧ s.core.back = [] := by decide +kernel
/-- A handler that has issued an engine command, its restart table naming RSTLBL 0 or naming nothing. -/
def accLostPod (named : Bool) : State :=
  ({ podBase with mem := [(131072, 1)] } : State).modCore fun _ =>
    { podCore with inHandler := true, accLost := true, slot0 := { podSlot with rsttab := if named then h2 else 0 } }
theorem test_witness_return_with_acclost :
    let s := accLostPod true
    let t := accLostPod false
    (∀ u ∈ [s, t], u.core.inHandler = true ∧ u.core.nested = false ∧ u.core.accLost = true) ∧ s.restartOk = true ∧ t.restartOk = false ∧ t.core.run = some 0 := by
  decide +kernel
theorem test_witness_share_read :
    let s := pod fun c => { c with shares := [5] }
    regionIdx h2 ∈ s.core.tlb ∧ s.locate s.partNo h2 8 = some (rwRegion, 131072) ∧ rwRegion.rw = true ∧ offsetOf h2 % 65536 + 8 ≤ 65536 ∧
    (s.part.headOf (unitOf rwRegion h2)).1 ∈ s.core.shares := by decide +kernel
theorem test_witness_store_walks :
    let s := ptr (handleOf 3 0)
    s.core.sq.length < 32 ∧ (s.dieAt (s.cur / 64)).walks = [] ∧
    (match s.access (s.g 1) 8 8 true with | .walk r => decide (r = 3) | _ => false) = true := by decide +kernel

/-- A ragged vector of 32 fp32 values in region 2, box 8, its boundary table of two sequences at 32768 of the region (R225, R226). -/
def raggedShape : BitVec 1024 :=
  BitVec.ofNat 1024 (h2.toNat + (16 + 2 * 2 ^ 32) * 2 ^ 64 + 32 * 2 ^ 128 + 4 * 2 ^ 384 + 8 * 2 ^ 832 + (handleOf 2 32768).toNat * 2 ^ 960)

/-- The pod with a shape in shp3 and these bytes of memory. -/
def shapedWith (r : BitVec 1024) (mem : List Host.Cell) (f : Cluster → Cluster) : State :=
  ({ podBase with mem := mem } : State).modCore fun _ => { podCore with shp := [(3, r)], l := f {}, mcmask := 1 }

def raggedPod (second : Nat) : State := shapedWith raggedShape (cellsAt 163840 (leBytes 16 2 ++ leBytes 4 0 ++ leBytes 4 second)) id

/-- What the crossing statements ask of a state and a shape alike. -/
def crossReady (s : State) : Bool :=
  s.regsReady ([gR 1, gR 2] ++ (List.range 7).map RegRef.c) [gR 3] && s.depsReady 0 && decide (s.core.lq.length < 32) &&
  decide (s.core.sq.length < 32) && decide (s.core.outstanding < 512) && decide (s.core.shpBusy = []) && decide (s.core.replay = none) &&
  decide (s.cl.loops = []) && !s.core.inHandler && decide ((s.g 1).extractLsb' 23 41 = 0) && decide ((s.g 1).extractLsb' 0 5 = 0) &&
  decide ((s.g 2).extractLsb' 48 16 = 0) && decide (s.core.mcmask.toNat % 16 ≠ 0)

theorem test_witness_ragged_crossings :
    let r := raggedShape
    let rows := fun (st : List Nat) => (List.range (rowCount r)).map fun i => planRow r [0] 0 (some st) i
    let runs := fun (st : List Nat) => warmRuns r [0] false (rows st)
    let u := raggedPod 16
    let b := raggedPod 4
    let m := shapedWith r [] fun x => x
    (∀ s ∈ [u, b, m], crossReady s = true ∧ ((s.g 2).extractLsb' 32 16).toNat = 0 ∧ shapeSuits r [0] 0 false = true ∧ shpRagax r ≠ 7 ∧
      s.needsWalk (regionIdx (shpBtab r)) = false ∧ s.pinnedRange (shpBtab r) (tableBytes r false) = none ∧ s.badSource r false true [] = none ∧
      s.mayReadTable (shpBtab r) (tableBytes r false) = true) ∧
    (m.boundary r).1 = none ∧ (u.boundary r).1 = some [0, 16] ∧ (b.boundary r).1 = some [0, 4] ∧
    (∀ st ∈ [[0, 16], [0, 4]], (∀ x ∈ runs st, u.needsWalk ((x.2.1 / (4503599627370496 : Int)).toNat % 4096) = false) ∧ u.firstBad (runs st) = none ∧
      u.runsAllowed false (runs st) = true) ∧
    firstSpan r [0] [0, 16] (rows [0, 16]) = none ∧ firstSpan r [0] [0, 4] (rows [0, 4]) ≠ none ∧ shpBmode r = 0 ∧
    rowCount r * rowBytes r false ≤ u.core.slot.cquota.toNat := by decide +kernel

/-- One packed weight block at the start of region 2, its codebook image at 4096 (R67, R178), of table id 5. -/
def packedShape : BitVec 1024 :=
  BitVec.ofNat 1024 (h2.toNat + (8 + 32 + 7 * 128) * 2 ^ 64 + 2 ^ 128 + 2 ^ 160 + 576 * 2 ^ 384 + 576 * 2 ^ 448 + 2 ^ 832 + 2 ^ 848 +
    (handleOf 2 4096).toNat * 2 ^ 960)
def packedBlock (crc : Nat) : List Byte := leBytes 0x22C (0x55C4B * 2 ^ (8 * 0x220)) ++ leBytes 20 crc
def packedImage : List Byte := leBytes 0x410 0x55C54 ++ leBytes 4 2844826553
def packedPod (crc : Nat) : State :=
  shapedWith packedShape ([(131616, 75), (131617, 92), (131618, 5)] ++ (if crc = 7 then [(131628, 7)] else [(131628, 134), (131629, 222), (131630, 24), (131631, 205)]) ++
    [(135168, 84), (135169, 92), (135170, 5), (136208, 185), (136209, 155), (136210, 144), (136211, 169)]) fun x => x.wg 2 (word (5 * 2 ^ 32))
theorem test_witness_packed_crossings :
    let s := packedPod 3440959110
    let r := packedShape
    let rows := (List.range (rowCount r)).map fun i => planRow r [0, 0] 2 none i
    let runs : List (Nat × Int × Nat) := warmRuns r [0, 0] true rows
    shpBtab r = handleOf 2 4096 ∧ shapeSuits r [0, 0] 2 false = true ∧ ((s.g 2).extractLsb' 32 16).toNat = 5 ∧
    s.needsWalk (regionIdx (shpBtab r)) = false ∧ (shpBtab r).toNat % 16 = 0 ∧ s.pinnedRange (shpBtab r) 1044 = none ∧
    s.badSource r true false [] = none ∧ blockList r [0, 0] rows = [(0, 0, h2)] ∧ s.badSource r false false [h2] = none ∧
    (∀ x ∈ runs, s.needsWalk ((x.2.1 / (4503599627370496 : Int)).toNat % 4096) = false) ∧ s.firstBad runs = none ∧
    s.mayReadTable (shpBtab r) 1044 = true ∧ s.runsAllowed false runs = true ∧ rowCount r * rowBytes r true ≤ s.core.slot.cquota.toNat ∧
    crossReady s = true := by decide +kernel
/-- CRC-32 with the value of each byte's step computed before the next. -/
def crcStrict : List Byte → Word32 → Word32
  | [], c => c ^^^ 0xFFFFFFFF
  | b :: bs, c => match (crcByte c b).toNat with
    | 0 => crcStrict bs 0
    | n + 1 => crcStrict bs (BitVec.ofNat 32 (n + 1))
theorem crc32_strict (bs : List Byte) : crc32 bs = crcStrict bs 0xFFFFFFFF := by
  suffices ∀ c, (bs.foldl crcByte c) ^^^ 0xFFFFFFFF = crcStrict bs c from this _
  induction bs with
  | nil => intro c; rfl
  | cons b rest ih =>
    intro c
    simp only [List.foldl_cons, ih, crcStrict]
    split
    · rename_i h; rw [show crcByte c b = 0 from BitVec.eq_of_toNat_eq h]
    · rename_i n h; rw [show n + 1 = n.succ from rfl, ← h, BitVec.ofNat_toNat, BitVec.setWidth_eq]
theorem packed_image : (packedPod 3440959110).anyBytes 135168 1044 = packedImage := by decide +kernel
theorem packed_block (crc : Nat) (h : crc = 3440959110 ∨ crc = 7) : (packedPod crc).anyBytes 131072 576 = packedBlock crc := by
  rcases h with rfl | rfl <;> decide +kernel
theorem test_witness_packed_tables :
    let s := packedPod 3440959110
    s.keyOf (handleOf 2 4096) 1044 = some 135168 ∧ s.imageOk 135168 5 = true ∧ s.imageOk 135168 6 = false := by
  have h : crc32 (packedImage.take 0x410) = 2844826553 := by rw [crc32_strict]; decide +kernel
  refine ⟨by decide +kernel, ?_, ?_⟩ <;> simp only [State.imageOk, packed_image, h] <;> decide +kernel
theorem test_witness_packed_blocks :
    (packedPod 3440959110).keyOf h2 576 = some 131072 ∧
    (packedPod 3440959110).blockOk ((packedPod 3440959110).anyBytes 131072 576) 5 135168 = true ∧
    (packedPod 7).blockOk ((packedPod 7).anyBytes 131072 576) 5 135168 = false ∧ (packedPod 7).imageOk 135168 5 = true := by
  have h : ∀ crc, crc = 3440959110 ∨ crc = 7 → crc32 ((packedBlock crc).take 0x22C) = 3440959110 := by
    rintro _ (rfl | rfl) <;> rw [crc32_strict] <;> decide +kernel
  have k : crc32 (packedImage.take 0x410) = 2844826553 := by rw [crc32_strict]; decide +kernel
  have m : (packedPod 7).anyBytes 135168 1044 = packedImage := by decide +kernel
  refine ⟨by decide +kernel, ?_, ?_, ?_⟩
  · simp only [State.blockOk, packed_block _ (.inl rfl), h _ (.inl rfl)]; decide +kernel
  · simp only [State.blockOk, packed_block _ (.inr rfl), h _ (.inr rfl)]; decide +kernel
  · simp only [State.imageOk, m, k]; decide +kernel
theorem test_witness_crossings_refused :
    let bad := vecShape + BitVec.ofNat 1024 (4096 * 4503599627370496 * 0 + 65536)
    let runs := fun (r : BitVec 1024) => warmRuns r [0] false ((List.range (rowCount r)).map fun i => planRow r [0] 0 none i)
    let x := shapedWith bad [] id
    let w := ({ podBase with parts := [(0, { podPart with tokens := [(5, { heldToken with hcore := 9 })] })] } : State).modCore fun _ => { podCore with shp := [(3, vecShape)] }
    let q := shapedWith vecShape [] fun y => y.wg 1 8192
    let p := BitVec.ofNat 1024 (packedShape.toNat + 8 * 2 ^ 960)
    x.firstBad (runs bad) ≠ none ∧ shapeSuits bad [0] 0 false = true ∧ w.firstBad (runs vecShape) = none ∧ (runs vecShape).length = 1 ∧
    w.runsAllowed false (runs vecShape) = false ∧ q.core.slot.cquota.toNat < ((q.g 1).extractLsb' 0 19).toNat + rowCount vecShape * rowBytes vecShape false ∧
    (q.g 1).extractLsb' 0 5 = 0 ∧ q.runsAllowed false (runs vecShape) = true ∧ (shpBtab p).toNat % 16 ≠ 0 ∧ shapeSuits p [0, 0] 2 false = true ∧
    ready.pinnedRange (handleOf 2 65000) 1044 ≠ none := by decide +kernel

theorem test_witness_engine_command_held :
    let e := someEntry (.xput 3 7)
    let s := command (.xput 3 7) fun c => { c with heatBud := 0 }
    s.ready .engine = some e ∧ s.testedCharge .engine e = some 16 ∧ s.core.willMismatch = false ∧ e.held = none ∧ e.op.waitsFor = some .matrix ∧
    s.core.idle .matrix = true ∧ s.core.heatBud < s.core.heatAcc + s.core.heatAdm + 16 := by decide +kernel
theorem test_witness_delivery :
    let x := xinOf 0
    x.fetched = none ∧ x.stays = [] ∧ x.mode ≠ 2 ∧ shpZfill x.shape = false ∧ coldBits x.shape false % 8 = 0 ∧ ready.core.armedInj 1 = false ∧
    (∀ p ∈ x.rows, p.invalid = false) ∧ x.rows.length = rowCount x.shape ∧ (x.rows.map (·.admitted)) = [true] ∧
    (colHi x.shape x.coord - colLo x.coord) * coldBits x.shape false / 8 = 32 := by decide +kernel
theorem test_witness_xput_at_the_head :
    let e := someEntry (.xput 3 7)
    let b := command (.xput 3 7) fun c => c.modEngine .matrix fun x => { x with run := true }
    let s := command (.xput 3 7) id
    e.killed = false ∧ b.ready .engine = some e ∧ b.core.willMismatch = false ∧ b.core.idle .matrix = false ∧ s.ready .engine = some e ∧
    s.core.willMismatch = false ∧ s.core.idle .matrix = true ∧ s.core.heatAcc + s.core.heatAdm + 16 ≤ s.core.heatBud := by decide +kernel

/-- A `tload` of `count` matrix steps from region 2 at the head of the engine command queue, `mem` standing in memory. -/
def loadingTable (count : Nat) (mem : List Host.Cell) : State := { command (.tload .matrix h2 0 count false) id with mem := mem }

theorem test_witness_tload_at_the_head :
    (∀ n ∈ [0, 1], let e := someEntry (.tload .matrix h2 0 n false)
      let s := loadingTable n []
      e.killed = false ∧ s.ready .engine = some e ∧ s.core.willMismatch = false ∧ s.core.idle .matrix = true ∧ s.core.inHandler = false ∧
      s.core.heatAcc + s.core.heatAdm + n * 8 ≤ s.core.heatBud ∧ s.bad = [] ∧ s.badDc = [] ∧
      s.locate s.partNo h2 (n * 8) = some (rwRegion, 131072) ∧ s.core.granted .matrix = 4096) ∧
    (let s := loadingTable 1 []
     imageFault .matrix s.core.slot.atiles.toNat ((List.range 1).map fun i => leNat (s.bytes (131072 + 8 * i) 8)) = none) ∧
    (let s := loadingTable 1 [(131079, 0xFF)]
     imageFault .matrix s.core.slot.atiles.toNat ((List.range 1).map fun i => leNat (s.bytes (131072 + 8 * i) 8)) = some 4) := by decide +kernel
theorem test_witness_tload_packages : ∀ k, ((loadingTable 1 []).pkgAt k).failed = false := fun _ => rfl

/-- A send that has arrived, of the span of region 2, whose home entry is `t`; core 1 is `c`. -/
def arrived (x : Send) (t : Token) (c : Core) : State :=
  (tokens [(5, t)] id fun y => { y with sends := [{ x with head := 5, due := some 10 }] }).modCoreAt 1 fun _ => c

theorem test_witness_send_to_a_span :
    let s := arrived aSend (spanToken 1 false) otherCore
    let x : Send := { aSend with head := 5, due := some 10 }
    let n := arrived aSend (spanToken 1 false) {}
    s.core.sends = [x] ∧ x.due = some 10 ∧ 10 ≤ s.warm ∧ s.spanStands x.head = true ∧ x.fn = 0 ∧ s.receiver x.arg = some (1, otherCore.slot0) ∧
    (1 : Nat) ≠ s.cur ∧ x.level = s.core.level ∧ s.core.win = none ∧ n.core.sends = [x] ∧ n.spanStands x.head = true ∧ n.receiver x.arg = none ∧
    (arrived aSend (spanToken 1 false) {}).cur = 0 ∧ ready.spanStands 9 = false := by decide +kernel
theorem test_witness_returned_span :
    let x : Send := { aSend with fn := 2, head := 5, due := some 10 }
    let lent : Token := { spanToken 1 true with lcore := 1, lgroup := 1 }
    let s := fun t c => arrived { aSend with fn := 2 } t c
    (∀ u ∈ [s (spanToken 1 false) otherCore, s lent {}, s lent otherCore, s lent { otherCore with halting := true }],
      u.core.sends = [x] ∧ 10 ≤ u.warm ∧ u.spanStands x.head = true ∧ x.level = u.core.level ∧ u.core.win = none) ∧
    ((s (spanToken 1 false) otherCore).part.token 5).lvalid = false ∧ lent.lvalid = true ∧ (s lent {}).part.token 5 = lent ∧
    coreOfLaunch 0 1 0 1 (s lent {}).cores = none ∧ coreOfLaunch 0 1 0 1 (s lent otherCore).cores = some 1 ∧
    ((s lent otherCore).coreAt 1).halting = false ∧ (1 : Nat) ≠ (s lent otherCore).cur ∧
    coreOfLaunch 0 1 0 1 (s lent { otherCore with halting := true }).cores = some 1 ∧
    ((s lent { otherCore with halting := true }).coreAt 1).halting = true := by decide +kernel
theorem test_witness_shared_span :
    let x : Send := { aSend with fn := 5, head := 5, due := some 10 }
    let s := fun shares => arrived { aSend with fn := 5 } (spanToken 1 false) { otherCore with shares := shares }
    (∀ l ∈ [[], [5], List.replicate 64 7], (s l).core.sends = [x] ∧ 10 ≤ (s l).warm ∧ (s l).spanStands x.head = true ∧
      x.level = (s l).core.level ∧ (s l).core.win = none ∧ (s l).receiver x.arg = some (1, otherCore.slot0) ∧ ((s l).coreAt 1).shares = l ∧
      (1 : Nat) ≠ (s l).cur) ∧
    (5 : Nat) ∈ [5] ∧ 5 ∉ List.replicate 64 7 ∧ 64 ≤ (List.replicate 64 7).length ∧ (5 : Nat) ∉ ([] : List Nat) ∧ ([] : List Nat).length < 64 := by
  decide +kernel

theorem test_witness_bar_masks :
    let s := podCl (waited 4)
    let q := pod fun c => { c with sq := [storeEntry], l := waited 4 c.l }
    let l := pod fun c => { c with lq := [loadEntry], l := waited 4 c.l }
    let a := pod fun c => { c with atoms := [anAtom], l := waited 4 c.l }
    let e := pod fun c => { c.modEngine .matrix fun x => { x with run := true } with l := waited 4 c.l }
    let w := pod fun c => { c with str := { watch := [{ lane := .L, since := 2, tail := h2, no := none }] }, l := waited 4 c.l }
    (∀ u ∈ [s, q, l, a, e, w], barReady u = true ∧ u.cl.wait = .since 4 ∧ 4 + 6 ≤ u.warm ∧ u.core.willMismatch = false) ∧
    (∀ i, i < 4 → (15 : BitVec 4).getLsbD i = true) ∧ s.core.lq = [] ∧ s.core.sq = [] ∧ s.core.eq = [] ∧ s.core.xings = [] ∧ s.core.atoms = [] ∧
    s.core.allIdle = true ∧ s.stringClear = true ∧ s.core.barGot = none ∧ s.core.l1d = [] ∧
    storeEntry ∈ q.core.sq ∧ storeEntry.warm ≤ 4 ∧ storeEntry.level = q.core.level ∧ loadEntry ∈ l.core.lq ∧ loadEntry.warm ≤ 4 ∧
    loadEntry.level = l.core.level ∧ anAtom ∈ a.core.atoms ∧ anAtom.warm ≤ 4 ∧ e.core.allIdle = false ∧ w.stringClear = false := by decide +kernel

/-- Two cores of one launch, of which core 0 stands at the barrier `b` and core 1 is `c`. -/
def twoAt (b : BarWait) (c : Core) : State :=
  (pod fun x => { x with bar := some b, slot0 := { podSlot with ncores := 2 } }).modCoreAt 1 fun _ =>
    { c with run := some 0, slot0 := { podSlot with ncores := 2, coreId := 1 } }

theorem test_witness_barrier_of_two :
    let b : BarWait := { scope := 3, inst := 0, vote := 1, value := 7, mask := 0 }
    let d : BarWait := { b with vote := 2 }
    let all := twoAt b { bar := some b }
    let differ := twoAt b { bar := some d }
    let one := twoAt b {}
    let inside := twoAt b { bar := some b, inHandler := true }
    (∀ s ∈ [all, differ, one, inside], barReady s = true ∧ s.core.bar = some b ∧ s.participants 3 = [(0, 0), (1, 0)] ∧
      ∀ x ∈ s.participants 3, ((s.coreAt x.1).slotAt x.2).state = .running ∧ (s.coreAt x.1).run = some x.2) ∧
    (∀ x ∈ all.participants 3, (all.coreAt x.1).bar = some b ∧ (all.coreAt x.1).inHandler = false) ∧ (differ.coreAt 1).bar = some d ∧
    (differ.coreAt 1).inHandler = false ∧ d.vote ≠ b.vote ∧ d.scope = b.scope ∧ d.inst = b.inst ∧ (one.coreAt 1).bar = none ∧
    (inside.coreAt 1).inHandler = true := by decide +kernel
theorem test_witness_fence_of_the_string :
    let f := fun (no : Option Nat) (w : Wait) => pod fun c =>
      { c with str := { watch := [{ lane := .L, since := 2, tail := h2, no := no }] }, l := { c.l with wait := w } }
    let s := f (some 3) (.since 4)
    let t := f none (.since 4)
    let v := f (some 3) (.fencing 4 15)
    (∀ u ∈ [s, t, v], u.regsReady [] [] = true ∧ u.depsReady 0 = true ∧ u.core.willMismatch = false ∧ u.core.cptailPending 2 = false ∧
      u.core.str.halt = false ∧ u.core.lq = [] ∧ u.core.sq = [] ∧ u.core.eq = []) ∧
    (8 : BitVec 4).getLsbD 3 = true ∧ s.cl.wait = .since 4 ∧ 4 + 6 ≤ s.warm ∧ (s.core.str.watch.map fun x => decide (x.lane = s.lane)) = [true] ∧
    (s.core.str.watch.map (·.no)) = [some 3] ∧ (t.core.str.watch.map (·.no)) = [none] ∧ v.cl.wait = .fencing 4 15 := by decide +kernel

theorem test_witness_a2sum_applies :
    let x : Atom := { anAtom with fn := 3, addr := word (46 * 2 ^ 16 + 288), applyAt := some 160 }
    let s := pod fun c => { c with atoms := [x] }
    let t := podCl fun y => y.wg 1 (word (47 * 2 ^ 16 + 288))
    s.core.atoms = [x] ∧ x.applyAt = some 160 ∧ 160 ≤ s.clock ∧ x.old = none ∧ s.atomTarget x = some s.cur ∧ s.core.badAcc = [] ∧ x.fn = 3 ∧
    t.regsReady [gR 1, gR 2] [gR 3] = true ∧ t.depsReady 0 = true ∧ t.core.sq.length < 32 ∧ t.core.replay = none ∧ t.cl.loops = [] ∧
    ((t.g 1).extractLsb' 40 24 = 0 ∧ (t.g 1).extractLsb' 9 7 = 0 ∧ ((t.g 1).extractLsb' 30 10).toNat < 576 ∧ ((t.g 1).extractLsb' 0 9).toNat < 289) ∧
    ((t.g 1).extractLsb' 16 6).toNat = 47 := by decide +kernel

theorem test_witness_mma_of_integers_and_codebooks :
    let s := coldPod fun m => { m with cbt := [(0, 8)] }
    let y := s.mmaCase 7 0 0 1
    ((5 : BitVec 3) = 5 ∨ (5 : BitVec 3) = 6) ∧ 15 ∈ (s.mmaCase 5 0 0 1).rows ∧ 0 ∈ y.cols ∧ 31 ∈ y.ks ∧
    decodeCb2 0 (Sp.get 0 s.core.cold.cbt 0).toNat = none ∧ decodeCb2 0 0 = some [0, 0, 0, 0, 0, 0, 0, 0] := by decide +kernel
theorem test_witness_mma_checksums :
    let y := ready.mmaCase 0 0 0 1
    let z := (coldPod fun m => { m with mside := [(0, 1)] }).mmaCase 0 0 0 1
    y.rows ≠ [] ∧ y.cols ≠ [] ∧ (y.cols.filter fun j => y.paired false 0 j) ≠ [] ∧ (y.rows.filter fun i => y.paired false i 15) ≠ [] ∧
    (z.cols.filter fun j => z.paired true 0 j) = [] ∧ 0 ∈ z.rows ∧ (z.rows.filter fun i => z.paired true i 15) ≠ [] := by decide +kernel
theorem test_witness_scaled_elements :
    let m := ready.core.cold
    let code := fun (which n : Nat) => leNat ((List.range 8).map fun i =>
       ready.coldByte 0 ((((m.pair 0).scales ((0 + ready.iter .matrix) % 256)).getD which (0, 0)).1 + i)) / 16 ^ n % 16
    m.triple.row.getLsbD 0 = true ∧ m.triple.col.getLsbD 15 = true ∧ code 0 0 < 15 ∧ code 1 15 < 15 ∧ (m.pair 0).brot = 0 := by decide +kernel
theorem test_witness_stored_tiles :
    let s := coldPod fun m => { m with tile := [(3, { rt := 1, ct := 0, chkv := true, int := false })] }
    let from_ := fun size => ((s.core.cold.pair 0).row 0 (s.iter .matrix) 0 + size * 15 + (size - 1)) % 2 ^ 19
    s.core.cold.triple.row.getLsbD 0 = true ∧ s.core.cold.triple.col.getLsbD 15 = true ∧ from_ 2 < s.core.slot.cquota.toNat ∧
    from_ 4 < s.core.slot.cquota.toNat ∧ tagOf (s.core.cold.tileAt 3).rt 0 ≠ tagOf (s.core.cold.tileAt 3).ct 15 := by decide +kernel

/-- A pod whose tile 3 holds these words. -/
def tileThree (ws : List (Nat × Word32)) : State := coldPod fun m => { m with acc := ws.map fun x => (289 * 3 + x.1, x.2) }
/-- The lines of tile 3 whose residue exceeds its tolerance. -/
def flaggedLines (s : State) : List Nat × List Nat :=
  let m := s.core.cold
  let flagged := fun (l : List Word32) => (tolerance (Sp.get 0 m.ms 13) l).less (residue l).abs
  ((List.range 16).filter fun i => flagged (m.rowWords 3 i), (List.range 16).filter fun j => flagged (m.colWords 3 j))
/-- Whether every residue of tile 3 rounds to a finite word. -/
def finiteLines (s : State) : Bool :=
  (List.range 16).all fun i => isFinite32 (round32 0 0 (residue (s.core.cold.rowWords 3 i))) && isFinite32 (round32 0 0 (residue (s.core.cold.colWords 3 i)))

theorem test_witness_check_classes :
    let one : Word32 := 0x3F800000
    (∀ ws ∈ [[], [(0, one)], [(0, one), (18, one)]], ((tileThree ws).core.cold.tileAt 3).chkv = true ∧
      (tileThree ws).core.cold.finiteTile 3 = true ∧ finiteLines (tileThree ws) = true) ∧
    flaggedLines (tileThree []) = ([], []) ∧ flaggedLines (tileThree [(0, one)]) = ([0], [0]) ∧
    flaggedLines (tileThree [(0, one), (18, one)]) = ([0, 1], [0, 1]) := by decide +kernel
theorem test_witness_check_overflows :
    let m := (tileThree [(0, 0x7F7FFFFF), (1, 0x7F7FFFFF)]).core.cold
    (m.tileAt 3).chkv = true ∧ m.finiteTile 3 = true ∧ isFinite32 (round32 0 0 (residue (m.rowWords 3 0))) = false := by decide +kernel
theorem test_witness_clamped_drains :
    let x : Drain := { aDrain with clamp := some 0x3F800000, words := [(0, 0x40000000), (1, 0x3F000000)] }
    let s : State := (pod fun c => { c with drains := [x] }).modCoreAt 1 fun _ => otherCore
    let sum := fun e => add32 0 0 ((s.coreAt 1).cold.accAt x.dst e) (Sp.get 0 x.words e)
    let above := fun e => isNan32 0x3F800000 = false ∧ isNan32 (sum e) = false ∧ (0x3F800000 : Word32).toNat < (sum e &&& 0x7FFFFFFF).toNat
    s.core.drains = [x] ∧ x.at_ ≤ s.scnt ∧ s.takesDrain x = true ∧ (s.coreAt 1).badAcc = [] ∧ x.clamp = some 0x3F800000 ∧
    s.cur / 4 * 4 + (s.cur + 1) % 4 = 1 ∧ above 0 ∧ ¬ above 1 ∧ s.core.oeq.length < 62 ∧ s.core.oeqNow = (0, 0) ∧ s.core.oeqFreed = (0, 0) := by decide +kernel
theorem test_witness_unclamped_sums :
    let x : Drain := { aDrain with clamp := some 0x3F800000 }
    ∀ e, e < 289 → ¬ ((0x3F800000 : Word32).toNat < (add32 0 0 (({ otherCore with drains := [] } : Core).cold.accAt x.dst e) (Sp.get 0 x.words e) &&& 0x7FFFFFFF).toNat) := by
  decide +kernel
theorem test_witness_ordered_lanes :
    let below := fun (u v : Word32) => u.msb = true ∧ v.msb = false ∨ u.msb = v.msb ∧ (if u.msb = true then v.toNat < u.toNat else u.toNat < v.toNat)
    isNan32 0x80000000 = false ∧ isNan32 0 = false ∧ below 0x80000000 0 ∧ ¬ below 0 0x80000000 ∧ below 0xBF800000 0x80000000 ∧ ¬ below 5 5 := by
  decide +kernel
theorem test_witness_special_values : (1 : Nat) ≠ 0 ∧ (127 : Nat) ≤ 127 ∧ (320 : Nat) ≤ 320 ∧ 149 ≤ (149 : Nat) ∧ ¬ (149 : Nat) ≤ 127 := by decide
theorem test_witness_counted_lanes :
    let m := (coldPod fun m => { m with mdepth := 1, mstk := [(0, 2 ^ 63)], v := [(64 * 31 + 63, 0x100)] }).core.cold
    m.top.getLsbD 63 = true ∧ m.top.getLsbD 62 = false ∧ (m.lane 31 63).getLsbD 8 = true ∧
    (∀ j, j < 64 → (m.top.getLsbD j && decide (j ≤ 62)) = false) ∧ (0 : BitVec 1) = 0 ∧ (3 : BitVec 2) ≠ 0 ∧ (3 : BitVec 2) ≠ 1 := by decide +kernel

/-- A landing without an event. -/
def aLanding (op : LandOp) : Landing := { at_ := 160, issued := 156, eng := .matrix, chain := 0, writes := [], op := op }

theorem test_witness_tile_landings :
    let hit := pod fun c => { c with inj := BitVec.ofNat 64 (2 ^ 63 + (47 * 2 ^ 13 + 288) * 2 ^ 32 + 31) }
    let past := pod fun c => { c with inj := BitVec.ofNat 64 (2 ^ 63 + (47 * 2 ^ 13 + 289) * 2 ^ 32) }
    let ws : List (Nat × Word32) := [(0, 7), (288, 8)]
    let rows : List (Nat × Byte) := [(0, 1), (15, 2)]
    (∀ op ∈ [LandOp.acc 47 ws {} true, .accPart 47 ws (some rows), .accPart 47 ws none, .vstacc 47 true ws, .vstacc 47 false []], (aLanding op).event = none) ∧
    (ws.map (·.1)).Nodup ∧ (∀ x ∈ ws, x.1 < 289) ∧ (rows.map (·.1)).Nodup ∧ hit.core.armedInj 0 = true ∧ hit.core.injLoc / 2 ^ 13 = 47 ∧
    hit.core.injLoc % 2 ^ 9 = 288 ∧ hit.core.injBit = 31 ∧ past.core.armedInj 0 = true ∧ past.core.injLoc % 2 ^ 9 = 289 ∧ ready.core.armedInj 0 = false := by
  decide +kernel
theorem test_witness_cold_landings :
    let bytes : List (Nat × Byte) := [(0, 7), (524287, 8)]
    let side : List (Nat × Option (BitVec 8)) := [(0, some 3), (16383, none)]
    let l := aLanding (.cold bytes side)
    let x := { xinOf 0 with due := some 160 }
    let s := pod fun c => { c with xings := [x] }
    l.event = none ∧ (bytes.map (·.1)).Nodup ∧ (∀ y ∈ side, ∀ z ∈ side, z.1 = y.1 → z.2 = y.2) ∧ l.eng ≠ EngineId.temporal ∧ x.kind ≠ 2 ∧
    x.recv.getLsbD (s.cur % 4) = true ∧ x.stamp ≤ s.scnt ∧ s.core.xings = [x] := by decide +kernel
theorem test_witness_other_landings :
    (∀ op ∈ [LandOp.mreg 15 [1] [2], .chk [(0, 5), (7, 6)] 3, .cbt 255 [4], .sel 7 none, .dly [(63, [9])], .twin 254, .mask [] 1, .tmode 1,
      .flag 15 9, .latches], (aLanding op).event = none) ∧
    (∀ n ∈ [0, 15, 16, 31, 32, 35, 36], (aLanding (.param n 7)).event = none) ∧ ([(0, (5 : Word32)), (7, 6)].map (·.1)).Nodup ∧
    ([(63, [(9 : Byte)])].map (·.1)).Nodup ∧ ready.core.owes = {} ∧ Sp.get 0 ready.core.cold.ev 7 ≠ 0xFFFF := by decide +kernel

/-- An entry with TOK: it copies 16 bytes into region 2, whose span it lends to the string. -/
def tokEntry : CopyEntry := { copyEntry with flags := 4 }
/-- The string at such an entry, the home entry of region 2 being `t`. -/
def tokAt (t : Token) (f : Core → Core) : State := { stringAt id with parts := [(0, { podPart with tokens := [(5, t)] })] }.modCore f

theorem test_witness_takes_a_span :
    let s := tokAt heldToken id
    let w := tokAt heldToken fun c => { c with sq := [someEntry (.store h2 8 7)] }
    let e := tokAt { heldToken with mode := .engine } id
    let sh := tokAt { heldToken with shares := 1 } id
    let o := tokAt { heldToken with hcore := 9 } id
    (∀ u ∈ [s, w, e, sh, o], (u.core.str.hset && u.core.str.avail && !u.core.str.halt && !u.fencedString && !u.core.stringStands) = true ∧
      u.core.outstanding < Config.outstanding ∧ u.core.str.cancel = [] ∧ u.core.str.retired = false ∧ u.core.str.taken = [] ∧ tokOf tokEntry = true ∧
      u.locate u.partNo tokEntry.dst 1 = some (rwRegion, 131072)) ∧
    (∀ u ∈ [s, w, e], (u.takeCheck .copy tokEntry).1 = 0) ∧ w.storesStand [h2] = true ∧ s.storesStand [h2] = false ∧ e.storesStand [h2] = false ∧
    s.part.headOf (unitOf rwRegion h2) = (5, heldToken) ∧ s.exclusive heldToken = true ∧ heldToken.shares = 0 ∧ s.sendLeaves false 5 = none ∧
    s.core.l1d = [] ∧ e.engineHolds { heldToken with mode := .engine } = true ∧ s.engineHolds heldToken = false := by decide +kernel
theorem test_witness_takes_no_span :
    let w : CopyEntry := { entry h2 0 5 16 with flags := 4 }
    let sh := tokAt { heldToken with shares := 1 } id
    let o := tokAt { heldToken with hcore := 9 } id
    (∀ u ∈ [sh, o], (u.takeCheck .waitseq w).1 = 0 ∧ tokOf w = true ∧ u.storesStand [h2] = false ∧ u.core.str.taken = []) ∧
    sh.engineHolds { heldToken with shares := 1 } = false ∧ ({ heldToken with shares := 1 } : Token).shares ≠ 0 ∧
    o.engineHolds { heldToken with hcore := 9 } = false ∧ o.exclusive { heldToken with hcore := 9 } = false := by decide +kernel
theorem test_witness_misaligned_entries :
    (entry h2 0 3 8).aux.toNat % 8 ≠ 0 ∧ (entry (h2 + 4) 0 0 8).dst.toNat % 8 ≠ 0 ∧ (entry h2 0 32 8).aux.toNat % 64 ≠ 0 ∧
    ({ copyEntry with arg := 0 } : CopyEntry).arg = 0 ∧ 64 < ({ copyEntry with arg := 65 } : CopyEntry).arg.toNat := by decide +kernel

/-- The pod whose string has taken the entry `i`, as `f` leaves it. -/
def takenEntry (i : Instr) (f : Taken → Taken) (g : Core → Core) : State :=
  (stringAt fun q => { q with avail := false, takes := 1, taken := [f { no := 1, h := h2, cmd := i, warm := 2, due := 5 }] }).modCore g
/-- The one taken entry is due and the string goes on; with these marks. -/
def dueOne (s : State) (killed : Bool) : Bool :=
  match s.core.str.taken with
  | [x] => !x.done && decide (x.due ≤ s.warm) && decide (x.killed = killed) && !s.core.str.halt && decide (x.flip = none) && decide (x.put = []) &&
    decide (s.core.str.carryNo < x.no)
  | _ => false

theorem test_witness_begun_entry :
    let ws : List (Nat × Byte) := [(131072, 7), (131080, 8)]
    let s := takenEntry (.copy copyEntry) (fun x => { x with begun := some (ws, [7, 8]) }) id
    let p := takenEntry (.copy copyEntry) (fun x => { x with begun := some (ws, [7, 8]), put := [16384] }) id
    dueOne s false = true ∧ (s.core.str.taken.map (·.begun)) = [some (ws, [7, 8])] ∧ (p.core.str.taken.map (·.put)) = [[16384]] ∧
    131072 / 8 ∈ [16384] ∧ 131080 / 8 ∉ [16384] ∧ checkOf copyEntry = false ∧ (ws.map (·.1)).Nodup ∧
    ∀ w ∈ ws, (s.pkgAt (keyPkg w.1)).failed = false := by decide +kernel
theorem test_witness_failing_entries :
    let s := takenEntry (.copy copyEntry) id id
    let b : State := { s with bad := [1024] }
    let f := { s with parts := [(0, { podPart with regions := [(1, encodeRegion placeRegion), (2, encodeRegion { rwRegion with pkg := 1 })] })] }.modPkgAt 1
      fun p => { p with failed := true }
    dueOne s false = true ∧ (b.pkgAt 0).memprot = 0 ∧ b.locate b.partNo copyEntry.src 16 = some (placeRegion, 65536) ∧ b.badAt 65536 1 = true ∧
    f.locate f.partNo copyEntry.dst 16 = some ({ rwRegion with pkg := 1 }, 2 ^ 40 + 131072) ∧ (f.pkgAt (keyPkg (2 ^ 40 + 131072))).failed = true ∧
    f.locate f.partNo copyEntry.src 16 = some (placeRegion, 65536) ∧ f.badAt 65536 1 = false ∧ dueOne f false = true := by decide +kernel
theorem test_witness_strided_and_spread_entries :
    let s := takenEntry (.copys copyEntry) (fun x => { x with dims := [(2, 1, 1), (2, 8, 4)] }) id
    let src := sourceBytes .copys copyEntry [(2, 1, 1), (2, 8, 4)]
    let dst := destBytes .copys copyEntry [(2, 1, 1), (2, 8, 4)] []
    let spread := destBytes .bcast { copyEntry with len := 2 } [] [h2, h2 + 64]
    let key := s.warmKey s.partNo
    dueOne s false = true ∧ src.length = 4 ∧ (∀ a ∈ src, s.badAt (key a) 1 = false ∧ key a < areaBase) ∧
    (∀ a ∈ dst ++ spread, a ∉ src ∧ (s.pkgAt (keyPkg (key a))).failed = false ∧ key a < areaBase) ∧ (dst.map key).Nodup ∧ (spread.map key).Nodup ∧
    spread.length = 4 ∧ checkOf copyEntry = false := by decide +kernel
theorem test_witness_entries_that_only_complete :
    let m : MirrorWait := { issued := 4, warm := 5, pkg := 1, entry := some 0 }
    let w := fun c => { c with mirror := [m] }
    let old := fun c => { c with mirror := [{ m with entry := some 1 }] }
    dueOne (takenEntry (.copy copyEntry) (fun x => { x with killed := true }) id) true = true ∧ entryOf (.copy copyEntry) ≠ none ∧
    dueOne (takenEntry (.link copyEntry) id id) false = true ∧ dueOne (takenEntry (.mirwait copyEntry) id w) false = true ∧
    dueOne (takenEntry (.mirwait copyEntry) id old) false = true ∧ (takenEntry (.mirwait copyEntry) id w).core.mirror = [m] ∧
    (takenEntry (.mirwait copyEntry) id old).core.mirror = [{ m with entry := some 1 }] := by decide +kernel
theorem test_witness_waitseq_entries :
    let e : CopyEntry := { copyEntry with arg := peerAddr, aux := 3 }
    let s := fun n => (takenEntry (.waitseq e) id id).modCoreAt 1 fun _ => { otherCore with str := { seq := n } }
    let b := takenEntry (.waitseq { e with arg := 1 }) id id
    let g := takenEntry (.waitseq e) id id
    (∀ u ∈ [s 2, s 3, b, g], dueOne u false = true) ∧ ({ e with arg := 1 } : CopyEntry).arg.extractLsb' 0 22 ≠ 0 ∧ g.peer e.arg = none ∧
    e.arg.extractLsb' 0 22 = 0 ∧ (s 2).peer e.arg = some (1, 0) ∧ ((s 2).pkgAt 0).failed = false ∧ (s 3).peer e.arg = some (1, 0) ∧
    (s 2).seqOf 1 0 = 2 ∧ (s 3).seqOf 1 0 = 3 ∧ e.aux.toNat = 3 := by decide +kernel
theorem test_witness_tokret_entries :
    let e : CopyEntry := { copyEntry with aux := 5 }
    let s := fun t => { takenEntry (.tokret e) id id with parts := [(0, { podPart with tokens := [(5, t)] })] }
    (∀ t ∈ [heldToken, { heldToken with mode := .engine }, { heldToken with isHead := false }], dueOne (s t) false = true ∧
      (s t).part.token e.aux.toNat = t) ∧
    (s heldToken).engineHolds heldToken = false ∧ (s { heldToken with mode := .engine }).engineHolds { heldToken with mode := .engine } = true := by
  decide +kernel

theorem test_witness_overdue_mirrors :
    let late : MirrorWait := { issued := 1, warm := 5, pkg := 1 }
    let s := { pod fun c => { c with mirror := [late] } with clock := 48080 }
    let t := { takenEntry (.mirwait copyEntry) id fun c => { c with mirror := [{ late with entry := some 0 }] } with clock := 48080 }
    s.core.mirror = [late] ∧ late.warm + 3000 ≤ s.warm ∧ late.entry = none ∧ t.core.mirror = [{ late with entry := some 0 }] ∧
    late.warm + 3000 ≤ t.warm ∧ (t.core.str.taken.map fun x => (x.no, x.done, x.cmd)) = [(1, false, .mirwait copyEntry)] := by decide +kernel
theorem test_witness_overdue_requests :
    let s := { pod fun c => { c with preempt := some 4 } with clock := 3200064 }
    let h := pod fun c => { c with halting := true }
    s.core.preempt = some 4 ∧ s.core.stopping = true ∧ s.core.drained = false ∧ s.core.atStop = false ∧ (s.core.cluster .L).stopped = false ∧
    s.core.halting = false ∧ 4 + s.core.stallim.toNat ≤ s.warm ∧ h.core.halting = true := by decide +kernel


/-- Two cores of a gang, the second drained or not. -/
def gangOf (drained : Bool) : State :=
  let l : Launch := { id := 1, queue := 0, pkg := 0, record := recordWith [(0x1F, 1)], args := 7, payload := 0, grants := [(5, 0)], state := .bound }
  (({ podBase with parts := [(0, { podPart with launches := [l] })] } : State).modCore fun _ => { podCore with drained := true }).modCoreAt 1
    fun _ => { otherCore with drained := drained }

theorem test_witness_gangs :
    let s := gangOf false
    s.core.run ≠ none ∧ s.isGang s.core.slot = true ∧ (s.slotsOf 0 1).map (fun x => (x.1, x.2.1)) = [(0, 0), (1, 0)] ∧ (s.coreAt 1).run = some 0 ∧
    (s.coreAt 1).drained = false := by decide +kernel
theorem test_witness_saved_budgets :
    let s := pod fun c => { c with drained := true, heatNext := some 7 }
    s.core.heatNext = some 7 ∧ s.core.heatBud < 2 ^ 64 ∧ s.windowOf s.cur < 1 ∧ s.core.run = some 0 ∧ s.core.drained = true ∧
    s.isGang s.core.slot = false ∧ (s.core.slotAt 0).badCrc = none := by decide +kernel

theorem test_witness_budgets :
    let s := ready.modPkgAt 0 fun p => { p with lift := 24000, enable := 15 }
    let room := fun (t : State) => 12288000000 * (t.pkgAt 0).lift / 24000 -
      ((t.pkgAt 0).excess + (t.pkgAt 0).posted + 4096 * (t.pkgAt 0).coreCount - 12288000000 * (t.pkgAt 0).lift / 24000) - 4096 * ((t.pkgAt 0).coreCount - 1)
    s.cur / 256 = 0 ∧ (s.cores.map fun x => x.2.heatNext.getD x.2.heatSet).sum ≤ room s ∧ (s.coreAt 0).run ≠ none ∧ (s.coreAt 9).run = none ∧
    room ready = 0 := by decide +kernel

/-- A second queue of the package, its header at 2048 of region 2 and its ring at 3072, with a record of PRIO 2. -/
def rivalled : State :=
  let ring := sealed 24 [(0, 4), (8, (h2 + 3072).toNat), (16, (h2 + 1024).toNat)]
  let second := leBytes 8 1 ++ leBytes 8 0 ++ leBytes 44 (ring % 2 ^ 192) ++ leBytes 4 (crc32 (leBytes 24 (ring % 2 ^ 192))).toNat
  launching (cellsAt 131072 (header 1 0) ++ cellsAt 131328 (leBytes 128 plainRecord.toNat) ++ cellsAt 133120 second ++
    cellsAt 134144 (leBytes 128 (recordWith [(0x1E, 2)]).toNat)) (fun p => { p with queues := [(0, aQueue), (1, { aQueue with h := h2 + 2048 })] }) id

theorem test_witness_rival_queues :
    let s := rivalled
    (s.partAt 0).queue? 0 = some aQueue ∧ s.headerOk 0 h2 = true ∧ s.nextRecord 0 aQueue 0 = some (plainRecord, 0) ∧
    s.headerOk 0 (h2 + 2048) = true ∧ s.nextRecord 0 { aQueue with h := h2 + 2048 } 1 = some (recordWith [(0x1E, 2)], 0) ∧
    recField plainRecord 0x1E 1 % 16 < recField (recordWith [(0x1E, 2)]) 0x1E 1 % 16 ∧
    (queued 1 0 plainRecord).queueFirst 0 ((queued 1 0 plainRecord).partAt 0).queues (0, aQueue) = true := by decide +kernel
theorem test_witness_later_reject_codes :
    let s := launching [] id id
    let k := launching [] (fun p => { p with kernels := [{ aKernel with minCores := 2 }] }) id
    let n := launching [] (fun p => { p with nodes := [{ pkg := 0, graph := 5, node := 6, record := 0 }] }) id
    let p := launching [] (fun p => { p with prioCeil := 3 }) id
    let c := launching [] (fun p => { p with cores := [(0, 0)] }) id
    s.rejectCode 0 0 (recordWith [(0x20, 4097)]) = 5 ∧ s.rejectCode 0 0 (recordWith [(0x1D, 2)]) = 6 ∧ k.rejectCode 0 0 plainRecord = 7 ∧
    s.rejectCode 0 0 (recordWith [(0x1F, 4)]) = 8 ∧ n.rejectCode 0 0 (recordWith [(0x2E, 1), (0x3C, 5), (0x40, 6)]) = 9 ∧
    p.rejectCode 0 0 (recordWith [(0x1E, 4)]) = 10 ∧ c.rejectCode 0 0 plainRecord = 11 ∧ s.grantsOk 0 plainRecord = some [] ∧
    recField plainRecord 0x64 8 = 0 := by decide +kernel
theorem test_witness_grants :
    let s := launching [] id id
    recField plainRecord 0x1F 1 ≤ 1 ∧ 2 ≤ recField (recordWith [(0x1F, 2)]) 0x1F 1 ∧ (s.grant 0 0 plainRecord fun _ => true).1 = [0] ∧
    ([0, 4, 64] : List Nat).length ≤ 256 ∧ ([0, 4, 64] : List Nat)[2]? = some 64 := by decide +kernel

theorem test_witness_cores_that_do_not_admit :
    let s := pod fun _ => { boundCore with slot1 := { podSlot with state := .saved } }
    let c := pod fun _ => { boundCore with clearAt := 161 }
    let t := podBase.modDieAt 0 fun d => { d with rotating := [0] }
    (s.core.slotAt (0 + 1)).state = .saved ∧ (s.core.slotAt (0 + 1)).copy = false ∧ (s.core.slotAt 0).prio ≤ (s.core.slotAt (0 + 1)).prio ∧
    c.clock < c.core.clearAt ∧ (c.core.slotAt 0).state = .bound ∧ ready.core.run ≠ none ∧ (t.dieAt 0).rotating = [0] := by decide +kernel
theorem test_witness_gangs_wait :
    let g : Launch := { aLaunch with record := recordWith [(0x1F, 1)], state := .bound }
    let s := (withLaunch g boundCore).modCoreAt 1 fun _ => { otherCore with run := none, slot0 := { podSlot with coreId := 1, state := .saved } }
    let n : Launch := { aLaunch with record := recordWith [(0x1F, 4), (0x3C, 5), (0x40, 6)], state := .bound }
    let t := ({ podBase with parts := [(0, { podPart with launches := [n], nodes := [{ pkg := 0, graph := 5, node := 6, record := 0 }, { pkg := 1, graph := 5, node := 6, record := 0 }] })] } : State).modCore fun _ => boundCore
    s.launchOf (s.core.slotAt 0) = some g ∧ s.gangSaved (s.core.slotAt 0) = true ∧ t.launchOf (t.core.slotAt 0) = some n ∧ t.nodeBound 0 n = false := by
  decide +kernel

theorem test_witness_arm_writes :
    let s := (listening (armWith 0)).modPkgAt 0 fun p => { p with boot := { p.boot with released := true } }
    (s.pkgAt 0).boot.released = true ∧ ((listening (armWith 0)).pkgAt 0).boot.released = false ∧ armValid (armWith 0) = true ∧
    ((s.pkgAt 0).armsFor (armField (armWith 0) 0 2)).any (fun x => !decide (x.1 = 3)) = false ∧
    ((s.pkgAt 0).armsFor (armField (armWith 0) 0 2)).any (fun x => !decide (x.1 = 4)) = true := by decide +kernel
theorem test_witness_new_regions :
    let s := podBase.modPkgAt 0 fun p => { p with boot := { p.boot with released := true } }
    let w := encodeRegion { rwRegion with base := 262144, token := 9 } &&& regionFields
    let r := encodeRegion { placeRegion with base := 262144, token := 9 } &&& regionFields
    s.managed = true ∧ podBase.managed = false ∧ s.anyBound 0 = false ∧ (s.partAt 0).shoots = [] ∧ s.shotDown 0 7 = true ∧ s.regionOf 0 7 = none ∧
    decodeRegion w = some { rwRegion with base := 262144, token := 9 } ∧ decodeRegion r = some { placeRegion with base := 262144, token := 9 } ∧
    rwRegion.rw = true ∧ placeRegion.rw = false ∧ 0 < rwRegion.size / 65536 ∧ s.imageLoads 0 (anImage 0) = true ∧
    s.locate 0 h2 1 = some (rwRegion, 131072) ∧ s.keyInUse 0 3 = false := by decide +kernel
theorem test_witness_cold_errors :
    let e : MemError := { anError 2 true with phys := 0 }
    let s := fun m => (ready.modPkgAt 0 fun p => { p with memprot := m }).modCore fun c => c.modCold fun y => { y with writers := [(2, 1)] }
    e.uncorrectable = true ∧ e.source = 2 ∧ ((s 0).pkgAt 0).ownerMode 2 = false ∧ ((s 16).pkgAt 0).ownerMode 2 = true ∧ (s 16).ownerOf 0 e = 1 ∧
    (((s 16).coreAt ((1 - 1) / 2)).slotAt (BitVec.ofNat 1 ((1 - 1) % 2))).live = true ∧
    (((s 16).coreAt ((1 - 1) / 2)).slotAt (BitVec.ofNat 1 ((1 - 1) % 2))).badCrc = none := by decide +kernel
theorem test_witness_ports :
    let one := podBase.modPkgAt 0 fun p => { p with links := 4 }
    let two := podBase.modPkgAt 0 fun p => { p with links := 12 }
    (podBase.pkgAt 0).links = 0 ∧ (one.pkgAt 0).links ≠ 0 ∧ (∀ j, j < 72 → j ≠ 2 → (one.pkgAt 0).links.getLsbD j = true → (one.pkgAt 0).portsDown.getLsbD j = true) ∧
    (two.pkgAt 0).links.getLsbD 3 = true ∧ (two.pkgAt 0).portsDown.getLsbD 3 = false := by decide +kernel
theorem test_witness_listed_spans :
    let q : Part := { podPart with launches := [aLaunch], tokens := [(5, { heldToken with mode := .parked })] }
    let s : State := { ready with parts := [(0, q)] }
    ((s.partAt 0).headOf 5).2.isHead = true ∧ ((s.partAt 0).headOf 5).2.mode = .parked ∧ 5 ∈ (s.partAt 0).listed ∧ 5 ∉ (podBase.partAt 0).listed := by
  decide +kernel

theorem test_witness_boot_tables :
    let v : BitVec 512 := encodeRegion { rwRegion with base := 262144, token := 9 } &&& regionFields
    let i : BootInputs := { someInputs true with tables := { keys := [(3, 7)], regions := [(0, 7, v)], arms := [(2, 0, 0, armWith 0)], classify := [(5, classEntry)] } }
    let q := bootPkg i 160
    q.boot.step = 4 ∧ i.stageMilliK < 4400 ∧ 1000 ≤ i.liftMilliW ∧ q.links &&& i.portsUp ≠ 0 ∧ (i.tables.keys.map (·.1)).Nodup ∧
    (i.tables.arms.map (·.1)).Nodup ∧ (i.tables.classify.map (·.1)).Nodup ∧ (i.tables.regions.map fun x => (x.1, x.2.1)).Nodup ∧
    decodeRegion (v &&& regionFields) = some { rwRegion with base := 262144, token := 9 } ∧ rwRegion.pkg = 0 ∧
    (bootPkg { i with portsUp := 2 } 160).links &&& 2 = 0 ∧ (bootPkg { i with portsUp := 2 } 160).boot.step = 4 := by decide +kernel
theorem test_witness_stage_of_saved_contexts :
    let s := pod fun _ => savedCore
    let t := s.modPkgAt 0 fun p => { p with ceilZero := true }
    let b := podBase.modPkgAt 0 fun p => { p with boot := { p.boot with step := 4 }, links := 5 }
    let d := { (pod fun c => { c with drained := true }).modPkgAt 0 fun p => { p with hot := true, hotAt := 5 } with clock := 32000005 }
    ((s.coreAt 0).slotAt 0).state = .saved ∧ ((s.coreAt 0).slotAt 0).copy = false ∧ (s.pkgAt 0).ceilZero = false ∧ (t.pkgAt 0).ceilZero = true ∧
    ((t.coreAt 0).slotAt 0).state = .saved ∧ (b.pkgAt 0).boot.step = 4 ∧ (b.pkgAt 0).boot.code = 0 ∧ d.cores = [(0, { podCore with drained := true })] ∧
    (d.pkgAt 0).hot = true ∧ (d.pkgAt 0).hotAt + 32000000 ≤ d.clock ∧ (b.pkgAt 0).boot.released = false := by decide +kernel

/-! ## Witnesses: encoding and the step -/

theorem test_witness_encoding :
    (Instr.xin 1 1 7 8 9 3 0).wf = true ∧ encode (.xin 1 1 7 8 9 3 0) = some 0xD027424C ∧ (Instr.xin 1 1 7 8 9 3 0).kind ≠ .event ∧
    (Instr.xin 1 1 7 8 9 3 0).kind ≠ .entry ∧ (Command.copy.instr { copyEntry with arg := 0 }).wf = true := by decide +kernel

/-- Reset with a control word placed where the next step takes it. -/
def first (w : Nat) : State := State.reset.withFetchWord 32 w

theorem test_witness_undefined :
    let s := first 0x80FFFFFF
    let t := first 0xD027424C
    let b : BitVec 128 := 0x80FFFFFF
    let c : BitVec 128 := 0xD027424C
    s.fetch s.cl.pc = .bundle b ∧ decodeControl (s.laneBits b) = .error .illegalMajor ∧ t.fetch t.cl.pc = .bundle c ∧
    decodeControl (t.laneBits c) = .ok (.xin 1 1 7 8 9 3 0) ∧ ready.fetch 0 = .outside := by decide +kernel
def completes (o : Host.Outcome State Fault Refusal) : Bool :=
  match o with
  | .next _ => true
  | _ => false

theorem test_witness_step_issues :
    let s := first 0xD027424C
    let m := s.modCore fun c => { c with l1i := [] }
    let i := Instr.xin 1 1 7 8 9 3 0
    let a : Action := { core := 0, what := .issue .L false }
    (s.agenda = [a] ∧ State.yields { s with agenda := [] } a = false ∧ s.cur = 0 ∧ s.lane = .L ∧ s.core.issues = true ∧ s.core.halting = false ∧
      s.cl.split = true ∧ s.cl.readyAt ≤ s.warm ∧ s.fetch s.cl.pc = .bundle 0xD027424C ∧ decodeControl (s.laneBits 0xD027424C) = .ok i ∧
      s.core.stopWord .L i = false ∧ s.core.substAt = none ∧ m.core.issues = true ∧ m.fetch m.cl.pc = .miss 65536 ∧
      State.yields { m with agenda := [] } a = false) ∧ ∀ ls, i.lanes = some ls → ls.contains .L = true :=
  ⟨by decide +kernel, fun ls h => by cases h; rfl⟩
/-- A joined bundle of four `nop`. -/
def joined : State :=
  { (first 0xAE000000).modCore fun c => { c.modClusters fun _ x => { x with split := false, pc := handleOf 1 0 } with
      l1i := c.l1i.map fun x => (x.1, 0xAE000000AE000000AE000000AE000000) } with agenda := [{ core := 0, what := .issue .L true }] }
theorem test_witness_step_issues_a_group :
    let s := joined
    let b : BitVec 128 := 0xAE000000AE000000AE000000AE000000
    let is : List (Lane × Instr) := [(.L, .nop 1), (.E, .nop 1), (.S, .nop 1), (.K, .nop 1)]
    State.yields { s with agenda := [] } { core := 0, what := .issue .L true } = false ∧ s.core.issues = true ∧ s.core.halting = false ∧
    s.core.group = [.L, .E, .S, .K] ∧ (∀ k ∈ s.core.group, (s.core.cluster k).readyAt ≤ s.warm ∧ (s.core.cluster k).done = false) ∧
    s.fetch (s.core.cluster .L).pc = .bundle b ∧ (match s.decodeGroup b s.core.group with | .ok x => decide (x = is) | _ => false) = true ∧
    (∀ x ∈ is, s.core.stopWord x.1 x.2 = false) ∧ twoLoops is = false ∧
    (match judge s is with | .ok vs => vs.all fun x => decide (x.2.2 = .done) | _ => false) = true := by decide +kernel
/-- An undefined word in a cycle in which an engine meets a bad order (R386). -/
theorem test_witness_step_yields :
    let s := (first 0x80FFFFFF).modCore fun c => { c.modEngine .vector fun x => { x with run := true } with badOrd := [4096] }
    State.yields { s with agenda := [{ core := 0, what := .order .vector }] } { core := 0, what := .issue .L false } = true := by decide +kernel
theorem test_witness_step_orders :
    let s := first 0x0AC00001
    let t := first 0x00000000
    let m := State.reset.withFetchWord 32 0x81800000
    let f := s.modCore fun c => c.modEngine .vector fun x => { x with fill := 2 }
    s.agenda = [{ core := 0, what := .order .vector }] ∧ (s.dieAt 0).stalled = false ∧ (s.core.engine .vector).run = true ∧ s.core.held = false ∧
    State.yields { s with agenda := [] } { core := 0, what := .order .vector } = false ∧ (s.core.engine .vector).last ≠ s.clock + 1 ∧
    (s.core.engine .vector).fill = 0 ∧ (s.core.engine .vector).skip = 0 ∧ s.orderFault .vector = none ∧
    s.core.cold.ordersAt .vector 0 = [.mskz 0 1] ∧ completes (exec (.mskz 0 1) s) = true ∧ t.core.cold.ordersAt .vector 0 = [.vnop 0] ∧
    m.agenda = [{ core := 0, what := .order .matrix }] ∧ m.orderFault .matrix = none ∧ (m.core.cold.ordersAt .matrix 0).length = 2 ∧
    (f.core.engine .vector).fill ≠ 0 := by decide +kernel
theorem test_witness_step_takes_and_events :
    let s := State.reset.withFetchWord 512 (leNat (leBytes 64 (sealed 60 [(0, 3), (4, 9), (0x10, h2.toNat)])))
    let e : State := { ready with agenda := [{ core := 0, what := .event .tlbWalkReturn }] }
    let v := s.modDieAt (0 / 64) fun d => { d with turns := Sp.set 0 d.turns (0 / 4) ((0 + 1) % 4) }
    s.agenda = [{ core := 0, what := .take }] ∧ s.turnOf (0 / 4) = some 0 ∧ v.takes = true ∧ v.nextWalk.1 = none ∧ ready.turnOf (0 / 4) = none ∧
    v.readEntry = .ok (.fill { flags := 0, len := 9, src := 0, dst := h2, aux := 0, seed := 0, expect := 0, arg := 0 }) ∧
    e.agenda = [{ core := 0, what := .event .tlbWalkReturn }] ∧ scheduled .tlbWalkReturn = false ∧ State.reset.agenda = [] ∧
    (State.reset.clock + 1) % 16 ≠ 0 ∧ (({ State.reset with clock := 15 } : State).clock + 1) % 16 = 0 ∧ State.reset.cores = [] ∧
    State.reset.parts = [] ∧ completes (step State.reset) = true := by decide +kernel
theorem test_witness_invariant : ({ State.reset with mem := [(7, 9)] } : State).Inv ∧ completes (step { State.reset with mem := [(7, 9)] }) = true :=
  ⟨by unfold State.Inv; decide +kernel, by decide +kernel⟩

/-! ## Well-formedness: each check refuses an ill-formed term -/

theorem test_refuses_control_fields :
    (Instr.pcmp 1 0 1 2 6).wf = false ∧ (Instr.pcmpi 1 6 0 1 0).wf = false ∧ (Instr.loop 1 0 1 0).wf = false ∧ (Instr.cset 1 7 0).wf = false ∧
    (Instr.cget 1 0 7).wf = false ∧ (Instr.cadd 1 7 0 0).wf = false ∧ (Instr.cadd 1 0 7 0).wf = false ∧ (Instr.caddi 1 7 0 0).wf = false ∧
    (Instr.caddi 1 0 7 0).wf = false ∧ (Instr.ld 1 0 0 7 0).wf = false ∧ (Instr.st 1 0 0 7 0).wf = false := by decide +kernel
theorem test_refuses_crossing_fields :
    (Instr.xin 1 0 0 0 0 0 3).wf = false ∧ (Instr.xinm 1 0 0 0 0 0 3).wf = false ∧ (Instr.xput 1 0 0 0x25).wf = false ∧
    (Instr.xget 1 0 0 0x18).wf = false ∧ (Instr.xwait 1 0 0 5).wf = false ∧ (Instr.tstart 1 0 0 3).wf = false ∧ (Instr.tstartEv 1 0 0 3).wf = false ∧
    (Instr.tstop 1 0 3).wf = false ∧ (Instr.tbase 1 0 0 3).wf = false ∧ (Instr.tsync 1 0 3).wf = false ∧ (Instr.tload 1 0 0 0 3).wf = false ∧
    (Instr.bar 1 0 0 0 0 0 5).wf = false ∧ (Instr.bar 1 0 0 0 0 3 0).wf = false ∧ (Instr.fence 1 0 0).wf = false := by decide +kernel
theorem test_refuses_matrix_fields :
    (Instr.mma 0 0 1 0 0 0 0 0 0).wf = false ∧ (Instr.mma 0 5 0 0 1 0 0 0 0).wf = false ∧ (Instr.mma 0 6 0 0 1 0 0 0 0).wf = false ∧
    (Instr.mma 0 7 0 1 0 0 0 0 0).wf = false ∧ (Instr.mma 0 0 0 0 0 0 14 0 0).wf = false ∧ (Instr.mma 0 0 0 0 0 0 0 14 0).wf = false ∧
    (Instr.mldm 0 0 6 0).wf = false ∧ (Instr.mscale 0 1 2 6 0).wf = false ∧ (Instr.mscale 0 1 1 0 0).wf = false ∧ (Instr.mstore 0 0 6 0 0 0).wf = false ∧
    (Instr.mlda 0 0 6 0 0).wf = false ∧ (Instr.ma2s 0 1 1 2).wf = false ∧ (Instr.ma2s 0 1 2 1).wf = false ∧ (Instr.ma2s 0 1 2 2).wf = false ∧
    (Instr.mloop 0 0 0 1).wf = false ∧ (Instr.mloop 0 0 1 0).wf = false ∧ (Instr.mwaits 0 0).wf = false ∧ (Instr.mcbt 0 6 0 0).wf = false ∧
    (Instr.mcbt 0 0 255 1).wf = false := by decide +kernel
theorem test_refuses_vector_fields :
    (Instr.vadd 0 0 0 0 5).wf = false ∧ (Instr.vsub 0 0 0 0 5).wf = false ∧ (Instr.vmul 0 0 0 0 5).wf = false ∧ (Instr.vfma 0 0 0 0 5).wf = false ∧
    (Instr.vcmp 0 0 0 0 7).wf = false ∧ (Instr.vcmp 0 0 0 1 6).wf = false ∧ (Instr.vcvt 0 0 0 11 0 0 0).wf = false ∧
    (Instr.vcvt 0 0 0 8 0 0 0).wf = false ∧ (Instr.vcvt 0 0 0 0 0 0 11).wf = false ∧ (Instr.vcvt 0 0 0 0 0 0 8).wf = false ∧
    (Instr.vcvt 0 0 0 3 1 0 0).wf = false ∧ (Instr.vcvt 0 0 0 0 0 5 0).wf = false ∧ (Instr.vred 0 0 0 0 0 3).wf = false ∧
    (Instr.vscan 0 0 0 0 0 3).wf = false ∧ (Instr.vldacc 0 0 5 0).wf = false ∧ (Instr.vstacc 0 5 0 0 0).wf = false ∧ (Instr.vparam 0 0 0x34).wf = false ∧
    (Instr.mskz 0 0).wf = false ∧ (Instr.vloop 0 0 0 1).wf = false ∧ (Instr.vloop 0 0 1 0).wf = false ∧ (Instr.vwaits 0 0).wf = false := by decide +kernel
theorem test_refuses_temporal_fields :
    (Instr.tdload 0 60 4 0).wf = false ∧ (Instr.twset 0 0).wf = false ∧ (Instr.twset 0 255).wf = false ∧ (Instr.trelax 0 0).wf = false := by decide +kernel
theorem test_refuses_entry_fields :
    let e : CopyEntry := { flags := 0, len := 0, src := 0, dst := 0, aux := 0, seed := 0, expect := 0, arg := 0 }
    entryOk .copy e = true ∧ entryOk .copy { e with flags := 16 } = false ∧ entryOk .fill { e with flags := 1 } = false ∧
    entryOk .copy { e with flags := 1, seed := 1 } = false ∧ entryOk .copy { e with expect := 1 } = false ∧ entryOk .signal { e with len := 1 } = false ∧
    entryOk .fill { e with src := 1 } = false ∧ entryOk .cksum { e with dst := 1 } = false ∧ entryOk .copy { e with aux := 1 } = false ∧
    entryOk .copys e = false ∧ entryOk .copys { e with arg := 15 } = false ∧ entryOk .mirwait { e with arg := 1 } = false := by decide +kernel

/-! ## Decoding: the example words of R79, R159, R188 to R190, R249, R271, R282, and a word of every row, its fixed bits and fields
from the opcode table -/

theorem test_words_examples :
    decodeControl 0x86517FFD = .ok (.addi 1 5 2 0x7FFD) ∧ decodeControl 0xC040A010 = .ok (.ld 1 4 1 2 16) ∧
    decodeControl 0x213FFFFC = .ok (.br 0 2 0 0x3FFFFC) ∧ decodeControl 0xD2074249 = .ok (.xinm 1 0 7 8 9 2 1) ∧
    decodeControl 0xD4006350 = .ok (.xout 1 0 0 12 13 4 0) ∧ decodeControl 0xD600280C = .ok (.xput 1 0 5 12) ∧
    decodeControl 0xD6003024 = .ok (.xput 1 0 6 0x24) ∧ decodeControl 0xD8090010 = .ok (.xget 1 0 9 16) ∧
    decodeControl 0xDA040000 = .ok (.xwait 1 0 4 0) ∧ decodeControl 0xDC043800 = .ok (.xcancel 1 0 4 7) := by decide +kernel
theorem test_words_more_examples :
    decodeControl 0xDE0060C0 = .ok (.shpld 1 0 12 3) ∧ decodeControl 0xDE0600E2 = .ok (.shpget 1 0 6 3 2) ∧
    decodeControl 0xDE0028F1 = .ok (.shpset 1 0 5 3 1) ∧ decodeControl 0xF0082980 = .ok (.ownLend 1 0 8 5 6) ∧
    decodeControl 0xF0082802 = .ok (.ownRet 1 0 8 5) ∧ decodeControl 0xF0082807 = .ok (.ownWait 1 0 8 5) ∧
    decodeControl 0xF2000101 = .ok (.bar 1 0 0 0 4 0 1) ∧ decodeControl 0xF2062889 = .ok (.bar 1 0 6 5 2 1 1) ∧
    decodeV 0x0240110A = .ok (.vcmp 0 1 2 1 2) ∧ decodeV 0x08022000 = .ok (.vld 0 1 2 0) ∧ decodeV 0x0AC00002 = .ok (.mskz 0 2) ∧
    decodeV 0x088E4006 = .ok (.vldacc 0 7 4 3) ∧ decodeV 0x028C5240 = .ok (.vcvt 0 6 5 2 0 4 0) ∧ decodeV 0x0C202003 = .ok (.vloop 0 1 16 3) := by
  decide +kernel
theorem test_words_control_add :
    decodeControl 0x82554C00 = .ok (.add 1 5 10 19) ∧ decodeControl 0x82554C01 = .ok (.sub 1 5 10 19) ∧
    decodeControl 0x82554C02 = .ok (.and 1 5 10 19) ∧ decodeControl 0x82554C03 = .ok (.or 1 5 10 19) ∧
    decodeControl 0x82554C04 = .ok (.xor 1 5 10 19) ∧ decodeControl 0x82554C05 = .ok (.andn 1 5 10 19) ∧
    decodeControl 0x82554C06 = .ok (.orn 1 5 10 19) ∧ decodeControl 0x82554C07 = .ok (.sll 1 5 10 19) := by decide +kernel
theorem test_words_control_srl :
    decodeControl 0x82554C08 = .ok (.srl 1 5 10 19) ∧ decodeControl 0x82554C09 = .ok (.sra 1 5 10 19) ∧
    decodeControl 0x82554C0A = .ok (.mul 1 5 10 19) ∧ decodeControl 0x82554C0B = .ok (.mulh 1 5 10 19) ∧
    decodeControl 0x82554C0C = .ok (.mulhu 1 5 10 19) ∧ decodeControl 0x82554C0D = .ok (.div 1 5 10 19) ∧
    decodeControl 0x82554C0E = .ok (.divu 1 5 10 19) ∧ decodeControl 0x82554C0F = .ok (.rem 1 5 10 19) := by decide +kernel
theorem test_words_control_remu :
    decodeControl 0x82554C10 = .ok (.remu 1 5 10 19) ∧ decodeControl 0x82554C11 = .ok (.min 1 5 10 19) ∧
    decodeControl 0x82554C12 = .ok (.max 1 5 10 19) ∧ decodeControl 0x82554C13 = .ok (.minu 1 5 10 19) ∧
    decodeControl 0x82554C14 = .ok (.maxu 1 5 10 19) ∧ decodeControl 0x82554C15 = .ok (.slt 1 5 10 19) ∧
    decodeControl 0x82554C16 = .ok (.sltu 1 5 10 19) ∧ decodeControl 0x82550017 = .ok (.clz 1 5 10) := by decide +kernel
theorem test_words_control_ctz :
    decodeControl 0x82550018 = .ok (.ctz 1 5 10) ∧ decodeControl 0x82550019 = .ok (.popc 1 5 10) ∧
    decodeControl 0x84554C00 = .ok (.addw 1 5 10 19) ∧ decodeControl 0x84554C01 = .ok (.subw 1 5 10 19) ∧
    decodeControl 0x84554C02 = .ok (.sllw 1 5 10 19) ∧ decodeControl 0x84554C03 = .ok (.srlw 1 5 10 19) ∧
    decodeControl 0x84554C04 = .ok (.sraw 1 5 10 19) ∧ decodeControl 0x84554C05 = .ok (.mulw 1 5 10 19) := by decide +kernel
theorem test_words_control_addi :
    decodeControl 0x86554010 = .ok (.addi 1 5 10 16400) ∧ decodeControl 0x88554010 = .ok (.andi 1 5 10 16400) ∧
    decodeControl 0x8A554010 = .ok (.ori 1 5 10 16400) ∧ decodeControl 0x8C554010 = .ok (.xori 1 5 10 16400) ∧
    decodeControl 0x8E550013 = .ok (.slli 1 5 10 19) ∧ decodeControl 0x8E552013 = .ok (.srli 1 5 10 19) ∧
    decodeControl 0x8E554013 = .ok (.srai 1 5 10 19) ∧ decodeControl 0x90554010 = .ok (.slti 1 5 10 16400) := by decide +kernel
theorem test_words_control_sltiu :
    decodeControl 0x92554010 = .ok (.sltiu 1 5 10 16400) ∧ decodeControl 0x9458000B = .ok (.lui 1 5 524299) ∧
    decodeControl 0x9658000B = .ok (.addpc 1 5 524299) ∧ decodeControl 0x98154C04 = .ok (.pcmp 1 1 10 19 4) ∧
    decodeControl 0x9B29C015 = .ok (.pcmpi 1 4 2 19 16405) ∧ decodeControl 0x9C110C00 = .ok (.pand 1 1 2 3) ∧
    decodeControl 0x9C110C01 = .ok (.por 1 1 2 3) ∧ decodeControl 0x9C110C02 = .ok (.pxor 1 1 2 3) := by decide +kernel
theorem test_words_control_pnot :
    decodeControl 0x9C110003 = .ok (.pnot 1 1 2) ∧ decodeControl 0x9C110004 = .ok (.pmov 1 1 2) ∧
    decodeControl 0x9E554C02 = .ok (.sel 1 5 10 19 2) ∧ decodeControl 0xA0E00010 = .ok (.br 1 1 1 2097168) ∧
    decodeControl 0xA258000B = .ok (.jal 1 5 524299) ∧ decodeControl 0xA4554010 = .ok (.jalr 1 5 10 16400) ∧
    decodeControl 0xA7054010 = .ok (.loop 1 1 10 16400) ∧ decodeControl 0xA8E00010 = .ok (.lexit 1 1 1 2097168) := by decide +kernel
theorem test_words_control_join :
    decodeControl 0xAA000001 = .ok (.join 1) ∧ decodeControl 0xAC028000 = .ok (.sendl 1 5) ∧ decodeControl 0xAC028001 = .ok (.sendr 1 5) ∧
    decodeControl 0xAC500002 = .ok (.recvl 1 5) ∧ decodeControl 0xAC500003 = .ok (.recvr 1 5) ∧ decodeControl 0xAE000000 = .ok (.nop 1) ∧
    decodeControl 0xB0000000 = .ok (.brk 1) ∧ decodeControl 0xB2550000 = .ok (.cset 1 5 10) := by decide +kernel
theorem test_words_control_cget :
    decodeControl 0xB2510001 = .ok (.cget 1 5 2) ∧ decodeControl 0xB2514C02 = .ok (.cadd 1 5 2 19) ∧
    decodeControl 0xB4514010 = .ok (.caddi 1 5 2 16400) ∧ decodeControl 0xC0553815 = .ok (.ld 1 5 10 3 2069) ∧
    decodeControl 0xC2553815 = .ok (.st 1 5 10 3 2069) ∧ decodeControl 0xC5400000 = .ok (.qmark 1 10) ∧
    decodeControl 0xC6A054C0 = .ok (.cwb 1 5 10 19) ∧ decodeControl 0xC74054C1 = .ok (.cinv 1 10 10 19) := by decide +kernel
theorem test_words_control_cwbinv :
    decodeControl 0xC6A054C2 = .ok (.cwbinv 1 5 10 19) ∧ decodeControl 0xD14A99CE = .ok (.xin 1 10 10 19 7 3 2) ∧
    decodeControl 0xD2AA99CE = .ok (.xinm 1 5 10 19 7 3 2) ∧ decodeControl 0xD54A99CD = .ok (.xout 1 10 10 19 7 3 1) ∧
    decodeControl 0xD6A05013 = .ok (.xput 1 5 10 19) ∧ decodeControl 0xD94A0013 = .ok (.xget 1 10 10 19) ∧
    decodeControl 0xDAAA0003 = .ok (.xwait 1 5 10 3) ∧ decodeControl 0xDD4A9800 = .ok (.xcancel 1 10 10 19) := by decide +kernel
theorem test_words_control_shpld :
    decodeControl 0xDEA050C0 = .ok (.shpld 1 5 10 3) ∧ decodeControl 0xDF4050C1 = .ok (.shpst 1 10 10 3) ∧
    decodeControl 0xDEA00282 = .ok (.btld 1 5 10) ∧ decodeControl 0xDF4A00E7 = .ok (.shpget 1 10 10 3 7) ∧
    decodeControl 0xDEA050F7 = .ok (.shpset 1 5 10 3 7) ∧ decodeControl 0xE1405002 = .ok (.tstart 1 10 10 2) ∧
    decodeControl 0xE0A00286 = .ok (.tstartEv 1 5 10 2) ∧ decodeControl 0xE3400002 = .ok (.tstop 1 10 2) := by decide +kernel
theorem test_words_control_tbase :
    decodeControl 0xE4A05002 = .ok (.tbase 1 5 10 2) ∧ decodeControl 0xE7400002 = .ok (.tsync 1 10 2) ∧
    decodeControl 0xE8A054C2 = .ok (.tload 1 5 10 19 2) ∧ decodeControl 0xEB4050C0 = .ok (.evcfg 1 10 10 3) ∧
    decodeControl 0xEAA00281 = .ok (.evsig 1 5 10) ∧ decodeControl 0xEB4050C2 = .ok (.evwait 1 10 10 3) ∧
    decodeControl 0xECA05000 = .ok (.cptail 1 5 10) ∧ decodeControl 0xED4A0001 = .ok (.cpseq 1 10 10) := by decide +kernel
theorem test_words_control_ownLend :
    decodeControl 0xF0AA99C0 = .ok (.ownLend 1 5 10 19 7) ∧ decodeControl 0xF14A99C1 = .ok (.ownGive 1 10 10 19 7) ∧
    decodeControl 0xF0AA9802 = .ok (.ownRet 1 5 10 19) ∧ decodeControl 0xF14A99C3 = .ok (.ownSplit 1 10 10 19 7) ∧
    decodeControl 0xF0AA99C4 = .ok (.ownMerge 1 5 10 19 7) ∧ decodeControl 0xF14A99C5 = .ok (.ownShare 1 10 10 19 7) ∧
    decodeControl 0xF0AA9806 = .ok (.ownUnshare 1 5 10 19) ∧ decodeControl 0xF14A9807 = .ok (.ownWait 1 10 10 19) := by decide +kernel
theorem test_words_control_ownQuery :
    decodeControl 0xF0AA9808 = .ok (.ownQuery 1 5 10 19) ∧ decodeControl 0xF34A99D2 = .ok (.bar 1 10 10 19 7 2 2) ∧
    decodeControl 0xF4A0000A = .ok (.fence 1 5 10) ∧ decodeControl 0xF74A99C0 = .ok (.aadd 1 10 10 19 7) ∧
    decodeControl 0xF6AA99C1 = .ok (.aaddf 1 5 10 19 7) ∧ decodeControl 0xF74A99C2 = .ok (.axchg 1 10 10 19 7) ∧
    decodeControl 0xF6AA99C3 = .ok (.a2sum 1 5 10 19 7) ∧ decodeControl 0xF850080B = .ok (.srd 1 5 2059) := by decide +kernel
theorem test_words_control_swr :
    decodeControl 0xFA02880B = .ok (.swr 1 5 2059) ∧ decodeControl 0xFD400000 = .ok (.ecall 1 10) ∧
    decodeControl 0xFCA00001 = .ok (.tret 1 5) ∧ decodeControl 0xFD400002 = .ok (.tack 1 10) ∧ decodeControl 0xFCA00003 = .ok (.halt 1 5) ∧
    decodeControl 0xFD400004 = .ok (.wfi 1 10) ∧ decodeControl 0xFCAA0005 = .ok (.oeqpop 1 5 10) ∧
    decodeControl 0xFD400006 = .ok (.rotpt 1 10) := by decide +kernel
theorem test_words_control_iinv :
    decodeControl 0xFCA00007 = .ok (.iinv 1 5) := by decide +kernel
theorem test_words_slot_x_mnop :
    decodeX 0x10000000 = .ok (.mnop 1) ∧ decodeX 0x10AB9400 = .ok (.mma 1 2 1 0 1 1 9 4 0) ∧ decodeX 0x11550200 = .ok (.mldm 1 5 2 2064) := by decide +kernel
theorem test_words_slot_y_mscale :
    decodeY 0x108A5307 = .ok (.mscale 1 5 10 3 7) ∧ decodeY 0x110AA043 = .ok (.mstore 1 5 2 2064 1 1) ∧
    decodeY 0x118A0000 = .ok (.mzero 1 5) ∧ decodeY 0x120A5400 = .ok (.mdrain 1 5 10 1) ∧ decodeY 0x128A0000 = .ok (.mchk 1 5) ∧
    decodeY 0x130B4600 = .ok (.mfix 1 5 10 3) ∧ decodeY 0x138A5000 = .ok (.mcopy 1 5 10) ∧ decodeY 0x140AA042 = .ok (.mlda 1 5 2 2064 1) := by decide +kernel
theorem test_words_slot_y_ma2s :
    decodeY 0x148A5260 = .ok (.ma2s 1 5 10 19) ∧ decodeY 0x15000000 = .ok (.mtile 1) ∧ decodeY 0x15E02C13 = .ok (.mloop 1 1 2059 19) ∧
    decodeY 0x1628800B = .ok (.mflag 1 5 32779) ∧ decodeY 0x16808006 = .ok (.mwaits 1 32774) ∧ decodeY 0x17500000 = .ok (.mmask 1 5) ∧
    decodeY 0x17D0A130 = .ok (.mcbt 1 5 10 19) := by decide +kernel
theorem test_words_vector_vnop :
    decodeV 0x10000000 = .ok (.vnop 1) ∧ decodeV 0x104AA9C0 = .ok (.vadd 1 5 10 19 4) ∧ decodeV 0x108AA9C0 = .ok (.vsub 1 5 10 19 4) ∧
    decodeV 0x10CAA9C0 = .ok (.vmul 1 5 10 19 4) ∧ decodeV 0x110AA9C0 = .ok (.vfma 1 5 10 19 4) ∧
    decodeV 0x114AA980 = .ok (.vmin 1 5 10 19) ∧ decodeV 0x118AA980 = .ok (.vmax 1 5 10 19) ∧ decodeV 0x11CAA000 = .ok (.vabs 1 5 10) := by decide +kernel
theorem test_words_vector_vneg :
    decodeV 0x120AA000 = .ok (.vneg 1 5 10) ∧ decodeV 0x1240550D = .ok (.vcmp 1 5 10 1 5) ∧
    decodeV 0x128AA2BA = .ok (.vcvt 1 5 10 2 1 3 10) ∧ decodeV 0x12CAA000 = .ok (.vexp2 1 5 10) ∧
    decodeV 0x130AA980 = .ok (.vexpd 1 5 10 19) ∧ decodeV 0x134AA000 = .ok (.vlog2 1 5 10) ∧ decodeV 0x138AA000 = .ok (.vrcp 1 5 10) ∧
    decodeV 0x13CAA000 = .ok (.vrsq 1 5 10) := by decide +kernel
theorem test_words_vector_viadd :
    decodeV 0x140AA980 = .ok (.viadd 1 5 10 19) ∧ decodeV 0x144AA980 = .ok (.visub 1 5 10 19) ∧
    decodeV 0x148AA980 = .ok (.vimul 1 5 10 19) ∧ decodeV 0x14CAA980 = .ok (.vand 1 5 10 19) ∧ decodeV 0x150AA980 = .ok (.vor 1 5 10 19) ∧
    decodeV 0x154AA980 = .ok (.vxor 1 5 10 19) ∧ decodeV 0x158AA980 = .ok (.vshl 1 5 10 19) ∧ decodeV 0x15CAA980 = .ok (.vshr 1 5 10 19) := by decide +kernel
theorem test_words_vector_vsar :
    decodeV 0x160AA980 = .ok (.vsar 1 5 10 19) ∧ decodeV 0x164AA980 = .ok (.vsel 1 5 10 19) ∧ decodeV 0x168AA000 = .ok (.vmov 1 5 10) ∧
    decodeV 0x16CAA013 = .ok (.vbcast 1 5 10 19) ∧ decodeV 0x170AA980 = .ok (.vperm 1 5 10 19) ∧
    decodeV 0x174AA00E = .ok (.vred 1 5 10 1 1 2) ∧ decodeV 0x178AA00E = .ok (.vscan 1 5 10 1 1 2) ∧
    decodeV 0x17CAA000 = .ok (.vsegid 1 5 10) := by decide +kernel
theorem test_words_vector_vld :
    decodeV 0x180AA013 = .ok (.vld 1 5 10 19) ∧ decodeV 0x18405513 = .ok (.vst 1 5 10 19) ∧ decodeV 0x188A2026 = .ok (.vldacc 1 5 2 19) ∧
    decodeV 0x18C03527 = .ok (.vstacc 1 3 10 19 1) ∧ decodeV 0x190A002A = .ok (.vparam 1 5 42) ∧ decodeV 0x1A005000 = .ok (.mpush 1 5) ∧
    decodeV 0x1A400000 = .ok (.minv 1) ∧ decodeV 0x1A8A0000 = .ok (.mpop 1 5) := by decide +kernel
theorem test_words_vector_mskz :
    decodeV 0x1AC00005 = .ok (.mskz 1 5) ∧ decodeV 0x1C301613 = .ok (.vloop 1 1 2059 19) ∧ decodeV 0x1C54800B = .ok (.vflag 1 5 32779) ∧
    decodeV 0x1C808006 = .ok (.vwaits 1 32774) := by decide +kernel
theorem test_words_temporal_tnop :
    decodeT 0x10000000 = .ok (.tnop 1) ∧ decodeT 0x1114A800 = .ok (.tdload 1 5 10 2) ∧ decodeT 0x12058000 = .ok (.tmode 1 5 1) ∧
    decodeT 0x12408000 = .ok (.tmodeAll 1 1) ∧ decodeT 0x12800000 = .ok (.tmodeTs 1) ∧ decodeT 0x13050000 = .ok (.twset 1 5) ∧
    decodeT 0x14280000 = .ok (.tlaunch 1 5) ∧ decodeT 0x15280000 = .ok (.tcapture 1 5) := by decide +kernel
theorem test_words_temporal_treset :
    decodeT 0x16000000 = .ok (.treset 1) ∧ decodeT 0x17050000 = .ok (.trelax 1 5) ∧ decodeT 0x1850800B = .ok (.tflag 1 5 32779) := by decide +kernel

/-- An entry of R98 written out field by field: CMD, FLAGS, LEN, FROM, TO, AUX, SEED, EXPECT, ARG, CRC. -/
def entryBytes (cmd : Nat) (e : CopyEntry) : List Byte :=
  leBytes 64 (sealed 60 [(0, cmd), (1, e.flags.toNat), (4, e.len.toNat), (8, e.src.toNat), (0x10, e.dst.toNat), (0x18, e.aux.toNat),
    (0x20, e.seed.toNat), (0x24, e.expect.toNat), (0x28, e.arg.toNat)])

def blank : CopyEntry := { flags := 0, len := 0, src := 0, dst := 0, aux := 0, seed := 0, expect := 0, arg := 0 }
def copied : CopyEntry := { blank with flags := 14, len := 11, src := 0x111, dst := 0x222, seed := 3, expect := 4 }

theorem test_entries_moves :
    decodeEntry (entryBytes 1 copied) = .ok (.copy copied) ∧
    decodeEntry (entryBytes 2 { blank with src := 1, dst := 2, aux := 8, arg := 14 }) = .ok (.copys { blank with src := 1, dst := 2, aux := 8, arg := 14 }) ∧
    decodeEntry (entryBytes 3 { blank with len := 9, dst := 2, aux := 5 }) = .ok (.fill { blank with len := 9, dst := 2, aux := 5 }) ∧
    decodeEntry (entryBytes 4 { blank with len := 9, src := 2, aux := 8, arg := 64 }) = .ok (.bcast { blank with len := 9, src := 2, aux := 8, arg := 64 }) ∧
    decodeEntry (entryBytes 5 { blank with flags := 3, len := 9, src := 2, expect := 6 }) = .ok (.cksum { blank with flags := 3, len := 9, src := 2, expect := 6 }) := by
  decide +kernel
theorem test_entries_others :
    decodeEntry (entryBytes 6 { blank with dst := 8, aux := 5 }) = .ok (.signal { blank with dst := 8, aux := 5 }) ∧
    decodeEntry (entryBytes 7 { blank with aux := 5, arg := 6 }) = .ok (.waitseq { blank with aux := 5, arg := 6 }) ∧
    decodeEntry (entryBytes 8 { blank with aux := 5 }) = .ok (.tokret { blank with aux := 5 }) ∧
    decodeEntry (entryBytes 9 { blank with aux := 64 }) = .ok (.link { blank with aux := 64 }) ∧
    decodeEntry (entryBytes 10 blank) = .ok (.mirwait blank) ∧ decodeEntry (entryBytes 11 blank) = .error .unassignedCommand ∧
    decodeEntry (List.replicate 64 0) = .error .badCrc ∧ decodeEntry (entryBytes 1 { copied with arg := 1 }) = .error .unassignedCode := by decide +kernel

/-! ## Numbers and single steps -/

/-- R53: 460 converts to the e4m3 number 448 with no event, +∞ to 448 with kind SAT. -/
theorem test_e4m3 : encodeElem 3 0 false 0 (Val.ofInt 460) = (0x7E, 0) ∧ encodeElem 3 0 false 0 (val32 0x7F800000) = (0x7E, kindSat) := by
  decide +kernel
/-- R65: the CRC-32 of IEEE 802.3 over the digits 1 to 9 is 0xCBF43926, the check value that standard's CRC is known by. -/
theorem test_crc : crc32 [0x31, 0x32, 0x33, 0x34, 0x35, 0x36, 0x37, 0x38, 0x39] = 0xCBF43926 := by decide +kernel
/-- R100, by hand: the one word 0x0201 gives both sums 513. -/
theorem test_fletcher : fletcher 0 [1, 2] = 0x02010201 ∧ fletcher 0 [] = 0 := by decide +kernel
/-- R35: AES-256 of sixteen zero bytes under the zero key begins DC 95 C0 78, a published vector of the cipher. -/
theorem test_aes : (({} : Pkg).checkValue 0) = 0 ∧ (({ keys := [(3, some 0)] } : Pkg).checkValue 3) = 0x78C095DC := by decide +kernel

/-- What one step from reset makes of a word placed first. -/
def after {α : Type} (s : State) (f : State → α) : Option α :=
  match step s with
  | .next t => some (f t)
  | _ => none

theorem test_addi_negative : after (first 0x86507FFF) (fun t => (t.g 5, t.cl.pc)) = some (BitVec.allOnes 64, handleOf 1 16) := by decide +kernel
theorem test_g0_discards : after (first 0x86000001) (fun t => (t.g 0, t.cl.pc)) = some (0, handleOf 1 16) := by decide +kernel
theorem test_jal : after (first 0xA2100002) (fun t => (t.g 1, t.cl.pc)) = some (handleOf 1 16, handleOf 1 32) := by decide +kernel
theorem test_illegal_word : after (first 0x80FFFFFF) (fun t => (t.core.inHandler, t.core.areaNat 0 8, t.cl.pc)) = some (true, 1, 0) := by decide +kernel
theorem test_mask_order : after (first 0x0AC00001) (fun t => (t.core.engine .vector).step) = some 1 := by decide +kernel
theorem test_memory_reads_back : ((State.reset.setByte 7 9).setByte 8 0).byte 7 = 9 ∧ ((State.reset.setByte 7 9).setByte 7 0) = State.reset := by
  decide +kernel

end Sys2Proof.Tests
end

section
/-! # O49: messages, arm entries, classifier, descriptors (R372, R373, R446, R464) -/

namespace Sys2Proof.Proofs

open Sys2Proof.Machine Sys2Proof.Laws

/-! ## What a write at a home leaves alone -/

/-- A write of bytes at their homes and mirrors changes memory and its owner tags and nothing else. -/
theorem partBytes_frame (s : State) (p key : Nat) (bs : List Byte) :
    ∃ m o, s.partBytes p key bs = { s with mem := m, owners := o } := by
  induction bs generalizing s key with
  | nil => exact ⟨s.mem, s.owners, rfl⟩
  | cons b rest ih =>
    have live (s : State) (key : Nat) : ∃ m o, s.liveByte 0 key b = { s with mem := m, owners := o } := by
      unfold State.liveByte
      split
      · exact ⟨s.mem, s.owners, rfl⟩
      · exact ⟨_, _, rfl⟩
    have one : ∃ m o, s.partByte p 0 key b = { s with mem := m, owners := o } := by
      obtain ⟨m, o, hm⟩ := live s key
      unfold State.partByte
      split
      · next k _ =>
        obtain ⟨m', o', hm'⟩ := live (s.liveByte 0 key b) k
        exact ⟨m', o', by rw [hm', hm]⟩
      · exact ⟨m, o, hm⟩
    obtain ⟨m, o, hm⟩ := one
    obtain ⟨m', o', hm'⟩ := ih (s.partByte p 0 key b) (key + 1)
    exact ⟨m', o', by rw [State.partBytes, hm', hm]⟩

theorem writeAt_frame (s : State) (p : Nat) (h : Word) (bs : List Byte) :
    ∃ m o, s.writeAt p h bs = { s with mem := m, owners := o } := by
  unfold State.writeAt
  split
  · exact partBytes_frame ..
  · exact ⟨s.mem, s.owners, rfl⟩

@[simp] theorem writeAt_pkgs (s : State) (p : Nat) (h : Word) (bs : List Byte) : (s.writeAt p h bs).pkgs = s.pkgs := by
  obtain ⟨m, o, e⟩ := writeAt_frame s p h bs
  rw [e]

@[simp] theorem pkgAt_writeAt (s : State) (p : Nat) (h : Word) (bs : List Byte) (j : Nat) :
    (s.writeAt p h bs).pkgAt j = s.pkgAt j := by
  rw [State.pkgAt, writeAt_pkgs]; rfl

/-! ## What a log entry leaves alone (R414) -/

@[simp] theorem tell_mem (s : State) (p b : Nat) (e : MemError) (m : Bool) : (s.tell p b e m).mem = s.mem := by
  unfold State.tell
  split <;> rfl

@[simp] theorem logIo_mem (s : State) (p : Nat) (e : MemError) : (s.logIo p e).mem = s.mem := tell_mem ..

@[simp] theorem logStructure_mem (s : State) (p : Nat) (h : Word) (crc : Nat) : (s.logStructure p h crc).mem = s.mem :=
  logIo_mem ..

/-! ## A message at its destination (R373) -/

/-- The record of a message that no arm entry takes. -/
def unmatched (tag : BitVec 16) : MemError :=
  { source := 10, uncorrectable := true, addr := tag.setWidth 64, phys := 0xFF, owner := 0, syndrome := 0 }

/-- The entry after its payload has been stored in its next slot: the next slot moves on, one more is used, a one-shot entry is spent. -/
def storedArm (v : BitVec 256) : BitVec 256 :=
  let w := setArm (setArm v 0x18 1 ((armField v 0x18 1 + 1) % 16)) 0x19 1 (armField v 0x19 1 + 1)
  if armField v 2 1 / 2 % 2 = 1 then setArm w 2 1 (armField v 2 1 - 1) else w

section
variable {s : State} {pkg : Nat} {tag : BitVec 16} {payload : List Byte} {e : Nat} {v : BitVec 256}

theorem matchMessage_of_no_entry (h : (s.pkgAt pkg).armsFor tag.toNat = []) :
    s.matchMessage pkg tag.toNat payload = s.logIo pkg (unmatched tag) := by
  simp [State.matchMessage, h, word, unmatched]

theorem matchMessage_of_bad_crc (h : (s.pkgAt pkg).armsFor tag.toNat = [(e, v)]) (hc : armCrcOk v = false) :
    s.matchMessage pkg tag.toNat payload =
      (s.logStructure pkg (BitVec.ofNat 64 e) (armField v 0x1C 4)).logIo pkg (unmatched tag) := by
  simp [State.matchMessage, h, hc, word, unmatched]

theorem matchMessage_of_no_room (h : (s.pkgAt pkg).armsFor tag.toNat = [(e, v)]) (hc : armCrcOk v = true)
    (hr : armField v 0x19 1 = 16 ∨ armField v 4 4 < payload.length) :
    s.matchMessage pkg tag.toNat payload =
      s.modPkgAt pkg fun p => { p with arms := Sp.put p.arms e (setArm v 0x1A 2 (min (armField v 0x1A 2 + 1) 0xFFFF)) } := by
  simp [State.matchMessage, h, hc, hr]

theorem matchMessage_of_room (h : (s.pkgAt pkg).armsFor tag.toNat = [(e, v)]) (hc : armCrcOk v = true)
    (hs : armField v 0x19 1 ≠ 16) (hl : payload.length ≤ armField v 4 4) :
    let q := Sp.get (0, 0) (s.pkgAt pkg).armQueue e
    let slot := BitVec.ofNat 64 (armField v 0x10 8) + BitVec.ofNat 64 (armField v 0x18 1 % 16 * armField v 4 4)
    let u := (s.writeAt q.1 slot payload).modPkgAt pkg fun p => { p with arms := Sp.put p.arms e (storedArm v) }
    s.matchMessage pkg tag.toNat payload =
      u.submit q.1 q.2 pkg (BitVec.ofNat 1024 (u.readAt q.1 (BitVec.ofNat 64 (armField v 8 8)) 128)) slot (some (pkg, e)) := by
  have hr : ¬(armField v 0x19 1 = 16 ∨ armField v 4 4 < payload.length) := by omega
  simp [State.matchMessage, h, hc, hr, storedArm] <;> rfl

end

theorem exec_messageMatch_of_up {s : State} {pkg : BitVec 10} (tag : BitVec 16) (payload : List Byte) (hp : pkg.toNat < Config.packages)
    (hf : (s.pkgAt pkg.toNat).failed = false) :
    exec (.messageMatch pkg tag payload) s = .next (s.matchMessage pkg.toNat tag.toNat payload) := by
  rw [exec_messageMatch, execMessageMatch, if_neg (by omega), hf]
  rfl

/-! ## Frames (R464) -/

section
variable {s : State} {pkg : BitVec 10} {port : BitVec 1} {ethertype : BitVec 16} {payload : List Byte}

/-- The lowest classifier entry of the port that matches the frame. -/
abbrev classOf (p : Pkg) (port : BitVec 1) (ethertype : BitVec 16) (payload : List Byte) : Option (BitVec 96) :=
  ((List.range 64).map fun i => Sp.get 0 p.classify (64 * port.toNat + i)).find? fun v => classMatches v ethertype.toNat payload

theorem exec_frameClassify_of_down (h : (s.pkgAt pkg.toNat).boot.released = false ∨ (s.pkgAt pkg.toNat).failed = true) :
    exec (.frameClassify pkg port ethertype payload) s = .next s := by
  have hd : (!(s.pkgAt pkg.toNat).boot.released) = true ∨ (s.pkgAt pkg.toNat).failed = true := by simpa using h
  simp only [exec_frameClassify, execFrameClassify, if_pos hd, ite_self]

/-- A frame that reaches a package that is up goes the way its entry says, or to the host. -/
theorem exec_frameClassify_of_up (hp : pkg.toNat < Config.packages) (hr : (s.pkgAt pkg.toNat).boot.released = true)
    (hf : (s.pkgAt pkg.toNat).failed = false) :
    (∀ v, classOf (s.pkgAt pkg.toNat) port ethertype payload = some v →
      exec (.frameClassify pkg port ethertype payload) s = exec (.messageMatch pkg (v.extractLsb' 80 16) payload) s) ∧
    (classOf (s.pkgAt pkg.toNat) port ethertype payload = none → exec (.frameClassify pkg port ethertype payload) s =
      .next (s.modPkgAt pkg.toNat fun p => { p with hostRx := p.hostRx ++ [payload] })) := by
  have hu : ¬((!(s.pkgAt pkg.toNat).boot.released) = true ∨ (s.pkgAt pkg.toNat).failed = true) := by simp [hr, hf]
  have hb (v : BitVec 96) : (v.extractLsb' 80 16).toNat = bits v 80 16 := by
    simp only [bits, BitVec.extractLsb'_toNat, Nat.shiftRight_eq_div_pow]
  constructor
  · intro v h
    rw [exec_messageMatch_of_up _ _ hp hf, hb, exec_frameClassify, execFrameClassify, if_neg (by omega), if_neg hu]
    simp only [h]
  · intro h
    rw [exec_frameClassify, execFrameClassify, if_neg (by omega), if_neg hu]
    simp only [h]

end

/-! ## Descriptors (R446) -/

theorem le_foldl_max {α : Type} (p : α → Prop) [DecidablePred p] (f : α → Nat) (l : List α) (n : Nat) :
    n ≤ l.foldl (fun m x => if p x then max m (f x) else m) n := by
  induction l generalizing n with
  | nil => exact le_rfl
  | cons x rest ih =>
    have step : n ≤ if p x then max n (f x) else n := by
      split
      · exact le_max_left ..
      · exact le_rfl
    exact step.trans (ih _)

section
variable {s : State} {pkg : BitVec 10} {part : Nat} {h : Word}

theorem exec_messageSend_of_no_queue (hq : (s.pkgAt pkg.toNat).msgq = none) : exec (.messageSend pkg) s = .next s := by
  simp only [exec_messageSend, execMessageSend, hq, ite_self]

/-- A header whose CRC fails stops the queue. -/
theorem exec_messageSend_of_bad_header (hp : pkg.toNat < Config.packages) (hq : (s.pkgAt pkg.toNat).msgq = some (part, h))
    (hh : s.headerOk part h = false) :
    exec (.messageSend pkg) s = .next ((s.logStructure pkg.toNat h (s.readAt part (h + 0x3C) 4)).modPkgAt pkg.toNat fun p =>
      { p with msgq := none }) := by
  simp only [exec_messageSend, execMessageSend, if_neg (show ¬Config.packages ≤ pkg.toNat by omega), hq, hh, Bool.not_false, if_true]

theorem exec_messageSend_of_empty (hp : pkg.toNat < Config.packages) (hq : (s.pkgAt pkg.toNat).msgq = some (part, h))
    (hh : s.headerOk part h = true) (he : s.readAt part h 8 ≤ s.readAt part (h + 8) 8) : exec (.messageSend pkg) s = .next s := by
  simp only [exec_messageSend, execMessageSend, if_neg (show ¬Config.packages ≤ pkg.toNat by omega), hq, hh, Bool.not_true,
    Bool.false_eq_true, if_false, he, true_or, if_true]

/-- The next descriptor is counted as taken, and its message arrives after the present cycle. -/
theorem exec_messageSend_of_descriptor (hp : pkg.toNat < Config.packages) (hq : (s.pkgAt pkg.toNat).msgq = some (part, h))
    (hh : s.headerOk part h = true) (he : s.readAt part (h + 8) 8 < s.readAt part h 8) (hn : s.readAt part (h + 0x10) 4 ≠ 0) :
    let head := s.readAt part (h + 8) 8
    let v := s.readAt part (BitVec.ofNat 64 (s.readAt part (h + 0x18) 8) + BitVec.ofNat 64 (32 * (head % s.readAt part (h + 0x10) 4))) 32
    let u := s.writeAt part (h + 8) (leBytes 8 (head + 1))
    s.descriptorOk part v = true → ∃ t at_ data, exec (.messageSend pkg) s = .next t ∧ t.mem = u.mem ∧ s.clock < at_ ∧
      (t.pkgAt pkg.toNat).outbox =
        (s.pkgAt pkg.toNat).outbox ++ [(at_, BitVec.ofNat 10 (v % 2 ^ 16), BitVec.ofNat 16 (v / 2 ^ 16), data)] := by
  intro head v u hd
  have hb : ¬(s.readAt part h 8 ≤ s.readAt part (h + 8) 8 ∨ s.readAt part (h + 0x10) 4 = 0) := by
    rintro (hle | h0)
    · exact absurd he hle.not_gt
    · exact hn h0
  have hd' : ¬(!s.descriptorOk part v) = true := by simp [hd]
  rw [exec_messageSend, execMessageSend, if_neg (by omega), hq]
  dsimp only
  rw [if_neg (by simp [hh]), if_neg hb]
  have box (f : Pkg → Pkg) (x : Nat × BitVec 10 × BitVec 16 × List Byte) (hf : ∀ p, (f p).outbox = p.outbox ++ [x]) :
      (((u.draw 4095).2.modPkgAt pkg.toNat f).pkgAt pkg.toNat).outbox = (s.pkgAt pkg.toNat).outbox ++ [x] := by
    rw [pkgAt_modPkgAt_self, hf, pkgAt_draw, pkgAt_writeAt]
  exact ⟨_, _, _, if_neg hd', rfl, lt_of_lt_of_le (by omega) (le_foldl_max ..), box _ _ fun _ => rfl⟩

end

/-! ## Arm entries (R9, R372) -/

section
variable {s : State} {pkg : BitVec 10} {entry : BitVec 8} {part queue : Nat} {v : BitVec 256}

/-- Another entry of the table claims the TAG of this one. -/
abbrev hasTwin (p : Pkg) (entry : BitVec 8) (v : BitVec 256) : Bool := (p.armsFor (armField v 0 2)).any fun x => !decide (x.1 = entry.toNat)

theorem exec_launchArmWrite_of_refused
    (h : (armValid v = true ∧ hasTwin (s.pkgAt pkg.toNat) entry v = true) ∨ (s.pkgAt pkg.toNat).boot.released = false) :
    exec (.launchArmWrite pkg entry part queue v) s = .next s := by
  have hd : (armValid v = true ∧ hasTwin (s.pkgAt pkg.toNat) entry v = true) ∨ (!(s.pkgAt pkg.toNat).boot.released) = true := by simpa using h
  simp only [exec_launchArmWrite, execLaunchArmWrite, if_pos hd, ite_self]

theorem exec_launchArmWrite_of_taken (hp : pkg.toNat < Config.packages) (hr : (s.pkgAt pkg.toNat).boot.released = true)
    (h : armValid v = false ∨ hasTwin (s.pkgAt pkg.toNat) entry v = false) :
    exec (.launchArmWrite pkg entry part queue v) s = .next (s.modPkgAt pkg.toNat fun p =>
      { p with arms := Sp.put p.arms entry.toNat (v &&& ~~~0xFFFC0000#256), armQueue := Sp.put p.armQueue entry.toNat (part, queue) }) := by
  have hd : ¬((armValid v = true ∧ hasTwin (s.pkgAt pkg.toNat) entry v = true) ∨ (!(s.pkgAt pkg.toNat).boot.released) = true) := by
    rcases h with h | h <;> simp [h, hr]
  simp only [exec_launchArmWrite, execLaunchArmWrite, if_neg (show ¬Config.packages ≤ pkg.toNat by omega), if_neg hd]

end

/-- Settles O49: each step is run once in the lemmas above, by the branch its hypotheses select. -/
theorem messagesMatchAndLaunch : Obligations.MessagesMatchAndLaunch := by
  intro pkg s hp
  refine ⟨fun tag payload => ⟨fun hf => ?_, fun hf h => ?_, fun e v hf h hc => ?_, fun e v hf h hc => ⟨fun hr => ?_, fun hs hl => ?_⟩⟩,
    fun port ethertype payload => ⟨exec_frameClassify_of_down, fun hr hf => (exec_frameClassify_of_up hp hr hf).2,
      fun v hr hf => (exec_frameClassify_of_up hp hr hf).1 v⟩,
    exec_messageSend_of_no_queue,
    fun part h hq => ⟨fun hh => ?_, fun hh => exec_messageSend_of_empty hp hq hh, fun hh he hn => exec_messageSend_of_descriptor hp hq hh he hn⟩,
    fun entry part queue v => ⟨fun hv ht => exec_launchArmWrite_of_refused (.inl ⟨hv, ht⟩),
      fun hr => exec_launchArmWrite_of_refused (.inr hr), fun hr h => ?_⟩⟩
  · rw [exec_messageMatch, execMessageMatch, if_neg (by omega), if_pos hf]
  · rw [exec_messageMatch_of_up _ _ hp hf, matchMessage_of_no_entry h, unmatched]
  · rw [exec_messageMatch_of_up _ _ hp hf, matchMessage_of_bad_crc h hc, unmatched]
  · refine ⟨_, (exec_messageMatch_of_up _ _ hp hf).trans (congrArg _ (matchMessage_of_no_room h hc hr)), rfl, rfl, ?_⟩
    simp only [pkgAt_modPkgAt_self, get_put_self]
  · exact ⟨_, (exec_messageMatch_of_up _ _ hp hf).trans (congrArg _ (matchMessage_of_room h hc hs hl)), rfl, rfl⟩
  · refine ⟨_, exec_messageSend_of_bad_header hp hq hh, ?_, ?_⟩
    · rw [pkgAt_modPkgAt_self]
    · exact logStructure_mem s pkg.toNat h (s.readAt part (h + 0x3C) 4)
  · refine ⟨_, exec_launchArmWrite_of_taken hp hr h, rfl, rfl, ?_⟩
    simp only [pkgAt_modPkgAt_self, get_put_self, true_and]
    exact fun e he => get_put_other _ _ _ he

end Sys2Proof.Proofs
end

section
/-! # O50: a region entry is rewritten (R333, R340)

The statement fails on its clause about memory, at a state whose list of partitions is out of order: `outOfOrder`. No run makes such a list,
since every change of it goes through `Sp.put`; where the partitions are listed by rising number the clause holds:
`regionEntryWrite_mem_of_rising`. -/

namespace Sys2Proof.Proofs

open Sys2Proof.Machine Sys2Proof.Laws

/-! ## The write of an entry that nothing refuses -/

/-- The state that a write of entry `i` leaves where nothing refuses it. -/
def entryTaken (s : State) (part i : Nat) (v : BitVec 512) : State :=
  ((s.shootDown part i).modPartAt part fun p =>
    { p with shoots := p.shoots.filter (fun x => !decide (x.1 = i)) ++ [(i, v)] }).settleShoots part

theorem exec_regionEntryWrite_of_free {s : State} {part : Nat} {e : BitVec 12} (w : BitVec 512) (hm : s.managed = true)
    (hp : (∀ r, s.regionOf part e.toNat = some r → r.pinned = false) ∨ s.anyBound part = false) :
    exec (.regionEntryWrite part e w) s = .next (entryTaken s part e.toNat (w &&& regionFields)) := by
  have free : ¬((match s.regionOf part e.toNat with | some r => r.pinned | none => false) = true ∧ s.anyBound part = true) := by
    rcases hp with hp | hb
    · split
      · next r hr => simp [hp r hr]
      · simp
    · simp [hb]
  rw [exec_regionEntryWrite, execRegionEntryWrite, if_neg (by simp [hm])]
  exact if_neg free

/-! ## Where the partitions are listed by rising number -/

/-- The indices of a list rise, as `Sp.put` keeps them. -/
def Rising {α : Type} (m : Sp α) : Prop := m.Pairwise fun x y => x.1 < y.1

section
variable {α : Type}

theorem dropUpTo_of_rising {i : Nat} {v : α} {rest : Sp α} (h : Rising ((i, v) :: rest)) : Sp.dropUpTo i rest = rest := by
  cases rest with
  | nil => rfl
  | cons y ys =>
    have hy : i < y.1 := (List.pairwise_cons.1 h).1 y List.mem_cons_self
    rw [Sp.dropUpTo, if_neg (by omega)]

/-- Two records that a test does not tell apart: which of them is put does not matter to it. -/
theorem any_put_congr (m : Sp α) (k : Nat) {v w : α} (P : Nat × α → Bool) (h : P (k, v) = P (k, w)) :
    (Sp.put m k v).any P = (Sp.put m k w).any P := by
  induction m with
  | nil => simp only [Sp.put, List.any_cons, h]
  | cons x rest ih =>
    simp only [Sp.put]
    split_ifs
    · simp only [List.any_cons, h]
    · simp only [List.any_cons, h]
    · simp only [List.any_cons, ih]

/-- A record that a test does not tell apart from the one it replaces, put into a rising list. -/
theorem any_put_of_rising (d : α) {m : Sp α} (hr : Rising m) (k : Nat) (v : α) (P : Nat × α → Bool)
    (h : P (k, v) = P (k, Sp.get d m k)) (hd : P (k, d) = false) : (Sp.put m k v).any P = m.any P := by
  induction m with
  | nil => simp only [Sp.get] at h; simp only [Sp.put, List.any_cons, h, hd, Bool.false_or]
  | cons x rest ih =>
    obtain ⟨i, w⟩ := x
    simp only [Sp.get] at h
    simp only [Sp.put]
    split_ifs at h ⊢ with h1 h2
    · simp only [List.any_cons, h, hd, Bool.false_or]
    · subst h2
      simp only [List.any_cons, h, dropUpTo_of_rising hr]
    · simp only [List.any_cons, ih (List.pairwise_cons.1 hr).2 h]

end

theorem put_put {α : Type} (m : Sp α) (k : Nat) (v w : α) : Sp.put (Sp.put m k v) k w = Sp.put m k w := by
  have drop (m : Sp α) : Sp.dropUpTo k (Sp.dropUpTo k m) = Sp.dropUpTo k m := by
    induction m with
    | nil => rfl
    | cons x rest ih =>
      simp only [Sp.dropUpTo]
      split_ifs with h
      · exact ih
      · simp only [Sp.dropUpTo, if_neg h]
  induction m with
  | nil => simp only [Sp.put, lt_irrefl, if_false, if_true, Sp.dropUpTo]
  | cons x rest ih =>
    simp only [Sp.put]
    split_ifs with h1 h2
    · simp only [Sp.put, lt_irrefl, if_false, if_true, Sp.dropUpTo, if_neg (show ¬x.1 ≤ k by omega)]
    · simp only [Sp.put, lt_irrefl, if_false, if_true, drop]
    · simp only [Sp.put, if_neg h1, if_neg h2, ih]

/-- Two states, of these partitions, whose lines stand under the same keys. -/
structure SameLines (ps qs : Sp Part) (s u : State) : Prop where
  mem : u.mem = s.mem
  pkgs : u.pkgs = s.pkgs
  left : s.parts = ps
  right : u.parts = qs
  covered : ∀ part i line, u.coveredElse part i line = s.coveredElse part i line

section
variable {ps qs : Sp Part} {s u : State} (h : SameLines ps qs s u)
include h

theorem SameLines.setBytes (k : Nat) (bs : List Byte) : SameLines ps qs (s.setBytes k bs) (u.setBytes k bs) := by
  induction bs generalizing s u k with
  | nil => exact h
  | cons b rest ih =>
    refine ih (s := s.setByte k b) (u := u.setByte k b) ⟨?_, h.pkgs, h.left, h.right, h.covered⟩ (k + 1)
    simp only [State.setByte, h.mem]

theorem SameLines.bytes (k n : Nat) : u.bytes k n = s.bytes k n := by
  induction n generalizing k with
  | zero => rfl
  | succ n ih => simp only [State.bytes, State.byte, h.mem, ih]

theorem SameLines.recode (part i : Nat) (r : Region) (f : Nat → List Byte → List Byte) :
    SameLines ps qs (s.recode part i r f) (u.recode part i r f) := by
  refine List.foldl_rel h fun lo _ s u h => ?_
  simp only [h.mem, h.covered]
  refine List.foldl_rel h fun l _ s u h => ?_
  rw [h.bytes]
  exact h.setBytes _ _

theorem SameLines.keyOfRegion (r : Region) : u.keyOfRegion r = s.keyOfRegion r := by
  simp only [State.keyOfRegion, State.pkgAt, h.pkgs]

theorem SameLines.uncover (part i : Nat) (r : Region) : SameLines ps qs (s.uncover part i r) (u.uncover part i r) := by
  simp only [State.uncover, h.keyOfRegion]
  split
  · exact h.recode ..
  · exact h

theorem SameLines.cover (part i : Nat) (r : Region) : SameLines ps qs (s.cover part i r) (u.cover part i r) := by
  simp only [State.cover, h.keyOfRegion]
  split
  · exact h.recode ..
  · exact h

end

/-- The same entries are written into two records of a partition that have the same region table. -/
theorem SameLines.modPartAt {ps : Sp Part} {s u : State} {part : Nat} {a : Part} (h : SameLines ps (Sp.put ps part a) s u) (f : Part → Part)
    (hf : (f (u.partAt part)).regions = (f (s.partAt part)).regions) :
    SameLines (Sp.put ps part (f (s.partAt part))) (Sp.put ps part (f (u.partAt part))) (s.modPartAt part f) (u.modPartAt part f) := by
  have left : (s.modPartAt part f).parts = Sp.put ps part (f (s.partAt part)) := by rw [State.modPartAt, h.left]
  have right : (u.modPartAt part f).parts = Sp.put ps part (f (u.partAt part)) := by rw [State.modPartAt, h.right, put_put]
  refine ⟨h.mem, h.pkgs, left, right, fun p i line => ?_⟩
  have key (r : Region) : (u.modPartAt part f).keyOfRegion r = (s.modPartAt part f).keyOfRegion r := h.keyOfRegion r
  simp only [State.coveredElse, left, right, key]
  exact any_put_congr _ _ _ (by simp only [hf])

/-- A partition with entry `i` written, which was the region `old` and becomes the region `new`. -/
def withEntry (i : Nat) (v : BitVec 512) (old new : Option Region) (p : Part) : Part :=
  match new with
  | some r => { p with regions := Sp.set 0 p.regions i v }.createTokens i old r
  | none => { p with regions := Sp.set 0 p.regions i v }

@[simp] theorem createTokens_regions (p : Part) (i : Nat) (old : Option Region) (r : Region) :
    (p.createTokens i old r).regions = p.regions := by
  unfold Part.createTokens
  split <;> rfl

@[simp] theorem withEntry_regions (i : Nat) (v : BitVec 512) (old new : Option Region) (p : Part) :
    (withEntry i v old new p).regions = Sp.set 0 p.regions i v := by
  cases new with
  | some r => exact createTokens_regions ..
  | none => rfl

/-- The state with the lines of an entry that goes as they stand in memory. -/
def uncoverOld (s : State) (part i : Nat) (r : Option Region) : State := match r with | some r => s.uncover part i r | none => s

/-- The state with the lines of an entry that comes as its clients see them. -/
def coverNew (s : State) (part i : Nat) (r : Option Region) : State := match r with | some r => s.cover part i r | none => s

theorem setRegion_eq (s : State) (part i : Nat) (v : BitVec 512) :
    let old := s.regionOf part i
    let new := decodeRegion v
    s.setRegion part i v =
      if sameLines old new then s.modPartAt part (withEntry i v old new)
      else coverNew ((uncoverOld s part i old).modPartAt part (withEntry i v old new)) part i new := by
  unfold State.setRegion
  generalize decodeRegion v = new
  cases new <;> rfl

theorem SameLines.uncoverOld {ps qs : Sp Part} {s u : State} (h : SameLines ps qs s u) (part i : Nat) :
    ∀ r, SameLines ps qs (uncoverOld s part i r) (uncoverOld u part i r)
  | some r => h.uncover part i r
  | none => h

theorem SameLines.coverNew {ps qs : Sp Part} {s u : State} (h : SameLines ps qs s u) (part i : Nat) :
    ∀ r, SameLines ps qs (coverNew s part i r) (coverNew u part i r)
  | some r => h.cover part i r
  | none => h

theorem SameLines.setRegion_mem {ps : Sp Part} {s u : State} {part : Nat} {a : Part} (h : SameLines ps (Sp.put ps part a) s u) (i : Nat)
    (v : BitVec 512) (hr : (u.partAt part).regions = (s.partAt part).regions) : (u.setRegion part i v).mem = (s.setRegion part i v).mem := by
  have old : u.regionOf part i = s.regionOf part i := by rw [State.regionOf, State.regionOf, hr]
  have bare := h.uncoverOld part i (s.regionOf part i)
  have table : (Sp.get {} (Sp.put ps part a) part).regions = (Sp.get {} ps part).regions := by
    rwa [State.partAt, State.partAt, h.left, h.right] at hr
  rw [setRegion_eq, setRegion_eq, old]
  split
  · exact h.mem
  · exact ((bare.modPartAt _ (by simp only [withEntry_regions, State.partAt, bare.left, bare.right, table])).coverNew part i _).mem

/-! ## The clause on memory, where the partitions are listed by rising number -/

@[simp] theorem shootDown_parts (s : State) (part i : Nat) : (s.shootDown part i).parts = s.parts := rfl
@[simp] theorem shootDown_mem (s : State) (part i : Nat) : (s.shootDown part i).mem = s.mem := rfl
@[simp] theorem partAt_shootDown (s : State) (part i p : Nat) : (s.shootDown part i).partAt p = s.partAt p := rfl

theorem modPartAt_modPartAt (s : State) (part : Nat) (f g : Part → Part) :
    (s.modPartAt part f).modPartAt part g = s.modPartAt part fun p => g (f p) := by
  simp only [State.modPartAt, State.partAt, put_put, get_put_self]

/-- Dropping a region from the TLBs performs no access. -/
theorem shotDown_shootDown (s : State) (part i : Nat) (f : Part → Part) :
    ((s.shootDown part i).modPartAt part f).shotDown part i = s.shotDown part i := by
  simp only [State.shotDown, modPartAt_cores, State.shootDown, List.any_map]
  congr 2
  funext x
  simp only [Function.comp]
  split <;> rfl

/-- With no access outstanding and no other entry pending, the entry is written at once. -/
theorem entryTaken_of_shotDown {s : State} {part i : Nat} (v : BitVec 512) (hs : (s.partAt part).shoots = [])
    (h : s.shotDown part i = true) : ∃ f : Part → Part, (∀ p, (f p).regions = p.regions) ∧
      entryTaken s part i v = (((s.shootDown part i).modPartAt part f).setRegion part i v).shootDown part i := by
  refine ⟨fun p => { p with shoots := p.shoots.filter fun x => !decide (x = (i, v)) && !decide (x.1 = i) }, fun _ => rfl, ?_⟩
  simp [entryTaken, State.settleShoots, shotDown_shootDown, h, hs, modPartAt_modPartAt]

/-- A record with the same region table, put in the place of a partition's, leaves every line under its key. -/
theorem sameLines_of_rising {s : State} (hr : Rising s.parts) (part i : Nat) {f : Part → Part} (hf : ∀ p, (f p).regions = p.regions) :
    SameLines s.parts (Sp.put s.parts part (f (s.partAt part))) s ((s.shootDown part i).modPartAt part f) := by
  refine ⟨rfl, rfl, rfl, rfl, fun p j line => ?_⟩
  simp only [State.coveredElse, State.modPartAt]
  exact any_put_of_rising {} hr _ _ _ (by simp only [hf]; rfl) rfl

/-- What O50 says of memory holds of every state whose partitions are listed by rising number. -/
theorem regionEntryWrite_mem_of_rising {s : State} {part : Nat} {e : BitVec 12} (w : BitVec 512) (hr : Rising s.parts) (hm : s.managed = true)
    (hp : (∀ r, s.regionOf part e.toNat = some r → r.pinned = false) ∨ s.anyBound part = false) (hs : (s.partAt part).shoots = [])
    (h : s.shotDown part e.toNat = true) :
    ∃ t, exec (.regionEntryWrite part e w) s = .next t ∧ t.mem = (s.setRegion part e.toNat (w &&& regionFields)).mem := by
  obtain ⟨f, hf, written⟩ := entryTaken_of_shotDown (w &&& regionFields) hs h
  refine ⟨_, exec_regionEntryWrite_of_free w hm hp, ?_⟩
  rw [written, shootDown_mem]
  refine (sameLines_of_rising hr part e.toNat hf).setRegion_mem _ _ ?_
  rw [partAt_modPartAt_self, hf, partAt_shootDown]

/-! ## The table that refutes the statement -/

/-- One unit of package 0 under key slot 0. -/
def keyedRegion : Region :=
  { base := 0, size := 65536, pkg := 0, rw := true, pinned := false, mirror := false, keyen := true, key := 0, token := 0, mbase := 0 }

/-- Partition 1 stands before partition 0 in the list, and an entry of each names the same keyed unit, whose first byte is 1. -/
def outOfOrder : State :=
  { State.reset with
    mem := [(0, 1)]
    pkgs := [(0, { boot := { released := true }, keys := [(0, some 0)] })]
    parts := [(1, { regions := [(0, encodeRegion keyedRegion)] }), (0, { regions := [(0, encodeRegion keyedRegion)] })] }

/-- The model's own invariant of states, which speaks of memory alone, holds of it. -/
theorem outOfOrder_inv : outOfOrder.Inv := by unfold State.Inv; decide

/-- It meets every hypothesis of a write of entry 0 of partition 1. -/
theorem outOfOrder_free : outOfOrder.managed = true ∧ outOfOrder.regionOf 1 0 = some keyedRegion ∧
    (outOfOrder.partAt 1).shoots = [] ∧ outOfOrder.shotDown 1 0 = true := by decide +kernel

/-- Written into the table as it stands, an entry of no region leaves the line, which partition 0's entry covers too. -/
theorem outOfOrder_setRegion_byte : (outOfOrder.setRegion 1 0 0).byte 0 = 1 := by decide +kernel

/-- The step first replaces the record of partition 1, and `Sp.put` drops the lower number that stands behind it: then nothing else covers the
line, and it is enciphered. -/
theorem outOfOrder_entryTaken_byte : (entryTaken outOfOrder 1 0 0).byte 0 = 216 := by decide +kernel

/-- Refutes O50: at `outOfOrder`, where nothing refuses the write of entry 0 of partition 1 and no access is outstanding, memory after the step
is not that of `State.setRegion`. -/
theorem not_tablesKeysAndOutsideAccesses : ¬ Obligations.TablesKeysAndOutsideAccesses := by
  rintro ⟨entries, -⟩
  obtain ⟨managed, region, shoots, shot⟩ := outOfOrder_free
  have free : ∀ r, outOfOrder.regionOf 1 (0 : BitVec 12).toNat = some r → r.pinned = false := by
    intro r hr
    obtain rfl : keyedRegion = r := Option.some.inj (region.symm.trans hr)
    rfl
  have zero : (0 : BitVec 512) &&& regionFields = 0 := BitVec.zero_and
  obtain ⟨-, -, taken⟩ := entries 1 0 0 outOfOrder
  rw [zero] at taken
  obtain ⟨t, ht, -, -, landed, -⟩ := taken managed (.inl free) shoots
  obtain ⟨-, -, hmem, -⟩ := landed shot
  have run := exec_regionEntryWrite_of_free (e := 0) 0 managed (.inl free)
  rw [zero, ht] at run
  obtain rfl : t = entryTaken outOfOrder 1 0 0 := Host.Outcome.next.inj run
  have same : (entryTaken outOfOrder 1 0 0).byte 0 = (outOfOrder.setRegion 1 0 0).byte 0 := congrArg (fun m => Sp.get 0 m 0) hmem
  rw [outOfOrder_entryTaken_byte, outOfOrder_setRegion_byte] at same
  exact absurd same (by decide)

end Sys2Proof.Proofs
end

section
/-! # States that agree, record by record, read alike -/

namespace Sys2Proof.Laws

open Sys2Proof.Machine

section
variable {u v : State} (h : Same u v)
include h

theorem Same.eq_cores : v = { u with cores := v.cores } := by
  have pod : { v with cores := [] } = { u with cores := [] } := h.pod
  exact congrArg (fun s : State => { s with cores := v.cores }) pod

theorem Same.partNo : v.partNo = u.partNo := by unfold State.partNo; rw [h.core]

theorem Same.part : v.part = u.part := by
  unfold State.part
  rw [h.partNo, h.eq_cores]
  rfl

theorem Same.wordHandle : v.wordHandle = u.wordHandle := by
  unfold State.wordHandle
  rw [h.cl, lane_of_apart h.pod]

theorem Same.mayReadSys (x : Nat) : v.mayReadSys x = u.mayReadSys x := by
  unfold State.mayReadSys State.privileged
  rw [h.part, h.core]

theorem Same.sysRead (x : Nat) : v.sysRead x = u.sysRead x := by
  unfold State.sysRead
  rw [h.core, h.eq_cores]
  rfl

theorem Same.recall : v.recall = u.recall := by
  unfold State.recall
  rw [h.core, lane_of_apart h.pod]

theorem Same.recordResult (d : Nat) (x : Option Word) : Same (u.recordResult d x) (v.recordResult d x) := by
  unfold State.recordResult
  rw [lane_of_apart h.pod]
  exact h.modCore _

theorem Same.room (q : QueueId) : v.room q = u.room q := by unfold State.room; rw [h.core]

theorem Same.place (a : Word) (n : Nat) : v.place a n = u.place a n := by
  unfold State.place
  rw [h.core, h.partNo, h.eq_cores]
  rfl

theorem Same.holds (t : Token) : v.holds t = u.holds t := by
  unfold State.holds
  rw [h.core, cur_of_apart h.pod]

theorem Same.exclusive (t : Token) : v.exclusive t = u.exclusive t := by
  unfold State.exclusive
  rw [h.holds]

theorem Same.mayUse (write : Bool) (r : Region) (a : Word) (n : Nat) : v.mayUse write r a n = u.mayUse write r a n := by
  simp only [State.mayUse, State.mayRead, State.mayWrite, State.readRight, State.writeRight, State.sendLeaves, h.part, h.core,
    h.holds, h.exclusive]

theorem Same.access (a : Word) (n al : Nat) (write : Bool) : v.access a n al write = u.access a n al write := by
  simp only [State.access, h.place, h.core, h.partNo, h.mayUse]
  rw [h.eq_cores]
  rfl

theorem Same.badFill (key n : Nat) : v.badFill key n = u.badFill key n := by
  have line : v.lineBad = u.lineBad := by
    funext a
    unfold State.lineBad State.cached
    rw [h.core, h.eq_cores]
    rfl
  unfold State.badFill
  rw [line]

theorem Same.ldBad (p : Place) (n : Nat) : v.ldBad p n = u.ldBad p n := by
  cases p with
  | home r key =>
    simp only [State.ldBad, h.badFill, h.cl, h.core]
    rw [h.eq_cores]
    rfl
  | area off => rfl

theorem Same.g (n : BitVec 5) : v.g n = u.g n := by unfold State.g; rw [h.cl]

theorem Same.enqueue (q : QueueId) (op : QOp) : Same (u.enqueue q op) (v.enqueue q op) := by
  unfold State.enqueue
  simp only [h.core, h.cl, h.wordHandle, lane_of_apart h.pod, warm_of_apart h.pod]
  exact h.modCore _

end

/-! ## What the tokens of a word leave alone (R85) -/

theorem ite_modTok_frame (p : Prop) [Decidable p] (c : Core) (i : Nat) (f : Fifo → Fifo) :
    ∃ tok, (if p then c.modTok i f else c) = { c with tok := tok } := by
  split
  · exact ⟨_, rfl⟩
  · exact ⟨c.tok, rfl⟩

theorem core_takeDeps (s : State) (dep : BitVec 4) : ∃ tok, (s.takeDeps dep).core = { s.core with tok := tok } := by
  simp only [State.takeDeps, core_modCore]
  generalize s.core = c
  obtain ⟨t₁, h₁⟩ := ite_modTok_frame (dep.getLsbD 3 = true) c (leftIn s.lane) (·.pop s.warm)
  rw [h₁]
  obtain ⟨t₂, h₂⟩ := ite_modTok_frame (dep.getLsbD 2 = true) { c with tok := t₁ } (rightIn s.lane) (·.pop s.warm)
  rw [h₂]
  obtain ⟨t₃, h₃⟩ := ite_modTok_frame (dep.getLsbD 1 = true) { c with tok := t₂ } (leftOut s.lane) (·.push s.warm 0)
  rw [h₃]
  exact ite_modTok_frame (dep.getLsbD 0 = true) { c with tok := t₃ } (rightOut s.lane) (·.push s.warm 0)

theorem room_takeDeps (s : State) (dep : BitVec 4) (q : QueueId) : (s.takeDeps dep).room q = s.room q := by
  obtain ⟨tok, h⟩ := core_takeDeps s dep
  unfold State.room
  rw [h]
  rfl

theorem partNo_takeDeps (s : State) (dep : BitVec 4) : (s.takeDeps dep).partNo = s.partNo := by
  obtain ⟨tok, h⟩ := core_takeDeps s dep
  unfold State.partNo
  rw [h]
  rfl

theorem place_takeDeps (s : State) (dep : BitVec 4) (a : Word) (n : Nat) : (s.takeDeps dep).place a n = s.place a n := by
  obtain ⟨tok, h⟩ := core_takeDeps s dep
  unfold State.place
  rw [h, partNo_takeDeps]
  rfl

theorem firstOut_takeDeps (s : State) (dep : BitVec 4) (p : Nat) (a : Word) : (s.takeDeps dep).firstOut p a = s.firstOut p a := rfl

theorem markNo_takeDeps (s : State) (dep : BitVec 4) : (s.takeDeps dep).core.markNo = s.core.markNo := by
  obtain ⟨tok, h⟩ := core_takeDeps s dep
  rw [h]

end Sys2Proof.Laws
end

section
/-! # O58: what module reset leaves (R25, R31, R39) -/

namespace Sys2Proof.Proofs

open Sys2Proof.Machine Sys2Proof.Laws

/-- What reset leaves of a record of the pod is what an unlisted key reads as. -/
theorem byte_reset (a : Nat) : State.reset.byte a = 0 := rfl
theorem pkgAt_reset (p : Nat) : State.reset.pkgAt p = {} := rfl
theorem dieAt_reset (d : Nat) : State.reset.dieAt d = {} := rfl
theorem coreAt_reset (k : Nat) : State.reset.coreAt k = Core.atReset k := rfl

theorem cluster_atReset (k : Nat) (l : Lane) : (Core.atReset k).cluster l = {} := by cases l <;> rfl

/-- A cluster at reset stands JOINED at 0 with empty registers; p0 alone is set (R16). -/
theorem cluster_default_values :
    let x : Cluster := {}
    x.pc = 0 ∧ x.split = false ∧ x.loops = [] ∧ ∀ n, x.rg n = 0 ∧ x.rc n = 0 ∧ x.rp n = decide (n = 0) := by
  refine ⟨rfl, rfl, rfl, fun n => ⟨ite_self 0, rfl, ?_⟩⟩
  by_cases h : n = 0 <;> simp [Cluster.rp, Sp.get, h]

/-- The quad rails of a die at reset stand within their range and, against VS, within the gap limit (R449). -/
theorem rail_default (q : Nat) : ({} : Die).rail q = 530 := rfl

/-- The cold state at reset (R25, R195, R295): no place of it is listed, so each reads as its unlisted value. -/
theorem cold_default_values :
    let m : Cold := {}
    (∀ i, m.lfsrAt i = seedLane 0 i) ∧ (∀ b a, m.read b a = 0 ∧ m.tagAt b a = 0) ∧
    (∀ t e, m.accAt t e = 0 ∧ (m.tileAt t).chkv = true) ∧ (∀ d i, m.lane d i = 0) ∧
    (∀ i, Sp.get 255 m.dly i = 255 ∧ Sp.get 255 m.tin i = 255 ∧ Sp.get 255 m.tout i = 255) ∧
    m.twin = 254 ∧ m.tmode = 0 ∧ m.mdepth = 0 ∧ ∀ n, Sp.get 0 m.ev n = 0 ∧ Sp.get 0 m.flag n = 0 ∧ Sp.get 0 m.chk n = 0 :=
  ⟨fun _ => rfl, fun _ _ => ⟨rfl, rfl⟩, fun _ _ => ⟨rfl, rfl⟩, fun _ _ => rfl, fun _ => ⟨rfl, rfl, rfl⟩, rfl, rfl, rfl,
    fun _ => ⟨rfl, rfl, rfl⟩⟩

/-- Settles O58: reset lists no core, die, package or byte, so each record is what an unlisted key reads as. -/
theorem resetLeavesTheSpecsValues : Obligations.ResetLeavesTheSpecsValues := by
  obtain ⟨lfsr, store, acc, lane, temporal, twin, tmode, mdepth, counters⟩ := cold_default_values
  refine ⟨rfl, rfl, rfl, byte_reset, fun p => ?_, fun d => ?_, fun k => ?_⟩
  · rw [pkgAt_reset]
    exact ⟨rfl, rfl, rfl, rfl⟩
  · refine ⟨rfl, fun q => ?_, rfl, rfl, rfl, rfl⟩
    rw [dieAt_reset, rail_default]
    decide
  · rw [coreAt_reset]
    refine ⟨rfl, rfl, rfl, rfl, rfl, rfl, rfl, rfl, rfl, rfl, rfl, rfl, rfl, rfl, rfl, rfl, rfl, rfl, rfl, rfl, lfsr, rfl, rfl, rfl, rfl, rfl,
      fun l => ?_, store, acc, lane, temporal, twin, tmode, mdepth, counters⟩
    rw [cluster_atReset]
    exact cluster_default_values

end Sys2Proof.Proofs
end

section
/-! # O8: system registers are read (R31 to R33, R151) -/

namespace Sys2Proof.Proofs

open Sys2Proof.Machine Sys2Proof.Laws

/-! ## The word -/

theorem recall_of_owes_nothing {s : State} (h : s.core.owes = {}) : s.recall = none := by
  unfold State.recall
  rw [h]
  rfl

section
variable {sy : BitVec 1} {d : BitVec 5} {x : BitVec 12} {s : State} (hr : s.regsReady [] [gR d] = true) (ho : s.core.owes = {})
include hr ho

/-- `srd`, whose register is there and which no replay run has a result for, by the three branches of R151. -/
theorem exec_srd_of_ready :
    exec (.srd sy d x) s =
      if sysAssigned x.toNat = false then .next (s.wordTrap 0x05 s.wordHandle)
      else if s.mayReadSys x.toNat = false then .next (s.wordTrap 0x06 s.wordHandle)
      else .next ((((s.takeDeps 0).recordResult d.toNat (some (s.sysRead x.toNat))).writeG d (s.sysRead x.toNat) 2).finish sy none) := by
  have same := same_takeDeps_zero s
  rw [exec_srd, execSrd, control_ready hr (depsReady_zero s), recalled, same.recall, recall_of_owes_nothing ho]
  simp only [same.wordHandle, same.mayReadSys, same.sysRead, doneWith, Bool.not_eq_true']
  split_ifs <;> rfl

theorem exec_srd_of_unassigned (hx : sysAssigned x.toNat = false) : exec (.srd sy d x) s = .next (s.wordTrap 0x05 s.wordHandle) := by
  rw [exec_srd_of_ready hr ho, if_pos hx]

theorem exec_srd_of_denied (hx : sysAssigned x.toNat = true) (hm : s.mayReadSys x.toNat = false) :
    exec (.srd sy d x) s = .next (s.wordTrap 0x06 s.wordHandle) := by
  rw [exec_srd_of_ready hr ho, if_neg (by simp [hx]), if_pos hm]

theorem exec_srd_writesG (hx : sysAssigned x.toNat = true) (hm : s.mayReadSys x.toNat = true) :
    WritesG (s.recordResult d.toNat (some (s.sysRead x.toNat))) (exec (.srd sy d x) s) sy d (s.sysRead x.toNat) 2 none := by
  rw [exec_srd_of_ready hr ho, if_neg (by simp [hx]), if_neg (by simp [hm])]
  exact writesG_of ((same_takeDeps_zero s).recordResult _ _).writes

end

/-! ## The registers -/

section
variable (s : State)

/-- The six registers from 0x020 on are the fields of the record slot TREC names (R390). -/
theorem sysRead_record {i : Nat} (hi : i < 6) :
    s.sysRead (0x020 + i) = BitVec.ofNat 64 (s.core.areaNat ((if s.core.nested then 0x100 else 0) + 8 * i) 8) := by
  interval_cases i <;> rfl

theorem trec_of_no_handler {c : Core} (h : c.inHandler = false) : c.trec = 0 := by simp [Core.trec, h]

theorem trec_of_handler {c : Core} (h : c.inHandler = true) (hn : c.nested = false) : c.trec = 0xFFF0000000000000 := by
  simp [Core.trec, h, hn]

/-- TSTAT as the sum of its three bits (R397). -/
theorem tstat_eq (c : Core) : c.tstat = (if c.accLost then 1 else 0) + (if c.nested then 2 else 0) + (if c.emulate then 4 else 0) := by
  unfold Core.tstat
  split_ifs <;> rfl

/-- What any caller may read, and what the P view alone may. -/
theorem mayReadSys_user {x : Nat}
    (h : x ∈ [0x000, 0x001, 0x002, 0x003, 0x004, 0x005, 0x008, 0x009, 0x00A, 0x00B, 0x00C, 0x00D, 0x010, 0x012, 0x013, 0x014, 0x015, 0x01A, 0x01B]) :
    s.mayReadSys x = true := by
  simp only [List.mem_cons, List.not_mem_nil, or_false] at h
  unfold State.mayReadSys
  rw [if_neg (by omega), if_neg (by omega)]
  simp only [decide_eq_true_eq]
  omega

theorem mayReadSys_privileged {x : Nat} (h : x ∈ [0x006, 0x018, 0x019, 0x020, 0x026, 0x029, 0x080, 0x0BF]) :
    s.mayReadSys x = s.core.inHandler := by
  simp only [List.mem_cons, List.not_mem_nil, or_false] at h
  unfold State.mayReadSys
  rw [if_neg (by omega), if_pos (by omega), State.privileged]

theorem mayWriteSys_privileged {x : Nat} (h : x ∈ [0x010, 0x014, 0x018, 0x019, 0x022, 0x027, 0x029, 0x080]) :
    s.mayWriteSys x = s.core.inHandler := by
  simp only [List.mem_cons, List.not_mem_nil, or_false] at h
  unfold State.mayWriteSys
  rw [if_neg (by omega), if_neg (by omega), if_pos (by omega), State.privileged]

theorem mayWriteSys_user {x : Nat} (h : x ∈ [0x012, 0x01A, 0x01B]) : s.mayWriteSys x = true := by
  simp only [List.mem_cons, List.not_mem_nil, or_false] at h
  unfold State.mayWriteSys
  rw [if_neg (by omega), if_pos (by omega)]

theorem mayWriteSys_nobody {x : Nat} (h : x ∈ [0x000, 0x008, 0x020, 0x026, 0x100]) : s.mayWriteSys x = false := by
  simp only [List.mem_cons, List.not_mem_nil, or_false] at h
  unfold State.mayWriteSys
  rw [if_neg (by omega), if_neg (by omega), if_neg (by omega)]

end

/-- Settles O8: the word by its three branches, then the table of R31 register by register. -/
theorem systemRegisterReads : Obligations.SystemRegisterReads := by
  refine ⟨fun sy d x s hr ho => ⟨exec_srd_of_unassigned hr ho, exec_srd_of_denied hr ho, exec_srd_writesG hr ho⟩, fun s => ?_⟩
  refine ⟨?_, ?_, ?_, ?_, ?_, rfl, rfl, rfl, rfl, ?_, ?_, rfl, rfl, rfl, rfl, fun i => sysRead_record s, rfl, rfl, rfl, rfl, rfl, rfl, rfl, rfl,
    rfl, rfl, rfl, trec_of_no_handler, trec_of_handler, tstat_eq _, fun x => mayReadSys_user s, rfl, rfl, fun x => mayReadSys_privileged s,
    fun x => mayWriteSys_privileged s, fun x => mayWriteSys_user s, fun x => mayWriteSys_nobody s⟩
  all_goals exact BitVec.ofNat_toNat ..

end Sys2Proof.Proofs
end

section
/-! # O15: loads, stores and markers enter their queues (R19, R131, R136 to R139) -/

namespace Sys2Proof.Proofs

open Sys2Proof.Machine Sys2Proof.Laws

/-! ## An entry in its queue -/

/-- Retaining an entry changes the replay window and nothing else of the core (R407). -/
theorem retain_frame (c : Core) (q : QueueId) (n : Nat) (v : Option Word) : ∃ w, c.retain q n v = { c with win := w } := by
  unfold Core.retain
  split
  · exact ⟨c.win, rfl⟩
  · split_ifs
    · exact ⟨c.win, rfl⟩
    · exact ⟨_, rfl⟩
    · exact ⟨_, rfl⟩

/-- The entry the current cluster places in queue `q`. -/
def entryFor (s : State) (q : QueueId) (op : QOp) : QEntry :=
  { seq := s.core.issued q + 1, lane := s.lane, warm := s.warm, word := s.wordHandle, tags := s.cl.tags, killed := s.cl.killed, held := none,
    level := s.core.level, op := op, joined := !s.cl.split }

/-- One more entry is counted as issued to queue `q`. -/
def countIssued (c : Core) (q : QueueId) : Core :=
  match q with
  | .load => { c with lqIssued := c.lqIssued + 1 }
  | .store => { c with sqIssued := c.sqIssued + 1 }
  | .engine => { c with eqIssued := c.eqIssued + 1 }
  | .string => c

/-- The core `c` with entry `e` at the tail of queue `q`, counted as issued, and the replay window `w`. -/
def withEntryAt (c : Core) (q : QueueId) (e : QEntry) (w : Option Window) : Core :=
  { countIssued (c.setQueue q (c.queue q ++ [e])) q with win := w }

theorem core_enqueue (s : State) (q : QueueId) (op : QOp) : ∃ w, (s.enqueue q op).core = withEntryAt s.core q (entryFor s q op) w := by
  have run : (s.enqueue q op).core =
      countIssued ((s.core.setQueue q (s.core.queue q ++ [entryFor s q op])).retain q (s.core.issued q + 1) op.stamp) q := by
    rw [State.enqueue, core_modCore]
    cases q <;> rfl
  obtain ⟨w, retained⟩ := retain_frame (s.core.setQueue q (s.core.queue q ++ [entryFor s q op])) q (s.core.issued q + 1) op.stamp
  refine ⟨w, ?_⟩
  rw [run, retained]
  cases q <;> rfl

section
variable (c : Core) {q : QueueId} (e : QEntry) (w : Option Window)

theorem withEntryAt_tail (hq : q ≠ .string) :
    (withEntryAt c q e w).queue q = c.queue q ++ [e] ∧ (withEntryAt c q e w).issued q = c.issued q + 1 := by
  cases q with
  | load | store | engine => exact ⟨rfl, rfl⟩
  | string => exact absurd rfl hq

theorem withEntryAt_other_queue {r : QueueId} (h : r ≠ q) :
    (withEntryAt c q e w).queue r = c.queue r ∧ (withEntryAt c q e w).issued r = c.issued r := by
  cases q with
  | load => cases r with | load => exact absurd rfl h | store | engine | string => exact ⟨rfl, rfl⟩
  | store => cases r with | store => exact absurd rfl h | load | engine | string => exact ⟨rfl, rfl⟩
  | engine => cases r with | engine => exact absurd rfl h | load | store | string => exact ⟨rfl, rfl⟩
  | string => exact ⟨rfl, rfl⟩

theorem withEntryAt_frame : (∀ l, (withEntryAt c q e w).cluster l = c.cluster l) ∧ (withEntryAt c q e w).cold = c.cold ∧
    (withEntryAt c q e w).l1d = c.l1d ∧ (withEntryAt c q e w).back = c.back := by
  cases q <;> exact ⟨fun l => by cases l <;> rfl, rfl, rfl, rfl⟩

end

/-- A kill marker in force for an earlier iteration of a loop retires what the cluster places (R131). -/
theorem killed_iff (x : Cluster) :
    x.killed = true ↔ ∃ e ∈ x.loops, ∃ i, e.kill = some i ∧ i < e.initial.toNat - e.remaining.toNat := by
  unfold Cluster.killed
  rw [List.any_eq_true]
  refine exists_congr fun e => and_congr_right fun _ => ?_
  cases e.kill with
  | none => simp
  | some i => simp

theorem enqueue_enters (q : QueueId) (op : QOp) (s : State) (hq : q ≠ .string) :
    let t := s.enqueue q op
    ∃ e, t.core.queue q = s.core.queue q ++ [e] ∧ e.op = op ∧ e.seq = s.core.issued q + 1 ∧ e.lane = s.lane ∧ e.warm = s.warm ∧
      e.word = s.cl.pc + BitVec.ofNat 64 (4 * laneIdx s.lane) ∧ e.held = none ∧
      e.level = s.core.level ∧ e.joined = !s.cl.split ∧
      e.tags = s.cl.loops.map (fun x => (x.inst, x.initial.toNat - x.remaining.toNat)) ∧
      (e.killed = true ↔ ∃ x ∈ s.cl.loops, ∃ i, x.kill = some i ∧ i < x.initial.toNat - x.remaining.toNat) ∧
      t.core.issued q = s.core.issued q + 1 ∧
      (∀ r, r ≠ q → t.core.queue r = s.core.queue r ∧ t.core.issued r = s.core.issued r) ∧
      (∀ l, t.core.cluster l = s.core.cluster l) ∧ t.core.cold = s.core.cold ∧ t.core.l1d = s.core.l1d ∧ t.core.back = s.core.back ∧
      t.apart = s.apart ∧ ∀ k, k ≠ s.cur → t.coreAt k = s.coreAt k := by
  intro t
  obtain ⟨w, core⟩ := core_enqueue s q op
  obtain ⟨queue, issued⟩ := withEntryAt_tail s.core (entryFor s q op) w hq
  obtain ⟨clusters, cold, l1d, back⟩ := withEntryAt_frame s.core (q := q) (entryFor s q op) w
  have others (r : QueueId) (h : r ≠ q) := withEntryAt_other_queue s.core (entryFor s q op) w h
  simp only [← core] at queue issued others clusters cold l1d back
  exact ⟨entryFor s q op, queue, rfl, rfl, rfl, rfl, rfl, rfl, rfl, rfl, rfl, killed_iff s.cl, issued, others, clusters, cold, l1d, back, rfl,
    fun k hk => coreAt_modCore_other s _ hk⟩

/-! ## `ld` and `st` (R136, R137) -/

/-- The bytes of an access by SZ[1:0] (R78). -/
theorem sizeOf_eq (z : BitVec 3) :
    Machine.sizeOf z = if z.toNat % 4 = 0 then 1 else if z.toNat % 4 = 1 then 2 else if z.toNat % 4 = 2 then 4 else 8 := by
  revert z
  decide

section
variable {sy : BitVec 1} {d a : BitVec 5} {z : BitVec 3} {i : BitVec 12} {s : State} {p : Place}

theorem exec_ld_awaitsG (hr : s.regsReady [gR a] [gR d] = true) (room : s.core.lq.length < 32)
    (pass : s.access (s.g a + i.signExtend 64) (Machine.sizeOf z) (Machine.sizeOf z) false = .pass p)
    (good : s.ldBad p (Machine.sizeOf z) = none) :
    AwaitsG (s.enqueue .load (.load (s.g a + i.signExtend 64) z s.lane d.toNat)) (exec (.ld sy d a z i) s) sy d := by
  have same := same_takeDeps_zero s
  have hroom : s.room .load = true := decide_eq_true room
  rw [exec_ld, execLd, control_ready hr (depsReady_zero s)]
  simp only [same.room, same.g, same.access, same.ldBad, hroom, sext, pass, good, Bool.not_true, Bool.false_eq_true, if_false]
  exact awaitsG_of (same.enqueue _ _).writes

theorem exec_st_passes (hr : s.regsReady [gR a, gR d] [] = true) (room : s.core.sq.length < 32)
    (pass : s.access (s.g a + i.signExtend 64) (Machine.sizeOf z) (Machine.sizeOf z) true = .pass p) :
    Passes (s.enqueue .store (.store (s.g a + i.signExtend 64) (Machine.sizeOf z) (s.g d))) (exec (.st sy d a z i) s) sy none := by
  have same := same_takeDeps_zero s
  have hroom : s.room .store = true := decide_eq_true room
  rw [exec_st, execSt, control_ready hr (depsReady_zero s)]
  simp only [same.room, same.g, same.access, hroom, sext, pass, Bool.not_true, Bool.false_eq_true, if_false]
  exact passes_of (same.enqueue _ _).writes

end

/-! ## `qmark` and the cache words (R138, R139) -/

section
variable {sy : BitVec 1} {dep : BitVec 4} {a b : BitVec 5} {s : State} (hl : s.core.lq.length < 32) (hs : s.core.sq.length < 32)
include hl hs

theorem room_of_length : s.room .load = true ∧ s.room .store = true := ⟨decide_eq_true hl, decide_eq_true hs⟩

theorem exec_qmark_passes (hi : s.Issues dep [] []) : Passes ((s.takeDeps dep).mark .marker) (exec (.qmark sy dep) s) sy none := by
  rw [exec_qmark, execQmark, control_ready hi.1 hi.2]
  simp only [room_takeDeps, (room_of_length hl hs).1, (room_of_length hl hs).2, and_self, if_true]
  exact passes_of (Writes.refl _)

theorem cacheWord_passes (hi : s.Issues dep [gR a, gR b] []) (inside : s.g b = 0 ∨ s.place (s.g a) (s.g b).toNat ≠ none) (fn : Nat) :
    Passes ((s.takeDeps dep).mark (.cmaint fn (s.g a) (s.g b))) (cacheWord sy dep a b fn s) sy none := by
  have inside' : ¬((s.g b).toNat ≠ 0 ∧ s.place (s.g a) (s.g b).toNat = none) := by
    rintro ⟨hn, hp⟩
    rcases inside with h | h
    · exact hn (by rw [h]; rfl)
    · exact h hp
  rw [cacheWord, control_ready hi.1 hi.2]
  simp only [g_takeDeps, place_takeDeps, room_takeDeps, if_neg inside', (room_of_length hl hs).1, (room_of_length hl hs).2, and_self, if_true]
  exact passes_of (Writes.refl _)

end

theorem cacheWord_traps {sy : BitVec 1} {dep : BitVec 4} {a b : BitVec 5} {s : State} (hi : s.Issues dep [gR a, gR b] []) (hb : s.g b ≠ 0)
    (outside : s.place (s.g a) (s.g b).toNat = none) (fn : Nat) :
    cacheWord sy dep a b fn s = .next (s.wordTrap 0x08 (s.firstOut s.partNo (s.g a))) := by
  have hn : (s.g b).toNat ≠ 0 := fun h => hb (toNat_eq_zero.1 h)
  rw [cacheWord, control_ready hi.1 hi.2]
  simp only [g_takeDeps, place_takeDeps, partNo_takeDeps, firstOut_takeDeps, if_pos (And.intro hn outside)]

/-- Settles O15: an entry by the core it leaves, then each word by the branch its hypotheses select. -/
theorem loadsStoresAndMarkersEnterTheirQueue : Obligations.LoadsStoresAndMarkersEnterTheirQueue := by
  refine ⟨enqueue_enters, fun sy d a z i s p hr => ?_, fun sy dep a b s hi hl hs => ?_⟩
  · simp only [← sizeOf_eq]
    exact ⟨exec_ld_awaitsG (regsReady_mono hr (by simp)), exec_st_passes (regsReady_mono hr (by simp))⟩
  · have marker : s.Issues dep [] [] := ⟨regsReady_mono hi.1 (by simp), hi.2⟩
    simp only [← markNo_takeDeps s dep]
    refine ⟨exec_qmark_passes hl hs marker, fun inside => ⟨cacheWord_passes hl hs hi inside 0, cacheWord_passes hl hs hi inside 1,
      cacheWord_passes hl hs hi inside 2⟩, fun hb outside i hm => ?_⟩
    simp only [List.mem_cons, List.not_mem_nil, or_false] at hm
    rcases hm with rfl | rfl | rfl
    · exact cacheWord_traps hi hb outside 0
    · exact cacheWord_traps hi hb outside 1
    · exact cacheWord_traps hi hb outside 2

end Sys2Proof.Proofs
end

section
/-! # O48: tasks start, launches complete, are killed or released (R362, R369, R370, R375) -/

namespace Sys2Proof.Proofs

open Sys2Proof.Machine Sys2Proof.Laws

/-! ## The two bind records of a core -/

section
variable (c : Core) (i : BitVec 1) (f : Slot → Slot)

theorem one_sub_slot : 1 - i = i + 1 := by revert i; decide

@[simp] theorem slotAt_modSlotAt_self : (c.modSlotAt i f).slotAt i = f (c.slotAt i) := by
  unfold Core.modSlotAt Core.slotAt
  split <;> rfl

theorem slotAt_modSlotAt_other {j : BitVec 1} (h : j ≠ i) : (c.modSlotAt i f).slotAt j = c.slotAt j := by
  unfold Core.modSlotAt Core.slotAt
  split_ifs with hi hj
  · exact absurd (hi.trans hj.symm) h
  · rfl
  · rfl
  · exact absurd (by revert i j; decide) h

@[simp] theorem run_modSlotAt : (c.modSlotAt i f).run = c.run := by
  unfold Core.modSlotAt
  split <;> rfl

end

/-- The core once the record in its slot `i`, whose CRC fails, is treated as EMPTY (R411). -/
def withoutRecord (i : BitVec 1) (c : Core) : Core := (if c.run = some i then c.clearTask else c).modSlotAt i fun _ => {}

/-- The core once the task in its slot `i` has ended; its cold store is clear at `clear` (R369). -/
def withEnded (i : BitVec 1) (clear : Nat) (c : Core) : Core :=
  (if c.run = some i then { c.clearTask with clearAt := clear } else c).modSlotAt i fun x => { x with state := .ended }

/-- From `c` to `d` the task in slot `i` runs no more, and the other record stands. -/
structure StopsOnly (i : BitVec 1) (c d : Core) : Prop where
  stops : d.run ≠ some i
  others : ∀ j, j ≠ i → d.slotAt j = c.slotAt j

theorem stopsOnly_of_cleared {i : BitVec 1} {c x : Core} (f : Slot → Slot) (hr : x.run = none) (hs : ∀ j, x.slotAt j = c.slotAt j) :
    StopsOnly i c ((if c.run = some i then x else c).modSlotAt i f) := by
  refine ⟨?_, fun j hj => ?_⟩
  · rw [run_modSlotAt]
    split_ifs with h
    · simp [hr]
    · exact h
  · rw [slotAt_modSlotAt_other _ _ _ hj]
    split_ifs
    · exact hs j
    · rfl

theorem withoutRecord_stopsOnly (i : BitVec 1) (c : Core) : StopsOnly i c (withoutRecord i c) := stopsOnly_of_cleared _ rfl fun _ => rfl

theorem withEnded_stopsOnly (i : BitVec 1) (clear : Nat) (c : Core) : StopsOnly i c (withEnded i clear c) :=
  stopsOnly_of_cleared _ rfl fun _ => rfl

@[simp] theorem withoutRecord_slotAt (i : BitVec 1) (c : Core) : (withoutRecord i c).slotAt i = {} := slotAt_modSlotAt_self ..

@[simp] theorem withEnded_state (i : BitVec 1) (clear : Nat) (c : Core) : ((withEnded i clear c).slotAt i).state = .ended := by
  unfold withEnded
  rw [slotAt_modSlotAt_self]

/-! ## A record whose CRC fails (R369, R411) -/

@[simp] theorem tell_cores (s : State) (p b : Nat) (e : MemError) (m : Bool) : (s.tell p b e m).cores = s.cores := by
  unfold State.tell
  split <;> rfl

@[simp] theorem tell_parts (s : State) (p b : Nat) (e : MemError) (m : Bool) : (s.tell p b e m).parts = s.parts := by
  unfold State.tell
  split <;> rfl

@[simp] theorem tell_cur (s : State) (p b : Nat) (e : MemError) (m : Bool) : (s.tell p b e m).cur = s.cur := by
  unfold State.tell
  split <;> rfl

@[simp] theorem logDie_cores (s : State) (d : Nat) (e : MemError) (m : Bool) : (s.logDie d e m).cores = s.cores := tell_cores ..
@[simp] theorem logDie_parts (s : State) (d : Nat) (e : MemError) (m : Bool) : (s.logDie d e m).parts = s.parts := tell_parts ..
@[simp] theorem logDie_cur (s : State) (d : Nat) (e : MemError) (m : Bool) : (s.logDie d e m).cur = s.cur := tell_cur ..
@[simp] theorem logDie_mem (s : State) (d : Nat) (e : MemError) (m : Bool) : (s.logDie d e m).mem = s.mem := tell_mem ..

/-- What is logged of the record in slot `i` of core `k`, with the CRC found in it. -/
def badRecord (k : Nat) (i : BitVec 1) (crc : BitVec 32) : MemError :=
  { source := 8, uncorrectable := true, addr := word (k % 64 * 2 + i.toNat), phys := BitVec.ofNat 8 k, owner := 0, syndrome := word crc.toNat }

/-- The launch in a partition's table has lost a bind record. -/
def withLostRecord (launch : Nat) (p : Part) : Part :=
  { p with launches := p.launches.map fun l => if l.id = launch then { l with lost := true } else l }

section
variable {s : State} {k : Nat} {i : BitVec 1} {go : State → State}

theorem checked_of_ok (h : ((s.coreAt k).slotAt i).badCrc = none) : s.checked k i go = go s := by
  unfold State.checked
  dsimp only
  rw [h]

theorem checked_of_bad {crc : BitVec 32} (h : ((s.coreAt k).slotAt i).badCrc = some crc) :
    s.checked k i go = ((s.logDie (dieOf k) (badRecord k i crc) false).modPartAt ((s.coreAt k).slotAt i).part
      (withLostRecord ((s.coreAt k).slotAt i).launch)).modCoreAt k (withoutRecord i) := by
  unfold State.checked
  dsimp only
  rw [h]
  rfl

end

/-! ## What leaves the bind records and the running tasks alone -/

/-- From `s` to `t` every bind record stands, and what runs where. -/
structure SlotsKept (s t : State) : Prop where
  cur : t.cur = s.cur
  slotAt : ∀ k i, (t.coreAt k).slotAt i = (s.coreAt k).slotAt i
  run : ∀ k, (t.coreAt k).run = (s.coreAt k).run

namespace SlotsKept

theorem refl (s : State) : SlotsKept s s := ⟨rfl, fun _ _ => rfl, fun _ => rfl⟩

theorem trans {s t u : State} (h : SlotsKept s t) (g : SlotsKept t u) : SlotsKept s u :=
  ⟨g.cur.trans h.cur, fun k i => (g.slotAt k i).trans (h.slotAt k i), fun k => (g.run k).trans (h.run k)⟩

theorem of_cores {s t : State} (cur : t.cur = s.cur) (cores : t.cores = s.cores) : SlotsKept s t := by
  have at_ (k : Nat) : t.coreAt k = s.coreAt k := congrArg (fun m => Sp.get (Core.atReset k) m k) cores
  exact ⟨cur, fun k i => by rw [at_], fun k => by rw [at_]⟩

theorem modCoreAt (s : State) (k : Nat) {f : Core → Core} (slots : ∀ c i, (f c).slotAt i = c.slotAt i) (run : ∀ c, (f c).run = c.run) :
    SlotsKept s (s.modCoreAt k f) := by
  refine ⟨rfl, fun j i => ?_, fun j => ?_⟩
  all_goals
    rw [coreAt_modCoreAt]
    split_ifs with h
  · rw [slots, h]
  · rfl
  · rw [run, h]
  · rfl

theorem foldl {α : Type} {f : State → α → State} (h : ∀ s a, SlotsKept s (f s a)) (l : List α) (s : State) : SlotsKept s (l.foldl f s) := by
  induction l generalizing s with
  | nil => exact refl s
  | cons a rest ih => exact (h s a).trans (ih _)

theorem modPartAt (s : State) (p : Nat) (f : Part → Part) : SlotsKept s (s.modPartAt p f) := of_cores rfl rfl

theorem modToken (s : State) (p head : Nat) (f : Token → Token) : SlotsKept s (s.modToken p head f) := modPartAt ..

theorem logDie (s : State) (d : Nat) (e : MemError) (m : Bool) : SlotsKept s (s.logDie d e m) := of_cores (logDie_cur ..) (logDie_cores ..)

theorem liveByte (s : State) (w key : Nat) (b : Byte) : SlotsKept s (s.liveByte w key b) := by
  unfold State.liveByte
  split <;> exact of_cores rfl rfl

theorem homeByte (s : State) (key : Nat) (b : Byte) : SlotsKept s (s.homeByte key b) := by
  unfold State.homeByte State.partByte
  dsimp only
  split
  · exact (liveByte ..).trans (liveByte ..)
  · exact liveByte ..

theorem lineHome (s : State) (l : Line) : SlotsKept s (s.lineHome l) := by
  refine foldl (fun s i => ?_) _ s
  split
  · exact homeByte ..
  · exact refl s

theorem awaitMirror (s : State) (key issued : Nat) (joined : Bool) : SlotsKept s (s.awaitMirror key issued joined) := by
  unfold State.awaitMirror
  split
  · exact modCoreAt s s.cur (fun _ _ => rfl) fun _ => rfl
  · exact refl s

theorem writeBack (s : State) (issued : Nat) (l : Line) : SlotsKept s (s.writeBack issued l) := by
  unfold State.writeBack
  split_ifs
  · exact refl s
  · exact logDie ..
  · exact (lineHome s l).trans (awaitMirror ..)

theorem cleanLines (s : State) (issued : Nat) (sel : Line → Bool) : SlotsKept s (s.cleanLines issued sel) := by
  unfold State.cleanLines State.modCore
  exact (foldl (fun s l => writeBack s issued l) _ s).trans (modCoreAt _ _ (fun _ _ => rfl) fun _ => rfl)

theorem onCore (s : State) (k : Nat) {f : State → State} (h : ∀ t, SlotsKept t (f t)) : SlotsKept s (s.onCore k f) :=
  ⟨rfl, (h { s with cur := k }).slotAt, (h { s with cur := k }).run⟩

theorem tokenArrives (s : State) (k : Nat) : SlotsKept s (s.tokenArrives k) := by
  refine SlotsKept.trans (modCoreAt s k (fun c i => ?_) fun c => ?_) (modCoreAt _ k (fun _ _ => rfl) fun _ => rfl)
  all_goals
    dsimp only
    split <;> rfl

theorem settleSpans (s : State) (k : Nat) (i : BitVec 1) (failed : Bool) : SlotsKept s (s.settleSpans k i failed) := by
  refine SlotsKept.trans (SlotsKept.trans ?_ (modCoreAt _ k (fun c j => ?_) fun c => ?_)) (foldl (fun s x => ?_) _ _)
  · exact (foldl (fun s h => modToken s _ h _) _ s).trans (modPartAt ..)
  · split <;> rfl
  · split <;> rfl
  · split
    · exact tokenArrives ..
    · exact refl s

end SlotsKept

/-! ## A task ends (R369, R370) -/

/-- What the end of the task in slot `i` of core `k` does to the bind records. -/
structure EndsTask (s t : State) (k : Nat) (i : BitVec 1) : Prop where
  cur : t.cur = s.cur
  ended : ((s.coreAt k).slotAt i).badCrc = none → ((t.coreAt k).slotAt i).state = .ended
  dropped : ((s.coreAt k).slotAt i).badCrc ≠ none → (t.coreAt k).slotAt i = {}
  stops : (t.coreAt k).run ≠ some i
  others : ∀ k' i', ¬(k' = k ∧ i' = i) → (t.coreAt k').slotAt i' = (s.coreAt k').slotAt i'

/-- A change of one core that stops its task in slot `i`. -/
theorem others_of_stopsOnly {s : State} {k : Nat} {i : BitVec 1} {f : Core → Core} (h : StopsOnly i (s.coreAt k) (f (s.coreAt k))) :
    ∀ k' i', ¬(k' = k ∧ i' = i) → ((s.modCoreAt k f).coreAt k').slotAt i' = (s.coreAt k').slotAt i' := by
  intro k' i' hne
  rw [coreAt_modCoreAt]
  split_ifs with hk
  · subst hk
    exact h.others i' fun hi => hne ⟨rfl, hi⟩
  · rfl

theorem endTask_endsTask (s : State) (k : Nat) (i : BitVec 1) (status : BitVec 8) (cause : BitVec 16) :
    EndsTask s (s.endTask k i status cause) k i := by
  unfold State.endTask
  dsimp only
  -- noting how the task ended leaves the cores alone
  generalize hu : (s.draw 255).2.modPartAt ((s.coreAt k).slotAt i).part _ = u
  have core (k : Nat) : u.coreAt k = s.coreAt k := by rw [← hu]; rfl
  have cur : u.cur = s.cur := by rw [← hu]; rfl
  cases hb : ((s.coreAt k).slotAt i).badCrc with
  | none =>
    rw [checked_of_ok (by rw [core]; exact hb)]
    have stop := withEnded_stopsOnly i (s.clock + 1 + (s.draw 255).1) (u.coreAt k)
    refine ⟨cur, fun _ => ?_, fun h => absurd hb h, ?_, fun k' i' h => ?_⟩
    · rw [coreAt_modCoreAt_self]
      exact withEnded_state i _ _
    · rw [coreAt_modCoreAt_self]
      exact stop.stops
    · rw [← core]
      exact others_of_stopsOnly stop k' i' h
  | some crc =>
    rw [checked_of_bad (by rw [core]; exact hb)]
    have kept : SlotsKept s ((u.logDie (dieOf k) (badRecord k i crc) false).modPartAt ((u.coreAt k).slotAt i).part
        (withLostRecord ((u.coreAt k).slotAt i).launch)) :=
      SlotsKept.of_cores ((logDie_cur ..).trans cur) ((logDie_cores ..).trans (by rw [← hu]; rfl))
    refine ⟨kept.cur, fun h => (by rw [hb] at h; cases h), fun _ => ?_, ?_, fun k' i' h => ?_⟩
    · rw [coreAt_modCoreAt_self, withoutRecord_slotAt]
    · rw [coreAt_modCoreAt_self]
      exact (withoutRecord_stopsOnly i _).stops
    · exact (others_of_stopsOnly (withoutRecord_stopsOnly i _) k' i' h).trans (kept.slotAt k' i')

theorem EndsTask.of_kept {s u t : State} {k : Nat} {i : BitVec 1} (h : SlotsKept s u) (e : EndsTask u t k i) : EndsTask s t k i where
  cur := e.cur.trans h.cur
  ended hb := e.ended (by rw [h.slotAt]; exact hb)
  dropped hb := e.dropped (by rw [h.slotAt]; exact hb)
  stops := e.stops
  others k' i' hne := (e.others k' i' hne).trans (h.slotAt k' i')

theorem endWritten_endsTask (s : State) (k : Nat) (i : BitVec 1) (status : BitVec 8) (cause : BitVec 16) :
    EndsTask s (s.endWritten k i status cause) k i := by
  have written : SlotsKept s (if (s.coreAt k).run = some i then s.onCore k fun t => t.cleanLines t.warm fun _ => true else s) := by
    split
    · exact SlotsKept.onCore s k fun t => SlotsKept.cleanLines ..
    · exact SlotsKept.refl s
  exact EndsTask.of_kept (written.trans (SlotsKept.settleSpans ..)) (endTask_endsTask ..)

/-- A task that has ended is bound no more. -/
theorem EndsTask.not_bound {s t : State} {k : Nat} {i : BitVec 1} (e : EndsTask s t k i) : ((t.coreAt k).slotAt i).state ≠ .bound := by
  cases hb : ((s.coreAt k).slotAt i).badCrc with
  | none => rw [e.ended hb]; decide
  | some crc => rw [e.dropped (by rw [hb]; exact Option.some_ne_none _)]; decide

/-! ## A launch ends (R370) -/

section
variable (status : BitVec 8) (cause : BitVec 16)

theorem endSlot_of_live (s : State) {x : Nat × BitVec 1 × Slot} (h : x.2.2.live = true) :
    s.endSlot x status cause = s.endWritten x.1 x.2.1 status cause := by
  unfold State.endSlot
  rw [h]
  rfl

/-- The end of one task binds nothing. -/
theorem endSlot_not_bound (s : State) (x : Nat × BitVec 1 × Slot) {k : Nat} {i : BitVec 1} (h : ((s.coreAt k).slotAt i).state ≠ .bound) :
    (((s.endSlot x status cause).coreAt k).slotAt i).state ≠ .bound := by
  cases hl : x.2.2.live with
  | false => unfold State.endSlot; rw [hl]; exact h
  | true =>
    have e := endWritten_endsTask s x.1 x.2.1 status cause
    rw [endSlot_of_live status cause s hl]
    by_cases hx : k = x.1 ∧ i = x.2.1
    · rw [hx.1, hx.2]; exact e.not_bound
    · rw [e.others k i hx]; exact h

theorem endSlot_cur (s : State) (x : Nat × BitVec 1 × Slot) : (s.endSlot x status cause).cur = s.cur := by
  cases hl : x.2.2.live with
  | false => unfold State.endSlot; rw [hl]; rfl
  | true => rw [endSlot_of_live status cause s hl]; exact (endWritten_endsTask ..).cur

theorem endSlots_cur (xs : List (Nat × BitVec 1 × Slot)) (s : State) :
    (xs.foldl (fun s x => s.endSlot x status cause) s).cur = s.cur := by
  induction xs generalizing s with
  | nil => rfl
  | cons x rest ih => exact (ih _).trans (endSlot_cur ..)

/-- Among tasks that are ended one after the other, a live one is bound no more. -/
theorem endSlots_not_bound (xs : List (Nat × BitVec 1 × Slot)) (s : State) {k : Nat} {i : BitVec 1}
    (h : ((s.coreAt k).slotAt i).state ≠ .bound ∨ ∃ sl, sl.live = true ∧ (k, i, sl) ∈ xs) :
    (((xs.foldl (fun s x => s.endSlot x status cause) s).coreAt k).slotAt i).state ≠ .bound := by
  induction xs generalizing s with
  | nil =>
    rcases h with h | ⟨sl, -, hm⟩
    · exact h
    · cases hm
  | cons x rest ih =>
    refine ih (s.endSlot x status cause) ?_
    rcases h with h | ⟨sl, hl, hm⟩
    · exact .inl (endSlot_not_bound status cause s x h)
    · rcases List.mem_cons.1 hm with rfl | hm
      · refine .inl ?_
        rw [endSlot_of_live status cause s hl]
        exact (endWritten_endsTask ..).not_bound
      · exact .inr ⟨sl, hl, hm⟩

end

/-- A key that does not read as the unlisted value is listed. -/
theorem mem_of_get_ne {α : Type} {d : α} {m : Sp α} {k : Nat} (h : Sp.get d m k ≠ d) : (k, Sp.get d m k) ∈ m := by
  induction m with
  | nil => exact absurd rfl h
  | cons x rest ih =>
    obtain ⟨i, v⟩ := x
    simp only [Sp.get] at h ⊢
    split_ifs at h ⊢ with h₁ h₂
    · exact absurd rfl h
    · rw [h₂]; exact List.mem_cons_self
    · exact List.mem_cons_of_mem _ (ih h)

/-- A bind record that stands in a core is among the slots of its launch. -/
theorem mem_slotsOf {s : State} {k : Nat} {i : BitVec 1} (hs : ((s.coreAt k).slotAt i).state ≠ .empty)
    (hc : ((s.coreAt k).slotAt i).copy = false) :
    (k, i, (s.coreAt k).slotAt i) ∈ s.slotsOf ((s.coreAt k).slotAt i).part ((s.coreAt k).slotAt i).launch := by
  have listed : (k, s.coreAt k) ∈ s.cores := by
    refine mem_of_get_ne fun h => hs ?_
    have reset : s.coreAt k = Core.atReset k := h
    rw [reset]
    unfold Core.slotAt
    split <;> rfl
  refine List.mem_flatMap.2 ⟨_, listed, List.mem_filterMap.2 ⟨i, (show ∀ i : BitVec 1, i ∈ [0, 1] by decide) i, ?_⟩⟩
  simp [hs, hc]

theorem endLaunch_not_bound {s : State} {k : Nat} {i : BitVec 1} (status : BitVec 8) (cause : BitVec 16)
    (hs : ((s.coreAt k).slotAt i).state = .bound) (hc : ((s.coreAt k).slotAt i).copy = false) :
    (((s.endLaunch ((s.coreAt k).slotAt i).part ((s.coreAt k).slotAt i).launch status cause).coreAt k).slotAt i).state ≠ .bound :=
  endSlots_not_bound status cause _ s (.inr ⟨_, by simp [Slot.live, hs, hc], mem_slotsOf (by rw [hs]; decide) hc⟩)

/-! ## A task starts (R37, R38, R369) -/

theorem id_of_launch {p : Part} {n : Nat} {l : Launch} (h : p.launch n = some l) : l.id = n := by
  simpa using List.find?_some h

/-- The task in slot `i` begins where its core admits it. -/
def beginIfAdmitted (i : BitVec 1) (s : State) : State :=
  if s.admits i then s.checked s.cur i fun s => s.modCore fun c => c.begin i (s.cur % 4) s.warm (s.pkgAt (pkgOf s.cur)).ceilZero else s

/-- Nothing but the core keeps the task of slot `sl` from starting: it is of no launch in the tables, or of one that does not hold it. -/
def Free (s : State) (sl : Slot) : Prop :=
  s.launchOf sl = none ∨ ∃ l, s.launchOf sl = some l ∧ s.gangSaved sl = false ∧ s.nodeBound sl.part l = true ∧ l.held = false

section
variable {i : BitVec 1} {s : State}

theorem exec_taskStart_of_not_due (h : (s.core.slotAt i).state ≠ .bound ∨ startReached (s.core.slotAt i) s.scnt = false) :
    exec (.taskStart i) s = .next s := by
  rw [exec_taskStart, execTaskStart]
  exact if_pos (h.imp_right fun h => by rw [h]; rfl)

theorem exec_taskStart_of_free (hb : (s.core.slotAt i).state = .bound) (hr : startReached (s.core.slotAt i) s.scnt = true)
    (free : Free s (s.core.slotAt i)) : exec (.taskStart i) s = .next (beginIfAdmitted i s) := by
  rw [exec_taskStart, execTaskStart]
  dsimp only
  rw [if_neg (by simp [hb, hr])]
  rcases free with h | ⟨l, h, gang, node, held⟩
  · rw [h]; rfl
  · rw [h]
    dsimp only
    rw [if_neg (by simp [gang, node, held]), if_pos (by simp [held])]
    rfl

theorem exec_taskStart_of_kept {l : Launch} (h : s.launchOf (s.core.slotAt i) = some l)
    (kept : s.gangSaved (s.core.slotAt i) = true ∨ s.nodeBound (s.core.slotAt i).part l = false ∨ (l.held = true ∧ l.stamp = 0xFFFFFFFF)) :
    exec (.taskStart i) s = .next s := by
  rw [exec_taskStart, execTaskStart, h]
  dsimp only
  rw [if_pos (kept.imp_right (Or.imp_left fun h => by rw [h]; rfl)), ite_self]

/-- The task in slot `i` is one of `l`, a held graph node with a stamp; it has come to its START, and its gang does not keep it (R371, R375). -/
structure HeldAtStart (s : State) (i : BitVec 1) (l : Launch) : Prop where
  bound : (s.core.slotAt i).state = .bound
  reached : startReached (s.core.slotAt i) s.scnt = true
  launch : s.launchOf (s.core.slotAt i) = some l
  gang : s.gangSaved (s.core.slotAt i) = false
  node : s.nodeBound (s.core.slotAt i).part l = true
  held : l.held = true
  stamp : l.stamp ≠ 0xFFFFFFFF

/-- Such a node does what its predecessors allow; where its task is bound still, it goes on to begin. -/
theorem exec_taskStart_of_held {l : Launch} (h : HeldAtStart s i l) :
    exec (.taskStart i) s =
      if ((s.applyGate (s.core.slotAt i).part l).core.slotAt i).state = .bound then
        .next (beginIfAdmitted i (s.applyGate (s.core.slotAt i).part l))
      else .next (s.applyGate (s.core.slotAt i).part l) := by
  rw [exec_taskStart, execTaskStart]
  dsimp only
  rw [if_neg (by simp [h.bound, h.reached]), h.launch]
  dsimp only
  rw [if_neg (by simp [h.gang, h.node, h.stamp]), if_neg (by simp [h.held])]
  rfl

/-- A node whose launch ends as its gate is applied does not begin. -/
theorem exec_taskStart_of_ending {l : Launch} {status : BitVec 8} {cause : BitVec 16} (h : HeldAtStart s i l)
    (hc : (s.core.slotAt i).copy = false) (ends : s.applyGate (s.core.slotAt i).part l = s.endLaunch (s.core.slotAt i).part l.id status cause) :
    exec (.taskStart i) s = .next (s.endLaunch (s.core.slotAt i).part l.id status cause) := by
  have ended : ((s.endLaunch (s.core.slotAt i).part l.id status cause).core.slotAt i).state ≠ .bound := by
    have cur : (s.endLaunch (s.core.slotAt i).part l.id status cause).cur = s.cur := endSlots_cur ..
    rw [State.core, cur, id_of_launch h.launch]
    exact endLaunch_not_bound status cause h.bound hc
  rw [exec_taskStart_of_held h, ends, if_neg ended]

/-! ### What admits a task -/

theorem admits_eq_false_of (h : s.core.run ≠ none ∨ s.core.failed = true ∨ s.closed s.cur = true ∨ s.clock < s.core.clearAt ∨
    ((s.core.slotAt (i + 1)).state = .saved ∧ (s.core.slotAt (i + 1)).copy = false ∧ (s.core.slotAt i).prio ≤ (s.core.slotAt (i + 1)).prio)) :
    s.admits i = false := by
  unfold State.admits
  rw [one_sub_slot]
  rcases h with h | h | h | h | ⟨saved, copy, prio⟩
  · simp [h]
  · simp [h]
  · simp [h]
  · simp [Nat.not_le.2 h]
  · simp only [saved, copy, prio, decide_true, Bool.not_false, Bool.and_true, Bool.not_true, Bool.and_false]

theorem partCores_modLaunch (part id : Nat) (f : Launch → Launch) (p pkg : Nat) :
    (s.modLaunch part id f).partCores p pkg = s.partCores p pkg := by
  unfold State.partCores State.modLaunch
  rw [partAt_modPartAt]
  split_ifs with h
  · rw [h]; rfl
  · rfl

theorem admits_modLaunch (part id : Nat) (f : Launch → Launch) : (s.modLaunch part id f).admits i = s.admits i := by
  have closed : (s.modLaunch part id f).closed s.cur = s.closed s.cur := by
    unfold State.closed State.ring
    simp only [partCores_modLaunch]
    rfl
  unfold State.admits
  rw [show (s.modLaunch part id f).cur = s.cur from rfl, closed]
  rfl

theorem beginIfAdmitted_of_denied (h : s.admits i = false) : beginIfAdmitted i s = s := if_neg (by simp [h])

theorem exec_taskStart_of_denied (free : Free s (s.core.slotAt i)) (h : s.admits i = false) : exec (.taskStart i) s = .next s := by
  by_cases due : (s.core.slotAt i).state = .bound ∧ startReached (s.core.slotAt i) s.scnt = true
  · rw [exec_taskStart_of_free due.1 due.2 free, beginIfAdmitted_of_denied h]
  · exact exec_taskStart_of_not_due ((Decidable.not_and_iff_not_or_not.1 due).imp_right (Bool.eq_false_iff.2 ·))

end

/-! ### The task that begins (R25, R37, R38) -/

/-- A cluster at the entry of a kernel: PC at CODE, ARGS in g1, TASK_ID in g2, GCOUNT in g3, the message payload in g4 (R38). -/
def entryCluster (sl : Slot) (warm : Nat) : Cluster :=
  ((((({ pc := sl.code, readyAt := max warm (sl.ready / 16) } : Cluster).wg 1 sl.arg).wg 2 (word sl.taskId.toNat)).wg 3 (word sl.gcount.toNat)).wg 4
    sl.payload)

theorem entryCluster_values (sl : Slot) (warm : Nat) :
    let x := entryCluster sl warm
    x.pc = sl.code ∧ x.readyAt = max warm (sl.ready / 16) ∧ x.split = false ∧ x.loops = [] ∧
    (∀ n, x.rg n = if n = 1 then sl.arg else if n = 2 then sl.taskId.setWidth 64 else
      if n = 3 then sl.gcount.setWidth 64 else if n = 4 then sl.payload else 0) ∧ ∀ n, x.rc n = 0 := by
  have bare (n : Nat) : ({ pc := sl.code, readyAt := max warm (sl.ready / 16) } : Cluster).rg n = 0 := ite_self 0
  have taskId : word sl.taskId.toNat = sl.taskId.setWidth 64 := BitVec.ofNat_toNat ..
  have gcount : word sl.gcount.toNat = sl.gcount.setWidth 64 := BitVec.ofNat_toNat ..
  refine ⟨?_, ?_, ?_, ?_, fun n => ?_, fun n => ?_⟩
  · simp only [entryCluster, wg_pc]
  · simp only [entryCluster, wg_readyAt]
  · simp only [entryCluster, wg_split]
  · simp only [entryCluster, wg_loops]
  · simp only [entryCluster, rg_wg, bare, taskId, gcount]
    match n with
    | 0 | 1 | 2 | 3 | 4 => rfl
    | n + 5 => rfl
  · simp only [entryCluster, rc_wg]
    rfl

/-- The core of a task that begins in slot `i`: the task runs with its four clusters at the kernel's entry, the other record stands, and warm
and cold state are those of a fresh task. -/
theorem begin_values (c : Core) (i : BitVec 1) (quadCore warm : Nat) :
    let d := c.begin i quadCore warm false
    let sl := c.slotAt i
    d.run = some i ∧ (d.slotAt i).state = .running ∧ d.slotAt (i + 1) = c.slotAt (i + 1) ∧
    d.cold = freshCold sl.coreId.toNat ∧ d.heatBud = 48000000 ∧ d.mcmask = BitVec.ofNat 64 (2 ^ quadCore) ∧
    d.lq = [] ∧ d.sq = [] ∧ d.eq = [] ∧ d.str = {} ∧ d.inHandler = false ∧ ∀ l, d.cluster l = entryCluster sl warm := by
  obtain rfl | rfl := (show ∀ i : BitVec 1, i = 0 ∨ i = 1 by decide) i
  all_goals exact ⟨rfl, rfl, rfl, rfl, rfl, rfl, rfl, rfl, rfl, rfl, rfl, fun l => by cases l <;> rfl⟩

section
variable {i : BitVec 1} {s : State} (hb : (s.core.slotAt i).state = .bound) (hr : startReached (s.core.slotAt i) s.scnt = true)
  (admitted : s.admits i = true) (free : Free s (s.core.slotAt i))
include hb hr admitted free

theorem exec_taskStart_begins (hc : (s.core.slotAt i).badCrc = none) (ceil : (s.pkgAt (s.cur / 256)).ceilZero = false) :
    exec (.taskStart i) s = .next (s.modCore fun c => c.begin i (s.cur % 4) s.warm false) := by
  rw [exec_taskStart_of_free hb hr free, beginIfAdmitted, if_pos admitted, checked_of_ok hc]
  simp only [pkgOf, ceil]

theorem exec_taskStart_drops {crc : BitVec 32} (hc : (s.core.slotAt i).badCrc = some crc) :
    exec (.taskStart i) s = .next (((s.logDie (s.cur / 64) (badRecord s.cur i crc) false).modPartAt (s.core.slotAt i).part
      (withLostRecord (s.core.slotAt i).launch)).modCoreAt s.cur (withoutRecord i)) := by
  rw [exec_taskStart_of_free hb hr free, beginIfAdmitted, if_pos admitted, checked_of_bad hc]
  rfl

/-- A record whose CRC fails is dropped and logged, and its launch has lost it. -/
theorem taskStart_drops_bad_record {crc : BitVec 32} (hc : (s.core.slotAt i).badCrc = some crc) :
    ∃ t e, exec (.taskStart i) s = .next t ∧ t.core.slotAt i = {} ∧ t.mem = s.mem ∧ t.core.slotAt (i + 1) = s.core.slotAt (i + 1) ∧
      (t.partAt (s.core.slotAt i).part).launches =
        (s.partAt (s.core.slotAt i).part).launches.map (fun l => if l.id = (s.core.slotAt i).launch then { l with lost := true } else l) ∧
      e.source = 8 ∧ e.uncorrectable = true ∧ e.syndrome = crc.setWidth 64 ∧
      (t.dieAt (s.cur / 64)).bank = ((s.logDie (s.cur / 64) e false).dieAt (s.cur / 64)).bank := by
  refine ⟨_, badRecord s.cur i crc, exec_taskStart_drops hb hr admitted free hc, ?_, logDie_mem .., ?_, ?_, rfl, rfl, BitVec.ofNat_toNat .., rfl⟩
  all_goals
    generalize hu : s.logDie (s.cur / 64) (badRecord s.cur i crc) false = u
    have kept : SlotsKept s u := by rw [← hu]; exact SlotsKept.logDie ..
  · rw [State.core, modCoreAt_cur, modPartAt_cur, kept.cur, coreAt_modCoreAt_self, withoutRecord_slotAt]
  · rw [State.core, modCoreAt_cur, modPartAt_cur, kept.cur, coreAt_modCoreAt_self,
      (withoutRecord_stopsOnly i _).others _ ((show ∀ i : BitVec 1, i + 1 ≠ i by decide) i)]
    exact kept.slotAt s.cur (i + 1)
  · have part : u.partAt (s.core.slotAt i).part = s.partAt (s.core.slotAt i).part := by
      rw [← hu]
      exact congrArg (fun m => Sp.get ({} : Part) m (s.core.slotAt i).part) (logDie_parts ..)
    rw [partAt_modCoreAt, partAt_modPartAt_self, part]
    rfl

theorem taskStart_begins (hc : (s.core.slotAt i).badCrc = none) (ceil : (s.pkgAt (s.cur / 256)).ceilZero = false) :
    ∃ t, exec (.taskStart i) s = .next t ∧ t.core.run = some i ∧ (t.core.slotAt i).state = .running ∧
      t.core.slotAt (i + 1) = s.core.slotAt (i + 1) ∧ t.mem = s.mem ∧ (∀ k, k ≠ s.cur → t.coreAt k = s.coreAt k) ∧
      t.core.cold = freshCold (s.core.slotAt i).coreId.toNat ∧ t.core.heatBud = 48000000 ∧
      t.core.mcmask = BitVec.ofNat 64 (2 ^ (s.cur % 4)) ∧
      t.core.lq = [] ∧ t.core.sq = [] ∧ t.core.eq = [] ∧ t.core.str = {} ∧ t.core.inHandler = false ∧
      ∀ l, t.core.cluster l = entryCluster (s.core.slotAt i) s.warm := by
  obtain ⟨run, state, other, cold, heat, mask, lq, sq, eq, str, handler, clusters⟩ := begin_values s.core i (s.cur % 4) s.warm
  refine ⟨_, exec_taskStart_begins hb hr admitted free hc ceil, ?_⟩
  rw [core_modCore]
  exact ⟨run, state, other, rfl, fun k hk => coreAt_modCore_other s _ hk, cold, heat, mask, lq, sq, eq, str, handler, clusters⟩

end

/-! ## A launch completes (R362, R369, R370) -/

@[simp] theorem writeAt_parts (s : State) (p : Nat) (h : Word) (bs : List Byte) : (s.writeAt p h bs).parts = s.parts := by
  obtain ⟨m, o, e⟩ := writeAt_frame s p h bs
  rw [e]

@[simp] theorem complete_parts (s : State) (p q : Nat) (bs : List Byte) : (s.complete p q bs).parts = s.parts := by
  unfold State.complete
  dsimp only
  split
  · rfl
  · rw [writeAt_parts, writeAt_parts]

@[simp] theorem freePayload_parts (s : State) (arm : Option (Nat × Nat)) : (s.freePayload arm).parts = s.parts := by
  unfold State.freePayload
  split <;> rfl

/-- A launch that is closed stands in its partition's table no more. -/
theorem closeLaunch_leaves (s : State) (part : Nat) (l : Launch) (status cause : Nat) :
    ∀ x ∈ ((s.closeLaunch part l status cause).partAt part).launches, x.id ≠ l.id := by
  have gone (u : State) (nodes : Part → List GraphNode) : ∀ x ∈ ((u.modPartAt part fun p =>
      { p with launches := p.launches.filter fun x => !decide (x.id = l.id), nodes := nodes p }).partAt part).launches, x.id ≠ l.id := by
    intro x hx
    rw [partAt_modPartAt_self] at hx
    simpa using (List.mem_filter.1 hx).2
  unfold State.closeLaunch
  dsimp only
  generalize hu : ((s.complete part l.queue _).freePayload l.arm).modPartAt part _ = u
  have left : ∀ x ∈ (u.partAt part).launches, x.id ≠ l.id := by rw [← hu]; exact gone _ _
  split
  · exact left
  · split
    · exact left
    · split
      · intro x hx
        rw [partAt_modPartAt_self] at hx
        have parts (v : State) (h : v.parts = u.parts) : v.partAt part = u.partAt part := congrArg (fun m => Sp.get ({} : Part) m part) h
        rw [parts _ ((freePayload_parts ..).trans (complete_parts ..))] at hx
        exact left x (List.mem_filter.1 hx).1
      · exact left

theorem get_map {α : Type} (d : α) (f : α → α) (m : Sp α) (k : Nat) :
    Sp.get d (m.map fun x => (x.1, f x.2)) k = d ∨ Sp.get d (m.map fun x => (x.1, f x.2)) k = f (Sp.get d m k) := by
  induction m with
  | nil => exact .inl rfl
  | cons x rest ih =>
    simp only [List.map_cons, Sp.get]
    split_ifs
    · exact .inl rfl
    · exact .inr rfl
    · exact ih

/-- Neither record of the core is one of the launch. -/
def Clear (part launch : Nat) (c : Core) : Prop :=
  ∀ sl ∈ [c.slot0, c.slot1], sl.state = .empty ∨ sl.part ≠ part ∨ sl.launch ≠ launch

theorem emptySlots_clear (part launch : Nat) (c : Core) : Clear part launch (c.emptySlots part launch) := by
  have one (sl : Slot) : (if sl.state ≠ .empty ∧ sl.part = part ∧ sl.launch = launch then {} else sl : Slot).state = .empty ∨
      (if sl.state ≠ .empty ∧ sl.part = part ∧ sl.launch = launch then {} else sl : Slot).part ≠ part ∨
      (if sl.state ≠ .empty ∧ sl.part = part ∧ sl.launch = launch then {} else sl : Slot).launch ≠ launch := by
    split_ifs with h
    · exact .inl rfl
    · tauto
  intro sl hsl
  simp only [List.mem_cons, List.not_mem_nil, or_false] at hsl
  rcases hsl with rfl | rfl
  · exact one c.slot0
  · exact one c.slot1

theorem atReset_clear (part launch k : Nat) : Clear part launch (Core.atReset k) := by
  intro sl hsl
  simp only [List.mem_cons, List.not_mem_nil, or_false] at hsl
  rcases hsl with rfl | rfl <;> exact .inl rfl

section
variable {part launch : Nat} {l : Launch} {s : State} (hl : (s.partAt part).launch launch = some l)

theorem launchOver_eq_false_of (h : l.state ≠ .bound ∨ (l.lost = true ∧ l.status ≠ 3)) : s.launchOver part l = false := by
  unfold State.launchOver
  rcases h with h | ⟨lost, status⟩
  · simp [h]
  · rw [lost, decide_eq_false status]
    simp

include hl

theorem exec_launchCompletion_of_over (h : s.launchOver part l = true) : ∃ t, exec (.launchCompletion part launch) s = .next t ∧
    (∀ x ∈ (t.partAt part).launches, x.id ≠ launch) ∧ ∀ k, Clear part launch (t.coreAt k) := by
  rw [exec_launchCompletion, execLaunchCompletion, hl]
  dsimp only
  rw [if_neg (by simp [h])]
  refine ⟨_, rfl, ?_, fun k => ?_⟩
  · rw [← id_of_launch hl]
    exact closeLaunch_leaves _ part l _ _
  · rw [State.coreAt]
    rcases get_map (Core.atReset k) (fun c => c.emptySlots part launch) _ k with e | e
    · rw [e]
      exact atReset_clear part launch k
    · rw [e]
      exact emptySlots_clear part launch _

theorem exec_launchCompletion_of_going (h : s.launchOver part l = false) : exec (.launchCompletion part launch) s = .next s := by
  rw [exec_launchCompletion, execLaunchCompletion, hl]
  exact if_pos (by rw [h]; rfl)

/-! ## A launch is killed (R370) -/

theorem exec_launchKill_of_waiting (h : l.state = .waiting) : exec (.launchKill part launch) s = .next (s.closeLaunch part l 3 0) := by
  rw [exec_launchKill, execLaunchKill, hl]
  dsimp only
  rw [h]

theorem exec_launchKill_of_replaying (h : l.state = .replaying) : exec (.launchKill part launch) s = .next s := by
  rw [exec_launchKill, execLaunchKill, hl]
  dsimp only
  rw [h]

/-- The one live task of a bound launch ends. -/
theorem exec_launchKill_of_bound {k : Nat} {i : BitVec 1} {sl : Slot} (h : l.state = .bound) (one : s.slotsOf part launch = [(k, i, sl)])
    (live : sl.live = true) : ∃ t, exec (.launchKill part launch) s = .next t ∧ EndsTask s t k i := by
  refine ⟨(s.modLaunch part launch fun x => { x with status := 3, cause := 0 }).endWritten k i 3 0, ?_,
    EndsTask.of_kept (SlotsKept.modPartAt ..) (endWritten_endsTask ..)⟩
  have slots : (s.modLaunch part launch fun x => { x with status := 3, cause := 0 }).slotsOf part launch = [(k, i, sl)] := one
  rw [exec_launchKill, execLaunchKill, hl]
  dsimp only
  rw [h]
  dsimp only
  rw [State.endLaunch, slots, List.foldl_cons, List.foldl_nil, endSlot_of_live _ _ _ live]

/-! ## A graph node is released (R375) -/

theorem exec_graphNodeRelease_of_held (held : l.held = true) (bound : l.state = .bound) (stamp : l.stamp = 0xFFFFFFFF) :
    exec (.graphNodeRelease part launch) s = .next (s.applyGate part l) := by
  rw [exec_graphNodeRelease, execGraphNodeRelease, hl]
  exact if_pos ⟨held, bound, stamp⟩

theorem exec_graphNodeRelease_of_free (h : l.held = false) : exec (.graphNodeRelease part launch) s = .next s := by
  rw [exec_graphNodeRelease, execGraphNodeRelease, hl]
  exact if_neg (by simp [h])

end

/-- What each finding of the gate does to its node. -/
theorem applyGate_cases (s : State) (part : Nat) (l : Launch) :
    (s.gate part l = .go → s.applyGate part l = s.modLaunch part l.id fun x => { x with held := false }) ∧
    (s.gate part l = .killed → s.applyGate part l = s.endLaunch part l.id 3 0) ∧
    (s.gate part l = .depf → s.applyGate part l = s.endLaunch part l.id 2 0x001F) ∧
    (s.gate part l = .wait → s.applyGate part l = s) := by
  unfold State.applyGate
  refine ⟨fun h => ?_, fun h => ?_, fun h => ?_, fun h => ?_⟩ <;> rw [h]

/-- A held node whose predecessors let it go is released; where its core denies it, it does not begin yet. -/
theorem exec_taskStart_releases {i : BitVec 1} {s : State} {l : Launch} (h : HeldAtStart s i l)
    (go : s.gate (s.core.slotAt i).part l = .go) (denied : s.admits i = false) :
    exec (.taskStart i) s = .next (s.modLaunch (s.core.slotAt i).part l.id fun x => { x with held := false }) := by
  have bound : ((s.modLaunch (s.core.slotAt i).part l.id fun x => { x with held := false }).core.slotAt i).state = .bound := h.bound
  rw [exec_taskStart_of_held h, (applyGate_cases s _ l).1 go, if_pos bound, beginIfAdmitted_of_denied ((admits_modLaunch ..).trans denied)]

/-- Settles O48: a task start by what keeps, denies, drops or admits it; a launch by its state. -/
theorem tasksStartAndLaunchesComplete : Obligations.TasksStartAndLaunchesComplete := by
  refine ⟨fun i s => ⟨exec_taskStart_of_not_due, admits_eq_false_of, fun denied free => exec_taskStart_of_denied free denied,
    fun l h kept => exec_taskStart_of_kept h kept, fun l hb hc hr h gang node held stamp => ?_,
    fun crc hb hr admitted free hc => taskStart_drops_bad_record hb hr admitted free hc, fun hb hr admitted free hc ceil => ?_⟩,
    fun part launch l s hl => ⟨launchOver_eq_false_of, exec_launchCompletion_of_over hl, exec_launchCompletion_of_going hl,
      exec_launchKill_of_waiting hl, exec_launchKill_of_replaying hl, fun k i sl bound one live => ?_, fun held bound stamp => ?_,
      exec_graphNodeRelease_of_free hl⟩⟩
  · have atStart : HeldAtStart s i l := ⟨hb, hr, h, gang, node, held, stamp⟩
    obtain ⟨-, killed, depf, -⟩ := applyGate_cases s (s.core.slotAt i).part l
    exact ⟨fun h => exec_taskStart_of_ending atStart hc (killed h), fun h => exec_taskStart_of_ending atStart hc (depf h),
      exec_taskStart_releases atStart⟩
  · obtain ⟨t, run, taskRuns, state, other, mem, cores, cold, heat, mask, lq, sq, eq, str, handler, clusters⟩ :=
      taskStart_begins hb hr admitted free hc ceil
    refine ⟨t, run, taskRuns, state, other, mem, cores, cold, heat, mask, lq, sq, eq, str, handler, fun l => ?_⟩
    rw [clusters]
    exact entryCluster_values _ _
  · obtain ⟨t, run, ends⟩ := exec_launchKill_of_bound hl bound one live
    exact ⟨t, run, ends.ended, ends.dropped, ends.stops⟩
  · obtain ⟨go, killed, -, wait⟩ := applyGate_cases s part l
    rw [exec_graphNodeRelease_of_held hl held bound stamp]
    exact ⟨fun h => by rw [go h], fun h => by rw [killed h], fun h => by rw [wait h]⟩

end Sys2Proof.Proofs
end

section
/-! # Lane orders of the vector engine: what lands, and the step of the LFSRs (R50, R237, R243) -/

namespace Sys2Proof.Laws

open Sys2Proof.Machine

theorem bits_eq_extractLsb' {w : Nat} (v : BitVec w) (lo n : Nat) : bits v lo n = (v.extractLsb' lo n).toNat := by
  rw [bits, BitVec.extractLsb'_toNat, Nat.shiftRight_eq_div_pow]

/-- Writing one index leaves every other as it was, whatever an unlisted one reads as there. -/
theorem get_set_ne {α : Type} [DecidableEq α] (d e : α) (m : Sp α) {k j : Nat} (v : α) (h : j ≠ k) :
    Sp.get e (Sp.set d m k v) j = Sp.get e m j := by
  induction m with
  | nil =>
    simp only [Sp.set]
    split
    · rfl
    · simp [Sp.get, h]
  | cons x rest ih =>
    obtain ⟨i, w⟩ := x
    rcases lt_trichotomy k i with lt | rfl | gt
    · have old : Sp.get e ((k, v) :: (i, w) :: rest) j = Sp.get e ((i, w) :: rest) j := by
        simp only [Sp.get, if_neg h]
        by_cases below : j < k
        · rw [if_pos below, if_pos (below.trans lt)]
        · rw [if_neg below]
      rw [Sp.set, if_pos lt]
      split
      · rfl
      · exact old
    · simp only [Sp.set, lt_irrefl, if_false, if_true]
      have old : Sp.get e ((k, w) :: rest) j = if j < k then e else Sp.get e rest j := by simp only [Sp.get, if_neg h]
      have dropped : Sp.get e (Sp.dropUpTo k rest) j = if j < k then e else Sp.get e rest j := by
        split_ifs with below
        · exact get_dropUpTo_below _ _ _ _ below.le
        · exact get_dropUpTo _ _ _ _ (by omega)
      split
      · rw [old, dropped]
      · simp only [Sp.get, if_neg h, dropped]
        split_ifs <;> rfl
    · simp only [Sp.set]
      rw [if_neg (by omega), if_neg (by omega)]
      simp only [Sp.get, ih]

/-- Every listed index is changed once by a function of what it reads as; the others stay. -/
theorem get_foldl_set {α : Type} [DecidableEq α] (d : Nat → α) (g : α → α) (j : Nat) {l : List Nat} (once : l.Nodup) (m : Sp α) :
    Sp.get (d j) (l.foldl (fun x i => Sp.set (d i) x i (g (Sp.get (d i) x i))) m) j =
      if j ∈ l then g (Sp.get (d j) m j) else Sp.get (d j) m j := by
  induction l generalizing m with
  | nil => rfl
  | cons i l ih =>
    obtain ⟨new, once⟩ := List.nodup_cons.1 once
    rw [List.foldl_cons, ih once]
    by_cases here : j = i
    · subst here
      rw [if_neg new, if_pos List.mem_cons_self, get_set_self]
    · rw [get_set_ne _ _ _ _ here]
      simp [here]

theorem nodup_lanesOn (m : Cold) : m.lanesOn.Nodup := List.nodup_range.filter _

/-- A change of cold state leaves what an order's issue does to the rest. -/
theorem issued_modCold {s t : State} {n : Nat} (h : Issued s t n) (f : Cold → Cold) :
    Issued s (t.modCore fun c => c.modCold f) n where
  pod := h.pod
  others k hk := by
    have cur : t.cur = s.cur := by rw [← h.pod]
    rw [coreAt_modCore_other t _ (cur ▸ hk), h.others k hk]
  core := by rw [core_modCore]; exact h.core
  charge := by rw [core_modCore]; exact h.charge
  posted := h.posted

theorem issued_stepLfsr {s t : State} {n : Nat} (h : Issued s t n) (rm : BitVec 3) : Issued s (t.stepLfsr rm) n := by
  unfold State.stepLfsr
  split
  · exact issued_modCold h _
  · exact h

/-- The step of the LFSRs reaches nothing of the cold state beside them. -/
theorem stepLfsr_frame (s : State) (rm : BitVec 3) : ∃ x, (s.stepLfsr rm).core.cold = { s.core.cold with lfsr := x } := by
  unfold State.stepLfsr
  split
  · rw [core_modCore]
    exact ⟨_, rfl⟩
  · exact ⟨s.core.cold.lfsr, rfl⟩

/-- Under SR (RM 4) the LFSR of every active lane takes one step (R50). -/
theorem lfsrAt_stepLfsr (s : State) (rm : BitVec 3) (i : Nat) : (s.stepLfsr rm).core.cold.lfsrAt i =
    if rm = 4 ∧ i ∈ s.core.cold.lanesOn then lfsrStep (s.core.cold.lfsrAt i) else s.core.cold.lfsrAt i := by
  unfold State.stepLfsr
  by_cases sr : rm = 4
  · rw [if_pos sr, core_modCore]
    simp only [sr, true_and]
    exact get_foldl_set (seedLane 0) lfsrStep i (nodup_lanesOn s.core.cold) s.core.cold.lfsr
  · rw [if_neg sr, if_neg fun h => sr h.1]

/-- An order whose writes land, and which then steps the LFSRs by RM. -/
theorem landsRounded_stepLfsr {s t : State} {heat : Nat} {ws : List (Nat × LandOp)} (h : Lands s (.next t) heat .vector ws)
    (rm : BitVec 3) : LandsRounded s (.next (t.stepLfsr rm)) heat rm ws := by
  obtain ⟨u, new, next, issued, cold, pend, writes, own⟩ := h
  obtain rfl := Host.Outcome.next.inj next
  have before : t.core.cold = { s.core.cold with pend := t.core.cold.pend } :=
    congrArg (fun m : Cold => { m with pend := t.core.cold.pend }) cold
  obtain ⟨x, stepped⟩ := stepLfsr_frame t rm
  refine ⟨_, new, rfl, issued_stepLfsr issued rm, ?_, fun i => ?_, ?_, writes, own⟩
  · rw [stepped, before]
  · rw [lfsrAt_stepLfsr, before]
    rfl
  · rw [stepped]
    exact pend

/-- An order that writes the active lanes of vd. -/
theorem lands_landLanes (i : Instr) (d : BitVec 5) (lat : Nat) (f : State → Nat → Word32) (s : State) :
    Lands s (order i s fun s => s.landLanes d lat (f s)) (s.orderHeat i) .vector (s.lanes d lat (f (s.charge (s.orderHeat i)))) := by
  have lanes : s.lanes d lat (f (s.charge (s.orderHeat i))) = (s.charge (s.orderHeat i)).lanes d lat (f (s.charge (s.orderHeat i))) := by
    simp only [State.lanes, charge_cold]
  rw [lanes]
  exact lands_land ..

theorem lands_lane1 (i : Instr) (d a : BitVec 5) (lat : Nat) (f : Word32 → Word32) (s : State) :
    Lands s (lane1 i d a lat f s) (s.orderHeat i) .vector (s.lanes d lat fun n => f (s.core.cold.lane a.toNat n)) := by
  have lands := lands_landLanes i d lat (fun s n => f (s.vl a n)) s
  simp only [charge_vl] at lands
  exact lands

theorem lands_lane2 (i : Instr) (d a b : BitVec 5) (lat : Nat) (f : Word32 → Word32 → Word32) (s : State) :
    Lands s (lane2 i d a b lat f s) (s.orderHeat i) .vector
      (s.lanes d lat fun n => f (s.core.cold.lane a.toNat n) (s.core.cold.lane b.toNat n)) := by
  have lands := lands_landLanes i d lat (fun s n => f (s.vl a n) (s.vl b n)) s
  simp only [charge_vl] at lands
  exact lands

/-- A lane order that rounds lands one cold cycle later in the active lanes of vd, with the random bits of each lane. -/
theorem landsRounded_laneRound (i : Instr) (d a b : BitVec 5) (rm : BitVec 3) (f : Nat → Word32 → Word32 → Word32 → Word32) (s : State) :
    LandsRounded s (laneRound i d rm (fun s n r => f r (s.vl a n) (s.vl b n) (s.vl d n)) s) (s.orderHeat i) rm
      (s.lanes d 1 fun n => f ((s.core.cold.lfsrAt n).toNat % 2 ^ 16) (s.core.cold.lane a.toNat n) (s.core.cold.lane b.toNat n)
        (s.core.cold.lane d.toNat n)) := by
  have lands := lands_landLanes i d 1 (fun s n => f (s.core.cold.rnd n) (s.vl a n) (s.vl b n) (s.vl d n)) s
  simp only [charge_cold, charge_vl] at lands
  exact landsRounded_stepLfsr lands rm

/-- An order that writes all 64 lanes of vd. -/
theorem lands_landAllLanes (i : Instr) (d : BitVec 5) (lat : Nat) (f : State → Nat → Word32) (s : State) :
    Lands s (order i s fun s => s.landAllLanes d lat (f s)) (s.orderHeat i) .vector
      [(lat, .vreg d.toNat ((List.range 64).map fun n => (n, f (s.charge (s.orderHeat i)) n)))] :=
  lands_land ..

end Sys2Proof.Laws
end

section
/-! # What the special functions give (R68, R70, R71) -/

namespace Sys2Proof.Laws

open Sys2Proof.Machine

/-- Twice a quotient, made odd where the division leaves a remainder, lies less than one unit beside the exact double. -/
theorem odd_quotient (p : Nat) {m : Nat} (pos : m ≠ 0) :
    let k := 2 * (p / m) + if p % m = 0 then 0 else 1
    k * m < 2 * p + m ∧ 2 * p < k * m + m ∧ (k % 2 = 0 → k * m = 2 * p) := by
  intro k
  have below : p % m < m := Nat.mod_lt _ (Nat.pos_of_ne_zero pos)
  have parts : m * (p / m) + p % m = p := Nat.div_add_mod p m
  have product : k * m = 2 * (m * (p / m)) + (if p % m = 0 then 0 else 1) * m := by ring
  by_cases exact : p % m = 0
  · rw [if_pos exact] at product
    omega
  · rw [if_neg exact] at product
    have odd : k % 2 = 1 := by simp only [k, if_neg exact]; omega
    omega

/-- A significand `k`, odd where it is marked inexact, lies less than one unit beside the exact reciprocal of `m` (R71). -/
theorem rcpVal_eq (g : Bool) {m : Nat} (e : Int) (pos : m ≠ 0) :
    ∃ k n : Nat, rcpVal (.num g m e) = .num g k (-e - n) ∧ m.log2 + 80 < n ∧ k * m < 2 ^ n + m ∧ 2 ^ n < k * m + m ∧
      (k % 2 = 0 → k * m = 2 ^ n) := by
  have value : rcpVal (.num g m e) = .num g (2 * (2 ^ (m.log2 + 80) / m) + if 2 ^ (m.log2 + 80) % m = 0 then 0 else 1)
      (-e - (m.log2 + 80 + 1 : Nat)) := by
    simp only [rcpVal, if_neg pos]
    congr 1
    push_cast
    ring
  obtain ⟨low, high, exact⟩ := odd_quotient (2 ^ (m.log2 + 80)) pos
  rw [← pow_succ'] at low high exact
  exact ⟨_, m.log2 + 80 + 1, value, Nat.lt_succ_self _, low, high, exact⟩

/-- The integer square root, from a root that is not too great and less than `2 ^ k` short. -/
theorem sqrtBits_spec (n k : Nat) : ∀ a, a * a ≤ n → n < (a + 2 ^ k) * (a + 2 ^ k) →
    sqrtBits n k a * sqrtBits n k a ≤ n ∧ n < (sqrtBits n k a + 1) * (sqrtBits n k a + 1) := by
  induction k with
  | zero => exact fun a low high => ⟨low, high⟩
  | succ k ih =>
    intro a low high
    rw [pow_succ, mul_two, ← add_assoc] at high
    rw [sqrtBits]
    split
    · next fits => exact ih _ fits high
    · next short => exact ih _ low (not_le.1 short)

/-- The root taken for the inverse square root of `m`, in units of `2 ^ -s`, is not above it and less than one unit short. -/
theorem rsq_root {m s : Nat} (pos : m ≠ 0) (size : m ≤ 2 ^ (2 * s)) :
    let y := sqrtBits (2 ^ (2 * s) / m) (s + 1) 0
    0 < y ∧ y * y * m ≤ 2 ^ (2 * s) ∧ 2 ^ (2 * s) < (y + 1) * (y + 1) * m := by
  intro y
  have short : 2 ^ (2 * s) / m < (0 + 2 ^ (s + 1)) * (0 + 2 ^ (s + 1)) := by
    calc 2 ^ (2 * s) / m ≤ 2 ^ (2 * s) := Nat.div_le_self ..
      _ < 2 ^ (2 * (s + 1)) := Nat.pow_lt_pow_right (by omega) (by omega)
      _ = (0 + 2 ^ (s + 1)) * (0 + 2 ^ (s + 1)) := by rw [zero_add, ← pow_add, two_mul]
  obtain ⟨low, high⟩ := sqrtBits_spec _ (s + 1) 0 (Nat.zero_le _) short
  have pos' : 0 < m := Nat.pos_of_ne_zero pos
  have above : 2 ^ (2 * s) < (y + 1) * (y + 1) * m := (Nat.div_lt_iff_lt_mul pos').1 high
  refine ⟨Nat.pos_of_ne_zero fun zero => ?_, (Nat.le_div_iff_mul_le pos').1 low, above⟩
  rw [zero] at above
  omega

/-- Twice a root, made odd where it is not exact, lies less than one unit beside the exact double. -/
theorem odd_root {y m p : Nat} (root : 0 < y) (low : y * y * m ≤ p) (high : p < (y + 1) * (y + 1) * m) :
    let k := 2 * y + if y * y * m = p then 0 else 1
    (k - 1) * (k - 1) * m < 4 * p ∧ 4 * p < (k + 1) * (k + 1) * m ∧ (k % 2 = 0 → k * k * m = 4 * p) := by
  have pos : 0 < m := Nat.pos_of_ne_zero fun zero => by simp [zero] at high
  dsimp only
  by_cases exact : y * y * m = p
  · rw [if_pos exact, add_zero]
    have square : 2 * y * (2 * y) * m = 4 * p := by rw [← exact]; ring
    refine ⟨?_, ?_, fun _ => square⟩ <;> rw [← square] <;>
      exact Nat.mul_lt_mul_of_pos_right (Nat.mul_self_lt_mul_self (by omega)) pos
  · rw [if_neg exact, Nat.add_sub_cancel]
    refine ⟨?_, ?_, fun even => by omega⟩
    · calc 2 * y * (2 * y) * m = 4 * (y * y * m) := by ring
        _ < 4 * p := by omega
    · calc 4 * p < 4 * ((y + 1) * (y + 1) * m) := by omega
        _ = (2 * y + 1 + 1) * (2 * y + 1 + 1) * m := by ring

/-- A significand `k`, odd where it is marked inexact, lies less than one unit beside the exact inverse square root (R71). -/
theorem rsqVal_eq {m : Nat} (e : Int) (pos : m ≠ 0) : ∃ k n : Nat, let h := e / 2
    let m' := if e % 2 = 0 then m else 2 * m
    rsqVal (.num false m e) = .num false k (-h - n) ∧ m'.log2 + 60 < n ∧ (k - 1) * (k - 1) * m' < 2 ^ (2 * n) ∧
      2 ^ (2 * n) < (k + 1) * (k + 1) * m' ∧ (k % 2 = 0 → k * k * m' = 2 ^ (2 * n)) := by
  have pos' : (if e % 2 = 0 then m else 2 * m) ≠ 0 := by split <;> omega
  generalize hm : (if e % 2 = 0 then m else 2 * m) = m' at pos'
  have size : m' ≤ 2 ^ (2 * (m'.log2 + 60)) :=
    (Nat.lt_log2_self).le.trans (Nat.pow_le_pow_right (by omega) (by omega))
  obtain ⟨root, low, high⟩ := rsq_root pos' size
  generalize hy : sqrtBits (2 ^ (2 * (m'.log2 + 60)) / m') (m'.log2 + 60 + 1) 0 = y at root low high
  have value : rsqVal (.num false m e) =
      .num false (2 * y + if y * y * m' = 2 ^ (2 * (m'.log2 + 60)) then 0 else 1) (-(e / 2) - (m'.log2 + 60 + 1 : Nat)) := by
    simp only [rsqVal, if_neg pos, hm, hy, decide_eq_true_eq]
    rw [if_neg Bool.false_ne_true]
    congr 1
    push_cast
    ring
  have double : 2 ^ (2 * (m'.log2 + 60 + 1)) = 4 * 2 ^ (2 * (m'.log2 + 60)) := by
    rw [mul_add, pow_add, mul_comm]
    rfl
  obtain ⟨below, above, exact⟩ := odd_root root low high
  rw [← double] at below above exact
  exact ⟨_, m'.log2 + 60 + 1, value, Nat.lt_succ_self _, below, above, exact⟩

theorem rsqVal_negative {m : Nat} (e : Int) (pos : m ≠ 0) : rsqVal (.num true m e) = .nan := by simp [rsqVal, pos]

theorem log2Val_negative {m : Nat} (e : Int) (pos : m ≠ 0) : log2Val (.num true m e) = .nan := by simp [log2Val, pos]

theorem log2Val_pow (n : Nat) (e : Int) : log2Val (.num false (2 ^ n) e) = .ofInt (n + e) := by
  simp [log2Val, Nat.log2_two_pow]

/-- The values of zeros, infinities and NaN. -/
theorem special_arguments (g : Bool) (e : Int) :
    rcpVal (.num g 0 e) = .inf g ∧ rsqVal (.num g 0 e) = .inf g ∧ log2Val (.num g 0 e) = .inf true ∧ exp2Val (.num g 0 e) = .num false 1 0 ∧
    rcpVal (.inf g) = .num g 0 0 ∧ rsqVal (.inf false) = .num false 0 0 ∧ rsqVal (.inf true) = .nan ∧ log2Val (.inf false) = .inf false ∧
    log2Val (.inf true) = .nan ∧ exp2Val (.inf false) = .inf false ∧ exp2Val (.inf true) = .num false 0 0 ∧
    rcpVal .nan = .nan ∧ rsqVal .nan = .nan ∧ log2Val .nan = .nan ∧ exp2Val .nan = .nan :=
  ⟨rfl, rfl, rfl, rfl, rfl, rfl, rfl, rfl, rfl, rfl, rfl, rfl, rfl, rfl, rfl⟩

/-- A power of two in the range of fp32 is not capped. -/
theorem capped_pow {i : Int} (top : i ≤ 127) : Val.capped (.num false 1 i) = .num false 1 i := by
  simp only [Val.capped]
  refine if_neg (not_lt.2 ?_)
  rw [one_mul]
  by_cases low : i ≤ 104
  · rw [min_eq_left low, sub_self]
    exact Nat.one_le_iff_ne_zero.2 (by positivity)
  · rw [min_eq_right (not_le.1 low).le]
    calc 2 ^ (i - 104).toNat ≤ 2 ^ 23 := Nat.pow_le_pow_right (by omega) (by omega)
      _ ≤ _ := by norm_num

/-- Whole arguments of 2^v within range are exact (R68). -/
theorem exp2Val_whole (g : Bool) {m j : Nat} (pos : m ≠ 0) (fine : j ≤ 320) (range : m ≤ 127 ∨ g = true ∧ m ≤ 149) :
    exp2Val (.num g (m * 2 ^ j) (-j)) = .num false 1 (if g = true then -m else m) := by
  have few : (m * 2 ^ j).log2 < 8 + j := by
    rw [Nat.log2_lt (by positivity), pow_add]
    exact Nat.mul_lt_mul_of_pos_right (by omega) (by positivity)
  have small : ¬ 9 < ((m * 2 ^ j).log2 : Int) + -j := by omega
  have places : (-(j : Int) + fixBits).toNat = fixBits - j := by unfold fixBits; omega
  have fixed : (if -(j : Int) + fixBits < 0 then 0 else m * 2 ^ j * 2 ^ (-(j : Int) + fixBits).toNat) = m * 2 ^ fixBits := by
    rw [if_neg (by unfold fixBits; omega), places, mul_assoc, ← pow_add, Nat.add_sub_cancel' (show j ≤ fixBits from fine)]
  have whole : (if g = true then -((m * 2 ^ fixBits : Nat) : Int) else (m * 2 ^ fixBits : Nat)) =
      (if g = true then -(m : Int) else m) * (2 ^ fixBits : Nat) := by
    split <;> push_cast <;> ring
  have unit : ((2 ^ fixBits : Nat) : Int) ≠ 0 := by positivity
  simp only [exp2Val, if_neg (show ¬ m * 2 ^ j = 0 by positivity), if_neg small, fixed, whole, Int.mul_emod_left, Int.toNat_zero, if_true,
    Int.mul_ediv_cancel _ unit]
  refine capped_pow ?_
  rcases range with le | ⟨neg, -⟩
  · split <;> omega
  · rw [if_pos neg]
    omega

end Sys2Proof.Laws
end

section
/-! # O35: rounding lane orders and special functions (R46, R49, R50, R68 to R72, R248, R250) -/

namespace Sys2Proof.Proofs

open Sys2Proof.Machine Sys2Proof.Laws

/-- Within one format a conversion keeps every code but a NaN's; otherwise it encodes what it decodes (R249). -/
theorem convert_code (g h : BitVec 4) (rm : BitVec 3) (sat : Bool) (rnd code : Nat) : (convert g.toNat rm sat rnd h.toNat code).1 =
    if g = h ∧ decodeElem h.toNat code ≠ .nan then code else (encodeElem g.toNat rm sat rnd (decodeElem h.toNat code)).1 := by
  simp only [convert, BitVec.toNat_inj]
  split <;> rfl

/-- What `vcvt` makes of lane `n`: its code and the kinds of its event. -/
def convertedLane (g h : BitVec 4) (a : BitVec 5) (z : BitVec 1) (rm : BitVec 3) (s : State) (n : Nat) : Nat × Nat :=
  convert g.toNat rm (decide (z = 1)) (s.core.cold.rnd n) h.toNat ((s.vl a n).toNat % 2 ^ fmtWidth h.toNat)

/-- `vcvt` lands the converted codes of the active lanes, whatever event it raises. -/
theorem landsRounded_vcvt (w g h : BitVec 4) (d a : BitVec 5) (z : BitVec 1) (rm : BitVec 3) (s : State) :
    LandsRounded s (execVcvt w d a g z rm h s) 24 rm (s.lanes d 1 fun n => BitVec.ofNat 32 (convertedLane g h a z rm s n).1) := by
  have written : (s.lanes d 1 fun n => BitVec.ofNat 32 (convertedLane g h a z rm s n).1) =
      [(1, .vreg d.toNat ((s.core.cold.lanesOn.map fun n => (n, convertedLane g h a z rm s n)).map fun y => (y.1, BitVec.ofNat 32 y.2.1)))] := by
    rw [List.map_map]
    rfl
  rw [written]
  unfold execVcvt order
  simp only [charge_cold, charge_vl]
  exact landsRounded_stepLfsr (lands_land (.vcvt w d a g z rm h) s ..) rm

/-- Settles O35: the lane orders by the rule of what rounds and what does not, the special functions by what they give. -/
theorem roundedLanesAndSpecialFunctions : Obligations.RoundedLanesAndSpecialFunctions := by
  refine ⟨fun w g h d a b m z s => ?_, fun w d a b s => ?_, fun g m e => ?_, log2Val_pow, fun g m j => exp2Val_whole g⟩
  · simp only [exec_vadd, exec_vsub, exec_vmul, exec_vfma, exec_vcvt, ← convert_code]
    exact ⟨landsRounded_laneRound (.vadd w d a b m) d a b m (fun r x y _ => add32 m r x y) s,
      landsRounded_laneRound (.vsub w d a b m) d a b m (fun r x y _ => sub32 m r x y) s,
      landsRounded_laneRound (.vmul w d a b m) d a b m (fun r x y _ => mul32 m r x y) s,
      landsRounded_laneRound (.vfma w d a b m) d a b m (fma32 m) s, landsRounded_vcvt ..⟩
  · simp only [exec_vexp2, exec_vlog2, exec_vrcp, exec_vrsq, exec_vexpd]
    exact ⟨lands_lane1 (.vexp2 w d a) d a 4 (fun x => round32 0 0 (exp2Val (val32 x))) s,
      lands_lane1 (.vlog2 w d a) d a 4 (fun x => round32 0 0 (log2Val (val32 x))) s,
      lands_lane1 (.vrcp w d a) d a 4 (fun x => round32 0 0 (rcpVal (val32 x))) s,
      lands_lane1 (.vrsq w d a) d a 4 (fun x => round32 0 0 (rsqVal (val32 x))) s,
      lands_lane2 (.vexpd w d a b) d a b 4 (fun x y => round32 0 0 (exp2Val (expDiff (val32 x) (val32 y)))) s⟩
  · exact ⟨rcpVal_eq g e, rsqVal_eq e, fun pos => ⟨rsqVal_negative e pos, log2Val_negative e pos⟩, special_arguments g e⟩

end Sys2Proof.Proofs
end

section
/-! # The fixed tree (R59): what its levels keep, its sum, and its greatest word -/

namespace Sys2Proof.Laws

open Sys2Proof.Machine

theorem length_treeLevel (f : Word32 → Word32 → Word32) : ∀ l, (treeLevel f l).length = (l.length + 1) / 2
  | [] => rfl
  | [_] => by simp [treeLevel]
  | a :: b :: rest => by
    simp only [treeLevel, List.length_cons, length_treeLevel f rest]
    omega

/-- What each level of the tree keeps holds of the one value at its root. -/
theorem tree_induction {f : Word32 → Word32 → Word32} {P : List Word32 → Prop} (level : ∀ l, P l → P (treeLevel f l))
    {l : List Word32} (size : l.length = 64) (h : P l) : P [tree f l] := by
  have levels : ∀ n, P ((List.range n).foldl (fun x _ => treeLevel f x) l) ∧
      (n ≤ 6 → ((List.range n).foldl (fun x _ => treeLevel f x) l).length = 2 ^ (6 - n)) := by
    intro n
    induction n with
    | zero => exact ⟨h, fun _ => size⟩
    | succ n ih =>
      obtain ⟨holds, len⟩ := ih
      rw [List.range_succ, List.foldl_append]
      refine ⟨level _ holds, fun le => ?_⟩
      have half : 2 ^ (6 - n) = 2 * 2 ^ (6 - (n + 1)) := by rw [← pow_succ', show 6 - (n + 1) + 1 = 6 - n by omega]
      rw [List.foldl_cons, List.foldl_nil, length_treeLevel, len (by omega)]
      omega
  obtain ⟨holds, len⟩ := levels 6
  obtain ⟨v, root⟩ := List.length_eq_one_iff.1 (len le_rfl)
  rw [tree, root]
  rwa [root] at holds

theorem sum_treeLevel : ∀ l, (treeLevel (· + ·) l).sum = l.sum
  | [] => rfl
  | [_] => rfl
  | a :: b :: rest => by simp only [treeLevel, List.sum_cons, sum_treeLevel rest, add_assoc]

/-- The tree of integer sums is the sum. -/
theorem tree_add {l : List Word32} (size : l.length = 64) : tree (· + ·) l = l.sum := by
  simpa using tree_induction (P := fun k => k.sum = l.sum) (fun k h => (sum_treeLevel k).trans h) size rfl

/-- A node gives one of its two words, and one whose key is at least that of either. -/
structure Selects (f : Word32 → Word32 → Word32) (key : Word32 → Int) : Prop where
  either : ∀ a b, f a b = a ∨ f a b = b
  left : ∀ a b, key a ≤ key (f a b)
  right : ∀ a b, key b ≤ key (f a b)

section
variable {f : Word32 → Word32 → Word32} {key : Word32 → Int} (sel : Selects f key)
include sel

theorem Selects.mem_treeLevel : ∀ l, ∀ v ∈ treeLevel f l, v ∈ l
  | [], _, h => h
  | [_], _, h => h
  | a :: b :: rest, v, h => by
    rcases List.mem_cons.1 h with rfl | h
    · rcases sel.either a b with e | e <;> simp [e]
    · simp [Selects.mem_treeLevel rest v h]

theorem Selects.bound_treeLevel : ∀ l, ∀ v ∈ l, ∃ u ∈ treeLevel f l, key v ≤ key u
  | [], _, h => absurd h (by simp)
  | [_], v, h => ⟨v, h, le_rfl⟩
  | a :: b :: rest, v, h => by
    rcases List.mem_cons.1 h with rfl | h
    · exact ⟨f v b, by simp [treeLevel], sel.left v b⟩
    rcases List.mem_cons.1 h with rfl | h
    · exact ⟨f a v, by simp [treeLevel], sel.right a v⟩
    obtain ⟨u, mem, le⟩ := Selects.bound_treeLevel rest v h
    exact ⟨u, by simp [treeLevel, mem], le⟩

/-- The root of a selecting tree is one of the words, with the greatest key. -/
theorem Selects.tree_spec {l : List Word32} (size : l.length = 64) : tree f l ∈ l ∧ ∀ v ∈ l, key v ≤ key (tree f l) := by
  have root := tree_induction (f := f) (P := fun k => (∀ v ∈ k, v ∈ l) ∧ ∀ v ∈ l, ∃ u ∈ k, key v ≤ key u) ?_ size
    ⟨fun _ h => h, fun v h => ⟨v, h, le_rfl⟩⟩
  · obtain ⟨mem, bound⟩ := root
    simpa using And.intro mem bound
  · rintro k ⟨mem, bound⟩
    refine ⟨fun v h => mem v (sel.mem_treeLevel k v h), fun v h => ?_⟩
    obtain ⟨u, hu, le⟩ := bound v h
    obtain ⟨w, hw, le'⟩ := sel.bound_treeLevel k u hu
    exact ⟨w, hw, le.trans le'⟩

/-- Over the lanes that count, the others standing as the word of the least key, a selecting tree gives one of them, with the greatest key. -/
theorem Selects.tree_lanes {ident : Word32} (low : ∀ v, key ident ≤ key v) (inj : Function.Injective key)
    (use : Nat → Bool) (x : Nat → Word32) (counted : ∃ j, j < 64 ∧ use j = true) :
    let v := tree f ((List.range 64).map fun j => if use j then x j else ident)
    (∃ j, j < 64 ∧ use j = true ∧ v = x j) ∧ ∀ j, j < 64 → use j = true → key (x j) ≤ key v := by
  intro v
  obtain ⟨mem, bound⟩ := sel.tree_spec (l := (List.range 64).map fun j => if use j then x j else ident) (by simp)
  have above : ∀ j, j < 64 → use j = true → key (x j) ≤ key v := fun j lt h =>
    bound _ (List.mem_map.2 ⟨j, List.mem_range.2 lt, if_pos h⟩)
  refine ⟨?_, above⟩
  obtain ⟨j, lt, is⟩ := List.mem_map.1 mem
  by_cases h : use j = true
  · exact ⟨j, List.mem_range.1 lt, h, by rw [if_pos h] at is; exact is.symm⟩
  · obtain ⟨k, lt', h'⟩ := counted
    rw [if_neg h] at is
    have least : v = ident := is.symm
    exact ⟨k, lt', h', inj (le_antisymm (least ▸ low _) (above k lt' h'))⟩

end

theorem not_slt_iff (a b : Word32) : a.slt b = false ↔ b.toInt ≤ a.toInt := by simp [BitVec.slt]

/-- The node of the integer maximum. -/
theorem selects_max : Selects (fun a b => if a.slt b then b else a) BitVec.toInt where
  either a b := (ite_eq_or_eq _ b a).symm
  left a b := by
    split
    · next less => exact (BitVec.slt_iff_toInt_lt.1 less).le
    · exact le_rfl
  right a b := by
    split
    · exact le_rfl
    · next other => exact (not_slt_iff a b).1 (Bool.eq_false_iff.2 other)

/-- The node of the integer minimum. -/
theorem selects_min : Selects (fun a b => if b.slt a then b else a) fun w => -w.toInt where
  either a b := (ite_eq_or_eq _ b a).symm
  left a b := by
    split
    · next less => exact neg_le_neg (BitVec.slt_iff_toInt_lt.1 less).le
    · exact le_rfl
  right a b := by
    split
    · exact le_rfl
    · next other => exact neg_le_neg ((not_slt_iff b a).1 (Bool.eq_false_iff.2 other))

/-- A sum over the lanes that count, 0 standing for the others. -/
theorem sum_map_if (l : List Nat) (use : Nat → Bool) (x : Nat → Word32) :
    (l.map fun j => if use j then x j else 0).sum = ((l.filter use).map x).sum := by
  rw [List.sum_map_ite]
  simp

end Sys2Proof.Laws
end

section
/-! # O36: reductions and scans over the fixed tree (R59, R241, R242, R253) -/

namespace Sys2Proof.Proofs

open Sys2Proof.Machine Sys2Proof.Laws

/-- Lane `j` counts in lane `n` of a reduction or scan (R241, R253): active, not above it in a scan, and under SEG of its segment. -/
def countsFor (m : Cold) (scan : Bool) (g : BitVec 1) (n j : Nat) : Bool :=
  m.top.getLsbD j && (!scan || decide (j ≤ n)) && (decide (g = 0) || (!(m.lane 31 n).getLsbD 8 && !(m.lane 31 j).getLsbD 8 &&
    decide ((m.lane 31 j).setWidth 8 = (m.lane 31 n).setWidth 8)))

/-! ## Operations (R59) -/

theorem bitVec2_cases (o : BitVec 2) : o = 0 ∨ o = 1 ∨ o = 2 ∨ o = 3 := by
  revert o
  decide

theorem reduction_min (int : Bool) {o : BitVec 2} (sum : o ≠ 0) (max : o ≠ 1) : reduction int o = reduction int 2 := by
  rcases bitVec2_cases o with rfl | rfl | rfl | rfl
  · exact absurd rfl sum
  · exact absurd rfl max
  · rfl
  · rfl

/-- The node and the identity of an operation on fp32 lanes. -/
theorem reduction_fp32 (o : BitVec 2) :
    (reduction false o).1 = (fun c d => if o = 0 then add32 0 0 c d else if o = 1 then max32 c d else min32 c d) ∧
    (reduction false o).2.1 = if o = 0 then 0x80000000 else if o = 1 then 0xFF800000 else 0x7F800000 := by
  rcases bitVec2_cases o with rfl | rfl | rfl | rfl <;> exact ⟨rfl, rfl⟩

/-- What stands where no lane counts. -/
theorem reduction_empty (i : BitVec 1) (o : BitVec 2) : (reduction (decide (i = 1)) o).2.2 =
    if o = 0 then 0 else if i = 0 then (if o = 0 then 0x80000000 else if o = 1 then 0xFF800000 else 0x7F800000)
      else if o = 1 then 0x80000000 else 0x7FFFFFFF := by
  revert i o
  decide

/-- A reduced lane is the tree over the lanes that count for it, or the empty value where none does. -/
theorem reduceLane_eq (s : State) (scan int : Bool) (g : BitVec 1) (o : BitVec 2) (a : BitVec 5) (n : Nat) :
    s.reduceLane scan int (decide (g = 1)) o a n =
      if (List.range 64).any (countsFor s.core.cold scan g n) then
        tree (reduction int o).1 ((List.range 64).map fun j =>
          if countsFor s.core.cold scan g n j then s.core.cold.lane a.toNat j else (reduction int o).2.1)
      else (reduction int o).2.2 := by
  have segment : ∀ u v : Word32, decide (u.toNat % 256 = v.toNat % 256) = decide (u.setWidth 8 = v.setWidth 8) := fun u v => by
    simp only [← BitVec.toNat_inj, BitVec.toNat_setWidth]
  have flag : (!decide (g = 1)) = decide (g = 0) := by revert g; decide
  have use : ∀ j, ((!decide (g = 1) || (!(s.core.cold.lane 31 n).getLsbD 8 && !(s.core.cold.lane 31 j).getLsbD 8 &&
      decide ((s.core.cold.lane 31 j).toNat % 256 = (s.core.cold.lane 31 n).toNat % 256))) && s.core.cold.top.getLsbD j &&
        (!scan || decide (j ≤ n))) = countsFor s.core.cold scan g n j := fun j => by
    rw [countsFor, segment, flag, Bool.and_assoc, Bool.and_comm]
  unfold State.reduceLane
  simp only [use]

theorem reduceLane_charge (s : State) (h : Nat) (scan int seg : Bool) (o : BitVec 2) (a : BitVec 5) :
    (s.charge h).reduceLane scan int seg o a = s.reduceLane scan int seg o a := by
  funext n
  unfold State.reduceLane
  rw [charge_cold]

section
variable {s : State} {scan : Bool} {g : BitVec 1} {n : Nat}

theorem reduceLane_of_none (uncounted : ∀ j, j < 64 → countsFor s.core.cold scan g n j = false) (int : Bool) (o : BitVec 2) (a : BitVec 5) :
    s.reduceLane scan int (decide (g = 1)) o a n = (reduction int o).2.2 := by
  rw [reduceLane_eq, if_neg]
  rw [List.any_eq_true]
  rintro ⟨j, lt, counts⟩
  exact absurd counts (by simp [uncounted j (List.mem_range.1 lt)])

variable (counted : ∃ j, j < 64 ∧ countsFor s.core.cold scan g n j = true)
include counted

theorem reduceLane_of_some (int : Bool) (o : BitVec 2) (a : BitVec 5) :
    s.reduceLane scan int (decide (g = 1)) o a n = tree (reduction int o).1 ((List.range 64).map fun j =>
      if countsFor s.core.cold scan g n j then s.core.cold.lane a.toNat j else (reduction int o).2.1) := by
  obtain ⟨j, lt, counts⟩ := counted
  rw [reduceLane_eq, if_pos (List.any_eq_true.2 ⟨j, List.mem_range.2 lt, counts⟩)]

/-- An integer maximum is one of the lanes that count, and none of them is greater. -/
theorem reduceLane_max (a : BitVec 5) :
    (∃ j, j < 64 ∧ countsFor s.core.cold scan g n j = true ∧ s.reduceLane scan true (decide (g = 1)) 1 a n = s.core.cold.lane a.toNat j) ∧
    ∀ j, j < 64 → countsFor s.core.cold scan g n j = true →
      (s.reduceLane scan true (decide (g = 1)) 1 a n).slt (s.core.cold.lane a.toNat j) = false := by
  simp only [not_slt_iff]
  rw [reduceLane_of_some counted]
  exact selects_max.tree_lanes (ident := 0x80000000) (fun _ => BitVec.le_toInt _) (fun _ _ => BitVec.eq_of_toInt_eq) _ _ counted

/-- An integer minimum is one of the lanes that count, and none of them is less. -/
theorem reduceLane_min {o : BitVec 2} (sum : o ≠ 0) (max : o ≠ 1) (a : BitVec 5) :
    (∃ j, j < 64 ∧ countsFor s.core.cold scan g n j = true ∧ s.reduceLane scan true (decide (g = 1)) o a n = s.core.cold.lane a.toNat j) ∧
    ∀ j, j < 64 → countsFor s.core.cold scan g n j = true →
      (s.core.cold.lane a.toNat j).slt (s.reduceLane scan true (decide (g = 1)) o a n) = false := by
  have greatest : ∀ v : Word32, -(0x7FFFFFFF : Word32).toInt ≤ -v.toInt := fun v => neg_le_neg (BitVec.toInt_le (x := v))
  have tree := selects_min.tree_lanes greatest (fun _ _ h => BitVec.eq_of_toInt_eq (neg_inj.1 h)) (countsFor s.core.cold scan g n)
    (s.core.cold.lane a.toNat) counted
  simp only [neg_le_neg_iff] at tree
  simp only [not_slt_iff]
  rw [reduceLane_of_some counted, reduction_min true sum max]
  exact tree

end

/-- An integer sum is the sum of the lanes that count. -/
theorem reduceLane_sum (s : State) (scan : Bool) (g : BitVec 1) (a : BitVec 5) (n : Nat) :
    s.reduceLane scan true (decide (g = 1)) 0 a n =
      (((List.range 64).filter (countsFor s.core.cold scan g n)).map fun j => s.core.cold.lane a.toNat j).sum := by
  by_cases counted : ∃ j, j < 64 ∧ countsFor s.core.cold scan g n j = true
  · have addition : reduction true 0 = ((· + ·), 0, 0) := rfl
    rw [reduceLane_of_some counted, addition, ← sum_map_if]
    exact tree_add (by rw [List.length_map, List.length_range])
  · have uncounted : ∀ j, j < 64 → countsFor s.core.cold scan g n j = false := fun j lt =>
      Bool.eq_false_iff.2 fun counts => counted ⟨j, lt, counts⟩
    have empty : (List.range 64).filter (countsFor s.core.cold scan g n) = [] :=
      List.filter_eq_nil_iff.2 fun j lt => by simp [uncounted j (List.mem_range.1 lt)]
    rw [reduceLane_of_none uncounted, empty]
    rfl

/-- Settles O36: a reduced lane is the tree over the lanes that count; for integers the tree is their sum, maximum or minimum. -/
theorem reductionsOverTheFixedTree : Obligations.ReductionsOverTheFixedTree := by
  intro w d a i g o s m x seg counts node ident value
  have values : ∀ scan, value scan (s.reduceLane scan (decide (i = 1)) (decide (g = 1)) o a) := by
    refine fun scan n _ => ⟨?_, ?_, ?_, ?_, fun uncounted => ?_⟩
    · rintro rfl rfl
      exact reduceLane_sum s scan g a n
    · rintro rfl rfl counted
      exact reduceLane_max counted a
    · rintro rfl sum max counted
      exact reduceLane_min counted sum max a
    · rintro rfl counted
      rw [reduceLane_of_some counted]
      obtain ⟨nodes, identity⟩ := reduction_fp32 o
      rw [show decide ((0 : BitVec 1) = 1) = false from rfl, nodes, identity]
      rfl
    · rw [reduceLane_of_none uncounted]
      exact reduction_empty i o
  refine ⟨⟨_, ?_, values false⟩, ⟨_, ?_, values true⟩, ?_⟩
  · rw [exec_vred, ← reduceLane_charge]
    exact lands_landAllLanes (.vred w d a i g o) d 3 (·.reduceLane false (decide (i = 1)) (decide (g = 1)) o a) s
  · rw [exec_vscan, ← reduceLane_charge]
    exact lands_landAllLanes (.vscan w d a i g o) d 3 (·.reduceLane true (decide (i = 1)) (decide (g = 1)) o a) s
  · simp only [exec_vsegid, ← bits_eq_extractLsb']
    have lands := lands_landLanes (.vsegid w d a) d 2 (fun s n =>
      (s.coldSide (bits (s.vl a n) 19 4) (bits (s.vl a n) 5 14 * 32)).setWidth 32) s
    simp only [charge_coldSide, charge_vl] at lands
    exact lands

end Sys2Proof.Proofs
end

section
/-! # O54: decode of encode is the instruction (R78 to R101) -/

namespace Sys2Proof.Proofs

open Sys2Proof.Laws

/-- Every row of the opcode table round-trips, row by row in the order of the table. -/
theorem roundTrip (i : Instr) : RoundTrip.Statement i :=
  i.rec (motive := RoundTrip.Statement)
    RoundTrip.add RoundTrip.sub RoundTrip.and RoundTrip.or RoundTrip.xor RoundTrip.andn RoundTrip.orn RoundTrip.sll RoundTrip.srl
    RoundTrip.sra RoundTrip.mul RoundTrip.mulh RoundTrip.mulhu RoundTrip.div RoundTrip.divu RoundTrip.rem RoundTrip.remu RoundTrip.min
    RoundTrip.max RoundTrip.minu RoundTrip.maxu RoundTrip.slt RoundTrip.sltu RoundTrip.clz RoundTrip.ctz RoundTrip.popc RoundTrip.addw
    RoundTrip.subw RoundTrip.sllw RoundTrip.srlw RoundTrip.sraw RoundTrip.mulw RoundTrip.addi RoundTrip.andi RoundTrip.ori
    RoundTrip.xori RoundTrip.slli RoundTrip.srli RoundTrip.srai RoundTrip.slti RoundTrip.sltiu RoundTrip.lui RoundTrip.addpc
    RoundTrip.pcmp RoundTrip.pcmpi RoundTrip.pand RoundTrip.por RoundTrip.pxor RoundTrip.pnot RoundTrip.pmov RoundTrip.sel RoundTrip.br
    RoundTrip.jal RoundTrip.jalr RoundTrip.loop RoundTrip.lexit RoundTrip.join RoundTrip.sendl RoundTrip.sendr RoundTrip.recvl
    RoundTrip.recvr RoundTrip.nop RoundTrip.brk RoundTrip.cset RoundTrip.cget RoundTrip.cadd RoundTrip.caddi RoundTrip.ld RoundTrip.st
    RoundTrip.qmark RoundTrip.cwb RoundTrip.cinv RoundTrip.cwbinv RoundTrip.xin RoundTrip.xinm RoundTrip.xout RoundTrip.xput
    RoundTrip.xget RoundTrip.xwait RoundTrip.xcancel RoundTrip.shpld RoundTrip.shpst RoundTrip.btld RoundTrip.shpget RoundTrip.shpset
    RoundTrip.tstart RoundTrip.tstartEv RoundTrip.tstop RoundTrip.tbase RoundTrip.tsync RoundTrip.tload RoundTrip.evcfg RoundTrip.evsig
    RoundTrip.evwait RoundTrip.cptail RoundTrip.cpseq RoundTrip.ownLend RoundTrip.ownGive RoundTrip.ownRet RoundTrip.ownSplit
    RoundTrip.ownMerge RoundTrip.ownShare RoundTrip.ownUnshare RoundTrip.ownWait RoundTrip.ownQuery RoundTrip.bar RoundTrip.fence
    RoundTrip.aadd RoundTrip.aaddf RoundTrip.axchg RoundTrip.a2sum RoundTrip.srd RoundTrip.swr RoundTrip.ecall RoundTrip.tret
    RoundTrip.tack RoundTrip.halt RoundTrip.wfi RoundTrip.oeqpop RoundTrip.rotpt RoundTrip.iinv RoundTrip.crossingAdmit
    RoundTrip.crossingComplete RoundTrip.xoutCapture RoundTrip.depto RoundTrip.plen RoundTrip.tableStart RoundTrip.termFire
    RoundTrip.engineIdle RoundTrip.mnop RoundTrip.mma RoundTrip.mldm RoundTrip.mscale RoundTrip.mstore RoundTrip.mzero RoundTrip.mdrain
    RoundTrip.mchk RoundTrip.mfix RoundTrip.mcopy RoundTrip.mlda RoundTrip.ma2s RoundTrip.mtile RoundTrip.mloop RoundTrip.mflag
    RoundTrip.mwaits RoundTrip.mmask RoundTrip.mcbt RoundTrip.vnop RoundTrip.vadd RoundTrip.vsub RoundTrip.vmul RoundTrip.vfma
    RoundTrip.vmin RoundTrip.vmax RoundTrip.vabs RoundTrip.vneg RoundTrip.vcmp RoundTrip.vcvt RoundTrip.vexp2 RoundTrip.vexpd
    RoundTrip.vlog2 RoundTrip.vrcp RoundTrip.vrsq RoundTrip.viadd RoundTrip.visub RoundTrip.vimul RoundTrip.vand RoundTrip.vor
    RoundTrip.vxor RoundTrip.vshl RoundTrip.vshr RoundTrip.vsar RoundTrip.vsel RoundTrip.vmov RoundTrip.vbcast RoundTrip.vperm
    RoundTrip.vred RoundTrip.vscan RoundTrip.vsegid RoundTrip.vld RoundTrip.vst RoundTrip.vldacc RoundTrip.vstacc RoundTrip.vparam
    RoundTrip.mpush RoundTrip.minv RoundTrip.mpop RoundTrip.mskz RoundTrip.vloop RoundTrip.vflag RoundTrip.vwaits RoundTrip.tnop
    RoundTrip.tdload RoundTrip.tmode RoundTrip.tmodeAll RoundTrip.tmodeTs RoundTrip.twset RoundTrip.tlaunch RoundTrip.tcapture
    RoundTrip.treset RoundTrip.trelax RoundTrip.tflag RoundTrip.copy RoundTrip.copys RoundTrip.fill RoundTrip.bcast RoundTrip.cksum
    RoundTrip.signal RoundTrip.waitseq RoundTrip.tokret RoundTrip.link RoundTrip.mirwait RoundTrip.rotation RoundTrip.rotationRebind
    RoundTrip.admission RoundTrip.admissionRetest RoundTrip.taskStart RoundTrip.graphNodeRelease RoundTrip.graphReplay
    RoundTrip.launchCompletion RoundTrip.messageMatch RoundTrip.messageSend RoundTrip.marginStep RoundTrip.cesetRestore
    RoundTrip.droopRaise RoundTrip.drainDeadline RoundTrip.coldHandshakeTimeout RoundTrip.tstatWrite RoundTrip.oeqstatWrite
    RoundTrip.heatbudWrite RoundTrip.injWrite RoundTrip.trapEntry RoundTrip.preemptionRequest RoundTrip.frameClassify
    RoundTrip.launchArmWrite RoundTrip.regionEntryWrite RoundTrip.keySlotLoad RoundTrip.memprotWrite RoundTrip.errorBankClear
    RoundTrip.cesetWrite RoundTrip.scrub RoundTrip.marginError RoundTrip.droop RoundTrip.clockHop RoundTrip.stageTemperature
    RoundTrip.flitCrcFail RoundTrip.portFail RoundTrip.packageFailure RoundTrip.coreFailure RoundTrip.moduleReset
    RoundTrip.lockstepMismatch RoundTrip.launchKill RoundTrip.parkedSpanHandover RoundTrip.kernelLoad RoundTrip.codePatch
    RoundTrip.hostStore RoundTrip.deviceDma RoundTrip.quadRailSet RoundTrip.droopRecovery RoundTrip.bankFailure
    RoundTrip.bankRebuildComplete RoundTrip.loadPerform RoundTrip.loadDataReturn RoundTrip.storePerform RoundTrip.tokenSendComplete
    RoundTrip.barrierComplete RoundTrip.atomApply RoundTrip.atomComplete RoundTrip.engineCommandPerform RoundTrip.unitStall
    RoundTrip.smiss RoundTrip.drainArrive RoundTrip.temporalEvalLand RoundTrip.entryComplete RoundTrip.mirrorAck RoundTrip.mirrorTimeout
    RoundTrip.heatWindow RoundTrip.stopPoint RoundTrip.contextSave RoundTrip.contextRestore RoundTrip.wfiTimeout RoundTrip.tlbWalkReturn

/-- The steps that no word encodes are the copy entries and the events. -/
theorem encode_isSome (i : Instr) : (encode i).isSome = (decide (i.kind ≠ .event) && decide (i.kind ≠ .entry)) := by
  cases i <;> rfl

/-- Settles O54: each row in its own place by `roundTrip`, a copy entry by its bytes. -/
theorem decodeOfEncodeIsTheInstruction : Obligations.DecodeOfEncodeIsTheInstruction := by
  refine ⟨fun i w wf word => (roundTrip i wf).1 w word, fun i event entry => ?_, decode_encodeEntry⟩
  rw [← Option.isSome_iff_exists, encode_isSome]
  simp [event, entry]

end Sys2Proof.Proofs
end

section
/-! # O55 and O56: words of the encoding tables, undefined patterns and words of another cluster (R79 to R97) -/

namespace Sys2Proof.Proofs

open Sys2Proof.Machine

/-- Settles O55: the decoder evaluated on each of the words. -/
theorem wordsOfTheSpecDecode : Obligations.WordsOfTheSpecDecode :=
  ⟨rfl, rfl, rfl, rfl, rfl, rfl, rfl, rfl, rfl, rfl, rfl, rfl, rfl, rfl, rfl, rfl, rfl⟩

/-- A MAJ that no row of the table assigns is 0x00, or one that neither decoder of control words has a case for (R80, R88). -/
theorem undefinedMajor {m : BitVec 6}
    (listed : m.toNat ∈ [0x00, 0x1B, 0x1C, 0x1D, 0x1E, 0x1F, 0x24, 0x25, 0x26, 0x27, 0x37, 0x3F]) :
    m = 0 ∨ ∀ s f, decodeScalar s m f = .error .reservedMajor ∧ decodePort s m f = .error .reservedMajor := by
  have known : m ∈ [0x00#6, 0x1B, 0x1C, 0x1D, 0x1E, 0x1F, 0x24, 0x25, 0x26, 0x27, 0x37, 0x3F] := by
    simpa [← BitVec.toNat_inj] using listed
  obtain zero | reserved := List.mem_cons.1 known
  · exact .inl zero
  · simp only [List.mem_cons, List.not_mem_nil, or_false] at reserved
    rcases reserved with rfl | rfl | rfl | rfl | rfl | rfl | rfl | rfl | rfl | rfl | rfl <;> exact .inr fun s f => ⟨rfl, rfl⟩

/-- A word of such a MAJ is refused, as illegal or as reserved. -/
theorem decodeControl_undefined {w : Word32}
    (undefined : (w.extractLsb' 25 6).toNat ∈ [0x00, 0x1B, 0x1C, 0x1D, 0x1E, 0x1F, 0x24, 0x25, 0x26, 0x27, 0x37, 0x3F]) :
    ∃ e, decodeControl w = .error e := by
  obtain zero | reserved := undefinedMajor undefined
  · exact ⟨.illegalMajor, if_pos zero⟩
  · obtain ⟨scalar, port⟩ := reserved (w.extractLsb' 31 1) (w.extractLsb' 0 25)
    simp only [decodeControl, scalar, port, assigned, ite_self]
    split <;> exact ⟨_, rfl⟩

/-! ## What a cluster makes of the word of its lane -/

theorem decodeLane_undefined {s : State} {b : BitVec 128} (undefined : ∃ e, decodeControl (s.laneBits b) = .error e) :
    s.decodeLane b = .error 0x01 := by
  obtain ⟨e, refused⟩ := undefined
  rw [State.decodeLane, refused]

theorem decodeLane_otherCluster {s : State} {b : BitVec 128} {i : Instr} {ls : List Lane} (word : decodeControl (s.laneBits b) = .ok i)
    (bound : i.lanes = some ls) (other : ls.contains s.lane = false) : s.decodeLane b = .error 0x02 := by
  simp only [State.decodeLane, word, bound, other, Bool.false_eq_true, if_false]

theorem decodeLane_ok {s : State} {b : BitVec 128} {i : Instr} (word : decodeControl (s.laneBits b) = .ok i)
    (own : ∀ ls, i.lanes = some ls → ls.contains s.lane = true) : s.decodeLane b = .ok i := by
  simp only [State.decodeLane, word]
  split
  · rfl
  · next ls bound => exact if_pos (own ls bound)

/-- A word that decodes to no instruction of its cluster traps at its own handle (R88, R89). -/
theorem issueSplit_refused {s : State} {b : BitVec 128} {code : Nat} (line : s.fetch s.cl.pc = .bundle b)
    (refused : s.decodeLane b = .error code) : s.issueSplit = .next (s.wordTrap code s.wordHandle) := by
  unfold State.issueSplit
  simp only [line, refused]

/-- Settles O56: a listed MAJ has no case in the decoder, and what the decoder of the lane refuses traps. -/
theorem undefinedPatternsTrap : Obligations.UndefinedPatternsTrap := by
  refine ⟨fun w undefined => decodeControl_undefined undefined, fun b s line => ⟨fun undefined => ?_, fun i ls word bound other => ?_⟩,
    fun s outside => ?_⟩
  · exact issueSplit_refused line (decodeLane_undefined undefined)
  · exact issueSplit_refused line (decodeLane_otherCluster word bound other)
  · unfold State.issueSplit
    rw [outside]

end Sys2Proof.Proofs
end

section
/-! # O57: a step runs the decoded instruction, or advances the clock (R3, R13, R73 to R75, R90, R91, R141, R314, R386) -/

namespace Sys2Proof.Proofs

open Sys2Proof.Machine Sys2Proof.Laws

/-! ## The action at the head of the agenda -/

theorem step_yields {a : Action} {rest : List Action} {s : State} (head : s.agenda = a :: rest)
    (yields : State.yields { s with agenda := rest } a = true) : step s = .next { s with agenda := rest, cur := a.core } := by
  unfold step State.act
  simp only [head, yields, if_true]

theorem step_performs {a : Action} {rest : List Action} {s : State} (head : s.agenda = a :: rest)
    (reported : State.yields { s with agenda := rest } a = false) : step s = State.doAction { s with agenda := rest } a := by
  unfold step State.act
  simp only [head, reported, Bool.false_eq_true, if_false]

/-! ## The words of a core -/

section
variable {u : State} {l : Lane}

/-- A split cluster whose turn it is issues its next word. -/
theorem issue_split (runs : u.core.issues = true) (going : u.core.halting = false) (split : (State.cl { u with lane := l }).split = true)
    (ready : (State.cl { u with lane := l }).readyAt ≤ u.warm) : u.issue l false = State.issueSplit { u with lane := l } := by
  unfold State.issue
  simp only [runs, going, split, Nat.not_lt.2 ready, Bool.not_true, Bool.false_eq_true, or_self, if_false]

theorem issue_group (runs : u.core.issues = true) (going : u.core.halting = false) : u.issue l true = u.issueGroup := by
  unfold State.issue
  simp only [runs, going, Bool.not_true, Bool.false_eq_true, if_false, if_true]

end

theorem issueSplit_miss {s : State} {key : Nat} (line : s.fetch s.cl.pc = .miss key) :
    s.issueSplit = .next (s.fillCode key [s.lane]) := by
  unfold State.issueSplit
  rw [line]

/-- Where no word is substituted, what a word leaves stands. -/
theorem endSubst_none {s : State} (t : State) (plain : s.core.substAt = none) : s.endSubst t = t :=
  if_neg fun h => by simp [plain] at h

/-- The word of its lane is what a split cluster runs. -/
theorem issueSplit_runs {s : State} {b : BitVec 128} {i : Instr} (line : s.fetch s.cl.pc = .bundle b) (word : s.decodeLane b = .ok i)
    (free : s.core.stopWord s.lane i = false) (plain : s.core.substAt = none) : s.issueSplit = exec i s := by
  unfold State.issueSplit
  simp only [line, word, free, endSubst_none _ plain, Bool.false_eq_true, if_false]
  cases exec i s <;> rfl

/-- A joined group performs its bundle when no word of it is held up, waits, stops or traps. -/
theorem issueGroup_performs {u : State} {b : BitVec 128} {is : List (Lane × Instr)} {vs : List (Lane × Instr × Verdict)}
    (joined : u.core.group ≠ [])
    (ready : ∀ k ∈ u.core.group, (u.core.cluster k).readyAt ≤ u.warm ∧ (u.core.cluster k).done = false)
    (line : State.fetch { u with lane := u.core.group.headD .L } (u.core.cluster (u.core.group.headD .L)).pc = .bundle b)
    (words : u.decodeGroup b u.core.group = .ok is) (free : ∀ x ∈ is, u.core.stopWord x.1 x.2 = false) (one : twoLoops is = false)
    (judged : judge u is = .ok vs) (all : ∀ x ∈ vs, x.2.2 = .done) :
    u.issueGroup = u.performGroup (u.core.cluster (u.core.group.headD .L)).pc u.core.group is := by
  have turn : ¬(u.core.group.isEmpty = true ∨ (u.core.group.any fun k => decide (u.warm < (u.core.cluster k).readyAt)) = true) := by
    simp only [List.isEmpty_iff, joined, List.any_eq_true, decide_eq_true_eq, false_or, not_exists, not_and, not_lt]
    exact fun k member => (ready k member).1
  have fresh : (u.core.group.filter fun k => !(u.core.cluster k).done) = u.core.group :=
    List.filter_eq_self.2 fun k member => by simp [(ready k member).2]
  have going : (is.any fun x => u.core.stopWord x.1 x.2) = false := List.any_eq_false.2 fun x member => by simp [free x member]
  have unheld : (vs.filter fun x => decide (x.2.2 = .holds)) = [] := List.filter_eq_nil_iff.2 fun x member => by simp [all x member]
  have unwaiting : (vs.filter fun x => decide (x.2.2 = .waits) && !awaitsBundle x.2.1) = [] :=
    List.filter_eq_nil_iff.2 fun x member => by simp [all x member]
  have untrapped : (vs.find? fun x => decide (x.2.2 = .trap)) = none := List.find?_eq_none.2 fun x member => by simp [all x member]
  unfold State.issueGroup
  simp only [if_neg turn, line, fresh, words, going, judged, unheld, unwaiting, one, untrapped, List.isEmpty_nil, Bool.not_true,
    Bool.false_eq_true, if_false]

/-! ## The orders of an engine -/

/-- Orders run one after the other, slot X before slot Y, up to one that gives no next state. -/
def runOrders (orders : List Instr) (s : State) : Out :=
  orders.foldl (fun (r : Out) i => match r with
    | .next t => exec i t
    | o => o) (.next s)

theorem runOrders_one {i : Instr} {s t : State} (ran : exec i s = .next t) : runOrders [i] s = .next t := ran

theorem runOrders_two {i j : Instr} {s t t' : State} (ran : exec i s = .next t) (ran' : exec j t = .next t') :
    runOrders [i, j] s = .next t' := by
  simp only [runOrders, List.foldl_cons, List.foldl_nil, ran, ran']

section
variable {u : State} {e : EngineId}

/-- An engine with a step to issue, no filler before it and no fault at it runs the orders of that step, one after the other. -/
theorem engineCycle_runs {t : State} (live : (u.dieAt (dieOf u.cur)).stalled = false)
    (run : (u.core.engine e).run = true) (free : u.core.held = false) (filled : (u.core.engine e).fill = 0)
    (unskipped : (u.core.engine e).skip = 0) (first : (u.core.engine e).last ≠ u.clock + 1) (sound : u.orderFault e = none) :
    let v := (u.openAt e).modCore fun c => c.modEngine e fun y => { y with last := u.clock + 1 }
    runOrders (v.core.cold.ordersAt e (u.core.engine e).step) v = .next t → u.engineCycle e = .next (t.modCore fun c => c.nextStep e) := by
  intro v orders
  unfold State.engineCycle State.issueOrder
  simp only [live, run, free, filled, unskipped, first, sound, Bool.not_true, Bool.false_eq_true, or_self, ne_eq, not_true_eq_false, if_false]
  split
  · next t' ran =>
    cases ran.symm.trans orders
    rfl
  · next stuck => exact absurd orders (stuck t)

/-- A filler before the step passes. -/
theorem engineCycle_filler (live : (u.dieAt (dieOf u.cur)).stalled = false) (run : (u.core.engine e).run = true)
    (free : u.core.held = false) (filler : (u.core.engine e).fill ≠ 0) : u.engineCycle e = .next (u.filler e) := by
  unfold State.engineCycle
  simp only [live, run, free, filler, Bool.not_true, Bool.false_eq_true, or_self, ne_eq, not_false_eq_true, if_false, if_true]

theorem fill_filler : ((u.filler e).core.engine e).fill = (u.core.engine e).fill - 1 := by
  unfold State.filler
  rw [core_modCore]
  cases e <;> rfl

end

/-! ## The copy engine -/

theorem serve_turn {u : State} {q k : Nat} (turn : u.turnOf q = some k) :
    u.serve q = State.takeNext ({ u with cur := k }.modDieAt (dieOf k) fun d => { d with turns := Sp.set 0 d.turns q ((k + 1) % 4) }) := by
  unfold State.serve
  simp only [turn]

theorem serve_none {u : State} {q : Nat} (turn : u.turnOf q = none) : u.serve q = .next u := by
  unfold State.serve
  simp only [turn]

/-- The copy engine runs the entry at HEAD of a string that may be taken and lacks no translation. -/
theorem takeNext_runs {s : State} {i : Instr} (takes : s.takes = true) (translated : s.nextWalk.1 = none) (entry : s.readEntry = .ok i) :
    s.takeNext = exec i s := by
  unfold State.takeNext
  obtain ⟨walk, held⟩ : ∃ held, s.nextWalk = (none, held) := ⟨s.nextWalk.2, Prod.ext translated rfl⟩
  simp only [takes, held, entry, Bool.not_true, Bool.false_eq_true, if_false]

/-! ## The clock -/

/-- What is picked for the agenda uses up free choices and changes nothing else. -/
theorem pick_frame (s : State) (acts : List (Bool × Action)) : ∃ n, (s.pick acts).2 = { s with drawn := n } := by
  induction acts generalizing s with
  | nil => exact ⟨s.drawn, rfl⟩
  | cons act rest ih =>
    obtain ⟨free, a⟩ := act
    cases free with
    | false => exact ih s
    | true =>
      obtain ⟨n, tail⟩ := ih s.choose.2
      exact ⟨n, tail⟩

/-- Within a warm cycle a cold cycle begins and no core or byte changes. -/
theorem tick_cold {s : State} (within : (s.clock + 1) % 16 ≠ 0) : s.tick.clock = s.clock + 1 ∧ s.tick.mem = s.mem ∧ s.tick.cores = s.cores := by
  have cold : s.tick = { s.nextCycle with agenda := s.nextCycle.coldActs ++ s.nextCycle.termActs } := if_neg within
  rw [cold]
  exact ⟨rfl, rfl, rfl⟩

/-- Sixteen cold cycles make a warm one, which begins with nothing to do on any core where there is none. -/
theorem tick_warm {s : State} (sixteenth : (s.clock + 1) % 16 = 0) (noCore : s.cores = []) (noPart : s.parts = []) :
    s.tick.clock = s.clock + 1 ∧ s.tick.mem = s.mem ∧ s.tick.cores = [] := by
  have warm : s.tick = s.nextCycle.beginWarm := if_pos sixteenth
  have idle : (s.nextCycle.cores.map (·.1)).foldl State.startWarm s.nextCycle.startDies = s.nextCycle.startDies := by
    rw [show s.nextCycle.cores = [] from noCore]; rfl
  have settled : (s.nextCycle.startDies.parts.map (·.1)).foldl State.settleShoots s.nextCycle.startDies = s.nextCycle.startDies := by
    rw [show s.nextCycle.startDies.parts = [] from noPart]; rfl
  obtain ⟨n, picked⟩ := pick_frame s.nextCycle.startDies s.nextCycle.startDies.warmActs
  rw [warm]
  unfold State.beginWarm
  simp only [idle, settled, picked]
  exact ⟨rfl, rfl, noCore⟩

/-- Settles O57: the head of the agenda by its kind, each run by the lemma of its kind above; the clock by its two cases. -/
theorem stepsRunTheDecodedInstruction : Obligations.StepsRunTheDecodedInstruction := by
  refine ⟨fun a rest s head => ⟨step_yields head, fun reported => ?_⟩, fun s idle => ?_⟩
  · rw [step_performs head reported]
    obtain ⟨core, what⟩ := a
    refine ⟨?_, ?_, ?_, ?_, ?_, ?_, ?_⟩
    · rintro l b i rfl v runs going split ready
      have turn := issue_split runs going split ready
      refine ⟨fun key line => turn.trans (issueSplit_miss line), fun line word own free plain => turn.trans ?_⟩
      exact issueSplit_runs line (decodeLane_ok word own) free plain
    · rintro l pc b is vs rfl runs going joined ready rfl line words free one judged all
      exact (issue_group runs going).trans (issueGroup_performs joined ready line words free one judged all)
    · rintro e i rfl live run free filled unskipped first sound v
      refine ⟨fun orders t ran => ?_, fun j orders t t' ran ran' => ?_⟩
      · exact engineCycle_runs live run free filled unskipped first sound (orders ▸ runOrders_one ran)
      · exact engineCycle_runs live run free filled unskipped first sound (orders ▸ runOrders_two ran ran')
    · rintro k i rfl turn v takes translated entry
      exact (serve_turn turn).trans (takeNext_runs takes translated entry)
    · rintro rfl turn
      exact serve_none turn
    · rintro i rfl (unscheduled | live)
      · exact if_neg fun ⟨held, _⟩ => Bool.false_ne_true (unscheduled.symm.trans held)
      · exact if_neg fun ⟨_, stalled⟩ => Bool.false_ne_true (live.symm.trans stalled)
    · rintro e rfl run free live filler
      exact ⟨_, engineCycle_filler live run free filler, fill_filler, rfl⟩
  · refine ⟨s.tick, ?_, tick_cold, tick_warm⟩
    unfold step
    rw [idle]

end Sys2Proof.Proofs
end

section
/-! # O1 to O4: integer words, immediates, predicates and coordinates (R114, R117 to R124, R79) -/

namespace Sys2Proof.Proofs

open Sys2Proof.Machine Sys2Proof.Laws

/-! ## The values of the tables -/

theorem flag_slt (x y : Word) : flag (x.slt y) = if x.toInt < y.toInt then 1 else 0 := by
  simp only [flag, BitVec.slt, decide_eq_true_eq]

theorem flag_ult (x y : Word) : flag (x.ult y) = if x.toNat < y.toNat then 1 else 0 := by
  simp only [flag, BitVec.ult, decide_eq_true_eq]

/-- A signed minimum takes either of two equal words. -/
theorem min_signed (x y : Word) : (if x.slt y then x else y) = if x.toInt ≤ y.toInt then x else y := by
  simp only [BitVec.slt, decide_eq_true_eq]
  split_ifs with h h'
  · rfl
  · omega
  · exact BitVec.eq_of_toInt_eq (by omega)
  · rfl

theorem max_signed (x y : Word) : (if x.slt y then y else x) = if x.toInt ≤ y.toInt then y else x := by
  simp only [BitVec.slt, decide_eq_true_eq]
  split_ifs with h h'
  · rfl
  · omega
  · exact BitVec.eq_of_toInt_eq (by omega)
  · rfl

theorem min_unsigned (x y : Word) : (if x.ult y then x else y) = if x.toNat ≤ y.toNat then x else y := by
  simp only [BitVec.ult, decide_eq_true_eq]
  split_ifs with h h'
  · rfl
  · omega
  · exact BitVec.eq_of_toNat_eq (by omega)
  · rfl

theorem max_unsigned (x y : Word) : (if x.ult y then y else x) = if x.toNat ≤ y.toNat then y else x := by
  simp only [BitVec.ult, decide_eq_true_eq]
  split_ifs with h h'
  · rfl
  · omega
  · exact BitVec.eq_of_toNat_eq (by omega)
  · rfl

/-- A shift by a register takes the low bits of its count (R117). -/
theorem toNat_count6 (y : Word) : (y.extractLsb' 0 6).toNat = y.toNat % 64 := by
  rw [BitVec.extractLsb'_toNat, Nat.shiftRight_zero]

theorem toNat_count5 (y : Word) : (y.extractLsb' 0 5).toNat = y.toNat % 32 := by
  rw [BitVec.extractLsb'_toNat, Nat.shiftRight_zero]

theorem extract_low_eq_truncate (x : Word) : x.extractLsb' 0 32 = x.truncate 32 := by
  apply BitVec.eq_of_toNat_eq
  simp

/-- Settles O1: each form is `word3` with its function, and the function is the table's. -/
theorem registerWordsWriteTheirValue : Obligations.RegisterWordsWriteTheirValue := by
  intro sy d a b s hr
  dsimp only
  have shift (n : Nat) (c : BitVec n) (w : Nat) (v : BitVec w) :
      v <<< c = v <<< c.toNat ∧ v >>> c = v >>> c.toNat ∧ v.sshiftRight' c = v.sshiftRight c.toNat := ⟨rfl, rfl, rfl⟩
  simp only [extract_low_eq_truncate, (shift ..).1, (shift ..).2.1, (shift ..).2.2, toNat_count6, toNat_count5,
    exec_add, exec_sub, exec_and, exec_or, exec_xor, exec_andn, exec_orn, exec_sll, exec_srl, exec_sra, exec_min, exec_max, exec_minu,
    exec_maxu, exec_slt, exec_sltu, exec_addw, exec_subw, exec_sllw, exec_srlw, exec_sraw]
  exact ⟨word3_writes hr rfl, word3_writes hr rfl, word3_writes hr rfl, word3_writes hr rfl, word3_writes hr rfl, word3_writes hr rfl,
    word3_writes hr rfl, word3_writes hr rfl, word3_writes hr rfl, word3_writes hr rfl, word3_writes hr (min_signed _ _),
    word3_writes hr (max_signed _ _), word3_writes hr (min_unsigned _ _), word3_writes hr (max_unsigned _ _),
    word3_writes hr (flag_slt _ _), word3_writes hr (flag_ult _ _), word3_writes hr rfl, word3_writes hr rfl, word3_writes hr rfl,
    word3_writes hr rfl, word3_writes hr rfl⟩

end Sys2Proof.Proofs
end

section
/-! # O2: products, quotients and bit counts (R114, R117, R118) -/

namespace Sys2Proof.Proofs

open Sys2Proof.Machine Sys2Proof.Laws

/-! ## Products -/

/-- A field of 64 bits of a product in 128 bits, from the product of the integers. -/
theorem extract_ofInt (p : Int) : (BitVec.ofInt 128 p).extractLsb' 0 64 = BitVec.ofInt 64 p ∧
    (BitVec.ofInt 128 p).extractLsb' 64 64 = BitVec.ofInt 64 (p / 2 ^ 64) := by
  constructor <;> apply BitVec.eq_of_toNat_eq
  all_goals
    simp only [BitVec.extractLsb'_toNat, BitVec.toNat_ofInt, Nat.shiftRight_eq_div_pow]
    omega

theorem signExtend_mul (x y : Word) : x.signExtend 128 * y.signExtend 128 = BitVec.ofInt 128 (x.toInt * y.toInt) := by
  rw [BitVec.ofInt_mul]
  rfl

theorem mul_low (x y : Word) : x * y = (x.signExtend 128 * y.signExtend 128).extractLsb' 0 64 := by
  rw [signExtend_mul, (extract_ofInt _).1, BitVec.ofInt_mul, BitVec.ofInt_toInt, BitVec.ofInt_toInt]

theorem mul_high_signed (x y : Word) :
    BitVec.ofInt 64 (x.toInt * y.toInt / 2 ^ 64) = (x.signExtend 128 * y.signExtend 128).extractLsb' 64 64 := by
  rw [signExtend_mul, (extract_ofInt _).2]

theorem mul_high_unsigned (x y : Word) :
    word (x.toNat * y.toNat / 2 ^ 64) = (x.setWidth 128 * y.setWidth 128).extractLsb' 64 64 := by
  have fits : x.toNat * y.toNat < 2 ^ 128 := by
    have := Nat.mul_lt_mul'' x.isLt y.isLt
    omega
  apply BitVec.eq_of_toNat_eq
  simp only [word, BitVec.toNat_ofNat, BitVec.extractLsb'_toNat, BitVec.toNat_mul, BitVec.toNat_setWidth, Nat.shiftRight_eq_div_pow]
  rw [Nat.mod_eq_of_lt (lt_trans x.isLt (by decide)), Nat.mod_eq_of_lt (lt_trans y.isLt (by decide)), Nat.mod_eq_of_lt fits]

/-! ## Quotients and remainders (R118) -/

/-- Division toward zero of two words overflows for −2^63 by −1 alone. -/
theorem tdiv_range {x y : Word} (hy : y ≠ 0) (h : ¬(x = BitVec.intMin 64 ∧ y = BitVec.allOnes 64)) :
    -2 ^ 63 ≤ x.toInt.tdiv y.toInt ∧ x.toInt.tdiv y.toInt < 2 ^ 63 := by
  have hx := x.le_toInt
  have hx' := x.toInt_lt
  have h0 : y.toInt ≠ 0 := fun e => hy (BitVec.eq_of_toInt_eq (by simpa using e))
  have size : (x.toInt.tdiv y.toInt).natAbs = x.toInt.natAbs / y.toInt.natAbs := Int.natAbs_tdiv ..
  by_cases one : y.toInt.natAbs = 1
  · have : y.toInt = 1 ∨ y.toInt = -1 := by omega
    rcases this with e | e
    · rw [e, Int.tdiv_one]
      omega
    · have : x.toInt ≠ -2 ^ 63 := fun ex => h ⟨BitVec.eq_of_toInt_eq (by rw [ex]; rfl), BitVec.eq_of_toInt_eq (by rw [e]; rfl)⟩
      rw [e, Int.tdiv_neg, Int.tdiv_one]
      omega
  · have : x.toInt.natAbs / y.toInt.natAbs ≤ x.toInt.natAbs / 2 := Nat.div_le_div_left (by omega) (by decide)
    omega

theorem toInt_ofInt_of_range {v : Int} (lo : -2 ^ 63 ≤ v) (hi : v < 2 ^ 63) : (BitVec.ofInt 64 v).toInt = v :=
  BitVec.toInt_ofInt_eq_self (by decide) lo hi

/-- The signed quotient and remainder of R118, where the divisor is not 0 and the quotient does not overflow. -/
theorem signed_division {x y : Word} (hy : y ≠ 0) (h : ¬(x = BitVec.intMin 64 ∧ y = BitVec.allOnes 64)) :
    let q := BitVec.ofInt 64 (x.toInt.tdiv y.toInt)
    let r := BitVec.ofInt 64 (x.toInt.tmod y.toInt)
    x.toInt = q.toInt * y.toInt + r.toInt ∧ |r.toInt| < |y.toInt| ∧ 0 ≤ r.toInt * x.toInt := by
  have h0 : y.toInt ≠ 0 := fun e => hy (BitVec.eq_of_toInt_eq (by simpa using e))
  obtain ⟨lo, hi⟩ := tdiv_range hy h
  have small : |x.toInt.tmod y.toInt| < |y.toInt| := by
    rw [Int.abs_eq_natAbs, Int.abs_eq_natAbs, Int.natAbs_tmod]
    exact_mod_cast Nat.mod_lt _ (by omega)
  have hyl := y.le_toInt
  have hyh := y.toInt_lt
  have rlo : -2 ^ 63 ≤ x.toInt.tmod y.toInt := by
    have := neg_abs_le (x.toInt.tmod y.toInt)
    have : |y.toInt| ≤ 2 ^ 63 := abs_le.2 ⟨by omega, by omega⟩
    omega
  have rhi : x.toInt.tmod y.toInt < 2 ^ 63 := by
    have := le_abs_self (x.toInt.tmod y.toInt)
    have : |y.toInt| ≤ 2 ^ 63 := abs_le.2 ⟨by omega, by omega⟩
    omega
  dsimp only
  rw [toInt_ofInt_of_range lo hi, toInt_ofInt_of_range rlo rhi]
  refine ⟨(Int.tdiv_mul_add_tmod ..).symm, small, ?_⟩
  rcases le_total 0 x.toInt with hx | hx
  · exact mul_nonneg (Int.tmod_nonneg _ hx) hx
  · refine mul_nonneg_of_nonpos_of_nonpos ?_ hx
    have := Int.tmod_nonneg y.toInt (show 0 ≤ -x.toInt by omega)
    rw [Int.neg_tmod] at this
    omega

theorem unsigned_division {x y : Word} (hy : y ≠ 0) :
    x.toNat = (word (x.toNat / y.toNat)).toNat * y.toNat + (word (x.toNat % y.toNat)).toNat ∧ (word (x.toNat % y.toNat)).toNat < y.toNat := by
  have pos : 0 < y.toNat := Nat.pos_of_ne_zero fun e => hy (toNat_eq_zero.1 e)
  have q : (word (x.toNat / y.toNat)).toNat = x.toNat / y.toNat :=
    Nat.mod_eq_of_lt (lt_of_le_of_lt (Nat.div_le_self ..) x.isLt)
  have r : (word (x.toNat % y.toNat)).toNat = x.toNat % y.toNat :=
    Nat.mod_eq_of_lt (lt_of_le_of_lt (Nat.mod_le ..) x.isLt)
  rw [q, r]
  exact ⟨(Nat.div_add_mod' ..).symm, Nat.mod_lt _ pos⟩

/-! ## Bit counts (R117) -/

/-- The leading zeros of a word as a number. -/
def leadCount (x : Word) : Nat := if x = 0 then 64 else 63 - Nat.log2 x.toNat

/-- The trailing zeros of a word as a number. -/
def trailCount (x : Word) : Nat := if x = 0 then 64 else Nat.log2 (x &&& -x).toNat

theorem leadingZeros_eq (x : Word) : leadingZeros x = BitVec.ofNat 64 (leadCount x) := by
  unfold leadingZeros leadCount
  split_ifs <;> rfl

theorem trailingZeros_eq (x : Word) : trailingZeros x = BitVec.ofNat 64 (trailCount x) := by
  unfold trailingZeros trailCount
  split_ifs <;> rfl

theorem leadCount_spec (x : Word) :
    leadCount x ≤ 64 ∧ (∀ i, i < leadCount x → x.getMsbD i = false) ∧ (leadCount x < 64 → x.getMsbD (leadCount x) = true) := by
  unfold leadCount
  split_ifs with h
  · subst h
    exact ⟨le_rfl, fun i _ => by simp, fun h => absurd h (by decide)⟩
  · have h0 : x.toNat ≠ 0 := fun e => h (toNat_eq_zero.1 e)
    have top : x.toNat.log2 < 64 := (Nat.log2_lt h0).2 x.isLt
    refine ⟨by omega, fun i hi => ?_, fun _ => ?_⟩
    · rw [BitVec.getMsbD_eq_getLsbD, decide_eq_true (by omega), Bool.true_and]
      exact Nat.testBit_lt_two_pow ((Nat.log2_lt h0).1 (by omega))
    · rw [BitVec.getMsbD_eq_getLsbD, decide_eq_true (by omega), Bool.true_and, show 64 - 1 - (63 - x.toNat.log2) = x.toNat.log2 by omega]
      exact Nat.testBit_log2 h0

/-- `x & −x` is the lowest set bit of `x` alone. -/
theorem and_neg_eq_twoPow {x : Word} {k : Nat} (hk : k < 64) (set : x.getLsbD k = true) (low : ∀ j < k, x.getLsbD j = false) :
    x &&& -x = BitVec.twoPow 64 k := by
  apply BitVec.eq_of_getLsbD_eq
  intro i hi
  rw [BitVec.getLsbD_and, BitVec.getLsbD_neg, BitVec.getLsbD_twoPow, decide_eq_true hi, decide_eq_true hk, Bool.true_and, Bool.true_and]
  rcases lt_trichotomy i k with h | h | h
  · simp [low i h, h.ne']
  · subst h
    have : ¬∃ j < i, x.getLsbD j = true := by
      rintro ⟨j, hj, hs⟩
      rw [low j hj] at hs
      cases hs
    simp [set, this]
  · have : ∃ j < i, x.getLsbD j = true := ⟨k, h, set⟩
    simp [this, h.ne]

theorem trailCount_spec (x : Word) :
    trailCount x ≤ 64 ∧ (∀ i, i < trailCount x → x.getLsbD i = false) ∧ (trailCount x < 64 → x.getLsbD (trailCount x) = true) := by
  unfold trailCount
  split_ifs with h
  · subst h
    exact ⟨le_rfl, fun i _ => by simp, fun h => absurd h (by decide)⟩
  · have some_set : ∃ k, x.getLsbD k = true := by
      by_contra none
      simp only [not_exists, Bool.not_eq_true] at none
      exact h (BitVec.eq_of_getLsbD_eq fun i _ => by rw [none]; simp)
    let k := Nat.find some_set
    have set : x.getLsbD k = true := Nat.find_spec some_set
    have low : ∀ j < k, x.getLsbD j = false := fun j hj => by simpa using Nat.find_min some_set hj
    have hk : k < 64 := by
      by_contra hge
      rw [BitVec.getLsbD_of_ge _ _ (by omega)] at set
      cases set
    rw [and_neg_eq_twoPow hk set low, BitVec.toNat_twoPow, Nat.mod_eq_of_lt (Nat.pow_lt_pow_right (by decide) hk), Nat.log2_two_pow]
    exact ⟨by omega, low, fun _ => set⟩

/-- Counting along a range is summing. -/
theorem foldl_count (p : Nat → Bool) (n : Nat) :
    (List.range n).foldl (fun m i => if p i then m + 1 else m) 0 = ∑ i ∈ Finset.range n, if p i then 1 else 0 := by
  induction n with
  | zero => rfl
  | succ n ih =>
    rw [List.range_succ, List.foldl_append, ih, Finset.sum_range_succ]
    by_cases h : p n <;> simp [h]

theorem setBits_eq (x : Word) : setBits x = BitVec.ofNat 64 (Finset.univ.filter fun i : Fin 64 => x.getLsbD i = true).card := by
  rw [setBits, word, foldl_count, Finset.card_filter, Fin.sum_univ_eq_sum_range fun i => if x.getLsbD i = true then 1 else 0]

/-- Settles O2: each word is `word3` or `word2` with its function; the functions are those of R117 and R118 by the lemmas above. -/
theorem productsQuotientsAndBitCounts : Obligations.ProductsQuotientsAndBitCounts := by
  refine ⟨fun sy d a b s hr => ?_, fun sy d a b s hr => ?_, fun sy d a s hr => ?_⟩
  · simp only [exec_mul, exec_mulh, exec_mulhu, exec_mulw, execMul, execMulh, execMulhu, execMulw]
    exact ⟨word3_writes hr (mul_low ..), word3_writes hr (mul_high_signed ..), word3_writes hr (mul_high_unsigned ..),
      word3_writes hr (by rw [lowWord, sext, ← extract_low_eq_truncate])⟩
  · simp only [exec_div, exec_divu, exec_rem, exec_remu, execDiv, execDivu, execRem, execRemu]
    refine ⟨_, _, _, _, word3_writes hr rfl, word3_writes hr rfl, word3_writes hr rfl, word3_writes hr rfl, fun hy => ?_, fun h => ?_,
      fun hy h => ?_, fun hy => ?_⟩
    · simp only [if_pos hy, and_self]
    · rw [h.1, h.2]
      decide
    · simp only [if_neg hy]
      exact signed_division hy h
    · simp only [if_neg hy]
      exact unsigned_division hy
  · simp only [exec_clz, exec_ctz, exec_popc, execClz, execCtz, execPopc]
    obtain ⟨lead, leading, first⟩ := leadCount_spec (s.g a)
    obtain ⟨trail, trailing, last⟩ := trailCount_spec (s.g a)
    exact ⟨_, _, _, word2_writes hr (leadingZeros_eq _), word2_writes hr (trailingZeros_eq _), word2_writes hr (setBits_eq _),
      lead, leading, first, trail, trailing, last, rfl⟩

end Sys2Proof.Proofs
end

section
/-! # O3 and O4: immediates, comparisons, predicates and coordinates (R79, R119, R121 to R124) -/

namespace Sys2Proof.Proofs

open Sys2Proof.Machine Sys2Proof.Laws

/-- A field scaled by a power of two stands shifted (R79). -/
theorem mul_twoPow_eq_shiftLeft (x : Word) : x * (16 : Word) = x <<< 4 ∧ x * (4096 : Word) = x <<< 12 := by
  constructor <;> rw [BitVec.shiftLeft_eq_mul_twoPow] <;> rfl

theorem bundleAt_eq {w : Nat} (pc : Word) (o : BitVec w) : bundleAt pc o = pc + (o.signExtend 64 <<< 4) := by
  rw [bundleAt, sext, (mul_twoPow_eq_shiftLeft _).1]

/-- Settles O3: each form is `word2`, or `word1` where it reads no register. -/
theorem immediateWordsWriteTheirValue : Obligations.ImmediateWordsWriteTheirValue := by
  intro sy d a imm sh k s hr
  have none : s.regsReady [] [gR d] = true := regsReady_mono hr (by simp)
  simp only [exec_addi, exec_andi, exec_ori, exec_xori, exec_slti, exec_sltiu, exec_slli, exec_srli, exec_srai, exec_lui, exec_addpc,
    execAddi, execAndi, execOri, execXori, execSlti, execSltiu, execSlli, execSrli, execSrai, execLui, execAddpc]
  exact ⟨word2_writes hr rfl, word2_writes hr rfl, word2_writes hr rfl, word2_writes hr rfl, word2_writes hr (flag_slt ..),
    word2_writes hr (flag_ult ..), word2_writes hr rfl, word2_writes hr rfl, word2_writes hr rfl,
    word1_writes none (mul_twoPow_eq_shiftLeft _).2, word1_writes none (by rw [cl_takeDeps, bundleAt_eq])⟩

/-! ## Comparisons (R82, R121) -/

/-- The six conditions, as R82 lists them. -/
theorem condition_eq {c : BitVec 3} (hc : c.toNat < 6) (x y : Word) :
    condition c x y = match c.toNat with
      | 0 => decide (x = y)
      | 1 => decide (x ≠ y)
      | 2 => decide (x.toInt < y.toInt)
      | 3 => decide (y.toInt ≤ x.toInt)
      | 4 => decide (x.toNat < y.toNat)
      | _ => decide (y.toNat ≤ x.toNat) := by
  obtain ⟨n, hn⟩ : ∃ n, c.toNat = n := ⟨_, rfl⟩
  obtain rfl : c = BitVec.ofNat 3 n := BitVec.eq_of_toNat_eq (by rw [hn, BitVec.toNat_ofNat]; omega)
  rw [hn] at hc
  interval_cases n
  · rfl
  · exact (decide_not ..).symm
  · rfl
  · exact (decide_not ..).symm.trans (decide_eq_decide.2 Int.not_lt)
  · rfl
  · exact (decide_not ..).symm.trans (decide_eq_decide.2 Nat.not_lt)

section
variable {sy : BitVec 1} {p : BitVec 2} {a b : BitVec 5} {s : State} {v : Bool} {c : BitVec 3}

theorem exec_pcmp_writesP (hr : s.regsReady [gR a, gR b] [pR p] = true) (hv : condition c (s.g a) (s.g b) = v) :
    WritesP s (exec (.pcmp sy p a b c) s) sy p v := by
  subst hv
  rw [exec_pcmp, execPcmp, control_ready hr (depsReady_zero s)]
  simp only [g_takeDeps]
  exact writesP_of (writes_takeDeps_zero s)

theorem exec_pcmpi_writesP {imm : BitVec 15} (hr : s.regsReady [gR a] [pR p] = true) (hv : condition c (s.g a) (imm.signExtend 64) = v) :
    WritesP s (exec (.pcmpi sy c p a imm) s) sy p v := by
  subst hv
  rw [exec_pcmpi, execPcmpi, control_ready hr (depsReady_zero s)]
  simp only [g_takeDeps]
  exact writesP_of (writes_takeDeps_zero s)

theorem exec_sel_writesG {d : BitVec 5} {q : BitVec 2} (hr : s.regsReady [gR a, gR b, pR q] [gR d] = true) :
    WritesG s (exec (.sel sy d a b q) s) sy d (if s.p q then s.g a else s.g b) 1 none := by
  rw [exec_sel, execSel, control_ready hr (depsReady_zero s)]
  simp only [g_takeDeps, p_takeDeps]
  exact writesG_of (writes_takeDeps_zero s)

end

/-! ## Coordinates (R124) -/

section
variable {sy : BitVec 1} {a b d : BitVec 5} {c e : BitVec 3} {s : State}

theorem exec_cset_writesC (hr : s.regsReady [gR a] [cR c] = true) :
    WritesC s (exec (.cset sy c a) s) sy c ((s.g a).extractLsb' 0 32) := by
  rw [exec_cset, execCset, control_ready hr (depsReady_zero s), extract_low_eq_truncate]
  simp only [g_takeDeps]
  exact writesC_of (writes_takeDeps_zero s)

theorem exec_cget_writesG (hr : s.regsReady [cR e] [gR d] = true) :
    WritesG s (exec (.cget sy d e) s) sy d ((s.c e).signExtend 64) 1 none := by
  rw [exec_cget, execCget, control_ready hr (depsReady_zero s)]
  simp only [c_takeDeps]
  exact writesG_of (writes_takeDeps_zero s)

theorem exec_cadd_writesC (hr : s.regsReady [cR e, gR b] [cR c] = true) :
    WritesC s (exec (.cadd sy c e b) s) sy c (s.c e + (s.g b).extractLsb' 0 32) := by
  rw [exec_cadd, execCadd, control_ready hr (depsReady_zero s), extract_low_eq_truncate]
  simp only [c_takeDeps, g_takeDeps]
  exact writesC_of (writes_takeDeps_zero s)

theorem exec_caddi_writesC {imm : BitVec 15} (hr : s.regsReady [cR e] [cR c] = true) :
    WritesC s (exec (.caddi sy c e imm) s) sy c (s.c e + imm.signExtend 32) := by
  rw [exec_caddi, execCaddi, control_ready hr (depsReady_zero s)]
  simp only [c_takeDeps]
  exact writesC_of (writes_takeDeps_zero s)

end

/-- Settles O4: comparisons by the condition of their code, predicate logic by `pred2` and `pred1`, coordinates one by one. -/
theorem predicateAndCoordinateWords : Obligations.PredicateAndCoordinateWords := by
  refine ⟨fun sy d a b p q r imm s hr => ?_, fun sy d a b c e imm s hr => ?_⟩
  · have two : s.regsReady [pR q, pR r] [pR p] = true := regsReady_mono hr (by simp)
    have one : s.regsReady [pR q] [pR p] = true := regsReady_mono hr (by simp)
    refine ⟨fun c v hc hv => exec_pcmp_writesP (regsReady_mono hr (by simp)) ((condition_eq hc ..).trans hv.symm),
      fun c v hc hv => exec_pcmpi_writesP (regsReady_mono hr (by simp)) ((condition_eq hc ..).trans hv.symm), ?_⟩
    simp only [exec_pand, exec_por, exec_pxor, exec_pnot, exec_pmov, execPand, execPor, execPxor, execPnot, execPmov]
    exact ⟨pred2_writes two rfl, pred2_writes two rfl, pred2_writes two rfl, pred1_writes one rfl, pred1_writes one rfl,
      exec_sel_writesG (regsReady_mono hr (by simp))⟩
  · exact ⟨exec_cset_writesC (regsReady_mono hr (by simp)), exec_cget_writesG (regsReady_mono hr (by simp)),
      exec_cadd_writesC (regsReady_mono hr (by simp)), exec_caddi_writesC (regsReady_mono hr (by simp))⟩

end Sys2Proof.Proofs
end

section
/-! # O5: branches, jumps and joins (R76, R77, R125, R133) -/

namespace Sys2Proof.Proofs

open Sys2Proof.Machine Sys2Proof.Laws

/-! ## Transfers (R125) -/

theorem taken_eq_xor (p : Bool) (n : BitVec 1) : taken p n = xor p (decide (n = 1)) := by
  unfold taken
  cases p <;> cases decide (n = 1) <;> rfl

section
variable {sy : BitVec 1} {s : State} {d a : BitVec 5}

theorem exec_br_passes {p : BitVec 2} {n : BitVec 1} {o : BitVec 22} (hr : s.regsReady [pR p] [] = true) :
    Passes s (exec (.br sy p n o) s) sy (if xor (s.p p) (decide (n = 1)) then some (s.cl.pc + (o.signExtend 64 <<< 4)) else none) := by
  rw [exec_br, execBr, control_ready hr (depsReady_zero s)]
  simp only [taken_eq_xor, p_takeDeps, cl_takeDeps, bundleAt_eq]
  split_ifs <;> exact passes_of (writes_takeDeps_zero s)

theorem exec_jal_writesG {k : BitVec 20} (hr : s.regsReady [] [gR d] = true) :
    WritesG s (exec (.jal sy d k) s) sy d (s.cl.pc + 16) 1 (some (s.cl.pc + (k.signExtend 64 <<< 4))) := by
  rw [exec_jal, execJal, control_ready hr (depsReady_zero s)]
  simp only [cl_takeDeps, bundleAt_eq]
  exact writesG_of (writes_takeDeps_zero s)

/-- A target is a bundle where its four low bits are 0. -/
theorem mod16_eq_zero_iff (t : Word) : t.toNat % 16 = 0 ↔ t.extractLsb' 0 4 = 0 := by
  rw [← toNat_eq_zero, BitVec.extractLsb'_toNat, Nat.shiftRight_zero]

theorem exec_jalr_eq {i : BitVec 15} (hr : s.regsReady [gR a] [gR d] = true) :
    exec (.jalr sy d a i) s =
      if (s.g a + i.signExtend 64).extractLsb' 0 4 = 0 then
        .next (((s.takeDeps 0).writeG d (s.cl.pc + 16) 1).finish sy (some (s.g a + i.signExtend 64)))
      else .next (s.wordTrap 0x07 (s.g a + i.signExtend 64)) := by
  rw [exec_jalr, execJalr, control_ready hr (depsReady_zero s)]
  simp only [g_takeDeps, cl_takeDeps, sext, ne_eq, mod16_eq_zero_iff]
  split_ifs <;> rfl

end

/-! ## Joins (R77, R133) -/

theorem mem_lanes (l : Lane) : l ∈ lanes := by cases l <;> decide

section
variable {c : Core} {pc : Word} {n : BitVec 8}

theorem joinClash_eq_true_iff : c.joinClash pc n = true ↔
    ∃ l, (c.cluster l).atJoin = true ∧ ((c.cluster l).joinId ≠ n ∨ (c.cluster l).pc ≠ pc) := by
  simp only [Core.joinClash, List.any_eq_true, mem_lanes, true_and, Bool.and_eq_true, Bool.not_eq_true', Bool.and_eq_false_iff,
    decide_eq_false_iff_not, ne_eq]

theorem joinClash_eq_false (h : ∀ l, (c.cluster l).atJoin = true → (c.cluster l).joinId = n ∧ (c.cluster l).pc = pc) :
    c.joinClash pc n = false := by
  rw [← Bool.not_eq_true, joinClash_eq_true_iff]
  rintro ⟨l, at_, hid | hpc⟩
  · exact hid (h l at_).1
  · exact hpc (h l at_).2

theorem allJoined_eq_true_iff : c.allJoined pc n = true ↔
    ∀ l, (c.cluster l).atJoin = true ∧ (c.cluster l).joinId = n ∧ (c.cluster l).pc = pc := by
  simp only [Core.allJoined, List.all_eq_true, mem_lanes, true_implies, Bool.and_eq_true, decide_eq_true_eq, and_assoc]

end

/-- The state in which the current cluster has come to stand at a `join` of id `n`. -/
def standsAtJoin (n : BitVec 8) (s : State) : State :=
  s.modCl fun c => { c with atJoin := true, joinId := n, since := some (c.since.getD s.warm), wait := .since s.warm }

section
variable {n : BitVec 8} {s : State}

theorem exec_join_of_clash (h : s.core.joinClash s.cl.pc n = true) : exec (.join n) s = .next (s.wordTrap 0x13 s.wordHandle) := by
  rw [exec_join, execJoin, if_pos h]

theorem exec_join_of_last (h : s.core.joinClash s.cl.pc n = false) (all : (standsAtJoin n s).core.allJoined s.cl.pc n = true) :
    exec (.join n) s = .next ((standsAtJoin n s).modCore fun c => c.modClusters fun _ x =>
      { x with pc := x.pc + 16, split := false, atJoin := false, joinId := 0, since := none, wait := .none, done := false,
               readyAt := s.warm + 1 }) := by
  rw [exec_join, execJoin, if_neg (by simp [h])]
  exact if_pos all

theorem exec_join_of_waiting (h : s.core.joinClash s.cl.pc n = false) (all : (standsAtJoin n s).core.allJoined s.cl.pc n = false) :
    exec (.join n) s = .next (standsAtJoin n s) := by
  rw [exec_join, execJoin, if_neg (by simp [h])]
  exact if_neg (by rw [standsAtJoin] at all; simp [all])

theorem cl_standsAtJoin : (standsAtJoin n s).core.cluster s.lane =
    { s.cl with atJoin := true, joinId := n, since := some (s.cl.since.getD s.warm), wait := .since s.warm } := cl_modCl ..

theorem cluster_standsAtJoin_other {l : Lane} (h : l ≠ s.lane) : (standsAtJoin n s).core.cluster l = s.core.cluster l :=
  cluster_modCl_other s _ h

/-- The last cluster to arrive brings all four on (R77). -/
theorem join_completes
    (others : ∀ l, l ≠ s.lane → (s.core.cluster l).atJoin = true ∧ (s.core.cluster l).joinId = n ∧ (s.core.cluster l).pc = s.cl.pc)
    (here : s.cl.atJoin = false) :
    ∃ t, exec (.join n) s = .next t ∧ t.apart = s.apart ∧ (∀ k, k ≠ s.cur → t.coreAt k = s.coreAt k) ∧ t.core.apart = s.core.apart ∧
      ∀ l, t.core.cluster l = { s.core.cluster l with
        pc := s.cl.pc + 16, split := false, atJoin := false, joinId := 0, since := none, wait := .none, done := false,
        readyAt := s.warm + 1 } := by
  have calm : s.core.joinClash s.cl.pc n = false := joinClash_eq_false fun l hl => by
    by_cases h : l = s.lane
    · subst h
      rw [State.cl, hl] at here
      cases here
    · exact (others l h).2
  have all : (standsAtJoin n s).core.allJoined s.cl.pc n = true := allJoined_eq_true_iff.2 fun l => by
    by_cases h : l = s.lane
    · rw [h, cl_standsAtJoin]
      exact ⟨rfl, rfl, rfl⟩
    · rw [cluster_standsAtJoin_other h]
      exact others l h
  refine ⟨_, exec_join_of_last calm all, rfl, fun k hk => ?_, ?_, fun l => ?_⟩
  · exact (coreAt_modCore_other (standsAtJoin n s) _ hk).trans (coreAt_modCl_other s _ hk)
  · rw [core_modCore, core_apart_modClusters]
    exact core_apart_modCl s _
  · rw [core_modCore, cluster_modClusters]
    by_cases h : l = s.lane
    · rw [h, cl_standsAtJoin]
      rfl
    · rw [cluster_standsAtJoin_other h, (others l h).2.2]

theorem join_waits (missing : ∃ l, l ≠ s.lane ∧ (s.core.cluster l).atJoin = false)
    (agree : ∀ l, (s.core.cluster l).atJoin = true → (s.core.cluster l).joinId = n ∧ (s.core.cluster l).pc = s.cl.pc) :
    exec (.join n) s = .next (standsAtJoin n s) := by
  refine exec_join_of_waiting (joinClash_eq_false agree) ?_
  rw [← Bool.not_eq_true, allJoined_eq_true_iff]
  intro all
  obtain ⟨l, hl, away⟩ := missing
  have := (all l).1
  rw [cluster_standsAtJoin_other hl, away] at this
  cases this

end

/-- Settles O5: the transfers by their words, `join` by whether another cluster clashes, is missing, or all stand there. -/
theorem branchesJumpsAndJoin : Obligations.BranchesJumpsAndJoin := by
  refine ⟨fun sy n p d a o k i s hr => ?_, fun n s => ⟨join_completes, fun missing _ agree => ?_, fun clash => ?_⟩⟩
  · have jalr : s.regsReady [gR a] [gR d] = true := regsReady_mono hr (by simp)
    refine ⟨exec_br_passes (regsReady_mono hr (by simp)), exec_jal_writesG (regsReady_mono hr (by simp)), fun ht => ?_, fun ht => ?_⟩
    · rw [exec_jalr_eq jalr, if_pos ht]
      exact writesG_of (writes_takeDeps_zero s)
    · rw [exec_jalr_eq jalr, if_neg ht]
  · refine ⟨_, join_waits missing agree, rfl, core_apart_modCl s _, fun l hl => cluster_standsAtJoin_other hl, ?_⟩
    change ((standsAtJoin n s).core.cluster s.lane).atJoin = true ∧ ((standsAtJoin n s).core.cluster s.lane).joinId = n ∧
      ((standsAtJoin n s).core.cluster s.lane).pc = s.cl.pc ∧ ((standsAtJoin n s).core.cluster s.lane).g = s.cl.g ∧
      ((standsAtJoin n s).core.cluster s.lane).p = s.cl.p ∧ ((standsAtJoin n s).core.cluster s.lane).c = s.cl.c
    rw [cl_standsAtJoin]
    exact ⟨rfl, rfl, rfl, rfl, rfl, rfl⟩
  · exact exec_join_of_clash (joinClash_eq_true_iff.2 clash)

end Sys2Proof.Proofs
end

section
/-! # O6: loops and kill markers (R127, R130, R131, R316) -/

namespace Sys2Proof.Proofs

open Sys2Proof.Machine Sys2Proof.Laws

/-! ## `loop` (R127) -/

/-- The entry that a `loop` of the current cluster pushes. -/
def pushedLoop (sy pre : BitVec 1) (a : BitVec 5) (len : BitVec 15) (s : State) : LoopEntry :=
  { remaining := s.g a, initial := s.g a, start := s.cl.pc + 16, stop := s.cl.pc + word (16 * len.toNat), id := s.cl.pc,
    inst := s.core.loopNo, pre := decide (pre = 1), began := s.warm, kill := none, group := decide (sy = 1) && !s.cl.split }

section
variable {sy pre n : BitVec 1} {a : BitVec 5} {len : BitVec 15} {s : State} (hr : s.regsReady [gR a] [] = true)
include hr

theorem exec_loop_skips (h : s.g a = 0) :
    Passes s (exec (.loop sy pre a len) s) sy (some (s.cl.pc + BitVec.ofNat 64 (16 * (len.toNat + 1)))) := by
  rw [exec_loop, execLoop, control_ready hr (depsReady_zero s)]
  simp only [g_takeDeps, cl_takeDeps, if_pos h]
  exact passes_of (writes_takeDeps_zero s)

theorem exec_loop_pushes (h : s.g a ≠ 0) (room : s.cl.loops.length < 4) :
    Passes ((s.modCore fun c => { c with loopNo := c.loopNo + 1 }).modCl fun x => { x with loops := pushedLoop sy pre a len s :: x.loops })
      (exec (.loop sy pre a len) s) sy none := by
  have same := same_takeDeps_zero s
  rw [exec_loop, execLoop, control_ready hr (depsReady_zero s)]
  simp only [g_takeDeps, cl_takeDeps, same.core, if_neg h, if_neg (show ¬4 ≤ s.cl.loops.length by omega)]
  exact passes_of ((same.modCore _).modCl _).writes

theorem exec_loop_traps (h : s.g a ≠ 0) (full : 4 ≤ s.cl.loops.length) :
    exec (.loop sy pre a len) s = .next (s.wordTrap 0x11 s.wordHandle) := by
  rw [exec_loop, execLoop, control_ready hr (depsReady_zero s)]
  simp only [g_takeDeps, cl_takeDeps, if_neg h, if_pos full, (same_takeDeps_zero s).wordHandle]

end

/-! ## `lexit` (R130) -/

section
variable {sy n : BitVec 1} {p : BitVec 2} {o : BitVec 22} {s : State} (hr : s.regsReady [pR p] [] = true)
include hr

theorem exec_lexit_of_not_taken (h : xor (s.p p) (decide (n = 1)) = false) : Passes s (exec (.lexit sy p n o) s) sy none := by
  rw [exec_lexit, execLexit, control_ready hr (depsReady_zero s)]
  simp only [taken_eq_xor, p_takeDeps, h, Bool.false_eq_true, if_false]
  exact passes_of (writes_takeDeps_zero s)

theorem exec_lexit_of_no_loop (h : xor (s.p p) (decide (n = 1)) = true) (none : s.cl.loops = []) :
    exec (.lexit sy p n o) s = .next (s.wordTrap 0x11 s.wordHandle) := by
  rw [exec_lexit, execLexit, control_ready hr (depsReady_zero s)]
  simp only [taken_eq_xor, p_takeDeps, cl_takeDeps, h, none, if_true, (same_takeDeps_zero s).wordHandle]

theorem exec_lexit_pops (h : xor (s.p p) (decide (n = 1)) = true) {e : LoopEntry} {rest : List LoopEntry} (loops : s.cl.loops = e :: rest) :
    Passes ((s.modCl fun x => { x with loops := rest }).modCore fun c => c.kill s.lane e.id e.index e.inst) (exec (.lexit sy p n o) s) sy
      (some (s.cl.pc + (o.signExtend 64 <<< 4))) := by
  rw [exec_lexit, execLexit, control_ready hr (depsReady_zero s)]
  simp only [taken_eq_xor, p_takeDeps, cl_takeDeps, lane_takeDeps, h, loops, if_true, bundleAt_eq]
  exact passes_of (((same_takeDeps_zero s).modCl _).modCore _).writes

end

/-! ## The kill marker (R131, R316) -/

/-- The tags name an iteration above `i` of the popped loop, or of a living loop with its id. -/
def killHits (c : Core) (id : Word) (i popped : Nat) (tags : List (Nat × Nat)) : Bool :=
  let insts := popped :: lanes.flatMap fun l => ((c.cluster l).loops.filter fun e => decide (e.id = id)).map (·.inst)
  tags.any fun t => insts.contains t.1 && decide (i < t.2)

section
variable {c : Core} {me : Lane} {id : Word} {i popped : Nat} {tags : List (Nat × Nat)}

theorem killHits_of_later {n : Nat} (names : n = popped ∨ ∃ l, ∃ y ∈ (c.cluster l).loops, y.id = id ∧ y.inst = n)
    (later : ∃ j, (n, j) ∈ tags ∧ i < j) : killHits c id i popped tags = true := by
  obtain ⟨j, tagged, hj⟩ := later
  refine List.any_eq_true.2 ⟨(n, j), tagged, ?_⟩
  rw [decide_eq_true hj, Bool.and_true, List.contains_iff_mem, List.mem_cons]
  refine names.imp_right ?_
  rintro ⟨l, y, hy, hid, hn⟩
  exact List.mem_flatMap.2 ⟨l, mem_lanes l, List.mem_map.2 ⟨y, List.mem_filter.2 ⟨hy, decide_eq_true hid⟩, hn⟩⟩

theorem killHits_of_earlier (earlier : ∀ x ∈ tags, x.2 ≤ i) : killHits c id i popped tags = false := by
  refine List.any_eq_false.2 fun x hx => ?_
  rw [decide_eq_false (by have := earlier x hx; omega), Bool.and_false]
  decide

theorem kill_queue (q : QueueId) : (c.kill me id i popped).queue q =
    (c.queue q).map fun e => if killHits c id i popped e.tags = true then { e with killed := true } else e := by
  cases q <;> rfl

theorem kill_puts : (c.kill me id i popped).str.puts =
    c.str.puts.map fun p => { p with killed := p.killed || killHits c id i popped p.tags } := rfl

theorem kill_taken : (c.kill me id i popped).str.taken = c.str.taken.map fun t =>
    if killHits c id i popped t.tags = true ∧ (!t.done) = true ∧ t.begun.isNone = true ∧
        (!mayStart (c.str.taken.filter fun y => decide (y.no < t.no)) t) = true then
      { t with killed := true } else t := rfl

theorem kill_cluster (l : Lane) : (c.kill me id i popped).cluster l =
    { c.cluster l with loops := (c.cluster l).loops.map fun e =>
        if e.id = id then { e with kill := some (min i (e.kill.getD i)), last := e.last || !decide (l = me) } else e } := by
  cases l <;> rfl

theorem mem_kill_queue_of_later {q : QueueId} {e : QEntry} {n : Nat} (he : e ∈ c.queue q)
    (names : n = popped ∨ ∃ l, ∃ y ∈ (c.cluster l).loops, y.id = id ∧ y.inst = n) (later : ∃ j, (n, j) ∈ e.tags ∧ i < j) :
    { e with killed := true } ∈ (c.kill me id i popped).queue q := by
  rw [kill_queue]
  exact List.mem_map.2 ⟨e, he, if_pos (killHits_of_later names later)⟩

theorem mem_kill_queue_of_earlier {q : QueueId} {e : QEntry} (he : e ∈ c.queue q) (earlier : ∀ x ∈ e.tags, x.2 ≤ i) :
    e ∈ (c.kill me id i popped).queue q := by
  rw [kill_queue]
  exact List.mem_map.2 ⟨e, he, if_neg (by rw [killHits_of_earlier earlier]; decide)⟩

/-- A living loop with the id keeps the earliest marker, and ends at its next end bundle where another cluster runs it. -/
theorem kill_loop {l : Lane} {e : LoopEntry} (he : e ∈ ((c.kill me id i popped).cluster l).loops) (hid : e.id = id) :
    (∃ k, e.kill = some k ∧ k ≤ i) ∧ (l ≠ me → e.last = true) := by
  rw [kill_cluster] at he
  obtain ⟨x, -, hx⟩ := List.mem_map.1 he
  by_cases h : x.id = id
  · rw [if_pos h] at hx
    subst hx
    exact ⟨⟨_, rfl, min_le_left ..⟩, fun hl => by simp [hl]⟩
  · rw [if_neg h] at hx
    subst hx
    exact absurd hid h

theorem kill_last_own : ((c.kill me id i popped).cluster me).loops.map (·.last) = (c.cluster me).loops.map (·.last) := by
  rw [kill_cluster, List.map_map]
  refine List.map_congr_left fun e _ => ?_
  rw [Function.comp_apply]
  split_ifs <;> simp

theorem mem_kill_puts_of_later {x : Put} {n : Nat} (hx : x ∈ c.str.puts)
    (names : n = popped ∨ ∃ l, ∃ y ∈ (c.cluster l).loops, y.id = id ∧ y.inst = n) (later : ∃ j, (n, j) ∈ x.tags ∧ i < j) :
    { x with killed := true } ∈ (c.kill me id i popped).str.puts := by
  rw [kill_puts]
  exact List.mem_map.2 ⟨x, hx, by rw [killHits_of_later names later, Bool.or_true]⟩

theorem mem_kill_puts_of_earlier {x : Put} (hx : x ∈ c.str.puts) (earlier : ∀ y ∈ x.tags, y.2 ≤ i) :
    x ∈ (c.kill me id i popped).str.puts := by
  rw [kill_puts]
  exact List.mem_map.2 ⟨x, hx, by rw [killHits_of_earlier earlier, Bool.or_false]⟩

theorem mem_kill_taken_of_begun {x : Taken} (hx : x ∈ c.str.taken) (begun : x.done = true ∨ x.begun ≠ none) :
    x ∈ (c.kill me id i popped).str.taken := by
  rw [kill_taken]
  refine List.mem_map.2 ⟨x, hx, if_neg ?_⟩
  rintro ⟨-, waits, fresh, -⟩
  rcases begun with h | h
  · rw [h] at waits
    cases waits
  · exact h (Option.isNone_iff_eq_none.1 fresh)

theorem mem_kill_taken_of_waiting {x : Taken} (hx : x ∈ c.str.taken) (waits : x.done = false) (fresh : x.begun = none)
    (later : ∃ j, (popped, j) ∈ x.tags ∧ i < j) (held : mayStart (c.str.taken.filter fun y => decide (y.no < x.no)) x = false) :
    { x with killed := true } ∈ (c.kill me id i popped).str.taken := by
  rw [kill_taken]
  exact List.mem_map.2 ⟨x, hx, if_pos ⟨killHits_of_later (.inl rfl) later, by rw [waits]; rfl, by rw [fresh]; rfl, by rw [held]; rfl⟩⟩

end

/-- Settles O6: `loop` and `lexit` by the branch their count, predicate and nest select, the marker by what it hits. -/
theorem loopsPushAndExit : Obligations.LoopsPushAndExit := by
  refine ⟨fun sy pre n p a len o s hr => ?_, fun c me id i popped => ?_⟩
  · have count : s.regsReady [gR a] [] = true := regsReady_mono hr (by simp)
    have guard : s.regsReady [pR p] [] = true := regsReady_mono hr (by simp)
    refine ⟨exec_loop_skips count, fun h room => ?_, exec_loop_traps count, exec_lexit_of_not_taken guard, exec_lexit_of_no_loop guard,
      fun h e rest loops => ?_⟩
    · obtain ⟨t, ran, through⟩ := exec_loop_pushes (sy := sy) (pre := pre) (len := len) count h room
      exact ⟨t, pushedLoop sy pre a len s, _, ran, through, rfl, rfl, rfl, rfl, rfl, rfl, Nat.sub_self _, rfl, rfl⟩
    · obtain ⟨t, ran, through⟩ := exec_lexit_pops (sy := sy) (o := o) guard h loops
      exact ⟨t, _, ran, rfl, through⟩
  · refine ⟨fun q e n => mem_kill_queue_of_later, fun q e => mem_kill_queue_of_earlier, fun q => ?_, fun l => ⟨?_, ?_, fun e => kill_loop⟩,
      kill_last_own, ?_, fun x n => mem_kill_puts_of_later, ?_, fun x => mem_kill_taken_of_begun, fun x => mem_kill_taken_of_waiting,
      fun x => mem_kill_puts_of_earlier, rfl, rfl, rfl⟩
    · rw [kill_queue, List.length_map]
    · rw [kill_cluster]
      rfl
    · rw [kill_cluster, List.length_map]
    · rw [kill_puts, List.length_map]
    · rw [kill_taken, List.length_map]

end Sys2Proof.Proofs
end

section
/-! # O7: link ports, dependence tokens and waits at issue (R85, R112, R134, R135) -/

namespace Sys2Proof.Proofs

open Sys2Proof.Machine Sys2Proof.Laws

/-! ## The FIFOs between clusters (R17, R388) -/

/-- A cluster's right output is its right neighbour's left input, whose left output is its right input. -/
theorem rightOut_eq_leftIn (l : Lane) : rightOut l = leftIn (rightOf l) ∧ leftOut (rightOf l) = rightIn l ∧ rightOut l ≠ leftOut l := by
  cases l <;> decide

theorem fifos_distinct (l : Lane) : leftIn l ≠ rightIn l ∧ leftIn l ≠ leftOut l ∧ leftIn l ≠ rightOut l ∧ rightIn l ≠ leftOut l ∧
    rightIn l ≠ rightOut l ∧ leftOut l ≠ rightOut l := by
  cases l <;> decide

theorem tokAt_modTok (c : Core) (i j : Nat) (f : Fifo → Fifo) :
    (c.modTok i f).tokAt j = if j = i then f (c.tokAt i) else c.tokAt j := by
  unfold Core.tokAt Core.modTok
  rw [get_put]
  rfl

theorem Fifo.room_of_items {f : Fifo} {w d : Nat} (h : d ≤ f.items.length) : f.room w d = false := by
  refine decide_eq_false ?_
  omega

theorem Fifo.ready_of_empty {f : Fifo} {w : Nat} (h : f.items = []) : f.ready w = false := by
  unfold Fifo.ready
  rw [h]

theorem Fifo.ready_of_head {f : Fifo} {w now : Nat} {v : Word} {rest : List (Nat × Word)} (head : f.items = (w, v) :: rest)
    (earlier : w < now) : f.ready now = true := by
  unfold Fifo.ready
  rw [head]
  exact decide_eq_true earlier

theorem Fifo.head_of_items {f : Fifo} {w : Nat} {v : Word} {rest : List (Nat × Word)} (head : f.items = (w, v) :: rest) : f.head = v := by
  unfold Fifo.head
  rw [head]

/-! ## A word that waits at issue (R112) -/

/-- Since when the current cluster waits. -/
def State.waitsSince (s : State) : Nat := match s.cl.since with | some w => w | none => s.warm

/-- Only the warm cycle since which the cluster waits is noted. -/
theorem waitAtIssue_frame (s : State) : s.waitAtIssue.apart = s.apart ∧ (∀ k, k ≠ s.cur → s.waitAtIssue.coreAt k = s.coreAt k) ∧
    s.waitAtIssue.core.apart = s.core.apart ∧ (∀ l, l ≠ s.lane → s.waitAtIssue.core.cluster l = s.core.cluster l) ∧
    s.waitAtIssue.cl = { s.cl with since := some (State.waitsSince s) } := by
  refine ⟨rfl, fun k h => coreAt_modCl_other s _ h, core_apart_modCl s _, fun l h => cluster_modCl_other s _ h, ?_⟩
  rw [State.waitAtIssue, cl_modCl, State.waitsSince]
  cases s.cl.since <;> rfl

section
variable {sy : BitVec 1} {dep : BitVec 4} {rd wr : List RegRef} {s : State} {f : State → Perform} {a d : BitVec 5}

theorem control_waits_for_reg {r : RegRef} (busy : s.cl.isBusy s.warm r = true) (reads : r ∈ rd) :
    Machine.control sy dep rd wr s f = .next s.waitAtIssue := by
  have : s.regsReady rd wr = false := by
    rw [State.regsReady, List.any_eq_true.2 ⟨r, List.mem_append_left _ reads, busy⟩, Bool.not_true]
  unfold Machine.control
  rw [if_neg (by rw [this]; simp)]

theorem control_waits_for_token (h : s.depsReady dep = false) : Machine.control sy dep rd wr s f = .next s.waitAtIssue := by
  unfold Machine.control
  rw [if_neg (by rw [h]; simp)]

/-- A word held up at its queue or port waits as one not yet there. -/
theorem control_holds (hr : s.regsReady rd wr = true) (h : f (s.takeDeps 0) = .hold (s.takeDeps 0)) :
    Machine.control sy 0 rd wr s f = .next s.waitAtIssue := by
  rw [control_ready hr (depsReady_zero s), h]
  rfl

/-! ## Link ports (R134) -/

theorem sendPort_pushes {i : Nat} (hr : s.regsReady [gR a] [] = true)
    (room : (s.core.portAt i).items.length + (if (s.core.portAt i).popWarm = s.warm then (s.core.portAt i).pops else 0) < 4) :
    ∃ t, sendPort sy a i s = .next t ∧
      Through (s.modCore fun c => c.modPort i fun f => { f with items := f.items ++ [(s.warm, s.g a)] }) t sy [] none := by
  have same := same_takeDeps_zero s
  rw [sendPort, control_ready hr (depsReady_zero s)]
  simp only [same.core, warm_takeDeps, g_takeDeps, Fifo.room, Config.portDepth, decide_eq_true room, if_true]
  exact passes_of (same.modCore _).writes

theorem sendPort_waits {i : Nat} (hr : s.regsReady [gR a] [] = true) (full : 4 ≤ (s.core.portAt i).items.length) :
    sendPort sy a i s = .next s.waitAtIssue := by
  rw [sendPort, control_holds hr]
  have no : ((s.takeDeps 0).core.portAt i).room (s.takeDeps 0).warm Config.portDepth = false := by
    rw [(same_takeDeps_zero s).core]
    exact Fifo.room_of_items full
  rw [no]
  rfl

theorem recvPort_waits {i : Nat} (hr : s.regsReady [] [gR d] = true) (none : (s.core.portAt i).items = []) :
    recvPort sy d i s = .next s.waitAtIssue := by
  rw [recvPort, control_holds hr]
  simp only [(same_takeDeps_zero s).core, Fifo.ready_of_empty none, Bool.false_eq_true, if_false]

/-- A receive pops the oldest value and writes gD with it; but for the port the core is as before. -/
theorem recvPort_pops {i w : Nat} {v : Word} {rest : List (Nat × Word)} (hr : s.regsReady [] [gR d] = true)
    (head : (s.core.portAt i).items = (w, v) :: rest) (earlier : w < s.warm) :
    ∃ u, WritesG u (recvPort sy d i s) sy d v 1 none ∧ (u.core.portAt i).items = rest ∧
      u.apart = s.apart ∧ { u.core with port := s.core.port } = s.core := by
  have same := same_takeDeps_zero s
  refine ⟨s.modCore fun c => c.modPort i (·.pop s.warm), ?_, ?_, rfl, ?_⟩
  · rw [recvPort, control_ready hr (depsReady_zero s)]
    simp only [same.core, warm_takeDeps, Fifo.ready_of_head head earlier, Fifo.head_of_items head, if_true]
    exact writesG_of (same.modCore _).writes
  · simp only [core_modCore, portAt_modPort_self, Fifo.pop, head, List.drop_one, List.tail_cons]
  · rw [core_modCore]
    rfl

end

/-! ## Dependence bits (R85, R135) -/

/-- A core whose token FIFO `i` has seen `f`, where the bit is set. -/
def Core.tokenIf (c : Core) (bit : Bool) (i : Nat) (f : Fifo → Fifo) : Core := if bit then c.modTok i f else c

theorem tokAt_tokenIf (c : Core) (bit : Bool) (i j : Nat) (f : Fifo → Fifo) :
    (Core.tokenIf c bit i f).tokAt j = if j = i then (if bit then f (c.tokAt i) else c.tokAt i) else c.tokAt j := by
  unfold Core.tokenIf
  cases bit with
  | true => exact tokAt_modTok c i j f
  | false => simp only [Bool.false_eq_true, if_false]; split_ifs with h <;> simp [h]

theorem takeDeps_eq_tokenIf (s : State) (dep : BitVec 4) : s.takeDeps dep = s.modCore fun c =>
    Core.tokenIf (Core.tokenIf (Core.tokenIf (Core.tokenIf c (dep.getLsbD 3) (leftIn s.lane) (·.pop s.warm))
      (dep.getLsbD 2) (rightIn s.lane) (·.pop s.warm)) (dep.getLsbD 1) (leftOut s.lane) (·.push s.warm 0))
      (dep.getLsbD 0) (rightOut s.lane) (·.push s.warm 0) := rfl

theorem items_pop_if (f : Fifo) (w : Nat) (bit : Bool) :
    (if bit = true then f.pop w else f).items = f.items.drop (if bit = true then 1 else 0) := by
  cases bit <;> rfl

theorem items_push_if (f : Fifo) (w : Nat) (bit : Bool) :
    (if bit = true then f.push w 0 else f).items = f.items ++ (if bit = true then [(w, 0)] else []) := by
  cases bit with
  | true => rfl
  | false => exact (List.append_nil _).symm

/-- The four FIFOs of the cluster lose and gain what the bits say, and every other keeps its tokens. -/
theorem tokAt_takeDeps (s : State) (dep : BitVec 4) :
    ((s.takeDeps dep).core.tokAt (leftIn s.lane)).items =
      (s.core.tokAt (leftIn s.lane)).items.drop (if dep.getLsbD 3 then 1 else 0) ∧
    ((s.takeDeps dep).core.tokAt (rightIn s.lane)).items =
      (s.core.tokAt (rightIn s.lane)).items.drop (if dep.getLsbD 2 then 1 else 0) ∧
    ((s.takeDeps dep).core.tokAt (leftOut s.lane)).items =
      (s.core.tokAt (leftOut s.lane)).items ++ (if dep.getLsbD 1 then [(s.warm, 0)] else []) ∧
    ((s.takeDeps dep).core.tokAt (rightOut s.lane)).items =
      (s.core.tokAt (rightOut s.lane)).items ++ (if dep.getLsbD 0 then [(s.warm, 0)] else []) ∧
    ∀ i, i ∉ [leftIn s.lane, rightIn s.lane, leftOut s.lane, rightOut s.lane] → (s.takeDeps dep).core.tokAt i = s.core.tokAt i := by
  obtain ⟨d1, d2, d3, d4, d5, d6⟩ := fifos_distinct s.lane
  simp only [takeDeps_eq_tokenIf, core_modCore, tokAt_tokenIf, d1, d2, d3, d4, d5, d6, d1.symm, d2.symm, d3.symm, d4.symm, d5.symm, d6.symm, if_true, if_false,
    items_pop_if, items_push_if, true_and]
  intro i hi
  simp only [List.mem_cons, List.not_mem_nil, or_false, not_or] at hi
  obtain ⟨h1, h2, h3, h4⟩ := hi
  rw [if_neg h4, if_neg h3, if_neg h2, if_neg h1]

/-- A token that is not there, or one for which there is no room, keeps a word from issuing. -/
theorem depsReady_false {s : State} {dep : BitVec 4}
    (h : (dep.getLsbD 3 = true ∧ (s.core.tokAt (leftIn s.lane)).items = []) ∨
      (dep.getLsbD 2 = true ∧ (s.core.tokAt (rightIn s.lane)).items = []) ∨
      (dep.getLsbD 1 = true ∧ 8 ≤ (s.core.tokAt (leftOut s.lane)).items.length) ∨
      (dep.getLsbD 0 = true ∧ 8 ≤ (s.core.tokAt (rightOut s.lane)).items.length)) : s.depsReady dep = false := by
  simp only [State.depsReady, Bool.and_eq_false_iff, Bool.or_eq_false_iff, Bool.not_eq_false']
  obtain ⟨bit, none⟩ | ⟨bit, none⟩ | ⟨bit, full⟩ | ⟨bit, full⟩ := h
  · exact .inl (.inl (.inl ⟨bit, Fifo.ready_of_empty none⟩))
  · exact .inl (.inl (.inr ⟨bit, Fifo.ready_of_empty none⟩))
  · exact .inl (.inr ⟨bit, Fifo.room_of_items full⟩)
  · exact .inr ⟨bit, Fifo.room_of_items full⟩

/-- Every word listed under R112 reads gA, and so waits for it. -/
theorem exec_waits_for_gA {s : State} (sy : BitVec 1) (dep n : BitVec 4) (z : BitVec 3) (p : BitVec 2) (k : BitVec 6) (d a b : BitVec 5)
    (o : BitVec 15) (i12 : BitVec 12) (busy : s.cl.isBusy s.warm (gR a) = true) :
    ∀ i ∈ [Instr.add sy d a b, .sub sy d a b, .and sy d a b, .or sy d a b, .xor sy d a b, .andn sy d a b, .orn sy d a b, .sll sy d a b,
           .srl sy d a b, .sra sy d a b, .min sy d a b, .max sy d a b, .minu sy d a b, .maxu sy d a b, .slt sy d a b, .sltu sy d a b,
           .addw sy d a b, .subw sy d a b, .sllw sy d a b, .srlw sy d a b, .sraw sy d a b, .mul sy d a b, .mulh sy d a b, .mulhu sy d a b,
           .mulw sy d a b, .div sy d a b, .divu sy d a b, .rem sy d a b, .remu sy d a b, .clz sy d a, .ctz sy d a, .popc sy d a,
           .addi sy d a o, .andi sy d a o, .ori sy d a o, .xori sy d a o, .slti sy d a o, .sltiu sy d a o, .slli sy d a k, .srli sy d a k,
           .srai sy d a k, .sel sy d a b p, .pcmp sy p a b z, .pcmpi sy z p a o, .cset sy z a, .jalr sy d a o, .loop sy 0 a o,
           .loop sy 1 a o, .sendl sy a, .sendr sy a, .ld sy d a z i12, .st sy d a z i12, .cwb sy dep a b, .cinv sy dep a b,
           .cwbinv sy dep a b, .xput sy dep a k, .xcancel sy dep d a, .cptail sy dep a, .shpst sy dep a n, .shpset sy dep a n n,
           .xin sy dep d a b n 0, .xinm sy dep d a b n 0, .xout sy dep d a b n 0],
      exec i s = .next s.waitAtIssue := by
  have waits : ∀ {dep : BitVec 4} {rd wr : List RegRef} {f : State → Perform}, gR a ∈ rd →
      Machine.control sy dep rd wr s f = .next s.waitAtIssue := fun h => control_waits_for_reg busy h
  simp only [List.forall_mem_cons, exec_add, exec_sub, exec_and, exec_or, exec_xor, exec_andn, exec_orn, exec_sll, exec_srl, exec_sra,
    exec_min, exec_max, exec_minu, exec_maxu, exec_slt, exec_sltu, exec_addw, exec_subw, exec_sllw, exec_srlw, exec_sraw, exec_mul,
    exec_mulh, exec_mulhu, exec_mulw, exec_div, exec_divu, exec_rem, exec_remu, exec_clz, exec_ctz, exec_popc, exec_addi, exec_andi,
    exec_ori, exec_xori, exec_slti, exec_sltiu, exec_slli, exec_srli, exec_srai, exec_sel, exec_pcmp, exec_pcmpi, exec_cset, exec_jalr,
    exec_loop, exec_sendl, exec_sendr, exec_ld, exec_st, exec_cwb, exec_cinv, exec_cwbinv, exec_xput, exec_xcancel, exec_cptail,
    exec_shpst, exec_shpset, exec_xin, exec_xinm, exec_xout]
  simp only [execAdd, execSub, execAnd, execOr, execXor, execAndn, execOrn, execSll, execSrl, execSra, execMin, execMax, execMinu,
    execMaxu, execSlt, execSltu, execAddw, execSubw, execSllw, execSrlw, execSraw, execMul, execMulh, execMulhu, execMulw, execDiv,
    execDivu, execRem, execRemu, execClz, execCtz, execPopc, execAddi, execAndi, execOri, execXori, execSlti, execSltiu, execSlli,
    execSrli, execSrai, execSel, execPcmp, execPcmpi, execCset, execJalr, execLoop, execSendl, execSendr, execLd, execSt, execCwb,
    execCinv, execCwbinv, execXput, execXcancel, execCptail, execShpst, execShpset, execXin, execXinm, execXout,
    word3, word2, sendPort, cacheWord, crossWord, waits, List.cons_append, List.mem_cons, true_or, true_and, List.not_mem_nil,
    false_imp_iff, implies_true]

/-- Every KP word listed under R85 waits where its tokens are not there. -/
theorem exec_waits_for_tokens {s : State} {dep : BitVec 4} (sy : BitVec 1) (d a : BitVec 5) (k : BitVec 6) (n : BitVec 4)
    (h : s.depsReady dep = false) :
    ∀ i ∈ [Instr.qmark sy dep, .cwb sy dep a a, .cinv sy dep a a, .cwbinv sy dep a a, .xput sy dep a k, .xget sy dep d k,
           .xcancel sy dep d a, .cptail sy dep a, .cpseq sy dep d, .shpst sy dep a n, .shpget sy dep d n n, .btld sy dep n],
      exec i s = .next s.waitAtIssue := by
  simp only [List.forall_mem_cons, exec_qmark, exec_cwb, exec_cinv, exec_cwbinv, exec_xput, exec_xget, exec_xcancel, exec_cptail,
    exec_cpseq, exec_shpst, exec_shpget, exec_btld, execQmark, execCwb, execCinv, execCwbinv, execXput, execXget, execXcancel,
    execCptail, execCpseq, execShpst, execShpget, execBtld, cacheWord, control_waits_for_token h, true_and, List.not_mem_nil,
    false_imp_iff, implies_true]

/-- Settles O7: ports and tokens are FIFOs of the current core, and what waits is `waitAtIssue`. -/
theorem linkPortsTokensAndWaits : Obligations.LinkPortsTokensAndWaits := by
  refine ⟨⟨rightOut_eq_leftIn, fun sy d a s hr => ?_⟩, ⟨fun sy s => ?_, fun dep s => ?_⟩, fun sy dep n z p k d a b o i12 s busy i hi => ?_,
    fun sy dep d a k n s h i hi => ?_, fun sy d a s hr => ?_⟩
  · have ha : s.regsReady [gR a] [] = true := regsReady_mono hr (by simp)
    have hd : s.regsReady [] [gR d] = true := regsReady_mono hr (by simp)
    simp only [exec_sendl, exec_sendr, exec_recvl, exec_recvr, execSendl, execSendr, execRecvl, execRecvr]
    exact ⟨sendPort_pushes ha, sendPort_pushes ha, fun _ _ _ => recvPort_pops hd, fun _ _ _ => recvPort_pops hd⟩
  · rw [exec_nop, execNop, control_ready rfl (depsReady_zero s)]
    exact passes_of (writes_takeDeps_zero s)
  · exact ⟨rfl, fun k h => coreAt_modCore_of_ne s _ h, by obtain ⟨tok, h⟩ := core_takeDeps s dep; rw [h], tokAt_takeDeps s dep⟩
  · exact ⟨_, exec_waits_for_gA sy dep n z p k d a b o i12 busy i hi, waitAtIssue_frame s⟩
  · obtain ⟨pod, -, core, others, own⟩ := waitAtIssue_frame s
    exact ⟨_, exec_waits_for_tokens sy d a k n (depsReady_false h) i hi, pod, core, others, own⟩
  · obtain ⟨pod, -, core, others, own⟩ := waitAtIssue_frame s
    have ha : s.regsReady [gR a] [] = true := regsReady_mono hr (by simp)
    have hd : s.regsReady [] [gR d] = true := regsReady_mono hr (by simp)
    have waits : s.waitAtIssue.apart = s.apart ∧ s.waitAtIssue.core.apart = s.core.apart ∧
        (∀ l, l ≠ s.lane → s.waitAtIssue.core.cluster l = s.core.cluster l) ∧
        s.waitAtIssue.cl.apart = { s.cl.apart with since := s.waitAtIssue.cl.since } ∧ s.waitAtIssue.cl.since ≠ none :=
      ⟨pod, core, others, by rw [own]; rfl, by rw [own]; exact Option.some_ne_none _⟩
    simp only [exec_sendl, exec_sendr, exec_recvl, exec_recvr, execSendl, execSendr, execRecvl, execRecvr]
    exact ⟨fun h => ⟨_, sendPort_waits ha h, waits⟩, fun h => ⟨_, sendPort_waits ha h, waits⟩, fun h => ⟨_, recvPort_waits hd h, waits⟩,
      fun h => ⟨_, recvPort_waits hd h, waits⟩⟩

end Sys2Proof.Proofs
end

section
/-! # States that agree through the end of a word; the count of compared words stands beside what the word does -/

namespace Sys2Proof.Laws

open Sys2Proof.Machine

/-- The count of a word of lane `i` in the open window. -/
def countedWord (i : Nat) (c : Core) : Core :=
  { c with win := c.win.map fun w => { w with words := Sp.put w.words i (Sp.get 0 w.words i + 1) } }

theorem countWord_eq (s : State) : s.countWord = s.modCore (countedWord (laneIdx s.lane)) := rfl

theorem modCore_modCore_same {s : State} {f g h k : Core → Core} (commute : g (f s.core) = k (h s.core)) :
    Same ((s.modCore f).modCore g) ((s.modCore h).modCore k) :=
  ⟨rfl, fun i => by simp only [coreAt_modCore, core_modCore, modCore_cur, commute]; split_ifs <;> rfl⟩

/-- What the window counts stands beside what the word does to the rest of the core. -/
theorem same_countWord_modCore {s : State} {f : Core → Core}
    (commute : f (countedWord (laneIdx s.lane) s.core) = countedWord (laneIdx s.lane) (f s.core)) :
    Same (s.countWord.modCore f) (s.modCore f).countWord :=
  modCore_modCore_same commute

theorem same_countWord_writeG (s : State) (d : BitVec 5) (v : Word) (n : Nat) :
    Same (s.countWord.writeG d v n) (s.writeG d v n).countWord := by
  refine same_countWord_modCore
    (f := fun c => c.setCluster s.lane (((c.cluster s.lane).wg d.toNat v).setBusy (.g d.toNat) (some (s.warm + n)))) ?_
  cases s.lane <;> rfl

theorem same_countWord_recordResult (s : State) (d : Nat) (v : Option Word) :
    Same (s.countWord.recordResult d v) (s.recordResult d v).countWord := by
  refine same_countWord_modCore ?_
  unfold countedWord
  cases s.core.win <;> rfl

section
variable {u v w : State} (h : Same u v)
include h

theorem Same.trans (k : Same v w) : Same u w := ⟨k.pod.trans h.pod, fun i => (k.at_ i).trans (h.at_ i)⟩

theorem Same.symm : Same v u := ⟨h.pod.symm, fun i => (h.at_ i).symm⟩

theorem Same.countWord : Same u.countWord v.countWord := by
  unfold State.countWord
  rw [lane_of_apart h.pod]
  exact h.modCore _

theorem Same.writeG (d : BitVec 5) (x : Word) (n : Nat) : Same (u.writeG d x n) (v.writeG d x n) := by
  unfold State.writeG
  rw [warm_of_apart h.pod]
  exact h.modCl _

theorem Same.mayWriteSys (x : Nat) : v.mayWriteSys x = u.mayWriteSys x := by
  unfold State.mayWriteSys State.privileged
  rw [h.part, h.core]

theorem Same.advance (a : Option Word) : Same (u.advance a) (v.advance a) := by
  unfold State.advance
  rw [h.cl, h.core, warm_of_apart h.pod]
  cases a with
  | some a => exact h.modCl _
  | none => exact (h.modCl _).modCore _

theorem Same.finish (sy : BitVec 1) (a : Option Word) : Same (u.finish sy a) (v.finish sy a) := by
  unfold State.finish
  rw [h.cl]
  split_ifs
  · exact h.advance a
  · exact h.modCl _

end

theorem through_of_same {u t t' : State} {sy : BitVec 1} {r : List RegRef} {a : Option Word} (h : Through u t sy r a) (same : Same t t') :
    Through u t' sy r a where
  pod := same.pod.trans h.pod
  others k hk := (same.at_ k).trans (h.others k hk)
  core := by rw [same.core]; exact h.core
  clusters l hl := by rw [same.core]; exact h.clusters l hl
  nests hs l hl := by rw [same.core]; exact h.nests hs l hl
  regs := by rw [same.cl]; exact h.regs
  goes := by rw [same.cl]; exact h.goes

theorem writesG_of_same {u t t' : State} {sy : BitVec 1} {d : BitVec 5} {x : Word} {n : Nat} {a : Option Word}
    (h : WritesG u (.next t) sy d x n a) (same : Same t t') : WritesG u (.next t') sy d x n a := by
  obtain ⟨_, ⟨rfl⟩, through, value, busy⟩ := h
  exact ⟨t', rfl, through_of_same through same, by rw [same.cl]; exact value, fun w => by rw [same.cl]; exact busy w⟩

end Sys2Proof.Laws
end

section
/-! # O9 and O11: words compared at issue, writes of system registers, system words (R31, R36, R56, R151 to R157, R391, R405, R420, R430) -/

namespace Sys2Proof.Proofs

open Sys2Proof.Machine Sys2Proof.Laws

/-! ## Words compared at issue (R405) -/

/-- A word whose copy agrees, and whose registers and tokens are there, does what it does; the open window counts it. -/
theorem compared_ready {sy : BitVec 1} {dep : BitVec 4} {rd wr : List RegRef} {s : State} {f : State → Perform} {start : State → State}
    (h : s.Compared) (ready : s.Issues dep rd wr) :
    Machine.compared sy dep rd wr s f start =
      match f (s.takeDeps dep) with
      | .done t => .next (t.countWord.finish sy none)
      | .jump t a => .next (t.countWord.finish sy (some a))
      | .start t w => .next ((s.untaken t.countWord w).beginWait w)
      | .hold t => .next { s with cores := s.cores, dies := t.dies, drawn := t.drawn }.waitAtIssue
      | .trap code addr => .next (s.wordTrap code addr) := by
  obtain ⟨w, wait, copied, agrees⟩ := h
  unfold Machine.compared
  rw [wait]
  simp only [agrees, if_neg (show ¬s.warm < w + 6 by omega), Bool.false_eq_true, if_false]
  rw [control_ready ready.1 ready.2]
  cases f (s.takeDeps dep) <;> rfl

/-! ## `swr` (R151) -/

section
variable {sy : BitVec 1} {a : BitVec 5} {x : BitVec 12} {s : State} (hr : s.regsReady [gR a] [] = true) (hc : s.Compared)
include hr hc

/-- `swr` by the three branches of R151. -/
theorem exec_swr_of_ready : exec (.swr sy a x) s =
    if sysAssigned x.toNat = false then .next (s.wordTrap 0x05 s.wordHandle)
    else if s.mayWriteSys x.toNat = false then .next (s.wordTrap 0x06 s.wordHandle)
    else .next ((((s.takeDeps 0).modCore fun c => { c with sysNext := c.sysNext ++ [(x.toNat, s.g a, s.warm)] }).countWord).finish sy none) := by
  have same := same_takeDeps_zero s
  rw [exec_swr, execSwr, compared_ready hc ⟨hr, depsReady_zero s⟩]
  simp only [same.wordHandle, same.mayWriteSys, g_takeDeps, warm_takeDeps, Bool.not_eq_true']
  split_ifs <;> rfl

theorem exec_swr_fixes_write (hx : sysAssigned x.toNat = true) (hm : s.mayWriteSys x.toNat = true) :
    Passes (s.modCore fun c => { c with sysNext := c.sysNext ++ [(x.toNat, s.g a, s.warm)] }).countWord (exec (.swr sy a x) s) sy none := by
  rw [exec_swr_of_ready hr hc, if_neg (by simp [hx]), if_neg (by simp [hm])]
  exact passes_of ((same_takeDeps_zero s).modCore _).countWord.writes

end

/-! ## The registers written (R31, R420, R430) -/

/-- One write due in a later warm cycle. -/
theorem applyWrites_one {c : Core} {x w warm : Nat} {v : Word} (h : w < warm) :
    ({ c with sysNext := [(x, v, w)] } : Core).applyWrites warm = ({ c with sysNext := [] } : Core).sysWrite x v := by
  simp only [Core.applyWrites, List.filter_cons, decide_eq_true h, if_true, List.filter_nil, List.foldl_cons, List.foldl_nil,
    Bool.not_true, Bool.false_eq_true, if_false]

theorem writeOeqstat_eq (c : Core) (v : Word) : c.writeOeqstat v = { c with oeqLost := c.oeqLost && !v.getLsbD 31 } := by
  unfold Core.writeOeqstat
  cases v.getLsbD 31 with
  | true => rw [if_pos rfl, Bool.not_true, Bool.and_false]
  | false => rw [if_neg Bool.false_ne_true, Bool.not_false, Bool.and_true]

theorem writeInj_eq (c : Core) (v : Word) : c.writeInj v = { c with inj := if injOk v then v else c.inj } := by
  unfold Core.writeInj
  split_ifs <;> rfl

theorem bits_eq_zero_iff (v : Word) (i n : Nat) : bits v i n = 0 ↔ v.extractLsb' i n = 0 := by
  rw [bits_eq_extractLsb', toNat_eq_zero]

/-- A value with a reserved bit set is malformed (R420). -/
theorem injOk_of_reserved {v : Word} (h : v.extractLsb' 5 27 ≠ 0 ∨ v.extractLsb' 51 9 ≠ 0) : injOk v = false := by
  unfold injOk
  rw [Ne, Ne, ← bits_eq_zero_iff, ← bits_eq_zero_iff] at h
  obtain h | h := h
  · simp only [decide_eq_false h, Bool.and_false, Bool.false_and]
  · simp only [decide_eq_false h, Bool.and_false, Bool.false_and]

/-- Settles O9: `swr` by `exec_swr_of_ready`, and each register by what `sysWrite` does to it. -/
theorem systemRegisterWrites : Obligations.SystemRegisterWrites := by
  refine ⟨⟨fun sy a x s hr hc => ⟨fun hx => ?_, fun hx hm => ?_, exec_swr_fixes_write hr hc⟩, fun c v w warm hw => ?_⟩, fun v s => ?_⟩
  · rw [exec_swr_of_ready hr hc, if_pos hx]
  · rw [exec_swr_of_ready hr hc, if_neg (by simp [hx]), if_pos hm]
  · simp only [applyWrites_one hw]
    exact ⟨rfl, rfl, rfl, rfl, rfl, rfl, rfl, rfl, rfl, writeOeqstat_eq _ v, rfl, rfl⟩
  · refine ⟨?_, rfl, rfl, ?_, injOk_of_reserved⟩
    · simp only [exec_oeqstatWrite, execOeqstatWrite, writeOeqstat_eq]
    · simp only [exec_injWrite, execInjWrite, writeInj_eq]

end Sys2Proof.Proofs
end

section
/-! # O11: system words (R32, R56, R152 to R154, R157, R391) -/

namespace Sys2Proof.Proofs

open Sys2Proof.Machine Sys2Proof.Laws

theorem owes_oeq_view_takeDeps (s : State) (dep : BitVec 4) : (s.takeDeps dep).core.owes = s.core.owes ∧ (s.takeDeps dep).core.oeq = s.core.oeq ∧
    (s.takeDeps dep).core.oeqFreed = s.core.oeqFreed ∧ (s.takeDeps dep).privileged = s.core.inHandler := by
  unfold State.privileged
  obtain ⟨tok, h⟩ := core_takeDeps s dep
  rw [h]
  exact ⟨rfl, rfl, rfl, rfl⟩

theorem wordHandle_takeDeps (s : State) (dep : BitVec 4) : (s.takeDeps dep).wordHandle = s.wordHandle := by
  unfold State.wordHandle
  rw [cl_takeDeps, lane_takeDeps]

section
variable {sy : BitVec 1} {dep : BitVec 4} {d : BitVec 5} {s : State}

/-- A word done that changes the core beside its count. -/
theorem through_countWord_modCore {v : State} {f : Core → Core}
    (commute : f (countedWord (laneIdx v.lane) v.core) = countedWord (laneIdx v.lane) (f v.core)) :
    Through (v.countWord.modCore f) ((v.modCore f).countWord.finish sy none) sy [] none :=
  Through.ofWrites (same_countWord_modCore commute).writes (through_finish _ _ _)

/-- A word done with a result, recorded, that is counted too. -/
theorem writesG_doneWith_countWord {u v : State} (same : Same u v.countWord) (x : Word) (n : Nat) :
    WritesG (u.recordResult d.toNat (some x)) (.next (((v.recordResult d.toNat (some x)).writeG d x n).countWord.finish sy none)) sy d x n
      none := by
  refine writesG_of_same (writesG_of (same.recordResult _ _).writes) (Same.finish ?_ _ _)
  exact ((same_countWord_recordResult v d.toNat (some x)).writeG d x n).trans (same_countWord_writeG _ d x n)

theorem exec_ecall_fixes_trap (hi : s.Issues dep [] []) (hc : s.Compared) : ∃ t, exec (.ecall sy dep) s = .next t ∧
    Through ((s.takeDeps dep).countWord.modCore fun c =>
      { c with trapNext := c.trapNext ++ [(c.level, 4096 * laneIdx s.lane + 4, s.wordHandle)] }) t sy [] none := by
  have cause : causeOf 0 (laneIdx s.lane) 4 = 4096 * laneIdx s.lane + 4 := by unfold causeOf; omega
  rw [exec_ecall, execEcall, compared_ready hc hi]
  simp only [lane_takeDeps, wordHandle_takeDeps, cause]
  exact ⟨_, rfl, through_countWord_modCore rfl⟩

theorem exec_rotpt_passes (hi : s.Issues dep [] []) (hc : s.Compared) :
    Passes (s.takeDeps dep).countWord (exec (.rotpt sy dep) s) sy none := by
  rw [exec_rotpt, execRotpt, compared_ready hc hi]
  exact passes_of (Writes.refl _)

section
variable (hi : s.Issues dep [] [gR d]) (hc : s.Compared) (owes : s.core.owes = {})
include hi hc owes

theorem exec_oeqpop_of_empty (empty : s.core.oeq = []) :
    WritesG ((s.takeDeps dep).countWord.recordResult d.toNat (some 0)) (exec (.oeqpop sy dep d) s) sy d 0 2 none := by
  obtain ⟨owed, queue, -⟩ := owes_oeq_view_takeDeps s dep
  rw [exec_oeqpop, execOeqpop, compared_ready hc hi, recalled, recall_of_owes_nothing (owed.trans owes)]
  simp only [queue, empty]
  exact writesG_doneWith_countWord (Same.refl _) 0 2

theorem exec_oeqpop_takes_oldest {v : Word} {rest : List Word} (oldest : s.core.oeq = v :: rest) :
    ∃ n, WritesG (((s.takeDeps dep).countWord.modCore fun c => { c with oeq := rest, oeqFreed := (s.warm, n) }).recordResult d.toNat (some v))
      (exec (.oeqpop sy dep d) s) sy d v 2 none := by
  obtain ⟨owed, queue, freed, -⟩ := owes_oeq_view_takeDeps s dep
  rw [exec_oeqpop, execOeqpop, compared_ready hc hi, recalled, recall_of_owes_nothing (owed.trans owes)]
  simp only [queue, oldest, warm_takeDeps, freed]
  generalize (if s.core.oeqFreed.1 = s.warm then s.core.oeqFreed.2 + 1 else 1) = n
  have same : Same ((s.takeDeps dep).countWord.modCore fun c => { c with oeq := rest, oeqFreed := (s.warm, n) })
      ((s.takeDeps dep).modCore fun c => { c with oeq := rest, oeqFreed := (s.warm, n) }).countWord := same_countWord_modCore rfl
  exact ⟨n, writesG_doneWith_countWord same v 2⟩

end

/-! ## Words of the P view (R32, R391) -/

section
variable (hi : s.Issues dep [] []) (hc : s.Compared)
include hi hc

theorem exec_tret_fixes_return (handler : s.core.inHandler = true) : ∃ t, exec (.tret sy dep) s = .next t ∧
    Through ((s.takeDeps dep).countWord.modCore fun c => { c with tacked := true, returning := c.level :: c.returning }) t sy [] none := by
  obtain ⟨-, -, -, view⟩ := owes_oeq_view_takeDeps s dep
  rw [exec_tret, execTret, compared_ready hc hi]
  simp only [view, handler, Bool.not_true, Bool.false_eq_true, if_false]
  exact ⟨_, rfl, through_countWord_modCore rfl⟩

theorem exec_tack_tells (handler : s.core.inHandler = true) : ∃ t, exec (.tack sy dep) s = .next t ∧
    Through ((s.takeDeps dep).countWord.modCore fun c => { c with tacked := true }) t sy [] none := by
  obtain ⟨-, -, -, view⟩ := owes_oeq_view_takeDeps s dep
  rw [exec_tack, execTack, compared_ready hc hi]
  simp only [view, handler, Bool.not_true, Bool.false_eq_true, if_false]
  exact ⟨_, rfl, through_countWord_modCore rfl⟩

theorem privileged_words_trap (user : s.core.inHandler = false) :
    ∀ i ∈ [Instr.tret sy dep, .tack sy dep, .iinv sy dep], exec i s = .next (s.wordTrap 0x06 s.wordHandle) := by
  obtain ⟨-, -, -, view⟩ := owes_oeq_view_takeDeps s dep
  simp only [List.forall_mem_cons, exec_tret, exec_tack, exec_iinv, execTret, execTack, execIinv, compared_ready hc hi, view, user,
    Bool.not_false, if_true, wordHandle_takeDeps, true_and, List.not_mem_nil, false_imp_iff, implies_true]

end

/-! ## `iinv` (R152) -/

/-- Every core of the die of `s.cur` with its instruction cache empty. -/
def iinvalidated (s : State) : State :=
  { s with cores := s.cores.map fun x => if dieOf x.1 = dieOf s.cur then (x.1, { x.2 with l1i := [] }) else x }

/-- A record changed by its number, where what an unlisted number reads as stays. -/
theorem get_map_at {α : Type} (d : α) (f : Nat → α → α) (m : Sp α) (k : Nat) (fix : f k d = d) :
    Sp.get d (m.map fun x => (x.1, f x.1 x.2)) k = f k (Sp.get d m k) := by
  induction m with
  | nil => exact fix.symm
  | cons x rest ih =>
    simp only [List.map_cons, Sp.get]
    split_ifs with below here
    · exact fix.symm
    · rw [here]
    · exact ih

theorem coreAt_iinvalidated (s : State) (k : Nat) :
    (iinvalidated s).coreAt k = if k / 64 = s.cur / 64 then { s.coreAt k with l1i := [] } else s.coreAt k := by
  have at_ := get_map_at (Core.atReset k) (fun n c => if dieOf n = dieOf s.cur then { c with l1i := [] } else c) s.cores k
    (by split_ifs <;> rfl)
  refine Eq.trans ?_ at_
  unfold State.coreAt iinvalidated
  refine congrArg (fun m => Sp.get _ m k) (List.map_congr_left fun x _ => ?_)
  split_ifs <;> rfl

theorem cluster_iinvalidated (s : State) (l : Lane) : (iinvalidated s).core.cluster l = s.core.cluster l := by
  have own : (iinvalidated s).core = { s.core with l1i := [] } := (coreAt_iinvalidated s s.cur).trans (if_pos rfl)
  rw [own]
  cases l <;> rfl

theorem l1i_coreAt_countWord (s : State) (k : Nat) : (s.countWord.coreAt k).l1i = (s.coreAt k).l1i := by
  rw [countWord_eq, coreAt_modCore]
  split_ifs with here
  · rw [here]
    rfl
  · rfl

theorem exec_iinv_empties (hi : s.Issues dep [] []) (hc : s.Compared) (handler : s.core.inHandler = true) :
    ∃ t, exec (.iinv sy dep) s = .next t ∧ t.apart = s.apart ∧ (∀ k, k / 64 = s.cur / 64 → (t.coreAt k).l1i = []) ∧
      (∀ k, k / 64 ≠ s.cur / 64 → t.coreAt k = s.coreAt k) ∧ ∀ l, l ≠ s.lane → (t.core.cluster l).g = (s.core.cluster l).g := by
  obtain ⟨-, -, -, view⟩ := owes_oeq_view_takeDeps s dep
  rw [exec_iinv, execIinv, compared_ready hc hi]
  simp only [view, handler, Bool.not_true, Bool.false_eq_true, if_false]
  have through := through_finish (iinvalidated (s.takeDeps dep)).countWord sy none
  have dep_other : ∀ k, k / 64 ≠ s.cur / 64 → k ≠ s.cur := fun k hk h => hk (by rw [h])
  have cur : ((iinvalidated (s.takeDeps dep)).countWord.finish sy none).cur = s.cur := cur_of_apart through.pod
  refine ⟨(iinvalidated (s.takeDeps dep)).countWord.finish sy none, rfl, through.pod, fun k hk => ?_, fun k hk => ?_, fun l hl => ?_⟩
  · have emptied : ((iinvalidated (s.takeDeps dep)).countWord.coreAt k).l1i = [] := by
      rw [l1i_coreAt_countWord, coreAt_iinvalidated, cur_takeDeps, if_pos hk]
    by_cases here : k = s.cur
    · rw [here] at emptied ⊢
      have own : ((iinvalidated (s.takeDeps dep)).countWord.finish sy none).core.l1i = (iinvalidated (s.takeDeps dep)).countWord.core.l1i :=
        (congrArg Core.l1i through.core :)
      rw [← cur]
      exact own.trans emptied
    · exact (congrArg Core.l1i (through.others k here)).trans emptied
  · rw [through.others k (dep_other k hk), countWord_eq,
      coreAt_modCore_of_ne (iinvalidated (s.takeDeps dep)) _ (dep_other k hk), coreAt_iinvalidated, cur_takeDeps, if_neg hk,
      State.takeDeps, coreAt_modCore_of_ne _ _ (dep_other k hk)]
  · have own : ∀ l, ((iinvalidated (s.takeDeps dep)).countWord.core.cluster l) = s.core.cluster l := by
      intro l
      rw [countWord_eq, core_modCore, ← cluster_takeDeps s dep l, ← cluster_iinvalidated]
      cases l <;> rfl
    have kept : (((iinvalidated (s.takeDeps dep)).countWord.finish sy none).core.cluster l).g =
        ((iinvalidated (s.takeDeps dep)).countWord.core.cluster l).g := (congrArg Cluster.g (through.clusters l hl) :)
    rw [kept, own]

end

/-- Settles O11, word by word. -/
theorem systemWordsCompleteOrTrap : Obligations.SystemWordsCompleteOrTrap := by
  refine ⟨fun sy dep d s hi hc owes => ?_, fun sy dep s => privileged_words_trap⟩
  have none : s.Issues dep [] [] := ⟨regsReady_mono hi.1 (by simp), hi.2⟩
  exact ⟨exec_ecall_fixes_trap none hc, exec_rotpt_passes none hc, exec_oeqpop_of_empty hi hc owes,
    fun v rest => exec_oeqpop_takes_oldest hi hc owes,
    fun handler => ⟨exec_tret_fixes_return none hc handler, exec_tack_tells none hc handler, exec_iinv_empties none hc handler⟩⟩

end Sys2Proof.Proofs
end

section
/-! # What moves between the L1 data cache and memory leaves the rest of the pod alone (R328, R417, R442) -/

namespace Sys2Proof.Proofs

open Sys2Proof.Machine Sys2Proof.Laws

/-! ## A fill, by whether the line is cached -/

/-- The lines of the current core that stand in the set of byte `key`. -/
def setOf (s : State) (key : Nat) : List Line := s.core.l1d.filter fun l => decide (l.addr % 128 = key / 64 % 128)

/-- The state once the set of byte `key` has room: a full set has lost its least recently used line. -/
def madeRoom (s : State) (key : Nat) : State :=
  if (setOf s key).length < 8 then s
  else match oldest (setOf s key) with
    | some v => (s.writeBack s.warm v).modCore fun c => { c with l1d := c.l1d.filter fun l => !decide (l.addr = v.addr) }
    | none => s

/-- Line `a` as read from the memory of `t` at `used`. -/
def freshLine (t : State) (a used : Nat) : Line := { addr := a, data := BitVec.ofNat 512 (leNat (t.bytes (a * 64) 64)), mask := 0, used := used }

/-- The state with that line in the cache of the current core. -/
def filled (t : State) (l : Line) : State :=
  t.modCore fun c => { c with l1d := l :: c.l1d, badL1 := c.badL1.filter fun x => !decide (x = l.addr) }

theorem fillLine_of_hit {s : State} {key : Nat} {l : Line} (hit : s.core.l1d.find? (fun l => decide (l.addr = key / 64)) = some l) :
    s.fillLine key = (l, s) := by
  unfold State.fillLine
  dsimp only
  rw [hit]

theorem fillLine_of_miss {s : State} {key : Nat} (miss : s.core.l1d.find? (fun l => decide (l.addr = key / 64)) = none) :
    s.fillLine key = (freshLine (madeRoom s key) (key / 64) s.clock,
      filled (madeRoom s key) (freshLine (madeRoom s key) (key / 64) s.clock)) := by
  unfold State.fillLine
  dsimp only
  rw [miss]
  rfl

/-- From `s` to `t` lines of the current core's L1 data cache have moved: memory with its owners, the logs, and of the current core its
lines and the mirror writes it awaits may differ. -/
structure LinesMove (s t : State) : Prop where
  pod : ∃ m o ds ps, t.apart = { s.apart with mem := m, owners := o, dies := ds, pkgs := ps }
  others : ∀ k, k ≠ s.cur → t.coreAt k = s.coreAt k
  core : ∃ lines bad mirror, t.core = { s.core with l1d := lines, badL1 := bad, mirror := mirror }

namespace LinesMove

theorem refl (s : State) : LinesMove s s := ⟨⟨s.mem, s.owners, s.dies, s.pkgs, rfl⟩, fun _ _ => rfl, s.core.l1d, s.core.badL1, s.core.mirror, rfl⟩

section
variable {s t u : State} (h : LinesMove s t)
include h

theorem cur : t.cur = s.cur := by
  obtain ⟨m, o, ds, ps, e⟩ := h.pod
  exact (congrArg State.cur e :)

theorem clock : t.clock = s.clock := by
  obtain ⟨m, o, ds, ps, e⟩ := h.pod
  exact (congrArg State.clock e :)

theorem drawn : t.drawn = s.drawn := by
  obtain ⟨m, o, ds, ps, e⟩ := h.pod
  exact (congrArg State.drawn e :)

theorem parts : t.parts = s.parts := by
  obtain ⟨m, o, ds, ps, e⟩ := h.pod
  exact (congrArg State.parts e :)

theorem trans (g : LinesMove t u) : LinesMove s u := by
  obtain ⟨m, o, ds, ps, e⟩ := h.pod
  obtain ⟨m', o', ds', ps', e'⟩ := g.pod
  obtain ⟨x, y, z, c⟩ := h.core
  obtain ⟨x', y', z', c'⟩ := g.core
  refine ⟨⟨m', o', ds', ps', by rw [e', e]⟩, fun k hk => (g.others k (by rwa [h.cur])).trans (h.others k hk), x', y', z', by rw [c', c]⟩

end

theorem foldl {α : Type} {f : State → α → State} (h : ∀ s a, LinesMove s (f s a)) (l : List α) (s : State) : LinesMove s (l.foldl f s) := by
  induction l generalizing s with
  | nil => exact refl s
  | cons a rest ih => exact (h s a).trans (ih _)

/-- A change of memory or of the logs alone. -/
theorem of_cores {s t : State} (cores : t.cores = s.cores)
    (pod : ∃ m o ds ps, t.apart = { s.apart with mem := m, owners := o, dies := ds, pkgs := ps }) : LinesMove s t := by
  have cur : t.cur = s.cur := by
    obtain ⟨m, o, ds, ps, e⟩ := pod
    exact (congrArg State.cur e :)
  have at_ (k : Nat) : t.coreAt k = s.coreAt k := congrArg (fun m => Sp.get (Core.atReset k) m k) cores
  refine ⟨pod, fun k _ => at_ k, s.core.l1d, s.core.badL1, s.core.mirror, ?_⟩
  rw [State.core, State.core, cur, at_]

theorem modCore (s : State) {f : Core → Core} (h : ∃ lines bad mirror, f s.core = { s.core with l1d := lines, badL1 := bad, mirror := mirror }) :
    LinesMove s (s.modCore f) := by
  obtain ⟨x, y, z, e⟩ := h
  exact ⟨⟨s.mem, s.owners, s.dies, s.pkgs, rfl⟩, fun k hk => coreAt_modCore_of_ne s f hk, x, y, z, by rw [core_modCore, e]⟩

theorem liveByte (s : State) (w key : Nat) (b : Byte) : LinesMove s (s.liveByte w key b) := by
  unfold State.liveByte
  split
  · exact refl s
  · exact of_cores rfl ⟨_, _, _, _, rfl⟩

theorem homeByte (s : State) (key : Nat) (b : Byte) : LinesMove s (s.homeByte key b) := by
  unfold State.homeByte State.partByte
  dsimp only
  split
  · exact (liveByte ..).trans (liveByte ..)
  · exact liveByte ..

theorem lineHome (s : State) (l : Line) : LinesMove s (s.lineHome l) := by
  refine foldl (fun s i => ?_) _ s
  split
  · exact homeByte ..
  · exact refl s

theorem awaitMirror (s : State) (key issued : Nat) (joined : Bool) : LinesMove s (s.awaitMirror key issued joined) := by
  unfold State.awaitMirror
  split
  · exact modCore s ⟨_, _, _, rfl⟩
  · exact refl s

theorem logDie (s : State) (d : Nat) (e : MemError) (m : Bool) : LinesMove s (s.logDie d e m) := by
  refine of_cores (logDie_cores ..) ?_
  unfold State.logDie State.tell
  dsimp only
  split <;> exact ⟨_, _, _, _, rfl⟩

theorem writeBack (s : State) (issued : Nat) (l : Line) : LinesMove s (s.writeBack issued l) := by
  unfold State.writeBack
  split_ifs
  · exact refl s
  · exact logDie ..
  · exact (lineHome s l).trans (awaitMirror ..)

theorem cleanLines (s : State) (issued : Nat) (sel : Line → Bool) : LinesMove s (s.cleanLines issued sel) :=
  (foldl (fun s l => writeBack s issued l) _ s).trans (modCore _ ⟨_, _, _, rfl⟩)

theorem madeRoom (s : State) (key : Nat) : LinesMove s (madeRoom s key) := by
  unfold Proofs.madeRoom
  split_ifs
  · exact refl s
  · split
    · exact (writeBack ..).trans (modCore _ ⟨_, _, _, rfl⟩)
    · exact refl s

theorem filled (t : State) (l : Line) : LinesMove t (filled t l) := modCore t ⟨_, _, _, rfl⟩

/-- A fill, with the eviction it may need. -/
theorem fillLine (s : State) (key : Nat) : LinesMove s (s.fillLine key).2 := by
  cases hit : s.core.l1d.find? (fun l => decide (l.addr = key / 64)) with
  | some l =>
    rw [fillLine_of_hit hit]
    exact refl s
  | none =>
    rw [fillLine_of_miss hit]
    exact (madeRoom s key).trans (filled ..)

theorem putLine (s : State) (l : Line) : LinesMove s (s.putLine l) := modCore s ⟨_, _, _, rfl⟩

theorem l1Read (s : State) (key n : Nat) : LinesMove s (s.l1Read key n).2 := (fillLine s key).trans (putLine ..)

end LinesMove

end Sys2Proof.Proofs
end

section
/-! # O12: `wfi` and `halt` (R155, R156, R369) -/

namespace Sys2Proof.Proofs

open Sys2Proof.Machine Sys2Proof.Laws

/-! ## `wfi` (R156) -/

section
variable {sy : BitVec 1} {dep : BitVec 4} {s : State}

theorem beginWait_frame (s : State) (w : Wait) : (s.beginWait w).apart = s.apart ∧ (s.beginWait w).core.apart = s.core.apart ∧
    (s.beginWait w).cl = { s.cl with wait := w, since := (s.beginWait w).cl.since } ∧ (s.beginWait w).cl.since ≠ none := by
  have own : (s.beginWait w).cl = { s.cl with wait := w, since := some (s.cl.since.getD s.warm) } := cl_modCl s _
  refine ⟨rfl, core_apart_modCl s _, by rw [own], by rw [own]; exact Option.some_ne_none _⟩

theorem exec_wfi_falls_asleep (ready : s.depsReady dep = true) (wait : s.cl.wait = .none) :
    exec (.wfi sy dep) s = .next (s.beginWait (.asleep s.warm)) := by
  rw [exec_wfi, execWfi, wait]
  exact if_pos ready

theorem exec_wfi_sleeps {w : Nat} (wait : s.cl.wait = .asleep w) : exec (.wfi sy dep) s = .next s := by
  rw [exec_wfi, execWfi, wait]

theorem exec_wfi_goes_on {w : Nat} (ready : s.depsReady dep = true) (wait : s.cl.wait = .awake w) (copied : w + 6 ≤ s.warm)
    (agrees : s.core.willMismatch = false) : Passes (s.takeDeps dep).countWord (exec (.wfi sy dep) s) sy none := by
  rw [exec_wfi, execWfi, wait]
  simp only [agrees, if_neg (show ¬s.warm < w + 6 by omega), Bool.false_eq_true, if_false]
  rw [control_ready rfl ready]
  exact passes_of (Writes.refl _)

/-- A cluster once its sleep has lasted 4096 warm cycles. -/
def wokenAt (warm : Nat) (x : Cluster) : Cluster :=
  match x.wait with
  | .asleep w => if w + 4096 ≤ warm then x.wake else x
  | _ => x

theorem wokenAt_frame (warm : Nat) (x : Cluster) : wokenAt warm x = { x with wait := (wokenAt warm x).wait } := by
  unfold wokenAt Cluster.wake
  cases x with
  | mk =>
    dsimp only
    split
    · split_ifs <;> rfl
    · rfl

theorem wokenAt_wait {warm w : Nat} {x : Cluster} (asleep : x.wait = .asleep w) :
    (wokenAt warm x).wait = if w + 4096 ≤ warm then .awake w else .asleep w := by
  unfold wokenAt Cluster.wake
  rw [asleep]
  dsimp only
  split_ifs
  · rfl
  · exact asleep

theorem exec_wfiTimeout_eq (s : State) : exec .wfiTimeout s = .next (s.modCore fun c => c.modClusters fun _ x => wokenAt s.warm x) := rfl

end

/-! ## `halt` (R155, R369) -/

section
variable {sy : BitVec 1} {dep : BitVec 4} {s : State}

/-- The core as `halt` stops it. -/
def halted (c : Core) : Core :=
  { c.closeWindow with halting := true }.modClusters fun _ x => { x with atJoin := false, since := none, wait := .none }

/-- What the end of a word leaves of every register. -/
theorem rg_through_all {u t : State} {a : Option Word} (h : Through u t sy [] a) (l : Lane) (n : Nat) :
    (t.core.cluster l).rg n = (u.core.cluster l).rg n := by
  by_cases own : l = u.lane
  · have := rg_through h n
    rwa [State.cl, State.cl, lane_of_apart h.pod, ← own] at this
  · have kept : (t.core.cluster l).g = (u.core.cluster l).g := (congrArg Cluster.g (h.clusters l own) :)
    unfold Cluster.rg
    rw [kept]

theorem exec_halt_stops (running : s.core.halting = false) (hi : s.Issues dep [] []) (hc : s.Compared) :
    ∃ t, exec (.halt sy dep) s = .next t ∧ t.apart = s.apart ∧
      t.core.halting = true ∧ t.core.lq = s.core.lq ∧ t.core.cold = s.core.cold ∧ ∀ l n, (t.core.cluster l).rg n = (s.core.cluster l).rg n := by
  rw [exec_halt, execHalt, running, if_neg Bool.false_ne_true, compared_ready hc hi]
  have through := through_finish ((s.takeDeps dep).modCore halted).countWord sy none
  have stopped : ((s.takeDeps dep).modCore halted).countWord.core = countedWord (laneIdx s.lane) (halted (s.takeDeps dep).core) := by
    rw [countWord_eq, core_modCore, core_modCore]
    rfl
  obtain ⟨tok, dropped⟩ := core_takeDeps s dep
  rw [dropped] at stopped
  refine ⟨_, rfl, through.pod, ?_, ?_, ?_, fun l n => ?_⟩
  · exact (congrArg Core.halting (through.core.trans (congrArg Core.apart stopped)) :)
  · exact (congrArg Core.lq (through.core.trans (congrArg Core.apart stopped)) :)
  · exact (congrArg Core.cold (through.core.trans (congrArg Core.apart stopped)) :)
  · refine (rg_through_all through l n).trans ?_
    rw [stopped]
    cases l <;> rfl

theorem exec_halt_of_halting (halting : s.core.halting = true) :
    exec (.halt sy dep) s = if s.core.drained_ = true then .next s.haltEnd else .next s := by
  rw [exec_halt, execHalt, if_pos halting]

end

/-! ## The end of a task -/

theorem clock_foldl {α : Type} {f : State → α → State} (h : ∀ s a, (f s a).clock = s.clock) (l : List α) (s : State) :
    (l.foldl f s).clock = s.clock := by
  induction l generalizing s with
  | nil => rfl
  | cons a rest ih => exact (ih _).trans (h s a)

theorem clock_settleSpans (s : State) (k : Nat) (i : BitVec 1) (failed : Bool) : (s.settleSpans k i failed).clock = s.clock := by
  unfold State.settleSpans
  dsimp only
  rw [clock_foldl]
  · rw [modCoreAt_clock, modPartAt_clock]
    exact clock_foldl (f := fun s h => s.modToken _ h Token.unshare) (fun _ _ => rfl) _ s
  · intro t x
    split <;> rfl

theorem clock_logDie (s : State) (d : Nat) (e : MemError) (m : Bool) : (s.logDie d e m).clock = s.clock := (LinesMove.logDie s d e m).clock

theorem clock_endTask (s : State) (k : Nat) (i : BitVec 1) (status : BitVec 8) (cause : BitVec 16) :
    (s.endTask k i status cause).clock = s.clock := by
  unfold State.endTask State.checked
  dsimp only
  split
  · rfl
  · exact clock_logDie ..

theorem shares_modSlotAt (c : Core) (i : BitVec 1) (f : Slot → Slot) : (c.modSlotAt i f).shares = c.shares := by
  unfold Core.modSlotAt
  split <;> rfl

theorem endTask_clears {s : State} {k : Nat} {i : BitVec 1} (status : BitVec 8) (cause : BitVec 16) (run : (s.coreAt k).run = some i) :
    ((s.endTask k i status cause).coreAt k).run = none ∧ ((s.endTask k i status cause).coreAt k).shares = [] := by
  unfold State.endTask
  dsimp only
  generalize hu : (s.draw 255).2.modPartAt ((s.coreAt k).slotAt i).part _ = u
  have core : u.coreAt k = s.coreAt k := by
    rw [← hu]
    rfl
  cases bad : ((s.coreAt k).slotAt i).badCrc with
  | none =>
    rw [checked_of_ok (by rw [core]; exact bad), coreAt_modCoreAt_self, core, if_pos run]
    exact ⟨run_modSlotAt .., shares_modSlotAt ..⟩
  | some crc =>
    rw [checked_of_bad (by rw [core]; exact bad), coreAt_modCoreAt_self]
    have logged : (((u.logDie (dieOf k) (badRecord k i crc) false).modPartAt ((u.coreAt k).slotAt i).part
        (withLostRecord ((u.coreAt k).slotAt i).launch)).coreAt k).run = some i := by
      rw [← run, ← core]
      exact congrArg (fun m => (Sp.get (Core.atReset k) m k).run) (logDie_cores ..)
    rw [withoutRecord, if_pos logged]
    exact ⟨run_modSlotAt .., shares_modSlotAt ..⟩

/-- Lines go home and spans are settled before the task ends: neither touches the bind records. -/
theorem haltEnd_slotsKept (s : State) (i : BitVec 1) : SlotsKept s ((s.cleanLines s.warm fun _ => true).settleSpans s.cur i false) :=
  (SlotsKept.cleanLines ..).trans (SlotsKept.settleSpans ..)

section
variable {s : State} {i : BitVec 1} (run : s.core.run = some i)
include run

theorem haltEnd_eq : s.haltEnd = ((s.cleanLines s.warm fun _ => true).settleSpans s.cur i false).endTask s.cur i 0 0 := by
  unfold State.haltEnd
  rw [run]

theorem haltEnd_endsTask : EndsTask s s.haltEnd s.cur i := by
  rw [haltEnd_eq run]
  exact EndsTask.of_kept (haltEnd_slotsKept s i) (endTask_endsTask ..)

theorem haltEnd_clears : (s.haltEnd.coreAt s.cur).run = none ∧ (s.haltEnd.coreAt s.cur).shares = [] := by
  rw [haltEnd_eq run]
  exact endTask_clears 0 0 (((haltEnd_slotsKept s i).run s.cur).trans run)

end

theorem clock_haltEnd (s : State) : s.haltEnd.clock = s.clock := by
  unfold State.haltEnd
  split
  · rw [clock_endTask, clock_settleSpans, (LinesMove.cleanLines ..).clock]
  · rfl

/-- Settles O12: `wfi` by the wait it stands in, `halt` by whether the core halts and is drained. -/
theorem wfiWakesAndHaltDrains : Obligations.WfiWakesAndHaltDrains := by
  refine ⟨fun sy dep s ready => ⟨fun wait => ?_, fun w => exec_wfi_sleeps, fun w => exec_wfi_goes_on ready, ?_⟩, fun sy dep s =>
    ⟨exec_halt_stops, fun halting busy => ?_, fun r halting drained run => ?_⟩⟩
  · exact ⟨_, exec_wfi_falls_asleep ready wait, beginWait_frame s _⟩
  · refine ⟨_, exec_wfiTimeout_eq s, rfl, by rw [core_modCore]; rfl, fun l => ?_⟩
    rw [core_modCore, cluster_modClusters]
    exact ⟨wokenAt_frame .., fun w => wokenAt_wait⟩
  · rw [exec_halt_of_halting halting, busy, if_neg Bool.false_ne_true]
  · obtain ⟨none, shares⟩ := haltEnd_clears run
    have ends := haltEnd_endsTask run
    have cur : s.haltEnd.cur = s.cur := ends.cur
    refine ⟨s.haltEnd, by rw [exec_halt_of_halting halting, if_pos drained], ?_, fun ok => ?_, fun bad => ?_, ?_, clock_haltEnd s⟩
    all_goals rw [State.core, cur]
    · exact none
    · exact ends.ended ok
    · rw [ends.dropped bad]
    · exact shares

end Sys2Proof.Proofs
end

section
/-! # O16: the checks of an access at issue (R136, R270, R332) -/

namespace Sys2Proof.Proofs

open Sys2Proof.Machine Sys2Proof.Laws

/-! ## Rights over one unit (R267, R270) -/

/-- Bytes that do not leave a 64 KiB unit have one handle. -/
theorem unitHandles_of_one {h : Word} {n : Nat} (one : offsetOf h % 65536 + n ≤ 65536) : unitHandles h n = [h] := by
  have none : (offsetOf h + n - 1) / 65536 - offsetOf h / 65536 = 0 := by omega
  unfold unitHandles
  dsimp only
  rw [none]
  rfl

section
variable {s : State} {r : Region} {h : Word} {n : Nat} {write : Bool}

theorem mayUse_of_not_head (no : (if write = true then s.mayWrite r h else s.mayRead r h) = false) : s.mayUse write r h n = false := by
  unfold State.mayUse unitHandles
  rw [List.all_cons, no, Bool.false_and]

theorem mayRead_of_readOnly (ro : r.rw = false) (u : Word) : s.mayRead r u = true := by
  simp only [State.mayRead, State.readRight, ro, Bool.not_false, Bool.true_or]

theorem mayRead_of_shared (shared : (s.part.headOf (unitOf r h)).1 ∈ s.core.shares) : s.mayRead r h = true := by
  simp only [State.mayRead, State.readRight, List.contains_iff_mem.2 shared, Bool.or_true, Bool.true_or]

theorem mayUse_of_one {v : Bool} (one : offsetOf h % 65536 + n ≤ 65536) (may : (if write = true then s.mayWrite r h else s.mayRead r h) = v) :
    s.mayUse write r h n = v := by
  unfold State.mayUse
  rw [unitHandles_of_one one, List.all_cons, List.all_nil, Bool.and_true, may]

theorem mayUse_of_readOnly (ro : r.rw = false) : s.mayUse false r h n = true :=
  List.all_eq_true.2 fun u _ => mayRead_of_readOnly ro u

theorem mayWrite_of_readOnly (ro : r.rw = false) : s.mayWrite r h = false := by
  simp only [State.mayWrite, State.writeRight, ro, Bool.false_and]

theorem mayWrite_of_not_exclusive (other : s.exclusive (s.part.headOf (unitOf r h)).2 = false) : s.mayWrite r h = false := by
  simp only [State.mayWrite, State.writeRight, other, Bool.and_false, Bool.false_and]

theorem sendLeaves_of_no_sends (silent : s.core.sends = []) (head : Nat) : s.sendLeaves true head = none := by
  unfold State.sendLeaves
  rw [silent]
  rfl

/-- A core that neither holds the span nor has its share may neither read nor write it. -/
theorem mayUse_of_stranger (rw_ : r.rw = true) (unshared : (s.part.headOf (unitOf r h)).1 ∉ s.core.shares)
    (unheld : s.holds (s.part.headOf (unitOf r h)).2 = false) : s.mayUse write r h n = false := by
  have no_share : s.core.shares.contains (s.part.headOf (unitOf r h)).1 = false := by
    simpa using unshared
  refine mayUse_of_not_head ?_
  cases write with
  | true => exact mayWrite_of_not_exclusive (by rw [State.exclusive, unheld, Bool.false_and])
  | false => simp only [Bool.false_eq_true, if_false, State.mayRead, State.readRight, rw_, no_share, unheld, Bool.not_true, Bool.false_and,
      Bool.or_false]

/-- The exclusive holder with no send under way may do both. -/
theorem mayUse_of_exclusive (rw_ : r.rw = true) (one : offsetOf h % 65536 + n ≤ 65536) (silent : s.core.sends = [])
    (held : s.holds (s.part.headOf (unitOf r h)).2 = true) (excl : (s.part.headOf (unitOf r h)).2.mode = .excl) :
    s.mayUse write r h n = true := by
  refine mayUse_of_one one ?_
  cases write with
  | true => simp only [if_true, State.mayWrite, State.writeRight, State.exclusive, rw_, held, excl, sendLeaves_of_no_sends silent,
      decide_true, Option.isNone_none, Bool.and_true]
  | false => simp only [Bool.false_eq_true, if_false, State.mayRead, State.readRight, held, excl, sendLeaves_of_no_sends silent, decide_true,
      Bool.true_or, Bool.and_true, Bool.or_true]

end

/-! ## The checks in order (R136) -/

section
variable {s : State} {h : Word} {n al : Nat} {write : Bool}

theorem access_misaligned (odd : h.toNat % al ≠ 0) : s.access h n al write = .trap 0x07 h := by
  unfold State.access
  rw [if_pos odd]

section
variable (aligned : h.toNat % al = 0) (mapped : regionIdx h ≠ 0xFFF)
include aligned mapped

theorem access_walks (miss : regionIdx h ∉ s.core.tlb) : s.access h n al write = .walk (regionIdx h) := by
  have : s.core.tlb.contains (regionIdx h) = false := by simpa using miss
  unfold State.access
  rw [if_neg (not_not.2 aligned), if_neg mapped, this, Bool.not_false, if_pos rfl]

theorem access_out_of_range (hit : regionIdx h ∈ s.core.tlb) (out : s.locate s.partNo h n = none) : s.access h n al write = .trap 0x08 h := by
  have : s.core.tlb.contains (regionIdx h) = true := List.contains_iff_mem.2 hit
  unfold State.access
  rw [if_neg (not_not.2 aligned), if_neg mapped, this, if_neg (by decide), out]

/-- What the ownership check of a located access answers. -/
theorem access_located {r : Region} {k : Nat} (hit : regionIdx h ∈ s.core.tlb) (place : s.locate s.partNo h n = some (r, k)) :
    s.access h n al write = if s.mayUse write r h n = true then .pass (.home (regionIdx h) k) else .trap 0x09 h := by
  have : s.core.tlb.contains (regionIdx h) = true := List.contains_iff_mem.2 hit
  unfold State.access
  rw [if_neg (not_not.2 aligned), if_neg mapped, this, if_neg (by decide), place]

end

end

/-! ## `ld` and `st` whose handle fails a check -/

/-- The state in which the die has been asked for a walk of region `r`. -/
def walkAsked (s : State) (r : Nat) : State :=
  { s with dies := ((s.takeDeps 0).walk r).dies, drawn := ((s.takeDeps 0).walk r).drawn }

section
variable {sy : BitVec 1} {d a : BitVec 5} {z : BitVec 3} {i : BitVec 12} {s : State}

section
variable (hr : s.regsReady [gR a] [gR d] = true)
include hr

theorem exec_ld_of_ready : exec (.ld sy d a z i) s =
    if s.room .load = false then .next s.waitAtIssue
    else match s.access (s.g a + i.signExtend 64) (Machine.sizeOf z) (Machine.sizeOf z) false with
      | .walk r => .next (walkAsked s r).waitAtIssue
      | .trap code addr => .next (s.wordTrap code addr)
      | .pass p => match s.ldBad p (Machine.sizeOf z) with
        | some line => .next (s.wordTrap 0x1B (word line))
        | none => .next ((((s.takeDeps 0).enqueue .load (.load (s.g a + i.signExtend 64) z s.lane d.toNat)).awaitG d).finish sy none) := by
  have same := same_takeDeps_zero s
  rw [exec_ld, execLd, control_ready hr (depsReady_zero s)]
  simp only [same.room, same.g, same.access, same.ldBad, sext, lane_takeDeps, Bool.not_eq_true']
  split_ifs
  · rfl
  · cases s.access (s.g a + i.signExtend 64) (Machine.sizeOf z) (Machine.sizeOf z) false with
    | walk r => rfl
    | trap code addr => rfl
    | pass p =>
      dsimp only
      cases s.ldBad p (Machine.sizeOf z) <;> rfl

end

section
variable (hr : s.regsReady [gR a, gR d] [] = true)
include hr

theorem exec_st_of_ready : exec (.st sy d a z i) s =
    if s.room .store = false then .next s.waitAtIssue
    else match s.access (s.g a + i.signExtend 64) (Machine.sizeOf z) (Machine.sizeOf z) true with
      | .walk r => .next (walkAsked s r).waitAtIssue
      | .trap code addr => .next (s.wordTrap code addr)
      | .pass _ => .next (((s.takeDeps 0).enqueue .store (.store (s.g a + i.signExtend 64) (Machine.sizeOf z) (s.g d))).finish sy none) := by
  have same := same_takeDeps_zero s
  rw [exec_st, execSt, control_ready hr (depsReady_zero s)]
  simp only [same.room, same.g, same.access, sext, Bool.not_eq_true']
  split_ifs
  · rfl
  · cases s.access (s.g a + i.signExtend 64) (Machine.sizeOf z) (Machine.sizeOf z) true <;> rfl

end

/-- A walk asked for where none is under way is the die's one walk. -/
theorem walks_walk {t : State} {r : Nat} (idle : (t.dieAt (t.cur / 64)).walks = []) :
    ∃ due, ((t.walk r).dieAt (t.cur / 64)).walks = [(t.cur, r, due)] ∧ t.clock < due := by
  unfold State.walk State.walkFor
  dsimp only
  rw [if_pos (by rw [dieOf, idle]; exact ⟨by decide, rfl⟩)]
  refine ⟨t.clock + 1 + (t.draw 4095).1, ?_, by omega⟩
  have drawn : ((t.draw 4095).2.dieAt (t.cur / 64)).walks = [] := idle
  rw [dieOf, dieAt_modDieAt_self, drawn]
  rfl

/-- A word that waits keeps its registers and its bundle. -/
theorem waitAtIssue_keeps (t : State) : t.waitAtIssue.cl.since ≠ none ∧ t.waitAtIssue.cl.g = t.cl.g ∧ t.waitAtIssue.cl.pc = t.cl.pc := by
  obtain ⟨-, -, -, -, own⟩ := waitAtIssue_frame t
  rw [own]
  exact ⟨Option.some_ne_none _, rfl, rfl⟩

theorem room_true {q : QueueId} (free : (s.core.queue q).length < queueDepth q) : s.room q = true := decide_eq_true free

theorem room_false {q : QueueId} (full : queueDepth q ≤ (s.core.queue q).length) : s.room q = false := decide_eq_false (by omega)

end

/-- Settles O16: the access by its four checks in their order, `ld` and `st` by what the access says. -/
theorem accessChecksInOrder : Obligations.AccessChecksInOrder := by
  refine ⟨fun h n al write s _ => ⟨access_misaligned, fun aligned mapped => ⟨access_walks aligned mapped, fun hit =>
    ⟨access_out_of_range aligned mapped hit, fun r k place => ?_⟩⟩⟩, fun sy d a z i s hr => ?_⟩
  · rw [access_located aligned mapped hit place]
    refine ⟨?_, ?_, ?_, ?_, ?_, ?_⟩
    · rintro rfl ro
      rw [if_pos (mayUse_of_readOnly ro)]
    · rintro rfl ro
      rw [mayUse_of_not_head (write := true) (mayWrite_of_readOnly ro), if_neg Bool.false_ne_true]
    · rintro rfl - one shared
      rw [if_pos (mayUse_of_one (write := false) one (mayRead_of_shared shared))]
    · rintro rfl other
      rw [mayUse_of_not_head (write := true) (mayWrite_of_not_exclusive other), if_neg Bool.false_ne_true]
    · intro rw_ unshared unheld
      rw [mayUse_of_stranger rw_ unshared unheld, if_neg Bool.false_ne_true]
    · intro rw_ one silent held excl
      rw [if_pos (mayUse_of_exclusive rw_ one silent held excl)]
  · have hl : s.regsReady [gR a] [gR d] = true := regsReady_mono hr (by simp)
    have hs : s.regsReady [gR a, gR d] [] = true := regsReady_mono hr (by simp)
    rw [exec_ld_of_ready hl, exec_st_of_ready hs]
    obtain ⟨pod, -, core, -, -⟩ := waitAtIssue_frame s
    have held := waitAtIssue_keeps s
    have load (free : s.core.lq.length < 32) : s.room .load = true := room_true free
    have store (free : s.core.sq.length < 32) : s.room .store = true := room_true free
    refine ⟨?_, ?_, ?_, ?_, ?_, ?_, ?_⟩
    · intro code addr room trap
      rw [if_neg (by rw [load room]; decide), trap]
    · intro p line room pass bad
      rw [if_neg (by rw [load room]; decide), pass]
      simp only [bad]
      rfl
    · intro code addr room trap
      rw [if_neg (by rw [store room]; decide), trap]
    · intro full
      rw [if_pos (room_false (q := .load) full)]
      exact ⟨_, rfl, core, pod, held⟩
    · intro full
      rw [if_pos (room_false (q := .store) full)]
      exact ⟨_, rfl, core, pod, held⟩
    · intro r room walk
      rw [if_neg (by rw [load room]; decide), walk]
      obtain ⟨since, regs, -⟩ := waitAtIssue_keeps (walkAsked s r)
      obtain ⟨-, -, queues, -, -⟩ := waitAtIssue_frame (walkAsked s r)
      exact ⟨_, rfl, rfl, (congrArg Core.lq queues :), since, regs⟩
    · intro r room walk
      rw [if_neg (by rw [store room]; decide), walk]
      obtain ⟨since, regs, -⟩ := waitAtIssue_keeps (walkAsked s r)
      obtain ⟨-, -, queues, -, -⟩ := waitAtIssue_frame (walkAsked s r)
      exact ⟨_, rfl, rfl, (congrArg Core.sq queues :), since, regs, walks_walk (t := s.takeDeps 0)⟩

end Sys2Proof.Proofs
end

section
/-! # Bytes of an L1 line (R328) -/

namespace Sys2Proof.Proofs

open Sys2Proof.Machine Sys2Proof.Laws

/-! ## A line read from memory -/

theorem bytes_add (s : State) (key a b : Nat) : s.bytes key (a + b) = s.bytes key a ++ s.bytes (key + a) b := by
  induction a generalizing key with
  | zero => simp [State.bytes]
  | succ a ih =>
    rw [Nat.succ_add, State.bytes, State.bytes, ih, List.cons_append, Nat.add_right_comm, Nat.add_assoc]

theorem length_bytes (s : State) (key n : Nat) : (s.bytes key n).length = n := by
  induction n generalizing key with
  | zero => rfl
  | succ n ih => rw [State.bytes, List.length_cons, ih]

theorem leNat_bytes_one (s : State) (key : Nat) : leNat (s.bytes key 1) = (s.byte key).toNat := by
  simp [State.bytes, leNat]

/-- `n` bytes from place `o` on of the number of `w` bytes. -/
theorem leNat_bytes_slice (s : State) {key o n w : Nat} (inside : o + n ≤ w) :
    leNat (s.bytes key w) / 2 ^ (8 * o) % 2 ^ (8 * n) = leNat (s.bytes (key + o) n) := by
  obtain ⟨r, rfl⟩ := Nat.exists_eq_add_of_le inside
  have h := field_append (s.bytes key o) (s.bytes (key + o) n) (s.bytes (key + (o + n)) r)
  rw [entryField, length_bytes, length_bytes, ← bytes_add, ← bytes_add] at h
  rw [pow_mul, pow_mul]
  exact h

section
variable (t : State) (a used : Nat)

theorem freshLine_toNat : (freshLine t a used).data.toNat = leNat (t.bytes (a * 64) 64) := by
  have below := leNat_lt (t.bytes (a * 64) 64)
  rw [length_bytes, show (256 : Nat) = 2 ^ 8 from rfl, ← pow_mul, show 8 * 64 = 512 from rfl] at below
  rw [freshLine, BitVec.toNat_ofNat]
  exact Nat.mod_eq_of_lt below

/-- What an access within the line reads from it. -/
theorem freshLine_reads {key n : Nat} (line : key / 64 = a) (inside : key % 64 + n ≤ 64) :
    (freshLine t a used).data.toNat / 2 ^ (8 * (key % 64)) % 2 ^ (8 * n) = leNat (t.bytes key n) := by
  rw [freshLine_toNat, leNat_bytes_slice t inside, show a * 64 + key % 64 = key by omega]

theorem freshLine_byte {i : Nat} (hi : i < 64) : (freshLine t a used).data.extractLsb' (8 * i) 8 = t.byte (64 * a + i) := by
  refine BitVec.eq_of_toNat_eq ?_
  rw [BitVec.extractLsb'_toNat, Nat.shiftRight_eq_div_pow, freshLine_toNat]
  have slice := leNat_bytes_slice t (key := a * 64) (o := i) (n := 1) (w := 64) (by omega)
  rw [leNat_bytes_one, Nat.mul_comm a 64] at slice
  rwa [Nat.mul_comm a 64]

end

/-! ## A line stored to -/

theorem sub_and_eq_and_not {w : Nat} (x m : BitVec w) : x - (x &&& m) = x &&& ~~~m := by
  have split : (x &&& m) + (x &&& ~~~m) = x := by
    rw [BitVec.add_eq_or_of_and_eq_zero]
    · ext i
      simp only [BitVec.getElem_or, BitVec.getElem_and, BitVec.getElem_not]
      cases x[i] <;> cases m[i] <;> rfl
    · ext i
      simp only [BitVec.getElem_and, BitVec.getElem_not, BitVec.getElem_zero]
      cases x[i] <;> cases m[i] <;> rfl
  nth_rewrite 1 [← split]
  rw [BitVec.add_comm, BitVec.add_sub_cancel]

theorem getLsbD_ones_shifted {w : Nat} (k o i : Nat) (hi : i < w) :
    (BitVec.ofNat w ((2 ^ k - 1) * 2 ^ o)).getLsbD i = decide (o ≤ i ∧ i < o + k) := by
  rw [BitVec.getLsbD_ofNat, Nat.testBit_mul_two_pow, Nat.testBit_two_pow_sub_one, decide_eq_true hi, Bool.true_and, Bool.decide_and]
  by_cases h : o ≤ i
  · simp only [h, decide_true, Bool.true_and]
    exact decide_eq_decide.2 (by omega)
  · simp only [h, decide_false, Bool.false_and]

theorem getLsbD_value_shifted {w : Nat} (v k o i : Nat) (hi : i < w) :
    (BitVec.ofNat w (v % 2 ^ k * 2 ^ o)).getLsbD i = (decide (o ≤ i ∧ i < o + k) && v.testBit (i - o)) := by
  rw [BitVec.getLsbD_ofNat, Nat.testBit_mul_two_pow, Nat.testBit_mod_two_pow, decide_eq_true hi, Bool.true_and, Bool.decide_and]
  by_cases h : o ≤ i
  · simp only [h, decide_true, Bool.true_and]
    rw [decide_eq_decide.2 (show i - o < k ↔ i < o + k by omega)]
  · simp only [h, decide_false, Bool.false_and]

/-- The bytes stored replace those that stand there. -/
theorem store_data (l : Line) (o n v : Nat) : (l.store o n v).data =
    (l.data &&& ~~~BitVec.ofNat 512 ((2 ^ (8 * n) - 1) * 2 ^ (8 * o))) ||| BitVec.ofNat 512 (v % 2 ^ (8 * n) * 2 ^ (8 * o)) := by
  have masked (m : Nat) : BitVec.ofNat 512 (l.data.toNat &&& m) = l.data &&& BitVec.ofNat 512 m := by
    refine BitVec.eq_of_getLsbD_eq fun i hi => ?_
    rw [BitVec.getLsbD_and, BitVec.getLsbD_ofNat, BitVec.getLsbD_ofNat, Nat.testBit_and, BitVec.testBit_toNat, decide_eq_true hi,
      Bool.true_and, Bool.true_and]
  have cleared (m : Nat) : BitVec.ofNat 512 (l.data.toNat - (l.data.toNat &&& m)) = l.data &&& ~~~BitVec.ofNat 512 m := by
    rw [← BitVec.ofNat_sub_ofNat_of_le _ _ (lt_of_le_of_lt Nat.and_le_left l.data.isLt) Nat.and_le_left, masked, BitVec.ofNat_toNat,
      BitVec.setWidth_eq, sub_and_eq_and_not]
  rw [Line.store, BitVec.ofNat_add, cleared, BitVec.add_eq_or_of_and_eq_zero]
  ext i hi
  rw [← BitVec.getLsbD_eq_getElem, BitVec.getLsbD_and, BitVec.getLsbD_and, BitVec.getLsbD_not, getLsbD_ones_shifted _ _ _ hi,
    getLsbD_value_shifted _ _ _ _ hi, BitVec.getElem_zero]
  cases decide (8 * o ≤ i ∧ i < 8 * o + 8 * n) <;> simp

theorem store_bit (l : Line) {o n v j : Nat} (hj : j < 512) : (l.store o n v).data.getLsbD j =
    if 8 * o ≤ j ∧ j < 8 * o + 8 * n then v.testBit (j - 8 * o) else l.data.getLsbD j := by
  rw [store_data, BitVec.getLsbD_or, BitVec.getLsbD_and, BitVec.getLsbD_not, getLsbD_ones_shifted _ _ _ hj, getLsbD_value_shifted _ _ _ _ hj,
    decide_eq_true hj, Bool.true_and]
  split_ifs with h
  · rw [decide_eq_true h, Bool.not_true, Bool.and_false, Bool.false_or, Bool.true_and]
  · rw [decide_eq_false h, Bool.not_false, Bool.and_true, Bool.false_and, Bool.or_false]

theorem store_byte (l : Line) {o n i : Nat} (v : Word) (size : n ≤ 8) (hi : i < 64) :
    (l.store o n v.toNat).data.extractLsb' (8 * i) 8 =
      if o ≤ i ∧ i < o + n then v.extractLsb' (8 * (i - o)) 8 else l.data.extractLsb' (8 * i) 8 := by
  ext j hj
  rw [BitVec.getElem_extractLsb', store_bit l (show 8 * i + j < 512 by omega)]
  by_cases within : o ≤ i ∧ i < o + n
  · rw [if_pos (by omega), if_pos within, BitVec.getElem_extractLsb', BitVec.testBit_toNat]
    exact congrArg v.getLsbD (by omega)
  · rw [if_neg (by omega), if_neg within, BitVec.getElem_extractLsb']

theorem store_mask (l : Line) {o n v i : Nat} (hi : i < 64) :
    (l.store o n v).mask.getLsbD i = (decide (o ≤ i ∧ i < o + n) || l.mask.getLsbD i) := by
  rw [Line.store, BitVec.getLsbD_or, getLsbD_ones_shifted _ _ _ hi, Bool.or_comm]

end Sys2Proof.Proofs
end

section
/-! # O17: loads and stores performed (R137, R328) -/

namespace Sys2Proof.Proofs

open Sys2Proof.Machine Sys2Proof.Laws

/-! ## What an access meets in its line -/

section
variable {s : State} {key n : Nat}

/-- The number of the line of byte `key`, as its set tells it. -/
theorem keyPkg_line (key : Nat) : keyPkg (64 * (key / 64)) = keyPkg key := by unfold keyPkg; omega

theorem cached_eq_isSome (s : State) (a : Nat) : s.cached a = (s.core.l1d.find? fun y => decide (y.addr = a)).isSome := by
  unfold State.cached
  rw [Bool.eq_iff_iff, List.any_eq_true, List.find?_isSome]

theorem cached_of_hit {y : Line} (hit : (s.core.l1d.find? fun y => decide (y.addr = key / 64)) = some y) : s.cached (key / 64) = true := by
  rw [cached_eq_isSome, hit]
  rfl

theorem lineBad_of_badFill (good : s.badFill key n = none) (bytes : 0 < key % 64 + n) : s.lineBad (key / 64) = false := by
  have all := List.find?_eq_none.1 good (key / 64) (List.mem_map.2 ⟨0, List.mem_range.2 (by omega), rfl⟩)
  simpa using all

/-- A line that is not cached and not bad has a home. -/
theorem home_stands (good : s.lineBad (key / 64) = false) : ¬((!s.cached (key / 64)) = true ∧ (s.pkgAt (keyPkg key)).failed = true) := by
  rintro ⟨away, failed⟩
  have away : s.cached (key / 64) = false := by simpa using away
  unfold State.lineBad State.badAt at good
  rw [away, keyPkg_line, failed] at good
  exact absurd good (by simp)

theorem overFill_of_good (good : s.lineBad (key / 64) = false) (log : Bool) (go : State → State) : s.overFill (key / 64) log go = go s := by
  unfold State.overFill
  exact if_pos (.inr (by rw [good]; rfl))

end

/-! ## An entry leaves its queue -/

theorem core_retire_load (s : State) (n : Nat) : ∃ a b c w, (s.retire .load n).core =
    { s.core with lq := s.core.lq.filter fun y => !decide (y.seq = n), lqDone := a, sqDone := b, eqDone := c, lqWarm := w } := by
  unfold State.retire
  rw [core_modCore]
  exact ⟨_, _, _, _, rfl⟩

theorem core_retire_store (s : State) (n : Nat) : ∃ a b c w, (s.retire .store n).core =
    { s.core with sq := s.core.sq.filter fun y => !decide (y.seq = n), lqDone := a, sqDone := b, eqDone := c, sqWarm := w } := by
  unfold State.retire
  rw [core_modCore]
  exact ⟨_, _, _, _, rfl⟩

/-! ## Loads (R137, R78) -/

/-- The delay of a load's data beyond four warm cycles: none where line `a` is cached. -/
def readDelay (s t : State) (a : Nat) : Nat × State := if s.cached a then (0, t) else t.draw 4095

theorem readDelay_frame (s t : State) (a : Nat) : (readDelay s t a).2.cores = t.cores ∧ (readDelay s t a).2.mem = t.mem ∧
    (readDelay s t a).2.core = t.core := by
  unfold readDelay
  split_ifs <;> exact ⟨rfl, rfl, rfl⟩

/-- The data of load `e`, on its way. -/
def dataOf (s : State) (e : QEntry) (z : BitVec 3) (l : Lane) (d key : Nat) : Returning :=
  { lane := l, d := d, value := extend z (s.l1Read key (Machine.sizeOf z)).1,
    due := s.warm + 4 + (readDelay s (s.l1Read key (Machine.sizeOf z)).2 (key / 64)).1, word := e.word, level := e.level, seq := e.seq }

/-- The state once load `e` has been performed. -/
def loaded (s : State) (e : QEntry) (z : BitVec 3) (l : Lane) (d key : Nat) : State :=
  ((readDelay s (s.l1Read key (Machine.sizeOf z)).2 (key / 64)).2.retire .load e.seq).modCore fun c =>
    { c with back := c.back ++ [dataOf s e z l d key] }.retainValue .load e.seq (dataOf s e z l d key).value

section
variable {e : QEntry} {h : Word} {z : BitVec 3} {l : Lane} {d r key : Nat} {s : State}

theorem exec_loadPerform_of_home (ready : s.ready .load = some e) (op : e.op = .load h z l d) (alive : e.killed = false)
    (agrees : s.core.willMismatch = false) (fresh : s.core.replay = none)
    (place : s.placeQ h (Machine.sizeOf z) = some (.home r key)) (good : s.badFill key (Machine.sizeOf z) = none) :
    exec .loadPerform s = .next (loaded s e z l d key) := by
  have replays : s.core.replays .load e.seq = false := by
    unfold Core.replays
    rw [fresh]
  have good := lineBad_of_badFill good (by rw [sizeOf_eq]; split_ifs <;> omega)
  rw [exec_loadPerform, execLoadPerform, ready]
  simp only [op, agrees, Bool.false_eq_true, if_false, State.performLoad, alive, replays, place, if_neg (home_stands good),
    overFill_of_good good]
  rfl

theorem core_loaded : ∃ lines bad mirror a b c w win, (loaded s e z l d key).core =
    { s.core with l1d := lines, badL1 := bad, mirror := mirror, lq := s.core.lq.filter fun y => !decide (y.seq = e.seq), lqDone := a,
                  sqDone := b, eqDone := c, lqWarm := w, back := s.core.back ++ [dataOf s e z l d key], win := win } ∧
    lines = (s.l1Read key (Machine.sizeOf z)).2.core.l1d := by
  obtain ⟨lines, bad, mirror, read⟩ := (LinesMove.l1Read s key (Machine.sizeOf z)).core
  obtain ⟨-, -, drawn⟩ := readDelay_frame s (s.l1Read key (Machine.sizeOf z)).2 (key / 64)
  obtain ⟨a, b, c, w, retired⟩ := core_retire_load (readDelay s (s.l1Read key (Machine.sizeOf z)).2 (key / 64)).2 e.seq
  rw [drawn, read] at retired
  unfold loaded
  rw [core_modCore, retired, read]
  exact ⟨_, _, _, _, _, _, _, _, rfl, rfl⟩

theorem mem_loaded : (loaded s e z l d key).mem = (s.l1Read key (Machine.sizeOf z)).2.mem := (readDelay_frame ..).2.1

end

/-! ## The line read -/

section
variable {s : State} {key n : Nat}

theorem find_none_of_away (away : ∀ y ∈ s.core.l1d, y.addr ≠ key / 64) : (s.core.l1d.find? fun y => decide (y.addr = key / 64)) = none :=
  List.find?_eq_none.2 fun y hy => by simpa using away y hy

/-- A set with room evicts nothing. -/
theorem madeRoom_of_room (room : (setOf s key).length < 8) : madeRoom s key = s := if_pos room

/-- A line with a new time of use. -/
def usedAt (clock : Nat) (l : Line) : Line := { l with used := clock }

theorem mem_putLine {x : Line} (t : State) (l : Line) (hx : x ∈ t.core.l1d) (addr : x.addr = l.addr) :
    usedAt t.clock l ∈ (t.putLine l).core.l1d := by
  rw [State.putLine, core_modCore]
  exact List.mem_map.2 ⟨x, hx, if_pos addr⟩

theorem mem_putLine_other {y : Line} (t : State) (l : Line) (hy : y ∈ t.core.l1d) (addr : y.addr ≠ l.addr) : y ∈ (t.putLine l).core.l1d := by
  rw [State.putLine, core_modCore]
  exact List.mem_map.2 ⟨y, hy, if_neg addr⟩

theorem l1Read_of_hit {y : Line} (hit : (s.core.l1d.find? fun y => decide (y.addr = key / 64)) = some y) :
    s.l1Read key n = (y.data.toNat / 2 ^ (8 * (key % 64)) % 2 ^ (8 * n), s.putLine y) := by
  unfold State.l1Read
  rw [fillLine_of_hit hit]

theorem l1Read_of_room (away : ∀ y ∈ s.core.l1d, y.addr ≠ key / 64) (room : (setOf s key).length < 8) (inside : key % 64 + n ≤ 64) :
    s.l1Read key n = (leNat (s.bytes key n), (filled s (freshLine s (key / 64) s.clock)).putLine (freshLine s (key / 64) s.clock)) := by
  unfold State.l1Read
  rw [fillLine_of_miss (find_none_of_away away), madeRoom_of_room room]
  dsimp only
  rw [freshLine_reads s _ _ rfl inside]

theorem mem_filled (t : State) (l : Line) : l ∈ (filled t l).core.l1d := by
  rw [filled, core_modCore]
  exact List.mem_cons_self

theorem mem_filled_of_mem {y : Line} (t : State) (l : Line) (hy : y ∈ t.core.l1d) : y ∈ (filled t l).core.l1d := by
  rw [filled, core_modCore]
  exact List.mem_cons_of_mem _ hy

end

/-- A load performed, by what its line was. -/
theorem loadPerform_reads (e : QEntry) (h : Word) (z : BitVec 3) (l : Lane) (d r key : Nat) (s : State)
    (ready : s.ready .load = some e) (op : e.op = .load h z l d) (alive : e.killed = false)
    (agrees : s.core.willMismatch = false) (fresh : s.core.replay = none)
    (place : s.placeQ h (Machine.sizeOf z) = some (.home r key)) (inside : key % 64 + Machine.sizeOf z ≤ 64)
    (good : s.badFill key (Machine.sizeOf z) = none) :
    ∃ t x, exec .loadPerform s = .next t ∧ t.core.back = s.core.back ++ [x] ∧ x.lane = l ∧ x.d = d ∧
      s.warm + 4 ≤ x.due ∧ t.core.lq = s.core.lq.filter (fun y => !decide (y.seq = e.seq)) ∧ t.core.sq = s.core.sq ∧
      ((∀ y ∈ s.core.l1d, y.addr ≠ key / 64) → (s.core.l1d.filter fun y => decide (y.addr % 128 = key / 64 % 128)).length < 8 →
        x.value = extend z (leNat (s.bytes key (Machine.sizeOf z))) ∧ t.mem = s.mem ∧
        ∃ y ∈ t.core.l1d, y.addr = key / 64 ∧ y.mask = 0 ∧ ∀ i, i < 64 → y.data.extractLsb' (8 * i) 8 = s.byte (64 * (key / 64) + i)) ∧
      (∀ y, s.core.l1d.find? (fun y => decide (y.addr = key / 64)) = some y →
        x.value = extend z (y.data.toNat / 2 ^ (8 * (key % 64)) % 2 ^ (8 * Machine.sizeOf z)) ∧ t.mem = s.mem ∧ x.due = s.warm + 4) := by
  obtain ⟨lines, bad, mirror, a, b, c, w, win, core, read⟩ := core_loaded (s := s) (e := e) (z := z) (l := l) (d := d) (key := key)
  refine ⟨_, dataOf s e z l d key, exec_loadPerform_of_home ready op alive agrees fresh place good, by rw [core], rfl, rfl,
    Nat.le_add_right .., by rw [core], by rw [core], fun away room => ?_, fun y hit => ?_⟩
  · rw [mem_loaded, core, read, dataOf, l1Read_of_room away room inside]
    exact ⟨rfl, rfl, _, mem_putLine _ _ (mem_filled ..) rfl, rfl, rfl, fun i hi => freshLine_byte s _ _ hi⟩
  · rw [mem_loaded, dataOf, l1Read_of_hit hit]
    refine ⟨rfl, rfl, ?_⟩
    unfold readDelay
    rw [cached_of_hit hit]
    rfl

/-! ## Returned data (R114, R137) -/

/-- A write of the trap area changes the record slots and the contexts, and nothing else of the core. -/
theorem setArea_frame (c : Core) (off : Nat) (bs : List Byte) : ∃ recs s0 s1, c.setArea off bs = { c with recs := recs, slot0 := s0, slot1 := s1 } := by
  induction bs generalizing c off with
  | nil => exact ⟨c.recs, c.slot0, c.slot1, rfl⟩
  | cons b rest ih =>
    obtain ⟨recs, s0, s1, byte⟩ : ∃ recs s0 s1, c.setAreaByte off b = { c with recs := recs, slot0 := s0, slot1 := s1 } := by
      unfold Core.setAreaByte Core.modSlot
      split
      · exact ⟨_, _, _, rfl⟩
      · split <;> exact ⟨_, _, _, rfl⟩
    obtain ⟨recs', s0', s1', more⟩ := ih (c.setAreaByte off b) (off + 1)
    exact ⟨recs', s0', s1', by rw [Core.setArea, more, byte]⟩

theorem back_setArea (c : Core) (off : Nat) (bs : List Byte) : (c.setArea off bs).back = c.back := by
  obtain ⟨recs, s0, s1, frame⟩ := setArea_frame c off bs
  rw [frame]

theorem back_fillG (c : Core) (level : Nat) (l : Lane) (d : Nat) (v : Word) (ready : Nat) : (c.fillG level l d v ready).back = c.back := by
  unfold Core.fillG
  dsimp only
  split_ifs
  · cases l <;> rfl
  · rfl
  · exact back_setArea ..
  · exact back_setArea ..

/-- For the code that runs, data goes straight to its register. -/
theorem fillG_of_level (c : Core) (l : Lane) (d : Nat) (v : Word) (ready : Nat) :
    (c.fillG c.level l d v ready).cluster l = ((c.cluster l).wg d v).setBusy (.g d) (some ready) ∧
      ∀ j, j ≠ l → (c.fillG c.level l d v ready).cluster j = c.cluster j := by
  unfold Core.fillG
  rw [if_pos rfl]
  exact ⟨cluster_setCluster_self c l _, fun j hj => cluster_setCluster_other c _ hj⟩

theorem loadDataReturn_fills (x : Returning) (rest : List Returning) (s : State) (back : s.core.back = x :: rest) (due : x.due ≤ s.warm)
    (mine : x.level = s.core.level ∨ s.core.halting = true) :
    ∃ t, exec .loadDataReturn s = .next t ∧ t.core.back = rest ∧ t.mem = s.mem ∧ (x.level = s.core.level →
      (t.core.cluster x.lane).rg x.d = (if x.d = 0 then 0 else x.value) ∧
      (∀ n, n ≠ x.d → (t.core.cluster x.lane).rg n = (s.core.cluster x.lane).rg n) ∧
      ∀ l, l ≠ x.lane → t.core.cluster l = s.core.cluster l) := by
  have first : (s.core.back.find? fun r => decide (r.due ≤ s.warm) && (decide (r.level = s.core.level) || s.core.halting)) = some x := by
    rw [back, List.find?_cons_of_pos]
    rw [decide_eq_true due, Bool.true_and, Bool.or_eq_true, decide_eq_true_eq]
    exact mine
  rw [exec_loadDataReturn, execLoadDataReturn, first]
  refine ⟨_, rfl, ?_, rfl, fun level => ?_⟩
  · rw [core_modCore, back_fillG]
    dsimp only
    rw [back, List.erase_cons_head]
  · rw [core_modCore, level]
    have kept (l : Lane) : ({ s.core with back := s.core.back.erase x } : Core).cluster l = s.core.cluster l := by cases l <;> rfl
    obtain ⟨own, others⟩ := fillG_of_level { s.core with back := s.core.back.erase x } x.lane x.d x.value s.warm
    rw [kept] at own
    have filled : ({ s.core with back := s.core.back.erase x } : Core).level = s.core.level := rfl
    rw [filled] at own others
    refine ⟨?_, fun n hn => ?_, fun l hl => (others l hl).trans (kept l)⟩
    · rw [own, rg_setBusy, rg_wg_self]
    · rw [own, rg_setBusy, rg_wg, if_neg (by simp [hn])]

/-! ## The loaded value (R78) -/

theorem extend_byte {v : Nat} (hv : v < 2 ^ 8) : extend 0 v = (BitVec.ofNat 8 v).signExtend 64 ∧ extend 4 v = BitVec.ofNat 64 v :=
  ⟨rfl, congrArg (BitVec.ofNat 64) (Nat.mod_eq_of_lt hv)⟩

theorem extend_half {v : Nat} (hv : v < 2 ^ 16) : extend 1 v = (BitVec.ofNat 16 v).signExtend 64 ∧ extend 5 v = BitVec.ofNat 64 v :=
  ⟨rfl, congrArg (BitVec.ofNat 64) (Nat.mod_eq_of_lt hv)⟩

theorem extend_word {v : Nat} (hv : v < 2 ^ 32) : extend 2 v = (BitVec.ofNat 32 v).signExtend 64 ∧ extend 6 v = BitVec.ofNat 64 v :=
  ⟨rfl, congrArg (BitVec.ofNat 64) (Nat.mod_eq_of_lt hv)⟩

/-! ## Stores (R137, R328) -/

/-- The line a store finds: the cached one, or memory's. -/
def lineFor (s : State) (key : Nat) : Line :=
  match s.core.l1d.find? (fun y => decide (y.addr = key / 64)) with
  | some y => y
  | none => freshLine s (key / 64) s.clock

theorem lineFor_addr (s : State) (key : Nat) : (lineFor s key).addr = key / 64 := by
  unfold lineFor
  split
  · next y hit => simpa using List.find?_some hit
  · rfl

theorem lineFor_byte (s : State) (key : Nat) {i : Nat} (hi : i < 64) : (lineFor s key).data.extractLsb' (8 * i) 8 =
    match s.core.l1d.find? (fun y => decide (y.addr = key / 64)) with
    | some y => y.data.extractLsb' (8 * i) 8
    | none => s.byte (64 * (key / 64) + i) := by
  unfold lineFor
  split
  · rfl
  · exact freshLine_byte s _ _ hi

theorem lineFor_mask (s : State) (key i : Nat) : (lineFor s key).mask.getLsbD i =
    match s.core.l1d.find? (fun y => decide (y.addr = key / 64)) with
    | some y => y.mask.getLsbD i
    | none => false := by
  unfold lineFor
  split
  · rfl
  · exact BitVec.getLsbD_zero

/-- With the line cached, or room in its set, a store changes that line and no other, and nothing of memory. -/
theorem l1Write_stores {s : State} {key : Nat} (n v : Nat)
    (fits : s.core.l1d.find? (fun y => decide (y.addr = key / 64)) ≠ none ∨ (setOf s key).length < 8) :
    (s.l1Write key n v).mem = s.mem ∧ LinesMove s (s.l1Write key n v) ∧
      usedAt s.clock ((lineFor s key).store (key % 64) n v) ∈ (s.l1Write key n v).core.l1d ∧
      ∀ y ∈ s.core.l1d, y.addr ≠ key / 64 → y ∈ (s.l1Write key n v).core.l1d := by
  unfold State.l1Write lineFor
  cases hit : s.core.l1d.find? (fun y => decide (y.addr = key / 64)) with
  | some y =>
    have addr : y.addr = key / 64 := by simpa using List.find?_some hit
    rw [fillLine_of_hit hit]
    exact ⟨rfl, LinesMove.putLine .., mem_putLine s _ (List.mem_of_find?_eq_some hit) rfl,
      fun x hx away => mem_putLine_other s _ hx (by rw [Line.store, addr]; exact away)⟩
  | none =>
    rw [fillLine_of_miss hit, madeRoom_of_room (fits.resolve_left (by simp [hit]))]
    exact ⟨rfl, (LinesMove.filled ..).trans (LinesMove.putLine ..), mem_putLine _ _ (mem_filled ..) rfl,
      fun x hx away => mem_putLine_other _ _ (mem_filled_of_mem _ _ hx) away⟩

/-- A store performed. -/
theorem storePerform_writes (e : QEntry) (h v : Word) (n r key : Nat) (s : State)
    (ready : s.ready .store = some e) (op : e.op = .store h n v) (alive : e.killed = false) (agrees : s.core.willMismatch = false)
    (fresh : s.core.replay = none) (place : s.placeQ h n = some (.home r key)) (size : n ≤ 8) (good : s.lineBad (key / 64) = false)
    (fits : s.core.l1d.find? (fun y => decide (y.addr = key / 64)) ≠ none ∨ (setOf s key).length < 8) :
    ∃ t x, exec .storePerform s = .next t ∧ t.mem = s.mem ∧ t.core.sq = s.core.sq.filter (fun y => !decide (y.seq = e.seq)) ∧
      t.core.lq = s.core.lq ∧ x ∈ t.core.l1d ∧ x.addr = key / 64 ∧ (∀ y ∈ s.core.l1d, y.addr ≠ key / 64 → y ∈ t.core.l1d) ∧
      (∀ i, i < 64 → x.data.extractLsb' (8 * i) 8 =
        if key % 64 ≤ i ∧ i < key % 64 + n then v.extractLsb' (8 * (i - key % 64)) 8
        else (lineFor s key).data.extractLsb' (8 * i) 8) ∧
      ∀ i, i < 64 → x.mask.getLsbD i = (decide (key % 64 ≤ i ∧ i < key % 64 + n) || (lineFor s key).mask.getLsbD i) := by
  obtain ⟨a, b, c, w, retired⟩ := core_retire_store s e.seq
  have l1d : (s.retire .store e.seq).core.l1d = s.core.l1d := by rw [retired]
  have same : lineFor (s.retire .store e.seq) key = lineFor s key := by
    unfold lineFor
    rw [l1d]
    rfl
  have still : (s.retire .store e.seq).lineBad (key / 64) = false := by
    rw [← good]
    unfold State.lineBad State.cached
    rw [retired]
    rfl
  obtain ⟨mem, moved, line, others⟩ := l1Write_stores (s := s.retire .store e.seq) (key := key) n v.toNat
    (by rw [setOf, l1d]; exact fits)
  obtain ⟨lines, bad, mirror, core⟩ := moved.core
  rw [same] at line
  rw [l1d] at others
  rw [retired] at core
  refine ⟨(s.retire .store e.seq).l1Write key n v.toNat, _, ?_, mem, by rw [core], by rw [core], line, lineFor_addr s key, others, fun i hi => ?_,
    fun i hi => ?_⟩
  · have replays : s.core.replays .store e.seq = false := by
      unfold Core.replays
      rw [fresh]
    rw [exec_storePerform, execStorePerform, ready]
    simp only [op, agrees, Bool.false_eq_true, if_false, State.performStore, alive, replays, place, overFill_of_good still, or_self]
  · exact store_byte (lineFor s key) v size hi
  · exact store_mask (v := v.toNat) (lineFor s key) hi

/-! ## The least recently used line goes home (R328) -/

theorem oldest_spec (ls : List Line) : (ls ≠ [] → oldest ls ≠ none) ∧ ∀ m, oldest ls = some m → m ∈ ls ∧ ∀ y ∈ ls, m.used ≤ y.used := by
  induction ls with
  | nil => exact ⟨fun h => absurd rfl h, fun m h => by cases h⟩
  | cons l rest ih =>
    obtain ⟨some_, spec⟩ := ih
    unfold oldest
    cases hm : oldest rest with
    | none =>
      have empty : rest = [] := by
        by_contra h
        exact some_ h hm
      subst empty
      simp
    | some m =>
      obtain ⟨inside, below⟩ := spec m hm
      dsimp only
      split_ifs with le
      · refine ⟨fun _ => Option.some_ne_none _, ?_⟩
        rintro _ ⟨rfl⟩
        exact ⟨List.mem_cons_self, List.forall_mem_cons.2 ⟨le_refl _, fun y hy => le.trans (below y hy)⟩⟩
      · refine ⟨fun _ => Option.some_ne_none _, ?_⟩
        rintro _ ⟨rfl⟩
        exact ⟨List.mem_cons_of_mem _ inside, List.forall_mem_cons.2 ⟨by omega, below⟩⟩

theorem oldest_eq {ls : List Line} {v : Line} (mem : v ∈ ls) (least : ∀ y ∈ ls, y ≠ v → v.used < y.used) : oldest ls = some v := by
  obtain ⟨some_, spec⟩ := oldest_spec ls
  obtain ⟨m, hm⟩ := Option.ne_none_iff_exists'.1 (some_ (List.ne_nil_of_mem mem))
  obtain ⟨inside, below⟩ := spec m hm
  rw [hm]
  by_contra other
  have := least m inside fun h => other (by rw [h])
  exact absurd (below v mem) (by omega)

/-- The state once the dirty bytes of `l` below place `n` have gone home. -/
def homeBelow (s : State) (l : Line) (n : Nat) : State :=
  (List.range n).foldl (fun s i => if l.mask.getLsbD i then s.homeByte (l.addr * 64 + i) (byteOfLine l i) else s) s

theorem homeBelow_succ (s : State) (l : Line) (n : Nat) : homeBelow s l (n + 1) =
    if l.mask.getLsbD n then (homeBelow s l n).homeByte (l.addr * 64 + n) (byteOfLine l n) else homeBelow s l n := by
  unfold homeBelow
  rw [List.range_succ, List.foldl_append, List.foldl_cons, List.foldl_nil]

/-- Without a mirror and with a home that stands, a byte written home is that byte alone. -/
theorem homeByte_of_plain {t : State} {key : Nat} (home : (t.pkgAt (keyPkg key)).failed = false) (plain : mirrorIn key t.part.regions = none)
    (b : Byte) : t.homeByte key b = (t.setByte key b).ownLine key t.writer := by
  unfold State.part at plain
  unfold State.homeByte State.partByte
  rw [plain]
  exact if_neg (by rw [home]; decide)

section
variable {s : State} {l : Line} (home : (s.pkgAt (keyPkg (64 * l.addr))).failed = false) (plain : ∀ k, mirrorIn k s.part.regions = none)
include home plain

theorem homeBelow_writes {n : Nat} (hn : n ≤ 64) : ∃ m o, homeBelow s l n = { s with mem := m, owners := o } ∧
    ∀ j, (homeBelow s l n).byte j =
      if j / 64 = l.addr ∧ j % 64 < n ∧ l.mask.getLsbD (j % 64) = true then byteOfLine l (j % 64) else s.byte j := by
  induction n with
  | zero => exact ⟨s.mem, s.owners, rfl, fun j => by rw [if_neg (by omega)]; rfl⟩
  | succ n ih =>
    obtain ⟨m, o, frame, bytes⟩ := ih (by omega)
    have pkg : keyPkg (l.addr * 64 + n) = keyPkg (64 * l.addr) := by unfold keyPkg; omega
    have stands : ((homeBelow s l n).pkgAt (keyPkg (l.addr * 64 + n))).failed = false := by
      rw [frame, pkg]
      exact home
    have unmirrored : mirrorIn (l.addr * 64 + n) (homeBelow s l n).part.regions = none := by
      rw [frame]
      exact plain _
    rw [homeBelow_succ]
    split_ifs with dirty
    · rw [homeByte_of_plain stands unmirrored]
      refine ⟨_, _, by rw [frame]; rfl, fun j => ?_⟩
      refine (byte_setByte (homeBelow s l n) (l.addr * 64 + n) j _).trans ?_
      rw [bytes]
      by_cases here : j = l.addr * 64 + n
      · have place : j / 64 = l.addr ∧ j % 64 = n := by omega
        rw [if_pos here, place.2, if_pos ⟨place.1, by omega, dirty⟩]
      · rw [if_neg here]
        refine if_congr ?_ rfl rfl
        have : j / 64 = l.addr → j % 64 ≠ n := by omega
        constructor
        · rintro ⟨a, b, c⟩
          exact ⟨a, by omega, c⟩
        · rintro ⟨a, b, c⟩
          exact ⟨a, by have := this a; omega, c⟩
    · refine ⟨m, o, frame, fun j => ?_⟩
      rw [bytes]
      refine if_congr ?_ rfl rfl
      constructor
      · rintro ⟨a, b, c⟩
        exact ⟨a, by omega, c⟩
      · rintro ⟨a, b, c⟩
        refine ⟨a, ?_, c⟩
        rcases Nat.lt_succ_iff_lt_or_eq.1 b with lt | eq
        · exact lt
        · exact absurd (eq ▸ c) dirty

/-- A dirty line goes home byte by byte; a clean one is not written. -/
theorem writeBack_writes (issued : Nat) : ∃ m o, s.writeBack issued l = { s with mem := m, owners := o } ∧
    ∀ j, (s.writeBack issued l).byte j =
      if j / 64 = l.addr ∧ l.mask.getLsbD (j % 64) = true then l.data.extractLsb' (8 * (j % 64)) 8 else s.byte j := by
  unfold State.writeBack
  rw [Nat.mul_comm l.addr 64, home, if_neg Bool.false_ne_true]
  split_ifs with clean
  · refine ⟨s.mem, s.owners, rfl, fun j => ?_⟩
    rw [clean, if_neg (by simp)]
  · obtain ⟨m, o, frame, bytes⟩ := homeBelow_writes home plain (le_refl 64)
    have whole : s.lineHome l = homeBelow s l 64 := rfl
    have silent : (s.lineHome l).awaitMirror (64 * l.addr) issued = homeBelow s l 64 := by
      unfold State.awaitMirror
      have none : mirrorIn (64 * l.addr) (s.lineHome l).part.regions = none := by
        rw [whole, frame]
        exact plain _
      rw [none]
      rfl
    rw [silent]
    refine ⟨m, o, frame, fun j => (bytes j).trans (if_congr ?_ rfl rfl)⟩
    have : j % 64 < 64 := Nat.mod_lt _ (by decide)
    tauto

/-- A fill of a full set writes the least recently used line `l` home and drops it. -/
theorem fillLine_evicts {key : Nat} (away : ∀ y ∈ s.core.l1d, y.addr ≠ key / 64) (full : 8 ≤ (setOf s key).length)
    (oldest_ : oldest (setOf s key) = some l) :
    (∀ j, (s.fillLine key).2.byte j =
      if j / 64 = l.addr ∧ l.mask.getLsbD (j % 64) = true then l.data.extractLsb' (8 * (j % 64)) 8 else s.byte j) ∧
    ∃ y, (s.fillLine key).2.core.l1d = y :: s.core.l1d.filter (fun x => !decide (x.addr = l.addr)) ∧ y.addr = key / 64 ∧ y.mask = 0 := by
  obtain ⟨m, o, frame, bytes⟩ := writeBack_writes home plain s.warm
  have room : madeRoom s key = (s.writeBack s.warm l).modCore fun c => { c with l1d := c.l1d.filter fun x => !decide (x.addr = l.addr) } := by
    unfold madeRoom
    rw [if_neg (by omega), oldest_]
  rw [fillLine_of_miss (find_none_of_away away), room]
  generalize fresh : freshLine _ (key / 64) s.clock = y
  have made : y.addr = key / 64 ∧ y.mask = 0 := by
    rw [← fresh]
    exact ⟨rfl, rfl⟩
  refine ⟨bytes, y, ?_, made⟩
  have kept : (s.writeBack s.warm l).core = s.core := by
    rw [frame]
    rfl
  rw [filled, core_modCore, core_modCore, kept]

end

/-- Settles O17: loads by the line that is read, stores by the line that is filled and written, an eviction by what goes home. -/
theorem loadsReadAndStoresWriteTheirLine : Obligations.LoadsReadAndStoresWriteTheirLine := by
  refine ⟨⟨?_, ?_, fun v => extend_byte, fun v => extend_half, fun v => extend_word, fun v => rfl⟩, ?_, ?_⟩
  · exact loadPerform_reads
  · exact fun x rest s back due mine _ => loadDataReturn_fills x rest s back due mine
  · intro e h v n r key s ready op alive agrees fresh place inside size good old fits
    obtain ⟨t, x, run, mem, sq, lq, line, addr, others, bytes, mask⟩ :=
      storePerform_writes e h v n r key s ready op alive agrees fresh place size good fits
    refine ⟨t, x, run, mem, sq, lq, line, addr, others, fun i hi => ?_, fun i hi => ?_⟩
    · exact (bytes i hi).trans (if_congr Iff.rfl rfl (lineFor_byte s key hi))
    · exact (mask i hi).trans (congrArg _ (lineFor_mask s key i))
  · intro key v s away full inside set_ least unique home plain t
    obtain ⟨bytes, y, lines, addr, mask⟩ := fillLine_evicts home plain away full
      (oldest_eq (List.mem_filter.2 ⟨inside, decide_eq_true set_⟩) fun y hy other => by
        obtain ⟨hy, inSet⟩ := List.mem_filter.1 hy
        exact least y hy (of_decide_eq_true inSet) other)
    rw [show t.core.l1d = _ from lines]
    refine ⟨bytes, fun x hx other => ?_, ?_, y, List.mem_cons_self, addr, mask⟩
    · refine List.mem_cons_of_mem _ (List.mem_filter.2 ⟨hx, ?_⟩)
      simpa using unique x hx other
    · refine List.forall_mem_cons.2 ⟨by rw [addr]; exact (away v inside).symm, fun x hx => ?_⟩
      simpa using (List.mem_filter.1 hx).2

end Sys2Proof.Proofs
end

section
/-! # O44: what ends a wait (R87, R113, R132, R155, R332, R400, R417, R418) -/

namespace Sys2Proof.Proofs

open Sys2Proof.Machine Sys2Proof.Laws

theorem modCore_congr {s : State} {f g : Core → Core} (h : f s.core = g s.core) : s.modCore f = s.modCore g :=
  congrArg (fun c => { s with cores := Sp.put s.cores s.cur c }) h

/-! ## Mirror writes (R417, R418) -/

section
variable {s : State}

theorem exec_mirrorAck_of_head {m : MirrorWait} {rest : List MirrorWait} (head : s.core.mirror = m :: rest)
    (stands : (s.pkgAt m.pkg).failed = false) : exec .mirrorAck s = .next (s.modCore fun c => { c with mirror := rest }) := by
  have first : (s.core.mirror.find? fun m => !(s.pkgAt m.pkg).failed) = some m := by
    rw [head, List.find?_cons_of_pos]
    rw [stands]
    rfl
  rw [exec_mirrorAck, execMirrorAck, first]
  refine congrArg Host.Outcome.next (modCore_congr ?_)
  rw [head, List.erase_cons_head]

/-- The mirror writes awaited for 3,000 warm cycles. -/
def lateMirrors (s : State) : List MirrorWait := s.core.mirror.filter fun m => decide (m.warm + 3000 ≤ s.warm)

/-- A `mirwait` waits for one of these writes. -/
def mirwaitWaits (c : Core) (late : List MirrorWait) : Bool :=
  c.str.taken.any fun t => !t.done && (match entryOf t.cmd with
    | some (c, _) => decide (c = .mirwait) && late.any fun m => m.entry.any fun n => decide (n < t.no)
    | none => false)

/-- The core with ERR on path `p`, where `b` says so. -/
def withErrIf (b : Bool) (p : Nat) (c : Core) : Core := if b then c.notePath p fun x => { x with err := true } else c

theorem withErrIf_mirror (b : Bool) (p : Nat) (c : Core) : (withErrIf b p c).mirror = c.mirror := by
  unfold withErrIf
  split <;> rfl

theorem withErrIf_path (b : Bool) (p q : Nat) (c : Core) :
    (Sp.get {} (withErrIf b p c).paths q).err = ((b && decide (q = p)) || (Sp.get {} c.paths q).err) := by
  unfold withErrIf
  cases b with
  | false => rfl
  | true =>
    rw [if_pos rfl, Core.notePath, get_put]
    by_cases h : q = p
    · rw [if_pos h, h]
      simp
    · rw [if_neg h]
      simp [h]

theorem exec_mirrorTimeout_of_none (early : ∀ m ∈ s.core.mirror, m.warm + 3000 > s.warm) : exec .mirrorTimeout s = .next s := by
  have none : lateMirrors s = [] := List.filter_eq_nil_iff.2 fun m hm => by
    have := early m hm
    simp only [decide_eq_true_eq]
    omega
  rw [exec_mirrorTimeout, execMirrorTimeout]
  exact if_pos (List.isEmpty_iff.2 none)

theorem exec_mirrorTimeout_of_late (late : lateMirrors s ≠ []) : exec .mirrorTimeout s = .next ((s.modCore fun c =>
    withErrIf (mirwaitWaits s.core (lateMirrors s)) 4 (withErrIf ((lateMirrors s).any fun m => m.entry.isNone) 3
      { c with mirror := c.mirror.filter fun m => !decide (m.warm + 3000 ≤ s.warm) })).notify (s.cur / 256) (.mirror (BitVec.ofNat 8 s.cur))) := by
  rw [exec_mirrorTimeout, execMirrorTimeout]
  exact if_neg (by rw [List.isEmpty_iff]; exact late)

theorem core_notify (s : State) (p : Nat) (n : Notice) : (s.notify p n).core = s.core := rfl

/-- Every write awaited is late. -/
theorem mirrorTimeout_ends (some_ : s.core.mirror ≠ []) (late : ∀ m ∈ s.core.mirror, m.warm + 3000 ≤ s.warm) :
    ∃ t, exec .mirrorTimeout s = .next t ∧ t.core.mirror = [] ∧ t.mem = s.mem ∧
      ((∃ m ∈ s.core.mirror, m.entry = none) → (Sp.get {} t.core.paths 3).err = true) ∧
      ((∃ x ∈ s.core.str.taken, x.done = false ∧ (∃ e, x.cmd = .mirwait e) ∧ ∃ m ∈ s.core.mirror, ∃ n, m.entry = some n ∧ n < x.no) →
        (Sp.get {} t.core.paths 4).err = true) ∧
      (t.pkgAt (s.cur / 256)).notices = (s.pkgAt (s.cur / 256)).notices ++ [.mirror (BitVec.ofNat 8 s.cur)] := by
  have all : lateMirrors s = s.core.mirror := List.filter_eq_self.2 fun m hm => decide_eq_true (late m hm)
  have none : (s.core.mirror.filter fun m => !decide (m.warm + 3000 ≤ s.warm)) = [] := List.filter_eq_nil_iff.2 fun m hm => by
    simpa using late m hm
  refine ⟨_, exec_mirrorTimeout_of_late (by rw [all]; exact some_), ?_, rfl, ?_, ?_, ?_⟩
  · rw [core_notify, core_modCore, withErrIf_mirror, withErrIf_mirror]
    exact none
  · rintro ⟨m, hm, entry⟩
    rw [core_notify, core_modCore, withErrIf_path, withErrIf_path, all, List.any_eq_true.2 ⟨m, hm, by rw [entry]; rfl⟩]
    simp
  · rintro ⟨x, hx, undone, ⟨e, cmd⟩, m, hm, n, entry, before⟩
    have waits : mirwaitWaits s.core (lateMirrors s) = true := by
      refine List.any_eq_true.2 ⟨x, hx, ?_⟩
      rw [undone, cmd, all]
      have named : (s.core.mirror.any fun m => m.entry.any fun n => decide (n < x.no)) = true :=
        List.any_eq_true.2 ⟨m, hm, by rw [entry]; exact decide_eq_true before⟩
      exact named
    rw [core_notify, core_modCore, withErrIf_path, waits]
    rfl
  · rw [State.notify, pkgAt_modPkgAt_self]
    rfl

end

/-! ## Walks (R332) -/

section
variable {s : State}

/-- The die with walk `w` returned and off its list. -/
def withoutWalk (w : Nat × Nat × Nat) (x : Die) : Die := { x with walks := x.walks.erase w }

/-- What a walk leaves in the logs where the entry is bad. -/
def walkLogged (s t : State) (p i : Nat) : State :=
  if s.entryBad p i then t.logDie (dieOf s.cur)
    { source := 8, uncorrectable := true, addr := handleOf i 0, phys := BitVec.ofNat 8 s.cur, owner := 0,
      syndrome := word (bits (Sp.get 0 (s.partAt p).regions i) 480 32) } false
  else t

theorem dieAt_logDie (t : State) (d k : Nat) (e : MemError) (m : Bool) : ((t.logDie d e m).dieAt k).walks = (t.dieAt k).walks ∧
    ((t.logDie d e m).dieAt k).ctlb = (t.dieAt k).ctlb := by
  have dies : (t.logDie d e m).dieAt k = (t.modDieAt d fun x =>
      { x with bank := x.bank.log e m (BitVec.ofNat 32 ((t.clock - (t.dieAt d).base) / Config.coldPerWarm)),
               sram := if inSram e ∧ !e.uncorrectable then x.sram + 1 else x.sram }).dieAt k := by
    unfold State.logDie State.tell
    split <;> rfl
  rcases eq_or_ne k d with rfl | other
  · rw [dies, dieAt_modDieAt_self]
    exact ⟨rfl, rfl⟩
  · rw [dies, dieAt_modDieAt, if_neg other]
    exact ⟨rfl, rfl⟩

theorem walkLogged_frame (t : State) (p i : Nat) : (∀ k, (walkLogged s t p i).coreAt k = t.coreAt k) ∧ (walkLogged s t p i).mem = t.mem ∧
    (walkLogged s t p i).cur = t.cur ∧
    ∀ k, ((walkLogged s t p i).dieAt k).walks = (t.dieAt k).walks ∧ ((walkLogged s t p i).dieAt k).ctlb = (t.dieAt k).ctlb := by
  unfold walkLogged
  split_ifs
  · exact ⟨fun k => congrArg (fun m => Sp.get (Core.atReset k) m k) (logDie_cores ..), logDie_mem .., logDie_cur .., fun k => dieAt_logDie ..⟩
  · exact ⟨fun _ => rfl, rfl, rfl, fun _ => ⟨rfl, rfl⟩⟩

/-- The one walk under way, which is due and meets no shootdown, returns. -/
theorem exec_tlbWalkReturn_of_one {w : Nat × Nat × Nat} (one : (s.dieAt (s.cur / 64)).walks = [w])
    (mine : w.1 = s.cur ∨ w.1 = engineKey s.cur) (due : w.2.2 ≤ s.clock) (calm : (s.partAt (s.walked w).1).shoots = []) :
    exec .tlbWalkReturn s = .next (walkLogged s (if w.1 = s.cur then
        (s.modDieAt (dieOf s.cur) (withoutWalk w)).modCore fun c => { c with tlb := cacheIn (s.walked w).2 c.tlb }
      else (s.modDieAt (dieOf s.cur) (withoutWalk w)).modDieAt (dieOf s.cur) fun x =>
        { x with ctlb := Sp.put x.ctlb (s.cur / 4) (cacheIn w.2.1 (Sp.get [] x.ctlb (s.cur / 4))) }) (s.walked w).1 (s.walked w).2) := by
  have first : ((s.dieAt (dieOf s.cur)).walks.find? fun w =>
      (decide (w.1 = s.cur) || decide (w.1 = engineKey s.cur)) && decide (w.2.2 ≤ s.clock) &&
        !(s.partAt (s.walked w).1).shoots.any fun x => decide (x.1 = (s.walked w).2)) = some w := by
    rw [dieOf, one, List.find?_cons_of_pos]
    rw [calm, decide_eq_true due, Bool.and_true, List.any_nil, Bool.not_false, Bool.and_true, Bool.or_eq_true, decide_eq_true_eq,
      decide_eq_true_eq]
    exact mine
  rw [exec_tlbWalkReturn, execTlbWalkReturn]
  dsimp only
  rw [first]
  unfold walkLogged
  dsimp only
  split_ifs <;> rfl

theorem tlbWalkReturn_core (n t : Nat) (one : (s.dieAt (s.cur / 64)).walks = [(s.cur, n, t)]) (due : t ≤ s.clock) (calm : s.part.shoots = []) :
    ∃ u, exec .tlbWalkReturn s = .next u ∧ (u.dieAt (s.cur / 64)).walks = [] ∧
      u.core.tlb = (n :: s.core.tlb.filter fun i => !decide (i = n)).take 32 ∧ u.mem = s.mem ∧ ∀ k, k ≠ s.cur → u.coreAt k = s.coreAt k := by
  have walked : s.walked (s.cur, n, t) = (s.partNo, n) := if_pos rfl
  refine ⟨_, exec_tlbWalkReturn_of_one one (.inl rfl) due (by rw [walked]; exact calm), ?_⟩
  rw [walked, if_pos rfl]
  obtain ⟨cores, mem, cur, dies⟩ := walkLogged_frame (s := s)
    ((s.modDieAt (dieOf s.cur) (withoutWalk (s.cur, n, t))).modCore fun c => { c with tlb := cacheIn n c.tlb }) s.partNo n
  refine ⟨?_, ?_, mem, fun k hk => ?_⟩
  · rw [(dies _).1, dieAt_modCore, dieOf, dieAt_modDieAt_self, withoutWalk, one]
    exact List.erase_cons_head ..
  · rw [State.core, cur, cores]
    exact congrArg Core.tlb (core_modCore ..)
  · rw [cores]
    exact coreAt_modCore_of_ne _ _ hk

theorem tlbWalkReturn_engine {p i t : Nat} (hi : i < 4096) (other : engineKey s.cur ≠ s.cur)
    (one : (s.dieAt (s.cur / 64)).walks = [(engineKey s.cur, 4096 * p + i, t)]) (due : t ≤ s.clock) (calm : (s.partAt p).shoots = []) :
    ∃ u, exec .tlbWalkReturn s = .next u ∧ (u.dieAt (s.cur / 64)).walks = [] ∧
      (4096 * p + i) ∈ Sp.get [] (u.dieAt (s.cur / 64)).ctlb (s.cur / 4) ∧ u.mem = s.mem ∧ ∀ k, u.coreAt k = s.coreAt k := by
  have walked : s.walked (engineKey s.cur, 4096 * p + i, t) = (p, i) := by
    refine (if_neg other).trans (Prod.ext ?_ ?_)
    · exact (by omega : (4096 * p + i) / 4096 = p)
    · exact (by omega : (4096 * p + i) % 4096 = i)
  refine ⟨_, exec_tlbWalkReturn_of_one one (.inr rfl) due (by rw [walked]; exact calm), ?_⟩
  rw [walked, if_neg other]
  obtain ⟨cores, mem, cur, dies⟩ := walkLogged_frame (s := s)
    ((s.modDieAt (dieOf s.cur) (withoutWalk (engineKey s.cur, 4096 * p + i, t))).modDieAt (dieOf s.cur) fun x =>
      { x with ctlb := Sp.put x.ctlb (s.cur / 4) (cacheIn (4096 * p + i) (Sp.get [] x.ctlb (s.cur / 4))) }) p i
  refine ⟨?_, ?_, mem, cores⟩
  · rw [(dies _).1, dieOf, dieAt_modDieAt_self, dieAt_modDieAt_self, withoutWalk, one]
    exact List.erase_cons_head ..
  · rw [(dies _).2, dieOf, dieAt_modDieAt_self, dieAt_modDieAt_self, get_put_self]
    exact List.mem_cons_self

end

/-! ## DEPTO and PLEN (R87, R113, R132, R400) -/

section
variable {s : State} {l : Lane}

theorem exec_depto_of_halting (halting : s.core.halting = true) : exec (.depto l) s = .next s := by
  rw [exec_depto, execDepto]
  split
  · rfl
  · rw [halting]
    rfl

theorem exec_depto_of_waiting {t : Nat} (running : s.core.halting = false) (since : (s.core.cluster l).since = some t)
    (awake : (s.core.cluster l).wait.sleeps = false) (going : (s.core.cluster l).stopped = false) :
    exec (.depto l) s = if t + s.core.stallim.toNat ≤ s.warm then
      .next (({ s with lane := l }.modCore fun c => c.dropWaited (s.core.cluster l).wait l).wordTrap 0x14
        ((s.core.cluster l).pc + BitVec.ofNat 64 (4 * laneIdx l)))
      else .next s := by
  rw [exec_depto, execDepto]
  rw [since]
  simp only [running, awake, going, Bool.not_false, true_and]
  rfl

theorem exec_plen_of_halting (halting : s.core.halting = true) : exec (.plen l) s = .next s := by
  rw [exec_plen, execPlen]
  exact if_pos halting

theorem exec_plen_overdue (running : s.core.halting = false)
    (late : s.overlong l = true ∨ s.core.drainOver s.warm = true ∧ (s.core.cluster l).stopped = false) :
    exec (.plen l) s = .next ({ s.modCore (fun c => { c with preempt := c.preempt.map fun _ => s.warm }) with lane := l }.wordTrap 0x12
      ((s.core.cluster l).pc + BitVec.ofNat 64 (4 * laneIdx l))) := by
  have overdue : s.overlong l = true ∨ s.core.drainOver s.warm = true ∧ (!(s.core.cluster l).stopped) = true := by
    simpa only [Bool.not_eq_true'] using late
  rw [exec_plen, execPlen, running, if_neg Bool.false_ne_true, if_pos overdue]
  rfl

theorem overlong_of_one {e : LoopEntry} {k : KernelImage} {n : Nat} (one : (s.core.cluster l).loops = [e]) (pre : e.pre = true)
    (kernel : s.part.kernelOf s.core.slot.code = some k)
    (limit : (k.preempt.find? fun y => decide (y.1 = e.id + BitVec.ofNat 64 (4 * laneIdx l))) = some (e.id + BitVec.ofNat 64 (4 * laneIdx l), n))
    (late : e.began + n < s.warm) : s.overlong l = true := by
  have declared : s.iterLimit l e.id = some n := by
    unfold State.iterLimit
    rw [kernel]
    exact congrArg (Option.map (·.2)) limit
  unfold State.overlong
  rw [one, List.any_cons, pre, declared]
  exact (congrArg (fun b => (true && b) || false) (decide_eq_true late)).trans rfl

theorem exec_plen_idle (free : (s.core.cluster l).loops = []) (calm : s.core.preempt = none) : exec (.plen l) s = .next s := by
  have short : s.overlong l = false := by
    unfold State.overlong
    rw [free]
    rfl
  have unasked : s.core.drainOver s.warm = false := by
    unfold Core.drainOver
    rw [calm]
  rw [exec_plen, execPlen]
  split_ifs with halting late
  · rfl
  · rw [short, unasked] at late
    simp at late
  · rfl

end

/-- Settles O44: mirror writes and walks by what is due, DEPTO and PLEN by how long the cluster waits. -/
theorem waitsEnd : Obligations.WaitsEnd := by
  intro s l
  refine ⟨fun m rest => exec_mirrorAck_of_head, exec_mirrorTimeout_of_none, mirrorTimeout_ends, tlbWalkReturn_core,
    fun p i t => tlbWalkReturn_engine, ⟨fun halting => ⟨exec_depto_of_halting halting, exec_plen_of_halting halting⟩, fun running =>
      ⟨fun t since awake going => ?_, fun e k n one pre kernel limit late => ?_, fun r asked stopping undrained away going due => ?_, ?_⟩⟩⟩
  · rw [exec_depto_of_waiting running since awake going]
    exact ⟨fun done => if_pos done, fun early => if_neg (by omega)⟩
  · exact exec_plen_overdue running (.inl (overlong_of_one one pre kernel limit late))
  · have asked_ : s.core.drainOver s.warm = true := by
      unfold Core.drainOver
      rw [asked]
      simp only [stopping, undrained, away, Bool.not_false, Bool.true_and, decide_eq_true_eq]
      exact due
    rw [exec_plen_overdue running (.inr ⟨asked_, going⟩)]
    have renewed : (s.modCore fun c => { c with preempt := c.preempt.map fun _ => s.warm }) =
        s.modCore fun c => { c with preempt := some s.warm } := modCore_congr (by rw [asked]; rfl)
    rw [renewed]
  · exact exec_plen_idle

end Sys2Proof.Proofs
end

section
/-! # The record of a trap that enters the handler (R385, R388 to R390) -/

namespace Sys2Proof.Proofs

open Sys2Proof.Machine Sys2Proof.Laws

/-! ## The record slots of the trap area -/

section
variable (c : Core)

theorem setArea_append (off : Nat) (a b : List Byte) : c.setArea off (a ++ b) = (c.setArea off a).setArea (off + a.length) b := by
  induction a generalizing c off with
  | nil => rfl
  | cons x rest ih =>
    rw [List.cons_append, Core.setArea, Core.setArea, ih, List.length_cons, Nat.add_right_comm, Nat.add_assoc]

theorem recs_setAreaByte (off : Nat) (b : Byte) {j : Nat} (hj : j < 0x200) :
    Sp.get 0 (c.setAreaByte off b).recs j = if j = off then b else Sp.get 0 c.recs j := by
  unfold Core.setAreaByte
  split_ifs with low here here
  · exact (get_set ..).trans (if_pos here)
  · exact (get_set ..).trans (if_neg here)
  · omega
  · unfold Core.modSlot
    split <;> rfl

/-- A write from `off` on leaves the record bytes below alone. -/
theorem recs_setArea_below {off : Nat} (bs : List Byte) {j : Nat} (hj : j < 0x200) (below : j < off) :
    Sp.get 0 (c.setArea off bs).recs j = Sp.get 0 c.recs j := by
  induction bs generalizing c off with
  | nil => rfl
  | cons b rest ih => rw [Core.setArea, ih _ (by omega), recs_setAreaByte _ _ _ hj, if_neg (by omega)]

theorem areaNat_succ (off n : Nat) : c.areaNat off (n + 1) = (c.areaByte off).toNat + 256 * c.areaNat (off + 1) n := by
  unfold Core.areaNat
  rw [List.range_succ_eq_map, List.map_cons, leNat, List.map_map]
  refine congrArg (fun l => _ + 256 * leNat l) (List.map_congr_left fun i _ => ?_)
  exact congrArg c.areaByte (by rw [Nat.add_right_comm, Nat.add_assoc])

/-- The record slots read back what was written. -/
theorem areaNat_setArea (off : Nat) (bs : List Byte) (low : off + bs.length ≤ 0x200) :
    (c.setArea off bs).areaNat off bs.length = leNat bs := by
  induction bs generalizing c off with
  | nil => rfl
  | cons b rest ih =>
    rw [List.length_cons] at low
    have first : (c.setArea off (b :: rest)).areaByte off = b := by
      rw [Core.areaByte, if_pos (by omega), Core.setArea, recs_setArea_below _ _ (by omega) (by omega), recs_setAreaByte _ _ _ (by omega),
        if_pos rfl]
    rw [List.length_cons, areaNat_succ, first, Core.setArea, ih _ _ (by omega), leNat]

end

/-- Cores with the same record bytes below `off + n` read the same there. -/
theorem areaNat_congr {c d : Core} {off n : Nat} (low : off + n ≤ 0x200) (same : ∀ j, off ≤ j → j < off + n → Sp.get 0 c.recs j = Sp.get 0 d.recs j) :
    c.areaNat off n = d.areaNat off n := by
  refine congrArg leNat (List.map_congr_left fun i hi => ?_)
  have := List.mem_range.1 hi
  rw [Core.areaByte, Core.areaByte, if_pos (by omega), if_pos (by omega)]
  exact same _ (by omega) (by omega)

theorem areaNat_of_recs {c d : Core} {off n : Nat} (low : off + n ≤ 0x200) (same : c.recs = d.recs) : c.areaNat off n = d.areaNat off n :=
  areaNat_congr low fun j _ _ => by rw [same]

/-- The save areas lie above the record slots. -/
theorem recs_saveClusters (c : Core) {base j : Nat} (hj : j < 0x200) (above : 0x200 ≤ base) :
    Sp.get 0 (c.saveClusters base).recs j = Sp.get 0 c.recs j := by
  have step (x : Core) (l : Lane) (bs : List Byte) : Sp.get 0 (x.setArea (base + 1024 * laneIdx l) bs).recs j = Sp.get 0 x.recs j :=
    recs_setArea_below x bs hj (by omega)
  unfold Core.saveClusters lanes
  rw [List.foldl_cons, List.foldl_cons, List.foldl_cons, List.foldl_cons, List.foldl_nil, step, step, step, step]

theorem cold_settleLoads (c : Core) (warm : Nat) : (c.settleLoads warm).cold = c.cold := by
  unfold Core.settleLoads
  have step (good : List Returning) (x : Core) : (good.foldl (fun x r => x.setCluster r.lane (((x.cluster r.lane).wg r.d r.value).setBusy
      (.g r.d) (some warm))) x).cold = x.cold := by
    induction good generalizing x with
    | nil => rfl
    | cons r rest ih => rw [List.foldl_cons, ih, setCluster_cold]
  exact step ..

/-- The first two fields of a record read back, whatever follows and whatever the save areas take. -/
theorem recordSlot_reads (c : Core) {a b : List Byte} (rest : List Byte) (ha : a.length = 8) (hb : b.length = 8) :
    ((c.setArea 0 (a ++ (b ++ rest))).saveClusters 0x400).areaNat 0 8 = leNat a ∧
      ((c.setArea 0 (a ++ (b ++ rest))).saveClusters 0x400).areaNat 8 8 = leNat b := by
  rw [setArea_append, setArea_append, ha, hb]
  constructor
  · have written := areaNat_setArea c 0 a (by omega)
    rw [ha] at written
    rw [← written]
    refine areaNat_congr (by decide) fun j _ hj => ?_
    rw [recs_saveClusters _ (by omega) (by decide), recs_setArea_below _ _ (by omega) (by omega), recs_setArea_below _ _ (by omega) (by omega)]
  · have written := areaNat_setArea (c.setArea 0 a) 8 b (by omega)
    rw [hb] at written
    rw [← written]
    refine areaNat_congr (by decide) fun j _ hj => ?_
    rw [recs_saveClusters _ (by omega) (by decide), recs_setArea_below _ _ (by omega) (by omega)]

theorem record_eq (s : State) (cause : Nat) (addr : Word) (fw : Nat) :
    ∃ rest, s.record cause addr fw = leBytes 8 cause ++ (leBytes 8 addr.toNat ++ rest) := by
  unfold State.record
  simp only [List.append_assoc]
  exact ⟨_, rfl⟩

/-! ## The handler is entered -/

/-- What is in the orders' stores, whatever the engines do. -/
structure SameOrders (m k : Cold) : Prop where
  omat : k.omat = m.omat
  ovec : k.ovec = m.ovec
  otmp : k.otmp = m.otmp

/-- Outside a handler a fault enters the handler with its cause and address in record slot 0; the orders stand. -/
theorem takeTrap_enters {s : State} {cause : Nat} (addr : Word) (fw : Nat) (outside : s.core.inHandler = false) (hc : cause < 2 ^ 64) :
    (s.takeTrap cause addr fw).core.inHandler = true ∧ (s.takeTrap cause addr fw).core.areaNat 0 8 = cause ∧
      (s.takeTrap cause addr fw).core.areaNat 8 8 = addr.toNat ∧ SameOrders s.core.cold (s.takeTrap cause addr fw).core.cold ∧
      (s.takeTrap cause addr fw).mem = s.mem := by
  have enters : s.takeTrap cause addr fw = s.enterHandler cause addr fw := by
    unfold State.takeTrap
    exact if_neg (by rw [outside]; simp)
  have settled : ((s.modCore fun c => c.settleLoads s.warm).draw 127).2.core = s.core.settleLoads s.warm :=
    core_modCore s fun c => c.settleLoads s.warm
  rw [enters]
  unfold State.enterHandler
  dsimp only
  obtain ⟨rest, record⟩ := record_eq ((s.modCore fun c => c.settleLoads s.warm).draw 127).2 cause addr fw
  rw [core_modCore, outside, record, settled, if_neg Bool.false_ne_true, if_neg Bool.false_ne_true]
  obtain ⟨first, second⟩ := recordSlot_reads (s.core.settleLoads s.warm) rest (leBytes_length 8 cause) (leBytes_length 8 addr.toNat)
  rw [leNat_leBytes, Nat.mod_eq_of_lt (lt_of_lt_of_eq hc (by norm_num))] at first
  rw [leNat_leBytes, Nat.mod_eq_of_lt (lt_of_lt_of_eq addr.isLt (by norm_num))] at second
  generalize (((s.core.settleLoads s.warm).setArea 0 (leBytes 8 cause ++ (leBytes 8 addr.toNat ++ rest))).saveClusters 0x400) = c2 at first second ⊢
  refine ⟨rfl, (areaNat_of_recs (by decide) ?_).trans first, (areaNat_of_recs (by decide) ?_).trans second, ?_, rfl⟩
  · rfl
  · rfl
  have cold := cold_settleLoads s.core s.warm
  rw [← cold]
  split_ifs <;> exact ⟨rfl, rfl, rfl⟩

end Sys2Proof.Proofs
end

section
/-! # O23: event counters, terms and table starts (R141 to R143, R148 to R150, R196, R219, R292, R386) -/

namespace Sys2Proof.Proofs

open Sys2Proof.Machine Sys2Proof.Laws

/-! ## Engines and counters of the cold state -/

theorem engine_modEngine (c : Core) (e k : EngineId) (f : Engine → Engine) :
    (c.modEngine e f).engine k = if k = e then f (c.engine e) else c.engine k := by
  cases e <;> cases k <;> rfl

theorem engine_modEngine_self (c : Core) (e : EngineId) (f : Engine → Engine) : (c.modEngine e f).engine e = f (c.engine e) :=
  (engine_modEngine ..).trans (if_pos rfl)

/-- An event counter one pulse later (R148). -/
def pulsed (v : BitVec 16) : BitVec 16 := if v = 0xFFFF then v else v + 1

theorem pulsed_toNat (v : BitVec 16) : (pulsed v).toNat = if v.toNat = 0xFFFF then 0xFFFF else v.toNat + 1 := by
  unfold pulsed
  by_cases full : v = 0xFFFF
  · subst full
    rfl
  · have below : v.toNat ≠ 0xFFFF := fun h => full (BitVec.eq_of_toNat_eq h)
    rw [if_neg full, if_neg below, BitVec.toNat_add]
    have := v.isLt
    exact Nat.mod_eq_of_lt (by change v.toNat + 1 < 65536; omega)

/-- The counters once `n` has been pulsed, and nothing else of the core but clusters that wake. -/
theorem core_pulse (s : State) (n : Nat) : ∃ ev, { (s.pulse s.cur n).core with l := s.core.l, e := s.core.e, s := s.core.s, k := s.core.k } =
      { s.core with cold := { s.core.cold with ev := ev } } ∧
    (∀ m, Sp.get 0 ev m = if m = n then pulsed (Sp.get 0 s.core.cold.ev n) else Sp.get 0 s.core.cold.ev m) ∧
    ∀ l, ((s.pulse s.cur n).core.cluster l).g = (s.core.cluster l).g := by
  have own : (s.pulse s.cur n).core = if Sp.get 0 s.core.cold.ev n = 0xFFFF then s.core
      else ({ s.core with cold := { s.core.cold with ev := Sp.set 0 s.core.cold.ev n (Sp.get 0 s.core.cold.ev n + 1) } } : Core).wake :=
    coreAt_modCoreAt_self ..
  by_cases full : Sp.get 0 s.core.cold.ev n = 0xFFFF
  · rw [own, if_pos full]
    refine ⟨s.core.cold.ev, rfl, fun m => ?_, fun l => rfl⟩
    split_ifs with here
    · rw [here, pulsed, if_pos full]
    · rfl
  · rw [own, if_neg full]
    refine ⟨_, rfl, fun m => ?_, fun l => ?_⟩
    · rw [get_set, pulsed, if_neg full]
    · have awake (x : Cluster) : x.wake.g = x.g := by
        unfold Cluster.wake
        split <;> rfl
      cases l <;> exact awake _

/-- A pulse of the core's own that no replay has given already. -/
theorem ownPulse_eq {s : State} (n : Nat) (owes : s.core.owes = {}) : s.ownPulse n =
    (s.modCore fun c => { c with win := c.win.map fun w => { w with pulses := w.pulses ++ [n] } }).pulse s.cur n := by
  unfold State.ownPulse
  rw [owes]
  rfl

theorem ownPulse_counts {s : State} (n : Nat) (owes : s.core.owes = {}) :
    (∀ m, Sp.get 0 (s.ownPulse n).core.cold.ev m = if m = n then pulsed (Sp.get 0 s.core.cold.ev n) else Sp.get 0 s.core.cold.ev m) ∧
      (∀ e, (s.ownPulse n).core.engine e = s.core.engine e) ∧ (∀ l, ((s.ownPulse n).core.cluster l).g = (s.core.cluster l).g) ∧
      (s.ownPulse n).mem = s.mem ∧ (s.ownPulse n).lane = s.lane := by
  rw [ownPulse_eq n owes]
  obtain ⟨ev, core, counts, regs⟩ := core_pulse (s.modCore fun c => { c with win := c.win.map fun w => { w with pulses := w.pulses ++ [n] } }) n
  rw [modCore_cur, core_modCore] at core
  rw [core_modCore] at counts
  simp only [core_modCore, modCore_cur] at regs
  have cold := (congrArg Core.cold core :)
  refine ⟨fun m => ?_, fun e => ?_, fun l => (regs l).trans (by cases l <;> rfl), rfl, rfl⟩
  · exact (congrArg (fun k : Cold => Sp.get 0 k.ev m) cold).trans (counts m)
  · refine (congrArg (fun k : Cold => k.engine e) cold).trans ?_
    cases e <;> rfl

theorem g_modCl (s : State) {f : Cluster → Cluster} (h : ∀ x, (f x).g = x.g) : ((s.modCl f).core.cluster s.lane).g = s.cl.g := by
  rw [State.modCl, core_modCore, cluster_setCluster_self, h]
  rfl

/-- The end of a word leaves every register of its cluster. -/
theorem g_finish (s : State) (sy : BitVec 1) (a : Option Word) : (s.finish sy a).cl.g = s.cl.g := by
  unfold State.finish
  split_ifs
  · unfold State.advance
    cases a with
    | some a => exact g_modCl s fun _ => rfl
    | none =>
      dsimp only
      rw [State.cl, core_modCore, modCore_lane, modCl_lane]
      split_ifs
      · exact g_modCl s fun _ => rfl
      · rw [Core.endIds, cluster_modClusters]
        exact g_modCl s fun _ => rfl
  · exact g_modCl s fun _ => rfl

theorem cluster_countedWord (i : Nat) (c : Core) (l : Lane) : (countedWord i c).cluster l = c.cluster l := by cases l <;> rfl

/-! ## `evcfg` and `evsig` (R149, R150) -/

section
variable {sy : BitVec 1} {dep n : BitVec 4} {a : BitVec 5} {s : State} (hi : s.Issues dep [gR a] [])
include hi

theorem exec_evcfg_sets (hc : s.Compared) (ok : termOk (s.g a) = true) : ∃ t, exec (.evcfg sy dep a n) s = .next t ∧
    Through ((s.takeDeps dep).modCore fun c => { c with cold := { c.cold with term := Sp.set 0 c.cold.term n.toNat (s.g a) } }).countWord t sy
      [] none := by
  rw [exec_evcfg, execEvcfg, compared_ready hc hi]
  simp only [g_takeDeps, ok, if_true]
  exact ⟨_, rfl, through_finish _ _ _⟩

theorem exec_evcfg_traps (hc : s.Compared) (bad : termOk (s.g a) = false) :
    exec (.evcfg sy dep a n) s = .next (s.wordTrap 0x17 s.wordHandle) := by
  rw [exec_evcfg, execEvcfg, compared_ready hc hi]
  simp only [g_takeDeps, bad, Bool.false_eq_true, if_false, wordHandle_takeDeps]

theorem exec_evsig_pulses (hc : s.Compared) (owes : s.core.owes = {}) : ∃ t, exec (.evsig sy dep n) s = .next t ∧
    (Sp.get 0 t.core.cold.ev n.toNat).toNat =
      (if (Sp.get 0 s.core.cold.ev n.toNat).toNat = 0xFFFF then 0xFFFF else (Sp.get 0 s.core.cold.ev n.toNat).toNat + 1) ∧
    (∀ m, m ≠ n.toNat → Sp.get 0 t.core.cold.ev m = Sp.get 0 s.core.cold.ev m) ∧ t.mem = s.mem ∧ t.cl.g = s.cl.g := by
  have ready : s.Issues dep [] [] := ⟨regsReady_mono hi.1 (by simp), hi.2⟩
  obtain ⟨owed, -⟩ := owes_oeq_view_takeDeps s dep
  obtain ⟨counts, -, regs, mem, lane⟩ := ownPulse_counts n.toNat (owed.trans owes)
  have through := through_finish ((s.takeDeps dep).ownPulse n.toNat).countWord sy none
  have cold : (((s.takeDeps dep).ownPulse n.toNat).countWord.finish sy none).core.cold = ((s.takeDeps dep).ownPulse n.toNat).core.cold := by
    refine (congrArg Core.cold through.core :).trans ?_
    rw [countWord_eq, core_modCore]
    rfl
  obtain ⟨tok, dropped⟩ := core_takeDeps s dep
  have before : (s.takeDeps dep).core.cold = s.core.cold := by rw [dropped]
  rw [exec_evsig, execEvsig, compared_ready hc ready]
  refine ⟨_, rfl, ?_, fun m hm => ?_, ?_, ?_⟩
  · rw [cold, counts, if_pos rfl, pulsed_toNat, before]
  · rw [cold, counts, if_neg hm, before]
  · exact (congrArg State.mem through.pod :).trans mem
  · have counted : ((s.takeDeps dep).ownPulse n.toNat).countWord.cl.g = ((s.takeDeps dep).ownPulse n.toNat).cl.g := by
      rw [State.cl, countWord_eq, core_modCore]
      exact congrArg Cluster.g (cluster_countedWord ..)
    rw [g_finish, counted, State.cl, lane, regs]
    exact congrArg Cluster.g (cl_takeDeps s dep)

end

/-! ## Armed terms (R143, R149) -/

/-- From `s` to `t` at most the cold state and what an open window has recorded differ. -/
structure ColdOnly (s t : State) : Prop where
  pod : t.apart = s.apart
  core : ∃ cold win, t.core = { s.core with cold := cold, win := win }

theorem ColdOnly.refl (s : State) : ColdOnly s s := ⟨rfl, _, _, rfl⟩

theorem ColdOnly.trans {s t u : State} (h : ColdOnly s t) (k : ColdOnly t u) : ColdOnly s u := by
  obtain ⟨cold, win, core⟩ := h.core
  obtain ⟨cold', win', core'⟩ := k.core
  exact ⟨k.pod.trans h.pod, cold', win', core'.trans (by rw [core])⟩

theorem ColdOnly.cl {s t : State} (h : ColdOnly s t) : t.cl = s.cl := by
  obtain ⟨cold, win, core⟩ := h.core
  rw [State.cl, core, lane_of_apart h.pod, State.cl]
  cases s.lane <;> rfl

theorem coldOnly_modCore (s : State) {f : Core → Core} (h : ∃ cold win, f s.core = { s.core with cold := cold, win := win }) :
    ColdOnly s (s.modCore f) := ⟨rfl, by rwa [core_modCore]⟩

/-- The core once term `d` of engine `e` has fired: the start at `t` that it leads to is recorded. -/
def fired (e : EngineId) (d w : Word) (t clock : Nat) (c : Core) : Core :=
  { c with cold := (c.cold.consume d).modEngine e fun x => { x with armed := none, start := x.start ++ [(t, clock, w)] },
           win := c.win.map fun y => { y with fires := y.fires ++ [(engineIdx e, t)] } }

/-- When the table starts that a term leads to. -/
def firedStart (s : State) : Nat :=
  (if s.core.held then (if s.core.accLost then s.core.cutNest else s.core.cutAt) else s.scnt) + 32

theorem fireTerm_of_unarmed {s : State} {n : Nat} (h : s.core.armedFor n = none) : s.fireTerm n = s := by
  unfold State.fireTerm
  simp only [h]

theorem fireTerm_of_armed {s : State} {n m : Nat} {e : EngineId} {d w : Word} (h : s.core.armedFor n = some e)
    (armed : (s.core.engine e).armed = some (m, d, w)) : s.fireTerm n =
      if (s.core.engine e).armAt < s.clock ∧ s.core.cold.termHolds d = true then s.modCore (fired e d w (firedStart s) s.clock) else s := by
  unfold State.fireTerm
  simp only [h, armed]
  refine if_congr Iff.rfl (modCore_congr ?_) rfl
  rw [Core.modEngine, Core.modCold, Core.modCold]
  rfl

theorem coldOnly_fireTerm (s : State) (n : Nat) : ColdOnly s (s.fireTerm n) := by
  cases h : s.core.armedFor n with
  | none => rw [fireTerm_of_unarmed h]; exact .refl s
  | some e =>
    cases armed : (s.core.engine e).armed with
    | none =>
      have : s.fireTerm n = s := by
        unfold State.fireTerm
        simp only [h, armed]
      rw [this]
      exact .refl s
    | some x =>
      obtain ⟨m, d, w⟩ := x
      rw [fireTerm_of_armed h armed]
      split_ifs
      · exact coldOnly_modCore s ⟨_, _, rfl⟩
      · exact .refl s

theorem coldOnly_fireTerms (l : List Nat) (s : State) : ColdOnly s (l.foldl State.fireTerm s) := by
  induction l generalizing s with
  | nil => exact .refl s
  | cons n rest ih => exact (coldOnly_fireTerm s n).trans (ih _)

theorem armedFor_of_unarmed {c : Core} (h : ∀ e, (c.engine e).armed = none) (n : Nat) : c.armedFor n = none :=
  List.find?_eq_none.2 fun e _ => by rw [h e]; exact Bool.false_ne_true

/-- The state once every term has been tested (R292). -/
def testedTerms (s : State) : State := (List.range 16).foldl State.fireTerm s

theorem coldOnly_testedTerms (s : State) : ColdOnly s (testedTerms s) := coldOnly_fireTerms ..

/-- No term is armed, so none fires. -/
theorem testedTerms_of_unarmed {s : State} (h : ∀ e, (s.core.engine e).armed = none) : testedTerms s = s := by
  unfold testedTerms
  induction List.range 16 with
  | nil => rfl
  | cons n rest ih => rw [List.foldl_cons, fireTerm_of_unarmed (armedFor_of_unarmed h n), ih]

/-! ## `evwait` (R150, R292) -/

theorem engine_takeDeps (s : State) (dep : BitVec 4) (e : EngineId) : (s.takeDeps dep).core.engine e = s.core.engine e := by
  obtain ⟨tok, dropped⟩ := core_takeDeps s dep
  rw [dropped]
  rfl

/-- Counter `n` set, as a word with the result 0 leaves it. -/
def counterSet (f : State) (n v : Nat) : State :=
  ((f.modCore fun c => { c with cold := c.cold.setCounter n v }).recordResult 0 (some 0)).writeG 0 0 1

theorem counterSet_frame (f : State) (n v : Nat) : (counterSet f n v).apart = f.apart ∧
    (counterSet f n v).core.cold = f.core.cold.setCounter n v ∧ (counterSet f n v).cl.g = f.cl.g := by
  refine ⟨rfl, ?_, ?_⟩
  · refine (congrArg Core.cold (writes_writeG _ 0 0 1).core :).trans ?_
    rw [State.recordResult, core_modCore, core_modCore]
    rfl
  · have only : ColdOnly f ((f.modCore fun c => { c with cold := c.cold.setCounter n v }).recordResult 0 (some 0)) :=
      (coldOnly_modCore f ⟨_, _, rfl⟩).trans (coldOnly_modCore _ ⟨_, _, rfl⟩)
    rw [counterSet, State.writeG, cl_modCl, ← only.cl]
    rfl

section
variable {sy : BitVec 1} {dep n : BitVec 4} {a : BitVec 5} {s : State} (hi : s.Issues dep [gR a] []) (owes : s.core.owes = {})
include hi owes

/-- Counter `n` is compared with gA[15:0] once the armed terms have been tested. -/
theorem exec_evwait_of_ready : exec (.evwait sy dep a n) s =
    if ((s.g a).extractLsb' 0 16).toNat ≤ (Sp.get 0 (testedTerms (s.takeDeps dep)).core.cold.ev n.toNat).toNat then
      .next ((counterSet (testedTerms (s.takeDeps dep)) n.toNat
        ((Sp.get 0 (testedTerms (s.takeDeps dep)).core.cold.ev n.toNat).toNat - ((s.g a).extractLsb' 0 16).toNat)).finish sy none)
    else .next { s with cores := s.cores, dies := (testedTerms (s.takeDeps dep)).dies, drawn := (testedTerms (s.takeDeps dep)).drawn }.waitAtIssue := by
  obtain ⟨owed, -⟩ := owes_oeq_view_takeDeps s dep
  have g : (testedTerms (s.takeDeps dep)).g a = s.g a := by
    rw [State.g, (coldOnly_testedTerms _).cl, cl_takeDeps]
    rfl
  rw [exec_evwait, execEvwait, control_ready hi.1 hi.2, recalled, recall_of_owes_nothing (owed.trans owes)]
  rw [testedTerms] at g ⊢
  generalize ((List.range 16).foldl State.fireTerm (s.takeDeps dep)) = f at g ⊢
  dsimp only
  rw [g, bits_eq_extractLsb', Cold.counter]
  split_ifs <;> rfl

theorem exec_evwait_subtracts
    (enough : ((s.g a).extractLsb' 0 16).toNat ≤ (Sp.get 0 (testedTerms (s.takeDeps dep)).core.cold.ev n.toNat).toNat) :
    ∃ t, exec (.evwait sy dep a n) s = .next t ∧ (Sp.get 0 t.core.cold.ev n.toNat).toNat =
        (Sp.get 0 (testedTerms (s.takeDeps dep)).core.cold.ev n.toNat).toNat - ((s.g a).extractLsb' 0 16).toNat ∧
      (∀ m, m ≠ n.toNat → Sp.get 0 t.core.cold.ev m = Sp.get 0 (testedTerms (s.takeDeps dep)).core.cold.ev m) ∧ t.mem = s.mem ∧
      ∀ m, t.cl.rg m = s.cl.rg m := by
  have only := coldOnly_testedTerms (s.takeDeps dep)
  rw [exec_evwait_of_ready hi owes, if_pos enough]
  generalize testedTerms (s.takeDeps dep) = f at only enough ⊢
  generalize hv : (Sp.get 0 f.core.cold.ev n.toNat).toNat - ((s.g a).extractLsb' 0 16).toNat = v
  have below : v < 2 ^ 16 := by
    have := (Sp.get 0 f.core.cold.ev n.toNat).isLt
    omega
  obtain ⟨pod, set, regs⟩ := counterSet_frame f n.toNat v
  have through := through_finish (counterSet f n.toNat v) sy none
  have cold : ((counterSet f n.toNat v).finish sy none).core.cold = f.core.cold.setCounter n.toNat v :=
    (congrArg Core.cold through.core :).trans set
  refine ⟨_, rfl, ?_, fun m hm => ?_, ?_, fun m => ?_⟩
  · rw [cold, Cold.setCounter, get_set, if_pos rfl, BitVec.toNat_ofNat, Nat.mod_eq_of_lt below]
  · rw [cold, Cold.setCounter, get_set, if_neg hm]
  · exact (congrArg State.mem (through.pod.trans (pod.trans only.pod)) :)
  · rw [rg_through through m]
    unfold Cluster.rg
    rw [regs, only.cl, cl_takeDeps]

theorem exec_evwait_waits
    (short : (Sp.get 0 (testedTerms (s.takeDeps dep)).core.cold.ev n.toNat).toNat < ((s.g a).extractLsb' 0 16).toNat) :
    ∃ t, exec (.evwait sy dep a n) s = .next t ∧ t.core.cold = s.core.cold ∧ t.core.tok = s.core.tok ∧ t.cl.since ≠ none ∧
      t.cl.g = s.cl.g := by
  rw [exec_evwait_of_ready hi owes, if_neg (Nat.not_le.2 short)]
  generalize testedTerms (s.takeDeps dep) = f
  obtain ⟨-, -, core, -⟩ := waitAtIssue_frame { s with cores := s.cores, dies := f.dies, drawn := f.drawn }
  obtain ⟨since, regs, -⟩ := waitAtIssue_keeps { s with cores := s.cores, dies := f.dies, drawn := f.drawn }
  exact ⟨_, rfl, (congrArg Core.cold core :), (congrArg Core.tok core :), since, regs⟩

end

/-! ## Terms that fire, engines that become idle (R143, R148, R149) -/

theorem ev_modEngine (m : Cold) (e : EngineId) (f : Engine → Engine) : (m.modEngine e f).ev = m.ev := by cases e <;> rfl

theorem engine_cold_modEngine (m : Cold) (e : EngineId) (f : Engine → Engine) : (m.modEngine e f).engine e = f (m.engine e) := by
  cases e <;> rfl

theorem consume_of_keeping {d : Word} (h : d.getLsbD 37 = false) (m : Cold) : m.consume d = m := by
  unfold Cold.consume
  rw [h]
  rfl

/-- CONS takes from the counters, and so from no engine. -/
theorem engine_consume (m : Cold) (d : Word) (e : EngineId) : (m.consume d).engine e = m.engine e := by
  unfold Cold.consume
  split_ifs
  · have step (l : List Nat) (x : Cold) : (l.foldl (fun x n =>
        if d.getLsbD n ∧ bits d 16 16 ≤ m.counter n then x.setCounter n (m.counter n - bits d 16 16) else x) x).engine e = x.engine e := by
      induction l generalizing x with
      | nil => rfl
      | cons n rest ih =>
        rw [List.foldl_cons, ih]
        split_ifs
        · cases e <;> rfl
        · rfl
    exact step ..
  · rfl

section
variable {s : State} {e : EngineId}

theorem exec_termFire_fires {n : BitVec 4} {d w : Word} (armedFor : s.core.armedFor n.toNat = some e)
    (armed : (s.core.engine e).armed = some (n.toNat, d, w)) (before : (s.core.engine e).armAt < s.clock)
    (outside : s.core.inHandler = false) (holds : s.core.cold.termHolds d = true) :
    ∃ t, exec (.termFire n) s = .next t ∧ (t.core.engine e).armed = none ∧
      (t.core.engine e).start = (s.core.engine e).start ++ [(s.scnt + 32, s.clock, w)] ∧ t.mem = s.mem ∧
      (d.getLsbD 37 = false → t.core.cold.ev = s.core.cold.ev) := by
  have running : s.core.held = false := by
    unfold Core.held
    rw [outside, Bool.false_and, Bool.false_and]
  have start : firedStart s = s.scnt + 32 := by
    unfold firedStart
    rw [running]
    rfl
  have fires := fireTerm_of_armed armedFor armed
  rw [if_pos ⟨before, holds⟩, start] at fires
  have cold : (s.modCore (fired e d w (s.scnt + 32) s.clock)).core.cold = (s.core.cold.consume d).modEngine e fun x =>
      { x with armed := none, start := x.start ++ [(s.scnt + 32, s.clock, w)] } := by
    rw [core_modCore]
    rfl
  rw [exec_termFire, execTermFire, fires]
  refine ⟨_, rfl, ?_, ?_, rfl, fun keeps => ?_⟩
  · rw [Core.engine, cold, engine_cold_modEngine]
  · rw [Core.engine, cold, engine_cold_modEngine, engine_consume]
    rfl
  · rw [cold, ev_modEngine, consume_of_keeping keeps]

theorem exec_termFire_stays {n : BitVec 4} {d w : Word} (armedFor : s.core.armedFor n.toNat = some e)
    (armed : (s.core.engine e).armed = some (n.toNat, d, w)) (fails : s.core.cold.termHolds d = false) : exec (.termFire n) s = .next s := by
  rw [exec_termFire, execTermFire, fireTerm_of_armed armedFor armed, if_neg (by rw [fails]; simp)]

theorem exec_engineIdle_pulses (pulse : (s.core.engine e).pulse = true) (stopped : (s.core.engine e).run = false)
    (done : s.core.busyEngine e = false) (owes : s.core.owes = {}) : ∃ t, exec (.engineIdle e) s = .next t ∧
    (t.core.engine e).pulse = false ∧ (Sp.get 0 t.core.cold.ev (engineIdx e)).toNat =
      if (Sp.get 0 s.core.cold.ev (engineIdx e)).toNat = 0xFFFF then 0xFFFF else (Sp.get 0 s.core.cold.ev (engineIdx e)).toNat + 1 := by
  have owed : (s.modCore fun c => c.modEngine e fun x => { x with pulse := false }).core.owes = {} := by
    rw [core_modCore]
    exact owes
  obtain ⟨counts, kept, -⟩ := ownPulse_counts (engineIdx e) owed
  rw [core_modCore] at counts kept
  rw [exec_engineIdle, execEngineIdle, if_pos ⟨pulse, by rw [stopped]; rfl, by rw [done]; rfl⟩]
  refine ⟨_, rfl, ?_, ?_⟩
  · rw [kept, engine_modEngine_self]
  · rw [counts, if_pos rfl, pulsed_toNat, Core.modEngine, Core.modCold, ev_modEngine]

end

/-! ## Tables that start (R141, R142, R196, R219, R386) -/

section
variable {s : State} {e : EngineId} {x : Nat × Nat × Word}

/-- The core with the start `x` of engine `e` off its list. -/
def startTaken (e : EngineId) (x : Nat × Nat × Word) (c : Core) : Core := c.modEngine e fun y => { y with start := y.start.erase x }

theorem exec_tableStart_of_none (none_ : s.dueStart e = none) : exec (.tableStart e) s = .next s := by
  rw [exec_tableStart, execTableStart]
  simp only [none_]

theorem exec_tableStart_of_busy (due : s.dueStart e = some x) (busy : s.core.busyEngine e = true) : exec (.tableStart e) s =
    if engines.any s.faultsNow then .next s
    else .next ((s.modCore (startTaken e x)).takeTrap (causeOf 1 2 0x15) x.2.2 (s.wordAt x.2.2).toNat) := by
  rw [exec_tableStart, execTableStart]
  simp only [due, busy, if_true]
  rfl

theorem exec_tableStart_yields (due : s.dueStart e = some x) (busy : s.core.busyEngine e = true) (faults : ∃ k, s.faultsNow k = true) :
    exec (.tableStart e) s = .next s := by
  obtain ⟨k, meets⟩ := faults
  have listed : k ∈ engines := by cases k <;> decide
  rw [exec_tableStart_of_busy due busy, if_pos (List.any_eq_true.2 ⟨k, listed, meets⟩)]

theorem exec_tableStart_traps (due : s.dueStart e = some x) (busy : s.core.busyEngine e = true) (calm : ∀ k, s.faultsNow k = false)
    (outside : s.core.inHandler = false) : ∃ t, exec (.tableStart e) s = .next t ∧ t.core.inHandler = true ∧
      t.core.areaNat 0 8 = 2 ^ 14 + 2 * 2 ^ 12 + 0x15 ∧ t.core.areaNat 8 8 = x.2.2.toNat := by
  have calmAll : engines.any s.faultsNow = false := List.any_eq_false.2 fun k _ => by rw [calm k]; exact Bool.false_ne_true
  have still : (s.modCore (startTaken e x)).core.inHandler = false := by
    rw [core_modCore]
    exact outside
  obtain ⟨entered, cause, addr, -⟩ := takeTrap_enters (s := s.modCore (startTaken e x)) (cause := causeOf 1 2 0x15) x.2.2
    (s.wordAt x.2.2).toNat still (by decide)
  rw [exec_tableStart_of_busy due busy, calmAll, if_neg Bool.false_ne_true]
  exact ⟨_, rfl, entered, cause, addr⟩

/-- The engine as its table begins at its base. -/
def began (e : EngineId) (s : State) (y : Engine) : Engine :=
  { y with run := true, first := (s.core.engine e).base, step := (s.core.engine e).base, loops := [],
           fill := s.core.cold.stallAt e (s.core.engine e).base, skip := 0,
           mark := if e = .matrix then some { step := (s.core.engine e).base, loops := [], msel := 0, scnt := s.scnt } else y.mark,
           opens := decide (e = .matrix) || s.core.idle .matrix, tables := y.tables + 1 }

/-- The core as the table of engine `e` begins. -/
def tableBegun (e : EngineId) (s : State) (c : Core) : Core :=
  (if e = .matrix then c.modCold fun k => { k with msel := 0 } else c).modEngine e (began e s)

theorem stallAt_startTaken (k : EngineId) (n : Nat) : (startTaken e x s.core).cold.stallAt k n = s.core.cold.stallAt k n := by
  cases k <;> cases e <;> rfl

theorem exec_tableStart_of_idle (due : s.dueStart e = some x) (free : s.core.busyEngine e = false) :
    exec (.tableStart e) s = .next ((s.modCore (startTaken e x)).modCore (tableBegun e s)) := by
  rw [exec_tableStart, execTableStart]
  simp only [due, free, Bool.false_eq_true, if_false, decide_eq_true_eq]
  refine congrArg Host.Outcome.next (modCore_congr ?_)
  have core : (s.modCore fun c => c.modEngine e fun y => { y with start := y.start.erase x }).core = startTaken e x s.core := core_modCore ..
  rw [core, stallAt_startTaken]
  rfl

theorem tableBegun_cold (c : Core) : (tableBegun e s c).cold =
    (if e = .matrix then { c.cold with msel := 0 } else c.cold).modEngine e (began e s) := by
  unfold tableBegun
  split_ifs <;> rfl

theorem exec_tableStart_begins (due : s.dueStart e = some x) (free : s.core.busyEngine e = false) :
    ∃ t, exec (.tableStart e) s = .next t ∧ t.mem = s.mem ∧ t.core.cold.acc = s.core.cold.acc ∧ t.core.cold.store = s.core.cold.store ∧
      (e = .matrix → t.core.cold.msel = 0) ∧ t.core.engine e = began e s { s.core.engine e with start := (s.core.engine e).start.erase x } := by
  have cold : ((s.modCore (startTaken e x)).modCore (tableBegun e s)).core.cold =
      (if e = .matrix then { (startTaken e x s.core).cold with msel := 0 } else (startTaken e x s.core).cold).modEngine e (began e s) := by
    rw [core_modCore, core_modCore, tableBegun_cold]
  rw [exec_tableStart_of_idle due free]
  refine ⟨_, rfl, rfl, ?_, ?_, ?_, ?_⟩
  · rw [cold]
    cases e <;> rfl
  · rw [cold]
    cases e <;> rfl
  · rintro rfl
    rw [cold]
    rfl
  · rw [Core.engine, cold, engine_cold_modEngine]
    cases e <;> rfl

end

/-- Settles O23: event words by their counter, a term by its descriptor, a table by whether its engine is idle. -/
theorem eventsAndTerms : Obligations.EventsAndTerms := by
  refine ⟨fun sy dep n a s hi owes => ⟨exec_evcfg_sets hi, exec_evcfg_traps hi, fun hc => exec_evsig_pulses hi hc owes,
      ?_⟩,
    fun n e d w s armedFor armed before outside => ⟨exec_termFire_fires armedFor armed before outside, exec_termFire_stays armedFor armed⟩,
    fun e s pulse stopped done owes => exec_engineIdle_pulses pulse stopped done owes,
    fun e x s => ⟨exec_tableStart_of_none, fun due free => ?_, exec_tableStart_yields,
      fun due busy calm outside _ => exec_tableStart_traps due busy calm outside⟩⟩
  · have still (unarmed : ∀ e, (s.core.engine e).armed = none) : testedTerms (s.takeDeps dep) = s.takeDeps dep :=
      testedTerms_of_unarmed fun e => by rw [engine_takeDeps, unarmed e]
    have subtracts := exec_evwait_subtracts (sy := sy) (n := n) hi owes
    have waits := exec_evwait_waits (sy := sy) (n := n) hi owes
    rw [testedTerms] at still subtracts waits
    exact ⟨still, subtracts, waits⟩
  · obtain ⟨t, next, mem, acc, store, msel, engine⟩ := exec_tableStart_begins due free
    refine ⟨t, next, mem, acc, store, msel, ?_⟩
    dsimp only
    rw [engine]
    exact ⟨rfl, rfl, rfl, rfl, rfl, rfl, rfl, rfl⟩

end Sys2Proof.Proofs
end

section
/-! # O22: engine words enter the engine command queue (R140 to R147, R394) -/

namespace Sys2Proof.Proofs

open Sys2Proof.Machine Sys2Proof.Laws

/-! ## The engine command queue takes an entry -/

/-- No handler runs, or the one that runs has already lost the accumulators (R394). -/
def accSettled (c : Core) : Prop := c.inHandler = true → (if c.nested then c.accHere else c.accLost) = true

theorem loseAcc_of_settled {c : Core} (h : accSettled c) : c.loseAcc = c := by
  unfold Core.loseAcc
  refine if_neg fun ⟨inside, unlost⟩ => ?_
  rw [h inside] at unlost
  exact Bool.false_ne_true unlost

theorem accSettled_takeDeps {s : State} (h : accSettled s.core) (dep : BitVec 4) : accSettled (s.takeDeps dep).core := by
  obtain ⟨tok, dropped⟩ := core_takeDeps s dep
  rw [dropped]
  exact h

theorem same_command {u : State} (h : accSettled u.core) (op : QOp) : Same (u.enqueue .engine op) (u.command op) := by
  have same : Same u (u.modCore Core.loseAcc) := ⟨rfl, fun k => by
    rw [coreAt_modCore, loseAcc_of_settled h]
    split_ifs with here
    · rw [here]; rfl
    · rfl⟩
  exact same.enqueue .engine op

theorem command_enters {u : State} (h : accSettled u.core) (op : QOp) : (u.command op).core.eq = u.core.eq ++ [entryFor u .engine op] ∧
    (u.command op).core.eqIssued = (entryFor u .engine op).seq ∧ (u.command op).cl = u.cl ∧ (u.command op).apart = u.apart := by
  have same := same_command h op
  obtain ⟨w, core⟩ := core_enqueue u .engine op
  obtain ⟨tail, issued⟩ := withEntryAt_tail u.core (q := .engine) (entryFor u .engine op) w (by decide)
  obtain ⟨clusters, -⟩ := withEntryAt_frame u.core (q := .engine) (entryFor u .engine op) w
  rw [← same.core] at core
  rw [← core] at tail issued clusters
  exact ⟨tail, issued, clusters _, rfl⟩

section
variable {sy : BitVec 1} {dep : BitVec 4} {rd wr : List RegRef} {s : State} {f : State → Perform}

theorem control_commands (hi : s.Issues dep rd wr) (settled : accSettled s.core) {op : QOp}
    (h : f (s.takeDeps dep) = .done ((s.takeDeps dep).command op)) :
    Passes ((s.takeDeps dep).enqueue .engine op) (Machine.control sy dep rd wr s f) sy none := by
  rw [control_ready hi.1 hi.2, h]
  exact passes_of (same_command (accSettled_takeDeps settled dep) op).writes

theorem control_traps (hi : s.Issues dep rd wr) {code : Nat} {addr : Word} (h : f (s.takeDeps dep) = .trap code addr) :
    Machine.control sy dep rd wr s f = .next (s.wordTrap code addr) := by
  rw [control_ready hi.1 hi.2, h]

theorem noRoom_false (free : s.core.eq.length < 128) (dep : BitVec 4) : ¬ (!(s.takeDeps dep).room .engine) = true := by
  rw [room_takeDeps, room_true (q := .engine) free]
  exact Bool.false_ne_true

end

/-! ## What the words read beside the tokens they take -/

theorem granted_takeDeps (s : State) (dep : BitVec 4) (e : EngineId) : (s.takeDeps dep).core.granted e = s.core.granted e := by
  obtain ⟨tok, dropped⟩ := core_takeDeps s dep
  rw [dropped]
  cases e <;> rfl

theorem tlb_takeDeps (s : State) (dep : BitVec 4) : (s.takeDeps dep).core.tlb = s.core.tlb := by
  obtain ⟨tok, dropped⟩ := core_takeDeps s dep
  rw [dropped]

theorem imageRegion_takeDeps (s : State) (dep : BitVec 4) (h : Word) : (s.takeDeps dep).imageRegion h = s.imageRegion h := by
  obtain ⟨tok, dropped⟩ := core_takeDeps s dep
  unfold State.imageRegion State.part
  rw [partNo_takeDeps, dropped]
  rfl

theorem locate_takeDeps (s : State) (dep : BitVec 4) (p : Nat) (h : Word) (n : Nat) : (s.takeDeps dep).locate p h n = s.locate p h n := rfl

theorem stampOf_takeDeps {s : State} (direct : s.core.replay = none) (dep : BitVec 4) (q : QueueId) (stamp : Nat) :
    (s.takeDeps dep).core.stampOf q stamp = stamp := by
  obtain ⟨tok, dropped⟩ := core_takeDeps s dep
  unfold Core.stampOf
  rw [dropped, direct]

/-! ## The words of the engines (R142 to R147) -/

section
variable {sy : BitVec 1} {dep t : BitVec 4} {a b : BitVec 5} {e : BitVec 2} {s : State} (hi : s.Issues dep [gR a, gR b] [])
  (free : s.core.eq.length < 128) (settled : accSettled s.core)
include hi

theorem issues_none : s.Issues dep [] [] := ⟨regsReady_mono hi.1 (by simp), hi.2⟩
theorem issues_first : s.Issues dep [gR a] [] := ⟨regsReady_mono hi.1 (by simp), hi.2⟩

theorem exec_tstart_starts_late (late : 2 ^ 32 ≤ (s.g a).toNat) : exec (.tstart sy dep a e) s = .next (s.wordTrap 0x15 s.wordHandle) := by
  rw [exec_tstart, execTstart]
  refine control_traps (issues_first hi) ?_
  rw [g_takeDeps, if_pos late, wordHandle_takeDeps]

theorem exec_tbase_outside (outside : s.core.granted (engineOf e) ≤ (s.g a).toNat) :
    exec (.tbase sy dep a e) s = .next (s.wordTrap 0x16 s.wordHandle) := by
  rw [exec_tbase, execTbase]
  refine control_traps (issues_first hi) ?_
  rw [g_takeDeps, granted_takeDeps, if_pos outside, wordHandle_takeDeps]

theorem exec_tload_elsewhere (hit : regionIdx (s.g a) ∈ s.core.tlb) (elsewhere : s.imageRegion (s.g a) = false) :
    exec (.tload sy dep a b e) s = .next (s.wordTrap 0x08 (s.g a)) := by
  rw [exec_tload, execTload]
  refine control_traps hi ?_
  have cached : (s.core.tlb.contains (regionIdx (s.g a))) = true := List.contains_iff_mem.2 hit
  simp only [g_takeDeps, tlb_takeDeps, imageRegion_takeDeps, cached, elsewhere, Bool.not_true, Bool.false_eq_true, if_false, Bool.not_false, if_true]

include free settled

theorem exec_tstart_queues (direct : s.core.replay = none) (soon : (s.g a).toNat < 2 ^ 32) :
    Passes ((s.takeDeps dep).enqueue .engine (.tstart (engineOf e) (s.scnt + (s.g a).toNat))) (exec (.tstart sy dep a e) s) sy none := by
  rw [exec_tstart, execTstart]
  refine control_commands (issues_first hi) settled ?_
  rw [g_takeDeps, if_neg (Nat.not_le.2 soon), if_neg (noRoom_false free dep), stampOf_takeDeps direct]
  rfl

theorem exec_tstartEv_queues :
    Passes ((s.takeDeps dep).enqueue .engine (.tstartEv (engineOf e) t.toNat)) (exec (.tstartEv sy dep t e) s) sy none := by
  rw [exec_tstartEv, execTstartEv]
  exact control_commands (issues_none hi) settled (if_neg (noRoom_false free dep))

theorem exec_tstop_queues : Passes ((s.takeDeps dep).enqueue .engine (.tstop (engineOf e))) (exec (.tstop sy dep e) s) sy none := by
  rw [exec_tstop, execTstop]
  exact control_commands (issues_none hi) settled (if_neg (noRoom_false free dep))

theorem exec_tbase_queues (inside : (s.g a).toNat < s.core.granted (engineOf e)) :
    Passes ((s.takeDeps dep).enqueue .engine (.tbase (engineOf e) (s.g a).toNat)) (exec (.tbase sy dep a e) s) sy none := by
  rw [exec_tbase, execTbase]
  refine control_commands (issues_first hi) settled ?_
  rw [g_takeDeps, granted_takeDeps, if_neg (Nat.not_le.2 inside), if_neg (noRoom_false free dep)]

theorem exec_tload_queues (hit : regionIdx (s.g a) ∈ s.core.tlb) (image : s.imageRegion (s.g a) = true)
    (whole : s.locate s.partNo (s.g a) (max 1 (((s.g b).extractLsb' 0 16).toNat * orderBytes (engineOf e))) ≠ none) :
    Passes ((s.takeDeps dep).enqueue .engine (.tload (engineOf e) (s.g a) ((s.g b).extractLsb' 16 16).toNat ((s.g b).extractLsb' 0 16).toNat
      (decide ((s.g b).extractLsb' 32 32 ≠ 0)))) (exec (.tload sy dep a b e) s) sy none := by
  have cached : (s.core.tlb.contains (regionIdx (s.g a))) = true := List.contains_iff_mem.2 hit
  have high : decide (((s.g b).extractLsb' 32 32).toNat ≠ 0) = decide ((s.g b).extractLsb' 32 32 ≠ 0) :=
    decide_eq_decide.2 (not_congr ⟨fun h => BitVec.eq_of_toNat_eq h, fun h => by rw [h]; rfl⟩)
  rw [exec_tload, execTload]
  refine control_commands hi settled ?_
  simp only [g_takeDeps, tlb_takeDeps, imageRegion_takeDeps, partNo_takeDeps, locate_takeDeps, bits_eq_extractLsb', cached, image, whole, high,
    Bool.not_true, Bool.false_eq_true, if_false]
  exact if_neg (noRoom_false free dep)

/-- `tsync` waits for the entry it has placed. -/
theorem exec_tsync_waits (fresh : s.cl.wait = .none) : ∃ v x, exec (.tsync sy dep e) s = .next v ∧ v.core.eq = s.core.eq ++ [x] ∧
    x.op = .tsync (engineOf e) ∧ v.cl.wait = .entry x.seq ∧ v.cl.g = s.cl.g ∧ v.mem = s.mem := by
  obtain ⟨tail, issued, own, pod⟩ := command_enters (accSettled_takeDeps settled dep) (.tsync (engineOf e))
  obtain ⟨tok, dropped⟩ := core_takeDeps s dep
  have before : (s.takeDeps dep).core.eq = s.core.eq := by rw [dropped]
  rw [exec_tsync, execTsync, fresh]
  dsimp only
  rw [control_ready (issues_none hi).1 (issues_none hi).2, if_neg (noRoom_false free dep)]
  generalize (s.takeDeps dep).command (.tsync (engineOf e)) = u at tail issued own pod ⊢
  obtain ⟨frame, core, cluster, -⟩ := beginWait_frame u (.entry u.core.eqIssued)
  refine ⟨u.beginWait (.entry u.core.eqIssued), entryFor (s.takeDeps dep) .engine (.tsync (engineOf e)), rfl, ?_, rfl, ?_, ?_, ?_⟩
  · exact (congrArg Core.eq core :).trans (tail.trans (by rw [before]))
  · rw [cluster, issued]
  · rw [cluster, own, cl_takeDeps]
  · exact (congrArg State.mem (frame.trans pod) :)

omit hi free settled in
theorem exec_tsync_ends (performed : s.cl.wait = .performed) : ∃ v, exec (.tsync sy dep e) s = .next v ∧ Through s v sy [] none := by
  rw [exec_tsync, execTsync, performed]
  exact passes_of (same_takeDeps_zero s).writes

end

/-! ## The first engine command of a handler (R394) -/

theorem get_of_unlisted {α : Type} (d : α) {m : Sp α} {k : Nat} (h : ∀ x ∈ m, x.1 ≠ k) : Sp.get d m k = d := by
  induction m with
  | nil => rfl
  | cons x rest ih =>
    rw [Sp.get, if_neg (h x List.mem_cons_self).symm, ih fun y hy => h y (List.mem_cons_of_mem _ hy)]
    split_ifs <;> rfl

theorem filter_notMem_cons {α : Type} (f : α → Nat) (t : Nat) (rest : List Nat) (m : List α) :
    (m.filter fun x => !decide (f x = t)).filter (fun x => !decide (f x ∈ rest)) = m.filter fun x => !decide (f x ∈ t :: rest) := by
  rw [List.filter_filter]
  refine List.filter_congr fun x _ => ?_
  by_cases here : f x = t <;> simp [here]

/-- Tiles reset, one after another: their words and tags are no longer listed. -/
theorem resetTiles_frame (l : List Nat) (c : Core) : ∃ bad, l.foldl Core.resetTile c = { c with
    badAcc := bad,
    cold := { c.cold with acc := c.cold.acc.filter fun x => !decide (x.1 / 289 ∈ l), tile := c.cold.tile.filter fun x => !decide (x.1 ∈ l) } } := by
  induction l generalizing c with
  | nil => exact ⟨c.badAcc, by simp⟩
  | cons t rest ih =>
    obtain ⟨bad, frame⟩ := ih (c.resetTile t)
    refine ⟨bad, ?_⟩
    rw [List.foldl_cons, frame, Core.resetTile, Core.modCold, Cold.resetTile, ← filter_notMem_cons, ← filter_notMem_cons]

/-- The core as the first engine command of its first handler leaves it. -/
theorem loseAcc_of_first {c : Core} (inside : c.inHandler = true) (outer : c.nested = false) (first : c.accLost = false) :
    c.loseAcc.accLost = true ∧ c.loseAcc.eq = c.eq.filter (fun y => decide (0 < y.level)) ∧
      (∀ k, c.loseAcc.engine k = (c.engine k).abandon) ∧ ∀ k j, k < c.slot.atiles.toNat → j < 289 →
        c.loseAcc.cold.accAt k j = 0 ∧ c.loseAcc.cold.tileAt k = { rt := 0, ct := 0, chkv := true, int := false } := by
  have level : c.level = 1 := by
    unfold Core.level
    rw [outer, inside]
    rfl
  obtain ⟨bad, frame⟩ := resetTiles_frame (List.range c.slot.atiles.toNat) (engines.foldl (fun c e => c.modEngine e Engine.abandon)
    { c with accLost := true, accHere := c.nested, owed := {}, eq := c.eq.filter fun e => !decide (e.level < c.level) })
  have lost : c.loseAcc = (List.range c.slot.atiles.toNat).foldl Core.resetTile (engines.foldl (fun c e => c.modEngine e Engine.abandon)
      { c with accLost := true, accHere := c.nested, owed := {}, eq := c.eq.filter fun e => !decide (e.level < c.level) }) := by
    unfold Core.loseAcc
    exact if_pos ⟨inside, by rw [outer, first]; rfl⟩
  rw [lost, frame]
  refine ⟨rfl, ?_, fun k => ?_, fun k j hk hj => ⟨?_, ?_⟩⟩
  · refine List.filter_congr fun y _ => ?_
    rw [level, ← decide_not]
    exact decide_eq_decide.2 (by omega)
  · cases k <;> rfl
  · refine get_of_unlisted 0 fun x hx same => ?_
    have listed := (List.mem_filter.1 hx).2
    rw [same, show (289 * k + j) / 289 = k by omega, decide_eq_true (List.mem_range.2 hk)] at listed
    exact Bool.false_ne_true listed
  · refine get_of_unlisted ({} : Tile) fun x hx same => ?_
    have listed := (List.mem_filter.1 hx).2
    rw [same, decide_eq_true (List.mem_range.2 hk)] at listed
    exact Bool.false_ne_true listed

/-- A command, placed as the first of its handler, leaves the handler's tables gone and its own entry alone at its level. -/
theorem command_of_first {u : State} (op : QOp) (inside : u.core.inHandler = true) (outer : u.core.nested = false) (first : u.core.accLost = false) :
    (u.command op).core.accLost = true ∧ (∃ x, (u.command op).core.eq = u.core.eq.filter (fun y => decide (0 < y.level)) ++ [x]) ∧
      (∀ k, (u.command op).core.engine k = (u.core.engine k).abandon) ∧ ∀ k j, k < u.core.slot.atiles.toNat → j < 289 →
        (u.command op).core.cold.accAt k j = 0 ∧ (u.command op).core.cold.tileAt k = { rt := 0, ct := 0, chkv := true, int := false } := by
  obtain ⟨w, core⟩ := core_enqueue (u.modCore Core.loseAcc) .engine op
  obtain ⟨lost, gone, idle, tiles⟩ := loseAcc_of_first inside outer first
  rw [← core_modCore u Core.loseAcc] at lost gone idle tiles
  rw [State.command, core]
  generalize (u.modCore Core.loseAcc).core = c at *
  refine ⟨lost, ⟨entryFor (u.modCore Core.loseAcc) .engine op, ?_⟩, idle, tiles⟩
  rw [← gone]
  rfl

section
variable {sy : BitVec 1} {dep n : BitVec 4} {a : BitVec 5} {e : BitVec 2} {s : State}

/-- Each of these words places its command. -/
theorem exec_places_command (hi : s.Issues dep [gR a] []) (free : s.core.eq.length < 128) :
    ∀ i ∈ [Instr.tstartEv sy dep n e, .tstop sy dep e, .xput sy dep a 0], ∃ op, exec i s = .next (((s.takeDeps dep).command op).finish sy none) := by
  have ready : s.Issues dep [] [] := ⟨regsReady_mono hi.1 (by simp), hi.2⟩
  intro i hi'
  rcases List.mem_cons.1 hi' with rfl | hi'
  · refine ⟨.tstartEv (engineOf e) n.toNat, ?_⟩
    rw [exec_tstartEv, execTstartEv, control_ready ready.1 ready.2, if_neg (noRoom_false free dep)]
  rcases List.mem_cons.1 hi' with rfl | hi'
  · refine ⟨.tstop (engineOf e), ?_⟩
    rw [exec_tstop, execTstop, control_ready ready.1 ready.2, if_neg (noRoom_false free dep)]
  · refine ⟨.xput (0 : BitVec 6).toNat ((s.takeDeps dep).g a), ?_⟩
    rw [List.mem_singleton.1 hi', exec_xput, execXput, control_ready hi.1 hi.2]
    dsimp only
    rw [if_neg (by simp), if_neg (noRoom_false free dep)]

theorem exec_command_of_first (hi : s.Issues dep [gR a] []) (free : s.core.eq.length < 128) (inside : s.core.inHandler = true)
    (outer : s.core.nested = false) (first : s.core.accLost = false) :
    ∀ i ∈ [Instr.tstartEv sy dep n e, .tstop sy dep e, .xput sy dep a 0], ∃ t x, exec i s = .next t ∧ t.core.accLost = true ∧
      t.core.eq = s.core.eq.filter (fun y => decide (0 < y.level)) ++ [x] ∧ t.mem = s.mem ∧
      (∀ k, (t.core.engine k).run = false ∧ (t.core.engine k).armed = none ∧ (t.core.engine k).start = []) ∧
      ∀ k j, k < s.core.slot.atiles.toNat → j < 289 → t.core.cold.accAt k j = 0 ∧
        t.core.cold.tileAt k = { rt := 0, ct := 0, chkv := true, int := false } := by
  intro i hi'
  obtain ⟨op, next⟩ := exec_places_command hi free i hi'
  obtain ⟨tok, dropped⟩ := core_takeDeps s dep
  have through := through_finish ((s.takeDeps dep).command op) sy none
  obtain ⟨lost, ⟨x, queue⟩, idle, tiles⟩ := command_of_first (u := s.takeDeps dep) op (by rw [dropped]; exact inside)
    (by rw [dropped]; exact outer) (by rw [dropped]; exact first)
  rw [dropped] at queue idle tiles
  have cold := (congrArg Core.cold through.core :)
  have pod : ((s.takeDeps dep).command op).apart = s.apart := rfl
  refine ⟨_, x, next, (congrArg Core.accLost through.core :).trans lost, (congrArg Core.eq through.core :).trans queue,
    (congrArg State.mem (through.pod.trans pod) :), fun k => ?_, fun k j hk hj => ?_⟩
  · have gone := (congrArg (fun m : Cold => m.engine k) cold).trans (idle k)
    exact ⟨(congrArg Engine.run gone :), (congrArg Engine.armed gone :), (congrArg Engine.start gone :)⟩
  · obtain ⟨word, tags⟩ := tiles k j hk hj
    exact ⟨(congrArg (fun m : Cold => m.accAt k j) cold).trans word, (congrArg (fun m : Cold => m.tileAt k) cold).trans tags⟩

end

end Sys2Proof.Proofs
end

section
/-! # O22: commands at the head of the engine command queue (R142 to R147, R187, R405) -/

namespace Sys2Proof.Proofs

open Sys2Proof.Machine Sys2Proof.Laws

/-! ## The entry leaves its queue -/

theorem core_retire_engine (s : State) (n : Nat) : ∃ a b c w, (s.retire .engine n).core =
    { s.core with eq := s.core.eq.filter fun y => !decide (y.seq = n), lqDone := a, sqDone := b, eqDone := c, eqWarm := w } :=
  ⟨_, _, _, _, core_modCore ..⟩

/-- What is left of the engine command queue, and of the rest of the core, once entry `n` has been performed. -/
theorem retire_engine (s : State) (n : Nat) : (s.retire .engine n).core.eq = s.core.eq.filter (fun y => !decide (y.seq = n)) ∧
    (s.retire .engine n).core.cold = s.core.cold ∧ ∀ l, (s.retire .engine n).core.cluster l = s.core.cluster l := by
  obtain ⟨a, b, c, w, core⟩ := core_retire_engine s n
  rw [core]
  exact ⟨rfl, rfl, fun l => by cases l <;> rfl⟩

/-! ## What each command does at the head (R142 to R146) -/

section
variable {s : State} {e : QEntry} {n : EngineId} (ready : s.ready .engine = some e) (unkilled : e.killed = false)
  (agrees : s.core.willMismatch = false)
include ready unkilled agrees

theorem exec_perform_tstart {stamp : Nat} (op : e.op = .tstart n stamp) : exec .engineCommandPerform s =
    .next ((s.retire .engine e.seq).modCore fun c => c.modEngine n fun x => { x with start := x.start ++ [(stamp, s.clock + 32, e.word)] }) := by
  rw [exec_engineCommandPerform, execEngineCommandPerform]
  simp only [ready, op, agrees, unkilled, QOp.waitsFor, State.performCommand, Bool.false_eq_true, if_false]
  rfl

theorem exec_perform_tstop (op : e.op = .tstop n) : exec .engineCommandPerform s =
    .next ((s.retire .engine e.seq).modCore fun c => c.modEngine n fun x =>
      { x with run := false, fill := 0, skip := 0, loops := [], pulse := x.pulse || x.run, armed := none }) := by
  rw [exec_engineCommandPerform, execEngineCommandPerform]
  simp only [ready, op, agrees, unkilled, QOp.waitsFor, State.performCommand, Bool.false_eq_true, if_false]

theorem exec_perform_tbase {v : Nat} (op : e.op = .tbase n v) : exec .engineCommandPerform s = if s.core.idle n = true then
      .next ((s.retire .engine e.seq).modCore fun c => c.modEngine n fun x => { x with base := v })
    else .next s := by
  rw [exec_engineCommandPerform, execEngineCommandPerform]
  simp only [ready, op, agrees, unkilled, QOp.waitsFor, State.performCommand, Bool.false_eq_true, if_false, Bool.not_false, Bool.true_and,
    Bool.not_eq_true']
  cases s.core.idle n <;> rfl

theorem exec_perform_tsync (op : e.op = .tsync n) : exec .engineCommandPerform s = if s.core.idle n = true then
      .next ((s.retire .engine e.seq).answer e.lane e.seq .performed)
    else .next s := by
  rw [exec_engineCommandPerform, execEngineCommandPerform]
  simp only [ready, op, agrees, unkilled, QOp.waitsFor, State.performCommand, Bool.false_eq_true, if_false, Bool.not_false, Bool.true_and,
    Bool.not_eq_true']
  cases s.core.idle n <;> rfl

theorem exec_perform_tstartEv_of_busy {m : Nat} (op : e.op = .tstartEv n m) (busy : s.core.idle n = false) :
    exec .engineCommandPerform s = .next (s.queueTrap .engine e 0x15 e.word) := by
  rw [exec_engineCommandPerform, execEngineCommandPerform]
  simp only [ready, op, agrees, unkilled, busy, QOp.waitsFor, State.performCommand, Bool.false_eq_true, if_false, Bool.not_false, true_or, if_true]

theorem exec_perform_tstartEv {m : Nat} (op : e.op = .tstartEv n m) (owes : s.core.owes = {}) (idle : s.core.idle n = true)
    (unarmed : s.core.termArmed m = false) (set : Sp.get 0 s.core.cold.term m ≠ 0) : exec .engineCommandPerform s =
      .next ((s.retire .engine e.seq).modCore fun c => c.modEngine n fun x =>
        { x with armed := some (m, Sp.get 0 s.core.cold.term m, e.word), armAt := s.clock }) := by
  have unowed : s.core.owedFire n = none := by
    unfold Core.owedFire
    rw [owes]
    rfl
  rw [exec_engineCommandPerform, execEngineCommandPerform]
  simp only [ready, op, agrees, unkilled, idle, unarmed, set, unowed, QOp.waitsFor, State.performCommand, Bool.false_eq_true, if_false,
    Bool.not_true, or_self]

end

section
variable (s : State) (e : QEntry) (n : EngineId)

/-- A command performed that changes its engine by `f`. -/
def performed (f : Engine → Engine) : State := (s.retire .engine e.seq).modCore fun c => c.modEngine n f

theorem performed_frame (f : Engine → Engine) : (performed s e n f).core.eq = s.core.eq.filter (fun y => !decide (y.seq = e.seq)) ∧
    (performed s e n f).core.engine n = f (s.core.engine n) ∧ (performed s e n f).mem = s.mem ∧
    (performed s e n f).core.cold.acc = s.core.cold.acc ∧ (performed s e n f).core.cold.pend = s.core.cold.pend := by
  obtain ⟨queue, cold, -⟩ := retire_engine s e.seq
  rw [performed, core_modCore, engine_modEngine_self, Core.engine, cold]
  refine ⟨queue, rfl, rfl, ?_, ?_⟩
  all_goals
    rw [Core.modEngine, Core.modCold, cold]
    cases n <;> rfl

/-- The word that waits for its entry goes on. -/
theorem answered_frame : ((s.retire .engine e.seq).answer e.lane e.seq .performed).core.eq = s.core.eq.filter (fun y => !decide (y.seq = e.seq)) ∧
    ((s.core.cluster e.lane).wait = .entry e.seq →
      (((s.retire .engine e.seq).answer e.lane e.seq .performed).core.cluster e.lane).wait = .performed) := by
  obtain ⟨queue, -, clusters⟩ := retire_engine s e.seq
  rw [State.answer, core_modCore, cluster_setCluster_self, clusters]
  refine ⟨?_, fun waits => ?_⟩
  · rw [← queue]
    cases e.lane <;> rfl
  · dsimp only
    rw [if_pos waits]

end

/-! ## Faults at the head (R385) -/

/-- From `s` to `t` the code that runs, the cold state and memory are the same. -/
structure KeepsCold (s t : State) : Prop where
  handler : t.core.inHandler = s.core.inHandler
  cold : t.core.cold = s.core.cold
  mem : t.mem = s.mem

theorem KeepsCold.modCore {s t : State} (h : KeepsCold s t) {f : Core → Core} (handler : ∀ c, (f c).inHandler = c.inHandler)
    (cold : ∀ c, (f c).cold = c.cold) : KeepsCold s (t.modCore f) :=
  ⟨by rw [core_modCore, handler, h.handler], by rw [core_modCore, cold, h.cold], h.mem⟩

theorem KeepsCold.setCluster {s t : State} (h : KeepsCold s t) (l : Lane) (x : Core → Cluster) :
    KeepsCold s (t.modCore fun c => c.setCluster l (x c)) :=
  h.modCore (fun c => by cases l <;> rfl) (fun c => setCluster_cold ..)

theorem keepsCold_dropEntry (s : State) (q : QueueId) (e : QEntry) : KeepsCold s (s.dropEntry q e) := by
  have gone : KeepsCold s (s.modCore fun c => c.setQueue q ((c.queue q).filter fun x => !decide (x.seq = e.seq))) :=
    (KeepsCold.mk rfl rfl rfl : KeepsCold s s).modCore (fun c => by cases q <;> rfl) (fun c => by cases q <;> rfl)
  unfold State.dropEntry State.release State.answer
  cases e.op with
  | load h z l d | xget c l d => exact gone.setCluster _ _
  | crossing n => exact gone.modCore (fun _ => rfl) (fun _ => rfl)
  | shpld n a => exact (gone.setCluster _ _).modCore (fun _ => rfl) (fun _ => rfl)
  | tsync n => exact gone.setCluster _ _
  | _ => exact gone

/-- A fault of a command outside a handler, with its record; the order stores stand. -/
theorem queueTrap_enters {s : State} (e : QEntry) (code : Nat) (addr : Word) (outside : s.core.inHandler = false) (small : code < 4096) :
    (s.queueTrap .engine e code addr).core.inHandler = true ∧ (s.queueTrap .engine e code addr).core.areaNat 0 8 = 2 ^ 14 + 2 * 2 ^ 12 + code ∧
      (s.queueTrap .engine e code addr).core.areaNat 8 8 = addr.toNat ∧ SameOrders s.core.cold (s.queueTrap .engine e code addr).core.cold := by
  obtain ⟨handler, cold, -⟩ := keepsCold_dropEntry s .engine e
  have cause : causeOf 1 2 code = 2 ^ 14 + 2 * 2 ^ 12 + code := by unfold causeOf; omega
  obtain ⟨entered, first, second, orders, -⟩ := takeTrap_enters (s := s.dropEntry .engine e) (cause := causeOf 1 2 code) addr (s.wordAt e.word).toNat
    (handler.trans outside) (by rw [cause]; omega)
  rw [cold] at orders
  exact ⟨entered, first.trans cause, second, orders⟩

/-! ## Admission (R97, R147, R187, R427) -/

/-- The state once an entry has been admitted with this charge. -/
def admitted (s : State) (charge : Nat) : State := (s.charge charge).modCore fun c => { c with heatAdm := c.heatAdm + charge }

theorem admitted_frame (s : State) (charge : Nat) :
    (admitted s charge).core = { s.core with heatNow := s.core.heatNow + charge, heatAdm := s.core.heatAdm + charge } ∧
      (admitted s charge).mem = s.mem ∧ (admitted s charge).bad = s.bad ∧ (admitted s charge).badDc = s.badDc ∧
      (admitted s charge).parts = s.parts ∧ ∀ k, ((admitted s charge).pkgAt k).failed = (s.pkgAt k).failed := by
  have charged : (s.charge charge).core = { s.core with heatNow := s.core.heatNow + charge } :=
    coreAt_modCoreAt_self s s.cur fun c => { c with heatNow := c.heatNow + charge }
  refine ⟨?_, rfl, rfl, rfl, rfl, fun k => ?_⟩
  · rw [admitted, core_modCore, charged]
  · have charged : (admitted s charge).pkgAt k = if k = pkgOf s.cur then { s.pkgAt (pkgOf s.cur) with posted := (s.pkgAt (pkgOf s.cur)).posted + charge }
        else s.pkgAt k := get_put ..
    rw [charged]
    split_ifs with here
    · rw [here]
    · rfl

section
variable {s : State} {e : QEntry} {n : EngineId} {charge : Nat} (ready : s.ready .engine = some e) (unkilled : e.killed = false)
  (agrees : s.core.willMismatch = false) (tested : s.testedCharge .engine e = some charge) (waits : e.op.waitsFor = some n)
include ready agrees tested waits

theorem exec_crossingAdmit_waits (busy : s.core.idle n = false) : exec (.crossingAdmit .engine) s = .next s := by
  rw [exec_crossingAdmit, execCrossingAdmit]
  simp only [ready, tested, agrees, waits, busy, Bool.false_eq_true, if_false, Bool.not_false, if_true]

theorem exec_crossingAdmit_admits (idle : s.core.idle n = true) (fits : s.core.heatAcc + s.core.heatAdm + charge ≤ s.core.heatBud) :
    exec (.crossingAdmit .engine) s = (admitted s charge).admitEntry .engine e := by
  rw [exec_crossingAdmit, execCrossingAdmit]
  simp only [ready, tested, agrees, waits, idle, Bool.false_eq_true, if_false, Bool.not_true, State.heatTest, if_pos (Or.inr fits : _ ∨ _), if_true]
  rfl

end

/-- An entry of the engine command queue is tested whatever a replay run only compares. -/
theorem testedCharge_xput {s : State} {e : QEntry} {code : Nat} {v : Word} (unkilled : e.killed = false) (op : e.op = .xput code v) :
    s.testedCharge .engine e = some (if code < 16 then 16 else if code < 36 then 8 else 2) := by
  have fresh : s.core.replays .engine e.seq = false := by unfold Core.replays; cases s.core.replay <;> rfl
  unfold State.testedCharge
  rw [unkilled, fresh, op]
  rfl

theorem testedCharge_tload {s : State} {e : QEntry} {n : EngineId} {img : Word} {first count : Nat} {hi : Bool} (unkilled : e.killed = false)
    (op : e.op = .tload n img first count hi) : s.testedCharge .engine e = some (count * orderBytes n) := by
  have fresh : s.core.replays .engine e.seq = false := by unfold Core.replays; cases s.core.replay <;> rfl
  unfold State.testedCharge
  rw [unkilled, fresh, op]
  rfl

/-- The engine whose parameter `code` is (R187). -/
def paramEngine (code : Nat) : EngineId := if code < 16 then .matrix else if code < 32 then .vector else .temporal

/-- The parameter write on its way (R187). -/
def paramLanding (s : State) (code : Nat) (v : Word) : Landing :=
  { at_ := s.clock + 32, issued := s.clock, eng := paramEngine code, chain := 0, writes := [], op := .param code v }

theorem exec_admit_xput {s : State} {e : QEntry} {code charge : Nat} {v : Word} (ready : s.ready .engine = some e)
    (agrees : s.core.willMismatch = false) (tested : s.testedCharge .engine e = some charge) (op : e.op = .xput code v)
    (idle : s.core.idle (paramEngine code) = true) (fits : s.core.heatAcc + s.core.heatAdm + charge ≤ s.core.heatBud) :
    ∃ t, exec (.crossingAdmit .engine) s = .next t ∧ t.core.eq = s.core.eq.filter (fun y => !decide (y.seq = e.seq)) ∧
      t.core.cold = { s.core.cold with pend := s.core.cold.pend ++ [paramLanding s code v] } ∧ t.core.heatNow = s.core.heatNow + charge ∧
      t.mem = s.mem := by
  obtain ⟨charged, mem, -⟩ := admitted_frame s charge
  obtain ⟨a, b, c, w, retired⟩ := core_retire_engine (admitted s charge) e.seq
  have waits : e.op.waitsFor = some (paramEngine code) := by rw [op]; rfl
  have admits : (admitted s charge).admitEntry .engine e = .next (((admitted s charge).retire .engine e.seq).modCore fun c =>
      c.modCold fun m => { m with pend := m.pend ++ [paramLanding s code v] }) := by
    unfold State.admitEntry
    rw [op]
    rfl
  rw [exec_crossingAdmit_admits ready agrees tested waits idle fits, admits]
  refine ⟨_, rfl, ?_, ?_, ?_, mem⟩
  all_goals
    rw [core_modCore, retired, charged]
    rfl

/-! ## Images (R97, R147) -/

/-- Words written to rising places from `first` on. -/
theorem get_foldl_range {α : Type} [DecidableEq α] (d : α) (v : Nat → α) (first n : Nat) (m : Sp α) (j : Nat) :
    Sp.get d ((List.range n).foldl (fun x i => Sp.set d x (first + i) (v i)) m) j =
      if first ≤ j ∧ j < first + n then v (j - first) else Sp.get d m j := by
  induction n with
  | zero => exact (if_neg (by omega)).symm
  | succ n ih =>
    rw [List.range_succ, List.foldl_append, List.foldl_cons, List.foldl_nil, get_set, ih]
    by_cases last : j = first + n
    · rw [if_pos last, if_pos (by omega), last, Nat.add_sub_cancel_left]
    · rw [if_neg last]
      exact if_congr (by omega) rfl rfl

theorem get_foldl_range_at {α : Type} [DecidableEq α] (d : α) (v : Nat → α) (first n : Nat) (m : Sp α) {i : Nat} (h : i < n) :
    Sp.get d ((List.range n).foldl (fun x i => Sp.set d x (first + i) (v i)) m) (first + i) = v i := by
  rw [get_foldl_range, if_pos (by omega), Nat.add_sub_cancel_left]

theorem get_foldl_range_off {α : Type} [DecidableEq α] (d : α) (v : Nat → α) (first n : Nat) (m : Sp α) {j : Nat}
    (h : j < first ∨ first + n ≤ j) : Sp.get d ((List.range n).foldl (fun x i => Sp.set d x (first + i) (v i)) m) j = Sp.get d m j := by
  rw [get_foldl_range, if_neg (by omega)]

/-- Step `i` of an image of `count` stands at `first + i`, with END on the last. -/
def stepAt (m : Cold) (n : EngineId) (first count i : Nat) (w : Nat) : Prop :=
  match n with
  | .matrix => Sp.get 0 m.omat (first + i) = BitVec.ofNat 64 w ∧ Sp.get false m.endMat (first + i) = decide (i + 1 = count)
  | .vector => Sp.get 0 m.ovec (first + i) = BitVec.ofNat 32 w ∧ Sp.get false m.endVec (first + i) = decide (i + 1 = count)
  | .temporal => Sp.get 0 m.otmp (first + i) = BitVec.ofNat 32 w ∧ Sp.get false m.endTmp (first + i) = decide (i + 1 = count)

theorem stepAt_install (m : Cold) (n : EngineId) (first : Nat) (ws : List Nat) {i : Nat} (h : i < ws.length) :
    stepAt (m.install n first ws) n first ws.length i (ws.getD i 0) := by
  cases n <;> exact ⟨get_foldl_range_at _ _ _ _ _ h, get_foldl_range_at _ _ _ _ _ h⟩

theorem install_elsewhere (m : Cold) (n : EngineId) (first : Nat) (ws : List Nat) {j : Nat} (h : j < first ∨ first + ws.length ≤ j) :
    Sp.get 0 (m.install n first ws).omat j = Sp.get 0 m.omat j ∧ Sp.get 0 (m.install n first ws).ovec j = Sp.get 0 m.ovec j ∧
      Sp.get 0 (m.install n first ws).otmp j = Sp.get 0 m.otmp j := by
  cases n with
  | matrix => exact ⟨get_foldl_range_off _ _ _ _ _ h, rfl, rfl⟩
  | vector => exact ⟨rfl, get_foldl_range_off _ _ _ _ _ h, rfl⟩
  | temporal => exact ⟨rfl, rfl, get_foldl_range_off _ _ _ _ _ h⟩

/-- The numbers of a `tload` are refused (R147). -/
def refusedNumbers (c : Core) (n : EngineId) (first count : Nat) (hi : Bool) : Prop :=
  count = 0 ∨ hi = true ∨ c.granted n < first + count ∨ storeSize n < first + count

/-- The steps of an image at home `key`. -/
def imageSteps (s : State) (n : EngineId) (key count : Nat) : List Nat :=
  (List.range count).map fun i => leNat (s.bytes (key + orderBytes n * i) (orderBytes n))

theorem length_imageSteps (s : State) (n : EngineId) (key count : Nat) : (imageSteps s n key count).length = count := by
  unfold imageSteps
  rw [List.length_map, List.length_range]

/-- The core with an image installed, whose words hold no error. -/
def withImage (n : EngineId) (first count : Nat) (ws : List Nat) (c : Core) : Core :=
  { c with badOrd := c.badOrd.filter fun a =>
             !(decide (4096 * engineIdx n + first ≤ a) && decide (a < 4096 * engineIdx n + first + count)),
           cold := c.cold.install n first ws }

theorem badAt_of_clean {u : State} (bad : u.bad = []) (badDc : u.badDc = []) (sound : ∀ k, (u.pkgAt k).failed = false) (key n : Nat) :
    u.badAt key n = false := by
  unfold State.badAt
  rw [bad, badDc, sound]
  rfl

section
variable {u : State} {x : QEntry} {n : EngineId} {img : Word} {first count : Nat} {hi : Bool} {reg : Region} {key : Nat}

theorem performTload_of_refused (h : refusedNumbers u.core n first count hi) :
    u.performTload x n img first count hi = u.queueTrap .engine x 0x16 x.word := by
  unfold State.performTload
  exact if_pos h

section
variable (ok : ¬ refusedNumbers u.core n first count hi) (place : u.locate u.partNo img (count * orderBytes n) = some (reg, key))
  (clean : ∀ k m, u.badAt k m = false)
include ok place clean

theorem performTload_of_fault {o : Nat} (fault : imageFault n u.core.slot.atiles.toNat (imageSteps u n key count) = some o) :
    u.performTload x n img first count hi = u.queueTrap .engine x 0x16 (img + BitVec.ofNat 64 o) := by
  unfold imageSteps at fault
  unfold State.performTload
  refine (if_neg ok).trans ?_
  simp only [place, clean, List.filter_false, fault]
  rfl

theorem performTload_of_good (good : imageFault n u.core.slot.atiles.toNat (imageSteps u n key count) = none) :
    u.performTload x n img first count hi = (u.retire .engine x.seq).modCore (withImage n first count (imageSteps u n key count)) := by
  unfold imageSteps at good
  unfold State.performTload
  refine (if_neg ok).trans ?_
  simp only [place, clean, List.filter_false, good]
  rfl

end
end

theorem bytes_admitted (s : State) (charge key n : Nat) : (admitted s charge).bytes key n = s.bytes key n := by
  induction n generalizing key with
  | zero => rfl
  | succ n ih => exact congrArg (s.byte key :: ·) (ih _)

section
variable {s : State} {e : QEntry} {n : EngineId} {img : Word} {first count : Nat} {hi : Bool} {reg : Region} {key : Nat}
  (ready : s.ready .engine = some e) (unkilled : e.killed = false) (op : e.op = .tload n img first count hi)
  (agrees : s.core.willMismatch = false) (idle : s.core.idle n = true)
  (fits : s.core.heatAcc + s.core.heatAdm + count * orderBytes n ≤ s.core.heatBud)
include ready unkilled op agrees idle fits

theorem exec_admit_tload : exec (.crossingAdmit .engine) s = .next ((admitted s (count * orderBytes n)).performTload e n img first count hi) := by
  rw [exec_crossingAdmit_admits ready agrees (testedCharge_tload unkilled op) (by rw [op]; rfl) idle fits]
  unfold State.admitEntry
  rw [op]

theorem exec_tload_refused (outside : s.core.inHandler = false) (refused : refusedNumbers s.core n first count hi) :
    ∃ t, exec (.crossingAdmit .engine) s = .next t ∧ t.core.inHandler = true ∧ t.core.areaNat 0 8 = 2 ^ 14 + 2 * 2 ^ 12 + 0x16 ∧
      t.core.areaNat 8 8 = e.word.toNat ∧ SameOrders s.core.cold t.core.cold := by
  obtain ⟨charged, -⟩ := admitted_frame s (count * orderBytes n)
  have refused' : refusedNumbers (admitted s (count * orderBytes n)).core n first count hi := by
    rw [charged]
    exact refused
  obtain ⟨entered, cause, addr, orders⟩ := queueTrap_enters (s := admitted s (count * orderBytes n)) e 0x16 e.word
    (by rw [charged]; exact outside) (by decide)
  rw [charged] at orders
  rw [exec_admit_tload ready unkilled op agrees idle fits, performTload_of_refused refused']
  exact ⟨_, rfl, entered, cause, addr, orders⟩

section
variable (ok : ¬ refusedNumbers s.core n first count hi) (place : s.locate s.partNo img (count * orderBytes n) = some (reg, key))
  (bad : s.bad = []) (badDc : s.badDc = []) (sound : ∀ k, (s.pkgAt k).failed = false)
include ok place bad badDc sound

omit ready unkilled op agrees idle fits in
/-- What the charge has left as it was for the image. -/
theorem admitted_image : ¬ refusedNumbers (admitted s (count * orderBytes n)).core n first count hi ∧
    (admitted s (count * orderBytes n)).locate (admitted s (count * orderBytes n)).partNo img (count * orderBytes n) = some (reg, key) ∧
    (∀ k m, (admitted s (count * orderBytes n)).badAt k m = false) ∧
    imageSteps (admitted s (count * orderBytes n)) n key count = imageSteps s n key count ∧
    (admitted s (count * orderBytes n)).core.slot = s.core.slot := by
  obtain ⟨charged, -, bad', badDc', -, failed⟩ := admitted_frame s (count * orderBytes n)
  refine ⟨?_, ?_, badAt_of_clean (bad'.trans bad) (badDc'.trans badDc) fun k => (failed k).trans (sound k), ?_, ?_⟩
  · rw [charged]
    exact ok
  · rw [State.partNo, charged]
    exact place
  · unfold imageSteps
    simp only [bytes_admitted]
  · rw [charged]
    rfl

theorem exec_tload_faulty (outside : s.core.inHandler = false) {o : Nat}
    (fault : imageFault n s.core.slot.atiles.toNat (imageSteps s n key count) = some o) : ∃ t, exec (.crossingAdmit .engine) s = .next t ∧
      t.core.inHandler = true ∧ t.core.areaNat 0 8 = 2 ^ 14 + 2 * 2 ^ 12 + 0x16 ∧ t.core.areaNat 8 8 = (img + BitVec.ofNat 64 o).toNat ∧
      t.core.cold.omat = s.core.cold.omat := by
  obtain ⟨ok', place', clean, steps, slot⟩ := admitted_image ok place bad badDc sound
  obtain ⟨charged, -⟩ := admitted_frame s (count * orderBytes n)
  obtain ⟨entered, cause, addr, orders⟩ := queueTrap_enters (s := admitted s (count * orderBytes n)) e 0x16 (img + BitVec.ofNat 64 o)
    (by rw [charged]; exact outside) (by decide)
  rw [charged] at orders
  rw [exec_admit_tload ready unkilled op agrees idle fits, performTload_of_fault ok' place' clean (by rw [steps, slot]; exact fault)]
  exact ⟨_, rfl, entered, cause, addr, orders.omat⟩

theorem exec_tload_good (good : imageFault n s.core.slot.atiles.toNat (imageSteps s n key count) = none) :
    ∃ t, exec (.crossingAdmit .engine) s = .next t ∧ t.mem = s.mem ∧ t.core.eq = s.core.eq.filter (fun y => !decide (y.seq = e.seq)) ∧
      t.core.heatNow = s.core.heatNow + count * orderBytes n ∧ t.core.cold = s.core.cold.install n first (imageSteps s n key count) := by
  obtain ⟨ok', place', clean, steps, slot⟩ := admitted_image ok place bad badDc sound
  obtain ⟨charged, mem, -⟩ := admitted_frame s (count * orderBytes n)
  obtain ⟨a, b, c, w, retired⟩ := core_retire_engine (admitted s (count * orderBytes n)) e.seq
  rw [exec_admit_tload ready unkilled op agrees idle fits, performTload_of_good ok' place' clean (by rw [steps, slot]; exact good), steps]
  refine ⟨_, rfl, mem, ?_, ?_, ?_⟩
  all_goals
    rw [core_modCore, retired, charged]
    rfl

end
end

/-- A command at the head of the queue, by its kind. -/
theorem engineCommands_perform {s : State} {e : QEntry} {n : EngineId} (ready : s.ready .engine = some e) (unkilled : e.killed = false)
    (agrees : s.core.willMismatch = false) :
    let gone := s.core.eq.filter (fun y => !decide (y.seq = e.seq))
    (∀ stamp, e.op = .tstart n stamp → ∃ t, exec .engineCommandPerform s = .next t ∧ t.core.eq = gone ∧
      (t.core.engine n).start = (s.core.engine n).start ++ [(stamp, s.clock + 32, e.word)] ∧ (t.core.engine n).run = (s.core.engine n).run ∧
      t.mem = s.mem) ∧
    (e.op = .tstop n → ∃ t, exec .engineCommandPerform s = .next t ∧ t.core.eq = gone ∧ (t.core.engine n).run = false ∧
      (t.core.engine n).armed = none ∧ (t.core.engine n).loops = [] ∧ t.core.cold.acc = s.core.cold.acc ∧ t.core.cold.pend = s.core.cold.pend) ∧
    (∀ v, e.op = .tbase n v → (s.core.idle n = true → ∃ t, exec .engineCommandPerform s = .next t ∧ t.core.eq = gone ∧
      t.core.engine n = { s.core.engine n with base := v }) ∧ (s.core.idle n = false → exec .engineCommandPerform s = .next s)) ∧
    (e.op = .tsync n → s.core.idle n = false → exec .engineCommandPerform s = .next s) ∧
    (e.op = .tsync n → s.core.idle n = true → (s.core.cluster e.lane).wait = .entry e.seq →
      ∃ t, exec .engineCommandPerform s = .next t ∧ t.core.eq = gone ∧ (t.core.cluster e.lane).wait = .performed) ∧
    (∀ m, e.op = .tstartEv n m → s.core.owes = {} → s.core.idle n = true → s.core.termArmed m = false → Sp.get 0 s.core.cold.term m ≠ 0 →
      ∃ t, exec .engineCommandPerform s = .next t ∧ t.core.eq = gone ∧
        (t.core.engine n).armed = some (m, Sp.get 0 s.core.cold.term m, e.word)) ∧
    (∀ m, e.op = .tstartEv n m → s.core.idle n = false → s.core.inHandler = false →
      ∃ t, exec .engineCommandPerform s = .next t ∧ t.core.inHandler = true ∧ t.core.areaNat 0 8 = 2 ^ 14 + 2 * 2 ^ 12 + 0x15 ∧
        t.core.areaNat 8 8 = e.word.toNat) := by
  intro gone
  refine ⟨fun stamp op => ?_, fun op => ?_, fun v op => ⟨fun idle => ?_, fun busy => ?_⟩, fun op busy => ?_, fun op idle waits => ?_,
    fun m op owes idle unarmed set => ?_, fun m op busy outside => ?_⟩
  · obtain ⟨queue, engine, mem, -⟩ := performed_frame s e n fun x => { x with start := x.start ++ [(stamp, s.clock + 32, e.word)] }
    exact ⟨_, exec_perform_tstart ready unkilled agrees op, queue, (congrArg Engine.start engine :), (congrArg Engine.run engine :), mem⟩
  · obtain ⟨queue, engine, -, acc, pend⟩ := performed_frame s e n fun x =>
      { x with run := false, fill := 0, skip := 0, loops := [], pulse := x.pulse || x.run, armed := none }
    exact ⟨_, exec_perform_tstop ready unkilled agrees op, queue, (congrArg Engine.run engine :), (congrArg Engine.armed engine :),
      (congrArg Engine.loops engine :), acc, pend⟩
  · obtain ⟨queue, engine, -⟩ := performed_frame s e n fun x => { x with base := v }
    exact ⟨_, (exec_perform_tbase ready unkilled agrees op).trans (if_pos idle), queue, engine⟩
  · exact (exec_perform_tbase ready unkilled agrees op).trans (if_neg (by rw [busy]; exact Bool.false_ne_true))
  · exact (exec_perform_tsync ready unkilled agrees op).trans (if_neg (by rw [busy]; exact Bool.false_ne_true))
  · obtain ⟨queue, answered⟩ := answered_frame s e
    exact ⟨_, (exec_perform_tsync ready unkilled agrees op).trans (if_pos idle), queue, answered waits⟩
  · obtain ⟨queue, engine, -⟩ := performed_frame s e n fun x =>
      { x with armed := some (m, Sp.get 0 s.core.cold.term m, e.word), armAt := s.clock }
    exact ⟨_, exec_perform_tstartEv ready unkilled agrees op owes idle unarmed set, queue, (congrArg Engine.armed engine :)⟩
  · obtain ⟨entered, cause, addr, -⟩ := queueTrap_enters (s := s) e 0x15 e.word outside (by decide)
    exact ⟨_, exec_perform_tstartEv_of_busy ready unkilled agrees op busy, entered, cause, addr⟩

/-- Settles O22: each word places its command, each command at the head acts on its engine, and an image is refused, faulty or installed. -/
theorem engineWordsEnterAndPerform : Obligations.EngineWordsEnterAndPerform := by
  refine ⟨fun sy dep t a b e s hi free direct settled => ?_, fun sy dep n a e s hi free direct inside outer first => ?_,
    fun e n s ready unkilled agrees => engineCommands_perform ready unkilled agrees, fun e n code v s ready unkilled op agrees engine => ?_,
    fun e n img first count hi reg key s ready unkilled op agrees idle outside => ?_⟩
  · exact ⟨exec_tstart_queues hi free settled direct, exec_tstart_starts_late hi, exec_tstartEv_queues hi free settled,
      exec_tstop_queues hi free settled, exec_tbase_queues hi free settled, exec_tbase_outside hi, exec_tload_queues hi free settled,
      exec_tload_elsewhere hi, exec_tsync_waits hi free settled, exec_tsync_ends⟩
  · exact exec_command_of_first hi free inside outer first
  · have tested := testedCharge_xput (s := s) unkilled op
    have mine : n = paramEngine code := engine
    rw [mine]
    refine ⟨fun busy => exec_crossingAdmit_waits ready agrees tested (by rw [op]; rfl) busy, fun idle fits => ?_⟩
    obtain ⟨t, next, queue, cold, heat, mem⟩ := exec_admit_xput ready agrees tested op idle fits
    exact ⟨t, paramLanding s code v, next, queue, cold, rfl, rfl, rfl, heat, mem⟩
  · have width : (if n = .matrix then 8 else 4) = orderBytes n := by cases n <;> rfl
    have size : (if n = .temporal then 512 else 4096) = storeSize n := by cases n <;> rfl
    rw [width, size]
    intro b fits place bad badDc sound steps refused
    refine ⟨fun no => ?_, fun ok => ⟨fun o fault => exec_tload_faulty ready unkilled op agrees idle fits ok place bad badDc sound outside fault,
      fun good => ?_⟩⟩
    · obtain ⟨t, next, entered, cause, addr, orders⟩ := exec_tload_refused ready unkilled op agrees idle fits outside no
      exact ⟨t, next, entered, cause, addr, orders.omat, orders.ovec, orders.otmp⟩
    · obtain ⟨t, next, mem, queue, heat, cold⟩ := exec_tload_good ready unkilled op agrees idle fits ok place bad badDc sound good
      have long : (imageSteps s n key count).length = count := length_imageSteps ..
      refine ⟨t, next, mem, queue, heat, fun i hlt => ?_, fun j far => ?_⟩
      · have stands := stepAt_install s.core.cold n first (imageSteps s n key count) (i := i) (by rw [long]; exact hlt)
        rw [← cold, long] at stands
        cases n <;> exact stands
      · rw [cold]
        exact install_elsewhere _ _ _ _ (by rw [long]; exact far)

end Sys2Proof.Proofs
end

section
/-! # States that differ in tokens alone read alike: what the checks of R136 and R163 see (R85) -/

namespace Sys2Proof.Laws

open Sys2Proof.Machine

/-- `u` and `v` differ in no more than the dependence tokens of their cores. -/
structure Alike (u v : State) : Prop where
  pod : v.apart = u.apart
  at_ : ∀ k, ∃ tok, v.coreAt k = { u.coreAt k with tok := tok }

theorem alike_takeDeps (s : State) (dep : BitVec 4) : Alike s (s.takeDeps dep) where
  pod := rfl
  at_ k := by
    by_cases here : k = s.cur
    · rw [here]
      exact core_takeDeps s dep
    · exact ⟨(s.coreAt k).tok, coreAt_modCore_other s _ here⟩

namespace Alike

section
variable {u v : State} (like : Alike u v)
include like

theorem cur : v.cur = u.cur := cur_of_apart like.pod

theorem core : ∃ tok, v.core = { u.core with tok := tok } := by
  unfold State.core
  rw [like.cur]
  exact like.at_ u.cur

theorem eq_cores : v = { u with cores := v.cores } := by
  have pod : { v with cores := [] } = { u with cores := [] } := like.pod
  exact congrArg (fun s : State => { s with cores := v.cores }) pod

/-- What a core holds beside its tokens. -/
theorem field {α : Type} (f : Core → α) (apart : ∀ c tok, f { c with tok := tok } = f c) : f v.core = f u.core := by
  obtain ⟨tok, h⟩ := like.core
  rw [h, apart]

theorem slot : v.core.slot = u.core.slot := like.field Core.slot fun _ _ => rfl
theorem inHandler : v.core.inHandler = u.core.inHandler := like.field Core.inHandler fun _ _ => rfl
theorem bcache : v.core.bcache = u.core.bcache := like.field Core.bcache fun _ _ => rfl
theorem shares : v.core.shares = u.core.shares := like.field Core.shares fun _ _ => rfl
theorem tlb : v.core.tlb = u.core.tlb := like.field Core.tlb fun _ _ => rfl

theorem cl : v.cl = u.cl := by
  unfold State.cl
  rw [lane_of_apart like.pod]
  exact like.field (fun c => c.cluster u.lane) fun c tok => by cases u.lane <;> rfl

theorem wordHandle : v.wordHandle = u.wordHandle := by
  unfold State.wordHandle
  rw [like.cl, lane_of_apart like.pod]

theorem partNo : v.partNo = u.partNo := congrArg Slot.part like.slot

theorem partAt (p : Nat) : v.partAt p = u.partAt p := by
  rw [like.eq_cores]
  rfl

theorem part : v.part = u.part := by
  unfold State.part
  rw [like.partNo, like.partAt]

theorem regionOf (p i : Nat) : v.regionOf p i = u.regionOf p i := by
  unfold State.regionOf
  rw [like.partAt]

theorem locate (p : Nat) (h : Word) (n : Nat) : v.locate p h n = u.locate p h n := by
  unfold State.locate
  rw [like.regionOf]

theorem place (h : Word) (n : Nat) : v.place h n = u.place h n := by
  unfold State.place
  rw [like.inHandler, like.partNo, like.locate]

theorem needsWalk (i : Nat) : v.needsWalk i = u.needsWalk i := by
  unfold State.needsWalk
  rw [like.tlb]

theorem holds (t : Token) : v.holds t = u.holds t := by
  unfold State.holds
  rw [like.slot, like.cur]

theorem exclusive (t : Token) : v.exclusive t = u.exclusive t := by
  unfold State.exclusive
  rw [like.holds]

theorem sendLeaves (head : Nat) : v.sendLeaves true head = u.sendLeaves true head := by
  obtain ⟨tok, h⟩ := like.core
  unfold State.sendLeaves
  rw [h]
  rfl

theorem mayUse (write : Bool) (r : Region) (h : Word) (n : Nat) : v.mayUse write r h n = u.mayUse write r h n := by
  simp only [State.mayUse, State.mayRead, State.mayWrite, State.readRight, State.writeRight, like.sendLeaves, like.part, like.shares,
    like.holds, like.exclusive]

theorem access (h : Word) (n al : Nat) (write : Bool) : v.access h n al write = u.access h n al write := by
  simp only [State.access, like.place, like.tlb, like.partNo, like.locate, like.mayUse]

theorem anyByte (key : Nat) : v.anyByte key = u.anyByte key := by
  unfold State.anyByte State.byte
  obtain ⟨tok, h⟩ := like.at_ ((key - areaBase) / trapAreaSize / 2)
  dsimp only
  rw [h, like.eq_cores]
  rfl

theorem anyBytes (key n : Nat) : v.anyBytes key n = u.anyBytes key n := by
  simp only [State.anyBytes, like.anyByte]

theorem keyOf (h : Word) (n : Nat) : v.keyOf h n = u.keyOf h n := by
  unfold State.keyOf
  rw [like.place, like.cur, like.field Core.run fun _ _ => rfl]

theorem pinnedRange (h : Word) (n : Nat) : v.pinnedRange h n = u.pinnedRange h n := by
  simp only [State.pinnedRange, State.pinnedSize, like.inHandler, like.partNo, like.regionOf]

theorem mayReadTable (h : Word) (n : Nat) : v.mayReadTable h n = u.mayReadTable h n := by
  simp only [State.mayReadTable, like.inHandler, like.partNo, like.regionOf, like.mayUse]

theorem runsAllowed (write : Bool) (runs : List (Nat × Int × Nat)) : v.runsAllowed write runs = u.runsAllowed write runs := by
  simp only [State.runsAllowed, like.inHandler, like.partNo, like.regionOf, like.mayUse]

theorem firstBad (runs : List (Nat × Int × Nat)) : v.firstBad runs = u.firstBad runs := by
  have pinned : v.pinnedSize = u.pinnedSize := by
    funext i
    simp only [State.pinnedSize, like.inHandler, like.partNo, like.regionOf]
  cases runs with
  | nil => rfl
  | cons x rest => simp only [State.firstBad, pinned]

theorem badAt (key n : Nat) : v.badAt key n = u.badAt key n := by
  rw [like.eq_cores]
  rfl

theorem badSource (r : BitVec 1024) (packed ragged : Bool) (blocks : List Word) :
    v.badSource r packed ragged blocks = u.badSource r packed ragged blocks := by
  simp only [State.badSource, like.bcache, like.keyOf, like.badAt]

/-- Both find the same boundary table. -/
theorem boundary (r : BitVec 1024) : (v.boundary r).1 = (u.boundary r).1 := by
  simp only [State.boundary, like.bcache, like.keyOf, like.anyBytes]
  split
  · rfl
  · split
    · rfl
    · split <;> rfl

theorem imageOk (k id : Nat) : v.imageOk k id = u.imageOk k id := by
  unfold State.imageOk
  rw [like.anyBytes]

theorem blockOk (b : List Byte) (id k : Nat) : v.blockOk b id k = u.blockOk b id k := by
  simp only [State.blockOk, like.anyBytes]

end

end Alike

/-- A core with other tables in its boundary cache. -/
def withTables (c : Core) (b : List (Word × BitVec 16 × List Nat)) : Core := { c with bcache := b }

/-- Finding a boundary table changes at most what the boundary cache holds (R234). -/
theorem boundary_frame (s : State) (r : BitVec 1024) :
    (s.boundary r).2.apart = s.apart ∧ ∃ b, (s.boundary r).2.core = withTables s.core b := by
  have stays : s.apart = s.apart ∧ ∃ b, s.core = withTables s.core b := ⟨rfl, _, rfl⟩
  have caches (f : Core → List (Word × BitVec 16 × List Nat)) : (s.modCore fun c => { c with bcache := f c }).apart = s.apart ∧
      ∃ b, (s.modCore fun c => { c with bcache := f c }).core = withTables s.core b := ⟨rfl, _, core_modCore s _⟩
  unfold State.boundary
  dsimp only
  split
  · exact caches fun _ => _
  · split
    · exact stays
    · split
      · exact caches fun _ => _
      · exact stays

end Sys2Proof.Laws
end

section
/-! # A crossing at issue, stage by stage (R163, R164, R178, R179, R229 to R231) -/

namespace Sys2Proof.Proofs

open Sys2Proof.Machine Sys2Proof.Laws

/-! ## The operands of a crossing -/

/-- What a crossing word reads of its registers: its result register, shape register, mode and kind, whether it crosses packed weights
(R178), gA and gB with CADDR and the table's number, the shape record, the coordinates and the receivers of a fan-out (R176). -/
structure CrossOperands where
  d : BitVec 5
  n : BitVec 4
  mode : BitVec 2
  kind : Nat
  packed : Bool
  caddr : Nat
  tabid : Nat
  ga : Word
  gb : Word
  r : BitVec 1024
  c : List Int
  mc : BitVec 4

/-- The operands in state `s`. -/
def crossOperands (s : State) (d a b : BitVec 5) (n : BitVec 4) (mode : BitVec 2) (kind : Nat) : CrossOperands :=
  { d := d, n := n, mode := mode, kind := kind, packed := decide (mode = 2), caddr := bits (s.g a) 0 19, tabid := bits (s.g b) 32 16,
    ga := s.g a, gb := s.g b, r := s.core.shape n.toNat,
    c := (List.range (shpRank (s.core.shape n.toNat))).map fun i => (s.cl.rc i).toInt, mc := BitVec.ofNat 4 s.core.mcmask.toNat }

namespace CrossOperands

variable (o : CrossOperands)

/-- The crossing leaves the cold store (R171). -/
def out : Bool := decide (o.kind = 2)
/-- The record is ragged (R228). -/
def ragged : Bool := decide (shpRagax o.r ≠ 7)
/-- The queue it enters (R163). -/
def queue : QueueId := if o.out then .store else .load
/-- The last cold byte of the footprint, and one. -/
def whole : Nat := o.caddr + rowCount o.r * rowBytes o.r o.packed
/-- The length of the table read at issue. -/
def tlen : Nat := tableBytes o.r o.packed

theorem queue_ne_string : o.queue ≠ .string := by
  unfold queue
  split_ifs <;> decide

/-- The rows as boundary table `starts` plans them; a ragged record whose table cannot be read plans none (log 53). -/
def rows (blind : Option Nat) (starts : Option (List Nat)) : List RowPlan :=
  (List.range (rowCount o.r)).map fun i => if o.ragged ∧ blind.isSome then ⟨false, false, 0⟩ else planRow o.r o.c o.mode starts i

/-- The rows where the table is read (R229, R230). -/
def plan (starts : Option (List Nat)) : List RowPlan := (List.range (rowCount o.r)).map fun i => planRow o.r o.c o.mode starts i

theorem rows_sound (starts : Option (List Nat)) : o.rows none starts = o.plan starts :=
  List.map_congr_left fun _ _ => if_neg fun h => absurd h.2 Bool.false_ne_true

/-- The packed blocks of the rows (R179). -/
def blocks (rows : List RowPlan) : List (Nat × Nat × Word) := if o.packed then blockList o.r o.c rows else []

/-- The warm runs of the rows (R165). -/
def runs (rows : List RowPlan) : List (Nat × Int × Nat) := warmRuns o.r o.c o.packed rows

/-- An operand register is malformed (R163). -/
abbrev Malformed : Prop :=
  bits o.ga 23 41 ≠ 0 ∨ bits o.gb 48 16 ≠ 0 ∨ o.caddr % 32 ≠ 0 ∨ (!o.packed ∧ o.tabid ≠ 0) ∨ (o.kind = 1 ∧ o.mc = 0)

end CrossOperands

/-- The region of a warm run's first byte (R14). -/
def regionAt (a : Int) : Nat := (a / 4503599627370496).toNat % 4096

/-- The region of the first of a crossing's warm runs. -/
def firstRegion : List (Nat × Int × Nat) → Option Nat
  | x :: _ => some (regionAt x.2.1)
  | [] => none

/-- The bytes of the packed block at `h` (R67, R179). -/
def blockAt (s : State) (h : Word) : List Byte :=
  match s.keyOf h 576 with
  | some k => s.anyBytes k 576
  | none => []

/-- The home of the codebook image (R178). -/
def imageOf (o : CrossOperands) (s : State) : Nat := (s.keyOf (shpBtab o.r) o.tlen).getD 0

/-! ## The stages

Each stage ends in a trap or a wait of its own or goes on to the one after it; `crossWord_eq` ties them to the model's word. The state `s`
is the one the word issues in, `t` that state with the boundary table cached, `blind` the bad line that keeps the crossing from what it
would read. -/

section
variable (o : CrossOperands) (s t : State) (blind : Option Nat)

/-- The snapshot of R164 and R185. -/
def crossingOf (rows : List RowPlan) : Crossing :=
  { seq := t.core.xseq, level := s.core.level, joined := !s.cl.split, kind := BitVec.ofNat 2 o.kind, warm := s.warm,
    stamp := s.core.stampOf o.queue (s.scnt + bits o.gb 0 32), shape := o.r, coord := o.c, cold := o.ga, mode := o.mode, rows := rows,
    recv := if o.kind = 1 then o.mc else BitVec.ofNat 4 (2 ^ (s.cur % 4)),
    lost := blind <|> (o.blocks rows).findSome? (fun x => s.badSource o.r false false [x.2.2]),
    staged := (o.blocks rows).map fun y => (blockAt s y.2.2).take 544,
    charge := crossCharge o.r o.c o.packed o.kind (receivers o.mc) o.caddr rows }

/-- The crossing `x` enters its queue and stands among those outstanding, unless it is killed or reissued. -/
def queueCrossing (x : Crossing) : State :=
  (t.enqueue o.queue (.crossing t.core.xseq)).modCore fun k =>
    { k.retainValue o.queue (s.core.issued o.queue + 1) (word x.stamp) with
      xseq := t.core.xseq + 1, xkinds := Sp.set 0 k.xkinds t.core.xseq (BitVec.ofNat 2 o.kind),
      xings := if s.cl.killed || s.core.reissues o.queue then k.xings else k.xings ++ [x] }

/-- The first malformed block in box order, of those that can be read (R178, log 53). -/
def badBlock (rows : List RowPlan) : Option (Nat × Nat × Word) :=
  (o.blocks rows).find? fun x => blind.isNone && (s.badSource o.r false false [x.2.2]).isNone &&
    !s.blockOk (blockAt s x.2.2) o.tabid (imageOf o s)

/-- The cold store's size, the codebook image and the packed blocks (R163, R178); then the crossing is queued. -/
def crossQueue (rows : List RowPlan) : Perform :=
  if s.core.slot.cquota.toNat < o.whole ∨ (!o.out ∧ s.core.inHandler) then .trap 0x0E s.wordHandle
  else if o.packed ∧ blind.isNone ∧ !s.imageOk (imageOf o s) o.tabid then .trap 0x0F (shpBtab o.r)
  else match badBlock o s blind rows with
  | some x => .trap 0x0F x.2.2
  | none => .done ((queueCrossing o s t (crossingOf o s t blind rows)).writeG o.d (cancelHandle t.core.xseq o.kind) 1)

/-- Where a row spans a boundary under FAULT (R231). -/
def spanFault (starts : Option (List Nat)) : Option Word :=
  if o.ragged ∧ blind.isNone ∧ shpBmode o.r = 0 then firstSpan o.r o.c (starts.getD []) (o.rows blind starts) else none

/-- Range, rights and boundaries of the rows (R163, R231). -/
def crossRows (starts : Option (List Nat)) : Perform :=
  let rows := o.rows blind starts
  let runs := o.runs rows
  if (firstRegion runs).any s.needsWalk then .hold (s.walk ((firstRegion runs).getD 0))
  else match s.firstBad runs with
  | some bad => .trap 0x08 bad
  | none =>
    if (o.ragged ∨ o.packed) ∧ !s.mayReadTable (shpBtab o.r) o.tlen then .trap 0x09 (handleOf (regionIdx (shpBtab o.r)) 0)
    else if !s.runsAllowed o.out runs then .trap 0x09 (handleOf ((firstRegion runs).getD 0) 0)
    else match spanFault o blind starts with
    | some h => .trap 0x0D h
    | none => crossQueue o s t blind rows

/-- Where the table read at issue is out of range (R163, R178). -/
def tableFault : Option Word :=
  if o.ragged ∨ o.packed then
    (if o.packed ∧ (shpBtab o.r).toNat % 16 ≠ 0 then some (shpBtab o.r) else s.pinnedRange (shpBtab o.r) o.tlen)
  else none

/-- The table read at issue (R163, R227). -/
def crossTable : Perform :=
  if (o.ragged ∨ o.packed) ∧ s.needsWalk (regionIdx (shpBtab o.r)) then .hold (s.walk (regionIdx (shpBtab o.r)))
  else match tableFault o s with
  | some bad => .trap 0x08 bad
  | none =>
    let blind := s.badSource o.r o.packed o.ragged []
    let found := if o.ragged ∧ blind.isNone then s.boundary o.r else (none, s)
    if o.ragged ∧ blind.isNone ∧ found.1.isNone then .trap 0x0C s.wordHandle
    else crossRows o s found.2 blind found.1

/-- Room, the operand registers and the shape (R163). -/
def crossIssue : Perform :=
  if !s.room o.queue ∨ Config.outstanding ≤ s.core.outstanding ∨ s.shpPending o.n then .hold s
  else if o.Malformed then .trap 0x0B s.wordHandle
  else if !shapeSuits o.r o.c o.mode o.out then .trap 0x0C s.wordHandle
  else crossTable o s

end

theorem crossWord_eq (sy : BitVec 1) (dep : BitVec 4) (d a b : BitVec 5) (n : BitVec 4) (mode : BitVec 2) (kind : Nat) (s : State) :
    crossWord sy dep d a b n mode kind s = Machine.control sy dep ([gR a, gR b] ++ (List.range 7).map RegRef.c) [gR d] s
      fun s => crossIssue (crossOperands s d a b n mode kind) s := rfl

end Sys2Proof.Proofs
end

section
/-! # What each stage of a crossing's issue comes to (R163, R178, R227, R231) -/

namespace Sys2Proof.Proofs

open Sys2Proof.Machine Sys2Proof.Laws

theorem blockAt_alike {s u : State} (like : Alike s u) (h : Word) : blockAt u h = blockAt s h := by
  unfold blockAt
  rw [like.keyOf]
  cases s.keyOf h 576 with
  | none => rfl
  | some k => exact like.anyBytes k 576

theorem tableFault_alike {s u : State} (like : Alike s u) (o : CrossOperands) : tableFault o u = tableFault o s := by
  unfold tableFault
  rw [like.pinnedRange]

theorem crossOperands_alike {s u : State} (like : Alike s u) (d a b : BitVec 5) (n : BitVec 4) (mode : BitVec 2) (kind : Nat) :
    crossOperands u d a b n mode kind = crossOperands s d a b n mode kind := by
  unfold crossOperands State.g
  rw [like.cl, like.field (fun c => c.shape n.toNat) fun _ _ => rfl, like.field (fun c => c.mcmask) fun _ _ => rfl]

section
variable {s u t : State} (like : Alike s u) {o : CrossOperands}
include like

/-! ## Room, the operand registers and the shape -/

section
variable (hl : s.core.lq.length < 32) (hs : s.core.sq.length < 32) (few : s.core.outstanding < 512) (idle : s.core.shpBusy = [])
include hl hs few idle

theorem crossing_has_room : ¬(!u.room o.queue ∨ Config.outstanding ≤ u.core.outstanding ∨ u.shpPending o.n) := by
  have room : u.room o.queue = true := by
    unfold State.room CrossOperands.queue
    obtain ⟨tok, h⟩ := like.core
    rw [h]
    cases o.out with
    | true => exact decide_eq_true hs
    | false => exact decide_eq_true hl
  have pending : u.shpPending o.n = false := by
    unfold State.shpPending
    rw [like.field (fun c => c.shpBusy) fun _ _ => rfl, idle]
    rfl
  rw [room, pending, like.field Core.outstanding fun _ _ => rfl]
  rintro (full | many | busy)
  · exact Bool.false_ne_true full
  · exact Nat.not_le.2 few many
  · exact Bool.false_ne_true busy

theorem crossIssue_malformed (bad : o.Malformed) : crossIssue o u = .trap 0x0B s.wordHandle := by
  unfold crossIssue
  rw [if_neg (crossing_has_room like hl hs few idle), if_pos bad, like.wordHandle]

theorem crossIssue_unsuited (good : ¬o.Malformed) (unsuited : shapeSuits o.r o.c o.mode o.out = false) :
    crossIssue o u = .trap 0x0C s.wordHandle := by
  unfold crossIssue
  rw [if_neg (crossing_has_room like hl hs few idle), if_neg good, unsuited, like.wordHandle]
  rfl

theorem crossIssue_suits (good : ¬o.Malformed) (suits : shapeSuits o.r o.c o.mode o.out = true) : crossIssue o u = crossTable o u := by
  unfold crossIssue
  rw [if_neg (crossing_has_room like hl hs few idle), if_neg good, suits, if_neg (by decide)]

end

/-! ## The table read at issue -/

omit like in
/-- A crossing that reads no table meets no bad line in one. -/
theorem badSource_dense (r : BitVec 1024) : u.badSource r false false [] = none := by
  unfold State.badSource
  simp

omit like in
theorem crossTable_dense (even : o.ragged = false) (plain : o.packed = false) : crossTable o u = crossRows o u u none none := by
  unfold crossTable tableFault
  rw [even, plain, badSource_dense]
  simp

section
variable (near : s.needsWalk (regionIdx (shpBtab o.r)) = false)
include near

theorem crossTable_fault {bad : Word} (fault : tableFault o s = some bad) : crossTable o u = .trap 0x08 bad := by
  unfold crossTable
  rw [like.needsWalk, near, tableFault_alike like, fault]
  simp

variable (inRange : tableFault o s = none) (sound : s.badSource o.r o.packed o.ragged [] = none)
include inRange sound

theorem crossTable_malformed (ragged : o.ragged = true) (malformed : (s.boundary o.r).1 = none) : crossTable o u = .trap 0x0C s.wordHandle := by
  unfold crossTable
  rw [like.needsWalk, near, tableFault_alike like, inRange, like.badSource, sound, like.wordHandle, ragged]
  simp [like.boundary, malformed]

theorem crossTable_planned (ragged : o.ragged = true) {st : List Nat} (found : (s.boundary o.r).1 = some st) :
    crossTable o u = crossRows o u (u.boundary o.r).2 none (some st) := by
  unfold crossTable
  rw [like.needsWalk, near, tableFault_alike like, inRange, like.badSource, sound, ragged]
  simp [like.boundary, found]

theorem crossTable_image (even : o.ragged = false) : crossTable o u = crossRows o u u none none := by
  unfold crossTable
  rw [like.needsWalk, near, tableFault_alike like, inRange, like.badSource, sound, even]
  simp

end

/-! ## The rows -/

section
variable {starts : Option (List Nat)} (near : ∀ x ∈ o.runs (o.plan starts), s.needsWalk (regionAt x.2.1) = false)
include near

theorem first_run_near : ¬(firstRegion (o.runs (o.plan starts))).any u.needsWalk = true := by
  cases runs : o.runs (o.plan starts) with
  | nil => exact Bool.false_ne_true
  | cons x rest =>
    rw [runs] at near
    have walked : u.needsWalk (regionAt x.2.1) = false := (like.needsWalk _).trans (near x List.mem_cons_self)
    exact Bool.eq_false_iff.1 walked

theorem crossRows_outside {bad : Word} (fault : s.firstBad (o.runs (o.plan starts)) = some bad) :
    crossRows o u t none starts = .trap 0x08 bad := by
  unfold crossRows
  dsimp only
  rw [o.rows_sound, if_neg (first_run_near like near), like.firstBad, fault]

variable (inRange : s.firstBad (o.runs (o.plan starts)) = none)
include inRange

theorem crossRows_table_unowned (tabled : o.ragged = true ∨ o.packed = true) (unowned : s.mayReadTable (shpBtab o.r) o.tlen = false) :
    crossRows o u t none starts = .trap 0x09 (handleOf (regionIdx (shpBtab o.r)) 0) := by
  unfold crossRows
  dsimp only
  rw [o.rows_sound, if_neg (first_run_near like near), like.firstBad, inRange, like.mayReadTable, unowned]
  simp [tabled]

variable (readable : o.ragged = true ∨ o.packed = true → s.mayReadTable (shpBtab o.r) o.tlen = true)
include readable

omit like near inRange in
theorem table_readable : ¬((o.ragged = true ∨ o.packed = true) ∧ (!s.mayReadTable (shpBtab o.r) o.tlen) = true) := fun h => by
  rw [readable h.1] at h
  exact Bool.false_ne_true h.2

theorem crossRows_unowned {x : Nat × Int × Nat} {rest : List (Nat × Int × Nat)} (runs : o.runs (o.plan starts) = x :: rest)
    (unowned : s.runsAllowed o.out (o.runs (o.plan starts)) = false) : crossRows o u t none starts = .trap 0x09 (handleOf (regionAt x.2.1) 0) := by
  unfold crossRows
  dsimp only
  rw [o.rows_sound, if_neg (first_run_near like near), like.firstBad, inRange, like.mayReadTable, like.runsAllowed, unowned]
  dsimp only
  rw [if_neg (table_readable readable), runs]
  rfl

variable (owned : s.runsAllowed o.out (o.runs (o.plan starts)) = true)
include owned

theorem crossRows_spans {h : Word} (spans : spanFault o none starts = some h) : crossRows o u t none starts = .trap 0x0D h := by
  unfold crossRows
  dsimp only
  rw [o.rows_sound, if_neg (first_run_near like near), like.firstBad, inRange, like.mayReadTable, like.runsAllowed, owned, spans]
  dsimp only
  rw [if_neg (table_readable readable)]
  rfl

theorem crossRows_within (within : spanFault o none starts = none) :
    crossRows o u t none starts = crossQueue o u t none (o.plan starts) := by
  unfold crossRows
  dsimp only
  rw [o.rows_sound, if_neg (first_run_near like near), like.firstBad, inRange, like.mayReadTable, like.runsAllowed, owned, within]
  dsimp only
  rw [if_neg (table_readable readable)]
  rfl

end

omit like in
theorem spanFault_ragged (ragged : o.ragged = true) (mode : shpBmode o.r = 0) (st : List Nat) :
    spanFault o none (some st) = firstSpan o.r o.c st (o.plan (some st)) := by
  unfold spanFault
  rw [o.rows_sound, if_pos ⟨ragged, rfl, mode⟩, Option.getD_some]

omit like in
/-- A dense record has no boundaries to span, and one under a mode other than FAULT may span them. -/
theorem spanFault_none (free : ¬(o.ragged = true ∧ shpBmode o.r = 0)) (starts : Option (List Nat)) : spanFault o none starts = none :=
  if_neg fun h => free ⟨h.1, h.2.2⟩

omit like in
theorem spanFault_within (ragged : o.ragged = true) {st : List Nat} (within : shpBmode o.r = 0 → firstSpan o.r o.c st (o.plan (some st)) = none) :
    spanFault o none (some st) = none := by
  by_cases mode : shpBmode o.r = 0
  · rw [spanFault_ragged ragged mode, within mode]
  · exact spanFault_none (fun h => mode h.2) _

/-! ## The cold store, the image, the blocks -/

theorem crossQueue_overflows {rows : List RowPlan} (large : s.core.slot.cquota.toNat < o.whole) :
    crossQueue o u t none rows = .trap 0x0E s.wordHandle := by
  unfold crossQueue
  rw [like.slot, if_pos (Or.inl large), like.wordHandle]

section
variable {rows : List RowPlan} (fits : o.whole ≤ s.core.slot.cquota.toNat) (task : s.core.inHandler = false)
include fits task

theorem crossQueue_fits : ¬(u.core.slot.cquota.toNat < o.whole ∨ (!o.out ∧ u.core.inHandler)) := by
  rw [like.slot, like.inHandler, task]
  rintro (large | ⟨-, handler⟩)
  · omega
  · exact Bool.false_ne_true handler

/-- Every check passed, the word queues the crossing and writes its handle (R164, R185). -/
def crossed (o : CrossOperands) (u t : State) (rows : List RowPlan) : State :=
  (queueCrossing o u t (crossingOf o u t none rows)).writeG o.d (cancelHandle t.core.xseq o.kind) 1

theorem crossQueue_dense (plain : o.packed = false) : crossQueue o u t none rows = .done (crossed o u t rows) := by
  unfold crossQueue badBlock CrossOperands.blocks
  rw [if_neg (crossQueue_fits like fits task), plain]
  rfl

omit fits task in
theorem imageOf_alike : imageOf o u = imageOf o s := by
  unfold imageOf
  rw [like.keyOf]

theorem crossQueue_bad_image (packed : o.packed = true) (bad : s.imageOk (imageOf o s) o.tabid = false) :
    crossQueue o u t none rows = .trap 0x0F (shpBtab o.r) := by
  unfold crossQueue
  rw [if_neg (crossQueue_fits like fits task), packed, imageOf_alike like, like.imageOk, bad]
  rfl

variable (good : s.imageOk (imageOf o s) o.tabid = true) (sound : ∀ x ∈ o.blocks rows, s.badSource o.r false false [x.2.2] = none)

omit fits task in
include sound in
theorem badBlock_sound : badBlock o u none rows = (o.blocks rows).find? fun x => !s.blockOk (blockAt s x.2.2) o.tabid (imageOf o s) :=
  List.find?_congr fun x hx => by
    rw [like.badSource, sound x hx, like.blockOk, blockAt_alike like, imageOf_alike like]
    rfl

include good sound

theorem crossQueue_good_image {found : Option (Nat × Nat × Word)}
    (first : ((o.blocks rows).find? fun x => !s.blockOk (blockAt s x.2.2) o.tabid (imageOf o s)) = found) : crossQueue o u t none rows =
      found.elim (.done (crossed o u t rows)) fun x => .trap 0x0F x.2.2 := by
  unfold crossQueue
  rw [if_neg (crossQueue_fits like fits task), badBlock_sound like sound, first, imageOf_alike like, like.imageOk, good,
    if_neg fun h => Bool.false_ne_true h.2.2]
  cases found <;> rfl

theorem crossQueue_packed (whole : ∀ x ∈ o.blocks rows, s.blockOk (blockAt s x.2.2) o.tabid (imageOf o s) = true) :
    crossQueue o u t none rows = .done (crossed o u t rows) :=
  crossQueue_good_image like fits task good sound (List.find?_eq_none.2 fun x hx => by rw [whole x hx]; exact Bool.false_ne_true)

theorem crossQueue_bad_block {x : Nat × Nat × Word} {pre post : List (Nat × Nat × Word)} (at_ : o.blocks rows = pre ++ x :: post)
    (before : ∀ y ∈ pre, s.blockOk (blockAt s y.2.2) o.tabid (imageOf o s) = true)
    (bad : s.blockOk (blockAt s x.2.2) o.tabid (imageOf o s) = false) : crossQueue o u t none rows = .trap 0x0F x.2.2 :=
  crossQueue_good_image like fits task good sound
    (List.find?_eq_some_iff_append.2 ⟨by rw [bad]; rfl, pre, post, at_, fun y hy => by rw [before y hy]; rfl⟩)

end

end

end Sys2Proof.Proofs
end

section
/-! # O19: a crossing in its queue, and the operands of its word (R161, R163, R164, R185) -/

namespace Sys2Proof.Proofs

open Sys2Proof.Machine Sys2Proof.Laws

/-! ## The crossing in its queue (R164, R185) -/

/-- The core `c` with the entry `e` at the tail of queue `q`, the crossing `x` among those outstanding and one more crossing counted; the
tokens, the cached tables, the replay window and the kinds of crossings are those given. -/
def withCrossing (c : Core) (q : QueueId) (e : QEntry) (x : Crossing) (tok : Sp Fifo) (tables : List (Word × BitVec 16 × List Nat))
    (win : Option Window) (kinds : Sp (BitVec 2)) : Core :=
  { withEntryAt c q e win with tok := tok, bcache := tables, xseq := c.xseq + 1, xkinds := kinds, xings := c.xings ++ [x] }

section
variable (c : Core) {q : QueueId} (e : QEntry) (x : Crossing) (tok : Sp Fifo) (tables : List (Word × BitVec 16 × List Nat))
  (win : Option Window) (kinds : Sp (BitVec 2))

theorem queue_withCrossing (hq : q ≠ .string) : (withCrossing c q e x tok tables win kinds).queue q = c.queue q ++ [e] := by
  have stays : (withCrossing c q e x tok tables win kinds).queue q = (withEntryAt c q e win).queue q := by cases q <;> rfl
  exact stays.trans (withEntryAt_tail c e win hq).1

theorem withCrossing_leaves : (withCrossing c q e x tok tables win kinds).cold = c.cold ∧
    (withCrossing c q e x tok tables win kinds).l1d = c.l1d ∧ ∀ l, (withCrossing c q e x tok tables win kinds).cluster l = c.cluster l := by
  obtain ⟨clusters, cold, l1d, -⟩ := withEntryAt_frame c (q := q) e win
  have stays (l : Lane) : (withCrossing c q e x tok tables win kinds).cluster l = (withEntryAt c q e win).cluster l := by cases l <;> rfl
  exact ⟨cold, l1d, fun l => (stays l).trans (clusters l)⟩

end

section
variable {o : CrossOperands} {s u t : State} (like : Alike s u) (direct : s.core.replay = none) (loops : s.cl.loops = [])
include like direct loops

theorem crossing_lives : (u.cl.killed || u.core.reissues o.queue) = false := by
  have killed : s.cl.killed = false := by
    unfold Cluster.killed
    rw [loops]
    rfl
  have fresh : s.core.reissues o.queue = false := by
    unfold Core.reissues Core.replays
    rw [direct]
  rw [like.cl, killed, like.field (fun c => c.reissues o.queue) fun _ _ => by cases o.queue <;> rfl, fresh]
  rfl

theorem core_queueCrossing (cached : ∃ b, t.core = withTables u.core b) (x : Crossing) : ∃ e tok tables win kinds,
    e.op = .crossing s.core.xseq ∧ (queueCrossing o u t x).core = withCrossing s.core o.queue e x tok tables win kinds := by
  obtain ⟨tok, h⟩ := like.core
  obtain ⟨tables, found⟩ := cached
  rw [h] at found
  have number : t.core.xseq = s.core.xseq := by
    rw [found]
    rfl
  obtain ⟨win, entered⟩ := core_enqueue t o.queue (.crossing t.core.xseq)
  rw [number] at entered
  refine ⟨entryFor t o.queue (.crossing s.core.xseq), tok, tables,
    ((withEntryAt s.core o.queue (entryFor t o.queue (.crossing s.core.xseq)) win).retainValue o.queue (u.core.issued o.queue + 1)
      (word x.stamp)).win, Sp.set 0 s.core.xkinds s.core.xseq (BitVec.ofNat 2 o.kind), rfl, (core_modCore _ _).trans ?_⟩
  rw [crossing_lives like direct loops, number, entered]
  generalize entryFor t o.queue (.crossing s.core.xseq) = e
  generalize s.core = c at found ⊢
  rw [found]
  cases o.queue <;> rfl

theorem queueCrossing_enters (cached : ∃ b, t.core = withTables u.core b) (x : Crossing) :
    let w := (queueCrossing o u t x).core
    ∃ e, w.queue o.queue = s.core.queue o.queue ++ [e] ∧ e.op = .crossing s.core.xseq ∧ w.xings = s.core.xings ++ [x] ∧
      w.xseq = s.core.xseq + 1 ∧ w.cold = s.core.cold ∧ w.l1d = s.core.l1d ∧ ∀ l, w.cluster l = s.core.cluster l := by
  obtain ⟨e, tok, tables, win, kinds, op, core⟩ := core_queueCrossing like direct loops cached x
  obtain ⟨cold, l1d, clusters⟩ := withCrossing_leaves s.core (q := o.queue) e x tok tables win kinds
  rw [core]
  exact ⟨e, queue_withCrossing _ _ _ _ _ _ _ o.queue_ne_string, op, rfl, rfl, cold, l1d, clusters⟩

end

/-! ## The word (R163) -/

theorem caddr_low (v : Word) : bits v 0 19 % 32 = bits v 0 5 := by
  unfold bits
  omega

section
variable {sy : BitVec 1} {dep n : BitVec 4} {d a b : BitVec 5} {mode : BitVec 2} {s : State}

theorem operands_wellFormed {kind : Nat} (high : (s.g a).extractLsb' 23 41 = 0) (low : (s.g a).extractLsb' 0 5 = 0)
    (top : (s.g b).extractLsb' 48 16 = 0) (mask : kind = 1 → s.core.mcmask.toNat % 16 ≠ 0)
    (table : mode ≠ 2 → ((s.g b).extractLsb' 32 16).toNat = 0) : ¬(crossOperands s d a b n mode kind).Malformed := by
  rw [← bits_eq_zero_iff] at high low top
  rw [← bits_eq_extractLsb'] at table
  rintro (h | h | h | ⟨plain, h⟩ | ⟨fan, h⟩)
  · exact h high
  · exact h top
  · exact h ((caddr_low _).trans low)
  · exact h (table (by simpa [crossOperands] using plain))
  · exact mask fan (by simpa [crossOperands] using congrArg BitVec.toNat h)

theorem operands_malformed {kind : Nat}
    (bad : (s.g a).extractLsb' 23 41 ≠ 0 ∨ (s.g b).extractLsb' 48 16 ≠ 0 ∨ (s.g a).extractLsb' 0 5 ≠ 0) :
    (crossOperands s d a b n mode kind).Malformed := by
  simp only [Ne, ← bits_eq_zero_iff] at bad
  obtain high | top | low := bad
  · exact Or.inl high
  · exact Or.inr (Or.inl top)
  · exact Or.inr (Or.inr (Or.inl ((caddr_low _).trans_ne low)))

end

/-- The outcome of instruction `i` is the trap `code` at `addr`: it is not performed. -/
def Traps (s : State) (i : Instr) (code : Nat) (addr : Word) : Prop := exec i s = .next (s.wordTrap code addr)

/-- Instruction `i`, a crossing of kind `kind` with operands `o`, writes gD with its cancel handle, enters its queue and keeps the snapshot
of R164 with the rows `plan` and the blocks `staged`; nothing else changes. -/
def IssuesCrossing (s : State) (i : Instr) (sy : BitVec 1) (d : BitVec 5) (kind : BitVec 2) (o : CrossOperands) (plan : List RowPlan)
    (staged : List (List Byte)) : Prop :=
  ∃ (w : State) (x : Crossing) (e : QEntry), WritesG w (exec i s) sy d (cancelHandle s.core.xseq kind.toNat) 1 none ∧
    w.apart = s.apart ∧ w.core.xings = s.core.xings ++ [x] ∧ x.seq = s.core.xseq ∧ w.core.xseq = s.core.xseq + 1 ∧ x.kind = kind ∧
    x.warm = s.warm ∧ x.stamp = s.scnt + (o.gb.extractLsb' 0 32).toNat ∧ x.shape = o.r ∧ x.coord = o.c ∧ x.cold = o.ga ∧
    x.admitted = false ∧ x.due = none ∧ x.captured = none ∧ x.lost = none ∧ x.rows = plan ∧ x.staged = staged ∧
    w.core.queue o.queue = s.core.queue o.queue ++ [e] ∧ e.op = .crossing s.core.xseq ∧ w.core.cold = s.core.cold ∧
    w.core.l1d = s.core.l1d ∧ ∀ l, w.core.cluster l = s.core.cluster l

/-- In state `s`, of a task that runs neither a loop nor a replay, instruction `i` is a crossing of kind `kind` with operands `o`; its
registers are there and it passes the checks up to its shape. -/
structure Crosses (s : State) (i : Instr) (sy : BitVec 1) (dep : BitVec 4) (d a b : BitVec 5) (n : BitVec 4) (mode kind : BitVec 2)
    (o : CrossOperands) : Prop where
  run : exec i s = crossWord sy dep d a b n mode kind.toNat s
  ready : s.Issues dep ([gR a, gR b] ++ (List.range 7).map RegRef.c) [gR d]
  operands : crossOperands s d a b n mode kind.toNat = o
  suits : crossIssue o (s.takeDeps dep) = crossTable o (s.takeDeps dep)
  direct : s.core.replay = none
  loops : s.cl.loops = []
  task : s.core.inHandler = false

theorem crossWord_traps {sy : BitVec 1} {dep n : BitVec 4} {d a b : BitVec 5} {mode : BitVec 2} {s : State} {kind code : Nat} {addr : Word}
    (ready : s.Issues dep ([gR a, gR b] ++ (List.range 7).map RegRef.c) [gR d])
    (h : crossIssue (crossOperands s d a b n mode kind) (s.takeDeps dep) = .trap code addr) :
    crossWord sy dep d a b n mode kind s = .next (s.wordTrap code addr) := by
  rw [crossWord_eq]
  refine control_traps ready ?_
  rw [crossOperands_alike (alike_takeDeps s dep)]
  exact h

namespace Crosses

section
variable {s : State} {i : Instr} {sy : BitVec 1} {dep n : BitVec 4} {d a b : BitVec 5} {mode kind : BitVec 2} {o : CrossOperands}
  (cross : Crosses s i sy dep d a b n mode kind o)
include cross

theorem traps {code : Nat} {addr : Word} (h : crossTable o (s.takeDeps dep) = .trap code addr) : Traps s i code addr := by
  refine cross.run.trans (crossWord_traps cross.ready ?_)
  rw [cross.operands, cross.suits, h]

theorem issues {t : State} {rows : List RowPlan} (pod : t.apart = s.apart)
    (cached : ∃ tables, t.core = withTables (s.takeDeps dep).core tables)
    (sound : ∀ x ∈ o.blocks rows, s.badSource o.r false false [x.2.2] = none)
    (h : crossTable o (s.takeDeps dep) = .done (crossed o (s.takeDeps dep) t rows)) :
    IssuesCrossing s i sy d kind o rows ((o.blocks rows).map fun y => (blockAt s y.2.2).take 544) := by
  have like := alike_takeDeps s dep
  have number : t.core.xseq = s.core.xseq := by
    obtain ⟨tables, found⟩ := cached
    exact (congrArg Core.xseq found).trans (like.field Core.xseq fun _ _ => rfl)
  have hkind : o.kind = kind.toNat := by rw [← cross.operands]; rfl
  have hd : o.d = d := by rw [← cross.operands]; rfl
  obtain ⟨e, queue, op, xings, xseq, left⟩ :=
    queueCrossing_enters like cross.direct cross.loops cached (crossingOf o (s.takeDeps dep) t none rows)
  have stamp := (stampOf_takeDeps cross.direct dep o.queue _).trans (congrArg (s.scnt + ·) (bits_eq_extractLsb' o.gb 0 32))
  have lost := List.findSome?_eq_none_iff.2 fun x hx => (like.badSource o.r false false [x.2.2]).trans (sound x hx)
  refine ⟨queueCrossing o (s.takeDeps dep) t (crossingOf o (s.takeDeps dep) t none rows), _, e, ?_, pod, xings, number, xseq,
    (congrArg (BitVec.ofNat 2) hkind).trans (BitVec.ofNat_toNat 2 kind), warm_takeDeps s dep, stamp, rfl, rfl, rfl, rfl, rfl, rfl, lost, rfl,
    List.map_congr_left fun y _ => congrArg (List.take 544) (blockAt_alike like y.2.2), queue, op, left⟩
  rw [cross.run, crossWord_eq, control_ready cross.ready.1 cross.ready.2, crossOperands_alike like, cross.operands, cross.suits, h, crossed,
    number, hkind, hd]
  exact writesG_of (Writes.refl _)

end

end Crosses

end Sys2Proof.Proofs
end

section
/-! # O19: the checks of a crossing in order, and its entry in the queue (R161, R163, R178, R227, R229 to R231) -/

namespace Sys2Proof.Proofs

open Sys2Proof.Machine Sys2Proof.Laws

namespace Crosses

section
variable {s : State} {i : Instr} {sy : BitVec 1} {dep n : BitVec 4} {d a b : BitVec 5} {mode kind : BitVec 2} {o : CrossOperands}
  (cross : Crosses s i sy dep d a b n mode kind o)
include cross

/-! ## Dense and ragged records -/

section
variable (plain : o.packed = false) {starts : Option (List Nat)} {t : State} (pod : t.apart = s.apart)
  (cached : ∃ tables, t.core = withTables (s.takeDeps dep).core tables)
  (reach : crossTable o (s.takeDeps dep) = crossRows o (s.takeDeps dep) t none starts)
  (near : ∀ x ∈ o.runs (o.plan starts), s.needsWalk (regionAt x.2.1) = false) (inRange : s.firstBad (o.runs (o.plan starts)) = none)
  (readable : o.ragged = true ∨ o.packed = true → s.mayReadTable (shpBtab o.r) o.tlen = true)
  (owned : s.runsAllowed o.out (o.runs (o.plan starts)) = true) (within : spanFault o none starts = none)
include plain pod cached reach near inRange readable owned within

/-- Planned rows in range, owned and within their sequences cross where the cold store holds them. -/
theorem plain_by_quota : (s.core.slot.cquota.toNat < o.whole → Traps s i 0x0E s.wordHandle) ∧
    (o.whole ≤ s.core.slot.cquota.toNat → IssuesCrossing s i sy d kind o (o.plan starts) []) := by
  have like := alike_takeDeps s dep
  have through := reach.trans (crossRows_within like near inRange readable owned within)
  have blocks : o.blocks (o.plan starts) = [] := if_neg (by rw [plain]; exact Bool.false_ne_true)
  refine ⟨fun large => cross.traps (through.trans (crossQueue_overflows like large)), fun fits => ?_⟩
  have issues := cross.issues pod cached (fun x hx => by rw [blocks] at hx; cases hx)
    (through.trans (crossQueue_dense like fits cross.task plain))
  rw [blocks] at issues
  exact issues

end

/-- A dense record (R163). -/
theorem dense (plain : o.packed = false) (even : o.ragged = false)
    (near : ∀ x ∈ o.runs (o.plan none), s.needsWalk (regionAt x.2.1) = false) :
    (∀ bad, s.firstBad (o.runs (o.plan none)) = some bad → Traps s i 0x08 bad) ∧
    (s.firstBad (o.runs (o.plan none)) = none →
      (∀ x rest, o.runs (o.plan none) = x :: rest → s.runsAllowed o.out (o.runs (o.plan none)) = false →
        Traps s i 0x09 (handleOf (regionAt x.2.1) 0)) ∧
      (s.runsAllowed o.out (o.runs (o.plan none)) = true →
        (s.core.slot.cquota.toNat < o.whole → Traps s i 0x0E s.wordHandle) ∧
        (o.whole ≤ s.core.slot.cquota.toNat → IssuesCrossing s i sy d kind o (o.plan none) []))) := by
  have like := alike_takeDeps s dep
  have reach := crossTable_dense (u := s.takeDeps dep) even plain
  have noTable (h : o.ragged = true ∨ o.packed = true) : s.mayReadTable (shpBtab o.r) o.tlen = true := by
    rw [even, plain] at h
    exact absurd h (by decide)
  refine ⟨fun bad outside => cross.traps (reach.trans (crossRows_outside like near outside)), fun inRange => ⟨fun x rest first unowned => ?_,
    fun owned => ?_⟩⟩
  · exact cross.traps (reach.trans (crossRows_unowned like near inRange noTable first unowned))
  · exact cross.plain_by_quota plain like.pod ⟨_, rfl⟩ reach near inRange noTable owned
      (spanFault_none (fun h => Bool.false_ne_true (even.symm.trans h.1)) none)

/-- A ragged record, by its boundary table (R227, R229 to R231). -/
theorem ragged (plain : o.packed = false) (ragged : o.ragged = true) (near : s.needsWalk (regionIdx (shpBtab o.r)) = false) (st : List Nat) :
    (∀ bad, s.pinnedRange (shpBtab o.r) o.tlen = some bad → Traps s i 0x08 bad) ∧
    (s.pinnedRange (shpBtab o.r) o.tlen = none → s.badSource o.r false true [] = none →
      ((s.boundary o.r).1 = none → Traps s i 0x0C s.wordHandle) ∧
      ((s.boundary o.r).1 = some st → (∀ x ∈ o.runs (o.plan (some st)), s.needsWalk (regionAt x.2.1) = false) →
        s.firstBad (o.runs (o.plan (some st))) = none →
        (s.mayReadTable (shpBtab o.r) o.tlen = false → Traps s i 0x09 (handleOf (regionIdx (shpBtab o.r)) 0)) ∧
        (s.mayReadTable (shpBtab o.r) o.tlen = true → s.runsAllowed o.out (o.runs (o.plan (some st))) = true →
          (∀ h, shpBmode o.r = 0 → firstSpan o.r o.c st (o.plan (some st)) = some h → Traps s i 0x0D h) ∧
          ((shpBmode o.r = 0 → firstSpan o.r o.c st (o.plan (some st)) = none) →
            (s.core.slot.cquota.toNat < o.whole → Traps s i 0x0E s.wordHandle) ∧
            (o.whole ≤ s.core.slot.cquota.toNat → IssuesCrossing s i sy d kind o (o.plan (some st)) []))))) := by
  have like := alike_takeDeps s dep
  have fault : tableFault o s = s.pinnedRange (shpBtab o.r) o.tlen := by
    unfold tableFault
    rw [ragged, plain]
    rfl
  have source : s.badSource o.r o.packed o.ragged [] = s.badSource o.r false true [] := by rw [plain, ragged]
  refine ⟨fun bad outside => cross.traps (crossTable_fault like near (fault.trans outside)), fun inside sound => ⟨fun malformed => ?_,
    fun found nearRuns inRange => ?_⟩⟩
  · exact cross.traps (crossTable_malformed like near (fault.trans inside) (source.trans sound) ragged malformed)
  · have reach := crossTable_planned like near (fault.trans inside) (source.trans sound) ragged found
    obtain ⟨pod, cached⟩ := boundary_frame (s.takeDeps dep) o.r
    refine ⟨fun unowned => cross.traps (reach.trans (crossRows_table_unowned like nearRuns inRange (Or.inl ragged) unowned)),
      fun readable owned => ⟨fun h mode spans => ?_, fun within => ?_⟩⟩
    · exact cross.traps (reach.trans (crossRows_spans like nearRuns inRange (fun _ => readable) owned
        ((spanFault_ragged ragged mode st).trans spans)))
    · exact cross.plain_by_quota plain pod cached reach nearRuns inRange (fun _ => readable) owned (spanFault_within ragged within)

/-- Packed weights, by their codebook image and their blocks (R178, R179). -/
theorem packedWeights (packed : o.packed = true) (even : o.ragged = false) (near : s.needsWalk (regionIdx (shpBtab o.r)) = false) :
    ((shpBtab o.r).toNat % 16 ≠ 0 → Traps s i 0x08 (shpBtab o.r)) ∧
    ((shpBtab o.r).toNat % 16 = 0 → (∀ bad, s.pinnedRange (shpBtab o.r) o.tlen = some bad → Traps s i 0x08 bad) ∧
      (s.pinnedRange (shpBtab o.r) o.tlen = none → s.badSource o.r true false [] = none →
        (∀ x ∈ o.blocks (o.plan none), s.badSource o.r false false [x.2.2] = none) →
        (∀ x ∈ o.runs (o.plan none), s.needsWalk (regionAt x.2.1) = false) → s.firstBad (o.runs (o.plan none)) = none →
        s.mayReadTable (shpBtab o.r) o.tlen = true → s.runsAllowed o.out (o.runs (o.plan none)) = true →
        o.whole ≤ s.core.slot.cquota.toNat →
        (s.imageOk (imageOf o s) o.tabid = false → Traps s i 0x0F (shpBtab o.r)) ∧
        (s.imageOk (imageOf o s) o.tabid = true →
          (∀ x ∈ o.blocks (o.plan none), s.blockOk (blockAt s x.2.2) o.tabid (imageOf o s) = true) →
          IssuesCrossing s i sy d kind o (o.plan none) ((o.blocks (o.plan none)).map fun y => (blockAt s y.2.2).take 544)) ∧
        (∀ x pre post, s.imageOk (imageOf o s) o.tabid = true → o.blocks (o.plan none) = pre ++ x :: post →
          (∀ y ∈ pre, s.blockOk (blockAt s y.2.2) o.tabid (imageOf o s) = true) →
          s.blockOk (blockAt s x.2.2) o.tabid (imageOf o s) = false → Traps s i 0x0F x.2.2))) := by
  have like := alike_takeDeps s dep
  have fault : tableFault o s = if (shpBtab o.r).toNat % 16 ≠ 0 then some (shpBtab o.r) else s.pinnedRange (shpBtab o.r) o.tlen := by
    unfold tableFault
    rw [packed, even]
    simp only [Bool.false_eq_true, false_or, true_and, if_true]
  refine ⟨fun odd => cross.traps (crossTable_fault like near (fault.trans (if_pos odd))), fun aligned => ?_⟩
  rw [if_neg (not_not.2 aligned)] at fault
  have source : s.badSource o.r o.packed o.ragged [] = s.badSource o.r true false [] := by rw [packed, even]
  refine ⟨fun bad outside => cross.traps (crossTable_fault like near (fault.trans outside)),
    fun inside sound soundBlocks nearRuns inRange readable owned fits => ?_⟩
  have through := (crossTable_image like near (fault.trans inside) (source.trans sound) even).trans (crossRows_within like nearRuns inRange
    (fun _ => readable) owned (spanFault_none (fun h => Bool.false_ne_true (even.symm.trans h.1)) none))
  refine ⟨fun bad => ?_, fun image whole => ?_, fun x pre post image at_ before bad => ?_⟩
  · exact cross.traps (through.trans (crossQueue_bad_image like fits cross.task packed bad))
  · exact cross.issues like.pod ⟨_, rfl⟩ soundBlocks (through.trans (crossQueue_packed like fits cross.task image soundBlocks whole))
  · exact cross.traps (through.trans (crossQueue_bad_block like fits cross.task image soundBlocks at_ before bad))

end

end Crosses

end Sys2Proof.Proofs
end

section
/-! # O19: crossings issue or trap (R161, R163, R164, R178, R179, R185, R227, R229 to R231) -/

namespace Sys2Proof.Proofs

open Sys2Proof.Machine Sys2Proof.Laws

section
variable {sy : BitVec 1} {dep n : BitVec 4} {d a b : BitVec 5} {s : State}

/-- The three kinds of crossings run one word. -/
theorem exec_crossing {kind m : BitVec 2} {i : Instr} {q : QueueId} {out : Bool}
    (is : (kind = 0 ∧ i = .xin sy dep d a b n m ∧ q = .load ∧ out = false) ∨
      (kind = 1 ∧ i = .xinm sy dep d a b n m ∧ q = .load ∧ out = false) ∨
      (∃ k : BitVec 1, kind = 2 ∧ m = k.zeroExtend 2 ∧ i = .xout sy dep d a b n k ∧ q = .store ∧ out = true)) :
    exec i s = crossWord sy dep d a b n m kind.toNat s ∧ q = (crossOperands s d a b n m kind.toNat).queue ∧
      out = (crossOperands s d a b n m kind.toNat).out := by
  obtain ⟨rfl, rfl, rfl, rfl⟩ | ⟨rfl, rfl, rfl, rfl⟩ | ⟨k, rfl, rfl, rfl, rfl, rfl⟩ := is <;> exact ⟨rfl, rfl, rfl⟩

/-- The operands of a crossing, of packed weights or not, as the statement reads them. -/
def operandsAs (packed : Bool) (s : State) (d a b : BitVec 5) (n : BitVec 4) (m : BitVec 2) (kind : Nat) : CrossOperands :=
  { crossOperands s d a b n m kind with
    packed := packed, caddr := ((s.g a).extractLsb' 0 19).toNat, tabid := ((s.g b).extractLsb' 32 16).toNat }

theorem crossOperands_as {packed : Bool} {m : BitVec 2} (is : decide (m = 2) = packed) (kind : Nat) :
    crossOperands s d a b n m kind = operandsAs packed s d a b n m kind := by
  unfold operandsAs crossOperands
  rw [is, bits_eq_extractLsb', bits_eq_extractLsb']

end

theorem even_of_suits_packed {r : BitVec 1024} {c : List Int} (suits : shapeSuits r c 2 false = true) : decide (shpRagax r ≠ 7) = false := by
  by_contra odd
  have ragged : shpRagax r ≠ 7 := of_decide_eq_true (Bool.eq_true_of_not_eq_false odd)
  unfold shapeSuits at suits
  simp only [decide_true, if_true, decide_eq_false ragged, Bool.and_false, Bool.false_and, Bool.false_eq_true] at suits

theorem shapeSuits_empty {r : BitVec 1024} (empty : r = 0) (c : List Int) (mode : BitVec 2) (out : Bool) :
    shapeSuits r c mode out = false := by
  unfold shapeSuits
  simp only [empty, ne_eq, not_true_eq_false, decide_false, Bool.false_and]

theorem upper_half_zero {v : Word} (h : v.extractLsb' 32 32 = 0) : v.extractLsb' 48 16 = 0 ∧ (v.extractLsb' 32 16).toNat = 0 := by
  rw [← bits_eq_zero_iff] at h ⊢
  rw [← bits_eq_extractLsb']
  unfold bits at h ⊢
  omega

/-- Settles O19: the stages of `crossWord_eq`, each by the branch its hypotheses select. -/
theorem denseCrossingsIssueOrTrap : Obligations.DenseCrossingsIssueOrTrap := by
  refine ⟨fun sy dep n d a b s => ?_, fun sy dep n d a b s hi hl hs few idle => ⟨fun bad i member => ?_,
    fun high table low empty i member => ?_⟩⟩
  · intro r c rows caddr btab table hi hl hs few idle direct loops task high low top mask tabid issues traps
    have crosses {kind m : BitVec 2} {i : Instr} (packed : Bool) (is : decide (m = 2) = packed) (plain : m ≠ 2 → tabid = 0)
        (run : exec i s = crossWord sy dep d a b n m kind.toNat s) (suits : shapeSuits r c m (decide (kind.toNat = 2)) = true) :
        Crosses s i sy dep d a b n m kind (operandsAs packed s d a b n m kind.toNat) := by
      have operands := crossOperands_as (s := s) (d := d) (a := a) (b := b) (n := n) is kind.toNat
      exact ⟨run, hi, operands, crossIssue_suits (alike_takeDeps s dep) hl hs few idle
        (operands ▸ operands_wellFormed high low top (fun _ => mask) plain) suits, direct, loops, task⟩
    refine ⟨fun kind m i q out is small plain suits => ?_, fun kind i is suits near => ?_⟩
    · obtain ⟨run, rfl, rfl⟩ := exec_crossing (s := s) is
      have unpacked : decide (m = 2) = false := decide_eq_false fun h => absurd (h ▸ small) (by decide)
      have cross := crosses false unpacked (fun _ => plain) run suits
      exact ⟨fun dense => cross.dense rfl (decide_eq_false (not_not.2 dense)), fun st ragged near =>
        cross.ragged rfl (decide_eq_true ragged) near st⟩
    · have even := even_of_suits_packed suits
      obtain ⟨rfl, rfl⟩ | ⟨rfl, rfl⟩ := is
      · exact (crosses (kind := 0) true rfl (absurd rfl) (exec_xin s) suits).packedWeights rfl even near
      · exact (crosses (kind := 1) true rfl (absurd rfl) (exec_xinm s) suits).packedWeights rfl even near
  · have malformed (m kind) : crossWord sy dep d a b n m kind s = .next (s.wordTrap 0x0B s.wordHandle) :=
      crossWord_traps hi (crossIssue_malformed (alike_takeDeps s dep) hl hs few idle (operands_malformed bad))
    simp only [List.mem_cons, List.not_mem_nil, or_false] at member
    obtain rfl | rfl | rfl := member
    · exact malformed 0 0
    · exact malformed 0 1
    · exact malformed 0 2
  · obtain ⟨top, plain⟩ := upper_half_zero table
    have unsuited (m kind) (single : kind ≠ 1) : crossWord sy dep d a b n m kind s = .next (s.wordTrap 0x0C s.wordHandle) :=
      crossWord_traps hi (crossIssue_unsuited (alike_takeDeps s dep) hl hs few idle
        (operands_wellFormed high low top (fun fan => absurd fan single) fun _ => plain) (shapeSuits_empty empty _ _ _))
    simp only [List.mem_cons, List.not_mem_nil, or_false] at member
    obtain rfl | rfl := member
    · exact unsuited 0 0 (by decide)
    · exact unsuited 0 2 (by decide)

end Sys2Proof.Proofs
end

section
/-! # O21: parameters, path status and cancels (R184, R186 to R188) -/

namespace Sys2Proof.Proofs

open Sys2Proof.Machine Sys2Proof.Laws

theorem recall_takeDeps {s : State} (owes : s.core.owes = {}) (dep : BitVec 4) : (s.takeDeps dep).recall = none :=
  recall_of_owes_nothing ((owes_oeq_view_takeDeps s dep).1.trans owes)

/-! ## `xput` and `xget` (R187, R188) -/

section
variable {sy : BitVec 1} {dep : BitVec 4} {a d : BitVec 5} {k : BitVec 6} {s : State}

/-- TWIN takes no count of 0 or 255 (R187). -/
theorem exec_xput_bad_twin (hi : s.Issues dep [gR a] []) (bad : (s.g a).extractLsb' 0 8 = 0 ∨ (s.g a).extractLsb' 0 8 = 255) :
    exec (.xput sy dep a 0x24) s = .next (s.wordTrap 0x0B s.wordHandle) := by
  rw [exec_xput, execXput]
  refine control_traps hi ?_
  rw [g_takeDeps, wordHandle_takeDeps]
  exact if_pos ⟨rfl, by rw [bits_eq_extractLsb']; exact bad.imp (congrArg BitVec.toNat) (congrArg BitVec.toNat)⟩

theorem exec_xput_queues (hi : s.Issues dep [gR a] []) (settled : accSettled s.core) (free : s.core.eq.length < 128)
    (good : k ≠ 0x24 ∨ (s.g a).extractLsb' 0 8 ≠ 0 ∧ (s.g a).extractLsb' 0 8 ≠ 255) :
    Passes ((s.takeDeps dep).enqueue .engine (.xput k.toNat (s.g a))) (exec (.xput sy dep a k) s) sy none := by
  have legal : ¬(k = 0x24 ∧ (bits (s.g a) 0 8 = 0 ∨ bits (s.g a) 0 8 = 255)) := by
    rw [bits_eq_extractLsb']
    rintro ⟨twin, bad⟩
    obtain other | ⟨nonzero, below⟩ := good
    · exact other twin
    · exact bad.elim (fun h => nonzero (BitVec.eq_of_toNat_eq h)) fun h => below (BitVec.eq_of_toNat_eq h)
  rw [exec_xput, execXput]
  refine control_commands hi settled ?_
  rw [g_takeDeps, if_neg legal, if_neg (noRoom_false free dep)]

theorem exec_xget_awaits (hi : s.Issues dep [] [gR d]) (free : s.core.sq.length < 32) :
    AwaitsG ((s.takeDeps dep).enqueue .store (.xget k.toNat s.lane d.toNat)) (exec (.xget sy dep d k) s) sy d := by
  have room : (s.takeDeps dep).room .store = true := (room_takeDeps s dep .store).trans (room_true free)
  rw [exec_xget, execXget, control_ready hi.1 hi.2, room]
  exact awaitsG_of (Writes.refl _)

end

/-! ## `xwait` (R184) -/

theorem awaited_ready {sy : BitVec 1} {dep : BitVec 4} {rd wr : List RegRef} {s : State} {start : State → State} {f : State → Perform}
    (waited : s.Waited) : awaited sy dep rd wr s start f = Machine.control sy dep rd wr s f := by
  obtain ⟨w, wait, later⟩ := waited
  unfold awaited
  rw [wait]
  exact if_pos later

/-- With nothing outstanding every crossing path, and that of atoms and drains, is clear. -/
theorem pathClear_idle {s : State} (xings : s.core.xings = []) (atoms : s.core.atoms = []) (drains : s.core.drains = []) {p : BitVec 6}
    (path : p = 0 ∨ p = 1 ∨ p = 2) (w : Nat) : s.pathClear p.toNat w = true := by
  obtain rfl | rfl | rfl := path
  · simp [State.pathClear, xings]
  · simp [State.pathClear, xings]
  · simp [State.pathClear, atoms, drains]

theorem pathWord_eq (w : PathStat) : pathWord w = (if w.err then 1 else 0) + (if w.can then 2 else 0) + w.rx.setWidth 64 * 16 := by
  have rx : BitVec.ofNat 64 w.rx.toNat = w.rx.setWidth 64 := BitVec.ofNat_toNat 64 w.rx
  unfold pathWord word
  rw [BitVec.ofNat_add, BitVec.ofNat_add, BitVec.ofNat_mul, rx]
  cases w.err <;> cases w.can <;> rfl

theorem exec_xwait_reports {sy : BitVec 1} {dep : BitVec 4} {d : BitVec 5} {p : BitVec 6} {s : State} (hi : s.Issues dep [] [gR d])
    (owes : s.core.owes = {}) (waited : s.Waited) (xings : s.core.xings = []) (atoms : s.core.atoms = []) (drains : s.core.drains = [])
    (path : p = 0 ∨ p = 1 ∨ p = 2) :
    WritesG (((s.takeDeps dep).modCore fun c => c.notePath p.toNat fun _ => {}).recordResult d.toNat
      (some (pathWord (Sp.get {} s.core.paths p.toNat)))) (exec (.xwait sy dep d p) s) sy d (pathWord (Sp.get {} s.core.paths p.toNat)) 1 none := by
  have like := alike_takeDeps s dep
  have clear := pathClear_idle ((like.field Core.xings fun _ _ => rfl).trans xings) ((like.field Core.atoms fun _ _ => rfl).trans atoms)
    ((like.field Core.drains fun _ _ => rfl).trans drains) path
  rw [exec_xwait, execXwait, awaited_ready waited, control_ready hi.1 hi.2, recalled, recall_takeDeps owes]
  dsimp only
  rw [if_pos (clear _), like.field (fun c => c.paths) fun _ _ => rfl]
  exact writesG_of (Writes.refl _)

/-! ## `xcancel` (R186) -/

/-- What `xcancel` of handle `h` acknowledges, and the state it leaves. -/
def cancelAnswer (s : State) (h : Word) : Nat × State :=
  if bits h 0 1 = 1 then
    match s.core.crossingOf h with
    | some n => s.cancelCrossing n
    | none => (3, s)
  else if bits h 0 6 = 0 then s.cancelEntry h
  else (3, s)

theorem cancelCrossing_le (s : State) (n : Nat) : (s.cancelCrossing n).1 ≤ 3 := by
  unfold State.cancelCrossing
  split
  · dsimp only
    split_ifs <;> exact Nat.le_of_ble_eq_true rfl
  · dsimp only
    split_ifs <;> exact Nat.le_of_ble_eq_true rfl

theorem cancelEntry_le (s : State) (h : Word) : (s.cancelEntry h).1 ≤ 3 := by
  unfold State.cancelEntry
  dsimp only
  split
  · split_ifs <;> exact Nat.le_of_ble_eq_true rfl
  · split_ifs <;> exact Nat.le_of_ble_eq_true rfl

theorem cancelAnswer_le (s : State) (h : Word) : (cancelAnswer s h).1 ≤ 3 := by
  unfold cancelAnswer
  split_ifs
  · cases s.core.crossingOf h with
    | none => exact Nat.le_refl 3
    | some n => exact cancelCrossing_le s n
  · exact cancelEntry_le s h
  · exact Nat.le_refl 3

/-- The core as a crossing not yet admitted leaves it (R186): the crossing `n` is gone, path `p` notes the cancel, and path 3 where the
crossing was mirrored. -/
def withoutCrossing (n p : Nat) (mirrored : Prop) [Decidable mirrored] (c : Core) : Core :=
  let can := fun (p : PathStat) => { p with can := true }
  let c1 := (c.dropCrossing n).notePath p can
  let c2 := if mirrored then c1.notePath 3 can else c1
  { c2 with xcan := n :: c2.xcan }

theorem withoutCrossing_leaves (n p : Nat) (mirrored : Prop) [Decidable mirrored] (c : Core) :
    (withoutCrossing n p mirrored c).xings = c.xings.filter (fun x => !decide (x.seq = n)) ∧ n ∈ (withoutCrossing n p mirrored c).xcan ∧
      (withoutCrossing n p mirrored c).cold = c.cold := by
  unfold withoutCrossing
  dsimp only
  refine ⟨?_, List.mem_cons_self, ?_⟩
  · split_ifs <;> rfl
  · split_ifs <;> rfl

theorem cancelCrossing_waiting {s : State} {x : Crossing} (only : s.core.xings = [x]) (early : x.admitted = false) :
    s.cancelCrossing x.seq =
      (2, s.modCore (withoutCrossing x.seq (if x.kind = 2 then 1 else 0) (x.kind = 2 ∧ s.mirrored x))) := by
  have found : (s.core.xings.find? fun y => decide (y.seq = x.seq)) = some x := by
    rw [only]
    exact List.find?_cons_of_pos (decide_eq_true rfl)
  unfold State.cancelCrossing
  rw [found]
  dsimp only
  rw [early]
  rfl

section
variable {sy : BitVec 1} {dep : BitVec 4} {d a : BitVec 5} {s : State} (hi : s.Issues dep [gR a] [gR d]) (owes : s.core.owes = {})
include hi owes

theorem exec_xcancel_answers {st : Nat} {u : State} (answer : cancelAnswer (s.takeDeps dep) (s.g a) = (st, u)) :
    WritesG (u.recordResult d.toNat (some (word st))) (exec (.xcancel sy dep d a) s) sy d (word st) 1 none := by
  have run : exec (.xcancel sy dep d a) s = Machine.control sy dep [gR a] [gR d] s fun s => recalled d s fun s =>
      doneWith (cancelAnswer s (s.g a)).2 d (word (cancelAnswer s (s.g a)).1) 1 := rfl
  rw [run, control_ready hi.1 hi.2, recalled, recall_takeDeps owes, g_takeDeps, answer]
  exact writesG_of (Writes.refl _)

/-- A handle of no crossing and no entry (R186). -/
theorem exec_xcancel_of_nothing (even : (s.g a).extractLsb' 0 1 = 0) (odd : (s.g a).extractLsb' 0 6 ≠ 0) :
    WritesG ((s.takeDeps dep).recordResult d.toNat (some 3)) (exec (.xcancel sy dep d a) s) sy d 3 1 none := by
  refine exec_xcancel_answers hi owes (st := 3) ?_
  rw [← bits_eq_zero_iff] at even
  rw [Ne, ← bits_eq_zero_iff] at odd
  unfold cancelAnswer
  rw [even, if_neg (by decide), if_neg odd]

/-- A crossing not yet admitted is gone (R186). -/
theorem exec_xcancel_of_waiting {x : Crossing} (only : s.core.xings = [x]) (early : x.admitted = false)
    (names : s.core.crossingOf (s.g a) = some x.seq) (odd : (s.g a).extractLsb' 0 1 = 1) :
    ∃ v, WritesG v (exec (.xcancel sy dep d a) s) sy d 2 1 none ∧ v.core.xings = [] ∧ x.seq ∈ v.core.xcan ∧ v.mem = s.mem ∧
      v.core.cold = s.core.cold := by
  have like := alike_takeDeps s dep
  have only' : (s.takeDeps dep).core.xings = [x] := (like.field Core.xings fun _ _ => rfl).trans only
  have answer : cancelAnswer (s.takeDeps dep) (s.g a) = (s.takeDeps dep).cancelCrossing x.seq := by
    have low : bits (s.g a) 0 1 = 1 := (bits_eq_extractLsb' _ _ _).trans (congrArg BitVec.toNat odd)
    unfold cancelAnswer
    rw [if_pos low, like.field (fun c => c.crossingOf (s.g a)) fun _ _ => rfl, names]
  rw [cancelCrossing_waiting only' early] at answer
  refine ⟨_, exec_xcancel_answers hi owes answer, ?_⟩
  unfold State.recordResult
  rw [core_modCore, core_modCore]
  obtain ⟨xings, xcan, cold⟩ := withoutCrossing_leaves x.seq (if x.kind = 2 then 1 else 0) (x.kind = 2 ∧ (s.takeDeps dep).mirrored x)
    (s.takeDeps dep).core
  refine ⟨xings.trans ?_, xcan, rfl, cold.trans (like.field Core.cold fun _ _ => rfl)⟩
  rw [only', List.filter_cons_of_neg (by simp)]
  rfl

end

end Sys2Proof.Proofs
end

section
/-! # O21: shape words (R23, R190, R191), and the statement -/

namespace Sys2Proof.Proofs

open Sys2Proof.Machine Sys2Proof.Laws

/-! ## A word of a record (R20, R190) -/

theorem shp_word (r : BitVec 1024) (w : Nat) : shp r (8 * w) 8 = (r.extractLsb' (64 * w) 64).toNat := by
  unfold shp
  rw [bits_eq_extractLsb', ← Nat.mul_assoc]

/-- A number by what stands below, at and above the 64 bits from `lo` on. -/
theorem toNat_by_word (n lo : Nat) : n = n / 2 ^ (lo + 64) * 2 ^ (lo + 64) + n / 2 ^ lo % 2 ^ 64 * 2 ^ lo + n % 2 ^ lo := by
  have split : n / 2 ^ (lo + 64) = n / 2 ^ lo / 2 ^ 64 := by rw [Nat.div_div_eq_div_mul, Nat.pow_add]
  have high := Nat.div_add_mod (n / 2 ^ lo) (2 ^ 64)
  have low := Nat.div_add_mod n (2 ^ lo)
  calc n = 2 ^ lo * (2 ^ 64 * (n / 2 ^ lo / 2 ^ 64) + n / 2 ^ lo % 2 ^ 64) + n % 2 ^ lo := by rw [high, low]
    _ = _ := by rw [split, Nat.pow_add]; ring

/-- The record that has the word `v` and is otherwise `r` is what `setWord` gives. -/
theorem setWord_eq {r q : BitVec 1024} {w : Nat} {v : Word} (word : q.extractLsb' (64 * w) 64 = v)
    (others : ∀ i, i < 1024 → i < 64 * w ∨ 64 * w + 64 ≤ i → q.getLsbD i = r.getLsbD i) : setWord r w v = q := by
  have agree (i : Nat) (out : i < 64 * w ∨ 64 * w + 64 ≤ i) : q.toNat.testBit i = r.toNat.testBit i := by
    by_cases inside : i < 1024
    · exact others i inside out
    · rw [BitVec.testBit_toNat, BitVec.testBit_toNat, BitVec.getLsbD_of_ge q i (by omega), BitVec.getLsbD_of_ge r i (by omega)]
  have high : q.toNat / 2 ^ (64 * w + 64) = r.toNat / 2 ^ (64 * w + 64) := Nat.eq_of_testBit_eq fun i => by
    rw [Nat.testBit_div_two_pow, Nat.testBit_div_two_pow, agree _ (by omega)]
  have low : q.toNat % 2 ^ (64 * w) = r.toNat % 2 ^ (64 * w) := Nat.eq_of_testBit_eq fun i => by
    rw [Nat.testBit_mod_two_pow, Nat.testBit_mod_two_pow]
    by_cases below : i < 64 * w
    · rw [agree i (Or.inl below)]
    · rw [decide_eq_false below, Bool.false_and, Bool.false_and]
  have middle : q.toNat / 2 ^ (64 * w) % 2 ^ 64 = v.toNat := by
    rw [← word, ← bits_eq_extractLsb']
    rfl
  have before : shp r (8 * w) 8 = r.toNat / 2 ^ (64 * w) % 2 ^ 64 := by
    rw [shp_word, ← bits_eq_extractLsb']
    rfl
  have hr := toNat_by_word r.toNat (64 * w)
  have hq := toNat_by_word q.toNat (64 * w)
  rw [high, middle, low] at hq
  have value : r.toNat - shp r (8 * w) 8 * 2 ^ (64 * w) + v.toNat * 2 ^ (64 * w) = q.toNat := by
    rw [before]
    omega
  unfold setWord
  rw [value, BitVec.ofNat_toNat, BitVec.setWidth_eq]

/-! ## Words that read or write the registers (R190, R191) -/

theorem shpPending_idle {s : State} (idle : s.core.shpBusy = []) (n : BitVec 4) : ¬s.shpPending n = true := by
  unfold State.shpPending
  rw [idle]
  exact Bool.false_ne_true

section
variable {sy : BitVec 1} {dep n w : BitVec 4} {d a : BitVec 5} {s : State} (idle : s.core.shpBusy = [])

include idle in
theorem free_takeDeps (dep n : BitVec 4) : ¬(s.takeDeps dep).shpPending n = true :=
  shpPending_idle (((alike_takeDeps s dep).field Core.shpBusy fun _ _ => rfl).trans idle) n

theorem shape_takeDeps (s : State) (dep n : BitVec 4) : (s.takeDeps dep).core.shape n.toNat = s.core.shape n.toNat :=
  (alike_takeDeps s dep).field (fun c => c.shape n.toNat) fun _ _ => rfl

include idle

theorem exec_shpget_reads (hi : s.Issues dep [] [gR d]) :
    WritesG (s.takeDeps dep) (exec (.shpget sy dep d n w) s) sy d ((s.core.shape n.toNat).extractLsb' (64 * w.toNat) 64) 2 none := by
  rw [exec_shpget, execShpget, control_ready hi.1 hi.2, if_neg (free_takeDeps idle dep n), shape_takeDeps, shp_word, word, BitVec.ofNat_toNat,
    BitVec.setWidth_eq]
  exact writesG_of (Writes.refl _)

section
variable (hi : s.Issues dep [gR a] []) {q : BitVec 1024} (replaced : setWord (s.core.shape n.toNat) w.toNat (s.g a) = q)
include hi replaced

theorem exec_shpset_writes (ok : shpOk q = true) : ∃ t, exec (.shpset sy dep a n w) s = .next t ∧
    Through ((s.takeDeps dep).modCore fun c => { c with shp := Sp.set 0 c.shp n.toNat q }) t sy [] none := by
  rw [exec_shpset, execShpset, control_ready hi.1 hi.2, if_neg (free_takeDeps idle dep n), shape_takeDeps, g_takeDeps, replaced]
  dsimp only
  rw [if_pos ok]
  exact passes_of (Writes.refl _)

theorem exec_shpset_refuses (bad : shpOk q = false) : exec (.shpset sy dep a n w) s = .next (s.wordTrap 0x0C s.wordHandle) := by
  rw [exec_shpset, execShpset]
  refine control_traps hi ?_
  rw [if_neg (free_takeDeps idle dep n), shape_takeDeps, g_takeDeps, replaced, wordHandle_takeDeps]
  exact if_neg (by rw [bad]; exact Bool.false_ne_true)

end

theorem exec_shpst_queues (hi : s.Issues dep [gR a] []) (free : s.core.sq.length < 32) {pl : Place}
    (pass : s.access (s.g a) 128 64 true = .pass pl) :
    Passes ((s.takeDeps dep).enqueue .store (.shpst (s.g a) (s.core.shape n.toNat))) (exec (.shpst sy dep a n) s) sy none := by
  have room : (s.takeDeps dep).room .store = true := (room_takeDeps s dep .store).trans (room_true free)
  rw [exec_shpst, execShpst, control_ready hi.1 hi.2, g_takeDeps, shape_takeDeps]
  dsimp only
  rw [if_neg (by rw [room]; exact fun h => h.elim Bool.false_ne_true (free_takeDeps idle dep n)), (alike_takeDeps s dep).access, pass]
  exact passes_of (Writes.refl _)

theorem exec_btld_of_dense (hi : s.Issues dep [] []) (ok : shpOk (s.core.shape n.toNat) = true) (dense : shpRagax (s.core.shape n.toNat) = 7)
    (there : s.core.shape n.toNat ≠ 0) : Passes (s.takeDeps dep) (exec (.btld sy dep n) s) sy none := by
  rw [exec_btld, execBtld, control_ready hi.1 hi.2, shape_takeDeps]
  dsimp only
  rw [if_neg (free_takeDeps idle dep n), if_neg (by rw [ok]; exact fun h => h.elim there Bool.false_ne_true), if_pos dense]
  exact passes_of (Writes.refl _)

theorem exec_btld_of_nothing (hi : s.Issues dep [] []) (empty : s.core.shape n.toNat = 0) :
    exec (.btld sy dep n) s = .next (s.wordTrap 0x0C s.wordHandle) := by
  rw [exec_btld, execBtld]
  refine control_traps hi ?_
  rw [shape_takeDeps, wordHandle_takeDeps]
  dsimp only
  rw [if_neg (free_takeDeps idle dep n), if_pos (Or.inl empty)]

end

/-! ## `shpld` (R190) -/

/-- What a word finds of its entry at the tail of the load queue, beside the tokens it takes. -/
theorem enqueue_load_takeDeps (s : State) (dep : BitVec 4) (op : QOp) :
    let u := (s.takeDeps dep).enqueue .load op
    let e := entryFor (s.takeDeps dep) .load op
    u.core.lq = s.core.lq ++ [e] ∧ u.core.lqIssued = e.seq ∧ u.core.shpBusy = s.core.shpBusy ∧ u.cl = s.cl := by
  have like := alike_takeDeps s dep
  obtain ⟨win, entered⟩ := core_enqueue (s.takeDeps dep) .load op
  dsimp only
  unfold State.cl
  rw [entered]
  exact ⟨congrArg (· ++ _) (like.field Core.lq fun _ _ => rfl), rfl, like.field Core.shpBusy fun _ _ => rfl,
    ((withEntryAt_frame _ _ _).1 _).trans (cluster_takeDeps s dep s.lane)⟩

/-- Register `n` is pending for words later than warm cycle `w` (R191). -/
def shpAwaits (n w : Nat) (c : Core) : Core := { c with shpBusy := (n, w) :: c.shpBusy }

theorem cl_shpAwaits (u : State) (n w : Nat) : (u.modCore (shpAwaits n w)).cl = u.cl := by
  unfold State.cl
  rw [core_modCore, modCore_lane]
  cases u.lane <;> rfl

section
variable {sy : BitVec 1} {dep n : BitVec 4} {a : BitVec 5} {s : State} (idle : s.core.shpBusy = [])
include idle

/-- `shpld` waits for the entry it has placed, its register pending. -/
theorem exec_shpld_waits (hi : s.Issues dep [gR a] []) (fresh : s.cl.wait = .none) (free : s.core.lq.length < 32) {pl : Place}
    (pass : s.access (s.g a) 128 64 false = .pass pl) :
    ∃ t e, exec (.shpld sy dep a n) s = .next t ∧ t.core.lq = s.core.lq ++ [e] ∧ e.op = .shpld n.toNat (s.g a) ∧
      t.cl.wait = .entry e.seq ∧ t.core.shpBusy = [(n.toNat, s.warm)] ∧ t.mem = s.mem ∧ t.cl.g = s.cl.g := by
  have room : (s.takeDeps dep).room .load = true := (room_takeDeps s dep .load).trans (room_true free)
  have through : ¬((!(s.takeDeps dep).room .load) = true ∨ (s.takeDeps dep).shpPending n = true) := by
    rw [room]
    exact fun h => h.elim Bool.false_ne_true (free_takeDeps idle dep n)
  obtain ⟨queue, number, busy, own⟩ := enqueue_load_takeDeps s dep (.shpld n.toNat (s.g a))
  rw [exec_shpld, execShpld, fresh]
  dsimp only
  rw [control_ready hi.1 hi.2, g_takeDeps, if_neg through, (alike_takeDeps s dep).access, pass]
  have pod : ((s.takeDeps dep).enqueue .load (.shpld n.toNat (s.g a))).apart = s.apart := rfl
  generalize (s.takeDeps dep).enqueue .load (.shpld n.toNat (s.g a)) = u at queue number busy own pod
  obtain ⟨frame, core, cluster, -⟩ := beginWait_frame (u.modCore (shpAwaits n.toNat s.warm)) (.entry u.core.lqIssued)
  rw [core_modCore] at core
  refine ⟨(u.modCore (shpAwaits n.toNat s.warm)).beginWait (.entry u.core.lqIssued),
    entryFor (s.takeDeps dep) .load (.shpld n.toNat (s.g a)), rfl, ?_, rfl, ?_, ?_, ?_, ?_⟩
  · exact (congrArg Core.lq core :).trans queue
  · rw [cluster, number]
  · exact (congrArg Core.shpBusy core :).trans (congrArg _ (busy.trans idle))
  · exact (congrArg State.mem (frame.trans pod) :)
  · rw [cluster, cl_shpAwaits, own]

omit idle in
theorem same_modCore_of_fixed {f : Core → Core} (fixed : f s.core = s.core) : Same s (s.modCore f) :=
  ⟨rfl, fun k => by
    rw [coreAt_modCore]
    split_ifs with here
    · rw [here]; exact fixed
    · rfl⟩

theorem shpFree_idle (n : Nat) : s.core.shpFree n = s.core := by
  unfold Core.shpFree
  rw [idle, List.filter_nil, ← idle]

theorem exec_shpld_ends (performed : s.cl.wait = .performed) : ∃ t, exec (.shpld sy dep a n) s = .next t ∧ Through s t sy [] none := by
  rw [exec_shpld, execShpld, performed]
  have same := same_takeDeps_zero s
  exact passes_of (same.trans (same_modCore_of_fixed (shpFree_idle (same.core ▸ idle) n.toNat))).writes

theorem exec_shpld_installs {q : BitVec 1024} (loaded : s.cl.wait = .loaded q) : ∃ t, exec (.shpld sy dep a n) s = .next t ∧
    Through (s.modCore fun c => { c with shp := Sp.set 0 c.shp n.toNat q }) t sy [] none := by
  rw [exec_shpld, execShpld, loaded]
  have same := same_takeDeps_zero s
  have freed : ((s.takeDeps 0).modCore fun c => { c.shpFree n.toNat with shp := Sp.set 0 c.shp n.toNat q }) =
      (s.takeDeps 0).modCore fun c => { c with shp := Sp.set 0 c.shp n.toNat q } :=
    modCore_congr (by rw [shpFree_idle (same.core ▸ idle)])
  refine passes_of (v := (s.takeDeps 0).modCore fun c => { c.shpFree n.toNat with shp := Sp.set 0 c.shp n.toNat q }) ?_
  rw [freed]
  exact (same.modCore _).writes

omit idle in
theorem exec_shpld_fails {code : Nat} {addr : Word} (failed : s.cl.wait = .failed code addr) :
    exec (.shpld sy dep a n) s = .next ((s.modCore fun c => c.shpFree n.toNat).wordTrap code addr) := by
  rw [exec_shpld, execShpld, failed]
  rfl

end

/-- Settles O21: each word by the branch its hypotheses select; `xcancel` by what `cancelAnswer` says of its handle. -/
theorem parameterStatusAndShapeWords : Obligations.ParameterStatusAndShapeWords := by
  refine ⟨fun sy dep d a k p s hi owes settled => ?_, fun sy dep n w d a s hi idle => ?_⟩
  · have reads : s.Issues dep [gR a] [] := ⟨regsReady_mono hi.1 (by simp), hi.2⟩
    have writes : s.Issues dep [] [gR d] := ⟨regsReady_mono hi.1 (by simp), hi.2⟩
    refine ⟨fun good free => exec_xput_queues reads settled free good, fun twin bad => twin ▸ exec_xput_bad_twin reads bad,
      exec_xget_awaits writes, fun waited xings atoms drains path => ?_, exec_xcancel_of_nothing hi owes,
      fun x only early names odd => exec_xcancel_of_waiting hi owes only early names odd, _, _, exec_xcancel_answers hi owes rfl,
      cancelAnswer_le _ _⟩
    exact ⟨_, exec_xwait_reports writes owes waited xings atoms drains path, pathWord_eq _⟩
  · have reads : s.Issues dep [gR a] [] := ⟨regsReady_mono hi.1 (by simp), hi.2⟩
    have writes : s.Issues dep [] [gR d] := ⟨regsReady_mono hi.1 (by simp), hi.2⟩
    have none : s.Issues dep [] [] := ⟨regsReady_mono hi.1 (by simp), hi.2⟩
    refine ⟨exec_shpget_reads idle writes, fun q word others => ?_, fun pl free pass => exec_shpst_queues idle reads free pass,
      exec_btld_of_dense idle none, exec_btld_of_nothing idle none, exec_shpld_ends idle, fun q => exec_shpld_installs idle,
      fun code addr => exec_shpld_fails, fun pl fresh free pass => exec_shpld_waits idle reads fresh free pass⟩
    have replaced := setWord_eq word others
    exact ⟨exec_shpset_writes idle reads replaced, exec_shpset_refuses idle reads replaced⟩

end Sys2Proof.Proofs
end

section
/-! # Matrix orders: what their charge leaves, the words of a tile, the tags of its record, the cells of the cold store (R193 to R195) -/

namespace Sys2Proof.Laws

open Sys2Proof.Machine

/-! ## What an order reads after its charge -/

@[simp] theorem charge_coldTile (s : State) (n : Nat) (p : Pair) (tile : Nat) : (s.charge n).coldTile p tile = s.coldTile p tile := by
  simp only [State.coldTile, charge_iter, charge_coldNat, charge_coldSide]

@[simp] theorem charge_operand (s : State) (n c : Nat) : (s.charge n).operand c = s.operand c := by
  simp only [State.operand, charge_cold, charge_coldTile]

@[simp] theorem charge_mmaCase (s : State) (n : Nat) (f : BitVec 3) (x : BitVec 1) (a b : BitVec 4) :
    (s.charge n).mmaCase f x a b = s.mmaCase f x a b := by
  simp only [State.mmaCase, charge_cold, charge_operand]

@[simp] theorem charge_maskGranule (s : State) (n q : Nat) : (s.charge n).maskGranule q = s.maskGranule q := by
  unfold State.maskGranule; rw [charge_slot]

theorem operand_length (s : State) (c : Nat) : (s.operand c).1.length = 16 ∧ (s.operand c).2.length = 16 := by
  unfold State.operand
  split <;> simp [State.coldTile]

/-- An order that issues one write more. -/
theorem lands_land_after {s t : State} {heat : Nat} {e : EngineId} {writes : List (Nat × LandOp)} (h : Lands s (.next t) heat e writes)
    (lat chain : Nat) (ws : List Res) (op : LandOp) (ev : Option Word) :
    Lands s (.next (t.land e lat chain ws op ev)) heat e (writes ++ [(lat, op)]) := by
  obtain ⟨u, new, next, issued, cold, pend, ops, own⟩ := h
  obtain rfl := Host.Outcome.next.inj next
  have now : t.scnt = s.scnt := (congrArg State.scnt issued.pod :)
  refine ⟨_, new ++ [{ at_ := s.scnt + lat, issued := s.scnt, eng := e, chain := chain, writes := ws, op := op, event := ev }], rfl,
    issued_modCold issued _, ?_, ?_, ?_, fun l mem => ?_⟩
  · rw [land_eq, core_modCore]
    exact cold
  · rw [land_eq, core_modCore, ← List.append_assoc, ← pend, ← now]
  · rw [List.map_append, ops, List.map_append]
    rfl
  · rcases List.mem_append.1 mem with mem | mem
    · exact own l mem
    · rw [List.mem_singleton.1 mem]
      exact ⟨rfl, rfl⟩

/-! ## Words and records of tiles (R195, R198) -/

theorem setWords_cons (m : Cold) (t : Nat) (x : Nat × Word32) (ws : List (Nat × Word32)) :
    m.setWords t (x :: ws) = (m.setAcc t x.1 x.2).setWords t ws := rfl

/-- Words of a tile are written in the accumulators and nowhere else. -/
theorem setWords_eq (m : Cold) (t : Nat) (ws : List (Nat × Word32)) : ∃ x, m.setWords t ws = { m with acc := x } := by
  induction ws generalizing m with
  | nil => exact ⟨m.acc, rfl⟩
  | cons x ws ih =>
    obtain ⟨y, h⟩ := ih (m.setAcc t x.1 x.2)
    exact ⟨y, (setWords_cons m t x ws).trans h⟩

theorem setWords_tileAt (m : Cold) (t : Nat) (ws : List (Nat × Word32)) (k : Nat) : (m.setWords t ws).tileAt k = m.tileAt k := by
  obtain ⟨x, h⟩ := setWords_eq m t ws
  rw [h]
  rfl

/-- A word none of the written ones is reads as before. -/
theorem accAt_setWords_other {m : Cold} {t k e : Nat} {ws : List (Nat × Word32)} (apart : ∀ x ∈ ws, 289 * k + e ≠ 289 * t + x.1) :
    (m.setWords t ws).accAt k e = m.accAt k e := by
  induction ws generalizing m with
  | nil => rfl
  | cons x ws ih =>
    rw [setWords_cons, ih fun y hy => apart y (List.mem_cons_of_mem _ hy)]
    exact get_set_other _ _ _ (apart x List.mem_cons_self)

/-- A word written once reads as what was written. -/
theorem accAt_setWords_of_mem {m : Cold} {t : Nat} {ws : List (Nat × Word32)} (once : (ws.map (·.1)).Nodup) {x : Nat × Word32} (mem : x ∈ ws) :
    (m.setWords t ws).accAt t x.1 = x.2 := by
  induction ws generalizing m with
  | nil => cases mem
  | cons y ws ih =>
    obtain ⟨new, once⟩ := List.nodup_cons.1 once
    rw [setWords_cons]
    rcases List.mem_cons.1 mem with rfl | mem
    · rw [accAt_setWords_other fun z hz same => new (List.mem_map.2 ⟨z, hz, Nat.add_left_cancel same.symm⟩)]
      exact get_set_self ..
    · exact ih once mem

@[simp] theorem tileAt_setTile_self (m : Cold) (t : Nat) (x : Tile) : (m.setTile t x).tileAt t = x := get_set_self ..

theorem tileAt_setTile_other {m : Cold} {t k : Nat} (x : Tile) (h : k ≠ t) : (m.setTile t x).tileAt k = m.tileAt k := get_set_other _ _ _ h

/-- Words of a tile and its record land there, and nothing else of the cold state changes (R198). -/
theorem apply_acc {ws : List (Nat × Word32)} (once : (ws.map (·.1)).Nodup) (inside : ∀ x ∈ ws, x.1 < 289) (m : Cold) (t : Nat) (info : Tile)
    (flip : Bool) :
    let u := m.apply (.acc t ws info flip)
    { u with acc := m.acc, tile := m.tile } = m ∧ u.tileAt t = info ∧ (∀ x ∈ ws, u.accAt t x.1 = x.2) ∧
      ∀ k, k ≠ t → u.tileAt k = m.tileAt k ∧ ∀ e, e < 289 → u.accAt k e = m.accAt k e := by
  refine ⟨?_, tileAt_setTile_self .., fun x mem => accAt_setWords_of_mem once mem, fun k other => ⟨?_, fun e he => ?_⟩⟩
  · obtain ⟨acc, h⟩ := setWords_eq m t ws
    simp only [Cold.apply, Cold.setTile, h]
  · exact (tileAt_setTile_other info other).trans (setWords_tileAt ..)
  · refine accAt_setWords_other fun x mem => ?_
    have := inside x mem
    omega

theorem mem_active (m : Cold) (i j : Nat) :
    (i, j) ∈ m.active ↔ i < 16 ∧ j < 16 ∧ m.triple.row.getLsbD i = true ∧ m.triple.col.getLsbD j = true := by
  simp only [Cold.active, List.mem_flatMap, List.mem_map, List.mem_filter, List.mem_range, Prod.mk.injEq]
  constructor
  · rintro ⟨_, ⟨hi, row⟩, _, ⟨hj, col⟩, rfl, rfl⟩
    exact ⟨hi, hj, row, col⟩
  · rintro ⟨hi, hj, row, col⟩
    exact ⟨i, ⟨hi, row⟩, j, ⟨hj, col⟩, rfl, rfl⟩

/-! ## Tags (R195) -/

/-- Byte `i` of the little-endian value of a list. -/
theorem leNat_div_getD (l : List Byte) (i : Nat) : leNat l / 256 ^ i % 256 = (l.getD i 0).toNat := by
  induction l generalizing i with
  | nil => simp [leNat]
  | cons b l ih =>
    have := b.isLt
    cases i with
    | zero =>
      simp only [leNat, pow_zero, Nat.div_one, List.getD_cons_zero]
      omega
    | succ i =>
      have tail : leNat (b :: l) / 256 = leNat l := by simp only [leNat]; omega
      rw [pow_succ', ← Nat.div_div_eq_div_mul, tail, ih, List.getD_cons_succ]

/-- A tag among sixteen that are packed is the one in its place (R195). -/
theorem tagOf_packTags {ts : List Byte} (few : ts.length ≤ 16) (i : Nat) : tagOf (packTags ts) i = ts.getD i 0 := by
  have fits : leNat ts < 2 ^ 128 :=
    (leNat_lt ts).trans_le ((Nat.pow_le_pow_right (by decide) few).trans (by decide))
  apply BitVec.eq_of_toNat_eq
  rw [tagOf, packTags, bits, BitVec.toNat_ofNat, BitVec.toNat_ofNat, Nat.mod_eq_of_lt fits, Nat.mod_mod, pow_mul]
  exact leNat_div_getD ts i

theorem find_fst_map {α : Type} (l : List Nat) (g : Nat → α) (i : Nat) :
    (l.map fun j => (j, g j)).find? (fun x => decide (x.1 = i)) = if i ∈ l then some (i, g i) else none := by
  induction l with
  | nil => rfl
  | cons j l ih =>
    by_cases here : j = i
    · simp [here]
    · simp [here, Ne.symm here, ih]

/-- The record a partial landing leaves: the tags of the rows it names, the others as they were, and CT, CHKV and INT at 0 (R213, R218). -/
theorem apply_accPart_tileAt (y : Cold) (t : Nat) (ws : List (Nat × Word32)) (on : Nat → Bool) (tag : Nat → Byte) :
    let x := (y.apply (.accPart t ws (some (((List.range 16).filter on).map fun i => (i, tag i))))).tileAt t
    x.chkv = false ∧ x.int = false ∧ x.ct = 0 ∧
      ∀ i, i < 16 → tagOf x.rt i = if on i = true then tag i else tagOf (y.tileAt t).rt i := by
  intro x
  have record : x = _ := tileAt_setTile_self ..
  rw [record]
  refine ⟨rfl, rfl, rfl, fun i hi => ?_⟩
  dsimp only
  rw [tagOf_packTags (by simp), List.getD_eq_getElem _ _ (by simpa using hi), List.getElem_map, List.getElem_range, find_fst_map]
  by_cases h : on i = true
  · rw [if_pos (List.mem_filter.2 ⟨List.mem_range.2 hi, h⟩), if_pos h]
    rfl
  · rw [if_neg fun mem => h (List.mem_filter.1 mem).2, if_neg h]
    rfl

/-! ## Numbers read from the cold store, and where bytes written to it go (R194) -/

/-- A number read from `n` bytes of the cold store fits a field of `8 n` bits. -/
theorem coldNat_lt (s : State) (b a n : Nat) : s.coldNat b a n < 256 ^ n := by
  have := leNat_lt ((List.range n).map fun i => s.coldByte b (a + i))
  rwa [List.length_map, List.length_range] at this

theorem ofNat_coldNat_toNat (s : State) (b a n : Nat) {w : Nat} (h : 2 ^ w = 256 ^ n) :
    (BitVec.ofNat w (s.coldNat b a n)).toNat = s.coldNat b a n := by
  rw [BitVec.toNat_ofNat, h, Nat.mod_eq_of_lt (coldNat_lt ..)]

theorem coldAddr_coldAddr_add (a n : Nat) : coldAddr (coldAddr a + n) = (a + n) % 2 ^ 19 := by
  simp only [coldAddr, Nat.mod_add_mod]

theorem mem_coldCells {s : State} {b a : Nat} {bs : List Byte} {x : Nat × Byte} :
    x ∈ s.coldCells b a bs ↔
      ∃ n, n < bs.length ∧ coldAddr (a + n) < s.core.slot.cquota.toNat ∧ x = (coldPlace b (coldAddr (a + n)), bs.getD n 0) := by
  simp only [State.coldCells, List.mem_filterMap, List.mem_range]
  refine exists_congr fun n => and_congr_right fun _ => ?_
  split_ifs with inside
  · simp only [Option.some.injEq, inside, true_and, eq_comm]
  · simp only [inside, false_and]

theorem leBytes_getD {n i : Nat} (h : i < n) (v : Nat) : (leBytes n v).getD i 0 = BitVec.ofNat 8 (v / 256 ^ i) := by
  induction n generalizing i v with
  | zero => omega
  | succ n ih =>
    cases i with
    | zero => simp [leBytes]
    | succ i => rw [leBytes, List.getD_cons_succ, ih (by omega), pow_succ', Nat.div_div_eq_div_mul]

theorem ofNat_div_pow_eq_extractLsb' {w : Nat} (v : BitVec w) (n : Nat) : BitVec.ofNat 8 (v.toNat / 256 ^ n) = v.extractLsb' (8 * n) 8 := by
  apply BitVec.eq_of_toNat_eq
  rw [BitVec.toNat_ofNat, BitVec.extractLsb'_toNat, Nat.shiftRight_eq_div_pow, pow_mul]
  rfl

/-! ## One rounded sum -/

theorem accumulate_eq (o : BitVec 1) (c : Word32) (ps : List Val) : accumulate (decide (o = 1)) c ps =
    if ps = [] then (if o = 1 then 0 else c) else round32 0 0 (sumVals 0 (ps ++ if o = 1 then [] else [val32 c])) := by
  simp only [accumulate, List.isEmpty_iff, decide_eq_true_eq]

theorem foldl_add_eq_sum (f : Val → Int) (z : Int) (l : List Val) : l.foldl (fun a x => a + f x) z = (l.map f).sum + z := by
  induction l generalizing z with
  | nil => simp
  | cons x l ih => rw [List.foldl_cons, ih, List.map_cons, List.sum_cons]; ring

theorem accumulateInt_eq (o : BitVec 1) (c : Word32) (ps : List Val) : accumulateInt (decide (o = 1)) c ps =
    BitVec.ofInt 32 ((ps.map fun v => v.at 0).sum + if o = 1 then 0 else c.toInt) := by
  simp only [accumulateInt, foldl_add_eq_sum (fun v => v.at 0), decide_eq_true_eq]

end Sys2Proof.Laws
end

section
/-! # O28: tile rows, `mnop`, `mldm` (R193, R194, R202, R207) -/

namespace Sys2Proof.Proofs

open Sys2Proof.Machine Sys2Proof.Laws

/-- Row `r` of a tile stands at the address of R193. -/
theorem row_pair (m : Cold) (k tile n r : Nat) :
    let e := Sp.get 0 m.ms (2 * k)
    let o := Sp.get 0 m.ms (2 * k + 1)
    (m.pair k).row tile n r =
      ((e.extractLsb' 0 19).toNat + (tile + n) % 4096 * (o.extractLsb' 0 19).toNat + r * (e.extractLsb' 19 16).toNat) % 2 ^ 19 := by
  simp only [Pair.row, Cold.pair, coldAddr, bits_eq_extractLsb']

theorem lands_mldm (w : BitVec 4) (d p : BitVec 3) (k : BitVec 12) (s : State) :
    let tile := s.coldTile (s.core.cold.pair p.toNat) k.toNat
    Lands s (exec (.mldm w d p k) s) (s.orderHeat (.mldm w d p k)) .matrix [(3, .mreg d.toNat tile.1 tile.2)] := by
  rw [exec_mldm, execMldm, order]
  simp only [charge_cold, charge_coldTile]
  exact lands_land (.mldm w d p k) s ..

/-- Settles O28: the address is the pair's formula, and `mldm` lands the tile it read with its TAG and INV. -/
theorem tileRowsAndMatrixLoads : Obligations.TileRowsAndMatrixLoads := by
  refine ⟨fun s k tile r a b n => ⟨row_pair .., bits_eq_extractLsb' .., fun beyond => ?_, fun inside => if_pos inside⟩,
    fun w d p k s => ⟨lands_charge (.mnop w) s .matrix, lands_mldm w d p k s⟩⟩
  exact ⟨if_neg (not_lt.2 beyond), if_neg (not_lt.2 beyond)⟩

end Sys2Proof.Proofs
end

section
/-! # O29: `mma` (R47, R57, R58, R197, R203 to R206) -/

namespace Sys2Proof.Proofs

open Sys2Proof.Machine Sys2Proof.Laws

/-! ## What an `mma` works on (R197, R203, R205) -/

section
variable {s : State} {f : BitVec 3} {x : BitVec 1} {a b : BitVec 4}

theorem mem_mma_rows {i : Nat} : i ∈ (s.mmaCase f x a b).rows ↔
    i < 16 ∧ s.core.cold.triple.row.getLsbD i = true ∧ ((s.operand a.toNat).2.getD i 0).getLsbD 8 = false := by
  simp only [State.mmaCase, List.mem_filter, List.mem_range, Bool.and_eq_true, Bool.not_eq_true']

theorem mem_mma_cols {j : Nat} : j ∈ (s.mmaCase f x a b).cols ↔
    j < 16 ∧ s.core.cold.triple.col.getLsbD j = true ∧ (f = 7 ∨ ((s.operand b.toNat).2.getD j 0).getLsbD 8 = false) := by
  simp only [State.mmaCase, List.mem_filter, List.mem_range, Bool.and_eq_true, Bool.or_eq_true, decide_eq_true_eq, Bool.not_eq_true']

theorem nodup_mma_rows : (s.mmaCase f x a b).rows.Nodup := List.nodup_range.filter _

theorem mma_tagB : (s.mmaCase f x a b).tagB = if f = 7 then List.replicate 16 0 else (s.operand b.toNat).2 := by
  simp only [State.mmaCase, decide_eq_true_eq]

theorem mma_ks : (s.mmaCase f x a b).ks = (List.range (mmaFormats f x).2.2).filter fun d => s.core.cold.triple.dep.getLsbD d := rfl

/-- An element of an operand row is a field of it, in its format. -/
theorem elemAt_elements (fmt : Nat) {depth i d : Nat} {rows : List (BitVec 256)} (hi : i < rows.length) (hd : d < depth) :
    elemAt (rows.map (elements fmt depth)) i d = decodeElem fmt ((rows.getD i 0).extractLsb' (256 / depth * d) (256 / depth)).toNat := by
  have hr : i < (rows.map (elements fmt depth)).length := by rwa [List.length_map]
  have he : d < (elements fmt depth rows[i]).length := by simpa [elements] using hd
  rw [elemAt, List.getD_eq_getElem _ _ hr, List.getElem_map, List.getD_eq_getElem _ _ he, List.getD_eq_getElem _ _ hi]
  simp only [elements, List.getElem_map, List.getElem_range, bits_eq_extractLsb']

theorem decodeCb2_length {idx ent : Nat} {hs : List Int} (h : decodeCb2 idx ent = some hs) : hs.length = 8 := by
  simp only [decodeCb2] at h
  split_ifs at h
  all_goals
    obtain rfl := Option.some.inj h
    simp

/-- Where every group gives eight, an entry stands in the group of its number divided by eight. -/
theorem getD_flatMap_eight {α : Type} (e : α) {g : Nat → List α} (eight : ∀ i, (g i).length = 8) {n d : Nat} (hd : d < 8 * n) :
    ((List.range n).flatMap g).getD d e = (g (d / 8)).getD (d % 8) e := by
  induction n with
  | zero => omega
  | succ n ih =>
    have before : ((List.range n).flatMap g).length = 8 * n := by
      rw [List.length_flatMap, List.map_congr_left fun i _ => eight i]
      simp [mul_comm]
    rw [List.range_succ, List.flatMap_append, List.flatMap_singleton]
    by_cases low : d < 8 * n
    · rw [List.getD_append _ _ _ _ (before ▸ low), ih low]
    · rw [List.getD_append_right _ _ _ _ (by omega), before, show d / 8 = n by omega, show d - 8 * n = d % 8 by omega]

/-- A weight of a cb2 column is the half in its place of what its index decodes to, 0 where the index is malformed (R63, R64, R205). -/
theorem elemAt_cb2 (m : Cold) (rows : List (BitVec 256)) {j d : Nat} (hj : j < 16) (hd : d < 32) :
    elemAt ((List.range 16).map (m.cb2Column rows)) j d =
      match decodeCb2 ((rows.getD (d / 8) 0).extractLsb' (16 * j) 16).toNat
          (Sp.get 0 m.cbt (((rows.getD (d / 8) 0).extractLsb' (16 * j) 16).toNat % 256)).toNat with
      | some hs => Val.num (decide (hs.getD (d % 8) 0 < 0)) (hs.getD (d % 8) 0).natAbs (-1)
      | none => .num false 0 0 := by
  have hr : j < ((List.range 16).map (m.cb2Column rows)).length := by simpa using hj
  rw [elemAt, List.getD_eq_getElem _ _ hr, List.getElem_map, List.getElem_range, Cold.cb2Column, getD_flatMap_eight _ ?_ hd]
  · simp only [← bits_eq_extractLsb']
    rw [Cold.cb2]
    cases h : decodeCb2 _ _ with
    | none => exact List.getD_replicate _ (Nat.mod_lt _ (by decide))
    | some hs =>
      have place : d % 8 < hs.length := (Nat.mod_lt d (by decide)).trans_eq (decodeCb2_length h).symm
      dsimp only
      rw [List.getD_eq_getElem _ _ (by rwa [List.length_map]), List.getElem_map, List.getD_eq_getElem _ _ place]
  · intro g
    cases h : m.cb2 rows g j with
    | none => exact List.length_replicate
    | some hs => exact (List.length_map _).trans (decodeCb2_length h)

theorem elemAt_mma_a {i d : Nat} (hi : i ∈ (s.mmaCase f x a b).rows) (hd : d < (mmaFormats f x).2.2) :
    let n := 256 / (mmaFormats f x).2.2
    elemAt (s.mmaCase f x a b).a i d =
      decodeElem (mmaFormats f x).1 (((s.operand a.toNat).1.getD i 0).extractLsb' (n * d) n).toNat :=
  elemAt_elements _ ((operand_length s _).1.symm ▸ (mem_mma_rows.1 hi).1) hd

theorem elemAt_mma_b {j d : Nat} (hj : j ∈ (s.mmaCase f x a b).cols) (hd : d < (mmaFormats f x).2.2) :
    let n := 256 / (mmaFormats f x).2.2
    elemAt (s.mmaCase f x a b).b j d =
      if f = 7 then
        match decodeCb2 (((s.operand b.toNat).1.getD (d / 8) 0).extractLsb' (16 * j) 16).toNat
            (Sp.get 0 s.core.cold.cbt ((((s.operand b.toNat).1.getD (d / 8) 0).extractLsb' (16 * j) 16).toNat % 256)).toNat with
        | some hs => Val.num (decide (hs.getD (d % 8) 0 < 0)) (hs.getD (d % 8) 0).natAbs (-1)
        | none => .num false 0 0
      else decodeElem (mmaFormats f x).2.1 (((s.operand b.toNat).1.getD j 0).extractLsb' (n * d) n).toNat := by
  have inside : j < 16 := (mem_mma_cols.1 hj).1
  have elems : (s.mmaCase f x a b).b = if f = 7 then (List.range 16).map (s.core.cold.cb2Column (s.operand b.toNat).1)
      else (s.operand b.toNat).1.map (elements (mmaFormats f x).2.1 (mmaFormats f x).2.2) := by
    simp only [State.mmaCase, decide_eq_true_eq]
  rw [elems]
  split_ifs with cb2
  · subst cb2
    exact elemAt_cb2 s.core.cold _ inside hd
  · exact elemAt_elements _ ((operand_length s _).1.symm ▸ inside) hd

/-- The formats and the depth of each code (R203). -/
theorem mmaFormats_eq (f : BitVec 3) (x : BitVec 1) : mmaFormats f x =
    match f.toNat with
    | 0 => (2, 2, 16)
    | 1 => (1, 1, 16)
    | 2 => (3, if x = 1 then 4 else 3, 32)
    | 3 => (4, if x = 1 then 3 else 4, 32)
    | 4 => (5, 5, 64)
    | 5 => (6, 6, 32)
    | 6 => (7, 7, 64)
    | _ => (if x = 1 then 4 else 3, 8, 32) := by
  revert f x
  decide

end

/-! ## Products, sums and the words they give (R57, R204, R206) -/

section
variable (y : MmaCase) {seg : Bool} {i j : Nat}

theorem products_of_unpaired (h : y.paired seg i j = false) : y.products seg i j = [] := by
  rw [MmaCase.products, h]
  rfl

theorem products_of_paired (h : y.paired seg i j = true) : y.products seg i j = y.ks.map fun k => (elemAt y.a i k).mul (elemAt y.b j k) := by
  rw [MmaCase.products, h]
  rfl

theorem paired_false : y.paired false i j = true := rfl

theorem paired_iff (g : BitVec 1) : y.paired (decide (g = 1)) i j = true ↔
    g = 0 ∨ (y.tagA.getD i 0).extractLsb' 0 8 = (y.tagB.getD j 0).extractLsb' 0 8 := by
  have plain : g ≠ 1 ↔ g = 0 := by revert g; decide
  simp only [MmaCase.paired, Bool.or_eq_true, Bool.not_eq_true', decide_eq_false_iff_not, plain, decide_eq_true_eq]
  rfl

/-- The words an `mma` writes: the active elements, and with CHK the checksums of the active rows and columns and the corner. -/
theorem mem_words {int seg chk ovw : Bool} {base : Nat → Word32} {n : Nat} {v : Word32} : (n, v) ∈ y.words int seg chk ovw base ↔
    (∃ i ∈ y.rows, ∃ j ∈ y.cols, n = 17 * i + j ∧
      v = if int then accumulateInt ovw (base (17 * i + j)) (y.products seg i j) else accumulate ovw (base (17 * i + j)) (y.products seg i j)) ∨
    chk = true ∧ ((∃ i ∈ y.rows, n = 17 * i + 16 ∧ v = accumulate ovw (base (17 * i + 16)) (y.rowTerms seg i)) ∨
      (∃ j ∈ y.cols, n = 272 + j ∧ v = accumulate ovw (base (272 + j)) (y.colTerms seg j)) ∨
      n = 288 ∧ v = accumulate ovw (base 288) (y.cornerTerms seg)) := by
  cases chk
  all_goals
    simp only [MmaCase.words, List.mem_append, List.mem_flatMap, List.mem_map, List.mem_singleton, Prod.mk.injEq, if_true,
      Bool.false_eq_true, if_false, List.not_mem_nil, or_false, false_and, true_and, or_assoc, eq_comm (a := n), eq_comm (a := v)]

theorem rowTerms_eq (seg : Bool) (i : Nat) : y.rowTerms seg i = if (y.cols.filter fun j => y.paired seg i j) = [] then [] else
    y.ks.map fun d => (elemAt y.a i d).mul (sumVals 0 ((y.cols.filter fun j => y.paired seg i j).map fun j => elemAt y.b j d)) := by
  simp only [MmaCase.rowTerms, List.isEmpty_iff]
  rfl

theorem colTerms_eq (seg : Bool) (j : Nat) : y.colTerms seg j = if (y.rows.filter fun i => y.paired seg i j) = [] then [] else
    y.ks.map fun d => (sumVals 0 ((y.rows.filter fun i => y.paired seg i j).map fun i => elemAt y.a i d)).mul (elemAt y.b j d) := by
  simp only [MmaCase.colTerms, List.isEmpty_iff]
  rfl

/-- Without SEG every row meets every column, and one row stands for all. -/
theorem leaders_false (once : y.rows.Nodup) : y.leaders false = if y.cols = [] then [] else y.rows.head?.toList := by
  rw [MmaCase.leaders]
  cases hc : y.cols with
  | nil => simp
  | cons j cols =>
    have all : (y.rows.filter fun i => (j :: cols).any fun j => y.paired false i j) = y.rows :=
      List.filter_eq_self.2 fun i _ => List.any_eq_true.2 ⟨j, List.mem_cons_self, rfl⟩
    rw [all, if_neg (List.cons_ne_nil _ _)]
    cases hr : y.rows with
    | nil => rfl
    | cons i rows =>
      have new : i ∉ rows := (List.nodup_cons.1 (hr ▸ once)).1
      have first : ∀ k, ((i :: rows).find? fun r => !false || decide ((y.tagA.getD r 0).truncate 8 = (y.tagA.getD k 0).truncate 8)) = some i :=
        fun _ => rfl
      simp only [first, Option.some.injEq, decide_true, List.filter_cons_of_pos, List.head?_cons, Option.toList_some]
      have others : (rows.filter fun k => decide (i = k)) = [] :=
        List.filter_eq_nil_iff.2 fun k hk same => new (of_decide_eq_true same ▸ hk)
      rw [others]

/-- Without SEG the corner takes the products of the sums over all active rows and columns (R206). -/
theorem cornerTerms_false (once : y.rows.Nodup) : y.cornerTerms false = if y.rows = [] ∨ y.cols = [] then [] else
    y.ks.map fun d => (sumVals 0 (y.rows.map fun i => elemAt y.a i d)).mul (sumVals 0 (y.cols.map fun j => elemAt y.b j d)) := by
  have every (l : List Nat) : (l.filter fun _ => true) = l := List.filter_eq_self.2 fun _ _ => rfl
  rw [MmaCase.cornerTerms, leaders_false y once]
  cases hc : y.cols with
  | nil => simp
  | cons j cols =>
    rw [if_neg (List.cons_ne_nil _ _)]
    cases hr : y.rows with
    | nil => simp
    | cons i rows =>
      rw [if_neg (by simp)]
      simp only [List.head?_cons, Option.toList_some, List.flatMap_singleton, List.find?_cons, paired_false, MmaCase.rowSum, MmaCase.colSum,
        every, hr, hc]

end

/-! ## What lands -/

/-- The record an `mma` leaves its tile (R204). -/
def mmaInfo (s : State) (f : BitVec 3) (x k o : BitVec 1) (a b : BitVec 4) (c : BitVec 6) : Tile :=
  let y := s.mmaCase f x a b
  { rt := packTags (y.tagA.map (·.truncate 8)), ct := packTags (y.tagB.map (·.truncate 8)), int := decide (f = 5 ∨ f = 6),
    chkv := decide (k = 1) && (decide (o = 1) || (s.core.cold.chainTile 1 c.toNat).chkv) }

theorem lands_mma (w : BitVec 4) (f : BitVec 3) (x g k o : BitVec 1) (a b : BitVec 4) (c : BitVec 6) (s : State) :
    Lands s (exec (.mma w f x g k o a b c) s) (s.orderHeat (.mma w f x g k o a b c)) .matrix [(4, .acc c.toNat
      ((s.mmaCase f x a b).words (decide (f = 5 ∨ f = 6)) (decide (g = 1)) (decide (k = 1)) (decide (o = 1)) (s.core.cold.chainWord 1 c.toNat))
      (mmaInfo s f x k o a b c) true)] := by
  rw [exec_mma, execMma, order]
  simp only [charge_cold, charge_mmaCase]
  exact lands_land (.mma w f x g k o a b c) s ..

theorem tagOf_packed {ts : List (BitVec 9)} (sixteen : ts.length = 16) (i : Nat) :
    tagOf (packTags (ts.map (·.truncate 8))) i = (ts.getD i 0).extractLsb' 0 8 := by
  rw [tagOf_packTags (by rw [List.length_map, sixteen])]
  exact List.getD_map ts (0 : BitVec 9) (BitVec.setWidth 8)

theorem tagOf_mmaInfo_rt (s : State) (f : BitVec 3) (x k o : BitVec 1) (a b : BitVec 4) (c : BitVec 6) (i : Nat) :
    tagOf (mmaInfo s f x k o a b c).rt i = ((s.operand a.toNat).2.getD i 0).extractLsb' 0 8 :=
  tagOf_packed (operand_length s _).2 i

theorem tagOf_mmaInfo_ct (s : State) (f : BitVec 3) (x k o : BitVec 1) (a b : BitVec 4) (c : BitVec 6) {i : Nat} (hi : i < 16) :
    tagOf (mmaInfo s f x k o a b c).ct i = if f = 7 then 0 else ((s.operand b.toNat).2.getD i 0).extractLsb' 0 8 := by
  have sixteen : (s.mmaCase f x a b).tagB.length = 16 := by
    rw [mma_tagB]
    split
    · exact List.length_replicate
    · exact (operand_length s _).2
  refine (tagOf_packed sixteen i).trans ?_
  rw [mma_tagB]
  split
  · rw [List.getD_replicate _ hi]
    rfl
  · rfl

/-- Where the checksums stand among the words an `mma` with CHK writes. -/
theorem checksum_mem_words {y : MmaCase} {int seg : Bool} {k o : BitVec 1} {base : Nat → Word32} {n : Nat} {ps : List Val} (chk : k = 1)
    (term : (∃ i ∈ y.rows, n = 17 * i + 16 ∧ ps = y.rowTerms seg i) ∨ (∃ j ∈ y.cols, n = 272 + j ∧ ps = y.colTerms seg j) ∨
      n = 288 ∧ ps = y.cornerTerms seg) :
    (n, if ps = [] then (if o = 1 then (0 : Word32) else base n)
      else round32 0 0 (sumVals 0 (ps ++ if o = 1 then [] else [val32 (base n)]))) ∈ y.words int seg (decide (k = 1)) (decide (o = 1)) base := by
  rw [← accumulate_eq]
  refine (mem_words y).2 (.inr ⟨decide_eq_true chk, ?_⟩)
  rcases term with ⟨i, hi, rfl, rfl⟩ | ⟨j, hj, rfl, rfl⟩ | ⟨rfl, rfl⟩
  · exact .inl ⟨i, hi, rfl, rfl⟩
  · exact .inr (.inl ⟨j, hj, rfl, rfl⟩)
  · exact .inr (.inr ⟨rfl, rfl⟩)

/-- Settles O29: the words by `mem_words`, the elements by the operands' rows. -/
theorem matrixMultiplyAccumulates : Obligations.MatrixMultiplyAccumulates := by
  intro w f x g k o a b c s y old
  have rounded (h5 : f ≠ 5) (h6 : f ≠ 6) : decide (f = 5 ∨ f = 6) = false := decide_eq_false (not_or.2 ⟨h5, h6⟩)
  refine ⟨_, _, lands_mma w f x g k o a b c s, rfl, fun off => ?_, fun on => ?_,
    fun i hi => ⟨tagOf_mmaInfo_rt .., tagOf_mmaInfo_ct s f x k o a b c hi⟩, fun on n v mem => ?_, ?_, fun off n v mem => ?_,
    fun i hi j hj => ⟨fun h5 h6 some => ?_, fun h5 h6 none => ?_, fun int => ?_, fun seg apart => ?_⟩,
    fun i => mem_mma_rows, fun j => mem_mma_cols, ?_⟩
  · subst off
    rfl
  · subst on
    rfl
  · rcases (mem_words y).1 mem with ⟨i, hi, j, hj, place, -⟩ | ⟨-, ⟨i, hi, place, -⟩ | ⟨j, hj, place, -⟩ | ⟨place, -⟩⟩
    · exact .inl ⟨i, hi, j, hj, place⟩
    · exact .inr (.inl ⟨i, hi, place⟩)
    · exact .inr (.inr (.inl ⟨j, hj, place⟩))
    · exact .inr (.inr (.inr place))
  · intro sum seg on h5 h6
    refine ⟨fun i hi => ?_, fun j hj => ?_, fun plain => ?_⟩
    · exact checksum_mem_words on (.inl ⟨i, hi, rfl, (rowTerms_eq ..).symm⟩)
    · exact checksum_mem_words on (.inr (.inl ⟨j, hj, rfl, (colTerms_eq ..).symm⟩))
    · refine checksum_mem_words on (.inr (.inr ⟨rfl, ?_⟩))
      subst plain
      exact (cornerTerms_false y nodup_mma_rows).symm
  · rcases (mem_words y).1 mem with ⟨i, hi, j, hj, place, -⟩ | ⟨on, -⟩
    · exact ⟨i, hi, j, hj, place⟩
    · subst off
      exact absurd on (by decide)
  · refine (mem_words y).2 (.inl ⟨i, hi, j, hj, rfl, ?_⟩)
    rw [rounded h5 h6, if_neg Bool.false_ne_true, accumulate_eq, if_neg some]
  · refine (mem_words y).2 (.inl ⟨i, hi, j, hj, rfl, ?_⟩)
    rw [rounded h5 h6, if_neg Bool.false_ne_true, accumulate_eq, if_pos none]
  · refine (mem_words y).2 (.inl ⟨i, hi, j, hj, rfl, ?_⟩)
    rw [if_pos (decide_eq_true int), accumulateInt_eq]
  · subst seg
    refine products_of_unpaired y (Bool.eq_false_iff.2 fun met => ?_)
    exact ((paired_iff y 1).1 met).elim (by decide) apart
  · intro form
    have same : form = mmaFormats f x := (mmaFormats_eq f x).symm
    clear_value form
    subst same
    intro n deep left right
    have inside {d : Nat} (hd : d ∈ deep) : d < (mmaFormats f x).2.2 := List.mem_range.1 (List.mem_filter.1 hd).1
    have rows : ∀ i ∈ y.rows, ∀ d ∈ deep, elemAt y.a i d = left i d := fun i hi d hd => elemAt_mma_a hi (inside hd)
    have cols : ∀ j ∈ y.cols, ∀ d ∈ deep, elemAt y.b j d = right j d := fun j hj d hd => elemAt_mma_b hj (inside hd)
    refine ⟨mma_ks, rows, cols, fun i hi j hj met => ?_⟩
    rw [products_of_paired y ((paired_iff y g).2 met)]
    exact List.map_congr_left fun d hd => by rw [rows i hi d hd, cols j hj d hd]

end Sys2Proof.Proofs
end

section
/-! # O30: `mzero` and `mcopy` (R211, R212) -/

namespace Sys2Proof.Proofs

open Sys2Proof.Machine Sys2Proof.Laws

/-- The write of all 289 words of tile `t` and of its record. -/
def wholeTile (t : Nat) (f : Nat → Word32) (info : Tile) : LandOp := .acc t ((List.range 289).map fun e => (e, f e)) info false

/-- A whole tile lands in its 289 words and its record, and in no other tile. -/
theorem apply_wholeTile (m : Cold) (t : Nat) (f : Nat → Word32) (info : Tile) :
    { m.apply (wholeTile t f info) with acc := m.acc, tile := m.tile } = m ∧ (m.apply (wholeTile t f info)).tileAt t = info ∧
      (∀ e, e < 289 → (m.apply (wholeTile t f info)).accAt t e = f e) ∧
      ∀ k, k ≠ t → (m.apply (wholeTile t f info)).tileAt k = m.tileAt k ∧
        ∀ e, e < 289 → (m.apply (wholeTile t f info)).accAt k e = m.accAt k e := by
  have once : (((List.range 289).map fun e => (e, f e)).map (·.1)).Nodup := by
    rw [List.map_map]
    exact (List.map_id _).symm ▸ List.nodup_range
  have inside : ∀ x ∈ (List.range 289).map fun e => (e, f e), x.1 < 289 := by
    simp only [List.forall_mem_map, List.mem_range, imp_self, implies_true]
  obtain ⟨frame, record, words, others⟩ := apply_acc once inside m t info false
  exact ⟨frame, record, fun e he => words (e, f e) (List.mem_map.2 ⟨e, List.mem_range.2 he, rfl⟩), others⟩

theorem lands_mzero (w : BitVec 4) (a : BitVec 6) (s : State) :
    Lands s (exec (.mzero w a) s) 8 .matrix [(2, wholeTile a.toNat (fun _ => 0) {})] :=
  lands_land (.mzero w a) s ..

theorem lands_mcopy {a b : BitVec 6} (w : BitVec 4) (s : State) (h : a ≠ b) :
    Lands s (exec (.mcopy w a b) s) 8 .matrix [(2, wholeTile a.toNat (s.core.cold.accAt b.toNat) (s.core.cold.tileAt b.toNat))] := by
  rw [exec_mcopy, execMcopy, order, if_neg h, charge_cold]
  exact lands_land (.mcopy w a b) s ..

theorem lands_mcopy_self (w : BitVec 4) (a : BitVec 6) (s : State) : Lands s (exec (.mcopy w a a) s) 8 .matrix [] := by
  rw [exec_mcopy, execMcopy, order, if_pos rfl]
  exact lands_charge (.mcopy w a a) s .matrix

/-- Settles O30: each order writes a whole tile, and `apply_wholeTile` says what that leaves. -/
theorem zeroAndCopyReachEveryWord : Obligations.ZeroAndCopyReachEveryWord :=
  fun w a _ s => ⟨⟨_, lands_mzero w a s, fun m => apply_wholeTile m ..⟩, fun h => ⟨_, lands_mcopy w s h, fun m => apply_wholeTile m ..⟩,
    lands_mcopy_self w a s⟩

end Sys2Proof.Proofs
end

section
/-! # O31: `mlda`, `ma2s`, `mscale` and `mstore` (R62, R209, R210, R213, R214) -/

namespace Sys2Proof.Proofs

open Sys2Proof.Machine Sys2Proof.Laws

/-! ## `mlda` and `ma2s` -/

/-- The word of element (i, j) in tile `k` of a pair in the cold store (R213). -/
def coldWord (s : State) (pr : Pair) (k i j : Nat) : Word32 := BitVec.ofNat 32 (s.coldNat pr.brot (pr.row k (s.iter .matrix) i + 4 * j) 4)

/-- The zeros a load writes in the checksum row and column and the corner. -/
def clearedSums : List (Nat × Word32) := ((List.range 16).map fun i => (17 * i + 16, 0)) ++ (List.range 17).map fun j => (272 + j, 0)

/-- What an `mlda` writes: each active element by `f`, and with a load the zeros of the checksums. -/
def ldaWords (m : Cold) (add : BitVec 1) (f : Nat → Nat → Word32) : List (Nat × Word32) :=
  (m.active.map fun x => (17 * x.1 + x.2, f x.1 x.2)) ++ if add = 1 then [] else clearedSums

/-- The row tags an `mlda` writes. -/
def ldaTags (s : State) (pr : Pair) (k : Nat) : List (Nat × Byte) :=
  ((List.range 16).filter fun i => s.core.cold.triple.row.getLsbD i).map fun i =>
    (i, (s.coldSide pr.brot (pr.row k (s.iter .matrix) i)).extractLsb' 0 8)

theorem mem_clearedSums {n : Nat} {v : Word32} :
    (n, v) ∈ clearedSums ↔ v = 0 ∧ ((∃ i, i < 16 ∧ n = 17 * i + 16) ∨ ∃ j, j < 17 ∧ n = 272 + j) := by
  simp only [clearedSums, List.mem_append, List.mem_map, List.mem_range, Prod.mk.injEq]
  constructor
  · rintro (⟨i, hi, rfl, rfl⟩ | ⟨j, hj, rfl, rfl⟩)
    · exact ⟨rfl, .inl ⟨i, hi, rfl⟩⟩
    · exact ⟨rfl, .inr ⟨j, hj, rfl⟩⟩
  · rintro ⟨rfl, ⟨i, hi, rfl⟩ | ⟨j, hj, rfl⟩⟩
    · exact .inl ⟨i, hi, rfl, rfl⟩
    · exact .inr ⟨j, hj, rfl, rfl⟩

theorem mem_activeWords {m : Cold} {f : Nat → Nat → Word32} {n : Nat} {v : Word32} :
    (n, v) ∈ (m.active.map fun x => (17 * x.1 + x.2, f x.1 x.2)) ↔ ∃ i j, (i, j) ∈ m.active ∧ n = 17 * i + j ∧ v = f i j := by
  simp only [List.mem_map, Prod.exists, Prod.mk.injEq, eq_comm (a := n), eq_comm (a := v)]

theorem lands_mlda (w : BitVec 4) (a : BitVec 6) (p : BitVec 3) (k : BitVec 12) (e : BitVec 1) (s : State) :
    let m := s.core.cold
    let loaded := coldWord s (m.pair p.toNat) k.toNat
    Lands s (exec (.mlda w a p k e) s) (s.orderHeat (.mlda w a p k e)) .matrix
      [(4, .accPart a.toNat (ldaWords m e fun i j => if e = 1 then add32 0 0 (m.accAt a.toNat (17 * i + j)) (loaded i j) else loaded i j)
        (some (ldaTags s (m.pair p.toNat) k.toNat)))] := by
  rw [exec_mlda, execMlda, order]
  simp only [charge_cold, charge_iter, charge_coldNat, charge_coldSide]
  exact lands_land (.mlda w a p k e) s ..

/-- The tile's record when an `mlda` lands. -/
theorem apply_mlda_tileAt (s : State) (pr : Pair) (t k : Nat) (ws : List (Nat × Word32)) (y : Cold) :
    let x := (y.apply (.accPart t ws (some (ldaTags s pr k)))).tileAt t
    x.chkv = false ∧ x.int = false ∧ x.ct = 0 ∧ ∀ i, i < 16 → tagOf x.rt i = if s.core.cold.triple.row.getLsbD i then
      (s.coldSide pr.brot (pr.row k (s.iter .matrix) i)).extractLsb' 0 8 else tagOf (y.tileAt t).rt i :=
  apply_accPart_tileAt y t ws _ fun i => (s.coldSide pr.brot (pr.row k (s.iter .matrix) i)).extractLsb' 0 8

/-- The new high and low tile of an `ma2s` (R214). -/
theorem lands_ma2s (w : BitVec 4) (a l b : BitVec 6) (s : State) :
    let m := s.core.cold
    let sum := fun e => twoSum (m.accAt a.toNat e) (m.accAt l.toNat e) (m.accAt b.toNat e)
    let info : Tile := { rt := (m.tileAt b.toNat).rt, ct := (m.tileAt b.toNat).ct, chkv := false, int := false }
    Lands s (exec (.ma2s w a l b) s) 24 .matrix
      [(4, .acc a.toNat ((List.range 289).map fun e => (e, (sum e).1)) info false),
       (4, .acc l.toNat ((List.range 289).map fun e => (e, (sum e).2)) info false)] := by
  intro m sum info
  rw [exec_ma2s, execMa2s, order]
  simp only [charge_cold, List.map_map]
  exact lands_land_after (lands_land (.ma2s w a l b) s ..) ..

/-! ## `mscale` -/

theorem val_scale (v : Val) (e : Int) : v.scale e = match v with
    | .num sign mag exp => Val.num sign mag (exp + e)
    | _ => v := by
  cases v <;> rfl

/-- The code of row or column `n` in a scale vector of an `mscale` (R209). -/
def scaleCode (s : State) (pr : Pair) (b : BitVec 8) (which n : Nat) : Nat :=
  s.coldNat pr.brot ((pr.scales ((b.toNat + s.iter .matrix) % 256)).getD which (0, 0)).1 8 / 16 ^ n % 16

/-- The word an `mscale` writes in an element with these scale codes (R62). -/
def scaledWord (m : Cold) (t q n ca cb : Nat) : Word32 :=
  let ms12 := Sp.get 0 m.ms 12
  let e : Int := signedOf 8 (bits ms12 0 8) + (ca : Int) + signedOf 8 (bits ms12 8 8) + (cb : Int)
  let part : Val := if (m.tileAt q).int then .ofInt (m.accAt q n).toInt else val32 (m.accAt q n)
  round32 0 0 (sumVals 0 [val32 (m.chainWord 2 t n), part.scale e])

/-- What an `mscale` writes: the active elements neither of whose codes is 15. -/
def scaleWords (s : State) (a q : BitVec 6) (p : BitVec 3) (b : BitVec 8) : List (Nat × Word32) :=
  let code := scaleCode s (s.core.cold.pair p.toNat) b
  s.core.cold.active.filterMap fun x =>
    if code 0 x.1 = 15 ∨ code 1 x.2 = 15 then none
    else some (17 * x.1 + x.2, scaledWord s.core.cold a.toNat q.toNat (17 * x.1 + x.2) (code 0 x.1) (code 1 x.2))

theorem mem_scaleWords {s : State} {a q : BitVec 6} {p : BitVec 3} {b : BitVec 8} {n : Nat} {v : Word32} :
    let code := scaleCode s (s.core.cold.pair p.toNat) b
    (n, v) ∈ scaleWords s a q p b ↔ ∃ i j, (i, j) ∈ s.core.cold.active ∧ code 0 i ≠ 15 ∧ code 1 j ≠ 15 ∧ n = 17 * i + j ∧
      v = scaledWord s.core.cold a.toNat q.toNat (17 * i + j) (code 0 i) (code 1 j) := by
  intro code
  simp only [scaleWords, List.mem_filterMap, Prod.exists]
  refine exists₂_congr fun i j => and_congr_right fun _ => ?_
  split_ifs with none
  · simp only [false_iff]
    rintro ⟨row, col, -⟩
    exact none.elim row col
  · simp only [Option.some.injEq, Prod.mk.injEq, eq_comm (a := n), eq_comm (a := v)]
    obtain ⟨row, col⟩ := not_or.1 none
    exact ⟨fun h => ⟨row, col, h⟩, fun h => h.2.2⟩

theorem lands_mscale (w : BitVec 4) (a q : BitVec 6) (p : BitVec 3) (b : BitVec 8) (s : State) :
    let pt := s.core.cold.tileAt q.toNat
    Lands s (exec (.mscale w a q p b) s) (s.orderHeat (.mscale w a q p b)) .matrix
      [(4, .acc a.toNat (scaleWords s a q p b) { rt := pt.rt, ct := pt.ct, chkv := false, int := false } true)] := by
  rw [exec_mscale, execMscale, order]
  simp only [charge_cold, charge_iter, charge_coldNat]
  exact lands_land (.mscale w a q p b) s ..

theorem scaledWord_eq (m : Cold) (t q n ca cb : Nat) : scaledWord m t q n ca cb = round32 0 0 (sumVals 0 [val32 (m.chainWord 2 t n),
    (if (m.tileAt q).int then Val.ofInt (m.accAt q n).toInt else val32 (m.accAt q n)).scale
      (((Sp.get 0 m.ms 12).extractLsb' 0 8).toInt + (ca : Int) + ((Sp.get 0 m.ms 12).extractLsb' 8 8).toInt + (cb : Int))]) := by
  simp only [scaledWord, signedOf, bits_eq_extractLsb', BitVec.ofNat_toNat, BitVec.setWidth_eq]

/-! ## `mstore` -/

/-- Bytes of an element an `mstore` writes. -/
def storeSize (h : BitVec 1) : Nat := if h = 1 then 2 else 4

/-- The word an `mstore` takes for element (i, j) of its tile: FILL where SEG keeps row and column apart (R210). -/
def storeWord (m : Cold) (a : BitVec 6) (g : BitVec 1) (i j : Nat) : Word32 :=
  if g = 1 ∧ tagOf (m.tileAt a.toNat).rt i ≠ tagOf (m.tileAt a.toNat).ct j then (Sp.get 0 m.ms 14).extractLsb' 0 32
  else m.accAt a.toNat (17 * i + j)

/-- Its code: bf16 with HALF. -/
def storeCode (h : BitVec 1) (v : Word32) : Nat := if h = 1 then (encodeElem 2 0 false 0 (val32 v)).1 else v.toNat

/-- The bytes of element `x` and where they go. -/
def storeCells (s : State) (a : BitVec 6) (p : BitVec 3) (k : BitVec 12) (g h : BitVec 1) (x : Nat × Nat) : List (Nat × Byte) :=
  let pr := s.core.cold.pair p.toNat
  s.coldCells pr.brot (coldAddr (pr.row k.toNat (s.iter .matrix) x.1 + storeSize h * x.2))
    (leBytes (storeSize h) (storeCode h (storeWord s.core.cold a g x.1 x.2)))

def storeBytes (s : State) (a : BitVec 6) (p : BitVec 3) (k : BitVec 12) (g h : BitVec 1) : List (Nat × Byte) :=
  s.core.cold.active.flatMap (storeCells s a p k g h)

/-- Each granule that receives a byte, with its row's tag. -/
def storeSides (s : State) (a : BitVec 6) (p : BitVec 3) (k : BitVec 12) (g h : BitVec 1) : List (Nat × Option Byte) :=
  s.core.cold.active.flatMap fun x =>
    (storeCells s a p k g h x).map fun y => (y.1 / 32, some (tagOf (s.core.cold.tileAt a.toNat).rt x.1))

theorem lands_mstore (w : BitVec 4) (a : BitVec 6) (p : BitVec 3) (k : BitVec 12) (g h : BitVec 1) (s : State) :
    Lands s (exec (.mstore w a p k g h) s) (s.orderHeat (.mstore w a p k g h)) .matrix
      [(4, .cold (storeBytes s a p k g h) (storeSides s a p k g h))] := by
  have code (v : Word32) : (if h = 1 then encodeElem 2 0 false 0 (val32 v) else (v.toNat, 0)).1 = storeCode h v := by
    unfold storeCode
    split <;> rfl
  rw [exec_mstore, execMstore, order]
  simp only [charge_cold, charge_iter, charge_coldCells, List.flatMap_map, code]
  exact lands_land (.mstore w a p k g h) s ..

/-- Byte `n` of element (i, j) stands at the address of R210 and is byte `n` of the element's code. -/
theorem mem_storeCells {s : State} {a : BitVec 6} {p : BitVec 3} {k : BitVec 12} {g h : BitVec 1} {i j : Nat} {x : Nat × Byte} :
    let pr := s.core.cold.pair p.toNat
    let place := fun n => (pr.row k.toNat (s.iter .matrix) i + storeSize h * j + n) % 2 ^ 19
    x ∈ storeCells s a p k g h (i, j) ↔ ∃ n, n < storeSize h ∧ place n < s.core.slot.cquota.toNat ∧
      x = (coldPlace pr.brot (place n), BitVec.ofNat 8 (storeCode h (storeWord s.core.cold a g i j) / 256 ^ n)) := by
  intro pr place
  simp only [storeCells, mem_coldCells, leBytes_length, coldAddr_coldAddr_add]
  refine exists_congr fun n => and_congr_right fun inside => ?_
  rw [leBytes_getD inside]

theorem storeCode_byte (h : BitVec 1) (v : Word32) (n : Nat) : BitVec.ofNat 8 (storeCode h v / 256 ^ n) =
    if h = 1 then BitVec.ofNat 8 ((encodeElem 2 0 false 0 (val32 v)).1 / 256 ^ n) else v.extractLsb' (8 * n) 8 := by
  unfold storeCode
  split
  · rfl
  · exact ofNat_div_pow_eq_extractLsb' v n

theorem mem_storeBytes {s : State} {a : BitVec 6} {p : BitVec 3} {k : BitVec 12} {g h : BitVec 1} {x : Nat × Byte} :
    x ∈ storeBytes s a p k g h ↔ ∃ i j, (i, j) ∈ s.core.cold.active ∧ x ∈ storeCells s a p k g h (i, j) := by
  simp only [storeBytes, List.mem_flatMap, Prod.exists]

theorem mem_storeSides {s : State} {a : BitVec 6} {p : BitVec 3} {k : BitVec 12} {g h : BitVec 1} {x : Nat × Option Byte} :
    x ∈ storeSides s a p k g h ↔ ∃ i j, (i, j) ∈ s.core.cold.active ∧ ∃ y ∈ storeCells s a p k g h (i, j),
      x = (y.1 / 32, some (tagOf (s.core.cold.tileAt a.toNat).rt i)) := by
  simp only [storeSides, List.mem_flatMap, List.mem_map, Prod.exists (p := fun x : Nat × Nat => _), eq_comm (a := x)]

/-! ## The statement -/

theorem mlda_load_words {m : Cold} {f : Nat → Nat → Word32} {n : Nat} {v : Word32} :
    (n, v) ∈ ldaWords m 0 f ↔ (∃ i j, (i, j) ∈ m.active ∧ n = 17 * i + j ∧ v = f i j) ∨
      (v = 0 ∧ ((∃ i, i < 16 ∧ n = 17 * i + 16) ∨ ∃ j, j < 17 ∧ n = 272 + j)) := by
  rw [ldaWords, if_neg (by decide), List.mem_append, mem_activeWords, mem_clearedSums]

theorem mlda_add_words {m : Cold} {f : Nat → Nat → Word32} {n : Nat} {v : Word32} :
    (n, v) ∈ ldaWords m 1 f ↔ ∃ i j, (i, j) ∈ m.active ∧ n = 17 * i + j ∧ v = f i j := by
  rw [ldaWords, if_pos rfl, List.append_nil, mem_activeWords]

/-- Settles O31: each order by the words it writes; membership of the lists by the lemmas above. -/
theorem tilesLoadScaleAndStore : Obligations.TilesLoadScaleAndStore := by
  refine ⟨fun w a b l p k s => ⟨⟨_, _, lands_mlda w a p k 0 s, apply_mlda_tileAt s _ _ _ _, fun i j on => ?_, fun i hi => ?_, fun j hj => ?_,
      fun n v mem => ?_⟩, ⟨_, _, lands_mlda w a p k 1 s, apply_mlda_tileAt s _ _ _ _, fun i j on => ?_, fun n v mem => ?_⟩,
      { rt := (s.core.cold.tileAt b.toNat).rt, ct := (s.core.cold.tileAt b.toNat).ct, chkv := false, int := false },
      rfl, rfl, rfl, rfl, lands_ma2s w a l b s⟩,
    fun w a q p b k g s => ⟨⟨_, _, lands_mscale w a q p b s, rfl, rfl, rfl, rfl, fun i j on row col => ?_, fun n v mem => ?_⟩,
      fun h => ⟨_, _, lands_mstore w a p k g h s, fun i j n on size inside => ⟨?_, ?_⟩, fun x mem => ?_, fun x mem => ?_⟩⟩⟩
  · exact mlda_load_words.2 (.inl ⟨i, j, (mem_active ..).2 on, rfl, rfl⟩)
  · exact mlda_load_words.2 (.inr ⟨rfl, .inl ⟨i, hi, rfl⟩⟩)
  · exact mlda_load_words.2 (.inr ⟨rfl, .inr ⟨j, hj, rfl⟩⟩)
  · rcases mlda_load_words.1 mem with ⟨i, j, on, h⟩ | zero
    · exact .inl ⟨i, j, (mem_active ..).1 on, h⟩
    · exact .inr zero
  · exact mlda_add_words.2 ⟨i, j, (mem_active ..).2 on, rfl, rfl⟩
  · obtain ⟨i, j, on, place, -⟩ := mlda_add_words.1 mem
    exact ⟨i, j, (mem_active ..).1 on, place⟩
  · refine mem_scaleWords.2 ⟨i, j, (mem_active ..).2 on, row.ne, col.ne, rfl, ?_⟩
    rw [scaledWord_eq, val_scale]
    rfl
  · obtain ⟨i, j, on, row, col, place, -⟩ := mem_scaleWords.1 mem
    exact ⟨i, j, (mem_active ..).1 on, place, row, col⟩
  · refine mem_storeBytes.2 ⟨i, j, (mem_active ..).2 on, mem_storeCells.2 ⟨n, size, inside, ?_⟩⟩
    rw [storeCode_byte]
    rfl
  · exact mem_storeSides.2 ⟨i, j, (mem_active ..).2 on, _, mem_storeCells.2 ⟨n, size, inside, rfl⟩, rfl⟩
  · obtain ⟨i, j, on, mem⟩ := mem_storeBytes.1 mem
    obtain ⟨n, size, inside, rfl⟩ := mem_storeCells.1 mem
    refine ⟨i, j, n, (mem_active ..).1 on, size, inside, ?_⟩
    rw [storeCode_byte]
    rfl
  · obtain ⟨i, j, on, y, cell, rfl⟩ := mem_storeSides.1 mem
    obtain ⟨n, size, inside, rfl⟩ := mem_storeCells.1 cell
    exact ⟨i, j, n, (mem_active ..).1 on, size, inside, rfl⟩

end Sys2Proof.Proofs
end

section
/-! # O32: `mtile`, `mloop`, `mwaits`, `mflag`, `mmask`, `mcbt` (R196, R219 to R224) -/

namespace Sys2Proof.Proofs

open Sys2Proof.Machine Sys2Proof.Laws

/-- An order that changes its engine's sequencer alone. -/
theorem steers_modEngine (i : Instr) (s : State) (e : EngineId) (f : Engine → Engine) :
    Steers s (.next ((s.charge (s.orderHeat i)).modCore fun c => c.modEngine e f)) (s.orderHeat i) e f := by
  refine ⟨_, rfl, issued_modCore s _ _ fun _ => rfl, ?_⟩
  rw [core_modCore, charge_core]
  refine ⟨engine_modEngine_self .., ?_, ?_, ?_, ?_, fun k other => (engine_modEngine ..).trans (if_neg other)⟩
  all_goals cases e <;> rfl

/-- Opening a window touches the window alone; outside handlers and replays there is one afterwards (R407). -/
theorem openWindow_core (s : State) (e : EngineId) (m : Mark) (tile : Bool) : ∃ w, (s.openWindow e m tile).core = { s.core with win := w } ∧
    (s.core.inHandler = false → s.core.replay = none → w.isSome = true) := by
  unfold State.openWindow
  by_cases again : tile = true ∧ s.core.reopens = true
  · refine ⟨_, by rw [if_pos again, core_modCore], fun _ _ => ?_⟩
    rw [Option.isSome_map]
    cases h : s.core.win with
    | none => simp [Core.reopens, h] at again
    | some w => rfl
  · rw [if_neg again]
    by_cases closed : s.core.replay.isSome = true ∨ s.core.inHandler = true
    · rw [if_pos closed]
      refine ⟨s.core.win, rfl, fun outside noReplay => ?_⟩
      simp [outside, noReplay] at closed
    · rw [if_neg closed, core_modCore]
      exact ⟨_, rfl, fun _ _ => rfl⟩

theorem exec_mtile_marks (w : BitVec 4) (s : State) :
    let x := s.core.engine .matrix
    ∃ t, exec (.mtile w) s = .next t ∧
      (t.core.engine .matrix).mark = some { step := x.step, loops := x.loops, msel := s.core.cold.msel, scnt := s.scnt } ∧
      t.core.cold.acc = s.core.cold.acc ∧ t.core.cold.pend = s.core.cold.pend ∧
      (s.core.inHandler = false → s.core.replay = none → t.core.win.isSome = true) := by
  intro x
  rw [exec_mtile, execMtile, order, charge_engine, charge_cold, charge_scnt]
  obtain ⟨win, opened, isOpen⟩ := openWindow_core ((s.charge (s.orderHeat (.mtile w))).modCore fun c => c.modEngine .matrix fun y =>
    { y with mark := some { step := x.step, loops := x.loops, msel := s.core.cold.msel, scnt := s.scnt } }) .matrix
    { step := x.step, loops := x.loops, msel := s.core.cold.msel, scnt := s.scnt } true
  rw [core_modCore, charge_core] at opened isOpen
  refine ⟨_, rfl, ?_⟩
  rw [opened]
  exact ⟨rfl, rfl, rfl, isOpen⟩

theorem steers_mloop (w : BitVec 4) (pre : BitVec 1) (c : BitVec 12) (l : BitVec 10) (s : State) :
    Steers s (exec (.mloop w pre c l) s) 0 .matrix fun y => { y with
      loops := { first := (s.core.engine .matrix).step + 1, last := (s.core.engine .matrix).step + l.toNat, iter := 0, count := c.toNat,
                 pre := decide (pre = 1), began := s.scnt } :: y.loops } := by
  obtain ⟨t, run, issued, changed, rest⟩ := steers_modEngine (.mloop w pre c l) s .matrix fun y => { y with
      loops := { first := y.step + 1, last := y.step + l.toNat, iter := 0, count := c.toNat, pre := decide (pre = 1), began := s.scnt } :: y.loops }
  exact ⟨t, run, issued, changed, rest⟩

theorem lands_mmask {q : BitVec 3} (w : BitVec 4) (s : State) (h : q ≠ 0) :
    Lands s (exec (.mmask w q) s) (lineCount [(s.maskGranule q.toNat, 32)]) .matrix [(1, .sel q.toNat (some
      { row := BitVec.ofNat 16 (s.coldNat 0 (s.maskGranule q.toNat) 2), col := BitVec.ofNat 16 (s.coldNat 0 (s.maskGranule q.toNat + 2) 2),
        dep := BitVec.ofNat 64 (s.coldNat 0 (s.maskGranule q.toNat + 4) 8) }))] := by
  have heat : s.orderHeat (.mmask w q) = lineCount [(s.maskGranule q.toNat, 32)] := if_neg h
  rw [exec_mmask, execMmask, order, if_neg h, ← heat]
  simp only [charge_maskGranule, charge_coldNat]
  exact lands_land (.mmask w q) s ..

theorem lands_mmask_zero (w : BitVec 4) (s : State) : Lands s (exec (.mmask w 0) s) 0 .matrix [(1, .sel 0 none)] :=
  lands_land (.mmask w 0) s ..

theorem lands_mflag (w f : BitVec 4) (v : BitVec 16) (s : State) :
    Lands s (exec (.mflag w f v) s) 0 .matrix [(1, .flag f.toNat (v.setWidth 32))] := by
  rw [← BitVec.ofNat_toNat]
  exact lands_land (.mflag w f v) s ..

theorem lands_mcbt (w : BitVec 4) (p : BitVec 3) (first count : BitVec 8) (s : State) :
    let pr := s.core.cold.pair p.toNat
    Lands s (exec (.mcbt w p first count) s) (s.orderHeat (.mcbt w p first count)) .matrix [(4, .cbt first.toNat
      ((List.range (count.toNat + 1)).map fun e =>
        BitVec.ofNat 32 (s.coldNat pr.brot (pr.base + s.iter .matrix * pr.pitch + 4 * e) 4)))] := by
  intro pr
  rw [exec_mcbt, execMcbt, order]
  simp only [charge_cold, charge_iter, charge_coldNat]
  exact lands_land (.mcbt w p first count) s ..

/-- Settles O32: each order by what its step or its write is. -/
theorem matrixSequencing : Obligations.MatrixSequencing := by
  intro w f pre c l v n q p first count s
  refine ⟨exec_mtile_marks w s, steers_mloop w pre c l s, steers_modEngine (.mwaits w n) s .matrix _, lands_mflag w f v s, ?_, fun h => ?_,
    lands_mcbt w p first count s⟩
  · rintro rfl
    exact lands_mmask_zero w s
  · exact ⟨_, lands_mmask w s h, ofNat_coldNat_toNat s 0 _ 2 (by norm_num), ofNat_coldNat_toNat s 0 _ 2 (by norm_num),
      ofNat_coldNat_toNat s 0 _ 8 (by norm_num)⟩

end Sys2Proof.Proofs
end

section
/-! # O41: a write to the cold store lands (R194, R337)

The statement fails on its clause about the granules' writers, at a state whose list of writers is out of order: `writersOutOfOrder`. No run
makes such a list, since every change of it goes through `Sp.set` or drops entries; where the granules are listed by rising number the clause
holds: `get_writers_landOne_of_rising`. -/

namespace Sys2Proof.Proofs

open Sys2Proof.Machine Sys2Proof.Laws

/-! ## Where the writers are listed by rising number -/

/-- Where the indices rise, dropping entries leaves the others as they read. -/
theorem get_filter_of_rising {α : Type} (d : α) {m : Sp α} (hr : Rising m) (keep : Nat → Bool) (k : Nat) :
    Sp.get d (m.filter fun x => keep x.1) k = if keep k = true then Sp.get d m k else d := by
  induction m with
  | nil => simp [Sp.get]
  | cons x rest ih =>
    obtain ⟨i, v⟩ := x
    obtain ⟨above, hr⟩ := List.pairwise_cons.1 hr
    have unlisted (h : k ≤ i) : Sp.get d rest k = d := by
      cases rest with
      | nil => rfl
      | cons y ys => exact if_pos (h.trans_lt (above y List.mem_cons_self))
    by_cases kept : keep i = true
    · rw [List.filter_cons_of_pos (by exact kept)]
      rcases lt_trichotomy k i with lt | rfl | gt
      · simp only [Sp.get, if_pos lt, ite_self]
      · simp only [Sp.get, lt_irrefl, if_false, if_true, kept]
      · simp only [Sp.get, if_neg gt.not_gt, if_neg gt.ne', ih hr]
    · rw [List.filter_cons_of_neg (by exact kept), ih hr]
      rcases lt_trichotomy k i with lt | rfl | gt
      · simp only [Sp.get, if_pos lt, unlisted lt.le]
      · rw [if_neg kept, if_neg kept]
      · simp only [Sp.get, if_neg gt.not_gt, if_neg gt.ne']

/-- Granules that receive a byte become the core's own; the others keep their writer (R337). -/
theorem get_writers_own_of_rising {m : Cold} (hr : Rising m.writers) (bytes : List (Nat × Byte)) (side : List (Nat × Option Byte)) (g : Nat) :
    Sp.get 0 (m.own (.cold bytes side)).writers g = if ∃ x ∈ bytes, x.1 / 32 = g then 0 else Sp.get 0 m.writers g := by
  simp only [Cold.own]
  by_cases none : m.writers.isEmpty = true
  · rw [if_pos none, List.isEmpty_iff.1 none, Sp.get, ite_self]
  · rw [if_neg none]
    refine (get_filter_of_rising 0 hr (fun i => !bytes.any fun b => decide (b.1 / 32 = i)) g).trans ?_
    by_cases hit : ∃ x ∈ bytes, x.1 / 32 = g
    · rw [if_pos hit, if_neg (by simpa using hit)]
    · rw [if_neg hit, if_pos (by simpa using hit)]

/-- What no change of a record shows, reads as before when every record of a list is changed. -/
theorem get_map_congr {α β : Type} (d : α) (view : α → β) {change : Nat × α → Nat × α} (index : ∀ x, (change x).1 = x.1)
    (same : ∀ x, view (change x).2 = view x.2) (m : Sp α) (k : Nat) : view (Sp.get d (m.map change) k) = view (Sp.get d m k) := by
  induction m with
  | nil => rfl
  | cons x rest ih =>
    simp only [List.map_cons, Sp.get, index]
    split_ifs
    · rfl
    · exact same x
    · exact ih

theorem cold_outlast (s : State) (bytes : List (Nat × Byte)) : (s.outlast bytes).core.cold = s.core.cold := by
  refine get_map_congr (Core.atReset s.cur) Core.cold (fun x => ?_) (fun x => ?_) s.cores s.cur
  all_goals split <;> rfl

/-- The cold state a write to the cold store leaves as it lands. -/
theorem cold_landOne {l : Landing} {bytes : List (Nat × Byte)} {side : List (Nat × Option Byte)} (op : l.op = .cold bytes side)
    (quiet : l.event = none) (s : State) :
    (s.landOne l).core.cold = { (s.core.cold.apply l.op).own l.op with pend := s.core.cold.pend.erase l } := by
  have late : (if l.eng = EngineId.temporal then s else s.outlast bytes).core.cold = s.core.cold := by
    split
    · rfl
    · exact cold_outlast s bytes
  simp only [State.landOne, op, quiet, core_modCore, late]

theorem get_writers_landOne_of_rising {l : Landing} {bytes : List (Nat × Byte)} {side : List (Nat × Option Byte)}
    (op : l.op = .cold bytes side) (quiet : l.event = none) {s : State} (hr : Rising s.core.cold.writers) (g : Nat) :
    Sp.get 0 (s.landOne l).core.cold.writers g = if ∃ x ∈ bytes, x.1 / 32 = g then 0 else Sp.get 0 s.core.cold.writers g := by
  rw [cold_landOne op quiet, op]
  exact get_writers_own_of_rising (m := s.core.cold.apply (.cold bytes side)) hr bytes side g

/-! ## The list that refutes the statement -/

/-- A matrix write of one byte of granule 1, due. -/
def byteOfGranule1 : Landing := { at_ := 0, issued := 0, eng := .matrix, chain := 0, writes := [.gran 1], op := .cold [(32, 1)] [(1, some 0)] }

/-- Granule 1 stands before granule 0 in the list, so that granule 0 reads as unlisted. -/
def writersOutOfOrder : State :=
  State.reset.modCore fun c => c.modCold fun m => { m with writers := [(1, 1), (0, 1)], pend := [byteOfGranule1] }

/-- The model's own invariant of states, which speaks of memory alone, holds of it. -/
theorem writersOutOfOrder_inv : writersOutOfOrder.Inv := by unfold State.Inv; decide

theorem writersOutOfOrder_due : writersOutOfOrder.landsNow byteOfGranule1 = true := by decide +kernel

theorem writersOutOfOrder_writer : Sp.get 0 writersOutOfOrder.core.cold.writers 0 = 0 := by decide +kernel

/-- The entry of granule 1 goes, and that of granule 0, which stood behind it, comes to light. -/
theorem writersOutOfOrder_landOne_writer : Sp.get 0 (writersOutOfOrder.landOne byteOfGranule1).core.cold.writers 0 = 1 := by decide +kernel

/-- Refutes O41: at `writersOutOfOrder` the landing of a byte of granule 1 changes the writer of granule 0. -/
theorem not_pendingWritesLand : ¬ Obligations.PendingWritesLand := by
  intro lands
  obtain ⟨-, -, -, -, -, -, -, -, -, cold, -⟩ := lands byteOfGranule1 writersOutOfOrder rfl
  obtain ⟨-, -, -, -, writers, -⟩ := cold [(32, 1)] [(1, some 0)] rfl (by decide)
  have same := writers 0
  rw [writersOutOfOrder_landOne_writer, if_neg (by decide), writersOutOfOrder_writer] at same
  exact absurd same (by decide)

end Sys2Proof.Proofs
end

section
/-! # Words compared in the order of R46, parameters, and masks of lanes (R46, R237, R252) -/

namespace Sys2Proof.Laws

open Sys2Proof.Machine

/-- Of two words that are not NaN the first is the lesser, -0 being less than +0 (R46): the greater magnitude is the lesser of two
negative words. -/
def Below32 (u v : Word32) : Prop :=
  u.msb = true ∧ v.msb = false ∨ u.msb = v.msb ∧ (if u.msb = true then v.toNat < u.toNat else u.toNat < v.toNat)

theorem msb_eq_decide_le (u : Word32) : u.msb = decide (2 ^ 31 ≤ u.toNat) := BitVec.msb_eq_decide u

/-- The key of a positive word is the word; the keys of the negative words run down from -1. -/
theorem key32_eq (u : Word32) : key32 u = if 2 ^ 31 ≤ u.toNat then (2 ^ 31 - 1 : Int) - u.toNat else (u.toNat : Int) := by
  have := u.isLt
  have sign : u.getLsbD 31 = decide (2 ^ 31 ≤ u.toNat) := (BitVec.msb_eq_getLsbD_last u).symm.trans (msb_eq_decide_le u)
  simp only [key32, sign, decide_eq_true_eq]
  split <;> omega

theorem key32_lt_iff (u v : Word32) : key32 u < key32 v ↔ Below32 u v := by
  simp only [Below32, key32_eq, msb_eq_decide_le]
  by_cases hu : 2 ^ 31 ≤ u.toNat <;> by_cases hv : 2 ^ 31 ≤ v.toNat
  all_goals
    simp only [hu, hv, if_true, if_false, decide_true, decide_false, Bool.false_eq_true, reduceCtorEq, true_and, and_true, false_and, and_false,
      true_or, false_or, iff_true, iff_false]
    omega

theorem key32_injective {u v : Word32} (h : key32 u = key32 v) : u = v := by
  apply BitVec.eq_of_toNat_eq
  rw [key32_eq, key32_eq] at h
  split_ifs at h <;> omega

theorem min32_of_nan {u v : Word32} (h : isNan32 u = true ∨ isNan32 v = true) : min32 u v = nan32 := if_pos h

theorem max32_of_nan {u v : Word32} (h : isNan32 u = true ∨ isNan32 v = true) : max32 u v = nan32 := if_pos h

section
variable {u v : Word32} (hu : isNan32 u = false) (hv : isNan32 v = false)
include hu hv

/-- The lesser of two words that are not NaN. -/
theorem min32_of_numbers : (Below32 u v → min32 u v = u) ∧ (¬ Below32 u v → min32 u v = v) := by
  rw [← key32_lt_iff, not_lt, min32, if_neg (by simp [hu, hv])]
  refine ⟨fun lt => if_pos lt.le, fun ge => ?_⟩
  split
  · next le => exact key32_injective (le_antisymm le ge)
  · rfl

/-- The greater of two words that are not NaN. -/
theorem max32_of_numbers : (Below32 u v → max32 u v = v) ∧ (¬ Below32 u v → max32 u v = u) := by
  rw [← key32_lt_iff, not_lt, max32, if_neg (by simp [hu, hv])]
  refine ⟨fun lt => if_pos lt.le, fun ge => ?_⟩
  split
  · next le => exact key32_injective (le_antisymm ge le)
  · rfl

end

/-- Dropping the sign bit is keeping the 31 bits below it. -/
theorem and_magnitude_eq_setWidth (u : Word32) : u &&& 0x7FFFFFFF = (u.setWidth 31).setWidth 32 := by
  apply BitVec.eq_of_toNat_eq
  have := u.isLt
  rw [BitVec.toNat_and, show (0x7FFFFFFF : Word32).toNat = 2 ^ 31 - 1 from rfl, Nat.and_two_pow_sub_one_eq_mod,
    BitVec.toNat_setWidth, BitVec.toNat_setWidth]
  omega

/-- The value a `vparam` code names: half a matrix parameter, or a vector or temporal one (R252). -/
theorem param_eq (m : Cold) (k : Nat) : m.param k =
    if k < 32 then (Sp.get 0 m.ms (k / 2)).extractLsb' (32 * (k % 2)) 32
    else if k < 48 then Sp.get 0 m.vs (k - 32) else Sp.get 0 m.ts (k - 48) := by
  have half : ∀ v : Word, (if k % 2 = 0 then v.truncate 32 else (v >>> 32).truncate 32) = v.extractLsb' (32 * (k % 2)) 32 := fun v => by
    rcases Nat.mod_two_eq_zero_or_one k with even | odd
    · rw [even, if_pos rfl]
      exact (BitVec.setWidth_eq_extractLsb' (by decide))
    · rw [odd, if_neg (by decide)]
      apply BitVec.eq_of_toNat_eq
      simp
  simp only [Cold.param, half]

theorem getLsbD_maskOf (f : Nat → Bool) {j : Nat} (h : j < 64) : (maskOf f).getLsbD j = f j := by
  have sum : ∀ l : List Nat, flagMask l = (l.map (2 ^ ·)).sum := fun l => by
    rw [flagMask, List.sum_eq_foldl, List.foldl_map]
  have rising : ((List.range 64).filter f).SortedLT := (List.pairwise_lt_range.filter f).sortedLT
  rw [maskOf, BitVec.getLsbD_ofNat, decide_eq_true h, Bool.true_and, Bool.eq_iff_iff, ← Nat.mem_bitIndices, sum,
    Nat.bitIndices_sum_map_two_pow rising]
  simp [h]

end Sys2Proof.Laws
end

section
/-! # O34: the lane orders that round nothing (R46, R238, R248, R251, R252) -/

namespace Sys2Proof.Proofs

open Sys2Proof.Machine Sys2Proof.Laws

section
variable (w : BitVec 4) (d a b : BitVec 5) (s : State)

theorem lands_vsel : Lands s (exec (.vsel w d a b) s) 24 .vector (s.lanes d 1 fun i =>
    if (s.core.cold.lane d.toNat i).getLsbD 0 then s.core.cold.lane a.toNat i else s.core.cold.lane b.toNat i) := by
  have lands := lands_landLanes (.vsel w d a b) d 1 (fun s n => if (s.vl d n).getLsbD 0 then s.vl a n else s.vl b n) s
  simp only [charge_vl] at lands
  exact lands

theorem lands_vbcast (n : BitVec 6) :
    Lands s (exec (.vbcast w d a n) s) 24 .vector (s.lanes d 1 fun _ => s.core.cold.lane a.toNat n.toNat) := by
  have lands := lands_landLanes (.vbcast w d a n) d 1 (fun s _ => s.vl a n.toNat) s
  simp only [charge_vl] at lands
  exact lands

theorem lands_vperm : Lands s (exec (.vperm w d a b) s) 24 .vector
    (s.lanes d 1 fun i => s.core.cold.lane a.toNat ((s.core.cold.lane b.toNat i).toNat % 64)) := by
  have lands := lands_landLanes (.vperm w d a b) d 1 (fun s n => s.vl a ((s.vl b n).toNat % 64)) s
  simp only [charge_vl] at lands
  exact lands

theorem lands_vparam (k : BitVec 7) :
    Lands s (exec (.vparam w d k) s) 24 .vector (s.lanes d 1 fun _ => s.core.cold.param k.toNat) := by
  have lands := lands_landLanes (.vparam w d k) d 1 (fun s _ => s.core.cold.param k.toNat) s
  simp only [charge_cold] at lands
  exact lands

end

/-- Settles O34: each order by the frame it shares with its like, `vmin` and `vmax` by the order of the keys. -/
theorem laneOrdersWriteActiveLanes : Obligations.LaneOrdersWriteActiveLanes := by
  intro w d a b n k s x y does below
  refine ⟨lands_lane2 (.viadd w d a b) d a b 1 (· + ·) s, lands_lane2 (.visub w d a b) d a b 1 (· - ·) s,
    lands_lane2 (.vimul w d a b) d a b 1 (· * ·) s, lands_lane2 (.vand w d a b) d a b 1 (· &&& ·) s,
    lands_lane2 (.vor w d a b) d a b 1 (· ||| ·) s, lands_lane2 (.vxor w d a b) d a b 1 (· ^^^ ·) s,
    lands_lane2 (.vshl w d a b) d a b 1 (fun u v => u <<< (v.toNat % 32)) s,
    lands_lane2 (.vshr w d a b) d a b 1 (fun u v => u >>> (v.toNat % 32)) s,
    lands_lane2 (.vsar w d a b) d a b 1 (fun u v => u.sshiftRight (v.toNat % 32)) s,
    lands_vsel w d a b s, lands_lane1 (.vmov w d a) d a 1 (fun u => u) s, lands_vbcast w d a s n, lands_vperm w d a b s, ?_,
    ⟨fun i => min32 (x i) (y i), lands_lane2 (.vmin w d a b) d a b 1 min32 s, fun i => ⟨min32_of_nan, min32_of_numbers⟩⟩,
    ⟨fun i => max32 (x i) (y i), lands_lane2 (.vmax w d a b) d a b 1 max32 s, fun i => ⟨max32_of_nan, max32_of_numbers⟩⟩, ?_,
    lands_lane1 (.vneg w d a) d a 1 (fun u => if isNan32 u then nan32 else u ^^^ 0x80000000) s⟩
  · simp only [does, ← param_eq]
    exact lands_vparam w d s k
  · simp only [does, ← and_magnitude_eq_setWidth]
    exact lands_lane1 (.vabs w d a) d a 1 (fun u => if isNan32 u then nan32 else u &&& 0x7FFFFFFF) s

end Sys2Proof.Proofs
end

section
/-! # O37: rows of the cold store and quarters of tiles (R254, R255) -/

namespace Sys2Proof.Proofs

open Sys2Proof.Machine Sys2Proof.Laws

/-- The row a vector register names: its first byte and its rotation code (R254). -/
theorem vrow_eq (m : Cold) (n row iter : Nat) : m.vrow n row iter =
    ((((Sp.get 0 m.vs n).extractLsb' 5 14).toNat * 32 + 256 * ((row + iter) % 2048)) % 2 ^ 19, ((Sp.get 0 m.vs n).extractLsb' 19 4).toNat) := by
  simp only [Cold.vrow, bits_eq_extractLsb']
  rfl

theorem lands_vld (w : BitVec 4) (d : BitVec 5) (n : BitVec 4) (k : BitVec 7) (s : State) :
    let row := s.core.cold.vrow n.toNat k.toNat (s.iter .vector)
    Lands s (exec (.vld w d n k) s) (s.orderHeat (.vld w d n k)) .vector
      (s.lanes d 1 fun i => BitVec.ofNat 32 (s.coldNat row.2 (row.1 + 4 * i) 4)) := by
  intro row
  have lands := lands_landLanes (.vld w d n k) d 1 (fun s i =>
    BitVec.ofNat 32 (s.coldNat (s.core.cold.vrow n.toNat k.toNat (s.iter .vector)).2
      ((s.core.cold.vrow n.toNat k.toNat (s.iter .vector)).1 + 4 * i) 4)) s
  simp only [charge_cold, charge_iter, charge_coldNat] at lands
  exact lands

/-! ## `vst` -/

/-- The bytes of the active lanes of vb and where they go. -/
def rowBytes (s : State) (n : BitVec 4) (b : BitVec 5) (k : BitVec 7) : List (Nat × Byte) :=
  let row := s.core.cold.vrow n.toNat k.toNat (s.iter .vector)
  s.core.cold.lanesOn.flatMap fun i => s.coldCells row.2 (row.1 + 4 * i) (leBytes 4 (s.core.cold.lane b.toNat i).toNat)

theorem lands_vst (w n : BitVec 4) (b : BitVec 5) (k : BitVec 7) (s : State) :
    Lands s (exec (.vst w n b k) s) (s.orderHeat (.vst w n b k)) .vector
      [(1, .cold (rowBytes s n b k) ((rowBytes s n b k).map fun x => (x.1 / 32, none)))] := by
  rw [exec_vst, execVst, order]
  simp only [charge_cold, charge_iter, charge_vl, charge_coldCells]
  exact lands_land (.vst w n b k) s ..

/-- Byte `j` of lane `i` stands at the row's address, where that is below CQUOTA. -/
theorem mem_rowBytes {s : State} {n : BitVec 4} {b : BitVec 5} {k : BitVec 7} {x : Nat × Byte} :
    let row := s.core.cold.vrow n.toNat k.toNat (s.iter .vector)
    let place := fun i j => (row.1 + 4 * i + j) % 2 ^ 19
    x ∈ rowBytes s n b k ↔ ∃ i ∈ s.core.cold.lanesOn, ∃ j, j < 4 ∧ place i j < s.core.slot.cquota.toNat ∧
      x = (coldPlace row.2 (place i j), (s.core.cold.lane b.toNat i).extractLsb' (8 * j) 8) := by
  intro row place
  simp only [rowBytes, List.mem_flatMap, mem_coldCells, leBytes_length]
  refine exists_congr fun i => and_congr_right fun _ => exists_congr fun j => and_congr_right fun inside => ?_
  rw [leBytes_getD inside, ofNat_div_pow_eq_extractLsb']
  rfl

/-! ## Quarters of a tile (R255) -/

/-- The word of a tile that lane `i` of quarter `q` moves, where it moves one: quarters 0 to 3 hold four rows of elements each,
quarter 4 the row sums and the column sums. -/
def quarterPlace (q i : Nat) : Nat :=
  if q < 4 then 17 * (4 * q + i / 16) + i % 16 else if i ≤ 16 then 272 + i else 17 * (i - 17) + 16

theorem quarterWord_eq (q i : Nat) : quarterWord q i = if q < 4 ∨ i ≤ 32 then some (quarterPlace q i) else none := by
  unfold quarterWord quarterPlace
  by_cases element : q < 4
  · simp only [element, if_true, true_or]
  · by_cases sum : i ≤ 16
    · simp only [element, sum, if_true, if_false, false_or, sum.trans (by decide : 16 ≤ 32)]
    · simp only [element, sum, if_false, false_or]

theorem lands_vldacc (w : BitVec 4) (d : BitVec 5) (q : BitVec 3) (c : BitVec 6) (s : State) :
    Lands s (exec (.vldacc w d q c) s) 24 .vector (s.lanes d 2 fun i =>
      if decide (q.toNat < 4 ∨ i ≤ 32) then s.core.cold.accAt c.toNat (quarterPlace q.toNat i) else 0) := by
  have lands := lands_landLanes (.vldacc w d q c) d 2 (fun s i =>
    match quarterWord q.toNat i with
    | some e => s.core.cold.accAt c.toNat e
    | none => 0) s
  have moved (i : Nat) : (match quarterWord q.toNat i with
      | some e => s.core.cold.accAt c.toNat e
      | none => 0) = if decide (q.toNat < 4 ∨ i ≤ 32) then s.core.cold.accAt c.toNat (quarterPlace q.toNat i) else 0 := by
    rw [quarterWord_eq]
    by_cases has : q.toNat < 4 ∨ i ≤ 32
    · simp only [has, if_true, decide_true]
    · simp only [has, if_false, decide_false, Bool.false_eq_true]
  simp only [charge_cold, moved] at lands
  exact lands

theorem filterMap_quarterWord {α : Type} (q : Nat) (v : Nat → α) (l : List Nat) :
    l.filterMap (fun i => (quarterWord q i).map fun x => (x, v i)) =
      (l.filter fun i => decide (q < 4 ∨ i ≤ 32)).map fun i => (quarterPlace q i, v i) := by
  rw [← List.filterMap_eq_map, List.filterMap_filter]
  refine List.filterMap_congr fun i _ => ?_
  rw [quarterWord_eq]
  by_cases has : q < 4 ∨ i ≤ 32
  · simp only [has, if_true, decide_true, Option.map_some, Function.comp]
  · simp only [has, if_false, decide_false, Option.map_none, Bool.false_eq_true]

theorem lands_vstacc (w : BitVec 4) (q : BitVec 3) (b : BitVec 5) (c : BitVec 6) (e : BitVec 1) (s : State) :
    Lands s (exec (.vstacc w q b c e) s) 24 .vector [(2, .vstacc c.toNat (decide (e = 1))
      ((s.core.cold.lanesOn.filter fun i => decide (q.toNat < 4 ∨ i ≤ 32)).map fun i =>
        (quarterPlace q.toNat i, s.core.cold.lane b.toNat i)))] := by
  rw [exec_vstacc, execVstacc, order]
  simp only [charge_cold, charge_vl, filterMap_quarterWord]
  exact lands_land (.vstacc w q b c e) s ..

/-- Settles O37: the row is the register's formula, the bytes of `vst` are its cells, and a quarter's words are `quarterPlace`. -/
theorem coldRowsAndAccumulatorQuarters : Obligations.ColdRowsAndAccumulatorQuarters := by
  intro w n d k q c e s m v row b at_ word has
  have place : m.vrow n.toNat k.toNat (s.iter .vector) = (row, b) := vrow_eq ..
  refine ⟨?_, ⟨rowBytes s n d k, _, lands_vst w n d k s, fun x => ?_, fun y => ?_⟩, lands_vldacc w d q c s, lands_vstacc w q d c e s⟩
  · have lands := lands_vld w d n k s
    rw [place] at lands
    exact lands
  · have bytes := mem_rowBytes (s := s) (n := n) (b := d) (k := k) (x := x)
    rw [place] at bytes
    exact bytes
  · simp only [List.mem_map, eq_comm (a := y)]

end Sys2Proof.Proofs
end

section
/-! # O38: the mask stack (R237 to R240) -/

namespace Sys2Proof.Proofs

open Sys2Proof.Machine Sys2Proof.Laws

/-- A lane is active under the top of the stack, and every lane where the stack is empty (R237). -/
theorem mem_lanesOn {m : Cold} {j : Nat} :
    j ∈ m.lanesOn ↔ j < 64 ∧ (m.mdepth = 0 ∨ (Sp.get 0 m.mstk (m.mdepth - 1)).getLsbD j = true) := by
  simp only [Cold.lanesOn, List.mem_filter, List.mem_range]
  refine and_congr_right fun lt => ?_
  by_cases empty : m.mdepth = 0
  · have all : (0xFFFFFFFFFFFFFFFF : BitVec 64).getLsbD j = true := by
      rw [show (0xFFFFFFFFFFFFFFFF : BitVec 64) = BitVec.allOnes 64 from rfl, BitVec.getLsbD_allOnes, decide_eq_true lt]
    simp only [Cold.top, empty, if_true, all, true_or]
  · simp only [Cold.top, empty, if_false, false_or]

/-- Where a push goes (R238): on top of the stack, and on the sixteenth entry of a full one. -/
def pushSlot (m : Cold) : Nat := min m.mdepth 15

/-- What a pushed mask is kept within (R238): the active lanes, and in a full stack the entry that is written again. -/
def pushBound (m : Cold) : BitVec 64 := if m.mdepth < 16 then m.top else Sp.get 0 m.mstk 15

theorem pushed_eq (m : Cold) (v : BitVec 64) : m.pushed v =
    .mask (Sp.set 0 m.mstk (pushSlot m) (v &&& pushBound m)) (if m.mdepth < 16 then m.mdepth + 1 else m.mdepth) := by
  unfold Cold.pushed pushSlot pushBound
  by_cases room : m.mdepth < 16
  · rw [if_pos room, if_pos room, if_pos room, min_eq_left (by omega)]
  · rw [if_neg room, if_neg room, if_neg room, min_eq_right (by omega)]

/-- An order that pushes the mask of `f` one cold cycle later. -/
theorem lands_pushed {o : Instr} {f : Nat → Bool} {s : State}
    (h : Lands s (exec o s) 24 .vector [(1, s.core.cold.pushed (maskOf f))]) : ∃ stk,
    Lands s (exec o s) 24 .vector [(1, .mask stk (if s.core.cold.mdepth < 16 then s.core.cold.mdepth + 1 else s.core.cold.mdepth))] ∧
    (∀ j, j < 64 → (Sp.get 0 stk (pushSlot s.core.cold)).getLsbD j = (f j && (pushBound s.core.cold).getLsbD j)) ∧
    ∀ k, k ≠ pushSlot s.core.cold → Sp.get 0 stk k = Sp.get 0 s.core.cold.mstk k := by
  rw [pushed_eq] at h
  refine ⟨_, h, fun j lt => ?_, fun k other => get_set_other _ _ _ other⟩
  rw [get_set_self, BitVec.getLsbD_and, getLsbD_maskOf f lt]

section
variable (w : BitVec 4) (d a b : BitVec 5) (s : State)

theorem lands_mpush : Lands s (exec (.mpush w a) s) 24 .vector
    [(1, s.core.cold.pushed (maskOf fun j => (s.core.cold.lane a.toNat j).getLsbD 0))] := by
  rw [exec_mpush, execMpush, order]
  simp only [charge_cold, charge_vl]
  exact lands_land (.mpush w a) s ..

theorem lands_vcmp (i : BitVec 1) (c : BitVec 3) : Lands s (exec (.vcmp w a b i c) s) 24 .vector
    [(1, s.core.cold.pushed (maskOf fun j => s.core.cold.top.getLsbD j &&
      laneCond (decide (i = 1)) c (s.core.cold.lane a.toNat j) (s.core.cold.lane b.toNat j)))] := by
  rw [exec_vcmp, execVcmp, order]
  simp only [charge_cold, charge_vl]
  exact lands_land (.vcmp w a b i c) s ..

theorem lands_minv_empty (empty : s.core.cold.mdepth = 0) : Lands s (exec (.minv w) s) 24 .vector [] := by
  simp only [exec_minv, execMinv, order, charge_cold, empty, if_true]
  exact lands_charge (.minv w) s .vector

theorem lands_minv (depth : s.core.cold.mdepth ≠ 0) : Lands s (exec (.minv w) s) 24 .vector
    [(1, .mask (Sp.set 0 s.core.cold.mstk (s.core.cold.mdepth - 1) (~~~s.core.cold.top &&& s.core.cold.parent)) s.core.cold.mdepth)] := by
  simp only [exec_minv, execMinv, order, charge_cold, depth, if_false]
  exact lands_land (.minv w) s ..

/-- The copy of the top in all lanes of vd (R238). -/
theorem lands_top : Lands s (order (.mpop w d) s fun s => s.landAllLanes d 1 fun j => if s.core.cold.top.getLsbD j then 1 else 0)
    24 .vector [(1, .vreg d.toNat ((List.range 64).map fun j => (j, if s.core.cold.top.getLsbD j then 1 else 0)))] := by
  have lands := lands_landAllLanes (.mpop w d) d 1 (fun s j => if s.core.cold.top.getLsbD j then 1 else 0) s
  simp only [charge_cold] at lands
  exact lands

theorem lands_mpop_empty (empty : s.core.cold.mdepth = 0) :
    Lands s (exec (.mpop w d) s) 24 .vector [(1, .vreg d.toNat ((List.range 64).map fun j => (j, 1)))] := by
  have ones : (List.range 64).map (fun j => (j, if s.core.cold.top.getLsbD j then (1 : Word32) else 0)) = (List.range 64).map fun j => (j, 1) := by
    refine List.map_congr_left fun j lt => ?_
    have active : j ∈ s.core.cold.lanesOn := mem_lanesOn.2 ⟨List.mem_range.1 lt, .inl empty⟩
    rw [if_pos (List.mem_filter.1 active).2]
  have lands := lands_top w d s
  rw [ones] at lands
  simpa only [exec_mpop, execMpop, order, charge_cold, empty, if_true] using lands

theorem lands_mpop (depth : s.core.cold.mdepth ≠ 0) : Lands s (exec (.mpop w d) s) 24 .vector
    [(1, .vreg d.toNat ((List.range 64).map fun j => (j, if s.core.cold.top.getLsbD j then 1 else 0))),
     (1, .mask s.core.cold.mstk (s.core.cold.mdepth - 1))] := by
  have lands := lands_land_after (lands_top w d s) 1 0 [] (.mask s.core.cold.mstk (s.core.cold.mdepth - 1)) none
  simpa only [exec_mpop, execMpop, order, charge_cold, depth, if_false, List.cons_append, List.nil_append] using lands

/-- `mskz` asks for the skip where no lane is active, and only then (R240). -/
theorem steers_mskz (n : BitVec 7) : Steers s (exec (.mskz w n) s) 0 .vector
    fun y => if s.core.cold.top = 0 then { y with skip := n.toNat } else y := by
  rw [exec_mskz, execMskz, order, charge_cold]
  by_cases idle : s.core.cold.top = 0
  · simp only [idle, if_true]
    exact steers_modEngine (.mskz w n) s .vector fun y => { y with skip := n.toNat }
  · simp only [idle, if_false]
    refine ⟨_, rfl, issued_charge s _, charge_engine .., ?_, ?_, ?_, ?_, fun k _ => charge_engine ..⟩
    all_goals rw [charge_cold]

end

/-- Settles O38: the pushes by what a push does to the stack, `minv`, `mpop` and `mskz` by whether it is empty or masks every lane. -/
theorem maskStackOrders : Obligations.MaskStackOrders := by
  intro w d a b i c n s m pushes at_
  exact ⟨fun j => mem_lanesOn, lands_pushed (lands_mpush w a s), lands_pushed (lands_vcmp w a b s 1 0),
    lands_pushed (lands_vcmp w a b s 1 2), lands_pushed (lands_vcmp w a b s 0 2), lands_pushed (lands_vcmp w a b s 0 6),
    lands_pushed (lands_vcmp w a b s i c), fun empty => ⟨lands_minv_empty w s empty, lands_mpop_empty w d s empty⟩,
    fun depth => ⟨lands_minv w s depth, lands_mpop w d s depth⟩, steers_mskz w s n⟩

end Sys2Proof.Proofs
end

section
/-! # Words compared at issue that a replay run may have a result for, and what the `own` words read (R85, R271, R405, R409) -/

namespace Sys2Proof.Laws

open Sys2Proof.Machine

namespace Alike

section
variable {u v : State} (like : Alike u v)
include like

theorem spanOf (h : Word) : v.spanOf h = u.spanOf h := by
  unfold State.spanOf
  rw [like.partNo, like.locate, like.part]

theorem holdsExcl (head : Nat) (t : Token) (lent : Bool) : v.holdsExcl head t lent = u.holdsExcl head t lent := by
  unfold State.holdsExcl
  rw [like.exclusive, like.sendLeaves]

theorem peerOk (a : Word) : v.peerOk a = u.peerOk a := by
  unfold State.peerOk
  rw [like.cur, like.slot]

theorem crossingsThrough (h : Word) : v.crossingsThrough h = u.crossingsThrough h :=
  like.field (fun c => !c.xings.any fun y => (decide (y.level = c.level) || y.admitted) && y.inRegion (regionIdx h)) fun _ _ => rfl

theorem queryWord (head : Nat) (t : Token) : v.queryWord head t = u.queryWord head t := by
  unfold State.queryWord
  rw [like.shares, like.holds]

end

end Alike

theorem Same.awaitG {u v : State} (h : Same u v) (d : BitVec 5) : Same (u.awaitG d) (v.awaitG d) := h.modCl _

theorem same_countWord_awaitG (s : State) (d : BitVec 5) : Same (s.countWord.awaitG d) (s.awaitG d).countWord := by
  refine same_countWord_modCore (f := fun c => c.setCluster s.lane ((c.cluster s.lane).setBusy (.g d.toNat) none)) ?_
  cases s.lane <;> rfl

theorem awaitsG_of_same {u t t' : State} {sy : BitVec 1} {d : BitVec 5} (h : AwaitsG u (.next t) sy d) (same : Same t t') :
    AwaitsG u (.next t') sy d := by
  obtain ⟨_, ⟨rfl⟩, through, kept, busy⟩ := h
  exact ⟨t', rfl, through_of_same through same, fun n => by rw [same.cl]; exact kept n, fun w => by rw [same.cl]; exact busy w⟩

theorem part_eq {u v : State} (parts : u.parts = v.parts) (slot : u.core.slot = v.core.slot) : u.part = v.part := by
  unfold State.part State.partNo State.partAt
  rw [parts, slot]

/-- The partition of the running task after a change of it. -/
theorem part_modPartAt (s : State) (f : Part → Part) : (s.modPartAt s.partNo f).part = f s.part := partAt_modPartAt_self s s.partNo f

end Sys2Proof.Laws

namespace Sys2Proof.Proofs

open Sys2Proof.Machine Sys2Proof.Laws

section
variable {sy : BitVec 1} {dep : BitVec 4} {rd wr : List RegRef} {d : BitVec 5} {s : State} {f : State → Perform} {start : State → State}
  (hi : s.Issues dep rd wr) (hc : s.Compared) (owes : s.core.owes = {})
include hi hc owes

theorem compared_recalled_traps {code : Nat} {addr : Word} (traps : f (s.takeDeps dep) = .trap code addr) :
    Machine.compared sy dep rd wr s (fun s => recalled d s f) start = .next (s.wordTrap code addr) := by
  rw [compared_ready hc hi, recalled, recall_takeDeps owes]
  dsimp only
  rw [traps]

theorem compared_recalled_done {t : State} (done : f (s.takeDeps dep) = .done t) :
    Machine.compared sy dep rd wr s (fun s => recalled d s f) start = .next (t.countWord.finish sy none) := by
  rw [compared_ready hc hi, recalled, recall_takeDeps owes]
  dsimp only
  rw [done]

theorem compared_recalled_writesG {v : State} {x : Word} {n : Nat} (done : f (s.takeDeps dep) = doneWith v d x n) :
    WritesG (v.countWord.recordResult d.toNat (some x)) (Machine.compared sy dep rd wr s (fun s => recalled d s f) start) sy d x n none := by
  rw [compared_recalled_done hi hc owes done]
  exact writesG_doneWith_countWord (Same.refl _) x n

end

/-- The count of a word and the record of its result leave all but the window. -/
theorem core_recordResult_countWord (v : State) (d : Nat) (x : Option Word) :
    ∃ win, (v.countWord.recordResult d x).core = { v.core with win := win } := by
  rw [State.recordResult, core_modCore, countWord_eq, core_modCore]
  exact ⟨_, rfl⟩

end Sys2Proof.Proofs
end

section
/-! # O24: sends put in flight (R268, R271, R272, R274, R276, R277) -/

namespace Sys2Proof.Proofs

open Sys2Proof.Machine Sys2Proof.Laws

/-- The caller may send the span at `head` so: return it (2), share it (5), lend or give it. -/
def sendRight (s : State) (fn head : Nat) (t : Token) : Bool :=
  if fn = 2 then s.holdsExcl head t true
  else if fn = 5 then
    s.holds t && (decide (t.mode = .excl) || decide (t.mode = .sharedIssue)) && !t.lvalid &&
      decide (s.sendLeaves true head = none ∨ s.sendLeaves true head = some 5)
  else s.holdsExcl head t false

/-- What a holder in mode EXCL has of its span (R271). -/
theorem holdsExcl_iff {s : State} {head : Nat} {t : Token} {lent : Bool} :
    s.holdsExcl head t lent = true ↔ s.holds t = true ∧ t.mode = .excl ∧ t.lvalid = lent ∧ s.sendLeaves true head = none := by
  simp only [State.holdsExcl, State.exclusive, Bool.and_eq_true, decide_eq_true_eq, Option.isNone_iff_eq_none, and_assoc]

/-- The handle of a region's first byte (R331). -/
theorem handleOf_zero (i : Nat) : handleOf i 0 = BitVec.ofNat 64 (i * 2 ^ 52) := by rw [handleOf, word, Nat.add_zero]

theorem sendRight_of_holdsExcl {s : State} {fn head : Nat} {t : Token} (h : s.holdsExcl head t (decide (fn = 2)) = true) :
    sendRight s fn head t = true := by
  unfold sendRight
  split_ifs with ret share
  · rwa [decide_eq_true ret] at h
  · obtain ⟨holds, mode, lent, free⟩ := holdsExcl_iff.1 h
    rw [decide_eq_false ret] at lent
    simp [holds, mode, lent, free]
  · rwa [decide_eq_false ret] at h

theorem sendRight_of_not_holds {s : State} {t : Token} (h : s.holds t = false) (fn head : Nat) : sendRight s fn head t = false := by
  simp [sendRight, State.holdsExcl, State.exclusive, h]

/-- The send that a word of `s` puts in flight. -/
def sendFor (s : State) (fn head : Nat) (h arg : Word) (t : Token) (d : BitVec 5) : Send :=
  { fn := fn, head := head, base := handleOf (regionIdx h) 0, units := t.units, arg := arg, d := d.toNat, warm := s.warm, level := s.core.level,
    tail := if s.core.str.avail then some s.core.str.tail else none, upTo := s.core.str.takes }

/-- One more send of the core is in flight. -/
def withSend (x : Send) (c : Core) : Core := { c with sends := c.sends ++ [x] }

/-- A word that sends, on a span of a region that may be written, by its checks in order (R272). -/
def sendPerform (d : BitVec 5) (fn head : Nat) (h arg : Word) (t : Token) (s : State) : Perform :=
  if !sendRight s fn head t then .trap 0x09 (handleOf (regionIdx h) 0)
  else if fn ≠ 2 ∧ !s.peerOk arg then .trap 0x0A h
  else if fn = 5 ∧ 255 ≤ t.shares then .trap 0x0A h
  else .done (((s.recordResult d.toNat none).modCore (withSend (sendFor s fn head h arg t d))).awaitG d)

section
variable {sy : BitVec 1} {dep : BitVec 4} {d a : BitVec 5} {b : Option (BitVec 5)} {fn head : Nat} {r : Region} {t : Token} {s : State}
  (hi : s.Issues dep (gR a :: (b.map gR).toList) [gR d]) (hc : s.Compared) (owes : s.core.owes = {})
  (span : s.spanOf (s.g a) = .ok (r, head, t))
include hi hc owes span

omit hi hc owes in
/-- What the word does on the span found, with the tokens it takes. -/
theorem sendPerform_takeDeps :
    (match (s.takeDeps dep).spanOf ((s.takeDeps dep).g a) with
      | .error (code, addr) => Perform.trap code addr
      | .ok (_, head, t) => sendPerform d fn head ((s.takeDeps dep).g a) ((b.map (s.takeDeps dep).g).getD 0) t (s.takeDeps dep)) =
    sendPerform d fn head (s.g a) ((b.map s.g).getD 0) t (s.takeDeps dep) := by
  have regs : (s.takeDeps dep).g = s.g := funext (g_takeDeps s dep)
  rw [(alike_takeDeps s dep).spanOf, regs, span]

theorem sendWord_unheld (unheld : s.holds t = false) :
    sendWord sy dep d a b fn s = .next (s.wordTrap 0x09 (handleOf (regionIdx (s.g a)) 0)) := by
  refine compared_recalled_traps hi hc owes ((sendPerform_takeDeps span).trans ?_)
  unfold sendPerform
  rw [sendRight_of_not_holds (((alike_takeDeps s dep).holds t).trans unheld)]
  rfl

section
variable (held : s.holdsExcl head t (decide (fn = 2)) = true)
include held

omit hi hc owes span in
theorem sendRight_takeDeps : sendRight (s.takeDeps dep) fn head t = true :=
  sendRight_of_holdsExcl (((alike_takeDeps s dep).holdsExcl ..).trans held)

theorem sendWord_bad_peer (other : fn ≠ 2) (bad : s.peerOk ((b.map s.g).getD 0) = false) :
    sendWord sy dep d a b fn s = .next (s.wordTrap 0x0A (s.g a)) := by
  refine compared_recalled_traps hi hc owes ((sendPerform_takeDeps span).trans ?_)
  unfold sendPerform
  rw [sendRight_takeDeps held, (alike_takeDeps s dep).peerOk, bad, if_neg (show ¬((!true) = true) by decide), if_pos ⟨other, rfl⟩]

theorem sendWord_sends (peer : fn ≠ 2 → s.peerOk ((b.map s.g).getD 0) = true) (room : fn = 5 → t.shares < 255) :
    AwaitsG (((s.takeDeps dep).recordResult d.toNat none).countWord.modCore
      (withSend (sendFor (s.takeDeps dep) fn head (s.g a) ((b.map s.g).getD 0) t d))) (sendWord sy dep d a b fn s) sy d := by
  have legal : ¬(fn ≠ 2 ∧ (!(s.takeDeps dep).peerOk ((b.map s.g).getD 0)) = true) := by
    rw [(alike_takeDeps s dep).peerOk]
    rintro ⟨other, bad⟩
    rw [peer other] at bad
    exact Bool.false_ne_true bad
  have fits : ¬(fn = 5 ∧ 255 ≤ t.shares) := fun ⟨share, full⟩ => absurd full (Nat.not_le.2 (room share))
  generalize put : sendFor (s.takeDeps dep) fn head (s.g a) ((b.map s.g).getD 0) t d = x
  have done : sendPerform d fn head (s.g a) ((b.map s.g).getD 0) t (s.takeDeps dep) =
      .done ((((s.takeDeps dep).recordResult d.toNat none).modCore (withSend x)).awaitG d) := by
    unfold sendPerform
    rw [sendRight_takeDeps held, if_neg (show ¬((!true) = true) by decide), if_neg legal, if_neg fits, put]
  rw [show sendWord sy dep d a b fn s = _ from compared_recalled_done hi hc owes ((sendPerform_takeDeps span).trans done)]
  have same := ((same_countWord_modCore (s := (s.takeDeps dep).recordResult d.toNat none) (f := withSend x) rfl).awaitG d).trans
    (same_countWord_awaitG _ d)
  exact awaitsG_of_same (awaitsG_of (Writes.refl _)) (same.finish sy none)

/-- The send that the word puts in flight, field by field. -/
theorem sendWord_puts_in_flight (peer : fn ≠ 2 → s.peerOk ((b.map s.g).getD 0) = true) (room : fn = 5 → t.shares < 255) :
    ∃ x : Send, AwaitsG (((s.takeDeps dep).recordResult d.toNat none).countWord.modCore (withSend x)) (sendWord sy dep d a b fn s) sy d ∧
      x.fn = fn ∧ x.head = head ∧ x.base = BitVec.ofNat 64 (regionIdx (s.g a) * 2 ^ 52) ∧ x.units = t.units ∧
      x.arg = (b.map s.g).getD 0 ∧ x.d = d.toNat ∧ x.warm = s.warm ∧ x.due = none :=
  ⟨_, sendWord_sends hi hc owes span held peer room, rfl, rfl, handleOf_zero _, rfl, rfl, rfl, rfl, rfl⟩

end

end

end Sys2Proof.Proofs
end

section
/-! # O24: spans split, merged, no longer shared, asked after (R273, R277 to R279), and the statement -/

namespace Sys2Proof.Proofs

open Sys2Proof.Machine Sys2Proof.Laws

/-! ## Entries of one head -/

theorem get_setHeads_below (ts : Sp Token) (head n : Nat) {u j : Nat} (h : j < u) : Sp.get {} (setHeads ts u head n) j = Sp.get {} ts j := by
  induction n generalizing ts u with
  | zero => rfl
  | succ n ih => rw [setHeads, ih _ (by omega), get_put_other _ _ _ (by omega)]

theorem head_setHeads (ts : Sp Token) (head : Nat) {n u j : Nat} (from_ : u ≤ j) (below : j < u + n) :
    (Sp.get {} (setHeads ts u head n) j).head = head := by
  induction n generalizing ts u with
  | zero => omega
  | succ n ih =>
    rw [setHeads]
    by_cases here : j = u
    · rw [here, get_setHeads_below _ _ _ (by omega), get_put_self]
    · exact ih _ (by omega) (by omega)

/-! ## The changes of the token table (R277, R278) -/

/-- Units `k` on of the span at `head` are a span of their own. -/
def splitSpan (head k : Nat) (t : Token) (p : Part) : Part :=
  { p with tokens := Sp.put (Sp.put (setHeads p.tokens (head + k) (head + k) (t.units - k)) (head + k)
      { t with head := head + k, units := t.units - k, gen := t.gen + 1 }) head { t with units := k, gen := t.gen + 1 } }

theorem token_splitSpan {head k : Nat} (t : Token) (p : Part) (pos : 0 < k) :
    (splitSpan head k t p).token head = { t with units := k, gen := t.gen + 1 } ∧
    (splitSpan head k t p).token (head + k) = { t with head := head + k, units := t.units - k, gen := t.gen + 1 } ∧
    ∀ j, head + k < j → j < head + t.units → ((splitSpan head k t p).token j).head = head + k := by
  refine ⟨get_put_self .., (get_put_other _ _ _ (by omega)).trans (get_put_self ..), fun j above below => ?_⟩
  have low : j ≠ head := by omega
  refine (congrArg Token.head ((get_put_other _ _ _ low).trans (get_put_other _ _ _ above.ne')) :).trans ?_
  exact head_setHeads _ _ above.le (by omega)

/-- The span at `head` and the one that follows it, of `more` units, are one, whose head entry is `one`. -/
def mergeSpans (head second more : Nat) (one : Token) (p : Part) : Part :=
  { p with tokens := Sp.put (setHeads p.tokens second head more) head one }

theorem token_mergeSpans {head second : Nat} (more : Nat) (one : Token) (p : Part) (after : head < second) :
    (mergeSpans head second more one p).token head = one ∧
    ∀ j, second ≤ j → j < second + more → ((mergeSpans head second more one p).token j).head = head := by
  refine ⟨get_put_self .., fun j above below => ?_⟩
  have low : j ≠ head := by omega
  refine (congrArg Token.head (get_put_other _ _ _ low) :).trans ?_
  exact head_setHeads _ _ above below

/-- Core `k` has dropped its lines of the span at `head`. -/
def spanDropped (s : State) (k head : Nat) : State :=
  match s.part.spanKeys head with
  | some (lo, n) => s.dropSpan k lo n
  | none => s

theorem spanDropped_frame (s : State) (k head : Nat) : (spanDropped s k head).apart = s.apart ∧
    (∀ j, j ≠ k → (spanDropped s k head).coreAt j = s.coreAt j) ∧
    ∃ lines, (spanDropped s k head).coreAt k = { s.coreAt k with l1d := lines } := by
  unfold spanDropped
  split
  · exact ⟨rfl, fun j other => coreAt_modCoreAt_other _ _ other, _, coreAt_modCoreAt_self ..⟩
  · exact ⟨rfl, fun _ _ => rfl, _, rfl⟩

/-- The share of the span at `head` has left the current core's set. -/
def withoutShare (head : Nat) (c : Core) : Core := { c with shares := c.shares.erase head }

/-- The state once the current core has given its share back. -/
def unshared (s : State) (head : Nat) : State :=
  ((spanDropped s s.cur head).modCore (withoutShare head)).modToken s.partNo head Token.unshare

theorem core_unshared (s : State) (head : Nat) :
    ∃ lines, (unshared s head).core = { s.core with l1d := lines, shares := s.core.shares.erase head } := by
  obtain ⟨pod, -, lines, dropped⟩ := spanDropped_frame s s.cur head
  have own : (spanDropped s s.cur head).core = { s.core with l1d := lines } := by
    rw [State.core, cur_of_apart pod]
    exact dropped
  unfold unshared State.modToken
  rw [core_modPartAt, core_modCore, own]
  exact ⟨lines, rfl⟩

theorem token_modToken (s : State) (part head j : Nat) (f : Token → Token) :
    ((s.modToken part head f).partAt part).token j = if j = head then f ((s.partAt part).token head) else (s.partAt part).token j := by
  unfold State.modToken
  rw [partAt_modPartAt_self]
  exact get_put ..

theorem token_unshared (s : State) (head : Nat) : ((unshared s head).part.token head) = (s.part.token head).unshare := by
  obtain ⟨pod, -⟩ := spanDropped_frame s s.cur head
  obtain ⟨lines, core⟩ := core_unshared s head
  have number : (unshared s head).partNo = s.partNo := by
    unfold State.partNo
    rw [core]
    rfl
  have before : ((spanDropped s s.cur head).modCore (withoutShare head)).partAt s.partNo = s.part :=
    (congrArg (fun u : State => u.partAt s.partNo) pod :)
  unfold State.part
  rw [number, unshared, token_modToken, if_pos rfl, before]
  rfl

/-! ## Words that give gD its word -/

/-- The status word of a word that has done what it says (R272). -/
theorem statusWord_zero (head : Nat) (gen : BitVec 16) : statusWord head gen 0 = BitVec.ofNat 64 (head * 2 ^ 30 + gen.toNat * 2 ^ 14) := by
  rw [statusWord, word, Nat.add_zero]

/-- The outcome gives gD the word `v` from a state of which `P` holds, memory, the cold state and the clusters as in `s`. -/
def GivesWord (s : State) (o : Out) (sy : BitVec 1) (d : BitVec 5) (v : Word) (P : State → Prop) : Prop :=
  ∃ u n, WritesG u o sy d v n none ∧ P u ∧ u.mem = s.mem ∧ u.core.cold = s.core.cold ∧ ∀ l, u.core.cluster l = s.core.cluster l

theorem givesWord_of_done {sy : BitVec 1} {dep : BitVec 4} {rd : List RegRef} {d : BitVec 5} {s v : State} {f : State → Perform} {x : Word}
    {n : Nat} {P : State → Prop} (hi : s.Issues dep rd [gR d]) (hc : s.Compared) (owes : s.core.owes = {})
    (done : f (s.takeDeps dep) = doneWith v d x n) (mem : v.mem = s.mem)
    (core : ∃ tok lines shares, v.core = { s.core with tok := tok, l1d := lines, shares := shares })
    (changed : ∀ u : State, u.part = v.part → u.core.shares = v.core.shares → P u) :
    GivesWord s (Machine.compared sy dep rd [gR d] s fun s => recalled d s f) sy d x P := by
  obtain ⟨win, counted⟩ := core_recordResult_countWord v d.toNat (some x)
  obtain ⟨tok, lines, shares, core⟩ := core
  refine ⟨_, n, compared_recalled_writesG hi hc owes done, changed _ (part_eq rfl (by rw [counted]; rfl)) (by rw [counted]), mem, ?_, fun l => ?_⟩
  · rw [counted, core]
  · rw [counted, core]
    cases l <;> rfl

section
variable {sy : BitVec 1} {dep : BitVec 4} {d a b : BitVec 5} {r : Region} {head : Nat} {t : Token} {s : State}
  (hi : s.Issues dep [gR a, gR b] [gR d]) (hc : s.Compared) (owes : s.core.owes = {}) (span : s.spanOf (s.g a) = .ok (r, head, t))

include span in
theorem spanOf_takeDeps : (s.takeDeps dep).spanOf (s.g a) = .ok (r, head, t) := ((alike_takeDeps s dep).spanOf _).trans span

include hi in
theorem issues_handle : s.Issues dep [gR a] [gR d] := ⟨regsReady_mono hi.1 (by simp), hi.2⟩

include hi hc owes span

theorem exec_ownSplit_splits (held : s.holdsExcl head t false = true) (pos : 0 < (s.g b).toNat) (below : (s.g b).toNat < t.units)
    (clear : s.crossingsThrough (s.g a) = true) :
    GivesWord s (exec (.ownSplit sy dep d a b) s) sy d (statusWord (head + (s.g b).toNat) (t.gen + 1) 0)
      fun u => u.part = splitSpan head (s.g b).toNat t s.part := by
  have like := alike_takeDeps s dep
  have split : ∀ u : State, u.part = ((s.takeDeps dep).modPartAt (s.takeDeps dep).partNo (splitSpan head (s.g b).toNat t)).part →
      u.part = splitSpan head (s.g b).toNat t s.part := fun u same => by rw [same, part_modPartAt, like.part]
  obtain ⟨tok, taken⟩ := core_takeDeps s dep
  refine givesWord_of_done hi hc owes (v := ((s.takeDeps dep).modPartAt (s.takeDeps dep).partNo (splitSpan head (s.g b).toNat t)).draw 39 |>.2)
    (n := 1 + ((s.takeDeps dep).draw 39).1) ?_ rfl ⟨tok, _, _, taken⟩ fun u same _ => split u same
  dsimp only
  rw [g_takeDeps, g_takeDeps, spanOf_takeDeps span]
  dsimp only
  rw [like.holdsExcl, held, like.crossingsThrough, clear, if_neg (show ¬((!true) = true) by decide),
    if_neg (show ¬((s.g b).toNat = 0 ∨ t.units ≤ (s.g b).toNat) by omega)]
  rfl

theorem exec_ownSplit_traps (held : s.holdsExcl head t false = true) (bad : (s.g b).toNat = 0 ∨ t.units ≤ (s.g b).toNat) :
    exec (.ownSplit sy dep d a b) s = .next (s.wordTrap 0x0A (s.g a)) := by
  rw [exec_ownSplit, execOwnSplit]
  refine compared_recalled_traps hi hc owes ?_
  dsimp only
  rw [g_takeDeps, g_takeDeps, spanOf_takeDeps span]
  dsimp only
  rw [(alike_takeDeps s dep).holdsExcl, held, if_neg (show ¬((!true) = true) by decide), if_pos bad]

theorem exec_ownMerge_merges {r2 : Region} {t2 : Token} (held : s.holdsExcl head t false = true)
    (second : s.spanOf (s.g b) = .ok (r2, head + t.units, t2)) (held2 : s.holdsExcl (head + t.units) t2 false = true)
    (region : regionIdx (s.g a) = regionIdx (s.g b)) (gens : t.gen = t2.gen) (clear : s.crossingsThrough (s.g a) = true) :
    GivesWord s (exec (.ownMerge sy dep d a b) s) sy d (statusWord head (t.gen + 1) 0) fun u => u.part =
      mergeSpans head (head + t.units) t2.units { t with units := t.units + t2.units, gen := t.gen + 1, taint := t.taint || t2.taint } s.part := by
  have like := alike_takeDeps s dep
  obtain ⟨tok, taken⟩ := core_takeDeps s dep
  generalize one : ({ t with units := t.units + t2.units, gen := t.gen + 1, taint := t.taint || t2.taint } : Token) = x
  refine givesWord_of_done hi hc owes
    (v := ((s.takeDeps dep).modPartAt (s.takeDeps dep).partNo (mergeSpans head (head + t.units) t2.units x)).draw 39 |>.2)
    (n := 1 + ((s.takeDeps dep).draw 39).1) ?_ rfl ⟨tok, _, _, taken⟩ fun u same _ => ?_
  · dsimp only
    rw [g_takeDeps, g_takeDeps, spanOf_takeDeps span, spanOf_takeDeps second]
    dsimp only
    rw [like.holdsExcl, like.holdsExcl, held, held2, like.crossingsThrough, clear, if_pos rfl, if_pos rfl]
    dsimp only
    rw [if_neg (show ¬(regionIdx (s.g a) ≠ regionIdx (s.g b) ∨ head + t.units ≠ head + t.units) by simp [region]), ← gens, ite_self, one]
    rfl
  · rw [same]
    refine (part_modPartAt (s.takeDeps dep) _).trans ?_
    rw [like.part]

theorem exec_ownUnshare_gives_back (shared : s.core.shares = [head]) (clear : s.crossingsThrough (s.g a) = true) :
    GivesWord s (exec (.ownUnshare sy dep d a) s) sy d (statusWord head t.gen 0)
      fun u => u.core.shares = [] ∧ u.part.token head = (s.part.token head).unshare := by
  have like := alike_takeDeps s dep
  obtain ⟨tok, taken⟩ := core_takeDeps s dep
  obtain ⟨lines, core⟩ := core_unshared (s.takeDeps dep) head
  rw [taken] at core
  refine givesWord_of_done (issues_handle hi) hc owes (v := ((unshared (s.takeDeps dep) head).draw 39).2)
    (n := 1 + ((unshared (s.takeDeps dep) head).draw 39).1) ?_ ?_ ⟨tok, lines, _, core⟩ fun u part shares => ⟨?_, ?_⟩
  · dsimp only
    rw [g_takeDeps, spanOf_takeDeps span]
    dsimp only
    rw [like.shares, like.crossingsThrough, clear, if_neg (show ¬((!s.core.shares.contains head) = true) by simp [shared])]
    rfl
  · exact (congrArg State.mem (spanDropped_frame (s.takeDeps dep) _ head).1 :)
  · refine shares.trans ((congrArg Core.shares core :).trans ?_)
    rw [shared, List.erase_cons_head]
  · rw [part]
    refine (token_unshared (s.takeDeps dep) head).trans ?_
    rw [like.part]

theorem exec_ownUnshare_traps (absent : head ∉ s.core.shares) :
    exec (.ownUnshare sy dep d a) s = .next (s.wordTrap 0x09 (handleOf (regionIdx (s.g a)) 0)) := by
  rw [exec_ownUnshare, execOwnUnshare]
  refine compared_recalled_traps (issues_handle hi) hc owes ?_
  dsimp only
  rw [g_takeDeps, spanOf_takeDeps span]
  dsimp only
  rw [(alike_takeDeps s dep).shares, if_pos (by simpa using absent)]

theorem exec_ownQuery_answers :
    GivesWord s (exec (.ownQuery sy dep d a) s) sy d (s.queryWord head t) fun u => u.part = s.part := by
  have like := alike_takeDeps s dep
  obtain ⟨tok, taken⟩ := core_takeDeps s dep
  refine givesWord_of_done (issues_handle hi) hc owes (v := s.takeDeps dep) (n := 2) ?_ rfl ⟨tok, _, _, taken⟩
    fun u part _ => part.trans like.part
  rw [g_takeDeps, spanOf_takeDeps span]
  dsimp only
  rw [like.queryWord]

theorem exec_ownWait_ends (held : s.exclusive t = true) (unshared : t.shares = 0) (idle : s.core.sends = []) :
    GivesWord s (exec (.ownWait sy dep d a) s) sy d (s.queryWord head t) fun u => u.part = s.part := by
  have like := alike_takeDeps s dep
  obtain ⟨tok, taken⟩ := core_takeDeps s dep
  have free : s.sendLeaves true head = none := by
    unfold State.sendLeaves
    rw [idle]
    rfl
  refine givesWord_of_done (issues_handle hi) hc owes (v := s.takeDeps dep) (n := 1) ?_ rfl ⟨tok, _, _, taken⟩
    fun u part _ => part.trans like.part
  rw [g_takeDeps, spanOf_takeDeps span]
  dsimp only
  rw [like.exclusive, like.sendLeaves, like.queryWord, if_pos (Or.inl ⟨held, unshared, by rw [free]; rfl⟩)]

end

theorem GivesWord.imp {s : State} {o : Out} {sy : BitVec 1} {d : BitVec 5} {v : Word} {P Q : State → Prop} (h : GivesWord s o sy d v P)
    (weaken : ∀ u, P u → Q u) : GivesWord s o sy d v Q := by
  obtain ⟨u, n, writes, holds, rest⟩ := h
  exact ⟨u, n, writes, weaken u holds, rest⟩

/-- Settles O24: the sends by `sendWord`'s checks, the other words by the change each makes to the token table. -/
theorem ownWords : Obligations.OwnWords := by
  refine ⟨fun sy dep d a b r head t s hi hc owes span => ?_, fun sy dep d a b r head t s hi hc owes _ span => ?_⟩
  · have first : s.Issues dep [gR a] [gR d] := issues_handle hi
    refine ⟨fun held peer => ⟨?_, ?_⟩, fun held => ?_, fun held peer room => ?_, fun unheld i mem => ?_, fun held bad i mem => ?_⟩
    · exact sendWord_puts_in_flight (b := some b) (fn := 0) hi hc owes span held (fun _ => peer) fun share => nomatch share
    · exact sendWord_puts_in_flight (b := some b) (fn := 1) hi hc owes span held (fun _ => peer) fun share => nomatch share
    · exact sendWord_puts_in_flight (b := none) (fn := 2) first hc owes span held (fun other => absurd rfl other) fun share => nomatch share
    · exact sendWord_puts_in_flight (b := some b) (fn := 5) hi hc owes span held (fun _ => peer) fun _ => room
    · rw [← handleOf_zero]
      simp only [List.mem_cons, List.not_mem_nil, or_false] at mem
      rcases mem with rfl | rfl | rfl | rfl
      · exact sendWord_unheld (b := some b) hi hc owes span unheld
      · exact sendWord_unheld (b := some b) hi hc owes span unheld
      · exact sendWord_unheld (b := none) first hc owes span unheld
      · exact sendWord_unheld (b := some b) hi hc owes span unheld
    · simp only [List.mem_cons, List.not_mem_nil, or_false] at mem
      rcases mem with rfl | rfl
      · exact sendWord_bad_peer (b := some b) (fn := 0) hi hc owes span held (by decide) bad
      · exact sendWord_bad_peer (b := some b) (fn := 1) hi hc owes span held (by decide) bad
  · refine ⟨fun held pos below clear => ?_, fun held bad => exec_ownSplit_traps hi hc owes span held bad,
      fun r2 t2 held second held2 region pos gens clear => ?_, fun shared clear => ?_, fun absent => ?_,
      exec_ownQuery_answers hi hc owes span, exec_ownWait_ends hi hc owes span⟩
    · rw [← statusWord_zero]
      refine (exec_ownSplit_splits hi hc owes span held pos below clear).imp fun u part => ?_
      obtain ⟨low, high, rest⟩ := token_splitSpan t s.part pos
      rw [part, low, high]
      exact ⟨rfl, rfl, rfl, rfl, rest⟩
    · rw [← statusWord_zero]
      refine (exec_ownMerge_merges hi hc owes span held second held2 region gens clear).imp fun u part => ?_
      obtain ⟨one, rest⟩ := token_mergeSpans t2.units
        { t with units := t.units + t2.units, gen := t.gen + 1, taint := t.taint || t2.taint } s.part (show head < head + t.units by omega)
      rw [part, one]
      exact ⟨rfl, rfl, rest⟩
    · rw [← statusWord_zero]
      refine (exec_ownUnshare_gives_back hi hc owes span shared clear).imp fun u gone => ?_
      obtain ⟨shares, token⟩ := gone
      exact ⟨shares, by rw [token]; rfl⟩
    · rw [← handleOf_zero]
      exact exec_ownUnshare_traps hi hc owes span absent

end Sys2Proof.Proofs
end

section
/-! # O25: a send goes home, and what its receiver hears (R274, R291, R379, R438) -/

namespace Sys2Proof.Proofs

open Sys2Proof.Machine Sys2Proof.Laws

/-! ## Lines that go home -/

/-- A cache that holds nothing writes nothing home. -/
theorem mem_cleanLines_of_empty {s : State} (empty : s.core.l1d = []) (issued : Nat) (sel : Line → Bool) :
    (s.cleanLines issued sel).mem = s.mem := by
  unfold State.cleanLines
  rw [empty]
  rfl

/-- The lines that went home stand clean. -/
theorem mask_cleanLines (s : State) (issued : Nat) : ∀ l ∈ (s.cleanLines issued fun _ => true).core.l1d, l.mask = 0 := by
  unfold State.cleanLines
  rw [core_modCore]
  intro l mem
  obtain ⟨m, -, rfl⟩ := List.mem_map.1 mem
  rfl

theorem sel_dropLines (s : State) (sel : Line → Bool) : ∀ l ∈ (s.dropLines sel).core.l1d, sel l = false := by
  rw [State.dropLines, core_modCore]
  intro l mem
  simpa using (List.mem_filter.1 mem).2

theorem LinesMove.dropLines (s : State) (sel : Line → Bool) : LinesMove s (s.dropLines sel) := .modCore s ⟨_, _, _, rfl⟩

/-- The caller's lines of a sent span have gone home, and are dropped but for a share (R274). -/
def linesHome (s : State) (x : Send) : State :=
  match s.part.spanKeys x.head with
  | some (lo, n) =>
    if x.fn = 5 then s.cleanLines x.warm (overlaps lo n) else (s.cleanLines x.warm (overlaps lo n)).dropLines (overlaps lo n)
  | none => s

theorem linesMove_linesHome (s : State) (x : Send) : LinesMove s (linesHome s x) := by
  unfold linesHome
  split
  · split_ifs
    · exact .cleanLines ..
    · exact (LinesMove.cleanLines ..).trans (.dropLines ..)
  · exact .refl s

theorem mem_linesHome {s : State} {x : Send} (empty : s.core.l1d = []) : (linesHome s x).mem = s.mem := by
  unfold linesHome
  split
  · split_ifs
    · exact mem_cleanLines_of_empty empty ..
    · exact mem_cleanLines_of_empty empty ..
  · rfl

theorem overlaps_linesHome {s : State} {x : Send} {lo n : Nat} (sent : x.fn ≠ 5) (keys : s.part.spanKeys x.head = some (lo, n)) :
    ∀ l ∈ (linesHome s x).core.l1d, overlaps lo n l = false := by
  unfold linesHome
  rw [keys]
  dsimp only
  rw [if_neg sent]
  exact sel_dropLines _ _

/-! ## The first phase -/

/-- The package of the core a send goes to. -/
def sendPackage (s : State) (x : Send) : Nat := if x.fn = 2 then (s.part.token x.head).lpkg else bits x.arg 30 10

/-- The send `x` of a core arrives at `due`. -/
def withDue (x : Send) (due : Nat) (c : Core) : Core := { c with sends := c.sends.map fun y => if y = x then { y with due := some due } else y }

/-- How much later than the next warm cycle a send arrives. -/
def sendDelay (s : State) (x : Send) : Nat := ((linesHome s x).draw (if sendPackage s x = pkgOf s.cur then 598 else 2998)).1

theorem sendHome_eq (s : State) (x : Send) : s.sendHome x =
    ((linesHome s x).draw (if sendPackage s x = pkgOf s.cur then 598 else 2998)).2.modCore (withDue x (s.warm + 1 + sendDelay s x)) := by
  unfold State.sendHome sendDelay linesHome sendPackage
  cases s.part.spanKeys x.head <;> rfl

theorem draw_le (s : State) (n : Nat) : (s.draw n).1 ≤ n := Nat.le_of_lt_succ (Nat.mod_lt _ (Nat.succ_pos n))

theorem sendDelay_le (s : State) (x : Send) : sendDelay s x ≤ 2998 ∧ (sendPackage s x = s.cur / 256 → sendDelay s x ≤ 598) := by
  have bound : sendDelay s x ≤ if sendPackage s x = pkgOf s.cur then 598 else 2998 := draw_le ..
  refine ⟨bound.trans (by split_ifs <;> omega), fun here => ?_⟩
  rwa [if_pos (show sendPackage s x = pkgOf s.cur from here)] at bound

theorem find_only {α : Type} {p : α → Bool} {l : List α} {x : α} (only : l = [x]) (h : p x = true) : l.find? p = some x := by
  rw [only]
  exact List.find?_cons_of_pos h

theorem find_none_only {α : Type} {p : α → Bool} {l : List α} {x : α} (only : l = [x]) (h : p x = false) : l.find? p = none := by
  rw [only, List.find?_eq_none]
  simpa using h

section
variable {x : Send} {s : State} (only : s.core.sends = [x])
include only

theorem exec_tokenSendComplete_of_ready (waiting : x.due = none) (ready : s.sendReady x = true) :
    exec .tokenSendComplete s = .next (s.sendHome x) := by
  rw [exec_tokenSendComplete, execTokenSendComplete, find_only only (by rw [waiting, ready]; rfl)]

theorem sends_sendHome : (s.sendHome x).core.sends = [{ x with due := some (s.warm + 1 + sendDelay s x) }] := by
  obtain ⟨lines, bad, mirror, core⟩ := (linesMove_linesHome s x).core
  rw [sendHome_eq, core_modCore, core_draw, core, withDue]
  dsimp only
  rw [only]
  exact congrArg (fun y => [y]) (if_pos rfl)

end

theorem l1d_sendHome (s : State) (x : Send) : (s.sendHome x).core.l1d = (linesHome s x).core.l1d := by
  rw [sendHome_eq, core_modCore]
  rfl

/-! ## What the receiver hears -/

theorem pulsed_toNat_min (v : BitVec 16) : (pulsed v).toNat = min 0xFFFF (v.toNat + 1) := by
  rw [pulsed_toNat]
  have := v.isLt
  split_ifs <;> omega

/-- A token that arrives pulses e6 and touches no other record; of the core's own it may wake a cluster. -/
theorem tokenArrives_frame (s : State) (k : Nat) : (s.tokenArrives k).apart = s.apart ∧
    (∀ j, j ≠ k → (s.tokenArrives k).coreAt j = s.coreAt j) ∧ ((s.tokenArrives k).coreAt k).shares = (s.coreAt k).shares ∧
    Sp.get 0 ((s.tokenArrives k).coreAt k).cold.ev 6 = pulsed (Sp.get 0 (s.coreAt k).cold.ev 6) := by
  have at_ : (s.tokenArrives k).coreAt k = Core.wake ((s.pulse k 6).coreAt k) := coreAt_modCoreAt_self ..
  refine ⟨rfl, fun j other => ?_, ?_, ?_⟩
  · exact (coreAt_modCoreAt_other _ _ other).trans (coreAt_modCoreAt_other _ _ other)
  · rw [at_, State.pulse, coreAt_modCoreAt_self]
    dsimp only
    split_ifs <;> rfl
  · rw [at_, State.pulse, coreAt_modCoreAt_self]
    unfold pulsed
    dsimp only
    split_ifs with full
    · rfl
    · exact get_set_self ..

theorem receive_frame (s : State) (k head : Nat) (share : Bool) : (s.receive k head share).apart = s.apart ∧
    (∀ j, j ≠ k → (s.receive k head share).coreAt j = s.coreAt j) ∧
    ((s.receive k head share).coreAt k).shares = (if share then (s.coreAt k).shares ++ [head] else (s.coreAt k).shares) ∧
    Sp.get 0 ((s.receive k head share).coreAt k).cold.ev 6 = pulsed (Sp.get 0 (s.coreAt k).cold.ev 6) := by
  obtain ⟨pod, others, lines, dropped⟩ := spanDropped_frame s k head
  cases share with
  | false =>
    have run : s.receive k head false = (spanDropped s k head).tokenArrives k := rfl
    obtain ⟨pod', others', shares, ev⟩ := tokenArrives_frame (spanDropped s k head) k
    rw [run, shares, ev, dropped]
    exact ⟨pod'.trans pod, fun j other => (others' j other).trans (others j other), rfl, rfl⟩
  | true =>
    have run : s.receive k head true = ((spanDropped s k head).modCoreAt k fun c => { c with shares := c.shares ++ [head] }).tokenArrives k := rfl
    obtain ⟨pod', others', shares, ev⟩ :=
      tokenArrives_frame ((spanDropped s k head).modCoreAt k fun c => { c with shares := c.shares ++ [head] }) k
    rw [run, shares, ev, coreAt_modCoreAt_self, dropped]
    exact ⟨pod'.trans pod, fun j other => (others' j other).trans ((coreAt_modCoreAt_other _ _ other).trans (others j other)), rfl, rfl⟩

end Sys2Proof.Proofs
end

section
/-! # O25: a send arrives, by what it finds (R274 to R277, R442), and the statement -/

namespace Sys2Proof.Proofs

open Sys2Proof.Machine Sys2Proof.Laws

/-! ## The status and the state an arrival leaves -/

section
variable {s : State} {x : Send} {k : Nat} {sl : Slot}

theorem sendArrive_gone (gone : s.spanStands x.head = false) : s.sendArrive x = (1, s) := by
  unfold State.sendArrive
  simp [gone]

/-- The head entry of a span that comes back to its lender. -/
def tokenBack (t : Token) : Token := { t with hpkg := t.lpkg, hcore := t.lcore, hgroup := t.lgroup, lvalid := false, mode := .excl, gen := t.gen + 1 }

/-- The head entry of a span of which one more core has a share. -/
def tokenShared (t : Token) : Token := { t with shares := t.shares + 1, mode := .sharedIssue }

/-- The head entry of a span that core `k` has from the current core of `s`, lent or given. -/
def tokenSent (s : State) (k : Nat) (sl : Slot) (lent : Bool) (t : Token) : Token :=
  { t with hpkg := pkgOf k, hcore := sl.coreId.toNat, hgroup := sl.launch, mode := .excl, gen := t.gen + 1, lvalid := lent,
           lpkg := pkgOf s.cur, lcore := s.core.slot.coreId.toNat, lgroup := s.core.slot.launch }

section
variable (stands : s.spanStands x.head = true)
include stands

section
variable (ret : x.fn = 2)
include ret

theorem sendArrive_unlent (unlent : (s.part.token x.head).lvalid = false) : s.sendArrive x = (4, s) := by
  unfold State.sendArrive
  simp [stands, ret, unlent]

variable (lent : (s.part.token x.head).lvalid = true)
include lent

theorem sendArrive_ret : s.sendArrive x =
    match coreOfLaunch s.partNo (s.part.token x.head).lgroup (s.part.token x.head).lpkg (s.part.token x.head).lcore s.cores with
    | none => (1, s)
    | some k =>
      if (s.coreAt k).halting then (4, s.modToken s.partNo x.head fun t => { t with lvalid := false })
      else (0, (s.modToken s.partNo x.head tokenBack).receive k x.head false) := by
  unfold State.sendArrive
  simp only [stands, ret, lent, Bool.not_true, Bool.false_eq_true, if_false, if_true]
  rfl

end

variable (other : x.fn ≠ 2)
include other

theorem sendArrive_no_receiver (none : s.receiver x.arg = none) : s.sendArrive x = (1, s) := by
  unfold State.sendArrive
  simp [stands, other, none]

variable (runs : s.receiver x.arg = some (k, sl))
include runs

omit other in
theorem sendArrive_share (share : x.fn = 5) : s.sendArrive x =
    if x.head ∈ (s.coreAt k).shares then (2, s)
    else if 64 ≤ (s.coreAt k).shares.length then (3, s)
    else (0, (s.modToken s.partNo x.head tokenShared).receive k x.head true) := by
  unfold State.sendArrive
  simp only [stands, runs, share, Bool.not_true, Bool.false_eq_true, if_false, if_true, List.contains_iff_mem]
  rfl

theorem sendArrive_handed (whole : x.fn ≠ 5) :
    s.sendArrive x = (0, (s.modToken s.partNo x.head (tokenSent s k sl (decide (x.fn = 0)))).receive k x.head false) := by
  unfold State.sendArrive
  simp only [stands, other, runs, whole, Bool.not_true, Bool.false_eq_true, if_false]
  rfl

end

end

/-! ## The end of a send -/

/-- The send ends with status `st`, in a state of which `P` holds: no other head entry has changed, and gD has the status word. -/
def SendEnds (s : State) (x : Send) (st : Nat) (P : State → Prop) : Prop :=
  ∃ t, exec .tokenSendComplete s = .next t ∧ t.core.sends = [] ∧ t.mem = s.mem ∧
    (∀ j, j ≠ x.head → t.part.token j = s.part.token j) ∧ P t ∧
    (x.d ≠ 0 → (t.core.cluster .K).rg x.d = BitVec.ofNat 64 (x.head * 2 ^ 30 + (t.part.token x.head).gen.toNat * 2 ^ 14 + st))

/-- What an event that writes a register of the code that runs leaves of the core. -/
theorem fillG_eq_of_level (c : Core) (l : Lane) (d : Nat) (v : Word) (ready : Nat) :
    ∃ win, c.fillG c.level l d v ready = { c.setCluster l (((c.cluster l).wg d v).setBusy (.g d) (some ready)) with win := win } := by
  unfold Core.fillG
  rw [if_pos rfl]
  exact ⟨_, rfl⟩

/-- The send `x` is gone from the core. -/
def withoutSend (x : Send) (c : Core) : Core := { c with sends := c.sends.erase x }

/-- The state in which the send `x` has ended with status `st`, its arrival having left `u`. -/
def sendEnded (s u : State) (x : Send) (st : Nat) : State :=
  u.modCore fun c => (withoutSend x c).fillG x.level .K x.d (statusWord x.head (u.part.token x.head).gen st) s.warm

theorem core_sendEnded {s u : State} {x : Send} (st : Nat) (level : x.level = s.core.level) (core : u.core = s.core) :
    ∃ win, (sendEnded s u x st).core = { (withoutSend x s.core).setCluster .K
      (((s.core.cluster .K).wg x.d (statusWord x.head (u.part.token x.head).gen st)).setBusy (.g x.d) (some s.warm)) with win := win } := by
  rw [sendEnded, core_modCore, core, level]
  exact fillG_eq_of_level ..

section
variable {s u : State} {x : Send} {st due : Nat} {P : State → Prop} (only : s.core.sends = [x]) (sent : x.due = some due) (arrived : due ≤ s.warm)
  (level : x.level = s.core.level)
include only sent arrived level

/-- A send that has arrived ends by what its arrival leaves, which is nothing of the current core. -/
theorem sendEnds_of_arrive (arrive : s.sendArrive x = (st, u)) (pod : ∃ ps, u.apart = { s.apart with parts := ps }) (core : u.core = s.core)
    (others : ∀ j, j ≠ x.head → u.part.token j = s.part.token j)
    (changed : ∀ t, t.parts = u.parts → t.part = u.part → (∀ k, k ≠ s.cur → t.coreAt k = u.coreAt k) → P t) : SendEnds s x st P := by
  obtain ⟨ps, pod⟩ := pod
  have cur : u.cur = s.cur := (congrArg State.cur pod :)
  have run : exec .tokenSendComplete s = .next (sendEnded s u x st) := by
    rw [exec_tokenSendComplete, execTokenSendComplete, find_none_only only (by rw [sent]; rfl),
      find_only only (by rw [sent]; exact decide_eq_true arrived)]
    dsimp only
    rw [arrive]
    rfl
  obtain ⟨win, after⟩ := core_sendEnded st level core
  have part : (sendEnded s u x st).part = u.part := part_eq rfl (by rw [after, core]; rfl)
  refine ⟨_, run, ?_, (congrArg State.mem pod :), fun j other => by rw [part]; exact others j other,
    changed _ rfl part fun k other => coreAt_modCore_other u _ (by rwa [cur]), fun written => ?_⟩
  · rw [after]
    exact (congrArg (List.erase · x) only).trans (List.erase_cons_head ..)
  · rw [after, part]
    refine (rg_setBusy ..).trans ((rg_wg_self ..).trans ?_)
    rw [if_neg written]
    rfl

/-- A send that changes no record but its own ends so. -/
theorem sendEnds_unchanged (arrive : s.sendArrive x = (st, s))
    (changed : ∀ t, t.parts = s.parts → (∀ k, k ≠ s.cur → t.coreAt k = s.coreAt k) → P t) :
    SendEnds s x st P :=
  sendEnds_of_arrive only sent arrived level arrive ⟨s.parts, rfl⟩ rfl (fun _ _ => rfl) fun t parts _ cores => changed t parts cores

omit only sent arrived level in
theorem token_part_modToken (s : State) (head j : Nat) (f : Token → Token) :
    (s.modToken s.partNo head f).part.token j = if j = head then f (s.part.token head) else s.part.token j :=
  token_modToken s s.partNo head j f

/-- A send that changes the head entry, of which another core hears or none. -/
theorem sendEnds_of_token {f : Token → Token} (arrive : s.sendArrive x = (st, u)) (pod : u.apart = (s.modToken s.partNo x.head f).apart)
    (core : u.core = s.core)
    (changed : ∀ t, t.part.token x.head = f (s.part.token x.head) → (∀ k, k ≠ s.cur → t.coreAt k = u.coreAt k) → P t) :
    SendEnds s x st P := by
  have part : u.part = (s.modToken s.partNo x.head f).part := part_eq (congrArg State.parts pod :) (by rw [core]; rfl)
  refine sendEnds_of_arrive only sent arrived level arrive ⟨_, pod⟩ core (fun j other => ?_) fun t _ after cores => changed t ?_ cores
  · rw [part, token_part_modToken, if_neg other]
  · rw [after, part, token_part_modToken, if_pos rfl]

/-- A send that changes the head entry and of which core `k` hears. -/
theorem sendEnds_received {f : Token → Token} {k : Nat} {share : Bool} (away : k ≠ s.cur)
    (arrive : s.sendArrive x = (st, (s.modToken s.partNo x.head f).receive k x.head share))
    (changed : ∀ t, t.part.token x.head = f (s.part.token x.head) →
      (t.coreAt k).shares = (if share then (s.coreAt k).shares ++ [x.head] else (s.coreAt k).shares) →
      (Sp.get 0 (t.coreAt k).cold.ev 6).toNat = min 0xFFFF ((Sp.get 0 (s.coreAt k).cold.ev 6).toNat + 1) → P t) : SendEnds s x st P := by
  obtain ⟨pod, others, shares, ev⟩ := receive_frame (s.modToken s.partNo x.head f) k x.head share
  refine sendEnds_of_token only sent arrived level arrive pod ?_ fun t token cores => changed t token ?_ ?_
  · rw [State.core, cur_of_apart pod]
    exact others _ (Ne.symm away)
  · rw [cores k away, shares]
    rfl
  · rw [cores k away, ev, pulsed_toNat_min]
    rfl

end

/-- Settles O25: the first phase by what goes home, the second by what the send finds when it arrives. -/
theorem sendsHandTheSpanOver : Obligations.SendsHandTheSpanOver := by
  refine fun x s only => ⟨fun waiting ready => ?_, fun due sent arrived level _ => ?_,
    fun due k sl sent arrived stands fn runs away level _ => ?_⟩
  · obtain ⟨far, near⟩ := sendDelay_le s x
    have moved := linesMove_linesHome s x
    refine ⟨_, _, exec_tokenSendComplete_of_ready only waiting ready, sends_sendHome only, by omega, by omega, ?_, fun ret here => ?_,
      fun other here => ?_, fun empty => ?_, fun lo n whole keys => ?_⟩
    · rw [sendHome_eq]
      exact moved.parts
    · have := near (by rw [sendPackage, if_pos ret, here])
      omega
    · have := near (by rw [sendPackage, if_neg other, bits_eq_extractLsb', here])
      omega
    · rw [sendHome_eq]
      exact mem_linesHome empty
    · rw [l1d_sendHome]
      exact overlaps_linesHome whole keys
  · refine ⟨fun gone => sendEnds_unchanged only sent arrived level (sendArrive_gone gone) fun _ parts _ => parts, fun stands =>
      ⟨fun ret unlent => sendEnds_unchanged only sent arrived level (sendArrive_unlent stands ret unlent) fun _ parts _ => parts,
        fun ret lent lender => ?_, fun k ret lent lender => ⟨fun halting => ?_, fun runs away => ?_⟩,
        fun other none => sendEnds_unchanged only sent arrived level (sendArrive_no_receiver stands other none) fun _ parts _ => parts,
        fun k sl share runs away => ?_⟩⟩
    · have arrive := sendArrive_ret stands ret lent
      rw [lender] at arrive
      exact sendEnds_unchanged only sent arrived level arrive fun _ parts _ => parts
    · have arrive := sendArrive_ret stands ret lent
      rw [lender] at arrive
      exact sendEnds_of_token only sent arrived level (arrive.trans (if_pos halting)) rfl rfl fun _ token _ => token
    · have arrive := sendArrive_ret stands ret lent
      rw [lender] at arrive
      exact sendEnds_received only sent arrived level away (arrive.trans (if_neg (by simp [runs]))) fun _ token _ ev => ⟨token, ev⟩
    · have arrive := sendArrive_share stands runs share
      refine ⟨fun dup => ?_, fun new full => ?_, fun new room => ?_⟩
      · exact sendEnds_unchanged only sent arrived level (arrive.trans (if_pos dup)) fun _ parts cores => ⟨parts, cores k away⟩
      · exact sendEnds_unchanged only sent arrived level (arrive.trans ((if_neg new).trans (if_pos full))) fun _ parts cores =>
          ⟨parts, cores k away⟩
      · exact sendEnds_received only sent arrived level away (arrive.trans ((if_neg new).trans (if_neg (by omega)))) fun _ token shares ev =>
          ⟨token, shares, ev⟩
  · have arrive := sendArrive_handed stands (by omega) runs (by omega)
    obtain ⟨t, run, sends, mem, others, ⟨token, ev⟩, status⟩ := sendEnds_received only sent arrived level away arrive
      (P := fun t => t.part.token x.head = tokenSent s k sl (decide (x.fn = 0)) (s.part.token x.head) ∧
        (Sp.get 0 (t.coreAt k).cold.ev 6).toNat = min 0xFFFF ((Sp.get 0 (s.coreAt k).cold.ev 6).toNat + 1)) fun _ token _ ev => ⟨token, ev⟩
    refine ⟨t, run, sends, ?_⟩
    rw [token, Nat.add_zero] at status
    rw [token]
    exact ⟨rfl, rfl, rfl, rfl, rfl, rfl, others, mem, status, ev⟩

end Sys2Proof.Proofs
end

section
/-! # O26: what barriers and fences wait for (R283, R286) -/

namespace Sys2Proof.Proofs

open Sys2Proof.Machine Sys2Proof.Laws

/-! ## Queues and masks -/

theorem or_of_imp {b c : Bool} (h : b = true → c = true) : (!b || c) = true := by
  cases b with
  | false => rfl
  | true => exact h rfl

theorem doneBefore_of_later {c : Core} {q : QueueId} {w : Nat} (later : ∀ e ∈ c.queue q, w < e.warm) : c.doneBefore q w = true := by
  unfold Core.doneBefore
  rw [Bool.not_eq_true', List.any_eq_false]
  intro e mem
  have := later e mem
  simp [this]

theorem doneBefore_of_earlier {c : Core} {q : QueueId} {w : Nat} {e : QEntry} (mem : e ∈ c.queue q) (earlier : e.warm ≤ w)
    (level : e.level = c.level) : c.doneBefore q w = false := by
  unfold Core.doneBefore
  rw [Bool.not_eq_false', List.any_eq_true]
  exact ⟨e, mem, by simp [earlier, level]⟩

/-- The path of `xout`s (R283). -/
theorem pathClear_one (s : State) (w : Nat) : s.pathClear 1 w =
    !s.core.xings.any fun x => decide (x.kind = 2) && earlier (!s.cl.split) w x.warm x.joined := rfl

/-- No `xout` of warm cycle `w` or earlier is outstanding. -/
theorem pathClear_of_later {s : State} {w : Nat} (later : ∀ x ∈ s.core.xings, x.kind = 2 → w < x.warm) : s.pathClear 1 w = true := by
  rw [pathClear_one, Bool.not_eq_true', List.any_eq_false]
  intro x mem
  by_cases out : x.kind = 2
  · have := later x mem out
    simp [earlier, show ¬x.warm < w by omega, show x.warm ≠ w by omega]
  · rw [decide_eq_false out, Bool.false_and]
    exact Bool.false_ne_true

/-- What the queue mask of a barrier asks for (R283). -/
def queuesMet (s : State) (m : BitVec 4) (w : Nat) : Prop :=
  (m.getLsbD 0 = true → ∀ e ∈ s.core.lq, w < e.warm) ∧
  (m.getLsbD 1 = true → (∀ e ∈ s.core.sq, w < e.warm) ∧ (∀ x ∈ s.core.xings, x.kind = 2 → w < x.warm) ∧
    ∀ x ∈ s.core.atoms, w < x.warm) ∧
  (m.getLsbD 2 = true → (∀ e ∈ s.core.eq, w < e.warm) ∧ s.core.allIdle = true) ∧ (m.getLsbD 3 = true → s.stringClear = true)

/-- Something the queue mask of a barrier asks for is outstanding. -/
def queuesUnmet (s : State) (m : BitVec 4) (w : Nat) : Prop :=
  (m.getLsbD 0 = true ∧ ∃ e ∈ s.core.lq, e.warm ≤ w ∧ e.level = s.core.level) ∨
  (m.getLsbD 1 = true ∧ ∃ e ∈ s.core.sq, e.warm ≤ w ∧ e.level = s.core.level) ∨
  (m.getLsbD 1 = true ∧ ∃ x ∈ s.core.atoms, x.warm ≤ w) ∨ (m.getLsbD 2 = true ∧ s.core.allIdle = false) ∨
  (m.getLsbD 3 = true ∧ s.stringClear = false)

theorem maskMet_of_queuesMet {s : State} {m : BitVec 4} {w : Nat} (met : queuesMet s m w) : s.maskMet m w = true := by
  obtain ⟨loads, stores, engines, string⟩ := met
  unfold State.maskMet
  simp only [Bool.and_eq_true]
  refine ⟨⟨⟨or_of_imp fun on => doneBefore_of_later (loads on), or_of_imp fun on => ?_⟩, or_of_imp fun on => ?_⟩, or_of_imp string⟩
  · obtain ⟨queue, crossings, atoms⟩ := stores on
    have none : (s.core.atoms.any fun a => decide (a.warm ≤ w)) = false :=
      List.any_eq_false.2 fun x mem => by simpa using atoms x mem
    rw [doneBefore_of_later (q := .store) queue, pathClear_of_later crossings, none]
    rfl
  · obtain ⟨queue, idle⟩ := engines on
    rw [doneBefore_of_later (q := .engine) queue, idle]
    rfl

theorem maskMet_of_queuesUnmet {s : State} {m : BitVec 4} {w : Nat} (unmet : queuesUnmet s m w) : s.maskMet m w = false := by
  unfold State.maskMet
  rcases unmet with ⟨on, e, mem, early, level⟩ | ⟨on, e, mem, early, level⟩ | ⟨on, x, mem, early⟩ | ⟨on, busy⟩ | ⟨on, busy⟩
  · simp [on, doneBefore_of_earlier (q := .load) mem early level]
  · simp [on, doneBefore_of_earlier (q := .store) mem early level]
  · have some : (s.core.atoms.any fun a => decide (a.warm ≤ w)) = true := List.any_eq_true.2 ⟨x, mem, decide_eq_true early⟩
    simp only [on, some, Bool.not_true, Bool.and_false, Bool.or_false, Bool.false_and]
  · simp [on, busy]
  · simp [on, busy]

/-- The string's part of a fence (R286): the awaited entry has been taken, or the string has halted. -/
def stringTaken (s : State) (m : BitVec 4) : Prop :=
  m.getLsbD 3 = true → ∃ x ∈ s.core.str.watch, x.lane = s.lane ∧ s.core.cptailPending x.since = false ∧
    (s.core.str.halt = true ∨ x.no ≠ none)

theorem fenceMet_of_later {s : State} {m : BitVec 4} {w : Nat} (loads : m.getLsbD 0 = true → ∀ e ∈ s.core.lq, w < e.warm)
    (stores : m.getLsbD 1 = true → ∀ e ∈ s.core.sq, w < e.warm) (commands : m.getLsbD 2 = true → ∀ e ∈ s.core.eq, w < e.warm)
    (taken : stringTaken s m) : s.fenceMet m w = true := by
  unfold State.fenceMet
  simp only [Bool.and_eq_true]
  refine ⟨⟨⟨or_of_imp fun on => doneBefore_of_later (loads on), or_of_imp fun on => doneBefore_of_later (stores on)⟩,
    or_of_imp fun on => doneBefore_of_later (commands on)⟩, or_of_imp fun on => ?_⟩
  obtain ⟨x, mem, lane, through, done⟩ := taken on
  exact List.any_eq_true.2 ⟨x, mem, by simpa [lane, through, Option.isSome_iff_ne_none] using done⟩

theorem fenceMet_of_store {s : State} {m : BitVec 4} {w : Nat} {e : QEntry} (on : m.getLsbD 1 = true) (mem : e ∈ s.core.sq)
    (early : e.warm ≤ w) (level : e.level = s.core.level) : s.fenceMet m w = false := by
  unfold State.fenceMet
  simp [on, doneBefore_of_earlier (q := .store) mem early level]

theorem fenceMet_of_untaken {s : State} {m : BitVec 4} (w : Nat) (on : m.getLsbD 3 = true) (running : s.core.str.halt = false)
    (untaken : ∀ x ∈ s.core.str.watch, x.lane = s.lane → x.no = none) : s.fenceMet m w = false := by
  have none : (s.core.str.watch.any fun x => decide (x.lane = s.lane) && !s.core.cptailPending x.since && (s.core.str.halt || x.no.isSome)) =
      false := by
    refine List.any_eq_false.2 fun x mem => ?_
    by_cases lane : x.lane = s.lane
    · simp [running, untaken x mem lane]
    · simp [lane]
  unfold State.fenceMet
  simp only [on, none, Bool.not_true, Bool.or_false, Bool.and_false]

end Sys2Proof.Proofs

namespace Sys2Proof.Laws.Alike

open Sys2Proof.Machine

section
variable {u v : State} (like : Alike u v)
include like

theorem doneBefore (q : QueueId) (w : Nat) : v.core.doneBefore q w = u.core.doneBefore q w :=
  like.field (fun c => c.doneBefore q w) fun _ _ => by cases q <;> rfl

theorem stringClear : v.stringClear = u.stringClear := by
  unfold State.stringClear
  rw [lane_of_apart like.pod]
  exact like.field (fun c => match c.str.watch.find? fun w => decide (w.lane = u.lane) with
    | none => true
    | some w => !c.cptailPending w.since && match w.no with
      | some no => !(c.str.taken.any fun t => decide (t.no ≤ no) && !t.done)
      | none => c.str.halt) fun _ _ => rfl

theorem maskMet (m : BitVec 4) (w : Nat) : v.maskMet m w = u.maskMet m w := by
  unfold State.maskMet
  dsimp only
  rw [Proofs.pathClear_one, Proofs.pathClear_one, like.cl, like.stringClear, like.doneBefore, like.doneBefore, like.doneBefore,
    like.field Core.xings fun _ _ => rfl, like.field Core.atoms fun _ _ => rfl, like.field Core.allIdle fun _ _ => rfl]

theorem fenceMet (m : BitVec 4) (w : Nat) : v.fenceMet m w = u.fenceMet m w := by
  obtain ⟨tok, core⟩ := like.core
  unfold State.fenceMet
  rw [core, lane_of_apart like.pod]
  rfl

theorem waitedSince : v.waitedSince = u.waitedSince := by
  unfold State.waitedSince
  rw [like.cl, warm_of_apart like.pod]

end

end Sys2Proof.Laws.Alike
end

section
/-! # O26: a wait begins, goes on, and changes (R85, R112, R283, R286, R405) -/

namespace Sys2Proof.Proofs

open Sys2Proof.Machine Sys2Proof.Laws

section
variable {sy : BitVec 1} {dep : BitVec 4} {rd wr : List RegRef} {d : BitVec 5} {s : State} {f : State → Perform} {start : State → State}

theorem compared_starts (wait : s.cl.wait = .none) (hi : s.Issues dep rd wr) :
    Machine.compared sy dep rd wr s f start = .next ((start s).beginWait (.since s.warm)) := by
  unfold Machine.compared
  rw [wait]
  exact if_pos hi

/-- A word that cannot issue yet, and has looked at nothing but what stands, only waits on. -/
theorem compared_holds (hi : s.Issues dep rd wr) (hc : s.Compared) (holds : f (s.takeDeps dep) = .hold (s.takeDeps dep)) :
    Machine.compared sy dep rd wr s f start = .next s.waitAtIssue := by
  rw [compared_ready hc hi, holds]
  rfl

theorem recalled_nothing {s : State} (owes : s.core.owes = {}) (dep : BitVec 4) (f : State → Perform) :
    recalled d (s.takeDeps dep) f = f (s.takeDeps dep) := by
  rw [recalled, recall_takeDeps owes]

end

/-- The wait of the current word is `w` from now on, and it has taken no tokens. -/
def waitsNow (s t : State) (w : Wait) : State := (s.untaken t.countWord w).beginWait w

theorem waitsNow_frame (s t : State) {w : Wait} (own : ∀ n, w ≠ .entry n) : (waitsNow s t w).apart = t.apart ∧ (waitsNow s t w).cl.wait = w ∧
    (waitsNow s t w).core.apart = { t.countWord.core with tok := s.core.tok }.apart := by
  have back : s.untaken t.countWord w = t.countWord.modCore fun c => { c with tok := s.core.tok } := by
    cases w with
    | entry n => exact absurd rfl (own n)
    | _ => rfl
  obtain ⟨pod, core, cl, -⟩ := beginWait_frame (t.countWord.modCore fun c => { c with tok := s.core.tok }) w
  unfold waitsNow
  rw [back]
  refine ⟨pod, by rw [cl], ?_⟩
  rw [core, core_modCore]

theorem startMask_frame (m : BitVec 4) (s : State) : (startMask m s).apart = s.apart ∧
    ∃ str, (startMask m s).core = { s.core with str := str } := by
  unfold startMask State.watchString
  split_ifs
  · exact ⟨rfl, _, core_modCore ..⟩
  · exact ⟨rfl, _, rfl⟩

theorem cl_startMask (m : BitVec 4) (s : State) : (startMask m s).cl = s.cl := by
  obtain ⟨pod, str, core⟩ := startMask_frame m s
  rw [State.cl, State.cl, core, lane_of_apart pod]
  cases s.lane <;> rfl

/-- The core as the tokens of a word leave it, its tokens back and the word counted. -/
theorem countWord_takeDeps_untaken (s : State) (dep : BitVec 4) :
    { (s.takeDeps dep).countWord.core with tok := s.core.tok } = s.countWord.core := by
  obtain ⟨tok, taken⟩ := core_takeDeps s dep
  rw [countWord_eq, core_modCore, countWord_eq, core_modCore, taken]
  rfl

/-- With no window open nothing is counted. -/
theorem core_countWord_of_shut {s : State} (shut : s.core.win = none) : s.countWord.core = s.core := by
  rw [countWord_eq, core_modCore, countedWord, shut]
  exact congrArg (fun w => { s.core with win := w }) shut.symm

/-! ## `bar` (R283) -/

/-- The lines that a barrier with this mask asks for have gone home. -/
def barCleaned (m : BitVec 4) (w : Nat) (s : State) : State := if m.getLsbD 1 then s.cleanLines w (fun _ => true) else s

theorem barCleaned_frame (m : BitVec 4) (w : Nat) (s : State) : LinesMove s (barCleaned m w s) ∧
    (m.getLsbD 1 = false ∨ s.core.l1d = [] → (barCleaned m w s).mem = s.mem) ∧
    (m.getLsbD 1 = true → ∀ l ∈ (barCleaned m w s).core.l1d, l.mask = 0) := by
  unfold barCleaned
  cases m.getLsbD 1 with
  | false => exact ⟨.refl s, fun _ => rfl, fun h => absurd h Bool.false_ne_true⟩
  | true => exact ⟨.cleanLines .., fun h => mem_cleanLines_of_empty (h.resolve_left (by simp)) .., fun _ => mask_cleanLines s w⟩

/-- The barrier that the current core arrives at. -/
def barrierOf (s : State) (m : BitVec 4) (o : BitVec 2) (k : BitVec 3) (value : Word) : BarWait :=
  { scope := k.toNat, inst := Sp.get 0 s.core.barCount k.toNat, vote := o.toNat, value := value, mask := m }

/-- The core stands at barrier `b`. -/
def atBarrier (b : BarWait) (c : Core) : Core := { c with bar := some b }

/-- The core has left a barrier of scope `k`, its `n + 1`st. -/
def leftBarrier (k n : Nat) (c : Core) : Core := { c with barGot := none, barCount := Sp.set 0 c.barCount k (n + 1) }

/-- Every line has gone home and is dropped, where the mask asks for it. -/
def barDropped (m : BitVec 4) (s : State) : State :=
  if m.getLsbD 0 then (s.cleanLines s.warm (fun _ => true)).dropLines (fun _ => true) else s

theorem barDropped_frame (m : BitVec 4) (s : State) : LinesMove s (barDropped m s) ∧
    (m.getLsbD 0 = false ∨ s.core.l1d = [] → (barDropped m s).mem = s.mem) ∧ (m.getLsbD 0 = true → (barDropped m s).core.l1d = []) := by
  unfold barDropped
  cases m.getLsbD 0 with
  | false => exact ⟨.refl s, fun _ => rfl, fun h => absurd h Bool.false_ne_true⟩
  | true =>
    refine ⟨(LinesMove.cleanLines ..).trans (.dropLines ..), fun h => ?_, fun _ => ?_⟩
    · exact mem_cleanLines_of_empty (h.resolve_left (by simp)) ..
    · exact List.eq_nil_iff_forall_not_mem.2 fun l mem => Bool.false_ne_true (sel_dropLines _ _ l mem).symm

section
variable {sy : BitVec 1} {dep m : BitVec 4} {d a : BitVec 5} {o : BitVec 2} {k : BitVec 3} {s : State}

theorem exec_bar_begins (hi : s.Issues dep [gR a] [gR d]) (fresh : s.cl.wait = .none) : ∃ t, exec (.bar sy dep d a m o k) s = .next t ∧
    t.cl = { s.cl with wait := .since s.warm, since := t.cl.since } ∧ t.core.tok = s.core.tok ∧ t.core.bar = s.core.bar ∧ t.mem = s.mem ∧
    (m.getLsbD 3 = false → t.core.apart = s.core.apart) := by
  obtain ⟨pod, core, cl, -⟩ := beginWait_frame (startMask m s) (.since s.warm)
  obtain ⟨pod', str, watch⟩ := startMask_frame m s
  rw [cl_startMask] at cl
  rw [watch] at core
  refine ⟨(startMask m s).beginWait (.since s.warm), ?_, cl, (congrArg Core.tok core :), (congrArg Core.bar core :),
    (congrArg State.mem (pod.trans pod') :), fun off => ?_⟩
  · rw [exec_bar, execBar, fresh]
    exact compared_starts fresh hi
  · have same : startMask m s = s := if_neg (by rw [off]; exact Bool.false_ne_true)
    rw [same]
    exact core_apart_modCl s _

section
variable {w : Nat} (hi : s.Issues dep [gR a] [gR d]) (owes : s.core.owes = {}) (wait : s.cl.wait = .since w) (copied : w + 6 ≤ s.warm)
  (agrees : s.core.willMismatch = false)
include hi owes wait copied agrees

theorem exec_bar_holds (unmet : queuesUnmet s m w) : ∃ t, exec (.bar sy dep d a m o k) s = .next t ∧ t.cl.wait = .since w ∧
    t.core.apart = s.core.apart ∧ t.mem = s.mem := by
  have since : (s.takeDeps dep).waitedSince = w := by
    rw [(alike_takeDeps s dep).waitedSince, State.waitedSince, wait]
  obtain ⟨pod, -, core, -, cl⟩ := waitAtIssue_frame s
  refine ⟨s.waitAtIssue, ?_, by rw [cl]; exact wait, core, (congrArg State.mem pod :)⟩
  rw [exec_bar, execBar, wait]
  refine compared_holds hi ⟨w, wait, copied, agrees⟩ ((recalled_nothing owes dep _).trans ?_)
  dsimp only
  rw [since, (alike_takeDeps s dep).maskMet, maskMet_of_queuesUnmet unmet]
  rfl

/-- Once its mask is met the word arrives, or departs from one of its number that has completed before. -/
theorem exec_bar_of_met (met : queuesMet s m w) : exec (.bar sy dep d a m o k) s =
    match s.core.barGot with
    | some (sc, i, v) =>
      if sc = k.toNat ∧ i = Sp.get 0 s.core.barCount k.toNat then .next (waitsNow s (barCleaned m w (s.takeDeps dep)) (.departed v))
      else .next (waitsNow s ((barCleaned m w (s.takeDeps dep)).modCore (atBarrier (barrierOf s m o k (s.g a)))) .arrived)
    | none => .next (waitsNow s ((barCleaned m w (s.takeDeps dep)).modCore (atBarrier (barrierOf s m o k (s.g a)))) .arrived) := by
  have like := alike_takeDeps s dep
  have since : (s.takeDeps dep).waitedSince = w := by
    rw [like.waitedSince, State.waitedSince, wait]
  rw [exec_bar, execBar, wait]
  dsimp only
  rw [compared_ready ⟨w, wait, copied, agrees⟩ hi, recalled_nothing owes]
  rw [since, like.maskMet, maskMet_of_queuesMet met, g_takeDeps, like.field (fun c => c.barCount) fun _ _ => rfl,
    like.field (fun c => c.barGot) fun _ _ => rfl, if_neg (show ¬((!true) = true) by decide)]
  cases s.core.barGot with
  | none => rfl
  | some got =>
    obtain ⟨sc, i, v⟩ := got
    dsimp only
    by_cases same : sc = k.toNat ∧ i = Sp.get 0 s.core.barCount k.toNat
    · rw [if_pos same, if_pos same]
      rfl
    · rw [if_neg same, if_neg same]
      rfl

theorem exec_bar_arrives (met : queuesMet s m w) (new : s.core.barGot = none) : ∃ t, exec (.bar sy dep d a m o k) s = .next t ∧
    t.cl.wait = .arrived ∧ t.core.tok = s.core.tok ∧ t.core.bar = some (barrierOf s m o k (s.g a)) ∧
    (m.getLsbD 1 = false ∨ s.core.l1d = [] → t.mem = s.mem) ∧ (m.getLsbD 1 = true → ∀ l ∈ t.core.l1d, l.mask = 0) := by
  have like := alike_takeDeps s dep
  obtain ⟨moved, mem, clean⟩ := barCleaned_frame m w (s.takeDeps dep)
  obtain ⟨pod, waits, core⟩ := waitsNow_frame s (w := .arrived)
    ((barCleaned m w (s.takeDeps dep)).modCore (atBarrier (barrierOf s m o k (s.g a)))) (by simp)
  have run := exec_bar_of_met (sy := sy) (d := d) (o := o) (k := k) hi owes wait copied agrees met
  rw [new] at run
  rw [countWord_eq, core_modCore, core_modCore] at core
  refine ⟨_, run, waits, (congrArg Core.tok core :), (congrArg Core.bar core :), fun h => ?_,
    fun on l here => clean on l ((congrArg (fun c : Core => l ∈ c.l1d) core).mp here)⟩
  refine (congrArg State.mem pod :).trans (mem (h.imp_right fun empty => ?_))
  exact (like.field Core.l1d fun _ _ => rfl).trans empty

theorem exec_bar_leaves_completed {v : Word} (met : queuesMet s m w) (shut : s.core.win = none)
    (got : s.core.barGot = some (k.toNat, Sp.get 0 s.core.barCount k.toNat, v)) (off : m.getLsbD 1 = false) :
    ∃ t, exec (.bar sy dep d a m o k) s = .next t ∧ t.cl.wait = .departed v ∧ t.core.apart = s.core.apart ∧ t.mem = s.mem := by
  obtain ⟨pod, waits, core⟩ := waitsNow_frame s (s.takeDeps dep) (w := .departed v) (by simp)
  have run := exec_bar_of_met (sy := sy) (d := d) (o := o) (k := k) hi owes wait copied agrees met
  rw [got] at run
  dsimp only at run
  rw [if_pos ⟨rfl, rfl⟩, barCleaned, if_neg (by rw [off]; exact Bool.false_ne_true)] at run
  refine ⟨_, run, waits, ?_, (congrArg State.mem pod :)⟩
  rw [core, countWord_takeDeps_untaken, core_countWord_of_shut shut]

end

theorem exec_bar_departs {v : Word} (wait : s.cl.wait = .departed v) : ∃ u, WritesG u (exec (.bar sy dep d a m o k) s) sy d v 1 none ∧
    (m.getLsbD 0 = false ∨ s.core.l1d = [] → u.mem = s.mem) ∧ (m.getLsbD 0 = true → u.core.l1d = []) ∧ u.core.barGot = none ∧
    u.core.tok = (s.takeDeps dep).core.tok ∧ Sp.get 0 u.core.barCount k.toNat = Sp.get 0 s.core.barCount k.toNat + 1 ∧
    u.core.cold = s.core.cold ∧ ∀ l, u.core.cluster l = s.core.cluster l := by
  have like := alike_takeDeps s dep
  obtain ⟨moved, mem, dropped⟩ := barDropped_frame m (s.takeDeps dep)
  generalize away : barDropped m (s.takeDeps dep) = t at moved mem dropped
  have run : exec (.bar sy dep d a m o k) s = .next ((((t.modCore
      (leftBarrier k.toNat (Sp.get 0 s.core.barCount k.toNat))).recordResult d.toNat (some v)).writeG d v 1).finish sy none) := by
    rw [exec_bar, execBar, wait, ← away, ← like.field (fun c => c.barCount) fun _ _ => rfl]
    rfl
  obtain ⟨lines, bad, mirror, core⟩ := moved.core
  obtain ⟨tok, taken⟩ := core_takeDeps s dep
  rw [run]
  refine ⟨_, writesG_of (Writes.refl _), fun h => ?_, fun h => ?_, ?_, ?_, ?_, ?_, fun l => ?_⟩
  · refine mem (h.imp_right fun empty => ?_)
    exact (like.field Core.l1d fun _ _ => rfl).trans empty
  all_goals rw [State.recordResult, core_modCore, core_modCore]
  · exact dropped h
  · rfl
  · rw [core]
    rfl
  · exact get_set_self ..
  · rw [core, taken]
    rfl
  · rw [core, taken]
    cases l <;> rfl

theorem exec_bar_faults (wait : s.cl.wait = .voteFault) : exec (.bar sy dep d a m o k) s = .next (s.wordTrap 0x18 s.wordHandle) := by
  rw [exec_bar, execBar, wait, ← wordHandle_takeDeps s dep]
  rfl

end

/-! ## `fence` (R286) -/

section
variable {sy : BitVec 1} {dep m : BitVec 4} {s : State} {w : Nat}

section
variable (hi : s.Issues dep [] []) (wait : s.cl.wait = .since w) (copied : w + 6 ≤ s.warm) (agrees : s.core.willMismatch = false)
include hi wait copied agrees

/-- `fence` once its copy has been compared, by whether the queues it names are through. -/
theorem exec_fence_of_compared : exec (.fence sy dep m) s =
    if s.fenceMet m w = true then .next ((s.takeDeps dep).countWord.finish sy none)
    else .next (waitsNow s (s.takeDeps dep) (.fencing w m.toNat)) := by
  have like := alike_takeDeps s dep
  have since : (s.takeDeps dep).waitedSince = w := by
    rw [like.waitedSince, State.waitedSince, wait]
  rw [exec_fence, execFence, wait]
  dsimp only
  rw [compared_ready ⟨w, wait, copied, agrees⟩ hi]
  rw [since, like.fenceMet]
  split_ifs <;> rfl

theorem exec_fence_passes (met : s.fenceMet m w = true) : Passes (s.takeDeps dep).countWord (exec (.fence sy dep m) s) sy none := by
  rw [exec_fence_of_compared hi wait copied agrees, if_pos met]
  exact passes_of (Writes.refl _)

theorem exec_fence_waits (unmet : s.fenceMet m w = false) : ∃ t, exec (.fence sy dep m) s = .next t ∧ t.cl.wait = .fencing w m.toNat ∧
    t.core.apart = s.countWord.core.apart ∧ t.mem = s.mem := by
  obtain ⟨pod, waits, core⟩ := waitsNow_frame s (s.takeDeps dep) (w := .fencing w m.toNat) (by simp)
  refine ⟨_, (exec_fence_of_compared hi wait copied agrees).trans (if_neg (by rw [unmet]; exact Bool.false_ne_true)), waits, ?_,
    (congrArg State.mem pod :)⟩
  rw [core, countWord_takeDeps_untaken]

end

section
variable {n : Nat} (wait : s.cl.wait = .fencing w n)
include wait

theorem exec_fence_of_fencing : exec (.fence sy dep m) s =
    if s.fenceMet m w = true then .next ((s.takeDeps dep).finish sy none)
    else .next ((s.takeDeps dep).modCore fun c => { c with tok := s.core.tok }) := by
  rw [exec_fence, execFence, wait]
  dsimp only
  unfold Machine.waiting
  dsimp only
  rw [(alike_takeDeps s dep).fenceMet]
  split_ifs <;> rfl

theorem exec_fence_ends (met : s.fenceMet m w = true) : Passes (s.takeDeps dep) (exec (.fence sy dep m) s) sy none := by
  rw [exec_fence_of_fencing wait, if_pos met]
  exact passes_of (Writes.refl _)

theorem exec_fence_waits_on (unmet : s.fenceMet m w = false) : ∃ t, exec (.fence sy dep m) s = .next t ∧ t.apart = s.apart ∧ t.core = s.core ∧
    ∀ j, j ≠ s.cur → t.coreAt j = s.coreAt j := by
  obtain ⟨tok, taken⟩ := core_takeDeps s dep
  refine ⟨_, (exec_fence_of_fencing wait).trans (if_neg (by rw [unmet]; exact Bool.false_ne_true)), rfl, ?_, fun j other => ?_⟩
  · rw [core_modCore, taken]
  · exact (coreAt_modCore_other (s.takeDeps dep) _ other).trans (coreAt_modCore_other s _ other)

end

end

end Sys2Proof.Proofs
end

section
/-! # O26: a barrier completes (R282 to R285), and the statement -/

namespace Sys2Proof.Proofs

open Sys2Proof.Machine Sys2Proof.Laws

/-! ## The vote (R284, R285) -/

theorem getLsbD_foldl_or (vs : List Word) (a : Word) (i : Nat) :
    (vs.foldl (· ||| ·) a).getLsbD i = (a.getLsbD i || vs.any fun v => v.getLsbD i) := by
  induction vs generalizing a with
  | nil => simp
  | cons v rest ih => rw [List.foldl_cons, ih, BitVec.getLsbD_or, List.any_cons, Bool.or_assoc]

theorem getLsbD_foldl_and (vs : List Word) (a : Word) (i : Nat) :
    (vs.foldl (· &&& ·) a).getLsbD i = (a.getLsbD i && vs.all fun v => v.getLsbD i) := by
  induction vs generalizing a with
  | nil => simp
  | cons v rest ih => rw [List.foldl_cons, ih, BitVec.getLsbD_and, List.all_cons, Bool.and_assoc]

theorem voteOf_values (c : Nat) (vs : List Word) : voteOf 0 c vs = BitVec.ofNat 64 c ∧ ∀ i, i < 64 →
    (voteOf 1 c vs).getLsbD i = vs.any (fun v => v.getLsbD i) ∧ (voteOf 2 c vs).getLsbD i = vs.all (fun v => v.getLsbD i) := by
  refine ⟨rfl, fun i below => ⟨?_, ?_⟩⟩
  · refine (getLsbD_foldl_or vs 0 i).trans ?_
    rw [BitVec.ofNat_eq_ofNat, BitVec.getLsbD_zero, Bool.false_or]
  · have ones : (BitVec.allOnes 64).getLsbD i = true := by rw [BitVec.getLsbD_allOnes, decide_eq_true below]
    refine (getLsbD_foldl_and vs (BitVec.allOnes 64) i).trans ?_
    rw [ones, Bool.true_and]

/-! ## Who has arrived -/

section
variable (s : State) (b : BarWait)

/-- The participant has ended. -/
def hasEnded (x : Nat × BitVec 1) : Prop := ((s.coreAt x.1).slotAt x.2).state = .ended

/-- The participant stands at `y`, with the scope and the number of `b`, in no handler. -/
def standsAt (x : Nat × BitVec 1) (y : BarWait) : Prop :=
  (s.coreAt x.1).bar = some y ∧ (s.coreAt x.1).run = some x.2 ∧ y.scope = b.scope ∧ y.inst = b.inst ∧ (s.coreAt x.1).inHandler = false

variable {s b} {x : Nat × BitVec 1}

theorem arrivedAt_ended (ended : hasEnded s x) : s.arrivedAt b x = some none := if_pos ended

theorem arrivedAt_stands {y : BarWait} (running : ¬hasEnded s x) (there : standsAt s b x y) : s.arrivedAt b x = some (some y) := by
  obtain ⟨bar, run, scope, inst, plain⟩ := there
  refine (if_neg running).trans ?_
  rw [bar]
  exact if_pos ⟨run, scope, inst, by rw [plain]; rfl⟩

theorem arrivedAt_away (running : ¬hasEnded s x) (away : ∀ y, ¬standsAt s b x y) : s.arrivedAt b x = none := by
  refine (if_neg running).trans ?_
  cases bar : (s.coreAt x.1).bar with
  | none => rfl
  | some y =>
    refine if_neg fun ⟨run, scope, inst, plain⟩ => away y ⟨bar, run, scope, inst, ?_⟩
    simpa using plain

end

/-! ## All participants are told -/

section
variable {α : Type} {p : α → Bool} {at_ : α → Nat} {g : Core → Core}

theorem apart_foldl_modCoreAt (l : List α) (s : State) :
    (l.foldl (fun t x => if p x = true then t.modCoreAt (at_ x) g else t) s).apart = s.apart := by
  induction l generalizing s with
  | nil => rfl
  | cons x rest ih =>
    rw [List.foldl_cons, ih]
    split_ifs <;> rfl

/-- What a change makes true of every core it is applied to is true of each of them in the end. -/
theorem coreAt_foldl_modCoreAt {Q : Core → Prop} (made : ∀ c, Q (g c)) (l : List α) (s : State) (k : Nat)
    (told : Q (s.coreAt k) ∨ ∃ x ∈ l, p x = true ∧ at_ x = k) :
    Q ((l.foldl (fun t x => if p x = true then t.modCoreAt (at_ x) g else t) s).coreAt k) := by
  induction l generalizing s with
  | nil =>
    rcases told with h | ⟨x, mem, -⟩
    · exact h
    · cases mem
  | cons x rest ih =>
    rw [List.foldl_cons]
    refine ih _ ?_
    by_cases here : p x = true ∧ at_ x = k
    · obtain ⟨on, rfl⟩ := here
      rw [if_pos on, coreAt_modCoreAt_self]
      exact Or.inl (made _)
    · rcases told with h | ⟨y, mem, on, at_y⟩
      · refine Or.inl ?_
        split_ifs
        · rw [coreAt_modCoreAt]
          split_ifs
          · exact made _
          · exact h
        · exact h
      · rcases List.mem_cons.1 mem with rfl | mem
        · exact absurd ⟨on, at_y⟩ here
        · exact Or.inr ⟨y, mem, on, at_y⟩

end

/-- The barrier has completed for the core: it departs with `v`, or its votes differ. -/
def toldCore (b : BarWait) (v : Word) (agree : Bool) (c : Core) : Core :=
  { c with bar := none, barGot := if agree then some (b.scope, b.inst, v) else none,
           k := { c.k with wait := if agree then .departed v else .voteFault } }

/-- What the participants stand at, but for those that have ended. -/
def barriersThere (s : State) (b : BarWait) : List BarWait := (s.participants b.scope).filterMap fun x => (s.arrivedAt b x).join

section
variable {s : State} {b : BarWait} (at_ : s.core.bar = some b)
include at_

theorem exec_barrierComplete_open {x : Nat × BitVec 1} (mem : x ∈ s.participants b.scope) (running : ¬hasEnded s x)
    (away : ∀ y, ¬standsAt s b x y) : exec .barrierComplete s = .next s := by
  rw [exec_barrierComplete, execBarrierComplete, at_]
  refine if_neg fun all => ?_
  have arrived := List.all_eq_true.1 all x mem
  rw [arrivedAt_away running away] at arrived
  exact Bool.false_ne_true arrived

variable (all : ∀ x ∈ s.participants b.scope, hasEnded s x ∨ ∃ y, standsAt s b x y)
include all

/-- Every participant that has not ended is told. -/
theorem exec_barrierComplete_tells : ∃ t, exec .barrierComplete s = .next t ∧ t.mem = s.mem ∧
    ∀ x ∈ s.participants b.scope, ¬hasEnded s x → ∃ c, t.coreAt x.1 =
      toldCore b (voteOf b.vote (s.participants b.scope).length ((barriersThere s b).map (·.value)))
      ((barriersThere s b).all fun y => decide (y.vote = b.vote)) c := by
  have arrived : ((s.participants b.scope).all fun x => (s.arrivedAt b x).isSome) = true := by
    refine List.all_eq_true.2 fun x mem => ?_
    by_cases ended : hasEnded s x
    · rw [arrivedAt_ended ended]
      rfl
    · obtain ⟨y, there⟩ := (all x mem).resolve_left ended
      rw [arrivedAt_stands ended there]
      rfl
  rw [exec_barrierComplete, execBarrierComplete, at_]
  refine ⟨_, if_pos arrived, (congrArg State.mem (apart_foldl_modCoreAt ..) :), fun x mem running => ?_⟩
  obtain ⟨y, there⟩ := (all x mem).resolve_left running
  exact coreAt_foldl_modCoreAt (Q := fun c => ∃ c', c = toldCore b _ _ c') (fun c => ⟨c, rfl⟩) _ s x.1
    (Or.inr ⟨x, mem, by rw [arrivedAt_stands running there]; rfl, rfl⟩)

omit at_ in
/-- The values of the vote are those of the participants that have not ended. -/
theorem values_barriersThere : (barriersThere s b).map (·.value) =
    ((s.participants b.scope).filter fun x => decide (((s.coreAt x.1).slotAt x.2).state ≠ .ended)).filterMap
      fun x => (s.coreAt x.1).bar.map (·.value) := by
  unfold barriersThere
  rw [List.map_filterMap, List.filterMap_filter]
  refine List.filterMap_congr fun x mem => ?_
  by_cases ended : hasEnded s x
  · rw [arrivedAt_ended ended, if_neg (by simpa [hasEnded] using ended)]
    rfl
  · obtain ⟨y, there⟩ := (all x mem).resolve_left ended
    rw [arrivedAt_stands ended there, if_pos (by simpa [hasEnded] using ended), there.1]
    rfl

end

/-- Where every vote is the same, each participant departs with the outcome. -/
theorem exec_barrierComplete_agreed {s : State} {b : BarWait} (at_ : s.core.bar = some b)
    (all : ∀ x ∈ s.participants b.scope, hasEnded s x ∨ ∃ y, standsAt s b x y ∧ y.vote = b.vote) :
    ∃ t, exec .barrierComplete s = .next t ∧ t.mem = s.mem ∧ ∀ x ∈ s.participants b.scope, ¬hasEnded s x →
      let v := voteOf b.vote (s.participants b.scope).length (((s.participants b.scope).filter fun x =>
        decide (((s.coreAt x.1).slotAt x.2).state ≠ .ended)).filterMap fun x => (s.coreAt x.1).bar.map (·.value))
      (t.coreAt x.1).k.wait = .departed v ∧ (t.coreAt x.1).bar = none ∧ (t.coreAt x.1).barGot = some (b.scope, b.inst, v) := by
  have arrived : ∀ x ∈ s.participants b.scope, hasEnded s x ∨ ∃ y, standsAt s b x y := fun x mem =>
    (all x mem).imp_right fun ⟨y, there, _⟩ => ⟨y, there⟩
  obtain ⟨t, run, mem, told⟩ := exec_barrierComplete_tells at_ arrived
  have agree : ((barriersThere s b).all fun y => decide (y.vote = b.vote)) = true := by
    refine List.all_eq_true.2 fun y mem => ?_
    obtain ⟨x, mem, at_y⟩ := List.mem_filterMap.1 mem
    by_cases ended : hasEnded s x
    · rw [arrivedAt_ended ended] at at_y
      cases at_y
    · obtain ⟨z, there, vote⟩ := (all x mem).resolve_left ended
      rw [arrivedAt_stands ended there] at at_y
      cases at_y
      exact decide_eq_true vote
  rw [agree, values_barriersThere arrived] at told
  refine ⟨t, run, mem, fun x mem running => ?_⟩
  obtain ⟨c, core⟩ := told x mem running
  rw [core]
  exact ⟨rfl, rfl, rfl⟩

/-- Where the votes differ, each participant has a fault. -/
theorem exec_barrierComplete_differing {s : State} {b : BarWait} (at_ : s.core.bar = some b)
    (all : ∀ x ∈ s.participants b.scope, hasEnded s x ∨ ∃ y, standsAt s b x y)
    (differ : ∃ x ∈ s.participants b.scope, ¬hasEnded s x ∧ ∃ y, standsAt s b x y ∧ y.vote ≠ b.vote) :
    ∃ t, exec .barrierComplete s = .next t ∧ ∀ x ∈ s.participants b.scope, ¬hasEnded s x →
      (t.coreAt x.1).k.wait = .voteFault ∧ (t.coreAt x.1).bar = none := by
  obtain ⟨t, run, mem, told⟩ := exec_barrierComplete_tells at_ all
  obtain ⟨x, mem, running, y, there, vote⟩ := differ
  have agree : ((barriersThere s b).all fun y => decide (y.vote = b.vote)) = false := by
    refine List.all_eq_false.2 ⟨y, List.mem_filterMap.2 ⟨x, mem, by rw [arrivedAt_stands running there]; rfl⟩, ?_⟩
    simpa using vote
  rw [agree] at told
  refine ⟨t, run, fun x mem running => ?_⟩
  obtain ⟨c, core⟩ := told x mem running
  rw [core]
  exact ⟨rfl, rfl⟩

/-- Settles O26: `bar` and `fence` by the state of their wait, the completion by who has arrived. -/
theorem barriersAndFences : Obligations.BarriersAndFences := by
  refine ⟨fun sy dep m d a o k s hi owes shut => ⟨exec_bar_begins hi, fun w wait copied agrees => ⟨?_, fun v met got off => ?_, ?_⟩,
    fun wait => ?_,
    fun v => exec_bar_departs, exec_bar_faults, fun b at_ => ⟨fun all => ?_, fun all differ => ?_, fun absent => ?_⟩, voteOf_values⟩,
    fun sy dep m s hi => ⟨fun w wait copied agrees loads stores commands taken => ?_, fun w wait copied agrees on running untaken => ?_,
      fun w e wait copied agrees on mem early level => ?_, fun w n e wait on mem early level => ?_,
      fun w wait loads stores commands taken => ?_⟩⟩
  · exact exec_bar_arrives hi owes wait copied agrees
  · exact exec_bar_leaves_completed hi owes wait copied agrees met shut got off
  · exact exec_bar_holds hi owes wait copied agrees
  · rw [exec_bar, execBar, wait]
  · exact exec_barrierComplete_agreed at_ all
  · exact exec_barrierComplete_differing at_ all differ
  · obtain ⟨x, mem, running, away⟩ := absent
    exact exec_barrierComplete_open at_ mem running away
  · exact exec_fence_passes hi wait copied agrees (fenceMet_of_later loads stores commands taken)
  · exact exec_fence_waits hi wait copied agrees (fenceMet_of_untaken w on running untaken)
  · exact exec_fence_waits hi wait copied agrees (fenceMet_of_store on mem early level)
  · exact exec_fence_waits_on wait (fenceMet_of_store on mem early level)
  · exact exec_fence_ends wait (fenceMet_of_later loads stores commands taken)

end Sys2Proof.Proofs
end

section
/-! # O27: atoms enter the store queue (R287, R290) -/

namespace Sys2Proof.Proofs

open Sys2Proof.Machine Sys2Proof.Laws

/-- The address names no accumulator word that an atom of this kind may go to (R290). -/
def atomRefused (x : Word) (fn : Nat) : Prop :=
  bits x 40 24 ≠ 0 ∨ bits x 9 7 ≠ 0 ∨ Config.packages ≤ bits x 30 10 ∨ 289 ≤ atomElem x ∨ (fn = 3 ∧ atomTile x = 47)

/-- A legal address, by the fields of R290. -/
def atomLegal (x : Word) : Prop :=
  x.extractLsb' 40 24 = 0 ∧ x.extractLsb' 9 7 = 0 ∧ (x.extractLsb' 30 10).toNat < 576 ∧ (x.extractLsb' 0 9).toNat < 289

theorem atomRefused_iff (x : Word) (fn : Nat) : atomRefused x fn ↔ ¬atomLegal x ∨ (fn = 3 ∧ (x.extractLsb' 16 6).toNat = 47) := by
  have packages : Config.packages = 576 := rfl
  unfold atomRefused atomLegal atomElem atomTile
  rw [Ne, Ne, bits_eq_zero_iff, bits_eq_zero_iff, bits_eq_extractLsb', bits_eq_extractLsb', bits_eq_extractLsb', packages]
  by_cases high : x.extractLsb' 40 24 = 0
  · by_cases middle : x.extractLsb' 9 7 = 0
    · simp only [high, middle, not_true_eq_false, false_or, true_and, not_and_or, Nat.not_lt, or_assoc]
    · simp only [middle, not_false_eq_true, true_or, or_true, false_and, and_false]
  · simp only [high, not_false_eq_true, true_or, false_and]

/-- The atom that a word of `s` issues. -/
def atomFor (s : State) (fn : Nat) (b d : BitVec 5) (x : Word) : Atom :=
  { id := s.core.atomNo, fn := fn, addr := x, op := (s.g b).truncate 32, d := d.toNat, warm := s.warm, level := s.core.level,
    joined := !s.cl.split, seq := s.core.sqIssued + 1 }

/-- The core with one more atom in flight. -/
def withAtom (y : Atom) (c : Core) : Core := { c with atomNo := y.id + 1, atoms := c.atoms ++ [y] }

theorem reissues_fresh {c : Core} (fresh : c.replay = none) (q : QueueId) : c.reissues q = false := by
  unfold Core.reissues Core.replays
  rw [fresh]

theorem control_awaits {sy : BitVec 1} {dep : BitVec 4} {rd wr : List RegRef} {d : BitVec 5} {s v : State} {f : State → Perform}
    (hi : s.Issues dep rd wr) (h : f (s.takeDeps dep) = .done (v.awaitG d)) : AwaitsG v (Machine.control sy dep rd wr s f) sy d := by
  rw [control_ready hi.1 hi.2, h]
  exact awaitsG_of (Writes.refl v)

/-- The state with an atom in the store queue and in flight. -/
def atomIssued (u : State) (y : Atom) : State := (u.enqueue .store (.atom y.id y.d)).modCore (withAtom y)

theorem atomIssued_frame (u : State) (y : Atom) : (atomIssued u y).apart = u.apart ∧ (atomIssued u y).core.atoms = u.core.atoms ++ [y] ∧
    (atomIssued u y).core.sq = u.core.sq ++ [entryFor u .store (.atom y.id y.d)] ∧ (atomIssued u y).core.cold = u.core.cold ∧
    ∀ l, (atomIssued u y).core.cluster l = u.core.cluster l := by
  obtain ⟨w, core⟩ := core_enqueue u .store (.atom y.id y.d)
  obtain ⟨tail, -⟩ := withEntryAt_tail u.core (q := .store) (entryFor u .store (.atom y.id y.d)) w (by decide)
  obtain ⟨clusters, cold, -⟩ := withEntryAt_frame u.core (q := .store) (entryFor u .store (.atom y.id y.d)) w
  have atoms : (withEntryAt u.core .store (entryFor u .store (.atom y.id y.d)) w).atoms = u.core.atoms := rfl
  generalize withEntryAt u.core .store (entryFor u .store (.atom y.id y.d)) w = c at core tail clusters cold atoms
  have own : (atomIssued u y).core = withAtom y c := by rw [atomIssued, core_modCore, core]
  rw [own]
  exact ⟨rfl, congrArg (· ++ [y]) atoms, tail, cold, fun l => Eq.trans (by cases l <;> rfl) (clusters l)⟩

section
variable {sy : BitVec 1} {dep : BitVec 4} {d a b : BitVec 5} {fn : Nat} {s : State} (hi : s.Issues dep [gR a, gR b] [gR d])
include hi

theorem atomWord_traps (refused : atomRefused (s.g a) fn) : atomWord sy dep d a b fn s = .next (s.wordTrap 0x0B s.wordHandle) := by
  refine control_traps hi ?_
  rw [g_takeDeps, wordHandle_takeDeps]
  exact if_pos refused

theorem atomWord_issues (legal : ¬atomRefused (s.g a) fn) (free : s.core.sq.length < 32) (fresh : s.core.replay = none) (nest : s.cl.loops = []) :
    AwaitsG (atomIssued (s.takeDeps dep) (atomFor (s.takeDeps dep) fn b d (s.g a))) (atomWord sy dep d a b fn s) sy d := by
  have room : (s.takeDeps dep).room .store = true := (room_takeDeps s dep .store).trans (room_true free)
  have once : ((s.takeDeps dep).core.reissues .store || (s.takeDeps dep).cl.killed) = false := by
    rw [reissues_fresh (((alike_takeDeps s dep).field Core.replay fun _ _ => rfl).trans fresh), cl_takeDeps, Cluster.killed, nest]
    rfl
  refine control_awaits hi ?_
  rw [g_takeDeps]
  refine (if_neg legal).trans ?_
  rw [room, once]
  rfl

theorem atomWord_enters (legal : ¬atomRefused (s.g a) fn) (free : s.core.sq.length < 32) (fresh : s.core.replay = none) (nest : s.cl.loops = []) :
    ∃ (y : Atom) (e : QEntry) (u : State), AwaitsG u (atomWord sy dep d a b fn s) sy d ∧ u.core.atoms = s.core.atoms ++ [y] ∧ y.fn = fn ∧
      y.addr = s.g a ∧ y.op = (s.g b).extractLsb' 0 32 ∧ y.d = d.toNat ∧ y.warm = s.warm ∧ y.old = none ∧ y.applyAt = none ∧
      u.core.sq = s.core.sq ++ [e] ∧ e.op = .atom y.id d.toNat ∧ u.apart = s.apart ∧ u.core.cold = s.core.cold ∧
      ∀ l, u.core.cluster l = s.core.cluster l := by
  have like := alike_takeDeps s dep
  obtain ⟨pod, atoms, sq, cold, clusters⟩ := atomIssued_frame (s.takeDeps dep) (atomFor (s.takeDeps dep) fn b d (s.g a))
  rw [like.field Core.atoms fun _ _ => rfl] at atoms
  rw [like.field Core.sq fun _ _ => rfl] at sq
  rw [like.field Core.cold fun _ _ => rfl] at cold
  refine ⟨_, _, _, atomWord_issues hi legal free fresh nest, atoms, rfl, rfl, ?_, rfl, rfl, rfl, rfl, sq, rfl, pod, cold,
    fun l => (clusters l).trans (cluster_takeDeps s dep l)⟩
  rw [atomFor, g_takeDeps]
  exact BitVec.eq_of_toNat_eq (by simp)

end

end Sys2Proof.Proofs
end

section
/-! # O27: an atom is applied and its old value returns (R288, R289, R290), and the statement -/

namespace Sys2Proof.Proofs

open Sys2Proof.Machine Sys2Proof.Laws

/-! ## The accumulator word and its tile -/

/-- The record of tile `t` without CHKV. -/
def unchecked (m : Cold) (t : Nat) : Cold := m.setTile t { m.tileAt t with chkv := false }

/-- What an atom of one word writes there. -/
def atomValue (fn : Nat) (w op : Word32) : Word32 :=
  match fn with
  | 0 => w + op
  | 1 => add32 0 0 w op
  | _ => op

theorem applyAtom_one {fn : Nat} (one : fn < 3) (m : Cold) (t e : Nat) (op : Word32) :
    m.applyAtom fn t e op = unchecked (m.setAcc t e (atomValue fn (m.accAt t e) op)) t := by
  match fn, one with
  | 0, _ => rfl
  | 1, _ => rfl
  | 2, _ => rfl

theorem applyAtom_two (m : Cold) (t e : Nat) (op : Word32) : m.applyAtom 3 t e op = unchecked (unchecked
    ((m.setAcc t e (twoSum (m.accAt t e) (m.accAt (t + 1) e) op).1).setAcc (t + 1) e (twoSum (m.accAt t e) (m.accAt (t + 1) e) op).2) t)
      (t + 1) := rfl

/-! ## The core of an atom -/

section
variable {x : Atom} {s : State} (only : s.core.atoms = [x])
include only

section
variable {w : Nat} (admitted : x.applyAt = some w) (due : w ≤ s.clock) (first : x.old = none)
include admitted due first

theorem dueAtom_only : s.dueAtom = some x := by
  refine find_only only ?_
  rw [admitted, first]
  exact decide_eq_true due

/-- The atom's value is on its way back, and arrives at `back`. -/
def withOld (x : Atom) (v : Word32) (back : Nat) (c : Core) : Core :=
  { c with atoms := c.atoms.map fun y => if y.id = x.id then { y with old := some v, backAt := back } else y }

omit admitted due first in
theorem atoms_withOld {c : Core} (same : c.atoms = s.core.atoms) (v : Word32) (back : Nat) :
    (withOld x v back c).atoms = [{ x with old := some v, backAt := back }] := by
  rw [withOld]
  dsimp only
  rw [same, only]
  exact congrArg (fun y => [y]) (if_pos rfl)

/-- When the old value of an atom applied now is back. -/
def backOf (s : State) : Nat := s.warm + 1 + (s.draw 1498).1

omit only admitted due first in
theorem lt_backOf (s : State) : s.warm < backOf s := by
  unfold backOf
  omega

theorem exec_atomApply_discards (nowhere : s.atomTarget x = none) : ∃ t back, exec .atomApply s = .next t ∧
    t.core.atoms = [{ x with old := some 0, backAt := back }] ∧ t.core.cold = s.core.cold ∧ (Sp.get {} t.core.paths 2).err = true := by
  have run : exec .atomApply s = .next ((s.draw 1498).2.modCore fun c =>
      (withOld x 0 (backOf s) c).notePath 2 fun p => { p with err := true }) := by
    rw [exec_atomApply, execAtomApply, dueAtom_only only admitted due first]
    dsimp only
    rw [nowhere]
    rfl
  refine ⟨_, backOf s, run, ?_, ?_, ?_⟩
  · rw [core_modCore]
    exact atoms_withOld only rfl 0 (backOf s)
  · rw [core_modCore]
    rfl
  · rw [core_modCore]
    exact congrArg PathStat.err (get_put_self ..)

/-- The core once the atom has been applied there. -/
def withApplied (x : Atom) (c : Core) : Core :=
  let c1 := (c.modCold fun m => m.applyAtom x.fn (atomTile x.addr) (atomElem x.addr) x.op).noteTile (atomTile x.addr)
  if x.fn = 3 then c1.noteTile (atomTile x.addr + 1) else c1

omit only admitted due first in
theorem withApplied_leaves (x : Atom) (c : Core) : (withApplied x c).atoms = c.atoms ∧
    (withApplied x c).cold = c.cold.applyAtom x.fn (atomTile x.addr) (atomElem x.addr) x.op := by
  unfold withApplied
  dsimp only
  split_ifs <;> exact ⟨rfl, rfl⟩

theorem exec_atomApply_applies (here : s.atomTarget x = some s.cur) (good : s.core.badAcc = []) : ∃ t back, exec .atomApply s = .next t ∧
    t.core.atoms = [{ x with old := some (s.core.cold.accAt (atomTile x.addr) (atomElem x.addr)), backAt := back }] ∧ s.warm < back ∧
    t.mem = s.mem ∧ t.core.cold = s.core.cold.applyAtom x.fn (atomTile x.addr) (atomElem x.addr) x.op := by
  have sound : (s.coreAt s.cur).badAtom x = none := by
    unfold Core.badAtom
    rw [show (s.coreAt s.cur).badAcc = [] from good]
    exact List.find?_eq_none.2 fun y _ => by simp
  have run : exec .atomApply s = .next (((s.draw 1498).2.modCoreAt s.cur (withApplied x)).modCore
      (withOld x (s.core.cold.accAt (atomTile x.addr) (atomElem x.addr)) (backOf s))) := by
    rw [exec_atomApply, execAtomApply, dueAtom_only only admitted due first]
    dsimp only
    rw [here]
    dsimp only
    rw [sound]
    rfl
  have applied : ((s.draw 1498).2.modCoreAt s.cur (withApplied x)).core = withApplied x s.core := coreAt_modCoreAt_self ..
  obtain ⟨atoms, cold⟩ := withApplied_leaves x s.core
  refine ⟨_, backOf s, run, ?_, lt_backOf s, rfl, ?_⟩
  · rw [core_modCore, applied]
    exact atoms_withOld only atoms _ _
  · rw [core_modCore, applied]
    exact cold

end

/-- The old value is back: gD is written, zero-extended, and the atom is gone. -/
theorem exec_atomComplete_fills {v : Word32} (old : x.old = some v) (back : x.backAt ≤ s.warm) (level : x.level = s.core.level) :
    ∃ t, exec .atomComplete s = .next t ∧ t.core.atoms = [] ∧ (t.core.cluster .K).rg x.d = (if x.d = 0 then 0 else v.setWidth 64) ∧
      t.mem = s.mem ∧ ∀ n, n ≠ x.d → (t.core.cluster .K).rg n = (s.core.cluster .K).rg n := by
  have found : (s.core.atoms.find? fun a => a.old.isSome && decide (a.backAt ≤ s.warm)) = some x := find_only only (by
    rw [old]
    exact decide_eq_true back)
  have value : word v.toNat = v.setWidth 64 := BitVec.ofNat_toNat ..
  generalize gone : ({ s.core with atoms := s.core.atoms.filter fun y => !decide (y.id = x.id) } : Core) = c
  have atoms : c.atoms = [] := by
    rw [← gone]
    dsimp only
    rw [only, List.filter_cons_of_neg (by simp)]
    rfl
  have same : c.level = s.core.level ∧ c.k = s.core.k := by
    rw [← gone]
    exact ⟨rfl, rfl⟩
  obtain ⟨win, filled⟩ := fillG_eq_of_level c .K x.d (v.setWidth 64) s.warm
  rw [exec_atomComplete, execAtomComplete, found]
  dsimp only
  refine ⟨_, rfl, ?_, ?_, rfl, fun n other => ?_⟩
  · rw [core_modCore, gone, old, Option.getD_some, value, level, ← same.1, filled]
    exact atoms
  · rw [core_modCore, gone, old, Option.getD_some, value, level, ← same.1, filled]
    exact (rg_setBusy ..).trans (rg_wg_self ..)
  · rw [core_modCore, gone, old, Option.getD_some, value, level, ← same.1, filled]
    refine (rg_setBusy ..).trans ((rg_wg ..).trans (if_neg fun h => other h.1) |>.trans ?_)
    exact congrArg (fun y : Cluster => y.rg n) same.2

end

/-- Settles O27: the words by whether their address is legal, the application by how many words the atom writes. -/
theorem atomsIssueApplyAndReturn : Obligations.AtomsIssueApplyAndReturn := by
  refine ⟨fun sy dep d a b s hi free fresh nest => ⟨fun legal => ?_, fun _ last => ?_, fun illegal i mem => ?_⟩,
    fun x s only => ⟨fun w admitted due first here good two => ?_, fun w admitted due first here good one => ?_,
      fun w admitted due first nowhere => exec_atomApply_discards only admitted due first nowhere,
      fun v old back level _ => exec_atomComplete_fills only old back level⟩⟩
  · have taken (fn : Nat) (other : fn = 3 → ((s.g a).extractLsb' 16 6).toNat ≠ 47) : ¬atomRefused (s.g a) fn := by
      rw [atomRefused_iff]
      rintro (illegal | ⟨two, last⟩)
      · exact illegal legal
      · exact other two last
    exact ⟨atomWord_enters hi (taken 0 fun two => nomatch two) free fresh nest, atomWord_enters hi (taken 1 fun two => nomatch two) free fresh nest,
      atomWord_enters hi (taken 2 fun two => nomatch two) free fresh nest, fun other => atomWord_enters hi (taken 3 fun _ => other) free fresh nest⟩
  · exact atomWord_traps hi ((atomRefused_iff ..).2 (Or.inr ⟨rfl, last⟩))
  · have refused (fn : Nat) : atomRefused (s.g a) fn := (atomRefused_iff ..).2 (Or.inl illegal)
    simp only [List.mem_cons, List.not_mem_nil, or_false] at mem
    rcases mem with rfl | rfl | rfl | rfl
    · exact atomWord_traps hi (refused 0)
    · exact atomWord_traps hi (refused 1)
    · exact atomWord_traps hi (refused 2)
    · exact atomWord_traps hi (refused 3)
  · obtain ⟨t, back, run, atoms, later, mem, cold⟩ := exec_atomApply_applies only admitted due first here good
    rw [two, applyAtom_two] at cold
    rw [← bits_eq_extractLsb', ← bits_eq_extractLsb']
    refine ⟨t, back, run, atoms, later, mem, ?_, ?_, fun j high low => ?_, ?_, ?_⟩
    · rw [cold]
      exact (get_set_other _ _ _ (by unfold atomTile atomElem; omega)).trans (get_set_self ..)
    · rw [cold]
      exact get_set_self ..
    · rw [cold]
      exact (get_set_other _ _ _ low).trans (get_set_other _ _ _ high)
    · rw [cold]
      refine (congrArg Tile.chkv (tileAt_setTile_other _ (Nat.succ_ne_self _).symm) :).trans ?_
      exact congrArg Tile.chkv (tileAt_setTile_self ..)
    · rw [cold]
      exact congrArg Tile.chkv (tileAt_setTile_self ..)
  · obtain ⟨t, back, run, atoms, later, mem, cold⟩ := exec_atomApply_applies only admitted due first here good
    rw [applyAtom_one one] at cold
    rw [← bits_eq_extractLsb', ← bits_eq_extractLsb']
    have written : Sp.get 0 t.core.cold.acc (289 * bits x.addr 16 6 + bits x.addr 0 9) =
        atomValue x.fn (s.core.cold.accAt (atomTile x.addr) (atomElem x.addr)) x.op := by
      rw [cold]
      exact get_set_self ..
    refine ⟨t, back, run, atoms, later, mem, fun fn => ?_, fun fn => ?_, fun fn => ?_, fun j other => ?_, ?_⟩
    · rw [written, fn]
      rfl
    · rw [written, fn]
      rfl
    · rw [written, fn]
      rfl
    · rw [cold]
      exact get_set_other _ _ _ other
    · rw [cold]
      exact congrArg Tile.chkv (tileAt_setTile_self ..)

end Sys2Proof.Proofs
end

section
/-! # O39: column modes and the reset of the latches (R300, R304) -/

namespace Sys2Proof.Proofs

open Sys2Proof.Machine Sys2Proof.Laws

/-! ## The bits of a mode word (R300) -/

theorem getLsbD_oneColumn (v : BitVec 64) (n : BitVec 6) (m : BitVec 1) {j : Nat} (h : j < 64) :
    (if m = 1 then v ||| BitVec.ofNat 64 (2 ^ n.toNat) else v &&& ~~~BitVec.ofNat 64 (2 ^ n.toNat)).getLsbD j =
      if j = n.toNat then decide (m = 1) else v.getLsbD j := by
  have column : (BitVec.ofNat 64 (2 ^ n.toNat)).getLsbD j = decide (j = n.toNat) := by
    rw [BitVec.getLsbD_ofNat, Nat.testBit_two_pow]
    simp [h, eq_comm]
  by_cases sets : m = 1
  · rw [if_pos sets, decide_eq_true sets, BitVec.getLsbD_or, column]
    by_cases here : j = n.toNat <;> simp [here]
  · rw [if_neg sets, decide_eq_false sets, BitVec.getLsbD_and, BitVec.getLsbD_not, column]
    by_cases here : j = n.toNat <;> simp [h, here]

theorem getLsbD_everyColumn (m : BitVec 1) {j : Nat} (h : j < 64) :
    (if m = 1 then 0xFFFFFFFFFFFFFFFF else 0 : BitVec 64).getLsbD j = decide (m = 1) := by
  by_cases sets : m = 1
  · rw [if_pos sets, decide_eq_true sets]
    exact (BitVec.getLsbD_allOnes (v := 64)).trans (decide_eq_true h)
  · rw [if_neg sets, decide_eq_false sets]
    exact BitVec.getLsbD_zero

/-- Columns 0 to 31 take the word at index 0, columns 32 to 63 the word at index 1. -/
theorem getLsbD_twoWords (f : Nat → Word32) {j : Nat} (h : j < 64) :
    (BitVec.ofNat 64 ((f 0).toNat + (f 1).toNat * 2 ^ 32)).getLsbD j = (f (j / 32)).getLsbD (j % 32) := by
  rw [BitVec.getLsbD_ofNat, decide_eq_true h, Bool.true_and, Nat.add_comm, Nat.mul_comm, Nat.testBit_two_pow_mul_add _ (f 0).isLt]
  by_cases low : j < 32
  · rw [if_pos low, Nat.div_eq_of_lt low, Nat.mod_eq_of_lt low]
    rfl
  · rw [if_neg low, show j / 32 = 1 by omega, show j % 32 = j - 32 by omega]
    rfl

/-- An order that lands a mode word: its columns take the word's bits, and nothing else changes as it lands. -/
theorem lands_tmodeWord {i : Instr} {s : State} {v : BitVec 64} {f : Nat → Bool}
    (run : exec i s = .next ((s.charge (s.orderHeat i)).land .temporal 1 0 [.tmode] (.tmode v))) (bits : ∀ j, j < 64 → v.getLsbD j = f j) :
    ∃ op, Lands s (exec i s) (s.orderHeat i) .temporal [(1, op)] ∧
      ∀ c : Cold, { c.apply op with tmode := c.tmode } = c ∧ ∀ j, j < 64 → (c.apply op).tmode.getLsbD j = f j :=
  ⟨.tmode v, run ▸ lands_land i s .., fun _ => ⟨rfl, bits⟩⟩

theorem exec_tmode_lands (w : BitVec 4) (n : BitVec 6) (m : BitVec 1) (s : State) : exec (.tmode w n m) s =
    .next ((s.charge 0).land .temporal 1 0 [.tmode] (.tmode (if m = 1 then s.core.cold.tmode ||| BitVec.ofNat 64 (2 ^ n.toNat)
      else s.core.cold.tmode &&& ~~~BitVec.ofNat 64 (2 ^ n.toNat)))) := by
  rw [exec_tmode, execTmode, order, charge_cold]
  rfl

theorem exec_tmodeTs_lands (w : BitVec 4) (s : State) : exec (.tmodeTs w) s =
    .next ((s.charge 0).land .temporal 1 0 [.tmode]
      (.tmode (BitVec.ofNat 64 ((Sp.get 0 s.core.cold.ts 0).toNat + (Sp.get 0 s.core.cold.ts 1).toNat * 2 ^ 32)))) := by
  rw [exec_tmodeTs, execTmodeTs, order, charge_cold]
  rfl

/-! ## `treset` (R304, R307) -/

theorem exec_treset_lands (w : BitVec 4) (s : State) : ∃ t l, exec (.treset w) s = .next t ∧ Issued s t 0 ∧
    t.core.cold = { s.core.cold with eval := none, pend := s.core.cold.pend ++ [l] } ∧ l.at_ = s.scnt + 1 ∧ l.op = .latches := by
  rw [exec_treset, execTreset, order]
  refine ⟨_, { at_ := s.scnt + 1, issued := s.scnt, eng := .temporal, chain := 0, writes := [], op := .latches }, rfl,
    issued_modCold (issued_modCold (issued_charge s 0) _) _, ?_, rfl, rfl⟩
  rw [land_eq, core_modCore, core_modCore, charge_core]
  rfl

/-- Settles O39: a `tmode` lands a mode word, whose bits the lemmas above give; a `treset` lands empty latches, which read 255. -/
theorem tmodeAndTresetAtTheNextCycle : Obligations.TmodeAndTresetAtTheNextCycle := by
  intro w n m s
  refine ⟨lands_tmodeWord (exec_tmode_lands w n m s) fun _ => getLsbD_oneColumn _ n m, lands_tmodeWord (exec_tmodeAll s) fun _ => getLsbD_everyColumn m,
    lands_tmodeWord (exec_tmodeTs_lands w s) fun _ => getLsbD_twoWords (Sp.get 0 s.core.cold.ts), ?_⟩
  obtain ⟨t, l, run, issued, cold, due, op⟩ := exec_treset_lands w s
  refine ⟨t, l, run, issued, ?_, ?_, ?_, due, fun c => ?_⟩
  · rw [cold]
  · rw [cold]
  · rw [cold]
  · rw [op]
    exact ⟨rfl, fun _ => ⟨rfl, rfl⟩⟩

end Sys2Proof.Proofs
end

section
/-! # O40: what an evaluation of the temporal array gives (R296, R297, R305) -/

namespace Sys2Proof.Proofs

open Sys2Proof.Machine Sys2Proof.Laws

/-! ## The least and the greatest of a list -/

theorem le_foldl_min_iff {α β : Type} [LinearOrder β] (f : α → β) (l : List α) (b t : β) :
    t ≤ l.foldl (fun x i => min x (f i)) b ↔ t ≤ b ∧ ∀ i ∈ l, t ≤ f i := by
  induction l generalizing b with
  | nil => simp
  | cons i l ih => simp [ih, and_assoc]

theorem foldl_min_eq_of_least {α β : Type} [LinearOrder β] {f : α → β} {l : List α} {b : β} {i : α} (mem : i ∈ l)
    (least : ∀ k ∈ l, f i ≤ f k) (below : f i ≤ b) : l.foldl (fun x i => min x (f i)) b = f i :=
  le_antisymm (((le_foldl_min_iff f l b _).1 le_rfl).2 i mem) ((le_foldl_min_iff f l b _).2 ⟨below, least⟩)

theorem foldl_max_eq_of_greatest {α : Type} {f : α → Nat} {l : List α} {b : Nat} {i : α} (mem : i ∈ l)
    (greatest : ∀ k ∈ l, f k ≤ f i) (above : b ≤ f i) : l.foldl (fun x i => max x (f i)) b = f i :=
  foldl_min_eq_of_least (β := Natᵒᵈ) mem greatest above

/-! ## One column (R296) -/

/-- The crosspoint of row `i` and column `j` is enabled. -/
def Enabled (m : Cold) (j i : Nat) : Prop := i < 64 ∧ Sp.get 255 m.dly (64 * i + j) ≠ 255

/-- The rows of column `j` whose crosspoint is enabled. -/
def enabledRows (m : Cold) (j : Nat) : List Nat := (List.range 64).filter fun i => !decide (Sp.get 255 m.dly (64 * i + j) = 255)

/-- The enabled rows of column `j` whose input rises. -/
def liveRows (m : Cold) (ins : List Byte) (j : Nat) : List Nat := (enabledRows m j).filter fun i => !decide (ins.getD i 255 = 255)

/-- The tick at which the input of row `i`, where it rises, reaches column `j`. -/
def arrival (m : Cold) (ins : List Byte) (j i : Nat) : Nat := (ins.getD i 255).toNat + (Sp.get 255 m.dly (64 * i + j)).toNat

/-- The tick of column `j` before the window: 255 where it never rises. -/
def columnTick (m : Cold) (ins : List Byte) (j : Nat) : Nat :=
  if (enabledRows m j).isEmpty then 255
  else if m.tmode.getLsbD j then
    (if (liveRows m ins j).length < (enabledRows m j).length then 255 else (liveRows m ins j).foldl (fun t i => max t (arrival m ins j i)) 0)
  else if (liveRows m ins j).isEmpty then 255
  else (liveRows m ins j).foldl (fun t i => min t (arrival m ins j i)) 1000

/-- Column `j` gives its tick, cut off by the window. -/
theorem getD_evaluate (m : Cold) (ins : List Byte) {j : Nat} (h : j < 64) :
    (m.evaluate ins).getD j 255 = if m.twin ≤ columnTick m ins j then 255 else BitVec.ofNat 8 (columnTick m ins j) := by
  rw [Cold.evaluate, List.getD_eq_getElem _ _ (by simpa using h), List.getElem_map, List.getElem_range]
  rfl

/-- A column whose tick is 255 gives 255, within the window or not. -/
theorem getD_evaluate_of_never {m : Cold} {ins : List Byte} {j : Nat} (h : j < 64) (never : columnTick m ins j = 255) :
    (m.evaluate ins).getD j 255 = 255 := by
  rw [getD_evaluate m ins h, never]
  split <;> rfl

theorem mem_enabledRows {m : Cold} {j i : Nat} : i ∈ enabledRows m j ↔ Enabled m j i := by
  simp [enabledRows, Enabled]

theorem mem_liveRows {m : Cold} {ins : List Byte} {j i : Nat} : i ∈ liveRows m ins j ↔ Enabled m j i ∧ ins.getD i 255 ≠ 255 := by
  simp only [liveRows, List.mem_filter, mem_enabledRows, Bool.not_eq_true', decide_eq_false_iff_not, ne_eq]

theorem enabledRows_isEmpty {m : Cold} {j i : Nat} (on : Enabled m j i) : (enabledRows m j).isEmpty = false :=
  List.isEmpty_eq_false_iff.2 (List.ne_nil_of_mem (mem_enabledRows.2 on))

theorem enabledRows_eq_nil {m : Cold} {j : Nat} : enabledRows m j = [] ↔ ∀ i, ¬ Enabled m j i := by
  simp only [List.eq_nil_iff_forall_not_mem, mem_enabledRows]

theorem columnTick_of_none {m : Cold} {j : Nat} (closed : ∀ i, ¬ Enabled m j i) (ins : List Byte) : columnTick m ins j = 255 := by
  rw [columnTick, enabledRows_eq_nil.2 closed]
  rfl

/-- No arrival lies beyond the value from which an OR column takes the least. -/
theorem arrival_le (m : Cold) (ins : List Byte) (j i : Nat) : arrival m ins j i ≤ 1000 := by
  have input := (ins.getD i 255).isLt
  have delay := (Sp.get 255 m.dly (64 * i + j)).isLt
  unfold arrival
  omega

/-- An OR column takes the earliest arrival. -/
theorem columnTick_or {m : Cold} {ins : List Byte} {j i : Nat} (isOr : m.tmode.getLsbD j = false) (on : Enabled m j i) (rises : ins.getD i 255 ≠ 255)
    (least : ∀ k, Enabled m j k → ins.getD k 255 ≠ 255 → arrival m ins j i ≤ arrival m ins j k) : columnTick m ins j = arrival m ins j i := by
  have live : i ∈ liveRows m ins j := mem_liveRows.2 ⟨on, rises⟩
  rw [columnTick, enabledRows_isEmpty on, isOr, List.isEmpty_eq_false_iff.2 (List.ne_nil_of_mem live)]
  exact foldl_min_eq_of_least live (fun k mem => least k (mem_liveRows.1 mem).1 (mem_liveRows.1 mem).2) (arrival_le ..)

/-- An OR column that nothing reaches never rises. -/
theorem columnTick_or_of_none {m : Cold} {ins : List Byte} {j : Nat} (isOr : m.tmode.getLsbD j = false)
    (silent : ∀ i, Enabled m j i → ins.getD i 255 = 255) : columnTick m ins j = 255 := by
  have empty : liveRows m ins j = [] := List.eq_nil_iff_forall_not_mem.2 fun i mem => (mem_liveRows.1 mem).2 (silent i (mem_liveRows.1 mem).1)
  rw [columnTick, isOr, empty]
  exact ite_self _

/-- An AND column waits for every enabled row. -/
theorem columnTick_and_of_missing {m : Cold} {ins : List Byte} {j i : Nat} (isAnd : m.tmode.getLsbD j = true) (on : Enabled m j i)
    (missing : ins.getD i 255 = 255) : columnTick m ins j = 255 := by
  have fewer : (liveRows m ins j).length < (enabledRows m j).length :=
    List.length_filter_lt_length_iff_exists.2 ⟨i, mem_enabledRows.2 on, by rw [missing]; decide⟩
  rw [columnTick, enabledRows_isEmpty on, isAnd, if_pos fewer]
  rfl

/-- An AND column takes the latest arrival where all arrive. -/
theorem columnTick_and {m : Cold} {ins : List Byte} {j i : Nat} (isAnd : m.tmode.getLsbD j = true) (on : Enabled m j i)
    (all : ∀ k, Enabled m j k → ins.getD k 255 ≠ 255 ∧ arrival m ins j k ≤ arrival m ins j i) : columnTick m ins j = arrival m ins j i := by
  have every : liveRows m ins j = enabledRows m j := List.filter_eq_self.2 fun k mem => by simpa using (all k (mem_enabledRows.1 mem)).1
  rw [columnTick, enabledRows_isEmpty on, isAnd, every, if_neg (lt_irrefl _)]
  exact foldl_max_eq_of_greatest (mem_enabledRows.2 on) (fun k mem => (all k (mem_enabledRows.1 mem)).2) (Nat.zero_le _)

/-! ## Passes (R305) -/

/-- Pass `p` evaluates what the passes before it gave, the first of them from `ins`. -/
theorem getD_passes (m : Cold) {n p : Nat} (h : p < n) (ins : List Byte) : (m.passes n ins).getD p [] = m.evaluate (m.evaluate^[p] ins) := by
  induction n generalizing p ins with
  | zero => omega
  | succ n ih =>
    cases p with
    | zero => rfl
    | succ p => exact ih (by omega) _

/-- What the evaluation of `n` passes from `ins` holds when it starts: when it ends, and what each pass lands when. -/
def startedEval (s : State) (n : Nat) (ins : List Byte) : Eval where
  busyTo := s.scnt + n * (s.core.cold.twin + 12) - 1
  outs := (List.range n).map fun p => (s.scnt + (p + 1) * (s.core.cold.twin + 12), (s.core.cold.passes n ins).getD p [])

theorem getElem?_outs_startedEval (s : State) {n p : Nat} (h : p < n) (ins : List Byte) : (startedEval s n ins).outs[p]? =
    some (s.scnt + (p + 1) * (s.core.cold.twin + 12), s.core.cold.evaluate (s.core.cold.evaluate^[p] ins)) := by
  rw [← getD_passes _ h, startedEval, List.getElem?_map, List.getElem?_range h]
  rfl

theorem get_latchSp (l : List Byte) {j : Nat} (h : j < 64) : Sp.get 255 (latchSp l) j = l.getD j 255 := by
  simpa [latchSp] using get_foldl_range_at 255 (fun i => l.getD i 255) 0 64 [] h

/-! ## An evaluation starts (R297, R302, R305) -/

/-- Of the cold state, IN and the evaluation in progress alone change at the start. -/
theorem cold_charge_startEval (s : State) (heat n : Nat) (ins : List Byte) :
    ((s.charge heat).startEval n ins).core.cold = { s.core.cold with tin := latchSp ins, eval := some (startedEval s n ins) } := by
  rw [State.startEval, core_modCore, charge_core]
  rfl

/-- An order that starts `n` passes from `ins`: each lands TWIN + 12 cold cycles after the one before, whose output it takes. -/
theorem starts_startEval {i : Instr} {s : State} {n : Nat} {ins : List Byte} (run : exec i s = .next ((s.charge (s.orderHeat i)).startEval n ins)) :
    let m := s.core.cold
    ∃ t x, exec i s = .next t ∧ Issued s t (s.orderHeat i) ∧ t.core.cold.eval = some x ∧ { t.core.cold with eval := m.eval, tin := m.tin } = m ∧
      (∀ i, i < 64 → Sp.get 255 t.core.cold.tin i = ins.getD i 255) ∧ x.busyTo = s.scnt + n * (m.twin + 12) - 1 ∧ x.outs.length = n ∧
      ∀ p, p < n → ∃ from_, x.outs[p]? = some (s.scnt + (p + 1) * (m.twin + 12), m.evaluate from_) ∧
        (p = 0 → from_ = ins) ∧ (∀ y, 0 < p → x.outs[p - 1]? = some y → from_ = y.2) := by
  intro m
  have cold := cold_charge_startEval s (s.orderHeat i) n ins
  have latched := fun j (low : j < 64) => get_latchSp ins low
  generalize latchSp ins = latches at cold latched
  refine ⟨(s.charge (s.orderHeat i)).startEval n ins, startedEval s n ins, run,
    issued_modCold (issued_charge s _) _, ?_, ?_, fun j low => ?_, rfl, ?_, fun p inside => ?_⟩
  · rw [cold]
  · rw [cold]
  · rw [cold]
    exact latched j low
  · simp [startedEval]
  · refine ⟨m.evaluate^[p] ins, getElem?_outs_startedEval s inside ins, fun first => ?_, fun y later before => ?_⟩
    · rw [first]
      rfl
    · obtain ⟨q, rfl⟩ := Nat.exists_eq_add_one.2 later
      rw [Nat.add_sub_cancel, getElem?_outs_startedEval s (Nat.lt_of_succ_lt inside) ins] at before
      rw [← Option.some.inj before, Function.iterate_succ_apply']

theorem exec_tlaunch_startEval (w : BitVec 4) (a : BitVec 5) (s : State) : exec (.tlaunch w a) s =
    .next ((s.charge (s.orderHeat (.tlaunch w a))).startEval 1 ((List.range 64).map fun i => (s.core.cold.lane a.toNat i).setWidth 8)) := by
  rw [exec_tlaunch, execTlaunch, order, charge_cold]

theorem exec_trelax_startEval (w : BitVec 4) (n : BitVec 8) (s : State) : exec (.trelax w n) s =
    .next ((s.charge (s.orderHeat (.trelax w n))).startEval n.toNat ((List.range 64).map fun i => Sp.get 255 s.core.cold.tout i)) := by
  rw [exec_trelax, execTrelax, order, charge_cold]
  rfl

/-! ## An evaluation lands (R297, R305) -/

section
variable {s : State} {x : Eval} {t : Nat} {out : List Byte} {rest : List (Nat × List Byte)} (running : s.core.cold.eval = some x)
  (next : x.outs = (t, out) :: rest)
include running next

theorem exec_temporalEvalLand_due (due : t ≤ s.scnt) : exec .temporalEvalLand s = .next (s.modCore fun c => c.modCold fun m =>
    { m with tout := latchSp out, tin := if rest.isEmpty then m.tin else latchSp out,
             eval := if rest.isEmpty then none else some { x with outs := rest } }) := by
  rw [exec_temporalEvalLand, execTemporalEvalLand, running]
  simp only [next, if_pos due]

theorem exec_temporalEvalLand_early (early : s.scnt < t) : exec .temporalEvalLand s = .next s := by
  rw [exec_temporalEvalLand, execTemporalEvalLand, running]
  simp only [next, if_neg (not_le.2 early)]

/-- What is due lands in OUT, and in IN where a pass follows; before it is due nothing changes. -/
theorem exec_temporalEvalLand_lands : ∃ u, exec .temporalEvalLand s = .next u ∧ u.mem = s.mem ∧ (∀ k, k ≠ s.cur → u.coreAt k = s.coreAt k) ∧
    (t ≤ s.scnt → (∀ j, j < 64 → Sp.get 255 u.core.cold.tout j = out.getD j 255) ∧
      u.core.cold.eval = (if rest = [] then none else some { x with outs := rest }) ∧
      (rest = [] → u.core.cold.tin = s.core.cold.tin) ∧ (rest ≠ [] → ∀ j, j < 64 → Sp.get 255 u.core.cold.tin j = out.getD j 255)) ∧
    (s.scnt < t → u = s) := by
  rcases le_or_gt t s.scnt with due | early
  · refine ⟨_, exec_temporalEvalLand_due running next due, rfl, fun k other => coreAt_modCore_other s _ other, fun _ => ?_,
      fun early => absurd due (not_le.2 early)⟩
    have latched := fun j (low : j < 64) => get_latchSp out low
    generalize latchSp out = latches at latched ⊢
    rw [core_modCore]
    refine ⟨latched, ?_, fun last => ?_, fun more j low => ?_⟩
    · exact if_congr List.isEmpty_iff rfl rfl
    · exact if_pos (List.isEmpty_iff.2 last)
    · exact (congrArg (fun l => Sp.get 255 l j) (if_neg (mt List.isEmpty_iff.1 more))).trans (latched j low)
  · exact ⟨s, exec_temporalEvalLand_early running next early, rfl, fun _ _ => rfl, fun due => absurd due (not_le.2 early), fun _ => rfl⟩

end

end Sys2Proof.Proofs
end

section
/-! # O40: configuration and sequencing of the vector engine and the temporal array (R240, R256, R257, R299, R301, R303, R306), and the statement -/

namespace Sys2Proof.Proofs

open Sys2Proof.Machine Sys2Proof.Laws

/-- An order that writes a flag word, zero-extended, at the next cycle. -/
theorem lands_landFlag {i : Instr} {s : State} {e : EngineId} {f : BitVec 4} {v : BitVec 16}
    (run : exec i s = .next ((s.charge (s.orderHeat i)).landFlag e f.toNat v.toNat)) :
    Lands s (exec i s) (s.orderHeat i) e [(1, .flag f.toNat (v.setWidth 32))] := by
  rw [run, ← BitVec.ofNat_toNat]
  exact lands_land i s ..

theorem steers_vloop (w : BitVec 4) (pre : BitVec 1) (c : BitVec 12) (l : BitVec 9) (s : State) :
    Steers s (exec (.vloop w pre c l) s) 0 .vector fun y => { y with
      loops := { first := (s.core.engine .vector).step + 1, last := (s.core.engine .vector).step + l.toNat, iter := 0, count := c.toNat,
                 pre := decide (pre = 1), began := s.scnt } :: y.loops } := by
  obtain ⟨t, run, issued, changed, rest⟩ := steers_modEngine (.vloop w pre c l) s .vector fun y => { y with
      loops := { first := y.step + 1, last := y.step + l.toNat, iter := 0, count := c.toNat, pre := decide (pre = 1), began := s.scnt } :: y.loops }
  exact ⟨t, run, issued, changed, rest⟩

/-- Crosspoint rows are read from where tsN points in the cold store; bytes at or beyond CQUOTA read 255 (R299). -/
theorem lands_tdload (w : BitVec 4) (n c : BitVec 6) (t : BitVec 2) (s : State) :
    let x := Sp.get 0 s.core.cold.ts t.toNat
    let byte := fun i => let a := ((x.extractLsb' 6 13).toNat * 64 + i) % 2 ^ 19
      if a < s.core.slot.cquota.toNat then s.core.cold.read (x.extractLsb' 19 4).toNat a else 255
    Lands s (exec (.tdload w n c t) s) (c.toNat + 1) .temporal [(c.toNat + 4, .dly ((List.range (c.toNat + 1)).map fun r =>
      (n.toNat + r, (List.range 64).map fun j => byte (64 * r + j))))] := by
  rw [exec_tdload, execTdload, order]
  simp only [charge_cold, charge_slot, bits_eq_extractLsb', coldAddr]
  exact lands_land (.tdload w n c t) s ..

theorem lands_tcapture (w : BitVec 4) (a : BitVec 5) (s : State) : Lands s (exec (.tcapture w a) s) 0 .temporal
    [(1, .vreg a.toNat ((List.range 64).map fun i => (i, (Sp.get 255 s.core.cold.tout i).setWidth 32)))] := by
  rw [exec_tcapture, execTcapture, order, charge_cold]
  exact lands_land (.tcapture w a) s ..

/-- Settles O40: configuration and sequencing order by order, a column by its mode and what reaches it, an evaluation by its passes. -/
theorem temporalConfigurationAndEvaluation : Obligations.TemporalConfigurationAndEvaluation := by
  refine ⟨fun w f n c t p q v k l s => ?_, fun w a n s => ?_, fun m ins j column => ?_, fun x t out rest s running next =>
    exec_temporalEvalLand_lands running next⟩
  · exact ⟨lands_charge (.vnop w) s .vector, lands_charge (.tnop w) s .temporal, lands_landFlag (exec_vflag s), lands_landFlag (exec_tflag s),
      steers_vloop w p k l s, steers_modEngine (.vwaits w v) s .vector _, lands_tdload w n c t s, lands_land (.twset w q) s ..⟩
  · exact ⟨starts_startEval (exec_tlaunch_startEval w a s), starts_startEval (exec_trelax_startEval w n s), lands_tcapture w a s⟩
  · refine ⟨fun closed => getD_evaluate_of_never column (columnTick_of_none closed ins), fun isOr i t on arrives least => ?_, fun isOr silent _ => ?_,
      fun isAnd ⟨i, on, missing⟩ _ => getD_evaluate_of_never column (columnTick_and_of_missing isAnd on missing),
      fun isAnd i t on arrives latest => ?_⟩
    · obtain ⟨rises, rfl⟩ := arrives
      have tick := columnTick_or isOr on rises fun k other up => least k _ other ⟨up, rfl⟩
      rw [getD_evaluate m ins column, tick]
      rfl
    · refine getD_evaluate_of_never column (columnTick_or_of_none isOr fun i on => ?_)
      by_contra rises
      exact silent i _ on ⟨rises, rfl⟩
    · obtain ⟨rises, rfl⟩ := arrives
      have tick := columnTick_and isAnd on fun k other => by
        obtain ⟨_, ⟨up, rfl⟩, le⟩ := latest k other
        exact ⟨up, le⟩
      rw [getD_evaluate m ins column, tick]
      rfl

end Sys2Proof.Proofs
end

section
/-! # O42: `cpseq` where a result is owed to the word (R313, R409)

The statement fails on its clause about `cpseq`: the clause asks that no replay runs, but not that the core owes the word nothing. At
`owesAResult` the word takes the result it is owed, in place of what the string has come to. Where nothing is owed the clause holds:
`exec_cpseq_writesG`. -/

namespace Sys2Proof.Proofs

open Sys2Proof.Machine Sys2Proof.Laws

/-- The word of R313, field by field. -/
theorem seqWord_eq (t : Str) : t.seqWord = ((if t.halt then 0x8000000000000000 else 0) + t.stat.setWidth 64 <<< 56 +
    (t.seq.extractLsb' 0 56).setWidth 64 : Word) := by
  have stat := t.stat.isLt
  apply BitVec.eq_of_toNat_eq
  unfold Str.seqWord word
  cases t.halt
  all_goals
    simp only [if_true, if_false, Bool.false_eq_true, BitVec.natCast_eq_ofNat, BitVec.toNat_add, BitVec.toNat_ofNat,
      BitVec.toNat_shiftLeft, BitVec.toNat_setWidth, BitVec.extractLsb'_toNat, Nat.shiftRight_zero, Nat.shiftLeft_eq]
    omega

theorem recall_takeDeps_eq (s : State) (dep : BitVec 4) : (s.takeDeps dep).recall = s.recall := by
  unfold State.recall
  rw [(owes_oeq_view_takeDeps s dep).1, lane_takeDeps]

section
variable {sy : BitVec 1} {dep : BitVec 4} {d : BitVec 5} {s : State} (hi : s.Issues dep [] [gR d])
include hi

/-- The clause about `cpseq`, of a core that owes nothing. -/
theorem exec_cpseq_writesG (owes : s.core.owes = {}) :
    let v : Word := (if s.core.str.halt then 0x8000000000000000 else 0) + s.core.str.stat.setWidth 64 <<< 56 +
      (s.core.str.seq.extractLsb' 0 56).setWidth 64
    WritesG ((s.takeDeps dep).recordResult d.toNat (some v)) (exec (.cpseq sy dep d) s) sy d v 2 none := by
  intro v
  rw [show v = s.core.str.seqWord from (seqWord_eq _).symm]
  have string : (s.takeDeps dep).core.str = s.core.str := (alike_takeDeps s dep).field Core.str fun _ _ => rfl
  rw [exec_cpseq, execCpseq, control_ready hi.1 hi.2, recalled, recall_takeDeps owes, string]
  exact writesG_of (Writes.refl _)

/-- A word that is owed a result takes it (R409). -/
theorem exec_cpseq_of_owed {n : Nat} {v : Word} (owed : s.recall = some (n, some v)) :
    exec (.cpseq sy dep d) s = .next (((s.takeDeps dep).takeRecalled d (some v)).finish sy none) := by
  rw [exec_cpseq, execCpseq, control_ready hi.1 hi.2, recalled, recall_takeDeps_eq, owed]

end

theorem rg_takeRecalled (u : State) {d : BitVec 5} (general : d ≠ 0) (v : Word) (sy : BitVec 1) :
    ((u.takeRecalled d (some v)).finish sy none).cl.rg d.toNat = v := by
  rw [rg_through (through_finish ..)]
  simp only [State.takeRecalled, State.writeG, cl_modCl, rg_setBusy, rg_wg_self, toNat_eq_zero, if_neg general]

/-- No replay runs, the string of the core stands at its start, and the word of L that comes next is owed the result 1. -/
def owesAResult : State := State.reset.modCore fun c => { c with owed := { results := [(.L, 1, some 1)] } }

theorem owesAResult_issues : owesAResult.Issues 0 [gR 0] [gR 1] := ⟨by decide +kernel, by decide +kernel⟩

theorem owesAResult_string : owesAResult.core.replay = none ∧ owesAResult.core.str = {} ∧ owesAResult.recall = some (1, some 1) := by
  decide +kernel

/-- Refutes O42: at `owesAResult` no replay runs and `cpseq` gives g1 the 1 it is owed, though the string has counted no entry. -/
theorem not_stringWordsAndEntriesTaken : ¬ Obligations.StringWordsAndEntriesTaken := by
  intro ⟨words, _⟩
  obtain ⟨fresh, string, owed⟩ := owesAResult_string
  obtain ⟨-, -, reads⟩ := words 0 0 1 0 owesAResult owesAResult_issues fresh
  have issues : owesAResult.Issues 0 [] [gR 1] := ⟨regsReady_mono owesAResult_issues.1 (by simp), owesAResult_issues.2⟩
  rw [exec_cpseq_of_owed issues owed, string] at reads
  obtain ⟨_, ⟨rfl⟩, -, g1, -⟩ := reads
  rw [rg_takeRecalled _ (by decide)] at g1
  exact absurd g1 (by decide)

end Sys2Proof.Proofs
end

section
/-! # What the writes of a string entry change (R317, R418, R442) -/

namespace Sys2Proof.Laws

open Sys2Proof.Machine

/-! ## Writes at their homes -/

/-- Each write goes to its home, where `sel` takes its doubleword. -/
def putWrites (s : State) (ws : List (Nat × Byte)) (sel : Nat → Bool) : State :=
  ws.foldl (fun s w => if sel (w.1 / 8) then s.homeByte w.1 w.2 else s) s

/-- Without a mirror a byte written home is that byte alone, and on a failed package none. -/
theorem homeByte_writes {s : State} {key : Nat} (plain : mirrorIn key s.part.regions = none) (b : Byte) :
    ∃ m o, s.homeByte key b = { s with mem := m, owners := o } ∧
      ∀ a, (s.homeByte key b).byte a = if a = key ∧ (s.pkgAt (keyPkg key)).failed = false then b else s.byte a := by
  unfold State.part at plain
  unfold State.homeByte State.partByte State.liveByte
  rw [plain]
  dsimp only
  cases (s.pkgAt (keyPkg key)).failed with
  | true => exact ⟨s.mem, s.owners, rfl, fun a => (if_neg (by simp)).symm⟩
  | false => exact ⟨_, _, rfl, fun a => (byte_setByte s key a b).trans (if_congr (by simp) rfl rfl)⟩

/-- From `s` to `t` those of the writes `ws` that `sel` takes have gone to their homes, and the core and every other byte are as before. -/
structure Wrote (s t : State) (ws : List (Nat × Byte)) (sel : Nat → Bool) : Prop where
  core : t.core = s.core
  silent : ws = [] → t.mem = s.mem
  outside : ∀ a, a ∉ ws.map (·.1) → t.byte a = s.byte a
  inside : ∀ w ∈ ws, t.byte w.1 = if sel (w.1 / 8) = true ∧ (s.pkgAt (keyPkg w.1)).failed = false then w.2 else s.byte w.1

theorem putWrites_writes {s : State} (plain : ∀ k, mirrorIn k s.part.regions = none) {ws : List (Nat × Byte)} (sel : Nat → Bool)
    (apart : (ws.map (·.1)).Nodup) : ∃ m o, putWrites s ws sel = { s with mem := m, owners := o } ∧
      (∀ a, a ∉ ws.map (·.1) → (putWrites s ws sel).byte a = s.byte a) ∧
      ∀ w ∈ ws, (putWrites s ws sel).byte w.1 =
        if sel (w.1 / 8) = true ∧ (s.pkgAt (keyPkg w.1)).failed = false then w.2 else s.byte w.1 := by
  induction ws generalizing s with
  | nil => exact ⟨s.mem, s.owners, rfl, fun _ _ => rfl, fun _ h => absurd h List.not_mem_nil⟩
  | cons w rest ih =>
    obtain ⟨fresh, apart⟩ := List.nodup_cons.1 apart
    have first : ∃ m o, (if sel (w.1 / 8) then s.homeByte w.1 w.2 else s) = { s with mem := m, owners := o } ∧
        ∀ a, (if sel (w.1 / 8) then s.homeByte w.1 w.2 else s).byte a =
          if a = w.1 ∧ sel (w.1 / 8) = true ∧ (s.pkgAt (keyPkg w.1)).failed = false then w.2 else s.byte a := by
      cases sel (w.1 / 8) with
      | true => simpa using homeByte_writes (plain w.1) w.2
      | false => exact ⟨s.mem, s.owners, rfl, fun a => (if_neg (by simp)).symm⟩
    obtain ⟨m, o, frame, byte⟩ := first
    have step : putWrites s (w :: rest) sel = putWrites (if sel (w.1 / 8) then s.homeByte w.1 w.2 else s) rest sel := rfl
    rw [step, frame]
    rw [frame] at byte
    obtain ⟨m', o', frame', outside, inside⟩ := ih (s := { s with mem := m, owners := o }) plain apart
    refine ⟨m', o', frame', fun a ha => ?_, fun x hx => ?_⟩
    · obtain ⟨other, ha⟩ := not_or.1 (List.mem_cons.not.1 ha)
      rw [outside a ha, byte, if_neg fun h => other h.1]
    · obtain rfl | hx := List.mem_cons.1 hx
      · rw [outside _ fresh, byte]
        exact if_congr (by simp) rfl rfl
      · have other : x.1 ≠ w.1 := fun same => fresh (List.mem_map.2 ⟨x, hx, same⟩)
        have kept := byte x.1
        rw [if_neg fun h => other h.1] at kept
        rw [inside x hx, kept]
        rfl

theorem applyWrites_wrote {s : State} (plain : ∀ k, mirrorIn k s.part.regions = none) (x : Taken) {ws : List (Nat × Byte)} (sel : Nat → Bool)
    (apart : (ws.map (·.1)).Nodup) (n : Nat) : Wrote s { s.applyWrites x ws sel with drawn := n } ws sel := by
  obtain ⟨m, o, frame, outside, inside⟩ := putWrites_writes plain sel apart
  have none_awaited : (ws.filterMap fun w => (mirrorIn w.1 s.part.regions).map keyPkg) = [] :=
    List.filterMap_eq_nil_iff.2 fun w _ => congrArg (Option.map keyPkg) (plain w.1)
  have run : s.applyWrites x ws sel = (putWrites s ws sel).modCore fun c => { c with mirror := c.mirror ++ [] } := by
    unfold State.applyWrites
    rw [none_awaited]
    rfl
  have core : (s.applyWrites x ws sel).core = s.core := by
    rw [run, core_modCore, List.append_nil, frame]
    rfl
  refine ⟨core, ?_, fun a ha => ?_, fun w hw => ?_⟩
  · rintro rfl
    rfl
  · rw [run]
    exact outside a ha
  · rw [run]
    exact inside w hw

end Sys2Proof.Laws
end

section
/-! # A taken entry completes: SEQ and e5, or the string halts (R317) -/

namespace Sys2Proof.Proofs

open Sys2Proof.Machine Sys2Proof.Laws

/-! ## What a token's arrival leaves alone -/

/-- A token that arrives at the current core counts in e6, wakes clusters, and changes nothing else of the core (R156, R291). -/
theorem core_tokenArrives (s : State) : ∃ ev, { (s.tokenArrives s.cur).core with l := s.core.l, e := s.core.e, s := s.core.s, k := s.core.k } =
      { s.core with cold := { s.core.cold with ev := ev } } ∧
    ∀ m, Sp.get 0 ev m = if m = 6 then pulsed (Sp.get 0 s.core.cold.ev 6) else Sp.get 0 s.core.cold.ev m := by
  obtain ⟨ev, core, counts, -⟩ := core_pulse s 6
  have woken : (s.tokenArrives s.cur).core = (s.pulse s.cur 6).core.wake := core_modCore ..
  exact ⟨ev, by rw [woken]; exact core, counts⟩

theorem str_tokenArrives (s : State) : (s.tokenArrives s.cur).core.str = s.core.str := by
  obtain ⟨ev, core, -⟩ := core_tokenArrives s
  exact (congrArg Core.str core :)

/-- Spans that come back to a core pulse its counters, and leave its string and memory (R317, R321). -/
theorem engineSpansBack_keeps (s : State) : s.engineSpansBack.core.str = s.core.str ∧ s.engineSpansBack.mem = s.mem := by
  have arrivals (l : List Nat) (u : State) : (l.foldl (fun s _ => s.tokenArrives s.cur) u).core.str = u.core.str ∧
      (l.foldl (fun s _ => s.tokenArrives s.cur) u).mem = u.mem := by
    induction l generalizing u with
    | nil => exact ⟨rfl, rfl⟩
    | cons n rest ih =>
      obtain ⟨str, mem⟩ := ih (u.tokenArrives u.cur)
      exact ⟨str.trans (str_tokenArrives u), mem⟩
  exact arrivals _ _

/-! ## The string halts (R317) -/

/-- A string whose taken entries have all completed halts: no byte is written. -/
theorem haltString_of_done {s : State} (done : ∀ t ∈ s.core.str.taken, t.done = true) (stat no : Nat) :
    (s.haltString stat no).core.str.halt = true ∧ (s.haltString stat no).core.str.stat = BitVec.ofNat 7 stat ∧
      (s.haltString stat no).core.str.seq = s.core.str.seq ∧ (s.haltString stat no).mem = s.mem := by
  unfold State.haltString
  extract_lets keep gone before s1 s2
  have nothing_begun : s1 = s := by
    refine (List.foldl_ext _ (fun u _ => u) s fun u t ht => if_neg fun begun => ?_).trans (List.foldl_fixed gone)
    simp [done t (List.mem_filter.1 ht).1] at begun
  obtain ⟨str, mem⟩ := engineSpansBack_keeps s2
  rw [str, mem, show s2.core = _ from core_modCore .., nothing_begun]
  exact ⟨rfl, rfl, rfl, (congrArg State.mem nothing_begun : s1.mem = s.mem)⟩

/-- Entry `no` of the core's string has completed. -/
def entryDone (no : Nat) (c : Core) : Core :=
  { c with str := { c.str with taken := c.str.taken.map fun t => if t.no = no then { t with done := true } else t } }

/-- Entry `no` of the core's string has completed with result `r`, which CARRY takes up (R322). -/
def entryDoneWith (no : Nat) (r : Option (BitVec 32)) (c : Core) : Core :=
  { c with str := { c.str with
      taken := c.str.taken.map fun (t : Taken) => if t.no = no then { t with done := true, res := r } else t }.setCarry no r }

/-! ## The one entry due -/

/-- `x` is the one taken entry of the current core's string, which goes on; it has not completed and is due. -/
structure DueEntry (x : Taken) (s : State) : Prop where
  only : s.core.str.taken = [x]
  waits : x.done = false
  due : x.due ≤ s.warm
  runs : s.core.str.halt = false

/-- An entry that none goes before may start. -/
theorem mayStart_first {x : Taken} (command : entryOf x.cmd ≠ none) : mayStart [] x = true := by
  obtain ⟨⟨c, e⟩, entry⟩ := Option.ne_none_iff_exists'.1 command
  unfold mayStart
  rw [entry]
  simp

/-- The first taken entry, `t`, leaves the string, and is counted (R317). -/
def entryCounted (t : Taken) (c : Core) : Core :=
  { c with str := { c.str with
      taken := [], seq := c.str.seq + 1, sum := t.res.getD c.str.sum, sumNo := if t.res.isSome then t.no else c.str.sumNo } }

theorem countEntries_one {s : State} {t : Taken} (only : s.core.str.taken = [t]) (done : t.done = true) :
    State.countEntries 1 s = (s.modCore (entryCounted t)).pulse s.cur 5 := by
  unfold State.countEntries
  rw [only]
  dsimp only
  rw [if_pos done]
  rfl

/-- From `u`, in which entry `x` has been performed with result `r`, to `t` the entry is counted: SEQ and e5 rise, CARRY takes the result. -/
structure Counts (x : Taken) (r : Option (BitVec 32)) (u t : State) : Prop where
  taken : t.core.str.taken = []
  seq : t.core.str.seq = u.core.str.seq + 1
  halt : t.core.str.halt = u.core.str.halt
  carry : t.core.str.carry = (u.core.str.setCarry x.no r).carry
  mem : t.mem = u.mem
  parts : t.parts = u.parts
  slot : t.core.slot = u.core.slot
  events : ∀ m, Sp.get 0 t.core.cold.ev m = if m = 5 then pulsed (Sp.get 0 u.core.cold.ev 5) else Sp.get 0 u.core.cold.ev m

/-- CARRY and the number of its entry are all that a result changes. -/
theorem setCarry_eq (t : Str) (no : Nat) (r : Option (BitVec 32)) : ∃ v n, t.setCarry no r = { t with carry := v, carryNo := n } := by
  unfold Str.setCarry
  split
  · split_ifs
    · exact ⟨_, _, rfl⟩
    · exact ⟨_, _, rfl⟩
  · exact ⟨_, _, rfl⟩

/-- What CARRY becomes does not depend on the entries taken. -/
theorem carry_setCarry_taken (t : Str) (ts : List Taken) (no : Nat) (r : Option (BitVec 32)) :
    ({ t with taken := ts }.setCarry no r).carry = (t.setCarry no r).carry := by
  unfold Str.setCarry
  split
  · dsimp only
    split_ifs <;> rfl
  · rfl

theorem counts_of_done {x : Taken} {u : State} (only : u.core.str.taken = [x]) (r : Option (BitVec 32)) :
    Counts x r u (State.countEntries (entryDoneWith x.no r u.core).str.taken.length (u.modCore (entryDoneWith x.no r))) := by
  obtain ⟨v, n, string⟩ := setCarry_eq { u.core.str with taken := [{ x with done := true, res := r }] } x.no r
  have own : (u.modCore (entryDoneWith x.no r)).core =
      { u.core with str := { u.core.str with taken := [{ x with done := true, res := r }] }.setCarry x.no r } := by
    rw [core_modCore, entryDoneWith, only]
    simp
  have length : (entryDoneWith x.no r u.core).str.taken.length = 1 := by
    rw [← core_modCore u (entryDoneWith x.no r), own, string]
    rfl
  have carry := carry_setCarry_taken u.core.str [{ x with done := true, res := r }] x.no r
  rw [string] at own carry
  rw [length, countEntries_one (t := { x with done := true, res := r }) (by rw [own]) rfl]
  obtain ⟨ev, core, counts, -⟩ := core_pulse ((u.modCore (entryDoneWith x.no r)).modCore (entryCounted { x with done := true, res := r })) 5
  rw [core_modCore (u.modCore (entryDoneWith x.no r)), own] at core counts
  have str := (congrArg Core.str core :)
  refine ⟨(congrArg Str.taken str :), (congrArg Str.seq str :), (congrArg Str.halt str :), (congrArg Str.carry str :).trans carry, rfl, rfl,
    (congrArg Core.slot core :), fun m => ?_⟩
  exact (congrArg (fun k : Core => Sp.get 0 k.cold.ev m) core :).trans (counts m)

section
variable {x : Taken} {s : State} (one : DueEntry x s) (command : entryOf x.cmd ≠ none)
include one command

theorem startable_due : s.startable = if (s.perform x).isSome then some x else none := by
  have first : ([x].filter fun y => decide (y.no < x.no)) = [] := by simp
  unfold State.startable
  rw [one.only]
  simp only [List.find?_cons, List.find?_nil, first, mayStart_first command, one.waits, decide_eq_true one.due, Bool.not_false, Bool.true_and]
  cases (s.perform x).isSome <;> rfl

theorem exec_entryComplete_waits (waits : s.perform x = none) : exec .entryComplete s = .next s := by
  rw [exec_entryComplete, execEntryComplete, startable_due one command, waits]
  rfl

section
variable {n : Nat} {r : Option (BitVec 32)} {u : State} (done : s.perform x = some (n, r, u)) (str : u.core.str = s.core.str)
  (run : u.core.run = s.core.run)
include done run

/-- What comes of the entry performed, `u`: the string halts, or the entry is counted. -/
theorem exec_entryComplete_of_performed : exec .entryComplete s =
    .next (if n ≠ 0 then (u.modCore (entryDone x.no)).haltString n x.no
      else State.countEntries (entryDoneWith x.no r u.core).str.taken.length (u.modCore (entryDoneWith x.no r))) := by
  have runs_on : ¬(u.core.run.isNone = true ∧ s.core.run.isSome = true) := by
    rw [run]
    cases s.core.run <;> simp
  have start : s.startable = some x := by
    rw [startable_due one command, done]
    rfl
  rw [exec_entryComplete, execEntryComplete, start]
  dsimp only
  rw [done]
  dsimp only
  rw [if_neg runs_on]
  split_ifs
  · rfl
  · rw [← core_modCore u (entryDoneWith x.no r)]
    rfl

include str

theorem exec_entryComplete_halts (failed : n ≠ 0) : ∃ t, exec .entryComplete s = .next t ∧ t.core.str.halt = true ∧
    t.core.str.stat = BitVec.ofNat 7 n ∧ t.core.str.seq = s.core.str.seq ∧ t.mem = u.mem := by
  have taken : (u.modCore (entryDone x.no)).core.str.taken = [{ x with done := true }] := by
    rw [core_modCore]
    simp [entryDone, str, one.only]
  obtain ⟨halt, stat, seq, mem⟩ := haltString_of_done (s := u.modCore (entryDone x.no)) (by rw [taken]; simp) n x.no
  rw [exec_entryComplete_of_performed one command done run, if_pos failed]
  refine ⟨_, rfl, halt, stat, seq.trans ?_, mem⟩
  rw [core_modCore, entryDone, str]

theorem exec_entryComplete_counts (passed : n = 0) : ∃ t, exec .entryComplete s = .next t ∧ Counts x r u t := by
  rw [exec_entryComplete_of_performed one command done run, if_neg (not_not.2 passed)]
  exact ⟨_, rfl, counts_of_done (by rw [str, one.only]) r⟩

end

end

end Sys2Proof.Proofs
end

section
/-! # O43: entries that write no byte: retired ones, `link`, `mirwait`, `waitseq`, `tokret` (R131, R318, R321) -/

namespace Sys2Proof.Proofs

open Sys2Proof.Machine Sys2Proof.Laws

/-- The one entry due completes, SEQ and e5 rise, and memory stays. -/
def CountsOnly (s : State) : Prop :=
  ∃ t, exec .entryComplete s = .next t ∧ t.core.str.taken = [] ∧ t.core.str.seq = s.core.str.seq + 1 ∧ t.core.str.halt = false ∧
    t.mem = s.mem ∧ Sp.get 0 t.core.cold.ev 5 = pulsed (Sp.get 0 s.core.cold.ev 5)

/-- The string halts at the one entry due with status `n`; SEQ and memory stay. -/
def HaltsOnly (s : State) (n : BitVec 7) : Prop :=
  ∃ t, exec .entryComplete s = .next t ∧ t.core.str.halt = true ∧ t.core.str.stat = n ∧ t.core.str.seq = s.core.str.seq ∧ t.mem = s.mem

section
variable {x : Taken} {e : CopyEntry} {s : State} (one : DueEntry x s)
include one

theorem countsOnly_of_counts {r : Option (BitVec 32)} {u t : State} (run : exec .entryComplete s = .next t) (c : Counts x r u t)
    (str : u.core.str = s.core.str) (mem : u.mem = s.mem) (e5 : Sp.get 0 u.core.cold.ev 5 = Sp.get 0 s.core.cold.ev 5) : CountsOnly s := by
  refine ⟨t, run, c.taken, c.seq.trans (by rw [str]), c.halt.trans (by rw [str, one.runs]), c.mem.trans mem, ?_⟩
  rw [c.events, if_pos rfl, e5]

theorem countsOnly_of_performed (command : entryOf x.cmd ≠ none) (done : s.perform x = some (0, none, s)) : CountsOnly s := by
  obtain ⟨t, run, c⟩ := exec_entryComplete_counts one command done rfl rfl rfl
  exact countsOnly_of_counts one run c rfl rfl rfl

theorem haltsOnly_of_performed (command : entryOf x.cmd ≠ none) {n : Nat} (failed : n ≠ 0) (done : s.perform x = some (n, none, s)) :
    HaltsOnly s (BitVec.ofNat 7 n) :=
  exec_entryComplete_halts one command done rfl rfl failed

theorem countsOnly_of_killed (command : entryOf x.cmd ≠ none) (killed : x.killed = true) : CountsOnly s := by
  obtain ⟨⟨c, e⟩, entry⟩ := Option.ne_none_iff_exists'.1 command
  refine countsOnly_of_performed one command ?_
  rw [State.perform, entry]
  exact if_pos killed

variable (alive : x.killed = false)
include alive

theorem countsOnly_of_link (link : x.cmd = .link e) : CountsOnly s := by
  refine countsOnly_of_performed one (by rw [link]; exact Option.some_ne_none _) ?_
  rw [State.perform, link, alive]
  rfl

/-! ## `mirwait` (R318) -/

theorem mirwait_completes (mirwait : x.cmd = .mirwait e) :
    ((∀ m ∈ s.core.mirror, ∀ n, m.entry = some n → x.no ≤ n) → CountsOnly s) ∧
      ((∃ m ∈ s.core.mirror, ∃ n, m.entry = some n ∧ n < x.no) → exec .entryComplete s = .next s) := by
  have command : entryOf x.cmd ≠ none := by rw [mirwait]; exact Option.some_ne_none _
  have run : s.perform x = if s.core.mirror.any (fun m => m.entry.any (decide <| · < x.no)) then none else some (0, none, s) := by
    rw [State.perform, mirwait, alive]
    rfl
  constructor
  · intro later
    refine countsOnly_of_performed one command ?_
    rw [run, if_neg]
    rw [List.any_eq_true]
    rintro ⟨m, hm, earlier⟩
    cases entry : m.entry with
    | none => simp [entry] at earlier
    | some n =>
      rw [entry] at earlier
      exact absurd (later m hm n entry) (not_le.2 (of_decide_eq_true earlier))
  · rintro ⟨m, hm, n, entry, below⟩
    refine exec_entryComplete_waits one command ?_
    rw [run, if_pos]
    exact List.any_eq_true.2 ⟨m, hm, by rw [entry]; exact decide_eq_true below⟩

/-! ## `waitseq` (R318) -/

theorem waitseq_completes (waitseq : x.cmd = .waitseq e) :
    ((e.arg.extractLsb' 0 22 ≠ 0 ∨ s.peer e.arg = none) → HaltsOnly s 8) ∧
      ∀ k i, e.arg.extractLsb' 0 22 = 0 → s.peer e.arg = some (k, i) → (s.pkgAt (k / 256)).failed = false →
        (e.aux.toNat % 2 ^ 56 ≤ s.seqOf k i % 2 ^ 56 → CountsOnly s) ∧
        (s.seqOf k i % 2 ^ 56 < e.aux.toNat % 2 ^ 56 → exec .entryComplete s = .next s) := by
  have command : entryOf x.cmd ≠ none := by rw [waitseq]; exact Option.some_ne_none _
  have run : s.perform x =
      if bits e.arg 0 22 ≠ 0 then some (8, none, s)
      else match s.peer e.arg with
        | none => some (8, none, s)
        | some (k, i) => if (s.pkgAt (pkgOf k)).failed then some (8, none, s)
          else if e.aux.toNat % 2 ^ 56 ≤ s.seqOf k i % 2 ^ 56 then some (0, none, s) else none := by
    rw [State.perform, waitseq, alive]
    rfl
  have whole : bits e.arg 0 22 = 0 ↔ e.arg.extractLsb' 0 22 = 0 := bits_eq_zero_iff ..
  constructor
  · intro nobody
    refine haltsOnly_of_performed one command (n := 8) (by decide) ?_
    rw [run]
    rcases nobody with part | nobody
    · exact if_pos (mt whole.1 part)
    · rw [nobody]
      exact ite_self _
  · intro k i none_of_atom peer stands
    rw [if_neg (not_not.2 (whole.2 none_of_atom)), peer] at run
    dsimp only at run
    rw [show (s.pkgAt (pkgOf k)).failed = false from stands, if_neg Bool.false_ne_true] at run
    exact ⟨fun reached => countsOnly_of_performed one command (by rw [run, if_pos reached]),
      fun behind => exec_entryComplete_waits one command (by rw [run, if_neg (by omega)])⟩

/-! ## `tokret` (R321) -/

/-- The span goes back to the core as EXCL. -/
def spanReturned (s : State) (head : Nat) : State :=
  (s.modToken s.partNo head fun t => { t with mode := .excl }).tokenArrives s.cur

theorem tokret_completes (tokret : x.cmd = .tokret e) : let tk := s.part.token e.aux.toNat
    (tk.isHead = false ∨ s.engineHolds tk = false → HaltsOnly s 7) ∧
      (tk.isHead = true → s.engineHolds tk = true → CountsOnly s ∧ ∃ t, exec .entryComplete s = .next t ∧
        t.part.token e.aux.toNat = { tk with mode := .excl } ∧ (∀ i, i ≠ e.aux.toNat → t.part.token i = s.part.token i) ∧
        Sp.get 0 t.core.cold.ev 6 = pulsed (Sp.get 0 s.core.cold.ev 6)) := by
  intro tk
  have command : entryOf x.cmd ≠ none := by rw [tokret]; exact Option.some_ne_none _
  have run : s.perform x = if tk.isHead && s.engineHolds tk then some (0, none, spanReturned s e.aux.toNat) else some (7, none, s) := by
    rw [State.perform, tokret, alive]
    rfl
  constructor
  · intro other
    refine haltsOnly_of_performed one command (n := 7) (by decide) ?_
    rw [run, if_neg]
    rcases other with h | h <;> simp [h]
  · intro head held
    rw [head, held, if_pos (by rfl)] at run
    obtain ⟨ev, core, counts⟩ := core_tokenArrives (s.modToken s.partNo e.aux.toNat fun t => { t with mode := .excl })
    replace core : { (spanReturned s e.aux.toNat).core with l := s.core.l, e := s.core.e, s := s.core.s, k := s.core.k } =
      { s.core with cold := { s.core.cold with ev := ev } } := core
    have slot := (congrArg Core.slot core :)
    have str := (congrArg Core.str core :)
    have events (m : Nat) : Sp.get 0 (spanReturned s e.aux.toNat).core.cold.ev m = _ :=
      (congrArg (fun k : Core => Sp.get 0 k.cold.ev m) core :).trans (counts m)
    obtain ⟨t, exec_, c⟩ := exec_entryComplete_counts one command run str (congrArg Core.run core :) rfl
    refine ⟨countsOnly_of_counts one exec_ c str rfl (events 5), t, exec_, ?_⟩
    have part : t.part = { s.part with tokens := Sp.put s.part.tokens e.aux.toNat { tk with mode := .excl } } := by
      rw [part_eq (v := s.modToken s.partNo e.aux.toNat fun t => { t with mode := .excl }) c.parts (c.slot.trans slot)]
      exact part_modPartAt ..
    rw [part]
    refine ⟨get_put_self .., fun i other => get_put_other _ _ _ other, ?_⟩
    rw [c.events, if_neg (by decide), events]
    rfl

end

end Sys2Proof.Proofs
end

section
/-! # Entries that write: what they stage, where they write it, and how they are performed (R318, R319, R322) -/

namespace Sys2Proof.Proofs

open Sys2Proof.Machine Sys2Proof.Laws

theorem entryOf_instr (c : Command) (e : CopyEntry) : entryOf (c.instr e) = some (c, e) := by cases c <;> rfl

/-- The commands that read, or write, bytes. -/
def movesBytes : Command → Bool
  | .copy | .copys | .fill | .bcast | .cksum | .signal => true
  | .waitseq | .tokret | .link | .mirwait => false

/-! ## What is staged, and what is written -/

/-- The bytes an entry stages: its source as it reads, or what AUX gives. -/
def stagedBytes (s : State) (c : Command) (e : CopyEntry) (x : Taken) : List Byte :=
  match c with
  | .fill => (List.range e.len.toNat).map fun k => e.aux.extractLsb' (8 * (k % 8)) 8
  | .signal => leBytes 8 e.aux.toNat
  | _ => (sourceBytes c e x.dims).map fun a => s.byte (s.warmKey s.partNo a)

/-- The byte that goes to place `i` of the destination. -/
def stagedAt (s : State) (c : Command) (e : CopyEntry) (x : Taken) (i : Nat) : Byte :=
  (stagedBytes s c e x).getD (i % max (stagedBytes s c e x).length 1) 0

/-- The bytes an entry writes, by key. -/
def placedBytes (s : State) (c : Command) (e : CopyEntry) (x : Taken) : List (Nat × Byte) :=
  (List.range (destBytes c e x.dims x.dests).length).map fun i =>
    (s.warmKey s.partNo ((destBytes c e x.dims x.dests).getD i 0), stagedAt s c e x i)

section
variable {c : Command} {e : CopyEntry} {x : Taken} {s : State}

/-- Where no destination byte lies in the source, an entry that has not begun writes what it stages. -/
theorem entryWrites_of_apart (entry : entryOf x.cmd = some (c, e)) (fresh : x.begun = none) (whole : x.flip = none)
    (apart : ∀ a ∈ destBytes c e x.dims x.dests, a ∉ sourceBytes c e x.dims) :
    s.entryWrites x = (placedBytes s c e x, stagedBytes s c e x, (destBytes c e x.dims x.dests).length) := by
  unfold State.entryWrites
  rw [fresh, entry, whole]
  dsimp only
  refine Prod.ext (List.map_congr_left fun i hi => ?_) rfl
  have inside : (destBytes c e x.dims x.dests).getD i 0 ∈ destBytes c e x.dims x.dests := by
    rw [List.getD_eq_getElem _ _ (List.mem_range.1 hi)]
    exact List.getElem_mem _
  have elsewhere : (sourceBytes c e x.dims).contains ((destBytes c e x.dims x.dests).getD i 0) = false := by
    simpa using apart _ inside
  rw [elsewhere, if_neg (by simp)]
  rfl

theorem map_fst_placedBytes : (placedBytes s c e x).map (·.1) = (destBytes c e x.dims x.dests).map (s.warmKey s.partNo) := by
  refine List.ext_getElem (by simp [placedBytes]) fun i h₁ h₂ => ?_
  have inside : i < (destBytes c e x.dims x.dests).length := by simpa using h₂
  simp [placedBytes, List.getElem?_eq_getElem inside]

/-- The seed of the one entry taken: SEED, or with CHAIN the sum that came before it since the last halt (R100). -/
theorem seedOf_only {t : Str} (only : t.taken = [x]) :
    seedOf t x e = if chainOf e then (if x.base < t.sumNo ∧ t.sumNo < x.no then t.sum else 0) else e.seed := by
  unfold seedOf
  rw [only]
  simp

/-! ## Performed -/

/-- The checksum of an entry over what it stages. -/
def checksum (s : State) (x : Taken) (e : CopyEntry) (staged : List Byte) : BitVec 32 := fletcher (seedOf s.core.str x e) staged

/-- The status of an entry whose bytes are in place: 5 where CHECK asks for another checksum. -/
def checkStatus (c : Command) (e : CopyEntry) (r : BitVec 32) : Nat :=
  if sumsOf c then (if checkOf e ∧ r ≠ e.expect then 5 else 0) else 0

/-- The result of an entry that computes a checksum. -/
def checkResult (c : Command) (r : BitVec 32) : Option (BitVec 32) := if sumsOf c then some r else none

/-- The first byte of the source that cannot be read, where the source has yet to be read (R338). -/
def unreadable (s : State) (x : Taken) (src : List Int) : Option Int :=
  if x.begun.isSome then none else src.find? fun a => s.badAt (s.warmKey s.partNo a) 1

/-- One of the homes an entry writes to stands on a failed package (R442). -/
def losesHome (s : State) (ws : List (Nat × Byte)) : Bool := ws.any fun w => (s.pkgAt (keyPkg w.1)).failed

/-- The state once what is not yet in place has been written: all of it, or, where a home is lost, as free choices have it. -/
def afterWrites (s : State) (x : Taken) (ws : List (Nat × Byte)) (n : Nat) : State :=
  { s.applyWrites x ws (fun dw => !x.put.contains dw && (!losesHome s ws || Config.choice (s.drawn + n + dw))) with drawn := s.drawn + n + 1 }

section
variable (entry : entryOf x.cmd = some (c, e)) (moves : movesBytes c = true) (alive : x.killed = false)
  {ws : List (Nat × Byte)} {staged : List Byte} {n : Nat} (writes : s.entryWrites x = (ws, staged, n))
include entry moves alive writes

/-- How an entry that reads or writes bytes is performed. -/
theorem perform_of_moves : s.perform x = (unreadable s x (sourceBytes c e x.dims)).elim
    (if losesHome s ws then some (9, none, afterWrites s x ws n)
      else some (checkStatus c e (checksum s x e staged), checkResult c (checksum s x e staged), afterWrites s x ws n))
    fun a => some (9, none, s.meetBad (s.warmKey s.partNo a / 64)) := by
  unfold State.perform
  rw [entry, alive]
  dsimp only
  rw [if_neg Bool.false_ne_true, ← unreadable]
  cases unreadable s x (sourceBytes c e x.dims) with
  | some a => cases c with
    | copy | copys | fill | bcast | cksum | signal => rfl
    | waitseq | tokret | link | mirwait => cases moves
  | none => cases c with
    | copy | copys | fill | bcast | cksum | signal =>
      dsimp only
      rw [writes]
      rfl
    | waitseq | tokret | link | mirwait => cases moves

theorem perform_of_bad_source (fresh : x.begun = none) (bad : ∃ a ∈ sourceBytes c e x.dims, s.badAt (s.warmKey s.partNo a) 1 = true) :
    ∃ line, s.perform x = some (9, none, s.meetBad line) := by
  obtain ⟨a, found⟩ : ∃ a, unreadable s x (sourceBytes c e x.dims) = some a := by
    rw [← Option.isSome_iff_exists, unreadable, fresh, if_neg (by decide), List.find?_isSome]
    exact bad
  exact ⟨_, (perform_of_moves entry moves alive writes).trans (by rw [found]; rfl)⟩

variable (good : x.begun = none → ∀ a ∈ sourceBytes c e x.dims, s.badAt (s.warmKey s.partNo a) 1 = false)
include good

theorem perform_of_good : s.perform x = if losesHome s ws then some (9, none, afterWrites s x ws n)
    else some (checkStatus c e (checksum s x e staged), checkResult c (checksum s x e staged), afterWrites s x ws n) := by
  have readable : unreadable s x (sourceBytes c e x.dims) = none := by
    unfold unreadable
    cases begun : x.begun with
    | some _ => rfl
    | none => exact List.find?_eq_none.2 fun a ha => by rw [good begun a ha]; decide
  rw [perform_of_moves entry moves alive writes, readable]
  rfl

variable (plain : ∀ k, mirrorIn k s.part.regions = none) (apart : (ws.map (·.1)).Nodup)
include plain apart

/-- Where every home stands, what is not yet in place is written. -/
theorem perform_of_homes (stands : ∀ w ∈ ws, (s.pkgAt (keyPkg w.1)).failed = false) :
    ∃ u, s.perform x = some (checkStatus c e (checksum s x e staged), checkResult c (checksum s x e staged), u) ∧
      Wrote s u ws fun dw => !x.put.contains dw := by
  have standing : losesHome s ws = false := List.any_eq_false.2 fun w hw => by rw [stands w hw]; decide
  have wrote : Wrote s (afterWrites s x ws n) ws fun dw => !x.put.contains dw := by
    unfold afterWrites
    rw [standing]
    simp only [Bool.not_false, Bool.true_or, Bool.and_true]
    exact applyWrites_wrote plain x _ apart _
  exact ⟨_, (perform_of_good entry moves alive writes good).trans (by rw [standing]; rfl), wrote⟩

/-- Where a home has failed the entry fails, and some of what it writes is in place. -/
theorem perform_of_lost_home (lost : ∃ w ∈ ws, (s.pkgAt (keyPkg w.1)).failed = true) :
    ∃ u sel, s.perform x = some (9, none, u) ∧ Wrote s u ws sel :=
  ⟨_, _, (perform_of_good entry moves alive writes good).trans (if_pos (List.any_eq_true.2 lost)), applyWrites_wrote plain x _ apart _⟩

end

end

end Sys2Proof.Proofs
end

section
/-! # O43: bytes moved, from source to destination (R318, R319, R338, R360) -/

namespace Sys2Proof.Proofs

open Sys2Proof.Machine Sys2Proof.Laws

/-! ## Places named by a handle (R14, R331) -/

/-- A region lies within its package (R330). -/
theorem decodeRegion_inside {v : BitVec 512} {r : Region} (valid : decodeRegion v = some r) : r.base + r.size ≤ 2 ^ 40 := by
  unfold decodeRegion at valid
  dsimp only at valid
  split_ifs at valid with ok
  obtain rfl := Option.some.inj valid
  simp only [Bool.and_eq_true, decide_eq_true_eq] at ok
  tauto

theorem locate_eq_some {s : State} {p n k : Nat} {h : Word} {r : Region} (place : s.locate p h n = some (r, k)) :
    s.regionOf p (regionIdx h) = some r ∧ offsetOf h + n ≤ r.size ∧ k = memKey r.pkg (r.base + offsetOf h) := by
  unfold State.locate at place
  split at place
  · next region =>
    split_ifs at place with inside
    obtain ⟨rfl, rfl⟩ := Prod.mk.inj (Option.some.inj place)
    exact ⟨region, inside, rfl⟩
  · cases place

/-- The handle of a byte further on in the same region. -/
theorem handle_add {h : Word} {i : Nat} (inside : offsetOf h + i < 2 ^ 52) :
    regionIdx (BitVec.ofInt 64 ((h.toNat : Int) + i)) = regionIdx h ∧ offsetOf (BitVec.ofInt 64 ((h.toNat : Int) + i)) = offsetOf h + i := by
  have value : (BitVec.ofInt 64 ((h.toNat : Int) + i)).toNat = h.toNat + i := by
    have := h.isLt
    unfold offsetOf bits at inside
    rw [BitVec.toNat_ofInt]
    omega
  unfold regionIdx offsetOf bits at *
  rw [value]
  omega

section
variable {s : State} {h : Word} {r : Region} {k n : Nat} (place : s.locate s.partNo h n = some (r, k)) (memory : regionIdx h ≠ 0xFFF)
include place memory

theorem warmKey_add {i : Nat} (hi : i < n) : s.warmKey s.partNo ((h.toNat : Int) + i) = k + i := by
  obtain ⟨region, inside, rfl⟩ := locate_eq_some place
  have bound := decodeRegion_inside region
  obtain ⟨index, offset⟩ := handle_add (h := h) (i := i) (by omega)
  have here : s.locate s.partNo (BitVec.ofInt 64 ((h.toNat : Int) + i)) 1 = some (r, memKey r.pkg (r.base + (offsetOf h + i))) := by
    unfold State.locate
    rw [index, region, offset]
    exact if_pos (by omega)
  unfold State.warmKey State.locateQ
  dsimp only
  rw [index, if_neg memory, here]
  unfold memKey
  simp only [Option.map_some, Option.getD_some]
  omega

end

theorem mem_range_add {k n a : Nat} : a ∈ (List.range n).map (k + ·) ↔ k ≤ a ∧ a < k + n := by
  simp only [List.mem_map, List.mem_range]
  exact ⟨fun ⟨i, hi, eq⟩ => by omega, fun h => ⟨a - k, by omega, by omega⟩⟩

theorem nodup_range_add (k n : Nat) : ((List.range n).map (k + ·)).Nodup := List.nodup_range.map fun _ _ h => Nat.add_left_cancel h

/-! ## A source that cannot be read (R338) -/

/-- Where no package runs in OWNER mode, an error met is logged and ends nothing. -/
theorem meetBad_of_unowned {s : State} (unowned : ∀ k, (s.pkgAt k).memprot = 0) (line : Nat) :
    (s.meetBad line).core = s.core ∧ (s.meetBad line).mem = s.mem := by
  have logged : s.meetBad line = s.logLine line := by
    unfold State.meetBad
    refine if_neg ?_
    unfold Pkg.ownerMode
    rw [unowned]
    simp [bits]
  rw [logged]
  unfold State.logLine State.logDie State.tell
  dsimp only
  split_ifs <;> exact ⟨rfl, rfl⟩

/-! ## An entry completes, fails its check, or loses a destination -/

/-- The one taken entry has left the string and is counted in SEQ and e5; the string goes on (R317). -/
def Counted (s t : State) : Prop :=
  t.core.str.taken = [] ∧ t.core.str.seq = s.core.str.seq + 1 ∧ t.core.str.halt = false ∧
    Sp.get 0 t.core.cold.ev 5 = pulsed (Sp.get 0 s.core.cold.ev 5)

theorem counted_of_counts {x : Taken} {s u t : State} {r : Option (BitVec 32)} (one : DueEntry x s) (c : Counts x r u t) (core : u.core = s.core) :
    Counted s t := by
  refine ⟨c.taken, c.seq.trans (by rw [core]), c.halt.trans (by rw [core, one.runs]), ?_⟩
  rw [c.events, if_pos rfl, core]

theorem checkStatus_of_agrees {c : Command} {e : CopyEntry} {r : BitVec 32} (agrees : sumsOf c = true → checkOf e = false ∨ r = e.expect) :
    checkStatus c e r = 0 := by
  unfold checkStatus
  split_ifs with sums differs
  · obtain h | h := agrees sums
    · simp [h] at differs
    · exact absurd h differs.2
  · rfl
  · rfl

/-- An entry that has begun writes what is not yet in place (R317). -/
theorem begun_entry_completes {e : CopyEntry} {x : Taken} {s : State} (one : DueEntry x s) (alive : x.killed = false)
    (plain : ∀ k, mirrorIn k s.part.regions = none) {ws : List (Nat × Byte)} {staged : List Byte} (begun : x.begun = some (ws, staged))
    (command : x.cmd = .copy e ∨ x.cmd = .fill e ∨ x.cmd = .signal e) (unchecked : checkOf e = false) (apart : (ws.map (·.1)).Nodup)
    (stands : ∀ w ∈ ws, (s.pkgAt (keyPkg w.1)).failed = false) : ∃ t, exec .entryComplete s = .next t ∧ Counted s t ∧
      (∀ w ∈ ws, w.1 / 8 ∉ x.put → t.byte w.1 = w.2) ∧ ∀ a, a ∉ ws.map (·.1) ∨ a / 8 ∈ x.put → t.byte a = s.byte a := by
  obtain ⟨c, entry, moves⟩ : ∃ c, entryOf x.cmd = some (c, e) ∧ movesBytes c = true := by
    obtain h | h | h := command <;> exact ⟨_, congrArg entryOf h, rfl⟩
  have writes : s.entryWrites x = (ws, staged, 0) := by
    unfold State.entryWrites
    rw [begun]
  obtain ⟨u, done, wrote⟩ := perform_of_homes entry moves alive writes (fun fresh => by rw [begun] at fresh; cases fresh) plain apart stands
  obtain ⟨t, run, counts⟩ := exec_entryComplete_counts one (by rw [entry]; exact Option.some_ne_none _) done (by rw [wrote.core])
    (by rw [wrote.core]) (checkStatus_of_agrees fun _ => .inl unchecked)
  have bytes (a : Nat) : t.byte a = u.byte a := congrArg (fun m => Sp.get Memory.unwritten m a) counts.mem
  refine ⟨t, run, counted_of_counts one counts wrote.core, fun w hw open_ => ?_, fun a kept => ?_⟩
  · rw [bytes, wrote.inside w hw, if_pos ⟨by simpa using open_, stands w hw⟩]
  · rw [bytes]
    by_cases listed : a ∈ ws.map (·.1)
    · obtain ⟨w, hw, rfl⟩ := List.mem_map.1 listed
      have put := kept.resolve_left (not_not.2 listed)
      rw [wrote.inside w hw, if_neg fun h => by simp [put] at h]
    · exact wrote.outside a listed

/-- Bytes placed in the destination `dst`, place by place. -/
theorem byte_of_placedBytes {c : Command} {e : CopyEntry} {x : Taken} {s u : State} {sel : Nat → Bool} {dst : List Int}
    (goes : destBytes c e x.dims x.dests = dst) (wrote : Wrote s u (placedBytes s c e x) sel) :
    (dst = [] → u.mem = s.mem) ∧ (∀ a, a ∉ dst.map (s.warmKey s.partNo) → u.byte a = s.byte a) ∧
      ∀ i, i < dst.length → let k := s.warmKey s.partNo (dst.getD i 0)
        u.byte k = if sel (k / 8) = true ∧ (s.pkgAt (keyPkg k)).failed = false then stagedAt s c e x i else s.byte k := by
  subst goes
  refine ⟨fun empty => wrote.silent ?_, fun a ha => wrote.outside a (by rwa [map_fst_placedBytes]), fun i hi => ?_⟩
  · rw [placedBytes, empty]
    rfl
  · exact wrote.inside (_, stagedAt s c e x i) (List.mem_map.2 ⟨i, List.mem_range.2 hi, rfl⟩)

/-- The one entry due has not begun and nothing has touched it; no mirror takes up what it writes. -/
structure FreshEntry (x : Taken) (s : State) : Prop extends DueEntry x s where
  alive : x.killed = false
  whole : x.flip = none
  begun : x.begun = none
  put : x.put = []
  later : s.core.str.carryNo < x.no
  plain : ∀ k, mirrorIn k s.part.regions = none

section
variable {c : Command} {e : CopyEntry} {x : Taken} {s : State} (fresh : FreshEntry x s) (entry : entryOf x.cmd = some (c, e))
  (moves : movesBytes c = true)
include fresh entry moves

theorem fresh_entry_meets_bad_source (unowned : ∀ k, (s.pkgAt k).memprot = 0)
    (bad : ∃ a ∈ sourceBytes c e x.dims, s.badAt (s.warmKey s.partNo a) 1 = true) : HaltsOnly s 9 := by
  obtain ⟨line, done⟩ := perform_of_bad_source entry moves fresh.alive rfl fresh.begun bad
  obtain ⟨core, mem⟩ := meetBad_of_unowned unowned line
  obtain ⟨t, run, halt, stat, seq, mem'⟩ := exec_entryComplete_halts fresh.toDueEntry (by rw [entry]; exact Option.some_ne_none _) done
    (by rw [core]) (by rw [core]) (by decide)
  exact ⟨t, run, halt, stat, seq, mem'.trans mem⟩

variable {src dst : List Int} (reads : sourceBytes c e x.dims = src) (goes : destBytes c e x.dims x.dests = dst)
  (good : ∀ a ∈ src, s.badAt (s.warmKey s.partNo a) 1 = false) (apart : ∀ a ∈ dst, a ∉ src)
  (distinct : (dst.map (s.warmKey s.partNo)).Nodup)
include reads goes good apart distinct

theorem fresh_entry_performs (stands : ∀ a ∈ dst, (s.pkgAt (keyPkg (s.warmKey s.partNo a))).failed = false) :
    ∃ u, s.perform x = some (checkStatus c e (checksum s x e (stagedBytes s c e x)), checkResult c (checksum s x e (stagedBytes s c e x)), u) ∧
      Wrote s u (placedBytes s c e x) fun dw => !x.put.contains dw := by
  subst reads goes
  rw [← map_fst_placedBytes] at distinct
  refine perform_of_homes entry moves fresh.alive (entryWrites_of_apart entry fresh.begun fresh.whole apart) (fun _ => good) fresh.plain
    distinct fun w hw => ?_
  obtain ⟨a, ha, here⟩ := List.mem_map.1 (map_fst_placedBytes ▸ List.mem_map_of_mem hw : w.1 ∈ List.map (s.warmKey s.partNo) _)
  rw [← here]
  exact stands a ha

/-- An entry whose homes stand and whose check passes is counted, each place of its destination holding what was staged for it. -/
theorem fresh_entry_completes (stands : ∀ a ∈ dst, (s.pkgAt (keyPkg (s.warmKey s.partNo a))).failed = false)
    (agrees : sumsOf c = true → checkOf e = false ∨ checksum s x e (stagedBytes s c e x) = e.expect) :
    ∃ t, exec .entryComplete s = .next t ∧ Counted s t ∧ (sumsOf c = true → t.core.str.carry = checksum s x e (stagedBytes s c e x)) ∧
      (dst = [] → t.mem = s.mem) ∧ (∀ i, i < dst.length → t.byte (s.warmKey s.partNo (dst.getD i 0)) = stagedAt s c e x i) ∧
      ∀ a, a ∉ dst.map (s.warmKey s.partNo) → t.byte a = s.byte a := by
  obtain ⟨u, done, wrote⟩ := fresh_entry_performs fresh entry moves reads goes good apart distinct stands
  obtain ⟨t, run, counts⟩ := exec_entryComplete_counts fresh.toDueEntry (by rw [entry]; exact Option.some_ne_none _) done (by rw [wrote.core])
    (by rw [wrote.core]) (checkStatus_of_agrees agrees)
  obtain ⟨silent, outside, inside⟩ := byte_of_placedBytes goes wrote
  have bytes (a : Nat) : t.byte a = u.byte a := congrArg (fun m => Sp.get Memory.unwritten m a) counts.mem
  refine ⟨t, run, counted_of_counts fresh.toDueEntry counts wrote.core, fun sums => ?_, fun empty => counts.mem.trans (silent empty),
    fun i hi => ?_, fun a ha => (bytes a).trans (outside a ha)⟩
  · rw [counts.carry, checkResult, if_pos sums, wrote.core, Str.setCarry, if_pos fresh.later]
  · have here : dst.getD i 0 ∈ dst := by
      rw [List.getD_eq_getElem _ _ hi]
      exact List.getElem_mem _
    rw [bytes, inside i hi, if_pos ⟨by rw [fresh.put]; rfl, stands _ here⟩]

/-- An entry whose check fails halts the string with status 5 (R322). -/
theorem fresh_entry_fails_check (stands : ∀ a ∈ dst, (s.pkgAt (keyPkg (s.warmKey s.partNo a))).failed = false) (sums : sumsOf c = true)
    (checks : checkOf e = true) (differs : checksum s x e (stagedBytes s c e x) ≠ e.expect) (empty : dst = []) : HaltsOnly s 5 := by
  obtain ⟨u, done, wrote⟩ := fresh_entry_performs fresh entry moves reads goes good apart distinct stands
  have status : checkStatus c e (checksum s x e (stagedBytes s c e x)) = 5 := by
    unfold checkStatus
    rw [if_pos sums, if_pos ⟨checks, differs⟩]
  rw [status] at done
  obtain ⟨t, run, halt, stat, seq, mem⟩ := exec_entryComplete_halts fresh.toDueEntry (by rw [entry]; exact Option.some_ne_none _) done
    (by rw [wrote.core]) (by rw [wrote.core]) (by decide)
  exact ⟨t, run, halt, stat, seq, mem.trans ((byte_of_placedBytes goes wrote).1 empty)⟩

/-- An entry that finds a home failed halts the string with status 9, and each place it has elsewhere is old or new (R317, R442). -/
theorem fresh_entry_loses_home (lost : ∃ a ∈ dst, (s.pkgAt (keyPkg (s.warmKey s.partNo a))).failed = true) :
    ∃ t, exec .entryComplete s = .next t ∧ t.core.str.halt = true ∧ t.core.str.stat = 9 ∧ t.core.str.seq = s.core.str.seq ∧
      (∀ i, i < dst.length → let k := s.warmKey s.partNo (dst.getD i 0)
        t.byte k = s.byte k ∨ t.byte k = stagedAt s c e x i) ∧
      ∀ a, a ∉ dst.map (s.warmKey s.partNo) → t.byte a = s.byte a := by
  have gone : ∃ w ∈ placedBytes s c e x, (s.pkgAt (keyPkg w.1)).failed = true := by
    obtain ⟨a, ha, failed⟩ := lost
    have listed : s.warmKey s.partNo a ∈ (placedBytes s c e x).map (·.1) := by
      rw [map_fst_placedBytes, goes]
      exact List.mem_map_of_mem ha
    obtain ⟨w, hw, here⟩ := List.mem_map.1 listed
    exact ⟨w, hw, by rw [here]; exact failed⟩
  obtain ⟨u, sel, done, wrote⟩ := perform_of_lost_home entry moves fresh.alive
    (entryWrites_of_apart entry fresh.begun fresh.whole (by rw [reads, goes]; exact apart)) (fun _ => by rw [reads]; exact good) fresh.plain
    (by rw [map_fst_placedBytes, goes]; exact distinct) gone
  obtain ⟨t, run, halt, stat, seq, mem⟩ := exec_entryComplete_halts fresh.toDueEntry (by rw [entry]; exact Option.some_ne_none _) done
    (by rw [wrote.core]) (by rw [wrote.core]) (by decide)
  obtain ⟨-, outside, inside⟩ := byte_of_placedBytes goes wrote
  have bytes (a : Nat) : t.byte a = u.byte a := congrArg (fun m => Sp.get Memory.unwritten m a) mem
  refine ⟨t, run, halt, stat, seq, fun i hi => ?_, fun a ha => (bytes a).trans (outside a ha)⟩
  dsimp only
  rw [bytes, inside i hi]
  split_ifs
  · exact .inr rfl
  · exact .inl rfl

end

end Sys2Proof.Proofs
end

section
/-! # O43: `copy`, `fill`, `signal`, `cksum`, `copys`, `bcast` (R100, R318, R319, R322, R444) -/

namespace Sys2Proof.Proofs

open Sys2Proof.Machine Sys2Proof.Laws

/-! ## Spans of bytes -/

/-- The addresses of the `n` bytes from handle `h` on. -/
def spanFrom (h : Word) (n : Nat) : List Int := (List.range n).map fun (i : Nat) => (h.toNat : Int) + (i : Int)

theorem mem_spanFrom {h : Word} {n : Nat} {a : Int} : a ∈ spanFrom h n ↔ ∃ i : Nat, i < n ∧ a = (h.toNat : Int) + i := by
  simp only [spanFrom, List.mem_map, List.mem_range, eq_comm]

theorem length_spanFrom (h : Word) (n : Nat) : (spanFrom h n).length = n := by simp [spanFrom]

theorem getD_spanFrom {h : Word} {n i : Nat} (hi : i < n) : (spanFrom h n).getD i 0 = (h.toNat : Int) + i := by
  simp [spanFrom, hi]

/-- The `n` bytes at handle `h` lie in one region of memory, from home `k` on. -/
def AtHome (s : State) (h : Word) (n k : Nat) : Prop := regionIdx h ≠ 0xFFF ∧ ∃ r, s.locate s.partNo h n = some (r, k)

section
variable {s : State} {h : Word} {n k : Nat} (home : AtHome s h n k)
include home

theorem AtHome.key {i : Nat} (hi : i < n) : s.warmKey s.partNo ((h.toNat : Int) + i) = k + i := by
  obtain ⟨memory, r, place⟩ := home
  exact warmKey_add place memory hi

theorem AtHome.keys : (spanFrom h n).map (s.warmKey s.partNo) = (List.range n).map (k + ·) := by
  rw [spanFrom, List.map_map]
  exact List.map_congr_left fun i hi => home.key (List.mem_range.1 hi)

theorem AtHome.forall_key {p : Nat → Prop} (all : ∀ i, i < n → p (k + i)) : ∀ a ∈ spanFrom h n, p (s.warmKey s.partNo a) := by
  intro a ha
  obtain ⟨i, hi, rfl⟩ := mem_spanFrom.1 ha
  rw [home.key hi]
  exact all i hi

theorem AtHome.bytes : ((spanFrom h n).map fun a => s.byte (s.warmKey s.partNo a)) = (List.range n).map fun i => s.byte (k + i) := by
  have read := congrArg (List.map s.byte) home.keys
  rwa [List.map_map, List.map_map] at read

theorem AtHome.readable (good : ∀ i, i < n → s.badAt (k + i) 1 = false) : ∀ a ∈ spanFrom h n, s.badAt (s.warmKey s.partNo a) 1 = false :=
  home.forall_key (p := fun key => s.badAt key 1 = false) good

theorem AtHome.stands (up : ∀ i, i < n → (s.pkgAt (keyPkg (k + i))).failed = false) :
    ∀ a ∈ spanFrom h n, (s.pkgAt (keyPkg (s.warmKey s.partNo a))).failed = false :=
  home.forall_key (p := fun key => (s.pkgAt (keyPkg key)).failed = false) up

end

/-- Of spans one of which ends before the other begins no byte lies in both. -/
theorem spanFrom_apart {src dst : Word} {n : Nat} (apart : src.toNat + n ≤ dst.toNat ∨ dst.toNat + n ≤ src.toNat) :
    ∀ a ∈ spanFrom dst n, a ∉ spanFrom src n := by
  intro a ha hb
  obtain ⟨i, hi, rfl⟩ := mem_spanFrom.1 ha
  obtain ⟨j, hj, same⟩ := mem_spanFrom.1 hb
  omega

/-! ## What is staged -/

theorem stagedAt_of_lt {s : State} {c : Command} {e : CopyEntry} {x : Taken} {i : Nat} (hi : i < (stagedBytes s c e x).length) :
    stagedAt s c e x i = (stagedBytes s c e x).getD i 0 := by
  rw [stagedAt, max_eq_left (by omega), Nat.mod_eq_of_lt hi]

theorem checksum_only {x : Taken} {s : State} (one : DueEntry x s) (e : CopyEntry) (staged : List Byte) : checksum s x e staged =
    fletcher (if chainOf e then (if x.base < s.core.str.sumNo ∧ s.core.str.sumNo < x.no then s.core.str.sum else 0) else e.seed) staged := by
  rw [checksum, seedOf_only one.only]

section
variable {c : Command} {e : CopyEntry} {x : Taken} {s : State} (fresh : FreshEntry x s) (entry : entryOf x.cmd = some (c, e))
  (moves : movesBytes c = true) {src : List Int} (reads : sourceBytes c e x.dims = src) {h : Word} {n kd : Nat}
  (goes : destBytes c e x.dims x.dests = spanFrom h n) (home : AtHome s h n kd)
  (good : ∀ a ∈ src, s.badAt (s.warmKey s.partNo a) 1 = false) (apart : ∀ a ∈ spanFrom h n, a ∉ src)
include fresh entry moves reads goes home good apart

theorem fresh_entry_completes_span (stands : ∀ i, i < n → (s.pkgAt (keyPkg (kd + i))).failed = false)
    (agrees : sumsOf c = true → checkOf e = false ∨ checksum s x e (stagedBytes s c e x) = e.expect) :
    ∃ t, exec .entryComplete s = .next t ∧ Counted s t ∧ (sumsOf c = true → t.core.str.carry = checksum s x e (stagedBytes s c e x)) ∧
      (∀ i, i < n → t.byte (kd + i) = stagedAt s c e x i) ∧ ∀ a, a < kd ∨ kd + n ≤ a → t.byte a = s.byte a := by
  obtain ⟨t, run, counted, carry, -, inside, outside⟩ := fresh_entry_completes fresh entry moves reads goes good apart
    (by rw [home.keys]; exact nodup_range_add kd n) (home.stands stands) agrees
  refine ⟨t, run, counted, carry, fun i hi => ?_, fun a away => outside a ?_⟩
  · rw [← inside i (by rwa [length_spanFrom]), getD_spanFrom hi, home.key hi]
  · rw [home.keys, mem_range_add]
    omega

theorem fresh_entry_loses_span (lost : ∃ i, i < n ∧ (s.pkgAt (keyPkg (kd + i))).failed = true) :
    ∃ t, exec .entryComplete s = .next t ∧ t.core.str.halt = true ∧ t.core.str.stat = 9 ∧ t.core.str.seq = s.core.str.seq ∧
      (∀ i, i < n → t.byte (kd + i) = s.byte (kd + i) ∨ t.byte (kd + i) = stagedAt s c e x i) ∧
      ∀ a, a < kd ∨ kd + n ≤ a → t.byte a = s.byte a := by
  obtain ⟨j, hj, failed⟩ := lost
  obtain ⟨t, run, halt, stat, seq, inside, outside⟩ := fresh_entry_loses_home fresh entry moves reads goes good apart
    (by rw [home.keys]; exact nodup_range_add kd n) ⟨_, mem_spanFrom.2 ⟨j, hj, rfl⟩, by rw [home.key hj]; exact failed⟩
  refine ⟨t, run, halt, stat, seq, fun i hi => ?_, fun a away => outside a ?_⟩
  · have place := inside i (by rwa [length_spanFrom])
    rwa [getD_spanFrom hi, home.key hi] at place
  · rw [home.keys, mem_range_add]
    omega

end

/-! ## Commands with one destination, and `cksum` (R318, R322) -/

section
variable {e : CopyEntry} {x : Taken} {s : State} {ks kd : Nat}

/-- The checksum of the one entry due over the `e.len` bytes from home `ks` on. -/
def sumFrom (s : State) (x : Taken) (e : CopyEntry) (ks : Nat) : BitVec 32 :=
  fletcher (if chainOf e then (if x.base < s.core.str.sumNo ∧ s.core.str.sumNo < x.no then s.core.str.sum else 0) else e.seed)
    ((List.range e.len.toNat).map fun i => s.byte (ks + i))

theorem stagedAt_copy (source : AtHome s e.src e.len.toNat ks) {i : Nat} (hi : i < e.len.toNat) :
    stagedAt s .copy e x i = s.byte (ks + i) := by
  have staged : stagedBytes s .copy e x = (List.range e.len.toNat).map fun i => s.byte (ks + i) := source.bytes
  rw [stagedAt_of_lt (by rw [staged]; simpa using hi), staged]
  simp [hi]

theorem checksum_over_source {c : Command} (one : DueEntry x s) (source : AtHome s e.src e.len.toNat ks)
    (reads : stagedBytes s c e x = (spanFrom e.src e.len.toNat).map fun a => s.byte (s.warmKey s.partNo a)) :
    checksum s x e (stagedBytes s c e x) = sumFrom s x e ks := by
  rw [checksum_only one, reads, source.bytes]
  rfl

variable (fresh : FreshEntry x s)
include fresh

theorem copy_meets_bad_source (copy : x.cmd = .copy e) (unowned : ∀ k, (s.pkgAt k).memprot = 0) (source : AtHome s e.src e.len.toNat ks)
    (bad : ∃ i, i < e.len.toNat ∧ s.badAt (ks + i) 1 = true) : HaltsOnly s 9 := by
  obtain ⟨i, hi, bad⟩ := bad
  exact fresh_entry_meets_bad_source fresh (congrArg entryOf copy) rfl unowned
    ⟨_, mem_spanFrom.2 ⟨i, hi, rfl⟩, by rw [source.key hi]; exact bad⟩

section
variable (copy : x.cmd = .copy e) (source : AtHome s e.src e.len.toNat ks) (good : ∀ i, i < e.len.toNat → s.badAt (ks + i) 1 = false)
  (apart : e.src.toNat + e.len.toNat ≤ e.dst.toNat ∨ e.dst.toNat + e.len.toNat ≤ e.src.toNat) (home : AtHome s e.dst e.len.toNat kd)
include copy source good apart home

theorem copy_loses_home (lost : ∃ i, i < e.len.toNat ∧ (s.pkgAt (keyPkg (kd + i))).failed = true) :
    ∃ t, exec .entryComplete s = .next t ∧ t.core.str.halt = true ∧ t.core.str.stat = 9 ∧ t.core.str.seq = s.core.str.seq ∧
      (∀ i, i < e.len.toNat → t.byte (kd + i) = s.byte (kd + i) ∨ t.byte (kd + i) = s.byte (ks + i)) ∧
      ∀ a, a < kd ∨ kd + e.len.toNat ≤ a → t.byte a = s.byte a := by
  obtain ⟨t, run, halt, stat, seq, inside, outside⟩ := fresh_entry_loses_span fresh (congrArg entryOf copy) rfl rfl rfl home
    (source.readable good) (spanFrom_apart apart) lost
  exact ⟨t, run, halt, stat, seq, fun i hi => by rw [← stagedAt_copy source hi]; exact inside i hi, outside⟩

theorem copy_completes (stands : ∀ i, i < e.len.toNat → (s.pkgAt (keyPkg (kd + i))).failed = false)
    (agrees : checkOf e = false ∨ sumFrom s x e ks = e.expect) : ∃ t, exec .entryComplete s = .next t ∧ Counted s t ∧
      t.core.str.carry = sumFrom s x e ks ∧ (∀ i, i < e.len.toNat → t.byte (kd + i) = s.byte (ks + i)) ∧
      ∀ a, a < kd ∨ kd + e.len.toNat ≤ a → t.byte a = s.byte a := by
  have sum : checksum s x e (stagedBytes s .copy e x) = sumFrom s x e ks := checksum_over_source fresh.toDueEntry source rfl
  obtain ⟨t, run, counted, carry, inside, outside⟩ := fresh_entry_completes_span fresh (congrArg entryOf copy) rfl rfl rfl home
    (source.readable good) (spanFrom_apart apart) stands fun _ => by rw [sum]; exact agrees
  exact ⟨t, run, counted, (carry rfl).trans sum, fun i hi => (inside i hi).trans (stagedAt_copy source hi), outside⟩

end

theorem fill_completes (fill : x.cmd = .fill e) (home : AtHome s e.dst e.len.toNat kd)
    (stands : ∀ i, i < e.len.toNat → (s.pkgAt (keyPkg (kd + i))).failed = false) : ∃ t, exec .entryComplete s = .next t ∧ Counted s t ∧
      (∀ i, i < e.len.toNat → t.byte (kd + i) = e.aux.extractLsb' (8 * (i % 8)) 8) ∧
      ∀ a, a < kd ∨ kd + e.len.toNat ≤ a → t.byte a = s.byte a := by
  obtain ⟨t, run, counted, -, inside, outside⟩ := fresh_entry_completes_span fresh (congrArg entryOf fill) rfl rfl rfl home
    (fun a ha => absurd ha List.not_mem_nil) (fun a _ => List.not_mem_nil) stands fun sums => by cases sums
  refine ⟨t, run, counted, fun i hi => ?_, outside⟩
  rw [inside i hi, stagedAt_of_lt (by simpa [stagedBytes] using hi)]
  simp [stagedBytes, hi]

theorem signal_completes (signal : x.cmd = .signal e) (home : AtHome s e.dst 8 kd)
    (stands : ∀ i, i < 8 → (s.pkgAt (keyPkg (kd + i))).failed = false) : ∃ t, exec .entryComplete s = .next t ∧ Counted s t ∧
      (∀ i, i < 8 → t.byte (kd + i) = e.aux.extractLsb' (8 * i) 8) ∧ ∀ a, a < kd ∨ kd + 8 ≤ a → t.byte a = s.byte a := by
  obtain ⟨t, run, counted, -, inside, outside⟩ := fresh_entry_completes_span fresh (congrArg entryOf signal) rfl rfl rfl home
    (fun a ha => absurd ha List.not_mem_nil) (fun a _ => List.not_mem_nil) stands fun sums => by cases sums
  refine ⟨t, run, counted, fun i hi => ?_, outside⟩
  rw [inside i hi, stagedAt_of_lt (by rw [stagedBytes, leBytes_length]; exact hi)]
  exact (leBytes_getD hi _).trans (ofNat_div_pow_eq_extractLsb' ..)

section
variable (cksum : x.cmd = .cksum e) (source : AtHome s e.src e.len.toNat ks) (good : ∀ i, i < e.len.toNat → s.badAt (ks + i) 1 = false)
include cksum source good

theorem cksum_completes (agrees : checkOf e = false ∨ sumFrom s x e ks = e.expect) : ∃ t, exec .entryComplete s = .next t ∧ Counted s t ∧
    t.core.str.carry = sumFrom s x e ks ∧ t.mem = s.mem := by
  have sum : checksum s x e (stagedBytes s .cksum e x) = sumFrom s x e ks := checksum_over_source fresh.toDueEntry source rfl
  obtain ⟨t, run, counted, carry, mem, -⟩ := fresh_entry_completes fresh (congrArg entryOf cksum) rfl rfl rfl (source.readable good)
    (fun a ha => absurd ha List.not_mem_nil) List.nodup_nil (fun a ha => absurd ha List.not_mem_nil) fun _ => by rw [sum]; exact agrees
  exact ⟨t, run, counted, (carry rfl).trans sum, mem rfl⟩

theorem cksum_halts (checks : checkOf e = true) (differs : sumFrom s x e ks ≠ e.expect) : HaltsOnly s 5 :=
  fresh_entry_fails_check fresh (congrArg entryOf cksum) rfl rfl rfl (source.readable good) (fun a ha => absurd ha List.not_mem_nil)
    List.nodup_nil (fun a ha => absurd ha List.not_mem_nil) rfl checks (by rw [checksum_over_source fresh.toDueEntry source rfl]; exact differs) rfl

end

end

end Sys2Proof.Proofs
end

section
/-! # O43: dim tables and Fletcher-32 (R100, R319) -/

namespace Sys2Proof.Laws

open Sys2Proof.Machine

/-! ## Lists of groups of one length -/

section
variable {α β : Type} {g : α → List β} {n : Nat} (one : ∀ a, (g a).length = n)
include one

theorem length_flatMap_of_length (l : List α) : (l.flatMap g).length = l.length * n := by
  rw [List.length_flatMap, List.map_congr_left fun a _ => one a, List.map_const', List.sum_replicate, smul_eq_mul]

/-- Place `j` of group `k`. -/
theorem getD_flatMap_of_length (z : β) {l : List α} {k j : Nat} {a : α} (group : l[k]? = some a) (hj : j < n) :
    (l.flatMap g).getD (k * n + j) z = (g a).getD j z := by
  induction l generalizing k with
  | nil => cases group
  | cons b rest ih =>
    rw [List.flatMap_cons]
    cases k with
    | zero =>
      obtain rfl := Option.some.inj group
      rw [Nat.zero_mul, Nat.zero_add, List.getD_append _ _ _ _ (by rwa [one])]
    | succ k =>
      rw [List.getD_append_right _ _ _ _ (by rw [one, Nat.succ_mul]; omega), one, ← ih (k := k) group]
      congr 1
      rw [Nat.succ_mul]
      omega

end

/-! ## Dim tables (R319) -/

theorem dimOffsets_cons (n : Nat) (f t : Int) (rest : List (Nat × Int × Int)) (first : Bool) : dimOffsets ((n, f, t) :: rest) first =
    (dimOffsets rest false).flatMap fun o => (List.range n).map fun (i : Nat) =>
      if first then (o.1 + (i : Int), o.2 + (i : Int)) else (o.1 + (i : Int) * f, o.2 + (i : Int) * t) := rfl

theorem dimOffsets_one (m : Nat) (f t : Int) : dimOffsets [(m, f, t)] false = (List.range m).map fun (j : Nat) => ((j : Int) * f, (j : Int) * t) := by
  simp [dimOffsets]

/-- The first index runs fastest. -/
theorem dimOffsets_two (n m : Nat) (f t : Int) : (dimOffsets [(n, 0, 0), (m, f, t)] true).length = n * m ∧
    ∀ i j : Nat, i < n → j < m → (dimOffsets [(n, 0, 0), (m, f, t)] true).getD (j * n + i) (0, 0) = (i + j * f, i + j * t) := by
  rw [dimOffsets_cons, dimOffsets_one]
  refine ⟨?_, fun i j hi hj => ?_⟩
  · rw [length_flatMap_of_length (n := n) fun o => by simp, List.length_map, List.length_range, Nat.mul_comm]
  · rw [getD_flatMap_of_length (n := n) (fun o => by simp) (0, 0) (a := ((j : Int) * f, (j : Int) * t)) (by simp [hj]) hi]
    simp [hi, add_comm]

/-! ## Fletcher-32 (R100) -/

theorem fletcherSums_append (x : Nat × Nat) {a : List Byte} (even : a.length % 2 = 0) (b : List Byte) :
    fletcherSums x (a ++ b) = fletcherSums (fletcherSums x a) b := by
  induction x, a using fletcherSums.induct with
  | case1 x => rfl
  | case2 x c => simp at even
  | case3 x c d rest ih =>
    simp only [List.length_cons] at even
    exact ih (by omega)

/-- Both sums stay below 65535. -/
theorem fletcherSums_lt {x : Nat × Nat} (a : List Byte) (small : x.1 < 65535 ∧ x.2 < 65535) :
    (fletcherSums x a).1 < 65535 ∧ (fletcherSums x a).2 < 65535 := by
  have word (y : Nat × Nat) (w : Nat) : (fletcherWord y w).1 < 65535 ∧ (fletcherWord y w).2 < 65535 :=
    ⟨Nat.mod_lt _ (by decide), Nat.mod_lt _ (by decide)⟩
  induction x, a using fletcherSums.induct with
  | case1 x => exact small
  | case2 x c => exact word ..
  | case3 x c d rest ih => exact ih (word ..)

/-- The sums a seed begins with. -/
def fletcherStart (seed : BitVec 32) : Nat × Nat := (seed.toNat % 65536 % 65535, seed.toNat / 65536 % 65535)

theorem fletcherStart_lt (seed : BitVec 32) : (fletcherStart seed).1 < 65535 ∧ (fletcherStart seed).2 < 65535 :=
  ⟨Nat.mod_lt _ (by decide), Nat.mod_lt _ (by decide)⟩

/-- A result taken as a seed goes on from its own sums. -/
theorem fletcherStart_fletcher (seed : BitVec 32) (a : List Byte) : fletcherStart (fletcher seed a) = fletcherSums (fletcherStart seed) a := by
  obtain ⟨low, high⟩ := fletcherSums_lt a (fletcherStart_lt seed)
  have value : (fletcher seed a).toNat = (fletcherSums (fletcherStart seed) a).2 * 65536 + (fletcherSums (fletcherStart seed) a).1 := by
    refine (BitVec.toNat_ofNat ..).trans (Nat.mod_eq_of_lt ?_)
    unfold fletcherStart at low high
    omega
  rw [fletcherStart, value]
  refine Prod.ext ?_ ?_
  all_goals
    dsimp only
    omega

theorem fletcher_append (seed : BitVec 32) {a : List Byte} (even : a.length % 2 = 0) (b : List Byte) :
    fletcher seed (a ++ b) = fletcher (fletcher seed a) b := by
  have sums : fletcherSums (fletcherStart seed) (a ++ b) = fletcherSums (fletcherStart (fletcher seed a)) b := by
    rw [fletcherSums_append _ even, fletcherStart_fletcher]
  exact congrArg (fun x : Nat × Nat => BitVec.ofNat 32 (x.2 * 65536 + x.1)) sums

theorem fletcher_odd (seed : BitVec 32) {a : List Byte} (even : a.length % 2 = 0) (x : Byte) :
    fletcher seed (a ++ [x]) = fletcher seed (a ++ [x, 0]) := by
  rw [fletcher_append seed even, fletcher_append seed even]
  rfl

end Sys2Proof.Laws
end

section
/-! # O43: strided and spread copies, and the statement (R318, R319, R444) -/

namespace Sys2Proof.Proofs

open Sys2Proof.Machine Sys2Proof.Laws

section
variable {e : CopyEntry} {x : Taken} {s : State}

/-- A strided copy pairs its bytes in the order of the dim table. -/
theorem stagedAt_copys {i : Nat} (hi : i < (destBytes .copys e x.dims x.dests).length) :
    stagedAt s .copys e x i = s.byte (s.warmKey s.partNo ((sourceBytes .copys e x.dims).getD i 0)) := by
  have inside : i < (sourceBytes .copys e x.dims).length := by simpa [sourceBytes, destBytes] using hi
  have staged : stagedBytes s .copys e x = (sourceBytes .copys e x.dims).map fun a => s.byte (s.warmKey s.partNo a) := rfl
  rw [stagedAt_of_lt (by rw [staged]; simpa using inside), staged, List.getD_eq_getElem _ _ (by simpa using inside), List.getElem_map,
    List.getD_eq_getElem _ _ inside]

/-- Byte `i` of receiver `k` of a spread copy. -/
theorem bcast_place {k i : Nat} {d : Word} (receiver : x.dests[k]? = some d) (hi : i < e.len.toNat) :
    let dst := destBytes .bcast e x.dims x.dests
    k * e.len.toNat + i < dst.length ∧ dst.getD (k * e.len.toNat + i) 0 = (d.toNat : Int) + i ∧
      stagedAt s .bcast e x (k * e.len.toNat + i) = s.byte (s.warmKey s.partNo ((e.src.toNat : Int) + i)) := by
  have groups : destBytes .bcast e x.dims x.dests = x.dests.flatMap fun d => spanFrom d e.len.toNat := rfl
  have staged : stagedBytes s .bcast e x = (spanFrom e.src e.len.toNat).map fun a => s.byte (s.warmKey s.partNo a) := rfl
  have length : (stagedBytes s .bcast e x).length = e.len.toNat := by rw [staged, List.length_map, length_spanFrom]
  obtain ⟨listed, -⟩ := List.getElem?_eq_some_iff.1 receiver
  refine ⟨?_, ?_, ?_⟩
  · rw [groups, length_flatMap_of_length fun d => length_spanFrom d e.len.toNat]
    calc k * e.len.toNat + i < k * e.len.toNat + e.len.toNat := by omega
      _ = (k + 1) * e.len.toNat := (Nat.succ_mul ..).symm
      _ ≤ x.dests.length * e.len.toNat := Nat.mul_le_mul_right _ listed
  · rw [groups, getD_flatMap_of_length (fun d => length_spanFrom d e.len.toNat) 0 receiver hi, getD_spanFrom hi]
  · rw [stagedAt, length, max_eq_left (by omega), Nat.mul_comm, Nat.mul_add_mod, Nat.mod_eq_of_lt hi, staged]
    simp [spanFrom, hi]

/-- A strided or spread copy moves its bytes place by place; its checksum is over its source in that order (R100). -/
theorem strided_or_spread_completes {c : Command} (fresh : FreshEntry x s) (which : c = .copys ∨ c = .bcast) (command : x.cmd = c.instr e)
    (good : ∀ a ∈ sourceBytes c e x.dims, s.badAt (s.warmKey s.partNo a) 1 = false)
    (apart : ∀ a ∈ destBytes c e x.dims x.dests,
      a ∉ sourceBytes c e x.dims ∧ (s.pkgAt (keyPkg (s.warmKey s.partNo a))).failed = false)
    (distinct : ((destBytes c e x.dims x.dests).map (s.warmKey s.partNo)).Nodup)
    (agrees : checkOf e = false ∨
      fletcher (if chainOf e then (if x.base < s.core.str.sumNo ∧ s.core.str.sumNo < x.no then s.core.str.sum else 0) else e.seed)
        ((sourceBytes c e x.dims).map fun a => s.byte (s.warmKey s.partNo a)) = e.expect) :
    ∃ t, exec .entryComplete s = .next t ∧ Counted s t ∧
      (c = .copys → ∀ i, i < (destBytes c e x.dims x.dests).length → t.byte (s.warmKey s.partNo ((destBytes c e x.dims x.dests).getD i 0)) =
        s.byte (s.warmKey s.partNo ((sourceBytes c e x.dims).getD i 0))) ∧
      (c = .bcast → ∀ d ∈ x.dests, ∀ i : Nat, i < e.len.toNat →
        t.byte (s.warmKey s.partNo ((d.toNat : Int) + i)) = s.byte (s.warmKey s.partNo ((e.src.toNat : Int) + i))) ∧
      ∀ a, a ∉ (destBytes c e x.dims x.dests).map (s.warmKey s.partNo) → t.byte a = s.byte a := by
  have reads : movesBytes c = true ∧ stagedBytes s c e x = (sourceBytes c e x.dims).map fun a => s.byte (s.warmKey s.partNo a) := by
    obtain rfl | rfl := which <;> exact ⟨rfl, rfl⟩
  obtain ⟨moves, staged⟩ := reads
  obtain ⟨t, run, counted, -, -, inside, outside⟩ := fresh_entry_completes fresh (by rw [command, entryOf_instr]) moves rfl rfl good
    (fun a ha => (apart a ha).1) distinct (fun a ha => (apart a ha).2)
    fun _ => by rw [checksum_only fresh.toDueEntry, staged]; exact agrees
  refine ⟨t, run, counted, ?_, ?_, outside⟩
  · rintro rfl i hi
    exact (inside i hi).trans (stagedAt_copys hi)
  · rintro rfl d hd i hi
    obtain ⟨k, receiver⟩ := List.mem_iff_getElem?.1 hd
    obtain ⟨listed, place, value⟩ := bcast_place (s := s) receiver hi
    rw [← place, inside _ listed, value]

end

/-- Settles O43: entries that have begun, then those that have not, command by command, by what they stage and where it goes; entries that
write nothing by what they wait for; dim tables and checksums by their recursion. -/
theorem entriesCompleteAtTheirHomes : Obligations.EntriesCompleteAtTheirHomes := by
  refine ⟨fun e x ks kd s only waits due whole alive runs later plain => ?_, fun e x s only waits due runs => ?_,
    fun n m f t i j hi hj => ⟨(dimOffsets_two n m f t).1, (dimOffsets_two n m f t).2 i j hi hj⟩,
    fun seed a b x => ⟨fun even => fletcher_append seed even b, fun even => fletcher_odd seed even x, rfl⟩⟩
  · have one : DueEntry x s := ⟨only, waits, due, runs⟩
    refine ⟨fun ws staged begun command unchecked apart stands =>
      begun_entry_completes one alive plain begun command unchecked apart stands, fun begun put => ?_⟩
    have fresh : FreshEntry x s := ⟨one, alive, whole, begun, put, later, plain⟩
    refine ⟨fun copy unowned memory place bad => copy_meets_bad_source fresh copy unowned ⟨memory, place⟩ bad,
      fun copy ⟨memory, place, good⟩ apart memory' place' lost =>
        copy_loses_home fresh copy ⟨memory, place⟩ good apart ⟨memory', place'⟩ lost,
      fun c which command good apart _ _ distinct agrees => strided_or_spread_completes fresh which command good apart distinct agrees,
      fun copy ⟨memory, place, good⟩ ⟨memory', place', stands⟩ agrees apart =>
        copy_completes fresh copy ⟨memory, place⟩ good apart ⟨memory', place'⟩ stands agrees,
      fun fill ⟨memory, place, stands⟩ => fill_completes fresh fill ⟨memory, place⟩ stands,
      fun signal ⟨memory, place, stands⟩ => signal_completes fresh signal ⟨memory, place⟩ stands,
      fun cksum ⟨memory, place, good⟩ agrees => cksum_completes fresh cksum ⟨memory, place⟩ good agrees,
      fun cksum ⟨memory, place, good⟩ checks differs => cksum_halts fresh cksum ⟨memory, place⟩ good checks differs⟩
  · have one : DueEntry x s := ⟨only, waits, due, runs⟩
    exact ⟨countsOnly_of_killed one, fun alive => ⟨countsOnly_of_link one alive, mirwait_completes one alive, waitseq_completes one alive,
      tokret_completes one alive⟩⟩

end Sys2Proof.Proofs
end

section
/-! # O60: the canonical form of memory, kept by every step (R325, R330)

A rule for each function over the state, in the order of the model: `↔` where the function does not touch memory, an implication
where it writes. `Canonical` and `CanonicalWord` say the same of an outcome and of what a word performs. -/

namespace Sys2Proof.Proofs

open Sys2Proof.Machine Sys2Proof.Laws

/-- An outcome whose next state, where there is one, has memory in canonical form. -/
def Canonical : Out → Prop
  | .next t => t.Inv
  | .fault _ | .refused _ => True

/-- What becomes of a word leaves memory in canonical form. -/
def CanonicalWord : Perform → Prop
  | .done t | .jump t _ | .start t _ | .hold t => t.Inv
  | .trap _ _ => True

@[simp] theorem canonical_next (t : State) : Canonical (.next t) ↔ t.Inv := Iff.rfl
@[simp] theorem canonicalWord_done (t : State) : CanonicalWord (.done t) ↔ t.Inv := Iff.rfl
@[simp] theorem canonicalWord_jump (t : State) (a : Word) : CanonicalWord (.jump t a) ↔ t.Inv := Iff.rfl
@[simp] theorem canonicalWord_start (t : State) (w : Wait) : CanonicalWord (.start t w) ↔ t.Inv := Iff.rfl
@[simp] theorem canonicalWord_hold (t : State) : CanonicalWord (.hold t) ↔ t.Inv := Iff.rfl
@[simp] theorem canonicalWord_trap (code : Nat) (addr : Word) : CanonicalWord (.trap code addr) := trivial

theorem inv_iff (s : State) : s.Inv ↔ Sp.wf Memory.unwritten s.mem = true := Iff.rfl
@[simp] theorem wf_mem (s : State) : Sp.wf 0#8 s.mem = true ↔ s.Inv := Iff.rfl
@[simp] theorem inv_mk (clock cur : Nat) (lane : Lane) (agenda : List Action) (inputs : List (Nat × Instr)) (drawn : Nat) (mem : List Host.Cell)
    (bad badDc : List Nat) (owners : Sp Nat) (cores : Sp Core) (dies : Sp Die) (pkgs : Sp Pkg) (parts : Sp Part) :
    State.Inv ⟨clock, cur, lane, agenda, inputs, drawn, mem, bad, badDc, owners, cores, dies, pkgs, parts⟩ ↔ Sp.wf Memory.unwritten mem = true := Iff.rfl
@[simp] theorem inv_modCoreAt_iff (s : State) (k : Nat) (f : Core → Core) : (s.modCoreAt k f).Inv ↔ s.Inv := Iff.rfl
@[simp] theorem inv_modCore_iff (s : State) (f : Core → Core) : (s.modCore f).Inv ↔ s.Inv := Iff.rfl
@[simp] theorem inv_modCl_iff (s : State) (f : Cluster → Cluster) : (s.modCl f).Inv ↔ s.Inv := Iff.rfl
@[simp] theorem inv_modDieAt_iff (s : State) (k : Nat) (f : Die → Die) : (s.modDieAt k f).Inv ↔ s.Inv := Iff.rfl
@[simp] theorem inv_modPkgAt_iff (s : State) (k : Nat) (f : Pkg → Pkg) : (s.modPkgAt k f).Inv ↔ s.Inv := Iff.rfl
@[simp] theorem inv_modPartAt_iff (s : State) (k : Nat) (f : Part → Part) : (s.modPartAt k f).Inv ↔ s.Inv := Iff.rfl
@[simp] theorem inv_draw (s : State) (n : Nat) : (s.draw n).2.Inv ↔ s.Inv := Iff.rfl
@[simp] theorem inv_choose (s : State) : s.choose.2.Inv ↔ s.Inv := Iff.rfl
@[simp] theorem inv_logDie_iff (s : State) (d : Nat) (e : MemError) (m : Bool) : (s.logDie d e m).Inv ↔ s.Inv := by
  rw [inv_iff, logDie_mem, inv_iff]
@[simp] theorem inv_logIo (s : State) (p : Nat) (e : MemError) : (s.logIo p e).Inv ↔ s.Inv := by
  rw [inv_iff, logIo_mem, inv_iff]

@[simp] theorem inv_notify_iff (s : State) (p : Nat) (n : Notice) : (s.notify p n).Inv ↔ s.Inv := Iff.rfl
@[simp] theorem inv_dropLines_iff (s : State) (sel : Line → Bool) : (s.dropLines sel).Inv ↔ s.Inv := Iff.rfl
@[simp] theorem inv_putLine_iff (s : State) (l : Line) : (s.putLine l).Inv ↔ s.Inv := Iff.rfl
@[simp] theorem inv_awaitMirror_iff (s : State) (k w : Nat) (j : Bool) : (s.awaitMirror k w j).Inv ↔ s.Inv := by
  unfold State.awaitMirror; split <;> rfl

theorem inv_ite {c : Prop} [Decidable c] {t u : State} (ht : t.Inv) (hu : u.Inv) : (if c then t else u).Inv := by
  split
  · exact ht
  · exact hu

/-- A fold of steps none of which touches memory. -/
theorem inv_foldl_iff {α : Type} {f : State → α → State} (h : ∀ s a, (f s a).Inv ↔ s.Inv) (l : List α) {s : State} :
    (l.foldl f s).Inv ↔ s.Inv := by
  induction l generalizing s with
  | nil => rfl
  | cons a rest ih => exact ih.trans (h s a)

theorem canonical_ite {c : Prop} [Decidable c] {o p : Out} (ho : Canonical o) (hp : Canonical p) : Canonical (if c then o else p) := by
  split
  · exact ho
  · exact hp

theorem canonicalWord_ite {c : Prop} [Decidable c] {o p : Perform} (ho : CanonicalWord o) (hp : CanonicalWord p) :
    CanonicalWord (if c then o else p) := by
  split
  · exact ho
  · exact hp

theorem inv_of_canonical {o : Out} {t : State} (ho : Canonical o) (h : o = .next t) : t.Inv := by
  subst h
  exact ho

@[simp] theorem inv_writeG {s : State} (d : BitVec 5) (v : Word) (latency : Nat) : (s.writeG d v latency).Inv ↔ s.Inv := Iff.rfl
@[simp] theorem inv_writeP {s : State} (d : BitVec 2) (v : Bool) : (s.writeP d v).Inv ↔ s.Inv := Iff.rfl
@[simp] theorem inv_writeC {s : State} (d : BitVec 3) (v : Word32) : (s.writeC d v).Inv ↔ s.Inv := Iff.rfl
@[simp] theorem inv_awaitG {s : State} (d : BitVec 5) : (s.awaitG d).Inv ↔ s.Inv := Iff.rfl
@[simp] theorem inv_ownLine {s : State} (key w : Nat) : (s.ownLine key w).Inv ↔ s.Inv := Iff.rfl
@[simp] theorem inv_walkFor {s : State} (who i : Nat) : (s.walkFor who i).Inv ↔ s.Inv := by
  unfold State.walkFor
  dsimp only
  split <;> rfl

@[simp] theorem inv_walk {s : State} (i : Nat) : (s.walk i).Inv ↔ s.Inv := by simp [State.walk]
@[simp] theorem inv_takeDeps {s : State} (dep : BitVec 4) : (s.takeDeps dep).Inv ↔ s.Inv := Iff.rfl
@[simp] theorem inv_pulse {s : State} (core n : Nat) : (s.pulse core n).Inv ↔ s.Inv := Iff.rfl
@[simp] theorem inv_tokenArrives {s : State} (core : Nat) : (s.tokenArrives core).Inv ↔ s.Inv := Iff.rfl
@[simp] theorem inv_enqueue {s : State} (q : QueueId) (op : QOp) : (s.enqueue q op).Inv ↔ s.Inv := Iff.rfl
@[simp] theorem inv_retire {s : State} (q : QueueId) (seq : Nat) : (s.retire q seq).Inv ↔ s.Inv := Iff.rfl
@[simp] theorem inv_chargeAt {s : State} (core n : Nat) : (s.chargeAt core n).Inv ↔ s.Inv := Iff.rfl
@[simp] theorem inv_charge {s : State} (n : Nat) : (s.charge n).Inv ↔ s.Inv := Iff.rfl
@[simp] theorem inv_heatTest {s : State} (q : QueueId) (e : QEntry) (charge : Nat) : (s.heatTest q e charge).2.Inv ↔ s.Inv := by
  unfold State.heatTest
  dsimp only
  (repeat' split) <;> simp

@[simp] theorem inv_dropSpan {s : State} (core lo n : Nat) : (s.dropSpan core lo n).Inv ↔ s.Inv := Iff.rfl
@[simp] theorem inv_modToken {s : State} (part head : Nat) (f : Token → Token) : (s.modToken part head f).Inv ↔ s.Inv := Iff.rfl
@[simp] theorem inv_settleSpans {s : State} (k : Nat) (i : BitVec 1) (failed : Bool) : (s.settleSpans k i failed).Inv ↔ s.Inv := by
  unfold State.settleSpans
  dsimp only
  refine (inv_foldl_iff (fun t x => ?_) _).trans ((inv_modCoreAt_iff ..).trans ((inv_modPartAt_iff ..).trans (inv_foldl_iff (fun t h => inv_modToken _ _ _) _)))
  split
  · exact inv_tokenArrives _
  · rfl

@[simp] theorem inv_checked {s : State} {k : Nat} {i : BitVec 1} {go : State → State} (hs : s.Inv) (hg : ∀ t : State, t.Inv → (go t).Inv) :
    (s.checked k i go).Inv := by
  unfold State.checked
  dsimp only
  split
  · exact hg _ hs
  · exact (inv_modCoreAt_iff ..).2 ((inv_modPartAt_iff ..).2 ((inv_logDie_iff ..).2 hs))

@[simp] theorem inv_endTask {s : State} (k : Nat) (i : BitVec 1) (status : BitVec 8) (cause : BitVec 16) :
    (s.endTask k i status cause).Inv ↔ s.Inv := by
  unfold State.endTask State.checked
  dsimp only
  split
  · rfl
  · exact (inv_modCoreAt_iff ..).trans ((inv_modPartAt_iff ..).trans (inv_logDie_iff ..))

@[simp] theorem inv_onCore {s : State} {k : Nat} {f : State → State} (hs : s.Inv) (hf : ∀ t : State, t.Inv → (f t).Inv) :
    (s.onCore k f).Inv := hf { s with cur := k } hs

@[simp] theorem inv_endWritten {s : State} (k : Nat) (i : BitVec 1) (status : BitVec 8) (cause : BitVec 16) (hs : s.Inv) :
    (s.endWritten k i status cause).Inv := by
  unfold State.endWritten
  dsimp only
  split
  · simpa using inv_onCore hs fun t ht => inv_cleanLines _ _ ht
  · simpa using hs

@[simp] theorem inv_logLine {s : State} (line : Nat) : (s.logLine line).Inv ↔ s.Inv := Iff.rfl
@[simp] theorem inv_logOwn {s : State} (source : Nat) (addr : Nat) : (s.logOwn source addr).Inv ↔ s.Inv := Iff.rfl
@[simp] theorem inv_endOwner {s : State} (w : Nat) (hs : s.Inv) : (s.endOwner w).Inv := by
  unfold State.endOwner
  dsimp only
  split <;> simp [hs]

@[simp] theorem inv_meetBad {s : State} (line : Nat) (hs : s.Inv) : (s.meetBad line).Inv := by
  unfold State.meetBad
  (repeat' split) <;> simp [hs]

@[simp] theorem inv_metBad {s : State} {line : Nat} {report : State → State} (hs : s.Inv) (hr : ∀ t : State, t.Inv → (report t).Inv) :
    (s.metBad line report).Inv := inv_ite (inv_meetBad _ hs) (hr _ (inv_meetBad _ hs))

@[simp] theorem inv_metLine {s : State} {a : Nat} {report : State → State} (hs : s.Inv) (hr : ∀ t : State, t.Inv → (report t).Inv) :
    (s.metLine a report).Inv := by
  unfold State.metLine
  split
  · exact hr _ ((inv_logOwn ..).2 hs)
  · exact inv_metBad hs hr

@[simp] theorem inv_enterHandler {s : State} (cause : Nat) (addr : Word) (fw : Nat) : (s.enterHandler cause addr fw).Inv ↔ s.Inv := Iff.rfl
@[simp] theorem inv_takeTrap {s : State} (cause : Nat) (addr : Word) (fw : Nat) : (s.takeTrap cause addr fw).Inv ↔ s.Inv := by
  unfold State.takeTrap
  dsimp only
  split
  · split
    · simp
    · rfl
  · exact inv_enterHandler _ _ _

@[simp] theorem inv_raise {s : State} (code : Nat) (addr : Word) : (s.raise code addr).Inv ↔ s.Inv := inv_takeTrap _ _ _
@[simp] theorem inv_wordTrap {s : State} (code : Nat) (addr : Word) (hs : s.Inv) : (s.wordTrap code addr).Inv := by
  unfold State.wordTrap
  split
  · exact inv_metLine hs fun t ht => (inv_raise ..).2 ht
  · exact (inv_raise ..).2 hs

@[simp] theorem inv_restartOrEnd {s : State} (hs : s.Inv) : (s.restartOrEnd).Inv := by
  unfold State.restartOrEnd
  (repeat' split) <;> simp [hs]

@[simp] theorem inv_trapReturn {s : State} (hs : s.Inv) : (s.trapReturn).Inv := by
  unfold State.trapReturn
  dsimp only
  (repeat' split) <;> simp [hs]

@[simp] theorem inv_waitAtIssue {s : State} : (s.waitAtIssue).Inv ↔ s.Inv := Iff.rfl
@[simp] theorem inv_advance {s : State} (target : Option Word) : (s.advance target).Inv ↔ s.Inv := by
  unfold State.advance
  split <;> rfl

@[simp] theorem inv_finish {s : State} (sy : BitVec 1) (target : Option Word) : (s.finish sy target).Inv ↔ s.Inv := by
  unfold State.finish
  split
  · exact inv_advance _
  · rfl

@[simp] theorem inv_beginWait {s : State} (w : Wait) : (s.beginWait w).Inv ↔ s.Inv := Iff.rfl
@[simp] theorem inv_untaken {s t : State} (w : Wait) (ht : t.Inv) : (s.untaken t w).Inv := by
  cases w <;> exact ht

@[simp] theorem canonical_control {sy : BitVec 1} {dep : BitVec 4} {rd wr : List RegRef} {s : State} {perform : State → Perform}
    (hs : s.Inv) (hp : ∀ t : State, t.Inv → CanonicalWord (perform t)) :
    Canonical (control sy dep rd wr s perform) := by
  unfold Machine.control
  split
  · have taken : (s.takeDeps dep).Inv := hs
    have performed := hp _ taken
    generalize perform (s.takeDeps dep) = p at performed
    cases p with
    | done t => exact (inv_finish ..).2 performed
    | jump t a => exact (inv_finish ..).2 performed
    | start t w => exact inv_untaken w performed
    | hold t => exact hs
    | trap code addr => exact inv_wordTrap _ _ hs
  · exact hs

@[simp] theorem canonical_waiting {sy : BitVec 1} {dep : BitVec 4} {s : State} {go : State → Perform} (hs : s.Inv)
    (hg : ∀ t : State, t.Inv → CanonicalWord (go t)) :
    Canonical (waiting sy dep s go) := by
  unfold waiting
  have taken : (s.takeDeps dep).Inv := hs
  have performed := hg _ taken
  generalize go (s.takeDeps dep) = p at performed
  cases p with
  | done t => exact (inv_finish ..).2 performed
  | jump t a => exact (inv_finish ..).2 performed
  | start t w => exact inv_untaken w performed
  | hold t => exact inv_untaken .none performed
  | trap code addr => exact inv_wordTrap _ _ hs

@[simp] theorem inv_command {s : State} (op : QOp) : (s.command op).Inv ↔ s.Inv := Iff.rfl
@[simp] theorem inv_openWindow {s : State} (e : EngineId) (m : Mark) (tile : Bool) : (s.openWindow e m tile).Inv ↔ s.Inv := by
  unfold State.openWindow
  dsimp only
  (repeat' split) <;> simp

@[simp] theorem inv_startReplay {s : State} (w : Window) (stopAt : Option (QueueId × Nat)) (atWord : Bool) :
    (s.startReplay w stopAt atWord).Inv ↔ s.Inv := Iff.rfl

@[simp] theorem inv_mismatch {s : State} (unit : Nat) (h : Word) (fw : Nat) (entry : Option (QueueId × Nat)) :
    (s.mismatch unit h fw entry).Inv ↔ s.Inv := by
  unfold State.mismatch
  dsimp only
  split <;> simp

@[simp] theorem canonical_awaited {sy : BitVec 1} {dep : BitVec 4} {rd wr : List RegRef} {s : State} {start : State → State} {perform : State → Perform}
    (hs : s.Inv) (ht : ∀ t : State, t.Inv → (start t).Inv) (hp : ∀ t : State, t.Inv → CanonicalWord (perform t)) :
    Canonical (awaited sy dep rd wr s start perform) := by
  unfold awaited
  split
  · split
    · exact canonical_control hs hp
    · exact hs
  · split
    · exact ht _ hs
    · exact hs

@[simp] theorem inv_countWord {s : State} : (s.countWord).Inv ↔ s.Inv := Iff.rfl
@[simp] theorem canonical_compared {sy : BitVec 1} {dep : BitVec 4} {rd wr : List RegRef} {s : State} {perform : State → Perform} {start : State → State}
    (hs : s.Inv) (hp : ∀ t : State, t.Inv → CanonicalWord (perform t)) (ht : ∀ t : State, t.Inv → (start t).Inv) :
    Canonical (compared sy dep rd wr s perform start) := by
  unfold compared
  split
  · split
    · exact hs
    · split
      · exact (inv_mismatch ..).2 hs
      · refine canonical_control hs fun t ht => ?_
        have performed := hp t ht
        generalize perform t = p at performed
        cases p <;> exact performed
  · split
    · exact ht _ hs
    · exact hs

@[simp] theorem inv_recordResult {s : State} (d : Nat) (v : Option Word) : (s.recordResult d v).Inv ↔ s.Inv := Iff.rfl
@[simp] theorem inv_takeRecalled {s : State} (d : BitVec 5) (v : Option Word) : (s.takeRecalled d v).Inv ↔ s.Inv := by
  unfold State.takeRecalled
  split <;> rfl

@[simp] theorem canonicalWord_recalled {d : BitVec 5} {s : State} {go : State → Perform} (hs : s.Inv)
    (hg : ∀ t : State, t.Inv → CanonicalWord (go t)) :
    CanonicalWord (recalled d s go) := by
  unfold recalled
  split
  · exact (inv_takeRecalled ..).2 hs
  · exact hg _ hs

@[simp] theorem canonicalWord_doneWith {s : State} (d : BitVec 5) (v : Word) (latency : Nat) (hs : s.Inv) :
    CanonicalWord (doneWith s d v latency) := hs

@[simp] theorem inv_ownPulse {s : State} (n : Nat) : (s.ownPulse n).Inv ↔ s.Inv := by
  unfold State.ownPulse
  split <;> rfl

@[simp] theorem canonical_word3 (sy : BitVec 1) (d a b : BitVec 5) (latency : Nat) (f : Word → Word → Word) {s : State} (hs : s.Inv) :
    Canonical (word3 sy d a b latency f s) := by simp [word3, hs]

@[simp] theorem canonical_word2 (sy : BitVec 1) (d a : BitVec 5) (latency : Nat) (f : Word → Word) {s : State} (hs : s.Inv) :
    Canonical (word2 sy d a latency f s) := by simp [word2, hs]

@[simp] theorem canonical_word1 (sy : BitVec 1) (d : BitVec 5) (f : State → Word) {s : State} (hs : s.Inv) :
    Canonical (word1 sy d f s) := by simp [word1, hs]

@[simp] theorem canonical_pred2 (sy : BitVec 1) (d a b : BitVec 2) (f : Bool → Bool → Bool) {s : State} (hs : s.Inv) :
    Canonical (pred2 sy d a b f s) := by simp [pred2, hs]

@[simp] theorem canonical_pred1 (sy : BitVec 1) (d a : BitVec 2) (f : Bool → Bool) {s : State} (hs : s.Inv) :
    Canonical (pred1 sy d a f s) := by simp [pred1, hs]

theorem canonical_execLd (sy : BitVec 1) (d a : BitVec 5) (z : BitVec 3) (i : BitVec 12) {s : State} (hs : s.Inv) :
    Canonical (execLd sy d a z i s) := canonical_control hs fun u hu => by dsimp only; (repeat' split) <;> simp_all

theorem canonical_execSt (sy : BitVec 1) (d a : BitVec 5) (z : BitVec 3) (i : BitVec 12) {s : State} (hs : s.Inv) :
    Canonical (execSt sy d a z i s) := canonical_control hs fun u hu => by dsimp only; (repeat' split) <;> simp_all

@[simp] theorem inv_mark {s : State} (op : Nat → QOp) : (s.mark op).Inv ↔ s.Inv := Iff.rfl
theorem canonical_execQmark (sy : BitVec 1) (dep : BitVec 4) {s : State} (hs : s.Inv) :
    Canonical (execQmark sy dep s) := canonical_control hs fun t ht => by split <;> simp [ht]

@[simp] theorem canonical_cacheWord (sy : BitVec 1) (dep : BitVec 4) (a b : BitVec 5) (fn : Nat) {s : State} (hs : s.Inv) :
    Canonical (cacheWord sy dep a b fn s) := canonical_control hs fun u hu => by dsimp only; (repeat' split) <;> simp_all

@[simp] theorem inv_passMarker {s : State} (q other : QueueId) (e : QEntry) (id : Nat) (hs : s.Inv) : (s.passMarker q other e id).Inv := by
  unfold State.passMarker
  dsimp only
  have maintained : ∀ fn base len, (s.maintain e.warm fn base len).Inv := fun fn base len => inv_maintain _ _ _ _ hs
  (repeat' split) <;> simp [hs, maintained]

@[simp] theorem inv_release {s : State} (l : Lane) (d : Nat) : (s.release l d).Inv ↔ s.Inv := Iff.rfl
@[simp] theorem inv_l1Record {s : State} (key : Nat) (hs : s.Inv) : (s.l1Record key).2.Inv := inv_l1Read (key + 64) 64 (inv_l1Read key 64 hs)
@[simp] theorem inv_answer {s : State} (l : Lane) (seq : Nat) (w : Wait) : (s.answer l seq w).Inv ↔ s.Inv := Iff.rfl
@[simp] theorem inv_dropEntry {s : State} (q : QueueId) (e : QEntry) : (s.dropEntry q e).Inv ↔ s.Inv := by
  unfold State.dropEntry
  split <;> rfl

@[simp] theorem inv_queueTrap {s : State} (q : QueueId) (e : QEntry) (code : Nat) (addr : Word) :
    (s.queueTrap q e code addr).Inv ↔ s.Inv := by simp [State.queueTrap]

@[simp] theorem inv_entryMismatch {s : State} (q : QueueId) (e : QEntry) : (s.entryMismatch q e).Inv ↔ s.Inv := by
  unfold State.entryMismatch
  dsimp only
  split <;> simp

@[simp] theorem inv_overFill {s : State} {a : Nat} {log : Bool} {go : State → State} (hs : s.Inv) (hg : ∀ t : State, t.Inv → (go t).Inv) :
    (s.overFill a log go).Inv := by
  unfold State.overFill
  split
  · exact hg _ hs
  · split
    · exact inv_metBad hs fun t ht => (inv_modCore_iff ..).2 (hg t ht)
    · exact (inv_modCore_iff ..).2 (hg _ hs)

@[simp] theorem canonical_performLoad {s : State} (e : QEntry) (hs : s.Inv) : Canonical (s.performLoad e) := by
  have handed : ∀ {c d : Prop} [Decidable c] [Decidable d] {t : State}, t.Inv → ∀ (l : Lane) (seq : Nat) (w : Wait) (f g : Core → Core),
      (if c then t.answer l seq w else if d then (t.modCore f).modCore g else t.modCore f).Inv := fun ht l seq w f g =>
    inv_ite ((inv_answer l seq w).2 ht) (inv_ite ht ht)
  have filled : ∀ a key n, (s.overFill a false fun t => (t.l1Read key n).2).Inv := fun a key n => inv_overFill hs fun t ht => inv_l1Read _ _ ht
  have met : ∀ a, (s.metLine a fun t => t.queueTrap .load e 0x1B (word a)).Inv := fun a => inv_metLine hs fun t ht => (inv_queueTrap ..).2 ht
  unfold State.performLoad
  split
  case h_1 =>
    split
    · simp [hs]
    · split
      · simp [hs]
      · split
        · split
          · exact met _
          · split <;> exact filled _ _ _
        · simp [hs]
        · simp [hs]
  case h_5 n h _ =>
    have freed : ((s.retire .load e.seq).modCore fun c => { c with shpBusy := c.shpBusy.filter fun x => !decide (x.1 = n) }).Inv := hs
    have retired : (if decide ((s.core.cluster e.lane).wait = .entry e.seq) = true then s.retire .load e.seq
      else (s.retire .load e.seq).modCore fun c => { c with shpBusy := c.shpBusy.filter fun x => !decide (x.1 = n) }).Inv := inv_ite hs freed
    refine canonical_ite ((canonical_next _).2 ((inv_answer ..).2 retired)) ?_
    split
    · split
      · exact (canonical_next _).2 ((inv_answer ..).2 retired)
      · exact (canonical_next _).2 (handed (inv_l1Record _ retired) ..)
    · exact (canonical_next _).2 (handed retired ..)
    · exact (canonical_next _).2 ((inv_answer ..).2 retired)
  all_goals simp [hs]

theorem canonical_execLoadPerform {s : State} (hs : s.Inv) : Canonical (execLoadPerform s) := by
  unfold execLoadPerform
  (repeat' split) <;> simp [hs]

theorem canonical_execLoadDataReturn {s : State} (hs : s.Inv) : Canonical (execLoadDataReturn s) := by
  unfold execLoadDataReturn
  split <;> exact hs

@[simp] theorem canonical_performStore {s : State} (e : QEntry) (hs : s.Inv) : Canonical (s.performStore e) := by
  have filled : ∀ (t : State) a k n v, t.Inv → (t.overFill a true fun u => u.l1Write k n v).Inv := fun t a k n v ht =>
    inv_overFill ht fun u hu => inv_l1Write _ _ _ hu
  unfold State.performStore
  dsimp only
  (repeat' split) <;> simp [hs, filled]

theorem canonical_execStorePerform {s : State} (hs : s.Inv) : Canonical (execStorePerform s) := by
  unfold execStorePerform
  (repeat' split) <;> simp [hs]

@[simp] theorem inv_boundary {s : State} (r : BitVec 1024) (hs : s.Inv) : (s.boundary r).2.Inv := by
  unfold State.boundary
  dsimp only
  (repeat' split) <;> simp [hs]

@[simp] theorem canonical_crossWord (sy : BitVec 1) (dep : BitVec 4) (d a b : BitVec 5) (n : BitVec 4) (mode : BitVec 2)
    (kind : Nat) {s : State} (hs : s.Inv) :
    Canonical (crossWord sy dep d a b n mode kind s) := by
  refine canonical_control hs fun t ht => ?_
  dsimp only
  refine canonicalWord_ite ht (canonicalWord_ite trivial (canonicalWord_ite trivial (canonicalWord_ite ((inv_walk ..).2 ht) ?_)))
  split
  · trivial
  · have copied : (if decide (shpRagax (t.core.shape n.toNat) ≠ 7) = true ∧ (t.badSource (t.core.shape n.toNat) (decide (mode = 2))
          (decide (shpRagax (t.core.shape n.toNat) ≠ 7)) []).isNone = true then
        t.boundary (t.core.shape n.toNat) else (none, t)).2.Inv := by
      split
      · exact inv_boundary _ ht
      · exact ht
    generalize (if decide (shpRagax (t.core.shape n.toNat) ≠ 7) = true ∧ (t.badSource (t.core.shape n.toNat) (decide (mode = 2))
          (decide (shpRagax (t.core.shape n.toNat) ≠ 7)) []).isNone = true then
        t.boundary (t.core.shape n.toNat) else (none, t)) = r at copied ⊢
    refine canonicalWord_ite trivial (canonicalWord_ite ((inv_walk ..).2 ht) ?_)
    split
    · trivial
    · refine canonicalWord_ite trivial (canonicalWord_ite trivial ?_)
      split
      · trivial
      · refine canonicalWord_ite trivial (canonicalWord_ite trivial ?_)
        split
        · trivial
        · exact (inv_writeG ..).2 ((inv_modCore_iff ..).2 ((inv_enqueue ..).2 copied))

@[simp] theorem inv_deliver {s : State} (issuer k : Nat) (x : Crossing) (sel : Nat → Bool) (whole : Bool) :
    (s.deliver issuer k x sel whole).Inv ↔ s.Inv := Iff.rfl

theorem canonical_execCptail (sy : BitVec 1) (dep : BitVec 4) (a : BitVec 5) {s : State} (hs : s.Inv) : Canonical (execCptail sy dep a s) := by
  refine canonical_control hs fun t ht => ?_
  (repeat' split) <;> simp [ht]

theorem canonical_execCpseq (sy : BitVec 1) (dep : BitVec 4) (d : BitVec 5) {s : State} (hs : s.Inv) :
    Canonical (execCpseq sy dep d s) := canonical_control hs fun t ht => canonicalWord_recalled ht fun u hu => hu

@[simp] theorem inv_engineSpansBack {s : State} : s.engineSpansBack.Inv ↔ s.Inv := inv_foldl_iff (fun t _ => inv_tokenArrives _) _
@[simp] theorem inv_haltString {s : State} (stat : Nat) (no : Nat) (hs : s.Inv) : (s.haltString stat no).Inv := by
  unfold State.haltString
  dsimp only
  refine (inv_engineSpansBack ..).2 (inv_foldl (fun t x ht => ?_) _ hs)
  split
  · simp [inv_applyWrites, ht]
  · exact ht

@[simp] theorem inv_haltBad {s : State} (line : Option Nat) (no : Nat) (hs : s.Inv) : (s.haltBad line no).Inv := by
  unfold State.haltBad
  split
  · exact inv_metBad hs fun t ht => inv_haltString _ _ ht
  · exact inv_haltString _ _ hs

@[simp] theorem inv_takeRetired {s : State} (cmd : Instr) (next : Word) : (s.takeRetired cmd next).Inv ↔ s.Inv := Iff.rfl
/-- What a span lent to the string writes home (R321). -/
theorem inv_of_lendEngine {s t : State} {h : Word} (hs : s.Inv) (lent : s.lendEngine h = some t) : t.Inv := by
  unfold State.lendEngine at lent
  split at lent
  · cases lent
  · dsimp only at lent
    split_ifs at lent
    · cases lent; exact hs
    · cases lent
      rw [inv_modToken]
      split
      · exact inv_cleanLines _ _ hs
      · exact hs

theorem lendAll_cons (h : Word) (rest : List Word) (s : State) : lendAll (h :: rest) s = (s.lendEngine h).bind (lendAll rest) := by
  change (match s.lendEngine h with | some t => lendAll rest t | none => none) = _
  generalize s.lendEngine h = o
  cases o <;> rfl

theorem inv_of_lendAll {t : State} (hs : List Word) {s : State} (inv : s.Inv) (lent : lendAll hs s = some t) : t.Inv := by
  induction hs generalizing s with
  | nil => exact Option.some.inj lent ▸ inv
  | cons h rest ih =>
    rw [lendAll_cons] at lent
    obtain ⟨u, one, all⟩ := Option.bind_eq_some_iff.1 lent
    exact ih (inv_of_lendEngine inv one) all

@[simp] theorem canonical_takeEntry (c : Command) (e : CopyEntry) {s : State} (hs : s.Inv) : Canonical (takeEntry c e s) := by
  unfold takeEntry
  dsimp only
  split
  · exact hs
  split
  · exact inv_haltString _ _ hs
  split
  · exact (inv_takeRetired ..).2 hs
  split
  · exact inv_haltBad _ _ hs
  split
  · exact inv_haltString _ _ hs
  split
  · exact hs
  split
  · exact inv_haltString _ _ hs
  · next t lent =>
    split at lent
    · show t.Inv
      exact inv_of_lendAll _ hs lent
    · cases lent; exact hs

@[simp] theorem inv_translated {s : State} (rs : List Nat) : (s.translated rs).Inv ↔ s.Inv := Iff.rfl
@[simp] theorem inv_beginEntry {s : State} (hs : s.Inv) : (s.beginEntry).Inv := by
  unfold State.beginEntry
  dsimp only
  split
  · exact hs
  · simp [inv_applyWrites, hs]

@[simp] theorem inv_countEntries (n : Nat) {s : State} (hs : s.Inv) : (State.countEntries n s).Inv := by
  induction n generalizing s with
  | zero => exact hs
  | succ n ih =>
    unfold State.countEntries
    split
    · split
      · exact ih ((inv_pulse ..).2 hs)
      · exact hs
    · exact hs

/-- What an entry writes home as it is performed (R317). -/
theorem inv_of_perform {s : State} {x : Taken} {r : Nat × Option (BitVec 32) × State} (hs : s.Inv) (performed : s.perform x = some r) :
    r.2.2.Inv := by
  unfold State.perform at performed
  dsimp only at performed
  split at performed
  · cases performed
  split at performed
  · cases performed; exact hs
  split at performed
  · split at performed
    · cases performed; exact hs
    split at performed
    · cases performed; exact hs
    split at performed
    · cases performed; exact hs
    split at performed
    · cases performed; exact hs
    · cases performed
  · split at performed
    · cases performed
    · cases performed; exact hs
  · split at performed
    · cases performed; exact (inv_tokenArrives ..).2 ((inv_modToken ..).2 hs)
    · cases performed; exact hs
  · cases performed; exact hs
  · split at performed
    · cases performed; exact inv_meetBad _ hs
    · have written : ∀ n ws sel, ({ s.applyWrites x ws sel with drawn := n } : State).Inv := fun n ws sel => inv_applyWrites x ws sel hs
      split at performed
      · cases performed; exact written ..
      · split at performed <;> (cases performed; exact written ..)

theorem canonical_execEntryComplete {s : State} (hs : s.Inv) : Canonical (execEntryComplete s) := by
  unfold execEntryComplete
  split
  · exact hs
  split
  · exact hs
  next st res u performed =>
  have inv : u.Inv := inv_of_perform hs performed
  exact canonical_ite inv (canonical_ite (inv_haltString _ _ inv) (inv_countEntries _ inv))

@[simp] theorem inv_cancelEntry {s : State} (h : Word) (hs : s.Inv) : (s.cancelEntry h).2.Inv := by
  unfold State.cancelEntry
  dsimp only
  (repeat' split) <;> simp [hs]

@[simp] theorem inv_watchString {s : State} : (s.watchString).Inv ↔ s.Inv := Iff.rfl
theorem canonical_execBr (sy : BitVec 1) (p : BitVec 2) (n : BitVec 1) (o : BitVec 22) {s : State} (hs : s.Inv) :
    Canonical (execBr sy p n o s) := canonical_control hs fun t ht => by split <;> simpa using ht

theorem canonical_execJalr (sy : BitVec 1) (d a : BitVec 5) (i : BitVec 15) {s : State} (hs : s.Inv) :
    Canonical (execJalr sy d a i s) := canonical_control hs fun u hu => by dsimp only; (repeat' split) <;> simp_all

theorem canonical_execLoop (sy p : BitVec 1) (a : BitVec 5) (l : BitVec 15) {s : State} (hs : s.Inv) :
    Canonical (execLoop sy p a l s) := canonical_control hs fun u hu => by dsimp only; (repeat' split) <;> simp_all

theorem canonical_execLexit (sy : BitVec 1) (p : BitVec 2) (n : BitVec 1) (o : BitVec 22) {s : State} (hs : s.Inv) :
    Canonical (execLexit sy p n o s) := by
  refine canonical_control hs fun t ht => ?_
  split
  · split
    · trivial
    · exact ht
  · exact ht

theorem canonical_execJoin (n : BitVec 8) {s : State} (hs : s.Inv) : Canonical (execJoin n s) := by
  unfold execJoin
  dsimp only
  (repeat' split) <;> simp [hs]

@[simp] theorem canonical_sendPort (sy : BitVec 1) (a : BitVec 5) (fifo : Nat) {s : State} (hs : s.Inv) :
    Canonical (sendPort sy a fifo s) := canonical_control hs fun t ht => by split <;> simp [ht]

@[simp] theorem canonical_recvPort (sy : BitVec 1) (d : BitVec 5) (fifo : Nat) {s : State} (hs : s.Inv) :
    Canonical (recvPort sy d fifo s) := canonical_control hs fun u hu => by dsimp only; (repeat' split) <;> simp_all

theorem canonical_execBrk (_sy : BitVec 1) {s : State} (hs : s.Inv) : Canonical (execBrk _sy s) := by simp [execBrk, hs]
@[simp] theorem inv_retireBundle {s : State} (ls : List Lane) : (s.retireBundle ls).Inv ↔ s.Inv := Iff.rfl
theorem canonical_execXput (sy : BitVec 1) (dep : BitVec 4) (a : BitVec 5) (k : BitVec 6) {s : State} (hs : s.Inv) :
    Canonical (execXput sy dep a k s) := canonical_control hs fun u hu => by dsimp only; (repeat' split) <;> simp_all

theorem canonical_execXget (sy : BitVec 1) (dep : BitVec 4) (d : BitVec 5) (k : BitVec 6) {s : State} (hs : s.Inv) :
    Canonical (execXget sy dep d k s) := canonical_control hs fun t ht => by split <;> simp [ht]

theorem canonical_execXwait (sy : BitVec 1) (dep : BitVec 4) (d : BitVec 5) (p : BitVec 6) {s : State} (hs : s.Inv) :
    Canonical (execXwait sy dep d p s) := by
  refine canonical_awaited hs (fun t ht => ?_) fun t ht => canonicalWord_recalled ht fun u hu => ?_
  · exact inv_ite ((inv_watchString ..).2 ht) ht
  · exact canonicalWord_ite (canonicalWord_doneWith _ _ _ ((inv_modCore_iff ..).2 hu)) hu

@[simp] theorem inv_cancelCrossing {s : State} (n : Nat) (hs : s.Inv) : (s.cancelCrossing n).2.Inv := by
  unfold State.cancelCrossing
  split
  · exact hs
  · dsimp only
    split
    · exact hs
    · refine (inv_modCore_iff ..).2 (inv_ite ?_ ?_)
      · exact inv_putCaptured _ _ hs
      · exact (inv_foldl_iff (fun t k => by split <;> simp) _).2 hs

theorem canonical_execXcancel (sy : BitVec 1) (dep : BitVec 4) (d a : BitVec 5) {s : State} (hs : s.Inv) : Canonical (execXcancel sy dep d a s) := by
  refine canonical_control hs fun t ht => canonicalWord_recalled ht fun u hu => ?_
  dsimp only
  refine canonicalWord_doneWith _ _ _ ?_
  split
  · split
    · exact inv_cancelCrossing _ hu
    · exact hu
  · split
    · exact inv_cancelEntry _ hu
    · exact hu

theorem canonical_execShpld (sy : BitVec 1) (dep : BitVec 4) (a : BitVec 5) (n : BitVec 4) {s : State} (hs : s.Inv) :
    Canonical (execShpld sy dep a n s) := by
  unfold execShpld
  split
  · refine canonical_control hs fun t ht => ?_
    dsimp only
    split
    · exact ht
    · split <;> simp [ht]
  · exact canonical_waiting hs fun t ht => ht
  · exact canonical_waiting hs fun t ht => ht
  · exact canonical_waiting hs fun t ht => trivial
  · exact hs

theorem canonical_execShpst (sy : BitVec 1) (dep : BitVec 4) (a : BitVec 5) (n : BitVec 4) {s : State} (hs : s.Inv) :
    Canonical (execShpst sy dep a n s) := canonical_control hs fun u hu => by dsimp only; (repeat' split) <;> simp_all

theorem canonical_execBtld (sy : BitVec 1) (dep : BitVec 4) (n : BitVec 4) {s : State} (hs : s.Inv) : Canonical (execBtld sy dep n s) := by
  refine canonical_control hs fun t ht => ?_
  dsimp only
  split
  · exact ht
  split
  · trivial
  split
  · exact ht
  split
  · simpa using ht
  split
  · trivial
  split
  · exact inv_metBad ht fun _ hu => hu
  have read := inv_boundary (t.core.shape n.toNat) ht
  generalize t.boundary (t.core.shape n.toNat) = r at read
  obtain ⟨_ | b, u⟩ := r
  · trivial
  · exact read

theorem canonical_execShpget (sy : BitVec 1) (dep : BitVec 4) (d : BitVec 5) (n w : BitVec 4) {s : State} (hs : s.Inv) :
    Canonical (execShpget sy dep d n w s) := canonical_control hs fun t ht => by split <;> simp [ht]

theorem canonical_execShpset (sy : BitVec 1) (dep : BitVec 4) (a : BitVec 5) (n w : BitVec 4) {s : State} (hs : s.Inv) :
    Canonical (execShpset sy dep a n w s) := canonical_control hs fun u hu => by dsimp only; (repeat' split) <;> simp_all

@[simp] theorem inv_deliverEarly {s : State} (x : Crossing) (hs : s.Inv) : (s.deliverEarly x).Inv := by
  unfold State.deliverEarly
  dsimp only
  split
  · exact hs
  · exact (inv_foldl_iff (fun t k => inv_deliver ..) _).2 hs

@[simp] theorem inv_meetRuns {s : State} (ys : List (Nat × Int × Nat)) (hs : s.Inv) : (s.meetRuns ys).Inv := by
  induction ys with
  | nil => exact hs
  | cons y rest ih =>
    unfold State.meetRuns
    dsimp only
    split
    · exact inv_meetBad _ hs
    · exact ih

theorem canonical_execCrossingComplete (seq : BitVec 32) {s : State} (hs : s.Inv) : Canonical (execCrossingComplete seq s) := by
  unfold execCrossingComplete
  split
  · exact hs
  next x _ =>
  refine canonical_ite hs (canonical_ite (inv_deliverEarly _ hs) (canonical_ite ?_ ?_))
  · split
    · exact hs
    next bs _ =>
    refine (inv_pulse ..).2 ((inv_modCore_iff ..).2 ((inv_modCore_iff ..).2 ?_))
    have put : ∀ bs sel, ((if (bs.any fun b => (s.pkgAt (keyPkg (b.1 / 2))).failed) = true then
        s.modCore fun c => c.notePath 1 fun p => { p with err := true } else s).putCaptured bs sel).Inv := fun bs sel =>
      inv_putCaptured _ _ (inv_ite hs hs)
    split
    · exact (inv_awaitMirror_iff ..).2 (inv_putCaptured _ _ (inv_ite hs hs))
    · exact inv_putCaptured _ _ (inv_ite hs hs)
  · have met : ∀ t : State, t.Inv → (match x.lost with
        | some line => t.meetBad line
        | none => t.meetRuns (warmRuns x.shape x.coord false x.rows)).Inv := fun t ht => by
      split
      · exact inv_meetBad _ ht
      · exact inv_meetRuns _ ht
    have source : (if s.sourceBad x = true then (match x.lost with
        | some line => s.meetBad line
        | none => s.meetRuns (warmRuns x.shape x.coord false x.rows)) else s).Inv := inv_ite (met s hs) hs
    have delivered := fun c => inv_foldl (f := fun (t : State) k =>
        if t.missed c k x then t.modCore fun c => c.notePath 0 fun p => { p with rx := p.rx ||| BitVec.ofNat 4 (2 ^ (k % 4)) }
        else if t.receiverGone c k then t
        else (if s.sourceBad x then t else t.deliver c k x (fun _ => true)).pulse k 3)
      (fun u k hu => inv_ite ((inv_modCore_iff ..).2 hu) (inv_ite hu ((inv_pulse ..).2 (inv_ite hu ((inv_deliver ..).2 hu)))))
      (recvCores c x.recv) source
    exact (inv_modCore_iff ..).2 (inv_ite ((inv_modCore_iff ..).2 (delivered _)) (delivered _))

@[simp] theorem inv_putAhead {s : State} (hs : s.Inv) : (s.putAhead).Inv := by
  unfold State.putAhead
  split
  · exact hs
  · exact inv_putCaptured _ _ hs

@[simp] theorem inv_meetCold {s : State} (g : Nat) (hs : s.Inv) : (s.meetCold g).Inv := by
  unfold State.meetCold
  split <;> simp [hs]

@[simp] theorem inv_meetCapture {s : State} (x : Crossing) (hs : s.Inv) : (s.meetCapture x).Inv := by
  unfold State.meetCapture
  split <;> simp [hs]

theorem canonical_execXoutCapture (seq : BitVec 32) {s : State} (hs : s.Inv) : Canonical (execXoutCapture seq s) := by
  unfold execXoutCapture
  split <;> simp [hs]

theorem canonical_execUnitStall {s : State} (hs : s.Inv) : Canonical (execUnitStall s) := by
  unfold execUnitStall
  dsimp only
  split <;> exact hs

theorem canonical_execSmiss {s : State} (hs : s.Inv) : Canonical (execSmiss s) := by
  unfold execSmiss
  refine canonical_ite hs ?_
  refine (inv_takeTrap ..).2 ((inv_modCore_iff ..).2 ?_)
  exact inv_foldl (fun t x ht => inv_cancelCrossing _ ht) _ hs

theorem canonical_execTstart (sy : BitVec 1) (dep : BitVec 4) (a : BitVec 5) (e : BitVec 2) {s : State} (hs : s.Inv) :
    Canonical (execTstart sy dep a e s) := by
  refine canonical_control hs fun t ht => ?_
  (repeat' split) <;> simp [ht]

theorem canonical_execTstartEv (sy : BitVec 1) (dep t : BitVec 4) (e : BitVec 2) {s : State} (hs : s.Inv) :
    Canonical (execTstartEv sy dep t e s) := canonical_control hs fun t ht => by split <;> simp [ht]

theorem canonical_execTstop (sy : BitVec 1) (dep : BitVec 4) (e : BitVec 2) {s : State} (hs : s.Inv) :
    Canonical (execTstop sy dep e s) := canonical_control hs fun t ht => by split <;> simp [ht]

theorem canonical_execTbase (sy : BitVec 1) (dep : BitVec 4) (a : BitVec 5) (e : BitVec 2) {s : State} (hs : s.Inv) :
    Canonical (execTbase sy dep a e s) := by
  refine canonical_control hs fun t ht => ?_
  (repeat' split) <;> simp [ht]

theorem canonical_execTsync (sy : BitVec 1) (dep : BitVec 4) (e : BitVec 2) {s : State} (hs : s.Inv) : Canonical (execTsync sy dep e s) := by
  unfold execTsync
  split
  · exact canonical_waiting hs fun t ht => ht
  · exact hs
  · exact canonical_control hs fun t ht => by dsimp only; split <;> simp [ht]

theorem canonical_execTload (sy : BitVec 1) (dep : BitVec 4) (a b : BitVec 5) (e : BitVec 2) {s : State} (hs : s.Inv) :
    Canonical (execTload sy dep a b e s) := canonical_control hs fun u hu => by dsimp only; (repeat' split) <;> simp_all

theorem canonical_execEvcfg (sy : BitVec 1) (dep : BitVec 4) (a : BitVec 5) (n : BitVec 4) {s : State} (hs : s.Inv) :
    Canonical (execEvcfg sy dep a n s) := canonical_compared hs (fun t ht => by split <;> simp [ht]) fun _ ht => ht

theorem canonical_execEvsig (sy : BitVec 1) (dep n : BitVec 4) {s : State} (hs : s.Inv) : Canonical (execEvsig sy dep n s) := by simp [execEvsig, hs]
@[simp] theorem inv_performCommand {s : State} (e : QEntry) (hs : s.Inv) : (s.performCommand e).Inv := by
  unfold State.performCommand
  dsimp only
  (repeat' split) <;> simp [hs]

theorem canonical_execEngineCommandPerform {s : State} (hs : s.Inv) : Canonical (execEngineCommandPerform s) := by
  unfold execEngineCommandPerform
  dsimp only
  (repeat' split) <;> simp [hs]

@[simp] theorem inv_fireTerm {s : State} (n : Nat) : (s.fireTerm n).Inv ↔ s.Inv := by
  unfold State.fireTerm
  dsimp only
  (repeat' split) <;> simp

theorem canonical_execTermFire (n : BitVec 4) {s : State} (hs : s.Inv) : Canonical (execTermFire n s) := by simp [execTermFire, hs]
theorem canonical_execEvwait (sy : BitVec 1) (dep : BitVec 4) (a : BitVec 5) (n : BitVec 4) {s : State} (hs : s.Inv) :
    Canonical (execEvwait sy dep a n s) := by
  refine canonical_control hs fun t ht => canonicalWord_recalled ht fun u hu => ?_
  have fired := (inv_foldl_iff (fun t n => inv_fireTerm (s := t) n) (List.range 16)).2 hu
  exact canonicalWord_ite (canonicalWord_doneWith _ _ _ ((inv_modCore_iff ..).2 fired)) fired

theorem canonical_execEngineIdle (e : EngineId) {s : State} (hs : s.Inv) : Canonical (execEngineIdle e s) := by
  unfold execEngineIdle
  split <;> simp [hs]

theorem canonical_execDepto (l : Lane) {s : State} (hs : s.Inv) : Canonical (execDepto l s) := by
  unfold execDepto
  dsimp only
  (repeat' split) <;> simp [hs]

theorem canonical_execPlen (l : Lane) {s : State} (hs : s.Inv) : Canonical (execPlen l s) := by
  unfold execPlen
  dsimp only
  (repeat' split) <;> simp [hs]

@[simp] theorem canonical_sendWord (sy : BitVec 1) (dep : BitVec 4) (d a : BitVec 5) (b : Option (BitVec 5)) (fn : Nat) {s : State} (hs : s.Inv) :
    Canonical (sendWord sy dep d a b fn s) := by
  refine canonical_compared hs (fun t ht => canonicalWord_recalled ht fun u hu => ?_) fun _ ht => ht
  dsimp only
  split
  · trivial
  · refine canonicalWord_ite (canonicalWord_trap ..) (canonicalWord_ite (canonicalWord_trap ..) (canonicalWord_ite (canonicalWord_trap ..) ?_))
    exact (canonicalWord_done _).2 ((inv_awaitG ..).2 ((inv_modCore_iff ..).2 ((inv_recordResult ..).2 hu)))

@[simp] theorem canonicalWord_settleIn {s : State} (d : BitVec 5) (v : Word) (hs : s.Inv) : CanonicalWord (s.settleIn d v) := hs
theorem canonical_execOwnSplit (sy : BitVec 1) (dep : BitVec 4) (d a b : BitVec 5) {s : State} (hs : s.Inv) :
    Canonical (execOwnSplit sy dep d a b s) := by
  refine canonical_compared hs (fun t ht => canonicalWord_recalled ht fun u hu => ?_) fun _ ht => ht
  dsimp only
  (repeat' split) <;> simp [hu]

theorem canonical_execOwnMerge (sy : BitVec 1) (dep : BitVec 4) (d a b : BitVec 5) {s : State} (hs : s.Inv) :
    Canonical (execOwnMerge sy dep d a b s) := by
  refine canonical_compared hs (fun t ht => canonicalWord_recalled ht fun u hu => ?_) fun _ ht => ht
  dsimp only
  split
  · trivial
  · split
    · trivial
    · split
      · trivial
      · split <;> simp [hu]

theorem canonical_execOwnUnshare (sy : BitVec 1) (dep : BitVec 4) (d a : BitVec 5) {s : State} (hs : s.Inv) :
    Canonical (execOwnUnshare sy dep d a s) := by
  refine canonical_compared hs (fun t ht => canonicalWord_recalled ht fun u hu => ?_) fun _ ht => ht
  dsimp only
  (repeat' split) <;> simp [hu]

theorem canonical_execOwnWait (sy : BitVec 1) (dep : BitVec 4) (d a : BitVec 5) {s : State} (hs : s.Inv) : Canonical (execOwnWait sy dep d a s) := by
  refine canonical_compared hs (fun t ht => canonicalWord_recalled ht fun u hu => ?_) fun _ ht => ht
  split
  · trivial
  · split
    · exact canonicalWord_doneWith _ _ _ hu
    · exact hu

theorem canonical_execOwnQuery (sy : BitVec 1) (dep : BitVec 4) (d a : BitVec 5) {s : State} (hs : s.Inv) :
    Canonical (execOwnQuery sy dep d a s) := by
  refine canonical_compared hs (fun t ht => canonicalWord_recalled ht fun u hu => ?_) fun _ ht => ht
  split
  · trivial
  · exact canonicalWord_doneWith _ _ _ hu

@[simp] theorem inv_sendHome {s : State} (x : Send) (hs : s.Inv) : (s.sendHome x).Inv := by
  unfold State.sendHome
  (repeat' split) <;> simp [hs, inv_cleanLines]

@[simp] theorem inv_receive {s : State} (k head : Nat) (share : Bool) : (s.receive k head share).Inv ↔ s.Inv := by
  unfold State.receive
  dsimp only
  (repeat' split) <;> simp

@[simp] theorem inv_sendArrive {s : State} (x : Send) (hs : s.Inv) : (s.sendArrive x).2.Inv := by
  unfold State.sendArrive
  dsimp only
  (repeat' split) <;> simp [hs]

theorem canonical_execTokenSendComplete {s : State} (hs : s.Inv) : Canonical (execTokenSendComplete s) := by
  unfold execTokenSendComplete
  dsimp only
  (repeat' split) <;> simp [hs]

@[simp] theorem inv_startMask (m : BitVec 4) {s : State} : (startMask m s).Inv ↔ s.Inv := by
  unfold startMask
  split <;> rfl

theorem canonical_execBar (sy : BitVec 1) (dep : BitVec 4) (d a : BitVec 5) (m : BitVec 4) (o : BitVec 2) (k : BitVec 3) {s : State} (hs : s.Inv) :
    Canonical (execBar sy dep d a m o k s) := by
  unfold execBar
  split
  · exact hs
  · exact canonical_waiting hs fun t ht => trivial
  · refine canonical_waiting hs fun t ht => canonicalWord_doneWith _ _ _ ?_
    refine (inv_modCore_iff ..).2 (inv_ite ?_ ht)
    exact (inv_dropLines_iff ..).2 (inv_cleanLines _ _ ht)
  · refine canonical_compared hs (fun t ht => canonicalWord_recalled ht fun u hu => ?_) fun t ht => (inv_startMask ..).2 ht
    have cleaned : (if m.getLsbD 1 = true then u.cleanLines u.waitedSince fun _ => true else u).Inv := inv_ite (inv_cleanLines _ _ hu) hu
    dsimp only
    split
    · exact hu
    · split
      · split
        · exact cleaned
        · exact cleaned
      · exact cleaned

theorem canonical_execBarrierComplete {s : State} (hs : s.Inv) : Canonical (execBarrierComplete s) := by
  unfold execBarrierComplete
  split
  · exact hs
  · dsimp only
    split
    · exact (inv_foldl_iff (fun t x => by split <;> rfl) _).2 hs
    · exact hs

theorem canonical_execFence (sy : BitVec 1) (dep m : BitVec 4) {s : State} (hs : s.Inv) : Canonical (execFence sy dep m s) := by
  unfold execFence
  split
  · exact canonical_waiting hs fun t ht => by split <;> exact ht
  · exact canonical_compared hs (fun t ht => by dsimp only; split <;> exact ht) fun t ht => (inv_startMask ..).2 ht

@[simp] theorem canonical_atomWord (sy : BitVec 1) (dep : BitVec 4) (d a b : BitVec 5) (fn : Nat) {s : State} (hs : s.Inv) :
    Canonical (atomWord sy dep d a b fn s) := canonical_control hs fun u hu => by dsimp only; (repeat' split) <;> simp_all

theorem canonical_execAtomApply {s : State} (hs : s.Inv) : Canonical (execAtomApply s) := by
  unfold execAtomApply
  dsimp only
  (repeat' split) <;> simp [hs]

theorem canonical_execAtomComplete {s : State} (hs : s.Inv) : Canonical (execAtomComplete s) := by
  unfold execAtomComplete
  split <;> exact hs

theorem canonical_execSrd (sy : BitVec 1) (d : BitVec 5) (x : BitVec 12) {s : State} (hs : s.Inv) : Canonical (execSrd sy d x s) := by
  refine canonical_control hs fun t ht => canonicalWord_recalled ht fun u hu => ?_
  split
  · trivial
  · split
    · trivial
    · exact canonicalWord_doneWith _ _ _ hu

theorem canonical_execSwr (sy : BitVec 1) (a : BitVec 5) (x : BitVec 12) {s : State} (hs : s.Inv) : Canonical (execSwr sy a x s) := by
  refine canonical_compared hs (fun t ht => ?_) fun _ ht => ht
  (repeat' split) <;> simp [ht]

theorem canonical_execTret (sy : BitVec 1) (dep : BitVec 4) {s : State} (hs : s.Inv) :
    Canonical (execTret sy dep s) := canonical_compared hs (fun t ht => by split <;> simp [ht]) fun _ ht => ht

theorem canonical_execTack (sy : BitVec 1) (dep : BitVec 4) {s : State} (hs : s.Inv) :
    Canonical (execTack sy dep s) := canonical_compared hs (fun t ht => by split <;> simp [ht]) fun _ ht => ht

@[simp] theorem inv_haltEnd {s : State} (hs : s.Inv) : (s.haltEnd).Inv := by
  unfold State.haltEnd
  split
  · exact (inv_endTask ..).2 ((inv_settleSpans ..).2 (inv_cleanLines _ _ hs))
  · exact hs

theorem canonical_execHalt (sy : BitVec 1) (dep : BitVec 4) {s : State} (hs : s.Inv) : Canonical (execHalt sy dep s) := by
  unfold execHalt
  (repeat' split) <;> simp [hs]

theorem canonical_execWfi (sy : BitVec 1) (dep : BitVec 4) {s : State} (hs : s.Inv) : Canonical (execWfi sy dep s) := by
  unfold execWfi
  (repeat' split) <;> simp [hs]

theorem canonical_execOeqpop (sy : BitVec 1) (dep : BitVec 4) (d : BitVec 5) {s : State} (hs : s.Inv) : Canonical (execOeqpop sy dep d s) := by
  refine canonical_compared hs (fun t ht => canonicalWord_recalled ht fun u hu => ?_) fun _ ht => ht
  split
  · exact canonicalWord_doneWith _ _ _ hu
  · exact canonicalWord_doneWith _ _ _ hu

theorem canonical_execIinv (sy : BitVec 1) (dep : BitVec 4) {s : State} (hs : s.Inv) :
    Canonical (execIinv sy dep s) := canonical_compared hs (fun t ht => by split <;> simp [ht]) fun _ ht => ht

theorem canonical_execTlbWalkReturn {s : State} (hs : s.Inv) : Canonical (execTlbWalkReturn s) := by
  unfold execTlbWalkReturn
  dsimp only
  (repeat' split) <;> simp [hs]

@[simp] theorem inv_outlast {s : State} (bytes : List (Nat × Byte)) : (s.outlast bytes).Inv ↔ s.Inv := Iff.rfl
@[simp] theorem inv_landOne {s : State} (l : Landing) : (s.landOne l).Inv ↔ s.Inv := by
  unfold State.landOne
  dsimp only
  (repeat' split) <;> simp

@[simp] theorem inv_landAll {s : State} (hs : s.Inv) : (s.landAll).Inv := (inv_foldl_iff (fun t l => inv_landOne ..) _).2 hs
@[simp] theorem inv_land (s : State) (e : EngineId) (lat chain : Nat) (w : List Res) (op : LandOp) (ev : Option Word) :
    (s.land e lat chain w op ev).Inv ↔ s.Inv := Iff.rfl

@[simp] theorem canonical_order {i : Instr} {s : State} {f : State → State} (hs : s.Inv) (hf : ∀ t : State, t.Inv → (f t).Inv) :
    Canonical (order i s f) := hf _ ((inv_charge ..).2 hs)

@[simp] theorem inv_filler {s : State} (e : EngineId) : (s.filler e).Inv ↔ s.Inv := Iff.rfl
@[simp] theorem inv_engineError {s : State} (e : EngineId) (hs : s.Inv) : (s.engineError e).Inv := by
  unfold State.engineError
  (repeat' split) <;> simp [hs]

@[simp] theorem inv_orderTrap {s0 : State} (e : EngineId) (code addr : Nat) (hs : s0.Inv) : (s0.orderTrap e code addr).Inv := by
  unfold State.orderTrap
  dsimp only
  have logged : (if code = 0x1B then s0.engineError e else s0).Inv := inv_ite (inv_engineError _ hs) hs
  refine inv_ite logged ((inv_foldl_iff (fun t x => inv_modCore_iff ..) _).2 ((inv_takeTrap ..).2 ?_))
  exact (inv_foldl_iff (fun t x => inv_modCore_iff ..) _).2 logged

@[simp] theorem inv_openAt {s : State} (e : EngineId) : (s.openAt e).Inv ↔ s.Inv := by
  unfold State.openAt
  dsimp only
  (repeat' split) <;> simp

/-- Orders run one after the other, up to one that does not answer a next state. -/
theorem canonical_foldl {exec : Instr → State → Out} (he : ∀ (i : Instr) (t : State), t.Inv → Canonical (exec i t)) (is : List Instr) {r : Out}
    (hr : Canonical r) : Canonical (is.foldl (fun r i => match r with | .next t => exec i t | o => o) r) := by
  induction is generalizing r with
  | nil => exact hr
  | cons i rest ih =>
    refine ih ?_
    cases r with
    | next t => exact he i t hr
    | fault f => trivial
    | refused q => trivial

@[simp] theorem canonical_issueOrder {exec : Instr → State → Out} {e : EngineId} {s : State} (hs : s.Inv) (he : ∀ (i : Instr)
    (t : State), t.Inv → Canonical (exec i t)) :
    Canonical (s.issueOrder exec e) := by
  unfold State.issueOrder
  dsimp only
  split
  · exact hs
  split
  · exact inv_orderTrap _ _ _ hs
  have opened : ((s.openAt e).modCore fun c => c.modEngine e fun y => { y with last := s.clock + 1 }).Inv := (inv_openAt ..).2 hs
  split
  · exact (inv_modCore_iff ..).2 ((inv_foldl_iff (fun t i => inv_charge ..) _).2 opened)
  · have run := fun is => canonical_foldl he is ((canonical_next _).2 opened)
    split
    · next t ht => exact (inv_modCore_iff ..).2 (inv_of_canonical (run _) ht)
    · exact run _

theorem canonical_execTableStart (e : EngineId) {s : State} (hs : s.Inv) : Canonical (execTableStart e s) := by
  unfold execTableStart
  (repeat' split) <;> simp [hs]

@[simp] theorem inv_startLoop {s : State} (e : EngineId) (p : BitVec 1) (count len : Nat) : (s.startLoop e p count len).Inv ↔ s.Inv := Iff.rfl
@[simp] theorem inv_landFlag {s : State} (e : EngineId) (n v : Nat) : (s.landFlag e n v).Inv ↔ s.Inv := Iff.rfl
theorem canonical_execMfix (w : BitVec 4) (a : BitVec 6) (i j : BitVec 4) {s : State} (hs : s.Inv) : Canonical (execMfix w a i j s) := by
  refine canonical_order hs fun t ht => ?_
  dsimp only
  (repeat' split) <;> simp [ht]

theorem canonical_execDrainArrive {s : State} (hs : s.Inv) : Canonical (execDrainArrive s) := by
  unfold execDrainArrive
  dsimp only
  (repeat' split) <;> simp [hs]

@[simp] theorem inv_startEval {s : State} (n : Nat) (ins : List Byte) : (s.startEval n ins).Inv ↔ s.Inv := Iff.rfl
theorem canonical_execTemporalEvalLand {s : State} (hs : s.Inv) : Canonical (execTemporalEvalLand s) := by
  unfold execTemporalEvalLand
  (repeat' split) <;> simp [hs]

@[simp] theorem inv_landLanes {s : State} (d : BitVec 5) (lat : Nat) (f : Nat → Word32) : (s.landLanes d lat f).Inv ↔ s.Inv := Iff.rfl
@[simp] theorem canonical_lane2 (i : Instr) (d a b : BitVec 5) (lat : Nat) (f : Word32 → Word32 → Word32) {s : State} (hs : s.Inv) :
    Canonical (lane2 i d a b lat f s) := hs

@[simp] theorem canonical_lane1 (i : Instr) (d a : BitVec 5) (lat : Nat) (f : Word32 → Word32) {s : State} (hs : s.Inv) :
    Canonical (lane1 i d a lat f s) := hs

@[simp] theorem inv_stepLfsr {s : State} (rm : BitVec 3) : (s.stepLfsr rm).Inv ↔ s.Inv := by
  unfold State.stepLfsr
  split <;> rfl

@[simp] theorem canonical_laneRound (i : Instr) (d : BitVec 5) (rm : BitVec 3) (f : State → Nat → Nat → Word32) {s : State} (hs : s.Inv) :
    Canonical (laneRound i d rm f s) := by simp [laneRound, hs]

@[simp] theorem inv_landAllLanes {s : State} (d : BitVec 5) (lat : Nat) (f : Nat → Word32) : (s.landAllLanes d lat f).Inv ↔ s.Inv := Iff.rfl
theorem canonical_execMinv (w : BitVec 4) {s : State} (hs : s.Inv) :
    Canonical (execMinv w s) := canonical_order hs fun t ht => by dsimp only; split <;> simp [ht]

theorem canonical_execMpop (w : BitVec 4) (d : BitVec 5) {s : State} (hs : s.Inv) :
    Canonical (execMpop w d s) := canonical_order hs fun t ht => by dsimp only; split <;> simp [ht]

theorem canonical_execMskz (w : BitVec 4) (n : BitVec 7) {s : State} (hs : s.Inv) :
    Canonical (execMskz w n s) := canonical_order hs fun t ht => by split <;> simp [ht]

@[simp] theorem inv_performTload {s : State} (x : QEntry) (e : EngineId) (img : Word) (first count : Nat) (hi : Bool) (hs : s.Inv) :
    (s.performTload x e img first count hi).Inv := by
  unfold State.performTload
  dsimp only
  split
  · simpa using hs
  split
  · simpa using hs
  split
  · next a rest found =>
    exact inv_ite (inv_foldl (fun t a ht => inv_meetBad _ ht) _ hs) ((inv_queueTrap ..).2 (inv_foldl (fun t a ht => inv_meetBad _ ht) _ hs))
  · split <;> simpa using hs

@[simp] theorem inv_admitCrossing {s : State} (q : QueueId) (e : QEntry) (n : Nat) : (s.admitCrossing q e n).Inv ↔ s.Inv := Iff.rfl
@[simp] theorem inv_admitAtom {s : State} (e : QEntry) (id : Nat) : (s.admitAtom e id).Inv ↔ s.Inv := Iff.rfl
@[simp] theorem inv_admitXput {s : State} (e : QEntry) (code : Nat) (v : Word) : (s.admitXput e code v).Inv ↔ s.Inv := Iff.rfl
@[simp] theorem canonical_admitEntry {s : State} (q : QueueId) (e : QEntry) (hs : s.Inv) : Canonical (s.admitEntry q e) := by
  unfold State.admitEntry
  split <;> simp [hs]

theorem canonical_execCrossingAdmit (q : QueueId) {s : State} (hs : s.Inv) : Canonical (execCrossingAdmit q s) := by
  unfold execCrossingAdmit
  dsimp only
  (repeat' split) <;> simp [hs]

@[simp] theorem inv_redistribute {s : State} (p : Nat) : (s.redistribute p).Inv ↔ s.Inv := by
  unfold State.redistribute
  dsimp only
  split <;> rfl

theorem canonical_execHeatWindow {s : State} (hs : s.Inv) : Canonical (execHeatWindow s) := by simp [execHeatWindow, hs]
theorem canonical_execTrapEntry (cause : BitVec 16) (addr : BitVec 64) {s : State} (hs : s.Inv) : Canonical (execTrapEntry cause addr s) := by
  unfold execTrapEntry
  dsimp only
  (repeat' split) <;> simp [hs]

@[simp] theorem inv_modLaunch {s : State} (part id : Nat) (f : Launch → Launch) : (s.modLaunch part id f).Inv ↔ s.Inv := Iff.rfl
@[simp] theorem inv_request {s : State} (k : Nat) (rotation : Bool) : (s.request k rotation).Inv ↔ s.Inv := by
  unfold State.request
  dsimp only
  (repeat' split) <;> simp

theorem canonical_execPreemptionRequest (rotation : Bool) {s : State} (hs : s.Inv) :
    Canonical (execPreemptionRequest rotation s) := by simp [execPreemptionRequest, hs]

theorem canonical_execStopPoint {s : State} (hs : s.Inv) : Canonical (execStopPoint s) := canonical_ite hs (canonical_ite hs (inv_cleanLines _ _ hs))
@[simp] theorem inv_saveCore {s : State} (k : Nat) (hs : s.Inv) : (s.saveCore k).Inv := by
  unfold State.saveCore
  split <;> simp [hs]

theorem canonical_execContextSave {s : State} (hs : s.Inv) : Canonical (execContextSave s) := by
  unfold execContextSave
  split
  · dsimp only
    split
    · exact hs
    split
    · exact inv_saveCore _ hs
    split
    · exact inv_foldl (fun t k ht => inv_saveCore k ht) _ hs
    · exact hs
  · exact hs

@[simp] theorem inv_settleMirror {s : State} (k : Nat) : (s.settleMirror k).Inv ↔ s.Inv := Iff.rfl
@[simp] theorem inv_resume {s : State} (k : Nat) (i : BitVec 1) (hs : s.Inv) :
    (s.resume k i).Inv := inv_checked hs fun t ht => inv_onCore ((inv_settleMirror ..).2 ht) fun u hu => inv_restartOrEnd hu

theorem canonical_execContextRestore {s : State} (hs : s.Inv) : Canonical (execContextRestore s) := by
  unfold execContextRestore
  split
  · exact hs
  · dsimp only
    split
    · exact hs
    split
    · exact inv_resume _ _ hs
    split
    · exact inv_foldl (fun t x ht => inv_resume _ _ ht) _ hs
    · exact hs

@[simp] theorem inv_endSlot {s : State} (x : Nat × BitVec 1 × Slot) (status : BitVec 8) (cause : BitVec 16) (hs : s.Inv) :
    (s.endSlot x status cause).Inv := by
  unfold State.endSlot
  split <;> simp [hs]

@[simp] theorem inv_endLaunch {s : State} (part launch : Nat) (status : BitVec 8) (cause : BitVec 16) (hs : s.Inv) :
    (s.endLaunch part launch status cause).Inv := inv_foldl (fun t x ht => inv_endSlot _ _ _ ht) _ hs

@[simp] theorem inv_applyGate {s : State} (part : Nat) (l : Launch) (hs : s.Inv) : (s.applyGate part l).Inv := by
  unfold State.applyGate
  split <;> simp [hs]

theorem canonical_execTaskStart (i : BitVec 1) {s : State} (hs : s.Inv) : Canonical (execTaskStart i s) := by
  unfold execTaskStart
  dsimp only
  (repeat' split) <;> simp [hs]

theorem canonical_execGraphNodeRelease (part launch : Nat) {s : State} (hs : s.Inv) : Canonical (execGraphNodeRelease part launch s) := by
  unfold execGraphNodeRelease
  (repeat' split) <;> simp [hs]

theorem canonical_execRotation (pkg : BitVec 10) (die : BitVec 2) {s : State} (hs : s.Inv) : Canonical (execRotation pkg die s) := by
  unfold execRotation
  dsimp only
  split
  · exact hs
  · exact (inv_foldl_iff (fun t k => inv_request ..) _).2 hs

@[simp] theorem inv_rebind {s : State} (part d : Nat) : (s.rebind part d).Inv ↔ s.Inv := by
  unfold State.rebind
  dsimp only
  split
  · rfl
  · exact inv_foldl_iff (fun t i => inv_modCoreAt_iff _ _ _) _

theorem canonical_execRotationRebind (pkg : BitVec 10) (die : BitVec 2) {s : State} (hs : s.Inv) : Canonical (execRotationRebind pkg die s) := by
  unfold execRotationRebind
  dsimp only
  split
  · exact hs
  · exact (inv_foldl_iff (fun t p => (inv_modDieAt_iff ..).trans (inv_rebind ..)) _).2 hs

@[simp] theorem inv_logStructure {s : State} (pkg : Nat) (h : Word) (crc : Nat) : (s.logStructure pkg h crc).Inv ↔ s.Inv := Iff.rfl
@[simp] theorem inv_complete {s : State} (part queue : Nat) (bs : List Byte) (hs : s.Inv) :
    (s.complete part queue bs).Inv := inv_ite hs (inv_writeAt _ _ _ (inv_writeAt _ _ _ hs))

@[simp] theorem inv_freePayload {s : State} (arm : Option (Nat × Nat)) : (s.freePayload arm).Inv ↔ s.Inv := by
  unfold State.freePayload
  split <;> rfl

@[simp] theorem inv_bindLaunch {s : State} (part : Nat) (l : Launch) (ks spare : List Nat) (spans : List (Nat × Nat)) (hs : s.Inv) :
    (s.bindLaunch part l ks spare spans).Inv := by
  unfold State.bindLaunch
  dsimp only
  refine (inv_foldl_iff (fun t k => ?_) _).2 ((inv_modLaunch ..).2 ?_)
  · split <;> simp
  · refine (inv_foldl_iff (fun t x => inv_modToken ..) _).2 ?_
    refine (inv_foldl_iff (fun t k => inv_modCoreAt_iff ..) _).2 ?_
    exact (inv_foldl_iff (fun t i => inv_modCoreAt_iff ..) _).2 hs

@[simp] theorem inv_closeLaunch {s : State} (part : Nat) (l : Launch) (status cause : Nat) (hs : s.Inv) :
    (s.closeLaunch part l status cause).Inv := by
  unfold State.closeLaunch
  dsimp only
  (repeat' split) <;> simp [hs]

@[simp] theorem inv_tryBind {s : State} (part id : Nat) (hs : s.Inv) : (s.tryBind part id).Inv := by
  unfold State.tryBind
  (repeat' split) <;> simp [hs]

@[simp] theorem inv_enterLaunch {s : State} (part : Nat) (l : Launch) : (s.enterLaunch part l).Inv ↔ s.Inv := Iff.rfl
@[simp] theorem inv_grantNode {s : State} (part : Nat) (l : Launch) (hs : s.Inv) : (s.grantNode part l).Inv := by
  unfold State.grantNode
  split <;> simp [hs]

@[simp] theorem inv_startReplayOf {s : State} (part queue pkg : Nat) (rec_ : BitVec 1024) (payload : Word) (arm : Option (Nat × Nat)) (hs : s.Inv) :
    (s.startReplayOf part queue pkg rec_ payload arm).Inv := by
  unfold State.startReplayOf
  dsimp only
  refine inv_foldl (fun t l ht => by split; exacts [inv_tryBind _ _ ht, ht]) _ ?_
  refine inv_foldl (fun t l ht => inv_grantNode _ _ ht) _ ?_
  exact (inv_foldl_iff (fun t l => inv_enterLaunch ..) _).2 ((inv_modPartAt_iff ..).2 ((inv_enterLaunch ..).2 hs))

@[simp] theorem inv_submit {s : State} (part queue pkg : Nat) (r : BitVec 1024) (payload : Word) (arm : Option (Nat × Nat)) (hs : s.Inv) :
    (s.submit part queue pkg r payload arm).Inv := by
  unfold State.submit
  dsimp only
  (repeat' split) <;> simp [hs]

@[simp] theorem inv_stopQueue {s : State} (part queue : Nat) (q : LaunchQueue) : (s.stopQueue part queue q).Inv ↔ s.Inv := Iff.rfl
@[simp] theorem canonical_takeRecord {s : State} {part queue : Nat} {want : State → LaunchQueue → BitVec 1024 → Bool}
    {go : State → LaunchQueue → BitVec 1024 → State} (hs : s.Inv)
    (hg : ∀ (t : State) (q : LaunchQueue) (r : BitVec 1024), t.Inv → (go t q r).Inv) :
    Canonical (s.takeRecord part queue want go) := by
  unfold State.takeRecord
  split
  · exact hs
  split
  · exact hs
  split
  · simpa using hs
  split
  · exact hs
  split
  · exact hs
  split
  · exact hg _ _ _ (inv_writeAt _ _ _ hs)
  · exact hs

theorem canonical_execAdmission (part queue : Nat) {s : State} (hs : s.Inv) :
    Canonical (execAdmission part queue s) := canonical_takeRecord hs fun t q r ht => inv_submit _ _ _ _ _ _ ht

theorem canonical_execAdmissionRetest (part : Nat) {s : State} (hs : s.Inv) :
    Canonical (execAdmissionRetest part s) := inv_foldl (fun t l ht => inv_tryBind _ _ ht) _ hs

theorem canonical_execGraphReplay (part queue : Nat) {s : State} (hs : s.Inv) :
    Canonical (execGraphReplay part queue s) := canonical_takeRecord hs fun t q r ht => inv_startReplayOf _ _ _ _ _ _ ht

@[simp] theorem inv_checkEnded {s : State} (part launch : Nat) (hs : s.Inv) :
    (s.checkEnded part launch).Inv := inv_foldl (fun t x ht => inv_checked ht fun u hu => hu) _ hs

theorem canonical_execLaunchCompletion (part launch : Nat) {s : State} (hs : s.Inv) : Canonical (execLaunchCompletion part launch s) := by
  unfold execLaunchCompletion
  (repeat' split) <;> simp [hs]

theorem canonical_execLaunchKill (part launch : Nat) {s : State} (hs : s.Inv) : Canonical (execLaunchKill part launch s) := by
  unfold execLaunchKill
  (repeat' split) <;> simp [hs]

@[simp] theorem inv_matchMessage {s : State} (pkg tag : Nat) (payload : List Byte) (hs : s.Inv) : (s.matchMessage pkg tag payload).Inv := by
  unfold State.matchMessage
  dsimp only
  have logged : ((((s.pkgAt pkg).armsFor tag).filter fun x => !armCrcOk x.2).foldl
      (fun s x => s.logStructure pkg (word x.1) (armField x.2 0x1C 4)) s).Inv := (inv_foldl_iff (fun t x => inv_logStructure ..) _).2 hs
  split
  · exact (inv_logIo ..).2 logged
  · exact inv_ite logged (inv_submit _ _ _ _ _ _ ((inv_modPkgAt_iff ..).2 (inv_writeAt _ _ _ logged)))

theorem canonical_execMessageMatch (pkg : BitVec 10) (tag : BitVec 16) (payload : List (BitVec 8)) {s : State} (hs : s.Inv) :
    Canonical (execMessageMatch pkg tag payload s) := by
  unfold execMessageMatch
  (repeat' split) <;> simp [hs]

theorem canonical_execFrameClassify (pkg : BitVec 10) (port : BitVec 1) (ethertype : BitVec 16) (payload : List (BitVec 8)) {s : State} (hs : s.Inv) :
    Canonical (execFrameClassify pkg port ethertype payload s) := by
  unfold execFrameClassify
  dsimp only
  (repeat' split) <;> simp [hs]

theorem canonical_execMessageSend (pkg : BitVec 10) {s : State} (hs : s.Inv) : Canonical (execMessageSend pkg s) := by
  unfold execMessageSend
  split
  · exact hs
  split
  · exact hs
  split
  · simpa using hs
  · exact canonical_ite hs (canonical_ite ((inv_logStructure ..).2 (inv_writeAt _ _ _ hs)) (inv_writeAt _ _ _ hs))

theorem canonical_execLaunchArmWrite (pkg : BitVec 10) (entry : BitVec 8) (part queue : Nat) (v : BitVec 256) {s : State} (hs : s.Inv) :
    Canonical (execLaunchArmWrite pkg entry part queue v s) := by
  unfold execLaunchArmWrite
  dsimp only
  (repeat' split) <;> simp [hs]

@[simp] theorem inv_shootDown {s : State} (part i : Nat) : (s.shootDown part i).Inv ↔ s.Inv := Iff.rfl
@[simp] theorem inv_settleShoots {s : State} (part : Nat) (hs : s.Inv) :
    (s.settleShoots part).Inv := inv_foldl (fun t x ht => (inv_shootDown ..).2 (inv_setRegion _ _ _ ht)) _ hs

theorem canonical_execRegionEntryWrite (part : Nat) (entry : BitVec 12) (v : BitVec 512) {s : State} (hs : s.Inv) :
    Canonical (execRegionEntryWrite part entry v s) := by
  unfold execRegionEntryWrite
  dsimp only
  (repeat' split) <;> simp [hs]

theorem canonical_execKeySlotLoad (pkg : BitVec 10) (slot : BitVec 8) (key : BitVec 512) {s : State} (hs : s.Inv) :
    Canonical (execKeySlotLoad pkg slot key s) := by
  unfold execKeySlotLoad
  (repeat' split) <;> simp [hs]

theorem canonical_execMemprotWrite (pkg : BitVec 10) (v : BitVec 64) {s : State} (hs : s.Inv) : Canonical (execMemprotWrite pkg v s) := by
  unfold execMemprotWrite
  split <;> exact hs

theorem canonical_execErrorBankClear (pkg : BitVec 10) (v : BitVec 64) {s : State} (hs : s.Inv) : Canonical (execErrorBankClear pkg v s) := by
  unfold execErrorBankClear
  dsimp only
  (repeat' split) <;> simp [hs]

@[simp] theorem inv_markBad {s : State} (pkg : Nat) (e : MemError) : (s.markBad pkg e).Inv ↔ s.Inv := by
  unfold State.markBad
  split <;> rfl

theorem canonical_execScrub (pkg : BitVec 10) (die : BitVec 2) (found : MemError) {s : State} (hs : s.Inv) :
    Canonical (execScrub pkg die found s) := by
  unfold execScrub
  (repeat' split) <;> simp [hs]

theorem canonical_execBankFailure (pkg : BitVec 10) (stripe : Nat) {s : State} (hs : s.Inv) : Canonical (execBankFailure pkg stripe s) := by
  unfold execBankFailure
  split <;> exact hs

theorem canonical_execBankRebuildComplete (pkg : BitVec 10) (stripe : Nat) {s : State} (hs : s.Inv) :
    Canonical (execBankRebuildComplete pkg stripe s) := by
  unfold execBankRebuildComplete
  split <;> exact hs

theorem canonical_execMirrorAck {s : State} (hs : s.Inv) : Canonical (execMirrorAck s) := by
  unfold execMirrorAck
  split <;> exact hs

theorem canonical_execMirrorTimeout {s : State} (hs : s.Inv) : Canonical (execMirrorTimeout s) := by
  unfold execMirrorTimeout
  dsimp only
  split <;> exact hs

theorem canonical_execParkedSpanHandover (part : Nat) (token : BitVec 34) (peer : Option (BitVec 64)) (clearTaint : Bool) {s : State} (hs : s.Inv) :
    Canonical (execParkedSpanHandover part token peer clearTaint s) := by
  unfold execParkedSpanHandover
  (repeat' split) <;> simp [hs]

theorem canonical_execKernelLoad (part : Nat) (image : KernelImage) {s : State} (hs : s.Inv) : Canonical (execKernelLoad part image s) := by
  unfold execKernelLoad
  split
  · exact hs
  · exact (inv_modPartAt_iff ..).2 (inv_foldl (fun t x ht => inv_createRegion _ _ _ ht) _ hs)

theorem canonical_execCodePatch (part : Nat) (h : BitVec 64) (w : BitVec 32) {s : State} (hs : s.Inv) : Canonical (execCodePatch part h w s) := by
  unfold execCodePatch
  split
  · exact canonical_ite (inv_partBytes _ _ _ hs) hs
  · exact hs

theorem canonical_execHostStore (part : Nat) (h : BitVec 64) (bytes : List (BitVec 8)) {s : State} (hs : s.Inv) :
    Canonical (execHostStore part h bytes s) := inv_ite (inv_writeAt _ _ _ hs) hs

theorem canonical_execDeviceDma (part : Nat) (h : BitVec 64) (write : Option (List (BitVec 8))) {s : State} (hs : s.Inv) :
    Canonical (execDeviceDma part h write s) := by
  unfold execDeviceDma
  split
  · exact hs
  · split
    · exact inv_partBytes _ _ _ hs
    · exact hs

@[simp] theorem inv_failCore {s : State} (k : Nat) : (s.failCore k).Inv ↔ s.Inv := by
  unfold State.failCore
  dsimp only
  (repeat' split) <;> simp

theorem canonical_execCoreFailure (pkg : BitVec 10) (core : BitVec 8) {s : State} (hs : s.Inv) : Canonical (execCoreFailure pkg core s) := by
  unfold execCoreFailure
  split <;> simp [hs]

@[simp] theorem inv_failPackage {s : State} (k : Nat) (hs : s.Inv) : (s.failPackage k).Inv := by
  unfold State.failPackage
  dsimp only
  refine (inv_foldl_iff (fun t x => inv_shootDown ..) _).2 ?_
  exact (inv_foldl_iff (fun t x => inv_failCore ..) _).2 hs

theorem canonical_execPackageFailure (pkg : BitVec 10) {s : State} (hs : s.Inv) : Canonical (execPackageFailure pkg s) := by
  unfold execPackageFailure
  split <;> simp [hs]

theorem canonical_execFlitCrcFail (pkg : BitVec 10) (die : BitVec 2) (port : BitVec 7) {s : State} (hs : s.Inv) :
    Canonical (execFlitCrcFail pkg die port s) := by
  unfold execFlitCrcFail
  split <;> exact hs

theorem canonical_execPortFail (pkg : BitVec 10) (die : BitVec 2) (port : BitVec 7) {s : State} (hs : s.Inv) :
    Canonical (execPortFail pkg die port s) := by
  unfold execPortFail
  dsimp only
  (repeat' split) <;> simp [hs]

theorem canonical_execModuleReset (pkg : BitVec 10) (boot : BootInputs) {s : State} (hs : s.Inv) :
    Canonical (execModuleReset pkg boot s) := canonical_ite hs (inv_resetModule _ _ hs)

theorem canonical_execLockstepMismatch (pkg : BitVec 10) (boot : BootInputs) {s : State} (hs : s.Inv) :
    Canonical (execLockstepMismatch pkg boot s) := canonical_ite hs (inv_resetModule _ _ hs)

theorem canonical_execColdHandshakeTimeout (pkg : BitVec 10) {s : State} (hs : s.Inv) : Canonical (execColdHandshakeTimeout pkg s) := by
  unfold execColdHandshakeTimeout
  dsimp only
  (repeat' split) <;> simp [hs]

theorem canonical_execQuadRailSet (pkg : BitVec 10) (die : BitVec 2) (quad : BitVec 4) (mv : Nat) {s : State} (hs : s.Inv) :
    Canonical (execQuadRailSet pkg die quad mv s) := by
  unfold execQuadRailSet
  split <;> exact hs

theorem canonical_execDroop (pkg : BitVec 10) (die : BitVec 2) (quad : BitVec 4) {s : State} (hs : s.Inv) : Canonical (execDroop pkg die quad s) := by
  unfold execDroop
  split <;> exact hs

theorem canonical_execDroopRaise (pkg : BitVec 10) (die : BitVec 2) (quad : BitVec 4) {s : State} (hs : s.Inv) :
    Canonical (execDroopRaise pkg die quad s) := by
  unfold execDroopRaise
  dsimp only
  (repeat' split) <;> simp [hs]

theorem canonical_execDroopRecovery (pkg : BitVec 10) (die : BitVec 2) (quad : BitVec 4) {s : State} (hs : s.Inv) :
    Canonical (execDroopRecovery pkg die quad s) := by
  unfold execDroopRecovery
  split <;> exact hs

theorem canonical_execClockHop (pkg : BitVec 10) (die : BitVec 2) (quad : BitVec 4) {s : State} (hs : s.Inv) :
    Canonical (execClockHop pkg die quad s) := by
  unfold execClockHop
  split <;> exact hs

theorem canonical_execCesetWrite (pkg : BitVec 10) (die : BitVec 2) (v : BitVec 16) {s : State} (hs : s.Inv) :
    Canonical (execCesetWrite pkg die v s) := by
  unfold execCesetWrite
  (repeat' split) <;> simp [hs]

theorem canonical_execMarginStep (pkg : BitVec 10) (die : BitVec 2) {s : State} (hs : s.Inv) : Canonical (execMarginStep pkg die s) := by
  unfold execMarginStep
  split <;> exact hs

theorem canonical_execCesetRestore (pkg : BitVec 10) (die : BitVec 2) {s : State} (hs : s.Inv) : Canonical (execCesetRestore pkg die s) := by
  unfold execCesetRestore
  dsimp only
  (repeat' split) <;> simp [hs]

theorem canonical_execMarginError (pkg : BitVec 10) (die : BitVec 2) (core : BitVec 6) (rereadOk : Bool) (found : MemError) {s : State} (hs : s.Inv) :
    Canonical (execMarginError pkg die core rereadOk found s) := by
  unfold execMarginError
  dsimp only
  (repeat' split) <;> simp [hs]

@[simp] theorem inv_setCeilings {s : State} (p n : Nat) : (s.setCeilings p n).Inv ↔ s.Inv := Iff.rfl
theorem canonical_execStageTemperature (pkg : BitVec 10) (t4 t50 lift : Nat) {s : State} (hs : s.Inv) :
    Canonical (execStageTemperature pkg t4 t50 lift s) := by
  unfold execStageTemperature
  have four : ∀ f, ((s.modPkgAt pkg.toNat f).stepFour pkg.toNat).Inv := fun f => inv_stepFour _ hs
  have set : ∀ {c d : Prop} [Decidable c] [Decidable d] f a b, (if c then ((s.modPkgAt pkg.toNat f).stepFour pkg.toNat).setCeilings pkg.toNat a else
      if d then ((s.modPkgAt pkg.toNat f).stepFour pkg.toNat).setCeilings pkg.toNat b else (s.modPkgAt pkg.toNat f).stepFour pkg.toNat).Inv :=
    fun f a b => inv_ite ((inv_setCeilings ..).2 (four f)) (inv_ite ((inv_setCeilings ..).2 (four f)) (four f))
  exact canonical_ite hs (canonical_ite ((inv_foldl_iff (fun t x => inv_request ..) _).2 (set ..)) (set ..))

theorem canonical_execDrainDeadline (pkg : BitVec 10) {s : State} (hs : s.Inv) : Canonical (execDrainDeadline pkg s) := by
  unfold execDrainDeadline
  dsimp only
  split
  · exact hs
  split
  · exact hs
  · exact inv_foldl (fun t x ht => inv_endLaunch _ _ _ _ ((inv_modLaunch ..).2 ht)) _ hs

@[simp] theorem inv_fillCode {s : State} (key : Nat) (ls : List Lane) (hs : s.Inv) : (s.fillCode key ls).Inv := by
  unfold State.fillCode
  dsimp only
  split <;> simp [hs]

@[simp] theorem inv_endSubst {s t : State} (ht : t.Inv) : (State.endSubst s t).Inv := by
  unfold State.endSubst
  split <;> exact ht

/-- Every instruction leaves memory in canonical form. -/
theorem canonical_exec (i : Instr) {s : State} (hs : s.Inv) : Canonical (exec i s) := by
  unfold exec
  cases i with
  | add | sub | and | or | xor | andn | orn | sll | srl | sra | mul | mulh | mulhu | div | divu | rem | remu | min | max | minu | maxu 
    | slt | sltu | addw | subw | sllw | srlw | sraw | mulw => exact canonical_word3 (hs := hs) ..
  | clz | ctz | popc | addi | andi | ori | xori | slli | srli | srai | slti | sltiu => exact canonical_word2 (hs := hs) ..
  | lui | addpc => exact canonical_word1 (hs := hs) ..
  | pand | por | pxor => exact canonical_pred2 (hs := hs) ..
  | pnot | pmov => exact canonical_pred1 (hs := hs) ..
  | pcmp | pcmpi | sel | jal | nop | cset | cget | cadd | caddi => exact canonical_control hs fun _ ht => ht
  | br | qmark | xget | shpget | tstartEv | tstop => exact canonical_control hs fun _ ht => by split <;> simp [ht]
  | sendl | sendr => exact canonical_sendPort (hs := hs) ..
  | recvl | recvr => exact canonical_recvPort (hs := hs) ..
  | cwb | cinv | cwbinv => exact canonical_cacheWord (hs := hs) ..
  | xin | xinm | xout => exact canonical_crossWord (hs := hs) ..
  | copy | copys | fill | bcast | cksum | signal | waitseq | tokret | link | mirwait => exact canonical_takeEntry (hs := hs) ..
  | ownLend | ownGive | ownRet | ownShare => exact canonical_sendWord (hs := hs) ..
  | aadd | aaddf | axchg | a2sum => exact canonical_atomWord (hs := hs) ..
  | ecall | rotpt => exact canonical_compared hs (fun _ ht => ht) fun _ ht => ht
  | vmin | vmax | vexpd | viadd | visub | vimul | vand | vor | vxor | vshl | vshr | vsar => exact canonical_lane2 (hs := hs) ..
  | vabs | vneg | vexp2 | vlog2 | vrcp | vrsq | vmov => exact canonical_lane1 (hs := hs) ..
  | vadd | vsub | vmul | vfma => exact canonical_laneRound (hs := hs) ..
  | mtile | vcvt => exact canonical_order hs fun _ ht => by simp [ht]
  | mcopy | mmask | mskz => exact canonical_order hs fun _ ht => by split <;> simp [ht]
  | tstatWrite | oeqstatWrite | heatbudWrite | injWrite | mnop | mma | mldm | mscale | mstore | mzero | mdrain | mchk | mlda | ma2s | mloop 
    | mflag | mwaits | mcbt | vnop | vcmp | vsel | vbcast | vperm | vred | vscan | vsegid | vld | vst | vldacc | vstacc | vparam | mpush 
    | vloop | vflag | vwaits | tnop | tdload | tmode | tmodeAll | tmodeTs | twset | tlaunch | tcapture | treset | trelax | tflag 
    | wfiTimeout => exact hs
  | jalr => exact canonical_execJalr (hs := hs) ..
  | loop => exact canonical_execLoop (hs := hs) ..
  | lexit => exact canonical_execLexit (hs := hs) ..
  | join => exact canonical_execJoin (hs := hs) ..
  | brk => exact canonical_execBrk (hs := hs) ..
  | ld => exact canonical_execLd (hs := hs) ..
  | st => exact canonical_execSt (hs := hs) ..
  | loadPerform => exact canonical_execLoadPerform (hs := hs) ..
  | loadDataReturn => exact canonical_execLoadDataReturn (hs := hs) ..
  | storePerform => exact canonical_execStorePerform (hs := hs) ..
  | xput => exact canonical_execXput (hs := hs) ..
  | xwait => exact canonical_execXwait (hs := hs) ..
  | xcancel => exact canonical_execXcancel (hs := hs) ..
  | shpld => exact canonical_execShpld (hs := hs) ..
  | shpst => exact canonical_execShpst (hs := hs) ..
  | btld => exact canonical_execBtld (hs := hs) ..
  | shpset => exact canonical_execShpset (hs := hs) ..
  | tstart => exact canonical_execTstart (hs := hs) ..
  | tbase => exact canonical_execTbase (hs := hs) ..
  | tsync => exact canonical_execTsync (hs := hs) ..
  | tload => exact canonical_execTload (hs := hs) ..
  | evcfg => exact canonical_execEvcfg (hs := hs) ..
  | evsig => exact canonical_execEvsig (hs := hs) ..
  | evwait => exact canonical_execEvwait (hs := hs) ..
  | cptail => exact canonical_execCptail (hs := hs) ..
  | cpseq => exact canonical_execCpseq (hs := hs) ..
  | ownSplit => exact canonical_execOwnSplit (hs := hs) ..
  | ownMerge => exact canonical_execOwnMerge (hs := hs) ..
  | ownUnshare => exact canonical_execOwnUnshare (hs := hs) ..
  | ownWait => exact canonical_execOwnWait (hs := hs) ..
  | ownQuery => exact canonical_execOwnQuery (hs := hs) ..
  | tokenSendComplete => exact canonical_execTokenSendComplete (hs := hs) ..
  | bar => exact canonical_execBar (hs := hs) ..
  | barrierComplete => exact canonical_execBarrierComplete (hs := hs) ..
  | fence => exact canonical_execFence (hs := hs) ..
  | atomApply => exact canonical_execAtomApply (hs := hs) ..
  | atomComplete => exact canonical_execAtomComplete (hs := hs) ..
  | srd => exact canonical_execSrd (hs := hs) ..
  | swr => exact canonical_execSwr (hs := hs) ..
  | tret => exact canonical_execTret (hs := hs) ..
  | tack => exact canonical_execTack (hs := hs) ..
  | halt => exact canonical_execHalt (hs := hs) ..
  | wfi => exact canonical_execWfi (hs := hs) ..
  | oeqpop => exact canonical_execOeqpop (hs := hs) ..
  | iinv => exact canonical_execIinv (hs := hs) ..
  | engineCommandPerform => exact canonical_execEngineCommandPerform (hs := hs) ..
  | crossingAdmit => exact canonical_execCrossingAdmit (hs := hs) ..
  | crossingComplete => exact canonical_execCrossingComplete (hs := hs) ..
  | xoutCapture => exact canonical_execXoutCapture (hs := hs) ..
  | unitStall => exact canonical_execUnitStall (hs := hs) ..
  | smiss => exact canonical_execSmiss (hs := hs) ..
  | depto => exact canonical_execDepto (hs := hs) ..
  | plen => exact canonical_execPlen (hs := hs) ..
  | tableStart => exact canonical_execTableStart (hs := hs) ..
  | termFire => exact canonical_execTermFire (hs := hs) ..
  | engineIdle => exact canonical_execEngineIdle (hs := hs) ..
  | drainArrive => exact canonical_execDrainArrive (hs := hs) ..
  | mfix => exact canonical_execMfix (hs := hs) ..
  | minv => exact canonical_execMinv (hs := hs) ..
  | mpop => exact canonical_execMpop (hs := hs) ..
  | temporalEvalLand => exact canonical_execTemporalEvalLand (hs := hs) ..
  | entryComplete => exact canonical_execEntryComplete (hs := hs) ..
  | mirrorAck => exact canonical_execMirrorAck (hs := hs) ..
  | mirrorTimeout => exact canonical_execMirrorTimeout (hs := hs) ..
  | heatWindow => exact canonical_execHeatWindow (hs := hs) ..
  | trapEntry => exact canonical_execTrapEntry (hs := hs) ..
  | preemptionRequest => exact canonical_execPreemptionRequest (hs := hs) ..
  | stopPoint => exact canonical_execStopPoint (hs := hs) ..
  | contextSave => exact canonical_execContextSave (hs := hs) ..
  | contextRestore => exact canonical_execContextRestore (hs := hs) ..
  | rotation => exact canonical_execRotation (hs := hs) ..
  | rotationRebind => exact canonical_execRotationRebind (hs := hs) ..
  | admission => exact canonical_execAdmission (hs := hs) ..
  | admissionRetest => exact canonical_execAdmissionRetest (hs := hs) ..
  | taskStart => exact canonical_execTaskStart (hs := hs) ..
  | graphNodeRelease => exact canonical_execGraphNodeRelease (hs := hs) ..
  | graphReplay => exact canonical_execGraphReplay (hs := hs) ..
  | launchCompletion => exact canonical_execLaunchCompletion (hs := hs) ..
  | messageMatch => exact canonical_execMessageMatch (hs := hs) ..
  | frameClassify => exact canonical_execFrameClassify (hs := hs) ..
  | messageSend => exact canonical_execMessageSend (hs := hs) ..
  | launchArmWrite => exact canonical_execLaunchArmWrite (hs := hs) ..
  | regionEntryWrite => exact canonical_execRegionEntryWrite (hs := hs) ..
  | keySlotLoad => exact canonical_execKeySlotLoad (hs := hs) ..
  | memprotWrite => exact canonical_execMemprotWrite (hs := hs) ..
  | errorBankClear => exact canonical_execErrorBankClear (hs := hs) ..
  | cesetWrite => exact canonical_execCesetWrite (hs := hs) ..
  | scrub => exact canonical_execScrub (hs := hs) ..
  | marginStep => exact canonical_execMarginStep (hs := hs) ..
  | marginError => exact canonical_execMarginError (hs := hs) ..
  | cesetRestore => exact canonical_execCesetRestore (hs := hs) ..
  | droop => exact canonical_execDroop (hs := hs) ..
  | droopRaise => exact canonical_execDroopRaise (hs := hs) ..
  | clockHop => exact canonical_execClockHop (hs := hs) ..
  | stageTemperature => exact canonical_execStageTemperature (hs := hs) ..
  | drainDeadline => exact canonical_execDrainDeadline (hs := hs) ..
  | flitCrcFail => exact canonical_execFlitCrcFail (hs := hs) ..
  | portFail => exact canonical_execPortFail (hs := hs) ..
  | packageFailure => exact canonical_execPackageFailure (hs := hs) ..
  | coreFailure => exact canonical_execCoreFailure (hs := hs) ..
  | moduleReset => exact canonical_execModuleReset (hs := hs) ..
  | coldHandshakeTimeout => exact canonical_execColdHandshakeTimeout (hs := hs) ..
  | lockstepMismatch => exact canonical_execLockstepMismatch (hs := hs) ..
  | tlbWalkReturn => exact canonical_execTlbWalkReturn (hs := hs) ..
  | launchKill => exact canonical_execLaunchKill (hs := hs) ..
  | parkedSpanHandover => exact canonical_execParkedSpanHandover (hs := hs) ..
  | kernelLoad => exact canonical_execKernelLoad (hs := hs) ..
  | codePatch => exact canonical_execCodePatch (hs := hs) ..
  | hostStore => exact canonical_execHostStore (hs := hs) ..
  | deviceDma => exact canonical_execDeviceDma (hs := hs) ..
  | quadRailSet => exact canonical_execQuadRailSet (hs := hs) ..
  | droopRecovery => exact canonical_execDroopRecovery (hs := hs) ..
  | bankFailure => exact canonical_execBankFailure (hs := hs) ..
  | bankRebuildComplete => exact canonical_execBankRebuildComplete (hs := hs) ..

@[simp] theorem canonical_issueSplit {s : State} (hs : s.Inv) : Canonical (s.issueSplit) := by
  unfold State.issueSplit
  split
  · exact inv_wordTrap _ _ hs
  · exact inv_fillCode _ _ hs
  · split
    · exact inv_wordTrap _ _ hs
    · split
      · exact hs
      · next i _ _ =>
        have performed := canonical_exec i hs
        split
        · next t ht => exact inv_endSubst (inv_of_canonical performed ht)
        · exact performed

theorem canonical_runWords (ws : List (Lane × Instr)) {s : State} (hs : s.Inv) : Canonical (runWords ws s) := by
  induction ws generalizing s with
  | nil => exact hs
  | cons w rest ih =>
    obtain ⟨l, i⟩ := w
    have performed := canonical_exec i (s := { s with lane := l }) hs
    unfold runWords
    split
    · next t ht =>
      exact canonical_ite (inv_of_canonical performed ht) (ih (inv_endSubst (inv_of_canonical performed ht)))
    · exact performed

theorem canonical_of_judge {s : State} (hs : s.Inv) {is : List (Lane × Instr)} {o : Out} (judged : judge s is = .error o) : Canonical o := by
  induction is with
  | nil => cases judged
  | cons w rest ih =>
    obtain ⟨l, i⟩ := w
    unfold judge at judged
    split at judged
    · split at judged
      · cases judged
      · next e he => cases judged; exact ih he
    · cases judged
      exact canonical_exec i (s := { s with lane := l }) hs

@[simp] theorem canonical_performGroup {s : State} (pc : Word) (ls : List Lane) (is : List (Lane × Instr)) (hs : s.Inv) :
    Canonical (s.performGroup pc ls is) := by
  have bind : ∀ {o : Out} {f : State → Out}, Canonical o → (∀ t : State, t.Inv → Canonical (f t)) →
      Canonical (match o with | .next t => f t | o => o) := fun {o f} ho hf => by
    cases o with
    | next t => exact hf t ho
    | fault _ => trivial
    | refused _ => trivial
  unfold State.performGroup
  refine bind (bind (canonical_runWords _ hs) fun t ht => canonical_ite ht (canonical_runWords _ ht)) fun t ht => ?_
  refine canonical_ite ht (canonical_ite ?_ (canonical_ite (inv_wordTrap _ _ hs) (canonical_ite ((inv_retireBundle ..).2 ht) ht)))
  exact (inv_foldl_iff (fun (u : State) (x : Lane × Instr) => inv_waitAtIssue (s := { u with lane := x.1 })) _).2 hs

theorem canonical_of_decodeGroup {s : State} (hs : s.Inv) {b : BitVec 128} {ls : List Lane} {o : Out}
    (decoded : s.decodeGroup b ls = .error o) : Canonical o := by
  induction ls with
  | nil => cases decoded
  | cons l rest ih =>
    unfold State.decodeGroup at decoded
    dsimp only at decoded
    split at decoded
    · cases decoded; exact inv_wordTrap _ _ hs
    · split at decoded
      · cases decoded; exact inv_wordTrap _ _ hs
      · split at decoded
        · cases decoded
        · next e he => cases decoded; exact ih he

@[simp] theorem canonical_issueGroup {s : State} (hs : s.Inv) : Canonical (s.issueGroup) := by
  unfold State.issueGroup
  dsimp only
  split
  · exact hs
  split
  · exact inv_wordTrap _ _ hs
  · exact inv_fillCode _ _ hs
  split
  · next o decoded => exact canonical_of_decodeGroup hs decoded
  split
  · exact hs
  split
  · next o judged => exact canonical_of_judge hs judged
  refine canonical_ite (canonical_runWords _ hs) (canonical_ite (canonical_runWords _ hs) (canonical_ite (inv_wordTrap _ _ hs) ?_))
  split
  · exact canonical_exec _ (s := { s with lane := _ }) hs
  · exact canonical_performGroup _ _ _ hs

@[simp] theorem canonical_issue {s : State} (l : Lane) (group : Bool) (hs : s.Inv) :
    Canonical (s.issue l group) := 
  canonical_ite hs (canonical_ite (canonical_exec (.halt 1 0) hs) (canonical_ite (canonical_issueGroup hs) (canonical_ite hs (canonical_issueSplit hs))))

@[simp] theorem canonical_engineCycle {s : State} (e : EngineId) (hs : s.Inv) :
    Canonical (s.engineCycle e) := canonical_ite hs (canonical_ite ((inv_filler ..).2 hs) (canonical_issueOrder hs fun i t ht => canonical_exec i ht))

@[simp] theorem canonical_takeNext {s : State} (hs : s.Inv) : Canonical (s.takeNext) := by
  unfold State.takeNext
  split
  · exact hs
  split
  · exact (inv_walkFor ..).2 ((inv_translated ..).2 hs)
  · dsimp only
    split
    · exact canonical_exec _ hs
    · exact canonical_ite ((inv_takeRetired ..).2 hs) (canonical_ite (inv_haltBad _ _ hs) (inv_haltString _ _ hs))

@[simp] theorem canonical_serve {s : State} (q : Nat) (hs : s.Inv) : Canonical (s.serve q) := by
  unfold State.serve
  split <;> simp [hs]

@[simp] theorem inv_ahead {s : State} (hs : s.Inv) : (s.ahead).Inv := by
  unfold State.ahead
  dsimp only
  refine inv_putAhead (inv_beginEntry ?_)
  split
  · exact inv_cleanLines _ _ hs
  · exact hs

@[simp] theorem canonical_doAction {s : State} (a : Action) (hs : s.Inv) : Canonical (s.doAction a) := by
  unfold State.doAction
  dsimp only
  split
  · exact canonical_issue _ _ hs
  · exact inv_landAll hs
  · exact canonical_engineCycle _ hs
  · exact canonical_serve _ hs
  · exact inv_ahead hs
  · exact canonical_ite hs (canonical_exec _ hs)

@[simp] theorem inv_nextCycle {s : State} : (s.nextCycle).Inv ↔ s.Inv := Iff.rfl
@[simp] theorem inv_lookOn (k x : Nat) {s : State} (as : List Action) (hs : s.Inv) : (s.lookOn k x as).2.Inv := by
  have step : ∀ (r : Bool × State) (a : Action), r.2.Inv →
      (if r.1 then r
      else match r.2.doAction a with
        | .next t => match trapTaken k r.2 t with
          | some y => (decide (y < x), r.2)
          | none => (false, t)
        | _ => r).2.Inv := fun r a hr => by
    split
    · exact hr
    · split
      · next t ht =>
        split
        · exact hr
        · exact inv_of_canonical (canonical_doAction a hr) ht
      · exact hr
  suffices ∀ (as : List Action) (r : Bool × State), r.2.Inv → (as.foldl (fun r a =>
      if r.1 then r
      else match r.2.doAction a with
        | .next t => match trapTaken k r.2 t with
          | some y => (decide (y < x), r.2)
          | none => (false, t)
        | _ => r) r).2.Inv from this as (false, s) hs
  intro as
  induction as with
  | nil => exact fun r hr => hr
  | cons a rest ih => exact fun r hr => ih _ (step r a hr)

@[simp] theorem canonical_act {s : State} (a : Action) (hs : s.Inv) : Canonical (s.act a) := by
  unfold State.act
  split <;> simp [hs]

@[simp] theorem inv_dueTrap {s : State} : s.dueTrap.Inv ↔ s.Inv := by
  unfold State.dueTrap
  split <;> simp

@[simp] theorem inv_dueReturn {s : State} (hs : s.Inv) : (s.dueReturn).Inv := by
  unfold State.dueReturn
  split <;> simp [hs]

@[simp] theorem inv_startWarm {s : State} (k : Nat) (hs : s.Inv) : (s.startWarm k).Inv := by simp [State.startWarm, hs]
@[simp] theorem inv_startDies {s : State} : (s.startDies).Inv ↔ s.Inv := Iff.rfl
theorem inv_pick {s : State} (as : List (Bool × Action)) (hs : s.Inv) : (s.pick as).2.Inv := by
  induction as generalizing s with
  | nil => exact hs
  | cons a rest ih =>
    obtain ⟨free, a⟩ := a
    unfold State.pick
    split
    · exact ih ((inv_choose ..).2 hs)
    · exact ih hs

@[simp] theorem inv_beginWarm {s : State} (hs : s.Inv) : (s.beginWarm).Inv := by
  have started : ((s.cores.map (·.1)).foldl State.startWarm s.startDies).Inv := inv_foldl (fun t k ht => inv_startWarm k ht) _ ((inv_startDies ..).2 hs)
  unfold State.beginWarm
  generalize (s.cores.map (·.1)).foldl State.startWarm s.startDies = u at started ⊢
  have settled := inv_foldl (fun t p ht => inv_settleShoots p ht) (u.parts.map (·.1)) started
  exact (inv_iff _).1 (inv_pick _ settled)

@[simp] theorem inv_tick {s : State} (hs : s.Inv) : (s.tick).Inv := by
  unfold State.tick
  dsimp only
  split <;> simp [hs]

theorem canonical_step {s : State} (hs : s.Inv) : Canonical (step s) := by
  unfold step
  split
  · exact canonical_act (s := { s with agenda := _ }) _ hs
  · exact inv_tick hs

/-- Settles O60: every function over the state leaves memory as it is, or writes it through `setByte`, which keeps the form; so do an
instruction, an action of the agenda and the clock, and with them a step. -/
theorem stepsKeepMemoryCanonical : Obligations.StepsKeepMemoryCanonical :=
  fun _ _ hs hstep => inv_of_canonical (canonical_step hs) hstep

end Sys2Proof.Proofs
end

section
/-! # O18, O59, O10: what memory answers, its form at reset, and a write to TSTAT (R328, R330, R397) -/

namespace Sys2Proof.Proofs

open Sys2Proof.Machine Sys2Proof.Laws

/-- Settles O59: nothing is written at reset, so no cell stands in memory (R330). -/
theorem resetMemoryIsCanonical : Obligations.ResetMemoryIsCanonical := by
  unfold Obligations.ResetMemoryIsCanonical State.Inv
  decide

theorem byte_setBytes (s : State) (key j : Nat) (bs : List Byte) :
    (s.setBytes key bs).byte j = if h : key ≤ j ∧ j < key + bs.length then bs[j - key]'(by omega) else s.byte j := by
  induction bs generalizing s key with
  | nil => simp [State.setBytes]
  | cons b rest ih =>
    rw [State.setBytes, ih, byte_setByte]
    rcases Nat.lt_trichotomy j key with before | rfl | after
    · simp [Nat.not_le.2 before, Nat.not_le.2 (Nat.lt_succ_of_lt before), before.ne]
    · simp
    · have shift : j - key = j - (key + 1) + 1 := by omega
      simp [after.ne', shift, Nat.succ_le_of_lt after, after.le, Nat.add_right_comm, Nat.add_assoc, Nat.add_comm 1]

theorem getElem_bytes (s : State) (key n i : Nat) (h : i < (s.bytes key n).length) : (s.bytes key n)[i] = s.byte (key + i) := by
  induction n generalizing key i with
  | zero => exact absurd h (Nat.not_lt_zero i)
  | succ n ih =>
    cases i with
    | zero => rfl
    | succ i => exact (ih (key + 1) i _).trans (by rw [Nat.add_right_comm, Nat.add_assoc])

theorem bytes_setBytes (s : State) (key : Nat) (bs : List Byte) : (s.setBytes key bs).bytes key bs.length = bs := by
  refine List.ext_getElem (length_bytes ..) fun i _ h => ?_
  rw [getElem_bytes, byte_setBytes]
  simp [h]

/-- Settles O18: a byte set answers at its own key alone (`byte_setByte`), and a run of bytes sets one after the other. -/
theorem memoryReadsBackWhatWasWritten : Obligations.MemoryReadsBackWhatWasWritten :=
  fun s key j b bs => ⟨byte_setByte .., byte_setBytes .., bytes_setBytes ..⟩

/-- TSTAT shows ACCLOST and NESTED in its bits [1:0], and EMULATE in bit 2 (R397). -/
theorem tstat_fields (c : Core) (b : Bool) :
    ({ c with emulate := b } : Core).tstat.extractLsb' 0 2 = c.tstat.extractLsb' 0 2 ∧ ({ c with emulate := b } : Core).tstat.getLsbD 2 = b := by
  have bits : ∀ lost nested old new : Bool,
      let v := fun (e : Bool) => word ((if lost then 1 else 0) + (if nested then 2 else 0) + (if e then 4 else 0))
      (v new).extractLsb' 0 2 = (v old).extractLsb' 0 2 ∧ (v new).getLsbD 2 = new := by decide
  exact bits c.accLost c.nested c.emulate b

/-- Settles O10: the write replaces EMULATE and no other field of the core, and `swr` brings the same write about (R397). -/
theorem tstatChangesOnlyEmulate : Obligations.TstatChangesOnlyEmulate := by
  intro v s
  obtain ⟨low, emulate⟩ := tstat_fields s.core (v.getLsbD 2)
  refine ⟨_, exec_tstatWrite s, apart_modCore .., fun k hk => coreAt_modCore_other s _ hk, ?_⟩
  have read : ∀ t : State, t.sysRead 0x028 = t.core.tstat := fun _ => rfl
  rw [read, read, core_modCore]
  refine ⟨rfl, rfl, low, emulate, fun w warm before => ?_⟩
  simp [Core.applyWrites, before, Core.sysWrite, Core.writeTstat]

end Sys2Proof.Proofs
end

section
/-! # O53: rails, stretched periods and margins (R415, R416, R448 to R454) -/

namespace Sys2Proof.Proofs

open Sys2Proof.Machine Sys2Proof.Laws

/-! ## Rails -/

/-- A sparse table rewritten place by place below `n`. -/
theorem get_foldl_set {α : Type} [DecidableEq α] (d : α) (g : α → α) (m : Sp α) (n j : Nat) :
    Sp.get d ((List.range n).foldl (fun m q => Sp.set d m q (g (Sp.get d m q))) m) j = if j < n then g (Sp.get d m j) else Sp.get d m j := by
  induction n with
  | zero => rfl
  | succ n ih =>
    rw [List.range_succ, List.foldl_append, List.foldl_cons, List.foldl_nil, get_set, ih]
    rcases Nat.lt_trichotomy j n with below | rfl | above
    · simp [below.ne, below, Nat.lt_succ_of_lt below]
    · rw [if_pos rfl, if_pos (Nat.lt_succ_self j), ih, if_neg (Nat.lt_irrefl j)]
    · simp [above.ne', above.not_gt, Nat.not_lt.2 (Nat.succ_le_of_lt above)]

theorem rail_raiseVs (d : Die) (v : Nat) {j : Nat} (hj : j < 16) : (d.raiseVs v).rail j = max (d.rail j) (v - 250) := by
  simp only [Die.rail, Die.raiseVs]
  rw [get_foldl_set railReset (fun x => max x (v - 250)), if_pos hj]

theorem vs_raiseVs (d : Die) (v : Nat) : (d.raiseVs v).vs = v := rfl

theorem rail_setRail (d : Die) (q mv : Nat) : (d.setRail q mv).rail q = d.clampRail mv := get_set_self ..

theorem rail_setRail_other (d : Die) (mv : Nat) {q j : Nat} (h : j ≠ q) : (d.setRail q mv).rail j = d.rail j := get_set_other _ _ _ h

theorem drooping_put (d : Die) (q : Nat) (v : Option (Nat × Bool)) : ({ d with droop := Sp.put d.droop q v } : Die).drooping q = v := get_put_self ..

theorem hop_drooping (d : Die) (m : Sp Nat) (q : Nat) : ({ d with hopTo := m } : Die).drooping q = d.drooping q := rfl

/-! ## Margining -/

/-- The die at a step of the margin controller, CESET in force where it has been written (R452, R454). -/
def atStep (d : Die) : Die := if d.cenew then { d with cecur := d.ceset, cenew := false } else d

theorem atStep_cecur (d : Die) : (atStep d).cecur = if d.cenew = true then d.ceset else d.cecur := by
  unfold atStep
  split <;> rfl

theorem atStep_frame (d : Die) : (atStep d).sram = d.sram ∧ (atStep d).hold = d.hold ∧ (atStep d).vs = d.vs ∧ (atStep d).vq = d.vq := by
  unfold atStep
  split <;> exact ⟨rfl, rfl, rfl, rfl⟩

theorem maxRail_of_vq {d e : Die} (h : e.vq = d.vq) : e.maxRail = d.maxRail := by
  unfold Die.maxRail Die.rail
  rw [h]

theorem rail_of_vq {d e : Die} (h : e.vq = d.vq) (j : Nat) : e.rail j = d.rail j := congrArg (Sp.get railReset · j) h

theorem marginStep_eq (d : Die) (clock : Nat) : d.marginStep clock =
    let e := { atStep d with sram := 0 }
    if clock < e.hold then e
    else if d.sram * 100 < e.cecur ∧ max 620 (d.maxRail - 100) < e.vs then { e with vs := e.vs - 5 }
    else if 2 * e.cecur < d.sram * 100 then e.raiseVs (min (e.vs + 5) 780)
    else e := by
  obtain ⟨sram, -, -, vq⟩ := atStep_frame d
  rw [← maxRail_of_vq vq, ← sram]
  rfl

/-- What a step of the margin controller does (R452). -/
theorem marginStep_law (d : Die) (clock : Nat) :
    let e := d.marginStep clock
    let c := if d.cenew = true then d.ceset else d.cecur
    let floor := max 620 (d.maxRail - 100)
    e.cecur = c ∧ e.sram = 0 ∧ e.hold = d.hold ∧
    (d.hold ≤ clock → d.sram * 100 < c → floor < d.vs → e.vs = d.vs - 5 ∧ e.vq = d.vq) ∧
    (d.hold ≤ clock → 2 * c < d.sram * 100 → e.vs = min (d.vs + 5) 780 ∧ ∀ j, j < 16 → e.rail j = max (d.rail j) (e.vs - 250)) ∧
    (clock < d.hold ∨ (c ≤ d.sram * 100 ∨ d.vs ≤ floor) ∧ d.sram * 100 ≤ 2 * c → e.vs = d.vs ∧ e.vq = d.vq) := by
  obtain ⟨-, hold, vs, vq⟩ := atStep_frame d
  intro e c floor
  have he : e = _ := marginStep_eq d clock
  have hc : (atStep d).cecur = c := atStep_cecur d
  have hf : max 620 (d.maxRail - 100) = floor := rfl
  clear_value e c floor
  dsimp only at he
  rw [hold, hc, vs, hf] at he
  split_ifs at he with held low high
  · subst he
    exact ⟨rfl, rfl, rfl, fun h => absurd held h.not_gt, fun h => absurd held h.not_gt, fun _ => ⟨rfl, vq⟩⟩
  · subst he
    exact ⟨rfl, rfl, rfl, fun _ _ _ => ⟨rfl, vq⟩, fun _ h => by omega, fun h => by omega⟩
  · subst he
    exact ⟨rfl, rfl, rfl, fun _ h g => absurd ⟨h, g⟩ low, fun _ _ => ⟨rfl, fun j hj => (rail_raiseVs _ _ hj).trans (congrArg (max · _) (rail_of_vq vq j))⟩,
      fun h => by omega⟩
  · subst he
    exact ⟨rfl, rfl, rfl, fun _ h g => absurd ⟨h, g⟩ low, fun _ h => absurd h high, fun _ => ⟨rfl, vq⟩⟩

/-- The controller has met a margin error. -/
def counted (d : Die) (clock : Nat) : Die := { d with merr := min (d.merr + 1) 0xFFFFFFFF, calm := clock }

theorem backOff_of_shared {d : Die} {clock a : Nat} (last : d.raiseAt = some a) (shared : clock < a + 32000) : d.backOff clock = counted d clock := by
  simp [Die.backOff, counted, last, shared]

/-- The controller has raised VS for it, halved CECUR and entered its hold. -/
def backedOff (d : Die) (clock : Nat) : Die :=
  { (counted d clock).raiseVs (min (d.vs + 25) 780) with raiseAt := some clock, hold := clock + 32000000000, cecur := max 1 (d.cecur / 2) }

theorem rail_backedOff (d : Die) (clock : Nat) {j : Nat} (hj : j < 16) :
    (backedOff d clock).rail j = max (d.rail j) ((backedOff d clock).vs - 250) := by
  have vq : (backedOff d clock).vq = ((counted d clock).raiseVs (min (d.vs + 25) 780)).vq := by rw [backedOff]
  have vs : (backedOff d clock).vs = min (d.vs + 25) 780 := rfl
  have still : (counted d clock).rail j = d.rail j := rail_of_vq rfl j
  rw [rail_of_vq vq, vs, rail_raiseVs _ _ hj, still]

theorem backOff_of_first {d : Die} {clock : Nat} (past : ∀ a, d.raiseAt = some a → a + 32000 ≤ clock) : d.backOff clock = backedOff d clock := by
  unfold Die.backOff backedOff counted
  cases last : d.raiseAt with
  | none => rfl
  | some a => simp [(past a last).not_gt]

/-- The response of the controller to a margin error: one raise for the errors of 1 µs (R453). -/
theorem backOff_law (d : Die) (clock : Nat) :
    let e := d.backOff clock
    e.merr = min (d.merr + 1) 0xFFFFFFFF ∧ e.bank = d.bank ∧
    ((∃ a, d.raiseAt = some a ∧ clock < a + 32000) → e.vs = d.vs ∧ e.cecur = d.cecur ∧ e.hold = d.hold) ∧
    ((∀ a, d.raiseAt = some a → a + 32000 ≤ clock) → e.vs = min (d.vs + 25) 780 ∧ e.cecur = max 1 (d.cecur / 2) ∧
      e.hold = clock + 32000000000 ∧ ∀ j, j < 16 → e.rail j = max (d.rail j) (e.vs - 250)) := by
  intro e
  by_cases shared : ∃ a, d.raiseAt = some a ∧ clock < a + 32000
  · obtain ⟨a, last, near⟩ := shared
    have he : e = counted d clock := backOff_of_shared last near
    rw [he]
    exact ⟨rfl, rfl, fun _ => ⟨rfl, rfl, rfl⟩, fun past => absurd near (past a last).not_gt⟩
  · have past : ∀ a, d.raiseAt = some a → a + 32000 ≤ clock := fun a last => Nat.le_of_not_lt fun near => shared ⟨a, last, near⟩
    have he : e = backedOff d clock := backOff_of_first past
    rw [he]
    exact ⟨rfl, rfl, fun near => absurd near shared, fun _ => ⟨rfl, rfl, rfl, fun j hj => rail_backedOff d clock hj⟩⟩

/-! ## Margin errors -/

theorem die_logDie (s : State) (d : Nat) (e : MemError) (m : Bool) : (s.logDie d e m).dieAt d =
    { s.dieAt d with bank := ((s.logDie d e m).dieAt d).bank, sram := ((s.logDie d e m).dieAt d).sram } := by
  have dies : (s.logDie d e m).dieAt d = (s.modDieAt d fun x =>
      { x with bank := x.bank.log e m (BitVec.ofNat 32 ((s.clock - (s.dieAt d).base) / Config.coldPerWarm)),
               sram := if inSram e ∧ !e.uncorrectable then x.sram + 1 else x.sram }).dieAt d := by
    unfold State.logDie State.tell
    split <;> rfl
  rw [dies, dieAt_modDieAt_self]

theorem markBad_frame (s : State) (pkg : Nat) (e : MemError) : (s.markBad pkg e).mem = s.mem ∧ (s.markBad pkg e).dies = s.dies ∧
    ∀ k, ((s.markBad pkg e).coreAt k).win = (s.coreAt k).win ∧ ((s.markBad pkg e).coreAt k).replay = (s.coreAt k).replay := by
  have marked : ∀ (n k : Nat) (f : Core → Core), (∀ c : Core, (f c).win = c.win ∧ (f c).replay = c.replay) →
      ((s.modCoreAt n f).coreAt k).win = (s.coreAt k).win ∧ ((s.modCoreAt n f).coreAt k).replay = (s.coreAt k).replay := fun n k f hf => by
    rw [coreAt_modCoreAt]
    split
    · next same => rw [same]; exact hf _
    · exact ⟨rfl, rfl⟩
  unfold State.markBad
  dsimp only
  split
  case h_1 | h_2 | h_7 => exact ⟨rfl, rfl, fun _ => ⟨rfl, rfl⟩⟩
  all_goals exact ⟨rfl, rfl, fun k => marked _ k _ fun _ => ⟨rfl, rfl⟩⟩

theorem startReplay_frame (s : State) (w : Window) (stopAt : Option (QueueId × Nat)) (atWord : Bool) :
    (s.startReplay w stopAt atWord).mem = s.mem ∧ (s.startReplay w stopAt atWord).bad = s.bad ∧ (s.startReplay w stopAt atWord).dies = s.dies ∧
      (s.startReplay w stopAt atWord).core.replay ≠ none := by
  refine ⟨rfl, rfl, rfl, ?_⟩
  unfold State.startReplay
  rw [core_modCore]
  dsimp only
  rw [(resetTiles_frame _ _).choose_spec]
  exact Option.some_ne_none _

theorem markBad_of_same {s t : State} (cores : t.cores = s.cores) (bad : t.bad = s.bad) (pkg : Nat) (e : MemError) :
    (t.markBad pkg e).cores = (s.markBad pkg e).cores ∧ (t.markBad pkg e).bad = (s.markBad pkg e).bad := by
  unfold State.markBad State.modCoreAt State.coreAt
  dsimp only
  split <;> simp only [cores, bad, and_self]

theorem logDie_bad (s : State) (d : Nat) (e : MemError) (m : Bool) : (s.logDie d e m).bad = s.bad := by
  unfold State.logDie State.tell
  split <;> rfl

/-- A margin error below 0.78 V: the controller backs off; an open window is replayed, and else the line stays bad (R415, R416, R453). -/
theorem marginError_law {pkg : BitVec 10} {die : BitVec 2} {core : BitVec 6} (readable : Bool) (found : MemError) {s : State}
    (here : ¬ Config.packages ≤ pkg.toNat) (low : ¬ 780 ≤ (s.dieAt (pkg.toNat * 4 + die.toNat)).vs) :
    let k := pkg.toNat * 4 + die.toNat
    let n := k * 64 + core.toNat
    let c := s.coreAt n
    let e : MemError := { found with phys := BitVec.ofNat 8 n }
    ∃ t, exec (.marginError pkg die core readable found) s = .next t ∧ t.mem = s.mem ∧
      t.dieAt k = ((s.logDie k { e with uncorrectable := false, owner := 0xFFF } true).dieAt k).backOff s.clock ∧
      (c.win ≠ none → c.replay = none → (t.coreAt n).replay ≠ none ∧ (readable = true → t.bad = s.bad)) ∧
      (c.win = none ∨ c.replay ≠ none → t.cores = (s.markBad pkg.toNat e).cores ∧ t.bad = (s.markBad pkg.toNat e).bad) := by
  intro k n c e
  let s1 := (s.logDie k { e with uncorrectable := false, owner := 0xFFF } true).modDieAt k fun x => x.backOff s.clock
  let s2 := if readable then s1 else s1.markBad pkg.toNat e
  have cores1 : s1.cores = s.cores := logDie_cores ..
  have bad1 : s1.bad = s.bad := logDie_bad ..
  have mem1 : s1.mem = s.mem := logDie_mem ..
  have die1 : s1.dieAt k = ((s.logDie k { e with uncorrectable := false, owner := 0xFFF } true).dieAt k).backOff s.clock := dieAt_modDieAt_self ..
  have core1 : s1.coreAt n = s.coreAt n := by
    unfold State.coreAt
    rw [cores1]
  obtain ⟨memB, diesB, coreB⟩ := markBad_frame s1 pkg.toNat e
  have dieB : (s1.markBad pkg.toNat e).dieAt k = s1.dieAt k := congrArg (fun dies : Sp Die => Sp.get ({} : Die) dies k) diesB
  have frame2 : s2.mem = s.mem ∧ s2.dieAt k = s1.dieAt k ∧ (s2.coreAt n).win = c.win ∧ (s2.coreAt n).replay = c.replay ∧
      (readable = true → s2.bad = s.bad) := by
    cases readable with
    | true => exact ⟨mem1, rfl, congrArg Core.win core1, congrArg Core.replay core1, fun _ => bad1⟩
    | false => exact ⟨memB.trans mem1, dieB, (coreB n).1.trans (congrArg Core.win core1), (coreB n).2.trans (congrArg Core.replay core1), nofun⟩
  obtain ⟨mem2, die2, win2, replay2, bad2⟩ := frame2
  have marked := markBad_of_same cores1 bad1 pkg.toNat e
  rw [exec_marginError, execMarginError, if_neg here, if_neg low]
  dsimp only
  split
  · next w hw hr =>
    obtain ⟨memR, badR, diesR, started⟩ := startReplay_frame { s2 with cur := n } w
      (State.loadOf { s2 with cur := n } (memKey pkg.toNat e.addr.toNat / 64)) false
    refine ⟨_, rfl, mem2, die2.trans die1, fun _ _ => ⟨started, bad2⟩, fun h => ?_⟩
    rcases h with h | h
    · exact nomatch (win2.trans h).symm.trans hw
    · exact absurd (replay2.symm.trans hr) h
  · next closed =>
    refine ⟨_, rfl, memB.trans mem1, dieB.trans die1, fun hw hr => ?_, fun _ => marked⟩
    obtain ⟨w, hw⟩ := Option.ne_none_iff_exists'.1 hw
    exact (closed w (win2.trans hw) (replay2.trans hr)).elim

/-- Settles O53: each event of the family is one rewrite of its die; the rewrites are those of `marginStep_law`, `backOff_law` and the rails. -/
theorem railsStretchesAndMargins : Obligations.RailsStretchesAndMargins := by
  intro pkg die quad mv v s hp k d q
  have here : ¬ Config.packages ≤ pkg.toNat := Nat.not_le.2 hp
  refine ⟨?_, ?_, ?_, ?_, ?_, ?_, ?_, ?_, ?_, marginStep_law d s.clock, ?_, ?_, ?_⟩
  · refine ⟨_, (exec_quadRailSet s).trans (if_neg here), rfl, ?_, ?_⟩
    · rw [dieAt_modDieAt_self]
      exact rail_setRail ..
    · intro j hj
      rw [dieAt_modDieAt_self]
      exact rail_setRail_other _ _ hj
  · refine ⟨_, (exec_droop s).trans (if_neg here), rfl, ?_, fun calm => ?_⟩
    · rw [dieAt_modDieAt_self, Die.stretched, drooping_put]
      rfl
    · rw [dieAt_modDieAt_self, drooping_put]
      exact congrArg (fun x => some (x.getD (s.clock, false))) calm
  · intro at_ droop
    have raise : exec (.droopRaise pkg die quad) s = if at_ + 64000 ≤ s.clock then
        .next (s.modDieAt k fun d => { d.setRail q (d.rail q + 10) with droop := Sp.put d.droop q (some (at_, true)) }) else .next s := by
      rw [exec_droopRaise, execDroopRaise, if_neg here, droop]
    refine ⟨fun early => raise.trans (if_neg early.not_ge), fun due => ⟨_, raise.trans (if_pos due), ?_, ?_⟩⟩
    · rw [dieAt_modDieAt_self]
      exact rail_setRail ..
    · rw [dieAt_modDieAt_self]
      exact drooping_put ..
  · intro at_ droop
    rw [exec_droopRaise, execDroopRaise, if_neg here, droop]
  · refine ⟨_, (exec_droopRecovery s).trans (if_neg here), ?_, ?_⟩
    · rw [dieAt_modDieAt_self, drooping_put]
    · rw [dieAt_modDieAt_self]
  · refine ⟨_, (exec_clockHop s).trans (if_neg here), ?_, fun calm => ?_⟩
    · rw [dieAt_modDieAt_self, Die.stretched, get_put_self]
      simp only [Bool.or_eq_true, decide_eq_true_eq]
      exact Or.inr (by omega)
    · have short := draw_le s 1279
      have still : d.drooping q = none := calm
      rw [dieAt_modDieAt_self, Die.stretched, get_put_self, hop_drooping]
      change ((d.drooping q).isSome || decide (s.clock + 1280 < s.clock + 1 + (s.draw 1279).1)) = false
      rw [still]
      simp only [Option.isSome_none, Bool.false_or, decide_eq_false_iff_not]
      omega
  · intro zero
    rw [exec_cesetWrite, execCesetWrite, if_neg here, if_pos zero]
  · intro set
    rw [exec_cesetWrite, execCesetWrite, if_neg here, if_neg set]
  · rw [exec_marginStep, execMarginStep, if_neg here]
  · intro early
    rw [exec_cesetRestore, execCesetRestore, if_neg here]
    exact if_neg early.not_ge
  · intro due
    rw [exec_cesetRestore, execCesetRestore, if_neg here]
    exact if_pos due
  · intro core readable found n c e
    refine ⟨fun full => ?_, fun low => ?_⟩
    · rw [exec_marginError, execMarginError, if_neg here]
      exact if_pos full
    obtain ⟨t, met, mem, dies, replayed, left⟩ := marginError_law (pkg := pkg) (die := die) (core := core) readable found here (Nat.not_le.2 low)
    obtain ⟨merr, bank, again, first⟩ := backOff_law ((s.logDie k { e with uncorrectable := false, owner := 0xFFF } true).dieAt k) s.clock
    have die : t.dieAt k = ((s.logDie k { e with uncorrectable := false, owner := 0xFFF } true).dieAt k).backOff s.clock := dies
    rw [← die, die_logDie] at merr again first
    rw [← die] at bank
    exact ⟨t, met, mem, merr, bank, again, first, replayed, left⟩

end Sys2Proof.Proofs
end

section
/-! # The trap area as a record of fields (R388, R389) -/

namespace Sys2Proof.Proofs

open Sys2Proof.Machine Sys2Proof.Laws

/-! ## Fields of a list of bytes -/

/-- `n` bytes from place `p` on. -/
def field (bs : List Byte) (p n : Nat) : List Byte := (bs.drop p).take n

theorem field_append_left {a b : List Byte} {p n : Nat} (h : p + n ≤ a.length) : field (a ++ b) p n = field a p n := by
  unfold field
  rw [List.drop_append_of_le_length (by omega), List.take_append_of_le_length (by rw [List.length_drop]; omega)]

theorem field_append_right {a b : List Byte} {p n : Nat} (h : a.length ≤ p) : field (a ++ b) p n = field b (p - a.length) n := by
  unfold field
  rw [List.drop_append, List.drop_eq_nil_of_le h, List.nil_append]

theorem field_whole (a : List Byte) : field a 0 a.length = a := List.take_length

/-- The field at the front of a list, and one beyond it. -/
theorem field_head {a b : List Byte} {n : Nat} (h : a.length = n) : field (a ++ b) 0 n = a := by
  rw [field_append_left (by omega), ← h, field_whole]

theorem field_tail {a b : List Byte} {w p n : Nat} (h : a.length = w) : field (a ++ b) (w + p) n = field b p n := by
  rw [field_append_right (by omega), h, Nat.add_sub_cancel_left]

theorem field_field (bs : List Byte) {p n q m : Nat} (h : q + m ≤ n) : field (field bs p n) q m = field bs (p + q) m := by
  unfold field
  rw [List.drop_take, List.take_take, List.drop_drop, Nat.min_eq_left (by omega)]

theorem length_flatMap_const {α : Type} {l : List α} {f : α → List Byte} {w : Nat} (hf : ∀ x ∈ l, (f x).length = w) :
    (l.flatMap f).length = w * l.length := by
  induction l with
  | nil => rfl
  | cons a rest ih =>
    rw [List.flatMap_cons, List.length_append, hf a List.mem_cons_self, ih fun x hx => hf x (List.mem_cons_of_mem a hx), List.length_cons, Nat.mul_succ,
      Nat.add_comm]

/-- Records of one width stand one after the other. -/
theorem field_flatMap {α : Type} {l : List α} {f : α → List Byte} {w i : Nat} {x : α} (hf : ∀ x ∈ l, (f x).length = w) (hx : l[i]? = some x) :
    field (l.flatMap f) (w * i) w = f x := by
  induction l generalizing i with
  | nil => exact nomatch hx
  | cons a rest ih =>
    have ha := hf a List.mem_cons_self
    rw [List.flatMap_cons]
    cases i with
    | zero =>
      cases hx
      exact field_head ha
    | succ i =>
      rw [Nat.mul_succ, Nat.add_comm, field_tail ha]
      exact ih (fun x hx => hf x (List.mem_cons_of_mem a hx)) hx

theorem leNat_word (v : Word) : leNat (leBytes 8 v.toNat) = v.toNat := by
  rw [leNat_leBytes]
  exact Nat.mod_eq_of_lt (lt_of_lt_of_eq v.isLt (by norm_num))

theorem leNat_word32 (v : Word32) : leNat (leBytes 4 v.toNat) = v.toNat := by
  rw [leNat_leBytes]
  exact Nat.mod_eq_of_lt (lt_of_lt_of_eq v.isLt (by norm_num))

/-! ## Bytes of the trap area -/

section
variable (c : Core)

theorem slot_modSlot (f : Slot → Slot) : (c.modSlot f).slot = f c.slot := by
  unfold Core.modSlot
  split
  · next h =>
    rw [Core.slot, Core.slot, h]
    rfl
  · next h =>
    unfold Core.slot
    split
    · next one => exact absurd one h
    · rfl

theorem areaByte_setAreaByte (off j : Nat) (b : Byte) : (c.setAreaByte off b).areaByte j = if j = off then b else c.areaByte j := by
  unfold Core.setAreaByte Core.areaByte
  by_cases low : off < 0x200
  · rw [if_pos low]
    dsimp only
    split_ifs with h1 h2 h2
    · exact (get_set ..).trans (if_pos h2)
    · exact (get_set ..).trans (if_neg h2)
    · omega
    · rfl
  · rw [if_neg low, modSlot_recs, slot_modSlot]
    by_cases here : j < 0x200
    · rw [if_pos here, if_neg (by omega), if_pos here]
    · rw [if_neg here, if_neg here]
      exact get_set ..

theorem areaByte_setArea (off j : Nat) (bs : List Byte) :
    (c.setArea off bs).areaByte j = if off ≤ j ∧ j < off + bs.length then bs.getD (j - off) 0 else c.areaByte j := by
  induction bs generalizing c off with
  | nil => exact (if_neg (by rw [List.length_nil]; omega)).symm
  | cons b rest ih =>
    rw [Core.setArea, ih, areaByte_setAreaByte]
    rcases Nat.lt_trichotomy j off with before | rfl | after
    · simp [Nat.not_le.2 before, Nat.not_le.2 (Nat.lt_succ_of_lt before), before.ne]
    · simp
    · have shift : j - off = j - (off + 1) + 1 := by omega
      simp [after.ne', shift, Nat.succ_le_of_lt after, after.le, Nat.add_right_comm, Nat.add_assoc, Nat.add_comm 1]

theorem areaNat_setArea_field {off p n : Nat} {bs : List Byte} (h : p + n ≤ bs.length) :
    (c.setArea off bs).areaNat (off + p) n = leNat (field bs p n) := by
  refine congrArg leNat (List.ext_getElem ?_ fun i h1 h2 => ?_)
  · simp [field]; omega
  · have hi : i < n := by simpa using h1
    have inside : off ≤ off + p + i ∧ off + p + i < off + bs.length := by omega
    have place : off + p + i - off = p + i := by omega
    have there : p + i < bs.length := by omega
    simp [field, areaByte_setArea, inside, place, there]

theorem areaNat_setArea_apart {off p n : Nat} {bs : List Byte} (h : p + n ≤ off ∨ off + bs.length ≤ p) :
    (c.setArea off bs).areaNat p n = c.areaNat p n := by
  refine congrArg leNat (List.map_congr_left fun i hi => ?_)
  have := List.mem_range.1 hi
  rw [areaByte_setArea, if_neg (by omega)]

end

/-! ## A cluster's save area (R389) -/

def savedRegs (x : Cluster) : List Byte := (List.range 32).flatMap fun n => leBytes 8 (x.rg n).toNat

def predBits (x : Cluster) : Nat := (if x.rp 0 then 1 else 0) + (if x.rp 1 then 2 else 0) + (if x.rp 2 then 4 else 0) + (if x.rp 3 then 8 else 0)

def savedMode (x : Cluster) : List Byte := leBytes 8 (predBits x + (if x.split then 256 else 0) + x.joinId.toNat * 65536)

def savedCoords (x : Cluster) : List Byte := (List.range 7).flatMap fun n => leBytes 4 (x.rc n).toNat

def loopBytes (e : Option LoopEntry) : List Byte :=
  match e with
  | some e => leBytes 8 e.remaining.toNat ++ leBytes 8 e.start.toNat ++ leBytes 8 e.stop.toNat ++ leBytes 8 e.id.toNat
  | none => leBytes 32 0

def savedLoops (x : Cluster) : List Byte := (List.range 4).flatMap fun i => loopBytes x.loops[i]?

def fifoWord (f : Fifo) (i : Nat) : Nat := (f.items[i]?.map fun x => x.2.toNat).getD 0

def savedFifo (f : Fifo) : List Byte := (List.range 4).flatMap fun i => leBytes 8 (fifoWord f i)

theorem save_eq (x : Cluster) (left right : Fifo) : x.save left right =
    savedRegs x ++ (savedMode x ++ (savedCoords x ++ (leBytes 4 0 ++ (savedLoops x ++ (savedFifo left ++ (savedFifo right ++ leBytes 24 0)))))) := by
  unfold Cluster.save savedRegs savedMode savedCoords savedLoops savedFifo predBits fifoWord
  simp only [List.append_assoc] <;> rfl

@[simp] theorem length_savedRegs (x : Cluster) : (savedRegs x).length = 0x100 := length_flatMap_const fun _ _ => leBytes_length ..
@[simp] theorem length_savedMode (x : Cluster) : (savedMode x).length = 8 := leBytes_length ..
@[simp] theorem length_savedCoords (x : Cluster) : (savedCoords x).length = 28 := length_flatMap_const fun _ _ => leBytes_length ..
@[simp] theorem length_loopBytes (e : Option LoopEntry) : (loopBytes e).length = 32 := by
  cases e <;> simp [loopBytes]
@[simp] theorem length_savedLoops (x : Cluster) : (savedLoops x).length = 128 := length_flatMap_const fun _ _ => length_loopBytes _
@[simp] theorem length_savedFifo (f : Fifo) : (savedFifo f).length = 32 := length_flatMap_const fun _ _ => leBytes_length ..
@[simp] theorem length_save (x : Cluster) (left right : Fifo) : (x.save left right).length = 0x200 := by simp [save_eq]

theorem getElem?_range_of_lt {n i : Nat} (h : i < n) : (List.range n)[i]? = some i := by simp [h]

section
variable (x : Cluster) (left right : Fifo)

theorem save_reg {n : Nat} (h : n < 32) : leNat (field (x.save left right) (8 * n) 8) = (x.rg n).toNat := by
  have place : field (savedRegs x) (8 * n) 8 = leBytes 8 (x.rg n).toNat := field_flatMap (fun _ _ => leBytes_length ..) (getElem?_range_of_lt h)
  rw [save_eq, field_append_left (by simp; omega), place, leNat_word]

theorem save_mode : leNat (field (x.save left right) 0x100 1) = predBits x := by
  have place : field (x.save left right) 0x100 1 = field (savedMode x) 0 1 := by
    rw [save_eq]
    exact (field_tail (p := 0) (length_savedRegs x)).trans (field_append_left (by simp))
  have small : predBits x < 16 := by
    unfold predBits
    split_ifs <;> omega
  have low : field (savedMode x) 0 1 = leBytes 1 (predBits x + (if x.split then 256 else 0) + x.joinId.toNat * 65536) := rfl
  rw [place, low, leNat_leBytes]
  split_ifs <;> omega

theorem save_pred {n : Nat} (h : n < 4) : leNat (field (x.save left right) 0x100 1) / 2 ^ n % 2 = if x.rp n then 1 else 0 := by
  rw [save_mode, predBits]
  have cases : ∀ a b c d : Bool, ∀ n, n < 4 →
      ((if a then 1 else 0) + (if b then 2 else 0) + (if c then 4 else 0) + (if d then 8 else 0)) / 2 ^ n % 2 =
        if [a, b, c, d].getD n false then 1 else 0 := by decide
  have listed : [x.rp 0, x.rp 1, x.rp 2, x.rp 3].getD n false = x.rp n := by interval_cases n <;> rfl
  rw [cases _ _ _ _ n h, listed]

theorem save_coord {n : Nat} (h : n < 7) : leNat (field (x.save left right) (0x108 + 4 * n) 4) = (x.rc n).toNat := by
  have place : field (savedCoords x) (4 * n) 4 = leBytes 4 (x.rc n).toNat := field_flatMap (fun _ _ => leBytes_length ..) (getElem?_range_of_lt h)
  rw [save_eq, show 0x108 + 4 * n = 0x100 + (8 + 4 * n) by omega, field_tail (length_savedRegs x), field_tail (length_savedMode x),
    field_append_left (by simp; omega), place, leNat_word32]

/-- The four words of loop entry `i` stand one after the other. -/
theorem save_loop {i j : Nat} (h : i < 4) (hj : j < 4) :
    field (x.save left right) (0x128 + 32 * i + 8 * j) 8 = field (loopBytes x.loops[i]?) (8 * j) 8 := by
  have place : field (savedLoops x) (32 * i) 32 = loopBytes x.loops[i]? := field_flatMap (fun _ _ => length_loopBytes _) (getElem?_range_of_lt h)
  rw [save_eq, show 0x128 + 32 * i + 8 * j = 0x100 + (8 + (28 + (4 + (32 * i + 8 * j)))) by omega, field_tail (length_savedRegs x),
    field_tail (length_savedMode x), field_tail (length_savedCoords x), field_tail (leBytes_length 4 0), field_append_left (by simp; omega),
    ← place, field_field _ (by omega)]

theorem save_left {i : Nat} (h : i < 4) : leNat (field (x.save left right) (0x1A8 + 8 * i) 8) = fifoWord left i % 2 ^ 64 := by
  have place : field (savedFifo left) (8 * i) 8 = leBytes 8 (fifoWord left i) := field_flatMap (fun _ _ => leBytes_length ..) (getElem?_range_of_lt h)
  rw [save_eq, show 0x1A8 + 8 * i = 0x100 + (8 + (28 + (4 + (128 + 8 * i)))) by omega, field_tail (length_savedRegs x),
    field_tail (length_savedMode x), field_tail (length_savedCoords x), field_tail (leBytes_length 4 0), field_tail (length_savedLoops x),
    field_append_left (by simp; omega), place, leNat_leBytes]
  norm_num

theorem save_right {i : Nat} (h : i < 4) : leNat (field (x.save left right) (0x1C8 + 8 * i) 8) = fifoWord right i % 2 ^ 64 := by
  have place : field (savedFifo right) (8 * i) 8 = leBytes 8 (fifoWord right i) := field_flatMap (fun _ _ => leBytes_length ..) (getElem?_range_of_lt h)
  rw [save_eq, show 0x1C8 + 8 * i = 0x100 + (8 + (28 + (4 + (128 + (32 + 8 * i))))) by omega, field_tail (length_savedRegs x),
    field_tail (length_savedMode x), field_tail (length_savedCoords x), field_tail (leBytes_length 4 0), field_tail (length_savedLoops x),
    field_tail (length_savedFifo left), field_append_left (by simp; omega), place, leNat_leBytes]
  norm_num

end

theorem fifoWord_of_item {f : Fifo} {i w : Nat} {v : Word} (h : f.items[i]? = some (w, v)) : fifoWord f i % 2 ^ 64 = v.toNat := by
  rw [fifoWord, h]
  exact Nat.mod_eq_of_lt v.isLt

/-- The words of a loop entry. -/
theorem loopBytes_some (e : LoopEntry) : leNat (field (loopBytes (some e)) 0 8) = e.remaining.toNat ∧
    leNat (field (loopBytes (some e)) 8 8) = e.start.toNat ∧ leNat (field (loopBytes (some e)) 16 8) = e.stop.toNat ∧
    leNat (field (loopBytes (some e)) 24 8) = e.id.toNat := by
  have parts : loopBytes (some e) = leBytes 8 e.remaining.toNat ++ (leBytes 8 e.start.toNat ++ (leBytes 8 e.stop.toNat ++ leBytes 8 e.id.toNat)) := by
    simp only [loopBytes, List.append_assoc]
  have l8 (v : Word) : (leBytes 8 v.toNat).length = 8 := leBytes_length ..
  rw [parts]
  refine ⟨?_, ?_, ?_, ?_⟩
  · rw [field_head (l8 _), leNat_word]
  · rw [field_tail (p := 0) (l8 _), field_head (l8 _), leNat_word]
  · rw [field_tail (p := 8) (l8 _), field_tail (p := 0) (l8 _), field_head (l8 _), leNat_word]
  · have last : field (leBytes 8 e.id.toNat) 0 8 = leBytes 8 e.id.toNat := rfl
    rw [field_tail (p := 16) (l8 _), field_tail (p := 8) (l8 _), field_tail (p := 0) (l8 _), last, leNat_word]

theorem loopBytes_none (j : Nat) (hj : j < 4) : leNat (field (loopBytes none) (8 * j) 8) = 0 := by
  interval_cases j <;> rfl

/-! ## The record (R388) -/

theorem clusters_getElem (c : Core) (l : Lane) : (lanes.map c.cluster)[laneIdx l]? = some (c.cluster l) := by cases l <;> rfl

def savedPcs (c : Core) : List Byte := (lanes.map c.cluster).flatMap fun x => leBytes 8 x.nextPc.toNat

def savedModes (c : Core) : List Byte :=
  (lanes.map c.cluster).flatMap fun x => leBytes 1 ((if x.split then 1 else 0) + (if x.atJoin then 2 else 0))

def savedCounts (c : Core) : List Byte := (List.range 8).flatMap fun i => leBytes 1 ((c.tokAt i).items.length + 16 * (c.portAt i).items.length)

def savedJoins (c : Core) : List Byte := (lanes.map c.cluster).flatMap fun x => leBytes 1 x.joinId.toNat

/-- What the record says of the queues and the string. -/
def savedNumbers (c : Core) : List Byte :=
  leBytes 8 (c.lqIssued % 2 ^ 32 * 2 ^ 32 + c.lqDone % 2 ^ 32) ++ leBytes 8 (c.sqIssued % 2 ^ 32 * 2 ^ 32 + c.sqDone % 2 ^ 32) ++
  leBytes 8 (c.eqIssued % 2 ^ 32 * 2 ^ 32 + c.eqDone % 2 ^ 32) ++ leBytes 8 c.str.seqWord.toNat ++ leBytes 8 c.str.head.toNat

def markWord (m : Option Mark) : Nat := match m with | some m => m.step % 4096 * 2 ^ 36 + m.scnt % 2 ^ 32 | none => 0

/-- What the record says of the engines, the counts behind them and the faulting word. -/
def savedEngines (c : Core) (fw : Nat) : List Byte :=
  leBytes 8 (c.cold.mat.statusWord false) ++ leBytes 8 (c.cold.vec.statusWord false) ++
  leBytes 8 (c.cold.tmp.statusWord c.cold.eval.isSome) ++ c.cold.mat.iters ++ c.cold.vec.iters ++ c.cold.tmp.iters ++
  leBytes 8 (markWord c.cold.mat.mark) ++
  leBytes 8 (c.oeqstat.toNat % 2 ^ 32 * 2 ^ 32 + c.cold.mdepth) ++
  leBytes 8 (c.outstanding % 2 ^ 32 * 2 ^ 32 + c.xseq % 2 ^ 32) ++ leBytes 8 (c.rstidx.toNat % 2 ^ 32 * 2 ^ 32) ++ leBytes 64 fw

theorem record_parts (s : State) (cause : Nat) (addr : Word) (fw : Nat) : s.record cause addr fw =
    leBytes 8 cause ++ (leBytes 8 addr.toNat ++ (savedPcs s.core ++ (leBytes 8 s.scnt ++ (savedModes s.core ++ (savedJoins s.core ++
      (savedNumbers s.core ++ (savedCounts s.core ++ savedEngines s.core fw))))))) := by
  unfold State.record savedPcs savedModes savedJoins savedNumbers savedCounts savedEngines markWord
  simp only [List.append_assoc] <;> rfl

@[simp] theorem length_savedPcs (c : Core) : (savedPcs c).length = 32 := length_flatMap_const fun _ _ => leBytes_length ..
@[simp] theorem length_savedModes (c : Core) : (savedModes c).length = 4 := length_flatMap_const fun _ _ => leBytes_length ..
@[simp] theorem length_savedJoins (c : Core) : (savedJoins c).length = 4 := length_flatMap_const fun _ _ => leBytes_length ..
@[simp] theorem length_savedNumbers (c : Core) : (savedNumbers c).length = 40 := by simp [savedNumbers]
@[simp] theorem length_savedCounts (c : Core) : (savedCounts c).length = 8 := length_flatMap_const fun _ _ => leBytes_length ..
@[simp] theorem length_iters (x : Engine) : x.iters.length = 8 := length_flatMap_const fun _ _ => leBytes_length ..
@[simp] theorem length_savedEngines (c : Core) (fw : Nat) : (savedEngines c fw).length = 0x90 := by simp [savedEngines]
@[simp] theorem length_record (s : State) (cause : Nat) (addr : Word) (fw : Nat) : (s.record cause addr fw).length = 0x100 := by
  simp [record_parts]

section
variable (s : State) (cause : Nat) (addr : Word) (fw : Nat)

theorem record_cause (small : cause < 2 ^ 64) : leNat (field (s.record cause addr fw) 0 8) = cause := by
  rw [record_parts, field_head (leBytes_length ..), leNat_leBytes]
  exact Nat.mod_eq_of_lt (lt_of_lt_of_eq small (by norm_num))

theorem record_addr : leNat (field (s.record cause addr fw) 8 8) = addr.toNat := by
  rw [record_parts, field_tail (p := 0) (leBytes_length ..), field_head (leBytes_length ..), leNat_word]

theorem record_pc (l : Lane) : leNat (field (s.record cause addr fw) (0x10 + 8 * laneIdx l) 8) = (s.core.cluster l).nextPc.toNat := by
  have place : field (savedPcs s.core) (8 * laneIdx l) 8 = _ := field_flatMap (fun _ _ => leBytes_length ..) (clusters_getElem _ l)
  have hl : laneIdx l < 4 := by cases l <;> decide
  rw [record_parts, show 0x10 + 8 * laneIdx l = 8 + (8 + 8 * laneIdx l) by omega, field_tail (leBytes_length ..), field_tail (leBytes_length ..),
    field_append_left (by simp; omega), place, leNat_word]

theorem record_mode (l : Lane) : leNat (field (s.record cause addr fw) (0x38 + laneIdx l) 1) =
    (if (s.core.cluster l).split then 1 else 0) + (if (s.core.cluster l).atJoin then 2 else 0) := by
  have place : field (savedModes s.core) (1 * laneIdx l) 1 = _ := field_flatMap (fun _ _ => leBytes_length ..) (clusters_getElem _ l)
  have hl : laneIdx l < 4 := by cases l <;> decide
  rw [Nat.one_mul] at place
  rw [record_parts, show 0x38 + laneIdx l = 8 + (8 + (32 + (8 + laneIdx l))) by omega, field_tail (leBytes_length ..),
    field_tail (leBytes_length ..), field_tail (length_savedPcs _), field_tail (leBytes_length ..), field_append_left (by simp; omega), place,
    leNat_leBytes]
  split_ifs <;> rfl

theorem record_count {i : Nat} (h : i < 8) (small : (s.core.tokAt i).items.length + 16 * (s.core.portAt i).items.length < 256) :
    leNat (field (s.record cause addr fw) (0x68 + i) 1) = (s.core.tokAt i).items.length + 16 * (s.core.portAt i).items.length := by
  have place : field (savedCounts s.core) (1 * i) 1 = _ := field_flatMap (fun _ _ => leBytes_length ..) (getElem?_range_of_lt h)
  rw [Nat.one_mul] at place
  rw [record_parts, show 0x68 + i = 8 + (8 + (32 + (8 + (4 + (4 + (40 + i)))))) by omega, field_tail (leBytes_length ..),
    field_tail (leBytes_length ..), field_tail (length_savedPcs _), field_tail (leBytes_length ..), field_tail (length_savedModes _),
    field_tail (length_savedJoins _), field_tail (length_savedNumbers _), field_append_left (by simp; omega), place, leNat_leBytes]
  exact Nat.mod_eq_of_lt small

end

/-! ## The save areas of the four clusters -/

theorem laneIdx_lt (l : Lane) : laneIdx l < 4 := by cases l <;> decide

/-- Each cluster's area lies apart from the others and from what lies below them. -/
theorem saveClusters_field (c : Core) (base : Nat) (l : Lane) {p n : Nat} (h : p + n ≤ 0x200) :
    (c.saveClusters base).areaNat (base + 1024 * laneIdx l + p) n =
      leNat (field ((c.cluster l).save (c.portAt (leftIn l)) (c.portAt (rightIn l))) p n) := by
  have here (x : Core) (k : Lane) : (x.setArea (base + 1024 * laneIdx k) ((c.cluster k).save (c.portAt (leftIn k)) (c.portAt (rightIn k)))).areaNat
      (base + 1024 * laneIdx k + p) n = leNat (field ((c.cluster k).save (c.portAt (leftIn k)) (c.portAt (rightIn k))) p n) :=
    areaNat_setArea_field x (by simpa using h)
  have apart (x : Core) {j k : Nat} (jk : j ≠ k) (bs : List Byte) (len : bs.length = 0x200) :
      (x.setArea (base + 1024 * k) bs).areaNat (base + 1024 * j + p) n = x.areaNat (base + 1024 * j + p) n :=
    areaNat_setArea_apart x (by rw [len]; omega)
  unfold Core.saveClusters lanes
  simp only [List.foldl_cons, List.foldl_nil]
  cases l
  · rw [apart _ (by decide) _ (length_save ..), apart _ (by decide) _ (length_save ..), apart _ (by decide) _ (length_save ..), here]
  · rw [apart _ (by decide) _ (length_save ..), apart _ (by decide) _ (length_save ..), here]
  · rw [apart _ (by decide) _ (length_save ..), here]
  · rw [here]

theorem saveClusters_below (c : Core) {base p n : Nat} (h : p + n ≤ base) : (c.saveClusters base).areaNat p n = c.areaNat p n := by
  have below (x : Core) (l : Lane) (bs : List Byte) : (x.setArea (base + 1024 * laneIdx l) bs).areaNat p n = x.areaNat p n :=
    areaNat_setArea_apart x (by omega)
  unfold Core.saveClusters lanes
  simp only [List.foldl_cons, List.foldl_nil, below]

end Sys2Proof.Proofs
end

section
/-! # The entry of a handler (R385, R388 to R390) -/

namespace Sys2Proof.Proofs

open Sys2Proof.Machine Sys2Proof.Laws

/-! ## The words of the trapping bundle have not issued -/

theorem dropWaited_cluster (c : Core) (w : Wait) (k l : Lane) : (c.dropWaited w k).cluster l = c.cluster l := by
  unfold Core.dropWaited
  split <;> rfl

theorem dropWaited_of_unissued (c : Core) {w : Wait} (h : w.issued = false) (k : Lane) : c.dropWaited w k = c := by
  cases w with
  | entry n => exact nomatch h
  | _ => rfl

/-- One cluster of the trapping bundle waits no more. -/
def unissueStep (x : Cluster) (me : Lane) (c : Core) (k : Lane) : Core :=
  let y := c.cluster k
  if k = me ∨ (!x.split ∧ !y.split ∧ y.pc = x.pc ∧ !y.done) then (c.dropWaited y.wait k).setCluster k { y with wait := .none } else c

theorem unissue_eq (c : Core) (me : Lane) : c.unissue me = lanes.foldl (unissueStep (c.cluster me) me) c := rfl

theorem unissueStep_other (x : Cluster) (me : Lane) (c : Core) {k l : Lane} (h : l ≠ k) : (unissueStep x me c k).cluster l = c.cluster l := by
  unfold unissueStep
  dsimp only
  split
  · rw [cluster_setCluster_other _ _ h, dropWaited_cluster]
  · rfl

theorem unissueStep_self (x : Cluster) (me : Lane) (c : Core) (k : Lane) : (unissueStep x me c k).cluster k =
    if k = me ∨ (x.split = false ∧ (c.cluster k).split = false ∧ (c.cluster k).pc = x.pc ∧ (c.cluster k).done = false) then
      { c.cluster k with wait := .none }
    else c.cluster k := by
  unfold unissueStep
  simp only [Bool.not_eq_true']
  split
  · exact cluster_setCluster_self ..
  · rfl

theorem cluster_unissue (c : Core) (me l : Lane) : (c.unissue me).cluster l =
    if l = me ∨ ((c.cluster me).split = false ∧ (c.cluster l).split = false ∧ (c.cluster l).pc = (c.cluster me).pc ∧ (c.cluster l).done = false) then
      { c.cluster l with wait := .none }
    else c.cluster l := by
  rw [unissue_eq]
  unfold lanes
  simp only [List.foldl_cons, List.foldl_nil]
  cases l
  · rw [unissueStep_other _ _ _ (by decide), unissueStep_other _ _ _ (by decide), unissueStep_other _ _ _ (by decide), unissueStep_self]
  · rw [unissueStep_other _ _ _ (by decide), unissueStep_other _ _ _ (by decide), unissueStep_self, unissueStep_other _ _ _ (by decide)]
  · rw [unissueStep_other _ _ _ (by decide), unissueStep_self, unissueStep_other _ _ _ (by decide), unissueStep_other _ _ _ (by decide)]
  · rw [unissueStep_self, unissueStep_other _ _ _ (by decide), unissueStep_other _ _ _ (by decide), unissueStep_other _ _ _ (by decide)]

/-- A core but for its clusters and the queues whose entries they wait for. -/
def apartFromWaits (c : Core) : Core := { c.apart with lq := [], eq := [], shpBusy := [] }

theorem unissueStep_apart (x : Cluster) (me : Lane) (c : Core) (k : Lane) : apartFromWaits (unissueStep x me c k) = apartFromWaits c := by
  have dropped (w : Wait) : apartFromWaits (c.dropWaited w k) = apartFromWaits c := by
    unfold Core.dropWaited
    split <;> rfl
  unfold unissueStep
  dsimp only
  split
  · rw [← dropped (c.cluster k).wait]
    cases k <;> rfl
  · rfl

/-- Nothing but the waits and the entries waited for changes. -/
theorem unissue_apart (c : Core) (me : Lane) : apartFromWaits (c.unissue me) = apartFromWaits c := by
  rw [unissue_eq]
  unfold lanes
  simp only [List.foldl_cons, List.foldl_nil, unissueStep_apart]

/-- No queue loses an entry where no word has issued that waits for one. -/
theorem unissue_queues {c : Core} (me : Lane) (h : ∀ l, (c.cluster l).wait.issued = false) :
    (c.unissue me).lq = c.lq ∧ (c.unissue me).eq = c.eq := by
  have step (d : Core) (x : Cluster) (k : Lane) (hd : ∀ l, (d.cluster l).wait.issued = false) :
      (unissueStep x me d k).lq = d.lq ∧ (unissueStep x me d k).eq = d.eq ∧ ∀ l, ((unissueStep x me d k).cluster l).wait.issued = false := by
    refine ⟨?_, ?_, fun l => ?_⟩
    · unfold unissueStep
      dsimp only
      split
      · rw [setCluster_lq, dropWaited_of_unissued _ (hd k)]
      · rfl
    · unfold unissueStep
      dsimp only
      split
      · rw [setCluster_eq, dropWaited_of_unissued _ (hd k)]
      · rfl
    · rcases eq_or_ne l k with rfl | other
      · rw [unissueStep_self]
        split
        · rfl
        · exact hd l
      · rw [unissueStep_other _ _ _ other]
        exact hd l
  have all (ls : List Lane) (x : Cluster) (d : Core) (hd : ∀ l, (d.cluster l).wait.issued = false) :
      (ls.foldl (unissueStep x me) d).lq = d.lq ∧ (ls.foldl (unissueStep x me) d).eq = d.eq := by
    induction ls generalizing d with
    | nil => exact ⟨rfl, rfl⟩
    | cons k rest ih =>
      obtain ⟨lq, eq, waits⟩ := step d x k hd
      exact ⟨(ih _ waits).1.trans lq, (ih _ waits).2.trans eq⟩
  exact all lanes (c.cluster me) c h

/-! ## The handler is entered (R388 to R390) -/

theorem settleLoads_of_idle {c : Core} (idle : c.back = []) (warm : Nat) : c.settleLoads warm = c := by
  unfold Core.settleLoads
  rw [idle]
  exact congrArg (fun b => { c with back := b }) idle.symm

theorem record_congr {s t : State} (core : t.core = s.core) (scnt : t.scnt = s.scnt) (cause : Nat) (addr : Word) (fw : Nat) :
    t.record cause addr fw = s.record cause addr fw := by
  unfold State.record
  rw [core, scnt]

/-- The record and the save areas of the level that a fault interrupts. -/
def savedCore (s : State) (cause : Nat) (addr : Word) (fw : Nat) : Core :=
  (s.core.setArea (if s.core.inHandler then 0x100 else 0) (s.record cause addr fw)).saveClusters (if s.core.inHandler then 0x1400 else 0x400)

theorem savedCore_frame (s : State) (cause : Nat) (addr : Word) (fw : Nat) :
    ∃ recs s0 s1, savedCore s cause addr fw = { s.core with recs := recs, slot0 := s0, slot1 := s1 } := by
  have saved (base : Nat) (ls : List Lane) (c x : Core) : ∃ recs s0 s1, ls.foldl (fun x l =>
      x.setArea (base + 1024 * laneIdx l) ((c.cluster l).save (c.portAt (leftIn l)) (c.portAt (rightIn l)))) x =
        { x with recs := recs, slot0 := s0, slot1 := s1 } := by
    induction ls generalizing x with
    | nil => exact ⟨x.recs, x.slot0, x.slot1, rfl⟩
    | cons l rest ih =>
      obtain ⟨recs, s0, s1, more⟩ := ih (x.setArea (base + 1024 * laneIdx l) ((c.cluster l).save (c.portAt (leftIn l)) (c.portAt (rightIn l))))
      obtain ⟨_, _, _, one⟩ := setArea_frame x (base + 1024 * laneIdx l) ((c.cluster l).save (c.portAt (leftIn l)) (c.portAt (rightIn l)))
      exact ⟨recs, s0, s1, by rw [List.foldl_cons, more, one]⟩
  obtain ⟨_, _, _, record⟩ := setArea_frame s.core (if s.core.inHandler then 0x100 else 0) (s.record cause addr fw)
  obtain ⟨recs, s0, s1, areas⟩ := saved (if s.core.inHandler then 0x1400 else 0x400) lanes
    (s.core.setArea (if s.core.inHandler then 0x100 else 0) (s.record cause addr fw))
    (s.core.setArea (if s.core.inHandler then 0x100 else 0) (s.record cause addr fw))
  exact ⟨recs, s0, s1, by rw [savedCore, Core.saveClusters, areas, record]⟩

/-- The state as a fault of a core whose loads have all returned leaves it: the handler begins, and what it interrupts is saved. -/
structure Entered (s t : State) (cause : Nat) (addr : Word) (fw : Nat) : Prop where
  area : ∀ off n, t.core.areaNat off n = (savedCore s cause addr fw).areaNat off n
  clusters : ∃ delay, ∀ l, t.core.cluster l = handlerCluster t.core s.warm delay l
  saved : ∀ l, Sp.get {} t.core.saved (laneIdx l + if s.core.inHandler then 4 else 0) = s.core.cluster l
  level : t.core.inHandler = true ∧ t.core.nested = s.core.inHandler ∧ t.core.tacked = s.core.inHandler
  links : t.core.tok = [] ∧ t.core.port = []
  window : t.core.win = none ∧ t.core.replay = none
  queues : t.core.lq = s.core.lq ∧ t.core.sq = s.core.sq ∧ t.core.eq = s.core.eq
  cold : t.core.cold = if s.core.held then s.core.cold else s.core.cold.noteCut s.clock
  kept : t.core.tvec = s.core.tvec ∧ t.core.accLost = s.core.accLost ∧ t.core.run = s.core.run
  pod : { t with cores := s.cores, drawn := s.drawn } = s

/-- What entering the handler from `s` makes of a core `c` whose record and save areas stand in `c2`. -/
def beginHandler (s : State) (delay : Nat) (c c2 : Core) : Core :=
  let nested := s.core.inHandler
  let c3 := { c2 with
    saved := lanes.foldl (fun m l => Sp.put m (laneIdx l + if nested then 4 else 0) (c.cluster l)) c2.saved,
    tok := [], port := [], inHandler := true, nested := nested, tacked := nested, cutAt := if nested then c2.cutAt else s.scnt,
    cutNest := if nested then s.scnt else c2.cutNest, accHere := false,
    cold := if c.held then c.cold else c.cold.noteCut s.clock,
    win := none, replay := none, bar := none, halting := false, haltAt := if c2.halting then c2.level :: c2.haltAt else c2.haltAt }
  c3.modClusters fun l _ => handlerCluster c3 s.warm delay l

theorem enterHandler_eq (s : State) (cause : Nat) (addr : Word) (fw : Nat) : ∃ (delay : Nat) (s0 : State),
    s0.core = s.core.settleLoads s.warm ∧ s0.scnt = s.scnt ∧ { s0 with cores := s.cores, drawn := s.drawn } = s ∧
    s.enterHandler cause addr fw = s0.modCore fun c => beginHandler s delay c
      ((c.setArea (if s.core.inHandler then 0x100 else 0) (s0.record cause addr fw)).saveClusters (if s.core.inHandler then 0x1400 else 0x400)) :=
  ⟨_, ((s.modCore fun c => c.settleLoads s.warm).draw 127).2, core_modCore s fun c => c.settleLoads s.warm, rfl, rfl, rfl⟩

/-- Each of the four clusters is kept under its own key. -/
theorem get_saved (m : Sp Cluster) (n : Nat) (f : Lane → Cluster) (l : Lane) :
    Sp.get {} (lanes.foldl (fun m l => Sp.put m (laneIdx l + n) (f l)) m) (laneIdx l + n) = f l := by
  have other (m : Sp Cluster) {j k : Lane} (h : laneIdx j ≠ laneIdx k) :
      Sp.get {} (Sp.put m (laneIdx k + n) (f k)) (laneIdx j + n) = Sp.get {} m (laneIdx j + n) := get_put_other _ _ _ (by omega)
  unfold lanes
  simp only [List.foldl_cons, List.foldl_nil]
  cases l
  · rw [other _ (by decide), other _ (by decide), other _ (by decide), get_put_self]
  · rw [other _ (by decide), other _ (by decide), get_put_self]
  · rw [other _ (by decide), get_put_self]
  · rw [get_put_self]

theorem areaNat_of_slots {c d : Core} (recs : d.recs = c.recs) (slot0 : d.slot0 = c.slot0) (slot1 : d.slot1 = c.slot1) (run : d.run = c.run)
    (off n : Nat) : d.areaNat off n = c.areaNat off n := by
  unfold Core.areaNat Core.areaByte Core.slot
  rw [recs, slot0, slot1, run]

theorem handlerCluster_congr {c d : Core} (tvec : d.tvec = c.tvec) (trec : d.trec = c.trec) (warm delay : Nat) (l : Lane) :
    handlerCluster d warm delay l = handlerCluster c warm delay l := by
  unfold handlerCluster
  rw [tvec, trec]

theorem beginHandler_area (s : State) (delay : Nat) (c c2 : Core) (off n : Nat) : (beginHandler s delay c c2).areaNat off n = c2.areaNat off n :=
  areaNat_of_slots rfl rfl rfl rfl off n

theorem beginHandler_cluster (s : State) (delay : Nat) (c c2 : Core) (l : Lane) :
    (beginHandler s delay c c2).cluster l = handlerCluster (beginHandler s delay c c2) s.warm delay l :=
  (cluster_modClusters ..).trans (handlerCluster_congr rfl rfl ..)

theorem beginHandler_saved (s : State) (delay : Nat) (c c2 : Core) (l : Lane) :
    Sp.get {} (beginHandler s delay c c2).saved (laneIdx l + if s.core.inHandler then 4 else 0) = c.cluster l := by
  change Sp.get {} (lanes.foldl (fun m l => Sp.put m (laneIdx l + if s.core.inHandler then 4 else 0) (c.cluster l)) c2.saved) _ = _
  exact get_saved c2.saved _ c.cluster l

theorem beginHandler_kept (s : State) (delay : Nat) (c c2 : Core) :
    ((beginHandler s delay c c2).lq = c2.lq ∧ (beginHandler s delay c c2).sq = c2.sq ∧ (beginHandler s delay c c2).eq = c2.eq) ∧
      (beginHandler s delay c c2).tvec = c2.tvec ∧ (beginHandler s delay c c2).accLost = c2.accLost ∧ (beginHandler s delay c c2).run = c2.run :=
  ⟨⟨rfl, rfl, rfl⟩, rfl, rfl, rfl⟩

/-- A change of the current core leaves the rest of the pod. -/
theorem modCore_pod (s : State) (f : Core → Core) (cores : Sp Core) (drawn : Nat) :
    { s.modCore f with cores := cores, drawn := drawn } = { s with cores := cores, drawn := drawn } := rfl

theorem enterHandler_enters {s : State} (idle : s.core.back = []) (cause : Nat) (addr : Word) (fw : Nat) :
    Entered s (s.enterHandler cause addr fw) cause addr fw := by
  obtain ⟨delay, s0, settled, scnt, pod, entered⟩ := enterHandler_eq s cause addr fw
  rw [settleLoads_of_idle idle] at settled
  have core : (s.enterHandler cause addr fw).core = beginHandler s delay s.core (savedCore s cause addr fw) := by
    rw [entered]
    refine (core_modCore ..).trans ?_
    show beginHandler s delay s0.core _ = _
    rw [record_congr settled scnt cause addr fw, settled]
    rfl
  have rest : { s.enterHandler cause addr fw with cores := s.cores, drawn := s.drawn } = s := by
    rw [entered, modCore_pod, pod]
  obtain ⟨recs, s0, s1, frame⟩ := savedCore_frame s cause addr fw
  refine ⟨fun off n => ?_, ⟨delay, fun l => ?_⟩, fun l => ?_, ?_, ?_, ?_, ?_, ?_, ?_, rest⟩
  all_goals rw [core]
  · exact beginHandler_area ..
  · exact beginHandler_cluster ..
  · exact beginHandler_saved ..
  · exact ⟨rfl, rfl, rfl⟩
  · exact ⟨rfl, rfl⟩
  · exact ⟨rfl, rfl⟩
  · obtain ⟨⟨lq, sq, eq⟩, -⟩ := beginHandler_kept s delay s.core (savedCore s cause addr fw)
    rw [lq, sq, eq, frame]
    exact ⟨rfl, rfl, rfl⟩
  · rfl
  · obtain ⟨-, tvec, accLost, run⟩ := beginHandler_kept s delay s.core (savedCore s cause addr fw)
    rw [tvec, accLost, run, frame]
    exact ⟨rfl, rfl, rfl⟩

end Sys2Proof.Proofs
end

section
/-! # O13: a trap saves the clusters and enters the handler (R383 to R385, R388 to R390) -/

namespace Sys2Proof.Proofs

open Sys2Proof.Machine Sys2Proof.Laws

/-! ## What the area holds when the handler begins -/

section
variable (s : State) (cause : Nat) (addr : Word) (fw : Nat)

theorem savedCore_record {p n : Nat} (h : p + n ≤ 0x100) :
    (savedCore s cause addr fw).areaNat ((if s.core.inHandler then 0x100 else 0) + p) n = leNat (field (s.record cause addr fw) p n) := by
  unfold savedCore
  rw [saveClusters_below _ (by split_ifs <;> omega), areaNat_setArea_field _ (by rw [length_record]; exact h)]

theorem savedCore_cluster (l : Lane) {p n : Nat} (h : p + n ≤ 0x200) :
    (savedCore s cause addr fw).areaNat ((if s.core.inHandler then 0x1400 else 0x400) + 1024 * laneIdx l + p) n =
      leNat (field ((s.core.cluster l).save (s.core.portAt (leftIn l)) (s.core.portAt (rightIn l))) p n) := by
  obtain ⟨_, _, _, frame⟩ := setArea_frame s.core (if s.core.inHandler then 0x100 else 0) (s.record cause addr fw)
  unfold savedCore
  rw [saveClusters_field _ _ l h, frame]
  cases l <;> rfl

end

/-! ## The handler's clusters -/

section
variable (c : Core) (warm delay : Nat) (l : Lane)

theorem handlerCluster_rg (n : Nat) : (handlerCluster c warm delay l).rg n =
    if n = 1 then c.trec else if n = 30 then 0xFFF0000000000000 + BitVec.ofNat 64 (0x2400 + 0x700 * (laneIdx l + 1)) else 0 := by
  have bottom : (word (0xFFF0000000000000 + 0x2400 + 0x700 * (laneIdx l + 1)) : Word) =
      0xFFF0000000000000 + BitVec.ofNat 64 (0x2400 + 0x700 * (laneIdx l + 1)) := by cases l <;> rfl
  have blank : Cluster.rg { pc := c.tvec, readyAt := warm + 1 + delay } n = 0 := by
    unfold Cluster.rg
    split <;> rfl
  unfold handlerCluster
  dsimp only
  rw [rg_wg, rg_wg, bottom, blank]
  by_cases h1 : n = 1
  · rw [h1]
    rfl
  · by_cases h30 : n = 30
    · rw [h30]
      rfl
    · rw [if_neg (by tauto), if_neg (by tauto), if_neg h1, if_neg h30]

theorem handlerCluster_start : (handlerCluster c warm delay l).pc = c.tvec ∧ (handlerCluster c warm delay l).split = false ∧
    (handlerCluster c warm delay l).loops = [] := ⟨rfl, rfl, rfl⟩

theorem handlerCluster_rp (n : Nat) : (handlerCluster c warm delay l).rp n = decide (n = 0) := by
  unfold handlerCluster
  dsimp only
  rw [rp_wg, rp_wg, Cluster.rp]
  by_cases h : n = 0
  · rw [if_pos h, decide_eq_true h]
  · rw [if_neg h, decide_eq_false h]
    rfl

theorem handlerCluster_rc (n : Nat) : (handlerCluster c warm delay l).rc n = 0 := by
  unfold handlerCluster
  dsimp only
  rw [rc_wg, rc_wg]
  rfl

end

/-! ## The trap of a word -/

/-- The trapping word's core, whose bundle has not issued. -/
def State.trapped (s : State) : State := s.modCore fun c => c.unissue s.lane

theorem core_trapped (s : State) : (State.trapped s).core = s.core.unissue s.lane := core_modCore ..

theorem trapped_apart (s : State) : apartFromWaits (State.trapped s).core = apartFromWaits s.core := by
  rw [core_trapped, unissue_apart]

/-- What a trapping word leaves of the core but the waits. -/
theorem trapped_kept (s : State) : (State.trapped s).core.inHandler = s.core.inHandler ∧ (State.trapped s).core.nested = s.core.nested ∧
    (State.trapped s).core.tacked = s.core.tacked ∧ (State.trapped s).core.back = s.core.back ∧ (State.trapped s).core.tvec = s.core.tvec ∧
    (State.trapped s).core.run = s.core.run ∧ (State.trapped s).core.accLost = s.core.accLost := by
  have same := trapped_apart s
  exact ⟨(congrArg Core.inHandler same :), (congrArg Core.nested same :), (congrArg Core.tacked same :), (congrArg Core.back same :), (congrArg Core.tvec same :),
    (congrArg Core.run same :), (congrArg Core.accLost same :)⟩

theorem trapped_port (s : State) (i : Nat) : (State.trapped s).core.portAt i = s.core.portAt i ∧ (State.trapped s).core.tokAt i = s.core.tokAt i :=
  ⟨(congrArg (Core.portAt · i) (trapped_apart s) :), (congrArg (Core.tokAt · i) (trapped_apart s) :)⟩

/-- Only what a cluster waits for may change where a word of its bundle traps. -/
theorem trapped_cluster (s : State) (l : Lane) : ∃ w, (State.trapped s).core.cluster l = { s.core.cluster l with wait := w } := by
  rw [core_trapped, cluster_unissue]
  split
  · exact ⟨_, rfl⟩
  · exact ⟨(s.core.cluster l).wait, rfl⟩

/-- The fault of a word is of class word, unit its lane. -/
theorem wordTrap_eq {s : State} {code : Nat} (addr : Word) (h15 : code ≠ 0x15) (h1c : code ≠ 0x1C) (h1b : code ≠ 0x1B) :
    ∃ fw, s.wordTrap code addr = (State.trapped s).takeTrap (4096 * laneIdx s.lane + code) addr fw := by
  refine ⟨((State.trapped s).wordAt (State.trapped s).wordHandle).toNat, ?_⟩
  have cause : causeOf 0 (laneIdx s.lane) code = 4096 * laneIdx s.lane + code := by unfold causeOf; omega
  unfold State.wordTrap
  rw [if_neg h1b]
  unfold State.raise
  dsimp only
  split
  · exact absurd rfl h15
  · exact absurd rfl h1c
  · rw [State.trapped, ← cause]
    rfl

theorem takeTrap_outside {s : State} (outside : s.core.inHandler = false) (cause : Nat) (addr : Word) (fw : Nat) :
    s.takeTrap cause addr fw = s.enterHandler cause addr fw := by
  unfold State.takeTrap
  exact if_neg (by rw [outside]; simp)

theorem cause_lt {l : Lane} {code : Nat} (h : code < 4096) : 4096 * laneIdx l + code < 2 ^ 64 := by
  have := laneIdx_lt l
  omega

section
variable {s t : State} {cause : Nat} {addr : Word} {fw : Nat} (h : Entered s t cause addr fw)
include h

theorem Entered.causeHeld (small : cause < 2 ^ 64) : t.core.areaNat (if s.core.inHandler then 0x100 else 0) 8 = cause :=
  (h.area _ _).trans ((savedCore_record s cause addr fw (p := 0) (by decide)).trans (record_cause s cause addr fw small))

theorem Entered.addrHeld : t.core.areaNat ((if s.core.inHandler then 0x100 else 0) + 8) 8 = addr.toNat :=
  (h.area _ _).trans ((savedCore_record s cause addr fw (by decide)).trans (record_addr s cause addr fw))

theorem Entered.pcHeld (l : Lane) :
    t.core.areaNat ((if s.core.inHandler then 0x100 else 0) + (0x10 + 8 * laneIdx l)) 8 = (s.core.cluster l).nextPc.toNat :=
  (h.area _ _).trans ((savedCore_record s cause addr fw (by have := laneIdx_lt l; omega)).trans (record_pc s cause addr fw l))

/-- A field of a cluster's save area. -/
theorem Entered.field (l : Lane) {p n : Nat} (hp : p + n ≤ 0x200) :
    t.core.areaNat ((if s.core.inHandler then 0x1400 else 0x400) + 1024 * laneIdx l + p) n =
      leNat (field ((s.core.cluster l).save (s.core.portAt (leftIn l)) (s.core.portAt (rightIn l))) p n) :=
  (h.area _ _).trans (savedCore_cluster s cause addr fw l hp)

theorem Entered.trec : t.core.trec = if s.core.inHandler then 0xFFF0000000000100 else 0xFFF0000000000000 := by
  obtain ⟨inside, nested, -⟩ := h.level
  unfold Core.trec
  rw [inside, nested]
  rfl

/-- The handler's clusters begin at TVEC with the record's address and their stack. -/
theorem Entered.cluster (l : Lane) : (t.core.cluster l).pc = s.core.tvec ∧ (t.core.cluster l).split = false ∧ (t.core.cluster l).loops = [] ∧
    (∀ n, (t.core.cluster l).rg n = if n = 1 then (if s.core.inHandler then 0xFFF0000000000100 else 0xFFF0000000000000)
      else if n = 30 then 0xFFF0000000000000 + BitVec.ofNat 64 (0x2400 + 0x700 * (laneIdx l + 1)) else 0) ∧
    (∀ n, (t.core.cluster l).rp n = decide (n = 0)) ∧ ∀ n, (t.core.cluster l).rc n = 0 := by
  obtain ⟨delay, clusters⟩ := h.clusters
  obtain ⟨tvec, -⟩ := h.kept
  rw [clusters l, ← h.trec, ← tvec]
  obtain ⟨pc, split, loops⟩ := handlerCluster_start t.core s.warm delay l
  exact ⟨pc, split, loops, handlerCluster_rg t.core s.warm delay l, handlerCluster_rp t.core s.warm delay l, handlerCluster_rc t.core s.warm delay l⟩

/-- The cold state but for the cut each engine notes. -/
theorem Entered.cold_frame : { t.core.cold with mat := s.core.cold.mat, vec := s.core.cold.vec, tmp := s.core.cold.tmp } = s.core.cold ∧
    ∀ e, { t.core.engine e with acted := (s.core.engine e).acted } = s.core.engine e := by
  unfold Core.engine
  rw [h.cold]
  split
  · exact ⟨rfl, fun e => rfl⟩
  · exact ⟨rfl, fun e => by cases e <;> rfl⟩

theorem Entered.memory : t.mem = s.mem ∧ t.parts = s.parts := ⟨(congrArg State.mem h.pod :), (congrArg State.parts h.pod :)⟩

end

/-- What a field of the save area of a cluster outside a handler reads. -/
def SavedAt (c : Core) (x : Cluster) (left right : Fifo) (b : Nat) : Prop :=
  (∀ n, n < 32 → c.areaNat (b + 8 * n) 8 = (x.rg n).toNat) ∧
  (∀ n, n < 4 → c.areaNat (b + 0x100) 1 / 2 ^ n % 2 = if x.rp n then 1 else 0) ∧
  (∀ n, n < 7 → c.areaNat (b + 0x108 + 4 * n) 4 = (x.rc n).toNat) ∧
  (∀ i e, i < 4 → x.loops[i]? = some e →
    c.areaNat (b + 0x128 + 32 * i) 8 = e.remaining.toNat ∧ c.areaNat (b + 0x130 + 32 * i) 8 = e.start.toNat ∧
    c.areaNat (b + 0x138 + 32 * i) 8 = e.stop.toNat ∧ c.areaNat (b + 0x140 + 32 * i) 8 = e.id.toNat) ∧
  (∀ i w v, i < 4 → left.items[i]? = some (w, v) → c.areaNat (b + 0x1A8 + 8 * i) 8 = v.toNat) ∧
  ∀ i w v, i < 4 → right.items[i]? = some (w, v) → c.areaNat (b + 0x1C8 + 8 * i) 8 = v.toNat

theorem savedAt_of_fields {c : Core} {x : Cluster} {left right : Fifo} {b : Nat}
    (fields : ∀ p n, p + n ≤ 0x200 → c.areaNat (b + p) n = leNat (field (x.save left right) p n)) : SavedAt c x left right b := by
  refine ⟨fun n hn => ?_, fun n hn => ?_, fun n hn => ?_, fun i e hi he => ?_, fun i w v hi hv => ?_, fun i w v hi hv => ?_⟩
  · rw [fields _ _ (by omega), save_reg x left right hn]
  · rw [fields _ _ (by omega), save_pred x left right hn]
  · rw [Nat.add_assoc, fields _ _ (by omega), save_coord x left right hn]
  · have at_ (j : Nat) (hj : j < 4) : c.areaNat (b + (0x128 + 32 * i + 8 * j)) 8 = leNat (field (loopBytes (some e)) (8 * j) 8) := by
      rw [fields _ _ (by omega), save_loop x left right hi hj, he]
    obtain ⟨remaining, start, stop, id⟩ := loopBytes_some e
    refine ⟨?_, ?_, ?_, ?_⟩
    · rw [show b + 0x128 + 32 * i = b + (0x128 + 32 * i + 8 * 0) by omega]
      exact (at_ 0 (by decide)).trans remaining
    · rw [show b + 0x130 + 32 * i = b + (0x128 + 32 * i + 8 * 1) by omega]
      exact (at_ 1 (by decide)).trans start
    · rw [show b + 0x138 + 32 * i = b + (0x128 + 32 * i + 8 * 2) by omega]
      exact (at_ 2 (by decide)).trans stop
    · rw [show b + 0x140 + 32 * i = b + (0x128 + 32 * i + 8 * 3) by omega]
      exact (at_ 3 (by decide)).trans id
  · rw [Nat.add_assoc, fields _ _ (by omega), save_left x left right hi, fifoWord_of_item hv]
  · rw [Nat.add_assoc, fields _ _ (by omega), save_right x left right hi, fifoWord_of_item hv]

/-! ## A fault that reaches a core (R383, R390) -/

/-- An entry dropped unperformed leaves what a handler starts from. -/
theorem dropEntry_start (s : State) (q : QueueId) (e : QEntry) :
    (s.dropEntry q e).core.back = s.core.back ∧ (s.dropEntry q e).core.tvec = s.core.tvec := by
  have step {t : State} {f : Core → Core} (h : t.core.back = s.core.back ∧ t.core.tvec = s.core.tvec)
      (hf : ∀ c, (f c).back = c.back ∧ (f c).tvec = c.tvec) : (t.modCore f).core.back = s.core.back ∧ (t.modCore f).core.tvec = s.core.tvec := by
    rw [core_modCore]
    exact ⟨(hf _).1.trans h.1, (hf _).2.trans h.2⟩
  have set (l : Lane) (x : Core → Cluster) (c : Core) : (c.setCluster l (x c)).back = c.back ∧ (c.setCluster l (x c)).tvec = c.tvec := by
    cases l <;> exact ⟨rfl, rfl⟩
  have gone := step (t := s) ⟨rfl, rfl⟩ (f := fun c => c.setQueue q ((c.queue q).filter fun x => !decide (x.seq = e.seq)))
    (fun c => by cases q <;> exact ⟨rfl, rfl⟩)
  unfold State.dropEntry State.release State.answer
  cases e.op with
  | load h z l d | xget c l d => exact step gone (set _ _)
  | crossing n => exact step gone fun _ => ⟨rfl, rfl⟩
  | shpld n a => exact step (step gone (set _ _)) fun _ => ⟨rfl, rfl⟩
  | tsync n => exact step gone (set _ _)
  | _ => exact gone

/-- The fault enters the handler from a state of the same task, whose queues only a queue-class fault has touched. -/
theorem execTrapEntry_enters {s : State} (cause : BitVec 16) (addr : Word) (runs : s.core.run ≠ none) : ∃ (u : State) (fw : Nat),
    execTrapEntry cause addr s = .next (u.takeTrap cause.toNat addr fw) ∧ u.core.inHandler = s.core.inHandler ∧ u.core.back = s.core.back ∧
      u.core.tvec = s.core.tvec ∧ u.mem = s.mem ∧
      (cause.extractLsb' 14 2 ≠ 1 → u.core.lq = s.core.lq ∧ u.core.sq = s.core.sq ∧ u.core.eq = s.core.eq) := by
  have queueClass (h : bits cause 14 2 = 1) : cause.extractLsb' 14 2 = 1 := BitVec.eq_of_toNat_eq (by rw [BitVec.extractLsb'_toNat, Nat.shiftRight_eq_div_pow]; exact h)
  unfold execTrapEntry
  dsimp only
  rw [if_neg (by simpa using runs)]
  split
  · exact ⟨{ s with lane := laneOf (bits cause 12 2) }, _, rfl, rfl, rfl, rfl, rfl, fun _ => ⟨rfl, rfl, rfl⟩⟩
  · next isQueue =>
    split
    · next e _ =>
      obtain ⟨handler, -, mem⟩ := keepsCold_dropEntry s (queueOf (bits cause 12 2)) e
      obtain ⟨back, tvec⟩ := dropEntry_start s (queueOf (bits cause 12 2)) e
      exact ⟨_, _, rfl, handler, back, tvec, mem, fun other => absurd (queueClass isQueue) other⟩
    · exact ⟨s, _, rfl, rfl, rfl, rfl, rfl, fun _ => ⟨rfl, rfl, rfl⟩⟩
  · exact ⟨s, _, rfl, rfl, rfl, rfl, rfl, fun _ => ⟨rfl, rfl, rfl⟩⟩
  · exact ⟨s, _, rfl, rfl, rfl, rfl, rfl, fun _ => ⟨rfl, rfl, rfl⟩⟩

/-! ## The obligation -/

theorem trapEntry_enters {s : State} (cause : BitVec 16) (addr : Word) (runs : s.core.run ≠ none) (outside : s.core.inHandler = false)
    (idle : s.core.back = []) : ∃ t, exec (.trapEntry cause addr) s = .next t ∧ t.core.inHandler = true ∧ t.core.nested = false ∧
      t.core.areaNat 0 8 = cause.toNat ∧ t.core.areaNat 8 8 = addr.toNat ∧ t.mem = s.mem ∧ (∀ l, (t.core.cluster l).pc = s.core.tvec) ∧
      (cause.extractLsb' 14 2 ≠ 1 → t.core.lq = s.core.lq ∧ t.core.sq = s.core.sq ∧ t.core.eq = s.core.eq) := by
  obtain ⟨u, fw, run, handler, back, tvec, mem, queues⟩ := execTrapEntry_enters cause addr runs
  rw [outside] at handler
  have entered := enterHandler_enters (back.trans idle) cause.toNat addr fw
  obtain ⟨inside, nested, -⟩ := entered.level
  have first := entered.causeHeld (by have := cause.isLt; omega)
  have second := entered.addrHeld
  rw [handler] at nested first second
  refine ⟨_, (exec_trapEntry s).trans (run.trans (congrArg Host.Outcome.next (takeTrap_outside handler ..))), inside, nested, first, second,
    entered.memory.1.trans mem, fun l => (entered.cluster l).1.trans tvec, fun other => ?_⟩
  obtain ⟨lq, sq, eq⟩ := queues other
  obtain ⟨lq', sq', eq'⟩ := entered.queues
  exact ⟨lq'.trans lq, sq'.trans sq, eq'.trans eq⟩

/-- A word's fault outside a handler enters the handler from the state whose bundle has not issued. -/
theorem wordTrap_entered {s : State} {code : Nat} (addr : Word) (outside : s.core.inHandler = false) (idle : s.core.back = [])
    (h15 : code ≠ 0x15) (h1c : code ≠ 0x1C) (h1b : code ≠ 0x1B) :
    ∃ fw, Entered (State.trapped s) (s.wordTrap code addr) (4096 * laneIdx s.lane + code) addr fw := by
  obtain ⟨fw, trap⟩ := wordTrap_eq (s := s) addr h15 h1c h1b
  obtain ⟨handler, -, -, back, -⟩ := trapped_kept s
  rw [trap, takeTrap_outside (handler.trans outside)]
  exact ⟨fw, enterHandler_enters (back.trans idle) ..⟩

/-- Settles O13: the areas are written with the record and the four saved clusters before the handler's clusters begin. -/
theorem trapEntrySavesAndEnters : Obligations.TrapEntrySavesAndEnters := by
  unfold Obligations.TrapEntrySavesAndEnters
  refine ⟨⟨fun sy s => exec_brk s, fun code addr s outside idle small h15 h1c h1b => ?_⟩, fun c me l => ⟨cluster_unissue c me l, rfl⟩,
    fun cause addr s => ⟨fun none => ?_, fun runs outside idle => trapEntry_enters cause addr runs outside idle⟩⟩
  · obtain ⟨fw, entered⟩ := wordTrap_entered addr outside idle h15 h1c h1b
    obtain ⟨handler, -, -, -, tvec, -⟩ := trapped_kept s
    rw [outside] at handler
    obtain ⟨inside, nested, tacked⟩ := entered.level
    have cause := entered.causeHeld (cause_lt small)
    have at_ := entered.addrHeld
    have pcs := entered.pcHeld
    have clusters := entered.cluster
    have fields (l : Lane) := savedAt_of_fields fun p n => entered.field l (p := p) (n := n)
    obtain ⟨lq, sq, eq⟩ := entered.queues
    obtain ⟨cold, engines⟩ := entered.cold_frame
    have same := trapped_apart s
    have coldSame : (State.trapped s).core.cold = s.core.cold := (congrArg Core.cold same :)
    rw [handler] at nested tacked cause at_ pcs
    simp only [handler, tvec] at clusters
    simp only [handler, Bool.false_eq_true, if_false] at fields
    rw [coldSame] at cold
    simp only [Core.engine, coldSame] at engines
    refine ⟨inside, nested, tacked, entered.links.1, entered.links.2, entered.window.1, entered.window.2, cause, at_, fun l => ?_, clusters,
      fun l => ?_, entered.memory.1, entered.memory.2, sq.trans ((congrArg Core.sq same :)), fun unissued => ?_, cold, engines⟩
    · rw [← core_trapped]
      simpa using pcs l
    · have saved := fields l
      obtain ⟨w, cluster⟩ := trapped_cluster s l
      rw [cluster, (trapped_port s _).1, (trapped_port s _).1] at saved
      exact saved
    · obtain ⟨lq', eq'⟩ := unissue_queues s.lane unissued
      rw [lq, eq, core_trapped]
      exact ⟨lq', eq'⟩
  · rw [exec_trapEntry, execTrapEntry]
    dsimp only
    rw [if_pos (by rw [none]; rfl)]

end Sys2Proof.Proofs
end

section
/-! # O14: double faults end the task, and a return restores every cluster (R389, R391 to R393, R396, R398) -/

namespace Sys2Proof.Proofs

open Sys2Proof.Machine Sys2Proof.Laws

/-! ## Registers read back (R389) -/

theorem rg_foldl_wg (f : Nat → Word) (ns : List Nat) (x : Cluster) (n : Nat) :
    (ns.foldl (fun x n => x.wg n (f n)) x).rg n = if n ∈ ns ∧ n ≠ 0 then f n else x.rg n := by
  induction ns generalizing x with
  | nil => simp
  | cons m rest ih =>
    rw [List.foldl_cons, ih, rg_wg]
    by_cases here : n = m
    · subst here
      by_cases zero : n = 0 <;> simp [zero]
    · simp [here]

theorem rp_foldl_wp (f : Nat → Bool) (ns : List Nat) (x : Cluster) (n : Nat) :
    (ns.foldl (fun x n => x.wp n (f n)) x).rp n = if n ∈ ns ∧ n ≠ 0 then f n else x.rp n := by
  induction ns generalizing x with
  | nil => simp
  | cons m rest ih =>
    rw [List.foldl_cons, ih, rp_wp]
    by_cases here : n = m
    · subst here
      by_cases zero : n = 0 <;> simp [zero]
    · simp [here]

theorem rc_foldl_wc (f : Nat → Word32) (ns : List Nat) (x : Cluster) (n : Nat) :
    (ns.foldl (fun x n => x.wc n (f n)) x).rc n = if n ∈ ns then f n else x.rc n := by
  induction ns generalizing x with
  | nil => simp
  | cons m rest ih =>
    rw [List.foldl_cons, ih, rc_wc]
    by_cases here : n = m
    · subst here
      simp
    · simp [here]

/-- The kinds of registers are written apart from each other. -/
theorem rg_foldl_wp (f : Nat → Bool) (ns : List Nat) (x : Cluster) (n : Nat) : (ns.foldl (fun x n => x.wp n (f n)) x).rg n = x.rg n := by
  induction ns generalizing x with
  | nil => rfl
  | cons m rest ih => rw [List.foldl_cons, ih, rg_wp]

theorem rg_foldl_wc (f : Nat → Word32) (ns : List Nat) (x : Cluster) (n : Nat) : (ns.foldl (fun x n => x.wc n (f n)) x).rg n = x.rg n := by
  induction ns generalizing x with
  | nil => rfl
  | cons m rest ih => rw [List.foldl_cons, ih, rg_wc]

theorem rp_foldl_wc (f : Nat → Word32) (ns : List Nat) (x : Cluster) (n : Nat) : (ns.foldl (fun x n => x.wc n (f n)) x).rp n = x.rp n := by
  induction ns generalizing x with
  | nil => rfl
  | cons m rest ih => rw [List.foldl_cons, ih, rp_wc]

/-- What one kind of register writes leaves of a cluster. -/
theorem foldl_wg_frame (f : Nat → Word) (ns : List Nat) (x : Cluster) : ∃ g, ns.foldl (fun x n => x.wg n (f n)) x = { x with g := g } := by
  induction ns generalizing x with
  | nil => exact ⟨x.g, rfl⟩
  | cons m rest ih =>
    obtain ⟨g, more⟩ := ih (x.wg m (f m))
    refine ⟨g, more.trans ?_⟩
    unfold Cluster.wg
    split <;> rfl

theorem foldl_wp_frame (f : Nat → Bool) (ns : List Nat) (x : Cluster) : ∃ p, ns.foldl (fun x n => x.wp n (f n)) x = { x with p := p } := by
  induction ns generalizing x with
  | nil => exact ⟨x.p, rfl⟩
  | cons m rest ih =>
    obtain ⟨p, more⟩ := ih (x.wp m (f m))
    refine ⟨p, more.trans ?_⟩
    unfold Cluster.wp
    split <;> rfl

theorem foldl_wc_frame (f : Nat → Word32) (ns : List Nat) (x : Cluster) : ∃ c, ns.foldl (fun x n => x.wc n (f n)) x = { x with c := c } := by
  induction ns generalizing x with
  | nil => exact ⟨x.c, rfl⟩
  | cons m rest ih =>
    obtain ⟨c, more⟩ := ih (x.wc m (f m))
    exact ⟨c, more⟩

section
variable (rd : Nat → Nat → Nat) (b : Nat) (x : Cluster)

theorem readRegs_frame : ∃ g p c, readRegs rd b x = { x with g := g, p := p, c := c } := by
  unfold readRegs
  dsimp only
  obtain ⟨g, hg⟩ := foldl_wg_frame (fun n => word (rd (b + 8 * n) 8)) (List.range 32) x
  obtain ⟨p, hp⟩ := foldl_wp_frame (fun n => decide (rd (b + 0x100) 1 / 2 ^ n % 2 = 1)) [1, 2, 3] { x with g := g }
  obtain ⟨c, hc⟩ := foldl_wc_frame (fun n => BitVec.ofNat 32 (rd (b + 0x108 + 4 * n) 4)) (List.range 7) { x with g := g, p := p }
  exact ⟨g, p, c, by rw [hg, hp, hc]⟩

theorem readRegs_rg {n : Nat} (h : n < 32) : (readRegs rd b x).rg n = if n = 0 then 0 else word (rd (b + 8 * n) 8) := by
  unfold readRegs
  dsimp only
  rw [rg_foldl_wc fun n => BitVec.ofNat 32 (rd (b + 0x108 + 4 * n) 4), rg_foldl_wp fun n => decide (rd (b + 0x100) 1 / 2 ^ n % 2 = 1),
    rg_foldl_wg fun n => word (rd (b + 8 * n) 8)]
  by_cases zero : n = 0
  · rw [if_neg fun both => both.2 zero, if_pos zero, zero, rg_zero]
  · rw [if_pos ⟨List.mem_range.2 h, zero⟩, if_neg zero]

theorem readRegs_rp {n : Nat} (h : n < 4) : (readRegs rd b x).rp n = if n = 0 then true else decide (rd (b + 0x100) 1 / 2 ^ n % 2 = 1) := by
  unfold readRegs
  dsimp only
  rw [rp_foldl_wc fun n => BitVec.ofNat 32 (rd (b + 0x108 + 4 * n) 4), rp_foldl_wp fun n => decide (rd (b + 0x100) 1 / 2 ^ n % 2 = 1)]
  by_cases zero : n = 0
  · rw [if_neg fun both => both.2 zero, if_pos zero, zero, rp_zero]
  · rw [if_pos ⟨by simp; omega, zero⟩, if_neg zero]

theorem readRegs_rc {n : Nat} (h : n < 7) : (readRegs rd b x).rc n = BitVec.ofNat 32 (rd (b + 0x108 + 4 * n) 4) := by
  unfold readRegs
  dsimp only
  rw [rc_foldl_wc fun n => BitVec.ofNat 32 (rd (b + 0x108 + 4 * n) 4), if_pos (List.mem_range.2 h)]

end

/-! ## A cluster read back (R389, R396) -/

/-- The loop entry read back at `o` of an area: none where no iteration remains. -/
def rereadLoop (c : Core) (old : Cluster) (warm b i : Nat) : Option LoopEntry :=
  let o := b + 0x128 + 32 * i
  let rem := word (c.areaNat o 8)
  if rem = 0 then none
  else
    let e : LoopEntry := old.loops[i]?.getD
      { remaining := rem, initial := rem, start := 0, stop := 0, id := 0, inst := 0, pre := false, began := warm, kill := none }
    some { e with remaining := rem, start := word (c.areaNat (o + 8) 8), stop := word (c.areaNat (o + 16) 8),
                    id := word (c.areaNat (o + 24) 8), began := warm }

/-- A cluster read back before it is seen whether its word goes on as performed or as issued. -/
def rereadCluster (c : Core) (base rec_ : Nat) (old : Cluster) (warm : Nat) (l : Lane) : Cluster :=
  { readRegs c.areaNat (base + 1024 * laneIdx l) { pc := word (c.areaNat (rec_ + 0x10 + 8 * laneIdx l) 8), readyAt := warm } with
    split := decide (c.areaNat (rec_ + 0x38 + laneIdx l) 1 % 2 = 1),
    loops := (List.range 4).filterMap (rereadLoop c old warm (base + 1024 * laneIdx l)), busy := old.busy }

section
variable (c : Core) (base rec_ : Nat) (old : Cluster) (warm : Nat) (l : Lane)

theorem loadCluster_eq : c.loadCluster base rec_ old warm l =
    let y := rereadCluster c base rec_ old warm l
    if old.done ∧ !y.split ∧ word (c.areaNat (rec_ + 0x10 + 8 * laneIdx l) 8) = old.nextPc then
      { y with pc := old.pc, done := true, xfer := old.xfer, sync := old.sync }
    else if old.wait.issued ∧ y.split = old.split ∧ word (c.areaNat (rec_ + 0x10 + 8 * laneIdx l) 8) = old.nextPc then
      { y with pc := old.pc, wait := old.wait, since := some warm }
    else y := rfl

theorem loadCluster_kept : (∀ n, (c.loadCluster base rec_ old warm l).rg n = (rereadCluster c base rec_ old warm l).rg n) ∧
    (∀ n, (c.loadCluster base rec_ old warm l).rp n = (rereadCluster c base rec_ old warm l).rp n) ∧
    (∀ n, (c.loadCluster base rec_ old warm l).rc n = (rereadCluster c base rec_ old warm l).rc n) ∧
    (c.loadCluster base rec_ old warm l).split = (rereadCluster c base rec_ old warm l).split ∧
    (c.loadCluster base rec_ old warm l).loops = (rereadCluster c base rec_ old warm l).loops := by
  rw [loadCluster_eq]
  generalize rereadCluster c base rec_ old warm l = y
  dsimp only
  split_ifs <;> exact ⟨fun _ => rfl, fun _ => rfl, fun _ => rfl, rfl, rfl⟩

/-- Where a cluster goes on whose record and save areas hold what the fault found. -/
theorem loadCluster_place (tpc : word (c.areaNat (rec_ + 0x10 + 8 * laneIdx l) 8) = old.nextPc)
    (split : (rereadCluster c base rec_ old warm l).split = old.split) :
    ((old.done = true → old.split = false) → (c.loadCluster base rec_ old warm l).nextPc = old.nextPc) ∧
    (old.split = false → (c.loadCluster base rec_ old warm l).pc = old.pc ∧ (c.loadCluster base rec_ old warm l).done = old.done) := by
  obtain ⟨_, _, _, frame⟩ := readRegs_frame c.areaNat (base + 1024 * laneIdx l) { pc := word (c.areaNat (rec_ + 0x10 + 8 * laneIdx l) 8), readyAt := warm }
  have fresh : (rereadCluster c base rec_ old warm l).pc = old.nextPc ∧ (rereadCluster c base rec_ old warm l).done = false ∧
      (rereadCluster c base rec_ old warm l).wait = .none := by
    unfold rereadCluster
    rw [frame, ← tpc]
    exact ⟨rfl, rfl, rfl⟩
  rw [loadCluster_eq]
  generalize rereadCluster c base rec_ old warm l = y at split fresh
  obtain ⟨pc, notDone, idle⟩ := fresh
  dsimp only
  by_cases done : old.done = true
  · constructor
    · intro joined
      rw [if_pos ⟨done, by rw [split, joined done]; rfl, tpc⟩, Cluster.nextPc, Cluster.nextPc, if_pos done]
      rfl
    · intro joined
      rw [if_pos ⟨done, by rw [split, joined]; rfl, tpc⟩]
      exact ⟨rfl, done.symm⟩
  · rw [if_neg fun h => done h.1]
    rw [Bool.not_eq_true] at done
    by_cases issued : old.wait.issued = true
    · rw [if_pos ⟨issued, split, tpc⟩]
      refine ⟨fun _ => ?_, fun _ => ⟨rfl, notDone.trans done.symm⟩⟩
      unfold Cluster.nextPc
      dsimp only
      rw [notDone, done]
      rfl
    · rw [if_neg fun h => issued h.1]
      rw [Bool.not_eq_true] at issued
      have here : old.nextPc = old.pc := by rw [Cluster.nextPc, done, issued]; rfl
      refine ⟨fun _ => ?_, fun _ => ⟨pc.trans here, notDone.trans done.symm⟩⟩
      rw [Cluster.nextPc, notDone, idle, pc]
      rfl

end

/-- The areas hold a cluster: its save area at `b`, its PC and mode in the record slot at `rec_`. -/
structure Holds (c : Core) (b rec_ : Nat) (x : Cluster) (l : Lane) : Prop where
  saved : ∃ left right, SavedAt c x left right b
  absent : ∀ i, i < 4 → x.loops[i]? = none → c.areaNat (b + 0x128 + 32 * i) 8 = 0
  pc : c.areaNat (rec_ + 0x10 + 8 * laneIdx l) 8 = x.nextPc.toNat
  mode : c.areaNat (rec_ + 0x38 + laneIdx l) 1 % 2 = if x.split then 1 else 0

theorem word_toNat (v : Word) : word v.toNat = v := BitVec.ofNat_toNat ..

/-- The entries of a list of at most four, read one by one. -/
theorem filterMap_range_four {α β : Type} {xs : List α} (f : Nat → Option β) (g : α → β) (short : xs.length ≤ 4)
    (here : ∀ i e, i < 4 → xs[i]? = some e → f i = some (g e)) (absent : ∀ i, i < 4 → xs[i]? = none → f i = none) :
    (List.range 4).filterMap f = xs.map g := by
  have all : (List.range 4).filterMap f = (List.range 4).filterMap fun i => xs[i]?.map g := by
    refine List.filterMap_congr fun i hi => ?_
    have small := List.mem_range.1 hi
    cases at_ : xs[i]? with
    | none => exact absent i small at_
    | some e => exact here i e small at_
  rw [all]
  match xs with
  | [] | [_] | [_, _] | [_, _, _] | [_, _, _, _] => rfl
  | _ :: _ :: _ :: _ :: _ :: rest => exact absurd short (by simp)

theorem rereadCluster_regs (c : Core) (base rec_ : Nat) (old : Cluster) (warm : Nat) (l : Lane) : ∃ x,
    (∀ n, (rereadCluster c base rec_ old warm l).rg n = (readRegs c.areaNat (base + 1024 * laneIdx l) x).rg n) ∧
    (∀ n, (rereadCluster c base rec_ old warm l).rp n = (readRegs c.areaNat (base + 1024 * laneIdx l) x).rp n) ∧
    ∀ n, (rereadCluster c base rec_ old warm l).rc n = (readRegs c.areaNat (base + 1024 * laneIdx l) x).rc n := by
  refine ⟨{ pc := word (c.areaNat (rec_ + 0x10 + 8 * laneIdx l) 8), readyAt := warm }, ?_⟩
  unfold rereadCluster
  generalize readRegs _ _ _ = y
  exact ⟨fun _ => rfl, fun _ => rfl, fun _ => rfl⟩

theorem rereadCluster_loops (c : Core) (base rec_ : Nat) (old : Cluster) (warm : Nat) (l : Lane) :
    (rereadCluster c base rec_ old warm l).loops = (List.range 4).filterMap (rereadLoop c old warm (base + 1024 * laneIdx l)) := by
  unfold rereadCluster
  generalize List.filterMap _ _ = loops
  generalize readRegs _ _ _ = y
  rfl

/-- The entry of a loop whose words the area holds. -/
theorem rereadLoop_held {c : Core} {old : Cluster} {b i : Nat} {e : LoopEntry} (warm : Nat) (at_ : old.loops[i]? = some e) (live : e.remaining ≠ 0)
    (remaining : c.areaNat (b + 0x128 + 32 * i) 8 = e.remaining.toNat) (start : c.areaNat (b + 0x130 + 32 * i) 8 = e.start.toNat)
    (stop : c.areaNat (b + 0x138 + 32 * i) 8 = e.stop.toNat) (id : c.areaNat (b + 0x140 + 32 * i) 8 = e.id.toNat) :
    rereadLoop c old warm b i = some { e with began := warm } := by
  have second : b + 0x128 + 32 * i + 8 = b + 0x130 + 32 * i := by omega
  have third : b + 0x128 + 32 * i + 16 = b + 0x138 + 32 * i := by omega
  have fourth : b + 0x128 + 32 * i + 24 = b + 0x140 + 32 * i := by omega
  unfold rereadLoop
  dsimp only
  rw [second, third, fourth, remaining, start, stop, id, word_toNat, word_toNat, word_toNat, word_toNat, if_neg live, at_]
  rfl

theorem rereadLoops_held {c : Core} {old : Cluster} {b : Nat} (warm : Nat) (short : old.loops.length ≤ 4) (live : ∀ e ∈ old.loops, e.remaining ≠ 0)
    (entries : ∀ i e, i < 4 → old.loops[i]? = some e →
      c.areaNat (b + 0x128 + 32 * i) 8 = e.remaining.toNat ∧ c.areaNat (b + 0x130 + 32 * i) 8 = e.start.toNat ∧
      c.areaNat (b + 0x138 + 32 * i) 8 = e.stop.toNat ∧ c.areaNat (b + 0x140 + 32 * i) 8 = e.id.toNat)
    (absent : ∀ i, i < 4 → old.loops[i]? = none → c.areaNat (b + 0x128 + 32 * i) 8 = 0) :
    (List.range 4).filterMap (rereadLoop c old warm b) = old.loops.map fun e => { e with began := warm } := by
  refine filterMap_range_four _ _ short (fun i e hi at_ => ?_) fun i hi at_ => ?_
  · obtain ⟨remaining, start, stop, id⟩ := entries i e hi at_
    exact rereadLoop_held warm at_ (live e (List.mem_of_getElem? at_)) remaining start stop id
  · unfold rereadLoop
    dsimp only
    rw [absent i hi at_]
    exact if_pos rfl

section
variable {c : Core} {base rec_ : Nat} {old : Cluster} {l : Lane} (h : Holds c (base + 1024 * laneIdx l) rec_ old l) (warm : Nat)
include h

theorem Holds.regs : (∀ n, n < 32 → (rereadCluster c base rec_ old warm l).rg n = old.rg n) ∧
    (∀ n, n < 4 → (rereadCluster c base rec_ old warm l).rp n = old.rp n) ∧
    ∀ n, n < 7 → (rereadCluster c base rec_ old warm l).rc n = old.rc n := by
  obtain ⟨_, _, regs, preds, coords, -⟩ := h.saved
  obtain ⟨x, gs, ps, cs⟩ := rereadCluster_regs c base rec_ old warm l
  refine ⟨fun n hn => ?_, fun n hn => ?_, fun n hn => ?_⟩
  · rw [gs, readRegs_rg _ _ _ hn, regs n hn, word_toNat]
    split
    · next zero => rw [zero]; rfl
    · rfl
  · rw [ps, readRegs_rp _ _ _ hn, preds n hn]
    split
    · next zero => rw [zero]; rfl
    · cases old.rp n <;> rfl
  · rw [cs, readRegs_rc _ _ _ hn, coords n hn]
    exact BitVec.ofNat_toNat ..

theorem Holds.split : (rereadCluster c base rec_ old warm l).split = old.split := by
  change decide (c.areaNat (rec_ + 0x38 + laneIdx l) 1 % 2 = 1) = old.split
  rw [h.mode]
  cases old.split <;> rfl

theorem Holds.loops (short : old.loops.length ≤ 4) (live : ∀ e ∈ old.loops, e.remaining ≠ 0) :
    (rereadCluster c base rec_ old warm l).loops = old.loops.map fun e => { e with began := warm } := by
  obtain ⟨_, _, _, _, _, entries, _⟩ := h.saved
  rw [rereadCluster_loops]
  exact rereadLoops_held warm short live entries h.absent

theorem Holds.tpc : word (c.areaNat (rec_ + 0x10 + 8 * laneIdx l) 8) = old.nextPc := by rw [h.pc, word_toNat]

end

/-! ## What a fault leaves is what a return finds -/

section
variable {s t : State} {cause : Nat} {addr : Word} {fw : Nat} (h : Entered s t cause addr fw)
include h

theorem Entered.holds (l : Lane) : Holds t.core ((if s.core.inHandler then 0x1400 else 0x400) + 1024 * laneIdx l)
    (if s.core.inHandler then 0x100 else 0) (s.core.cluster l) l := by
  have hl := laneIdx_lt l
  refine ⟨⟨_, _, savedAt_of_fields fun p n => h.field l⟩, fun i hi none => ?_, ?_, ?_⟩
  · have at_ := h.field l (p := 0x128 + 32 * i + 8 * 0) (n := 8) (by omega)
    rw [save_loop _ _ _ hi (by decide), none, loopBytes_none 0 (by decide)] at at_
    have place (b : Nat) : b + 0x128 + 32 * i = b + (0x128 + 32 * i + 8 * 0) := by omega
    rw [place]
    exact at_
  · rw [Nat.add_assoc]
    exact h.pcHeld l
  · have held := (h.area ((if s.core.inHandler then 0x100 else 0) + (0x38 + laneIdx l)) 1).trans
      ((savedCore_record s cause addr fw (by omega)).trans (record_mode s cause addr fw l))
    rw [Nat.add_assoc, held]
    cases (s.core.cluster l).split <;> cases (s.core.cluster l).atJoin <;> rfl

/-- How many tokens and values each FIFO held. -/
theorem Entered.count {i : Nat} (hi : i < 8) (small : (s.core.tokAt i).items.length + 16 * (s.core.portAt i).items.length < 256) :
    t.core.areaNat ((if s.core.inHandler then 0x100 else 0) + 0x68 + i) 1 = (s.core.tokAt i).items.length + 16 * (s.core.portAt i).items.length := by
  rw [Nat.add_assoc]
  exact (h.area _ _).trans ((savedCore_record s cause addr fw (by omega)).trans (record_count s cause addr fw hi small))

end

/-- The cluster a link arrives at, and the place of its values in that cluster's area. -/
theorem link_place {i : Nat} (hi : i < 8) : ∃ l, (i % 2 = 0 ∧ leftIn l = i ∧ laneIdx l = (i / 2 + 1) % 4) ∨ (i % 2 = 1 ∧ rightIn l = i ∧ laneIdx l = i / 2) := by
  interval_cases i
  · exact ⟨.E, .inl (by decide)⟩
  · exact ⟨.L, .inr (by decide)⟩
  · exact ⟨.S, .inl (by decide)⟩
  · exact ⟨.E, .inr (by decide)⟩
  · exact ⟨.K, .inl (by decide)⟩
  · exact ⟨.S, .inr (by decide)⟩
  · exact ⟨.L, .inl (by decide)⟩
  · exact ⟨.K, .inr (by decide)⟩

section
variable {s t : State} {cause : Nat} {addr : Word} {fw : Nat} (h : Entered s t cause addr fw) {i : Nat} (hi : i < 8)
  (ports : (s.core.portAt i).items.length ≤ 4) (toks : (s.core.tokAt i).items.length ≤ 8)
include h hi ports toks

theorem Entered.loadTok : (t.core.loadTok (if s.core.inHandler then 0x100 else 0) i).items.length = (s.core.tokAt i).items.length := by
  unfold Core.loadTok
  dsimp only
  rw [h.count hi (by omega), List.length_replicate]
  omega

theorem Entered.loadPort : (t.core.loadPort (if s.core.inHandler then 0x1400 else 0x400) (if s.core.inHandler then 0x100 else 0) i).items.map (·.2) =
    (s.core.portAt i).items.map (·.2) := by
  have count : t.core.areaNat ((if s.core.inHandler then 0x100 else 0) + 0x68 + i) 1 / 16 = (s.core.portAt i).items.length := by
    rw [h.count hi (by omega)]
    omega
  unfold Core.loadPort
  dsimp only
  rw [count, List.map_map]
  refine List.ext_getElem (by simp) fun k hk hk' => ?_
  have inside : k < (s.core.portAt i).items.length := by simpa using hk'
  rw [List.getElem_map, List.getElem_map, List.getElem_range]
  change word _ = ((s.core.portAt i).items[k]).2
  have at_ : (s.core.portAt i).items[k]? = some (((s.core.portAt i).items[k]).1, ((s.core.portAt i).items[k]).2) := List.getElem?_eq_getElem inside
  obtain ⟨l, ⟨even, link, place⟩ | ⟨odd, link, place⟩⟩ := link_place hi
  · obtain ⟨-, -, -, -, lefts, -⟩ := savedAt_of_fields fun p n => h.field l (p := p) (n := n)
    rw [if_pos even, ← place, lefts k _ _ (by omega) (by rw [link]; exact at_), word_toNat]
  · obtain ⟨-, -, -, -, -, rights⟩ := savedAt_of_fields fun p n => h.field l (p := p) (n := n)
    rw [if_neg (by omega), ← place, rights k _ _ (by omega) (by rw [link]; exact at_), word_toNat]

end

/-- A core `r` that came back from `c`'s areas. -/
structure Returned (c r : Core) (base rec_ warm nestedAt : Nat) : Prop where
  clusters : ∀ l, r.cluster l = c.loadCluster base rec_ (Sp.get {} c.saved (laneIdx l + nestedAt)) warm l
  ports : ∀ i, i < 8 → r.portAt i = c.loadPort base rec_ i
  toks : ∀ i, i < 8 → r.tokAt i = c.loadTok rec_ i

theorem get_foldl_put {α : Type} [DecidableEq α] (d : α) (f : Nat → α) (ns : List Nat) (m : Sp α) (i : Nat) :
    Sp.get d (ns.foldl (fun m i => Sp.put m i (f i)) m) i = if i ∈ ns then f i else Sp.get d m i := by
  induction ns generalizing m with
  | nil => simp
  | cons j rest ih =>
    rw [List.foldl_cons, ih]
    by_cases here : i = j
    · subst here
      simp [get_put_self]
    · simp [here, get_put_other]

theorem restore_returned (c : Core) (base rec_ warm nestedAt : Nat) : Returned c (c.restore base rec_ warm nestedAt) base rec_ warm nestedAt := by
  unfold Core.restore
  refine ⟨fun l => cluster_modClusters .., fun i hi => ?_, fun i hi => ?_⟩
  · exact (get_foldl_put {} (c.loadPort base rec_) (List.range 8) [] i).trans (if_pos (List.mem_range.2 hi))
  · exact (get_foldl_put {} (c.loadTok rec_) (List.range 8) [] i).trans (if_pos (List.mem_range.2 hi))

/-- Only clusters and FIFOs count for what came back. -/
theorem Returned.congr {c r r' : Core} {base rec_ warm nestedAt : Nat} (h : Returned c r base rec_ warm nestedAt)
    (clusters : ∀ l, r'.cluster l = r.cluster l) (port : r'.port = r.port) (tok : r'.tok = r.tok) : Returned c r' base rec_ warm nestedAt :=
  ⟨fun l => (clusters l).trans (h.clusters l), fun i hi => (show r'.portAt i = r.portAt i from congrArg (fun m => Sp.get ({} : Fifo) m i) port).trans (h.ports i hi),
    fun i hi => (show r'.tokAt i = r.tokAt i from congrArg (fun m => Sp.get ({} : Fifo) m i) tok).trans (h.toks i hi)⟩

/-! ## The three returns -/

/-- Without the frozen statement's `let`s: what came back agrees with what the fault found (R396). -/
theorem Entered.restored {s t : State} {cause : Nat} {addr : Word} {fw : Nat} (h : Entered s t cause addr fw) {r : Core}
    (back : Returned t.core r (if s.core.inHandler then 0x1400 else 0x400) (if s.core.inHandler then 0x100 else 0) s.warm
      (if s.core.inHandler then 4 else 0)) :
    (∀ l, (∀ n, n < 32 → (r.cluster l).rg n = (s.core.cluster l).rg n) ∧ (∀ n, n < 4 → (r.cluster l).rp n = (s.core.cluster l).rp n) ∧
      (∀ n, n < 7 → (r.cluster l).rc n = (s.core.cluster l).rc n) ∧ (r.cluster l).split = (s.core.cluster l).split ∧
      (((s.core.cluster l).done = true → (s.core.cluster l).split = false) → (r.cluster l).nextPc = (s.core.cluster l).nextPc) ∧
      ((s.core.cluster l).split = false → (r.cluster l).pc = (s.core.cluster l).pc ∧ (r.cluster l).done = (s.core.cluster l).done) ∧
      ((s.core.cluster l).loops.length ≤ 4 → (∀ e ∈ (s.core.cluster l).loops, e.remaining ≠ 0) →
        (r.cluster l).loops = (s.core.cluster l).loops.map fun e => { e with began := s.warm })) ∧
    ∀ i, i < 8 → (s.core.portAt i).items.length ≤ 4 → (s.core.tokAt i).items.length ≤ 8 →
      (r.portAt i).items.map (·.2) = (s.core.portAt i).items.map (·.2) ∧ (r.tokAt i).items.length = (s.core.tokAt i).items.length := by
  refine ⟨fun l => ?_, fun i hi ports toks => ?_⟩
  · have held := h.holds l
    obtain ⟨gs, ps, cs⟩ := held.regs s.warm
    rw [back.clusters l, h.saved l]
    obtain ⟨kg, kp, kc, split, loops⟩ := loadCluster_kept t.core (if s.core.inHandler then 0x1400 else 0x400) (if s.core.inHandler then 0x100 else 0)
      (s.core.cluster l) s.warm l
    obtain ⟨next, joined⟩ := loadCluster_place t.core (if s.core.inHandler then 0x1400 else 0x400) (if s.core.inHandler then 0x100 else 0)
      (s.core.cluster l) s.warm l held.tpc (held.split s.warm)
    exact ⟨fun n hn => (kg n).trans (gs n hn), fun n hn => (kp n).trans (ps n hn), fun n hn => (kc n).trans (cs n hn),
      split.trans (held.split s.warm), next, joined, fun short live => loops.trans (held.loops s.warm short live)⟩
  · rw [back.ports i hi, back.toks i hi]
    exact ⟨h.loadPort hi ports toks, h.loadTok hi ports toks⟩

theorem shift_cluster (c : Core) (level h : Nat) (tables : Bool) (l : Lane) : (c.shift level h tables).cluster l = c.cluster l := by cases l <;> rfl

theorem leave_cluster (c : Core) (level : Nat) (l : Lane) : (c.leave level).cluster l = c.cluster l := by cases l <;> rfl

/-- What a return to a task's code makes of the core that came back. -/
def resumeTask (s : State) (c c1 : Core) : Core :=
  { c1 with
    cold := c1.cold.noteReturn s.clock,
    inHandler := false, tacked := false, late := false, halting := c.haltAt.contains 0, haltAt := [],
    substAt := if c.emulate then some (word (c.areaNat 8 8)) else none }

/-- What a return to a handler's code makes of the core that came back. -/
def resumeHandler (s : State) (c c1 : Core) : Core :=
  { c1 with
    cold := if c.accLost ∧ !c.accHere then c1.cold.noteReturn s.clock else c1.cold,
    nested := false, tacked := true, accHere := false, halting := c.haltAt.contains 1, haltAt := c.haltAt.erase 1 }

theorem trapReturn_task {s : State} (nested : s.core.nested = false) (kept : s.core.accLost = false) : s.trapReturn.core =
    resumeTask s s.core (((s.core.restore 0x400 0 s.warm 0).shift 0 (s.scnt - s.core.cutAt) true).leave 0) := by
  unfold State.trapReturn
  dsimp only
  rw [if_neg (by rw [nested]; exact Bool.false_ne_true), if_neg (by rw [kept]; exact Bool.false_ne_true)]
  exact core_modCore ..

theorem trapReturn_handler {s : State} (nested : s.core.nested = true) : s.trapReturn.core =
    resumeHandler s s.core (((s.core.restore 0x1400 0x100 s.warm 4).shift 1 (s.scnt - s.core.cutNest) (s.core.accLost && !s.core.accHere)).leave 1) := by
  unfold State.trapReturn
  dsimp only
  rw [if_pos nested]
  exact core_modCore ..

theorem resumeTask_returned (s : State) {c c1 : Core} {base rec_ warm n : Nat} (h : Returned c c1 base rec_ warm n) :
    Returned c (resumeTask s c c1) base rec_ warm n := h.congr (fun l => by cases l <;> rfl) rfl rfl

theorem resumeHandler_returned (s : State) {c c1 : Core} {base rec_ warm n : Nat} (h : Returned c c1 base rec_ warm n) :
    Returned c (resumeHandler s c c1) base rec_ warm n := h.congr (fun l => by cases l <;> rfl) rfl rfl

theorem left_returned {c c1 : Core} {base rec_ warm n : Nat} (h : Returned c c1 base rec_ warm n) (level late : Nat) (tables : Bool) :
    Returned c ((c1.shift level late tables).leave level) base rec_ warm n :=
  h.congr (fun l => (leave_cluster ..).trans (shift_cluster ..)) rfl rfl

theorem trapReturn_task_returned {s : State} (nested : s.core.nested = false) (kept : s.core.accLost = false) :
    Returned s.core s.trapReturn.core 0x400 0 s.warm 0 ∧ s.trapReturn.core.inHandler = false ∧ s.trapReturn.core.nested = false ∧
      s.trapReturn.core.accLost = false := by
  rw [trapReturn_task nested kept]
  refine ⟨resumeTask_returned s (left_returned (restore_returned ..) ..), rfl, nested, kept⟩

theorem trapReturn_handler_returned {s : State} (inside : s.core.inHandler = true) (nested : s.core.nested = true) :
    Returned s.core s.trapReturn.core 0x1400 0x100 s.warm 4 ∧ s.trapReturn.core.inHandler = true ∧ s.trapReturn.core.nested = false ∧
      s.trapReturn.core.tacked = true := by
  rw [trapReturn_handler nested]
  refine ⟨resumeHandler_returned s (left_returned (restore_returned ..) ..), inside, rfl, rfl⟩

/-! ## A word's fault, whatever its class -/

theorem wordTrap_takes {s : State} {code : Nat} (addr : Word) (h1b : code ≠ 0x1B) :
    ∃ cause fw, s.wordTrap code addr = (State.trapped s).takeTrap cause addr fw := by
  unfold State.wordTrap
  rw [if_neg h1b]
  exact ⟨_, _, rfl⟩

theorem takeTrap_tacked {s : State} (tacked : s.core.tacked = true) (nested : s.core.nested = false) (cause : Nat) (addr : Word) (fw : Nat) :
    s.takeTrap cause addr fw = s.enterHandler cause addr fw := by
  unfold State.takeTrap
  exact if_neg (by rw [tacked, nested]; simp)

theorem Entered.warm {s t : State} {cause : Nat} {addr : Word} {fw : Nat} (h : Entered s t cause addr fw) : t.warm = s.warm :=
  (congrArg State.warm h.pod :)

/-- The frozen statement's conclusion, from what came back. -/
theorem restored_of_returned {s : State} {code level cause fw : Nat} {addr : Word}
    (h : Entered (State.trapped s) (s.wordTrap code addr) cause addr fw)
    (back : Returned (s.wordTrap code addr).core (s.wordTrap code addr).trapReturn.core (if s.core.inHandler then 0x1400 else 0x400)
      (if s.core.inHandler then 0x100 else 0) (s.wordTrap code addr).warm (if s.core.inHandler then 4 else 0))
    (at_ : (s.wordTrap code addr).trapReturn.core.level + 1 = level) : s.Restored code addr level := by
  obtain ⟨handler, -⟩ := trapped_kept s
  rw [h.warm, ← handler] at back
  obtain ⟨clusters, fifos⟩ := h.restored back
  rw [core_trapped] at clusters
  refine ⟨at_, clusters, fun i hi ports toks => ?_⟩
  have same := fifos i hi
  rw [(trapped_port s i).1, (trapped_port s i).2] at same
  exact same ports toks

theorem word_returns_to_task {s : State} {code : Nat} (addr : Word) (outside : s.core.inHandler = false) (idle : s.core.back = [])
    (kept : s.core.accLost = false) (h1b : code ≠ 0x1B) : (s.wordTrap code addr).trapReturn.core.inHandler = false ∧
      (s.wordTrap code addr).trapReturn.core.accLost = false ∧ s.Restored code addr 1 := by
  obtain ⟨cause, fw, trap⟩ := wordTrap_takes (s := s) addr h1b
  obtain ⟨handler, -, -, back, -, -, lost⟩ := trapped_kept s
  have entered : Entered (State.trapped s) (s.wordTrap code addr) cause addr fw := by
    rw [trap, takeTrap_outside (handler.trans outside)]
    exact enterHandler_enters (back.trans idle) ..
  obtain ⟨-, nested, -⟩ := entered.level
  obtain ⟨-, accLost, -⟩ := entered.kept
  obtain ⟨returned, left, notNested, stillKept⟩ := trapReturn_task_returned (nested.trans (handler.trans outside)) (accLost.trans (lost.trans kept))
  refine ⟨left, stillKept, restored_of_returned entered ?_ ?_⟩
  · rw [outside]
    exact returned
  · unfold Core.level
    rw [left, notNested]
    rfl

theorem nested_word_returns {s : State} {code : Nat} (addr : Word) (inside : s.core.inHandler = true) (single : s.core.nested = false)
    (tacked : s.core.tacked = true) (idle : s.core.back = []) (small : code < 4096) (h15 : code ≠ 0x15) (h1c : code ≠ 0x1C) (h1b : code ≠ 0x1B) :
    (s.wordTrap code addr).core.inHandler = true ∧ (s.wordTrap code addr).core.nested = true ∧
      (s.wordTrap code addr).core.areaNat 0x100 8 = 4096 * laneIdx s.lane + code ∧ (s.wordTrap code addr).core.areaNat 0x108 8 = addr.toNat ∧
      (∀ l, ((s.wordTrap code addr).core.cluster l).pc = s.core.tvec ∧ ((s.wordTrap code addr).core.cluster l).rg 1 = 0xFFF0000000000100) ∧
      (s.wordTrap code addr).trapReturn.core.inHandler = true ∧ (s.wordTrap code addr).trapReturn.core.nested = false ∧
      (s.wordTrap code addr).trapReturn.core.tacked = true ∧ s.Restored code addr 2 := by
  obtain ⟨fw, trap⟩ := wordTrap_eq (s := s) addr h15 h1c h1b
  obtain ⟨handler, notNested, tack, back, tvec, -, -⟩ := trapped_kept s
  have entered : Entered (State.trapped s) (s.wordTrap code addr) (4096 * laneIdx s.lane + code) addr fw := by
    rw [trap, takeTrap_tacked (tack.trans tacked) (notNested.trans single)]
    exact enterHandler_enters (back.trans idle) ..
  obtain ⟨inHandler, nested, -⟩ := entered.level
  have first := entered.causeHeld (cause_lt small)
  have second := entered.addrHeld
  have clusters := entered.cluster
  rw [handler, inside] at nested first second
  simp only [handler, inside, tvec] at clusters
  obtain ⟨returned, stays, left, after⟩ := trapReturn_handler_returned inHandler nested
  refine ⟨inHandler, nested, first, second, fun l => ?_, stays, left, after, restored_of_returned entered ?_ ?_⟩
  · obtain ⟨pc, -, -, regs, -⟩ := clusters l
    exact ⟨pc, regs 1⟩
  · rw [inside]
    exact returned
  · unfold Core.level
    rw [stays, left]
    rfl

/-! ## A double fault (R391, R393) -/

/-- The record slots lie below the save areas: writing them leaves the slots alone. -/
theorem setArea_record {off : Nat} {bs : List Byte} (c : Core) (low : off + bs.length ≤ 0x200) : ∃ recs, c.setArea off bs = { c with recs := recs } := by
  induction bs generalizing c off with
  | nil => exact ⟨c.recs, rfl⟩
  | cons b rest ih =>
    rw [List.length_cons] at low
    obtain ⟨recs, more⟩ := ih (c.setAreaByte off b) (off := off + 1) (by omega)
    refine ⟨recs, more.trans ?_⟩
    rw [Core.setAreaByte, if_pos (by omega)]

/-- A double fault's record, and word of it to the package. -/
def doubleRecord (s : State) (cause : Nat) (addr : Word) : State :=
  (s.modCore fun c => c.setArea 0x100 (s.record (cause / 256 * 256 + 0x1D) addr (cause % 256))).notify (pkgOf s.cur) (.doubleFault (BitVec.ofNat 8 s.cur))

theorem doubleRecord_slotsKept (s : State) (cause : Nat) (addr : Word) : SlotsKept s (doubleRecord s cause addr) := by
  have area (c : Core) : ∃ recs, c.setArea 0x100 (s.record (cause / 256 * 256 + 0x1D) addr (cause % 256)) = { c with recs := recs } :=
    setArea_record c (by rw [length_record])
  have recorded : SlotsKept s (s.modCore fun c => c.setArea 0x100 (s.record (cause / 256 * 256 + 0x1D) addr (cause % 256))) := by
    refine SlotsKept.modCoreAt s s.cur (fun c j => ?_) fun c => ?_
    · obtain ⟨recs, frame⟩ := area c
      rw [frame]
      rfl
    · obtain ⟨recs, frame⟩ := area c
      rw [frame]
  unfold doubleRecord State.notify
  exact recorded.trans (SlotsKept.of_cores rfl rfl)

theorem takeTrap_double {s : State} (inside : s.core.inHandler = true) (open_ : s.core.tacked = false) {i : BitVec 1} (run : s.core.run = some i)
    (cause : Nat) (addr : Word) (fw : Nat) : s.takeTrap cause addr fw =
      ((doubleRecord s cause addr).settleSpans s.cur i true).endTask s.cur i 2 (BitVec.ofNat 16 (cause / 256 * 256 + 0x1D)) := by
  unfold State.takeTrap
  dsimp only
  rw [if_pos ⟨inside, .inl (by rw [open_]; rfl)⟩, run]
  rfl

theorem double_fault_ends {s : State} {code : Nat} (addr : Word) {i : BitVec 1} (inside : s.core.inHandler = true) (open_ : s.core.tacked = false)
    (run : s.core.run = some i) (h1b : code ≠ 0x1B) : ((s.wordTrap code addr).coreAt s.cur).run = none ∧
      ((s.core.slotAt i).badCrc = none → (((s.wordTrap code addr).coreAt s.cur).slotAt i).state = .ended) := by
  obtain ⟨cause, fw, trap⟩ := wordTrap_takes (s := s) addr h1b
  obtain ⟨handler, -, tack, -, -, runs, -⟩ := trapped_kept s
  have ends := takeTrap_double (handler.trans inside) (tack.trans open_) (runs.trans run) cause addr fw
  have kept := (doubleRecord_slotsKept (State.trapped s) cause addr).trans (SlotsKept.settleSpans _ (State.trapped s).cur i true)
  generalize ((doubleRecord (State.trapped s) cause addr).settleSpans (State.trapped s).cur i true) = u at ends kept
  have slot : (State.trapped s).core.slotAt i = s.core.slotAt i := by
    have same := congrArg (Core.slotAt · i) (trapped_apart s)
    exact same
  rw [trap, ends]
  have running : (u.coreAt s.cur).run = some i := (kept.run s.cur).trans (runs.trans run)
  refine ⟨(endTask_clears _ _ running).1, fun whole => (endTask_endsTask u s.cur i _ _).ended ?_⟩
  rw [kept.slotAt]
  exact (congrArg Slot.badCrc slot).trans whole

/-! ## A return after a handler's engine command (R396, R398) -/

/-- The core JOINED at RSTLBL, its registers read back, its queues and FIFOs empty and its engines idle. -/
def restartTask (s : State) (c : Core) : Core :=
  let c1 := ((c.restore 0x400 0 s.warm 0).leave 0).toRestart s.warm true
  let c1 := engines.foldl (fun c e => c.modEngine e Engine.abandon) c1
  { c1 with
    inHandler := false, tacked := false, late := false, accLost := false, emulate := false, substAt := none, tok := [], port := [],
    lq := [], eq := [],
    xings := (c.leave 0).xings.filter fun x => x.admitted || decide (x.kind = 2),
    shpBusy := [], haltAt := [], trapNext := [], halting := false }

theorem trapReturn_restart {s : State} (nested : s.core.nested = false) (lost : s.core.accLost = true) :
    s.trapReturn = (s.modCore (restartTask s)).restartOrEnd := by
  unfold State.trapReturn
  dsimp only
  rw [if_neg (by rw [nested]; exact Bool.false_ne_true), if_pos lost]
  rfl

theorem bytes_modCore (s : State) (f : Core → Core) (key n : Nat) : (s.modCore f).bytes key n = s.bytes key n := by
  induction n generalizing key with
  | zero => rfl
  | succ n ih => exact congrArg (s.byte key :: ·) (ih (key + 1))

/-- The restart table is that of the running task, whatever else of the core changes. -/
theorem restartOk_modCore {s : State} {f : Core → Core} (slot : (f s.core).slot = s.core.slot) (label : (f s.core).rstlbl = s.core.rstlbl) :
    (s.modCore f).restartOk = s.restartOk := by
  have located (p : Nat) (h : Word) (n : Nat) : (s.modCore f).locate p h n = s.locate p h n := rfl
  unfold State.restartOk
  rw [core_modCore, slot, label]
  simp only [located, bytes_modCore]

theorem engine_abandoned (c : Core) (e : EngineId) :
    (engines.foldl (fun c e => c.modEngine e Engine.abandon) c).engine e = (c.engine e).abandon := by
  cases e <;> rfl

theorem foldl_abandon_frame (es : List EngineId) (c : Core) :
    ∃ cold, es.foldl (fun c e => c.modEngine e Engine.abandon) c = { c with cold := cold } := by
  induction es generalizing c with
  | nil => exact ⟨c.cold, rfl⟩
  | cons e rest ih =>
    obtain ⟨cold, more⟩ := ih (c.modEngine e Engine.abandon)
    exact ⟨cold, more⟩

/-- What a restart keeps of the core it resumes. -/
theorem restartTask_task (s : State) (c : Core) : (restartTask s c).slot = c.slot ∧ (restartTask s c).rstlbl = c.rstlbl ∧ (restartTask s c).run = c.run := by
  unfold restartTask
  obtain ⟨cold, frame⟩ := foldl_abandon_frame engines (((c.restore 0x400 0 s.warm 0).leave 0).toRestart s.warm true)
  dsimp only
  rw [frame]
  exact ⟨rfl, rfl, rfl⟩

theorem toRestart_cluster (c : Core) (warm : Nat) (l : Lane) : (c.toRestart warm true).cluster l =
    { pc := c.rstlbl, g := (c.cluster l).g, p := (c.cluster l).p, c := (c.cluster l).c, readyAt := warm } := by
  unfold Core.toRestart
  rw [cluster_modClusters]
  rfl

theorem restartTask_cluster (s : State) (c : Core) (l : Lane) : ∃ x : Cluster, (∀ n, n < 32 → x.rg n = if n = 0 then 0 else
      word (c.areaNat (0x400 + 1024 * laneIdx l + 8 * n) 8)) ∧
    (restartTask s c).cluster l = { pc := c.rstlbl, g := x.g, p := x.p, c := x.c, readyAt := s.warm } := by
  refine ⟨(c.restore 0x400 0 s.warm 0).cluster l, fun n hn => ?_, ?_⟩
  · obtain ⟨regs, -⟩ := loadCluster_kept c 0x400 0 (Sp.get {} c.saved (laneIdx l + 0)) s.warm l
    obtain ⟨x, gs, -⟩ := rereadCluster_regs c 0x400 0 (Sp.get {} c.saved (laneIdx l + 0)) s.warm l
    rw [(restore_returned c 0x400 0 s.warm 0).clusters l, regs, gs, readRegs_rg _ _ _ hn]
  · have at_ := toRestart_cluster ((c.restore 0x400 0 s.warm 0).leave 0) s.warm l
    rw [leave_cluster] at at_
    unfold restartTask
    obtain ⟨cold, frame⟩ := foldl_abandon_frame engines (((c.restore 0x400 0 s.warm 0).leave 0).toRestart s.warm true)
    dsimp only
    rw [frame]
    refine Eq.trans ?_ at_
    cases l <;> rfl

theorem restartTask_idle (s : State) (c : Core) (e : EngineId) : ((restartTask s c).engine e).run = false ∧
    ((restartTask s c).engine e).armed = none ∧ ((restartTask s c).engine e).start = [] := by
  have idle := engine_abandoned (((c.restore 0x400 0 s.warm 0).leave 0).toRestart s.warm true) e
  have same : (restartTask s c).engine e = _ := idle
  rw [same]
  exact ⟨rfl, rfl, rfl⟩

theorem restartOrEnd_ok {s : State} (named : s.restartOk = true) : s.restartOrEnd = s := by
  unfold State.restartOrEnd
  exact if_pos named

/-- A restart whose label the table does not name ends the task. -/
theorem restartOrEnd_ends {s : State} (unnamed : s.restartOk = false) {i : BitVec 1} (run : s.core.run = some i) : s.restartOrEnd.core.run = none := by
  unfold State.restartOrEnd State.endWritten
  rw [if_neg (by rw [unnamed]; exact Bool.false_ne_true), run]
  dsimp only
  have written : SlotsKept s (if (s.coreAt s.cur).run = some i then s.onCore s.cur fun t => t.cleanLines t.warm fun _ => true else s) := by
    split
    · exact SlotsKept.onCore s s.cur fun t => SlotsKept.cleanLines ..
    · exact SlotsKept.refl s
  generalize (if (s.coreAt s.cur).run = some i then s.onCore s.cur fun t => t.cleanLines t.warm fun _ => true else s) = u at written
  have kept := written.trans (SlotsKept.settleSpans u s.cur i false)
  generalize u.settleSpans s.cur i false = v at kept
  have running : (v.coreAt s.cur).run = some i := (kept.run s.cur).trans run
  have ends := endTask_clears (s := v) 2 0x001E running
  have cur := (endTask_endsTask v s.cur i 2 0x001E).cur.trans kept.cur
  unfold State.core
  rw [cur]
  exact ends.1

theorem lost_return_restarts {s : State} (nested : s.core.nested = false) (lost : s.core.accLost = true) (named : s.restartOk = true) :
    s.trapReturn.core = restartTask s s.core := by
  obtain ⟨slot, label, -⟩ := restartTask_task s s.core
  rw [trapReturn_restart nested lost, restartOrEnd_ok ((restartOk_modCore slot label).trans named), core_modCore]

theorem lost_return_ends {s : State} (nested : s.core.nested = false) (lost : s.core.accLost = true) {r : BitVec 1} (unnamed : s.restartOk = false)
    (run : s.core.run = some r) : s.trapReturn.core.run = none := by
  obtain ⟨slot, label, runs⟩ := restartTask_task s s.core
  rw [trapReturn_restart nested lost]
  exact restartOrEnd_ends ((restartOk_modCore slot label).trans unnamed) ((congrArg Core.run (core_modCore ..)).trans (runs.trans run))

/-- Settles O14: what the areas hold is read back cluster by cluster and FIFO by FIFO. -/
theorem doubleFaultsEndAndReturnsRestore : Obligations.DoubleFaultsEndAndReturnsRestore := by
  unfold Obligations.DoubleFaultsEndAndReturnsRestore
  refine ⟨fun code addr i s inside open_ run h1b => double_fault_ends addr inside open_ run h1b,
    fun code addr s outside idle kept _ h1b => word_returns_to_task addr outside idle kept h1b,
    fun code addr s inside single tacked idle small h15 h1c h1b => nested_word_returns addr inside single tacked idle small h15 h1c h1b,
    fun s _ nested lost => ⟨fun named => ?_, fun r unnamed run => lost_return_ends nested lost unnamed run⟩⟩
  rw [lost_return_restarts nested lost named]
  refine ⟨rfl, rfl, rfl, rfl, rfl, rfl, restartTask_idle s s.core, fun l => ?_⟩
  obtain ⟨x, regs, cluster⟩ := restartTask_cluster s s.core l
  rw [cluster]
  refine ⟨rfl, rfl, rfl, rfl, fun n positive small => ?_⟩
  exact (regs n small).trans (if_neg (by omega))

end Sys2Proof.Proofs
end

section
/-! # O51: errors are logged and contained, failures end tasks and regions (R280, R337 to R339, R412, R414, R419, R440, R442) -/

namespace Sys2Proof.Proofs

open Sys2Proof.Machine Sys2Proof.Laws

/-! ## What the end of a task leaves of memory, regions and packages -/

/-- From `s` to `t` memory, the region tables, and what has failed of the packages stand. -/
structure UnitsKept (s t : State) : Prop where
  mem : t.mem = s.mem
  regions : ∀ p, (t.partAt p).regions = (s.partAt p).regions
  ports : ∀ p, (t.pkgAt p).portsDown = (s.pkgAt p).portsDown
  failed : ∀ p, (t.pkgAt p).failed = (s.pkgAt p).failed

namespace UnitsKept

theorem of_same {s t : State} (mem : t.mem = s.mem) (parts : t.parts = s.parts) (pkgs : t.pkgs = s.pkgs) : UnitsKept s t :=
  ⟨mem, fun p => congrArg (fun m => (Sp.get {} m p : Part).regions) parts, fun p => congrArg (fun m => (Sp.get {} m p : Pkg).portsDown) pkgs,
    fun p => congrArg (fun m => (Sp.get {} m p : Pkg).failed) pkgs⟩

theorem refl (s : State) : UnitsKept s s := of_same rfl rfl rfl

theorem trans {s t u : State} (h : UnitsKept s t) (g : UnitsKept t u) : UnitsKept s u :=
  ⟨g.mem.trans h.mem, fun p => (g.regions p).trans (h.regions p), fun p => (g.ports p).trans (h.ports p), fun p => (g.failed p).trans (h.failed p)⟩

theorem foldl {α : Type} {f : State → α → State} (h : ∀ s a, UnitsKept s (f s a)) (l : List α) (s : State) : UnitsKept s (l.foldl f s) := by
  induction l generalizing s with
  | nil => exact refl s
  | cons a rest ih => exact (h s a).trans (ih _)

theorem modPartAt (s : State) (p : Nat) {f : Part → Part} (h : ∀ x, (f x).regions = x.regions) : UnitsKept s (s.modPartAt p f) := by
  refine ⟨rfl, fun q => ?_, fun _ => rfl, fun _ => rfl⟩
  rw [partAt_modPartAt]
  split
  · next same => rw [h, same]
  · rfl

theorem notify (s : State) (p : Nat) (n : Notice) : UnitsKept s (s.notify p n) := by
  unfold State.notify
  refine ⟨rfl, fun _ => rfl, fun q => ?_, fun q => ?_⟩
  all_goals
    rw [pkgAt_modPkgAt]
    split
  · next same => rw [same]
  · rfl
  · next same => rw [same]
  · rfl

theorem modCoreAt (s : State) (k : Nat) (f : Core → Core) : UnitsKept s (s.modCoreAt k f) := of_same rfl rfl rfl

theorem modDieAt (s : State) (d : Nat) (f : Die → Die) : UnitsKept s (s.modDieAt d f) := of_same rfl rfl rfl

theorem logDie (s : State) (d : Nat) (e : MemError) (m : Bool) : UnitsKept s (s.logDie d e m) := by
  unfold State.logDie State.tell
  dsimp only
  split
  · exact (modDieAt s d _).trans (notify _ _ _)
  · exact modDieAt s d _

theorem settleSpans (s : State) (k : Nat) (i : BitVec 1) (failed : Bool) : UnitsKept s (s.settleSpans k i failed) := by
  unfold State.settleSpans
  dsimp only
  refine UnitsKept.trans (UnitsKept.trans (UnitsKept.trans (foldl ?_ _ s) (modPartAt _ _ ?_)) (modCoreAt _ k _)) (foldl ?_ _ _)
  · exact fun s h => modPartAt s _ fun _ => rfl
  · exact fun _ => rfl
  · intro s x
    split
    · exact (modCoreAt s _ _).trans (modCoreAt _ _ _)
    · exact refl s

theorem endTask (s : State) (k : Nat) (i : BitVec 1) (status : BitVec 8) (cause : BitVec 16) : UnitsKept s (s.endTask k i status cause) := by
  unfold State.endTask State.checked
  dsimp only
  have drawn : UnitsKept s (s.draw 255).2 := of_same rfl rfl rfl
  have noted := drawn.trans (modPartAt (s.draw 255).2 ((s.coreAt k).slotAt i).part (f := fun p =>
    { p with launches := p.launches.map fun l => if l.id = ((s.coreAt k).slotAt i).launch then l.note status cause else l }) fun _ => rfl)
  refine noted.trans ?_
  split
  · exact modCoreAt _ _ _
  · refine UnitsKept.trans (UnitsKept.trans (logDie _ _ _ _) (modPartAt _ _ ?_)) (modCoreAt _ _ _)
    exact fun _ => rfl

end UnitsKept

/-! ## A core fails (R280) -/

/-- A failed core's task in slot `i` ends. -/
def failSlot (k : Nat) (s : State) (i : BitVec 1) : State :=
  if ((s.coreAt k).slotAt i).live then (s.settleSpans k i true).endTask k i 2 0 else s

theorem failCore_eq (s : State) (k : Nat) : s.failCore k = (failSlot k (failSlot k s 0) 1).modCoreAt k fun c => { c with failed := true } := rfl

theorem failSlot_kept (k : Nat) (s : State) (i : BitVec 1) : UnitsKept s (failSlot k s i) := by
  unfold failSlot
  split
  · exact (UnitsKept.settleSpans ..).trans (UnitsKept.endTask ..)
  · exact UnitsKept.refl s

theorem failCore_kept (s : State) (k : Nat) : UnitsKept s (s.failCore k) :=
  ((failSlot_kept ..).trans (failSlot_kept ..)).trans (UnitsKept.of_same rfl rfl rfl)

theorem live_of_ended {sl : Slot} (h : sl.state = .ended) : sl.live = false := by
  unfold Slot.live
  rw [h]

theorem failSlot_dead (k : Nat) (s : State) (i : BitVec 1) : (((failSlot k s i).coreAt k).slotAt i).live = false := by
  unfold failSlot
  split
  · have ends := EndsTask.of_kept (SlotsKept.settleSpans s k i true) (endTask_endsTask _ k i 2 0)
    cases bad : ((s.coreAt k).slotAt i).badCrc with
    | none => exact live_of_ended (ends.ended bad)
    | some crc =>
      rw [ends.dropped (by rw [bad]; exact Option.some_ne_none _)]
      rfl
  · next dead => simpa using dead

theorem failSlot_other (k : Nat) (s : State) {i j : BitVec 1} (h : j ≠ i) : ((failSlot k s i).coreAt k).slotAt j = (s.coreAt k).slotAt j := by
  unfold failSlot
  split
  · exact (EndsTask.of_kept (SlotsKept.settleSpans s k i true) (endTask_endsTask _ k i 2 0)).others k j fun same => h same.2
  · rfl

theorem failCore_law (s : State) (k : Nat) : ((s.failCore k).coreAt k).failed = true ∧ ((s.failCore k).coreAt k).slot0.live = false ∧
    ((s.failCore k).coreAt k).slot1.live = false ∧ (s.failCore k).mem = s.mem := by
  have first : ((failSlot k (failSlot k s 0) 1).coreAt k).slotAt 0 = ((failSlot k s 0).coreAt k).slotAt 0 := failSlot_other k _ (by decide)
  refine ⟨?_, ?_, ?_, (failCore_kept s k).mem⟩
  all_goals rw [failCore_eq, coreAt_modCoreAt_self]
  · exact (congrArg Slot.live first).trans (failSlot_dead k s 0)
  · exact failSlot_dead k (failSlot k s 0) 1

/-! ## A package fails (R419, R442) -/

theorem shootDowns_kept (l : List (Nat × Nat)) (s : State) : (l.foldl (fun s x => s.shootDown x.1 x.2) s).mem = s.mem ∧
    (l.foldl (fun s x => s.shootDown x.1 x.2) s).pkgs = s.pkgs ∧ (l.foldl (fun s x => s.shootDown x.1 x.2) s).parts = s.parts := by
  induction l generalizing s with
  | nil => exact ⟨rfl, rfl, rfl⟩
  | cons x rest ih => exact ih (s.shootDown x.1 x.2)

/-- The package declared failed. -/
def declared (s : State) (k : Nat) : State := s.modPkgAt k fun p => { p with failed := true }

/-- The cores of package `k` failed one by one. -/
def coresFailed (s : State) (k : Nat) : State := (s.cores.filter fun x => decide (pkgOf x.1 = k)).foldl (fun s x => s.failCore x.1) s

theorem coresFailed_kept (s : State) (k : Nat) : UnitsKept s (coresFailed s k) := by
  unfold coresFailed
  refine UnitsKept.foldl ?_ _ s
  intro t x
  exact failCore_kept t x.1

/-- The regions that stood on the package, by partition and index. -/
def regionsOn (u : State) (k : Nat) : List (Nat × Nat) := u.parts.flatMap fun p => (p.2.homedOn k).map fun i => (p.1, i)

theorem failPackage_unfold (s : State) (k : Nat) : s.failPackage k = (regionsOn (coresFailed (declared s k) k) k).foldl
    (fun s x => s.shootDown x.1 x.2) { coresFailed (declared s k) k with
      parts := (coresFailed (declared s k) k).parts.map fun p => (p.1, p.2.failPackage (coresFailed (declared s k) k) k) } := rfl

theorem failPackage_eq (s : State) (k : Nat) : ∃ u, UnitsKept (declared s k) u ∧ (s.failPackage k).mem = u.mem ∧
    (s.failPackage k).pkgs = u.pkgs ∧ (s.failPackage k).parts = u.parts.map fun p => (p.1, p.2.failPackage u k) := by
  refine ⟨coresFailed (declared s k) k, coresFailed_kept .., ?_⟩
  rw [failPackage_unfold]
  generalize coresFailed (declared s k) k = u
  obtain ⟨mem, pkgs, parts⟩ := shootDowns_kept (regionsOn u k) { u with parts := u.parts.map fun p => (p.1, p.2.failPackage u k) }
  exact ⟨mem, pkgs, parts⟩

/-- An entry of zeros is not valid. -/
theorem decodeRegion_zero : decodeRegion 0 = none := by
  have flags : bits (0 : BitVec 512) 144 16 = 0 := by
    unfold bits
    simp only [BitVec.ofNat_eq_ofNat, BitVec.toNat_ofNat, Nat.zero_mod, Nat.zero_div]
  unfold decodeRegion
  dsimp only
  rw [flags]
  exact if_neg (by simp)

theorem failRegion_zero (s : State) (k : Nat) : failRegion s k 0 = 0 := by
  unfold failRegion
  rw [decodeRegion_zero]

theorem failPackage_blank (s : State) (k : Nat) : Part.failPackage s k {} = {} := rfl

theorem failPackage_regions (s : State) (k : Nat) : ∃ u, UnitsKept (declared s k) u ∧ ∀ part i,
    Sp.get 0 ((s.failPackage k).partAt part).regions i = failRegion u k (Sp.get 0 (s.partAt part).regions i) := by
  obtain ⟨u, kept, -, -, parts⟩ := failPackage_eq s k
  refine ⟨u, kept, fun part i => ?_⟩
  have at_ : (s.failPackage k).partAt part = (u.partAt part).failPackage u k := by
    unfold State.partAt
    rw [parts]
    exact get_map_at {} (fun _ p => Part.failPackage u k p) u.parts part (failPackage_blank u k)
  rw [at_, ← show (u.partAt part).regions = (s.partAt part).regions from kept.regions part]
  exact get_map_at 0 (fun _ v => failRegion u k v) (u.partAt part).regions i (failRegion_zero u k)

theorem failPackage_law (s : State) (k : Nat) : ((s.failPackage k).pkgAt k).failed = true ∧ (s.failPackage k).mem = s.mem ∧
    ∀ p, ((s.failPackage k).pkgAt p).portsDown = (s.pkgAt p).portsDown := by
  obtain ⟨u, kept, mem, pkgs, -⟩ := failPackage_eq s k
  have at_ (p : Nat) : (s.failPackage k).pkgAt p = u.pkgAt p := congrArg (fun m => Sp.get ({} : Pkg) m p) pkgs
  refine ⟨?_, mem.trans kept.mem, fun p => ?_⟩
  · rw [at_, kept.failed, declared, pkgAt_modPkgAt_self]
  · rw [at_, kept.ports, declared, pkgAt_modPkgAt]
    split
    · next same => rw [same]
    · rfl

/-- A region of the failed package: without a mirror it is invalid, with one its partner's place takes over. -/
theorem failPackage_region {s : State} {part i : Nat} {r : Region} {k : Nat} (at_ : s.regionOf part i = some r) (home : r.pkg = k) :
    (r.mirror = false → Sp.get 0 ((s.failPackage k).partAt part).regions i =
      BitVec.ofNat 512 ((Sp.get 0 (s.partAt part).regions i).toNat % 2 ^ 480 - 2 ^ 144 +
        (crc32 (leBytes 60 ((Sp.get 0 (s.partAt part).regions i).toNat % 2 ^ 480 - 2 ^ 144))).toNat * 2 ^ 480)) ∧
    (r.mirror = true → k ^^^ 1 ≠ k → (s.pkgAt (k ^^^ 1)).failed = false → Sp.get 0 ((s.failPackage k).partAt part).regions i =
      encodeRegion { r with pkg := k ^^^ 1, base := r.mbase, mirror := false, mbase := 0 }) := by
  obtain ⟨u, kept, regions⟩ := failPackage_regions s k
  rw [regions]
  unfold failRegion
  rw [show decodeRegion (Sp.get 0 (s.partAt part).regions i) = some r from at_]
  dsimp only
  rw [if_neg (not_not.2 home)]
  refine ⟨fun single => ?_, fun mirror other up => ?_⟩
  · rw [if_neg fun both => absurd both.1 (by rw [single]; exact Bool.false_ne_true)]
  · have standing : (u.pkgAt (k ^^^ 1)).failed = false := by
      rw [kept.failed, declared, pkgAt_modPkgAt, if_neg other]
      exact up
    rw [if_pos ⟨mirror, by rw [standing]; rfl⟩]

/-! ## Ports (R440) -/

theorem logDie_corrected_pkgs (s : State) (d : Nat) {e : MemError} (h : e.uncorrectable = false) : (s.logDie d e false).pkgs = s.pkgs := by
  unfold State.logDie State.tell
  dsimp only
  rw [if_neg (by rw [h]; simp)]
  rfl

/-- The package with one port more out of its plane. -/
def portGone (n : Nat) (p : Pkg) : Pkg := { p with portsDown := p.portsDown ||| BitVec.ofNat 72 (2 ^ n) }

theorem portGone_at {n : Nat} (hn : n < 72) (p : Pkg) (j : Nat) :
    (portGone n p).portsDown.getLsbD j = (p.portsDown.getLsbD j || decide (j = n)) := by
  change (p.portsDown ||| BitVec.ofNat 72 (2 ^ n)).getLsbD j = _
  rw [BitVec.getLsbD_or, BitVec.getLsbD_ofNat, Nat.testBit_two_pow]
  by_cases h : j = n
  · simp [h, hn]
  · simp [h, Ne.symm h]

theorem unreachable_iff (p : Pkg) : p.unreachable = true ↔ p.links ≠ 0 ∧ ∀ j, p.links.getLsbD j = true → p.portsDown.getLsbD j = true := by
  unfold Pkg.unreachable
  rw [Bool.and_eq_true, decide_eq_true_iff, decide_eq_true_iff]
  refine and_congr_right fun _ => ⟨fun none j linked => ?_, fun down => BitVec.eq_of_getLsbD_eq fun j hj => ?_⟩
  · have bit := congrArg (fun v => v.getLsbD j) none
    have small : j < 72 := BitVec.lt_of_getLsbD linked
    simpa [linked, small] using bit
  · have := down j
    cases linked : p.links.getLsbD j
    · simp [linked]
    · simp [linked, this linked]

/-- What a failed port leaves before it is seen whether a plane still reaches the package. -/
def portDown (s : State) (k die n : Nat) : State := (s.modPkgAt k (portGone n)).logDie (k * 4 + die) (fabricError n) false

theorem portDown_pkg (s : State) (k die n : Nat) : (portDown s k die n).pkgAt k = portGone n (s.pkgAt k) := by
  have pkgs : (portDown s k die n).pkgs = (s.modPkgAt k (portGone n)).pkgs := logDie_corrected_pkgs _ _ rfl
  unfold State.pkgAt
  rw [pkgs]
  exact pkgAt_modPkgAt_self s k (portGone n)

section
variable (pkg : BitVec 10) (die : BitVec 2) (port : BitVec 7) (s : State)

theorem exec_portFail_of (up : pkg.toNat < Config.packages) (cabled : port.toNat < 72) : exec (.portFail pkg die port) s =
    .next (if (portGone port.toNat (s.pkgAt pkg.toNat)).unreachable = true ∧ (s.pkgAt pkg.toNat).failed = false then
      (portDown s pkg.toNat die.toNat port.toNat).failPackage pkg.toNat else portDown s pkg.toNat die.toNat port.toNat) := by
  have at_ := portDown_pkg s pkg.toNat die.toNat port.toNat
  rw [exec_portFail, execPortFail, if_neg (by omega)]
  change Host.Outcome.next (if ((portDown s pkg.toNat die.toNat port.toNat).pkgAt pkg.toNat).unreachable = true ∧
    (!((portDown s pkg.toNat die.toNat port.toNat).pkgAt pkg.toNat).failed) = true then _ else _) = _
  simp only [at_, Bool.not_eq_true']
  rfl

theorem portFail_law (up : pkg.toNat < Config.packages) (cabled : port.toNat < 72) : ∃ t, exec (.portFail pkg die port) s = .next t ∧ t.mem = s.mem ∧
    (t.pkgAt pkg.toNat).portsDown.getLsbD port.toNat = true ∧
    ((s.pkgAt pkg.toNat).links = 0 ∨ (∃ j, j ≠ port.toNat ∧ (s.pkgAt pkg.toNat).links.getLsbD j = true ∧ (s.pkgAt pkg.toNat).portsDown.getLsbD j = false) →
      t.cores = s.cores ∧ (t.pkgAt pkg.toNat).failed = (s.pkgAt pkg.toNat).failed) ∧
    ((s.pkgAt pkg.toNat).links ≠ 0 → (∀ j, j ≠ port.toNat → (s.pkgAt pkg.toNat).links.getLsbD j = true → (s.pkgAt pkg.toNat).portsDown.getLsbD j = true) →
      (t.pkgAt pkg.toNat).failed = true) ∧
    ∀ j, j ≠ port.toNat → (t.pkgAt pkg.toNat).portsDown.getLsbD j = (s.pkgAt pkg.toNat).portsDown.getLsbD j := by
  refine ⟨_, exec_portFail_of pkg die port s up cabled, ?_⟩
  have at_ := portDown_pkg s pkg.toNat die.toNat port.toNat
  have mem : (portDown s pkg.toNat die.toNat port.toNat).mem = s.mem := logDie_mem ..
  have cores : (portDown s pkg.toNat die.toNat port.toNat).cores = s.cores := logDie_cores ..
  have bits := portGone_at cabled (s.pkgAt pkg.toNat)
  have reach := unreachable_iff (portGone port.toNat (s.pkgAt pkg.toNat))
  have links : (portGone port.toNat (s.pkgAt pkg.toNat)).links = (s.pkgAt pkg.toNat).links := rfl
  have standing : (portGone port.toNat (s.pkgAt pkg.toNat)).failed = (s.pkgAt pkg.toNat).failed := rfl
  rw [links] at reach
  simp only [bits] at reach
  have here : ((s.pkgAt pkg.toNat).portsDown.getLsbD port.toNat || decide (port.toNat = port.toNat)) = true := by simp
  have others (j : Nat) (h : j ≠ port.toNat) : ((s.pkgAt pkg.toNat).portsDown.getLsbD j || decide (j = port.toNat)) =
      (s.pkgAt pkg.toNat).portsDown.getLsbD j := by simp [h]
  by_cases gone : (portGone port.toNat (s.pkgAt pkg.toNat)).unreachable = true ∧ (s.pkgAt pkg.toNat).failed = false
  · rw [if_pos gone]
    obtain ⟨failed, kept, ports⟩ := failPackage_law (portDown s pkg.toNat die.toNat port.toNat) pkg.toNat
    obtain ⟨linked, down⟩ := reach.1 gone.1
    rw [ports, at_]
    refine ⟨kept.trans mem, (bits _).trans here, fun still => ?_, fun _ _ => failed, fun j h => (bits j).trans (others j h)⟩
    rcases still with unlinked | ⟨j, h, linked, up⟩
    · exact absurd unlinked linked
    · have := down j linked
      rw [others j h, up] at this
      exact nomatch this
  · rw [if_neg gone, at_]
    refine ⟨mem, (bits _).trans here, fun _ => ⟨cores, standing⟩, fun linked down => ?_, fun j h => (bits j).trans (others j h)⟩
    have unreachable := reach.2 ⟨linked, fun j hj => by
      by_cases h : j = port.toNat
      · rw [h]
        exact here
      · rw [others j h]
        exact down j h hj⟩
    rw [standing]
    by_contra failed
    exact gone ⟨unreachable, by simpa using failed⟩

end

/-! ## What the scrubber finds (R337 to R339) -/

theorem mem_addOnce (n : Nat) (l : List Nat) : n ∈ addOnce n l := by
  unfold addOnce
  split
  · next held => exact List.contains_iff_mem.1 held
  · exact List.mem_cons_self

theorem markBad_line {e : MemError} (s : State) (pkg : Nat) (h : e.source = 0 ∨ e.source = 1) : (s.markBad pkg e).cores = s.cores ∧
    memKey pkg e.addr.toNat / 64 ∈ (s.markBad pkg e).bad ++ (s.markBad pkg e).badDc := by
  unfold State.markBad
  rcases h with h | h
  · rw [h]
    exact ⟨rfl, List.mem_append_left _ (mem_addOnce ..)⟩
  · rw [h]
    exact ⟨rfl, List.mem_append_right _ (mem_addOnce ..)⟩

theorem markBad_granule {e : MemError} (s : State) (pkg : Nat) (h : e.source = 2) : s.markBad pkg e =
    s.modCoreAt (pkg * 256 + e.phys.toNat) fun c => { c with badGran := addOnce (bits e.addr 5 14) c.badGran } := by
  unfold State.markBad
  rw [h]
  rfl

theorem markBad_slotsKept (s : State) (pkg : Nat) (e : MemError) : SlotsKept s (s.markBad pkg e) := by
  unfold State.markBad
  dsimp only
  split
  case h_1 | h_2 | h_7 => exact SlotsKept.of_cores rfl rfl
  all_goals exact SlotsKept.modCoreAt s _ (fun _ _ => rfl) fun _ => rfl

theorem badAt_of_listed {s : State} {key : Nat} (h : key / 64 ∈ s.bad ++ s.badDc) : s.badAt key 1 = true := by
  unfold State.badAt
  rw [Bool.or_eq_true, List.any_eq_true]
  exact .inr ⟨_, h, by simp⟩

/-- The context an owner tag names ends where it still stands. -/
theorem endOwner_ends {s u : State} (kept : SlotsKept s u) {w : Nat} (named : w ≠ 0)
    (live : ((s.coreAt ((w - 1) / 2)).slotAt (BitVec.ofNat 1 ((w - 1) % 2))).live = true)
    (whole : ((s.coreAt ((w - 1) / 2)).slotAt (BitVec.ofNat 1 ((w - 1) % 2))).badCrc = none) :
    (((u.endOwner w).coreAt ((w - 1) / 2)).slotAt (BitVec.ofNat 1 ((w - 1) % 2))).state = .ended := by
  unfold State.endOwner
  dsimp only
  rw [if_neg (by rw [kept.slotAt, live]; simp [named])]
  exact (endWritten_endsTask ..).ended (by rw [kept.slotAt]; exact whole)

section
variable {pkg : BitVec 10} (die : BitVec 2) (found : MemError) (s : State) (up : pkg.toNat < Config.packages)

/-- What the scrubber logs. -/
def scrubLogged (pkg : BitVec 10) (die : BitVec 2) (found : MemError) (s : State) : State :=
  s.logDie (pkg.toNat * 4 + die.toNat) { found with owner := ownerTag (s.ownerOf pkg.toNat found) } false

include up

theorem exec_scrub_corrected (h : found.uncorrectable = false) : exec (.scrub pkg die found) s = .next (scrubLogged pkg die found s) := by
  rw [exec_scrub, execScrub, if_neg (Nat.not_le.2 up)]
  dsimp only
  rw [if_pos (by rw [h]; rfl)]
  rfl

theorem exec_scrub_uncorrectable (h : found.uncorrectable = true) : exec (.scrub pkg die found) s =
    .next (if (s.pkgAt pkg.toNat).ownerMode found.source.toNat = true ∧ found.source.toNat ≤ 2 then
      ((scrubLogged pkg die found s).markBad pkg.toNat found).endOwner (s.ownerOf pkg.toNat found)
      else (scrubLogged pkg die found s).markBad pkg.toNat found) := by
  rw [exec_scrub, execScrub, if_neg (Nat.not_le.2 up)]
  dsimp only
  rw [if_neg (by rw [h]; exact Bool.false_ne_true)]
  rfl

theorem scrub_keeps (h : found.uncorrectable = true) (field : (s.pkgAt pkg.toNat).ownerMode found.source.toNat = false) :
    exec (.scrub pkg die found) s = .next ((scrubLogged pkg die found s).markBad pkg.toNat found) ∧
      ((scrubLogged pkg die found s).markBad pkg.toNat found).mem = s.mem ∧
      ((scrubLogged pkg die found s).markBad pkg.toNat found).dies = (scrubLogged pkg die found s).dies := by
  obtain ⟨mem, dies, -⟩ := markBad_frame (scrubLogged pkg die found s) pkg.toNat found
  refine ⟨?_, mem.trans (logDie_mem ..), dies⟩
  rw [exec_scrub_uncorrectable die found s up h, if_neg fun both => absurd both.1 (by rw [field]; exact Bool.false_ne_true)]

theorem scrub_ends (h : found.uncorrectable = true) (field : (s.pkgAt pkg.toNat).ownerMode found.source.toNat = true)
    (source : found.source.toNat ≤ 2) : exec (.scrub pkg die found) s =
      .next (((scrubLogged pkg die found s).markBad pkg.toNat found).endOwner (s.ownerOf pkg.toNat found)) := by
  rw [exec_scrub_uncorrectable die found s up h, if_pos ⟨field, source⟩]

omit up in
theorem scrub_slotsKept : SlotsKept s ((scrubLogged pkg die found s).markBad pkg.toNat found) :=
  (SlotsKept.logDie ..).trans (markBad_slotsKept ..)

end

/-! ## Spans handed over (R267, R280, R364) -/

section
variable {part : Nat} {token : BitVec 34} {clear : Bool} {s : State} {head : Nat} {t : Token}
  (at_ : (s.partAt part).headOf token.toNat = (head, t))
include at_

/-- The span with its TAINT cleared, if it is to be. -/
theorem handover_headless (peer : Option (BitVec 64)) (h : t.isHead = false) : exec (.parkedSpanHandover part token peer clear) s = .next s := by
  rw [exec_parkedSpanHandover, execParkedSpanHandover, at_]
  dsimp only
  rw [if_pos (by rw [h]; rfl)]

theorem handover_none (h : t.isHead = true) : exec (.parkedSpanHandover part token none clear) s =
    .next (if clear = true then s.modToken part head fun t => { t with taint := false } else s) := by
  rw [exec_parkedSpanHandover, execParkedSpanHandover, at_]
  dsimp only
  rw [if_neg (by rw [h]; exact Bool.false_ne_true)]

theorem handover_absent {a : BitVec 64} (h : t.isHead = true)
    (absent : findPeer part (a.extractLsb' 30 10).toNat (a.extractLsb' 22 8).toNat s.cores = none) :
    exec (.parkedSpanHandover part token (some a) clear) s =
      .next (if clear = true then s.modToken part head fun t => { t with taint := false } else s) := by
  rw [← bits_eq_extractLsb', ← bits_eq_extractLsb'] at absent
  rw [exec_parkedSpanHandover, execParkedSpanHandover, at_]
  dsimp only
  rw [if_neg (by rw [h]; exact Bool.false_ne_true), absent]

theorem handover_found {a : BitVec 64} {k launch : Nat} (h : t.isHead = true)
    (found : findPeer part (a.extractLsb' 30 10).toNat (a.extractLsb' 22 8).toNat s.cores = some (k, launch)) :
    exec (.parkedSpanHandover part token (some a) clear) s =
      .next (if t.mode = .parked ∧ head ∉ (s.partAt part).listed then
        (if clear = true then s.modToken part head fun t => { t with taint := false } else s).modToken part head
          (grantToken (k / 256) (a.extractLsb' 22 8).toNat launch)
        else if clear = true then s.modToken part head fun t => { t with taint := false } else s) := by
  rw [← bits_eq_extractLsb', ← bits_eq_extractLsb'] at found
  rw [exec_parkedSpanHandover, execParkedSpanHandover, at_, ← bits_eq_extractLsb']
  dsimp only
  rw [if_neg (by rw [h]; exact Bool.false_ne_true), found]
  dsimp only
  simp only [Bool.not_eq_true', List.contains_eq_mem, decide_eq_false_iff_not]
  rfl

/-- A span that is not parked, or that a waiting launch lists, is not handed on, whoever is named. -/
theorem handover_kept {peer : Option (BitVec 64)} (h : t.isHead = true) (kept : t.mode ≠ .parked ∨ head ∈ (s.partAt part).listed) :
    exec (.parkedSpanHandover part token peer clear) s =
      .next (if clear = true then s.modToken part head fun t => { t with taint := false } else s) := by
  cases peer with
  | none => exact handover_none at_ h
  | some a =>
    cases found : findPeer part (a.extractLsb' 30 10).toNat (a.extractLsb' 22 8).toNat s.cores with
    | none => exact handover_absent at_ h found
    | some x => rw [handover_found at_ h found, if_neg fun both => kept.elim (· both.1) both.2]

end

/-! ## Banks (R412, R414) -/

theorem errBank_log (b : ErrBank) (e : MemError) (m : Bool) (w : BitVec 32) :
    (b.log e m w).ceCount = (if e.uncorrectable then b.ceCount else min (b.ceCount + 1) 0xFFFF) ∧
    (b.log e m w).ueCount = (if e.uncorrectable then min (b.ueCount + 1) 0xFFFF else b.ueCount) ∧
    (b.record = none → (b.log e m w).record = some e) ∧
    (∀ r, b.record = some r → r.uncorrectable = true ∨ e.uncorrectable = false → (b.log e m w).record = some r) ∧
    (∀ r, b.record = some r → r.uncorrectable = false → e.uncorrectable = true → (b.log e m w).record = some e) := by
  unfold ErrBank.log sat16
  cases err : e.uncorrectable with
  | false => cases held : b.record <;> simp [held]
  | true =>
    cases held : b.record with
    | none => simp
    | some r => cases old : r.uncorrectable <;> simp [old, held]

theorem bank_stands {p : Pkg} {stripe : Nat} (h : p.ownerMode (stripe % 3) = true) {pkg : BitVec 10} {s : State} (up : pkg.toNat < Config.packages)
    (at_ : s.pkgAt pkg.toNat = p) : ∃ t, exec (.bankFailure pkg stripe) s = .next t ∧ (t.pkgAt pkg.toNat).rebuild = p.rebuild := by
  rw [exec_bankFailure, execBankFailure, if_neg (Nat.not_le.2 up)]
  refine ⟨_, rfl, ?_⟩
  rw [pkgAt_modPkgAt_self, at_, if_pos (.inl h)]

theorem bank_rebuilt {stripe : Nat} {pkg : BitVec 10} {s : State} (up : pkg.toNat < Config.packages)
    (symbol : (s.pkgAt pkg.toNat).ownerMode (stripe % 3) = false) (fresh : stripe ∉ (s.pkgAt pkg.toNat).rebuild) :
    exec (.bankFailure pkg stripe) s = .next (s.modPkgAt pkg.toNat fun p => { p with rebuild := p.rebuild ++ [stripe] }) := by
  rw [exec_bankFailure, execBankFailure, if_neg (Nat.not_le.2 up)]
  refine congrArg Host.Outcome.next ?_
  unfold State.modPkgAt
  dsimp only
  rw [if_neg (by simp [symbol, fresh])]

/-! ## Packages that are not there (R1) -/

theorem absent_package_unchanged (pkg : BitVec 10) (die : BitVec 2) (quad : BitVec 4) (core : BitVec 8) (port : BitVec 7) (v : BitVec 64) (n : Nat)
    (s : State) (absent : 576 ≤ pkg.toNat) : ∀ i ∈ [Instr.droop pkg die quad, .droopRaise pkg die quad, .droopRecovery pkg die quad,
      .clockHop pkg die quad, .marginStep pkg die, .cesetRestore pkg die, .coreFailure pkg core, .packageFailure pkg, .flitCrcFail pkg die port,
      .portFail pkg die port, .memprotWrite pkg v, .errorBankClear pkg v, .rotation pkg die, .rotationRebind pkg die, .coldHandshakeTimeout pkg,
      .drainDeadline pkg, .messageSend pkg, .bankFailure pkg n, .bankRebuildComplete pkg n, .stageTemperature pkg n n n,
      .quadRailSet pkg die quad n], exec i s = .next s := by
  simp only [List.forall_mem_cons]
  have gone : Config.packages ≤ pkg.toNat := absent
  refine ⟨if_pos gone, if_pos gone, if_pos gone, if_pos gone, if_pos gone, if_pos gone, if_pos gone, if_pos gone, if_pos (.inl gone),
    if_pos (.inl gone), if_pos gone, if_pos gone, if_pos (.inl gone), if_pos (.inl gone), if_pos gone, if_pos gone, if_pos gone, if_pos gone,
    if_pos gone, if_pos gone, if_pos gone, fun i h => nomatch h⟩

/-! ## The obligation -/

section
variable {pkg : BitVec 10} (die : BitVec 2) (found : MemError) (s : State) (up : pkg.toNat < Config.packages)

/-- The context that last wrote a line is found under the line's number. -/
theorem ownerOf_line (pkg : Nat) (source : found.source = 0 ∨ found.source = 1) :
    s.ownerOf pkg found = Sp.get 0 s.owners (memKey pkg found.addr.toNat / 64) := by
  unfold State.ownerOf
  exact if_pos (by rcases source with h | h <;> rw [h] <;> decide)

include up

theorem scrub_line_stands (h : found.uncorrectable = true) (source : found.source = 0 ∨ found.source = 1)
    (field : (s.pkgAt pkg.toNat).ownerMode found.source.toNat = false) : ∃ t, exec (.scrub pkg die found) s = .next t ∧ t.mem = s.mem ∧
      t.cores = s.cores ∧ (t.dieAt (pkg.toNat * 4 + die.toNat)).bank = ((scrubLogged pkg die found s).dieAt (pkg.toNat * 4 + die.toNat)).bank ∧
      t.badAt (memKey pkg.toNat found.addr.toNat) 1 = true := by
  obtain ⟨run, mem, dies⟩ := scrub_keeps die found s up h field
  obtain ⟨cores, listed⟩ := markBad_line (scrubLogged pkg die found s) pkg.toNat source
  exact ⟨_, run, mem, cores.trans (logDie_cores ..), congrArg (fun m => (Sp.get ({} : Die) m (pkg.toNat * 4 + die.toNat)).bank) dies,
    badAt_of_listed listed⟩

theorem scrub_line_ends (h : found.uncorrectable = true) (source : found.source = 0 ∨ found.source = 1)
    (field : (s.pkgAt pkg.toNat).ownerMode found.source.toNat = true) : ∃ t, exec (.scrub pkg die found) s = .next t ∧
      (s.ownerOf pkg.toNat found = 0 → t.cores = s.cores) ∧
      (s.ownerOf pkg.toNat found ≠ 0 →
        ((s.coreAt ((s.ownerOf pkg.toNat found - 1) / 2)).slotAt (BitVec.ofNat 1 ((s.ownerOf pkg.toNat found - 1) % 2))).live = true →
        ((s.coreAt ((s.ownerOf pkg.toNat found - 1) / 2)).slotAt (BitVec.ofNat 1 ((s.ownerOf pkg.toNat found - 1) % 2))).badCrc = none →
        ((t.coreAt ((s.ownerOf pkg.toNat found - 1) / 2)).slotAt (BitVec.ofNat 1 ((s.ownerOf pkg.toNat found - 1) % 2))).state = .ended) := by
  refine ⟨_, scrub_ends die found s up h field (by rcases source with h | h <;> rw [h] <;> decide), fun untagged => ?_, fun named live whole =>
    endOwner_ends (scrub_slotsKept die found s) named live whole⟩
  obtain ⟨cores, -⟩ := markBad_line (scrubLogged pkg die found s) pkg.toNat source
  unfold State.endOwner
  rw [untagged]
  exact (congrArg State.cores (if_pos (.inl rfl))).trans (cores.trans (logDie_cores ..))

theorem scrub_granule (h : found.uncorrectable = true) (source : found.source = 2) : ∃ t, exec (.scrub pkg die found) s = .next t ∧
    ((s.pkgAt pkg.toNat).ownerMode 2 = false → t.mem = s.mem ∧
      (t.dieAt (pkg.toNat * 4 + die.toNat)).bank = ((scrubLogged pkg die found s).dieAt (pkg.toNat * 4 + die.toNat)).bank ∧
      (found.addr.extractLsb' 5 14).toNat ∈ (t.coreAt (pkg.toNat * 256 + found.phys.toNat)).badGran) ∧
    ((s.pkgAt pkg.toNat).ownerMode 2 = true → s.ownerOf pkg.toNat found ≠ 0 →
      ((s.coreAt ((s.ownerOf pkg.toNat found - 1) / 2)).slotAt (BitVec.ofNat 1 ((s.ownerOf pkg.toNat found - 1) % 2))).live = true →
      ((s.coreAt ((s.ownerOf pkg.toNat found - 1) / 2)).slotAt (BitVec.ofNat 1 ((s.ownerOf pkg.toNat found - 1) % 2))).badCrc = none →
      ((t.coreAt ((s.ownerOf pkg.toNat found - 1) / 2)).slotAt (BitVec.ofNat 1 ((s.ownerOf pkg.toNat found - 1) % 2))).state = .ended) := by
  have number : found.source.toNat = 2 := by rw [source]; rfl
  cases field : (s.pkgAt pkg.toNat).ownerMode 2 with
  | false =>
    obtain ⟨run, mem, dies⟩ := scrub_keeps die found s up h (by rw [number]; exact field)
    refine ⟨_, run, fun _ => ⟨mem, congrArg (fun m => (Sp.get ({} : Die) m (pkg.toNat * 4 + die.toNat)).bank) dies, ?_⟩, fun owner => nomatch owner⟩
    rw [markBad_granule _ _ source, coreAt_modCoreAt_self, ← bits_eq_extractLsb']
    exact mem_addOnce ..
  | true =>
    exact ⟨_, scrub_ends die found s up h (by rw [number]; exact field) (by rw [number]), fun symbol => (nomatch symbol), fun _ named live whole =>
      endOwner_ends (scrub_slotsKept die found s) named live whole⟩

end

/-- Settles O51, unit by unit: the scrubber, banks, ports, spans, cores, packages. -/
theorem errorsAreLoggedAndFailuresContained : Obligations.ErrorsAreLoggedAndFailuresContained := by
  unfold Obligations.ErrorsAreLoggedAndFailuresContained
  refine ⟨⟨fun pkg die port found stripe s up => ?_, fun part token peer clear s => ?_, errBank_log⟩, ⟨fun pkg core s up => ?_, fun pkg part s up => ?_⟩,
    absent_package_unchanged⟩
  · have present : ¬Config.packages ≤ pkg.toNat := Nat.not_le.2 up
    refine ⟨exec_scrub_corrected die found s up, fun h source field => scrub_line_stands die found s up h source field,
      ownerOf_line found s pkg.toNat, fun h source field => scrub_line_ends die found s up h source field,
      fun h source => scrub_granule die found s up h source, fun field => bank_stands field up rfl, fun symbol fresh => bank_rebuilt up symbol fresh,
      ?_, fun cabled => ⟨?_, portFail_law pkg die port s up cabled⟩⟩
    · rw [exec_bankRebuildComplete, execBankRebuildComplete, if_neg present]
    · rw [exec_flitCrcFail, execFlitCrcFail, if_neg (by omega)]
  · dsimp only
    generalize at_ : (s.partAt part).headOf token.toNat = x
    obtain ⟨head, t⟩ := x
    refine ⟨fun h => handover_headless at_ peer h, fun h kept => ?_, fun a h named absent => ?_, fun a h named listed => ?_,
      fun a k launch h parked free named found => ?_⟩
    · rcases kept with rfl | moved
      · exact handover_none at_ h
      · exact handover_kept at_ h (.inl moved)
    · rw [named]
      exact handover_absent at_ h absent
    · exact handover_kept at_ h (.inr listed)
    · rw [named, handover_found at_ h found, if_pos ⟨parked, free⟩]
  · refine ⟨_, ?_, failCore_law s (pkg.toNat * 256 + core.toNat)⟩
    rw [exec_coreFailure, execCoreFailure, if_neg (Nat.not_le.2 up)]
  · obtain ⟨failed, mem, -⟩ := failPackage_law s pkg.toNat
    refine ⟨_, ?_, failed, mem, fun i r at_ home => failPackage_region at_ home⟩
    rw [exec_packageFailure, execPackageFailure, if_neg (Nat.not_le.2 up)]

end Sys2Proof.Proofs
end

section
/-! # O52: bring-up, and the stage's temperature (R457, R460 to R462) -/

namespace Sys2Proof.Proofs

open Sys2Proof.Machine Sys2Proof.Laws

/-! ## Tables written one entry after the other -/

/-- Of entries under different keys each stands as it was written. -/
theorem get_foldl_put_keyed {α β γ : Type} (d : β) (entry : γ → Nat) (v : α → β) (key : α → γ) (inj : ∀ a b, entry a = entry b → a = b)
    {l : List α} (distinct : (l.map key).Nodup) (m : Sp β) {x : α} (hx : x ∈ l) :
    Sp.get d (l.foldl (fun m x => Sp.put m (entry (key x)) (v x)) m) (entry (key x)) = v x := by
  have apart (l : List α) (m : Sp β) (h : ∀ y ∈ l, key y ≠ key x) :
      Sp.get d (l.foldl (fun m x => Sp.put m (entry (key x)) (v x)) m) (entry (key x)) = Sp.get d m (entry (key x)) := by
    induction l generalizing m with
    | nil => rfl
    | cons y rest ih =>
      rw [List.foldl_cons, ih _ fun z hz => h z (List.mem_cons_of_mem _ hz)]
      exact get_put_other _ _ _ fun same => h y List.mem_cons_self (inj _ _ same).symm
  induction l generalizing m with
  | nil => exact nomatch hx
  | cons y rest ih =>
    rw [List.map_cons, List.nodup_cons] at distinct
    rcases List.mem_cons.1 hx with rfl | later
    · rw [List.foldl_cons, apart rest _ fun z hz same => distinct.1 (same ▸ List.mem_map_of_mem hz), get_put_self]
    · exact ih distinct.2 _ later

/-- Memory in canonical form lists its keys by rising number. -/
theorem rising_of_wf {α : Type} [DecidableEq α] {d : α} {m : Sp α} (h : Sp.wf d m = true) : Rising m := by
  induction m with
  | nil => exact List.Pairwise.nil
  | cons x rest ih =>
    cases rest with
    | nil => exact List.pairwise_singleton _ _
    | cons y ys =>
      obtain ⟨i, v⟩ := x
      obtain ⟨j, w⟩ := y
      simp only [Sp.wf, Bool.and_eq_true, decide_eq_true_eq] at h
      obtain ⟨⟨-, below⟩, more⟩ := h
      have rising := ih more
      refine List.pairwise_cons.2 ⟨fun z hz => ?_, rising⟩
      rcases List.mem_cons.1 hz with rfl | later
      · exact below
      · exact below.trans ((List.pairwise_cons.1 rising).1 z later)

/-- A key none of whose entries is kept reads as unlisted. -/
theorem get_filter_gone {α : Type} (d : α) (m : Sp α) (keep : Nat → Bool) {k : Nat} (gone : keep k = false) :
    Sp.get d (m.filter fun x => keep x.1) k = d := by
  induction m with
  | nil => rfl
  | cons x rest ih =>
    obtain ⟨i, v⟩ := x
    by_cases kept : keep i = true
    · rw [List.filter_cons_of_pos (by exact kept)]
      have other : k ≠ i := fun same => by rw [same, kept] at gone; exact nomatch gone
      simp only [Sp.get, if_neg other, ih, ite_self]
    · rw [List.filter_cons_of_neg (by exact kept), ih]

/-! ## Region entries are written to the tables and to memory alone -/

/-- From `s` to `t` the clock, the cores, the dies and the packages stand. -/
structure PodKept (s t : State) : Prop where
  clock : t.clock = s.clock
  cores : t.cores = s.cores
  dies : t.dies = s.dies
  pkgs : t.pkgs = s.pkgs

namespace PodKept

theorem refl (s : State) : PodKept s s := ⟨rfl, rfl, rfl, rfl⟩

theorem trans {s t u : State} (h : PodKept s t) (g : PodKept t u) : PodKept s u :=
  ⟨g.clock.trans h.clock, g.cores.trans h.cores, g.dies.trans h.dies, g.pkgs.trans h.pkgs⟩

theorem foldl {α : Type} {f : State → α → State} (h : ∀ s a, PodKept s (f s a)) (l : List α) (s : State) : PodKept s (l.foldl f s) := by
  induction l generalizing s with
  | nil => exact refl s
  | cons a rest ih => exact (h s a).trans (ih _)

theorem setBytes (s : State) (key : Nat) (bs : List Byte) : PodKept s (s.setBytes key bs) := by
  induction bs generalizing s key with
  | nil => exact refl s
  | cons b rest ih =>
    have one : PodKept s (s.setByte key b) := ⟨rfl, rfl, rfl, rfl⟩
    exact one.trans (ih (s.setByte key b) (key + 1))

theorem recode (s : State) (part i : Nat) (r : Region) (f : Nat → List Byte → List Byte) : PodKept s (s.recode part i r f) := by
  unfold State.recode
  refine foldl ?_ _ s
  intro s lo
  refine foldl ?_ _ s
  intro s l
  exact setBytes ..

theorem uncoverOld (s : State) (part i : Nat) (r : Option Region) : PodKept s (uncoverOld s part i r) := by
  cases r with
  | none => exact refl s
  | some r =>
    unfold Proofs.uncoverOld State.uncover
    dsimp only
    split
    · exact recode ..
    · exact refl s

theorem coverNew (s : State) (part i : Nat) (r : Option Region) : PodKept s (coverNew s part i r) := by
  cases r with
  | none => exact refl s
  | some r =>
    unfold Proofs.coverNew State.cover
    dsimp only
    split
    · exact recode ..
    · exact refl s

theorem setRegion (s : State) (part i : Nat) (v : BitVec 512) : PodKept s (s.setRegion part i v) := by
  rw [setRegion_eq]
  split
  · exact ⟨rfl, rfl, rfl, rfl⟩
  · have put : PodKept (Proofs.uncoverOld s part i (s.regionOf part i)) ((Proofs.uncoverOld s part i (s.regionOf part i)).modPartAt part
        (withEntry i v (s.regionOf part i) (decodeRegion v))) := ⟨rfl, rfl, rfl, rfl⟩
    exact ((uncoverOld s part i _).trans put).trans (coverNew _ part i _)

end PodKept

theorem parts_foldl {α : Type} {f : State → α → State} (h : ∀ s a, (f s a).parts = s.parts) (l : List α) (s : State) : (l.foldl f s).parts = s.parts := by
  induction l generalizing s with
  | nil => rfl
  | cons a rest ih => exact (ih _).trans (h s a)

theorem parts_setBytes (s : State) (key : Nat) (bs : List Byte) : (s.setBytes key bs).parts = s.parts := by
  induction bs generalizing s key with
  | nil => rfl
  | cons b rest ih => exact ih (s.setByte key b) (key + 1)

theorem parts_recode (s : State) (part i : Nat) (r : Region) (f : Nat → List Byte → List Byte) : (s.recode part i r f).parts = s.parts := by
  unfold State.recode
  refine parts_foldl ?_ _ s
  intro s lo
  refine parts_foldl ?_ _ s
  intro s l
  exact parts_setBytes ..

theorem parts_uncoverOld (s : State) (part i : Nat) (r : Option Region) : (uncoverOld s part i r).parts = s.parts := by
  cases r with
  | none => rfl
  | some r =>
    unfold uncoverOld State.uncover
    dsimp only
    split
    · exact parts_recode ..
    · rfl

theorem parts_coverNew (s : State) (part i : Nat) (r : Option Region) : (coverNew s part i r).parts = s.parts := by
  cases r with
  | none => rfl
  | some r =>
    unfold coverNew State.cover
    dsimp only
    split
    · exact parts_recode ..
    · rfl

/-- The table that takes the entry, and the others. -/
theorem regions_setRegion (s : State) (part i : Nat) (v : BitVec 512) (p j : Nat) : Sp.get 0 ((s.setRegion part i v).partAt p).regions j =
    if p = part ∧ j = i then v else Sp.get 0 (s.partAt p).regions j := by
  have taken (u : State) (parts : u.parts = s.parts) (old new : Option Region) :
      Sp.get 0 ((u.modPartAt part (withEntry i v old new)).partAt p).regions j = if p = part ∧ j = i then v else Sp.get 0 (s.partAt p).regions j := by
    have at_ (p : Nat) : u.partAt p = s.partAt p := congrArg (fun m => Sp.get ({} : Part) m p) parts
    rw [partAt_modPartAt]
    by_cases here : p = part
    · rw [if_pos here, withEntry_regions, get_set, at_, here]
      by_cases same : j = i <;> simp [same]
    · rw [if_neg here, if_neg fun both => here both.1, at_]
  rw [setRegion_eq]
  split
  · exact taken s rfl _ _
  · have covered := parts_coverNew ((uncoverOld s part i (s.regionOf part i)).modPartAt part
      (withEntry i v (s.regionOf part i) (decodeRegion v))) part i (decodeRegion v)
    rw [State.partAt, covered]
    exact taken _ (parts_uncoverOld ..) _ _

/-! ## Steps 4 to 7 (R460, R462) -/

/-- The entries of the region table that the package writes. -/
def homedEntries (t : BootTables) (k : Nat) : List (Nat × BitVec 12 × BitVec 512) :=
  t.regions.filter fun x => match decodeRegion (x.2.2 &&& regionFields) with
    | some r => decide (r.pkg = k)
    | none => false

/-- The region entries of step 6, one after the other. -/
def entriesWritten (xs : List (Nat × BitVec 12 × BitVec 512)) (s : State) : State :=
  xs.foldl (fun s x => s.setRegion x.1 x.2.1.toNat (x.2.2 &&& regionFields)) s

/-- What step 6 writes to the package itself. -/
def withTables (t : BootTables) (p : Pkg) : Pkg :=
  { p with keys := t.keys.foldl (fun m x => Sp.put m x.1.toNat (some x.2)) p.keys,
           arms := t.arms.foldl (fun m x => Sp.put m x.1.toNat x.2.2.2) p.arms,
           armQueue := t.arms.foldl (fun m x => Sp.put m x.1.toNat (x.2.1, x.2.2.1)) p.armQueue,
           classify := t.classify.foldl (fun m x => Sp.put m x.1.toNat x.2) p.classify,
           boot := { p.boot with step := 6 } }

theorem entriesWritten_kept (xs : List (Nat × BitVec 12 × BitVec 512)) (s : State) : PodKept s (entriesWritten xs s) := by
  unfold entriesWritten
  refine PodKept.foldl ?_ xs s
  intro s x
  exact PodKept.setRegion ..

theorem regions_entriesWritten {xs : List (Nat × BitVec 12 × BitVec 512)} (distinct : (xs.map fun x => (x.1, x.2.1)).Nodup) (s : State)
    {x : Nat × BitVec 12 × BitVec 512} (hx : x ∈ xs) :
    Sp.get 0 ((entriesWritten xs s).partAt x.1).regions x.2.1.toNat = x.2.2 &&& regionFields := by
  have apart (ys : List (Nat × BitVec 12 × BitVec 512)) (s : State) (h : ∀ y ∈ ys, (y.1, y.2.1) ≠ (x.1, x.2.1)) :
      Sp.get 0 ((entriesWritten ys s).partAt x.1).regions x.2.1.toNat = Sp.get 0 (s.partAt x.1).regions x.2.1.toNat := by
    induction ys generalizing s with
    | nil => rfl
    | cons y rest ih =>
      refine (ih (s.setRegion y.1 y.2.1.toNat (y.2.2 &&& regionFields)) fun z hz => h z (List.mem_cons_of_mem _ hz)).trans ?_
      rw [regions_setRegion, if_neg]
      rintro ⟨part, entry⟩
      exact h y List.mem_cons_self (Prod.ext part.symm (BitVec.eq_of_toNat_eq entry.symm))
  induction xs generalizing s with
  | nil => exact nomatch hx
  | cons y rest ih =>
    rw [List.map_cons, List.nodup_cons] at distinct
    rcases List.mem_cons.1 hx with rfl | later
    · refine (apart rest (s.setRegion x.1 x.2.1.toNat (x.2.2 &&& regionFields)) fun z hz same => distinct.1 ?_).trans ?_
      · rw [← same]
        exact List.mem_map_of_mem hz
      · rw [regions_setRegion, if_pos ⟨rfl, rfl⟩]
    · exact ih distinct.2 _ later

section
variable (s : State) (k : Nat)

theorem stepSix_eq : s.stepSix k = (entriesWritten (homedEntries (s.pkgAt k).boot.tables k) (s.modPkgAt k fun p =>
    { p with keys := (s.pkgAt k).boot.tables.keys.foldl (fun m x => Sp.put m x.1.toNat (some x.2)) p.keys })).modPkgAt k fun p =>
      { p with arms := (s.pkgAt k).boot.tables.arms.foldl (fun m x => Sp.put m x.1.toNat x.2.2.2) p.arms,
               armQueue := (s.pkgAt k).boot.tables.arms.foldl (fun m x => Sp.put m x.1.toNat (x.2.1, x.2.2.1)) p.armQueue,
               classify := (s.pkgAt k).boot.tables.classify.foldl (fun m x => Sp.put m x.1.toNat x.2) p.classify,
               boot := { p.boot with step := 6 } } := rfl

/-- Step 6: the package's tables, and the entries in the tables of the partitions. -/
theorem stepSix_law : (s.stepSix k).clock = s.clock ∧ (s.stepSix k).cores = s.cores ∧ (s.stepSix k).dies = s.dies ∧
    (s.stepSix k).pkgAt k = withTables (s.pkgAt k).boot.tables (s.pkgAt k) ∧
    ((s.pkgAt k).boot.tables.regions = [] → (s.stepSix k).mem = s.mem) ∧
    (((s.pkgAt k).boot.tables.regions.map fun x => (x.1, x.2.1)).Nodup → ∀ x ∈ (s.pkgAt k).boot.tables.regions, ∀ r,
      decodeRegion (x.2.2 &&& regionFields) = some r → r.pkg = k →
      Sp.get 0 ((s.stepSix k).partAt x.1).regions x.2.1.toNat = x.2.2 &&& regionFields) := by
  rw [stepSix_eq]
  generalize keyed : (s.modPkgAt k fun p =>
    { p with keys := (s.pkgAt k).boot.tables.keys.foldl (fun m x => Sp.put m x.1.toNat (some x.2)) p.keys }) = u
  have at_ : u.pkgAt k = { s.pkgAt k with keys := (s.pkgAt k).boot.tables.keys.foldl (fun m x => Sp.put m x.1.toNat (some x.2)) (s.pkgAt k).keys } := by
    rw [← keyed, pkgAt_modPkgAt_self]
  have kept := entriesWritten_kept (homedEntries (s.pkgAt k).boot.tables k) u
  have pkg : (entriesWritten (homedEntries (s.pkgAt k).boot.tables k) u).pkgAt k = u.pkgAt k := congrArg (fun m => Sp.get ({} : Pkg) m k) kept.pkgs
  refine ⟨?_, ?_, ?_, ?_, fun none => ?_, fun distinct x hx r valid home => ?_⟩
  · rw [modPkgAt_clock, kept.clock, ← keyed, modPkgAt_clock]
  · rw [modPkgAt_cores, kept.cores, ← keyed, modPkgAt_cores]
  · rw [modPkgAt_dies, kept.dies, ← keyed, modPkgAt_dies]
  · rw [pkgAt_modPkgAt_self, pkg, at_]
    rfl
  · rw [modPkgAt_mem, homedEntries, none, ← keyed]
    rfl
  · rw [partAt_modPkgAt]
    have listed : x ∈ homedEntries (s.pkgAt k).boot.tables k := by
      refine List.mem_filter.2 ⟨hx, ?_⟩
      rw [valid]
      exact decide_eq_true home
    exact regions_entriesWritten (distinct.sublist (List.filter_sublist.map _)) u listed

/-- The package as step 5 leaves it. -/
def fifth (p : Pkg) : Pkg := { p with memUp := 7 }.stepFive

theorem stepFour_waits (h : ¬((s.pkgAt k).boot.step = 4 ∧ (s.pkgAt k).boot.code = 0 ∧ (s.pkgAt k).coldReady = true)) : s.stepFour k = s := by
  unfold State.stepFour
  exact if_neg h

theorem stepFour_goes (h : (s.pkgAt k).boot.step = 4 ∧ (s.pkgAt k).boot.code = 0 ∧ (s.pkgAt k).coldReady = true) : s.stepFour k =
    if (s.pkgAt k).links &&& (s.pkgAt k).boot.ports = 0 then s.modPkgAt k fun _ => fifth (s.pkgAt k)
    else ((s.modPkgAt k fun _ => fifth (s.pkgAt k)).stepSix k).modPkgAt k Pkg.stepSeven := by
  have code : (fifth (s.pkgAt k)).boot.code = if (s.pkgAt k).links &&& (s.pkgAt k).boot.ports = 0 then 5 else 0 := rfl
  unfold State.stepFour
  dsimp only
  rw [if_pos h]
  by_cases down : (s.pkgAt k).links &&& (s.pkgAt k).boot.ports = 0
  · rw [if_pos down] at code ⊢
    refine if_neg ?_
    change ¬(fifth (s.pkgAt k)).boot.code = 0
    rw [code]
    decide
  · rw [if_neg down] at code ⊢
    exact if_pos code

end

/-- The package once it is up. -/
def brought (p : Pkg) : Pkg := (withTables p.boot.tables (fifth p)).stepSeven

/-- What the later steps do, whichever of them are taken. -/
theorem stepFour_law (s : State) (k : Nat) : (s.stepFour k).clock = s.clock ∧ (s.stepFour k).cores = s.cores ∧ (s.stepFour k).dies = s.dies ∧
    (¬((s.pkgAt k).boot.step = 4 ∧ (s.pkgAt k).boot.code = 0 ∧ (s.pkgAt k).coldReady = true) → s.stepFour k = s) ∧
    ((s.pkgAt k).boot.step = 4 ∧ (s.pkgAt k).boot.code = 0 ∧ (s.pkgAt k).coldReady = true →
      ((s.pkgAt k).links &&& (s.pkgAt k).boot.ports = 0 → (s.stepFour k).pkgAt k = fifth (s.pkgAt k)) ∧
      ((s.pkgAt k).links &&& (s.pkgAt k).boot.ports ≠ 0 → (s.stepFour k).pkgAt k = brought (s.pkgAt k) ∧
        (((s.pkgAt k).boot.tables.regions.map fun x => (x.1, x.2.1)).Nodup → ∀ x ∈ (s.pkgAt k).boot.tables.regions, ∀ r,
          decodeRegion (x.2.2 &&& regionFields) = some r → r.pkg = k →
          Sp.get 0 ((s.stepFour k).partAt x.1).regions x.2.1.toNat = x.2.2 &&& regionFields))) ∧
    ((s.pkgAt k).boot.tables.regions = [] → (s.stepFour k).mem = s.mem) := by
  by_cases ready : (s.pkgAt k).boot.step = 4 ∧ (s.pkgAt k).boot.code = 0 ∧ (s.pkgAt k).coldReady = true
  · rw [stepFour_goes s k ready]
    by_cases down : (s.pkgAt k).links &&& (s.pkgAt k).boot.ports = 0
    · rw [if_pos down]
      exact ⟨rfl, rfl, rfl, fun not => absurd ready not, fun _ => ⟨fun _ => pkgAt_modPkgAt_self .., fun up => absurd down up⟩, fun _ => rfl⟩
    · rw [if_neg down]
      have at_ : (s.modPkgAt k fun _ => fifth (s.pkgAt k)).pkgAt k = fifth (s.pkgAt k) := pkgAt_modPkgAt_self ..
      have tables : (fifth (s.pkgAt k)).boot.tables = (s.pkgAt k).boot.tables := rfl
      obtain ⟨clock, cores, dies, pkg, mem, regions⟩ := stepSix_law (s.modPkgAt k fun _ => fifth (s.pkgAt k)) k
      rw [at_, tables] at pkg mem regions
      refine ⟨clock, cores, dies, fun not => absurd ready not, fun _ => ⟨fun h => absurd h down, fun _ => ⟨?_, regions⟩⟩, mem⟩
      rw [pkgAt_modPkgAt_self, pkg]
      rfl
  · rw [stepFour_waits s k ready]
    exact ⟨rfl, rfl, rfl, fun _ => rfl, fun h => absurd h ready, fun _ => rfl⟩

/-! ## Steps 1 to 3 (R460, R461) -/

theorem writeMemprot_frame (p : Pkg) (v : Word) : ∃ m, p.writeMemprot v = { p with memprot := m } := by
  unfold Pkg.writeMemprot
  dsimp only
  split
  · exact ⟨p.memprot, rfl⟩
  · exact ⟨_, rfl⟩

theorem ofNat_bits {w : Nat} (v : BitVec w) (lo n : Nat) : BitVec.ofNat n (bits v lo n) = v.extractLsb' lo n := by
  rw [bits_eq_extractLsb', BitVec.ofNat_toNat, BitVec.setWidth_eq]

/-- The configuration record that counts: the first copy where it is valid. -/
def configOf (b : BootInputs) : BitVec 512 := if configOk b.config0 = true then b.config0 else b.config1

/-- The package with what its configuration record says. -/
def configured (b : BootInputs) : Pkg :=
  { t4 := b.stageMilliK, lift := b.liftMilliW, flash := (b.config0, b.config1),
    grade := BitVec.ofNat 8 (bits (configOf b) 32 8), number := BitVec.ofNat 16 (bits (configOf b) 48 16),
    enable := BitVec.ofNat 256 (bits (configOf b) 64 256), links := BitVec.ofNat 72 (bits (configOf b) 320 72) }

/-- Bring-up stopped in step `n`. -/
def stoppedIn (p : Pkg) (n : Nat) : Pkg := { p with boot := { p.boot with step := n, code := n } }

theorem bootPkg_eq (b : BootInputs) (clock : Nat) : bootPkg b clock =
    if crc32 b.firmware ≠ b.firmwareCrc then stoppedIn { t4 := b.stageMilliK, lift := b.liftMilliW, flash := (b.config0, b.config1) } 1
    else if !configOk b.config0 ∧ !configOk b.config1 then stoppedIn { t4 := b.stageMilliK, lift := b.liftMilliW, flash := (b.config0, b.config1) } 2
    else if !b.memoryOk then stoppedIn ((configured b).writeMemprot b.memprot) 3
    else { (configured b).writeMemprot b.memprot with
      memUp := 3, boot := { step := 4, since := clock, ports := b.portsUp, tables := b.tables, entry := b.hostEntry } } := rfl

theorem bootPkg_law (b : BootInputs) (clock : Nat) : (bootPkg b clock).t4 = b.stageMilliK ∧ (bootPkg b clock).lift = b.liftMilliW ∧
    (bootPkg b clock).flash = (b.config0, b.config1) ∧
    (crc32 b.firmware ≠ b.firmwareCrc → (bootPkg b clock).boot.code = 1) ∧
    (crc32 b.firmware = b.firmwareCrc → ¬(configOk b.config0 = true ∨ configOk b.config1 = true) → (bootPkg b clock).boot.code = 2) ∧
    (crc32 b.firmware = b.firmwareCrc → configOk b.config0 = true ∨ configOk b.config1 = true →
      (bootPkg b clock).number = (configOf b).extractLsb' 48 16 ∧ (bootPkg b clock).enable = (configOf b).extractLsb' 64 256 ∧
      (bootPkg b clock).links = (configOf b).extractLsb' 320 72 ∧ (b.memoryOk = false → (bootPkg b clock).boot.code = 3) ∧
      (b.memoryOk = true → (bootPkg b clock).boot.step = 4 ∧ (bootPkg b clock).boot.code = 0 ∧ (bootPkg b clock).memUp = 3)) ∧
    ((bootPkg b clock).boot.step = 4 → (bootPkg b clock).boot.code = 0 ∧ (bootPkg b clock).boot.ports = b.portsUp ∧
      (bootPkg b clock).boot.tables = b.tables ∧ (bootPkg b clock).boot.entry = b.hostEntry ∧ (bootPkg b clock).boot.released = false) := by
  rw [bootPkg_eq]
  by_cases firmware : crc32 b.firmware ≠ b.firmwareCrc
  · rw [if_pos firmware]
    exact ⟨rfl, rfl, rfl, fun _ => rfl, fun good => absurd good firmware, fun good => absurd good firmware, fun four => nomatch four⟩
  · rw [if_neg firmware]
    by_cases config : configOk b.config0 = true ∨ configOk b.config1 = true
    · rw [if_neg (by rcases config with h | h <;> simp [h])]
      obtain ⟨m, memprot⟩ := writeMemprot_frame (configured b) b.memprot
      rw [memprot]
      cases memory : b.memoryOk with
      | false =>
        exact ⟨rfl, rfl, rfl, fun bad => absurd bad firmware, fun _ none => absurd config none,
          fun _ _ => ⟨ofNat_bits .., ofNat_bits .., ofNat_bits .., fun _ => rfl, fun h => nomatch h⟩, fun four => nomatch four⟩
      | true =>
        exact ⟨rfl, rfl, rfl, fun bad => absurd bad firmware, fun _ none => absurd config none,
          fun _ _ => ⟨ofNat_bits .., ofNat_bits .., ofNat_bits .., fun h => (nomatch h), fun _ => ⟨rfl, rfl, rfl⟩⟩,
          fun _ => ⟨rfl, rfl, rfl, rfl, rfl⟩⟩
    · rw [if_pos (by simpa using config)]
      exact ⟨rfl, rfl, rfl, fun bad => absurd bad firmware, fun _ _ => rfl, fun _ some => absurd some config, fun four => nomatch four⟩

/-! ## Module reset (R460) -/

/-- The pod once the package's cores, dies, tables and memory are as at reset and steps 1 to 3 have run. -/
def resetBase (s : State) (k : Nat) (b : BootInputs) : State :=
  { s with
    cores := s.cores.filter fun x => !decide (pkgOf x.1 = k),
    dies := (List.range 4).foldl (fun m d => Sp.put m (4 * k + d) { base := s.clock }) (s.dies.filter fun x => !decide (x.1 / 4 = k)),
    pkgs := Sp.put s.pkgs k (bootPkg b s.clock),
    parts := s.parts.map fun (p : Nat × Part) => (p.1, p.2.dropPackage k),
    mem := s.mem.filter fun x => !decide (keyPkg x.1 = k),
    bad := s.bad.filter (fun l => !decide (keyPkg (64 * l) = k)), badDc := s.badDc.filter (fun l => !decide (keyPkg (64 * l) = k)),
    owners := s.owners.filter (fun x => !decide (keyPkg (64 * x.1) = k)),
    agenda := s.agenda.filter fun a => !decide (pkgOf a.core = k) }

theorem resetModule_eq (s : State) (k : Nat) (b : BootInputs) : s.resetModule k b = (resetBase s k b).stepFour k := rfl

section
variable (s : State) (k : Nat) (b : BootInputs)

theorem resetBase_pkg : (resetBase s k b).pkgAt k = bootPkg b s.clock := get_put_self ..

theorem resetBase_die {d : Nat} (hd : d < 4) : (resetBase s k b).dieAt (4 * k + d) = { base := s.clock } := by
  have keyed := get_foldl_put_keyed ({} : Die) (fun d => 4 * k + d) (fun _ : Nat => ({ base := s.clock } : Die)) id (fun a c h => by omega)
    (l := List.range 4) (by decide) (s.dies.filter fun x => !decide (x.1 / 4 = k)) (List.mem_range.2 hd)
  exact keyed

theorem resetBase_core {c : Nat} (here : c / 256 = k) {m : Sp Core} (cores : m = (resetBase s k b).cores) : Sp.get (Core.atReset c) m c = Core.atReset c := by
  rw [cores]
  refine get_filter_gone _ s.cores (fun i => !decide (pkgOf i = k)) ?_
  rw [show pkgOf c = k from here]
  simp

theorem resetBase_byte_gone {a : Nat} (here : a / 2 ^ 40 = k) : (resetBase s k b).byte a = 0 := by
  refine get_filter_gone _ s.mem (fun i => !decide (keyPkg i = k)) ?_
  rw [show keyPkg a = k from here]
  simp

theorem resetBase_byte_other (canonical : s.Inv) {a : Nat} (other : a / 2 ^ 40 ≠ k) : (resetBase s k b).byte a = s.byte a := by
  refine (get_filter_of_rising _ (rising_of_wf canonical) (fun i => !decide (keyPkg i = k)) a).trans (if_pos ?_)
  rw [decide_eq_false (show ¬keyPkg a = k from other)]
  rfl

/-- The state a module reset answers, read field by field; `q` is the package as steps 1 to 3 leave it. -/
theorem resetModule_law : let t := s.resetModule k b
    let q := bootPkg b s.clock
    let cold := b.stageMilliK < 4400 ∧ 1000 ≤ b.liftMilliW
    t.clock = s.clock ∧
      (∀ c, c / 256 = k → t.coreAt c = Core.atReset c) ∧ t.cores = s.cores.filter (fun c => !decide (c.1 / 256 = k)) ∧
      (∀ d, d < 4 → t.dieAt (4 * k + d) = { base := s.clock }) ∧
      (b.tables.regions = [] ∨ q.boot.step ≠ 4 ∨ ¬cold →
        (∀ a, a / 2 ^ 40 = k → t.byte a = 0) ∧ (s.Inv → ∀ a, a / 2 ^ 40 ≠ k → t.byte a = s.byte a)) ∧
      (q.boot.step ≠ 4 ∨ ¬cold → t.pkgAt k = q) ∧
      (q.boot.step = 4 → cold → q.links &&& b.portsUp = 0 → t.pkgAt k = fifth q) ∧
      (q.boot.step = 4 → cold → q.links &&& b.portsUp ≠ 0 → t.pkgAt k = brought q ∧
        ((b.tables.regions.map fun x => (x.1, x.2.1)).Nodup → ∀ x ∈ b.tables.regions, ∀ r,
          decodeRegion (x.2.2 &&& regionFields) = some r → r.pkg = k →
          Sp.get 0 (t.partAt x.1).regions x.2.1.toNat = x.2.2 &&& regionFields)) := by
  dsimp only
  obtain ⟨t4, lift, -, -, -, -, four⟩ := bootPkg_law b s.clock
  obtain ⟨clock, cores, dies, waits, goes, mem⟩ := stepFour_law (resetBase s k b) k
  rw [resetBase_pkg] at waits goes mem
  rw [resetModule_eq]
  have coldReady : (bootPkg b s.clock).coldReady = true ↔ b.stageMilliK < 4400 ∧ 1000 ≤ b.liftMilliW := by
    unfold Pkg.coldReady
    rw [t4, lift, Bool.and_eq_true, decide_eq_true_iff, decide_eq_true_iff]
  rw [coldReady] at waits goes
  have stands (h : (bootPkg b s.clock).boot.step ≠ 4 ∨ ¬(b.stageMilliK < 4400 ∧ 1000 ≤ b.liftMilliW)) :
      (resetBase s k b).stepFour k = resetBase s k b := waits fun all => h.elim (· all.1) (· all.2.2)
  refine ⟨clock, fun c here => resetBase_core s k b here cores, cores, fun d hd => ?_, fun h => ?_, fun h => ?_, fun step cold down => ?_,
    fun step cold up => ?_⟩
  · exact (congrArg (fun m => Sp.get ({} : Die) m (4 * k + d)) dies).trans (resetBase_die s k b hd)
  · have same : ((resetBase s k b).stepFour k).mem = (resetBase s k b).mem := by
      rcases h with none | h
      · by_cases step : (bootPkg b s.clock).boot.step = 4
        · obtain ⟨-, -, tables, -⟩ := four step
          exact mem (by rw [tables]; exact none)
        · rw [stands (.inl step)]
      · rw [stands h]
    have byte (a : Nat) : ((resetBase s k b).stepFour k).byte a = (resetBase s k b).byte a := congrArg (Sp.get Memory.unwritten · a) same
    exact ⟨fun a here => (byte a).trans (resetBase_byte_gone s k b here),
      fun canonical a other => (byte a).trans (resetBase_byte_other s k b canonical other)⟩
  · rw [stands h, resetBase_pkg]
  · obtain ⟨code, ports, -⟩ := four step
    rw [ports] at goes
    exact (goes ⟨step, code, cold⟩).1 down
  · obtain ⟨code, ports, tables, -⟩ := four step
    rw [ports, tables] at goes
    exact (goes ⟨step, code, cold⟩).2 up

theorem toNat_inj {w : Nat} (a c : BitVec w) (h : a.toNat = c.toNat) : a = c := BitVec.eq_of_toNat_eq h

/-- What a package that came up holds of the tables it was given. -/
theorem brought_law {q : Pkg} (step : q.boot.step = 4) (tables : q.boot.tables = b.tables) (ports : q.boot.ports = b.portsUp)
    (entry : q.boot.entry = b.hostEntry) (up : q.links &&& b.portsUp ≠ 0) : (brought q).boot.step = 7 ∧ (brought q).boot.code = 0 ∧
      (brought q).boot.released = true ∧ (brought q).boot.entry = b.hostEntry ∧ (brought q).memUp = 7 ∧
      (brought q).portsDown = q.links &&& ~~~(q.links &&& b.portsUp) ∧
      ((b.tables.keys.map (·.1)).Nodup → ∀ x ∈ b.tables.keys, Sp.get none (brought q).keys x.1.toNat = some x.2) ∧
      ((b.tables.arms.map (·.1)).Nodup → ∀ x ∈ b.tables.arms, Sp.get 0 (brought q).arms x.1.toNat = x.2.2.2 ∧
        Sp.get (0, 0) (brought q).armQueue x.1.toNat = (x.2.1, x.2.2.1)) ∧
      ((b.tables.classify.map (·.1)).Nodup → ∀ x ∈ b.tables.classify, Sp.get 0 (brought q).classify x.1.toNat = x.2) := by
  have code : (brought q).boot.code = if q.links &&& q.boot.ports = 0 then 5 else 0 := rfl
  have down : (brought q).portsDown = q.links &&& ~~~(q.links &&& q.boot.ports) := rfl
  have keys : (brought q).keys = q.boot.tables.keys.foldl (fun m x => Sp.put m x.1.toNat (some x.2)) q.keys := rfl
  have arms : (brought q).arms = q.boot.tables.arms.foldl (fun m x => Sp.put m x.1.toNat x.2.2.2) q.arms := rfl
  have queues : (brought q).armQueue = q.boot.tables.arms.foldl (fun m x => Sp.put m x.1.toNat (x.2.1, x.2.2.1)) q.armQueue := rfl
  have classes : (brought q).classify = q.boot.tables.classify.foldl (fun m x => Sp.put m x.1.toNat x.2) q.classify := rfl
  rw [ports, if_neg up] at code
  rw [ports] at down
  rw [keys, arms, queues, classes, tables]
  refine ⟨rfl, code, rfl, entry, rfl, down, fun distinct x hx => ?_, fun distinct x hx => ⟨?_, ?_⟩, fun distinct x hx => ?_⟩
  · exact get_foldl_put_keyed none BitVec.toNat (fun x : BitVec 8 × BitVec 512 => some x.2) (·.1) toNat_inj distinct q.keys hx
  · exact get_foldl_put_keyed 0 BitVec.toNat (fun x : BitVec 8 × Nat × Nat × BitVec 256 => x.2.2.2) (·.1) toNat_inj distinct q.arms hx
  · exact get_foldl_put_keyed (0, 0) BitVec.toNat (fun x : BitVec 8 × Nat × Nat × BitVec 256 => (x.2.1, x.2.2.1)) (·.1) toNat_inj distinct q.armQueue hx
  · exact get_foldl_put_keyed 0 BitVec.toNat (fun x : BitVec 7 × BitVec 96 => x.2) (·.1) toNat_inj distinct q.classify hx

end

/-! ## The stage's deadlines (R462) -/

section
variable {pkg : BitVec 10} (s : State) (up : pkg.toNat < Config.packages)
include up

theorem exec_coldHandshakeTimeout_due (step : (s.pkgAt pkg.toNat).boot.step = 4) (code : (s.pkgAt pkg.toNat).boot.code = 0)
    (late : (s.pkgAt pkg.toNat).boot.since + 19200000000000 ≤ s.clock) :
    exec (.coldHandshakeTimeout pkg) s = .next (s.modPkgAt pkg.toNat fun p => { p with boot := { p.boot with code := 4 } }) := by
  rw [exec_coldHandshakeTimeout, execColdHandshakeTimeout, if_neg (Nat.not_le.2 up), if_pos ⟨step, code, late⟩]

theorem exec_coldHandshakeTimeout_early (early : s.clock < (s.pkgAt pkg.toNat).boot.since + 19200000000000) :
    exec (.coldHandshakeTimeout pkg) s = .next s := by
  rw [exec_coldHandshakeTimeout, execColdHandshakeTimeout, if_neg (Nat.not_le.2 up), if_neg fun all => absurd all.2.2 (Nat.not_le.2 early)]

theorem exec_drainDeadline_early (early : (s.pkgAt pkg.toNat).hot = false ∨ s.clock < (s.pkgAt pkg.toNat).hotAt + 32000000) :
    exec (.drainDeadline pkg) s = .next s := by
  rw [exec_drainDeadline, execDrainDeadline]
  dsimp only
  rw [if_neg (Nat.not_le.2 up), if_pos (early.imp_left fun cool => by rw [cool]; rfl)]

end

/-! ## Ceilings (R457) -/

theorem get_foldl_set_from {α : Type} [DecidableEq α] (d : α) (f : Nat → α) (off n j : Nat) (m : Sp α) :
    Sp.get d ((List.range n).foldl (fun m i => Sp.set d m (off + i) (f i)) m) (off + j) = if j < n then f j else Sp.get d m (off + j) := by
  induction n with
  | zero => rfl
  | succ n ih =>
    rw [List.range_succ, List.foldl_append, List.foldl_cons, List.foldl_nil, get_set, ih]
    by_cases last : j = n
    · rw [last, if_pos rfl, if_pos (Nat.lt_succ_self n)]
    · rw [if_neg (by omega)]
      by_cases below : j < n
      · rw [if_pos below, if_pos (by omega)]
      · rw [if_neg below, if_neg (by omega)]

/-- The bytes just written are the bytes read. -/
theorem slot_areaNat_setArea (sl : Slot) (off : Nat) (bs : List Byte) : (sl.setArea off bs).areaNat off bs.length = leNat bs := by
  refine congrArg leNat (List.ext_getElem (by simp) fun i h1 h2 => ?_)
  rw [List.getElem_map, List.getElem_range]
  exact (get_foldl_set_from 0 (fun i => bs.getD i 0) off bs.length i sl.area).trans ((if_pos h2).trans (by simp [h2]))

theorem setCeiling_saved {sl : Slot} (saved : sl.state = .saved) (own : sl.copy = false) (n window : Nat) :
    (sl.setCeiling n window).kept.heatNext = some (n, window) ∧ (sl.setCeiling n window).areaNat 0x1CB0 8 = n % 256 ^ 8 := by
  unfold Slot.setCeiling
  rw [if_pos ⟨saved, by rw [own]; rfl⟩]
  refine ⟨rfl, ?_⟩
  rw [← leNat_leBytes 8 n]
  exact slot_areaNat_setArea sl 0x1CB0 (leBytes 8 n)

/-- What a new ceiling makes of a core. -/
def ceiled (n window : Nat) (c : Core) : Core :=
  let x := if c.run.isSome then c.setCeiling n else c
  { x with slot0 := x.slot0.setCeiling n window, slot1 := x.slot1.setCeiling n window }

theorem ceiled_slotAt (n window : Nat) (c : Core) (i : BitVec 1) : (ceiled n window c).slotAt i = (c.slotAt i).setCeiling n window := by
  unfold ceiled Core.slotAt
  dsimp only
  split_ifs <;> rfl

theorem ceiled_run (n window : Nat) (c : Core) : (ceiled n window c).run = c.run := by
  unfold ceiled
  dsimp only
  split_ifs <;> rfl

theorem ceiled_ceiling {n window : Nat} {c : Core} (runs : c.run ≠ none) : (ceiled n window c).heatCeil = n ∧ (ceiled n window c).heatNext = some n := by
  unfold ceiled
  dsimp only
  rw [if_pos (Option.isSome_iff_ne_none.2 runs)]
  exact ⟨rfl, rfl⟩

theorem ceiled_atReset (n window k : Nat) : ceiled n window (Core.atReset k) = Core.atReset k := rfl

theorem coreAt_setCeilings (s : State) (p n k : Nat) :
    (s.setCeilings p n).coreAt k = if k / 256 = p then ceiled n (s.windowOf k) (s.coreAt k) else s.coreAt k := by
  have map : (s.setCeilings p n).cores = s.cores.map fun x => (x.1, if x.1 / 256 = p then ceiled n (s.windowOf x.1) x.2 else x.2) := by
    refine List.map_congr_left fun x _ => ?_
    unfold pkgOf
    split <;> rfl
  unfold State.coreAt
  rw [map]
  refine get_map_at _ (fun j c => if j / 256 = p then ceiled n (s.windowOf j) c else c) s.cores k ?_
  split
  · exact ceiled_atReset ..
  · rfl

/-! ## Requests to stop (R399, R457) -/

/-- From `c` to `d` a core has at most been asked to stop. -/
structure Asked (c d : Core) : Prop where
  slots : ∀ i, d.slotAt i = c.slotAt i
  ceiling : d.heatCeil = c.heatCeil
  next : d.heatNext = c.heatNext
  run : d.run = c.run
  asked : c.preempt ≠ none → d.preempt ≠ none

namespace Asked

theorem refl (c : Core) : Asked c c := ⟨fun _ => rfl, rfl, rfl, rfl, id⟩

theorem trans {c d e : Core} (h : Asked c d) (g : Asked d e) : Asked c e :=
  ⟨fun i => (g.slots i).trans (h.slots i), g.ceiling.trans h.ceiling, g.next.trans h.next, g.run.trans h.run, fun asked => g.asked (h.asked asked)⟩

theorem request (c : Core) (warm : Nat) (rotation : Bool) : Asked c (c.request warm rotation) := by
  unfold Core.request
  split
  · exact refl c
  · exact ⟨fun _ => rfl, rfl, rfl, rfl, fun _ => Option.some_ne_none _⟩

end Asked

theorem request_preempt {c : Core} (runs : c.run ≠ none) (warm : Nat) (rotation : Bool) : (c.request warm rotation).preempt ≠ none := by
  unfold Core.request
  rw [if_neg (by simpa using runs)]
  exact Option.some_ne_none _

/-- A record changed where it is listed reads as it did or changed. -/
theorem get_map_or {α : Type} (d : α) (f : α → α) (m : Sp α) (k : Nat) : Sp.get d (m.map fun x => (x.1, f x.2)) k = Sp.get d m k ∧ Sp.get d m k = d ∨
    Sp.get d (m.map fun x => (x.1, f x.2)) k = f (Sp.get d m k) := by
  induction m with
  | nil => exact .inl ⟨rfl, rfl⟩
  | cons x rest ih =>
    simp only [List.map_cons, Sp.get]
    split_ifs
    · exact .inl ⟨rfl, rfl⟩
    · exact .inr rfl
    · exact ih

section
variable (s : State) (k : Nat) (rotation : Bool)

/-- A request reaches the core alone, or every core of its gang. -/
theorem request_core (j : Nat) : (s.request k rotation).coreAt j = s.coreAt j ∧ (j = k → (s.coreAt k).run = none) ∨
    (s.request k rotation).coreAt j = (s.coreAt j).request s.warm rotation := by
  unfold State.request
  dsimp only
  by_cases idle : (s.coreAt k).run = none
  · rw [if_pos (by rw [idle]; rfl)]
    exact .inl ⟨rfl, fun _ => idle⟩
  rw [if_neg (by simpa using idle)]
  by_cases gang : s.isGang (s.coreAt k).slot = true
  · rw [if_pos gang]
    have map : (s.cores.map fun (x : Nat × Core) => if x.2.slot.part = (s.coreAt k).slot.part ∧ x.2.slot.launch = (s.coreAt k).slot.launch then
        (x.1, x.2.request s.warm rotation) else x) = s.cores.map fun x => (x.1,
          if x.2.slot.part = (s.coreAt k).slot.part ∧ x.2.slot.launch = (s.coreAt k).slot.launch then x.2.request s.warm rotation else x.2) :=
      List.map_congr_left fun x _ => by split <;> rfl
    unfold State.coreAt
    dsimp only
    unfold State.coreAt at map
    rw [map]
    rcases get_map_or (Core.atReset j) (fun c => if c.slot.part = (Sp.get (Core.atReset k) s.cores k).slot.part ∧
        c.slot.launch = (Sp.get (Core.atReset k) s.cores k).slot.launch then c.request s.warm rotation else c) s.cores j with ⟨same, unlisted⟩ | changed
    · refine .inl ⟨same, fun here => ?_⟩
      subst here
      rw [unlisted]
      rfl
    · rw [changed]
      split
      · exact .inr rfl
      · next other => exact .inl ⟨rfl, fun here => by subst here; exact absurd ⟨rfl, rfl⟩ other⟩
  · rw [if_neg gang, coreAt_modCoreAt]
    split
    · next here => rw [here]; exact .inr rfl
    · next other => exact .inl ⟨rfl, fun here => absurd here other⟩

theorem request_asked (j : Nat) : Asked (s.coreAt j) ((s.request k rotation).coreAt j) := by
  rcases request_core s k rotation j with ⟨same, -⟩ | asked
  · rw [same]
    exact Asked.refl _
  · rw [asked]
    exact Asked.request ..

theorem request_asks (runs : (s.coreAt k).run ≠ none) : ((s.request k rotation).coreAt k).preempt ≠ none := by
  rcases request_core s k rotation k with ⟨-, idle⟩ | asked
  · exact absurd (idle rfl) runs
  · rw [asked]
    exact request_preempt runs s.warm rotation

theorem request_pod : (s.request k rotation).mem = s.mem ∧ (s.request k rotation).pkgs = s.pkgs := by
  unfold State.request
  dsimp only
  split
  · exact ⟨rfl, rfl⟩
  · split <;> exact ⟨rfl, rfl⟩

end

theorem requests_asked (xs : List (Nat × Core)) (s : State) (j : Nat) :
    Asked (s.coreAt j) ((xs.foldl (fun s x => s.request x.1 false) s).coreAt j) := by
  induction xs generalizing s with
  | nil => exact Asked.refl _
  | cons x rest ih => exact (request_asked s x.1 false j).trans (ih _)

theorem requests_ask {xs : List (Nat × Core)} {j : Nat} {c : Core} (listed : (j, c) ∈ xs) (s : State) (runs : (s.coreAt j).run ≠ none) :
    ((xs.foldl (fun s x => s.request x.1 false) s).coreAt j).preempt ≠ none := by
  induction xs generalizing s with
  | nil => exact nomatch listed
  | cons x rest ih =>
    rcases List.mem_cons.1 listed with rfl | later
    · exact (requests_asked rest _ j).asked (request_asks s j false runs)
    · exact ih later _ (by rw [(request_asked s x.1 false j).run]; exact runs)

theorem requests_pod (xs : List (Nat × Core)) (s : State) : (xs.foldl (fun s x => s.request x.1 false) s).mem = s.mem ∧
    (xs.foldl (fun s x => s.request x.1 false) s).pkgs = s.pkgs := by
  induction xs generalizing s with
  | nil => exact ⟨rfl, rfl⟩
  | cons x rest ih =>
    obtain ⟨mem, pkgs⟩ := request_pod s x.1 false
    exact ⟨(ih _).1.trans mem, (ih _).2.trans pkgs⟩

/-! ## The stage's temperature (R457, R462) -/

/-- The package with what its stage reports. -/
def stagePkg (t4 t50 lift clock : Nat) (p : Pkg) : Pkg :=
  let zero := decide (4500 < t4)
  let back := p.ceilZero && decide (t4 < 4400)
  let hot := if 4800 < t4 then true else if t4 < 4400 then false else p.hot
  { p with t4 := t4, t50 := t50, lift := lift, ceilZero := (p.ceilZero || zero) && !back, hot := hot,
           hotAt := if hot ∧ !p.hot then clock else p.hotAt }

/-- The ceilings follow the temperature. -/
def recooled (t4 k : Nat) (p : Pkg) (s : State) : State :=
  if decide (4500 < t4) ∧ !p.ceilZero then s.setCeilings k 0 else if p.ceilZero && decide (t4 < 4400) then s.setCeilings k 48000000 else s

/-- The stage is hot above 4.8 K and until it is below 4.4 K. -/
def nowHot (t4 : Nat) (p : Pkg) : Bool := if 4800 < t4 then true else if t4 < 4400 then false else p.hot

/-- Every core of the package is asked to stop as its stage becomes hot. -/
def askedToStop (t4 k : Nat) (p : Pkg) (s : State) : State :=
  if nowHot t4 p ∧ !p.hot then
    (s.cores.filter fun x => decide (pkgOf x.1 = k)).foldl (fun s x => s.request x.1 false) s
  else s

section
variable {pkg : BitVec 10} (t4 t50 lift : Nat) (s : State)

theorem exec_stageTemperature_of (up : pkg.toNat < Config.packages) : exec (.stageTemperature pkg t4 t50 lift) s =
    .next (askedToStop t4 pkg.toNat (s.pkgAt pkg.toNat) (recooled t4 pkg.toNat (s.pkgAt pkg.toNat)
      ((s.modPkgAt pkg.toNat (stagePkg t4 t50 lift s.clock)).stepFour pkg.toNat))) := by
  rw [exec_stageTemperature, execStageTemperature]
  dsimp only
  rw [if_neg (Nat.not_le.2 up)]
  exact (apply_ite Host.Outcome.next _ _ _).symm

variable (k : Nat) (p : Pkg)

theorem recooled_pod : (recooled t4 k p s).mem = s.mem ∧ (recooled t4 k p s).pkgs = s.pkgs := by
  unfold recooled
  split
  · exact ⟨rfl, rfl⟩
  · split <;> exact ⟨rfl, rfl⟩

theorem askedToStop_pod : (askedToStop t4 k p s).mem = s.mem ∧ (askedToStop t4 k p s).pkgs = s.pkgs := by
  unfold askedToStop
  split
  · exact requests_pod _ _
  · exact ⟨rfl, rfl⟩

theorem askedToStop_asked (j : Nat) : Asked (s.coreAt j) ((askedToStop t4 k p s).coreAt j) := by
  unfold askedToStop
  split
  · exact requests_asked _ _ j
  · exact Asked.refl _

theorem askedToStop_asks {j : Nat} (here : j / 256 = k) (runs : (s.coreAt j).run ≠ none) (hot : 4800 < t4) (cool : p.hot = false) :
    ((askedToStop t4 k p s).coreAt j).preempt ≠ none := by
  unfold askedToStop
  rw [if_pos ⟨if_pos hot, by rw [cool]; rfl⟩]
  have listed : (j, s.coreAt j) ∈ s.cores := mem_of_get_ne fun unlisted => runs (by rw [State.coreAt, unlisted]; rfl)
  exact requests_ask (List.mem_filter.2 ⟨listed, decide_eq_true here⟩) s runs

theorem recooled_run (j : Nat) : ((recooled t4 k p s).coreAt j).run = (s.coreAt j).run := by
  unfold recooled
  split
  · rw [coreAt_setCeilings]
    split
    · exact ceiled_run ..
    · rfl
  · split
    · rw [coreAt_setCeilings]
      split
      · exact ceiled_run ..
      · rfl
    · rfl

variable {j : Nat} (here : j / 256 = k)
include here

theorem recooled_zero (warm : 4500 < t4) (set : p.ceilZero = false) : (recooled t4 k p s).coreAt j = ceiled 0 (s.windowOf j) (s.coreAt j) := by
  unfold recooled
  rw [if_pos ⟨decide_eq_true warm, by rw [set]; rfl⟩, coreAt_setCeilings, if_pos here]

theorem recooled_back (cold : t4 < 4400) (set : p.ceilZero = true) : (recooled t4 k p s).coreAt j = ceiled 48000000 (s.windowOf j) (s.coreAt j) := by
  unfold recooled
  rw [if_neg (by rw [set]; simp), if_pos (by rw [set, decide_eq_true cold]; rfl), coreAt_setCeilings, if_pos here]

end

/-- A package's stage fields stand through the later steps of bring-up. -/
theorem stepFour_stage (s : State) (k : Nat) : ((s.stepFour k).pkgAt k).t4 = (s.pkgAt k).t4 ∧ ((s.stepFour k).pkgAt k).lift = (s.pkgAt k).lift ∧
    ((s.stepFour k).pkgAt k).hot = (s.pkgAt k).hot ∧ ((s.stepFour k).pkgAt k).ceilZero = (s.pkgAt k).ceilZero := by
  obtain ⟨-, -, -, waits, goes, -⟩ := stepFour_law s k
  by_cases ready : (s.pkgAt k).boot.step = 4 ∧ (s.pkgAt k).boot.code = 0 ∧ (s.pkgAt k).coldReady = true
  · by_cases down : (s.pkgAt k).links &&& (s.pkgAt k).boot.ports = 0
    · rw [(goes ready).1 down]
      exact ⟨rfl, rfl, rfl, rfl⟩
    · rw [((goes ready).2 down).1]
      exact ⟨rfl, rfl, rfl, rfl⟩
  · rw [waits ready]
    exact ⟨rfl, rfl, rfl, rfl⟩

theorem stagePkg_ceilZero (t4 t50 lift clock : Nat) (p : Pkg) :
    (stagePkg t4 t50 lift clock p).ceilZero = (if 4500 < t4 then true else if t4 < 4400 then false else p.ceilZero) := by
  change ((p.ceilZero || decide (4500 < t4)) && !(p.ceilZero && decide (t4 < 4400))) = _
  by_cases warm : 4500 < t4
  · rw [if_pos warm, decide_eq_true warm, decide_eq_false (by omega)]
    cases p.ceilZero <;> rfl
  · rw [if_neg warm, decide_eq_false warm]
    by_cases cold : t4 < 4400
    · rw [if_pos cold, decide_eq_true cold]
      cases p.ceilZero <;> rfl
    · rw [if_neg cold, decide_eq_false cold]
      cases p.ceilZero <;> rfl

theorem stageTemperature_law {pkg : BitVec 10} (t4 t50 lift : Nat) (s : State) (up : pkg.toNat < Config.packages) :
    ∃ t, exec (.stageTemperature pkg t4 t50 lift) s = .next t ∧ (t.pkgAt pkg.toNat).t4 = t4 ∧ (t.pkgAt pkg.toNat).lift = lift ∧
      ((s.pkgAt pkg.toNat).boot.step ≠ 4 ∨ (s.pkgAt pkg.toNat).boot.code ≠ 0 ∨ 4400 ≤ t4 ∨ lift < 1000 →
        t.mem = s.mem ∧ (t.pkgAt pkg.toNat).boot = (s.pkgAt pkg.toNat).boot) ∧
      ((s.pkgAt pkg.toNat).boot.step = 4 → (s.pkgAt pkg.toNat).boot.code = 0 → t4 < 4400 → 1000 ≤ lift →
        (t.pkgAt pkg.toNat).boot.released = decide ((s.pkgAt pkg.toNat).links &&& (s.pkgAt pkg.toNat).boot.ports ≠ 0) ∨
          (s.pkgAt pkg.toNat).boot.released = true) ∧
      (t.pkgAt pkg.toNat).hot = (if 4800 < t4 then true else if t4 < 4400 then false else (s.pkgAt pkg.toNat).hot) ∧
      (t.pkgAt pkg.toNat).ceilZero = (if 4500 < t4 then true else if t4 < 4400 then false else (s.pkgAt pkg.toNat).ceilZero) ∧
      ∀ c, c / 256 = pkg.toNat →
        (4500 < t4 → (s.pkgAt pkg.toNat).ceilZero = false → ∀ i, ((s.coreAt c).slotAt i).state = .saved → ((s.coreAt c).slotAt i).copy = false →
          ((t.coreAt c).slotAt i).kept.heatNext = some (0, s.windowOf c) ∧ ((t.coreAt c).slotAt i).areaNat 0x1CB0 8 = 0) ∧
        (t4 < 4400 → (s.pkgAt pkg.toNat).ceilZero = true → ∀ i, ((s.coreAt c).slotAt i).state = .saved → ((s.coreAt c).slotAt i).copy = false →
          ((t.coreAt c).slotAt i).areaNat 0x1CB0 8 = 48000000) ∧
        ((s.coreAt c).run ≠ none →
          (4500 < t4 → (s.pkgAt pkg.toNat).ceilZero = false → (t.coreAt c).heatCeil = 0 ∧ (t.coreAt c).heatNext = some 0) ∧
          (t4 < 4400 → (s.pkgAt pkg.toNat).ceilZero = true → (t.coreAt c).heatCeil = 48000000) ∧
          (4800 < t4 → (s.pkgAt pkg.toNat).hot = false → (t.coreAt c).preempt ≠ none)) := by
  refine ⟨_, exec_stageTemperature_of t4 t50 lift s up, ?_⟩
  generalize staged : s.modPkgAt pkg.toNat (stagePkg t4 t50 lift s.clock) = a
  have at_ : a.pkgAt pkg.toNat = stagePkg t4 t50 lift s.clock (s.pkgAt pkg.toNat) := by rw [← staged, pkgAt_modPkgAt_self]
  have boot : (a.pkgAt pkg.toNat).boot = (s.pkgAt pkg.toNat).boot := by rw [at_]; rfl
  have links : (a.pkgAt pkg.toNat).links = (s.pkgAt pkg.toNat).links := by rw [at_]; rfl
  have ready : (a.pkgAt pkg.toNat).coldReady = true ↔ t4 < 4400 ∧ 1000 ≤ lift := by
    rw [at_, Pkg.coldReady, Bool.and_eq_true, decide_eq_true_iff, decide_eq_true_iff]
    rfl
  obtain ⟨clock, cores, dies, waits, goes, -⟩ := stepFour_law a pkg.toNat
  obtain ⟨temp, power, hot, zero⟩ := stepFour_stage a pkg.toNat
  rw [ready, boot] at waits goes
  rw [links] at goes
  have core (c : Nat) : (a.stepFour pkg.toNat).coreAt c = s.coreAt c := by
    have same : (a.stepFour pkg.toNat).cores = s.cores := by rw [cores, ← staged]; rfl
    exact congrArg (fun m => Sp.get (Core.atReset c) m c) same
  have window (c : Nat) : (a.stepFour pkg.toNat).windowOf c = s.windowOf c := by
    have die : (a.stepFour pkg.toNat).dieAt (dieOf c) = s.dieAt (dieOf c) := by
      have same : (a.stepFour pkg.toNat).dies = s.dies := by rw [dies, ← staged]; rfl
      exact congrArg (fun m => Sp.get ({} : Die) m (dieOf c)) same
    unfold State.windowOf
    rw [die, clock, ← staged]
    rfl
  generalize a.stepFour pkg.toNat = b at *
  obtain ⟨mem', pkgs'⟩ := recooled_pod t4 b pkg.toNat (s.pkgAt pkg.toNat)
  have cooledRun := recooled_run t4 b pkg.toNat (s.pkgAt pkg.toNat)
  have cooledZero (c : Nat) (here : c / 256 = pkg.toNat) := recooled_zero t4 b pkg.toNat (s.pkgAt pkg.toNat) here
  have cooledBack (c : Nat) (here : c / 256 = pkg.toNat) := recooled_back t4 b pkg.toNat (s.pkgAt pkg.toNat) here
  simp only [core, window] at cooledRun cooledZero cooledBack
  generalize recooled t4 pkg.toNat (s.pkgAt pkg.toNat) b = d at *
  obtain ⟨mem'', pkgs''⟩ := askedToStop_pod t4 d pkg.toNat (s.pkgAt pkg.toNat)
  have asked := askedToStop_asked t4 d pkg.toNat (s.pkgAt pkg.toNat)
  have asks (c : Nat) (here : c / 256 = pkg.toNat) := askedToStop_asks t4 d pkg.toNat (s.pkgAt pkg.toNat) here
  generalize askedToStop t4 pkg.toNat (s.pkgAt pkg.toNat) d = t at *
  have pkgAt : t.pkgAt pkg.toNat = b.pkgAt pkg.toNat := congrArg (fun m => Sp.get ({} : Pkg) m pkg.toNat) (pkgs''.trans pkgs')
  rw [pkgAt, temp, power, hot, zero, at_, stagePkg_ceilZero]
  refine ⟨rfl, rfl, fun stays => ?_, fun step code cold lifted => ?_, rfl, rfl, fun c here => ⟨fun warm set i saved own => ?_,
    fun cold set i saved own => ?_, fun runs => ⟨fun warm set => ?_, fun cold set => ?_, fun hot cool => ?_⟩⟩⟩
  · have same : b = a := waits (by rintro ⟨step, code, cold, lifted⟩; rcases stays with h | h | h | h <;> omega)
    refine ⟨mem''.trans (mem'.trans ?_), ?_⟩
    · rw [same, ← staged]
      rfl
    · rw [same, boot]
  · by_cases down : (s.pkgAt pkg.toNat).links &&& (s.pkgAt pkg.toNat).boot.ports = 0
    · have released : (b.pkgAt pkg.toNat).boot.released = (s.pkgAt pkg.toNat).boot.released := by
        rw [(goes ⟨step, code, cold, lifted⟩).1 down, ← boot]
        rfl
      rw [released, decide_eq_false (not_not.2 down)]
      cases (s.pkgAt pkg.toNat).boot.released
      · exact .inl rfl
      · exact .inr rfl
    · rw [((goes ⟨step, code, cold, lifted⟩).2 down).1, decide_eq_true down]
      exact .inl rfl
  · rw [(asked c).slots, cooledZero c here warm set, ceiled_slotAt]
    exact setCeiling_saved saved own 0 (s.windowOf c)
  · rw [(asked c).slots, cooledBack c here cold set, ceiled_slotAt]
    exact (setCeiling_saved saved own 48000000 (s.windowOf c)).2
  · rw [(asked c).ceiling, (asked c).next, cooledZero c here warm set]
    exact ceiled_ceiling runs
  · rw [(asked c).ceiling, cooledBack c here cold set]
    exact (ceiled_ceiling runs).1
  · exact asks c here (by rw [cooledRun]; exact runs) hot cool

/-! ## A context that has not drained (R462) -/

/-- A task that ends leaves what the core runs, if that is another. -/
theorem endTask_run (s : State) (k : Nat) (i : BitVec 1) (status : BitVec 8) (cause : BitVec 16) :
    ((s.endTask k i status cause).coreAt k).run = if (s.coreAt k).run = some i then none else (s.coreAt k).run := by
  by_cases runs : (s.coreAt k).run = some i
  · rw [if_pos runs]
    exact (endTask_clears status cause runs).1
  rw [if_neg runs]
  unfold State.endTask
  dsimp only
  generalize hu : (s.draw 255).2.modPartAt ((s.coreAt k).slotAt i).part _ = u
  have core : u.coreAt k = s.coreAt k := by
    rw [← hu]
    rfl
  cases bad : ((s.coreAt k).slotAt i).badCrc with
  | none =>
    rw [checked_of_ok (by rw [core]; exact bad), coreAt_modCoreAt_self, core, if_neg runs]
    exact run_modSlotAt ..
  | some crc =>
    rw [checked_of_bad (by rw [core]; exact bad), coreAt_modCoreAt_self]
    have logged : (((u.logDie (dieOf k) (badRecord k i crc) false).modPartAt ((u.coreAt k).slotAt i).part
        (withLostRecord ((u.coreAt k).slotAt i).launch)).coreAt k).run = (s.coreAt k).run := by
      rw [← core]
      exact congrArg (fun m => (Sp.get (Core.atReset k) m k).run) (logDie_cores ..)
    rw [withoutRecord, if_neg (by rw [logged]; exact runs)]
    exact (run_modSlotAt ..).trans logged

theorem endWritten_run (s : State) (k : Nat) (i : BitVec 1) (status : BitVec 8) (cause : BitVec 16) :
    ((s.endWritten k i status cause).coreAt k).run = if (s.coreAt k).run = some i then none else (s.coreAt k).run := by
  have written : SlotsKept s (if (s.coreAt k).run = some i then s.onCore k fun t => t.cleanLines t.warm fun _ => true else s) := by
    split
    · exact SlotsKept.onCore s k fun t => SlotsKept.cleanLines ..
    · exact SlotsKept.refl s
  have kept := written.trans (SlotsKept.settleSpans _ k i false)
  rw [← kept.run k]
  exact endTask_run ..

/-- What the end of a launch's tasks leaves of the core that runs the one in slot `i`. -/
theorem endSlots_of_running (status : BitVec 8) (cause : BitVec 16) (k : Nat) (i : BitVec 1) (xs : List (BitVec 1 × Slot)) (s : State)
    (h : (s.coreAt k).run = none ∧ ((s.coreAt k).slotAt i).state = .ended ∧ (∀ x ∈ xs, x.1 ≠ i) ∨
      (s.coreAt k).run = some i ∧ ((s.coreAt k).slotAt i).badCrc = none ∧ (xs.map (·.1)).Nodup ∧ ∃ sl, sl.live = true ∧ (i, sl) ∈ xs) :
    (((xs.map fun x => (k, x)).foldl (fun s x => s.endSlot x status cause) s).coreAt k).run = none ∧
      ((((xs.map fun x => (k, x)).foldl (fun s x => s.endSlot x status cause) s).coreAt k).slotAt i).state = .ended := by
  induction xs generalizing s with
  | nil =>
    rcases h with ⟨run, ended, -⟩ | ⟨-, -, -, sl, -, mem⟩
    · exact ⟨run, ended⟩
    · exact nomatch mem
  | cons x rest ih =>
    obtain ⟨j, sl⟩ := x
    rw [List.map_cons, List.foldl_cons]
    cases live : sl.live with
    | false =>
      have same : s.endSlot (k, j, sl) status cause = s := by
        unfold State.endSlot
        rw [live]
        rfl
      rw [same]
      refine ih s (h.imp (fun ⟨run, ended, others⟩ => ⟨run, ended, fun y hy => others y (List.mem_cons_of_mem _ hy)⟩) ?_)
      rintro ⟨run, whole, distinct, sl', alive, mem⟩
      rw [List.map_cons, List.nodup_cons] at distinct
      rcases List.mem_cons.1 mem with here | later
      · rw [(Prod.mk.inj here).2, live] at alive
        exact nomatch alive
      · exact ⟨run, whole, distinct.2, sl', alive, later⟩
    | true =>
      rw [endSlot_of_live status cause s live]
      dsimp only
      have ends := endWritten_endsTask s k j status cause
      have run' := endWritten_run s k j status cause
      by_cases here : j = i
      · subst here
        rcases h with ⟨-, -, others⟩ | ⟨run, whole, distinct, -⟩
        · exact absurd rfl (others _ List.mem_cons_self)
        · rw [if_pos run] at run'
          rw [List.map_cons, List.nodup_cons] at distinct
          refine ih _ (.inl ⟨run', ends.ended whole, fun y hy same => distinct.1 ?_⟩)
          rw [← same]
          exact List.mem_map.2 ⟨y, hy, rfl⟩
      · have slot := ends.others k i fun both => here both.2.symm
        refine ih _ ?_
        rcases h with ⟨run, ended, others⟩ | ⟨run, whole, distinct, sl', alive, mem⟩
        · rw [run, if_neg (fun h => nomatch h)] at run'
          exact .inl ⟨run', by rw [slot]; exact ended, fun y hy => others y (List.mem_cons_of_mem _ hy)⟩
        · rw [run, if_neg fun same => here (Option.some.inj same).symm] at run'
          rw [List.map_cons, List.nodup_cons] at distinct
          rcases List.mem_cons.1 mem with first | later
          · exact absurd (Prod.mk.inj first).1.symm here
          · exact .inr ⟨run', by rw [slot]; exact whole, distinct.2, sl', alive, later⟩

/-- The bind records of the launch in a core that is the only one listed. -/
theorem slotsOf_single {s : State} {k : Nat} {c : Core} (only : s.cores = [(k, c)]) (part launch : Nat) : s.slotsOf part launch =
    ((([0, 1] : List (BitVec 1)).filter fun i => decide ((c.slotAt i).state ≠ .empty) && (!(c.slotAt i).copy && (decide ((c.slotAt i).part = part) &&
      decide ((c.slotAt i).launch = launch)))).map fun i => (i, c.slotAt i)).map fun x => (k, x) := by
  have one (f : BitVec 1 → Bool) (P : BitVec 1 → Prop) [∀ i, Decidable (P i)] (same : ∀ i, f i = true ↔ P i) (is : List (BitVec 1)) :
      (is.filterMap fun i => if P i then some (k, i, c.slotAt i) else none) = ((is.filter f).map fun i => (i, c.slotAt i)).map fun x => (k, x) := by
    induction is with
    | nil => rfl
    | cons i rest ih =>
      by_cases h : P i
      · rw [List.filterMap_cons_some (b := (k, i, c.slotAt i)) (by exact if_pos h), List.filter_cons_of_pos ((same i).2 h), ih]
        rfl
      · rw [List.filterMap_cons_none (by exact if_neg h), List.filter_cons_of_neg fun yes => h ((same i).1 yes), ih]
  unfold State.slotsOf
  rw [only, List.flatMap_cons, List.flatMap_nil, List.append_nil]
  exact one _ (fun i => (c.slotAt i).state ≠ .empty ∧ !(c.slotAt i).copy ∧ (c.slotAt i).part = part ∧ (c.slotAt i).launch = launch)
    (fun i => by simp only [Bool.and_eq_true, decide_eq_true_eq]) _

theorem coreAt_single {s : State} {k : Nat} {c : Core} (only : s.cores = [(k, c)]) : s.coreAt k = c := by
  unfold State.coreAt
  rw [only]
  simp [Sp.get]

theorem slot_of_run {c : Core} {i : BitVec 1} (run : c.run = some i) : c.slot = c.slotAt i := by
  unfold Core.slot Core.slotAt
  rw [run]
  have two : i = 0 ∨ i = 1 := (show ∀ i : BitVec 1, i = 0 ∨ i = 1 by decide) i
  rcases two with rfl | rfl <;> rfl

section
variable {pkg : BitVec 10} {s : State} {c : Nat} {core : Core} {i : BitVec 1} (up : pkg.toNat < Config.packages) (hot : (s.pkgAt pkg.toNat).hot = true)
  (late : (s.pkgAt pkg.toNat).hotAt + 32000000 ≤ s.clock) (only : s.cores = [(c, core)]) (here : c / 256 = pkg.toNat) (run : core.run = some i)
include up hot late only here run

theorem exec_drainDeadline_drained (drained : core.drained = true) : exec (.drainDeadline pkg) s = .next s := by
  rw [exec_drainDeadline, execDrainDeadline]
  dsimp only
  rw [if_neg (Nat.not_le.2 up), if_neg (by rw [hot]; simp; omega), only, List.filter_cons_of_neg (by rw [drained]; simp)]
  rfl

theorem exec_drainDeadline_ends (busy : core.drained = false) (live : core.slot.live = true) (whole : core.slot.badCrc = none) :
    ∃ t, exec (.drainDeadline pkg) s = .next t ∧ (t.coreAt c).run = none ∧ ((t.coreAt c).slotAt i).state = .ended := by
  rw [slot_of_run run] at live whole
  have named : ((s.cores.filter fun x => decide (pkgOf x.1 = pkg.toNat) && x.2.run.isSome && !x.2.drained).map fun x =>
      (x.2.slot.part, x.2.slot.launch)).eraseDups = [((core.slotAt i).part, (core.slotAt i).launch)] := by
    rw [only, List.filter_cons_of_pos (by rw [run, busy, show pkgOf c = pkg.toNat from here]; simp), ← slot_of_run run]
    rfl
  refine ⟨(s.modLaunch (core.slotAt i).part (core.slotAt i).launch fun l => { l with status := 3, cause := 0 }).endLaunch
    (core.slotAt i).part (core.slotAt i).launch 3 0, ?_, ?_⟩
  · rw [exec_drainDeadline, execDrainDeadline]
    dsimp only
    rw [if_neg (Nat.not_le.2 up), if_neg (by rw [hot]; simp; omega), named, List.foldl_cons, List.foldl_nil]
  · generalize noted : s.modLaunch (core.slotAt i).part (core.slotAt i).launch (fun l => { l with status := 3, cause := 0 }) = u
    have cores : u.cores = [(c, core)] := by rw [← noted]; exact only
    have at_ := coreAt_single cores
    unfold State.endLaunch
    rw [slotsOf_single cores]
    refine endSlots_of_running 3 0 c i _ u (.inr ⟨by rw [at_]; exact run, by rw [at_]; exact whole, ?_, core.slotAt i, live, ?_⟩)
    · rw [List.map_map]
      refine List.Nodup.map (fun a b h => h) (List.Nodup.filter _ (by decide))
    · refine List.mem_map.2 ⟨i, List.mem_filter.2 ⟨(show ∀ i : BitVec 1, i ∈ [0, 1] by decide) i, ?_⟩, rfl⟩
      have own : (core.slotAt i).copy = false ∧ (core.slotAt i).state ≠ .empty := by
        unfold Slot.live at live
        split at live
        all_goals simp_all
      simp [own.1, own.2]

end

/-- Settles O52: the state after reset is the base state taken through the later steps; the stage's report through ceilings and requests. -/
theorem bringUpAndStage : Obligations.BringUpAndStage := by
  unfold Obligations.BringUpAndStage
  intro pkg b t4 t50 lift s up
  dsimp only
  obtain ⟨temp, power, flash, bad, none, good, four⟩ := bootPkg_law b s.clock
  refine ⟨⟨s.resetModule pkg.toNat b, ?_, ?_, ?_⟩, temp, power, flash, bad, none, good, exec_coldHandshakeTimeout_due s up,
    exec_coldHandshakeTimeout_early s up, stageTemperature_law t4 t50 lift s up, exec_drainDeadline_early s up,
    fun c core i hot late only here run => ⟨exec_drainDeadline_drained up hot late only here run, exec_drainDeadline_ends up hot late only here run⟩⟩
  · rw [exec_moduleReset, execModuleReset, if_neg (Nat.not_le.2 up)]
  · rw [exec_lockstepMismatch, execLockstepMismatch, if_neg (Nat.not_le.2 up)]
  · obtain ⟨clock, reset, cores, dies, bytes, stands, down, comes⟩ := resetModule_law s pkg.toNat b
    refine ⟨clock, reset, cores, dies, bytes, stands, fun step cold none => ?_, fun step cold some => ?_⟩
    · obtain ⟨-, ports, -, -, released⟩ := four step
      rw [down step cold none]
      have code : (fifth (bootPkg b s.clock)).boot.code = if (bootPkg b s.clock).links &&& (bootPkg b s.clock).boot.ports = 0 then 5 else 0 := rfl
      rw [ports, if_pos none] at code
      exact ⟨code, rfl, released⟩
    · obtain ⟨-, ports, tables, entry, -⟩ := four step
      obtain ⟨pkgs, regions⟩ := comes step cold some
      obtain ⟨h1, h2, h3, h4, h5, h6, h7, h8, h9⟩ := brought_law b step tables ports entry some
      rw [pkgs]
      exact ⟨h1, h2, h3, h4, h5, h6, h7, h8, h9, regions⟩

end Sys2Proof.Proofs
end

section
/-! # O46: rotations and heat windows (R426, R430, R431, R455 to R458) -/

namespace Sys2Proof.Proofs

open Sys2Proof.Machine Sys2Proof.Laws

/-! ## Which rings rotate (R455) -/

/-- One partition more: its ring rotates if it is long enough and shares no quad with one that does. -/
def rotateStep (s : State) (d : Nat) (r : List Nat × List Nat) (p : Nat) : List Nat × List Nat :=
  if (s.ring p d).length < 2 ∨ (s.ring p d).any r.2.contains then r else (r.1 ++ [p], r.2 ++ s.ring p d)

theorem rotates_eq (s : State) (d : Nat) : s.rotates d = ((s.partsOn d).foldl (rotateStep s d) ([], [])).1 := rfl

theorem rotateStep_takes {s : State} {d p : Nat} {r : List Nat × List Nat} (long : 2 ≤ (s.ring p d).length) (apart : ∀ x ∈ r.2, x ∉ s.ring p d) :
    rotateStep s d r p = (r.1 ++ [p], r.2 ++ s.ring p d) := by
  refine if_neg ?_
  rintro (short | shared)
  · omega
  · obtain ⟨x, inRing, held⟩ := List.any_eq_true.1 shared
    exact apart x (List.contains_iff_mem.1 held) inRing

theorem rotateStep_skips {s : State} {d p : Nat} {r : List Nat × List Nat} (shared : ∃ x ∈ r.2, x ∈ s.ring p d) : rotateStep s d r p = r := by
  obtain ⟨x, held, inRing⟩ := shared
  exact if_pos (.inr (List.any_eq_true.2 ⟨x, inRing, List.contains_iff_mem.2 held⟩))

theorem rotates_none {s : State} {d : Nat} (none : s.partsOn d = []) : s.rotates d = [] := by
  rw [rotates_eq, none]
  rfl

theorem rotates_one {s : State} {d p : Nat} (one : s.partsOn d = [p]) (long : 2 ≤ (s.ring p d).length) : s.rotates d = [p] := by
  rw [rotates_eq, one, List.foldl_cons, List.foldl_nil, rotateStep_takes long fun x h => absurd h List.not_mem_nil]
  rfl

theorem rotates_two {s : State} {d p q : Nat} (two : s.partsOn d = [p, q]) (first : 2 ≤ (s.ring p d).length) (second : 2 ≤ (s.ring q d).length) :
    ((∃ x ∈ s.ring p d, x ∈ s.ring q d) → s.rotates d = [p]) ∧ ((∀ x ∈ s.ring p d, x ∉ s.ring q d) → s.rotates d = [p, q]) := by
  rw [rotates_eq, two, List.foldl_cons, List.foldl_cons, List.foldl_nil, rotateStep_takes first fun x h => absurd h List.not_mem_nil]
  constructor
  · intro shared
    rw [rotateStep_skips shared]
    rfl
  · intro apart
    rw [rotateStep_takes second apart]
    rfl

/-! ## Requests for a rotation (R456) -/

/-- A core that is asked to stop for a rotation. -/
def Turning (c : Core) : Prop := c.preempt ≠ none ∧ c.rotReq = true

theorem request_turning (c : Core) (warm : Nat) (runs : c.run ≠ none) : Turning (c.request warm true) := by
  unfold Core.request
  rw [if_neg (by simpa using runs)]
  exact ⟨Option.some_ne_none _, Bool.or_true _⟩

theorem Turning.request {c : Core} (h : Turning c) (warm : Nat) : Turning (c.request warm true) := by
  by_cases runs : c.run = none
  · unfold Core.request
    rw [if_pos (by rw [runs]; rfl)]
    exact h
  · exact request_turning c warm runs

theorem request_dies (s : State) (k : Nat) (rotation : Bool) : (s.request k rotation).dies = s.dies := by
  unfold State.request
  dsimp only
  split
  · rfl
  · split <;> rfl

section
variable (ks : List Nat) (s : State)

theorem rotationRequests_pod : (ks.foldl (fun s k => s.request k true) s).mem = s.mem ∧ (ks.foldl (fun s k => s.request k true) s).dies = s.dies := by
  induction ks generalizing s with
  | nil => exact ⟨rfl, rfl⟩
  | cons k rest ih => exact ⟨(ih _).1.trans (request_pod s k true).1, (ih _).2.trans (request_dies s k true)⟩

theorem rotationRequests_keep {j : Nat} (h : Turning (s.coreAt j)) : Turning ((ks.foldl (fun s k => s.request k true) s).coreAt j) := by
  induction ks generalizing s with
  | nil => exact h
  | cons k rest ih =>
    refine ih _ ?_
    rcases request_core s k true j with ⟨same, -⟩ | asked
    · rw [same]
      exact h
    · rw [asked]
      exact h.request _

theorem rotationRequests_turn {j : Nat} (listed : j ∈ ks) (runs : (s.coreAt j).run ≠ none) :
    Turning ((ks.foldl (fun s k => s.request k true) s).coreAt j) := by
  induction ks generalizing s with
  | nil => exact nomatch listed
  | cons k rest ih =>
    rcases List.mem_cons.1 listed with rfl | later
    · refine rotationRequests_keep rest _ ?_
      rcases request_core s j true j with ⟨-, idle⟩ | asked
      · exact absurd (idle rfl) runs
      · rw [asked]
        exact request_turning _ _ runs
    · exact ih _ later (by rw [(request_asked s k true j).run]; exact runs)

end

/-- The rotation posted: its rings are noted and their cores asked. -/
def rotationPosted (s : State) (d : Nat) : State :=
  ((s.rotates d).flatMap fun p => ringCores d (s.ring p d)).foldl (fun s k => s.request k true)
    (s.modDieAt d fun x => { x with rotating := (x.rotating ++ s.rotates d).eraseDups })

section
variable {pkg : BitVec 10} (die : BitVec 2) (s : State) (up : pkg.toNat < Config.packages)
include up

theorem exec_rotation_hot (hot : (s.pkgAt pkg.toNat).hot = true) : exec (.rotation pkg die) s = .next s ∧ exec (.rotationRebind pkg die) s = .next s := by
  constructor
  · rw [exec_rotation, execRotation]
    exact if_pos (.inr hot)
  · rw [exec_rotationRebind, execRotationRebind]
    exact if_pos (.inr hot)

theorem exec_rotation_cool (cool : (s.pkgAt pkg.toNat).hot = false) :
    exec (.rotation pkg die) s = .next (rotationPosted s (pkg.toNat * 4 + die.toNat)) := by
  rw [exec_rotation, execRotation]
  dsimp only
  rw [if_neg (by rw [cool]; simpa using up)]
  rfl

omit up in
theorem rotationPosted_law (d : Nat) : (rotationPosted s d).mem = s.mem ∧
    ((rotationPosted s d).dieAt d).rotating = ((s.dieAt d).rotating ++ s.rotates d).eraseDups := by
  obtain ⟨mem, dies⟩ := rotationRequests_pod ((s.rotates d).flatMap fun p => ringCores d (s.ring p d))
    (s.modDieAt d fun x => { x with rotating := (x.rotating ++ s.rotates d).eraseDups })
  refine ⟨mem, ?_⟩
  have at_ : (rotationPosted s d).dieAt d = (s.modDieAt d fun x => { x with rotating := (x.rotating ++ s.rotates d).eraseDups }).dieAt d :=
    congrArg (fun m => Sp.get ({} : Die) m d) dies
  rw [at_, dieAt_modDieAt_self]

/-! ## Contexts move (R455, R456) -/

/-- The rings whose cores have all stopped. -/
def ringsDue (s : State) (d : Nat) : List Nat :=
  (s.dieAt d).rotating.filter fun p => (ringCores d (s.ring p d)).all fun k => (s.coreAt k).run.isNone

theorem exec_rotationRebind_cool (cool : (s.pkgAt pkg.toNat).hot = false) : exec (.rotationRebind pkg die) s =
    .next ((ringsDue s (pkg.toNat * 4 + die.toNat)).foldl (fun t p => (t.rebind p (pkg.toNat * 4 + die.toNat)).modDieAt (pkg.toNat * 4 + die.toNat)
      fun x => { x with rotating := x.rotating.erase p }) s) := by
  rw [exec_rotationRebind, execRotationRebind]
  dsimp only
  rw [if_neg (by rw [cool]; simpa using up)]
  rfl

/-- Where no ring is due nothing moves. -/
theorem exec_rotationRebind_idle (idle : ringsDue s (pkg.toNat * 4 + die.toNat) = []) : exec (.rotationRebind pkg die) s = .next s := by
  cases hot : (s.pkgAt pkg.toNat).hot with
  | true => exact (exec_rotation_hot die s up hot).2
  | false =>
    rw [exec_rotationRebind_cool die s up hot, idle]
    rfl

end

theorem ringCores_nodup (s : State) (p d : Nat) : (ringCores d (s.ring p d)).Nodup := by
  have quads : (s.ring p d).Nodup := List.Nodup.filter _ List.nodup_range
  unfold ringCores
  refine List.nodup_flatMap.2 ⟨fun q _ => List.Nodup.map (fun a b h => by omega) List.nodup_range, ?_⟩
  refine quads.imp fun {q r} different => ?_
  intro k first second
  obtain ⟨c, hc, rfl⟩ := List.mem_map.1 first
  obtain ⟨e, he, same⟩ := List.mem_map.1 second
  have := List.mem_range.1 hc
  have := List.mem_range.1 he
  omega

/-- Each core of a list with no two alike takes what it is given, and no other core changes. -/
theorem coreAt_modCores (ks : List Nat) (distinct : ks.Nodup) (f : Nat → Core → Core) (n : Nat) (hn : n ≤ ks.length) (s : State) :
    (∀ k, k ∉ ks → ((List.range n).foldl (fun t i => t.modCoreAt (ks.getD i 0) (f i)) s).coreAt k = s.coreAt k) ∧
      ∀ i, i < ks.length → ((List.range n).foldl (fun t i => t.modCoreAt (ks.getD i 0) (f i)) s).coreAt (ks.getD i 0) =
        if i < n then f i (s.coreAt (ks.getD i 0)) else s.coreAt (ks.getD i 0) := by
  have at_ (i : Nat) (h : i < ks.length) : ks.getD i 0 = ks[i] := by simp [h]
  induction n with
  | zero => exact ⟨fun _ _ => rfl, fun _ _ => rfl⟩
  | succ n ih =>
    obtain ⟨others, own⟩ := ih (by omega)
    rw [List.range_succ, List.foldl_append, List.foldl_cons, List.foldl_nil]
    refine ⟨fun k absent => ?_, fun i hi => ?_⟩
    · rw [coreAt_modCoreAt, if_neg fun same => absent ?_, others k absent]
      rw [same, at_ n (by omega)]
      exact List.getElem_mem _
    · rw [coreAt_modCoreAt]
      by_cases here : i = n
      · subst here
        rw [if_pos rfl, own i hi, if_neg (by omega), if_pos (by omega)]
      · rw [if_neg fun same => here ?_, own i hi]
        · by_cases below : i < n
          · rw [if_pos below, if_pos (by omega)]
          · rw [if_neg below, if_neg (by omega)]
        · rw [at_ i hi, at_ n (by omega)] at same
          exact (distinct.getElem_inj_iff).1 same

theorem rebind_law {s : State} {p d : Nat} (long : 2 ≤ (s.ring p d).length) : (s.rebind p d).mem = s.mem ∧ (s.rebind p d).dies = s.dies ∧
    (∀ k, k ∉ ringCores d (s.ring p d) → (s.rebind p d).coreAt k = s.coreAt k) ∧
    ∀ i, i < (ringCores d (s.ring p d)).length → (s.rebind p d).coreAt ((ringCores d (s.ring p d)).getD i 0) =
      (s.coreAt ((ringCores d (s.ring p d)).getD i 0)).takeContexts (s.coreAt ((ringCores d (s.ring p d)).getD
        ((i + (ringCores d (s.ring p d)).length - 4) % (ringCores d (s.ring p d)).length) 0)) := by
  have distinct := ringCores_nodup s p d
  have moved : s.rebind p d = (List.range (ringCores d (s.ring p d)).length).foldl (fun t i => t.modCoreAt ((ringCores d (s.ring p d)).getD i 0)
      fun c => c.takeContexts (s.coreAt ((ringCores d (s.ring p d)).getD
        ((i + (ringCores d (s.ring p d)).length - 4) % (ringCores d (s.ring p d)).length) 0))) s := by
    unfold State.rebind
    dsimp only
    rw [if_neg (by omega)]
  rw [moved]
  generalize ringCores d (s.ring p d) = ks at distinct
  have pod (is : List Nat) (f : Nat → Core → Core) (u : State) : (is.foldl (fun t i => t.modCoreAt (ks.getD i 0) (f i)) u).mem = u.mem ∧
      (is.foldl (fun t i => t.modCoreAt (ks.getD i 0) (f i)) u).dies = u.dies := by
    induction is generalizing u with
    | nil => exact ⟨rfl, rfl⟩
    | cons i rest ih => exact ih (u.modCoreAt (ks.getD i 0) (f i))
  obtain ⟨others, own⟩ := coreAt_modCores ks distinct (fun i c => c.takeContexts (s.coreAt (ks.getD ((i + ks.length - 4) % ks.length) 0)))
    ks.length le_rfl s
  obtain ⟨mem, dies⟩ := pod (List.range ks.length) (fun i c => c.takeContexts (s.coreAt (ks.getD ((i + ks.length - 4) % ks.length) 0))) s
  exact ⟨mem, dies, others, fun i hi => (own i hi).trans (if_pos hi)⟩

theorem rotation_rebinds {pkg : BitVec 10} {die : BitVec 2} {d p : Nat} {ks : List Nat} {s : State} (up : pkg.toNat < Config.packages)
    (here : pkg.toNat * 4 + die.toNat = d) (cores : ringCores d (s.ring p d) = ks) (long : 2 ≤ (s.ring p d).length)
    (cool : (s.pkgAt pkg.toNat).hot = false) (turning : (s.dieAt d).rotating = [p]) (idle : ∀ k ∈ ks, (s.coreAt k).run = none) :
    ∃ t, exec (.rotationRebind pkg die) s = .next t ∧ (t.dieAt d).rotating = [] ∧ t.mem = s.mem ∧ (∀ k, k ∉ ks → t.coreAt k = s.coreAt k) ∧
      ∀ i, i < ks.length → (t.coreAt (ks.getD i 0)).slot0 = (s.coreAt (ks.getD ((i + ks.length - 4) % ks.length) 0)).slot0 ∧
        (t.coreAt (ks.getD i 0)).slot1 = (s.coreAt (ks.getD ((i + ks.length - 4) % ks.length) 0)).slot1 := by
  have run := exec_rotationRebind_cool die s up cool
  have due : ringsDue s d = [p] := by
    unfold ringsDue
    rw [turning, List.filter_cons_of_pos]
    · rfl
    · rw [cores]
      exact List.all_eq_true.2 fun k hk => by rw [idle k hk]; rfl
  rw [here, due, List.foldl_cons, List.foldl_nil] at run
  obtain ⟨mem, dies, others, own⟩ := rebind_law long
  rw [cores] at others own
  refine ⟨_, run, ?_, mem, others, fun i hi => ?_⟩
  · have same : (s.rebind p d).dieAt d = s.dieAt d := congrArg (fun m => Sp.get ({} : Die) m d) dies
    rw [dieAt_modDieAt_self, same, turning]
    simp
  · have core := own i hi
    exact ⟨(congrArg Core.slot0 core :), (congrArg Core.slot1 core :)⟩

/-- A ring with a core that still runs does not move. -/
theorem rotation_waits {pkg : BitVec 10} {die : BitVec 2} {d p : Nat} {ks : List Nat} {s : State} (up : pkg.toNat < Config.packages)
    (here : pkg.toNat * 4 + die.toNat = d) (cores : ringCores d (s.ring p d) = ks) (turning : (s.dieAt d).rotating = [p])
    (busy : ∃ k ∈ ks, (s.coreAt k).run ≠ none) : exec (.rotationRebind pkg die) s = .next s := by
  refine exec_rotationRebind_idle die s up ?_
  obtain ⟨k, listed, runs⟩ := busy
  unfold ringsDue
  rw [here, turning, List.filter_cons_of_neg]
  · rfl
  · rw [cores]
    intro all
    exact runs (by simpa using List.all_eq_true.1 all k listed)

theorem rotation_asks {pkg : BitVec 10} {die : BitVec 2} {d p : Nat} {ks : List Nat} {s : State} (up : pkg.toNat < Config.packages)
    (here : pkg.toNat * 4 + die.toNat = d) (cores : ringCores d (s.ring p d) = ks) (one : s.partsOn d = [p]) (long : 2 ≤ (s.ring p d).length)
    (cool : (s.pkgAt pkg.toNat).hot = false) : ∃ t, exec (.rotation pkg die) s = .next t ∧ p ∈ (t.dieAt d).rotating ∧ t.mem = s.mem ∧
      ∀ k ∈ ks, (s.coreAt k).run ≠ none → (t.coreAt k).preempt ≠ none ∧ (t.coreAt k).rotReq = true := by
  have run := exec_rotation_cool die s up cool
  obtain ⟨mem, rotating⟩ := rotationPosted_law s d
  rw [here] at run
  rw [rotates_one one long] at rotating
  refine ⟨_, run, ?_, mem, fun k listed runs => ?_⟩
  · rw [rotating]
    exact List.mem_eraseDups.2 (List.mem_append_right _ List.mem_cons_self)
  · refine rotationRequests_turn _ _ ?_ runs
    rw [rotates_one one long, List.flatMap_cons, List.flatMap_nil, List.append_nil, cores]
    exact listed

/-- Of two rings that share a quad the first alone is noted. -/
theorem rotation_notes {pkg : BitVec 10} {die : BitVec 2} {d p q : Nat} {s : State} (up : pkg.toNat < Config.packages)
    (here : pkg.toNat * 4 + die.toNat = d) (cool : (s.pkgAt pkg.toNat).hot = false) (still : (s.dieAt d).rotating = []) (two : s.partsOn d = [p, q])
    (different : p ≠ q) (first : 2 ≤ (s.ring p d).length) (second : 2 ≤ (s.ring q d).length) :
    ∃ t, exec (.rotation pkg die) s = .next t ∧ t.mem = s.mem ∧ ((∃ x ∈ s.ring p d, x ∈ s.ring q d) → (t.dieAt d).rotating = [p]) ∧
      ((∀ x ∈ s.ring p d, x ∉ s.ring q d) → (t.dieAt d).rotating = [p, q]) := by
  have run := exec_rotation_cool die s up cool
  obtain ⟨mem, rotating⟩ := rotationPosted_law s d
  obtain ⟨shared, apart⟩ := rotates_two two first second
  rw [here] at run
  rw [still, List.nil_append] at rotating
  refine ⟨_, run, mem, fun h => ?_, fun h => ?_⟩
  · rw [rotating, shared h]
    rfl
  · rw [rotating, apart h]
    simp [List.eraseDups_cons, different.symm]

theorem rotation_empty {pkg : BitVec 10} {die : BitVec 2} {d : Nat} {s : State} (up : pkg.toNat < Config.packages)
    (here : pkg.toNat * 4 + die.toNat = d) (none : s.partsOn d = []) (still : (s.dieAt d).rotating = []) :
    ∃ t, exec (.rotation pkg die) s = .next t ∧ (t.dieAt d).rotating = [] ∧ t.cores = s.cores ∧ t.mem = s.mem := by
  cases hot : (s.pkgAt pkg.toNat).hot with
  | true => exact ⟨s, (exec_rotation_hot die s up hot).1, still, rfl, rfl⟩
  | false =>
    have run := exec_rotation_cool die s up hot
    obtain ⟨mem, rotating⟩ := rotationPosted_law s d
    rw [here] at run
    refine ⟨_, run, ?_, ?_, mem⟩
    · rw [rotating, still, rotates_none none]
      rfl
    · unfold rotationPosted
      rw [rotates_none none]
      rfl

/-! ## Heat windows (R426, R430, R431) -/

/-- The package's listed cores that run a task. -/
def runningOn (s : State) (p : Nat) : List (Nat × Core) := s.cores.filter fun x => decide (x.1 / 256 = p) && x.2.run.isSome

/-- What a package has for its running tasks, where `excess` is to be repaid. -/
def roomFor (s : State) (p excess : Nat) : Nat :=
  packageBudget (s.pkgAt p).lift - excess - 4096 * ((s.pkgAt p).coreCount - (runningOn s p).length)

/-- A core of the package begins its window. -/
def begunAt (p j : Nat) (c : Core) : Core := if j / 256 = p then c.newWindow else c

/-- The package's cores with their new window begun. -/
def windowsBegun (s : State) (p : Nat) : List (Nat × Core) := s.cores.map fun x => (x.1, begunAt p x.1 x.2)

/-- The package with what it has posted settled. -/
def postSettled (k : Pkg) : Pkg := { k with excess := (k.excess + k.posted + 4096 * k.coreCount) - packageBudget k.lift, posted := 0 }

/-- The state before the budgets are divided. -/
def windowBegun (s : State) : State := { s with cores := windowsBegun s (s.cur / 256) }.modPkgAt (s.cur / 256) postSettled

theorem exec_heatWindow_of (s : State) : exec .heatWindow s = .next ((windowBegun s).redistribute (s.cur / 256)) := by
  have map : (s.cores.map fun (x : Nat × Core) => if x.1 / 256 = s.cur / 256 then (x.1, x.2.newWindow) else x) = windowsBegun s (s.cur / 256) :=
    List.map_congr_left fun x _ => by unfold begunAt; split <;> rfl
  rw [exec_heatWindow, execHeatWindow]
  unfold pkgOf
  rw [map]
  rfl

/-- The budget of a running task, cut to `share`. -/
def cutTo (share p : Nat) (j : Nat) (c : Core) : Core := if j / 256 = p ∧ c.run.isSome then { c with heatBud := min c.heatSet share } else c

theorem foldl_add_sum {α : Type} (f : α → Nat) (l : List α) (n : Nat) : l.foldl (fun n x => n + f x) n = n + (l.map f).sum := by
  induction l generalizing n with
  | nil => rfl
  | cons x rest ih => rw [List.foldl_cons, ih, List.map_cons, List.sum_cons, Nat.add_assoc]

/-- The budgets stand where they fit, and else are cut to equal shares. -/
theorem redistribute_eq (s : State) (p : Nat) : s.redistribute p =
    if ((runningOn s p).map (·.2.heatSet)).sum ≤ roomFor s p (s.pkgAt p).excess then s
    else { s with cores := s.cores.map fun x => (x.1, cutTo (roomFor s p (s.pkgAt p).excess / (runningOn s p).length) p x.1 x.2) } := by
  have sum : (runningOn s p).foldl (fun n x => n + x.2.heatSet) 0 = ((runningOn s p).map (·.2.heatSet)).sum := by
    rw [foldl_add_sum, Nat.zero_add]
  have map (share : Nat) : (s.cores.map fun (x : Nat × Core) => if x.1 / 256 = p ∧ x.2.run.isSome then (x.1, { x.2 with heatBud := min x.2.heatSet share })
      else x) = s.cores.map fun x => (x.1, cutTo share p x.1 x.2) :=
    List.map_congr_left fun x _ => by unfold cutTo; split <;> rfl
  unfold State.redistribute pkgOf
  dsimp only
  rw [map, ← sum]
  rfl

/-- Records changed in place, which stay in their package and at their task. -/
theorem runningOn_map {s u : State} {p : Nat} {f : Nat → Core → Core} (cores : u.cores = s.cores.map fun x => (x.1, f x.1 x.2))
    (run : ∀ j c, (f j c).run = c.run) : runningOn u p = (runningOn s p).map fun x => (x.1, f x.1 x.2) := by
  unfold runningOn
  rw [cores, List.filter_map]
  congr 1
  refine List.filter_congr fun x _ => ?_
  simp only [Function.comp, run]

theorem newWindow_run (c : Core) : c.newWindow.run = c.run := rfl

theorem cutTo_run (share p j : Nat) (c : Core) : (cutTo share p j c).run = c.run := by
  unfold cutTo
  split <;> rfl

theorem of_running {s : State} {p : Nat} {x : Nat × Core} (h : x ∈ runningOn s p) : x.1 / 256 = p ∧ x.2.run.isSome = true := by
  have both := (List.mem_filter.1 h).2
  rw [Bool.and_eq_true, decide_eq_true_iff] at both
  exact both

section
variable (s : State) (p : Nat) (here : s.cur / 256 = p)
include here

theorem windowBegun_pkg : (windowBegun s).pkgAt p = postSettled (s.pkgAt p) := by
  rw [windowBegun, here, pkgAt_modPkgAt_self]
  rfl

theorem windowBegun_cores : (windowBegun s).cores = s.cores.map fun x => (x.1, begunAt p x.1 x.2) := by
  rw [windowBegun, here]
  rfl

theorem windowBegun_core (k : Nat) : (windowBegun s).coreAt k = if k / 256 = p then (s.coreAt k).newWindow else s.coreAt k := by
  unfold State.coreAt
  rw [windowBegun_cores s p here]
  exact get_map_at (Core.atReset k) (begunAt p) s.cores k (ite_self _)

theorem windowBegun_running : runningOn (windowBegun s) p = (runningOn s p).map fun x => (x.1, x.2.newWindow) := by
  rw [runningOn_map (windowBegun_cores s p here) fun j c => by unfold begunAt; split <;> rfl]
  refine List.map_congr_left fun x hx => ?_
  unfold begunAt
  rw [if_pos (of_running hx).1]

/-- What the running tasks ask for. -/
theorem windowBegun_asked : ((runningOn (windowBegun s) p).map (·.2.heatSet)).sum = ((runningOn s p).map fun x => x.2.heatNext.getD x.2.heatSet).sum := by
  rw [windowBegun_running s p here, List.map_map]
  rfl

theorem windowBegun_room (excess : Nat) : roomFor (windowBegun s) p excess = roomFor s p excess := by
  unfold roomFor
  rw [windowBegun_running s p here, List.length_map, windowBegun_pkg s p here]
  rfl

end

theorem sum_le_of_each {α : Type} (f : α → Nat) (share : Nat) (l : List α) (each : ∀ x ∈ l, f x ≤ share) : (l.map f).sum ≤ l.length * share := by
  have bounded := List.sum_le_card_nsmul (l.map f) share (by
    intro n hn
    obtain ⟨x, hx, rfl⟩ := List.mem_map.1 hn
    exact each x hx)
  simpa using bounded

/-- The budgets after the division keep within the room, and none exceeds what was asked. -/
theorem redistribute_law (u : State) (p : Nat) : (u.redistribute p).mem = u.mem ∧ (u.redistribute p).pkgs = u.pkgs ∧
    ((∀ x ∈ runningOn u p, x.2.heatBud = x.2.heatSet) →
      ((runningOn (u.redistribute p) p).map (·.2.heatBud)).sum ≤ roomFor u p (u.pkgAt p).excess) ∧
    ∀ k, (u.redistribute p).coreAt k = u.coreAt k ∨
      ((k / 256 = p ∧ (u.coreAt k).run ≠ none ∧ ¬((runningOn u p).map (·.2.heatSet)).sum ≤ roomFor u p (u.pkgAt p).excess) ∧
        ∃ n, n ≤ (u.coreAt k).heatSet ∧ (u.redistribute p).coreAt k = { u.coreAt k with heatBud := n }) := by
  rw [redistribute_eq]
  by_cases fits : ((runningOn u p).map (·.2.heatSet)).sum ≤ roomFor u p (u.pkgAt p).excess
  · rw [if_pos fits]
    refine ⟨rfl, rfl, fun same => ?_, fun k => .inl rfl⟩
    rw [List.map_congr_left same]
    exact fits
  · rw [if_neg fits]
    generalize room : roomFor u p (u.pkgAt p).excess = avail
    refine ⟨rfl, rfl, fun _ => ?_, fun k => ?_⟩
    · rw [runningOn_map (s := u) (f := cutTo (avail / (runningOn u p).length) p) rfl (cutTo_run _ p), List.map_map]
      have bounded := sum_le_of_each ((fun x : Nat × Core => x.2.heatBud) ∘ fun x => (x.1, cutTo (avail / (runningOn u p).length) p x.1 x.2))
        (avail / (runningOn u p).length) (runningOn u p) fun x hx => by
          simp only [Function.comp, cutTo]
          rw [if_pos (of_running hx)]
          exact min_le_right _ _
      exact bounded.trans (Nat.mul_div_le _ _)
    · have at_ : ({ u with cores := u.cores.map fun x => (x.1, cutTo (avail / (runningOn u p).length) p x.1 x.2) } : State).coreAt k =
          cutTo (avail / (runningOn u p).length) p k (u.coreAt k) :=
        get_map_at (Core.atReset k) (cutTo (avail / (runningOn u p).length) p) u.cores k (if_neg fun both => nomatch both.2)
      rw [at_]
      unfold cutTo
      split
      · next both =>
        exact .inr ⟨⟨both.1, Option.isSome_iff_ne_none.1 both.2, by rw [← room] at *; exact fits⟩, _, min_le_left _ _, rfl⟩
      · exact .inl rfl

/-- A new window, core by core: `asked` is the budget that was written last. -/
theorem heatWindow_law (s : State) {p : Nat} (here : s.cur / 256 = p) :
    let excess := (s.pkgAt p).excess + (s.pkgAt p).posted + 4096 * (s.pkgAt p).coreCount - packageBudget (s.pkgAt p).lift
    let asked := fun k => (s.coreAt k).heatNext.getD (s.coreAt k).heatSet
    ∃ t, exec .heatWindow s = .next t ∧ t.mem = s.mem ∧ (t.pkgAt p).posted = 0 ∧ (t.pkgAt p).excess = excess ∧
      ((runningOn t p).map (·.2.heatBud)).sum ≤ roomFor s p excess ∧
      ∀ k, (k / 256 = p → { t.coreAt k with heatBud := (s.coreAt k).heatBud } =
          { s.coreAt k with heatAcc := 0, heatSet := asked k, heatNext := none } ∧ (t.coreAt k).heatBud ≤ asked k ∧
          ((s.coreAt k).run = none ∨ ((runningOn s p).map fun x => x.2.heatNext.getD x.2.heatSet).sum ≤ roomFor s p excess → (t.coreAt k).heatBud = asked k)) ∧
        (k / 256 ≠ p → t.coreAt k = s.coreAt k) := by
  intro excess asked
  have run := exec_heatWindow_of s
  rw [here] at run
  obtain ⟨mem, pkgs, within, cores⟩ := redistribute_law (windowBegun s) p
  have pkg : ((windowBegun s).redistribute p).pkgAt p = postSettled (s.pkgAt p) :=
    (congrArg (fun m => Sp.get ({} : Pkg) m p) pkgs).trans (windowBegun_pkg s p here)
  have settled : ((windowBegun s).pkgAt p).excess = excess := congrArg Pkg.excess (windowBegun_pkg s p here)
  rw [settled, windowBegun_room s p here] at within cores
  rw [windowBegun_asked s p here] at cores
  refine ⟨_, run, mem, congrArg Pkg.posted pkg, congrArg Pkg.excess pkg, within fun x hx => ?_, fun k => ⟨fun inside => ?_, fun outside => ?_⟩⟩
  · rw [windowBegun_running s p here] at hx
    obtain ⟨y, -, rfl⟩ := List.mem_map.1 hx
    rfl
  · have begun := windowBegun_core s p here k
    rw [if_pos inside] at begun
    rcases cores k with same | ⟨⟨-, runs, tight⟩, n, least, cut⟩
    · rw [same, begun]
      exact ⟨rfl, le_rfl, fun _ => rfl⟩
    · rw [begun] at cut least runs
      rw [cut]
      refine ⟨rfl, least, fun free => ?_⟩
      rcases free with idle | fits
      · exact absurd idle runs
      · exact absurd fits tight
  · have begun := windowBegun_core s p here k
    rw [if_neg outside] at begun
    rcases cores k with same | ⟨⟨inside, -⟩, -⟩
    · rw [same, begun]
    · exact absurd inside outside

/-- Settles O46: a rotation through its rings, a heat window core by core. -/
theorem rotationsAndHeatWindows : Obligations.RotationsAndHeatWindows := by
  unfold Obligations.RotationsAndHeatWindows
  refine ⟨fun pkg die p s up => ?_, fun s => heatWindow_law s rfl⟩
  dsimp only
  generalize here : pkg.toNat * 4 + die.toNat = d
  generalize cores : ringCores d (s.ring p d) = ks
  refine ⟨exec_rotation_hot die s up, fun still => exec_rotationRebind_idle die s up ?_,
    fun q cool still two different first second => rotation_notes up here cool still two different first second,
    fun one long => ⟨rotation_asks up here cores one long, rotation_waits up here cores, rotation_rebinds up here cores long⟩,
    fun none still => rotation_empty up here none still⟩
  unfold ringsDue
  rw [here, still]
  rfl

end Sys2Proof.Proofs
end

section
/-! # O45: contexts come back as they were saved (R33, R371, R399 to R401, R418, R430) -/

namespace Sys2Proof.Proofs

open Sys2Proof.Machine Sys2Proof.Laws

/-! ## Bytes of a context slot -/

theorem field_all {bs : List Byte} {n : Nat} (h : bs.length = n) : field bs 0 n = bs := by rw [← h, field_whole]

section
variable (sl : Slot)

theorem area_setArea (off : Nat) (bs : List Byte) (j : Nat) :
    Sp.get 0 (sl.setArea off bs).area j = if off ≤ j ∧ j < off + bs.length then bs.getD (j - off) 0 else Sp.get 0 sl.area j := by
  have below (n : Nat) (h : j < off) (m : Sp Byte) :
      Sp.get 0 ((List.range n).foldl (fun m i => Sp.set 0 m (off + i) (bs.getD i 0)) m) j = Sp.get 0 m j := by
    induction n with
    | zero => rfl
    | succ n ih => rw [List.range_succ, List.foldl_append, List.foldl_cons, List.foldl_nil, get_set, if_neg (by omega), ih]
  unfold Slot.setArea
  by_cases h : j < off
  · rw [if_neg (by omega)]
    exact below _ h _
  · obtain ⟨i, rfl⟩ : ∃ i, j = off + i := ⟨j - off, by omega⟩
    refine (get_foldl_set_from 0 (fun i => bs.getD i 0) off bs.length i sl.area).trans ?_
    by_cases inside : i < bs.length
    · rw [if_pos inside, if_pos (by omega), Nat.add_sub_cancel_left]
    · rw [if_neg inside, if_neg (by omega)]

theorem slot_setArea_field {off p n : Nat} {bs : List Byte} (h : p + n ≤ bs.length) :
    (sl.setArea off bs).areaNat (off + p) n = leNat (field bs p n) := by
  refine congrArg leNat (List.ext_getElem ?_ fun i h1 h2 => ?_)
  · simp [field]; omega
  · have hi : i < n := by simpa using h1
    rw [List.getElem_map, List.getElem_range, area_setArea, if_pos (by omega)]
    simp only [field, List.getElem_take, List.getElem_drop]
    rw [show off + p + i - off = p + i by omega, List.getD_eq_getElem _ _ (by omega)]

theorem slot_setArea_below {off p n : Nat} {bs : List Byte} (h : p + n ≤ off) : (sl.setArea off bs).areaNat p n = sl.areaNat p n := by
  refine congrArg leNat (List.map_congr_left fun i hi => ?_)
  have := List.mem_range.1 hi
  rw [area_setArea, if_neg (by omega)]

/-- Words written one behind the other. -/
def putWords (off : Nat) (vs : List Word) : Slot := sl.setArea off (vs.flatMap fun v => leBytes 8 v.toNat)

theorem putWords_at {off i : Nat} {vs : List Word} {v : Word} (h : vs[i]? = some v) : (putWords sl off vs).areaNat (off + 8 * i) 8 = v.toNat := by
  have place : field (vs.flatMap fun v => leBytes 8 v.toNat) (8 * i) 8 = leBytes 8 v.toNat := field_flatMap (fun _ _ => leBytes_length ..) h
  have long : (vs.flatMap fun v => leBytes 8 v.toNat).length = 8 * vs.length := length_flatMap_const fun _ _ => leBytes_length ..
  have inside : i < vs.length := (List.getElem?_eq_some_iff.1 h).1
  rw [putWords, slot_setArea_field _ (by omega), place, leNat_word]

theorem putWords_below {off p n : Nat} {vs : List Word} (h : p + n ≤ off) : (putWords sl off vs).areaNat p n = sl.areaNat p n :=
  slot_setArea_below sl h

theorem setArea_kept_fields (off : Nat) (bs : List Byte) : ∃ m, sl.setArea off bs = { sl with area := m } := ⟨_, rfl⟩

end

/-! ## The context as it is saved (R401) -/

section
variable (c : Core)

/-- The four clusters, without their loops and FIFOs. -/
def slotClusters : Slot := lanes.foldl (fun x l => x.setArea (0x400 * laneIdx l) ({ c.cluster l with loops := [] }.save {} {})) { c.slot with area := [] }

/-- Then the shape registers. -/
def slotShapes : Slot :=
  (List.range 16).foldl (fun x i => x.setArea (0x1000 + 128 * i) (leBytes 128 (Sp.get 0 c.shp i).toNat)) (slotClusters c)

/-- Then the error queue, the shares, the system registers, the string and the rest. -/
def slotWords : Slot :=
  putWords (putWords (putWords (putWords (putWords (slotShapes c) 0x1800 c.oeq) 0x1A00 (c.shares.map word)) 0x1C00
    [c.oeqstat, c.mcmask, c.rstlbl, c.rstidx, c.stallCnt, c.tscratch, word c.heatBud, c.inj]) 0x1C40
    [c.str.head, c.str.tail, c.str.seq, word (c.str.carry.toNat + c.str.stat.toNat * 2 ^ 32 + c.str.flags * 2 ^ 40)]) 0x1C80
    ((List.range 5).map (fun k => word (Sp.get 0 c.barCount k)) ++ [word c.xseq, word c.heatCeil])

theorem saveContext_eq (window : Nat) : ∃ kept, kept.tvec = c.tvec ∧ kept.chksb = c.chksb ∧ kept.stallim = c.stallim ∧ kept.mirror = c.mirror ∧
    kept.heatNext = c.heatNext.map (fun v => (v, window)) ∧ c.saveContext window = c.modSlot fun _ => { slotWords c with kept := kept } :=
  ⟨_, rfl, rfl, rfl, rfl, rfl, rfl⟩

theorem slotClusters_field (l : Lane) {p n : Nat} (h : p + n ≤ 0x200) : (slotClusters c).areaNat (0x400 * laneIdx l + p) n =
    leNat (field ({ c.cluster l with loops := [] }.save {} {}) p n) := by
  have here (x : Slot) (k : Lane) : (x.setArea (0x400 * laneIdx k) ({ c.cluster k with loops := [] }.save {} {})).areaNat (0x400 * laneIdx k + p) n =
      leNat (field ({ c.cluster k with loops := [] }.save {} {}) p n) := slot_setArea_field x (by rw [length_save]; exact h)
  have below (x : Slot) (k : Lane) (bs : List Byte) (before : laneIdx l < laneIdx k) :
      (x.setArea (0x400 * laneIdx k) bs).areaNat (0x400 * laneIdx l + p) n = x.areaNat (0x400 * laneIdx l + p) n := slot_setArea_below x (by omega)
  unfold slotClusters lanes
  simp only [List.foldl_cons, List.foldl_nil]
  cases l
  · rw [below _ .K _ (by decide), below _ .S _ (by decide), below _ .E _ (by decide), here]
  · rw [below _ .K _ (by decide), below _ .S _ (by decide), here]
  · rw [below _ .K _ (by decide), here]
  · rw [here]

theorem slotShapes_below {p n : Nat} (h : p + n ≤ 0x1000) : (slotShapes c).areaNat p n = (slotClusters c).areaNat p n := by
  have all (is : List Nat) (x : Slot) :
      (is.foldl (fun x i => x.setArea (0x1000 + 128 * i) (leBytes 128 (Sp.get 0 c.shp i).toNat)) x).areaNat p n = x.areaNat p n := by
    induction is generalizing x with
    | nil => rfl
    | cons i rest ih => rw [List.foldl_cons, ih, slot_setArea_below _ (by omega)]
  exact all _ _

theorem slotShapes_at {j : Nat} (hj : j < 16) : (slotShapes c).areaNat (0x1000 + 128 * j) 128 = (Sp.get 0 c.shp j).toNat := by
  have upTo (n : Nat) (h : j < n) (x : Slot) : ((List.range n).foldl (fun x i => x.setArea (0x1000 + 128 * i)
      (leBytes 128 (Sp.get 0 c.shp i).toNat)) x).areaNat (0x1000 + 128 * j) 128 = (Sp.get 0 c.shp j).toNat := by
    induction n with
    | zero => exact absurd h (Nat.not_lt_zero j)
    | succ n ih =>
      rw [List.range_succ, List.foldl_append, List.foldl_cons, List.foldl_nil]
      by_cases last : j = n
      · subst last
        have whole := slot_setArea_field (((List.range j).foldl (fun x i => x.setArea (0x1000 + 128 * i) (leBytes 128 (Sp.get 0 c.shp i).toNat)) x))
          (off := 0x1000 + 128 * j) (p := 0) (n := 128) (bs := leBytes 128 (Sp.get 0 c.shp j).toNat) (by rw [leBytes_length])
        refine whole.trans ?_
        rw [field_all (leBytes_length ..), leNat_leBytes]
        exact Nat.mod_eq_of_lt (by rw [show (256 : Nat) = 2 ^ 8 by decide, ← Nat.pow_mul]; exact (Sp.get 0 c.shp j).isLt)
      · rw [slot_setArea_below _ (by omega), ih (by omega)]
  exact upTo 16 hj _

/-- What lies below the words is as the shapes left it. -/
theorem slotWords_below {p n : Nat} (h : p + n ≤ 0x1800) : (slotWords c).areaNat p n = (slotShapes c).areaNat p n := by
  unfold slotWords
  rw [putWords_below _ (by omega), putWords_below _ (by omega), putWords_below _ (by omega), putWords_below _ (by omega), putWords_below _ (by omega)]

theorem slotWords_oeq {j : Nat} {v : Word} (h : c.oeq[j]? = some v) (hj : j < 64) : (slotWords c).areaNat (0x1800 + 8 * j) 8 = v.toNat := by
  unfold slotWords
  rw [putWords_below _ (by omega), putWords_below _ (by omega), putWords_below _ (by omega), putWords_below _ (by omega), putWords_at _ h]

theorem slotWords_system {i : Nat} {v : Word} (h : [c.oeqstat, c.mcmask, c.rstlbl, c.rstidx, c.stallCnt, c.tscratch, word c.heatBud, c.inj][i]? = some v)
    (hi : i < 8) : (slotWords c).areaNat (0x1C00 + 8 * i) 8 = v.toNat := by
  unfold slotWords
  rw [putWords_below _ (by omega), putWords_below _ (by omega), putWords_at _ h]

theorem slotWords_string {i : Nat} {v : Word} (h : [c.str.head, c.str.tail, c.str.seq,
    word (c.str.carry.toNat + c.str.stat.toNat * 2 ^ 32 + c.str.flags * 2 ^ 40)][i]? = some v) (hi : i < 4) :
    (slotWords c).areaNat (0x1C40 + 8 * i) 8 = v.toNat := by
  unfold slotWords
  rw [putWords_below _ (by omega), putWords_at _ h]

end


/-! ## The context as it is resumed (R401, R430) -/

/-- What a core that resumes slot `i` has from what the slot holds. -/
structure Reloaded (sl : Slot) (i : BitVec 1) (warm window : Nat) (d : Core) : Prop where
  run : d.run = some i
  slotAt : d.slotAt i = { sl with state := .running }
  mirror : d.mirror = sl.kept.mirror
  unset : sl.kept.heatNext = none → d.heatBud = sl.areaNat 0x1C30 8 ∧ d.heatNext = none
  waits : ∀ v w, sl.kept.heatNext = some (v, w) → ¬ w < window → d.heatBud = sl.areaNat 0x1C30 8 ∧ d.heatNext = some v
  inForce : ∀ v w, sl.kept.heatNext = some (v, w) → w < window → d.heatBud = v ∧ d.heatNext = none
  mcmask : d.mcmask = word (sl.areaNat 0x1C08 8)
  rstlbl : d.rstlbl = word (sl.areaNat 0x1C10 8)
  rstidx : d.rstidx = word (sl.areaNat 0x1C18 8)
  stallCnt : d.stallCnt = word (sl.areaNat 0x1C20 8)
  tscratch : d.tscratch = word (sl.areaNat 0x1C28 8)
  inj : d.inj = word (sl.areaNat 0x1C38 8)
  kept : d.tvec = sl.kept.tvec ∧ d.chksb = sl.kept.chksb ∧ d.stallim = sl.kept.stallim
  head : d.str.head = word (sl.areaNat 0x1C40 8)
  tail : d.str.tail = word (sl.areaNat 0x1C48 8)
  seq : d.str.seq = word (sl.areaNat 0x1C50 8)
  cold : d.cold = freshCold sl.coreId.toNat
  oeq : d.oeq = (List.range (sl.areaNat 0x1C00 8 % 128)).map fun j => word (sl.areaNat (0x1800 + 8 * j) 8)
  shp : d.shp = (List.range 16).foldl (fun m j => Sp.set 0 m j (BitVec.ofNat 1024 (sl.areaNat (0x1000 + 128 * j) 128))) []
  cluster : ∀ l, d.cluster l = readRegs sl.areaNat (0x400 * laneIdx l) { pc := word (sl.areaNat 0x1C10 8), readyAt := warm + 1 }

theorem slot_resumed (c : Core) (i : BitVec 1) : ({ c.clearTask with run := some i } : Core).slot = c.slotAt i := slot_of_run rfl

theorem slotAt_of_slots {c d : Core} {i : BitVec 1} (f : Slot → Slot) (slot0 : d.slot0 = c.slot0) (slot1 : d.slot1 = c.slot1) :
    (d.modSlotAt i f).slotAt i = f (c.slotAt i) := by
  rw [slotAt_modSlotAt_self, Core.slotAt, Core.slotAt, slot0, slot1]

theorem loadContext_reloaded (c : Core) (i : BitVec 1) (warm window : Nat) : Reloaded (c.slotAt i) i warm window (c.loadContext i warm window) := by
  unfold Core.loadContext
  simp only [slot_resumed]
  generalize is : c.slotAt i = sl
  constructor
  case slotAt => exact (slotAt_of_slots _ rfl rfl).trans (congrArg (fun x : Slot => { x with state := .running }) is)
  case cluster => intro l; cases l <;> simp [Core.cluster, Core.modClusters]
  case unset => intro h; simp [h]
  case waits => intro v w h late; simp [h, late]
  case inForce => intro v w h due; simp [h, due]
  all_goals simp

/-! ## What was saved comes back -/

/-- A slot of which only the area is another. -/
def OnlyArea (sl x : Slot) : Prop := ∃ m, x = { sl with area := m }

theorem OnlyArea.setArea {sl x : Slot} (h : OnlyArea sl x) (off : Nat) (bs : List Byte) : OnlyArea sl (x.setArea off bs) := by
  obtain ⟨m, rfl⟩ := h
  exact ⟨_, rfl⟩

theorem OnlyArea.foldl {sl : Slot} {α : Type} {f : Slot → α → Slot} (h : ∀ x a, OnlyArea sl x → OnlyArea sl (f x a)) (l : List α) {x : Slot}
    (hx : OnlyArea sl x) : OnlyArea sl (l.foldl f x) := by
  induction l generalizing x with
  | nil => exact hx
  | cons a rest ih => exact ih (h x a hx)

theorem slotWords_onlyArea (c : Core) : OnlyArea c.slot (slotWords c) := by
  have clusters : OnlyArea c.slot (slotClusters c) := OnlyArea.foldl (fun x l h => h.setArea _ _) lanes ⟨[], rfl⟩
  have shapes : OnlyArea c.slot (slotShapes c) := OnlyArea.foldl (fun x j h => h.setArea _ _) (List.range 16) clusters
  exact ((((shapes.setArea _ _).setArea _ _).setArea _ _).setArea _ _).setArea _ _

theorem slotWords_coreId (c : Core) : (slotWords c).coreId = c.slot.coreId := by
  obtain ⟨m, h⟩ := slotWords_onlyArea c
  rw [h]

/-- The slot that holds what core `c` saved in heat window `window`. -/
structure SavedIn (c : Core) (window : Nat) (sl : Slot) : Prop where
  area : ∀ off k, sl.areaNat off k = (slotWords c).areaNat off k
  coreId : sl.coreId = c.slot.coreId
  state : sl.state = .saved
  tvec : sl.kept.tvec = c.tvec
  chksb : sl.kept.chksb = c.chksb
  stallim : sl.kept.stallim = c.stallim
  mirror : sl.kept.mirror = c.mirror
  next : sl.kept.heatNext = c.heatNext.map (fun v => (v, window))

theorem saveContext_savedIn (c : Core) (window : Nat) : ∃ x : Slot, c.saveContext window = c.modSlot (fun _ => x) ∧
    SavedIn c window { x with state := .saved } := by
  obtain ⟨x, is⟩ : ∃ x, x = slotWords c := ⟨_, rfl⟩
  obtain ⟨kept, tvec, chksb, stallim, mirror, next, saved⟩ := saveContext_eq c window
  rw [← is] at saved
  exact ⟨{ x with kept := kept }, saved,
    { area := fun off k => by rw [← is]; rfl
      coreId := (congrArg Slot.coreId is).trans (slotWords_coreId c)
      state := rfl, tvec := tvec, chksb := chksb, stallim := stallim, mirror := mirror, next := next }⟩

/-- What core `d` has again of what core `c` saved in heat window `window`, resumed in window `n`. -/
def BackIn (c : Core) (i : BitVec 1) (window n : Nat) (d : Core) : Prop :=
  d.mirror = c.mirror ∧ (c.heatBud < 2 ^ 64 → (c.heatNext = none → d.heatBud = c.heatBud ∧ d.heatNext = none) ∧
    ∀ v, c.heatNext = some v → (n = window → d.heatBud = c.heatBud ∧ d.heatNext = some v) ∧ (window < n → d.heatBud = v ∧ d.heatNext = none)) ∧
  d.run = some i ∧ (d.slotAt i).state = .running ∧ d.mcmask = c.mcmask ∧ d.rstlbl = c.rstlbl ∧ d.rstidx = c.rstidx ∧
  d.stallCnt = c.stallCnt ∧ d.tscratch = c.tscratch ∧ d.inj = c.inj ∧ d.tvec = c.tvec ∧ d.chksb = c.chksb ∧
  d.stallim = c.stallim ∧ d.str.head = c.str.head ∧ d.str.tail = c.str.tail ∧ d.str.seq = c.str.seq ∧
  d.cold = freshCold c.slot.coreId.toNat ∧ (c.oeq.length ≤ 64 → d.oeq = c.oeq) ∧
  (∀ j, j < 16 → Sp.get 0 d.shp j = Sp.get 0 c.shp j) ∧
  ∀ l, (d.cluster l).pc = c.rstlbl ∧ (d.cluster l).split = false ∧ (d.cluster l).loops = [] ∧
    (∀ n, n < 32 → (d.cluster l).rg n = (c.cluster l).rg n) ∧ (∀ n, n < 4 → (d.cluster l).rp n = (c.cluster l).rp n) ∧
    ∀ n, n < 7 → (d.cluster l).rc n = (c.cluster l).rc n

section
variable {c d : Core} {i : BitVec 1} {window warm n : Nat} {sl : Slot}

theorem SavedIn.system (h : SavedIn c window sl) {j : Nat} {v : Word}
    (at_ : [c.oeqstat, c.mcmask, c.rstlbl, c.rstidx, c.stallCnt, c.tscratch, word c.heatBud, c.inj][j]? = some v) (hj : j < 8) :
    word (sl.areaNat (0x1C00 + 8 * j) 8) = v := by rw [h.area, slotWords_system c at_ hj, word_toNat]

theorem SavedIn.string (h : SavedIn c window sl) {j : Nat} {v : Word}
    (at_ : [c.str.head, c.str.tail, c.str.seq, word (c.str.carry.toNat + c.str.stat.toNat * 2 ^ 32 + c.str.flags * 2 ^ 40)][j]? = some v) (hj : j < 4) :
    word (sl.areaNat (0x1C40 + 8 * j) 8) = v := by rw [h.area, slotWords_string c at_ hj, word_toNat]

theorem SavedIn.budget (h : SavedIn c window sl) (small : c.heatBud < 2 ^ 64) : sl.areaNat 0x1C30 8 = c.heatBud := by
  rw [h.area, show 0x1C30 = 0x1C00 + 8 * 6 by decide, slotWords_system c (i := 6) rfl (by decide)]
  exact Nat.mod_eq_of_lt small

theorem SavedIn.queue (h : SavedIn c window sl) (short : c.oeq.length ≤ 64) :
    ((List.range (sl.areaNat 0x1C00 8 % 128)).map fun j => word (sl.areaNat (0x1800 + 8 * j) 8)) = c.oeq := by
  have count : sl.areaNat 0x1C00 8 % 128 = c.oeq.length := by
    rw [h.area, show 0x1C00 = 0x1C00 + 8 * 0 by decide, slotWords_system c (i := 0) rfl (by decide)]
    unfold Core.oeqstat word
    rw [BitVec.toNat_ofNat]
    split <;> omega
  rw [count]
  refine List.ext_getElem (by simp) fun j h1 h2 => ?_
  rw [List.getElem_map, List.getElem_range, h.area, slotWords_oeq c (List.getElem?_eq_getElem h2) (by omega), word_toNat]

theorem SavedIn.shape (h : SavedIn c window sl) {j : Nat} (hj : j < 16) :
    BitVec.ofNat 1024 (sl.areaNat (0x1000 + 128 * j) 128) = Sp.get 0 c.shp j := by
  rw [h.area, slotWords_below c (by omega), slotShapes_at c hj, BitVec.ofNat_toNat, BitVec.setWidth_eq]

theorem SavedIn.cluster (h : SavedIn c window sl) (l : Lane) {p k : Nat} (hp : p + k ≤ 0x200) :
    sl.areaNat (0x400 * laneIdx l + p) k = leNat (field ({ c.cluster l with loops := [] }.save {} {}) p k) := by
  have low : laneIdx l < 4 := by cases l <;> decide
  rw [h.area, slotWords_below c (by omega), slotShapes_below c (by omega), slotClusters_field c l hp]

/-- A cluster's registers, read back from where they were saved. -/
theorem SavedIn.regs (h : SavedIn c window sl) (l : Lane) (x : Cluster) :
    (∀ n, n < 32 → (readRegs sl.areaNat (0x400 * laneIdx l) x).rg n = (c.cluster l).rg n) ∧
    (∀ n, n < 4 → (readRegs sl.areaNat (0x400 * laneIdx l) x).rp n = (c.cluster l).rp n) ∧
    ∀ n, n < 7 → (readRegs sl.areaNat (0x400 * laneIdx l) x).rc n = (c.cluster l).rc n := by
  refine ⟨fun n hn => ?_, fun n hn => ?_, fun n hn => ?_⟩
  · rw [readRegs_rg _ _ _ hn, h.cluster l (by omega), save_reg _ _ _ hn, word_toNat]
    split
    · subst n; rfl
    · rfl
  · rw [readRegs_rp _ _ _ hn, h.cluster l (by omega), save_pred _ _ _ hn]
    split
    · subst n; rfl
    · cases h2 : (c.cluster l).rp n <;> simp_all [Cluster.rp]
  · rw [readRegs_rc _ _ _ hn, Nat.add_assoc, h.cluster l (by omega), save_coord _ _ _ hn, BitVec.ofNat_toNat, BitVec.setWidth_eq]
    rfl

/-- The budgets: one written in the window of the save is in force from the next one (R430). -/
theorem Reloaded.budgets (h : SavedIn c window sl) (r : Reloaded sl i warm n d) (small : c.heatBud < 2 ^ 64) :
    (c.heatNext = none → d.heatBud = c.heatBud ∧ d.heatNext = none) ∧
    ∀ v, c.heatNext = some v → (n = window → d.heatBud = c.heatBud ∧ d.heatNext = some v) ∧ (window < n → d.heatBud = v ∧ d.heatNext = none) := by
  have budget := h.budget small
  refine ⟨fun none => ?_, fun v set => ⟨fun same => ?_, fun later => ?_⟩⟩
  · exact budget ▸ r.unset (by rw [h.next, none]; rfl)
  · exact budget ▸ r.waits v window (by rw [h.next, set]; rfl) (by omega)
  · exact r.inForce v window (by rw [h.next, set]; rfl) later

theorem Reloaded.back (h : SavedIn c window sl) (r : Reloaded sl i warm n d) : BackIn c i window n d := by
  have label : word (sl.areaNat 0x1C10 8) = c.rstlbl := h.system (j := 2) rfl (by decide)
  obtain ⟨tvec, chksb, stallim⟩ := r.kept
  refine ⟨r.mirror.trans h.mirror, r.budgets h, r.run, (congrArg Slot.state r.slotAt :), r.mcmask.trans (h.system (j := 1) rfl (by decide)), r.rstlbl.trans label,
    r.rstidx.trans (h.system (j := 3) rfl (by decide)), r.stallCnt.trans (h.system (j := 4) rfl (by decide)),
    r.tscratch.trans (h.system (j := 5) rfl (by decide)), r.inj.trans (h.system (j := 7) rfl (by decide)), tvec.trans h.tvec, chksb.trans h.chksb,
    stallim.trans h.stallim, r.head.trans (h.string (j := 0) rfl (by decide)), r.tail.trans (h.string (j := 1) rfl (by decide)),
    r.seq.trans (h.string (j := 2) rfl (by decide)), r.cold.trans (by rw [h.coreId]), fun short => r.oeq.trans (h.queue short), fun j hj => ?_, fun l => ?_⟩
  · rw [r.shp]
    have place := get_foldl_set_from 0 (fun j => BitVec.ofNat 1024 (sl.areaNat (0x1000 + 128 * j) 128)) 0 16 j []
    simp only [Nat.zero_add, if_pos hj] at place
    exact place.trans (h.shape hj)
  · obtain ⟨g, p, cs, frame⟩ := readRegs_frame sl.areaNat (0x400 * laneIdx l) { pc := word (sl.areaNat 0x1C10 8), readyAt := warm + 1 }
    rw [r.cluster l]
    refine ⟨?_, ?_, ?_, h.regs l _⟩
    · rw [frame]; exact label
    · rw [frame]
    · rw [frame]

end

/-! ## The request (R399) -/

theorem wake_cluster (c : Core) (l : Lane) : c.wake.cluster l = (c.cluster l).wake := by cases l <;> rfl

theorem request_cluster {c : Core} (runs : c.run ≠ none) (warm : Nat) (rotation : Bool) (l : Lane) :
    (c.request warm rotation).cluster l = (c.cluster l).wake := by
  unfold Core.request
  rw [if_neg (by simpa using runs)]
  exact (wake_cluster _ l).trans (by cases l <;> rfl)

theorem request_posted {c : Core} (runs : c.run ≠ none) (warm : Nat) (rotation : Bool) :
    (c.request warm rotation).preempt = some (c.preempt.getD warm) ∧ (c.request warm rotation).rotReq = (c.rotReq || rotation) ∧
    (c.preempt = none → (c.request warm rotation).late = (c.inHandler || c.replay.isSome)) := by
  unfold Core.request
  rw [if_neg (by simpa using runs)]
  exact ⟨rfl, rfl, fun none => if_neg (by rw [none]; exact Bool.false_ne_true)⟩

theorem wake_asleep {x : Cluster} {w : Nat} (asleep : x.wait = .asleep w) : x.wake = { x with wait := .awake w } := by
  unfold Cluster.wake
  rw [asleep]

theorem wake_awake {x : Cluster} (awake : ∀ w, x.wait ≠ .asleep w) : x.wake = x := by
  unfold Cluster.wake
  split
  · next w asleep => exact absurd asleep (awake w)
  · rfl

theorem request_of_single {s : State} (runs : s.core.run ≠ none) (single : s.isGang s.core.slot = false) (rotation : Bool) :
    s.request s.cur rotation = s.modCore fun c => c.request s.warm rotation := by
  unfold State.request
  have run : (s.coreAt s.cur).run.isNone = false := by
    cases none : s.core.run with
    | none => exact absurd none runs
    | some i => exact (congrArg Option.isNone none :)
  have alone : s.isGang (s.coreAt s.cur).slot = false := single
  rw [if_neg (by rw [run]; exact Bool.false_ne_true), if_neg (by rw [alone]; exact Bool.false_ne_true)]
  rfl

/-! ## The stop point (R400, R407) -/

/-- The core's window closes. -/
def windowClosed (s : State) : State := s.modCore fun c => { c with win := none }

theorem exec_stopPoint_waits {s : State} (early : s.core.stopReached = false) : exec .stopPoint s = .next s := by
  rw [exec_stopPoint]
  exact if_pos (by rw [early]; rfl)

theorem exec_stopPoint_drained {s : State} (reached : s.core.stopReached = true) (through : (windowClosed s).core.drained_ = true) :
    exec .stopPoint s = .next (((windowClosed s).cleanLines s.warm fun _ => true).modCore fun c => { c with l1d := [], l1i := [], drained := true }) := by
  rw [exec_stopPoint]
  refine (if_neg (by rw [reached]; exact Bool.false_ne_true)).trans ?_
  exact if_neg (by rw [show (s.modCore fun c => { c with win := none }).core.drained_ = true from through]; exact Bool.false_ne_true)

theorem writeBack_clean (s : State) (issued : Nat) {l : Line} (clean : l.mask = 0) : s.writeBack issued l = s := if_pos clean

theorem writeBacks_clean (issued : Nat) {ls : List Line} (clean : ∀ l ∈ ls, l.mask = 0) (s : State) : ls.foldl (fun s l => s.writeBack issued l) s = s := by
  induction ls with
  | nil => rfl
  | cons l rest ih => rw [List.foldl_cons, writeBack_clean s issued (clean l List.mem_cons_self), ih fun x hx => clean x (List.mem_cons_of_mem l hx)]

theorem mem_cleanLines_clean {s : State} (clean : ∀ l ∈ s.core.l1d, l.mask = 0) (issued : Nat) (sel : Line → Bool) :
    (s.cleanLines issued sel).mem = s.mem := by
  unfold State.cleanLines
  rw [writeBacks_clean issued (fun l hl => clean l (List.mem_filter.1 hl).1)]
  rfl

theorem core_windowClosed (s : State) : (windowClosed s).core = { s.core with win := none } := core_modCore ..

/-- A drained core at its stop point loses its lines and its window. -/
theorem stopPoint_drops {s : State} (reached : s.core.stopReached = true) (through : (windowClosed s).core.drained_ = true) :
    ∃ t, exec .stopPoint s = .next t ∧ t.core.drained = true ∧ t.core.l1d = [] ∧ t.core.l1i = [] ∧ t.core.win = none ∧
      ((∀ l ∈ s.core.l1d, l.mask = 0) → t.mem = s.mem) := by
  refine ⟨_, exec_stopPoint_drained reached through, ?_, ?_, ?_, ?_, fun clean => ?_⟩
  · rw [core_modCore]
  · rw [core_modCore]
  · rw [core_modCore]
  · obtain ⟨lines, bad, mirror, core⟩ := (LinesMove.cleanLines (windowClosed s) s.warm fun _ => true).core
    rw [core_modCore, core, core_windowClosed]
  · have closed : ∀ l ∈ (windowClosed s).core.l1d, l.mask = 0 := by rw [core_windowClosed]; exact clean
    exact (mem_cleanLines_clean closed s.warm fun _ => true)

/-! ## The save (R371, R400) -/

theorem exec_contextSave_gang {s : State} (runs : s.core.run ≠ none) (gang : s.isGang s.core.slot = true)
    (busy : ∃ x ∈ s.slotsOf s.core.slot.part s.core.slot.launch, (s.coreAt x.1).run = some x.2.1 ∧ (s.coreAt x.1).drained = false) :
    exec .contextSave s = .next s := by
  obtain ⟨i, run⟩ := Option.ne_none_iff_exists'.1 runs
  obtain ⟨x, listed, running, undrained⟩ := busy
  rw [exec_contextSave, execContextSave]
  simp only [run, gang]
  by_cases drained : s.core.drained = true
  · rw [if_neg (by rw [drained]; decide), if_neg (by decide), if_neg]
    rw [List.all_eq_true]
    intro all
    have member := all x.1 (List.mem_filterMap.2 ⟨x, listed, if_pos running⟩)
    rw [undrained] at member
    exact Bool.false_ne_true member
  · rw [if_pos (by simpa using drained)]

/-- A core whose task has been saved. -/
def saved (c : Core) (i : BitVec 1) (window swapAt clearAt : Nat) : Core :=
  { (c.saveContext window).clearTask with swapAt := swapAt, clearAt := clearAt }.modSlotAt i fun sl => { sl with state := .saved }

theorem exec_contextSave_single {s : State} {i : BitVec 1} (run : s.core.run = some i) (drained : s.core.drained = true)
    (single : s.isGang s.core.slot = false) (whole : (s.core.slotAt i).badCrc = none) : ∃ n a b,
    exec .contextSave s = .next ({ s with drawn := n }.modCore fun c => saved c i (s.windowOf s.cur) a b) := by
  refine ⟨s.drawn + 1, s.clock + 1 + (s.draw 31999).1, s.clock + 1 + (s.draw 31999).1 % 256, ?_⟩
  rw [exec_contextSave, execContextSave]
  simp only [run, single, drained]
  rw [if_neg (by decide), if_pos (by decide), State.saveCore]
  simp only [show (s.coreAt s.cur).run = some i from run]
  exact congrArg Host.Outcome.next (checked_of_ok whole)

theorem modSlot_slots {c : Core} {i : BitVec 1} (run : c.run = some i) (f : Slot → Slot) : (c.modSlot f).slotAt i = f (c.slotAt i) ∧
    (c.modSlot f).slotAt (i + 1) = c.slotAt (i + 1) := by
  unfold Core.modSlot
  rw [run]
  obtain rfl | rfl : i = 0 ∨ i = 1 := (show ∀ i : BitVec 1, i = 0 ∨ i = 1 by decide) i
  · exact ⟨rfl, rfl⟩
  · exact ⟨rfl, rfl⟩

theorem saved_law {c : Core} {i : BitVec 1} (run : c.run = some i) (window swapAt clearAt : Nat) :
    (saved c i window swapAt clearAt).run = none ∧ (saved c i window swapAt clearAt).cold = {} ∧
    SavedIn c window ((saved c i window swapAt clearAt).slotAt i) ∧ (saved c i window swapAt clearAt).slotAt (i + 1) = c.slotAt (i + 1) := by
  obtain ⟨x, is, savedIn⟩ := saveContext_savedIn c window
  have other : i + 1 ≠ i := (show ∀ i : BitVec 1, i + 1 ≠ i by decide) i
  obtain ⟨here, there⟩ := modSlot_slots run fun _ => x
  unfold saved
  rw [is]
  generalize c.modSlot (fun _ => x) = y at here there
  have slots (j : BitVec 1) : ({ y.clearTask with swapAt := swapAt, clearAt := clearAt } : Core).slotAt j = y.slotAt j := rfl
  refine ⟨by rw [modSlotAt_run]; rfl, by rw [modSlotAt_cold]; rfl, ?_, ?_⟩
  · rw [slotAt_modSlotAt_self, slots, here]
    exact savedIn
  · rw [slotAt_modSlotAt_other _ _ _ other, slots, there]

/-! ## The restore (R371, R398, R401, R418) -/

/-- The core of `s` with its saved context loaded, its acknowledged mirror writes no longer awaited. -/
def resumedState (s : State) (i : BitVec 1) : State := (s.modCore fun c => c.loadContext i s.warm (s.windowOf s.cur)).settleMirror s.cur

theorem settleMirror_core (u : State) : ∃ mirror, (u.settleMirror u.cur).core = { u.core with mirror := mirror } := ⟨_, coreAt_modCoreAt_self ..⟩

theorem resumed_core (s : State) (i : BitVec 1) : ∃ mirror,
    (resumedState s i).core = { s.core.loadContext i s.warm (s.windowOf s.cur) with mirror := mirror } := by
  obtain ⟨mirror, core⟩ := settleMirror_core (s.modCore fun c => c.loadContext i s.warm (s.windowOf s.cur))
  rw [core_modCore] at core
  exact ⟨mirror, core⟩

theorem resumed_run (s : State) (i : BitVec 1) : (resumedState s i).core.run = some i := by
  obtain ⟨mirror, core⟩ := resumed_core s i
  rw [core]
  exact (loadContext_reloaded ..).run

theorem resumed_slotAt (s : State) (i : BitVec 1) : (resumedState s i).core.slotAt i = { s.core.slotAt i with state := .running } := by
  obtain ⟨mirror, core⟩ := resumed_core s i
  rw [core]
  exact (loadContext_reloaded ..).slotAt

theorem onCore_self {s : State} {f : State → State} (kept : (f s).cur = s.cur) : s.onCore s.cur f = f s := by
  have update : s.onCore s.cur f = { f s with cur := s.cur } := rfl
  rw [update, ← kept]

theorem restartOrEnd_endsTask {s : State} {i : BitVec 1} (unnamed : s.restartOk = false) (run : s.core.run = some i) :
    EndsTask s s.restartOrEnd s.cur i := by
  unfold State.restartOrEnd
  rw [if_neg (by rw [unnamed]; exact Bool.false_ne_true), run]
  exact endWritten_endsTask ..

theorem exec_contextRestore_single {s : State} {i : BitVec 1} (resumable : s.core.resumable = some i) (opened : s.closed s.cur = false)
    (due : s.core.swapAt ≤ s.clock) (single : s.isGang (s.core.slotAt i) = false) (whole : (s.core.slotAt i).badCrc = none) :
    exec .contextRestore s = .next ((resumedState s i).onCore (resumedState s i).cur State.restartOrEnd) := by
  rw [exec_contextRestore, execContextRestore]
  simp only [resumable, single]
  rw [if_neg (by rw [opened]; exact fun h => h.elim (fun h => Bool.false_ne_true h) (by omega)), if_pos (by decide)]
  exact congrArg Host.Outcome.next (checked_of_ok whole)

/-- Settles O45: every field is read back from the bytes it was saved in. -/
theorem contextsComeBackAsSaved : Obligations.ContextsComeBackAsSaved := by
  unfold Obligations.ContextsComeBackAsSaved
  refine ⟨fun r s runs single => ?_, fun s => ⟨exec_stopPoint_waits, stopPoint_drops⟩, fun s => exec_contextSave_gang,
    fun i s run drained single whole => ?_, fun i s resumable opened due single whole => ?_⟩
  · have core := core_modCore s fun c => c.request s.warm r
    obtain ⟨preempt, rotReq, late⟩ := request_posted runs s.warm r
    refine ⟨_, (exec_preemptionRequest s).trans (congrArg Host.Outcome.next (request_of_single runs single r)), ?_, ?_, rfl,
      fun k other => coreAt_modCore_other _ _ other, fun none => ?_, fun l => ⟨fun w asleep => ?_, fun awake => ?_⟩⟩
    · rw [core, preempt]
    · rw [core, rotReq]
    · rw [core, late none]
    · rw [core, request_cluster runs, wake_asleep asleep]
    · rw [core, request_cluster runs, wake_awake awake]
  · obtain ⟨n, a, b, step⟩ := exec_contextSave_single run drained single whole
    obtain ⟨stops, cold, savedIn, other⟩ := saved_law run (s.windowOf s.cur) a b
    have core := core_modCore { s with drawn := n } fun c => saved c i (s.windowOf s.cur) a b
    refine ⟨_, step, ?_, ?_, ?_, rfl, ?_, fun k apart => coreAt_modCore_other _ _ apart, fun w n => ?_⟩
    · rw [core]; exact stops
    · rw [core]; exact savedIn.state
    · rw [core]; exact other
    · rw [core]; exact cold
    · rw [core]; exact Reloaded.back savedIn (loadContext_reloaded ..)
  · have step := exec_contextRestore_single resumable opened due single whole
    refine ⟨fun named => ?_, fun unnamed => ?_⟩
    · exact step.trans (congrArg Host.Outcome.next ((onCore_self (congrArg State.cur (restartOrEnd_ok named))).trans (restartOrEnd_ok named)))
    · have unnamed : (resumedState s i).restartOk = false := unnamed
      have run := resumed_run s i
      have ends := restartOrEnd_endsTask unnamed run
      have crc : ((resumedState s i).core.slotAt i).badCrc = none := by rw [resumed_slotAt]; exact whole
      refine ⟨_, step.trans (congrArg Host.Outcome.next (onCore_self ends.cur)), restartOrEnd_ends unnamed run, ?_⟩
      unfold State.core
      rw [ends.cur]
      exact ends.ended crc

end Sys2Proof.Proofs
end

section
/-! # O20: crossings are admitted and complete (R142, R148, R165, R169 to R173, R182, R427) -/

namespace Sys2Proof.Proofs

open Sys2Proof.Machine Sys2Proof.Laws

/-! ## The cold store, byte by byte (R27) -/

theorem coldPlace_inj {b a a' : Nat} (h : coldPlace b a = coldPlace b a') : a = a' := by
  unfold coldPlace at h
  dsimp only at h
  have rows : a / 32 / 128 = a' / 32 / 128 := by omega
  rw [rows] at h
  omega

theorem read_write (c : Cold) (b a a' : Nat) (v : Byte) : (c.write b a v).read b a' = if a' = a then v else c.read b a' := by
  unfold Cold.write Cold.read
  rw [get_set]
  by_cases here : a' = a
  · rw [if_pos here, if_pos (by rw [here])]
  · rw [if_neg here, if_neg fun h => here (coldPlace_inj h)]

/-- Bytes written one after the other. -/
def writtenBytes (b : Nat) (data : List (Nat × Byte × Bool)) (c : Cold) : Cold := data.foldl (fun c y => c.write b y.1 y.2.1) c

section
variable {b a : Nat}

theorem read_writtenBytes_other {data : List (Nat × Byte × Bool)} (off : ∀ y ∈ data, y.1 ≠ a) (c : Cold) : (writtenBytes b data c).read b a = c.read b a := by
  induction data generalizing c with
  | nil => rfl
  | cons y rest ih =>
    refine (ih (fun z hz => off z (List.mem_cons_of_mem y hz)) (c.write b y.1 y.2.1)).trans ?_
    rw [read_write, if_neg fun h => off y List.mem_cons_self h.symm]

theorem read_writtenBytes {data : List (Nat × Byte × Bool)} {v : Byte} (listed : ∃ y ∈ data, y.1 = a) (agree : ∀ y ∈ data, y.1 = a → y.2.1 = v)
    (c : Cold) : (writtenBytes b data c).read b a = v := by
  induction data generalizing c with
  | nil =>
    obtain ⟨y, hy, -⟩ := listed
    exact absurd hy List.not_mem_nil
  | cons z rest ih =>
    have later : ∀ y ∈ rest, y.1 = a → y.2.1 = v := fun y hy => agree y (List.mem_cons_of_mem z hy)
    change (writtenBytes b rest (c.write b z.1 z.2.1)).read b a = v
    by_cases again : ∃ y ∈ rest, y.1 = a
    · exact ih again later _
    · obtain ⟨y, hy, here⟩ := listed
      rcases List.mem_cons.1 hy with rfl | hy
      · rw [read_writtenBytes_other fun w hw same => again ⟨w, hw, same⟩, read_write, if_pos here.symm]
        exact agree y List.mem_cons_self here
      · exact absurd ⟨y, hy, here⟩ again

end

/-! ## The rows of an xin (R165, R169) -/

section
variable (s : State) (x : Crossing)

/-- The first cold byte that row `i` brings, and how many it brings. -/
def rowFirst (i : Nat) : Nat := bits x.cold 0 19 + i * Machine.rowBytes x.shape false + colLo x.coord * coldBits x.shape false / 8
def rowLength : Nat := (colHi x.shape x.coord - colLo x.coord) * coldBits x.shape false / 8

/-- The memory key from which row `i` comes. -/
def rowKey (i : Nat) : Nat := s.warmKey s.core.slot.part (warmAddr x.shape x.coord false i (colLo x.coord))

/-- What row `i` brings: nothing where it is out of bounds. -/
def rowBrings (i : Nat) : List (Nat × Byte × Bool) :=
  if (x.rows.getD i ⟨false, false, 0⟩).admitted then
    (List.range (rowLength x)).map fun k => (rowFirst x i + k, s.byte (rowKey s x i + k), false)
  else []

theorem getD_bytes (key n k : Nat) (h : k < n) : (s.bytes key n).getD k 0 = s.byte (key + k) := by
  induction n generalizing key k with
  | zero => exact absurd h (Nat.not_lt_zero k)
  | succ n ih =>
    cases k with
    | zero => rfl
    | succ k =>
      have rest := ih (key + 1) k (by omega)
      rw [show key + 1 + k = key + (k + 1) by omega] at rest
      exact rest

variable {x} (whole : coldBits x.shape false % 8 = 0)
include whole

theorem rowData_eq (plain : x.mode ≠ 2) (bare : shpZfill x.shape = false) {i : Nat} (valid : (x.rows.getD i ⟨false, false, 0⟩).invalid = false) :
    s.rowData s.core.slot.part x i = rowBrings s x i := by
  have long : ((colHi x.shape x.coord - colLo x.coord) * coldBits x.shape false + 7) / 8 = rowLength x := by
    obtain ⟨v, hv⟩ := Nat.dvd_of_mod_eq_zero whole
    rw [rowLength, hv, Nat.mul_left_comm]
    omega
  have even : coldBits x.shape false ≠ 4 := fun h => by rw [h] at whole; exact absurd whole (by decide)
  have packed : decide (x.mode = 2) = false := decide_eq_false plain
  have half (odd : Prop) [Decidable odd] : decide (coldBits x.shape false = 4 ∧ odd) = false := decide_eq_false fun h => even h.1
  unfold State.rowData rowBrings
  simp only [packed, bare, valid, half, long, Bool.false_and, Bool.false_eq_true, if_false, List.nil_append]
  cases admitted : (x.rows.getD i ⟨false, false, 0⟩).admitted
  · rfl
  · refine List.map_congr_left fun k hk => ?_
    rw [getD_bytes s _ _ k (List.mem_range.1 hk)]
    rfl

/-- A row's bytes lie within the row. -/
theorem row_fits {k : Nat} (hk : k < rowLength x) : colLo x.coord * coldBits x.shape false / 8 + k < Machine.rowBytes x.shape false := by
  obtain ⟨v, hv⟩ := Nat.dvd_of_mod_eq_zero whole
  have low : colLo x.coord * coldBits x.shape false / 8 = colLo x.coord * v := by rw [hv, Nat.mul_left_comm, Nat.mul_div_cancel_left _ (by decide)]
  have long : rowLength x = (colHi x.shape x.coord - colLo x.coord) * v := by
    rw [rowLength, hv, Nat.mul_left_comm, Nat.mul_div_cancel_left _ (by decide)]
  have some : colLo x.coord ≤ colHi x.shape x.coord := by
    by_contra beyond
    rw [long, show colHi x.shape x.coord - colLo x.coord = 0 by omega, Nat.zero_mul] at hk
    exact Nat.not_lt_zero k hk
  have box : colHi x.shape x.coord * v ≤ shpBox x.shape 0 * v := Nat.mul_le_mul_right v (Nat.min_le_left ..)
  have row : shpBox x.shape 0 * v ≤ Machine.rowBytes x.shape false := by
    rw [Machine.rowBytes, hv, Nat.mul_left_comm]
    omega
  have parts : colLo x.coord * v + (colHi x.shape x.coord - colLo x.coord) * v = colHi x.shape x.coord * v := by
    rw [← Nat.add_mul, Nat.add_sub_cancel' some]
  omega

/-- The bytes of two rows never meet. -/
theorem rowFirst_inj {i i' k k' : Nat} (hk : k < rowLength x) (hk' : k' < rowLength x) (same : rowFirst x i + k = rowFirst x i' + k') : i = i' ∧ k = k' := by
  have fits := row_fits whole hk
  have fits' := row_fits whole hk'
  unfold rowFirst at same
  rcases Nat.lt_trichotomy i i' with below | here | above
  · have next := Nat.mul_le_mul_right (Machine.rowBytes x.shape false) below
    rw [Nat.succ_mul] at next
    omega
  · subst here
    exact ⟨rfl, by omega⟩
  · have next := Nat.mul_le_mul_right (Machine.rowBytes x.shape false) above
    rw [Nat.succ_mul] at next
    omega

end

/-! ## What a delivery writes -/

theorem foldl_store {α : Type} {f : Cold → α → Cold} (keeps : ∀ c a, (f c a).store = c.store) (l : List α) (c : Cold) : (l.foldl f c).store = c.store := by
  induction l generalizing c with
  | nil => rfl
  | cons a rest ih => exact (ih (f c a)).trans (keeps c a)

/-- A row of whole bytes goes into the cold store as it is. -/
theorem putRow_store (x : Crossing) (i : Nat) {data : List (Nat × Byte × Bool)} (full : ∀ y ∈ data, y.2.2 = false) (c : Cold) :
    (c.putRow x i data (fun _ => true) []).store = (writtenBytes (bits x.cold 19 4) data c).store := by
  have plain (c : Cold) {y : Nat × Byte × Bool} (hy : y ∈ data) (v : Byte) : c.write (bits x.cold 19 4) y.1 (if y.2.2 = true then v else y.2.1) =
      c.write (bits x.cold 19 4) y.1 y.2.1 := by rw [full y hy, if_neg Bool.false_ne_true]
  unfold Cold.putRow writtenBytes
  dsimp only
  by_cases tagged : (x.rows.getD i ⟨false, false, 0⟩).invalid = true ∨ (!data.isEmpty) = true
  · rw [if_pos tagged]
    refine (foldl_store (fun c g => ?_) _ _).trans (congrArg Cold.store (List.foldl_ext _ _ _ fun c y hy => ?_))
    · split
      · rfl
      · rfl
    · rw [if_pos ⟨rfl, rfl⟩, plain c hy]
  · rw [if_neg tagged]
    refine congrArg Cold.store (List.foldl_ext _ _ _ fun c y hy => ?_)
    rw [if_pos ⟨rfl, rfl⟩, plain c hy]

theorem writtenBytes_store {b : Nat} (data : List (Nat × Byte × Bool)) {c d : Cold} (h : c.store = d.store) :
    (writtenBytes b data c).store = (writtenBytes b data d).store := by
  induction data generalizing c d with
  | nil => exact h
  | cons y rest ih => exact ih (congrArg (fun m => Sp.set 0 m (coldPlace b y.1) y.2.1) h)

theorem writtenBytes_append (b : Nat) (xs ys : List (Nat × Byte × Bool)) (c : Cold) :
    writtenBytes b (xs ++ ys) c = writtenBytes b ys (writtenBytes b xs c) := List.foldl_append ..

/-- The rows go in one behind the other. -/
theorem putRows_store (x : Crossing) {rows : List (Nat × List (Nat × Byte × Bool))} (full : ∀ r ∈ rows, ∀ y ∈ r.2, y.2.2 = false) (c : Cold) :
    (rows.foldl (fun m r => m.putRow x r.1 r.2 (fun _ => true) []) c).store = (writtenBytes (bits x.cold 19 4) (rows.flatMap (·.2)) c).store := by
  induction rows generalizing c with
  | nil => rfl
  | cons r rest ih =>
    rw [List.foldl_cons, ih fun r' h => full r' (List.mem_cons_of_mem r h), List.flatMap_cons, writtenBytes_append]
    exact writtenBytes_store _ (putRow_store x r.1 (full r List.mem_cons_self) c)

section
variable {s : State} {x : Crossing}

/-- The rows of a crossing as a delivery finds them. -/
def rowsNow (s : State) (x : Crossing) : List (Nat × List (Nat × Byte × Bool)) :=
  (List.range x.rows.length).map fun i => (i, s.rowData s.core.slot.part x i)

/-- What a delivery to the own core makes of the core, apart from what it notes of the granules. -/
structure Delivers (s : State) (x : Crossing) (c : Core) : Prop where
  store : c.cold.store = ((rowsNow s x).foldl (fun m r => m.putRow x r.1 r.2 (fun _ => true) []) s.core.cold).store
  cluster : ∀ l, c.cluster l = s.core.cluster l
  xings : c.xings = s.core.xings

theorem deliver_own (unread : x.fetched = none) (free : x.stays = []) (unarmed : s.core.armedInj 1 = false) :
    ∃ f, (s.deliver s.cur s.cur x fun _ => true) = s.modCore f ∧ Delivers s x (f s.core) := by
  have rows : s.rowsOf s.cur x = rowsNow s x := by
    unfold State.rowsOf
    rw [unread]
    rfl
  unfold State.deliver
  rw [rows, free, if_pos rfl]
  refine ⟨_, rfl, ?_⟩
  dsimp only
  rw [if_neg fun h => Bool.false_ne_true (unarmed.symm.trans h.2.1)]
  refine ⟨?_, fun l => by cases l <;> rfl, rfl⟩
  simp only [Core.modCold, List.filterMap_nil]
  split
  · rfl
  · rfl

/-- Every byte the rows bring, with the place it takes. -/
theorem mem_rowsNow (whole : coldBits x.shape false % 8 = 0) (plain : x.mode ≠ 2) (bare : shpZfill x.shape = false)
    (valid : ∀ p ∈ x.rows, p.invalid = false) {y : Nat × Byte × Bool} : y ∈ (rowsNow s x).flatMap (·.2) ↔
      ∃ i p k, x.rows[i]? = some p ∧ p.admitted = true ∧ k < rowLength x ∧ y = (rowFirst x i + k, s.byte (rowKey s x i + k), false) := by
  have row {i : Nat} {p : RowPlan} (at_ : x.rows[i]? = some p) : s.rowData s.core.slot.part x i = rowBrings s x i ∧ x.rows.getD i ⟨false, false, 0⟩ = p := by
    have is : x.rows.getD i ⟨false, false, 0⟩ = p := by rw [List.getD_eq_getElem?_getD, at_]; rfl
    exact ⟨rowData_eq s whole plain bare (by rw [is]; exact valid p (List.mem_of_getElem? at_)), is⟩
  simp only [rowsNow, List.mem_flatMap, List.mem_map, List.mem_range]
  constructor
  · rintro ⟨r, ⟨i, hi, rfl⟩, hy⟩
    obtain ⟨p, at_⟩ : ∃ p, x.rows[i]? = some p := ⟨_, List.getElem?_eq_getElem hi⟩
    obtain ⟨data, is⟩ := row at_
    rw [data, rowBrings, is] at hy
    cases admitted : p.admitted
    · rw [admitted, if_neg Bool.false_ne_true] at hy
      exact absurd hy List.not_mem_nil
    · rw [admitted, if_pos rfl] at hy
      obtain ⟨k, hk, rfl⟩ := List.mem_map.1 hy
      exact ⟨i, p, k, at_, admitted, List.mem_range.1 hk, rfl⟩
  · rintro ⟨i, p, k, at_, admitted, hk, rfl⟩
    obtain ⟨data, is⟩ := row at_
    refine ⟨_, ⟨i, (List.getElem?_eq_some_iff.1 at_).1, rfl⟩, ?_⟩
    rw [data, rowBrings, is, admitted, if_pos rfl]
    exact List.mem_map.2 ⟨k, List.mem_range.2 hk, rfl⟩

theorem rowsNow_full (whole : coldBits x.shape false % 8 = 0) (plain : x.mode ≠ 2) (bare : shpZfill x.shape = false)
    (valid : ∀ p ∈ x.rows, p.invalid = false) : ∀ r ∈ rowsNow s x, ∀ y ∈ r.2, y.2.2 = false := by
  intro r hr y hy
  obtain ⟨i, p, k, -, -, -, rfl⟩ := (mem_rowsNow whole plain bare valid).1 (List.mem_flatMap.2 ⟨r, hr, hy⟩)
  rfl

/-- The bytes of each row in bounds, in their places, and every other byte as it was. -/
theorem delivered_bytes (unread : x.fetched = none) (free : x.stays = []) (unarmed : s.core.armedInj 1 = false)
    (whole : coldBits x.shape false % 8 = 0) (plain : x.mode ≠ 2) (bare : shpZfill x.shape = false)
    (valid : ∀ p ∈ x.rows, p.invalid = false) :
    (∀ i p k, x.rows[i]? = some p → p.admitted = true → k < rowLength x →
      (s.deliver s.cur s.cur x fun _ => true).core.cold.read (bits x.cold 19 4) (rowFirst x i + k) = s.byte (rowKey s x i + k)) ∧
    ∀ a, (∀ i p k, x.rows[i]? = some p → p.admitted = true → k < rowLength x → a ≠ rowFirst x i + k) →
      (s.deliver s.cur s.cur x fun _ => true).core.cold.read (bits x.cold 19 4) a = s.core.cold.read (bits x.cold 19 4) a := by
  obtain ⟨f, delivered, h⟩ := deliver_own unread free unarmed
  have store := h.store.trans (putRows_store x (rowsNow_full whole plain bare valid) s.core.cold)
  have read (a : Nat) : (s.deliver s.cur s.cur x fun _ => true).core.cold.read (bits x.cold 19 4) a =
      (writtenBytes (bits x.cold 19 4) ((rowsNow s x).flatMap (·.2)) s.core.cold).read (bits x.cold 19 4) a := by
    rw [delivered, core_modCore, Cold.read, Cold.read, store]
  refine ⟨fun i p k at_ admitted hk => ?_, fun a off => ?_⟩
  · rw [read]
    refine read_writtenBytes ⟨_, (mem_rowsNow whole plain bare valid).2 ⟨i, p, k, at_, admitted, hk, rfl⟩, rfl⟩ (fun y hy here => ?_) _
    obtain ⟨i', p', k', -, -, hk', rfl⟩ := (mem_rowsNow whole plain bare valid).1 hy
    obtain ⟨rfl, rfl⟩ := rowFirst_inj whole hk' hk here
    rfl
  · rw [read]
    refine read_writtenBytes_other (fun y hy here => ?_) _
    obtain ⟨i, p, k, at_, admitted, hk, rfl⟩ := (mem_rowsNow whole plain bare valid).1 hy
    exact off i p k at_ admitted hk here.symm

end

/-! ## The heat test at the head of a queue (R182, R427) -/

section
variable {q : QueueId} {e : QEntry} {charge : Nat} {s : State} (ready : s.ready q = some e) (tested : s.testedCharge q e = some charge)
  (agrees : s.core.willMismatch = false)
include ready tested agrees

/-- The core with entry `e` of queue `q` held from this heat window on. -/
def heldEntry (q : QueueId) (e : QEntry) (window : Nat) (c : Core) : Core :=
  c.setQueue q ((c.queue q).map fun x => if x.seq = e.seq then { x with held := some (x.held.getD window) } else x)

theorem exec_crossingAdmit_held (fresh : e.held = none) (idle : ∀ n, e.op.waitsFor = some n → s.core.idle n = true)
    (beyond : s.core.heatBud < s.core.heatAcc + s.core.heatAdm + charge) :
    exec (.crossingAdmit q) s = .next (s.modCore (heldEntry q e s.window)) := by
  have within : ¬(s.core.heatAcc + s.core.heatAdm + charge ≤ s.core.heatBud) := by omega
  rw [exec_crossingAdmit, execCrossingAdmit]
  cases waits : e.op.waitsFor with
  | none =>
    simp only [ready, tested, agrees, waits, State.heatTest, fresh, Bool.false_eq_true, false_or, if_neg within, if_false]
    rfl
  | some n =>
    simp only [ready, tested, agrees, waits, idle n waits, State.heatTest, fresh, Bool.false_eq_true, false_or, if_neg within, if_false, Bool.not_true]
    rfl

theorem exec_crossingAdmit_passes (free : e.op.waitsFor = none) (fits : s.core.heatAcc + s.core.heatAdm + charge ≤ s.core.heatBud) :
    exec (.crossingAdmit q) s = (admitted s charge).admitEntry q e := by
  rw [exec_crossingAdmit, execCrossingAdmit]
  simp only [ready, tested, agrees, free, Bool.false_eq_true, if_false, State.heatTest, if_pos (Or.inr fits : _ ∨ _), if_true]
  rfl

end

theorem heldEntry_queue (q : QueueId) (e : QEntry) (window : Nat) (c : Core) : (heldEntry q e window c).queue q =
    (c.queue q).map (fun y => if y.seq = e.seq then { y with held := some (y.held.getD window) } else y) := by
  cases q <;> rfl

theorem heldEntry_kept (q : QueueId) (e : QEntry) (window : Nat) (c : Core) : (heldEntry q e window c).xings = c.xings ∧
    (heldEntry q e window c).heatNow = c.heatNow ∧ (heldEntry q e window c).cold = c.cold := by
  cases q <;> exact ⟨rfl, rfl, rfl⟩

/-! ## Admission (R170, R427) -/

/-- What the retirement of an entry of queue `q` leaves of the core. -/
theorem core_retire (s : State) (q : QueueId) (n : Nat) : (s.retire q n).core.queue q = (s.core.queue q).filter (fun y => !decide (y.seq = n)) ∧
    (s.retire q n).core.xings = s.core.xings ∧ (s.retire q n).core.heatNow = s.core.heatNow ∧ (s.retire q n).core.heatAdm = s.core.heatAdm ∧
    (s.retire q n).core.cold = s.core.cold := by
  unfold State.retire
  rw [core_modCore]
  cases q <;> exact ⟨rfl, rfl, rfl, rfl, rfl⟩

/-- Crossing `n` admitted: an xin's last byte comes `free` and the time of its bytes, a part of them at `early`. -/
def crossingAdmitted (n free early : Nat) (c : Core) : Core :=
  { c with xings := c.xings.map fun (x : Crossing) =>
      if x.seq = n then
        { x with admitted := true, early := if x.kind = 2 then none else some early,
                 due := if x.kind = 2 then none else some (free + (crossBytes x.shape x.coord (decide (x.mode = 2)) x.rows + 1) / 2) }
      else x }

/-- The cycle from which the link is free for a crossing whose home read takes `t`, behind the xins before it. -/
def linkFree (s : State) (t : Nat) : Nat :=
  s.core.xings.foldl (fun m (x : Crossing) => if x.kind = 2 then m else max m (x.due.getD 0)) (s.clock + 16 * (t + 1))

theorem linkFree_late {s : State} {x : Crossing} (only : s.core.xings = [x]) (t : Nat) : s.clock + 16 * (t + 1) ≤ linkFree s t := by
  rw [linkFree, only, List.foldl_cons, List.foldl_nil]
  split
  · exact Nat.le_refl _
  · exact Nat.le_max_left ..

theorem admitCrossing_eq (s : State) (q : QueueId) (e : QEntry) (n : Nat) : ∃ t u d, u ≤ 16 * t + 15 ∧
    s.admitCrossing q e n = ({ s with drawn := d }.retire q e.seq).modCore (crossingAdmitted n (linkFree s t) (s.clock + 1 + u)) :=
  ⟨(s.draw 4095).1, ((s.draw 4095).2.draw (16 * (s.draw 4095).1 + 15)).1, _, Nat.le_of_lt_succ (Nat.mod_lt _ (Nat.succ_pos _)), rfl⟩

/-- A crossing admitted alone: an xin with the cycles of its parts, an xout without. -/
theorem admitCrossing_law {s : State} {x : Crossing} (only : s.core.xings = [x]) (q : QueueId) (e : QEntry) : ∃ due early,
    (s.admitCrossing q e x.seq).core.xings =
      [{ x with admitted := true, due := if x.kind = 2 then none else some due, early := if x.kind = 2 then none else some early }] ∧
    s.clock < early ∧ early ≤ due ∧ (s.admitCrossing q e x.seq).core.queue q = (s.core.queue q).filter (fun y => !decide (y.seq = e.seq)) ∧
    (s.admitCrossing q e x.seq).core.heatNow = s.core.heatNow ∧ (s.admitCrossing q e x.seq).core.heatAdm = s.core.heatAdm ∧
    (s.admitCrossing q e x.seq).core.cold = s.core.cold ∧ (s.admitCrossing q e x.seq).mem = s.mem ∧ (s.admitCrossing q e x.seq).pkgs = s.pkgs := by
  obtain ⟨t, u, d, early, admits⟩ := admitCrossing_eq s q e x.seq
  obtain ⟨queue, xings, now, adm, cold⟩ := core_retire { s with drawn := d } q e.seq
  have alone : ({ s with drawn := d }.retire q e.seq).core.xings = [x] := xings.trans only
  have late := linkFree_late only t
  rw [admits]
  generalize linkFree s t = free at late
  refine ⟨free + (crossBytes x.shape x.coord (decide (x.mode = 2)) x.rows + 1) / 2, s.clock + 1 + u, ?_, by omega, by omega, ?_, ?_, ?_, ?_, rfl, rfl⟩
  all_goals rw [core_modCore]
  · unfold crossingAdmitted
    simp only [alone, List.map_cons, List.map_nil, if_pos]
  · refine Eq.trans ?_ queue
    cases q <;> rfl
  · exact now
  · exact adm
  · exact cold

/-! ## The receivers of a crossing (R176, R177) -/

theorem recvCores_own (cur : Nat) : recvCores cur (BitVec.ofNat 4 (2 ^ (cur % 4))) = [cur] := by
  have one (base : Nat) {r : Nat} (hr : r < 4) :
      ((List.range 4).filterMap fun i => if (BitVec.ofNat 4 (2 ^ r)).getLsbD i then some (base + i) else none) = [base + r] := by
    have low : r = 0 ∨ r = 1 ∨ r = 2 ∨ r = 3 := by omega
    rcases low with rfl | rfl | rfl | rfl <;> rfl
  exact (one (cur / 4 * 4) (Nat.mod_lt cur (by decide))).trans (congrArg (fun n => [n]) (by omega))

theorem receiverGone_self {s : State} (runs : s.core.run ≠ none) : s.receiverGone s.cur s.cur = false := by
  obtain ⟨i, run⟩ := Option.ne_none_iff_exists'.1 runs
  have run : (s.coreAt s.cur).run = some i := run
  unfold State.receiverGone
  dsimp only
  rw [run]
  simp

theorem missed_self {s : State} {x : Crossing} (xin : x.kind = 0) : s.missed s.cur s.cur x = false := by
  unfold State.missed State.receiverFails
  rw [if_pos ⟨rfl, xin⟩, Bool.and_false]

/-- The crossing leaves its core. -/
def crossingGone (x : Crossing) (c : Core) : Core := { c with xings := c.xings.filter fun y => !decide (y.seq = x.seq) }

theorem crossingGone_alone {t : State} {x : Crossing} (only : t.core.xings = [x]) : t.modCore (crossingGone x) = t.modCore fun c => { c with xings := [] } := by
  refine modCore_congr ?_
  unfold crossingGone
  rw [only, List.filter_cons_of_neg (by simp)]
  rfl

/-- Two changes of the own core, one after the other. -/
theorem modCore_twice (t : State) (f g : Core → Core) : (t.modCore f).modCore g = t.modCore fun c => g (f c) := by
  unfold State.modCore State.modCoreAt
  exact congrArg (fun m => { t with cores := m }) ((put_put ..).trans (congrArg (fun c => Sp.put t.cores t.cur (g c)) (core_modCore t f)))

theorem awaitMirror_plain {t : State} {key : Nat} (plain : mirrorIn key t.part.regions = none) (issued : Nat) (joined : Bool) :
    t.awaitMirror key issued joined = t := by
  unfold State.awaitMirror
  rw [plain]

theorem deliver_xings (s : State) (x : Crossing) : (s.deliver s.cur s.cur x fun _ => true).core.xings = s.core.xings := by
  unfold State.deliver
  refine (congrArg Core.xings (coreAt_modCoreAt_self ..)).trans ?_
  simp only [apply_ite Core.xings, Core.disarm, modCold_xings, ite_self]
  rfl

theorem pulse_xings (s : State) (n : Nat) : (s.pulse s.cur n).core.xings = s.core.xings := by
  obtain ⟨ev, core, -⟩ := core_pulse s n
  exact (congrArg Core.xings core :)

/-! ## Completion (R148, R170, R173, R176) -/

section
variable {s : State} {x : Crossing} (only : s.core.xings = [x]) (low : x.seq < 2 ^ 32)
include only low

/-- The one crossing of a core is found by its number. -/
theorem crossing_found {p : Crossing → Bool} (holds : p x = true) :
    (s.core.xings.find? fun y => decide (y.seq % 2 ^ 32 = (BitVec.ofNat 32 x.seq).toNat) && p y) = some x := by
  rw [only]
  refine List.find?_cons_of_pos ?_
  rw [holds, Bool.and_true, decide_eq_true_eq]
  rfl

omit low in
theorem crossing_alone : s.core.crossingWaits x = false := by
  unfold Core.crossingWaits
  rw [only]
  simp

variable (admits : x.admitted = true)
include admits

theorem exec_crossingComplete_early (early : x.early ≠ none) : exec (.crossingComplete (BitVec.ofNat 32 x.seq)) s = .next (s.deliverEarly x) := by
  rw [exec_crossingComplete, execCrossingComplete, crossing_found only low (p := fun x => x.admitted) admits]
  dsimp only
  rw [crossing_alone only, if_neg Bool.false_ne_true, if_pos (Option.isSome_iff_ne_none.2 early)]

/-- An xin that this core alone receives. -/
theorem exec_crossingComplete_own (due : x.early = none) (xin : x.kind = 0) (own : x.recv = BitVec.ofNat 4 (2 ^ (s.cur % 4))) (read : x.lost = none)
    (runs : s.core.run ≠ none) (bad : s.bad = []) (badDc : s.badDc = []) (sound : ∀ k, (s.pkgAt k).failed = false) :
    exec (.crossingComplete (BitVec.ofNat 32 x.seq)) s =
      .next (((s.deliver s.cur s.cur x fun _ => true).pulse s.cur 3).modCore fun c => { c with xings := [] }) := by
  have source : s.sourceBad x = false := by
    unfold State.sourceBad
    simp [read, badAt_of_clean bad badDc sound]
  have left : ((s.deliver s.cur s.cur x fun _ => true).pulse s.cur 3).core.xings = [x] :=
    (pulse_xings (s.deliver s.cur s.cur x fun _ => true) 3).trans ((deliver_xings s x).trans only)
  rw [exec_crossingComplete, execCrossingComplete, crossing_found only low (p := fun x => x.admitted) admits]
  dsimp only
  rw [crossing_alone only, if_neg Bool.false_ne_true, due, if_neg (by decide), if_neg (by rw [xin]; decide), source, own]
  simp only [Bool.false_eq_true, if_false, recvCores_own, List.foldl_cons, List.foldl_nil, missed_self xin, receiverGone_self runs]
  exact congrArg Host.Outcome.next (crossingGone_alone left)

/-- A captured xout of one byte. -/
theorem exec_crossingComplete_xout {key : Nat} {v : Byte} (due : x.early = none) (xout : x.kind = 2) (free : x.stays = [])
    (captured : x.captured = some [(2 * key, v)]) (inside : key < 2 ^ 60) (sound : (s.pkgAt (keyPkg key)).failed = false)
    (plain : mirrorIn key s.part.regions = none) : exec (.crossingComplete (BitVec.ofNat 32 x.seq)) s =
      .next ((((s.setByte key v).ownLine key s.writer).modCore (fun c => { c with xings := [] })).pulse s.cur 4) := by
  have half : 2 * key / 2 = key := by omega
  have even : ¬(2 * key % 2 = 1) := by omega
  have home : s.putCaptured [(2 * key, v)] (fun _ => true) = (s.setByte key v).ownLine key s.writer := by
    unfold State.putCaptured State.anyWrite
    simp only [List.foldl_cons, List.foldl_nil, half, if_true, if_neg even]
    rw [if_pos (show key < areaBase from inside), homeByte_of_plain sound plain]
  have plain' : mirrorIn key ((s.setByte key v).ownLine key s.writer).part.regions = none := plain
  rw [exec_crossingComplete, execCrossingComplete, crossing_found only low (p := fun x => x.admitted) admits]
  dsimp only
  rw [crossing_alone only, if_neg Bool.false_ne_true, due, if_neg (by decide), if_pos xout, captured]
  dsimp only
  simp only [free, List.any_cons, List.any_nil, List.filter_cons, List.filter_nil, List.contains_nil, half, sound, Bool.or_false, Bool.not_false,
    Bool.false_eq_true, if_false, if_true, home]
  rw [awaitMirror_plain plain', modCore_twice]
  refine congrArg (fun t => Host.Outcome.next (t.pulse s.cur 4)) (modCore_congr ?_)
  have core : ((s.setByte key v).ownLine key s.writer).core.xings = [x] := only
  generalize ((s.setByte key v).ownLine key s.writer).core = c at core
  unfold Core.standOver
  rw [core]
  simp

end

/-! ## The capture (R171, R172) -/

section
variable {s : State} {x : Crossing} (only : s.core.xings = [x]) (low : x.seq < 2 ^ 32) (xout : x.kind = 2) (admits : x.admitted = true)
  (waits : x.captured = none) (due : x.stamp ≤ s.scnt) (level : x.level = s.core.level) (before : s.insInPlace s.cur x.stamp = true)
  (read : x.lost = none) (sound : s.badCapture x = none) (free : x.stays = [])
include only low xout admits waits due level before read sound free

theorem xout_capturable : s.capturable s.cur x = true := by
  have empty : s.core.egressHeld s.clock = 0 := by
    unfold Core.egressHeld
    rw [only, List.foldl_cons, List.foldl_nil, waits]
  have own : s.core.capturable (s.scntOf (dieOf s.cur)) s.clock (s.carried s.cur x).length x = true := by
    have reached : x.stamp ≤ s.scntOf (dieOf s.cur) := due
    unfold Core.capturable
    simp [xout, admits, waits, reached, level, empty]
  unfold State.capturable
  rw [before, Bool.and_true]
  exact own

theorem carried_eq : s.carried s.cur x = s.capture x := by
  have clear : ¬(x.lost.isSome = true ∨ (s.badCapture x).isSome = true) := by
    rw [read, sound]
    decide
  refine (if_neg clear).trans ?_
  rw [free]
  exact List.filter_eq_self.2 fun _ _ => rfl

/-- The core with its crossing captured. -/
def crossingCaptured (n : Nat) (bs : List (Nat × Byte)) (left due : Nat) (c : Core) : Core :=
  { c with xings := c.xings.map fun y => if y.seq = n then { y with captured := some bs, linkEnd := left, due := some due } else y }

theorem exec_xoutCapture_captures : ∃ d t, exec (.xoutCapture (BitVec.ofNat 32 x.seq)) s = .next ({ s with drawn := d }.modCore
    (crossingCaptured x.seq (s.capture x) (s.clock + (s.capture x).length) (s.clock + (s.capture x).length + 16 * t))) := by
  have can := xout_capturable only low xout admits waits due level before read sound free
  have bytes := carried_eq only low xout admits waits due level before read sound free
  have met : s.meetCapture x = s := by
    unfold State.meetCapture
    rw [read, sound]
  have busy : s.core.xings.foldl (fun n y => if y.kind = 2 ∧ y.captured.isSome then max n y.linkEnd else n) s.clock = s.clock := by
    rw [only, List.foldl_cons, List.foldl_nil, waits, if_neg fun h => Bool.false_ne_true h.2]
  refine ⟨s.drawn + 1, (s.draw 4095).1, ?_⟩
  rw [exec_xoutCapture, execXoutCapture, crossing_found only low (p := s.capturable s.cur) can]
  dsimp only
  rw [bytes, met, busy]
  rfl

end

/-! ## Unit stalls (R142, R172) -/

/-- The tasks that run on die `d` count a stall. -/
def stallCounted (d k : Nat) (c : Core) : Core := if dieOf k = d ∧ c.run.isSome then { c with stallCnt := c.stallCnt + 1 } else c

theorem exec_unitStall_late {s : State} (late : s.dieLate (dieOf s.cur) = true) : ∃ t, exec .unitStall s = .next t ∧
    (t.dieAt (dieOf s.cur)).stalled = true ∧ t.mem = s.mem ∧ t.clock = s.clock ∧ t.cur = s.cur ∧
    ∀ k, t.coreAt k = stallCounted (dieOf s.cur) k (s.coreAt k) := by
  have form (x : Nat × Core) : (if dieOf x.1 = dieOf s.cur ∧ x.2.run.isSome then (x.1, { x.2 with stallCnt := x.2.stallCnt + 1 }) else x) =
      (x.1, stallCounted (dieOf s.cur) x.1 x.2) := by
    unfold stallCounted
    split <;> rfl
  rw [exec_unitStall, execUnitStall]
  dsimp only
  rw [if_pos late]
  refine ⟨_, rfl, ?_, rfl, rfl, rfl, fun k => ?_⟩
  · exact (congrArg Die.stalled (get_put_self (d := {}) (m := s.dies) (k := dieOf s.cur) ..) :)
  · simp only [form]
    exact get_map_at (Core.atReset k) (stallCounted (dieOf s.cur)) s.cores k (if_neg fun h => Bool.false_ne_true h.2)

theorem exec_unitStall_through {s : State} (late : s.dieLate (dieOf s.cur) = false) :
    exec .unitStall s = .next (s.modDieAt (dieOf s.cur) fun x => { x with stalled := false, stallAt := none }) := by
  rw [exec_unitStall, execUnitStall]
  exact if_neg (by rw [late]; exact Bool.false_ne_true)

theorem exec_smiss_early {s : State} (going : s.stallOver = false) : exec .smiss s = .next s := by
  rw [exec_smiss, execSmiss]
  exact if_pos (.inl (by rw [going]; rfl))

/-! ## A late crossing traps (R142) -/

theorem settleLoads_kept (c : Core) (warm : Nat) : (c.settleLoads warm).inHandler = c.inHandler ∧ (c.settleLoads warm).xings = c.xings := by
  have all (rs : List Returning) (x : Core) : (rs.foldl (fun x r => x.setCluster r.lane (((x.cluster r.lane).wg r.d r.value).setBusy (.g r.d) (some warm))) x).inHandler =
      x.inHandler ∧ (rs.foldl (fun x r => x.setCluster r.lane (((x.cluster r.lane).wg r.d r.value).setBusy (.g r.d) (some warm))) x).xings = x.xings := by
    induction rs generalizing x with
    | nil => exact ⟨rfl, rfl⟩
    | cons r rest ih =>
      obtain ⟨h, g⟩ := ih (x.setCluster r.lane (((x.cluster r.lane).wg r.d r.value).setBusy (.g r.d) (some warm)))
      exact ⟨h.trans (setCluster_inHandler ..), g.trans (setCluster_xings ..)⟩
  exact all _ _

/-- The handler entered from outside one, whatever loads have yet to return. -/
theorem enterHandler_law {s : State} (outside : s.core.inHandler = false) {cause : Nat} (small : cause < 2 ^ 64) (addr : Word) (fw : Nat) :
    (s.enterHandler cause addr fw).core.inHandler = true ∧ (s.enterHandler cause addr fw).core.xings = s.core.xings ∧
    (s.enterHandler cause addr fw).core.areaNat 0 8 = cause := by
  obtain ⟨delay, s0, settled, scnt, pod, entered⟩ := enterHandler_eq s cause addr fw
  obtain ⟨inside, xings⟩ := settleLoads_kept s.core s.warm
  have open_ : s0.core.inHandler = false := by rw [settled, inside, outside]
  have core : (s.enterHandler cause addr fw).core = beginHandler s delay s0.core (savedCore s0 cause addr fw) := by
    rw [entered, core_modCore, savedCore, open_, outside]
  obtain ⟨recs, s1, s2, frame⟩ := savedCore_frame s0 cause addr fw
  rw [core]
  refine ⟨rfl, ?_, ?_⟩
  · have kept (c2 : Core) : (beginHandler s delay s0.core c2).xings = c2.xings := rfl
    rw [kept, frame]
    exact (congrArg Core.xings settled).trans xings
  · have record := savedCore_record s0 cause addr fw (p := 0) (n := 8) (by decide)
    rw [open_] at record
    rw [beginHandler_area]
    exact record.trans (record_cause s0 cause addr fw small)

theorem withoutCrossing_inHandler (n p : Nat) (mirrored : Prop) [Decidable mirrored] (c : Core) :
    (withoutCrossing n p mirrored c).inHandler = c.inHandler := by
  unfold withoutCrossing
  dsimp only
  split_ifs <;> rfl

/-- Starts taken out of the engine command queue and the engines. -/
def withoutStarts (keep : QEntry → Bool) (held : Nat × Nat × Word → Bool) (c : Core) : Core :=
  engines.foldl (fun c e => c.modEngine e fun x => { x with start := x.start.filter held }) { c with eq := c.eq.filter keep }

theorem withoutStarts_kept (keep : QEntry → Bool) (held : Nat × Nat × Word → Bool) (c : Core) :
    (withoutStarts keep held c).inHandler = c.inHandler ∧ (withoutStarts keep held c).xings = c.xings := ⟨rfl, rfl⟩

/-- A late core without crossings left traps. -/
theorem smiss_entered {s : State} {keep : QEntry → Bool} {held : Nat × Nat × Word → Bool} {f : Core → Core} (outside : (f s.core).inHandler = false)
    (gone : (f s.core).xings = []) (addr : Word) :
    let t := ((s.modCore f).modCore (withoutStarts keep held)).takeTrap (causeOf 3 0 0x1A) addr 0
    t.core.inHandler = true ∧ t.core.xings = [] ∧ t.core.areaNat 0 8 = 3 * 2 ^ 14 + 0x1A := by
  have core : ((s.modCore f).modCore (withoutStarts keep held)).core = withoutStarts keep held (f s.core) := by rw [core_modCore, core_modCore]
  obtain ⟨inside, xings⟩ := withoutStarts_kept keep held (f s.core)
  have open_ : ((s.modCore f).modCore (withoutStarts keep held)).core.inHandler = false := by rw [core, inside, outside]
  obtain ⟨handler, left, cause⟩ := enterHandler_law open_ (cause := causeOf 3 0 0x1A) (by decide) addr 0
  dsimp only
  rw [takeTrap_outside open_]
  exact ⟨handler, left.trans (by rw [core, xings, gone]), cause⟩

section
variable {s : State} {x : Crossing} (over_ : s.stallOver = true) (runs : s.core.run ≠ none) (outside : s.core.inHandler = false)
  (only : s.core.xings = [x]) (level : x.level = 0) (due : x.stamp ≤ s.scnt) (single : s.core.nested = false) (xin : x.kind = 0) (early : x.admitted = false)
include over_ runs outside only level due single xin early

theorem exec_smiss_traps : ∃ t, exec .smiss s = .next t ∧ t.core.inHandler = true ∧ t.core.xings = [] ∧ t.core.areaNat 0 8 = 3 * 2 ^ 14 + 0x1A := by
  have flat : s.core.level = 0 := by
    unfold Core.level
    rw [single, outside]
    rfl
  have late : lateCrossing s.scnt s.core.level (s.capturable s.cur) (s.holdsStamp s.cur) x = true := by
    unfold lateCrossing State.holdsStamp
    rw [level, flat, xin]
    simp [due]
  have lateNow : s.core.lateNow s.scnt s.clock (s.capturable s.cur) (s.holdsStamp s.cur) = true := by
    unfold Core.lateNow
    rw [only, List.any_cons, late, Option.isSome_iff_ne_none.2 runs]
    rfl
  have lates : s.core.xings.filter (lateCrossing s.scnt s.core.level (s.capturable s.cur) (s.holdsStamp s.cur)) = [x] := by
    rw [only, List.filter_cons_of_pos late]
    rfl
  rw [exec_smiss, execSmiss]
  dsimp only
  rw [if_neg (by rw [over_, lateNow]; decide), lates]
  dsimp only
  rw [List.foldl_cons, List.foldl_nil, cancelCrossing_waiting only early]
  refine ⟨_, rfl, ?_⟩
  have gone := (withoutCrossing_leaves x.seq (if x.kind = 2 then 1 else 0) (x.kind = 2 ∧ s.mirrored x) s.core).1
  rw [only, List.filter_cons_of_neg (by simp), List.filter_nil] at gone
  have still := withoutCrossing_inHandler x.seq (if x.kind = 2 then 1 else 0) (x.kind = 2 ∧ s.mirrored x) s.core
  exact smiss_entered (still.trans outside) gone _

end

/-! ## The obligation -/

/-- An admitted crossing is charged and leaves its queue. -/
theorem exec_crossingAdmit_crossing {q : QueueId} {e : QEntry} {charge : Nat} {x : Crossing} {s : State} (ready : s.ready q = some e)
    (op : e.op = .crossing x.seq) (tested : s.testedCharge q e = some charge) (agrees : s.core.willMismatch = false) (only : s.core.xings = [x])
    (fits : s.core.heatAcc + s.core.heatAdm + charge ≤ s.core.heatBud) : ∃ t due early, exec (.crossingAdmit q) s = .next t ∧
      t.core.heatNow = s.core.heatNow + charge ∧ t.core.heatAdm = s.core.heatAdm + charge ∧
      (t.pkgAt (s.cur / 256)).posted = (s.pkgAt (s.cur / 256)).posted + charge ∧
      t.core.queue q = (s.core.queue q).filter (fun y => !decide (y.seq = e.seq)) ∧
      t.core.xings = [{ x with admitted := true, due := if x.kind = 2 then none else some due, early := if x.kind = 2 then none else some early }] ∧
      s.clock < early ∧ early ≤ due ∧ t.mem = s.mem ∧ t.core.cold = s.core.cold := by
  obtain ⟨core, mem, -⟩ := admitted_frame s charge
  have alone : (admitted s charge).core.xings = [x] := by rw [core]; exact only
  have posted : ((admitted s charge).pkgAt (s.cur / 256)).posted = (s.pkgAt (s.cur / 256)).posted + charge := (congrArg Pkg.posted (get_put_self ..) :)
  obtain ⟨due, early, xings, after, before, queue, now, adm, cold, kept, pkgs⟩ := admitCrossing_law alone q e
  have goes : exec (.crossingAdmit q) s = .next ((admitted s charge).admitCrossing q e x.seq) := by
    rw [exec_crossingAdmit_passes ready tested agrees (by rw [op]; rfl) fits, State.admitEntry, op]
  refine ⟨_, due, early, goes, ?_, ?_, ?_, ?_, xings, after, before, kept.trans mem, ?_⟩
  · rw [now, core]
  · rw [adm, core]
  · exact (congrArg (fun m => (Sp.get {} m (s.cur / 256)).posted) pkgs).trans posted
  · rw [queue, core]
    cases q <;> rfl
  · rw [cold, core]

/-- Settles O20: each act of a crossing is followed through the step that performs it. -/
theorem crossingsAreAdmittedAndComplete : Obligations.CrossingsAreAdmittedAndComplete := by
  unfold Obligations.CrossingsAreAdmittedAndComplete
  refine ⟨fun q e n charge x s _ ready op tested agrees _ only seq fits => ?_, fun q e charge s ready tested agrees fresh idle beyond => ?_,
    fun x s only low admits => ⟨exec_crossingComplete_early only low admits, exec_crossingComplete_own only low admits,
      fun key v => exec_crossingComplete_xout only low admits⟩,
    fun x s unread free plain bare whole unarmed valid _ => ?_,
    fun x s only low xout admits waits due level before read sound free => ?_,
    fun s => ⟨fun late => ?_, exec_unitStall_through, exec_smiss_early,
      fun x over_ runs outside only level due single xin early => exec_smiss_traps over_ runs outside only level due single xin early⟩⟩
  · subst seq
    exact exec_crossingAdmit_crossing ready op tested agrees only fits
  · obtain ⟨xings, now, cold⟩ := heldEntry_kept q e s.window s.core
    have core := core_modCore s (heldEntry q e s.window)
    refine ⟨_, exec_crossingAdmit_held ready tested agrees fresh idle beyond, rfl, ?_, ?_, ?_, ?_⟩
    · rw [core, xings]
    · rw [core, now]
    · rw [core, cold]
    · rw [core, heldEntry_queue]
  · obtain ⟨f, delivered, h⟩ := deliver_own unread free unarmed
    obtain ⟨placed, others⟩ := delivered_bytes unread free unarmed whole plain bare valid
    have cluster (l : Lane) : (s.deliver s.cur s.cur x fun _ => true).core.cluster l = s.core.cluster l := by rw [delivered, core_modCore, h.cluster]
    have bank : ((x.cold).extractLsb' 19 4).toNat = bits x.cold 19 4 := (bits_eq_extractLsb' ..).symm
    have base : ((x.cold).extractLsb' 0 19).toNat = bits x.cold 0 19 := (bits_eq_extractLsb' ..).symm
    dsimp only
    rw [bank, base]
    exact ⟨placed, others, rfl, fun k other => coreAt_modCoreAt_other _ _ other, cluster⟩
  · obtain ⟨d, t, captures⟩ := exec_xoutCapture_captures only low xout admits waits due level before read sound free
    have core := core_modCore { s with drawn := d } (crossingCaptured x.seq (s.capture x) (s.clock + (s.capture x).length)
      (s.clock + (s.capture x).length + 16 * t))
    refine ⟨_, s.clock + (s.capture x).length + 16 * t, captures, ?_, Nat.le_add_right .., rfl, ?_, ?_⟩
    · rw [core, crossingCaptured]
      have alone : ({ s with drawn := d } : State).core.xings = [x] := only
      simp only [alone, List.map_cons, List.map_nil, if_pos]
    · rw [core]
      rfl
    · rw [core]
      rfl
  · obtain ⟨t, step, stalled, mem, clock, cur, cores⟩ := exec_unitStall_late late
    refine ⟨t, step, stalled, mem, clock, fun r run => ?_, fun k other => ?_⟩
    · have own : t.core = stallCounted (dieOf s.cur) s.cur s.core := by
        unfold State.core
        rw [cur]
        exact cores s.cur
      rw [own, stallCounted, if_pos ⟨rfl, by rw [run]; rfl⟩]
    · rw [cores k, stallCounted, if_neg fun h => other h.1]

end Sys2Proof.Proofs
end

section
/-! # O47: launch records are admitted (R361, R363 to R367, R369, R371) -/

namespace Sys2Proof.Proofs

open Sys2Proof.Machine Sys2Proof.Laws

/-! ## Queues (R361, R366) -/

/-- What is put under a number is the first thing found under it. -/
theorem find_put {α : Type} (m : Sp α) (k : Nat) (v : α) : (Sp.put m k v).find? (fun x => decide (x.1 = k)) = some (k, v) := by
  induction m with
  | nil => exact List.find?_cons_of_pos (decide_eq_true rfl)
  | cons x rest ih =>
    obtain ⟨j, w⟩ := x
    unfold Sp.put
    split_ifs with below here
    · exact List.find?_cons_of_pos (decide_eq_true rfl)
    · exact List.find?_cons_of_pos (decide_eq_true rfl)
    · refine (List.find?_cons_of_neg ?_).trans ih
      simp only [decide_eq_true_eq]
      omega

section
variable {part queue : Nat} {q : LaunchQueue} {s : State} (registered : (s.partAt part).queue? queue = some q)
  {want : State → LaunchQueue → BitVec 1024 → Bool} {go : State → LaunchQueue → BitVec 1024 → State}
include registered

theorem takeRecord_stopped (stopped : q.stopped = true) : s.takeRecord part queue want go = .next s := by
  unfold State.takeRecord
  rw [registered]
  exact if_pos stopped

theorem takeRecord_bad (runs : q.stopped = false) (bad : s.headerOk part q.h = false) :
    s.takeRecord part queue want go = .next (s.stopQueue part queue q) := by
  unfold State.takeRecord
  rw [registered]
  exact (if_neg (by rw [runs]; exact Bool.false_ne_true)).trans (if_pos (by rw [bad]; rfl))

variable (runs : q.stopped = false) (ok : s.headerOk part q.h = true)
include runs ok

theorem takeRecord_behind (behind : s.queueFirst part (s.partAt part).queues (queue, q) = false) : s.takeRecord part queue want go = .next s := by
  unfold State.takeRecord
  rw [registered]
  exact (if_neg (by rw [runs]; exact Bool.false_ne_true)).trans ((if_neg (by rw [ok]; exact Bool.false_ne_true)).trans (if_pos (by rw [behind]; rfl)))

theorem takeRecord_takes {r : BitVec 1024} {head : Nat} (next : s.nextRecord part q queue = some (r, head))
    (first : s.queueFirst part (s.partAt part).queues (queue, q) = true) : s.takeRecord part queue want go =
      if want s q r then .next (go (s.writeAt part (q.h + 8) (leBytes 8 (head + 1))) q r) else .next s := by
  unfold State.takeRecord
  rw [registered]
  refine (if_neg (by rw [runs]; exact Bool.false_ne_true)).trans ((if_neg (by rw [ok]; exact Bool.false_ne_true)).trans
    ((if_neg (by rw [first]; exact Bool.false_ne_true)).trans ?_))
  rw [next]

end

section
variable {part queue : Nat} {q : LaunchQueue} {s : State}

theorem stopQueue_law : ((s.stopQueue part queue q).partAt part).queue? queue = some { q with stopped := true } ∧
    (s.stopQueue part queue q).mem = s.mem := by
  constructor
  · have parts : (s.stopQueue part queue q).parts =
        (s.modPartAt part fun p => { p with queues := Sp.put p.queues queue { q with stopped := true } }).parts := tell_parts ..
    have here : (s.stopQueue part queue q).partAt part =
        (s.modPartAt part fun p => { p with queues := Sp.put p.queues queue { q with stopped := true } }).partAt part :=
      (congrArg (fun m => Sp.get _ m part) parts :)
    rw [here, partAt_modPartAt_self]
    exact congrArg (Option.map (·.2)) (find_put ..)
  · exact logStructure_mem ..

theorem queueFirst_empty (none : s.nextRecord part q queue = none) (ok : s.headerOk part q.h = true) :
    s.queueFirst part (s.partAt part).queues (queue, q) = false := by
  have rank : s.queueRank part (queue, q) = Option.none := by
    unfold State.queueRank
    dsimp only
    rw [none, ok]
    split <;> rfl
  unfold State.queueFirst
  rw [rank]

theorem queueRank_of_next {x : Nat × LaunchQueue} {r : BitVec 1024} {head : Nat} (runs : x.2.stopped = false) (ok : s.headerOk part x.2.h = true)
    (next : s.nextRecord part x.2 x.1 = some (r, head)) :
    s.queueRank part x = some (16 - recField r 0x1E 1 % 16, s.readAt part x.2.h 8) := by
  unfold State.queueRank
  rw [runs, ok, next]
  rfl

/-- A queue of the package whose record has the higher PRIO goes ahead. -/
theorem queueFirst_behind {r : BitVec 1024} {head : Nat} (runs : q.stopped = false) (ok : s.headerOk part q.h = true)
    (next : s.nextRecord part q queue = some (r, head)) (ahead : ∃ y ∈ (s.partAt part).queues, y.2.pkg = q.pkg ∧ y.2.stopped = false ∧
      s.headerOk part y.2.h = true ∧ ∃ r' h', s.nextRecord part y.2 y.1 = some (r', h') ∧ recField r 0x1E 1 % 16 < recField r' 0x1E 1 % 16) :
    s.queueFirst part (s.partAt part).queues (queue, q) = false := by
  obtain ⟨y, listed, pkg, yruns, yok, r', h', ynext, higher⟩ := ahead
  unfold State.queueFirst
  rw [queueRank_of_next (x := (queue, q)) runs ok next, List.all_eq_false]
  refine ⟨y, listed, ?_⟩
  rw [queueRank_of_next yruns yok ynext]
  have below : recField r' 0x1E 1 % 16 < 16 := Nat.mod_lt _ (by decide)
  simp only [pkg, ne_eq, not_true, decide_false, Bool.false_or, Bool.or_eq_true, Bool.and_eq_true, decide_eq_true_eq]
  omega

end

/-! ## The checks in their order (R365) -/

/-- The number of the first check that fails, counted from `n`, or 0. -/
def firstCode : Nat → List Bool → Nat
  | _, [] => 0
  | n, b :: rest => if b then n else firstCode (n + 1) rest

theorem rejectCode_eq (part pkg : Nat) (r : BitVec 1024) (s : State) : s.rejectCode part pkg r = firstCode 1 [!formatOk r, !s.handlesOk part r,
    decide (recField r 0x18 4 < 4096 ∨ 524288 < recField r 0x18 4 ∨ recField r 0x18 4 % 4096 ≠ 0),
    decide (recField r 0x1C 1 = 0 ∨ 48 < recField r 0x1C 1),
    decide (4096 < recField r 0x20 8 % 2 ^ 13 ∨ 4096 < recField r 0x20 8 / 2 ^ 13 % 2 ^ 13 ∨ 512 < recField r 0x20 8 / 2 ^ 26 % 2 ^ 10),
    decide (recField r 0x1D 1 = 0 ∨ 2 < recField r 0x1D 1), !s.imageFits part r,
    decide (recField r 0x1F 1 = 4 ∧ recField r 0x3C 4 = 0 ∨ recField r 0x38 4 ≠ 0 ∧ recField r 0x28 2 ≠ recField r 0x2C 2),
    !s.graphOk part pkg r, decide ((s.partAt part).prioCeil < recField r 0x1E 1),
    decide ((s.grant part pkg r fun _ => true).1.length < recField r 0x28 2), (s.grantsOk part r).isNone] := by
  unfold State.rejectCode
  dsimp only
  generalize recField r 0x18 4 = a
  generalize recField r 0x1C 1 = b
  generalize recField r 0x20 8 = c
  generalize recField r 0x1D 1 = d
  generalize recField r 0x38 4 = e
  simp only [firstCode, decide_eq_true_eq]

theorem firstCode_skip {n : Nat} {b : Bool} {bs : List Bool} (passes : b = false) : firstCode n (b :: bs) = firstCode (n + 1) bs :=
  if_neg (by rw [passes]; exact Bool.false_ne_true)

theorem firstCode_stop {n : Nat} {b : Bool} {bs : List Bool} (fails : b = true) : firstCode n (b :: bs) = n := if_pos fails

/-- A record that passes every check passes each. -/
theorem firstCode_zero {n : Nat} {bs : List Bool} (pos : 0 < n) (zero : firstCode n bs = 0) : ∀ b ∈ bs, b = false := by
  induction bs generalizing n with
  | nil => intro b hb; exact absurd hb List.not_mem_nil
  | cons c rest ih =>
    unfold firstCode at zero
    cases c
    · rw [if_neg Bool.false_ne_true] at zero
      intro b hb
      rcases List.mem_cons.1 hb with rfl | hb
      · rfl
      · exact ih (Nat.succ_pos n) zero b hb
    · rw [if_pos rfl] at zero
      omega

/-! ## Submission (R363, R365) -/

section
variable {part queue pkg : Nat} {r : BitVec 1024} {s : State}

theorem submit_rejected (code : s.rejectCode part pkg r ≠ 0) : s.submit part queue pkg r 0 none =
    s.complete part queue (completionBytes (recField r 0x60 4) 1 (s.rejectCode part pkg r) 0 0 0) := by
  unfold State.submit
  exact if_pos code

theorem submit_replay (code : s.rejectCode part pkg r = 0) (replay : isReplay r = true) :
    s.submit part queue pkg r 0 none = s.startReplayOf part queue pkg r 0 none := by
  unfold State.submit
  exact (if_neg fun h => h code).trans (if_pos replay)

theorem submit_definition (code : s.rejectCode part pkg r = 0) (plain : isReplay r = false) (defines : isDef r = true) :
    (∃ n, ((s.submit part queue pkg r 0 none).partAt part).nodes = (s.partAt part).nodes ++ [n] ∧ n.record = r) ∧
      ((s.submit part queue pkg r 0 none).partAt part).launches = (s.partAt part).launches := by
  have stored : s.submit part queue pkg r 0 none = s.modPartAt part fun p => { p with nodes := p.nodes ++
      [{ pkg := pkg, graph := BitVec.ofNat 32 (recField r 0x3C 4), node := BitVec.ofNat 32 (recField r 0x40 4), record := r }] } := by
    unfold State.submit
    exact (if_neg fun h => h code).trans ((if_neg (by rw [plain]; exact Bool.false_ne_true)).trans (if_pos defines))
  rw [stored, partAt_modPartAt_self]
  exact ⟨⟨_, rfl, rfl⟩, rfl⟩

/-- A launch waits where its package is hot (R457). -/
theorem submit_waits (code : s.rejectCode part pkg r = 0) (plain : isDef r = false) (single : isReplay r = false) (hot : (s.pkgAt pkg).hot = true)
    (fresh : ∀ l ∈ (s.partAt part).launches, l.id ≠ (s.partAt part).launchNo) :
    ∃ l, ((s.submit part queue pkg r 0 none).partAt part).launches = (s.partAt part).launches ++ [l] ∧ l.record = r ∧ l.state = .waiting ∧
      s.grantsOk part r = some l.grants ∧ (s.submit part queue pkg r 0 none).cores = s.cores := by
  obtain ⟨gs, granted⟩ : ∃ gs, s.grantsOk part r = some gs := by
    have passes : (s.grantsOk part r).isNone = false := firstCode_zero Nat.one_pos ((rejectCode_eq part pkg r s).symm.trans code) _ (by simp)
    exact Option.isSome_iff_exists.1 (by simpa using passes)
  let l : Launch := { id := (s.partAt part).launchNo, queue := queue, pkg := pkg, record := r, args := word (recField r 0x08 8), payload := 0, arm := none,
                      grants := gs }
  have entered : s.submit part queue pkg r 0 none = (s.enterLaunch part l).tryBind part l.id := by
    unfold State.submit
    refine (if_neg fun h => h code).trans ((if_neg (by rw [single]; exact Bool.false_ne_true)).trans
      ((if_neg (by rw [plain]; exact Bool.false_ne_true)).trans ?_))
    rw [granted]
    rfl
  have found : ((s.enterLaunch part l).partAt part).launch l.id = some l := by
    have listed : ((s.enterLaunch part l).partAt part).launches = (s.partAt part).launches ++ [l] := congrArg Part.launches (partAt_modPartAt_self ..)
    unfold Part.launch
    rw [listed, List.find?_append, List.find?_eq_none.2 fun x hx => by simpa using fresh x hx, Option.none_or]
    exact List.find?_cons_of_pos (decide_eq_true rfl)
  have waits : (s.enterLaunch part l).tryBind part l.id = s.enterLaunch part l := by
    unfold State.tryBind
    rw [found]
    exact if_pos (.inr hot)
  rw [entered, waits]
  exact ⟨l, congrArg Part.launches (partAt_modPartAt_self ..), rfl, rfl, granted, rfl⟩

end

/-! ## The codes (R365) -/

section
variable (part pkg : Nat) (r : BitVec 1024) (s : State)

theorem rejectCode_format (bad : formatOk r = false) : s.rejectCode part pkg r = 1 := by
  rw [rejectCode_eq, bad]
  rfl

theorem rejectCode_handle (ok : formatOk r = true) (bad : s.handlesOk part r = false) : s.rejectCode part pkg r = 2 := by
  rw [rejectCode_eq, ok, bad]
  rfl

/-- The kernel's image asks for more than the record grants. -/
theorem imageFits_iff : s.imageFits part r = false ↔ ∃ k, (s.partAt part).kernelOf (BitVec.ofNat 64 (recField r 0 8)) = some k ∧
    (recField r 0x20 8 % 2 ^ 13 < k.matSteps ∨ recField r 0x20 8 / 2 ^ 13 % 2 ^ 13 < k.vecOrders ∨ recField r 0x20 8 / 2 ^ 26 % 2 ^ 10 < k.tmpOrders ∨
      recField r 0x28 2 < k.minCores ∨ recField r 0x2A 2 % max k.multCores 1 ≠ 0) := by
  have same : (s.partAt part).kernelOf (word (recField r 0 8)) = (s.partAt part).kernelOf (BitVec.ofNat 64 (recField r 0 8)) := rfl
  unfold State.imageFits
  rw [same]
  cases (s.partAt part).kernelOf (BitVec.ofNat 64 (recField r 0 8)) with
  | none => simp
  | some k =>
    simp only [Option.some.injEq, exists_eq_left', Bool.and_eq_false_iff, decide_eq_false_iff_not, not_le]
    tauto

theorem graphOk_iff : s.graphOk part pkg r = false ↔
    (∃ n ∈ predsOf r, (s.partAt part).nodeOf pkg (recField r 0x3C 4) n = none) ∨
    isDef r = true ∧ (s.partAt part).nodeOf pkg (recField r 0x3C 4) (recField r 0x40 4) ≠ none ∨
    isReplay r = true ∧ ∀ n ∈ (s.partAt part).nodes, n.pkg = pkg → n.graph.toNat ≠ recField r 0x3C 4 := by
  unfold State.graphOk isDef isReplay
  simp only [Bool.and_eq_false_iff, List.all_eq_false, Bool.or_eq_false_iff, Bool.not_eq_false', decide_eq_true_eq, List.any_eq_false,
    Bool.and_eq_true, not_and, Option.not_isSome, Option.isNone_iff_eq_none, Option.isNone_eq_false_iff, Option.isSome_iff_ne_none, ne_eq, not_not]
  exact or_assoc

/-- The codes from 3 on, for a record whose format and handles hold. -/
theorem rejectCode_rest (ok : formatOk r = true) (handles : s.handlesOk part r = true) :
    let f := recField r
    let osq := f 0x20 8
    let image := ∃ k, (s.partAt part).kernelOf (BitVec.ofNat 64 (f 0 8)) = some k ∧ (osq % 2 ^ 13 < k.matSteps ∨
      osq / 2 ^ 13 % 2 ^ 13 < k.vecOrders ∨ osq / 2 ^ 26 % 2 ^ 10 < k.tmpOrders ∨ f 0x28 2 < k.minCores ∨ f 0x2A 2 % max k.multCores 1 ≠ 0)
    let node := (s.partAt part).nodeOf pkg (f 0x3C 4)
    let graph := (∃ n ∈ predsOf r, node n = none) ∨ isDef r = true ∧ node (f 0x40 4) ≠ none ∨
      isReplay r = true ∧ ∀ n ∈ (s.partAt part).nodes, n.pkg = pkg → n.graph.toNat ≠ f 0x3C 4
    let scope := f 0x1F 1 = 4 ∧ f 0x3C 4 = 0 ∨ f 0x38 4 ≠ 0 ∧ f 0x28 2 ≠ f 0x2C 2
    let quota := 4096 < osq % 2 ^ 13 ∨ 4096 < osq / 2 ^ 13 % 2 ^ 13 ∨ 512 < osq / 2 ^ 26 % 2 ^ 10
    let shadow := f 0x1D 1 = 0 ∨ 2 < f 0x1D 1
    let prio := (s.partAt part).prioCeil < f 0x1E 1
    let cores := (s.grant part pkg r fun _ => true).1.length < f 0x28 2
    let size := f 0x18 4 < 4096 ∨ 524288 < f 0x18 4 ∨ f 0x18 4 % 4096 ≠ 0
    let tiles := f 0x1C 1 = 0 ∨ 48 < f 0x1C 1
    let code := s.rejectCode part pkg r
    (size → code = 3) ∧ (¬size → tiles → code = 4) ∧ (¬size → ¬tiles →
      (quota → code = 5) ∧ (¬quota → shadow → code = 6) ∧ (¬quota → ¬shadow → image → code = 7) ∧
      (¬quota → ¬shadow → ¬image → scope → code = 8) ∧ (¬quota → ¬shadow → ¬image → ¬scope → graph → code = 9) ∧
      (¬quota → ¬shadow → ¬image → ¬scope → ¬graph → prio → code = 10) ∧ (¬quota → ¬shadow → ¬image → ¬scope → ¬graph → ¬prio → cores → code = 11) ∧
      (¬quota → ¬shadow → ¬image → ¬scope → ¬graph → ¬prio → ¬cores → code = if s.grantsOk part r = none then 12 else 0)) := by
  have eq := rejectCode_eq part pkg r s
  have image := imageFits_iff part r s
  have graph := graphOk_iff part pkg r s
  have fits (h : ¬(s.imageFits part r = false)) : s.imageFits part r = true := Bool.eq_true_of_not_eq_false h
  have placed (h : ¬(s.graphOk part pkg r = false)) : s.graphOk part pkg r = true := Bool.eq_true_of_not_eq_false h
  rw [ok, handles] at eq
  dsimp only
  rw [← image, ← graph]
  generalize s.rejectCode part pkg r = code at eq
  have past2 := eq.trans ((firstCode_skip rfl).trans (firstCode_skip rfl))
  have past3 size := past2.trans (firstCode_skip (decide_eq_false size))
  have past4 size tiles := (past3 size).trans (firstCode_skip (decide_eq_false tiles))
  have past5 size tiles quota := (past4 size tiles).trans (firstCode_skip (decide_eq_false quota))
  have past6 size tiles quota shadow := (past5 size tiles quota).trans (firstCode_skip (decide_eq_false shadow))
  have past7 size tiles quota shadow image := (past6 size tiles quota shadow).trans (firstCode_skip (congrArg not (fits image)))
  have past8 size tiles quota shadow image scope := (past7 size tiles quota shadow image).trans (firstCode_skip (decide_eq_false scope))
  have past9 size tiles quota shadow image scope graph := (past8 size tiles quota shadow image scope).trans (firstCode_skip (congrArg not (placed graph)))
  have past10 size tiles quota shadow image scope graph prio :=
    (past9 size tiles quota shadow image scope graph).trans (firstCode_skip (decide_eq_false prio))
  have past11 size tiles quota shadow image scope graph prio cores :=
    (past10 size tiles quota shadow image scope graph prio).trans (firstCode_skip (decide_eq_false cores))
  refine ⟨fun h => past2.trans (firstCode_stop (decide_eq_true h)), fun h3 h => (past3 h3).trans (firstCode_stop (decide_eq_true h)),
    fun h3 h4 => ⟨fun h => (past4 h3 h4).trans (firstCode_stop (decide_eq_true h)), fun h5 h => (past5 h3 h4 h5).trans (firstCode_stop (decide_eq_true h)),
      fun h5 h6 h => (past6 h3 h4 h5 h6).trans (firstCode_stop (congrArg not h)),
      fun h5 h6 h7 h => (past7 h3 h4 h5 h6 h7).trans (firstCode_stop (decide_eq_true h)),
      fun h5 h6 h7 h8 h => (past8 h3 h4 h5 h6 h7 h8).trans (firstCode_stop (congrArg not h)),
      fun h5 h6 h7 h8 h9 h => (past9 h3 h4 h5 h6 h7 h8 h9).trans (firstCode_stop (decide_eq_true h)),
      fun h5 h6 h7 h8 h9 h10 h => (past10 h3 h4 h5 h6 h7 h8 h9 h10).trans (firstCode_stop (decide_eq_true h)),
      fun h5 h6 h7 h8 h9 h10 h11 => (past11 h3 h4 h5 h6 h7 h8 h9 h10 h11).trans ?_⟩⟩
  cases s.grantsOk part r <;> rfl

/-- The spans of a grant list that breaks no clause, with their tasks. -/
def granted (spans : List (Option Nat)) (es : List (Word × Nat × Nat)) : List (Nat × Nat) :=
  (List.range es.length).map fun i => ((spans.getD i none).getD 0, ((es.map fun x => x.2.1).getD i 0))

theorem grantsOk_some {gs : List (Nat × Nat)} (ok : s.grantsOk part r = some gs) : ∃ es,
    (∀ x ∈ es, x.2.1 < recField r 0x28 2) ∧ (es.map fun x => s.spanAt part x.1).Nodup ∧
    (∀ x ∈ es, ∃ h, s.spanAt part x.1 = some h ∧ ((s.partAt part).token h).mode = .parked ∧ h ∉ (s.partAt part).listed) ∧
    gs = granted (es.map fun x => s.spanAt part x.1) es := by
  unfold State.grantsOk at ok
  cases list : s.grantList part r with
  | none => rw [list] at ok; cases ok
  | some es =>
    rw [list] at ok
    dsimp only at ok
    split at ok
    · next checks =>
      simp only [Bool.and_eq_true, List.all_eq_true, decide_eq_true_eq, List.forall_mem_map] at checks
      obtain ⟨⟨tasks, nodup⟩, spans⟩ := checks
      refine ⟨es, fun x hx => (tasks x hx).1, nodup, fun x hx => ?_, (Option.some.inj ok).symm⟩
      have good := spans x hx
      cases span : s.spanAt part x.1 with
      | none => rw [span] at good; exact absurd good Bool.false_ne_true
      | some h =>
        rw [span] at good
        simp only [Bool.and_eq_true, decide_eq_true_eq, Bool.not_eq_true', List.contains_eq_mem, decide_eq_false_iff_not] at good
        exact ⟨h, rfl, good⟩
    · cases ok

end

/-! ## Grant lists (R364) -/

theorem granted_eq (f : Word × Nat × Nat → Option Nat) (es : List (Word × Nat × Nat)) : granted (es.map f) es = es.map fun x => ((f x).getD 0, x.2.1) := by
  refine List.ext_getElem (by simp [granted]) fun i h1 h2 => ?_
  have inside : i < es.length := by simpa using h2
  simp [granted, inside]

theorem grantsOk_law {part : Nat} {r : BitVec 1024} {s : State} {gs : List (Nat × Nat)} (ok : s.grantsOk part r = some gs) : (gs.map (·.1)).Nodup ∧
    ∀ x ∈ gs, x.2 < recField r 0x28 2 ∧ ((s.partAt part).token x.1).mode = .parked ∧ x.1 ∉ (s.partAt part).listed := by
  obtain ⟨es, tasks, nodup, spans, rfl⟩ := grantsOk_some part r s ok
  rw [granted_eq]
  refine ⟨?_, fun x hx => ?_⟩
  · rw [List.map_map]
    have values : (es.map ((·.1) ∘ fun x => ((s.spanAt part x.1).getD 0, x.2.1))) = (es.map fun x => s.spanAt part x.1).map (·.getD 0) := by
      rw [List.map_map]
      rfl
    rw [values]
    refine nodup.map_on fun a ha b hb same => ?_
    obtain ⟨x, hx, rfl⟩ := List.mem_map.1 ha
    obtain ⟨y, hy, rfl⟩ := List.mem_map.1 hb
    obtain ⟨h, isx, -⟩ := spans x hx
    obtain ⟨k, isy, -⟩ := spans y hy
    rw [isx, isy] at same ⊢
    exact congrArg some same
  · obtain ⟨e, he, rfl⟩ := List.mem_map.1 hx
    obtain ⟨h, is, parked, free⟩ := spans e he
    dsimp only
    rw [is]
    exact ⟨tasks e he, parked, free⟩

theorem grantsOk_empty {part : Nat} {r : BitVec 1024} (s : State) (none : recField r 0x64 8 = 0) : s.grantsOk part r = some [] := by
  unfold State.grantsOk State.grantList
  rw [none]
  rfl

/-! ## Completion records (R362) -/

theorem leBytes_leNat {n : Nat} {bs : List Byte} (h : n ≤ bs.length) : leBytes n (leNat bs) = bs.take n := by
  refine List.ext_getElem (by simp [h]) fun i h1 h2 => ?_
  have hi : i < n := by simpa using h1
  have byte := leBytes_getD hi (leNat bs)
  rw [List.getD_eq_getElem _ _ h1] at byte
  rw [byte, List.getElem_take]
  refine BitVec.eq_of_toNat_eq ?_
  rw [BitVec.toNat_ofNat]
  exact (leNat_div_getD bs i).trans (congrArg BitVec.toNat (List.getD_eq_getElem _ _ (by omega)))

/-- A record that ends in the CRC-32 of what stands before it. -/
theorem crcAt_appended {body : List Byte} {n : Nat} (h : body.length = n) : crcAt (leNat (body ++ leBytes 4 (crc32 body).toNat)) 0 n n = true := by
  have all : leBytes n (leNat (body ++ leBytes 4 (crc32 body).toNat)) = body := by
    rw [leBytes_leNat (by simp [h]), ← h, List.take_left']
    rfl
  have stored : leNat (body ++ leBytes 4 (crc32 body).toNat) / 2 ^ (8 * n) = (crc32 body).toNat := by
    have small := leNat_lt body
    rw [leNat_append, leNat_word32, h, show (256 : Nat) = 2 ^ 8 by rfl, ← Nat.pow_mul] at *
    rw [Nat.add_mul_div_left _ _ (Nat.two_pow_pos _), Nat.div_eq_of_lt small, Nat.zero_add]
  unfold crcAt
  rw [stored, Nat.mul_zero, Nat.pow_zero, Nat.div_one, all, Nat.mod_eq_of_lt (crc32 body).isLt]
  exact decide_eq_true rfl

theorem completionBytes_law (lid status cause ngrant replay node : Nat) : (completionBytes lid status cause ngrant replay node).length = 32 ∧
    crcAt (leNat (completionBytes lid status cause ngrant replay node)) 0 28 28 = true := by
  unfold completionBytes
  exact ⟨by simp, crcAt_appended (by simp)⟩

/-! ## Task numbers (R367) -/

theorem eraseDups_length_le (l : List Nat) : l.eraseDups.length ≤ l.length := by
  induction size : l.length using Nat.strong_induction_on generalizing l with
  | _ n ih =>
    cases l with
    | nil => exact Nat.zero_le n
    | cons a rest =>
      have fewer : (rest.filter fun b => !b == a).length ≤ rest.length := List.length_filter_le ..
      rw [List.length_cons] at size
      rw [List.eraseDups_cons, List.length_cons]
      have := ih _ (by omega) (rest.filter fun b => !b == a) rfl
      omega

theorem rankOf_law {x : Nat} {l : List Nat} (listed : x ∈ l) : rankOf x l < l.length ∧ l.eraseDups[rankOf x l]? = some x := by
  have kept : x ∈ l.eraseDups := List.mem_eraseDups.2 listed
  obtain ⟨i, found⟩ : ∃ i, l.eraseDups.findIdx? (fun y => decide (y = x)) = some i := by
    rw [← Option.isSome_iff_exists, List.findIdx?_isSome, List.any_eq_true]
    exact ⟨x, kept, decide_eq_true rfl⟩
  have here := List.findIdx?_eq_some_iff_getElem.1 found
  obtain ⟨inside, is, -⟩ := here
  have rank : rankOf x l = i := by rw [rankOf, found]; rfl
  rw [rank]
  refine ⟨Nat.lt_of_lt_of_le inside (eraseDups_length_le l), ?_⟩
  rw [List.getElem?_eq_getElem inside]
  exact congrArg some (of_decide_eq_true is)

theorem bindRecord_law {ks : List Nat} {i k : Nat} (part : Nat) (l : Launch) (s : State) (short : ks.length ≤ 256) (at_ : ks[i]? = some k) :
    let x := s.bindRecord part l ks i k
    x.coreId.toNat = i ∧ x.ncores.toNat = ks.length ∧ x.taskId = BitVec.ofNat 32 (recField l.record 0x34 4 + i) ∧
    (ks.map (· / 4)).eraseDups[x.quadId.toNat]? = some (k / 4) ∧ (ks.map (· / 64)).eraseDups[x.dieId.toNat]? = some (k / 64) := by
  obtain ⟨inside, -⟩ := List.getElem?_eq_some_iff.1 at_
  have listed : k ∈ ks := List.mem_of_getElem? at_
  obtain ⟨quad, isQuad⟩ := rankOf_law (List.mem_map_of_mem (f := (· / 4)) listed)
  obtain ⟨die, isDie⟩ := rankOf_law (List.mem_map_of_mem (f := (· / 64)) listed)
  rw [List.length_map] at quad die
  have byte {n : Nat} (h : n < ks.length) : (BitVec.ofNat 8 n).toNat = n := by
    rw [BitVec.toNat_ofNat]
    exact Nat.mod_eq_of_lt (by omega)
  refine ⟨byte inside, ?_, rfl, ?_, ?_⟩
  · exact (BitVec.toNat_ofNat ..).trans (Nat.mod_eq_of_lt (by omega))
  · exact (congrArg ((ks.map (· / 4)).eraseDups[·]?) (byte quad)).trans isQuad
  · exact (congrArg ((ks.map (· / 64)).eraseDups[·]?) (byte die)).trans isDie

/-! ## The shares of the dies (R366) -/

/-- Cores taken from the highest die down until `c` are taken: the dies below the last one that gives keep all they had. -/
theorem trimShares_four {a0 a1 a2 a3 c : Nat} (enough : c ≤ a0 + a1 + a2 + a3) : ∃ b0 b1 b2 b3 e, (trimShares c [a3, a2, a1, a0]).reverse = [b0, b1, b2, b3] ∧
    b0 + b1 + b2 + b3 = a0 + a1 + a2 + a3 - c ∧ (b0 ≤ a0 ∧ b1 ≤ a1 ∧ b2 ≤ a2 ∧ b3 ≤ a3) ∧
    (0 < e → b0 = a0) ∧ (1 < e → b1 = a1) ∧ (2 < e → b2 = a2) ∧ (3 < e → b3 = a3) ∧ (e < 1 → b1 = 0) ∧ (e < 2 → b2 = 0) ∧ (e < 3 → b3 = 0) := by
  refine ⟨_, _, _, _, if c ≤ a3 then 3 else if c ≤ a3 + a2 then 2 else if c ≤ a3 + a2 + a1 then 1 else 0, rfl, ?_⟩
  split_ifs <;> omega

/-! ## The cores of a grant (R366) -/

theorem filterMap_ite (f : Nat → Nat) (p : Nat → Bool) (l : List Nat) :
    (l.filterMap fun i => if p (f i) = true then some (f i) else none) = (l.map f).filter p := by
  induction l with
  | nil => rfl
  | cons i rest ih =>
    rw [List.map_cons, List.filterMap_cons, List.filter_cons, ih]
    cases p (f i) <;> rfl

section
variable (s : State) (part pkg : Nat) (r : BitVec 1024) (free : Nat → Bool)

/-- A core of the partition that is free; a quad's cores, and a die's. -/
def freeHere (c : Nat) : Bool := (s.partCores part pkg).getLsbD c && free (pkg * 256 + c)
def quadCores (d q : Nat) : List Nat := (List.range 4).map fun c => 64 * d + 4 * q + c
def dieCores (d : Nat) : List Nat := ((List.range 64).map (64 * d + ·)).filter fun c => (s.pkgAt pkg).enable.getLsbD c

/-- What a die has for a record: free cores, free quads, or the whole die. -/
def grantPool (d : Nat) : List Nat :=
  if recField r 0x1F 1 = 0 then (dieCores s pkg d).filter (freeHere s part pkg free)
  else if recField r 0x1F 1 = 1 then ((List.range 16).filter fun q => (quadCores d q).all (freeHere s part pkg free)).flatMap (quadCores d)
  else if (dieCores s pkg d).all (freeHere s part pkg free) then dieCores s pkg d else []

/-- The most a die gives: no more than the record asks of it. -/
def dieOffer (d : Nat) : Nat :=
  if recField r 0x1F 1 ≤ 1 then min (recField r (0x30 + d) 1) (grantPool s part pkg r free d).length
  else if 0 < recField r (0x30 + d) 1 then (grantPool s part pkg r free d).length else 0

def offers : List Nat := (List.range 4).map (dieOffer s part pkg r free)

/-- What all dies give: no more than TMAX, in whole units. -/
def grantCount : Nat :=
  min (recField r 0x2C 2) (offers s part pkg r free).sum - min (recField r 0x2C 2) (offers s part pkg r free).sum % max (recField r 0x2A 2) 1

def grantShares : List Nat :=
  if recField r 0x1F 1 ≤ 1 then (trimShares ((offers s part pkg r free).sum - grantCount s part pkg r free) (offers s part pkg r free).reverse).reverse
  else (dropDies (recField r 0x2C 2) (max (recField r 0x2A 2) 1) (offers s part pkg r free).reverse).reverse

theorem grant_eq : s.grant part pkg r free =
    (((List.range 4).flatMap fun d => (grantPool s part pkg r free d).take ((grantShares s part pkg r free).getD d 0)).map (pkg * 256 + ·),
      ((List.range 4).flatMap fun d => if recField r 0x1F 1 = 1 then ((grantPool s part pkg r free d).drop ((grantShares s part pkg r free).getD d 0)).take
        ((4 - (grantShares s part pkg r free).getD d 0 % 4) % 4) else []).map (pkg * 256 + ·)) := by
  unfold State.grant
  simp only [filterMap_ite]
  unfold grantShares grantCount offers dieOffer grantPool dieCores quadCores freeHere
  simp only [List.all_map]
  rfl

theorem offers_eq : offers s part pkg r free = [dieOffer s part pkg r free 0, dieOffer s part pkg r free 1, dieOffer s part pkg r free 2,
    dieOffer s part pkg r free 3] := rfl

/-- Cores or quads: the dies give in turn from the lowest, the last one a part. -/
theorem grant_shared (small : recField r 0x1F 1 ≤ 1) : ∃ (share : Nat → Nat) (e : Nat),
    ((List.range 4).map share).sum = grantCount s part pkg r free ∧
    (∀ d, d < 4 → share d ≤ dieOffer s part pkg r free d ∧ (d < e → share d = dieOffer s part pkg r free d) ∧ (e < d → share d = 0)) ∧
    (s.grant part pkg r free).1 = ((List.range 4).flatMap fun d => (grantPool s part pkg r free d).take (share d)).map (pkg * 256 + ·) ∧
    (s.grant part pkg r free).2 = if recField r 0x1F 1 = 1 then
      ((List.range 4).flatMap fun d => ((grantPool s part pkg r free d).drop (share d)).take ((4 - share d % 4) % 4)).map (pkg * 256 + ·) else [] := by
  have some : grantCount s part pkg r free ≤ (offers s part pkg r free).sum :=
    Nat.le_trans (Nat.sub_le ..) (Nat.min_le_right ..)
  have four : (offers s part pkg r free).sum = dieOffer s part pkg r free 0 + dieOffer s part pkg r free 1 + dieOffer s part pkg r free 2 +
      dieOffer s part pkg r free 3 := by
    rw [offers_eq]
    simp [Nat.add_assoc]
  obtain ⟨b0, b1, b2, b3, e, shares, sum, ⟨le0, le1, le2, le3⟩, f0, f1, f2, f3, z1, z2, z3⟩ := trimShares_four
    (a0 := dieOffer s part pkg r free 0) (a1 := dieOffer s part pkg r free 1) (a2 := dieOffer s part pkg r free 2) (a3 := dieOffer s part pkg r free 3)
    (c := (offers s part pkg r free).sum - grantCount s part pkg r free) (by omega)
  have given : grantShares s part pkg r free = [b0, b1, b2, b3] := by
    unfold grantShares
    rw [if_pos small]
    exact shares
  refine ⟨fun d => (grantShares s part pkg r free).getD d 0, e, ?_, fun d hd => ?_, congrArg Prod.fst (grant_eq ..), ?_⟩
  · rw [given]
    change b0 + (b1 + (b2 + (b3 + 0))) = _
    omega
  · rw [given]
    have cases : d = 0 ∨ d = 1 ∨ d = 2 ∨ d = 3 := by omega
    rcases cases with rfl | rfl | rfl | rfl
    · exact ⟨le0, f0, fun h => absurd h (Nat.not_lt_zero e)⟩
    · exact ⟨le1, f1, z1⟩
    · exact ⟨le2, f2, z2⟩
    · exact ⟨le3, f3, z3⟩
  · refine (congrArg Prod.snd (grant_eq ..)).trans ?_
    by_cases quads : recField r 0x1F 1 = 1
    · simp only [quads, if_true]
    · simp only [quads, if_false]
      rfl

/-- A die that is given whole. -/
def wholeDie (d : Nat) : List Nat :=
  if 0 < recField r (0x30 + d) 1 ∧ (dieCores s pkg d).all (freeHere s part pkg free) = true then dieCores s pkg d else []

theorem dieOffer_whole (large : 2 ≤ recField r 0x1F 1) (d : Nat) : dieOffer s part pkg r free d = (wholeDie s part pkg r free d).length := by
  unfold dieOffer grantPool wholeDie
  rw [if_neg (show ¬recField r 0x1F 1 ≤ 1 by omega), if_neg (show ¬recField r 0x1F 1 = 0 by omega), if_neg (show ¬recField r 0x1F 1 = 1 by omega)]
  by_cases asked : 0 < recField r (0x30 + d) 1
  · by_cases all : (dieCores s pkg d).all (freeHere s part pkg free) = true
    · rw [if_pos asked, if_pos all, if_pos ⟨asked, all⟩]
    · rw [if_pos asked, if_neg all, if_neg fun h => all h.2]
  · rw [if_neg asked, if_neg fun h => asked h.1]
    rfl

/-- A die's pool, taken whole or not at all. -/
theorem take_whole (large : 2 ≤ recField r 0x1F 1) (d : Nat) :
    (grantPool s part pkg r free d).take (wholeDie s part pkg r free d).length = wholeDie s part pkg r free d := by
  unfold grantPool wholeDie
  rw [if_neg (show ¬recField r 0x1F 1 = 0 by omega), if_neg (show ¬recField r 0x1F 1 = 1 by omega)]
  by_cases all : (dieCores s pkg d).all (freeHere s part pkg free) = true
  · by_cases asked : 0 < recField r (0x30 + d) 1
    · rw [if_pos all, if_pos ⟨asked, all⟩, List.take_length]
    · rw [if_neg fun h => asked h.1]
      rfl
  · rw [if_neg fun h => all h.2]
    rfl

/-- The dies that stay when whole dies are dropped, highest first, until what is left fits. -/
theorem dropDies_law (tmax u : Nat) (l : List Nat) : ∃ n, n ≤ l.length ∧ dropDies tmax u l = List.replicate n 0 ++ l.drop n ∧
    (l.drop n).sum ≤ tmax ∧ (l.drop n).sum % u = 0 ∧ ∀ m, m < n → tmax < (l.drop m).sum ∨ (l.drop m).sum % u ≠ 0 := by
  induction l with
  | nil => exact ⟨0, Nat.le_refl 0, rfl, Nat.zero_le tmax, Nat.zero_mod u, fun m hm => absurd hm (Nat.not_lt_zero m)⟩
  | cons a rest ih =>
    have sum : (a :: rest).sum = a + rest.sum := List.sum_cons
    by_cases over_ : tmax < a + rest.sum ∨ (a + rest.sum) % u ≠ 0
    · obtain ⟨n, le, is, fits, unit, before⟩ := ih
      refine ⟨n + 1, Nat.succ_le_succ le, ?_, fits, unit, fun m hm => ?_⟩
      · rw [dropDies, if_pos over_, is]
        rfl
      · cases m with
        | zero => rw [List.drop_zero, sum]; exact over_
        | succ m => exact before m (Nat.lt_of_succ_lt_succ hm)
    · refine ⟨0, Nat.zero_le _, ?_, ?_, ?_, fun m hm => absurd hm (Nat.not_lt_zero m)⟩
      · rw [dropDies, if_neg over_]
        rfl
      · rw [List.drop_zero, sum]
        omega
      · rw [List.drop_zero, sum]
        by_contra other
        exact over_ (.inr other)

/-- The cores of the lowest `n` dies that are given whole. -/
def wholeDies (n : Nat) : List Nat := (List.range n).flatMap (wholeDie s part pkg r free)

theorem wholeDies_succ (n : Nat) : wholeDies s part pkg r free (n + 1) = wholeDies s part pkg r free n ++ wholeDie s part pkg r free n := by
  unfold wholeDies
  rw [List.range_succ, List.flatMap_append, List.flatMap_singleton]

theorem offers_drop (large : 2 ≤ recField r 0x1F 1) {m : Nat} (hm : m ≤ 4) :
    ((offers s part pkg r free).reverse.drop m).sum = (wholeDies s part pkg r free (4 - m)).length := by
  have lengths : (wholeDies s part pkg r free 0).length = 0 ∧ (wholeDies s part pkg r free 1).length = dieOffer s part pkg r free 0 ∧
      (wholeDies s part pkg r free 2).length = dieOffer s part pkg r free 0 + dieOffer s part pkg r free 1 ∧
      (wholeDies s part pkg r free 3).length = dieOffer s part pkg r free 0 + dieOffer s part pkg r free 1 + dieOffer s part pkg r free 2 ∧
      (wholeDies s part pkg r free 4).length = dieOffer s part pkg r free 0 + dieOffer s part pkg r free 1 + dieOffer s part pkg r free 2 +
        dieOffer s part pkg r free 3 := by
    have start : (wholeDies s part pkg r free 0).length = 0 := rfl
    simp only [wholeDies_succ, List.length_append, dieOffer_whole s part pkg r free large, start, Nat.zero_add, and_self]
  obtain ⟨l0, l1, l2, l3, l4⟩ := lengths
  have cases : m = 0 ∨ m = 1 ∨ m = 2 ∨ m = 3 ∨ m = 4 := by omega
  rw [offers_eq]
  rcases cases with rfl | rfl | rfl | rfl | rfl
  · rw [l4]; simp; omega
  · rw [l3]; simp; omega
  · rw [l2]; simp; omega
  · rw [l1]; simp
  · rw [l0]; simp

/-- Whole dies: the lowest ones, as many as fit. -/
theorem grant_whole (large : 2 ≤ recField r 0x1F 1) : ∃ e, e ≤ 4 ∧ (wholeDies s part pkg r free e).length ≤ recField r 0x2C 2 ∧
    (wholeDies s part pkg r free e).length % max (recField r 0x2A 2) 1 = 0 ∧
    (∀ n, e < n → n ≤ 4 → recField r 0x2C 2 < (wholeDies s part pkg r free n).length ∨
      (wholeDies s part pkg r free n).length % max (recField r 0x2A 2) 1 ≠ 0) ∧
    (s.grant part pkg r free).1 = (wholeDies s part pkg r free e).map (pkg * 256 + ·) ∧ (s.grant part pkg r free).2 = [] := by
  obtain ⟨n, le, is, fits, unit, before⟩ := dropDies_law (recField r 0x2C 2) (max (recField r 0x2A 2) 1) (offers s part pkg r free).reverse
  have four : n ≤ 4 := le
  rw [offers_drop s part pkg r free large four] at fits unit
  refine ⟨4 - n, Nat.sub_le .., fits, unit, fun m hm hm4 => ?_, ?_, ?_⟩
  · have dropped := before (4 - m) (by omega)
    rw [offers_drop s part pkg r free large (Nat.sub_le ..), Nat.sub_sub_self hm4] at dropped
    exact dropped
  · have shares : grantShares s part pkg r free = (List.replicate n 0 ++ (offers s part pkg r free).reverse.drop n).reverse := by
      unfold grantShares
      rw [if_neg (by omega), is]
    have taken (d : Nat) : (grantPool s part pkg r free d).take (dieOffer s part pkg r free d) = wholeDie s part pkg r free d := by
      rw [dieOffer_whole s part pkg r free large, take_whole s part pkg r free large]
    have cases : n = 0 ∨ n = 1 ∨ n = 2 ∨ n = 3 ∨ n = 4 := by omega
    rw [grant_eq, shares, offers_eq]
    refine congrArg (List.map (pkg * 256 + ·)) ?_
    rcases cases with rfl | rfl | rfl | rfl | rfl <;> simp [wholeDies, List.range_succ, taken]
  · rw [grant_eq]
    simp only [if_neg (show ¬recField r 0x1F 1 = 1 by omega)]
    rfl

end

/-! ## Binding (R364, R367, R369, R371) -/

section
variable (s : State) (part : Nat) (l : Launch) (ks : List Nat)

/-- The bind record of the task with CORE_ID `i`, with the time of its first fetch. -/
def boundRecord (d i : Nat) : Slot := { s.bindRecord part l ks i (ks.getD i 0) with ready := s.clock + d }

/-- The cores with their bind records. -/
def recordsBound (d : Nat) (t : State) : State :=
  (List.range ks.length).foldl (fun x i => x.modCoreAt (ks.getD i 0) fun c => c.bind (boundRecord s part l ks d i) (recField l.record 0x1D 1)) t

/-- The rest of a last quad kept from other launches. -/
def sparesReserved (spare : List Nat) (t : State) : State := spare.foldl (fun t k => t.modCoreAt k fun c => { c with reserved := some (part, l.id) }) t

/-- The spans of a grant list moved to their tasks. -/
def spansMoved (spans : List (Nat × Nat)) (t : State) : State :=
  spans.foldl (fun t x => t.modToken part x.1 fun k => if k.mode = .parked then grantToken l.pkg x.2 l.id k else k) t

/-- A core that runs a task of lower priority is asked to make way. -/
def madeWay (t : State) (k : Nat) : State :=
  if (t.coreAt k).run.isSome ∧ ¬((t.coreAt k).slot.part = part ∧ (t.coreAt k).slot.launch = l.id) ∧ (t.coreAt k).slot.prio.toNat < l.prio
  then t.request k false else t

theorem bindLaunch_eq (spare : List Nat) (spans : List (Nat × Nat)) : ∃ d n, d ≤ 16368 ∧ s.bindLaunch part l ks spare spans =
    ks.foldl (madeWay part l) ((spansMoved part l spans (sparesReserved part l spare (recordsBound s part l ks d { s with drawn := n }))).modLaunch part l.id
      fun x => { x with state := .bound, ngrant := ks.length }) :=
  ⟨(s.draw (1023 * Config.coldPerWarm)).1, _, Nat.le_of_lt_succ (Nat.mod_lt _ (Nat.succ_pos _)), rfl⟩

theorem sparesReserved_law (spare : List Nat) (t : State) : (sparesReserved part l spare t).apart = t.apart ∧
    ∀ k, ((sparesReserved part l spare t).coreAt k).slot0 = (t.coreAt k).slot0 ∧ ((sparesReserved part l spare t).coreAt k).run = (t.coreAt k).run := by
  unfold sparesReserved
  induction spare generalizing t with
  | nil => exact ⟨rfl, fun k => ⟨rfl, rfl⟩⟩
  | cons j rest ih =>
    obtain ⟨apart, cores⟩ := ih (t.modCoreAt j fun c => { c with reserved := some (part, l.id) })
    have step (k : Nat) : ((t.modCoreAt j fun c => { c with reserved := some (part, l.id) }).coreAt k).slot0 = (t.coreAt k).slot0 ∧
        ((t.modCoreAt j fun c => { c with reserved := some (part, l.id) }).coreAt k).run = (t.coreAt k).run := by
      rw [coreAt_modCoreAt]
      split_ifs with here
      · rw [here]
        exact ⟨rfl, rfl⟩
      · exact ⟨rfl, rfl⟩
    exact ⟨apart, fun k => ⟨(cores k).1.trans (step k).1, (cores k).2.trans (step k).2⟩⟩

theorem spansMoved_law (spans : List (Nat × Nat)) (t : State) : (spansMoved part l spans t).cores = t.cores ∧ (spansMoved part l spans t).mem = t.mem ∧
    ((spansMoved part l spans t).partAt part).launches = (t.partAt part).launches := by
  unfold spansMoved
  induction spans generalizing t with
  | nil => exact ⟨rfl, rfl, rfl⟩
  | cons x rest ih =>
    obtain ⟨cores, mem, launches⟩ := ih (t.modToken part x.1 fun k => if k.mode = .parked then grantToken l.pkg x.2 l.id k else k)
    exact ⟨cores, mem, launches.trans (congrArg Part.launches (partAt_modPartAt_self t part _) :)⟩

/-- A span that no entry names stays. -/
theorem spansMoved_other {spans : List (Nat × Nat)} {h : Nat} (absent : h ∉ spans.map (·.1)) (t : State) :
    ((spansMoved part l spans t).partAt part).token h = (t.partAt part).token h := by
  unfold spansMoved
  induction spans generalizing t with
  | nil => rfl
  | cons x rest ih =>
    rw [List.map_cons, List.mem_cons, not_or] at absent
    exact (ih absent.2 _).trans ((token_modToken ..).trans (if_neg absent.1))

theorem spansMoved_token {spans : List (Nat × Nat)} (once : (spans.map (·.1)).Nodup) {x : Nat × Nat} (listed : x ∈ spans) (t : State) :
    ((spansMoved part l spans t).partAt part).token x.1 =
      if ((t.partAt part).token x.1).mode = .parked then grantToken l.pkg x.2 l.id ((t.partAt part).token x.1) else (t.partAt part).token x.1 := by
  induction spans generalizing t with
  | nil => exact absurd listed List.not_mem_nil
  | cons y rest ih =>
    rw [List.map_cons, List.nodup_cons] at once
    have moved : spansMoved part l (y :: rest) t =
        spansMoved part l rest (t.modToken part y.1 fun k => if k.mode = .parked then grantToken l.pkg y.2 l.id k else k) := rfl
    rw [moved]
    rcases List.mem_cons.1 listed with rfl | later
    · rw [spansMoved_other part l once.1, token_modToken, if_pos rfl]
    · have other : x.1 ≠ y.1 := fun same => once.1 (same ▸ List.mem_map_of_mem (f := (·.1)) later)
      rw [ih once.2 later, token_modToken, if_neg other]

theorem recordsBound_apart (d : Nat) (t : State) : (recordsBound s part l ks d t).apart = t.apart := by
  unfold recordsBound
  generalize List.range ks.length = is
  induction is generalizing t with
  | nil => rfl
  | cons i rest ih => exact (ih _).trans rfl

/-- No core that runs nothing is asked to make way. -/
theorem madeWay_idle {t : State} (idle : ∀ k ∈ ks, (t.coreAt k).run = none) : ks.foldl (madeWay part l) t = t := by
  have all (js : List Nat) (h : ∀ k ∈ js, (t.coreAt k).run = none) : js.foldl (madeWay part l) t = t := by
    induction js with
    | nil => rfl
    | cons k rest ih =>
      have still : madeWay part l t k = t := if_neg fun c => by rw [h k List.mem_cons_self] at c; exact Bool.false_ne_true c.1
      rw [List.foldl_cons, still]
      exact ih fun j hj => h j (List.mem_cons_of_mem k hj)
  exact all ks idle

variable (single : recField l.record 0x1D 1 ≠ 2) (distinct : ks.Nodup) (empty : ∀ k ∈ ks, (s.coreAt k).slot0.state = .empty ∧ (s.coreAt k).run = none)
include single distinct empty

theorem recordsBound_cores (d n : Nat) : (∀ i, i < ks.length →
      ((recordsBound s part l ks d { s with drawn := n }).coreAt (ks.getD i 0)).slot0 = boundRecord s part l ks d i) ∧
    ∀ k ∈ ks, ((recordsBound s part l ks d { s with drawn := n }).coreAt k).run = none := by
  have own := (coreAt_modCores ks distinct (fun i c => c.bind (boundRecord s part l ks d i) (recField l.record 0x1D 1)) ks.length (Nat.le_refl _)
    { s with drawn := n }).2
  have at_ {i : Nat} (h : i < ks.length) : ks.getD i 0 ∈ ks := by simp [h]
  have bound (c : Core) (sl : Slot) (h : c.slot0.state = .empty) : c.bind sl (recField l.record 0x1D 1) = { c with slot0 := sl } := by
    unfold Core.bind
    rw [if_neg single, if_pos h]
  have core {i : Nat} (hi : i < ks.length) : (recordsBound s part l ks d { s with drawn := n }).coreAt (ks.getD i 0) =
      { s.coreAt (ks.getD i 0) with slot0 := boundRecord s part l ks d i } :=
    (own i hi).trans ((if_pos hi).trans (bound _ _ (empty _ (at_ hi)).1))
  refine ⟨fun i hi => by rw [core hi], fun k hk => ?_⟩
  obtain ⟨i, hi, rfl⟩ := List.getElem_of_mem hk
  have is : ks.getD i 0 = ks[i] := by simp [hi]
  have run : ((recordsBound s part l ks d { s with drawn := n }).coreAt (ks.getD i 0)).run = (s.coreAt (ks.getD i 0)).run := by rw [core hi]
  rw [is] at run
  exact run.trans (empty _ hk).2

/-- The law of a binding: the records, the launch and its spans. -/
theorem bindLaunch_law (spare : List Nat) (spans : List (Nat × Nat)) : (s.bindLaunch part l ks spare spans).mem = s.mem ∧
    (∀ x ∈ ((s.bindLaunch part l ks spare spans).partAt part).launches, x.id = l.id → x.state = .bound) ∧
    (∃ d, d ≤ 16368 ∧ ∀ i, i < ks.length → ((s.bindLaunch part l ks spare spans).coreAt (ks.getD i 0)).slot0 =
      { s.bindRecord part l ks i (ks.getD i 0) with ready := s.clock + d }) ∧
    ((spans.map (·.1)).Nodup → ∀ x ∈ spans, ((s.bindLaunch part l ks spare spans).partAt part).token x.1 =
      if ((s.partAt part).token x.1).mode = .parked then grantToken l.pkg x.2 l.id ((s.partAt part).token x.1) else (s.partAt part).token x.1) := by
  obtain ⟨d, n, small, binds⟩ := bindLaunch_eq s part l ks spare spans
  obtain ⟨records, idle⟩ := recordsBound_cores s part l ks single distinct empty d n
  have apart := recordsBound_apart s part l ks d { s with drawn := n }
  generalize recordsBound s part l ks d { s with drawn := n } = t1 at binds records idle apart
  obtain ⟨apart2, cores2⟩ := sparesReserved_law part l spare t1
  generalize sparesReserved part l spare t1 = t2 at binds apart2 cores2
  obtain ⟨cores3, mem3, launches3⟩ := spansMoved_law part l spans t2
  have tokens3 (once : (spans.map (·.1)).Nodup) {x : Nat × Nat} (listed : x ∈ spans) := spansMoved_token part l once listed t2
  generalize spansMoved part l spans t2 = t3 at binds cores3 mem3 launches3 tokens3
  have core3 (k : Nat) : (t3.modLaunch part l.id fun x => { x with state := .bound, ngrant := ks.length }).coreAt k = t2.coreAt k :=
    congrArg (fun m => Sp.get (Core.atReset k) m k) cores3
  rw [madeWay_idle part l ks fun k hk => by rw [core3 k, (cores2 k).2, idle k hk]] at binds
  rw [binds]
  have mem : t3.mem = s.mem := mem3.trans ((congrArg State.mem apart2 :).trans (congrArg State.mem apart :))
  have part2 : t2.partAt part = s.partAt part := congrArg (fun m => Sp.get _ m part) ((congrArg State.parts apart2 :).trans (congrArg State.parts apart :))
  refine ⟨mem, fun x hx id => ?_, ⟨d, small, fun i hi => ?_⟩, fun once x listed => ?_⟩
  · unfold State.modLaunch at hx
    rw [partAt_modPartAt_self] at hx
    obtain ⟨y, -, rfl⟩ := List.mem_map.1 hx
    by_cases same : y.id = l.id
    · rw [if_pos same]
    · rw [if_neg same] at id
      exact absurd id same
  · rw [core3, (cores2 _).1, records i hi]
    rfl
  · have token : ((t3.modLaunch part l.id fun x => { x with state := .bound, ngrant := ks.length }).partAt part).token x.1 = (t3.partAt part).token x.1 := by
      unfold State.modLaunch
      rw [partAt_modPartAt_self]
      rfl
    rw [token, tokens3 once listed, part2]

end

/-! ## The retest (R366) -/

section
variable {part : Nat} {l : Launch} {s : State} (only : (s.partAt part).launches.filter (fun x => decide (x.state = .waiting)) = [l])
  (found : (s.partAt part).launch l.id = some l)
include only found

theorem exec_admissionRetest_one : exec (.admissionRetest part) s = .next (s.tryBind part l.id) := by
  rw [exec_admissionRetest, execAdmissionRetest, waitingOrder, only]
  rfl

theorem waiting_of_only : l.state = .waiting := by
  have listed : l ∈ (s.partAt part).launches.filter (fun x => decide (x.state = .waiting)) := by rw [only]; exact List.mem_singleton_self l
  exact of_decide_eq_true (List.mem_filter.1 listed).2

theorem tryBind_hot (hot : (s.pkgAt l.pkg).hot = true) : s.tryBind part l.id = s := by
  unfold State.tryBind
  rw [found]
  exact if_pos (.inr hot)

theorem tryBind_cool (cool : (s.pkgAt l.pkg).hot = false) : s.tryBind part l.id =
    if (s.grant part l.pkg l.record (s.freeCore (recField l.record 0x1D 1))).1.length < recField l.record 0x28 2 then s
    else s.bindLaunch part l (s.grant part l.pkg l.record (s.freeCore (recField l.record 0x1D 1))).1
      (s.grant part l.pkg l.record (s.freeCore (recField l.record 0x1D 1))).2 l.grants := by
  have waits := waiting_of_only only found
  unfold State.tryBind
  rw [found]
  exact if_neg (by rw [waits, cool]; simp)

theorem tryBind_short (short : (s.grant part l.pkg l.record (s.freeCore (recField l.record 0x1D 1))).1.length < recField l.record 0x28 2) :
    s.tryBind part l.id = s := by
  by_cases hot : (s.pkgAt l.pkg).hot = true
  · exact tryBind_hot only found hot
  · rw [tryBind_cool only found (Bool.eq_false_of_not_eq_true hot), if_pos short]

end

/-! ## The obligation -/

section
variable {part queue : Nat} {q : LaunchQueue} {s : State} (registered : (s.partAt part).queue? queue = some q)
include registered

/-- A queue is passed over by both steps. -/
theorem queue_passed (pass : ∀ want go, s.takeRecord part queue want go = .next s) :
    exec (.admission part queue) s = .next s ∧ exec (.graphReplay part queue) s = .next s := by
  rw [exec_admission, exec_graphReplay]
  exact ⟨pass .., pass ..⟩

theorem queue_stops (runs : q.stopped = false) (bad : s.headerOk part q.h = false) : ∃ t, exec (.admission part queue) s = .next t ∧
    exec (.graphReplay part queue) s = .next t ∧ (t.partAt part).queue? queue = some { q with stopped := true } ∧ t.mem = s.mem := by
  rw [exec_admission, exec_graphReplay]
  exact ⟨_, takeRecord_bad registered runs bad, takeRecord_bad registered runs bad, stopQueue_law.1, stopQueue_law.2⟩

/-- The record at the head goes to the step that wants it. -/
theorem queue_taken (runs : q.stopped = false) (ok : s.headerOk part q.h = true) {r : BitVec 1024} {head : Nat}
    (next : s.nextRecord part q queue = some (r, head)) (first : s.queueFirst part (s.partAt part).queues (queue, q) = true) :
    let u := s.writeAt part (q.h + 8) (leBytes 8 (head + 1))
    (s.replayable part q r = false → exec (.admission part queue) s = .next (u.submit part queue q.pkg r 0 none) ∧
      exec (.graphReplay part queue) s = .next s) ∧
    (s.replayable part q r = true → exec (.graphReplay part queue) s = .next (u.startReplayOf part queue q.pkg r 0 none) ∧
      exec (.admission part queue) s = .next s) := by
  dsimp only
  rw [exec_admission, exec_graphReplay, execAdmission, execGraphReplay, takeRecord_takes registered runs ok next first,
    takeRecord_takes registered runs ok next first]
  refine ⟨fun plain => ?_, fun replays => ?_⟩
  · rw [plain]
    exact ⟨rfl, rfl⟩
  · rw [replays]
    exact ⟨rfl, rfl⟩

end

/-- Settles O47: a record is followed from its queue to its cores. -/
theorem launchRecordsAreAdmitted : Obligations.LaunchRecordsAreAdmitted := by
  unfold Obligations.LaunchRecordsAreAdmitted
  refine ⟨fun part queue q s registered => ⟨fun stopped => queue_passed registered fun _ _ => takeRecord_stopped registered stopped,
      queue_stops registered, fun runs ok none => queue_passed registered fun _ _ => takeRecord_behind registered runs ok (queueFirst_empty none ok),
      fun r head runs ok next => ⟨fun ahead => queue_passed registered fun _ _ => takeRecord_behind registered runs ok (queueFirst_behind runs ok next ahead),
        queue_taken registered runs ok next⟩⟩,
    fun part queue pkg r s => ⟨submit_rejected, submit_definition, submit_replay, submit_waits, rejectCode_format part pkg r s,
      rejectCode_handle part pkg r s, fun ok handles => ?_, fun gs => grantsOk_law, grantsOk_empty s⟩,
    fun part pkg r free s => ⟨fun small => ?_, fun large => grant_whole s part pkg r free large⟩,
    fun part l ks i k s => bindRecord_law part l s,
    fun part l s only found => ?_, fun part s none => ?_, completionBytes_law⟩
  · obtain ⟨size, tiles, rest⟩ := rejectCode_rest part pkg r s ok handles
    refine ⟨size, fun sized bad => tiles (by omega) bad, fun sized tiled => rest (by omega) (by omega)⟩
  · obtain ⟨share, e, sum, shares, granted, reserved⟩ := grant_shared s part pkg r free small
    have pool : grantPool s part pkg r free = fun d => if recField r 0x1F 1 = 0 then (dieCores s pkg d).filter (freeHere s part pkg free)
        else ((List.range 16).filter fun q => (quadCores d q).all (freeHere s part pkg free)).flatMap (quadCores d) := by
      funext d
      unfold grantPool
      by_cases cores : recField r 0x1F 1 = 0
      · rw [if_pos cores, if_pos cores]
      · rw [if_neg cores, if_neg cores, if_pos (show recField r 0x1F 1 = 1 by omega)]
    have offer : dieOffer s part pkg r free = fun d => min (recField r (0x30 + d) 1) (grantPool s part pkg r free d).length := by
      funext d
      exact if_pos small
    unfold grantCount offers at sum
    rw [offer, pool] at sum shares
    rw [pool] at granted reserved
    exact ⟨share, e, sum, shares, granted, reserved⟩
  · have step := exec_admissionRetest_one only found
    refine ⟨fun hot => step.trans (congrArg _ (tryBind_hot only found hot)), fun short => step.trans (congrArg _ (tryBind_short only found short)),
      fun cool enough single distinct empty => ⟨_, step, ?_⟩⟩
    rw [tryBind_cool only found cool, if_neg (Nat.not_lt.2 enough)]
    exact bindLaunch_law s part l _ single distinct empty _ l.grants
  · rw [exec_admissionRetest, execAdmissionRetest, none]
    rfl

end Sys2Proof.Proofs
end
